-- ==== Sys2Proof/Word.lean ====
section
/-!
DEFINITION. Sys2Proof/Word.lean: the plain types the whole model is written over. Registers are 32-bit words (R11);
memory is bytes (R8); every sparse collection of the module is a list of (number, value) pairs in one canonical form
(`Tab`); a register field is an address with a bit range (`Fld`).
-/
namespace Sys2Proof

/-- A register word (R11: registers are 32 bits wide). -/
abbrev Word := BitVec 32

/-- A byte of memory. -/
abbrev Byte := BitVec 8

/-- A 64-bit value: times, bay indices, marks, keys (R10). -/
abbrev DWord := BitVec 64

/-- A sparse table: pairs of a number (an address or a unit's index) and a value. The canonical form has strictly
rising numbers and lists no value equal to what an unlisted number reads as. -/
abbrev Tab (α : Type) := List (Nat × α)

/-- A register field: the byte address of its register and its bit range `hi:lo`. -/
structure Fld where
  addr : Nat
  hi : Nat
  lo : Nat
  deriving DecidableEq, Repr

/-- An exact rational number, not necessarily in lowest terms; the denominator of every value the model forms is
positive. Used for exact results before the one rounding the spec gives. -/
structure Q where
  num : Int
  den : Nat
  deriving DecidableEq, Repr

end Sys2Proof
end

