-- ==== Sys2Proof/Types.lean ====
section
/-!
DEFINITION. Sys2Proof/Types.lean: the records that cross between the units of the module, or between the module and its
surroundings, under the layouts the spec gives them. They are plain data, used by the commands (Syntax) and by the state.
-/
namespace Sys2Proof

/-- The two halves of the module, each with a fault collector (R452). -/
inductive Half where
  | sill | ridge
  deriving DecidableEq, Repr

/-- An object entry of a verdict group (R209). `verdict`: 0 PASS, 1 EJECT, 2 indeterminate. The flags are those of
offset 0x17. -/
structure ObjEntry where
  countLead : Int
  objId : Nat
  countLen : Nat
  colFirst : Nat
  colLast : Nat
  cls : Nat
  verdict : Nat
  score : Nat
  continued : Bool := false
  partialObj : Bool := false
  openForced : Bool := false
  voidTouch : Bool := false
  uncovered : Bool := false
  evidence : Bool := false
  overflow : Bool := false
  deriving DecidableEq, Repr

/-- The group header of R208 with its object entries; `kind` 0 verdicts, 1 overrun notice. -/
structure VerdictGroup where
  strip : Nat
  closeBay : Nat
  stream : Nat
  row : Nat
  kind : Nat
  job : Nat
  candOvf : Bool := false
  objOvf : Bool := false
  carryLost : Bool := false
  incomplete : Bool := false
  replay : Bool := false
  objs : List ObjEntry := []
  deriving DecidableEq, Repr

/-- A provisional record (R134), with the close bay of its strip. -/
structure ProvRec where
  strip : Nat
  provId : Nat
  row : Nat
  eject : Bool
  continued : Bool := false
  partialObj : Bool := false
  openForced : Bool := false
  voidTouch : Bool := false
  uncovered : Bool := false
  ejScore : Nat := 0
  objScore : Nat := 0
  countLead : Int
  countTrail : Int
  colFirst : Nat
  colLast : Nat
  deriving DecidableEq, Repr

/-- The key of a firing entry (R362). -/
structure EntKey where
  source : Nat
  strip : Nat
  objId : Nat
  map : Nat
  deriving DecidableEq, Repr

/-- The 32-byte firing entry of R362. `row` and `job` say whose entry it is (the job for a disable with cancel_firings,
R49), `closeBay` the close bay; `openSealed` says that its opening change has been sealed. `cause`: 0 confirmed,
1 indeterminate, 2 late action. `estOpen` and `estClose` say which of its changes are flagged fired-on-estimate (R349). -/
structure FEntry where
  key : EntKey
  cOpen : Int
  cClose : Int
  port : Nat
  vFirst : Nat
  vLast : Nat
  shape : Nat
  cause : Nat
  row : Nat
  job : Nat
  closeBay : Nat
  countLead : Int := 0
  cls : Nat := 0
  openSealed : Bool := false
  closeSealed : Bool := false
  unmirrored : Bool := false
  firedLate : Bool := false
  overflow : Bool := false
  estimate : Bool := false
  truncated : Bool := false
  cancelled : Bool := false
  estOpen : Bool := false
  estClose : Bool := false
  deriving DecidableEq, Repr

/-- What a MIRROR record holds (R326): a firing entry, the cancellation of a queued entry, the encoder counts latched
at a bay boundary (port, position in 1/65,536 counts). -/
inductive MirrorRec where
  | entry (e : FEntry)
  | cancel (k : EntKey)
  | counts (bay : Nat) (l : List (Nat × Int))
  deriving DecidableEq, Repr

/-- A result record (R574). `kind`: 0 object, 1 entry left its queue, 2 supplement, 3 strip unjudged. `action`: 0 PASS,
1 EJECT, 2 none. `cause`: 0 confirmed, 1 indeterminate, 2 late action, 3 unjudged, 4 aborted, 5 reset. -/
structure ResultRec where
  strip : Nat
  closeBay : Nat
  countLead : Int := 0
  objId : Nat
  stream : Nat
  cls : Nat := 0
  kind : Nat
  action : Nat
  cause : Nat
  late : Bool := false
  afterLate : Bool := false
  replay : Bool := false
  lockStep : Bool := false
  notFired : Bool := false
  evidence : Bool := false
  portMap : Nat := 0
  status : Nat := 0
  deriving DecidableEq, Repr

/-- The engines that take commands from the cut list (R29). -/
inductive Engine where
  | bent (n : Nat) | stud (n : Nat) | attention | spectral | postproc
  | tenonS2R | tenonR2S | purlinDma (n : Nat) | cmDma
  deriving DecidableEq, Repr

/-- The kind of a cut-list entry (R30, word 0 bits 31:29). -/
inductive EntryKind where
  | foreground | window | segment | gate | wake
  deriving DecidableEq, Repr

/-- What a command meets in the memories (R243, R245, R246, R255, R259), as byte addresses: corrected and uncorrectable granules of bent
SRAM that it reads (byte a of bent n as n · 2²³ + a), its groups of valid bits with a parity error, granules of HBM and of capture
memory, HBM transfers repeated for parity; and the bents whose SRAM reports a write collision with one of its writes.
(Log: 14 DEDUCED.) -/
structure ReadErrs where
  sramCe : List Nat := []
  sramUe : List Nat := []
  sramPe : List Nat := []
  hbmCe : List Nat := []
  hbmUe : List Nat := []
  hbmRetry : List Nat := []
  cmCe : List Nat := []
  cmUe : List Nat := []
  colls : List Nat := []
  deriving DecidableEq, Repr

/-- Where the elements that a command writes stand in their layer's mark shape (R434): the row (31 none), the index of the first,
the steps of the index from one line (or matrix row) to the next and from one pixel (or matrix column) to the next. -/
structure MarkPart where
  row : Nat := 31
  base : Nat := 0
  lineStep : Nat := 0
  pixStep : Nat := 1
  deriving DecidableEq, Repr

/-- What a bent command meets that its descriptor does not give: where the scale arrays of MX operands stand (R158 gives them no
address field), its place in the layer's mark shape, memory errors, the cycles for which its weight stream stalled the
array (R175, R176).
(Log: 73 DESIGN CHOICE, 115 DEDUCED.) -/
structure CmdPlan where
  scaleA : Nat := 0
  scaleB : Nat := 0
  scaleOut : Nat := 0
  part : MarkPart := {}
  errs : ReadErrs := {}
  stall : Nat := 0
  deriving DecidableEq, Repr

/-- A function of the vector unit (R171). -/
inductive VecOp where
  | add | sub | mul | fma | min | max | abs | neg | compare | select | div | sqrt
  | rcp | rsqrt | exp2 | log2 | exp | log | tanh | sigmoid | gelu | silu
  | convert | quantise | sum | maxOf | minOf | sumSquares
  deriving DecidableEq, Repr

/-- The operands of a VECTOR command that R156 gives no field: the function, and the steps in elements of its second and
third operand from row to row and from column to column. -/
structure VecPlan where
  op : VecOp
  bRow : Nat := 0
  bCol : Nat := 1
  pRow : Nat := 0
  pCol : Nat := 1
  deriving DecidableEq, Repr

/-- A cut-list entry (R30). `wait` and `signal` are semaphore numbers, none for 0x3FF. -/
structure CutEntry where
  kind : EntryKind
  job : Nat
  startCycle : Nat
  descPtr : Nat
  stageOffset : Nat
  wait : Option Nat
  signal : Option Nat
  lastInBay : Bool
  batchGated : Bool
  variableCount : Bool
  preemptPoint : Bool
  plannedEnd : Nat
  deriving DecidableEq, Repr

/-- A cut-list entry as the cut-list segment holds it: its four 32-bit words (R30). -/
structure CutWords where
  w0 : Word
  w1 : Word
  w2 : Word
  w3 : Word
  deriving DecidableEq, Repr

/-- A cell of the screening network's two INT8 score maps (R131): cell row and column on the strip's own lines, objectness
and eject score. -/
structure ScoreCell where
  y : Nat
  x : Nat
  ob : Int
  ej : Int
  deriving DecidableEq, Repr

/-- What a background segment does (R30, kind 010): the command of its descriptor, with what that meets. -/
inductive SegWork where
  | matmul (pl : CmdPlan)
  | combine (pl : CmdPlan)
  | vector (v : VecPlan) (pl : CmdPlan)
  | conv (pl : CmdPlan)
  | maxpool (pl : CmdPlan)
  | avgpool (pl : CmdPlan)
  | upsample (pl : CmdPlan)
  | copy (er : ReadErrs)
  | clear
  | spectral (pl : CmdPlan)
  | attend (pl : CmdPlan)
  | append (er : ReadErrs)
  | detect (strip : Nat) (er : ReadErrs)
  | screen (row strip : Nat) (cells : List ScoreCell) (layer : Option Nat) (er : ReadErrs)
  | cmDma (er : ReadErrs)
  | tenon (er : ReadErrs)
  | purlin (dev : Nat) (er : ReadErrs)
  deriving DecidableEq, Repr

/-- A witness record (R437). `kind`: 0 layer mark, 1 gap, 2 digest, 3 loss; `row` 31 for none. -/
structure WitRec where
  key : Nat
  mark : Nat
  elements : Nat
  layerId : Nat
  job : Nat
  row : Nat
  kind : Nat
  partialMark : Bool := false
  replay : Bool := false
  background : Bool := false
  lost : Bool := false
  deriving DecidableEq, Repr

/-- A mark of a layer: of one (job, key, layer, row) (R435). -/
structure Mark where
  job : Nat
  key : Nat
  layer : Nat
  row : Nat
  sum : Nat
  elements : Nat
  deriving DecidableEq, Repr

/-- A bank's status frame as it arrives (R388), with the outcome of its CRC and tag checks (R386). -/
structure StatusFrame where
  active : Bool
  seq : Nat
  nonce : Nat
  bankId : Nat
  flags : Nat
  slice : Nat
  faults : Nat
  crcOk : Bool := true
  tagOk : Bool := true
  deriving DecidableEq, Repr

/-- What a camera answers during bring-up (R66, R67): whether it acknowledges, its Revision major number, vendor and model
names, whether its connection order is link order, whether its links retrain, the value that the register record just written reads
back, its trigger counter just before acquisition start. -/
structure CamReply where
  acked : Bool := true
  revMajor : Nat := 0
  vendor : List Byte := []
  model : List Byte := []
  orderOk : Bool := true
  trained : Bool := true
  readBack : Nat := 0
  counter : Nat := 0
  deriving DecidableEq, Repr

/-- An image header (R79, R90): `bits` as the code of CXP_CAM_INFO; `area` an area-scan image of `height` lines; `time` a time value
that it reports (R83). -/
structure ImgHeader where
  width : Nat
  pixelFormat : Nat
  tapGeometry : Nat
  area : Bool := false
  planes : Nat := 1
  bits : Nat := 0
  height : Nat := 1
  time : Option Nat := none
  deriving DecidableEq, Repr

/-- What the line-paced requests of capture memory meet as a line passes (R113, R259, R260): whether the pipeline's output queue is
full, the longest wait in ns, corrected and uncorrectable granules by address, and the lead-line pixels (line, first and last column)
that an uncorrectable read takes. -/
structure LineIo where
  full : Bool := false
  wait : Nat := 0
  cmCe : List Nat := []
  cmUe : List Nat := []
  leadLost : List (Nat × Nat × Nat) := []
  deriving DecidableEq, Repr

/-- A stream packet as it arrives on a link (R79): the outcome of its CRC, whether its stream ID is the camera's, its packet
tag, whether tags before it are missing for good (`skip`, bonded camera), the image header or line-size field it carries,
whether it is an event packet, a time value of its line header (R83). `lost` is the number of lines that a discarded packet or missing tags covered, as the packets on
either side show; none where it cannot be found. -/
structure StreamPkt where
  link : Nat
  crcOk : Bool := true
  idOk : Bool := true
  tag : Nat
  skip : Bool := false
  lost : Option Nat := some 0
  header : Option ImgHeader := none
  lineSize : Option Nat := none
  event : Bool := false
  lineTime : Option Nat := none
  deriving DecidableEq, Repr

/-- The three instants of a trigger-counter audit (R77): the read command begins, its acknowledge brings the counter's value,
a line timeout later the lines are counted. -/
inductive AuditPhase where
  | start
  | ack (value : Nat)
  | check
  deriving DecidableEq, Repr

/-- A transfer's header (R281). -/
structure TnXfer where
  bay : Nat
  closeBay : Nat
  dst : Nat
  length : Nat
  space : Nat
  unit : Nat
  tag : Nat
  deriving DecidableEq, Repr

/-- How a signed command is presented (R532): its session, its challenge, whether it carries the module's serial number,
whether its signatures verify under the keys its level asks for.
(Log: 13 DEDUCED.) -/
structure Auth where
  session : Nat
  challenge : Nat
  serialOk : Bool := true
  sigOk : Bool := true
  deriving DecidableEq, Repr

/-- The optimiser settings that a training command names (R548, R551), as FP32 bits; none leaves the story stick's value. -/
structure TrainOpts where
  adam : Option Bool := none
  lr : Option Nat := none
  mu : Option Nat := none
  b1 : Option Nat := none
  b2 : Option Nat := none
  eps : Option Nat := none
  wd : Option Nat := none
  deriving DecidableEq, Repr

/-- A MARKS frame (R445): the leader's digest and the marks of each layer, summed over rows. -/
structure MarksFrame where
  key : Nat
  digest : Nat
  elements : Nat
  job : Nat
  gap : Bool
  background : Bool
  layers : List (Nat × Nat)
  deriving DecidableEq, Repr

/-- A HELLO (R315): device ID, port, group hash, reproducibility tag, size table, hash of the device identity key. -/
structure HelloRec where
  id : Nat
  port : Nat
  group : Nat
  tag : Nat
  size : List Nat
  idHash : Nat
  deriving DecidableEq, Repr

/-- What a LINK frame carries (R310, R320, R321, R528): blocks returned by class (0 bulk, 1 mirror, 2 control), a low-power-idle
request or its grant, traffic that waits at the peer after a wake, the proposal of a key generation with its switch counter. -/
structure LinkRec where
  bulk : Nat := 0
  mirror : Nat := 0
  control : Nat := 0
  lpiReq : Bool := false
  lpiGrant : Bool := false
  busy : Bool := false
  rekey : Option (Nat × Nat) := none
  deriving DecidableEq, Repr

/-- What a Purlin frame carries, by type (R308). -/
inductive PurBody where
  | data (x : TnXfer) (payload : List Byte)
  | ack (cls seq : Nat)
  | nak (cls seq : Nat)
  | mirror (id : Nat) (r : MirrorRec)
  | mirrorAck (id : Nat)
  | hello (h : HelloRec)
  | link (l : LinkRec)
  | marks (f : MarksFrame)
  deriving DecidableEq, Repr

/-- A Purlin frame (R307): `cls` 0 bulk, 1 mirror, 2 control. `reserved` tells a reserved bit or type, `tagOk` the outcome of the GCM
check under the link's keys, `afterFiller` that a filler block came before it. -/
structure PurFrame where
  body : PurBody
  cls : Nat
  epoch : Nat := 0
  cancelled : Bool := false
  sync : Bool := false
  reserved : Bool := false
  dst : Nat
  src : Nat
  hops : Nat := 15
  seq : Nat := 0
  length : Nat := 0
  bay : Nat := 0
  linkCtr : Nat := 0
  tagOk : Bool := true
  afterFiller : Bool := true
  deriving DecidableEq, Repr

/-- How a training of a Purlin port ends (R303, R304): whether lanes locked, their map, inversions and skew, whether the peer's
certificate was accepted where the peers authenticate, and the hash of its key. -/
structure PurTrain where
  ok : Bool := true
  laneMap : Nat := 0xE4
  inverted : Nat := 0
  skew : Nat := 0
  authOk : Bool := true
  certHash : Nat := 0
  deriving DecidableEq, Repr

/-- A record of a subscribed stream (R572). -/
inductive StreamRec where
  | result (r : ResultRec)
  | preview (r : ProvRec)
  | witness (r : WitRec)
  deriving DecidableEq, Repr

/-- An NV log entry (R526): its sequence number, what it is of, its numbers. -/
structure NvEntry where
  seq : Nat
  what : String
  args : List Nat
  deriving DecidableEq, Repr

/-- What leaves the module: the model's own record of its outputs, in order.
(Log: 12 DEDUCED.) -/
inductive Emit where
  /-- An ALARM message to every open session (R571). -/
  | alarm (half : Half) (source sev bay : Nat)
  /-- A result record released (R574). -/
  | result (r : ResultRec)
  /-- A provisional record on the preview stream (R140). -/
  | preview (r : ProvRec)
  /-- A witness record released (R440). -/
  | witness (r : WitRec)
  /-- A Purlin frame on a port (R307), with the bytes of its header and, where the spec gives them, of its payload, before encryption. -/
  | purlin (port : Nat) (f : PurFrame) (bytes : List Byte)
  /-- A datagram of a subscription (R573): its number and kind, the Ethernet port it leaves, the destination with its UDP port, the
  source port, its sequence number, its header and records as bytes before their encryption. -/
  | datagram (sub kind ethPort dest udpPort srcPort seq : Nat) (bytes : List Byte)
  /-- A Peg port's timed frame of a slot (R382), from its header byte to its crc. -/
  | pegTimed (port slot : Nat) (content : List Byte)
  /-- A Peg port's pilot frame of a slot (R385), from its header byte to its crc. -/
  | pegPilot (port slot : Nat) (content : List Byte)
  /-- Entries of the NV log, delivered to a session (R526, R570). -/
  | nvLog (session : Nat) (entries : List NvEntry)
  /-- Any other frame, packet or message that a unit sends: the unit, its number, what it is, its numbers. -/
  | send (unit : String) (index : Nat) (what : String) (args : List Nat)
  /-- A change of an output pin. -/
  | pin (name : String) (index : Nat) (level : Bool)
  deriving DecidableEq, Repr

end Sys2Proof
end

