-- ==== Sys2Proof/Machine/PartsB.lean ====
section
/-!
DEFINITION. Sys2Proof/Machine/PartsB.lean: the state of bays, cut lists, jobs and engines that no register holds, and the
story stick as it is held once loaded (R510 to R519): the typed content of its records and the bytes of its descriptor
segment.
-/
namespace Sys2Proof.Machine

/-- A job of the job table (R518). `cls` 1 foreground, 2 background; roles as their bits. -/
structure JobRec where
  job : Nat
  cls : Nat
  enable : Bool
  verdict : Bool := false
  screening : Bool := false
  text : Bool := false
  adapt : Bool := false
  rows : List Nat := []
  reuse : Nat := 0
  tilingHash : Nat := 0
  saveBytes : Nat := 0
  saveCycles : Nat := 0
  saveSeg : Nat := 0xFF
  dictSeg : Nat := 0xFF
  deriving DecidableEq, Repr

/-- What the module remembers of a job (R48 to R51): the control value that acts at the next boundary (bit 0 enable, bit 1
abort, bit 2 cancel_firings), a value written too late for it, the value that acted at the last boundary, the first close bay it
processes, the intervals of close bays (first, one past the last) of its earlier enablings that may still have pairs in flight, the
step of a background job (R435). -/
structure JobRun where
  applied : Bool := false
  ctrl : Nat := 0
  ctrlLate : Option Nat := none
  acted : Nat := 0
  firstClose : Nat := 0
  past : List (Nat × Nat) := []
  step : Nat := 0
  deriving DecidableEq, Repr

/-- A command an engine is running: its cut-list entry, its close bay, and what its completion passes on: the witness
sum of the layer with its element count (R433, R435), and what it writes, as global addresses with bytes, which stands in
memory from its completion on (R39: the output of a stopped command is discarded). `op` names the command, `item` the
strip it works on where it is one of a strip. `sats`, `nans` and `infs` count the saturated, NaN and infinite elements written
(R182), `tiles` the spectral tiles (R213);
`rings` the (ring, strip) pairs that an APPEND writes (R227, R237); `limit` the end of the background time in which a segment
started, in cycles after the boundary (R46). -/
structure Running where
  entry : CutEntry
  closeBay : Nat
  startedAt : Nat
  layer : Option Nat := none
  row : Nat := 31
  sum : Nat := 0
  elements : Nat := 0
  op : String := ""
  item : Nat := 0
  writes : List (Nat × List Byte) := []
  clears : List (Nat × Nat) := []
  sats : Nat := 0
  nans : Nat := 0
  infs : Nat := 0
  tiles : Nat := 0
  rings : List (Nat × Nat) := []
  limit : Nat := 0
  deriving DecidableEq, Repr

/-- An engine that takes commands from the cut list (R29). `pos` counts the foreground entries of this bay's list that
are behind it; `bg` is the background segment in progress, `bgAt` the next segment of each background job, among the job's own
segments of the engine's background list, `bgSaved` the last saved point of each, `bgTurn` the job whose turn it is; `windowEnd` the end, in cycles after the boundary, of the background window last opened in this bay; `released` says that the
foreground command last behind the list's position left time unused (R35); `acted` holds the gate, wake and window entries of
this bay that have run; `lastEnd` is the cycle at which the bay's last completed foreground command ended (R57); `hit` says that the segment
in progress has read an uncorrectable granule (R246); `gated` and `wakeAt` the bent's power domain (R37); `busy` and `wait` the cycle counts of this bay (R181); `lapFrom` the start of the
present scrub lap (R248). -/
structure EngState where
  pos : Nat := 0
  running : Option Running := none
  bg : Option Running := none
  bgAt : Tab Nat := []
  bgSaved : Tab Nat := []
  bgTurn : Nat := 0
  windowEnd : Option Nat := none
  released : Bool := false
  acted : List CutEntry := []
  lastEnd : Option Nat := none
  hit : Bool := false
  gated : Bool := false
  wakeAt : Option Nat := none
  wakeFailed : Bool := false
  busy : Nat := 0
  wait : Nat := 0
  lapFrom : Nat := 0
  deriving DecidableEq, Repr

/-- Bays (R25 to R52). `bay` is the current index; `ridge` the low 8 bits of the Ridge's own count; `startAt` TB2 at
the last boundary; `semS` and `semR` the signalled semaphores of the two halves; `invalid` the (job, close bay) pairs
marked invalid, `overran` those of them that count as an overrun (R39, R61); `verdictDone` is set once the verdict deadline of the bay has been acted on (R610). -/
structure BayState where
  running : Bool := false
  bay : Nat := 0
  ridge : Nat := 0
  startAt : Nat := 0
  semS : List Nat := []
  semR : List Nat := []
  invalid : List (Nat × Nat) := []
  overran : List (Nat × Nat) := []
  jobs : Tab JobRun := []
  verdictDone : Bool := false
  deriving DecidableEq, Repr

/-- The marks of a (job, key) once sealed (R436): `gap` for an invalid pair. `done` says that they have reached the
log; `sill` marks the studs' marks, kept on the Sill; `lost` a gap declared for a missing set; `incomplete` a set of a fed
strip that was not complete (R443); `relBay` the bay of its release. -/
structure MarkSet where
  job : Nat
  key : Nat
  marks : List Mark
  gap : Bool := false
  background : Bool := false
  sill : Bool := false
  lost : Bool := false
  incomplete : Bool := false
  relBay : Nat := 0
  deriving DecidableEq, Repr

/-- The witness unit (R432 to R446). `open_` are the marks being summed; `sealed` the sets sealed on the Ridge;
`arrived` the sets the Sill has received; `ring` the mark ring, newest last; `queue` the released records; `lostRecs`
how many the full queue has dropped; `frames` the leader's MARKS frames a follower holds, `own` its own released sets
that wait for a frame, `awaiting` the (job, close bay) pairs taken in whose marks have not arrived. -/
structure WitState where
  open_ : List Mark := []
  sealed : List MarkSet := []
  arrived : List MarkSet := []
  ring : List MarkSet := []
  queue : List WitRec := []
  lostRecs : Nat := 0
  frames : List MarksFrame := []
  own : List MarkSet := []
  awaiting : List (Nat × Nat) := []
  deriving DecidableEq, Repr

/-- A stream subscription (R572 to R575): its session and kind (0 result, 1 preview, 2 witness), its destination, the
records queued with the time of each, the next sequence number, the records dropped since. -/
structure Sub where
  num : Nat
  session : Nat
  ethPort : Nat := 0
  kind : Nat
  dest : Nat
  udpPort : Nat
  queue : List (Nat × StreamRec) := []
  seq : Nat := 0
  dropped : Nat := 0
  deriving DecidableEq, Repr

end Sys2Proof.Machine
end

