-- ==== Sys2Proof/Machine/Stick.lean ====
section
/-!
DEFINITION. Sys2Proof/Machine/Stick.lean: the story stick as the module holds it once it is loaded (R510 to R519): the
typed content of its records and the bytes of its descriptor segment. Settings that the spec gives as register fields
live in the register table.
-/
namespace Sys2Proof.Machine

/-- A camera record (R517). -/
structure CameraRec where
  master : Nat
  links : Nat
  rate : Nat := 0
  row : Nat
  width : Nat
  planes : Nat
  bits : Nat
  pixelFormat : Nat := 0
  tapGeometry : Nat := 0
  pocMask : Nat := 0
  position : Nat := 0
  encPort : Nat := 0
  hbMs : Nat := 10
  divider : Nat := 1
  phase : Nat := 0
  minInterval : Nat := 0
  lineTimeout : Nat := 500
  discS : Nat := 30
  revMajor : Nat := 0
  trigCnt : Nat := 0xFFFFFFFF
  vendor : List Byte := []
  model : List Byte := []
  acqAddr : Nat := 0
  acqValue : Nat := 0
  regs : List (Nat × Nat) := []
  deriving DecidableEq, Repr

/-- A camera row's settings that no register holds: the batch slots m of its streams (R33), a replay row's declared
maximum rate (R118), its largest object in lines and its highest belt speed in tenths of counts/s (R21). -/
structure RowRec where
  row : Nat
  slots : Nat := 1
  rpsMax : Nat := 200000
  nObj : Nat := 0
  vMax : Nat := 0
  deriving DecidableEq, Repr

/-- A region of capture memory (R261). `kind`: 0 line capture ring, 1 snapshot ring (both of the camera on master link
`unit`), 2 strip slot ring (of row `unit`), 3 lead buffer, 4 sample store. -/
structure Region where
  kind : Nat
  unit : Nat
  base : Nat
  len : Nat
  deriving DecidableEq, Repr

/-- The layer table of a job (R439, R445): the layer identities in order, and those of which the module computes only a
part (R435). -/
structure LayerTable where
  job : Nat
  layers : List Nat
  parts : List Nat := []
  deriving DecidableEq, Repr

/-- An adaptable head (R543 to R558): its job, its ring and labelled-set capacities, its shape, its capture rule, where its serving
weights lie (HBM address, segment number), their format with the integer factor or the ceiling of its block scales, the settings of
R551 as FP32 bits (none: the default). -/
structure HeadRec where
  head : Nat
  job : Nat
  nCand : Nat := 1024
  nLab : Nat := 16
  dIn : Nat := 16
  tokens : Nat := 1
  fmt : Nat := 0
  factor : Nat := 0x3F800000
  maxScale : Nat := 254
  wAddr : Nat := 0
  wSeg : Nat := 0
  classLo : Nat := 0
  classHi : Nat := 255
  qLo : Nat := 0
  qHi : Nat := 255
  rate : Nat := 1
  lr : Option Nat := none
  mu : Option Nat := none
  b1 : Option Nat := none
  b2 : Option Nat := none
  eps : Option Nat := none
  wd : Option Nat := none
  deriving DecidableEq, Repr

/-- A text job (R556 to R560): its dictionary (byte string, special), the token IDs of its template before the evidence and after the
text, the special entries that end an answer, the positions one evidence item takes, the capacity of its cache. -/
structure TextRec where
  job : Nat
  dict : List (List Byte × Bool) := []
  before : List Nat := []
  after : List Nat := []
  ends : List Nat := []
  evidence : Nat := 0
  capacity : Nat := 0
  deriving DecidableEq, Repr

/-- A segment (R514, R253): number, kind (0 cut list, 1 descriptors, 2 weights, 3 KV, 4 work, 5 save, 6 master), owning job, HBM address
and size, plaintext, hash of the plaintext, whether it reads and verifies (R520, code 0x0C). -/
structure SegRec where
  seg : Nat
  kind : Nat
  job : Nat := 0
  size : Nat := 0
  target : Nat := 0
  bytes : List Byte := []
  hash : Nat := 0
  ok : Bool := true
  deriving DecidableEq, Repr

/-- A PMBus device (R582): bus, address, read commands. -/
structure PmbDev where
  bus : Nat
  addr : Nat
  cmds : List Nat
  deriving DecidableEq, Repr

/-- A receive window of the fabric (R314): source device, space, byte range. -/
structure RxWindow where
  src : Nat
  space : Nat
  lo : Nat
  len : Nat
  deriving DecidableEq, Repr

/-- The fabric record (R315): group hash, the identity hash of the peer on each port, receive windows, the device that MARKS frames
and the line records of fed rows go to (R329, R442), the fed rows with where their strip headers go (R441; the address is the
model's), rto in µs (R311), lpi_idle in µs (R320), the group's size table. -/
structure FabricRec where
  group : Nat
  peers : List (Nat × Nat) := []
  windows : List RxWindow := []
  marksDev : Nat := 0
  feed : List (Nat × Nat) := []
  rto : Nat := 8
  lpiIdle : Nat := 100
  size : List Nat := []
  deriving DecidableEq, Repr

/-- A valve map: map `idx` of row `row` (R360). -/
structure MapRec where
  row : Nat
  idx : Nat
  en : Bool := false
  port : Nat := 0
  firstValve : Nat := 0
  valves : Nat := 1
  col0 : Nat := 0
  pitch : Nat := 256
  spread : Nat := 0
  classFirst : Nat := 0
  classLast : Nat := 255
  indet : Bool := true
  offset : Nat := 0
  openAdv : Nat := 0
  closeExt : Nat := 0
  minLen : Nat := 1
  shape : Nat := 0
  maxOpen : Nat := 1000
  deriving DecidableEq, Repr

/-- A port entry of the network record (R519), the latencies as signed ns. -/
structure NetPort where
  flags : Nat := 0
  prefix4 : Nat := 0
  prefix6 : Nat := 0
  ipv4 : Nat := 0
  gw4 : Nat := 0
  mac : List Byte := []
  ipv6 : Nat := 0
  gw6 : Nat := 0
  calRx : Int := 0
  calTx : Int := 0
  deriving DecidableEq, Repr

/-- The story stick held by the module. `lists` gives, for each engine and each bay of the cycle, its list of entries as
the words they stand in (R29, R30); `studRows` the row that each SCREEN descriptor, by its offset, names (the spec gives the layout of a stud's descriptor nowhere); `desc` the bytes of the descriptor segment, `descLen` its length; `cals` the calibration records (R120); `sources` the sources (src_sel,
replay_ch) that the pipelines of a master may take (R116); `fans` the fans present with their curve (R578); `timeWait` time_wait of
R488 in s; `hash` the hash of the signed part, `version` the anti-rollback version (R511); `net` the two Ethernet ports (R519);
`pins` the J4 positions used and `i2cFast` the buses at 400 kHz (R516); `authority`, `tcpPort` and `revoked` the access record
(R531); `tamperResp` the tamper response (R534). -/
structure Stick where
  loaded : Bool := false
  jobs : List JobRec := []
  deps : List (Nat × Nat) := []
  lists : List (Engine × Nat × List CutWords) := []
  bgLists : List (Engine × List CutWords) := []
  studRows : List (Nat × Nat) := []
  desc : Tab Byte := []
  descLen : Nat := 0
  cameras : List CameraRec := []
  rows : List RowRec := []
  regions : List Region := []
  cals : List (List Byte) := []
  sources : List (Nat × Nat × Nat) := []
  layers : List LayerTable := []
  heads : List HeadRec := []
  fabric : Option FabricRec := none
  texts : List TextRec := []
  segs : List SegRec := []
  pmbus : List PmbDev := []
  fans : List Nat := []
  fanCurve : List (Int × Nat) := [(40, 30), (70, 50), (90, 80), (100, 100)]
  timeWait : Nat := 10
  hash : Nat := 0
  version : Nat := 0
  maps : List MapRec := []
  net : List NetPort := []
  pins : List Nat := []
  i2cFast : Nat := 0
  authority : Nat := 0
  tcpPort : Nat := 4896
  revoked : List Nat := []
  tamperResp : Nat := 1
  deriving DecidableEq, Repr

/-- A record header of the image (R512). -/
structure RecHead where
  typ : Nat
  len : Nat
  critical : Bool := false
  deriving DecidableEq, Repr

/-- A story-stick image as the module reads it (R510, R511, R521): the header's fields, the bytes its store holds from the image's
start, the record headers that a walk from 0x100 meets (R512), the hash of the public keys of its signature block, that of its signed
part, whether its signatures verify and its key record unwraps, the entries (address, mask, value) of its register records (R515),
the content of its other records (`content`). `rangesOk` says that every field of its records and descriptors that no check of
Machine/LoadChecks.lean and Machine/FieldRanges.lean names lies in its range. -/
structure Image where
  magic : Nat := 0x53534B41
  format : Nat := 1
  imageLen : Nat
  recordsLen : Nat
  recordCount : Nat
  storeLen : Nat
  version : Nat
  fwMin : Nat
  ucode : Nat
  sizeReq : List Nat
  ownerHash : Nat
  serial : Nat
  pubHash : Nat
  signedHash : Nat
  ecdsaOk : Bool
  mldsaOk : Bool
  keysOk : Bool
  heads : List RecHead
  regs : List (List (Nat × Nat × Nat))
  content : Stick
  rangesOk : Bool := true
  deriving DecidableEq, Repr

/-- How the memories train (R486 step 3): HBM stacks 0 and 1, capture memory. -/
structure MemTrain where
  hbm0 : Bool := true
  hbm1 : Bool := true
  cm : Bool := true
  deriving DecidableEq, Repr

end Sys2Proof.Machine
end

