-- ==== Sys2Proof/Syntax.lean ====
section
/-!
DEFINITION. Sys2Proof/Syntax.lean: the commands of the module, one constructor for each row of the table of operations and
events, in the table's order. `dt` is the number of timing-clock cycles (4 ns, R407) that pass before the command acts. An operand `n` is a
bent, stud, link or pipeline, `p` a port, `r` a row, `h` a head, `j` a job, `d` a direction of the Tenon link (0 Sill to Ridge), `c`
a cut-list entry (or, on I2C, a bus), `a` a signed command's presentation; the meaning's docstring says more.
-/
namespace Sys2Proof

open Sys2Proof.Machine

/-- The commands.
(Log: 116 DEDUCED.) -/
inductive Instr where
  /-- BAY_BOUNDARY (R25): TB3 reaches a multiple of the bay period and a new bay begins on both halves. -/
  | bayBoundary (dt : Nat) (strobe : Option Nat)
  /-- MARK_SET_DEADLINE (R436): At the end of the bay, the Sill logs a gap with the lost flag for each pair whose mark set has
  not arrived. -/
  | markSetDeadline (dt : Nat)
  /-- VERDICT_DEADLINE (R610): 10 µs after bay start, each expected stream and strip that has neither verdicts nor a notice is
  treated as an overrun notice. -/
  | verdictDeadline (dt : Nat)
  /-- END_GUARD_SEAL (R206): In the end guard, the post-processor seals the records and marks of completed pairs, and overrun
  notices for invalid pairs, into the Ridge-to-Sill buffer. -/
  | endGuardSeal (dt : Nat)
  /-- MATMUL (R166): A bent multiplies A by B with exact accumulation and writes the output through the output stage. -/
  | matmul (dt n : Nat) (c : CutEntry) (pl : CmdPlan)
  /-- COMBINE (R168): A bent adds two partials exactly and writes a partial or a rounded output. -/
  | combine (dt n : Nat) (c : CutEntry) (pl : CmdPlan)
  /-- VECTOR (R171): The vector unit runs an element-wise, conversion, quantisation or reduction function. -/
  | vector (dt n : Nat) (c : CutEntry) (v : VecPlan) (pl : CmdPlan)
  /-- DMA_COPY (R251): A bent DMA copies rows between SRAM spaces and HBM, with optional multicast. -/
  | dmaCopy (dt n : Nat) (c : CutEntry) (er : ReadErrs)
  /-- DMA_CLEAR (R247): A bent DMA clears the valid bits of a destination SRAM range. -/
  | dmaClear (dt n : Nat) (c : CutEntry)
  /-- WINDOW_CONV (R190): A bent runs a windowed convolution as a MATMUL over the window. -/
  | windowConv (dt n : Nat) (c : CutEntry) (pl : CmdPlan)
  /-- WINDOW_MAXPOOL (R188): A bent computes the maximum over each window. -/
  | windowMaxpool (dt n : Nat) (c : CutEntry) (pl : CmdPlan)
  /-- WINDOW_AVGPOOL (R189): A bent sums each window exactly and rounds the quotient once. -/
  | windowAvgpool (dt n : Nat) (c : CutEntry) (pl : CmdPlan)
  /-- WINDOW_UPSAMPLE (R186): A bent copies input pixels by the strides. -/
  | windowUpsample (dt n : Nat) (c : CutEntry) (pl : CmdPlan)
  /-- SPECTRAL_CONV2D (R194): The spectral engine computes a stride-1 convolution by overlap-save FFT tiles. -/
  | spectralConv2d (dt : Nat) (c : CutEntry) (pl : CmdPlan)
  /-- DETECT (R199): The post-processor decodes head tensors, suppresses, merges across strips and forms verdict records. -/
  | detect (dt : Nat) (c : CutEntry) (strip : Nat) (er : ReadErrs)
  /-- ATTEND (R231): The attention engine computes attention over the visible keys of each length-table entry. -/
  | attend (dt : Nat) (c : CutEntry) (pl : CmdPlan)
  /-- APPEND (R227): The attention engine writes new keys and values into a ring slot or a linear cache. -/
  | append (dt : Nat) (c : CutEntry) (er : ReadErrs)
  /-- SCREEN (R131): The studs run the screening network on pyramid level 2 and form components of active cells. -/
  | screen (dt n : Nat) (c : CutEntry) (row strip : Nat) (cells : List ScoreCell) (layer : Option Nat) (er : ReadErrs)
  /-- SCREENING_OUTPUT_RELEASE (R135): The stud output stage releases a strip's provisional records and ROI list in one step, or
  discards late output. -/
  | screeningOutputRelease (dt r strip : Nat) (crop : CutEntry)
  /-- TENON_DMA (R282): A Tenon DMA queue sends a transfer across the link to the other half. -/
  | tenonDma (dt d : Nat) (c : CutEntry) (er : ReadErrs) (crop : Option (Nat × Nat))
  /-- PURLIN_DMA (R314): A Purlin DMA queue sends a transfer as DATA frames to another module. -/
  | purlinDma (dt p dev : Nat) (c : CutEntry) (er : ReadErrs)
  /-- CM_DMA (R251): The capture-memory DMA moves data between capture memory and the Ridge. -/
  | cmDma (dt : Nat) (c : CutEntry) (er : ReadErrs)
  /-- GATE (R37): A gate entry switches a bent's power domain off at its start cycle. -/
  | gate (dt n : Nat) (c : CutEntry)
  /-- WAKE (R37): A wake entry switches a bent's power domain on at its start cycle. -/
  | wake (dt n : Nat) (c : CutEntry)
  /-- BACKGROUND_WINDOW (R35): A static background window opens for background segments. -/
  | backgroundWindow (dt : Nat) (e : Engine) (c : CutEntry)
  /-- BACKGROUND_SEGMENT (R44): An engine starts a background segment when it fits before the window end, or saves the job's
  state and yields. -/
  | backgroundSegment (dt : Nat) (e : Engine) (w : SegWork)
  /-- SEGMENT_ROLLBACK (R46): A background segment not complete at the end of its window is stopped, its output discarded and a
  rollback counted. -/
  | segmentRollback (dt : Nat) (e : Engine)
  /-- COMMAND_COMPLETE (R155): An engine command completes, signals its semaphore and passes its witness sum. -/
  | commandComplete (dt : Nat) (e : Engine) (bg : Bool)
  /-- SAMPLE_CAPTURE (R545): A capture command stages the features of every qualifying object in the sample store. -/
  | sampleCapture (dt h : Nat) (feats : List ((Nat × Nat × Nat) × List Byte))
  /-- ADAPT_COMMIT (R554): A commit command clears the head's segment hash register and copies the approved candidate into its
  weights. -/
  | adaptCommit (dt h : Nat)
  /-- JOB_CTRL_WRITE (R48): A write to RC_JOB_CTRL is shadowed to the boundary it reaches in time, or refused for dependencies.
  -/
  | jobCtrlWrite (dt j v : Nat)
  /-- MARGIN_RESET (R56): A write of margin_reset restarts RC_SLACK_MIN. -/
  | marginReset (dt : Nat)
  /-- READ_LO_LATCH (R55): A read of a _LO register latches its _HI register, and TM_TB0_LO latches all four time bases. -/
  | readLoLatch (dt a : Nat)
  /-- CAMERA_BRING_UP (R66): Joiner firmware brings a camera up on its master link, from power through identity check to
  streaming. -/
  | cameraBringUp (dt n : Nat) (r : CamReply)
  /-- DISCOVERY_POLL (R66): Every 100 ms a bootstrap read is sent until it is acknowledged or the discovery timeout expires. -/
  | discoveryPoll (dt n : Nat) (acked : Bool)
  /-- BRING_UP_STEP_TIMEOUT (R68): A bring-up step times out or fails, which sets link_lost and schedules a restart after 1 s.
  -/
  | bringUpStepTimeout (dt n : Nat)
  /-- BRING_UP_RETRY (R68): After 1 s, or 10 s after an identity mismatch, bring-up restarts from its step. -/
  | bringUpRetry (dt n : Nat)
  /-- CAMERA_LINK_LOST (R69): Loss of lock, signal or valid characters on a link takes the whole camera down and raises
  camera-link. -/
  | cameraLinkLost (dt link : Nat)
  /-- RECONNECT (R86): A write of reconnect takes the camera down and restarts bring-up from step 3 at once. -/
  | reconnect (dt n : Nat)
  /-- LINK_HOLD (R86): A write of link_hold holds the camera down with PoCXP off. -/
  | linkHold (dt link : Nat) (hold : Bool)
  /-- POC_FAULT (R70): A PoCXP fault input held low for 50 µs switches the link off, and the third fault in 60 s locks it out.
  -/
  | pocFault (dt link : Nat)
  /-- POC_REENABLE (R70): 1 s after a PoCXP fault, the link is re-enabled unless it is locked out. -/
  | pocReenable (dt link : Nat)
  /-- POC_CLEAR (R86): A write of poc_clear ends a PoCXP lock-out and retries. -/
  | pocClear (dt link : Nat)
  /-- TRIGGER_DUE (R72): The interpolated count reaches a camera's next trigger count, and a trigger packet is sent or a void
  line written. -/
  | triggerDue (dt n : Nat) (io : LineIo)
  /-- STREAM_PACKET (R79): A stream packet is checked for CRC, stream ID, tag, header and line size before its data reaches a
  pipeline. -/
  | streamPacket (dt : Nat) (k : StreamPkt)
  /-- LINE_COMPLETE (R75): A completed line is matched to the oldest trigger slot and processed, or discarded as late or
  unsolicited. -/
  | lineComplete (dt n : Nat) (samples : List Nat) (io : LineIo)
  /-- LINE_TIMEOUT (R75): A trigger slot's line timeout expires, the slot becomes void and a void line is written. -/
  | lineTimeout (dt n : Nat) (io : LineIo)
  /-- CONTROL_ACK (R82): A control acknowledge completes a tagged camera command, or is discarded as unsolicited. -/
  | controlAck (dt n tag value : Nat)
  /-- CONTROL_RESEND (R82): A control command without acknowledge after 50 ms is resent with its tag, and after three resends
  ctrl_timeout is set. -/
  | controlResend (dt n : Nat)
  /-- CXP_HEARTBEAT (R83): Every hb_ms a heartbeat packet carrying TB0 is sent on each master uplink. -/
  | cxpHeartbeat (dt n : Nat)
  /-- TRIGGER_COUNTER_AUDIT (R77): Every 1 s firmware reads the camera's trigger counter and takes the camera down when order is
  lost. -/
  | triggerCounterAudit (dt n : Nat) (ph : AuditPhase)
  /-- CAMERA_CONTROL_COMMAND (R81): A signed maintainer command reads or writes a camera register over the control channel. -/
  | cameraControlCommand (dt : Nat) (a : Auth) (n : Nat) (write : Bool) (addr value : Nat)
  /-- CAL_CAPTURE_ENTER (R84): A maintainer command places a camera in calibration capture when its consumers are disabled. -/
  | calCaptureEnter (dt : Nat) (a : Auth) (n base len trig : Nat)
  /-- CAL_CAPTURE_LEAVE (R84): A maintainer command or a loss ends calibration capture with a camera reconnect. -/
  | calCaptureLeave (dt : Nat) (a : Auth) (n : Nat)
  /-- STRIP_CLOSE (R14): The last pyramid level of a strip's last line is written, and the strip closes in its close bay. -/
  | stripClose (dt r : Nat)
  /-- SYNC_RESET (R99): A write of sync_reset resets the temporal filter at the next line. -/
  | syncReset (dt n : Nat)
  /-- ROUTE_CHANGE_WRITE (R117): A signed write of src_sel or replay_ch is shadowed to the next strip boundary, or refused. -/
  | routeChangeWrite (dt : Nat) (a : Auth) (n src ch : Nat)
  /-- CAL_LOAD (R123): A signed maintainer command loads a calibration record into the inactive bank, or is refused. -/
  | calLoad (dt : Nat) (a : Auth) (n : Nat) (bankB : Bool) (bytes : List Byte)
  /-- REPLAY_START (R118): A signed maintainer command starts a replay channel from the recorded snapshot and lines. -/
  | replayStart (dt : Nat) (a : Auth) (ch cam first last calId rate : Nat)
  /-- REPLAY_LINE (R119): A replay channel plays its next recorded line at the recorded spacing or the set rate. -/
  | replayLine (dt ch : Nat) (io : LineIo)
  /-- REPLAY_STOP (R129): A write of stop ends the replay at the next strip boundary. -/
  | replayStop (dt ch : Nat)
  /-- VERDICT_GROUP (R142): The firing sequencer takes in a stream's group of verdict records and resolves the strip's
  reservations. -/
  | verdictGroup (dt : Nat) (g : VerdictGroup)
  /-- OVERRUN_NOTICE (R40): The sequencer takes in an overrun notice and gives the stream's objects the indeterminate action. -/
  | overrunNotice (dt job stream row strip closeBay : Nat)
  /-- LATE_CONFIRM_MARK (R145): The count reaches an unresolved reservation's latest-confirm mark, and the row's late action
  applies. -/
  | lateConfirmMark (dt : Nat)
  /-- MIRROR_ACK (R327): The primary receives a MIRROR_ACK and queues the acknowledged entries. -/
  | mirrorAck (dt id : Nat)
  /-- MIRROR_RESEND (R327): After mirror_rto without acknowledgement, the primary sends the record once more. -/
  | mirrorResend (dt : Nat)
  /-- MIRROR_TIMEOUT (R17): 5 µs without acknowledgement queues the entry unmirrored and raises standby-mirror. -/
  | mirrorTimeout (dt : Nat)
  /-- MIRROR_RECORD (R326): The standby receives a MIRROR record: an entry, a cancellation or a bay count; it stores it and
  acknowledges. -/
  | mirrorRecord (dt id : Nat) (r : MirrorRec)
  /-- MIRROR_KEEPALIVE (R326): Every 10 µs the primary sends a LINK keep-alive on the mirror port. -/
  | mirrorKeepalive (dt : Nat)
  /-- MIRROR_LINK_LOSS (R468): 30 µs without keep-alive raises the mirror-link source at the standby. -/
  | mirrorLinkLoss (dt : Nat)
  /-- SLOT_SEAL (R19): At each 10 µs slot start, a Peg port seals the slot's changes and sends its timed frame and pilot frame.
  -/
  | slotSeal (dt p : Nat)
  /-- FORCED_CLOSE (R366): A valve open for max_open is closed and every entry holding it is truncated. -/
  | forcedClose (dt p v : Nat)
  /-- STATUS_FRAME (R389): A Peg port accepts or rejects a bank's status frame and acts on its nonce, flags and active bit. -/
  | statusFrame (dt p : Nat) (f : StatusFrame)
  /-- STATUS_DEADLINE (R389): At the next slot start without an accepted status, the slot counts as missing, and eight in a row
  set silent. -/
  | statusDeadline (dt p : Nat)
  /-- PEG_PORT_EN (R394): A write of port_en enables or disables a Peg port at the next seal. -/
  | pegPortEn (dt p : Nat) (en : Bool)
  /-- FULL_STATE_REQUEST (R395): A write of full_state makes the next timed frame a full-state frame. -/
  | fullStateRequest (dt p : Nat)
  /-- QUADRATURE_EDGE (R344): An accepted A or B edge changes the count and the speed estimate. -/
  | quadratureEdge (dt p : Nat) (a b : Bool)
  /-- TOOTH_EDGE (R347): A real tooth is accepted, re-phased or rejected as noise against its window. -/
  | toothEdge (dt p : Nat) (b : Bool)
  /-- TOOTH_WINDOW_EXPIRY (R347): No tooth by win_hi × P places a synthetic tooth, or after two of them declares encoder-lost.
  -/
  | toothWindowExpiry (dt p : Nat)
  /-- SSI_SAMPLE (R350): Every ssi_period the port reads an SSI frame, unwraps it or rejects it. -/
  | ssiSample (dt p raw : Nat) (lineHigh : Bool)
  /-- BELT_STOP (R352): No count change for twice the last interval takes the belt as stopped. -/
  | beltStop (dt p : Nat)
  /-- ENCODER_LINE_FAULT (R342): A differential input below 200 mV for 1 µs is a line fault; on a counting input it puts the
  port in encoder-lost. -/
  | encoderLineFault (dt p line : Nat)
  /-- LINE_FAULT_CLEAR (R342): An input valid for 10 ms clears its line fault and lets the port recover. -/
  | lineFaultClear (dt p line : Nat)
  /-- INDEX_EDGE (R357): An index edge latches the count and checks revolution drift. -/
  | indexEdge (dt p : Nat)
  /-- PROBE_EDGE (R358): A probe edge latches the count, fraction and TB3. -/
  | probeEdge (dt p src : Nat)
  /-- PROBE_SEQ_READ (R373): A read of ENC_PRB_SEQ clears the pending state of probe_ovw. -/
  | probeSeqRead (dt p : Nat)
  /-- FIELD_INPUT_EDGE (R403): A filtered field-input edge writes a stamped record and feeds the pair units. -/
  | fieldInputEdge (dt ch : Nat) (level : Bool)
  /-- PAIR_LONG (R404): A pair open for 2³² − 1 units is closed with flag LONG. -/
  | pairLong (dt k : Nat)
  /-- WIRE_BREAK (R400): Input current below threshold for 10 ms is a wire break, and the substitute value applies. -/
  | wireBreak (dt ch : Nat)
  /-- WIRE_BREAK_CLEAR (R400): Current at or above 0.30 mA for 10 ms clears a wire break. -/
  | wireBreakClear (dt ch : Nat)
  /-- OUTPUT_FAULT (R401): An output driver at its current limit or overheated switches off and sets its group fault. -/
  | outputFault (dt n : Nat)
  /-- OUTPUT_RETRY (R401): Every 1 s a faulted output that is commanded on is retried. -/
  | outputRetry (dt n : Nat) (runs : Bool)
  /-- FIELD_GROUP_UNDERVOLTAGE (R399): A group supply below its threshold sets the group fault, and group 6 drops RUN_PERMIT. -/
  | fieldGroupUndervoltage (dt g : Nat)
  /-- FIO_OUT_WRITE (R405): A write of out or run_req commands the outputs or requests RUN_PERMIT. -/
  | fioOutWrite (dt outs : Nat) (runReq : Bool)
  /-- FIO_EVT_POP (R405): A read of FIO_EVT_HDR pops an edge record. -/
  | fioEvtPop (dt : Nat)
  /-- FIO_PAIR_POP (R405): A read of FIO_PAIR_HDR pops a pair record. -/
  | fioPairPop (dt : Nat)
  /-- FLIT_RECEIVED (R287): A Tenon receiver accepts, discards or naks a flit and writes its payload or drops its transfer as
  stale. -/
  | flitReceived (dt d : Nat) (crcOk : Bool)
  /-- TENON_NAK (R288): A nak makes the sender replay every unacknowledged flit after ack_seq. -/
  | tenonNak (dt d : Nat)
  /-- TENON_REPLAY_TIMEOUT (R288): No acknowledgement for 2 µs starts a replay as for a nak. -/
  | tenonReplayTimeout (dt d : Nat)
  /-- TENON_RETRAIN (R294): The link retrains on the replay limit, lock loss, CRC bursts or a write of retrain, keeping sequence
  numbers. -/
  | tenonRetrain (dt : Nat)
  /-- TENON_TRAIN (R293): The link trains its lanes, repairs spares and exchanges credits. -/
  | tenonTrain (dt : Nat) (ok : Bool) (badS badR : Nat)
  /-- TENON_TRAIN_RETRY (R295): A failed link tries to train again every 10 ms. -/
  | tenonTrainRetry (dt : Nat) (ok : Bool) (badS badR : Nat)
  /-- TENON_RESPONSE (R292): A response completes its request, or is discarded as late. -/
  | tenonResponse (dt d : Nat)
  /-- TENON_REQUEST_TIMEOUT (R292): A request without response in req_timeout completes with an error. -/
  | tenonRequestTimeout (dt tag : Nat)
  /-- PURLIN_FRAME (R309): A Purlin frame is authenticated, checked for hops and reverse path, and delivered or forwarded. -/
  | purlinFrame (dt p corrected : Nat) (fr : PurFrame)
  /-- PURLIN_ACK (R311): An ACK releases acknowledged frames of a flow. -/
  | purlinAck (dt dev cls seq : Nat)
  /-- PURLIN_NAK (R311): A NAK makes the source resend the flow from the named number. -/
  | purlinNak (dt dev cls seq : Nat)
  /-- PURLIN_RTO (R311): No ACK for rto resends a flow's unacknowledged frames. -/
  | purlinRto (dt dev cls : Nat)
  /-- HELLO (R316): A peer's HELLO is checked for ID, port, identity hash, group and tag. -/
  | hello (dt p : Nat) (h : HelloRec)
  /-- HELLO_SEND (R315): Every 100 ms a port that is up sends a HELLO. -/
  | helloSend (dt p : Nat)
  /-- LINK_FRAME (R310): A LINK frame returns credits, carries keep-alive or low-power requests. -/
  | linkFrame (dt p : Nat) (l : LinkRec)
  /-- MARKS_FRAME (R446): The follower compares a MARKS frame with its own released marks. -/
  | marksFrame (dt : Nat) (f : MarksFrame)
  /-- MARKS_DEADLINE (R446): No MARKS frame by the end of bay c + lag + D + 1 counts as missing. -/
  | marksDeadline (dt : Nat)
  /-- PURLIN_PORT_DOWN (R306): Loss of signal, lock or codeword lock, or error or tag bursts, takes the port out of up and
  starts retraining. -/
  | purlinPortDown (dt p cause : Nat)
  /-- PURLIN_TRAIN (R303): A port trains, locks codewords, grants credits and authenticates its peer. -/
  | purlinTrain (dt p : Nat) (t : PurTrain)
  /-- PURLIN_AUTH_RETRY (R303): A port whose peer failed authentication retries every 1 s. -/
  | purlinAuthRetry (dt p : Nat) (t : PurTrain)
  /-- PURLIN_REKEY (R528): link_ctr reaching 2⁶¹ starts a switch to the next key generation. -/
  | purlinRekey (dt p : Nat)
  /-- LPI_ENTRY (R320): An idle port with a granted request enters low-power idle. -/
  | lpiEntry (dt p : Nat)
  /-- WAKE_WINDOW (R321): At a wake-window boundary the ends relock, and they stay up or sleep again. -/
  | wakeWindow (dt p : Nat) (skew : Int) (relock busy : Bool)
  /-- GUARD_MISS (R322): A peer wake not seen within the guard time forces a retrain and counts a miss. -/
  | guardMiss (dt p : Nat)
  /-- PURLIN_RETRAIN (R332): A write of retrain retrains the port. -/
  | purlinRetrain (dt p : Nat)
  /-- PURLIN_HOLD (R332): A write of hold holds the port down with its transmitters silent. -/
  | purlinHold (dt p : Nat) (hold : Bool)
  /-- LPI_REENABLE (R332): A write of lpi_reenable clears lpi_disabled and restarts the miss count. -/
  | lpiReenable (dt p : Nat)
  /-- ROUTE_SWAP (R319): A write of swap requests a table swap at bay b, or is refused. -/
  | routeSwap (dt : Nat)
  /-- ROUTE_TABLE_WRITE (R319): A signed write changes the inactive routing table, or is refused while the table is busy. -/
  | routeTableWrite (dt : Nat) (a : Auth) (addr mask v : Nat)
  /-- PTP_MESSAGE (R411): A PTP event or general message is received and timestamped in TB0, TB1 and TB2. -/
  | ptpMessage (dt p msgType domain seqId : Nat) (offset : Option Int)
  /-- TB0_INC_WRITE (R408): A write of a TB0 or TB1 increment takes effect, clamped to ±100 ppm. -/
  | tb0IncWrite (dt base v : Nat)
  /-- TB0_STEP_REQUEST (R413): A write of TM_TB0_STEP_HI requests a step, which is applied or refused. -/
  | tb0StepRequest (dt : Nat) (step : Int)
  /-- TB1_STEP (R412): A write of TM_TB1_STEP_HI steps TB1. -/
  | tb1Step (dt : Nat) (step : Int)
  /-- ACCEPT_STEP (R414): A signed owner write of accept_step grants a one-shot permit for the next TB0 step. -/
  | acceptStep (dt : Nat) (a : Auth)
  /-- ACCEPT_STEP_LAPSE (R414): An unused step permit lapses after 60 s. -/
  | acceptStepLapse (dt : Nat)
  /-- REFERENCE_VALIDITY_CHANGE (R417): A reference becomes valid or invalid, which may make a switch pending or enter holdover.
  -/
  | referenceValidityChange (dt ref : Nat) (ok : Bool)
  /-- REFERENCE_QUALIFIED (R418): A reference valid for qual_time becomes qualified. -/
  | referenceQualified (dt ref : Nat)
  /-- HOLDOVER_LONG (R415): Holdover lasting holdover_max sets holdover_long and raises time-holdover. -/
  | holdoverLong (dt : Nat)
  /-- PPS_IN_EDGE (R422): A PPS_IN rising edge is latched in TB0 and TB2. -/
  | ppsInEdge (dt : Nat)
  /-- PPS_MISSING (R422): An expected PPS_IN edge missing for 1.2 s sets pps_missing. -/
  | ppsMissing (dt : Nat)
  /-- PPS_OUT_SECOND (R423): PPS_OUT rises at each whole second of its base and falls after pps_width. -/
  | ppsOutSecond (dt : Nat)
  /-- WIT_QUERY (R449): A write of go queries the mark ring. -/
  | witQuery (dt : Nat)
  /-- LOCK_REARM (R450): Writing 1 to lock_mismatch re-arms the mismatch latch. -/
  | lockRearm (dt : Nat)
  /-- SOURCE_ASSERT (R455): A fault source asserts and its collector acts on its effective severity and bucket. -/
  | sourceAssert (dt half num unit : Nat) (up : Bool)
  /-- BUCKET_LEAK (R458): Each W / N a non-zero bucket level falls by one. -/
  | bucketLeak (dt half num : Nat)
  /-- GRACE_EXPIRY (R456): A pending bit held for grace enters FIRE-OUT. -/
  | graceExpiry (dt : Nat)
  /-- PENDING_ACK (R456): A write of 1 to a pending bit acknowledges the fault. -/
  | pendingAck (dt k mask : Nat)
  /-- SELF_FAULT (R459): A collector parity error or supervisor vote disagreement enters SAFE. -/
  | selfFault (dt half : Nat) (vote : Bool)
  /-- FAULT_LINK_LOSS (R454): The Ridge heartbeat absent for 64 ns raises the Ridge-fault-link source. -/
  | faultLinkLoss (dt : Nat) (lost : Bool)
  /-- RAISED_RESTORE (R458): A signed write of raised restores sev_cfg and empties the bucket. -/
  | raisedRestore (dt : Nat) (a : Auth) (half num : Nat)
  /-- DEGRADE_MASK_WRITE (R461): A write of SUP_DEGRADE is shadowed to the next bay boundary. -/
  | degradeMaskWrite (dt mask : Nat)
  /-- SAFE_REQ (R476): A write of safe_req enters SAFE. -/
  | safeReq (dt : Nat)
  /-- SAFE_REQ_N (R465): SAFE_REQ_N low for 1 µs enters SAFE. -/
  | safeReqN (dt : Nat) (low : Bool)
  /-- FIRE_OUT_REQ (R476): A write of fire_out_req enters FIRE-OUT. -/
  | fireOutReq (dt : Nat)
  /-- RESUME (R463): A signed write of resume is accepted for the next bay boundary, or refused. -/
  | resume (dt : Nat) (a : Auth)
  /-- PROMOTE (R469): A signed write of promote makes a standby primary when it has taken over, or is refused. -/
  | promote (dt : Nat) (a : Auth)
  /-- KICK (R466): Firmware writes kick to restart the watchdog period. -/
  | kick (dt : Nat)
  /-- WATCHDOG_EXPIRY (R466): No kick within wd_period raises the Joiner-watchdog source. -/
  | watchdogExpiry (dt : Nat)
  /-- POWER_ON (R480): The always-on supply or PWR_GOOD rises, and a power-on reset starts. -/
  | powerOn (pg : Bool) (bootSrc clk : Nat)
  /-- RESET_N (R481): RESET_N held low for the filter time makes a cold reset. -/
  | resetN (dt : Nat) (low : Option Nat)
  /-- WRESET_N (R481): WRESET_N held low for the filter time makes a warm reset. -/
  | wresetN (dt : Nat) (low : Option Nat)
  /-- COLD_REQ (R501): A cold command or a write of cold_req makes a cold reset. -/
  | coldReq (dt : Nat) (a : Option Auth)
  /-- WARM_REQ (R501): A warm command or a write of warm_req makes a warm reset. -/
  | warmReq (dt : Nat) (a : Option Auth)
  /-- SOFT_RESET (R498): A write to RP_SOFT_RST or the forerunner window resets an idle block, or is refused. -/
  | softReset (dt mask : Nat)
  /-- OPTION_LOAD (R484): After POR or cold reset, the fuses, straps, NOR header and boot firmware are read and verified. -/
  | optionLoad (dt : Nat) (fail : Bool) (fwHash : Nat)
  /-- COLD_START (R486): After option loading, the module trains memory, verifies and loads the story stick and applies its
  records. -/
  | coldStart (dt : Nat) (img : Image) (t : MemTrain) (last : Nat)
  /-- BAYS_START (R488): Bays start at the first TB0 boundary after TB0 is set, with TB3 loaded from TB0. -/
  | baysStart (dt : Nat)
  /-- TIME_WAIT_EXPIRY (R488): TB0 still unset time_wait after step 7 starts bays on unset TB3 and sets no_time. -/
  | timeWaitExpiry (dt : Nat)
  /-- SAFE_EXIT (R486): After D bays of strips the supervisor leaves SAFE for NORMAL, or for FIRE-OUT in the standby role. -/
  | safeExit (dt : Nat)
  /-- WARM_RESTART (R489): After a warm reset, the module reverifies and reloads changed segments and restarts the judging
  machinery. -/
  | warmRestart (dt : Nat) (fwOk : Bool) (img : Image) (last : Nat)
  /-- DOMAIN_POWER_FAIL (R497): A domain without power-good within 100 µs sets RP_PWR_FAIL and raises supply-out-of-range. -/
  | domainPowerFail (dt d : Nat)
  /-- MAIN_INPUT_FAIL (R593): The main input crossing UVLO or OVLO for 20 µs switches every rail off. -/
  | mainInputFail
  /-- TAMPER_EVENT (R534): LID_SW_N high for 10 ms is a tamper event with the configured response. -/
  | tamperEvent (dt : Nat) (isOpen : Bool)
  /-- ZEROISE (R276): A signed write of zeroise replaces the capture-memory key pair. -/
  | zeroise (dt : Nat) (a : Auth)
  /-- COMMISSIONING (R509): An owner command in service recovery writes owner slot 0 and the lifecycle owned. -/
  | commissioning (dt : Nat) (a : Auth) (hash : Nat)
  /-- OWNER_ROTATION (R509): An owner command writes the next owner slot and revokes the active one. -/
  | ownerRotation (dt : Nat) (a : Auth) (hash : Nat)
  /-- DECOMMISSIONING (R509): An owner command writes the lifecycle decommissioned. -/
  | decommissioning (dt : Nat) (a : Auth)
  /-- ANTI_ROLLBACK_ADVANCE (R523): An owner command advances the anti-rollback counter bit by bit. -/
  | antiRollbackAdvance (dt : Nat) (a : Auth) (v written : Nat)
  /-- DEBUG_UNLOCK (R537): An owner command makes a cold reset with key erasure and opens the named debug scope. -/
  | debugUnlock (dt : Nat) (a : Auth) (sill ridge : Bool)
  /-- SESSION_OPEN (R530): A TLS service session opens with a client certificate that sets its level. -/
  | sessionOpen (dt p level certHash : Nat) (certOk : Bool)
  /-- SESSION_IDLE_TIMEOUT (R530): A session idle for 300 s is closed. -/
  | sessionIdleTimeout (dt id : Nat)
  /-- CHALLENGE_EXPIRY (R532): An unused challenge lapses after 60 s. -/
  | challengeExpiry (dt : Nat)
  /-- READ (R570): A READ message returns 1 to 256 register words. -/
  | read (dt id a count : Nat)
  /-- WRITE (R570): A WRITE message writes O fields under a mask, or is denied whole. -/
  | write (dt id a mask v : Nat)
  /-- REGISTER_WRITE (R12): A write to a register field that has no row of its own takes effect by its access code. -/
  | registerWrite (dt : Nat) (auth : Option Auth) (a mask v : Nat)
  /-- CHALLENGE (R532): A CHALLENGE message returns a fresh 128-bit challenge. -/
  | challenge (dt id : Nat)
  /-- RESULT (R532): A RESULT message returns the stored result of a command by its challenge. -/
  | result (dt id c : Nat)
  /-- SUBSCRIBE (R572): A SUBSCRIBE message starts a result, preview or witness stream subscription. -/
  | subscribe (dt id kind dest udp : Nat)
  /-- UNSUBSCRIBE (R570): An UNSUBSCRIBE message ends a subscription. -/
  | unsubscribe (dt id num : Nat)
  /-- ATTEST (R535): An ATTEST message returns a report signed with the device identity key. -/
  | attest (dt id : Nat) (nonce : List Byte)
  /-- LOG_READ (R570): A LOG_READ message returns decrypted NV log entries. -/
  | logRead (dt id first count : Nat) (bad : List Nat)
  /-- LABEL (R547): A LABEL message labels, relabels or excludes a sample. -/
  | label (dt session h id : Nat) (lab : Option Nat)
  /-- QUESTION (R559): A QUESTION message queues a question to a text job, or is refused. -/
  | question (dt session j : Nat) (text : List Byte) (evidence maxNew temp topK seed : Nat)
  /-- CANCEL (R560): A CANCEL message stops the generation of a query. -/
  | cancel (dt session id : Nat)
  /-- KEEPALIVE (R570): A KEEPALIVE message resets the session idle time. -/
  | keepalive (dt id : Nat)
  /-- TOKEN_GENERATE (R560): A text-job step chooses the next token and releases text as ANSWER chunks. -/
  | tokenGenerate (dt j : Nat) (logits : List Nat) (full : Bool)
  /-- STREAM_DATAGRAM (R573): A stream datagram is sent when full or 1 ms after its first record. -/
  | streamDatagram (dt num : Nat)
  /-- ETH_FRAME (R568): An Ethernet frame is answered for ARP, neighbour discovery or ICMP echo, or dropped. -/
  | ethFrame (dt p : Nat) (fcsOk : Bool) (kind : Nat)
  /-- ETH_LINK_DOWN (R568): A port link going down sets link_lost and closes its sessions. -/
  | ethLinkDown (dt p : Nat)
  /-- ETH_TS_POP (R583): A read of ETH_TS_HDR pops a PTP timestamp entry. -/
  | ethTsPop (dt p : Nat)
  /-- TRAIN_START (R548): A signed maintainer command starts training of an adaptable head. -/
  | trainStart (dt : Nat) (a : Auth) (h seed epochs : Nat) (o : TrainOpts) (fromLast : Bool) (er : ReadErrs)
  /-- TRAINING_STEP (R550): The adaptation job runs one batch step and updates the master weights. -/
  | trainingStep (dt h : Nat) (lost : List (Nat × Nat)) (ce : List Nat)
  /-- ADAPT_STOP (R562): A write of stop ends training at the next step boundary. -/
  | adaptStop (dt h : Nat)
  /-- APPROVE_HEAD (R554): An owner command approves a candidate and makes its commit due. -/
  | approveHead (dt : Nat) (a : Auth) (h hash stick : Nat)
  /-- REVERT_HEAD (R554): An owner command commits the story stick's own weights and deletes the stored approval. -/
  | revertHead (dt : Nat) (a : Auth) (h : Nat)
  /-- CLASS_PROMPT (R558): A maintainer command submits a class prompt, and a candidate is formed with a new row. -/
  | classPrompt (dt : Nat) (a : Auth) (h c : Nat) (text : List Byte) (er : ReadErrs)
  /-- SCRUB_LAP (R248): A bent scrubber completes a lap, or exceeds scrub_limit and raises bent-SRAM-scrub. -/
  | scrubLap (dt n : Nat) (er : ReadErrs)
  /-- THERMAL_SAMPLE (R576): Every 1 ms the junction sensors are read and the thermal sources assert or deassert. -/
  | thermalSample (dt : Nat) (sill ridge : List Int) (hbm : List (Int × Bool))
  /-- POWER_SAMPLE (R577): Every 100 µs the main input is measured, and its 1 ms mean checks the supply range and power. -/
  | powerSample (dt mv ma : Nat)
  /-- FAN_TACH_LOSS (R579): No tach for 500 ms while running stops the fan and raises source 9. -/
  | fanTachLoss (dt f : Nat)
  /-- FAN_TIMER (R579): A fan's spin-up, block or restart timer expires. -/
  | fanTimer (dt f : Nat) (rpm : Option Nat)
  /-- FAN_RETRY (R585): A write of fan_retry restarts a faulted fan. -/
  | fanRetry (dt f : Nat)
  /-- I2C_TRANSACTION (R580): Firmware runs an I2C transaction on a bus. -/
  | i2cTransaction (dt c dev : Nat) (write : Bool) (ends : Option Bool) (a : Option Auth)
  /-- SMBUS_TIMEOUT (R580): SCL held low for 35 ms ends a transaction with an error. -/
  | smbusTimeout (dt c : Nat)
  /-- BUS_STUCK (R581): SDA or SCL low at idle starts recovery, and a failed recovery disables the bus. -/
  | busStuck (dt c : Nat) (sclLow : Bool) (free : Option Nat)
  /-- I2C_RECOVERY_RETRY (R581): Every 1 s recovery of a disabled bus is tried again. -/
  | i2cRecoveryRetry (dt c : Nat) (sclLow : Bool) (free : Option Nat)
  /-- PMBUS_POLL (R582): Every 100 ms the listed PMBus devices are read. -/
  | pmbusPoll (dt : Nat) (values : List (Option Nat))
  /-- PWR_GOOD_FALL (R593): PWR_GOOD falls low, and POR is held with the pin states of R495. -/
  | pwrGoodFall
  /-- FIELD_GROUP_SUPPLY_RETURN (R399): A field group's supply returns above its undervoltage threshold, its live fault clears,
  and for group 6 RUN_PERMIT may be energised again. -/
  | fieldGroupSupplyReturn (dt g : Nat)
  /-- UNCORRECTABLE_CODEWORD (R305): An uncorrectable Purlin codeword makes the receiver discard blocks up to the next filler
  block and expect a frame header after it. -/
  | uncorrectableCodeword (dt p : Nat) (next : Bool)
  /-- PURLIN_TRAIN_RETRY (R306): After three consecutive failed trainings, a Purlin port tries to train again every 100 ms. -/
  | purlinTrainRetry (dt p : Nat)
  /-- SESSION_CLOSE (R572): A service session closes at the client's end, and its subscriptions end. -/
  | sessionClose (dt id : Nat)
  /-- ETH_LINK_UP (R568): An Ethernet port's link comes up, its state becomes up, and its PTP reference may become valid. -/
  | ethLinkUp (dt p : Nat)
  /-- PTP_DELAY_REQUEST (R410): At its configured interval a port sends a Delay_Req or Pdelay_Req and timestamps it. -/
  | ptpDelayRequest (dt p domain : Nat) (peer : Bool)
  /-- BAD_REQUEST_MESSAGE (R569): A service message with a reserved type or an oversized length is answered with bad_request and
  otherwise ignored. -/
  | badRequestMessage (dt id : Nat)
  /-- BOUNDARY_SCAN_INSTRUCTION (R536): A JTAG instruction runs, and EXTEST drives pins only in service recovery and SAFE,
  acting as BYPASS otherwise. -/
  | boundaryScanInstruction (dt instr : Nat) (pins : List (Nat × Bool))
  deriving DecidableEq, Repr

end Sys2Proof
end

