-- ==== Sys2Proof/Decode.lean ====
section
/-!
DEFINITION. Sys2Proof/Decode.lean: the command that a word spells by the bits of the table of operations and events. The table
gives no row any bits: commands are events at the module's interfaces and of its own units, and no word stands for one.
-/
namespace Sys2Proof

/-- No row of the table has bits, so no word spells a command.
(Log: 1 DESIGN CHOICE.) -/
def decodeTableWord (_nbits _w : Nat) : Option Instr := none

end Sys2Proof
end

