-- ==== Sys2Proof/Config.lean ====
section
/-!
DEFINITION. Sys2Proof/Config.lean: what the part fixes once (the size table of R3 for the AK-4896) and the free values:
what the spec leaves open, fused or secret. A free value is an opaque constant: nothing in Lean can evaluate it, so a
statement that is proved holds for every value of it.
-/
namespace Sys2Proof.Config

/-- Bents (R3). -/
def bents : Nat := 32
/-- CXP-12 links, line pipelines, streams (R3). -/
def links : Nat := 48
/-- Studs (R3). -/
def studs : Nat := 4
/-- Peg ports (R3). -/
def pegPorts : Nat := 8
/-- Resident jobs (R3). -/
def jobs : Nat := 128
/-- Purlin ports (R3). -/
def purlinPorts : Nat := 6
/-- Encoder ports (R341). -/
def encPorts : Nat := 8
/-- Ethernet ports (R410). -/
def ethPorts : Nat := 2
/-- Camera rows: 0 to 7 live, 8 to 15 replay (R152, R378). -/
def rows : Nat := 16
/-- KV rings (R237). -/
def rings : Nat := 64
/-- Replay channels (R129). -/
def replayChannels : Nat := 8
/-- Bytes of one bent's SRAM (6 MiB, R3). -/
def bentSram : Nat := 0x600000
/-- Bytes of HBM (72 GiB, R3). -/
def hbmBytes : Nat := 72 * 2 ^ 30
/-- Bytes of capture memory (64 GiB, R3). -/
def cmBytes : Nat := 64 * 2 ^ 30
/-- Entries of one Peg port's queue (R364). -/
def queueMax : Nat := 8192
/-- Semaphores of one half (R31). -/
def semaphores : Nat := 1023

/-- The arithmetic microcode level, fused (R7). FREE VALUE.
(Log: 6 DESIGN CHOICE.) -/
opaque ucodeLevel : BitVec 12
/-- The vendor firmware level (R7). FREE VALUE.
(Log: 6 DESIGN CHOICE.) -/
opaque fwLevel : BitVec 12
/-- The grade letters' code, fused (R566). FREE VALUE.
(Log: 6 DESIGN CHOICE.) -/
opaque grade : BitVec 4
/-- The serial number, fused (R507, R566). FREE VALUE.
(Log: 6 DESIGN CHOICE.) -/
opaque serial : BitVec 64
/-- A draw of a value that nothing constrains: the `n`-th free value of a run. FREE VALUE.
(Log: 11 DESIGN CHOICE.) -/
opaque free : Nat → Nat
/-- BENT_SRAM_REPAIR0 and 1 of a bent (R249, R268): the spare columns that the fuses of each bank have taken, two bits for each bank. FREE VALUE.
(Log: 6 DESIGN CHOICE.) -/
opaque sramSpares : Nat → Nat → BitVec 32

/-- The tag of a Peg frame (R386) under the key of a port and direction (1 to the bank, 2 from it). FREE VALUE: the keys are
secret.
(Log: 13 DEDUCED.) -/
opaque pegTag : Nat → Nat → List Byte → BitVec 32

/-- Byte `i` of the live state that job `j` saves on an engine at a marked point (R45 gives its size and place, not its content): job,
engine, marked point, byte. FREE VALUE.
(Log: 50 DEDUCED.) -/
opaque liveState : Nat → Nat → Nat → Nat → BitVec 8

/-- The bits of an element of an MX block that holds a NaN (R174 gives its scale alone): format, FP32 value. FREE VALUE.
(Log: 72 DESIGN CHOICE.) -/
opaque mxNanElem : Nat → Nat → Nat
/-- The FP32 bits of a function of the vector unit where it has no value of its own (GELU and SiLU at −∞): microcode level, function
number, operand. FREE VALUE.
(Log: 74 DESIGN CHOICE.) -/
opaque vecFn : BitVec 12 → Nat → Nat → Nat
/-- Which of the two FP32 numbers next to a function's value the vector unit answers (R172 bounds the error by 1 ulp and fixes the bits
by the microcode level): level, function number, operand. FREE VALUE.
(Log: 74 DESIGN CHOICE.) -/
opaque vecUp : BitVec 12 → Nat → Nat → Bool
/-- The FP32 bits that a vector compare answers for its two operands (R171 gives no encoding). FREE VALUE.
(Log: 74 DESIGN CHOICE.) -/
opaque vecCompare : Nat → Nat → Nat

/-- The FP32 bits that a pooling window without any included position yields: layer, element index (R188 and R189 give no
value). FREE VALUE.
(Log: 76 DESIGN CHOICE.) -/
opaque emptyPool : Nat → Nat → Nat
/-- The FP32 bits of a spectral output whose input or kernel spectra are not finite (R194 gives no value): microcode level; tile size,
layer, place in the tile; input; kernel spectra. FREE VALUE.
(Log: 77 DESIGN CHOICE.) -/
opaque spectral : BitVec 12 → List Nat → List Nat → List Nat → Nat
/-- The error of a spectral output (R194 bounds it and fixes the bits by T, the layer and the microcode level): with (a, b) it is
a / (|a| + b + 1) of the bound. Arguments as those of `spectral`. FREE VALUE.
(Log: 77 DESIGN CHOICE.) -/
opaque spectralErr : BitVec 12 → List Nat → List Nat → List Nat → Int × Nat

/-- The value word of a 64-bit word of a sealed group (R432, R434 give a place for 32 bits of it only). FREE VALUE.
(Log: 68 DESIGN CHOICE.) -/
opaque recordWord : Nat → Nat

/-- FP32 bits of the sine and the cosine of a rotary angle (R230 computes them in FP32 and fixes their bits by the microcode level): level,
rotary base, head dimension, position, pair. FREE VALUE.
(Log: 78 DESIGN CHOICE.) -/
opaque ropeSinCos : BitVec 12 → Nat → Nat → Nat → Nat → Nat × Nat

/-- Whether ENC_SPEED shows the next 1/16 count/s above an estimate that is no multiple of it (R373 gives no rounding): the estimate in
counts per timing-clock cycle. FREE VALUE.
(Log: 17 DEDUCED.) -/
opaque speedUp : Int → Nat → Bool

/-- A batch slot's contribution to the gradient of a master weight, as FP32 bits (R550 gives the loss, not the order of the operations
of its gradient): microcode level; head kind, weight, unmasked slots, label; master weights; feature bytes. FREE VALUE.
(Log: 85 DESIGN CHOICE.) -/
opaque slotGrad : BitVec 12 → List Nat → List Nat → List Nat → Nat
/-- The class a head answers for a sample with the serving arithmetic (R553): microcode level; head kind, format; weight bytes;
feature bytes. FREE VALUE.
(Log: 85 DESIGN CHOICE.) -/
opaque headClass : BitVec 12 → List Nat → List Nat → List Nat → Nat
/-- SHA-384 of bytes (FIPS 180-4), as a number whose first byte is the least significant. FREE VALUE.
(Log: 13 DEDUCED.) -/
opaque sha384 : List Byte → Nat
/-- Element `i` of the row that the text encoder computes for a class prompt (R558), as FP32 bits: microcode level, head, prompt,
element. FREE VALUE.
(Log: 85 DESIGN CHOICE.) -/
opaque promptRow : BitVec 12 → Nat → List Byte → Nat → Nat

/-- The hash of the module's device identity key (R507, R315). FREE VALUE: the key is the device's own.
(Log: 6 DESIGN CHOICE.) -/
opaque identityHash : Nat

end Sys2Proof.Config
end

