-- ==== Sys2Proof/Machine/Num.lean ====
section
/-!
DEFINITION. Sys2Proof/Machine/Num.lean: exact arithmetic and the roundings the spec uses (round half to even, floor,
ceiling, clamping), bit-field access of words, and byte order.
-/
namespace Sys2Proof.Machine

/-- The rational number of an integer. -/
def qOfInt (n : Int) : Q := ⟨n, 1⟩
/-- The quotient of two integers, the second positive. -/
def qFrac (n : Int) (d : Nat) : Q := ⟨n, d⟩
/-- Lowest terms; keeps numbers short. -/
def qNorm (q : Q) : Q :=
  let g := Nat.gcd q.num.natAbs q.den
  if g ≤ 1 then q else ⟨q.num / (g : Int), q.den / g⟩
def qAdd (a b : Q) : Q := qNorm ⟨a.num * b.den + b.num * a.den, a.den * b.den⟩
def qNeg (a : Q) : Q := ⟨-a.num, a.den⟩
def qSub (a b : Q) : Q := qAdd a (qNeg b)
def qMul (a b : Q) : Q := qNorm ⟨a.num * b.num, a.den * b.den⟩
/-- The quotient; 0 where the divisor is 0 (no use of the model divides by 0: each tests first). -/
def qDiv (a b : Q) : Q :=
  if b.num = 0 then ⟨0, 1⟩
  else if 0 < b.num then qNorm ⟨a.num * b.den, a.den * b.num.toNat⟩
  else qNorm ⟨-(a.num * b.den), a.den * (-b.num).toNat⟩
def qLt (a b : Q) : Bool := decide (a.num * b.den < b.num * a.den)
def qLe (a b : Q) : Bool := decide (a.num * b.den ≤ b.num * a.den)
def qEq (a b : Q) : Bool := decide (a.num * b.den = b.num * a.den)
def qMin (a b : Q) : Q := if qLe a b then a else b
def qMax (a b : Q) : Q := if qLe a b then b else a
def qAbs (a : Q) : Q := ⟨a.num.natAbs, a.den⟩
/-- The greatest integer not above `a`. -/
def qFloor (a : Q) : Int := a.num.fdiv (a.den : Int)
/-- The least integer not below `a`. -/
def qCeil (a : Q) : Int := -((-a.num).fdiv (a.den : Int))
/-- `num / den` rounded to the nearest integer, ties to even; the model's one rounding of a quotient. -/
def rneDiv (num : Int) (den : Nat) : Int :=
  let f := num.fdiv (den : Int)
  let r2 := 2 * (num - f * (den : Int))
  if r2 < (den : Int) then f
  else if (den : Int) < r2 then f + 1
  else if f % 2 = 0 then f else f + 1
/-- Round half to even. -/
def qRne (a : Q) : Int := rneDiv a.num a.den

/-- `x` held between `lo` and `hi`. -/
def clampI (lo hi x : Int) : Int := if x < lo then lo else if hi < x then hi else x
def clampN (lo hi x : Nat) : Nat := if x < lo then lo else if hi < x then hi else x
/-- The ceiling of a quotient of natural numbers. -/
def ceilDivN (a b : Nat) : Nat := (a + b - 1) / b

/-- Bit `i` of a natural number. -/
def bitN (x i : Nat) : Bool := x / 2 ^ i % 2 == 1
/-- Bits `hi:lo` of a natural number. -/
def bitsN (x hi lo : Nat) : Nat := x / 2 ^ lo % 2 ^ (hi - lo + 1)
def b2n (b : Bool) : Nat := if b then 1 else 0
/-- The integer that the low `w` bits of `x` spell in two's complement. -/
def signedOf (w : Nat) (x : Nat) : Int :=
  let m := x % 2 ^ w
  if m < 2 ^ (w - 1) then (m : Int) else (m : Int) - (2 ^ w : Nat)
/-- The low `w` bits of an integer in two's complement. -/
def unsignedOf (w : Nat) (x : Int) : Nat := (x % ((2 ^ w : Nat) : Int)).toNat
/-- A count of the encoder: 48 bits, signed (R10). -/
def wrap48 (x : Int) : Int := signedOf 48 (unsignedOf 48 x)

/-- `n` bytes of `x`, least significant first (R8). -/
def leBytes : Nat → Nat → List Byte
  | 0, _ => []
  | n + 1, x => BitVec.ofNat 8 x :: leBytes n (x / 256)
/-- The number that bytes spell, least significant first (R8). -/
def ofLeBytes : List Byte → Nat
  | [] => 0
  | b :: t => b.toNat + 256 * ofLeBytes t

/-- `0, 1, …, n - 1`. -/
def upTo (n : Nat) : List Nat := List.range n

/-- The first `some` of a list of candidates. -/
def firstSome {α β : Type} (f : α → Option β) : List α → Option β
  | [] => none
  | a :: t => match f a with
    | some b => some b
    | none => firstSome f t

/-- Insert into a list kept in order by `le`, after the elements that are equal in the order. -/
def insertBy {α : Type} (le : α → α → Bool) (x : α) : List α → List α
  | [] => [x]
  | y :: t => if le y x then y :: insertBy le x t else x :: y :: t
/-- A stable insertion sort. -/
def sortBy {α : Type} (le : α → α → Bool) (l : List α) : List α := l.foldl (fun acc x => insertBy le x acc) []

end Sys2Proof.Machine
end

