-- ==== Sys2Proof/Machine/Formats.lean ====
section
/-!
DEFINITION. Sys2Proof/Machine/Formats.lean: the number formats of R158: what a stored element's bits mean, and the one rounding
of an exact value into a format (R165, R166, R172, R174).
-/
namespace Sys2Proof.Machine

/-! ### Powers of two and exact roots -/

/-- 2 to an integer power. -/
def qPow2 (e : Int) : Q := if 0 ≤ e then ⟨((2 ^ e.toNat : Nat) : Int), 1⟩ else ⟨1, 2 ^ (-e).toNat⟩
/-- floor(log2 q) of a positive rational. -/
def qLog2 (q : Q) : Int :=
  let k : Int := (Nat.log2 q.num.natAbs : Int) - (Nat.log2 q.den : Int)
  if qLe (qPow2 k) (qAbs q) then k else k - 1

/-- Bits `n - 1` down to 0 of the integer square root of `x`, on top of `r`. -/
def isqrtFrom (x : Nat) : Nat → Nat → Nat
  | 0, r => r
  | n + 1, r => let c := r + 2 ^ n; if c * c ≤ x then isqrtFrom x n c else isqrtFrom x n r
/-- The integer square root. -/
def isqrt (x : Nat) : Nat := isqrtFrom x (Nat.log2 x / 2 + 1) 0

/-! ### Floating formats -/

/-- Which special values a floating format has: infinities and NaNs (IEEE 754), one NaN (E4M3), none. -/
inductive Specials where
  | ieee | nanOnly | none
  deriving DecidableEq, Repr

/-- A floating format: exponent bits, mantissa bits, special values. -/
structure FloatFmt where
  exp : Nat
  man : Nat
  sp : Specials
  deriving DecidableEq, Repr

def fp32 : FloatFmt := ⟨8, 23, .ieee⟩

/-- The element format behind a floating code of R158. -/
def floatOf : Nat → Option FloatFmt
  | 0x03 | 0x06 => some ⟨4, 3, .nanOnly⟩
  | 0x04 | 0x07 => some ⟨5, 2, .ieee⟩
  | 0x08 => some ⟨3, 2, .none⟩
  | 0x09 => some ⟨2, 3, .none⟩
  | 0x0A => some ⟨2, 1, .none⟩
  | 0x10 => some ⟨8, 7, .ieee⟩
  | 0x11 => some ⟨5, 10, .ieee⟩
  | 0x12 => some fp32
  | _ => none

/-- Bits of a stored element of a format (R158). -/
def fmtBits : Nat → Nat
  | 0x02 | 0x0A => 4
  | 0x08 | 0x09 => 6
  | 0x10 | 0x11 => 16
  | 0x12 | 0x13 => 32
  | 0x20 => 64
  | 0x21 => 128
  | _ => 8
/-- An MX format: a block scale for 32 elements. -/
def isMx (f : Nat) : Bool := decide (5 ≤ f) && decide (f ≤ 0x0A)
/-- An integer format. -/
def isInt (f : Nat) : Bool := f == 0 || f == 1 || f == 2 || f == 0x13

/-- What an element stands for. -/
inductive Elem where
  | num (q : Q)
  | inf (neg : Bool)
  | nan
  deriving DecidableEq, Repr

/-- The value of a floating element. -/
def decFloat (f : FloatFmt) (x : Nat) : Elem :=
  let e := bitsN x (f.exp + f.man - 1) f.man
  let t := x % 2 ^ f.man
  let neg := bitN x (f.exp + f.man)
  let bias : Int := 2 ^ (f.exp - 1) - 1
  let special := match f.sp with
    | .ieee => e == 2 ^ f.exp - 1
    | .nanOnly => x % 2 ^ (f.exp + f.man) == 2 ^ (f.exp + f.man) - 1
    | .none => false
  if special then (if f.sp == .ieee && t == 0 then .inf neg else .nan)
  else
    let mag := if e = 0 then qMul (qOfInt t) (qPow2 (1 - bias - f.man))
      else qMul (qOfInt ((2 ^ f.man + t : Nat) : Int)) (qPow2 ((e : Int) - bias - f.man))
    .num (if neg then qNeg mag else mag)

/-- The magnitude bits of the largest finite value. -/
def maxMag (f : FloatFmt) : Nat := match f.sp with
  | .ieee => (2 ^ f.exp - 1) * 2 ^ f.man - 1
  | .nanOnly => 2 ^ (f.exp + f.man) - 2
  | .none => 2 ^ (f.exp + f.man) - 1

/-- The magnitude bits of a positive value rounded half to even, with no bound on the exponent; subnormals are kept. -/
def roundMag (f : FloatFmt) (a : Q) : Nat :=
  if a.num = 0 then 0
  else
    let bias : Int := 2 ^ (f.exp - 1) - 1
    let e := max (qLog2 a) (1 - bias)
    let n := qRne (qMul a (qPow2 ((f.man : Int) - e)))
    (n + (e + bias - 1) * (2 ^ f.man : Nat)).toNat

def signBit (f : FloatFmt) (neg : Bool) : Nat := b2n neg * 2 ^ (f.exp + f.man)
/-- The canonical NaN of a format that has one (R165, R172). -/
def canonNan (f : FloatFmt) : Nat := match f.sp with
  | .ieee => (2 ^ f.exp - 1) * 2 ^ f.man + 2 ^ (f.man - 1)
  | .nanOnly => 2 ^ (f.exp + f.man) - 1
  | .none => 0

/-- An element as it is written: its bits, whether a finite value saturated, whether a NaN was written or written as 0,
whether an infinity was written. -/
structure Written where
  bits : Nat
  sat : Bool := false
  nan : Bool := false
  inf : Bool := false
  deriving DecidableEq, Repr

/-- Round once into a floating format (R166): overflow saturates, or gives infinity where `infOvf` is set and the format has
one; an infinity goes to infinity, or to the largest finite value; an exact zero gives +0. -/
def encFloat (f : FloatFmt) (infOvf : Bool) : Elem → Written
  | .nan => { bits := canonNan f, nan := true }
  | .inf neg =>
    if f.sp == .ieee then { bits := (2 ^ f.exp - 1) * 2 ^ f.man + signBit f neg, inf := true }
    else { bits := maxMag f + signBit f neg }
  | .num q =>
    let neg := decide (q.num < 0)
    let mag := roundMag f (qAbs q)
    if mag ≤ maxMag f then { bits := mag + signBit f neg }
    else if infOvf && f.sp == .ieee then { bits := (2 ^ f.exp - 1) * 2 ^ f.man + signBit f neg, inf := true }
    else { bits := maxMag f + signBit f neg, sat := true }

/-- The range of an integer format. -/
def intRange : Nat → Int × Int
  | 0x01 => (0, 255)
  | 0x02 => (-8, 7)
  | 0x13 => (-(2 ^ 31), 2 ^ 31 - 1)
  | _ => (-128, 127)

/-- Round once into an integer format (R166): sat(rne(v)); NaN is written as 0. -/
def encInt (fmt : Nat) : Elem → Written
  | .nan => { bits := 0, nan := true }
  | .inf neg => { bits := unsignedOf (fmtBits fmt) (if neg then (intRange fmt).1 else (intRange fmt).2) }
  | .num q =>
    let n := qRne q
    let c := clampI (intRange fmt).1 (intRange fmt).2 n
    { bits := unsignedOf (fmtBits fmt) c, sat := decide (c ≠ n) }

/-- Round once into a format that is no MX format. -/
def encElem (fmt : Nat) (infOvf : Bool) (x : Elem) : Written := match floatOf fmt with
  | some f => encFloat f infOvf x
  | none => encInt fmt x

/-- The value of an element's bits, without its block scale. An MXINT8 element counts in 1/64 (OCP MX v1.0). -/
def decElem (fmt x : Nat) : Elem := match floatOf fmt with
  | some f => decFloat f x
  | none => match fmt with
    | 0x01 => .num (qOfInt ((x % 256 : Nat) : Int))
    | 0x02 => .num (qOfInt (signedOf 4 x))
    | 0x05 => .num ⟨signedOf 8 x, 64⟩
    | 0x13 => .num (qOfInt (signedOf 32 x))
    | _ => .num (qOfInt (signedOf 8 x))

/-- A block scale E8M0; 0xFF is NaN. -/
def scaleElem (x : Nat) (v : Elem) : Elem :=
  if x = 0xFF then .nan
  else match v with
    | .num q => .num (qMul q (qPow2 ((x : Int) - 127)))
    | e => e

/-! ### FP32 arithmetic (R172) -/

def f32 (x : Nat) : Elem := decFloat fp32 x
/-- An exact value rounded to FP32 with overflow to infinity, as IEEE 754 gives; `negZero` the sign of a zero result. -/
def toF32 (x : Elem) (negZero : Bool := false) : Nat := match x with
  | .num q => if q.num = 0 then signBit fp32 negZero else (encFloat fp32 true x).bits
  | e => (encFloat fp32 true e).bits
def negF32 (x : Nat) : Bool := bitN x 31

/-- The exact sum of two elements. -/
def elemAdd : Elem → Elem → Elem
  | .nan, _ | _, .nan => .nan
  | .inf a, .inf b => if a = b then .inf a else .nan
  | .inf a, _ | _, .inf a => .inf a
  | .num p, .num q => .num (qAdd p q)
/-- The exact product of two elements. -/
def elemMul : Elem → Elem → Elem
  | .nan, _ | _, .nan => .nan
  | .inf a, .inf b => .inf (a != b)
  | .inf a, .num q | .num q, .inf a => if q.num = 0 then .nan else .inf (a != decide (q.num < 0))
  | .num p, .num q => .num (qMul p q)

/-- A NaN is written as the canonical quiet NaN. -/
def addF32 (a b : Nat) : Nat := toF32 (elemAdd (f32 a) (f32 b)) (negF32 a && negF32 b)
def mulF32 (a b : Nat) : Nat :=
  let x := elemMul (f32 a) (f32 b)
  match x with
  | .num q => if q.num = 0 then signBit fp32 (negF32 a != negF32 b) else toF32 x
  | e => toF32 e
/-- The opposite sign. -/
def flipF32 (a : Nat) : Nat := if negF32 a then a - 2 ^ 31 else a + 2 ^ 31
def subF32 (a b : Nat) : Nat := if f32 b = .nan then canonNan fp32 else addF32 a (flipF32 b)
/-- a · b + c with one rounding. -/
def fmaF32 (a b c : Nat) : Nat :=
  let p := elemMul (f32 a) (f32 b)
  toF32 (elemAdd p (f32 c)) ((negF32 a != negF32 b) && negF32 c)
def divF32 (a b : Nat) : Nat :=
  let neg := negF32 a != negF32 b
  match f32 a, f32 b with
  | .nan, _ | _, .nan => canonNan fp32
  | .inf _, .inf _ => canonNan fp32
  | .inf _, .num _ => toF32 (.inf neg)
  | .num _, .inf _ => signBit fp32 neg
  | .num p, .num q =>
    if q.num = 0 then (if p.num = 0 then canonNan fp32 else toF32 (.inf neg)) else toF32 (.num (qDiv p q)) neg
/-- The square root rounded half to even. -/
def sqrtMag (a : Q) : Nat :=
  let e := (qLog2 a).fdiv 2
  let x := qMul a (qPow2 (2 * (23 - e)))
  let r := isqrt (qFloor x).toNat
  let up := qLt (qAdd (qOfInt (r * r + r : Nat)) ⟨1, 4⟩) x
  ((r + b2n up : Nat) + (e + 126) * (2 ^ 23 : Nat)).toNat
def sqrtF32 (a : Nat) : Nat := match f32 a with
  | .nan => canonNan fp32
  | .inf neg => if neg then canonNan fp32 else a
  | .num q => if q.num = 0 then a else if q.num < 0 then canonNan fp32 else sqrtMag q
/-- The smaller value; a NaN operand gives NaN, −0 lies below +0. -/
def minF32 (a b : Nat) : Nat := match f32 a, f32 b with
  | .nan, _ | _, .nan => canonNan fp32
  | .inf neg, _ => if neg then a else b
  | _, .inf neg => if neg then b else a
  | .num p, .num q => if qEq p q then (if negF32 a then a else b) else if qLt p q then a else b
def maxF32 (a b : Nat) : Nat := match f32 a, f32 b with
  | .nan, _ | _, .nan => canonNan fp32
  | .inf neg, _ => if neg then b else a
  | _, .inf neg => if neg then a else b
  | .num p, .num q => if qEq p q then (if negF32 a then b else a) else if qLt p q then b else a

/-- One level of a pairwise tree: element 2i with 2i + 1. -/
def pairUp (f : Nat → Nat → Nat) : List Nat → List Nat
  | a :: b :: t => f a b :: pairUp f t
  | l => l
/-- `n` levels of a pairwise tree. -/
def treeLevels (f : Nat → Nat → Nat) : Nat → List Nat → List Nat
  | 0, l => l
  | n + 1, l => treeLevels f n (pairUp f l)
/-- The root of the tree over a list padded with +0 to 2ⁿ elements (R170, R173). -/
def treeSum (n : Nat) (l : List Nat) : Nat :=
  ((treeLevels addF32 n (l ++ List.replicate (2 ^ n - l.length) 0)).headD 0)
/-- The levels of the canonical tree over `n` elements: the next power of two. -/
def treeDepth (n : Nat) : Nat := if n ≤ 1 then 0 else Nat.log2 (n - 1) + 1

/-! ### Quantisation into MX formats (R174) -/

/-- The exponent of the largest element of an MX element format. -/
def mxEmax : Nat → Int
  | 0x06 => 8 | 0x07 => 15 | 0x08 => 4 | 0x09 => 2 | 0x0A => 2 | _ => 0

/-- One element of a block with scale `x`: sat(rne(v / 2^(x − 127))), finite. -/
def mxElem (fmt x : Nat) (v : Elem) : Written :=
  let y := match v with
    | .num q => Elem.num (qMul q (qPow2 (127 - (x : Int))))
    | .inf neg => .num (if neg then ⟨-(2 ^ 40), 1⟩ else ⟨2 ^ 40, 1⟩)
    | e => e
  match floatOf fmt with
  | some f => encFloat f false y
  | none => encInt 0 (match y with | .num q => .num (qMul q ⟨64, 1⟩) | e => e)

/-- A block of FP32 values in an MX format: its scale and elements. Elements saturated because of the ceiling are counted; in
a block that holds a NaN the scale is 0xFF and the elements' bits are free values. -/
def mxBlock (fmt ceil : Nat) (l : List Nat) : Nat × List Written :=
  let vs := l.map f32
  if vs.any (· == .nan) then
    (0xFF, l.map fun v => { bits := Config.mxNanElem fmt v % 2 ^ fmtBits fmt, nan := f32 v == .nan })
  else
    let mags := vs.filterMap fun v => match v with | .num q => some (qAbs q) | _ => none
    let amax := mags.foldl qMax ⟨0, 1⟩
    let x : Int := if vs.any (fun v => match v with | .inf _ => true | _ => false) then (ceil : Int) + 1
      else if amax.num = 0 then 0 else qLog2 amax - mxEmax fmt + 127
    let s := (max 0 (min x ceil)).toNat
    (s, vs.map fun v =>
      let w := mxElem fmt s v
      { w with sat := w.sat && decide ((ceil : Int) < x) && (match v with | .num _ => true | _ => false) })

/-- A list cut into pieces of `n`. -/
def chunks {α : Type} (n : Nat) (l : List α) : List (List α) :=
  (upTo (ceilDivN l.length (max 1 n))).map fun i => (l.drop (i * n)).take n

/-- FP32 values quantised along the list, 32 to a block: scales and elements. -/
def mxQuantise (fmt ceil : Nat) (l : List Nat) : List Nat × List Written :=
  let bs := (chunks 32 l).map (mxBlock fmt ceil)
  (bs.map (·.1), (bs.map (·.2)).flatten)

/-! ### Packed elements -/

/-- Elements of `w` bits packed from the least significant bit on (R158). -/
def packBits (w : Nat) (l : List Nat) : List Byte :=
  leBytes (ceilDivN (w * l.length) 8) ((l.zipIdx.map fun p => p.1 % 2 ^ w * 2 ^ (w * p.2)).foldl (· + ·) 0)

end Sys2Proof.Machine
end

