-- ==== Sys2Proof/Machine/Functions.lean ====
section
/-!
DEFINITION. Sys2Proof/Machine/Functions.lean: the functions whose FP32 result is not correctly rounded (R167, R171, R172): each is
computed exactly enough to know the two FP32 numbers on either side of its value; which of the two it answers is fixed by the
microcode level alone, so that the error stays below 1 ulp.
-/
namespace Sys2Proof.Machine

/-! ### Exponential, logarithm, sine and cosine of rationals -/

/-- A rational held to 2⁻²⁵⁶: the nearest multiple below. -/
def qFix (q : Q) : Q := ⟨qFloor (qMul q (qPow2 256)), 2 ^ 256⟩
/-- ln 2, π and √(2/π) to 2⁻²⁵⁶. -/
def lnTwo : Q := ⟨80260960185991308862233904206310070533990667611589946606122867505419956976172, 2 ^ 256⟩
def piQ : Q := ⟨363771576891766324280234942777729862653393377328392429958772151117938894466185, 2 ^ 256⟩
def sqrtTwoOverPi : Q := ⟨92388720265562225100004042351473451001048276763068025688572742865826802514525, 2 ^ 256⟩

/-- The sum of a power series: `term i t` is term i + 1 from term i. -/
def series (term : Nat → Q → Q) : Nat → Nat → Q → Q
  | 0, _, _ => ⟨0, 1⟩
  | n + 1, i, t => qAdd t (series term n (i + 1) (qFix (term i t)))

/-- e to a rational power: 2ᵏ times the series of the rest; powers beyond ±300 as ±300, whose value lies beyond every FP32 number. -/
def qExp (x0 : Q) : Q :=
  let x := qMax ⟨-300, 1⟩ (qMin ⟨300, 1⟩ x0)
  let k := qRne (qDiv x lnTwo)
  let r := qFix (qSub x (qMul (qOfInt k) lnTwo))
  qMul (qPow2 k) (series (fun i t => qDiv (qMul t r) (qOfInt ((i + 1 : Nat) : Int))) 60 0 ⟨1, 1⟩)
/-- 2 to a rational power. -/
def qExp2 (x0 : Q) : Q :=
  let x := qMax ⟨-400, 1⟩ (qMin ⟨400, 1⟩ x0)
  let k := qRne x
  qMul (qPow2 k) (qExp (qMul (qSub x (qOfInt k)) lnTwo))
/-- The natural logarithm of a positive rational: e · ln 2 + 2 · artanh((f − 1) / (f + 1)). -/
def qLn (q : Q) : Q :=
  let e := qLog2 q
  let f := qMul q (qPow2 (-e))
  let y := qDiv (qSub f ⟨1, 1⟩) (qAdd f ⟨1, 1⟩)
  let yy := qFix (qMul y y)
  let odd (i : Nat) : Q := ⟨1, 2 * i + 1⟩
  let pows := (upTo 90).foldl (fun (a : Q × Q) i => (qAdd a.1 (qFix (qMul a.2 (odd i))), qFix (qMul a.2 yy))) (⟨0, 1⟩, ⟨1, 1⟩)
  qAdd (qMul (qOfInt e) lnTwo) (qMul (qMul ⟨2, 1⟩ y) pows.1)
/-- The cosine and the sine of 2π · j / n. -/
def cosTurn (j n : Nat) : Q × Q :=
  let k : Int := (j % n : Nat)
  let s : Int := if (n : Int) < 2 * k then k - n else k
  let th := qFix (qMul piQ ⟨2 * s, n⟩)
  let t2 := qFix (qMul th th)
  let alt (a : Nat) (i : Nat) (t : Q) : Q := qDiv (qNeg (qMul t t2)) (qOfInt (((2 * i + a) * (2 * i + a + 1) : Nat) : Int))
  (series (alt 1) 60 0 ⟨1, 1⟩, series (alt 2) 60 0 th)

/-! ### The two FP32 neighbours -/

/-- The FP32 numbers on either side of a value, the one nearer to zero first: magnitude bits, the second that of infinity beyond the
largest finite number; equal where the value is an FP32 number. -/
def fp32Sides (a : Q) : Nat × Nat :=
  if a.num = 0 then (0, 0)
  else
    let e := max (qLog2 a) (-126)
    let x := qMul a (qPow2 (23 - e))
    let mag (n : Int) : Nat := min 0x7F800000 (n + (e + 126) * (2 ^ 23 : Nat)).toNat
    (mag (qFloor x), mag (qCeil x))
/-- An FP32 result within 1 ulp: `up` takes the neighbour further from zero.
(Log: 74 DESIGN CHOICE.) -/
def fp32Near (up : Bool) (v : Q) : Nat :=
  let (lo, hi) := fp32Sides (qAbs v)
  (if up then hi else lo) + signBit fp32 (decide (v.num < 0))

/-! ### The functions (R167, R171) -/

/-- x · 1 / (1 + e^(−y)). -/
def sigTimes (x y : Q) : Q := qDiv x (qAdd ⟨1, 1⟩ (qExp (qNeg y)))
/-- tanh: near zero by its series, which keeps its relative precision. -/
def qTanh (x : Q) : Q :=
  if qLt (qAbs x) (qPow2 (-20)) then
    let xx := qMul x x
    qMul x (qAdd (qSub ⟨1, 1⟩ (qMul xx ⟨1, 3⟩)) (qMul (qMul xx xx) ⟨2, 15⟩))
  else
    let t := qExp (qMul ⟨-2, 1⟩ x)
    qDiv (qSub ⟨1, 1⟩ t) (qAdd ⟨1, 1⟩ t)
/-- 1 / √x of a positive rational. -/
def qRsqrt (x : Q) : Q :=
  let j := 300 + qLog2 x / 2
  let y := qDiv (qPow2 (2 * j)) x
  let r := isqrt (qFloor y).toNat
  qMul (if qEq (qOfInt ((r * r : Nat) : Int)) y then qOfInt r else ⟨(2 * r + 1 : Nat), 2⟩) (qPow2 (-j))

/-- The value of function `fn` at a number: 2 GELU (tanh form), 3 SiLU, 4 sigmoid, 5 tanh, 6 rcp, 7 rsqrt, 8 exp2, 9 log2, 10 exp,
11 log; an infinity or NaN where IEEE 754 gives one. -/
def fnValue (fn : Nat) (neg : Bool) (x : Q) : Elem := match fn with
  | 2 => .num (sigTimes x (qMul (qMul ⟨2, 1⟩ sqrtTwoOverPi) (qAdd x (qMul ⟨44715, 1000000⟩ (qMul x (qMul x x))))))
  | 3 => .num (sigTimes x x)
  | 4 => .num (sigTimes ⟨1, 1⟩ x)
  | 5 => .num (qTanh x)
  | 6 => if x.num = 0 then .inf neg else .num (qDiv ⟨1, 1⟩ x)
  | 7 => if x.num = 0 then .inf neg else if x.num < 0 then .nan else .num (qRsqrt x)
  | 8 => .num (qExp2 x)
  | 9 => if x.num = 0 then .inf true else if x.num < 0 then .nan else .num (qDiv (qLn x) lnTwo)
  | 10 => .num (qExp x)
  | _ => if x.num = 0 then .inf true else if x.num < 0 then .nan else .num (qLn x)

/-- Function `fn` at an infinity, by its limit; none where the limit is that of 0 · ∞ (GELU and SiLU at −∞). -/
def fnAtInf (fn : Nat) (neg : Bool) : Option Nat := match fn with
  | 2 | 3 => if neg then none else some 0x7F800000
  | 4 => some (if neg then 0 else 0x3F800000)
  | 5 => some (0x3F800000 + signBit fp32 neg)
  | 6 => some (signBit fp32 neg)
  | 7 => some (if neg then canonNan fp32 else 0)
  | 8 | 10 => some (if neg then 0 else 0x7F800000)
  | _ => some (if neg then canonNan fp32 else 0x7F800000)

/-- A function of the vector unit on FP32 bits (R172): the error is below 1 ulp; of the two numbers that lie so near, the microcode level
picks one. A function that keeps the sign of zero keeps it. -/
def fnF32 (fn x : Nat) : Nat := match f32 x with
  | .nan => canonNan fp32
  | .inf neg => (fnAtInf fn neg).getD (Config.vecFn Config.ucodeLevel fn x % 2 ^ 32)
  | .num q =>
    if q.num = 0 ∧ (fn = 2 ∨ fn = 3 ∨ fn = 5) then x
    else match fnValue fn (negF32 x) q with
      | .num v => fp32Near (Config.vecUp Config.ucodeLevel fn x) v
      | e => toF32 e

end Sys2Proof.Machine
end

