-- ==== Sys2Proof/Machine/PartsA.lean ====
section
/-!
DEFINITION. Sys2Proof/Machine/PartsA.lean: the state of the always-on half of the module that no register holds: time
bases, encoder ports, firing sequencer, Peg ports, field I/O, fault collectors and supervisor, start-up. Flags,
counters, settings and state codes that the spec gives as register fields live in the register table instead. Times
named `…At`, `…From` or `…Since` are TB2 in ns; `cyc` counts are timing-clock cycles (4 ns).
-/
namespace Sys2Proof.Machine

/-- A reference of TB0 (R416 to R418): whether its best master is selected and its timers run (R417), its last measured
offset in ns, when its present validity began, whether it keeps a qualification it lost while in use. -/
structure RefState where
  ok : Bool := false
  offset : Option Int := none
  validFrom : Option Nat := none
  kept : Bool := false
  deriving DecidableEq, Repr

/-- The four time bases in units of 2⁻³² ns (R407), the active increments (R408) and what the reference selection
remembers (R412 to R423). -/
structure TimeState where
  tb0 : BitVec 96 := 0
  tb1 : BitVec 96 := 0
  tb2 : BitVec 96 := 0
  tb3 : BitVec 96 := 0
  inc0 : Nat := 0x400000000
  inc1 : Nat := 0x400000000
  permitAt : Option Nat := none
  lastStepAt : Option Nat := none
  incHist : List (Nat × Nat) := []
  holdSince : Option Nat := none
  noQualSince : Option Nat := some 0
  refs : List RefState := [{}, {}, {}]
  ppsEdges : List Nat := []
  ppsOut : Bool := false
  ppsOutSince : Nat := 0
  ppsLastSecond : Nat := 0
  deriving DecidableEq, Repr

/-- An encoder port (R341 to R359). `count` is the registered count. `chg` holds the cycles of the last count changes
in the present direction, newest first, at most five (R345). `bar` is the highest count before a reversal, until the
count exceeds it again (R353). `held` is the position, in 1/65,536 counts, held while stopped or lost (R352). `period`
is P of R346 in cycles; `segAt`, `segPos` and `segErr` the start, position and phase error of the interpolator of R348;
`capBase` the count of the last accepted or placed tooth; `least` the position reached as the last SSI sample came in, below which the
next may not fall (R355). -/
structure EncPort where
  count : Int := 0
  highest : Int := 0
  bar : Option Int := none
  up : Bool := true
  moved : Bool := false
  chg : List Nat := []
  lastChg : Option Nat := none
  prevChg : Option Nat := none
  held : Option Int := none
  a : Bool := false
  b : Bool := false
  period : Option Nat := none
  lastTooth : Option Nat := none
  prevReal : Bool := false
  synthRun : Nat := 0
  acqTeeth : Nat := 0
  segAt : Nat := 0
  segPos : Q := ⟨0, 1⟩
  segErr : Q := ⟨0, 1⟩
  capBase : Int := 0
  ssiRaw : Option Nat := none
  ssiAt : Nat := 0
  ssiSpan : Nat := 0
  ssiD : Int := 0
  ssiRej : Nat := 0
  idxPrev : Option Int := none
  probePending : Bool := false
  lostBy : Nat := 0
  lineFaults : List Nat := []
  least : Option Int := none
  deriving DecidableEq, Repr

/-- A reservation (R141): the provisional record's claim on one valve map. `raised` says that a pilot bit has been
raised for it. -/
structure Resv where
  row : Nat
  map : Nat
  port : Nat
  strip : Nat
  closeBay : Nat
  provId : Nat
  vFirst : Nat
  vLast : Nat
  cOpen : Int
  cClose : Int
  countLead : Int
  raised : Bool := false
  deriving DecidableEq, Repr

/-- A late action already taken on a reservation (R146, R147): the ranges on which that decision is final. -/
structure LateTaken where
  row : Nat
  map : Nat
  vFirst : Nat
  vLast : Nat
  cOpen : Int
  cClose : Int
  deriving DecidableEq, Repr

/-- A strip that has closed and whose verdicts are not yet all in (R40, R49, R610): the extent of its lines in counts,
whether it was cut short (then `cutFrom` is the count of the first dropped line), its ring slot, the pixels of its flag planes that carry void or
dropped (level, line relative to the first own line of that level, column), as they cross to the Ridge (R205); whether it closed beyond
its batch slots (R33), the screening counters (by register address) that wait for its resolution (R140, R153) and, for each verdict job and stream,
whether its group or notice has been taken in. -/
structure ClosedStrip where
  row : Nat
  strip : Nat
  closeBay : Nat
  firstCount : Int
  lastCount : Int
  cutFrom : Option Int := none
  incomplete : Bool := false
  slot : Option Nat := none
  voids : List (Nat × Int × Nat) := []
  beyond : Bool := false
  jobs : List Nat := []
  streams : List Nat := []
  taken : List (Nat × Nat) := []
  aborted : List Nat := []
  replay : Bool := false
  counts : List Nat := []
  deriving DecidableEq, Repr

/-- An object of the confirmed path whose consequences wait until one of its entries is queued (R365). -/
structure HeldObj where
  report : ResultRec
  row : Nat
  deriving DecidableEq, Repr

/-- A mirror record that waits for the standby's acknowledgement (R326, R327). -/
structure MirrorOut where
  id : Nat
  sentAt : Nat
  resent : Bool := false
  record : MirrorRec
  deriving DecidableEq, Repr

/-- The firing sequencer (R360 to R369, R141 to R148). `queues` holds one list for each Peg port, in queue order.
`inbox` holds the groups and overrun notices that the Tenon link has brought into the record buffer in this bay (R16, R206);
`screened` are the objects held from screening, each with its close bay; `pilotOn` has a bit for each row whose applied
pilot_en is 1 (R150). -/
structure FireState where
  queues : List (List FEntry) := [[], [], [], [], [], [], [], []]
  left : List (Nat × FEntry) := []
  resvs : List Resv := []
  late : List LateTaken := []
  inbox : List VerdictGroup := []
  screened : List (Nat × ProvRec) := []
  closed : List ClosedStrip := []
  entCount : List (Nat × Nat × Nat) := []
  held : List HeldObj := []
  reported : List (Nat × Nat × Nat) := []
  mirror : List MirrorOut := []
  mirrorNext : Nat := 0
  evidence : List (Nat × Nat) := []
  pilotOn : Nat := 0
  deriving DecidableEq, Repr

/-- A Peg port (R380 to R396). `enApplied` is port_en as applied at the last seal; `sent` the driven state of the valves
as last sent; `moved` the valves whose change was moved by overflow, with its target time in 1/65,536 ns of TB3, in queue order (R20);
`openSince` the valves driven open with the start, in TB2, of the slot whose seal opened them (R366); `lastSlot` the slot last
sealed, `answered` whether its status has been accepted or its absence counted; `missRun` the missing slots in a row;
`transmitting` once start-up has enabled the ports; `faultFlags` the bank fault flags (bits 2 to 5) of the last accepted status. -/
structure PegPort where
  enApplied : Bool := false
  everSealed : Bool := false
  lastSlot : Nat := 0
  fullNext : Bool := false
  sent : BitVec 256 := 0
  moved : List (Nat × Int) := []
  openSince : List (Nat × Nat) := []
  answered : Bool := true
  missRun : Nat := 0
  transmitting : Bool := false
  faultFlags : Nat := 0
  deriving DecidableEq, Repr

/-- An edge record of R403. -/
structure EvtRec where
  channel : Nat
  rising : Bool
  stamp : Nat
  deriving DecidableEq, Repr

/-- A pair record of R404. -/
structure PairRec where
  unit : Nat
  start : Nat
  dur : Nat
  long : Bool
  order : Bool
  sameTick : Bool
  deriving DecidableEq, Repr

/-- Field I/O (R399 to R406): filtered input levels, broken wires, output drivers that have switched off, group
supplies below their threshold, the two record queues, the open pairs (the start stamp of each unit), and the time at which
a driver last switched off (`lastTry`, R401: it is tried again every 1 s). -/
structure FioState where
  level : BitVec 32 := 0
  broken : BitVec 32 := 0
  outFault : BitVec 16 := 0
  runFault : Bool := false
  undervolt : BitVec 7 := 0
  events : List EvtRec := []
  pairs : List PairRec := []
  openPairs : List (Nat × Nat) := []
  lastTry : List (Nat × Nat) := []
  deriving DecidableEq, Repr

/-- What a fault collector and the supervisor remember of a source (R453 to R458): whether its error output is up, the
time from which its bucket leaks, the time its pending bit was set, whether the grace of that bit has expired. -/
structure SrcState where
  asserting : Bool := false
  leakFrom : Nat := 0
  pendSince : Nat := 0
  escalated : Bool := false
  deriving DecidableEq, Repr

/-- The supervisor (R460 to R470): sources of both collectors (source i of the Ridge at 128 + i), an accepted resume
that waits for its boundary, the degrade mask as applied, the watchdog period's start, the sources that keep background
windows closed (R455). -/
structure SupState where
  srcs : Tab SrcState := []
  resumeDue : Bool := false
  mask : Nat := 0
  wdFrom : Nat := 0
  mirrorAliveAt : Nat := 0
  shedWindows : Bool := false
  deriving DecidableEq, Repr

/-- Start-up (R480 to R498). `step` is the step of R486 last completed, 0 for none; `warm` says that the start in
progress is a warm restart, `inWarm` that WRESET_N is held low, `inReset` that RESET_N is.
`img` is the image that passed step 4, until its records are applied. `pinsOn` once the pin record has been applied (R495). `startAt`
is the reset's time, `step7At` the time of step 7, `firstBay` the bay of step 9, `stripBay` the close bay of the first strip since,
`everBays` whether bays have run since POR or cold reset. `pwrGood` and `mainInput` are the supply's levels (R593). `promoted` is the
story stick whose standby has been promoted, as the NV log keeps it (R469); `fwHash` the hash of the boot firmware (R535). -/
structure BootState where
  step : Nat := 0
  optionDone : Bool := false
  warm : Bool := false
  inReset : Bool := false
  failed : Bool := false
  memTrained : Bool := false
  pinsOn : Bool := false
  startAt : Nat := 0
  step7At : Nat := 0
  firstBay : Nat := 0
  stripBay : Option Nat := none
  everBays : Bool := false
  inWarm : Bool := false
  img : Option Image := none
  pwrGood : Bool := true
  mainInput : Bool := true
  promoted : Option Nat := none
  fwHash : Nat := 0
  deriving DecidableEq, Repr

end Sys2Proof.Machine
end

