-- ==== Sys2Proof/Machine/PartsC.lean ====
section
/-!
DEFINITION. Sys2Proof/Machine/PartsC.lean: the state of adaptation and text jobs that no register holds (R543 to R564).
-/
namespace Sys2Proof.Machine

/-- A sample record (R546) with its features. -/
structure Sample where
  id : Nat := 0
  head : Nat
  closeBay : Nat
  strip : Nat
  objId : Nat
  stream : Nat
  cls : Nat
  label : Option Nat := none
  excluded : Bool := false
  epoch : Nat := 0
  feats : List Byte := []
  deriving DecidableEq, Repr

/-- A training run (R548 to R553): seed, epochs, the settings of R551 as FP32 bits, the current epoch, the samples frozen at its
start (none before the freeze) and the next step; the optimiser's state: v and m, one for each weight, p1 and p2. `stopDue` an
ADAPT_CTRL stop that waits for the next step boundary.
(Log: 84 DESIGN CHOICE.) -/
structure TrainRun where
  seed : Nat
  epochs : Nat
  adam : Bool
  lr : Nat
  mu : Nat
  b1 : Nat
  b2 : Nat
  eps : Nat
  wd : Nat
  epoch : Nat := 0
  frozen : Option (List Sample) := none
  step : Nat := 0
  vs : List Nat := []
  ms : List Nat := []
  p1 : Nat := 0x3F800000
  p2 : Nat := 0x3F800000
  stopDue : Bool := false
  deriving DecidableEq, Repr

/-- An approval (R554): the hash and bytes of the approved weights (none: a revert to the story stick's own), the hash of the story
stick it names. -/
structure Approval where
  hash : Nat
  weights : Option (List Byte)
  stick : Nat
  deriving DecidableEq, Repr

/-- An adaptable head (R543 to R555): samples staged in this bay, the candidate ring (oldest first), the labelled set, the
next sample_id; the run in progress, the FP32 master weights of the last run, the candidate with its hash; the approval whose
commit is due with its bay, the approval stored on the NVMe store. No rule gives the addresses of the records in the sample store
of R261, so they stand here and not in capture memory.
(Log: 84 DESIGN CHOICE, 131 DESIGN CHOICE.) -/
structure HeadState where
  staging : List Sample := []
  ring : List Sample := []
  labelled : List Sample := []
  nextId : Nat := 0
  run : Option TrainRun := none
  master : List Nat := []
  cand : Option (Nat × List Byte) := none
  due : Option (Nat × Approval) := none
  stored : Option Approval := none
  deriving DecidableEq, Repr

/-- A question (R559): its number, its session, the token IDs before generation, its settings (temperature as FP32 bits), the
positions its evidence takes, the tokens generated, the bytes not yet released, the chunks sent. -/
structure Query where
  id : Nat
  session : Nat
  prompt : List Nat
  maxNew : Nat := 512
  temp : Nat := 0
  topK : Nat := 40
  seed : Nat := 0
  evidence : Nat := 0
  tokens : List Nat := []
  bytes : List Byte := []
  chunks : Nat := 0
  deriving DecidableEq, Repr

/-- The text jobs' questions in queue order, the first of each job being answered; the next number. -/
structure TextState where
  queries : List (Nat × Query) := []
  nextId : Nat := 0
  deriving DecidableEq, Repr

end Sys2Proof.Machine
end

