-- ==== Sys2Proof/Machine/PartsD.lean ====
section
/-!
DEFINITION. Sys2Proof/Machine/PartsD.lean: the state of the Ethernet ports, the service protocol and housekeeping that no
register holds (R566 to R589).
-/
namespace Sys2Proof.Machine

/-- A timestamp of a PTP event message (R411, R583): its times in TB0, TB1 and TB2. -/
structure TsRec where
  tx : Bool
  domB : Bool
  msgType : Nat
  seqId : Nat
  t0 : Nat
  t1 : Nat
  t2 : Nat
  deriving DecidableEq, Repr

/-- An Ethernet port: its timestamp queue, the sequenceId of its next delay request. -/
structure EthPort where
  ts : List TsRec := []
  delaySeq : Nat := 0
  deriving DecidableEq, Repr

/-- A service session (R530, R532): its port, its level (0 reader, 1 operator, 2 maintainer), the time of its last message,
its outstanding challenges with the time of their issue. -/
structure Session where
  id : Nat
  port : Nat
  level : Nat
  lastAt : Nat
  challenges : List (Nat × Nat) := []
  deriving DecidableEq, Repr

/-- The fuses that commands write (R507): lifecycle, owner key hash slots with their revoke bits, the active slot, the
anti-rollback counter, the manufacturing lock.
(Log: 7 DESIGN CHOICE.) -/
structure FuseState where
  lifecycle : Nat := 3
  slots : List Nat := [0]
  revoked : List Nat := []
  active : Nat := 0
  counter : Nat := 0
  mfgLock : Bool := true
  deriving DecidableEq, Repr

/-- The trust state that no register holds (R507 to R537): sessions, the results of the last 64 signed commands by their
challenge (0 executed, else the reason of refusal), the next session number, fuses, the debug scope open and whether the transport
key is withheld, whether content keys are held, the segment hash registers (R491), since when the lid is open. -/
structure TrustState where
  sessions : List Session := []
  nextSession : Nat := 0
  results : List (Nat × Nat) := []
  fuses : FuseState := {}
  debugSill : Bool := false
  debugRidge : Bool := false
  keyWithheld : Bool := false
  blobKeys : Bool := false
  segHash : List (Nat × Nat) := []
  tcpPort : Nat := 4896
  revokedCerts : List Nat := []
  lidOpen : Bool := false
  deriving DecidableEq, Repr

/-- A thermal sensor (R576): whether it has been read, its last reading, since when it reads that, whether it is excluded. -/
structure SensorState where
  seen : Bool := false
  last : Int := 0
  since : Nat := 0
  bad : Bool := false
  deriving DecidableEq, Repr

/-- A fan (R578, R579): when it was started, when it was found blocked or stopped. -/
structure FanState where
  startAt : Nat := 0
  offAt : Nat := 0
  deriving DecidableEq, Repr

/-- A transaction on an I2C bus (R580): device address, whether it writes, how it ends (none: it hangs until its time-out). -/
structure I2cJob where
  dev : Nat
  write : Bool
  ends : Option Bool
  deriving DecidableEq, Repr

/-- An I2C bus (R580, R581): the transaction in progress with its start, those that wait, the time of the next recovery. -/
structure I2cState where
  cur : Option I2cJob := none
  since : Nat := 0
  queue : List I2cJob := []
  retryAt : Nat := 0
  deriving DecidableEq, Repr

/-- Housekeeping (R576 to R582): the sensors (Sill 0 to 7, Ridge at 8 to 23) read so far, the hottest temperature of the last sample,
the samples of the present 1 ms mean (sums in mV, mA, µW) with their number, the energy in units of 10⁻¹⁰ J, the fans, until when the
others run at 100 % after a recovery, the buses. -/
structure HkState where
  sensors : Tab SensorState := []
  hottest : Int := 0
  vSum : Nat := 0
  iSum : Nat := 0
  pSum : Nat := 0
  samples : Nat := 0
  energy : Nat := 0
  fans : Tab FanState := []
  fullUntil : Nat := 0
  buses : Tab I2cState := []
  deriving DecidableEq, Repr

end Sys2Proof.Machine
end

