-- ==== Sys2Proof/Machine/PartsE.lean ====
section
/-!
DEFINITION. Sys2Proof/Machine/PartsE.lean: the state of the camera links and the line pipelines that no register holds (R62
to R129). Times named `…At` are TB2 in ns.
-/
namespace Sys2Proof.Machine

/-- A trigger slot (R75): the line index, the count and TB3 time at which it fell due, when its packet was sent, whether it is
still pending, whether its void was made by R79 (its line is then not counted as late). -/
structure TrigSlot where
  idx : Nat
  count : Int
  tb3 : Nat
  sentAt : Nat
  pending : Bool := true
  quiet : Bool := false
  deriving DecidableEq, Repr

/-- Who sends a control command to a camera (R81): firmware in bring-up, a maintainer command, firmware's trigger-counter audit (R77),
the discovery read of R66 step 2. -/
inductive CtrlBy where
  | bringUp
  | maintainer
  | audit
  | discovery
  deriving DecidableEq, Repr

/-- A control command that waits for its acknowledge (R82). -/
structure CtrlCmd where
  tag : Nat
  sentAt : Nat
  resends : Nat := 0
  sender : CtrlBy := .bringUp
  deriving DecidableEq, Repr

/-- A calibration capture in progress (R84): the region of capture memory, how much of it is filled, whether the stream is rejected
(R79), the width of its lines, the lines left of the present area-scan image. -/
structure CalCap where
  base : Nat
  len : Nat
  used : Nat := 0
  rejected : Bool := false
  width : Nat := 0
  left : Option Nat := none
  deriving DecidableEq, Repr

/-- A camera, by its master link (R66 to R84). `highest` is the highest count triggered (R72), in the always-on domain.
`lastSent` the time of the last trigger packet. `restartAt` and `restartFrom` the bring-up that is due and the step it begins
at; `phase` the step of R66 that firmware carries out while the camera is configured (3; 4 the connection IDs of step 5, 5 its writes; 6; 7
the counter before acquisition start), `regAt` the register record of step 6, `rate` the code of the downlink rate at which its links
listen; `stepAt` when the present step began; `firstTrig` the first trigger due while the header is awaited;
`pollAt` the last discovery read. `tagNext` is the next packet tag expected, `ahead` the tags already received beyond it, `seen` the tags
accepted within the window behind it (R79). `dropStrip` the strip cut short by a line size. `sent` and `matched` count triggers sent and lines matched since
acquisition start, `base` is the trigger counter's value then, `tB` and `readC` a read in progress, `checkAt` when its lines are
checked, `shortfalls` the reads in a row with too few lines (R77). `keyIdx` is the last line index recorded
under an earlier key (R258), `lastIdx` the last line index recorded; `hdrTime` and `lineTime` the time values last reported in headers
(R83); `lineRec` numbers the next line record of the
camera's ring (R264). -/
structure CamState where
  slots : List TrigSlot := []
  highest : Int := 0
  lastSent : Option Nat := none
  restartAt : Option Nat := none
  restartFrom : Nat := 1
  phase : Nat := 0
  regAt : Nat := 0
  rate : Nat := 1
  stepAt : Nat := 0
  pollAt : Option Nat := none
  firstTrig : Option Nat := none
  ctrl : List CtrlCmd := []
  nextTag : Nat := 0
  tagNext : Option Nat := none
  ahead : List Nat := []
  seen : List Nat := []
  dropStrip : Option Nat := none
  sent : Nat := 0
  matched : Nat := 0
  base : Nat := 0
  tB : Option Nat := none
  readC : Option Nat := none
  checkAt : Nat := 0
  shortfalls : Nat := 0
  auditAt : Nat := 0
  heartAt : Nat := 0
  cal : Option CalCap := none
  keyIdx : Option Nat := none
  lastIdx : Option Nat := none
  hdrTime : Option Nat := none
  lineTime : Option Nat := none
  lineRec : Nat := 0
  deriving DecidableEq, Repr

/-- Power over CoaXPress of a link (R70): the times of its faults within the last 60 s, when it was switched off by a fault,
whether its enable is on, whether it is locked out. -/
structure PocState where
  faults : List Nat := []
  offSince : Option Nat := none
  on : Bool := false
  locked : Bool := false
  deriving DecidableEq, Repr

/-- A calibration record (R120), its tables unpacked: dark levels and gains by column then plane, defect entries (column,
plane mask, method). -/
structure CalRec where
  id : Nat := 0
  width : Nat := 0
  planes : Nat := 1
  camera : Nat := 0
  c1 : Nat := 0
  c2 : Nat := 0
  tn : Nat := 4
  lead : List Nat := [0, 0, 0, 0]
  frac : List Nat := [0, 0, 0, 0]
  matrix : List Int := []
  offset : List Int := []
  x0 : Int := 0
  trimL : Nat := 0
  trimR : Nat := 0
  blend : Nat := 0
  dark : List Nat := []
  gain : List Nat := []
  defects : List (Nat × Nat × Nat) := []
  deriving DecidableEq, Repr

/-- A pixel between stages: its flag byte (R95) and a value for each plane (R93). -/
structure Pix where
  f : Nat
  v : List Nat
  deriving DecidableEq, Repr

/-- A line between stages, with its line index, trigger count and TB3 time (R74); `cut` says that it belongs to the dropped rest of a
strip (R79). -/
structure PLine where
  idx : Nat
  count : Int
  tb3 : Nat
  px : List Pix
  cut : Bool := false
  deriving DecidableEq, Repr

/-- What a pipeline has received of a line index: its trigger's count and time, and the line once it is there: the samples in
the order of R262, or void (`none`), with the dropped mark; `cut` says that it belongs to the dropped rest of a strip (R79). -/
structure InLine where
  idx : Nat
  count : Int
  tb3 : Nat
  got : Bool := false
  samples : Option (List Nat) := none
  bits : Nat := 8
  dropped : Bool := false
  cut : Bool := false
  replay : Bool := false
  deriving DecidableEq, Repr

/-- The pipelines of one camera, as one pipeline over its whole line (R115), by master link. `waiting` holds the lines in
index order from `nextIn` on; `route` and `channel` the source in force (R116), `bankB` the calibration bank in force
(R123); `strip` the strip whose first line lies next or behind (its boundary is done); `s` and `n` the temporal filter's
state (R97), `resetDue` a synchronising reset that waits for the next line (R99), `commits` the strips at whose
boundary a route committed, until the row begins them; `lines` the processed input lines that alignment may still use: the lead buffer of
R261, kept as typed lines and not as bytes of its region; `nextOut` the next output line of alignment; `snapRec` numbers the next record of
the camera's snapshot ring (R264).
(Log: 131 DESIGN CHOICE.) -/
structure PipeState where
  waiting : List InLine := []
  nextIn : Option Nat := none
  route : Nat := 0
  channel : Nat := 0
  bankB : Bool := false
  calA : Option CalRec := none
  calB : Option CalRec := none
  strip : Option Nat := none
  commits : List Nat := []
  s : List (List Nat) := []
  n : Nat := 0
  resetDue : Bool := false
  lines : List PLine := []
  leadLost : List (Nat × Nat × Nat) := []
  nextOut : Option Nat := none
  snapRec : Nat := 0
  deriving DecidableEq, Repr

/-- The strip being written of a row (R110 to R114). `slot` is its slot of the ring, none for a strip without one; `cut`
the line from which it is dropped; `orFlags` the flags of all its level-0 pixels, `done` its lines written. -/
structure OpenStrip where
  strip : Nat
  slot : Option Nat
  cut : Option Nat := none
  cutCount : Option Int := none
  overflow : Bool := false
  countFirst : Int := 0
  tb3First : Nat := 0
  tb3Last : Nat := 0
  countLast : Int := 0
  voidLines : Nat := 0
  orFlags : Nat := 0
  routeCommit : Bool := false
  replay : Bool := false
  done : Nat := 0
  deriving DecidableEq, Repr

/-- A camera row's stitching and pyramid (R105 to R113). `floor` is the first strip formed since the start; `aligned` the
aligned lines of each camera (by master) not yet stitched; `next` the next line to stitch; `pair` the even line that waits at
levels 0, 1 and 2; `noRoom` that the output queue of one of its pipelines is full (R113); `fedClose` the strips of a fed row of a
lock-step follower with the bay at whose start each closes (R443), `fedFirst` the bay of the first one (the strip before it is
lead-in, R442); `tails` the last lines of each level, for the overlap; `held` the ring slots taken, with the bay at whose end each is released once its strip has closed; `nextSlot` the next slot of the ring; `full` holds the strips that have all
their lines and wait for their close, oldest first. -/
structure RowPipe where
  floor : Option Nat := none
  aligned : List (Nat × PLine) := []
  next : Option Nat := none
  cur : Option OpenStrip := none
  full : List OpenStrip := []
  pair : List (Nat × List Pix) := []
  tails : List (Nat × List (List Pix)) := []
  held : List (Nat × Option Nat) := []
  noRoom : Bool := false
  fedClose : List (Nat × Nat) := []
  fedFirst : Option Nat := none
  nextSlot : Nat := 0
  deriving DecidableEq, Repr

/-- A replay channel (R118, R119, R129). `state` stands in LP_RPL_STAT; `camera` is the recorded camera, `next` the next line
index, `lastAt` TB2 and `lastTb3` the recorded time of the line played last; `target` the
master of the destination pipelines. -/
structure ReplayState where
  camera : Nat := 0
  target : Nat := 0
  first : Nat := 0
  last : Nat := 0
  next : Nat := 0
  lastAt : Option Nat := none
  lastTb3 : Nat := 0
  deriving DecidableEq, Repr

end Sys2Proof.Machine
end

