-- ==== Sys2Proof/Machine/PartsF.lean ====
section
/-!
DEFINITION. Sys2Proof/Machine/PartsF.lean: the state of screening, the post-processor's carry and the attention engine that no
register holds (R130 to R139, R203, R204, R215 to R237).
-/
namespace Sys2Proof.Machine

/-- A component or object of screening (R131, R132): its counts and stitched columns, its lines relative to the strip's first
line, its highest scores, its flags, the strips it has been open for.
(Log: 66 DEDUCED.) -/
structure ScrObj where
  lead : Int
  trail : Int
  c0 : Nat
  c1 : Nat
  l0 : Int
  l1 : Int
  ob : Nat
  ej : Nat
  cont : Bool := false
  part : Bool := false
  forced : Bool := false
  void : Bool := false
  age : Nat := 1
  deriving DecidableEq, Repr

/-- A window of the ROI list (R136, R137), at the row's crop level: first column, first line, prov_id (0xFFFF for none), kind
(0 object, 1 continuation, 2 fallback tile). -/
structure RoiWin where
  col : Nat
  line : Int
  prov : Nat
  kind : Nat
  deriving DecidableEq, Repr

/-- The screening output of a strip, final: whether it is the fallback of R138, its ROI list. -/
structure ScrOut where
  strip : Nat
  closeBay : Nat
  fell : Bool
  wins : List RoiWin
  deriving DecidableEq, Repr

/-- Screening of a row: objects carried, the void level-2 pixels (line relative to the next strip's first, column) that their boxes may
yet cover (R134), whether the previous strip released output (R139), which strip that was and its close bay, the score cells of
strips whose output is not yet released, the outputs. -/
structure RowScreen where
  carry : List ScrObj := []
  voids : List (Int × Nat) := []
  prevOk : Bool := false
  prev : Option (Nat × Nat) := none
  cells : List (Nat × List ScoreCell) := []
  outs : List ScrOut := []
  deriving DecidableEq, Repr

/-- A kept object of the post-processor (R199 to R205): its box in quarter pixels relative to the strip, its score, class and key,
its flags, the strips it has been open for.
(Log: 66 DEDUCED.) -/
structure PpObj where
  x1 : Int
  x2 : Int
  y1 : Int
  y2 : Int
  q : Nat
  cls : Nat
  key : Nat
  cont : Bool := false
  part : Bool := false
  forced : Bool := false
  void : Bool := false
  uncov : Bool := false
  age : Nat := 1
  deriving DecidableEq, Repr

/-- What the post-processor carries of a job and row (R203, R204): the last strip it judged with its close bay, none once that
has been discarded, the open objects, whether a discarded carry held an object that no group header has told of yet. -/
structure PpRow where
  job : Nat
  row : Nat
  prev : Option (Nat × Nat) := none
  carry : List PpObj := []
  lost : Bool := false
  deriving DecidableEq, Repr

/-- The post-processor: carries, groups left pending by DETECT, the result queues of the Ridge-to-Sill buffer in sending order
(R206, R207); `sealedFor` the bay whose end guard has been sealed. -/
structure PpState where
  rows : List PpRow := []
  pending : List VerdictGroup := []
  queue : List VerdictGroup := []
  sealedFor : Option Nat := none
  deriving DecidableEq, Repr

end Sys2Proof.Machine
end

