-- ==== Sys2Proof/Machine/PartsG.lean ====
section
/-!
DEFINITION. Sys2Proof/Machine/PartsG.lean: the state of the Tenon link that no register holds (R279 to R296), and the reads and
writes of Ridge registers that wait for it. Direction 0 is Sill to Ridge, 1 Ridge to Sill.
-/
namespace Sys2Proof.Machine

/-- A flit (R279, R280): its virtual channel (0 request, 1 response, 2 posted, 3 control), its position (data: 0 middle, 1 first,
2 last, 3 both; control: 1 ack, 2 nak), the header of its transfer with the offset of its payload in it. `ack`, `crReq`, `crRsp`
and `crPost` are filled in as it is sent; verdict groups and mark sets of a transfer to the record buffer travel with its last
flit. -/
structure TnFlit where
  vc : Nat
  pos : Nat
  seq : Nat := 0
  ack : Nat := 0
  crReq : Nat := 0
  crRsp : Nat := 0
  crPost : Nat := 0
  cancelled : Bool := false
  xfer : TnXfer
  off : Nat := 0
  payload : List Byte := []
  groups : List VerdictGroup := []
  sets : List (Nat × Nat) := []
  deriving DecidableEq, Repr

/-- One direction of the link. Sender: the next sequence number, the flits not yet sent by channel, the replay buffer (R288)
with how many of its last flits are to be sent again, the flits in flight, the credits held (R284), the flits sent since a
request waits (R286), the bytes of the flit last put on the lanes, when it last heard an acknowledgement, the cycle up to which it has used its flit slots, how often the flit
at the head of the buffer has been replayed. Receiver: the next number expected (any other is discarded, R287), a nak
or an acknowledgement that is due, the buffers freed, the times of CRC failures, for each channel its transfer in progress and
whether that is dropped. -/
structure TnDir where
  nextSeq : Nat := 0
  txReq : List TnFlit := []
  txRsp : List TnFlit := []
  txPost : List TnFlit := []
  replay : List TnFlit := []
  again : Nat := 0
  wire : List TnFlit := []
  lanes : List Byte := []
  credReq : Nat := 32
  credRsp : Nat := 64
  credPost : Nat := 192
  reqWait : Nat := 0
  ackAt : Nat := 0
  slotAt : Nat := 0
  headSeq : Nat := 0
  replays : Nat := 0
  expect : Nat := 0
  nakDue : Bool := false
  ackDue : Bool := false
  freedReq : Nat := 0
  freedRsp : Nat := 0
  freedPost : Nat := 0
  crcTimes : List Nat := []
  cur : List (Nat × Bool) := []
  deriving DecidableEq, Repr

/-- A request of the Sill that waits for its response (R292): a register read, or a write of a value under a mask. `read` is the
number of the READ message it serves, with the position of its word. -/
structure TnReq where
  tag : Nat
  sentAt : Nat
  addr : Nat
  write : Option (Nat × Nat) := none
  read : Nat := 0
  word : Nat := 0
  deriving DecidableEq, Repr

/-- A service message that waits for Ridge registers: its number, its session, the words it will answer (none while they are
awaited), whether it is a WRITE, whether some request ended in error; and the answers of its session held behind it (R569). -/
structure SvcWait where
  num : Nat
  session : Nat
  write : Bool
  words : List (Option Nat)
  failed : Bool := false
  behind : List Emit := []
  deriving DecidableEq, Repr

/-- The Tenon link. `reqs` are the requests outstanding, `todo` those not issued yet (R285). `blocked` holds the tags of requests timed out (R292), with the time of it and whether the link has retrained
since; `fails` counts trainings failed in a row (R295), `tryAt` the next attempt of a failed link. -/
structure TenonState where
  s2r : TnDir := {}
  r2s : TnDir := {}
  reqs : List TnReq := []
  todo : List TnReq := []
  nextTag : Nat := 0
  blocked : List (Nat × Nat × Bool) := []
  waits : List SvcWait := []
  nextWait : Nat := 0
  fails : Nat := 0
  tryAt : Nat := 0
  deriving DecidableEq, Repr

end Sys2Proof.Machine
end

