-- ==== Sys2Proof/Machine/PartsH.lean ====
section
/-!
DEFINITION. Sys2Proof/Machine/PartsH.lean: the state of the Purlin fabric that no register holds (R301 to R330).
-/
namespace Sys2Proof.Machine

/-- A frame that waits at a port, and the port in whose receive buffer a relayed one stands meanwhile (R310). -/
structure PurWait where
  frame : PurFrame
  via : Option Nat := none
  deriving DecidableEq, Repr

/-- A Purlin port: link counters sent and accepted with the key generation (R309, R528), whether link keys are held and for which
certificate, the peer's last HELLO and whether it passed (R316), credits held by class in blocks (R310), frames that wait for
credit or for the port, the frames sent since a bulk frame waits, the time of the last frame other than LINK (R320), the times of
uncorrectable codewords and of tag failures (R306), the run of consecutive uncorrectable codewords, whether blocks are discarded up
to the next filler (R305), trainings failed in a row, the time of the next try, the time the port came up, the misses since
low-power idle was last enabled (R322), the peer's grant. -/
structure PurPort where
  txCtr : Nat := 0
  rxCtr : Option Nat := none
  gen : Nat := 0
  rxGen : Nat := 0
  rxSwitch : Option (Nat × Nat) := none
  txSwitch : Option (Nat × Nat) := none
  keyed : Bool := false
  certHash : Nat := 0
  hello : Option HelloRec := none
  helloOk : Bool := false
  helloAt : Nat := 0
  bulk : Nat := 0
  mirror : Nat := 0
  control : Nat := 0
  txq : List PurWait := []
  bulkWait : Nat := 0
  lastTx : Nat := 0
  fecTimes : List Nat := []
  tagTimes : List Nat := []
  run : Nat := 0
  resync : Bool := false
  fails : Nat := 0
  tryAt : Nat := 0
  upAt : Nat := 0
  misses : Nat := 0
  grant : Bool := false
  deriving DecidableEq, Repr

/-- A frame of a flow that is not acknowledged yet (R311), with the number of times it has been resent. -/
structure PurOut where
  frame : PurFrame
  resends : Nat := 0
  deriving DecidableEq, Repr

/-- A flow as its source sees it (R311 to R313): destination and class, the next number, the unacknowledged frames (at most 64),
the frames that wait behind them, the time from which rto runs, whether the next frame is a sync frame. -/
structure PurFlow where
  dev : Nat
  cls : Nat
  next : Nat := 0
  unacked : List PurOut := []
  waiting : List PurFrame := []
  ackAt : Nat := 0
  sync : Bool := false
  deriving DecidableEq, Repr

/-- The fabric: ports, flows sent, the next expected number of each flow received (source, class, number), the two routing tables
(table · 4,096 + device ID; 7, unreachable, where nothing is written), the bay of a swap that is due and of the last one. -/
structure PurlinState where
  ports : Tab PurPort := []
  out : List PurFlow := []
  expect : List (Nat × Nat × Nat) := []
  routes : Tab Nat := []
  swapDue : Option Nat := none
  swapped : Option Nat := none
  deriving DecidableEq, Repr

end Sys2Proof.Machine
end

