-- ==== Sys2Proof/Machine/Fields.lean ====
section
/-!
DEFINITION. Sys2Proof/Machine/Fields.lean: the address of every register of the module and the bit range of every field,
under the names the register tables of the spec give them: `R.<REGISTER>` is a byte address, `F.<REGISTER>_<field>` a
field. An argument `n` (or `n m`) is the instance: a link, camera, bent, port, row, source or job number, as the window
or array of the register's chapter counts.
-/
namespace Sys2Proof

namespace R
def DEV_ID : Nat := 0x0
def DEV_TAG : Nat := 0x4
def DEV_SERIAL_LO : Nat := 0x8
def DEV_SERIAL_HI : Nat := 0xC
def SZ_0 : Nat := 0x10
def SZ_1 : Nat := 0x14
def SZ_2 : Nat := 0x18
def SZ_3 : Nat := 0x1C
def RP_STRAP : Nat := 0x10000
def RP_BOOT_STAT : Nat := 0x10004
def RP_RESET_CTRL : Nat := 0x10008
def RP_BOOT_FLAGS : Nat := 0x1000C
def RP_SOFT_RST : Nat := 0x10010
def RP_SOFT_STAT : Nat := 0x10014
def RP_BOOT_TIME : Nat := 0x10018
def RP_PWR_CFG (n : Nat) : Nat := 0x10020 + 0x4 * n
def RP_PWR_STAT (n : Nat) : Nat := 0x10028 + 0x4 * n
def RP_PWR_FAIL (n : Nat) : Nat := 0x10030 + 0x4 * n
def RP_CNT_COLD : Nat := 0x10040
def RP_CNT_WARM : Nat := 0x10044
def RP_CNT_RESTART : Nat := 0x10048
def RP_CNT_SOFT : Nat := 0x1004C
def RP_CNT_REFUSED : Nat := 0x10050
def FLT_STAT (n m : Nat) : Nat := 0x20000 + 0xFF0000 * n + 0x4 * m
def FLT_CSTAT (n : Nat) : Nat := 0x20010 + 0xFF0000 * n
def FLT_SRC (n m : Nat) : Nat := 0x20200 + 0xFF0000 * n + 0x4 * m
def SUP_MODE : Nat := 0x20800
def SUP_CTRL : Nat := 0x20804
def SUP_CFG : Nat := 0x20808
def SUP_WD : Nat := 0x2080C
def SUP_PEND (n : Nat) : Nat := 0x20810 + 0x4 * n
def SUP_DEGRADE_LO : Nat := 0x20830
def SUP_DEGRADE_HI : Nat := 0x20834
def SUP_CNT_DEGRADE : Nat := 0x20840
def SUP_CNT_FIREOUT : Nat := 0x20844
def SUP_CNT_SAFE : Nat := 0x20848
def SUP_CNT_ESCALATE : Nat := 0x2084C
def SUP_CNT_RAISE : Nat := 0x20850
def SUP_CNT_WD : Nat := 0x20854
def TM_CFG : Nat := 0x30000
def TM_LIMITS : Nat := 0x30004
def TM_JUMP : Nat := 0x30008
def TM_STAT : Nat := 0x3000C
def TM_TB0_LO : Nat := 0x30010
def TM_TB0_HI : Nat := 0x30014
def TM_TB1_LO : Nat := 0x30018
def TM_TB1_HI : Nat := 0x3001C
def TM_TB2_LO : Nat := 0x30020
def TM_TB2_HI : Nat := 0x30024
def TM_TB3_LO : Nat := 0x30028
def TM_TB3_HI : Nat := 0x3002C
def TM_TB0_INC_LO : Nat := 0x30030
def TM_TB0_INC_HI : Nat := 0x30034
def TM_TB1_INC_LO : Nat := 0x30038
def TM_TB1_INC_HI : Nat := 0x3003C
def TM_TB0_STEP_LO : Nat := 0x30040
def TM_TB0_STEP_HI : Nat := 0x30044
def TM_TB1_STEP_LO : Nat := 0x30048
def TM_TB1_STEP_HI : Nat := 0x3004C
def TM_CTRL : Nat := 0x30050
def TM_TB3_DIFF : Nat := 0x30054
def TM_TB1_DIFF : Nat := 0x30058
def TM_PPS_IN_LO : Nat := 0x30060
def TM_PPS_IN_HI : Nat := 0x30064
def TM_PPS_ERR : Nat := 0x30068
def TM_WAKE_SKEW : Nat := 0x3006C
def TM_CNT_STEP : Nat := 0x30080
def TM_CNT_REFUSE : Nat := 0x30084
def TM_CNT_SWITCH : Nat := 0x30088
def TM_CNT_CANCEL : Nat := 0x3008C
def TM_CNT_HOLD : Nat := 0x30090
def TM_CNT_PPS_MISS : Nat := 0x30094
def TM_CNT_CLAMP : Nat := 0x30098
def ENC_CFG (n : Nat) : Nat := 0x40000 + 0x100 * n
def ENC_TOOTH_CFG (n : Nat) : Nat := 0x40004 + 0x100 * n
def ENC_SSI_CFG (n : Nat) : Nat := 0x40008 + 0x100 * n
def ENC_IDX_CFG (n : Nat) : Nat := 0x4000C + 0x100 * n
def ENC_STAT (n : Nat) : Nat := 0x40010 + 0x100 * n
def ENC_POS_LO (n : Nat) : Nat := 0x40014 + 0x100 * n
def ENC_POS_HI (n : Nat) : Nat := 0x40018 + 0x100 * n
def ENC_SPEED (n : Nat) : Nat := 0x4001C + 0x100 * n
def ENC_IDX_LO (n : Nat) : Nat := 0x40020 + 0x100 * n
def ENC_IDX_HI (n : Nat) : Nat := 0x40024 + 0x100 * n
def ENC_DRIFT (n : Nat) : Nat := 0x40028 + 0x100 * n
def ENC_PRB_LO (n : Nat) : Nat := 0x4002C + 0x100 * n
def ENC_PRB_HI (n : Nat) : Nat := 0x40030 + 0x100 * n
def ENC_PRB_T_LO (n : Nat) : Nat := 0x40034 + 0x100 * n
def ENC_PRB_T_HI (n : Nat) : Nat := 0x40038 + 0x100 * n
def ENC_PRB_SEQ (n : Nat) : Nat := 0x4003C + 0x100 * n
def ENC_BAY_LO (n : Nat) : Nat := 0x40040 + 0x100 * n
def ENC_BAY_HI (n : Nat) : Nat := 0x40044 + 0x100 * n
def ENC_CNT_ILLEGAL (n : Nat) : Nat := 0x40060 + 0x100 * n
def ENC_CNT_NOISE (n : Nat) : Nat := 0x40064 + 0x100 * n
def ENC_CNT_SYNTH (n : Nat) : Nat := 0x40068 + 0x100 * n
def ENC_CNT_LOST (n : Nat) : Nat := 0x4006C + 0x100 * n
def ENC_CNT_INDEX (n : Nat) : Nat := 0x40070 + 0x100 * n
def ENC_CNT_PROBE (n : Nat) : Nat := 0x40074 + 0x100 * n
def ENC_CNT_SSI_ERR (n : Nat) : Nat := 0x40078 + 0x100 * n
def ENC_CNT_STOP (n : Nat) : Nat := 0x4007C + 0x100 * n
def FS_STAT : Nat := 0x50000
def FS_Q_STAT (n : Nat) : Nat := 0x50100 + 0x40 * n
def FS_Q_CNT_IN (n : Nat) : Nat := 0x50104 + 0x40 * n
def FS_Q_CNT_OUT (n : Nat) : Nat := 0x50108 + 0x40 * n
def FS_Q_CNT_CANCEL (n : Nat) : Nat := 0x5010C + 0x40 * n
def FS_Q_CNT_FULL (n : Nat) : Nat := 0x50110 + 0x40 * n
def FS_Q_CNT_LATE (n : Nat) : Nat := 0x50114 + 0x40 * n
def FS_Q_CNT_OVF (n : Nat) : Nat := 0x50118 + 0x40 * n
def FS_Q_CNT_EST (n : Nat) : Nat := 0x5011C + 0x40 * n
def FS_Q_CNT_FORCED (n : Nat) : Nat := 0x50120 + 0x40 * n
def FS_Q_CNT_UNMIRR (n : Nat) : Nat := 0x50124 + 0x40 * n
def FS_ROW_CFG (n : Nat) : Nat := 0x51000 + 0x200 * n
def FS_ROW_STAT (n : Nat) : Nat := 0x51004 + 0x200 * n
def FS_ROW_CNT_OBJ (n : Nat) : Nat := 0x51010 + 0x200 * n
def FS_ROW_CNT_EJECT (n : Nat) : Nat := 0x51014 + 0x200 * n
def FS_ROW_CNT_PASS (n : Nat) : Nat := 0x51018 + 0x200 * n
def FS_ROW_CNT_INDET (n : Nat) : Nat := 0x5101C + 0x200 * n
def FS_ROW_CNT_LATE (n : Nat) : Nat := 0x51020 + 0x200 * n
def FS_ROW_CNT_LIMIT (n : Nat) : Nat := 0x51024 + 0x200 * n
def FS_ROW_CNT_DUP (n : Nat) : Nat := 0x51028 + 0x200 * n
def FS_MAP_A (n m : Nat) : Nat := 0x51100 + 0x200 * n + 0x20 * m
def FS_MAP_COL (n m : Nat) : Nat := 0x51104 + 0x200 * n + 0x20 * m
def FS_MAP_PITCH (n m : Nat) : Nat := 0x51108 + 0x200 * n + 0x20 * m
def FS_MAP_OFFSET (n m : Nat) : Nat := 0x5110C + 0x200 * n + 0x20 * m
def FS_MAP_SHAPE (n m : Nat) : Nat := 0x51110 + 0x200 * n + 0x20 * m
def FS_MAP_CLASS (n m : Nat) : Nat := 0x51114 + 0x200 * n + 0x20 * m
def FS_MAP_LIMIT (n m : Nat) : Nat := 0x51118 + 0x200 * n + 0x20 * m
def PEG_CFG (n : Nat) : Nat := 0x60000 + 0x100 * n
def PEG_TIMING (n : Nat) : Nat := 0x60004 + 0x100 * n
def PEG_CTRL (n : Nat) : Nat := 0x60008 + 0x100 * n
def PEG_STAT (n : Nat) : Nat := 0x6000C + 0x100 * n
def PEG_NONCE (n : Nat) : Nat := 0x60010 + 0x100 * n
def PEG_VFAULT (n m : Nat) : Nat := 0x60020 + 0x100 * n + 0x4 * m
def PEG_CNT_FRAMES (n : Nat) : Nat := 0x60040 + 0x100 * n
def PEG_CNT_FULL (n : Nat) : Nat := 0x60044 + 0x100 * n
def PEG_CNT_STATUS (n : Nat) : Nat := 0x60048 + 0x100 * n
def PEG_CNT_ST_MISS (n : Nat) : Nat := 0x6004C + 0x100 * n
def PEG_CNT_ST_TAG (n : Nat) : Nat := 0x60050 + 0x100 * n
def PEG_CNT_ST_CRC (n : Nat) : Nat := 0x60054 + 0x100 * n
def PEG_CNT_GAP (n : Nat) : Nat := 0x60058 + 0x100 * n
def PEG_CNT_OVF (n : Nat) : Nat := 0x6005C + 0x100 * n
def FIO_IN : Nat := 0x70000
def FIO_WB_EN : Nat := 0x70004
def FIO_SUBST : Nat := 0x70008
def FIO_OUT : Nat := 0x7000C
def FIO_OUT_RB : Nat := 0x70010
def FIO_OUT_SRC : Nat := 0x70014
def FIO_GRP : Nat := 0x70018
def FIO_EDGE_R : Nat := 0x7001C
def FIO_EDGE_F : Nat := 0x70020
def FIO_Q_STAT : Nat := 0x70024
def FIO_EVT_HDR : Nat := 0x70028
def FIO_EVT_T_LO : Nat := 0x7002C
def FIO_EVT_T_HI : Nat := 0x70030
def FIO_PAIR_CFG (n : Nat) : Nat := 0x70040 + 0x4 * n
def FIO_PAIR_HDR : Nat := 0x70060
def FIO_PAIR_T_LO : Nat := 0x70064
def FIO_PAIR_T_HI : Nat := 0x70068
def FIO_PAIR_DUR : Nat := 0x7006C
def FIO_CNT_EDGE : Nat := 0x70080
def FIO_CNT_DROP : Nat := 0x70084
def FIO_CNT_PAIRS : Nat := 0x70088
def FIO_CNT_ORDER : Nat := 0x7008C
def FIO_CNT_SAME : Nat := 0x70090
def FIO_CNT_REPEAT : Nat := 0x70094
def FIO_CNT_WB : Nat := 0x70098
def FIO_CNT_OUT_FLT : Nat := 0x7009C
def CXP_LINK_CFG (n : Nat) : Nat := 0x80000 + 0x400 * n
def CXP_LINK_CTRL (n : Nat) : Nat := 0x80004 + 0x400 * n
def CXP_LINK_STAT (n : Nat) : Nat := 0x80008 + 0x400 * n
def CXP_TRIG_CFG (n : Nat) : Nat := 0x8000C + 0x400 * n
def CXP_TRIG_PHASE (n : Nat) : Nat := 0x80010 + 0x400 * n
def CXP_TIMING_CFG (n : Nat) : Nat := 0x80014 + 0x400 * n
def CXP_CAM_INFO (n : Nat) : Nat := 0x80020 + 0x400 * n
def CXP_CNT_PKT (n : Nat) : Nat := 0x80040 + 0x400 * n
def CXP_CNT_CRC (n : Nat) : Nat := 0x80044 + 0x400 * n
def CXP_CNT_DUP (n : Nat) : Nat := 0x80048 + 0x400 * n
def CXP_CNT_UNSOL (n : Nat) : Nat := 0x8004C + 0x400 * n
def CXP_CNT_EVENT (n : Nat) : Nat := 0x80050 + 0x400 * n
def CXP_CNT_VOID (n : Nat) : Nat := 0x80054 + 0x400 * n
def CXP_CNT_LATE (n : Nat) : Nat := 0x80058 + 0x400 * n
def CXP_CNT_HDR_REJ (n : Nat) : Nat := 0x8005C + 0x400 * n
def CXP_CNT_SIZE_DROP (n : Nat) : Nat := 0x80060 + 0x400 * n
def CXP_CNT_TRIG (n : Nat) : Nat := 0x80064 + 0x400 * n
def CXP_CNT_TRIG_SUP (n : Nat) : Nat := 0x80068 + 0x400 * n
def CXP_CNT_RECONNECT (n : Nat) : Nat := 0x8006C + 0x400 * n
def CXP_CNT_ORDER (n : Nat) : Nat := 0x80070 + 0x400 * n
def LP_CFG (n : Nat) : Nat := 0xA0000 + 0x800 * n
def LP_CTRL (n : Nat) : Nat := 0xA0004 + 0x800 * n
def LP_STAT (n : Nat) : Nat := 0xA0008 + 0x800 * n
def LP_STRIP_CFG (n : Nat) : Nat := 0xA000C + 0x800 * n
def LP_CAL_ID_A (n : Nat) : Nat := 0xA0010 + 0x800 * n
def LP_CAL_ID_B (n : Nat) : Nat := 0xA0014 + 0x800 * n
def LP_CNT_LINES (n : Nat) : Nat := 0xA0040 + 0x800 * n
def LP_CNT_STRIPS (n : Nat) : Nat := 0xA0044 + 0x800 * n
def LP_CNT_INCOMPLETE (n : Nat) : Nat := 0xA0048 + 0x800 * n
def LP_CNT_OVERFLOW (n : Nat) : Nat := 0xA004C + 0x800 * n
def LP_CNT_ROUTE_DISC (n : Nat) : Nat := 0xA0050 + 0x800 * n
def LP_CNT_SYNC (n : Nat) : Nat := 0xA0054 + 0x800 * n
def LP_CNT_CLIP (n : Nat) : Nat := 0xA0058 + 0x800 * n
def LP_RPL_CTRL (n : Nat) : Nat := 0xB8000 + 0x100 * n
def LP_RPL_STAT (n : Nat) : Nat := 0xB8004 + 0x100 * n
def LP_RPL_FIRST_LO (n : Nat) : Nat := 0xB8008 + 0x100 * n
def LP_RPL_FIRST_HI (n : Nat) : Nat := 0xB800C + 0x100 * n
def LP_RPL_LAST_LO (n : Nat) : Nat := 0xB8010 + 0x100 * n
def LP_RPL_LAST_HI (n : Nat) : Nat := 0xB8014 + 0x100 * n
def LP_RPL_RATE (n : Nat) : Nat := 0xB8018 + 0x100 * n
def LP_RPL_LOST (n : Nat) : Nat := 0xB801C + 0x100 * n
def STUD_CFG : Nat := 0xC0000
def STUD_STAT : Nat := 0xC0004
def SCR_ROW_CFG (n : Nat) : Nat := 0xC0100 + 0x40 * n
def SCR_ROW_THR (n : Nat) : Nat := 0xC0104 + 0x40 * n
def SCR_ROW_CROP (n : Nat) : Nat := 0xC0108 + 0x40 * n
def SCR_ROW_STAT (n : Nat) : Nat := 0xC010C + 0x40 * n
def SCR_CNT_STRIPS (n : Nat) : Nat := 0xC0110 + 0x40 * n
def SCR_CNT_FALLBACK (n : Nat) : Nat := 0xC0114 + 0x40 * n
def SCR_CNT_UPHELD (n : Nat) : Nat := 0xC0118 + 0x40 * n
def SCR_CNT_DROPPED (n : Nat) : Nat := 0xC011C + 0x40 * n
def SCR_CNT_WITHDRAWN (n : Nat) : Nat := 0xC0120 + 0x40 * n
def SCR_CNT_LATE (n : Nat) : Nat := 0xC0124 + 0x40 * n
def SCR_CNT_UNCOVERED (n : Nat) : Nat := 0xC0128 + 0x40 * n
def SCR_CNT_COMP_OVF (n : Nat) : Nat := 0xC012C + 0x40 * n
def CM_CFG : Nat := 0xD0000
def CM_KEY : Nat := 0xD0008
def CM_STAT : Nat := 0xD0004
def CM_CTRL : Nat := 0xD000C
def CM_ERR_LO : Nat := 0xD0010
def CM_ERR_HI : Nat := 0xD0014
def CM_PIPE_WAIT_MAX : Nat := 0xD0018
def CM_CNT_CE : Nat := 0xD0020
def CM_CNT_UE : Nat := 0xD0024
def CM_CNT_DMA : Nat := 0xD0028
def TN_CFG : Nat := 0xE0000
def TN_STAT : Nat := 0xE0004
def TN_CTRL : Nat := 0xE0008
def TN_CNT_FLIT_S2R : Nat := 0xE0040
def TN_CNT_FLIT_R2S : Nat := 0xE0044
def TN_CNT_CRC_S2R : Nat := 0xE0048
def TN_CNT_CRC_R2S : Nat := 0xE004C
def TN_CNT_REPLAY : Nat := 0xE0050
def TN_CNT_RETRAIN : Nat := 0xE0054
def TN_CNT_STALE : Nat := 0xE0058
def TN_CNT_CANCEL : Nat := 0xE005C
def TN_CNT_TIMEOUT : Nat := 0xE0060
def TN_CNT_LATE_RSP : Nat := 0xE0064
def PUR_CFG (n : Nat) : Nat := 0xF0000 + 0x2000 * n
def PUR_CTRL (n : Nat) : Nat := 0xF0004 + 0x2000 * n
def PUR_STAT (n : Nat) : Nat := 0xF0008 + 0x2000 * n
def PUR_LANE (n : Nat) : Nat := 0xF000C + 0x2000 * n
def PUR_FEC_CFG (n : Nat) : Nat := 0xF0010 + 0x2000 * n
def PUR_CNT_CW (n : Nat) : Nat := 0xF0040 + 0x2000 * n
def PUR_CNT_CORR (n : Nat) : Nat := 0xF0044 + 0x2000 * n
def PUR_CNT_UNCORR (n : Nat) : Nat := 0xF0048 + 0x2000 * n
def PUR_CNT_DOWN (n : Nat) : Nat := 0xF004C + 0x2000 * n
def PUR_CNT_TAG (n : Nat) : Nat := 0xF0050 + 0x2000 * n
def PUR_CNT_SRC (n : Nat) : Nat := 0xF0054 + 0x2000 * n
def PUR_CNT_WINDOW (n : Nat) : Nat := 0xF0058 + 0x2000 * n
def PUR_CNT_PROTO (n : Nat) : Nat := 0xF005C + 0x2000 * n
def PUR_CNT_GUARD (n : Nat) : Nat := 0xF0060 + 0x2000 * n
def PUR_CNT_TX_FRAMES (n : Nat) : Nat := 0xF0064 + 0x2000 * n
def PUR_DEV : Nat := 0xFC000
def PUR_ROUTE_CTRL : Nat := 0xFC004
def PUR_SWAP_BAY_LO : Nat := 0xFC008
def PUR_SWAP_BAY_HI : Nat := 0xFC00C
def PUR_ROUTE_STAT : Nat := 0xFC010
def PUR_MIRROR_CFG : Nat := 0xFC014
def PUR_MIRROR_STAT : Nat := 0xFC018
def PUR_CNT_RETX : Nat := 0xFC040
def PUR_CNT_GAP : Nat := 0xFC044
def PUR_CNT_DUP : Nat := 0xFC048
def PUR_CNT_SYNC : Nat := 0xFC04C
def PUR_CNT_STALE : Nat := 0xFC050
def PUR_CNT_HOP : Nat := 0xFC054
def PUR_CNT_NOROUTE : Nat := 0xFC058
def PUR_CNT_MIRROR : Nat := 0xFC05C
def PUR_CNT_MIRROR_RETX : Nat := 0xFC060
def PUR_CNT_MIRROR_LATE : Nat := 0xFC064
def ETH_CFG (n : Nat) : Nat := 0x110000 + 0x400 * n
def ETH_STAT (n : Nat) : Nat := 0x110004 + 0x400 * n
def ETH_MAC_LO (n : Nat) : Nat := 0x110008 + 0x400 * n
def ETH_MAC_HI (n : Nat) : Nat := 0x11000C + 0x400 * n
def ETH_CAL_RX (n : Nat) : Nat := 0x110010 + 0x400 * n
def ETH_CAL_TX (n : Nat) : Nat := 0x110014 + 0x400 * n
def ETH_TS_HDR (n : Nat) : Nat := 0x110020 + 0x400 * n
def ETH_TS_TB0_LO (n : Nat) : Nat := 0x110024 + 0x400 * n
def ETH_TS_TB0_HI (n : Nat) : Nat := 0x110028 + 0x400 * n
def ETH_TS_TB1_LO (n : Nat) : Nat := 0x11002C + 0x400 * n
def ETH_TS_TB1_HI (n : Nat) : Nat := 0x110030 + 0x400 * n
def ETH_TS_TB2_LO (n : Nat) : Nat := 0x110034 + 0x400 * n
def ETH_TS_TB2_HI (n : Nat) : Nat := 0x110038 + 0x400 * n
def ETH_CNT_RX (n : Nat) : Nat := 0x110080 + 0x400 * n
def ETH_CNT_TX (n : Nat) : Nat := 0x110084 + 0x400 * n
def ETH_CNT_FCS (n : Nat) : Nat := 0x110088 + 0x400 * n
def ETH_CNT_DROP (n : Nat) : Nat := 0x11008C + 0x400 * n
def ETH_CNT_PTP (n : Nat) : Nat := 0x110090 + 0x400 * n
def ETH_CNT_STREAM_DROP (n : Nat) : Nat := 0x110094 + 0x400 * n
def HK_TEMP : Nat := 0x120000
def HK_THR : Nat := 0x120004
def HK_STAT : Nat := 0x120008
def HK_SENS_BAD : Nat := 0x12000C
def HK_VIN : Nat := 0x120010
def HK_IIN : Nat := 0x120014
def HK_PIN : Nat := 0x120018
def HK_ENERGY_LO : Nat := 0x12001C
def HK_ENERGY_HI : Nat := 0x120020
def HK_FAN (n : Nat) : Nat := 0x120030 + 0x4 * n
def HK_I2C (n : Nat) : Nat := 0x120040 + 0x4 * n
def HK_PMB (n : Nat) : Nat := 0x120080 + 0x4 * n
def HK_CNT_FAN_RESTART : Nat := 0x120100
def HK_CNT_I2C_RECOVER : Nat := 0x120104
def HK_CNT_I2C_ERR : Nat := 0x120108
def HK_CNT_PMB_ERR : Nat := 0x12010C
def SEC_STAT : Nat := 0x130000
def SEC_LOAD_STAT : Nat := 0x130004
def SEC_ROLLBACK : Nat := 0x130008
def SEC_TAMPER : Nat := 0x13000C
def SEC_OWNER_HASH (n : Nat) : Nat := 0x130040 + 0x4 * n
def SEC_SS_HASH (n : Nat) : Nat := 0x130080 + 0x4 * n
def SEC_SEG_VALID (n : Nat) : Nat := 0x1300C0 + 0x4 * n
def SEC_CNT_SESSIONS : Nat := 0x130100
def SEC_CNT_CMD_OK : Nat := 0x130104
def SEC_CNT_CMD_REJ : Nat := 0x130108
def SEC_CNT_LOAD_REJ : Nat := 0x13010C
def SEC_CNT_SKIP : Nat := 0x130110
def SEC_CNT_LOG_AUTH : Nat := 0x130114
def SEC_CNT_TAMPER : Nat := 0x130118
def MB_STAT : Nat := 0x140000
def MB_HEARTBEAT : Nat := 0x140004
def RC_BAY_CFG : Nat := 0x1000000
def RC_BAY_RESERVE : Nat := 0x1000004
def RC_BAY_INDEX_LO : Nat := 0x1000008
def RC_BAY_INDEX_HI : Nat := 0x100000C
def RC_BAY_STAT : Nat := 0x1000010
def RC_SLACK_MIN : Nat := 0x1000014
def RC_STALE_COUNT : Nat := 0x1000018
def RC_BG_ROLLBACK : Nat := 0x100001C
def RC_JOB_CTRL (n : Nat) : Nat := 0x1000100 + 0x4 * n
def RC_JOB_STAT (n : Nat) : Nat := 0x1000300 + 0x4 * n
def RC_JOB_OVR (n : Nat) : Nat := 0x1000500 + 0x4 * n
def RC_JOB_ABORT (n : Nat) : Nat := 0x1000700 + 0x4 * n
def ADAPT_CFG (n : Nat) : Nat := 0x1000A00 + 0x40 * n
def ADAPT_STAT (n : Nat) : Nat := 0x1000A04 + 0x40 * n
def ADAPT_CTRL (n : Nat) : Nat := 0x1000A08 + 0x40 * n
def ADAPT_STORE (n : Nat) : Nat := 0x1000A0C + 0x40 * n
def ADAPT_VAL (n : Nat) : Nat := 0x1000A10 + 0x40 * n
def ADAPT_CAND_LO (n : Nat) : Nat := 0x1000A14 + 0x40 * n
def ADAPT_CAND_HI (n : Nat) : Nat := 0x1000A18 + 0x40 * n
def ADAPT_ACTIVE_LO (n : Nat) : Nat := 0x1000A1C + 0x40 * n
def ADAPT_ACTIVE_HI (n : Nat) : Nat := 0x1000A20 + 0x40 * n
def ADAPT_CNT_CAPT (n : Nat) : Nat := 0x1000A24 + 0x40 * n
def ADAPT_CNT_SKIP (n : Nat) : Nat := 0x1000A28 + 0x40 * n
def ADAPT_CNT_STEP (n : Nat) : Nat := 0x1000A2C + 0x40 * n
def TXT_STAT : Nat := 0x1000C00
def TXT_CNT_QUERY : Nat := 0x1000C04
def TXT_CNT_REFUSED : Nat := 0x1000C08
def HBM_CFG : Nat := 0x1020000
def HBM_STAT : Nat := 0x1020004
def HBM_TEMP : Nat := 0x1020008
def HBM_ERR_LO : Nat := 0x1020010
def HBM_ERR_HI : Nat := 0x1020014
def HBM_CNT_CE : Nat := 0x1020020
def HBM_CNT_UE : Nat := 0x1020024
def HBM_CNT_RETRY : Nat := 0x1020028
def BENT_STAT (n : Nat) : Nat := 0x1100000 + 0x10000 * n
def BENT_CUR (n : Nat) : Nat := 0x1100004 + 0x10000 * n
def BENT_BUSY (n : Nat) : Nat := 0x1100008 + 0x10000 * n
def BENT_HBM_WAIT (n : Nat) : Nat := 0x110000C + 0x10000 * n
def BENT_CNT_CMD (n : Nat) : Nat := 0x1100010 + 0x10000 * n
def BENT_CNT_SAT (n : Nat) : Nat := 0x1100014 + 0x10000 * n
def BENT_CNT_NAN (n : Nat) : Nat := 0x1100018 + 0x10000 * n
def BENT_CNT_STOP (n : Nat) : Nat := 0x110001C + 0x10000 * n
def BENT_SRAM_STAT (n : Nat) : Nat := 0x1100100 + 0x10000 * n
def BENT_SRAM_CFG (n : Nat) : Nat := 0x1100104 + 0x10000 * n
def BENT_SCRUB_LAP (n : Nat) : Nat := 0x1100108 + 0x10000 * n
def BENT_SCRUB_WORST (n : Nat) : Nat := 0x110010C + 0x10000 * n
def BENT_SRAM_ERR (n : Nat) : Nat := 0x1100110 + 0x10000 * n
def BENT_SRAM_REPAIR (n m : Nat) : Nat := 0x1100114 + 0x10000 * n + 0x4 * m
def BENT_CNT_CE (n : Nat) : Nat := 0x1100120 + 0x10000 * n
def BENT_CNT_UE (n : Nat) : Nat := 0x1100124 + 0x10000 * n
def BENT_CNT_COLL (n : Nat) : Nat := 0x1100128 + 0x10000 * n
def BENT_CNT_LAPS (n : Nat) : Nat := 0x110012C + 0x10000 * n
def BENT_CNT_DMA (n : Nat) : Nat := 0x1100130 + 0x10000 * n
def ATT_STAT : Nat := 0x1300000
def ATT_CNT_CMD : Nat := 0x1300010
def ATT_CNT_ROWS : Nat := 0x1300014
def ATT_CNT_GAP : Nat := 0x1300018
def ATT_CNT_DUP : Nat := 0x130001C
def ATT_CNT_FULL : Nat := 0x1300020
def ATT_CNT_BAD : Nat := 0x1300024
def ATT_CNT_EMPTY : Nat := 0x1300028
def ATT_CNT_STOP : Nat := 0x130002C
def ATT_RING_CFG (n : Nat) : Nat := 0x1300100 + 0x20 * n
def ATT_RING_LAST_LO (n : Nat) : Nat := 0x1300104 + 0x20 * n
def ATT_RING_LAST_HI (n : Nat) : Nat := 0x1300108 + 0x20 * n
def ATT_RING_STAT (n : Nat) : Nat := 0x130010C + 0x20 * n
def SPEC_STAT : Nat := 0x1310000
def SPEC_CNT_CMD : Nat := 0x1310010
def SPEC_CNT_TILES : Nat := 0x1310014
def SPEC_CNT_STOP : Nat := 0x1310018
def PP_STAT : Nat := 0x1320000
def PP_ROW_STAT (n : Nat) : Nat := 0x1320100 + 0x40 * n
def PP_CNT_CAND (n : Nat) : Nat := 0x1320104 + 0x40 * n
def PP_CNT_OBJ (n : Nat) : Nat := 0x1320108 + 0x40 * n
def PP_CNT_INDET (n : Nat) : Nat := 0x132010C + 0x40 * n
def PP_CNT_CAND_OVF (n : Nat) : Nat := 0x1320110 + 0x40 * n
def PP_CNT_OBJ_OVF (n : Nat) : Nat := 0x1320114 + 0x40 * n
def PP_CNT_CARRY_LOST (n : Nat) : Nat := 0x1320118 + 0x40 * n
def PP_CNT_MERGED (n : Nat) : Nat := 0x132011C + 0x40 * n
def PP_CNT_FORCED (n : Nat) : Nat := 0x1320120 + 0x40 * n
def WIT_CFG : Nat := 0x1330000
def WIT_STAT : Nat := 0x1330004
def WIT_Q_CTRL : Nat := 0x1330010
def WIT_Q_KEY_LO : Nat := 0x1330014
def WIT_Q_KEY_HI : Nat := 0x1330018
def WIT_Q_MARK_LO : Nat := 0x133001C
def WIT_Q_MARK_HI : Nat := 0x1330020
def WIT_Q_ELEM_LO : Nat := 0x1330024
def WIT_Q_ELEM_HI : Nat := 0x1330028
def WIT_Q_LAYER : Nat := 0x133002C
def WIT_LOCK_FIRST : Nat := 0x1330030
def WIT_LOCK_KEY_LO : Nat := 0x1330034
def WIT_LOCK_KEY_HI : Nat := 0x1330038
def WIT_CNT_REC : Nat := 0x1330040
def WIT_CNT_GAP : Nat := 0x1330044
def WIT_CNT_DROP : Nat := 0x1330048
def WIT_CNT_MATCH : Nat := 0x133004C
def WIT_CNT_MISMATCH : Nat := 0x1330050
def WIT_CNT_SKIP : Nat := 0x1330054
def WIT_CNT_MISSING : Nat := 0x1330058
end R

namespace F
def DEV_ID_part : Fld := ⟨0x0, 31, 16⟩
def DEV_ID_grade : Fld := ⟨0x0, 15, 12⟩
def DEV_TAG_stepping : Fld := ⟨0x4, 31, 24⟩
def DEV_TAG_ucode_level : Fld := ⟨0x4, 23, 12⟩
def DEV_TAG_fw_level : Fld := ⟨0x4, 11, 0⟩
def SZ_0_hbm_gib : Fld := ⟨0x10, 31, 24⟩
def SZ_0_hbm_stacks : Fld := ⟨0x10, 17, 16⟩
def SZ_0_sram_mib : Fld := ⟨0x10, 15, 8⟩
def SZ_0_bents : Fld := ⟨0x10, 7, 0⟩
def SZ_1_studs : Fld := ⟨0x14, 27, 24⟩
def SZ_1_streams : Fld := ⟨0x14, 23, 16⟩
def SZ_1_hbm_gbs : Fld := ⟨0x14, 15, 0⟩
def SZ_2_valves : Fld := ⟨0x18, 31, 20⟩
def SZ_2_peg_ports : Fld := ⟨0x18, 19, 16⟩
def SZ_2_int8 : Fld := ⟨0x18, 15, 0⟩
def SZ_3_cm_gib : Fld := ⟨0x1C, 23, 16⟩
def SZ_3_purlin : Fld := ⟨0x1C, 11, 8⟩
def SZ_3_jobs : Fld := ⟨0x1C, 7, 0⟩
def RP_STRAP_mfg_locked : Fld := ⟨0x10000, 4, 4⟩
def RP_STRAP_clk_mode : Fld := ⟨0x10000, 3, 2⟩
def RP_STRAP_boot_src : Fld := ⟨0x10000, 1, 0⟩
def RP_BOOT_STAT_phase : Fld := ⟨0x10004, 31, 28⟩
def RP_BOOT_STAT_cause : Fld := ⟨0x10004, 27, 25⟩
def RP_BOOT_STAT_reused : Fld := ⟨0x10004, 7, 0⟩
def RP_RESET_CTRL_cold_req : Fld := ⟨0x10008, 1, 1⟩
def RP_RESET_CTRL_warm_req : Fld := ⟨0x10008, 0, 0⟩
def RP_BOOT_FLAGS_realign_due : Fld := ⟨0x1000C, 3, 3⟩
def RP_BOOT_FLAGS_no_time : Fld := ⟨0x1000C, 2, 2⟩
def RP_BOOT_FLAGS_hash_mismatch : Fld := ⟨0x1000C, 1, 1⟩
def RP_BOOT_FLAGS_phase_restart : Fld := ⟨0x1000C, 0, 0⟩
def RP_SOFT_RST_pipe_grp : Fld := ⟨0x10010, 12, 7⟩
def RP_SOFT_RST_postproc : Fld := ⟨0x10010, 6, 6⟩
def RP_SOFT_RST_spectral : Fld := ⟨0x10010, 5, 5⟩
def RP_SOFT_RST_attention : Fld := ⟨0x10010, 4, 4⟩
def RP_SOFT_RST_tenon_r2s : Fld := ⟨0x10010, 3, 3⟩
def RP_SOFT_RST_tenon_s2r : Fld := ⟨0x10010, 2, 2⟩
def RP_SOFT_RST_cm_dma : Fld := ⟨0x10010, 1, 1⟩
def RP_SOFT_RST_studs : Fld := ⟨0x10010, 0, 0⟩
def RP_SOFT_STAT_RESET_REFUSED : Fld := ⟨0x10014, 31, 31⟩
def RP_SOFT_STAT_refused : Fld := ⟨0x10014, 12, 0⟩
def RP_BOOT_TIME_warm : Fld := ⟨0x10018, 31, 31⟩
def RP_BOOT_TIME_ms : Fld := ⟨0x10018, 16, 0⟩
def FLT_CSTAT_link_loss (n : Nat) : Fld := ⟨0x20010 + 0xFF0000 * n, 2, 2⟩
def FLT_CSTAT_sup_vote (n : Nat) : Fld := ⟨0x20010 + 0xFF0000 * n, 1, 1⟩
def FLT_CSTAT_reg_parity (n : Nat) : Fld := ⟨0x20010 + 0xFF0000 * n, 0, 0⟩
def FLT_SRC_sev_cfg (n m : Nat) : Fld := ⟨0x20200 + 0xFF0000 * n + 0x4 * m, 31, 30⟩
def FLT_SRC_sev_eff (n m : Nat) : Fld := ⟨0x20200 + 0xFF0000 * n + 0x4 * m, 29, 28⟩
def FLT_SRC_bkt_n (n m : Nat) : Fld := ⟨0x20200 + 0xFF0000 * n + 0x4 * m, 27, 24⟩
def FLT_SRC_bkt_k (n m : Nat) : Fld := ⟨0x20200 + 0xFF0000 * n + 0x4 * m, 23, 20⟩
def FLT_SRC_level (n m : Nat) : Fld := ⟨0x20200 + 0xFF0000 * n + 0x4 * m, 19, 16⟩
def FLT_SRC_shed (n m : Nat) : Fld := ⟨0x20200 + 0xFF0000 * n + 0x4 * m, 1, 1⟩
def FLT_SRC_raised (n m : Nat) : Fld := ⟨0x20200 + 0xFF0000 * n + 0x4 * m, 0, 0⟩
def SUP_MODE_mode : Fld := ⟨0x20800, 31, 30⟩
def SUP_MODE_prev : Fld := ⟨0x20800, 29, 28⟩
def SUP_MODE_took_over : Fld := ⟨0x20800, 27, 27⟩
def SUP_MODE_resume_refused : Fld := ⟨0x20800, 26, 26⟩
def SUP_MODE_cause_half : Fld := ⟨0x20800, 8, 8⟩
def SUP_MODE_cause_cmd : Fld := ⟨0x20800, 7, 7⟩
def SUP_MODE_cause_src : Fld := ⟨0x20800, 6, 0⟩
def SUP_CTRL_promote : Fld := ⟨0x20804, 3, 3⟩
def SUP_CTRL_safe_req : Fld := ⟨0x20804, 2, 2⟩
def SUP_CTRL_fire_out_req : Fld := ⟨0x20804, 1, 1⟩
def SUP_CTRL_resume : Fld := ⟨0x20804, 0, 0⟩
def SUP_CFG_wd_period : Fld := ⟨0x20808, 25, 16⟩
def SUP_CFG_grace : Fld := ⟨0x20808, 9, 0⟩
def SUP_WD_kick : Fld := ⟨0x2080C, 0, 0⟩
def SUP_DEGRADE_HI_mask_hi : Fld := ⟨0x20834, 15, 0⟩
def TM_CFG_domain_a : Fld := ⟨0x30000, 31, 24⟩
def TM_CFG_domain_b : Fld := ⟨0x30000, 23, 16⟩
def TM_CFG_tb1_en : Fld := ⟨0x30000, 15, 15⟩
def TM_CFG_ref_en : Fld := ⟨0x30000, 14, 12⟩
def TM_CFG_pps_src : Fld := ⟨0x30000, 11, 10⟩
def TM_CFG_pps_width : Fld := ⟨0x30000, 8, 0⟩
def TM_LIMITS_holdover_max : Fld := ⟨0x30004, 31, 16⟩
def TM_LIMITS_slew_max : Fld := ⟨0x30004, 15, 9⟩
def TM_LIMITS_qual_time : Fld := ⟨0x30004, 8, 0⟩
def TM_JUMP_step_min : Fld := ⟨0x30008, 31, 22⟩
def TM_JUMP_jump_limit : Fld := ⟨0x30008, 19, 0⟩
def TM_STAT_ref_cur : Fld := ⟨0x3000C, 31, 28⟩
def TM_STAT_ref_pend : Fld := ⟨0x3000C, 27, 24⟩
def TM_STAT_valid : Fld := ⟨0x3000C, 23, 21⟩
def TM_STAT_qualified : Fld := ⟨0x3000C, 20, 18⟩
def TM_STAT_tb1_set : Fld := ⟨0x3000C, 12, 12⟩
def TM_STAT_tb0_set : Fld := ⟨0x3000C, 11, 11⟩
def TM_STAT_tb3_slewing : Fld := ⟨0x3000C, 10, 10⟩
def TM_STAT_holdover : Fld := ⟨0x3000C, 9, 9⟩
def TM_STAT_pending : Fld := ⟨0x3000C, 8, 8⟩
def TM_STAT_pps_missing : Fld := ⟨0x3000C, 7, 7⟩
def TM_STAT_inc_clamped : Fld := ⟨0x3000C, 6, 6⟩
def TM_STAT_holdover_long : Fld := ⟨0x3000C, 5, 5⟩
def TM_STAT_switch_cancelled : Fld := ⟨0x3000C, 4, 4⟩
def TM_STAT_switched : Fld := ⟨0x3000C, 3, 3⟩
def TM_STAT_step_done : Fld := ⟨0x3000C, 2, 2⟩
def TM_STAT_jump_refused : Fld := ⟨0x3000C, 1, 1⟩
def TM_CTRL_accept_step : Fld := ⟨0x30050, 0, 0⟩
def TM_WAKE_SKEW_port : Fld := ⟨0x3006C, 28, 26⟩
def TM_WAKE_SKEW_miss : Fld := ⟨0x3006C, 25, 25⟩
def TM_WAKE_SKEW_skew : Fld := ⟨0x3006C, 24, 0⟩
def ENC_CFG_mode (n : Nat) : Fld := ⟨0x40000 + 0x100 * n, 31, 30⟩
def ENC_CFG_invert (n : Nat) : Fld := ⟨0x40000 + 0x100 * n, 29, 29⟩
def ENC_CFG_index_en (n : Nat) : Fld := ⟨0x40000 + 0x100 * n, 28, 28⟩
def ENC_CFG_dir_src (n : Nat) : Fld := ⟨0x40000 + 0x100 * n, 27, 27⟩
def ENC_CFG_probe_src (n : Nat) : Fld := ⟨0x40000 + 0x100 * n, 26, 21⟩
def ENC_CFG_filt (n : Nat) : Fld := ⟨0x40000 + 0x100 * n, 10, 0⟩
def ENC_TOOTH_CFG_win_lo (n : Nat) : Fld := ⟨0x40004 + 0x100 * n, 31, 28⟩
def ENC_TOOTH_CFG_win_hi (n : Nat) : Fld := ⟨0x40004 + 0x100 * n, 27, 24⟩
def ENC_TOOTH_CFG_ct (n : Nat) : Fld := ⟨0x40004 + 0x100 * n, 11, 0⟩
def ENC_SSI_CFG_bits (n : Nat) : Fld := ⟨0x40008 + 0x100 * n, 31, 27⟩
def ENC_SSI_CFG_gray (n : Nat) : Fld := ⟨0x40008 + 0x100 * n, 26, 26⟩
def ENC_SSI_CFG_ssi_period (n : Nat) : Fld := ⟨0x40008 + 0x100 * n, 25, 16⟩
def ENC_SSI_CFG_ssi_clk (n : Nat) : Fld := ⟨0x40008 + 0x100 * n, 15, 12⟩
def ENC_SSI_CFG_jump_max (n : Nat) : Fld := ⟨0x40008 + 0x100 * n, 11, 0⟩
def ENC_IDX_CFG_drift_tol (n : Nat) : Fld := ⟨0x4000C + 0x100 * n, 31, 24⟩
def ENC_IDX_CFG_cpr (n : Nat) : Fld := ⟨0x4000C + 0x100 * n, 23, 0⟩
def ENC_STAT_state (n : Nat) : Fld := ⟨0x40010 + 0x100 * n, 31, 28⟩
def ENC_STAT_reverse (n : Nat) : Fld := ⟨0x40010 + 0x100 * n, 27, 27⟩
def ENC_STAT_drift_exc (n : Nat) : Fld := ⟨0x40010 + 0x100 * n, 11, 11⟩
def ENC_STAT_probe_ovw (n : Nat) : Fld := ⟨0x40010 + 0x100 * n, 10, 10⟩
def ENC_STAT_ssi_err (n : Nat) : Fld := ⟨0x40010 + 0x100 * n, 9, 9⟩
def ENC_STAT_line_fault_z (n : Nat) : Fld := ⟨0x40010 + 0x100 * n, 8, 8⟩
def ENC_STAT_line_fault_b (n : Nat) : Fld := ⟨0x40010 + 0x100 * n, 7, 7⟩
def ENC_STAT_line_fault_a (n : Nat) : Fld := ⟨0x40010 + 0x100 * n, 6, 6⟩
def ENC_STAT_lost (n : Nat) : Fld := ⟨0x40010 + 0x100 * n, 5, 5⟩
def ENC_STAT_stopped (n : Nat) : Fld := ⟨0x40010 + 0x100 * n, 4, 4⟩
def ENC_STAT_synth (n : Nat) : Fld := ⟨0x40010 + 0x100 * n, 3, 3⟩
def ENC_STAT_noise (n : Nat) : Fld := ⟨0x40010 + 0x100 * n, 2, 2⟩
def ENC_STAT_illegal (n : Nat) : Fld := ⟨0x40010 + 0x100 * n, 1, 1⟩
def ENC_STAT_index_seen (n : Nat) : Fld := ⟨0x40010 + 0x100 * n, 0, 0⟩
def ENC_SPEED_reverse (n : Nat) : Fld := ⟨0x4001C + 0x100 * n, 31, 31⟩
def ENC_SPEED_speed (n : Nat) : Fld := ⟨0x4001C + 0x100 * n, 30, 0⟩
def ENC_DRIFT_largest (n : Nat) : Fld := ⟨0x40028 + 0x100 * n, 31, 16⟩
def ENC_DRIFT_last (n : Nat) : Fld := ⟨0x40028 + 0x100 * n, 15, 0⟩
def ENC_PRB_SEQ_seq (n : Nat) : Fld := ⟨0x4003C + 0x100 * n, 15, 0⟩
def FS_STAT_role : Fld := ⟨0x50000, 31, 30⟩
def FS_STAT_dup_entry : Fld := ⟨0x50000, 7, 7⟩
def FS_STAT_forced_close : Fld := ⟨0x50000, 6, 6⟩
def FS_STAT_estimate : Fld := ⟨0x50000, 5, 5⟩
def FS_STAT_overflow : Fld := ⟨0x50000, 4, 4⟩
def FS_STAT_fired_late : Fld := ⟨0x50000, 3, 3⟩
def FS_STAT_unmirrored : Fld := ⟨0x50000, 2, 2⟩
def FS_STAT_queue_full : Fld := ⟨0x50000, 1, 1⟩
def FS_STAT_ent_limit : Fld := ⟨0x50000, 0, 0⟩
def FS_Q_STAT_high_water (n : Nat) : Fld := ⟨0x50100 + 0x40 * n, 29, 16⟩
def FS_Q_STAT_depth (n : Nat) : Fld := ⟨0x50100 + 0x40 * n, 13, 0⟩
def FS_ROW_CFG_enc_port (n : Nat) : Fld := ⟨0x51000 + 0x200 * n, 31, 29⟩
def FS_ROW_CFG_indet_action (n : Nat) : Fld := ⟨0x51000 + 0x200 * n, 28, 28⟩
def FS_ROW_CFG_ent_max (n : Nat) : Fld := ⟨0x51000 + 0x200 * n, 11, 0⟩
def FS_ROW_STAT_dup_entry (n : Nat) : Fld := ⟨0x51004 + 0x200 * n, 1, 1⟩
def FS_ROW_STAT_ent_limit (n : Nat) : Fld := ⟨0x51004 + 0x200 * n, 0, 0⟩
def FS_MAP_A_en (n m : Nat) : Fld := ⟨0x51100 + 0x200 * n + 0x20 * m, 31, 31⟩
def FS_MAP_A_indet (n m : Nat) : Fld := ⟨0x51100 + 0x200 * n + 0x20 * m, 30, 30⟩
def FS_MAP_A_port (n m : Nat) : Fld := ⟨0x51100 + 0x200 * n + 0x20 * m, 29, 27⟩
def FS_MAP_A_shape (n m : Nat) : Fld := ⟨0x51100 + 0x200 * n + 0x20 * m, 26, 23⟩
def FS_MAP_A_valves (n m : Nat) : Fld := ⟨0x51100 + 0x200 * n + 0x20 * m, 16, 8⟩
def FS_MAP_A_first_valve (n m : Nat) : Fld := ⟨0x51100 + 0x200 * n + 0x20 * m, 7, 0⟩
def FS_MAP_COL_col0 (n m : Nat) : Fld := ⟨0x51104 + 0x200 * n + 0x20 * m, 16, 0⟩
def FS_MAP_PITCH_pitch (n m : Nat) : Fld := ⟨0x51108 + 0x200 * n + 0x20 * m, 17, 0⟩
def FS_MAP_OFFSET_offset (n m : Nat) : Fld := ⟨0x5110C + 0x200 * n + 0x20 * m, 23, 0⟩
def FS_MAP_SHAPE_open_adv (n m : Nat) : Fld := ⟨0x51110 + 0x200 * n + 0x20 * m, 31, 24⟩
def FS_MAP_SHAPE_close_ext (n m : Nat) : Fld := ⟨0x51110 + 0x200 * n + 0x20 * m, 23, 16⟩
def FS_MAP_SHAPE_min_len (n m : Nat) : Fld := ⟨0x51110 + 0x200 * n + 0x20 * m, 15, 0⟩
def FS_MAP_CLASS_class_last (n m : Nat) : Fld := ⟨0x51114 + 0x200 * n + 0x20 * m, 31, 24⟩
def FS_MAP_CLASS_class_first (n m : Nat) : Fld := ⟨0x51114 + 0x200 * n + 0x20 * m, 23, 16⟩
def FS_MAP_CLASS_spread (n m : Nat) : Fld := ⟨0x51114 + 0x200 * n + 0x20 * m, 10, 0⟩
def FS_MAP_LIMIT_max_open (n m : Nat) : Fld := ⟨0x51118 + 0x200 * n + 0x20 * m, 13, 0⟩
def PEG_CFG_used (n : Nat) : Fld := ⟨0x60000 + 0x100 * n, 31, 31⟩
def PEG_CFG_valves (n : Nat) : Fld := ⟨0x60000 + 0x100 * n, 23, 16⟩
def PEG_CFG_bank_id (n : Nat) : Fld := ⟨0x60000 + 0x100 * n, 15, 0⟩
def PEG_TIMING_cable_ns (n : Nat) : Fld := ⟨0x60004 + 0x100 * n, 7, 0⟩
def PEG_CTRL_full_state (n : Nat) : Fld := ⟨0x60008 + 0x100 * n, 1, 1⟩
def PEG_CTRL_port_en (n : Nat) : Fld := ⟨0x60008 + 0x100 * n, 0, 0⟩
def PEG_STAT_state (n : Nat) : Fld := ⟨0x6000C + 0x100 * n, 31, 28⟩
def PEG_STAT_active (n : Nat) : Fld := ⟨0x6000C + 0x100 * n, 27, 26⟩
def PEG_STAT_takeover_seen (n : Nat) : Fld := ⟨0x6000C + 0x100 * n, 12, 12⟩
def PEG_STAT_bank_reset (n : Nat) : Fld := ⟨0x6000C + 0x100 * n, 11, 11⟩
def PEG_STAT_bank_gap (n : Nat) : Fld := ⟨0x6000C + 0x100 * n, 10, 10⟩
def PEG_STAT_bank_tag_fail (n : Nat) : Fld := ⟨0x6000C + 0x100 * n, 9, 9⟩
def PEG_STAT_supply_fault (n : Nat) : Fld := ⟨0x6000C + 0x100 * n, 8, 8⟩
def PEG_STAT_overtemp (n : Nat) : Fld := ⟨0x6000C + 0x100 * n, 7, 7⟩
def PEG_STAT_drive_fault (n : Nat) : Fld := ⟨0x6000C + 0x100 * n, 6, 6⟩
def PEG_STAT_timeout_close (n : Nat) : Fld := ⟨0x6000C + 0x100 * n, 5, 5⟩
def PEG_STAT_id_mismatch (n : Nat) : Fld := ⟨0x6000C + 0x100 * n, 4, 4⟩
def PEG_STAT_st_tag_fail (n : Nat) : Fld := ⟨0x6000C + 0x100 * n, 3, 3⟩
def PEG_STAT_st_crc (n : Nat) : Fld := ⟨0x6000C + 0x100 * n, 2, 2⟩
def PEG_STAT_st_missing (n : Nat) : Fld := ⟨0x6000C + 0x100 * n, 1, 1⟩
def PEG_STAT_silent (n : Nat) : Fld := ⟨0x6000C + 0x100 * n, 0, 0⟩
def FIO_OUT_run_req : Fld := ⟨0x7000C, 17, 17⟩
def FIO_OUT_out : Fld := ⟨0x7000C, 15, 0⟩
def FIO_OUT_RB_run_permit : Fld := ⟨0x70010, 17, 17⟩
def FIO_OUT_RB_out_rb : Fld := ⟨0x70010, 15, 0⟩
def FIO_GRP_grp_sticky : Fld := ⟨0x70018, 22, 16⟩
def FIO_GRP_grp_live : Fld := ⟨0x70018, 6, 0⟩
def FIO_Q_STAT_pair_ovf : Fld := ⟨0x70024, 18, 18⟩
def FIO_Q_STAT_evt_ovf : Fld := ⟨0x70024, 17, 17⟩
def FIO_Q_STAT_pair_level : Fld := ⟨0x70024, 16, 10⟩
def FIO_Q_STAT_evt_level : Fld := ⟨0x70024, 9, 0⟩
def FIO_EVT_HDR_valid : Fld := ⟨0x70028, 31, 31⟩
def FIO_EVT_HDR_rising : Fld := ⟨0x70028, 30, 30⟩
def FIO_EVT_HDR_channel : Fld := ⟨0x70028, 4, 0⟩
def FIO_PAIR_CFG_en (n : Nat) : Fld := ⟨0x70040 + 0x4 * n, 31, 31⟩
def FIO_PAIR_CFG_stop_rise (n : Nat) : Fld := ⟨0x70040 + 0x4 * n, 12, 12⟩
def FIO_PAIR_CFG_stop_ch (n : Nat) : Fld := ⟨0x70040 + 0x4 * n, 11, 7⟩
def FIO_PAIR_CFG_start_rise (n : Nat) : Fld := ⟨0x70040 + 0x4 * n, 5, 5⟩
def FIO_PAIR_CFG_start_ch (n : Nat) : Fld := ⟨0x70040 + 0x4 * n, 4, 0⟩
def FIO_PAIR_HDR_valid : Fld := ⟨0x70060, 31, 31⟩
def FIO_PAIR_HDR_unit : Fld := ⟨0x70060, 30, 28⟩
def FIO_PAIR_HDR_LONG : Fld := ⟨0x70060, 2, 2⟩
def FIO_PAIR_HDR_ORDER : Fld := ⟨0x70060, 1, 1⟩
def FIO_PAIR_HDR_SAME_TICK : Fld := ⟨0x70060, 0, 0⟩
def CXP_LINK_CFG_rate (n : Nat) : Fld := ⟨0x80000 + 0x400 * n, 27, 24⟩
def CXP_LINK_CFG_gang (n : Nat) : Fld := ⟨0x80000 + 0x400 * n, 23, 22⟩
def CXP_LINK_CFG_role (n : Nat) : Fld := ⟨0x80000 + 0x400 * n, 21, 20⟩
def CXP_LINK_CFG_master (n : Nat) : Fld := ⟨0x80000 + 0x400 * n, 19, 14⟩
def CXP_LINK_CFG_poc (n : Nat) : Fld := ⟨0x80000 + 0x400 * n, 7, 7⟩
def CXP_LINK_CTRL_poc_clear (n : Nat) : Fld := ⟨0x80004 + 0x400 * n, 2, 2⟩
def CXP_LINK_CTRL_reconnect (n : Nat) : Fld := ⟨0x80004 + 0x400 * n, 1, 1⟩
def CXP_LINK_CTRL_link_hold (n : Nat) : Fld := ⟨0x80004 + 0x400 * n, 0, 0⟩
def CXP_LINK_STAT_state (n : Nat) : Fld := ⟨0x80008 + 0x400 * n, 31, 28⟩
def CXP_LINK_STAT_link_lost (n : Nat) : Fld := ⟨0x80008 + 0x400 * n, 15, 15⟩
def CXP_LINK_STAT_poc_fault (n : Nat) : Fld := ⟨0x80008 + 0x400 * n, 14, 14⟩
def CXP_LINK_STAT_ident_mismatch (n : Nat) : Fld := ⟨0x80008 + 0x400 * n, 13, 13⟩
def CXP_LINK_STAT_hdr_reject (n : Nat) : Fld := ⟨0x80008 + 0x400 * n, 12, 12⟩
def CXP_LINK_STAT_size_drop (n : Nat) : Fld := ⟨0x80008 + 0x400 * n, 11, 11⟩
def CXP_LINK_STAT_crc_err (n : Nat) : Fld := ⟨0x80008 + 0x400 * n, 10, 10⟩
def CXP_LINK_STAT_late_drop (n : Nat) : Fld := ⟨0x80008 + 0x400 * n, 9, 9⟩
def CXP_LINK_STAT_unsolicited (n : Nat) : Fld := ⟨0x80008 + 0x400 * n, 8, 8⟩
def CXP_LINK_STAT_dup_tag (n : Nat) : Fld := ⟨0x80008 + 0x400 * n, 7, 7⟩
def CXP_LINK_STAT_trig_suppressed (n : Nat) : Fld := ⟨0x80008 + 0x400 * n, 6, 6⟩
def CXP_LINK_STAT_event_discard (n : Nat) : Fld := ⟨0x80008 + 0x400 * n, 5, 5⟩
def CXP_LINK_STAT_ctrl_timeout (n : Nat) : Fld := ⟨0x80008 + 0x400 * n, 4, 4⟩
def CXP_LINK_STAT_void_fill (n : Nat) : Fld := ⟨0x80008 + 0x400 * n, 3, 3⟩
def CXP_LINK_STAT_deskew_overflow (n : Nat) : Fld := ⟨0x80008 + 0x400 * n, 2, 2⟩
def CXP_LINK_STAT_order_lost (n : Nat) : Fld := ⟨0x80008 + 0x400 * n, 1, 1⟩
def CXP_TRIG_CFG_enc_port (n : Nat) : Fld := ⟨0x8000C + 0x400 * n, 28, 26⟩
def CXP_TRIG_CFG_divider (n : Nat) : Fld := ⟨0x8000C + 0x400 * n, 25, 16⟩
def CXP_TRIG_CFG_min_interval (n : Nat) : Fld := ⟨0x8000C + 0x400 * n, 15, 0⟩
def CXP_TRIG_PHASE_phase (n : Nat) : Fld := ⟨0x80010 + 0x400 * n, 9, 0⟩
def CXP_TIMING_CFG_hb_ms (n : Nat) : Fld := ⟨0x80014 + 0x400 * n, 31, 24⟩
def CXP_TIMING_CFG_disc_s (n : Nat) : Fld := ⟨0x80014 + 0x400 * n, 23, 17⟩
def CXP_TIMING_CFG_line_timeout (n : Nat) : Fld := ⟨0x80014 + 0x400 * n, 14, 0⟩
def CXP_CAM_INFO_valid (n : Nat) : Fld := ⟨0x80020 + 0x400 * n, 31, 31⟩
def CXP_CAM_INFO_planes (n : Nat) : Fld := ⟨0x80020 + 0x400 * n, 29, 28⟩
def CXP_CAM_INFO_bits (n : Nat) : Fld := ⟨0x80020 + 0x400 * n, 27, 24⟩
def CXP_CAM_INFO_width (n : Nat) : Fld := ⟨0x80020 + 0x400 * n, 14, 0⟩
def LP_CFG_row (n : Nat) : Fld := ⟨0xA0000 + 0x800 * n, 29, 26⟩
def LP_CFG_gang (n : Nat) : Fld := ⟨0xA0000 + 0x800 * n, 25, 24⟩
def LP_CFG_role (n : Nat) : Fld := ⟨0xA0000 + 0x800 * n, 23, 22⟩
def LP_CFG_planes (n : Nat) : Fld := ⟨0xA0000 + 0x800 * n, 21, 20⟩
def LP_CFG_columns (n : Nat) : Fld := ⟨0xA0000 + 0x800 * n, 14, 0⟩
def LP_CTRL_src_sel (n : Nat) : Fld := ⟨0xA0004 + 0x800 * n, 8, 7⟩
def LP_CTRL_replay_ch (n : Nat) : Fld := ⟨0xA0004 + 0x800 * n, 6, 4⟩
def LP_CTRL_cal_bank (n : Nat) : Fld := ⟨0xA0004 + 0x800 * n, 3, 3⟩
def LP_CTRL_sync_reset (n : Nat) : Fld := ⟨0xA0004 + 0x800 * n, 0, 0⟩
def LP_STAT_state (n : Nat) : Fld := ⟨0xA0008 + 0x800 * n, 31, 28⟩
def LP_STAT_cal_b_full (n : Nat) : Fld := ⟨0xA0008 + 0x800 * n, 9, 9⟩
def LP_STAT_cal_a_full (n : Nat) : Fld := ⟨0xA0008 + 0x800 * n, 8, 8⟩
def LP_STAT_route_refused (n : Nat) : Fld := ⟨0xA0008 + 0x800 * n, 7, 7⟩
def LP_STAT_cal_refused (n : Nat) : Fld := ⟨0xA0008 + 0x800 * n, 6, 6⟩
def LP_STAT_route_discard (n : Nat) : Fld := ⟨0xA0008 + 0x800 * n, 5, 5⟩
def LP_STAT_overflow (n : Nat) : Fld := ⟨0xA0008 + 0x800 * n, 4, 4⟩
def LP_STAT_incomplete (n : Nat) : Fld := ⟨0xA0008 + 0x800 * n, 3, 3⟩
def LP_STAT_clipped (n : Nat) : Fld := ⟨0xA0008 + 0x800 * n, 2, 2⟩
def LP_STAT_settling (n : Nat) : Fld := ⟨0xA0008 + 0x800 * n, 1, 1⟩
def LP_STAT_void_seen (n : Nat) : Fld := ⟨0xA0008 + 0x800 * n, 0, 0⟩
def LP_STRIP_CFG_lines (n : Nat) : Fld := ⟨0xA000C + 0x800 * n, 28, 16⟩
def LP_STRIP_CFG_lvl_u16 (n : Nat) : Fld := ⟨0xA000C + 0x800 * n, 11, 8⟩
def LP_STRIP_CFG_overlap (n : Nat) : Fld := ⟨0xA000C + 0x800 * n, 6, 0⟩
def LP_RPL_CTRL_stop (n : Nat) : Fld := ⟨0xB8000 + 0x100 * n, 0, 0⟩
def LP_RPL_STAT_state (n : Nat) : Fld := ⟨0xB8004 + 0x100 * n, 31, 28⟩
def LP_RPL_STAT_no_snapshot (n : Nat) : Fld := ⟨0xB8004 + 0x100 * n, 2, 2⟩
def LP_RPL_STAT_lost (n : Nat) : Fld := ⟨0xB8004 + 0x100 * n, 1, 1⟩
def LP_RPL_STAT_done (n : Nat) : Fld := ⟨0xB8004 + 0x100 * n, 0, 0⟩
def LP_RPL_FIRST_HI_first_hi (n : Nat) : Fld := ⟨0xB800C + 0x100 * n, 15, 0⟩
def LP_RPL_LAST_HI_last_hi (n : Nat) : Fld := ⟨0xB8014 + 0x100 * n, 15, 0⟩
def LP_RPL_RATE_rate (n : Nat) : Fld := ⟨0xB8018 + 0x100 * n, 17, 0⟩
def STUD_CFG_cell_stride : Fld := ⟨0xC0000, 8, 7⟩
def STUD_CFG_job : Fld := ⟨0xC0000, 6, 0⟩
def STUD_STAT_stud_err : Fld := ⟨0xC0004, 3, 0⟩
def SCR_ROW_CFG_pilot_en (n : Nat) : Fld := ⟨0xC0100 + 0x40 * n, 31, 31⟩
def SCR_ROW_CFG_late_action (n : Nat) : Fld := ⟨0xC0100 + 0x40 * n, 30, 30⟩
def SCR_ROW_CFG_fallback (n : Nat) : Fld := ⟨0xC0100 + 0x40 * n, 29, 28⟩
def SCR_ROW_CFG_latest_confirm (n : Nat) : Fld := ⟨0xC0100 + 0x40 * n, 27, 16⟩
def SCR_ROW_CFG_pilot_lead (n : Nat) : Fld := ⟨0xC0100 + 0x40 * n, 12, 0⟩
def SCR_ROW_THR_t_obj (n : Nat) : Fld := ⟨0xC0104 + 0x40 * n, 31, 24⟩
def SCR_ROW_THR_t_ej (n : Nat) : Fld := ⟨0xC0104 + 0x40 * n, 23, 16⟩
def SCR_ROW_THR_roi_max (n : Nat) : Fld := ⟨0xC0104 + 0x40 * n, 10, 0⟩
def SCR_ROW_CROP_level (n : Nat) : Fld := ⟨0xC0108 + 0x40 * n, 31, 30⟩
def SCR_ROW_CROP_crop_w (n : Nat) : Fld := ⟨0xC0108 + 0x40 * n, 27, 16⟩
def SCR_ROW_CROP_crop_h (n : Nat) : Fld := ⟨0xC0108 + 0x40 * n, 12, 0⟩
def SCR_ROW_STAT_open_forced (n : Nat) : Fld := ⟨0xC010C + 0x40 * n, 6, 6⟩
def SCR_ROW_STAT_uncovered (n : Nat) : Fld := ⟨0xC010C + 0x40 * n, 5, 5⟩
def SCR_ROW_STAT_comp_overflow (n : Nat) : Fld := ⟨0xC010C + 0x40 * n, 4, 4⟩
def SCR_ROW_STAT_screen_missing (n : Nat) : Fld := ⟨0xC010C + 0x40 * n, 3, 3⟩
def SCR_ROW_STAT_late_confirm (n : Nat) : Fld := ⟨0xC010C + 0x40 * n, 2, 2⟩
def SCR_ROW_STAT_late_action (n : Nat) : Fld := ⟨0xC010C + 0x40 * n, 1, 1⟩
def SCR_ROW_STAT_withdrawn (n : Nat) : Fld := ⟨0xC010C + 0x40 * n, 0, 0⟩
def CM_CFG_rate : Fld := ⟨0xD0000, 31, 16⟩
def CM_CFG_gib : Fld := ⟨0xD0000, 15, 0⟩
def CM_KEY_key_epoch : Fld := ⟨0xD0008, 15, 0⟩
def CM_STAT_state : Fld := ⟨0xD0004, 31, 28⟩
def CM_STAT_key_changed : Fld := ⟨0xD0004, 3, 3⟩
def CM_STAT_pipe_wait : Fld := ⟨0xD0004, 2, 2⟩
def CM_STAT_ue : Fld := ⟨0xD0004, 1, 1⟩
def CM_STAT_ce : Fld := ⟨0xD0004, 0, 0⟩
def CM_CTRL_zeroise : Fld := ⟨0xD000C, 0, 0⟩
def CM_ERR_HI_valid : Fld := ⟨0xD0014, 31, 31⟩
def CM_ERR_HI_ue : Fld := ⟨0xD0014, 30, 30⟩
def CM_ERR_HI_addr_hi : Fld := ⟨0xD0014, 3, 0⟩
def TN_CFG_req_timeout : Fld := ⟨0xE0000, 27, 14⟩
def TN_CFG_retry_limit : Fld := ⟨0xE0000, 3, 0⟩
def TN_STAT_state : Fld := ⟨0xE0004, 31, 28⟩
def TN_STAT_spares_s2r : Fld := ⟨0xE0004, 27, 26⟩
def TN_STAT_spares_r2s : Fld := ⟨0xE0004, 25, 24⟩
def TN_STAT_protocol_err : Fld := ⟨0xE0004, 6, 6⟩
def TN_STAT_late_rsp : Fld := ⟨0xE0004, 5, 5⟩
def TN_STAT_req_timeout : Fld := ⟨0xE0004, 4, 4⟩
def TN_STAT_cancelled : Fld := ⟨0xE0004, 3, 3⟩
def TN_STAT_stale_drop : Fld := ⟨0xE0004, 2, 2⟩
def TN_STAT_retrained : Fld := ⟨0xE0004, 1, 1⟩
def TN_STAT_crc_err : Fld := ⟨0xE0004, 0, 0⟩
def TN_CTRL_retrain : Fld := ⟨0xE0008, 0, 0⟩
def PUR_CFG_enabled (n : Nat) : Fld := ⟨0xF0000 + 0x2000 * n, 31, 31⟩
def PUR_CFG_role (n : Nat) : Fld := ⟨0xF0000 + 0x2000 * n, 30, 29⟩
def PUR_CFG_lpi_en (n : Nat) : Fld := ⟨0xF0000 + 0x2000 * n, 28, 28⟩
def PUR_CFG_lpi_period (n : Nat) : Fld := ⟨0xF0000 + 0x2000 * n, 27, 22⟩
def PUR_CFG_peer_port (n : Nat) : Fld := ⟨0xF0000 + 0x2000 * n, 21, 19⟩
def PUR_CFG_peer_id (n : Nat) : Fld := ⟨0xF0000 + 0x2000 * n, 18, 7⟩
def PUR_CTRL_lpi_reenable (n : Nat) : Fld := ⟨0xF0004 + 0x2000 * n, 2, 2⟩
def PUR_CTRL_retrain (n : Nat) : Fld := ⟨0xF0004 + 0x2000 * n, 1, 1⟩
def PUR_CTRL_hold (n : Nat) : Fld := ⟨0xF0004 + 0x2000 * n, 0, 0⟩
def PUR_STAT_state (n : Nat) : Fld := ⟨0xF0008 + 0x2000 * n, 31, 28⟩
def PUR_STAT_lpi_disabled (n : Nat) : Fld := ⟨0xF0008 + 0x2000 * n, 13, 13⟩
def PUR_STAT_guard_miss (n : Nat) : Fld := ⟨0xF0008 + 0x2000 * n, 12, 12⟩
def PUR_STAT_peer_mismatch (n : Nat) : Fld := ⟨0xF0008 + 0x2000 * n, 11, 11⟩
def PUR_STAT_auth_fail (n : Nat) : Fld := ⟨0xF0008 + 0x2000 * n, 10, 10⟩
def PUR_STAT_tag_fail (n : Nat) : Fld := ⟨0xF0008 + 0x2000 * n, 9, 9⟩
def PUR_STAT_src_reject (n : Nat) : Fld := ⟨0xF0008 + 0x2000 * n, 8, 8⟩
def PUR_STAT_window_reject (n : Nat) : Fld := ⟨0xF0008 + 0x2000 * n, 7, 7⟩
def PUR_STAT_protocol_err (n : Nat) : Fld := ⟨0xF0008 + 0x2000 * n, 6, 6⟩
def PUR_STAT_stale_drop (n : Nat) : Fld := ⟨0xF0008 + 0x2000 * n, 5, 5⟩
def PUR_STAT_path_fail (n : Nat) : Fld := ⟨0xF0008 + 0x2000 * n, 4, 4⟩
def PUR_STAT_cw_lost (n : Nat) : Fld := ⟨0xF0008 + 0x2000 * n, 3, 3⟩
def PUR_STAT_lol (n : Nat) : Fld := ⟨0xF0008 + 0x2000 * n, 2, 2⟩
def PUR_STAT_los (n : Nat) : Fld := ⟨0xF0008 + 0x2000 * n, 1, 1⟩
def PUR_STAT_fec_uncorr (n : Nat) : Fld := ⟨0xF0008 + 0x2000 * n, 0, 0⟩
def PUR_LANE_skew_ns (n : Nat) : Fld := ⟨0xF000C + 0x2000 * n, 31, 24⟩
def PUR_LANE_inverted (n : Nat) : Fld := ⟨0xF000C + 0x2000 * n, 11, 8⟩
def PUR_LANE_map (n : Nat) : Fld := ⟨0xF000C + 0x2000 * n, 7, 0⟩
def PUR_FEC_CFG_fec_limit (n : Nat) : Fld := ⟨0xF0010 + 0x2000 * n, 15, 0⟩
def PUR_DEV_member : Fld := ⟨0xFC000, 31, 31⟩
def PUR_DEV_device_id : Fld := ⟨0xFC000, 11, 0⟩
def PUR_ROUTE_CTRL_swap : Fld := ⟨0xFC004, 0, 0⟩
def PUR_ROUTE_STAT_table_busy : Fld := ⟨0xFC010, 3, 3⟩
def PUR_ROUTE_STAT_swap_refused : Fld := ⟨0xFC010, 2, 2⟩
def PUR_ROUTE_STAT_pending : Fld := ⟨0xFC010, 1, 1⟩
def PUR_ROUTE_STAT_epoch : Fld := ⟨0xFC010, 0, 0⟩
def PUR_MIRROR_CFG_mrole : Fld := ⟨0xFC014, 31, 30⟩
def PUR_MIRROR_CFG_mport : Fld := ⟨0xFC014, 29, 27⟩
def PUR_MIRROR_CFG_count_tol : Fld := ⟨0xFC014, 19, 12⟩
def PUR_MIRROR_CFG_mirror_rto : Fld := ⟨0xFC014, 11, 0⟩
def PUR_MIRROR_STAT_mirror_role : Fld := ⟨0xFC018, 17, 17⟩
def PUR_MIRROR_STAT_count_diff : Fld := ⟨0xFC018, 16, 16⟩
def PUR_MIRROR_STAT_max_corr : Fld := ⟨0xFC018, 15, 0⟩
def ETH_CFG_en (n : Nat) : Fld := ⟨0x110000 + 0x400 * n, 31, 31⟩
def ETH_CFG_speed (n : Nat) : Fld := ⟨0x110000 + 0x400 * n, 30, 30⟩
def ETH_CFG_ptp_tr (n : Nat) : Fld := ⟨0x110000 + 0x400 * n, 29, 28⟩
def ETH_CFG_pd_two_step (n : Nat) : Fld := ⟨0x110000 + 0x400 * n, 27, 27⟩
def ETH_STAT_state (n : Nat) : Fld := ⟨0x110004 + 0x400 * n, 31, 28⟩
def ETH_STAT_ts_ovf (n : Nat) : Fld := ⟨0x110004 + 0x400 * n, 2, 2⟩
def ETH_STAT_fcs_err (n : Nat) : Fld := ⟨0x110004 + 0x400 * n, 1, 1⟩
def ETH_STAT_link_lost (n : Nat) : Fld := ⟨0x110004 + 0x400 * n, 0, 0⟩
def ETH_MAC_HI_mac (n : Nat) : Fld := ⟨0x11000C + 0x400 * n, 15, 0⟩
def ETH_TS_HDR_valid (n : Nat) : Fld := ⟨0x110020 + 0x400 * n, 31, 31⟩
def ETH_TS_HDR_tx (n : Nat) : Fld := ⟨0x110020 + 0x400 * n, 30, 30⟩
def ETH_TS_HDR_dom_b (n : Nat) : Fld := ⟨0x110020 + 0x400 * n, 29, 29⟩
def ETH_TS_HDR_msg_type (n : Nat) : Fld := ⟨0x110020 + 0x400 * n, 23, 20⟩
def ETH_TS_HDR_seq_id (n : Nat) : Fld := ⟨0x110020 + 0x400 * n, 15, 0⟩
def HK_TEMP_ridge_max : Fld := ⟨0x120000, 31, 24⟩
def HK_TEMP_sill_max : Fld := ⟨0x120000, 23, 16⟩
def HK_THR_t_warn : Fld := ⟨0x120004, 31, 24⟩
def HK_THR_t_high : Fld := ⟨0x120004, 23, 16⟩
def HK_STAT_pwr_high : Fld := ⟨0x120008, 4, 4⟩
def HK_STAT_bus_stuck1 : Fld := ⟨0x120008, 3, 3⟩
def HK_STAT_bus_stuck0 : Fld := ⟨0x120008, 2, 2⟩
def HK_STAT_fan_fault : Fld := ⟨0x120008, 1, 1⟩
def HK_STAT_sensor_fail : Fld := ⟨0x120008, 0, 0⟩
def HK_SENS_BAD_ridge : Fld := ⟨0x12000C, 31, 8⟩
def HK_SENS_BAD_sill : Fld := ⟨0x12000C, 7, 0⟩
def HK_VIN_mv : Fld := ⟨0x120010, 15, 0⟩
def HK_IIN_ma : Fld := ⟨0x120014, 15, 0⟩
def HK_PIN_w : Fld := ⟨0x120018, 15, 0⟩
def HK_FAN_state (n : Nat) : Fld := ⟨0x120030 + 0x4 * n, 31, 28⟩
def HK_FAN_restarts (n : Nat) : Fld := ⟨0x120030 + 0x4 * n, 27, 26⟩
def HK_FAN_fan_retry (n : Nat) : Fld := ⟨0x120030 + 0x4 * n, 25, 25⟩
def HK_FAN_duty (n : Nat) : Fld := ⟨0x120030 + 0x4 * n, 24, 16⟩
def HK_FAN_rpm (n : Nat) : Fld := ⟨0x120030 + 0x4 * n, 15, 0⟩
def HK_I2C_state (n : Nat) : Fld := ⟨0x120040 + 0x4 * n, 31, 28⟩
def HK_I2C_disabled (n : Nat) : Fld := ⟨0x120040 + 0x4 * n, 1, 1⟩
def HK_I2C_speed (n : Nat) : Fld := ⟨0x120040 + 0x4 * n, 0, 0⟩
def HK_PMB_dev_cmd (n : Nat) : Fld := ⟨0x120080 + 0x4 * n, 31, 16⟩
def HK_PMB_value (n : Nat) : Fld := ⟨0x120080 + 0x4 * n, 15, 0⟩
def SEC_STAT_lifecycle : Fld := ⟨0x130000, 31, 28⟩
def SEC_STAT_owner_slot : Fld := ⟨0x130000, 27, 26⟩
def SEC_STAT_debug_unlocked : Fld := ⟨0x130000, 25, 25⟩
def SEC_STAT_log_auth_fail : Fld := ⟨0x130000, 5, 5⟩
def SEC_STAT_cmd_reject : Fld := ⟨0x130000, 4, 4⟩
def SEC_STAT_rollback_reject : Fld := ⟨0x130000, 3, 3⟩
def SEC_STAT_sig_fail : Fld := ⟨0x130000, 2, 2⟩
def SEC_STAT_tamper_live : Fld := ⟨0x130000, 1, 1⟩
def SEC_STAT_tamper_seen : Fld := ⟨0x130000, 0, 0⟩
def SEC_LOAD_STAT_code : Fld := ⟨0x130004, 31, 24⟩
def SEC_LOAD_STAT_segment : Fld := ⟨0x130004, 23, 16⟩
def SEC_LOAD_STAT_keys_ok : Fld := ⟨0x130004, 2, 2⟩
def SEC_LOAD_STAT_mldsa_ok : Fld := ⟨0x130004, 1, 1⟩
def SEC_LOAD_STAT_ecdsa_ok : Fld := ⟨0x130004, 0, 0⟩
def SEC_ROLLBACK_version : Fld := ⟨0x130008, 15, 8⟩
def SEC_ROLLBACK_counter : Fld := ⟨0x130008, 7, 0⟩
def SEC_TAMPER_tamper_resp : Fld := ⟨0x13000C, 1, 0⟩
def MB_STAT_fw_state : Fld := ⟨0x140000, 31, 28⟩
def MB_STAT_subscriptions : Fld := ⟨0x140000, 15, 8⟩
def MB_STAT_sessions : Fld := ⟨0x140000, 7, 0⟩
def RC_BAY_CFG_cycle_len : Fld := ⟨0x1000000, 21, 16⟩
def RC_BAY_CFG_depth : Fld := ⟨0x1000000, 12, 8⟩
def RC_BAY_CFG_period : Fld := ⟨0x1000000, 2, 0⟩
def RC_BAY_RESERVE_retry_us : Fld := ⟨0x1000004, 7, 0⟩
def RC_BAY_STAT_margin_reset : Fld := ⟨0x1000010, 5, 5⟩
def RC_BAY_STAT_sync_mismatch : Fld := ⟨0x1000010, 4, 4⟩
def RC_BAY_STAT_stale_drop : Fld := ⟨0x1000010, 3, 3⟩
def RC_BAY_STAT_bg_rollback : Fld := ⟨0x1000010, 2, 2⟩
def RC_BAY_STAT_oversubscribed : Fld := ⟨0x1000010, 1, 1⟩
def RC_BAY_STAT_overrun_any : Fld := ⟨0x1000010, 0, 0⟩
def RC_SLACK_MIN_min_margin : Fld := ⟨0x1000014, 21, 0⟩
def RC_JOB_CTRL_cancel_firings (n : Nat) : Fld := ⟨0x1000100 + 0x4 * n, 2, 2⟩
def RC_JOB_CTRL_abort (n : Nat) : Fld := ⟨0x1000100 + 0x4 * n, 1, 1⟩
def RC_JOB_CTRL_enable (n : Nat) : Fld := ⟨0x1000100 + 0x4 * n, 0, 0⟩
def RC_JOB_STAT_class (n : Nat) : Fld := ⟨0x1000300 + 0x4 * n, 31, 30⟩
def RC_JOB_STAT_running (n : Nat) : Fld := ⟨0x1000300 + 0x4 * n, 29, 29⟩
def RC_JOB_STAT_pending (n : Nat) : Fld := ⟨0x1000300 + 0x4 * n, 28, 28⟩
def RC_JOB_STAT_overrun (n : Nat) : Fld := ⟨0x1000300 + 0x4 * n, 27, 27⟩
def RC_JOB_STAT_dep_refused (n : Nat) : Fld := ⟨0x1000300 + 0x4 * n, 26, 26⟩
def RC_JOB_STAT_reuse (n : Nat) : Fld := ⟨0x1000300 + 0x4 * n, 15, 0⟩
def ADAPT_CFG_kind (n : Nat) : Fld := ⟨0x1000A00 + 0x40 * n, 31, 30⟩
def ADAPT_CFG_prompted (n : Nat) : Fld := ⟨0x1000A00 + 0x40 * n, 29, 29⟩
def ADAPT_CFG_opt (n : Nat) : Fld := ⟨0x1000A00 + 0x40 * n, 28, 28⟩
def ADAPT_CFG_val_16 (n : Nat) : Fld := ⟨0x1000A00 + 0x40 * n, 27, 24⟩
def ADAPT_CFG_d_out (n : Nat) : Fld := ⟨0x1000A00 + 0x40 * n, 23, 16⟩
def ADAPT_CFG_batch (n : Nat) : Fld := ⟨0x1000A00 + 0x40 * n, 10, 0⟩
def ADAPT_STAT_state (n : Nat) : Fld := ⟨0x1000A04 + 0x40 * n, 31, 28⟩
def ADAPT_STAT_epoch (n : Nat) : Fld := ⟨0x1000A04 + 0x40 * n, 27, 18⟩
def ADAPT_STAT_stale_approval (n : Nat) : Fld := ⟨0x1000A04 + 0x40 * n, 3, 3⟩
def ADAPT_STAT_lab_full (n : Nat) : Fld := ⟨0x1000A04 + 0x40 * n, 2, 2⟩
def ADAPT_STAT_committed (n : Nat) : Fld := ⟨0x1000A04 + 0x40 * n, 1, 1⟩
def ADAPT_STAT_masked (n : Nat) : Fld := ⟨0x1000A04 + 0x40 * n, 0, 0⟩
def ADAPT_CTRL_stop (n : Nat) : Fld := ⟨0x1000A08 + 0x40 * n, 0, 0⟩
def ADAPT_STORE_labelled (n : Nat) : Fld := ⟨0x1000A0C + 0x40 * n, 18, 0⟩
def ADAPT_VAL_correct (n : Nat) : Fld := ⟨0x1000A10 + 0x40 * n, 31, 16⟩
def ADAPT_VAL_total (n : Nat) : Fld := ⟨0x1000A10 + 0x40 * n, 15, 0⟩
def TXT_STAT_state : Fld := ⟨0x1000C00, 31, 28⟩
def TXT_STAT_queued : Fld := ⟨0x1000C00, 27, 23⟩
def TXT_STAT_last_stop : Fld := ⟨0x1000C00, 22, 20⟩
def TXT_STAT_job : Fld := ⟨0x1000C00, 6, 0⟩
def HBM_CFG_stacks : Fld := ⟨0x1020000, 25, 24⟩
def HBM_CFG_pcs : Fld := ⟨0x1020000, 23, 16⟩
def HBM_CFG_gib : Fld := ⟨0x1020000, 15, 0⟩
def HBM_STAT_trained1 : Fld := ⟨0x1020004, 12, 12⟩
def HBM_STAT_trained0 : Fld := ⟨0x1020004, 4, 4⟩
def HBM_STAT_ref_hi1 : Fld := ⟨0x1020004, 11, 11⟩
def HBM_STAT_ref_hi0 : Fld := ⟨0x1020004, 3, 3⟩
def HBM_STAT_retry1 : Fld := ⟨0x1020004, 10, 10⟩
def HBM_STAT_retry0 : Fld := ⟨0x1020004, 2, 2⟩
def HBM_STAT_ue1 : Fld := ⟨0x1020004, 9, 9⟩
def HBM_STAT_ue0 : Fld := ⟨0x1020004, 1, 1⟩
def HBM_STAT_ce1 : Fld := ⟨0x1020004, 8, 8⟩
def HBM_STAT_ce0 : Fld := ⟨0x1020004, 0, 0⟩
def HBM_TEMP_temp1 : Fld := ⟨0x1020008, 15, 8⟩
def HBM_TEMP_temp0 : Fld := ⟨0x1020008, 7, 0⟩
def HBM_ERR_HI_ue : Fld := ⟨0x1020014, 31, 31⟩
def HBM_ERR_HI_addr_hi : Fld := ⟨0x1020014, 4, 0⟩
def BENT_STAT_state (n : Nat) : Fld := ⟨0x1100000 + 0x10000 * n, 31, 28⟩
def BENT_STAT_stopped (n : Nat) : Fld := ⟨0x1100000 + 0x10000 * n, 6, 6⟩
def BENT_STAT_vec_err (n : Nat) : Fld := ⟨0x1100000 + 0x10000 * n, 5, 5⟩
def BENT_STAT_array_err (n : Nat) : Fld := ⟨0x1100000 + 0x10000 * n, 4, 4⟩
def BENT_STAT_hbm_stall (n : Nat) : Fld := ⟨0x1100000 + 0x10000 * n, 3, 3⟩
def BENT_STAT_nan_out (n : Nat) : Fld := ⟨0x1100000 + 0x10000 * n, 2, 2⟩
def BENT_STAT_inf_out (n : Nat) : Fld := ⟨0x1100000 + 0x10000 * n, 1, 1⟩
def BENT_STAT_sat_out (n : Nat) : Fld := ⟨0x1100000 + 0x10000 * n, 0, 0⟩
def BENT_CUR_active (n : Nat) : Fld := ⟨0x1100004 + 0x10000 * n, 31, 31⟩
def BENT_CUR_job (n : Nat) : Fld := ⟨0x1100004 + 0x10000 * n, 30, 24⟩
def BENT_CUR_entry (n : Nat) : Fld := ⟨0x1100004 + 0x10000 * n, 13, 0⟩
def BENT_BUSY_cycles (n : Nat) : Fld := ⟨0x1100008 + 0x10000 * n, 21, 0⟩
def BENT_HBM_WAIT_cycles (n : Nat) : Fld := ⟨0x110000C + 0x10000 * n, 21, 0⟩
def BENT_SRAM_STAT_scrub_slow (n : Nat) : Fld := ⟨0x1100100 + 0x10000 * n, 3, 3⟩
def BENT_SRAM_STAT_collision (n : Nat) : Fld := ⟨0x1100100 + 0x10000 * n, 2, 2⟩
def BENT_SRAM_STAT_ue (n : Nat) : Fld := ⟨0x1100100 + 0x10000 * n, 1, 1⟩
def BENT_SRAM_STAT_ce (n : Nat) : Fld := ⟨0x1100100 + 0x10000 * n, 0, 0⟩
def BENT_SRAM_CFG_scrub_en (n : Nat) : Fld := ⟨0x1100104 + 0x10000 * n, 31, 31⟩
def BENT_SRAM_CFG_scrub_limit (n : Nat) : Fld := ⟨0x1100104 + 0x10000 * n, 15, 0⟩
def BENT_SRAM_ERR_ue (n : Nat) : Fld := ⟨0x1100110 + 0x10000 * n, 31, 31⟩
def BENT_SRAM_ERR_scrub (n : Nat) : Fld := ⟨0x1100110 + 0x10000 * n, 30, 30⟩
def BENT_SRAM_ERR_addr (n : Nat) : Fld := ⟨0x1100110 + 0x10000 * n, 22, 0⟩
def ATT_STAT_state : Fld := ⟨0x1300000, 31, 28⟩
def ATT_STAT_stopped : Fld := ⟨0x1300000, 8, 8⟩
def ATT_STAT_eng_err : Fld := ⟨0x1300000, 7, 7⟩
def ATT_STAT_bad_entry : Fld := ⟨0x1300000, 6, 6⟩
def ATT_STAT_gap : Fld := ⟨0x1300000, 5, 5⟩
def ATT_STAT_dup : Fld := ⟨0x1300000, 4, 4⟩
def ATT_STAT_seq_full : Fld := ⟨0x1300000, 3, 3⟩
def ATT_STAT_empty : Fld := ⟨0x1300000, 2, 2⟩
def ATT_STAT_nan_out : Fld := ⟨0x1300000, 1, 1⟩
def ATT_STAT_sat_out : Fld := ⟨0x1300000, 0, 0⟩
def ATT_RING_CFG_job (n : Nat) : Fld := ⟨0x1300100 + 0x20 * n, 31, 25⟩
def ATT_RING_CFG_camera (n : Nat) : Fld := ⟨0x1300100 + 0x20 * n, 24, 19⟩
def ATT_RING_CFG_n_slot (n : Nat) : Fld := ⟨0x1300100 + 0x20 * n, 18, 11⟩
def ATT_RING_CFG_tokens (n : Nat) : Fld := ⟨0x1300100 + 0x20 * n, 10, 0⟩
def ATT_RING_LAST_HI_last_hi (n : Nat) : Fld := ⟨0x1300108 + 0x20 * n, 15, 0⟩
def ATT_RING_STAT_half_written (n : Nat) : Fld := ⟨0x130010C + 0x20 * n, 2, 2⟩
def ATT_RING_STAT_dup (n : Nat) : Fld := ⟨0x130010C + 0x20 * n, 1, 1⟩
def ATT_RING_STAT_gap (n : Nat) : Fld := ⟨0x130010C + 0x20 * n, 0, 0⟩
def SPEC_STAT_state : Fld := ⟨0x1310000, 31, 28⟩
def SPEC_STAT_stopped : Fld := ⟨0x1310000, 3, 3⟩
def SPEC_STAT_eng_err : Fld := ⟨0x1310000, 2, 2⟩
def SPEC_STAT_nan_out : Fld := ⟨0x1310000, 1, 1⟩
def SPEC_STAT_sat_out : Fld := ⟨0x1310000, 0, 0⟩
def PP_STAT_state : Fld := ⟨0x1320000, 31, 28⟩
def PP_STAT_stopped : Fld := ⟨0x1320000, 2, 2⟩
def PP_STAT_pp_err : Fld := ⟨0x1320000, 1, 1⟩
def PP_STAT_seal_late : Fld := ⟨0x1320000, 0, 0⟩
def PP_ROW_STAT_open_forced (n : Nat) : Fld := ⟨0x1320100 + 0x40 * n, 5, 5⟩
def PP_ROW_STAT_carry_lost (n : Nat) : Fld := ⟨0x1320100 + 0x40 * n, 4, 4⟩
def PP_ROW_STAT_uncovered (n : Nat) : Fld := ⟨0x1320100 + 0x40 * n, 3, 3⟩
def PP_ROW_STAT_void_touch (n : Nat) : Fld := ⟨0x1320100 + 0x40 * n, 2, 2⟩
def PP_ROW_STAT_obj_ovf (n : Nat) : Fld := ⟨0x1320100 + 0x40 * n, 1, 1⟩
def PP_ROW_STAT_cand_ovf (n : Nat) : Fld := ⟨0x1320100 + 0x40 * n, 0, 0⟩
def WIT_CFG_lock_role : Fld := ⟨0x1330000, 31, 30⟩
def WIT_CFG_lock_port : Fld := ⟨0x1330000, 29, 27⟩
def WIT_CFG_lag : Fld := ⟨0x1330000, 26, 22⟩
def WIT_CFG_log_mode : Fld := ⟨0x1330000, 13, 13⟩
def WIT_CFG_ring_bays : Fld := ⟨0x1330000, 12, 0⟩
def WIT_STAT_q_level : Fld := ⟨0x1330004, 31, 16⟩
def WIT_STAT_lock_missing : Fld := ⟨0x1330004, 5, 5⟩
def WIT_STAT_lock_mismatch : Fld := ⟨0x1330004, 4, 4⟩
def WIT_STAT_lost : Fld := ⟨0x1330004, 3, 3⟩
def WIT_STAT_log_ovf : Fld := ⟨0x1330004, 2, 2⟩
def WIT_STAT_gap : Fld := ⟨0x1330004, 1, 1⟩
def WIT_STAT_wit_err : Fld := ⟨0x1330004, 0, 0⟩
def WIT_Q_CTRL_go : Fld := ⟨0x1330010, 31, 31⟩
def WIT_Q_CTRL_done : Fld := ⟨0x1330010, 30, 30⟩
def WIT_Q_CTRL_found : Fld := ⟨0x1330010, 29, 29⟩
def WIT_Q_CTRL_row : Fld := ⟨0x1330010, 22, 18⟩
def WIT_Q_CTRL_job : Fld := ⟨0x1330010, 17, 10⟩
def WIT_Q_CTRL_position : Fld := ⟨0x1330010, 9, 0⟩
def WIT_LOCK_FIRST_valid : Fld := ⟨0x1330030, 31, 31⟩
def WIT_LOCK_FIRST_count_diff : Fld := ⟨0x1330030, 30, 30⟩
def WIT_LOCK_FIRST_job : Fld := ⟨0x1330030, 16, 10⟩
def WIT_LOCK_FIRST_position : Fld := ⟨0x1330030, 9, 0⟩
end F

end Sys2Proof
end

