-- ==== Sys2Proof/Machine/Tab.lean ====
section
/-!
DEFINITION. Sys2Proof/Machine/Tab.lean: reading and writing a sparse table. `d` is what an unlisted number reads as.
-/
namespace Sys2Proof.Machine

/-- The value at number `k`; `d` where the table lists nothing. -/
def tabGet {α : Type} (d : α) : Tab α → Nat → α
  | [], _ => d
  | (j, v) :: t, k => if j = k then v else if k < j then d else tabGet d t k

/-- Put `v` at number `k` in front of a table whose numbers all lie above `k`; the default is not listed. -/
def tabCons {α : Type} [DecidableEq α] (d : α) (k : Nat) (v : α) (t : Tab α) : Tab α :=
  if v = d then t else (k, v) :: t

/-- The table with `v` at number `k`, still canonical. -/
def tabSet {α : Type} [DecidableEq α] (d : α) : Tab α → Nat → α → Tab α
  | [], k, v => tabCons d k v []
  | (j, w) :: t, k, v =>
    if j = k then tabCons d k v t
    else if k < j then tabCons d k v ((j, w) :: t)
    else (j, w) :: tabSet d t k v

/-- Every number of the table is at least `n`, they rise strictly, and no value is the default. -/
def tabWfFrom {α : Type} [DecidableEq α] (d : α) : Nat → Tab α → Bool
  | _, [] => true
  | n, (j, v) :: t => decide (n ≤ j) && decide (v ≠ d) && tabWfFrom d (j + 1) t

/-- The canonical form. -/
def tabWf {α : Type} [DecidableEq α] (d : α) (t : Tab α) : Bool := tabWfFrom d 0 t

/-- Set several numbers in turn. -/
def tabSetMany {α : Type} [DecidableEq α] (d : α) (t : Tab α) : List (Nat × α) → Tab α
  | [] => t
  | (k, v) :: r => tabSetMany d (tabSet d t k v) r

/-- Change the value at number `k`. -/
def tabMod {α : Type} [DecidableEq α] (d : α) (t : Tab α) (k : Nat) (f : α → α) : Tab α :=
  tabSet d t k (f (tabGet d t k))

end Sys2Proof.Machine
end

