-- ==== Sys2Proof/Machine/RegMap.lean ====
section
/-!
DEFINITION. Sys2Proof/Machine/RegMap.lean: the register map of the module, one row for each register (or array of
registers) of the spec's register tables, with the access code of every bit (R12) and the reset value. A bit that no
mask of a row names is RO; a bit outside `defined` is reserved.
-/
namespace Sys2Proof.Machine

/-- A row of the register map. The instances lie at `base + s1 * i + s2 * j`, `i < n1`, `j < n2`. `defined` has a bit
for each bit of a named field; `rw`, `rws` and `w1c` mark the bits of the access codes RW, RWS, and W1C or ST; `o` marks
the O fields; `stick` marks the fields whose reset is "from story stick" (R515); `reset` is the reset word. -/
structure RegRow where
  name : String
  base : Nat
  s1 : Nat
  n1 : Nat
  s2 : Nat
  n2 : Nat
  defined : Word
  rw : Word
  rws : Word
  w1c : Word
  o : Word
  stick : Word
  reset : Word
  deriving DecidableEq, Repr

/-- The register map, part 0. -/
def regMap0 : List RegRow := [
  ⟨"DEV_ID", 0, 0, 1, 0, 1, 0xFFFFF000, 0, 0, 0, 0, 0, 0x48960000⟩,
  ⟨"DEV_TAG", 4, 0, 1, 0, 1, 0xFFFFFFFF, 0, 0, 0, 0, 0, 0xA1000000⟩,
  ⟨"DEV_SERIAL_LO", 8, 0, 1, 0, 1, 0xFFFFFFFF, 0, 0, 0, 0, 0, 0⟩,
  ⟨"DEV_SERIAL_HI", 0xC, 0, 1, 0, 1, 0xFFFFFFFF, 0, 0, 0, 0, 0, 0⟩,
  ⟨"SZ_0", 0x10, 0, 1, 0, 1, 0xFF03FFFF, 0, 0, 0, 0, 0, 0x4802C020⟩,
  ⟨"SZ_1", 0x14, 0, 1, 0, 1, 0xFFFFFFF, 0, 0, 0, 0, 0, 0x4300800⟩,
  ⟨"SZ_2", 0x18, 0, 1, 0, 1, 0xFFFFFFFF, 0, 0, 0, 0, 0, 0x80082A3A⟩,
  ⟨"SZ_3", 0x1C, 0, 1, 0, 1, 0xFF0FFF, 0, 0, 0, 0, 0, 0x400680⟩,
  ⟨"RP_STRAP", 0x10000, 0, 1, 0, 1, 0x1F, 0, 0, 0, 0, 0, 0⟩,
  ⟨"RP_BOOT_STAT", 0x10004, 0, 1, 0, 1, 0xFE0000FF, 0, 0, 0, 0, 0, 0⟩,
  ⟨"RP_RESET_CTRL", 0x10008, 0, 1, 0, 1, 3, 0, 0, 3, 0, 0, 0⟩,
  ⟨"RP_BOOT_FLAGS", 0x1000C, 0, 1, 0, 1, 0xF, 0, 0, 7, 0, 0, 0⟩,
  ⟨"RP_SOFT_RST", 0x10010, 0, 1, 0, 1, 0x1FFF, 0, 0, 0x1FFF, 0, 0, 0⟩,
  ⟨"RP_SOFT_STAT", 0x10014, 0, 1, 0, 1, 0x80001FFF, 0, 0, 0x80001FFF, 0, 0, 0⟩,
  ⟨"RP_BOOT_TIME", 0x10018, 0, 1, 0, 1, 0x8001FFFF, 0, 0, 0, 0, 0, 0⟩,
  ⟨"RP_PWR_CFG0", 0x10020, 0, 1, 0, 1, 0xFFFFFFFF, 0, 0, 0, 0, 0xFFFFFFFF, 0⟩,
  ⟨"RP_PWR_CFG1", 0x10024, 0, 1, 0, 1, 0xFFFFFFF, 0, 0, 0, 0, 0xFFFFFFF, 0⟩,
  ⟨"RP_PWR_STAT0", 0x10028, 0, 1, 0, 1, 0xFFFFFFFF, 0, 0, 0, 0, 0, 0⟩,
  ⟨"RP_PWR_STAT1", 0x1002C, 0, 1, 0, 1, 0xFFFFFFF, 0, 0, 0, 0, 0, 0⟩,
  ⟨"RP_PWR_FAIL0", 0x10030, 0, 1, 0, 1, 0xFFFFFFFF, 0, 0, 0xFFFFFFFF, 0, 0, 0⟩,
  ⟨"RP_PWR_FAIL1", 0x10034, 0, 1, 0, 1, 0xFFFFFFF, 0, 0, 0xFFFFFFF, 0, 0, 0⟩,
  ⟨"RP_CNT_COLD", 0x10040, 0, 1, 0, 1, 0xFFFFFFFF, 0, 0, 0, 0, 0, 0⟩,
  ⟨"RP_CNT_WARM", 0x10044, 0, 1, 0, 1, 0xFFFFFFFF, 0, 0, 0, 0, 0, 0⟩,
  ⟨"RP_CNT_RESTART", 0x10048, 0, 1, 0, 1, 0xFFFFFFFF, 0, 0, 0, 0, 0, 0⟩,
  ⟨"RP_CNT_SOFT", 0x1004C, 0, 1, 0, 1, 0xFFFFFFFF, 0, 0, 0, 0, 0, 0⟩,
  ⟨"RP_CNT_REFUSED", 0x10050, 0, 1, 0, 1, 0xFFFFFFFF, 0, 0, 0, 0, 0, 0⟩,
  ⟨"FLT_STAT", 0x20000, 0xFF0000, 2, 4, 4, 0xFFFFFFFF, 0, 0, 0xFFFFFFFF, 0, 0, 0⟩,
  ⟨"FLT_CSTAT", 0x20010, 0xFF0000, 2, 0, 1, 7, 0, 0, 7, 0, 0, 0⟩,
  ⟨"FLT_SRC", 0x20200, 0xFF0000, 2, 4, 128, 0xFFFF0003, 0, 0, 1, 0, 0xCFF00002, 0x4A00000⟩,
  ⟨"SUP_MODE", 0x20800, 0, 1, 0, 1, 0xFC0001FF, 0, 0, 0xC000000, 0, 0, 0xC0000000⟩,
  ⟨"SUP_CTRL", 0x20804, 0, 1, 0, 1, 0xF, 0, 0, 0xF, 4, 0, 0⟩,
  ⟨"SUP_CFG", 0x20808, 0, 1, 0, 1, 0x3FF03FF, 0, 0, 0, 0, 0x3FF03FF, 0x640014⟩,
  ⟨"SUP_WD", 0x2080C, 0, 1, 0, 1, 1, 0, 0, 1, 0, 0, 0⟩,
  ⟨"SUP_PEND", 0x20810, 4, 8, 0, 1, 0xFFFFFFFF, 0, 0, 0xFFFFFFFF, 0, 0, 0⟩,
  ⟨"SUP_DEGRADE_LO", 0x20830, 0, 1, 0, 1, 0xFFFFFFFF, 0, 0xFFFFFFFF, 0, 0, 0, 0⟩,
  ⟨"SUP_DEGRADE_HI", 0x20834, 0, 1, 0, 1, 0xFFFF, 0, 0xFFFF, 0, 0, 0, 0⟩,
  ⟨"SUP_CNT_DEGRADE", 0x20840, 0, 1, 0, 1, 0xFFFFFFFF, 0, 0, 0, 0, 0, 0⟩,
  ⟨"SUP_CNT_FIREOUT", 0x20844, 0, 1, 0, 1, 0xFFFFFFFF, 0, 0, 0, 0, 0, 0⟩,
  ⟨"SUP_CNT_SAFE", 0x20848, 0, 1, 0, 1, 0xFFFFFFFF, 0, 0, 0, 0, 0, 0⟩,
  ⟨"SUP_CNT_ESCALATE", 0x2084C, 0, 1, 0, 1, 0xFFFFFFFF, 0, 0, 0, 0, 0, 0⟩,
  ⟨"SUP_CNT_RAISE", 0x20850, 0, 1, 0, 1, 0xFFFFFFFF, 0, 0, 0, 0, 0, 0⟩,
  ⟨"SUP_CNT_WD", 0x20854, 0, 1, 0, 1, 0xFFFFFFFF, 0, 0, 0, 0, 0, 0⟩,
  ⟨"TM_CFG", 0x30000, 0, 1, 0, 1, 0xFFFFFDFF, 0, 0, 0, 0, 0xFFFFFDFF, 0x17464⟩]

/-- The register map, part 1. -/
def regMap1 : List RegRow := [
  ⟨"TM_LIMITS", 0x30004, 0, 1, 0, 1, 0xFFFFFFFF, 0, 0, 0, 0, 0xFFFFFFFF, 0xE10C810⟩,
  ⟨"TM_JUMP", 0x30008, 0, 1, 0, 1, 0xFFCFFFFF, 0, 0, 0, 0, 0xFFCFFFFF, 0x400003E8⟩,
  ⟨"TM_STAT", 0x3000C, 0, 1, 0, 1, 0xFFFC1FFE, 0, 0, 0xFE, 0, 0, 0⟩,
  ⟨"TM_TB0_LO", 0x30010, 0, 1, 0, 1, 0xFFFFFFFF, 0, 0, 0, 0, 0, 0⟩,
  ⟨"TM_TB0_HI", 0x30014, 0, 1, 0, 1, 0xFFFFFFFF, 0, 0, 0, 0, 0, 0⟩,
  ⟨"TM_TB1_LO", 0x30018, 0, 1, 0, 1, 0xFFFFFFFF, 0, 0, 0, 0, 0, 0⟩,
  ⟨"TM_TB1_HI", 0x3001C, 0, 1, 0, 1, 0xFFFFFFFF, 0, 0, 0, 0, 0, 0⟩,
  ⟨"TM_TB2_LO", 0x30020, 0, 1, 0, 1, 0xFFFFFFFF, 0, 0, 0, 0, 0, 0⟩,
  ⟨"TM_TB2_HI", 0x30024, 0, 1, 0, 1, 0xFFFFFFFF, 0, 0, 0, 0, 0, 0⟩,
  ⟨"TM_TB3_LO", 0x30028, 0, 1, 0, 1, 0xFFFFFFFF, 0, 0, 0, 0, 0, 0⟩,
  ⟨"TM_TB3_HI", 0x3002C, 0, 1, 0, 1, 0xFFFFFFFF, 0, 0, 0, 0, 0, 0⟩,
  ⟨"TM_TB0_INC_LO", 0x30030, 0, 1, 0, 1, 0xFFFFFFFF, 0xFFFFFFFF, 0, 0, 0, 0, 0⟩,
  ⟨"TM_TB0_INC_HI", 0x30034, 0, 1, 0, 1, 0xFFFFFFFF, 0xFFFFFFFF, 0, 0, 0, 0, 4⟩,
  ⟨"TM_TB1_INC_LO", 0x30038, 0, 1, 0, 1, 0xFFFFFFFF, 0xFFFFFFFF, 0, 0, 0, 0, 0⟩,
  ⟨"TM_TB1_INC_HI", 0x3003C, 0, 1, 0, 1, 0xFFFFFFFF, 0xFFFFFFFF, 0, 0, 0, 0, 4⟩,
  ⟨"TM_TB0_STEP_LO", 0x30040, 0, 1, 0, 1, 0xFFFFFFFF, 0xFFFFFFFF, 0, 0, 0, 0, 0⟩,
  ⟨"TM_TB0_STEP_HI", 0x30044, 0, 1, 0, 1, 0xFFFFFFFF, 0xFFFFFFFF, 0, 0, 0, 0, 0⟩,
  ⟨"TM_TB1_STEP_LO", 0x30048, 0, 1, 0, 1, 0xFFFFFFFF, 0xFFFFFFFF, 0, 0, 0, 0, 0⟩,
  ⟨"TM_TB1_STEP_HI", 0x3004C, 0, 1, 0, 1, 0xFFFFFFFF, 0xFFFFFFFF, 0, 0, 0, 0, 0⟩,
  ⟨"TM_CTRL", 0x30050, 0, 1, 0, 1, 1, 0, 0, 1, 0, 0, 0⟩,
  ⟨"TM_TB3_DIFF", 0x30054, 0, 1, 0, 1, 0xFFFFFFFF, 0, 0, 0, 0, 0, 0⟩,
  ⟨"TM_TB1_DIFF", 0x30058, 0, 1, 0, 1, 0xFFFFFFFF, 0, 0, 0, 0, 0, 0⟩,
  ⟨"TM_PPS_IN_LO", 0x30060, 0, 1, 0, 1, 0xFFFFFFFF, 0, 0, 0, 0, 0, 0⟩,
  ⟨"TM_PPS_IN_HI", 0x30064, 0, 1, 0, 1, 0xFFFFFFFF, 0, 0, 0, 0, 0, 0⟩,
  ⟨"TM_PPS_ERR", 0x30068, 0, 1, 0, 1, 0xFFFFFFFF, 0, 0, 0, 0, 0, 0⟩,
  ⟨"TM_WAKE_SKEW", 0x3006C, 0, 1, 0, 1, 0x1FFFFFFF, 0, 0, 0, 0, 0, 0⟩,
  ⟨"TM_CNT_STEP", 0x30080, 0, 1, 0, 1, 0xFFFFFFFF, 0, 0, 0, 0, 0, 0⟩,
  ⟨"TM_CNT_REFUSE", 0x30084, 0, 1, 0, 1, 0xFFFFFFFF, 0, 0, 0, 0, 0, 0⟩,
  ⟨"TM_CNT_SWITCH", 0x30088, 0, 1, 0, 1, 0xFFFFFFFF, 0, 0, 0, 0, 0, 0⟩,
  ⟨"TM_CNT_CANCEL", 0x3008C, 0, 1, 0, 1, 0xFFFFFFFF, 0, 0, 0, 0, 0, 0⟩,
  ⟨"TM_CNT_HOLD", 0x30090, 0, 1, 0, 1, 0xFFFFFFFF, 0, 0, 0, 0, 0, 0⟩,
  ⟨"TM_CNT_PPS_MISS", 0x30094, 0, 1, 0, 1, 0xFFFFFFFF, 0, 0, 0, 0, 0, 0⟩,
  ⟨"TM_CNT_CLAMP", 0x30098, 0, 1, 0, 1, 0xFFFFFFFF, 0, 0, 0, 0, 0, 0⟩,
  ⟨"ENC_CFG", 0x40000, 0x100, 8, 0, 1, 0xFFE007FF, 0, 0, 0, 0, 0xFFE007FF, 0x50⟩,
  ⟨"ENC_TOOTH_CFG", 0x40004, 0x100, 8, 0, 1, 0xFF000FFF, 0, 0, 0, 0, 0xFF000FFF, 0x88000000⟩,
  ⟨"ENC_SSI_CFG", 0x40008, 0x100, 8, 0, 1, 0xFFFFFFFF, 0, 0, 0, 0, 0xFFFFFFFF, 0x323040⟩,
  ⟨"ENC_IDX_CFG", 0x4000C, 0x100, 8, 0, 1, 0xFFFFFFFF, 0, 0, 0, 0, 0xFFFFFFFF, 0x2000000⟩,
  ⟨"ENC_STAT", 0x40010, 0x100, 8, 0, 1, 0xF8000FFF, 0, 0, 0xFFF, 0, 0, 0⟩,
  ⟨"ENC_POS_LO", 0x40014, 0x100, 8, 0, 1, 0xFFFFFFFF, 0, 0, 0, 0, 0, 0⟩,
  ⟨"ENC_POS_HI", 0x40018, 0x100, 8, 0, 1, 0xFFFFFFFF, 0, 0, 0, 0, 0, 0⟩]

/-- The register map, part 2. -/
def regMap2 : List RegRow := [
  ⟨"ENC_SPEED", 0x4001C, 0x100, 8, 0, 1, 0xFFFFFFFF, 0, 0, 0, 0, 0, 0⟩,
  ⟨"ENC_IDX_LO", 0x40020, 0x100, 8, 0, 1, 0xFFFFFFFF, 0, 0, 0, 0, 0, 0⟩,
  ⟨"ENC_IDX_HI", 0x40024, 0x100, 8, 0, 1, 0xFFFFFFFF, 0, 0, 0, 0, 0, 0⟩,
  ⟨"ENC_DRIFT", 0x40028, 0x100, 8, 0, 1, 0xFFFFFFFF, 0, 0, 0, 0, 0, 0⟩,
  ⟨"ENC_PRB_LO", 0x4002C, 0x100, 8, 0, 1, 0xFFFFFFFF, 0, 0, 0, 0, 0, 0⟩,
  ⟨"ENC_PRB_HI", 0x40030, 0x100, 8, 0, 1, 0xFFFFFFFF, 0, 0, 0, 0, 0, 0⟩,
  ⟨"ENC_PRB_T_LO", 0x40034, 0x100, 8, 0, 1, 0xFFFFFFFF, 0, 0, 0, 0, 0, 0⟩,
  ⟨"ENC_PRB_T_HI", 0x40038, 0x100, 8, 0, 1, 0xFFFFFFFF, 0, 0, 0, 0, 0, 0⟩,
  ⟨"ENC_PRB_SEQ", 0x4003C, 0x100, 8, 0, 1, 0xFFFF, 0, 0, 0, 0, 0, 0⟩,
  ⟨"ENC_BAY_LO", 0x40040, 0x100, 8, 0, 1, 0xFFFFFFFF, 0, 0, 0, 0, 0, 0⟩,
  ⟨"ENC_BAY_HI", 0x40044, 0x100, 8, 0, 1, 0xFFFFFFFF, 0, 0, 0, 0, 0, 0⟩,
  ⟨"ENC_CNT_ILLEGAL", 0x40060, 0x100, 8, 0, 1, 0xFFFFFFFF, 0, 0, 0, 0, 0, 0⟩,
  ⟨"ENC_CNT_NOISE", 0x40064, 0x100, 8, 0, 1, 0xFFFFFFFF, 0, 0, 0, 0, 0, 0⟩,
  ⟨"ENC_CNT_SYNTH", 0x40068, 0x100, 8, 0, 1, 0xFFFFFFFF, 0, 0, 0, 0, 0, 0⟩,
  ⟨"ENC_CNT_LOST", 0x4006C, 0x100, 8, 0, 1, 0xFFFFFFFF, 0, 0, 0, 0, 0, 0⟩,
  ⟨"ENC_CNT_INDEX", 0x40070, 0x100, 8, 0, 1, 0xFFFFFFFF, 0, 0, 0, 0, 0, 0⟩,
  ⟨"ENC_CNT_PROBE", 0x40074, 0x100, 8, 0, 1, 0xFFFFFFFF, 0, 0, 0, 0, 0, 0⟩,
  ⟨"ENC_CNT_SSI_ERR", 0x40078, 0x100, 8, 0, 1, 0xFFFFFFFF, 0, 0, 0, 0, 0, 0⟩,
  ⟨"ENC_CNT_STOP", 0x4007C, 0x100, 8, 0, 1, 0xFFFFFFFF, 0, 0, 0, 0, 0, 0⟩,
  ⟨"FS_STAT", 0x50000, 0, 1, 0, 1, 0xC00000FF, 0, 0, 0xFF, 0, 0xC0000000, 0⟩,
  ⟨"FS_Q_STAT", 0x50100, 0x40, 8, 0, 1, 0x3FFF3FFF, 0, 0, 0, 0, 0, 0⟩,
  ⟨"FS_Q_CNT_IN", 0x50104, 0x40, 8, 0, 1, 0xFFFFFFFF, 0, 0, 0, 0, 0, 0⟩,
  ⟨"FS_Q_CNT_OUT", 0x50108, 0x40, 8, 0, 1, 0xFFFFFFFF, 0, 0, 0, 0, 0, 0⟩,
  ⟨"FS_Q_CNT_CANCEL", 0x5010C, 0x40, 8, 0, 1, 0xFFFFFFFF, 0, 0, 0, 0, 0, 0⟩,
  ⟨"FS_Q_CNT_FULL", 0x50110, 0x40, 8, 0, 1, 0xFFFFFFFF, 0, 0, 0, 0, 0, 0⟩,
  ⟨"FS_Q_CNT_LATE", 0x50114, 0x40, 8, 0, 1, 0xFFFFFFFF, 0, 0, 0, 0, 0, 0⟩,
  ⟨"FS_Q_CNT_OVF", 0x50118, 0x40, 8, 0, 1, 0xFFFFFFFF, 0, 0, 0, 0, 0, 0⟩,
  ⟨"FS_Q_CNT_EST", 0x5011C, 0x40, 8, 0, 1, 0xFFFFFFFF, 0, 0, 0, 0, 0, 0⟩,
  ⟨"FS_Q_CNT_FORCED", 0x50120, 0x40, 8, 0, 1, 0xFFFFFFFF, 0, 0, 0, 0, 0, 0⟩,
  ⟨"FS_Q_CNT_UNMIRR", 0x50124, 0x40, 8, 0, 1, 0xFFFFFFFF, 0, 0, 0, 0, 0, 0⟩,
  ⟨"FS_ROW_CFG", 0x51000, 0x200, 8, 0, 1, 0xF0000FFF, 0, 0, 0, 0, 0xF0000FFF, 0⟩,
  ⟨"FS_ROW_STAT", 0x51004, 0x200, 8, 0, 1, 3, 0, 0, 3, 0, 0, 0⟩,
  ⟨"FS_ROW_CNT_OBJ", 0x51010, 0x200, 8, 0, 1, 0xFFFFFFFF, 0, 0, 0, 0, 0, 0⟩,
  ⟨"FS_ROW_CNT_EJECT", 0x51014, 0x200, 8, 0, 1, 0xFFFFFFFF, 0, 0, 0, 0, 0, 0⟩,
  ⟨"FS_ROW_CNT_PASS", 0x51018, 0x200, 8, 0, 1, 0xFFFFFFFF, 0, 0, 0, 0, 0, 0⟩,
  ⟨"FS_ROW_CNT_INDET", 0x5101C, 0x200, 8, 0, 1, 0xFFFFFFFF, 0, 0, 0, 0, 0, 0⟩,
  ⟨"FS_ROW_CNT_LATE", 0x51020, 0x200, 8, 0, 1, 0xFFFFFFFF, 0, 0, 0, 0, 0, 0⟩,
  ⟨"FS_ROW_CNT_LIMIT", 0x51024, 0x200, 8, 0, 1, 0xFFFFFFFF, 0, 0, 0, 0, 0, 0⟩,
  ⟨"FS_ROW_CNT_DUP", 0x51028, 0x200, 8, 0, 1, 0xFFFFFFFF, 0, 0, 0, 0, 0, 0⟩,
  ⟨"FS_MAP_A", 0x51100, 0x200, 8, 0x20, 8, 0xFF81FFFF, 0, 0, 0, 0, 0xFF81FFFF, 0⟩]

/-- The register map, part 3. -/
def regMap3 : List RegRow := [
  ⟨"FS_MAP_COL", 0x51104, 0x200, 8, 0x20, 8, 0x1FFFF, 0, 0, 0, 0, 0x1FFFF, 0⟩,
  ⟨"FS_MAP_PITCH", 0x51108, 0x200, 8, 0x20, 8, 0x3FFFF, 0, 0, 0, 0, 0x3FFFF, 0⟩,
  ⟨"FS_MAP_OFFSET", 0x5110C, 0x200, 8, 0x20, 8, 0xFFFFFF, 0, 0, 0, 0, 0xFFFFFF, 0⟩,
  ⟨"FS_MAP_SHAPE", 0x51110, 0x200, 8, 0x20, 8, 0xFFFFFFFF, 0, 0, 0, 0, 0xFFFFFFFF, 0⟩,
  ⟨"FS_MAP_CLASS", 0x51114, 0x200, 8, 0x20, 8, 0xFFFF07FF, 0, 0, 0, 0, 0xFFFF07FF, 0⟩,
  ⟨"FS_MAP_LIMIT", 0x51118, 0x200, 8, 0x20, 8, 0x3FFF, 0, 0, 0, 0, 0x3FFF, 0⟩,
  ⟨"PEG_CFG", 0x60000, 0x100, 8, 0, 1, 0x80FFFFFF, 0, 0, 0, 0, 0x80FFFFFF, 0⟩,
  ⟨"PEG_TIMING", 0x60004, 0x100, 8, 0, 1, 0xFF, 0, 0, 0, 0, 0xFF, 0⟩,
  ⟨"PEG_CTRL", 0x60008, 0x100, 8, 0, 1, 3, 0, 1, 2, 3, 1, 0⟩,
  ⟨"PEG_STAT", 0x6000C, 0x100, 8, 0, 1, 0xFC001FFF, 0, 0, 0x1FFF, 0, 0, 0⟩,
  ⟨"PEG_NONCE", 0x60010, 0x100, 8, 0, 1, 0xFFFFFFFF, 0, 0, 0, 0, 0, 0⟩,
  ⟨"PEG_VFAULT", 0x60020, 0x100, 8, 4, 8, 0xFFFFFFFF, 0, 0, 0, 0, 0, 0⟩,
  ⟨"PEG_CNT_FRAMES", 0x60040, 0x100, 8, 0, 1, 0xFFFFFFFF, 0, 0, 0, 0, 0, 0⟩,
  ⟨"PEG_CNT_FULL", 0x60044, 0x100, 8, 0, 1, 0xFFFFFFFF, 0, 0, 0, 0, 0, 0⟩,
  ⟨"PEG_CNT_STATUS", 0x60048, 0x100, 8, 0, 1, 0xFFFFFFFF, 0, 0, 0, 0, 0, 0⟩,
  ⟨"PEG_CNT_ST_MISS", 0x6004C, 0x100, 8, 0, 1, 0xFFFFFFFF, 0, 0, 0, 0, 0, 0⟩,
  ⟨"PEG_CNT_ST_TAG", 0x60050, 0x100, 8, 0, 1, 0xFFFFFFFF, 0, 0, 0, 0, 0, 0⟩,
  ⟨"PEG_CNT_ST_CRC", 0x60054, 0x100, 8, 0, 1, 0xFFFFFFFF, 0, 0, 0, 0, 0, 0⟩,
  ⟨"PEG_CNT_GAP", 0x60058, 0x100, 8, 0, 1, 0xFFFFFFFF, 0, 0, 0, 0, 0, 0⟩,
  ⟨"PEG_CNT_OVF", 0x6005C, 0x100, 8, 0, 1, 0xFFFFFFFF, 0, 0, 0, 0, 0, 0⟩,
  ⟨"FIO_IN", 0x70000, 0, 1, 0, 1, 0xFFFFFFFF, 0, 0, 0, 0, 0, 0⟩,
  ⟨"FIO_WB_EN", 0x70004, 0, 1, 0, 1, 0xFFFFFFFF, 0, 0, 0, 0, 0xFFFFFFFF, 0⟩,
  ⟨"FIO_SUBST", 0x70008, 0, 1, 0, 1, 0xFFFFFFFF, 0, 0, 0, 0, 0xFFFFFFFF, 0⟩,
  ⟨"FIO_OUT", 0x7000C, 0, 1, 0, 1, 0x2FFFF, 0x2FFFF, 0, 0, 0x2FFFF, 0x20000, 0⟩,
  ⟨"FIO_OUT_RB", 0x70010, 0, 1, 0, 1, 0x2FFFF, 0, 0, 0, 0, 0, 0⟩,
  ⟨"FIO_OUT_SRC", 0x70014, 0, 1, 0, 1, 0xFFFFFFFF, 0, 0, 0, 0, 0xFFFFFFFF, 0⟩,
  ⟨"FIO_GRP", 0x70018, 0, 1, 0, 1, 0x7F007F, 0, 0, 0x7F0000, 0, 0, 0⟩,
  ⟨"FIO_EDGE_R", 0x7001C, 0, 1, 0, 1, 0xFFFFFFFF, 0, 0, 0, 0, 0xFFFFFFFF, 0⟩,
  ⟨"FIO_EDGE_F", 0x70020, 0, 1, 0, 1, 0xFFFFFFFF, 0, 0, 0, 0, 0xFFFFFFFF, 0⟩,
  ⟨"FIO_Q_STAT", 0x70024, 0, 1, 0, 1, 0x7FFFF, 0, 0, 0x60000, 0, 0, 0⟩,
  ⟨"FIO_EVT_HDR", 0x70028, 0, 1, 0, 1, 0xC000001F, 0, 0, 0, 0, 0, 0⟩,
  ⟨"FIO_EVT_T_LO", 0x7002C, 0, 1, 0, 1, 0xFFFFFFFF, 0, 0, 0, 0, 0, 0⟩,
  ⟨"FIO_EVT_T_HI", 0x70030, 0, 1, 0, 1, 0xFFFFFFFF, 0, 0, 0, 0, 0, 0⟩,
  ⟨"FIO_PAIR_CFG", 0x70040, 4, 8, 0, 1, 0x80001FBF, 0, 0, 0, 0, 0x80001FBF, 0⟩,
  ⟨"FIO_PAIR_HDR", 0x70060, 0, 1, 0, 1, 0xF0000007, 0, 0, 0, 0, 0, 0⟩,
  ⟨"FIO_PAIR_T_LO", 0x70064, 0, 1, 0, 1, 0xFFFFFFFF, 0, 0, 0, 0, 0, 0⟩,
  ⟨"FIO_PAIR_T_HI", 0x70068, 0, 1, 0, 1, 0xFFFFFFFF, 0, 0, 0, 0, 0, 0⟩,
  ⟨"FIO_PAIR_DUR", 0x7006C, 0, 1, 0, 1, 0xFFFFFFFF, 0, 0, 0, 0, 0, 0⟩,
  ⟨"FIO_CNT_EDGE", 0x70080, 0, 1, 0, 1, 0xFFFFFFFF, 0, 0, 0, 0, 0, 0⟩,
  ⟨"FIO_CNT_DROP", 0x70084, 0, 1, 0, 1, 0xFFFFFFFF, 0, 0, 0, 0, 0, 0⟩]

/-- The register map, part 4. -/
def regMap4 : List RegRow := [
  ⟨"FIO_CNT_PAIRS", 0x70088, 0, 1, 0, 1, 0xFFFFFFFF, 0, 0, 0, 0, 0, 0⟩,
  ⟨"FIO_CNT_ORDER", 0x7008C, 0, 1, 0, 1, 0xFFFFFFFF, 0, 0, 0, 0, 0, 0⟩,
  ⟨"FIO_CNT_SAME", 0x70090, 0, 1, 0, 1, 0xFFFFFFFF, 0, 0, 0, 0, 0, 0⟩,
  ⟨"FIO_CNT_REPEAT", 0x70094, 0, 1, 0, 1, 0xFFFFFFFF, 0, 0, 0, 0, 0, 0⟩,
  ⟨"FIO_CNT_WB", 0x70098, 0, 1, 0, 1, 0xFFFFFFFF, 0, 0, 0, 0, 0, 0⟩,
  ⟨"FIO_CNT_OUT_FLT", 0x7009C, 0, 1, 0, 1, 0xFFFFFFFF, 0, 0, 0, 0, 0, 0⟩,
  ⟨"CXP_LINK_CFG", 0x80000, 0x400, 48, 0, 1, 0xFFFC080, 0, 0, 0, 0, 0xFFFC080, 0⟩,
  ⟨"CXP_LINK_CTRL", 0x80004, 0x400, 48, 0, 1, 7, 1, 0, 6, 6, 0, 0⟩,
  ⟨"CXP_LINK_STAT", 0x80008, 0x400, 48, 0, 1, 0xF000FFFE, 0, 0, 0xFFFE, 0, 0, 0⟩,
  ⟨"CXP_TRIG_CFG", 0x8000C, 0x400, 48, 0, 1, 0x1FFFFFFF, 0, 0, 0, 0, 0x1FFFFFFF, 0x10000⟩,
  ⟨"CXP_TRIG_PHASE", 0x80010, 0x400, 48, 0, 1, 0x3FF, 0, 0, 0, 0, 0x3FF, 0⟩,
  ⟨"CXP_TIMING_CFG", 0x80014, 0x400, 48, 0, 1, 0xFFFE7FFF, 0, 0, 0, 0, 0xFFFE7FFF, 0xA3C01F4⟩,
  ⟨"CXP_CAM_INFO", 0x80020, 0x400, 48, 0, 1, 0xBF007FFF, 0, 0, 0, 0, 0, 0⟩,
  ⟨"CXP_CNT_PKT", 0x80040, 0x400, 48, 0, 1, 0xFFFFFFFF, 0, 0, 0, 0, 0, 0⟩,
  ⟨"CXP_CNT_CRC", 0x80044, 0x400, 48, 0, 1, 0xFFFFFFFF, 0, 0, 0, 0, 0, 0⟩,
  ⟨"CXP_CNT_DUP", 0x80048, 0x400, 48, 0, 1, 0xFFFFFFFF, 0, 0, 0, 0, 0, 0⟩,
  ⟨"CXP_CNT_UNSOL", 0x8004C, 0x400, 48, 0, 1, 0xFFFFFFFF, 0, 0, 0, 0, 0, 0⟩,
  ⟨"CXP_CNT_EVENT", 0x80050, 0x400, 48, 0, 1, 0xFFFFFFFF, 0, 0, 0, 0, 0, 0⟩,
  ⟨"CXP_CNT_VOID", 0x80054, 0x400, 48, 0, 1, 0xFFFFFFFF, 0, 0, 0, 0, 0, 0⟩,
  ⟨"CXP_CNT_LATE", 0x80058, 0x400, 48, 0, 1, 0xFFFFFFFF, 0, 0, 0, 0, 0, 0⟩,
  ⟨"CXP_CNT_HDR_REJ", 0x8005C, 0x400, 48, 0, 1, 0xFFFFFFFF, 0, 0, 0, 0, 0, 0⟩,
  ⟨"CXP_CNT_SIZE_DROP", 0x80060, 0x400, 48, 0, 1, 0xFFFFFFFF, 0, 0, 0, 0, 0, 0⟩,
  ⟨"CXP_CNT_TRIG", 0x80064, 0x400, 48, 0, 1, 0xFFFFFFFF, 0, 0, 0, 0, 0, 0⟩,
  ⟨"CXP_CNT_TRIG_SUP", 0x80068, 0x400, 48, 0, 1, 0xFFFFFFFF, 0, 0, 0, 0, 0, 0⟩,
  ⟨"CXP_CNT_RECONNECT", 0x8006C, 0x400, 48, 0, 1, 0xFFFFFFFF, 0, 0, 0, 0, 0, 0⟩,
  ⟨"CXP_CNT_ORDER", 0x80070, 0x400, 48, 0, 1, 0xFFFFFFFF, 0, 0, 0, 0, 0, 0⟩,
  ⟨"LP_CFG", 0xA0000, 0x800, 48, 0, 1, 0x3FF07FFF, 0, 0, 0, 0, 0x3FF07FFF, 0⟩,
  ⟨"LP_CTRL", 0xA0004, 0x800, 48, 0, 1, 0x1F9, 0, 0x1F8, 1, 1, 0, 0⟩,
  ⟨"LP_STAT", 0xA0008, 0x800, 48, 0, 1, 0xF00003FF, 0, 0, 0xFF, 0, 0, 0⟩,
  ⟨"LP_STRIP_CFG", 0xA000C, 0x800, 48, 0, 1, 0x1FFF0F7F, 0, 0, 0, 0, 0x1FFF0F7F, 0x1000000⟩,
  ⟨"LP_CAL_ID_A", 0xA0010, 0x800, 48, 0, 1, 0xFFFFFFFF, 0, 0, 0, 0, 0xFFFFFFFF, 0⟩,
  ⟨"LP_CAL_ID_B", 0xA0014, 0x800, 48, 0, 1, 0xFFFFFFFF, 0, 0, 0, 0, 0, 0⟩,
  ⟨"LP_CNT_LINES", 0xA0040, 0x800, 48, 0, 1, 0xFFFFFFFF, 0, 0, 0, 0, 0, 0⟩,
  ⟨"LP_CNT_STRIPS", 0xA0044, 0x800, 48, 0, 1, 0xFFFFFFFF, 0, 0, 0, 0, 0, 0⟩,
  ⟨"LP_CNT_INCOMPLETE", 0xA0048, 0x800, 48, 0, 1, 0xFFFFFFFF, 0, 0, 0, 0, 0, 0⟩,
  ⟨"LP_CNT_OVERFLOW", 0xA004C, 0x800, 48, 0, 1, 0xFFFFFFFF, 0, 0, 0, 0, 0, 0⟩,
  ⟨"LP_CNT_ROUTE_DISC", 0xA0050, 0x800, 48, 0, 1, 0xFFFFFFFF, 0, 0, 0, 0, 0, 0⟩,
  ⟨"LP_CNT_SYNC", 0xA0054, 0x800, 48, 0, 1, 0xFFFFFFFF, 0, 0, 0, 0, 0, 0⟩,
  ⟨"LP_CNT_CLIP", 0xA0058, 0x800, 48, 0, 1, 0xFFFFFFFF, 0, 0, 0, 0, 0, 0⟩,
  ⟨"LP_RPL_CTRL", 0xB8000, 0x100, 8, 0, 1, 1, 0, 0, 1, 1, 0, 0⟩]

/-- The register map, part 5. -/
def regMap5 : List RegRow := [
  ⟨"LP_RPL_STAT", 0xB8004, 0x100, 8, 0, 1, 0xF0000007, 0, 0, 7, 0, 0, 0⟩,
  ⟨"LP_RPL_FIRST_LO", 0xB8008, 0x100, 8, 0, 1, 0xFFFFFFFF, 0, 0, 0, 0, 0, 0⟩,
  ⟨"LP_RPL_FIRST_HI", 0xB800C, 0x100, 8, 0, 1, 0xFFFF, 0, 0, 0, 0, 0, 0⟩,
  ⟨"LP_RPL_LAST_LO", 0xB8010, 0x100, 8, 0, 1, 0xFFFFFFFF, 0, 0, 0, 0, 0, 0⟩,
  ⟨"LP_RPL_LAST_HI", 0xB8014, 0x100, 8, 0, 1, 0xFFFF, 0, 0, 0, 0, 0, 0⟩,
  ⟨"LP_RPL_RATE", 0xB8018, 0x100, 8, 0, 1, 0x3FFFF, 0, 0, 0, 0, 0, 0⟩,
  ⟨"LP_RPL_LOST", 0xB801C, 0x100, 8, 0, 1, 0xFFFFFFFF, 0, 0, 0, 0, 0, 0⟩,
  ⟨"STUD_CFG", 0xC0000, 0, 1, 0, 1, 0x1FF, 0, 0, 0, 0, 0x1FF, 0x80⟩,
  ⟨"STUD_STAT", 0xC0004, 0, 1, 0, 1, 0xF, 0, 0, 0xF, 0, 0, 0⟩,
  ⟨"SCR_ROW_CFG", 0xC0100, 0x40, 8, 0, 1, 0xFFFF1FFF, 0, 0x80000000, 0, 0x80000000, 0xFFFF1FFF, 0x400BB8⟩,
  ⟨"SCR_ROW_CFG (replay rows)", 0xC0300, 0x40, 8, 0, 1, 0x30000000, 0, 0, 0, 0, 0x30000000, 0⟩,
  ⟨"SCR_ROW_THR", 0xC0104, 0x40, 16, 0, 1, 0xFFFF07FF, 0, 0, 0, 0, 0xFFFF07FF, 0x40400000⟩,
  ⟨"SCR_ROW_CROP", 0xC0108, 0x40, 16, 0, 1, 0xCFFF1FFF, 0, 0, 0, 0, 0xCFFF1FFF, 0⟩,
  ⟨"SCR_ROW_STAT", 0xC010C, 0x40, 16, 0, 1, 0x7F, 0, 0, 0x7F, 0, 0, 0⟩,
  ⟨"SCR_CNT_STRIPS", 0xC0110, 0x40, 16, 0, 1, 0xFFFFFFFF, 0, 0, 0, 0, 0, 0⟩,
  ⟨"SCR_CNT_FALLBACK", 0xC0114, 0x40, 16, 0, 1, 0xFFFFFFFF, 0, 0, 0, 0, 0, 0⟩,
  ⟨"SCR_CNT_UPHELD", 0xC0118, 0x40, 16, 0, 1, 0xFFFFFFFF, 0, 0, 0, 0, 0, 0⟩,
  ⟨"SCR_CNT_DROPPED", 0xC011C, 0x40, 16, 0, 1, 0xFFFFFFFF, 0, 0, 0, 0, 0, 0⟩,
  ⟨"SCR_CNT_WITHDRAWN", 0xC0120, 0x40, 16, 0, 1, 0xFFFFFFFF, 0, 0, 0, 0, 0, 0⟩,
  ⟨"SCR_CNT_LATE", 0xC0124, 0x40, 16, 0, 1, 0xFFFFFFFF, 0, 0, 0, 0, 0, 0⟩,
  ⟨"SCR_CNT_UNCOVERED", 0xC0128, 0x40, 16, 0, 1, 0xFFFFFFFF, 0, 0, 0, 0, 0, 0⟩,
  ⟨"SCR_CNT_COMP_OVF", 0xC012C, 0x40, 16, 0, 1, 0xFFFFFFFF, 0, 0, 0, 0, 0, 0⟩,
  ⟨"CM_CFG", 0xD0000, 0, 1, 0, 1, 0xFFFFFFFF, 0, 0, 0, 0, 0, 0x21550040⟩,
  ⟨"CM_KEY", 0xD0008, 0, 1, 0, 1, 0xFFFF, 0, 0, 0, 0, 0, 1⟩,
  ⟨"CM_STAT", 0xD0004, 0, 1, 0, 1, 0xF000000F, 0, 0, 0xF, 0, 0, 0⟩,
  ⟨"CM_CTRL", 0xD000C, 0, 1, 0, 1, 1, 0, 0, 1, 0, 0, 0⟩,
  ⟨"CM_ERR_LO", 0xD0010, 0, 1, 0, 1, 0xFFFFFFFF, 0, 0, 0, 0, 0, 0⟩,
  ⟨"CM_ERR_HI", 0xD0014, 0, 1, 0, 1, 0xC000000F, 0, 0, 0, 0, 0, 0⟩,
  ⟨"CM_PIPE_WAIT_MAX", 0xD0018, 0, 1, 0, 1, 0xFFFFFFFF, 0, 0, 0, 0, 0, 0⟩,
  ⟨"CM_CNT_CE", 0xD0020, 0, 1, 0, 1, 0xFFFFFFFF, 0, 0, 0, 0, 0, 0⟩,
  ⟨"CM_CNT_UE", 0xD0024, 0, 1, 0, 1, 0xFFFFFFFF, 0, 0, 0, 0, 0, 0⟩,
  ⟨"CM_CNT_DMA", 0xD0028, 0, 1, 0, 1, 0xFFFFFFFF, 0, 0, 0, 0, 0, 0⟩,
  ⟨"TN_CFG", 0xE0000, 0, 1, 0, 1, 0xFFFC00F, 0, 0, 0, 0, 0xFFFC00F, 0x190008⟩,
  ⟨"TN_STAT", 0xE0004, 0, 1, 0, 1, 0xFF00007F, 0, 0, 0x7F, 0, 0, 0⟩,
  ⟨"TN_CTRL", 0xE0008, 0, 1, 0, 1, 1, 0, 0, 1, 0, 0, 0⟩,
  ⟨"TN_CNT_FLIT_S2R", 0xE0040, 0, 1, 0, 1, 0xFFFFFFFF, 0, 0, 0, 0, 0, 0⟩,
  ⟨"TN_CNT_FLIT_R2S", 0xE0044, 0, 1, 0, 1, 0xFFFFFFFF, 0, 0, 0, 0, 0, 0⟩,
  ⟨"TN_CNT_CRC_S2R", 0xE0048, 0, 1, 0, 1, 0xFFFFFFFF, 0, 0, 0, 0, 0, 0⟩,
  ⟨"TN_CNT_CRC_R2S", 0xE004C, 0, 1, 0, 1, 0xFFFFFFFF, 0, 0, 0, 0, 0, 0⟩,
  ⟨"TN_CNT_REPLAY", 0xE0050, 0, 1, 0, 1, 0xFFFFFFFF, 0, 0, 0, 0, 0, 0⟩,
  ⟨"TN_CNT_RETRAIN", 0xE0054, 0, 1, 0, 1, 0xFFFFFFFF, 0, 0, 0, 0, 0, 0⟩]

/-- The register map, part 6. -/
def regMap6 : List RegRow := [
  ⟨"TN_CNT_STALE", 0xE0058, 0, 1, 0, 1, 0xFFFFFFFF, 0, 0, 0, 0, 0, 0⟩,
  ⟨"TN_CNT_CANCEL", 0xE005C, 0, 1, 0, 1, 0xFFFFFFFF, 0, 0, 0, 0, 0, 0⟩,
  ⟨"TN_CNT_TIMEOUT", 0xE0060, 0, 1, 0, 1, 0xFFFFFFFF, 0, 0, 0, 0, 0, 0⟩,
  ⟨"TN_CNT_LATE_RSP", 0xE0064, 0, 1, 0, 1, 0xFFFFFFFF, 0, 0, 0, 0, 0, 0⟩,
  ⟨"PUR_CFG", 0xF0000, 0x2000, 6, 0, 1, 0xFFFFFF80, 0, 0, 0, 0, 0xFFFFFF80, 0⟩,
  ⟨"PUR_CTRL", 0xF0004, 0x2000, 6, 0, 1, 7, 1, 0, 6, 0, 0, 0⟩,
  ⟨"PUR_STAT", 0xF0008, 0x2000, 6, 0, 1, 0xF0003FFF, 0, 0, 0x1FFF, 0, 0, 0⟩,
  ⟨"PUR_LANE", 0xF000C, 0x2000, 6, 0, 1, 0xFF000FFF, 0, 0, 0, 0, 0, 0⟩,
  ⟨"PUR_FEC_CFG", 0xF0010, 0x2000, 6, 0, 1, 0xFFFF, 0, 0, 0, 0, 0xFFFF, 0x40⟩,
  ⟨"PUR_CNT_CW", 0xF0040, 0x2000, 6, 0, 1, 0xFFFFFFFF, 0, 0, 0, 0, 0, 0⟩,
  ⟨"PUR_CNT_CORR", 0xF0044, 0x2000, 6, 0, 1, 0xFFFFFFFF, 0, 0, 0, 0, 0, 0⟩,
  ⟨"PUR_CNT_UNCORR", 0xF0048, 0x2000, 6, 0, 1, 0xFFFFFFFF, 0, 0, 0, 0, 0, 0⟩,
  ⟨"PUR_CNT_DOWN", 0xF004C, 0x2000, 6, 0, 1, 0xFFFFFFFF, 0, 0, 0, 0, 0, 0⟩,
  ⟨"PUR_CNT_TAG", 0xF0050, 0x2000, 6, 0, 1, 0xFFFFFFFF, 0, 0, 0, 0, 0, 0⟩,
  ⟨"PUR_CNT_SRC", 0xF0054, 0x2000, 6, 0, 1, 0xFFFFFFFF, 0, 0, 0, 0, 0, 0⟩,
  ⟨"PUR_CNT_WINDOW", 0xF0058, 0x2000, 6, 0, 1, 0xFFFFFFFF, 0, 0, 0, 0, 0, 0⟩,
  ⟨"PUR_CNT_PROTO", 0xF005C, 0x2000, 6, 0, 1, 0xFFFFFFFF, 0, 0, 0, 0, 0, 0⟩,
  ⟨"PUR_CNT_GUARD", 0xF0060, 0x2000, 6, 0, 1, 0xFFFFFFFF, 0, 0, 0, 0, 0, 0⟩,
  ⟨"PUR_CNT_TX_FRAMES", 0xF0064, 0x2000, 6, 0, 1, 0xFFFFFFFF, 0, 0, 0, 0, 0, 0⟩,
  ⟨"PUR_DEV", 0xFC000, 0, 1, 0, 1, 0x80000FFF, 0, 0, 0, 0, 0x80000FFF, 0⟩,
  ⟨"PUR_ROUTE_CTRL", 0xFC004, 0, 1, 0, 1, 1, 0, 1, 0, 0, 0, 0⟩,
  ⟨"PUR_SWAP_BAY_LO", 0xFC008, 0, 1, 0, 1, 0xFFFFFFFF, 0xFFFFFFFF, 0, 0, 0, 0, 0⟩,
  ⟨"PUR_SWAP_BAY_HI", 0xFC00C, 0, 1, 0, 1, 0xFFFFFFFF, 0xFFFFFFFF, 0, 0, 0, 0, 0⟩,
  ⟨"PUR_ROUTE_STAT", 0xFC010, 0, 1, 0, 1, 0xF, 0, 0, 0xC, 0, 0, 0⟩,
  ⟨"PUR_MIRROR_CFG", 0xFC014, 0, 1, 0, 1, 0xF80FFFFF, 0, 0, 0, 0, 0xF80FFFFF, 0x29C4⟩,
  ⟨"PUR_MIRROR_STAT", 0xFC018, 0, 1, 0, 1, 0x3FFFF, 0, 0, 0x30000, 0, 0, 0⟩,
  ⟨"PUR_CNT_RETX", 0xFC040, 0, 1, 0, 1, 0xFFFFFFFF, 0, 0, 0, 0, 0, 0⟩,
  ⟨"PUR_CNT_GAP", 0xFC044, 0, 1, 0, 1, 0xFFFFFFFF, 0, 0, 0, 0, 0, 0⟩,
  ⟨"PUR_CNT_DUP", 0xFC048, 0, 1, 0, 1, 0xFFFFFFFF, 0, 0, 0, 0, 0, 0⟩,
  ⟨"PUR_CNT_SYNC", 0xFC04C, 0, 1, 0, 1, 0xFFFFFFFF, 0, 0, 0, 0, 0, 0⟩,
  ⟨"PUR_CNT_STALE", 0xFC050, 0, 1, 0, 1, 0xFFFFFFFF, 0, 0, 0, 0, 0, 0⟩,
  ⟨"PUR_CNT_HOP", 0xFC054, 0, 1, 0, 1, 0xFFFFFFFF, 0, 0, 0, 0, 0, 0⟩,
  ⟨"PUR_CNT_NOROUTE", 0xFC058, 0, 1, 0, 1, 0xFFFFFFFF, 0, 0, 0, 0, 0, 0⟩,
  ⟨"PUR_CNT_MIRROR", 0xFC05C, 0, 1, 0, 1, 0xFFFFFFFF, 0, 0, 0, 0, 0, 0⟩,
  ⟨"PUR_CNT_MIRROR_RETX", 0xFC060, 0, 1, 0, 1, 0xFFFFFFFF, 0, 0, 0, 0, 0, 0⟩,
  ⟨"PUR_CNT_MIRROR_LATE", 0xFC064, 0, 1, 0, 1, 0xFFFFFFFF, 0, 0, 0, 0, 0, 0⟩,
  ⟨"ETH_CFG", 0x110000, 0x400, 2, 0, 1, 0xF8000000, 0, 0, 0, 0, 0xF8000000, 0⟩,
  ⟨"ETH_STAT", 0x110004, 0x400, 2, 0, 1, 0xF0000007, 0, 0, 7, 0, 0, 0⟩,
  ⟨"ETH_MAC_LO", 0x110008, 0x400, 2, 0, 1, 0xFFFFFFFF, 0, 0, 0, 0, 0xFFFFFFFF, 0⟩,
  ⟨"ETH_MAC_HI", 0x11000C, 0x400, 2, 0, 1, 0xFFFF, 0, 0, 0, 0, 0xFFFF, 0⟩]

/-- The register map, part 7.
(Log: 134 DEDUCED.) -/
def regMap7 : List RegRow := [
  ⟨"ETH_CAL_RX", 0x110010, 0x400, 2, 0, 1, 0xFFFFFFFF, 0, 0, 0, 0, 0xFFFFFFFF, 0⟩,
  ⟨"ETH_CAL_TX", 0x110014, 0x400, 2, 0, 1, 0xFFFFFFFF, 0, 0, 0, 0, 0xFFFFFFFF, 0⟩,
  ⟨"ETH_TS_HDR", 0x110020, 0x400, 2, 0, 1, 0xE0F0FFFF, 0, 0, 0, 0, 0, 0⟩,
  ⟨"ETH_TS_TB0_LO", 0x110024, 0x400, 2, 0, 1, 0xFFFFFFFF, 0, 0, 0, 0, 0, 0⟩,
  ⟨"ETH_TS_TB0_HI", 0x110028, 0x400, 2, 0, 1, 0xFFFFFFFF, 0, 0, 0, 0, 0, 0⟩,
  ⟨"ETH_TS_TB1_LO", 0x11002C, 0x400, 2, 0, 1, 0xFFFFFFFF, 0, 0, 0, 0, 0, 0⟩,
  ⟨"ETH_TS_TB1_HI", 0x110030, 0x400, 2, 0, 1, 0xFFFFFFFF, 0, 0, 0, 0, 0, 0⟩,
  ⟨"ETH_TS_TB2_LO", 0x110034, 0x400, 2, 0, 1, 0xFFFFFFFF, 0, 0, 0, 0, 0, 0⟩,
  ⟨"ETH_TS_TB2_HI", 0x110038, 0x400, 2, 0, 1, 0xFFFFFFFF, 0, 0, 0, 0, 0, 0⟩,
  ⟨"ETH_CNT_RX", 0x110080, 0x400, 2, 0, 1, 0xFFFFFFFF, 0, 0, 0, 0, 0, 0⟩,
  ⟨"ETH_CNT_TX", 0x110084, 0x400, 2, 0, 1, 0xFFFFFFFF, 0, 0, 0, 0, 0, 0⟩,
  ⟨"ETH_CNT_FCS", 0x110088, 0x400, 2, 0, 1, 0xFFFFFFFF, 0, 0, 0, 0, 0, 0⟩,
  ⟨"ETH_CNT_DROP", 0x11008C, 0x400, 2, 0, 1, 0xFFFFFFFF, 0, 0, 0, 0, 0, 0⟩,
  ⟨"ETH_CNT_PTP", 0x110090, 0x400, 2, 0, 1, 0xFFFFFFFF, 0, 0, 0, 0, 0, 0⟩,
  ⟨"ETH_CNT_STREAM_DROP", 0x110094, 0x400, 2, 0, 1, 0xFFFFFFFF, 0, 0, 0, 0, 0, 0⟩,
  ⟨"HK_TEMP", 0x120000, 0, 1, 0, 1, 0xFFFF0000, 0, 0, 0, 0, 0, 0⟩,
  ⟨"HK_THR", 0x120004, 0, 1, 0, 1, 0xFFFF0000, 0, 0, 0, 0, 0xFFFF0000, 0⟩,
  ⟨"HK_STAT", 0x120008, 0, 1, 0, 1, 0x1F, 0, 0, 0x1F, 0, 0, 0⟩,
  ⟨"HK_SENS_BAD", 0x12000C, 0, 1, 0, 1, 0xFFFFFFFF, 0, 0, 0, 0, 0, 0⟩,
  ⟨"HK_VIN", 0x120010, 0, 1, 0, 1, 0xFFFF, 0, 0, 0, 0, 0, 0⟩,
  ⟨"HK_IIN", 0x120014, 0, 1, 0, 1, 0xFFFF, 0, 0, 0, 0, 0, 0⟩,
  ⟨"HK_PIN", 0x120018, 0, 1, 0, 1, 0xFFFF, 0, 0, 0, 0, 0, 0⟩,
  ⟨"HK_ENERGY_LO", 0x12001C, 0, 1, 0, 1, 0xFFFFFFFF, 0, 0, 0, 0, 0, 0⟩,
  ⟨"HK_ENERGY_HI", 0x120020, 0, 1, 0, 1, 0xFFFFFFFF, 0, 0, 0, 0, 0, 0⟩,
  ⟨"HK_FAN", 0x120030, 4, 4, 0, 1, 0xFFFFFFFF, 0, 0, 0x2000000, 0, 0, 0⟩,
  ⟨"HK_I2C", 0x120040, 4, 2, 0, 1, 0xF0000003, 0, 0, 0, 0, 1, 0⟩,
  ⟨"HK_PMB", 0x120080, 4, 32, 0, 1, 0xFFFFFFFF, 0, 0, 0, 0, 0, 0⟩,
  ⟨"HK_CNT_FAN_RESTART", 0x120100, 0, 1, 0, 1, 0xFFFFFFFF, 0, 0, 0, 0, 0, 0⟩,
  ⟨"HK_CNT_I2C_RECOVER", 0x120104, 0, 1, 0, 1, 0xFFFFFFFF, 0, 0, 0, 0, 0, 0⟩,
  ⟨"HK_CNT_I2C_ERR", 0x120108, 0, 1, 0, 1, 0xFFFFFFFF, 0, 0, 0, 0, 0, 0⟩,
  ⟨"HK_CNT_PMB_ERR", 0x12010C, 0, 1, 0, 1, 0xFFFFFFFF, 0, 0, 0, 0, 0, 0⟩,
  ⟨"SEC_STAT", 0x130000, 0, 1, 0, 1, 0xFE00003F, 0, 0, 0x3C, 0, 0, 0⟩,
  ⟨"SEC_LOAD_STAT", 0x130004, 0, 1, 0, 1, 0xFFFF0007, 0, 0, 0, 0, 0, 0⟩,
  ⟨"SEC_ROLLBACK", 0x130008, 0, 1, 0, 1, 0xFFFF, 0, 0, 0, 0, 0, 0⟩,
  ⟨"SEC_TAMPER", 0x13000C, 0, 1, 0, 1, 3, 0, 0, 0, 0, 0, 1⟩,
  ⟨"SEC_OWNER_HASH", 0x130040, 4, 12, 0, 1, 0xFFFFFFFF, 0, 0, 0, 0, 0, 0⟩,
  ⟨"SEC_SS_HASH", 0x130080, 4, 12, 0, 1, 0xFFFFFFFF, 0, 0, 0, 0, 0, 0⟩,
  ⟨"SEC_SEG_VALID", 0x1300C0, 4, 8, 0, 1, 0xFFFFFFFF, 0, 0, 0, 0, 0, 0⟩,
  ⟨"SEC_CNT_SESSIONS", 0x130100, 0, 1, 0, 1, 0xFFFFFFFF, 0, 0, 0, 0, 0, 0⟩,
  ⟨"SEC_CNT_CMD_OK", 0x130104, 0, 1, 0, 1, 0xFFFFFFFF, 0, 0, 0, 0, 0, 0⟩]

/-- The register map, part 8. -/
def regMap8 : List RegRow := [
  ⟨"SEC_CNT_CMD_REJ", 0x130108, 0, 1, 0, 1, 0xFFFFFFFF, 0, 0, 0, 0, 0, 0⟩,
  ⟨"SEC_CNT_LOAD_REJ", 0x13010C, 0, 1, 0, 1, 0xFFFFFFFF, 0, 0, 0, 0, 0, 0⟩,
  ⟨"SEC_CNT_SKIP", 0x130110, 0, 1, 0, 1, 0xFFFFFFFF, 0, 0, 0, 0, 0, 0⟩,
  ⟨"SEC_CNT_LOG_AUTH", 0x130114, 0, 1, 0, 1, 0xFFFFFFFF, 0, 0, 0, 0, 0, 0⟩,
  ⟨"SEC_CNT_TAMPER", 0x130118, 0, 1, 0, 1, 0xFFFFFFFF, 0, 0, 0, 0, 0, 0⟩,
  ⟨"MB_STAT", 0x140000, 0, 1, 0, 1, 0xF000FFFF, 0, 0, 0, 0, 0, 0⟩,
  ⟨"MB_HEARTBEAT", 0x140004, 0, 1, 0, 1, 0xFFFFFFFF, 0, 0, 0, 0, 0, 0⟩,
  ⟨"RC_BAY_CFG", 0x1000000, 0, 1, 0, 1, 0x3F1F07, 0, 0, 0, 0, 0x3F1F07, 2⟩,
  ⟨"RC_BAY_RESERVE", 0x1000004, 0, 1, 0, 1, 0xFF, 0, 0, 0, 0, 0xFF, 0x14⟩,
  ⟨"RC_BAY_INDEX_LO", 0x1000008, 0, 1, 0, 1, 0xFFFFFFFF, 0, 0, 0, 0, 0, 0⟩,
  ⟨"RC_BAY_INDEX_HI", 0x100000C, 0, 1, 0, 1, 0xFFFFFFFF, 0, 0, 0, 0, 0, 0⟩,
  ⟨"RC_BAY_STAT", 0x1000010, 0, 1, 0, 1, 0x3F, 0, 0, 0x3F, 0, 0, 0⟩,
  ⟨"RC_SLACK_MIN", 0x1000014, 0, 1, 0, 1, 0x3FFFFF, 0, 0, 0, 0, 0, 0x3FFFFF⟩,
  ⟨"RC_STALE_COUNT", 0x1000018, 0, 1, 0, 1, 0xFFFFFFFF, 0, 0, 0, 0, 0, 0⟩,
  ⟨"RC_BG_ROLLBACK", 0x100001C, 0, 1, 0, 1, 0xFFFFFFFF, 0, 0, 0, 0, 0, 0⟩,
  ⟨"RC_JOB_CTRL", 0x1000100, 4, 128, 0, 1, 7, 0, 7, 0, 7, 1, 0⟩,
  ⟨"RC_JOB_STAT", 0x1000300, 4, 128, 0, 1, 0xFC00FFFF, 0, 0, 0xC000000, 0, 0xC000FFFF, 0⟩,
  ⟨"RC_JOB_OVR", 0x1000500, 4, 128, 0, 1, 0xFFFFFFFF, 0, 0, 0, 0, 0, 0⟩,
  ⟨"RC_JOB_ABORT", 0x1000700, 4, 128, 0, 1, 0xFFFFFFFF, 0, 0, 0, 0, 0, 0⟩,
  ⟨"ADAPT_CFG", 0x1000A00, 0x40, 8, 0, 1, 0xFFFF07FF, 0, 0, 0, 0, 0xFFFF07FF, 0x2000100⟩,
  ⟨"ADAPT_STAT", 0x1000A04, 0x40, 8, 0, 1, 0xFFFC000F, 0, 0, 0xF, 0, 0, 0⟩,
  ⟨"ADAPT_CTRL", 0x1000A08, 0x40, 8, 0, 1, 1, 0, 0, 1, 0, 0, 0⟩,
  ⟨"ADAPT_STORE", 0x1000A0C, 0x40, 8, 0, 1, 0x7FFFF, 0, 0, 0, 0, 0, 0⟩,
  ⟨"ADAPT_VAL", 0x1000A10, 0x40, 8, 0, 1, 0xFFFFFFFF, 0, 0, 0, 0, 0, 0⟩,
  ⟨"ADAPT_CAND_LO", 0x1000A14, 0x40, 8, 0, 1, 0xFFFFFFFF, 0, 0, 0, 0, 0, 0⟩,
  ⟨"ADAPT_CAND_HI", 0x1000A18, 0x40, 8, 0, 1, 0xFFFFFFFF, 0, 0, 0, 0, 0, 0⟩,
  ⟨"ADAPT_ACTIVE_LO", 0x1000A1C, 0x40, 8, 0, 1, 0xFFFFFFFF, 0, 0, 0, 0, 0, 0⟩,
  ⟨"ADAPT_ACTIVE_HI", 0x1000A20, 0x40, 8, 0, 1, 0xFFFFFFFF, 0, 0, 0, 0, 0, 0⟩,
  ⟨"ADAPT_CNT_CAPT", 0x1000A24, 0x40, 8, 0, 1, 0xFFFFFFFF, 0, 0, 0, 0, 0, 0⟩,
  ⟨"ADAPT_CNT_SKIP", 0x1000A28, 0x40, 8, 0, 1, 0xFFFFFFFF, 0, 0, 0, 0, 0, 0⟩,
  ⟨"ADAPT_CNT_STEP", 0x1000A2C, 0x40, 8, 0, 1, 0xFFFFFFFF, 0, 0, 0, 0, 0, 0⟩,
  ⟨"TXT_STAT", 0x1000C00, 0, 1, 0, 1, 0xFFF0007F, 0, 0, 0, 0, 0x7F, 0⟩,
  ⟨"TXT_CNT_QUERY", 0x1000C04, 0, 1, 0, 1, 0xFFFFFFFF, 0, 0, 0, 0, 0, 0⟩,
  ⟨"TXT_CNT_REFUSED", 0x1000C08, 0, 1, 0, 1, 0xFFFFFFFF, 0, 0, 0, 0, 0, 0⟩,
  ⟨"HBM_CFG", 0x1020000, 0, 1, 0, 1, 0x3FFFFFF, 0, 0, 0, 0, 0, 0x2400048⟩,
  ⟨"HBM_STAT", 0x1020004, 0, 1, 0, 1, 0x1F1F, 0, 0, 0x707, 0, 0, 0⟩,
  ⟨"HBM_TEMP", 0x1020008, 0, 1, 0, 1, 0xFFFF, 0, 0, 0, 0, 0, 0⟩,
  ⟨"HBM_ERR_LO", 0x1020010, 0, 1, 0, 1, 0xFFFFFFFF, 0, 0, 0, 0, 0, 0⟩,
  ⟨"HBM_ERR_HI", 0x1020014, 0, 1, 0, 1, 0x8000001F, 0, 0, 0, 0, 0, 0⟩,
  ⟨"HBM_CNT_CE", 0x1020020, 0, 1, 0, 1, 0xFFFFFFFF, 0, 0, 0, 0, 0, 0⟩]

/-- The register map, part 9. -/
def regMap9 : List RegRow := [
  ⟨"HBM_CNT_UE", 0x1020024, 0, 1, 0, 1, 0xFFFFFFFF, 0, 0, 0, 0, 0, 0⟩,
  ⟨"HBM_CNT_RETRY", 0x1020028, 0, 1, 0, 1, 0xFFFFFFFF, 0, 0, 0, 0, 0, 0⟩,
  ⟨"BENT_STAT", 0x1100000, 0x10000, 32, 0, 1, 0xF000007F, 0, 0, 0x7F, 0, 0, 0⟩,
  ⟨"BENT_CUR", 0x1100004, 0x10000, 32, 0, 1, 0xFF003FFF, 0, 0, 0, 0, 0, 0⟩,
  ⟨"BENT_BUSY", 0x1100008, 0x10000, 32, 0, 1, 0x3FFFFF, 0, 0, 0, 0, 0, 0⟩,
  ⟨"BENT_HBM_WAIT", 0x110000C, 0x10000, 32, 0, 1, 0x3FFFFF, 0, 0, 0, 0, 0, 0⟩,
  ⟨"BENT_CNT_CMD", 0x1100010, 0x10000, 32, 0, 1, 0xFFFFFFFF, 0, 0, 0, 0, 0, 0⟩,
  ⟨"BENT_CNT_SAT", 0x1100014, 0x10000, 32, 0, 1, 0xFFFFFFFF, 0, 0, 0, 0, 0, 0⟩,
  ⟨"BENT_CNT_NAN", 0x1100018, 0x10000, 32, 0, 1, 0xFFFFFFFF, 0, 0, 0, 0, 0, 0⟩,
  ⟨"BENT_CNT_STOP", 0x110001C, 0x10000, 32, 0, 1, 0xFFFFFFFF, 0, 0, 0, 0, 0, 0⟩,
  ⟨"BENT_SRAM_STAT", 0x1100100, 0x10000, 32, 0, 1, 0xF, 0, 0, 0xF, 0, 0, 0⟩,
  ⟨"BENT_SRAM_CFG", 0x1100104, 0x10000, 32, 0, 1, 0x8000FFFF, 0x8000FFFF, 0, 0, 0, 0x8000FFFF, 0x800003E8⟩,
  ⟨"BENT_SCRUB_LAP", 0x1100108, 0x10000, 32, 0, 1, 0xFFFFFFFF, 0, 0, 0, 0, 0, 0⟩,
  ⟨"BENT_SCRUB_WORST", 0x110010C, 0x10000, 32, 0, 1, 0xFFFFFFFF, 0, 0, 0, 0, 0, 0⟩,
  ⟨"BENT_SRAM_ERR", 0x1100110, 0x10000, 32, 0, 1, 0xC07FFFFF, 0, 0, 0, 0, 0, 0⟩,
  ⟨"BENT_SRAM_REPAIR", 0x1100114, 0x10000, 32, 4, 2, 0xFFFFFFFF, 0, 0, 0, 0, 0, 0⟩,
  ⟨"BENT_CNT_CE", 0x1100120, 0x10000, 32, 0, 1, 0xFFFFFFFF, 0, 0, 0, 0, 0, 0⟩,
  ⟨"BENT_CNT_UE", 0x1100124, 0x10000, 32, 0, 1, 0xFFFFFFFF, 0, 0, 0, 0, 0, 0⟩,
  ⟨"BENT_CNT_COLL", 0x1100128, 0x10000, 32, 0, 1, 0xFFFFFFFF, 0, 0, 0, 0, 0, 0⟩,
  ⟨"BENT_CNT_LAPS", 0x110012C, 0x10000, 32, 0, 1, 0xFFFFFFFF, 0, 0, 0, 0, 0, 0⟩,
  ⟨"BENT_CNT_DMA", 0x1100130, 0x10000, 32, 0, 1, 0xFFFFFFFF, 0, 0, 0, 0, 0, 0⟩,
  ⟨"ATT_STAT", 0x1300000, 0, 1, 0, 1, 0xF00001FF, 0, 0, 0x1FF, 0, 0, 0⟩,
  ⟨"ATT_CNT_CMD", 0x1300010, 0, 1, 0, 1, 0xFFFFFFFF, 0, 0, 0, 0, 0, 0⟩,
  ⟨"ATT_CNT_ROWS", 0x1300014, 0, 1, 0, 1, 0xFFFFFFFF, 0, 0, 0, 0, 0, 0⟩,
  ⟨"ATT_CNT_GAP", 0x1300018, 0, 1, 0, 1, 0xFFFFFFFF, 0, 0, 0, 0, 0, 0⟩,
  ⟨"ATT_CNT_DUP", 0x130001C, 0, 1, 0, 1, 0xFFFFFFFF, 0, 0, 0, 0, 0, 0⟩,
  ⟨"ATT_CNT_FULL", 0x1300020, 0, 1, 0, 1, 0xFFFFFFFF, 0, 0, 0, 0, 0, 0⟩,
  ⟨"ATT_CNT_BAD", 0x1300024, 0, 1, 0, 1, 0xFFFFFFFF, 0, 0, 0, 0, 0, 0⟩,
  ⟨"ATT_CNT_EMPTY", 0x1300028, 0, 1, 0, 1, 0xFFFFFFFF, 0, 0, 0, 0, 0, 0⟩,
  ⟨"ATT_CNT_STOP", 0x130002C, 0, 1, 0, 1, 0xFFFFFFFF, 0, 0, 0, 0, 0, 0⟩,
  ⟨"ATT_RING_CFG", 0x1300100, 0x20, 64, 0, 1, 0xFFFFFFFF, 0, 0, 0, 0, 0xFFFFFFFF, 0⟩,
  ⟨"ATT_RING_LAST_LO", 0x1300104, 0x20, 64, 0, 1, 0xFFFFFFFF, 0, 0, 0, 0, 0, 0⟩,
  ⟨"ATT_RING_LAST_HI", 0x1300108, 0x20, 64, 0, 1, 0xFFFF, 0, 0, 0, 0, 0, 0⟩,
  ⟨"ATT_RING_STAT", 0x130010C, 0x20, 64, 0, 1, 7, 0, 0, 7, 0, 0, 0⟩,
  ⟨"SPEC_STAT", 0x1310000, 0, 1, 0, 1, 0xF000000F, 0, 0, 0xF, 0, 0, 0⟩,
  ⟨"SPEC_CNT_CMD", 0x1310010, 0, 1, 0, 1, 0xFFFFFFFF, 0, 0, 0, 0, 0, 0⟩,
  ⟨"SPEC_CNT_TILES", 0x1310014, 0, 1, 0, 1, 0xFFFFFFFF, 0, 0, 0, 0, 0, 0⟩,
  ⟨"SPEC_CNT_STOP", 0x1310018, 0, 1, 0, 1, 0xFFFFFFFF, 0, 0, 0, 0, 0, 0⟩,
  ⟨"PP_STAT", 0x1320000, 0, 1, 0, 1, 0xF0000007, 0, 0, 7, 0, 0, 0⟩,
  ⟨"PP_ROW_STAT", 0x1320100, 0x40, 16, 0, 1, 0x3F, 0, 0, 0x3F, 0, 0, 0⟩]

/-- The register map, part 10. -/
def regMap10 : List RegRow := [
  ⟨"PP_CNT_CAND", 0x1320104, 0x40, 16, 0, 1, 0xFFFFFFFF, 0, 0, 0, 0, 0, 0⟩,
  ⟨"PP_CNT_OBJ", 0x1320108, 0x40, 16, 0, 1, 0xFFFFFFFF, 0, 0, 0, 0, 0, 0⟩,
  ⟨"PP_CNT_INDET", 0x132010C, 0x40, 16, 0, 1, 0xFFFFFFFF, 0, 0, 0, 0, 0, 0⟩,
  ⟨"PP_CNT_CAND_OVF", 0x1320110, 0x40, 16, 0, 1, 0xFFFFFFFF, 0, 0, 0, 0, 0, 0⟩,
  ⟨"PP_CNT_OBJ_OVF", 0x1320114, 0x40, 16, 0, 1, 0xFFFFFFFF, 0, 0, 0, 0, 0, 0⟩,
  ⟨"PP_CNT_CARRY_LOST", 0x1320118, 0x40, 16, 0, 1, 0xFFFFFFFF, 0, 0, 0, 0, 0, 0⟩,
  ⟨"PP_CNT_MERGED", 0x132011C, 0x40, 16, 0, 1, 0xFFFFFFFF, 0, 0, 0, 0, 0, 0⟩,
  ⟨"PP_CNT_FORCED", 0x1320120, 0x40, 16, 0, 1, 0xFFFFFFFF, 0, 0, 0, 0, 0, 0⟩,
  ⟨"WIT_CFG", 0x1330000, 0, 1, 0, 1, 0xFFC03FFF, 0, 0, 0, 0, 0xFFC03FFF, 0x800100⟩,
  ⟨"WIT_STAT", 0x1330004, 0, 1, 0, 1, 0xFFFF003F, 0, 0, 0x3F, 0, 0, 0⟩,
  ⟨"WIT_Q_CTRL", 0x1330010, 0, 1, 0, 1, 0xE07FFFFF, 0x7FFFFF, 0, 0x80000000, 0x807FFFFF, 0, 0⟩,
  ⟨"WIT_Q_KEY_LO", 0x1330014, 0, 1, 0, 1, 0xFFFFFFFF, 0xFFFFFFFF, 0, 0, 0xFFFFFFFF, 0, 0⟩,
  ⟨"WIT_Q_KEY_HI", 0x1330018, 0, 1, 0, 1, 0xFFFFFFFF, 0xFFFFFFFF, 0, 0, 0xFFFFFFFF, 0, 0⟩,
  ⟨"WIT_Q_MARK_LO", 0x133001C, 0, 1, 0, 1, 0xFFFFFFFF, 0, 0, 0, 0, 0, 0⟩,
  ⟨"WIT_Q_MARK_HI", 0x1330020, 0, 1, 0, 1, 0xFFFFFFFF, 0, 0, 0, 0, 0, 0⟩,
  ⟨"WIT_Q_ELEM_LO", 0x1330024, 0, 1, 0, 1, 0xFFFFFFFF, 0, 0, 0, 0, 0, 0⟩,
  ⟨"WIT_Q_ELEM_HI", 0x1330028, 0, 1, 0, 1, 0xFFFFFFFF, 0, 0, 0, 0, 0, 0⟩,
  ⟨"WIT_Q_LAYER", 0x133002C, 0, 1, 0, 1, 0xFFFFFFFF, 0, 0, 0, 0, 0, 0⟩,
  ⟨"WIT_LOCK_FIRST", 0x1330030, 0, 1, 0, 1, 0xC001FFFF, 0, 0, 0, 0, 0, 0⟩,
  ⟨"WIT_LOCK_KEY_LO", 0x1330034, 0, 1, 0, 1, 0xFFFFFFFF, 0, 0, 0, 0, 0, 0⟩,
  ⟨"WIT_LOCK_KEY_HI", 0x1330038, 0, 1, 0, 1, 0xFFFFFFFF, 0, 0, 0, 0, 0, 0⟩,
  ⟨"WIT_CNT_REC", 0x1330040, 0, 1, 0, 1, 0xFFFFFFFF, 0, 0, 0, 0, 0, 0⟩,
  ⟨"WIT_CNT_GAP", 0x1330044, 0, 1, 0, 1, 0xFFFFFFFF, 0, 0, 0, 0, 0, 0⟩,
  ⟨"WIT_CNT_DROP", 0x1330048, 0, 1, 0, 1, 0xFFFFFFFF, 0, 0, 0, 0, 0, 0⟩,
  ⟨"WIT_CNT_MATCH", 0x133004C, 0, 1, 0, 1, 0xFFFFFFFF, 0, 0, 0, 0, 0, 0⟩,
  ⟨"WIT_CNT_MISMATCH", 0x1330050, 0, 1, 0, 1, 0xFFFFFFFF, 0, 0, 0, 0, 0, 0⟩,
  ⟨"WIT_CNT_SKIP", 0x1330054, 0, 1, 0, 1, 0xFFFFFFFF, 0, 0, 0, 0, 0, 0⟩,
  ⟨"WIT_CNT_MISSING", 0x1330058, 0, 1, 0, 1, 0xFFFFFFFF, 0, 0, 0, 0, 0, 0⟩]

/-- The register map. -/
def regMap : List RegRow :=
  regMap0 ++ regMap1 ++ regMap2 ++ regMap3 ++ regMap4 ++ regMap5 ++ regMap6 ++ regMap7 ++ regMap8 ++ regMap9 ++ regMap10

end Sys2Proof.Machine
end

