-- ==== Sys2Proof/Machine/RegReset.lean ====
section
/-!
DEFINITION. Sys2Proof/Machine/RegReset.lean: the register table after power-on reset: each register at the reset word of
the register map, and the configured and effective severity of every fault source at the default of R471.
-/
namespace Sys2Proof.Machine

/-- The default severity of source `i` of the Sill collector (R471); 3 for the fixed sources, 0 for unused numbers. -/
def sillSev : Nat → Nat
  | 0 | 1 | 2 | 3 | 5 | 12 => 3
  | 4 | 6 | 8 | 18 | 22 | 32 | 37 => 2
  | 9 | 10 | 11 | 16 | 17 | 19 | 20 | 25 | 26 | 27 | 28 | 29 | 30 | 33 | 34 | 35 | 36 | 38 | 40 | 41 | 42 | 44 => 1
  | _ => 0

/-- The default severity of source `i` of the Ridge collector (R471). -/
def ridgeSev (i : Nat) : Nat :=
  match i with
  | 0 => 3
  | 1 | 3 | 6 | 8 | 11 | 12 | 13 => 2
  | 4 | 5 | 7 | 9 | 14 => 1
  | _ => if 32 ≤ i ∧ i ≤ 63 then 2 else 0

/-- The shed flag's default: 1 for the thermal warning sources (R471). -/
def shedDefault (half i : Nat) : Nat := if (half = 0 ∧ i = 7) ∨ (half = 1 ∧ i = 2) then 1 else 0

/-- A source of fixed severity 3 (R457, R471). -/
def sevFixed (half i : Nat) : Bool :=
  if half = 0 then i == 0 || i == 1 || i == 2 || i == 3 || i == 5 || i == 12 else i == 0

/-- The sources of R471: a number that is not listed is unused and never asserts. -/
def srcUsed (half i : Nat) : Bool :=
  if half = 0 then i ≤ 12 || (16 ≤ i && i ≤ 30 && i != 23) || (32 ≤ i && i ≤ 44 && i != 39 && i != 43)
  else i ≤ 14 || (32 ≤ i && i ≤ 63)

/-- The default severity of a source. -/
def defaultSev (half i : Nat) : Nat := if half = 0 then sillSev i else ridgeSev i

/-- The reset word of FLT_SRC[i] (R474): sev_cfg and sev_eff at the default, N = 4, k = 10. -/
def fltSrcReset (half i : Nat) : Word :=
  BitVec.ofNat 32 (defaultSev half i * 2 ^ 30 + defaultSev half i * 2 ^ 28 + 4 * 2 ^ 24 + 10 * 2 ^ 20 + shedDefault half i * 2)

/-- The registers of `n` windows, `stride` apart from `base`: the same offsets and reset words in each. -/
def resetWindows (base stride n : Nat) (l : List (Nat × Word)) : Tab Word :=
  (List.range n).flatMap fun i => l.map fun p => (base + stride * i + p.1, p.2)

/-- The FLT_SRC registers of one collector (R474). -/
def resetFltSrc (half : Nat) : Tab Word := (List.range 128).map fun i => (R.FLT_SRC half i, fltSrcReset half i)

/-- The register table after power-on reset, in rising address order: the reset words of the register map that are not 0.
A field whose reset is "from story stick" stands at the default its chapter gives, else at 0 (R515).
(Log: 9 DESIGN CHOICE.) -/
def regReset : Tab Word :=
  [(R.DEV_ID, 0x48960000), (R.DEV_TAG, 0xA1000000), (R.SZ_0, 0x4802C020), (R.SZ_1, 0x4300800), (R.SZ_2, 0x80082A3A),
   (R.SZ_3, 0x400680)] ++
  resetFltSrc 0 ++
  [(R.SUP_MODE, 0xC0000000), (R.SUP_CFG, 0x640014),
   (R.TM_CFG, 0x17464), (R.TM_LIMITS, 0xE10C810), (R.TM_JUMP, 0x400003E8), (R.TM_TB0_INC_HI, 4), (R.TM_TB1_INC_HI, 4)] ++
  resetWindows (R.ENC_CFG 0) 0x100 8 [(0, 0x50), (4, 0x88000000), (8, 0x323040), (0xC, 0x2000000)] ++
  resetWindows (R.CXP_TRIG_CFG 0) 0x400 48 [(0, 0x10000), (8, 0xA3C01F4)] ++
  resetWindows (R.LP_STRIP_CFG 0) 0x800 48 [(0, 0x1000000)] ++
  [(R.STUD_CFG, 0x80)] ++
  resetWindows (R.SCR_ROW_CFG 0) 0x40 8 [(0, 0x400BB8), (4, 0x40400000)] ++
  resetWindows (R.SCR_ROW_CFG 8) 0x40 8 [(4, 0x40400000)] ++
  [(R.CM_CFG, 0x21550040), (R.CM_KEY, 1), (R.TN_CFG, 0x190008)] ++
  resetWindows (R.PUR_FEC_CFG 0) 0x2000 6 [(0, 0x40)] ++
  [(R.PUR_MIRROR_CFG, 0x29C4), (R.SEC_TAMPER, 1), (R.RC_BAY_CFG, 2), (R.RC_BAY_RESERVE, 20), (R.RC_SLACK_MIN, 0x3FFFFF)] ++
  resetWindows (R.ADAPT_CFG 0) 0x40 8 [(0, 0x2000100)] ++
  resetFltSrc 1 ++
  [(R.HBM_CFG, 0x2400048)] ++
  resetWindows (R.BENT_SRAM_CFG 0) 0x10000 32 [(0, 0x800003E8)] ++
  [(R.WIT_CFG, 0x800100)]

end Sys2Proof.Machine
end

