-- ==== Sys2Proof/Machine/State.lean ====
section
/-!
DEFINITION. Sys2Proof/Machine/State.lean: the module's whole state, the reasons a step can stop, and the state right after
power-on reset.
-/
namespace Sys2Proof.Machine

/-- Why a command stops.
(Log: 5 DESIGN CHOICE.) -/
inductive Fault where
  /-- The command names a unit the part does not have (a link above 47, a bent above 31, a port, a row, a job number
  outside its range). Raised by every meaning whose operands name a unit. Safe: the spec gives no such command. -/
  | noSuchUnit
  deriving DecidableEq, Repr

/-- Why a command has no meaning. -/
inductive Refusal where
  /-- The command's meaning is not written yet. Raised by the dispatch only. Safe. -/
  | notModelled (mnemonic : String)
  deriving DecidableEq, Repr

/-- The module: its registers (R11; `regs` lists every register that is not 0), and the state that no register holds. `mem`
holds every byte-addressed memory, by the global addresses of Machine/Mem.lean (R238, R252, R257); `sramValid` the valid
granules of bent SRAM (R239) and `sramBad` those whose code is uncorrectable (R246), by granule. `latches` holds the words that
a read of a _LO register has latched (R55), by the address they are read at. `fresh` marks the ST and W1C bits that hardware has set in
the present cycle (R12), by register. -/
structure Chip where
  regs : Tab Word := []
  time : TimeState := {}
  encs : Tab EncPort := []
  fire : FireState := {}
  pegs : Tab PegPort := []
  fio : FioState := {}
  sup : SupState := {}
  boot : BootState := {}
  bays : BayState := {}
  engs : Tab EngState := []
  mem : Tab Byte := []
  sramValid : Tab Bool := []
  sramBad : List Nat := []
  stick : Stick := {}
  wit : WitState := {}
  cams : Tab CamState := []
  pocs : Tab PocState := []
  pipes : Tab PipeState := []
  rowPipes : Tab RowPipe := []
  replays : Tab ReplayState := []
  screens : Tab RowScreen := []
  pp : PpState := {}
  tenon : TenonState := {}
  purlin : PurlinState := {}
  latches : Tab (Option Word) := []
  fresh : Tab Word := []
  heads : Tab HeadState := []
  eth : Tab EthPort := []
  subs : List Sub := []
  trust : TrustState := {}
  text : TextState := {}
  hk : HkState := {}
  nvLog : List NvEntry := []
  out : List Emit := []
  free : Nat := 0
  deriving DecidableEq, Repr

/-- The module with the commands that wait, first in, first out.
(Log: 3 DESIGN CHOICE.) -/
structure State where
  m : Chip
  pending : List Instr
  deriving DecidableEq, Repr

/-- The module after power-on reset (R480, R482): every register at its reset value, SAFE held (R475), the time bases
at 0 and unset (R409), the straps open and sampled as 1 (R483, R495), everything else empty.
(Log: 9 DESIGN CHOICE, 10 DEDUCED.) -/
def State.reset : State := { m := { regs := tabSet 0 regReset R.RP_STRAP 0xF }, pending := [] }

end Sys2Proof.Machine
end

