-- ==== Sys2Proof/Machine/Ops.lean ====
section
/-!
DEFINITION. Sys2Proof/Machine/Ops.lean: the named operations the meanings are written over: register fields and counters,
the clocks, outputs, per-unit state, and the form in which a meaning answers.
-/
namespace Sys2Proof.Machine

/-! ### Registers (R11, R12) -/

/-- The word a register holds. -/
def Chip.rd (m : Chip) (a : Nat) : Word := tabGet 0 m.regs a
/-- A register given a word. -/
def Chip.wr (m : Chip) (a : Nat) (v : Word) : Chip := { m with regs := tabSet 0 m.regs a v }
/-- A field's value in a word. -/
def fldOf (w : Word) (f : Fld) : Nat := bitsN w.toNat f.hi f.lo
/-- A word with a field replaced; the value is cut to the field's width. -/
def fldIns (w : Word) (f : Fld) (v : Nat) : Word :=
  BitVec.ofNat 32 (w.toNat - fldOf w f * 2 ^ f.lo + v % 2 ^ (f.hi - f.lo + 1) * 2 ^ f.lo)
def Chip.get (m : Chip) (f : Fld) : Nat := fldOf (m.rd f.addr) f
def Chip.put (m : Chip) (f : Fld) (v : Nat) : Chip := m.wr f.addr (fldIns (m.rd f.addr) f v)
def Chip.flag (m : Chip) (f : Fld) : Bool := m.get f != 0
/-- Hardware sets bit `i` of a register in this cycle: a clearing write of the same cycle leaves it set (R12). -/
def Chip.markFresh (a i : Nat) (m : Chip) : Chip := { m with fresh := tabSet 0 m.fresh a (tabGet 0 m.fresh a ||| 1#32 <<< i) }
/-- Set a sticky flag (R12, code ST). -/
def Chip.setFlag (m : Chip) (f : Fld) : Chip := (m.put f 1).markFresh f.addr f.lo
def Chip.setFlagIf (m : Chip) (c : Bool) (f : Fld) : Chip := if c then m.setFlag f else m
/-- Count up by `n`, saturating at 0xFFFF_FFFF. -/
def Chip.bumpBy (m : Chip) (a n : Nat) : Chip := m.wr a (BitVec.ofNat 32 (min 0xFFFFFFFF ((m.rd a).toNat + n)))
/-- Count up by one, saturating at 0xFFFF_FFFF. -/
def Chip.bump (m : Chip) (a : Nat) : Chip := m.bumpBy a 1
def Chip.bumpIf (m : Chip) (c : Bool) (a : Nat) : Chip := if c then m.bump a else m
/-- Put a 64-bit value into a pair of registers. -/
def Chip.wr64 (m : Chip) (lo hi : Nat) (v : Nat) : Chip :=
  (m.wr lo (BitVec.ofNat 32 v)).wr hi (BitVec.ofNat 32 (v / 2 ^ 32))
def Chip.rd64 (m : Chip) (lo hi : Nat) : Nat := (m.rd lo).toNat + 2 ^ 32 * (m.rd hi).toNat
/-- Set bit `i` of a register. -/
def Chip.setBit (m : Chip) (a i : Nat) : Chip := (m.put ⟨a, i, i⟩ 1).markFresh a i
def Chip.clrBit (m : Chip) (a i : Nat) : Chip := m.put ⟨a, i, i⟩ 0
def Chip.bit (m : Chip) (a i : Nat) : Bool := m.flag ⟨a, i, i⟩

/-! ### Outputs, the log, free values -/

/-- Log: 12 DEDUCED. -/
def Chip.emit (m : Chip) (e : Emit) : Chip := { m with out := m.out ++ [e] }
/-- A record of the NV log (R526); with BOOT_SRC 10 there is no NV log (R483). -/
def Chip.log (m : Chip) (what : String) (args : List Nat) : Chip :=
  if m.get F.RP_STRAP_boot_src = 2 then m
  else { m with nvLog := m.nvLog ++ [{ seq := m.nvLog.length, what, args }] }
/-- The next free value of the run, and the module after drawing it.
(Log: 11 DESIGN CHOICE.) -/
def Chip.draw (m : Chip) : Nat × Chip := (Config.free m.free, { m with free := m.free + 1 })

/-! ### Clocks (R407, R419) -/

/-- The ns of a time base. -/
def nsOf (t : BitVec 96) : Nat := t.toNat / 2 ^ 32
/-- A time base at a whole number of ns. -/
def ofNs (ns : Nat) : BitVec 96 := BitVec.ofNat 96 (ns * 2 ^ 32)
def Chip.tb0 (m : Chip) : Nat := nsOf m.time.tb0
def Chip.tb1 (m : Chip) : Nat := nsOf m.time.tb1
def Chip.tb3 (m : Chip) : Nat := nsOf m.time.tb3
/-- TB2 in ns: the clock of every interval the module measures.
(Log: 16 DEDUCED.) -/
def Chip.now (m : Chip) : Nat := nsOf m.time.tb2
/-- The timing-clock cycles of TB2 (4 ns each). -/
def Chip.cyc (m : Chip) : Nat := m.now / 4

/-- The correction of TB3 in one cycle, in 2⁻³² ns (R419): inc0 · r rounded half to even, where r is −d/2²⁰ ns held
within ±slew_max ppm and d is TB3 − TB0. -/
def slewOf (slewMax inc0 : Nat) (d : Int) : Int :=
  if (slewMax : Int) * 2 ^ 52 ≤ (d.natAbs : Int) * 10 ^ 6 then
    (if d < 0 then rneDiv ((inc0 : Int) * slewMax) (10 ^ 6) else rneDiv (-((inc0 : Int) * slewMax)) (10 ^ 6))
  else rneDiv (-((inc0 : Int) * d)) (2 ^ 52)

/-- One timing-clock cycle (R407, R419).
(Log: 2 DESIGN CHOICE.) -/
def tickOnce (slewMax : Nat) (t : TimeState) : TimeState :=
  let d := (t.tb3 - t.tb0).toInt
  { t with
    tb0 := t.tb0 + BitVec.ofNat 96 t.inc0
    tb1 := t.tb1 + BitVec.ofNat 96 t.inc1
    tb2 := t.tb2 + BitVec.ofNat 96 0x400000000
    tb3 := t.tb3 + BitVec.ofNat 96 t.inc0 + BitVec.ofInt 96 (slewOf slewMax t.inc0 d) }

/-- `n` cycles with TB3 adding TB0's increment alone: while the two agree, and while realignment is due (R488).
(Log: 2 DESIGN CHOICE.) -/
def tickFlat (n : Nat) (t : TimeState) : TimeState :=
  { t with
    tb0 := t.tb0 + BitVec.ofNat 96 (n * t.inc0)
    tb1 := t.tb1 + BitVec.ofNat 96 (n * t.inc1)
    tb2 := t.tb2 + BitVec.ofNat 96 (n * 0x400000000)
    tb3 := t.tb3 + BitVec.ofNat 96 (n * t.inc0) }

/-- `n` timing-clock cycles.
(Log: 2 DESIGN CHOICE.) -/
def ticks (slewMax : Nat) (flat : Bool) : Nat → TimeState → TimeState
  | 0, t => t
  | n + 1, t => if flat || t.tb3 == t.tb0 then tickFlat (n + 1) t else ticks slewMax flat n (tickOnce slewMax t)

/-- Let `dt` timing-clock cycles pass.
(Log: 2 DESIGN CHOICE, 4 DESIGN CHOICE, 16 DEDUCED.) -/
def elapse (dt : Nat) (m : Chip) : Chip :=
  { m with time := ticks (m.get F.TM_LIMITS_slew_max) (m.flag F.RP_BOOT_FLAGS_realign_due) dt m.time
           fresh := if dt = 0 then m.fresh else [] }

/-- A number of `n` bytes of the descriptor segment, least significant first (R8). -/
def Chip.descNum (m : Chip) (a n : Nat) : Nat := ofLeBytes ((upTo n).map fun i => tabGet 0 m.stick.desc (a + i))

/-! ### Per-unit state -/

def Chip.enc (m : Chip) (p : Nat) : EncPort := tabGet {} m.encs p
def Chip.setEnc (m : Chip) (p : Nat) (e : EncPort) : Chip := { m with encs := tabSet {} m.encs p e }
def Chip.peg (m : Chip) (p : Nat) : PegPort := tabGet {} m.pegs p
def Chip.setPeg (m : Chip) (p : Nat) (e : PegPort) : Chip := { m with pegs := tabSet {} m.pegs p e }
def Chip.src (m : Chip) (h i : Nat) : SrcState := tabGet {} m.sup.srcs (128 * h + i)
def Chip.setSrc (m : Chip) (h i : Nat) (e : SrcState) : Chip :=
  { m with sup := { m.sup with srcs := tabSet {} m.sup.srcs (128 * h + i) e } }
def Chip.head (m : Chip) (h : Nat) : HeadState := tabGet {} m.heads h
def Chip.setHead (m : Chip) (h : Nat) (v : HeadState) : Chip := { m with heads := tabSet {} m.heads h v }
def Chip.ethPort (m : Chip) (p : Nat) : EthPort := tabGet {} m.eth p
def Chip.setEthPort (m : Chip) (p : Nat) (v : EthPort) : Chip := { m with eth := tabSet {} m.eth p v }
def Chip.cam (m : Chip) (n : Nat) : CamState := tabGet {} m.cams n
def Chip.setCam (m : Chip) (n : Nat) (v : CamState) : Chip := { m with cams := tabSet {} m.cams n v }
def Chip.poc (m : Chip) (n : Nat) : PocState := tabGet {} m.pocs n
def Chip.setPoc (m : Chip) (n : Nat) (v : PocState) : Chip := { m with pocs := tabSet {} m.pocs n v }
def Chip.pipe (m : Chip) (n : Nat) : PipeState := tabGet {} m.pipes n
def Chip.setPipe (m : Chip) (n : Nat) (v : PipeState) : Chip := { m with pipes := tabSet {} m.pipes n v }
def Chip.rowPipe (m : Chip) (r : Nat) : RowPipe := tabGet {} m.rowPipes r
def Chip.setRowPipe (m : Chip) (r : Nat) (v : RowPipe) : Chip := { m with rowPipes := tabSet {} m.rowPipes r v }
def Chip.replayCh (m : Chip) (r : Nat) : ReplayState := tabGet {} m.replays r
def Chip.setReplayCh (m : Chip) (r : Nat) (v : ReplayState) : Chip := { m with replays := tabSet {} m.replays r v }
def Chip.scr (m : Chip) (r : Nat) : RowScreen := tabGet {} m.screens r
def Chip.setScr (m : Chip) (r : Nat) (v : RowScreen) : Chip := { m with screens := tabSet {} m.screens r v }
/-- The number of an engine in the engine table. -/
def engIdx : Engine → Nat
  | .bent n => n
  | .stud n => 32 + n
  | .attention => 40
  | .spectral => 41
  | .postproc => 42
  | .tenonS2R => 43
  | .tenonR2S => 44
  | .purlinDma n => 48 + n
  | .cmDma => 60
def Chip.eng (m : Chip) (e : Engine) : EngState := tabGet {} m.engs (engIdx e)
def Chip.setEng (m : Chip) (e : Engine) (v : EngState) : Chip := { m with engs := tabSet {} m.engs (engIdx e) v }
def Chip.jobRun (m : Chip) (j : Nat) : JobRun := tabGet {} m.bays.jobs j
def Chip.setJobRun (m : Chip) (j : Nat) (v : JobRun) : Chip :=
  { m with bays := { m.bays with jobs := tabSet {} m.bays.jobs j v } }

/-- Whether the part has an engine (R3, R29). -/
def engExists : Engine → Bool
  | .bent n => n < Config.bents
  | .stud n => n < Config.studs
  | .purlinDma n => n < Config.purlinPorts
  | _ => true

/-- The bay period in ns (R53). A stick with one of the reserved codes 5 to 7 is refused at load (Chip.bayCfgOk); the value
standing here for them is the model's choice and no stick that runs reaches it.
(Log: 129 DESIGN CHOICE.) -/
def Chip.period (m : Chip) : Nat :=
  match m.get F.RC_BAY_CFG_period with
  | 0 => 250000 | 1 => 500000 | 2 => 1000000 | 3 => 2000000 | _ => 4000000
/-- The pipeline depth D (R53). -/
def Chip.depth (m : Chip) : Nat := m.get F.RC_BAY_CFG_depth
/-- The current bay index, floor(TB3 / period) (R10). -/
def Chip.bay (m : Chip) : Nat := m.bays.bay

/-! ### The one form of a meaning -/

/-- The main input and PWR_GOOD are there (R593). -/
def Chip.supplied (m : Chip) : Bool := m.boot.mainInput && m.boot.pwrGood
/-- What a command does to the module: its effect while the module is supplied and not held in reset by RESET_N (R481, R593); held in
reset, time passes and nothing else happens; without supply, nothing. -/
def Chip.take (dt : Nat) (eff : Chip → Chip) (m : Chip) : Chip :=
  if !m.supplied then m else if m.boot.inReset then elapse dt m else eff m

/-- What a command answers. -/
abbrev Answer := Host.Outcome State Fault Refusal

/-- The one form of a meaning: the effect on the module when the operands name units the part has, a named fault otherwise. The
queue is not the meaning's.
(Log: 4 DESIGN CHOICE, 5 DESIGN CHOICE.) -/
def onUnit (units : Bool) (dt : Nat) (eff : Chip → Chip) (s : State) : Answer :=
  if units then .next { s with m := s.m.take dt eff } else .fault .noSuchUnit

/-- As `onUnit`, for the commands of the supply and of RESET_N, which act in any case.
(Log: 4 DESIGN CHOICE, 5 DESIGN CHOICE.) -/
def onSupply (units : Bool) (eff : Chip → Chip) (s : State) : Answer :=
  if units then .next { s with m := eff s.m } else .fault .noSuchUnit

/-- Apply an effect to each element in turn. -/
def forAll {α : Type} (l : List α) (f : α → Chip → Chip) (m : Chip) : Chip := l.foldl (fun m a => f a m) m

end Sys2Proof.Machine
end

