-- ==== Sys2Proof/Machine/CutList.lean ====
section
/-!
DEFINITION. Sys2Proof/Machine/CutList.lean: the cut list (R29 to R31): its entries as words and as what they say, the list of an
engine in a bay, its background list.
-/
namespace Sys2Proof.Machine

/-- The kind of an entry (R30, word 0 bits 31:29); 101 to 111 are reserved. -/
def entryKindOf : Nat → Option EntryKind
  | 0 => some .foreground
  | 1 => some .window
  | 2 => some .segment
  | 3 => some .gate
  | 4 => some .wake
  | _ => none
def entryKindCode : EntryKind → Nat
  | .foreground => 0
  | .window => 1
  | .segment => 2
  | .gate => 3
  | .wake => 4

/-- A semaphore field (R31): 0x3FF names none. -/
def semOf (x : Nat) : Option Nat := if x = 0x3FF then none else some x
def semCode : Option Nat → Nat
  | some s => s
  | none => 0x3FF

/-- What the four words of an entry say (R30); none for a reserved kind, a reserved bit that is set, or a descriptor pointer whose
bits 3:0 are not 0. -/
def decodeCut (q : CutWords) : Option CutEntry :=
  let w0 := q.w0.toNat
  let w1 := q.w1.toNat
  let w2 := q.w2.toNat
  let w3 := q.w3.toNat
  match entryKindOf (bitsN w0 31 29) with
  | none => none
  | some kind =>
    if w1 % 16 != 0 || bitsN w2 27 26 != 0 || bitN w2 5 || bitN w2 0 || bitsN w3 31 22 != 0 then none
    else some {
      kind, job := bitsN w0 28 22, startCycle := bitsN w0 21 0, descPtr := w1, stageOffset := bitsN w2 31 28,
      wait := semOf (bitsN w2 25 16), signal := semOf (bitsN w2 15 6), lastInBay := bitN w2 4, batchGated := bitN w2 3,
      variableCount := bitN w2 2, preemptPoint := bitN w2 1, plannedEnd := bitsN w3 21 0 }

/-- The words of an entry, by the same layout (R30). -/
def encodeCut (c : CutEntry) : CutWords :=
  { w0 := BitVec.ofNat 32 (entryKindCode c.kind * 2 ^ 29 + c.job * 2 ^ 22 + c.startCycle)
    w1 := BitVec.ofNat 32 c.descPtr
    w2 := BitVec.ofNat 32 (c.stageOffset * 2 ^ 28 + semCode c.wait * 2 ^ 16 + semCode c.signal * 2 ^ 6 + b2n c.lastInBay * 16 +
      b2n c.batchGated * 8 + b2n c.variableCount * 4 + b2n c.preemptPoint * 2)
    w3 := BitVec.ofNat 32 c.plannedEnd }

/-- An entry keeps the widths of R30. -/
def cutFits (c : CutEntry) : Bool :=
  decide (c.job < 128) && decide (c.startCycle < 2 ^ 22) && decide (c.descPtr < 2 ^ 32) && decide (c.descPtr % 16 = 0) &&
    decide (c.stageOffset < 16) && (c.wait.all fun s => decide (s < 1023)) && (c.signal.all fun s => decide (s < 1023)) &&
    decide (c.plannedEnd < 2 ^ 22)

/-- The cut list: engine, bay of the cycle, entries. -/
def Chip.cutLists (m : Chip) : List (Engine × Nat × List CutEntry) := m.stick.lists.map fun l => (l.1, l.2.1, l.2.2.filterMap decodeCut)
/-- The background lists of the engines. -/
def Chip.bgCutLists (m : Chip) : List (Engine × List CutEntry) := m.stick.bgLists.map fun l => (l.1, l.2.filterMap decodeCut)

/-- The position in the cycle of bay `b` (R29, R53). -/
def Chip.cyclePos (m : Chip) (b : Nat) : Nat := b % (m.get F.RC_BAY_CFG_cycle_len + 1)
/-- The list of an engine for bay `b`. -/
def Chip.listFor (m : Chip) (e : Engine) (b : Nat) : List CutEntry :=
  ((m.cutLists.find? fun x => x.1 == e && x.2.1 == m.cyclePos b).map (·.2.2)).getD []
/-- The foreground entries of an engine in bay `b`. -/
def Chip.fgList (m : Chip) (e : Engine) (b : Nat) : List CutEntry := (m.listFor e b).filter fun c => c.kind == .foreground

/-- Every engine that takes commands from the cut list (R29). -/
def allEngines : List Engine :=
  ((upTo 32).map Engine.bent) ++ ((upTo 4).map Engine.stud) ++
    [.attention, .spectral, .postproc, .tenonS2R, .tenonR2S] ++ ((upTo 6).map Engine.purlinDma) ++ [.cmDma]

/-- The segments of job `j` in an engine's background list, in order. -/
def Chip.bgSegs (m : Chip) (e : Engine) (j : Nat) : List CutEntry :=
  (m.bgCutLists.filter fun l => l.1 == e).flatMap fun l => l.2.filter fun c => c.job == j

/-- The row that the SCREEN descriptor at `p` names. -/
def Chip.studRow (m : Chip) (p : Nat) : Option Nat := (m.stick.studRows.find? fun x => x.1 == p).map (·.2)

/-- The DMA descriptor at `p` names the destination space 4, the firing sequencer's record buffer (R250, R281). -/
def Chip.toRecordBuffer (m : Chip) (p : Nat) : Bool := m.descNum (p + 1) 1 / 16 == 4

/-- An entry whose command carries the verdict records to the Sill (R15, R206): a copy of the Ridge-to-Sill Tenon queue to the record
buffer.
(Log: 49 DEDUCED.) -/
def Chip.carriesRecords (m : Chip) (e : Engine) (c : CutEntry) : Bool := e == .tenonR2S && m.toRecordBuffer c.descPtr

end Sys2Proof.Machine
end

