-- ==== Sys2Proof/Machine/Streams.lean ====
section
/-!
DEFINITION. Sys2Proof/Machine/Streams.lean: records released to the subscribed streams (R572 to R575), and alarms.
-/
namespace Sys2Proof.Machine

/-- The stream kind of a record (R573). -/
def streamKind : StreamRec → Nat
  | .result _ => 0
  | .preview _ => 1
  | .witness _ => 2

/-- The records one datagram holds (R573). -/
def streamMax (kind : Nat) : Nat := if kind = 1 then 35 else 44

/-! ### The layouts of the records -/

/-- A 48-bit count, sign-extended to 8 bytes. -/
def countBytes (c : Int) : List Byte := leBytes 8 (unsignedOf 64 (wrap48 c))

/-- A provisional record's 40 bytes (R134). -/
def provBytes (r : ProvRec) : List Byte :=
  leBytes 8 r.strip ++ leBytes 2 r.provId ++ leBytes 1 r.row ++
    leBytes 1 (b2n r.eject + 2 * b2n r.continued + 4 * b2n r.partialObj + 8 * b2n r.openForced + 16 * b2n r.voidTouch +
      32 * b2n r.uncovered) ++
    leBytes 1 r.ejScore ++ leBytes 1 r.objScore ++ leBytes 2 0 ++ countBytes r.countLead ++ countBytes r.countTrail ++
    leBytes 4 r.colFirst ++ leBytes 4 r.colLast

/-- A result record's 32 bytes (R574). -/
def resultBytes (r : ResultRec) : List Byte :=
  leBytes 8 r.strip ++ leBytes 8 r.closeBay ++ leBytes 6 (unsignedOf 48 r.countLead) ++ leBytes 2 r.objId ++ leBytes 1 r.stream ++
    leBytes 1 r.cls ++ leBytes 1 r.kind ++ leBytes 1 (r.action % 4 + 4 * (r.cause % 8)) ++
    leBytes 2 (b2n r.late + 2 * b2n r.afterLate + 4 * b2n r.replay + 8 * b2n r.lockStep + 16 * b2n r.notFired + 32 * b2n r.evidence) ++
    leBytes 1 r.portMap ++ leBytes 1 r.status

/-- A witness record's 32 bytes (R437), written by device `dev`. -/
def witBytes (dev : Nat) (r : WitRec) : List Byte :=
  leBytes 8 r.key ++ leBytes 8 r.mark ++ leBytes 8 r.elements ++ leBytes 4 r.layerId ++ leBytes 1 r.job ++
    leBytes 1 (r.row % 32 + 32 * r.kind) ++
    leBytes 2 (dev % 4096 + 4096 * b2n r.partialMark + 8192 * b2n r.replay + 16384 * b2n r.background + 32768 * b2n r.lost)

def recordBytes (dev : Nat) : StreamRec → List Byte
  | .result r => resultBytes r
  | .preview r => provBytes r
  | .witness r => witBytes dev r

/-- A datagram's 16-byte header, magic "AKST" first, and its records before their encryption (R573). -/
def datagramBytes (dev kind num seq : Nat) (l : List StreamRec) : List Byte :=
  [0x41, 0x4B, 0x53, 0x54] ++ leBytes 1 kind ++ leBytes 1 num ++ leBytes 2 l.length ++ leBytes 8 seq ++ l.flatMap (recordBytes dev)

/-! ### Release -/

/-- A record into one subscription's queue of 4,096; a full queue drops it (R575). -/
def subPush (now : Nat) (r : StreamRec) (q : Sub) : Sub :=
  if q.kind != streamKind r then q
  else if q.queue.length ≥ 4096 then { q with dropped := q.dropped + 1 }
  else { q with queue := q.queue ++ [(now, r)] }

/-- Release a record to every subscription of its kind; a drop counts on the subscription's port. -/
def Chip.toSubs (m : Chip) (r : StreamRec) : Chip :=
  let full := m.subs.filter fun q => q.kind == streamKind r && decide (q.queue.length ≥ 4096)
  let m1 := forAll full (fun q m => m.bump (R.ETH_CNT_STREAM_DROP q.ethPort)) m
  { m1 with subs := m1.subs.map (subPush m.now r) }

/-- Release a result record (R365, R367, R574). -/
def Chip.release (m : Chip) (r : ResultRec) : Chip := (m.emit (.result r)).toSubs (.result r)

/-- Send a provisional record on the preview stream (R140). -/
def Chip.previewRec (m : Chip) (r : ProvRec) : Chip := (m.emit (.preview r)).toSubs (.preview r)

end Sys2Proof.Machine
end

