-- ==== Sys2Proof/Machine/PurSend.lean ====
section
/-!
DEFINITION. Sys2Proof/Machine/PurSend.lean: a Purlin port as a sender (R307 to R310, R362): the bytes of a frame, its counter, credits, the order
in which waiting frames leave, the mirror's frames.
-/
namespace Sys2Proof.Machine

/-- The module is a lock-step leader; a follower (R441). -/
def Chip.leader (m : Chip) : Bool := m.get F.WIT_CFG_lock_role == 1
def Chip.follower (m : Chip) : Bool := m.get F.WIT_CFG_lock_role == 2

def Chip.onPur (f : PurlinState → PurlinState) (m : Chip) : Chip := { m with purlin := f m.purlin }
def Chip.purPort (m : Chip) (p : Nat) : PurPort := tabGet {} m.purlin.ports p
def Chip.setPurPort (p : Nat) (v : PurPort) (m : Chip) : Chip := m.onPur fun s => { s with ports := tabSet {} s.ports p v }
def Chip.modPurPort (p : Nat) (f : PurPort → PurPort) (m : Chip) : Chip := m.setPurPort p (f (m.purPort p))
/-- PUR_STAT.state of a port (R333): 0 down, 1 training, 2 authenticating, 3 up, 4 mismatch, 5 low-power idle, 6 held. -/
def Chip.purState (m : Chip) (p : Nat) : Nat := m.get (F.PUR_STAT_state p)
/-- The module's device ID (R336). -/
def Chip.ownId (m : Chip) : Nat := m.get F.PUR_DEV_device_id
/-! ### Ports (R307, R309, R310) -/

/-- The 64-byte blocks of a frame (R307). -/
def frameBlocks (f : PurFrame) : Nat := ceilDivN (48 + f.length) 64
def isLink (f : PurFrame) : Bool := match f.body with
  | .link _ => true
  | _ => false
/-- A frame that a port may carry before its peer's HELLO has passed (R316). -/
def isHello (f : PurFrame) : Bool := match f.body with
  | .link _ | .hello _ => true
  | _ => false

/-- The type of a frame (R308). -/
def bodyType : PurBody → Nat
  | .data _ _ => 1 | .ack _ _ => 2 | .nak _ _ => 3 | .mirror _ _ => 4 | .mirrorAck _ => 5 | .hello _ => 6 | .link _ => 7 | .marks _ => 8

/-- The 32 bytes of a frame's header (R307), which are sent in clear. -/
def purHeader (f : PurFrame) : List Byte :=
  leBytes 1 (bodyType f.body) ++ leBytes 1 (f.epoch + 2 * f.cls + 8 * b2n f.cancelled + 16 * b2n f.sync) ++ leBytes 2 f.dst ++
    leBytes 2 f.src ++ leBytes 1 f.hops ++ leBytes 1 0 ++ leBytes 4 f.seq ++ leBytes 4 f.length ++ leBytes 8 f.bay ++ leBytes 8 f.linkCtr

/-- The transfer header (R281). -/
def xferHead (x : TnXfer) : List Byte :=
  leBytes 8 x.bay ++ leBytes 8 x.closeBay ++ leBytes 8 x.dst ++ leBytes 4 x.length ++ leBytes 1 x.space ++ leBytes 1 x.unit ++
    leBytes 2 x.tag

/-- The 32 bytes of a firing entry (R362) as a MIRROR record carries them, with status 0. -/
def mirrorBytes (e : FEntry) : List Byte :=
  leBytes 6 (unsignedOf 48 e.cOpen) ++ leBytes 2 e.key.objId ++ leBytes 6 (unsignedOf 48 e.cClose) ++ leBytes 1 e.key.source ++
    leBytes 1 (e.key.map + 8 * e.port) ++ leBytes 8 e.key.strip ++ leBytes 1 e.vFirst ++ leBytes 1 e.vLast ++ leBytes 1 e.shape ++
    leBytes 1 e.cause ++ leBytes 2 0 ++ leBytes 2 0

/-- The payload of a frame where the spec gives its bytes: the transfer header and data of a DATA frame (R314), a mirrored entry (R362). -/
def purPayload : PurBody → List Byte
  | .data x l => xferHead x ++ l
  | .mirror _ (.entry e) => mirrorBytes e
  | _ => []

/-- Send a frame on a port: its counter is the link's (R309); a key generation in use from its switch counter on (R528). -/
def Chip.purTx (p : Nat) (f : PurFrame) (m : Chip) : Chip :=
  let s := m.purPort p
  let gen := match s.txSwitch with
    | some (g, c) => if c ≤ s.txCtr then g else s.gen
    | none => s.gen
  let g := { f with linkCtr := s.txCtr }
  ((m.setPurPort p { s with txCtr := s.txCtr + 1, gen, lastTx := if isLink f then s.lastTx else m.now,
                            grant := isLink f && s.grant }).bump (R.PUR_CNT_TX_FRAMES p)).emit (.purlin p g (purHeader g ++ purPayload g.body))

/-- A link-local frame to the peer. -/
def Chip.linkFrame (m : Chip) (body : PurBody) (cls length : Nat) : PurFrame :=
  { body, cls, dst := m.ownId, src := m.ownId, hops := 0, length, bay := m.bay }

/-- A LINK frame on a port; it needs no credit, since it carries the credits.
(Log: 93 DEDUCED.) -/
def Chip.linkSend (p : Nat) (l : LinkRec) (m : Chip) : Chip := m.purTx p (m.linkFrame (.link l) 2 16)

/-- The blocks of a frame have left the receive buffer of a port: their credits go back to its peer (R310). A port that is down has none
to return; they are granted anew as it trains. -/
def Chip.giveBack (p : Nat) (f : PurFrame) (m : Chip) : Chip :=
  let n := frameBlocks f
  if m.purState p = 3 ∨ m.purState p = 4 then
    m.linkSend p { bulk := if f.cls = 0 then n else 0, mirror := if f.cls = 1 then n else 0, control := if f.cls = 2 then n else 0 }
  else m
def Chip.giveBackOpt (via : Option Nat) (f : PurFrame) (m : Chip) : Chip := match via with
  | some p => m.giveBack p f
  | none => m

/-- Credits held by a port in a class. -/
def credOf (s : PurPort) (cls : Nat) : Nat := match cls with
  | 0 => s.bulk
  | 1 => s.mirror
  | _ => s.control
def spend (s : PurPort) (cls n : Nat) : PurPort := match cls with
  | 0 => { s with bulk := s.bulk - n }
  | 1 => { s with mirror := s.mirror - n }
  | _ => { s with control := s.control - n }

/-- The next frame a port sends (R310): mirror before control before bulk, the oldest of a class first, with credits for all its
blocks; but a bulk frame that has waited for seven others on a port that is no mirror port. -/
def Chip.purPick (m : Chip) (p : Nat) : Option PurWait :=
  let s := m.purPort p
  let firstOf (cls : Nat) : Option PurWait :=
    (s.txq.find? fun w => w.frame.cls == cls).bind fun w =>
      if frameBlocks w.frame ≤ credOf s cls && (s.helloOk || isHello w.frame) then some w else none
  let bulk := firstOf 0
  if m.get (F.PUR_CFG_role p) ≠ 1 ∧ 7 ≤ s.bulkWait ∧ bulk.isSome then bulk
  else ((firstOf 1).orElse fun _ => firstOf 2).orElse fun _ => bulk

/-- Send what waits at a port that is up, as far as credits allow.
(Log: 93 DEDUCED.) -/
def Chip.purPump (p : Nat) : Nat → Chip → Chip
  | 0, m => m
  | n + 1, m =>
    if m.purState p ≠ 3 then m
    else match m.purPick p with
      | none => m
      | some w =>
        let s := m.purPort p
        let f := w.frame
        let wait := if f.cls = 0 then 0 else if s.txq.any fun x => x.frame.cls == 0 then s.bulkWait + 1 else 0
        let s1 := spend { s with txq := s.txq.erase w, bulkWait := wait } f.cls (frameBlocks f)
        Chip.purPump p n (((m.setPurPort p s1).purTx p f).giveBackOpt w.via f)

def Chip.purFlush (p : Nat) (m : Chip) : Chip := Chip.purPump p (m.purPort p).txq.length m

/-! ### The mirror's frames (R326, R327) -/

/-- A link-local frame for the mirror port (R339). A port that is not up carries none: what should have gone is lost. -/
def Chip.mirrorOut (body : PurBody) (length : Nat) (m : Chip) : Chip :=
  let p := m.get F.PUR_MIRROR_CFG_mport
  if m.purState p = 3 then (m.modPurPort p fun s => { s with txq := s.txq ++ [{ frame := m.linkFrame body 1 length }] }).purFlush p else m

/-- A record as it goes to the standby: the sender's own marks on an entry stay behind (R362, R366). -/
def mirrorForm : MirrorRec → MirrorRec
  | .entry e => .entry { e with cancelled := false }
  | r => r

/-- The MIRROR frame of a record, of 128 bytes in all (R326, R327). -/
def Chip.mirrorFrame (id : Nat) (r : MirrorRec) (m : Chip) : Chip := m.mirrorOut (.mirror id (mirrorForm r)) 32

end Sys2Proof.Machine
end

