-- ==== Sys2Proof/Machine/FireOps.lean ====
section
/-!
DEFINITION. Sys2Proof/Machine/FireOps.lean: the firing sequencer's shared operations: entries leaving their queues and
cancellation (R367, R368), mirror records (R326), reservations (R141, R142), the outputs the supervisor drives (R401,
R402), valve maps (R360, R361).
-/
namespace Sys2Proof.Machine

/-! ### Queues -/

def Chip.queue (m : Chip) (p : Nat) : List FEntry := m.fire.queues.getD p []
def Chip.setQueue (m : Chip) (p : Nat) (q : List FEntry) : Chip :=
  { m with fire := { m.fire with queues := m.fire.queues.set p q } }

/-- The entry status of R362.
(Log: 38 DEDUCED.) -/
def entryStatus (e : FEntry) : Nat :=
  b2n e.unmirrored + 2 * b2n e.firedLate + 4 * b2n e.overflow + 8 * b2n e.estimate + 16 * b2n e.truncated +
    32 * b2n e.cancelled

/-- The result record of an entry (R574): kind 1 as it leaves its queue, kind 2 a supplement. -/
def entryReport (kind : Nat) (e : FEntry) : ResultRec :=
  { strip := e.key.strip, closeBay := e.closeBay, countLead := e.countLead, objId := e.key.objId, stream := e.key.source,
    cls := e.cls, kind, action := 1, cause := e.cause, late := e.cause == 2, portMap := e.key.map + 8 * e.port,
    status := entryStatus e }

/-- The firing role (R375): 0 single, 1 primary, 2 standby. -/
def Chip.role (m : Chip) : Nat := m.get F.FS_STAT_role

/-- Send a record to the standby; it waits for its acknowledgement (R326, R327). -/
def Chip.mirrorSend (m : Chip) (r : MirrorRec) : Chip :=
  let o : MirrorOut := { id := m.fire.mirrorNext, sentAt := m.now, record := r }
  let m1 := m.mirrorFrame o.id r
  { m1 with fire := { m1.fire with mirror := m1.fire.mirror ++ [o], mirrorNext := m1.fire.mirrorNext + 1 } }

/-- An entry leaves its queue and is reported with its status (R367). It is remembered while a fired-on-estimate flag
may still be decided for it. -/
def Chip.entryLeaves (m : Chip) (e : FEntry) : Chip :=
  let m1 := m.release (entryReport 1 e)
  { m1 with fire := { m1.fire with left := m1.fire.left ++ [(m.get (F.FS_ROW_CFG_enc_port e.row), e)] } }

/-- A cancelled entry (R368): counted, reported with status cancelled, mirrored by the primary (R326).
(Log: 38 DEDUCED.) -/
def Chip.entryCancelled (m : Chip) (e : FEntry) : Chip :=
  let m1 := (m.bump (R.FS_Q_CNT_CANCEL e.port)).release (entryReport 1 { e with cancelled := true })
  if m.role = 1 then m1.mirrorSend (.cancel e.key) else m1

/-- An entry that waits for the standby's acknowledgement and is cancelled meanwhile: it is cancelled as it reaches its queue. -/
def cancelWaiting (p : Nat) (c : FEntry → Bool) (o : MirrorOut) : MirrorOut := match o.record with
  | .entry e => if e.port = p ∧ c e then { o with record := .entry { e with cancelled := true } } else o
  | _ => o

/-- Cancel the entries of port `p` that `c` picks. -/
def Chip.cancelIn (p : Nat) (c : FEntry → Bool) (m : Chip) : Chip :=
  let gone := (m.queue p).filter c
  let m1 := forAll gone (fun e m => m.entryCancelled e) (m.setQueue p ((m.queue p).filter fun e => !c e))
  { m1 with fire := { m1.fire with mirror := m1.fire.mirror.map (cancelWaiting p c) } }

/-- Cancel the entries of every port that `c` picks.
(Log: 31 DEDUCED.) -/
def Chip.cancelAll (c : FEntry → Bool) (m : Chip) : Chip :=
  forAll (upTo Config.pegPorts) (fun p m => m.cancelIn p c) m

/-! ### Reservations -/

/-- Delete the reservations that `c` picks, uncounted (R148).
(Log: 35 DEDUCED.) -/
def Chip.dropResvs (c : Resv → Bool) (m : Chip) : Chip :=
  { m with fire := { m.fire with resvs := m.fire.resvs.filter fun r => !c r } }

/-- Count a reservation as dropped (R142); one whose pilot bits had risen is withdrawn.
(Log: 35 DEDUCED.) -/
def Chip.countDropped (m : Chip) (r : Resv) : Chip :=
  let m1 := m.bump (R.SCR_CNT_DROPPED r.row)
  if r.raised then (m1.bump (R.SCR_CNT_WITHDRAWN r.row)).setFlag (F.SCR_ROW_STAT_withdrawn r.row) else m1

/-! ### Valve maps (R360) -/

/-- A valve map's fields, read from its FS_MAP registers (R379). -/
structure ValveMap where
  row : Nat
  idx : Nat
  en : Bool
  indet : Bool
  port : Nat
  shape : Nat
  valves : Nat
  firstValve : Nat
  col0 : Nat
  pitch : Nat
  offset : Nat
  openAdv : Nat
  closeExt : Nat
  minLen : Nat
  classLast : Nat
  classFirst : Nat
  spread : Nat
  maxOpen : Nat
  deriving DecidableEq, Repr

/-- Map `i` of live row `r`. -/
def Chip.vmap (m : Chip) (r i : Nat) : ValveMap :=
  { row := r, idx := i, en := m.flag (F.FS_MAP_A_en r i), indet := m.flag (F.FS_MAP_A_indet r i),
    port := m.get (F.FS_MAP_A_port r i), shape := m.get (F.FS_MAP_A_shape r i), valves := m.get (F.FS_MAP_A_valves r i),
    firstValve := m.get (F.FS_MAP_A_first_valve r i), col0 := m.get (F.FS_MAP_COL_col0 r i),
    pitch := m.get (F.FS_MAP_PITCH_pitch r i), offset := m.get (F.FS_MAP_OFFSET_offset r i),
    openAdv := m.get (F.FS_MAP_SHAPE_open_adv r i), closeExt := m.get (F.FS_MAP_SHAPE_close_ext r i),
    minLen := m.get (F.FS_MAP_SHAPE_min_len r i), classLast := m.get (F.FS_MAP_CLASS_class_last r i),
    classFirst := m.get (F.FS_MAP_CLASS_class_first r i), spread := m.get (F.FS_MAP_CLASS_spread r i),
    maxOpen := m.get (F.FS_MAP_LIMIT_max_open r i) }

/-- The enabled maps of a row, in map order; a replay row has none. -/
def Chip.rowMaps (m : Chip) (r : Nat) : List ValveMap :=
  if r < 8 then ((upTo 8).map fun i => m.vmap r i).filter fun v => v.en && decide (0 < v.pitch) else []

/-- The valve range and count range that an extent gives on a map (R361), or none where it misses the map. `x1`, `x2` are
the first and last stitched column, `lead` and `last` the counts. -/
def mapRange (v : ValveMap) (x1 x2 : Nat) (lead last : Int) : Option (Nat × Nat × Int × Int) :=
  let a : Int := (x1 : Int) - v.spread - v.col0
  let b : Int := (x2 : Int) + v.spread - v.col0
  let fa := (a * 256).fdiv v.pitch
  let fb := (b * 256).fdiv v.pitch
  if b < 0 ∨ fa > (v.valves : Int) - 1 then none
  else
    let cOpen := lead + v.offset - v.openAdv
    let cEnd := last + v.offset + v.closeExt
    let cClose := if cEnd - cOpen < v.minLen then cOpen + v.minLen else cEnd
    some (v.firstValve + (max 0 fa).toNat, v.firstValve + (min ((v.valves : Int) - 1) fb).toNat, cOpen, cClose)

/-- Two ranges share a member. -/
def overlapN (a1 a2 b1 b2 : Nat) : Bool := decide (a1 ≤ b2) && decide (b1 ≤ a2)
def overlapI (a1 a2 b1 b2 : Int) : Bool := decide (a1 ≤ b2) && decide (b1 ≤ a2)

/-! ### What the supervisor drives (R401, R402, R460, R464) -/

/-- The mode of SUP_MODE: 0 NORMAL, 1 DEGRADED, 2 FIRE-OUT, 3 SAFE. -/
def Chip.mode (m : Chip) : Nat := m.get F.SUP_MODE_mode

/-- A fault of severity 1 or more is latched in collector `h`. -/
def Chip.notifyLatched (m : Chip) (h : Nat) : Bool :=
  (upTo 4).any fun k => m.rd (R.FLT_STAT h k) != 0 &&
    (upTo 32).any fun j => m.bit (R.FLT_STAT h k) j && decide (1 ≤ m.get (F.FLT_SRC_sev_eff h (32 * k + j)))

/-- The fault indication of R401 and R464.
(Log: 30 DEDUCED.) -/
def Chip.faultInd (m : Chip) : Bool := m.mode == 3 || m.notifyLatched 0 || m.notifyLatched 1

/-- The commanded state of output `n` by its source (R401). -/
def Chip.outCmd (m : Chip) (n : Nat) : Bool :=
  match bitsN (m.rd R.FIO_OUT_SRC).toNat (2 * n + 1) (2 * n) with
  | 0 => m.bit R.FIO_OUT n
  | 1 => m.mode == 0
  | 2 => m.faultInd
  | _ => false

/-- RUN_PERMIT is energised only while R402 allows; it is off until the pin record is applied (R495), in the standby
role (R469) and in a lock-step follower (R444).
(Log: 30 DEDUCED.) -/
def Chip.permitOk (m : Chip) : Bool :=
  decide (m.mode ≤ 1) && m.flag F.FIO_OUT_run_req && !m.bit R.FIO_GRP 6 && m.boot.pinsOn && m.role != 2
    && m.get F.WIT_CFG_lock_role != 2

/-- Drive the outputs and RUN_PERMIT as R401 and R402 give.
(Log: 30 DEDUCED.) -/
def Chip.refreshOutputs (m : Chip) : Chip :=
  let outs := (upTo 16).foldl (fun acc n => acc + (if m.boot.pinsOn && m.outCmd n && !m.fio.outFault.getLsbD n then 2 ^ n else 0)) 0
  let was := m.flag F.FIO_OUT_RB_run_permit
  let m1 := (m.put F.FIO_OUT_RB_out_rb outs).put F.FIO_OUT_RB_run_permit (b2n m.permitOk)
  if was == m.permitOk then m1 else m1.emit (.pin "RUN_PERMIT" 0 m.permitOk)

end Sys2Proof.Machine
end

