-- ==== Sys2Proof/Machine/FaultOps.lean ====
section
/-!
DEFINITION. Sys2Proof/Machine/FaultOps.lean: the fault collectors and the supervisor as shared operations: a source's error
output, the leaky bucket, the severities, and the entries to SAFE and FIRE-OUT (R452 to R464). Half 0 is the Sill, half 1
the Ridge. `Src` names the sources of R471.
-/
namespace Sys2Proof.Machine

/-- A source: its collector and number (R471). -/
structure Src where
  half : Nat
  num : Nat
  deriving DecidableEq, Repr

namespace SrcName
def safeReqN : Src := ⟨0, 0⟩
def clockMonitor : Src := ⟨0, 1⟩
def supervisorVote : Src := ⟨0, 2⟩
def ridgeFaultLink : Src := ⟨0, 3⟩
def joinerWatchdog : Src := ⟨0, 4⟩
def sillThermalCritical : Src := ⟨0, 5⟩
def sillThermalHigh : Src := ⟨0, 6⟩
def sillThermalWarning : Src := ⟨0, 7⟩
def supplyOutOfRange : Src := ⟨0, 8⟩
def fan : Src := ⟨0, 9⟩
def i2cBusStuck : Src := ⟨0, 10⟩
def tamper : Src := ⟨0, 11⟩
def securityUnit : Src := ⟨0, 12⟩
def cameraLink : Src := ⟨0, 16⟩
def cmUncorrectable : Src := ⟨0, 17⟩
def cmDown : Src := ⟨0, 18⟩
def stud : Src := ⟨0, 19⟩
def tenonProtocolSill : Src := ⟨0, 20⟩
def tenonRetrain : Src := ⟨0, 21⟩
def tenonDownSill : Src := ⟨0, 22⟩
def purlinLink : Src := ⟨0, 24⟩
def purlinAuth : Src := ⟨0, 25⟩
def purlinPeer : Src := ⟨0, 26⟩
def purlinPath : Src := ⟨0, 27⟩
def standbyMirror : Src := ⟨0, 28⟩
def mirrorCount : Src := ⟨0, 29⟩
def mirrorLink : Src := ⟨0, 30⟩
def encoderLost : Src := ⟨0, 32⟩
def encoderDrift : Src := ⟨0, 33⟩
def firingLimit : Src := ⟨0, 34⟩
def firingQueue : Src := ⟨0, 35⟩
def pegBank : Src := ⟨0, 36⟩
def pegTakeover : Src := ⟨0, 37⟩
def fieldGroup : Src := ⟨0, 38⟩
def timeJump : Src := ⟨0, 40⟩
def timeHoldover : Src := ⟨0, 41⟩
def timeReference : Src := ⟨0, 42⟩
def lockStepMismatch : Src := ⟨0, 44⟩
def ridgeThermalCritical : Src := ⟨1, 0⟩
def ridgeThermalHigh : Src := ⟨1, 1⟩
def ridgeThermalWarning : Src := ⟨1, 2⟩
def baySync : Src := ⟨1, 3⟩
def bayOverrun : Src := ⟨1, 4⟩
def tenonProtocolRidge : Src := ⟨1, 5⟩
def tenonDownRidge : Src := ⟨1, 6⟩
def hbmUncorrectable : Src := ⟨1, 7⟩
def hbmDown : Src := ⟨1, 8⟩
def bentSramUncorrectable : Src := ⟨1, 9⟩
def bentSramScrub : Src := ⟨1, 10⟩
def attention : Src := ⟨1, 11⟩
def spectral : Src := ⟨1, 12⟩
def postproc : Src := ⟨1, 13⟩
def witness : Src := ⟨1, 14⟩
def bent (n : Nat) : Src := ⟨1, 32 + n⟩
end SrcName

/-! ### Modes (R460 to R464) -/

/-- Change the mode, keeping the one before it and the cause (R475). `cause` is the source of a change to FIRE-OUT or
SAFE, none for a command or the mask. -/
def Chip.setMode (new : Nat) (cause : Option Src) (m : Chip) : Chip :=
  let m1 := ((m.put F.SUP_MODE_prev m.mode).put F.SUP_MODE_mode new).put F.SUP_MODE_cause_cmd (b2n cause.isNone)
  match cause with
  | none => m1
  | some c => (m1.put F.SUP_MODE_cause_half c.half).put F.SUP_MODE_cause_src c.num

/-- An accepted resume is dropped by a stronger request before its boundary (R460).
(Log: 32 DEDUCED.) -/
def Chip.dropResume (m : Chip) : Chip := { m with sup := { m.sup with resumeDue := false } }

/-- Enter SAFE (R464): every entry cancelled, every reservation deleted, RUN_PERMIT de-energised; the Peg ports send
close-all and safe frames from the next seal on, by the mode. In SAFE already, nothing changes.
(Log: 31 DEDUCED, 35 DEDUCED.) -/
def Chip.enterSafe (cause : Option Src) (m : Chip) : Chip :=
  if m.mode = 3 then m
  else
    ((((m.dropResume.setMode 3 cause).bump R.SUP_CNT_SAFE).cancelAll fun _ => true).dropResvs fun _ => true).refreshOutputs

/-- Enter FIRE-OUT from NORMAL or DEGRADED (R462): the reservations are deleted and counted as dropped (R148), the
queued entries stay, RUN_PERMIT is de-energised. A stronger mode is not displaced (R460).
(Log: 35 DEDUCED.) -/
def Chip.enterFireOut (cause : Option Src) (m : Chip) : Chip :=
  if 2 ≤ m.mode then m.dropResume
  else
    ((forAll m.fire.resvs (fun r m => m.countDropped r) ((m.setMode 2 cause).bump R.SUP_CNT_FIREOUT)).dropResvs
      fun _ => true).refreshOutputs

/-! ### Pending bits (R456, R478) -/

/-- The pending register and bit of a source. -/
def pendAddr (c : Src) : Nat := R.SUP_PEND (4 * c.half + c.num / 32)
def Chip.pending (m : Chip) (c : Src) : Bool := m.bit (pendAddr c) (c.num % 32)
/-- Some pending bit is set. -/
def Chip.anyPending (m : Chip) : Bool := (upTo 8).any fun k => m.rd (R.SUP_PEND k) != 0
def Chip.sevEff (m : Chip) (c : Src) : Nat := m.get (F.FLT_SRC_sev_eff c.half c.num)
/-- A source of effective severity 3 is asserting (R463). -/
def Chip.sev3Asserting (m : Chip) : Bool :=
  m.sup.srcs.any fun p => p.2.asserting && m.sevEff ⟨p.1 / 128, p.1 % 128⟩ == 3

/-! ### Assertion (R453 to R458) -/

/-- The rising edge into the leaky bucket (R458). A source of fixed severity, and a bucket with N = 0, do not count. A
bucket that fills at severity 3 empties and raises nothing.
(Log: 28 DEDUCED.) -/
def Chip.bucketEdge (c : Src) (m : Chip) : Chip :=
  let n := m.get (F.FLT_SRC_bkt_n c.half c.num)
  let lvl := m.get (F.FLT_SRC_level c.half c.num)
  if sevFixed c.half c.num || n == 0 then m
  else if n ≤ lvl + 1 then
    let m1 := m.put (F.FLT_SRC_level c.half c.num) 0
    if m.sevEff c < 3 then
      ((m1.put (F.FLT_SRC_sev_eff c.half c.num) (m.sevEff c + 1)).setFlag (F.FLT_SRC_raised c.half c.num)).bump R.SUP_CNT_RAISE
    else m1
  else
    let m1 := m.put (F.FLT_SRC_level c.half c.num) (lvl + 1)
    if lvl = 0 then m1.setSrc c.half c.num { m1.src c.half c.num with leakFrom := m1.now } else m1

/-- The half as the ALARM message names it (R570). -/
def halfOf (h : Nat) : Half := if h = 0 then .sill else .ridge

/-- What the collector does at the effective severity (R455): each action includes the ones above it.
(Log: 28 DEDUCED.) -/
def Chip.severityAct (c : Src) (m : Chip) : Chip :=
  let sev := m.sevEff c
  let m0 := m.log "source" [c.half, c.num, sev, m.bay]
  let m1 := if 1 ≤ sev then m0.emit (.alarm (halfOf c.half) c.num sev m.bay) else m0
  let m2 := if 2 ≤ sev && !m1.pending c then
      (m1.setBit (pendAddr c) (c.num % 32)).setSrc c.half c.num { m1.src c.half c.num with pendSince := m1.now, escalated := false }
    else m1
  let m3 := if 3 ≤ sev then m2.enterSafe (some c) else m2
  m3.refreshOutputs

/-- A rising edge of a source's error output: the sticky bit, the bucket, the action at the severity the bucket leaves
(R453, R455, R458).
(Log: 29 DEDUCED.) -/
def Chip.raise (c : Src) (m : Chip) : Chip :=
  ((m.setBit (R.FLT_STAT c.half (c.num / 32)) (c.num % 32)).bucketEdge c).severityAct c

def Chip.raiseIf (b : Bool) (c : Src) (m : Chip) : Chip := if b then m.raise c else m

/-- A source's error output goes up and stays up; up already, nothing is new.
(Log: 29 DEDUCED.) -/
def Chip.assert (c : Src) (m : Chip) : Chip :=
  if (m.src c.half c.num).asserting then m
  else (m.setSrc c.half c.num { m.src c.half c.num with asserting := true }).raise c

/-- A source's error output falls. -/
def Chip.deassert (c : Src) (m : Chip) : Chip :=
  m.setSrc c.half c.num { m.src c.half c.num with asserting := false }

/-- Follow a condition: the error output is up while it holds.
(Log: 29 DEDUCED.) -/
def Chip.follow (b : Bool) (c : Src) (m : Chip) : Chip := if b then m.assert c else m.deassert c

/-! ### OK_N (R460, R469) -/

/-- A standby is ready to take over (R469): its mirror port up with the keep-alive present, no pending bit set, no source
of severity 3 asserting, and no takeover until promotion. -/
def Chip.standbyReady (m : Chip) : Bool :=
  m.get (F.PUR_STAT_state (m.get F.PUR_MIRROR_CFG_mport)) == 3 && decide (m.now - m.sup.mirrorAliveAt < 30000)
    && !m.anyPending && !m.sev3Asserting && !m.flag F.SUP_MODE_took_over

/-- The level of OK_N: low (false) only while the module is healthy and sorting is permitted, or, in the standby role,
while it is ready to take over. -/
def Chip.okN (m : Chip) : Bool :=
  !((m.role != 2 && decide (m.mode ≤ 1)) || (m.role == 2 && m.mode == 2 && m.standbyReady))

end Sys2Proof.Machine
end

