-- ==== Sys2Proof/Machine/Mem.lean ====
section
/-!
DEFINITION. Sys2Proof/Machine/Mem.lean: the module's memories as one table of bytes (R238, R252, R257). A global address names
the memory and the byte: bent n's SRAM from n · 2²³, HBM from 2⁴⁰, capture memory from 2⁴¹, the firing sequencer's record
buffer from 2⁴². A granule of bent SRAM that is not valid reads as zero (R247); a byte of HBM or capture memory that
nothing has written reads as zero (the model's choice).
-/
namespace Sys2Proof.Machine

def bentAddr (n a : Nat) : Nat := n * 2 ^ 23 + a
def hbmAddr (a : Nat) : Nat := 2 ^ 40 + a
def cmAddr (a : Nat) : Nat := 2 ^ 41 + a
def recAddr (a : Nat) : Nat := 2 ^ 42 + a
/-- A global address lies in bent SRAM. -/
def isBent (g : Nat) : Bool := decide (g < 2 ^ 28)

/-- The canonical form of the memory: addresses strictly rising, nothing listed that reads as zero. -/
abbrev Memory.wf (t : Tab Byte) : Bool := tabWf 0 t

/-- The byte at a global address; an uncorrectable granule is delivered as zero (R246).
(Log: 8 DESIGN CHOICE.) -/
def Chip.byteAt (m : Chip) (g : Nat) : Byte :=
  if isBent g && m.sramBad.contains (g / 16) then 0 else tabGet 0 m.mem g

/-- `n` bytes from a global address.
(Log: 8 DESIGN CHOICE.) -/
def Chip.bytesAt (m : Chip) (g n : Nat) : List Byte := (upTo n).map fun i => m.byteAt (g + i)

/-- A number of `n` bytes at a global address, least significant first (R8). -/
def Chip.numAt (m : Chip) (g n : Nat) : Nat := ofLeBytes (m.bytesAt g n)

/-- Write one byte: in bent SRAM its granule becomes valid and good (R246, R247). The other bytes of a granule that was uncorrectable
are those it was delivered as, zero. -/
def Chip.putByte (m : Chip) (g : Nat) (b : Byte) : Chip :=
  let old := if isBent g && m.sramBad.contains (g / 16) then m.mem.filter fun p => p.1 / 16 != g / 16 else m.mem
  let m1 := { m with mem := tabSet 0 old g b }
  if isBent g then
    { m1 with sramValid := tabSet false m1.sramValid (g / 16) true, sramBad := m1.sramBad.filter fun x => x != g / 16 }
  else m1

/-- Write bytes from a global address on. -/
def Chip.putBytes (m : Chip) (g : Nat) : List Byte → Chip
  | [] => m
  | b :: t => (m.putByte g b).putBytes (g + 1) t

/-- Clear the valid bits of a range of bent SRAM (R247): its granules read as zero. -/
def Chip.clearRange (g n : Nat) (m : Chip) : Chip :=
  { m with mem := m.mem.filter fun p => !(decide (g ≤ p.1) && decide (p.1 < g + n)),
           sramValid := m.sramValid.filter fun p => !(decide (g ≤ p.1 * 16) && decide (p.1 * 16 < g + n)),
           sramBad := m.sramBad.filter fun x => !(decide (g ≤ x * 16) && decide (x * 16 < g + n)) }

/-- Clear every valid bit of bent SRAM (R247). -/
def Chip.clearSram (m : Chip) : Chip := m.clearRange 0 (2 ^ 28)

/-- Empty capture memory: nothing written before is read again (R258). -/
def Chip.clearCm (m : Chip) : Chip :=
  { m with mem := m.mem.filter fun p => !(decide (2 ^ 41 ≤ p.1) && decide (p.1 < 2 ^ 42)) }

/-- Lose HBM and capture memory (R482). -/
def Chip.clearDram (m : Chip) : Chip := { m with mem := m.mem.filter fun p => decide (p.1 < 2 ^ 40) }

end Sys2Proof.Machine
end

