-- ==== Sys2Proof/Machine/PurOps.lean ====
section
/-!
DEFINITION. Sys2Proof/Machine/PurOps.lean: the Purlin fabric's flows (R311 to R314, R317, R442): routes, retransmission, the lock-step feed.
-/
namespace Sys2Proof.Machine

/-- The active table (R319). -/
def Chip.epoch (m : Chip) : Nat := m.get F.PUR_ROUTE_STAT_epoch
/-- The entry of a device in a routing table (R317).
(Log: 97 DESIGN CHOICE.) -/
def Chip.routeOf (m : Chip) (table dev : Nat) : Nat := tabGet 7 m.purlin.routes (4096 * table + dev)

/-- A routed frame leaves on the port its own epoch's table names (R317): a frame for a sleeping port waits (R320), one for a port that
is down, or for no port, is dropped. `via` is the port a relayed frame came in on. -/
def Chip.purRoute (via : Option Nat) (f : PurFrame) (m : Chip) : Chip :=
  let o := m.routeOf f.epoch f.dst
  if o < Config.purlinPorts ∧ (m.purState o = 3 ∨ m.purState o = 5) then
    (m.modPurPort o fun s => { s with txq := s.txq ++ [{ frame := f, via }] }).purFlush o
  else (m.bump R.PUR_CNT_NOROUTE).giveBackOpt via f

/-! ### Flows (R311 to R313, R319) -/

def Chip.flow (m : Chip) (dev cls : Nat) : PurFlow := (m.purlin.out.find? fun f => f.dev == dev && f.cls == cls).getD { dev, cls }
def Chip.setFlow (v : PurFlow) (m : Chip) : Chip :=
  m.onPur fun s => { s with out := (s.out.filter fun f => !(f.dev == v.dev && f.cls == v.cls)) ++ [v] }

/-- Number and send the frames that wait in a flow: at most 64 unacknowledged, and none of the new epoch while one of the old is
unacknowledged. -/
def Chip.flowDrain (dev cls : Nat) : Nat → Chip → Chip
  | 0, m => m
  | n + 1, m =>
    let f := m.flow dev cls
    match f.waiting with
    | [] => m
    | x :: t =>
      if 64 ≤ f.unacked.length || f.unacked.any fun u => u.frame.epoch != m.epoch then m
      else
        let y := { x with seq := f.next, sync := f.sync, epoch := m.epoch }
        let f1 := { f with waiting := t, unacked := f.unacked ++ [{ frame := y }], next := (f.next + 1) % 2 ^ 32, sync := false,
                           ackAt := if f.unacked.isEmpty then m.now else f.ackAt }
        Chip.flowDrain dev cls n ((m.setFlow f1).purRoute none y)

def Chip.flowRun (dev cls : Nat) (m : Chip) : Chip := Chip.flowDrain dev cls (m.flow dev cls).waiting.length m

/-- A frame enters its flow. -/
def Chip.flowSend (dev cls : Nat) (body : PurBody) (length : Nat) (m : Chip) : Chip :=
  let x : PurFrame := { body, cls, dst := dev, src := m.ownId, length, bay := m.bay }
  let f := m.flow dev cls
  (m.setFlow { f with waiting := f.waiting ++ [x] }).flowRun dev cls

/-- A source gives up on a flow (R313). -/
def Chip.flowGiveUp (dev cls : Nat) (m : Chip) : Chip :=
  let f := m.flow dev cls
  let o := m.routeOf (((f.unacked.head?).map fun u => u.frame.epoch).getD m.epoch) dev
  let m1 := m.setFlow { f with unacked := [], next := (f.next + 2 ^ 31) % 2 ^ 32, sync := true }
  ((m1.setFlagIf (decide (o < Config.purlinPorts)) (F.PUR_STAT_path_fail o)).raise SrcName.purlinPath).flowRun dev cls

/-- Resend the unacknowledged frames of a flow (R311); a frame that has been resent 8 times makes the source give up (R313). -/
def Chip.flowResend (dev cls : Nat) (m : Chip) : Chip :=
  let f := m.flow dev cls
  if f.unacked.any fun u => decide (8 ≤ u.resends) then m.flowGiveUp dev cls
  else
    forAll f.unacked (fun u m => (m.bump R.PUR_CNT_RETX).purRoute none u.frame)
      (m.setFlow { f with unacked := f.unacked.map fun u => { u with resends := u.resends + 1 }, ackAt := m.now })

/-- Frames up to number `seq` of a flow are acknowledged. -/
def Chip.flowAck (dev cls seq : Nat) (m : Chip) : Chip :=
  let f := m.flow dev cls
  let rest := f.unacked.filter fun u => !decide ((seq + 2 ^ 32 - u.frame.seq) % 2 ^ 32 < 2 ^ 31)
  if rest.length = f.unacked.length then m
  else (m.setFlow { f with unacked := rest, ackAt := m.now }).flowRun dev cls

/-- The source sends from number `e` on again. -/
def Chip.flowNak (dev cls e : Nat) (m : Chip) : Chip := (m.flowAck dev cls ((e + 2 ^ 32 - 1) % 2 ^ 32)).flowResend dev cls

/-- Data to a space of another module, as DATA frames of at most 16,384 bytes, each with its transfer header (R314); the tag is the
last one's.
(Log: 95 DEDUCED.) -/
def Chip.dataSend (dev closeBay space unit dst tag : Nat) (bytes : List Byte) (m : Chip) : Chip :=
  let n := max 1 (ceilDivN bytes.length 16352)
  forAll (upTo n) (fun i m =>
    let part := (bytes.drop (16352 * i)).take 16352
    let x : TnXfer := { bay := m.bay, closeBay, dst := dst + 16352 * i, length := part.length, space, unit, tag := if i + 1 = n then tag else 0x3FF }
    m.flowSend dev 0 (.data x part) (32 + part.length)) m

/-! ### Lock-step (R329, R442) -/

/-- The leader's MARKS frame to the device the fabric record names. -/
def Chip.marksSend (f : MarksFrame) (m : Chip) : Chip := match m.stick.fabric with
  | none => m
  | some r => m.flowSend r.marksDev 2 (.marks f) (32 + 16 * f.layers.length)

/-- A record of capture memory at a global address, of a fed row of a leader, goes to the same address of the follower (R442).
(Log: 96 DEDUCED.) -/
def Chip.feed (row a : Nat) (bytes : List Byte) (m : Chip) : Chip := match m.stick.fabric with
  | none => m
  | some r => if m.leader && r.feed.any fun x => x.1 == row then m.dataSend r.marksDev m.bay 3 0 (a - 2 ^ 41) 0x3FF bytes else m

/-- The header of a closed strip of a fed row goes to the follower (R442).
(Log: 96 DEDUCED.) -/
def Chip.feedHeader (row : Nat) (bytes : List Byte) (m : Chip) : Chip := match m.stick.fabric with
  | none => m
  | some r => match r.feed.find? fun x => x.1 == row with
    | some x => m.feed row (2 ^ 41 + x.2) bytes
    | none => m

/-- A fed row of a follower (R443).
(Log: 96 DEDUCED.) -/
def Chip.fedRow (m : Chip) (row : Nat) : Bool := m.follower && match m.stick.fabric with
  | none => false
  | some r => r.feed.any fun x => x.1 == row

end Sys2Proof.Machine
end

