-- ==== Sys2Proof/Machine/WitnessOps.lean ====
section
/-!
DEFINITION. Sys2Proof/Machine/WitnessOps.lean: witness marks (R432 to R440): the mixing function, marks and digests, the
release of a mark set to the log, the mark ring, and the lock-step comparison (R445, R446).
-/
namespace Sys2Proof.Machine

/-- mix of R433. -/
def mix (i v : DWord) : DWord :=
  let x0 := (i * 0x9E3779B97F4A7C15) ^^^ (v * 0xC2B2AE3D27D4EB4F)
  let x1 := (x0 ^^^ (x0 >>> 31)) * 0xBF58476D1CE4E5B9
  let x2 := (x1 ^^^ (x1 >>> 27)) * 0x94D049BB133111EB
  x2 ^^^ (x2 >>> 33)

/-- mix over natural numbers, modulo 2⁶⁴. -/
def mixN (i v : Nat) : Nat := (mix (BitVec.ofNat 64 i) (BitVec.ofNat 64 v)).toNat

/-- The sum modulo 2⁶⁴ of the contributions of elements (R433). -/
def markSum (l : List (Nat × Nat)) : Nat := l.foldl (fun a p => (a + mixN p.1 p.2) % 2 ^ 64) 0

/-- The value word of an element (R434): format code, block scale, stored bits. -/
def valueWord (fmt scale bits : Nat) : Nat := fmt % 256 * 2 ^ 56 + scale % 256 * 2 ^ 40 + bits % 2 ^ 32

/-- Add a command's sum to the marks being kept (R435). -/
def addMark (x : Mark) : List Mark → List Mark
  | [] => [x]
  | y :: t =>
    if y.job = x.job ∧ y.key = x.key ∧ y.layer = x.layer ∧ y.row = x.row then
      { y with sum := (y.sum + x.sum) % 2 ^ 64, elements := y.elements + x.elements } :: t
    else y :: addMark x t

/-- The digest of a (job, key) (R438).
(Log: 68 DESIGN CHOICE.) -/
def digestOf (l : List Mark) : Nat := markSum (l.map fun x => (x.layer * 32 + x.row, x.sum))
def elementsOf (l : List Mark) : Nat := l.foldl (fun a x => a + x.elements) 0

/-- The layer table of a job. -/
def Chip.layersOf (m : Chip) (j : Nat) : List Nat := ((m.stick.layers.find? fun t => t.job == j).map (·.layers)).getD []
def Chip.isPart (m : Chip) (j layer : Nat) : Bool :=
  ((m.stick.layers.find? fun t => t.job == j).map fun t => t.parts.contains layer).getD false

/-- Change the witness unit's state. -/
def Chip.onWit (f : WitState → WitState) (m : Chip) : Chip := { m with wit := f m.wit }

/-! ### The queue (R440) -/

/-- A released record enters the queue; a full queue drops it.
(Log: 82 DEDUCED.) -/
def Chip.witPush (r : WitRec) (m : Chip) : Chip :=
  if m.wit.queue.length ≥ 32768 then
    let m1 := (m.setFlag F.WIT_STAT_log_ovf).bump R.WIT_CNT_DROP
    { m1 with wit := { m1.wit with lostRecs := m1.wit.lostRecs + 1 } }
  else
    let m1 := m.bump R.WIT_CNT_REC
    { m1 with wit := { m1.wit with queue := m1.wit.queue ++ [r] } }

/-- The queue drains to the witness stream and the NV log; a loss record follows when records were dropped.
(Log: 82 DEDUCED.) -/
def Chip.witDrain (m : Chip) : Chip :=
  let loss : List WitRec := if m.wit.lostRecs = 0 then []
    else [{ key := m.bay, mark := 0, elements := m.wit.lostRecs, layerId := 0, job := 0, row := 31, kind := 3 }]
  let send (r : WitRec) (m : Chip) : Chip :=
    ((m.emit (.witness r)).toSubs (.witness r)).log "witness" [r.kind, r.job, r.row, r.key, r.mark, r.elements, r.layerId]
  forAll (m.wit.queue ++ loss) send { m with wit := { m.wit with queue := [], lostRecs := 0 } }

/-! ### Release of a set (R436 to R439) -/

/-- The ring keeps the sets of the most recent ring_bays bays, and of the last 64 steps of each background job. -/
def ringTrim (ringBays newest : Nat) (job : Nat) (l : List MarkSet) : List MarkSet :=
  let fg := l.filter fun s => s.background || decide (newest < s.key + ringBays)
  let steps := (fg.filter fun s => s.background && s.job == job).map (·.key)
  let cut := (sortBy (fun a b => decide (b ≤ a)) steps).getD 63 0
  fg.filter fun s => !(s.background && s.job == job) || decide (cut ≤ s.key)

def Chip.ringAdd (s : MarkSet) (m : Chip) : Chip :=
  let newest := if s.background then m.bay else max m.bay s.key
  { m with wit := { m.wit with ring := ringTrim (m.get F.WIT_CFG_ring_bays) newest s.job (m.wit.ring ++ [s]) } }

/-- A set's marks are of a replay row, or of a follower. -/
def Chip.markReplay (m : Chip) (row : Nat) : Bool := m.follower || (decide (8 ≤ row) && decide (row ≤ 15))

/-- The MARKS frame of a set (R445): one entry for each layer in layer-table order, summed over rows. -/
def Chip.marksFrame (m : Chip) (s : MarkSet) : MarksFrame :=
  let sums := (m.layersOf s.job).map fun l =>
    (l, (s.marks.filter fun x => x.layer == l).foldl (fun a x => (a + x.sum) % 2 ^ 64) 0)
  { key := s.key, digest := if s.gap then 0 else digestOf s.marks, elements := if s.gap then 0 else elementsOf s.marks,
    job := s.job, gap := s.gap, background := s.background, layers := if s.gap then [] else sums }

/-- The position of the first layer whose mark differs between a frame and the follower's own marks; 1,023 for none. -/
def firstDiff (a b : List (Nat × Nat)) : Nat :=
  match (upTo (max a.length b.length)).find? fun i => a[i]? != b[i]? with
  | some i => i
  | none => 1023

/-- The comparison of R446 of the leader's frame with the follower's own set. -/
def Chip.lockCompare (f : MarksFrame) (s : MarkSet) (m : Chip) : Chip :=
  let own := m.marksFrame s
  if f.gap || s.gap || s.incomplete then m.bump R.WIT_CNT_SKIP
  else if f.digest = own.digest ∧ f.elements = own.elements then m.bump R.WIT_CNT_MATCH
  else
    let m1 := m.bump R.WIT_CNT_MISMATCH
    let m2 := if m.flag F.WIT_LOCK_FIRST_valid then m1
      else
        let pos := firstDiff f.layers own.layers
        ((((m1.put F.WIT_LOCK_FIRST_valid 1).put F.WIT_LOCK_FIRST_count_diff (b2n (f.elements != own.elements))).put
          F.WIT_LOCK_FIRST_job f.job).put F.WIT_LOCK_FIRST_position pos).wr64 R.WIT_LOCK_KEY_LO R.WIT_LOCK_KEY_HI f.key
    (m2.setFlag F.WIT_STAT_lock_mismatch).raise SrcName.lockStepMismatch

/-- Whether a leader's frame is the one a follower's set is compared with: key c against c + lag, or step c (R446). -/
def Chip.framePairs (m : Chip) (f : MarksFrame) (s : MarkSet) : Bool :=
  f.job == s.job && f.background == s.background &&
    (if s.background then f.key == s.key else f.key + m.get F.WIT_CFG_lag == s.key)

/-- The pair of a job and a close bay of a follower is compared (R442): not before each fed row of the job has closed its first strip
after the lead-in. -/
def Chip.lockBegun (m : Chip) (j k : Nat) : Bool :=
  (m.stick.jobs.filter fun r => r.job == j).all fun r => (r.rows.filter m.fedRow).all fun n => match (m.rowPipe n).fedFirst with
    | some b => decide (b ≤ k)
    | none => false

/-- The follower compares a released set at once when the leader's frame is held; else the set waits (R446). -/
def Chip.followSet (s : MarkSet) (m : Chip) : Chip :=
  if !s.background && !m.lockBegun s.job s.key then m
  else match m.wit.frames.find? fun f => m.framePairs f s with
  | some f => (m.lockCompare f s).onWit fun w => { w with frames := w.frames.erase f }
  | none => m.onWit fun w => { w with own := w.own ++ [s] }

/-- The records of a set (R437, R438): a gap record for an invalid pair, else the digest, and every layer mark in log
mode 1.
(Log: 81 DEDUCED.) -/
def Chip.setRecords (m : Chip) (s : MarkSet) : List WitRec :=
  let base : WitRec := { key := s.key, mark := 0, elements := 0, layerId := 0, job := s.job, row := 31, kind := 1,
                         background := s.background, lost := s.lost, replay := m.follower }
  if s.gap then [base]
  else
    { base with kind := 2, mark := digestOf s.marks, elements := elementsOf s.marks,
                partialMark := s.marks.any fun x => m.isPart s.job x.layer,
                replay := s.marks.any fun x => m.markReplay x.row } ::
      (if m.get F.WIT_CFG_log_mode = 1 then
        s.marks.map fun x => { base with kind := 0, row := x.row, mark := x.sum, elements := x.elements, layerId := x.layer,
                                         partialMark := m.isPart s.job x.layer, replay := m.markReplay x.row }
      else [])

/-- Release a sealed set to the log (R436). A leader sends its MARKS frame (R445), a follower compares (R446).
(Log: 81 DEDUCED.) -/
def Chip.releaseSet (s0 : MarkSet) (m : Chip) : Chip :=
  let s := { s0 with relBay := m.bay }
  let m1 := forAll (m.setRecords s) (fun r m => m.witPush r) m
  let m2 := if s.gap then ((m1.setFlag F.WIT_STAT_gap).setFlagIf s.lost F.WIT_STAT_lost).bump R.WIT_CNT_GAP else m1.ringAdd s
  let m3 := if m2.leader then m2.marksSend (m2.marksFrame s) else m2
  if m3.follower then m3.followSet s else m3

/-- The set of a pair: the arrived one, or none. -/
def Chip.arrivedSet (m : Chip) (j k : Nat) : Option MarkSet :=
  m.wit.arrived.find? fun s => s.job == j && s.key == k && !s.background

/-- A pair has been taken in: its set is released, or waited for until the end of the bay (R436). The model's choice for a
pair that R610 acted on: its set, if it has arrived or arrives by then, is logged with its marks, and only a pair without a
set becomes a gap with the lost flag: R610 names R436 for the gap, and R436 gives one only where the set is missing.
(Log: 130 DEDUCED.) -/
def Chip.releasePair (j k : Nat) (m : Chip) : Chip :=
  match m.arrivedSet j k with
  | some s => (m.releaseSet s).onWit fun w => { w with arrived := w.arrived.erase s }
  | none => m.onWit fun w => { w with awaiting := w.awaiting ++ [(j, k)] }

/-- The job sends verdict records, so its sets wait for them. -/
def Chip.verdictJob (m : Chip) (j : Nat) : Bool := m.stick.jobs.any fun r => r.job == j && r.verdict

/-- A sealed set reaches the Sill: released at once when its pair waits for it; so is a set of a job that sends no verdict
records, which would wait for none.
(Log: 81 DEDUCED.) -/
def Chip.setArrives (s : MarkSet) (m : Chip) : Chip :=
  if !s.sill && !m.verdictJob s.job then m.releaseSet s
  else if m.wit.awaiting.contains (s.job, s.key) then
    (m.releaseSet s).onWit fun w => { w with awaiting := w.awaiting.erase (s.job, s.key) }
  else m.onWit fun w => { w with arrived := w.arrived ++ [s] }

/-- A step of a background job completes (R435, R436): its marks are released, the next step begins.
(Log: 81 DEDUCED.) -/
def Chip.stepDone (j : Nat) (m : Chip) : Chip :=
  let k := (m.jobRun j).step
  let mine := m.wit.open_.filter fun x => x.job == j && x.key == k
  let m1 := if mine.isEmpty then m
    else (m.onWit fun w => { w with open_ := w.open_.filter fun x => !(x.job == j && x.key == k) }).releaseSet
      { job := j, key := k, marks := mine, background := true }
  m1.setJobRun j { m1.jobRun j with step := k + 1 }

end Sys2Proof.Machine
end

