-- ==== Sys2Proof/Machine/EngineOps.lean ====
section
/-!
DEFINITION. Sys2Proof/Machine/EngineOps.lean: what every cut-list engine has in common (R29 to R46): when a command starts, is
skipped or completes, semaphores, pairs, memory errors.
-/
namespace Sys2Proof.Machine

def Chip.onBays (f : BayState → BayState) (m : Chip) : Chip := { m with bays := f m.bays }

/-- Core cycles since the bay's boundary, at 1.0 GHz (R28). -/
def Chip.coreCycle (m : Chip) : Nat := m.now - m.bays.startAt

/-- The half of an engine (R31). -/
def engHalf : Engine → Nat
  | .stud _ | .tenonS2R | .purlinDma _ | .cmDma => 0
  | _ => 1

def Chip.semSet (m : Chip) (half s : Nat) : Bool := (if half = 0 then m.bays.semS else m.bays.semR).contains s
/-- Signal a semaphore of a half (R31). -/
def Chip.signalSem (half s : Nat) (m : Chip) : Chip :=
  if m.semSet half s then m
  else m.onBays fun b => if half = 0 then { b with semS := b.semS ++ [s] } else { b with semR := b.semR ++ [s] }
def Chip.signalOpt (half : Nat) (s : Option Nat) (m : Chip) : Chip := match s with
  | some s => m.signalSem half s
  | none => m

/-! ### Pairs (R39, R49, R51) -/

def Chip.pairInvalid (m : Chip) (j k : Nat) : Bool := m.bays.invalid.contains (j, k)
/-- Mark a pair invalid. -/
def Chip.invalidate (j k : Nat) (m : Chip) : Chip :=
  if m.pairInvalid j k then m else m.onBays fun b => { b with invalid := b.invalid ++ [(j, k)] }
/-- A job processes a close bay: while enabled, from its first close bay on; after a disable, the close bays of its earlier
enablings. -/
def Chip.processes (m : Chip) (j k : Nat) : Bool :=
  let r := m.jobRun j
  (r.applied && decide (r.firstClose ≤ k)) || r.past.any fun x => decide (x.1 ≤ k) && decide (k < x.2)

def Chip.jobRec (m : Chip) (j : Nat) : Option JobRec := m.stick.jobs.find? fun r => r.job == j
/-- Strips closed in a close bay on the rows that the command covers: the batch slots it covers are not all empty (R30, R33). A
SCREEN or DETECT command covers one row (R130, R197), any other the rows of its job.
(Log: 48 DEDUCED.) -/
def Chip.slotsFilled (m : Chip) (e : Engine) (c : CutEntry) (k : Nat) : Bool :=
  let rows := match e with
    | .stud _ => (m.studRow c.descPtr).toList
    | .postproc => [m.descNum (c.descPtr + 1) 1]
    | _ => ((m.jobRec c.job).map JobRec.rows).getD []
  m.fire.closed.any fun s => s.closeBay == k && rows.contains s.row && s.slot.isSome && !s.beyond

/-! ### Starting and completing (R32, R34, R40, R155) -/

/-- The close bay a command works for (R30): the current bay less its stage_offset; for the transfer of the verdict records, whose
stage is bay k + D (R15), the current bay less D, which stage_offset cannot hold at D = 16. -/
def Chip.closeOf (m : Chip) (e : Engine) (c : CutEntry) : Nat :=
  if m.carriesRecords e c then m.bay - m.depth else m.bay - c.stageOffset

/-- The command is skipped (R34, R40, R49): its pair is invalid or not processed, or it is batch_gated and its slots are
empty. The transfer of the verdict records is not skipped for an invalid pair: it carries the notices that stand in place of the
records (R40, R206).
(Log: 48 DEDUCED, 49 DEDUCED.) -/
def Chip.skips (m : Chip) (e : Engine) (c : CutEntry) : Bool :=
  let k := m.closeOf e c
  (m.pairInvalid c.job k && !m.carriesRecords e c) || !m.processes c.job k || (c.batchGated && !m.slotsFilled e c k)

/-- The entry is the engine's next of this bay's list (R32). -/
def Chip.isNext (m : Chip) (e : Engine) (c : CutEntry) : Bool := (m.fgList e m.bay)[(m.eng e).pos]? == some c

/-- The bent's domain is on: not gated, and 2 µs past its wake entry (R37). -/
def Chip.powered (m : Chip) (e : Engine) : Bool :=
  let s := m.eng e
  !s.gated && !s.wakeFailed && match s.wakeAt with
    | some t => decide (t + 2000 ≤ m.now)
    | none => true

/-- A foreground command may start now (R32): its start cycle is reached, the command before it has completed, its
semaphore is signalled. -/
def Chip.ready (m : Chip) (e : Engine) (c : CutEntry) : Bool :=
  m.bays.running && c.kind == .foreground && (m.eng e).running.isNone && m.isNext e c && m.powered e &&
    decide (c.startCycle ≤ m.coreCycle) && decide (m.tb3 < (m.bay + 1) * m.period) && match c.wait with
      | some s => m.semSet (engHalf e) s
      | none => true

/-- The planned length of a bay in core cycles (R28). -/
def Chip.planned (m : Chip) : Nat := m.period - m.period / 5000
/-- The margin before the end guard of R36 that a foreground command's end leaves, and the smallest one seen (R57). -/
def Chip.noteMargin (at_ : Nat) (m : Chip) : Chip :=
  m.put F.RC_SLACK_MIN_min_margin (min (m.get F.RC_SLACK_MIN_min_margin) (m.planned - 5000 - at_))

/-- The engine moves past a skipped entry: the time it was planned for is released (R35). Where it was the engine's last of the bay,
the command that completed before it is the last to count for R57.
(Log: 49 DEDUCED, 52 DEDUCED.) -/
def Chip.advance (e : Engine) (c : CutEntry) (m : Chip) : Chip :=
  let s := m.eng e
  let m1 := m.setEng e { s with pos := s.pos + 1, released := true }
  match s.lastEnd with
  | some t => if c.lastInBay then m1.noteMargin t else m1
  | none => m1

/-! ### What an engine's block shows (R179, R180, R212, R214, R235) -/

/-- Switch domain `d` on or off, as RP_PWR_STAT shows. -/
def Chip.setDomain (d : Nat) (on : Bool) (m : Chip) : Chip := m.put ⟨R.RP_PWR_STAT (d / 32), d % 32, d % 32⟩ (b2n on)

/-- BENT_STAT.state (R179): 0 gated, 1 waking, 2 idle, 3 foreground command, 4 background segment. -/
def Chip.bentState (m : Chip) (n : Nat) : Nat :=
  let s := m.eng (.bent n)
  if s.gated || s.wakeFailed then 0
  else if !m.powered (.bent n) then 1
  else if s.running.isSome then 3
  else if s.bg.isSome then 4 else 2
/-- A bent's block: its state, and whether it runs a command (R180). -/
def Chip.showBent (n : Nat) (m : Chip) : Chip :=
  let s := m.eng (.bent n)
  (m.put (F.BENT_STAT_state n) (m.bentState n)).put (F.BENT_CUR_active n) (b2n (s.running.isSome || s.bg.isSome))
/-- Show the state of the engine's block, a background segment as the command it runs. -/
def Chip.showEng (e : Engine) (m : Chip) : Chip :=
  let s := m.eng e
  let cur := s.running.orElse fun _ => s.bg
  match e with
  | .bent n => m.showBent n
  | .spectral => m.put F.SPEC_STAT_state (b2n cur.isSome)
  | .postproc => m.put F.PP_STAT_state (b2n cur.isSome)
  | .attention => m.put F.ATT_STAT_state (match cur with
    | some r => if r.op = "APPEND" then 2 else 1
    | none => 0)
  | _ => m

/-- Stop and discard the background segment in progress (R46): the job goes back to its last saved point.
(Log: 51 DEDUCED.) -/
def Chip.rollBack (e : Engine) (m : Chip) : Chip :=
  let s := m.eng e
  match s.bg with
  | none => m
  | some r =>
    let j := r.entry.job
    (((m.setEng e { s with bg := none, bgAt := tabSet 0 s.bgAt j (tabGet 0 s.bgSaved j), busy := s.busy + (m.now - r.startedAt) }).bump
      R.RC_BG_ROLLBACK).setFlag F.RC_BAY_STAT_bg_rollback).showEng e

/-- Start a foreground command: the engine runs what `work` gives; a skipped command is passed over; one that cannot start
yet changes nothing. A background segment that is still in progress has outlived its time and is rolled back: it never delays a
foreground command (R46).
(Log: 52 DEDUCED.) -/
def startCmd (dt : Nat) (e : Engine) (c : CutEntry) (work : Chip → Running × Chip) (m0 : Chip) : Chip :=
  let m := elapse dt m0
  if !m.bays.running || c.kind != .foreground || (m.eng e).running.isSome || !m.isNext e c then m
  else if m.skips e c then m.advance e c
  else if !m.ready e c then m
  else
    let (r, m1) := work (m.rollBack e)
    (m1.setEng e { m1.eng e with released := false,
                                 running := some { r with entry := c, closeBay := m.closeOf e c, startedAt := m.now } }).showEng e

/-- Bring the writes of a completed command into memory.
(Log: 52 DEDUCED.) -/
def Chip.commitWrites (r : Running) (m : Chip) : Chip :=
  forAll r.writes (fun w m => m.putBytes w.1 w.2) (forAll r.clears (fun c m => m.clearRange c.1 c.2) m)

/-- Pass a command's sum to the witness unit (R435). -/
def Chip.passMark (r : Running) (m : Chip) : Chip :=
  match r.layer with
  | some l =>
    let k : Mark := { job := r.entry.job, key := r.closeBay, layer := l, row := r.row, sum := r.sum, elements := r.elements }
    m.onWit fun w => { w with open_ := addMark k w.open_ }
  | none => m

/-! ### Memory errors (R245, R246, R255, R259) -/

/-- The bent that owns a byte of bent SRAM. -/
def bentOf (g : Nat) : Nat := g / 2 ^ 23

/-- Latch an error address in a bent's BENT_SRAM_ERR.
(Log: 14 DEDUCED.) -/
def Chip.latchSram (n a : Nat) (ue scrub : Bool) (m : Chip) : Chip :=
  (((m.put (F.BENT_SRAM_ERR_ue n) (b2n ue)).put (F.BENT_SRAM_ERR_scrub n) (b2n scrub))).put (F.BENT_SRAM_ERR_addr n)
    (a / 16 * 16)

/-- Corrected granules, each counted by the bent that owns it (R245). Only a valid granule is checked. -/
def Chip.sramCorrected (scrub : Bool) (l : List Nat) (m : Chip) : Chip :=
  forAll (l.filter fun g => tabGet false m.sramValid (g / 16)) (fun g m =>
    let n := bentOf g
    ((m.setFlag (F.BENT_SRAM_STAT_ce n)).bump (R.BENT_CNT_CE n)).latchSram n (g % 2 ^ 23) false scrub) m

/-- Uncorrectable granules (R246): they keep their faulty code and read as zero until they are written. -/
def Chip.sramLost (scrub : Bool) (l : List Nat) (m : Chip) : Chip :=
  forAll (l.filter fun g => tabGet false m.sramValid (g / 16)) (fun g m =>
    let n := bentOf g
    let m1 := if m.sramBad.contains (g / 16) then m else { m with sramBad := m.sramBad ++ [g / 16] }
    (((m1.setFlag (F.BENT_SRAM_STAT_ue n)).bump (R.BENT_CNT_UE n)).latchSram n (g % 2 ^ 23) true scrub).raise
      SrcName.bentSramUncorrectable) m

/-- Parity errors in groups of 64 valid bits (R246): the group's valid bits are cleared. -/
def Chip.sramParity (scrub : Bool) (l : List Nat) (m : Chip) : Chip :=
  forAll l (fun g m =>
    let n := bentOf g
    ((((m.clearRange (g / 1024 * 1024) 1024).setFlag (F.BENT_SRAM_STAT_ue n)).bump (R.BENT_CNT_UE n)).latchSram n (g % 2 ^ 23) true
      scrub).raise SrcName.bentSramUncorrectable) m

/-- Clear the hash registers of the HBM segments that `c` picks (R491). -/
def Chip.clearSeg (c : SegRec → Bool) (m : Chip) : Chip :=
  let gone := (m.stick.segs.filter fun s => decide (2 ≤ s.kind) && c s).map (·.seg)
  { m with trust := { m.trust with segHash := m.trust.segHash.filter fun p => !gone.contains p.1 } }

/-- HBM errors (R255): corrected reads, repeated transfers, uncorrectable reads, by address. The stack is address bit 13
(R252).
(Log: 14 DEDUCED, 120 DEDUCED.) -/
def Chip.hbmErrs (er : ReadErrs) (m : Chip) : Chip :=
  let latch (a : Nat) (ue : Bool) (m : Chip) : Chip :=
    (m.wr R.HBM_ERR_LO (BitVec.ofNat 32 a)).wr R.HBM_ERR_HI (BitVec.ofNat 32 (a / 2 ^ 32 % 32 + b2n ue * 2 ^ 31))
  let flag (b a : Nat) (m : Chip) : Chip := m.setBit R.HBM_STAT (b + 8 * (a / 2 ^ 13 % 2))
  let m1 := forAll er.hbmCe (fun a m => latch a false (flag 0 a (m.bump R.HBM_CNT_CE))) m
  let m2 := forAll er.hbmRetry (fun a m => flag 2 a (m.bump R.HBM_CNT_RETRY)) m1
  forAll er.hbmUe (fun a m => ((latch a true (flag 1 a (m.bump R.HBM_CNT_UE))).raise SrcName.hbmUncorrectable).clearSeg fun s =>
    decide (s.target ≤ a) && decide (a < s.target + s.bytes.length)) m2

/-- Capture-memory errors (R259).
(Log: 14 DEDUCED.) -/
def Chip.cmErrs (er : ReadErrs) (m : Chip) : Chip :=
  let latch (a : Nat) (ue : Bool) (m : Chip) : Chip :=
    (m.wr R.CM_ERR_LO (BitVec.ofNat 32 a)).wr R.CM_ERR_HI (BitVec.ofNat 32 (a / 2 ^ 32 % 16 + b2n ue * 2 ^ 31))
  let m1 := forAll er.cmCe (fun a m => latch a false ((m.setFlag F.CM_STAT_ce).bump R.CM_CNT_CE)) m
  forAll er.cmUe (fun a m => (latch a true ((m.setFlag F.CM_STAT_ue).bump R.CM_CNT_UE)).raise SrcName.cmUncorrectable) m1

/-- One of the errors is uncorrectable (R246, R255, R259). A granule of bent SRAM whose valid bit is clear is not checked, and no error
(R247). -/
def Chip.hasUe (m : Chip) (er : ReadErrs) : Bool :=
  (er.sramUe.any fun g => tabGet false m.sramValid (g / 16)) || !er.sramPe.isEmpty || !er.hbmUe.isEmpty || !er.cmUe.isEmpty

/-- The granules of bent SRAM among `reads` (address, bytes) that still hold the faulty code of an earlier uncorrectable error (R246). -/
def Chip.stillBad (m : Chip) (reads : List (Nat × Nat)) : List Nat :=
  (m.sramBad.filter fun x => reads.any fun r =>
    decide (r.2 ≠ 0) && decide (r.1 / 16 ≤ x) && decide (x ≤ (r.1 + r.2 - 1) / 16)).map (· * 16)

/-- The errors that a reader of `reads` meets: those given, and the granules whose code is faulty already. -/
def Chip.allErrs (m : Chip) (reads : List (Nat × Nat)) (er : ReadErrs) : ReadErrs :=
  if m.sramBad.isEmpty then er
  else { er with sramUe := er.sramUe ++ (m.stillBad reads).filter fun a => !(er.sramUe.any fun x => x / 16 == a / 16) }

/-- Write collisions reported by the bents named (R243): the write is issued again, so that the bytes stand as ordered.
(Log: 80 DESIGN CHOICE.) -/
def Chip.collisions (l : List Nat) (m : Chip) : Chip :=
  forAll l (fun n m => (m.setFlag (F.BENT_SRAM_STAT_collision n)).bump (R.BENT_CNT_COLL n)) m

/-- What a command of an engine meets in the memories as it reads `reads`; an uncorrectable granule makes a foreground command's pair
invalid at once, and rolls a background segment back (R246, R255, R259).
(Log: 14 DEDUCED, 120 DEDUCED.) -/
def Chip.meetErrs (e : Engine) (c : CutEntry) (reads : List (Nat × Nat)) (er0 : ReadErrs) (m : Chip) : Chip :=
  let er := m.allErrs reads er0
  let m1 := (((((m.sramCorrected false er.sramCe).sramLost false er.sramUe).sramParity false er.sramPe).hbmErrs er).cmErrs er).collisions
    er.colls
  if !m.hasUe er then m1
  else if c.kind == .foreground then m1.invalidate c.job (m.closeOf e c)
  else m1.setEng e { m1.eng e with hit := true }

/-- Read bytes with the uncorrectable granules of HBM and capture memory delivered as zero. -/
def Chip.readMem (m : Chip) (er : ReadErrs) (g n : Nat) : List Byte :=
  (upTo n).map fun i =>
    let a := g + i
    let bad := (decide (2 ^ 40 ≤ a) && decide (a < 2 ^ 41) && er.hbmUe.any fun x => hbmAddr x / 32 == a / 32) ||
      (decide (2 ^ 41 ≤ a) && decide (a < 2 ^ 42) && er.cmUe.any fun x => cmAddr x / 64 == a / 64)
    if bad then 0 else m.byteAt a

end Sys2Proof.Machine
end

