-- ==== Sys2Proof/Machine/Encoder.lean ====
section
/-!
DEFINITION. Sys2Proof/Machine/Encoder.lean: the encoder ports (R341 to R359): counting in quadrature, tooth and SSI modes,
stop, reverse and loss, the interpolated position, index and probe latches, the bay latch.
-/
namespace Sys2Proof.Machine

/-! ### Settings -/

def Chip.encMode (m : Chip) (p : Nat) : Nat := m.get (F.ENC_CFG_mode p)
/-- win_lo (R347), a multiple of 1/16. -/
def Chip.winLo (m : Chip) (p : Nat) : Q := ⟨m.get (F.ENC_TOOTH_CFG_win_lo p), 16⟩
/-- win_hi (R347). -/
def Chip.winHi (m : Chip) (p : Nat) : Q := ⟨m.get (F.ENC_TOOTH_CFG_win_hi p) + 16, 16⟩
/-- Counts per tooth (R346). -/
def Chip.toothCt (m : Chip) (p : Nat) : Nat := m.get (F.ENC_TOOTH_CFG_ct p) + 1

/-! ### Speed and position (R345, R346, R350, R355) -/

/-- The speed estimate in counts per timing-clock cycle, without sign; none while it is undefined. In quadrature mode it
is the last count changes of one direction, at most four of them, over the time they span (R345); ct / P in tooth mode;
|d| over the last sample interval in SSI mode. While stopped or lost it is 0.
(Log: 17 DEDUCED.) -/
def Chip.encSpeed (m : Chip) (p : Nat) : Option Q :=
  let e := m.enc p
  if e.held.isSome then some ⟨0, 1⟩
  else match m.encMode p with
    | 1 =>
      match e.chg with
      | a :: b :: t =>
        let old := (b :: t).getLastD b
        if a > old then some ⟨((b :: t).length : Int), a - old⟩ else none
      | _ => none
    | 2 => match e.period with
      | some P => if 0 < P then some ⟨m.toothCt p, P⟩ else none
      | none => none
    | 3 => if 0 < e.ssiSpan then some ⟨e.ssiD.natAbs, e.ssiSpan⟩ else none
    | _ => none

/-- The interpolator of R348 at cycle `c`: from the segment's position it advances at the estimated rate, and at 9/8 or
7/8 of it until the phase error is absorbed, which takes 8 · |e| counts of travel; it runs no further than
win_hi · ct − 2⁻¹⁶ counts beyond the last accepted or placed tooth (R355). -/
def Chip.toothPos (m : Chip) (p c : Nat) : Q :=
  let e := m.enc p
  match m.encSpeed p with
  | none => qOfInt e.count
  | some v =>
    let travel := qMul v (qOfInt ((c : Int) - e.segAt))
    let part := qMin (qAbs e.segErr) (qMul travel ⟨1, 8⟩)
    let corr := if e.segErr.num < 0 then qNeg part else part
    let cap := qAdd (qOfInt e.capBase) (qSub (qMul (m.winHi p) (qOfInt (m.toothCt p))) ⟨1, 65536⟩)
    qMin (qAdd (qAdd e.segPos travel) corr) cap

/-- The interpolated position at cycle `c`, in 1/65,536 counts (R355): held while stopped or lost (R352), the count with
fraction 0 in reverse (R353). It never decreases while the belt moves forward, so a sample that falls short of the position
reached leaves it there. -/
def Chip.encPosAt (m : Chip) (p c : Nat) : Int :=
  let e := m.enc p
  match e.held with
  | some h => h
  | none =>
    if !e.up then e.count * 65536
    else match m.encMode p with
      | 2 => qFloor (qMul (m.toothPos p c) ⟨65536, 1⟩)
      | 0 => e.count * 65536
      | _ =>
        match m.encSpeed p with
        | none => e.count * 65536
        | some v =>
          let last := if m.encMode p = 3 then e.ssiAt else e.lastChg.getD c
          max (e.count * 65536 + min 65535 (qFloor (qMul (qMul v (qOfInt ((c : Int) - last))) ⟨65536, 1⟩))) (e.least.getD (e.count * 65536))

/-- The interpolated position now. -/
def Chip.encPos (m : Chip) (p : Nat) : Int := m.encPosAt p m.cyc

/-- The belt is taken as stopped, or the port is lost (R352, R354). -/
def Chip.encStill (m : Chip) (p : Nat) : Bool := (m.enc p).held.isSome
/-- No change at a count is sealed: stopped or lost, in reverse, or not yet past the highest count reached before the
reversal (R352, R353). -/
def Chip.encBarred (m : Chip) (p : Nat) : Bool :=
  let e := m.enc p
  e.held.isSome || !e.up || e.bar.isSome

/-- The time from now, in ns, at which the interpolated position reaches count `c` (R19, R356): negative where it has
been reached; none where it will not be reached at the present speed. -/
def Chip.encDue (m : Chip) (p : Nat) (c : Int) : Option Q :=
  let d := c * 65536 - m.encPos p
  match m.encSpeed p with
  | some v => if v.num = 0 then (if d ≤ 0 then some ⟨0, 1⟩ else none)
    else some (qMul (qDiv ⟨d, 65536⟩ v) ⟨4, 1⟩)
  | none => if d ≤ 0 then some ⟨0, 1⟩ else none

/-! ### Registers (R372, R373) -/

/-- Put a 48-bit position (count and 16-bit fraction) into a _LO, _HI pair. -/
def Chip.putPos (m : Chip) (lo hi : Nat) (pos : Int) : Chip :=
  let c := unsignedOf 48 (pos.fdiv 65536)
  (m.wr lo (BitVec.ofNat 32 c)).wr hi (BitVec.ofNat 32 (c / 2 ^ 32 + (pos % 65536).toNat * 65536))

def Chip.setEncState (m : Chip) (p st : Nat) : Chip := m.put (F.ENC_STAT_state p) st

/-! ### Fired on estimate (R349) -/

/-- A count within ±1 count of a position.
(Log: 19 DEDUCED.) -/
def nearCount (c : Int) (pos : Q) : Bool := qLe (qAbs (qSub (qOfInt c) pos)) ⟨1, 1⟩

/-- How many changes of an entry are flagged now by a tooth event at a position: those near it that are not flagged yet.
(Log: 19 DEDUCED.) -/
def estChanges (pos : Q) (e : FEntry) : Nat :=
  b2n (nearCount e.cOpen pos && !e.estOpen) + b2n (nearCount e.cClose pos && !e.estClose)

/-- The entry with its changes near a position flagged.
(Log: 19 DEDUCED.) -/
def estEntry (pos : Q) (e : FEntry) : FEntry :=
  { e with estimate := true, estOpen := e.estOpen || nearCount e.cOpen pos, estClose := e.estClose || nearCount e.cClose pos }

/-- Flag the changes within ±1 count of a position: of queued entries of rows on the port, and of entries that have left, which
are reported by a supplement (R367). A change that is flagged already counts no more.
(Log: 19 DEDUCED.) -/
def Chip.markEstimate (p : Nat) (pos : Q) (m : Chip) : Chip :=
  let hit (e : FEntry) : Bool := m.get (F.FS_ROW_CFG_enc_port e.row) == p && decide (0 < estChanges pos e)
  let inQ (m : Chip) (q : Nat) : Chip :=
    let n := ((m.queue q).filter hit).foldl (fun a e => a + estChanges pos e) 0
    (m.setQueue q ((m.queue q).map fun e => if hit e then estEntry pos e else e)).bumpBy (R.FS_Q_CNT_EST q) n
  let m1 := (upTo Config.pegPorts).foldl inQ m
  let late (x : Nat × FEntry) : Bool := x.1 == p && decide (0 < estChanges pos x.2)
  let gone := m.fire.left.filter late
  let m2 := forAll gone (fun x m => (m.release (entryReport 2 (estEntry pos x.2))).bumpBy (R.FS_Q_CNT_EST x.2.port)
    (estChanges pos x.2)) m1
  let m3 := { m2 with fire := { m2.fire with left := m2.fire.left.map fun x => if late x then (x.1, estEntry pos x.2) else x } }
  let any := !gone.isEmpty || (upTo Config.pegPorts).any fun q => (m.queue q).any hit
  m3.setFlagIf any F.FS_STAT_estimate

/-- Entries that have left and lie well behind the count can no longer be marked. -/
def Chip.forgetLeft (p : Nat) (m : Chip) : Chip :=
  { m with fire := { m.fire with left := m.fire.left.filter fun x => x.1 != p || decide ((m.enc p).count ≤ x.2.cClose + 8194) } }

/-! ### Loss and recovery (R354) -/

/-- The port enters encoder-lost: it holds its count and position and acts as stopped. `cause` 1 line fault, 2 synthetic
teeth, 3 SSI. A line fault of a port that is lost already governs its recovery.
(Log: 20 DEDUCED.) -/
def Chip.encLost (cause p : Nat) (m : Chip) : Chip :=
  if (m.get (F.ENC_STAT_state p)) = 4 then (if cause = 1 then m.setEnc p { m.enc p with lostBy := 1 } else m)
  else
    let pos := m.encPos p
    let m1 := m.setEnc p { m.enc p with held := some pos, lostBy := cause, chg := [], idxPrev := none, period := none,
                                        acqTeeth := 0, synthRun := 0, prevReal := false, ssiRaw := none, ssiRej := 0, ssiSpan := 0 }
    (((m1.setEncState p 4).setFlag (F.ENC_STAT_lost p)).bump (R.ENC_CNT_LOST p)).assert SrcName.encoderLost

/-- Some port is lost.
(Log: 20 DEDUCED.) -/
def Chip.anyEncLost (m : Chip) : Bool := (upTo Config.encPorts).any fun p => m.get (F.ENC_STAT_state p) == 4

/-- The port recovers: it acquires again from the count it held.
(Log: 20 DEDUCED.) -/
def Chip.encRecover (p : Nat) (m : Chip) : Chip :=
  let e := m.enc p
  let m1 := (m.setEnc p { e with held := none, lostBy := 0, lastChg := none, prevChg := none, chg := [] }).setEncState p 1
  m1.follow m1.anyEncLost SrcName.encoderLost

/-! ### Motion -/

/-- The registered count after a change by `d`, with the highest count, the reversal's bar and the direction (R353).
(Log: 21 DEDUCED.) -/
def Chip.encMove (p : Nat) (d : Int) (m : Chip) : Chip :=
  let e := m.enc p
  let c := wrap48 (e.count + d)
  let up := decide (0 ≤ d)
  let bar := if up then (match e.bar with
      | some b => if b < c then none else some b
      | none => none)
    else (match e.bar with
      | some b => some b
      | none => some e.highest)
  let m1 := m.setEnc p { e with count := c, up, moved := true, bar, highest := if e.highest < c then c else e.highest,
                                held := none, idxPrev := if up == e.up then e.idxPrev else none, least := if up then e.least else none }
  (m1.put (F.ENC_STAT_reverse p) (b2n !up)).forgetLeft p

/-- A count change in quadrature mode, in direction `d` (R344, R345, R352). -/
def Chip.quadStep (p : Nat) (d : Int) (m : Chip) : Chip :=
  let e := m.enc p
  let same := e.up == decide (0 ≤ d)
  let chg := if same then (m.cyc :: e.chg).take 5 else [m.cyc]
  let m1 := m.encMove p d
  let m2 := m1.setEnc p { m1.enc p with chg, lastChg := some m.cyc, prevChg := e.lastChg }
  m2.setEncState p (if 2 ≤ chg.length then 2 else 1)

/-- QUADRATURE_EDGE: the filtered levels of A and B after an accepted change (R344). Both changed at once is an illegal
transition; one changed moves the count by one, up when A leads B, the sense reversed by invert. -/
def quadratureEdge (dt p : Nat) (a b : Bool) (m0 : Chip) : Chip :=
  let m := elapse dt m0
  let e := m.enc p
  let m1 := m.setEnc p { e with a, b }
  if m.encMode p != 1 || m.get (F.ENC_STAT_state p) == 4 then m1
  else if e.a != a && e.b != b then (m1.setFlag (F.ENC_STAT_illegal p)).bump (R.ENC_CNT_ILLEGAL p)
  else if e.a == a && e.b == b then m1
  else
    let aLeads := if e.a != a then a != b else a == b
    m1.quadStep p (if aLeads != m.flag (F.ENC_CFG_invert p) then 1 else -1)

/-- BELT_STOP: no count change for twice the interval between the last two (R352), in quadrature and SSI modes. -/
def beltStop (dt p : Nat) (m0 : Chip) : Chip :=
  let m := elapse dt m0
  let e := m.enc p
  let due := match e.lastChg, e.prevChg with
    | some l, some q => decide (2 * (l - q) ≤ m.cyc - l)
    | _, _ => false
  if (m.encMode p != 1 && m.encMode p != 3) || e.held.isSome || !due then m
  else
    let pos := m.encPos p
    (((m.setEnc p { e with held := some pos, chg := [], idxPrev := none }).setEncState p 3).setFlag (F.ENC_STAT_stopped p)).bump
      (R.ENC_CNT_STOP p)

/-! ### Tooth mode (R346 to R348) -/

/-- The interpolator re-phased: from the position it has now, with phase error `err` still to absorb; `base` is the count
of the tooth accepted or placed.
(Log: 18 DEDUCED.) -/
def Chip.rephase (p : Nat) (pos err : Q) (base : Int) (m : Chip) : Chip :=
  m.setEnc p { m.enc p with segAt := m.cyc, segPos := pos, segErr := err, capBase := base }

/-- Close the window of the tooth expected after the last one (R347): a synthetic tooth at its predicted time, or, after
two in a row, encoder-lost. The synthetic tooth's phase error is its count minus the position at its predicted time. -/
def Chip.windowClose (p : Nat) (m : Chip) : Chip :=
  let e := m.enc p
  match e.period, e.lastTooth with
  | some P, some l =>
    if 2 ≤ e.synthRun then m.encLost 2 p
    else
      let predicted := l + P
      let d : Int := if e.up then m.toothCt p else -(m.toothCt p : Int)
      let posPred := m.toothPos p predicted
      let posNow := m.toothPos p m.cyc
      let m1 := m.encMove p d
      let c := (m1.enc p).count
      let m2 := m1.setEnc p { m1.enc p with lastTooth := some predicted, synthRun := e.synthRun + 1, prevReal := false }
      let m3 := m2.rephase p posNow (qSub (qOfInt c) posPred) c
      ((m3.setFlag (F.ENC_STAT_synth p)).bump (R.ENC_CNT_SYNTH p)).markEstimate p (qOfInt c)
  | _, _ => m

/-- The window of the expected tooth has ended: more than win_hi · P since the last tooth, or exactly that with no tooth
in this cycle (`atEnd`).
(Log: 18 DEDUCED.) -/
def Chip.windowOver (p : Nat) (atEnd : Bool) (m : Chip) : Bool :=
  let e := m.enc p
  match e.period, e.lastTooth with
  | some P, some l =>
    let lim := qMul (m.winHi p) (qOfInt P)
    let t := qOfInt ((m.cyc : Int) - l)
    m.get (F.ENC_STAT_state p) == 2 && (if atEnd then qLe lim t else qLt lim t)
  | _, _ => false

/-- TOOTH_WINDOW_EXPIRY (R347).
(Log: 18 DEDUCED.) -/
def toothWindowExpiry (dt p : Nat) (m0 : Chip) : Chip :=
  let m := elapse dt m0
  if m.encMode p = 2 ∧ m.windowOver p true = true then m.windowClose p else m

/-- Close every window that ended before this cycle; at most three end before the port is lost. -/
def Chip.closeWindows (p : Nat) : Nat → Chip → Chip
  | 0, m => m
  | n + 1, m => if m.windowOver p false then (m.windowClose p).closeWindows p n else m

/-- TOOTH_EDGE: a rising edge of A in tooth mode, with the level of B (R346, R347). Before the port runs, the first two
teeth are accepted without a window; after a loss by synthetic teeth the first of them recovers the port (R354). -/
def toothEdge (dt p : Nat) (b : Bool) (m00 : Chip) : Chip :=
  let m0 := elapse dt m00
  if m0.encMode p != 2 || (m0.get (F.ENC_STAT_state p) == 4 && (m0.enc p).lostBy != 2) then m0
  else
    let m := m0.closeWindows p 3
    let m1 := if m.get (F.ENC_STAT_state p) == 4 && (m.enc p).lostBy == 2 then m.encRecover p else m
    let e := m1.enc p
    let ct : Int := m1.toothCt p
    let d := if m1.flag (F.ENC_CFG_dir_src p) && !b then -ct else ct
    if m1.get (F.ENC_STAT_state p) = 2 then
      match e.period, e.lastTooth with
      | some P, some l =>
        let t := m1.cyc - l
        if qLt (qOfInt t) (qMul (m1.winLo p) (qOfInt P)) then
          ((m1.setFlag (F.ENC_STAT_noise p)).bump (R.ENC_CNT_NOISE p)).markEstimate p (m1.toothPos p m1.cyc)
        else
          let pos : Q := if e.up then m1.toothPos p m1.cyc else qOfInt e.count
          let m2 := m1.encMove p d
          let c := (m2.enc p).count
          let m3 := m2.setEnc p { m2.enc p with lastTooth := some m1.cyc, synthRun := 0, prevReal := true,
                                                period := if e.prevReal then some t else some P }
          m3.rephase p pos (qSub (qOfInt c) pos) c
      | _, _ => m1
    else
      let m2 := m1.encMove p d
      let c := (m2.enc p).count
      let m3 := match e.acqTeeth, e.lastTooth with
        | n + 1, some l => (m2.setEnc p { m2.enc p with period := some (m1.cyc - l), acqTeeth := n + 2, synthRun := 0 }).setEncState p 2
        | _, _ => (m2.setEnc p { m2.enc p with acqTeeth := 1 }).setEncState p 1
      let m4 := m3.setEnc p { m3.enc p with lastTooth := some m1.cyc, prevReal := true }
      m4.rephase p (qOfInt c) ⟨0, 1⟩ c

/-! ### SSI mode (R350, R351) -/

/-- Gray code to binary, `n` bits. -/
def grayToBin (n r : Nat) : Nat :=
  ((upTo n).foldl (fun (acc : Nat × Bool) i =>
    let b := xor acc.2 (bitN r (n - 1 - i))
    (acc.1 * 2 + b2n b, b)) (0, false)).1

/-- SSI_SAMPLE: a frame read at its first falling clock edge, with the data line's level in the half clock before it and
the raw bits received. A line that does not read 1 rejects the sample, and so does a jump beyond the prediction by more
than jump_max; three rejections in a row lose the port. The first sample after start or loss loads the count.
(Log: 21 DEDUCED.) -/
def ssiSample (dt p raw : Nat) (lineHigh : Bool) (m0 : Chip) : Chip :=
  let m := elapse dt m0
  if m.encMode p != 3 || (m.get (F.ENC_STAT_state p) == 4 && (m.enc p).lostBy == 1) then m
  else
    let e := m.enc p
    let n := m.get (F.ENC_SSI_CFG_bits p) + 1
    let r0 := raw % 2 ^ n
    let r1 := if m.flag (F.ENC_SSI_CFG_gray p) then grayToBin n r0 else r0
    let r := if m.flag (F.ENC_CFG_invert p) then (2 ^ n - r1) % 2 ^ n else r1
    let span := m.cyc - e.ssiAt
    let d := match e.ssiRaw with
      | some q => signedOf n (r + 2 ^ n - q)
      | none => 0
    let predicted : Q := match e.ssiRaw, m.encSpeed p with
      | some _, some v => qMul v (qOfInt span)
      | _, _ => ⟨0, 1⟩
    let jump := e.ssiRaw.isSome && qLt (qAdd predicted (qOfInt (m.get (F.ENC_SSI_CFG_jump_max p)))) (qOfInt d.natAbs)
    if !lineHigh || jump then
      let m1 := ((m.setEnc p { e with ssiRej := e.ssiRej + 1 }).setFlag (F.ENC_STAT_ssi_err p)).bump (R.ENC_CNT_SSI_ERR p)
      if 2 ≤ e.ssiRej then m1.encLost 3 p else m1
    else
      let m1 := if m.get (F.ENC_STAT_state p) == 4 then m.encRecover p else m
      match e.ssiRaw with
      | none =>
        let c := signedOf n r
        let m2 := m1.setEnc p { m1.enc p with count := c, highest := c, bar := none, ssiRaw := some r, ssiAt := m.cyc, ssiSpan := 0,
                                              ssiD := 0, ssiRej := 0, lastChg := some m.cyc, held := none, least := none }
        m2.setEncState p 1
      | some _ =>
        let m2 := if d = 0 then m1 else
          let m3 := m1.encMove p d
          m3.setEnc p { m3.enc p with lastChg := some m.cyc, prevChg := e.lastChg }
        (m2.setEnc p { m2.enc p with least := if e.up && decide (0 ≤ d) then some (m1.encPos p) else none, ssiRaw := some r, ssiAt := m.cyc, ssiSpan := span, ssiD := d, ssiRej := 0 }).setEncState p
          (if (m2.enc p).held.isSome then 3 else 2)

/-! ### Line faults (R342) -/

/-- The inputs a mode counts with: 0 A, 1 B, 2 Z. -/
def countingInput (mode i : Nat) : Bool :=
  match mode with
  | 1 => i == 0 || i == 1
  | 2 => i == 0
  | 3 => i == 0
  | _ => false

/-- The sticky flag of a line fault on input `i` of port `p`. -/
def lineFaultFlag (p i : Nat) : Fld :=
  if i = 0 then F.ENC_STAT_line_fault_a p else if i = 1 then F.ENC_STAT_line_fault_b p else F.ENC_STAT_line_fault_z p

/-- ENCODER_LINE_FAULT on input `i` (0 A, 1 B, 2 Z): the flag, and encoder-lost on an input the mode counts with. -/
def encoderLineFault (dt p i : Nat) (m0 : Chip) : Chip :=
  let m := elapse dt m0
  if m.encMode p = 0 then m
  else
    let e := m.enc p
    let m1 := (m.setEnc p { e with lineFaults := i :: e.lineFaults.filter (· != i) }).setFlag (lineFaultFlag p i)
    if countingInput (m.encMode p) i then m1.encLost 1 p else m1

/-- LINE_FAULT_CLEAR: the input has been valid for 10 ms; the port recovers when no counting input is at fault. -/
def lineFaultClear (dt p i : Nat) (m0 : Chip) : Chip :=
  let m := elapse dt m0
  let e := m.enc p
  let m1 := m.setEnc p { e with lineFaults := e.lineFaults.filter (· != i) }
  if m.get (F.ENC_STAT_state p) == 4 && e.lostBy == 1 && !((e.lineFaults.filter (· != i)).any (countingInput (m.encMode p)))
  then m1.encRecover p else m1

/-! ### Index, probe and bay latches (R357 to R359) -/

/-- INDEX_EDGE: a filtered rising edge of Z with index_en set (R357), in the modes in which Z may be the index (R341).
(Log: 22 DESIGN CHOICE.) -/
def indexEdge (dt p : Nat) (m0 : Chip) : Chip :=
  let m := elapse dt m0
  if !m.flag (F.ENC_CFG_index_en p) || !(m.encMode p == 1 || m.encMode p == 2) then m
  else
    let e := m.enc p
    let m1 := ((m.putPos (R.ENC_IDX_LO p) (R.ENC_IDX_HI p) (e.count * 65536)).setFlag (F.ENC_STAT_index_seen p)).bump (R.ENC_CNT_INDEX p)
    let m2 := m1.setEnc p { e with idxPrev := if e.up && !e.held.isSome then some e.count else none }
    match e.idxPrev with
    | some q =>
      if e.up && !e.held.isSome then
        let drift := e.count - q - (m.get (F.ENC_IDX_CFG_cpr p) : Int)
        let m3 := (m2.put (F.ENC_DRIFT_last p) (unsignedOf 16 (clampI (-32768) 32767 drift))).put (F.ENC_DRIFT_largest p)
          (max (m.get (F.ENC_DRIFT_largest p)) (min 65535 drift.natAbs))
        if m.get (F.ENC_IDX_CFG_drift_tol p) < drift.natAbs then
          (m3.setFlag (F.ENC_STAT_drift_exc p)).raise SrcName.encoderDrift
        else m3
      else m2
    | none => m2

/-- The probe latch of port `p` (R358).
(Log: 22 DESIGN CHOICE.) -/
def Chip.probeLatch (p : Nat) (m : Chip) : Chip :=
  let e := m.enc p
  let m1 := (m.putPos (R.ENC_PRB_LO p) (R.ENC_PRB_HI p) (m.encPos p)).wr64 (R.ENC_PRB_T_LO p) (R.ENC_PRB_T_HI p) m.tb3
  let m2 := (m1.put (F.ENC_PRB_SEQ_seq p) (m.get (F.ENC_PRB_SEQ_seq p) + 1)).bump (R.ENC_CNT_PROBE p)
  (m2.setEnc p { e with probePending := true }).setFlagIf e.probePending (F.ENC_STAT_probe_ovw p)

/-- PROBE_EDGE: a filtered edge of the port's probe source; Z is the probe when probe_src is 32, and a field input its
number (R358). `src` is the source of the edge. -/
def probeEdge (dt p src : Nat) (m0 : Chip) : Chip :=
  let m := elapse dt m0
  if m.encMode p != 0 && m.get (F.ENC_CFG_probe_src p) == src && src ≤ 32 then m.probeLatch p else m

/-- PROBE_SEQ_READ: a read of ENC_PRB_SEQ clears the pending state of probe_ovw (R373). -/
def probeSeqRead (p : Nat) (m : Chip) : Chip := m.setEnc p { m.enc p with probePending := false }

/-- The latch of every port at a bay boundary (R359). -/
def Chip.encBayLatch (m : Chip) : Chip :=
  forAll (upTo Config.encPorts) (fun p m => if m.encMode p = 0 then m else m.putPos (R.ENC_BAY_LO p) (R.ENC_BAY_HI p) (m.encPos p)) m

/-! ### The meanings of the commands -/

/-- QUADRATURE_EDGE (R344). -/
def execQuadratureEdge (dt p : Nat) (a b : Bool) (s : State) : Answer :=
  onUnit (decide (p < Config.encPorts)) dt (quadratureEdge dt p a b) s
/-- TOOTH_EDGE (R347). -/
def execToothEdge (dt p : Nat) (b : Bool) (s : State) : Answer :=
  onUnit (decide (p < Config.encPorts)) dt (toothEdge dt p b) s
/-- TOOTH_WINDOW_EXPIRY (R347). -/
def execToothWindowExpiry (dt p : Nat) (s : State) : Answer :=
  onUnit (decide (p < Config.encPorts)) dt (toothWindowExpiry dt p) s
/-- SSI_SAMPLE (R350). -/
def execSsiSample (dt p raw : Nat) (lineHigh : Bool) (s : State) : Answer :=
  onUnit (decide (p < Config.encPorts)) dt (ssiSample dt p raw lineHigh) s
/-- BELT_STOP (R352). -/
def execBeltStop (dt p : Nat) (s : State) : Answer :=
  onUnit (decide (p < Config.encPorts)) dt (beltStop dt p) s
/-- ENCODER_LINE_FAULT (R342). -/
def execEncoderLineFault (dt p line : Nat) (s : State) : Answer :=
  onUnit (decide (p < Config.encPorts) && decide (line < 3)) dt (encoderLineFault dt p line) s
/-- LINE_FAULT_CLEAR (R342). -/
def execLineFaultClear (dt p line : Nat) (s : State) : Answer :=
  onUnit (decide (p < Config.encPorts) && decide (line < 3)) dt (lineFaultClear dt p line) s
/-- INDEX_EDGE (R357). -/
def execIndexEdge (dt p : Nat) (s : State) : Answer :=
  onUnit (decide (p < Config.encPorts)) dt (indexEdge dt p) s
/-- PROBE_EDGE (R358). -/
def execProbeEdge (dt p src : Nat) (s : State) : Answer :=
  onUnit (decide (p < Config.encPorts) && decide (src ≤ 32)) dt (probeEdge dt p src) s
/-- PROBE_SEQ_READ (R373). -/
def execProbeSeqRead (dt p : Nat) (s : State) : Answer :=
  onUnit (decide (p < Config.encPorts)) dt (fun m => probeSeqRead p (elapse dt m)) s

end Sys2Proof.Machine
end

