-- ==== Sys2Proof/Machine/Geometry.lean ====
section
/-!
DEFINITION. Sys2Proof/Machine/Geometry.lean: cameras, gangs of pipelines and rows; which columns of a stitched row belong to
which camera and stream (R63, R105, R106, R115, R201).
-/
namespace Sys2Proof.Machine

/-- The camera record of a master link. -/
def Chip.camOf (m : Chip) (master : Nat) : Option CameraRec := m.stick.cameras.find? fun c => c.master == master

/-- The camera a link belongs to (R63, R64). -/
def Chip.camOfLink (m : Chip) (n : Nat) : Option CameraRec :=
  m.stick.cameras.find? fun c => decide (c.master ≤ n) && decide (n < c.master + c.links)

def Chip.rowRec (m : Chip) (r : Nat) : RowRec := (m.stick.rows.find? fun x => x.row == r).getD { row := r }

/-- The pipelines of one camera line: master, number of pipelines, row, width and planes of the line, place in the row. -/
structure Gang where
  master : Nat
  links : Nat
  row : Nat
  width : Nat
  planes : Nat
  position : Nat
  deriving DecidableEq, Repr

def gangOfCam (c : CameraRec) : Gang :=
  { master := c.master, links := c.links, row := c.row, width := c.width, planes := c.planes, position := c.position }

/-- The gang of a replay row's master pipeline, by LP_CFG (R124); its place in the row is its index. -/
def Chip.replayGang (m : Chip) (n : Nat) : Option Gang :=
  if m.get (F.LP_CFG_role n) = 1 ∧ 8 ≤ m.get (F.LP_CFG_row n) ∧ m.get (F.LP_CFG_gang n) < 3 then
    some { master := n, links := 2 ^ m.get (F.LP_CFG_gang n), row := m.get (F.LP_CFG_row n),
           width := 2 ^ m.get (F.LP_CFG_gang n) * m.get (F.LP_CFG_columns n), planes := m.get (F.LP_CFG_planes n) + 1, position := n }
  else none

/-- Every gang: the live cameras' pipelines, then those of replay rows. -/
def Chip.gangs (m : Chip) : List Gang :=
  m.stick.cameras.map gangOfCam ++ (upTo Config.links).filterMap fun n =>
    if (m.camOfLink n).isSome then none else m.replayGang n

def Chip.gangOf (m : Chip) (master : Nat) : Option Gang := m.gangs.find? fun g => g.master == master
/-- The gang a pipeline belongs to. -/
def Chip.gangOfPipe (m : Chip) (n : Nat) : Option Gang :=
  m.gangs.find? fun g => decide (g.master ≤ n) && decide (n < g.master + g.links)

/-- The gangs of a row from left to right. -/
def Chip.rowGangs (m : Chip) (r : Nat) : List Gang :=
  sortBy (fun a b => decide (a.position ≤ b.position)) (m.gangs.filter fun g => g.row == r)

/-- The calibration record in force on a gang (R123); a neutral one of the gang's shape while the bank is empty. -/
def Chip.calOf (m : Chip) (g : Gang) : CalRec :=
  let p := m.pipe g.master
  ((if p.bankB then p.calB else p.calA)).getD { width := g.width, planes := g.planes, camera := g.master }

/-- The streams of a row, in ascending order. -/
def Chip.rowStreams (m : Chip) (r : Nat) : List Nat :=
  (upTo Config.links).filter fun n => (m.rowGangs r).any fun g => decide (g.master ≤ n) && decide (n < g.master + g.links)

/-- First and last stitched column a camera contributes (R105). -/
def Chip.contrib (m : Chip) (g : Gang) : Int × Int :=
  let c := m.calOf g
  (c.x0 + c.trimL, c.x0 + g.width - 1 - c.trimR)

/-- W_row (R105): one past the last column the row's cameras contribute. -/
def Chip.rowWidth (m : Chip) (r : Nat) : Nat := (m.rowGangs r).foldl (fun a g => max a ((m.contrib g).2 + 1).toNat) 0

/-- The stitched columns a stream's camera contributes within the stream's own range (R40, R63, R105). -/
def Chip.streamExtent (m : Chip) (r n : Nat) : Option (Nat × Nat) :=
  match m.gangOfPipe n with
  | none => none
  | some g =>
    if g.row ≠ r then none
    else
      let x0 := (m.calOf g).x0
      let w := g.width / g.links
      let i := n - g.master
      let (a, b) := m.contrib g
      some ((max a (x0 + i * w)).toNat, (min b (x0 + (i + 1) * w - 1)).toNat)

/-- The seam between a camera and the next (R106). -/
def Chip.seam (m : Chip) (g h : Gang) : Int := ((m.contrib h).1 + (m.contrib g).2 + 1).fdiv 2

/-- The camera on whose side of the seams a stitched column lies: the first of the row whose right seam lies beyond it. -/
def Chip.sideOf (m : Chip) (x : Nat) : List Gang → Option Gang
  | [] => none
  | [g] => some g
  | g :: h :: t => if (x : Int) < m.seam g h then some g else Chip.sideOf m x (h :: t)

/-- The stream a stitched column belongs to (R201): the camera on whose side of the seam it lies, then the pipeline whose
range holds it. -/
def Chip.streamAt (m : Chip) (r x : Nat) : Option Nat :=
  (m.sideOf x (m.rowGangs r)).map fun g => g.master + ((x : Int) - (m.calOf g).x0).toNat / max 1 (g.width / g.links)

/-- The stream of a provisional record (R40): that of the centre column of its extent. -/
def Chip.provStream (m : Chip) (p : ProvRec) : Option Nat := m.streamAt p.row ((p.colFirst + p.colLast) / 2)

/-- The region of capture memory of a kind and unit (R261). -/
def Chip.region (m : Chip) (kind unit : Nat) : Option Region := m.stick.regions.find? fun r => r.kind == kind && r.unit == unit

/-- The master whose strip settings a row takes (R105: all its cameras share them). -/
def Chip.rowMaster (m : Chip) (r : Nat) : Nat := ((m.rowGangs r).head?.map (·.master)).getD 0
/-- lines_per_strip of a row (R110, R127). -/
def Chip.rowLines (m : Chip) (r : Nat) : Nat := max 8 (m.get (F.LP_STRIP_CFG_lines (m.rowMaster r)))
/-- The overlap ov of a row (R110). -/
def Chip.rowOverlap (m : Chip) (r : Nat) : Nat := m.get (F.LP_STRIP_CFG_overlap (m.rowMaster r))
/-- Level `l` of a row is stored as U16 (R109). -/
def Chip.levelU16 (m : Chip) (r l : Nat) : Bool := bitN (m.get (F.LP_STRIP_CFG_lvl_u16 (m.rowMaster r))) l
/-- Counts from one line of a row to the next (R71, R209): the divider of its cameras; on a replay row that of the recorded camera. -/
def Chip.rowDivider (m : Chip) (r : Nat) : Int := match (m.rowGangs r).head? with
  | none => 1
  | some g => max 1 (m.get (F.CXP_TRIG_CFG_divider (if r < 8 then g.master else (m.replayCh (m.pipe g.master).channel).camera)) : Int)
def Chip.rowPlanes (m : Chip) (r : Nat) : Nat := ((m.rowGangs r).head?.map (·.planes)).getD 1

end Sys2Proof.Machine
end

