-- ==== Sys2Proof/Machine/Firing.lean ====
section
/-!
DEFINITION. Sys2Proof/Machine/Firing.lean: the firing sequencer's commands: verdict groups and overrun notices taken in
(R142, R146, R361 to R365, R40, R610), reservations (R141, R145), the mirror to the standby (R17, R326 to R328).
-/
namespace Sys2Proof.Machine

def Chip.onFire (f : FireState → FireState) (m : Chip) : Chip := { m with fire := f m.fire }

/-! ### Settings and counts -/

def Chip.nLatest (m : Chip) (r : Nat) : Nat := m.get (F.SCR_ROW_CFG_latest_confirm r)
def Chip.rowEnc (m : Chip) (r : Nat) : Nat := m.get (F.FS_ROW_CFG_enc_port r)
def Chip.lateEject (m : Chip) (r : Nat) : Bool := m.flag (F.SCR_ROW_CFG_late_action r)
def Chip.indetEject (m : Chip) (r : Nat) : Bool := m.flag (F.FS_ROW_CFG_indet_action r)
/-- The interpolated count of the row's encoder port has reached `c` (R145). -/
def Chip.countReached (m : Chip) (r : Nat) (c : Int) : Bool := decide (c * 65536 ≤ m.encPos (m.rowEnc r))
/-- The latest-confirm mark of an opening count has been reached. -/
def Chip.pastMark (m : Chip) (r : Nat) (cOpen : Int) : Bool := m.countReached r (cOpen - m.nLatest r)

/-! ### Releasing an object (R365, R147) -/

/-- The samples staged for an object are committed when its confirmed verdict is released (R545): each receives the next
sample_id and enters the candidate ring, whose oldest record is overwritten first (R547), and is counted (R563). -/
def Chip.commitSamples (stream strip obj : Nat) (m : Chip) : Chip :=
  forAll (upTo 8) (fun h m =>
    let hd := m.head h
    let mine (s : Sample) : Bool := s.stream == stream && s.strip == strip && s.objId == obj
    let cap := ((m.stick.heads.find? fun r => r.head == h).map (·.nCand)).getD 1024
    let add (hd : HeadState) (s : Sample) : HeadState :=
      let ring := hd.ring ++ [{ s with id := hd.nextId }]
      { hd with ring := ring.drop (ring.length - cap), nextId := hd.nextId + 1 }
    if hd.staging.any mine then
      (m.setHead h ((hd.staging.filter mine).foldl add { hd with staging := hd.staging.filter fun s => !mine s })).bumpBy
        (R.ADAPT_CNT_CAPT h) (hd.staging.filter mine).length
    else m) m

/-- The production counters of the action taken (R378); a replay row and a lock-step follower count nothing (R119,
R444).
(Log: 40 DEDUCED.) -/
def Chip.countObj (row : Nat) (r : ResultRec) (m : Chip) : Chip :=
  if 8 ≤ row ∨ m.follower then m
  else
    let m1 := m.bump (R.FS_ROW_CNT_OBJ row)
    match r.cause, r.action with
    | 0, 1 => m1.bump (R.FS_ROW_CNT_EJECT row)
    | 0, 0 => m1.bump (R.FS_ROW_CNT_PASS row)
    | 1, _ => m1.bump (R.FS_ROW_CNT_INDET row)
    | 2, _ => m1.bump (R.FS_ROW_CNT_LATE row)
    | _, _ => m1

/-- Evidence capture of an object's strip (R140): the row and strip are kept and the NV log names them.
(Log: 41 DEDUCED.) -/
def Chip.keepEvidence (row : Nat) (r : ResultRec) (m : Chip) : Chip :=
  if !r.evidence || m.fire.evidence.contains (row, r.strip) then m
  else (m.onFire fun f => { f with evidence := f.evidence ++ [(row, r.strip)] }).log "evidence" [row, r.strip, r.objId]

/-- The consequences of an object (R365): its result record, its counters, evidence and samples. A verdict that arrives
after a final late action is reported and counts nothing (R147). -/
def Chip.releaseObj (row : Nat) (r : ResultRec) (m : Chip) : Chip :=
  let m1 := m.release r
  let m2 := if r.afterLate then m1 else m1.countObj row r
  if r.stream < 64 ∧ r.cause ≠ 3 then (m2.keepEvidence row r).commitSamples r.stream r.strip r.objId else m2

/-! ### Queueing an entry (R362 to R366) -/

/-- An entry of a key is held: in a queue, or waiting for the standby's acknowledgement.
(Log: 36 DEDUCED.) -/
def Chip.keyHeld (m : Chip) (k : EntKey) : Bool :=
  (m.fire.queues.any fun q => q.any fun e => e.key == k) ||
  m.fire.mirror.any fun o => match o.record with
    | .entry e => e.key == k
    | _ => false

/-- Entries of port `p` that hold queue space while they wait for their acknowledgement (R364). -/
def Chip.reserved (m : Chip) (p : Nat) : Nat :=
  (m.fire.mirror.filter fun o => match o.record with
    | .entry e => e.port == p
    | _ => false).length

/-- The object a queued entry belongs to is released with its first entry (R365). -/
def Chip.releaseHeld (k : EntKey) (m : Chip) : Chip :=
  match m.fire.held.find? fun h => h.report.stream == k.source && h.report.strip == k.strip && h.report.objId == k.objId with
  | none => m
  | some h => (m.onFire fun f => { f with held := f.held.erase h }).releaseObj h.row h.report

/-- Put an entry into its port's queue, in the order of c_open with ties in arrival order (R366); one that a cancellation met before
leaves it at once (R368). -/
def Chip.queueEntry (e : FEntry) (m : Chip) : Chip :=
  let q := insertBy (fun a b => decide (a.cOpen ≤ b.cOpen)) e (m.queue e.port)
  let m1 := (m.setQueue e.port q).bump (R.FS_Q_CNT_IN e.port)
  let m2 := m1.put (F.FS_Q_STAT_high_water e.port) (max (m1.get (F.FS_Q_STAT_high_water e.port)) q.length)
  (if m.mode = 3 ∨ e.cancelled then m2.cancelIn e.port fun x => x.key == e.key else m2).releaseHeld e.key

/-- Offer formed entries to their queues in order: a held key is discarded, a full queue refuses, the primary mirrors
first (R17, R362, R364). Answers whether some entry was accepted, whether all were discarded by key, whether some was
refused. -/
def Chip.offer (l : List FEntry) (m : Chip) : (Bool × Nat × Bool) × Chip :=
  l.foldl (fun (acc : (Bool × Nat × Bool) × Chip) e =>
    let ((taken, dup, full), m) := acc
    if m.keyHeld e.key then
      ((taken, dup + 1, full),
        ((m.bump (R.FS_ROW_CNT_DUP e.row)).setFlag (F.FS_ROW_STAT_dup_entry e.row)).setFlag F.FS_STAT_dup_entry)
    else if Config.queueMax ≤ (m.queue e.port).length + m.reserved e.port then
      ((taken, dup, true),
        ((m.bump (R.FS_Q_CNT_FULL e.port)).setFlag F.FS_STAT_queue_full).raise SrcName.firingQueue)
    else if m.role = 1 then ((true, dup, full), m.mirrorSend (.entry e))
    else ((true, dup, full), m.queueEntry e)) ((false, 0, false), m)

/-! ### An object taken in (R146, R361, R365) -/

/-- An object as the sequencer takes it in: of a verdict record, or held from screening for an overrun notice. -/
structure ObjIn where
  stream : Nat
  strip : Nat
  closeBay : Nat
  row : Nat
  job : Nat
  objId : Nat
  cls : Nat
  verdict : Nat
  lead : Int
  last : Int
  x1 : Nat
  x2 : Nat
  evidence : Bool := false
  deriving DecidableEq, Repr

/-- The result record of an object with an action and its cause. -/
def objReport (o : ObjIn) (action cause : Nat) : ResultRec :=
  { strip := o.strip, closeBay := o.closeBay, countLead := o.lead, objId := o.objId, stream := o.stream, cls := o.cls,
    kind := 0, action, cause, late := cause == 2, evidence := o.evidence }

/-- The entry of an object on a map with its ranges. -/
def objEntry (o : ObjIn) (cause : Nat) (v : ValveMap) (rng : Nat × Nat × Int × Int) : FEntry :=
  { key := { source := o.stream, strip := o.strip, objId := o.objId, map := v.idx }, cOpen := rng.2.2.1, cClose := rng.2.2.2,
    port := v.port, vFirst := rng.1, vLast := rng.2.1, shape := v.shape, cause, row := o.row, job := o.job,
    closeBay := o.closeBay, countLead := o.lead, cls := o.cls }

/-- A late action already taken on a map is final for ranges that overlap it (R146).
(Log: 36 DEDUCED.) -/
def Chip.lateFinal (m : Chip) (r : Nat) (v : ValveMap) (g : Nat × Nat × Int × Int) : Bool :=
  m.fire.late.any fun t => t.row == r && t.map == v.idx && overlapN t.vFirst t.vLast g.1 g.2.1 &&
    overlapI t.cOpen t.cClose g.2.2.1 g.2.2.2

/-- Whether a map qualifies for an in-time object (R361): by class for a confirmed EJECT, by indet for an indeterminate
object of a row whose indeterminate action is EJECT. -/
def Chip.qualifies (m : Chip) (o : ObjIn) (indet : Bool) (v : ValveMap) : Bool :=
  if indet then m.indetEject o.row && v.indet
  else o.verdict == 1 && decide (v.classFirst ≤ o.cls) && decide (o.cls ≤ v.classLast)

/-- The non-late entries the records of a close bay have formed on a row so far (R363). -/
def Chip.entriesOf (m : Chip) (r k : Nat) : Nat :=
  ((m.fire.entCount.find? fun t => t.1 == r && t.2.1 == k).map (·.2.2)).getD 0
def Chip.addEntries (r k n : Nat) (m : Chip) : Chip :=
  let c := m.entriesOf r k + n
  m.onFire fun f => { f with entCount := (f.entCount.filter fun t => !(t.1 == r && t.2.1 == k)) ++ [(r, k, c)] }

/-- Release an object now, or hold it until one of its entries is queued.
(Log: 36 DEDUCED.) -/
def Chip.settle (o : ObjIn) (r : ResultRec) (waits : Bool) (m : Chip) : Chip :=
  if waits then m.onFire fun f => { f with held := f.held ++ [{ report := r, row := o.row }] } else m.releaseObj o.row r

/-- Take in an object of a live row in NORMAL or DEGRADED (R146, R361 to R365).
(Log: 36 DEDUCED.) -/
def Chip.judgeObj (o : ObjIn) (indet : Bool) (m : Chip) : Chip :=
  let reach := (m.rowMaps o.row).filterMap fun v => (mapRange v o.x1 o.x2 o.lead o.last).map fun g => (v, g)
  let open_ := reach.filter fun p => !m.lateFinal o.row p.1 p.2
  let final := decide (open_.length < reach.length)
  let isLate (p : ValveMap × (Nat × Nat × Int × Int)) : Bool := m.pastMark o.row p.2.2.2.1
  let lateMaps := open_.filter isLate
  let inTime := (open_.filter fun p => !isLate p && m.qualifies o indet p.1).map fun p =>
    objEntry o (if indet then 1 else 0) p.1 p.2
  let lateEnts := if m.lateEject o.row then (lateMaps.filter fun p => p.1.indet).map fun p => objEntry o 2 p.1 p.2 else []
  let m1 := if lateMaps.isEmpty then m
    else (m.bumpBy (R.SCR_CNT_LATE o.row) lateMaps.length).setFlag (F.SCR_ROW_STAT_late_confirm o.row)
  let byLate := !lateMaps.isEmpty && inTime.isEmpty
  let cause := if byLate then 2 else if indet then 1 else 0
  let eject := if byLate then m.lateEject o.row else if indet then m.indetEject o.row else o.verdict == 1
  let rep := { objReport o (b2n eject) cause with late := !lateMaps.isEmpty || final, afterLate := final }
  let fresh := inTime.filter fun e => !m1.keyHeld e.key
  if !fresh.isEmpty && m.get (F.FS_ROW_CFG_ent_max o.row) < m.entriesOf o.row o.closeBay + fresh.length then
    ((((m1.setFlag F.FS_STAT_ent_limit).setFlag (F.FS_ROW_STAT_ent_limit o.row)).bump (R.FS_ROW_CNT_LIMIT o.row)).raise
      SrcName.firingLimit).releaseObj o.row { rep with notFired := true }
  else
    let all := inTime ++ lateEnts
    let m2 := m1.addEntries o.row o.closeBay fresh.length
    let holds := all.any fun e => !m2.keyHeld e.key
    let m3 := if holds then m2.onFire fun f => { f with held := f.held ++ [{ report := rep, row := o.row }] } else m2
    let ((taken, dup, full), m4) := m3.offer all
    if taken then
      if full then m4.onFire fun f => { f with held := f.held.map fun h =>
        if h.report = rep then { h with report := { rep with notFired := true } } else h } else m4
    else
      let m5 := m4.onFire fun f => { f with held := f.held.filter fun h => h.report != rep }
      if all.length ≠ 0 ∧ dup = all.length then m5 else m5.releaseObj o.row { rep with notFired := full }

/-- Take in one object: unjudged in FIRE-OUT and SAFE (R462, R464); reported only, for a replay row and in a lock-step
follower (R119, R444). -/
def Chip.takeObj (o : ObjIn) (m : Chip) : Chip :=
  let degraded := m.sup.mask.testBit o.stream
  let indet := o.verdict == 2 || degraded
  let plain := objReport o (b2n (if indet then m.indetEject o.row else o.verdict == 1)) (if indet then 1 else 0)
  if 2 ≤ m.mode then m.releaseObj o.row { objReport o 2 3 with replay := decide (8 ≤ o.row), lockStep := m.follower }
  else if 8 ≤ o.row then m.releaseObj o.row { plain with replay := true }
  else if m.follower then m.releaseObj o.row { plain with lockStep := true }
  else m.judgeObj o indet

/-! ### Groups and notices -/

def entryObj (g : VerdictGroup) (e : ObjEntry) : ObjIn :=
  { stream := g.stream, strip := g.strip, closeBay := g.closeBay, row := g.row, job := g.job, objId := e.objId, cls := e.cls,
    verdict := e.verdict, lead := e.countLead, last := e.countLead + e.countLen, x1 := e.colFirst, x2 := e.colLast,
    evidence := e.evidence }

/-- An item of a close bay is in time (R16): the bay is close bay + D, in which the record buffer brings it. -/
def Chip.verdictBay (m : Chip) (closeBay : Nat) : Bool := m.bay == closeBay + m.depth
/-- An item leaves the record buffer. -/
def Chip.takeInbox (p : VerdictGroup → Bool) (m : Chip) : Chip := m.onFire fun f => { f with inbox := f.inbox.eraseP p }

/-- The closed strip a group speaks of, while its group of that job and stream has not been taken in and no abort has
discarded it.
(Log: 119 DEDUCED.) -/
def Chip.openStrip (m : Chip) (j stream row strip closeBay : Nat) : Option ClosedStrip :=
  m.fire.closed.find? fun c => c.row == row && c.strip == strip && c.closeBay == closeBay && c.jobs.contains j &&
    c.streams.contains stream && !c.taken.contains (j, stream) && !c.aborted.contains j

/-- Remember that a job's group of a stream has been taken in.
(Log: 119 DEDUCED.) -/
def Chip.markTaken (j stream row strip closeBay : Nat) (m : Chip) : Chip :=
  m.onFire fun f => { f with closed := f.closed.map fun c =>
    if c.row = row ∧ c.strip = strip ∧ c.closeBay = closeBay then { c with taken := c.taken ++ [(j, stream)] } else c }

/-- Every group or notice of a strip that is expected has been taken in. -/
def stripDone (c : ClosedStrip) : Bool :=
  c.jobs.all fun j => c.aborted.contains j || c.streams.all fun s => c.taken.contains (j, s)

/-- The deferred screening counters of the strips that `c` picks count (R140, R153). -/
def Chip.countDue (c : ClosedStrip → Bool) (m : Chip) : Chip :=
  (forAll ((m.fire.closed.filter c).flatMap (·.counts)) (fun a m => m.bump a) m).onFire fun f =>
    { f with closed := f.closed.map fun x => if c x then { x with counts := [] } else x }

/-- Resolve the reservations of a strip (R142): upheld where an entry of the row overlaps both ranges, dropped
otherwise. The strip's screening counters count now (R153).
(Log: 45 DEDUCED.) -/
def Chip.resolve (row strip : Nat) (m : Chip) : Chip :=
  let mine := m.fire.resvs.filter fun r => r.row == row && r.strip == strip
  let ents : List FEntry := (m.fire.queues.foldl (· ++ ·) []) ++ m.fire.mirror.filterMap fun o => match o.record with
    | .entry e => some e
    | _ => none
  let up (r : Resv) : Bool := ents.any fun e => e.row == row && e.port == r.port && overlapN e.vFirst e.vLast r.vFirst r.vLast &&
    overlapI e.cOpen e.cClose r.cOpen r.cClose
  let m1 := forAll mine (fun r m => if up r then m.bump (R.SCR_CNT_UPHELD row) else m.countDropped r)
    (m.dropResvs fun r => r.row == row && r.strip == strip)
  m1.countDue fun c => c.row == row && c.strip == strip

/-- The pairs of a close bay that a job has completed at the sequencer: every expected group of its strips is in. -/
def Chip.pairIn (m : Chip) (j k : Nat) : Bool :=
  (m.fire.closed.filter fun c => c.closeBay == k && c.jobs.contains j).all fun c =>
    c.aborted.contains j || c.streams.all fun s => c.taken.contains (j, s)

/-- After a group: resolve a finished strip's reservations, forget what was held of it, release the marks of a finished
pair and with them the screening job's (R436). -/
def Chip.afterGroup (j row strip closeBay : Nat) (m : Chip) : Chip :=
  let done := m.fire.closed.any fun c => c.row == row && c.strip == strip && c.closeBay == closeBay && stripDone c
  let m1 := if done then
      (m.resolve row strip).onFire fun f => { f with screened := f.screened.filter fun x => !(x.2.row == row && x.2.strip == strip) }
    else m
  if m1.pairIn j closeBay then
    let sj := m1.get F.STUD_CFG_job
    let m2 := m1.releasePair j closeBay
    match m2.arrivedSet sj closeBay with
    | some s => if s.sill && sj != j then
        (m2.releaseSet s).onWit fun w => { w with arrived := w.arrived.erase s } else m2
    | none => m2
  else m1

/-- The objects of a stream's strip held from screening (R40). -/
def Chip.heldFor (m : Chip) (stream row strip : Nat) : List ProvRec :=
  ((m.fire.screened.filter fun x => x.2.row == row && x.2.strip == strip).map (·.2)).filter fun p => m.provStream p == some stream

def provObj (stream closeBay job : Nat) (p : ProvRec) : ObjIn :=
  { stream, strip := p.strip, closeBay, row := p.row, job, objId := p.provId, cls := 0, verdict := 2, lead := p.countLead,
    last := p.countTrail, x1 := p.colFirst, x2 := p.colLast }

/-- The object that stands for a stream's strip where none is held (R40): the stream's own columns; the whole strip, or
from the first dropped line where it was cut short.
(Log: 37 DEDUCED.) -/
def Chip.extentObj (m : Chip) (c : ClosedStrip) (job stream : Nat) : Option ObjIn :=
  (m.streamExtent c.row stream).map fun x =>
    { stream, strip := c.strip, closeBay := c.closeBay, row := c.row, job, objId := 0, cls := 0, verdict := 2,
      lead := c.cutFrom.getD c.firstCount, last := c.lastCount, x1 := x.1, x2 := x.2 }

/-- Form the indeterminate entries of a stream's extent, when the row's indeterminate action is EJECT (R40).
(Log: 37 DEDUCED.) -/
def Chip.takeExtent (c : ClosedStrip) (job stream : Nat) (m : Chip) : Chip :=
  match m.extentObj c job stream with
  | some o => if m.indetEject c.row && decide (m.mode ≤ 1) && decide (c.row < 8) && !m.follower then m.judgeObj o true else m
  | none => m

/-- The DETECT command of a job on a row judges an overflowing stream normally (R197, flag ovf_normal). -/
def Chip.ovfNormal (m : Chip) (j row : Nat) : Bool :=
  m.cutLists.any fun l => l.1 == .postproc && l.2.2.any fun c =>
    c.job == j && m.descNum (c.descPtr + 1) 1 == row && bitN (m.descNum (c.descPtr + 3) 1) 1

/-- A stream's group that holds no object stands for an indeterminate extent of R40 when its strip is incomplete (R24, R138)
or its stream overflowed and is not judged normally (R201), and the row's indeterminate action is EJECT.
(Log: 37 DEDUCED.) -/
def Chip.takeEmpty (g : VerdictGroup) (c : ClosedStrip) (m : Chip) : Chip :=
  let due := g.objs.isEmpty && (g.incomplete || ((g.candOvf || g.objOvf) && !m.ovfNormal g.job g.row))
  if due then m.takeExtent c g.job g.stream else m

/-- VERDICT_GROUP (R142, R16): in bay (close bay + D) the sequencer takes a stream's group that the Tenon link has brought out of the
record buffer. A group that is not expected is discarded (R49, R610). -/
def verdictGroup (dt : Nat) (g : VerdictGroup) (m0 : Chip) : Chip :=
  let m1 := elapse dt m0
  let m := m1.takeInbox fun x => x == g
  if g.kind ≠ 0 ∨ !m1.verdictBay g.closeBay ∨ !m1.fire.inbox.contains g then m1
  else match m.openStrip g.job g.stream g.row g.strip g.closeBay with
  | none => m
  | some c =>
    (((forAll g.objs (fun e m => m.takeObj (entryObj g e)) m).takeEmpty g c).markTaken g.job g.stream g.row g.strip
      g.closeBay).afterGroup g.job g.row g.strip g.closeBay

/-- A screened object is taken in once by a notice, whatever number of jobs judge the row (R365). A late action taken for it on one
map leaves its other maps to the notice (R148).
(Log: 37 DEDUCED.) -/
def Chip.noticeObj (stream closeBay job : Nat) (p : ProvRec) (m : Chip) : Chip :=
  let key := (128 + p.row, p.strip, p.provId)
  if m.fire.reported.contains key then m
  else (m.onFire fun f => { f with reported := f.reported ++ [key] }).takeObj (provObj stream closeBay job p)

/-- Treat a stream's strip as an overrun notice gives (R40). Where no object is held, an entry is formed only when the
row's indeterminate action is EJECT. -/
def Chip.takeNotice (c : ClosedStrip) (job stream : Nat) (m : Chip) : Chip :=
  let held := m.heldFor stream c.row c.strip
  let m1 := if held.isEmpty then m.takeExtent c job stream
    else forAll held (fun p m => m.noticeObj stream c.closeBay job p) m
  (m1.markTaken job stream c.row c.strip c.closeBay).afterGroup job c.row c.strip c.closeBay

/-- An item of the record buffer is the notice of a job, stream and strip. -/
def isNotice (job stream row strip closeBay : Nat) (g : VerdictGroup) : Bool :=
  g.kind != 0 && g.job == job && g.stream == stream && g.row == row && g.strip == strip && g.closeBay == closeBay

/-- OVERRUN_NOTICE (R40): as VERDICT_GROUP, a notice that the Tenon link has brought. -/
def overrunNotice (dt job stream row strip closeBay : Nat) (m0 : Chip) : Chip :=
  let m1 := elapse dt m0
  let m := m1.takeInbox (isNotice job stream row strip closeBay)
  if !m1.verdictBay closeBay ∨ !m1.fire.inbox.any (isNotice job stream row strip closeBay) then m1
  else match m.openStrip job stream row strip closeBay with
  | none => m
  | some c => m.takeNotice c job stream

/-- VERDICT_DEADLINE (R610): 10 µs after the bay's start, each stream and strip of close bay (bay − D) that a verdict job
processes and has sent nothing is treated as an overrun notice; at most once in a bay.
(Log: 119 DEDUCED.) -/
def verdictDeadline (dt : Nat) (m0 : Chip) : Chip :=
  let m := elapse dt m0
  if !m.bays.running || m.bays.verdictDone || m.now < m.bays.startAt + 10000 || m.bay < m.depth then m
  else
    let k := m.bay - m.depth
    let work := (m.fire.closed.filter fun c => c.closeBay == k).flatMap fun c =>
      c.jobs.flatMap fun j => (c.streams.filter fun s => !c.taken.contains (j, s) && !c.aborted.contains j).map fun s => (c, j, s)
    let m1 := forAll work (fun x m => m.takeNotice x.1 x.2.1 x.2.2) m
    { m1 with bays := { m1.bays with verdictDone := true } }

/-! ### Reservations (R141, R145) -/

/-- The late action on a reservation (R145): counted, final on its ranges, and reported once for its object. -/
def Chip.lateAction (r : Resv) (m : Chip) : Chip :=
  let m1 := ((m.bump (R.SCR_CNT_LATE r.row)).setFlag (F.SCR_ROW_STAT_late_action r.row)).onFire fun f =>
    { f with resvs := f.resvs.erase r,
             late := f.late ++ [{ row := r.row, map := r.map, vFirst := r.vFirst, vLast := r.vLast, cOpen := r.cOpen, cClose := r.cClose }] }
  let v := m.vmap r.row r.map
  let eject := m.lateEject r.row
  let key := (64 + r.row, r.strip, r.provId)
  let rep : ResultRec := { strip := r.strip, closeBay := r.closeBay, countLead := r.countLead, objId := r.provId,
                           stream := 64 + r.row, kind := 0, action := b2n eject, cause := 2, late := true }
  let first := !m1.fire.reported.contains key
  let m2 := if first then m1.onFire fun f => { f with reported := f.reported ++ [key] } else m1
  if eject && v.indet then
    let e : FEntry := { key := { source := 64 + r.row, strip := r.strip, objId := r.provId, map := r.map }, cOpen := r.cOpen,
                        cClose := r.cClose, port := r.port, vFirst := r.vFirst, vLast := r.vLast, shape := v.shape, cause := 2,
                        row := r.row, job := 255, closeBay := r.closeBay, countLead := r.countLead }
    let m3 := if first then m2.onFire fun f => { f with held := f.held ++ [{ report := rep, row := r.row }] } else m2
    let ((taken, _, full), m4) := m3.offer [e]
    if taken || !first then m4
    else (m4.onFire fun f => { f with held := f.held.filter fun h => h.report != rep }).releaseObj r.row { rep with notFired := full }
  else if first then m2.releaseObj r.row rep
  else m2

/-- LATE_CONFIRM_MARK (R145): every unresolved reservation whose mark the count has reached takes the late action. No late
action is taken in FIRE-OUT or SAFE, which hold no reservation. -/
def lateConfirmMark (dt : Nat) (m0 : Chip) : Chip :=
  let m := elapse dt m0
  forAll (m.fire.resvs.filter fun r => m.pastMark r.row r.cOpen) (fun r m => m.lateAction r) m

/-- Some enabled verdict job will confirm the strip. -/
def Chip.willConfirm (m : Chip) (row strip : Nat) : Bool :=
  m.fire.closed.any fun c => c.row == row && c.strip == strip && c.jobs.any fun j => !c.aborted.contains j

/-- Make the reservations of a released provisional record (R141): one for each enabled map it reaches. One whose mark has
passed takes the late action at once (R145). -/
def Chip.reserve (closeBay : Nat) (p : ProvRec) (m : Chip) : Chip :=
  if !p.eject || 8 ≤ p.row || !m.fire.pilotOn.testBit p.row || !m.willConfirm p.row p.strip || 2 ≤ m.mode || m.follower then m
  else
    forAll (m.rowMaps p.row) (fun v m =>
      match mapRange v p.colFirst p.colLast p.countLead p.countTrail with
      | none => m
      | some g =>
        let r : Resv := { row := p.row, map := v.idx, port := v.port, strip := p.strip, closeBay, provId := p.provId, vFirst := g.1,
                          vLast := g.2.1, cOpen := g.2.2.1, cClose := g.2.2.2, countLead := p.countLead }
        let m1 := m.onFire fun f => { f with resvs := f.resvs ++ [r] }
        if m1.pastMark p.row r.cOpen then m1.lateAction r else m1) m

/-! ### The mirror (R17, R326 to R328) -/

/-- Log: 31 DEDUCED. -/
def Chip.mirrorTake (o : MirrorOut) (m : Chip) : Chip := m.onFire fun f => { f with mirror := f.mirror.erase o }

/-- MIRROR_ACK (R327): the entry is queued; an acknowledgement of nothing outstanding is late and counts.
(Log: 93 DEDUCED.) -/
def mirrorAck (dt id : Nat) (m0 : Chip) : Chip :=
  let m := elapse dt m0
  match m.fire.mirror.find? fun o => o.id == id with
  | none => m.bump R.PUR_CNT_MIRROR_LATE
  | some o =>
    let m1 := (m.mirrorTake o).bump R.PUR_CNT_MIRROR
    match o.record with
    | .entry e => m1.queueEntry e
    | _ => m1

/-- mirror_rto in ns (R339). -/
def Chip.mirrorRto (m : Chip) : Nat := m.get F.PUR_MIRROR_CFG_mirror_rto

/-- MIRROR_RESEND (R327): each record without acknowledgement for mirror_rto is sent once more. -/
def mirrorResend (dt : Nat) (m0 : Chip) : Chip :=
  let m := elapse dt m0
  let due (o : MirrorOut) : Bool := !o.resent && decide (o.sentAt + m.mirrorRto ≤ m.now)
  let m1 := forAll (m.fire.mirror.filter due) (fun o m => (m.mirrorFrame o.id o.record).bump R.PUR_CNT_MIRROR_RETX) m
  m1.onFire fun f => { f with mirror := f.mirror.map fun o => if due o then { o with resent := true } else o }

/-- MIRROR_TIMEOUT (R17): 5 µs after its first send, an unacknowledged entry is queued unmirrored, counted, and raises
standby-mirror. -/
def mirrorTimeout (dt : Nat) (m0 : Chip) : Chip :=
  let m := elapse dt m0
  let dueL := m.fire.mirror.filter fun o => decide (o.sentAt + 5000 ≤ m.now)
  forAll dueL (fun o m =>
    match o.record with
    | .entry e =>
      ((((m.mirrorTake o).queueEntry { e with unmirrored := true }).bump (R.FS_Q_CNT_UNMIRR e.port)).setFlag
        F.FS_STAT_unmirrored).raise SrcName.standbyMirror
    | _ => m.mirrorTake o) m

/-- The offset correction of a port's counts by `d` (R328). -/
def shiftEnc (d : Int) (e : EncPort) : EncPort :=
  { e with count := wrap48 (e.count + d), highest := e.highest + d, bar := e.bar.map (· + d), held := e.held.map (· + d * 65536),
           segPos := qAdd e.segPos (qOfInt d), capBase := e.capBase + d, least := e.least.map (· + d * 65536), idxPrev := e.idxPrev.map (· + d) }

/-- The position latched at the last bay boundary, in 1/65,536 counts (R373). -/
def Chip.bayLatch (m : Chip) (p : Nat) : Int :=
  let lo := (m.rd (R.ENC_BAY_LO p)).toNat
  let hi := (m.rd (R.ENC_BAY_HI p)).toNat
  signedOf 48 (lo + hi % 65536 * 2 ^ 32) * 65536 + ((hi / 65536 : Nat) : Int)

/-- The standby's correction of one port to the primary's latched count (R328); none after a takeover. -/
def Chip.countCorrect (p : Nat) (pos : Int) (m : Chip) : Chip :=
  let d := pos.fdiv 65536 - (m.bayLatch p).fdiv 65536
  if d = 0 || m.flag F.SUP_MODE_took_over then m
  else
    let m1 := (m.setEnc p (shiftEnc d (m.enc p))).putPos (R.ENC_BAY_LO p) (R.ENC_BAY_HI p) (m.bayLatch p + d * 65536)
    let m2 := m1.put F.PUR_MIRROR_STAT_max_corr (max (m1.get F.PUR_MIRROR_STAT_max_corr) (min 65535 d.natAbs))
    if m.get F.PUR_MIRROR_CFG_count_tol < d.natAbs then (m2.setFlag F.PUR_MIRROR_STAT_count_diff).raise SrcName.mirrorCount else m2

/-- MIRROR_RECORD (R326 to R328, R369): the standby stores an entry whose key it does not hold, removes a cancelled one,
corrects its counts, and acknowledges; a module in another role discards the record. -/
def mirrorRecord (dt id : Nat) (r : MirrorRec) (m0 : Chip) : Chip :=
  let m := elapse dt m0
  if m.role ≠ 2 then m.setFlag F.PUR_MIRROR_STAT_mirror_role
  else
    let m1 := match r with
      | .entry e => if m.keyHeld e.key then m else m.queueEntry e
      | .cancel k => forAll (upTo Config.pegPorts) (fun p m => m.cancelIn p fun e => e.key == k) m
      | .counts b l => if b = m.bay then forAll l (fun x m => m.countCorrect x.1 x.2) m else m
    m1.mirrorOut (.mirrorAck id) 32

/-- MIRROR_KEEPALIVE (R326): the primary sends a LINK keep-alive on its mirror port, if that is up. -/
def mirrorKeepalive (dt : Nat) (m0 : Chip) : Chip :=
  let m := elapse dt m0
  let p := m.get F.PUR_MIRROR_CFG_mport
  if m.get F.PUR_MIRROR_CFG_mrole ≠ 1 ∨ m.purState p ≠ 3 then m else m.linkSend p {}

/-- The mirror keep-alive has been absent for 30 µs (R468). -/
def Chip.mirrorSilent (m : Chip) : Bool := decide (m.sup.mirrorAliveAt + 30000 ≤ m.now)

/-- MIRROR_LINK_LOSS (R468): the standby raises mirror-link and takes no other action. -/
def mirrorLinkLoss (dt : Nat) (m0 : Chip) : Chip :=
  let m := elapse dt m0
  if m.role = 2 ∧ m.mirrorSilent = true then m.assert SrcName.mirrorLink else m

/-! ### The meanings of the commands -/

/-- VERDICT_DEADLINE (R610). -/
def execVerdictDeadline (dt : Nat) (s : State) : Answer :=
  onUnit true dt (verdictDeadline dt) s
/-- VERDICT_GROUP (R142). -/
def execVerdictGroup (dt : Nat) (g : VerdictGroup) (s : State) : Answer :=
  onUnit (decide (g.row < Config.rows) && decide (g.job < Config.jobs)) dt (verdictGroup dt g) s
/-- OVERRUN_NOTICE (R40). -/
def execOverrunNotice (dt job stream row strip closeBay : Nat) (s : State) : Answer :=
  onUnit (decide (row < Config.rows) && decide (job < Config.jobs)) dt (overrunNotice dt job stream row strip closeBay) s
/-- LATE_CONFIRM_MARK (R145). -/
def execLateConfirmMark (dt : Nat) (s : State) : Answer :=
  onUnit true dt (lateConfirmMark dt) s
/-- MIRROR_ACK (R327). -/
def execMirrorAck (dt id : Nat) (s : State) : Answer :=
  onUnit true dt (mirrorAck dt id) s
/-- MIRROR_RESEND (R327). -/
def execMirrorResend (dt : Nat) (s : State) : Answer :=
  onUnit true dt (mirrorResend dt) s
/-- MIRROR_TIMEOUT (R17). -/
def execMirrorTimeout (dt : Nat) (s : State) : Answer :=
  onUnit true dt (mirrorTimeout dt) s
/-- MIRROR_RECORD (R326). -/
def execMirrorRecord (dt id : Nat) (r : MirrorRec) (s : State) : Answer :=
  onUnit true dt (mirrorRecord dt id r) s
/-- MIRROR_KEEPALIVE (R326). -/
def execMirrorKeepalive (dt : Nat) (s : State) : Answer :=
  onUnit true dt (mirrorKeepalive dt) s
/-- MIRROR_LINK_LOSS (R468). -/
def execMirrorLinkLoss (dt : Nat) (s : State) : Answer :=
  onUnit true dt (mirrorLinkLoss dt) s

end Sys2Proof.Machine
end

