-- ==== Sys2Proof/Machine/Jobs.lean ====
section
/-!
DEFINITION. Sys2Proof/Machine/Jobs.lean: job control (R48 to R52, R59), background windows and rollback (R44 to R46), gating
(R37), completion of commands (R155, R180, R57), and the work of a bay boundary on jobs, deadlines and engines (R39, R49
to R51).
-/
namespace Sys2Proof.Machine

/-! ### Job control -/

/-- An enabled job, as last written, consumes the outputs of job `j` (R52). -/
def Chip.consumed (m : Chip) (j : Nat) : Bool :=
  m.stick.deps.any fun d => d.2 == j && m.flag (F.RC_JOB_CTRL_enable d.1)

/-- A change of job `j`'s control register waits for its boundary (R60): a value other than the one that acted last. -/
def pendingOf (r : JobRun) : Bool := r.ctrl != r.acted || r.ctrlLate.isSome

/-- JOB_CTRL_WRITE (R48, R52, R59): the written value is shadowed to the boundary it reaches in time, 20 µs ahead; a disable
of a job whose outputs an enabled job consumes is refused as a whole. -/
def jobCtrlWrite (dt j v : Nat) (m0 : Chip) : Chip :=
  let m := elapse dt m0
  if m.flag (F.RC_JOB_CTRL_enable j) && !bitN v 0 && m.consumed j then m.setFlag (F.RC_JOB_STAT_dep_refused j)
  else
    let r := m.jobRun j
    let left := m.period - m.tb3 % m.period
    let w := if !m.bays.running || 20000 ≤ left then { r with ctrl := v % 8, ctrlLate := none }
      else { r with ctrlLate := if v % 8 = r.ctrl then none else some (v % 8) }
    ((m.wr (R.RC_JOB_CTRL j) (BitVec.ofNat 32 (v % 8))).setJobRun j w).put (F.RC_JOB_STAT_pending j) (b2n (pendingOf w))

/-- MARGIN_RESET (R56, R57). -/
def marginReset (m : Chip) : Chip := m.put F.RC_SLACK_MIN_min_margin 0x3FFFFF

/-! ### Bents' power (R37, R154) -/

/-- Entry `c` of an engine's list, of kind gate, wake or window, is due (R30, R37): it stands in the list of this bay, its start cycle
is reached, and it has not run yet. -/
def Chip.powerDue (m : Chip) (e : Engine) (c : CutEntry) (k : EntryKind) : Bool :=
  m.bays.running && c.kind == k && (m.listFor e m.bay).contains c && !(m.eng e).acted.contains c && decide (c.startCycle ≤ m.coreCycle)

/-- A background window of the engine is open (R35). -/
def Chip.windowOpen (m : Chip) (e : Engine) : Bool := match (m.eng e).windowEnd with
  | some w => decide (m.coreCycle < w)
  | none => false

/-- GATE (R37): the bent's domain goes off, unless it holds a background window. -/
def gate (dt n : Nat) (c : CutEntry) (m0 : Chip) : Chip :=
  let m := elapse dt m0
  let s := m.eng (.bent n)
  if !m.powerDue (.bent n) c .gate then m
  else if m.windowOpen (.bent n) then m.setEng (.bent n) { s with acted := s.acted ++ [c] }
  else ((m.setEng (.bent n) { s with gated := true, wakeAt := none, acted := s.acted ++ [c] }).showBent n).setDomain n false

/-- WAKE (R37): the domain goes on; the bent runs commands 2 µs later. -/
def wake (dt n : Nat) (c : CutEntry) (m0 : Chip) : Chip :=
  let m := elapse dt m0
  let s := m.eng (.bent n)
  if !m.powerDue (.bent n) c .wake then m
  else if !s.gated then m.setEng (.bent n) { s with acted := s.acted ++ [c] }
  else ((m.setEng (.bent n) { s with gated := false, wakeAt := some m.now, acted := s.acted ++ [c] }).showBent n).setDomain n true

/-! ### Background (R44 to R46) -/

/-- BACKGROUND_WINDOW (R35, R45, R455): a static window opens at its start cycle, unless windows are shed. -/
def backgroundWindow (dt : Nat) (e : Engine) (c : CutEntry) (m0 : Chip) : Chip :=
  let m := elapse dt m0
  let s := m.eng e
  if !m.powerDue e c .window then m
  else if m.sup.shedWindows then m.setEng e { s with acted := s.acted ++ [c] }
  else m.setEng e { s with windowEnd := some c.plannedEnd, acted := s.acted ++ [c] }

/-- The end of the background time an engine has now, in cycles after the boundary (R35, R44): the end of its open window, or, where
a foreground command has left time unused, the next planned foreground start, at the latest the planned end of the bay, beyond
which every cycle is idle (R28). A window never outlasts the next planned foreground start. None while a foreground command runs or
windows are shed. -/
def Chip.bgEnd (m : Chip) (e : Engine) : Option Nat :=
  let s := m.eng e
  let next := ((m.fgList e m.bay)[s.pos]?.map (·.startCycle)).getD m.planned
  let limit := match s.windowEnd with
    | some w => if m.windowOpen e then some (min w next) else if s.released then some next else none
    | none => if s.released then some next else none
  if !m.bays.running || s.running.isSome || m.sup.shedWindows || !m.powered e then none
  else match limit with
    | some t => if m.coreCycle < t then some t else none
    | none => none

/-- SEGMENT_ROLLBACK (R46): a segment that has not completed by the end of the window or of the released time in which it started is
stopped, its output discarded, and the job goes back to the last saved point; so it is where windows are closed (R455) or a
foreground command has started. -/
def segmentRollback (dt : Nat) (e : Engine) (m0 : Chip) : Chip :=
  let m := elapse dt m0
  match (m.eng e).bg with
  | some r => if m.coreCycle < r.limit && !m.sup.shedWindows && (m.eng e).running.isNone then m else m.rollBack e
  | none => m

/-! ### Completion (R31, R155, R57) -/

/-- What completion counts and flags in the engine's block (R179, R182, R213, R235 to R237, R269, R278). -/
def Chip.countDone (e : Engine) (r : Running) (m : Chip) : Chip :=
  match e with
  | .bent n =>
    let m1 := (((m.bump (R.BENT_CNT_CMD n)).bumpBy (R.BENT_CNT_SAT n) r.sats).bumpBy (R.BENT_CNT_NAN n) r.nans).bumpIf (r.op == "DMA")
      (R.BENT_CNT_DMA n)
    ((m1.setFlagIf (decide (0 < r.sats)) (F.BENT_STAT_sat_out n)).setFlagIf (decide (0 < r.nans)) (F.BENT_STAT_nan_out n)).setFlagIf
      (decide (0 < r.infs)) (F.BENT_STAT_inf_out n)
  | .spectral =>
    (((m.bump R.SPEC_CNT_CMD).bumpBy R.SPEC_CNT_TILES r.tiles).setFlagIf (decide (0 < r.sats)) F.SPEC_STAT_sat_out).setFlagIf
      (decide (0 < r.nans)) F.SPEC_STAT_nan_out
  | .attention =>
    let m1 := ((m.bump R.ATT_CNT_CMD).bumpBy (R.BENT_CNT_NAN r.item) r.nans).setFlagIf (decide (0 < r.sats)) F.ATT_STAT_sat_out
    forAll r.rings (fun p m => if p.1 < Config.rings then
      (m.wr (R.ATT_RING_LAST_LO p.1) (BitVec.ofNat 32 p.2)).put (F.ATT_RING_LAST_HI_last_hi p.1) (p.2 / 2 ^ 32) else m) m1
  | .cmDma => m.bump R.CM_CNT_DMA
  | _ => m

/-- What stopping the running command counts and flags in the engine's block.
(Log: 52 DEDUCED.) -/
def Chip.countStop (e : Engine) (r : Running) (m : Chip) : Chip :=
  match e with
  | .bent n => (m.setFlag (F.BENT_STAT_stopped n)).bump (R.BENT_CNT_STOP n)
  | .spectral => (m.setFlag F.SPEC_STAT_stopped).bump R.SPEC_CNT_STOP
  | .attention =>
    forAll r.rings (fun p m => if p.1 < Config.rings then m.setFlag (F.ATT_RING_STAT_half_written p.1) else m)
      ((m.setFlag F.ATT_STAT_stopped).bump R.ATT_CNT_STOP)
  | .postproc => m.setFlag F.PP_STAT_stopped
  | _ => m

/-- A transfer's signal travels in its tag to the half that holds the destination (R31): such an engine signals nothing at
completion.
(Log: 49 DEDUCED.) -/
def signalsHere : Engine → Bool
  | .tenonS2R | .tenonR2S | .purlinDma _ => false
  | _ => true

/-- Posted flits of an engine's direction of the Tenon link that are not sent or not acknowledged: its command is not complete.
(Log: 92 DEDUCED.) -/
def Chip.tnOutstanding (m : Chip) (e : Engine) : Bool :=
  let out (t : TnDir) : Bool := !t.txPost.isEmpty || t.replay.any fun f => f.vc == 2
  match e with
  | .tenonS2R => out m.tenon.s2r
  | .tenonR2S => out m.tenon.r2s
  | _ => false

/-- The last marked point at or before position `k` of a job's segments (R44).
(Log: 50 DEDUCED.) -/
def markBefore (l : List CutEntry) : Nat → Nat
  | 0 => 0
  | k + 1 => if ((l[k]?).map (·.preemptPoint)).getD false then k + 1 else markBefore l k

/-- A background job saves its live state at position `k` of an engine's segments (R44, R45): the position stands as saved, and the
save area holds the state, whose bytes the spec leaves to the engine.
(Log: 50 DEDUCED.) -/
def Chip.saveLive (e : Engine) (j k : Nat) (m : Chip) : Chip :=
  let s := m.eng e
  let m1 := m.setEng e { s with bgSaved := tabSet 0 s.bgSaved j k }
  match m.jobRec j with
  | some r => match m.stick.segs.find? fun x => x.seg == r.saveSeg with
    | some g => m1.putBytes (hbmAddr g.target) ((upTo (min r.saveBytes g.size)).map fun i => Config.liveState j (engIdx e) k i)
    | none => m1
  | none => m1

/-- A disabled background job that stands at a marked point of an engine's segments has stopped there: its live state is saved (R50).
(Log: 50 DEDUCED.) -/
def Chip.parkBg (e : Engine) (j : Nat) (m : Chip) : Chip :=
  let s := m.eng e
  let k := tabGet 0 s.bgAt j
  if (m.jobRun j).applied || k = tabGet 0 s.bgSaved j || markBefore (m.bgSegs e j) k ≠ k then m else m.saveLive e j k

/-- A background segment of job `j` has completed on an engine (R44): the next one follows; after the last the job's list begins
again, and the step of a job that declares no steps of its own is done (R435). A disabled job stops at the marked point it
reaches (R50).
(Log: 50 DEDUCED.) -/
def Chip.bgAdvance (e : Engine) (j busy : Nat) (m : Chip) : Chip :=
  let s := m.eng e
  let at_ := tabGet 0 s.bgAt j + 1
  let wraps := decide ((m.bgSegs e j).length ≤ at_)
  let s1 := { s with bg := none, busy, bgAt := tabSet 0 s.bgAt j (if wraps then 0 else at_),
                     bgSaved := if wraps then tabSet 0 s.bgSaved j 0 else s.bgSaved }
  let own := match m.jobRec j with
    | some r => !r.text && !r.adapt && (allEngines.find? fun x => !(m.bgSegs x j).isEmpty) == some e
    | none => false
  let m1 := (m.setEng e s1).parkBg e j
  if wraps && own then m1.stepDone j else m1

/-- The half in which a completed command signals (R31): that of the space it writes; the capture-memory DMA engine writes the Ridge's
SRAM and HBM as well as capture memory. -/
def Chip.signalHalf (m : Chip) (e : Engine) (c : CutEntry) : Nat := match e with
  | .cmDma => if m.descNum (c.descPtr + 1) 1 / 16 < 3 then 1 else 0
  | _ => engHalf e

/-- COMMAND_COMPLETE (R155): the engine's command completes: its output stands in memory, its semaphore is signalled, its sum
goes to the witness unit. With `bg` the background segment completes. A completion in the core cycle of the boundary, or later, is
none (R39).
(Log: 52 DEDUCED, 92 DEDUCED, 115 DEDUCED.) -/
def commandComplete (dt : Nat) (e : Engine) (bg : Bool) (m0 : Chip) : Chip :=
  let m := elapse dt m0
  let s := m.eng e
  match (if m.tnOutstanding e || decide ((m.bay + 1) * m.period ≤ m.tb3) then none else if bg then s.bg else s.running) with
  | none => m
  | some r =>
    let m1 := (m.commitWrites r).passMark r
    let m2 := if signalsHere e then m1.signalOpt (m.signalHalf e r.entry) r.entry.signal else m1
    let busy := s.busy + (m.now - r.startedAt)
    let j := r.entry.job
    let m3 := if bg then m2.bgAdvance e j busy
      else m2.setEng e { s with running := none, pos := s.pos + 1, busy, lastEnd := some m.coreCycle,
                                released := decide (m.coreCycle < r.entry.plannedEnd) }
    let m4 := if r.entry.lastInBay && !bg then m3.noteMargin m.coreCycle else m3
    (m4.countDone e r).showEng e

/-! ### The boundary -/

/-- The deadline monitor finds a foreground command that has not completed (R39, R61): its pair is invalid, and counts one overrun. -/
def Chip.overrun (j k : Nat) (m : Chip) : Chip :=
  if m.bays.overran.contains (j, k) then m
  else (((m.invalidate j k).onBays fun b => { b with overran := b.overran ++ [(j, k)] }).bump (R.RC_JOB_OVR j)).setFlag
    (F.RC_JOB_STAT_overrun j)

/-- The deadline monitor of one engine (R39): every foreground command of the ending bay that has not completed is stopped,
its output discarded, and its pair marked invalid. A command that the engine skips is none. -/
def Chip.deadline (e : Engine) (m : Chip) : Chip :=
  let s := m.eng e
  let run := (s.running.map (·.entry)).toList
  let rest := ((m.fgList e m.bay).drop (s.pos + run.length)).filter fun c => !m.skips e c
  let m1 := forAll (run ++ rest) (fun c m => m.overrun c.job (m.closeOf e c)) m
  let m2 := if (run ++ rest).isEmpty then m1 else (m1.setFlag F.RC_BAY_STAT_overrun_any).put F.RC_SLACK_MIN_min_margin 0
  let m3 := match s.running with
    | some r => m2.countStop e r
    | none => m2
  m3.setEng e { m3.eng e with running := none, busy := s.busy + ((s.running.map fun r => m.now - r.startedAt).getD 0) }

/-- The engines begin the new bay's list (R39); the counts of R181 are shown; a background segment still in progress has
outlived its time and is rolled back (R46). -/
def Chip.engBoundary (e : Engine) (m0 : Chip) : Chip :=
  let m := m0.rollBack e
  let s := m.eng e
  let m1 := match e with
    | .bent n => (m.put (F.BENT_BUSY_cycles n) (min s.busy (2 ^ 22 - 1))).put (F.BENT_HBM_WAIT_cycles n) (min s.wait (2 ^ 22 - 1))
    | _ => m
  (m1.setEng e { s with pos := 0, windowEnd := none, released := false, acted := [], lastEnd := none, busy := 0, wait := 0 }).showEng e

/-- A background job starts from its beginning when it is enabled again (R50, abort). -/
def Chip.forgetBg (j : Nat) (m : Chip) : Chip :=
  forAll allEngines (fun e m =>
    let s := m.eng e
    m.setEng e { s with bgAt := tabSet 0 s.bgAt j 0, bgSaved := tabSet 0 s.bgSaved j 0 })
    (m.setJobRun j { m.jobRun j with step := 0 })

/-- Discard the in-flight pairs of a job at boundary `b` (R49, abort): objects known from screening are reported as
aborted, each discarded strip counts once, their reservations are deleted (R148).
(Log: 50 DEDUCED, 117 DEDUCED.) -/
def Chip.abortJob (j b : Nat) (m : Chip) : Chip :=
  let lo := b - m.depth
  let strips := m.fire.closed.filter fun c => decide (lo ≤ c.closeBay) && c.jobs.contains j && !c.aborted.contains j &&
    !c.streams.all fun s => c.taken.contains (j, s)
  forAll strips (fun c m =>
    let others := c.jobs.any fun i => i != j && !c.aborted.contains i
    let held := m.fire.screened.filter fun x => x.2.row == c.row && x.2.strip == c.strip
    let m1 := m.bump (R.RC_JOB_ABORT j)
    let m2 := if others then m1
      else
        let rel := forAll held (fun x m => m.release
          { strip := c.strip, closeBay := c.closeBay, countLead := x.2.countLead, objId := x.2.provId,
            stream := (m.provStream x.2).getD 0, kind := 0, action := 2, cause := 4, replay := c.replay }) m1
        rel.onFire fun f => { f with screened := f.screened.filter fun x => !(x.2.row == c.row && x.2.strip == c.strip) }
    (m2.dropResvs fun r => r.row == c.row && r.strip == c.strip).onFire fun f =>
      { f with closed := f.closed.map fun d => if d = c then { d with aborted := d.aborted ++ [j] } else d }) m

/-- The items of a job's pairs in flight at boundary `b` leave its result queue whole, as do its records still pending (R49, R207). -/
def Chip.flushJob (j b : Nat) (m : Chip) : Chip :=
  let gone (g : VerdictGroup) : Bool := g.job == j && decide (b ≤ g.closeBay + m.depth)
  { m with pp := { m.pp with queue := m.pp.queue.filter fun g => !gone g, pending := m.pp.pending.filter fun g => !gone g } }

/-- Disable job `j` at boundary `b` (R49, R50), with what abort and cancel_firings of the control value `v` add. -/
def Chip.disableJob (b j v : Nat) (m : Chip) : Chip :=
  let r := m.jobRun j
  let bg := m.get (F.RC_JOB_STAT_class j) == 2
  let m1 := m.setJobRun j { r with applied := false,
                                   past := (r.past.filter fun x => decide (b ≤ x.2 + m.depth)) ++ [(r.firstClose, b)] }
  let m2 := if bitN v 1 then
      (if bg then m1.forgetBg j
       else ((m1.abortJob j b).flushJob j b).setJobRun j { m1.jobRun j with past := [] })
    else if bg then forAll allEngines (fun e m => m.parkBg e j) m1
    else m1
  if bitN v 2 then
    (m2.cancelAll fun e => e.job == j && !e.openSealed).dropResvs fun x => decide (b ≤ x.closeBay) &&
      (match m.jobRec j with | some q => q.rows.contains x.row | none => false)
  else m2

/-- The job table at boundary `b` (R48 to R51, R60). -/
def Chip.jobBoundary (b j : Nat) (m : Chip) : Chip :=
  let r := m.jobRun j
  let en := bitN r.ctrl 0
  let m1 := if en == r.applied then m
    else if en then m.setJobRun j { r with applied := true, firstClose := b }
    else m.disableJob b j r.ctrl
  let r1 := { m1.jobRun j with acted := r.ctrl, ctrl := r.ctrlLate.getD r.ctrl, ctrlLate := none }
  ((m1.setJobRun j r1).put (F.RC_JOB_STAT_running j) (b2n r1.applied)).put (F.RC_JOB_STAT_pending j) (b2n (pendingOf r1))

/-- Strips of close bay (b − D) that no verdict job judges are reported unjudged, one record for each stream, and count once
for each disabled verdict job of the row (R49, R574).
(Log: 40 DEDUCED.) -/
def Chip.reportUnjudged (b : Nat) (m : Chip) : Chip :=
  if b < m.depth then m
  else
    let work := m.fire.closed.filter fun c => c.closeBay == b - m.depth && c.jobs.isEmpty
    forAll work (fun c m =>
      let m1 := forAll c.streams (fun s m => m.release
        { strip := c.strip, closeBay := c.closeBay, objId := 0xFFFF, stream := s, kind := 3, action := 2, cause := 3,
          replay := c.replay }) m
      forAll ((m1.stick.jobs.filter fun r => r.verdict && r.rows.contains c.row).map (·.job)) (fun j m => m.bump (R.RC_JOB_ABORT j)) m1) m

/-! ### The meanings of the commands -/

/-- GATE (R37). -/
def execGate (dt n : Nat) (c : CutEntry) (s : State) : Answer :=
  onUnit (decide (n < Config.bents)) dt (gate dt n c) s
/-- WAKE (R37). -/
def execWake (dt n : Nat) (c : CutEntry) (s : State) : Answer :=
  onUnit (decide (n < Config.bents)) dt (wake dt n c) s
/-- BACKGROUND_WINDOW (R35). -/
def execBackgroundWindow (dt : Nat) (e : Engine) (c : CutEntry) (s : State) : Answer :=
  onUnit (engExists e) dt (backgroundWindow dt e c) s
/-- SEGMENT_ROLLBACK (R46). -/
def execSegmentRollback (dt : Nat) (e : Engine) (s : State) : Answer :=
  onUnit (engExists e) dt (segmentRollback dt e) s
/-- COMMAND_COMPLETE (R155). -/
def execCommandComplete (dt : Nat) (e : Engine) (bg : Bool) (s : State) : Answer :=
  onUnit (engExists e) dt (commandComplete dt e bg) s
/-- JOB_CTRL_WRITE (R48). -/
def execJobCtrlWrite (dt j v : Nat) (s : State) : Answer :=
  onUnit (decide (j < Config.jobs)) dt (jobCtrlWrite dt j v) s
/-- MARGIN_RESET (R56). -/
def execMarginReset (dt : Nat) (s : State) : Answer :=
  onUnit true dt (fun m => marginReset (elapse dt m)) s

end Sys2Proof.Machine
end

