-- ==== Sys2Proof/Machine/Bents.lean ====
section
/-!
DEFINITION. Sys2Proof/Machine/Bents.lean: the bents' commands MATMUL, COMBINE and VECTOR (R154 to R182). A command's whole work is
formed as it starts and stands in memory from its completion on.
-/
namespace Sys2Proof.Machine

/-! ### Descriptors (R156) -/

/-- The descriptor of MATMUL, COMBINE and VECTOR (R156). -/
structure BentDesc where
  op : Nat
  fmtA : Nat
  fmtB : Nat
  fmtOut : Nat
  epi : Nat
  flags : Nat
  maxA : Nat
  maxB : Nat
  rows : Nat
  cols : Nat
  k : Nat
  maxOut : Nat
  shift : Nat
  addrA : Nat
  addrC : Nat
  addrB : Nat
  addrBias : Nat
  scale : Nat
  addrP : Nat
  mcMask : Nat
  layer : Nat
  pitchA : Nat
  pitchC : Nat
  deriving DecidableEq, Repr

/-- The descriptor that a pointer names. -/
def Chip.bentDesc (m : Chip) (p : Nat) : BentDesc :=
  let f (o n : Nat) := m.descNum (p + o) n
  { op := f 0 1, fmtA := f 1 1, fmtB := f 2 1, fmtOut := f 3 1, epi := f 4 1, flags := f 5 1, maxA := f 6 1, maxB := f 7 1,
    rows := f 8 4, cols := f 0xC 4, k := f 0x10 4, maxOut := f 0x14 1, shift := f 0x15 1, addrA := f 0x18 4, addrC := f 0x1C 4,
    addrB := f 0x20 8, addrBias := f 0x28 4, scale := f 0x2C 4, addrP := f 0x30 4, mcMask := f 0x34 4, layer := f 0x38 4,
    pitchA := f 0x3C 2, pitchC := f 0x3E 2 }

def BentDesc.bHbm (d : BentDesc) : Bool := bitN d.flags 0
def BentDesc.accIn (d : BentDesc) : Bool := bitN d.flags 1
def BentDesc.outPartial (d : BentDesc) : Bool := bitN d.flags 2
def BentDesc.bias (d : BentDesc) : Bool := bitN d.flags 3
def BentDesc.infOvf (d : BentDesc) : Bool := bitN d.flags 4

/-- The four ways in which a pair accumulates (R159, R160, R161, R170). -/
inductive Family where
  | int | fp8 | mx | fp
  deriving DecidableEq, Repr
/-- Log: 75 DEDUCED. -/
def familyOf (fmtA : Nat) : Family :=
  if fmtA ≤ 2 ∨ fmtA = 0x13 then .int else if fmtA ≤ 4 then .fp8 else if isMx fmtA then .mx else .fp

/-! ### Reading elements -/

/-- The bits of element `i` of `w` bits of an array at a global address (R158). -/
def Chip.elemBits (m : Chip) (er : ReadErrs) (g w i : Nat) : Nat :=
  ofLeBytes (m.readMem er (g + w * i / 8) (ceilDivN (w * i % 8 + w) 8)) / 2 ^ (w * i % 8) % 2 ^ w

/-- An element of an array, without its block scale. -/
def Chip.elemAt (m : Chip) (er : ReadErrs) (g fmt i : Nat) : Elem := decElem fmt (m.elemBits er g (fmtBits fmt) i)

/-! ### Exact accumulation (R160 to R165) -/

/-- An accumulator with its marks: `v` in LSBs of the family. For BF16 and FP16 pairs `v` holds FP32 bits. -/
structure Acc where
  v : Int := 0
  nan : Bool := false
  posInf : Bool := false
  negInf : Bool := false
  deriving DecidableEq, Repr

/-- Marks combine by OR (R165).
(Log: 70 DEDUCED.) -/
def Acc.marksOf (a b : Acc) : Acc :=
  { v := a.v, nan := a.nan || b.nan, posInf := a.posInf || b.posInf, negInf := a.negInf || b.negInf }
/-- The exact sum of two accumulators of 8 bits and below. -/
def Acc.plus (a b : Acc) : Acc := { (a.marksOf b) with v := a.v + b.v }

/-- The exact sum of products of a run of elements, with the marks that they set (R160, R161, R165).
(Log: 70 DEDUCED.) -/
def dotExact : List (Elem × Elem) → Q × Acc
  | [] => (⟨0, 1⟩, {})
  | (a, b) :: t =>
    let (s, k) := dotExact t
    match elemMul a b with
    | .num q => (qAdd q s, k)
    | .inf neg => (s, { k with posInf := k.posInf || !neg, negInf := k.negInf || neg })
    | .nan => (s, { k with nan := true })

/-- A block pair's contribution (R163): anchor, block scales, its elements. -/
def blockContrib (anchor xa xb : Nat) (l : List (Elem × Elem)) : Acc :=
  if xa = 0xFF ∨ xb = 0xFF then { nan := true }
  else
    let (s, k) := dotExact l
    { k with v := qRne (qMul s (qPow2 (32 - ((anchor : Int) - (xa : Int) - xb)))) }

/-- The FP32 reduction of R170: passes of 64 products, each by a pairwise tree, added in ascending order. -/
def dotFp32 (l : List (Nat × Nat)) : Nat :=
  ((chunks 64 l).map fun c => treeSum 6 (c.map fun p => mulF32 p.1 p.2)).foldl addF32 0

/-- The FP32 bits of an element of BF16 or FP16, which FP32 holds exactly. -/
def widen (fmt x : Nat) : Nat := match floatOf fmt with
  | some f => toF32 (decFloat f x) (bitN x (f.exp + f.man))
  | none => 0

/-- A run of a reduction: the two operands' element bits in reduction order, and their block scales (for MX). -/
structure Block where
  els : List (Nat × Nat)
  xa : Nat := 0
  xb : Nat := 0
  deriving DecidableEq, Repr

/-- A reduction over its blocks in order, with the anchor M.
(Log: 70 DEDUCED.) -/
def reduce (fam : Family) (anchor fmtA fmtB : Nat) (bs : List Block) : Acc :=
  let el (p : Nat × Nat) := (decElem fmtA p.1, decElem fmtB p.2)
  let xs := bs.flatMap (·.els)
  match fam with
  | .int => { v := qFloor (dotExact (xs.map el)).1 }
  | .fp8 => let (s, k) := dotExact (xs.map el); { k with v := qFloor (qMul s (qPow2 32)) }
  | .mx => bs.foldl (fun a b => a.plus (blockContrib anchor b.xa b.xb (b.els.map el))) {}
  | .fp => { v := (dotFp32 (xs.map fun p => (widen fmtA p.1, widen fmtB p.2)) : Nat) }

/-- Add a partial or a bias to an accumulator (R166, R170). -/
def addAcc (fam : Family) (a b : Acc) : Acc :=
  if fam = .fp then { v := (addF32 a.v.toNat b.v.toNat : Nat) } else a.plus b

/-! ### Partials -/

/-- Bytes of `n` elements. -/
def elemBytes (fmt n : Nat) : Nat := ceilDivN (n * fmtBits fmt) 8
/-- Bytes of one element of a bias (R166). -/
def biasSize : Family → Nat
  | .int | .fp => 4 | _ => 8
/-- Bytes of one partial in memory: P64 8, P88 in a container of 16, FP32 4. -/
def partialSize : Family → Nat
  | .int => 8 | .fp => 4 | _ => 16
/-- A partial read from its container: marks in bits 90:88 (R165).
(Log: 70 DEDUCED.) -/
def decPartial (fam : Family) (x : Nat) : Acc := match fam with
  | .int => { v := signedOf 64 x }
  | .fp => { v := ((x % 2 ^ 32 : Nat) : Int) }
  | _ => { v := signedOf 88 x, nan := bitN x 88, posInf := bitN x 89, negInf := bitN x 90 }
/-- A partial as it is written: the container is sign-extended above the marks.
(Log: 70 DEDUCED.) -/
def encPartial (fam : Family) (a : Acc) : List Byte := match fam with
  | .int => leBytes 8 (unsignedOf 64 a.v)
  | .fp => leBytes 4 a.v.toNat
  | _ => leBytes 16 (unsignedOf 88 a.v + (b2n a.nan + 2 * b2n a.posInf + 4 * b2n a.negInf) * 2 ^ 88 +
      (if a.v < 0 then 2 ^ 37 - 1 else 0) * 2 ^ 91)

/-! ### The output stage (R166, R167, R174) -/

/-- What the output stage needs: formats, anchor, epilogue, scale, shift, ceiling, the divisor of an average, whose integer output takes
the shift from every operand format (R189). -/
structure OutSpec where
  fam : Family
  fmtOut : Nat
  anchor : Nat := 254
  epi : Nat := 0
  infOvf : Bool := false
  scale : Nat := 0
  shift : Nat := 0
  ceil : Nat := 0
  div : Nat := 1
  avg : Bool := false
  deriving DecidableEq, Repr

/-- The accumulator's value before rounding, with its marks resolved (R165). -/
def Acc.elem (fam : Family) (anchor : Nat) (a : Acc) : Elem :=
  if a.nan || (a.posInf && a.negInf) then .nan
  else if a.posInf then .inf false
  else if a.negInf then .inf true
  else match fam with
    | .int => .num (qOfInt a.v)
    | .fp => f32 a.v.toNat
    | .fp8 => .num (qMul (qOfInt a.v) (qPow2 (-32)))
    | .mx => .num (qMul (qOfInt a.v) (qPow2 ((anchor : Int) - 254 - 32)))

/-- The exact scaled value of step 4 of R166, over the divisor of an average. -/
def OutSpec.scaled (o : OutSpec) (x : Elem) : Elem :=
  let v := match x with
    | .num q => Elem.num (qDiv q (qOfInt o.div))
    | e => e
  if o.fam = .int ∧ isInt o.fmtOut then elemMul v (.num ⟨signedOf 32 o.scale, 2 ^ o.shift⟩)
  else elemMul v (elemMul (f32 o.scale) (.num ⟨1, if o.avg ∧ isInt o.fmtOut then 2 ^ o.shift else 1⟩))

def reluElem : Elem → Elem
  | .num q => .num (if q.num < 0 then ⟨0, 1⟩ else q)
  | .inf neg => if neg then .num ⟨0, 1⟩ else .inf false
  | .nan => .nan

/-- Where a value is rounded to FP32 first (R166, R167), overflow gives infinity only where fmt_out has one. -/
def OutSpec.inner (o : OutSpec) : Bool := o.infOvf && (floatOf o.fmtOut).any fun f => f.sp == .ieee

/-- The epilogue of R167: ReLU on the exact value, every other function on the FP32-rounded value; whether a finite value saturated in
that rounding. -/
def OutSpec.epilogue (o : OutSpec) (x : Elem) : Elem × Bool :=
  if o.epi = 0 then (x, false)
  else if o.epi = 1 then (reluElem x, false)
  else
    let w := encFloat fp32 o.inner x
    (f32 (fnF32 o.epi w.bits), w.sat)

/-- Results after the epilogue, as written: block scales (MX formats) and elements. An element that saturated on the way counts as
saturated.
(Log: 71 DEDUCED.) -/
def OutSpec.round (o : OutSpec) (vs : List (Elem × Bool)) : List Nat × List Written :=
  if isMx o.fmtOut then
    let ws := vs.map fun v => encFloat fp32 o.inner v.1
    let (sc, el) := mxQuantise o.fmtOut o.ceil (ws.map (·.bits))
    (sc, (el.zip (vs.zip ws)).map fun p => { p.1 with sat := p.1.sat || p.2.1.2 || p.2.2.sat })
  else ([], vs.map fun v =>
    let w := encElem o.fmtOut o.infOvf v.1
    { w with sat := w.sat || v.2 })
/-- A row of accumulators through the output stage.
(Log: 71 DEDUCED, 72 DESIGN CHOICE.) -/
def OutSpec.row (o : OutSpec) (l : List Acc) : List Nat × List Written :=
  o.round (l.map fun a => o.epilogue (o.scaled (a.elem o.fam o.anchor)))

/-! ### What a command leaves -/

/-- The output of a command: one line of elements at an address, with its block scales at theirs. -/
structure OutLine where
  addr : Nat
  scaleAddr : Nat := 0
  scales : List Nat := []
  elems : List Written
  /-- The mark index of each element. -/
  idx : List Nat
  deriving DecidableEq, Repr

def blankRunning : Running :=
  { entry := { kind := .foreground, job := 0, startCycle := 0, descPtr := 0, stageOffset := 0, wait := none, signal := none,
               lastInBay := false, batchGated := false, variableCount := false, preemptPoint := false, plannedEnd := 0 },
    closeBay := 0, startedAt := 0 }

/-- The running record of a command that writes lines of output in a format as a layer's output (R432 to R435). -/
def outRunning (op : String) (fmt layer row : Nat) (ls : List OutLine) : Running :=
  let contrib (l : OutLine) : List (Nat × Nat) := (l.idx.zip l.elems).zipIdx.map fun p =>
    (p.1.1, valueWord fmt (if isMx fmt then l.scales.getD (p.2 / 32) 0 else 0) p.1.2.bits)
  let all := ls.flatMap (·.elems)
  { blankRunning with
    op, layer := some layer, row,
    sum := markSum (ls.flatMap contrib),
    elements := all.length,
    writes := ls.flatMap fun l => (l.addr, packBits (fmtBits fmt) (l.elems.map (·.bits))) ::
      (if isMx fmt then [(l.scaleAddr, l.scales.map (BitVec.ofNat 8))] else []),
    sats := (all.filter (·.sat)).length, nans := (all.filter (·.nan)).length, infs := (all.filter (·.inf)).length }

/-- The running record of a command that writes partials, which contribute nothing to marks (R432). -/
def partialRunning (op : String) (writes : List (Nat × List Byte)) : Running := { blankRunning with op, writes }

/-- The command is shown in BENT_CUR (R180): its job, its entry's index in the bay's list. -/
def Chip.showCur (n : Nat) (c : CutEntry) (m : Chip) : Chip :=
  let idx := ((m.listFor (.bent n) m.bay).findIdx? (· == c)).getD (m.eng (.bent n)).pos
  ((m.put (F.BENT_CUR_active n) 1).put (F.BENT_CUR_job n) c.job).put (F.BENT_CUR_entry n) idx

/-- Stalled cycles of a weight stream (R175, R179).
(Log: 73 DESIGN CHOICE.) -/
def Chip.noteStall (n cycles : Nat) (m : Chip) : Chip :=
  if cycles = 0 then m
  else
    let e := m.eng (.bent n)
    (m.setFlag (F.BENT_STAT_hbm_stall n)).setEng (.bent n) { e with wait := e.wait + cycles }

/-- What a bent command reads: address and bytes of each run. -/
abbrev Reads := List (Nat × Nat)
/-- Rows of `bytes` bytes, `pitch` units of 16 bytes apart, from a global address. -/
def rowReads (g rows pitch bytes : Nat) : Reads := (upTo rows).map fun r => (g + r * pitch * 16, bytes)

/-- Work of a bent command: what `f` gives of it, with the errors and stalls it meets. -/
def bentWork (n : Nat) (c : CutEntry) (er : ReadErrs) (stall : Nat) (reads : Chip → Reads) (f : Chip → Running) (m : Chip) :
    Running × Chip :=
  let m1 := m.meetErrs (.bent n) c (reads m) er
  (f m1, (m1.showCur n c).noteStall n stall)

/-- A bent command that reads `reads` and runs `f` (R155): a descriptor that is not of this command is met by none (R157) and changes
nothing. -/
def bentCommand (dt n op : Nat) (c : CutEntry) (er : ReadErrs) (stall : Nat) (reads : Chip → Reads) (f : Chip → Running) (m0 : Chip) :
    Chip :=
  let m := elapse dt m0
  if m.descNum c.descPtr 1 ≠ op then m else startCmd 0 (.bent n) c (bentWork n c er stall reads f) m

/-! ### MATMUL (R156 to R170) -/

/-- Global address of an SRAM or HBM operand of bent `n`.
(Log: 73 DESIGN CHOICE.) -/
def operandB (n : Nat) (d : BentDesc) : Nat := if d.bHbm then hbmAddr d.addrB else bentAddr n d.addrB

/-- The reduction of row `r` and column `c` of a MATMUL: A by rows of the pitch, B as k lines of n columns.
(Log: 73 DESIGN CHOICE.) -/
def Chip.matmulAcc (m : Chip) (n : Nat) (d : BentDesc) (pl : CmdPlan) (r c : Nat) : Acc :=
  let ga := bentAddr n (d.addrA + r * d.pitchA * 16)
  let xs := (upTo d.k).map fun i =>
    (m.elemBits pl.errs ga (fmtBits d.fmtA) i, m.elemBits pl.errs (operandB n d) (fmtBits d.fmtB) (i * d.cols + c))
  let blocks := ceilDivN d.k 32
  reduce (familyOf d.fmtA) (d.maxA + d.maxB) d.fmtA d.fmtB
    (if isMx d.fmtA then (chunks 32 xs).zipIdx.map fun b =>
      { els := b.1, xa := ofLeBytes (m.readMem pl.errs (bentAddr n (pl.scaleA + r * blocks + b.2)) 1),
        xb := ofLeBytes (m.readMem pl.errs ((if d.bHbm then hbmAddr pl.scaleB else bentAddr n pl.scaleB) + b.2 * d.cols + c) 1) }
     else [{ els := xs }])

/-- The bias of column `c` (R166): INT32 for integer pairs, 64 bits in LSBs for FP8 and MX, FP32 for BF16 and FP16. -/
def Chip.biasAt (m : Chip) (n : Nat) (fam : Family) (addr : Nat) (er : ReadErrs) (c : Nat) : Acc := match fam with
  | .int => { v := signedOf 32 (m.elemBits er (bentAddr n addr) 32 c) }
  | .fp => { v := ((m.elemBits er (bentAddr n addr) 32 c : Nat) : Int) }
  | _ => { v := signedOf 64 (m.elemBits er (bentAddr n addr) 64 c) }

/-- The output of row `r` from its accumulators: partials, or rounded elements with their marks' indices. -/
def matmulRow (n : Nat) (d : BentDesc) (pl : CmdPlan) (accs : Nat → List Acc) (r : Nat) : OutLine :=
  let o : OutSpec := { fam := familyOf d.fmtA, fmtOut := d.fmtOut,
                       anchor := if familyOf d.fmtA = .mx then d.maxA + d.maxB else 254, epi := d.epi,
                       infOvf := d.infOvf, scale := d.scale, shift := d.shift, ceil := d.maxOut }
  let (sc, el) := o.row (accs r)
  { addr := bentAddr n (d.addrC + r * d.pitchC * 16), scaleAddr := bentAddr n (pl.scaleOut + r * ceilDivN d.cols 32),
    scales := sc, elems := el, idx := (upTo d.cols).map fun c => pl.part.base + r * pl.part.lineStep + c * pl.part.pixStep }

/-- The outputs of a command of `rows` rows: partials or layer outputs.
(Log: 71 DEDUCED.) -/
def outRows (op : String) (n : Nat) (d : BentDesc) (pl : CmdPlan) (accs : Nat → List Acc) : Running :=
  if d.outPartial then
    partialRunning op ((upTo d.rows).map fun r =>
      (bentAddr n (d.addrC + r * d.pitchC * 16), (accs r).flatMap (encPartial (familyOf d.fmtA))))
  else outRunning op d.fmtOut d.layer pl.part.row ((upTo d.rows).map (matmulRow n d pl accs))

/-- Partial `c` of row `r` of the array at a global address, with a pitch. -/
def Chip.partialAt (m : Chip) (fam : Family) (g pitch : Nat) (er : ReadErrs) (r c : Nat) : Acc :=
  decPartial fam (m.elemBits er (g + r * pitch * 16) (8 * partialSize fam) c)

/-- The work of a MATMUL: reduction, input partial, bias (R166 steps 1 and 2), output. -/
def Chip.matmulWork (m : Chip) (n : Nat) (c : CutEntry) (pl : CmdPlan) : Running :=
  let d := m.bentDesc c.descPtr
  let fam := familyOf d.fmtA
  let acc (r j : Nat) : Acc :=
    let a := m.matmulAcc n d pl r j
    let b := if d.accIn then addAcc fam a (m.partialAt fam (bentAddr n d.addrP) d.pitchC pl.errs r j) else a
    if d.bias then addAcc fam b (m.biasAt n fam d.addrBias pl.errs j) else b
  outRows "MATMUL" n d pl fun r => (upTo d.cols).map (acc r)

/-- What a command reads beside its operands: the input partial and the bias. -/
def outReads (n : Nat) (d : BentDesc) (fam : Family) : Reads :=
  (if d.accIn then rowReads (bentAddr n d.addrP) d.rows d.pitchC (d.cols * partialSize fam) else []) ++
  (if d.bias then [(bentAddr n d.addrBias, d.cols * biasSize fam)] else [])

/-- What a MATMUL reads. -/
def Chip.matmulReads (m : Chip) (n : Nat) (c : CutEntry) (pl : CmdPlan) : Reads :=
  let d := m.bentDesc c.descPtr
  let blocks := ceilDivN d.k 32
  rowReads (bentAddr n d.addrA) d.rows d.pitchA (elemBytes d.fmtA d.k) ++ [(operandB n d, elemBytes d.fmtB (d.k * d.cols))] ++
    (if isMx d.fmtA then
      [(bentAddr n pl.scaleA, d.rows * blocks), ((if d.bHbm then hbmAddr pl.scaleB else bentAddr n pl.scaleB), blocks * d.cols)]
     else []) ++ outReads n d (familyOf d.fmtA)

/-- MATMUL (R156, R160 to R170). -/
def matmul (dt n : Nat) (c : CutEntry) (pl : CmdPlan) : Chip → Chip :=
  bentCommand dt n 1 c pl.errs pl.stall (fun m => m.matmulReads n c pl) fun m => m.matmulWork n c pl

/-! ### COMBINE (R168) -/

/-- The family of a COMBINE's accumulators: its partials are P64 or P88; without max-scale fields a P88 partial is of FP8 pairs. -/
def BentDesc.combineFam (d : BentDesc) : Family := if d.fmtA = 0x20 then .int else if d.maxA + d.maxB = 0 then .fp8 else .mx

/-- The work of a COMBINE: the partials at addr_a and addr_b (in HBM where b_hbm is set) added, then the output stage.
(Log: 75 DEDUCED.) -/
def Chip.combineWork (m : Chip) (n : Nat) (c : CutEntry) (pl : CmdPlan) : Running :=
  let d := m.bentDesc c.descPtr
  let fam := d.combineFam
  let d1 := { d with fmtA := match fam with | .int => 0 | .fp8 => 3 | _ => 5 }
  let acc (r j : Nat) : Acc :=
    let a0 := addAcc fam (m.partialAt fam (bentAddr n d.addrA) d.pitchA pl.errs r j) (m.partialAt fam (operandB n d) d.pitchA pl.errs r j)
    let a := if d.accIn then addAcc fam a0 (m.partialAt fam (bentAddr n d.addrP) d.pitchC pl.errs r j) else a0
    if d.bias then addAcc fam a (m.biasAt n fam d.addrBias pl.errs j) else a
  outRows "COMBINE" n d1 pl fun r => (upTo d.cols).map (acc r)

/-- What a COMBINE reads. -/
def Chip.combineReads (m : Chip) (n : Nat) (c : CutEntry) : Reads :=
  let d := m.bentDesc c.descPtr
  let row := d.cols * partialSize d.combineFam
  rowReads (bentAddr n d.addrA) d.rows d.pitchA row ++ rowReads (operandB n d) d.rows d.pitchA row ++ outReads n d d.combineFam

/-- COMBINE (R168). -/
def combine (dt n : Nat) (c : CutEntry) (pl : CmdPlan) : Chip → Chip :=
  bentCommand dt n 2 c pl.errs pl.stall (fun m => m.combineReads n c) fun m => m.combineWork n c pl

/-! ### VECTOR (R171 to R174) -/

/-- The number of a function that is not correctly rounded (R172); the first four are those of R167. -/
def vecFnNo : VecOp → Nat
  | .gelu => 2 | .silu => 3 | .sigmoid => 4 | .tanh => 5
  | .rcp => 6 | .rsqrt => 7 | .exp2 => 8 | .log2 => 9 | .exp => 10 | .log => 11
  | _ => 0

/-- Every NaN result is the canonical quiet NaN (R172). -/
def canonF32 (x : Nat) : Nat := if f32 x = .nan then canonNan fp32 else x

/-- An element-wise function of FP32 bits; `b` and `p` are the second and third operand.
(Log: 74 DESIGN CHOICE.) -/
def vecElem (op : VecOp) (a b p : Nat) : Nat :=
  canonF32 (match op with
  | .add => addF32 a b
  | .sub => subF32 a b
  | .mul => mulF32 a b
  | .fma => fmaF32 a b p
  | .min => minF32 a b
  | .max => maxF32 a b
  | .abs => a % 2 ^ 31
  | .neg => flipF32 a
  | .compare => Config.vecCompare a b % 2 ^ 32
  | .select => match f32 a with
    | .num q => if q.num = 0 then p else b
    | _ => b
  | .div => divF32 a b
  | .sqrt => sqrtF32 a
  | .convert | .quantise | .sum | .maxOf | .minOf | .sumSquares => a
  | _ => fnF32 (vecFnNo op) a)

/-- A reduction along a row (R173), or none for an element-wise function.
(Log: 74 DESIGN CHOICE.) -/
def vecReduce (op : VecOp) (l : List Nat) : Option Nat :=
  match op with
  | .sum => some (canonF32 (treeSum (treeDepth l.length) l))
  | .sumSquares => some (treeSum (treeDepth l.length) (l.map fun a => mulF32 a a))
  | .maxOf => some (canonF32 (l.tail.foldl maxF32 (l.headD 0)))
  | .minOf => some (canonF32 (l.tail.foldl minF32 (l.headD 0)))
  | _ => none

/-- The sign bit of a stored floating element, which a zero keeps (R172). -/
def signOf (fmt b : Nat) : Bool := match floatOf fmt with
  | some f => bitN b (f.exp + f.man)
  | none => false

/-- An operand element as FP32 (R171 conversion): exact but for INT32, which rounds. -/
def Chip.vecIn (m : Chip) (er : ReadErrs) (g fmt i : Nat) (scale : Option Nat) : Nat :=
  if fmt = 0x12 then m.elemBits er g 32 i
  else
    let b := m.elemBits er g (fmtBits fmt) i
    match scale with
    | some s => toF32 (scaleElem (ofLeBytes (m.readMem er s 1)) (decElem fmt b)) (signOf fmt b)
    | none => toF32 (decElem fmt b) (signOf fmt b)

/-- An FP32 result converted into a format (R172); a zero keeps its sign. -/
def vecConv (d : BentDesc) (x : Nat) : Written :=
  if d.fmtOut = 0x12 then
    { bits := x, nan := f32 x == .nan, inf := match f32 x with | .inf _ => true | _ => false }
  else match floatOf d.fmtOut, f32 x with
    | some f, .num q => if q.num = 0 then { bits := signBit f (negF32 x) } else encFloat f d.infOvf (.num q)
    | _, y => encElem d.fmtOut d.infOvf y

/-- FP32 results written in fmt_out: MX formats by blocks (R174), INT8 and INT4 of a quantisation by the factor (R174), the others by
conversion (R172). -/
def vecOut (op : VecOp) (d : BentDesc) (l : List Nat) : List Nat × List Written :=
  if isMx d.fmtOut then mxQuantise d.fmtOut d.maxOut l
  else ([], l.map fun x =>
    if op = .quantise ∧ isInt d.fmtOut then encInt d.fmtOut (elemMul (f32 x) (f32 d.scale)) else vecConv d x)

/-- The elements of a VECTOR command's operands: address, format, element index, block-scale address (MX). -/
structure VecSrc where
  g : Nat
  fmt : Nat
  i : Nat
  sc : Option Nat := none
  deriving DecidableEq, Repr

def vecA (n : Nat) (d : BentDesc) (pl : CmdPlan) (r j : Nat) : VecSrc :=
  { g := bentAddr n (d.addrA + r * d.pitchA * 16), fmt := d.fmtA, i := j,
    sc := if isMx d.fmtA then some (bentAddr n (pl.scaleA + r * ceilDivN d.cols 32 + j / 32)) else none }
/-- The second operand, in HBM where b_hbm is set. -/
def vecB (n : Nat) (d : BentDesc) (v : VecPlan) (pl : CmdPlan) (r j : Nat) : VecSrc :=
  let i := r * v.bRow + j * v.bCol
  { g := operandB n d, fmt := d.fmtB, i,
    sc := if isMx d.fmtB then some ((if d.bHbm then hbmAddr pl.scaleB else bentAddr n pl.scaleB) + i / 32) else none }
def vecP (n : Nat) (d : BentDesc) (v : VecPlan) (r j : Nat) : VecSrc := { g := bentAddr n d.addrP, fmt := 0x12, i := r * v.pRow + j * v.pCol }
def Chip.vecVal (m : Chip) (er : ReadErrs) (s : VecSrc) : Nat := m.vecIn er s.g s.fmt s.i s.sc
def VecSrc.reads (s : VecSrc) : Reads :=
  (s.g + s.i * fmtBits s.fmt / 8, ceilDivN (s.i * fmtBits s.fmt % 8 + fmtBits s.fmt) 8) :: (s.sc.map fun a => (a, 1)).toList

/-- How many operands a function takes. -/
def vecArity : VecOp → Nat
  | .fma | .select => 3
  | .add | .sub | .mul | .min | .max | .compare | .div => 2
  | _ => 1

/-- The work of a VECTOR command over m rows of n columns.
(Log: 74 DESIGN CHOICE.) -/
def Chip.vectorWork (m : Chip) (n : Nat) (c : CutEntry) (v : VecPlan) (pl : CmdPlan) : Running :=
  let d := m.bentDesc c.descPtr
  let val := m.vecVal pl.errs
  let out (r : Nat) : List Nat :=
    match vecReduce v.op ((upTo d.cols).map fun j => val (vecA n d pl r j)) with
    | some x => [x]
    | none => (upTo d.cols).map fun j => vecElem v.op (val (vecA n d pl r j)) (val (vecB n d v pl r j)) (val (vecP n d v r j))
  outRunning "VECTOR" d.fmtOut d.layer pl.part.row ((upTo d.rows).map fun r =>
    let (sc, el) := vecOut v.op d (out r)
    { addr := bentAddr n (d.addrC + r * d.pitchC * 16), scaleAddr := bentAddr n (pl.scaleOut + r * ceilDivN d.cols 32), scales := sc,
      elems := el, idx := (upTo el.length).map fun j => pl.part.base + r * pl.part.lineStep + j * pl.part.pixStep })

/-- What a VECTOR command reads. -/
def Chip.vectorReads (m : Chip) (n : Nat) (c : CutEntry) (v : VecPlan) (pl : CmdPlan) : Reads :=
  let d := m.bentDesc c.descPtr
  (upTo d.rows).flatMap fun r => (upTo d.cols).flatMap fun j =>
    (([vecA n d pl r j, vecB n d v pl r j, vecP n d v r j].take (vecArity v.op)).flatMap (·.reads))

/-- VECTOR (R171 to R174). -/
def vector (dt n : Nat) (c : CutEntry) (v : VecPlan) (pl : CmdPlan) : Chip → Chip :=
  bentCommand dt n 3 c pl.errs 0 (fun m => m.vectorReads n c v pl) fun m => m.vectorWork n c v pl

/-! ### The meanings of the commands -/

/-- MATMUL (R166). -/
def execMatmul (dt n : Nat) (c : CutEntry) (pl : CmdPlan) (s : State) : Answer :=
  onUnit (decide (n < Config.bents)) dt (matmul dt n c pl) s
/-- COMBINE (R168). -/
def execCombine (dt n : Nat) (c : CutEntry) (pl : CmdPlan) (s : State) : Answer :=
  onUnit (decide (n < Config.bents)) dt (combine dt n c pl) s
/-- VECTOR (R171). -/
def execVector (dt n : Nat) (c : CutEntry) (v : VecPlan) (pl : CmdPlan) (s : State) : Answer :=
  onUnit (decide (n < Config.bents)) dt (vector dt n c v pl) s

end Sys2Proof.Machine
end

