-- ==== Sys2Proof/Machine/Attention.lean ====
section
/-!
DEFINITION. Sys2Proof/Machine/Attention.lean: the attention and KV engine (R217 to R237): ATTEND and APPEND over KV rings and linear
caches.
-/
namespace Sys2Proof.Machine

/-- The engine descriptor (R220). -/
structure AttDesc where
  op : Nat
  fmtQ : Nat
  fmtKv : Nat
  fmtOut : Nat
  mask : Nat
  rope : Bool
  maskBits : Nat
  headsQ : Nat
  headsKv : Nat
  dim : Nat
  nSeq : Nat
  qMax : Nat
  kvMax : Nat
  window : Nat
  bent : Nat
  addrLen : Nat
  addrQ : Nat
  addrOut : Nat
  addrAux : Nat
  addrTab : Nat
  scaleQk : Nat
  layer : Nat
  maxQ : Nat
  maxKv : Nat
  maxOut : Nat
  ropeBase : Nat
  addrVoid : Nat
  deriving DecidableEq, Repr

def Chip.attDesc (m : Chip) (p : Nat) : AttDesc :=
  let f (o n : Nat) := m.descNum (p + o) n
  { op := f 0 1, fmtQ := f 1 1, fmtKv := f 2 1, fmtOut := f 3 1, mask := f 4 1 % 4, rope := bitN (f 4 1) 2, maskBits := f 4 1, headsQ := f 5 1,
    headsKv := f 6 1, dim := if f 7 1 = 0 then 64 else 128, nSeq := f 8 2, qMax := f 0xA 2, kvMax := f 0xC 2, window := f 0xE 1, bent := f 0xF 1,
    addrLen := f 0x10 4, addrQ := f 0x14 4, addrOut := f 0x18 4, addrAux := f 0x1C 4, addrTab := f 0x20 8, scaleQk := f 0x28 4,
    layer := f 0x2C 4, maxQ := f 0x30 1, maxKv := f 0x31 1, maxOut := f 0x32 1, ropeBase := f 0x34 4, addrVoid := f 0x38 4 }

/-- A ring or cache table entry (R223); a linear cache has one slot. -/
structure RingEnt where
  base : Nat
  stride : Nat
  nSlot : Nat
  tokens : Nat
  camera : Nat
  job : Nat
  heads : Nat
  dim : Nat
  fmt : Nat
  maxScale : Nat
  ring : Nat
  deriving DecidableEq, Repr

def Chip.ringEnt (m : Chip) (p : Nat) : RingEnt :=
  let f (o n : Nat) := m.descNum (p + o) n
  { base := f 0 8, stride := f 8 4, nSlot := f 0xC 2, tokens := f 0xE 2, camera := f 0x10 1, job := f 0x11 1, heads := f 0x12 1,
    dim := if f 0x13 1 = 0 then 64 else 128, fmt := f 0x14 1, maxScale := f 0x15 1, ring := f 0x16 1 }
/-- Log: 79 DEDUCED. -/
def RingEnt.linear (r : RingEnt) : Bool := r.nSlot == 1

/-- The entries of a table, up to the first that has no slot.
(Log: 79 DEDUCED.) -/
def Chip.ringTab (m : Chip) (p : Nat) : List RingEnt :=
  ((upTo 256).map fun i => m.ringEnt (p + 32 * i)).takeWhile fun r => decide (r.nSlot ≠ 0)

/-- A length-table entry (R221). -/
structure LenEnt where
  qLen : Nat
  newLen : Nat
  kvLen : Nat
  target : Nat
  flags : Nat
  key : Nat
  deriving DecidableEq, Repr

def Chip.lenEnt (m : Chip) (er : ReadErrs) (d : AttDesc) (i : Nat) : LenEnt :=
  let f (o n : Nat) := ofLeBytes (m.readMem er (bentAddr d.bent (d.addrLen + 16 * i + o)) n)
  { qLen := f 0 2, newLen := f 2 2, kvLen := f 4 2, target := f 6 1, flags := f 7 1, key := f 8 6 }

/-! ### Layout (R221, R224) -/

/-- Bytes of one element of a key, value or query format. -/
def eBytes (fmt : Nat) : Nat := fmtBits fmt / 8
/-- Bytes of a packed row of `heads` heads: elements, block scales for MX, rows on 16-byte boundaries. -/
def rowElemBytes (fmt heads d : Nat) : Nat := heads * d * eBytes fmt
def rowBytes (fmt heads d : Nat) : Nat :=
  ceilDivN (rowElemBytes fmt heads d + (if isMx fmt then heads * d / 32 else 0)) 16 * 16
def up256 (n : Nat) : Nat := ceilDivN n 256 * 256
def RingEnt.kB (r : RingEnt) : Nat := up256 (r.heads * r.tokens * r.dim * eBytes r.fmt)
def RingEnt.sB (r : RingEnt) : Nat := if isMx r.fmt then up256 (r.heads * r.tokens * r.dim / 32) else 0
def RingEnt.vOff (r : RingEnt) : Nat := 0x100 + r.kB + r.sB
def RingEnt.slotSize (r : RingEnt) : Nat := 0x100 + 2 * (r.kB + r.sB)
/-- HBM address of the slot that strip σ stands in. -/
def RingEnt.slotOf (r : RingEnt) (s : Nat) : Nat := r.base + s % max 1 r.nSlot * r.stride

/-- A slot's header. -/
structure SlotHead where
  strip : Nat
  state : Nat
  deriving DecidableEq, Repr
/-- A number of `n` bytes of HBM as a command reads it. -/
def Chip.hbmNum (m : Chip) (er : ReadErrs) (a n : Nat) : Nat := ofLeBytes (m.readMem er (hbmAddr a) n)
def Chip.slotHead (m : Chip) (er : ReadErrs) (a : Nat) : SlotHead := { strip := m.hbmNum er a 8, state := m.hbmNum er (a + 0x12) 2 }
def Chip.presentBit (m : Chip) (er : ReadErrs) (a t : Nat) : Bool := bitN (m.hbmNum er (a + 0x20 + t / 8) 1) (t % 8)

/-! ### Checks of an entry (R222) -/

/-- The ring or cache that an entry names. -/
def Chip.target (m : Chip) (d : AttDesc) (e : LenEnt) : Option RingEnt := (m.ringTab d.addrTab).find? fun r => r.ring == e.target
/-- The committed length of a linear cache.
(Log: 79 DEDUCED.) -/
def Chip.committed (m : Chip) (er : ReadErrs) (r : RingEnt) : Nat := (m.slotHead er r.base).strip
def Chip.entryBad (m : Chip) (er : ReadErrs) (d : AttDesc) (e : LenEnt) : Bool :=
  !bitN e.flags 0 || decide (d.qMax < e.qLen) || decide (d.qMax < e.newLen) ||
    match m.target d e with
    | none => true
    | some r => if r.linear then decide (m.committed er r < e.kvLen) else e.newLen != 0 && e.newLen != r.tokens

/-- The position limit of a linear entry is exceeded (R229). -/
def seqFull (r : RingEnt) (e : LenEnt) (n : Nat) : Bool := r.linear && (decide (16384 < e.kvLen + n) || decide (r.tokens < e.kvLen + n))

/-- Flags written back to an entry's byte 7 (R221). -/
structure Back where
  bad : Bool := false
  gap : Bool := false
  dup : Bool := false
  full : Bool := false
  empty : Bool := false
  nan : Bool := false
  deriving DecidableEq, Repr
def backByte (e : LenEnt) (b : Back) : Byte :=
  BitVec.ofNat 8 (e.flags % 2 + 2 * b2n b.bad + 4 * b2n b.gap + 8 * b2n b.dup + 16 * b2n b.full + 32 * b2n b.empty + 64 * b2n b.nan)

/-! ### Operands -/

/-- Bits and block scale of element `i` of head `h` of a packed row. -/
def Chip.rawElem (m : Chip) (er : ReadErrs) (d : AttDesc) (fmt heads row h i : Nat) : Nat × Nat :=
  (m.elemBits er (bentAddr d.bent row) (fmtBits fmt) (h * d.dim + i),
   if isMx fmt then ofLeBytes (m.readMem er (bentAddr d.bent (row + rowElemBytes fmt heads d.dim + (h * d.dim + i) / 32)) 1) else 0)

/-- An element as FP32 bits. -/
def valF32 (fmt : Nat) (b : Nat × Nat) : Nat :=
  if isMx fmt then toF32 (scaleElem b.2 (decElem fmt b.1)) (signOf fmt b.1) else toF32 (decElem fmt b.1) (signOf fmt b.1)

/-- The rotation of R230 of a head's elements at position `p`: elements 2i and 2i + 1 by an angle whose FP32 sine and cosine the
microcode level fixes, in FP32. -/
def AttDesc.rotate (d : AttDesc) (p : Nat) (x : Nat → Nat) (i : Nat) : Nat :=
  let (si, co) := Config.ropeSinCos Config.ucodeLevel d.ropeBase d.dim p (i / 2)
  let a := x (i / 2 * 2)
  let b := x (i / 2 * 2 + 1)
  if i % 2 = 0 then subF32 (mulF32 a (co % 2 ^ 32)) (mulF32 b (si % 2 ^ 32)) else addF32 (mulF32 a (si % 2 ^ 32)) (mulF32 b (co % 2 ^ 32))

/-- Element `i` of head `h` of a packed row: bits and block scale, rotated at position `p` where rope is set (R230) and then rounded once
into its format, MX blocks under the ceiling `ceil`.
(Log: 78 DESIGN CHOICE.) -/
def Chip.rowElem (m : Chip) (er : ReadErrs) (d : AttDesc) (fmt ceil heads row h i : Nat) (pos : Option Nat) : Nat × Nat :=
  match pos with
  | none => m.rawElem er d fmt heads row h i
  | some p =>
    let rot := d.rotate p fun k => valF32 fmt (m.rawElem er d fmt heads row h k)
    if isMx fmt then
      let (sc, ws) := mxBlock fmt ceil ((upTo 32).map fun k => rot (i / 32 * 32 + k))
      ((ws.getD (i % 32) { bits := 0 }).bits, sc)
    else ((encElem fmt false (f32 (rot i))).bits, 0)

/-- Element `i` of head `h` at token `t` of a slot; `part` is the offset of keys or values. -/
def Chip.slotElem (m : Chip) (er : ReadErrs) (r : RingEnt) (slot part h t i : Nat) : Nat × Nat :=
  let k := (h * r.tokens + t) * r.dim + i
  (m.elemBits er (hbmAddr (slot + part)) (fmtBits r.fmt) k,
   if isMx r.fmt then ofLeBytes (m.readMem er (hbmAddr (slot + part + r.kB + k / 32)) 1) else 0)

/-! ### Visible keys (R225, R231) -/

/-- A key: its slot, token and strip distance. -/
structure KeyAt where
  slot : Nat
  tok : Nat
  dist : Nat
  deriving DecidableEq, Repr

/-- The strips of a ring's window that contribute, oldest first, and the number of gaps.
(Log: 79 DEDUCED.) -/
def Chip.windowSlots (m : Chip) (er : ReadErrs) (d : AttDesc) (r : RingEnt) (s : Nat) : List Nat × Nat :=
  let all := (upTo d.window).reverse.filterMap fun k => if k ≤ s then some (s - k) else none
  let ok (x : Nat) : Bool := let h := m.slotHead er (r.slotOf x); h.state == 2 && h.strip == x
  (all.filter ok, (all.filter fun x => !ok x).length)

/-- The keys that query row `u` of an entry sees, in ascending position order.
(Log: 79 DEDUCED.) -/
def Chip.keysOf (m : Chip) (er : ReadErrs) (d : AttDesc) (r : RingEnt) (e : LenEnt) (u : Nat) : List KeyAt :=
  if r.linear then
    let n := min (m.committed er r) (e.kvLen + e.qLen)
    (upTo n).filterMap fun t => if d.mask = 1 ∧ e.kvLen + u < t then none else some { slot := r.base, tok := t, dist := 0 }
  else
    (m.windowSlots er d r e.key).1.flatMap fun x => (upTo r.tokens).filterMap fun t =>
      let a := r.slotOf x
      if m.presentBit er a t && !(d.mask == 3 && x == e.key && decide (u < t)) then some { slot := a, tok := t, dist := e.key - x }
      else none

/-! ### The computation (R231, R232) -/

/-- The dot product of a query row's head and a key, scaled, in FP32. -/
def dotScaled (d : AttDesc) (q k : List (Nat × Nat)) : Nat :=
  let fam := familyOf d.fmtKv
  let a := reduce fam (d.maxQ + d.maxKv) d.fmtQ d.fmtKv ((chunks 32 (q.zip k)).map fun b =>
    { els := b.map fun p => (p.1.1, p.2.1), xa := (b.map fun p => p.1.2).headD 0, xb := (b.map fun p => p.2.2).headD 0 })
  if fam = .fp then mulF32 a.v.toNat d.scaleQk
  else toF32 (elemMul (a.elem fam (d.maxQ + d.maxKv)) (f32 d.scaleQk))

/-- A head's output row of `d` elements from its visible keys' scores and values: FP32 bits, none where a score is NaN or
infinite. -/
def attendHead (dim : Nat) (scores : List Nat) (value : Nat → Nat → Nat) : Option (List Nat) :=
  let fin (x : Nat) : Bool := match f32 x with | .num _ => true | _ => false
  if !scores.all fin then none
  else
    let mx := scores.tail.foldl maxF32 (scores.headD 0)
    let ps := scores.map fun s => widen 0x10 (encElem 0x10 false (f32 (vecElem .exp (subF32 s mx) 0 0))).bits
    let n := treeDepth ps.length
    let l := treeSum n ps
    some ((upTo dim).map fun i => divF32 (treeSum n (ps.zipIdx.map fun p => mulF32 p.1 (value p.2 i))) l)

/-- A query row's output: FP32 bits, NaN where R232 gives it, +0 without a visible key; whether the row is empty. -/
def Chip.attendRow (m : Chip) (er : ReadErrs) (d : AttDesc) (r : RingEnt) (e : LenEnt) (row u : Nat) : List Nat × Bool :=
  let keys := m.keysOf er d r e u
  if keys.isEmpty then (List.replicate (d.headsQ * d.dim) 0, true)
  else
    ((upTo d.headsQ).flatMap fun h =>
      let hk := h * d.headsKv / max 1 d.headsQ
      let q := (upTo d.dim).map fun i => m.rowElem er d d.fmtQ d.maxQ d.headsQ row h i (if d.rope then some (e.kvLen + u) else none)
      let score (k : KeyAt) : Nat :=
        let s := dotScaled d q ((upTo d.dim).map fun i => m.slotElem er r k.slot 0x100 hk k.tok i)
        if 2 ≤ d.mask then
          addF32 s (m.elemBits er (bentAddr d.bent d.addrAux) 32 (h * d.window + k.dist)) else s
      let value (j i : Nat) : Nat := match keys[j]? with
        | some k => valF32 r.fmt (m.slotElem er r k.slot r.vOff hk k.tok i)
        | none => 0
      (attendHead d.dim (keys.map score) value).getD (List.replicate d.dim (canonNan fp32)), false)

/-- A row of FP32 results converted to fmt_out: scales and elements (R231, R232). -/
def attOut (d : AttDesc) (l : List Nat) : List Nat × List Written :=
  if isMx d.fmtOut then mxQuantise d.fmtOut d.maxOut l else ([], l.map fun x => encElem d.fmtOut false (f32 x))

/-- What an entry of an ATTEND leaves: its output lines, its flags, its rows, gaps and empty rows. -/
structure EntryOut where
  lines : List OutLine := []
  back : Back := {}
  rows : Nat := 0
  gaps : Nat := 0
  empties : Nat := 0
  deriving DecidableEq, Repr

/-- The rows of entries before entry `i`. -/
def rowsBefore (es : List LenEnt) (f : LenEnt → Nat) (i : Nat) : Nat := ((es.take i).map f).foldl (· + ·) 0

def Chip.attendEntry (m : Chip) (er : ReadErrs) (d : AttDesc) (part : MarkPart) (es : List LenEnt) (i : Nat) (e : LenEnt) : EntryOut :=
  let first := rowsBefore es (·.qLen) i
  let outB := rowBytes d.fmtOut d.headsQ d.dim
  let mk (u : Nat) (w : List Nat × List Written) : OutLine :=
    let a := bentAddr d.bent (d.addrOut + (first + u) * outB)
    { addr := a, scaleAddr := a + rowElemBytes d.fmtOut d.headsQ d.dim, scales := w.1, elems := w.2,
      idx := (upTo w.2.length).map fun j => part.base + (first + u) * part.lineStep + j * part.pixStep }
  let zeros := (upTo e.qLen).map fun u => mk u (attOut d (List.replicate (d.headsQ * d.dim) 0))
  if e.qLen = 0 then {}
  else if m.entryBad er d e then { lines := zeros, back := { bad := true } }
  else match m.target d e with
    | none => { lines := zeros, back := { bad := true } }
    | some r =>
      if seqFull r e e.qLen then { lines := zeros, back := { full := true } }
      else
        let inB := rowBytes d.fmtQ d.headsQ d.dim
        let rs := (upTo e.qLen).map fun u => m.attendRow er d r e (d.addrQ + (first + u) * inB) u
        let ls := rs.zipIdx.map fun p => mk p.2 (attOut d p.1.1)
        let gaps := if r.linear then 0 else (m.windowSlots er d r e.key).2
        let empties := (rs.filter (·.2)).length
        { lines := ls, rows := e.qLen, gaps, empties,
          back := { gap := decide (0 < gaps), empty := decide (0 < empties), nan := ls.any fun l => l.elems.any (·.nan) } }

def Chip.lenTab (m : Chip) (er : ReadErrs) (d : AttDesc) : List LenEnt := (upTo d.nSeq).map (m.lenEnt er d)

/-- Sticky flags of the engine from an entry's flags (R235). -/
def Chip.attFlags (b : Back) (m : Chip) : Chip :=
  (((((m.setFlagIf b.bad F.ATT_STAT_bad_entry).setFlagIf b.gap F.ATT_STAT_gap).setFlagIf b.dup F.ATT_STAT_dup).setFlagIf b.full
    F.ATT_STAT_seq_full).setFlagIf b.empty F.ATT_STAT_empty).setFlagIf b.nan F.ATT_STAT_nan_out

/-- Write the flags of entries back. -/
def backWrites (d : AttDesc) (es : List LenEnt) (bs : List Back) : List (Nat × List Byte) :=
  (es.zip bs).zipIdx.map fun p => (bentAddr d.bent (d.addrLen + 16 * p.2 + 7), [backByte p.1.1 p.1.2])

/-- The bytes of SRAM that a command of the engine reads: the length table; an ATTEND the query rows and the distance bias, an APPEND the
new rows and the void bytes. -/
def Chip.attReads (m : Chip) (d : AttDesc) : Reads :=
  let es := (upTo d.nSeq).map (m.lenEnt {} d)
  let run (f : LenEnt → Nat) : Nat := rowsBefore es f es.length
  (bentAddr d.bent d.addrLen, 16 * d.nSeq) ::
    (if d.op = 2 then
      (bentAddr d.bent d.addrAux, 2 * run (·.newLen) * rowBytes d.fmtKv d.headsKv d.dim) ::
        (if d.addrVoid = 0xFFFFFFFF then [] else [(bentAddr d.bent d.addrVoid, run (·.newLen))])
    else
      (bentAddr d.bent d.addrQ, run (·.qLen) * rowBytes d.fmtQ d.headsQ d.dim) ::
        (if 2 ≤ d.mask then [(bentAddr d.bent d.addrAux, 4 * d.headsQ * d.window)] else []))

/-- What an ATTEND computes and counts. -/
def attendWork (c : CutEntry) (pl : CmdPlan) (m0 : Chip) : Running × Chip :=
  let d := m0.attDesc c.descPtr
  let m := m0.meetErrs .attention c (m0.attReads d) pl.errs
  let es := m.lenTab pl.errs d
  let os := es.zipIdx.map fun p => m.attendEntry pl.errs d pl.part es p.2 p.1
  let run := outRunning "ATTEND" d.fmtOut d.layer pl.part.row (os.flatMap (·.lines))
  let gapRings := (es.zip os).filterMap fun p => if 0 < p.2.gaps then some p.1.target else none
  let tot (f : EntryOut → Nat) : Nat := (os.map f).foldl (· + ·) 0
  let m1 := forAll os (fun o m => m.attFlags o.back) m
  let m2 := (((m1.bumpBy R.ATT_CNT_ROWS (tot (·.rows))).bumpBy R.ATT_CNT_GAP (tot (·.gaps))).bumpBy R.ATT_CNT_EMPTY
    (tot (·.empties))).bumpBy R.ATT_CNT_BAD (os.filter fun o => o.back.bad).length
  let m3 := m2.bumpBy R.ATT_CNT_FULL (os.filter fun o => o.back.full).length
  ({ run with writes := run.writes ++ backWrites d es (os.map (·.back)), item := d.bent },
    forAll gapRings (fun r m => if r < Config.rings then m.setFlag (F.ATT_RING_STAT_gap r) else m) m3)

/-- ATTEND (R221, R225, R231, R232). -/
def attend (dt : Nat) (c : CutEntry) (pl : CmdPlan) (m0 : Chip) : Chip :=
  let m := elapse dt m0
  if (m.attDesc c.descPtr).op ≠ 1 then m else startCmd 0 .attention c (attendWork c pl) m

/-! ### APPEND (R227, R229) -/

/-- What an entry of an APPEND leaves: header bytes written at once, the rest at completion, flags, the (ring, strip). -/
structure AppendOut where
  now : List (Nat × List Byte) := []
  later : List (Nat × List Byte) := []
  back : Back := {}
  ring : Option (Nat × Nat) := none
  count : Nat := 0
  deriving DecidableEq, Repr

/-- The writes that put new rows `n` of a packed K or V array into a slot, at tokens from `t0`, leaving out the first `skip`. -/
def Chip.kvWrites (m : Chip) (er : ReadErrs) (d : AttDesc) (r : RingEnt) (slot part rows t0 skip n : Nat) (rope : Bool) :
    List (Nat × List Byte) :=
  let rb := rowBytes r.fmt r.heads r.dim
  ((upTo n).filter fun u => decide (skip ≤ u)).flatMap fun u => (upTo r.heads).flatMap fun h =>
    let es := (upTo r.dim).map fun i => m.rowElem er d r.fmt r.maxScale r.heads (rows + u * rb) h i (if rope then some (t0 + u) else none)
    let k := (h * r.tokens + (t0 + u)) * r.dim
    (hbmAddr (slot + part + k * eBytes r.fmt), packBits (fmtBits r.fmt) (es.map (·.1))) ::
      (if isMx r.fmt then [(hbmAddr (slot + part + r.kB + k / 32), (chunks 32 es).map fun b => BitVec.ofNat 8 (b.headD (0, 0)).2)]
       else [])

/-- Zero bytes that pad the parts of a slot (R224). -/
def padWrites (r : RingEnt) (slot : Nat) : List (Nat × List Byte) :=
  let part (o used size : Nat) : Nat × List Byte := (hbmAddr (slot + o + used), List.replicate (size - used) 0)
  let k := r.heads * r.tokens * r.dim * eBytes r.fmt
  let s := if isMx r.fmt then r.heads * r.tokens * r.dim / 32 else 0
  [part 0x100 k r.kB, part (0x100 + r.kB) s r.sB, part r.vOff k r.kB, part (r.vOff + r.kB) s r.sB]

/-- The present bitmap of new rows: bit t clear where token t is void. -/
def Chip.presentBytes (m : Chip) (er : ReadErrs) (d : AttDesc) (first n : Nat) : List Byte :=
  let void (t : Nat) : Bool := d.addrVoid != 0xFFFFFFFF && m.readMem er (bentAddr d.bent (d.addrVoid + first + t)) 1 != [0]
  leBytes 128 (((upTo n).map fun t => if void t then 0 else 2 ^ t).foldl (· + ·) 0)

/-- Log: 78 DESIGN CHOICE. -/
def Chip.appendEntry (m : Chip) (er : ReadErrs) (d : AttDesc) (closeBay : Nat) (es : List LenEnt) (i : Nat) (e : LenEnt) : AppendOut :=
  if e.newLen = 0 then {}
  else match m.entryBad er d e, m.target d e with
    | false, some r =>
      let rb := rowBytes r.fmt r.heads r.dim
      let first := rowsBefore es (·.newLen) i
      let total := rowsBefore es (·.newLen) es.length
      let kRows := d.addrAux + first * rb
      let vRows := d.addrAux + (total + first) * rb
      if seqFull r e e.newLen then { back := { full := true }, count := 1 }
      else if r.linear then
        let c := m.committed er r
        let skip := c - e.kvLen
        if e.newLen ≤ skip then { back := { dup := true }, count := 1 }
        else
          { later := m.kvWrites er d r r.base 0x100 kRows e.kvLen skip e.newLen d.rope ++
              m.kvWrites er d r r.base r.vOff vRows e.kvLen skip e.newLen false ++ padWrites r r.base ++ [(hbmAddr r.base, leBytes 8 (e.kvLen + e.newLen))],
            back := { dup := decide (0 < skip) } }
      else
        let slot := r.slotOf e.key
        let h := m.slotHead er slot
        if h.state = 2 ∧ h.strip = e.key then { back := { dup := true }, count := 1, ring := none }
        else
          { now := [(hbmAddr slot, leBytes 8 e.key ++ leBytes 8 closeBay ++ leBytes 2 r.tokens ++ leBytes 2 1 ++ leBytes 12 0)],
            later := m.kvWrites er d r slot 0x100 kRows 0 0 e.newLen false ++ m.kvWrites er d r slot r.vOff vRows 0 0 e.newLen false ++
              padWrites r slot ++ [(hbmAddr (slot + 0x20), m.presentBytes er d first e.newLen), (hbmAddr (slot + 0x12), leBytes 2 2)],
            ring := some (r.ring, e.key) }
    | _, _ => { back := { bad := true } }

/-- The entries of an APPEND, each judged with the writes of those before it in place (R227, R229). -/
def Chip.appendAll (m : Chip) (er : ReadErrs) (d : AttDesc) (closeBay : Nat) (es : List LenEnt) : List AppendOut :=
  (es.zipIdx.foldl (fun (a : Chip × List AppendOut) p =>
    let o := a.1.appendEntry er d closeBay es p.2 p.1
    (forAll (o.now ++ o.later) (fun w m => m.putBytes w.1 w.2) a.1, a.2 ++ [o])) (m, [])).2

/-- What an APPEND computes and counts.
(Log: 79 DEDUCED.) -/
def appendWork (c : CutEntry) (er : ReadErrs) (m0 : Chip) : Running × Chip :=
  let d := m0.attDesc c.descPtr
  let m := m0.meetErrs .attention c (m0.attReads d) er
  let es := m.lenTab er d
  let os := m.appendAll er d (m.closeOf .attention c) es
  let m1 := forAll os (fun o m => m.attFlags o.back) m
  let m2 := ((m1.bumpBy R.ATT_CNT_DUP (os.filter fun o => o.back.dup && o.count == 1).length).bumpBy R.ATT_CNT_FULL
    (os.filter fun o => o.back.full).length).bumpBy R.ATT_CNT_BAD (os.filter fun o => o.back.bad).length
  let dups := (es.zip os).filterMap fun p => match m.target d p.1 with
    | some r => if p.2.back.dup && !r.linear then some p.1.target else none
    | none => none
  let m3 := forAll dups (fun r m => if r < Config.rings then m.setFlag (F.ATT_RING_STAT_dup r) else m) m2
  ({ blankRunning with op := "APPEND", item := d.bent, rings := os.filterMap (·.ring),
                       writes := os.flatMap (·.later) ++ backWrites d es (os.map (·.back)) },
    forAll (os.flatMap (·.now)) (fun w m => m.putBytes w.1 w.2) m3)

/-! ### The length tables of stream jobs (R221) -/

/-- The camera row of a master link. -/
def Chip.rowOfCamera (m : Chip) (master : Nat) : Option Nat := (m.stick.cameras.find? fun c => c.master == master).map (·.row)

/-- The entries that the Ridge control block writes into a stream command's length table for a close bay: for each ring of the table in
turn one for each batch slot of its camera's row, with T_s rows and the strip in the slot, or empty. -/
def Chip.streamTable (m : Chip) (d : AttDesc) (closeBay : Nat) : List (List Byte) :=
  (m.ringTab d.addrTab).flatMap fun r =>
    match m.rowOfCamera r.camera with
    | none => []
    | some row =>
      let strips := (m.fire.closed.filter fun c => c.closeBay == closeBay && c.row == row && c.slot.isSome && !c.beyond).map (·.strip)
      (upTo (max 1 (((m.stick.rows.find? fun x => x.row == row).map (·.slots)).getD 1))).map fun i =>
        let n := if i < strips.length then r.tokens else 0
        leBytes 2 n ++ leBytes 2 n ++ leBytes 2 0 ++ leBytes 1 r.ring ++ leBytes 1 1 ++ leBytes 8 (strips.getD i 0 % 2 ^ 48)

/-- At boundary `b` the tables of the new bay's stream commands are written. -/
def Chip.streamTables (b : Nat) (m : Chip) : Chip :=
  forAll (m.fgList .attention b) (fun c m =>
    let d := m.attDesc c.descPtr
    if (m.ringTab d.addrTab).all (·.linear) then m
    else m.putBytes (bentAddr d.bent d.addrLen) ((m.streamTable d (b - c.stageOffset)).take d.nSeq).flatten) m

/-- APPEND (R227, R229): the headers of ring slots take state 1 at once, the rest stands from completion on, so that a stopped
APPEND leaves its slots at state 1. -/
def append (dt : Nat) (c : CutEntry) (er : ReadErrs) (m0 : Chip) : Chip :=
  let m := elapse dt m0
  if (m.attDesc c.descPtr).op ≠ 2 then m else startCmd 0 .attention c (appendWork c er) m

/-! ### The meanings of the commands -/

/-- ATTEND (R231). -/
def execAttend (dt : Nat) (c : CutEntry) (pl : CmdPlan) (s : State) : Answer :=
  onUnit true dt (attend dt c pl) s
/-- APPEND (R227). -/
def execAppend (dt : Nat) (c : CutEntry) (er : ReadErrs) (s : State) : Answer :=
  onUnit true dt (append dt c er) s

end Sys2Proof.Machine
end

