-- ==== Sys2Proof/Machine/Pixel.lean ====
section
/-!
DEFINITION. Sys2Proof/Machine/Pixel.lean: the stages of the line pipeline on one line (R92 to R109): exact integer arithmetic
with the one rounding each stage states (R93).
-/
namespace Sys2Proof.Machine

/-! ### Flags (R95) -/

def flagVoid : Nat := 1
def flagDropped : Nat := 2
def flagSettling : Nat := 4
def flagDefect : Nat := 8
def flagClipped : Nat := 16
def flagBlended : Nat := 32
def flagSubstituted : Nat := 64
def flagReplay : Nat := 128

/-- OR of flag bytes. -/
def orF (a b : Nat) : Nat := a ||| b
def isVoid (p : Pix) : Bool := bitN p.f 0
/-- A void pixel of `planes` planes: 0 in every plane. -/
def voidPix (planes f : Nat) : Pix := { f := orF f flagVoid, v := List.replicate planes 0 }

/-- Pixel `j` of a line; void outside it. -/
def pixAt (planes : Nat) (l : List Pix) (j : Int) : Pix :=
  if j < 0 then voidPix planes 0 else (l[j.toNat]?).getD (voidPix planes 0)
def planeAt (p : Pix) (i : Nat) : Nat := p.v.getD i 0

/-! ### Stage 1: input conversion (R94) -/

/-- A b-bit sample as a 16-bit value. -/
def convSample (b x : Nat) : Nat := x % 2 ^ b * 2 ^ (16 - b)

/-- The pixels of a line of `w` columns; the columns its samples do not reach are void. -/
def chunkPix (planes b f : Nat) : Nat → List Nat → List Pix
  | 0, _ => []
  | w + 1, l =>
    (if l.length < planes then voidPix planes f else { f, v := (l.take planes).map (convSample b) }) ::
      chunkPix planes b f w (l.drop planes)

/-- A received line; `none` is a void line. -/
def inputLine (w planes : Nat) (x : InLine) : List Pix :=
  let f := if x.replay then flagReplay else 0
  match x.samples with
  | some l => chunkPix planes x.bits f w l
  | none => List.replicate w (voidPix planes (if x.dropped then orF f flagDropped else f))

/-- Every pixel of a line is void. -/
def lineVoid (l : List Pix) : Bool := l.all isVoid

/-! ### Stage 2: noise reduction (R96, R97) -/

/-- The method of plane `p` at column `j` of a defect list; none where the column is good (R100). -/
def defectOf (d : List (Nat × Nat × Nat)) (j : Int) (p : Nat) : Option Nat :=
  (d.find? fun e => decide ((e.1 : Int) = j) && bitN e.2.1 p).map (·.2.2)

/-- A tap is used: inside the line, not void, not defective in the plane (R96). -/
def tapGood (c : CalRec) (l : List Pix) (p : Nat) (k : Int) : Bool :=
  decide (0 ≤ k) && decide (k < l.length) && !isVoid (pixAt c.planes l k) && (defectOf c.defects k p).isNone

/-- Tap `k` of column `j`: itself, else its mirror, else the centre (R96). -/
def tapOf (c : CalRec) (l : List Pix) (p : Nat) (j k : Int) : Nat :=
  if tapGood c l p k then planeAt (pixAt c.planes l k) p
  else if tapGood c l p (2 * j - k) then planeAt (pixAt c.planes l (2 * j - k)) p
  else planeAt (pixAt c.planes l j) p

/-- The 5-tap kernel at a column and plane (R96). -/
def spatialAt (c : CalRec) (l : List Pix) (p : Nat) (j : Int) : Nat :=
  let t (k : Int) : Nat := tapOf c l p j k
  let c0 : Nat := 256 - 2 * c.c1 - 2 * c.c2
  (rneDiv (c.c2 * (t (j - 2) + t (j + 2)) + c.c1 * (t (j - 1) + t (j + 1)) + c0 * planeAt (pixAt c.planes l j) p : Nat) 256).toNat

def spatialLine (c : CalRec) (l : List Pix) : List Pix :=
  l.zipIdx.map fun (x, j) => if isVoid x then x else { x with v := (upTo c.planes).map fun p => spatialAt c l p j }

/-- 65,536 / k as R97 tabulates it. -/
def recip (k : Nat) : Nat := [0, 65536, 32768, 21845, 16384, 13107, 10923, 9362, 8192].getD k 8192

/-- The state of one sample after line `n` (R97).
(Log: 57 DEDUCED.) -/
def temporalState (n nCfg x s : Nat) : Nat :=
  if n = 1 then x * 256
  else ((s : Int) + rneDiv ((((x * 256 : Nat) : Int) - s) * recip (min n nCfg)) 65536).toNat

/-- One pixel through the temporal filter: its output and its new states. The settling flag is the line's (R95): a void column of a
settling line carries it too. -/
def temporalPix (n nCfg : Nat) (settle : Bool) (x : Pix) (s : List Nat) : Pix × List Nat :=
  let f := if settle then orF x.f flagSettling else x.f
  if isVoid x then ({ x with f }, s)
  else
    let s1 : List Nat := x.v.zipIdx.map fun (v, p) => temporalState n nCfg v (s.getD p 0)
    ({ f, v := s1.map fun (t : Nat) => (rneDiv (t : Int) 256).toNat }, s1)

/-- A line through the temporal filter (R97, R98). A void line leaves the states and the counter. -/
def temporalLine (nCfg n : Nat) (s : List (List Nat)) (l : List Pix) : List Pix × List (List Nat) × Nat :=
  if lineVoid l then (l, s, n)
  else
    let n1 := min (n + 1) 8
    let settle := decide (2 ≤ nCfg) && decide (n < nCfg)
    let r := l.zipIdx.map fun (x, j) => temporalPix n1 nCfg settle x (s.getD j [])
    (r.map (·.1), r.map (·.2), n1)

/-! ### Stage 3: defective pixels (R100) -/

/-- The distance from column `j` to the nearest good column in direction `d`, none at the edge of the line.
(Log: 58 DEDUCED.) -/
def goodDist (c : CalRec) (w : Nat) (p : Nat) (j : Int) (d : Int) : Nat → Nat → Option Nat
  | 0, _ => none
  | fuel + 1, i =>
    let k := j + d * i
    if k < 0 ∨ (w : Int) ≤ k then none
    else if (defectOf c.defects k p).isNone then some i
    else goodDist c w p j d fuel (i + 1)

/-- The replacement of a defective sample: its value, none where a neighbour it needs is void, and the flags of the
neighbours it uses.
(Log: 58 DEDUCED.) -/
def replaceAt (c : CalRec) (l : List Pix) (p : Nat) (j : Int) (method : Nat) : Option Nat × Nat :=
  let w := l.length
  let at_ (k : Int) : Pix := pixAt c.planes l k
  match goodDist c w p j (-1) 6 1, goodDist c w p j 1 6 1 with
  | some a, some b =>
    let L := at_ (j - a)
    let R := at_ (j + b)
    if isVoid L || isVoid R then (none, orF L.f R.f)
    else match method with
      | 1 => (some (planeAt L p), L.f)
      | 2 => (some (planeAt R p), R.f)
      | _ =>
        let d : Int := (planeAt R p : Int) - planeAt L p
        (some (((planeAt L p : Int) + rneDiv (d * a) (a + b)).toNat), orF L.f R.f)
  | some a, none =>
    let L := at_ (j - a)
    (if isVoid L then none else some (planeAt L p), L.f)
  | none, some b =>
    let R := at_ (j + b)
    (if isVoid R then none else some (planeAt R p), R.f)
  | none, none => (none, 0)

/-- Defective-pixel replacement of a line. A void pixel stays void.
(Log: 58 DEDUCED.) -/
def defectLine (c : CalRec) (l : List Pix) : List Pix :=
  l.zipIdx.map fun (x, j) =>
    let hit := (upTo c.planes).filter fun p => (defectOf c.defects j p).isSome
    if hit.isEmpty then x
    else
      let r := (upTo c.planes).map fun p => match defectOf c.defects j p with
        | some meth => replaceAt c l p j meth
        | none => (some (planeAt x p), 0)
      let f := orF (r.foldl (fun a q => orF a q.2) x.f) flagDefect
      if isVoid x || r.any (·.1.isNone) then voidPix c.planes f
      else { f, v := r.map fun q => q.1.getD 0 }

/-! ### Stage 4: flat field (R101) -/

/-- Clamp a computed value to 16 bits, with whether it was clipped above. -/
def clip16 (v : Int) : Nat × Bool := ((clampI 0 65535 v).toNat, decide (65535 < v))

def flatLine (c : CalRec) (l : List Pix) : List Pix :=
  l.zipIdx.map fun (x, j) =>
    if isVoid x then x
    else
      let r := x.v.zipIdx.map fun (v, p) =>
        clip16 (rneDiv (((v : Int) - c.dark.getD (j * c.planes + p) 0) * c.gain.getD (j * c.planes + p) 16384) 16384)
      { f := if r.any (·.2) then orF x.f flagClipped else x.f, v := r.map (·.1) }

/-! ### Stage 5: alignment and colour matrix (R102, R104) -/

/-- The input lines that output line i uses, as offsets: with each plane's lead its fraction's second line. -/
def leadSpan (c : CalRec) : Nat :=
  (upTo c.planes).foldl (fun a p => max a (c.lead.getD p 0)) 0 + (if (upTo c.planes).any fun p => decide (0 < c.frac.getD p 0) then 1 else 0)

/-- The offsets plane `p` uses. -/
def leadOffs (c : CalRec) (p : Nat) : List Nat :=
  let a := c.lead.getD p 0
  if 0 < c.frac.getD p 0 then [a, a + 1] else [a]

/-- The aligned pixel at a column, from the pixels at each offset. -/
def alignPix (c : CalRec) (at_ : Nat → Pix) : Pix :=
  let used := (upTo c.planes).flatMap (leadOffs c)
  let f := used.foldl (fun a o => orF a (at_ o).f) 0
  if used.any fun o => isVoid (at_ o) then voidPix c.planes f
  else
    { f, v := (upTo c.planes).map fun p =>
        let a := c.lead.getD p 0
        let q := c.frac.getD p 0
        if q = 0 then planeAt (at_ a) p
        else (rneDiv ((256 - q) * planeAt (at_ a) p + q * planeAt (at_ (a + 1)) p : Nat) 256).toNat }

/-- The coefficient of M for output plane `o` and input plane `i`; identity where the record gives none.
(Log: 57 DEDUCED.) -/
def matAt (c : CalRec) (o i : Nat) : Int := if c.matrix.isEmpty then (if o = i then 4096 else 0) else c.matrix.getD (4 * o + i) 0

/-- The colour matrix of R104. -/
def matrixPix (c : CalRec) (x : Pix) : Pix :=
  if isVoid x then x
  else
    let r := (upTo c.planes).map fun o =>
      clip16 (rneDiv ((upTo c.planes).foldl (fun a i => a + matAt c o i * planeAt x i) 0) 4096 + c.offset.getD o 0)
    { f := if r.any (·.2) then orF x.f flagClipped else x.f, v := r.map (·.1) }

/-! ### Stage 6: stitching (R106, R107) -/

/-- The blend of R106 at column `j` of a blend zone of length `n`. -/
def blendPix (n j : Nat) (a b : Pix) : Pix :=
  let w := 128 * (2 * n - 2 * j - 1) / n
  { f := orF (orF a.f b.f) flagBlended,
    v := (a.v.zip b.v).map fun (x, y) => (rneDiv (w * x + (256 - w) * y : Nat) 256).toNat }

/-- The pixel of an overlap column: `a` of the left camera, `b` of the right, seam `xs`, blend length `n` (R106, R107). -/
def overlapPix (planes : Nat) (xs : Int) (n : Nat) (x : Int) (a b : Pix) : Pix :=
  let subst (p : Pix) : Pix := { p with f := orF p.f flagSubstituted }
  let h : Int := n / 2
  if isVoid a && isVoid b then voidPix planes (orF a.f b.f)
  else if x < xs - h then (if isVoid a then subst b else a)
  else if xs + h ≤ x ∨ n = 0 then (if isVoid b then subst a else b)
  else if isVoid a then subst b
  else if isVoid b then subst a
  else blendPix n (x - (xs - h)).toNat a b

/-! ### Stage 7: pyramid and output (R108, R109) -/

/-- The 2 × 2 block of R108. -/
def quadPix (planes : Nat) (a b c d : Pix) : Pix :=
  let f := orF (orF a.f b.f) (orF c.f d.f)
  if isVoid a || isVoid b || isVoid c || isVoid d then voidPix planes f
  else { f, v := (upTo planes).map fun p => (planeAt a p + planeAt b p + planeAt c p + planeAt d p + 2) / 4 }

/-- A line of the next level from two lines. -/
def halveLines (planes : Nat) (u v : List Pix) : List Pix :=
  (upTo (u.length / 2)).map fun (x : Nat) =>
    let p (l : List Pix) (i : Nat) : Pix := pixAt planes l i
    quadPix planes (p u (2 * x)) (p u (2 * x + 1)) (p v (2 * x)) (p v (2 * x + 1))

/-- The stored bytes of a sample: U16, or U8 as min(255, rne(v / 256)). -/
def storeSample (u16 : Bool) (v : Nat) : List Byte :=
  if u16 then leBytes 2 v else [BitVec.ofNat 8 (min 255 (rneDiv (v : Int) 256).toNat)]

/-- The stored bytes of a line: the samples pixel by pixel, the planes of a pixel adjacent. -/
def storeLine (u16 : Bool) (l : List Pix) : List Byte := l.flatMap fun x => x.v.flatMap (storeSample u16)
/-- The flag bytes of a line. -/
def storeFlags (l : List Pix) : List Byte := l.map fun x => BitVec.ofNat 8 x.f

/-! ### Calibration records (R120 to R122) -/

def bU (l : List Byte) (o n : Nat) : Nat := ofLeBytes ((l.drop o).take n)
def bS (l : List Byte) (o n : Nat) : Int := signedOf (8 * n) (bU l o n)

/-- The record a list of bytes spells. -/
def parseCal (l : List Byte) : CalRec :=
  let w := bU l 4 2
  let p := bU l 6 1
  { id := bU l 0 4, width := w, planes := p, camera := bU l 7 1, c1 := bU l 0x16 1, c2 := bU l 0x17 1, tn := bU l 0x18 1,
    lead := (upTo 4).map fun i => bU l (0x1C + i) 1, frac := (upTo 4).map fun i => bU l (0x20 + i) 1,
    matrix := (upTo 16).map fun i => bS l (0x24 + 2 * i) 2, offset := (upTo 4).map fun i => bS l (0x44 + 4 * i) 4,
    x0 := bS l 0x54 4, trimL := bU l 0x58 2, trimR := bU l 0x5A 2, blend := bU l 0x5C 2,
    dark := (upTo (w * p)).map fun i => bU l (bU l 8 4 + 2 * i) 2,
    gain := (upTo (w * p)).map fun i => bU l (bU l 0xC 4 + 2 * i) 2,
    defects := (upTo (bU l 0x14 2)).map fun i =>
      let e := bU l (bU l 0x10 4 + 4 * i) 4
      (bitsN e 13 0, bitsN e 29 26, bitsN e 31 30) }

/-- No run of columns defective in one plane is longer than 4 (R100). -/
def runsOk (c : CalRec) : Bool :=
  (upTo c.planes).all fun p => c.defects.all fun e =>
    !((upTo 5).all fun i => (defectOf c.defects (e.1 + i) p).isSome)

/-- Columns rise; two entries of one column share no plane (R100, R122). -/
def defectsOrdered : List (Nat × Nat × Nat) → Bool
  | a :: b :: t => (decide (a.1 < b.1) || (a.1 == b.1 && (a.2.1 &&& b.2.1) == 0)) && defectsOrdered (b :: t)
  | _ => true

/-- Entries of one column share no plane, whatever lies between them. -/
def planesDisjoint : List (Nat × Nat × Nat) → Bool
  | [] => true
  | a :: t => t.all (fun b => a.1 != b.1 || (a.2.1 &&& b.2.1) == 0) && planesDisjoint t

/-- The checks of R122 on a record for a camera line of `w` columns and `p` planes. -/
def calOk (w p : Nat) (l : List Byte) : Bool :=
  let c := parseCal l
  let n := l.length
  let zero (o k : Nat) : Bool := ((l.drop o).take k).all (· == 0)
  decide (0x80 ≤ n) && c.width == w && c.planes == p &&
  decide (bU l 8 4 + 2 * w * p ≤ n) && decide (bU l 0xC 4 + 2 * w * p ≤ n) && decide (bU l 0x10 4 + 4 * bU l 0x14 2 ≤ n) &&
  decide (bU l 0x14 2 ≤ 1024) &&
  (upTo (bU l 0x14 2)).all (fun i =>
    let e := bU l (bU l 0x10 4 + 4 * i) 4
    bitsN e 31 30 != 3 && bitsN e 25 14 == 0 && decide (bitsN e 29 26 < 2 ^ p) && decide (bitsN e 13 0 < w)) &&
  defectsOrdered c.defects && planesDisjoint c.defects && runsOk c &&
  decide (c.c1 ≤ 128) && decide (c.c2 ≤ 128) && decide (c.c1 + c.c2 ≤ 128) && decide (1 ≤ c.tn) && decide (c.tn ≤ 8) &&
  (upTo p).all (fun i => decide (c.lead.getD i 0 ≤ 63) && (c.frac.getD i 0 == 0 || decide (c.lead.getD i 0 ≤ 62))) &&
  c.offset.all (fun k => decide (-65536 ≤ k) && decide (k ≤ 65535)) &&
  ([0, 16, 32, 64, 128, 256, 512, 1024].contains c.blend) &&
  zero 0x19 3 && zero 0x5E 34

end Sys2Proof.Machine
end

