-- ==== Sys2Proof/Machine/Pipeline.lean ====
section
/-!
DEFINITION. Sys2Proof/Machine/Pipeline.lean: the line pipelines (R92 to R129): lines through the stages, stitching, strips
and their slots, capture and snapshot records (R262, R263), synchronising resets, routes and calibration banks.
-/
namespace Sys2Proof.Machine

def align64 (n : Nat) : Nat := (n + 63) / 64 * 64

/-! ### Gangs (R115, R126) -/

/-- Do something on every pipeline of a gang. -/
def Chip.onGang (g : Gang) (f : Nat → Chip → Chip) (m : Chip) : Chip := forAll ((upTo g.links).map fun i => g.master + i) f m
/-- Set a sticky flag of LP_STAT for the whole gang. -/
def Chip.lpFlag (g : Gang) (f : Nat → Fld) (m : Chip) : Chip := m.onGang g fun n m => m.setFlag (f n)

/-- LP_STAT.state of a gang (R126). -/
def Chip.showPipe (g : Gang) (m : Chip) : Chip :=
  let p := m.pipe g.master
  let pending := m.get (F.LP_CTRL_src_sel g.master) != p.route ||
    (p.route == 1 && m.get (F.LP_CTRL_replay_ch g.master) != p.channel)
  let st := if pending then 5 else match p.route with | 0 => 1 | 1 => 2 | 2 => 3 | _ => 4
  m.onGang g fun n m => m.put (F.LP_STAT_state n) st

/-- A synchronising reset (R99): the temporal filter restarts at the next line; two on one line act as one. -/
def Chip.syncReset (g : Gang) (m : Chip) : Chip :=
  let p := m.pipe g.master
  if p.resetDue then m
  else ((m.setPipe g.master { p with resetDue := true }).bump (R.LP_CNT_SYNC g.master)).lpFlag g F.LP_STAT_settling

/-! ### Capture records (R262 to R264) -/

/-- Bytes per raw sample. -/
def sampleBytes (bits : Nat) : Nat := if bits ≤ 8 then 1 else 2
/-- The stride of a camera's line records (R262). -/
def lineStride (c : CameraRec) : Nat := 64 + align64 (c.width * c.planes * sampleBytes c.bits)
/-- The stride of a camera's snapshot records (R263). -/
def snapStride (c : CameraRec) : Nat := align64 (64 + 4 * c.width * c.planes)

/-- The next record's address in a ring, none where the camera has no ring. -/
def Chip.ringAddr (m : Chip) (kind master stride n : Nat) : Option Nat :=
  match m.region kind master with
  | some r => if 0 < stride ∧ stride ≤ r.len then some (cmAddr (r.base + stride * (n % (r.len / stride)))) else none
  | none => none

/-- Write a camera's line record (R262): the raw line as ingest accepted it, or a void line without payload. -/
def Chip.writeLineRec (c : CameraRec) (x : InLine) (m : Chip) : Chip :=
  let st := m.cam c.master
  match m.ringAddr 0 c.master (lineStride c) st.lineRec with
  | none => m
  | some a =>
    let e := sampleBytes c.bits
    let payload := match x.samples with
      | some l => (l ++ List.replicate (c.width * c.planes - l.length) 0).flatMap (leBytes e)
      | none => []
    let flags := if x.samples.isSome then 0 else 1 + 2 * b2n x.dropped
    let p := m.pipe c.master
    let calId := (((if p.bankB then p.calB else p.calA).map (·.id))).getD 0
    let hdr := leBytes 8 x.idx ++ leBytes 6 (unsignedOf 48 x.count) ++ leBytes 2 flags ++ leBytes 8 x.tb3 ++ leBytes 4 calId ++
      leBytes 4 payload.length ++ leBytes 8 (m.get F.CM_KEY_key_epoch) ++ List.replicate 24 0
    ((m.putBytes a (hdr ++ payload)).setCam c.master { st with lineRec := st.lineRec + 1, lastIdx := some x.idx }).feed c.row a (hdr ++ payload)

/-- Write the snapshot of a camera at the start of a strip (R263): the counter as the strip's first line will find it.
(Log: 59 DEDUCED.) -/
def Chip.writeSnapshot (g : Gang) (strip : Nat) (m : Chip) : Chip :=
  match m.camOf g.master with
  | none => m
  | some c =>
    let p := m.pipe g.master
    match m.ringAddr 1 c.master (snapStride c) p.snapRec with
    | none => m
    | some a =>
      let hdr := leBytes 8 strip ++ leBytes 8 (strip * m.rowLines g.row) ++ leBytes 8 (if p.resetDue then 0 else p.n) ++
        leBytes 8 (m.get F.CM_KEY_key_epoch) ++ List.replicate 32 0
      let body := (upTo g.width).flatMap fun j => (upTo g.planes).flatMap fun q => leBytes 4 ((p.s.getD j []).getD q 0)
      ((m.putBytes a (hdr ++ body)).setPipe g.master { p with snapRec := p.snapRec + 1 }).feed g.row a (hdr ++ body)

/-- The address of the record of a ring whose header number and key epoch match; the newest first.
(Log: 62 DEDUCED.) -/
def Chip.findRec (m : Chip) (kind master stride newest epochOff want : Nat) : Nat → Option Nat
  | 0 => none
  | k + 1 =>
    let n := newest - (k + 1)
    let rest := Chip.findRec m kind master stride newest epochOff want k
    match rest with
    | some a => some a
    | none => match m.ringAddr kind master stride n with
      | some a =>
        if k < newest ∧ m.numAt a 8 = want ∧ m.numAt (a + epochOff) 8 = m.get F.CM_KEY_key_epoch then some a else none
      | none => none

/-- Records a ring can hold. -/
def Chip.ringCap (m : Chip) (kind master stride : Nat) : Nat :=
  match m.region kind master with
  | some r => if 0 < stride then r.len / stride else 0
  | none => 0

def Chip.findLine (m : Chip) (c : CameraRec) (idx : Nat) : Option Nat :=
  m.findRec 0 c.master (lineStride c) (m.cam c.master).lineRec 0x20 idx (m.ringCap 0 c.master (lineStride c))
def Chip.findSnap (m : Chip) (c : CameraRec) (strip : Nat) : Option Nat :=
  m.findRec 1 c.master (snapStride c) (m.pipe c.master).snapRec 0x18 strip (m.ringCap 1 c.master (snapStride c))

/-! ### The strip boundary of a gang (R110, R117, R123, R263) -/

/-- The input reaches the first line of strip `s`: a written bank switches, a written route commits as a synchronising
reset, the snapshot is written.
(Log: 57 DEDUCED, 61 DEDUCED.) -/
def Chip.stripBoundary (g : Gang) (s : Nat) (m : Chip) : Chip :=
  let p := m.pipe g.master
  let src := m.get (F.LP_CTRL_src_sel g.master)
  let ch := m.get (F.LP_CTRL_replay_ch g.master)
  let change := src != p.route || (src == 1 && ch != p.channel)
  let m1 := m.setPipe g.master { p with route := src, channel := ch, bankB := m.flag (F.LP_CTRL_cal_bank g.master),
                                        strip := some s, commits := if change then p.commits ++ [s] else p.commits }
  let m2 := if change then m1.syncReset g else m1
  (m2.writeSnapshot g s).showPipe g

/-! ### Slots (R109, R112, R114) -/

/-- Columns of level `l` of a row. -/
def Chip.levelWidth (m : Chip) (r l : Nat) : Nat := m.rowWidth r / 2 ^ l
/-- Bytes of one stored line of level `l`. -/
def Chip.lineBytes (m : Chip) (r l : Nat) : Nat := m.levelWidth r l * m.rowPlanes r * (if m.levelU16 r l then 2 else 1)
/-- Lines of level `l` in a slot, overlap included. -/
def Chip.slotLines (m : Chip) (r l : Nat) : Nat := (m.rowLines r + m.rowOverlap r) / 2 ^ l
/-- Bytes of level `l` in a slot: its samples, then its flag plane. The layout of a slot beyond its header is the model's.
(Log: 60 DESIGN CHOICE.) -/
def Chip.levelBytes (m : Chip) (r l : Nat) : Nat :=
  align64 (m.slotLines r l * m.lineBytes r l) + align64 (m.slotLines r l * m.levelWidth r l)
/-- The offset of level `l` in a slot.
(Log: 60 DESIGN CHOICE.) -/
def Chip.levelOff (m : Chip) (r l : Nat) : Nat := (upTo l).foldl (fun a k => a + m.levelBytes r k) 64
/-- Log: 60 DESIGN CHOICE. -/
def Chip.slotBytes (m : Chip) (r : Nat) : Nat := m.levelOff r 4
/-- Slots of a row's ring. -/
def Chip.slotCount (m : Chip) (r : Nat) : Nat :=
  match m.region 2 r with
  | some g => g.len / max 1 (m.slotBytes r)
  | none => 0
/-- The global address of a slot.
(Log: 60 DESIGN CHOICE.) -/
def Chip.slotAddr (m : Chip) (r slot : Nat) : Nat := cmAddr (((m.region 2 r).map (·.base)).getD 0 + slot * m.slotBytes r)

/-- Write line `k` (overlap lines first) of level `l` of a slot. -/
def Chip.writeLevel (r slot l k : Nat) (px : List Pix) (m : Chip) : Chip :=
  let a := m.slotAddr r slot + m.levelOff r l
  let m1 := m.putBytes (a + k * m.lineBytes r l) (storeLine (m.levelU16 r l) px)
  m1.putBytes (a + align64 (m.slotLines r l * m.lineBytes r l) + k * m.levelWidth r l) (storeFlags px)

/-- The flag byte of a pixel of a slot: level, line (overlap lines first), column. -/
def Chip.slotFlag (m : Chip) (r slot l k x : Nat) : Nat :=
  (m.byteAt (m.slotAddr r slot + m.levelOff r l + align64 (m.slotLines r l * m.lineBytes r l) + k * m.levelWidth r l + x)).toNat

/-! ### Stitched lines and strips (R105 to R113) -/

/-- The stitched line of a row from the aligned lines of its cameras. -/
def Chip.stitchLine (m : Chip) (r : Nat) (ls : List (Gang × PLine)) : List Pix :=
  let planes := m.rowPlanes r
  (upTo (m.rowWidth r)).map fun (x : Nat) =>
    let has := ls.filter fun q => decide ((m.contrib q.1).1 ≤ x) && decide ((x : Int) ≤ (m.contrib q.1).2)
    let px (q : Gang × PLine) : Pix := pixAt planes q.2.px ((x : Int) - (m.calOf q.1).x0)
    match has with
    | [] => voidPix planes 0
    | [a] => px a
    | a :: b :: _ => overlapPix planes (m.seam a.1 b.1) (m.calOf a.1).blend x (px a) (px b)

/-- Begin strip `s` of a row with its first line (R112, R113). Overlap lines that no line of the row came before are void.
(Log: 121 DESIGN CHOICE.) -/
def Chip.beginStrip (r s idx : Nat) (m : Chip) : Chip :=
  let rp := m.rowPipe r
  let gs := m.rowGangs r
  let commit := gs.any fun g => (m.pipe g.master).commits.contains s
  if m.slotCount r ≤ rp.held.length then
    let m1 := m.setRowPipe r { rp with cur := some { strip := s, slot := none, cut := some idx, overflow := true, routeCommit := commit } }
    forAll gs (fun g m => (m.lpFlag g F.LP_STAT_overflow).bump (R.LP_CNT_OVERFLOW g.master)) m1
  else
    let slot := rp.nextSlot
    let m1 := m.setRowPipe r { rp with cur := some { strip := s, slot := some slot, routeCommit := commit },
                                       held := rp.held ++ [(slot, none)], nextSlot := (slot + 1) % max 1 (m.slotCount r) }
    let ov := m.rowOverlap r
    forAll (upTo 4) (fun l m =>
      let tail := ((rp.tails.find? fun t => t.1 == l).map (·.2)).getD []
      let want := ov / 2 ^ l
      forAll (upTo want) (fun k m =>
        let px := (tail[k + tail.length - want]?).getD (List.replicate (m.levelWidth r l) (voidPix (m.rowPlanes r) 0))
        let px1 := if tail.length < want ∧ k < want - tail.length then List.replicate (m.levelWidth r l) (voidPix (m.rowPlanes r) 0) else px
        m.writeLevel r slot l k px1) m) m1

/-- A line of level `l` of the row is there: it is written to the strip's slot, kept for the overlap, and with its odd
partner gives a line of the next level (R108, R110). `pos` is its line number within the strip at that level. -/
def Chip.levelLine (r : Nat) (slot : Option Nat) : Nat → Nat → Nat → List Pix → Chip → Chip
  | 0, _, _, _, m => m
  | fuel + 1, l, pos, px, m =>
    let ov := m.rowOverlap r / 2 ^ l
    let m1 := match slot with
      | some s => m.writeLevel r s l (ov + pos) px
      | none => m
    let rp := m1.rowPipe r
    let tail := (((rp.tails.find? fun t => t.1 == l).map (·.2)).getD []) ++ [px]
    let tails := (rp.tails.filter fun t => t.1 != l) ++ [(l, tail.drop (tail.length - ov))]
    if pos % 2 = 0 then
      m1.setRowPipe r { rp with tails, pair := (rp.pair.filter fun q => q.1 != l) ++ [(l, px)] }
    else
      let up := ((rp.pair.find? fun q => q.1 == l).map (·.2)).getD (List.replicate px.length (voidPix (m.rowPlanes r) 0))
      let m2 := m1.setRowPipe r { rp with tails, pair := rp.pair.filter fun q => q.1 != l }
      Chip.levelLine r slot fuel (l + 1) (pos / 2) (halveLines (m.rowPlanes r) up px) m2

/-- Account for a line of the open strip; `cut` says that it belongs to a dropped rest of the strip (R79, R113). -/
def noteLine (o : OpenStrip) (idx : Nat) (count : Int) (tb3 : Nat) (first cut : Bool) (px : List Pix) : OpenStrip :=
  let f := px.foldl (fun a x => orF a x.f) 0
  let o1 := if first then { o with countFirst := count, tb3First := tb3 } else o
  { o1 with countLast := count, tb3Last := tb3, orFlags := orF o1.orFlags f, done := o1.done + 1,
            voidLines := o1.voidLines + b2n (px.any isVoid), replay := o1.replay || bitN f 7,
            cut := if o1.cut.isNone && cut then some idx else o1.cut,
            cutCount := if o1.cutCount.isNone && cut then some count else o1.cutCount }

/-- The output queue of a pipeline of the row is full when line `idx` must enter it (R113): the rest of the strip, from this line on, is
dropped on every pipeline of the row. -/
def Chip.queueFull (r idx : Nat) (m : Chip) : Chip :=
  let rp := m.rowPipe r
  match rp.cur with
  | some o =>
    if !rp.noRoom || o.overflow then m
    else forAll (m.rowGangs r) (fun g m => (m.lpFlag g F.LP_STAT_overflow).bump (R.LP_CNT_OVERFLOW g.master))
      (m.setRowPipe r { rp with cur := some { o with overflow := true, cut := some (o.cut.getD idx) } })
  | none => m

/-- A stitched line enters its strip (R110, R113); `cut` says that a camera's line belongs to a dropped rest (R79). -/
def Chip.rowLine (r idx : Nat) (count : Int) (tb3 : Nat) (cut : Bool) (px0 : List Pix) (m : Chip) : Chip :=
  let L := m.rowLines r
  let s := idx / L
  let rp0 := m.rowPipe r
  let floor := rp0.floor.getD ((idx + L - 1) / L)
  let m0 := m.setRowPipe r { rp0 with floor := some floor }
  if s < floor then Chip.levelLine r none 4 0 (idx % L) px0 m0
  else
    let m1 := (if idx % L = 0 then m0.beginStrip r s idx else m0).queueFull r idx
    match (m1.rowPipe r).cur with
    | none => m1
    | some o =>
      let dropAll := o.overflow && match o.cut with
        | some c => decide (c ≤ idx)
        | none => false
      let px := if dropAll then px0.map fun x => voidPix (m.rowPlanes r) (orF flagDropped (x.f &&& flagReplay)) else px0
      let o1 := noteLine o idx count tb3 (idx % L == 0) (cut || dropAll) px
      let m2 := Chip.levelLine r o.slot 4 0 (idx % L) px m1
      let rp := m2.rowPipe r
      if o1.done = L then m2.setRowPipe r { rp with cur := none, full := rp.full ++ [o1] }
      else m2.setRowPipe r { rp with cur := some o1 }

/-- Stitch every line that all cameras of the row have delivered (R107). -/
def Chip.stitchReady (r : Nat) : Nat → Chip → Chip
  | 0, m => m
  | fuel + 1, m =>
    let rp := m.rowPipe r
    let gs := m.rowGangs r
    let lineOf (g : Gang) (i : Nat) : Option PLine := (rp.aligned.find? fun q => q.1 == g.master && q.2.idx == i).map (·.2)
    let ready (i : Nat) : Bool := gs.all fun g => (lineOf g i).isSome
    let cand := match rp.next with
      | some i => if ready i then some i else none
      | none => ((sortBy (fun a b => decide (a ≤ b)) (rp.aligned.map (·.2.idx)))).find? ready
    match cand with
    | none => m
    | some i =>
      let ls := gs.filterMap fun g => (lineOf g i).map fun l => (g, l)
      match ls with
      | [] => m
      | (_, l0) :: _ =>
        let px := m.stitchLine r ls
        let m1 := m.setRowPipe r { rp with aligned := rp.aligned.filter fun q => decide (i < q.2.idx), next := some (i + 1) }
        Chip.stitchReady r fuel (m1.rowLine r i l0.count l0.tb3 (ls.any fun q => q.2.cut) px)

/-! ### A camera's line through stages 1 to 5 -/

/-- The pattern generator's line (R116). -/
def patternLine (g : Gang) (idx : Nat) : List Nat :=
  (upTo g.width).flatMap fun c => (upTo g.planes).map fun p => (16 * c + idx + 4096 * p) % 65536

/-- The pixel of an input line that alignment reads; a lead-line read that could not be corrected is void and dropped
(R259). -/
def leadPix (p : PipeState) (planes i j : Nat) : Pix :=
  let bad := p.leadLost.any fun q => q.1 == i && decide (q.2.1 ≤ j) && decide (j ≤ q.2.2)
  match p.lines.find? fun l => l.idx == i with
  | some l => if bad then voidPix planes flagDropped else pixAt planes l.px j
  | none => voidPix planes 0

/-- Give the row every output line whose input lines are there (R102). The bank in force when the line leaves aligns it: the last lines
of a strip, which wait for lead lines of the next, take a bank switched at the boundary (R123).
(Log: 122 DESIGN CHOICE.) -/
def Chip.alignReady (g : Gang) : Nat → Chip → Chip
  | 0, m => m
  | fuel + 1, m =>
    let p := m.pipe g.master
    let c := m.calOf g
    match p.nextOut with
    | none => m
    | some i =>
      if !(p.lines.any fun l => l.idx == i) || !(p.lines.any fun l => l.idx == i + leadSpan c) then m
      else
        let px := (upTo g.width).map fun j => matrixPix c (alignPix c fun o => leadPix p g.planes (i + o) j)
        match p.lines.find? fun l => l.idx == i with
        | none => m
        | some l =>
          let out : PLine := { idx := i, count := l.count, tb3 := l.tb3, px, cut := l.cut }
          let m1 := m.setPipe g.master { p with nextOut := some (i + 1), lines := p.lines.filter fun x => decide (i < x.idx),
                                                leadLost := p.leadLost.filter fun q => decide (i < q.1) }
          let m2 := if px.any fun x => bitN x.f 4 then (m1.lpFlag g F.LP_STAT_clipped).bump (R.LP_CNT_CLIP g.master) else m1
          let m3 := if px.any isVoid then m2.lpFlag g F.LP_STAT_void_seen else m2
          let rp := m3.rowPipe g.row
          Chip.alignReady g fuel (m3.setRowPipe g.row { rp with aligned := rp.aligned ++ [(g.master, out)] })

/-- Stages 1 to 4 on a line, then alignment. -/
def Chip.procLine (g : Gang) (x : InLine) (m : Chip) : Chip :=
  let s := x.idx / m.rowLines g.row
  let m1 := if (m.pipe g.master).strip == some s then m else m.stripBoundary g s
  let m2 := m1.onGang g fun n m => m.bump (R.LP_CNT_LINES n)
  let p := m2.pipe g.master
  let y : InLine := match p.route with
    | 2 => { x with samples := some (patternLine g x.idx), bits := 16, dropped := false, cut := false }
    | 3 => { x with samples := none, dropped := false, cut := false }
    | _ => x
  let c := m2.calOf g
  let n0 := if p.resetDue then 0 else p.n
  let t := temporalLine c.tn n0 p.s (spatialLine c (inputLine g.width g.planes y))
  let px := flatLine c (defectLine c t.1)
  let line : PLine := { idx := x.idx, count := x.count, tb3 := x.tb3, px, cut := y.cut }
  let m3 := m2.setPipe g.master { p with s := t.2.1, n := t.2.2, resetDue := false, lines := p.lines ++ [line],
                                         nextOut := some (p.nextOut.getD x.idx), nextIn := some (x.idx + 1) }
  (Chip.alignReady g 130 m3).stitchReady g.row 200

/-- The source in force has given the line. -/
def lineReady (p : PipeState) (x : InLine) : Bool :=
  match p.route with
  | 0 => x.got && !x.replay
  | 1 => x.got && x.replay
  | _ => true

/-- Process the waiting lines in index order. A route committed at the boundary decides for the strip it begins.
(Log: 57 DEDUCED.) -/
def Chip.runPipe (g : Gang) : Nat → Chip → Chip
  | 0, m => m
  | fuel + 1, m =>
    match (m.pipe g.master).waiting with
    | [] => m
    | x :: t =>
      let s := x.idx / m.rowLines g.row
      let m1 := if (m.pipe g.master).strip == some s then m else m.stripBoundary g s
      let p := m1.pipe g.master
      if lineReady p x then Chip.runPipe g fuel ((m1.setPipe g.master { p with waiting := t }).procLine g x) else m1

def Chip.runGang (g : Gang) (m : Chip) : Chip := m.runPipe g ((m.pipe g.master).waiting.length + 1)

/-! ### Delivery -/

/-- A trigger of the camera fell due: the pipeline expects its line (R71). -/
def Chip.pipeTrigger (g : Gang) (idx : Nat) (count : Int) (tb3 : Nat) (m : Chip) : Chip :=
  let p := m.pipe g.master
  (m.setPipe g.master { p with waiting := p.waiting ++ [{ idx, count, tb3 }] }).runGang g

/-- Lines that a new source delivers before its commit are discarded (R117).
(Log: 61 DEDUCED.) -/
def Chip.routeDiscard (g : Gang) (m : Chip) : Chip :=
  (m.onGang g fun n m => m.bump (R.LP_CNT_ROUTE_DISC n)).lpFlag g F.LP_STAT_route_discard

/-- The camera's own link delivers a line, as data or as void. -/
def Chip.pipeLine (g : Gang) (x : InLine) (m : Chip) : Chip :=
  let p := m.pipe g.master
  if p.route = 0 then
    (m.setPipe g.master { p with waiting := p.waiting.map fun w => if w.idx = x.idx && !w.got then { x with got := true } else w }).runGang g
  else if x.samples.isSome && m.get (F.LP_CTRL_src_sel g.master) == 0 then m.routeDiscard g
  else m

/-- A replay channel delivers a line to a gang whose source it is, or will be at its boundary (R117, R118). -/
def Chip.replayLineTo (ch : Nat) (g : Gang) (x : InLine) (m : Chip) : Chip :=
  let p := m.pipe g.master
  let want := m.get (F.LP_CTRL_src_sel g.master) == 1 && m.get (F.LP_CTRL_replay_ch g.master) == ch
  let idle := p.waiting.isEmpty && match p.nextIn with
    | none => true
    | some i => i % m.rowLines g.row == 0
  if (p.route = 1 ∧ p.channel = ch) ∨ (want ∧ idle) then
    (m.setPipe g.master { p with waiting := p.waiting ++ [{ x with got := true, replay := true }] }).runGang g
  else if want then m.routeDiscard g
  else m

/-- The wait of a line-paced request of capture memory (R260, R277). -/
def Chip.noteWait (ns : Nat) (m : Chip) : Chip :=
  (m.wr R.CM_PIPE_WAIT_MAX (BitVec.ofNat 32 (min 0xFFFFFFFF (max (m.rd R.CM_PIPE_WAIT_MAX).toNat ns)))).setFlagIf (decide (20000 < ns))
    F.CM_STAT_pipe_wait

/-- Lines pass with what the line-paced requests of capture memory meet (R113, R259, R260): a lead-line read that cannot be corrected
makes the pixels it takes void. -/
def Chip.linePaced (g : Gang) (io : LineIo) (f : Chip → Chip) (m : Chip) : Chip :=
  let m1 := (m.noteWait io.wait).cmErrs { cmCe := io.cmCe, cmUe := io.cmUe }
  let p := m1.pipe g.master
  let m2 := if io.cmUe.isEmpty ∨ io.leadLost.isEmpty then m1 else m1.setPipe g.master { p with leadLost := p.leadLost ++ io.leadLost }
  if io.full then
    let m3 := f (m2.setRowPipe g.row { m2.rowPipe g.row with noRoom := true })
    m3.setRowPipe g.row { m3.rowPipe g.row with noRoom := false }
  else f m2

end Sys2Proof.Machine
end

