-- ==== Sys2Proof/Machine/Sessions.lean ====
section
/-!
DEFINITION. Sys2Proof/Machine/Sessions.lean: service sessions and the admission of signed commands (R530, R532, R533).
-/
namespace Sys2Proof.Machine

def Chip.onTrust (f : TrustState → TrustState) (m : Chip) : Chip := { m with trust := f m.trust }

def Chip.session (m : Chip) (id : Nat) : Option Session := m.trust.sessions.find? fun s => s.id == id
def Chip.setSession (v : Session) (m : Chip) : Chip :=
  m.onTrust fun t => { t with sessions := t.sessions.map fun s => if s.id = v.id then v else s }

/-- A message of a session resets its idle time (R530). -/
def Chip.touch (id : Nat) (m : Chip) : Chip :=
  match m.session id with
  | some s => m.setSession { s with lastAt := m.now }
  | none => m

/-- Hold an answer behind the last wait of its session in a list of waits (R569).
(Log: 91 DEDUCED.) -/
def holdBehind (id : Nat) (e : Emit) (l : List SvcWait) : List SvcWait :=
  match (l.filter fun w => w.session == id).getLast? with
  | none => l
  | some w => l.map fun x => if x.num = w.num then { x with behind := x.behind ++ [e] } else x

/-- Answer a session. Requests are answered in order of receipt (R569): behind a message that waits for Ridge registers an answer
waits as well. -/
def Chip.reply (id : Nat) (e : Emit) (m : Chip) : Chip :=
  if m.tenon.waits.any fun w => w.session == id then { m with tenon := { m.tenon with waits := holdBehind id e m.tenon.waits } }
  else m.emit e

/-- Answer a session with numbers; ANSWER messages do not wait (R569). -/
def Chip.answer (id : Nat) (what : String) (args : List Nat) (m : Chip) : Chip :=
  let e : Emit := .send "service" id what args
  if what == "ANSWER" then m.emit e else m.reply id e

/-- Why a signed command is refused (R532, R533); 6 is a refusal by the command's own rule. The spec names the reasons and no
numbers.
(Log: 15 DESIGN CHOICE.) -/
def reasonSerial : Nat := 1
/-- Log: 15 DESIGN CHOICE. -/
def reasonChallenge : Nat := 2
/-- Log: 15 DESIGN CHOICE. -/
def reasonSignature : Nat := 3
/-- Log: 15 DESIGN CHOICE. -/
def reasonLevel : Nat := 4
/-- Log: 15 DESIGN CHOICE. -/
def reasonBusy : Nat := 5
/-- Log: 15 DESIGN CHOICE. -/
def reasonRefused : Nat := 6

/-- Keep the result of a command by its challenge: the last 64 (R532).
(Log: 15 DESIGN CHOICE.) -/
def Chip.keepResult (a : Auth) (code : Nat) (m : Chip) : Chip :=
  m.onTrust fun t =>
    let l := t.results ++ [(a.challenge, code)]
    { t with results := l.drop (l.length - 64) }

/-- Refuse a signed command with a reason (R532).
(Log: 111 DEDUCED.) -/
def Chip.refuseCmd (a : Auth) (reason : Nat) (m : Chip) : Chip :=
  ((((m.bump R.SEC_CNT_CMD_REJ).setFlag F.SEC_STAT_cmd_reject).keepResult a reason).log "command refused" [reason]).answer a.session
    "refused" [reason]

/-- A story stick is being verified or loaded (R533). -/
def Chip.loading (m : Chip) : Bool := decide (m.boot.step < 7) && !m.boot.failed

/-- The reason for which a signed command is refused before its own rule is asked (R509, R532, R533), if any. `lives` are the
lifecycles that accept it; `owner` commands may be sent on any session of operator level or above, maintainer commands on a maintainer
session; `reset` marks the warm and cold commands, which are carried out while a stick loads. -/
def Chip.refusal (m : Chip) (lives : List Nat) (owner reset : Bool) (a : Auth) (s : Session) : Option Nat :=
  if !a.serialOk then some reasonSerial
  else if !(s.challenges.any fun c => c.1 == a.challenge && decide (m.now < c.2 + 60000000000)) then some reasonChallenge
  else if !a.sigOk then some reasonSignature
  else if !owner && decide (s.level < 2) then some reasonLevel
  else if !lives.contains m.trust.fuses.lifecycle then some reasonRefused
  else if m.loading && !reset then some reasonBusy
  else none

/-- An accepted command is counted, its result kept and answered (R532).
(Log: 111 DEDUCED.) -/
def Chip.acceptCmd (a : Auth) (m : Chip) : Chip :=
  (((m.bump R.SEC_CNT_CMD_OK).keepResult a 0).log "command" []).answer a.session "done" []

/-- A signed command (R532): executed once, after its challenge is consumed. `eff` says whether the command's own rule accepts it and
what it then does; an accepted command is answered before it acts.
(Log: 111 DEDUCED.) -/
def Chip.signedIn (lives : List Nat) (owner reset : Bool) (a : Auth) (eff : Chip → Bool × Chip) (m0 : Chip) : Chip :=
  match m0.session a.session with
  | none => m0
  | some s =>
    let m := m0.touch a.session
    let m1 := m.setSession { s with lastAt := m.now, challenges := s.challenges.filter fun c => c.1 != a.challenge }
    if s.level = 0 then m.answer a.session "denied" []
    else match m.refusal lives owner reset a s with
      | some r => m1.refuseCmd a r
      | none =>
        let r := eff m1
        if r.1 then (eff (m1.acceptCmd a)).2 else r.2.refuseCmd a reasonRefused

/-- A command that names an address that is not 4-byte aligned makes no access and is answered with bad_request (R11, R570). -/
def Chip.badAddress (a : Auth) (m : Chip) : Chip := if (m.session a.session).isSome then m.answer a.session "status" [4] else m

/-- A signed command of a module in lifecycle owned (R509). -/
def Chip.signed (owner reset : Bool) (a : Auth) (eff : Chip → Bool × Chip) (m : Chip) : Chip := m.signedIn [3] owner reset a eff

end Sys2Proof.Machine
end

