-- ==== Sys2Proof/Machine/Cameras.lean ====
section
/-!
DEFINITION. Sys2Proof/Machine/Cameras.lean: the camera links (R62 to R91): bring-up, power over CoaXPress, triggers and their
slots, stream packets, lines, the control channel, calibration capture.
-/
namespace Sys2Proof.Machine

/-! ### States (R87) -/

def stDown : Nat := 0
def stPowering : Nat := 1
def stDiscovering : Nat := 2
def stConfiguring : Nat := 3
def stAwaiting : Nat := 4
def stStreaming : Nat := 5
def stRejected : Nat := 6
def stLocked : Nat := 7
def stCapture : Nat := 8
def stMismatch : Nat := 9
def stHeld : Nat := 10

def camLinks (c : CameraRec) : List Nat := (upTo c.links).map fun i => c.master + i
def Chip.camState (m : Chip) (c : CameraRec) : Nat := m.get (F.CXP_LINK_STAT_state c.master)

/-- Show a camera's state on its links; a locked-out link shows its lock-out (R70). While the camera is not streaming,
CXP_CAM_INFO reads 0 (R90). -/
def Chip.setCamState (c : CameraRec) (st : Nat) (m : Chip) : Chip :=
  let m1 := forAll (camLinks c) (fun n m => m.put (F.CXP_LINK_STAT_state n) (if (m.poc n).locked then stLocked else st)) m
  if st = stStreaming then m1 else m1.wr (R.CXP_CAM_INFO c.master) 0

def Chip.camGang (m : Chip) (c : CameraRec) : Gang := (m.gangOf c.master).getD (gangOfCam c)

/-- The camera is held: on one of its links (R86), or by the standby role (R469). -/
def Chip.camHeld (m : Chip) (c : CameraRec) : Bool :=
  m.role == 2 || (camLinks c).any fun n => m.flag (F.CXP_LINK_CTRL_link_hold n)

/-- The camera is kept down: held, or a link locked out or switched off by a fault (R70, R86, R469). -/
def Chip.camBlocked (m : Chip) (c : CameraRec) : Bool :=
  m.camHeld c || (camLinks c).any fun n => (m.poc n).locked || (m.poc n).offSince.isSome

/-! ### Void lines and slots (R75) -/

/-- A void line is written for a line index (R75): counted, recorded in the capture ring, given to the pipeline; a dropped one belongs
to the dropped rest of a strip (R79). -/
def Chip.voidLine (c : CameraRec) (idx : Nat) (count : Int) (tb3 : Nat) (dropped : Bool) (m : Chip) : Chip :=
  let x : InLine := { idx, count, tb3, got := true, samples := none, dropped, cut := dropped }
  let m1 := (m.bump (R.CXP_CNT_VOID c.master)).setFlag (F.CXP_LINK_STAT_void_fill c.master)
  (m1.writeLineRec c x).pipeLine (m1.camGang c) x

def Chip.voidSlot (c : CameraRec) (s : TrigSlot) (m : Chip) : Chip :=
  if s.pending then m.voidLine c s.idx s.count s.tb3 false else m

/-- Every slot becomes void and the queue is emptied (R75, R77). -/
def Chip.emptySlots (c : CameraRec) (m : Chip) : Chip :=
  let l := (m.cam c.master).slots
  forAll l (fun s m => m.voidSlot c s) (m.setCam c.master { m.cam c.master with slots := [] })

/-- The oldest `k` slots become void and leave the queue (R79). -/
def Chip.dropSlots (c : CameraRec) (k : Nat) (m : Chip) : Chip :=
  let l := (m.cam c.master).slots
  forAll (l.take k) (fun s m => m.voidSlot c s) (m.setCam c.master { m.cam c.master with slots := l.drop k })

/-- Pending slots whose line timeout has passed become void; they stay in the queue (R75). -/
def Chip.expireSlots (c : CameraRec) (m : Chip) : Chip :=
  let st := m.cam c.master
  let due (s : TrigSlot) : Bool := s.pending && decide (s.sentAt + m.get (F.CXP_TIMING_CFG_line_timeout c.master) * 1000 ≤ m.now)
  let m1 := m.setCam c.master { st with slots := st.slots.map fun s => if due s then { s with pending := false } else s }
  forAll (st.slots.filter due) (fun s m => m.voidSlot c s) m1

/-! ### Down and up (R66 to R69) -/

/-- Take every link of a camera down: its slots become void, its tags and pending control commands are forgotten, a maintainer command
among these as failed (R82). -/
def Chip.camDown (c : CameraRec) (st : Nat) (m0 : Chip) : Chip :=
  let m := forAll ((m0.cam c.master).ctrl.filter fun k => k.sender == .maintainer) (fun k m =>
    m.emit (.send "service" c.master "camera command failed" [k.tag])) m0
  let m1 := m.emptySlots c
  let s1 : CamState := { m1.cam c.master with ctrl := [], tagNext := none, ahead := [], seen := [], cal := none, firstTrig := none }
  (m1.setCam c.master { s1 with tB := none, readC := none, shortfalls := 0, restartAt := none }).setCamState c st

/-- Bring-up is due in `ns` from a step. -/
def Chip.restartIn (c : CameraRec) (ns step : Nat) (m : Chip) : Chip :=
  m.setCam c.master { m.cam c.master with restartAt := some (m.now + ns), restartFrom := step }

/-- The enable output of a link's power switch (R70), active low. -/
def Chip.pocEnable (n : Nat) (on : Bool) (m : Chip) : Chip :=
  if (m.poc n).on == on then m else (m.setPoc n { m.poc n with on }).emit (.pin "CXP_PWR_EN_N" n (!on))

/-- Send a control command with a fresh tag (R82).
(Log: 124 DESIGN CHOICE.) -/
def Chip.sendCtrl (c : CameraRec) (what : String) (args : List Nat) (sender : CtrlBy) (m : Chip) : Chip :=
  let st := m.cam c.master
  (m.setCam c.master { st with ctrl := st.ctrl ++ [{ tag := st.nextTag, sentAt := m.now, sender }], nextTag := (st.nextTag + 1) % 256 }).emit
    (.send "cxp" c.master what (st.nextTag :: args))

/-- Firmware takes up a step of a camera's configuration (R66); its time starts unless it continues the step before. -/
def Chip.bringUpStep (c : CameraRec) (phase : Nat) (fresh : Bool) (m : Chip) : Chip :=
  let s := m.cam c.master
  (m.setCam c.master { s with phase, stepAt := if fresh then m.now else s.stepAt }).setCamState c stConfiguring

/-- Step 3 (R66): the bootstrap registers are read. -/
def Chip.readBootstrap (c : CameraRec) (m : Chip) : Chip :=
  forAll ["read Standard", "read Revision", "read DeviceVendorName", "read DeviceModelName", "read ConnectionConfigDefault"]
    (fun w m => m.sendCtrl c w [] .bringUp) (m.bringUpStep c 3 true)

/-- Bring-up begins at a step (R66); `again` counts it as one after loss, reconnect or lock-out (R91). At each bring-up the
slot queue is emptied (R75). -/
def Chip.beginBringUp (c : CameraRec) (step : Nat) (again : Bool) (m : Chip) : Chip :=
  if m.camBlocked c then m
  else
    let m1 := (m.camDown c stDown).bumpIf again (R.CXP_CNT_RECONNECT c.master)
    let m2 := if step ≤ 1 then forAll ((camLinks c).filter fun n => m.flag (F.CXP_LINK_CFG_poc n)) (fun n m => m.pocEnable n true)
        (m1.setCam c.master { m1.cam c.master with rate := 1 }) else m1
    let m3 := m2.setCam c.master { m2.cam c.master with stepAt := m.now, pollAt := none }
    if 3 ≤ step then m3.readBootstrap c else m3.setCamState c (if step ≤ 1 then stPowering else stDiscovering)

/-- A step fails or times out (R68): link_lost, and bring-up again from step 2 after 1 s.
(Log: 54 DEDUCED.) -/
def Chip.bringUpFails (c : CameraRec) (m : Chip) : Chip :=
  ((m.setFlag (F.CXP_LINK_STAT_link_lost c.master)).camDown c stDown).restartIn c 1000000000 2

/-- The camera is lost (R69): every link is taken down, bring-up again from step 3 after 1 s, camera-link is raised.
(Log: 54 DEDUCED.) -/
def Chip.camLost (c : CameraRec) (m : Chip) : Chip :=
  (((m.setFlag (F.CXP_LINK_STAT_link_lost c.master)).camDown c stDown).restartIn c 1000000000 3).raise SrcName.cameraLink

/-- The camera has lost line order (R77).
(Log: 54 DEDUCED.) -/
def Chip.orderLost (c : CameraRec) (m : Chip) : Chip :=
  ((m.setFlag (F.CXP_LINK_STAT_order_lost c.master)).bump (R.CXP_CNT_ORDER c.master)).camLost c

/-- The camera streams, lines reach it by triggers: states streaming and header rejected. -/
def Chip.camStreams (m : Chip) (c : CameraRec) : Bool := m.camState c == stStreaming || m.camState c == stRejected

/-- Step 7 (R66): the acquisition-start record is written, and the first image header is awaited. The audit of R77 counts from `base`. -/
def Chip.startAcq (c : CameraRec) (base : Nat) (m : Chip) : Chip :=
  let m1 := m.sendCtrl c "acquisition start" [c.acqAddr, c.acqValue] .bringUp
  (m1.setCam c.master { m1.cam c.master with stepAt := m.now, firstTrig := none, sent := 0, matched := 0, base, shortfalls := 0,
                                             auditAt := m.now }).setCamState c stAwaiting

/-- Step 6 (R66): register record `i` is written and read back; after the last, acquisition starts, before it the trigger counter is
read where the camera record names one (R77). -/
def Chip.writeRegs (c : CameraRec) (i : Nat) (m : Chip) : Chip :=
  match c.regs[i]? with
  | some w =>
    let m1 := m.bringUpStep c 6 (i == 0)
    ((m1.setCam c.master { m1.cam c.master with regAt := i }).sendCtrl c "write register" [w.1, w.2] .bringUp).sendCtrl c "read register"
      [w.1] .bringUp
  | none =>
    if c.trigCnt = 0xFFFFFFFF then m.startAcq c 0 else (m.bringUpStep c 7 true).sendCtrl c "read counter" [c.trigCnt] .bringUp

/-- The identity or the connection order differs (R67): no acquisition; bring-up again from step 2 in 10 s.
(Log: 54 DEDUCED.) -/
def Chip.identMismatch (c : CameraRec) (m : Chip) : Chip :=
  ((m.camDown c stMismatch).setFlag (F.CXP_LINK_STAT_ident_mismatch c.master)).restartIn c 10000000000 2

/-- The step that firmware carries out has its acknowledges: what the camera answered decides how bring-up goes on (R66, R67). The value
written to MasterHostConnectionID is not stated, a free value.
(Log: 125 DEDUCED.) -/
def Chip.bringUpNext (c : CameraRec) (r : CamReply) (m : Chip) : Chip :=
  let st := m.cam c.master
  match st.phase with
  | 3 =>
    if r.vendor ≠ c.vendor ∨ r.model ≠ c.model ∨ r.revMajor ≠ c.revMajor then m.identMismatch c
    else forAll (camLinks c) (fun n m => m.sendCtrl c "read DeviceConnectionID" [n] .bringUp) (m.bringUpStep c 4 true)
  | 4 =>
    if !r.orderOk then m.identMismatch c
    else
      let (v, m1) := (m.bringUpStep c 5 false).draw
      (m1.sendCtrl c "write MasterHostConnectionID" [v % 2 ^ 32] .bringUp).sendCtrl c "write ConnectionConfig" [c.rate, c.links] .bringUp
  | 5 => if !r.trained then m.bringUpFails c else (m.setCam c.master { st with rate := c.rate }).writeRegs c 0
  | 6 => if (c.regs[st.regAt]?.map (·.2)) ≠ some r.readBack then m.bringUpFails c else m.writeRegs c (st.regAt + 1)
  | _ => m.startAcq c r.counter

/-- CAMERA_BRING_UP (R66, R67): on a camera that is down, bring-up begins with its power; on one that is being configured, firmware goes on
to the next step once every command of the present one is acknowledged, by the camera's answers. -/
def cameraBringUp (dt n : Nat) (r : CamReply) (m0 : Chip) : Chip :=
  let m := elapse dt m0
  match m.camOf n with
  | none => m
  | some c =>
    if m.boot.step < 7 ∨ m.camBlocked c then m
    else if m.camState c = stDown ∧ (m.cam n).restartAt.isNone then m.beginBringUp c 1 false
    else if m.camState c ≠ stConfiguring ∨ (m.cam n).ctrl.any (fun k => k.sender == .bringUp) then m
    else if !r.acked then m.bringUpFails c
    else m.bringUpNext c r

/-- Discovery reads of a camera are superseded: by the next, or by an acknowledge.
(Log: 125 DEDUCED.) -/
def Chip.dropDiscovery (c : CameraRec) (m : Chip) : Chip :=
  m.setCam c.master { m.cam c.master with ctrl := (m.cam c.master).ctrl.filter fun k => k.sender != .discovery }

/-- DISCOVERY_POLL (R66 step 2): every 100 ms a bootstrap read is sent until one is acknowledged; `acked` says that this one is.
(Log: 125 DEDUCED.) -/
def discoveryPoll (dt n : Nat) (acked : Bool) (m0 : Chip) : Chip :=
  let m := elapse dt m0
  match m.camOf n with
  | none => m
  | some c =>
    let due := match (m.cam n).pollAt with
      | some t => decide (t + 100000000 ≤ m.now)
      | none => true
    if (m.camState c ≠ stPowering ∧ m.camState c ≠ stDiscovering) ∨ !due then m
    else
      let m1 := (m.setCam n { m.cam n with pollAt := some m.now }).dropDiscovery c
      let m2 := (m1.sendCtrl c "discovery" [] .discovery).setCamState c stDiscovering
      if acked then (m2.dropDiscovery c).readBootstrap c else m2

/-- The time limit of a step of a camera's configuration in ns (R66): 20 ms for step 3, 200 ms for step 5, 500 ms for step 6.
(Log: 125 DEDUCED.) -/
def phaseLimit : Nat → Option Nat
  | 3 => some 20000000
  | 4 | 5 => some 200000000
  | 6 => some 500000000
  | _ => none

/-- The time limit of the present step of bring-up, in ns (R66): none where none runs. -/
def Chip.stepLimit (m : Chip) (c : CameraRec) : Option Nat :=
  let st := m.cam c.master
  if m.camState c = stPowering ∨ m.camState c = stDiscovering then
    some (st.stepAt + m.get (F.CXP_TIMING_CFG_disc_s c.master) * 1000000000)
  else if m.camState c = stConfiguring then (phaseLimit st.phase).map fun t => st.stepAt + t
  else if m.camState c = stAwaiting then st.firstTrig.map fun t => t + m.get (F.CXP_TIMING_CFG_line_timeout c.master) * 1000
  else none

/-- BRING_UP_STEP_TIMEOUT (R68). -/
def bringUpStepTimeout (dt n : Nat) (m0 : Chip) : Chip :=
  let m := elapse dt m0
  match m.camOf n with
  | none => m
  | some c => match m.stepLimit c with
    | some t => if t ≤ m.now then m.bringUpFails c else m
    | none => m

/-- BRING_UP_RETRY (R67 to R69): the bring-up that is due begins at its step. One after a loss or a failed step, which sets link_lost like
a loss, counts in CXP_CNT_RECONNECT; one after an identity mismatch does not (R91).
(Log: 126 DESIGN CHOICE.) -/
def bringUpRetry (dt n : Nat) (m0 : Chip) : Chip :=
  let m := elapse dt m0
  match m.camOf n with
  | none => m
  | some c => match (m.cam n).restartAt with
    | some t => if t ≤ m.now then m.beginBringUp c (m.cam n).restartFrom (m.camState c != stMismatch) else m
    | none => m

/-- CAMERA_LINK_LOST (R69): a link is lost. A camera in bring-up fails its step (R68). -/
def cameraLinkLost (dt link : Nat) (m0 : Chip) : Chip :=
  let m := elapse dt m0
  match m.camOfLink link with
  | none => m
  | some c =>
    let st := m.camState c
    if st = stStreaming ∨ st = stRejected ∨ st = stCapture then (m.setFlag (F.CXP_LINK_STAT_link_lost link)).camLost c
    else if st = stPowering ∨ st = stDiscovering ∨ st = stConfiguring ∨ st = stAwaiting then
      (m.setFlag (F.CXP_LINK_STAT_link_lost link)).bringUpFails c
    else m

/-- RECONNECT (R69, R86), on the master link. -/
def reconnect (dt n : Nat) (m0 : Chip) : Chip :=
  let m := elapse dt m0
  match m.camOf n with
  | none => m
  | some c => m.beginBringUp c 3 true


/-- LINK_HOLD (R86): 1 holds the camera down with PoCXP off; once no link of it is held any more it comes up from step 1, or as soon as
what else keeps it down is over. Such a bring-up does not count as one after loss, reconnect or lock-out (R91).
(Log: 54 DEDUCED, 126 DESIGN CHOICE.) -/
def linkHold (dt link : Nat) (hold : Bool) (m0 : Chip) : Chip :=
  let m1 := (elapse dt m0).put (F.CXP_LINK_CTRL_link_hold link) (b2n hold)
  match m1.camOfLink link with
  | none => m1
  | some c =>
    if hold then forAll (camLinks c) (fun n m => m.pocEnable n false) (m1.camDown c stHeld)
    else if m1.camHeld c ∨ m1.boot.step < 7 then m1
    else if (camLinks c).any (fun n => m1.get (F.CXP_LINK_STAT_state n) == stHeld) then (m1.setCamState c stDown).beginBringUp c 1 false
    else m1

/-! ### Power over CoaXPress (R70) -/

/-- POC_FAULT (R70): the fault input of a powered link has been low for 50 µs.
(Log: 54 DEDUCED.) -/
def pocFault (dt link : Nat) (m0 : Chip) : Chip :=
  let m := elapse dt m0
  if !m.flag (F.CXP_LINK_CFG_poc link) || !(m.poc link).on then m
  else
    let p := m.poc link
    let recent := (p.faults.filter fun t => decide (m.now < t + 60000000000)) ++ [m.now]
    let locked := decide (3 ≤ recent.length)
    let m1 := (m.pocEnable link false).setFlag (F.CXP_LINK_STAT_poc_fault link)
    let m2 := m1.setPoc link { m1.poc link with faults := recent, locked, offSince := if locked then none else some m.now }
    match m2.camOfLink link with
    | none => m2
    | some c => m2.camLost c

/-- POC_REENABLE (R70): 1 s after a fault the link is switched on again, unless a hold keeps PoCXP off (R86).
(Log: 54 DEDUCED.) -/
def pocReenable (dt link : Nat) (m0 : Chip) : Chip :=
  let m := elapse dt m0
  match (m.poc link).offSince with
  | some t =>
    if m.now < t + 1000000000 then m
    else
      let m1 := m.setPoc link { m.poc link with offSince := none }
      match m1.camOfLink link with
      | some c => if m1.camHeld c then m1 else m1.pocEnable link true
      | none => m1.pocEnable link true
  | none => m

/-- POC_CLEAR (R70, R86): a lock-out ends and bring-up is tried again; a held camera stays held.
(Log: 54 DEDUCED.) -/
def pocClear (dt link : Nat) (m0 : Chip) : Chip :=
  let m := elapse dt m0
  if !(m.poc link).locked then m
  else
    let m1 := m.setPoc link { m.poc link with locked := false, faults := [], offSince := none }
    match m1.camOfLink link with
    | none => m1
    | some c => if m1.camHeld c then m1.setCamState c stHeld else (m1.setCamState c stDown).beginBringUp c 1 true

/-! ### Triggers (R71 to R75) -/

/-- The next trigger count of a camera: the least phase + i · divider above the highest triggered (R71, R72).
(Log: 53 DESIGN CHOICE.) -/
def Chip.nextTrigger (m : Chip) (c : CameraRec) : Int :=
  let d : Int := max 1 (m.get (F.CXP_TRIG_CFG_divider c.master))
  let ph : Int := m.get (F.CXP_TRIG_PHASE_phase c.master)
  ph + (((m.cam c.master).highest - ph).fdiv d + 1) * d

/-- One uplink character in ns (R62, R74): ten bits of 24 ns at 41.6 Mbit/s, where the links run at CXP-10 or CXP-12, else of 48 ns.
(Log: 127 PRESUMED.) -/
def CamState.charTime (s : CamState) : Nat := if 6 ≤ s.rate then 240 else 480

/-- Send the trigger of a line index (R74, R75): its packet leaves at the next character boundary, a free value less than one character
away, which its delay field gives. A full queue loses its oldest slot, and with it the line order.
(Log: 53 DESIGN CHOICE.) -/
def Chip.sendTrigger (c : CameraRec) (idx : Nat) (count : Int) (m : Chip) : Chip :=
  let n := c.master
  let (v, m0) := m.draw
  let delay := v % (m.cam n).charTime
  let m1 := (m0.emit (.send "cxp" n "trigger" [unsignedOf 48 count, m.tb3, delay])).bump (R.CXP_CNT_TRIG n)
  let quiet := (m1.cam n).dropStrip == some (idx / m.rowLines c.row)
  let slot : TrigSlot := { idx, count, tb3 := m.tb3, sentAt := m.now + delay, pending := !quiet, quiet }
  let full := decide (256 ≤ (m1.cam n).slots.length)
  let m2 := if full then m1.dropSlots c 1 else m1
  let st := m2.cam n
  let m3 := m2.setCam n { st with slots := st.slots ++ [slot], lastSent := some m.now, sent := st.sent + 1 }
  let m4 := if quiet then m3.voidLine c idx count m.tb3 true else m3
  if full then m4.orderLost c else m4

/-- A due trigger of index `idx` reaches the pipeline; its packet is sent, or its line is void (R73, R75). -/
def Chip.trigger (c : CameraRec) (idx : Nat) (cnt : Int) (m : Chip) : Chip :=
  let n := c.master
  let m1 := if m.camState c = stAwaiting ∧ (m.cam n).firstTrig.isNone then m.setCam n { m.cam n with firstTrig := some m.now } else m
  let m2 := m1.pipeTrigger (m.camGang c) idx cnt m.tb3
  let early := match (m.cam n).lastSent with
    | some t => decide (m.now < t + 4 * m.get (F.CXP_TRIG_CFG_min_interval n))
    | none => false
  let dropped := (m.cam n).dropStrip == some (idx / m.rowLines c.row)
  if !m.camStreams c then m2.voidLine c idx cnt m.tb3 dropped
  else if early then
    ((m2.setFlag (F.CXP_LINK_STAT_trig_suppressed n)).bump (R.CXP_CNT_TRIG_SUP n)).voidLine c idx cnt m.tb3 dropped
  else m2.sendTrigger c idx cnt

/-- TRIGGER_DUE (R71 to R75): the interpolated count has reached the camera's next trigger count.
(Log: 53 DESIGN CHOICE.) -/
def triggerDue (dt n : Nat) (io : LineIo) (m0 : Chip) : Chip :=
  let m := elapse dt m0
  match m.camOf n with
  | none => m
  | some c =>
    let p := m.get (F.CXP_TRIG_CFG_enc_port n)
    let cnt := m.nextTrigger c
    if m.encBarred p || decide (m.encPos p < cnt * 65536) then m
    else
      let d : Int := max 1 (m.get (F.CXP_TRIG_CFG_divider n))
      let idx := ((cnt - m.get (F.CXP_TRIG_PHASE_phase n)).fdiv d).toNat
      let m1 := m.setCam n { m.cam n with highest := cnt }
      if m.boot.step < 7 then m1 else m1.linePaced (m.camGang c) io (Chip.trigger c idx cnt)

/-- LINE_TIMEOUT (R75). -/
def lineTimeout (dt n : Nat) (io : LineIo) (m0 : Chip) : Chip :=
  let m := elapse dt m0
  match m.camOf n with
  | none => m
  | some c => m.linePaced (m.camGang c) io (Chip.expireSlots c)

/-! ### Lines (R75, R76) -/

def Chip.unsolicited (link : Nat) (m : Chip) : Chip := (m.setFlag (F.CXP_LINK_STAT_unsolicited link)).bump (R.CXP_CNT_UNSOL link)

/-- Write a line of an image, unprocessed, to the region named by the command (R84); a rejected stream's lines, and lines beyond an image's
height, are discarded. -/
def Chip.captureLine (c : CameraRec) (samples : List Nat) (m : Chip) : Chip :=
  match (m.cam c.master).cal with
  | none => m
  | some k =>
    if k.rejected ∨ k.left = some 0 then m
    else
      let bytes := (samples.take (k.width * c.planes)).flatMap (leBytes (sampleBytes c.bits))
      let fit := bytes.take (k.len - k.used)
      (m.putBytes (cmAddr (k.base + k.used)) fit).setCam c.master
        { m.cam c.master with cal := some { k with used := k.used + fit.length, left := k.left.map (· - 1) } }

/-- A completed line takes the oldest slot (R75, R76): a pending one gives it its index; a void one drops it as late, unless R79 made it
void. While the stream is rejected the slot becomes void. -/
def Chip.matchLine (c : CameraRec) (samples : List Nat) (m : Chip) : Chip :=
  let n := c.master
  let st := m.cam n
  match st.slots with
  | [] => m.unsolicited n
  | s :: t =>
    let m2 := m.setCam n { st with slots := t, matched := st.matched + 1 }
    if !s.pending then
      if s.quiet then m2 else (m2.setFlag (F.CXP_LINK_STAT_late_drop n)).bump (R.CXP_CNT_LATE n)
    else if m.camState c = stRejected then m2.voidSlot c s
    else
      let x : InLine := { idx := s.idx, count := s.count, tb3 := s.tb3, got := true, bits := c.bits,
                          samples := some (samples.take (c.width * c.planes)) }
      (m2.writeLineRec c x).pipeLine (m2.camGang c) x

/-- LINE_COMPLETE (R75, R76): a line that has passed the checks of R79 is complete. `samples` are its samples in the order of
R262, fewer than the camera's width gives where its line-size field was smaller; `io` what its capture-memory requests meet.
(Log: 56 DEDUCED.) -/
def lineComplete (dt n : Nat) (samples : List Nat) (io : LineIo) (m0 : Chip) : Chip :=
  let m := elapse dt m0
  match m.camOf n with
  | none => m
  | some c =>
    if m.camState c = stCapture then m.captureLine c samples
    else m.linePaced (m.camGang c) io fun m => (m.expireSlots c).matchLine c samples

/-! ### Stream packets (R79) -/

/-- Lines covered by discarded or missing packets are dropped with their slots; order is lost where their number cannot be
found. -/
def Chip.linesLost (c : CameraRec) (lost : Option Nat) (m : Chip) : Chip :=
  match lost with
  | some k => m.dropSlots c k
  | none => m.orderLost c

/-- The tags ahead that follow on from `n` are taken in: the next tag expected, the tags still ahead. -/
def tagRun (n : Nat) (ahead : List Nat) : Nat × List Nat :=
  (upTo 64).foldl (fun (a : Nat × List Nat) _ => if a.2.contains a.1 then ((a.1 + 1) % 256, a.2.erase a.1) else a) (n, ahead)

/-- Declare the oldest gap lost, again until `tag` lies within the window (R79): the next tag expected, the tags still ahead. -/
def tagSkip (tag : Nat) : Nat → Nat → List Nat → Nat × List Nat
  | 0, n, ahead => (n, ahead)
  | fuel + 1, n, ahead =>
    let d := (tag + 256 - n) % 256
    if d < 64 then (n, ahead)
    else
      let (n1, ahead1) := tagRun ((n + ahead.foldl (fun a x => min a ((x + 256 - n) % 256)) d) % 256) ahead
      tagSkip tag fuel n1 ahead1

/-- The packet tags of a camera after a packet (R79): the next tag expected, the tags ahead of it, whether lines are lost, whether the
window overflowed; `none` for a tag already accepted within the window, which `seen` and `ahead` hold. A tag behind the window's start
that was never accepted is no duplicate; it moves nothing.
(Log: 56 DEDUCED.) -/
def tagStep (bonded : Bool) (next : Option Nat) (ahead seen : List Nat) (tag : Nat) (skip : Bool) :
    Option (Nat × List Nat × Bool × Bool) :=
  if ahead.contains tag ∨ seen.contains tag then none
  else match next with
    | none => some ((tag + 1) % 256, [], false, false)
    | some n =>
      let d := (tag + 256 - n) % 256
      if d = 0 then
        let (a, l) := tagRun ((n + 1) % 256) ahead
        some (a, l, false, false)
      else if 192 ≤ d then some (n, ahead, false, false)
      else if !bonded then some ((tag + 1) % 256, [], false, false)
      else if skip then
        let (a, l) := tagRun ((tag + 1) % 256) (ahead.filter fun x => decide (d < (x + 256 - n) % 256))
        some (a, l, true, false)
      else if d < 64 then some (n, ahead ++ [tag], false, false)
      else
        let (a, l) := tagSkip tag 64 n ahead
        let (b, k) := if a = tag then tagRun ((a + 1) % 256) l else (a, l ++ [tag])
        some (b, k, true, true)

/-- The tags accepted within the window behind `next` (R79). -/
def tagsSeen (next tag : Nat) (seen : List Nat) : List Nat := (seen ++ [tag]).filter fun x => decide ((next + 256 - x) % 256 ≤ 64)

/-- An image header is one the camera record allows (R79).
(Log: 56 DEDUCED.) -/
def Chip.headerOk (m : Chip) (c : CameraRec) (h : ImgHeader) : Bool :=
  decide (h.width ≤ 16384) &&
    h.pixelFormat == c.pixelFormat && h.tapGeometry == c.tapGeometry &&
    (if h.area then m.camState c == stCapture && decide (h.height ≤ 4096) else h.width == c.width)

/-- Show the geometry of an accepted header (R90). -/
def Chip.showHeader (c : CameraRec) (h : ImgHeader) (m : Chip) : Chip :=
  ((((m.put (F.CXP_CAM_INFO_valid c.master) 1).put (F.CXP_CAM_INFO_planes c.master) (h.planes - 1)).put (F.CXP_CAM_INFO_bits c.master)
    h.bits).put (F.CXP_CAM_INFO_width c.master) h.width)

/-- A header: an accepted one ends bring-up (R66 step 8) or a header rejection, each with a synchronising reset (R99); in calibration
capture it begins an image (R84). Another rejects the stream (R79). -/
def Chip.headerIn (c : CameraRec) (link : Nat) (h : ImgHeader) (m : Chip) : Chip :=
  if m.headerOk c h then
    if m.camState c = stAwaiting ∨ m.camState c = stRejected then
      ((m.setCamState c stStreaming).showHeader c h).syncReset (m.camGang c)
    else if m.camState c = stStreaming then m.showHeader c h
    else m.setCam c.master { m.cam c.master with cal := (m.cam c.master).cal.map fun k =>
      { k with rejected := false, width := h.width, left := if h.area then some h.height else none } }
  else
    let m1 := (m.setFlag (F.CXP_LINK_STAT_hdr_reject link)).bump (R.CXP_CNT_HDR_REJ c.master)
    let m2 := m1.setCam c.master { m1.cam c.master with cal := (m1.cam c.master).cal.map fun k => { k with rejected := true } }
    if m.camState c = stStreaming then m2.setCamState c stRejected else m2

/-- An oversized line-size field (R79): the rest of the strip of the line it belongs to is dropped. -/
def Chip.sizeDrop (c : CameraRec) (link : Nat) (m : Chip) : Chip :=
  let n := c.master
  let st := m.cam n
  let m1 := m.setFlag (F.CXP_LINK_STAT_size_drop link)
  match st.slots with
  | [] => m1
  | s :: _ =>
    let strip := s.idx / m.rowLines c.row
    if st.dropStrip = some strip then m1
    else
      let mine (x : TrigSlot) : Bool := x.idx / m.rowLines c.row == strip
      let slots := st.slots.map fun x => if mine x then { x with pending := false, quiet := x.quiet || x.pending } else x
      let m2 := (m1.bump (R.CXP_CNT_SIZE_DROP n)).setCam n { st with dropStrip := some strip, slots }
      forAll (st.slots.filter fun x => mine x && x.pending) (fun x m => m.voidLine c x.idx x.count x.tb3 true) m2

/-- STREAM_PACKET (R79): the checks of the table in order.
(Log: 56 DEDUCED.) -/
def streamPacket (dt : Nat) (k : StreamPkt) (m0 : Chip) : Chip :=
  let m := elapse dt m0
  match m.camOfLink k.link with
  | none => m
  | some c =>
    let n := c.master
    let st := m.camState c
    if st ≠ stAwaiting ∧ st ≠ stStreaming ∧ st ≠ stRejected ∧ st ≠ stCapture then m
    else if !k.crcOk then ((m.setFlag (F.CXP_LINK_STAT_crc_err k.link)).bump (R.CXP_CNT_CRC k.link)).linesLost c k.lost
    else if !k.idOk then m.unsolicited k.link
    else match tagStep (decide (1 < c.links)) (m.cam n).tagNext (m.cam n).ahead (m.cam n).seen (k.tag % 256) k.skip with
      | none => (m.setFlag (F.CXP_LINK_STAT_dup_tag k.link)).bump (R.CXP_CNT_DUP k.link)
      | some (next, ahead, lost, ovf) =>
        let s := m.cam n
        let times : CamState := { s with hdrTime := (k.header.bind (·.time)).orElse fun _ => s.hdrTime,
                                         lineTime := k.lineTime.orElse fun _ => s.lineTime }
        let m1 := (m.setCam n { times with tagNext := some next, ahead, seen := tagsSeen next (k.tag % 256) s.seen }).setFlagIf ovf (F.CXP_LINK_STAT_deskew_overflow k.link)
        let m2 := if lost then m1.linesLost c k.lost else m1
        let badHeader := match k.header with
          | some h => !m2.headerOk c h
          | none => false
        let m3 := match k.header with
          | some h => m2.headerIn c k.link h
          | none => m2
        let tooLong := match k.lineSize with
          | some w => decide (c.width < w) || decide (16384 < w)
          | none => false
        let beyond := tooLong && st != stCapture
        let m4 := if beyond then m3.sizeDrop c k.link else m3
        let m5 := if k.event then (m4.setFlag (F.CXP_LINK_STAT_event_discard k.link)).bump (R.CXP_CNT_EVENT k.link) else m4
        m5.bumpIf (!badHeader && !beyond && !k.event) (R.CXP_CNT_PKT k.link)

/-! ### Control channel (R81, R82), heartbeat (R83), audit (R77) -/

/-- `a - b` modulo 2³². -/
def sub32 (a b : Nat) : Nat := (a % 2 ^ 32 + 2 ^ 32 - b % 2 ^ 32) % 2 ^ 32

/-- The value of the trigger counter arrives (R77).
(Log: 55 DEDUCED.) -/
def Chip.auditAck (c : CameraRec) (v : Nat) (m : Chip) : Chip :=
  let n := c.master
  let st := m.cam n
  match st.tB with
  | none => m
  | some b =>
    let k := sub32 v st.base
    if sub32 st.sent b < sub32 k b then m.orderLost c
    else m.setCam n { st with readC := some k, checkAt := m.now + m.get (F.CXP_TIMING_CFG_line_timeout n) * 1000 }

/-- CONTROL_ACK (R79, R82): the acknowledge ends the command of its tag; a maintainer's brings the value to the requester, the discovery
read's takes bring-up to step 3, the audit's brings the counter. -/
def controlAck (dt n tag value : Nat) (m0 : Chip) : Chip :=
  let m := elapse dt m0
  let st := m.cam n
  match st.ctrl.find? (fun c => c.tag == tag), m.camOf n with
  | some k, some c =>
    let m1 := m.setCam n { st with ctrl := st.ctrl.erase k }
    match k.sender with
    | .bringUp => m1
    | .maintainer => m1.emit (.send "service" n "camera value" [tag, value])
    | .discovery => if m1.camState c = stDiscovering then m1.readBootstrap c else m1
    | .audit => m1.auditAck c value
  | _, _ => m.unsolicited n

/-- Commands that have gone unacknowledged after three resends (R82): a failure during bring-up fails the step, a maintainer's is reported
to its requester, an audit's read is given up.
(Log: 55 DEDUCED.) -/
def Chip.ctrlDead (c : CameraRec) (dead : List CtrlCmd) (m : Chip) : Chip :=
  let n := c.master
  if dead.isEmpty then m
  else
    let has (b : CtrlBy) : Bool := dead.any fun k => k.sender == b
    let m1 := m.setFlag (F.CXP_LINK_STAT_ctrl_timeout n)
    let m2 := forAll (dead.filter fun k => k.sender == .maintainer) (fun k m =>
      m.emit (.send "service" n "camera command failed" [k.tag])) m1
    let m3 := if has .audit then m2.setCam n { m2.cam n with tB := none, readC := none } else m2
    if has .bringUp ∧ (m3.camState c = stConfiguring ∨ m3.camState c = stAwaiting) then m3.bringUpFails c else m3

/-- CONTROL_RESEND (R82): commands without acknowledge for 50 ms are sent again with their tag, three times; then they time
out. The discovery read is repeated by R66 instead.
(Log: 125 DEDUCED.) -/
def controlResend (dt n : Nat) (m0 : Chip) : Chip :=
  let m := elapse dt m0
  match m.camOf n with
  | none => m
  | some c =>
    let st := m.cam n
    let due (k : CtrlCmd) : Bool := k.sender != .discovery && decide (k.sentAt + 50000000 ≤ m.now)
    let dead := st.ctrl.filter fun k => due k && decide (3 ≤ k.resends)
    let kept := (st.ctrl.filter fun k => !(due k && decide (3 ≤ k.resends))).map fun k =>
      if due k then { k with resends := k.resends + 1, sentAt := m.now } else k
    let m1 := forAll (st.ctrl.filter fun k => due k && decide (k.resends < 3)) (fun k m => m.emit (.send "cxp" n "resend" [k.tag]))
      (m.setCam n { st with ctrl := kept })
    m1.ctrlDead c dead

/-- CXP_HEARTBEAT (R83): every hb_ms a heartbeat with TB0 on the master uplink. -/
def cxpHeartbeat (dt n : Nat) (m0 : Chip) : Chip :=
  let m := elapse dt m0
  match m.camOf n with
  | none => m
  | some _ =>
    if m.now < (m.cam n).heartAt + m.get (F.CXP_TIMING_CFG_hb_ms n) * 1000000 then m
    else (m.setCam n { m.cam n with heartAt := m.now }).emit (.send "cxp" n "heartbeat" [m.tb0])

/-- TRIGGER_COUNTER_AUDIT (R77).
(Log: 55 DEDUCED.) -/
def triggerCounterAudit (dt n : Nat) (ph : AuditPhase) (m0 : Chip) : Chip :=
  let m := elapse dt m0
  match m.camOf n with
  | none => m
  | some c =>
    let st := m.cam n
    if c.trigCnt = 0xFFFFFFFF ∨ !m.camStreams c then m
    else match ph with
      | .start =>
        if m.now < st.auditAt + 1000000000 ∨ st.tB.isSome then m
        else (m.setCam n { st with tB := some st.sent, auditAt := m.now, readC := none }).sendCtrl c "read counter" [c.trigCnt] .audit
      | .ack v => (m.setCam n { st with ctrl := st.ctrl.filter fun k => k.sender != .audit }).auditAck c v
      | .check =>
        match st.readC with
        | none => m
        | some k =>
          if m.now < st.checkAt then m
          else
            let short := decide (2 ^ 31 ≤ sub32 st.matched k)
            let cnt := if short then st.shortfalls + 1 else 0
            let m1 := m.setCam n { st with tB := none, readC := none, shortfalls := cnt }
            if 3 ≤ cnt then m1.orderLost c else m1

/-- CAMERA_CONTROL_COMMAND (R81): a signed maintainer command reads or writes a camera register, a 32-bit value at a 32-bit address; it is
refused while the camera is down or in bring-up before its header is awaited.
(Log: 124 DESIGN CHOICE.) -/
def cameraControlCommand (dt : Nat) (a : Auth) (n : Nat) (write : Bool) (addr value : Nat) (m0 : Chip) : Chip :=
  (elapse dt m0).signed false false a fun m =>
    match m.camOf n with
    | none => (false, m)
    | some c =>
      if m.camStreams c ∨ m.camState c = stAwaiting ∨ m.camState c = stCapture then
        (true, m.sendCtrl c (if write then "write" else "read") [addr % 2 ^ 32, value % 2 ^ 32] .maintainer)
      else (false, m)

/-! ### Calibration capture (R84) -/

/-- CAL_CAPTURE_ENTER (R84): refused unless every job that consumes one of the camera's streams is disabled; refused too while the camera
does not stream, and for a region beyond the capacity of capture memory.
(Log: 56 DEDUCED, 124 DESIGN CHOICE.) -/
def calCaptureEnter (dt : Nat) (a : Auth) (n base len trig : Nat) (m0 : Chip) : Chip :=
  (elapse dt m0).signed false false a fun m =>
    match m.camOf n with
    | none => (false, m)
    | some c =>
      let busy := m.stick.jobs.any fun j => j.rows.contains c.row && m.flag (F.RC_JOB_CTRL_enable j.job)
      if busy || !m.camStreams c || decide (Config.cmBytes < base + len) then (false, m)
      else
        let m1 := (m.emptySlots c).setCamState c stCapture
        (true, (m1.setCam n { m1.cam n with cal := some { base, len, width := c.width } }).emit (.send "cxp" n "calibration trigger" [trig]))

/-- CAL_CAPTURE_LEAVE: leaving is a camera reconnect. -/
def calCaptureLeave (dt : Nat) (a : Auth) (n : Nat) (m0 : Chip) : Chip :=
  (elapse dt m0).signed false false a fun m =>
    match m.camOf n with
    | none => (false, m)
    | some c => if m.camState c = stCapture then (true, m.beginBringUp c 3 true) else (false, m)

/-! ### The meanings of the commands -/

/-- CAMERA_BRING_UP (R66). -/
def execCameraBringUp (dt n : Nat) (r : CamReply) (s : State) : Answer :=
  onUnit (decide (n < Config.links)) dt (cameraBringUp dt n r) s
/-- DISCOVERY_POLL (R66). -/
def execDiscoveryPoll (dt n : Nat) (acked : Bool) (s : State) : Answer :=
  onUnit (decide (n < Config.links)) dt (discoveryPoll dt n acked) s
/-- BRING_UP_STEP_TIMEOUT (R68). -/
def execBringUpStepTimeout (dt n : Nat) (s : State) : Answer :=
  onUnit (decide (n < Config.links)) dt (bringUpStepTimeout dt n) s
/-- BRING_UP_RETRY (R68). -/
def execBringUpRetry (dt n : Nat) (s : State) : Answer :=
  onUnit (decide (n < Config.links)) dt (bringUpRetry dt n) s
/-- CAMERA_LINK_LOST (R69). -/
def execCameraLinkLost (dt link : Nat) (s : State) : Answer :=
  onUnit (decide (link < Config.links)) dt (cameraLinkLost dt link) s
/-- RECONNECT (R86). -/
def execReconnect (dt n : Nat) (s : State) : Answer :=
  onUnit (decide (n < Config.links)) dt (reconnect dt n) s
/-- LINK_HOLD (R86). -/
def execLinkHold (dt link : Nat) (hold : Bool) (s : State) : Answer :=
  onUnit (decide (link < Config.links)) dt (linkHold dt link hold) s
/-- POC_FAULT (R70). -/
def execPocFault (dt link : Nat) (s : State) : Answer :=
  onUnit (decide (link < Config.links)) dt (pocFault dt link) s
/-- POC_REENABLE (R70). -/
def execPocReenable (dt link : Nat) (s : State) : Answer :=
  onUnit (decide (link < Config.links)) dt (pocReenable dt link) s
/-- POC_CLEAR (R86). -/
def execPocClear (dt link : Nat) (s : State) : Answer :=
  onUnit (decide (link < Config.links)) dt (pocClear dt link) s
/-- TRIGGER_DUE (R72). -/
def execTriggerDue (dt n : Nat) (io : LineIo) (s : State) : Answer :=
  onUnit (decide (n < Config.links)) dt (triggerDue dt n io) s
/-- STREAM_PACKET (R79). -/
def execStreamPacket (dt : Nat) (k : StreamPkt) (s : State) : Answer :=
  onUnit (decide (k.link < Config.links)) dt (streamPacket dt k) s
/-- LINE_COMPLETE (R75). -/
def execLineComplete (dt n : Nat) (samples : List Nat) (io : LineIo) (s : State) : Answer :=
  onUnit (decide (n < Config.links)) dt (lineComplete dt n samples io) s
/-- LINE_TIMEOUT (R75). -/
def execLineTimeout (dt n : Nat) (io : LineIo) (s : State) : Answer :=
  onUnit (decide (n < Config.links)) dt (lineTimeout dt n io) s
/-- CONTROL_ACK (R82). -/
def execControlAck (dt n tag value : Nat) (s : State) : Answer :=
  onUnit (decide (n < Config.links)) dt (controlAck dt n tag value) s
/-- CONTROL_RESEND (R82). -/
def execControlResend (dt n : Nat) (s : State) : Answer :=
  onUnit (decide (n < Config.links)) dt (controlResend dt n) s
/-- CXP_HEARTBEAT (R83). -/
def execCxpHeartbeat (dt n : Nat) (s : State) : Answer :=
  onUnit (decide (n < Config.links)) dt (cxpHeartbeat dt n) s
/-- TRIGGER_COUNTER_AUDIT (R77). -/
def execTriggerCounterAudit (dt n : Nat) (ph : AuditPhase) (s : State) : Answer :=
  onUnit (decide (n < Config.links)) dt (triggerCounterAudit dt n ph) s
/-- CAMERA_CONTROL_COMMAND (R81). -/
def execCameraControlCommand (dt : Nat) (a : Auth) (n : Nat) (write : Bool) (addr value : Nat) (s : State) : Answer :=
  onUnit (decide (n < Config.links)) dt (cameraControlCommand dt a n write addr value) s
/-- CAL_CAPTURE_ENTER (R84). -/
def execCalCaptureEnter (dt : Nat) (a : Auth) (n base len trig : Nat) (s : State) : Answer :=
  onUnit (decide (n < Config.links)) dt (calCaptureEnter dt a n base len trig) s
/-- CAL_CAPTURE_LEAVE (R84). -/
def execCalCaptureLeave (dt : Nat) (a : Auth) (n : Nat) (s : State) : Answer :=
  onUnit (decide (n < Config.links)) dt (calCaptureLeave dt a n) s

end Sys2Proof.Machine
end

