-- ==== Sys2Proof/Machine/PipeCmds.lean ====
section
/-!
DEFINITION. Sys2Proof/Machine/PipeCmds.lean: the commands of the line pipelines (R14, R33, R99, R112 to R129).
-/
namespace Sys2Proof.Machine

/-! ### Strips -/

/-- The flags of a slot header (R114). -/
def headerFlags (o : OpenStrip) (incomplete : Bool) : Nat :=
  b2n incomplete + 2 * b2n (bitN o.orFlags 0) + 4 * b2n (bitN o.orFlags 2) + 8 * b2n (bitN o.orFlags 4) + 16 * b2n o.overflow +
    32 * b2n o.routeCommit + 64 * b2n o.replay + 128 * b2n (bitN o.orFlags 1) + 256 * b2n (bitN o.orFlags 6)

/-- The 48-byte header of a strip slot (R114). -/
def Chip.slotHeader (m : Chip) (r bay : Nat) (o : OpenStrip) (incomplete : Bool) : List Byte :=
  leBytes 8 o.strip ++ leBytes 8 bay ++ leBytes 8 o.tb3First ++ leBytes 6 (unsignedOf 48 o.countFirst) ++
    leBytes 2 (headerFlags o incomplete) ++ leBytes 2 (m.rowLines r) ++ leBytes 2 o.voidLines ++ leBytes 1 r ++
    leBytes 1 (m.rowOverlap r) ++ leBytes 2 0 ++ leBytes 8 o.tb3Last

/-- The pixels of a slot's flag planes that carry void or dropped, overlap lines included: level, line from the level's first own line,
column (R205). -/
def Chip.slotVoids (m : Chip) (r slot : Nat) : List (Nat × Int × Nat) :=
  (upTo 4).flatMap fun l => (upTo (m.slotLines r l)).flatMap fun k => (upTo (m.levelWidth r l)).filterMap fun x =>
    if m.slotFlag r slot l k x % 4 = 0 then none else some (l, (k : Int) - (m.rowOverlap r / 2 ^ l : Nat), x)

/-- The bay a strip closes in (R14): that of TB3 now. -/
def Chip.closingBay (m : Chip) : Nat := m.tb3 / m.period

/-- Strip `o` of row `r` closes (R14, R33, R112, R117). Beyond the m batch slots of its bay it is marked incomplete (R33). A bank or
route written for the boundary takes effect on the row's pipelines that have reached it. Before bays run, a strip has no bay and
is dropped with its slot. A leader sends the header of a fed row to its follower (R442).
(Log: 61 DEDUCED.) -/
def Chip.closeStrip (r : Nat) (o : OpenStrip) (m : Chip) : Chip :=
  let rp := m.rowPipe r
  let gs := m.rowGangs r
  let next := o.strip + 1
  let bound (m : Chip) : Chip := forAll gs (fun g m =>
    let p := m.pipe g.master
    if p.strip == some o.strip && p.nextIn == some (next * m.rowLines r) then m.stripBoundary g next else m) m
  if !m.bays.running then bound (m.setRowPipe r { rp with held := rp.held.filter fun h => some h.1 != o.slot })
  else
    let bay := m.closingBay
    let same := (m.fire.closed.filter fun c => c.row == r && c.closeBay == bay && c.slot.isSome && !c.beyond).length
    let beyond := o.slot.isSome && decide ((m.rowRec r).slots ≤ same)
    let incomplete := o.cut.isSome || beyond
    let jobs := (m.stick.jobs.filter fun j => j.verdict && j.rows.contains r && m.processes j.job bay).map (·.job)
    let c : ClosedStrip := { row := r, strip := o.strip, closeBay := bay, firstCount := o.countFirst, lastCount := o.countLast,
                             cutFrom := if o.overflow && o.slot.isNone then some o.countFirst else o.cutCount, incomplete,
                             slot := o.slot, voids := ((o.slot.map (m.slotVoids r)).getD []), beyond, jobs, streams := m.rowStreams r, replay := decide (8 ≤ r) }
    let hdr := m.slotHeader r bay o incomplete
    let m1 := (match o.slot with
      | some s => m.putBytes (m.slotAddr r s) hdr
      | none => m).feedHeader r hdr
    let m1b : Chip := { m1 with boot := { m1.boot with stripBay := some (m1.boot.stripBay.getD bay) } }
    let m2 := (m1b.setRowPipe r { rp with held := rp.held.map fun h => if some h.1 = o.slot then (h.1, some bay) else h }).onFire
      fun f => { f with closed := f.closed ++ [c] }
    let m3 := m2.setFlagIf beyond F.RC_BAY_STAT_oversubscribed
    let m4 := forAll gs (fun g m =>
      let m1 := m.bump (R.LP_CNT_STRIPS g.master)
      if incomplete then (m1.bump (R.LP_CNT_INCOMPLETE g.master)).lpFlag g F.LP_STAT_incomplete else m1) m3
    bound m4

/-- STRIP_CLOSE (R14): the row's oldest strip with all its lines written closes. A fed row of a follower closes its strips at
boundaries instead (R443). -/
def stripClose (dt r : Nat) (m0 : Chip) : Chip :=
  let m := elapse dt m0
  let rp := m.rowPipe r
  match rp.full with
  | [] => m
  | o :: t => if m.fedRow r then m else (m.setRowPipe r { rp with full := t }).closeStrip r o

/-- At the boundary that begins bay `b`, a follower closes the strips of its fed rows whose leader closed them `lag` bays before; one
that is not complete is marked so (R443). -/
def Chip.fedBoundary (b : Nat) (m : Chip) : Chip :=
  forAll (upTo Config.rows) (fun r m =>
    forAll ((m.rowPipe r).fedClose.filter fun x => x.2 == b) (fun x m =>
      let rp := m.rowPipe r
      let rp1 := { rp with fedClose := rp.fedClose.erase x }
      match rp.full.find? fun o => o.strip == x.1 with
      | some o => (m.setRowPipe r { rp1 with full := rp.full.filter fun o => o.strip != x.1 }).closeStrip r o
      | none => match rp.cur with
        | some o =>
          if o.strip = x.1 then
            (m.setRowPipe r { rp1 with cur := none }).closeStrip r { o with cut := some (o.cut.getD (o.strip * m.rowLines r + o.done)) }
          else m.setRowPipe r rp1
        | none => m.setRowPipe r rp1) m) m

/-- At the boundary that begins bay `b`, the slots of strips closed before bay b − 1 are released (R112). -/
def Chip.releaseSlots (b : Nat) (m : Chip) : Chip :=
  forAll (upTo Config.rows) (fun r m =>
    let rp := m.rowPipe r
    m.setRowPipe r { rp with held := rp.held.filter fun h => match h.2 with
      | some k => decide (b < k + 2)
      | none => true }) m

/-- A warm or cold reset of the pipelines (R112, R489, R492): their state, their rings' slots and their strips are lost;
counters and banks stand. -/
def Chip.resetPipes (m : Chip) : Chip :=
  let keep (p : PipeState) : PipeState := { calA := p.calA, calB := p.calB, bankB := p.bankB, route := p.route, channel := p.channel, snapRec := p.snapRec }
  { m with pipes := m.pipes.filterMap (fun q => if keep q.2 = {} then none else some (q.1, keep q.2)), rowPipes := [] }

/-! ### Resets, routes and banks -/

/-- SYNC_RESET (R99, R115): on any pipeline of a gang. -/
def syncResetWrite (n : Nat) (m : Chip) : Chip :=
  match m.gangOfPipe n with
  | none => m
  | some g => m.syncReset g

/-- A write of src_sel and replay_ch (R115, R116): a source that the story stick does not list is refused. -/
def Chip.routeWrite (n src ch : Nat) (m : Chip) : Bool × Chip :=
  match m.gangOfPipe n with
  | none => (false, m)
  | some g =>
    if m.stick.sources.any fun s => s.1 == g.master && s.2.1 == src && (src != 1 || s.2.2 == ch) then
      (true, (m.onGang g fun k m => (m.put (F.LP_CTRL_src_sel k) src).put (F.LP_CTRL_replay_ch k) ch).showPipe g)
    else (false, m.lpFlag g F.LP_STAT_route_refused)

/-- ROUTE_CHANGE_WRITE (R116, R117): a signed write of src_sel and replay_ch; a source the story stick does not list is
refused. -/
def routeChangeWrite (dt : Nat) (a : Auth) (n src ch : Nat) (m0 : Chip) : Chip :=
  (elapse dt m0).signed false false a fun m => m.routeWrite n src ch

/-- Put a record into a bank of a gang (R123, R127). -/
def Chip.putCal (g : Gang) (bankB : Bool) (c : CalRec) (m : Chip) : Chip :=
  let p := m.pipe g.master
  let m1 := m.setPipe g.master (if bankB then { p with calB := some c } else { p with calA := some c })
  m1.onGang g fun n m =>
    if bankB then (m.wr (R.LP_CAL_ID_B n) (BitVec.ofNat 32 c.id)).put (F.LP_STAT_cal_b_full n) 1
    else (m.wr (R.LP_CAL_ID_A n) (BitVec.ofNat 32 c.id)).put (F.LP_STAT_cal_a_full n) 1

/-- CAL_LOAD (R122, R123): a record into the inactive bank; refused for the active bank or when it fails its checks. -/
def calLoad (dt : Nat) (a : Auth) (n : Nat) (bankB : Bool) (bytes : List Byte) (m0 : Chip) : Chip :=
  (elapse dt m0).signed false false a fun m =>
    match m.gangOfPipe n with
    | none => (false, m)
    | some g =>
      if (m.pipe g.master).bankB == bankB || !calOk g.width g.planes bytes then (false, m.lpFlag g F.LP_STAT_cal_refused)
      else (true, m.putCal g bankB (parseCal bytes))

/-! ### Replay (R118, R119, R129) -/

def Chip.rplState (m : Chip) (ch : Nat) : Nat := m.get (F.LP_RPL_STAT_state ch)

/-- The gangs whose written source is a replay channel (R118). -/
def Chip.replayTargets (m : Chip) (ch : Nat) : List Gang :=
  m.gangs.filter fun g => m.get (F.LP_CTRL_src_sel g.master) == 1 && m.get (F.LP_CTRL_replay_ch g.master) == ch

/-- The gangs that a line of a replay channel reaches: those whose route in force is the channel, which finish their strip on it, and
those whose written source it is (R117). -/
def Chip.replayGangs (m : Chip) (ch : Nat) : List Gang :=
  m.gangs.filter fun g => ((m.pipe g.master).route == 1 && (m.pipe g.master).channel == ch) ||
    (m.get (F.LP_CTRL_src_sel g.master) == 1 && m.get (F.LP_CTRL_replay_ch g.master) == ch)

/-- A record with an ID in a bank of a gang. -/
def calById (p : PipeState) (id : Nat) : Option CalRec :=
  firstSome (fun c => if c.id = id then some c else none) (p.calA.toList ++ p.calB.toList)

/-- The conditions of R118 on a start; none where it is refused. The replay is refused too while the channel plays, and for
strips recorded under an earlier key (R258).
(Log: 62 DEDUCED.) -/
def Chip.replayCheck (m : Chip) (ch cam first last calId rate : Nat) : Option (CameraRec × Gang) :=
  match m.camOf cam, m.replayTargets ch with
  | some c, [g] =>
    let lines := m.rowLines g.row
    let idOk := match m.findLine c (first * lines) with
      | some a => m.numAt (a + 0x18) 4 == calId
      | none => true
    let keyOk := match (m.cam cam).keyIdx with
      | some i => decide (i < first * lines)
      | none => true
    if g.width = c.width ∧ g.planes = c.planes ∧ 8 ≤ g.row ∧ rate ≤ min 200000 (m.rowRec g.row).rpsMax ∧ first ≤ last ∧
        m.rplState ch = 0 && idOk && keyOk then some (c, g) else none
  | _, _ => none

/-- Restore the temporal state of a snapshot record (R118, R263). -/
def Chip.restoreSnap (g : Gang) (a : Nat) (m : Chip) : Chip :=
  let s := (upTo g.width).map fun j => (upTo g.planes).map fun q => m.numAt (a + 64 + 4 * (j * g.planes + q)) 4
  m.setPipe g.master { m.pipe g.master with s, n := m.numAt (a + 16) 1, resetDue := false }

/-- REPLAY_START (R118): the command names channel, recorded camera, first and last strip, calibration record and rate. The
destination restores the snapshot of strip first − 1, which is played as lead-in; without one it starts with a synchronising
reset. A named record that stands in no bank is not refused: the record of the active bank stays in force.
(Log: 62 DEDUCED, 123 DESIGN CHOICE.) -/
def replayStart (dt : Nat) (a : Auth) (ch cam first last calId rate : Nat) (m0 : Chip) : Chip :=
  (elapse dt m0).signed false false a fun m =>
    match m.replayCheck ch cam first last calId rate with
    | none => (false, m)
    | some (c, g) =>
      let L := m.rowLines g.row
      let rc := (calById (m.pipe cam) calId).orElse fun _ => calById (m.pipe g.master) calId
      let p := m.pipe g.master
      let p1 : PipeState := { calA := p.calA, calB := p.calB, bankB := p.bankB, route := p.route, channel := p.channel, s := p.s,
                              n := p.n, snapRec := p.snapRec }
      let m1 := (m.setPipe g.master p1).setRowPipe g.row { floor := some first, held := (m.rowPipe g.row).held, nextSlot := (m.rowPipe g.row).nextSlot }
      let m2 := match rc with
        | some r => m1.putCal g p.bankB r
        | none => m1
      let m3 := m2.stripBoundary g (first - 1)
      let m4 := match (if first = 0 then none else m3.findSnap c (first - 1)) with
        | some a => m3.restoreSnap g a
        | none => (m3.syncReset g).setFlag (F.LP_RPL_STAT_no_snapshot ch)
      let m5 := ((((m4.wr64 (R.LP_RPL_FIRST_LO ch) (R.LP_RPL_FIRST_HI ch) first).wr64 (R.LP_RPL_LAST_LO ch) (R.LP_RPL_LAST_HI ch) last).put
        (F.LP_RPL_RATE_rate ch) rate).put (F.LP_RPL_STAT_state ch) (if first = 0 then 2 else 1))
      (true, m5.setReplayCh ch { camera := cam, target := g.master, first, last, next := (first - 1) * L })

/-- When the channel's next line is due, in ns of TB2 (R118): at the rate, or at the recorded spacing. -/
def Chip.replayDue (m : Chip) (ch : Nat) (tb3 : Option Nat) : Nat :=
  let st := m.replayCh ch
  let rate := m.get (F.LP_RPL_RATE_rate ch)
  match st.lastAt with
  | none => 0
  | some t =>
    if 0 < rate then t + 1000000000 / rate
    else match tb3 with
      | some x => t + (x - st.lastTb3)
      | none => t

/-- The channel stops: idle. -/
def Chip.replayEnd (ch : Nat) (done : Bool) (m : Chip) : Chip :=
  ((m.put (F.LP_RPL_STAT_state ch) 0).setFlagIf done (F.LP_RPL_STAT_done ch)).setReplayCh ch {}

/-- REPLAY_LINE (R119): the channel plays its next recorded line when it is due. A line that has been overwritten, or whose
read cannot be corrected (R259), is played as void with the dropped flag; the trigger time of an overwritten line is not
recorded any more, a free value. A stopped replay ends at the strip boundary, without the lead lines of its last strip.
(Log: 62 DEDUCED, 123 DESIGN CHOICE.) -/
def replayLine (dt ch : Nat) (io : LineIo) (m0 : Chip) : Chip :=
  let m := elapse dt m0
  let st := m.replayCh ch
  match m.camOf st.camera, m.gangOf st.target with
  | some c, some g =>
    let L := m.rowLines g.row
    let found := m.findLine c st.next
    let tb3 := found.map fun a => m.numAt (a + 0x10) 8
    if m.rplState ch = 0 ∨ m.now < m.replayDue ch tb3 then m
    else if m.rplState ch = 3 ∧ st.next % L = 0 then m.replayEnd ch false
    else
      let ue := match found with
        | some a => io.cmUe.any fun x => decide (a / 64 ≤ cmAddr x / 64) && decide (cmAddr x < a + lineStride c)
        | none => false
      let cnt : Int := m.get (F.CXP_TRIG_PHASE_phase c.master) + (st.next : Int) * max 1 (m.get (F.CXP_TRIG_CFG_divider c.master))
      let (v, m1) := if found.isNone then m.draw else (0, m)
      let x : InLine := match found with
        | some a =>
          let fl := m.numAt (a + 0x0E) 2
          let e := sampleBytes c.bits
          let data := (upTo (m.numAt (a + 0x1C) 4 / e)).map fun i => m.numAt (a + 64 + i * e) e
          { idx := st.next, count := signedOf 48 (m.numAt (a + 8) 6), tb3 := tb3.getD 0, bits := c.bits,
            samples := if bitN fl 0 || ue then none else some data, dropped := bitN fl 1 || ue, cut := bitN fl 1 }
        | none => { idx := st.next, count := cnt, tb3 := v % 2 ^ 64, dropped := true }
      let m2 := if found.isNone || ue then (m1.bump (R.LP_RPL_LOST ch)).setFlag (F.LP_RPL_STAT_lost ch) else m1
      let m3 := m2.linePaced g io fun m => forAll (m.replayGangs ch) (fun t m => m.replayLineTo ch t x) m
      let m4 := m3.setReplayCh ch { st with next := st.next + 1, lastAt := some m.now, lastTb3 := tb3.getD st.lastTb3 }
      let m5 := if st.next + 1 = st.first * L ∧ m.rplState ch = 1 then m4.put (F.LP_RPL_STAT_state ch) 2 else m4
      if st.next + 1 = (st.last + 1) * L + leadSpan (m5.calOf g) then m5.replayEnd ch true else m5
  | _, _ => m

/-- REPLAY_STOP (R129): the replay stops at the next strip boundary. -/
def replayStop (ch : Nat) (m : Chip) : Chip := if m.rplState ch = 0 then m else m.put (F.LP_RPL_STAT_state ch) 3

/-! ### The meanings of the commands -/

/-- STRIP_CLOSE (R14). -/
def execStripClose (dt r : Nat) (s : State) : Answer :=
  onUnit (decide (r < Config.rows)) dt (stripClose dt r) s
/-- SYNC_RESET (R99). -/
def execSyncReset (dt n : Nat) (s : State) : Answer :=
  onUnit (decide (n < Config.links)) dt (fun m => syncResetWrite n (elapse dt m)) s
/-- ROUTE_CHANGE_WRITE (R117). -/
def execRouteChangeWrite (dt : Nat) (a : Auth) (n src ch : Nat) (s : State) : Answer :=
  onUnit (decide (n < Config.links)) dt (routeChangeWrite dt a n src ch) s
/-- CAL_LOAD (R123). -/
def execCalLoad (dt : Nat) (a : Auth) (n : Nat) (bankB : Bool) (bytes : List Byte) (s : State) : Answer :=
  onUnit (decide (n < Config.links)) dt (calLoad dt a n bankB bytes) s
/-- REPLAY_START (R118). -/
def execReplayStart (dt : Nat) (a : Auth) (ch cam first last calId rate : Nat) (s : State) : Answer :=
  onUnit (decide (ch < Config.replayChannels) && decide (cam < Config.links)) dt (replayStart dt a ch cam first last calId rate)
    s
/-- REPLAY_LINE (R119). -/
def execReplayLine (dt ch : Nat) (io : LineIo) (s : State) : Answer :=
  onUnit (decide (ch < Config.replayChannels)) dt (replayLine dt ch io) s
/-- REPLAY_STOP (R129). -/
def execReplayStop (dt ch : Nat) (s : State) : Answer :=
  onUnit (decide (ch < Config.replayChannels)) dt (fun m => replayStop ch (elapse dt m)) s

end Sys2Proof.Machine
end

