-- ==== Sys2Proof/Machine/Screening.lean ====
section
/-!
DEFINITION. Sys2Proof/Machine/Screening.lean: screening on the studs (R130 to R140): score cells, components, objects carried
over strips, provisional records, the ROI list and its fallback.
-/
namespace Sys2Proof.Machine

/-- Level-0 lines and columns of a screening cell: 4c (R131). -/
def Chip.cellSize (m : Chip) : Nat := 4 * 2 ^ m.get F.STUD_CFG_cell_stride

/-- The strip a SCREEN works on lies in a slot of its row and close bay (R130, R33). -/
def Chip.screenable (m : Chip) (row strip k : Nat) : Bool :=
  m.fire.closed.any fun c => c.row == row && c.strip == strip && c.closeBay == k && c.slot.isSome && !c.beyond

/-- What a SCREEN computes: the score cells of a strip, with the errors it meets; a command whose slot is empty writes none.
(Log: 64 DESIGN CHOICE.) -/
def screenWork (n : Nat) (c : CutEntry) (row strip : Nat) (cells : List ScoreCell) (layer : Option Nat) (er : ReadErrs) (m : Chip) :
    Running × Chip :=
  let m2 := m.meetErrs (.stud n) c [] er
  let w := (m2.rowWidth row + m2.cellSize - 1) / m2.cellSize
  let h := (m2.rowLines row + m2.cellSize - 1) / m2.cellSize
  let byte (x : Int) : Nat := unsignedOf 8 x
  let sum := markSum (cells.flatMap fun k =>
    [(k.y * w + k.x, valueWord 0 0 (byte k.ob)), (w * h + k.y * w + k.x, valueWord 0 0 (byte k.ej))])
  let s := m2.scr row
  let old := ((s.cells.find? fun q => q.1 == strip).map (·.2)).getD []
  let m3 := if m2.screenable row strip (m2.closeOf (.stud n) c) then
      m2.setScr row { s with cells := (s.cells.filter fun q => q.1 != strip) ++ [(strip, old ++ cells)] }
    else m2
  ({ entry := c, closeBay := 0, startedAt := 0, layer, row, sum, elements := 2 * cells.length, op := "SCREEN", item := strip }, m3)

/-- SCREEN (R131): a stud runs its part of the screening network on a strip; `cells` are the score cells it writes. `layer` is
the identity of the score maps' layer with their witness sum (R432), where the layer table names one.
(Log: 64 DESIGN CHOICE.) -/
def screen (dt n : Nat) (c : CutEntry) (row strip : Nat) (cells : List ScoreCell) (layer : Option Nat) (er : ReadErrs) (m0 : Chip) :
    Chip :=
  let m := elapse dt m0
  if m.studRow c.descPtr = some row then startCmd 0 (.stud n) c (screenWork n c row strip cells layer er) m else m

/-! ### Components (R131) -/

/-- Active cells, each with its scores; negative scores read as 0. With t_obj 0 every cell of the grid is active. -/
def activeCells (tObj w h : Nat) (cells : List ScoreCell) : List (Nat × Nat × Nat × Nat) :=
  let scored := cells.filterMap fun k => if k.x < w ∧ k.y < h then some (k.y, k.x, min 127 k.ob.toNat, min 127 k.ej.toNat) else none
  if tObj = 0 then
    (upTo h).flatMap fun y => (upTo w).map fun x =>
      (scored.find? fun k => k.1 == y && k.2.1 == x).getD (y, x, 0, 0)
  else scored.filter fun k => decide (tObj ≤ k.2.2.1)

/-- Two cells touch by edge or corner. -/
def cellsTouch (a b : Nat × Nat × Nat × Nat) : Bool :=
  decide (a.1 ≤ b.1 + 1) && decide (b.1 ≤ a.1 + 1) && decide (a.2.1 ≤ b.2.1 + 1) && decide (b.2.1 ≤ a.2.1 + 1)

/-- Add a cell to a list of components, joining those it touches. -/
def addCell (comps : List (List (Nat × Nat × Nat × Nat))) (k : Nat × Nat × Nat × Nat) : List (List (Nat × Nat × Nat × Nat)) :=
  let hit := comps.filter fun g => g.any (cellsTouch k)
  (comps.filter fun g => !g.any (cellsTouch k)) ++ [k :: hit.flatten]

def components (cells : List (Nat × Nat × Nat × Nat)) : List (List (Nat × Nat × Nat × Nat)) := cells.foldl addCell []

def minL (l : List Nat) : Nat := l.foldl min (l.headD 0)
def maxL (l : List Nat) : Nat := l.foldl max 0

/-- The level-2 pixels of a strip's own lines that carry the void flag (R134), by line and column. -/
def Chip.voidPixels (m : Chip) (c : ClosedStrip) : List (Int × Nat) :=
  match c.slot with
  | none => []
  | some sl =>
    let ov := m.rowOverlap c.row / 4
    (upTo (m.rowLines c.row / 4)).flatMap fun i =>
      ((upTo (m.levelWidth c.row 2)).filter fun j => bitN (m.slotFlag c.row sl 2 (ov + i) j) 0).map fun j => ((i : Int), j)

/-- An object's void_touch (R134): a void level-2 pixel lies inside its box, that of a joined object with the pixels of every strip it
spans. -/
def touchVoid (voids : List (Int × Nat)) (o : ScrObj) : ScrObj :=
  { o with void := voids.any fun v => decide (o.l0.fdiv 4 ≤ v.1) && decide (v.1 ≤ o.l1.fdiv 4) && decide (o.c0 / 4 ≤ v.2) &&
                                      decide (v.2 ≤ o.c1 / 4) }

/-- The component as an object, with whether it touches the first and the last own line (R131, R132). A box whose last cells overhang the
strip ends with the strip's last own line and the row's last column.
(Log: 128 DEDUCED.) -/
def Chip.compObj (m : Chip) (c : ClosedStrip) (prevOk : Bool) (g : List (Nat × Nat × Nat × Nat)) : ScrObj × Bool × Bool :=
  let s := m.cellSize
  let L := m.rowLines c.row
  let h := (L + s - 1) / s
  let y0 := minL (g.map (·.1))
  let y1 := maxL (g.map (·.1))
  let c0 := minL (g.map (·.2.1)) * s
  let c1 := min ((maxL (g.map (·.2.1)) + 1) * s) (m.rowWidth c.row) - 1
  let l0 := y0 * s
  let l1 := min ((y1 + 1) * s) L - 1
  let d := m.rowDivider c.row
  ({ lead := c.firstCount + l0 * d, trail := c.firstCount + l1 * d, c0, c1, l0, l1, ob := maxL (g.map (·.2.2.1)),
     ej := maxL (g.map (·.2.2.2)), part := y0 == 0 && !prevOk }, y0 == 0, y1 + 1 == h)

/-! ### Joining over strips (R132) -/

/-- The union of an object's parts; the joined object keeps the smallest leading count. -/
def joinObjs (a b : ScrObj) : ScrObj :=
  { lead := min a.lead b.lead, trail := max a.trail b.trail, c0 := min a.c0 b.c0, c1 := max a.c1 b.c1, l0 := min a.l0 b.l0,
    l1 := max a.l1 b.l1, ob := max a.ob b.ob, ej := max a.ej b.ej, cont := true, part := a.part || b.part,
    forced := a.forced || b.forced, age := max a.age b.age }

/-- A group being joined: the object, whether a carried part is in it, whether a component of this strip is, whether it touches
the first own line and whether the last. -/
structure JoinGroup where
  obj : ScrObj
  carried : List ScrObj
  fresh : List ScrObj
  tail : Bool
  deriving DecidableEq, Repr

/-- Two objects share a stitched column: the column ranges of their boxes do, a carried object's over all its strips.
(Log: 128 DEDUCED.) -/
def shareCol (a b : ScrObj) : Bool := decide (a.c0 ≤ b.c1) && decide (b.c0 ≤ a.c1)

/-- Add a component to the groups: where it touches the first own line it joins every group whose carried parts share a column
with it. -/
def addComp (gs : List JoinGroup) (x : ScrObj × Bool × Bool) : List JoinGroup :=
  let hit (g : JoinGroup) : Bool := x.2.1 && g.carried.any fun o => shareCol o x.1
  let mine := gs.filter hit
  let base : JoinGroup := { obj := x.1, carried := [], fresh := [x.1], tail := x.2.2 }
  let merged := mine.foldl (fun a g =>
    { obj := joinObjs g.obj a.obj, carried := g.carried ++ a.carried, fresh := g.fresh ++ a.fresh, tail := g.tail || a.tail }) base
  (gs.filter fun g => !hit g) ++ [merged]

/-- Rank for the 64 open objects that stay open: highest objectness first, ties by descending (count_lead, col_first). -/
def openRank (a b : ScrObj) : Bool :=
  if a.ob ≠ b.ob then decide (b.ob ≤ a.ob)
  else if a.lead ≠ b.lead then decide (b.lead ≤ a.lead)
  else decide (b.c0 ≤ a.c0)

/-- The order of provisional records (R134). -/
def leadOrder (a b : ScrObj) : Bool := if a.lead ≠ b.lead then decide (a.lead ≤ b.lead) else decide (a.c0 ≤ b.c0)

/-- Issued and open objects of a strip from the carried objects and its components (R132).
(Log: 66 DEDUCED.) -/
def joinStrip (carry : List ScrObj) (comps : List (ScrObj × Bool × Bool)) : List ScrObj × List ScrObj :=
  let start : List JoinGroup := carry.map fun o => { obj := o, carried := [o], fresh := [], tail := false }
  let gs := comps.foldl addComp start
  let aged (g : JoinGroup) : ScrObj := if g.carried.isEmpty then g.obj else { g.obj with age := maxL (g.carried.map (·.age)) + 1 }
  let issued := (gs.filter fun g => g.fresh.isEmpty || !g.tail).map fun g => if g.fresh.isEmpty then g.obj else aged g
  let open_ := (gs.filter fun g => !g.fresh.isEmpty && g.tail).map aged
  let old := open_.filter fun o => decide (16 ≤ o.age)
  let rest := sortBy openRank (open_.filter fun o => decide (o.age < 16))
  let forced := (old ++ rest.drop 64).map fun o => { o with forced := true }
  (sortBy leadOrder (issued ++ forced), sortBy leadOrder (rest.take 64))

/-! ### Windows (R136 to R138) -/

/-- The starts of windows of length `w` along an axis from `a` to `b`: one centred window where it fits, else tiles from `a`
with the last clamped to the far edge; each clamped to lie within `lo` to `hi`.
(Log: 65 DEDUCED, 118 DEDUCED.) -/
def winStarts (a b : Int) (w : Nat) (lo hi : Int) (centre : Bool) : List Int :=
  let clamp (x : Int) : Int := if hi - lo + 1 < w then lo else clampI lo (hi - w + 1) x
  let len := b - a + 1
  if centre && decide (len ≤ w) then [clamp (a - ((w : Int) - len).fdiv 2)]
  else
    let n := ceilDivN len.toNat w
    (upTo n).map fun i => clamp (if i + 1 = n then max a (b - w + 1) else a + i * w)

/-- The crop settings of a row: level, width, height.
(Log: 64 DESIGN CHOICE, 67 DEDUCED.) -/
def Chip.crop (m : Chip) (r : Nat) : Nat × Nat × Nat :=
  (m.get (F.SCR_ROW_CROP_level r), max 1 (m.get (F.SCR_ROW_CROP_crop_w r)), max 1 (m.get (F.SCR_ROW_CROP_crop_h r)))

/-- First and last line, last column of a row's strip at the crop level, overlap included. -/
def Chip.cropBounds (m : Chip) (r : Nat) : Int × Int × Int :=
  let l := (m.crop r).1
  (-((m.rowOverlap r / 2 ^ l : Nat) : Int), ((m.rowLines r / 2 ^ l : Nat) : Int) - 1, ((m.rowWidth r / 2 ^ l : Nat) : Int) - 1)

/-- The windows of an object: tiled or centred over its box, cut to the strip's own and overlap lines.
(Log: 65 DEDUCED, 118 DEDUCED.) -/
def Chip.objWins (m : Chip) (r prov : Nat) (o : ScrObj) : List RoiWin :=
  let (l, w, h) := m.crop r
  let (lo, hi, xhi) := m.cropBounds r
  let s : Int := 2 ^ l
  let y0 := max (o.l0.fdiv s) lo
  let y1 := max y0 (min (o.l1.fdiv s) hi)
  let fits := decide ((o.c1 / 2 ^ l : Nat) - (o.c0 / 2 ^ l) + 1 ≤ w) && decide (y1 - y0 + 1 ≤ h)
  (winStarts y0 y1 h lo hi fits).flatMap fun y =>
    (winStarts ((o.c0 / 2 ^ l : Nat) : Int) (min ((o.c1 / 2 ^ l : Nat) : Int) xhi) w 0 xhi fits).map fun x =>
      { col := x.toNat, line := y, prov, kind := 0 }

/-- The continuation window of a carried object. -/
def Chip.contWin (m : Chip) (r : Nat) (o : ScrObj) : RoiWin :=
  let (l, w, _) := m.crop r
  let (lo, _, xhi) := m.cropBounds r
  { col := if xhi + 1 < w then 0 else (clampI 0 (xhi - w + 1) ((o.c0 / 2 ^ l : Nat) : Int)).toNat, line := lo, prov := 0xFFFF, kind := 1 }

/-- The tiles of the fallback (R138). -/
def Chip.fallWins (m : Chip) (r : Nat) : List RoiWin :=
  if m.get (F.SCR_ROW_CFG_fallback r) ≠ 0 then []
  else
    let (_, w, h) := m.crop r
    let (lo, hi, xhi) := m.cropBounds r
    ((winStarts 0 hi h lo hi false).flatMap fun y => (winStarts 0 xhi w 0 xhi false).map fun x =>
      ({ col := x.toNat, line := y, prov := 0xFFFF, kind := 2 } : RoiWin)).take (m.get (F.SCR_ROW_THR_roi_max r))

/-- The object lies wholly inside its kept windows: every column and line of its box, at the crop level, is in one. -/
def Chip.covered (m : Chip) (r : Nat) (o : ScrObj) (wins : List RoiWin) : Bool :=
  let (l, w, h) := m.crop r
  let (lo, hi, xhi) := m.cropBounds r
  let s : Int := 2 ^ l
  let y0 := max (o.l0.fdiv s) lo
  let y1 := max y0 (min (o.l1.fdiv s) hi)
  let x0 : Int := (o.c0 / 2 ^ l : Nat)
  let x1 : Int := min ((o.c1 / 2 ^ l : Nat) : Int) xhi
  let inside (x y : Int) : Bool := wins.any fun q =>
    decide ((q.col : Int) ≤ x) && decide (x < q.col + w) && decide (q.line ≤ y) && decide (y < q.line + h)
  (upTo (y1 - y0 + 1).toNat).all fun i => (upTo (x1 - x0 + 1).toNat).all fun j => inside (x0 + j) (y0 + i)

/-! ### Release (R133 to R139) -/

/-- A closed strip's screening counters wait for its resolution (R140, R153).
(Log: 65 DEDUCED.) -/
def Chip.countLater (c : ClosedStrip) (l : List Nat) (m : Chip) : Chip :=
  m.onFire fun f => { f with closed := f.closed.map fun d =>
    if d.row = c.row ∧ d.strip = c.strip then { d with counts := d.counts ++ l } else d }

def Chip.outOf (m : Chip) (r strip : Nat) : Option ScrOut := (m.scr r).outs.find? fun o => o.strip == strip

/-- The strip takes the fallback (R133, R135, R138): no provisional verdicts, nothing carried. -/
def Chip.takeFallback (c : ClosedStrip) (l : List Nat) (m : Chip) : Chip :=
  let s := m.scr c.row
  let m1 := m.setScr c.row { s with carry := [], voids := [], prevOk := false, prev := some (c.strip, c.closeBay),
                                    cells := s.cells.filter fun q => q.1 != c.strip,
                                    outs := s.outs ++ [{ strip := c.strip, closeBay := c.closeBay, fell := true, wins := m.fallWins c.row }] }
  m1.countLater c (R.SCR_CNT_FALLBACK c.row :: l)

/-- Nothing is carried into the strip (R139): the row's previous strip released no output, or none has been screened since the
screening job was enabled. -/
def Chip.carryOk (m : Chip) (c : ClosedStrip) : Bool :=
  let s := m.scr c.row
  match s.prev with
  | some (p, k) => s.prevOk && p + 1 == c.strip && !(decide (k < (m.jobRun (m.get F.STUD_CFG_job)).firstClose))
  | none => false

/-- What the output stage makes of a strip's score cells: how many components and carried objects there are, the provisional records,
the ROI windows, what stays open with the void pixels that its boxes may still reach, whether an object was issued after 16 strips. -/
structure ScrRelease where
  comps : Nat
  recs : List ProvRec
  wins : List RoiWin
  carry : List ScrObj
  voids : List (Int × Nat)
  forced : Bool
  deriving DecidableEq, Repr

/-- The components and objects of a strip (R131 to R136, R141). The row's flag open_forced tells of objects open for 16 strips (R152),
the record's also of those beyond 64 (R132). -/
def Chip.screenOut (m : Chip) (c : ClosedStrip) (cells : List ScoreCell) : ScrRelease :=
  let r := c.row
  let ok := m.carryOk c
  let s := m.scr r
  let carry := if ok then s.carry else []
  let size := m.cellSize
  let act := activeCells (m.get (F.SCR_ROW_THR_t_obj r)) ((m.rowWidth r + size - 1) / size) ((m.rowLines r + size - 1) / size) cells
  let comps := (components act).map (m.compObj c ok)
  let voids := (if ok then s.voids else []) ++ m.voidPixels c
  let joined := joinStrip carry comps
  let issued := joined.1.map (touchVoid voids)
  let open_ := joined.2
  let cont := carry.map (m.contWin r)
  let objs := (issued.zipIdx.flatMap fun (o, i) => m.objWins r i o) ++ open_.flatMap fun o => m.objWins r 0xFFFF o
  let wins := (cont ++ objs).take (m.get (F.SCR_ROW_THR_roi_max r))
  let recOf (p : ScrObj × Nat) : ProvRec :=
    let o := p.1
    { strip := c.strip, provId := p.2, row := r, eject := decide (m.get (F.SCR_ROW_THR_t_ej r) ≤ o.ej), continued := o.cont,
      partialObj := o.part, openForced := o.forced, voidTouch := o.void,
      uncovered := !m.covered r o (wins.filter fun q => q.kind == 0 && q.prov == p.2), ejScore := o.ej, objScore := o.ob,
      countLead := o.lead, countTrail := o.trail, colFirst := o.c0, colLast := o.c1 }
  let L : Int := m.rowLines r
  { comps := comps.length + carry.length, recs := issued.zipIdx.map recOf, wins,
    carry := open_.map fun o => { o with l0 := o.l0 - L, l1 := o.l1 - L },
    voids := (voids.filter fun v => open_.any fun o => decide (o.l0.fdiv 4 ≤ v.1)).map fun v => (v.1 - L.fdiv 4, v.2),
    forced := issued.any fun o => o.forced && decide (16 ≤ o.age) }

/-- A strip's components and objects are released: more than 512 components and carried objects take the fallback (R133). -/
def Chip.releaseScreen (c : ClosedStrip) (cells : List ScoreCell) (m : Chip) : Chip :=
  let r := c.row
  let o := m.screenOut c cells
  if 512 < o.comps then (m.setFlag (F.SCR_ROW_STAT_comp_overflow r)).takeFallback c [R.SCR_CNT_COMP_OVF r]
  else
    let s := m.scr r
    let out : ScrOut := { strip := c.strip, closeBay := c.closeBay, fell := false, wins := o.wins }
    let m1 := m.setScr r { s with carry := o.carry, voids := o.voids, prevOk := true, prev := some (c.strip, c.closeBay),
                                  cells := s.cells.filter fun q => q.1 != c.strip, outs := s.outs ++ [out] }
    let m2 := (m1.setFlagIf (o.recs.any (·.uncovered)) (F.SCR_ROW_STAT_uncovered r)).setFlagIf o.forced
      (F.SCR_ROW_STAT_open_forced r)
    let m3 := m2.countLater c (R.SCR_CNT_STRIPS r :: (o.recs.filter (·.uncovered)).map fun _ => R.SCR_CNT_UNCOVERED r)
    let m4 := m3.onFire fun f => { f with screened := f.screened ++ o.recs.map fun p => (c.closeBay, p) }
    forAll o.recs (fun p m => (m.previewRec p).reserve c.closeBay p) m4

/-- A stud still runs a screening command of a strip. -/
def Chip.screening (m : Chip) (r strip : Nat) : Bool :=
  (upTo Config.studs).any fun n => match (m.eng (.stud n)).running with
    | some x => x.op == "SCREEN" && x.row == r && x.item == strip
    | none => false

/-- The output of a strip is released on time (R135): in bay close bay + 1, before the start of its crop command. -/
def Chip.screenInTime (m : Chip) (c : ClosedStrip) (crop : CutEntry) : Bool :=
  m.bay == c.closeBay + 1 && decide (m.coreCycle < crop.startCycle)

/-- SCREENING_OUTPUT_RELEASE (R133, R135): the stud output stage releases a strip's provisional records and ROI list in one
step, or discards late output. `crop` is the strip's crop command on the Sill-to-Ridge Tenon queue. -/
def screeningOutputRelease (dt r strip : Nat) (crop : CutEntry) (m0 : Chip) : Chip :=
  let m := elapse dt m0
  match m.fire.closed.find? fun c => c.row == r && c.strip == strip && c.slot.isSome && !c.beyond with
  | none => m
  | some c =>
    match (m.scr r).cells.find? fun q => q.1 == strip with
    | none => m
    | some q =>
      let drop (m : Chip) : Chip :=
        let s := m.scr r
        (m.setScr r { s with cells := s.cells.filter fun q => q.1 != strip }).setFlag (F.SCR_ROW_STAT_screen_missing r)
      if m.screening r strip || m.pairInvalid (m.get F.STUD_CFG_job) c.closeBay then m
      else if (m.outOf r strip).isSome then drop m
      else if m.screenInTime c crop then m.releaseScreen c q.2
      else (drop m).takeFallback c []

/-- The crop command of a strip starts without released output: it uses the fallback (R135, R138).
(Log: 67 DEDUCED.) -/
def Chip.cropStarts (r strip : Nat) (m : Chip) : Chip :=
  match m.fire.closed.find? fun c => c.row == r && c.strip == strip with
  | none => m
  | some c => if (m.outOf r strip).isSome then m else (m.setFlag (F.SCR_ROW_STAT_screen_missing r)).takeFallback c []

/-- At a boundary, score cells of strips whose screening pair is invalid are discarded (R39), and outputs older than the
pipeline depth are forgotten. -/
def Chip.screenBoundary (b : Nat) (m : Chip) : Chip :=
  forAll (upTo Config.rows) (fun r m =>
    let s := m.scr r
    let live (k : Nat) : Bool := decide (b ≤ k + m.depth + 1)
    let bad (strip : Nat) : Bool := m.fire.closed.any fun c =>
      c.row == r && c.strip == strip && m.pairInvalid (m.get F.STUD_CFG_job) c.closeBay
    m.setScr r { s with cells := s.cells.filter (fun q => !bad q.1 && m.fire.closed.any fun c => c.row == r && c.strip == q.1), outs := s.outs.filter fun o => live o.closeBay }) m

/-! ### The meanings of the commands -/

/-- SCREEN (R131). -/
def execScreen (dt n : Nat) (c : CutEntry) (row strip : Nat) (cells : List ScoreCell) (layer : Option Nat) (er : ReadErrs) (s :
    State) : Answer :=
  onUnit (decide (n < Config.studs) && decide (row < Config.rows)) dt (screen dt n c row strip cells layer er) s
/-- SCREENING_OUTPUT_RELEASE (R135). -/
def execScreeningOutputRelease (dt r strip : Nat) (crop : CutEntry) (s : State) : Answer :=
  onUnit (decide (r < Config.rows)) dt (screeningOutputRelease dt r strip crop) s

end Sys2Proof.Machine
end

