-- ==== Sys2Proof/Machine/Detect.lean ====
section
/-!
DEFINITION. Sys2Proof/Machine/Detect.lean: the detection post-processor (R197 to R216): DETECT, cross-strip joining, carries, and the
sealing of records and marks in the end guard.
-/
namespace Sys2Proof.Machine

/-- The DETECT descriptor (R197). -/
structure DetDesc where
  op : Nat
  row : Nat
  heads : Nat
  flags : Nat
  classes : Nat
  tXiou : Nat
  mergeTol : Nat
  classTab : Nat
  headTab : Nat
  flagLevel : Nat
  tMerge : Nat
  candMax : Nat
  objMax : Nat
  deriving DecidableEq, Repr

def Chip.detDesc (m : Chip) (p : Nat) : DetDesc :=
  let f (o n : Nat) := m.descNum (p + o) n
  { op := f 0 1, row := f 1 1, heads := f 2 1, flags := f 3 1, classes := f 4 2, tXiou := f 6 1, mergeTol := f 7 1,
    classTab := f 8 4, headTab := f 0xC 4, flagLevel := f 0x10 1, tMerge := f 0x11 1, candMax := f 0x12 2, objMax := f 0x14 2 }

/-- An entry of the class table (R205). -/
structure ClassEntry where
  eject : Bool
  evidence : Bool
  tIou : Nat
  thr : Nat
  deriving DecidableEq, Repr
def Chip.classEntry (m : Chip) (d : DetDesc) (c : Nat) : ClassEntry :=
  let w := m.descNum (d.classTab + 4 * c) 4
  { eject := bitN w 31, evidence := bitN w 30, tIou := bitsN w 23 16, thr := bitsN w 15 0 }

/-- A head table entry (R198). -/
structure HeadEntry where
  bent : Nat
  fmt : Nat
  decode : Nat
  anchors : Nat
  grid : Nat
  src : Nat
  hasObj : Bool
  addr : Nat
  cellsY : Nat
  cellsX : Nat
  scale : Nat
  anchorOff : Nat
  pitch : Nat
  deriving DecidableEq, Repr
def Chip.headEntry (m : Chip) (d : DetDesc) (i : Nat) : HeadEntry :=
  let f (o n : Nat) := m.descNum (d.headTab + 32 * i + o) n
  { bent := f 0 1, fmt := f 1 1, decode := f 2 1, anchors := f 3 1, grid := 2 ^ f 4 1, src := f 5 1, hasObj := f 6 1 == 1,
    addr := f 8 4, cellsY := f 0xC 2, cellsX := f 0xE 2, scale := f 0x10 4, anchorOff := f 0x14 4, pitch := f 0x18 2 }

/-! ### Decoding (R199, R200) -/

/-- FP32 bits of a small integer, and of a half. -/
def nF32 (n : Int) : Nat := toF32 (.num (qOfInt n))
def halfF32 : Nat := toF32 (.num ⟨1, 2⟩)
def sigF32 (x : Nat) : Nat := vecElem .sigmoid x 0 0

/-- The box of an anchor in FP32, in the order written in R199: x1, x2, y1, y2. -/
def anchorBox (g : Nat) (gx gy : Nat) (ox oy : Int) (aw ah : Nat) (t : Nat → Nat) : Nat × Nat × Nat × Nat :=
  let two := nF32 2
  let centre (c : Nat) (t : Nat) (o : Int) :=
    addF32 (mulF32 (subF32 (addF32 (nF32 c) (mulF32 two (sigF32 t))) halfF32) (nF32 g)) (nF32 o)
  let size (a : Nat) (t : Nat) :=
    let s := mulF32 two (sigF32 t)
    mulF32 (divF32 (nF32 a) (nF32 16)) (mulF32 s s)
  let px := centre gx (t 0) ox
  let py := centre gy (t 1) oy
  let hw := divF32 (size aw (t 2)) two
  let hh := divF32 (size ah (t 3)) two
  (subF32 px hw, addF32 px hw, subF32 py hh, addF32 py hh)

/-- The box of a distance cell: its values are left, top, right, bottom. -/
def distanceBox (g : Nat) (gx gy : Nat) (ox oy : Int) (t : Nat → Nat) : Nat × Nat × Nat × Nat :=
  let side (c : Nat) (v : Nat) (o : Int) (plus : Bool) :=
    let mid := addF32 (nF32 c) halfF32
    let d := maxF32 (nF32 0) v
    addF32 (mulF32 (if plus then addF32 mid d else subF32 mid d) (nF32 g)) (nF32 o)
  (side gx (t 0) ox false, side gx (t 2) ox true, side gy (t 1) oy false, side gy (t 3) oy true)

/-- clamp(rne(4 · x), lo, hi).
(Log: 67 DEDUCED.) -/
def quarter (x : Nat) (lo hi : Int) : Int := match f32 (mulF32 (nF32 4) x) with
  | .num q => clampI lo hi (qRne q)
  | .inf neg => if neg then lo else hi
  | .nan => clampI lo hi 0

/-- The integer score of R200. -/
def scoreOf (obj : Option Nat) (cls : Nat) : Nat :=
  let s := match obj with
    | some o => mulF32 (sigF32 o) (sigF32 cls)
    | none => sigF32 cls
  match f32 s with
  | .num q => min 65535 (qRne (qMul q (qOfInt 65536))).toNat
  | .inf _ => 65535
  | .nan => 0

/-- The candidates of one cell: head number and ROI index make the key. -/
def Chip.cellCands (m : Chip) (d : DetDesc) (er : ReadErrs) (hi : Nat) (h : HeadEntry) (roi : Nat) (ox oy : Int) (base gy gx : Nat)
    (wRow : Nat) (ov lines : Int) : List PpObj :=
  let vals := 4 + b2n h.hasObj + d.classes
  (upTo h.anchors).flatMap fun a =>
    let val (i : Nat) : Nat :=
      let k := gx * h.anchors * vals + a * vals + i
      let b := m.elemBits er (bentAddr h.bent (base + gy * h.pitch * 16)) (fmtBits h.fmt) k
      if h.fmt = 0 then mulF32 (toF32 (decElem 0 b)) h.scale else if h.fmt = 0x12 then b else widen h.fmt b
    let aw := m.descNum (h.anchorOff + 4 * a) 2
    let ah := m.descNum (h.anchorOff + 4 * a + 2) 2
    let (x1, x2, y1, y2) := if h.decode = 0 then anchorBox h.grid gx gy ox oy aw ah val else distanceBox h.grid gx gy ox oy val
    let bx1 := quarter x1 0 (4 * wRow)
    let bx2 := quarter x2 0 (4 * wRow)
    let by1 := quarter y1 (-4 * ov) (4 * lines)
    let by2 := quarter y2 (-4 * ov) (4 * lines)
    if bx2 ≤ bx1 ∨ by2 ≤ by1 then []
    else (upTo d.classes).filterMap fun c =>
      let q := scoreOf (if h.hasObj then some (val 4) else none) (val (4 + b2n h.hasObj + c))
      if (m.classEntry d c).thr ≤ q ∧ 0 < q then
        some { x1 := bx1, x2 := bx2, y1 := by1, y2 := by2, q, cls := c,
               key := hi * 2 ^ 62 + roi % 2 ^ 10 * 2 ^ 52 + gy * 2 ^ 36 + gx * 2 ^ 20 + a * 2 ^ 16 + c * 2 ^ 8 }
      else none

/-- Every candidate of a strip (R198 to R200): `wins` are its ROI windows at crop level. -/
def Chip.candidates (m : Chip) (d : DetDesc) (er : ReadErrs) (wins : List RoiWin) : List PpObj :=
  let ov : Int := m.rowOverlap d.row
  let lines : Int := m.rowLines d.row
  let lc := (m.crop d.row).1
  (upTo d.heads).flatMap fun i =>
    let h := m.headEntry d i
    let tensors : List (Nat × Int × Int) := if h.src = 0 then [(0, 0, -ov)]
      else wins.zipIdx.map fun w => (w.2, (w.1.col : Int) * 2 ^ lc, w.1.line * 2 ^ lc)
    tensors.flatMap fun t => (upTo h.cellsY).flatMap fun gy => (upTo h.cellsX).flatMap fun gx =>
      m.cellCands d er i h t.1 t.2.1 t.2.2 (h.addr + t.1 * h.cellsY * h.pitch * 16) gy gx (m.rowWidth d.row) ov lines

/-! ### Order, streams, suppression (R200 to R202) -/

/-- "By score": q descending, then key ascending. -/
def byScore (a b : PpObj) : Bool := if a.q ≠ b.q then decide (b.q ≤ a.q) else decide (a.key ≤ b.key)
def PpObj.c0 (o : PpObj) : Int := o.x1.fdiv 4
def PpObj.c1 (o : PpObj) : Int := -((-o.x2).fdiv 4) - 1
def PpObj.l0 (o : PpObj) : Int := o.y1.fdiv 4
def PpObj.l1 (o : PpObj) : Int := -((-o.y2).fdiv 4) - 1
/-- The stream of an object: that of its centre column (R201). -/
def Chip.objStream (m : Chip) (row : Nat) (o : PpObj) : Option Nat := m.streamAt row ((o.c0 + o.c1).fdiv 2).toNat

/-- Keep, for each stream, the first `cap` by score; the streams that had more. -/
def capBy (stream : PpObj → Option Nat) (streams : List Nat) (cap : Nat) (l : List PpObj) : List PpObj × List Nat :=
  let of (s : Nat) := sortBy byScore (l.filter fun o => stream o == some s)
  (streams.flatMap fun s => (of s).take cap, streams.filter fun s => decide (cap < (of s).length))

/-- The suppression test of R202. -/
def suppresses (t : Nat) (a b : PpObj) : Bool :=
  let inter := max 0 (min a.x2 b.x2 - max a.x1 b.x1) * max 0 (min a.y2 b.y2 - max a.y1 b.y1)
  let area (o : PpObj) : Int := (o.x2 - o.x1) * (o.y2 - o.y1)
  decide (inter * 256 > (t : Int) * (area a + area b - inter))
/-- Take candidates by score; each is kept when no kept one suppresses it. -/
def keepBy (t : Nat) (l : List PpObj) : List PpObj :=
  (sortBy byScore l).foldl (fun kept o => if kept.any fun k => suppresses t k o then kept else kept ++ [o]) []
/-- R202: class by class, then across classes when agnostic is set. -/
def suppress (tIou : Nat → Nat) (classes : Nat) (agnostic : Bool) (tX : Nat) (l : List PpObj) : List PpObj :=
  let kept := (upTo classes).flatMap fun c => keepBy (tIou c) (l.filter fun o => o.cls == c)
  if agnostic then keepBy tX kept else kept

/-! ### The tests of a part (R205) -/

/-- Every level-0 pixel of an object's own box lies in a window, scaled to level 0 (R205). -/
def Chip.coveredBy (m : Chip) (row : Nat) (wins : List RoiWin) (o : PpObj) : Bool :=
  let (lc, w, h) := m.crop row
  let s : Int := 2 ^ lc
  let inside (x y : Int) : Bool := wins.any fun q =>
    decide (q.col * s ≤ x) && decide (x < (q.col + w) * s) && decide (q.line * s ≤ y) && decide (y < (q.line + h) * s)
  (upTo (o.l1 - o.l0 + 1).toNat).all fun i => (upTo (o.c1 - o.c0 + 1).toNat).all fun j => inside (o.c0 + j) (o.l0 + i)

/-- A pixel of the flag plane at level `l` inside the box carries void or dropped; `voids` are those pixels (level, line, column). -/
def boxTouches (l : Nat) (voids : List (Nat × Int × Nat)) (o : PpObj) : Bool :=
  let s : Int := 2 ^ l
  voids.any fun v => v.1 == l && decide (o.l0.fdiv s ≤ v.2.1) && decide (v.2.1 ≤ o.l1.fdiv s) && decide (o.c0.fdiv s ≤ v.2.2) &&
    decide ((v.2.2 : Int) ≤ o.c1.fdiv s)

/-! ### Across strip boundaries (R203) -/

/-- The union of the parts of an object; class and key are those of the part with the largest q. -/
def joinParts (a b : PpObj) : PpObj :=
  let best := if a.q ≠ b.q then (if b.q < a.q then a else b) else if a.cls ≠ b.cls then (if a.cls < b.cls then a else b)
    else if a.key ≤ b.key then a else b
  { x1 := min a.x1 b.x1, x2 := max a.x2 b.x2, y1 := min a.y1 b.y1, y2 := max a.y2 b.y2, q := max a.q b.q, cls := best.cls,
    key := best.key, cont := true, part := a.part || b.part, forced := a.forced || b.forced, void := a.void || b.void,
    uncov := a.uncov || b.uncov, age := max a.age b.age }

/-- A new object joins a carried one (R203); `ovl` is the number of columns they share.
(Log: 66 DEDUCED, 118 DEDUCED.) -/
def ppJoins (tol tMerge : Nat) (o p : PpObj) : Bool :=
  let ovl := max 0 (min o.c1 p.c1 - max o.c0 p.c0 + 1)
  let narrow := min (o.c1 - o.c0) (p.c1 - p.c0) + 1
  decide (o.l0 ≤ tol) && decide ((tMerge : Int) * narrow ≤ ovl * 256) && decide (o.l0 ≤ p.l1 + 1 + tol)

/-- Carried and new objects that are linked so far. -/
structure PpGroup where
  carried : List PpObj
  fresh : List PpObj
  deriving DecidableEq, Repr

/-- Add a new object: it links every group that holds a carried object it joins. -/
def addFresh (tol tMerge : Nat) (gs : List PpGroup) (o : PpObj) : List PpGroup :=
  let hit (g : PpGroup) : Bool := g.carried.any (ppJoins tol tMerge o)
  let mine := gs.filter hit
  gs.filter (fun g => !hit g) ++ [{ carried := mine.flatMap (·.carried), fresh := mine.flatMap (·.fresh) ++ [o] }]

/-- The object of a group: the join of its parts with its age, none for an overlap duplicate; `true` when formed by joining. -/
def PpGroup.obj (g : PpGroup) : Option (PpObj × Bool) :=
  match g.carried, g.fresh with
  | [], o :: _ => if o.l1 < 0 then none else some (o, false)
  | p :: t, o :: u => some ({ (t ++ o :: u).foldl joinParts p with age := (p :: t).foldl (fun a x => max a x.age) 0 + 1 }, true)
  | p :: _, [] => some (p, false)
  | [], [] => none

/-- Issued objects, objects carried on, objects formed by joining, objects forced out (R203). -/
def ppJoin (bOpen : Int) (tol tMerge : Nat) (carry fresh : List PpObj) : List PpObj × List PpObj × Nat × Nat :=
  let gs := fresh.foldl (addFresh tol tMerge) (carry.map fun p => { carried := [p], fresh := [] })
  let ended := (gs.filter fun g => g.fresh.isEmpty).flatMap (·.carried)
  let objs := (gs.filter fun g => !g.fresh.isEmpty).filterMap (·.obj)
  let done := (objs.map (·.1)).filter fun o => decide (o.l1 < bOpen)
  let open_ := (objs.map (·.1)).filter fun o => decide (bOpen ≤ o.l1)
  let young := sortBy byScore (open_.filter fun o => decide (o.age < 16))
  let forced := (open_.filter (fun o => decide (16 ≤ o.age)) ++ young.drop 64).map fun o => { o with forced := true }
  (ended ++ done ++ forced, young.take 64, (objs.filter (·.2)).length, forced.length)

/-! ### Carries (R204) -/

def Chip.onPp (f : PpState → PpState) (m : Chip) : Chip := { m with pp := f m.pp }
def Chip.ppRow (m : Chip) (j r : Nat) : PpRow := (m.pp.rows.find? fun x => x.job == j && x.row == r).getD { job := j, row := r }
def Chip.setPpRow (v : PpRow) (m : Chip) : Chip :=
  m.onPp fun p => { p with rows := (p.rows.filter fun x => !(x.job == v.job && x.row == v.row)) ++ [v] }

/-- Discard the carry of a job and row: counted and flagged only when it held an object. -/
def Chip.discardCarry (j r : Nat) (m : Chip) : Chip :=
  let v := m.ppRow j r
  let m1 := m.setPpRow { v with prev := none, carry := [], lost := v.lost || !v.carry.isEmpty }
  if v.carry.isEmpty then m1 else (m1.bump (R.PP_CNT_CARRY_LOST r)).setFlag (F.PP_ROW_STAT_carry_lost r)

/-- Carries of rows whose previous pair is invalid are discarded. -/
def Chip.discardInvalid (m : Chip) : Chip :=
  forAll (m.pp.rows.filter fun v => match v.prev with
    | some (_, k) => m.pairInvalid v.job k
    | none => false) (fun v m => m.discardCarry v.job v.row) m
/-- A job's carries are discarded: its disable with abort (R204).
(Log: 117 DEDUCED.) -/
def Chip.discardJob (j : Nat) (m : Chip) : Chip :=
  forAll (m.pp.rows.filter fun v => v.job == j && v.prev.isSome) (fun v m => m.discardCarry v.job v.row) m

/-- The previous strip of a job and row was judged: its carry stands, and nothing touching the first own line is partial. -/
def Chip.carryStands (m : Chip) (j r strip : Nat) : Bool := match (m.ppRow j r).prev with
  | some (s, k) => s + 1 == strip && !m.pairInvalid j k && !(decide (k < (m.jobRun j).firstClose))
  | none => false

/-! ### Records (R205, R208, R209) -/

/-- An issued object's verdict and entry. -/
def Chip.entryOf (m : Chip) (d : DetDesc) (c : ClosedStrip) (fell beyond : Bool) (o : PpObj) : ObjEntry :=
  let e := m.classEntry d o.cls
  let k := m.rowDivider c.row
  { countLead := c.firstCount + o.l0 * k, objId := 0, countLen := ((o.l1 - o.l0) * k).toNat, colFirst := o.c0.toNat,
    colLast := o.c1.toNat, cls := o.cls,
    verdict := if fell || o.void || o.uncov || beyond then 2 else if e.eject then 1 else 0,
    score := o.q / 256, continued := o.cont, partialObj := o.part, openForced := o.forced, voidTouch := o.void,
    uncovered := o.uncov, evidence := e.evidence, overflow := beyond }

/-- The order of R208. -/
def recOrder (a b : ObjEntry × Nat) : Bool :=
  if a.1.countLead ≠ b.1.countLead then decide (a.1.countLead ≤ b.1.countLead)
  else if a.1.colFirst ≠ b.1.colFirst then decide (a.1.colFirst ≤ b.1.colFirst)
  else if a.1.cls ≠ b.1.cls then decide (a.1.cls ≤ b.1.cls)
  else decide (a.2 ≤ b.2)

/-- The group of a stream. -/
def Chip.groupOf (m : Chip) (d : DetDesc) (c : ClosedStrip) (j : Nat) (fell lost : Bool) (candO objO : List Nat) (issued : List PpObj)
    (s : Nat) : VerdictGroup :=
  let beyond := (candO.contains s || objO.contains s) && !bitN d.flags 1
  let mine := (issued.filter fun o => m.objStream d.row o == some s).map fun o => (m.entryOf d c fell beyond o, o.key)
  { strip := c.strip, closeBay := c.closeBay, stream := s, row := d.row, kind := 0, job := j, candOvf := candO.contains s,
    objOvf := objO.contains s, carryLost := lost, incomplete := c.incomplete || fell, replay := c.replay,
    objs := (sortBy recOrder mine).zipIdx.map fun p => { p.1.1 with objId := p.2 } }

/-! ### DETECT (R199) -/

/-- What a DETECT finds in a strip: its groups, what stays open, the candidates it met and the counts of R215. -/
structure DetOut where
  groups : List VerdictGroup
  carry : List PpObj
  cands : Nat
  candOvf : List Nat
  objOvf : List Nat
  merged : Nat
  forced : Nat
  deriving DecidableEq, Repr

/-- The candidates of a strip, suppression, joining, verdicts (R199 to R205); `stands` tells that the carry of the row stands. -/
def Chip.detectOut (m : Chip) (d : DetDesc) (j : Nat) (c : ClosedStrip) (er : ReadErrs) (stands : Bool) : DetOut :=
  let r := d.row
  let v := m.ppRow j r
  let out := m.outOf r c.strip
  let wins := (out.map (·.wins)).getD []
  let fell := m.get (F.SCR_ROW_CFG_fallback r) == 1 && (match out with | some o => o.fell | none => true)
  let streams := m.rowStreams r
  let cands := m.candidates d er wins
  let (kept0, candO) := capBy (m.objStream r) streams d.candMax cands
  let kept := suppress (fun k => (m.classEntry d k).tIou) d.classes (bitN d.flags 0) d.tXiou kept0
  let parts := kept.map fun o => { o with
    void := boxTouches d.flagLevel c.voids o, uncov := bitN d.flags 2 && !m.coveredBy r wins o,
    part := !stands && decide (o.l0 ≤ 0) && decide (0 ≤ o.l1) }
  let cell : Int := m.cellSize
  let bOpen := cell * (((m.rowLines r : Nat) : Int) - 1).fdiv cell
  let (issued0, open_, merged, forced) := ppJoin bOpen d.mergeTol d.tMerge v.carry parts
  let (issued, objO) := capBy (m.objStream r) streams d.objMax issued0
  let shift : Int := 4 * m.rowLines r
  { groups := streams.map (m.groupOf d c j fell v.lost candO objO issued),
    carry := open_.map fun o => { o with y1 := o.y1 - shift, y2 := o.y2 - shift },
    cands := cands.length, candOvf := candO, objOvf := objO, merged, forced }

/-- DETECT's work on a closed strip: its groups wait for the end guard, what stays open is carried, and the strip is counted (R215). -/
def Chip.detectStrip (d : DetDesc) (j : Nat) (c : ClosedStrip) (er : ReadErrs) (m0 : Chip) : Chip :=
  let r := d.row
  let stands := m0.carryStands j r c.strip
  let m := if stands then m0 else m0.discardCarry j r
  let o := m.detectOut d j c er stands
  let ents := o.groups.flatMap (·.objs)
  let m1 := m.setPpRow { m.ppRow j r with prev := some (c.strip, c.closeBay), lost := false, carry := o.carry }
  let m2 := (((((m1.bumpBy (R.PP_CNT_CAND r) o.cands).bumpBy (R.PP_CNT_CAND_OVF r) o.candOvf.length).bumpBy (R.PP_CNT_OBJ_OVF r)
    o.objOvf.length).bumpBy (R.PP_CNT_MERGED r) o.merged).bumpBy (R.PP_CNT_FORCED r) o.forced)
  let m3 := ((((m2.setFlagIf (!o.candOvf.isEmpty) (F.PP_ROW_STAT_cand_ovf r)).setFlagIf (!o.objOvf.isEmpty)
    (F.PP_ROW_STAT_obj_ovf r)).setFlagIf (decide (0 < o.forced)) (F.PP_ROW_STAT_open_forced r)).setFlagIf (ents.any (·.voidTouch))
    (F.PP_ROW_STAT_void_touch r)).setFlagIf (ents.any (·.uncovered)) (F.PP_ROW_STAT_uncovered r)
  m3.onPp fun p => { p with pending := p.pending ++ o.groups }

/-- The bytes of bent SRAM that a DETECT reads: its heads' tensors, one for each ROI window where a head works on crops. -/
def Chip.detectReads (m : Chip) (d : DetDesc) (strip : Nat) : Reads :=
  let n := (((m.outOf d.row strip).map (·.wins)).getD []).length
  (upTo d.heads).flatMap fun i =>
    let h := m.headEntry d i
    rowReads (bentAddr h.bent h.addr) ((if h.src = 0 then 1 else n) * h.cellsY) h.pitch
      (elemBytes h.fmt (h.cellsX * h.anchors * (4 + b2n h.hasObj + d.classes)))

/-- What a DETECT computes for a closed strip, with the errors it meets. -/
def detectWork (c : CutEntry) (cs : ClosedStrip) (er : ReadErrs) (m : Chip) : Running × Chip :=
  let d := m.detDesc c.descPtr
  ({ blankRunning with op := "DETECT", row := d.row, item := cs.strip },
    (m.meetErrs .postproc c (m.detectReads d cs.strip) er).detectStrip d c.job cs er)

/-- DETECT (R197 to R205): `strip` is the row's strip it judges. -/
def detect (dt : Nat) (c : CutEntry) (strip : Nat) (er : ReadErrs) (m0 : Chip) : Chip :=
  let m := elapse dt m0
  let d := m.detDesc c.descPtr
  match m.fire.closed.find? fun x => x.row == d.row && x.strip == strip && x.closeBay == m.closeOf .postproc c with
  | none => m
  | some cs => if d.op ≠ 1 then m else startCmd 0 .postproc c (detectWork c cs er) m

/-! ### Sealing (R206, R207, R436) -/

/-- An object entry's 24 bytes (R209). -/
def entryWords (e : ObjEntry) : List Byte :=
  leBytes 6 (unsignedOf 48 e.countLead) ++ leBytes 2 e.objId ++ leBytes 4 e.countLen ++ leBytes 4 e.colFirst ++ leBytes 4 e.colLast ++
    leBytes 1 e.cls ++ leBytes 1 e.verdict ++ leBytes 1 e.score ++
    leBytes 1 (b2n e.continued + 2 * b2n e.partialObj + 4 * b2n e.openForced + 8 * b2n e.voidTouch + 16 * b2n e.uncovered +
      32 * b2n e.evidence + 64 * b2n e.overflow)
/-- A group's bytes: its header and its entries (R208). -/
def groupBytes (g : VerdictGroup) : List Byte :=
  leBytes 8 g.strip ++ leBytes 8 g.closeBay ++ leBytes 1 g.stream ++ leBytes 1 g.row ++ leBytes 1 g.kind ++ leBytes 1 g.job ++
    leBytes 2 g.objs.length ++
    leBytes 2 (b2n g.candOvf + 2 * b2n g.objOvf + 4 * b2n g.carryLost + 8 * b2n g.incomplete + 16 * b2n g.replay) ++ leBytes 8 0 ++
    g.objs.flatMap entryWords

/-- The marks of the sealed groups of a pair, as a layer 0xFFFF_FFFF, row by row (R432).
(Log: 68 DESIGN CHOICE.) -/
def recordMarks (j k : Nat) (gs : List VerdictGroup) : List Mark :=
  let words := (chunks 8 (gs.flatMap groupBytes)).map ofLeBytes
  if words.isEmpty then []
  else [{ job := j, key := k, layer := 0xFFFFFFFF, row := 31, sum := markSum (words.zipIdx.map fun p => (p.2, Config.recordWord p.1)),
          elements := words.length }]

/-- Seal a pair's marks, or its gap (R436, R42). -/
def Chip.sealMarks (j k : Nat) (gap : Bool) (extra : List Mark) (m : Chip) : Chip :=
  let mine := m.wit.open_.filter fun x => x.job == j && x.key == k
  m.onWit fun w => { w with
    open_ := w.open_.filter (fun x => !(x.job == j && x.key == k)),
    sealed := w.sealed.filter (fun s => !(s.job == j && s.key == k && !s.background)) ++
      [{ job := j, key := k, marks := if gap then [] else mine ++ extra, gap, incomplete := m.follower && m.fire.closed.any fun c =>
        c.closeBay == k && c.jobs.contains j && c.incomplete }] }

/-- The overrun notices of a pair: one for each stream of each strip of the job's rows closed in the close bay (R40). -/
def Chip.noticesOf (m : Chip) (j k : Nat) : List VerdictGroup :=
  let strips := m.fire.closed.filter fun c => c.closeBay == k && c.jobs.contains j
  sortBy (fun a b => decide (a.stream ≤ b.stream)) (strips.flatMap fun c => c.streams.map fun s =>
    { strip := c.strip, closeBay := k, stream := s, row := c.row, kind := 1, job := j, incomplete := c.incomplete, replay := c.replay })

/-- Foreground work of a pair that has not completed yet, in the current bay.
(Log: 69 DEDUCED.) -/
def Chip.pairOpen (m : Chip) (j k : Nat) : Bool :=
  allEngines.any fun e =>
    let s := m.eng e
    (match s.running with
      | some r => r.entry.job == j && r.closeBay == k
      | none => false) ||
    ((m.fgList e m.bay).drop s.pos).any fun c => c.job == j && m.closeOf e c == k && !m.skips e c

/-- Seal one pair: its groups in ascending stream order, counted; an invalid pair as its notices (R206).
(Log: 69 DEDUCED.) -/
def Chip.sealPair (k j : Nat) (m : Chip) : Chip :=
  let mine := sortBy (fun a b => decide (a.stream ≤ b.stream)) (m.pp.pending.filter fun g => g.job == j && g.closeBay == k)
  let drop (m : Chip) : Chip := m.onPp fun p => { p with pending := p.pending.filter fun g => !(g.job == j && g.closeBay == k) }
  if m.pairInvalid j k then
    ((drop m).onPp fun p => { p with queue := p.queue ++ m.noticesOf j k }).sealMarks j k true []
  else
    let m1 := forAll mine (fun g m => (m.bumpBy (R.PP_CNT_OBJ g.row) g.objs.length).bumpBy (R.PP_CNT_INDET g.row)
      (g.objs.filter fun e => e.verdict == 2).length) (drop m)
    (m1.onPp fun p => { p with queue := p.queue ++ mine }).sealMarks j k false (recordMarks j k mine)

/-- END_GUARD_SEAL (R206, R436): in the end guard of a bay, the completed or invalid pairs of close bay (bay + 1 − D) are
sealed; once in a bay.
(Log: 69 DEDUCED.) -/
def endGuardSeal (dt : Nat) (m0 : Chip) : Chip :=
  let m := elapse dt m0
  if !m.bays.running || m.pp.sealedFor == some m.bay || m.bay + 1 < m.depth || m.coreCycle < m.planned - 5000 then m
  else
    let k := m.bay + 1 - m.depth
    let pairs := (m.stick.jobs.filter fun j => j.cls == 1 && !j.screening && m.processes j.job k).map (·.job)
    let m1 := forAll (pairs.filter fun j => m.pairInvalid j k || !m.pairOpen j k) (fun j m => m.sealPair k j) m
    m1.onPp fun p => { p with sealedFor := some m.bay }

/-- At the boundary that begins bay `b`: pairs of close bay b − D that the deadline made invalid after sealing are flushed and
their notices take their place; a valid pair that was not sealed is treated as invalid (R206, R207, R214).
(Log: 69 DEDUCED.) -/
def Chip.ppBoundary (b : Nat) (m : Chip) : Chip :=
  if b < m.depth then m
  else
    let k := b - m.depth
    let jobs := (m.stick.jobs.filter fun j => j.cls == 1 && !j.screening && m.processes j.job k).map (·.job)
    let step (j : Nat) (m : Chip) : Chip :=
      let sealed := m.wit.sealed.any fun s => s.job == j && s.key == k && !s.background
      let flush (m : Chip) : Chip :=
        ((m.onPp fun p => { p with queue := p.queue.filter (fun g => !(g.job == j && g.closeBay == k && g.kind == 0)),
                                   pending := p.pending.filter (fun g => !(g.job == j && g.closeBay == k)) }).onPp fun p =>
          { p with queue := p.queue ++ (if p.queue.any fun g => g.job == j && g.closeBay == k then [] else m.noticesOf j k) }).sealMarks
            j k true []
      if m.pairInvalid j k then flush m
      else if sealed then m
      else flush ((m.setFlag F.PP_STAT_seal_late).invalidate j k)
    ((forAll jobs step m).discardInvalid).onPp fun p => { p with sealedFor := none }

/-! ### The meanings of the commands -/

/-- END_GUARD_SEAL (R206). -/
def execEndGuardSeal (dt : Nat) (s : State) : Answer :=
  onUnit true dt (endGuardSeal dt) s
/-- DETECT (R199). -/
def execDetect (dt : Nat) (c : CutEntry) (strip : Nat) (er : ReadErrs) (s : State) : Answer :=
  onUnit true dt (detect dt c strip er) s

end Sys2Proof.Machine
end

