-- ==== Sys2Proof/Machine/Memories.lean ====
section
/-!
DEFINITION. Sys2Proof/Machine/Memories.lean: the commands of the memories (R238 to R278): DMA copies and clears, the capture-memory
DMA, scrub laps, the replacement of capture memory's key.
-/
namespace Sys2Proof.Machine

/-- The DMA descriptor (R250). -/
structure DmaDesc where
  op : Nat
  src : Nat
  dst : Nat
  kind : Nat
  multicast : Bool
  peer : Nat
  rows : Nat
  rowBytes : Nat
  srcAddr : Nat
  dstAddr : Nat
  srcPitch : Nat
  dstPitch : Nat
  mask : Nat
  deriving DecidableEq, Repr

def Chip.dmaDesc (m : Chip) (p : Nat) : DmaDesc :=
  let f (o n : Nat) := m.descNum (p + o) n
  { op := f 0 1, src := f 1 1 % 16, dst := f 1 1 / 16, kind := f 2 1 % 4, multicast := bitN (f 2 1) 2, peer := f 3 1, rows := f 4 2,
    rowBytes := f 8 4, srcAddr := f 0x10 8, dstAddr := f 0x18 8, srcPitch := f 0x20 4, dstPitch := f 0x24 4, mask := f 0x28 4 }

/-- Global address of byte `a` of a space, seen from bent `n`: 0 own SRAM, 1 the peer's SRAM, 2 HBM, 3 capture memory. -/
def spaceAddr (n : Nat) (d : DmaDesc) (space a : Nat) : Nat := match space with
  | 1 => bentAddr d.peer a
  | 2 => hbmAddr a
  | 3 => cmAddr a
  | _ => bentAddr n a

/-- The bents that receive the rows. -/
def DmaDesc.targets (n : Nat) (d : DmaDesc) : List (Nat → Nat) :=
  if d.multicast then ((upTo Config.bents).filter (bitN d.mask)).map bentAddr else [spaceAddr n d d.dst]

/-- The rows of a COPY as writes. -/
def Chip.copyRows (m : Chip) (er : ReadErrs) (n : Nat) (d : DmaDesc) : List (Nat × List Byte) :=
  (upTo d.rows).flatMap fun i =>
    let row := m.readMem er (spaceAddr n d d.src (d.srcAddr + i * d.srcPitch)) d.rowBytes
    (DmaDesc.targets n d).map fun f => (f (d.dstAddr + i * d.dstPitch), row)

/-- The rows that a COPY reads. -/
def DmaDesc.reads (n : Nat) (d : DmaDesc) : Reads := (upTo d.rows).map fun i => (spaceAddr n d d.src (d.srcAddr + i * d.srcPitch), d.rowBytes)

/-- What a DMA_COPY moves. -/
def Chip.copyWork (m : Chip) (n : Nat) (c : CutEntry) (er : ReadErrs) : Running :=
  { blankRunning with op := "DMA", writes := m.copyRows er n (m.dmaDesc c.descPtr) }

/-- DMA_COPY (R250, R251).
(Log: 80 DESIGN CHOICE.) -/
def dmaCopy (dt n : Nat) (c : CutEntry) (er : ReadErrs) (m0 : Chip) : Chip :=
  let m := elapse dt m0
  if (m.dmaDesc c.descPtr).kind ≠ 0 then m
  else bentCommand 0 n 4 c er 0 (fun m => DmaDesc.reads n (m.dmaDesc c.descPtr)) (fun m => m.copyWork n c er) m

/-- The ranges that a CLEAR clears, seen from bent `n`. -/
def DmaDesc.clearRanges (n : Nat) (d : DmaDesc) : List (Nat × Nat) :=
  (upTo d.rows).flatMap fun i => (DmaDesc.targets n d).map fun f => (f (d.dstAddr + i * d.dstPitch), d.rowBytes)

/-- What a DMA_CLEAR clears. -/
def Chip.clearWork (m : Chip) (n : Nat) (c : CutEntry) : Running :=
  { blankRunning with op := "DMA", clears := DmaDesc.clearRanges n (m.dmaDesc c.descPtr) }

/-- DMA_CLEAR (R247, R250): the valid bits of the destination ranges. -/
def dmaClear (dt n : Nat) (c : CutEntry) (m0 : Chip) : Chip :=
  let m := elapse dt m0
  if (m.dmaDesc c.descPtr).kind ≠ 1 then m else bentCommand 0 n 4 c {} 0 (fun _ => []) (fun m => m.clearWork n c) m

/-- What a CM_DMA moves or clears, with the errors it meets. -/
def cmDmaWork (c : CutEntry) (er : ReadErrs) (m : Chip) : Running × Chip :=
  let d := m.dmaDesc c.descPtr
  if d.kind = 1 then ({ blankRunning with op := "CM_DMA", clears := DmaDesc.clearRanges d.peer d }, m)
  else
    let m1 := m.meetErrs .cmDma c (DmaDesc.reads d.peer d) er
    ({ blankRunning with op := "CM_DMA", writes := m1.copyRows er d.peer d }, m1)

/-- CM_DMA (R251): the capture-memory DMA engine; its Ridge end is the SRAM of the peer bent. -/
def cmDma (dt : Nat) (c : CutEntry) (er : ReadErrs) (m0 : Chip) : Chip :=
  let m := elapse dt m0
  if (m.dmaDesc c.descPtr).op ≠ 4 then m else startCmd 0 .cmDma c (cmDmaWork c er) m

/-- SCRUB_LAP (R248, R267): bent `n`'s scrubber ends a lap, having met in the bent's own SRAM the errors given and every granule whose
code is faulty still; it invalidates no pair. A lap over the limit raises bent-SRAM-scrub.
(Log: 80 DESIGN CHOICE.) -/
def scrubLap (dt n : Nat) (er : ReadErrs) (m0 : Chip) : Chip :=
  let m := elapse dt m0
  if !m.flag (F.BENT_SRAM_CFG_scrub_en n) then m
  else
    let e := m.eng (.bent n)
    let us := min 0xFFFFFFFF ((m.now - e.lapFrom) / 1000)
    let own (l : List Nat) : List Nat := l.filter fun g => bentOf g == n
    let all := m.allErrs [(bentAddr n 0, Config.bentSram)] er
    let m1 := ((m.sramCorrected true (own all.sramCe)).sramLost true (own all.sramUe)).sramParity true (own all.sramPe)
    let m2 := (m1.setEng (.bent n) { e with lapFrom := m.now }).bump (R.BENT_CNT_LAPS n)
    let m3 := (m2.wr (R.BENT_SCRUB_LAP n) (BitVec.ofNat 32 us)).wr (R.BENT_SCRUB_WORST n)
      (BitVec.ofNat 32 (max us (m2.rd (R.BENT_SCRUB_WORST n)).toNat))
    if m.get (F.BENT_SRAM_CFG_scrub_limit n) * 1000000 < m.now - e.lapFrom then
      (m3.setFlag (F.BENT_SRAM_STAT_scrub_slow n)).raise SrcName.bentSramScrub
    else m3

/-! ### The key of capture memory (R258) -/

/-- Replace the key pair: every region is declared empty, a new epoch begins. What cameras had recorded is under an earlier
key, and the lines that wait for alignment are lost (R102, R259). The labelled sets are read again from the NVMe store (R547). -/
def Chip.replaceKeys (m : Chip) : Chip :=
  let m1 := ((m.clearCm.put F.CM_KEY_key_epoch (min 65535 (m.get F.CM_KEY_key_epoch + 1))).setFlag F.CM_STAT_key_changed)
  let m2 := forAll (m1.stick.cameras.map (·.master)) (fun n m =>
    let p := m.pipe n
    (m.setCam n { m.cam n with keyIdx := (m.cam n).lastIdx.orElse fun _ => (m.cam n).keyIdx }).setPipe n
      { p with leadLost := p.lines.map fun l => (l.idx, 0, 16383) }) m1
  { m2 with heads := m2.heads.filterMap fun h =>
      let v : HeadState := { h.2 with staging := [], ring := [], labelled := if m.get F.RP_STRAP_boot_src = 2 then [] else h.2.labelled }
      if v = {} then none else some (h.1, v) }

/-- ZEROISE (R258, R276): a signed maintainer command replaces the key pair. -/
def zeroise (dt : Nat) (a : Auth) (m : Chip) : Chip := (elapse dt m).signed false false a fun m => (true, m.replaceKeys)

/-! ### The meanings of the commands -/

/-- DMA_COPY (R251). -/
def execDmaCopy (dt n : Nat) (c : CutEntry) (er : ReadErrs) (s : State) : Answer :=
  onUnit (decide (n < Config.bents)) dt (dmaCopy dt n c er) s
/-- DMA_CLEAR (R247). -/
def execDmaClear (dt n : Nat) (c : CutEntry) (s : State) : Answer :=
  onUnit (decide (n < Config.bents)) dt (dmaClear dt n c) s
/-- CM_DMA (R251). -/
def execCmDma (dt : Nat) (c : CutEntry) (er : ReadErrs) (s : State) : Answer :=
  onUnit true dt (cmDma dt c er) s
/-- ZEROISE (R276). -/
def execZeroise (dt : Nat) (a : Auth) (s : State) : Answer :=
  onUnit true dt (zeroise dt a) s
/-- SCRUB_LAP (R248). -/
def execScrubLap (dt n : Nat) (er : ReadErrs) (s : State) : Answer :=
  onUnit (decide (n < Config.bents)) dt (scrubLap dt n er) s

end Sys2Proof.Machine
end

