-- ==== Sys2Proof/Machine/Adapt.lean ====
section
/-!
DEFINITION. Sys2Proof/Machine/Adapt.lean: adaptation of classifier heads: samples, labels, training, candidates, approval and
commit (R543 to R558, R561 to R563).
-/
namespace Sys2Proof.Machine

def Chip.headRec (m : Chip) (h : Nat) : Option HeadRec := m.stick.heads.find? fun r => r.head == h
/-- Classes of a head (R561). -/
def Chip.dOut (m : Chip) (h : Nat) : Nat := m.get (F.ADAPT_CFG_d_out h) + 1
def Chip.headKind (m : Chip) (h : Nat) : Nat := m.get (F.ADAPT_CFG_kind h)

/-- The state of a head as ADAPT_STAT shows it (R562). -/
def Chip.showHead (h : Nat) (m : Chip) : Chip :=
  let v := m.head h
  m.put (F.ADAPT_STAT_state h) (if v.run.isSome then 1 else if v.due.isSome then 4 else if v.cand.isSome then 3 else 0)

/-! ### Samples (R544 to R547) -/

/-- An object is captured for a head (R544). -/
def captures (r : HeadRec) (g : VerdictGroup) (e : ObjEntry) : Bool :=
  decide (e.verdict ≤ 1) && decide (r.classLo ≤ e.cls) && decide (e.cls ≤ r.classHi) && decide (r.qLo ≤ e.score) && decide (e.score ≤ r.qHi) &&
    mixN g.strip (g.stream * 65536 + e.objId) % max 1 r.rate == 0 && !g.replay && decide (g.row < 8)

/-- SAMPLE_CAPTURE (R545): the capture command of head `h` stages the qualifying objects of the pair's pending groups; `feats` gives
the features the head reads for an object (stream, strip, obj_id). A lock-step follower captures nothing.
(Log: 84 DESIGN CHOICE.) -/
def sampleCapture (dt h : Nat) (feats : List ((Nat × Nat × Nat) × List Byte)) (m0 : Chip) : Chip :=
  let m := elapse dt m0
  match m.headRec h with
  | none => m
  | some r =>
    let k := m.bay + 1 - m.depth
    if !m.bays.running || m.bay + 1 < m.depth || m.follower || m.headKind h == 0 || m.pairInvalid r.job k || !m.processes r.job k then m
    else
      let gs := m.pp.pending.filter fun g => g.job == r.job && g.closeBay == k && g.kind == 0
      let new : List Sample := gs.flatMap fun g => (g.objs.filter (captures r g)).map fun e =>
        { head := h, closeBay := k, strip := g.strip, objId := e.objId, stream := g.stream, cls := e.cls,
          epoch := m.get F.CM_KEY_key_epoch,
          feats := ((feats.find? fun f => f.1 == (g.stream, g.strip, e.objId)).map (·.2)).getD [] }
      m.setHead h { m.head h with staging := (m.head h).staging ++ new }

/-- Staged samples that can no longer be committed at the boundary that begins bay `b` (R545): of close bays before b − D, of an
invalid pair. -/
def Chip.dropStaged (b : Nat) (m : Chip) : Chip :=
  forAll (upTo 8) (fun h m =>
    let v := m.head h
    let job := ((m.headRec h).map (·.job)).getD 128
    m.setHead h { v with staging := v.staging.filter fun s => decide (b ≤ s.closeBay + m.depth) && !m.pairInvalid job s.closeBay }) m

/-- A sample is a validation sample of the head's run (R549). -/
def Chip.validates (m : Chip) (h : Nat) (s : Sample) : Bool := match (m.head h).run with
  | some t => s.label.isSome && decide (mixN t.seed s.id % 16 < m.get (F.ADAPT_CFG_val_16 h))
  | none => false

/-- The bytes of a sample record (R546). -/
def Chip.sampleRecord (m : Chip) (h : Nat) (s : Sample) : List Byte :=
  leBytes 8 s.id ++ leBytes 8 s.closeBay ++ leBytes 8 s.strip ++ leBytes 2 s.objId ++ leBytes 1 s.stream ++ leBytes 1 s.cls ++
    leBytes 2 (s.label.getD 0xFFFF) ++ leBytes 2 (b2n s.label.isSome + 2 * b2n s.excluded + 4 * b2n (m.validates h s)) ++ leBytes 8 s.epoch ++
    leBytes 4 s.feats.length ++ leBytes 1 s.head ++ leBytes 19 0 ++ s.feats ++ leBytes (ceilDivN s.feats.length 64 * 64 - s.feats.length) 0

/-- A change to the labelled set is written through to the NVMe store, where there is one, and recorded in the NV log (R547). -/
def Chip.storeLabel (h id : Nat) (m : Chip) : Chip :=
  let m1 := match (m.head h).labelled.find? fun x => x.id == id with
    | some s => if m.get F.RP_STRAP_boot_src = 2 then m else m.emit (.send "nvme" h "labelled sample" ((m.sampleRecord h s).map fun b : Byte => b.toNat))
    | none => m
  m1.log "label" [h, id, m.bay]

/-- LABEL (R547): label, relabel or exclude a sample (`label` none excludes).
(Log: 87 DEDUCED.) -/
def label (dt session h id : Nat) (lab : Option Nat) (m0 : Chip) : Chip :=
  let m := (elapse dt m0).touch session
  match m.session session with
  | none => m
  | some s =>
    let v := m.head h
    let reply (code : Nat) (m : Chip) : Chip := m.answer session "status" [code]
    let note (m : Chip) : Chip := m.storeLabel h id
    if s.level = 0 then reply 1 m
    else if (m.headRec h).isNone || m.headKind h == 0 then reply 3 m
    else match lab with
      | none =>
        if v.labelled.any fun x => x.id == id then
          reply 0 (note (m.setHead h { v with labelled := v.labelled.map fun x => if x.id = id then { x with excluded := true } else x }))
        else reply 3 m
      | some c =>
        if m.dOut h ≤ c then reply 5 m
        else if v.labelled.any fun x => x.id == id then
          reply 0 (note (m.setHead h { v with labelled := v.labelled.map fun x =>
            if x.id = id then { x with label := some c, excluded := false } else x }))
        else match v.ring.find? fun x => x.id == id with
          | none => reply 3 m
          | some x =>
            if ((m.headRec h).map (·.nLab)).getD 0 ≤ v.labelled.length then reply 6 (m.setFlag (F.ADAPT_STAT_lab_full h))
            else
              let le (a b : Sample) : Bool := decide (a.id ≤ b.id)
              reply 0 (note (m.setHead h { v with labelled := insertBy le { x with label := some c } v.labelled,
                                                  ring := v.ring.map fun y => if y.id = id then { y with label := some c } else y }))

/-! ### Weights -/

/-- Master weights of a head: W row by row and b, after the query of an attention head. -/
def headSize (kind dOut dIn : Nat) : Nat := (if kind = 2 then dIn else 0) + dOut * (dIn + 1)
/-- Log: 86 DESIGN CHOICE. -/
def Chip.headWeights (m : Chip) (h : Nat) (r : HeadRec) : Nat := headSize (m.headKind h) (m.dOut h) r.dIn
/-- Bytes of the serving weights: the elements, then the block scales of an MX format.
(Log: 86 DESIGN CHOICE.) -/
def servingBytes (fmt n : Nat) : Nat := ceilDivN (n * fmtBits fmt) 8 + (if isMx fmt then ceilDivN n 32 else 0)

/-- A weight of the serving format as FP32 (R548).
(Log: 86 DESIGN CHOICE.) -/
def servingWeight (r : HeadRec) (n : Nat) (bytes : List Byte) (i : Nat) : Nat :=
  let w := fmtBits r.fmt
  let raw := ofLeBytes ((bytes.drop (i * w / 8)).take (w / 8 + 1)) / 2 ^ (i * w % 8) % 2 ^ w
  let v := decElem r.fmt raw
  if isMx r.fmt then toF32 (scaleElem (bytes.getD (ceilDivN (n * w) 8 + i / 32) 0).toNat v)
  else if isInt r.fmt then divF32 (toF32 v) r.factor
  else toF32 v

/-- Weights quantised into the serving format (R553). -/
def serveBytes (r : HeadRec) (l : List Nat) : List Byte :=
  let w := fmtBits r.fmt
  if isMx r.fmt then
    let q := mxQuantise r.fmt r.maxScale l
    packBits w (q.2.map (·.bits)) ++ q.1.map (BitVec.ofNat 8)
  else if isInt r.fmt then packBits w (l.map fun x => (encInt r.fmt (elemMul (f32 x) (f32 r.factor))).bits)
  else packBits w (l.map fun x => (encElem r.fmt false (f32 x)).bits)

/-- The validation samples of a frozen set (R549).
(Log: 87 DEDUCED.) -/
def valSamples (seed val : Nat) (l : List Sample) : List Sample := l.filter fun s => decide (mixN seed s.id % 16 < val)
def nats (l : List Byte) : List Nat := l.map (·.toNat)

/-- Form a candidate from master weights and validate it on the samples `vals` (R553). -/
def Chip.formCandidate (h : Nat) (r : HeadRec) (vals : List Sample) (master : List Nat) (m : Chip) : Chip :=
  let bytes := serveBytes r master
  let hash := Config.sha384 bytes
  let ok := vals.filter fun s => some (Config.headClass Config.ucodeLevel [m.headKind h, r.fmt] (nats bytes) (nats s.feats)) == s.label
  let m1 := m.setHead h { m.head h with cand := some (hash, bytes) }
  let m2 := ((m1.put (F.ADAPT_VAL_correct h) (min 65535 ok.length)).put (F.ADAPT_VAL_total h) (min 65535 vals.length)).wr64
    (R.ADAPT_CAND_LO h) (R.ADAPT_CAND_HI h) (hash % 2 ^ 64)
  (m2.emit (.send "adapt" h "candidate" [hash])).showHead h

/-! ### Training (R548 to R552) -/

/-- A decimal default as FP32. -/
def f32Of (num : Int) (den : Nat) : Nat := toF32 (.num ⟨num, den⟩)
/-- A setting lies in its range (R551), whose ends are read as FP32 values. -/
def inRange (x : Nat) (lo hi : Q) : Bool := match f32 x, f32 (toF32 (.num lo)), f32 (toF32 (.num hi)) with
  | .num q, .num a, .num b => qLe a q && qLe q b
  | _, _, _ => false

/-- The settings of a run: the command's, else the story stick's, else the default. -/
def runOf (adam : Bool) (seed epochs : Nat) (o : TrainOpts) (r : HeadRec) : TrainRun :=
  let pick (a b : Option Nat) (d : Nat) : Nat := (a.orElse fun _ => b).getD d
  { seed, epochs, adam, lr := pick o.lr r.lr (if adam then f32Of 1 1000 else f32Of 1 100), mu := pick o.mu r.mu (f32Of 9 10),
    b1 := pick o.b1 r.b1 (f32Of 9 10), b2 := pick o.b2 r.b2 (f32Of 999 1000), eps := pick o.eps r.eps (f32Of 1 100000000),
    wd := pick o.wd r.wd (f32Of 1 100) }
def runOk (t : TrainRun) : Bool :=
  inRange t.lr ⟨1, 10 ^ 7⟩ ⟨1, 1⟩ && inRange t.mu ⟨0, 1⟩ ⟨999, 1000⟩ && inRange t.b1 ⟨0, 1⟩ ⟨999, 1000⟩ &&
    inRange t.b2 ⟨0, 1⟩ ⟨9999, 10000⟩ && inRange t.eps ⟨1, 10 ^ 12⟩ ⟨1, 1000⟩ && inRange t.wd ⟨0, 1⟩ ⟨1, 10⟩

/-- TRAIN_START (R548): a signed maintainer command; `fromLast` starts from the master weights of the last run, otherwise the serving
weights are read from HBM, with the errors `er` (R255).
(Log: 87 DEDUCED.) -/
def trainStart (dt : Nat) (a : Auth) (h seed epochs : Nat) (o : TrainOpts) (fromLast : Bool) (er : ReadErrs) (m : Chip) : Chip :=
  (elapse dt m).signed false false a fun m =>
    match m.headRec h with
    | none => (false, m)
    | some r =>
      let v := m.head h
      let n := m.headWeights h r
      let t := runOf (o.adam.getD (m.flag (F.ADAPT_CFG_opt h))) (seed % 2 ^ 64) epochs o r
      if v.run.isSome then (false, m.answer a.session "busy" [])
      else if m.headKind h = 0 || epochs = 0 || decide (1000 < epochs) || !runOk t || (fromLast && v.master.isEmpty) then (false, m)
      else
        let serving := m.readMem er (hbmAddr r.wAddr) (servingBytes r.fmt n)
        let master := if fromLast then v.master else (upTo n).map (servingWeight r n serving)
        let m1 := if fromLast then m else m.hbmErrs er
        (true, ((m1.setHead h { v with run := some { t with vs := List.replicate n 0, ms := List.replicate n 0 }, master }).put
          (F.ADAPT_STAT_epoch h) 0).showHead h)

/-- One Feistel network of R549. -/
def feistel (seed e b x : Nat) : Nat :=
  let wl := b / 2
  let wr := b - wl
  let round (s : Nat × Nat × Nat × Nat) (i : Nat) : Nat × Nat × Nat × Nat :=
    let (l, r, wl, wr) := s
    (r, l ^^^ (mixN (mixN seed ((4 * e + i) % 2 ^ 64)) r % 2 ^ wl), wr, wl)
  let (l, r, _, wr') := (upTo 4).foldl round (x / 2 ^ wr, x % 2 ^ wr, wl, wr)
  l * 2 ^ wr' + r
/-- The cycle walk of R549; a walk ends within 2ᵇ steps. -/
def permWalk (seed e b n : Nat) : Nat → Nat → Nat
  | 0, x => x
  | f + 1, x => if n ≤ x then permWalk seed e b n f (feistel seed e b x) else x
/-- perm of R549. -/
def perm (seed e n p : Nat) : Nat :=
  let b := max 2 (if n ≤ 1 then 0 else Nat.log2 (n - 1) + 1)
  permWalk seed e b n (2 ^ b) (feistel seed e b p)

/-- The training list of a frozen set (R549): it stands in ascending sample_id. -/
def trainList (seed val : Nat) (l : List Sample) : List Sample :=
  l.filter fun s => !decide (mixN seed s.id % 16 < val) && !s.excluded

/-- One weight's update (R551): master weight, v, m and gradient give the new three. -/
def sgdStep (t : TrainRun) (w v g0 : Nat) : Nat × Nat :=
  let g := addF32 g0 (mulF32 t.wd w)
  let v1 := addF32 (mulF32 t.mu v) g
  (subF32 w (mulF32 t.lr v1), v1)
def one32 : Nat := 0x3F800000
def adamStep (t : TrainRun) (p1 p2 w v mm g : Nat) : Nat × Nat × Nat :=
  let m1 := addF32 (mulF32 t.b1 mm) (mulF32 (subF32 one32 t.b1) g)
  let v1 := addF32 (mulF32 t.b2 v) (mulF32 (mulF32 (subF32 one32 t.b2) g) g)
  let den := addF32 (sqrtF32 (divF32 v1 (subF32 one32 p2))) t.eps
  let upd := addF32 (divF32 (divF32 m1 (subF32 one32 p1)) den) (mulF32 t.wd w)
  (subF32 w (mulF32 t.lr upd), v1, m1)

/-- The slots of step `j` (R550): the sample of each position, none for a masked slot. -/
def batchSlots (t : TrainRun) (bsz : Nat) (list : List Sample) (gone : Sample → Bool) (unread : List Nat) : List (Option Sample) :=
  (upTo bsz).map fun i =>
    let p := t.step * bsz + i
    if list.length ≤ p || unread.contains i then none
    else match list[perm t.seed t.epoch list.length p]? with
      | some s => if gone s then none else some s
      | none => none

/-- The update of one step: gradients summed over the slots by the tree of R173, then every weight updated.
(Log: 85 DESIGN CHOICE.) -/
def stepWeights (kind : Nat) (t : TrainRun) (master : List Nat) (slots : List (Option Sample)) : TrainRun × List Nat :=
  let nReal := (slots.filter Option.isSome).length
  if nReal = 0 then (t, master)
  else
    let grad (w : Nat) : Nat := treeSum (treeDepth slots.length) (slots.map fun s => match s with
      | none => 0
      | some s => Config.slotGrad Config.ucodeLevel [kind, w, nReal, s.label.getD 0] master (nats s.feats) % 2 ^ 32)
    let p1 := mulF32 t.p1 t.b1
    let p2 := mulF32 t.p2 t.b2
    let n := master.length
    if t.adam then
      let l := (upTo n).map fun i => adamStep t p1 p2 (master.getD i 0) (t.vs.getD i 0) (t.ms.getD i 0) (grad i)
      ({ t with vs := l.map (·.2.1), ms := l.map (·.2.2), p1, p2 }, l.map (·.1))
    else
      let l := (upTo n).map fun i => sgdStep t (master.getD i 0) (t.vs.getD i 0) (grad i)
      ({ t with vs := l.map (·.2) }, l.map (·.1))

/-- The adaptation job, if it runs. -/
def Chip.adaptJob (m : Chip) : Option Nat := (m.stick.jobs.find? fun j => j.adapt && (m.jobRun j.job).applied).map (·.job)

/-- The last epoch is over, or a stop takes effect (R553). Samples that a replacement of the key took away are not read (R258). -/
def Chip.endRun (h : Nat) (r : HeadRec) (t : TrainRun) (m : Chip) : Chip :=
  let v := m.head h
  let set_ := (t.frozen.getD v.labelled).filter fun s => v.labelled.any fun x => x.id == s.id
  (m.setHead h { v with run := none }).formCandidate h r (valSamples t.seed (m.get (F.ADAPT_CFG_val_16 h)) set_) v.master

/-- Freeze the labelled set at the start of an epoch; an epoch with an empty training list has no step (R549, R550).
(Log: 85 DESIGN CHOICE, 87 DEDUCED.) -/
def nextEpoch (val : Nat) (set_ : List Sample) : Nat → TrainRun → TrainRun
  | 0, t => t
  | f + 1, t =>
    if t.epochs ≤ t.epoch then t
    else
      let t1 := { t with frozen := some set_, step := 0 }
      if (trainList t.seed val set_).isEmpty then nextEpoch val set_ f { t1 with epoch := t.epoch + 1 } else t1

/-- TRAINING_STEP (R549 to R553): the adaptation job runs one batch step of head `h`; the samples of the slots in `lost` cannot be read at
the addresses given, and those at `ce` are read corrected (R259). After the last step of the last epoch, and after a stop, the candidate is formed.
(Log: 87 DEDUCED.) -/
def trainingStep (dt h : Nat) (lost : List (Nat × Nat)) (ce : List Nat) (m0 : Chip) : Chip :=
  let m := elapse dt m0
  let unread := lost.map (·.1)
  match m.headRec h, (m.head h).run, m.adaptJob with
  | some r, some t0, some j =>
    let v := m.head h
    let val := m.get (F.ADAPT_CFG_val_16 h)
    let bsz := m.get (F.ADAPT_CFG_batch h)
    let t := if t0.frozen.isSome then t0 else nextEpoch val v.labelled (t0.epochs + 1) t0
    let list := trainList t.seed val (t.frozen.getD [])
    if list.isEmpty then m.endRun h r t
    else
      let gone (s : Sample) : Bool := !v.labelled.any fun x => x.id == s.id
      let slots := batchSlots t bsz list gone unread
      let masked := (upTo bsz).filter fun i => decide (t.step * bsz + i < list.length) && (slots.getD i none).isNone
      let skip := unread.filter fun i => decide (i < bsz) && decide (t.step * bsz + i < list.length)
      let (t1, master) := stepWeights (m.headKind h) t v.master slots
      let last := decide (list.length ≤ (t.step + 1) * bsz)
      let t2 : TrainRun := if last then { t1 with step := 0, epoch := t.epoch + 1, frozen := if t.epoch + 1 < t.epochs then none else t.frozen }
        else { t1 with step := t.step + 1 }
      let m1 := ((m.cmErrs { cmCe := ce, cmUe := lost.map (·.2) }).setHead h { v with run := some t2, master }).stepDone j
      let m2 := ((m1.bump (R.ADAPT_CNT_STEP h)).bumpBy (R.ADAPT_CNT_SKIP h) skip.length).setFlagIf (!masked.isEmpty) (F.ADAPT_STAT_masked h)
      let m3 := m2.put (F.ADAPT_STAT_epoch h) (min 1023 t2.epoch)
      if t2.stopDue || decide (t2.epochs ≤ t2.epoch) then m3.endRun h r t2 else m3
  | _, _, _ => m

/-- ADAPT_STOP (R553, R562): training ends at the next step boundary. -/
def adaptStop (h : Nat) (m : Chip) : Chip :=
  let v := m.head h
  m.setHead h { v with run := v.run.map fun t => { t with stopDue := true } }

/-! ### Approval and commit (R554, R555) -/

/-- APPROVE_HEAD (R554): an owner command names the head, the candidate's hash and the hash of the signed part of the running stick. -/
def approveHead (dt : Nat) (a : Auth) (h hash stick : Nat) (m : Chip) : Chip :=
  (elapse dt m).signed true false a fun m =>
    let v := m.head h
    match v.cand with
    | none => (false, m.answer a.session "mismatch" [])
    | some c =>
      if c.1 ≠ hash ∨ stick ≠ m.stick.hash ∨ !m.stick.loaded then (false, m.answer a.session "mismatch" [])
      else
        let ap : Approval := { hash, weights := some c.2, stick }
        (true, (m.setHead h { v with due := some (m.bay + 2, ap), stored := some ap }).showHead h)

/-- The story stick's own weights of a head. -/
def Chip.ownWeights (m : Chip) (r : HeadRec) (n : Nat) : List Byte :=
  match m.stick.segs.find? fun s => s.seg == r.wSeg with
  | some s => (s.bytes.drop (r.wAddr - s.target)).take n
  | none => []

/-- REVERT_HEAD (R554): an owner command commits the story stick's own weights and deletes the stored approval. -/
def revertHead (dt : Nat) (a : Auth) (h : Nat) (m : Chip) : Chip :=
  (elapse dt m).signed true false a fun m =>
    if (m.headRec h).isNone then (false, m)
    else (true, (m.setHead h { m.head h with due := some (m.bay + 2, { hash := 0, weights := none, stick := m.stick.hash }),
                                             stored := none }).showHead h)

/-- Commit an approval (R554): the segment's hash register is cleared, the head's weights are written. -/
def Chip.commitHead (h : Nat) (r : HeadRec) (ap : Approval) (m : Chip) : Chip :=
  let n := servingBytes r.fmt (m.headWeights h r)
  let m1 := (m.clearSeg fun s => s.seg == r.wSeg).putBytes (hbmAddr r.wAddr) (ap.weights.getD (m.ownWeights r n))
  (m1.setFlag (F.ADAPT_STAT_committed h)).wr64 (R.ADAPT_ACTIVE_LO h) (R.ADAPT_ACTIVE_HI h) (ap.hash % 2 ^ 64)

/-- ADAPT_COMMIT (R554): the head's commit command, in the bay before the boundary a commit is due at; skipped otherwise.
(Log: 84 DESIGN CHOICE.) -/
def adaptCommit (dt h : Nat) (m0 : Chip) : Chip :=
  let m := elapse dt m0
  match m.headRec h, (m.head h).due with
  | some r, some (b, ap) =>
    if !m.bays.running || m.bay + 1 < b then m
    else (((m.commitHead h r ap).log "commit" [h, b]).setHead h { m.head h with due := none }).showHead h
  | _, _ => m

/-- At a start, every stored approval that names the running stick is committed again; another is not applied (R554, R555), and its
head runs on the story stick's own weights (R563). -/
def Chip.recommit (m : Chip) : Chip :=
  forAll (upTo 8) (fun h m =>
    let v := m.head h
    match v.stored, m.headRec h with
    | some ap, some r =>
      if ap.stick = m.stick.hash then ((m.commitHead h r ap).setHead h { v with due := none }).showHead h
      else (m.setFlag (F.ADAPT_STAT_stale_approval h)).wr64 (R.ADAPT_ACTIVE_LO h) (R.ADAPT_ACTIVE_HI h) 0
    | some _, none => m.setFlag (F.ADAPT_STAT_stale_approval h)
    | none, some _ => m.wr64 (R.ADAPT_ACTIVE_LO h) (R.ADAPT_ACTIVE_HI h) 0
    | none, none => m) m

/-- CLASS_PROMPT (R558): a maintainer command submits a prompt for class `c` of a prompted linear head; the text job's row makes a
candidate in which only that row differs, validated on every labelled sample. The serving weights are read from HBM with the errors `er` (R255).
(Log: 85 DESIGN CHOICE.) -/
def classPrompt (dt : Nat) (a : Auth) (h c : Nat) (text : List Byte) (er : ReadErrs) (m : Chip) : Chip :=
  (elapse dt m).signed false false a fun m =>
    match m.headRec h with
    | none => (false, m)
    | some r =>
      let v := m.head h
      let n := m.headWeights h r
      if m.headKind h ≠ 1 ∨ !m.flag (F.ADAPT_CFG_prompted h) ∨ m.dOut h ≤ c ∨ 1024 < text.length then (false, m)
      else if v.run.isSome then (false, m.answer a.session "busy" [])
      else
        let serving := m.readMem er (hbmAddr r.wAddr) (servingBytes r.fmt n)
        let old := (upTo n).map (servingWeight r n serving)
        let new := old.zipIdx.map fun p =>
          if r.dIn * c ≤ p.2 ∧ p.2 < r.dIn * (c + 1) then Config.promptRow Config.ucodeLevel h text (p.2 - r.dIn * c) % 2 ^ 32 else p.1
        (true, (m.hbmErrs er).formCandidate h r v.labelled new)

/-! ### The meanings of the commands -/

/-- SAMPLE_CAPTURE (R545). -/
def execSampleCapture (dt h : Nat) (feats : List ((Nat × Nat × Nat) × List Byte)) (s : State) : Answer :=
  onUnit (decide (h < 8)) dt (sampleCapture dt h feats) s
/-- ADAPT_COMMIT (R554). -/
def execAdaptCommit (dt h : Nat) (s : State) : Answer :=
  onUnit (decide (h < 8)) dt (adaptCommit dt h) s
/-- LABEL (R547). -/
def execLabel (dt session h id : Nat) (lab : Option Nat) (s : State) : Answer :=
  onUnit (decide (h < 8)) dt (label dt session h id lab) s
/-- TRAIN_START (R548). -/
def execTrainStart (dt : Nat) (a : Auth) (h seed epochs : Nat) (o : TrainOpts) (fromLast : Bool) (er : ReadErrs) (s : State) :
    Answer :=
  onUnit (decide (h < 8)) dt (trainStart dt a h seed epochs o fromLast er) s
/-- TRAINING_STEP (R550). -/
def execTrainingStep (dt h : Nat) (lost : List (Nat × Nat)) (ce : List Nat) (s : State) : Answer :=
  onUnit (decide (h < 8)) dt (trainingStep dt h lost ce) s
/-- ADAPT_STOP (R562). -/
def execAdaptStop (dt h : Nat) (s : State) : Answer :=
  onUnit (decide (h < 8)) dt (fun m => adaptStop h (elapse dt m)) s
/-- APPROVE_HEAD (R554). -/
def execApproveHead (dt : Nat) (a : Auth) (h hash stick : Nat) (s : State) : Answer :=
  onUnit (decide (h < 8)) dt (approveHead dt a h hash stick) s
/-- REVERT_HEAD (R554). -/
def execRevertHead (dt : Nat) (a : Auth) (h : Nat) (s : State) : Answer :=
  onUnit (decide (h < 8)) dt (revertHead dt a h) s
/-- CLASS_PROMPT (R558). -/
def execClassPrompt (dt : Nat) (a : Auth) (h c : Nat) (text : List Byte) (er : ReadErrs) (s : State) : Answer :=
  onUnit (decide (h < 8)) dt (classPrompt dt a h c text er) s

end Sys2Proof.Machine
end

