-- ==== Sys2Proof/Machine/Faults.lean ====
section
/-!
DEFINITION. Sys2Proof/Machine/Faults.lean: the commands of the fault collectors and the supervisor (R453 to R479).
-/
namespace Sys2Proof.Machine

/-- The sticky error flag of the unit behind a source (R149, R179, R212, R214, R235, R448), set when that unit raises its error
output: stud `unit` of the Sill's source 19; the attention engine, the spectral engine, the post-processor and the witness
unit of the Ridge's sources 11 to 14; of bent n's source 32 + n the array or accumulator file for `unit` 0, the vector unit
for any other. No other source has a flag of this kind. -/
def Chip.errorOut (c : Src) (unit : Nat) (m : Chip) : Chip :=
  if c.half = 0 then (if c.num = 19 ∧ unit < 4 then m.setBit R.STUD_STAT unit else m)
  else if c.num = 11 then m.setFlag F.ATT_STAT_eng_err
  else if c.num = 12 then m.setFlag F.SPEC_STAT_eng_err
  else if c.num = 13 then m.setFlag F.PP_STAT_pp_err
  else if c.num = 14 then m.setFlag F.WIT_STAT_wit_err
  else if 32 ≤ c.num ∧ c.num < 64 then
    m.setFlag (if unit = 0 then F.BENT_STAT_array_err (c.num - 32) else F.BENT_STAT_vec_err (c.num - 32))
  else m

/-- SOURCE_ASSERT (R453, R455, R458): an edge of a source's error output. `up` says that it stays up after the edge: a rise,
handled as R455 gives; a source that is up already shows no new edge, but the flag of the unit that rose is set. With `up`
false an output that was up falls, and one that was down has pulsed. A number R471 does not list never asserts. -/
def sourceAssert (dt half num unit : Nat) (up : Bool) (m0 : Chip) : Chip :=
  let m := elapse dt m0
  let c : Src := ⟨half, num⟩
  if !srcUsed half num then m
  else if up then (m.errorOut c unit).assert c
  else if (m.src half num).asserting then m.deassert c
  else (m.errorOut c unit).raise c

/-- The leak interval W / N of a source in ns (R458). -/
def Chip.leakEvery (m : Chip) (c : Src) : Nat :=
  2 ^ m.get (F.FLT_SRC_bkt_k c.half c.num) * 1000000 / max 1 (m.get (F.FLT_SRC_bkt_n c.half c.num))

/-- BUCKET_LEAK (R458): a level above 0 falls by 1 when W / N has passed since it rose from 0 or last fell. -/
def bucketLeak (dt half num : Nat) (m0 : Chip) : Chip :=
  let m := elapse dt m0
  let c : Src := ⟨half, num⟩
  let s := m.src half num
  let due := s.leakFrom + m.leakEvery c
  let lvl := m.get (F.FLT_SRC_level half num)
  if lvl = 0 ∨ m.now < due then m
  else (m.put (F.FLT_SRC_level half num) (lvl - 1)).setSrc half num { s with leakFrom := due }

/-- grace in ns (R456, R477). -/
def Chip.grace (m : Chip) : Nat := m.get F.SUP_CFG_grace * 100000

/-- A pending bit has been set for grace and has not yet escalated. -/
def Chip.graceDue (m : Chip) (c : Src) : Bool :=
  m.pending c && !(m.src c.half c.num).escalated && decide ((m.src c.half c.num).pendSince + m.grace ≤ m.now)

/-- Every source of both collectors. -/
def allSrcs : List Src := ((upTo 128).map fun i => ⟨0, i⟩) ++ (upTo 128).map fun i => ⟨1, i⟩

/-- Each pending bit whose grace has expired enters FIRE-OUT and counts (R456). -/
def Chip.expireGrace (m : Chip) : Chip :=
  forAll (allSrcs.filter fun c => m.graceDue c) (fun c m =>
    ((m.setSrc c.half c.num { m.src c.half c.num with escalated := true }).bump R.SUP_CNT_ESCALATE).enterFireOut (some c)) m

/-- GRACE_EXPIRY (R456). -/
def graceExpiry (dt : Nat) (m0 : Chip) : Chip := (elapse dt m0).expireGrace

/-- PENDING_ACK (R456): writing 1 clears pending bits but those that hardware sets in the same cycle (R12). An expiry that is due in the
same cycle comes first. -/
def pendingAck (dt k mask : Nat) (m0 : Chip) : Chip :=
  let m := (elapse dt m0).expireGrace
  m.wr (R.SUP_PEND k) (m.rd (R.SUP_PEND k) &&& ~~~(BitVec.ofNat 32 mask &&& ~~~(tabGet 0 m.fresh (R.SUP_PEND k))))

/-- SELF_FAULT (R459): a parity error of a collector register, or a disagreement of the supervisor's copies, enters SAFE
directly. For a parity error the spec names no source: cause_src is a free value.
(Log: 33 DESIGN CHOICE.) -/
def selfFault (dt half : Nat) (vote : Bool) (m0 : Chip) : Chip :=
  let m := elapse dt m0
  if vote then ((m.setFlag (F.FLT_CSTAT_sup_vote 0)).raise SrcName.supervisorVote).enterSafe (some SrcName.supervisorVote)
  else
    let (v, m1) := m.draw
    (m1.setFlag (F.FLT_CSTAT_reg_parity half)).enterSafe (some ⟨half, v % 128⟩)

/-- FAULT_LINK_LOSS (R454, R459): the Ridge's heartbeat has been absent for 64 ns, or has returned. -/
def faultLinkLoss (dt : Nat) (lost : Bool) (m0 : Chip) : Chip :=
  let m := elapse dt m0
  if lost then ((m.setFlag (F.FLT_CSTAT_link_loss 0)).assert SrcName.ridgeFaultLink).enterSafe (some SrcName.ridgeFaultLink)
  else m.deassert SrcName.ridgeFaultLink

/-- RAISED_RESTORE (R458, R474): sev_eff goes back to sev_cfg and the bucket empties. -/
def raisedRestore (half num : Nat) (m : Chip) : Chip :=
  ((m.put (F.FLT_SRC_sev_eff half num) (m.get (F.FLT_SRC_sev_cfg half num))).put (F.FLT_SRC_level half num) 0).put
    (F.FLT_SRC_raised half num) 0

/-- DEGRADE_MASK_WRITE (R461, R478): the written mask applies at the next bay boundary. -/
def degradeMaskWrite (mask : Nat) (m : Chip) : Chip :=
  (m.wr R.SUP_DEGRADE_LO (BitVec.ofNat 32 mask)).wr R.SUP_DEGRADE_HI (BitVec.ofNat 32 (mask / 2 ^ 32 % 2 ^ 16))

/-- SAFE_REQ (R476). -/
def safeReq (m : Chip) : Chip := m.enterSafe none

/-- SAFE_REQ_N (R465): the filtered level of the pin; low raises source 0, whose severity is fixed at 3. -/
def safeReqN (dt : Nat) (low : Bool) (m0 : Chip) : Chip := (elapse dt m0).follow low SrcName.safeReqN

/-- FIRE_OUT_REQ (R476). -/
def fireOutReq (m : Chip) : Chip := m.enterFireOut none

/-- The conditions a resume needs (R463).
(Log: 32 DEDUCED.) -/
def Chip.resumeOk (m : Chip) : Bool := !m.anyPending && !m.sev3Asserting && m.role != 2

/-- RESUME (R463): accepted for the next bay boundary, or refused.
(Log: 32 DEDUCED.) -/
def resume (m : Chip) : Chip :=
  if !m.resumeOk then m.setFlag F.SUP_MODE_resume_refused
  else if m.mode = 2 then { m with sup := { m.sup with resumeDue := true } }
  else m

/-- KICK (R466): the watchdog period starts again. -/
def kick (dt : Nat) (m0 : Chip) : Chip :=
  let m := elapse dt m0
  { m with sup := { m.sup with wdFrom := m.now } }

/-- WATCHDOG_EXPIRY (R466): no kick within wd_period raises the source, and a new period begins. -/
def watchdogExpiry (dt : Nat) (m0 : Chip) : Chip :=
  let m := elapse dt m0
  let due := m.sup.wdFrom + m.get F.SUP_CFG_wd_period * 1000000
  if m.now < due then m
  else ({ m with sup := { m.sup with wdFrom := due } }.bump R.SUP_CNT_WD).raise SrcName.joinerWatchdog

/-- A source with its shed flag is latched (R455). -/
def Chip.shedLatched (m : Chip) : Bool :=
  allSrcs.any fun c => m.bit (R.FLT_STAT c.half (c.num / 32)) (c.num % 32) && m.flag (F.FLT_SRC_shed c.half c.num)

/-- Sticky bits of a collector that were cleared come back for the sources that still assert (R453, R472), and closed windows open
again once no latched source sheds them (R455). -/
def Chip.relatch (half : Nat) (m : Chip) : Chip :=
  let m1 := forAll ((upTo 128).filter fun i => (m.src half i).asserting) (fun i m => m.setBit (R.FLT_STAT half (i / 32)) (i % 32)) m
  { m1 with sup := { m1.sup with shedWindows := m1.sup.shedWindows && m1.shedLatched } }

/-- What BAY_BOUNDARY does of this chapter: the mask applies (R461), an accepted resume takes effect (R463), background
windows close while a source with shed set is latched (R455).
(Log: 32 DEDUCED.) -/
def Chip.supBoundary (m : Chip) : Chip :=
  let mask := m.rd64 R.SUP_DEGRADE_LO R.SUP_DEGRADE_HI
  let m1 := { m with sup := { m.sup with mask } }
  let newMode := if mask = 0 then 0 else 1
  let m2 := if m1.sup.resumeDue && m1.mode == 2 then
      ({ m1 with sup := { m1.sup with resumeDue := false } }.setMode newMode none).bumpIf (newMode == 1) R.SUP_CNT_DEGRADE
    else if m1.mode = 0 ∧ newMode = 1 then (m1.setMode 1 none).bump R.SUP_CNT_DEGRADE
    else if m1.mode = 1 ∧ newMode = 0 then m1.setMode 0 none
    else m1
  { m2 with sup := { m2.sup with shedWindows := m2.shedLatched } }.refreshOutputs

/-! ### The meanings of the commands -/

/-- SOURCE_ASSERT (R455). -/
def execSourceAssert (dt half num unit : Nat) (up : Bool) (s : State) : Answer :=
  onUnit (decide (half < 2) && decide (num < 128)) dt (sourceAssert dt half num unit up) s
/-- BUCKET_LEAK (R458). -/
def execBucketLeak (dt half num : Nat) (s : State) : Answer :=
  onUnit (decide (half < 2) && decide (num < 128)) dt (bucketLeak dt half num) s
/-- GRACE_EXPIRY (R456). -/
def execGraceExpiry (dt : Nat) (s : State) : Answer :=
  onUnit true dt (graceExpiry dt) s
/-- PENDING_ACK (R456). -/
def execPendingAck (dt k mask : Nat) (s : State) : Answer :=
  onUnit (decide (k < 8)) dt (pendingAck dt k mask) s
/-- SELF_FAULT (R459). -/
def execSelfFault (dt half : Nat) (vote : Bool) (s : State) : Answer :=
  onUnit (decide (half < 2)) dt (selfFault dt half vote) s
/-- FAULT_LINK_LOSS (R454). -/
def execFaultLinkLoss (dt : Nat) (lost : Bool) (s : State) : Answer :=
  onUnit true dt (faultLinkLoss dt lost) s
/-- DEGRADE_MASK_WRITE (R461). -/
def execDegradeMaskWrite (dt mask : Nat) (s : State) : Answer :=
  onUnit true dt (fun m => degradeMaskWrite mask (elapse dt m)) s
/-- SAFE_REQ (R476). -/
def execSafeReq (dt : Nat) (s : State) : Answer :=
  onUnit true dt (fun m => safeReq (elapse dt m)) s
/-- SAFE_REQ_N (R465). -/
def execSafeReqN (dt : Nat) (low : Bool) (s : State) : Answer :=
  onUnit true dt (safeReqN dt low) s
/-- FIRE_OUT_REQ (R476). -/
def execFireOutReq (dt : Nat) (s : State) : Answer :=
  onUnit true dt (fun m => fireOutReq (elapse dt m)) s
/-- KICK (R466). -/
def execKick (dt : Nat) (s : State) : Answer :=
  onUnit true dt (kick dt) s
/-- WATCHDOG_EXPIRY (R466). -/
def execWatchdogExpiry (dt : Nat) (s : State) : Answer :=
  onUnit true dt (watchdogExpiry dt) s

end Sys2Proof.Machine
end

