-- ==== Sys2Proof/Machine/FieldIo.lean ====
section
/-!
DEFINITION. Sys2Proof/Machine/FieldIo.lean: field inputs and outputs (R399 to R406): filtered edges and their records, pair
units, wire breaks, output drivers, group supplies, RUN_PERMIT.
-/
namespace Sys2Proof.Machine

def Chip.onFio (f : FioState → FioState) (m : Chip) : Chip := { m with fio := f m.fio }

/-- FIO_IN shows the filtered levels, and the substitute value on a channel with a wire break (R400, R405). -/
def Chip.refreshIn (m : Chip) : Chip :=
  let s := m.rd R.FIO_SUBST
  m.wr R.FIO_IN ((m.fio.level &&& ~~~m.fio.broken) ||| (s &&& m.fio.broken))

/-- A group has a fault now (R399 to R401): a wire break of its inputs, an output driver off, its supply low. -/
def Chip.groupFault (m : Chip) (g : Nat) : Bool :=
  m.fio.undervolt.getLsbD g ||
    (if g < 4 then (upTo 8).any fun i => m.fio.broken.getLsbD (8 * g + i)
     else if g < 6 then (upTo 8).any fun i => m.fio.outFault.getLsbD (8 * (g - 4) + i)
     else m.fio.runFault)

/-- Bring FIO_GRP, the field-group source and the outputs up to date (R401, R402, R406). -/
def Chip.refreshGroups (m : Chip) : Chip :=
  let live := (upTo 7).foldl (fun a g => a + (if m.groupFault g then 2 ^ g else 0)) 0
  let m1 := (m.put F.FIO_GRP_grp_live live).put F.FIO_GRP_grp_sticky (m.get F.FIO_GRP_grp_sticky ||| live)
  (m1.follow (live != 0) SrcName.fieldGroup).refreshOutputs

/-- The stamp of a filtered edge: TB3 minus 18,000 ns, to 4 ns (R403). -/
def Chip.edgeStamp (m : Chip) : Nat := (m.tb3 - 18000) / 4 * 4

/-- An edge record enters its queue of 512 (R403). -/
def Chip.pushEdge (r : EvtRec) (m : Chip) : Chip :=
  if 512 ≤ m.fio.events.length then (m.setFlag F.FIO_Q_STAT_evt_ovf).bump R.FIO_CNT_DROP
  else (m.onFio fun f => { f with events := f.events ++ [r] }).bump R.FIO_CNT_EDGE

/-- A pair record enters its queue of 64 (R404). -/
def Chip.pushPair (r : PairRec) (m : Chip) : Chip :=
  if 64 ≤ m.fio.pairs.length then (m.setFlag F.FIO_Q_STAT_pair_ovf).bump R.FIO_CNT_DROP
  else
    (((m.onFio fun f => { f with pairs := f.pairs ++ [r] }).bump R.FIO_CNT_PAIRS).bumpIf r.order R.FIO_CNT_ORDER).bumpIf
      r.sameTick R.FIO_CNT_SAME

def Chip.openPair (m : Chip) (k : Nat) : Option Nat := (m.fio.openPairs.find? fun x => x.1 == k).map (·.2)
def Chip.setPair (k : Nat) (v : Option Nat) (m : Chip) : Chip :=
  m.onFio fun f => { f with openPairs := (f.openPairs.filter fun x => x.1 != k) ++ (match v with
    | some t => [(k, t)]
    | none => []) }

/-- A start edge of a pair unit (R404). -/
def Chip.pairStart (k stamp : Nat) (m : Chip) : Chip :=
  (m.bumpIf (m.openPair k).isSome R.FIO_CNT_REPEAT).setPair k (some stamp)

/-- A stop edge of a pair unit (R404). The start word and the duration field of an ORDER record are not
stated: free values. -/
def Chip.pairStop (k stamp : Nat) (m : Chip) : Chip :=
  match m.openPair k with
  | some t => (m.setPair k none).pushPair
      { unit := k, start := t, dur := (stamp - t) / 4, long := false, order := false, sameTick := stamp == t }
  | none =>
    let (v, m1) := m.draw
    let (d, m2) := m1.draw
    m2.pushPair { unit := k, start := v % 2 ^ 64, dur := d % 2 ^ 32, long := false, order := true, sameTick := false }

/-- The edge feeds pair unit `k`: its start first, then its stop.
(Log: 23 DEDUCED.) -/
def Chip.pairEdge (ch : Nat) (rising : Bool) (stamp k : Nat) (m : Chip) : Chip :=
  if !m.flag (F.FIO_PAIR_CFG_en k) then m
  else
    let st := m.get (F.FIO_PAIR_CFG_start_ch k) == ch && m.flag (F.FIO_PAIR_CFG_start_rise k) == rising
    let sp := m.get (F.FIO_PAIR_CFG_stop_ch k) == ch && m.flag (F.FIO_PAIR_CFG_stop_rise k) == rising
    let m1 := if st then m.pairStart k stamp else m
    if sp then m1.pairStop k stamp else m1

/-- FIELD_INPUT_EDGE (R403, R404): a filtered edge of input `ch` to `level`. -/
def fieldInputEdge (dt ch : Nat) (level : Bool) (m0 : Chip) : Chip :=
  let m := elapse dt m0
  if m.fio.level.getLsbD ch == level then m
  else
    let bitv : BitVec 32 := BitVec.ofNat 32 (2 ^ ch)
    let m1 := (m.onFio fun f => { f with level := if level then f.level ||| bitv else f.level &&& ~~~bitv }).refreshIn
    let stamp := m1.edgeStamp
    let on := m1.bit (if level then R.FIO_EDGE_R else R.FIO_EDGE_F) ch
    let m2 := if on then m1.pushEdge { channel := ch, rising := level, stamp } else m1
    forAll (upTo 8) (fun k m => m.pairEdge ch level stamp k) m2

/-- PAIR_LONG (R404): a pair open for 2³² − 1 units is closed with flag LONG. -/
def pairLong (dt k : Nat) (m0 : Chip) : Chip :=
  let m := elapse dt m0
  match m.openPair k with
  | some t =>
    if t + 4 * (2 ^ 32 - 1) ≤ m.edgeStamp then
      (m.setPair k none).pushPair { unit := k, start := t, dur := 0xFFFFFFFF, long := true, order := false, sameTick := false }
    else m
  | none => m

/-- WIRE_BREAK (R400). -/
def wireBreak (dt ch : Nat) (m0 : Chip) : Chip :=
  let m := elapse dt m0
  if !m.bit R.FIO_WB_EN ch || m.fio.broken.getLsbD ch then m
  else
    (((m.onFio fun f => { f with broken := f.broken ||| BitVec.ofNat 32 (2 ^ ch) }).refreshIn).bump R.FIO_CNT_WB).refreshGroups

/-- WIRE_BREAK_CLEAR (R400). -/
def wireBreakClear (dt ch : Nat) (m0 : Chip) : Chip :=
  let m := elapse dt m0
  ((m.onFio fun f => { f with broken := f.broken &&& ~~~(BitVec.ofNat 32 (2 ^ ch)) }).refreshIn).refreshGroups

/-- Set or clear the switched-off state of an output driver; number 16 is RUN_PERMIT's. -/
def Chip.setOutFault (n : Nat) (v : Bool) (m : Chip) : Chip :=
  if n = 16 then m.onFio fun f => { f with runFault := v }
  else m.onFio fun f => { f with outFault := if v then f.outFault ||| BitVec.ofNat 16 (2 ^ n)
                                             else f.outFault &&& ~~~(BitVec.ofNat 16 (2 ^ n)) }

/-- The driver of an output is on (R401, R402): it drives its load and has not switched off. -/
def Chip.driverOn (m : Chip) (n : Nat) : Bool :=
  if n = 16 then m.flag F.FIO_OUT_RB_run_permit else (m.get F.FIO_OUT_RB_out_rb).testBit n

/-- The time at which an output's driver last switched off on a fault. -/
def Chip.lastTry (m : Chip) (n : Nat) : Nat := ((m.fio.lastTry.find? fun x => x.1 == n).map (·.2)).getD 0
def Chip.noteTry (n : Nat) (m : Chip) : Chip :=
  m.onFio fun f => { f with lastTry := (f.lastTry.filter fun x => x.1 != n) ++ [(n, m.now)] }

/-- OUTPUT_FAULT (R401): a driver that is on limits its current or overheats, switches off and sets its group's fault. -/
def outputFault (dt n : Nat) (m0 : Chip) : Chip :=
  let m := elapse dt m0
  if m.driverOn n then (((m.setOutFault n true).noteTry n).bump R.FIO_CNT_OUT_FLT).refreshGroups else m

/-- A faulted channel is commanded on (R401, R402), and its last try is 1 s back. -/
def Chip.retryDue (m : Chip) (n : Nat) : Bool :=
  decide (m.lastTry n + 1000000000 ≤ m.now) &&
    (if n = 16 then m.fio.runFault && decide (m.mode ≤ 1) && m.flag F.FIO_OUT_run_req
     else m.fio.outFault.getLsbD n && m.outCmd n)

/-- OUTPUT_RETRY (R401): the channel is tried again; it runs without fault, or switches off once more. -/
def outputRetry (dt n : Nat) (runs : Bool) (m0 : Chip) : Chip :=
  let m := elapse dt m0
  if !m.retryDue n then m
  else if runs then (m.setOutFault n false).refreshGroups
  else (m.noteTry n).bump R.FIO_CNT_OUT_FLT

/-- FIELD_GROUP_UNDERVOLTAGE (R399, R401). -/
def fieldGroupUndervoltage (dt g : Nat) (m0 : Chip) : Chip :=
  ((elapse dt m0).onFio fun f => { f with undervolt := f.undervolt ||| BitVec.ofNat 7 (2 ^ g) }).refreshGroups

/-- FIELD_GROUP_SUPPLY_RETURN (R399, R401). -/
def fieldGroupSupplyReturn (dt g : Nat) (m0 : Chip) : Chip :=
  ((elapse dt m0).onFio fun f => { f with undervolt := f.undervolt &&& ~~~(BitVec.ofNat 7 (2 ^ g)) }).refreshGroups

/-- FIO_OUT_WRITE (R405): command the outputs and request RUN_PERMIT. -/
def fioOutWrite (outs : Nat) (runReq : Bool) (m : Chip) : Chip :=
  ((m.put F.FIO_OUT_out outs).put F.FIO_OUT_run_req (b2n runReq)).refreshOutputs

/-- FIO_EVT_POP (R405): a read of FIO_EVT_HDR pops a record and latches its words; bit 31 reads 0 on an empty queue. -/
def fioEvtPop (m : Chip) : Chip :=
  match m.fio.events with
  | [] => m.wr R.FIO_EVT_HDR 0
  | r :: t =>
    let hdr := 2 ^ 31 + b2n r.rising * 2 ^ 30 + r.channel
    ((m.onFio fun f => { f with events := t }).wr R.FIO_EVT_HDR (BitVec.ofNat 32 hdr)).wr64 R.FIO_EVT_T_LO R.FIO_EVT_T_HI r.stamp

/-- FIO_PAIR_POP (R405). -/
def fioPairPop (m : Chip) : Chip :=
  match m.fio.pairs with
  | [] => m.wr R.FIO_PAIR_HDR 0
  | r :: t =>
    let hdr := 2 ^ 31 + r.unit * 2 ^ 28 + 4 * b2n r.long + 2 * b2n r.order + b2n r.sameTick
    (((m.onFio fun f => { f with pairs := t }).wr R.FIO_PAIR_HDR (BitVec.ofNat 32 hdr)).wr64 R.FIO_PAIR_T_LO R.FIO_PAIR_T_HI
      r.start).wr R.FIO_PAIR_DUR (BitVec.ofNat 32 r.dur)

/-! ### The meanings of the commands -/

/-- FIELD_INPUT_EDGE (R403). -/
def execFieldInputEdge (dt ch : Nat) (level : Bool) (s : State) : Answer :=
  onUnit (decide (ch < 32)) dt (fieldInputEdge dt ch level) s
/-- PAIR_LONG (R404). -/
def execPairLong (dt k : Nat) (s : State) : Answer :=
  onUnit (decide (k < 8)) dt (pairLong dt k) s
/-- WIRE_BREAK (R400). -/
def execWireBreak (dt ch : Nat) (s : State) : Answer :=
  onUnit (decide (ch < 32)) dt (wireBreak dt ch) s
/-- WIRE_BREAK_CLEAR (R400). -/
def execWireBreakClear (dt ch : Nat) (s : State) : Answer :=
  onUnit (decide (ch < 32)) dt (wireBreakClear dt ch) s
/-- OUTPUT_FAULT (R401). -/
def execOutputFault (dt n : Nat) (s : State) : Answer :=
  onUnit (decide (n < 17)) dt (outputFault dt n) s
/-- OUTPUT_RETRY (R401). -/
def execOutputRetry (dt n : Nat) (runs : Bool) (s : State) : Answer :=
  onUnit (decide (n < 17)) dt (outputRetry dt n runs) s
/-- FIELD_GROUP_UNDERVOLTAGE (R399). -/
def execFieldGroupUndervoltage (dt g : Nat) (s : State) : Answer :=
  onUnit (decide (g < 7)) dt (fieldGroupUndervoltage dt g) s
/-- FIO_OUT_WRITE (R405). -/
def execFioOutWrite (dt outs : Nat) (runReq : Bool) (s : State) : Answer :=
  onUnit true dt (fun m => fioOutWrite outs runReq (elapse dt m)) s
/-- FIO_EVT_POP (R405). -/
def execFioEvtPop (dt : Nat) (s : State) : Answer :=
  onUnit true dt (fun m => fioEvtPop (elapse dt m)) s
/-- FIO_PAIR_POP (R405). -/
def execFioPairPop (dt : Nat) (s : State) : Answer :=
  onUnit true dt (fun m => fioPairPop (elapse dt m)) s
/-- FIELD_GROUP_SUPPLY_RETURN (R399). -/
def execFieldGroupSupplyReturn (dt g : Nat) (s : State) : Answer :=
  onUnit (decide (g < 7)) dt (fieldGroupSupplyReturn dt g) s

end Sys2Proof.Machine
end

