-- ==== Sys2Proof/Machine/RegRead.lean ====
section
/-!
DEFINITION. Sys2Proof/Machine/RegRead.lean: reading a register (R11, R12, R55): registers whose content other state gives, the
_LO and _HI latches, the reads that pop a queue; and what a write does by the access codes alone.
-/
namespace Sys2Proof.Machine

/-- The row of the register map that holds an address, if it is mapped. -/
def regRowAt (a : Nat) : Option RegRow :=
  regMap.find? fun r =>
    decide (r.base ≤ a) && (upTo r.n1).any fun i => (upTo r.n2).any fun j => r.base + r.s1 * i + r.s2 * j == a

/-- The instance of an array of registers that an address names. -/
def instOf (base stride n a : Nat) : Option Nat :=
  if base ≤ a ∧ a < base + stride * n ∧ (a - base) % stride = 0 then some ((a - base) / stride) else none

/-- The low and the high word of a 64-bit value. -/
def loWord (v : Nat) : Nat := v % 2 ^ 32
def hiWord (v : Nat) : Nat := v / 2 ^ 32 % 2 ^ 32
/-- An integer held in the signed 32-bit range. -/
def sat32 (x : Int) : Nat := unsignedOf 32 (clampI (-(2 ^ 31)) (2 ^ 31 - 1) x)

/-- ENC_SPEED (R373): the estimate in 1/16 counts/s.
(Log: 17 DEDUCED.) -/
def Chip.speedWord (m : Chip) (p : Nat) : Nat :=
  let mag := match m.encSpeed p with
    | none => 0
    | some v =>
      let x := qMul v (qOfInt 4000000000)
      let f := qFloor x
      (if qEq x (qOfInt f) then f else if Config.speedUp v.num v.den then f + 1 else f).toNat
  min mag (2 ^ 31 - 1) + 2 ^ 31 * m.get (F.ENC_STAT_reverse p)

/-- The words of an interpolated position (R373). -/
def posLo (pos : Int) : Nat := loWord (unsignedOf 48 (pos.fdiv 65536))
def posHi (pos : Int) : Nat := unsignedOf 48 (pos.fdiv 65536) / 2 ^ 32 + (pos % 65536).toNat * 65536

/-- Codewords received by a port that is up: one every 25.6 ns (R302, R335).
(Log: 113 DEDUCED.) -/
def Chip.codewords (m : Chip) (p : Nat) : Nat :=
  let base := (m.rd (R.PUR_CNT_CW p)).toNat
  if m.get (F.PUR_STAT_state p) = 3 then
    min 0xFFFFFFFF (base + (m.now - (tabGet {} m.purlin.ports p).upAt) * 10 / 256)
  else base

/-- BENT_SRAM_REPAIR (R268): at most 2 spares of a bank are used (R249). -/
def sparesWord (n k : Nat) : Nat :=
  (upTo 16).foldl (fun w i => w + min 2 (bitsN (Config.sramSpares n k).toNat (2 * i + 1) (2 * i)) * 4 ^ i) 0

/-- The post-processor seals: from the start of the end guard until the bay's pairs are sealed (R206, R214). -/
def Chip.sealing (m : Chip) : Bool :=
  m.bays.running && m.pp.sealedFor != some m.bay && decide (m.depth ≤ m.bay + 1) && decide (m.planned - 5000 ≤ m.coreCycle)

/-- What a register shows when other state gives its content; none for a register that stands in the register table.
(Log: 6 DESIGN CHOICE, 113 DEDUCED.) -/
def Chip.liveWord (m : Chip) (a : Nat) : Option Nat :=
  if a = R.DEV_ID then some (0x48960000 + Config.grade.toNat * 2 ^ 12)
  else if a = R.DEV_TAG then some (0xA1000000 + Config.ucodeLevel.toNat * 2 ^ 12 + Config.fwLevel.toNat)
  else if a = R.DEV_SERIAL_LO then some (loWord Config.serial.toNat)
  else if a = R.DEV_SERIAL_HI then some (hiWord Config.serial.toNat)
  else if a = R.TM_TB0_LO then some (loWord m.tb0)
  else if a = R.TM_TB0_HI then some (hiWord m.tb0)
  else if a = R.TM_TB1_LO then some (loWord m.tb1)
  else if a = R.TM_TB1_HI then some (hiWord m.tb1)
  else if a = R.TM_TB2_LO then some (loWord m.now)
  else if a = R.TM_TB2_HI then some (hiWord m.now)
  else if a = R.TM_TB3_LO then some (loWord m.tb3)
  else if a = R.TM_TB3_HI then some (hiWord m.tb3)
  else if a = R.TM_STAT then
    some (fldIns (m.rd a) F.TM_STAT_tb3_slewing (b2n (decide (2 ^ 34 < (m.time.tb3 - m.time.tb0).toInt.natAbs)))).toNat
  else if a = R.TM_TB3_DIFF then some (sat32 ((m.tb3 : Int) - m.tb0))
  else if a = R.TM_TB1_DIFF then some (sat32 ((m.tb0 : Int) - m.tb1))
  else if a = R.FIO_Q_STAT then
    some (fldIns (fldIns (m.rd a) F.FIO_Q_STAT_evt_level m.fio.events.length) F.FIO_Q_STAT_pair_level m.fio.pairs.length).toNat
  else if a = R.RC_BAY_INDEX_LO then some (loWord m.bay)
  else if a = R.RC_BAY_INDEX_HI then some (hiWord m.bay)
  else if a = R.WIT_STAT then some (fldIns (m.rd a) F.WIT_STAT_q_level (min 65535 m.wit.queue.length)).toNat
  else if a = R.MB_STAT then
    some (fldIns (fldIns (m.rd a) F.MB_STAT_sessions m.trust.sessions.length) F.MB_STAT_subscriptions m.subs.length).toNat
  else if a = R.SEC_STAT then
    some (fldIns (fldIns (m.rd a) F.SEC_STAT_lifecycle m.trust.fuses.lifecycle) F.SEC_STAT_owner_slot m.trust.fuses.active).toNat
  else if a = R.SEC_ROLLBACK then some (m.trust.fuses.counter + 256 * (if m.stick.loaded then m.stick.version else 0))
  else if a = R.MB_HEARTBEAT then
    some (if m.get F.MB_STAT_fw_state = 0 then 0 else (m.now - m.boot.startAt) / 10000000 % 2 ^ 32)
  else if a = R.PP_STAT then
    some (fldIns (m.rd a) F.PP_STAT_state (if m.sealing then 2 else m.get F.PP_STAT_state)).toNat
  else match instOf (R.BENT_STAT 0) 0x10000 32 a with
    | some n => some (fldIns (m.rd a) (F.BENT_STAT_state n)
        (if m.get (F.BENT_STAT_state n) = 1 then m.bentState n else m.get (F.BENT_STAT_state n))).toNat
    | none => match instOf (R.BENT_SRAM_REPAIR 0 0) 0x10000 32 a with
    | some n => some (sparesWord n 0)
    | none => match instOf (R.BENT_SRAM_REPAIR 0 1) 0x10000 32 a with
    | some n => some (sparesWord n 1)
    | none => match instOf (R.ENC_POS_LO 0) 0x100 8 a with
    | some p => some (posLo (m.encPos p))
    | none => match instOf (R.ENC_POS_HI 0) 0x100 8 a with
    | some p => some (posHi (m.encPos p))
    | none => match instOf (R.ENC_SPEED 0) 0x100 8 a with
    | some p => some (m.speedWord p)
    | none => match instOf (R.FS_Q_STAT 0) 0x40 8 a with
    | some p => some (fldIns (m.rd a) (F.FS_Q_STAT_depth p) (m.queue p).length).toNat
    | none => match instOf (R.ADAPT_STORE 0) 0x40 8 a with
    | some h => some (fldIns (m.rd a) (F.ADAPT_STORE_labelled h) (m.head h).labelled.length).toNat
    | none => match instOf (R.PUR_CNT_CW 0) 0x2000 6 a with
    | some p => some (m.codewords p)
    | none => match instOf (R.SEC_OWNER_HASH 0) 4 12 a with
    | some n => some (m.trust.fuses.slots.getD m.trust.fuses.active 0 / 2 ^ (32 * n) % 2 ^ 32)
    | none => match instOf (R.SEC_SS_HASH 0) 4 12 a with
    | some n => some ((if m.stick.loaded then m.stick.hash else 0) / 2 ^ (32 * n) % 2 ^ 32)
    | none => match instOf (R.SEC_SEG_VALID 0) 4 8 a with
    | some n => some ((upTo 32).foldl (fun w i => w + b2n (m.trust.segHash.any fun s => s.1 == 32 * n + i) * 2 ^ i) 0)
    | none =>
      if 0xFD000 ≤ a ∧ a < 0xFF000 then
        some ((upTo 4).foldl (fun w i => w + tabGet 7 m.purlin.routes (a - 0xFD000 + i) * 2 ^ (8 * i)) 0)
      else none

/-- The word a register shows.
(Log: 113 DEDUCED.) -/
def Chip.shown (m : Chip) (a : Nat) : Nat := (m.liveWord a).getD (m.rd a).toNat

/-- The _LO registers whose read latches the _HI register after them (R55, R129, R237, R272, R277, R337, R373, R426, R563, R566).
(Log: 27 DEDUCED.) -/
def latchesHi (a : Nat) : Bool :=
  [R.DEV_SERIAL_LO, R.TM_TB0_LO, R.TM_TB1_LO, R.TM_TB2_LO, R.TM_TB3_LO, R.TM_TB0_INC_LO, R.TM_TB1_INC_LO, R.TM_TB0_STEP_LO,
   R.TM_TB1_STEP_LO, R.TM_PPS_IN_LO, R.CM_ERR_LO, R.HBM_ERR_LO, R.PUR_SWAP_BAY_LO, R.RC_BAY_INDEX_LO].contains a ||
  [R.ENC_POS_LO 0, R.ENC_IDX_LO 0, R.ENC_PRB_LO 0, R.ENC_PRB_T_LO 0, R.ENC_BAY_LO 0].any (fun b => (instOf b 0x100 8 a).isSome) ||
  [R.LP_RPL_FIRST_LO 0, R.LP_RPL_LAST_LO 0].any (fun b => (instOf b 0x100 8 a).isSome) ||
  (instOf (R.ATT_RING_LAST_LO 0) (R.ATT_RING_LAST_LO 1 - R.ATT_RING_LAST_LO 0) Config.rings a).isSome ||
  [R.ADAPT_CAND_LO 0, R.ADAPT_ACTIVE_LO 0].any (fun b => (instOf b 0x40 8 a).isSome)

/-- The _LO registers of the time bases that a read of TM_TB0_LO latches with their _HI registers (R409).
(Log: 27 DEDUCED.) -/
def tbOthers : List Nat := [R.TM_TB1_LO, R.TM_TB2_LO, R.TM_TB3_LO]

/-- Log: 27 DEDUCED. -/
def Chip.latch (a : Nat) (v : Option Nat) (m : Chip) : Chip :=
  { m with latches := tabSet none m.latches a (v.map (BitVec.ofNat 32)) }

/-- What a read of a _LO register latches. A read of TM_TB0_LO latches the other bases whole; the next read of such a _LO
register takes the value latched.
(Log: 27 DEDUCED.) -/
def Chip.latchRead (a : Nat) (m : Chip) : Chip :=
  if !latchesHi a then m
  else if tbOthers.contains a && (tabGet none m.latches a).isSome then m.latch a none
  else
    let m1 := m.latch (a + 4) (some (m.shown (a + 4)))
    if a = R.TM_TB0_LO then
      forAll tbOthers (fun b m => (m.latch b (some (m.shown b))).latch (b + 4) (some (m.shown (b + 4)))) m1
    else m1

/-- The timestamp queue of Ethernet port `p` (R583): a read of ETH_TS_HDR pops an entry and latches its times. -/
def Chip.tsPop (p : Nat) (m : Chip) : Chip :=
  let e := m.ethPort p
  match e.ts with
  | [] => m.wr (R.ETH_TS_HDR p) 0
  | r :: t =>
    let hdr := 2 ^ 31 + b2n r.tx * 2 ^ 30 + b2n r.domB * 2 ^ 29 + r.msgType % 16 * 2 ^ 20 + r.seqId % 65536
    ((((m.setEthPort p { e with ts := t }).wr (R.ETH_TS_HDR p) (BitVec.ofNat 32 hdr)).wr64 (R.ETH_TS_TB0_LO p) (R.ETH_TS_TB0_HI p) r.t0).wr64
      (R.ETH_TS_TB1_LO p) (R.ETH_TS_TB1_HI p) r.t1).wr64 (R.ETH_TS_TB2_LO p) (R.ETH_TS_TB2_HI p) r.t2

/-- The effects of a read before its value is taken: the queues it pops (R405, R583). -/
def Chip.readPops (a : Nat) (m : Chip) : Chip :=
  if a = R.FIO_EVT_HDR then fioEvtPop m
  else if a = R.FIO_PAIR_HDR then fioPairPop m
  else match instOf (R.ETH_TS_HDR 0) 0x400 2 a with
    | some p => m.tsPop p
    | none => m

/-- The domain of the unit whose block an address lies in; none for a unit of no switched domain (R496, R497). -/
def regDomain (a : Nat) : Option Nat :=
  if 0x1100000 ≤ a ∧ a < 0x1100000 + 0x10000 * 32 then some ((a - 0x1100000) / 0x10000)
  else if 0xA0000 ≤ a ∧ a < 0xA0000 + 0x800 * 48 then some (40 + (a - 0xA0000) / 0x800 / 8)
  else if 0x80000 ≤ a ∧ a < 0x80000 + 0x400 * 48 then some (46 + (a - 0x80000) / 0x400 / 8)
  else if 0xF0000 ≤ a ∧ a < 0xF0000 + 0x2000 * 6 then some (52 + (a - 0xF0000) / 0x2000)
  else none
def Chip.domainUsed (m : Chip) (d : Nat) : Bool := m.bit (R.RP_PWR_CFG (d / 32)) (d % 32)
/-- The registers of a unit that the story stick does not use read as 0 (R497). -/
def Chip.unitUsed (m : Chip) (a : Nat) : Bool := match regDomain a with
  | some d => m.domainUsed d
  | none => true

/-- Read the register at a byte address: its word, and the module after the read (R11, R55, R373). An unmapped address reads as
0. -/
def Chip.readReg (a : Nat) (m0 : Chip) : Nat × Chip :=
  if !m0.unitUsed a then (0, m0) else
  let m := m0.readPops a
  let v := match (if latchesHi a && !tbOthers.contains a then none else tabGet none m.latches a) with
    | some w => w.toNat
    | none => m.shown a
  let m1 := m.latchRead a
  (v, match instOf (R.ENC_PRB_SEQ 0) 0x100 8 a with
      | some p => probeSeqRead p m1
      | none => m1)

/-- READ_LO_LATCH (R55): a read of a _LO register. -/
def readLoLatch (dt a : Nat) (m : Chip) : Chip := ((elapse dt m).readReg a).2

/-- The O bits of an address (R12): none where nothing is mapped. -/
def oMask (a : Nat) : Nat := match regRowAt a with
  | some r => r.o.toNat
  | none => 0

/-- What a write under a mask leaves in a register by the access codes alone (R12): RW and RWS bits take the value, a 1 to a W1C or
ST bit clears it unless hardware sets it in the same cycle, every other bit stays.
(Log: 3 DESIGN CHOICE.) -/
def Chip.plainWrite (a mask v : Nat) (m : Chip) : Chip :=
  if !m.unitUsed a then m else
  match regRowAt a with
  | none => m
  | some r =>
    let k := BitVec.ofNat 32 mask
    let w := BitVec.ofNat 32 v
    let old := m.rd a
    let put := (r.rw ||| r.rws) &&& k
    let clr := r.w1c &&& k &&& w &&& ~~~(tabGet 0 m.fresh a)
    (m.latch a none).wr a ((old &&& ~~~put &&& ~~~clr) ||| (w &&& put))

/-! ### The meanings of the commands -/

/-- READ_LO_LATCH (R55). -/
def execReadLoLatch (dt a : Nat) (s : State) : Answer :=
  onUnit true dt (readLoLatch dt a) s

end Sys2Proof.Machine
end

