-- ==== Sys2Proof/Machine/Witness.lean ====
section
/-!
DEFINITION. Sys2Proof/Machine/Witness.lean: the commands of the witness unit and of lock-step comparison (R436 to R450).
-/
namespace Sys2Proof.Machine

/-- The end of the planned bay is reached (R28). -/
def Chip.bayEnds (m : Chip) : Bool := decide (m.period - m.period / 5000 ≤ m.coreCycle)

/-- A gap with the lost flag for each pair whose records have been taken in and whose marks have not arrived (R436). -/
def Chip.loseSets (m : Chip) : Chip :=
  forAll m.wit.awaiting (fun p m => m.releaseSet { job := p.1, key := p.2, marks := [], gap := true, lost := true })
    (m.onWit fun w => { w with awaiting := [] })

/-- MARK_SET_DEADLINE (R436): the end of the bay. -/
def markSetDeadline (dt : Nat) (m0 : Chip) : Chip :=
  let m := elapse dt m0
  if m.bays.running && m.bayEnds then m.loseSets else m

/-- MARKS_FRAME (R446): the follower compares the leader's frame with its own set, if that has been released; else it holds the
frame, unless its pair is not compared or the time for it is over. -/
def takeMarks (f : MarksFrame) (m : Chip) : Chip :=
  if !m.follower then m
  else
    match m.wit.own.find? fun s => m.framePairs f s with
    | some s => (m.lockCompare f s).onWit fun w => { w with own := w.own.erase s }
    | none =>
      if !f.background && (!m.lockBegun f.job (f.key + m.get F.WIT_CFG_lag) || decide (f.key + m.get F.WIT_CFG_lag + m.depth + 1 < m.bay)) then m
      else m.onWit fun w => { w with frames := w.frames ++ [f] }

def marksFrameIn (dt : Nat) (f : MarksFrame) (m : Chip) : Chip := takeMarks f (elapse dt m)

/-- The last bay in which the leader's frame for a follower's set counts (R446): D + 1 bays after the set's own close bay, for a
background step one bay after its release. -/
def Chip.frameUntil (m : Chip) (s : MarkSet) : Nat := if s.background then s.relBay + 1 else s.key + m.depth + 1

/-- A follower's set has had no frame in time (R446): missing.
(Log: 82 DEDUCED, 82 DEDUCED.) -/
def Chip.missFrames (atEnd : Bool) (m : Chip) : Chip :=
  let late := m.wit.own.filter fun s => decide (m.frameUntil s < m.bay) || (atEnd && decide (m.frameUntil s = m.bay))
  forAll late (fun s m => ((m.bump R.WIT_CNT_MISSING).setFlag F.WIT_STAT_lock_missing).onWit fun w => { w with own := w.own.erase s }) m

/-- MARKS_DEADLINE (R446): the end of bay c + lag + D + 1.
(Log: 82 DEDUCED.) -/
def marksDeadline (dt : Nat) (m0 : Chip) : Chip :=
  let m := elapse dt m0
  if m.follower then m.missFrames m.bayEnds else m

/-- WIT_QUERY (R449): a write of go looks the mark up in the ring, which keeps the most recent ring_bays bays (R439). -/
def witQuery (m : Chip) : Chip :=
  let j := m.get F.WIT_Q_CTRL_job
  let row := m.get F.WIT_Q_CTRL_row
  let key := m.rd64 R.WIT_Q_KEY_LO R.WIT_Q_KEY_HI
  let layer := (m.layersOf j)[m.get F.WIT_Q_CTRL_position]?
  let hit := (m.wit.ring.filter fun s => s.job == j && s.key == key &&
    (s.background || decide (m.bay < s.key + m.get F.WIT_CFG_ring_bays))).flatMap (·.marks) |>.find? fun x =>
    some x.layer == layer && x.row == row
  let m1 := (m.put F.WIT_Q_CTRL_done 1).put F.WIT_Q_CTRL_found (b2n hit.isSome)
  let m2 := (m1.wr64 R.WIT_Q_MARK_LO R.WIT_Q_MARK_HI ((hit.map (·.sum)).getD 0)).wr64 R.WIT_Q_ELEM_LO R.WIT_Q_ELEM_HI
    ((hit.map (·.elements)).getD 0)
  m2.wr R.WIT_Q_LAYER (BitVec.ofNat 32 (layer.getD 0))

/-- LOCK_REARM (R450): writing 1 to lock_mismatch clears it and re-arms the latch.
(Log: 83 DEDUCED.) -/
def lockRearm (m : Chip) : Chip := (m.put F.WIT_STAT_lock_mismatch 0).put F.WIT_LOCK_FIRST_valid 0

/-! ### The meanings of the commands -/

/-- MARK_SET_DEADLINE (R436). -/
def execMarkSetDeadline (dt : Nat) (s : State) : Answer :=
  onUnit true dt (markSetDeadline dt) s
/-- MARKS_FRAME (R446). -/
def execMarksFrame (dt : Nat) (f : MarksFrame) (s : State) : Answer :=
  onUnit true dt (marksFrameIn dt f) s
/-- MARKS_DEADLINE (R446). -/
def execMarksDeadline (dt : Nat) (s : State) : Answer :=
  onUnit true dt (marksDeadline dt) s
/-- WIT_QUERY (R449). -/
def execWitQuery (dt : Nat) (s : State) : Answer :=
  onUnit true dt (fun m => witQuery (elapse dt m)) s
/-- LOCK_REARM (R450). -/
def execLockRearm (dt : Nat) (s : State) : Answer :=
  onUnit true dt (fun m => lockRearm (elapse dt m)) s

end Sys2Proof.Machine
end

