-- ==== Sys2Proof/Machine/RidgeWrite.lean ====
section
/-!
DEFINITION. Sys2Proof/Machine/RidgeWrite.lean: a write that reaches a register of the Ridge (R11, R12): the fields whose write does more
than change the register.
-/
namespace Sys2Proof.Machine

/-- A write of 1, under the mask, to a bit. -/
def wrote1 (mask v i : Nat) : Bool := bitN mask i && bitN v i

/-- The value of a register after a write under a mask, without its effect (R12). -/
def Chip.maskedValue (m : Chip) (a mask v : Nat) : Nat :=
  (((m.rd a) &&& ~~~ (BitVec.ofNat 32 mask)) ||| (BitVec.ofNat 32 v &&& BitVec.ofNat 32 mask)).toNat

/-- A write to the collector of a half (R452, R453, R458): a source's `raised` bit restores its severity; a sticky bit clears, but for a
source that still asserts. -/
def Chip.fltWrite (half a mask v : Nat) (m : Chip) : Chip :=
  match instOf (R.FLT_SRC half 0) 4 128 a with
  | some n => if wrote1 mask v 0 then (raisedRestore half n m) else m
  | none => ((m.plainWrite a mask v).relatch half).refreshOutputs

/-- A scrubber that is switched on begins a lap (R248); `was` says whether it was on. -/
def Chip.scrubStarts (n : Nat) (was : Bool) (m : Chip) : Chip :=
  if !was && m.flag (F.BENT_SRAM_CFG_scrub_en n) then m.setEng (.bent n) { m.eng (.bent n) with lapFrom := m.now } else m

/-- A write to a Ridge register. -/
def Chip.ridgeWrite (a mask v : Nat) (m : Chip) : Chip :=
  match instOf (R.RC_JOB_CTRL 0) 4 Config.jobs a with
  | some j => jobCtrlWrite 0 j (m.maskedValue a mask v) m
  | none => match instOf (R.ADAPT_CTRL 0) 0x40 8 a with
  | some h => if wrote1 mask v 0 then adaptStop h m else m
  | none => match instOf (R.BENT_SRAM_CFG 0) 0x10000 32 a with
  | some n => (m.plainWrite a mask v).scrubStarts n (m.flag (F.BENT_SRAM_CFG_scrub_en n))
  | none =>
    if a = R.RC_BAY_STAT then
      let m1 := m.plainWrite a mask v
      if wrote1 mask v F.RC_BAY_STAT_margin_reset.lo then marginReset m1 else m1
    else if a = R.WIT_Q_CTRL then
      let m1 := m.plainWrite a mask v
      if wrote1 mask v F.WIT_Q_CTRL_go.lo then witQuery m1 else m1
    else if a = R.WIT_STAT then
      let m1 := m.plainWrite a mask v
      if wrote1 mask v F.WIT_STAT_lock_mismatch.lo then lockRearm m1 else m1
    else if R.FLT_STAT 1 0 ≤ a ∧ a < R.FLT_STAT 1 0 + 0x1000 then m.fltWrite 1 a mask v
    else m.plainWrite a mask v

end Sys2Proof.Machine
end

