-- ==== Sys2Proof/Machine/Tenon.lean ====
section
/-!
DEFINITION. Sys2Proof/Machine/Tenon.lean: the Tenon link (R279 to R300). Both ends are in the module: what one end sends stands on the
wire of its direction until a command says that the other end receives it. Direction 0 is Sill to Ridge, 1 Ridge to Sill.
-/
namespace Sys2Proof.Machine

def Chip.onTn (f : TenonState → TenonState) (m : Chip) : Chip := { m with tenon := f m.tenon }
def Chip.tnDir (m : Chip) (d : Nat) : TnDir := if d = 0 then m.tenon.s2r else m.tenon.r2s
def Chip.setTnDir (d : Nat) (v : TnDir) (m : Chip) : Chip :=
  m.onTn fun t => if d = 0 then { t with s2r := v } else { t with r2s := v }
def Chip.modTnDir (d : Nat) (f : TnDir → TnDir) (m : Chip) : Chip := m.setTnDir d (f (m.tnDir d))
/-- The link is up (R298). -/
def Chip.tnUp (m : Chip) : Bool := m.get F.TN_STAT_state == 2

/-! ### Transfers (R281) -/

/-- The flits of a transfer on a channel. Groups and mark sets travel with the last. -/
def xferFlits (vc : Nat) (x : TnXfer) (payload : List Byte) (groups : List VerdictGroup) (sets : List (Nat × Nat)) : List TnFlit :=
  let n := 1 + ceilDivN (x.length - 208) 240
  (upTo n).map fun (i : Nat) =>
    let off := if i = 0 then 0 else 208 + (i - 1) * 240
    let last := i + 1 == n
    { vc, pos := b2n (i == 0) + 2 * b2n last, xfer := x, off, payload := (payload.drop off).take (if i = 0 then 208 else 240),
      groups := if last then groups else [], sets := if last then sets else [] }

/-- Queue a transfer. -/
def Chip.tnSend (d vc : Nat) (x : TnXfer) (payload : List Byte) (groups : List VerdictGroup) (sets : List (Nat × Nat))
    (m : Chip) : Chip :=
  let l := xferFlits vc x payload groups sets
  m.modTnDir d fun t =>
    if vc = 0 then { t with txReq := t.txReq ++ l } else if vc = 1 then { t with txRsp := t.txRsp ++ l } else { t with txPost := t.txPost ++ l }

/-! ### The bytes of a flit (R279 to R281) -/

/-- One byte of the CRC-64 of R279. -/
def crc64Bit : Nat → Nat → Nat
  | 0, c => c
  | n + 1, c => crc64Bit n (if c.testBit 63 then (c * 2 % 2 ^ 64) ^^^ 0x42F0E1EBA9EA3693 else c * 2 % 2 ^ 64)
/-- CRC-64 with the ECMA-182 polynomial (R279). The spec names the polynomial alone; the initial value 0, no reflection and no final XOR are
those of ECMA-182.
(Log: 132 PRESUMED.) -/
def crc64 (l : List Byte) : Nat := l.foldl (fun c b => crc64Bit 8 (c ^^^ (b.toNat * 2 ^ 56))) 0

/-- The flit header (R280); `bay` is the sender's bay index. -/
def TnFlit.headWord (f : TnFlit) (bay : Nat) : Nat :=
  f.vc * 2 ^ 62 + f.pos * 2 ^ 60 + f.seq * 2 ^ 48 + f.ack * 2 ^ 36 + f.crReq * 2 ^ 30 + f.crRsp * 2 ^ 24 + f.crPost * 2 ^ 18 +
    b2n f.cancelled * 2 ^ 17 + bay % 256 * 2 ^ 8

/-- The 256 bytes of a flit (R279): header, 240 bytes of payload, which begin with the transfer header in the first flit of a transfer,
and CRC. -/
def TnFlit.bytes (f : TnFlit) (bay : Nat) : List Byte :=
  let body := (if f.vc < 3 ∧ f.pos % 2 = 1 then xferHead f.xfer else []) ++ f.payload
  let l := leBytes 8 (f.headWord bay) ++ (body ++ leBytes 240 0).take 240
  l ++ leBytes 8 (crc64 l)

/-! ### Sending (R284, R286, R288) -/

/-- What the arbiter sends next in a direction, and the sender after it: a due nak, a flit of a replay, then by fixed order a
response, a posted flit, a request (which waits for 15 others at most), last a control flit that returns credits or an
acknowledgement. `o` is the opposite direction, whose receiver is at this end. -/
def tnPick (t o : TnDir) : Option (TnFlit × TnDir) :=
  let ctl (pos : Nat) : TnFlit := { vc := 3, pos, xfer := { bay := 0, closeBay := 0, dst := 0, length := 0, space := 0, unit := 0, tag := 0 },
                                    seq := t.nextSeq }
  let send (f : TnFlit) (t : TnDir) : TnFlit × TnDir :=
    let g := { f with seq := t.nextSeq }
    (g, { t with nextSeq := (t.nextSeq + 1) % 4096, replay := t.replay ++ [g] })
  let canReq := !t.txReq.isEmpty && decide (0 < t.credReq)
  let wait := if t.txReq.isEmpty then 0 else t.reqWait + 1
  let req : Option (TnFlit × TnDir) := match t.txReq with
    | f :: r => if canReq then some (send f { t with txReq := r, credReq := t.credReq - 1, reqWait := 0 }) else none
    | [] => none
  if o.nakDue then some (ctl 2, { t with reqWait := wait })
  else if 0 < t.again then
    (t.replay[t.replay.length - t.again]?).map fun f => (f, { t with again := t.again - 1, reqWait := wait })
  else if t.replay.length < 256 && canReq && decide (15 ≤ t.reqWait) then req
  else if t.replay.length < 256 && !t.txRsp.isEmpty && decide (0 < t.credRsp) then
    (t.txRsp.head?).map fun f => send f { t with txRsp := t.txRsp.tail, credRsp := t.credRsp - 1, reqWait := wait }
  else if t.replay.length < 256 && !t.txPost.isEmpty && decide (0 < t.credPost) then
    (t.txPost.head?).map fun f => send f { t with txPost := t.txPost.tail, credPost := t.credPost - 1, reqWait := wait }
  else if t.replay.length < 256 && canReq then req
  else if o.ackDue then some (ctl 1, t)
  else if 0 < o.freedReq + o.freedRsp + o.freedPost then some (ctl 3, t)
  else none

/-- One flit slot of a direction: what is sent carries the acknowledgement and the credits of this end's receiver (R280).
(Log: 89 DEDUCED.) -/
def Chip.tnSlot (d : Nat) (m : Chip) : Chip :=
  let o := m.tnDir (1 - d)
  match tnPick (m.tnDir d) o with
  | none => m
  | some (f, t) =>
    let g := { f with ack := (o.expect + 4095) % 4096, crReq := min 63 o.freedReq, crRsp := min 63 o.freedRsp, crPost := min 63 o.freedPost }
    let first := (m.tnDir d).replay.isEmpty && !t.replay.isEmpty
    let t1 := { t with wire := t.wire ++ [g], lanes := g.bytes m.bay, ackAt := if first then m.now else t.ackAt }
    let o1 := { o with nakDue := false, ackDue := false, freedReq := o.freedReq - g.crReq, freedRsp := o.freedRsp - g.crRsp,
                       freedPost := o.freedPost - g.crPost }
    ((m.setTnDir d t1).setTnDir (1 - d) o1).setFlagIf g.cancelled F.TN_STAT_cancelled

/-- Log: 89 DEDUCED. -/
def Chip.tnSlots (d : Nat) : Nat → Chip → Chip
  | 0, m => m
  | n + 1, m => Chip.tnSlots d n (m.tnSlot d)

/-- The flit slots of a direction that have passed, one in each timing-clock cycle while the link is up; empty slots (idle flits)
leave nothing.
(Log: 89 DEDUCED.) -/
def Chip.tnFill (d : Nat) (m : Chip) : Chip :=
  let t := m.tnDir d
  let work := t.again + t.txReq.length + t.txRsp.length + t.txPost.length + 2
  let m1 := if m.tnUp then Chip.tnSlots d (min work (m.cyc - t.slotAt)) m else m
  m1.modTnDir d fun t => { t with slotAt := m.cyc }

/-- Time passes on the link.
(Log: 89 DEDUCED.) -/
def tnElapse (dt : Nat) (m : Chip) : Chip := ((elapse dt m).tnFill 0).tnFill 1

/-! ### Retraining (R294) -/

/-- What every retrain sets, counts and raises (R294). -/
def Chip.countRetrain (m : Chip) : Chip :=
  ((m.setFlag F.TN_STAT_retrained).bump R.TN_CNT_RETRAIN).raise SrcName.tenonRetrain

/-- The link retrains: flits in flight are lost, the replay buffers and sequence numbers stay.
(Log: 90 DEDUCED.) -/
def Chip.tnRetrain (m : Chip) : Chip :=
  if !m.tnUp then m
  else
    let m1 := (m.put F.TN_STAT_state 3).countRetrain
    m1.onTn fun t => { t with s2r := { t.s2r with wire := [], again := 0 }, r2s := { t.r2s with wire := [], again := 0 } }

/-- The sender of a direction replays every unacknowledged flit (R288, R289); one that has been replayed retry_limit times
without being accepted makes the link retrain.
(Log: 90 DEDUCED.) -/
def Chip.tnReplay (d : Nat) (m : Chip) : Chip :=
  let t := m.tnDir d
  match t.replay with
  | [] => m
  | f :: _ =>
    let n := if f.seq = t.headSeq then t.replays else 0
    if max 1 (m.get F.TN_CFG_retry_limit) ≤ n then (m.setTnDir d { t with replays := 0 }).tnRetrain
    else (m.setTnDir d { t with again := t.replay.length, headSeq := f.seq, replays := n + 1, ackAt := m.now }).bump R.TN_CNT_REPLAY

/-! ### Requests (R285, R292) -/

/-- A tag is blocked: timed out less than 1 ms ago, or no retrain has completed since. -/
def Chip.tagBlocked (m : Chip) (tag : Nat) : Bool :=
  m.tenon.blocked.any fun b => b.1 == tag && !(b.2.2 && decide (b.2.1 + 1000000 ≤ m.now))

/-- A tag for the next request: the first free one from the tag after the last. -/
def Chip.freeTag (m : Chip) : Option Nat :=
  (upTo 1024).find? (fun i =>
    let tag := (m.tenon.nextTag + i) % 1024
    !(m.tenon.reqs.any fun r => r.tag == tag) && !m.tagBlocked tag) |>.map fun i => (m.tenon.nextTag + i) % 1024

/-- Issue a request of the Sill: a read of a word, or a write of a value under a mask.
(Log: 91 DEDUCED.) -/
def Chip.issueReq (q : TnReq) (tag : Nat) (m : Chip) : Chip :=
  let payload := match q.write with
    | some (mask, v) => leBytes 4 v ++ leBytes 4 mask
    | none => []
  let x : TnXfer := { bay := m.bay, closeBay := m.bay, dst := q.addr, length := payload.length, space := 6, unit := 0, tag }
  (m.onTn fun t => { t with reqs := t.reqs ++ [{ q with tag, sentAt := m.now }], nextTag := (tag + 1) % 1024,
                            blocked := t.blocked.filter fun b => b.1 != tag }).tnSend 0 0 x payload [] []

/-- Issue requests while response buffers (64) and tags are free.
(Log: 91 DEDUCED.) -/
def Chip.issueAll : List TnReq → Chip → Chip
  | [], m => m.onTn fun t => { t with todo := [] }
  | q :: l, m =>
    match (if m.tenon.reqs.length < 64 then m.freeTag else none) with
    | some tag => Chip.issueAll l (m.issueReq q tag)
    | none => m.onTn fun t => { t with todo := q :: l }

/-- The answer of a message whose words are all in (R569). -/
def waitAnswer (w : SvcWait) : Emit :=
  .send "service" w.session (if w.write then "status" else if w.failed then "error" else "words")
    (if w.write then [b2n w.failed] else w.words.map fun x => x.getD 0)

/-- Answer a message whose words are all in: behind an earlier message of its session that still waits it is held.
(Log: 91 DEDUCED.) -/
def Chip.finishWait (w : SvcWait) (m : Chip) : Chip :=
  let es := waitAnswer w :: w.behind
  let rest := m.tenon.waits.filter fun x => x.num != w.num
  match (rest.filter fun x => x.session == w.session && decide (x.num < w.num)).getLast? with
  | some p => m.onTn fun t => { t with waits := rest.map fun x => if x.num = p.num then { x with behind := x.behind ++ es } else x }
  | none => forAll es (fun e m => m.emit e) (m.onTn fun t => { t with waits := rest })

/-- A request ends with a word, or with an error, which reads as 0. -/
def Chip.endReq (q : TnReq) (v : Option Nat) (m : Chip) : Chip :=
  let m1 := m.onTn fun t =>
    { t with reqs := t.reqs.filter fun r => r.tag != q.tag,
             waits := t.waits.map fun w => if w.num = q.read then
               { w with words := w.words.set q.word (some (v.getD 0)), failed := w.failed || v.isNone } else w }
  let m2 := match m1.tenon.waits.find? fun w => w.num == q.read && w.words.all fun x => x.isSome with
    | some w => m1.finishWait w
    | none => m1
  m2.issueAll m2.tenon.todo

/-! ### Receiving (R282, R283, R287, R290) -/

/-- A transfer's header is malformed for the end it arrives at (R282): a reserved space or bit, a destination outside its space. -/
def tnBad (d vc : Nat) (x : TnXfer) : Bool :=
  decide (1024 ≤ x.tag) || (x.space != 0 && x.unit != 0) || decide (16777216 < x.length) ||
    !(match vc with
      | 2 => (if d = 0 then x.space == 0 && decide (x.unit < Config.bents) && decide (x.dst + x.length ≤ Config.bentSram)
              else (x.space == 3 && decide (x.dst + x.length ≤ Config.cmBytes)) || x.space == 4) || x.space == 5
      | _ => x.space == 6)

/-- A transfer dropped as stale (R290). -/
def Chip.tnStale (d : Nat) (m : Chip) : Chip :=
  let m1 := (m.bump R.TN_CNT_STALE).setFlag F.TN_STAT_stale_drop
  if d = 0 then (m1.bump R.RC_STALE_COUNT).setFlag F.RC_BAY_STAT_stale_drop else m1

/-- The last flit of a transfer to the record buffer brings its groups, which wait there for the sequencer, and its mark sets (R16, R206,
R436). -/
def Chip.tnRecords (f : TnFlit) (m : Chip) : Chip :=
  let m1 : Chip := { m with fire := { m.fire with inbox := m.fire.inbox ++ f.groups } }
  forAll f.sets (fun k m => forAll (m.wit.sealed.filter fun s => s.job == k.1 && s.key == k.2) (fun s m =>
    (m.onWit fun w => { w with sealed := w.sealed.erase s }).setArrives s) m) m1

/-- A request is performed at the Ridge, and its response sent (R285, R292). -/
def Chip.tnRequest (f : TnFlit) (m : Chip) : Chip :=
  let x := f.xfer
  let rsp (l : List Byte) (m : Chip) : Chip :=
    m.tnSend 1 1 { x with bay := m.bay, closeBay := m.bay, length := l.length } l [] []
  if x.length = 0 then
    let r := m.readReg x.dst
    rsp (leBytes 4 r.1) r.2
  else rsp [] (m.ridgeWrite x.dst (ofLeBytes (f.payload.drop 4)) (ofLeBytes (f.payload.take 4)))

/-- A response reaches the Sill: it completes its request, or is late (R292). -/
def Chip.tnResponse (f : TnFlit) (m : Chip) : Chip :=
  match m.tenon.reqs.find? fun q => q.tag == f.xfer.tag with
  | some q => m.endReq q (some (ofLeBytes f.payload))
  | none => (m.setFlag F.TN_STAT_late_rsp).bump R.TN_CNT_LATE_RSP

/-- The payload of an accepted flit, and at the end of a transfer what it does: a signal, records, a request, a response. -/
def Chip.tnCommit (d : Nat) (f : TnFlit) (m : Chip) : Chip :=
  let x := f.xfer
  let m1 := match x.space with
    | 0 => m.putBytes (bentAddr x.unit (x.dst + f.off)) f.payload
    | 3 => m.putBytes (cmAddr (x.dst + f.off)) f.payload
    | 4 => m.putBytes (recAddr (x.dst + f.off)) f.payload
    | _ => m
  if f.pos < 2 then m1
  else if f.vc = 0 then m1.tnRequest f
  else if f.vc = 1 then m1.tnResponse f
  else (m1.tnRecords f).signalOpt (1 - d) (if x.tag = 0x3FF then none else some x.tag)

/-- An accepted data flit (R282, R290, R291).
(Log: 89 DEDUCED.) -/
def Chip.tnAccept (d : Nat) (f : TnFlit) (m : Chip) : Chip :=
  let t := m.tnDir d
  let t1 := { t with expect := (t.expect + 1) % 4096, ackDue := true,
                     freedReq := t.freedReq + b2n (f.vc == 0), freedRsp := t.freedRsp + b2n (f.vc == 1),
                     freedPost := t.freedPost + b2n (f.vc == 2) }
  let m1 := (m.setTnDir d t1).bump (if d = 0 then R.TN_CNT_FLIT_S2R else R.TN_CNT_FLIT_R2S)
  let first := f.pos % 2 == 1
  let dropped := !first && ((t.cur.find? fun c => c.1 == f.vc).map (·.2)).getD false
  let mark (b : Bool) (m : Chip) : Chip := m.modTnDir d fun t => { t with cur := (f.vc, b) :: t.cur.filter fun c => c.1 != f.vc }
  if f.cancelled then ((mark true m1).bump R.TN_CNT_CANCEL).setFlag F.TN_STAT_cancelled
  else if dropped then m1
  else if first && tnBad d f.vc f.xfer then
    ((mark true m1).setFlag F.TN_STAT_protocol_err).raise (if d = 0 then SrcName.tenonProtocolRidge else SrcName.tenonProtocolSill)
  else if f.xfer.bay ≠ m.bay then (mark true m1).tnStale d
  else (mark false m1).tnCommit d f

/-- Acknowledged flits leave the replay buffer. -/
def ackReplay (ack : Nat) (l : List TnFlit) : List TnFlit := l.dropWhile fun f => decide ((ack + 4096 - f.seq) % 4096 < 2048)

/-- The header of a flit that passes its CRC (R280): the other direction's credits and acknowledgement.
(Log: 89 DEDUCED.) -/
def Chip.tnHeader (d : Nat) (f : TnFlit) (m : Chip) : Chip :=
  m.modTnDir (1 - d) fun o =>
    let r := ackReplay f.ack o.replay
    let got := decide (r.length < o.replay.length)
    { o with credReq := o.credReq + f.crReq, credRsp := o.credRsp + f.crRsp, credPost := o.credPost + f.crPost,
             replay := r, again := min o.again r.length, ackAt := if got then m.now else o.ackAt, replays := if got then 0 else o.replays }

/-- A flit that fails its CRC (R287, R294). The credits in its header are returned again later. -/
def Chip.tnCrcFail (d : Nat) (f : TnFlit) (m : Chip) : Chip :=
  let t := m.tnDir d
  let times := (t.crcTimes.filter fun x => decide (m.now < x + 10000)) ++ [m.now]
  let m1 := m.setTnDir d { t with nakDue := true, crcTimes := times }
  let m2 := m1.modTnDir (1 - d) fun o =>
    { o with freedReq := o.freedReq + f.crReq, freedRsp := o.freedRsp + f.crRsp, freedPost := o.freedPost + f.crPost }
  let m3 := (m2.bump (if d = 0 then R.TN_CNT_CRC_S2R else R.TN_CNT_CRC_R2S)).setFlag F.TN_STAT_crc_err
  if 64 < times.length then m3.tnRetrain else m3

/-- A flit reaches the end of direction `d`.
(Log: 89 DEDUCED.) -/
def Chip.tnReceive (d : Nat) (f : TnFlit) (crcOk : Bool) (m : Chip) : Chip :=
  if !crcOk then m.tnCrcFail d f
  else
    let m1 := m.tnHeader d f
    if f.vc = 3 then (if f.pos = 2 then m1.tnReplay (1 - d) else m1)
    else if f.seq = (m1.tnDir d).expect then m1.tnAccept d f
    else m1

/-- Take the oldest flit in flight in direction `d` that satisfies `p` at the front. -/
def Chip.tnFront (d : Nat) (p : TnFlit → Bool) (crcOk : Bool) (m : Chip) : Chip :=
  match (m.tnDir d).wire with
  | [] => m
  | f :: r => if m.tnUp && p f then (m.modTnDir d fun t => { t with wire := r }).tnReceive d f crcOk else m

/-- FLIT_RECEIVED (R287): the oldest flit in flight in direction `d` arrives, with the outcome of its CRC. -/
def flitReceived (dt d : Nat) (crcOk : Bool) (m : Chip) : Chip := (tnElapse dt m).tnFront d (fun _ => true) crcOk
/-- TENON_NAK (R287, R288): the flit that arrives in direction `d` is a nak. -/
def tenonNak (dt d : Nat) (m : Chip) : Chip := (tnElapse dt m).tnFront d (fun f => f.vc == 3 && f.pos == 2) true
/-- TENON_RESPONSE (R292): the flit that arrives in direction `d` carries a response. -/
def tenonResponse (dt d : Nat) (m : Chip) : Chip := (tnElapse dt m).tnFront d (fun f => f.vc == 1) true

/-- TENON_REPLAY_TIMEOUT (R288): no acknowledgement for 2 µs while flits are outstanding. -/
def tenonReplayTimeout (dt d : Nat) (m0 : Chip) : Chip :=
  let m := tnElapse dt m0
  let t := m.tnDir d
  if m.tnUp && !t.replay.isEmpty && t.again == 0 && decide (t.ackAt + 2000 ≤ m.now) then m.tnReplay d else m

/-- TENON_REQUEST_TIMEOUT (R292). -/
def tenonRequestTimeout (dt tag : Nat) (m0 : Chip) : Chip :=
  let m := tnElapse dt m0
  match m.tenon.reqs.find? fun q => q.tag == tag && decide (q.sentAt + m.get F.TN_CFG_req_timeout * 1000 ≤ m.now) with
  | none => m
  | some q =>
    let m1 := (m.setFlag F.TN_STAT_req_timeout).bump R.TN_CNT_TIMEOUT
    (m1.onTn fun t => { t with blocked := t.blocked ++ [(tag, m.now, false)] }).endReq q none

/-! ### Training (R293 to R296) -/

/-- TENON_RETRAIN (R294, R299): a write of retrain, or loss of clock lock on either end. -/
def tenonRetrain (dt : Nat) (m : Chip) : Chip := (tnElapse dt m).tnRetrain

/-- The link has failed (R295).
(Log: 90 DEDUCED.) -/
def Chip.tnFailed (m : Chip) : Chip :=
  ((((m.put F.TN_STAT_state 4).assert SrcName.tenonDownSill).assert SrcName.tenonDownRidge)).onTn fun t => { t with tryAt := m.now + 10000000 }

/-- Credits held after an exchange (R293): the buffers of the other end less the flits that will be replayed. -/
def freshCredits (t : TnDir) : TnDir :=
  let n (vc : Nat) : Nat := (t.replay.filter fun f => f.vc == vc).length
  { t with credReq := 32 - n 0, credRsp := 64 - n 1, credPost := 192 - n 2, freedReq := 0, freedRsp := 0, freedPost := 0,
           nakDue := false, again := t.replay.length, crcTimes := [] }

/-- After a retrain a sender replays from the other end's last accepted number. -/
def Chip.tnResume (d : Nat) (m : Chip) : Chip :=
  m.modTnDir d fun t =>
    let l := ackReplay ((t.expect + 4095) % 4096) t.replay
    { freshCredits { t with replay := l } with ackAt := m.now, slotAt := m.cyc }

/-- A training with its outcome: whether it passes its steps, and the further lanes found bad in each direction. A retrain that
fails is followed by another (R295). -/
def Chip.tnTrain (ok : Bool) (badS badR : Nat) (m : Chip) : Chip :=
  let s := m.get F.TN_STAT_spares_s2r + badS
  let r := m.get F.TN_STAT_spares_r2s + badR
  if 2 < s ∨ 2 < r then ((m.put F.TN_STAT_spares_s2r (min 2 s)).put F.TN_STAT_spares_r2s (min 2 r)).tnFailed
  else if !ok then
    let m1 := m.onTn fun t => { t with fails := t.fails + 1 }
    if 3 ≤ m1.tenon.fails then m1.tnFailed
    else if m.get F.TN_STAT_state = 3 then m1.countRetrain
    else m1
  else
    let cold := m.get F.TN_STAT_state == 1
    let m1 := ((m.put F.TN_STAT_spares_s2r s).put F.TN_STAT_spares_r2s r).put F.TN_STAT_state 2
    let m2 := if cold then (m1.setTnDir 0 { slotAt := m.cyc }).setTnDir 1 { slotAt := m.cyc } else (m1.tnResume 0).tnResume 1
    let m3 := m2.onTn fun t => { t with fails := 0, blocked := t.blocked.map fun b => (b.1, b.2.1, b.2.2 || !cold) }
    (m3.deassert SrcName.tenonDownSill).deassert SrcName.tenonDownRidge

/-- TENON_TRAIN (R293, R295, R296): a training of a link that trains or retrains ends. -/
def tenonTrain (dt : Nat) (ok : Bool) (badS badR : Nat) (m0 : Chip) : Chip :=
  let m := tnElapse dt m0
  if m.get F.TN_STAT_state = 1 ∨ m.get F.TN_STAT_state = 3 then m.tnTrain ok badS badR else m

/-- TENON_TRAIN_RETRY (R295): every 10 ms a failed link tries to train again. -/
def tenonTrainRetry (dt : Nat) (ok : Bool) (badS badR : Nat) (m0 : Chip) : Chip :=
  let m := tnElapse dt m0
  if m.get F.TN_STAT_state = 4 ∧ m.tenon.tryAt ≤ m.now then m.tnTrain ok badS badR else m

/-! ### The DMA queues (R282, R206, R137) -/

/-- The engine of a direction's DMA queue. -/
def tnEngine (d : Nat) : Engine := if d = 0 then .tenonS2R else .tenonR2S

/-- Rows of a descriptor as transfers: the tag is that of the last.
(Log: 92 DEDUCED.) -/
def Chip.tnRows (d : Nat) (c : CutEntry) (er : ReadErrs) (q : DmaDesc) (m : Chip) : Chip :=
  let tag := c.signal.getD 0x3FF
  let base : TnXfer := { bay := m.bay, closeBay := m.closeOf (tnEngine d) c, dst := 0, length := 0, space := q.dst,
                         unit := if q.dst = 0 then q.peer else 0, tag := 0x3FF }
  if q.dst = 5 then m.tnSend d 2 { base with tag } [] [] []
  else
    forAll (upTo q.rows) (fun i m =>
      let src := q.srcAddr + i * q.srcPitch
      let row := m.readMem er (if d = 0 then cmAddr src else bentAddr q.peer src) q.rowBytes
      m.tnSend d 2 { base with dst := q.dstAddr + i * q.dstPitch, length := q.rowBytes, tag := if i + 1 = q.rows then tag else 0x3FF }
        row [] []) m

/-- The records of the job that the Ridge sends in this bay (R206, R40, R436): the groups or notices of close bay b − D in queue
order, then the sealed mark sets. -/
def Chip.tnVerdicts (c : CutEntry) (q : DmaDesc) (m : Chip) : Chip :=
  let due := m.pp.queue.filter fun g => g.job == c.job && g.closeBay + m.depth == m.bay
  let sets := (m.wit.sealed.filter fun s => s.job == c.job).map fun s => (s.job, s.key)
  let bytes := due.flatMap groupBytes
  let x : TnXfer := { bay := m.bay, closeBay := m.closeOf .tenonR2S c, dst := q.dstAddr, length := bytes.length, space := 4, unit := 0,
                      tag := c.signal.getD 0x3FF }
  ({ m with pp := { m.pp with queue := m.pp.queue.filter fun g => !due.contains g } }).tnSend 1 2 x bytes due sets

/-- The 16-byte ROI descriptor of a window (R137). -/
def roiBytes (level i : Nat) (w : RoiWin) : List Byte :=
  leBytes 4 w.col ++ leBytes 2 (unsignedOf 16 w.line) ++ leBytes 2 w.prov ++ leBytes 1 level ++ leBytes 1 w.kind ++ leBytes 2 i ++ leBytes 4 0

/-- A strip's crop command (R135 to R138): one transfer for each window, its ROI descriptor and its pixels, tagged with the strip's close
bay (R14).
(Log: 92 DEDUCED.) -/
def Chip.tnCrop (c : CutEntry) (er : ReadErrs) (q : DmaDesc) (r strip : Nat) (m0 : Chip) : Chip :=
  let m := m0.cropStarts r strip
  let base : TnXfer := { bay := m.bay, closeBay := m.closeOf .tenonS2R c, dst := q.dstAddr, length := 0, space := q.dst,
                         unit := if q.dst = 0 then q.peer else 0, tag := c.signal.getD 0x3FF }
  let slot := (m.fire.closed.find? fun x => x.row == r && x.strip == strip && x.closeBay == base.closeBay).bind (·.slot)
  match m.outOf r strip, slot with
  | some o, some s =>
    let (lvl, w, h) := m.crop r
    let bpp := m.rowPlanes r * (if m.levelU16 r lvl then 2 else 1)
    let beyond : Int := (m.rowOverlap r / 2 ^ lvl : Nat)
    let n := o.wins.length
    if n = 0 then m.tnSend 0 2 { base with space := 5, unit := 0 } [] [] []
    else
      forAll o.wins.zipIdx (fun p m =>
        let px := (upTo h).flatMap fun (y : Nat) =>
          let k := (p.1.line + beyond + y).toNat
          m.readMem er (m.slotAddr r s + m.levelOff r lvl + k * m.lineBytes r lvl + p.1.col * bpp) (w * bpp)
        let bytes := roiBytes lvl p.2 p.1 ++ px
        m.tnSend 0 2 { base with dst := q.dstAddr + p.2 * q.dstPitch, length := bytes.length,
                                 tag := if p.2 + 1 = n then base.tag else 0x3FF } bytes [] []) m
  | _, _ => m.tnSend 0 2 { base with space := 5, unit := 0 } [] [] []

/-- What a transfer of queue `d` sends, with the errors it meets.
(Log: 92 DEDUCED.) -/
def tenonWork (d : Nat) (c : CutEntry) (er : ReadErrs) (crop : Option (Nat × Nat)) (m : Chip) : Running × Chip :=
  let q := m.dmaDesc c.descPtr
  let src (a : Nat) : Nat := if d = 0 then cmAddr a else bentAddr q.peer a
  let m1 := m.meetErrs (tnEngine d) c ((upTo q.rows).map fun i => (src (q.srcAddr + i * q.srcPitch), q.rowBytes)) er
  ({ blankRunning with op := "TENON_DMA" }, match crop with
    | some p => if d = 0 then m1.tnCrop c er q p.1 p.2 else m1
    | none => if d = 1 ∧ q.dst = 4 then m1.tnVerdicts c q else m1.tnRows d c er q)

/-- TENON_DMA (R282): a command of a Tenon DMA queue starts. `crop` names the row and strip of a crop command.
(Log: 92 DEDUCED.) -/
def tenonDma (dt d : Nat) (c : CutEntry) (er : ReadErrs) (crop : Option (Nat × Nat)) (m0 : Chip) : Chip :=
  let m := tnElapse dt m0
  let q := m.dmaDesc c.descPtr
  if q.op ≠ 4 ∨ q.kind ≠ 0 then m else startCmd 0 (tnEngine d) c (tenonWork d c er crop) m

/-! ### The boundary (R291) -/

/-- The boundary that begins bay `b`: unacknowledged flits of the ending bay are cancelled, those not transmitted yet are dropped. -/
def Chip.tnBoundary (b : Nat) (m : Chip) : Chip :=
  forAll [0, 1] (fun d m => m.modTnDir d fun t =>
    let live (l : List TnFlit) : List TnFlit := l.filter fun f => f.xfer.bay == b
    { t with replay := t.replay.map fun f => if f.xfer.bay = b then f else { f with cancelled := true },
             txReq := live t.txReq, txRsp := live t.txRsp, txPost := live t.txPost }) m

/-! ### The meanings of the commands -/

/-- TENON_DMA (R282). -/
def execTenonDma (dt d : Nat) (c : CutEntry) (er : ReadErrs) (crop : Option (Nat × Nat)) (s : State) : Answer :=
  onUnit (decide (d < 2)) dt (tenonDma dt d c er crop) s
/-- FLIT_RECEIVED (R287). -/
def execFlitReceived (dt d : Nat) (crcOk : Bool) (s : State) : Answer :=
  onUnit (decide (d < 2)) dt (flitReceived dt d crcOk) s
/-- TENON_NAK (R288). -/
def execTenonNak (dt d : Nat) (s : State) : Answer :=
  onUnit (decide (d < 2)) dt (tenonNak dt d) s
/-- TENON_REPLAY_TIMEOUT (R288). -/
def execTenonReplayTimeout (dt d : Nat) (s : State) : Answer :=
  onUnit (decide (d < 2)) dt (tenonReplayTimeout dt d) s
/-- TENON_RETRAIN (R294). -/
def execTenonRetrain (dt : Nat) (s : State) : Answer :=
  onUnit true dt (tenonRetrain dt) s
/-- TENON_TRAIN (R293). -/
def execTenonTrain (dt : Nat) (ok : Bool) (badS badR : Nat) (s : State) : Answer :=
  onUnit true dt (tenonTrain dt ok badS badR) s
/-- TENON_TRAIN_RETRY (R295). -/
def execTenonTrainRetry (dt : Nat) (ok : Bool) (badS badR : Nat) (s : State) : Answer :=
  onUnit true dt (tenonTrainRetry dt ok badS badR) s
/-- TENON_RESPONSE (R292). -/
def execTenonResponse (dt d : Nat) (s : State) : Answer :=
  onUnit (decide (d < 2)) dt (tenonResponse dt d) s
/-- TENON_REQUEST_TIMEOUT (R292). -/
def execTenonRequestTimeout (dt tag : Nat) (s : State) : Answer :=
  onUnit true dt (tenonRequestTimeout dt tag) s

end Sys2Proof.Machine
end

