-- ==== Sys2Proof/Machine/Purlin.lean ====
section
/-!
DEFINITION. Sys2Proof/Machine/Purlin.lean: the commands of the Purlin fabric (R301 to R340): ports and their training, frames received,
flows, discovery, low-power idle, routing tables.
-/
namespace Sys2Proof.Machine

def Chip.setPurState (p st : Nat) (m : Chip) : Chip := m.put (F.PUR_STAT_state p) st
/-- The port carries frames: up, or in mismatch (LINK and HELLO only). -/
def Chip.purAlive (m : Chip) (p : Nat) : Bool := m.purState p == 3 || m.purState p == 4

/-- A frame of this type is routed; the others travel one hop (R308). -/
def bodyRouted : PurBody → Bool
  | .data _ _ | .ack _ _ | .nak _ _ | .marks _ => true
  | _ => false

/-! ### Leaving the up state (R306) -/

/-- A port leaves the up state and trains again, or is held: what waits on it is lost; routed frames among it count as frames routed to
a port that is down (R306).
(Log: 94 DEDUCED.) -/
def Chip.purLeave (p st : Nat) (m : Chip) : Chip :=
  let m1 := m.wr (R.PUR_CNT_CW p) (BitVec.ofNat 32 (m.codewords p))
  let lost := (m.purPort p).txq
  let m2 := m1.modPurPort p fun s => { s with txq := [], fails := 0, run := 0, resync := false, fecTimes := [], tagTimes := [], helloOk := false }
  let m3 := ((m2.setPurState p st).bump (R.PUR_CNT_DOWN p)).raise SrcName.purlinLink
  forAll lost (fun w m => m.giveBackOpt w.via w.frame)
    (m3.bumpBy R.PUR_CNT_NOROUTE (lost.filter fun w => bodyRouted w.frame.body).length)

/-- The port retrains (R303) for a cause of R306; a port that is not up only trains. -/
def Chip.purDown (p : Nat) (m : Chip) : Chip :=
  match m.purState p with
  | 3 | 4 => m.purLeave p 1
  | 2 | 5 => m.setPurState p 1
  | _ => m

/-- PURLIN_PORT_DOWN (R306): loss of signal (0), of clock lock (1), of codeword lock (2). -/
def purlinPortDown (dt p cause : Nat) (m0 : Chip) : Chip :=
  let m := elapse dt m0
  if !m.purAlive p then m
  else (m.setFlag (match cause with | 0 => F.PUR_STAT_los p | 1 => F.PUR_STAT_lol p | _ => F.PUR_STAT_cw_lost p)).purDown p

/-- UNCORRECTABLE_CODEWORD (R305, R306): blocks are discarded up to the next filler; 4 in a row, or more than fec_limit in 1 ms, take
the port down. `next` tells one that follows the last uncorrectable codeword at once. -/
def uncorrectableCodeword (dt p : Nat) (next : Bool) (m0 : Chip) : Chip :=
  let m := elapse dt m0
  if !m.purAlive p then m
  else
    let s := m.purPort p
    let times := (s.fecTimes.filter fun t => decide (m.now < t + 1000000)) ++ [m.now]
    let run := if next then s.run + 1 else 1
    let m1 := ((m.setPurPort p { s with fecTimes := times, run, resync := true }).setFlag (F.PUR_STAT_fec_uncorr p)).bump (R.PUR_CNT_UNCORR p)
    if 4 ≤ run then (m1.setFlag (F.PUR_STAT_cw_lost p)).purDown p
    else if max 1 (m.get (F.PUR_FEC_CFG_fec_limit p)) < times.length then m1.purDown p
    else m1

/-- A frame fails its tag check (R309); more than 16 in 1 ms take the port down, and its keys with it (R303). -/
def Chip.tagFail (p : Nat) (m : Chip) : Chip :=
  let s := m.purPort p
  let times := (s.tagTimes.filter fun t => decide (m.now < t + 1000000)) ++ [m.now]
  let m1 := ((m.setPurPort p { s with tagTimes := times }).setFlag (F.PUR_STAT_tag_fail p)).bump (R.PUR_CNT_TAG p)
  if 16 < times.length then (m1.purDown p).modPurPort p fun s => { s with keyed := false } else m1

/-! ### Training and authentication (R303, R304, R527) -/

/-- The module's HELLO on a port (R315). -/
def Chip.ownHello (m : Chip) (p : Nat) : HelloRec :=
  { id := m.ownId, port := p, group := (m.stick.fabric.map (·.group)).getD 0, tag := 0xA1000000 + Config.ucodeLevel.toNat * 2 ^ 12 + Config.fwLevel.toNat,
    size := (upTo 4).map fun i => (m.rd (R.SZ_0 + 4 * i)).toNat, idHash := Config.identityHash }
def Chip.helloOut (p : Nat) (m : Chip) : Chip :=
  (m.modPurPort p fun s => { s with helloAt := m.now }).purTx p (m.linkFrame (.hello (m.ownHello p)) 2 128)

/-- Step 6: the port is up with fresh credits, and says HELLO. -/
def Chip.purUp (p : Nat) (m : Chip) : Chip :=
  ((m.modPurPort p fun s => { s with bulk := 4096, mirror := 256, control := 256, helloOk := false, hello := none, upAt := m.now, lastTx := m.now,
                                     fails := 0, grant := false }).setPurState p 3).helloOut p

/-- Step 5: keys held are resumed; else the peers authenticate and agree keys (R527, R528). A certificate that is not accepted, or has
been revoked (R524), holds the port in step 5. -/
def Chip.purAuth (p : Nat) (t : PurTrain) (m : Chip) : Chip :=
  let s := m.purPort p
  if s.keyed then m.purUp p
  else if !t.authOk || m.trust.revokedCerts.contains t.certHash then
    (((m.setPurPort p { s with keyed := false, tryAt := m.now + 1000000000 }).setPurState p 2).setFlag (F.PUR_STAT_auth_fail p)).raise SrcName.purlinAuth
  else (m.setPurPort p { s with keyed := true, certHash := t.certHash, txCtr := 0, rxCtr := none, gen := 0, rxGen := 0, rxSwitch := none, txSwitch := none }).purUp p

/-- A lane map (R304): each transmit lane on one receive lane. -/
def laneMapOk (w : Nat) : Bool := (upTo 4).all fun i => (upTo 4).any fun k => bitsN w (2 * k + 1) (2 * k) == i

/-- PURLIN_TRAIN (R303, R304): a training ends. Failed three times in a row, the port tries every 100 ms (R306). -/
def purlinTrain (dt p : Nat) (t : PurTrain) (m0 : Chip) : Chip :=
  let m := elapse dt m0
  if m.purState p ≠ 1 then m
  else if !t.ok || decide (80 < t.skew) || !laneMapOk t.laneMap then
    let n := (m.purPort p).fails + 1
    let m1 := m.modPurPort p fun s => { s with fails := n, tryAt := m.now + 100000000 }
    if 3 ≤ n then m1.setPurState p 0 else m1
  else
    (((m.put (F.PUR_LANE_map p) t.laneMap).put (F.PUR_LANE_inverted p) t.inverted).put (F.PUR_LANE_skew_ns p) t.skew).purAuth p t

/-- PURLIN_TRAIN_RETRY (R306). -/
def purlinTrainRetry (dt p : Nat) (m0 : Chip) : Chip :=
  let m := elapse dt m0
  let s := m.purPort p
  if m.purState p = 0 ∧ 3 ≤ s.fails ∧ s.tryAt ≤ m.now then m.setPurState p 1 else m

/-- PURLIN_AUTH_RETRY (R303): with the outcome of the new handshake. -/
def purlinAuthRetry (dt p : Nat) (t : PurTrain) (m0 : Chip) : Chip :=
  let m := elapse dt m0
  if m.purState p = 2 ∧ (m.purPort p).tryAt ≤ m.now then m.purAuth p t else m

/-- PURLIN_RETRAIN (R306, R332). -/
def purlinRetrain (dt p : Nat) (m0 : Chip) : Chip :=
  let m := elapse dt m0
  if m.flag (F.PUR_CFG_enabled p) then m.purDown p else m

/-- PURLIN_HOLD (R332): a held port is down and silent; released, it trains and authenticates anew (R303). -/
def purlinHold (dt p : Nat) (hold : Bool) (m0 : Chip) : Chip :=
  let m := (elapse dt m0).put (F.PUR_CTRL_hold p) (b2n hold)
  if !m.flag (F.PUR_CFG_enabled p) then m
  else if hold then (if m.purAlive p then m.purLeave p 6 else m.setPurState p 6)
  else if m.purState p = 6 then (m.setPurState p 1).modPurPort p fun s => { s with keyed := false }
  else m

/-- PURLIN_REKEY (R528): link_ctr has reached 2⁶¹: the next generation is proposed with a switch counter, a free value beyond the frames
sent so far.
(Log: 94 DEDUCED.) -/
def purlinRekey (dt p : Nat) (m0 : Chip) : Chip :=
  let m := elapse dt m0
  let s := m.purPort p
  if m.purState p = 3 ∧ 2 ^ 61 ≤ s.txCtr ∧ s.txSwitch.isNone then
    let (v, m1) := m.draw
    let c := s.txCtr + 1 + v % 2 ^ 32
    (m1.setPurPort p { s with txSwitch := some (s.gen + 1, c) }).linkSend p { rekey := some (s.gen + 1, c) }
  else m

/-! ### Discovery (R315, R316) -/

/-- The three checks of R316. -/
def Chip.helloPasses (m : Chip) (p : Nat) (h : HelloRec) : Bool :=
  match m.stick.fabric with
  | none => false
  | some f =>
    h.id == m.get (F.PUR_CFG_peer_id p) && h.port == m.get (F.PUR_CFG_peer_port p) &&
      h.idHash == (m.purPort p).certHash && f.peers.any (fun x => x.1 == p && x.2 == h.idHash) && h.group == f.group &&
      h.tag == (m.ownHello p).tag

/-- A HELLO arrives (R316). A module without fabric record checks nothing and carries no other traffic.
(Log: 94 DEDUCED.) -/
def Chip.takeHello (p : Nat) (h : HelloRec) (m : Chip) : Chip :=
  let s := m.purPort p
  if m.purState p ≠ 3 ∨ m.stick.fabric.isNone then m.modPurPort p fun s => { s with hello := some h }
  else if (s.hello.map fun x => decide (x ≠ h)).getD false then
    (((m.setFlag (F.PUR_STAT_peer_mismatch p)).raise SrcName.purlinPeer).purLeave p 2).modPurPort p fun s => { s with keyed := false, tryAt := m.now }
  else if m.helloPasses p h then (m.setPurPort p { s with hello := some h, helloOk := true }).purFlush p
  else
    (((m.setPurPort p { s with hello := some h }).purLeave p 4).setFlag (F.PUR_STAT_peer_mismatch p)).raise SrcName.purlinPeer

/-- HELLO (R316).
(Log: 94 DEDUCED.) -/
def helloIn (dt p : Nat) (h : HelloRec) (m0 : Chip) : Chip :=
  let m := elapse dt m0
  if m.purAlive p then m.takeHello p h else m

/-- HELLO_SEND (R315): every 100 ms. -/
def helloSend (dt p : Nat) (m0 : Chip) : Chip :=
  let m := elapse dt m0
  if m.purAlive p && decide ((m.purPort p).helloAt + 100000000 ≤ m.now) then m.helloOut p else m

/-! ### LINK frames (R310, R320, R528) -/

/-- The port could sleep (R320): nothing waits, no flow through it is unacknowledged. -/
def Chip.purQuiet (m : Chip) (p : Nat) : Bool :=
  (m.purPort p).txq.isEmpty && m.purlin.out.all fun f => f.unacked.all fun u => m.routeOf u.frame.epoch f.dev != p

/-- What a port needs for low-power idle beside its peer's grant (R320): permitted, not disabled, up, no frame but LINK sent for
lpi_idle, nothing unacknowledged. -/
def Chip.mayIdle (m : Chip) (p : Nat) : Bool :=
  m.purState p == 3 && m.flag (F.PUR_CFG_lpi_en p) && !m.flag (F.PUR_STAT_lpi_disabled p) &&
    decide ((m.purPort p).lastTx + (m.stick.fabric.map (·.lpiIdle)).getD 100 * 1000 ≤ m.now) && m.purQuiet p

/-- The port enters low-power idle: its transmitters stop (R320). -/
def Chip.purSleep (p : Nat) (m : Chip) : Chip :=
  ((m.wr (R.PUR_CNT_CW p) (BitVec.ofNat 32 (m.codewords p))).modPurPort p fun s => { s with grant := false }).setPurState p 5

/-- A LINK frame arrives: credits, a low-power-idle request or its grant, a rekeying; on the standby's mirror port it is a keep-alive
(R326, R468). A port that may sleep itself grants the request; at the grant both transmitters stop. -/
def Chip.takeLink (p : Nat) (l : LinkRec) (m : Chip) : Chip :=
  let m1 := m.modPurPort p fun s =>
    { s with bulk := min 4096 (s.bulk + l.bulk), mirror := min 256 (s.mirror + l.mirror), control := min 256 (s.control + l.control),
             grant := s.grant || l.lpiGrant, rxSwitch := l.rekey.orElse fun _ => s.rxSwitch }
  let m2 := if p = m.get F.PUR_MIRROR_CFG_mport ∧ m.get F.PUR_MIRROR_CFG_mrole = 2 then
      { m1 with sup := { m1.sup with mirrorAliveAt := m1.now } } else m1
  let m3 := m2.purFlush p
  if !m3.mayIdle p then m3
  else if l.lpiGrant then m3.purSleep p
  else if l.lpiReq then (m3.linkSend p { lpiGrant := true }).purSleep p
  else m3

/-- LINK_FRAME (R310). -/
def linkFrameIn (dt p : Nat) (l : LinkRec) (m0 : Chip) : Chip :=
  let m := elapse dt m0
  if m.purAlive p then m.takeLink p l else m

/-! ### Frames received (R308, R309, R311, R312, R314, R317) -/

/-- The class a body belongs to (R308). -/
def bodyClass : PurBody → Nat
  | .data _ _ => 0
  | .mirror _ _ | .mirrorAck _ => 1
  | _ => 2

/-- The strip header of a fed row reaches the follower (R443): its strip closes `lag` bays after the leader's close. The first strip
is played as lead-in and closes none (R442).
(Log: 96 DEDUCED.) -/
def Chip.followHeader (row : Nat) (l : List Byte) (m : Chip) : Chip :=
  let strip := ofLeBytes (l.take 8)
  let bay := ofLeBytes ((l.drop 8).take 8) + m.get F.WIT_CFG_lag
  let rp := m.rowPipe row
  match rp.floor with
  | none => m
  | some f =>
    if strip < f then m
    else m.setRowPipe row { rp with fedClose := rp.fedClose ++ [(strip, bay)], fedFirst := some (rp.fedFirst.getD bay) }

/-- A record at a global address of a camera's ring is played (R442): a line at once, a snapshot as the filter's state of the first
strip, which is played as lead-in (R118).
(Log: 96 DEDUCED.) -/
def Chip.followRecord (c : CameraRec) (kind a : Nat) (m : Chip) : Chip :=
  match m.gangOf c.master with
  | none => m
  | some g =>
    let rp := m.rowPipe g.row
    if kind = 1 then (if rp.floor.isNone then m.restoreSnap g a else m)
    else
      let fl := m.numAt (a + 0x0E) 2
      let e := sampleBytes c.bits
      let idx := m.numAt a 8
      let x : InLine := { idx, count := signedOf 48 (m.numAt (a + 8) 6), tb3 := m.numAt (a + 0x10) 8, bits := c.bits, dropped := bitN fl 1,
                          samples := if bitN fl 0 then none else some ((upTo (m.numAt (a + 0x1C) 4 / e)).map fun i => m.numAt (a + 64 + i * e) e) }
      let m1 := m.setRowPipe g.row { rp with floor := some (rp.floor.getD (idx / m.rowLines g.row + 1)) }
      m1.replayLineTo (m.get (F.LP_CTRL_replay_ch g.master)) g x

/-- What a follower does with data that has arrived at capture memory from `dst` on (R442, R443): once a record is whole it is used. -/
def Chip.followData (dst : Nat) (part : List Byte) (m : Chip) : Chip :=
  match m.stick.fabric with
  | none => m
  | some f =>
    if !m.follower then m
    else match f.feed.find? fun x => x.2 == dst with
      | some x => m.followHeader x.1 part
      | none =>
        let rows := f.feed.map (·.1)
        forAll ((m.stick.cameras.filter fun c => rows.contains c.row).flatMap fun c => [(c, 0), (c, 1)]) (fun q m =>
          match m.region q.2 q.1.master with
          | none => m
          | some r =>
            let stride := if q.2 = 0 then lineStride q.1 else snapStride q.1
            if r.base ≤ dst ∧ dst < r.base + r.len ∧ 0 < stride then
              let a := r.base + (dst - r.base) / stride * stride
              let len := if q.2 = 0 then 64 + m.numAt (cmAddr a + 0x1C) 4 else stride
              if a + min len stride ≤ dst + part.length ∨ (q.2 = 1 ∧ a + 64 + 4 * q.1.width * q.1.planes ≤ dst + part.length) then
                m.followRecord q.1 q.2 (cmAddr a)
              else m
            else m) m

/-- A transfer accepted in sequence (R312, R314): stale, outside its windows, or written; its semaphore is signalled. Data for the
Ridge crosses the Tenon link with its original bay, and so does a transfer that only signals, which names no half: it signals at the
Ridge, where the commands that wait for another module's data stand. -/
def Chip.purData (p : Nat) (fr : PurFrame) (x : TnXfer) (part : List Byte) (m : Chip) : Chip :=
  if fr.bay ≠ m.bay then (m.setFlag (F.PUR_STAT_stale_drop p)).bump R.PUR_CNT_STALE
  else
    let ok := match m.stick.fabric with
      | none => false
      | some f => f.windows.any fun w => w.src == fr.src && w.space == x.space && decide (w.lo ≤ x.dst) && decide (x.dst + x.length ≤ w.lo + w.len)
    if !ok || !(x.space == 0 || x.space == 3 || x.space == 5) then (m.setFlag (F.PUR_STAT_window_reject p)).bump (R.PUR_CNT_WINDOW p)
    else
      let y := { x with bay := fr.bay }
      if x.space = 3 then
        ((m.putBytes (cmAddr x.dst) part).signalOpt 0 (if x.tag = 0x3FF then none else some x.tag)).followData x.dst part
      else m.tnSend 0 2 y part [] []

/-- The next number expected of a flow received. -/
def Chip.expected (m : Chip) (src cls : Nat) : Nat := ((m.purlin.expect.find? fun e => e.1 == src && e.2.1 == cls).map (·.2.2)).getD 0
def Chip.setExpected (src cls v : Nat) (m : Chip) : Chip :=
  m.onPur fun s => { s with expect := (s.expect.filter fun e => !(e.1 == src && e.2.1 == cls)) ++ [(src, cls, v)] }

/-- An ACK or NAK to the source of a flow. -/
def Chip.purAnswer (fr : PurFrame) (body : PurBody) (m : Chip) : Chip :=
  m.purRoute none { body, cls := 2, epoch := m.epoch, dst := fr.src, src := m.ownId, length := 8, bay := m.bay }

/-- A routed frame for this module (R311, R313).
(Log: 95 DEDUCED.) -/
def Chip.purDeliver (p : Nat) (fr : PurFrame) (m : Chip) : Chip :=
  match fr.body with
  | .ack cls seq => m.flowAck fr.src cls seq
  | .nak cls seq => m.flowNak fr.src cls seq
  | b =>
    let e := m.expected fr.src fr.cls
    let ahead := (fr.seq + 2 ^ 32 - e) % 2 ^ 32
    let again := fr.sync && ahead == 2 ^ 32 - 1
    if (fr.sync && !again) || ahead == 0 then
      let m1 := ((m.setExpected fr.src fr.cls ((fr.seq + 1) % 2 ^ 32)).bumpIf (fr.sync) R.PUR_CNT_SYNC).purAnswer fr (.ack fr.cls fr.seq)
      if fr.cancelled then m1
      else match b with
        | .data x part => m1.purData p fr x part
        | .marks f => takeMarks f m1
        | _ => m1
    else if ahead < 2 ^ 31 then (m.bump R.PUR_CNT_GAP).purAnswer fr (.nak fr.cls e)
    else (m.bump R.PUR_CNT_DUP).purAnswer fr (.ack fr.cls ((e + 2 ^ 32 - 1) % 2 ^ 32))

/-- The checks of R317 on a routed frame, in their order, then delivery or forwarding: a relayed frame stays in the receive buffer until
it leaves (R310). A frame of the old epoch after the bay that follows a swap is stale (R319); one issued in a later bay is of the next
epoch.
(Log: 93 DEDUCED.) -/
def Chip.purRouted (p : Nat) (fr : PurFrame) (m : Chip) : Chip :=
  let old := fr.epoch != m.epoch && decide (fr.bay ≤ m.bay) && (match m.purlin.swapped with
    | some b => decide (b < m.bay)
    | none => false)
  let g := m.giveBack p fr
  if fr.hops = 0 then g.bump R.PUR_CNT_HOP
  else if m.routeOf fr.epoch fr.src ≠ p then (g.setFlag (F.PUR_STAT_src_reject p)).bump (R.PUR_CNT_SRC p)
  else if old then (g.setFlag (F.PUR_STAT_stale_drop p)).bump R.PUR_CNT_STALE
  else if m.routeOf fr.epoch fr.dst = 6 then g.purDeliver p fr
  else m.purRoute (some p) { fr with hops := fr.hops - 1 }

/-- A frame's own checks (R305, R308, R309): whether it goes on, and the module after them. A frame that fails its tag returns no credits:
its header cannot be trusted.
(Log: 93 DEDUCED.) -/
def Chip.purAdmit (p : Nat) (fr : PurFrame) (m : Chip) : Bool × Chip :=
  let s := m.purPort p
  if s.resync && !fr.afterFiller then (false, m)
  else
    let m0 := m.setPurPort p { s with resync := false, run := 0 }
    let fresh := match s.rxCtr with
      | some c => decide (c < fr.linkCtr)
      | none => true
    if !fr.tagOk || !fresh then (false, m0.tagFail p)
    else
      let gen := match s.rxSwitch with
        | some (g, c) => if c ≤ fr.linkCtr then (g, none) else (s.rxGen, s.rxSwitch)
        | none => (s.rxGen, none)
      let m1 := m0.modPurPort p fun s => { s with rxCtr := some fr.linkCtr, rxGen := gen.1, rxSwitch := gen.2 }
      if fr.reserved || fr.cls != bodyClass fr.body || decide (16384 < fr.length) then
        (false, ((m1.giveBack p fr).setFlag (F.PUR_STAT_protocol_err p)).bump (R.PUR_CNT_PROTO p))
      else (true, m1)

/-- PURLIN_FRAME (R309): a frame arrives on a port; `corrected` codewords have been corrected since the last (R335). -/
def purlinFrame (dt p corrected : Nat) (fr : PurFrame) (m0 : Chip) : Chip :=
  let m := (elapse dt m0).bumpBy (R.PUR_CNT_CORR p) corrected
  if !m.purAlive p then m
  else
    let (go, m1) := m.purAdmit p fr
    if !go || !m1.purAlive p then m1
    else match fr.body with
      | .hello h => (m1.giveBack p fr).takeHello p h
      | .link l => m1.takeLink p l
      | b =>
        if m1.purState p ≠ 3 ∨ !(m1.purPort p).helloOk then m1.giveBack p fr
        else match b with
          | .mirror id r => mirrorRecord 0 id r (m1.giveBack p fr)
          | .mirrorAck id => mirrorAck 0 id (m1.giveBack p fr)
          | _ => m1.purRouted p fr

/-- PURLIN_ACK (R311): an ACK of a flow's class and number from a device. -/
def purlinAck (dt dev cls seq : Nat) (m : Chip) : Chip := (elapse dt m).flowAck dev cls seq
/-- PURLIN_NAK (R311). -/
def purlinNak (dt dev cls seq : Nat) (m0 : Chip) : Chip :=
  let m := elapse dt m0
  if (m.flow dev cls).unacked.isEmpty then m else m.flowNak dev cls seq
/-- PURLIN_RTO (R311, R313): no ACK for rto. -/
def purlinRto (dt dev cls : Nat) (m0 : Chip) : Chip :=
  let m := elapse dt m0
  let f := m.flow dev cls
  let rto := (m.stick.fabric.map (·.rto)).getD 8
  if !f.unacked.isEmpty && decide (f.ackAt + rto * 1000 ≤ m.now) then m.flowResend dev cls else m

/-- What a transfer of port `p` to device `dev` sends, with the errors it meets.
(Log: 95 DEDUCED.) -/
def purlinWork (p dev : Nat) (c : CutEntry) (er : ReadErrs) (m0 : Chip) : Running × Chip :=
  let q := m0.dmaDesc c.descPtr
  let src (a : Nat) : Nat := if q.src = 3 then cmAddr a else bentAddr q.peer a
  let m := m0.meetErrs (.purlinDma p) c ((upTo q.rows).map fun i => (src (q.srcAddr + i * q.srcPitch), q.rowBytes)) er
  let k := m.closeOf (.purlinDma p) c
  let tag := c.signal.getD 0x3FF
  let unit := if q.dst = 0 then q.peer else 0
  ({ blankRunning with op := "PURLIN_DMA" },
   if q.dst = 5 then m.dataSend dev k 5 0 0 tag []
   else forAll (upTo q.rows) (fun i m =>
     let row := m.readMem er (src (q.srcAddr + i * q.srcPitch)) q.rowBytes
     m.dataSend dev k q.dst unit (q.dstAddr + i * q.dstPitch) (if i + 1 = q.rows then tag else 0x3FF) row) m)

/-- PURLIN_DMA (R314, R324): a command of port `p`'s DMA queue sends rows to the device it names. Rows come from capture memory, or
from the SRAM of the peer bent.
(Log: 95 DEDUCED.) -/
def purlinDma (dt p dev : Nat) (c : CutEntry) (er : ReadErrs) (m0 : Chip) : Chip :=
  let m := elapse dt m0
  let q := m.dmaDesc c.descPtr
  if q.op ≠ 4 ∨ q.kind ≠ 0 then m else startCmd 0 (.purlinDma p) c (purlinWork p dev c er) m

/-! ### Low-power idle (R320 to R322) -/

/-- LPI_ENTRY (R320): a port that has been idle for lpi_idle asks its peer, or sleeps where the peer has granted already. -/
def lpiEntry (dt p : Nat) (m0 : Chip) : Chip :=
  let m := elapse dt m0
  if !m.mayIdle p then m
  else if (m.purPort p).grant then m.purSleep p
  else m.linkSend p { lpiReq := true }

/-- The bay opens a wake window of the port (R321). -/
def Chip.wakeBay (m : Chip) (p : Nat) : Bool := m.bays.running && m.bay % (m.get (F.PUR_CFG_lpi_period p) + 1) == 0

/-- A wake that failed (R322): the port retrains; after three misses it sleeps no more. TM_WAKE_SKEW names the port (R420). -/
def Chip.guardMiss (p : Nat) (m : Chip) : Chip :=
  let n := (m.purPort p).misses + 1
  let m1 := ((m.modPurPort p fun s => { s with misses := n }).setFlag (F.PUR_STAT_guard_miss p)).bump (R.PUR_CNT_GUARD p)
  let m2 := (m1.put F.TM_WAKE_SKEW_port p).put F.TM_WAKE_SKEW_miss 1
  (if 3 ≤ n then m2.put (F.PUR_STAT_lpi_disabled p) 1 else m2).setPurState p 1

/-- The engine of a port has a planned command in this bay. -/
def Chip.purPlanned (m : Chip) (p : Nat) : Bool := !(m.fgList (.purlinDma p) m.bay).isEmpty

/-- WAKE_WINDOW (R321, R420): the peer's wake sequence arrives `skew` ns after the own boundary, the ends relock or not; `busy` says
that the peer has traffic. The port stays up when an end has traffic or a planned command, else it sleeps again. -/
def wakeWindow (dt p : Nat) (skew : Int) (relock busy : Bool) (m0 : Chip) : Chip :=
  let m := elapse dt m0
  if m.purState p ≠ 5 ∨ !m.wakeBay p then m
  else if 2000 < skew || !relock then m.guardMiss p
  else
    let m1 := ((m.put F.TM_WAKE_SKEW_port p).put F.TM_WAKE_SKEW_miss 0).put F.TM_WAKE_SKEW_skew
      (unsignedOf 25 (clampI (-(2 ^ 24)) (2 ^ 24 - 1) skew))
    let own := !(m.purPort p).txq.isEmpty || m.purPlanned p
    let m2 := m1.linkSend p { busy := own }
    if own || busy then ((m2.modPurPort p fun s => { s with upAt := m.now, lastTx := m.now }).setPurState p 3).purFlush p else m2

/-- GUARD_MISS (R322): no wake sequence of the peer within the guard time. -/
def guardMissed (dt p : Nat) (m0 : Chip) : Chip :=
  let m := elapse dt m0
  if m.purState p = 5 ∧ m.wakeBay p ∧ 2000 ≤ m.coreCycle then m.guardMiss p else m

/-- LPI_REENABLE (R332). -/
def lpiReenable (dt p : Nat) (m0 : Chip) : Chip :=
  ((elapse dt m0).put (F.PUR_STAT_lpi_disabled p) 0).modPurPort p fun s => { s with misses := 0 }

/-! ### Routing tables (R319) -/

/-- ROUTE_SWAP (R319, R337): a write of swap, for the bay in PUR_SWAP_BAY. -/
def routeSwap (dt : Nat) (m0 : Chip) : Chip :=
  let m := elapse dt m0
  let b := m.rd64 R.PUR_SWAP_BAY_LO R.PUR_SWAP_BAY_HI
  if b ≤ m.bay ∨ m.purlin.swapDue.isSome then m.setFlag F.PUR_ROUTE_STAT_swap_refused
  else ((m.onPur fun s => { s with swapDue := some b }).put F.PUR_ROUTE_CTRL_swap 1).put F.PUR_ROUTE_STAT_pending 1

/-- The routing table that holds an address is the old one in the bay after a swap (R319).
(Log: 97 DESIGN CHOICE.) -/
def Chip.tableBusy (m : Chip) (a : Nat) : Bool :=
  decide ((a - 0xFD000) / 0x1000 ≠ m.epoch) && m.purlin.swapped == some m.bay

/-- ROUTE_TABLE_WRITE (R317, R319): a word of the inactive table under a mask; the active table ignores writes, and the old table
cannot be written in the bay after a swap. -/
def routeTableWrite (dt a mask v : Nat) (m0 : Chip) : Chip :=
  let m := elapse dt m0
  let t := (a - 0xFD000) / 0x1000
  let i := (a - 0xFD000) / 4 * 4
  if t = m.epoch then m
  else if m.tableBusy a then m.setFlag F.PUR_ROUTE_STAT_table_busy
  else
    forAll (upTo 4) (fun k m =>
      let old := tabGet 7 m.purlin.routes (i + k)
      let mk := mask / 2 ^ (8 * k) % 8
      let new := ((BitVec.ofNat 3 old &&& ~~~BitVec.ofNat 3 mk) ||| (BitVec.ofNat 3 (v / 2 ^ (8 * k)) &&& BitVec.ofNat 3 mk)).toNat
      m.onPur fun s => { s with routes := tabSet 7 s.routes (i + k) new }) m

/-- The fabric at the boundary that begins bay `b` (R312, R319): frames of transfers of the ending bay are cancelled; a swap commits.
(Log: 93 DEDUCED.) -/
def Chip.purBoundary (b : Nat) (m : Chip) : Chip :=
  let void (f : PurFrame) : PurFrame := match f.body with
    | .data x _ => if f.bay = b then f else { f with cancelled := true, length := 0, body := .data x [] }
    | _ => f
  let isOld (f : PurFrame) : Bool := match f.body with
    | .data _ _ => f.bay != b
    | _ => false
  let m1 := m.onPur fun s => { s with out := s.out.map fun f =>
    { f with unacked := f.unacked.map (fun u => { u with frame := void u.frame }), waiting := f.waiting.filter fun x => !isOld x } }
  if m1.purlin.swapDue = some b then
    let m2 := ((m1.put F.PUR_ROUTE_STAT_epoch (1 - m1.epoch)).put F.PUR_ROUTE_STAT_pending 0).put F.PUR_ROUTE_CTRL_swap 0
    m2.onPur fun s => { s with swapDue := none, swapped := some b }
  else m1

/-! ### The meanings of the commands -/

/-- PURLIN_DMA (R314). -/
def execPurlinDma (dt p dev : Nat) (c : CutEntry) (er : ReadErrs) (s : State) : Answer :=
  onUnit (decide (p < Config.purlinPorts) && decide (dev < 4096)) dt (purlinDma dt p dev c er) s
/-- PURLIN_FRAME (R309). -/
def execPurlinFrame (dt p corrected : Nat) (fr : PurFrame) (s : State) : Answer :=
  onUnit (decide (p < Config.purlinPorts)) dt (purlinFrame dt p corrected fr) s
/-- PURLIN_ACK (R311). -/
def execPurlinAck (dt dev cls seq : Nat) (s : State) : Answer :=
  onUnit (decide (dev < 4096)) dt (purlinAck dt dev cls seq) s
/-- PURLIN_NAK (R311). -/
def execPurlinNak (dt dev cls seq : Nat) (s : State) : Answer :=
  onUnit (decide (dev < 4096)) dt (purlinNak dt dev cls seq) s
/-- PURLIN_RTO (R311). -/
def execPurlinRto (dt dev cls : Nat) (s : State) : Answer :=
  onUnit (decide (dev < 4096)) dt (purlinRto dt dev cls) s
/-- HELLO (R316). -/
def execHello (dt p : Nat) (h : HelloRec) (s : State) : Answer :=
  onUnit (decide (p < Config.purlinPorts)) dt (helloIn dt p h) s
/-- HELLO_SEND (R315). -/
def execHelloSend (dt p : Nat) (s : State) : Answer :=
  onUnit (decide (p < Config.purlinPorts)) dt (helloSend dt p) s
/-- LINK_FRAME (R310). -/
def execLinkFrame (dt p : Nat) (l : LinkRec) (s : State) : Answer :=
  onUnit (decide (p < Config.purlinPorts)) dt (linkFrameIn dt p l) s
/-- PURLIN_PORT_DOWN (R306). -/
def execPurlinPortDown (dt p cause : Nat) (s : State) : Answer :=
  onUnit (decide (p < Config.purlinPorts)) dt (purlinPortDown dt p cause) s
/-- PURLIN_TRAIN (R303). -/
def execPurlinTrain (dt p : Nat) (t : PurTrain) (s : State) : Answer :=
  onUnit (decide (p < Config.purlinPorts)) dt (purlinTrain dt p t) s
/-- PURLIN_AUTH_RETRY (R303). -/
def execPurlinAuthRetry (dt p : Nat) (t : PurTrain) (s : State) : Answer :=
  onUnit (decide (p < Config.purlinPorts)) dt (purlinAuthRetry dt p t) s
/-- PURLIN_REKEY (R528). -/
def execPurlinRekey (dt p : Nat) (s : State) : Answer :=
  onUnit (decide (p < Config.purlinPorts)) dt (purlinRekey dt p) s
/-- LPI_ENTRY (R320). -/
def execLpiEntry (dt p : Nat) (s : State) : Answer :=
  onUnit (decide (p < Config.purlinPorts)) dt (lpiEntry dt p) s
/-- WAKE_WINDOW (R321). -/
def execWakeWindow (dt p : Nat) (skew : Int) (relock busy : Bool) (s : State) : Answer :=
  onUnit (decide (p < Config.purlinPorts)) dt (wakeWindow dt p skew relock busy) s
/-- GUARD_MISS (R322). -/
def execGuardMiss (dt p : Nat) (s : State) : Answer :=
  onUnit (decide (p < Config.purlinPorts)) dt (guardMissed dt p) s
/-- PURLIN_RETRAIN (R332). -/
def execPurlinRetrain (dt p : Nat) (s : State) : Answer :=
  onUnit (decide (p < Config.purlinPorts)) dt (purlinRetrain dt p) s
/-- PURLIN_HOLD (R332). -/
def execPurlinHold (dt p : Nat) (hold : Bool) (s : State) : Answer :=
  onUnit (decide (p < Config.purlinPorts)) dt (purlinHold dt p hold) s
/-- LPI_REENABLE (R332). -/
def execLpiReenable (dt p : Nat) (s : State) : Answer :=
  onUnit (decide (p < Config.purlinPorts)) dt (lpiReenable dt p) s
/-- ROUTE_SWAP (R319). -/
def execRouteSwap (dt : Nat) (s : State) : Answer :=
  onUnit true dt (routeSwap dt) s
/-- UNCORRECTABLE_CODEWORD (R305). -/
def execUncorrectableCodeword (dt p : Nat) (next : Bool) (s : State) : Answer :=
  onUnit (decide (p < Config.purlinPorts)) dt (uncorrectableCodeword dt p next) s
/-- PURLIN_TRAIN_RETRY (R306). -/
def execPurlinTrainRetry (dt p : Nat) (s : State) : Answer :=
  onUnit (decide (p < Config.purlinPorts)) dt (purlinTrainRetry dt p) s

end Sys2Proof.Machine
end

