-- ==== Sys2Proof/Machine/Window.lean ====
section
/-!
DEFINITION. Sys2Proof/Machine/Window.lean: the window operators of the bents (R183 to R192) and the spectral engine (R193 to R196).
-/
namespace Sys2Proof.Machine

/-- The WINDOW descriptor (R184). -/
structure WinDesc where
  op : Nat
  sub : Nat
  padMode : Nat
  fmtA : Nat
  fmtB : Nat
  fmtOut : Nat
  epi : Nat
  flags : Nat
  maxA : Nat
  maxB : Nat
  hIn : Nat
  wIn : Nat
  cIn : Nat
  cOut : Nat
  kY : Nat
  kX : Nat
  sY : Nat
  sX : Nat
  dY : Nat
  dX : Nat
  maxOut : Nat
  shift : Nat
  groups : Nat
  top : Nat
  bottom : Nat
  left : Nat
  right : Nat
  mcMask : Nat
  addrA : Nat
  addrC : Nat
  addrB : Nat
  padValue : Nat
  addrBias : Nat
  scale : Nat
  layer : Nat
  pitchA : Nat
  pitchC : Nat
  deriving DecidableEq, Repr

def Chip.winDesc (m : Chip) (p : Nat) : WinDesc :=
  let f (o n : Nat) := m.descNum (p + o) n
  { op := f 0 1, sub := f 0x16 1 % 8, padMode := f 0x16 1 / 8 % 4, fmtA := f 1 1, fmtB := f 2 1, fmtOut := f 3 1, epi := f 4 1,
    flags := f 5 1, maxA := f 6 1, maxB := f 7 1, hIn := f 8 2, wIn := f 0xA 2, cIn := f 0xC 2, cOut := f 0xE 2, kY := f 0x10 1,
    kX := f 0x11 1, sY := f 0x12 1 / 16 + 1, sX := f 0x12 1 % 16 + 1, dY := f 0x13 1 / 16 + 1, dX := f 0x13 1 % 16 + 1,
    maxOut := f 0x14 1, shift := f 0x15 1, groups := 2 ^ f 0x17 1, top := f 0x18 1, bottom := f 0x19 1, left := f 0x1A 1,
    right := f 0x1B 1, mcMask := f 0x1C 4, addrA := f 0x20 4, addrC := f 0x24 4, addrB := f 0x28 6, padValue := f 0x2E 2, addrBias := f 0x30 4,
    scale := f 0x34 4, layer := f 0x38 4, pitchA := f 0x3C 2, pitchC := f 0x3E 2 }

/-! ### Geometry (R186, R187) -/

/-- Outputs along an axis: extent, pads, dilation, kernel, stride. -/
def outExtent (n p1 p2 d k s : Nat) : Nat := (n + p1 + p2 - d * (k - 1) - 1) / s + 1
def WinDesc.hOut (d : WinDesc) : Nat := if d.sub = 3 then d.hIn * d.sY else outExtent d.hIn d.top d.bottom d.dY d.kY d.sY
def WinDesc.wOut (d : WinDesc) : Nat := if d.sub = 3 then d.wIn * d.sX else outExtent d.wIn d.left d.right d.dX d.kX d.sX

/-- What a window reads along one axis, or at a position: a place in the map, the constant, nothing. -/
inductive Tap where
  | at (i : Nat) | const | none
  deriving DecidableEq, Repr

/-- The mapping of one axis (R187): pad mode, extent, position. -/
def tapAxis (mode n : Nat) (i : Int) : Tap :=
  if 0 ≤ i ∧ i < n then .at i.toNat
  else match mode with
    | 0 => .none
    | 1 => .const
    | 2 => .at (clampI 0 ((n : Int) - 1) i).toNat
    | _ => .at (if i < 0 then -i else 2 * ((n : Int) - 1) - i).toNat

/-- A position of the map, the constant or nothing, from its two axes. -/
inductive Pos where
  | pix (y x : Nat) | const | none
  deriving DecidableEq, Repr
def tapPos (y x : Tap) : Pos := match y, x with
  | .at y, .at x => .pix y x
  | .none, _ | _, .none => .none
  | _, _ => .const

/-- The positions that output (oy, ox) reads, by kernel line and kernel pixel. -/
def WinDesc.taps (d : WinDesc) (oy ox : Nat) : List Pos :=
  (upTo d.kY).flatMap fun ky => (upTo d.kX).map fun kx =>
    tapPos (tapAxis d.padMode d.hIn ((oy * d.sY + ky * d.dY : Nat) - (d.top : Int)))
      (tapAxis d.padMode d.wIn ((ox * d.sX + kx * d.dX : Nat) - (d.left : Int)))

/-! ### Reading the map (R183) -/

/-- Bits and block scale of channel `ch` at a position; nothing reads as 0 with scale 0. -/
def Chip.tapBits (m : Chip) (n : Nat) (d : WinDesc) (pl : CmdPlan) (p : Pos) (ch : Nat) : Nat × Nat := match p with
  | .none => (0, 0)
  | .const => (d.padValue % 2 ^ fmtBits d.fmtA, d.maxA)
  | .pix y x =>
    let i := x * d.cIn + ch
    (m.elemBits pl.errs (bentAddr n (d.addrA + y * d.pitchA * 16)) (fmtBits d.fmtA) i,
     if isMx d.fmtA then ofLeBytes (m.readMem pl.errs (bentAddr n (pl.scaleA + y * (d.wIn * ceilDivN d.cIn 32) + i / 32)) 1) else 0)

/-- The value of channel `ch` at a position, with its block scale; none where it is excluded. -/
def Chip.tapElem (m : Chip) (n : Nat) (d : WinDesc) (pl : CmdPlan) (p : Pos) (ch : Nat) : Option Elem :=
  if p = .none then Option.none
  else
    let (b, s) := m.tapBits n d pl p ch
    some (if isMx d.fmtA then scaleElem s (decElem d.fmtA b) else decElem d.fmtA b)

/-! ### CONV (R190) -/

/-- The input channels of a group, from channel `c0` of the map on, cut where a block of 32 of the map or of the group ends: MX blocks
are 32 consecutive values of ci at one (ky, kx), and each keeps its own scales. -/
def runsOf (c0 cg : Nat) : List (List Nat) :=
  (chunks 32 (upTo cg)).flatMap fun cs =>
    let (a, b) := cs.partition fun ci => (c0 + ci) / 32 == (c0 + cs.headD 0) / 32
    if b.isEmpty then [a] else [a, b]

/-- The reduction of output channel `co` at (oy, ox), over r = (ky · k_x + kx) · (c_in / G) + ci. -/
def Chip.convAcc (m : Chip) (n : Nat) (d : WinDesc) (pl : CmdPlan) (oy ox co : Nat) : Acc :=
  let cg := d.cIn / d.groups
  let g := co / max 1 (d.cOut / d.groups)
  let gb (a : Nat) := if bitN d.flags 0 then hbmAddr a else bentAddr n a
  let el (t : Pos × Nat) (ci : Nat) : Nat × Nat := if t.1 = .none then (0, 0)
    else ((m.tapBits n d pl t.1 (g * cg + ci)).1, m.elemBits pl.errs (gb d.addrB) (fmtBits d.fmtB) ((t.2 * cg + ci) * d.cOut + co))
  let block (t : Pos × Nat) (cis : List Nat) : Block :=
    let ci := cis.headD 0
    if t.1 = .none then { els := cis.map (el t) }
    else { els := cis.map (el t), xa := (m.tapBits n d pl t.1 (g * cg + ci)).2,
           xb := if isMx d.fmtA then ofLeBytes (m.readMem pl.errs (gb pl.scaleB + (t.2 * ceilDivN cg 32 + ci / 32) * d.cOut + co) 1) else 0 }
  reduce (familyOf d.fmtA) (d.maxA + d.maxB) d.fmtA d.fmtB ((d.taps oy ox).zipIdx.flatMap fun t => (runsOf (g * cg) cg).map (block t))

/-! ### Pooling (R188, R189) -/

/-- The larger of two values; −0 equals +0, any NaN gives NaN. -/
def elemMax : Elem → Elem → Elem
  | .nan, _ | _, .nan => .nan
  | .inf a, y => if a then y else .inf false
  | x, .inf b => if b then x else .inf false
  | .num p, .num q => if qLt p q then .num q else .num p

/-- The included values of a channel. -/
def Chip.included (m : Chip) (n : Nat) (d : WinDesc) (pl : CmdPlan) (oy ox ch : Nat) : List Elem :=
  (d.taps oy ox).filterMap fun p => m.tapElem n d pl p ch

/-! ### The command -/

def WinDesc.spec (d : WinDesc) : OutSpec :=
  { fam := familyOf d.fmtA, fmtOut := d.fmtOut, anchor := if familyOf d.fmtA = .mx then d.maxA + d.maxB else 254, epi := d.epi,
    infOvf := bitN d.flags 4, scale := d.scale, shift := d.shift, ceil := d.maxOut }

/-- Global address of output line `oy`. -/
def WinDesc.lineAddr (d : WinDesc) (n oy : Nat) : Nat := bentAddr n (d.addrC + oy * d.pitchC * 16)

/-- A line of outputs with its marks' indices. -/
def WinDesc.outLine (d : WinDesc) (n : Nat) (pl : CmdPlan) (oy : Nat) (w : List Nat × List Written) : OutLine :=
  { addr := d.lineAddr n oy, scaleAddr := bentAddr n (pl.scaleOut + oy * (d.wOut * ceilDivN d.cOut 32)), scales := w.1,
    elems := w.2, idx := (upTo d.wOut).flatMap fun x => (upTo d.cOut).map fun c =>
      pl.part.base + oy * pl.part.lineStep + x * pl.part.pixStep + c }

/-- Every (pixel, channel) of a line. -/
def WinDesc.cells (d : WinDesc) : List (Nat × Nat) := (upTo d.wOut).flatMap fun x => (upTo d.cOut).map fun c => (x, c)

/-- The outputs of a command whose element at (oy, ox, co) is an accumulator: partials or rounded elements. -/
def WinDesc.accRun (d : WinDesc) (n : Nat) (pl : CmdPlan) (acc : Nat → Nat → Nat → Acc) : Running :=
  if bitN d.flags 2 then
    partialRunning "WINDOW" ((upTo d.hOut).map fun oy =>
      (d.lineAddr n oy, d.cells.flatMap fun p => encPartial (familyOf d.fmtA) (acc oy p.1 p.2)))
  else
    outRunning "WINDOW" d.fmtOut d.layer pl.part.row ((upTo d.hOut).map fun oy =>
      d.outLine n pl oy (d.spec.row (d.cells.map fun p => acc oy p.1 p.2)))

/-- The work of a CONV: reduction, the input partial in place at addr_c, bias, output stage. -/
def Chip.convWork (m : Chip) (n : Nat) (c : CutEntry) (pl : CmdPlan) : Running :=
  let d := m.winDesc c.descPtr
  let fam := familyOf d.fmtA
  d.accRun n pl fun oy ox co =>
    let a := m.convAcc n d pl oy ox co
    let b := if bitN d.flags 1 then
        addAcc fam a (m.partialAt fam (bentAddr n d.addrC) d.pitchC pl.errs oy (ox * d.cOut + co)) else a
    if bitN d.flags 3 then addAcc fam b (m.biasAt n fam d.addrBias pl.errs co) else b

/-- The bytes of SRAM that the windows of a command read: every pixel that some output takes, its scales, the input partial, the
bias. -/
def WinDesc.reads (d : WinDesc) (n : Nat) (pl : CmdPlan) : Reads :=
  let cells := (upTo d.hOut).flatMap fun oy => (upTo d.wOut).map fun ox => (oy, ox)
  let taps := if d.sub = 3 then cells.map fun p => Pos.pix (p.1 / d.sY) (p.2 / d.sX) else cells.flatMap fun p => d.taps p.1 p.2
  let fam := familyOf d.fmtA
  taps.eraseDups.flatMap (fun p => match p with
    | .pix y x =>
      let b := x * d.cIn * fmtBits d.fmtA
      (bentAddr n (d.addrA + y * d.pitchA * 16) + b / 8, ceilDivN (b % 8 + d.cIn * fmtBits d.fmtA) 8) ::
        (if isMx d.fmtA then [(bentAddr n (pl.scaleA + y * (d.wIn * ceilDivN d.cIn 32) + x * d.cIn / 32), ceilDivN d.cIn 32)] else [])
    | _ => []) ++
  (if bitN d.flags 1 then rowReads (bentAddr n d.addrC) d.hOut d.pitchC (d.wOut * d.cOut * partialSize fam) else []) ++
  (if bitN d.flags 3 then [(bentAddr n d.addrBias, d.cOut * biasSize fam)] else [])

/-- The weights that a CONV reads, with their scales. -/
def WinDesc.weightReads (d : WinDesc) (n : Nat) (pl : CmdPlan) : Reads :=
  if d.sub ≠ 0 ∨ bitN d.flags 0 then []
  else
    let cg := d.cIn / d.groups
    (bentAddr n d.addrB, elemBytes d.fmtB (d.kY * d.kX * cg * d.cOut)) ::
      (if isMx d.fmtA then [(bentAddr n pl.scaleB, d.kY * d.kX * ceilDivN cg 32 * d.cOut)] else [])

/-- A pooled value with the divisor of its average; an empty window yields a free value.
(Log: 76 DESIGN CHOICE.) -/
def Chip.poolElem (m : Chip) (n : Nat) (d : WinDesc) (pl : CmdPlan) (avg : Bool) (oy ox ch : Nat) : Elem × Nat :=
  match m.included n d pl oy ox ch with
  | [] => (f32 (Config.emptyPool d.layer ((oy * d.wOut + ox) * d.cOut + ch) % 2 ^ 32), 1)
  | v :: t => if avg then (t.foldl elemAdd v, t.length + 1) else (t.foldl elemMax v, 1)

/-- A value as an accumulator of a family holds it, in its LSBs. -/
def accOf (fam : Family) (anchor : Nat) : Elem → Acc
  | .nan => if fam = .fp then { v := (canonNan fp32 : Nat) } else { nan := true }
  | .inf neg => if fam = .fp then { v := (toF32 (.inf neg) : Nat) } else { posInf := !neg, negInf := neg }
  | .num q => match fam with
    | .int => { v := qRne q }
    | .fp => { v := (toF32 (.num q) : Nat) }
    | .fp8 => { v := qRne (qMul q (qPow2 32)) }
    | .mx => { v := qRne (qMul q (qPow2 (286 - (anchor : Int)))) }

/-- The work of a pooling command: the exact value, with the input partial and the bias added, through the output stage (R166). -/
def Chip.poolWork (m : Chip) (n : Nat) (c : CutEntry) (pl : CmdPlan) (avg : Bool) : Running :=
  let d := m.winDesc c.descPtr
  let o := d.spec
  let val (oy ox ch : Nat) : Elem × Nat :=
    let (v, k) := m.poolElem n d pl avg oy ox ch
    let v1 := if bitN d.flags 1 then
        elemAdd v ((m.partialAt o.fam (bentAddr n d.addrC) d.pitchC pl.errs oy (ox * d.cOut + ch)).elem o.fam o.anchor) else v
    (if bitN d.flags 3 then elemAdd v1 ((m.biasAt n o.fam d.addrBias pl.errs ch).elem o.fam o.anchor) else v1, k)
  if bitN d.flags 2 then
    partialRunning "WINDOW" ((upTo d.hOut).map fun oy =>
      (d.lineAddr n oy, d.cells.flatMap fun p => encPartial o.fam (accOf o.fam o.anchor (val oy p.1 p.2).1)))
  else
    outRunning "WINDOW" d.fmtOut d.layer pl.part.row ((upTo d.hOut).map fun oy =>
      d.outLine n pl oy (o.round (d.cells.map fun p =>
        let (v, k) := val oy p.1 p.2
        o.epilogue ({ o with div := k, avg }.scaled v))))

/-- The work of an UPSAMPLE: the copied value converted to fmt_out.
(Log: 76 DESIGN CHOICE.) -/
def Chip.upsampleWork (m : Chip) (n : Nat) (c : CutEntry) (pl : CmdPlan) : Running :=
  let d := m.winDesc c.descPtr
  outRunning "WINDOW" d.fmtOut d.layer pl.part.row ((upTo d.hOut).map fun oy =>
    d.outLine n pl oy (d.spec.round (d.cells.map fun p =>
      ((m.tapElem n d pl (.pix (oy / d.sY) (p.1 / d.sX)) p.2).getD .nan, false))))

/-- What a WINDOW command reads. -/
def Chip.windowReads (m : Chip) (n : Nat) (c : CutEntry) (pl : CmdPlan) : Reads :=
  let d := m.winDesc c.descPtr
  d.reads n pl ++ d.weightReads n pl

/-- A WINDOW command of kind `sub`. -/
def windowCommand (dt n sub : Nat) (c : CutEntry) (pl : CmdPlan) (work : Chip → Running) (m : Chip) : Chip :=
  if (m.winDesc c.descPtr).sub ≠ sub then elapse dt m
  else
    bentCommand dt n 5 c pl.errs pl.stall (fun m => m.windowReads n c pl) work m

/-- WINDOW, sub CONV (R190). -/
def windowConv (dt n : Nat) (c : CutEntry) (pl : CmdPlan) : Chip → Chip := windowCommand dt n 0 c pl fun m => m.convWork n c pl
/-- WINDOW, sub MAXPOOL (R188). -/
def windowMaxpool (dt n : Nat) (c : CutEntry) (pl : CmdPlan) : Chip → Chip :=
  windowCommand dt n 1 c pl fun m => m.poolWork n c pl false
/-- WINDOW, sub AVGPOOL (R189). -/
def windowAvgpool (dt n : Nat) (c : CutEntry) (pl : CmdPlan) : Chip → Chip :=
  windowCommand dt n 2 c pl fun m => m.poolWork n c pl true
/-- WINDOW, sub UPSAMPLE (R186, R189). -/
def windowUpsample (dt n : Nat) (c : CutEntry) (pl : CmdPlan) : Chip → Chip :=
  windowCommand dt n 3 c pl fun m => m.upsampleWork n c pl

/-! ### The spectral engine (R193, R194) -/

/-- The spectral descriptor (R193). -/
structure SpecDesc where
  op : Nat
  fmtIn : Nat
  fmtOut : Nat
  tile : Nat
  kY : Nat
  kX : Nat
  padMode : Nat
  depthwise : Bool
  hIn : Nat
  wIn : Nat
  cIn : Nat
  cOut : Nat
  top : Nat
  bottom : Nat
  left : Nat
  right : Nat
  padValue : Nat
  src : Nat
  dst : Nat
  addrIn : Nat
  addrOut : Nat
  addrK : Nat
  scale : Nat
  layer : Nat
  pitchIn : Nat
  pitchOut : Nat
  deriving DecidableEq, Repr

def Chip.specDesc (m : Chip) (p : Nat) : SpecDesc :=
  let f (o n : Nat) := m.descNum (p + o) n
  { op := f 0 1, fmtIn := f 1 1, fmtOut := f 2 1, tile := 2 ^ f 3 1, kY := f 4 1, kX := f 5 1, padMode := f 6 1 % 4,
    depthwise := bitN (f 6 1) 2, hIn := f 8 2, wIn := f 0xA 2, cIn := f 0xC 2, cOut := f 0xE 2, top := f 0x10 1,
    bottom := f 0x11 1, left := f 0x12 1, right := f 0x13 1, padValue := f 0x14 2, src := f 0x16 1, dst := f 0x17 1,
    addrIn := f 0x18 4, addrOut := f 0x1C 4, addrK := f 0x20 8, scale := f 0x28 4, layer := f 0x2C 4, pitchIn := f 0x30 2,
    pitchOut := f 0x32 2 }

/-- The input as a window command of stride 1 and dilation 1 reads it: the padding and the geometry are R186's and R187's. -/
def SpecDesc.win (d : SpecDesc) : WinDesc :=
  { op := 5, sub := 0, padMode := d.padMode, fmtA := d.fmtIn, fmtB := 0, fmtOut := d.fmtOut, epi := 0, flags := 0, maxA := 0,
    maxB := 0, hIn := d.hIn, wIn := d.wIn, cIn := d.cIn, cOut := d.cOut, kY := d.kY, kX := d.kX, sY := 1, sX := 1, dY := 1,
    dX := 1, maxOut := 0, shift := 0, groups := 1, top := d.top, bottom := d.bottom, left := d.left, right := d.right, mcMask := 0,
    addrA := d.addrIn, addrC := d.addrOut, addrB := d.addrK, padValue := d.padValue, addrBias := 0, scale := d.scale,
    layer := d.layer, pitchA := d.pitchIn, pitchC := d.pitchOut }

/-- The FP32 bits of channel `ch` at line and pixel (y, x) of the input, relative to the command's first output; padded by R187. -/
def Chip.specIn (m : Chip) (d : SpecDesc) (pl : CmdPlan) (ch : Nat) (y x : Int) : Nat :=
  let w := d.win
  match m.tapElem d.src w pl (tapPos (tapAxis w.padMode w.hIn (y - w.top)) (tapAxis w.padMode w.wIn (x - w.left))) ch with
  | some e => toF32 e
  | none => 0

/-- Word `i` of the spectrum of kernel `k`: real and imaginary parts, T × (T/2 + 1). -/
def Chip.specWord (m : Chip) (d : SpecDesc) (pl : CmdPlan) (k i : Nat) : Nat :=
  m.elemBits pl.errs (hbmAddr d.addrK) 32 (k * (2 * d.tile * (d.tile / 2 + 1)) + i)

/-- The rational number of finite FP32 bits. -/
def f32Q (x : Nat) : Option Q := match f32 x with
  | .num q => some q
  | _ => none

/-- Weight (u, v) of the kernel whose spectrum `word` reads: the inverse transform of the half spectrum, where columns 0 and T/2 stand
alone and the others with their mirror. -/
def kernelTap (t : Nat) (word : Nat → Nat) (u v : Nat) : Q :=
  let sum := (upTo t).foldl (fun s k => (upTo (t / 2 + 1)).foldl (fun s l =>
    let (co, si) := cosTurn (k * u + l * v) t
    let re := (f32Q (word (2 * (k * (t / 2 + 1) + l)))).getD ⟨0, 1⟩
    let im := (f32Q (word (2 * (k * (t / 2 + 1) + l) + 1))).getD ⟨0, 1⟩
    let x := qSub (qMul re co) (qMul im si)
    qAdd s (if l = 0 ∨ 2 * l = t then x else qAdd x x)) s) ⟨0, 1⟩
  qDiv sum (qOfInt ((t * t : Nat) : Int))

/-- One output before its output stage (R194): the exact sum a · b over its window, off by less than the bound; by how much is fixed by
the microcode level, T, the layer and the tile's input and kernels. The tile grid stands at the layer's first output line, of which
the command's first is line `first`. An input or a spectrum that is not finite gives a free value.
(Log: 77 DESIGN CHOICE.) -/
def Chip.specElem (m : Chip) (d : SpecDesc) (pl : CmdPlan) (oy ox co : Nat) : Elem :=
  let first := if pl.part.lineStep = 0 then 0 else pl.part.base / pl.part.lineStep
  let stepY := d.tile - d.kY + 1
  let stepX := d.tile - d.kX + 1
  let y0 : Int := ((oy + first) / stepY * stepY : Nat) - (first : Int)
  let x0 : Int := (ox / stepX * stepX : Nat)
  let chans := if d.depthwise then [co] else upTo d.cIn
  let kern (ch : Nat) : Nat := if d.depthwise then co else co * d.cIn + ch
  let inp := chans.flatMap fun ch => (upTo d.tile).flatMap fun y => (upTo d.tile).map fun (x : Nat) => m.specIn d pl ch (y0 + (y : Nat)) (x0 + (x : Int))
  let spec := chans.flatMap fun ch => (upTo (2 * d.tile * (d.tile / 2 + 1))).map (m.specWord d pl (kern ch))
  let key := [d.tile, d.layer, (oy + first) % stepY, ox % stepX]
  if !(inp ++ spec).all fun x => (f32Q x).isSome then f32 (Config.spectral Config.ucodeLevel key inp spec % 2 ^ 32)
  else
    let terms := chans.flatMap fun ch => (upTo d.kY).flatMap fun u => (upTo d.kX).map fun v =>
      qMul ((f32Q (m.specIn d pl ch ((oy + (d.kY - 1 - u) : Nat) : Int) ((ox + (d.kX - 1 - v) : Nat) : Int))).getD ⟨0, 1⟩)
        (kernelTap d.tile (m.specWord d pl (kern ch)) u v)
    let bound := qMul (qMul (qPow2 (-20)) (qOfInt ((2 * Nat.log2 d.tile + 2 : Nat) : Int))) ((terms.map qAbs).foldl qAdd ⟨0, 1⟩)
    let (a, b) := Config.spectralErr Config.ucodeLevel key inp spec
    .num (qAdd (terms.foldl qAdd ⟨0, 1⟩) (qMul bound ⟨a, a.natAbs + b + 1⟩))

/-- Tiles of a command (R195). -/
def SpecDesc.tiles (d : SpecDesc) : Nat :=
  ceilDivN d.win.hOut (d.tile - d.kY + 1) * ceilDivN d.win.wOut (d.tile - d.kX + 1)

/-- Log: 77 DESIGN CHOICE. -/
def Chip.specWork (m : Chip) (c : CutEntry) (pl : CmdPlan) : Running :=
  let d := m.specDesc c.descPtr
  let w := d.win
  let o : OutSpec := { fam := .fp, fmtOut := d.fmtOut, scale := d.scale }
  { outRunning "SPECTRAL" d.fmtOut d.layer pl.part.row ((upTo w.hOut).map fun oy =>
      w.outLine d.dst pl oy (o.round (w.cells.map fun p => (o.scaled (m.specElem d pl oy p.1 p.2), false)))) with
    tiles := d.tiles }

/-- What a SPECTRAL_CONV2D computes, with the errors it meets. -/
def spectralWork (c : CutEntry) (pl : CmdPlan) (m : Chip) : Running × Chip :=
  let d := m.specDesc c.descPtr
  let m1 := m.meetErrs .spectral c (d.win.reads d.src pl) pl.errs
  (m1.specWork c pl, m1)

/-- SPECTRAL_CONV2D (R193, R194). -/
def spectralConv2d (dt : Nat) (c : CutEntry) (pl : CmdPlan) (m0 : Chip) : Chip :=
  let m := elapse dt m0
  if (m.specDesc c.descPtr).op ≠ 1 then m else startCmd 0 .spectral c (spectralWork c pl) m

/-! ### The meanings of the commands -/

/-- WINDOW_CONV (R190). -/
def execWindowConv (dt n : Nat) (c : CutEntry) (pl : CmdPlan) (s : State) : Answer :=
  onUnit (decide (n < Config.bents)) dt (windowConv dt n c pl) s
/-- WINDOW_MAXPOOL (R188). -/
def execWindowMaxpool (dt n : Nat) (c : CutEntry) (pl : CmdPlan) (s : State) : Answer :=
  onUnit (decide (n < Config.bents)) dt (windowMaxpool dt n c pl) s
/-- WINDOW_AVGPOOL (R189). -/
def execWindowAvgpool (dt n : Nat) (c : CutEntry) (pl : CmdPlan) (s : State) : Answer :=
  onUnit (decide (n < Config.bents)) dt (windowAvgpool dt n c pl) s
/-- WINDOW_UPSAMPLE (R186). -/
def execWindowUpsample (dt n : Nat) (c : CutEntry) (pl : CmdPlan) (s : State) : Answer :=
  onUnit (decide (n < Config.bents)) dt (windowUpsample dt n c pl) s
/-- SPECTRAL_CONV2D (R194). -/
def execSpectralConv2d (dt : Nat) (c : CutEntry) (pl : CmdPlan) (s : State) : Answer :=
  onUnit true dt (spectralConv2d dt c pl) s

end Sys2Proof.Machine
end

