-- ==== Sys2Proof/Machine/Background.lean ====
section
/-!
DEFINITION. Sys2Proof/Machine/Background.lean: background segments (R44 to R46, R50): which runs next, when it starts, when the job's
state is saved and the engine yields.
-/
namespace Sys2Proof.Machine

/-- A bent's segment: the descriptor's operation is `op`. -/
def Chip.bentSeg (m : Chip) (n op : Nat) (c : CutEntry) (er : ReadErrs) (stall : Nat) (reads : Chip → Reads) (f : Chip → Running) :
    Option (Chip → Running × Chip) :=
  if m.descNum c.descPtr 1 = op then some (bentWork n c er stall reads f) else none

/-- A window operator's segment. -/
def Chip.winSeg (m : Chip) (n sub : Nat) (c : CutEntry) (pl : CmdPlan) (f : Chip → Running) : Option (Chip → Running × Chip) :=
  if (m.winDesc c.descPtr).sub = sub then m.bentSeg n 5 c pl.errs pl.stall (fun m => m.windowReads n c pl) f else none

/-- A DMA descriptor of a copy between the halves or modules. -/
def Chip.linkCopy (m : Chip) (c : CutEntry) : Bool := (m.dmaDesc c.descPtr).op == 4 && (m.dmaDesc c.descPtr).kind == 0

/-- What a segment runs on an engine: the command its descriptor gives, none where `w` names another.
(Log: 51 DEDUCED.) -/
def Chip.segWork (m : Chip) (e : Engine) (c : CutEntry) (w : SegWork) : Option (Chip → Running × Chip) :=
  match e, w with
  | .bent n, .matmul pl => m.bentSeg n 1 c pl.errs pl.stall (fun m => m.matmulReads n c pl) fun m => m.matmulWork n c pl
  | .bent n, .combine pl => m.bentSeg n 2 c pl.errs pl.stall (fun m => m.combineReads n c) fun m => m.combineWork n c pl
  | .bent n, .vector v pl => m.bentSeg n 3 c pl.errs pl.stall (fun m => m.vectorReads n c v pl) fun m => m.vectorWork n c v pl
  | .bent n, .conv pl => m.winSeg n 0 c pl fun m => m.convWork n c pl
  | .bent n, .maxpool pl => m.winSeg n 1 c pl fun m => m.poolWork n c pl false
  | .bent n, .avgpool pl => m.winSeg n 2 c pl fun m => m.poolWork n c pl true
  | .bent n, .upsample pl => m.winSeg n 3 c pl fun m => m.upsampleWork n c pl
  | .bent n, .copy er =>
    if (m.dmaDesc c.descPtr).kind = 0 then
      m.bentSeg n 4 c er 0 (fun m => DmaDesc.reads n (m.dmaDesc c.descPtr)) fun m => m.copyWork n c er
    else none
  | .bent n, .clear =>
    if (m.dmaDesc c.descPtr).kind = 1 then m.bentSeg n 4 c {} 0 (fun _ => []) fun m => m.clearWork n c else none
  | .spectral, .spectral pl => if (m.specDesc c.descPtr).op = 1 then some (spectralWork c pl) else none
  | .attention, .attend pl => if (m.attDesc c.descPtr).op = 1 then some (attendWork c pl) else none
  | .attention, .append er => if (m.attDesc c.descPtr).op = 2 then some (appendWork c er) else none
  | .postproc, .detect strip er =>
    match m.fire.closed.find? fun x => x.row == (m.detDesc c.descPtr).row && x.strip == strip with
    | some cs => if (m.detDesc c.descPtr).op = 1 then some (detectWork c cs er) else none
    | none => none
  | .stud n, .screen row strip cells layer er => some (screenWork n c row strip cells layer er)
  | .cmDma, .cmDma er => if (m.dmaDesc c.descPtr).op = 4 then some (cmDmaWork c er) else none
  | .tenonS2R, .tenon er => if m.linkCopy c then some (tenonWork 0 c er none) else none
  | .tenonR2S, .tenon er => if m.linkCopy c then some (tenonWork 1 c er none) else none
  | .purlinDma p, .purlin dev er => if m.linkCopy c then some (purlinWork p dev c er) else none
  | _, _ => none

/-- The enabled jobs with segments on an engine, in the order of its background list, from the job whose turn it is; a disabled job
that has not reached its next marked point yet still runs up to it (R50). -/
def Chip.bgJobs (m : Chip) (e : Engine) : List Nat :=
  let s := m.eng e
  let goesOn (j : Nat) : Bool := (m.jobRun j).applied || decide (markBefore (m.bgSegs e j) (tabGet 0 s.bgAt j) ≠ tabGet 0 s.bgAt j)
  let l := (((m.bgCutLists.filter fun x => x.1 == e).flatMap fun x => x.2.map (·.job)).eraseDups).filter goesOn
  l.dropWhile (fun j => j != s.bgTurn) ++ l.takeWhile (fun j => j != s.bgTurn)

/-- Start a segment on an engine; one that reads an uncorrectable granule is rolled back (R246).
(Log: 50 DEDUCED.) -/
def Chip.startSeg (e : Engine) (j limit : Nat) (c : CutEntry) (w : SegWork) (m : Chip) : Chip :=
  match m.segWork e c w with
  | none => m
  | some f =>
    let (r, m1) := f (m.setEng e { m.eng e with hit := false })
    let s := m1.eng e
    let m2 := m1.setEng e { s with bgTurn := j, bg := some { r with entry := c, closeBay := (m.jobRun j).step, startedAt := m.now, limit } }
    if s.hit then m2.rollBack e else m2.showEng e

/-- Save a job's state at the current marked point, if it is not saved already, and yield to the next job (R44).
(Log: 50 DEDUCED.) -/
def Chip.yieldBg (e : Engine) (j next : Nat) (m : Chip) : Chip :=
  let s := m.eng e
  let k := markBefore (m.bgSegs e j) (tabGet 0 s.bgAt j)
  let m1 := m.setEng e { s with bgAt := tabSet 0 s.bgAt j k, bgTurn := next }
  if k = tabGet 0 s.bgSaved j then m1 else m1.saveLive e j k

/-- BACKGROUND_SEGMENT (R44, R45): the next segment of the job whose turn it is starts when it ends, with the job's save time, before
the background time does; otherwise the job's state is saved and the engine yields. `w` is what the segment's command meets.
(Log: 51 DEDUCED.) -/
def backgroundSegment (dt : Nat) (e : Engine) (w : SegWork) (m0 : Chip) : Chip :=
  let m := elapse dt m0
  match m.bgEnd e, m.bgJobs e with
  | some limit, j :: rest =>
    if (m.eng e).bg.isSome then m
    else match (m.bgSegs e j)[tabGet 0 (m.eng e).bgAt j]? with
      | none => m
      | some c =>
        let save := ((m.jobRec j).map (·.saveCycles)).getD 0
        if m.coreCycle + c.plannedEnd + save ≤ limit then m.startSeg e j limit c w else m.yieldBg e j (rest.headD j)
  | _, _ => m

/-! ### The meanings of the commands -/

/-- BACKGROUND_SEGMENT (R44). -/
def execBackgroundSegment (dt : Nat) (e : Engine) (w : SegWork) (s : State) : Answer :=
  onUnit (engExists e) dt (backgroundSegment dt e w) s

end Sys2Proof.Machine
end

