-- ==== Sys2Proof/Machine/LoadChecks.lean ====
section
/-!
DEFINITION. Sys2Proof/Machine/LoadChecks.lean: the load checks of a story stick's content, code 0x0D (R157, R520, R609). They are functions of
the module as it stands once the stick's records are applied; a stick that fails one leaves the module as it was.
-/
namespace Sys2Proof.Machine

/-- Members of a list pairwise in a relation. -/
def pairsAll {α : Type} (f : α → α → Bool) : List α → Bool
  | [] => true
  | a :: t => t.all (f a) && pairsAll f t

/-- Two byte ranges share no byte. -/
def apart (a la b lb : Nat) : Bool := decide (a + la ≤ b) || decide (b + lb ≤ a)

/-- A field lies in its range. -/
def within (lo hi x : Nat) : Bool := decide (lo ≤ x) && decide (x ≤ hi)

/-! ### Jobs and cut lists (R29, R30, R47, R518) -/

/-- What a job depends on, directly or through others, `n` steps deep. -/
def depsOf (deps : List (Nat × Nat)) : Nat → List Nat → List Nat
  | 0, l => l
  | n + 1, l => depsOf deps n ((l ++ (deps.filter fun d => l.contains d.1).map (·.2)).eraseDups)

/-- The job table (R518): ascending numbers, one screening job at most, dependencies among its jobs and without a cycle. -/
def jobTableOk (s : Stick) : Bool :=
  let nums := s.jobs.map (·.job)
  within 1 128 nums.length && pairsAll (fun a b => decide (a < b)) nums && nums.all (fun j => decide (j < 128)) &&
  s.jobs.all (fun j => within 1 2 j.cls && j.rows.all fun r => decide (r < 16)) &&
  decide ((s.jobs.filter (·.screening)).length ≤ 1) &&
  decide (s.deps.length ≤ 1024) && s.deps.all (fun d => nums.contains d.1 && nums.contains d.2) &&
  nums.all (fun j => !(depsOf s.deps nums.length ((s.deps.filter fun d => d.1 == j).map (·.2))).contains j)

/-- The entries an engine may have in a bay, and over the cycle (R29). -/
def entryLimits : Engine → Nat × Nat
  | .bent _ => (4096, 16384)
  | .stud _ => (1024, 4096)
  | .spectral => (1024, 4096)
  | .purlinDma _ => (1024, 4096)
  | .cmDma => (1024, 4096)
  | _ => (2048, 8192)

/-- A cut-list entry (R30, R31): its job is in the table, its start within the planned bay, its descriptor in the segment. -/
def Chip.entryOk (m : Chip) (c : CutEntry) : Bool :=
  (m.jobRec c.job).isSome && (c.kind == .segment || decide (c.startCycle ≤ m.planned)) && decide (c.descPtr < m.stick.descLen)

/-- R15: a stage's foreground commands stand in its bays: the studs and the crossing to the Ridge one bay after the close bay, the full
model in the bays k + 2 to k + D − 1 (k + 1 at depth 2), the verdict records D bays after it. -/
def Chip.stageOk (m : Chip) (e : Engine) (c : CutEntry) : Bool :=
  c.kind != .foreground || match e with
    | .stud _ | .tenonS2R => c.stageOffset == 1
    | .bent _ | .attention | .spectral | .postproc =>
      if m.depth = 2 then c.stageOffset == 1 else within 2 (m.depth - 1) c.stageOffset
    | .tenonR2S => !m.toRecordBuffer c.descPtr || c.stageOffset == m.depth % 16
    | _ => true

/-- The bay configuration (R5, R53, R54): one of the five periods, a depth of 2 to 16, a retry reserve of 5 to 200 µs. -/
def Chip.bayCfgOk (m : Chip) : Bool :=
  decide (m.get F.RC_BAY_CFG_period ≤ 4) && within 2 16 m.depth && within 5 200 (m.get F.RC_BAY_RESERVE_retry_us)

/-- The cut list (R29, R30): every entry reads, within the limits, one list for each engine and bay of the cycle. -/
def Chip.cutOk (m : Chip) : Bool :=
  m.stick.lists.all (fun l => l.2.2.all fun q => (decodeCut q).isSome) &&
  m.stick.bgLists.all (fun l => l.2.all fun q => (decodeCut q).isSome) &&
  m.cutLists.all (fun l => engExists l.1 && decide (l.2.1 ≤ m.get F.RC_BAY_CFG_cycle_len) && l.2.2.all m.entryOk &&
    l.2.2.all (m.stageOk l.1) && decide (l.2.2.length ≤ (entryLimits l.1).1)) &&
  allEngines.all (fun e => decide (((m.cutLists.filter fun l => l.1 == e).foldl (fun n l => n + l.2.2.length) 0) ≤ (entryLimits e).2)) &&
  pairsAll (fun a b => !(a.1 == b.1 && a.2.1 == b.2.1)) m.cutLists &&
  m.bgCutLists.all (fun l => engExists l.1 && l.2.all m.entryOk)

/-- R47: each background segment fits, with its save time, into some static window of its engine. -/
def Chip.segmentsFit (m : Chip) : Bool :=
  m.bgCutLists.all fun l =>
    let wins := (m.cutLists.filter fun x => x.1 == l.1).flatMap fun x => x.2.2.filter fun c => c.kind == .window
    l.2.all fun c => wins.any fun w =>
      decide (c.plannedEnd + ((m.jobRec c.job).map (·.saveCycles)).getD 0 ≤ w.plannedEnd - w.startCycle)

/-! ### Cameras and rows (R21, R33, R64, R65, R78, R103, R105, R112, R122) -/

/-- Bytes of a sample on the wire. -/
def payloadBytes (c : CameraRec) : Nat := c.width * c.planes * sampleBytes c.bits

/-- The payload of a link, in MB/s, by its rate code (R65). -/
def ratePayload : Nat → Nat
  | 1 => 119 | 2 => 238 | 3 => 297 | 4 => 475 | 5 => 594 | 6 => 950 | 7 => 1190 | _ => 0

/-- A camera record (R64, R65, R517). `vMax` is in tenths of counts/s. -/
def Chip.cameraOk (m : Chip) (c : CameraRec) : Bool :=
  let r := m.rowRec c.row
  decide (c.master + c.links ≤ Config.links) && [1, 2, 4].contains c.links && decide (c.master / 8 = (c.master + c.links - 1) / 8) &&
  decide (c.master % c.links = 0) && within 1 16384 c.width && decide (c.width % (16 * c.links) = 0) && within 1 4 c.planes &&
  [8, 10, 12, 16].contains c.bits && decide (c.row < 8) && decide (c.position < 16) && decide (c.encPort < 8) && within 1 255 c.hbMs &&
  within 1 1023 c.divider && decide (c.phase < c.divider) && within 20 20000 c.lineTimeout && within 1 120 c.discS &&
  decide (c.regs.length ≤ 1024) && within 1 7 c.rate &&
  decide (payloadBytes c * r.vMax ≤ 10 * c.divider * c.links * ratePayload c.rate * 1000000)

/-- Links belong to one camera. -/
def linksApart (s : Stick) : Bool := pairsAll (fun a b => apart a.master a.links b.master b.links) s.cameras

/-- The largest lead of a row, plus one line when a fraction is not zero (R103). -/
def Chip.rowLead (m : Chip) (r : Nat) : Nat := (m.rowGangs r).foldl (fun a g => max a (leadSpan (m.calOf g))) 0

/-- The longest line timeout of a row's cameras, in µs (R33, R78). -/
def Chip.rowTimeout (m : Chip) (r : Nat) : Nat :=
  ((m.stick.cameras.filter fun c => c.row == r).map (·.lineTimeout)).foldl max 0

/-- n_need of R21 with the term of R78, in counts; v_max in tenths of counts/s, times in ns. -/
def Chip.countsNeeded (m : Chip) (r : Nat) : Nat :=
  let x := m.rowRec r
  let c := (m.stick.cameras.find? fun c => c.row == r)
  let per := (c.map (·.divider)).getD 1
  let strip := (x.nObj + m.rowLead r + m.rowLines r - 1) * per
  let conf := ceilDivN (x.vMax * (m.depth * m.period + 20000)) 10000000000
  strip + conf + m.get (F.SCR_ROW_CFG_latest_confirm r) + ceilDivN (x.vMax * m.rowTimeout r) 10000000

/-- R21, R78, R103: the smallest offset of the row's enabled maps covers the need. -/
def Chip.offsetsOk (m : Chip) (r : Nat) : Bool := (m.rowMaps r).all fun v => decide (m.countsNeeded r ≤ v.offset)

/-- m of R33. -/
def Chip.slotsNeeded (m : Chip) (r : Nat) : Nat :=
  let x := m.rowRec r
  let c := (m.stick.cameras.find? fun c => c.row == r)
  let per := (c.map (·.divider)).getD 1
  let late := m.rowTimeout r * 1000 + 30000
  max 1 (ceilDivN ((m.period + late) * x.vMax) (10000000000 * m.rowLines r * per))

/-- The cameras of a row stand in order from left to right; adjacent ones overlap by the blend length, and by no third camera; together
they leave no gap (R105). -/
def contribOk : List (Int × Int × Int) → Bool
  | (a1, b1, bl) :: (a2, b2, bl2) :: t =>
    decide (a1 < a2) && decide (b1 < b2) && decide (a2 + bl ≤ b1 + 1) && (match t with
      | (a3, _, _) :: _ => decide (b1 < a3)
      | [] => true) && contribOk ((a2, b2, bl2) :: t)
  | _ => true

/-- R105 on a row: one setting for all its cameras, one to sixteen of them, columns 0 to W_row − 1 covered. What a replay row's gangs
contribute comes with the calibration records that a replay start names (R118). -/
def Chip.rowGeometryOk (m : Chip) (r : Nat) : Bool :=
  let gs := m.rowGangs r
  let cs := m.stick.cameras.filter fun c => c.row == r
  let l := gs.map fun g => ((m.contrib g).1, (m.contrib g).2, ((m.calOf g).blend : Int))
  let same (f : Nat → Nat) : Bool := match gs with
    | [] => true
    | g :: t => t.all fun h => f h.master == f g.master
  if gs.isEmpty then true
  else
    decide (gs.length ≤ 16) && pairsAll (fun a b => a.encPort == b.encPort && a.divider == b.divider && a.phase == b.phase &&
      a.planes == b.planes) cs &&
    same (fun n => (m.rd (R.LP_STRIP_CFG n)).toNat) && pairsAll (fun a b => decide (a.position ≠ b.position)) gs &&
    (decide (8 ≤ r) || (contribOk l && (match l with | x :: _ => decide (x.1 = 0) | [] => true))) && decide (m.rowWidth r % 8 = 0) &&
    decide (m.rowWidth r ≤ 131072) && decide (m.rowLines r % 8 = 0) && within 64 4096 (m.rowLines r) && decide (m.rowOverlap r % 8 = 0) &&
    decide (m.rowOverlap r ≤ 64)

/-- A row: its budget, its slots, its ring of strips (R21, R33, R105, R112). -/
def Chip.rowOk (m : Chip) (r : Nat) : Bool :=
  (m.rowGangs r).isEmpty ||
    (m.rowGeometryOk r && m.offsetsOk r && decide (m.slotsNeeded r ≤ (m.rowRec r).slots) &&
      decide (2 * (m.rowRec r).slots + 1 ≤ m.slotCount r))

/-- The calibration records (R122): each names a camera and passes its checks. -/
def calsOk (s : Stick) : Bool :=
  s.cals.all fun b => s.cameras.any fun c => c.master == (parseCal b).camera && calOk c.width c.planes b

/-! ### Valve maps, regions, segments (R253, R261, R360, R363) -/

/-- The valve maps (R360): within their ranges; no two enabled maps cover one valve of a port. -/
def mapsOk (s : Stick) : Bool :=
  s.maps.all (fun v => decide (v.row < 8) && decide (v.idx < 8) && decide (v.port < 8) && within 1 256 v.valves &&
    decide (v.firstValve + v.valves ≤ 256) && decide (v.col0 < 131072) && within 256 131072 v.pitch && decide (v.spread < 1024) &&
    decide (v.classFirst < 256) && decide (v.classLast < 256) && decide (v.offset < 2 ^ 24) && decide (v.openAdv < 256) &&
    decide (v.closeExt < 256) && within 1 65535 v.minLen && decide (v.shape < 16) && within 1 10000 v.maxOpen) &&
  pairsAll (fun a b => !(a.row == b.row && a.idx == b.idx) &&
    (!a.en || !b.en || a.port != b.port || apart a.firstValve a.valves b.firstValve b.valves)) s.maps

/-- The entry limits of the rows that have cameras (R363). -/
def Chip.limitsOk (m : Chip) : Bool :=
  let rows := (upTo 8).filter fun r => m.stick.cameras.any fun c => c.row == r
  rows.all (fun r => (m.rowMaps r).isEmpty || decide (1 ≤ m.get (F.FS_ROW_CFG_ent_max r))) &&
  decide ((upTo 8).foldl (fun n r => n + m.get (F.FS_ROW_CFG_ent_max r)) 0 ≤ 2048)

/-- Regions of capture memory (R261). -/
def regionsOk (s : Stick) : Bool :=
  s.regions.all (fun r => decide (r.base % 64 = 0) && decide (r.len % 64 = 0) && decide (r.base + r.len ≤ Config.cmBytes)) &&
  pairsAll (fun a b => apart a.base a.len b.base b.len) s.regions

/-- Segments (R253, R514): distinct numbers, those of HBM inside it and apart; jobs of the table. -/
def segsOk (s : Stick) : Bool :=
  let hbm := s.segs.filter fun x => decide (2 ≤ x.kind)
  s.segs.all (fun x => decide (x.seg < 256) && decide (x.kind ≤ 6)) && pairsAll (fun a b => decide (a.seg ≠ b.seg)) s.segs &&
  hbm.all (fun x => decide (x.bytes.length ≤ x.size) && decide (x.target + x.size ≤ Config.hbmBytes) &&
    s.jobs.any fun j => j.job == x.job) &&
  pairsAll (fun a b => apart a.target a.size b.target b.size) hbm

/-- R45, R518: a background job with live state has a save segment of its own that holds it. -/
def savesOk (s : Stick) : Bool :=
  s.jobs.all fun j => j.saveBytes == 0 || (j.cls == 2 && s.segs.any fun x =>
    x.seg == j.saveSeg && x.kind == 5 && x.job == j.job && decide (j.saveBytes ≤ x.size))

/-- A byte range of HBM lies in one segment of a kind that `ok` admits, of a job. -/
def Chip.inSeg (m : Chip) (ok : Nat → Bool) (job a n : Nat) : Bool :=
  m.stick.segs.any fun x => ok x.kind && x.job == job && decide (x.target ≤ a) && decide (a + n ≤ x.target + x.size)
/-- A byte range of SRAM lies below its end (R157). -/
def inSram (a n : Nat) : Bool := decide (a + n ≤ Config.bentSram)

/-! ### Descriptors of the bents (R157, R159, R162, R176, R185, R192, R250) -/

/-- Reserved bytes of a descriptor are 0 (R157). -/
def Chip.zeros (m : Chip) (p o n : Nat) : Bool := decide (m.descNum (p + o) n = 0)

/-- The formats admitted as operands A and B, and as output (R158). -/
def fmtA_ok (f : Nat) : Bool := decide (f ≤ 0x0A) || f == 0x10 || f == 0x11
def fmtB_ok (f : Nat) : Bool := fmtA_ok f && f != 1
def fmtOut_ok (f : Nat) : Bool := fmtB_ok f || f == 0x12 || f == 0x13
/-- The pairs of R159. -/
def pairOk (a b : Nat) : Bool :=
  (([0, 1].contains a && [0, 2].contains b) || (a == 2 && [0, 2].contains b)) || ([3, 4].contains a && [3, 4].contains b) ||
  (isMx a && isMx b) || (a == 0x10 && b == 0x10) || (a == 0x11 && b == 0x11)
/-- The format of a partial (R158, R168): P64, P88, or FP32 for the floating pairs. -/
def partialFmt : Family → Nat
  | .int => 0x20 | .fp => 0x12 | _ => 0x21
/-- The output format of a command: that of its family's partial where it writes one. -/
def outFmtOk (part : Bool) (fam : Family) (f : Nat) : Bool := if part then f == partialFmt fam else fmtOut_ok f

/-- What a row of the output takes: whole partials, or elements of the output format. -/
def outRowBytes (part : Bool) (fam : Family) (fmtOut n : Nat) : Nat := if part then n * partialSize fam else elemBytes fmtOut n
/-- Rows of a pitch: the bytes from the first to the end of the last. -/
def spanOf (rows pitch row : Nat) : Nat := (rows - 1) * pitch * 16 + row
/-- A range of the SRAM, or of one of the job's segments in HBM. -/
def Chip.operandOk (m : Chip) (hbm : Bool) (job a n : Nat) : Bool := if hbm then m.inSeg (fun k => decide (2 ≤ k)) job a n else inSram a n

/-- The output stage's part of a descriptor: formats, epilogue, reserved bits, the regions of the output, the partial and the bias. -/
def BentDesc.outOk (d : BentDesc) (fam : Family) : Bool :=
  let row := outRowBytes d.outPartial fam d.fmtOut d.cols
  outFmtOk d.outPartial fam d.fmtOut && decide (d.epi ≤ 5) && decide (d.flags < 32) && within 1 1048576 d.rows && within 1 65536 d.cols &&
  decide (d.shift < 64) && inSram d.addrC (spanOf d.rows d.pitchC row) && (!d.bias || inSram d.addrBias (biasSize fam * d.cols)) &&
  (!d.accIn || inSram d.addrP (spanOf d.rows d.pitchC (d.cols * partialSize fam)))

/-- A MATMUL descriptor. -/
def Chip.matmulOk (m : Chip) (c : CutEntry) (d : BentDesc) : Bool :=
  fmtA_ok d.fmtA && fmtB_ok d.fmtB && pairOk d.fmtA d.fmtB && d.outOk (familyOf d.fmtA) && within 1 8388608 d.k && m.zeros c.descPtr 0x16 2 &&
  inSram d.addrA (spanOf d.rows d.pitchA (elemBytes d.fmtA d.k)) && m.operandOk d.bHbm c.job d.addrB (elemBytes d.fmtB (d.k * d.cols))

/-- A COMBINE descriptor (R168): both operands are partials of one format. -/
def Chip.combineOk (m : Chip) (c : CutEntry) (d : BentDesc) : Bool :=
  let n := spanOf d.rows d.pitchA (d.cols * partialSize d.combineFam)
  [0x20, 0x21].contains d.fmtA && (d.fmtB == d.fmtA || d.fmtB == 0) && d.outOk d.combineFam && m.zeros c.descPtr 0x16 2 &&
  inSram d.addrA n && m.operandOk d.bHbm c.job d.addrB n

/-- The formats of the vector unit (R171): those of the array, U8, FP32 and INT32. -/
def vecFmtOk (f : Nat) : Bool := fmtOut_ok f || f == 1

/-- A VECTOR descriptor (R171): rows of n columns. How far the second and third operand reach is the function's, which the descriptor does
not name. -/
def Chip.vectorOk (m : Chip) (c : CutEntry) (d : BentDesc) : Bool :=
  vecFmtOk d.fmtA && vecFmtOk d.fmtB && vecFmtOk d.fmtOut && decide (d.flags < 32) && within 1 1048576 d.rows && within 1 65536 d.cols &&
  m.zeros c.descPtr 0x16 2 && inSram d.addrA (spanOf d.rows d.pitchA (elemBytes d.fmtA d.cols)) &&
  inSram d.addrC (spanOf d.rows d.pitchC (elemBytes d.fmtOut d.cols)) && m.operandOk d.bHbm c.job d.addrB 1 && inSram d.addrP 1

/-- A WINDOW descriptor (R157, R184, R185). -/
def Chip.windowOk (m : Chip) (c : CutEntry) (d : WinDesc) : Bool :=
  let conv := d.sub == 0
  let fam := familyOf d.fmtA
  let part := bitN d.flags 2
  let w := d.kY * d.kX * (d.cIn / max 1 d.groups) * d.cOut
  let out := inSram d.addrC (spanOf d.hOut d.pitchC (outRowBytes part fam d.fmtOut (d.wOut * d.cOut)))
  decide (d.sub ≤ 3) && decide (m.descNum (c.descPtr + 0x16) 1 < 32) && fmtA_ok d.fmtA &&
  (if conv then fmtB_ok d.fmtB && pairOk d.fmtA d.fmtB else decide (d.fmtB = 0)) &&
  outFmtOk part fam d.fmtOut && decide (d.epi ≤ 5) && decide (d.flags < 32) && within 1 8192 d.hIn && within 1 65535 d.wIn &&
  within 1 16384 d.cIn && within 1 16384 d.cOut && (conv || d.cIn == d.cOut) && within 1 31 d.kY && within 1 31 d.kX &&
  within 1 8 d.sY && within 1 8 d.sX && decide (d.shift < 64) && decide (d.groups ≤ 16384) && decide (d.cIn % d.groups = 0) &&
  decide (d.cOut % d.groups = 0) &&
  decide (d.dY * (d.kY - 1) + 1 ≤ d.hIn + d.top + d.bottom) && decide (d.dX * (d.kX - 1) + 1 ≤ d.wIn + d.left + d.right) &&
  decide (1 ≤ d.hOut) && decide (1 ≤ d.wOut) &&
  (d.padMode != 3 || (decide (max d.top d.bottom < d.hIn) && decide (max d.left d.right < d.wIn))) &&
  (d.sub != 3 || (d.kY == 1 && d.kX == 1 && d.top + d.bottom + d.left + d.right == 0)) &&
  ((d.sub != 1 && d.sub != 2) || d.groups == 1) &&
  inSram d.addrA (spanOf d.hIn d.pitchA (elemBytes d.fmtA (d.wIn * d.cIn))) && out &&
  (!bitN d.flags 1 || inSram d.addrC (spanOf d.hOut d.pitchC (d.wOut * d.cOut * partialSize fam))) &&
  (!bitN d.flags 3 || inSram d.addrBias (biasSize fam * d.cOut)) && (!conv || m.operandOk (bitN d.flags 0) c.job d.addrB (elemBytes d.fmtB w))

/-- Rows of a byte pitch: the bytes from the first to the end of the last. -/
def DmaDesc.span (d : DmaDesc) (pitch : Nat) : Nat := (d.rows - 1) * pitch + d.rowBytes
/-- What every descriptor of R250's layout keeps: no reserved bit or byte, its counts in their ranges, a CLEAR of whole granules. -/
def Chip.dmaShapeOk (m : Chip) (p : Nat) (d : DmaDesc) : Bool :=
  d.op == 4 && decide (d.kind ≤ 1) && decide (m.descNum (p + 2) 1 < 8) && m.zeros p 6 2 && m.zeros p 0xC 4 && m.zeros p 0x2C 20 &&
  decide (d.peer < 32) && within 1 65535 d.rows && within 1 6291456 d.rowBytes &&
  (d.kind != 1 || (decide (d.rowBytes % 16 = 0) && decide (d.dstAddr % 16 = 0)))

/-- The source and destination ranges of a bent's or the capture-memory DMA's descriptor (R250, R251): any segment of the job is read,
its work segments only are written (R253), a CLEAR and a multicast write SRAM. -/
def Chip.dmaRangesOk (m : Chip) (cm : Bool) (job : Nat) (d : DmaDesc) : Bool :=
  let range (space a n : Nat) (w : Bool) : Bool := match space with
    | 0 | 1 => inSram a n
    | 2 => m.inSeg (fun k => if w then k == 4 else decide (2 ≤ k)) job a n
    | 3 => cm && decide (a + n ≤ Config.cmBytes)
    | _ => false
  (d.kind == 1 || range d.src d.srcAddr (d.span d.srcPitch) false) &&
  (if d.multicast then inSram d.dstAddr (d.span d.dstPitch) else range d.dst d.dstAddr (d.span d.dstPitch) true) &&
  (d.kind != 1 || decide (d.dst < 2))

/-- A DMA descriptor of a bent (R250). -/
def Chip.dmaOk (m : Chip) (c : CutEntry) (d : DmaDesc) : Bool := m.dmaShapeOk c.descPtr d && m.dmaRangesOk false c.job d

/-- A bent's command: its op and its descriptor. -/
def Chip.bentCmdOk (m : Chip) (c : CutEntry) : Bool :=
  match m.descNum c.descPtr 1 with
  | 1 => m.matmulOk c (m.bentDesc c.descPtr)
  | 2 => m.combineOk c (m.bentDesc c.descPtr)
  | 3 => m.vectorOk c (m.bentDesc c.descPtr)
  | 4 => m.dmaOk c (m.dmaDesc c.descPtr)
  | 5 => m.windowOk c (m.winDesc c.descPtr)
  | _ => false

/-- The commands of an engine, over every bay of the cycle and its background list. -/
def Chip.cmdsOf (m : Chip) (e : Engine) : List CutEntry :=
  (((m.cutLists.filter fun l => l.1 == e).flatMap (·.2.2)) ++ ((m.bgCutLists.filter fun l => l.1 == e).flatMap (·.2))).filter
    fun c => c.kind == .foreground || c.kind == .segment

/-- What a multicast stream is to be equal in (R176, R192): operation, weights, format, shape, mask. -/
def Chip.streamKey (m : Chip) (c : CutEntry) : List Nat :=
  match m.descNum c.descPtr 1 with
  | 1 => let d := m.bentDesc c.descPtr
         [1, d.mcMask, d.addrB, d.fmtB, d.k, d.cols]
  | 5 => let d := m.winDesc c.descPtr
         [5, d.mcMask, d.addrB, d.fmtB, d.kY, d.kX, d.cIn, d.cOut, d.groups]
  | _ => [0, 0]
/-- The bents that a command's stream goes to. -/
def Chip.streamTo (m : Chip) (c : CutEntry) : List Nat := (upTo 32).filter (bitN ((m.streamKey c).getD 1 0))

/-- R176: every bent that a mask names holds a command of equal stream at the same point of its bay, which is its start cycle; of a
background segment, its place in the list. -/
def Chip.multicastOk (m : Chip) : Bool :=
  (m.cutLists.all fun l => match l.1 with
    | .bent _ => l.2.2.all fun c => c.kind != .foreground || (m.streamTo c).all fun k => m.cutLists.any fun x =>
        x.1 == .bent k && x.2.1 == l.2.1 && x.2.2.any fun q =>
          q.kind == .foreground && q.startCycle == c.startCycle && m.streamKey q == m.streamKey c
    | _ => true) &&
  m.bgCutLists.all fun l => match l.1 with
    | .bent _ => l.2.zipIdx.all fun (c, i) => (m.streamTo c).all fun k => m.bgCutLists.any fun x =>
        x.1 == .bent k && (x.2[i]?.map m.streamKey) == some (m.streamKey c)
    | _ => true

/-! ### Whole reductions (R162) -/

/-- A command of bent `n` at a time of its bay, for following partials from command to command. -/
structure RedStep where
  n : Nat
  at_ : Nat
  c : CutEntry
  deriving DecidableEq, Repr

/-- The bents' commands of each bay of the cycle, by start cycle, and those of the background lists, by place. -/
def Chip.redBays (m : Chip) : List (List RedStep) :=
  let steps (e : Engine) (l : List (Nat × CutEntry)) : List RedStep := match e with
    | .bent n => l.map fun x => { n, at_ := x.1, c := x.2 }
    | _ => []
  ((m.cutLists.map (·.2.1)).eraseDups.map fun b => (m.cutLists.filter fun l => l.2.1 == b).flatMap fun l =>
    steps l.1 ((l.2.2.filter fun c => c.kind == .foreground).map fun c => (c.startCycle, c))) ++
  [m.bgCutLists.flatMap fun l => steps l.1 (l.2.zipIdx.map fun x => (x.2, x.1))]

/-- The terms of the partial that stands at address `a` of bent `n` before time `t` of a bay: the longest that an earlier command of the
bay has left there, followed through input partials, COMBINE and copies. -/
def Chip.partialTerms (m : Chip) (l : List RedStep) : Nat → Nat → Nat → Nat → Nat
  | 0, _, _, _ => 0
  | fuel + 1, n, a, t =>
    let sub (n a t : Nat) : Nat := m.partialTerms l fuel n a t
    let terms (s : RedStep) : Nat :=
      let d := m.bentDesc s.c.descPtr
      let w := m.winDesc s.c.descPtr
      let q := m.dmaDesc s.c.descPtr
      match d.op with
      | 1 => if s.n = n ∧ d.outPartial ∧ d.addrC = a then d.k + (if d.accIn then sub n d.addrP s.at_ else 0) else 0
      | 2 => if s.n = n ∧ d.outPartial ∧ d.addrC = a then
          sub n d.addrA s.at_ + sub n d.addrB s.at_ + (if d.accIn then sub n d.addrP s.at_ else 0) else 0
      | 4 => if q.kind = 0 ∧ (DmaDesc.targets s.n q).any (fun f => f q.dstAddr == bentAddr n a) then
          match q.src with
          | 0 => sub s.n q.srcAddr s.at_
          | 1 => sub q.peer q.srcAddr s.at_
          | _ => 0
        else 0
      | 5 => if s.n = n ∧ bitN w.flags 2 ∧ w.addrC = a then
          w.cIn / max 1 w.groups * w.kY * w.kX + (if bitN w.flags 1 then sub n a s.at_ else 0) else 0
      | _ => 0
    ((l.filter fun s => decide (s.at_ < t)).map terms).foldl max 0

/-- The terms of the whole reduction that a command ends or continues. -/
def Chip.redTerms (m : Chip) (l : List RedStep) (s : RedStep) : Nat :=
  let before (a : Nat) : Nat := m.partialTerms l l.length s.n a s.at_
  let d := m.bentDesc s.c.descPtr
  let w := m.winDesc s.c.descPtr
  match d.op with
  | 1 => d.k + (if d.accIn then before d.addrP else 0)
  | 2 => before d.addrA + before d.addrB + (if d.accIn then before d.addrP else 0)
  | 5 => if w.sub = 3 then 0 else w.cIn / max 1 w.groups * w.kY * w.kX + (if bitN w.flags 1 then before w.addrC else 0)
  | _ => 0

/-- R162: no reduction of a pair of 8 bits and below is longer than 2²³ terms, counted over its partials. -/
def Chip.reductionsOk (m : Chip) : Bool :=
  m.redBays.all fun l => l.all fun s =>
    let d := m.bentDesc s.c.descPtr
    decide (d.op ≠ 2 ∧ familyOf d.fmtA = .fp) || decide (m.redTerms l s ≤ 8388608)

/-! ### The other engines (R193, R197, R198, R205, R210, R217, R218, R220, R223, R226, R228, R251, R282, R314) -/

/-- A spectral descriptor (R193). -/
def Chip.spectralOk (m : Chip) (c : CutEntry) (d : SpecDesc) : Bool :=
  let w := d.win
  d.op == 1 && [0, 1, 0x10, 0x11, 0x12].contains d.fmtIn && [0, 0x10, 0x11, 0x12].contains d.fmtOut && within 32 256 d.tile &&
  within 1 (d.tile / 2 + 1) d.kY && within 1 (d.tile / 2 + 1) d.kX && (!d.depthwise || d.cIn == d.cOut) && within 1 8192 d.hIn &&
  within 1 65535 d.wIn && within 1 16384 d.cIn && within 1 16384 d.cOut && decide (d.src < 32) && decide (d.dst < 32) &&
  decide (d.kY ≤ d.hIn + d.top + d.bottom) && decide (d.kX ≤ d.wIn + d.left + d.right) &&
  decide (m.descNum (c.descPtr + 6) 1 < 8) && m.zeros c.descPtr 7 1 && m.zeros c.descPtr 0x34 12 &&
  (d.padMode != 3 || (decide (max d.top d.bottom < d.hIn) && decide (max d.left d.right < d.wIn))) &&
  inSram d.addrIn (spanOf d.hIn d.pitchIn (elemBytes d.fmtIn (d.wIn * d.cIn))) &&
  inSram d.addrOut (spanOf w.hOut d.pitchOut (elemBytes d.fmtOut (w.wOut * d.cOut))) &&
  m.inSeg (fun k => decide (2 ≤ k)) c.job d.addrK (8 * d.tile * (d.tile / 2 + 1) * (if d.depthwise then d.cIn else d.cIn * d.cOut))

/-- A DETECT descriptor with its tables (R197, R198, R205). -/
def Chip.detectOk (m : Chip) (c : CutEntry) (d : DetDesc) : Bool :=
  let n := m.stick.descLen
  d.op == 1 && m.zeros c.descPtr 0x16 42 && decide (d.row < 16) && within 1 4 d.heads && decide (d.flags < 8) && within 1 256 d.classes && decide (d.mergeTol ≤ 64) &&
  decide (d.flagLevel ≤ 3) && within 1 4096 d.candMax && within 1 512 d.objMax && decide (d.classTab + 4 * d.classes ≤ n) &&
  (upTo d.classes).all (fun c => bitsN (m.descNum (d.classTab + 4 * c) 4) 29 24 == 0) && decide (d.headTab + 32 * d.heads ≤ n) &&
  (upTo d.heads).all fun i =>
    let h := m.headEntry d i
    decide (m.descNum (d.headTab + 32 * i + 6) 1 < 2) && m.zeros (d.headTab + 32 * i) 7 1 && m.zeros (d.headTab + 32 * i) 0x1A 6 &&
    decide (h.bent < 32) && [0x12, 0x10, 0].contains h.fmt && decide (h.decode ≤ 1) && within 1 16 h.anchors &&
    (h.decode == 0 || h.anchors == 1) && within 4 256 h.grid && decide (h.src ≤ 1) && decide (h.anchorOff + 4 * h.anchors ≤ n) &&
    inSram h.addr (spanOf h.cellsY h.pitch (elemBytes h.fmt (h.cellsX * h.anchors * (4 + b2n h.hasObj + d.classes))))

/-- The formats of the attention engine (R218). -/
def attFmtOk (d : AttDesc) : Bool :=
  let kv := [0x10, 3, 4, 6].contains d.fmtKv
  if d.op = 2 then kv
  else kv && (if d.fmtKv = 3 ∨ d.fmtKv = 4 then [3, 4].contains d.fmtQ else d.fmtQ == d.fmtKv) && [0x12, 0x10, 0x11, 3, 6].contains d.fmtOut

/-- A ring or cache of a command's table agrees with the command (R217, R223, R226): a ring where the mask is a stream's, else a linear
cache; its place is in a KV segment of its job (R253). -/
def Chip.ringOk (m : Chip) (d : AttDesc) (p : Nat) (r : RingEnt) : Bool :=
  r.heads == d.headsKv && r.dim == d.dim && r.fmt == d.fmtKv && r.maxScale == d.maxKv && decide (r.base % 256 = 0) &&
  decide (r.camera < 48) && decide (r.job < 128) && decide (m.descNum (p + 0x13) 1 ≤ 1) && m.zeros p 0x17 9 &&
  (d.op == 2 || (decide (2 ≤ d.mask) != r.linear)) &&
  (if r.linear then within 1 16384 r.tokens && r.camera == 0 && m.inSeg (fun k => k == 3) r.job r.base r.slotSize
   else
    within 2 128 r.nSlot && within 1 1024 r.tokens && decide (r.ring < 64) && decide (r.stride % 256 = 0) &&
    decide (r.slotSize ≤ r.stride) && decide (d.window + 1 ≤ r.nSlot) && decide (d.window * r.tokens ≤ 16384) &&
    m.inSeg (fun k => k == 3) r.job r.base (r.nSlot * r.stride))

/-- An attention descriptor (R217, R220). The packed rows are as many as the length table says at run time: the check takes their first
row. -/
def Chip.attentionOk (m : Chip) (c : CutEntry) (d : AttDesc) : Bool :=
  let stream := decide (2 ≤ d.mask)
  let p := c.descPtr
  within 1 2 d.op && attFmtOk d && decide (d.maskBits < 8) && decide (m.descNum (p + 7) 1 ≤ 1) && m.zeros p 0x33 1 && m.zeros p 0x3C 4 &&
  within 1 64 d.headsKv && ((d.op == 2 && d.headsQ == 0) || (within 1 64 d.headsQ && decide (d.headsQ % d.headsKv = 0))) &&
  within 1 1024 d.nSeq && within 1 1024 d.qMax && within 1 16384 d.kvMax && (if stream then within 1 64 d.window else d.window == 0) &&
  decide (d.bent < 32) && (!d.rope || !stream) && inSram d.addrLen (16 * d.nSeq) && decide (d.addrTab < m.stick.descLen) &&
  (if d.op = 1 then inSram d.addrQ (rowBytes d.fmtQ d.headsQ d.dim) && inSram d.addrOut (rowBytes d.fmtOut d.headsQ d.dim) &&
      (!stream || inSram d.addrAux 1)
   else d.fmtQ == 0 && d.fmtOut == 0 && d.layer == 0 && inSram d.addrAux (2 * rowBytes d.fmtKv d.headsKv d.dim) &&
      (d.addrVoid == 0xFFFFFFFF || inSram d.addrVoid 1)) &&
  (m.ringTab d.addrTab).zipIdx.all fun x => m.ringOk d (d.addrTab + 32 * x.2) x.1

/-- The rings that a command names. -/
def Chip.ringsOf (m : Chip) (c : CutEntry) : List Nat :=
  ((m.ringTab (m.attDesc c.descPtr).addrTab).filter fun r => !r.linear).map (·.ring)

/-- R228: for one ring, the APPEND of a strip precedes every ATTEND of that or a later strip. The APPEND of close bay k, at bay position x
of a cycle of P bays, runs in bay k + its stage_offset; of the close bays up to that of the ATTEND at position y, the latest that it
serves lies `back` bays earlier. -/
def Chip.appendFirst (m : Chip) : Bool :=
  let P := m.get F.RC_BAY_CFG_cycle_len + 1
  let entries := (m.cutLists.filter fun l => l.1 == .attention).flatMap fun l =>
    (l.2.2.filter fun c => c.kind == .foreground).zipIdx.map fun x => (l.2.1, x.2, x.1)
  entries.all fun (y, j, t) => entries.all fun (x, i, a) =>
    let back := (y + 2 * P * 16 + a.stageOffset - t.stageOffset - x) % P
    !((m.attDesc t.descPtr).op == 1 && (m.attDesc a.descPtr).op == 2 && t.job == a.job &&
        (m.ringsOf a).any fun r => (m.ringsOf t).contains r) ||
      decide (a.stageOffset < t.stageOffset + back) || (a.stageOffset == t.stageOffset + back && decide (i < j))

/-- R223: a quantiser that writes the MX rows that an APPEND takes uses the ring's scale ceiling. -/
def Chip.quantisersOk (m : Chip) : Bool :=
  (m.cmdsOf .attention).all fun c =>
    let d := m.attDesc c.descPtr
    d.op != 2 || !isMx d.fmtKv || (m.cmdsOf (.bent d.bent)).all fun q =>
      let b := m.bentDesc q.descPtr
      !([1, 2, 3].contains b.op && q.job == c.job && b.fmtOut == d.fmtKv && decide (b.addrC ≤ d.addrAux) &&
          decide (d.addrAux < b.addrC + spanOf b.rows b.pitchC (elemBytes b.fmtOut b.cols))) || b.maxOut == d.maxKv

/-- The ring numbers are unique in the module, and there are at most 64; a job has at most 256 linear caches (R217, R223). -/
def Chip.ringsUnique (m : Chip) : Bool :=
  let all := ((m.cmdsOf .attention).flatMap fun c => m.ringTab (m.attDesc c.descPtr).addrTab).eraseDups
  let l := all.filter fun r => !r.linear
  pairsAll (fun a b => a.ring != b.ring) l && decide (l.length ≤ Config.rings) &&
  (upTo 128).all fun j => decide ((all.filter fun r => r.linear && r.job == j).length ≤ 256)

/-- The sealed traffic of one bay (R210). -/
def Chip.sealedBytes (m : Chip) : Nat :=
  ((m.cmdsOf .postproc).map fun c => (c.job, m.detDesc c.descPtr)).eraseDups.foldl (fun n x =>
    n + (m.rowStreams x.2.row).length * (m.rowRec x.2.row).slots * (32 + 24 * x.2.objMax)) 0

/-- A descriptor of the Tenon or Purlin queues (R250, R281, R282, R314): a copy whose source lies in the sending half, and whose
destination is a space of the other: bent SRAM, capture memory, on the way to the Sill the record buffer, or a semaphore only. A CLEAR
names no transfer. -/
def Chip.linkDmaOk (m : Chip) (e : Engine) (c : CutEntry) (d : DmaDesc) : Bool :=
  let src : List Nat := match e with
    | .tenonS2R => [3]
    | .tenonR2S => [0]
    | _ => [0, 3]
  let dst : List Nat := match e with
    | .tenonS2R => [0, 5]
    | .tenonR2S => [3, 4, 5]
    | _ => [0, 3, 5]
  let range (space a n : Nat) : Bool := match space with
    | 0 => inSram a n
    | 3 => decide (a + n ≤ Config.cmBytes)
    | _ => true
  m.dmaShapeOk c.descPtr d && d.kind == 0 && !d.multicast && src.contains d.src && dst.contains d.dst &&
  range d.src d.srcAddr (d.span d.srcPitch) && range d.dst d.dstAddr (d.span d.dstPitch)

/-- A SCREEN command's descriptor names a row of its job (R130). -/
def Chip.screenOk (m : Chip) (c : CutEntry) : Bool := match m.studRow c.descPtr with
  | some r => ((m.jobRec c.job).map fun j => j.screening && j.rows.contains r).getD false
  | none => false

/-- Every command's descriptor (R157). -/
def Chip.descriptorsOk (m : Chip) : Bool :=
  allEngines.all fun e => (m.cmdsOf e).all fun c =>
    match e with
    | .bent _ => m.bentCmdOk c
    | .stud _ => m.screenOk c
    | .attention => m.attentionOk c (m.attDesc c.descPtr)
    | .spectral => m.spectralOk c (m.specDesc c.descPtr)
    | .postproc => m.detectOk c (m.detDesc c.descPtr)
    | .cmDma => m.dmaShapeOk c.descPtr (m.dmaDesc c.descPtr) && m.dmaRangesOk true c.job (m.dmaDesc c.descPtr)
    | _ => m.linkDmaOk e c (m.dmaDesc c.descPtr)

/-! ### Witness, lock-step, adaptation, text (R439, R441, R445, R543, R556) -/

/-- The marks of one bay times ring_bays fit the ring (R439); no job has more than 1,020 marked layers (R445). -/
def Chip.witnessOk (m : Chip) : Bool :=
  m.stick.layers.all (fun t => decide (t.layers.length ≤ 1020)) &&
  decide ((m.stick.layers.foldl (fun n t => n + t.layers.length * max 1 (((m.jobRec t.job).map (·.rows.length)).getD 1)) 0) *
    m.get F.WIT_CFG_ring_bays ≤ 262144)

/-- R441: the line records of the fed rows need at most 20 GB/s. -/
def Chip.feedOk (m : Chip) : Bool := match m.stick.fabric with
  | none => true
  | some f =>
    decide ((m.stick.cameras.filter fun c => f.feed.any fun x => x.1 == c.row).foldl
      (fun n c => n + lineStride c * (m.rowRec c.row).vMax / max 1 c.divider) 0 ≤ 200000000000)

/-- The adaptable heads (R543, R547). -/
def Chip.headsOk (m : Chip) : Bool :=
  decide (m.stick.heads.length ≤ 8) && pairsAll (fun a b => a.head != b.head) m.stick.heads &&
  m.stick.heads.all fun r =>
    let kind := m.headKind r.head
    decide (r.head < 8) && within 1 2 kind && within 2 256 (m.dOut r.head) &&
    (if kind = 1 then within 16 4096 r.dIn else [64, 128].contains r.dIn && within 1 256 r.tokens) && fmtB_ok r.fmt &&
    within 1024 1048576 r.nCand && within 16 262144 r.nLab && within 1 65535 r.rate && m.stick.segs.any fun x =>
      x.seg == r.wSeg && x.kind == 2 && decide (x.size ≤ 4194304)

/-- The dictionaries (R556): distinct strings of 1 to 64 bytes, the 256 single bytes among them. -/
def textsOk (s : Stick) : Bool :=
  s.texts.all fun t =>
    decide (t.dict.length ≤ 262144) && t.dict.all (fun e => within 1 64 e.1.length) && pairsAll (fun a b => a.1 != b.1) t.dict &&
    (upTo 256).all fun (b : Nat) => t.dict.contains ([BitVec.ofNat 8 b], false)

/-- Every check of code 0x0D on content that the model names (R157, R609).
(Log: 105 DEDUCED.) -/
def Chip.contentOk (m : Chip) : Bool :=
  let s := m.stick
  m.bayCfgOk && jobTableOk s && m.cutOk && m.segmentsFit && s.cameras.all m.cameraOk && linksApart s && calsOk s && (upTo Config.rows).all m.rowOk &&
  mapsOk s && m.limitsOk && regionsOk s && segsOk s && savesOk s && m.descriptorsOk && m.multicastOk && m.reductionsOk && decide (m.sealedBytes ≤ 600000) &&
  m.appendFirst && m.quantisersOk && m.ringsUnique && m.witnessOk && m.feedOk && m.headsOk && textsOk s

end Sys2Proof.Machine
end

