-- ==== Sys2Proof/Machine/FieldRanges.lean ====
section
/-!
DEFINITION. Sys2Proof/Machine/FieldRanges.lean: the ranges that the register tables give the fields of register records (R515): what a
story stick may not put into them, and the fields it must set for a unit it uses. They are tested on the registers as the stick
leaves them, so a default of the chapter passes and a mandatory field left at 0 does not.
-/
namespace Sys2Proof.Machine

/-- A field lies in a range. -/
def Chip.ranges (m : Chip) (l : List (Fld × Nat × Nat)) : Bool := l.all fun x => within x.2.1 x.2.2 (m.get x.1)
/-- A field of two bits does not hold the reserved code 11. -/
def Chip.codes (m : Chip) (l : List Fld) : Bool := l.all fun f => m.get f != 3

/-- The screening fields of a row (R150, R151): roi_max, crop_w and crop_h have no default and are set for every row that is screened. -/
def Chip.rowFieldsOk (m : Chip) (r : Nat) : Bool :=
  m.ranges [(F.SCR_ROW_CFG_pilot_lead r, 0, 8000), (F.SCR_ROW_THR_t_obj r, 0, 127), (F.SCR_ROW_THR_t_ej r, 0, 127)] &&
  (!(m.stick.jobs.any fun j => j.screening && j.rows.contains r) ||
    m.ranges [(F.SCR_ROW_THR_roi_max r, 1, 1024), (F.SCR_ROW_CROP_crop_w r, 64, 2048), (F.SCR_ROW_CROP_crop_h r, 8, 4160)])

/-- The line pipelines of a camera (R124, R127). -/
def Chip.pipeFieldsOk (m : Chip) (c : CameraRec) : Bool :=
  (upTo c.links).all fun i =>
    let n := c.master + i
    m.codes [F.LP_CFG_gang n, F.LP_CFG_role n] && decide (m.get (F.LP_CFG_columns n) ≤ 16384) &&
      (i != 0 || m.ranges [(F.LP_STRIP_CFG_lines n, 64, 4096), (F.LP_STRIP_CFG_overlap n, 0, 64)])

/-- An encoder port (R370): bits and cpr have no default and are set for the modes and the index that use them. -/
def Chip.encFieldsOk (m : Chip) (p : Nat) : Bool :=
  let mode := m.get (F.ENC_CFG_mode p)
  mode == 0 ||
    m.ranges [(F.ENC_CFG_filt p, 0, 1280), (F.ENC_TOOTH_CFG_win_lo p, 4, 15), (F.ENC_TOOTH_CFG_win_hi p, 1, 15),
      (F.ENC_SSI_CFG_ssi_period p, 20, 1000), (F.ENC_SSI_CFG_ssi_clk p, 0, 5), (F.ENC_SSI_CFG_jump_max p, 1, 4095)] &&
    (m.get (F.ENC_CFG_probe_src p) ≤ 32 || m.get (F.ENC_CFG_probe_src p) == 63) &&
    (mode != 3 || within 12 31 (m.get (F.ENC_SSI_CFG_bits p))) &&
    (!m.flag (F.ENC_CFG_index_en p) || decide (1 ≤ m.get (F.ENC_IDX_CFG_cpr p)))

/-- A Purlin port (R331, R334). Low-power idle is refused on a port that carries mirror or lock-step traffic (R323). -/
def Chip.purFieldsOk (m : Chip) (p : Nat) : Bool :=
  !m.flag (F.PUR_CFG_enabled p) ||
    m.codes [F.PUR_CFG_role p] && m.ranges [(F.PUR_CFG_peer_port p, 0, 5), (F.PUR_FEC_CFG_fec_limit p, 1, 65535)] &&
      (!m.flag (F.PUR_CFG_lpi_en p) || m.get (F.PUR_CFG_role p) == 0)

/-- The registers of one instance. -/
def Chip.singleFieldsOk (m : Chip) : Bool :=
  m.ranges [(F.TN_CFG_req_timeout, 10, 10000), (F.TN_CFG_retry_limit, 1, 15), (F.PUR_MIRROR_CFG_mport, 0, 5),
    (F.PUR_MIRROR_CFG_mirror_rto, 1000, 2500), (F.TM_CFG_pps_width, 1, 500), (F.TM_LIMITS_holdover_max, 1, 65535),
    (F.TM_LIMITS_slew_max, 1, 100), (F.TM_LIMITS_qual_time, 1, 511), (F.TM_JUMP_step_min, 16, 1000),
    (F.TM_JUMP_jump_limit, 100, 1000000), (F.WIT_CFG_lock_port, 0, 5), (F.WIT_CFG_lag, 1, 16), (F.WIT_CFG_ring_bays, 16, 4096),
    (F.SUP_CFG_wd_period, 10, 1000), (F.SUP_CFG_grace, 1, 1000), (F.HK_THR_t_warn, 60, 110),
    (F.HK_THR_t_high, m.get F.HK_THR_t_warn + 5, 120)] &&
  m.codes [F.PUR_MIRROR_CFG_mrole, F.FS_STAT_role, F.TM_CFG_pps_src, F.WIT_CFG_lock_role] &&
  (upTo 16).all fun k => m.get ⟨R.FIO_OUT_SRC, 2 * k + 1, 2 * k⟩ != 3

/-- An adaptable head (R561). -/
def Chip.headFieldsOk (m : Chip) (h : HeadRec) : Bool :=
  m.codes [F.ADAPT_CFG_kind h.head] && m.ranges [(F.ADAPT_CFG_val_16 h.head, 0, 8), (F.ADAPT_CFG_batch h.head, 8, 1024)]

/-- A port of the network record (R519). -/
def netOk (n : NetPort) : Bool :=
  decide (n.flags < 64) && n.flags / 4 % 4 != 3 && decide (n.prefix4 ≤ 32) && decide (n.prefix6 ≤ 128)

/-- The fabric record (R311, R314, R315, R320): its ranges, and windows inside the spaces a transfer may write. -/
def fabricOk (f : FabricRec) : Bool :=
  within 2 1000 f.rto && within 10 10000 f.lpiIdle && decide (f.marksDev < 4096) &&
  f.peers.all (fun x => decide (x.1 < Config.purlinPorts)) && pairsAll (fun a b => a.1 != b.1) f.peers &&
  f.feed.all (fun x => decide (x.1 < 8)) &&
  f.windows.all fun w => decide (w.src < 4096) && (match w.space with
    | 0 => decide (w.lo + w.len ≤ Config.bentSram)
    | 3 => decide (w.lo + w.len ≤ Config.cmBytes)
    | 5 => true
    | _ => false)

/-- Every field of a register record, of the network and of the fabric record lies in its range (R515). -/
def Chip.fieldsOk (m : Chip) : Bool :=
  m.singleFieldsOk && (upTo Config.rows).all m.rowFieldsOk && m.stick.cameras.all m.pipeFieldsOk && (upTo 8).all m.encFieldsOk &&
  (upTo Config.purlinPorts).all m.purFieldsOk && (upTo Config.pegPorts).all (fun p => within 0 150 (m.get (F.PEG_TIMING_cable_ns p))) &&
  (upTo Config.bents).all (fun n => within 10 60000 (m.get (F.BENT_SRAM_CFG_scrub_limit n))) &&
  m.stick.heads.all m.headFieldsOk && m.stick.net.all netOk && decide (m.stick.tamperResp ≤ 2) &&
  (match m.stick.fabric with
    | none => true
    | some f => fabricOk f)

end Sys2Proof.Machine
end

