-- ==== Sys2Proof/Machine/Housekeeping.lean ====
section
/-!
DEFINITION. Sys2Proof/Machine/Housekeeping.lean: housekeeping (R576 to R586): thermal sensors, power, fans, the I2C buses, PMBus devices.
-/
namespace Sys2Proof.Machine

def Chip.onHk (f : HkState → HkState) (m : Chip) : Chip := { m with hk := f m.hk }

/-! ### Temperatures (R270, R576) -/

/-- The hottest of a list. -/
def hottestOf : List Int → Option Int
  | [] => none
  | a :: t => some (t.foldl max a)

/-- A sensor takes a reading; it is excluded while it reads outside its range, or has not changed for 10 s at run time.
(Log: 102 DEDUCED.) -/
def Chip.sensorRead (i : Nat) (x : Int) (m : Chip) : Chip :=
  let s := tabGet {} m.hk.sensors i
  let since := if s.seen && s.last == x then s.since else m.now
  let bad := decide (x < -40) || decide (150 < x) || (m.bays.running && decide (since + 10000000000 ≤ m.now))
  let m1 := m.onHk fun h => { h with sensors := tabSet {} h.sensors i { seen := true, last := x, since, bad } }
  let m2 := m1.put ⟨R.HK_SENS_BAD, i, i⟩ (b2n bad)
  if bad && !s.bad then (m2.setFlag F.HK_STAT_sensor_fail).raise (if i < 8 then SrcName.sillThermalHigh else SrcName.ridgeThermalHigh) else m2

/-- A thermal source: up at its threshold, down 3 °C below it. -/
def Chip.thermal (c : Src) (t thr : Int) (m : Chip) : Chip :=
  if thr ≤ t then m.assert c else if t ≤ thr - 3 then m.deassert c else m

/-- The valid readings of sensors `lo` to `lo + n − 1`. -/
def Chip.validTemps (m : Chip) (lo n : Nat) : List Int :=
  (upTo n).filterMap fun i =>
    let s := tabGet {} m.hk.sensors (lo + i)
    if s.seen && !s.bad then some s.last else none

/-- The three sources of a die (R576). -/
def Chip.dieSources (w h c : Src) (t : Int) (m : Chip) : Chip :=
  ((m.thermal w t (m.get F.HK_THR_t_warn)).thermal h t (m.get F.HK_THR_t_high)).thermal c t 115

/-! ### Fans (R578, R579) -/

def Chip.fan (m : Chip) (f : Nat) : FanState := tabGet {} m.hk.fans f
def Chip.setFan (f : Nat) (v : FanState) (m : Chip) : Chip := m.onHk fun h => { h with fans := tabSet {} h.fans f v }
def Chip.fanState (m : Chip) (f : Nat) : Nat := m.get (F.HK_FAN_state f)

/-- The curve's duty at a temperature, exact (R578).
(Log: 103 DESIGN CHOICE.) -/
def curveAt (t : Int) : List (Int × Nat) → Q
  | [] => ⟨100, 1⟩
  | [p] => ⟨p.2, 1⟩
  | a :: b :: r =>
    if t ≤ a.1 then ⟨a.2, 1⟩
    else if t < b.1 then qAdd ⟨a.2, 1⟩ ⟨((b.2 : Int) - a.2) * (t - a.1), (b.1 - a.1).toNat⟩
    else curveAt t (b :: r)

/-- The duty a running fan follows, never below 20 %. A duty between two whole per cents shows as either: a free value.
(Log: 103 DESIGN CHOICE.) -/
def Chip.curveDuty (m : Chip) : Nat × Chip :=
  let q := qMax ⟨20, 1⟩ (curveAt m.hk.hottest m.stick.fanCurve)
  let lo := (qFloor q).toNat
  if qFloor q = qCeil q then (lo, m)
  else
    let (v, m1) := m.draw
    (lo + v % 2, m1)

/-- Some fan is blocked, stopped or faulted. -/
def Chip.fanTrouble (m : Chip) : Bool := (upTo 4).any fun f => decide (3 ≤ m.fanState f)

/-- The running fans' duty: 100 % while another is in trouble and for 10 s after it has recovered, else the curve.
(Log: 103 DESIGN CHOICE.) -/
def Chip.setDuties (m : Chip) : Chip :=
  let full := m.fanTrouble || decide (m.now < m.hk.fullUntil)
  let (d, m1) := if full then (100, m) else m.curveDuty
  forAll ((upTo 4).filter fun f => m.fanState f == 2) (fun f m => m.put (F.HK_FAN_duty f) d) m1

/-- A fan starts: 100 % (R579). -/
def Chip.startFan (f : Nat) (m : Chip) : Chip :=
  ((m.setFan f { m.fan f with startAt := m.now }).put (F.HK_FAN_state f) 1).put (F.HK_FAN_duty f) 100

/-- A fan is switched off, blocked (3) or stopped (4); after its third restart it is at fault. -/
def Chip.fanOff (f st : Nat) (m : Chip) : Chip :=
  let m1 := ((m.setFan f { m.fan f with offAt := m.now }).put (F.HK_FAN_duty f) 0).put (F.HK_FAN_rpm f) 0
  if st = 3 ∧ m.get (F.HK_FAN_restarts f) = 3 then
    ((m1.put (F.HK_FAN_state f) 5).setFlag F.HK_STAT_fan_fault).raise SrcName.fan
  else m1.put (F.HK_FAN_state f) st

/-- A restart of a fan, counted.
(Log: 103 DESIGN CHOICE.) -/
def Chip.restartFan (f : Nat) (m : Chip) : Chip :=
  ((m.put (F.HK_FAN_restarts f) (min 3 (m.get (F.HK_FAN_restarts f) + 1))).bump R.HK_CNT_FAN_RESTART).startFan f

/-- FAN_TIMER (R579): a timer of fan `f` may have expired; `rpm` is its speed, none without tach pulses. -/
def fanTimer (dt f : Nat) (rpm : Option Nat) (m0 : Chip) : Chip :=
  let m := elapse dt m0
  let s := m.fan f
  let m1 :=
    match m.fanState f with
    | 1 =>
      if m.now < s.startAt + 2000000000 then m
      else match rpm with
        | some r =>
          (((m.put (F.HK_FAN_state f) 2).put (F.HK_FAN_rpm f) (min 65535 r)).put (F.HK_FAN_restarts f) 0).onHk fun h =>
            { h with fullUntil := if 0 < m.get (F.HK_FAN_restarts f) then m.now + 10000000000 else h.fullUntil }
        | none =>
          if s.startAt + 4000000000 ≤ m.now then m.fanOff f 3
          else
            let (d, m1) := m.curveDuty
            m1.put (F.HK_FAN_duty f) d
    | 2 => match rpm with
      | some r => m.put (F.HK_FAN_rpm f) (min 65535 r)
      | none => m
    | 3 => if s.offAt + 10000000000 ≤ m.now then m.restartFan f else m
    | 4 => if s.offAt + 10000000000 ≤ m.now then m.restartFan f else m
    | _ => m
  m1.setDuties

/-- FAN_TACH_LOSS (R579): 500 ms without tach while running. -/
def fanTachLoss (dt f : Nat) (m0 : Chip) : Chip :=
  let m := elapse dt m0
  if m.fanState f = 2 then ((m.fanOff f 4).raise SrcName.fan).setDuties else m

/-- FAN_RETRY (R585): a faulted fan is restarted. -/
def fanRetry (dt f : Nat) (m0 : Chip) : Chip :=
  let m := elapse dt m0
  if m.fanState f = 5 then (((m.put (F.HK_FAN_restarts f) 0).bump R.HK_CNT_FAN_RESTART).startFan f).setDuties else m

/-! ### Samples -/

/-- THERMAL_SAMPLE (R254, R270, R576, R578): the readings of the sensors of both dies in °C, and of the HBM stacks with whether each
asks for its raised refresh rate.
(Log: 102 DEDUCED, 104 DESIGN CHOICE.) -/
def thermalSample (dt : Nat) (sill ridge : List Int) (hbm : List (Int × Bool)) (m0 : Chip) : Chip :=
  let m := elapse dt m0
  let m1 := forAll (sill.take 8).zipIdx (fun p m => m.sensorRead p.2 p.1) m
  let m2 := forAll (ridge.take 16).zipIdx (fun p m => m.sensorRead (8 + p.2) p.1) m1
  let s := hottestOf (m2.validTemps 0 8)
  let r := hottestOf (m2.validTemps 8 16)
  let m3 := match s with
    | some t => (m2.put F.HK_TEMP_sill_max (unsignedOf 8 t)).dieSources SrcName.sillThermalWarning SrcName.sillThermalHigh
        SrcName.sillThermalCritical t
    | none => m2
  let m4 := match r with
    | some t => (m3.put F.HK_TEMP_ridge_max (unsignedOf 8 t)).dieSources SrcName.ridgeThermalWarning SrcName.ridgeThermalHigh
        SrcName.ridgeThermalCritical t
    | none => m3
  let m5 := match hbm with
    | [] => m4
    | a :: t =>
      let m5 := (m4.put F.HBM_TEMP_temp0 (unsignedOf 8 a.1)).put F.HBM_STAT_ref_hi0 (b2n a.2)
      match t with
      | [] => m5
      | b :: _ => (m5.put F.HBM_TEMP_temp1 (unsignedOf 8 b.1)).put F.HBM_STAT_ref_hi1 (b2n b.2)
  let hot := hottestOf (s.toList ++ r.toList ++ hbm.map (·.1))
  (m5.onHk fun h => { h with hottest := hot.getD h.hottest }).setDuties

/-- A quotient shown in a register: a remainder rounds either way, a free value.
(Log: 103 DESIGN CHOICE.) -/
def Chip.shownMean (num den : Nat) (m : Chip) : Nat × Chip :=
  if num % den = 0 then (num / den, m)
  else
    let (v, m1) := m.draw
    (num / den + v % 2, m1)

/-- POWER_SAMPLE (R577): the main input's voltage in mV and current in mA; ten samples make a 1 ms mean. -/
def powerSample (dt mv ma : Nat) (m0 : Chip) : Chip :=
  let m := elapse dt m0
  let h := m.hk
  let e := h.energy + mv * ma
  let v := h.vSum + mv
  let i := h.iSum + ma
  let p := h.pSum + mv * ma
  let m1 := m.wr64 R.HK_ENERGY_LO R.HK_ENERGY_HI (e / 10000000000 % 2 ^ 64)
  if h.samples + 1 < 10 then m1.onHk fun h => { h with vSum := v, iSum := i, pSum := p, samples := h.samples + 1, energy := e }
  else
    let m2 := m1.onHk fun h => { h with vSum := 0, iSum := 0, pSum := 0, samples := 0, energy := e }
    let (x, m3) := m2.shownMean v 100
    let (y, m4) := m3.shownMean i 100
    let (z, m5) := m4.shownMean p 1000000
    let m6 := ((m5.put F.HK_VIN_mv x).put F.HK_IIN_ma y).put F.HK_PIN_w z
    let m7 := m6.follow (decide (v < 400000) || decide (600000 < v)) SrcName.supplyOutOfRange
    if 2600000000 < p then (m7.setFlag F.HK_STAT_pwr_high).log "power" [z] else m7

/-! ### I2C and PMBus (R580 to R582) -/

def Chip.bus (m : Chip) (c : Nat) : I2cState := tabGet {} m.hk.buses c
def Chip.setBus (c : Nat) (v : I2cState) (m : Chip) : Chip := m.onHk fun h => { h with buses := tabSet {} h.buses c v }
def stuckFlag (c : Nat) : Fld := if c = 0 then F.HK_STAT_bus_stuck0 else F.HK_STAT_bus_stuck1

/-- A transaction ends. -/
def Chip.i2cEnd (c : Nat) (j : I2cJob) (ok : Bool) (m : Chip) : Chip :=
  (m.bumpIf (!ok) R.HK_CNT_I2C_ERR).emit (.send "i2c" c (if ok then "done" else "error") [j.dev, b2n j.write])

/-- Run the transactions that wait, in order, up to one that hangs. -/
def Chip.i2cRun (c : Nat) : Nat → Chip → Chip
  | 0, m => m
  | n + 1, m =>
    let b := m.bus c
    match b.queue with
    | [] => m.put (F.HK_I2C_state c) 0
    | j :: t => match j.ends with
      | some ok => Chip.i2cRun c n ((m.setBus c { b with queue := t }).i2cEnd c j ok)
      | none => (m.setBus c { b with cur := some j, since := m.now, queue := t }).put (F.HK_I2C_state c) 1

/-- A request for a transaction: it fails at once on a disabled bus, and waits behind one in progress. -/
def Chip.i2cRequest (c : Nat) (j : I2cJob) (m : Chip) : Chip :=
  let b := m.bus c
  if m.flag (F.HK_I2C_disabled c) then (m.bump R.HK_CNT_I2C_ERR).emit (.send "i2c" c "bus_stuck" [j.dev, b2n j.write])
  else
    let m1 := m.setBus c { b with queue := b.queue ++ [j] }
    if b.cur.isSome then m1 else Chip.i2cRun c (b.queue.length + 2) m1

/-- I2C_TRANSACTION (R580 to R582): firmware runs a transaction, which ends as `ends` says, or hangs. A write to a listed PMBus device is
made by a signed maintainer command only.
(Log: 104 DESIGN CHOICE.) -/
def i2cTransaction (dt c dev : Nat) (write : Bool) (ends : Option Bool) (a : Option Auth) (m0 : Chip) : Chip :=
  let m := elapse dt m0
  let j : I2cJob := { dev, write, ends }
  let pmb := write && m.stick.pmbus.any fun d => d.bus == c && d.addr == dev
  match a with
  | some a => m.signed false false a fun m => (true, m.i2cRequest c j)
  | none => if pmb then m else m.i2cRequest c j

/-- SMBUS_TIMEOUT (R580): SCL has been held low for 35 ms in a transaction, which ends with an error. -/
def smbusTimeout (dt c : Nat) (m0 : Chip) : Chip :=
  let m := elapse dt m0
  let b := m.bus c
  match b.cur with
  | none => m
  | some j =>
    if m.now < b.since + 35000000 then m
    else Chip.i2cRun c (b.queue.length + 1) ((m.setBus c { b with cur := none }).i2cEnd c j false)

/-- A recovery: `free` the attempt that frees SDA, 1 to 3, none where SDA stays low; with SCL low no pulses are sent. -/
def Chip.i2cRecover (c : Nat) (sclLow : Bool) (free : Option Nat) (m : Chip) : Chip :=
  let n := if sclLow then 0 else min 3 (free.getD 3)
  let m1 := m.bumpBy R.HK_CNT_I2C_RECOVER n
  if free.isSome && !sclLow then
    ((m1.put (F.HK_I2C_disabled c) 0).put (F.HK_I2C_state c) 0).follow
      ((upTo 2).any fun d => d != c && m.flag (F.HK_I2C_disabled d)) SrcName.i2cBusStuck
  else
    let m2 := ((m1.setFlag (stuckFlag c)).put (F.HK_I2C_disabled c) 1).put (F.HK_I2C_state c) 3
    (m2.setBus c { m2.bus c with retryAt := m2.now + 1000000000 }).assert SrcName.i2cBusStuck

/-- BUS_STUCK (R581): SDA or SCL reads low while the bus is idle. -/
def busStuck (dt c : Nat) (sclLow : Bool) (free : Option Nat) (m0 : Chip) : Chip :=
  let m := elapse dt m0
  if (m.bus c).cur.isSome || m.flag (F.HK_I2C_disabled c) then m else m.i2cRecover c sclLow free

/-- I2C_RECOVERY_RETRY (R581): a disabled bus, every 1 s. -/
def i2cRecoveryRetry (dt c : Nat) (sclLow : Bool) (free : Option Nat) (m0 : Chip) : Chip :=
  let m := elapse dt m0
  if m.flag (F.HK_I2C_disabled c) && decide ((m.bus c).retryAt ≤ m.now) then m.i2cRecover c sclLow free else m

/-- PMBUS_POLL (R582): the listed devices' read commands, in order; `values` gives each read's value, none where it fails.
(Log: 104 DESIGN CHOICE.) -/
def pmbusPoll (dt : Nat) (values : List (Option Nat)) (m0 : Chip) : Chip :=
  let m := elapse dt m0
  let reads := m.stick.pmbus.zipIdx.flatMap fun d => d.1.cmds.zipIdx.map fun k => (d.1.bus, d.2, k.2)
  forAll (reads.zipIdx.take 32) (fun r m =>
    let v := if m.flag (F.HK_I2C_disabled r.1.1) then none else (values.getD r.2 none)
    let m1 := (m.put (F.HK_PMB_dev_cmd r.2) (256 * r.1.2.1 + r.1.2.2)).put (F.HK_PMB_value r.2) (v.getD 0xFFFF % 65536)
    m1.bumpIf v.isNone R.HK_CNT_PMB_ERR) m

/-! ### The meanings of the commands -/

/-- THERMAL_SAMPLE (R576). -/
def execThermalSample (dt : Nat) (sill ridge : List Int) (hbm : List (Int × Bool)) (s : State) : Answer :=
  onUnit true dt (thermalSample dt sill ridge hbm) s
/-- POWER_SAMPLE (R577). -/
def execPowerSample (dt mv ma : Nat) (s : State) : Answer :=
  onUnit true dt (powerSample dt mv ma) s
/-- FAN_TACH_LOSS (R579). -/
def execFanTachLoss (dt f : Nat) (s : State) : Answer :=
  onUnit (decide (f < 4)) dt (fanTachLoss dt f) s
/-- FAN_TIMER (R579). -/
def execFanTimer (dt f : Nat) (rpm : Option Nat) (s : State) : Answer :=
  onUnit (decide (f < 4)) dt (fanTimer dt f rpm) s
/-- FAN_RETRY (R585). -/
def execFanRetry (dt f : Nat) (s : State) : Answer :=
  onUnit (decide (f < 4)) dt (fanRetry dt f) s
/-- I2C_TRANSACTION (R580). -/
def execI2cTransaction (dt c dev : Nat) (write : Bool) (ends : Option Bool) (a : Option Auth) (s : State) : Answer :=
  onUnit (decide (c < 2)) dt (i2cTransaction dt c dev write ends a) s
/-- SMBUS_TIMEOUT (R580). -/
def execSmbusTimeout (dt c : Nat) (s : State) : Answer :=
  onUnit (decide (c < 2)) dt (smbusTimeout dt c) s
/-- BUS_STUCK (R581). -/
def execBusStuck (dt c : Nat) (sclLow : Bool) (free : Option Nat) (s : State) : Answer :=
  onUnit (decide (c < 2)) dt (busStuck dt c sclLow free) s
/-- I2C_RECOVERY_RETRY (R581). -/
def execI2cRecoveryRetry (dt c : Nat) (sclLow : Bool) (free : Option Nat) (s : State) : Answer :=
  onUnit (decide (c < 2)) dt (i2cRecoveryRetry dt c sclLow free) s
/-- PMBUS_POLL (R582). -/
def execPmbusPoll (dt : Nat) (values : List (Option Nat)) (s : State) : Answer :=
  onUnit true dt (pmbusPoll dt values) s

end Sys2Proof.Machine
end

