-- ==== Sys2Proof/Machine/Text.lean ====
section
/-!
DEFINITION. Sys2Proof/Machine/Text.lean: text jobs: the tokenizer and detokenizer, questions, token choice, answers (R556 to R560,
R564).
-/
namespace Sys2Proof.Machine

/-! ### UTF-8 -/

/-- The length of a character by its first byte, with the range of its second (Unicode, well-formed UTF-8). -/
def utf8Head (b : Nat) : Option (Nat × Nat × Nat) :=
  if b < 0x80 then some (1, 0x80, 0xBF)
  else if b < 0xC2 then none
  else if b < 0xE0 then some (2, 0x80, 0xBF)
  else if b = 0xE0 then some (3, 0xA0, 0xBF)
  else if b = 0xED then some (3, 0x80, 0x9F)
  else if b < 0xF0 then some (3, 0x80, 0xBF)
  else if b = 0xF0 then some (4, 0x90, 0xBF)
  else if b < 0xF4 then some (4, 0x80, 0xBF)
  else if b = 0xF4 then some (4, 0x80, 0x8F)
  else none

/-- What stands at the front of bytes: a character, a maximal ill-formed subsequence, or a character that is not complete yet; with
its length. -/
inductive Utf8 where
  | good (n : Nat)
  | bad (n : Nat)
  | short
  deriving DecidableEq, Repr

/-- Bytes of the front that continue a character: `k` seen, `n` wanted. -/
def utf8Tail (n lo hi : Nat) : Nat → List Byte → Utf8
  | k, [] => if n ≤ k then .good k else .short
  | k, b :: t =>
    if n ≤ k then .good k
    else if lo ≤ b.toNat ∧ b.toNat ≤ hi then utf8Tail n 0x80 0xBF (k + 1) t
    else .bad k
def utf8Front : List Byte → Utf8
  | [] => .short
  | b :: t => match utf8Head b.toNat with
    | none => .bad 1
    | some (n, lo, hi) => utf8Tail n lo hi 1 t

/-- Bytes are valid UTF-8 (R556). -/
def utf8Valid : Nat → List Byte → Bool
  | 0, l => l.isEmpty
  | f + 1, l => l.isEmpty || match utf8Front l with
    | .good n => utf8Valid f (l.drop n)
    | _ => false

/-- U+FFFD. -/
def replacement : List Byte := [0xEF, 0xBF, 0xBD]

/-- The bytes that can be released, ending on a character boundary, and those that wait (R557). -/
def utf8Release : Nat → List Byte → List Byte × List Byte
  | 0, l => ([], l)
  | f + 1, l => match utf8Front l with
    | .good n => let r := utf8Release f (l.drop n); (l.take n ++ r.1, r.2)
    | .bad n => let r := utf8Release f (l.drop n); (replacement ++ r.1, r.2)
    | .short => ([], l)

/-! ### The tokenizer (R556) -/

/-- The longest non-special entry that is a prefix of the input: its ID and length; ties cannot arise, since the strings differ. -/
def longest (dict : List (List Byte × Bool)) (l : List Byte) : Option (Nat × Nat) :=
  dict.zipIdx.foldl (fun best p =>
    if p.1.2 || p.1.1.isEmpty || !p.1.1.isPrefixOf l then best
    else match best with
      | some b => if b.2 < p.1.1.length then some (p.2, p.1.1.length) else best
      | none => some (p.2, p.1.1.length)) none
/-- The token IDs of an input.
(Log: 88 DEDUCED.) -/
def tokenise (dict : List (List Byte × Bool)) : Nat → List Byte → List Nat
  | 0, _ => []
  | f + 1, l => if l.isEmpty then [] else match longest dict l with
    | some (id, n) => id :: tokenise dict f (l.drop n)
    | none => []

/-! ### Questions (R559) -/

def Chip.textRec (m : Chip) (j : Nat) : Option TextRec := m.stick.texts.find? fun t => t.job == j
/-- The questions of a job, in queue order. -/
def Chip.queriesOf (m : Chip) (j : Nat) : List Query := (m.text.queries.filter fun q => q.1 == j).map (·.2)
def Chip.onText (f : TextState → TextState) (m : Chip) : Chip := { m with text := f m.text }

/-- TXT_STAT follows the queue of the text job it names (R564). -/
def Chip.showText (m : Chip) : Chip :=
  let q := m.queriesOf (m.get F.TXT_STAT_job)
  let st := match q with
    | [] => 0
    | x :: _ => if x.tokens.isEmpty then 1 else 2
  (m.put F.TXT_STAT_state st).put F.TXT_STAT_queued (min 16 q.length)

/-- QUESTION (R559): an operator's question to a text job.
(Log: 88 DEDUCED.) -/
def question (dt session j : Nat) (text : List Byte) (evidence maxNew temp topK seed : Nat) (m0 : Chip) : Chip :=
  let m := (elapse dt m0).touch session
  let refuse (code : Nat) : Chip := (m.bump R.TXT_CNT_REFUSED).answer session "status" [code]
  match m.session session with
  | none => m
  | some s =>
    if s.level = 0 then m.answer session "status" [1]
    else match m.textRec j with
      | none => refuse 3
      | some r =>
        if maxNew = 0 ∨ 4096 < maxNew ∨ topK = 0 ∨ 256 < topK ∨ 8 < evidence ∨ !inRange temp ⟨0, 1⟩ ⟨2, 1⟩ then refuse 4
        else if 65536 < text.length then refuse 7
        else if !utf8Valid text.length text then refuse 8
        else if 16 ≤ (m.queriesOf j).length then refuse 2
        else
          let toks := r.before ++ tokenise r.dict text.length text ++ r.after
          if r.capacity < toks.length + evidence * r.evidence + maxNew then refuse 7
          else
            let q : Query := { id := m.text.nextId, session, prompt := toks, maxNew, temp, topK, seed := seed % 2 ^ 64,
                               evidence := evidence * r.evidence }
            ((m.onText fun t => { queries := t.queries ++ [(j, q)], nextId := t.nextId + 1 }).showText).answer session "query" [q.id]

/-! ### Answers (R557, R559, R560) -/

/-- A chunk of an answer; the last one carries the stop reason. -/
def Chip.chunk (q : Query) (bytes : List Byte) (stop : Option Nat) (m : Chip) : Chip :=
  m.answer q.session "ANSWER" ([q.id, q.chunks] ++ (match stop with | some r => [1, r] | none => [0]) ++ bytes.map (·.toNat))

/-- An answer ends: what is complete is released, an incomplete trailing sequence as one U+FFFD.
(Log: 88 DEDUCED.) -/
def Chip.endQuery (j : Nat) (q : Query) (reason : Nat) (m : Chip) : Chip :=
  let r := utf8Release q.bytes.length q.bytes
  let bytes := r.1 ++ (if r.2.isEmpty then [] else replacement)
  let m1 := (m.onText fun t => { t with queries := t.queries.filter fun x => !(x.1 == j && x.2.id == q.id) }).chunk q bytes (some reason)
  ((m1.bump R.TXT_CNT_QUERY).put F.TXT_STAT_last_stop reason).showText

/-- Every question of a job ends as aborted (R50, R560). -/
def Chip.abortText (j : Nat) (m : Chip) : Chip := forAll (m.queriesOf j) (fun q m => m.endQuery j q 4) m

/-- CANCEL (R560, R570). -/
def cancel (dt session id : Nat) (m0 : Chip) : Chip :=
  let m := (elapse dt m0).touch session
  match m.session session with
  | none => m
  | some s =>
    if s.level = 0 then m.answer session "status" [1]
    else match m.text.queries.find? fun x => x.2.id == id with
      | none => m.answer session "status" [3]
      | some x => (m.endQuery x.1 x.2 3).answer session "status" [0]

/-- One logit comes before another (R560): value descending, ID ascending. -/
def logitBefore (a b : Nat × Nat) : Bool :=
  let gt (x y : Nat) : Bool := match f32 x, f32 y with
    | .num p, .num q => qLt q p
    | .inf false, .num _ => true
    | .num _, .inf true => true
    | .inf false, .inf true => true
    | _, _ => false
  if gt a.2 b.2 then true else if gt b.2 a.2 then false else decide (a.1 ≤ b.1)

/-- The first of a list whose running sum exceeds a bound; the last where none does. -/
def pickRun (bound : Q) : Nat → List (Nat × Nat) → Nat
  | _, [] => 0
  | _, [(id, _)] => id
  | acc, (id, w) :: t =>
    let s := addF32 acc w
    match f32 s with
    | .num q => if qLt bound q then id else pickRun bound s t
    | _ => id

/-- The next token (R560). Its position is the number of positions before it: template, evidence, text, earlier tokens. -/
def chooseToken (q : Query) (logits : List Nat) : Nat :=
  let all := sortBy logitBefore (logits.zipIdx.map fun p => (p.2, p.1))
  if f32 q.temp = .num ⟨0, 1⟩ ∨ q.temp % 2 ^ 31 = 0 then (all.headD (0, 0)).1
  else
    let top := all.take q.topK
    let best := (top.headD (0, 0)).2
    let ws := top.map fun p => (p.1, fnF32 10 (divF32 (subF32 p.2 best) q.temp))
    let sum := treeSum (treeDepth ws.length) (ws.map (·.2))
    let u := mixN q.seed (q.prompt.length + q.evidence + q.tokens.length)
    match f32 sum with
    | .num s => pickRun (qMul ⟨u, 2 ^ 64⟩ s) 0 ws
    | _ => (all.headD (0, 0)).1

/-- TOKEN_GENERATE (R560): a step of text job `j` chooses the next token from the FP32 logits of the last position; `full` is seq_full of
R229. Text is released on character boundaries.
(Log: 88 DEDUCED.) -/
def tokenGenerate (dt j : Nat) (logits : List Nat) (full : Bool) (m0 : Chip) : Chip :=
  let m := elapse dt m0
  match m.textRec j, m.queriesOf j with
  | some r, q :: _ =>
    if !(m.jobRun j).applied then m
    else if full then m.endQuery j q 2
    else
      let id := chooseToken q logits
      let ent := r.dict.getD id ([], true)
      let q1 := { q with tokens := q.tokens ++ [id], bytes := q.bytes ++ (if ent.2 then [] else ent.1) }
      let rel := utf8Release q1.bytes.length q1.bytes
      let put (v : Query) (m : Chip) : Chip :=
        m.onText fun t => { t with queries := t.queries.map fun x => if x.1 = j ∧ x.2.id = q.id then (j, v) else x }
      let m1 := (put q1 m).stepDone j
      if r.ends.contains id then m1.endQuery j q1 0
      else if q1.maxNew ≤ q1.tokens.length then m1.endQuery j q1 1
      else if rel.1.isEmpty then m1.showText
      else ((put { q1 with bytes := rel.2, chunks := q1.chunks + 1 } m1).chunk q1 rel.1 none).showText
  | _, _ => m

/-! ### The meanings of the commands -/

/-- QUESTION (R559). -/
def execQuestion (dt session j : Nat) (text : List Byte) (evidence maxNew temp topK seed : Nat) (s : State) : Answer :=
  onUnit (decide (j < Config.jobs)) dt (question dt session j text evidence maxNew temp topK seed) s
/-- CANCEL (R560). -/
def execCancel (dt session id : Nat) (s : State) : Answer :=
  onUnit true dt (cancel dt session id) s
/-- TOKEN_GENERATE (R560). -/
def execTokenGenerate (dt j : Nat) (logits : List Nat) (full : Bool) (s : State) : Answer :=
  onUnit (decide (j < Config.jobs)) dt (tokenGenerate dt j logits full) s

end Sys2Proof.Machine
end

