-- ==== Sys2Proof/Machine/Reset.lean ====
section
/-!
DEFINITION. Sys2Proof/Machine/Reset.lean: the resets (R480 to R498): what each clears and keeps, the supply, block soft resets, power
domains.
-/
namespace Sys2Proof.Machine

def Chip.onBoot (f : BootState → BootState) (m : Chip) : Chip := { m with boot := f m.boot }
/-- The phase that RP_BOOT_STAT shows (R500). -/
def Chip.setPhase (n : Nat) (m : Chip) : Chip := m.put F.RP_BOOT_STAT_phase n
/-- A start is in progress: its bays do not run yet, and it has neither failed nor ended in service recovery. -/
def Chip.starting (m : Chip) : Bool := decide (m.get F.RP_BOOT_STAT_phase < 7)

/-! ### Power-on and cold reset (R480, R482) -/

/-- What the NVMe store keeps of an adaptable head (R547, R554). -/
def storedHead (v : HeadState) : HeadState := { labelled := v.labelled, nextId := v.nextId, stored := v.stored }
def keptHeads (l : Tab HeadState) : Tab HeadState :=
  l.filterMap fun h => if storedHead h.2 = {} then none else some (h.1, storedHead h.2)

/-- The registers that a cold reset keeps whole (R482, R505, R542).
(Log: 99 DEDUCED.) -/
def coldKept : List Nat :=
  [R.RP_STRAP, R.RP_CNT_COLD, R.RP_CNT_WARM, R.RP_CNT_RESTART, R.RP_CNT_SOFT, R.RP_CNT_REFUSED, R.SEC_CNT_TAMPER]

/-- The input levels that come from outside and stand whatever is reset: encoder lines, group supplies, the lid.
(Log: 99 DEDUCED.) -/
def rawEnc (e : EncPort) : EncPort := { a := e.a, b := e.b }

/-- The outputs that were driven fall as a reset takes the pins to the states of R495. -/
def Chip.pinsFall (m : Chip) : Chip :=
  let m1 := if m.flag F.FIO_OUT_RB_run_permit then m.emit (.pin "RUN_PERMIT" 0 false) else m
  forAll (upTo Config.links) (fun n m => if (m.poc n).on then m.emit (.pin "CXP_PWR_EN_N" n true) else m) m1

/-- The module after a power-on or cold reset: every register at its reset value, every store cleared; kept are the fuses, what the NV
log and the NVMe store hold, and the levels of the pins.
(Log: 63 DEDUCED, 99 DEDUCED.) -/
def Chip.blank (m0 : Chip) : Chip :=
  let m := m0.pinsFall
  let nv := m.get F.RP_STRAP_boot_src != 2
  { regs := regReset
    encs := m.encs.filterMap fun e => if rawEnc e.2 = {} then none else some (e.1, rawEnc e.2)
    fio := { undervolt := m.fio.undervolt }
    heads := if nv then keptHeads m.heads else []
    trust := { fuses := m.trust.fuses, lidOpen := m.trust.lidOpen, nextSession := m.trust.nextSession }
    boot := { pwrGood := m.boot.pwrGood, mainInput := m.boot.mainInput, promoted := if nv then m.boot.promoted else none }
    nvLog := m.nvLog
    out := m.out
    free := m.free }

/-- RP_STRAP as sampled (R483): manufacturing straps are locked out by their fuse.
(Log: 10 DEDUCED.) -/
def Chip.sampleStraps (bootSrc clk : Nat) (m : Chip) : Chip :=
  ((m.put F.RP_STRAP_boot_src bootSrc).put F.RP_STRAP_clk_mode clk).put F.RP_STRAP_mfg_locked
    (b2n (bootSrc == 0 && m.trust.fuses.mfgLock))

/-- The lid's level shows after a reset (R538). -/
def Chip.showLid (m : Chip) : Chip := m.put F.SEC_STAT_tamper_live (b2n m.trust.lidOpen)

/-- Power-on reset (R480, R482, R483): TB2 starts at 0 and the other bases with it. -/
def Chip.powerOnReset (bootSrc clk : Nat) (m : Chip) : Chip := ((m.blank).sampleStraps bootSrc clk).showLid

/-- A reset falls on a start that is in progress (R501, R505). -/
def Chip.noteRestart (was : Bool) (m : Chip) : Chip :=
  if was then (m.setFlag F.RP_BOOT_FLAGS_phase_restart).bump R.RP_CNT_RESTART else m

/-- Cold reset (R482): `cause` as RP_BOOT_STAT shows it. A scrub lap begins (R248).
(Log: 99 DEDUCED.) -/
def Chip.coldReset (cause : Nat) (m0 : Chip) : Chip :=
  let m := forAll (upTo Config.bents) (fun n m => m.setEng (.bent n) { lapFrom := m0.now }) m0.blank
  let kept := forAll coldKept (fun a m => m.wr a (m0.rd a)) m
  let t := m0.time.tb2
  let m1 : Chip :=
    { kept with
      time := { kept.time with tb0 := t, tb1 := t, tb2 := t, tb3 := t, ppsOutSince := m0.now, noQualSince := some m0.now }
      sup := { kept.sup with wdFrom := m0.now, mirrorAliveAt := m0.now }
      trust := { kept.trust with debugSill := m0.trust.debugSill, debugRidge := m0.trust.debugRidge, keyWithheld := m0.trust.keyWithheld,
                                 results := m0.trust.results }
      boot := { kept.boot with startAt := m0.now, inReset := m0.boot.inReset } }
  let m2 := (m1.put F.SEC_STAT_tamper_seen (m0.get F.SEC_STAT_tamper_seen)).put F.SEC_STAT_debug_unlocked
    (m0.get F.SEC_STAT_debug_unlocked)
  (((m2.showLid.put F.RP_BOOT_STAT_cause cause).bump R.RP_CNT_COLD).noteRestart m0.starting).log "cold reset" [cause]

/-! ### Warm reset (R482, R489, R490, R492, R493) -/

/-- The (job, close bay) pairs in flight: those that some stream of a closed strip waits for, and those whose marks are on their
way. -/
def Chip.pairsInFlight (m : Chip) : List (Nat × Nat) :=
  let strips := m.fire.closed.flatMap fun c =>
    (c.jobs.filter fun j => !c.aborted.contains j && !c.streams.all fun s => c.taken.contains (j, s)).map fun j => (j, c.closeBay)
  let bg (j : Nat) : Bool := m.get (F.RC_JOB_STAT_class j) == 2
  let marks := ((m.wit.open_.map fun x => (x.job, x.key)) ++ ((m.wit.sealed ++ m.wit.arrived).filter fun s => !s.background).map
    fun s => (s.job, s.key)).filter fun p => !bg p.1
  (strips ++ marks).eraseDups

/-- The strips closed whose verdicts are not all in. -/
def ClosedStrip.inFlight (c : ClosedStrip) : Bool :=
  c.jobs.isEmpty || c.jobs.any fun j => !c.aborted.contains j && !c.streams.all fun s => c.taken.contains (j, s)

/-- A strip lost to a reset is reported as unjudged on each of its streams and counted for its jobs (R492).
(Log: 100 DEDUCED.) -/
def Chip.lostStrip (row strip closeBay : Nat) (streams jobs : List Nat) (m : Chip) : Chip :=
  let m1 := forAll streams (fun s m => m.release
    { strip, closeBay, objId := 0xFFFF, stream := s, kind := 3, action := 2, cause := 5, replay := decide (8 ≤ row) }) m
  forAll jobs (fun j m => m.bump (R.RC_JOB_ABORT j)) m1

/-- The work in flight is lost (R492); what screening has counted of its strips counts (R153).
(Log: 100 DEDUCED.) -/
def Chip.loseWork (m : Chip) : Chip :=
  let m1 := forAll m.pairsInFlight (fun p m => m.releaseSet { job := p.1, key := p.2, marks := [], gap := true }) (m.countDue fun _ => true)
  let m2 := forAll (m.fire.closed.filter ClosedStrip.inFlight) (fun c m =>
    m.lostStrip c.row c.strip c.closeBay (c.streams.filter fun s => c.jobs.isEmpty || c.jobs.any fun j => !c.taken.contains (j, s))
      (c.jobs.filter fun j => !c.aborted.contains j)) m1
  forAll (upTo Config.rows) (fun r m =>
    let rp := m.rowPipe r
    let jobs := (m.stick.jobs.filter fun j => j.verdict && j.rows.contains r && m.processes j.job m.bay).map (·.job)
    forAll (rp.full ++ rp.cur.toList) (fun o m => m.lostStrip r o.strip m.bay (m.rowStreams r) jobs) m) m2

/-- The cameras go down (R489): every slot is void; the enables of power over CoaXPress are held (R495). -/
def Chip.camsDown (m : Chip) : Chip := forAll m.stick.cameras (fun c m => m.camDown c stDown) m

/-- Every session closes, and its subscriptions with it (R530, R572).
(Log: 100 DEDUCED.) -/
def Chip.dropSessions (m : Chip) : Chip := { m with subs := [], trust := { m.trust with sessions := [] } }

/-- What adaptation and text jobs lose at a reset (R555, R560): training and candidates, and every question, which ends as aborted. -/
def Chip.stopSite (m : Chip) : Chip :=
  forAll (upTo 8) (fun h m => (m.put (F.ADAPT_STAT_state h) 0).wr64 (R.ADAPT_CAND_LO h) (R.ADAPT_CAND_HI h) 0)
    (forAll m.stick.texts (fun t m => m.abortText t.job) m)

/-- The judging machinery stops and its internal state is discarded (R489).
(Log: 100 DEDUCED.) -/
def Chip.stopWork (m0 : Chip) : Chip :=
  let m := m0.stopSite
  let m1 := (forAll m.pp.rows (fun v m => m.discardCarry v.job v.row) (m.loseWork.camsDown)).resetPipes.dropSessions
  let m2 := forAll (upTo Config.replayChannels) (fun ch m => if m.rplState ch = 0 then m else m.put (F.LP_RPL_STAT_state ch) 0) m1
  let m3 := forAll (upTo Config.purlinPorts) (fun p m => m.put (F.PUR_STAT_state p) 0) m2
  let m4 := ((m3.put F.TN_STAT_state 0).put F.SPEC_STAT_state 0).put F.PP_STAT_state 0
  let m5 := forAll (upTo Config.bents) (fun n m => (m.put (F.BENT_CUR_active n) 0).put (F.BENT_STAT_state n)
    (if m.get (F.BENT_STAT_state n) = 0 then 0 else 2)) (m4.put F.ATT_STAT_state 0)
  let lap (e : EngState) : EngState := { lapFrom := e.lapFrom, gated := e.gated || e.wakeFailed }
  { m5 with
    fire := { m3.fire with inbox := [], closed := [], screened := [], resvs := [], late := [], entCount := [], reported := [] }
    bays := { bay := m3.bays.bay, ridge := m3.bays.ridge, startAt := m3.bays.startAt }
    engs := m3.engs.filterMap fun q => if lap q.2 = {} then none else some (q.1, lap q.2)
    wit := { m3.wit with open_ := [], sealed := [], arrived := [], awaiting := [], frames := [], own := [] }
    screens := []
    replays := []
    pp := { rows := m3.pp.rows.filter (·.lost) }
    tenon := {}
    purlin := { routes := m3.purlin.routes, swapped := m3.purlin.swapped }
    text := { nextId := m3.text.nextId }
    heads := m3.heads.filterMap fun h =>
      let v : HeadState := { storedHead h.2 with ring := h.2.ring, master := if h.2.run.isSome then [] else h.2.master }
      if v = {} then none else some (h.1, v)
    sup := { m3.sup with resumeDue := false, shedWindows := false } }

/-- Warm reset (R489 to R493): the always-on domain, the memories and the time bases run on; the firing path keeps running in
FIRE-OUT, or in SAFE. Before the memories have trained the start begins again from step 2 with a new
capture-memory key, during option loading from step 1 (R493). While RESET_N holds a cold reset, the deeper one prevails (R480).
(Log: 63 DEDUCED, 100 DEDUCED.) -/
def Chip.warmReset (cause : Nat) (m0 : Chip) : Chip :=
  let m1 := ((m0.put F.RP_BOOT_STAT_cause cause).bump R.RP_CNT_WARM).noteRestart m0.starting
  if m0.boot.inReset then m0
  else if !m0.boot.optionDone then (m1.setPhase 0).onBoot fun b => { b with step := 0, failed := false, startAt := m0.now }
  else if !m0.boot.memTrained then
    (((m1.setPhase 1).stopWork).replaceKeys).onBoot fun b => { b with step := 1, failed := false, startAt := m0.now, img := none }
  else
    let m2 := m1.enterFireOut none
    ((((m2.stopWork).put F.MB_STAT_fw_state 1).setPhase 1).onBoot fun b =>
      { b with step := 3, warm := true, failed := false, startAt := m0.now, img := none, stripBay := none,
               pinsOn := false }).refreshOutputs

/-! ### Commands of the supply and the reset pins -/

/-- POWER_ON (R480, R483, R593): the main input (`pg` false) or PWR_GOOD rises; with both there, power-on reset, with the straps as
they are sampled.
(Log: 1 DESIGN CHOICE.) -/
def powerOn (pg : Bool) (bootSrc clk : Nat) (m : Chip) : Chip :=
  let m1 := m.onBoot fun b => if pg then { b with pwrGood := true } else { b with mainInput := true }
  if m1.supplied then m1.powerOnReset bootSrc clk else m1

/-- MAIN_INPUT_FAIL (R593): every rail is switched off. The outputs fall, the Peg transmitters are silent. -/
def mainInputFail (m : Chip) : Chip := (m.blank).onBoot fun b => { b with mainInput := false }

/-- PWR_GOOD_FALL (R593): power-on reset is held, with the pins as R495 gives. -/
def pwrGoodFall (m : Chip) : Chip := (m.blank).onBoot fun b => { b with pwrGood := false }

/-- Whether a low pulse of `ns` acts on a filtered reset pin (R481): a free value between 100 and 250 ns.
(Log: 98 DESIGN CHOICE.) -/
def Chip.pulseActs (ns : Nat) (m : Chip) : Bool × Chip :=
  if ns < 100 then (false, m)
  else if 250 ≤ ns then (true, m)
  else
    let (v, m1) := m.draw
    (v % 2 == 1, m1)

/-- RESET_N (R481): the pin has been low for `ns`, or is high again. The reset begins at the filtered falling edge and holds until the
rising edge.
(Log: 98 DESIGN CHOICE.) -/
def resetN (dt : Nat) (low : Option Nat) (m0 : Chip) : Chip :=
  if !m0.supplied then m0
  else
    let m := elapse dt m0
    match low with
    | none => if m.boot.inReset then m.onBoot fun b => { b with inReset := false, startAt := m.now } else m
    | some ns =>
      let (acts, m1) := m.pulseActs ns
      if acts then (m1.coldReset 1).onBoot fun b => { b with inReset := true } else m1

/-- WRESET_N (R481): as RESET_N, for a warm reset; the firing path runs on meanwhile (R490).
(Log: 98 DESIGN CHOICE.) -/
def wresetN (dt : Nat) (low : Option Nat) (m0 : Chip) : Chip :=
  let m := elapse dt m0
  match low with
  | none => if m.boot.inWarm then m.onBoot fun b => { b with inWarm := false, startAt := m.now } else m
  | some ns =>
    let (acts, m1) := m.pulseActs ns
    if acts then (m1.warmReset 4).onBoot fun b => { b with inWarm := true } else m1

/-- COLD_REQ (R480, R501): a signed maintainer command, or firmware's write of cold_req (none).
(Log: 114 DEDUCED.) -/
def coldReq (dt : Nat) (a : Option Auth) (m0 : Chip) : Chip :=
  let m := elapse dt m0
  match a with
  | none => m.coldReset 2
  | some a => m.signed false true a fun m => (true, m.coldReset 2)

/-- WARM_REQ (R480, R501).
(Log: 114 DEDUCED.) -/
def warmReq (dt : Nat) (a : Option Auth) (m0 : Chip) : Chip :=
  let m := elapse dt m0
  match a with
  | none => m.warmReset 5
  | some a => m.signed false true a fun m => (true, m.warmReset 5)

/-! ### Block soft reset (R498, R502) -/

/-- The jobs an engine serves: those with an entry in its lists. -/
def Chip.jobsOf (m : Chip) (e : Engine) : List Nat :=
  (((m.cutLists.filter fun l => l.1 == e).flatMap fun l => l.2.2.map (·.job)) ++
    ((m.bgCutLists.filter fun l => l.1 == e).flatMap fun l => l.2.map (·.job))).eraseDups

/-- The engines of a block by its bit in RP_SOFT_RST. -/
def softEngines (i : Nat) : List Engine := match i with
  | 0 => (upTo 4).map Engine.stud
  | 1 => [.cmDma]
  | 2 => [.tenonS2R]
  | 3 => [.tenonR2S]
  | 4 => [.attention]
  | 5 => [.spectral]
  | 6 => [.postproc]
  | _ => []

/-- An engine is idle: its jobs are disabled, by RC_JOB_CTRL, and it runs nothing. -/
def Chip.softIdle (m : Chip) (e : Engine) : Bool :=
  ((m.jobsOf e).all fun j => !m.flag (F.RC_JOB_CTRL_enable j)) && (m.eng e).running.isNone && (m.eng e).bg.isNone

/-- The gangs with a pipeline in group `g` of eight. -/
def Chip.gangsIn (m : Chip) (g : Nat) : List Gang :=
  m.gangs.filter fun x => decide (x.master < 8 * g + 8) && decide (8 * g < x.master + x.links)
/-- A pipeline group is idle: every pipeline has its source off applied, and no strip is open. -/
def Chip.groupIdle (m : Chip) (g : Nat) : Bool :=
  (m.gangsIn g).all fun x => (m.pipe x.master).route == 3 && (m.rowPipe x.row).cur.isNone

/-- The block by its bit is idle. -/
def Chip.blockIdle (m : Chip) (i : Nat) : Bool := if i < 7 then (softEngines i).all fun e => m.softIdle e else m.groupIdle (i - 7)

/-- A block returns to its idle state: its queues and internal state are cleared, its configuration, counters and flags stand.
(Log: 101 DEDUCED.) -/
def Chip.softBlock (i : Nat) (m : Chip) : Chip :=
  let m1 := forAll (softEngines i) (fun e m => m.setEng e { pos := (m.eng e).pos, lapFrom := (m.eng e).lapFrom }) m
  match i with
  | 0 => { m1 with screens := m1.screens.filterMap fun r =>
                     let v : RowScreen := { outs := r.2.outs }
                     if v = {} then none else some (r.1, v) }
  | 2 => m1.modTnDir 0 fun t => { t with txPost := [] }
  | 3 => m1.modTnDir 1 fun t => { t with txPost := [] }
  | 6 => { forAll m1.pp.rows (fun v m => m.discardCarry v.job v.row) m1 with
             pp := { (forAll m1.pp.rows (fun v m => m.discardCarry v.job v.row) m1).pp with pending := [], queue := [], sealedFor := none } }
  | _ => if i < 7 then m1 else forAll (m1.gangsIn (i - 7)) (fun g m => m.syncReset g) m1

/-- SOFT_RESET (R498, R502): a write to RP_SOFT_RST or to the forerunner window; each block named is reset when it is idle in this
cycle, and refused otherwise.
(Log: 101 DEDUCED.) -/
def softReset (dt mask : Nat) (m0 : Chip) : Chip :=
  let m := elapse dt m0
  forAll ((upTo 13).filter (bitN mask)) (fun i m =>
    if m.blockIdle i then (m.softBlock i).bump R.RP_CNT_SOFT
    else ((m.setFlag F.RP_SOFT_STAT_RESET_REFUSED).setBit R.RP_SOFT_STAT i).bump R.RP_CNT_REFUSED) m

/-! ### Power domains (R496, R497) -/

def Chip.domainOn (m : Chip) (d : Nat) : Bool := m.bit (R.RP_PWR_STAT (d / 32)) (d % 32)

/-- DOMAIN_POWER_FAIL (R497): a domain that was switched on reports no power-good within 100 µs. A bent runs none of its commands in
this bay. -/
def domainPowerFail (dt d : Nat) (m0 : Chip) : Chip :=
  let m := elapse dt m0
  let m1 := (((m.setBit (R.RP_PWR_FAIL (d / 32)) (d % 32))).setDomain d false).raise SrcName.supplyOutOfRange
  if d < 32 then (m1.setEng (.bent d) { m1.eng (.bent d) with wakeFailed := true, wakeAt := none }).showBent d else m1

/-! ### The meanings of the commands -/

/-- POWER_ON (R480). -/
def execPowerOn (pg : Bool) (bootSrc clk : Nat) (s : State) : Answer :=
  onSupply true (powerOn pg bootSrc clk) s
/-- RESET_N (R481). -/
def execResetN (dt : Nat) (low : Option Nat) (s : State) : Answer :=
  onSupply true (resetN dt low) s
/-- WRESET_N (R481). -/
def execWresetN (dt : Nat) (low : Option Nat) (s : State) : Answer :=
  onUnit true dt (wresetN dt low) s
/-- COLD_REQ (R501). -/
def execColdReq (dt : Nat) (a : Option Auth) (s : State) : Answer :=
  onUnit true dt (coldReq dt a) s
/-- WARM_REQ (R501). -/
def execWarmReq (dt : Nat) (a : Option Auth) (s : State) : Answer :=
  onUnit true dt (warmReq dt a) s
/-- SOFT_RESET (R498). -/
def execSoftReset (dt mask : Nat) (s : State) : Answer :=
  onUnit true dt (softReset dt mask) s
/-- DOMAIN_POWER_FAIL (R497). -/
def execDomainPowerFail (dt d : Nat) (s : State) : Answer :=
  onUnit (decide (d < 60)) dt (domainPowerFail dt d) s
/-- MAIN_INPUT_FAIL (R593). -/
def execMainInputFail (s : State) : Answer :=
  onSupply true mainInputFail s
/-- PWR_GOOD_FALL (R593). -/
def execPwrGoodFall (s : State) : Answer :=
  onSupply true pwrGoodFall s

end Sys2Proof.Machine
end

