-- ==== Sys2Proof/Machine/Time.lean ====
section
/-!
DEFINITION. Sys2Proof/Machine/Time.lean: time bases and references (R407 to R427): increments and steps, validity and
qualification of the references of TB0, switches and holdover, PTP timestamps, the PPS pins. References are numbered 0 and
1 for the PTP ports and 2 for PPS_IN.
-/
namespace Sys2Proof.Machine

def Chip.onTime (f : TimeState → TimeState) (m : Chip) : Chip := { m with time := f m.time }
def Chip.ref (m : Chip) (i : Nat) : RefState := m.time.refs.getD i {}
def Chip.setRef (i : Nat) (r : RefState) (m : Chip) : Chip := m.onTime fun t => { t with refs := t.refs.set i r }

def Chip.qualNs (m : Chip) : Nat := m.get F.TM_LIMITS_qual_time * 1000000000
def Chip.jumpLimit (m : Chip) : Nat := m.get F.TM_JUMP_jump_limit
/-- Bits of TM_STAT: valid and qualified stand in ref_en order, bit 0 lowest. -/
def Chip.refValid (m : Chip) (i : Nat) : Bool := bitN (m.get F.TM_STAT_valid) i
def Chip.refQual (m : Chip) (i : Nat) : Bool := bitN (m.get F.TM_STAT_qualified) i
def setBitN (x i : Nat) (v : Bool) : Nat := x - b2n (bitN x i) * 2 ^ i + b2n v * 2 ^ i
def Chip.putValid (i : Nat) (v : Bool) (m : Chip) : Chip := m.put F.TM_STAT_valid (setBitN (m.get F.TM_STAT_valid) i v)
def Chip.putQual (i : Nat) (v : Bool) (m : Chip) : Chip := m.put F.TM_STAT_qualified (setBitN (m.get F.TM_STAT_qualified) i v)
/-- The reference in use: 1 to 3 a reference, 4 holdover, 0 while TB0 is unset (R425). -/
def Chip.refCur (m : Chip) : Nat := m.get F.TM_STAT_ref_cur
def Chip.tb0Set (m : Chip) : Bool := m.flag F.TM_STAT_tb0_set

/-! ### Holdover (R415) -/

/-- The mean of the increments written during the last qual_time, or nominal; a mean that is no integer takes one of its
two neighbours, which of them the spec leaves open: a free value.
(Log: 25 DESIGN CHOICE.) -/
def Chip.holdInc (m : Chip) : Nat × Chip :=
  let l := (m.time.incHist.filter fun x => decide (m.now ≤ x.1 + m.qualNs)).map (·.2)
  if l.isEmpty then (0x400000000, m)
  else
    let sum := l.foldl (· + ·) 0
    if sum % l.length = 0 then (sum / l.length, m)
    else
      let (v, m1) := m.draw
      (sum / l.length + v % 2, m1)

/-- Put TB0's active increment. -/
def Chip.putInc0 (v : Nat) (m : Chip) : Chip := (m.onTime fun t => { t with inc0 := v }).wr64 R.TM_TB0_INC_LO R.TM_TB0_INC_HI v

/-- Enter holdover, unless TB0 is in it.
(Log: 24 DEDUCED.) -/
def Chip.enterHold (m : Chip) : Chip :=
  if m.flag F.TM_STAT_holdover then m
  else
    let (v, m1) := m.holdInc
    (((m1.putInc0 v).put F.TM_STAT_holdover 1).bump R.TM_CNT_HOLD).onTime fun t => { t with holdSince := some m.now }

/-- Leave holdover. -/
def Chip.leaveHold (m : Chip) : Chip :=
  ((m.put F.TM_STAT_holdover 0).onTime fun t => { t with holdSince := none }).deassert SrcName.timeHoldover

/-! ### Switching (R418) -/

/-- The qualified reference of highest priority, in the encoding of R425; 4 (holdover) when there is none. -/
def Chip.bestRef (m : Chip) : Nat :=
  if m.refQual 0 && m.refValid 0 then 1 else if m.refQual 1 && m.refValid 1 then 2
  else if m.refQual 2 && m.refValid 2 then 3 else 4

/-- Remember since when no reference has been qualified. -/
def Chip.noteQual (m : Chip) : Chip :=
  if m.bestRef ≠ 4 then (m.onTime fun t => { t with noQualSince := none }).deassert SrcName.timeReference
  else if m.time.noQualSince.isSome then m
  else m.onTime fun t => { t with noQualSince := some m.now }

/-- A switch is due: the reference in use is invalid or has lost its qualification, or a qualified one of higher priority
stands by.
(Log: 26 DEDUCED.) -/
def Chip.switchDue (m : Chip) : Bool :=
  let c := m.refCur
  m.tb0Set && (decide (m.bestRef < c) || (decide (1 ≤ c) && decide (c ≤ 3) && !(m.refValid (c - 1) && m.refQual (c - 1))))

/-- The condition of R417 for reference `i`. -/
def Chip.refCond (m : Chip) (i : Nat) : Bool :=
  let r := m.ref i
  let inUse := m.refCur == i + 1
  let off := match r.offset with
    | some o => decide (o.natAbs ≤ m.jumpLimit) || inUse
    | none => inUse
  bitN (m.get F.TM_CFG_ref_en) i && off &&
    (if i < 2 then r.ok && m.get (F.ETH_STAT_state i) == 1
     else
      m.tb0Set && (match m.time.ppsEdges with
        | a :: b :: c :: d :: _ => [a - b, b - c, c - d].all fun x => decide (999800000 ≤ x) && decide (x ≤ 1000200000)
        | _ => false) && (match m.time.ppsEdges with
        | a :: _ => decide (m.now ≤ a + 1200000000)
        | [] => false))

/-- Bring a reference's validity up to date (R417, R418). -/
def Chip.refRefresh (i : Nat) (m : Chip) : Chip :=
  let v := m.refCond i
  if v == m.refValid i then m
  else if v then
    let m1 := (m.putValid i true).setRef i { m.ref i with validFrom := some m.now, kept := false }
    if (m.ref i).kept && m.refCur == i + 1 then m1.putQual i true else m1
  else
    ((m.putValid i false).setRef i { m.ref i with validFrom := none, kept := m.refQual i && m.refCur == i + 1 }).putQual i false

/-- The reference left at a commit loses its qualification, and its validity begins anew.
(Log: 26 DEDUCED.) -/
def Chip.leaveRef (c : Nat) (m : Chip) : Chip :=
  if 1 ≤ c ∧ c ≤ 3 then
    let i := c - 1
    (m.putQual i false).setRef i { m.ref i with kept := false, validFrom := if m.refValid i then some m.now else none }
  else m

/-- A pending switch commits, or is cancelled when the reference in use is the best again (R418).
(Log: 26 DEDUCED.) -/
def Chip.commitRef (m : Chip) : Chip :=
  if !m.flag F.TM_STAT_pending then m
  else
    let best := m.bestRef
    let cur := m.refCur
    let m1 := (m.put F.TM_STAT_pending 0).put F.TM_STAT_ref_pend 0
    if best = cur ∧ best ≠ 4 then ((m1.setFlag F.TM_STAT_switch_cancelled).bump R.TM_CNT_CANCEL).leaveHold
    else
      let m2 := (((m1.leaveRef cur).put F.TM_STAT_ref_cur best).setFlag F.TM_STAT_switched).bump R.TM_CNT_SWITCH
      let m3 := (forAll (upTo 3) (fun i m => m.refRefresh i) m2).noteQual
      if best = 4 then m3 else m3.leaveHold

/-- After a change: a switch becomes pending, which puts TB0 in holdover; without bays it commits at once. -/
def Chip.refEval (m : Chip) : Chip :=
  let m0 := m.noteQual
  if !m0.switchDue then
    (if m0.flag F.TM_STAT_pending then m0.put F.TM_STAT_ref_pend m0.bestRef else m0)
  else
    let m1 := ((m0.put F.TM_STAT_pending 1).put F.TM_STAT_ref_pend m0.bestRef).enterHold
    if m1.bays.running then m1 else m1.commitRef

/-- Refresh every reference and evaluate the selection. -/
def Chip.refsUpdate (m : Chip) : Chip := (forAll (upTo 3) (fun i m => m.refRefresh i) m).refEval

/-- TB0 has just been set: the best qualified reference is in use, or holdover (R413, R425).
(Log: 24 DEDUCED.) -/
def Chip.refStart (m : Chip) : Chip :=
  let m1 := (forAll (upTo 3) (fun i m => m.refRefresh i) m).noteQual
  let m2 := m1.put F.TM_STAT_ref_cur m1.bestRef
  if m1.bestRef = 4 then m2.enterHold else m2

/-! ### Commands -/

/-- The increment limits of R408, in 2⁻³² ns. -/
def incLo : Nat := 0x400000000 - 1717987
def incHi : Nat := 0x400000000 + 1717987

/-- TB0_INC_WRITE (R408): the increment of TB0 (`base` 0) or TB1, clamped to ±100 ppm. A value written while TB0 follows a reference
is remembered for holdover (R415). -/
def tb0IncWrite (dt base v : Nat) (m0 : Chip) : Chip :=
  let m := elapse dt m0
  let w := clampN incLo incHi v
  let m1 := if w = v then m else (m.setFlag F.TM_STAT_inc_clamped).bump R.TM_CNT_CLAMP
  if base = 0 then
    let m2 := m1.putInc0 w
    if m.flag F.TM_STAT_holdover || m.refCur == 0 || m.refCur == 4 then m2
    else m2.onTime fun t => { t with incHist := (t.incHist.filter fun x => decide (m.now ≤ x.1 + m.qualNs)) ++ [(m.now, w)] }
  else (m1.onTime fun t => { t with inc1 := w }).wr64 R.TM_TB1_INC_LO R.TM_TB1_INC_HI w

/-- A time base stepped by a signed number of ns. -/
def stepBase (t : BitVec 96) (ns : Int) : BitVec 96 := t + BitVec.ofInt 96 (ns * 2 ^ 32)

/-- |TB3 − TB0| in ns. -/
def Chip.tb3Gap (m : Chip) : Nat := ((m.time.tb3 - m.time.tb0).toInt.natAbs) / 2 ^ 32

/-- Apply a step to TB0 (R413). When TB0 is set for the first time after bays started without it and lies more than 100 ms
from TB3, realignment is due (R488). -/
def Chip.applyStep (step : Int) (m : Chip) : Chip :=
  let first := !m.tb0Set
  let m1 := (((m.onTime fun t => { t with tb0 := stepBase t.tb0 step, lastStepAt := some m.now }).put F.TM_STAT_tb0_set 1).setFlag
    F.TM_STAT_step_done).bump R.TM_CNT_STEP
  let m2 := if first then m1.refStart else m1.refsUpdate
  if first && m2.bays.running && decide (100000000 < m2.tb3Gap) then
    (m2.put F.RP_BOOT_FLAGS_realign_due 1).raise SrcName.timeReference
  else m2

/-- A one-shot permit is held and has not lapsed (R414). -/
def Chip.permitHeld (m : Chip) : Bool := match m.time.permitAt with
  | some t => decide (m.now < t + 60000000000)
  | none => false
def Chip.clearPermit (m : Chip) : Chip := (m.onTime fun t => { t with permitAt := none }).put F.TM_CTRL_accept_step 0

/-- TB0_STEP_REQUEST (R413, R414): the write of TM_TB0_STEP_HI requests the step, which is applied or refused. -/
def tb0StepRequest (dt : Nat) (step : Int) (m0 : Chip) : Chip :=
  let m := (elapse dt m0).wr64 R.TM_TB0_STEP_LO R.TM_TB0_STEP_HI (unsignedOf 64 step)
  let recent := match m.time.lastStepAt with
    | some t => decide (m.now < t + m.qualNs)
    | none => false
  if m.permitHeld then (m.clearPermit).applyStep step
  else if !m.tb0Set then m.applyStep step
  else if step.natAbs ≤ m.jumpLimit ∧ recent = false then m.applyStep step
  else
    let c := m.refCur
    let m1 := ((m.setFlag F.TM_STAT_jump_refused).bump R.TM_CNT_REFUSE).raise SrcName.timeJump
    let m2 := if 1 ≤ c ∧ c ≤ 3 then
        (m1.putQual (c - 1) false).setRef (c - 1) { m1.ref (c - 1) with kept := false, validFrom := if m1.refValid (c - 1) then some m1.now else none }
      else m1
    m2.refEval

/-- TB1_STEP (R412): always applied. -/
def tb1Step (dt : Nat) (step : Int) (m0 : Chip) : Chip :=
  let m := (elapse dt m0).wr64 R.TM_TB1_STEP_LO R.TM_TB1_STEP_HI (unsignedOf 64 step)
  (m.onTime fun t => { t with tb1 := stepBase t.tb1 step }).put F.TM_STAT_tb1_set 1

/-- ACCEPT_STEP (R414). -/
def acceptStep (dt : Nat) (m0 : Chip) : Chip :=
  let m := elapse dt m0
  (m.onTime fun t => { t with permitAt := some m.now }).put F.TM_CTRL_accept_step 1

/-- ACCEPT_STEP_LAPSE (R414): a permit not used within 60 s lapses. -/
def acceptStepLapse (dt : Nat) (m0 : Chip) : Chip :=
  let m := elapse dt m0
  if m.time.permitAt.isSome && !m.permitHeld then m.clearPermit else m

/-- REFERENCE_VALIDITY_CHANGE (R417): a PTP reference's master selection and timers, as the servo finds them. -/
def referenceValidityChange (dt i : Nat) (ok : Bool) (m0 : Chip) : Chip :=
  let m := elapse dt m0
  (m.setRef i { m.ref i with ok }).refsUpdate

/-- REFERENCE_QUALIFIED (R418): a reference that has been valid for qual_time without a break is qualified. -/
def referenceQualified (dt i : Nat) (m0 : Chip) : Chip :=
  let m := (elapse dt m0).refsUpdate
  match (m.ref i).validFrom with
  | some t => if m.refValid i && decide (t + m.qualNs ≤ m.now) then (m.putQual i true).refEval else m
  | none => m

/-- HOLDOVER_LONG (R415, R418): holdover has lasted holdover_max; no reference has been qualified for holdover_max. -/
def holdoverLong (dt : Nat) (m0 : Chip) : Chip :=
  let m := elapse dt m0
  let lim := m.get F.TM_LIMITS_holdover_max * 1000000000
  let past (t : Option Nat) : Bool := match t with
    | some t => decide (t + lim ≤ m.now)
    | none => false
  let m1 := if past m.time.holdSince then (m.setFlag F.TM_STAT_holdover_long).assert SrcName.timeHoldover else m
  if past m.time.noQualSince then m1.assert SrcName.timeReference else m1

/-- A timestamp enters the port's queue of 64 (R411, R583): the times of reception less the ingress latency, or of
transmission plus the egress latency. -/
def Chip.pushTs (p : Nat) (tx domB : Bool) (msgType seqId : Nat) (m : Chip) : Chip :=
  let cal := if tx then signedOf 32 (m.rd (R.ETH_CAL_TX p)).toNat else -(signedOf 32 (m.rd (R.ETH_CAL_RX p)).toNat)
  let at_ (t : Nat) : Nat := ((t : Int) + cal).toNat
  let e := m.ethPort p
  let m1 := m.bump (R.ETH_CNT_PTP p)
  if 64 ≤ e.ts.length then m1.setFlag (F.ETH_STAT_ts_ovf p)
  else m1.setEthPort p { e with ts := e.ts ++
    [{ tx, domB, msgType, seqId := seqId % 65536, t0 := at_ m.tb0, t1 := at_ m.tb1, t2 := at_ m.now }] }

/-- PTP_MESSAGE (R410 to R412): a message of `domain` arrives. Message types 0 to 3 are event messages and are timestamped;
a Pdelay_Req is answered. `offset` is the servo's measurement of the reference at a Sync of domain A. -/
def ptpMessage (dt p msgType domain seqId : Nat) (offset : Option Int) (m0 : Chip) : Chip :=
  let m := (elapse dt m0).bump (R.ETH_CNT_RX p)
  let a := domain == m.get F.TM_CFG_domain_a
  let b := domain == m.get F.TM_CFG_domain_b
  if !(a || b) then m
  else
    let m1 := if msgType < 4 then m.pushTs p false (!a) msgType seqId else m
    let m2 := if msgType = 2 then
        let sent := (m1.emit (.send "eth" p "Pdelay_Resp" [domain, seqId])).bump (R.ETH_CNT_TX p)
        if m.flag (F.ETH_CFG_pd_two_step p) then sent.pushTs p true (!a) 3 seqId else sent.bump (R.ETH_CNT_PTP p)
      else m1
    if a && offset.isSome && (msgType == 0 || msgType == 8) then (m2.setRef p { m2.ref p with offset }).refsUpdate else m2

/-- PTP_DELAY_REQUEST (R410, R411): the port sends a Delay_Req, or a Pdelay_Req with `peer`, and timestamps it. -/
def ptpDelayRequest (dt p domain : Nat) (peer : Bool) (m0 : Chip) : Chip :=
  let m := elapse dt m0
  let e := m.ethPort p
  let m1 := (m.emit (.send "eth" p (if peer then "Pdelay_Req" else "Delay_Req") [domain, e.delaySeq])).bump (R.ETH_CNT_TX p)
  let m2 := m1.pushTs p true (domain != m.get F.TM_CFG_domain_a) (if peer then 2 else 1) e.delaySeq
  m2.setEthPort p { m2.ethPort p with delaySeq := (e.delaySeq + 1) % 65536 }

/-- The signed offset of a TB0 time from the nearest whole second, in ns (R422). -/
def secondErr (t : Nat) : Int :=
  let f : Int := (t % 1000000000 : Nat)
  if f < 500000000 then f else f - 1000000000

/-- PPS_IN_EDGE (R422, R417). -/
def ppsInEdge (dt : Nat) (m0 : Chip) : Chip :=
  let m := elapse dt m0
  let err := secondErr m.tb0
  let m1 := ((m.wr64 R.TM_PPS_IN_LO R.TM_PPS_IN_HI m.tb0).wr R.TM_PPS_ERR (BitVec.ofInt 32 err)).onTime fun t =>
    { t with ppsEdges := (m.now :: t.ppsEdges).take 4 }
  (m1.setRef 2 { m1.ref 2 with offset := some err }).refsUpdate

/-- PPS_MISSING (R422): an expected edge is missing for 1.2 s. After a missing edge none is expected until the next has come.
(Log: 133 DEDUCED.) -/
def ppsMissing (dt : Nat) (m0 : Chip) : Chip :=
  let m := elapse dt m0
  match m.time.ppsEdges with
  | a :: _ =>
    if a + 1200000000 ≤ m.now then
      (((m.onTime fun t => { t with ppsEdges := [] }).setFlag F.TM_STAT_pps_missing).bump R.TM_CNT_PPS_MISS).refsUpdate
    else m
  | [] => m

/-- PPS_OUT_SECOND (R423): PPS_OUT rises at a whole second of its base, falls after pps_width, and is low while the base is
unset or the source is off. TB3 is set once bays have started with network time (R409, R488).
(Log: 133 DEDUCED.) -/
def ppsOutSecond (dt : Nat) (m0 : Chip) : Chip :=
  let m := elapse dt m0
  let src := m.get F.TM_CFG_pps_src
  let set := if src = 1 then m.tb0Set else m.boot.everBays && !m.flag F.RP_BOOT_FLAGS_no_time
  let sec := (if src = 1 then m.tb0 else m.tb3) / 1000000000
  if (src != 1 && src != 2) || !set then
    if m.time.ppsOut then (m.onTime fun t => { t with ppsOut := false }).emit (.pin "PPS_OUT" 0 false) else m
  else if sec ≠ m.time.ppsLastSecond then
    (m.onTime fun t => { t with ppsOut := true, ppsOutSince := m.now, ppsLastSecond := sec }).emit (.pin "PPS_OUT" 0 true)
  else if m.time.ppsOut && decide (m.time.ppsOutSince + m.get F.TM_CFG_pps_width * 1000000 ≤ m.now) then
    (m.onTime fun t => { t with ppsOut := false }).emit (.pin "PPS_OUT" 0 false)
  else m

/-! ### The meanings of the commands -/

/-- PTP_MESSAGE (R411). -/
def execPtpMessage (dt p msgType domain seqId : Nat) (offset : Option Int) (s : State) : Answer :=
  onUnit (decide (p < Config.ethPorts)) dt (ptpMessage dt p msgType domain seqId offset) s
/-- TB0_INC_WRITE (R408). -/
def execTb0IncWrite (dt base v : Nat) (s : State) : Answer :=
  onUnit (decide (base < 2)) dt (tb0IncWrite dt base v) s
/-- TB0_STEP_REQUEST (R413). -/
def execTb0StepRequest (dt : Nat) (step : Int) (s : State) : Answer :=
  onUnit true dt (tb0StepRequest dt step) s
/-- TB1_STEP (R412). -/
def execTb1Step (dt : Nat) (step : Int) (s : State) : Answer :=
  onUnit true dt (tb1Step dt step) s
/-- ACCEPT_STEP_LAPSE (R414). -/
def execAcceptStepLapse (dt : Nat) (s : State) : Answer :=
  onUnit true dt (acceptStepLapse dt) s
/-- REFERENCE_VALIDITY_CHANGE (R417). -/
def execReferenceValidityChange (dt ref : Nat) (ok : Bool) (s : State) : Answer :=
  onUnit (decide (ref < 3)) dt (referenceValidityChange dt ref ok) s
/-- REFERENCE_QUALIFIED (R418). -/
def execReferenceQualified (dt ref : Nat) (s : State) : Answer :=
  onUnit (decide (ref < 3)) dt (referenceQualified dt ref) s
/-- HOLDOVER_LONG (R415). -/
def execHoldoverLong (dt : Nat) (s : State) : Answer :=
  onUnit true dt (holdoverLong dt) s
/-- PPS_IN_EDGE (R422). -/
def execPpsInEdge (dt : Nat) (s : State) : Answer :=
  onUnit true dt (ppsInEdge dt) s
/-- PPS_MISSING (R422). -/
def execPpsMissing (dt : Nat) (s : State) : Answer :=
  onUnit true dt (ppsMissing dt) s
/-- PPS_OUT_SECOND (R423). -/
def execPpsOutSecond (dt : Nat) (s : State) : Answer :=
  onUnit true dt (ppsOutSecond dt) s
/-- PTP_DELAY_REQUEST (R410). -/
def execPtpDelayRequest (dt p domain : Nat) (peer : Bool) (s : State) : Answer :=
  onUnit (decide (p < Config.ethPorts)) dt (ptpDelayRequest dt p domain peer) s

end Sys2Proof.Machine
end

