-- ==== Sys2Proof/Machine/Boot.lean ====
section
/-!
DEFINITION. Sys2Proof/Machine/Boot.lean: option loading, the start of the module step by step, the load of a story stick, the start of
bays, the end of SAFE (R484 to R493, R510 to R522, R469).
-/
namespace Sys2Proof.Machine

/-! ### Verification of the image: codes 0x01 to 0x0B (R512, R513, R520) -/

/-- The record types of R513, with those marked single. -/
def recTypes : List Nat := [0x10, 0x20, 0x21, 0x22, 0x30, 0x31, 0x32, 0x40, 0x41, 0x42, 0x50, 0x51, 0x60, 0x61, 0x70]
def singleTypes : List Nat := [0x10, 0x21, 0x22, 0x31, 0x32, 0x42, 0x50, 0x51, 0x60, 0x61, 0x70]

def up8 (n : Nat) : Nat := ceilDivN n 8 * 8

/-- The walk of R512 over the record area of `left` bytes: every length fits, and the walk ends exactly at its end. -/
def walkOk : Nat → List RecHead → Bool
  | left, [] => left == 0
  | left, r :: t =>
    decide (8 ≤ left) && decide (r.len ≠ 0xFFFFFFFF) && decide (r.len ≤ left - 8) && decide (8 + up8 r.len ≤ left) &&
      walkOk (left - (8 + up8 r.len)) t

/-- Code 0x0A: the walk, the count, no unknown critical type, no single type twice.
(Log: 105 DEDUCED.) -/
def recordsOk (i : Image) : Bool :=
  walkOk i.recordsLen i.heads && i.heads.length == i.recordCount &&
  i.heads.all (fun r => recTypes.contains r.typ || !r.critical) &&
  singleTypes.all (fun t => decide ((i.heads.filter fun r => r.typ == t).length ≤ 1)) &&
  decide ((i.heads.filter fun r => r.typ == 0x20).length ≤ 256)

/-- Records of unknown type that are skipped. -/
def skipped (i : Image) : Nat := (i.heads.filter fun r => !recTypes.contains r.typ && !r.critical).length

/-- The fields of the size table (R567). -/
def sizeFields : List (Nat × Nat × Nat) :=
  [(0, 31, 24), (0, 17, 16), (0, 15, 8), (0, 7, 0), (1, 27, 24), (1, 23, 16), (1, 15, 0), (2, 31, 20), (2, 19, 16), (2, 15, 0),
   (3, 23, 16), (3, 11, 8), (3, 7, 0)]
def sizeOk (req have_ : List Nat) : Bool :=
  sizeFields.all fun f => decide (bitsN (req.getD f.1 0) f.2.1 f.2.2 ≤ bitsN (have_.getD f.1 0) f.2.1 f.2.2)
def Chip.sizeTable (m : Chip) : List Nat := [R.SZ_0, R.SZ_1, R.SZ_2, R.SZ_3].map fun a => (m.rd a).toNat

/-- The first check of R520 that an image fails, 0 for none, up to code 0x0B.
(Log: 105 DEDUCED.) -/
def Chip.imageCode (m : Chip) (i : Image) : Nat :=
  let f := m.trust.fuses
  if i.magic ≠ 0x53534B41 ∨ i.format ≠ 1 then 1
  else if i.imageLen ≠ 0x100 + i.recordsLen + 7424 ∨ i.storeLen < i.imageLen ∨ i.recordsLen % 8 ≠ 0 then 2
  else if i.ownerHash ≠ f.slots.getD f.active 0 ∨ f.lifecycle ≠ 3 ∨ i.serial ≠ Config.serial.toNat then 3
  else if i.pubHash ≠ i.ownerHash then 4
  else if !i.ecdsaOk then 5
  else if !i.mldsaOk then 6
  else if i.version < f.counter ∨ 128 < i.version then 7
  else if Config.fwLevel.toNat < i.fwMin ∨ Config.ucodeLevel.toNat ≠ i.ucode then 8
  else if !sizeOk i.sizeReq m.sizeTable then 9
  else if !recordsOk i then 10
  else if !i.keysOk || m.trust.keyWithheld then 11
  else 0

/-- A story stick is rejected (R486, R520, R538, R539): SAFE with phase 1001, the service protocol up.
(Log: 105 DEDUCED.) -/
def Chip.rejectStick (code seg : Nat) (m : Chip) : Chip :=
  let m1 := (m.put F.SEC_LOAD_STAT_code code).put F.SEC_LOAD_STAT_segment seg
  let m2 := (m1.setFlagIf (code == 5 || code == 6) F.SEC_STAT_sig_fail).setFlagIf (code == 7) F.SEC_STAT_rollback_reject
  let m3 := (((m2.bump R.SEC_CNT_LOAD_REJ).setPhase 9).log "story stick rejected" [code, seg]).put F.MB_STAT_fw_state 2
  ({ m3.enterSafe none with stick := {} }).onBoot fun b => { b with failed := true, img := none }

/-- Step 4 (R486, R520).
(Log: 105 DEDUCED.) -/
def Chip.verifyImage (i : Image) (m : Chip) : Chip :=
  let code := m.imageCode i
  let m1 := ((m.put F.SEC_LOAD_STAT_ecdsa_ok (b2n i.ecdsaOk)).put F.SEC_LOAD_STAT_mldsa_ok (b2n i.mldsaOk)).put F.SEC_LOAD_STAT_keys_ok
    (b2n (decide (code = 0)))
  if code ≠ 0 then m1.rejectStick code 0
  else
    let m2 := ((m1.put F.SEC_LOAD_STAT_code 0).put F.SEC_LOAD_STAT_segment 0).bumpBy R.SEC_CNT_SKIP (skipped i)
    m2.onBoot fun b => { b with img := some i }

/-! ### Segments: code 0x0C (R491, R514, R522) -/

/-- A segment is read, verified and written. Its hash register is clear meanwhile.
(Log: 108 DEDUCED.) -/
def Chip.readSegment (x : SegRec) (m : Chip) : Chip :=
  let m1 := m.onTrust fun t => { t with segHash := t.segHash.filter fun s => s.1 != x.seg }
  let m2 := m1.setFlagIf (m.boot.warm && x.kind == 2) F.RP_BOOT_FLAGS_hash_mismatch
  if !x.ok then m2.rejectStick 0x0C x.seg
  else (if 2 ≤ x.kind then m2.putBytes (hbmAddr x.target) x.bytes else m2).onTrust fun t => { t with segHash := t.segHash ++ [(x.seg, x.hash)] }

/-- Step 5: the segments in record order; on a warm restart those whose hash register matches are not read.
(Log: 108 DEDUCED.) -/
def Chip.loadSegments (l : List SegRec) (m0 : Chip) : Chip :=
  forAll l (fun x m =>
    if m.boot.failed then m
    else if m.boot.warm && m.trust.segHash.contains (x.seg, x.hash) then
      if x.kind = 2 then m.put F.RP_BOOT_STAT_reused (min 255 (m.get F.RP_BOOT_STAT_reused + 1)) else m
    else m.readSegment x) (m0.put F.RP_BOOT_STAT_reused 0)

/-! ### Records: code 0x0D (R515 to R519) -/

/-- Every register of the map, one address for each instance, with its row. -/
def regInstances : List (Nat × RegRow) :=
  regMap.flatMap fun r => (upTo r.n1).flatMap fun i => (upTo r.n2).map fun j => (r.base + r.s1 * i + r.s2 * j, r)

/-- The fields "from story stick" take the defaults of their chapters (R515).
(Log: 9 DESIGN CHOICE.) -/
def Chip.stickDefaults (m : Chip) : Chip :=
  forAll (regInstances.filter fun x => x.2.stick != 0) (fun x m =>
    m.wr x.1 (((m.rd x.1) &&& ~~~x.2.stick) ||| ((tabGet 0 regReset x.1) &&& x.2.stick))) m

/-- The bytes of the two routing tables (R317, R319). -/
def isRoute (a : Nat) : Bool := decide (0xFD000 ≤ a) && decide (a < 0xFF000)

/-- An entry of a register record may be applied: aligned, mapped, its mask within the fields of R515. Bits 7:3 of a routing entry are
reserved (R317). -/
def regEntryOk (e : Nat × Nat × Nat) : Bool :=
  decide (e.1 % 4 = 0) && ((isRoute e.1 && BitVec.ofNat 32 e.2.1 &&& 0xF8F8F8F8 == 0) || match regRowAt e.1 with
    | some r => BitVec.ofNat 32 e.2.1 &&& ~~~(r.stick ||| r.rw ||| r.rws) == 0
    | none => false)

/-- The bits of a value that a mask names replace those of a word. -/
def maskIn (old : Nat) (mask value : Nat) : Word :=
  (BitVec.ofNat 32 old &&& ~~~(BitVec.ofNat 32 mask)) ||| (BitVec.ofNat 32 value &&& BitVec.ofNat 32 mask)

/-- The routing-table word at an address. -/
def Chip.routeWord (m : Chip) (a : Nat) : Nat :=
  (upTo 4).foldl (fun w i => w + tabGet 7 m.purlin.routes (a - 0xFD000 + i) * 2 ^ (8 * i)) 0

/-- Log: 107 DEDUCED. -/
def Chip.applyEntry (e : Nat × Nat × Nat) (m : Chip) : Chip :=
  if isRoute e.1 then
    let w := (maskIn (m.routeWord e.1) e.2.1 e.2.2).toNat
    { m with purlin := { m.purlin with
        routes := (upTo 4).foldl (fun t i => tabSet 7 t (e.1 - 0xFD000 + i) (w / 2 ^ (8 * i) % 256)) m.purlin.routes } }
  else m.wr e.1 (maskIn (m.rd e.1).toNat e.2.1 e.2.2)

/-- The trigger and timeout registers of an extension link read as 0 (the section on the link windows of R85). -/
def Chip.clearExt (n : Nat) (m : Chip) : Chip := ((m.wr (R.CXP_TRIG_CFG n) 0).wr (R.CXP_TRIG_PHASE n) 0).wr (R.CXP_TIMING_CFG n) 0

/-- The fields that a camera record fills (R517).
(Log: 107 DEDUCED.) -/
def Chip.fillCamera (c : CameraRec) (m0 : Chip) : Chip :=
  let gang := match c.links with
    | 1 => 0
    | 2 => 1
    | _ => 2
  let m := forAll (upTo c.links) (fun i m =>
    let n := c.master + i
    let m1 := ((m.put (F.CXP_LINK_CFG_rate n) c.rate).put (F.CXP_LINK_CFG_gang n) gang).put (F.CXP_LINK_CFG_role n) (if i = 0 then 1 else 2)
    let m2 := (m1.put (F.CXP_LINK_CFG_master n) c.master).put (F.CXP_LINK_CFG_poc n) (b2n (bitN c.pocMask i))
    if i = 0 then m2 else m2.clearExt n) m0
  let n := c.master
  let m1 := ((m.put (F.CXP_TRIG_CFG_enc_port n) c.encPort).put (F.CXP_TRIG_CFG_divider n) c.divider).put (F.CXP_TRIG_CFG_min_interval n)
    c.minInterval
  (((m1.put (F.CXP_TRIG_PHASE_phase n) c.phase).put (F.CXP_TIMING_CFG_hb_ms n) c.hbMs).put (F.CXP_TIMING_CFG_disc_s n) c.discS).put
    (F.CXP_TIMING_CFG_line_timeout n) c.lineTimeout

/-- The fields that a job entry fills (R518); the job takes its enable at the start of bays.
(Log: 107 DEDUCED.) -/
def Chip.fillJob (j : JobRec) (m : Chip) : Chip :=
  let m1 := ((m.put (F.RC_JOB_CTRL_enable j.job) (b2n j.enable)).put (F.RC_JOB_STAT_class j.job) j.cls).put (F.RC_JOB_STAT_reuse j.job)
    (min 65535 j.reuse)
  m1.setJobRun j.job { m1.jobRun j.job with ctrl := (m1.rd (R.RC_JOB_CTRL j.job)).toNat % 8, ctrlLate := none, applied := false,
                                              acted := (m1.rd (R.RC_JOB_CTRL j.job)).toNat % 8 }

/-- The fields that a port entry of the network record fills (R519, R583).
(Log: 107 DEDUCED.) -/
def Chip.fillPort (p : Nat) (x : NetPort) (m : Chip) : Chip :=
  let b (i : Nat) : Nat := (x.mac.getD i 0).toNat * 2 ^ (8 * (i % 4))
  let m1 := ((m.put (F.ETH_CFG_en p) (b2n (bitN x.flags 0))).put (F.ETH_CFG_speed p) (b2n (bitN x.flags 1))).put (F.ETH_CFG_ptp_tr p)
    (bitsN x.flags 3 2)
  let m2 := (m1.put (F.ETH_CFG_pd_two_step p) (b2n (bitN x.flags 4))).wr (R.ETH_MAC_LO p) (BitVec.ofNat 32 (b 0 + b 1 + b 2 + b 3))
  ((m2.put (F.ETH_MAC_HI_mac p) (b 4 + b 5)).wr (R.ETH_CAL_RX p) (BitVec.ofInt 32 x.calRx)).wr (R.ETH_CAL_TX p) (BitVec.ofInt 32 x.calTx)

/-- The fields that a valve map fills (R360, R379); a map that is not in use reads 0 in every other field.
(Log: 107 DEDUCED.) -/
def Chip.fillMap (v : MapRec) (m : Chip) : Chip :=
  if !v.en then m
  else
    let r := v.row
    let i := v.idx
    let m1 := (((m.put (F.FS_MAP_A_en r i) 1).put (F.FS_MAP_A_indet r i) (b2n v.indet)).put (F.FS_MAP_A_port r i) v.port).put
      (F.FS_MAP_A_shape r i) v.shape
    let m2 := (((m1.put (F.FS_MAP_A_valves r i) v.valves).put (F.FS_MAP_A_first_valve r i) v.firstValve).put (F.FS_MAP_COL_col0 r i)
      v.col0).put (F.FS_MAP_PITCH_pitch r i) v.pitch
    let m3 := (((m2.put (F.FS_MAP_OFFSET_offset r i) v.offset).put (F.FS_MAP_SHAPE_open_adv r i) v.openAdv).put (F.FS_MAP_SHAPE_close_ext r i)
      v.closeExt).put (F.FS_MAP_SHAPE_min_len r i) v.minLen
    (((m3.put (F.FS_MAP_CLASS_class_first r i) v.classFirst).put (F.FS_MAP_CLASS_class_last r i) v.classLast).put (F.FS_MAP_CLASS_spread r i)
      v.spread).put (F.FS_MAP_LIMIT_max_open r i) v.maxOpen

/-- The effective severity of every source starts at its configured one, except where a raise stands (R458, R474). -/
def Chip.startSeverities (m : Chip) : Chip :=
  forAll (upTo 2) (fun h m => forAll (upTo 128) (fun i m =>
    if m.flag (F.FLT_SRC_raised h i) then m else m.put (F.FLT_SRC_sev_eff h i) (m.get (F.FLT_SRC_sev_cfg h i))) m) m

/-- The pipelines of a camera take their source from LP_CTRL, and bank A with the record's calibration (R116, R123).
(Log: 63 DEDUCED.) -/
def Chip.startPipe (c : CameraRec) (m : Chip) : Chip :=
  let n := c.master
  forAll (upTo c.links) (fun i m => m.put (F.LP_CTRL_cal_bank (n + i)) 0)
    (m.setPipe n { m.pipe n with route := m.get (F.LP_CTRL_src_sel n), channel := m.get (F.LP_CTRL_replay_ch n), bankB := false })

/-- The promotion that the NV log keeps holds with the same story stick; another ends it (R469). -/
def Chip.takeRole (m : Chip) : Chip :=
  if m.boot.promoted = some m.stick.hash then (m.put F.FS_STAT_role 0).put F.PUR_MIRROR_CFG_mrole 0
  else m.onBoot fun b => { b with promoted := none }

/-- The content of a story stick applied to the registers and the stores.
(Log: 107 DEDUCED.) -/
def Chip.applyContent (i : Image) (m0 : Chip) : Chip :=
  let s : Stick := { i.content with loaded := true, hash := i.signedHash, version := i.version }
  let m1 : Chip := { m0.stickDefaults with stick := s }
  let m2 := forAll i.regs (fun l m => forAll l (fun e m => m.applyEntry e) m) m1
  let m3 := forAll s.jobs (fun j m => m.fillJob j) (forAll s.cameras (fun c m => m.fillCamera c) m2)
  let m4 := forAll s.maps (fun v m => m.fillMap v) (forAll s.net.zipIdx (fun x m => m.fillPort x.2 x.1) m3)
  let m5 := forAll (upTo 2) (fun c m => m.put (F.HK_I2C_speed c) (b2n (bitN s.i2cFast c))) m4
  let m6 := forAll s.cameras (fun c m => m.startPipe c) m5
  let m7 := forAll s.cals (fun b m => match m.gangOf (parseCal b).camera with
    | some g => m.putCal g false (parseCal b)
    | none => m) m6
  let m8 := (m7.put F.SEC_TAMPER_tamper_resp s.tamperResp).onTrust fun t =>
    { t with tcpPort := s.tcpPort, revokedCerts := s.revoked, blobKeys := true }
  m8.startSeverities.takeRole

/-- What a candidate fails for (R515 to R519, R609). -/
def Chip.loadOk (m : Chip) (i : Image) : Bool :=
  i.rangesOk && i.heads.all (fun r => r.typ != 0x30 || r.len % 12 == 0) && i.regs.all (fun l => l.all fun e => regEntryOk e && m.unitUsed e.1) && m.fieldsOk && m.contentOk

/-- The tamper response (R534). -/
def Chip.tamperAct (resp : Nat) (m : Chip) : Chip :=
  if resp = 1 then m.replaceKeys
  else if resp = 2 then
    ((m.replaceKeys).onTrust fun t => { t with blobKeys := false, segHash := [] }).coldReset 3
  else m

/-- Step 6 (R486, R496): a stick that fails leaves the module as it was; the domains in use power up. -/
def Chip.applyRecords (i : Image) (m : Chip) : Chip :=
  let m1 := m.applyContent i
  if !m1.loadOk i then m.rejectStick 0x0D 0
  else
    let m2 := forAll (upTo 60) (fun d m => if m.domainUsed d then m.setDomain d true else m) m1
    let m3 := forAll (upTo Config.bents) (fun n m =>
      if m.domainUsed n then
        (m.setEng (.bent n) { m.eng (.bent n) with lapFrom := m.now, gated := false, wakeFailed := false, wakeAt := none }).showBent n
      else m) m2
    let m4 := (m3.recommit).onBoot fun b => { b with img := none }
    if m4.trust.lidOpen && m4.get F.SEC_TAMPER_tamper_resp == 2 then m4.tamperAct 2 else m4

/-! ### The steps (R486) -/

/-- Step 2: the Joiner cluster runs the boot firmware; without a story stick the module ends in service recovery. Step 3
follows at once, so capture memory shows that it trains (R275).
(Log: 106 DEDUCED.) -/
def Chip.bootFirmware (m : Chip) : Chip :=
  let m1 := forAll [32, 33, 34, 35, 58, 59] (fun d m => m.setDomain d true) m
  let m2 : Chip := { (m1.put F.MB_STAT_fw_state 1).setPhase 2 with sup := { m1.sup with wdFrom := m.now } }
  if m.get F.RP_STRAP_boot_src < 2 then
    ((m2.put F.MB_STAT_fw_state 3).setPhase 8).onBoot fun b => { b with failed := true }
  else m2.put F.CM_STAT_state 1

/-- Step 3: the memories train as `t` says; a memory that fails to train is down (R471). -/
def Chip.trainMemory (t : MemTrain) (m : Chip) : Chip :=
  let m1 := (m.put F.HBM_STAT_trained0 (b2n t.hbm0)).put F.HBM_STAT_trained1 (b2n t.hbm1)
  let m2 := if t.hbm0 && t.hbm1 then m1 else m1.assert SrcName.hbmDown
  let m3 := m2.put F.CM_STAT_state (if t.cm then 2 else 3)
  let m4 := if t.cm then m3 else m3.assert SrcName.cmDown
  ((m4.put F.TN_STAT_state 1).setPhase 3).onBoot fun b => { b with memTrained := true }

/-- Step 7: the pin record is applied, the ports and the cameras start; a camera that is held stays down, in the standby role
every one (R86, R469). -/
def Chip.startPorts (m : Chip) : Chip :=
  let m1 := m.onBoot fun b => { b with pinsOn := true, step7At := m.now }
  let m2 := forAll (upTo Config.pegPorts) (fun p m => m.setPeg p { m.peg p with transmitting := m.flag (F.PEG_CFG_used p) }) m1
  let m3 := forAll (upTo Config.purlinPorts) (fun p m => if m.flag (F.PUR_CFG_enabled p) then m.put (F.PUR_STAT_state p) 1 else m) m2
  let m4 := forAll m3.stick.cameras (fun c m =>
    if m.camHeld c then m.setCamState c stHeld else m.beginBringUp c (if m.boot.warm then 3 else 1) false) m3
  let m5 := forAll m4.stick.fans (fun f m => m.startFan f) m4
  (((m5.put F.MB_STAT_fw_state 2).setPhase 6).refreshIn.refreshGroups).refreshOutputs

/-- Step `n` of R486 is carried out.
(Log: 1 DESIGN CHOICE.) -/
def Chip.bootStep (n : Nat) (img : Image) (t : MemTrain) (m : Chip) : Chip :=
  let m1 := match n with
    | 2 => m.bootFirmware
    | 3 => m.trainMemory t
    | 4 => (if m.boot.warm then m.put F.TN_STAT_state 1 else m).verifyImage img
    | 5 => match m.boot.img with
      | some i => m.loadSegments i.content.segs
      | none => m
    | 6 => match m.boot.img with
      | some i => m.applyRecords i
      | none => m
    | _ => m.startPorts
  if m1.boot.failed || m1.boot.step != m.boot.step then m1
  else
    let m2 := m1.onBoot fun b => { b with step := n }
    match n with
    | 4 => m2.setPhase 4
    | 5 => m2.setPhase 5
    | 6 => m2.setPhase 5
    | _ => m2

/-- The steps that are due, in order, up to `upTo_`. -/
def Chip.bootSteps (l : List Nat) (upTo_ : Nat) (img : Image) (t : MemTrain) (m : Chip) : Chip :=
  forAll l (fun n m => if m.boot.step + 1 = n ∧ n ≤ upTo_ ∧ m.boot.failed = false then m.bootStep n img t else m) m

/-! ### Commands -/

/-- OPTION_LOAD (R484, R485, R508): fuses and NOR header are read, the boot firmware of hash `fwHash` is verified; `fail` tells a
failure of these. With a reserved CLK_MODE the module does not leave option loading.
(Log: 1 DESIGN CHOICE.) -/
def optionLoad (dt : Nat) (fail : Bool) (fwHash : Nat) (m0 : Chip) : Chip :=
  let m := elapse dt m0
  if m.boot.optionDone || m.boot.failed || m.boot.step != 0 || m.boot.inReset || m.boot.inWarm then m
  else if m.get F.RP_STRAP_clk_mode < 2 then m
  else if fail then (m.setPhase 15).onBoot fun b => { b with failed := true }
  else (m.setPhase 1).onBoot fun b => { b with optionDone := true, step := 1, fwHash }

/-- COLD_START (R486): steps 2 to `last` of the start, as far as they are due; `img` is the image in the store, `t` how the memories
train. -/
def coldStart (dt : Nat) (img : Image) (t : MemTrain) (last : Nat) (m0 : Chip) : Chip :=
  let m := elapse dt m0
  if !m.boot.optionDone || m.boot.warm || m.boot.inWarm then m else m.bootSteps [2, 3, 4, 5, 6, 7] last img t

/-- WARM_RESTART (R489): the boot-firmware check (`fwOk`), then steps 4 to `last`. -/
def warmRestart (dt : Nat) (fwOk : Bool) (img : Image) (last : Nat) (m0 : Chip) : Chip :=
  let m := elapse dt m0
  if !m.boot.warm || m.boot.inWarm || m.boot.failed then m
  else if m.boot.step = 3 && m.get F.RP_BOOT_STAT_phase == 1 && !fwOk then (m.setPhase 15).onBoot fun b => { b with failed := true }
  else (if m.boot.step = 3 then m.setPhase 3 else m).bootSteps [4, 5, 6, 7] last img {}

/-- A time base stands in the first cycle of a bay (R10).
(Log: 109 DEDUCED.) -/
def atBoundary (t period : Nat) : Bool := decide (t % period < 5)

/-- Step 9 (R486, R488): bays run from this boundary; jobs take their enables.
(Log: 109 DEDUCED.) -/
def Chip.beginBays (m : Chip) : Chip :=
  let b := m.tb3 / m.period
  let m1 : Chip :=
    { m with bays := { m.bays with running := true, bay := b, ridge := b % 256, startAt := m.now, verdictDone := false }
             boot := { m.boot with step := 9, firstBay := b, everBays := true } }
  let m2 := forAll m1.stick.jobs (fun j m => m.jobBoundary b j.job) m1
  let m3 : Chip := { m2 with fire := { m2.fire with
    pilotOn := (upTo 8).foldl (fun x r => x + b2n (m2.flag (F.SCR_ROW_CFG_pilot_en r)) * 2 ^ r) 0 } }
  m3.encBayLatch.setPhase 7

/-- TB3 is loaded from TB0. -/
def Chip.loadTb3 (m : Chip) : Chip := m.onTime fun t => { t with tb3 := t.tb0 }

/-- BAYS_START (R488): bays start at the first boundary of TB0 after it is set; on a warm restart at the next boundary of the
running TB3, or, with realignment due, at the first boundary of TB0 whose index exceeds the last.
(Log: 1 DESIGN CHOICE.) -/
def baysStart (dt : Nat) (m0 : Chip) : Chip :=
  let m := elapse dt m0
  if m.boot.step ≠ 7 ∨ m.boot.failed then m
  else if !m.boot.everBays then
    if m.tb0Set && atBoundary m.tb0 m.period then m.loadTb3.beginBays else m
  else if m.flag F.RP_BOOT_FLAGS_realign_due && m.tb0Set then
    if atBoundary m.tb0 m.period && decide (m.bay < m.tb0 / m.period) then
      let m1 := (m.loadTb3.put F.RP_BOOT_FLAGS_no_time 0).put F.RP_BOOT_FLAGS_realign_due 0
      (m1.log "realigned" [m.bay, m.tb0 / m.period]).beginBays
    else m
  else if atBoundary m.tb3 m.period && decide (m.bay < m.tb3 / m.period) then m.beginBays
  else m

/-- TIME_WAIT_EXPIRY (R488): TB0 is still unset time_wait after step 7; bays start at a boundary of the unset TB3.
(Log: 109 DEDUCED.) -/
def timeWaitExpiry (dt : Nat) (m0 : Chip) : Chip :=
  let m := elapse dt m0
  if m.boot.step ≠ 7 ∨ m.boot.failed ∨ m.boot.everBays ∨ m.tb0Set ∨ m.now < m.boot.step7At + m.stick.timeWait * 1000000000 then m
  else if atBoundary m.tb3 m.period then (m.setFlag F.RP_BOOT_FLAGS_no_time).beginBays
  else m

/-- Step 10 is due: after D bays of strips, in the standby role from the first boundary after step 9.
(Log: 34 DEDUCED.) -/
def Chip.exitDue (m : Chip) : Bool :=
  m.boot.step == 9 && m.bays.running &&
  (if m.role = 2 then decide (m.boot.firstBay < m.bay)
   else match m.boot.stripBay with
     | some s => decide (s + m.depth ≤ m.bay)
     | none => false)

/-- SAFE_EXIT (R486 step 10, R490, R503): the supervisor sets the mode the start ends in.
(Log: 34 DEDUCED.) -/
def safeExit (dt : Nat) (m0 : Chip) : Chip :=
  let m := elapse dt m0
  if !m.exitDue then m
  else
    let wasSafe := m.mode == 3
    let m1 := m.onBoot fun b => { b with step := 10 }
    let m2 := (m1.put F.RP_BOOT_TIME_warm (b2n m.boot.warm)).put F.RP_BOOT_TIME_ms (min 131071 ((m.now - m.boot.startAt) / 1000000))
    let m3 :=
      if m2.sev3Asserting then m2.enterSafe none
      else if m2.role = 2 then (if m2.mode = 2 then m2 else m2.setMode 2 none)
      else
        let m3 := m2.setMode 0 none
        { (m3.wr R.SUP_DEGRADE_LO 0).wr R.SUP_DEGRADE_HI 0 with sup := { m3.sup with mask := 0 } }
    let m4 := if wasSafe && m3.mode != 3 then
        forAll (upTo Config.pegPorts) (fun p m => m.setPeg p { m.peg p with fullNext := true }) m3
      else m3
    m4.refreshOutputs

/-- A write of promote (R469, R476): a standby that has taken over, or whose mirror keep-alive is absent, becomes single; otherwise the
write is refused. -/
def Chip.promoteWrite (m : Chip) : Bool × Chip :=
  if m.role ≠ 2 ∨ !(m.flag F.SUP_MODE_took_over || m.mirrorSilent) then (false, m.setFlag F.SUP_MODE_resume_refused)
  else
    let m1 := (m.put F.FS_STAT_role 0).put F.PUR_MIRROR_CFG_mrole 0
    let m2 := (m1.onBoot fun b => { b with promoted := some m.stick.hash }).log "promoted" []
    (true, (forAll m2.stick.cameras (fun c m => m.beginBringUp c 1 false) m2).refreshOutputs)

/-- PROMOTE (R469): the signed maintainer command. -/
def promote (dt : Nat) (a : Auth) (m : Chip) : Chip := (elapse dt m).signed false false a Chip.promoteWrite

/-! ### The meanings of the commands -/

/-- PROMOTE (R469). -/
def execPromote (dt : Nat) (a : Auth) (s : State) : Answer :=
  onUnit true dt (promote dt a) s
/-- OPTION_LOAD (R484). -/
def execOptionLoad (dt : Nat) (fail : Bool) (fwHash : Nat) (s : State) : Answer :=
  onUnit true dt (optionLoad dt fail fwHash) s
/-- COLD_START (R486). -/
def execColdStart (dt : Nat) (img : Image) (t : MemTrain) (last : Nat) (s : State) : Answer :=
  onUnit true dt (coldStart dt img t last) s
/-- BAYS_START (R488). -/
def execBaysStart (dt : Nat) (s : State) : Answer :=
  onUnit true dt (baysStart dt) s
/-- TIME_WAIT_EXPIRY (R488). -/
def execTimeWaitExpiry (dt : Nat) (s : State) : Answer :=
  onUnit true dt (timeWaitExpiry dt) s
/-- SAFE_EXIT (R486). -/
def execSafeExit (dt : Nat) (s : State) : Answer :=
  onUnit true dt (safeExit dt) s
/-- WARM_RESTART (R489). -/
def execWarmRestart (dt : Nat) (fwOk : Bool) (img : Image) (last : Nat) (s : State) : Answer :=
  onUnit true dt (warmRestart dt fwOk img last) s

end Sys2Proof.Machine
end

