-- ==== Sys2Proof/Machine/Peg.lean ====
section
/-!
DEFINITION. Sys2Proof/Machine/Peg.lean: the Peg ports: sealing a slot (R19, R20, R366, R384), its frames (R382 to R387), pilot
bits (R143, R144), forced close (R366), status frames (R389), port enable (R394).
-/
namespace Sys2Proof.Machine

/-! ### Frames -/

/-- CRC-16 of R386: polynomial 0x1021, initial value 0xFFFF, no reflection, no final XOR. -/
def crc16Bit : Nat → Nat → Nat
  | 0, c => c
  | n + 1, c => crc16Bit n (if c.testBit 15 then (c * 2 % 65536) ^^^ 0x1021 else c * 2 % 65536)
def crc16 (l : List Byte) : Nat := l.foldl (fun c b => crc16Bit 8 (c ^^^ (b.toNat * 256))) 0xFFFF

/-- A frame's content with its tag and CRC (R386).
(Log: 13 DEDUCED.) -/
def sealFrame (port nonce slot : Nat) (content : List Byte) : List Byte :=
  let tag := Config.pegTag port 1 ([0x01] ++ leBytes 4 nonce ++ leBytes 6 slot ++ content)
  let body := content ++ leBytes 4 tag.toNat
  body ++ leBytes 2 (crc16 body)

/-- The bytes of an entry (R383). -/
def entryBytes (off : Nat) (opens : Bool) (first last : Nat) : List Byte :=
  let head := off * 4 + 2 * b2n opens
  if first = last then leBytes 2 (head + first * 256) else leBytes 3 (head + 1 + first * 256 + last * 65536)

/-- The bits of a valve set, valve v at bit v mod 8 of byte v / 8. -/
def valveBytes (s : BitVec 256) : List Byte := leBytes 32 s.toNat

/-- The mask of a valve range. -/
def rangeMask (first last : Nat) : BitVec 256 := BitVec.ofNat 256 ((2 ^ (last - first + 1) - 1) * 2 ^ first)

/-! ### Changes of a slot (R19, R366) -/

/-- An opening or closing change that a queued entry contributes in a slot: its offset, its target time in ns after the
slot's start, the entry's place in the queue, whether it is late. -/
structure SlotEvt where
  off : Nat
  at_ : Q
  idx : Nat
  opens : Bool
  late : Bool
  deriving DecidableEq, Repr

/-- l_peg of R19 in ns. -/
def Chip.lPeg (m : Chip) (p : Nat) : Nat := 5300 + m.get (F.PEG_TIMING_cable_ns p)

/-- The place of a change whose target lies `t` ns after the slot's start (R19): none when it belongs to a later slot; else
its offset and whether it is late. -/
def slotPlace (l : Nat) (t : Q) : Option (Nat × Bool) :=
  let x := qSub t (qOfInt l)
  if qLt x ⟨-78125, 1000⟩ then some (0, true)
  else
    let o := qRne (qMul x ⟨64, 10000⟩)
    if 64 ≤ o then none else some (o.toNat, false)

/-- The changes an entry contributes when the slot that started `since` ns ago is sealed (R352, R353: none while its encoder
port bars them). -/
def Chip.entryEvts (m : Chip) (l since : Nat) (i : Nat) (e : FEntry) : List SlotEvt :=
  let ep := m.rowEnc e.row
  if m.encBarred ep then []
  else
    let place (c : Int) : Option (Q × Nat × Bool) :=
      match m.encDue ep c with
      | none => none
      | some d =>
        let t := qAdd d (qOfInt since)
        (slotPlace l t).map fun x => (t, x.1, x.2)
    let op := if e.openSealed then none else place e.cOpen
    let opEvt : List SlotEvt := match op with
      | some (t, o, lt) => [{ off := o, at_ := t, idx := i, opens := true, late := lt }]
      | none => []
    let cl : List SlotEvt := if e.openSealed || op.isSome then
        match place e.cClose with
        | some (t, o, lt) => [{ off := o, at_ := t, idx := i, opens := false, late := lt }]
        | none => []
      else []
    opEvt ++ cl

/-- A change of a frame: a contiguous range of valves that change to one state at one offset, with the earliest target time
and the first queue place among them. -/
structure SlotChange where
  off : Nat
  opens : Bool
  first : Nat
  last : Nat
  at_ : Q
  idx : Nat
  movedIn : Bool := false
  deriving DecidableEq, Repr

/-- The driven state after the changes at offsets up to `o` (R366): a valve is open while an entry that covers it has its
opening change sealed and not its closing change. -/
def drivenAt (q : List (Nat × FEntry)) (evts : List SlotEvt) (o : Int) : BitVec 256 :=
  q.foldl (fun acc (i, e) =>
    let opened := e.openSealed || evts.any fun v => v.idx == i && v.opens && decide ((v.off : Int) ≤ o)
    let closed := e.closeSealed || evts.any fun v => v.idx == i && !v.opens && decide ((v.off : Int) ≤ o)
    if opened && !closed then acc ||| rangeMask e.vFirst e.vLast else acc) 0

/-- The target time and queue place of valve `v`'s change at offset `o`: the earliest of the entries' changes there that
cover it, or the target of a moved change, or the slot's start. The moved changes stand in their own order ahead of the
queue's entries (Log: 39 DEDUCED): the entry of a moved change may have left the queue. -/
def valveTarget (q : List (Nat × FEntry)) (evts : List SlotEvt) (moved : List (Nat × Q)) (o v : Nat) : Q × Nat :=
  let mine := evts.filter fun x => x.off == o && q.any fun y => y.1 == x.idx && decide (y.2.vFirst ≤ v) && decide (v ≤ y.2.vLast)
  let carried := if o = 0 then ((upTo moved.length).zip moved).filter fun x => x.2.1 == v else []
  let cand := (mine.map fun x => (x.at_, moved.length + x.idx)) ++ carried.map fun x => (x.2.2, x.1)
  match cand with
  | [] => (⟨0, 1⟩, 0)
  | c :: t => t.foldl (fun a b => if qLt b.1 a.1 || (qEq b.1 a.1 && decide (b.2 < a.2)) then b else a) c

/-- Group the changed valves of one offset into contiguous ranges of one new state (R366). -/
def groupAt (q : List (Nat × FEntry)) (evts : List SlotEvt) (moved : List (Nat × Q)) (o : Nat) (before after : BitVec 256) :
    List SlotChange :=
  (upTo 256).foldl (fun (acc : List SlotChange) v =>
    if before.getLsbD v == after.getLsbD v then acc
    else
      let (t, i) := valveTarget q evts moved o v
      let c : SlotChange := { off := o, opens := after.getLsbD v, first := v, last := v, at_ := t, idx := i,
                              movedIn := o == 0 && moved.any fun x => x.1 == v }
      match acc.reverse with
      | g :: r =>
        if g.last + 1 = v ∧ g.opens = c.opens then
          let early := qLt c.at_ g.at_ || (qEq c.at_ g.at_ && decide (c.idx < g.idx))
          (({ g with last := v, at_ := if early then c.at_ else g.at_, idx := if early then c.idx else g.idx,
                     movedIn := g.movedIn || c.movedIn } : SlotChange) :: r).reverse
        else acc ++ [c]
      | [] => [c]) []

/-- The changes of a slot in the order of R20: target time, then queue order.
(Log: 39 DEDUCED.) -/
def slotChanges (q : List (Nat × FEntry)) (evts : List SlotEvt) (moved : List (Nat × Q)) (sent : BitVec 256) :
    List SlotChange :=
  let offs := (upTo 64).filter fun o => o == 0 || evts.any fun e => e.off == o
  let all := offs.foldl (fun (acc : List SlotChange × BitVec 256) (o : Nat) =>
    let after := drivenAt q evts (o : Int)
    (acc.1 ++ groupAt q evts moved o acc.2 after, after)) ([], sent)
  sortBy (fun a b => qLt a.at_ b.at_ || (qEq a.at_ b.at_ && decide (a.idx ≤ b.idx))) all.1

/-- The entry bytes a change takes. -/
def changeSize (c : SlotChange) : Nat := if c.first = c.last then 2 else 3

/-- Fill a frame's entries in order until the next change would exceed 24 entries or the entry bytes; it and all later
ones are moved (R384).
(Log: 39 DEDUCED.) -/
def fillFrame : Nat → Nat → List SlotChange → List SlotChange × List SlotChange
  | _, _, [] => ([], [])
  | 0, _, l => ([], l)
  | n + 1, bytes, c :: t =>
    if changeSize c ≤ bytes then
      let r := fillFrame n (bytes - changeSize c) t
      (c :: r.1, r.2)
    else ([], c :: t)

/-- The driven state after a list of changes.
(Log: 39 DEDUCED.) -/
def applyChanges (s : BitVec 256) (l : List SlotChange) : BitVec 256 :=
  l.foldl (fun s c => if c.opens then s ||| rangeMask c.first c.last else s &&& ~~~(rangeMask c.first c.last)) s

/-! ### Pilot bits (R143, R144, R385) -/

def Chip.pilotLead (m : Chip) (r : Nat) : Nat := m.get (F.SCR_ROW_CFG_pilot_lead r)
/-- pilot_en as applied at the last bay boundary (R150). -/
def Chip.pilotEn (m : Chip) (r : Nat) : Bool := m.fire.pilotOn.testBit r

/-- The predicted time of an opening count is within the lead of the slot that started `since` ns ago. -/
def Chip.inLead (m : Chip) (p since row : Nat) (c : Int) : Bool :=
  if m.encBarred (m.rowEnc row) then false
  else match m.encDue (m.rowEnc row) c with
    | none => false
    | some d => qLe (qAdd d (qOfInt since)) (qOfInt ((m.lPeg p + m.pilotLead row * 1000 : Nat) : Int))

def Chip.resvPilot (m : Chip) (p since : Nat) (r : Resv) : Bool :=
  r.port == p && decide (0 < m.pilotLead r.row) && m.pilotEn r.row && m.inLead p since r.row r.cOpen
def Chip.entryPilot (m : Chip) (p since : Nat) (e : FEntry) : Bool :=
  decide (0 < m.pilotLead e.row) && m.pilotEn e.row && (e.openSealed || m.inLead p since e.row e.cOpen)

/-- The pilot bits of a slot, from the reservations and the entries that have not closed. -/
def Chip.pilotBits (m : Chip) (p since : Nat) : BitVec 256 :=
  let a := (m.fire.resvs.filter fun r => m.resvPilot p since r).foldl (fun s r => s ||| rangeMask r.vFirst r.vLast) (0 : BitVec 256)
  ((m.queue p).filter fun e => m.entryPilot p since e).foldl (fun s e => s ||| rangeMask e.vFirst e.vLast) a

/-- The row of the map that covers a valve of a port. -/
def Chip.valveRow (m : Chip) (p v : Nat) : Option Nat :=
  (upTo 8).find? fun r => (m.rowMaps r).any fun x =>
    x.port == p && decide (x.firstValve ≤ v) && decide (v < x.firstValve + x.valves)

/-- The pilot bits that outlast their entries (R144): a bit falls only in the frame that carries the closing change, so a
valve whose closing change does not fit into this frame keeps its bit, if its row raises pilot bits at all.
(Log: 39 DEDUCED.) -/
def Chip.heldBits (m : Chip) (p : Nat) (beyond : List SlotChange) : BitVec 256 :=
  (beyond.filter fun c => !c.opens).foldl (fun s c =>
    (upTo (c.last + 1 - c.first)).foldl (fun s k =>
      match m.valveRow p (c.first + k) with
      | some r => if 0 < m.pilotLead r ∧ m.pilotEn r then s ||| rangeMask (c.first + k) (c.first + k) else s
      | none => s) s) 0

/-- The map that covers a valve of a port (R360), of any row. -/
def Chip.coverMap (m : Chip) (p v : Nat) : Option ValveMap :=
  ((upTo 8).flatMap fun r => m.rowMaps r).find? fun x => x.port == p && decide (x.firstValve ≤ v) && decide (v < x.firstValve + x.valves)
def Chip.valveShape (m : Chip) (p v : Nat) : Nat := ((m.coverMap p v).map (·.shape)).getD 0

def Chip.pilotFrame (m : Chip) (p slot : Nat) (bits : BitVec 256) (zero : Bool) : List Byte :=
  let j := slot % 16
  let shapes := (upTo 8).map fun k => BitVec.ofNat 8 (m.valveShape p (16 * j + 2 * k) + 16 * m.valveShape p (16 * j + 2 * k + 1))
  let hdr := 0x80 + (if m.role = 2 then 0x20 else 0)
  [BitVec.ofNat 8 hdr] ++ leBytes 3 (slot % 2 ^ 24) ++ (if zero then leBytes 40 0 else valveBytes bits ++ shapes)

/-! ### Forced close (R366, R368) -/

/-- The limit of a valve in ns. -/
def Chip.maxOpen (m : Chip) (p v : Nat) : Nat := ((m.coverMap p v).map (·.maxOpen)).getD 1000 * 1000000

/-- An entry holds a valve driven open.
(Log: 38 DEDUCED.) -/
def holdsValve (v : Nat) (e : FEntry) : Bool := e.openSealed && decide (e.vFirst ≤ v) && decide (v ≤ e.vLast)

/-- A valve of a port, held by some entry, has been driven open for its limit.
(Log: 38 DEDUCED.) -/
def Chip.overOpen (m : Chip) (p v : Nat) : Bool :=
  ((m.peg p).openSince.any fun x => x.1 == v && decide (x.2 + m.maxOpen p v ≤ m.now)) && (m.queue p).any (holdsValve v)

/-- Close a valve by force: every entry that holds it is ended with status truncated, and the event is counted, flagged
and raised (R366). -/
def Chip.forceValve (p v : Nat) (m : Chip) : Chip :=
  let gone := (m.queue p).filter (holdsValve v)
  let m1 := m.setQueue p ((m.queue p).filter fun e => !holdsValve v e)
  let m2 := forAll gone (fun e m => m.entryCancelled { e with truncated := true }) m1
  let m3 := m2.setPeg p { m2.peg p with openSince := (m2.peg p).openSince.filter fun x => x.1 != v }
  (((m3.bump (R.FS_Q_CNT_FORCED p)).setFlag F.FS_STAT_forced_close)).raise SrcName.firingQueue

/-- The forced closes that are due at a seal (R366): the first slot sealed at or after a valve's limit closes it. One close
may end the entries that hold another valve, which is then no longer held. -/
def Chip.forceDue (p : Nat) (m : Chip) : Chip :=
  forAll ((m.peg p).openSince.map (·.1)) (fun v m => if m.overOpen p v then m.forceValve p v else m) m

/-! ### SLOT_SEAL (R19, R381 to R387, R394) -/

/-- port_en takes effect at the seal (R394). -/
def Chip.applyPortEn (p : Nat) (m : Chip) : Chip :=
  let pp := m.peg p
  let en := m.flag (F.PEG_CTRL_port_en p)
  if en == pp.enApplied then m
  else if en then m.setPeg p { pp with enApplied := true, fullNext := true, sent := 0, moved := [], openSince := [] }
  else ((m.setPeg p { pp with enApplied := false }).cancelIn p fun _ => true).dropResvs fun r => r.port == p

/-- The frames of R387: close-all, with `safe` in SAFE, and a zero pilot frame. -/
def Chip.sealClosed (p slot : Nat) (safe : Bool) (m : Chip) : Chip :=
  let hdr := 0x40 + (if m.role = 2 then 0x20 else 0) + 0x10 + (if safe then 4 else 0)
  let content := [BitVec.ofNat 8 hdr] ++ leBytes 3 (slot % 2 ^ 24) ++ [0] ++ leBytes 3 (slot / 2 ^ 24 % 2 ^ 24) ++ leBytes 32 0
  let nonce := (m.rd (R.PEG_NONCE p)).toNat
  let m1 := (m.emit (.pegTimed p slot (sealFrame p nonce slot content))).emit
    (.pegPilot p slot (sealFrame p nonce slot (m.pilotFrame p slot 0 true)))
  let m2 := ((m1.bump (R.PEG_CNT_FRAMES p)).bump (R.PEG_CNT_FULL p)).put (F.PEG_STAT_state p) (if safe then 3 else 2)
  m2.setPeg p { m2.peg p with sent := 0, moved := [], openSince := [], fullNext := false }

/-- Mark the queued entries as the seal leaves them: their changes sealed, late and overflow flags set.
(Log: 39 DEDUCED.) -/
def sealEntry (evts : List SlotEvt) (beyond : List SlotChange) (i : Nat) (e : FEntry) : FEntry :=
  let mine := evts.filter fun v => v.idx == i
  { e with
    openSealed := e.openSealed || mine.any (·.opens)
    closeSealed := e.closeSealed || mine.any fun v => !v.opens
    firedLate := e.firedLate || mine.any (·.late)
    overflow := e.overflow || mine.any fun v => beyond.any fun c => c.off == v.off && overlapN c.first c.last e.vFirst e.vLast }

/-- The normal frames of a slot. In the first slot sealed after the port is enabled (`rise`) no valve is open (R394): a change
that falls due there is taken by the next slot, late.
(Log: 39 DEDUCED.) -/
def Chip.sealNormal (p slot since : Nat) (rise : Bool) (m : Chip) : Chip :=
  let pp := m.peg p
  let q := (upTo (m.queue p).length).zip (m.queue p)
  let l := m.lPeg p
  let evts := if rise then [] else q.flatMap fun x => m.entryEvts l since x.1 x.2
  let full := slot % 64 == 0 || pp.fullNext
  let moved : List (Nat × Q) := pp.moved.map fun x => (x.1, ⟨x.2 - (slot : Int) * 10000 * 65536, 65536⟩)
  let changes := slotChanges q evts moved pp.sent
  let atZero := if full then changes.filter fun c => c.off == 0 else []
  let (placed, beyond) := fillFrame 24 (if full then 12 else 48) (if full then changes.filter fun c => c.off != 0 else changes)
  let state := applyChanges pp.sent atZero
  let sent := applyChanges state placed
  let ovfBit := (atZero ++ placed).any (·.movedIn)
  let hdr := (if full then 0x40 else 0) + (if m.role = 2 then 0x20 else 0) + (if ovfBit then 8 else 0)
  let content := [BitVec.ofNat 8 hdr] ++ leBytes 3 (slot % 2 ^ 24) ++ [BitVec.ofNat 8 placed.length] ++
    (if full then leBytes 3 (slot / 2 ^ 24 % 2 ^ 24) ++ valveBytes state else []) ++
    placed.flatMap fun c => entryBytes c.off c.opens c.first c.last
  let late := (evts.filter (·.late)).length
  let movedOut : List (Nat × Int) := beyond.flatMap fun c => (upTo (c.last - c.first + 1)).map fun k =>
    (c.first + k, ((pp.moved.find? fun x => x.1 == c.first + k).map (·.2)).getD
      ((slot : Int) * 10000 * 65536 + qFloor (qMul c.at_ ⟨65536, 1⟩)))
  let through := (0 :: evts.map (·.off)).map fun o => drivenAt q evts (o : Int)
  let opened := (upTo 256).filterMap fun v =>
    if !(drivenAt q evts 63).getLsbD v then none
    else if through.all (·.getLsbD v) then some ((pp.openSince.find? fun x => x.1 == v).getD (v, m.now - since))
    else some (v, m.now - since)
  let q' := q.map fun x => sealEntry evts beyond x.1 x.2
  let m1 := (m.setQueue p (q'.filter fun e => !e.closeSealed)).setPeg p
    { pp with sent, moved := movedOut, openSince := opened, fullNext := false }
  let m2 := forAll (q'.filter (·.closeSealed)) (fun e m => (m.bump (R.FS_Q_CNT_OUT p)).entryLeaves e) m1
  let m3 := (m2.bumpBy (R.FS_Q_CNT_LATE p) late).setFlagIf (0 < late) F.FS_STAT_fired_late
  let m4 := (m3.bumpBy (R.FS_Q_CNT_OVF p) beyond.length).setFlagIf (!beyond.isEmpty) F.FS_STAT_overflow
  let m5 := ((m4.bump (R.PEG_CNT_FRAMES p)).bumpIf full (R.PEG_CNT_FULL p)).bumpIf ovfBit (R.PEG_CNT_OVF p)
  let bits := m5.pilotBits p since ||| m5.heldBits p beyond
  let nonce := (m.rd (R.PEG_NONCE p)).toNat
  let m6 := (m5.emit (.pegTimed p slot (sealFrame p nonce slot content))).emit
    (.pegPilot p slot (sealFrame p nonce slot (m5.pilotFrame p slot bits false)))
  let m7 := m6.onFire fun f => { f with resvs := f.resvs.map fun r => if m5.resvPilot p since r then { r with raised := true } else r }
  m7.put (F.PEG_STAT_state p) 1

/-- SLOT_SEAL: at the start of a slot the port seals its changes and sends its two frames. A slot is sealed once. -/
def slotSeal (dt p : Nat) (m0 : Chip) : Chip :=
  let m := elapse dt m0
  let slot := m.tb3 / 10000 % 2 ^ 48
  let pp := m.peg p
  if !pp.transmitting || (pp.everSealed && slot == pp.lastSlot) then m
  else
    let m1 := m.applyPortEn p
    let m2 := m1.setPeg p { m1.peg p with everSealed := true, lastSlot := slot, answered := false }
    if m2.mode = 3 then m2.sealClosed p slot true
    else if !(m2.peg p).enApplied || m2.follower then m2.sealClosed p slot false
    else (m2.forceDue p).sealNormal p slot (m2.tb3 % 10000) (!pp.enApplied)

/-- FORCED_CLOSE: every entry that holds the valve is ended with status truncated; the valves close in the next sealed
slot.
(Log: 38 DEDUCED.) -/
def forcedClose (dt p v : Nat) (m0 : Chip) : Chip :=
  let m := elapse dt m0
  if m.overOpen p v then m.forceValve p v else m

/-! ### Status frames (R388, R389, R393) -/

/-- What the bank reports of itself (R389): bits 0 and 1 set their sticky bits; bits 2 to 5 set theirs in every accepted
status. The Peg-bank source goes up on a fault that the last accepted status did not report (R458: its rising edge), and
on each report of a close by timeout, which is an event since the last status (R388); `old` is the fault flags of the
status accepted before.
(Log: 29 DEDUCED.) -/
def Chip.bankFlags (p old : Nat) (f : StatusFrame) (m : Chip) : Chip :=
  let m1 := ((m.setFlagIf (f.flags.testBit 0) (F.PEG_STAT_bank_gap p)).bumpIf (f.flags.testBit 0) (R.PEG_CNT_GAP p)).setFlagIf
    (f.flags.testBit 1) (F.PEG_STAT_bank_tag_fail p)
  let m2 := (((m1.setFlagIf (f.flags.testBit 2) (F.PEG_STAT_supply_fault p)).setFlagIf (f.flags.testBit 3)
    (F.PEG_STAT_overtemp p)).setFlagIf (f.flags.testBit 4) (F.PEG_STAT_drive_fault p)).setFlagIf (f.flags.testBit 5)
    (F.PEG_STAT_timeout_close p)
  m2.raiseIf (f.flags.testBit 5 || [2, 3, 4].any fun k => f.flags.testBit k && !(old.testBit k)) SrcName.pegBank

/-- A standby that learns it drives a bank (R468): FIRE-OUT and took_over. -/
def Chip.takeover (m : Chip) : Chip :=
  if m.flag F.SUP_MODE_took_over then m else (m.enterFireOut none).put F.SUP_MODE_took_over 1

/-- STATUS_FRAME: the port accepts or rejects a status frame of the slot last sealed, with the outcome of its CRC and tag
checks. A primary's Peg-takeover source goes up when the reported active changes to 0 (R389, R458).
(Log: 29 DEDUCED, 43 DEDUCED.) -/
def statusFrame (dt p : Nat) (f : StatusFrame) (m0 : Chip) : Chip :=
  let m := elapse dt m0
  let pp := m.peg p
  if !pp.everSealed || pp.answered || (pp.lastSlot + 1) * 10000 ≤ m.tb3 then m
  else if !f.crcOk then (m.setFlag (F.PEG_STAT_st_crc p)).bump (R.PEG_CNT_ST_CRC p)
  else if !f.tagOk then (m.setFlag (F.PEG_STAT_st_tag_fail p)).bump (R.PEG_CNT_ST_TAG p)
  else if f.bankId ≠ m.get (F.PEG_CFG_bank_id p) then m.setFlag (F.PEG_STAT_id_mismatch p)
  else if f.seq ≠ pp.lastSlot % 2 ^ 24 then m
  else
    let newNonce := f.nonce != (m.rd (R.PEG_NONCE p)).toNat
    let ask := f.flags.testBit 0 || f.flags.testBit 1 || f.flags.testBit 7 || newNonce
    let m1 := m.setPeg p { pp with answered := true, missRun := 0, fullNext := pp.fullNext || ask, faultFlags := f.flags }
    let m2 := ((m1.wr (R.PEG_NONCE p) (BitVec.ofNat 32 f.nonce)).setFlagIf newNonce (F.PEG_STAT_bank_reset p)).bump (R.PEG_CNT_STATUS p)
    let m3 := (m2.put (F.PEG_STAT_active p) (if f.active then 1 else 2)).wr (R.PEG_VFAULT p (f.slice % 8)) (BitVec.ofNat 32 f.faults)
    let m4 := m3.bankFlags p pp.faultFlags f
    let m5 := if m4.role = 1 && !f.active then
      (m4.setFlag (F.PEG_STAT_takeover_seen p)).raiseIf (m.get (F.PEG_STAT_active p) != 2) SrcName.pegTakeover else m4
    if m5.role = 2 && f.active then m5.takeover else m5

/-- STATUS_DEADLINE: at the next slot's start, a sealed slot without an accepted status is missing; eight in a row set
silent and raise Peg-bank.
(Log: 42 DESIGN CHOICE.) -/
def statusDeadline (dt p : Nat) (m0 : Chip) : Chip :=
  let m := elapse dt m0
  let pp := m.peg p
  if !pp.everSealed || pp.answered || m.tb3 < (pp.lastSlot + 1) * 10000 then m
  else
    let run := pp.missRun + 1
    let m1 := ((m.setPeg p { pp with answered := true, missRun := run }).setFlag (F.PEG_STAT_st_missing p)).bump (R.PEG_CNT_ST_MISS p)
    if run = 8 then (m1.setFlag (F.PEG_STAT_silent p)).raise SrcName.pegBank else m1

/-- PEG_PORT_EN (R394): the written value takes effect at the next seal. -/
def pegPortEn (p : Nat) (en : Bool) (m : Chip) : Chip := m.put (F.PEG_CTRL_port_en p) (b2n en)

/-- FULL_STATE_REQUEST (R395): the next timed frame is a full-state frame. -/
def fullStateRequest (p : Nat) (m : Chip) : Chip := m.setPeg p { m.peg p with fullNext := true }

/-! ### The meanings of the commands -/

/-- SLOT_SEAL (R19). -/
def execSlotSeal (dt p : Nat) (s : State) : Answer :=
  onUnit (decide (p < Config.pegPorts)) dt (slotSeal dt p) s
/-- FORCED_CLOSE (R366). -/
def execForcedClose (dt p v : Nat) (s : State) : Answer :=
  onUnit (decide (p < Config.pegPorts) && decide (v < 256)) dt (forcedClose dt p v) s
/-- STATUS_FRAME (R389). -/
def execStatusFrame (dt p : Nat) (f : StatusFrame) (s : State) : Answer :=
  onUnit (decide (p < Config.pegPorts)) dt (statusFrame dt p f) s
/-- STATUS_DEADLINE (R389). -/
def execStatusDeadline (dt p : Nat) (s : State) : Answer :=
  onUnit (decide (p < Config.pegPorts)) dt (statusDeadline dt p) s
/-- PEG_PORT_EN (R394). -/
def execPegPortEn (dt p : Nat) (en : Bool) (s : State) : Answer :=
  onUnit (decide (p < Config.pegPorts)) dt (fun m => pegPortEn p en (elapse dt m)) s
/-- FULL_STATE_REQUEST (R395). -/
def execFullStateRequest (dt p : Nat) (s : State) : Answer :=
  onUnit (decide (p < Config.pegPorts)) dt (fun m => fullStateRequest p (elapse dt m)) s

end Sys2Proof.Machine
end

