-- ==== Sys2Proof/Machine/Trust.lean ====
section
/-!
DEFINITION. Sys2Proof/Machine/Trust.lean: the lid, the owner commands that write fuses, debug unlock, service sessions with their
challenges and results, attestation, the NV log, boundary scan (R506 to R542).
-/
namespace Sys2Proof.Machine

/-! ### Tamper (R534) -/

/-- TAMPER_EVENT (R534, R538): LID_SW_N has been high for 10 ms (`isOpen`), or is low again. -/
def tamperEvent (dt : Nat) (isOpen : Bool) (m0 : Chip) : Chip :=
  let m := elapse dt m0
  let m1 := (m.onTrust fun t => { t with lidOpen := isOpen }).put F.SEC_STAT_tamper_live (b2n isOpen)
  if !isOpen || m.trust.lidOpen then m1
  else
    let m2 := (((m1.setFlag F.SEC_STAT_tamper_seen).bump R.SEC_CNT_TAMPER).log "tamper" []).raise SrcName.tamper
    m2.tamperAct (m2.get F.SEC_TAMPER_tamper_resp)

/-! ### Fuses (R507, R509, R523) -/

def Chip.onFuses (f : FuseState → FuseState) (m : Chip) : Chip := m.onTrust fun t => { t with fuses := f t.fuses }

/-- The module started in service recovery (R483, R509): with BOOT_SRC 01, or with 00 where the fuse makes it that.
(Log: 106 DEDUCED.) -/
def Chip.inRecovery (m : Chip) : Bool :=
  m.get F.RP_BOOT_STAT_phase == 8 && (m.get F.RP_STRAP_boot_src == 1 || m.flag F.RP_STRAP_mfg_locked)

/-- COMMISSIONING (R509): the one command of lifecycle tested, in service recovery only; `hash` is the hash of the two public keys that
the command carries and is signed by.
(Log: 106 DEDUCED.) -/
def commissioning (dt : Nat) (a : Auth) (hash : Nat) (m : Chip) : Chip :=
  (elapse dt m).signedIn [1] true false a fun m =>
    if !m.inRecovery then (false, m)
    else (true, m.onFuses fun f => { f with slots := [hash], active := 0, lifecycle := 3 })

/-- OWNER_ROTATION (R509): the next slot is written, the active one revoked; none after slot 3. -/
def ownerRotation (dt : Nat) (a : Auth) (hash : Nat) (m : Chip) : Chip :=
  (elapse dt m).signed true false a fun m =>
    if 3 ≤ m.trust.fuses.active then (false, m)
    else (true, m.onFuses fun f =>
      { f with slots := f.slots.take (f.active + 1) ++ [hash], revoked := f.revoked ++ [f.active], active := f.active + 1 })

/-- DECOMMISSIONING (R509). -/
def decommissioning (dt : Nat) (a : Auth) (m : Chip) : Chip :=
  (elapse dt m).signed true false a fun m => (true, m.onFuses fun f => { f with lifecycle := 7 })

/-- ANTI_ROLLBACK_ADVANCE (R523): to `v`, above the counter and at most the version of the running stick. `written` is the number of
bits that the security unit writes: a reset can cut it short, and the bits written stand.
(Log: 110 DEDUCED.) -/
def antiRollbackAdvance (dt : Nat) (a : Auth) (v written : Nat) (m : Chip) : Chip :=
  (elapse dt m).signed true false a fun m =>
    let c := m.trust.fuses.counter
    if v ≤ c ∨ 128 < v ∨ !m.stick.loaded ∨ m.stick.version < v then (false, m)
    else (true, m.onFuses fun f => { f with counter := min v (c + written) })

/-! ### Debug (R536, R537) -/

/-- DEBUG_UNLOCK (R537): a cold reset with the response of tamper_resp 10; the transport key is withheld, the named scope opens. -/
def debugUnlock (dt : Nat) (a : Auth) (sill ridge : Bool) (m : Chip) : Chip :=
  (elapse dt m).signed true false a fun m =>
    let m1 := m.onTrust fun t =>
      { t with debugSill := t.debugSill || sill, debugRidge := t.debugRidge || ridge, keyWithheld := true }
    (true, (m1.put F.SEC_STAT_debug_unlocked 1).tamperAct 2)

/-- An instruction of the JTAG port (R536). -/
def jtagNames : List String := ["BYPASS", "IDCODE", "SAMPLE/PRELOAD", "EXTEST"]

/-- EXTEST drives pins only in service recovery and in SAFE (R536). -/
def Chip.extestDrives (m : Chip) : Bool := m.inRecovery && m.mode == 3

/-- BOUNDARY_SCAN_INSTRUCTION (R536): `pins` are the J4 positions and levels that EXTEST shifts in; what the register of another
instruction answers is a free value.
(Log: 110 DEDUCED.) -/
def boundaryScanInstruction (dt : Nat) (instr : Nat) (pins : List (Nat × Bool)) (m0 : Chip) : Chip :=
  let m := elapse dt m0
  let bypass (m : Chip) : Chip := m.emit (.send "jtag" 0 "BYPASS" [])
  match instr with
  | 0 => bypass m
  | 3 => if m.extestDrives then forAll pins (fun p m => m.emit (.pin "J4" p.1 p.2)) m else bypass m
  | n =>
    let (v, m1) := m.draw
    m1.emit (.send "jtag" 0 (jtagNames.getD n "BYPASS") [v])

/-! ### Sessions (R530, R568, R572) -/

/-- A session ends, with its subscriptions and what it waits for. -/
def Chip.closeSession (id : Nat) (m : Chip) : Chip :=
  let m1 := m.onTrust fun t => { t with sessions := t.sessions.filter fun s => s.id != id }
  { m1 with subs := m1.subs.filter fun q => q.session != id
            tenon := { m1.tenon with waits := m1.tenon.waits.filter fun w => w.session != id } }

/-- SESSION_OPEN (R530, R531): a TLS session on a port that is up, with a client certificate of the service authority that is not
revoked; at most eight at once. `level` is 0 reader, 1 operator, 2 maintainer. `certOk` tells whether the handshake and the certificate are accepted.
(Log: 112 DEDUCED.) -/
def sessionOpen (dt p level certHash : Nat) (certOk : Bool) (m0 : Chip) : Chip :=
  let m := elapse dt m0
  if m.get F.MB_STAT_fw_state = 0 ∨ m.get (F.ETH_STAT_state p) ≠ 1 ∨ 8 ≤ m.trust.sessions.length ∨ 2 < level ∨ !certOk ∨
      m.trust.revokedCerts.contains certHash then m.emit (.send "tls" p "refused" [])
  else
    let s : Session := { id := m.trust.nextSession, port := p, level, lastAt := m.now }
    ((m.onTrust fun t => { t with sessions := t.sessions ++ [s], nextSession := t.nextSession + 1 }).bump R.SEC_CNT_SESSIONS).emit
      (.send "tls" p "open" [s.id, level])

/-- SESSION_CLOSE (R572): the client closes the session. -/
def sessionClose (dt id : Nat) (m : Chip) : Chip := (elapse dt m).closeSession id

/-- SESSION_IDLE_TIMEOUT (R530): a session without a message for 300 s is closed. -/
def sessionIdleTimeout (dt id : Nat) (m0 : Chip) : Chip :=
  let m := elapse dt m0
  match m.session id with
  | none => m
  | some s => if s.lastAt + 300000000000 ≤ m.now then m.closeSession id else m

/-! ### Challenges and results (R532) -/

/-- The challenges of a session that have not lapsed. -/
def liveChallenges (now : Nat) (s : Session) : List (Nat × Nat) := s.challenges.filter fun c => decide (now < c.2 + 60000000000)

/-- CHALLENGE (R532, R570): a fresh 128-bit challenge, a free value; at most 16 outstanding.
(Log: 110 DEDUCED.) -/
def challenge (dt id : Nat) (m0 : Chip) : Chip :=
  let m := (elapse dt m0).touch id
  match m.session id with
  | none => m
  | some s =>
    if s.level = 0 then m.answer id "status" [1]
    else if 16 ≤ (liveChallenges m.now s).length then m.answer id "status" [2]
    else
      let (v, m1) := m.draw
      let c := v % 2 ^ 128
      (m1.setSession { s with challenges := liveChallenges m.now s ++ [(c, m.now)] }).answer id "challenge" [c]

/-- CHALLENGE_EXPIRY (R532): challenges not used within 60 s lapse. -/
def challengeExpiry (dt : Nat) (m0 : Chip) : Chip :=
  let m := elapse dt m0
  m.onTrust fun t => { t with sessions := t.sessions.map fun s => { s with challenges := liveChallenges m.now s } }

/-- RESULT (R532, R570): the stored result of a command, by its challenge. -/
def result (dt id c : Nat) (m0 : Chip) : Chip :=
  let m := (elapse dt m0).touch id
  match m.session id with
  | none => m
  | some s =>
    if s.level = 0 then m.answer id "status" [1]
    else match m.trust.results.find? fun r => r.1 == c with
      | some r => m.answer id "result" [r.2]
      | none => m.answer id "status" [3]

/-! ### Attestation (R535) -/

/-- The first 0x140 bytes of the report.
(Log: 110 DEDUCED.) -/
def Chip.report (m : Chip) (nonce : List Byte) : List Byte :=
  let f := m.trust.fuses
  let flags := b2n (m.flag F.SEC_STAT_debug_unlocked) + 2 * b2n (m.flag F.SEC_STAT_tamper_seen) +
    4 * b2n (m.get F.RP_BOOT_STAT_phase == 9) + 8 * b2n m.inRecovery
  let valid := (m.trust.segHash.map (·.1)).eraseDups.foldl (fun x s => x + 2 ^ s) 0
  leBytes 32 (ofLeBytes nonce) ++ leBytes 8 Config.serial.toNat ++
    leBytes 4 (0xA1000000 + Config.ucodeLevel.toNat * 2 ^ 12 + Config.fwLevel.toNat) ++ leBytes 1 (f.lifecycle * 16 + f.active * 4) ++
    leBytes 1 f.counter ++ leBytes 2 flags ++ leBytes 48 (f.slots.getD f.active 0) ++ leBytes 48 m.boot.fwHash ++
    leBytes 48 (if m.stick.loaded then m.stick.hash else 0) ++ leBytes 32 valid ++ leBytes 8 m.now ++ leBytes 88 0

/-- ATTEST (R535): the report with its signature, a free value, at any level.
(Log: 13 DEDUCED, 110 DEDUCED.) -/
def attest (dt id : Nat) (nonce : List Byte) (m0 : Chip) : Chip :=
  let m := (elapse dt m0).touch id
  match m.session id with
  | none => m
  | some _ =>
    let (v, m1) := m.draw
    m1.answer id "report" ((m.report nonce ++ leBytes 96 v).map (·.toNat))

/-! ### The NV log (R526, R570) -/

/-- LOG_READ (R526, R570): `count` entries from `first` on, decrypted; an entry of `bad` fails its tag, is left out and counts. -/
def logRead (dt id first count : Nat) (bad : List Nat) (m0 : Chip) : Chip :=
  let m := (elapse dt m0).touch id
  match m.session id with
  | none => m
  | some _ =>
    if count = 0 ∨ 1024 < count then m.answer id "status" [4]
    else
      let l := if m.get F.RP_STRAP_boot_src = 2 then [] else m.nvLog.filter fun e => decide (first ≤ e.seq) && decide (e.seq < first + count)
      let lost := l.filter fun e => bad.contains e.seq
      let m1 := (m.bumpBy R.SEC_CNT_LOG_AUTH lost.length).setFlagIf (!lost.isEmpty) F.SEC_STAT_log_auth_fail
      m1.reply id (.nvLog id (l.filter fun e => !bad.contains e.seq))

/-! ### The meanings of the commands -/

/-- TAMPER_EVENT (R534). -/
def execTamperEvent (dt : Nat) (isOpen : Bool) (s : State) : Answer :=
  onUnit true dt (tamperEvent dt isOpen) s
/-- COMMISSIONING (R509). -/
def execCommissioning (dt : Nat) (a : Auth) (hash : Nat) (s : State) : Answer :=
  onUnit true dt (commissioning dt a hash) s
/-- OWNER_ROTATION (R509). -/
def execOwnerRotation (dt : Nat) (a : Auth) (hash : Nat) (s : State) : Answer :=
  onUnit true dt (ownerRotation dt a hash) s
/-- DECOMMISSIONING (R509). -/
def execDecommissioning (dt : Nat) (a : Auth) (s : State) : Answer :=
  onUnit true dt (decommissioning dt a) s
/-- ANTI_ROLLBACK_ADVANCE (R523). -/
def execAntiRollbackAdvance (dt : Nat) (a : Auth) (v written : Nat) (s : State) : Answer :=
  onUnit true dt (antiRollbackAdvance dt a v written) s
/-- DEBUG_UNLOCK (R537). -/
def execDebugUnlock (dt : Nat) (a : Auth) (sill ridge : Bool) (s : State) : Answer :=
  onUnit true dt (debugUnlock dt a sill ridge) s
/-- SESSION_OPEN (R530). -/
def execSessionOpen (dt p level certHash : Nat) (certOk : Bool) (s : State) : Answer :=
  onUnit (decide (p < Config.ethPorts)) dt (sessionOpen dt p level certHash certOk) s
/-- SESSION_IDLE_TIMEOUT (R530). -/
def execSessionIdleTimeout (dt id : Nat) (s : State) : Answer :=
  onUnit true dt (sessionIdleTimeout dt id) s
/-- CHALLENGE_EXPIRY (R532). -/
def execChallengeExpiry (dt : Nat) (s : State) : Answer :=
  onUnit true dt (challengeExpiry dt) s
/-- CHALLENGE (R532). -/
def execChallenge (dt id : Nat) (s : State) : Answer :=
  onUnit true dt (challenge dt id) s
/-- RESULT (R532). -/
def execResult (dt id c : Nat) (s : State) : Answer :=
  onUnit true dt (result dt id c) s
/-- ATTEST (R535). -/
def execAttest (dt id : Nat) (nonce : List Byte) (s : State) : Answer :=
  onUnit true dt (attest dt id nonce) s
/-- LOG_READ (R570). -/
def execLogRead (dt id first count : Nat) (bad : List Nat) (s : State) : Answer :=
  onUnit true dt (logRead dt id first count bad) s
/-- SESSION_CLOSE (R572). -/
def execSessionClose (dt id : Nat) (s : State) : Answer :=
  onUnit true dt (sessionClose dt id) s
/-- BOUNDARY_SCAN_INSTRUCTION (R536). -/
def execBoundaryScanInstruction (dt instr : Nat) (pins : List (Nat × Bool)) (s : State) : Answer :=
  onUnit true dt (boundaryScanInstruction dt instr pins) s

end Sys2Proof.Machine
end

