-- ==== Sys2Proof/Machine/SillWrite.lean ====
section
/-!
DEFINITION. Sys2Proof/Machine/SillWrite.lean: a write that reaches a register (R11, R12): on the Sill, the fields whose write does more
than change the register; to the Ridge, by a request over the Tenon link (R292).
-/
namespace Sys2Proof.Machine

/-- The forerunner's soft-reset register (R502). -/
def legacyRst : Nat := 0x10800

/-- A mask touches a field. -/
def touches (mask : Nat) (f : Fld) : Bool := bitsN mask f.hi f.lo != 0

/-- The value of a field after a write under a mask. -/
def Chip.newField (m : Chip) (f : Fld) (mask v : Nat) : Nat := bitsN (m.maskedValue f.addr mask v) f.hi f.lo

/-- Apply an effect when a bit of a field is written with 1. -/
def Chip.onOne (m : Chip) (mask v : Nat) (f : Fld) (eff : Chip → Chip) : Chip := if wrote1 mask v f.lo then eff m else m

/-- SUP_CTRL (R476). -/
def Chip.supCtrlWrite (mask v : Nat) (m : Chip) : Chip :=
  ((((m.onOne mask v F.SUP_CTRL_promote fun m => m.promoteWrite.2).onOne mask v F.SUP_CTRL_resume resume).onOne mask v
    F.SUP_CTRL_fire_out_req fireOutReq).onOne mask v F.SUP_CTRL_safe_req safeReq)

/-- CXP_LINK_CTRL of link `n` (R86). -/
def Chip.linkCtrlWrite (n mask v : Nat) (m : Chip) : Chip :=
  let f := F.CXP_LINK_CTRL_link_hold n
  let m1 := if touches mask f then linkHold 0 n (m.newField f mask v == 1) m else m
  ((m1.onOne mask v (F.CXP_LINK_CTRL_poc_clear n) (pocClear 0 n)).onOne mask v (F.CXP_LINK_CTRL_reconnect n) (reconnect 0 n))

/-- LP_CTRL of pipeline `n` (R115 to R117, R123, R125). -/
def Chip.lpCtrlWrite (n mask v : Nat) (m : Chip) : Chip :=
  match m.gangOfPipe n with
  | none => m
  | some g =>
    let f := F.LP_CTRL_cal_bank n
    let m1 := if touches mask (F.LP_CTRL_src_sel n) || touches mask (F.LP_CTRL_replay_ch n) then
        (m.routeWrite n (m.newField (F.LP_CTRL_src_sel n) mask v) (m.newField (F.LP_CTRL_replay_ch n) mask v)).2
      else m
    let m2 := if touches mask f then m1.onGang g fun k m => m.put (F.LP_CTRL_cal_bank k) (bitsN v f.hi f.lo) else m1
    m2.onOne mask v (F.LP_CTRL_sync_reset n) (syncResetWrite n)

/-- PUR_CTRL of port `p` (R332). -/
def Chip.purCtrlWrite (p mask v : Nat) (m : Chip) : Chip :=
  let f := F.PUR_CTRL_hold p
  let m1 := if touches mask f then purlinHold 0 p (m.newField f mask v == 1) m else m
  (m1.onOne mask v (F.PUR_CTRL_retrain p) (purlinRetrain 0 p)).onOne mask v (F.PUR_CTRL_lpi_reenable p) (lpiReenable 0 p)

/-- PEG_CTRL of port `p` (R394, R395). -/
def Chip.pegCtrlWrite (p mask v : Nat) (m : Chip) : Chip :=
  let f := F.PEG_CTRL_port_en p
  let m1 := if touches mask f then pegPortEn p (m.newField f mask v == 1) m else m
  m1.onOne mask v (F.PEG_CTRL_full_state p) (fullStateRequest p)

/-- A signed number of 64 bits in a pair of registers. -/
def Chip.signed64 (m : Chip) (lo hi : Nat) : Int := signedOf 64 (m.rd64 lo hi)

/-- The time registers whose write of _HI acts (R408, R413, R426); none for another address. -/
def Chip.timeWrite (a mask v : Nat) (m : Chip) : Option Chip :=
  let m1 := m.plainWrite a mask v
  if a = R.TM_TB0_INC_HI then some (tb0IncWrite 0 0 (m1.rd64 R.TM_TB0_INC_LO R.TM_TB0_INC_HI) m1)
  else if a = R.TM_TB1_INC_HI then some (tb0IncWrite 0 1 (m1.rd64 R.TM_TB1_INC_LO R.TM_TB1_INC_HI) m1)
  else if a = R.TM_TB0_STEP_HI then some (tb0StepRequest 0 (m1.signed64 R.TM_TB0_STEP_LO R.TM_TB0_STEP_HI) m1)
  else if a = R.TM_TB1_STEP_HI then some (tb1Step 0 (m1.signed64 R.TM_TB1_STEP_LO R.TM_TB1_STEP_HI) m1)
  else if a = R.TM_CTRL then some (m.onOne mask v F.TM_CTRL_accept_step (acceptStep 0))
  else none

/-- The registers of one instance whose write acts; none for another address. -/
def Chip.singleWrite (a mask v : Nat) (m : Chip) : Option Chip :=
  let k := v &&& mask
  if a = R.RP_RESET_CTRL then
    some (if wrote1 mask v F.RP_RESET_CTRL_cold_req.lo then coldReq 0 none m
      else m.onOne mask v F.RP_RESET_CTRL_warm_req (warmReq 0 none))
  else if a = R.RP_SOFT_RST ∨ a = legacyRst then some (softReset 0 (k % 2 ^ 13) m)
  else if a = R.SUP_CTRL then some (m.supCtrlWrite mask v)
  else if a = R.SUP_WD then some (m.onOne mask v F.SUP_WD_kick (kick 0))
  else if a = R.SUP_DEGRADE_LO then some (degradeMaskWrite (m.maskedValue a mask v + 2 ^ 32 * (m.rd R.SUP_DEGRADE_HI).toNat) m)
  else if a = R.SUP_DEGRADE_HI then some (degradeMaskWrite ((m.rd R.SUP_DEGRADE_LO).toNat + 2 ^ 32 * m.maskedValue a mask v) m)
  else if a = R.FIO_OUT then
    let x := m.maskedValue a mask v
    some (fioOutWrite (x % 2 ^ 16) (bitN x F.FIO_OUT_run_req.lo) m)
  else if a = R.CM_CTRL then some (m.onOne mask v F.CM_CTRL_zeroise Chip.replaceKeys)
  else if a = R.TN_CTRL then some (m.onOne mask v F.TN_CTRL_retrain (tenonRetrain 0))
  else if a = R.PUR_ROUTE_CTRL then some (m.onOne mask v F.PUR_ROUTE_CTRL_swap (routeSwap 0))
  else if isRoute a then some (routeTableWrite 0 a mask v m)
  else none

/-- The arrays of registers whose write acts; none for another address. -/
def Chip.arrayWrite (a mask v : Nat) (m : Chip) : Option Chip :=
  match instOf (R.SUP_PEND 0) 4 8 a with
  | some k => some (pendingAck 0 k (v &&& mask) m)
  | none => match instOf (R.PEG_CTRL 0) 0x100 Config.pegPorts a with
  | some p => some (m.pegCtrlWrite p mask v)
  | none => match instOf (R.CXP_LINK_CTRL 0) 0x400 Config.links a with
  | some n => some (m.linkCtrlWrite n mask v)
  | none => match instOf (R.LP_CTRL 0) 0x800 Config.links a with
  | some n => some (m.lpCtrlWrite n mask v)
  | none => match instOf (R.LP_STAT 0) 0x800 Config.links a with
  | some n => some (match m.gangOfPipe n with
    | some g => m.onGang g fun k m => m.plainWrite (R.LP_STAT k) mask v
    | none => m.plainWrite a mask v)
  | none => match instOf (R.LP_RPL_CTRL 0) 0x100 Config.replayChannels a with
  | some ch => some (m.onOne mask v (F.LP_RPL_CTRL_stop ch) (replayStop ch))
  | none => match instOf (R.PUR_CTRL 0) 0x2000 Config.purlinPorts a with
  | some p => some (m.purCtrlWrite p mask v)
  | none => match instOf (R.HK_FAN 0) 4 4 a with
  | some f => some (m.onOne mask v (F.HK_FAN_fan_retry f) (fanRetry 0 f))
  | none => none

/-- A write to a Sill register under a mask, by whoever may make it (R11 to R13). -/
def Chip.sillWrite (a mask v : Nat) (m : Chip) : Chip :=
  if !m.unitUsed a then m
  else if R.FLT_STAT 0 0 ≤ a ∧ a < R.SUP_MODE then m.fltWrite 0 a mask v
  else match m.timeWrite a mask v with
    | some m1 => m1
    | none => match m.singleWrite a mask v with
      | some m1 => m1
      | none => match m.arrayWrite a mask v with
        | some m1 => m1
        | none => (m.plainWrite a mask v).refreshOutputs

/-- An address of the Ridge, reached over the Tenon link (R292). -/
def onRidge (a : Nat) : Bool := decide (0x1000000 ≤ a)

/-- A write by Joiner firmware or by a signed command: on the Sill at once, to the Ridge as a request whose response nobody awaits.
(Log: 114 DEDUCED.) -/
def Chip.anyWrite (a mask v : Nat) (m : Chip) : Chip :=
  if onRidge a then
    let n := m.tenon.nextWait
    let q : TnReq := { tag := 0, sentAt := 0, addr := a, write := some (mask, v), read := n }
    let m1 := m.onTn fun t => { t with nextWait := n + 1, todo := t.todo ++ [q] }
    m1.issueAll m1.tenon.todo
  else m.sillWrite a mask v

end Sys2Proof.Machine
end

