-- ==== Sys2Proof/Machine/Service.lean ====
section
/-!
DEFINITION. Sys2Proof/Machine/Service.lean: the service messages that read and write registers and subscribe to streams, register writes,
datagrams, and the Ethernet ports (R12, R55, R568 to R575, R583).
-/
namespace Sys2Proof.Machine

/-! ### READ and WRITE (R569, R570) -/

/-- The words of a READ that lie on the Sill, read in ascending order; those of the Ridge are awaited.
(Log: 91 DEDUCED.) -/
def Chip.readWords (m : Chip) : List Nat → List (Option Nat) × Chip
  | [] => ([], m)
  | a :: t =>
    if onRidge a then
      let r := Chip.readWords m t
      (none :: r.1, r.2)
    else
      let x := m.readReg a
      let r := Chip.readWords x.2 t
      (some x.1 :: r.1, r.2)

/-- A service message waits for the registers of the Ridge that it names.
(Log: 91 DEDUCED.) -/
def Chip.awaitRidge (id : Nat) (write : Bool) (words : List (Option Nat)) (reqs : List TnReq) (m : Chip) : Chip :=
  let n := m.tenon.nextWait
  let w : SvcWait := { num := n, session := id, write, words }
  let m1 := m.onTn fun t =>
    { t with nextWait := n + 1, waits := t.waits ++ [w], todo := t.todo ++ reqs.map fun q => { q with read := n } }
  m1.issueAll m1.tenon.todo

/-- READ (R570): 1 to 256 words from an aligned address. -/
def readMessage (dt id a count : Nat) (m0 : Chip) : Chip :=
  let m := (elapse dt m0).touch id
  match m.session id with
  | none => m
  | some _ =>
    if a % 4 ≠ 0 ∨ count = 0 ∨ 256 < count then m.answer id "status" [4]
    else
      let as_ := (upTo count).map fun i => a + 4 * i
      let r := m.readWords as_
      let reqs : List TnReq := (as_.zipIdx.filter fun x => onRidge x.1).map fun x => { tag := 0, sentAt := 0, addr := x.1, word := x.2 }
      if reqs.isEmpty then r.2.answer id "words" (r.1.map fun x => x.getD 0) else r.2.awaitRidge id false r.1 reqs

/-- A WRITE is allowed when every bit of its mask lies in an O field (R12, R570). -/
def oAllows (a mask : Nat) : Bool := BitVec.ofNat 32 mask &&& ~~~(BitVec.ofNat 32 (oMask a)) == 0

/-- WRITE (R570): denied whole unless every mask bit lies in an O field. -/
def writeMessage (dt id a mask v : Nat) (m0 : Chip) : Chip :=
  let m := (elapse dt m0).touch id
  match m.session id with
  | none => m
  | some s =>
    if s.level = 0 then m.answer id "status" [1]
    else if a % 4 ≠ 0 then m.answer id "status" [4]
    else if !oAllows a mask then m.answer id "status" [1]
    else if onRidge a then m.awaitRidge id true [none] [{ tag := 0, sentAt := 0, addr := a, write := some (mask, v) }]
    else (m.sillWrite a mask v).answer id "status" [0]

/-- REGISTER_WRITE (R12, R13): a write by Joiner firmware (no `auth`) or by a signed maintainer command; an address that is not aligned is
never accessed, and the service protocol answers it with bad_request (R11).
(Log: 114 DEDUCED.) -/
def registerWrite (dt : Nat) (auth : Option Auth) (a mask v : Nat) (m0 : Chip) : Chip :=
  let m := elapse dt m0
  if a % 4 ≠ 0 then match auth with
    | some x => m.badAddress x
    | none => m
  else match auth with
    | none => m.anyWrite a mask v
    | some x => m.signed false false x fun m => (true, m.anyWrite a mask v)

/-! ### Subscriptions and datagrams (R572, R573, R575) -/

/-- The least subscription number that is free.
(Log: 112 DEDUCED.) -/
def Chip.freeSub (m : Chip) : Nat := ((upTo 17).find? fun n => !(m.subs.any fun q => q.num == n)).getD 16

/-- SUBSCRIBE (R572): at most four of a session, sixteen in all. -/
def subscribe (dt id kind dest udp : Nat) (m0 : Chip) : Chip :=
  let m := (elapse dt m0).touch id
  match m.session id with
  | none => m
  | some s =>
    if 2 < kind then m.answer id "status" [4]
    else if 4 ≤ (m.subs.filter fun q => q.session == id).length ∨ 16 ≤ m.subs.length then m.answer id "status" [2]
    else
      let q : Sub := { num := m.freeSub, session := id, ethPort := s.port, kind, dest, udpPort := udp }
      let m1 : Chip := m.answer id "subscription" [q.num]
      { m1 with subs := m1.subs ++ [q] }

/-- UNSUBSCRIBE (R570, R572): a subscription of the session ends. -/
def unsubscribe (dt id num : Nat) (m0 : Chip) : Chip :=
  let m := (elapse dt m0).touch id
  match m.session id with
  | none => m
  | some _ =>
    if m.subs.any fun q => q.num == num && q.session == id then
      let m1 : Chip := { m with subs := m.subs.filter fun q => q.num != num }
      m1.answer id "status" [0]
    else m.answer id "status" [3]

/-- KEEPALIVE (R570). -/
def keepalive (dt id : Nat) (m0 : Chip) : Chip :=
  let m := (elapse dt m0).touch id
  match m.session id with
  | none => m
  | some _ => m.answer id "status" [0]

/-- A datagram is due: it is full, or 1 ms has passed since its first record was queued (R573). -/
def datagramDue (now : Nat) (q : Sub) : Bool :=
  match q.queue with
  | [] => false
  | r :: _ => decide (streamMax q.kind ≤ q.queue.length) || decide (r.1 + 1000000 ≤ now)

/-- STREAM_DATAGRAM (R573, R575): subscription `num` sends its next datagram when it is due; its number skips the datagrams that the
records dropped would have filled.
(Log: 112 DEDUCED.) -/
def streamDatagram (dt num : Nat) (m0 : Chip) : Chip :=
  let m := elapse dt m0
  match m.subs.find? fun q => q.num == num with
  | none => m
  | some q =>
    if !datagramDue m.now q then m
    else
      let n := streamMax q.kind
      let seq := q.seq + ceilDivN q.dropped n
      let q1 := { q with queue := q.queue.drop n, seq := seq + 1, dropped := 0 }
      let m1 : Chip := { m with subs := m.subs.map fun x => if x.num = num then q1 else x }
      (m1.emit (.datagram num q.kind q.ethPort q.dest q.udpPort m.trust.tcpPort seq
        (datagramBytes (m.get F.PUR_DEV_device_id) q.kind num seq ((q.queue.take n).map (·.2))))).bump (R.ETH_CNT_TX q.ethPort)

/-! ### Ethernet ports (R568, R569) -/

/-- ETH_FRAME (R568, R584): a frame arrives; `fcsOk` its FCS, `kind` 0 ARP, 1 IPv6 neighbour discovery, 2 ICMP echo, 3 PTP, 4 to the
service port, 5 to a stream's source port, any other number none of these.
(Log: 112 DEDUCED.) -/
def ethFrame (dt p : Nat) (fcsOk : Bool) (kind : Nat) (m0 : Chip) : Chip :=
  let m := elapse dt m0
  if m.get (F.ETH_STAT_state p) ≠ 1 then m
  else if !fcsOk then (m.setFlag (F.ETH_STAT_fcs_err p)).bump (R.ETH_CNT_FCS p)
  else
    let m1 := m.bump (R.ETH_CNT_RX p)
    if kind ≤ 2 then (m1.emit (.send "eth" p "answer" [kind])).bump (R.ETH_CNT_TX p)
    else if kind ≤ 5 then m1
    else m1.bump (R.ETH_CNT_DROP p)

/-- ETH_LINK_DOWN (R568): link_lost; the sessions on the port close. -/
def ethLinkDown (dt p : Nat) (m0 : Chip) : Chip :=
  let m := elapse dt m0
  if m.get (F.ETH_STAT_state p) ≠ 1 then m
  else
    let m1 := (m.put (F.ETH_STAT_state p) 0).setFlag (F.ETH_STAT_link_lost p)
    (forAll ((m1.trust.sessions.filter fun s => s.port == p).map (·.id)) (fun i m => m.closeSession i) m1).refsUpdate

/-- ETH_LINK_UP (R568): the port's state becomes up; its PTP reference may become valid (R417). A port trains from step 7 of a start on,
and where the service protocol runs without a story stick. -/
def ethLinkUp (dt p : Nat) (m0 : Chip) : Chip :=
  let m := elapse dt m0
  if m.get (F.ETH_STAT_state p) = 1 ∨ !(m.boot.failed && m.get F.MB_STAT_fw_state != 0 || m.boot.pinsOn && m.flag (F.ETH_CFG_en p)) then m
  else (m.put (F.ETH_STAT_state p) 1).refsUpdate

/-- BAD_REQUEST_MESSAGE (R569): answered with bad_request and otherwise ignored.
(Log: 112 DEDUCED.) -/
def badRequestMessage (dt id : Nat) (m0 : Chip) : Chip :=
  let m := elapse dt m0
  match m.session id with
  | none => m
  | some _ => m.answer id "status" [4]

/-- ETH_TS_POP (R583): a read of ETH_TS_HDR. -/
def ethTsPop (dt p : Nat) (m : Chip) : Chip := (elapse dt m).tsPop p

/-! ### The meanings of the commands -/

/-- READ (R570). -/
def execRead (dt id a count : Nat) (s : State) : Answer :=
  onUnit true dt (readMessage dt id a count) s
/-- WRITE (R570). -/
def execWrite (dt id a mask v : Nat) (s : State) : Answer :=
  onUnit true dt (writeMessage dt id a mask v) s
/-- REGISTER_WRITE (R12). -/
def execRegisterWrite (dt : Nat) (auth : Option Auth) (a mask v : Nat) (s : State) : Answer :=
  onUnit true dt (registerWrite dt auth a mask v) s
/-- SUBSCRIBE (R572). -/
def execSubscribe (dt id kind dest udp : Nat) (s : State) : Answer :=
  onUnit true dt (subscribe dt id kind dest udp) s
/-- UNSUBSCRIBE (R570). -/
def execUnsubscribe (dt id num : Nat) (s : State) : Answer :=
  onUnit true dt (unsubscribe dt id num) s
/-- KEEPALIVE (R570). -/
def execKeepalive (dt id : Nat) (s : State) : Answer :=
  onUnit true dt (keepalive dt id) s
/-- STREAM_DATAGRAM (R573). -/
def execStreamDatagram (dt num : Nat) (s : State) : Answer :=
  onUnit true dt (streamDatagram dt num) s
/-- ETH_FRAME (R568). -/
def execEthFrame (dt p : Nat) (fcsOk : Bool) (kind : Nat) (s : State) : Answer :=
  onUnit (decide (p < Config.ethPorts)) dt (ethFrame dt p fcsOk kind) s
/-- ETH_LINK_DOWN (R568). -/
def execEthLinkDown (dt p : Nat) (s : State) : Answer :=
  onUnit (decide (p < Config.ethPorts)) dt (ethLinkDown dt p) s
/-- ETH_TS_POP (R583). -/
def execEthTsPop (dt p : Nat) (s : State) : Answer :=
  onUnit (decide (p < Config.ethPorts)) dt (ethTsPop dt p) s
/-- ETH_LINK_UP (R568). -/
def execEthLinkUp (dt p : Nat) (s : State) : Answer :=
  onUnit (decide (p < Config.ethPorts)) dt (ethLinkUp dt p) s
/-- BAD_REQUEST_MESSAGE (R569). -/
def execBadRequestMessage (dt id : Nat) (s : State) : Answer :=
  onUnit true dt (badRequestMessage dt id) s

end Sys2Proof.Machine
end

