-- ==== Sys2Proof/Machine/Boundary.lean ====
section
/-!
DEFINITION. Sys2Proof/Machine/Boundary.lean: BAY_BOUNDARY (R25 to R27), put together from what each chapter gives the
boundary: deadlines (R39), the strobe (R27), cancelled transfers (R291, R312), jobs (R48 to R51), engines, the mode (R461, R463),
the encoder latch (R359), pilot_en (R150), witness sets (R436, R446), and the forgetting of what no rule can ask for any more.
-/
namespace Sys2Proof.Machine

/-- Every engine's deadline monitor; bay-overrun is raised once, whatever the number of pairs (R39).
(Log: 45 DEDUCED.) -/
def Chip.deadlines (m : Chip) : Chip :=
  let m1 := forAll allEngines (fun e m => m.deadline e) m
  m1.raiseIf (decide (m.bays.overran.length < m1.bays.overran.length)) SrcName.bayOverrun

/-- The strobe to the Ridge (R27): the Ridge counts on, and compares the low 8 bits that arrive with its own count.
(Log: 47 DEDUCED.) -/
def Chip.strobe (b : Nat) (received : Option Nat) (m : Chip) : Chip :=
  let own := (m.bays.ridge + 1) % 256
  let m1 : Chip := m.onBays fun x => { x with bay := b, ridge := own, startAt := m.now - (m.tb3 - b * m.period), verdictDone := false }
  if (received.getD b) % 256 = own then m1 else (m1.setFlag F.RC_BAY_STAT_sync_mismatch).raise SrcName.baySync

/-- The job table's work for a job at boundary `b`, with what an abort discards in the post-processor and of its questions
(R49, R50, R204, R560). -/
def Chip.turnJob (b j : Nat) (m : Chip) : Chip :=
  let r := m.jobRun j
  let m1 := m.jobBoundary b j
  if r.applied && !bitN r.ctrl 0 && bitN r.ctrl 1 then (m1.discardJob j).abortText j else m1

/-- An engine begins the new list; a domain that failed to wake is gated in the new bay (R39, R497). -/
def Chip.turnEngine (e : Engine) (m : Chip) : Chip :=
  let m1 := m.engBoundary e
  let s := m1.eng e
  if s.wakeFailed then (m1.setEng e { s with wakeFailed := false, gated := true }).showEng e else m1

/-- The latch of the encoder ports, which the primary mirrors to its standby (R359, R326). -/
def Chip.latchCounts (b : Nat) (m : Chip) : Chip :=
  let m1 := m.encBayLatch
  if m1.role = 1 then
    m1.mirrorSend (.counts b (((upTo Config.encPorts).filter fun p => m1.encMode p != 0).map fun p => (p, m1.encPos p)))
  else m1

/-- Written values of pilot_en take effect; the unresolved reservations of a row at 0 are deleted (R150).
(Log: 44 DEDUCED.) -/
def Chip.applyPilots (m : Chip) : Chip :=
  let on := (upTo 8).foldl (fun x r => x + b2n (m.flag (F.SCR_ROW_CFG_pilot_en r)) * 2 ^ r) 0
  m.onFire fun f => { f with pilotOn := on, resvs := f.resvs.filter fun r => on.testBit r.row }

/-- The studs' marks of close bay b − D are complete: they stand on the Sill until the pair is taken in (R436).
(Log: 81 DEDUCED.) -/
def Chip.sealStuds (b : Nat) (m : Chip) : Chip :=
  let j := m.get F.STUD_CFG_job
  let k := b - m.depth
  let mine := m.wit.open_.filter fun x => x.job == j && x.key == k
  let gap := m.pairInvalid j k
  if b < m.depth || !m.processes j k || !(m.fire.closed.any fun c => c.closeBay == k) then m
  else
    (m.onWit fun w => { w with open_ := w.open_.filter fun x => !(x.job == j && x.key == k) }).setArrives
      { job := j, key := k, marks := if gap then [] else mine, gap, sill := true }

/-- Forget at boundary `b` what no later rule asks for, a strip that no job judges with its screening counters counted (R153): items of the record buffer that no strip waited for, strips whose verdicts are
in, entry counts, sets that no pair took, pairs marked invalid, of close bays that lie further back than the pipeline's depth.
(Log: 45 DEDUCED.) -/
def Chip.forget (b : Nat) (m : Chip) : Chip :=
  let d := m.depth
  let gone (c : ClosedStrip) : Bool := (c.jobs.isEmpty && decide (c.closeBay + d ≤ b)) || decide (c.closeBay + d + 2 < b)
  let m1 := (m.countDue gone).onFire fun f => { f with
    closed := f.closed.filter (fun c => !gone c),
    inbox := [],
    entCount := f.entCount.filter fun t => decide (b ≤ t.2.1 + d + 2) }
  let m2 := m1.onWit fun w => { w with
    arrived := w.arrived.filter (fun s => s.background || decide (b ≤ s.key + d + 1)) }
  m2.onBays fun x =>
    { x with
      invalid := x.invalid.filter fun p => decide (b ≤ p.2 + d + 1)
      overran := x.overran.filter fun p => decide (b ≤ p.2 + d + 1) }

/-- The semaphores of both halves are cleared (R31). -/
def Chip.clearSems (m : Chip) : Chip := m.onBays fun x => { x with semS := [], semR := [] }

/-- The jobs of the job table, and any other job whose control register has been written. -/
def Chip.jobNums (m : Chip) : List Nat := (m.stick.jobs.map (·.job) ++ m.bays.jobs.map (·.1)).eraseDups

/-- The boundary that ends the current bay and begins bay `b`.
(Log: 46 DEDUCED.) -/
def Chip.boundary (b : Nat) (strobe : Option Nat) (m : Chip) : Chip :=
  let m1 := (((m.tnFill 0).tnFill 1).loseSets.missFrames true).deadlines.strobe b strobe
  let m2 := ((m1.tnBoundary b).purBoundary b).ppBoundary b
  let m3 := forAll allEngines (fun e m => m.turnEngine e) (forAll m2.jobNums (fun j m => m.turnJob b j) m2.clearSems)
  let m4 := ((m3.supBoundary.witDrain.commitRef.latchCounts b).applyPilots.missFrames false).sealStuds b
  let m5 := (((m4.reportUnjudged b).releaseSlots b).fedBoundary b).screenBoundary b
  ((m5.dropStaged b).streamTables b).forget b

/-- BAY_BOUNDARY (R25 to R27): TB3 has reached the end of the current bay. `strobe` is what the Ridge receives where the strobe is
disturbed.
(Log: 46 DEDUCED.) -/
def bayBoundary (dt : Nat) (strobe : Option Nat) (m0 : Chip) : Chip :=
  let m := elapse dt m0
  if m.bays.running && decide ((m.bay + 1) * m.period ≤ m.tb3) then m.boundary (m.bay + 1) strobe else m

/-! ### The meanings of the commands -/

/-- BAY_BOUNDARY (R25). -/
def execBayBoundary (dt : Nat) (strobe : Option Nat) (s : State) : Answer :=
  onUnit true dt (bayBoundary dt strobe) s

end Sys2Proof.Machine
end

