-- ==== Sys2Proof/Machine/Signed.lean ====
section
/-!
DEFINITION. Sys2Proof/Machine/Signed.lean: the signed commands whose effects stand in the chapters of faults, time bases and the fabric:
RESUME, RAISED_RESTORE, ACCEPT_STEP, ROUTE_TABLE_WRITE (R319, R414, R458, R463, R532).
-/
namespace Sys2Proof.Machine

/-- RESUME as a signed maintainer command (R463): refused where its rule refuses it. -/
def signedResume (dt : Nat) (a : Auth) (m : Chip) : Chip :=
  (elapse dt m).signed false false a fun m => (m.resumeOk, resume m)

/-- RAISED_RESTORE as a signed maintainer command (R458). -/
def signedRaisedRestore (dt : Nat) (a : Auth) (half num : Nat) (m : Chip) : Chip :=
  (elapse dt m).signed false false a fun m => (true, raisedRestore half num m)

/-- ACCEPT_STEP as a signed owner command (R414). -/
def signedAcceptStep (dt : Nat) (a : Auth) (m : Chip) : Chip :=
  (elapse dt m).signed true false a fun m => (true, acceptStep 0 m)

/-- ROUTE_TABLE_WRITE as a signed maintainer command (R319, R338): refused while the table is busy; an address that is not aligned is
answered with bad_request (R11).
(Log: 97 DESIGN CHOICE.) -/
def signedRouteTableWrite (dt : Nat) (a : Auth) (addr mask v : Nat) (m : Chip) : Chip :=
  if addr % 4 ≠ 0 then (elapse dt m).badAddress a
  else (elapse dt m).signed false false a fun m => (!m.tableBusy addr, routeTableWrite 0 addr mask v m)

/-! ### The meanings of the commands -/

/-- ROUTE_TABLE_WRITE (R319). -/
def execRouteTableWrite (dt : Nat) (a : Auth) (addr mask v : Nat) (s : State) : Answer :=
  onUnit (decide (0xFD000 ≤ addr) && decide (addr < 0xFF000)) dt (signedRouteTableWrite dt a addr mask v) s
/-- ACCEPT_STEP (R414). -/
def execAcceptStep (dt : Nat) (a : Auth) (s : State) : Answer :=
  onUnit true dt (signedAcceptStep dt a) s
/-- RAISED_RESTORE (R458). -/
def execRaisedRestore (dt : Nat) (a : Auth) (half num : Nat) (s : State) : Answer :=
  onUnit (decide (half < 2) && decide (num < 128)) dt (signedRaisedRestore dt a half num) s
/-- RESUME (R463). -/
def execResume (dt : Nat) (a : Auth) (s : State) : Answer :=
  onUnit true dt (signedResume dt a) s

end Sys2Proof.Machine
end

