-- ==== Sys2Proof/Machine/Dispatch.lean ====
section
/-!
DEFINITION. Sys2Proof/Machine/Dispatch.lean: what each command does, one arm for each constructor, each a direct call of its meaning.
-/
namespace Sys2Proof.Machine

def exec (i : Instr) (s : State) : Host.Outcome State Fault Refusal :=
  match i with
  | .bayBoundary dt strobe => Sys2Proof.Machine.execBayBoundary dt strobe s
  | .markSetDeadline dt => Sys2Proof.Machine.execMarkSetDeadline dt s
  | .verdictDeadline dt => Sys2Proof.Machine.execVerdictDeadline dt s
  | .endGuardSeal dt => Sys2Proof.Machine.execEndGuardSeal dt s
  | .matmul dt n c pl => Sys2Proof.Machine.execMatmul dt n c pl s
  | .combine dt n c pl => Sys2Proof.Machine.execCombine dt n c pl s
  | .vector dt n c v pl => Sys2Proof.Machine.execVector dt n c v pl s
  | .dmaCopy dt n c er => Sys2Proof.Machine.execDmaCopy dt n c er s
  | .dmaClear dt n c => Sys2Proof.Machine.execDmaClear dt n c s
  | .windowConv dt n c pl => Sys2Proof.Machine.execWindowConv dt n c pl s
  | .windowMaxpool dt n c pl => Sys2Proof.Machine.execWindowMaxpool dt n c pl s
  | .windowAvgpool dt n c pl => Sys2Proof.Machine.execWindowAvgpool dt n c pl s
  | .windowUpsample dt n c pl => Sys2Proof.Machine.execWindowUpsample dt n c pl s
  | .spectralConv2d dt c pl => Sys2Proof.Machine.execSpectralConv2d dt c pl s
  | .detect dt c strip er => Sys2Proof.Machine.execDetect dt c strip er s
  | .attend dt c pl => Sys2Proof.Machine.execAttend dt c pl s
  | .append dt c er => Sys2Proof.Machine.execAppend dt c er s
  | .screen dt n c row strip cells layer er => Sys2Proof.Machine.execScreen dt n c row strip cells layer er s
  | .screeningOutputRelease dt r strip crop => Sys2Proof.Machine.execScreeningOutputRelease dt r strip crop s
  | .tenonDma dt d c er crop => Sys2Proof.Machine.execTenonDma dt d c er crop s
  | .purlinDma dt p dev c er => Sys2Proof.Machine.execPurlinDma dt p dev c er s
  | .cmDma dt c er => Sys2Proof.Machine.execCmDma dt c er s
  | .gate dt n c => Sys2Proof.Machine.execGate dt n c s
  | .wake dt n c => Sys2Proof.Machine.execWake dt n c s
  | .backgroundWindow dt e c => Sys2Proof.Machine.execBackgroundWindow dt e c s
  | .backgroundSegment dt e w => Sys2Proof.Machine.execBackgroundSegment dt e w s
  | .segmentRollback dt e => Sys2Proof.Machine.execSegmentRollback dt e s
  | .commandComplete dt e bg => Sys2Proof.Machine.execCommandComplete dt e bg s
  | .sampleCapture dt h feats => Sys2Proof.Machine.execSampleCapture dt h feats s
  | .adaptCommit dt h => Sys2Proof.Machine.execAdaptCommit dt h s
  | .jobCtrlWrite dt j v => Sys2Proof.Machine.execJobCtrlWrite dt j v s
  | .marginReset dt => Sys2Proof.Machine.execMarginReset dt s
  | .readLoLatch dt a => Sys2Proof.Machine.execReadLoLatch dt a s
  | .cameraBringUp dt n r => Sys2Proof.Machine.execCameraBringUp dt n r s
  | .discoveryPoll dt n acked => Sys2Proof.Machine.execDiscoveryPoll dt n acked s
  | .bringUpStepTimeout dt n => Sys2Proof.Machine.execBringUpStepTimeout dt n s
  | .bringUpRetry dt n => Sys2Proof.Machine.execBringUpRetry dt n s
  | .cameraLinkLost dt link => Sys2Proof.Machine.execCameraLinkLost dt link s
  | .reconnect dt n => Sys2Proof.Machine.execReconnect dt n s
  | .linkHold dt link hold => Sys2Proof.Machine.execLinkHold dt link hold s
  | .pocFault dt link => Sys2Proof.Machine.execPocFault dt link s
  | .pocReenable dt link => Sys2Proof.Machine.execPocReenable dt link s
  | .pocClear dt link => Sys2Proof.Machine.execPocClear dt link s
  | .triggerDue dt n io => Sys2Proof.Machine.execTriggerDue dt n io s
  | .streamPacket dt k => Sys2Proof.Machine.execStreamPacket dt k s
  | .lineComplete dt n samples io => Sys2Proof.Machine.execLineComplete dt n samples io s
  | .lineTimeout dt n io => Sys2Proof.Machine.execLineTimeout dt n io s
  | .controlAck dt n tag value => Sys2Proof.Machine.execControlAck dt n tag value s
  | .controlResend dt n => Sys2Proof.Machine.execControlResend dt n s
  | .cxpHeartbeat dt n => Sys2Proof.Machine.execCxpHeartbeat dt n s
  | .triggerCounterAudit dt n ph => Sys2Proof.Machine.execTriggerCounterAudit dt n ph s
  | .cameraControlCommand dt a n write addr value => Sys2Proof.Machine.execCameraControlCommand dt a n write addr value s
  | .calCaptureEnter dt a n base len trig => Sys2Proof.Machine.execCalCaptureEnter dt a n base len trig s
  | .calCaptureLeave dt a n => Sys2Proof.Machine.execCalCaptureLeave dt a n s
  | .stripClose dt r => Sys2Proof.Machine.execStripClose dt r s
  | .syncReset dt n => Sys2Proof.Machine.execSyncReset dt n s
  | .routeChangeWrite dt a n src ch => Sys2Proof.Machine.execRouteChangeWrite dt a n src ch s
  | .calLoad dt a n bankB bytes => Sys2Proof.Machine.execCalLoad dt a n bankB bytes s
  | .replayStart dt a ch cam first last calId rate => Sys2Proof.Machine.execReplayStart dt a ch cam first last calId rate s
  | .replayLine dt ch io => Sys2Proof.Machine.execReplayLine dt ch io s
  | .replayStop dt ch => Sys2Proof.Machine.execReplayStop dt ch s
  | .verdictGroup dt g => Sys2Proof.Machine.execVerdictGroup dt g s
  | .overrunNotice dt job stream row strip closeBay => Sys2Proof.Machine.execOverrunNotice dt job stream row strip closeBay s
  | .lateConfirmMark dt => Sys2Proof.Machine.execLateConfirmMark dt s
  | .mirrorAck dt id => Sys2Proof.Machine.execMirrorAck dt id s
  | .mirrorResend dt => Sys2Proof.Machine.execMirrorResend dt s
  | .mirrorTimeout dt => Sys2Proof.Machine.execMirrorTimeout dt s
  | .mirrorRecord dt id r => Sys2Proof.Machine.execMirrorRecord dt id r s
  | .mirrorKeepalive dt => Sys2Proof.Machine.execMirrorKeepalive dt s
  | .mirrorLinkLoss dt => Sys2Proof.Machine.execMirrorLinkLoss dt s
  | .slotSeal dt p => Sys2Proof.Machine.execSlotSeal dt p s
  | .forcedClose dt p v => Sys2Proof.Machine.execForcedClose dt p v s
  | .statusFrame dt p f => Sys2Proof.Machine.execStatusFrame dt p f s
  | .statusDeadline dt p => Sys2Proof.Machine.execStatusDeadline dt p s
  | .pegPortEn dt p en => Sys2Proof.Machine.execPegPortEn dt p en s
  | .fullStateRequest dt p => Sys2Proof.Machine.execFullStateRequest dt p s
  | .quadratureEdge dt p a b => Sys2Proof.Machine.execQuadratureEdge dt p a b s
  | .toothEdge dt p b => Sys2Proof.Machine.execToothEdge dt p b s
  | .toothWindowExpiry dt p => Sys2Proof.Machine.execToothWindowExpiry dt p s
  | .ssiSample dt p raw lineHigh => Sys2Proof.Machine.execSsiSample dt p raw lineHigh s
  | .beltStop dt p => Sys2Proof.Machine.execBeltStop dt p s
  | .encoderLineFault dt p line => Sys2Proof.Machine.execEncoderLineFault dt p line s
  | .lineFaultClear dt p line => Sys2Proof.Machine.execLineFaultClear dt p line s
  | .indexEdge dt p => Sys2Proof.Machine.execIndexEdge dt p s
  | .probeEdge dt p src => Sys2Proof.Machine.execProbeEdge dt p src s
  | .probeSeqRead dt p => Sys2Proof.Machine.execProbeSeqRead dt p s
  | .fieldInputEdge dt ch level => Sys2Proof.Machine.execFieldInputEdge dt ch level s
  | .pairLong dt k => Sys2Proof.Machine.execPairLong dt k s
  | .wireBreak dt ch => Sys2Proof.Machine.execWireBreak dt ch s
  | .wireBreakClear dt ch => Sys2Proof.Machine.execWireBreakClear dt ch s
  | .outputFault dt n => Sys2Proof.Machine.execOutputFault dt n s
  | .outputRetry dt n runs => Sys2Proof.Machine.execOutputRetry dt n runs s
  | .fieldGroupUndervoltage dt g => Sys2Proof.Machine.execFieldGroupUndervoltage dt g s
  | .fioOutWrite dt outs runReq => Sys2Proof.Machine.execFioOutWrite dt outs runReq s
  | .fioEvtPop dt => Sys2Proof.Machine.execFioEvtPop dt s
  | .fioPairPop dt => Sys2Proof.Machine.execFioPairPop dt s
  | .flitReceived dt d crcOk => Sys2Proof.Machine.execFlitReceived dt d crcOk s
  | .tenonNak dt d => Sys2Proof.Machine.execTenonNak dt d s
  | .tenonReplayTimeout dt d => Sys2Proof.Machine.execTenonReplayTimeout dt d s
  | .tenonRetrain dt => Sys2Proof.Machine.execTenonRetrain dt s
  | .tenonTrain dt ok badS badR => Sys2Proof.Machine.execTenonTrain dt ok badS badR s
  | .tenonTrainRetry dt ok badS badR => Sys2Proof.Machine.execTenonTrainRetry dt ok badS badR s
  | .tenonResponse dt d => Sys2Proof.Machine.execTenonResponse dt d s
  | .tenonRequestTimeout dt tag => Sys2Proof.Machine.execTenonRequestTimeout dt tag s
  | .purlinFrame dt p corrected fr => Sys2Proof.Machine.execPurlinFrame dt p corrected fr s
  | .purlinAck dt dev cls seq => Sys2Proof.Machine.execPurlinAck dt dev cls seq s
  | .purlinNak dt dev cls seq => Sys2Proof.Machine.execPurlinNak dt dev cls seq s
  | .purlinRto dt dev cls => Sys2Proof.Machine.execPurlinRto dt dev cls s
  | .hello dt p h => Sys2Proof.Machine.execHello dt p h s
  | .helloSend dt p => Sys2Proof.Machine.execHelloSend dt p s
  | .linkFrame dt p l => Sys2Proof.Machine.execLinkFrame dt p l s
  | .marksFrame dt f => Sys2Proof.Machine.execMarksFrame dt f s
  | .marksDeadline dt => Sys2Proof.Machine.execMarksDeadline dt s
  | .purlinPortDown dt p cause => Sys2Proof.Machine.execPurlinPortDown dt p cause s
  | .purlinTrain dt p t => Sys2Proof.Machine.execPurlinTrain dt p t s
  | .purlinAuthRetry dt p t => Sys2Proof.Machine.execPurlinAuthRetry dt p t s
  | .purlinRekey dt p => Sys2Proof.Machine.execPurlinRekey dt p s
  | .lpiEntry dt p => Sys2Proof.Machine.execLpiEntry dt p s
  | .wakeWindow dt p skew relock busy => Sys2Proof.Machine.execWakeWindow dt p skew relock busy s
  | .guardMiss dt p => Sys2Proof.Machine.execGuardMiss dt p s
  | .purlinRetrain dt p => Sys2Proof.Machine.execPurlinRetrain dt p s
  | .purlinHold dt p hold => Sys2Proof.Machine.execPurlinHold dt p hold s
  | .lpiReenable dt p => Sys2Proof.Machine.execLpiReenable dt p s
  | .routeSwap dt => Sys2Proof.Machine.execRouteSwap dt s
  | .routeTableWrite dt a addr mask v => Sys2Proof.Machine.execRouteTableWrite dt a addr mask v s
  | .ptpMessage dt p msgType domain seqId offset => Sys2Proof.Machine.execPtpMessage dt p msgType domain seqId offset s
  | .tb0IncWrite dt base v => Sys2Proof.Machine.execTb0IncWrite dt base v s
  | .tb0StepRequest dt step => Sys2Proof.Machine.execTb0StepRequest dt step s
  | .tb1Step dt step => Sys2Proof.Machine.execTb1Step dt step s
  | .acceptStep dt a => Sys2Proof.Machine.execAcceptStep dt a s
  | .acceptStepLapse dt => Sys2Proof.Machine.execAcceptStepLapse dt s
  | .referenceValidityChange dt ref ok => Sys2Proof.Machine.execReferenceValidityChange dt ref ok s
  | .referenceQualified dt ref => Sys2Proof.Machine.execReferenceQualified dt ref s
  | .holdoverLong dt => Sys2Proof.Machine.execHoldoverLong dt s
  | .ppsInEdge dt => Sys2Proof.Machine.execPpsInEdge dt s
  | .ppsMissing dt => Sys2Proof.Machine.execPpsMissing dt s
  | .ppsOutSecond dt => Sys2Proof.Machine.execPpsOutSecond dt s
  | .witQuery dt => Sys2Proof.Machine.execWitQuery dt s
  | .lockRearm dt => Sys2Proof.Machine.execLockRearm dt s
  | .sourceAssert dt half num unit up => Sys2Proof.Machine.execSourceAssert dt half num unit up s
  | .bucketLeak dt half num => Sys2Proof.Machine.execBucketLeak dt half num s
  | .graceExpiry dt => Sys2Proof.Machine.execGraceExpiry dt s
  | .pendingAck dt k mask => Sys2Proof.Machine.execPendingAck dt k mask s
  | .selfFault dt half vote => Sys2Proof.Machine.execSelfFault dt half vote s
  | .faultLinkLoss dt lost => Sys2Proof.Machine.execFaultLinkLoss dt lost s
  | .raisedRestore dt a half num => Sys2Proof.Machine.execRaisedRestore dt a half num s
  | .degradeMaskWrite dt mask => Sys2Proof.Machine.execDegradeMaskWrite dt mask s
  | .safeReq dt => Sys2Proof.Machine.execSafeReq dt s
  | .safeReqN dt low => Sys2Proof.Machine.execSafeReqN dt low s
  | .fireOutReq dt => Sys2Proof.Machine.execFireOutReq dt s
  | .resume dt a => Sys2Proof.Machine.execResume dt a s
  | .promote dt a => Sys2Proof.Machine.execPromote dt a s
  | .kick dt => Sys2Proof.Machine.execKick dt s
  | .watchdogExpiry dt => Sys2Proof.Machine.execWatchdogExpiry dt s
  | .powerOn pg bootSrc clk => Sys2Proof.Machine.execPowerOn pg bootSrc clk s
  | .resetN dt low => Sys2Proof.Machine.execResetN dt low s
  | .wresetN dt low => Sys2Proof.Machine.execWresetN dt low s
  | .coldReq dt a => Sys2Proof.Machine.execColdReq dt a s
  | .warmReq dt a => Sys2Proof.Machine.execWarmReq dt a s
  | .softReset dt mask => Sys2Proof.Machine.execSoftReset dt mask s
  | .optionLoad dt fail fwHash => Sys2Proof.Machine.execOptionLoad dt fail fwHash s
  | .coldStart dt img t last => Sys2Proof.Machine.execColdStart dt img t last s
  | .baysStart dt => Sys2Proof.Machine.execBaysStart dt s
  | .timeWaitExpiry dt => Sys2Proof.Machine.execTimeWaitExpiry dt s
  | .safeExit dt => Sys2Proof.Machine.execSafeExit dt s
  | .warmRestart dt fwOk img last => Sys2Proof.Machine.execWarmRestart dt fwOk img last s
  | .domainPowerFail dt d => Sys2Proof.Machine.execDomainPowerFail dt d s
  | .mainInputFail => Sys2Proof.Machine.execMainInputFail s
  | .tamperEvent dt isOpen => Sys2Proof.Machine.execTamperEvent dt isOpen s
  | .zeroise dt a => Sys2Proof.Machine.execZeroise dt a s
  | .commissioning dt a hash => Sys2Proof.Machine.execCommissioning dt a hash s
  | .ownerRotation dt a hash => Sys2Proof.Machine.execOwnerRotation dt a hash s
  | .decommissioning dt a => Sys2Proof.Machine.execDecommissioning dt a s
  | .antiRollbackAdvance dt a v written => Sys2Proof.Machine.execAntiRollbackAdvance dt a v written s
  | .debugUnlock dt a sill ridge => Sys2Proof.Machine.execDebugUnlock dt a sill ridge s
  | .sessionOpen dt p level certHash certOk => Sys2Proof.Machine.execSessionOpen dt p level certHash certOk s
  | .sessionIdleTimeout dt id => Sys2Proof.Machine.execSessionIdleTimeout dt id s
  | .challengeExpiry dt => Sys2Proof.Machine.execChallengeExpiry dt s
  | .read dt id a count => Sys2Proof.Machine.execRead dt id a count s
  | .write dt id a mask v => Sys2Proof.Machine.execWrite dt id a mask v s
  | .registerWrite dt auth a mask v => Sys2Proof.Machine.execRegisterWrite dt auth a mask v s
  | .challenge dt id => Sys2Proof.Machine.execChallenge dt id s
  | .result dt id c => Sys2Proof.Machine.execResult dt id c s
  | .subscribe dt id kind dest udp => Sys2Proof.Machine.execSubscribe dt id kind dest udp s
  | .unsubscribe dt id num => Sys2Proof.Machine.execUnsubscribe dt id num s
  | .attest dt id nonce => Sys2Proof.Machine.execAttest dt id nonce s
  | .logRead dt id first count bad => Sys2Proof.Machine.execLogRead dt id first count bad s
  | .label dt session h id lab => Sys2Proof.Machine.execLabel dt session h id lab s
  | .question dt session j text evidence maxNew temp topK seed => Sys2Proof.Machine.execQuestion dt session j text evidence maxNew temp topK seed s
  | .cancel dt session id => Sys2Proof.Machine.execCancel dt session id s
  | .keepalive dt id => Sys2Proof.Machine.execKeepalive dt id s
  | .tokenGenerate dt j logits full => Sys2Proof.Machine.execTokenGenerate dt j logits full s
  | .streamDatagram dt num => Sys2Proof.Machine.execStreamDatagram dt num s
  | .ethFrame dt p fcsOk kind => Sys2Proof.Machine.execEthFrame dt p fcsOk kind s
  | .ethLinkDown dt p => Sys2Proof.Machine.execEthLinkDown dt p s
  | .ethTsPop dt p => Sys2Proof.Machine.execEthTsPop dt p s
  | .trainStart dt a h seed epochs o fromLast er => Sys2Proof.Machine.execTrainStart dt a h seed epochs o fromLast er s
  | .trainingStep dt h lost ce => Sys2Proof.Machine.execTrainingStep dt h lost ce s
  | .adaptStop dt h => Sys2Proof.Machine.execAdaptStop dt h s
  | .approveHead dt a h hash stick => Sys2Proof.Machine.execApproveHead dt a h hash stick s
  | .revertHead dt a h => Sys2Proof.Machine.execRevertHead dt a h s
  | .classPrompt dt a h c text er => Sys2Proof.Machine.execClassPrompt dt a h c text er s
  | .scrubLap dt n er => Sys2Proof.Machine.execScrubLap dt n er s
  | .thermalSample dt sill ridge hbm => Sys2Proof.Machine.execThermalSample dt sill ridge hbm s
  | .powerSample dt mv ma => Sys2Proof.Machine.execPowerSample dt mv ma s
  | .fanTachLoss dt f => Sys2Proof.Machine.execFanTachLoss dt f s
  | .fanTimer dt f rpm => Sys2Proof.Machine.execFanTimer dt f rpm s
  | .fanRetry dt f => Sys2Proof.Machine.execFanRetry dt f s
  | .i2cTransaction dt c dev write ends a => Sys2Proof.Machine.execI2cTransaction dt c dev write ends a s
  | .smbusTimeout dt c => Sys2Proof.Machine.execSmbusTimeout dt c s
  | .busStuck dt c sclLow free => Sys2Proof.Machine.execBusStuck dt c sclLow free s
  | .i2cRecoveryRetry dt c sclLow free => Sys2Proof.Machine.execI2cRecoveryRetry dt c sclLow free s
  | .pmbusPoll dt values => Sys2Proof.Machine.execPmbusPoll dt values s
  | .pwrGoodFall => Sys2Proof.Machine.execPwrGoodFall s
  | .fieldGroupSupplyReturn dt g => Sys2Proof.Machine.execFieldGroupSupplyReturn dt g s
  | .uncorrectableCodeword dt p next => Sys2Proof.Machine.execUncorrectableCodeword dt p next s
  | .purlinTrainRetry dt p => Sys2Proof.Machine.execPurlinTrainRetry dt p s
  | .sessionClose dt id => Sys2Proof.Machine.execSessionClose dt id s
  | .ethLinkUp dt p => Sys2Proof.Machine.execEthLinkUp dt p s
  | .ptpDelayRequest dt p domain peer => Sys2Proof.Machine.execPtpDelayRequest dt p domain peer s
  | .badRequestMessage dt id => Sys2Proof.Machine.execBadRequestMessage dt id s
  | .boundaryScanInstruction dt instr pins => Sys2Proof.Machine.execBoundaryScanInstruction dt instr pins s

end Sys2Proof.Machine
end

