-- ==== Sys2Proof/Machine/Step.lean ====
section
/-!
DEFINITION. Sys2Proof/Machine/Step.lean: one step of the module.
-/
namespace Sys2Proof.Machine

/-- One step: the command at the front of the queue acts, with the rest of the queue. With no command waiting the module idles for one
timing-clock cycle (R407; DESIGN CHOICE, log entry 2).
(Log: 2 DESIGN CHOICE, 3 DESIGN CHOICE.) -/
def step (s : State) : Host.Outcome State Fault Refusal :=
  match s.pending with
  | [] => .next { s with m := s.m.take 1 (elapse 1) }
  | c :: q => exec c { s with pending := q }

/-- A state with the command that a word spells put at the front of its queue; unchanged where it spells none.
(Log: 1 DESIGN CHOICE.) -/
def State.withFetchWord (s : State) (nbits w : Nat) : State :=
  match decodeTableWord nbits w with
  | some c => { s with pending := c :: s.pending }
  | none => s

end Sys2Proof.Machine
end

