-- ==== Sys2Proof/WellFormed.lean ====
section
/-!
DEFINITION. Sys2Proof/WellFormed.lean: the commands that name units the part has (R3, R4). What a command carries besides is data: the
meanings give every value of it its effect.
-/
namespace Sys2Proof

/-- The part has the engine (R3, R29). -/
def Engine.wf : Engine → Bool
  | .bent n => decide (n < Config.bents)
  | .stud n => decide (n < Config.studs)
  | .purlinDma n => decide (n < Config.purlinPorts)
  | _ => true

/-- The command is well formed: the units it names are units the part has.
(Log: 5 DESIGN CHOICE.) -/
def Instr.wf : Instr → Bool
  | .bayBoundary .. => true
  | .markSetDeadline .. => true
  | .verdictDeadline .. => true
  | .endGuardSeal .. => true
  | .matmul _ n _ _ => decide (n < Config.bents)
  | .combine _ n _ _ => decide (n < Config.bents)
  | .vector _ n _ _ _ => decide (n < Config.bents)
  | .dmaCopy _ n _ _ => decide (n < Config.bents)
  | .dmaClear _ n _ => decide (n < Config.bents)
  | .windowConv _ n _ _ => decide (n < Config.bents)
  | .windowMaxpool _ n _ _ => decide (n < Config.bents)
  | .windowAvgpool _ n _ _ => decide (n < Config.bents)
  | .windowUpsample _ n _ _ => decide (n < Config.bents)
  | .spectralConv2d .. => true
  | .detect .. => true
  | .attend .. => true
  | .append .. => true
  | .screen _ n _ row _ _ _ _ => decide (n < Config.studs) && decide (row < Config.rows)
  | .screeningOutputRelease _ r _ _ => decide (r < Config.rows)
  | .tenonDma _ d _ _ _ => decide (d < 2)
  | .purlinDma _ p dev _ _ => decide (p < Config.purlinPorts) && decide (dev < 4096)
  | .cmDma .. => true
  | .gate _ n _ => decide (n < Config.bents)
  | .wake _ n _ => decide (n < Config.bents)
  | .backgroundWindow _ e _ => e.wf
  | .backgroundSegment _ e _ => e.wf
  | .segmentRollback _ e => e.wf
  | .commandComplete _ e _ => e.wf
  | .sampleCapture _ h _ => decide (h < 8)
  | .adaptCommit _ h => decide (h < 8)
  | .jobCtrlWrite _ j _ => decide (j < Config.jobs)
  | .marginReset .. => true
  | .readLoLatch .. => true
  | .cameraBringUp _ n _ => decide (n < Config.links)
  | .discoveryPoll _ n _ => decide (n < Config.links)
  | .bringUpStepTimeout _ n => decide (n < Config.links)
  | .bringUpRetry _ n => decide (n < Config.links)
  | .cameraLinkLost _ link => decide (link < Config.links)
  | .reconnect _ n => decide (n < Config.links)
  | .linkHold _ link _ => decide (link < Config.links)
  | .pocFault _ link => decide (link < Config.links)
  | .pocReenable _ link => decide (link < Config.links)
  | .pocClear _ link => decide (link < Config.links)
  | .triggerDue _ n _ => decide (n < Config.links)
  | .streamPacket _ k => decide (k.link < Config.links)
  | .lineComplete _ n _ _ => decide (n < Config.links)
  | .lineTimeout _ n _ => decide (n < Config.links)
  | .controlAck _ n _ _ => decide (n < Config.links)
  | .controlResend _ n => decide (n < Config.links)
  | .cxpHeartbeat _ n => decide (n < Config.links)
  | .triggerCounterAudit _ n _ => decide (n < Config.links)
  | .cameraControlCommand _ _ n _ _ _ => decide (n < Config.links)
  | .calCaptureEnter _ _ n _ _ _ => decide (n < Config.links)
  | .calCaptureLeave _ _ n => decide (n < Config.links)
  | .stripClose _ r => decide (r < Config.rows)
  | .syncReset _ n => decide (n < Config.links)
  | .routeChangeWrite _ _ n _ _ => decide (n < Config.links)
  | .calLoad _ _ n _ _ => decide (n < Config.links)
  | .replayStart _ _ ch cam _ _ _ _ => decide (ch < Config.replayChannels) && decide (cam < Config.links)
  | .replayLine _ ch _ => decide (ch < Config.replayChannels)
  | .replayStop _ ch => decide (ch < Config.replayChannels)
  | .verdictGroup _ g => decide (g.row < Config.rows) && decide (g.job < Config.jobs)
  | .overrunNotice _ job _ row _ _ => decide (row < Config.rows) && decide (job < Config.jobs)
  | .lateConfirmMark .. => true
  | .mirrorAck .. => true
  | .mirrorResend .. => true
  | .mirrorTimeout .. => true
  | .mirrorRecord .. => true
  | .mirrorKeepalive .. => true
  | .mirrorLinkLoss .. => true
  | .slotSeal _ p => decide (p < Config.pegPorts)
  | .forcedClose _ p v => decide (p < Config.pegPorts) && decide (v < 256)
  | .statusFrame _ p _ => decide (p < Config.pegPorts)
  | .statusDeadline _ p => decide (p < Config.pegPorts)
  | .pegPortEn _ p _ => decide (p < Config.pegPorts)
  | .fullStateRequest _ p => decide (p < Config.pegPorts)
  | .quadratureEdge _ p _ _ => decide (p < Config.encPorts)
  | .toothEdge _ p _ => decide (p < Config.encPorts)
  | .toothWindowExpiry _ p => decide (p < Config.encPorts)
  | .ssiSample _ p _ _ => decide (p < Config.encPorts)
  | .beltStop _ p => decide (p < Config.encPorts)
  | .encoderLineFault _ p line => decide (p < Config.encPorts) && decide (line < 3)
  | .lineFaultClear _ p line => decide (p < Config.encPorts) && decide (line < 3)
  | .indexEdge _ p => decide (p < Config.encPorts)
  | .probeEdge _ p src => decide (p < Config.encPorts) && decide (src ≤ 32)
  | .probeSeqRead _ p => decide (p < Config.encPorts)
  | .fieldInputEdge _ ch _ => decide (ch < 32)
  | .pairLong _ k => decide (k < 8)
  | .wireBreak _ ch => decide (ch < 32)
  | .wireBreakClear _ ch => decide (ch < 32)
  | .outputFault _ n => decide (n < 17)
  | .outputRetry _ n _ => decide (n < 17)
  | .fieldGroupUndervoltage _ g => decide (g < 7)
  | .fioOutWrite .. => true
  | .fioEvtPop .. => true
  | .fioPairPop .. => true
  | .flitReceived _ d _ => decide (d < 2)
  | .tenonNak _ d => decide (d < 2)
  | .tenonReplayTimeout _ d => decide (d < 2)
  | .tenonRetrain .. => true
  | .tenonTrain .. => true
  | .tenonTrainRetry .. => true
  | .tenonResponse _ d => decide (d < 2)
  | .tenonRequestTimeout .. => true
  | .purlinFrame _ p _ _ => decide (p < Config.purlinPorts)
  | .purlinAck _ dev _ _ => decide (dev < 4096)
  | .purlinNak _ dev _ _ => decide (dev < 4096)
  | .purlinRto _ dev _ => decide (dev < 4096)
  | .hello _ p _ => decide (p < Config.purlinPorts)
  | .helloSend _ p => decide (p < Config.purlinPorts)
  | .linkFrame _ p _ => decide (p < Config.purlinPorts)
  | .marksFrame .. => true
  | .marksDeadline .. => true
  | .purlinPortDown _ p _ => decide (p < Config.purlinPorts)
  | .purlinTrain _ p _ => decide (p < Config.purlinPorts)
  | .purlinAuthRetry _ p _ => decide (p < Config.purlinPorts)
  | .purlinRekey _ p => decide (p < Config.purlinPorts)
  | .lpiEntry _ p => decide (p < Config.purlinPorts)
  | .wakeWindow _ p _ _ _ => decide (p < Config.purlinPorts)
  | .guardMiss _ p => decide (p < Config.purlinPorts)
  | .purlinRetrain _ p => decide (p < Config.purlinPorts)
  | .purlinHold _ p _ => decide (p < Config.purlinPorts)
  | .lpiReenable _ p => decide (p < Config.purlinPorts)
  | .routeSwap .. => true
  | .routeTableWrite _ _ addr _ _ => decide (0xFD000 ≤ addr) && decide (addr < 0xFF000)
  | .ptpMessage _ p _ _ _ _ => decide (p < Config.ethPorts)
  | .tb0IncWrite _ base _ => decide (base < 2)
  | .tb0StepRequest .. => true
  | .tb1Step .. => true
  | .acceptStep .. => true
  | .acceptStepLapse .. => true
  | .referenceValidityChange _ ref _ => decide (ref < 3)
  | .referenceQualified _ ref => decide (ref < 3)
  | .holdoverLong .. => true
  | .ppsInEdge .. => true
  | .ppsMissing .. => true
  | .ppsOutSecond .. => true
  | .witQuery .. => true
  | .lockRearm .. => true
  | .sourceAssert _ half num _ _ => decide (half < 2) && decide (num < 128)
  | .bucketLeak _ half num => decide (half < 2) && decide (num < 128)
  | .graceExpiry .. => true
  | .pendingAck _ k _ => decide (k < 8)
  | .selfFault _ half _ => decide (half < 2)
  | .faultLinkLoss .. => true
  | .raisedRestore _ _ half num => decide (half < 2) && decide (num < 128)
  | .degradeMaskWrite .. => true
  | .safeReq .. => true
  | .safeReqN .. => true
  | .fireOutReq .. => true
  | .resume .. => true
  | .promote .. => true
  | .kick .. => true
  | .watchdogExpiry .. => true
  | .powerOn .. => true
  | .resetN .. => true
  | .wresetN .. => true
  | .coldReq .. => true
  | .warmReq .. => true
  | .softReset .. => true
  | .optionLoad .. => true
  | .coldStart .. => true
  | .baysStart .. => true
  | .timeWaitExpiry .. => true
  | .safeExit .. => true
  | .warmRestart .. => true
  | .domainPowerFail _ d => decide (d < 60)
  | .mainInputFail => true
  | .tamperEvent .. => true
  | .zeroise .. => true
  | .commissioning .. => true
  | .ownerRotation .. => true
  | .decommissioning .. => true
  | .antiRollbackAdvance .. => true
  | .debugUnlock .. => true
  | .sessionOpen _ p _ _ _ => decide (p < Config.ethPorts)
  | .sessionIdleTimeout .. => true
  | .challengeExpiry .. => true
  | .read .. => true
  | .write .. => true
  | .registerWrite .. => true
  | .challenge .. => true
  | .result .. => true
  | .subscribe .. => true
  | .unsubscribe .. => true
  | .attest .. => true
  | .logRead .. => true
  | .label _ _ h _ _ => decide (h < 8)
  | .question _ _ j _ _ _ _ _ _ => decide (j < Config.jobs)
  | .cancel .. => true
  | .keepalive .. => true
  | .tokenGenerate _ j _ _ => decide (j < Config.jobs)
  | .streamDatagram .. => true
  | .ethFrame _ p _ _ => decide (p < Config.ethPorts)
  | .ethLinkDown _ p => decide (p < Config.ethPorts)
  | .ethTsPop _ p => decide (p < Config.ethPorts)
  | .trainStart _ _ h _ _ _ _ _ => decide (h < 8)
  | .trainingStep _ h _ _ => decide (h < 8)
  | .adaptStop _ h => decide (h < 8)
  | .approveHead _ _ h _ _ => decide (h < 8)
  | .revertHead _ _ h => decide (h < 8)
  | .classPrompt _ _ h _ _ _ => decide (h < 8)
  | .scrubLap _ n _ => decide (n < Config.bents)
  | .thermalSample .. => true
  | .powerSample .. => true
  | .fanTachLoss _ f => decide (f < 4)
  | .fanTimer _ f _ => decide (f < 4)
  | .fanRetry _ f => decide (f < 4)
  | .i2cTransaction _ c _ _ _ _ => decide (c < 2)
  | .smbusTimeout _ c => decide (c < 2)
  | .busStuck _ c _ _ => decide (c < 2)
  | .i2cRecoveryRetry _ c _ _ => decide (c < 2)
  | .pmbusPoll .. => true
  | .pwrGoodFall => true
  | .fieldGroupSupplyReturn _ g => decide (g < 7)
  | .uncorrectableCodeword _ p _ => decide (p < Config.purlinPorts)
  | .purlinTrainRetry _ p => decide (p < Config.purlinPorts)
  | .sessionClose .. => true
  | .ethLinkUp _ p => decide (p < Config.ethPorts)
  | .ptpDelayRequest _ p _ _ => decide (p < Config.ethPorts)
  | .badRequestMessage .. => true
  | .boundaryScanInstruction .. => true

end Sys2Proof
end

