-- ==== Sys2Proof/Safety.lean ====
section
/-!
DEFINITION. Sys2Proof/Safety.lean: what counts as a safe run, in the terms the statements use: a queue of well-formed commands, tables in
canonical form, a module that acts on commands, what a command does, what it leaves alone.
-/
namespace Sys2Proof

/-- Every command that waits is well formed: it names units the part has. -/
def Machine.State.queueWf (s : Machine.State) : Prop := ∀ c ∈ s.pending, c.wf = true

namespace Machine

/-- The tables of registers, of memory and of the valid granules of bent SRAM are in canonical form: numbers strictly rising, nothing
listed that an unlisted number reads as. -/
def Canon (m : Chip) : Prop := tabWf 0 m.regs = true ∧ Memory.wf m.mem = true ∧ tabWf false m.sramValid = true

/-- The commands of the supply and of RESET_N, which act on a module without supply as well. -/
def ofSupply : Instr → Bool
  | .powerOn .. | .resetN .. | .mainInputFail | .pwrGoodFall => true
  | _ => false

/-- A step that goes on. -/
def goesOn (o : Answer) : Prop := ∃ t, o = .next t

/-- The module is supplied and out of RESET_N (R481, R593): commands have their effect. -/
def Up (m : Chip) : Prop := m.supplied = true ∧ m.boot.inReset = false

/-- `m` is the module of `s` once the `dt` cycles of a command have passed; the module is supplied and out of RESET_N. -/
def Now (s : State) (dt : Nat) (m : Chip) : Prop := Up s.m ∧ m = elapse dt s.m

/-- `m` is the module of `s` once the `dt` cycles of a command have passed and, in each direction of the Tenon link, the flit slots of that
time are filled (R284); the module is supplied and out of RESET_N. -/
def Linked (s : State) (dt : Nat) (m : Chip) : Prop := Up s.m ∧ m = tnElapse dt s.m

/-- The command completes: the module becomes `m`, and the queue is as it was. -/
def Does (i : Instr) (s : State) (m : Chip) : Prop := exec i s = .next { s with m }

/-- Foreground command `c` of engine `e` starts (R32, R34): it is the next of its list, its start cycle is reached, its semaphore is
signalled, the engine is free and powered, and it is not skipped. -/
def Starts (m : Chip) (e : Engine) (c : CutEntry) : Prop := m.ready e c = true ∧ m.skips e c = false

/-- Engine `e` has started command `c` in `m`: a background segment still in progress is rolled back (R46), the engine runs what `work`
gives, and its block shows it. -/
def started (m : Chip) (e : Engine) (c : CutEntry) (work : Chip → Running × Chip) : Chip :=
  let r := work (m.rollBack e)
  (r.2.setEng e { r.2.eng e with released := false,
                                 running := some { r.1 with entry := c, closeBay := m.closeOf e c, startedAt := m.now } }).showEng e

/-- Since `m` engine `e` runs command `c`, whose work is `r`, in `t`; nothing of the work stands in memory before it completes. -/
def Begun (m t : Chip) (e : Engine) (c : CutEntry) (r : Running) : Prop :=
  (t.eng e).running = some { r with entry := c, closeBay := m.closeOf e c, startedAt := m.now } ∧ t.mem = m.mem ∧
    t.sramValid = m.sramValid ∧ t.out = m.out

/-- Nothing disturbs what engine `e` reads in `m`: no background segment is in progress on it, and no granule of bent SRAM holds faulty
code. -/
def Undisturbed (m : Chip) (e : Engine) : Prop := (m.eng e).bg = none ∧ m.sramBad = []

/-- Foreground command `c` of engine `e` is passed over (R34, R40, R49): it is the engine's next and is skipped. -/
def PassedOver (m : Chip) (e : Engine) (c : CutEntry) : Prop :=
  m.bays.running = true ∧ c.kind = .foreground ∧ (m.eng e).running = none ∧ m.isNext e c = true ∧ m.skips e c = true

/-- A session may give a signed command (R509, R532, R533): it is an operator's or a maintainer's (an owner command asks no more than
operator), the serial number is the module's, the challenge is outstanding and not older than 60 s, the signatures verify, the
module is in a lifecycle that accepts the command, and no story stick is being loaded. -/
def Admitted (m : Chip) (lives : List Nat) (owner reset : Bool) (a : Auth) (v : Session) : Prop :=
  m.session a.session = some v ∧ v.level ≠ 0 ∧ (owner = true ∨ 2 ≤ v.level) ∧ a.serialOk = true ∧
    (∃ c ∈ v.challenges, c.1 = a.challenge ∧ m.now < c.2 + 60000000000) ∧ a.sigOk = true ∧ m.trust.fuses.lifecycle ∈ lives ∧
    (reset = true ∨ m.loading = false)

/-- What every executed signed command does (R532): the challenge is consumed and the session's idle time begins again. -/
def consumed (a : Auth) (v : Session) (m : Chip) : Chip :=
  (m.touch a.session).setSession { v with lastAt := m.now, challenges := v.challenges.filter fun c => c.1 != a.challenge }

end Machine

end Sys2Proof
end

