-- ==== Sys2Proof/Certificates/Slice0/Obligations.lean ====
section
/-!
DEFINITION. Sys2Proof/Certificates/Slice0/Obligations.lean: the statements. A statement about a command names, in each clause, what the
operands and the module must meet and the module that the command then answers (`Does`); everything the equation does not name is as it
was. `Now s dt m` says that the module is supplied and out of RESET_N
and that `m` is the module once the command's `dt` cycles have passed.
-/
open Sys2Proof Sys2Proof.Machine

/-- Of a source that the module has: a rising edge, the source not asserting, sets it asserting and is handled (sticky bit,
bucket, action); a pulse is handled and leaves it down; a fall only clears its assertion. SAFE_REQ_N low is an edge of Sill
source 0; a high pin lets it fall. A lost fault link flags link_loss, asserts Sill source 3 and enters SAFE; its return clears
the assertion. (R453, R455, R458, R465, R454, R459) -/
def Obligations.ErrorOutputEdgesReachTheCollectors : Prop :=
  (∀ (s : State) (dt : Nat) (m : Chip) (half num unit : Nat), Now s dt m → half < 2 → num < 128 → srcUsed half num = true →
       ((m.errorOut ⟨half, num⟩ unit).src half num).asserting = false → Does (.sourceAssert dt half num unit true) s (((m.errorOut
       ⟨half, num⟩ unit).setSrc half num { (m.errorOut ⟨half, num⟩ unit).src half num with asserting := true }).raise ⟨half, num⟩)) ∧
  (∀ (s : State) (dt : Nat) (m : Chip) (half num unit : Nat), Now s dt m → half < 2 → num < 128 → srcUsed half num = true → (m.src
       half num).asserting = false → Does (.sourceAssert dt half num unit false) s ((m.errorOut ⟨half, num⟩ unit).raise ⟨half, num⟩)) ∧
  (∀ (s : State) (dt : Nat) (m : Chip) (half num unit : Nat), Now s dt m → half < 2 → num < 128 → srcUsed half num = true → (m.src
       half num).asserting = true → Does (.sourceAssert dt half num unit false) s (m.setSrc half num
       { m.src half num with asserting := false })) ∧
  (∀ (s : State) (dt : Nat) (m : Chip), Now s dt m → (m.src 0 0).asserting = false → Does (.safeReqN dt true) s ((m.setSrc 0 0
       { m.src 0 0 with asserting := true }).raise ⟨0, 0⟩)) ∧
  (∀ (s : State) (dt : Nat) (m : Chip), Now s dt m → Does (.safeReqN dt false) s (m.setSrc 0 0
       { m.src 0 0 with asserting := false })) ∧
  (∀ (s : State) (dt : Nat) (m : Chip), Now s dt m → Does (.faultLinkLoss dt true) s (((m.setFlag (F.FLT_CSTAT_link_loss 0)).assert
       ⟨0, 3⟩).enterSafe (some ⟨0, 3⟩))) ∧
  (∀ (s : State) (dt : Nat) (m : Chip), Now s dt m → Does (.faultLinkLoss dt false) s (m.setSrc 0 3
       { m.src 0 3 with asserting := false }))

/-- A bucket level above 0 falls by 1 once W / N has passed, and not before. A pending bit whose grace has expired is counted
and enters FIRE-OUT; with none expired nothing happens. An acknowledgement clears exactly the pending bits written as 1, but for
those that the module set in this very cycle, which stay. A watchdog period without a kick is counted, raises the
joiner-watchdog source and starts a new period; a kick starts the period again. (R456, R458, R466) -/
def Obligations.BucketsGraceAndAcknowledgements : Prop :=
  (∀ (s : State) (dt : Nat) (m : Chip) (half num : Nat), Now s dt m → half < 2 → num < 128 → m.get (F.FLT_SRC_level half num) ≠ 0 →
       (m.src half num).leakFrom + m.leakEvery ⟨half, num⟩ ≤ m.now → Does (.bucketLeak dt half num) s ((m.put (F.FLT_SRC_level half
       num) (m.get (F.FLT_SRC_level half num) - 1)).setSrc half num
       { m.src half num with leakFrom := (m.src half num).leakFrom + m.leakEvery ⟨half, num⟩ })) ∧
  (∀ (s : State) (dt : Nat) (m : Chip) (half num : Nat), Now s dt m → half < 2 → num < 128 → (m.get (F.FLT_SRC_level half num) = 0 ∨
       m.now < (m.src half num).leakFrom + m.leakEvery ⟨half, num⟩) → Does (.bucketLeak dt half num) s m) ∧
  (∀ (s : State) (dt : Nat) (m : Chip) (c : Src), Now s dt m → ((allSrcs.filter fun c => m.graceDue c) = [c]) → Does (.graceExpiry
       dt) s (((m.setSrc c.half c.num { m.src c.half c.num with escalated := true }).bump R.SUP_CNT_ESCALATE).enterFireOut (some c))) ∧
  (∀ (s : State) (dt : Nat) (m : Chip) (c : Src), Now s dt m → ((allSrcs.filter fun c => m.graceDue c) = [c]) → ∃ t, exec
       (.graceExpiry dt) s = .next t ∧ t.pending = s.pending ∧ (t.m.src c.half c.num).escalated = true) ∧
  (∀ (s : State) (dt : Nat) (m : Chip), Now s dt m → ((allSrcs.filter fun c => m.graceDue c) = []) → Does (.graceExpiry dt) s m) ∧
  (∀ (s : State) (dt : Nat) (m : Chip) (k mask : Nat), Now s dt m → k < 8 → mask < 2 ^ 32 → ((allSrcs.filter fun c => m.graceDue c)
       = []) → Does (.pendingAck dt k mask) s (m.wr (R.SUP_PEND k) (m.rd (R.SUP_PEND k) &&& ~~~(BitVec.ofNat 32 mask &&& ~~~(tabGet
       0 m.fresh (R.SUP_PEND k)))))) ∧
  (∀ (s : State) (dt : Nat) (m : Chip), Now s dt m → m.sup.wdFrom + m.get F.SUP_CFG_wd_period * 1000000 ≤ m.now → Does
       (.watchdogExpiry dt) s (({ m with sup := { m.sup with wdFrom := m.sup.wdFrom + m.get F.SUP_CFG_wd_period * 1000000 } }.bump
       R.SUP_CNT_WD).raise ⟨0, 4⟩)) ∧
  (∀ (s : State) (dt : Nat) (m : Chip), Now s dt m → Does (.kick dt) s { m with sup := { m.sup with wdFrom := m.now } })

/-- SAFE_REQ below SAFE changes the mode to SAFE with no cause source, counts it, drops an accepted resume, cancels every queued
entry, deletes every reservation and drives the outputs anew; in SAFE it changes nothing. FIRE_OUT_REQ in NORMAL or DEGRADED
changes the mode to FIRE-OUT, counts it, counts and deletes the reservations; in SAFE it only drops a resume. A disagreement of
the supervisor copies flags sup_vote, raises its source and enters SAFE. A mask is written to its two registers and acts at the
next boundary. (R459, R460, R461, R462, R464, R476, R478) -/
def Obligations.SupervisorEntersFireOutAndSafe : Prop :=
  (∀ (s : State) (dt : Nat) (m : Chip), Now s dt m → m.mode ≠ 3 → Does (.safeReq dt) s (((((m.dropResume.setMode 3 none).bump
       R.SUP_CNT_SAFE).cancelAll fun _ => true).dropResvs fun _ => true).refreshOutputs)) ∧
  (∀ (s : State) (dt : Nat) (m : Chip), Now s dt m → m.mode = 3 → Does (.safeReq dt) s m) ∧
  (∀ (s : State) (dt : Nat) (m : Chip), Now s dt m → m.mode < 2 → Does (.fireOutReq dt) s ((forAll m.fire.resvs (fun r m =>
       m.countDropped r) ((m.setMode 2 none).bump R.SUP_CNT_FIREOUT)).dropResvs fun _ => true).refreshOutputs) ∧
  (∀ (s : State) (dt : Nat) (m : Chip), Now s dt m → 2 ≤ m.mode → Does (.fireOutReq dt) s m.dropResume) ∧
  (∀ (s : State) (dt : Nat) (m : Chip) (half : Nat), Now s dt m → half < 2 → Does (.selfFault dt half true) s (((m.setFlag
       (F.FLT_CSTAT_sup_vote 0)).raise ⟨0, 2⟩).enterSafe (some ⟨0, 2⟩))) ∧
  (∀ (s : State) (dt : Nat) (m : Chip) (half : Nat), Now s dt m → half < 2 → Does (.selfFault dt half false) s ((m.draw.2.setFlag
       (F.FLT_CSTAT_reg_parity half)).enterSafe (some ⟨half, m.draw.1 % 128⟩))) ∧
  (∀ (s : State) (dt : Nat) (m : Chip) (mask : Nat), Now s dt m → mask < 2 ^ 48 → Does (.degradeMaskWrite dt mask) s ((m.wr
       R.SUP_DEGRADE_LO (BitVec.ofNat 32 mask)).wr R.SUP_DEGRADE_HI (BitVec.ofNat 32 (mask / 2 ^ 32 % 2 ^ 16))))

/-- An admitted command is counted, kept and answered, and then acts: RESUME in FIRE-OUT with its conditions met is accepted for
the next boundary; RAISED_RESTORE puts the effective severity back to the configured one, empties the bucket and clears raised;
ACCEPT_STEP permits one step; ROUTE_TABLE_WRITE writes, of four entries of the other table where it is not busy, the bits that
the mask names, and leaves the table in use as it is. (R319, R338, R414, R458, R463, R474, R532) -/
def Obligations.SignedSupervisorCommandsAct : Prop :=
  (∀ (s : State) (dt : Nat) (m : Chip) (a : Auth) (v : Session), Now s dt m → Admitted m [3] false false a v → ((consumed a v
       m).resumeOk = true) → ((consumed a v m).acceptCmd a).resumeOk = true → ((consumed a v m).acceptCmd a).mode = 2 → Does
       (.resume dt a) s { (consumed a v m).acceptCmd a with sup := { ((consumed a v m).acceptCmd a).sup with resumeDue := true } }) ∧
  (∀ (s : State) (dt : Nat) (m : Chip) (a : Auth) (v : Session) (half num : Nat), Now s dt m → half < 2 → num < 128 → Admitted m [3]
       false false a v → Does (.raisedRestore dt a half num) s (((((consumed a v m).acceptCmd a).put (F.FLT_SRC_sev_eff half num)
       (((consumed a v m).acceptCmd a).get (F.FLT_SRC_sev_cfg half num))).put (F.FLT_SRC_level half num) 0).put (F.FLT_SRC_raised
       half num) 0)) ∧
  (∀ (s : State) (dt : Nat) (m : Chip) (a : Auth) (v : Session), Now s dt m → Admitted m [3] true false a v → Does (.acceptStep dt
       a) s ((((consumed a v m).acceptCmd a).onTime fun t => { t with permitAt := some ((consumed a v m).acceptCmd a).now }).put
       F.TM_CTRL_accept_step 1)) ∧
  (∀ (s : State) (dt : Nat) (m : Chip) (a : Auth) (v : Session) (addr mask w : Nat) (x : Chip), Now s dt m → 0xFD000 ≤ addr → addr <
       0xFF000 → addr % 4 = 0 → mask < 2 ^ 32 → w < 2 ^ 32 → Admitted m [3] false false a v → x = (consumed a v m).acceptCmd a →
       (consumed a v m).tableBusy addr = false → x.tableBusy addr = false → (addr - 0xFD000) / 0x1000 ≠ x.epoch → Does
       (.routeTableWrite dt a addr mask w) s (forAll (upTo 4) (fun k y => y.onPur fun p =>
       { p with routes := tabSet 7 p.routes ((addr - 0xFD000) / 4 * 4 + k) ((BitVec.ofNat 3 (tabGet 7 y.purlin.routes ((addr - 0xFD000) / 4 * 4 + k)) &&& ~~~BitVec.ofNat 3 (mask / 2 ^ (8 * k) % 8)) ||| (BitVec.ofNat 3 (w / 2 ^ (8 * k)) &&& BitVec.ofNat 3 (mask / 2 ^ (8 * k) % 8))).toNat })
       x)) ∧
  (∀ (s : State) (dt : Nat) (m : Chip) (a : Auth) (v : Session) (addr mask w : Nat) (x : Chip), Now s dt m → 0xFD000 ≤ addr → addr <
       0xFF000 → addr % 4 = 0 → mask < 2 ^ 32 → w < 2 ^ 32 → Admitted m [3] false false a v → x = (consumed a v m).acceptCmd a →
       (consumed a v m).tableBusy addr = false → (addr - 0xFD000) / 0x1000 = x.epoch → Does (.routeTableWrite dt a addr mask w) s x)

/-- An admitted command is counted, kept and answered, and then: COMMISSIONING (lifecycle tested, service recovery) writes slot
0 with the hash it carries and the lifecycle becomes owned; OWNER_ROTATION below slot 3 writes the next slot and revokes the
active one; DECOMMISSIONING makes the lifecycle decommissioned; ANTI_ROLLBACK_ADVANCE to a version above the counter and at most
the running stick's advances the counter by the bits written, at most to that version. Nothing else changes. (R507, R509, R523,
R532) -/
def Obligations.OwnerCommandsBlowFuses : Prop :=
  (∀ (s : State) (dt : Nat) (m : Chip) (a : Auth) (v : Session) (hash : Nat), Now s dt m → Admitted m [1] true false a v → (consumed
       a v m).inRecovery = true → ((consumed a v m).acceptCmd a).inRecovery = true → Does (.commissioning dt a hash) s (((consumed a
       v m).acceptCmd a).onFuses fun f => { f with slots := [hash], active := 0, lifecycle := 3 })) ∧
  (∀ (s : State) (dt : Nat) (m : Chip) (a : Auth) (v : Session) (hash : Nat), Now s dt m → Admitted m [3] true false a v →
       m.trust.fuses.active < 3 → Does (.ownerRotation dt a hash) s (((consumed a v m).acceptCmd a).onFuses fun f =>
       { f with slots := f.slots.take (f.active + 1) ++ [hash], revoked := f.revoked ++ [f.active], active := f.active + 1 })) ∧
  (∀ (s : State) (dt : Nat) (m : Chip) (a : Auth) (v : Session), Now s dt m → Admitted m [3] true false a v → Does (.decommissioning
       dt a) s (((consumed a v m).acceptCmd a).onFuses fun f => { f with lifecycle := 7 })) ∧
  (∀ (s : State) (dt : Nat) (m : Chip) (a : Auth) (v : Session) (w written : Nat), Now s dt m → Admitted m [3] true false a v →
       m.trust.fuses.counter < w → w ≤ 128 → m.stick.loaded = true → w ≤ m.stick.version → Does (.antiRollbackAdvance dt a w
       written) s (((consumed a v m).acceptCmd a).onFuses fun f => { f with counter := min w (f.counter + written) }))

/-- An admitted ZEROISE replaces the capture-memory key; DEBUG_UNLOCK opens the scope it names, withholds the transport key,
sets debug_unlocked and responds as tamper_resp 10; PROMOTE of a standby that has taken over makes its role single, keeps the
promotion in the NV log and brings the cameras up. An opened lid sets tamper_live and tamper_seen, counts, logs, raises the
tamper source and responds as tamper_resp says; a closed lid clears tamper_live and changes nothing else. (R258, R276, R469,
R534, R537, R538) -/
def Obligations.SecurityResponsesReplaceKeys : Prop :=
  (∀ (s : State) (dt : Nat) (m : Chip) (a : Auth) (v : Session), Now s dt m → Admitted m [3] false false a v → ∃ t, exec (.zeroise
       dt a) s = .next t ∧ t.pending = s.pending ∧ ∀ g b, (g, b) ∈ t.m.mem ↔ (g, b) ∈ m.mem ∧ ¬ (2 ^ 41 ≤ g ∧ g < 2 ^ 42)) ∧
  (∀ (s : State) (dt : Nat) (m : Chip) (a : Auth) (v : Session), Now s dt m → Admitted m [3] false false a v → Does (.zeroise dt a)
       s ((consumed a v m).acceptCmd a).replaceKeys) ∧
  (∀ (s : State) (dt : Nat) (m : Chip) (a : Auth) (v : Session) (sill ridge : Bool), Now s dt m → Admitted m [3] true false a v →
       Does (.debugUnlock dt a sill ridge) s ((((((consumed a v m).acceptCmd a).onTrust fun t =>
       { t with debugSill := t.debugSill || sill, debugRidge := t.debugRidge || ridge, keyWithheld := true }).put
       F.SEC_STAT_debug_unlocked 1)).tamperAct 2)) ∧
  (∀ (s : State) (dt : Nat) (m : Chip) (a : Auth) (v : Session) (x y : Chip), Now s dt m → Admitted m [3] false false a v →
       (consumed a v m).role = 2 → (consumed a v m).flag F.SUP_MODE_took_over = true → x = ((consumed a v m).acceptCmd a) → x.role =
       2 → x.flag F.SUP_MODE_took_over = true → (y = (((x.put F.FS_STAT_role 0).put F.PUR_MIRROR_CFG_mrole 0).onBoot fun b =>
       { b with promoted := some x.stick.hash }).log "promoted" []) → Does (.promote dt a) s (forAll y.stick.cameras (fun c m =>
       m.beginBringUp c 1 false) y).refreshOutputs) ∧
  (∀ (s : State) (dt : Nat) (m : Chip) (a : Auth) (v : Session), Now s dt m → Admitted m [3] false false a v → (consumed a v m).role
       = 2 → (consumed a v m).flag F.SUP_MODE_took_over = true → ((consumed a v m).acceptCmd a).role = 2 → ((consumed a v
       m).acceptCmd a).flag F.SUP_MODE_took_over = true → ∃ t, exec (.promote dt a) s = .next t ∧ t.pending = s.pending ∧
       t.m.boot.promoted = some m.stick.hash) ∧
  (∀ (s : State) (dt : Nat) (m : Chip), Now s dt m → m.trust.lidOpen = false → ∃ t, exec (.tamperEvent dt true) s = .next t ∧
       t.pending = s.pending ∧ t.m.trust.lidOpen = true) ∧
  (∀ (s : State) (dt : Nat) (m : Chip) (x : Chip), Now s dt m → m.trust.lidOpen = false → (x = (((((m.onTrust fun t =>
       { t with lidOpen := true }).put F.SEC_STAT_tamper_live 1).setFlag F.SEC_STAT_tamper_seen).bump R.SEC_CNT_TAMPER).log "tamper"
       []).raise ⟨0, 11⟩) → Does (.tamperEvent dt true) s (x.tamperAct (x.get F.SEC_TAMPER_tamper_resp))) ∧
  (∀ (s : State) (dt : Nat) (m : Chip), Now s dt m → Does (.tamperEvent dt false) s ((m.onTrust fun t =>
       { t with lidOpen := false }).put F.SEC_STAT_tamper_live 0))

/-- A session opens on a port that is up, with firmware running, an accepted certificate that is not revoked and fewer than
eight sessions: it takes the next number, is counted and answered; with eight open it is refused. A closed session leaves no
subscription and no wait. A session without a message for 300 s closes, and not before. A challenge older than 60 s lapses.
(R530, R532, R568, R572) -/
def Obligations.SessionsOpenAndClose : Prop :=
  (∀ (s : State) (dt : Nat) (m : Chip) (p level certHash : Nat), Now s dt m → p < Config.ethPorts → level < 3 → m.get
       F.MB_STAT_fw_state ≠ 0 → m.get (F.ETH_STAT_state p) = 1 → m.trust.sessions.length < 8 → m.trust.revokedCerts.contains
       certHash = false → Does (.sessionOpen dt p level certHash true) s (((m.onTrust fun t =>
       { t with sessions := t.sessions ++ [{ id := m.trust.nextSession, port := p, level, lastAt := m.now }], nextSession := t.nextSession + 1 }).bump
       R.SEC_CNT_SESSIONS).emit (.send "tls" p "open" [m.trust.nextSession, level]))) ∧
  (∀ (s : State) (dt : Nat) (m : Chip) (p level certHash : Nat) (certOk : Bool), Now s dt m → p < Config.ethPorts → level < 3 → 8 ≤
       m.trust.sessions.length → Does (.sessionOpen dt p level certHash certOk) s (m.emit (.send "tls" p "refused" []))) ∧
  (∀ (s : State) (dt : Nat) (m : Chip) (id : Nat), Now s dt m → Does (.sessionClose dt id) s (m.closeSession id)) ∧
  (∀ (s : State) (dt : Nat) (m : Chip) (id : Nat), Now s dt m → ∃ t, exec (.sessionClose dt id) s = .next t ∧ t.pending = s.pending
       ∧ t.m.session id = none ∧ ∀ q ∈ t.m.subs, q.session ≠ id) ∧
  (∀ (s : State) (dt : Nat) (m : Chip) (id : Nat) (v : Session), Now s dt m → m.session id = some v → v.lastAt + 300000000000 ≤
       m.now → ∃ t, exec (.sessionIdleTimeout dt id) s = .next t ∧ t.pending = s.pending ∧ t.m.session id = none ∧ ∀ q ∈ t.m.subs,
       q.session ≠ id) ∧
  (∀ (s : State) (dt : Nat) (m : Chip) (id : Nat) (v : Session), Now s dt m → m.session id = some v → v.lastAt + 300000000000 ≤
       m.now → Does (.sessionIdleTimeout dt id) s (m.closeSession id)) ∧
  (∀ (s : State) (dt : Nat) (m : Chip) (id : Nat) (v : Session), Now s dt m → m.session id = some v → m.now < v.lastAt +
       300000000000 → Does (.sessionIdleTimeout dt id) s m) ∧
  (∀ (s : State) (dt : Nat) (m : Chip), Now s dt m → Does (.challengeExpiry dt) s (m.onTrust fun t =>
       { t with sessions := t.sessions.map fun s => { s with challenges := s.challenges.filter fun c => decide (m.now < c.2 + 60000000000) } }))

/-- On an open session: CHALLENGE at operator level or above with fewer than 16 outstanding issues a fresh challenge, a free
value, and answers it; with 16 it answers busy. RESULT answers the stored result of a command. ATTEST answers the report with a
free signature. LOG_READ of at most 1,024 entries answers those whose tag is good and counts and flags the others. KEEPALIVE
answers ok; a bad message is answered bad_request and resets no idle time. (R526, R530, R532, R535, R569, R570) -/
def Obligations.SessionMessagesAreAnswered : Prop :=
  (∀ (s : State) (dt : Nat) (m : Chip) (id : Nat) (v : Session), Now s dt m → (m.touch id).session id = some v → v.level ≠ 0 →
       (liveChallenges (m.touch id).now v).length < 16 → Does (.challenge dt id) s (((m.touch id).draw.2.setSession
       { v with challenges := liveChallenges (m.touch id).now v ++ [((m.touch id).draw.1 % 2 ^ 128, (m.touch id).now)] }).answer id
       "challenge" [(m.touch id).draw.1 % 2 ^ 128])) ∧
  (∀ (s : State) (dt : Nat) (m : Chip) (id : Nat) (v : Session), Now s dt m → (m.touch id).session id = some v → v.level ≠ 0 → 16 ≤
       (liveChallenges (m.touch id).now v).length → Does (.challenge dt id) s ((m.touch id).answer id "status" [2])) ∧
  (∀ (s : State) (dt : Nat) (m : Chip) (id c : Nat) (v : Session) (r : Nat × Nat), Now s dt m → (m.touch id).session id = some v →
       v.level ≠ 0 → (((m.touch id).trust.results.find? fun r => r.1 == c) = some r) → Does (.result dt id c) s ((m.touch id).answer
       id "result" [r.2])) ∧
  (∀ (s : State) (dt : Nat) (m : Chip) (id : Nat) (nonce : List Byte) (v : Session), Now s dt m → (m.touch id).session id = some v →
       Does (.attest dt id nonce) s ((m.touch id).draw.2.answer id "report" (((m.touch id).report nonce ++ leBytes 96 (m.touch
       id).draw.1).map (·.toNat)))) ∧
  (∀ (s : State) (dt : Nat) (m : Chip) (id first count : Nat) (bad : List Nat) (v : Session) (l : List NvEntry), Now s dt m →
       (m.touch id).session id = some v → (l = (m.touch id).nvLog.filter fun e => decide (first ≤ e.seq) && decide (e.seq < first +
       count)) → count ≠ 0 → count ≤ 1024 → (m.touch id).get F.RP_STRAP_boot_src ≠ 2 → Does (.logRead dt id first count bad) s
       ((((m.touch id).bumpBy R.SEC_CNT_LOG_AUTH (l.filter fun e => bad.contains e.seq).length).setFlagIf (!(l.filter fun e =>
       bad.contains e.seq).isEmpty) F.SEC_STAT_log_auth_fail).reply id (.nvLog id (l.filter fun e => !bad.contains e.seq)))) ∧
  (∀ (s : State) (dt : Nat) (m : Chip) (id : Nat) (v : Session), Now s dt m → (m.touch id).session id = some v → Does (.keepalive dt
       id) s ((m.touch id).answer id "status" [0])) ∧
  (∀ (s : State) (dt : Nat) (m : Chip) (id : Nat) (v : Session), Now s dt m → m.session id = some v → Does (.badRequestMessage dt
       id) s (m.answer id "status" [4]))

/-- EXTEST drives the pins it shifts in while the module is in service recovery and in SAFE, and acts as BYPASS otherwise;
BYPASS answers and changes nothing else; IDCODE and SAMPLE/PRELOAD answer a free value. (R536) -/
def Obligations.BoundaryScanDrivesPinsOnlyInSafeRecovery : Prop :=
  (∀ (s : State) (dt : Nat) (m : Chip) (pins : List (Nat × Bool)), Now s dt m → m.inRecovery = true → m.mode = 3 → Does
       (.boundaryScanInstruction dt 3 pins) s (forAll pins (fun p m => m.emit (.pin "J4" p.1 p.2)) m)) ∧
  (∀ (s : State) (dt : Nat) (m : Chip) (pins : List (Nat × Bool)), Now s dt m → (m.inRecovery = false ∨ m.mode ≠ 3) → Does
       (.boundaryScanInstruction dt 3 pins) s (m.emit (.send "jtag" 0 "BYPASS" []))) ∧
  (∀ (s : State) (dt : Nat) (m : Chip) (pins : List (Nat × Bool)), Now s dt m → Does (.boundaryScanInstruction dt 0 pins) s (m.emit
       (.send "jtag" 0 "BYPASS" []))) ∧
  (∀ (s : State) (dt : Nat) (m : Chip) (pins : List (Nat × Bool)), Now s dt m → Does (.boundaryScanInstruction dt 1 pins) s
       (m.draw.2.emit (.send "jtag" 0 "IDCODE" [m.draw.1])))

/-- READ of 1 to 256 aligned words answers the words of the Sill after reading them in ascending order; where some lie on the
Ridge it sends requests and waits. WRITE at operator level or above, aligned, with every mask bit in an O field, writes the Sill
register and answers ok, or sends a request to the Ridge; with any other mask bit it is denied whole and writes nothing.
REGISTER_WRITE by firmware writes an aligned register; a signed one does so once admitted; an address that is not aligned is not
accessed, and a signed write of it is answered bad_request. READ_LO_LATCH reads one register. (R11, R12, R13, R55, R292, R569,
R570) -/
def Obligations.RegistersAreReadAndWritten : Prop :=
  (∀ (s : State) (dt : Nat) (m : Chip) (id a count : Nat) (v : Session) (r : List (Option Nat) × Chip), Now s dt m → (m.touch
       id).session id = some v → a % 4 = 0 → a < 2 ^ 32 → 1 ≤ count → count ≤ 256 → (((upTo count).map fun i => a + 4 * i).all (fun
       x => !onRidge x) = true) → (r = (m.touch id).readWords ((upTo count).map fun i => a + 4 * i)) → Does (.read dt id a count) s
       (r.2.answer id "words" (r.1.map fun x => x.getD 0))) ∧
  (∀ (s : State) (dt : Nat) (m : Chip) (id a count : Nat) (v : Session) (r : List (Option Nat) × Chip) (as_ : List Nat) (reqs : List
       TnReq), Now s dt m → (m.touch id).session id = some v → a % 4 = 0 → a < 2 ^ 32 → 1 ≤ count → count ≤ 256 → (as_ = (upTo
       count).map fun i => a + 4 * i) → r = (m.touch id).readWords as_ → (reqs = (as_.zipIdx.filter fun x => onRidge x.1).map fun x
       => { tag := 0, sentAt := 0, addr := x.1, word := x.2 }) → reqs ≠ [] → Does (.read dt id a count) s (r.2.awaitRidge id false
       r.1 reqs)) ∧
  (∀ (s : State) (dt : Nat) (m : Chip) (id a : Nat) (v : Session), Now s dt m → (m.touch id).session id = some v → a % 4 = 0 → a < 2
       ^ 32 → onRidge a = false → m.tenon.waits = [] → ∃ t, exec (.read dt id a 1) s = .next t ∧ t.pending = s.pending ∧ t.m.out =
       (((m.touch id).readReg a).2.out ++ [.send "service" id "words" [((m.touch id).readReg a).1]])) ∧
  (∀ (s : State) (dt : Nat) (m : Chip) (id a mask w : Nat) (v : Session), Now s dt m → (m.touch id).session id = some v → v.level ≠
       0 → a % 4 = 0 → a < 2 ^ 32 → mask < 2 ^ 32 → w < 2 ^ 32 → oAllows a mask = true → onRidge a = false → ((m.touch id).sillWrite
       a mask w).tenon.waits = [] → ∃ t, exec (.write dt id a mask w) s = .next t ∧ t.pending = s.pending ∧ t.m.regs = ((m.touch
       id).sillWrite a mask w).regs ∧ t.m.out = ((m.touch id).sillWrite a mask w).out ++ [.send "service" id "status" [0]]) ∧
  (∀ (s : State) (dt : Nat) (m : Chip) (a mask w : Nat) (r : RegRow), Now s dt m → a % 4 = 0 → a < 2 ^ 32 → mask < 2 ^ 32 → w < 2 ^
       32 → onRidge a = false → m.unitUsed a = true → regRowAt a = some r → ¬ (R.FLT_STAT 0 0 ≤ a ∧ a < R.SUP_MODE) → m.timeWrite a
       mask w = none → m.singleWrite a mask w = none → m.arrayWrite a mask w = none → Does (.registerWrite dt none a mask w) s
       (((m.latch a none).wr a ((m.rd a &&& ~~~((r.rw ||| r.rws) &&& BitVec.ofNat 32 mask) &&& ~~~(r.w1c &&& BitVec.ofNat 32 mask
       &&& BitVec.ofNat 32 w &&& ~~~(tabGet 0 m.fresh a))) ||| (BitVec.ofNat 32 w &&& ((r.rw ||| r.rws) &&& BitVec.ofNat 32
       mask)))).refreshOutputs)) ∧
  (∀ (s : State) (dt : Nat) (m : Chip) (id a mask w : Nat) (v : Session), Now s dt m → (m.touch id).session id = some v → v.level ≠
       0 → a % 4 = 0 → a < 2 ^ 32 → mask < 2 ^ 32 → w < 2 ^ 32 → oAllows a mask = true → onRidge a = false → Does (.write dt id a
       mask w) s (((m.touch id).sillWrite a mask w).answer id "status" [0])) ∧
  (∀ (s : State) (dt : Nat) (m : Chip) (id a mask w : Nat) (v : Session), Now s dt m → (m.touch id).session id = some v → v.level ≠
       0 → a % 4 = 0 → a < 2 ^ 32 → mask < 2 ^ 32 → w < 2 ^ 32 → oAllows a mask = true → onRidge a = true → Does (.write dt id a
       mask w) s ((m.touch id).awaitRidge id true [none] [{ tag := 0, sentAt := 0, addr := a, write := some (mask, w) }])) ∧
  (∀ (s : State) (dt : Nat) (m : Chip) (id a mask w : Nat) (v : Session), Now s dt m → (m.touch id).session id = some v → v.level ≠
       0 → a % 4 = 0 → a < 2 ^ 32 → mask < 2 ^ 32 → w < 2 ^ 32 → oAllows a mask = false → Does (.write dt id a mask w) s ((m.touch
       id).answer id "status" [1])) ∧
  (∀ (s : State) (dt : Nat) (m : Chip) (a mask w : Nat), Now s dt m → a % 4 = 0 → a < 2 ^ 32 → mask < 2 ^ 32 → w < 2 ^ 32 → Does
       (.registerWrite dt none a mask w) s (m.anyWrite a mask w)) ∧
  (∀ (s : State) (dt : Nat) (m : Chip) (a : Auth) (v : Session) (x mask w : Nat), Now s dt m → x % 4 = 0 → x < 2 ^ 32 → mask < 2 ^
       32 → w < 2 ^ 32 → Admitted m [3] false false a v → Does (.registerWrite dt (some a) x mask w) s (((consumed a v m).acceptCmd
       a).anyWrite x mask w)) ∧
  (∀ (s : State) (dt : Nat) (m : Chip) (a mask w : Nat), Now s dt m → a % 4 ≠ 0 → a < 2 ^ 32 → mask < 2 ^ 32 → w < 2 ^ 32 → Does
       (.registerWrite dt none a mask w) s m) ∧
  (∀ (s : State) (dt : Nat) (m : Chip) (a : Auth) (x mask w : Nat), Now s dt m → x % 4 ≠ 0 → x < 2 ^ 32 → mask < 2 ^ 32 → w < 2 ^ 32
       → Does (.registerWrite dt (some a) x mask w) s (m.badAddress a)) ∧
  (∀ (s : State) (dt : Nat) (m : Chip) (a : Nat), Now s dt m → a % 4 = 0 → Does (.readLoLatch dt a) s (m.readReg a).2)

/-- A session with fewer than four subscriptions, sixteen not being reached in all, subscribes under the least free number and
is answered with it; beyond, it is answered busy. A subscription of its own ends on request. A due datagram sends up to a
datagram of records under the next sequence number, which skips those the dropped records would have filled, and counts the
frame; one that is not due sends nothing. A pop of an Ethernet port's timestamp queue takes its oldest entry. (R572, R573, R575,
R583) -/
def Obligations.SubscriptionsCarryRecords : Prop :=
  (∀ (s : State) (dt : Nat) (m : Chip) (id kind dest udp : Nat) (v : Session) (n : Nat), Now s dt m → (m.touch id).session id = some
       v → udp < 2 ^ 16 → kind ≤ 2 → (((m.touch id).subs.filter fun q => q.session == id).length < 4) → (m.touch id).subs.length <
       16 → n = (m.touch id).freeSub → Does (.subscribe dt id kind dest udp) s
       { (m.touch id).answer id "subscription" [n] with subs := ((m.touch id).answer id "subscription" [n]).subs ++ [{ num := n, session := id, ethPort := v.port, kind, dest, udpPort := udp }] }) ∧
  (∀ (s : State) (dt : Nat) (m : Chip) (id kind dest udp : Nat) (v : Session), Now s dt m → (m.touch id).session id = some v → udp <
       2 ^ 16 → kind ≤ 2 → (4 ≤ ((m.touch id).subs.filter fun q => q.session == id).length ∨ 16 ≤ (m.touch id).subs.length) → Does
       (.subscribe dt id kind dest udp) s ((m.touch id).answer id "status" [2])) ∧
  (∀ (s : State) (dt : Nat) (m : Chip) (id num : Nat) (v : Session), Now s dt m → (m.touch id).session id = some v → (((m.touch
       id).subs.any fun q => q.num == num && q.session == id) = true) → Does (.unsubscribe dt id num) s (Chip.answer id "status" [0]
       { (m.touch id) with subs := (m.touch id).subs.filter fun q => q.num != num })) ∧
  (∀ (s : State) (dt : Nat) (m : Chip) (num : Nat) (q : Sub) (k : Nat), Now s dt m → ((m.subs.find? fun q => q.num == num) = some q)
       → datagramDue m.now q = true → k = streamMax q.kind → Does (.streamDatagram dt num) s ((Chip.emit
       { m with subs := m.subs.map fun x => if x.num = num then { q with queue := q.queue.drop k, seq := q.seq + ceilDivN q.dropped k + 1, dropped := 0 } else x }
       (.datagram num q.kind q.ethPort q.dest q.udpPort m.trust.tcpPort (q.seq + ceilDivN q.dropped k) (datagramBytes (m.get
       F.PUR_DEV_device_id) q.kind num (q.seq + ceilDivN q.dropped k) ((q.queue.take k).map (·.2))))).bump (R.ETH_CNT_TX q.ethPort))) ∧
  (∀ (s : State) (dt : Nat) (m : Chip) (num : Nat) (q : Sub), Now s dt m → ((m.subs.find? fun q => q.num == num) = some q) →
       datagramDue m.now q = false → Does (.streamDatagram dt num) s m) ∧
  (∀ (s : State) (dt : Nat) (m : Chip) (p : Nat) (r : TsRec) (l : List TsRec), Now s dt m → p < Config.ethPorts → (m.ethPort p).ts =
       r :: l → Does (.ethTsPop dt p) s (((((m.setEthPort p { m.ethPort p with ts := l }).wr (R.ETH_TS_HDR p) (BitVec.ofNat 32 (2 ^
       31 + b2n r.tx * 2 ^ 30 + b2n r.domB * 2 ^ 29 + r.msgType % 16 * 2 ^ 20 + r.seqId % 65536))).wr64 (R.ETH_TS_TB0_LO p)
       (R.ETH_TS_TB0_HI p) r.t0).wr64 (R.ETH_TS_TB1_LO p) (R.ETH_TS_TB1_HI p) r.t1).wr64 (R.ETH_TS_TB2_LO p) (R.ETH_TS_TB2_HI p)
       r.t2)) ∧
  (∀ (s : State) (dt : Nat) (m : Chip) (p : Nat), Now s dt m → p < Config.ethPorts → (m.ethPort p).ts = [] → Does (.ethTsPop dt p) s
       (m.wr (R.ETH_TS_HDR p) 0))

/-- On a port that is up a frame with a bad FCS is flagged and counted and otherwise ignored; a good one is counted, answered
where it is ARP, neighbour discovery or echo, and counted as dropped where nothing takes it. A link that goes down flags
link_lost and closes the port's sessions; one that comes up after its start shows up. Both bring the references up to date.
(R417, R568, R584) -/
def Obligations.EthernetFramesAndLinks : Prop :=
  (∀ (s : State) (dt : Nat) (m : Chip) (p kind : Nat), Now s dt m → p < Config.ethPorts → m.get (F.ETH_STAT_state p) = 1 → Does
       (.ethFrame dt p false kind) s ((m.setFlag (F.ETH_STAT_fcs_err p)).bump (R.ETH_CNT_FCS p))) ∧
  (∀ (s : State) (dt : Nat) (m : Chip) (p kind : Nat), Now s dt m → p < Config.ethPorts → m.get (F.ETH_STAT_state p) = 1 → kind ≤ 2
       → Does (.ethFrame dt p true kind) s (((m.bump (R.ETH_CNT_RX p)).emit (.send "eth" p "answer" [kind])).bump (R.ETH_CNT_TX p))) ∧
  (∀ (s : State) (dt : Nat) (m : Chip) (p kind : Nat), Now s dt m → p < Config.ethPorts → m.get (F.ETH_STAT_state p) = 1 → 3 ≤ kind
       → kind ≤ 5 → Does (.ethFrame dt p true kind) s (m.bump (R.ETH_CNT_RX p))) ∧
  (∀ (s : State) (dt : Nat) (m : Chip) (p kind : Nat), Now s dt m → p < Config.ethPorts → m.get (F.ETH_STAT_state p) = 1 → 6 ≤ kind
       → Does (.ethFrame dt p true kind) s ((m.bump (R.ETH_CNT_RX p)).bump (R.ETH_CNT_DROP p))) ∧
  (∀ (s : State) (dt : Nat) (m : Chip) (p : Nat) (x : Chip), Now s dt m → p < Config.ethPorts → m.get (F.ETH_STAT_state p) = 1 → x =
       (m.put (F.ETH_STAT_state p) 0).setFlag (F.ETH_STAT_link_lost p) → Does (.ethLinkDown dt p) s (forAll
       ((x.trust.sessions.filter fun s => s.port == p).map (·.id)) (fun i m => m.closeSession i) x).refsUpdate) ∧
  (∀ (s : State) (dt : Nat) (m : Chip) (p : Nat), Now s dt m → p < Config.ethPorts → m.get (F.ETH_STAT_state p) = 1 → ∃ t, exec
       (.ethLinkDown dt p) s = .next t ∧ t.pending = s.pending ∧ (∀ v ∈ t.m.trust.sessions, v ∈ m.trust.sessions ∧ v.port ≠ p)) ∧
  (∀ (s : State) (dt : Nat) (m : Chip) (p : Nat), Now s dt m → p < Config.ethPorts → m.get (F.ETH_STAT_state p) ≠ 1 → m.boot.pinsOn
       = true → m.flag (F.ETH_CFG_en p) = true → Does (.ethLinkUp dt p) s (m.put (F.ETH_STAT_state p) 1).refsUpdate) ∧
  (∀ (s : State) (dt : Nat) (m : Chip) (p : Nat), Now s dt m → p < Config.ethPorts → m.get (F.ETH_STAT_state p) ≠ 1 → m.boot.failed
       = true → m.get F.MB_STAT_fw_state ≠ 0 → Does (.ethLinkUp dt p) s (m.put (F.ETH_STAT_state p) 1).refsUpdate)

/-- An increment within 100 ppm becomes TB0's (remembered outside holdover) or TB1's; one outside is clamped, flagged and
counted. A step of TB1 is always applied. A step of TB0 is applied while TB0 is unset, with a permit that has not lapsed (which
it uses up), or within jump_limit with no step during the last qual_time; any other is refused, counted and raises the time-jump
source. A permit not used within 60 s lapses. (R408, R413, R414) -/
def Obligations.TimeBasesTakeIncrementsAndSteps : Prop :=
  (∀ (s : State) (dt : Nat) (m : Chip) (v : Nat), Now s dt m → v < 2 ^ 64 → incLo ≤ v → v ≤ incHi → m.flag F.TM_STAT_holdover = true
       → Does (.tb0IncWrite dt 0 v) s ((m.onTime fun t => { t with inc0 := v }).wr64 R.TM_TB0_INC_LO R.TM_TB0_INC_HI v)) ∧
  (∀ (s : State) (dt : Nat) (m : Chip) (v : Nat), Now s dt m → v < 2 ^ 64 → incLo ≤ v → v ≤ incHi → Does (.tb0IncWrite dt 1 v) s
       ((m.onTime fun t => { t with inc1 := v }).wr64 R.TM_TB1_INC_LO R.TM_TB1_INC_HI v)) ∧
  (∀ (s : State) (dt : Nat) (m : Chip) (v : Nat), Now s dt m → v < 2 ^ 64 → incHi < v → Does (.tb0IncWrite dt 1 v) s ((((m.setFlag
       F.TM_STAT_inc_clamped).bump R.TM_CNT_CLAMP).onTime fun t => { t with inc1 := incHi }).wr64 R.TM_TB1_INC_LO R.TM_TB1_INC_HI
       incHi)) ∧
  (∀ (s : State) (dt : Nat) (m : Chip) (step : Int), Now s dt m → Does (.tb1Step dt step) s (((m.wr64 R.TM_TB1_STEP_LO
       R.TM_TB1_STEP_HI (unsignedOf 64 step)).onTime fun t => { t with tb1 := stepBase t.tb1 step }).put F.TM_STAT_tb1_set 1)) ∧
  (∀ (s : State) (dt : Nat) (m : Chip) (step : Int), Now s dt m → (m.wr64 R.TM_TB0_STEP_LO R.TM_TB0_STEP_HI (unsignedOf 64
       step)).tb0Set = false → (m.wr64 R.TM_TB0_STEP_LO R.TM_TB0_STEP_HI (unsignedOf 64 step)).permitHeld = false → ∃ t, exec
       (.tb0StepRequest dt step) s = .next t ∧ t.pending = s.pending ∧ t.m.time.tb0 = stepBase m.time.tb0 step ∧ t.m.time.lastStepAt
       = some m.now) ∧
  (∀ (s : State) (dt : Nat) (m : Chip) (step : Int), Now s dt m → (m.wr64 R.TM_TB0_STEP_LO R.TM_TB0_STEP_HI (unsignedOf 64
       step)).permitHeld = true → ∃ t, exec (.tb0StepRequest dt step) s = .next t ∧ t.pending = s.pending ∧ t.m.time.tb0 = stepBase
       m.time.tb0 step ∧ t.m.time.lastStepAt = some m.now) ∧
  (∀ (s : State) (dt : Nat) (m : Chip) (step : Int), Now s dt m → (m.wr64 R.TM_TB0_STEP_LO R.TM_TB0_STEP_HI (unsignedOf 64
       step)).tb0Set = true → (m.wr64 R.TM_TB0_STEP_LO R.TM_TB0_STEP_HI (unsignedOf 64 step)).permitHeld = false → step.natAbs ≤
       (m.wr64 R.TM_TB0_STEP_LO R.TM_TB0_STEP_HI (unsignedOf 64 step)).jumpLimit → m.time.lastStepAt = none → ∃ t, exec
       (.tb0StepRequest dt step) s = .next t ∧ t.pending = s.pending ∧ t.m.time.tb0 = stepBase m.time.tb0 step ∧ t.m.time.lastStepAt
       = some m.now) ∧
  (∀ (s : State) (dt : Nat) (m : Chip) (step : Int) (x : Chip), Now s dt m → x = m.wr64 R.TM_TB0_STEP_LO R.TM_TB0_STEP_HI
       (unsignedOf 64 step) → x.tb0Set = false → x.permitHeld = false → Does (.tb0StepRequest dt step) s (x.applyStep step)) ∧
  (∀ (s : State) (dt : Nat) (m : Chip) (step : Int) (x : Chip), Now s dt m → x = m.wr64 R.TM_TB0_STEP_LO R.TM_TB0_STEP_HI
       (unsignedOf 64 step) → x.permitHeld = true → Does (.tb0StepRequest dt step) s (x.clearPermit.applyStep step)) ∧
  (∀ (s : State) (dt : Nat) (m : Chip) (step : Int) (x : Chip), Now s dt m → x = m.wr64 R.TM_TB0_STEP_LO R.TM_TB0_STEP_HI
       (unsignedOf 64 step) → x.tb0Set = true → x.permitHeld = false → step.natAbs ≤ x.jumpLimit → x.time.lastStepAt = none → Does
       (.tb0StepRequest dt step) s (x.applyStep step)) ∧
  (∀ (s : State) (dt : Nat) (m : Chip) (step : Int) (x : Chip), Now s dt m → x = m.wr64 R.TM_TB0_STEP_LO R.TM_TB0_STEP_HI
       (unsignedOf 64 step) → x.tb0Set = true → x.permitHeld = false → x.jumpLimit < step.natAbs → x.refCur = 4 → Does
       (.tb0StepRequest dt step) s (((x.setFlag F.TM_STAT_jump_refused).bump R.TM_CNT_REFUSE).raise ⟨0, 40⟩).refEval) ∧
  (∀ (s : State) (dt : Nat) (m : Chip), Now s dt m → m.time.permitAt.isSome = true → m.permitHeld = false → Does (.acceptStepLapse
       dt) s m.clearPermit) ∧
  (∀ (s : State) (dt : Nat) (m : Chip), Now s dt m → m.permitHeld = true → Does (.acceptStepLapse dt) s m)

/-- A change of a reference's master and timers is remembered and the selection evaluated anew. A reference valid for qual_time
without a break becomes qualified. Holdover of holdover_max is flagged and raises the holdover source; with no reference
qualified for as long the time-reference source goes up. A PPS edge puts TB0 and its signed distance from the whole second in
the registers; a PPS edge missing for 1.2 s is flagged and counted. PPS_OUT rises at a whole second of its base and falls after
pps_width. (R415, R417, R418, R422, R423) -/
def Obligations.ReferencesAreFollowed : Prop :=
  (∀ (s : State) (dt : Nat) (m : Chip) (i : Nat) (ok : Bool), Now s dt m → i < 3 → Does (.referenceValidityChange dt i ok) s
       (m.setRef i { m.ref i with ok }).refsUpdate) ∧
  (∀ (s : State) (dt : Nat) (m : Chip) (i : Nat) (ok : Bool), Now s dt m → i < 3 → m.time.refs.length = 3 → ∃ t, exec
       (.referenceValidityChange dt i ok) s = .next t ∧ t.pending = s.pending ∧ (t.m.ref i).ok = ok) ∧
  (∀ (s : State) (dt : Nat) (m : Chip) (i : Nat) (x : Chip) (t : Nat), Now s dt m → i < 3 → x = m.refsUpdate → (x.ref i).validFrom =
       some t → x.refValid i = true → t + x.qualNs ≤ x.now → Does (.referenceQualified dt i) s (x.putQual i true).refEval) ∧
  (∀ (s : State) (dt : Nat) (m : Chip) (t : Nat), Now s dt m → m.time.holdSince = some t → t + m.get F.TM_LIMITS_holdover_max *
       1000000000 ≤ m.now → m.time.noQualSince = none → Does (.holdoverLong dt) s ((m.setFlag F.TM_STAT_holdover_long).assert ⟨0,
       41⟩)) ∧
  (∀ (s : State) (dt : Nat) (m : Chip), Now s dt m → m.time.holdSince = none → m.time.noQualSince = none → Does (.holdoverLong dt) s
       m) ∧
  (∀ (s : State) (dt : Nat) (m : Chip), Now s dt m → Does (.ppsInEdge dt) s (((((m.wr64 R.TM_PPS_IN_LO R.TM_PPS_IN_HI m.tb0).wr
       R.TM_PPS_ERR (BitVec.ofInt 32 (secondErr m.tb0))).onTime fun t => { t with ppsEdges := (m.now :: t.ppsEdges).take 4 }).setRef
       2 { m.ref 2 with offset := some (secondErr m.tb0) }).refsUpdate)) ∧
  (∀ (s : State) (dt : Nat) (m : Chip) (a : Nat) (l : List Nat), Now s dt m → m.time.ppsEdges = a :: l → a + 1200000000 ≤ m.now →
       Does (.ppsMissing dt) s ((((m.onTime fun t => { t with ppsEdges := [] }).setFlag F.TM_STAT_pps_missing).bump
       R.TM_CNT_PPS_MISS).refsUpdate)) ∧
  (∀ (s : State) (dt : Nat) (m : Chip), Now s dt m → m.get F.TM_CFG_pps_src = 1 → m.tb0Set = true → m.tb0 / 1000000000 ≠
       m.time.ppsLastSecond → Does (.ppsOutSecond dt) s ((m.onTime fun t =>
       { t with ppsOut := true, ppsOutSince := m.now, ppsLastSecond := m.tb0 / 1000000000 }).emit (.pin "PPS_OUT" 0 true))) ∧
  (∀ (s : State) (dt : Nat) (m : Chip), Now s dt m → m.get F.TM_CFG_pps_src = 1 → m.tb0Set = true → m.tb0 / 1000000000 =
       m.time.ppsLastSecond → m.time.ppsOut = true → m.time.ppsOutSince + m.get F.TM_CFG_pps_width * 1000000 ≤ m.now → Does
       (.ppsOutSecond dt) s ((m.onTime fun t => { t with ppsOut := false }).emit (.pin "PPS_OUT" 0 false)))

/-- A received frame is counted; a message of neither domain does nothing else. An event message of a domain that needs no
answer is timestamped; a general message is not. A Sync of domain A with a measured offset brings the references up to date. A
delay request is sent with the next sequence number, counted and timestamped on transmission. (R410, R411, R412, R583) -/
def Obligations.PtpMessagesAreStamped : Prop :=
  (∀ (s : State) (dt : Nat) (m : Chip) (p msgType domain seqId : Nat) (offset : Option Int) (x : Chip), Now s dt m → p <
       Config.ethPorts → msgType < 16 → domain < 256 → seqId < 2 ^ 16 → x = m.bump (R.ETH_CNT_RX p) → domain ≠ x.get
       F.TM_CFG_domain_a → domain ≠ x.get F.TM_CFG_domain_b → Does (.ptpMessage dt p msgType domain seqId offset) s x) ∧
  (∀ (s : State) (dt : Nat) (m : Chip) (p msgType domain seqId : Nat) (x : Chip), Now s dt m → p < Config.ethPorts → msgType < 16 →
       domain < 256 → seqId < 2 ^ 16 → x = m.bump (R.ETH_CNT_RX p) → domain = x.get F.TM_CFG_domain_a → msgType < 4 → msgType ≠ 2 →
       Does (.ptpMessage dt p msgType domain seqId none) s (x.pushTs p false false msgType seqId)) ∧
  (∀ (s : State) (dt : Nat) (m : Chip) (p msgType domain seqId : Nat) (x : Chip), Now s dt m → p < Config.ethPorts → msgType < 16 →
       domain < 256 → seqId < 2 ^ 16 → x = m.bump (R.ETH_CNT_RX p) → domain = x.get F.TM_CFG_domain_a → 4 ≤ msgType → Does
       (.ptpMessage dt p msgType domain seqId none) s x) ∧
  (∀ (s : State) (dt : Nat) (m : Chip) (p domain : Nat) (peer : Bool) (x : Chip), Now s dt m → p < Config.ethPorts → domain < 256 →
       x = ((m.emit (.send "eth" p (if peer then "Pdelay_Req" else "Delay_Req") [domain, (m.ethPort p).delaySeq])).bump
       (R.ETH_CNT_TX p)).pushTs p true (domain != m.get F.TM_CFG_domain_a) (if peer then 2 else 1) (m.ethPort p).delaySeq → Does
       (.ptpDelayRequest dt p domain peer) s (x.setEthPort p { x.ethPort p with delaySeq := ((m.ethPort p).delaySeq + 1) % 65536 }))

/-- With the other level there, a rising main input or PWR_GOOD begins a power-on reset with the straps as sampled; without it
only the level rises. A main input that fails and a PWR_GOOD that falls leave the module blank with that level low. A RESET_N
pulse of 250 ns or more is a cold reset held until the pin is high again; one below 100 ns does nothing; the pin high again ends
the hold. WRESET_N acts alike for a warm reset. (R480, R481, R483, R490, R495, R593) -/
def Obligations.SupplyAndResetPinsAct : Prop :=
  (∀ (s : State) (bootSrc clk : Nat), bootSrc < 4 → clk < 4 → s.m.boot.mainInput = true → Does (.powerOn true bootSrc clk) s
       ((s.m.onBoot fun b => { b with pwrGood := true }).powerOnReset bootSrc clk)) ∧
  (∀ (s : State) (bootSrc clk : Nat), bootSrc < 4 → clk < 4 → s.m.boot.pwrGood = true → Does (.powerOn false bootSrc clk) s
       ((s.m.onBoot fun b => { b with mainInput := true }).powerOnReset bootSrc clk)) ∧
  (∀ (s : State) (bootSrc clk : Nat), bootSrc < 4 → clk < 4 → s.m.boot.mainInput = false → Does (.powerOn true bootSrc clk) s
       (s.m.onBoot fun b => { b with pwrGood := true })) ∧
  (∀ (s : State) (bootSrc clk : Nat), bootSrc < 4 → clk < 4 → s.m.boot.mainInput = true → ∃ t, exec (.powerOn true bootSrc clk) s =
       .next t ∧ t.pending = s.pending ∧ t.m.mem = [] ∧ t.m.boot.step = 0 ∧ t.m.boot.optionDone = false ∧ t.m.trust.fuses =
       s.m.trust.fuses ∧ t.m.boot.pwrGood = true ∧ t.m.boot.mainInput = true) ∧
  (∀ (s : State) (dt ns : Nat), s.m.supplied = true → 250 ≤ ns → ∃ t, exec (.resetN dt (some ns)) s = .next t ∧ t.pending =
       s.pending ∧ t.m.mem = [] ∧ t.m.boot.step = 0 ∧ t.m.boot.optionDone = false ∧ t.m.trust.fuses = s.m.trust.fuses ∧
       t.m.boot.inReset = true ∧ t.m.boot.startAt = (elapse dt s.m).now) ∧
  (∀ (s : State) (dt : Nat) (m : Chip) (ns : Nat), Now s dt m → 250 ≤ ns → m.boot.inReset = false → m.boot.optionDone = true →
       m.boot.memTrained = true → ∃ t, exec (.wresetN dt (some ns)) s = .next t ∧ t.pending = s.pending ∧ t.m.boot.inWarm = true ∧
       t.m.boot.step = 3 ∧ t.m.boot.warm = true ∧ t.m.boot.failed = false ∧ t.m.boot.startAt = m.now) ∧
  (∀ (s : State), Does (.mainInputFail) s (s.m.blank.onBoot fun b => { b with mainInput := false })) ∧
  (∀ (s : State), Does (.pwrGoodFall) s (s.m.blank.onBoot fun b => { b with pwrGood := false })) ∧
  (∀ (s : State) (dt ns : Nat), s.m.supplied = true → 250 ≤ ns → Does (.resetN dt (some ns)) s (((elapse dt s.m).coldReset 1).onBoot
       fun b => { b with inReset := true })) ∧
  (∀ (s : State) (dt ns : Nat), s.m.supplied = true → ns < 100 → Does (.resetN dt (some ns)) s (elapse dt s.m)) ∧
  (∀ (s : State) (dt : Nat) (m : Chip), s.m.supplied = true → s.m.boot.inReset = true → m = elapse dt s.m → Does (.resetN dt none) s
       (m.onBoot fun b => { b with inReset := false, startAt := m.now })) ∧
  (∀ (s : State) (dt : Nat) (m : Chip) (ns : Nat), Now s dt m → 250 ≤ ns → Does (.wresetN dt (some ns)) s ((m.warmReset 4).onBoot
       fun b => { b with inWarm := true })) ∧
  (∀ (s : State) (dt : Nat) (m : Chip) (ns : Nat), Now s dt m → ns < 100 → Does (.wresetN dt (some ns)) s m) ∧
  (∀ (s : State) (dt : Nat) (m : Chip), Now s dt m → m.boot.inWarm = true → Does (.wresetN dt none) s (m.onBoot fun b =>
       { b with inWarm := false, startAt := m.now }))

/-- Firmware's cold_req is a cold reset of cause 2 and warm_req a warm reset of cause 5; the signed commands are the same once
admitted, also while a story stick loads. A soft reset of one idle block returns it to its idle state and is counted; of a busy
one it is refused, flagged and counted. A domain without power-good is marked, switched off and raises the supply source; a
bent's runs nothing more in this bay. MARGIN_RESET begins the smallest slack anew. (R480, R496, R497, R498, R501, R502) -/
def Obligations.RequestedResetsAndBlocks : Prop :=
  (∀ (s : State) (dt : Nat) (m : Chip), Now s dt m → Does (.coldReq dt none) s (m.coldReset 2)) ∧
  (∀ (s : State) (dt : Nat) (m : Chip) (a : Auth) (v : Session), Now s dt m → Admitted m [3] false true a v → Does (.coldReq dt
       (some a)) s (((consumed a v m).acceptCmd a).coldReset 2)) ∧
  (∀ (s : State) (dt : Nat) (m : Chip), Now s dt m → Does (.warmReq dt none) s (m.warmReset 5)) ∧
  (∀ (s : State) (dt : Nat) (m : Chip) (a : Auth) (v : Session), Now s dt m → Admitted m [3] false true a v → Does (.warmReq dt
       (some a)) s (((consumed a v m).acceptCmd a).warmReset 5)) ∧
  (∀ (s : State) (dt : Nat) (m : Chip), Now s dt m → ∃ t, exec (.coldReq dt none) s = .next t ∧ t.pending = s.pending ∧ t.m.mem = []
       ∧ t.m.boot.step = 0 ∧ t.m.boot.optionDone = false ∧ t.m.trust.fuses = m.trust.fuses ∧ t.m.boot.startAt = m.now) ∧
  (∀ (s : State) (dt : Nat) (m : Chip), Now s dt m → m.boot.inReset = false → m.boot.optionDone = true → m.boot.memTrained = true →
       ∃ t, exec (.warmReq dt none) s = .next t ∧ t.pending = s.pending ∧ t.m.boot.step = 3 ∧ t.m.boot.warm = true ∧ t.m.boot.failed
       = false ∧ t.m.boot.startAt = m.now) ∧
  (∀ (s : State) (dt : Nat) (m : Chip), Now s dt m → m.blockIdle 6 = true → ∃ t, exec (.softReset dt 64) s = .next t ∧ t.pending =
       s.pending ∧ t.m.pp.pending = [] ∧ t.m.pp.queue = [] ∧ t.m.pp.sealedFor = none) ∧
  (∀ (s : State) (dt : Nat) (m : Chip) (i mask : Nat), Now s dt m → mask < 2 ^ 13 → ((upTo 13).filter (bitN mask)) = [i] →
       m.blockIdle i = true → Does (.softReset dt mask) s ((m.softBlock i).bump R.RP_CNT_SOFT)) ∧
  (∀ (s : State) (dt : Nat) (m : Chip) (i mask : Nat), Now s dt m → mask < 2 ^ 13 → ((upTo 13).filter (bitN mask)) = [i] →
       m.blockIdle i = false → Does (.softReset dt mask) s (((m.setFlag F.RP_SOFT_STAT_RESET_REFUSED).setBit R.RP_SOFT_STAT i).bump
       R.RP_CNT_REFUSED)) ∧
  (∀ (s : State) (dt : Nat) (m : Chip) (d : Nat), Now s dt m → 32 ≤ d → d < 60 → Does (.domainPowerFail dt d) s ((((m.setBit
       (R.RP_PWR_FAIL (d / 32)) (d % 32))).setDomain d false).raise ⟨0, 8⟩)) ∧
  (∀ (s : State) (dt : Nat) (m : Chip) (d : Nat) (x : Chip), Now s dt m → d < 32 → x = (((m.setBit (R.RP_PWR_FAIL (d / 32)) (d %
       32))).setDomain d false).raise ⟨0, 8⟩ → Does (.domainPowerFail dt d) s ((x.setEng (.bent d)
       { x.eng (.bent d) with wakeFailed := true, wakeAt := none }).showBent d)) ∧
  (∀ (s : State) (dt : Nat) (m : Chip), Now s dt m → Does (.marginReset dt) s (m.put F.RC_SLACK_MIN_min_margin 0x3FFFFF))

/-- Option loading ends in step 1, or, where it fails, in phase 1111. COLD_START and WARM_RESTART carry out the steps that are
due; a boot firmware that fails its check on a warm restart ends it in phase 1111. Bays start at the first boundary of TB0 once
it is set, with TB3 loaded from it; on a warm restart at the next boundary of TB3; time_wait after step 7 without TB0 at a
boundary of the unset TB3, flagged no_time. The end of SAFE notes the start's time and cause and sets the mode NORMAL where no
source of severity 3 asserts and the role is not standby. (R484, R485, R486, R488, R489, R490, R503) -/
def Obligations.StartProceedsStepByStep : Prop :=
  (∀ (s : State) (dt : Nat) (m : Chip) (fwHash : Nat), Now s dt m → m.boot.optionDone = false → m.boot.failed = false → m.boot.step
       = 0 → m.boot.inReset = false → m.boot.inWarm = false → 2 ≤ m.get F.RP_STRAP_clk_mode → Does (.optionLoad dt false fwHash) s
       ((m.setPhase 1).onBoot fun b => { b with optionDone := true, step := 1, fwHash })) ∧
  (∀ (s : State) (dt : Nat) (m : Chip) (fwHash : Nat), Now s dt m → m.boot.optionDone = false → m.boot.failed = false → m.boot.step
       = 0 → m.boot.inReset = false → m.boot.inWarm = false → 2 ≤ m.get F.RP_STRAP_clk_mode → Does (.optionLoad dt true fwHash) s
       ((m.setPhase 15).onBoot fun b => { b with failed := true })) ∧
  (∀ (s : State) (dt : Nat) (m : Chip) (img : Image) (t : MemTrain), Now s dt m → m.boot.optionDone = true → m.boot.warm = false →
       m.boot.inWarm = false → m.boot.failed = false → m.boot.step = 1 → Does (.coldStart dt img t 2) s (m.bootStep 2 img t)) ∧
  (∀ (s : State) (dt : Nat) (m : Chip) (img : Image) (tr : MemTrain), Now s dt m → m.boot.optionDone = true → m.boot.warm = false →
       m.boot.inWarm = false → m.boot.failed = false → m.boot.step = 1 → 2 ≤ m.get F.RP_STRAP_boot_src → ∃ t, exec (.coldStart dt
       img tr 2) s = .next t ∧ t.pending = s.pending ∧ t.m.boot.step = 2 ∧ t.m.boot.failed = false ∧ t.m.sup.wdFrom = m.now) ∧
  (∀ (s : State) (dt : Nat) (m : Chip) (img : Image), Now s dt m → m.boot.warm = true → m.boot.inWarm = false → m.boot.failed =
       false → m.boot.step = 3 → Does (.warmRestart dt true img 3) s (m.setPhase 3)) ∧
  (∀ (s : State) (dt : Nat) (m : Chip) (img : Image) (t : MemTrain) (last : Nat), Now s dt m → m.boot.optionDone = true →
       m.boot.warm = false → m.boot.inWarm = false → Does (.coldStart dt img t last) s (m.bootSteps [2, 3, 4, 5, 6, 7] last img t)) ∧
  (∀ (s : State) (dt : Nat) (m : Chip) (img : Image) (last : Nat), Now s dt m → m.boot.warm = true → m.boot.inWarm = false →
       m.boot.failed = false → m.boot.step = 3 → Does (.warmRestart dt true img last) s ((m.setPhase 3).bootSteps [4, 5, 6, 7] last
       img {})) ∧
  (∀ (s : State) (dt : Nat) (m : Chip) (img : Image) (last : Nat), Now s dt m → m.boot.warm = true → m.boot.inWarm = false →
       m.boot.failed = false → m.boot.step = 3 → m.get F.RP_BOOT_STAT_phase = 1 → Does (.warmRestart dt false img last) s
       ((m.setPhase 15).onBoot fun b => { b with failed := true })) ∧
  (∀ (s : State) (dt : Nat) (m : Chip), Now s dt m → m.boot.step = 7 → m.boot.failed = false → m.boot.everBays = false → m.tb0Set =
       true → atBoundary m.tb0 m.period = true → Does (.baysStart dt) s m.loadTb3.beginBays) ∧
  (∀ (s : State) (dt : Nat) (m : Chip), Now s dt m → m.boot.step = 7 → m.boot.failed = false → m.boot.everBays = true → m.flag
       F.RP_BOOT_FLAGS_realign_due = false → atBoundary m.tb3 m.period = true → m.bay < m.tb3 / m.period → Does (.baysStart dt) s
       m.beginBays) ∧
  (∀ (s : State) (dt : Nat) (m : Chip), Now s dt m → m.boot.step = 7 → m.boot.failed = false → m.boot.everBays = false → m.tb0Set =
       false → m.boot.step7At + m.stick.timeWait * 1000000000 ≤ m.now → atBoundary m.tb3 m.period = true → Does (.timeWaitExpiry dt)
       s (m.setFlag F.RP_BOOT_FLAGS_no_time).beginBays) ∧
  (∀ (s : State) (dt : Nat) (m : Chip), Now s dt m → m.boot.step = 7 → m.boot.failed = false → m.boot.everBays = false → m.tb0Set =
       true → atBoundary m.tb0 m.period = true → ∃ t, exec (.baysStart dt) s = .next t ∧ t.pending = s.pending ∧ t.m.bays.running =
       true ∧ t.m.bay = m.tb0 / m.period ∧ t.m.boot.step = 9 ∧ t.m.boot.everBays = true) ∧
  (∀ (s : State) (dt : Nat) (m : Chip), Now s dt m → m.boot.step = 7 → m.boot.failed = false → m.boot.everBays = false → m.tb0Set =
       false → m.boot.step7At + m.stick.timeWait * 1000000000 ≤ m.now → atBoundary m.tb3 m.period = true → ∃ t, exec
       (.timeWaitExpiry dt) s = .next t ∧ t.pending = s.pending ∧ t.m.bays.running = true ∧ t.m.bay = m.tb3 / (m.setFlag
       F.RP_BOOT_FLAGS_no_time).period ∧ t.m.boot.step = 9 ∧ t.m.boot.everBays = true) ∧
  (∀ (s : State) (dt : Nat) (m : Chip) (x y : Chip), Now s dt m → m.exitDue = true → m.mode ≠ 3 → (x = ((m.onBoot fun b =>
       { b with step := 10 }).put F.RP_BOOT_TIME_warm (b2n m.boot.warm)).put F.RP_BOOT_TIME_ms (min 131071 ((m.now - m.boot.startAt)
       / 1000000))) → x.sev3Asserting = false → x.role ≠ 2 → y = x.setMode 0 none → Does (.safeExit dt) s (Chip.refreshOutputs
       { (y.wr R.SUP_DEGRADE_LO 0).wr R.SUP_DEGRADE_HI 0 with sup := { y.sup with mask := 0 } }))

/-- A quadrature edge on one input moves the count by one, up when A leads B unless inverted; both inputs at once are an illegal
transition, flagged and counted, and count nothing; a lost port or another mode keeps only the levels. The first tooth of a port
that does not run moves the count by ct and is accepted without a window; a tooth before win_lo is noise, flagged, counted, and
marks the changes near it; a window that ends makes a synthetic tooth. The first SSI sample loads the count; one with the line
low is rejected, flagged and counted, and the third in a row loses the port. A belt without a change for twice the last interval
stops: the position is held. (R344, R345, R346, R347, R348, R350, R351, R352) -/
def Obligations.EncodersCountAndStop : Prop :=
  (∀ (s : State) (dt : Nat) (m : Chip) (p : Nat) (a b : Bool) (e : EncPort), Now s dt m → p < Config.encPorts → e = m.enc p →
       m.encMode p = 1 → m.get (F.ENC_STAT_state p) ≠ 4 → e.a ≠ a → e.b = b → Does (.quadratureEdge dt p a b) s ((m.setEnc p
       { e with a, b }).quadStep p (if (a != b) != m.flag (F.ENC_CFG_invert p) then 1 else -1))) ∧
  (∀ (s : State) (dt : Nat) (m : Chip) (p : Nat) (a b : Bool) (e : EncPort), Now s dt m → p < Config.encPorts → e = m.enc p →
       m.encMode p = 1 → m.get (F.ENC_STAT_state p) ≠ 4 → e.a = a → e.b ≠ b → Does (.quadratureEdge dt p a b) s ((m.setEnc p
       { e with a, b }).quadStep p (if (a == b) != m.flag (F.ENC_CFG_invert p) then 1 else -1))) ∧
  (∀ (s : State) (dt : Nat) (m : Chip) (p : Nat) (a b : Bool) (e : EncPort), Now s dt m → p < Config.encPorts → e = m.enc p →
       m.encMode p = 1 → m.get (F.ENC_STAT_state p) ≠ 4 → e.a ≠ a → e.b ≠ b → Does (.quadratureEdge dt p a b) s (((m.setEnc p
       { e with a, b }).setFlag (F.ENC_STAT_illegal p)).bump (R.ENC_CNT_ILLEGAL p))) ∧
  (∀ (s : State) (dt : Nat) (m : Chip) (p : Nat) (a b : Bool), Now s dt m → p < Config.encPorts → (m.encMode p ≠ 1 ∨ m.get
       (F.ENC_STAT_state p) = 4) → Does (.quadratureEdge dt p a b) s (m.setEnc p { m.enc p with a, b })) ∧
  (∀ (s : State) (dt : Nat) (m : Chip) (p : Nat) (b : Bool) (e : EncPort) (x y : Chip), Now s dt m → p < Config.encPorts → m.encMode
       p = 2 → m.get (F.ENC_STAT_state p) = 0 → (m.closeWindows p 3) = m → e = m.enc p → e.acqTeeth = 0 → x = m.encMove p (if m.flag
       (F.ENC_CFG_dir_src p) && !b then -(m.toothCt p : Int) else m.toothCt p) → y = (x.setEnc p
       { x.enc p with acqTeeth := 1 }).setEncState p 1 → Does (.toothEdge dt p b) s ((y.setEnc p
       { y.enc p with lastTooth := some m.cyc, prevReal := true }).rephase p (qOfInt (x.enc p).count) ⟨0, 1⟩ (x.enc p).count)) ∧
  (∀ (s : State) (dt : Nat) (m : Chip) (p : Nat) (b : Bool) (d : Int), Now s dt m → p < Config.encPorts → m.encMode p = 2 → m.get
       (F.ENC_STAT_state p) = 0 → (m.closeWindows p 3) = m → (m.enc p).acqTeeth = 0 → (d = if m.flag (F.ENC_CFG_dir_src p) && !b
       then -(m.toothCt p : Int) else m.toothCt p) → ∃ t, exec (.toothEdge dt p b) s = .next t ∧ t.pending = s.pending ∧ (t.m.enc
       p).count = wrap48 ((m.enc p).count + d) ∧ (t.m.enc p).up = decide (0 ≤ d) ∧ (t.m.enc p).lastTooth = some m.cyc ∧ (t.m.enc
       p).acqTeeth = 1) ∧
  (∀ (s : State) (dt : Nat) (m : Chip) (p : Nat) (b : Bool) (q l : Nat), Now s dt m → p < Config.encPorts → m.encMode p = 2 → m.get
       (F.ENC_STAT_state p) = 2 → (m.closeWindows p 3) = m → (m.enc p).period = some q → (m.enc p).lastTooth = some l → qLt (qOfInt
       (m.cyc - l : Nat)) (qMul (m.winLo p) (qOfInt q)) = true → Does (.toothEdge dt p b) s (((m.setFlag (F.ENC_STAT_noise p)).bump
       (R.ENC_CNT_NOISE p)).markEstimate p (m.toothPos p m.cyc))) ∧
  (∀ (s : State) (dt : Nat) (m : Chip) (p : Nat), Now s dt m → p < Config.encPorts → m.encMode p = 2 → m.windowOver p true = true →
       Does (.toothWindowExpiry dt p) s (m.windowClose p)) ∧
  (∀ (s : State) (dt : Nat) (m : Chip) (p q l : Nat), Now s dt m → p < Config.encPorts → m.encMode p = 2 → m.windowOver p true =
       true → (m.enc p).period = some q → (m.enc p).lastTooth = some l → (m.enc p).synthRun < 2 → ∃ t, exec (.toothWindowExpiry dt
       p) s = .next t ∧ t.pending = s.pending ∧ (t.m.enc p).lastTooth = some (l + q) ∧ (t.m.enc p).synthRun = (m.enc p).synthRun + 1
       ∧ (t.m.enc p).prevReal = false) ∧
  (∀ (s : State) (dt : Nat) (m : Chip) (p : Nat), Now s dt m → p < Config.encPorts → m.encMode p = 2 → m.windowOver p true = false →
       Does (.toothWindowExpiry dt p) s m) ∧
  (∀ (s : State) (dt : Nat) (m : Chip) (p raw : Nat) (r : Nat), Now s dt m → p < Config.encPorts → m.encMode p = 3 → m.get
       (F.ENC_STAT_state p) = 0 → (m.enc p).ssiRaw = none → m.flag (F.ENC_SSI_CFG_gray p) = false → m.flag (F.ENC_CFG_invert p) =
       false → r = raw % 2 ^ (m.get (F.ENC_SSI_CFG_bits p) + 1) → Does (.ssiSample dt p raw true) s ((m.setEnc p
       { m.enc p with count := signedOf (m.get (F.ENC_SSI_CFG_bits p) + 1) r, highest := signedOf (m.get (F.ENC_SSI_CFG_bits p) + 1) r, bar := none, ssiRaw := some r, ssiAt := m.cyc, ssiSpan := 0, ssiD := 0, ssiRej := 0, lastChg := some m.cyc, held := none, least := none }).setEncState
       p 1)) ∧
  (∀ (s : State) (dt : Nat) (m : Chip) (p raw : Nat), Now s dt m → p < Config.encPorts → m.encMode p = 3 → m.get (F.ENC_STAT_state
       p) ≠ 4 → (m.enc p).ssiRej < 2 → Does (.ssiSample dt p raw false) s (((m.setEnc p
       { m.enc p with ssiRej := (m.enc p).ssiRej + 1 }).setFlag (F.ENC_STAT_ssi_err p)).bump (R.ENC_CNT_SSI_ERR p))) ∧
  (∀ (s : State) (dt : Nat) (m : Chip) (p raw : Nat), Now s dt m → p < Config.encPorts → m.encMode p = 3 → m.get (F.ENC_STAT_state
       p) ≠ 4 → 2 ≤ (m.enc p).ssiRej → Does (.ssiSample dt p raw false) s ((((m.setEnc p
       { m.enc p with ssiRej := (m.enc p).ssiRej + 1 }).setFlag (F.ENC_STAT_ssi_err p)).bump (R.ENC_CNT_SSI_ERR p)).encLost 3 p)) ∧
  (∀ (s : State) (dt : Nat) (m : Chip) (p l q : Nat), Now s dt m → p < Config.encPorts → (m.encMode p = 1 ∨ m.encMode p = 3) →
       (m.enc p).held = none → (m.enc p).lastChg = some l → (m.enc p).prevChg = some q → 2 * (l - q) ≤ m.cyc - l → Does (.beltStop
       dt p) s ((((m.setEnc p { m.enc p with held := some (m.encPos p), chg := [], idxPrev := none }).setEncState p 3).setFlag
       (F.ENC_STAT_stopped p)).bump (R.ENC_CNT_STOP p)))

/-- An index edge with index_en set on a counting port latches the count, is flagged and counted, and remembers the count for
the drift; without index_en, or with the port off or absolute (SSI), nothing happens. A probe edge of the port's source latches
position and time and counts up the sequence; one of another source does nothing. A read of the sequence clears the pending
state. A line fault is flagged, and loses the port on an input its mode counts with; its clearing forgets it, and recovers the
port when no counting input is at fault. (R342, R354, R357, R358, R373) -/
def Obligations.EncodersLatchAndLose : Prop :=
  (∀ (s : State) (dt : Nat) (m : Chip) (p : Nat) (e : EncPort), Now s dt m → p < Config.encPorts → e = m.enc p → m.flag
       (F.ENC_CFG_index_en p) = true → (m.encMode p = 1 ∨ m.encMode p = 2) → e.idxPrev = none → Does (.indexEdge dt p) s
       ((((m.putPos (R.ENC_IDX_LO p) (R.ENC_IDX_HI p) (e.count * 65536)).setFlag (F.ENC_STAT_index_seen p)).bump (R.ENC_CNT_INDEX
       p)).setEnc p { e with idxPrev := if e.up && !e.held.isSome then some e.count else none })) ∧
  (∀ (s : State) (dt : Nat) (m : Chip) (p : Nat), Now s dt m → p < Config.encPorts → (m.flag (F.ENC_CFG_index_en p) = false ∨
       m.encMode p = 0 ∨ m.encMode p = 3) → Does (.indexEdge dt p) s m) ∧
  (∀ (s : State) (dt : Nat) (m : Chip) (p src : Nat), Now s dt m → p < Config.encPorts → src ≤ 32 → m.encMode p ≠ 0 → m.get
       (F.ENC_CFG_probe_src p) = src → Does (.probeEdge dt p src) s (m.probeLatch p)) ∧
  (∀ (s : State) (dt : Nat) (m : Chip) (p src : Nat), Now s dt m → p < Config.encPorts → src ≤ 32 → m.encMode p ≠ 0 → m.get
       (F.ENC_CFG_probe_src p) = src → ∃ t, exec (.probeEdge dt p src) s = .next t ∧ t.pending = s.pending ∧ t.m.enc p =
       { m.enc p with probePending := true }) ∧
  (∀ (s : State) (dt : Nat) (m : Chip) (p src : Nat), Now s dt m → p < Config.encPorts → src ≤ 32 → m.get (F.ENC_CFG_probe_src p) ≠
       src → Does (.probeEdge dt p src) s m) ∧
  (∀ (s : State) (dt : Nat) (m : Chip) (p : Nat), Now s dt m → p < Config.encPorts → Does (.probeSeqRead dt p) s (m.setEnc p
       { m.enc p with probePending := false })) ∧
  (∀ (s : State) (dt : Nat) (m : Chip) (p i : Nat) (x : Chip), Now s dt m → p < Config.encPorts → i < 3 → m.encMode p ≠ 0 → x =
       (m.setEnc p { m.enc p with lineFaults := i :: (m.enc p).lineFaults.filter (· != i) }).setFlag (lineFaultFlag p i) → Does
       (.encoderLineFault dt p i) s (if countingInput (m.encMode p) i then x.encLost 1 p else x)) ∧
  (∀ (s : State) (dt : Nat) (m : Chip) (p i : Nat), Now s dt m → p < Config.encPorts → i < 3 → m.get (F.ENC_STAT_state p) ≠ 4 → Does
       (.lineFaultClear dt p i) s (m.setEnc p { m.enc p with lineFaults := (m.enc p).lineFaults.filter (· != i) })) ∧
  (∀ (s : State) (dt : Nat) (m : Chip) (p i : Nat), Now s dt m → p < Config.encPorts → i < 3 → m.get (F.ENC_STAT_state p) = 4 →
       (m.enc p).lostBy = 1 → (((m.enc p).lineFaults.filter (· != i)).any (countingInput (m.encMode p))) = false → Does
       (.lineFaultClear dt p i) s ((m.setEnc p { m.enc p with lineFaults := (m.enc p).lineFaults.filter (· != i) }).encRecover p))

/-- An edge to the level that stands does nothing; one to the other level changes it, is recorded where its edge is enabled, and
feeds the eight pair units. A pair open for 2^32 - 1 units closes with flag LONG; an earlier one stays open. A wire break on an
enabled channel is counted and shows the substitute; its clearing shows the input again. A pop takes the oldest record into its
registers; on an empty queue the header reads 0. (R400, R403, R404, R405) -/
def Obligations.FieldInputsAreRecorded : Prop :=
  (∀ (s : State) (dt : Nat) (m : Chip) (ch : Nat) (level : Bool), Now s dt m → ch < 32 → m.fio.level.getLsbD ch = level → Does
       (.fieldInputEdge dt ch level) s m) ∧
  (∀ (s : State) (dt : Nat) (m : Chip) (ch : Nat) (x : Chip), Now s dt m → ch < 32 → m.fio.level.getLsbD ch = false → (x = (m.onFio
       fun f => { f with level := f.level ||| BitVec.ofNat 32 (2 ^ ch) }).refreshIn) → x.bit R.FIO_EDGE_R ch = true → Does
       (.fieldInputEdge dt ch true) s (forAll (upTo 8) (fun k y => y.pairEdge ch true x.edgeStamp k) (x.pushEdge
       { channel := ch, rising := true, stamp := x.edgeStamp }))) ∧
  (∀ (s : State) (dt : Nat) (m : Chip) (ch : Nat) (x : Chip), Now s dt m → ch < 32 → m.fio.level.getLsbD ch = true → (x = (m.onFio
       fun f => { f with level := f.level &&& ~~~(BitVec.ofNat 32 (2 ^ ch)) }).refreshIn) → x.bit R.FIO_EDGE_F ch = false → Does
       (.fieldInputEdge dt ch false) s (forAll (upTo 8) (fun k y => y.pairEdge ch false x.edgeStamp k) x)) ∧
  (∀ (s : State) (dt : Nat) (m : Chip) (ch : Nat), Now s dt m → ch < 32 → m.fio.level.getLsbD ch = false → m.fio.events.length < 512
       → (((m.onFio fun f => { f with level := f.level ||| BitVec.ofNat 32 (2 ^ ch) }).refreshIn).bit R.FIO_EDGE_R ch = true) → ∃ t,
       exec (.fieldInputEdge dt ch true) s = .next t ∧ t.pending = s.pending ∧ t.m.fio.level = m.fio.level ||| BitVec.ofNat 32 (2 ^
       ch) ∧ t.m.fio.events = m.fio.events ++ [{ channel := ch, rising := true, stamp := m.edgeStamp }]) ∧
  (∀ (s : State) (dt : Nat) (m : Chip) (k t : Nat), Now s dt m → k < 8 → m.openPair k = some t → t + 4 * (2 ^ 32 - 1) ≤ m.edgeStamp
       → Does (.pairLong dt k) s ((m.setPair k none).pushPair
       { unit := k, start := t, dur := 0xFFFFFFFF, long := true, order := false, sameTick := false })) ∧
  (∀ (s : State) (dt : Nat) (m : Chip) (k t : Nat), Now s dt m → k < 8 → m.openPair k = some t → m.edgeStamp < t + 4 * (2 ^ 32 - 1)
       → Does (.pairLong dt k) s m) ∧
  (∀ (s : State) (dt : Nat) (m : Chip) (ch : Nat), Now s dt m → ch < 32 → m.bit R.FIO_WB_EN ch = true → m.fio.broken.getLsbD ch =
       false → Does (.wireBreak dt ch) s ((((m.onFio fun f =>
       { f with broken := f.broken ||| BitVec.ofNat 32 (2 ^ ch) }).refreshIn).bump R.FIO_CNT_WB).refreshGroups)) ∧
  (∀ (s : State) (dt : Nat) (m : Chip) (ch : Nat), Now s dt m → ch < 32 → Does (.wireBreakClear dt ch) s (((m.onFio fun f =>
       { f with broken := f.broken &&& ~~~(BitVec.ofNat 32 (2 ^ ch)) }).refreshIn).refreshGroups)) ∧
  (∀ (s : State) (dt : Nat) (m : Chip) (r : EvtRec) (l : List EvtRec), Now s dt m → m.fio.events = r :: l → Does (.fioEvtPop dt) s
       (((m.onFio fun f => { f with events := l }).wr R.FIO_EVT_HDR (BitVec.ofNat 32 (2 ^ 31 + b2n r.rising * 2 ^ 30 +
       r.channel))).wr64 R.FIO_EVT_T_LO R.FIO_EVT_T_HI r.stamp)) ∧
  (∀ (s : State) (dt : Nat) (m : Chip), Now s dt m → m.fio.events = [] → Does (.fioEvtPop dt) s (m.wr R.FIO_EVT_HDR 0)) ∧
  (∀ (s : State) (dt : Nat) (m : Chip) (r : PairRec) (l : List PairRec), Now s dt m → m.fio.pairs = r :: l → Does (.fioPairPop dt) s
       ((((m.onFio fun f => { f with pairs := l }).wr R.FIO_PAIR_HDR (BitVec.ofNat 32 (2 ^ 31 + r.unit * 2 ^ 28 + 4 * b2n r.long + 2
       * b2n r.order + b2n r.sameTick))).wr64 R.FIO_PAIR_T_LO R.FIO_PAIR_T_HI r.start).wr R.FIO_PAIR_DUR (BitVec.ofNat 32 r.dur))) ∧
  (∀ (s : State) (dt : Nat) (m : Chip), Now s dt m → m.fio.pairs = [] → Does (.fioPairPop dt) s (m.wr R.FIO_PAIR_HDR 0))

/-- A driver that is on and limits switches off, its time is noted, is counted, and its group shows the fault. A retry of a
channel that is commanded on ends its fault where it runs and is counted where it switches off once more; nothing is retried
otherwise. A group below its threshold shows the fault until its supply returns. A write commands the outputs and requests
RUN_PERMIT. (R399, R401, R402, R405, R406) -/
def Obligations.FieldOutputsSwitchOffAndReturn : Prop :=
  (∀ (s : State) (dt : Nat) (m : Chip) (n : Nat), Now s dt m → n < 17 → m.driverOn n = true → Does (.outputFault dt n) s
       ((((m.setOutFault n true).noteTry n).bump R.FIO_CNT_OUT_FLT).refreshGroups)) ∧
  (∀ (s : State) (dt : Nat) (m : Chip) (n : Nat), Now s dt m → n < 17 → m.driverOn n = false → Does (.outputFault dt n) s m) ∧
  (∀ (s : State) (dt : Nat) (m : Chip) (n : Nat), Now s dt m → n < 17 → m.retryDue n = true → Does (.outputRetry dt n true) s
       ((m.setOutFault n false).refreshGroups)) ∧
  (∀ (s : State) (dt : Nat) (m : Chip) (n : Nat), Now s dt m → n < 17 → m.retryDue n = true → Does (.outputRetry dt n false) s
       ((m.noteTry n).bump R.FIO_CNT_OUT_FLT)) ∧
  (∀ (s : State) (dt : Nat) (m : Chip) (n : Nat) (runs : Bool), Now s dt m → n < 17 → m.retryDue n = false → Does (.outputRetry dt n
       runs) s m) ∧
  (∀ (s : State) (dt : Nat) (m : Chip) (g : Nat), Now s dt m → g < 7 → Does (.fieldGroupUndervoltage dt g) s ((m.onFio fun f =>
       { f with undervolt := f.undervolt ||| BitVec.ofNat 7 (2 ^ g) }).refreshGroups)) ∧
  (∀ (s : State) (dt : Nat) (m : Chip) (g : Nat), Now s dt m → g < 7 → Does (.fieldGroupSupplyReturn dt g) s ((m.onFio fun f =>
       { f with undervolt := f.undervolt &&& ~~~(BitVec.ofNat 7 (2 ^ g)) }).refreshGroups)) ∧
  (∀ (s : State) (dt : Nat) (m : Chip) (outs : Nat) (runReq : Bool), Now s dt m → outs < 2 ^ 16 → Does (.fioOutWrite dt outs runReq)
       s (((m.put F.FIO_OUT_out outs).put F.FIO_OUT_run_req (b2n runReq)).refreshOutputs))

/-- A transmitting port seals the slot of TB3 once: in SAFE with the close-all and safe frames, disabled with the close-all
frames, else with its changes; a slot already sealed is not sealed again. A valve open for its limit ends every entry that holds
it and is counted and flagged. A status frame with a bad CRC, a bad tag or another bank is flagged and otherwise ignored. A
sealed slot without an accepted status is missing: flagged and counted. port_en stands in its register until the next seal; a
full-state request marks the next timed frame. (R366, R368, R381, R387, R388, R389, R393, R394, R395) -/
def Obligations.PegPortsSealAndListen : Prop :=
  (∀ (s : State) (dt : Nat) (m : Chip) (p slot : Nat) (x : Chip), Now s dt m → p < Config.pegPorts → (m.peg p).transmitting = true →
       slot = m.tb3 / 10000 % 2 ^ 48 → ((m.peg p).everSealed = false ∨ slot ≠ (m.peg p).lastSlot) → x = (m.applyPortEn p).setPeg p
       { (m.applyPortEn p).peg p with everSealed := true, lastSlot := slot, answered := false } → x.mode = 3 → Does (.slotSeal dt p)
       s (x.sealClosed p slot true)) ∧
  (∀ (s : State) (dt : Nat) (m : Chip) (p slot : Nat) (x : Chip), Now s dt m → p < Config.pegPorts → (m.peg p).transmitting = true →
       slot = m.tb3 / 10000 % 2 ^ 48 → ((m.peg p).everSealed = false ∨ slot ≠ (m.peg p).lastSlot) → x = (m.applyPortEn p).setPeg p
       { (m.applyPortEn p).peg p with everSealed := true, lastSlot := slot, answered := false } → x.mode ≠ 3 → ((x.peg p).enApplied
       = false ∨ x.follower = true) → Does (.slotSeal dt p) s (x.sealClosed p slot false)) ∧
  (∀ (s : State) (dt : Nat) (m : Chip) (p slot : Nat) (x : Chip), Now s dt m → p < Config.pegPorts → (m.peg p).transmitting = true →
       slot = m.tb3 / 10000 % 2 ^ 48 → ((m.peg p).everSealed = false ∨ slot ≠ (m.peg p).lastSlot) → x = (m.applyPortEn p).setPeg p
       { (m.applyPortEn p).peg p with everSealed := true, lastSlot := slot, answered := false } → x.mode ≠ 3 → (x.peg p).enApplied =
       true → x.follower = false → Does (.slotSeal dt p) s ((x.forceDue p).sealNormal p slot (x.tb3 % 10000) (!(m.peg p).enApplied))) ∧
  (∀ (s : State) (dt : Nat) (m : Chip) (p slot : Nat), Now s dt m → p < Config.pegPorts → (m.peg p).transmitting = true → slot =
       m.tb3 / 10000 % 2 ^ 48 → ((m.peg p).everSealed = false ∨ slot ≠ (m.peg p).lastSlot) → ((m.applyPortEn p).setPeg p
       { (m.applyPortEn p).peg p with everSealed := true, lastSlot := slot, answered := false }).mode ≠ 3 → (((m.applyPortEn
       p).setPeg p { (m.applyPortEn p).peg p with everSealed := true, lastSlot := slot, answered := false }).peg p).enApplied = true
       → ((m.applyPortEn p).setPeg p
       { (m.applyPortEn p).peg p with everSealed := true, lastSlot := slot, answered := false }).follower = false → ∃ t, exec
       (.slotSeal dt p) s = .next t ∧ t.pending = s.pending ∧ ∃ (before : List Emit) (timed pilot : List Byte), t.m.out = before ++
       [.pegTimed p slot timed, .pegPilot p slot pilot]) ∧
  (∀ (s : State) (dt : Nat) (m : Chip) (p : Nat), Now s dt m → p < Config.pegPorts → ((m.peg p).transmitting = false ∨ ((m.peg
       p).everSealed = true ∧ m.tb3 / 10000 % 2 ^ 48 = (m.peg p).lastSlot)) → Does (.slotSeal dt p) s m) ∧
  (∀ (s : State) (dt : Nat) (m : Chip) (p v : Nat) (x : Chip), Now s dt m → p < Config.pegPorts → v < 256 → m.overOpen p v = true →
       (x = forAll ((m.queue p).filter (holdsValve v)) (fun e m => m.entryCancelled { e with truncated := true }) (m.setQueue p
       ((m.queue p).filter fun e => !holdsValve v e))) → Does (.forcedClose dt p v) s ((((x.setPeg p
       { x.peg p with openSince := (x.peg p).openSince.filter fun y => y.1 != v }).bump (R.FS_Q_CNT_FORCED p)).setFlag
       F.FS_STAT_forced_close).raise ⟨0, 35⟩)) ∧
  (∀ (s : State) (dt : Nat) (m : Chip) (p v : Nat), Now s dt m → p < Config.pegPorts → v < 256 → m.overOpen p v = false → Does
       (.forcedClose dt p v) s m) ∧
  (∀ (s : State) (dt : Nat) (m : Chip) (p : Nat) (f : StatusFrame), Now s dt m → p < Config.pegPorts → (m.peg p).everSealed = true →
       (m.peg p).answered = false → m.tb3 < ((m.peg p).lastSlot + 1) * 10000 → f.crcOk = false → Does (.statusFrame dt p f) s
       ((m.setFlag (F.PEG_STAT_st_crc p)).bump (R.PEG_CNT_ST_CRC p))) ∧
  (∀ (s : State) (dt : Nat) (m : Chip) (p : Nat) (f : StatusFrame), Now s dt m → p < Config.pegPorts → (m.peg p).everSealed = true →
       (m.peg p).answered = false → m.tb3 < ((m.peg p).lastSlot + 1) * 10000 → f.crcOk = true → f.tagOk = false → Does (.statusFrame
       dt p f) s ((m.setFlag (F.PEG_STAT_st_tag_fail p)).bump (R.PEG_CNT_ST_TAG p))) ∧
  (∀ (s : State) (dt : Nat) (m : Chip) (p : Nat) (f : StatusFrame) (x y : Chip), Now s dt m → p < Config.pegPorts → (m.peg
       p).everSealed = true → (m.peg p).answered = false → m.tb3 < ((m.peg p).lastSlot + 1) * 10000 → f.crcOk = true → f.tagOk =
       true → f.bankId = m.get (F.PEG_CFG_bank_id p) → f.seq = (m.peg p).lastSlot % 2 ^ 24 → f.nonce = (m.rd (R.PEG_NONCE p)).toNat
       → f.flags = 0 → f.active = true → x = ((m.setPeg p
       { m.peg p with answered := true, missRun := 0, fullNext := (m.peg p).fullNext, faultFlags := 0 }).wr (R.PEG_NONCE p)
       (BitVec.ofNat 32 f.nonce)).bump (R.PEG_CNT_STATUS p) → y = (x.put (F.PEG_STAT_active p) 1).wr (R.PEG_VFAULT p (f.slice % 8))
       (BitVec.ofNat 32 f.faults) → y.role ≠ 2 → Does (.statusFrame dt p f) s y) ∧
  (∀ (s : State) (dt : Nat) (m : Chip) (p : Nat), Now s dt m → p < Config.pegPorts → (m.peg p).everSealed = true → (m.peg
       p).answered = false → ((m.peg p).lastSlot + 1) * 10000 ≤ m.tb3 → (m.peg p).missRun ≠ 7 → Does (.statusDeadline dt p) s
       (((m.setPeg p { m.peg p with answered := true, missRun := (m.peg p).missRun + 1 }).setFlag (F.PEG_STAT_st_missing p)).bump
       (R.PEG_CNT_ST_MISS p))) ∧
  (∀ (s : State) (dt : Nat) (m : Chip) (p : Nat), Now s dt m → p < Config.pegPorts → (m.peg p).everSealed = true → (m.peg
       p).answered = false → ((m.peg p).lastSlot + 1) * 10000 ≤ m.tb3 → (m.peg p).missRun = 7 → Does (.statusDeadline dt p) s
       (((((m.setPeg p { m.peg p with answered := true, missRun := 8 }).setFlag (F.PEG_STAT_st_missing p)).bump (R.PEG_CNT_ST_MISS
       p)).setFlag (F.PEG_STAT_silent p)).raise ⟨0, 36⟩)) ∧
  (∀ (s : State) (dt : Nat) (m : Chip) (p : Nat) (en : Bool), Now s dt m → p < Config.pegPorts → Does (.pegPortEn dt p en) s (m.put
       (F.PEG_CTRL_port_en p) (b2n en))) ∧
  (∀ (s : State) (dt : Nat) (m : Chip) (p : Nat), Now s dt m → p < Config.pegPorts → Does (.fullStateRequest dt p) s (m.setPeg p
       { m.peg p with fullNext := true }))

/-- A group of a strip that expects it is taken in object by object, an empty one as its strip requires; then the group is
marked taken and its pair settled. One that no strip expects changes nothing. An overrun notice is treated for its stream and
strip; one that is not expected changes nothing. 10 us into the bay, once, each stream that has sent nothing for close bay (bay
- D) is treated as a notice. A reservation whose latest-confirm mark has been reached takes the late action; with none reached
nothing happens. (R40, R49, R142, R145, R146, R365, R610) -/
def Obligations.VerdictsAreTakenInOnce : Prop :=
  (∀ (s : State) (dt : Nat) (m : Chip) (g : VerdictGroup) (c : ClosedStrip), Now s dt m → g.row < Config.rows → g.job < Config.jobs
       → g.kind = 0 → ((g.objs.all fun e => decide (e.verdict < 3)) = true) → m.verdictBay g.closeBay = true → m.fire.inbox.contains
       g = true → ((m.takeInbox fun y => y == g).openStrip g.job g.stream g.row g.strip g.closeBay = some c) → Does (.verdictGroup
       dt g) s ((((forAll g.objs (fun e m => m.takeObj (entryObj g e)) (m.takeInbox fun y => y == g)).takeEmpty g c).markTaken g.job
       g.stream g.row g.strip g.closeBay).afterGroup g.job g.row g.strip g.closeBay)) ∧
  (∀ (s : State) (dt : Nat) (m : Chip) (g : VerdictGroup) (c : ClosedStrip), Now s dt m → g.row < Config.rows → g.job < Config.jobs
       → g.kind = 0 → ((g.objs.all fun e => decide (e.verdict < 3)) = true) → m.verdictBay g.closeBay = true → m.fire.inbox.contains
       g = true → ((m.takeInbox fun y => y == g).openStrip g.job g.stream g.row g.strip g.closeBay = some c) → ∃ t, exec
       (.verdictGroup dt g) s = .next t ∧ t.pending = s.pending ∧ t.m.fire.inbox = m.fire.inbox.eraseP (fun y => y == g)) ∧
  (∀ (s : State) (dt : Nat) (m : Chip) (g : VerdictGroup), Now s dt m → g.row < Config.rows → g.job < Config.jobs → g.kind = 0 →
       ((g.objs.all fun e => decide (e.verdict < 3)) = true) → m.verdictBay g.closeBay = true → m.fire.inbox.contains g = true →
       ((m.takeInbox fun y => y == g).openStrip g.job g.stream g.row g.strip g.closeBay = none) → Does (.verdictGroup dt g) s
       (m.takeInbox fun y => y == g)) ∧
  (∀ (s : State) (dt : Nat) (m : Chip) (g : VerdictGroup), Now s dt m → g.row < Config.rows → g.job < Config.jobs → g.kind = 0 →
       ((g.objs.all fun e => decide (e.verdict < 3)) = true) → (m.verdictBay g.closeBay = false ∨ m.fire.inbox.contains g = false) →
       Does (.verdictGroup dt g) s m) ∧
  (∀ (s : State) (dt : Nat) (m : Chip) (job stream row strip closeBay : Nat) (c : ClosedStrip), Now s dt m → row < Config.rows → job
       < Config.jobs → m.verdictBay closeBay = true → m.fire.inbox.any (isNotice job stream row strip closeBay) = true →
       (m.takeInbox (isNotice job stream row strip closeBay)).openStrip job stream row strip closeBay = some c → Does
       (.overrunNotice dt job stream row strip closeBay) s ((m.takeInbox (isNotice job stream row strip closeBay)).takeNotice c job
       stream)) ∧
  (∀ (s : State) (dt : Nat) (m : Chip) (job stream row strip closeBay : Nat) (c : ClosedStrip), Now s dt m → row < Config.rows → job
       < Config.jobs → m.verdictBay closeBay = true → m.fire.inbox.any (isNotice job stream row strip closeBay) = true →
       (m.takeInbox (isNotice job stream row strip closeBay)).openStrip job stream row strip closeBay = some c → ∃ t, exec
       (.overrunNotice dt job stream row strip closeBay) s = .next t ∧ t.pending = s.pending ∧ t.m.fire.inbox = m.fire.inbox.eraseP
       (isNotice job stream row strip closeBay)) ∧
  (∀ (s : State) (dt : Nat) (m : Chip) (job stream row strip closeBay : Nat), Now s dt m → row < Config.rows → job < Config.jobs →
       m.verdictBay closeBay = true → m.fire.inbox.any (isNotice job stream row strip closeBay) = true → (m.takeInbox (isNotice job
       stream row strip closeBay)).openStrip job stream row strip closeBay = none → Does (.overrunNotice dt job stream row strip
       closeBay) s (m.takeInbox (isNotice job stream row strip closeBay))) ∧
  (∀ (s : State) (dt : Nat) (m : Chip) (job stream row strip closeBay : Nat), Now s dt m → row < Config.rows → job < Config.jobs →
       (m.verdictBay closeBay = false ∨ m.fire.inbox.any (isNotice job stream row strip closeBay) = false) → Does (.overrunNotice dt
       job stream row strip closeBay) s m) ∧
  (∀ (s : State) (dt : Nat) (m : Chip) (x : Chip), Now s dt m → m.bays.running = true → m.bays.verdictDone = false → m.bays.startAt
       + 10000 ≤ m.now → m.depth ≤ m.bay → (x = forAll ((m.fire.closed.filter fun c => c.closeBay == m.bay - m.depth).flatMap fun c
       => c.jobs.flatMap fun j => (c.streams.filter fun s => !c.taken.contains (j, s) && !c.aborted.contains j).map fun s => (c, j,
       s)) (fun y m => m.takeNotice y.1 y.2.1 y.2.2) m) → Does (.verdictDeadline dt) s
       { x with bays := { x.bays with verdictDone := true } }) ∧
  (∀ (s : State) (dt : Nat) (m : Chip), Now s dt m → m.bays.running = true → m.bays.verdictDone = false → m.bays.startAt + 10000 ≤
       m.now → m.depth ≤ m.bay → ∃ t, exec (.verdictDeadline dt) s = .next t ∧ t.pending = s.pending ∧ t.m.bays.verdictDone = true ∧
       t.m.bays.bay = m.bay ∧ t.m.fire.inbox = m.fire.inbox) ∧
  (∀ (s : State) (dt : Nat) (m : Chip), Now s dt m → m.bays.verdictDone = true → Does (.verdictDeadline dt) s m) ∧
  (∀ (s : State) (dt : Nat) (m : Chip) (r : Resv), Now s dt m → ((m.fire.resvs.filter fun r => m.pastMark r.row r.cOpen) = [r]) →
       m.lateEject r.row = false → ∃ t, exec (.lateConfirmMark dt) s = .next t ∧ t.pending = s.pending ∧ t.m.fire.resvs =
       m.fire.resvs.erase r ∧ t.m.fire.late = m.fire.late ++
       [{ row := r.row, map := r.map, vFirst := r.vFirst, vLast := r.vLast, cOpen := r.cOpen, cClose := r.cClose }]) ∧
  (∀ (s : State) (dt : Nat) (m : Chip) (r : Resv), Now s dt m → ((m.fire.resvs.filter fun r => m.pastMark r.row r.cOpen) = [r]) →
       Does (.lateConfirmMark dt) s (m.lateAction r)) ∧
  (∀ (s : State) (dt : Nat) (m : Chip), Now s dt m → ((m.fire.resvs.filter fun r => m.pastMark r.row r.cOpen) = []) → Does
       (.lateConfirmMark dt) s m)

/-- An acknowledged entry is counted and queued; an acknowledgement of nothing outstanding is counted as late. A record without
acknowledgement for mirror_rto is sent once more; 5 us after its first send an entry is queued unmirrored, counted, flagged and
raises the standby-mirror source. A standby queues a mirrored entry whose key it does not hold and acknowledges it; a module in
another role flags the record and discards it. The primary sends keep-alives; a standby without them for 30 us raises
mirror-link. (R17, R326, R327, R328, R339, R369, R468) -/
def Obligations.TheMirrorQueuesEveryEntry : Prop :=
  (∀ (s : State) (dt : Nat) (m : Chip) (id : Nat) (o : MirrorOut) (e : FEntry), Now s dt m → ((m.fire.mirror.find? fun o => o.id ==
       id) = some o) → o.record = .entry e → Does (.mirrorAck dt id) s (((m.mirrorTake o).bump R.PUR_CNT_MIRROR).queueEntry e)) ∧
  (∀ (s : State) (dt : Nat) (m : Chip) (id : Nat) (o : MirrorOut) (e : FEntry), Now s dt m → ((m.fire.mirror.find? fun o => o.id ==
       id) = some o) → o.record = .entry e → ((m.mirrorTake o).bump R.PUR_CNT_MIRROR).mode ≠ 3 → e.cancelled = false → e.port <
       m.fire.queues.length → ∃ t, exec (.mirrorAck dt id) s = .next t ∧ t.pending = s.pending ∧ t.m.fire.mirror =
       m.fire.mirror.erase o ∧ t.m.queue e.port = insertBy (fun a b => decide (a.cOpen ≤ b.cOpen)) e (m.queue e.port)) ∧
  (∀ (s : State) (dt : Nat) (m : Chip) (id : Nat), Now s dt m → ((m.fire.mirror.find? fun o => o.id == id) = none) → Does
       (.mirrorAck dt id) s (m.bump R.PUR_CNT_MIRROR_LATE)) ∧
  (∀ (s : State) (dt : Nat) (m : Chip) (o : MirrorOut), Now s dt m → m.fire.mirror = [o] → o.resent = false → o.sentAt + m.mirrorRto
       ≤ m.now → Does (.mirrorResend dt) s (((m.mirrorFrame o.id o.record).bump R.PUR_CNT_MIRROR_RETX).onFire fun f =>
       { f with mirror := f.mirror.map fun x => if x.resent = false ∧ x.sentAt + m.mirrorRto ≤ m.now then { x with resent := true } else x })) ∧
  (∀ (s : State) (dt : Nat) (m : Chip) (o : MirrorOut) (e : FEntry), Now s dt m → m.fire.mirror = [o] → o.record = .entry e →
       o.sentAt + 5000 ≤ m.now → Does (.mirrorTimeout dt) s (((((m.mirrorTake o).queueEntry { e with unmirrored := true }).bump
       (R.FS_Q_CNT_UNMIRR e.port)).setFlag F.FS_STAT_unmirrored).raise ⟨0, 28⟩)) ∧
  (∀ (s : State) (dt : Nat) (m : Chip), Now s dt m → m.fire.mirror = [] → Does (.mirrorTimeout dt) s m) ∧
  (∀ (s : State) (dt : Nat) (m : Chip) (id : Nat) (r : MirrorRec), Now s dt m → m.role ≠ 2 → Does (.mirrorRecord dt id r) s
       (m.setFlag F.PUR_MIRROR_STAT_mirror_role)) ∧
  (∀ (s : State) (dt : Nat) (m : Chip) (id : Nat) (e : FEntry) (x : Chip), Now s dt m → m.role = 2 → m.keyHeld e.key = false → x =
       m.queueEntry e → Does (.mirrorRecord dt id (.entry e)) s (x.mirrorOut (.mirrorAck id) 32)) ∧
  (∀ (s : State) (dt : Nat) (m : Chip) (id : Nat) (e : FEntry), Now s dt m → m.role = 2 → m.keyHeld e.key = false → m.mode ≠ 3 →
       e.cancelled = false → e.port < m.fire.queues.length → ∃ t, exec (.mirrorRecord dt id (.entry e)) s = .next t ∧ t.pending =
       s.pending ∧ t.m.queue e.port = insertBy (fun a b => decide (a.cOpen ≤ b.cOpen)) e (m.queue e.port) ∧ t.m.fire.mirror =
       m.fire.mirror) ∧
  (∀ (s : State) (dt : Nat) (m : Chip), Now s dt m → m.get F.PUR_MIRROR_CFG_mrole = 1 → m.purState (m.get F.PUR_MIRROR_CFG_mport) =
       3 → Does (.mirrorKeepalive dt) s (m.linkSend (m.get F.PUR_MIRROR_CFG_mport) {})) ∧
  (∀ (s : State) (dt : Nat) (m : Chip), Now s dt m → (m.get F.PUR_MIRROR_CFG_mrole ≠ 1 ∨ m.purState (m.get F.PUR_MIRROR_CFG_mport) ≠
       3) → Does (.mirrorKeepalive dt) s m) ∧
  (∀ (s : State) (dt : Nat) (m : Chip), Now s dt m → m.role = 2 → m.sup.mirrorAliveAt + 30000 ≤ m.now → Does (.mirrorLinkLoss dt) s
       (m.assert ⟨0, 30⟩)) ∧
  (∀ (s : State) (dt : Nat) (m : Chip), Now s dt m → m.role ≠ 2 → Does (.mirrorLinkLoss dt) s m)

/-- While bays run and TB3 has reached the end of the current bay, the boundary to the next bay is carried out, with the strobe
as the Ridge receives it; before it, and while no bays run, nothing happens. (R25, R26, R27) -/
def Obligations.BaysTurnAtTheirBoundaries : Prop :=
  (∀ (s : State) (dt : Nat) (m : Chip) (strobe : Option Nat), Now s dt m → m.bays.running = true → (m.bay + 1) * m.period ≤ m.tb3 →
       Does (.bayBoundary dt strobe) s (m.boundary (m.bay + 1) strobe)) ∧
  (∀ (s : State) (dt : Nat) (m : Chip) (strobe : Option Nat), Now s dt m → m.bays.running = true → (m.bay + 1) * m.period ≤ m.tb3 →
       ∃ t, exec (.bayBoundary dt strobe) s = .next t ∧ t.pending = s.pending ∧ t.m.bays.bay = m.bay + 1 ∧ t.m.bays.verdictDone =
       false ∧ t.m.bays.semS = [] ∧ t.m.bays.semR = [] ∧ t.m.fire.inbox = []) ∧
  (∀ (s : State) (dt : Nat) (m : Chip) (strobe : Option Nat), Now s dt m → (m.bays.running = false ∨ m.tb3 < (m.bay + 1) * m.period)
       → Does (.bayBoundary dt strobe) s m)

/-- At the end of the bay each pair taken in whose marks have not arrived becomes a gap with the lost flag. A follower compares
a leader's frame with its own released set of that pair and forgets it, or holds the frame; another module ignores it. A
follower's set without a frame after its deadline is counted and flagged missing. A query of a mark that the ring does not hold
answers not found with zeros. Writing 1 to lock_mismatch clears it and the first-mismatch latch. (R436, R446, R449, R450) -/
def Obligations.WitnessMarksMeetTheirDeadlines : Prop :=
  (∀ (s : State) (dt : Nat) (m : Chip), Now s dt m → m.bays.running = true → m.bayEnds = true → Does (.markSetDeadline dt) s (forAll
       m.wit.awaiting (fun p m => m.releaseSet { job := p.1, key := p.2, marks := [], gap := true, lost := true }) (m.onWit fun w =>
       { w with awaiting := [] }))) ∧
  (∀ (s : State) (dt : Nat) (m : Chip), Now s dt m → (m.bays.running = false ∨ m.bayEnds = false) → Does (.markSetDeadline dt) s m) ∧
  (∀ (s : State) (dt : Nat) (m : Chip) (f : MarksFrame) (v : MarkSet), Now s dt m → m.follower = true → ((m.wit.own.find? fun s =>
       m.framePairs f s) = some v) → Does (.marksFrame dt f) s ((m.lockCompare f v).onWit fun w => { w with own := w.own.erase v })) ∧
  (∀ (s : State) (dt : Nat) (m : Chip) (f : MarksFrame), Now s dt m → m.follower = true → ((m.wit.own.find? fun s => m.framePairs f
       s) = none) → f.background = true → Does (.marksFrame dt f) s (m.onWit fun w => { w with frames := w.frames ++ [f] })) ∧
  (∀ (s : State) (dt : Nat) (m : Chip) (f : MarksFrame), Now s dt m → m.follower = false → Does (.marksFrame dt f) s m) ∧
  (∀ (s : State) (dt : Nat) (m : Chip) (v : MarkSet), Now s dt m → m.follower = true → ((m.wit.own.filter fun s => decide
       (m.frameUntil s < m.bay) || (m.bayEnds && decide (m.frameUntil s = m.bay))) = [v]) → Does (.marksDeadline dt) s (((m.bump
       R.WIT_CNT_MISSING).setFlag F.WIT_STAT_lock_missing).onWit fun w => { w with own := w.own.erase v })) ∧
  (∀ (s : State) (dt : Nat) (m : Chip), Now s dt m → m.follower = false → Does (.marksDeadline dt) s m) ∧
  (∀ (s : State) (dt : Nat) (m : Chip), Now s dt m → m.wit.ring = [] → Does (.witQuery dt) s (((((m.put F.WIT_Q_CTRL_done 1).put
       F.WIT_Q_CTRL_found 0).wr64 R.WIT_Q_MARK_LO R.WIT_Q_MARK_HI 0).wr64 R.WIT_Q_ELEM_LO R.WIT_Q_ELEM_HI 0).wr R.WIT_Q_LAYER
       (BitVec.ofNat 32 (((m.layersOf (m.get F.WIT_Q_CTRL_job))[m.get F.WIT_Q_CTRL_position]?).getD 0)))) ∧
  (∀ (s : State) (dt : Nat) (m : Chip), Now s dt m → Does (.lockRearm dt) s ((m.put F.WIT_STAT_lock_mismatch 0).put
       F.WIT_LOCK_FIRST_valid 0))

/-- A camera that is down begins bring-up with its power. Each step of its configuration follows when the commands of the one
before are acknowledged: a right identity goes on to the connection IDs, links that train to the register records, the last
record to acquisition; a wrong identity or order is a mismatch, tried from discovery in 10 s; links that do not train, or a step
past its limit, fail it, tried from discovery in 1 s. Discovery is polled every 100 ms, its acknowledge begins step 3. A
bring-up that is due begins at its step. A lost link of a streaming camera takes it down, tried from step 3 in 1 s. Reconnect
begins at step 3. A hold takes a camera down with its power off; its end brings it up. A fault of a powered link switches it
off; the third in a minute locks it out; otherwise it is on again after 1 s, unless held. POC_CLEAR ends a lock-out. (R66, R67,
R68, R69, R70, R86, R91) -/
def Obligations.CamerasComeUpAndGoDown : Prop :=
  (∀ (s : State) (dt : Nat) (m : Chip) (n : Nat) (c : CameraRec) (r : CamReply), Now s dt m → n < Config.links → m.camOf n = some c
       → 7 ≤ m.boot.step → m.camBlocked c = false → m.camState c = stDown → (m.cam n).restartAt = none → Does (.cameraBringUp dt n
       r) s (m.beginBringUp c 1 false)) ∧
  (∀ (s : State) (dt : Nat) (m : Chip) (n : Nat) (c : CameraRec) (r : CamReply), Now s dt m → n < Config.links → m.camOf n = some c
       → 7 ≤ m.boot.step → m.camBlocked c = false → m.camState c = stDown → (m.cam n).restartAt = none → 0 < m.now → ∃ t, exec
       (.cameraBringUp dt n r) s = .next t ∧ t.pending = s.pending ∧ (t.m.cam n).stepAt = m.now ∧ (t.m.cam n).pollAt = none) ∧
  (∀ (s : State) (dt : Nat) (m : Chip) (n : Nat) (c : CameraRec) (r : CamReply), Now s dt m → n < Config.links → m.camOf n = some c
       → 7 ≤ m.boot.step → m.camBlocked c = false → m.camState c = stConfiguring → ((m.cam n).ctrl.any (fun k => k.sender ==
       .bringUp) = false) → r.acked = true → (m.cam n).phase = 3 → r.vendor = c.vendor → r.model = c.model → r.revMajor = c.revMajor
       → Does (.cameraBringUp dt n r) s (forAll (camLinks c) (fun n m => m.sendCtrl c "read DeviceConnectionID" [n] .bringUp)
       (m.bringUpStep c 4 true))) ∧
  (∀ (s : State) (dt : Nat) (m : Chip) (n : Nat) (c : CameraRec) (r : CamReply), Now s dt m → n < Config.links → m.camOf n = some c
       → 7 ≤ m.boot.step → m.camBlocked c = false → m.camState c = stConfiguring → ((m.cam n).ctrl.any (fun k => k.sender ==
       .bringUp) = false) → r.acked = true → (m.cam n).phase = 3 → r.vendor = c.vendor → r.model = c.model → r.revMajor = c.revMajor
       → ∃ t, exec (.cameraBringUp dt n r) s = .next t ∧ t.pending = s.pending ∧ (t.m.cam n).phase = 4 ∧ (t.m.cam n).stepAt = m.now
       ∧ (t.m.cam n).ctrl.length = (m.cam n).ctrl.length + c.links) ∧
  (∀ (s : State) (dt : Nat) (m : Chip) (n : Nat) (c : CameraRec) (r : CamReply), Now s dt m → n < Config.links → m.camOf n = some c
       → 7 ≤ m.boot.step → m.camBlocked c = false → m.camState c = stConfiguring → ((m.cam n).ctrl.any (fun k => k.sender ==
       .bringUp) = false) → r.acked = true → (m.cam n).phase = 3 → (r.vendor ≠ c.vendor ∨ r.model ≠ c.model ∨ r.revMajor ≠
       c.revMajor) → Does (.cameraBringUp dt n r) s (m.identMismatch c)) ∧
  (∀ (s : State) (dt : Nat) (m : Chip) (n : Nat) (c : CameraRec) (r : CamReply), Now s dt m → n < Config.links → m.camOf n = some c
       → 7 ≤ m.boot.step → m.camBlocked c = false → m.camState c = stConfiguring → ((m.cam n).ctrl.any (fun k => k.sender ==
       .bringUp) = false) → r.acked = true → (m.cam n).phase = 3 → (r.vendor ≠ c.vendor ∨ r.model ≠ c.model ∨ r.revMajor ≠
       c.revMajor) → ∃ t, exec (.cameraBringUp dt n r) s = .next t ∧ t.pending = s.pending ∧ (t.m.cam n).restartAt = some (m.now +
       10000000000) ∧ (t.m.cam n).restartFrom = 2) ∧
  (∀ (s : State) (dt : Nat) (m : Chip) (n : Nat) (c : CameraRec) (r : CamReply), Now s dt m → n < Config.links → m.camOf n = some c
       → 7 ≤ m.boot.step → m.camBlocked c = false → m.camState c = stConfiguring → ((m.cam n).ctrl.any (fun k => k.sender ==
       .bringUp) = false) → r.acked = true → (m.cam n).phase = 4 → r.orderOk = false → Does (.cameraBringUp dt n r) s
       (m.identMismatch c)) ∧
  (∀ (s : State) (dt : Nat) (m : Chip) (n : Nat) (c : CameraRec) (r : CamReply), Now s dt m → n < Config.links → m.camOf n = some c
       → 7 ≤ m.boot.step → m.camBlocked c = false → m.camState c = stConfiguring → ((m.cam n).ctrl.any (fun k => k.sender ==
       .bringUp) = false) → r.acked = true → (m.cam n).phase = 5 → r.trained = true → Does (.cameraBringUp dt n r) s ((m.setCam n
       { m.cam n with rate := c.rate }).writeRegs c 0)) ∧
  (∀ (s : State) (dt : Nat) (m : Chip) (n : Nat) (c : CameraRec) (r : CamReply) (w : Nat × Nat), Now s dt m → n < Config.links →
       m.camOf n = some c → 7 ≤ m.boot.step → m.camBlocked c = false → m.camState c = stConfiguring → ((m.cam n).ctrl.any (fun k =>
       k.sender == .bringUp) = false) → r.acked = true → (m.cam n).phase = 6 → c.regs[(m.cam n).regAt]? = some w → r.readBack = w.2
       → Does (.cameraBringUp dt n r) s (m.writeRegs c ((m.cam n).regAt + 1))) ∧
  (∀ (s : State) (dt : Nat) (m : Chip) (n : Nat) (c : CameraRec) (r : CamReply), Now s dt m → n < Config.links → m.camOf n = some c
       → 7 ≤ m.boot.step → m.camBlocked c = false → m.camState c = stConfiguring → ((m.cam n).ctrl.any (fun k => k.sender ==
       .bringUp) = false) → r.acked = true → (m.cam n).phase = 5 → r.trained = false → Does (.cameraBringUp dt n r) s
       (m.bringUpFails c)) ∧
  (∀ (s : State) (dt : Nat) (m : Chip) (n : Nat) (c : CameraRec) (r : CamReply), Now s dt m → n < Config.links → m.camOf n = some c
       → 7 ≤ m.boot.step → m.camBlocked c = false → m.camState c = stConfiguring → ((m.cam n).ctrl.any (fun k => k.sender ==
       .bringUp) = false) → r.acked = true → (m.cam n).phase = 5 → r.trained = false → ∃ t, exec (.cameraBringUp dt n r) s = .next t
       ∧ t.pending = s.pending ∧ (t.m.cam n).restartAt = some (m.now + 1000000000) ∧ (t.m.cam n).restartFrom = 2) ∧
  (∀ (s : State) (dt : Nat) (m : Chip) (n : Nat) (c : CameraRec) (r : CamReply), Now s dt m → n < Config.links → m.camOf n = some c
       → 7 ≤ m.boot.step → m.camBlocked c = false → m.camState c = stConfiguring → ((m.cam n).ctrl.any (fun k => k.sender ==
       .bringUp) = false) → r.acked = true → (m.cam n).phase = 7 → Does (.cameraBringUp dt n r) s (m.startAcq c r.counter)) ∧
  (∀ (s : State) (dt : Nat) (m : Chip) (n : Nat) (c : CameraRec) (r : CamReply), Now s dt m → n < Config.links → m.camOf n = some c
       → 7 ≤ m.boot.step → m.camBlocked c = false → m.camState c = stConfiguring → ((m.cam n).ctrl.any (fun k => k.sender ==
       .bringUp) = false) → r.acked = true → (m.cam n).phase = 7 → ∃ t, exec (.cameraBringUp dt n r) s = .next t ∧ t.pending =
       s.pending ∧ (t.m.cam n).sent = 0 ∧ (t.m.cam n).matched = 0 ∧ (t.m.cam n).base = r.counter ∧ (t.m.cam n).firstTrig = none ∧
       (t.m.cam n).stepAt = m.now) ∧
  (∀ (s : State) (dt : Nat) (m : Chip) (n : Nat) (c : CameraRec), Now s dt m → n < Config.links → m.camOf n = some c → (m.camState c
       = stDiscovering ∨ m.camState c = stPowering) → (m.cam n).pollAt = none → ∃ t, exec (.discoveryPoll dt n false) s = .next t ∧
       t.pending = s.pending ∧ (t.m.cam n).pollAt = some m.now ∧ .send "cxp" n "discovery" [(m.cam n).nextTag] ∈ t.m.out) ∧
  (∀ (s : State) (dt : Nat) (m : Chip) (n : Nat) (c : CameraRec), Now s dt m → n < Config.links → m.camOf n = some c → (m.camState c
       = stDiscovering ∨ m.camState c = stPowering) → (m.cam n).pollAt = none → Does (.discoveryPoll dt n true) s ((((((m.setCam n
       { m.cam n with pollAt := some m.now }).dropDiscovery c).sendCtrl c "discovery" [] .discovery).setCamState c
       stDiscovering).dropDiscovery c).readBootstrap c)) ∧
  (∀ (s : State) (dt : Nat) (m : Chip) (n : Nat) (c : CameraRec), Now s dt m → n < Config.links → m.camOf n = some c → (m.camState c
       = stDiscovering ∨ m.camState c = stPowering) → (m.cam n).pollAt = none → ∃ t, exec (.discoveryPoll dt n true) s = .next t ∧
       t.pending = s.pending ∧ (t.m.cam n).phase = 3 ∧ (t.m.cam n).stepAt = m.now) ∧
  (∀ (s : State) (dt : Nat) (m : Chip) (n : Nat) (c : CameraRec) (acked : Bool) (t : Nat), Now s dt m → n < Config.links → m.camOf n
       = some c → m.camState c = stDiscovering → (m.cam n).pollAt = some t → m.now < t + 100000000 → Does (.discoveryPoll dt n
       acked) s m) ∧
  (∀ (s : State) (dt : Nat) (m : Chip) (n t : Nat) (c : CameraRec), Now s dt m → n < Config.links → m.camOf n = some c → m.stepLimit
       c = some t → t ≤ m.now → Does (.bringUpStepTimeout dt n) s (m.bringUpFails c)) ∧
  (∀ (s : State) (dt : Nat) (m : Chip) (n t : Nat) (c : CameraRec), Now s dt m → n < Config.links → m.camOf n = some c → m.stepLimit
       c = some t → t ≤ m.now → ∃ t, exec (.bringUpStepTimeout dt n) s = .next t ∧ t.pending = s.pending ∧ (t.m.cam n).restartAt =
       some (m.now + 1000000000) ∧ (t.m.cam n).restartFrom = 2) ∧
  (∀ (s : State) (dt : Nat) (m : Chip) (n t : Nat) (c : CameraRec), Now s dt m → n < Config.links → m.camOf n = some c → (m.cam
       n).restartAt = some t → t ≤ m.now → Does (.bringUpRetry dt n) s (m.beginBringUp c (m.cam n).restartFrom (m.camState c !=
       stMismatch))) ∧
  (∀ (s : State) (dt : Nat) (m : Chip) (n t : Nat) (c : CameraRec), Now s dt m → n < Config.links → m.camOf n = some c → (m.cam
       n).restartAt = some t → t ≤ m.now → m.camBlocked c = false → (m.cam n).restartFrom = 3 → ∃ t, exec (.bringUpRetry dt n) s =
       .next t ∧ t.pending = s.pending ∧ (t.m.cam n).phase = 3 ∧ (t.m.cam n).stepAt = m.now) ∧
  (∀ (s : State) (dt : Nat) (m : Chip) (n t : Nat) (c : CameraRec), Now s dt m → n < Config.links → m.camOf n = some c → (m.cam
       n).restartAt = some t → m.now < t → Does (.bringUpRetry dt n) s m) ∧
  (∀ (s : State) (dt : Nat) (m : Chip) (link : Nat) (c : CameraRec), Now s dt m → link < Config.links → m.camOfLink link = some c →
       (m.camState c = stStreaming ∨ m.camState c = stRejected ∨ m.camState c = stCapture) → Does (.cameraLinkLost dt link) s
       ((m.setFlag (F.CXP_LINK_STAT_link_lost link)).camLost c)) ∧
  (∀ (s : State) (dt : Nat) (m : Chip) (link : Nat) (c : CameraRec), Now s dt m → link < Config.links → m.camOfLink link = some c →
       (m.camState c = stStreaming ∨ m.camState c = stRejected ∨ m.camState c = stCapture) → ∃ t, exec (.cameraLinkLost dt link) s =
       .next t ∧ t.pending = s.pending ∧ (t.m.cam c.master).restartAt = some (m.now + 1000000000) ∧ (t.m.cam c.master).restartFrom =
       3) ∧
  (∀ (s : State) (dt : Nat) (m : Chip) (link : Nat) (c : CameraRec), Now s dt m → link < Config.links → m.camOfLink link = some c →
       (m.camState c = stPowering ∨ m.camState c = stDiscovering ∨ m.camState c = stConfiguring ∨ m.camState c = stAwaiting) → Does
       (.cameraLinkLost dt link) s ((m.setFlag (F.CXP_LINK_STAT_link_lost link)).bringUpFails c)) ∧
  (∀ (s : State) (dt : Nat) (m : Chip) (link : Nat) (c : CameraRec), Now s dt m → link < Config.links → m.camOfLink link = some c →
       (m.camState c = stPowering ∨ m.camState c = stDiscovering ∨ m.camState c = stConfiguring ∨ m.camState c = stAwaiting) → ∃ t,
       exec (.cameraLinkLost dt link) s = .next t ∧ t.pending = s.pending ∧ (t.m.cam c.master).restartAt = some (m.now + 1000000000)
       ∧ (t.m.cam c.master).restartFrom = 2) ∧
  (∀ (s : State) (dt : Nat) (m : Chip) (n : Nat) (c : CameraRec), Now s dt m → n < Config.links → m.camOf n = some c → Does
       (.reconnect dt n) s (m.beginBringUp c 3 true)) ∧
  (∀ (s : State) (dt : Nat) (m : Chip) (n : Nat) (c : CameraRec), Now s dt m → n < Config.links → m.camOf n = some c → m.camBlocked
       c = false → ∃ t, exec (.reconnect dt n) s = .next t ∧ t.pending = s.pending ∧ (t.m.cam n).phase = 3 ∧ (t.m.cam n).stepAt =
       m.now) ∧
  (∀ (s : State) (dt : Nat) (m : Chip) (link : Nat) (c : CameraRec), Now s dt m → link < Config.links → m.camOfLink link = some c →
       Does (.linkHold dt link true) s (forAll (camLinks c) (fun n m => m.pocEnable n false) ((m.put (F.CXP_LINK_CTRL_link_hold
       link) 1).camDown c stHeld))) ∧
  (∀ (s : State) (dt : Nat) (m : Chip) (link : Nat) (c : CameraRec), Now s dt m → link < Config.links → m.camOfLink link = some c →
       (m.poc c.master).on = true ∧ 0 < c.links → ∃ t, exec (.linkHold dt link true) s = .next t ∧ t.pending = s.pending ∧ .pin
       "CXP_PWR_EN_N" c.master true ∈ t.m.out) ∧
  (∀ (s : State) (dt : Nat) (m : Chip) (link : Nat) (c : CameraRec) (x : Chip), Now s dt m → link < Config.links → x = m.put
       (F.CXP_LINK_CTRL_link_hold link) 0 → m.camOfLink link = some c → x.camHeld c = false → 7 ≤ m.boot.step → (((camLinks c).any
       (fun n => x.get (F.CXP_LINK_STAT_state n) == stHeld)) = true) → Does (.linkHold dt link false) s ((x.setCamState c
       stDown).beginBringUp c 1 false)) ∧
  (∀ (s : State) (dt : Nat) (m : Chip) (link : Nat) (c : CameraRec) (l : List Nat), Now s dt m → link < Config.links → m.flag
       (F.CXP_LINK_CFG_poc link) = true → (m.poc link).on = true → m.camOfLink link = some c → (l = ((m.poc link).faults.filter fun
       t => decide (m.now < t + 60000000000)) ++ [m.now]) → l.length < 3 → Does (.pocFault dt link) s ((((m.pocEnable link
       false).setFlag (F.CXP_LINK_STAT_poc_fault link)).setPoc link
       { ((m.pocEnable link false).setFlag (F.CXP_LINK_STAT_poc_fault link)).poc link with faults := l, locked := false, offSince := some m.now }).camLost
       c)) ∧
  (∀ (s : State) (dt : Nat) (m : Chip) (link : Nat) (c : CameraRec) (l : List Nat), Now s dt m → link < Config.links → m.flag
       (F.CXP_LINK_CFG_poc link) = true → (m.poc link).on = true → m.camOfLink link = some c → (l = ((m.poc link).faults.filter fun
       t => decide (m.now < t + 60000000000)) ++ [m.now]) → l.length < 3 → ∃ t, exec (.pocFault dt link) s = .next t ∧ t.pending =
       s.pending ∧ (t.m.poc link).faults = l ∧ (t.m.poc link).locked = false ∧ (t.m.poc link).offSince = some m.now ∧ (t.m.cam
       c.master).restartAt = some (m.now + 1000000000)) ∧
  (∀ (s : State) (dt : Nat) (m : Chip) (link : Nat) (c : CameraRec) (l : List Nat), Now s dt m → link < Config.links → m.flag
       (F.CXP_LINK_CFG_poc link) = true → (m.poc link).on = true → m.camOfLink link = some c → (l = ((m.poc link).faults.filter fun
       t => decide (m.now < t + 60000000000)) ++ [m.now]) → 3 ≤ l.length → Does (.pocFault dt link) s ((((m.pocEnable link
       false).setFlag (F.CXP_LINK_STAT_poc_fault link)).setPoc link
       { ((m.pocEnable link false).setFlag (F.CXP_LINK_STAT_poc_fault link)).poc link with faults := l, locked := true, offSince := none }).camLost
       c)) ∧
  (∀ (s : State) (dt : Nat) (m : Chip) (link : Nat) (c : CameraRec) (l : List Nat), Now s dt m → link < Config.links → m.flag
       (F.CXP_LINK_CFG_poc link) = true → (m.poc link).on = true → m.camOfLink link = some c → (l = ((m.poc link).faults.filter fun
       t => decide (m.now < t + 60000000000)) ++ [m.now]) → 3 ≤ l.length → ∃ t, exec (.pocFault dt link) s = .next t ∧ t.pending =
       s.pending ∧ (t.m.poc link).faults = l ∧ (t.m.poc link).locked = true ∧ (t.m.poc link).offSince = none) ∧
  (∀ (s : State) (dt : Nat) (m : Chip) (link t : Nat) (c : CameraRec), Now s dt m → link < Config.links → (m.poc link).offSince =
       some t → t + 1000000000 ≤ m.now → m.camOfLink link = some c → m.camHeld c = false → Does (.pocReenable dt link) s ((m.setPoc
       link { m.poc link with offSince := none }).pocEnable link true)) ∧
  (∀ (s : State) (dt : Nat) (m : Chip) (link t : Nat) (c : CameraRec), Now s dt m → link < Config.links → (m.poc link).offSince =
       some t → t + 1000000000 ≤ m.now → m.camOfLink link = some c → m.camHeld c = false → (m.poc link).faults ≠ [] ∧ (m.poc
       link).on = false → ∃ t, exec (.pocReenable dt link) s = .next t ∧ t.pending = s.pending ∧ (t.m.poc link).on = true ∧ t.m.out
       = m.out ++ [.pin "CXP_PWR_EN_N" link false]) ∧
  (∀ (s : State) (dt : Nat) (m : Chip) (link t : Nat), Now s dt m → link < Config.links → (m.poc link).offSince = some t → m.now < t
       + 1000000000 → Does (.pocReenable dt link) s m) ∧
  (∀ (s : State) (dt : Nat) (m : Chip) (link : Nat) (c : CameraRec) (x : Chip), Now s dt m → link < Config.links → (m.poc
       link).locked = true → x = m.setPoc link { m.poc link with locked := false, faults := [], offSince := none } → m.camOfLink
       link = some c → m.camHeld c = false → Does (.pocClear dt link) s ((x.setCamState c stDown).beginBringUp c 1 true)) ∧
  (∀ (s : State) (dt : Nat) (m : Chip) (link : Nat) (c : CameraRec) (x : Chip), Now s dt m → link < Config.links → (m.poc
       link).locked = true → x = m.setPoc link { m.poc link with locked := false, faults := [], offSince := none } → m.camOfLink
       link = some c → m.camHeld c = false → (x.setCamState c stDown).camBlocked c = false ∧ 0 < m.now → ∃ t, exec (.pocClear dt
       link) s = .next t ∧ t.pending = s.pending ∧ (t.m.cam c.master).stepAt = m.now ∧ (t.m.cam c.master).pollAt = none)

/-- A trigger whose count is not reached does nothing. A due trigger of a streaming camera takes the index its count gives,
reaches the pipeline and is sent: its slot joins the queue; within the minimum interval of the last it is suppressed, flagged
and counted, and its line is void; a camera that does not stream gives a void line. Before step 7 a due trigger only advances
the highest count. Slots past the line timeout become void. A completed line takes the oldest slot: a pending slot gives the
line its index, count and trigger time; a slot already void drops it as late; without a slot it is unsolicited; in calibration
capture it goes to the region. A stream packet with a wrong CRC is counted and loses its lines; a wrong identity is unsolicited;
a repeated tag is a duplicate; an in-order packet is counted and advances the tag expected. (R71, R72, R73, R74, R75, R76, R79)
-/
def Obligations.TriggersAndLinesOfACamera : Prop :=
  (∀ (s : State) (dt : Nat) (m : Chip) (n : Nat) (c : CameraRec) (cnt : Int) (io : LineIo), Now s dt m → n < Config.links → m.camOf
       n = some c → cnt = m.nextTrigger c → (m.encBarred (m.get (F.CXP_TRIG_CFG_enc_port n)) = true ∨ m.encPos (m.get
       (F.CXP_TRIG_CFG_enc_port n)) < cnt * 65536) → Does (.triggerDue dt n io) s m) ∧
  (∀ (s : State) (dt : Nat) (m : Chip) (n idx : Nat) (c : CameraRec) (cnt : Int) (io : LineIo) (x : Chip), Now s dt m → n <
       Config.links → m.camOf n = some c → cnt = m.nextTrigger c → m.encBarred (m.get (F.CXP_TRIG_CFG_enc_port n)) = false → cnt *
       65536 ≤ m.encPos (m.get (F.CXP_TRIG_CFG_enc_port n)) → 7 ≤ m.boot.step → x = m.setCam n { m.cam n with highest := cnt } → idx
       = ((cnt - m.get (F.CXP_TRIG_PHASE_phase n)).fdiv (max 1 (m.get (F.CXP_TRIG_CFG_divider n)))).toNat → Does (.triggerDue dt n
       io) s (x.linePaced (m.camGang c) io (Chip.trigger c idx cnt))) ∧
  (∀ (m : Chip) (c : CameraRec) (idx : Nat) (cnt : Int), m.camState c = stStreaming → (∀ t, (m.cam c.master).lastSent = some t → t +
       4 * m.get (F.CXP_TRIG_CFG_min_interval c.master) ≤ m.now) → m.trigger c idx cnt = (m.pipeTrigger (m.camGang c) idx cnt
       m.tb3).sendTrigger c idx cnt) ∧
  (∀ (m : Chip) (c : CameraRec) (idx t : Nat) (cnt : Int), m.camState c = stStreaming → (m.cam c.master).lastSent = some t → m.now <
       t + 4 * m.get (F.CXP_TRIG_CFG_min_interval c.master) → m.trigger c idx cnt = (((m.pipeTrigger (m.camGang c) idx cnt
       m.tb3).setFlag (F.CXP_LINK_STAT_trig_suppressed c.master)).bump (R.CXP_CNT_TRIG_SUP c.master)).voidLine c idx cnt m.tb3
       ((m.cam c.master).dropStrip == some (idx / m.rowLines c.row))) ∧
  (∀ (m : Chip) (c : CameraRec) (idx : Nat) (cnt : Int), m.camStreams c = false → m.camState c ≠ stAwaiting → m.trigger c idx cnt =
       (m.pipeTrigger (m.camGang c) idx cnt m.tb3).voidLine c idx cnt m.tb3 ((m.cam c.master).dropStrip == some (idx / m.rowLines
       c.row))) ∧
  (∀ (s : State) (dt : Nat) (m : Chip) (n idx : Nat) (c : CameraRec) (cnt : Int) (io : LineIo) (x : Chip), Now s dt m → n <
       Config.links → m.camOf n = some c → cnt = m.nextTrigger c → m.encBarred (m.get (F.CXP_TRIG_CFG_enc_port n)) = false → cnt *
       65536 ≤ m.encPos (m.get (F.CXP_TRIG_CFG_enc_port n)) → 7 ≤ m.boot.step → x = m.setCam n { m.cam n with highest := cnt } → idx
       = ((cnt - m.get (F.CXP_TRIG_PHASE_phase n)).fdiv (max 1 (m.get (F.CXP_TRIG_CFG_divider n)))).toNat → Canon m → m.camState c =
       stStreaming → (∀ t, (m.cam n).lastSent = some t → t + 4 * m.get (F.CXP_TRIG_CFG_min_interval n) ≤ m.now) → io.cmCe = [] ∧
       io.cmUe = [] → (m.cam n).slots.length < 256 → (m.cam n).dropStrip = none → ({ m.cam n with highest := cnt } : CamState) ≠ {}
       → ∃ t, exec (.triggerDue dt n io) s = .next t ∧ t.pending = s.pending ∧ ∃ d, d < 480 ∧ t.m.cam n =
       { m.cam n with highest := cnt, slots := (m.cam n).slots ++ [{ idx, count := cnt, tb3 := m.tb3, sentAt := m.now + d, pending := true }], lastSent := some m.now, sent := (m.cam n).sent + 1 }) ∧
  (∀ (s : State) (dt : Nat) (m : Chip) (n idx t0 : Nat) (c : CameraRec) (cnt : Int) (io : LineIo) (x : Chip), Now s dt m → n <
       Config.links → m.camOf n = some c → cnt = m.nextTrigger c → m.encBarred (m.get (F.CXP_TRIG_CFG_enc_port n)) = false → cnt *
       65536 ≤ m.encPos (m.get (F.CXP_TRIG_CFG_enc_port n)) → 7 ≤ m.boot.step → x = m.setCam n { m.cam n with highest := cnt } → idx
       = ((cnt - m.get (F.CXP_TRIG_PHASE_phase n)).fdiv (max 1 (m.get (F.CXP_TRIG_CFG_divider n)))).toNat → Canon m → m.camState c =
       stStreaming → (m.cam n).lastSent = some t0 → m.now < t0 + 4 * m.get (F.CXP_TRIG_CFG_min_interval n) → io.cmCe = [] ∧ io.cmUe
       = [] → ({ m.cam n with highest := cnt } : CamState) ≠ {} → ∃ t, exec (.triggerDue dt n io) s = .next t ∧ t.pending =
       s.pending ∧ (t.m.cam n).slots = (m.cam n).slots ∧ (t.m.cam n).lastSent = some t0) ∧
  (∀ (s : State) (dt : Nat) (m : Chip) (n : Nat) (c : CameraRec) (cnt : Int) (io : LineIo), Now s dt m → n < Config.links → m.camOf
       n = some c → cnt = m.nextTrigger c → m.encBarred (m.get (F.CXP_TRIG_CFG_enc_port n)) = false → cnt * 65536 ≤ m.encPos (m.get
       (F.CXP_TRIG_CFG_enc_port n)) → m.boot.step < 7 → Does (.triggerDue dt n io) s (m.setCam n { m.cam n with highest := cnt })) ∧
  (∀ (s : State) (dt : Nat) (m : Chip) (n : Nat) (c : CameraRec) (io : LineIo), Now s dt m → n < Config.links → m.camOf n = some c →
       Does (.lineTimeout dt n io) s (m.linePaced (m.camGang c) io (Chip.expireSlots c))) ∧
  (∀ (m : Chip) (c : CameraRec) (l : List TrigSlot), l = (m.cam c.master).slots.filter (fun s => s.pending && decide (s.sentAt +
       m.get (F.CXP_TIMING_CFG_line_timeout c.master) * 1000 ≤ m.now)) → m.expireSlots c = forAll l (fun s m => m.voidSlot c s)
       (m.setCam c.master
       { m.cam c.master with slots := (m.cam c.master).slots.map fun s => if s.pending && decide (s.sentAt + m.get (F.CXP_TIMING_CFG_line_timeout c.master) * 1000 ≤ m.now) then { s with pending := false } else s })) ∧
  (∀ (s : State) (dt : Nat) (m : Chip) (n : Nat) (c : CameraRec) (io : LineIo), Now s dt m → n < Config.links → m.camOf n = some c →
       Canon m → io.cmCe = [] ∧ io.cmUe = [] → (m.cam n).slots ≠ [] → ∃ t, exec (.lineTimeout dt n io) s = .next t ∧ t.pending =
       s.pending ∧ (t.m.cam n).slots = (m.cam n).slots.map (fun s => if s.pending && decide (s.sentAt + m.get
       (F.CXP_TIMING_CFG_line_timeout n) * 1000 ≤ m.now) then { s with pending := false } else s)) ∧
  (∀ (s : State) (dt : Nat) (m : Chip) (n : Nat) (d : List Nat) (io : LineIo), Now s dt m → n < Config.links → m.camOf n = none →
       Does (.lineComplete dt n d io) s m) ∧
  (∀ (s : State) (dt : Nat) (m : Chip) (n : Nat) (c : CameraRec) (d : List Nat) (io : LineIo), Now s dt m → n < Config.links →
       m.camOf n = some c → m.camState c ≠ stCapture → Does (.lineComplete dt n d io) s (m.linePaced (m.camGang c) io (fun m =>
       (m.expireSlots c).matchLine c d))) ∧
  (∀ (s : State) (dt : Nat) (m : Chip) (n : Nat) (c : CameraRec) (d : List Nat) (io : LineIo), Now s dt m → n < Config.links →
       m.camOf n = some c → m.camState c ≠ stCapture → (m.cam n).slots ≠ [] → ∃ t, exec (.lineComplete dt n d io) s = .next t ∧
       t.pending = s.pending ∧ (t.m.cam n).slots.map (·.idx) = (m.cam n).slots.tail.map (·.idx) ∧ (t.m.cam n).matched = (m.cam
       n).matched + 1) ∧
  (∀ (m : Chip) (c : CameraRec) (d : List Nat), (m.cam c.master).slots = [] → m.matchLine c d = (m.setFlag
       (F.CXP_LINK_STAT_unsolicited c.master)).bump (R.CXP_CNT_UNSOL c.master)) ∧
  (∀ (m : Chip) (c : CameraRec) (d : List Nat) (u : TrigSlot) (r : List TrigSlot), (m.cam c.master).slots = u :: r → u.pending =
       false → u.quiet = false → m.matchLine c d = ((m.setCam c.master
       { m.cam c.master with slots := r, matched := (m.cam c.master).matched + 1 }).setFlag (F.CXP_LINK_STAT_late_drop
       c.master)).bump (R.CXP_CNT_LATE c.master)) ∧
  (∀ (m x : Chip) (c : CameraRec) (d : List Nat) (u : TrigSlot) (r : List TrigSlot) (l : InLine), (m.cam c.master).slots = u :: r →
       u.pending = true → m.camState c ≠ stRejected → x = m.setCam c.master
       { m.cam c.master with slots := r, matched := (m.cam c.master).matched + 1 } → l =
       { idx := u.idx, count := u.count, tb3 := u.tb3, got := true, bits := c.bits, samples := some (d.take (c.width * c.planes)) }
       → m.matchLine c d = (x.writeLineRec c l).pipeLine (x.camGang c) l) ∧
  (∀ (s : State) (dt : Nat) (m : Chip) (n : Nat) (c : CameraRec) (d : List Nat) (io : LineIo) (k : CalCap), Now s dt m → n <
       Config.links → m.camOf n = some c → m.camState c = stCapture → (m.cam n).cal = some k → k.rejected = false → k.left ≠ some 0
       → ∃ t, exec (.lineComplete dt n d io) s = .next t ∧ t.pending = s.pending ∧ (t.m.cam n).cal = some
       { k with used := k.used + min (k.len - k.used) ((d.take (k.width * c.planes)).flatMap (leBytes (sampleBytes c.bits))).length, left := k.left.map (· - 1) }) ∧
  (∀ (s : State) (dt : Nat) (m : Chip) (k : StreamPkt) (c : CameraRec), Now s dt m → k.link < Config.links → m.camOfLink k.link =
       some c → (m.camState c = stAwaiting ∨ m.camState c = stStreaming ∨ m.camState c = stRejected ∨ m.camState c = stCapture) →
       k.crcOk = false → Does (.streamPacket dt k) s (((m.setFlag (F.CXP_LINK_STAT_crc_err k.link)).bump (R.CXP_CNT_CRC
       k.link)).linesLost c k.lost)) ∧
  (∀ (s : State) (dt : Nat) (m : Chip) (k : StreamPkt) (c : CameraRec), Now s dt m → k.link < Config.links → m.camOfLink k.link =
       some c → (m.camState c = stAwaiting ∨ m.camState c = stStreaming ∨ m.camState c = stRejected ∨ m.camState c = stCapture) →
       k.crcOk = true → k.idOk = false → Does (.streamPacket dt k) s ((m.setFlag (F.CXP_LINK_STAT_unsolicited k.link)).bump
       (R.CXP_CNT_UNSOL k.link))) ∧
  (∀ (s : State) (dt : Nat) (m : Chip) (k : StreamPkt) (c : CameraRec), Now s dt m → k.link < Config.links → m.camOfLink k.link =
       some c → (m.camState c = stAwaiting ∨ m.camState c = stStreaming ∨ m.camState c = stRejected ∨ m.camState c = stCapture) →
       k.crcOk = true → k.idOk = true → tagStep (decide (1 < c.links)) (m.cam c.master).tagNext (m.cam c.master).ahead (m.cam
       c.master).seen (k.tag % 256) k.skip = none → Does (.streamPacket dt k) s ((m.setFlag (F.CXP_LINK_STAT_dup_tag k.link)).bump
       (R.CXP_CNT_DUP k.link))) ∧
  (∀ (s : State) (dt : Nat) (m : Chip) (k : StreamPkt) (c : CameraRec) (q : Nat) (l : List Nat), Now s dt m → k.link < Config.links
       → m.camOfLink k.link = some c → (m.camState c = stAwaiting ∨ m.camState c = stStreaming ∨ m.camState c = stRejected ∨
       m.camState c = stCapture) → k.crcOk = true → k.idOk = true → tagStep (decide (1 < c.links)) (m.cam c.master).tagNext (m.cam
       c.master).ahead (m.cam c.master).seen (k.tag % 256) k.skip = some (q, l, false, false) → k.header = none → k.lineSize = none
       → k.event = false → Does (.streamPacket dt k) s ((m.setCam c.master
       { m.cam c.master with lineTime := k.lineTime.orElse fun _ => (m.cam c.master).lineTime, tagNext := some q, ahead := l, seen := tagsSeen q (k.tag % 256) (m.cam c.master).seen }).bump
       (R.CXP_CNT_PKT k.link))) ∧
  (∀ (s : State) (dt : Nat) (m : Chip) (k : StreamPkt) (c : CameraRec) (q : Nat) (l : List Nat), Now s dt m → k.link < Config.links
       → m.camOfLink k.link = some c → (m.camState c = stAwaiting ∨ m.camState c = stStreaming ∨ m.camState c = stRejected ∨
       m.camState c = stCapture) → k.crcOk = true → k.idOk = true → tagStep (decide (1 < c.links)) (m.cam c.master).tagNext (m.cam
       c.master).ahead (m.cam c.master).seen (k.tag % 256) k.skip = some (q, l, false, false) → k.header = none → k.lineSize = none
       → k.event = false → ∃ t, exec (.streamPacket dt k) s = .next t ∧ t.pending = s.pending ∧ (t.m.cam c.master).tagNext = some q
       ∧ (t.m.cam c.master).ahead = l)

/-- An acknowledge ends its command, and brings a maintainer its value; without one it is unsolicited. A command without
acknowledge for 50 ms is sent again with its tag, three times; then it times out, and one of bring-up fails the step. A
heartbeat goes out every hb_ms. The audit of a streaming camera asks for the counter every second, takes a counter ahead of the
triggers sent since as a loss of line order, ends its check where the lines matched suffice, and at the third shortfall takes
order as lost. A signed control command sends one command with a fresh tag. Capture is entered, with the slots emptied, only
where no enabled job consumes the stream, and its trigger is sent; leaving it is a reconnect. (R77, R79, R81, R82, R83, R84) -/
def Obligations.CameraControlAndCapture : Prop :=
  (∀ (s : State) (dt : Nat) (m : Chip) (n tag v : Nat) (c : CameraRec) (k : CtrlCmd), Now s dt m → n < Config.links → m.camOf n =
       some c → ((m.cam n).ctrl.find? (fun c => c.tag == tag) = some k) → k.sender = .bringUp → Does (.controlAck dt n tag v) s
       (m.setCam n { m.cam n with ctrl := (m.cam n).ctrl.erase k })) ∧
  (∀ (s : State) (dt : Nat) (m : Chip) (n tag v : Nat) (c : CameraRec) (k : CtrlCmd), Now s dt m → n < Config.links → m.camOf n =
       some c → ((m.cam n).ctrl.find? (fun c => c.tag == tag) = some k) → k.sender = .maintainer → Does (.controlAck dt n tag v) s
       ((m.setCam n { m.cam n with ctrl := (m.cam n).ctrl.erase k }).emit (.send "service" n "camera value" [tag, v]))) ∧
  (∀ (s : State) (dt : Nat) (m : Chip) (n tag v : Nat) (c : CameraRec) (k : CtrlCmd), Now s dt m → n < Config.links → m.camOf n =
       some c → ((m.cam n).ctrl.find? (fun c => c.tag == tag) = some k) → k.sender = .audit → Does (.controlAck dt n tag v) s
       ((m.setCam n { m.cam n with ctrl := (m.cam n).ctrl.erase k }).auditAck c v)) ∧
  (∀ (s : State) (dt : Nat) (m : Chip) (n tag v : Nat) (c : CameraRec) (k : CtrlCmd), Now s dt m → n < Config.links → m.camOf n =
       some c → ((m.cam n).ctrl.find? (fun c => c.tag == tag) = some k) → k.sender = .discovery → m.camState c = stDiscovering →
       Does (.controlAck dt n tag v) s ((m.setCam n { m.cam n with ctrl := (m.cam n).ctrl.erase k }).readBootstrap c)) ∧
  (∀ (s : State) (dt : Nat) (m : Chip) (n tag v : Nat), Now s dt m → n < Config.links → ((m.cam n).ctrl.find? (fun c => c.tag ==
       tag) = none) → Does (.controlAck dt n tag v) s ((m.setFlag (F.CXP_LINK_STAT_unsolicited n)).bump (R.CXP_CNT_UNSOL n))) ∧
  (∀ (s : State) (dt : Nat) (m : Chip) (n : Nat) (c : CameraRec) (k : CtrlCmd), Now s dt m → n < Config.links → m.camOf n = some c →
       (m.cam n).ctrl = [k] → k.sender ≠ .discovery → k.sentAt + 50000000 ≤ m.now → k.resends < 3 → Does (.controlResend dt n) s
       ((m.setCam n { m.cam n with ctrl := [{ k with resends := k.resends + 1, sentAt := m.now }] }).emit (.send "cxp" n "resend"
       [k.tag]))) ∧
  (∀ (s : State) (dt : Nat) (m : Chip) (n : Nat) (c : CameraRec) (k : CtrlCmd), Now s dt m → n < Config.links → m.camOf n = some c →
       (m.cam n).ctrl = [k] → k.sender ≠ .discovery → k.sentAt + 50000000 ≤ m.now → k.resends < 3 → ∃ t, exec (.controlResend dt n)
       s = .next t ∧ t.pending = s.pending ∧ (t.m.cam n).ctrl = [{ k with resends := k.resends + 1, sentAt := m.now }] ∧ t.m.out =
       m.out ++ [.send "cxp" n "resend" [k.tag]]) ∧
  (∀ (s : State) (dt : Nat) (m : Chip) (n : Nat) (c : CameraRec) (k : CtrlCmd), Now s dt m → n < Config.links → m.camOf n = some c →
       (m.cam n).ctrl = [k] → k.sender = .bringUp → k.sentAt + 50000000 ≤ m.now → 3 ≤ k.resends → m.camState c = stConfiguring →
       Canon m → Does (.controlResend dt n) s (((m.setCam n { m.cam n with ctrl := [] }).setFlag (F.CXP_LINK_STAT_ctrl_timeout
       n)).bringUpFails c)) ∧
  (∀ (s : State) (dt : Nat) (m : Chip) (n : Nat) (c : CameraRec) (k : CtrlCmd), Now s dt m → n < Config.links → m.camOf n = some c →
       (m.cam n).ctrl = [k] → k.sender = .bringUp → k.sentAt + 50000000 ≤ m.now → 3 ≤ k.resends → m.camState c = stConfiguring →
       Canon m → ∃ t, exec (.controlResend dt n) s = .next t ∧ t.pending = s.pending ∧ (t.m.cam n).restartAt = some (m.now +
       1000000000) ∧ (t.m.cam n).restartFrom = 2) ∧
  (∀ (s : State) (dt : Nat) (m : Chip) (n : Nat) (c : CameraRec), Now s dt m → n < Config.links → m.camOf n = some c → (m.cam
       n).heartAt + m.get (F.CXP_TIMING_CFG_hb_ms n) * 1000000 ≤ m.now → Does (.cxpHeartbeat dt n) s ((m.setCam n
       { m.cam n with heartAt := m.now }).emit (.send "cxp" n "heartbeat" [m.tb0]))) ∧
  (∀ (s : State) (dt : Nat) (m : Chip) (n : Nat) (c : CameraRec), Now s dt m → n < Config.links → m.camOf n = some c → m.now <
       (m.cam n).heartAt + m.get (F.CXP_TIMING_CFG_hb_ms n) * 1000000 → Does (.cxpHeartbeat dt n) s m) ∧
  (∀ (s : State) (dt : Nat) (m : Chip) (n : Nat) (c : CameraRec), Now s dt m → n < Config.links → m.camOf n = some c → c.trigCnt ≠
       0xFFFFFFFF → m.camStreams c = true → (m.cam n).auditAt + 1000000000 ≤ m.now → (m.cam n).tB = none → Does
       (.triggerCounterAudit dt n .start) s ((m.setCam n
       { m.cam n with tB := some (m.cam n).sent, auditAt := m.now, readC := none }).sendCtrl c "read counter" [c.trigCnt] .audit)) ∧
  (∀ (s : State) (dt : Nat) (m : Chip) (n : Nat) (c : CameraRec), Now s dt m → n < Config.links → m.camOf n = some c → c.trigCnt ≠
       0xFFFFFFFF → m.camStreams c = true → (m.cam n).auditAt + 1000000000 ≤ m.now → (m.cam n).tB = none → ∃ t, exec
       (.triggerCounterAudit dt n .start) s = .next t ∧ t.pending = s.pending ∧ (t.m.cam n).tB = some (m.cam n).sent ∧ (t.m.cam
       n).readC = none ∧ t.m.out = m.out ++ [.send "cxp" n "read counter" [(m.cam n).nextTag, c.trigCnt]]) ∧
  (∀ (m : Chip) (c : CameraRec) (v b : Nat), (m.cam c.master).tB = some b → sub32 (m.cam c.master).sent b < sub32 (sub32 v (m.cam
       c.master).base) b → m.auditAck c v = m.orderLost c) ∧
  (∀ (m : Chip) (c : CameraRec) (v b : Nat), (m.cam c.master).tB = some b → sub32 (sub32 v (m.cam c.master).base) b ≤ sub32 (m.cam
       c.master).sent b → m.auditAck c v = m.setCam c.master
       { m.cam c.master with readC := some (sub32 v (m.cam c.master).base), checkAt := m.now + m.get (F.CXP_TIMING_CFG_line_timeout c.master) * 1000 }) ∧
  (∀ (s : State) (dt : Nat) (m : Chip) (n v : Nat) (c : CameraRec), Now s dt m → n < Config.links → m.camOf n = some c → c.trigCnt ≠
       0xFFFFFFFF → m.camStreams c = true → Does (.triggerCounterAudit dt n (.ack v)) s ((m.setCam n
       { m.cam n with ctrl := (m.cam n).ctrl.filter fun k => k.sender != .audit }).auditAck c v)) ∧
  (∀ (s : State) (dt : Nat) (m : Chip) (n k : Nat) (c : CameraRec), Now s dt m → n < Config.links → m.camOf n = some c → c.trigCnt ≠
       0xFFFFFFFF → m.camStreams c = true → (m.cam n).readC = some k → (m.cam n).checkAt ≤ m.now → sub32 (m.cam n).matched k < 2 ^
       31 → Does (.triggerCounterAudit dt n .check) s (m.setCam n { m.cam n with tB := none, readC := none, shortfalls := 0 })) ∧
  (∀ (s : State) (dt : Nat) (m : Chip) (n k : Nat) (c : CameraRec), Now s dt m → n < Config.links → m.camOf n = some c → c.trigCnt ≠
       0xFFFFFFFF → m.camStreams c = true → (m.cam n).readC = some k → (m.cam n).checkAt ≤ m.now → 2 ^ 31 ≤ sub32 (m.cam n).matched
       k → (m.cam n).shortfalls = 2 → Does (.triggerCounterAudit dt n .check) s ((m.setCam n
       { m.cam n with tB := none, readC := none, shortfalls := 3 }).orderLost c)) ∧
  (∀ (s : State) (dt : Nat) (m : Chip) (a : Auth) (v : Session) (n addr value : Nat) (w : Bool) (c : CameraRec) (x : Chip), Now s dt
       m → Admitted m [3] false false a v → n < Config.links → m.camOf n = some c → (m.camState c = stStreaming ∨ m.camState c =
       stRejected ∨ m.camState c = stAwaiting ∨ m.camState c = stCapture) → x = ((consumed a v m).acceptCmd a) → x.camState c =
       m.camState c → Does (.cameraControlCommand dt a n w addr value) s (x.sendCtrl c (if w then "write" else "read") [addr % 2 ^
       32, value % 2 ^ 32] .maintainer)) ∧
  (∀ (s : State) (dt : Nat) (m : Chip) (a : Auth) (v : Session) (n addr value : Nat) (w : Bool) (c : CameraRec), Now s dt m →
       Admitted m [3] false false a v → n < Config.links → m.camOf n = some c → (m.camState c = stStreaming ∨ m.camState c =
       stRejected ∨ m.camState c = stAwaiting ∨ m.camState c = stCapture) → (((consumed a v m).acceptCmd a)).camState c = m.camState
       c → ∃ t, exec (.cameraControlCommand dt a n w addr value) s = .next t ∧ t.pending = s.pending ∧ ∃ g, t.m.out.getLast? = some
       (.send "cxp" n (if w then "write" else "read") [g, addr % 2 ^ 32, value % 2 ^ 32]) ∧ (t.m.cam n).ctrl.getLast? = some
       { tag := g, sentAt := t.m.now, sender := .maintainer }) ∧
  (∀ (s : State) (dt : Nat) (m : Chip) (a : Auth) (v : Session) (n base len trig : Nat) (c : CameraRec) (x y : Chip), Now s dt m →
       Admitted m [3] false false a v → n < Config.links → m.camOf n = some c → m.camStreams c = true → ((m.stick.jobs.any fun j =>
       j.rows.contains c.row && m.flag (F.RC_JOB_CTRL_enable j.job)) = false) → base + len ≤ Config.cmBytes → x = ((consumed a v
       m).acceptCmd a) → x.camStreams c = true → ((x.stick.jobs.any fun j => j.rows.contains c.row && x.flag (F.RC_JOB_CTRL_enable
       j.job)) = false) → y = (x.emptySlots c).setCamState c stCapture → Does (.calCaptureEnter dt a n base len trig) s ((y.setCam n
       { y.cam n with cal := some { base, len, width := c.width } }).emit (.send "cxp" n "calibration trigger" [trig]))) ∧
  (∀ (s : State) (dt : Nat) (m : Chip) (a : Auth) (v : Session) (n base len trig : Nat) (c : CameraRec), Now s dt m → Admitted m [3]
       false false a v → n < Config.links → m.camOf n = some c → m.camStreams c = true → ((m.stick.jobs.any fun j => j.rows.contains
       c.row && m.flag (F.RC_JOB_CTRL_enable j.job)) = false) → base + len ≤ Config.cmBytes → (((consumed a v m).acceptCmd
       a)).camStreams c = true → (((((consumed a v m).acceptCmd a)).stick.jobs.any fun j => j.rows.contains c.row && (((consumed a v
       m).acceptCmd a)).flag (F.RC_JOB_CTRL_enable j.job)) = false) → ∃ t, exec (.calCaptureEnter dt a n base len trig) s = .next t
       ∧ t.pending = s.pending ∧ (t.m.cam n).cal = some { base, len, width := c.width } ∧ t.m.out.getLast? = some (.send "cxp" n
       "calibration trigger" [trig])) ∧
  (∀ (s : State) (dt : Nat) (m : Chip) (a : Auth) (v : Session) (n : Nat) (c : CameraRec) (x : Chip), Now s dt m → Admitted m [3]
       false false a v → n < Config.links → m.camOf n = some c → m.camState c = stCapture → x = ((consumed a v m).acceptCmd a) →
       x.camState c = stCapture → Does (.calCaptureLeave dt a n) s (x.beginBringUp c 3 true)) ∧
  (∀ (s : State) (dt : Nat) (m : Chip) (a : Auth) (v : Session) (n : Nat) (c : CameraRec), Now s dt m → Admitted m [3] false false a
       v → n < Config.links → m.camOf n = some c → m.camState c = stCapture → (((consumed a v m).acceptCmd a)).camState c =
       stCapture → (((consumed a v m).acceptCmd a)).camBlocked c = false → ∃ t, exec (.calCaptureLeave dt a n) s = .next t ∧
       t.pending = s.pending ∧ (t.m.cam n).phase = 3 ∧ (t.m.cam n).stepAt = ((consumed a v m).acceptCmd a).now)

/-- The oldest full strip of a row that is not fed closes, in the bay of TB3. A synchronising reset acts on the whole gang of a
pipeline. An admitted route change to a listed source is written to every pipeline of the gang. An admitted calibration record
that passes its checks goes into the inactive bank of the gang. A replay that passes its checks takes the destination, its
calibration record and the snapshot of the strip before the first, which is played as lead-in; without one it sets no_snapshot
and resets. An idle channel plays no line, nor one before it is due; a stopping one becomes idle at a strip boundary; else the
next recorded line is played to every gang on the channel and the position advances. A stop takes effect on a channel that
plays. (R14, R99, R115, R116, R117, R118, R119, R122, R123, R129) -/
def Obligations.StripsRoutesAndReplays : Prop :=
  (∀ (s : State) (dt : Nat) (m : Chip) (r : Nat) (o : OpenStrip) (l : List OpenStrip), Now s dt m → r < Config.rows → (m.rowPipe
       r).full = o :: l → m.fedRow r = false → Does (.stripClose dt r) s ((m.setRowPipe r { m.rowPipe r with full := l }).closeStrip
       r o)) ∧
  (∀ (s : State) (dt : Nat) (m : Chip) (r : Nat) (o : OpenStrip) (l : List OpenStrip), Now s dt m → r < Config.rows → (m.rowPipe
       r).full = o :: l → m.fedRow r = false → m.bays.running = true → ∃ t, exec (.stripClose dt r) s = .next t ∧ t.pending =
       s.pending ∧ ∃ k, t.m.fire.closed = m.fire.closed ++ [k] ∧ k.row = r ∧ k.strip = o.strip ∧ k.closeBay = m.closingBay ∧ k.slot
       = o.slot ∧ k.firstCount = o.countFirst ∧ k.lastCount = o.countLast) ∧
  (∀ (s : State) (dt : Nat) (m : Chip) (r : Nat), Now s dt m → r < Config.rows → (m.rowPipe r).full = [] → Does (.stripClose dt r) s
       m) ∧
  (∀ (s : State) (dt : Nat) (m : Chip) (n : Nat) (g : Gang), Now s dt m → n < Config.links → m.gangOfPipe n = some g → Does
       (.syncReset dt n) s (m.syncReset g)) ∧
  (∀ (s : State) (dt : Nat) (m : Chip) (n : Nat) (g : Gang), Now s dt m → n < Config.links → m.gangOfPipe n = some g → ∃ t, exec
       (.syncReset dt n) s = .next t ∧ t.pending = s.pending ∧ (t.m.pipe g.master).resetDue = true) ∧
  (∀ (s : State) (dt : Nat) (m : Chip) (n : Nat), Now s dt m → n < Config.links → m.gangOfPipe n = none → Does (.syncReset dt n) s m) ∧
  (∀ (s : State) (dt : Nat) (m : Chip) (a : Auth) (v : Session) (n src ch : Nat) (g : Gang) (x : Chip), Now s dt m → Admitted m [3]
       false false a v → n < Config.links → m.gangOfPipe n = some g → ((m.stick.sources.any fun s => s.1 == g.master && s.2.1 == src
       && (src != 1 || s.2.2 == ch)) = true) → x = ((consumed a v m).acceptCmd a) → x.gangOfPipe n = some g → Does
       (.routeChangeWrite dt a n src ch) s ((x.onGang g fun k m => (m.put (F.LP_CTRL_src_sel k) src).put (F.LP_CTRL_replay_ch k)
       ch).showPipe g)) ∧
  (∀ (s : State) (dt : Nat) (m : Chip) (a : Auth) (v : Session) (n src ch : Nat) (g : Gang), Now s dt m → Admitted m [3] false false
       a v → n < Config.links → m.gangOfPipe n = some g → ((m.stick.sources.any fun s => s.1 == g.master && s.2.1 == src && (src !=
       1 || s.2.2 == ch)) = true) → (((consumed a v m).acceptCmd a)).gangOfPipe n = some g → Canon m → 0 < g.links → src < 4 → ∃ t,
       exec (.routeChangeWrite dt a n src ch) s = .next t ∧ t.pending = s.pending ∧ t.m.get (F.LP_CTRL_src_sel g.master) = src) ∧
  (∀ (s : State) (dt : Nat) (m : Chip) (a : Auth) (v : Session) (n : Nat) (b : Bool) (l : List Byte) (g : Gang) (x : Chip), Now s dt
       m → Admitted m [3] false false a v → n < Config.links → m.gangOfPipe n = some g → (m.pipe g.master).bankB = !b → calOk
       g.width g.planes l = true → x = ((consumed a v m).acceptCmd a) → x.gangOfPipe n = some g → Does (.calLoad dt a n b l) s
       (x.putCal g b (parseCal l))) ∧
  (∀ (s : State) (dt : Nat) (m : Chip) (a : Auth) (v : Session) (n : Nat) (b : Bool) (l : List Byte) (g : Gang), Now s dt m →
       Admitted m [3] false false a v → n < Config.links → m.gangOfPipe n = some g → (m.pipe g.master).bankB = !b → calOk g.width
       g.planes l = true → (((consumed a v m).acceptCmd a)).gangOfPipe n = some g → ∃ t, exec (.calLoad dt a n b l) s = .next t ∧
       t.pending = s.pending ∧ (if b then (t.m.pipe g.master).calB else (t.m.pipe g.master).calA) = some (parseCal l)) ∧
  (∀ (s : State) (dt : Nat) (m : Chip) (a : Auth) (v : Session) (ch cam first last calId rate k : Nat) (c : CameraRec) (g : Gang) (r
       : CalRec) (x y z w : Chip), Now s dt m → Admitted m [3] false false a v → ch < Config.replayChannels → cam < Config.links →
       (consumed a v m).replayCheck ch cam first last calId rate = some (c, g) → x = ((consumed a v m).acceptCmd a) → x.replayCheck
       ch cam first last calId rate = some (c, g) → y = (x.setPipe g.master
       { calA := (x.pipe g.master).calA, calB := (x.pipe g.master).calB, bankB := (x.pipe g.master).bankB, route := (x.pipe g.master).route, channel := (x.pipe g.master).channel, s := (x.pipe g.master).s, n := (x.pipe g.master).n, snapRec := (x.pipe g.master).snapRec }).setRowPipe
       g.row { floor := some first, held := (x.rowPipe g.row).held, nextSlot := (x.rowPipe g.row).nextSlot } → calById (x.pipe cam)
       calId = some r → z = (y.putCal g (x.pipe g.master).bankB r).stripBoundary g (first - 1) → 0 < first → z.findSnap c (first -
       1) = some k → w = z.restoreSnap g k → Does (.replayStart dt a ch cam first last calId rate) s (((((w.wr64 (R.LP_RPL_FIRST_LO
       ch) (R.LP_RPL_FIRST_HI ch) first).wr64 (R.LP_RPL_LAST_LO ch) (R.LP_RPL_LAST_HI ch) last).put (F.LP_RPL_RATE_rate ch)
       rate).put (F.LP_RPL_STAT_state ch) 1).setReplayCh ch
       { camera := cam, target := g.master, first, last, next := (first - 1) * x.rowLines g.row })) ∧
  (∀ (s : State) (dt : Nat) (m : Chip) (a : Auth) (v : Session) (ch cam first last calId rate : Nat) (c : CameraRec) (g : Gang), Now
       s dt m → Admitted m [3] false false a v → ch < Config.replayChannels → cam < Config.links → (consumed a v m).replayCheck ch
       cam first last calId rate = some (c, g) → (((consumed a v m).acceptCmd a)).replayCheck ch cam first last calId rate = some
       (c, g) → 0 < first → ∃ t, exec (.replayStart dt a ch cam first last calId rate) s = .next t ∧ t.pending = s.pending ∧
       t.m.replayCh ch =
       { camera := cam, target := g.master, first, last, next := (first - 1) * (((consumed a v m).acceptCmd a)).rowLines g.row } ∧
       t.m.rplState ch = 1) ∧
  (∀ (s : State) (dt : Nat) (m : Chip) (ch : Nat) (io : LineIo) (c : CameraRec) (g : Gang), Now s dt m → ch < Config.replayChannels
       → m.camOf (m.replayCh ch).camera = some c → m.gangOf (m.replayCh ch).target = some g → m.rplState ch = 0 → Does (.replayLine
       dt ch io) s m) ∧
  (∀ (s : State) (dt : Nat) (m : Chip) (ch : Nat) (io : LineIo) (c : CameraRec) (g : Gang), Now s dt m → ch < Config.replayChannels
       → m.camOf (m.replayCh ch).camera = some c → m.gangOf (m.replayCh ch).target = some g → (m.now < m.replayDue ch ((m.findLine c
       (m.replayCh ch).next).map fun a => m.numAt (a + 0x10) 8)) → Does (.replayLine dt ch io) s m) ∧
  (∀ (s : State) (dt : Nat) (m : Chip) (ch : Nat) (io : LineIo) (c : CameraRec) (g : Gang), Now s dt m → ch < Config.replayChannels
       → m.camOf (m.replayCh ch).camera = some c → m.gangOf (m.replayCh ch).target = some g → m.rplState ch = 3 → (m.replayCh
       ch).next % m.rowLines g.row = 0 → (m.replayDue ch ((m.findLine c (m.replayCh ch).next).map fun a => m.numAt (a + 0x10) 8) ≤
       m.now) → Does (.replayLine dt ch io) s (m.replayEnd ch false)) ∧
  (∀ (s : State) (dt : Nat) (m : Chip) (ch k : Nat) (io : LineIo) (c : CameraRec) (g : Gang) (l : InLine) (x : Chip), Now s dt m →
       ch < Config.replayChannels → m.camOf (m.replayCh ch).camera = some c → m.gangOf (m.replayCh ch).target = some g → m.rplState
       ch = 2 → m.findLine c (m.replayCh ch).next = some k → m.replayDue ch (some (m.numAt (k + 0x10) 8)) ≤ m.now → bitN (m.numAt (k
       + 0x0E) 2) 0 = false → bitN (m.numAt (k + 0x0E) 2) 1 = false → ((io.cmUe.any fun x => decide (k / 64 ≤ cmAddr x / 64) &&
       decide (cmAddr x < k + lineStride c)) = false) → (l =
       { idx := (m.replayCh ch).next, count := signedOf 48 (m.numAt (k + 8) 6), tb3 := m.numAt (k + 0x10) 8, bits := c.bits, samples := some ((upTo (m.numAt (k + 0x1C) 4 / sampleBytes c.bits)).map fun i => m.numAt (k + 64 + i * sampleBytes c.bits) (sampleBytes c.bits)), dropped := false })
       → (x = (m.linePaced g io (fun m => forAll (m.replayGangs ch) (fun t m => m.replayLineTo ch t l) m)).setReplayCh ch
       { m.replayCh ch with next := (m.replayCh ch).next + 1, lastAt := some m.now, lastTb3 := m.numAt (k + 0x10) 8 }) → (m.replayCh
       ch).next + 1 ≠ ((m.replayCh ch).last + 1) * m.rowLines g.row + leadSpan (x.calOf g) → Does (.replayLine dt ch io) s x) ∧
  (∀ (s : State) (dt : Nat) (m : Chip) (ch : Nat) (io : LineIo) (c : CameraRec) (g : Gang), Now s dt m → ch < Config.replayChannels
       → m.camOf (m.replayCh ch).camera = some c → m.gangOf (m.replayCh ch).target = some g → (m.rplState ch = 1 ∨ m.rplState ch =
       2) → (m.replayDue ch ((m.findLine c (m.replayCh ch).next).map fun a => m.numAt (a + 0x10) 8) ≤ m.now) → (m.replayCh ch).next
       + 1 < ((m.replayCh ch).last + 1) * m.rowLines g.row → ∃ t, exec (.replayLine dt ch io) s = .next t ∧ t.pending = s.pending ∧
       (t.m.replayCh ch).next = (m.replayCh ch).next + 1 ∧ (t.m.replayCh ch).lastAt = some m.now) ∧
  (∀ (s : State) (dt : Nat) (m : Chip) (ch : Nat) (io : LineIo), Now s dt m → ch < Config.replayChannels → m.camOf (m.replayCh
       ch).camera = none → Does (.replayLine dt ch io) s m) ∧
  (∀ (s : State) (dt : Nat) (m : Chip) (ch : Nat), Now s dt m → ch < Config.replayChannels → m.rplState ch ≠ 0 → Does (.replayStop
       dt ch) s (m.put (F.LP_RPL_STAT_state ch) 3)) ∧
  (∀ (s : State) (dt : Nat) (m : Chip) (ch : Nat), Now s dt m → ch < Config.replayChannels → m.rplState ch ≠ 0 → ∃ t, exec
       (.replayStop dt ch) s = .next t ∧ t.pending = s.pending ∧ t.m.rplState ch = 3) ∧
  (∀ (s : State) (dt : Nat) (m : Chip) (ch : Nat), Now s dt m → ch < Config.replayChannels → m.rplState ch = 0 → Does (.replayStop
       dt ch) s m)

/-- A bent command of the cut list that starts, its descriptor being of its operation, takes the errors its reads meet, shows
itself in BENT_CUR, counts its stalls, and runs the work that its descriptor and the memory as it stands give: the reduction,
the sum of partials, the vector function, the convolution, pooling or upsampling. Without a background segment in progress,
memory errors or stalls the bent runs that work from the present instant and nothing of it stands in memory before it completes.
A MATMUL of integer formats that writes partials will write the sums of products, 64 bits each, and a COMBINE of two integer
partials their sums. (R32, R155, R156, R160, R166, R168, R171, R185, R186, R188, R189, R190) -/
def Obligations.BentCommandsStart : Prop :=
  (∀ (s : State) (dt : Nat) (m : Chip) (n : Nat) (c : CutEntry) (pl : CmdPlan), Now s dt m → n < Config.bents → m.descNum c.descPtr
       1 = 1 → Starts m (.bent n) c → Does (.matmul dt n c pl) s (started m (.bent n) c (bentWork n c pl.errs pl.stall (fun x =>
       x.matmulReads n c pl) fun x => x.matmulWork n c pl))) ∧
  (∀ (s : State) (dt : Nat) (m : Chip) (n : Nat) (c : CutEntry) (pl : CmdPlan), Now s dt m → n < Config.bents → m.descNum c.descPtr
       1 = 1 → Starts m (.bent n) c → Undisturbed m (.bent n) → pl.errs = {} → pl.stall = 0 → ∃ t, exec (.matmul dt n c pl) s =
       .next t ∧ t.pending = s.pending ∧ Begun m t.m (.bent n) c (m.matmulWork n c pl)) ∧
  (∀ (s : State) (dt : Nat) (m : Chip) (n : Nat) (c : CutEntry) (pl : CmdPlan) (d : BentDesc) (a b : Nat → Nat → Int), Now s dt m →
       n < Config.bents → m.descNum c.descPtr 1 = 1 → Starts m (.bent n) c → Undisturbed m (.bent n) → pl.errs = {} → pl.stall = 0 →
       d = m.bentDesc c.descPtr → familyOf d.fmtA = .int → d.outPartial = true → d.accIn = false → d.bias = false → (∀ i k, k < d.k
       → m.elemAt {} (bentAddr n (d.addrA + i * d.pitchA * 16)) d.fmtA k = .num (qOfInt (a i k))) → (∀ k j, k < d.k → m.elemAt {}
       (operandB n d) d.fmtB (k * d.cols + j) = .num (qOfInt (b k j))) → ∃ (t : State) (r : Running), exec (.matmul dt n c pl) s =
       .next t ∧ t.pending = s.pending ∧ Begun m t.m (.bent n) c r ∧ r.writes = (upTo d.rows).map fun i => (bentAddr n (d.addrC + i
       * d.pitchC * 16), (upTo d.cols).flatMap fun j => leBytes 8 (unsignedOf 64 (((upTo d.k).map fun k => a i k * b k j).sum)))) ∧
  (∀ (s : State) (dt : Nat) (m : Chip) (n : Nat) (c : CutEntry) (pl : CmdPlan), Now s dt m → n < Config.bents → m.descNum c.descPtr
       1 = 2 → Starts m (.bent n) c → Does (.combine dt n c pl) s (started m (.bent n) c (bentWork n c pl.errs pl.stall (fun x =>
       x.combineReads n c) fun x => x.combineWork n c pl))) ∧
  (∀ (s : State) (dt : Nat) (m : Chip) (n : Nat) (c : CutEntry) (pl : CmdPlan), Now s dt m → n < Config.bents → m.descNum c.descPtr
       1 = 2 → Starts m (.bent n) c → Undisturbed m (.bent n) → pl.errs = {} → pl.stall = 0 → ∃ t, exec (.combine dt n c pl) s =
       .next t ∧ t.pending = s.pending ∧ Begun m t.m (.bent n) c (m.combineWork n c pl)) ∧
  (∀ (s : State) (dt : Nat) (m : Chip) (n : Nat) (c : CutEntry) (pl : CmdPlan) (d : BentDesc), Now s dt m → n < Config.bents →
       m.descNum c.descPtr 1 = 2 → Starts m (.bent n) c → Undisturbed m (.bent n) → pl.errs = {} → pl.stall = 0 → d = m.bentDesc
       c.descPtr → d.fmtA = 0x20 → d.outPartial = true → d.accIn = false → d.bias = false → ∃ (t : State) (r : Running), exec
       (.combine dt n c pl) s = .next t ∧ t.pending = s.pending ∧ Begun m t.m (.bent n) c r ∧ r.writes = (upTo d.rows).map fun i =>
       (bentAddr n (d.addrC + i * d.pitchC * 16), (upTo d.cols).flatMap fun j => leBytes 8 (unsignedOf 64 (signedOf 64 (m.elemBits
       {} (bentAddr n d.addrA + i * d.pitchA * 16) 64 j) + signedOf 64 (m.elemBits {} (operandB n d + i * d.pitchA * 16) 64 j))))) ∧
  (∀ (s : State) (dt : Nat) (m : Chip) (n : Nat) (c : CutEntry) (pl : CmdPlan) (v : VecPlan), Now s dt m → n < Config.bents →
       m.descNum c.descPtr 1 = 3 → Starts m (.bent n) c → Does (.vector dt n c v pl) s (started m (.bent n) c (bentWork n c pl.errs
       0 (fun x => x.vectorReads n c v pl) fun x => x.vectorWork n c v pl))) ∧
  (∀ (s : State) (dt : Nat) (m : Chip) (n : Nat) (c : CutEntry) (pl : CmdPlan) (v : VecPlan), Now s dt m → n < Config.bents →
       m.descNum c.descPtr 1 = 3 → Starts m (.bent n) c → Undisturbed m (.bent n) → pl.errs = {} → ∃ t, exec (.vector dt n c v pl) s
       = .next t ∧ t.pending = s.pending ∧ Begun m t.m (.bent n) c (m.vectorWork n c v pl)) ∧
  (∀ (s : State) (dt : Nat) (m : Chip) (n : Nat) (c : CutEntry) (pl : CmdPlan), Now s dt m → n < Config.bents → m.descNum c.descPtr
       1 = 5 → Starts m (.bent n) c → (m.winDesc c.descPtr).sub = 0 → Does (.windowConv dt n c pl) s (started m (.bent n) c
       (bentWork n c pl.errs pl.stall (fun x => x.windowReads n c pl) fun x => x.convWork n c pl))) ∧
  (∀ (s : State) (dt : Nat) (m : Chip) (n : Nat) (c : CutEntry) (pl : CmdPlan), Now s dt m → n < Config.bents → m.descNum c.descPtr
       1 = 5 → Starts m (.bent n) c → (m.winDesc c.descPtr).sub = 0 → Undisturbed m (.bent n) → pl.errs = {} → pl.stall = 0 → ∃ t,
       exec (.windowConv dt n c pl) s = .next t ∧ t.pending = s.pending ∧ Begun m t.m (.bent n) c (m.convWork n c pl)) ∧
  (∀ (s : State) (dt : Nat) (m : Chip) (n : Nat) (c : CutEntry) (pl : CmdPlan), Now s dt m → n < Config.bents → m.descNum c.descPtr
       1 = 5 → Starts m (.bent n) c → (m.winDesc c.descPtr).sub = 1 → Does (.windowMaxpool dt n c pl) s (started m (.bent n) c
       (bentWork n c pl.errs pl.stall (fun x => x.windowReads n c pl) fun x => x.poolWork n c pl false))) ∧
  (∀ (s : State) (dt : Nat) (m : Chip) (n : Nat) (c : CutEntry) (pl : CmdPlan), Now s dt m → n < Config.bents → m.descNum c.descPtr
       1 = 5 → Starts m (.bent n) c → (m.winDesc c.descPtr).sub = 1 → Undisturbed m (.bent n) → pl.errs = {} → pl.stall = 0 → ∃ t,
       exec (.windowMaxpool dt n c pl) s = .next t ∧ t.pending = s.pending ∧ Begun m t.m (.bent n) c (m.poolWork n c pl false)) ∧
  (∀ (s : State) (dt : Nat) (m : Chip) (n : Nat) (c : CutEntry) (pl : CmdPlan), Now s dt m → n < Config.bents → m.descNum c.descPtr
       1 = 5 → Starts m (.bent n) c → (m.winDesc c.descPtr).sub = 2 → Does (.windowAvgpool dt n c pl) s (started m (.bent n) c
       (bentWork n c pl.errs pl.stall (fun x => x.windowReads n c pl) fun x => x.poolWork n c pl true))) ∧
  (∀ (s : State) (dt : Nat) (m : Chip) (n : Nat) (c : CutEntry) (pl : CmdPlan), Now s dt m → n < Config.bents → m.descNum c.descPtr
       1 = 5 → Starts m (.bent n) c → (m.winDesc c.descPtr).sub = 2 → Undisturbed m (.bent n) → pl.errs = {} → pl.stall = 0 → ∃ t,
       exec (.windowAvgpool dt n c pl) s = .next t ∧ t.pending = s.pending ∧ Begun m t.m (.bent n) c (m.poolWork n c pl true)) ∧
  (∀ (s : State) (dt : Nat) (m : Chip) (n : Nat) (c : CutEntry) (pl : CmdPlan), Now s dt m → n < Config.bents → m.descNum c.descPtr
       1 = 5 → Starts m (.bent n) c → (m.winDesc c.descPtr).sub = 3 → Does (.windowUpsample dt n c pl) s (started m (.bent n) c
       (bentWork n c pl.errs pl.stall (fun x => x.windowReads n c pl) fun x => x.upsampleWork n c pl))) ∧
  (∀ (s : State) (dt : Nat) (m : Chip) (n : Nat) (c : CutEntry) (pl : CmdPlan), Now s dt m → n < Config.bents → m.descNum c.descPtr
       1 = 5 → Starts m (.bent n) c → (m.winDesc c.descPtr).sub = 3 → Undisturbed m (.bent n) → pl.errs = {} → pl.stall = 0 → ∃ t,
       exec (.windowUpsample dt n c pl) s = .next t ∧ t.pending = s.pending ∧ Begun m t.m (.bent n) c (m.upsampleWork n c pl))

/-- A copy that starts reads its rows as they stand and will write them, row by row at the pitches of its descriptor, to its
target or to every bent of its mask; a clear will clear the valid bits of its ranges. The capture-memory DMA copies likewise. A
command of a Tenon or Purlin queue that starts runs from the present instant and sends its rows at once, the signal with the
last, or for destination space 5 the signal alone; the Ridge-to-Sill command of destination space 4 sends the verdict records, a
crop command its windows. (R14, R31, R206, R247, R250, R251, R282, R291, R314, R324) -/
def Obligations.TransfersStart : Prop :=
  (∀ (s : State) (dt : Nat) (m : Chip) (n : Nat) (c : CutEntry) (er : ReadErrs), Now s dt m → n < Config.bents → m.descNum c.descPtr
       1 = 4 → (m.dmaDesc c.descPtr).kind = 0 → Starts m (.bent n) c → Does (.dmaCopy dt n c er) s (started m (.bent n) c (bentWork
       n c er 0 (fun x => DmaDesc.reads n (x.dmaDesc c.descPtr)) fun x => x.copyWork n c er))) ∧
  (∀ (s : State) (dt : Nat) (m : Chip) (n : Nat) (c : CutEntry) (d : DmaDesc), Now s dt m → n < Config.bents → m.descNum c.descPtr 1
       = 4 → (m.dmaDesc c.descPtr).kind = 0 → Starts m (.bent n) c → Undisturbed m (.bent n) → d = m.dmaDesc c.descPtr → ∃ (t :
       State) (r : Running), exec (.dmaCopy dt n c {}) s = .next t ∧ t.pending = s.pending ∧ Begun m t.m (.bent n) c r ∧ r.writes =
       (upTo d.rows).flatMap fun i => (DmaDesc.targets n d).map fun f => (f (d.dstAddr + i * d.dstPitch), m.bytesAt (spaceAddr n d
       d.src (d.srcAddr + i * d.srcPitch)) d.rowBytes)) ∧
  (∀ (s : State) (dt : Nat) (m : Chip) (n : Nat) (c : CutEntry), Now s dt m → n < Config.bents → m.descNum c.descPtr 1 = 4 →
       (m.dmaDesc c.descPtr).kind = 1 → Starts m (.bent n) c → Does (.dmaClear dt n c) s (started m (.bent n) c (bentWork n c {} 0
       (fun _ => []) fun x => x.clearWork n c))) ∧
  (∀ (s : State) (dt : Nat) (m : Chip) (n : Nat) (c : CutEntry) (d : DmaDesc), Now s dt m → n < Config.bents → m.descNum c.descPtr 1
       = 4 → (m.dmaDesc c.descPtr).kind = 1 → Starts m (.bent n) c → Undisturbed m (.bent n) → d = m.dmaDesc c.descPtr → ∃ (t :
       State) (r : Running), exec (.dmaClear dt n c) s = .next t ∧ t.pending = s.pending ∧ Begun m t.m (.bent n) c r ∧ r.writes = []
       ∧ r.clears = (upTo d.rows).flatMap fun i => (DmaDesc.targets n d).map fun f => (f (d.dstAddr + i * d.dstPitch), d.rowBytes)) ∧
  (∀ (s : State) (dt : Nat) (m : Chip) (c : CutEntry) (er : ReadErrs), Now s dt m → (m.dmaDesc c.descPtr).op = 4 → Starts m .cmDma c
       → Does (.cmDma dt c er) s (started m .cmDma c (cmDmaWork c er))) ∧
  (∀ (s : State) (dt : Nat) (m : Chip) (c : CutEntry) (d : DmaDesc), Now s dt m → d = m.dmaDesc c.descPtr → d.op = 4 → d.kind = 0 →
       Starts m .cmDma c → Undisturbed m .cmDma → ∃ (t : State) (r : Running), exec (.cmDma dt c {}) s = .next t ∧ t.pending =
       s.pending ∧ Begun m t.m .cmDma c r ∧ r.writes = (upTo d.rows).flatMap fun i => (DmaDesc.targets d.peer d).map fun f => (f
       (d.dstAddr + i * d.dstPitch), m.bytesAt (spaceAddr d.peer d d.src (d.srcAddr + i * d.srcPitch)) d.rowBytes)) ∧
  (∀ (s : State) (dt : Nat) (m : Chip) (c : CutEntry) (er : ReadErrs) (x : Chip), Now s dt m → x = (m.tnFill 0).tnFill 1 →
       (x.dmaDesc c.descPtr).op = 4 → (x.dmaDesc c.descPtr).kind = 0 → Starts x .tenonS2R c → Does (.tenonDma dt 0 c er none) s
       (started x .tenonS2R c (tenonWork 0 c er none))) ∧
  (∀ (s : State) (dt : Nat) (m : Chip) (c : CutEntry) (er : ReadErrs) (x : Chip), Now s dt m → x = (m.tnFill 0).tnFill 1 →
       (x.dmaDesc c.descPtr).op = 4 → (x.dmaDesc c.descPtr).kind = 0 → Starts x .tenonR2S c → Does (.tenonDma dt 1 c er none) s
       (started x .tenonR2S c (tenonWork 1 c er none))) ∧
  (∀ (s : State) (dt : Nat) (m : Chip) (c : CutEntry) (er : ReadErrs) (x : Chip) (r strip : Nat), Now s dt m → x = (m.tnFill
       0).tnFill 1 → (x.dmaDesc c.descPtr).op = 4 → (x.dmaDesc c.descPtr).kind = 0 → Starts x .tenonS2R c → Does (.tenonDma dt 0 c
       er (some (r, strip))) s (started x .tenonS2R c (tenonWork 0 c er (some (r, strip))))) ∧
  (∀ (s : State) (dt : Nat) (m : Chip) (c : CutEntry) (x : Chip), Now s dt m → x = (m.tnFill 0).tnFill 1 → (x.dmaDesc c.descPtr).op
       = 4 → (x.dmaDesc c.descPtr).kind = 0 → Starts x .tenonS2R c → Undisturbed x .tenonS2R → ∃ t, exec (.tenonDma dt 0 c {} none)
       s = .next t ∧ t.pending = s.pending ∧ (t.m.eng .tenonS2R).running = some
       { blankRunning with op := "TENON_DMA", entry := c, closeBay := x.closeOf .tenonS2R c, startedAt := x.now } ∧ t.m.tenon =
       (x.tnRows 0 c {} (x.dmaDesc c.descPtr)).tenon) ∧
  (∀ (s : State) (dt : Nat) (m : Chip) (c : CutEntry) (x : Chip), Now s dt m → x = (m.tnFill 0).tnFill 1 → (x.dmaDesc c.descPtr).op
       = 4 → (x.dmaDesc c.descPtr).kind = 0 → (x.dmaDesc c.descPtr).dst = 4 → Starts x .tenonR2S c → Undisturbed x .tenonR2S → ∃ t,
       exec (.tenonDma dt 1 c {} none) s = .next t ∧ t.pending = s.pending ∧ (t.m.eng .tenonR2S).running = some
       { blankRunning with op := "TENON_DMA", entry := c, closeBay := x.closeOf .tenonR2S c, startedAt := x.now } ∧ t.m.tenon =
       (x.tnVerdicts c (x.dmaDesc c.descPtr)).tenon) ∧
  (∀ (s : State) (dt : Nat) (m : Chip) (p dev : Nat) (c : CutEntry) (er : ReadErrs), Now s dt m → p < Config.purlinPorts → dev <
       4096 → (m.dmaDesc c.descPtr).op = 4 → (m.dmaDesc c.descPtr).kind = 0 → Starts m (.purlinDma p) c → Does (.purlinDma dt p dev
       c er) s (started m (.purlinDma p) c (purlinWork p dev c er))) ∧
  (∀ (s : State) (dt : Nat) (m : Chip) (p dev : Nat) (c : CutEntry), Now s dt m → p < Config.purlinPorts → dev < 4096 → (m.dmaDesc
       c.descPtr).op = 4 → (m.dmaDesc c.descPtr).kind = 0 → (m.dmaDesc c.descPtr).dst = 5 → Starts m (.purlinDma p) c → Undisturbed
       m (.purlinDma p) → ∃ t, exec (.purlinDma dt p dev c {}) s = .next t ∧ t.pending = s.pending ∧ (t.m.eng (.purlinDma
       p)).running = some
       { blankRunning with op := "PURLIN_DMA", entry := c, closeBay := m.closeOf (.purlinDma p) c, startedAt := m.now } ∧ t.m.purlin
       = (m.dataSend dev (m.closeOf (.purlinDma p) c) 5 0 0 (c.signal.getD 0x3FF) []).purlin)

/-- The spectral engine, the post-processor, the attention unit and a stud start a command of their list whose descriptor is of
the operation, with what it reads: the post-processor for a strip closed in the close bay it works for, whose groups, one for
each stream of the row, then wait to be sealed; a stud's score cells join the strip's. A strip's screening output is released
when it is in time (its records, its ROI list), and late output is discarded with screen_missing and the fallback. In the end
guard of a bay each pair of close bay (bay + 1 − D) that is complete or invalid is sealed, once: its groups are queued in
ascending stream order, those of an invalid pair as its notices. (R131, R133, R135, R138, R193, R199, R204, R206, R208, R227,
R231, R436) -/
def Obligations.EnginesOfOneUnitStart : Prop :=
  (∀ (s : State) (dt : Nat) (m : Chip) (c : CutEntry) (pl : CmdPlan), Now s dt m → (m.specDesc c.descPtr).op = 1 → Starts m
       .spectral c → Does (.spectralConv2d dt c pl) s (started m .spectral c (spectralWork c pl))) ∧
  (∀ (s : State) (dt : Nat) (m : Chip) (c : CutEntry) (pl : CmdPlan), Now s dt m → (m.specDesc c.descPtr).op = 1 → Starts m
       .spectral c → Undisturbed m .spectral → pl.errs = {} → ∃ t, exec (.spectralConv2d dt c pl) s = .next t ∧ t.pending =
       s.pending ∧ Begun m t.m .spectral c (m.specWork c pl)) ∧
  (∀ (s : State) (dt : Nat) (m : Chip) (c : CutEntry) (strip : Nat) (er : ReadErrs) (k : ClosedStrip), Now s dt m → (m.detDesc
       c.descPtr).op = 1 → ((m.fire.closed.find? fun x => x.row == (m.detDesc c.descPtr).row && x.strip == strip && x.closeBay ==
       m.closeOf .postproc c) = some k) → Starts m .postproc c → Does (.detect dt c strip er) s (started m .postproc c (detectWork c
       k er))) ∧
  (∀ (s : State) (dt : Nat) (m : Chip) (c : CutEntry) (strip : Nat) (k : ClosedStrip) (d : DetDesc), Now s dt m → d = m.detDesc
       c.descPtr → d.op = 1 → ((m.fire.closed.find? fun x => x.row == d.row && x.strip == strip && x.closeBay == m.closeOf .postproc
       c) = some k) → Starts m .postproc c → Undisturbed m .postproc → m.carryStands c.job d.row k.strip = true → ∃ (t : State) (gs
       : List VerdictGroup), exec (.detect dt c strip {}) s = .next t ∧ t.pending = s.pending ∧ (t.m.eng .postproc).running = some
       { blankRunning with op := "DETECT", row := d.row, item := k.strip, entry := c, closeBay := m.closeOf .postproc c, startedAt := m.now }
       ∧ t.m.mem = m.mem ∧ t.m.pp.pending = m.pp.pending ++ gs ∧ gs.map (·.stream) = m.rowStreams d.row ∧ ∀ g ∈ gs, g.job = c.job ∧
       g.strip = k.strip ∧ g.row = d.row ∧ g.closeBay = k.closeBay ∧ g.kind = 0) ∧
  (∀ (s : State) (dt : Nat) (m : Chip) (c : CutEntry) (pl : CmdPlan), Now s dt m → (m.attDesc c.descPtr).op = 1 → Starts m
       .attention c → Does (.attend dt c pl) s (started m .attention c (attendWork c pl))) ∧
  (∀ (s : State) (dt : Nat) (m : Chip) (c : CutEntry) (pl : CmdPlan), Now s dt m → (m.attDesc c.descPtr).op = 1 → Starts m
       .attention c → Undisturbed m .attention → pl.errs = {} → ∃ (t : State) (r : Running), exec (.attend dt c pl) s = .next t ∧
       t.pending = s.pending ∧ Begun m t.m .attention c r ∧ r.op = "ATTEND" ∧ r.layer = some (m.attDesc c.descPtr).layer) ∧
  (∀ (s : State) (dt : Nat) (m : Chip) (c : CutEntry) (er : ReadErrs), Now s dt m → (m.attDesc c.descPtr).op = 2 → Starts m
       .attention c → Does (.append dt c er) s (started m .attention c (appendWork c er))) ∧
  (∀ (s : State) (dt : Nat) (m : Chip) (c : CutEntry) (er : ReadErrs), Now s dt m → (m.attDesc c.descPtr).op = 2 → Starts m
       .attention c → ∃ (t : State) (r : Running), exec (.append dt c er) s = .next t ∧ t.pending = s.pending ∧ (t.m.eng
       .attention).running = some { r with entry := c, closeBay := m.closeOf .attention c, startedAt := m.now } ∧ r.op = "APPEND" ∧
       r.layer = none) ∧
  (∀ (s : State) (dt : Nat) (m : Chip) (n row strip : Nat) (c : CutEntry) (cells : List ScoreCell) (layer : Option Nat) (er :
       ReadErrs), Now s dt m → n < Config.studs → row < Config.rows → m.studRow c.descPtr = some row → Starts m (.stud n) c → Does
       (.screen dt n c row strip cells layer er) s (started m (.stud n) c (screenWork n c row strip cells layer er))) ∧
  (∀ (s : State) (dt : Nat) (m : Chip) (n row strip : Nat) (c : CutEntry) (cells old : List ScoreCell) (layer : Option Nat), Now s
       dt m → n < Config.studs → row < Config.rows → m.studRow c.descPtr = some row → Starts m (.stud n) c → Undisturbed m (.stud n)
       → m.screenable row strip (m.closeOf (.stud n) c) = true → (m.scr row).cells.find? (fun q => q.1 == strip) = some (strip, old)
       ∨ ((m.scr row).cells.find? (fun q => q.1 == strip) = none ∧ old = []) → ∃ (t : State) (r : Running), exec (.screen dt n c row
       strip cells layer {}) s = .next t ∧ t.pending = s.pending ∧ Begun m t.m (.stud n) c r ∧ r.op = "SCREEN" ∧ r.item = strip ∧
       r.elements = 2 * cells.length ∧ (strip, old ++ cells) ∈ (t.m.scr row).cells) ∧
  (∀ (s : State) (dt : Nat) (m : Chip) (r strip : Nat) (crop : CutEntry) (k : ClosedStrip) (q : Nat × List ScoreCell), Now s dt m →
       r < Config.rows → ((m.fire.closed.find? fun x => x.row == r && x.strip == strip && x.slot.isSome && !x.beyond) = some k) →
       (((m.scr r).cells.find? fun q => q.1 == strip) = some q) → m.screening r strip = false → m.pairInvalid (m.get F.STUD_CFG_job)
       k.closeBay = false → m.outOf r strip = none → m.screenInTime k crop = true → Does (.screeningOutputRelease dt r strip crop) s
       (m.releaseScreen k q.2)) ∧
  (∀ (s : State) (dt : Nat) (m : Chip) (r strip : Nat) (crop : CutEntry) (k : ClosedStrip) (q : Nat × List ScoreCell), Now s dt m →
       r < Config.rows → ((m.fire.closed.find? fun x => x.row == r && x.strip == strip && x.slot.isSome && !x.beyond) = some k) →
       (((m.scr r).cells.find? fun q => q.1 == strip) = some q) → m.screening r strip = false → m.pairInvalid (m.get F.STUD_CFG_job)
       k.closeBay = false → m.outOf r strip = none → m.screenInTime k crop = true → m.fire.pilotOn.testBit r = false → (m.screenOut
       k q.2).comps ≤ 512 → ∃ (t : State) (recs : List ProvRec) (wins : List RoiWin), exec (.screeningOutputRelease dt r strip crop)
       s = .next t ∧ t.pending = s.pending ∧ (t.m.scr r).outs = (m.scr r).outs ++
       [{ strip, closeBay := k.closeBay, fell := false, wins }] ∧ wins.length ≤ m.get (F.SCR_ROW_THR_roi_max r) ∧ t.m.fire.screened
       = m.fire.screened ++ recs.map (fun p => (k.closeBay, p)) ∧ ∀ p ∈ recs, p.strip = strip ∧ p.row = r) ∧
  (∀ (s : State) (dt : Nat) (m : Chip) (r strip : Nat) (crop : CutEntry) (k : ClosedStrip) (q : Nat × List ScoreCell), Now s dt m →
       r < Config.rows → ((m.fire.closed.find? fun x => x.row == r && x.strip == strip && x.slot.isSome && !x.beyond) = some k) →
       (((m.scr r).cells.find? fun q => q.1 == strip) = some q) → m.screening r strip = false → m.pairInvalid (m.get F.STUD_CFG_job)
       k.closeBay = false → m.outOf r strip = none → m.screenInTime k crop = false → ∃ (t : State) (wins : List RoiWin), exec
       (.screeningOutputRelease dt r strip crop) s = .next t ∧ t.pending = s.pending ∧ (t.m.scr r).outs.getLast? = some
       { strip, closeBay := k.closeBay, fell := true, wins } ∧ (t.m.scr r).carry = [] ∧ t.m.regs = (m.setFlag
       (F.SCR_ROW_STAT_screen_missing r)).regs) ∧
  (∀ (s : State) (dt : Nat) (m : Chip) (k j : Nat), Now s dt m → m.bays.running = true → m.pp.sealedFor ≠ some m.bay → k + m.depth =
       m.bay + 1 → m.planned - 5000 ≤ m.coreCycle → ((m.stick.jobs.filter fun j => j.cls == 1 && !j.screening && m.processes j.job
       k).map (·.job) = [j]) → m.pairInvalid j k = false → m.pairOpen j k = false → ∃ t, exec (.endGuardSeal dt) s = .next t ∧
       t.pending = s.pending ∧ t.m.pp.queue = m.pp.queue ++ sortBy (fun a b => decide (a.stream ≤ b.stream)) (m.pp.pending.filter
       fun g => g.job == j && g.closeBay == k) ∧ t.m.pp.pending = m.pp.pending.filter (fun g => !(g.job == j && g.closeBay == k)) ∧
       t.m.pp.sealedFor = some m.bay) ∧
  (∀ (s : State) (dt : Nat) (m : Chip) (k j : Nat), Now s dt m → m.bays.running = true → m.pp.sealedFor ≠ some m.bay → k + m.depth =
       m.bay + 1 → m.planned - 5000 ≤ m.coreCycle → ((m.stick.jobs.filter fun j => j.cls == 1 && !j.screening && m.processes j.job
       k).map (·.job) = [j]) → m.pairInvalid j k = true → ∃ t, exec (.endGuardSeal dt) s = .next t ∧ t.pending = s.pending ∧
       t.m.pp.queue = m.pp.queue ++ m.noticesOf j k ∧ t.m.pp.pending = m.pp.pending.filter (fun g => !(g.job == j && g.closeBay ==
       k)) ∧ t.m.pp.sealedFor = some m.bay) ∧
  (∀ (s : State) (dt : Nat) (m : Chip) (k : Nat) (l : List Nat), Now s dt m → m.bays.running = true → m.pp.sealedFor ≠ some m.bay →
       k + m.depth = m.bay + 1 → m.planned - 5000 ≤ m.coreCycle → (l = (m.stick.jobs.filter fun j => j.cls == 1 && !j.screening &&
       m.processes j.job k).map (·.job)) → Does (.endGuardSeal dt) s ((forAll (l.filter fun j => m.pairInvalid j k || !m.pairOpen j
       k) (fun j m => m.sealPair k j) m).onPp fun p => { p with sealedFor := some m.bay })) ∧
  (∀ (s : State) (dt : Nat) (m : Chip), Now s dt m → (m.bays.running = false ∨ m.pp.sealedFor = some m.bay ∨ m.coreCycle < m.planned
       - 5000) → Does (.endGuardSeal dt) s m)

/-- A foreground command that completes before the end of its bay: its clears and writes stand in memory, its sum goes to the
witness unit, its semaphore is signalled in the half of its destination (a transfer's signal travels instead), the engine moves
to its next entry, time left before its planned end is released, the margin is noted for the last command of a bay, and the
engine's counters take it. A background segment that completes advances its job. Without a command in progress, at or after the
end of the bay, or while a transfer's flits are outstanding, nothing completes. A lap of a scrubber that is enabled is counted
and its length kept, with the worst; a lap over the limit is flagged scrub_slow and raised. (R31, R57, R155, R248, R267, R435)
-/
def Obligations.CommandsComplete : Prop :=
  (∀ (s : State) (dt : Nat) (m : Chip) (e : Engine) (r : Running) (x y : Chip), Now s dt m → engExists e = true → m.tnOutstanding e
       = false → m.tb3 < (m.bay + 1) * m.period → (m.eng e).running = some r → signalsHere e = true → x = ((m.commitWrites
       r).passMark r).signalOpt (m.signalHalf e r.entry) r.entry.signal → y = x.setEng e
       { m.eng e with running := none, pos := (m.eng e).pos + 1, busy := (m.eng e).busy + (m.now - r.startedAt), lastEnd := some m.coreCycle, released := decide (m.coreCycle < r.entry.plannedEnd) }
       → Does (.commandComplete dt e false) s (((if r.entry.lastInBay then y.noteMargin m.coreCycle else y).countDone e r).showEng
       e)) ∧
  (∀ (s : State) (dt : Nat) (m : Chip) (e : Engine) (r : Running), Now s dt m → engExists e = true → m.tnOutstanding e = false →
       m.tb3 < (m.bay + 1) * m.period → (m.eng e).running = some r → signalsHere e = true → ∃ t, exec (.commandComplete dt e false)
       s = .next t ∧ t.pending = s.pending ∧ t.m.eng e =
       { m.eng e with running := none, pos := (m.eng e).pos + 1, busy := (m.eng e).busy + (m.now - r.startedAt), lastEnd := some m.coreCycle, released := decide (m.coreCycle < r.entry.plannedEnd) }
       ∧ t.m.mem = (m.commitWrites r).mem) ∧
  (∀ (s : State) (dt : Nat) (m : Chip) (e : Engine) (r : Running) (x y : Chip), Now s dt m → engExists e = true → m.tnOutstanding e
       = false → m.tb3 < (m.bay + 1) * m.period → (m.eng e).running = some r → signalsHere e = false → x = (m.commitWrites
       r).passMark r → y = x.setEng e
       { m.eng e with running := none, pos := (m.eng e).pos + 1, busy := (m.eng e).busy + (m.now - r.startedAt), lastEnd := some m.coreCycle, released := decide (m.coreCycle < r.entry.plannedEnd) }
       → Does (.commandComplete dt e false) s (((if r.entry.lastInBay then y.noteMargin m.coreCycle else y).countDone e r).showEng
       e)) ∧
  (∀ (s : State) (dt : Nat) (m : Chip) (e : Engine) (r : Running), Now s dt m → engExists e = true → m.tnOutstanding e = false →
       m.tb3 < (m.bay + 1) * m.period → (m.eng e).running = some r → signalsHere e = false → ∃ t, exec (.commandComplete dt e false)
       s = .next t ∧ t.pending = s.pending ∧ t.m.eng e =
       { m.eng e with running := none, pos := (m.eng e).pos + 1, busy := (m.eng e).busy + (m.now - r.startedAt), lastEnd := some m.coreCycle, released := decide (m.coreCycle < r.entry.plannedEnd) }
       ∧ t.m.mem = (m.commitWrites r).mem) ∧
  (∀ (s : State) (dt : Nat) (m : Chip) (e : Engine) (r : Running) (x : Chip), Now s dt m → engExists e = true → m.tnOutstanding e =
       false → m.tb3 < (m.bay + 1) * m.period → (m.eng e).bg = some r → signalsHere e = true → x = ((m.commitWrites r).passMark
       r).signalOpt (m.signalHalf e r.entry) r.entry.signal → Does (.commandComplete dt e true) s (((x.bgAdvance e r.entry.job
       ((m.eng e).busy + (m.now - r.startedAt))).countDone e r).showEng e)) ∧
  (∀ (s : State) (dt : Nat) (m : Chip) (e : Engine), Now s dt m → engExists e = true → (m.tnOutstanding e = true ∨ (m.bay + 1) *
       m.period ≤ m.tb3 ∨ (m.eng e).running = none) → Does (.commandComplete dt e false) s m) ∧
  (∀ (s : State) (dt : Nat) (m : Chip) (n us : Nat) (er all : ReadErrs) (x y : Chip), Now s dt m → n < Config.bents → m.flag
       (F.BENT_SRAM_CFG_scrub_en n) = true → us = min 0xFFFFFFFF ((m.now - (m.eng (.bent n)).lapFrom) / 1000) → all = m.allErrs
       [(bentAddr n 0, Config.bentSram)] er → (x = ((((m.sramCorrected true (all.sramCe.filter fun g => bentOf g == n)).sramLost
       true (all.sramUe.filter fun g => bentOf g == n)).sramParity true (all.sramPe.filter fun g => bentOf g == n)).setEng (.bent n)
       { m.eng (.bent n) with lapFrom := m.now }).bump (R.BENT_CNT_LAPS n)) → y = (x.wr (R.BENT_SCRUB_LAP n) (BitVec.ofNat 32
       us)).wr (R.BENT_SCRUB_WORST n) (BitVec.ofNat 32 (max us (x.rd (R.BENT_SCRUB_WORST n)).toNat)) → Does (.scrubLap dt n er) s
       (if m.get (F.BENT_SRAM_CFG_scrub_limit n) * 1000000 < m.now - (m.eng (.bent n)).lapFrom then (y.setFlag
       (F.BENT_SRAM_STAT_scrub_slow n)).raise SrcName.bentSramScrub else y)) ∧
  (∀ (s : State) (dt : Nat) (m : Chip) (n : Nat) (er : ReadErrs), Now s dt m → n < Config.bents → m.flag (F.BENT_SRAM_CFG_scrub_en
       n) = true → 0 < m.now → ∃ t, exec (.scrubLap dt n er) s = .next t ∧ t.pending = s.pending ∧ (t.m.eng (.bent n)).lapFrom =
       m.now) ∧
  (∀ (s : State) (dt : Nat) (m : Chip) (n : Nat) (er : ReadErrs), Now s dt m → n < Config.bents → m.flag (F.BENT_SRAM_CFG_scrub_en
       n) = false → Does (.scrubLap dt n er) s m)

/-- A disable of a job whose outputs an enabled job consumes is refused as a whole; any other write stands in the register, is
pending while it changes what acts, and reaches the next boundary where 20 µs remain, the one after otherwise. A gate entry of
the bay's list that is due switches a bent off outside background windows, and a wake entry switches it on; a window entry opens
background time to its planned end. The next segment of the job whose turn it is starts when it and the job's save fit in the
time; otherwise the job is saved at its marked point and the engine yields. A segment that outlives its time is rolled back and
counted; within it nothing happens. (R35, R37, R44, R45, R46, R48, R52, R57, R59) -/
def Obligations.JobsPowerAndBackground : Prop :=
  (∀ (s : State) (dt : Nat) (m : Chip) (j v : Nat), Now s dt m → j < Config.jobs → m.flag (F.RC_JOB_CTRL_enable j) = true → bitN v 0
       = false → ((m.stick.deps.any fun d => d.2 == j && m.flag (F.RC_JOB_CTRL_enable d.1)) = true) → Does (.jobCtrlWrite dt j v) s
       (m.setFlag (F.RC_JOB_STAT_dep_refused j))) ∧
  (∀ (s : State) (dt : Nat) (m : Chip) (j v : Nat) (w : JobRun), Now s dt m → j < Config.jobs → w =
       { m.jobRun j with ctrl := v % 8, ctrlLate := none } → (m.flag (F.RC_JOB_CTRL_enable j) = false ∨ bitN v 0 = true ∨
       (m.stick.deps.any fun d => d.2 == j && m.flag (F.RC_JOB_CTRL_enable d.1)) = false) → (m.bays.running = false ∨ 20000 ≤
       m.period - m.tb3 % m.period) → Does (.jobCtrlWrite dt j v) s (((m.wr (R.RC_JOB_CTRL j) (BitVec.ofNat 32 (v % 8))).setJobRun j
       w).put (F.RC_JOB_STAT_pending j) (if v % 8 = (m.jobRun j).acted then 0 else 1))) ∧
  (∀ (s : State) (dt : Nat) (m : Chip) (j v : Nat) (w : JobRun), Now s dt m → j < Config.jobs → w =
       { m.jobRun j with ctrlLate := if v % 8 = (m.jobRun j).ctrl then none else some (v % 8) } → (m.flag (F.RC_JOB_CTRL_enable j) =
       false ∨ bitN v 0 = true ∨ (m.stick.deps.any fun d => d.2 == j && m.flag (F.RC_JOB_CTRL_enable d.1)) = false) → m.bays.running
       = true → m.period - m.tb3 % m.period < 20000 → Does (.jobCtrlWrite dt j v) s (((m.wr (R.RC_JOB_CTRL j) (BitVec.ofNat 32 (v %
       8))).setJobRun j w).put (F.RC_JOB_STAT_pending j) (b2n (pendingOf w)))) ∧
  (∀ (s : State) (dt : Nat) (m : Chip) (j v : Nat), Now s dt m → j < Config.jobs → Canon m → (m.flag (F.RC_JOB_CTRL_enable j) =
       false ∨ bitN v 0 = true ∨ (m.stick.deps.any fun d => d.2 == j && m.flag (F.RC_JOB_CTRL_enable d.1)) = false) → ∃ t, exec
       (.jobCtrlWrite dt j v) s = .next t ∧ t.pending = s.pending ∧ t.m.rd (R.RC_JOB_CTRL j) = BitVec.ofNat 32 (v % 8)) ∧
  (∀ (s : State) (dt : Nat) (m : Chip), Now s dt m → Does (.marginReset dt) s (m.put F.RC_SLACK_MIN_min_margin 0x3FFFFF)) ∧
  (∀ (s : State) (dt : Nat) (m : Chip), Now s dt m → ∃ t, exec (.marginReset dt) s = .next t ∧ t.pending = s.pending ∧ t.m.get
       F.RC_SLACK_MIN_min_margin = 0x3FFFFF) ∧
  (∀ (s : State) (dt : Nat) (m : Chip) (n : Nat) (c : CutEntry), Now s dt m → n < Config.bents → m.powerDue (.bent n) c .gate = true
       → m.windowOpen (.bent n) = false → Does (.gate dt n c) s (((m.setEng (.bent n)
       { m.eng (.bent n) with gated := true, wakeAt := none, acted := (m.eng (.bent n)).acted ++ [c] }).showBent n).setDomain n
       false)) ∧
  (∀ (s : State) (dt : Nat) (m : Chip) (n : Nat) (c : CutEntry), Now s dt m → n < Config.bents → m.powerDue (.bent n) c .gate = true
       → m.windowOpen (.bent n) = false → ∃ t, exec (.gate dt n c) s = .next t ∧ t.pending = s.pending ∧ (t.m.eng (.bent n)).gated =
       true ∧ (t.m.eng (.bent n)).acted = (m.eng (.bent n)).acted ++ [c]) ∧
  (∀ (s : State) (dt : Nat) (m : Chip) (n : Nat) (c : CutEntry), Now s dt m → n < Config.bents → m.powerDue (.bent n) c .wake = true
       → (m.eng (.bent n)).gated = true → Does (.wake dt n c) s (((m.setEng (.bent n)
       { m.eng (.bent n) with gated := false, wakeAt := some m.now, acted := (m.eng (.bent n)).acted ++ [c] }).showBent n).setDomain
       n true)) ∧
  (∀ (s : State) (dt : Nat) (m : Chip) (n : Nat) (c : CutEntry), Now s dt m → n < Config.bents → m.powerDue (.bent n) c .wake = true
       → (m.eng (.bent n)).gated = true → ∃ t, exec (.wake dt n c) s = .next t ∧ t.pending = s.pending ∧ (t.m.eng (.bent n)).gated =
       false ∧ (t.m.eng (.bent n)).wakeAt = some m.now) ∧
  (∀ (s : State) (dt : Nat) (m : Chip) (e : Engine) (c : CutEntry), Now s dt m → engExists e = true → m.powerDue e c .window = true
       → m.sup.shedWindows = false → Does (.backgroundWindow dt e c) s (m.setEng e
       { m.eng e with windowEnd := some c.plannedEnd, acted := (m.eng e).acted ++ [c] })) ∧
  (∀ (s : State) (dt : Nat) (m : Chip) (e : Engine) (c : CutEntry), Now s dt m → engExists e = true → m.powerDue e c .window = true
       → m.sup.shedWindows = false → ∃ t, exec (.backgroundWindow dt e c) s = .next t ∧ t.pending = s.pending ∧ (t.m.eng
       e).windowEnd = some c.plannedEnd) ∧
  (∀ (s : State) (dt : Nat) (m : Chip) (e : Engine) (w : SegWork) (limit j : Nat) (rest : List Nat) (c : CutEntry), Now s dt m →
       engExists e = true → m.bgEnd e = some limit → m.bgJobs e = j :: rest → (m.eng e).bg = none → (m.bgSegs e j)[tabGet 0 (m.eng
       e).bgAt j]? = some c → m.coreCycle + c.plannedEnd + ((m.jobRec j).map (·.saveCycles)).getD 0 ≤ limit → Does
       (.backgroundSegment dt e w) s (m.startSeg e j limit c w)) ∧
  (∀ (s : State) (dt : Nat) (m : Chip) (e : Engine) (w : SegWork) (limit j : Nat) (rest : List Nat) (c : CutEntry) (f : Chip →
       Running × Chip), Now s dt m → engExists e = true → m.bgEnd e = some limit → m.bgJobs e = j :: rest → (m.eng e).bg = none →
       (m.bgSegs e j)[tabGet 0 (m.eng e).bgAt j]? = some c → m.coreCycle + c.plannedEnd + ((m.jobRec j).map (·.saveCycles)).getD 0 ≤
       limit → m.segWork e c w = some f → ((f (m.setEng e { m.eng e with hit := false })).2.eng e).hit = false → ∃ t, exec
       (.backgroundSegment dt e w) s = .next t ∧ t.pending = s.pending ∧ ∃ r, (t.m.eng e).bg = some r ∧ r.entry = c ∧ r.closeBay =
       (m.jobRun j).step ∧ r.startedAt = m.now ∧ r.limit = limit) ∧
  (∀ (s : State) (dt : Nat) (m : Chip) (e : Engine) (w : SegWork) (limit j : Nat) (rest : List Nat) (c : CutEntry), Now s dt m →
       engExists e = true → m.bgEnd e = some limit → m.bgJobs e = j :: rest → (m.eng e).bg = none → (m.bgSegs e j)[tabGet 0 (m.eng
       e).bgAt j]? = some c → limit < m.coreCycle + c.plannedEnd + ((m.jobRec j).map (·.saveCycles)).getD 0 → Does
       (.backgroundSegment dt e w) s (m.yieldBg e j (rest.headD j))) ∧
  (∀ (s : State) (dt : Nat) (m : Chip) (e : Engine) (r : Running), Now s dt m → engExists e = true → (m.eng e).bg = some r →
       (r.limit ≤ m.coreCycle ∨ m.sup.shedWindows = true ∨ (m.eng e).running ≠ none) → Does (.segmentRollback dt e) s ((((m.setEng e
       { m.eng e with bg := none, bgAt := tabSet 0 (m.eng e).bgAt r.entry.job (tabGet 0 (m.eng e).bgSaved r.entry.job), busy := (m.eng e).busy + (m.now - r.startedAt) }).bump
       R.RC_BG_ROLLBACK).setFlag F.RC_BAY_STAT_bg_rollback).showEng e)) ∧
  (∀ (s : State) (dt : Nat) (m : Chip) (e : Engine) (r : Running), Now s dt m → engExists e = true → (m.eng e).bg = some r →
       (r.limit ≤ m.coreCycle ∨ m.sup.shedWindows = true ∨ (m.eng e).running ≠ none) → r.startedAt < m.now → ∃ t, exec
       (.segmentRollback dt e) s = .next t ∧ t.pending = s.pending ∧ (t.m.eng e).bg = none ∧ (t.m.eng e).busy = (m.eng e).busy +
       (m.now - r.startedAt)) ∧
  (∀ (s : State) (dt : Nat) (m : Chip) (e : Engine) (r : Running), Now s dt m → engExists e = true → (m.eng e).bg = some r →
       m.coreCycle < r.limit → m.sup.shedWindows = false → (m.eng e).running = none → Does (.segmentRollback dt e) s m)

/-- The oldest flit in flight arrives once the flit slots that have passed are filled. One that fails its CRC is discarded, as
are those after it until the expected number arrives again, makes a nak due, is flagged and counted, and beyond 64 in 10 µs
retrains the link. A data flit in sequence is accepted: the header's credits and acknowledgement act, its own place is freed, it
is counted, the next number is expected, and where its bay is the current one its payload is committed. A flit out of sequence
has only its header's effect. A nak makes the other sender replay what is not acknowledged. A response ends the request with its
tag and frees its buffer; with no such request it is late. Nothing arrives on a link that is not up. (R280, R282, R287, R290,
R292, R294) -/
def Obligations.TenonFlitsArrive : Prop :=
  (∀ (s : State) (dt : Nat) (m : Chip) (d : Nat) (f : TnFlit) (w : List TnFlit), Linked s dt m → d < 2 → m.tnUp = true → (m.tnDir
       d).wire = f :: w → Does (.flitReceived dt d false) s ((m.modTnDir d fun t => { t with wire := w }).tnCrcFail d f)) ∧
  (∀ (s : State) (dt : Nat) (m : Chip) (d : Nat) (f : TnFlit) (w : List TnFlit), Linked s dt m → d < 2 → m.tnUp = true → (m.tnDir
       d).wire = f :: w → ∃ t, exec (.flitReceived dt d false) s = .next t ∧ t.pending = s.pending ∧ (t.m.tnDir d).nakDue = true) ∧
  (∀ (s : State) (dt : Nat) (m : Chip) (d : Nat) (f : TnFlit) (w : List TnFlit), Linked s dt m → d < 2 → m.tnUp = true → (m.tnDir
       d).wire = f :: w → f.vc ≠ 3 → f.seq = (m.tnDir d).expect → Does (.flitReceived dt d true) s (((m.modTnDir d fun t =>
       { t with wire := w }).tnHeader d f).tnAccept d f)) ∧
  (∀ (s : State) (dt : Nat) (m : Chip) (d : Nat) (f : TnFlit) (w : List TnFlit), Linked s dt m → d < 2 → m.tnUp = true → (m.tnDir
       d).wire = f :: w → f.vc = 2 → f.seq = (m.tnDir d).expect → ∃ t, exec (.flitReceived dt d true) s = .next t ∧ t.pending =
       s.pending ∧ (t.m.tnDir d).wire = w ∧ (t.m.tnDir d).expect = (f.seq + 1) % 4096 ∧ (t.m.tnDir d).ackDue = true) ∧
  (∀ (s : State) (dt : Nat) (m : Chip) (d : Nat) (f : TnFlit) (w : List TnFlit), Linked s dt m → d < 2 → m.tnUp = true → (m.tnDir
       d).wire = f :: w → f.vc ≠ 3 → f.seq ≠ (m.tnDir d).expect → Does (.flitReceived dt d true) s ((m.modTnDir d fun t =>
       { t with wire := w }).tnHeader d f)) ∧
  (∀ (s : State) (dt : Nat) (m : Chip) (d : Nat) (ok : Bool), Linked s dt m → d < 2 → (m.tnUp = false ∨ (m.tnDir d).wire = []) →
       Does (.flitReceived dt d ok) s m) ∧
  (∀ (s : State) (dt : Nat) (m : Chip) (d : Nat) (f g : TnFlit) (w l : List TnFlit), Linked s dt m → d < 2 → m.tnUp = true →
       (m.tnDir d).wire = f :: w → f.vc = 3 → f.pos = 2 → Does (.tenonNak dt d) s (((m.modTnDir d fun t =>
       { t with wire := w }).tnHeader d f).tnReplay (1 - d))) ∧
  (∀ (s : State) (dt : Nat) (m : Chip) (d : Nat) (f g : TnFlit) (w l : List TnFlit), Linked s dt m → d < 2 → m.tnUp = true →
       (m.tnDir d).wire = f :: w → f.vc = 3 → f.pos = 2 → ackReplay f.ack (m.tnDir (1 - d)).replay = g :: l → (m.tnDir (1 -
       d)).replays < max 1 (m.get F.TN_CFG_retry_limit) → ∃ t, exec (.tenonNak dt d) s = .next t ∧ t.pending = s.pending ∧
       (t.m.tnDir (1 - d)).again = l.length + 1 ∧ (t.m.tnDir (1 - d)).replay = g :: l) ∧
  (∀ (s : State) (dt : Nat) (m : Chip) (d : Nat) (f : TnFlit) (w : List TnFlit), Linked s dt m → d < 2 → m.tnUp = true → (m.tnDir
       d).wire = f :: w → f.vc = 1 → f.seq = (m.tnDir d).expect → Does (.tenonResponse dt d) s (((m.modTnDir d fun t =>
       { t with wire := w }).tnHeader d f).tnAccept d f)) ∧
  (∀ (s : State) (dt : Nat) (m : Chip) (d : Nat) (f : TnFlit) (w : List TnFlit) (q : TnReq), Linked s dt m → d < 2 → m.tnUp = true →
       (m.tnDir d).wire = f :: w → f.vc = 1 → f.seq = (m.tnDir d).expect → f.pos = 3 → f.cancelled = false → tnBad d 1 f.xfer =
       false → f.xfer.bay = m.bay → f.xfer.space ≠ 0 ∧ f.xfer.space ≠ 3 ∧ f.xfer.space ≠ 4 → ((m.tenon.reqs.find? fun q => q.tag ==
       f.xfer.tag) = some q) → m.tenon.todo = [] → ∃ t, exec (.tenonResponse dt d) s = .next t ∧ t.pending = s.pending ∧
       t.m.tenon.reqs = m.tenon.reqs.filter (fun r => r.tag != q.tag))

/-- Without an acknowledgement for 2 µs the sender replays; before that, or with nothing outstanding, nothing happens. A request
past req_timeout is flagged and counted, blocks its tag, and ends with an error. A retrain of an up link loses the flits in
flight and is flagged, counted and raised. A training that passes with at most two spare lanes used in each direction brings the
link up: cold, from fresh state; else resuming from the last accepted numbers. A retrain that fails is followed by another. More
than two bad lanes fail the link; so does the third failed training. A failed link tries again every 10 ms. (R288, R289, R292,
R293, R294, R295, R296, R299) -/
def Obligations.TenonRecoversAndTrains : Prop :=
  (∀ (s : State) (dt : Nat) (m : Chip) (d : Nat) (g : TnFlit) (l : List TnFlit), Linked s dt m → d < 2 → m.tnUp = true → (m.tnDir
       d).replay = g :: l → (m.tnDir d).again = 0 → (m.tnDir d).ackAt + 2000 ≤ m.now → Does (.tenonReplayTimeout dt d) s (m.tnReplay
       d)) ∧
  (∀ (s : State) (dt : Nat) (m : Chip) (d : Nat) (g : TnFlit) (l : List TnFlit), Linked s dt m → d < 2 → m.tnUp = true → (m.tnDir
       d).replay = g :: l → (m.tnDir d).again = 0 → (m.tnDir d).ackAt + 2000 ≤ m.now → (m.tnDir d).replays < max 1 (m.get
       F.TN_CFG_retry_limit) → ∃ t, exec (.tenonReplayTimeout dt d) s = .next t ∧ t.pending = s.pending ∧ (t.m.tnDir d).again =
       l.length + 1 ∧ (t.m.tnDir d).replay = g :: l) ∧
  (∀ (s : State) (dt : Nat) (m : Chip) (d : Nat), Linked s dt m → d < 2 → ((m.tnDir d).replay = [] ∨ m.now < (m.tnDir d).ackAt +
       2000) → Does (.tenonReplayTimeout dt d) s m) ∧
  (∀ (s : State) (dt : Nat) (m : Chip) (tag : Nat) (q : TnReq), Linked s dt m → ((m.tenon.reqs.find? fun q => q.tag == tag && decide
       (q.sentAt + m.get F.TN_CFG_req_timeout * 1000 ≤ m.now)) = some q) → Does (.tenonRequestTimeout dt tag) s ((((m.setFlag
       F.TN_STAT_req_timeout).bump R.TN_CNT_TIMEOUT).onTn fun t => { t with blocked := t.blocked ++ [(tag, m.now, false)] }).endReq
       q none)) ∧
  (∀ (s : State) (dt : Nat) (m : Chip) (tag : Nat) (q : TnReq), Linked s dt m → ((m.tenon.reqs.find? fun q => q.tag == tag && decide
       (q.sentAt + m.get F.TN_CFG_req_timeout * 1000 ≤ m.now)) = some q) → m.tenon.todo = [] → ∃ t, exec (.tenonRequestTimeout dt
       tag) s = .next t ∧ t.pending = s.pending ∧ t.m.tenon.reqs = m.tenon.reqs.filter (fun r => r.tag != q.tag)) ∧
  (∀ (s : State) (dt : Nat) (m : Chip) (tag : Nat), Linked s dt m → ((m.tenon.reqs.find? fun q => q.tag == tag && decide (q.sentAt +
       m.get F.TN_CFG_req_timeout * 1000 ≤ m.now)) = none) → Does (.tenonRequestTimeout dt tag) s m) ∧
  (∀ (s : State) (dt : Nat) (m : Chip), Linked s dt m → m.tnUp = true → Does (.tenonRetrain dt) s (((((m.put F.TN_STAT_state
       3).setFlag F.TN_STAT_retrained).bump R.TN_CNT_RETRAIN).raise SrcName.tenonRetrain).onTn fun t =>
       { t with s2r := { t.s2r with wire := [], again := 0 }, r2s := { t.r2s with wire := [], again := 0 } })) ∧
  (∀ (s : State) (dt : Nat) (m : Chip), Linked s dt m → m.tnUp = true → ∃ t, exec (.tenonRetrain dt) s = .next t ∧ t.pending =
       s.pending ∧ t.m.tenon.s2r.wire = [] ∧ t.m.tenon.r2s.wire = [] ∧ t.m.tenon.s2r.replay = m.tenon.s2r.replay ∧
       t.m.tenon.r2s.replay = m.tenon.r2s.replay ∧ t.m.tenon.s2r.nextSeq = m.tenon.s2r.nextSeq ∧ t.m.tenon.r2s.nextSeq =
       m.tenon.r2s.nextSeq) ∧
  (∀ (s : State) (dt : Nat) (m : Chip) (a b : Nat), Linked s dt m → m.get F.TN_STAT_state = 1 → m.get F.TN_STAT_spares_s2r + a ≤ 2 →
       m.get F.TN_STAT_spares_r2s + b ≤ 2 → Does (.tenonTrain dt true a b) s ((((((((m.put F.TN_STAT_spares_s2r (m.get
       F.TN_STAT_spares_s2r + a)).put F.TN_STAT_spares_r2s (m.get F.TN_STAT_spares_r2s + b)).put F.TN_STAT_state 2).setTnDir 0
       { slotAt := m.cyc }).setTnDir 1 { slotAt := m.cyc }).onTn fun t =>
       { t with fails := 0, blocked := t.blocked.map fun z => (z.1, z.2.1, z.2.2 || false) }).deassert
       SrcName.tenonDownSill).deassert SrcName.tenonDownRidge)) ∧
  (∀ (s : State) (dt : Nat) (m : Chip) (a b : Nat), Linked s dt m → m.get F.TN_STAT_state = 1 → m.get F.TN_STAT_spares_s2r + a ≤ 2 →
       m.get F.TN_STAT_spares_r2s + b ≤ 2 → ∃ t, exec (.tenonTrain dt true a b) s = .next t ∧ t.pending = s.pending ∧ t.m.tnDir 0 =
       { slotAt := m.cyc } ∧ t.m.tnDir 1 = { slotAt := m.cyc } ∧ t.m.tenon.fails = 0) ∧
  (∀ (s : State) (dt : Nat) (m : Chip) (a b : Nat), Linked s dt m → m.get F.TN_STAT_state = 3 → m.get F.TN_STAT_spares_s2r + a ≤ 2 →
       m.get F.TN_STAT_spares_r2s + b ≤ 2 → Does (.tenonTrain dt true a b) s ((((((((m.put F.TN_STAT_spares_s2r (m.get
       F.TN_STAT_spares_s2r + a)).put F.TN_STAT_spares_r2s (m.get F.TN_STAT_spares_r2s + b)).put F.TN_STAT_state 2).tnResume
       0).tnResume 1).onTn fun t => { t with fails := 0, blocked := t.blocked.map fun z => (z.1, z.2.1, z.2.2 || true) }).deassert
       SrcName.tenonDownSill).deassert SrcName.tenonDownRidge)) ∧
  (∀ (s : State) (dt : Nat) (m : Chip) (a b : Nat), Linked s dt m → m.get F.TN_STAT_state = 3 → m.get F.TN_STAT_spares_s2r + a ≤ 2 →
       m.get F.TN_STAT_spares_r2s + b ≤ 2 → ∃ t, exec (.tenonTrain dt true a b) s = .next t ∧ t.pending = s.pending ∧
       t.m.tenon.fails = 0) ∧
  (∀ (s : State) (dt : Nat) (m : Chip) (ok : Bool) (a b : Nat), Linked s dt m → (m.get F.TN_STAT_state = 1 ∨ m.get F.TN_STAT_state =
       3) → (2 < m.get F.TN_STAT_spares_s2r + a ∨ 2 < m.get F.TN_STAT_spares_r2s + b) → Does (.tenonTrain dt ok a b) s (((m.put
       F.TN_STAT_spares_s2r (min 2 (m.get F.TN_STAT_spares_s2r + a))).put F.TN_STAT_spares_r2s (min 2 (m.get F.TN_STAT_spares_r2s +
       b))).tnFailed)) ∧
  (∀ (s : State) (dt : Nat) (m : Chip) (ok : Bool) (a b : Nat), Linked s dt m → (m.get F.TN_STAT_state = 1 ∨ m.get F.TN_STAT_state =
       3) → (2 < m.get F.TN_STAT_spares_s2r + a ∨ 2 < m.get F.TN_STAT_spares_r2s + b) → ∃ t, exec (.tenonTrain dt ok a b) s = .next
       t ∧ t.pending = s.pending ∧ t.m.tenon.tryAt = m.now + 10000000) ∧
  (∀ (s : State) (dt : Nat) (m : Chip) (a b : Nat), Linked s dt m → m.get F.TN_STAT_state = 3 → m.get F.TN_STAT_spares_s2r + a ≤ 2 →
       m.get F.TN_STAT_spares_r2s + b ≤ 2 → m.tenon.fails < 2 → Does (.tenonTrain dt false a b) s ((m.onTn fun t =>
       { t with fails := t.fails + 1 }).countRetrain)) ∧
  (∀ (s : State) (dt : Nat) (m : Chip) (a b : Nat), Linked s dt m → m.get F.TN_STAT_state = 4 → m.tenon.tryAt ≤ m.now → m.get
       F.TN_STAT_spares_s2r + a ≤ 2 → m.get F.TN_STAT_spares_r2s + b ≤ 2 → m.tenon.fails = 2 → Does (.tenonTrainRetry dt false a b)
       s (m.onTn fun t => { t with fails := 3 }).tnFailed) ∧
  (∀ (s : State) (dt : Nat) (m : Chip) (a b : Nat), Linked s dt m → m.get F.TN_STAT_state = 4 → m.tenon.tryAt ≤ m.now → m.get
       F.TN_STAT_spares_s2r + a ≤ 2 → m.get F.TN_STAT_spares_r2s + b ≤ 2 → m.tenon.fails = 2 → ∃ t, exec (.tenonTrainRetry dt false
       a b) s = .next t ∧ t.pending = s.pending ∧ t.m.tenon.tryAt = m.now + 10000000) ∧
  (∀ (s : State) (dt : Nat) (m : Chip) (a b : Nat), Linked s dt m → m.get F.TN_STAT_state = 4 → m.tenon.tryAt ≤ m.now → m.get
       F.TN_STAT_spares_s2r + a ≤ 2 → m.get F.TN_STAT_spares_r2s + b ≤ 2 → ∃ t, exec (.tenonTrainRetry dt true a b) s = .next t ∧
       t.pending = s.pending ∧ t.m.tenon.fails = 0) ∧
  (∀ (s : State) (dt : Nat) (m : Chip) (ok : Bool) (a b : Nat), Linked s dt m → (m.get F.TN_STAT_state ≠ 4 ∨ m.now < m.tenon.tryAt)
       → Does (.tenonTrainRetry dt ok a b) s m)

/-- A frame on a port that is up with a checked peer, once it passes its own checks, is routed; one that fails them has only
their effect; a port that is not alive takes none. A DATA frame in sequence for this module makes its flow expect the next
number. An acknowledgement ends the frames of a flow up to its number; a NAK also sends from its number again; past rto the
unacknowledged frames are sent again, and each counts one more resending. A HELLO is taken on a live port; the first that passes
the checks opens the port to other frames. One is sent every 100 ms, and a LINK frame's credits are taken. A swap for a later
bay becomes pending; another is refused. (R308, R309, R310, R311, R313, R315, R316, R317, R319) -/
def Obligations.PurlinFramesAndFlows : Prop :=
  (∀ (s : State) (dt : Nat) (m : Chip) (p k : Nat) (fr : PurFrame) (x : Chip) (d : TnXfer) (l : List Byte), Now s dt m → p <
       Config.purlinPorts → (m.bumpBy (R.PUR_CNT_CORR p) k).purAlive p = true → (m.bumpBy (R.PUR_CNT_CORR p) k).purAdmit p fr =
       (true, x) → fr.body = .data d l → x.purState p = 3 → (x.purPort p).helloOk = true → Does (.purlinFrame dt p k fr) s
       (x.purRouted p fr)) ∧
  (∀ (s : State) (dt : Nat) (m : Chip) (p k : Nat) (fr : PurFrame) (x : Chip) (d : TnXfer) (l : List Byte), Now s dt m → p <
       Config.purlinPorts → (m.bumpBy (R.PUR_CNT_CORR p) k).purAlive p = true → (m.bumpBy (R.PUR_CNT_CORR p) k).purAdmit p fr =
       (true, x) → fr.body = .data d l → x.purState p = 3 → (x.purPort p).helloOk = true → fr.seq = m.expected fr.src fr.cls →
       fr.seq < 2 ^ 32 → fr.hops ≠ 0 → x.routeOf fr.epoch fr.src = p → fr.epoch = x.epoch → x.routeOf fr.epoch fr.dst = 6 → ∃ t,
       exec (.purlinFrame dt p k fr) s = .next t ∧ t.pending = s.pending ∧ t.m.expected fr.src fr.cls = (fr.seq + 1) % 2 ^ 32) ∧
  (∀ (s : State) (dt : Nat) (m : Chip) (p k : Nat) (fr : PurFrame) (x : Chip), Now s dt m → p < Config.purlinPorts → (m.bumpBy
       (R.PUR_CNT_CORR p) k).purAlive p = true → (m.bumpBy (R.PUR_CNT_CORR p) k).purAdmit p fr = (false, x) → Does (.purlinFrame dt
       p k fr) s x) ∧
  (∀ (s : State) (dt : Nat) (m : Chip) (p k : Nat) (fr : PurFrame), Now s dt m → p < Config.purlinPorts → (m.bumpBy (R.PUR_CNT_CORR
       p) k).purAlive p = false → Does (.purlinFrame dt p k fr) s (m.bumpBy (R.PUR_CNT_CORR p) k)) ∧
  (∀ (s : State) (dt : Nat) (m : Chip) (dev cls seq : Nat), Now s dt m → dev < 4096 → Does (.purlinAck dt dev cls seq) s (m.flowAck
       dev cls seq)) ∧
  (∀ (s : State) (dt : Nat) (m : Chip) (dev cls seq : Nat), Now s dt m → dev < 4096 → (m.flow dev cls).waiting = [] → (((m.flow dev
       cls).unacked.filter (fun u => !decide ((seq + 2 ^ 32 - u.frame.seq) % 2 ^ 32 < 2 ^ 31))).length ≠ (m.flow dev
       cls).unacked.length) → ∃ t, exec (.purlinAck dt dev cls seq) s = .next t ∧ t.pending = s.pending ∧ (t.m.flow dev cls).unacked
       = (m.flow dev cls).unacked.filter (fun u => !decide ((seq + 2 ^ 32 - u.frame.seq) % 2 ^ 32 < 2 ^ 31)) ∧ (t.m.flow dev
       cls).ackAt = m.now) ∧
  (∀ (s : State) (dt : Nat) (m : Chip) (dev cls seq : Nat), Now s dt m → dev < 4096 → (m.flow dev cls).unacked ≠ [] → Does
       (.purlinNak dt dev cls seq) s ((m.flowAck dev cls ((seq + 2 ^ 32 - 1) % 2 ^ 32)).flowResend dev cls)) ∧
  (∀ (s : State) (dt : Nat) (m : Chip) (dev cls seq : Nat), Now s dt m → dev < 4096 → (m.flow dev cls).unacked ≠ [] → (((m.flow dev
       cls).unacked.filter (fun u => !decide ((((seq + 2 ^ 32 - 1) % 2 ^ 32) + 2 ^ 32 - u.frame.seq) % 2 ^ 32 < 2 ^ 31))).length =
       (m.flow dev cls).unacked.length) → ((m.flow dev cls).unacked.any (fun u => decide (8 ≤ u.resends)) = false) → ∃ t, exec
       (.purlinNak dt dev cls seq) s = .next t ∧ t.pending = s.pending ∧ (t.m.flow dev cls).unacked = (m.flow dev cls).unacked.map
       (fun u => { u with resends := u.resends + 1 })) ∧
  (∀ (s : State) (dt : Nat) (m : Chip) (dev cls : Nat), Now s dt m → dev < 4096 → (m.flow dev cls).unacked ≠ [] → (m.flow dev
       cls).ackAt + ((m.stick.fabric.map (·.rto)).getD 8) * 1000 ≤ m.now → Does (.purlinRto dt dev cls) s (m.flowResend dev cls)) ∧
  (∀ (s : State) (dt : Nat) (m : Chip) (dev cls : Nat), Now s dt m → dev < 4096 → (m.flow dev cls).unacked ≠ [] → (m.flow dev
       cls).ackAt + ((m.stick.fabric.map (·.rto)).getD 8) * 1000 ≤ m.now → ((m.flow dev cls).unacked.any (fun u => decide (8 ≤
       u.resends)) = false) → ∃ t, exec (.purlinRto dt dev cls) s = .next t ∧ t.pending = s.pending ∧ (t.m.flow dev cls).unacked =
       (m.flow dev cls).unacked.map (fun u => { u with resends := u.resends + 1 })) ∧
  (∀ (s : State) (dt : Nat) (m : Chip) (dev cls : Nat), Now s dt m → dev < 4096 → ((m.flow dev cls).unacked = [] ∨ m.now < (m.flow
       dev cls).ackAt + ((m.stick.fabric.map (·.rto)).getD 8) * 1000) → Does (.purlinRto dt dev cls) s m) ∧
  (∀ (s : State) (dt : Nat) (m : Chip) (p : Nat) (h : HelloRec), Now s dt m → p < Config.purlinPorts → m.purAlive p = true → Does
       (.hello dt p h) s (m.takeHello p h)) ∧
  (∀ (s : State) (dt : Nat) (m : Chip) (p : Nat) (h : HelloRec), Now s dt m → p < Config.purlinPorts → m.purState p = 3 →
       m.stick.fabric.isSome = true → (m.purPort p).hello = none → m.helloPasses p h = true → (m.purPort p).txq = [] → ∃ t, exec
       (.hello dt p h) s = .next t ∧ t.pending = s.pending ∧ (t.m.purPort p).helloOk = true ∧ (t.m.purPort p).hello = some h) ∧
  (∀ (s : State) (dt : Nat) (m : Chip) (p : Nat), Now s dt m → p < Config.purlinPorts → m.purAlive p = true → (m.purPort p).helloAt
       + 100000000 ≤ m.now → Does (.helloSend dt p) s (m.helloOut p)) ∧
  (∀ (s : State) (dt : Nat) (m : Chip) (p : Nat), Now s dt m → p < Config.purlinPorts → m.purAlive p = true → (m.purPort p).helloAt
       + 100000000 ≤ m.now → ∃ t, exec (.helloSend dt p) s = .next t ∧ t.pending = s.pending ∧ (t.m.purPort p).helloAt = m.now) ∧
  (∀ (s : State) (dt : Nat) (m : Chip) (p : Nat) (l : LinkRec), Now s dt m → p < Config.purlinPorts → m.purAlive p = true → Does
       (.linkFrame dt p l) s (m.takeLink p l)) ∧
  (∀ (s : State) (dt : Nat) (m : Chip) (p : Nat) (l : LinkRec), Now s dt m → p < Config.purlinPorts → m.purState p = 3 → m.flag
       (F.PUR_CFG_lpi_en p) = false → (m.purPort p).txq = [] → (m.purPort p).helloOk = true → ∃ t, exec (.linkFrame dt p l) s =
       .next t ∧ t.pending = s.pending ∧ (t.m.purPort p).bulk = min 4096 ((m.purPort p).bulk + l.bulk) ∧ (t.m.purPort p).mirror =
       min 256 ((m.purPort p).mirror + l.mirror) ∧ (t.m.purPort p).control = min 256 ((m.purPort p).control + l.control)) ∧
  (∀ (s : State) (dt : Nat) (m : Chip) (b : Nat), Now s dt m → b = m.rd64 R.PUR_SWAP_BAY_LO R.PUR_SWAP_BAY_HI → m.bay < b →
       m.purlin.swapDue = none → Does (.routeSwap dt) s (((m.onPur fun s => { s with swapDue := some b }).put F.PUR_ROUTE_CTRL_swap
       1).put F.PUR_ROUTE_STAT_pending 1)) ∧
  (∀ (s : State) (dt : Nat) (m : Chip) (b : Nat), Now s dt m → b = m.rd64 R.PUR_SWAP_BAY_LO R.PUR_SWAP_BAY_HI → m.bay < b →
       m.purlin.swapDue = none → ∃ t, exec (.routeSwap dt) s = .next t ∧ t.pending = s.pending ∧ t.m.purlin.swapDue = some b) ∧
  (∀ (s : State) (dt : Nat) (m : Chip) (b : Nat), Now s dt m → b = m.rd64 R.PUR_SWAP_BAY_LO R.PUR_SWAP_BAY_HI → (b ≤ m.bay ∨
       m.purlin.swapDue ≠ none) → Does (.routeSwap dt) s (m.setFlag F.PUR_ROUTE_STAT_swap_refused))

/-- A training that passes shows its lanes and authenticates; with keys held, or a handshake that passes, the port comes up with
fresh credits. The third training in a row that fails leaves the port down, to try every 100 ms. An authentication is tried
again when due. A lost signal, clock or codeword lock is flagged and takes the port down, which forgets its peer's HELLO; four
uncorrectable codewords in a row do. Keys are renewed at 2^61 frames. An idle port asks to sleep, and sleeps once its peer has
granted. A sleeping port's wake window measures the skew; more than 2 µs or no relock is a guard miss. Re-enabling idle clears
the misses. A retrain and a hold act on enabled ports. (R303, R304, R305, R306, R320, R321, R322, R332, R420, R528) -/
def Obligations.PurlinPortsTrainAndSleep : Prop :=
  (∀ (s : State) (dt : Nat) (m : Chip) (p : Nat) (t0 : PurTrain), Now s dt m → p < Config.purlinPorts → t0.ok = true → t0.skew ≤ 80
       → laneMapOk t0.laneMap = true → m.purState p = 1 → Does (.purlinTrain dt p t0) s ((((m.put (F.PUR_LANE_map p) t0.laneMap).put
       (F.PUR_LANE_inverted p) t0.inverted).put (F.PUR_LANE_skew_ns p) t0.skew).purAuth p t0)) ∧
  (∀ (s : State) (dt : Nat) (m : Chip) (p : Nat) (t0 : PurTrain), Now s dt m → p < Config.purlinPorts → t0.ok = true → t0.skew ≤ 80
       → laneMapOk t0.laneMap = true → m.purState p = 1 → (m.purPort p).keyed = true → ∃ t, exec (.purlinTrain dt p t0) s = .next t
       ∧ t.pending = s.pending ∧ (t.m.purPort p).bulk = 4096 ∧ (t.m.purPort p).mirror = 256 ∧ (t.m.purPort p).control = 256 ∧
       (t.m.purPort p).helloOk = false) ∧
  (∀ (s : State) (dt : Nat) (m : Chip) (p : Nat) (t0 : PurTrain) (x : Chip), Now s dt m → p < Config.purlinPorts → m.purState p = 1
       → (t0.ok = false ∨ 80 < t0.skew ∨ laneMapOk t0.laneMap = false) → (x = m.modPurPort p fun s =>
       { s with fails := (m.purPort p).fails + 1, tryAt := m.now + 100000000 }) → Does (.purlinTrain dt p t0) s (if 3 ≤ (m.purPort
       p).fails + 1 then x.setPurState p 0 else x)) ∧
  (∀ (s : State) (dt : Nat) (m : Chip) (p : Nat) (t0 : PurTrain), Now s dt m → p < Config.purlinPorts → m.purState p = 1 → t0.ok =
       false → ∃ t, exec (.purlinTrain dt p t0) s = .next t ∧ t.pending = s.pending ∧ (t.m.purPort p).fails = (m.purPort p).fails +
       1 ∧ (t.m.purPort p).tryAt = m.now + 100000000) ∧
  (∀ (s : State) (dt : Nat) (m : Chip) (p : Nat), Now s dt m → p < Config.purlinPorts → m.purState p = 0 → 3 ≤ (m.purPort p).fails →
       (m.purPort p).tryAt ≤ m.now → Does (.purlinTrainRetry dt p) s (m.setPurState p 1)) ∧
  (∀ (s : State) (dt : Nat) (m : Chip) (p : Nat), Now s dt m → p < Config.purlinPorts → m.purState p = 0 → 3 ≤ (m.purPort p).fails →
       (m.purPort p).tryAt ≤ m.now → ∃ t, exec (.purlinTrainRetry dt p) s = .next t ∧ t.pending = s.pending ∧ t.m.purState p = 1) ∧
  (∀ (s : State) (dt : Nat) (m : Chip) (p : Nat) (t0 : PurTrain), Now s dt m → p < Config.purlinPorts → m.purState p = 2 →
       (m.purPort p).tryAt ≤ m.now → Does (.purlinAuthRetry dt p t0) s (m.purAuth p t0)) ∧
  (∀ (s : State) (dt : Nat) (m : Chip) (p : Nat) (t0 : PurTrain), Now s dt m → p < Config.purlinPorts → m.purState p = 2 →
       (m.purPort p).tryAt ≤ m.now → (m.purPort p).keyed = false → t0.authOk = true → m.trust.revokedCerts.contains t0.certHash =
       false → ∃ t, exec (.purlinAuthRetry dt p t0) s = .next t ∧ t.pending = s.pending ∧ (t.m.purPort p).bulk = 4096 ∧ (t.m.purPort
       p).mirror = 256 ∧ (t.m.purPort p).control = 256 ∧ (t.m.purPort p).helloOk = false) ∧
  (∀ (s : State) (dt : Nat) (m : Chip) (p : Nat), Now s dt m → p < Config.purlinPorts → m.flag (F.PUR_CFG_enabled p) = true → Does
       (.purlinRetrain dt p) s (m.purDown p)) ∧
  (∀ (s : State) (dt : Nat) (m : Chip) (p : Nat), Now s dt m → p < Config.purlinPorts → m.flag (F.PUR_CFG_enabled p) = true →
       m.purAlive p = true → tabWf {} m.purlin.ports = true → ∃ t, exec (.purlinRetrain dt p) s = .next t ∧ t.pending = s.pending ∧
       (t.m.purPort p).helloOk = false) ∧
  (∀ (s : State) (dt : Nat) (m : Chip) (p : Nat), Now s dt m → p < Config.purlinPorts → m.flag (F.PUR_CFG_enabled p) = false → Does
       (.purlinRetrain dt p) s m) ∧
  (∀ (s : State) (dt : Nat) (m : Chip) (p : Nat) (x : Chip), Now s dt m → p < Config.purlinPorts → x = m.put (F.PUR_CTRL_hold p) 1 →
       x.flag (F.PUR_CFG_enabled p) = true → x.purAlive p = true → Does (.purlinHold dt p true) s (x.purLeave p 6)) ∧
  (∀ (s : State) (dt : Nat) (m : Chip) (p : Nat) (x : Chip), Now s dt m → p < Config.purlinPorts → x = m.put (F.PUR_CTRL_hold p) 1 →
       x.flag (F.PUR_CFG_enabled p) = true → x.purAlive p = true → tabWf {} m.purlin.ports = true → ∃ t, exec (.purlinHold dt p
       true) s = .next t ∧ t.pending = s.pending ∧ (t.m.purPort p).helloOk = false) ∧
  (∀ (s : State) (dt : Nat) (m : Chip) (p : Nat) (x : Chip), Now s dt m → p < Config.purlinPorts → x = m.put (F.PUR_CTRL_hold p) 0 →
       x.flag (F.PUR_CFG_enabled p) = true → x.purState p = 6 → Does (.purlinHold dt p false) s ((x.setPurState p 1).modPurPort p
       fun s => { s with keyed := false })) ∧
  (∀ (s : State) (dt : Nat) (m : Chip) (p : Nat) (x : Chip), Now s dt m → p < Config.purlinPorts → x = m.put (F.PUR_CTRL_hold p) 0 →
       x.flag (F.PUR_CFG_enabled p) = true → x.purState p = 6 → ∃ t, exec (.purlinHold dt p false) s = .next t ∧ t.pending =
       s.pending ∧ t.m.purState p = 1) ∧
  (∀ (s : State) (dt : Nat) (m : Chip) (p : Nat) (z : Chip × Nat) (g : Nat × Nat), Now s dt m → p < Config.purlinPorts → m.purState
       p = 3 → 2 ^ 61 ≤ (m.purPort p).txCtr → (m.purPort p).txSwitch = none → z = (m.draw.2, m.draw.1) → g = ((m.purPort p).gen + 1,
       (m.purPort p).txCtr + 1 + z.2 % 2 ^ 32) → Does (.purlinRekey dt p) s ((z.1.setPurPort p
       { m.purPort p with txSwitch := some g }).linkSend p { rekey := some g })) ∧
  (∀ (s : State) (dt : Nat) (m : Chip) (p : Nat) (z : Chip × Nat) (g : Nat × Nat), Now s dt m → p < Config.purlinPorts → m.purState
       p = 3 → 2 ^ 61 ≤ (m.purPort p).txCtr → (m.purPort p).txSwitch = none → z = (m.draw.2, m.draw.1) → g = ((m.purPort p).gen + 1,
       (m.purPort p).txCtr + 1 + z.2 % 2 ^ 32) → ∃ t, exec (.purlinRekey dt p) s = .next t ∧ t.pending = s.pending ∧ (t.m.purPort
       p).txSwitch = some g) ∧
  (∀ (s : State) (dt : Nat) (m : Chip) (p : Nat), Now s dt m → p < Config.purlinPorts → m.purAlive p = true → Does (.purlinPortDown
       dt p 0) s ((m.setFlag (F.PUR_STAT_los p)).purDown p)) ∧
  (∀ (s : State) (dt : Nat) (m : Chip) (p : Nat), Now s dt m → p < Config.purlinPorts → m.purAlive p = true → tabWf {}
       m.purlin.ports = true → Canon m → ∃ t, exec (.purlinPortDown dt p 0) s = .next t ∧ t.pending = s.pending ∧ (t.m.purPort
       p).helloOk = false) ∧
  (∀ (s : State) (dt : Nat) (m : Chip) (p : Nat), Now s dt m → p < Config.purlinPorts → m.purAlive p = true → Does (.purlinPortDown
       dt p 1) s ((m.setFlag (F.PUR_STAT_lol p)).purDown p)) ∧
  (∀ (s : State) (dt : Nat) (m : Chip) (p : Nat), Now s dt m → p < Config.purlinPorts → m.purAlive p = true → tabWf {}
       m.purlin.ports = true → Canon m → ∃ t, exec (.purlinPortDown dt p 1) s = .next t ∧ t.pending = s.pending ∧ (t.m.purPort
       p).helloOk = false) ∧
  (∀ (s : State) (dt : Nat) (m : Chip) (p : Nat), Now s dt m → p < Config.purlinPorts → m.purAlive p = true → Does (.purlinPortDown
       dt p 2) s ((m.setFlag (F.PUR_STAT_cw_lost p)).purDown p)) ∧
  (∀ (s : State) (dt : Nat) (m : Chip) (p : Nat), Now s dt m → p < Config.purlinPorts → m.purAlive p = true → tabWf {}
       m.purlin.ports = true → Canon m → ∃ t, exec (.purlinPortDown dt p 2) s = .next t ∧ t.pending = s.pending ∧ (t.m.purPort
       p).helloOk = false) ∧
  (∀ (s : State) (dt : Nat) (m : Chip) (p : Nat) (l : List Nat) (x : Chip), Now s dt m → p < Config.purlinPorts → m.purAlive p =
       true → (l = ((m.purPort p).fecTimes.filter fun t => decide (m.now < t + 1000000)) ++ [m.now]) → (m.purPort p).run = 3 → x =
       ((m.setPurPort p { m.purPort p with fecTimes := l, run := 4, resync := true }).setFlag (F.PUR_STAT_fec_uncorr p)).bump
       (R.PUR_CNT_UNCORR p) → Does (.uncorrectableCodeword dt p true) s ((x.setFlag (F.PUR_STAT_cw_lost p)).purDown p)) ∧
  (∀ (s : State) (dt : Nat) (m : Chip) (p : Nat) (l : List Nat) (x : Chip), Now s dt m → p < Config.purlinPorts → m.purAlive p =
       true → (l = ((m.purPort p).fecTimes.filter fun t => decide (m.now < t + 1000000)) ++ [m.now]) → l.length ≤ max 1 (m.get
       (F.PUR_FEC_CFG_fec_limit p)) → x = ((m.setPurPort p { m.purPort p with fecTimes := l, run := 1, resync := true }).setFlag
       (F.PUR_STAT_fec_uncorr p)).bump (R.PUR_CNT_UNCORR p) → Does (.uncorrectableCodeword dt p false) s x) ∧
  (∀ (s : State) (dt : Nat) (m : Chip) (p : Nat) (l : List Nat) (x : Chip), Now s dt m → p < Config.purlinPorts → m.purAlive p =
       true → (l = ((m.purPort p).fecTimes.filter fun t => decide (m.now < t + 1000000)) ++ [m.now]) → l.length ≤ max 1 (m.get
       (F.PUR_FEC_CFG_fec_limit p)) → x = ((m.setPurPort p { m.purPort p with fecTimes := l, run := 1, resync := true }).setFlag
       (F.PUR_STAT_fec_uncorr p)).bump (R.PUR_CNT_UNCORR p) → ∃ t, exec (.uncorrectableCodeword dt p false) s = .next t ∧ t.pending
       = s.pending ∧ (t.m.purPort p).run = 1 ∧ (t.m.purPort p).resync = true ∧ (t.m.purPort p).fecTimes = l) ∧
  (∀ (s : State) (dt : Nat) (m : Chip) (p : Nat), Now s dt m → p < Config.purlinPorts → m.mayIdle p = true → (m.purPort p).grant =
       true → Does (.lpiEntry dt p) s (m.purSleep p)) ∧
  (∀ (s : State) (dt : Nat) (m : Chip) (p : Nat), Now s dt m → p < Config.purlinPorts → m.mayIdle p = true → (m.purPort p).grant =
       true → ∃ t, exec (.lpiEntry dt p) s = .next t ∧ t.pending = s.pending ∧ t.m.purState p = 5) ∧
  (∀ (s : State) (dt : Nat) (m : Chip) (p : Nat), Now s dt m → p < Config.purlinPorts → m.mayIdle p = true → (m.purPort p).grant =
       false → Does (.lpiEntry dt p) s (m.linkSend p { lpiReq := true })) ∧
  (∀ (s : State) (dt : Nat) (m : Chip) (p : Nat), Now s dt m → p < Config.purlinPorts → m.mayIdle p = true → (m.purPort p).grant =
       false → ∃ t, exec (.lpiEntry dt p) s = .next t ∧ t.pending = s.pending ∧ (t.m.purPort p).txCtr = (m.purPort p).txCtr + 1) ∧
  (∀ (s : State) (dt : Nat) (m : Chip) (p : Nat), Now s dt m → p < Config.purlinPorts → m.mayIdle p = false → Does (.lpiEntry dt p)
       s m) ∧
  (∀ (s : State) (dt : Nat) (m : Chip) (p : Nat) (skew : Int) (relock busy : Bool), Now s dt m → p < Config.purlinPorts → m.purState
       p = 5 → m.wakeBay p = true → (2000 < skew ∨ relock = false) → Does (.wakeWindow dt p skew relock busy) s (m.guardMiss p)) ∧
  (∀ (s : State) (dt : Nat) (m : Chip) (p : Nat) (skew : Int) (relock busy : Bool), Now s dt m → p < Config.purlinPorts → m.purState
       p = 5 → m.wakeBay p = true → (2000 < skew ∨ relock = false) → ∃ t, exec (.wakeWindow dt p skew relock busy) s = .next t ∧
       t.pending = s.pending ∧ (t.m.purPort p).misses = (m.purPort p).misses + 1) ∧
  (∀ (s : State) (dt : Nat) (m : Chip) (p : Nat) (skew : Int), Now s dt m → p < Config.purlinPorts → m.purState p = 5 → m.wakeBay p
       = true → skew ≤ 2000 → (m.purPort p).txq = [] → m.purPlanned p = false → Does (.wakeWindow dt p skew true false) s ((((m.put
       F.TM_WAKE_SKEW_port p).put F.TM_WAKE_SKEW_miss 0).put F.TM_WAKE_SKEW_skew (unsignedOf 25 (clampI (-(2 ^ 24)) (2 ^ 24 - 1)
       skew))).linkSend p { busy := false })) ∧
  (∀ (s : State) (dt : Nat) (m : Chip) (p : Nat) (skew : Int), Now s dt m → p < Config.purlinPorts → m.purState p = 5 → m.wakeBay p
       = true → skew ≤ 2000 → (m.purPort p).txq = [] → m.purPlanned p = false → ∃ t, exec (.wakeWindow dt p skew true false) s =
       .next t ∧ t.pending = s.pending ∧ (t.m.purPort p).txCtr = (m.purPort p).txCtr + 1) ∧
  (∀ (s : State) (dt : Nat) (m : Chip) (p : Nat) (skew : Int) (y : Chip), Now s dt m → p < Config.purlinPorts → m.purState p = 5 →
       m.wakeBay p = true → skew ≤ 2000 → y = (((m.put F.TM_WAKE_SKEW_port p).put F.TM_WAKE_SKEW_miss 0).put F.TM_WAKE_SKEW_skew
       (unsignedOf 25 (clampI (-(2 ^ 24)) (2 ^ 24 - 1) skew))).linkSend p { busy := (!(m.purPort p).txq.isEmpty || m.purPlanned p) }
       → Does (.wakeWindow dt p skew true true) s (((y.modPurPort p fun s => { s with upAt := m.now, lastTx := m.now }).setPurState
       p 3).purFlush p)) ∧
  (∀ (s : State) (dt : Nat) (m : Chip) (p : Nat) (skew : Int) (y : Chip), Now s dt m → p < Config.purlinPorts → m.purState p = 5 →
       m.wakeBay p = true → skew ≤ 2000 → y = (((m.put F.TM_WAKE_SKEW_port p).put F.TM_WAKE_SKEW_miss 0).put F.TM_WAKE_SKEW_skew
       (unsignedOf 25 (clampI (-(2 ^ 24)) (2 ^ 24 - 1) skew))).linkSend p { busy := (!(m.purPort p).txq.isEmpty || m.purPlanned p) }
       → (m.purPort p).txq = [] → 0 < m.now → ∃ t, exec (.wakeWindow dt p skew true true) s = .next t ∧ t.pending = s.pending ∧
       t.m.purState p = 3) ∧
  (∀ (s : State) (dt : Nat) (m : Chip) (p : Nat), Now s dt m → p < Config.purlinPorts → m.purState p = 5 → m.wakeBay p = true → 2000
       ≤ m.coreCycle → Does (.guardMiss dt p) s (m.guardMiss p)) ∧
  (∀ (s : State) (dt : Nat) (m : Chip) (p : Nat), Now s dt m → p < Config.purlinPorts → m.purState p = 5 → m.wakeBay p = true → 2000
       ≤ m.coreCycle → ∃ t, exec (.guardMiss dt p) s = .next t ∧ t.pending = s.pending ∧ (t.m.purPort p).misses = (m.purPort
       p).misses + 1) ∧
  (∀ (s : State) (dt : Nat) (m : Chip) (p : Nat), Now s dt m → p < Config.purlinPorts → Does (.lpiReenable dt p) s ((m.put
       (F.PUR_STAT_lpi_disabled p) 0).modPurPort p fun s => { s with misses := 0 })) ∧
  (∀ (s : State) (dt : Nat) (m : Chip) (p : Nat), Now s dt m → p < Config.purlinPorts → (m.purPort p).keyed = true → ∃ t, exec
       (.lpiReenable dt p) s = .next t ∧ t.pending = s.pending ∧ (t.m.purPort p).misses = 0)

/-- A capture command of an active head stages, with the features it reads, the objects of the pair's pending groups that
qualify; a lock-step follower, an invalid pair or an inactive head captures nothing. A label of a sample in the labelled set
replaces its label and clears its exclusion; one of a sample in the ring moves it into the set, in ascending sample_id, while
the set has room; an exclusion marks it. A label outside the head's classes is refused. (R544, R545, R547) -/
def Obligations.SamplesAreCapturedAndLabelled : Prop :=
  (∀ (s : State) (dt : Nat) (m : Chip) (h k : Nat) (r : HeadRec) (feats : List ((Nat × Nat × Nat) × List Byte)) (l : List Sample),
       Now s dt m → h < 8 → m.headRec h = some r → m.bays.running = true → k + m.depth = m.bay + 1 → m.follower = false → m.headKind
       h ≠ 0 → m.pairInvalid r.job k = false → m.processes r.job k = true → (l = (m.pp.pending.filter fun g => g.job == r.job &&
       g.closeBay == k && g.kind == 0).flatMap fun g => (g.objs.filter (captures r g)).map fun e =>
       { head := h, closeBay := k, strip := g.strip, objId := e.objId, stream := g.stream, cls := e.cls, epoch := m.get F.CM_KEY_key_epoch, feats := ((feats.find? fun f => f.1 == (g.stream, g.strip, e.objId)).map (·.2)).getD [] })
       → Does (.sampleCapture dt h feats) s (m.setHead h { m.head h with staging := (m.head h).staging ++ l })) ∧
  (∀ (s : State) (dt : Nat) (m : Chip) (h k : Nat) (r : HeadRec) (feats : List ((Nat × Nat × Nat) × List Byte)) (l : List Sample),
       Now s dt m → h < 8 → m.headRec h = some r → m.bays.running = true → k + m.depth = m.bay + 1 → m.follower = false → m.headKind
       h ≠ 0 → m.pairInvalid r.job k = false → m.processes r.job k = true → (l = (m.pp.pending.filter fun g => g.job == r.job &&
       g.closeBay == k && g.kind == 0).flatMap fun g => (g.objs.filter (captures r g)).map fun e =>
       { head := h, closeBay := k, strip := g.strip, objId := e.objId, stream := g.stream, cls := e.cls, epoch := m.get F.CM_KEY_key_epoch, feats := ((feats.find? fun f => f.1 == (g.stream, g.strip, e.objId)).map (·.2)).getD [] })
       → l ≠ [] → ∃ t, exec (.sampleCapture dt h feats) s = .next t ∧ t.pending = s.pending ∧ (t.m.head h).staging = (m.head
       h).staging ++ l) ∧
  (∀ (s : State) (dt : Nat) (m : Chip) (h : Nat) (r : HeadRec) (feats : List ((Nat × Nat × Nat) × List Byte)), Now s dt m → h < 8 →
       m.headRec h = some r → (m.bays.running = false ∨ m.follower = true ∨ m.headKind h = 0) → Does (.sampleCapture dt h feats) s m) ∧
  (∀ (s : State) (dt : Nat) (m : Chip) (session h id c : Nat) (x : Chip) (v : Session) (r : HeadRec), Now s dt m → h < 8 → x =
       m.touch session → x.session session = some v → v.level ≠ 0 → x.headRec h = some r → x.headKind h ≠ 0 → x.dOut h ≤ c → Does
       (.label dt session h id (some c)) s (x.answer session "status" [5])) ∧
  (∀ (s : State) (dt : Nat) (m : Chip) (session h id c : Nat) (x : Chip) (v : Session) (r : HeadRec), Now s dt m → h < 8 → x =
       m.touch session → x.session session = some v → v.level ≠ 0 → x.headRec h = some r → x.headKind h ≠ 0 → c < x.dOut h →
       (((x.head h).labelled.any fun y => y.id == id) = true) → Does (.label dt session h id (some c)) s (((x.setHead h
       { x.head h with labelled := (x.head h).labelled.map fun y => if y.id = id then { y with label := some c, excluded := false } else y }).storeLabel
       h id).answer session "status" [0])) ∧
  (∀ (s : State) (dt : Nat) (m : Chip) (session h id c : Nat) (x : Chip) (v : Session) (r : HeadRec), Now s dt m → h < 8 → x =
       m.touch session → x.session session = some v → v.level ≠ 0 → x.headRec h = some r → x.headKind h ≠ 0 → c < x.dOut h →
       (((x.head h).labelled.any fun y => y.id == id) = true) → ∃ t, exec (.label dt session h id (some c)) s = .next t ∧ t.pending
       = s.pending ∧ (t.m.head h).labelled = (x.head h).labelled.map (fun y => if y.id = id then
       { y with label := some c, excluded := false } else y)) ∧
  (∀ (s : State) (dt : Nat) (m : Chip) (session h id c : Nat) (x : Chip) (v : Session) (r : HeadRec) (u : Sample), Now s dt m → h <
       8 → x = m.touch session → x.session session = some v → v.level ≠ 0 → x.headRec h = some r → x.headKind h ≠ 0 → c < x.dOut h →
       (((x.head h).labelled.any fun y => y.id == id) = false) → (((x.head h).ring.find? fun y => y.id == id) = some u) → (x.head
       h).labelled.length < r.nLab → Does (.label dt session h id (some c)) s (((x.setHead h
       { x.head h with labelled := insertBy (fun p q => decide (p.id ≤ q.id)) { u with label := some c } (x.head h).labelled, ring := (x.head h).ring.map fun y => if y.id = id then { y with label := some c } else y }).storeLabel
       h id).answer session "status" [0])) ∧
  (∀ (s : State) (dt : Nat) (m : Chip) (session h id c : Nat) (x : Chip) (v : Session) (r : HeadRec) (u : Sample), Now s dt m → h <
       8 → x = m.touch session → x.session session = some v → v.level ≠ 0 → x.headRec h = some r → x.headKind h ≠ 0 → c < x.dOut h →
       (((x.head h).labelled.any fun y => y.id == id) = false) → (((x.head h).ring.find? fun y => y.id == id) = some u) → (x.head
       h).labelled.length < r.nLab → ∃ t, exec (.label dt session h id (some c)) s = .next t ∧ t.pending = s.pending ∧ (t.m.head
       h).labelled = insertBy (fun p q => decide (p.id ≤ q.id)) { u with label := some c } (x.head h).labelled) ∧
  (∀ (s : State) (dt : Nat) (m : Chip) (session h id : Nat) (x : Chip) (v : Session) (r : HeadRec), Now s dt m → h < 8 → x = m.touch
       session → x.session session = some v → v.level ≠ 0 → x.headRec h = some r → x.headKind h ≠ 0 → (((x.head h).labelled.any fun
       y => y.id == id) = true) → Does (.label dt session h id none) s (((x.setHead h
       { x.head h with labelled := (x.head h).labelled.map fun y => if y.id = id then { y with excluded := true } else y }).storeLabel
       h id).answer session "status" [0])) ∧
  (∀ (s : State) (dt : Nat) (m : Chip) (session h id : Nat) (x : Chip) (v : Session) (r : HeadRec), Now s dt m → h < 8 → x = m.touch
       session → x.session session = some v → v.level ≠ 0 → x.headRec h = some r → x.headKind h ≠ 0 → (((x.head h).labelled.any fun
       y => y.id == id) = true) → ∃ t, exec (.label dt session h id none) s = .next t ∧ t.pending = s.pending ∧ (t.m.head
       h).labelled = (x.head h).labelled.map (fun y => if y.id = id then { y with excluded := true } else y))

/-- An admitted start of an idle head with settings in range begins a run from the serving weights, quantised weights read as
FP32, with zero momentum. A step of the run updates the weights from the batch's slots, is counted, and advances step and epoch;
an empty training list ends the run with its candidate. A stop is due at the next step. An approval that names the candidate and
the running stick is stored and due two bays later; a revert commits the stick's own weights. The commit command in the bay
before the boundary writes the weights, is logged and clears the due commit. A class prompt makes a candidate in which only its
row differs. (R548, R549, R550, R551, R553, R554, R558) -/
def Obligations.HeadsAreTrainedAndCommitted : Prop :=
  (∀ (s : State) (dt : Nat) (m : Chip) (a : Auth) (v : Session) (h seed epochs n : Nat) (er : ReadErrs) (o : TrainOpts) (r :
       HeadRec) (t0 : TrainRun) (x : Chip) (q : Nat → Nat), Now s dt m → Admitted m [3] false false a v → h < 8 → m.headRec h = some
       r → (m.head h).run = none → m.headKind h ≠ 0 → epochs ≠ 0 → epochs ≤ 1000 → runOk (runOf (o.adam.getD (m.flag
       (F.ADAPT_CFG_opt h))) (seed % 2 ^ 64) epochs o r) = true → x = ((consumed a v m).acceptCmd a) → x.headKind h ≠ 0 → t0 = runOf
       (o.adam.getD (x.flag (F.ADAPT_CFG_opt h))) (seed % 2 ^ 64) epochs o r → runOk t0 = true → n = x.headWeights h r → q =
       servingWeight r n (x.readMem er (hbmAddr r.wAddr) (servingBytes r.fmt n)) → Does (.trainStart dt a h seed epochs o false er)
       s ((((x.hbmErrs er).setHead h
       { m.head h with run := some { t0 with vs := List.replicate n 0, ms := List.replicate n 0 }, master := (upTo n).map q }).put
       (F.ADAPT_STAT_epoch h) 0).showHead h)) ∧
  (∀ (s : State) (dt : Nat) (m : Chip) (a : Auth) (v : Session) (h seed epochs n : Nat) (er : ReadErrs) (o : TrainOpts) (r :
       HeadRec) (t0 : TrainRun) (x : Chip) (q : Nat → Nat), Now s dt m → Admitted m [3] false false a v → h < 8 → m.headRec h = some
       r → (m.head h).run = none → m.headKind h ≠ 0 → epochs ≠ 0 → epochs ≤ 1000 → runOk (runOf (o.adam.getD (m.flag
       (F.ADAPT_CFG_opt h))) (seed % 2 ^ 64) epochs o r) = true → x = ((consumed a v m).acceptCmd a) → x.headKind h ≠ 0 → t0 = runOf
       (o.adam.getD (x.flag (F.ADAPT_CFG_opt h))) (seed % 2 ^ 64) epochs o r → runOk t0 = true → n = x.headWeights h r → q =
       servingWeight r n (x.readMem er (hbmAddr r.wAddr) (servingBytes r.fmt n)) → ∃ t, exec (.trainStart dt a h seed epochs o false
       er) s = .next t ∧ t.pending = s.pending ∧ (t.m.head h).run = some
       { t0 with vs := List.replicate n 0, ms := List.replicate n 0 } ∧ (t.m.head h).master = (upTo n).map q) ∧
  (∀ (s : State) (dt : Nat) (m : Chip) (h j : Nat) (l : List (Nat × Nat)) (ce : List Nat) (r : HeadRec) (t0 u : TrainRun), Now s dt
       m → h < 8 → m.headRec h = some r → (m.head h).run = some t0 → m.adaptJob = some j → u = (if t0.frozen.isSome then t0 else
       nextEpoch (m.get (F.ADAPT_CFG_val_16 h)) (m.head h).labelled (t0.epochs + 1) t0) → trainList u.seed (m.get
       (F.ADAPT_CFG_val_16 h)) (u.frozen.getD []) = [] → Does (.trainingStep dt h l ce) s (m.endRun h r u)) ∧
  (∀ (s : State) (dt : Nat) (m : Chip) (h j : Nat) (l : List (Nat × Nat)) (ce : List Nat) (r : HeadRec) (t0 u : TrainRun), Now s dt
       m → h < 8 → m.headRec h = some r → (m.head h).run = some t0 → m.adaptJob = some j → u = (if t0.frozen.isSome then t0 else
       nextEpoch (m.get (F.ADAPT_CFG_val_16 h)) (m.head h).labelled (t0.epochs + 1) t0) → trainList u.seed (m.get
       (F.ADAPT_CFG_val_16 h)) (u.frozen.getD []) = [] → ∃ t, exec (.trainingStep dt h l ce) s = .next t ∧ t.pending = s.pending ∧
       (t.m.head h).cand = some (Config.sha384 (serveBytes r (m.head h).master), serveBytes r (m.head h).master)) ∧
  (∀ (s : State) (dt : Nat) (m : Chip) (h j b : Nat) (ce : List Nat) (r : HeadRec) (t0 t1 u : TrainRun) (w : List Nat) (list : List
       Sample) (slots : List (Option Sample)) (x : Chip), Now s dt m → h < 8 → m.headRec h = some r → (m.head h).run = some t0 →
       m.adaptJob = some j → t0.frozen.isSome = true → list = trainList t0.seed (m.get (F.ADAPT_CFG_val_16 h)) (t0.frozen.getD []) →
       b = m.get (F.ADAPT_CFG_batch h) → (t0.step + 1) * b < list.length → t0.stopDue = false → t0.epoch < t0.epochs → (slots =
       batchSlots t0 b list (fun s => !(m.head h).labelled.any fun y => y.id == s.id) []) → stepWeights (m.headKind h) t0 (m.head
       h).master slots = (t1, w) → u = { t1 with step := t0.step + 1 } → u.stopDue = false → u.epoch < u.epochs → x = ((m.cmErrs
       { cmCe := ce, cmUe := [] }).setHead h { m.head h with run := some u, master := w }).stepDone j → Does (.trainingStep dt h []
       ce) s ((((x.bump (R.ADAPT_CNT_STEP h)).bumpBy (R.ADAPT_CNT_SKIP h) 0).setFlagIf (!((upTo b).filter fun i => decide (t0.step *
       b + i < list.length) && (slots.getD i none).isNone).isEmpty) (F.ADAPT_STAT_masked h)).put (F.ADAPT_STAT_epoch h) (min 1023
       u.epoch))) ∧
  (∀ (s : State) (dt : Nat) (m : Chip) (h j b : Nat) (ce : List Nat) (r : HeadRec) (t0 t1 u : TrainRun) (w : List Nat) (list : List
       Sample) (slots : List (Option Sample)) (x : Chip), Now s dt m → h < 8 → m.headRec h = some r → (m.head h).run = some t0 →
       m.adaptJob = some j → t0.frozen.isSome = true → list = trainList t0.seed (m.get (F.ADAPT_CFG_val_16 h)) (t0.frozen.getD []) →
       b = m.get (F.ADAPT_CFG_batch h) → (t0.step + 1) * b < list.length → t0.stopDue = false → t0.epoch < t0.epochs → (slots =
       batchSlots t0 b list (fun s => !(m.head h).labelled.any fun y => y.id == s.id) []) → stepWeights (m.headKind h) t0 (m.head
       h).master slots = (t1, w) → u = { t1 with step := t0.step + 1 } → u.stopDue = false → u.epoch < u.epochs → x = ((m.cmErrs
       { cmCe := ce, cmUe := [] }).setHead h { m.head h with run := some u, master := w }).stepDone j → ∃ t, exec (.trainingStep dt
       h [] ce) s = .next t ∧ t.pending = s.pending ∧ (t.m.head h).run = some u ∧ (t.m.head h).master = w) ∧
  (∀ (s : State) (dt : Nat) (m : Chip) (h : Nat) (t0 : TrainRun), Now s dt m → h < 8 → Does (.adaptStop dt h) s (m.setHead h
       { m.head h with run := (m.head h).run.map fun t => { t with stopDue := true } })) ∧
  (∀ (s : State) (dt : Nat) (m : Chip) (h : Nat) (t0 : TrainRun), Now s dt m → h < 8 → (m.head h).run = some t0 → ∃ t, exec
       (.adaptStop dt h) s = .next t ∧ t.pending = s.pending ∧ (t.m.head h).run = some { t0 with stopDue := true }) ∧
  (∀ (s : State) (dt : Nat) (m : Chip) (a : Auth) (v : Session) (h hash : Nat) (c : Nat × List Byte) (x : Chip), Now s dt m →
       Admitted m [3] true false a v → h < 8 → (m.head h).cand = some c → c.1 = hash → m.stick.loaded = true → x = ((consumed a v
       m).acceptCmd a) → Does (.approveHead dt a h hash m.stick.hash) s ((x.setHead h
       { m.head h with due := some (x.bay + 2, { hash, weights := some c.2, stick := m.stick.hash }), stored := some { hash, weights := some c.2, stick := m.stick.hash } }).showHead
       h)) ∧
  (∀ (s : State) (dt : Nat) (m : Chip) (a : Auth) (v : Session) (h hash : Nat) (c : Nat × List Byte) (x : Chip), Now s dt m →
       Admitted m [3] true false a v → h < 8 → (m.head h).cand = some c → c.1 = hash → m.stick.loaded = true → x = ((consumed a v
       m).acceptCmd a) → ∃ t, exec (.approveHead dt a h hash m.stick.hash) s = .next t ∧ t.pending = s.pending ∧ (t.m.head h).due =
       some (x.bay + 2, { hash, weights := some c.2, stick := m.stick.hash }) ∧ (t.m.head h).stored = some
       { hash, weights := some c.2, stick := m.stick.hash }) ∧
  (∀ (s : State) (dt : Nat) (m : Chip) (a : Auth) (v : Session) (h : Nat) (r : HeadRec) (x : Chip), Now s dt m → Admitted m [3] true
       false a v → h < 8 → m.headRec h = some r → x = ((consumed a v m).acceptCmd a) → Does (.revertHead dt a h) s ((x.setHead h
       { m.head h with due := some (x.bay + 2, { hash := 0, weights := none, stick := m.stick.hash }), stored := none }).showHead h)) ∧
  (∀ (s : State) (dt : Nat) (m : Chip) (a : Auth) (v : Session) (h : Nat) (r : HeadRec) (x : Chip), Now s dt m → Admitted m [3] true
       false a v → h < 8 → m.headRec h = some r → x = ((consumed a v m).acceptCmd a) → ∃ t, exec (.revertHead dt a h) s = .next t ∧
       t.pending = s.pending ∧ (t.m.head h).due = some (x.bay + 2, { hash := 0, weights := none, stick := m.stick.hash }) ∧
       (t.m.head h).stored = none) ∧
  (∀ (s : State) (dt : Nat) (m : Chip) (h b : Nat) (r : HeadRec) (ap : Approval), Now s dt m → h < 8 → m.headRec h = some r →
       (m.head h).due = some (b, ap) → m.bays.running = true → b ≤ m.bay + 1 → Does (.adaptCommit dt h) s ((((m.commitHead h r
       ap).log "commit" [h, b]).setHead h { m.head h with due := none }).showHead h)) ∧
  (∀ (s : State) (dt : Nat) (m : Chip) (h b : Nat) (r : HeadRec) (ap : Approval), Now s dt m → h < 8 → m.headRec h = some r →
       (m.head h).due = some (b, ap) → m.bays.running = true → b ≤ m.bay + 1 → (m.head h).stored ≠ none → ∃ t, exec (.adaptCommit dt
       h) s = .next t ∧ t.pending = s.pending ∧ (t.m.head h).due = none ∧ (t.m.head h).stored = (m.head h).stored) ∧
  (∀ (s : State) (dt : Nat) (m : Chip) (h b : Nat) (r : HeadRec) (ap : Approval), Now s dt m → h < 8 → m.headRec h = some r →
       (m.head h).due = some (b, ap) → (m.bays.running = false ∨ m.bay + 1 < b) → Does (.adaptCommit dt h) s m) ∧
  (∀ (s : State) (dt : Nat) (m : Chip) (a : Auth) (v : Session) (h c n : Nat) (er : ReadErrs) (text : List Byte) (r : HeadRec) (x :
       Chip) (q : Nat → Nat), Now s dt m → Admitted m [3] false false a v → h < 8 → m.headRec h = some r → (m.head h).run = none →
       m.headKind h = 1 → m.flag (F.ADAPT_CFG_prompted h) = true → c < m.dOut h → text.length ≤ 1024 → x = ((consumed a v
       m).acceptCmd a) → x.headKind h = 1 → x.flag (F.ADAPT_CFG_prompted h) = true → c < x.dOut h → n = x.headWeights h r → q =
       servingWeight r n (x.readMem er (hbmAddr r.wAddr) (servingBytes r.fmt n)) → Does (.classPrompt dt a h c text er) s
       ((x.hbmErrs er).formCandidate h r (m.head h).labelled (((upTo n).map q).zipIdx.map fun p => if r.dIn * c ≤ p.2 ∧ p.2 < r.dIn
       * (c + 1) then Config.promptRow Config.ucodeLevel h text (p.2 - r.dIn * c) % 2 ^ 32 else p.1))) ∧
  (∀ (s : State) (dt : Nat) (m : Chip) (a : Auth) (v : Session) (h c n : Nat) (er : ReadErrs) (text : List Byte) (r : HeadRec) (x :
       Chip) (q : Nat → Nat), Now s dt m → Admitted m [3] false false a v → h < 8 → m.headRec h = some r → (m.head h).run = none →
       m.headKind h = 1 → m.flag (F.ADAPT_CFG_prompted h) = true → c < m.dOut h → text.length ≤ 1024 → x = ((consumed a v
       m).acceptCmd a) → x.headKind h = 1 → x.flag (F.ADAPT_CFG_prompted h) = true → c < x.dOut h → n = x.headWeights h r → q =
       servingWeight r n (x.readMem er (hbmAddr r.wAddr) (servingBytes r.fmt n)) → ∃ t, exec (.classPrompt dt a h c text er) s =
       .next t ∧ t.pending = s.pending ∧ ∃ (l : List Nat), (t.m.head h).cand = some (Config.sha384 (serveBytes r l), serveBytes r l)
       ∧ l = (((upTo n).map q).zipIdx.map fun p => if r.dIn * c ≤ p.2 ∧ p.2 < r.dIn * (c + 1) then Config.promptRow
       Config.ucodeLevel h text (p.2 - r.dIn * c) % 2 ^ 32 else p.1))

/-- An operator's question within its limits, of valid text, to a job with fewer than 16 waiting and room for prompt, evidence
and answer, is queued with its tokens and answered with its number; another is refused, counted, with its status code. A
cancelled question ends with stop reason 3. A step of an enabled text job appends the token chosen from the logits: an end token
ends the answer with reason 0, the last allowed one with reason 1, a full cache with reason 2; otherwise the text complete on a
character boundary is released as the next chunk. (R50, R556, R557, R559, R560) -/
def Obligations.QuestionsAreAnswered : Prop :=
  (∀ (s : State) (dt : Nat) (m : Chip) (session j evidence maxNew temp topK seed : Nat) (text : List Byte) (x : Chip) (v : Session)
       (r : TextRec), Now s dt m → j < Config.jobs → x = m.touch session → x.session session = some v → v.level ≠ 0 → x.textRec j =
       some r → maxNew ≠ 0 → maxNew ≤ 4096 → topK ≠ 0 → topK ≤ 256 → evidence ≤ 8 → inRange temp ⟨0, 1⟩ ⟨2, 1⟩ = true → text.length
       ≤ 65536 → utf8Valid text.length text = true → (x.queriesOf j).length < 16 → (r.before ++ tokenise r.dict text.length text ++
       r.after).length + evidence * r.evidence + maxNew ≤ r.capacity → Does (.question dt session j text evidence maxNew temp topK
       seed) s (((x.onText fun t =>
       { queries := t.queries ++ [(j, { id := x.text.nextId, session, prompt := r.before ++ tokenise r.dict text.length text ++ r.after, maxNew, temp, topK, seed := seed % 2 ^ 64, evidence := evidence * r.evidence })], nextId := t.nextId + 1 }).showText).answer
       session "query" [x.text.nextId])) ∧
  (∀ (s : State) (dt : Nat) (m : Chip) (session j evidence maxNew temp topK seed : Nat) (text : List Byte) (x : Chip) (v : Session)
       (r : TextRec), Now s dt m → j < Config.jobs → x = m.touch session → x.session session = some v → v.level ≠ 0 → x.textRec j =
       some r → maxNew ≠ 0 → maxNew ≤ 4096 → topK ≠ 0 → topK ≤ 256 → evidence ≤ 8 → inRange temp ⟨0, 1⟩ ⟨2, 1⟩ = true → text.length
       ≤ 65536 → utf8Valid text.length text = true → (x.queriesOf j).length < 16 → (r.before ++ tokenise r.dict text.length text ++
       r.after).length + evidence * r.evidence + maxNew ≤ r.capacity → ∃ t, exec (.question dt session j text evidence maxNew temp
       topK seed) s = .next t ∧ t.pending = s.pending ∧ t.m.text.queries = x.text.queries ++ [(j,
       { id := x.text.nextId, session, prompt := r.before ++ tokenise r.dict text.length text ++ r.after, maxNew, temp, topK, seed := seed % 2 ^ 64, evidence := evidence * r.evidence })]
       ∧ t.m.text.nextId = x.text.nextId + 1) ∧
  (∀ (s : State) (dt : Nat) (m : Chip) (session j evidence maxNew temp topK seed : Nat) (text : List Byte) (x : Chip) (v : Session)
       (r : TextRec), Now s dt m → j < Config.jobs → x = m.touch session → x.session session = some v → v.level ≠ 0 → x.textRec j =
       some r → maxNew ≠ 0 → maxNew ≤ 4096 → topK ≠ 0 → topK ≤ 256 → evidence ≤ 8 → inRange temp ⟨0, 1⟩ ⟨2, 1⟩ = true → text.length
       ≤ 65536 → utf8Valid text.length text = false → Does (.question dt session j text evidence maxNew temp topK seed) s ((x.bump
       R.TXT_CNT_REFUSED).answer session "status" [8])) ∧
  (∀ (s : State) (dt : Nat) (m : Chip) (session j evidence maxNew temp topK seed : Nat) (text : List Byte) (x : Chip) (v : Session)
       (r : TextRec), Now s dt m → j < Config.jobs → x = m.touch session → x.session session = some v → v.level ≠ 0 → x.textRec j =
       some r → maxNew ≠ 0 → maxNew ≤ 4096 → topK ≠ 0 → topK ≤ 256 → evidence ≤ 8 → inRange temp ⟨0, 1⟩ ⟨2, 1⟩ = true → text.length
       ≤ 65536 → utf8Valid text.length text = true → 16 ≤ (x.queriesOf j).length → Does (.question dt session j text evidence maxNew
       temp topK seed) s ((x.bump R.TXT_CNT_REFUSED).answer session "status" [2])) ∧
  (∀ (s : State) (dt : Nat) (m : Chip) (session id : Nat) (x : Chip) (v : Session) (y : Nat × Query), Now s dt m → x = m.touch
       session → x.session session = some v → v.level ≠ 0 → ((x.text.queries.find? fun z => z.2.id == id) = some y) → Does (.cancel
       dt session id) s ((x.endQuery y.1 y.2 3).answer session "status" [0])) ∧
  (∀ (s : State) (dt : Nat) (m : Chip) (session id : Nat) (x : Chip) (v : Session) (y : Nat × Query), Now s dt m → x = m.touch
       session → x.session session = some v → v.level ≠ 0 → ((x.text.queries.find? fun z => z.2.id == id) = some y) → ∃ t, exec
       (.cancel dt session id) s = .next t ∧ t.pending = s.pending ∧ t.m.text.queries = x.text.queries.filter (fun z => !(z.1 == y.1
       && z.2.id == y.2.id))) ∧
  (∀ (s : State) (dt : Nat) (m : Chip) (session id : Nat) (x : Chip) (v : Session), Now s dt m → x = m.touch session → x.session
       session = some v → v.level ≠ 0 → ((x.text.queries.find? fun z => z.2.id == id) = none) → Does (.cancel dt session id) s
       (x.answer session "status" [3])) ∧
  (∀ (s : State) (dt : Nat) (m : Chip) (j : Nat) (logits : List Nat) (r : TextRec) (q : Query) (l : List Query), Now s dt m → j <
       Config.jobs → m.textRec j = some r → m.queriesOf j = q :: l → (m.jobRun j).applied = true → Does (.tokenGenerate dt j logits
       true) s (m.endQuery j q 2)) ∧
  (∀ (s : State) (dt : Nat) (m : Chip) (j : Nat) (logits : List Nat) (r : TextRec) (q : Query) (l : List Query), Now s dt m → j <
       Config.jobs → m.textRec j = some r → m.queriesOf j = q :: l → (m.jobRun j).applied = true → ∃ t, exec (.tokenGenerate dt j
       logits true) s = .next t ∧ t.pending = s.pending ∧ t.m.text.queries = m.text.queries.filter (fun z => !(z.1 == j && z.2.id ==
       q.id))) ∧
  (∀ (s : State) (dt : Nat) (m : Chip) (j id : Nat) (logits : List Nat) (r : TextRec) (q q1 : Query) (l : List Query) (x : Chip),
       Now s dt m → j < Config.jobs → m.textRec j = some r → m.queriesOf j = q :: l → (m.jobRun j).applied = true → id = chooseToken
       q logits → q1 =
       { q with tokens := q.tokens ++ [id], bytes := q.bytes ++ (if (r.dict.getD id ([], true)).2 then [] else (r.dict.getD id ([], true)).1) }
       → (x = (m.onText fun t =>
       { t with queries := t.queries.map fun y => if y.1 = j ∧ y.2.id = q.id then (j, q1) else y }).stepDone j) → r.ends.contains id
       = true → Does (.tokenGenerate dt j logits false) s (x.endQuery j q1 0)) ∧
  (∀ (s : State) (dt : Nat) (m : Chip) (j id : Nat) (logits : List Nat) (r : TextRec) (q q1 : Query) (l : List Query) (x : Chip),
       Now s dt m → j < Config.jobs → m.textRec j = some r → m.queriesOf j = q :: l → (m.jobRun j).applied = true → id = chooseToken
       q logits → q1 =
       { q with tokens := q.tokens ++ [id], bytes := q.bytes ++ (if (r.dict.getD id ([], true)).2 then [] else (r.dict.getD id ([], true)).1) }
       → (x = (m.onText fun t =>
       { t with queries := t.queries.map fun y => if y.1 = j ∧ y.2.id = q.id then (j, q1) else y }).stepDone j) → r.ends.contains id
       = false → q1.maxNew ≤ q1.tokens.length → Does (.tokenGenerate dt j logits false) s (x.endQuery j q1 1)) ∧
  (∀ (s : State) (dt : Nat) (m : Chip) (j id : Nat) (logits : List Nat) (r : TextRec) (q q1 : Query) (l : List Query) (x : Chip),
       Now s dt m → j < Config.jobs → m.textRec j = some r → m.queriesOf j = q :: l → (m.jobRun j).applied = true → id = chooseToken
       q logits → q1 =
       { q with tokens := q.tokens ++ [id], bytes := q.bytes ++ (if (r.dict.getD id ([], true)).2 then [] else (r.dict.getD id ([], true)).1) }
       → (x = (m.onText fun t =>
       { t with queries := t.queries.map fun y => if y.1 = j ∧ y.2.id = q.id then (j, q1) else y }).stepDone j) → r.ends.contains id
       = false → q1.tokens.length < q1.maxNew → (utf8Release q1.bytes.length q1.bytes).1 ≠ [] → Does (.tokenGenerate dt j logits
       false) s (((x.onText fun t =>
       { t with queries := t.queries.map fun y => if y.1 = j ∧ y.2.id = q.id then (j, { q1 with bytes := (utf8Release q1.bytes.length q1.bytes).2, chunks := q1.chunks + 1 }) else y }).chunk
       q1 (utf8Release q1.bytes.length q1.bytes).1 none).showText)) ∧
  (∀ (s : State) (dt : Nat) (m : Chip) (j id : Nat) (logits : List Nat) (r : TextRec) (q q1 : Query) (l : List Query) (x : Chip),
       Now s dt m → j < Config.jobs → m.textRec j = some r → m.queriesOf j = q :: l → (m.jobRun j).applied = true → id = chooseToken
       q logits → q1 =
       { q with tokens := q.tokens ++ [id], bytes := q.bytes ++ (if (r.dict.getD id ([], true)).2 then [] else (r.dict.getD id ([], true)).1) }
       → (x = (m.onText fun t =>
       { t with queries := t.queries.map fun y => if y.1 = j ∧ y.2.id = q.id then (j, q1) else y }).stepDone j) → r.ends.contains id
       = false → q1.tokens.length < q1.maxNew → (utf8Release q1.bytes.length q1.bytes).1 = [] → Does (.tokenGenerate dt j logits
       false) s x.showText) ∧
  (∀ (s : State) (dt : Nat) (m : Chip) (j id : Nat) (logits : List Nat) (r : TextRec) (q q1 : Query) (l : List Query) (x : Chip),
       Now s dt m → j < Config.jobs → m.textRec j = some r → m.queriesOf j = q :: l → (m.jobRun j).applied = true → id = chooseToken
       q logits → q1 =
       { q with tokens := q.tokens ++ [id], bytes := q.bytes ++ (if (r.dict.getD id ([], true)).2 then [] else (r.dict.getD id ([], true)).1) }
       → (x = (m.onText fun t =>
       { t with queries := t.queries.map fun y => if y.1 = j ∧ y.2.id = q.id then (j, q1) else y }).stepDone j) → r.ends.contains id
       = false → q1.tokens.length < q1.maxNew → (utf8Release q1.bytes.length q1.bytes).1 = [] → ∃ t, exec (.tokenGenerate dt j
       logits false) s = .next t ∧ t.pending = s.pending ∧ t.m.text.queries = m.text.queries.map (fun y => if y.1 = j ∧ y.2.id =
       q.id then (j, q1) else y))

/-- A thermal sample takes each sensor's reading; a die without valid reading keeps its registers, and without any reading the
hottest temperature stands. Nine of ten power samples only add to the sums and the energy. A starting fan runs once it shows a
speed after 2 s, with its restarts cleared, and is switched off as blocked after 4 s without one; a running fan shows its speed;
a blocked or stopped one restarts after 10 s. A running fan without tach is switched off as stopped and raises the fan source; a
retry restarts a faulted fan with its restarts cleared. Each then sets the duties of the running fans. (R576, R577, R578, R579,
R585) -/
def Obligations.FansFollowTheirTimers : Prop :=
  (∀ (s : State) (dt : Nat) (m : Chip) (x : Chip), Now s dt m → (x = m.onHk fun h => { h with hottest := h.hottest }) → m.validTemps
       0 8 = [] → m.validTemps 8 16 = [] → Does (.thermalSample dt [] [] []) s x.setDuties) ∧
  (∀ (s : State) (dt : Nat) (m : Chip) (t : Int) (x : Chip), Now s dt m → x = m.sensorRead 0 t → x.validTemps 0 8 = [t] →
       x.validTemps 8 16 = [] → Does (.thermalSample dt [t] [] []) s ((((x.put F.HK_TEMP_sill_max (unsignedOf 8 t)).dieSources
       SrcName.sillThermalWarning SrcName.sillThermalHigh SrcName.sillThermalCritical t).onHk fun h =>
       { h with hottest := t }).setDuties)) ∧
  (∀ (s : State) (dt : Nat) (m : Chip) (sill ridge : List Int) (hbm : List (Int × Bool)) (x : Chip), Now s dt m → (x = forAll
       (ridge.take 16).zipIdx (fun p m => m.sensorRead (8 + p.2) p.1) (forAll (sill.take 8).zipIdx (fun p m => m.sensorRead p.2 p.1)
       m)) → ∃ t, exec (.thermalSample dt sill ridge hbm) s = .next t ∧ t.pending = s.pending ∧ t.m.hk.hottest = (hottestOf
       ((hottestOf (x.validTemps 0 8)).toList ++ (hottestOf (x.validTemps 8 16)).toList ++ hbm.map (·.1))).getD x.hk.hottest ∧
       t.m.hk.sensors = x.hk.sensors) ∧
  (∀ (s : State) (dt : Nat) (m : Chip) (mv ma : Nat), Now s dt m → m.hk.samples + 1 < 10 → Does (.powerSample dt mv ma) s ((m.wr64
       R.HK_ENERGY_LO R.HK_ENERGY_HI ((m.hk.energy + mv * ma) / 10000000000 % 2 ^ 64)).onHk fun h =>
       { h with vSum := m.hk.vSum + mv, iSum := m.hk.iSum + ma, pSum := m.hk.pSum + mv * ma, samples := m.hk.samples + 1, energy := m.hk.energy + mv * ma })) ∧
  (∀ (s : State) (dt : Nat) (m : Chip) (mv ma : Nat), Now s dt m → ∃ t, exec (.powerSample dt mv ma) s = .next t ∧ t.pending =
       s.pending ∧ t.m.hk.energy = m.hk.energy + mv * ma) ∧
  (∀ (s : State) (dt : Nat) (m : Chip) (f r : Nat), Now s dt m → f < 4 → m.fanState f = 1 → (m.fan f).startAt + 2000000000 ≤ m.now →
       Does (.fanTimer dt f (some r)) s (((((m.put (F.HK_FAN_state f) 2).put (F.HK_FAN_rpm f) (min 65535 r)).put (F.HK_FAN_restarts
       f) 0).onHk fun h =>
       { h with fullUntil := if 0 < m.get (F.HK_FAN_restarts f) then m.now + 10000000000 else h.fullUntil }).setDuties)) ∧
  (∀ (s : State) (dt : Nat) (m : Chip) (f : Nat) (o : Option Nat), Now s dt m → f < 4 → m.fanState f = 1 → m.now < (m.fan f).startAt
       + 2000000000 → Does (.fanTimer dt f o) s m.setDuties) ∧
  (∀ (s : State) (dt : Nat) (m : Chip) (f : Nat), Now s dt m → f < 4 → m.fanState f = 1 → (m.fan f).startAt + 4000000000 ≤ m.now →
       Does (.fanTimer dt f none) s ((m.fanOff f 3).setDuties)) ∧
  (∀ (s : State) (dt : Nat) (m : Chip) (f r : Nat), Now s dt m → f < 4 → m.fanState f = 2 → Does (.fanTimer dt f (some r)) s ((m.put
       (F.HK_FAN_rpm f) (min 65535 r)).setDuties)) ∧
  (∀ (s : State) (dt : Nat) (m : Chip) (f : Nat) (o : Option Nat), Now s dt m → f < 4 → (m.fanState f = 3 ∨ m.fanState f = 4) →
       (m.fan f).offAt + 10000000000 ≤ m.now → Does (.fanTimer dt f o) s (((m.put (F.HK_FAN_restarts f) (min 3 (m.get
       (F.HK_FAN_restarts f) + 1))).bump R.HK_CNT_FAN_RESTART).startFan f).setDuties) ∧
  (∀ (s : State) (dt : Nat) (m : Chip) (f : Nat) (o : Option Nat), Now s dt m → f < 4 → (m.fanState f = 3 ∨ m.fanState f = 4) →
       (m.fan f).offAt + 10000000000 ≤ m.now → 0 < m.now → ∃ t, exec (.fanTimer dt f o) s = .next t ∧ t.pending = s.pending ∧
       (t.m.fan f).startAt = m.now) ∧
  (∀ (s : State) (dt : Nat) (m : Chip) (f : Nat), Now s dt m → f < 4 → m.fanState f = 2 → Does (.fanTachLoss dt f) s (((m.fanOff f
       4).raise SrcName.fan).setDuties)) ∧
  (∀ (s : State) (dt : Nat) (m : Chip) (f : Nat), Now s dt m → f < 4 → m.fanState f = 2 → 0 < m.now → ∃ t, exec (.fanTachLoss dt f)
       s = .next t ∧ t.pending = s.pending ∧ (t.m.fan f).offAt = m.now) ∧
  (∀ (s : State) (dt : Nat) (m : Chip) (f : Nat), Now s dt m → f < 4 → m.fanState f ≠ 2 → Does (.fanTachLoss dt f) s m) ∧
  (∀ (s : State) (dt : Nat) (m : Chip) (f : Nat), Now s dt m → f < 4 → m.fanState f = 5 → Does (.fanRetry dt f) s ((((m.put
       (F.HK_FAN_restarts f) 0).bump R.HK_CNT_FAN_RESTART).startFan f).setDuties)) ∧
  (∀ (s : State) (dt : Nat) (m : Chip) (f : Nat), Now s dt m → f < 4 → m.fanState f = 5 → 0 < m.now → ∃ t, exec (.fanRetry dt f) s =
       .next t ∧ t.pending = s.pending ∧ (t.m.fan f).startAt = m.now) ∧
  (∀ (s : State) (dt : Nat) (m : Chip) (f : Nat), Now s dt m → f < 4 → m.fanState f ≠ 5 → Does (.fanRetry dt f) s m)

/-- A transaction on a disabled bus fails at once with bus_stuck and is counted; one on an idle bus runs and answers as it ends;
a write to a listed PMBus device without a signed command does nothing. A transaction whose clock has been low for 35 ms ends
with an error. A stuck idle bus is recovered in up to three attempts, none with the clock low; when freed it is enabled again,
else it is flagged, disabled, raised, and tried again every second. A poll without listed device reads nothing. (R580, R581,
R582) -/
def Obligations.I2cBusesRecover : Prop :=
  (∀ (s : State) (dt : Nat) (m : Chip) (c dev : Nat) (e : Option Bool), Now s dt m → c < 2 → dev < 128 → m.flag (F.HK_I2C_disabled
       c) = true → Does (.i2cTransaction dt c dev false e none) s ((m.bump R.HK_CNT_I2C_ERR).emit (.send "i2c" c "bus_stuck" [dev,
       0]))) ∧
  (∀ (s : State) (dt : Nat) (m : Chip) (c dev : Nat) (e : Option Bool), Now s dt m → c < 2 → dev < 128 → m.flag (F.HK_I2C_disabled
       c) = true → ∃ t, exec (.i2cTransaction dt c dev false e none) s = .next t ∧ t.pending = s.pending ∧ t.m.out = m.out ++ [.send
       "i2c" c "bus_stuck" [dev, 0]]) ∧
  (∀ (s : State) (dt : Nat) (m : Chip) (c dev : Nat) (ok : Bool) (x : Chip), Now s dt m → c < 2 → dev < 128 → m.flag
       (F.HK_I2C_disabled c) = false → (m.bus c).queue = [] → (m.bus c).cur = none → x = m.setBus c
       { m.bus c with queue := [{ dev, write := false, ends := some ok }] } → Does (.i2cTransaction dt c dev false (some ok) none) s
       (x.i2cRun c 2)) ∧
  (∀ (s : State) (dt : Nat) (m : Chip) (c dev : Nat) (w : Bool) (e : Option Bool) (k : I2cJob), Now s dt m → c < 2 → dev < 128 → ((w
       && m.stick.pmbus.any fun d => d.bus == c && d.addr == dev) = false) → m.flag (F.HK_I2C_disabled c) = false → (m.bus c).cur =
       some k → ∃ t, exec (.i2cTransaction dt c dev w e none) s = .next t ∧ t.pending = s.pending ∧ (t.m.bus c).queue = (m.bus
       c).queue ++ [{ dev, write := w, ends := e }]) ∧
  (∀ (s : State) (dt : Nat) (m : Chip) (c dev : Nat) (e : Option Bool), Now s dt m → c < 2 → dev < 128 → ((m.stick.pmbus.any fun d
       => d.bus == c && d.addr == dev) = true) → Does (.i2cTransaction dt c dev true e none) s m) ∧
  (∀ (s : State) (dt : Nat) (m : Chip) (a : Auth) (v : Session) (c dev : Nat) (e : Option Bool), Now s dt m → Admitted m [3] false
       false a v → c < 2 → dev < 128 → Does (.i2cTransaction dt c dev true e (some a)) s (((consumed a v m).acceptCmd a).i2cRequest
       c { dev, write := true, ends := e })) ∧
  (∀ (s : State) (dt : Nat) (m : Chip) (c : Nat) (j : I2cJob), Now s dt m → c < 2 → (m.bus c).cur = some j → (m.bus c).since +
       35000000 ≤ m.now → Does (.smbusTimeout dt c) s ((((m.setBus c { m.bus c with cur := none }).bump R.HK_CNT_I2C_ERR).emit
       (.send "i2c" c "error" [j.dev, b2n j.write])).i2cRun c ((m.bus c).queue.length + 1))) ∧
  (∀ (s : State) (dt : Nat) (m : Chip) (c : Nat) (j : I2cJob), Now s dt m → c < 2 → (m.bus c).cur = some j → (m.bus c).since +
       35000000 ≤ m.now → (m.bus c).queue = [] → 0 < (m.bus c).since → ∃ t, exec (.smbusTimeout dt c) s = .next t ∧ t.pending =
       s.pending ∧ t.m.out = m.out ++ [.send "i2c" c "error" [j.dev, b2n j.write]]) ∧
  (∀ (s : State) (dt : Nat) (m : Chip) (c : Nat), Now s dt m → c < 2 → (m.bus c).cur = none → Does (.smbusTimeout dt c) s m) ∧
  (∀ (s : State) (dt : Nat) (m : Chip) (c k : Nat), Now s dt m → c < 2 → (m.bus c).cur = none → m.flag (F.HK_I2C_disabled c) = false
       → Does (.busStuck dt c false (some k)) s ((((m.bumpBy R.HK_CNT_I2C_RECOVER (min 3 k)).put (F.HK_I2C_disabled c) 0).put
       (F.HK_I2C_state c) 0).follow ((upTo 2).any fun d => d != c && m.flag (F.HK_I2C_disabled d)) SrcName.i2cBusStuck)) ∧
  (∀ (s : State) (dt : Nat) (m : Chip) (c : Nat) (low : Bool) (x : Chip), Now s dt m → c < 2 → (m.bus c).cur = none → m.flag
       (F.HK_I2C_disabled c) = false → x = (((m.bumpBy R.HK_CNT_I2C_RECOVER (if low then 0 else 3)).setFlag (stuckFlag c)).put
       (F.HK_I2C_disabled c) 1).put (F.HK_I2C_state c) 3 → Does (.busStuck dt c low none) s ((x.setBus c
       { x.bus c with retryAt := x.now + 1000000000 }).assert SrcName.i2cBusStuck)) ∧
  (∀ (s : State) (dt : Nat) (m : Chip) (c : Nat) (low : Bool) (x : Chip), Now s dt m → c < 2 → (m.bus c).cur = none → m.flag
       (F.HK_I2C_disabled c) = false → x = (((m.bumpBy R.HK_CNT_I2C_RECOVER (if low then 0 else 3)).setFlag (stuckFlag c)).put
       (F.HK_I2C_disabled c) 1).put (F.HK_I2C_state c) 3 → ∃ t, exec (.busStuck dt c low none) s = .next t ∧ t.pending = s.pending ∧
       (t.m.bus c).retryAt = m.now + 1000000000) ∧
  (∀ (s : State) (dt : Nat) (m : Chip) (c : Nat) (x : Chip), Now s dt m → c < 2 → m.flag (F.HK_I2C_disabled c) = true → (m.bus
       c).retryAt ≤ m.now → x = (((m.bumpBy R.HK_CNT_I2C_RECOVER 3).setFlag (stuckFlag c)).put (F.HK_I2C_disabled c) 1).put
       (F.HK_I2C_state c) 3 → Does (.i2cRecoveryRetry dt c false none) s ((x.setBus c
       { x.bus c with retryAt := x.now + 1000000000 }).assert SrcName.i2cBusStuck)) ∧
  (∀ (s : State) (dt : Nat) (m : Chip) (c : Nat) (x : Chip), Now s dt m → c < 2 → m.flag (F.HK_I2C_disabled c) = true → (m.bus
       c).retryAt ≤ m.now → x = (((m.bumpBy R.HK_CNT_I2C_RECOVER 3).setFlag (stuckFlag c)).put (F.HK_I2C_disabled c) 1).put
       (F.HK_I2C_state c) 3 → ∃ t, exec (.i2cRecoveryRetry dt c false none) s = .next t ∧ t.pending = s.pending ∧ (t.m.bus
       c).retryAt = m.now + 1000000000) ∧
  (∀ (s : State) (dt : Nat) (m : Chip) (c : Nat) (low : Bool) (free : Option Nat), Now s dt m → c < 2 → (m.flag (F.HK_I2C_disabled
       c) = false ∨ m.now < (m.bus c).retryAt) → Does (.i2cRecoveryRetry dt c low free) s m) ∧
  (∀ (s : State) (dt : Nat) (m : Chip) (l : List (Option Nat)), Now s dt m → m.stick.pmbus = [] → Does (.pmbusPoll dt l) s m) ∧
  (∀ (s : State) (dt : Nat) (m : Chip) (d : PmbDev) (k w : Nat), Now s dt m → m.stick.pmbus = [d] → d.cmds = [k] → m.flag
       (F.HK_I2C_disabled d.bus) = false → Does (.pmbusPoll dt [some w]) s ((m.put (F.HK_PMB_dev_cmd 0) 0).put (F.HK_PMB_value 0) (w
       % 65536))) ∧
  (∀ (s : State) (dt : Nat) (m : Chip) (d : PmbDev) (k w : Nat), Now s dt m → m.stick.pmbus = [d] → d.cmds = [k] → m.flag
       (F.HK_I2C_disabled d.bus) = false → w % 65536 ≠ 0 → ∃ t, exec (.pmbusPoll dt [some w]) s = .next t ∧ t.pending = s.pending ∧
       t.m.get (F.HK_PMB_value 0) = w % 65536)

/-- With a command at the front of the queue, a step is that command's execution on the module with the rest of the queue.
(spec/opcode_table.json, spec/00_scope.md) -/
def Obligations.StepRunsTheFrontCommand : Prop :=
  ∀ (c : Instr) (q : List Instr) (s : State), step { s with pending := c :: q } = exec c { s with pending := q }

/-- The model's choice (log entry 2), on the clock of R407: with no command waiting, a module that is supplied and out of
RESET_N goes on with one timing-clock cycle passed and nothing else changed: TB2 has advanced by 4 ns and no register, memory,
output or fuse has changed. (R407) -/
def Obligations.AnEmptyQueueLetsOneCyclePass : Prop :=
  ∀ (s t : State), s.pending = [] → Up s.m → step s = .next t → t = { s with m := elapse 1 s.m } ∧ t.m.time.tb2 = s.m.time.tb2 +
      0x400000000 ∧ t.m.regs = s.m.regs ∧ t.m.mem = s.m.mem ∧ t.m.out = s.m.out ∧ t.m.trust = s.m.trust

/-- After power-on reset the mode is SAFE, the time bases stand at 0 and TB0 is unset, no memory byte and no command is held,
nothing has been sent, and the registers hold the reset values of their tables (the ones listed, one of each block). The tables
are in canonical form. (R53, R54, R57, R59, R60, R409, R426, R473, R475, R477, R486, R540) -/
def Obligations.ResetLeavesTheModuleInSafe : Prop :=
  State.reset.m.mode = 3 ∧ State.reset.m.mem = [] ∧ State.reset.m.out = [] ∧ State.reset.pending = [] ∧ State.reset.m.tb0 = 0 ∧ State.reset.m.tb3 = 0 ∧ State.reset.m.flag F.TM_STAT_tb0_set = false ∧
      (∀ p ∈ [(R.SUP_MODE, 0xC0000000), (R.SUP_CFG, 0x640014), (R.TM_TB0_INC_LO, 0), (R.TM_TB0_INC_HI, 4), (R.TM_TB1_INC_HI, 4), (R.RC_SLACK_MIN, 0x3FFFFF), (R.RC_BAY_CFG, 2), (R.RC_BAY_RESERVE, 20), (R.RC_JOB_CTRL 0, 0), (R.RC_JOB_STAT 127, 0), (R.FLT_CSTAT 0, 0), (R.SEC_TAMPER, 1), (R.FIO_OUT, 0), (R.PEG_CTRL 7, 0)], State.reset.m.rd p.1 = BitVec.ofNat 32 p.2) ∧
      Canon State.reset.m

/-- From every state whose tables are in canonical form (numbers strictly rising, nothing listed that an unlisted number reads
as), a step that goes on gives a state whose tables are: equal contents are equal data, whatever command ran. (R11, R238, R247,
R252, R257) -/
def Obligations.EveryStepKeepsTheTablesCanonical : Prop :=
  ∀ (s t : State), Canon s.m → step s = .next t → Canon t.m

/-- From every state whose queue holds well-formed commands only (they name units the part has), a step goes on, and the queue
that is left holds well-formed commands only: no command of the spec is refused, whatever state it meets.
(spec/opcode_table.json, R593) -/
def Obligations.WellFormedQueuesRunToTheirEnd : Prop :=
  ∀ (s : State), s.queueWf → goesOn (step s) ∧ ∀ t, step s = .next t → t.queueWf ∧ t.pending = s.pending.tail

/-- A command goes on in every state exactly when its operands name units the part has; else it is the fault noSuchUnit. No
command is refused, and a command that goes on leaves the queue alone. (R6, R30, spec/opcode_table.json) -/
def Obligations.CommandsCompleteExactlyWhenWellFormed : Prop :=
  ∀ (i : Instr) (s : State), (goesOn (exec i s) ↔ i.wf = true) ∧ (i.wf = false → exec i s = .fault .noSuchUnit) ∧ (∀ r, exec i s ≠
      .refused r) ∧ ∀ t, exec i s = .next t → t.pending = s.pending

/-- On a module without its main input or PWR_GOOD a command that is not of the supply or of RESET_N changes nothing at all. On
a supplied module held in RESET_N such a command lets its time pass and does nothing else. (R481, R593) -/
def Obligations.OnlyTheSupplyActsWithoutPower : Prop :=
  ∀ (i : Instr) (s t : State), ofSupply i = false → exec i s = .next t → (s.m.supplied = false → t = s) ∧ (s.m.supplied = true →
      s.m.boot.inReset = true → ∃ dt, t = { s with m := elapse dt s.m })

/-- Over every step that goes on: the anti-rollback counter does not fall, the lifecycle keeps every bit it has, the slots
revoked stay revoked in their order, and the manufacturing lock stays. (R507, R509, R523, R532) -/
def Obligations.FusesNeverReturn : Prop :=
  ∀ (s t : State), step s = .next t → s.m.trust.fuses.counter ≤ t.m.trust.fuses.counter ∧ s.m.trust.fuses.lifecycle &&&
      t.m.trust.fuses.lifecycle = s.m.trust.fuses.lifecycle ∧ s.m.trust.fuses.revoked <+: t.m.trust.fuses.revoked ∧
      t.m.trust.fuses.mfgLock = s.m.trust.fuses.mfgLock

/-- Over every step that goes on, the outputs sent before and the entries of the NV log written before stand unchanged and in
order; a step only adds to them. (R494, R526) -/
def Obligations.WhatIsSentAndLoggedStays : Prop :=
  ∀ (s t : State), step s = .next t → s.m.out <+: t.m.out ∧ s.m.nvLog <+: t.m.nvLog

/-- In canonical memory: bytes written from an address on are read back in order; a number written least significant byte first
is read back, cut to its bytes; every byte outside the written range reads as before, the rest of a granule of bent SRAM that
was uncorrectable, which was delivered as zero, among them; and the memory stays canonical. (R8, R238, R246, R247, R257) -/
def Obligations.MemoryHoldsWhatIsWritten : Prop :=
  ∀ (m : Chip) (g : Nat) (l : List Byte), Canon m →
      (m.putBytes g l).bytesAt g l.length = l ∧ Canon (m.putBytes g l) ∧
      (∀ n v, (m.putBytes g (leBytes n v)).numAt g n = v % 256 ^ n) ∧
      (∀ x, (x < g ∨ g + l.length ≤ x) → (m.putBytes g l).byteAt x = m.byteAt x)

/-- A write under a mask to a mapped register of a unit in use: a bit of code RW or RWS under the mask takes the bit written; a
W1C or ST bit under the mask to which 1 is written is cleared, except one that the hardware sets in the same cycle, where
setting wins; every other bit, read-only and reserved bits among them, stays; every other register stays. A write to an address
that the map does not hold changes nothing. (R11, R12, R497) -/
def Obligations.PlainWritesFollowTheAccessCodes : Prop :=
  ∀ (m : Chip) (a mask v : Nat), Canon m →
      (∀ r, m.unitUsed a = true → regRowAt a = some r → ∀ i, i < 32 → ((m.plainWrite a mask v).rd a).getLsbD i = if (r.rw.getLsbD i || r.rws.getLsbD i) && mask.testBit i then v.testBit i else if r.w1c.getLsbD i && mask.testBit i && v.testBit i && !(tabGet 0 m.fresh a).getLsbD i then false else (m.rd a).getLsbD i) ∧
      (∀ x, x ≠ a → (m.plainWrite a mask v).rd x = m.rd x) ∧ (regRowAt a = none → m.plainWrite a mask v = m)

/-- A read of RC_BAY_INDEX_LO gives the low word of the current bay index and latches its high word: a read of RC_BAY_INDEX_HI
that follows, however many bays have passed meanwhile, gives that high word, so that the two words are the index at the first
read. A later read of RC_BAY_INDEX_LO gives the index of its own time. (R55) -/
def Obligations.TheBayIndexIsReadConsistently : Prop :=
  ∀ (s t : State) (dt : Nat) (m : Chip), Now s dt m → m.bay < 2 ^ 64 → exec (.readLoLatch dt R.RC_BAY_INDEX_LO) s = .next t →
      (m.readReg R.RC_BAY_INDEX_LO).1 = m.bay % 2 ^ 32 ∧
      ∀ (x : Chip), x.latches = t.m.latches →
      (m.readReg R.RC_BAY_INDEX_LO).1 + 2 ^ 32 * (x.readReg R.RC_BAY_INDEX_HI).1 = m.bay ∧
      (x.readReg R.RC_BAY_INDEX_LO).1 = x.bay % 2 ^ 32

/-- mix is the function that R433 writes out, and the mark of a list of elements is the sum modulo 2^64 of mix over them: two
lists of the same elements in any order have one mark, and the marks of the parts of a split layer add modulo 2^64 to the mark
of the whole. (R433) -/
def Obligations.MarksAreOrderFreeSums : Prop :=
  (∀ i v x y z : BitVec 64, x = (i * 0x9E3779B97F4A7C15) ^^^ (v * 0xC2B2AE3D27D4EB4F) → y = (x ^^^ (x >>> 31)) * 0xBF58476D1CE4E5B9 → z = (y ^^^ (y >>> 27)) * 0x94D049BB133111EB → mix i v = z ^^^ (z >>> 33)) ∧
      (∀ l : List (Nat × Nat), markSum l = (l.map fun p => (mix (BitVec.ofNat 64 p.1) (BitVec.ofNat 64 p.2)).toNat).sum % 2 ^ 64) ∧
      (∀ l k : List (Nat × Nat), l.Perm k → markSum l = markSum k) ∧
      (∀ l k : List (Nat × Nat), markSum (l ++ k) = (markSum l + markSum k) % 2 ^ 64)

/-- For every job whose outputs another enabled job consumes, as the story stick declares: a write that clears enable, whatever
its other bits, completes with the job's register unchanged and its dep_refused flag set, and no other register and nothing else
of the module is changed. (R52) -/
def Obligations.ADisableOfAConsumedJobIsRefused : Prop :=
  ∀ (s : State) (dt : Nat) (m : Chip) (j v : Nat) (d : Nat × Nat), Now s dt m → Canon m → j < Config.jobs → v < 2 ^ 32 → m.flag (F.RC_JOB_CTRL_enable j) = true → bitN v 0 = false → d ∈ m.stick.deps → d.2 = j → m.flag (F.RC_JOB_CTRL_enable d.1) = true →
      ∃ x : Chip, Does (.jobCtrlWrite dt j v) s x ∧ x.rd (R.RC_JOB_CTRL j) = m.rd (R.RC_JOB_CTRL j) ∧ x.flag (F.RC_JOB_STAT_dep_refused j) = true ∧ (∀ a, a ≠ R.RC_JOB_STAT j → x.rd a = m.rd a) ∧ x = { m with regs := x.regs, fresh := x.fresh }

/-- For every integer and every positive denominator the rounded quotient is at least as near as any other integer, and on a tie
it is even, for either sign. A signed number that fits w bits is read back from its low w bits. (R10, R93) -/
def Obligations.RoundingIsToTheNearestEven : Prop :=
  (∀ (n : Int) (d : Nat), 0 < d → (∀ k : Int, (n - rneDiv n d * d).natAbs ≤ (n - k * d).natAbs) ∧ (2 * (n - rneDiv n d * d).natAbs = d → rneDiv n d % 2 = 0)) ∧
      (∀ (w : Nat) (x : Int), 0 < w → -((2 ^ (w - 1) : Nat) : Int) ≤ x → x < ((2 ^ (w - 1) : Nat) : Int) → signedOf w (unsignedOf w x) = x)
end

