-- ==== Sys2Proof/Laws/Tab.lean ====
section
/-!
SUPPORT. Sys2Proof/Laws/Tab.lean: the laws of sparse tables: a read after a write, reads elsewhere, and the canonical
form kept.
-/
namespace Sys2Proof.Laws
open Sys2Proof.Machine

theorem tabGet_cons_same {α : Type} [DecidableEq α] (d : α) (k : Nat) (v : α) (t : Tab α)
    (h : tabGet d t k = d) : tabGet d (tabCons d k v t) k = v := by
  unfold tabCons; split
  · next e => rw [h, e]
  · simp [tabGet]

theorem tabGet_of_wfFrom {α : Type} [DecidableEq α] (d : α) :
    ∀ (t : Tab α) (n k : Nat), tabWfFrom d n t = true → k < n → tabGet d t k = d
  | [], _, _, _, _ => rfl
  | (j, v) :: t, n, k, h, hk => by
    simp [tabWfFrom] at h
    have : ¬ j = k := by omega
    have h2 : k < j := by omega
    simp [tabGet, this, h2]

theorem tabWfFrom_mono {α : Type} [DecidableEq α] (d : α) :
    ∀ (t : Tab α) (n m : Nat), tabWfFrom d n t = true → m ≤ n → tabWfFrom d m t = true
  | [], _, _, _, _ => rfl
  | (j, v) :: t, n, m, h, hm => by
    simp [tabWfFrom] at h ⊢
    exact ⟨⟨by omega, h.1.2⟩, h.2⟩

theorem tabWfFrom_cons {α : Type} [DecidableEq α] (d : α) (n k : Nat) (v : α) (t : Tab α)
    (h : tabWfFrom d (k + 1) t = true) (hn : n ≤ k) : tabWfFrom d n (tabCons d k v t) = true := by
  unfold tabCons; split
  · exact tabWfFrom_mono d t _ _ h (by omega)
  · next e => simp [tabWfFrom, h, hn, e]

/-- A write keeps the canonical form. -/
theorem tabWfFrom_set {α : Type} [DecidableEq α] (d : α) :
    ∀ (t : Tab α) (n k : Nat) (v : α), tabWfFrom d n t = true → n ≤ k → tabWfFrom d n (tabSet d t k v) = true
  | [], n, k, v, _, hk => tabWfFrom_cons d n k v [] rfl hk
  | (j, w) :: t, n, k, v, h, hk => by
    have h' := h
    simp [tabWfFrom] at h
    unfold tabSet
    split
    · next e => subst e; exact tabWfFrom_cons d n j v t h.2 hk
    · split
      · next e lt =>
        refine tabWfFrom_cons d n k v _ ?_ hk
        simp [tabWfFrom]; exact ⟨⟨by omega, h.1.2⟩, h.2⟩
      · next e lt =>
        simp [tabWfFrom]
        exact ⟨h.1, tabWfFrom_set d t (j + 1) k v h.2 (by omega)⟩

theorem tabWf_set {α : Type} [DecidableEq α] (d : α) (t : Tab α) (k : Nat) (v : α)
    (h : tabWf d t = true) : tabWf d (tabSet d t k v) = true :=
  tabWfFrom_set d t 0 k v h (Nat.zero_le k)

theorem tabGet_setFrom_same {α : Type} [DecidableEq α] (d : α) :
    ∀ (t : Tab α) (n k : Nat) (v : α), tabWfFrom d n t = true → tabGet d (tabSet d t k v) k = v
  | [], _, k, v, _ => tabGet_cons_same d k v [] rfl
  | (j, w) :: t, n, k, v, h => by
    simp [tabWfFrom] at h
    unfold tabSet
    split
    · next e => subst e; exact tabGet_cons_same d j v t (tabGet_of_wfFrom d t (j+1) j h.2 (by omega))
    · split
      · next e lt => apply tabGet_cons_same; simp [tabGet, e, lt]
      · next e lt => simp [tabGet, e, lt]; exact tabGet_setFrom_same d t (j+1) k v h.2

/-- A read after a write to the same number gives the value written. -/
theorem tabGet_set_same {α : Type} [DecidableEq α] (d : α) (t : Tab α) (k : Nat) (v : α)
    (h : tabWf d t = true) : tabGet d (tabSet d t k v) k = v := tabGet_setFrom_same d t 0 k v h

/-- A read after a write of a value that is not the default gives it, whatever the table. -/
theorem tabGet_set_ne {α : Type} [DecidableEq α] (d : α) :
    ∀ (t : Tab α) (k : Nat) (v : α), v ≠ d → tabGet d (tabSet d t k v) k = v
  | [], k, v, hv => by simp [tabSet, tabCons, hv, tabGet]
  | (j, w) :: t, k, v, hv => by
    unfold tabSet
    split
    · simp [tabCons, hv, tabGet]
    · split
      · simp [tabCons, hv, tabGet]
      · next e lt => simp only [tabGet, e, lt, if_false]; exact tabGet_set_ne d t k v hv

theorem tabGet_cons_other {α : Type} [DecidableEq α] (d : α) (k m : Nat) (v : α) (t : Tab α)
    (h : tabWfFrom d (k + 1) t = true) (hm : m ≠ k) : tabGet d (tabCons d k v t) m = tabGet d t m := by
  unfold tabCons; split
  · rfl
  · have : ¬ k = m := fun e => hm e.symm
    simp only [tabGet, this, if_false]
    split
    · next lt => exact (tabGet_of_wfFrom d t (k+1) m h (by omega)).symm
    · rfl

theorem tabGet_setFrom_other {α : Type} [DecidableEq α] (d : α) :
    ∀ (t : Tab α) (n k m : Nat) (v : α), tabWfFrom d n t = true → m ≠ k →
      tabGet d (tabSet d t k v) m = tabGet d t m
  | [], _, k, m, v, _, hm => tabGet_cons_other d k m v [] rfl hm
  | (j, w) :: t, n, k, m, v, h, hm => by
    have h' := h
    simp [tabWfFrom] at h
    unfold tabSet
    split
    · next e =>
      subst e
      rw [tabGet_cons_other d j m v t h.2 hm]
      have : ¬ j = m := fun e => hm e.symm
      simp only [tabGet, this, if_false]
      split
      · next lt => exact tabGet_of_wfFrom d t (j+1) m h.2 (by omega)
      · rfl
    · split
      · next e lt =>
        refine tabGet_cons_other d k m v _ ?_ hm
        simp [tabWfFrom]; exact ⟨⟨by omega, h.1.2⟩, h.2⟩
      · next e lt =>
        simp only [tabGet]
        rw [tabGet_setFrom_other d t (j+1) k m v h.2 hm]

/-- A write leaves every other number alone. -/
theorem tabGet_set_other {α : Type} [DecidableEq α] (d : α) (t : Tab α) (k m : Nat) (v : α)
    (h : tabWf d t = true) (hm : m ≠ k) : tabGet d (tabSet d t k v) m = tabGet d t m :=
  tabGet_setFrom_other d t 0 k m v h hm

theorem tabWf_setMany {α : Type} [DecidableEq α] (d : α) :
    ∀ (l : List (Nat × α)) (t : Tab α), tabWf d t = true → tabWf d (tabSetMany d t l) = true
  | [], _, h => h
  | (k, v) :: r, t, h => tabWf_setMany d r _ (tabWf_set d t k v h)

theorem tabWf_mod {α : Type} [DecidableEq α] (d : α) (t : Tab α) (k : Nat) (f : α → α)
    (h : tabWf d t = true) : tabWf d (tabMod d t k f) = true := tabWf_set d t k _ h

theorem tabWfFrom_filter {α : Type} [DecidableEq α] (d : α) (p : Nat × α → Bool) :
    ∀ (t : Tab α) (n : Nat), tabWfFrom d n t = true → tabWfFrom d n (t.filter p) = true
  | [], _, _ => rfl
  | (j, v) :: t, n, h => by
    simp [tabWfFrom] at h
    simp only [List.filter]
    split
    · simp [tabWfFrom]; exact ⟨h.1, tabWfFrom_filter d p t (j + 1) h.2⟩
    · exact tabWfFrom_mono d _ _ _ (tabWfFrom_filter d p t (j + 1) h.2) (by omega)

/-- Forgetting entries keeps the canonical form. -/
theorem tabWf_filter {α : Type} [DecidableEq α] (d : α) (p : Nat × α → Bool) (t : Tab α) (h : tabWf d t = true) :
    tabWf d (t.filter p) = true := tabWfFrom_filter d p t 0 h

/-- What a table reads as once the numbers outside a set are gone. -/
theorem tabGet_filterFrom {α : Type} [DecidableEq α] (d : α) (q : Nat → Bool) :
    ∀ (t : Tab α) (n k : Nat), tabWfFrom d n t = true → tabGet d (t.filter fun p => q p.1) k = if q k then tabGet d t k else d
  | [], _, _, _ => by simp [tabGet]
  | (j, v) :: t, n, k, h => by
    simp [tabWfFrom] at h
    have ih := tabGet_filterFrom d q t (j + 1) k h.2
    by_cases hj : j = k
    · subst hj
      cases hq : q j with
      | true => simp [hq, tabGet]
      | false =>
        rw [hq] at ih
        simpa [List.filter_cons, hq] using ih
    · by_cases hk : k < j
      · have e := tabGet_of_wfFrom d t (j + 1) k h.2 (by omega)
        rw [e] at ih
        cases hq : q j with
        | true => simp [hq, tabGet, hj, hk]
        | false => simp [hq, tabGet, hj, hk]; rw [ih]; simp
      · cases hq : q j with
        | true => simp [hq, tabGet, hj, hk]; exact ih
        | false => simp [hq, tabGet, hj, hk]; exact ih

theorem tabGet_filter {α : Type} [DecidableEq α] (d : α) (q : Nat → Bool) (t : Tab α) (k : Nat) (h : tabWf d t = true) :
    tabGet d (t.filter fun p => q p.1) k = if q k then tabGet d t k else d := tabGet_filterFrom d q t 0 k h

end Sys2Proof.Laws
end

