-- ==== Sys2Proof/Laws/Engines.lean ====
section
/-!
SUPPORT. Sys2Proof/Laws/Engines.lean: what starting a cut-list command can do (R32, R34): it starts, it is passed over, or nothing
happens.
-/
namespace Sys2Proof.Laws
open Sys2Proof.Machine

theorem elapse_zero_eq (m : Chip) : elapse 0 m = m := rfl

theorem startCmd_starts {e : Engine} {c : CutEntry} {m : Chip} (work : Chip → Running × Chip) (h : Starts m e c) :
    startCmd 0 e c work m = started m e c work := by
  have hr := h.1
  simp only [Chip.ready, Bool.and_eq_true] at hr
  obtain ⟨⟨⟨⟨⟨⟨⟨h1, h2⟩, h3⟩, h4⟩, _⟩, _⟩, _⟩, _⟩ := hr
  have h3' : (m.eng e).running = none := by simpa using h3
  have hg : (!m.bays.running || c.kind != .foreground || (m.eng e).running.isSome || !m.isNext e c) = false := by
    rw [h1, h3', h4]; simpa using h2
  simp only [startCmd, elapse_zero_eq, hg, h.1, h.2, Bool.false_eq_true, if_false, Bool.not_true]
  rfl

theorem startCmd_passedOver {e : Engine} {c : CutEntry} {m : Chip} (work : Chip → Running × Chip) (h : PassedOver m e c) :
    startCmd 0 e c work m = m.advance e c := by
  obtain ⟨h1, h2, h3, h4, h5⟩ := h
  have hg : (!m.bays.running || c.kind != .foreground || (m.eng e).running.isSome || !m.isNext e c) = false := by
    rw [h1, h2, h3, h4]; rfl
  simp only [startCmd, elapse_zero_eq, hg, h5, Bool.false_eq_true, if_false, if_true]

theorem startCmd_waits {e : Engine} {c : CutEntry} {m : Chip} (work : Chip → Running × Chip) (h : m.ready e c = false)
    (hs : m.skips e c = false) : startCmd 0 e c work m = m := by
  by_cases hg : (!m.bays.running || c.kind != .foreground || (m.eng e).running.isSome || !m.isNext e c) = true
  · simp only [startCmd, elapse_zero_eq, hg, if_true]
  · simp only [startCmd, elapse_zero_eq, hg, hs, h, Bool.false_eq_true, if_false, Bool.not_false, if_true]

theorem bentCommand_starts {n op : Nat} {c : CutEntry} {m : Chip} (er : ReadErrs) (stall : Nat) (reads : Chip → Reads)
    (f : Chip → Running) (hop : m.descNum c.descPtr 1 = op) (h : Starts m (.bent n) c) :
    bentCommand 0 n op c er stall reads f m = started m (.bent n) c (bentWork n c er stall reads f) := by
  simp only [bentCommand, elapse_zero_eq, hop, ne_eq, not_true_eq_false, if_false, startCmd_starts _ h]

/-! ### What a start leaves alone -/

theorem rollBack_none {m : Chip} {e : Engine} (h : (m.eng e).bg = none) : m.rollBack e = m := by
  simp only [Chip.rollBack, h]

/-- Reads without errors, where no granule holds faulty code, change nothing. -/
theorem meetErrs_none (e : Engine) (c : CutEntry) (reads : List (Nat × Nat)) {m : Chip} (h : m.sramBad = []) :
    m.meetErrs e c reads {} = m := by
  simp [Chip.meetErrs, Chip.allErrs, h, Chip.sramCorrected, Chip.sramLost, Chip.sramParity, Chip.hbmErrs, Chip.cmErrs,
    Chip.collisions, Chip.hasUe, forAll]

theorem showBent_other (n : Nat) (m : Chip) : m.showBent n = { m with regs := (m.showBent n).regs } := rfl
theorem showEng_other (e : Engine) (m : Chip) : m.showEng e = { m with regs := (m.showEng e).regs } := by
  cases e <;> rfl

/-- An engine's state as it was set, where it runs a command. -/
theorem eng_setEng (m : Chip) (e : Engine) (v : EngState) (h : v.running.isSome = true) : (m.setEng e v).eng e = v :=
  tabGet_set_ne ({} : EngState) m.engs (engIdx e) v (by intro e; rw [e] at h; cases h)

/-- What every application of `f` leaves alone, `forAll` leaves alone. -/
theorem forAll_keeps {α β : Type} (g : Chip → β) (l : List α) (f : α → Chip → Chip) (m : Chip) (h : ∀ a x, g (f a x) = g x) :
    g (forAll l f m) = g m := by
  unfold forAll
  induction l generalizing m with
  | nil => rfl
  | cons a t ih => rw [List.foldl_cons, ih, h]

/-- Reads of HBM and of capture memory without errors give the bytes that stand there. -/
theorem readMem_none (m : Chip) (g n : Nat) : m.readMem {} g n = m.bytesAt g n := by
  simp [Chip.readMem, Chip.bytesAt]

/-- A command that has started is what its engine runs. -/
theorem started_running (m : Chip) (e : Engine) (c : CutEntry) (work : Chip → Running × Chip) :
    ((started m e c work).eng e).running =
      some { (work (m.rollBack e)).1 with entry := c, closeBay := m.closeOf e c, startedAt := m.now } := by
  unfold started
  rw [showEng_other]
  show ((Chip.setEng _ e _).eng e).running = _
  rw [eng_setEng _ _ _ rfl]

/-- A command that has started runs; the rest of the module but registers and engines is as its work left it. -/
theorem started_begun {m : Chip} {e : Engine} {c : CutEntry} {work : Chip → Running × Chip} {r : Running} {x : Chip}
    (hb : (m.eng e).bg = none) (hw : work m = (r, x)) (h1 : x.mem = m.mem) (h2 : x.sramValid = m.sramValid) (h3 : x.out = m.out) :
    Begun m (started m e c work) e c r := by
  unfold Begun started
  rw [rollBack_none hb, hw, showEng_other]
  refine ⟨?_, h1, h2, h3⟩
  show ((Chip.setEng x e _).eng e).running = _
  rw [eng_setEng _ _ _ rfl]

/-- The same, by what the work itself leaves alone. -/
theorem started_begun_work {m : Chip} {e : Engine} {c : CutEntry} {work : Chip → Running × Chip} (hb : (m.eng e).bg = none)
    (h1 : (work m).2.mem = m.mem) (h2 : (work m).2.sramValid = m.sramValid) (h3 : (work m).2.out = m.out) :
    Begun m (started m e c work) e c (work m).1 := started_begun hb (r := (work m).1) (x := (work m).2) rfl h1 h2 h3

end Sys2Proof.Laws
end

