-- ==== Sys2Proof/Laws/Keep/Ops.lean ====
section
/-!
SUPPORT. Sys2Proof/Laws/Keep/Ops.lean: the definitions of Machine/Ops.lean keep what the primitive changes keep.
-/
namespace Sys2Proof.Laws
open Sys2Proof.Machine

/-- How the fuses may change (R507, R509, R523): the owner is commissioned, an owner slot follows, the module is decommissioned, the
anti-rollback counter advances. -/
inductive FuseStep (f : FuseState) : FuseState → Prop where
  | commission (h : Nat) : f.lifecycle = 1 → FuseStep f { f with slots := [h], active := 0, lifecycle := 3 }
  | rotate (h : Nat) : f.lifecycle = 3 → f.active < 3 →
      FuseStep f { f with slots := f.slots.take (f.active + 1) ++ [h], revoked := f.revoked ++ [f.active], active := f.active + 1 }
  | decommission : f.lifecycle = 3 → FuseStep f { f with lifecycle := 7 }
  | advance (v w : Nat) : f.counter < v → v ≤ 128 → FuseStep f { f with counter := min v (f.counter + w) }

/-- A property of the module that the primitive changes keep: everything else a command does leaves the registers, the memories, the
outputs, the NV log and the fuses alone. -/
structure Keep (P : Chip → Prop) : Prop where
  same : ∀ m m', P m → m'.regs = m.regs → m'.mem = m.mem → m'.sramValid = m.sramValid → m'.out = m.out → m'.nvLog = m.nvLog →
    m'.trust.fuses = m.trust.fuses → P m'
  wr : ∀ m a v, P m → P (Chip.wr m a v)
  emit : ∀ m e, P m → P (Chip.emit m e)
  log : ∀ m w a, P m → P (Chip.log m w a)
  byte : ∀ m g b, P m → P (Chip.putByte m g b)
  clear : ∀ g n m, P m → P (Chip.clearRange g n m)
  cm : ∀ m, P m → P (Chip.clearCm m)
  dram : ∀ m, P m → P (Chip.clearDram m)
  blank : ∀ m, P m → P (Chip.blank m)
  fuse : ∀ m f, P m → FuseStep m.trust.fuses f → P { m with trust := { m.trust with fuses := f } }

theorem keep_lit {P : Chip → Prop} (K : Keep P) (m : Chip) {regs time encs fire pegs fio sup boot bays engs mem sramValid sramBad stick wit cams pocs pipes
    rowPipes replays screens pp tenon purlin latches fresh heads eth subs trust text hk nvLog out free} (h : P m) (e1 : regs = m.regs)
    (e2 : mem = m.mem) (e3 : sramValid = m.sramValid) (e4 : out = m.out) (e5 : nvLog = m.nvLog) (e6 : trust.fuses = m.trust.fuses) :
    P (Chip.mk regs time encs fire pegs fio sup boot bays engs mem sramValid sramBad stick wit cams pocs pipes rowPipes replays
      screens pp tenon purlin latches fresh heads eth subs trust text hk nvLog out free) :=
  K.same m _ h e1 e2 e3 e4 e5 e6
theorem keep_ite {P : Chip → Prop} {c : Prop} [Decidable c] {a b : Chip} (ha : P a) (hb : P b) : P (if c then a else b) := by
  split <;> assumption
theorem keep_forAll {P : Chip → Prop} {α : Type} (l : List α) (f : α → Chip → Chip) (m : Chip) (h : P m)
    (hf : ∀ a x, P x → P (f a x)) : P (forAll l f m) := by
  unfold forAll
  induction l generalizing m with
  | nil => exact h
  | cons a t ih => exact ih _ (hf a m h)
theorem keep_foldl {P : Chip → Prop} {α : Type} (f : Chip → α → Chip) (l : List α) (m : Chip) (h : P m)
    (hf : ∀ x a, P x → P (f x a)) : P (l.foldl f m) := by
  induction l generalizing m with
  | nil => exact h
  | cons a t ih => exact ih _ (hf m a h)
theorem keep_foldl2 {P : Chip → Prop} {α β : Type} (f : β × Chip → α → β × Chip) (l : List α) (p : β × Chip) (h : P p.2)
    (hf : ∀ x a, P x.2 → P (f x a).2) : P (l.foldl f p).2 := by
  induction l generalizing p with
  | nil => exact h
  | cons a t ih => exact ih _ (hf p a h)
theorem opt_some {P : Chip → Prop} {x : Chip} (h : P x) : ∀ t, some x = some t → P t := by
  intro t ht; exact Option.some.inj ht ▸ h
theorem opt_none {P : Chip → Prop} : ∀ t, (none : Option Chip) = some t → P t := by intro t ht; exact absurd ht (by simp)
theorem opt_ite {P : Chip → Prop} {c : Prop} [Decidable c] {a b : Option Chip} (ha : ∀ t, a = some t → P t)
    (hb : ∀ t, b = some t → P t) : ∀ t, (if c then a else b) = some t → P t := by split <;> assumption

theorem keep_Chip_wr {P : Chip → Prop} (K : Keep P) (m : Chip) (a : Nat) (v : Word) (h0 : P m) : P (Chip.wr m a v) := by
  exact K.wr _ _ _ h0

theorem keep_Chip_put {P : Chip → Prop} (K : Keep P) (m : Chip) (f : Fld) (v : Nat) (h0 : P m) : P (Chip.put m f v) := by
  unfold Chip.put
  try dsimp only
  repeat' (first | with_reducible assumption | (intro _) | with_reducible apply keep_Chip_wr K)

theorem keep_Chip_markFresh {P : Chip → Prop} (K : Keep P) (a i : Nat) (m : Chip) (h0 : P m) : P (Chip.markFresh a i m) :=
    by
  unfold Chip.markFresh
  try dsimp only
  repeat' (first | with_reducible assumption | split | with_reducible refine keep_lit K _ ?_ rfl rfl rfl rfl rfl rfl)

theorem keep_Chip_setFlag {P : Chip → Prop} (K : Keep P) (m : Chip) (f : Fld) (h0 : P m) : P (Chip.setFlag m f) := by
  unfold Chip.setFlag
  try dsimp only
  repeat' (first | with_reducible assumption | with_reducible apply keep_Chip_put K
                 | with_reducible apply keep_Chip_markFresh K)

theorem keep_Chip_setFlagIf {P : Chip → Prop} (K : Keep P) (m : Chip) (c : Bool) (f : Fld) (h0 : P m) : P (Chip.setFlagIf m
    c f) := by
  unfold Chip.setFlagIf
  try dsimp only
  repeat' (first | with_reducible assumption | with_reducible apply keep_Chip_setFlag K
                 | with_reducible apply keep_ite (P := P))

theorem keep_Chip_bumpBy {P : Chip → Prop} (K : Keep P) (m : Chip) (a n : Nat) (h0 : P m) : P (Chip.bumpBy m a n) := by
  unfold Chip.bumpBy
  try dsimp only
  repeat' (first | with_reducible assumption | with_reducible apply keep_Chip_wr K)

theorem keep_Chip_bump {P : Chip → Prop} (K : Keep P) (m : Chip) (a : Nat) (h0 : P m) : P (Chip.bump m a) := by
  unfold Chip.bump
  try dsimp only
  repeat' (first | with_reducible assumption | with_reducible apply keep_Chip_bumpBy K)

theorem keep_Chip_bumpIf {P : Chip → Prop} (K : Keep P) (m : Chip) (c : Bool) (a : Nat) (h0 : P m) : P (Chip.bumpIf m c a)
    := by
  unfold Chip.bumpIf
  try dsimp only
  repeat' (first | with_reducible assumption | with_reducible apply keep_Chip_bump K | with_reducible apply keep_ite (P := P))

theorem keep_Chip_wr64 {P : Chip → Prop} (K : Keep P) (m : Chip) (lo hi : Nat) (v : Nat) (h0 : P m) : P (Chip.wr64 m lo hi
    v) := by
  unfold Chip.wr64
  try dsimp only
  repeat' (first | with_reducible assumption | with_reducible apply keep_Chip_wr K)

theorem keep_Chip_setBit {P : Chip → Prop} (K : Keep P) (m : Chip) (a i : Nat) (h0 : P m) : P (Chip.setBit m a i) := by
  unfold Chip.setBit
  try dsimp only
  repeat' (first | with_reducible assumption | with_reducible apply keep_Chip_put K
                 | with_reducible apply keep_Chip_markFresh K)

theorem keep_Chip_clrBit {P : Chip → Prop} (K : Keep P) (m : Chip) (a i : Nat) (h0 : P m) : P (Chip.clrBit m a i) := by
  unfold Chip.clrBit
  try dsimp only
  repeat' (first | with_reducible assumption | with_reducible apply keep_Chip_put K)

theorem keep_Chip_emit {P : Chip → Prop} (K : Keep P) (m : Chip) (e : Emit) (h0 : P m) : P (Chip.emit m e) := by
  exact K.emit _ _ h0

theorem keep_Chip_log {P : Chip → Prop} (K : Keep P) (m : Chip) (what : String) (args : List Nat) (h0 : P m) : P (Chip.log m
    what args) := by
  exact K.log _ _ _ h0

theorem keep_Chip_draw {P : Chip → Prop} (K : Keep P) (m : Chip) (h0 : P m) : P (Chip.draw m).2 := by
  unfold Chip.draw
  try dsimp only
  repeat' (first | with_reducible assumption | with_reducible refine keep_lit K _ ?_ rfl rfl rfl rfl rfl rfl)

theorem keep_elapse {P : Chip → Prop} (K : Keep P) (dt : Nat) (m : Chip) (h0 : P m) : P (elapse dt m) := by
  unfold elapse
  try dsimp only
  repeat' (first | with_reducible assumption | with_reducible apply keep_ite (P := P)
                 | with_reducible refine keep_lit K _ ?_ rfl rfl rfl rfl rfl rfl)

theorem keep_Chip_setEnc {P : Chip → Prop} (K : Keep P) (m : Chip) (p : Nat) (e : EncPort) (h0 : P m) : P (Chip.setEnc m p
    e) := by
  unfold Chip.setEnc
  try dsimp only
  repeat' (first | with_reducible assumption | with_reducible refine keep_lit K _ ?_ rfl rfl rfl rfl rfl rfl)

theorem keep_Chip_setPeg {P : Chip → Prop} (K : Keep P) (m : Chip) (p : Nat) (e : PegPort) (h0 : P m) : P (Chip.setPeg m p
    e) := by
  unfold Chip.setPeg
  try dsimp only
  repeat' (first | with_reducible assumption | with_reducible refine keep_lit K _ ?_ rfl rfl rfl rfl rfl rfl)

theorem keep_Chip_setSrc {P : Chip → Prop} (K : Keep P) (m : Chip) (h i : Nat) (e : SrcState) (h0 : P m) : P (Chip.setSrc m
    h i e) := by
  unfold Chip.setSrc
  try dsimp only
  repeat' (first | with_reducible assumption | with_reducible refine keep_lit K _ ?_ rfl rfl rfl rfl rfl rfl)

theorem keep_Chip_setHead {P : Chip → Prop} (K : Keep P) (m : Chip) (h : Nat) (v : HeadState) (h0 : P m) : P (Chip.setHead m
    h v) := by
  unfold Chip.setHead
  try dsimp only
  repeat' (first | with_reducible assumption | with_reducible refine keep_lit K _ ?_ rfl rfl rfl rfl rfl rfl)

theorem keep_Chip_setEthPort {P : Chip → Prop} (K : Keep P) (m : Chip) (p : Nat) (v : EthPort) (h0 : P m) : P
    (Chip.setEthPort m p v) := by
  unfold Chip.setEthPort
  try dsimp only
  repeat' (first | with_reducible assumption | with_reducible refine keep_lit K _ ?_ rfl rfl rfl rfl rfl rfl)

theorem keep_Chip_setCam {P : Chip → Prop} (K : Keep P) (m : Chip) (n : Nat) (v : CamState) (h0 : P m) : P (Chip.setCam m n
    v) := by
  unfold Chip.setCam
  try dsimp only
  repeat' (first | with_reducible assumption | with_reducible refine keep_lit K _ ?_ rfl rfl rfl rfl rfl rfl)

theorem keep_Chip_setPoc {P : Chip → Prop} (K : Keep P) (m : Chip) (n : Nat) (v : PocState) (h0 : P m) : P (Chip.setPoc m n
    v) := by
  unfold Chip.setPoc
  try dsimp only
  repeat' (first | with_reducible assumption | with_reducible refine keep_lit K _ ?_ rfl rfl rfl rfl rfl rfl)

theorem keep_Chip_setPipe {P : Chip → Prop} (K : Keep P) (m : Chip) (n : Nat) (v : PipeState) (h0 : P m) : P (Chip.setPipe m
    n v) := by
  unfold Chip.setPipe
  try dsimp only
  repeat' (first | with_reducible assumption | with_reducible refine keep_lit K _ ?_ rfl rfl rfl rfl rfl rfl)

theorem keep_Chip_setRowPipe {P : Chip → Prop} (K : Keep P) (m : Chip) (r : Nat) (v : RowPipe) (h0 : P m) : P
    (Chip.setRowPipe m r v) := by
  unfold Chip.setRowPipe
  try dsimp only
  repeat' (first | with_reducible assumption | with_reducible refine keep_lit K _ ?_ rfl rfl rfl rfl rfl rfl)

theorem keep_Chip_setReplayCh {P : Chip → Prop} (K : Keep P) (m : Chip) (r : Nat) (v : ReplayState) (h0 : P m) : P
    (Chip.setReplayCh m r v) := by
  unfold Chip.setReplayCh
  try dsimp only
  repeat' (first | with_reducible assumption | with_reducible refine keep_lit K _ ?_ rfl rfl rfl rfl rfl rfl)

theorem keep_Chip_setScr {P : Chip → Prop} (K : Keep P) (m : Chip) (r : Nat) (v : RowScreen) (h0 : P m) : P (Chip.setScr m r
    v) := by
  unfold Chip.setScr
  try dsimp only
  repeat' (first | with_reducible assumption | with_reducible refine keep_lit K _ ?_ rfl rfl rfl rfl rfl rfl)

theorem keep_Chip_setEng {P : Chip → Prop} (K : Keep P) (m : Chip) (e : Engine) (v : EngState) (h0 : P m) : P (Chip.setEng m
    e v) := by
  unfold Chip.setEng
  try dsimp only
  repeat' (first | with_reducible assumption | with_reducible refine keep_lit K _ ?_ rfl rfl rfl rfl rfl rfl)

theorem keep_Chip_setJobRun {P : Chip → Prop} (K : Keep P) (m : Chip) (j : Nat) (v : JobRun) (h0 : P m) : P (Chip.setJobRun
    m j v) := by
  unfold Chip.setJobRun
  try dsimp only
  repeat' (first | with_reducible assumption | with_reducible refine keep_lit K _ ?_ rfl rfl rfl rfl rfl rfl)

theorem keep_Chip_take {P : Chip → Prop} (K : Keep P) (dt : Nat) (eff : Chip → Chip) (m : Chip) (h0 : ∀ x0, P x0 → P (eff
    x0)) (h1 : P m) : P (Chip.take dt eff m) := by
  unfold Chip.take
  try dsimp only
  repeat' (first | with_reducible assumption | (intro _) | with_reducible apply h0 | with_reducible apply keep_elapse K
                 | with_reducible apply keep_ite (P := P))

end Sys2Proof.Laws
end

