-- ==== Sys2Proof/Laws/Keep/Streams.lean ====
section
/-!
SUPPORT. Sys2Proof/Laws/Keep/Streams.lean: the definitions of Machine/Streams.lean keep what the primitive changes keep.
-/
namespace Sys2Proof.Laws
open Sys2Proof.Machine

theorem keep_Chip_toSubs {P : Chip → Prop} (K : Keep P) (m : Chip) (r : StreamRec) (h0 : P m) : P (Chip.toSubs m r) := by
  unfold Chip.toSubs
  try dsimp only
  repeat' (first | with_reducible assumption | (intro _) | with_reducible apply keep_Chip_bump K
                 | with_reducible apply keep_forAll (P := P) | with_reducible refine keep_lit K _ ?_ rfl rfl rfl rfl rfl rfl)

theorem keep_Chip_release {P : Chip → Prop} (K : Keep P) (m : Chip) (r : ResultRec) (h0 : P m) : P (Chip.release m r) := by
  unfold Chip.release
  try dsimp only
  repeat' (first | with_reducible assumption | with_reducible apply keep_Chip_emit K | with_reducible apply keep_Chip_toSubs K)

theorem keep_Chip_previewRec {P : Chip → Prop} (K : Keep P) (m : Chip) (r : ProvRec) (h0 : P m) : P (Chip.previewRec m r) :=
    by
  unfold Chip.previewRec
  try dsimp only
  repeat' (first | with_reducible assumption | with_reducible apply keep_Chip_emit K | with_reducible apply keep_Chip_toSubs K)

end Sys2Proof.Laws
end

