-- ==== Sys2Proof/Laws/Keep/PurSend.lean ====
section
/-!
SUPPORT. Sys2Proof/Laws/Keep/PurSend.lean: the definitions of Machine/PurSend.lean keep what the primitive changes keep.
-/
namespace Sys2Proof.Laws
open Sys2Proof.Machine

theorem keep_Chip_onPur {P : Chip → Prop} (K : Keep P) (f : PurlinState → PurlinState) (m : Chip) (h0 : P m) : P (Chip.onPur
    f m) := by
  unfold Chip.onPur
  try dsimp only
  repeat' (first | with_reducible assumption | with_reducible refine keep_lit K _ ?_ rfl rfl rfl rfl rfl rfl)

theorem keep_Chip_setPurPort {P : Chip → Prop} (K : Keep P) (p : Nat) (v : PurPort) (m : Chip) (h0 : P m) : P
    (Chip.setPurPort p v m) := by
  unfold Chip.setPurPort
  try dsimp only
  repeat' (first | with_reducible assumption | (intro _) | with_reducible apply keep_Chip_onPur K
                 | with_reducible refine keep_lit K _ ?_ rfl rfl rfl rfl rfl rfl)

theorem keep_Chip_modPurPort {P : Chip → Prop} (K : Keep P) (p : Nat) (f : PurPort → PurPort) (m : Chip) (h0 : P m) : P
    (Chip.modPurPort p f m) := by
  unfold Chip.modPurPort
  try dsimp only
  repeat' (first | with_reducible assumption | with_reducible apply keep_Chip_setPurPort K)

theorem keep_Chip_purTx {P : Chip → Prop} (K : Keep P) (p : Nat) (f : PurFrame) (m : Chip) (h0 : P m) : P (Chip.purTx p f m)
    := by
  unfold Chip.purTx
  try dsimp only
  repeat' (first | with_reducible assumption | with_reducible apply keep_Chip_bump K | with_reducible apply keep_Chip_emit K
                 | with_reducible apply keep_Chip_setPurPort K | with_reducible apply keep_ite (P := P) | split
                 | with_reducible refine keep_lit K _ ?_ rfl rfl rfl rfl rfl rfl)

theorem keep_Chip_linkSend {P : Chip → Prop} (K : Keep P) (p : Nat) (l : LinkRec) (m : Chip) (h0 : P m) : P (Chip.linkSend p
    l m) := by
  unfold Chip.linkSend
  try dsimp only
  repeat' (first | with_reducible assumption | with_reducible apply keep_Chip_purTx K)

theorem keep_Chip_giveBack {P : Chip → Prop} (K : Keep P) (p : Nat) (f : PurFrame) (m : Chip) (h0 : P m) : P (Chip.giveBack
    p f m) := by
  unfold Chip.giveBack
  try dsimp only
  repeat' (first | with_reducible assumption | with_reducible apply keep_Chip_linkSend K
                 | with_reducible apply keep_ite (P := P) | with_reducible refine keep_lit K _ ?_ rfl rfl rfl rfl rfl rfl)

theorem keep_Chip_giveBackOpt {P : Chip → Prop} (K : Keep P) (via : Option Nat) (f : PurFrame) (m : Chip) (h0 : P m) : P
    (Chip.giveBackOpt via f m) := by
  unfold Chip.giveBackOpt
  try dsimp only
  repeat' (first | with_reducible assumption | with_reducible apply keep_Chip_giveBack K | split)

theorem keep_Chip_purPump {P : Chip → Prop} (K : Keep P) (p : Nat) (y0 : Nat) (y1 : Chip) (h0 : P y1) : P (Chip.purPump p y0
    y1) := by
  induction y0 generalizing y1 with
  | zero => exact h0
  | succ n ih =>
    unfold Chip.purPump
    try dsimp only
    repeat' (first | with_reducible assumption | (intro _) | with_reducible apply ih
                   | with_reducible apply keep_Chip_setPurPort K | with_reducible apply keep_Chip_purTx K
                   | with_reducible apply keep_Chip_giveBackOpt K | with_reducible apply keep_ite (P := P) | split
                   | with_reducible refine keep_lit K _ ?_ rfl rfl rfl rfl rfl rfl)

theorem keep_Chip_purFlush {P : Chip → Prop} (K : Keep P) (p : Nat) (m : Chip) (h0 : P m) : P (Chip.purFlush p m) := by
  unfold Chip.purFlush
  try dsimp only
  repeat' (first | with_reducible assumption | with_reducible apply keep_Chip_purPump K)

theorem keep_Chip_mirrorOut {P : Chip → Prop} (K : Keep P) (body : PurBody) (length : Nat) (m : Chip) (h0 : P m) : P
    (Chip.mirrorOut body length m) := by
  unfold Chip.mirrorOut
  try dsimp only
  repeat' (first | with_reducible assumption | (intro _) | with_reducible apply keep_Chip_modPurPort K
                 | with_reducible apply keep_Chip_purFlush K | with_reducible apply keep_ite (P := P)
                 | with_reducible refine keep_lit K _ ?_ rfl rfl rfl rfl rfl rfl)

theorem keep_Chip_mirrorFrame {P : Chip → Prop} (K : Keep P) (id : Nat) (r : MirrorRec) (m : Chip) (h0 : P m) : P
    (Chip.mirrorFrame id r m) := by
  unfold Chip.mirrorFrame
  try dsimp only
  repeat' (first | with_reducible assumption | with_reducible apply keep_Chip_mirrorOut K)

end Sys2Proof.Laws
end

