-- ==== Sys2Proof/Laws/Keep/FireOps.lean ====
section
/-!
SUPPORT. Sys2Proof/Laws/Keep/FireOps.lean: the definitions of Machine/FireOps.lean keep what the primitive changes keep.
-/
namespace Sys2Proof.Laws
open Sys2Proof.Machine

theorem keep_Chip_setQueue {P : Chip → Prop} (K : Keep P) (m : Chip) (p : Nat) (q : List FEntry) (h0 : P m) : P
    (Chip.setQueue m p q) := by
  unfold Chip.setQueue
  try dsimp only
  repeat' (first | with_reducible assumption | with_reducible refine keep_lit K _ ?_ rfl rfl rfl rfl rfl rfl)

theorem keep_Chip_mirrorSend {P : Chip → Prop} (K : Keep P) (m : Chip) (r : MirrorRec) (h0 : P m) : P (Chip.mirrorSend m r)
    := by
  unfold Chip.mirrorSend
  try dsimp only
  repeat' (first | with_reducible assumption | with_reducible apply keep_Chip_mirrorFrame K
                 | with_reducible refine keep_lit K _ ?_ rfl rfl rfl rfl rfl rfl)

theorem keep_Chip_entryLeaves {P : Chip → Prop} (K : Keep P) (m : Chip) (e : FEntry) (h0 : P m) : P (Chip.entryLeaves m e)
    := by
  unfold Chip.entryLeaves
  try dsimp only
  repeat' (first | with_reducible assumption | with_reducible apply keep_Chip_release K
                 | with_reducible refine keep_lit K _ ?_ rfl rfl rfl rfl rfl rfl)

theorem keep_Chip_entryCancelled {P : Chip → Prop} (K : Keep P) (m : Chip) (e : FEntry) (h0 : P m) : P (Chip.entryCancelled
    m e) := by
  unfold Chip.entryCancelled
  try dsimp only
  repeat' (first | with_reducible assumption | with_reducible apply keep_Chip_bump K
                 | with_reducible apply keep_Chip_release K | with_reducible apply keep_Chip_mirrorSend K
                 | with_reducible apply keep_ite (P := P) | with_reducible refine keep_lit K _ ?_ rfl rfl rfl rfl rfl rfl)

theorem keep_Chip_cancelIn {P : Chip → Prop} (K : Keep P) (p : Nat) (c : FEntry → Bool) (m : Chip) (h0 : P m) : P
    (Chip.cancelIn p c m) := by
  unfold Chip.cancelIn
  try dsimp only
  repeat' (first | with_reducible assumption | (intro _) | with_reducible apply keep_Chip_setQueue K
                 | with_reducible apply keep_Chip_entryCancelled K | with_reducible apply keep_forAll (P := P)
                 | with_reducible refine keep_lit K _ ?_ rfl rfl rfl rfl rfl rfl)

theorem keep_Chip_cancelAll {P : Chip → Prop} (K : Keep P) (c : FEntry → Bool) (m : Chip) (h0 : P m) : P (Chip.cancelAll c
    m) := by
  unfold Chip.cancelAll
  try dsimp only
  repeat' (first | with_reducible assumption | (intro _) | with_reducible apply keep_Chip_cancelIn K
                 | with_reducible apply keep_forAll (P := P))

theorem keep_Chip_dropResvs {P : Chip → Prop} (K : Keep P) (c : Resv → Bool) (m : Chip) (h0 : P m) : P (Chip.dropResvs c m)
    := by
  unfold Chip.dropResvs
  try dsimp only
  repeat' (first | with_reducible assumption | (intro _) | with_reducible refine keep_lit K _ ?_ rfl rfl rfl rfl rfl rfl)

theorem keep_Chip_countDropped {P : Chip → Prop} (K : Keep P) (m : Chip) (r : Resv) (h0 : P m) : P (Chip.countDropped m r)
    := by
  unfold Chip.countDropped
  try dsimp only
  repeat' (first | with_reducible assumption | with_reducible apply keep_Chip_setFlag K
                 | with_reducible apply keep_Chip_bump K | with_reducible apply keep_ite (P := P))

theorem keep_Chip_refreshOutputs {P : Chip → Prop} (K : Keep P) (m : Chip) (h0 : P m) : P (Chip.refreshOutputs m) := by
  unfold Chip.refreshOutputs
  try dsimp only
  repeat' (first | with_reducible assumption | (intro _) | with_reducible apply keep_Chip_put K
                 | with_reducible apply keep_Chip_emit K | with_reducible apply keep_foldl (P := P)
                 | with_reducible apply keep_foldl2 (P := P) | with_reducible apply keep_ite (P := P) | dsimp only)

end Sys2Proof.Laws
end

