-- ==== Sys2Proof/Laws/Keep/FaultOps.lean ====
section
/-!
SUPPORT. Sys2Proof/Laws/Keep/FaultOps.lean: the definitions of Machine/FaultOps.lean keep what the primitive changes keep.
-/
namespace Sys2Proof.Laws
open Sys2Proof.Machine

theorem keep_Chip_setMode {P : Chip → Prop} (K : Keep P) (new : Nat) (cause : Option Src) (m : Chip) (h0 : P m) : P
    (Chip.setMode new cause m) := by
  unfold Chip.setMode
  try dsimp only
  repeat' (first | with_reducible assumption | with_reducible apply keep_Chip_put K | split)

theorem keep_Chip_dropResume {P : Chip → Prop} (K : Keep P) (m : Chip) (h0 : P m) : P (Chip.dropResume m) := by
  unfold Chip.dropResume
  try dsimp only
  repeat' (first | with_reducible assumption | with_reducible refine keep_lit K _ ?_ rfl rfl rfl rfl rfl rfl)

theorem keep_Chip_enterSafe {P : Chip → Prop} (K : Keep P) (cause : Option Src) (m : Chip) (h0 : P m) : P (Chip.enterSafe
    cause m) := by
  unfold Chip.enterSafe
  try dsimp only
  repeat' (first | with_reducible assumption | (intro _) | with_reducible apply keep_Chip_bump K
                 | with_reducible apply keep_Chip_cancelAll K | with_reducible apply keep_Chip_dropResvs K
                 | with_reducible apply keep_Chip_refreshOutputs K | with_reducible apply keep_Chip_setMode K
                 | with_reducible apply keep_Chip_dropResume K | with_reducible apply keep_ite (P := P))

theorem keep_Chip_enterFireOut {P : Chip → Prop} (K : Keep P) (cause : Option Src) (m : Chip) (h0 : P m) : P
    (Chip.enterFireOut cause m) := by
  unfold Chip.enterFireOut
  try dsimp only
  repeat' (first | with_reducible assumption | (intro _) | with_reducible apply keep_Chip_bump K
                 | with_reducible apply keep_Chip_dropResvs K | with_reducible apply keep_Chip_countDropped K
                 | with_reducible apply keep_Chip_refreshOutputs K | with_reducible apply keep_Chip_setMode K
                 | with_reducible apply keep_Chip_dropResume K | with_reducible apply keep_forAll (P := P)
                 | with_reducible apply keep_ite (P := P))

theorem keep_Chip_bucketEdge {P : Chip → Prop} (K : Keep P) (c : Src) (m : Chip) (h0 : P m) : P (Chip.bucketEdge c m) := by
  unfold Chip.bucketEdge
  try dsimp only
  repeat' (first | with_reducible assumption | with_reducible apply keep_Chip_put K | with_reducible apply keep_Chip_setFlag K
                 | with_reducible apply keep_Chip_bump K | with_reducible apply keep_Chip_setSrc K
                 | with_reducible apply keep_ite (P := P) | split
                 | with_reducible refine keep_lit K _ ?_ rfl rfl rfl rfl rfl rfl)

theorem keep_Chip_severityAct {P : Chip → Prop} (K : Keep P) (c : Src) (m : Chip) (h0 : P m) : P (Chip.severityAct c m) :=
    by
  unfold Chip.severityAct
  try dsimp only
  repeat' (first | with_reducible assumption | with_reducible apply keep_Chip_setBit K | with_reducible apply keep_Chip_emit K
                 | with_reducible apply keep_Chip_log K | with_reducible apply keep_Chip_setSrc K
                 | with_reducible apply keep_Chip_refreshOutputs K | with_reducible apply keep_Chip_enterSafe K
                 | with_reducible apply keep_ite (P := P) | with_reducible refine keep_lit K _ ?_ rfl rfl rfl rfl rfl rfl)

theorem keep_Chip_raise {P : Chip → Prop} (K : Keep P) (c : Src) (m : Chip) (h0 : P m) : P (Chip.raise c m) := by
  unfold Chip.raise
  try dsimp only
  repeat' (first | with_reducible assumption | with_reducible apply keep_Chip_setBit K
                 | with_reducible apply keep_Chip_bucketEdge K | with_reducible apply keep_Chip_severityAct K)

theorem keep_Chip_raiseIf {P : Chip → Prop} (K : Keep P) (b : Bool) (c : Src) (m : Chip) (h0 : P m) : P (Chip.raiseIf b c m)
    := by
  unfold Chip.raiseIf
  try dsimp only
  repeat' (first | with_reducible assumption | with_reducible apply keep_Chip_raise K | with_reducible apply keep_ite (P := P))

theorem keep_Chip_assert {P : Chip → Prop} (K : Keep P) (c : Src) (m : Chip) (h0 : P m) : P (Chip.assert c m) := by
  unfold Chip.assert
  try dsimp only
  repeat' (first | with_reducible assumption | with_reducible apply keep_Chip_setSrc K
                 | with_reducible apply keep_Chip_raise K | with_reducible apply keep_ite (P := P)
                 | with_reducible refine keep_lit K _ ?_ rfl rfl rfl rfl rfl rfl)

theorem keep_Chip_deassert {P : Chip → Prop} (K : Keep P) (c : Src) (m : Chip) (h0 : P m) : P (Chip.deassert c m) := by
  unfold Chip.deassert
  try dsimp only
  repeat' (first | with_reducible assumption | with_reducible apply keep_Chip_setSrc K
                 | with_reducible refine keep_lit K _ ?_ rfl rfl rfl rfl rfl rfl)

theorem keep_Chip_follow {P : Chip → Prop} (K : Keep P) (b : Bool) (c : Src) (m : Chip) (h0 : P m) : P (Chip.follow b c m)
    := by
  unfold Chip.follow
  try dsimp only
  repeat' (first | with_reducible assumption | with_reducible apply keep_Chip_assert K
                 | with_reducible apply keep_Chip_deassert K | with_reducible apply keep_ite (P := P))

end Sys2Proof.Laws
end

