-- ==== Sys2Proof/Laws/Keep/Mem.lean ====
section
/-!
SUPPORT. Sys2Proof/Laws/Keep/Mem.lean: the definitions of Machine/Mem.lean keep what the primitive changes keep.
-/
namespace Sys2Proof.Laws
open Sys2Proof.Machine

theorem keep_Chip_putByte {P : Chip → Prop} (K : Keep P) (m : Chip) (g : Nat) (b : Byte) (h0 : P m) : P (Chip.putByte m g b)
    := by
  exact K.byte _ _ _ h0

theorem keep_Chip_putBytes {P : Chip → Prop} (K : Keep P) (m : Chip) (g : Nat) (y0 : List Byte) (h0 : P m) : P
    (Chip.putBytes m g y0) := by
  induction y0 generalizing m g with
  | nil => exact h0
  | cons b t ih => exact ih _ _ (K.byte _ _ _ h0)

theorem keep_Chip_clearRange {P : Chip → Prop} (K : Keep P) (g n : Nat) (m : Chip) (h0 : P m) : P (Chip.clearRange g n m) :=
    by
  exact K.clear _ _ _ h0

theorem keep_Chip_clearSram {P : Chip → Prop} (K : Keep P) (m : Chip) (h0 : P m) : P (Chip.clearSram m) := by
  unfold Chip.clearSram
  try dsimp only
  repeat' (first | with_reducible assumption | with_reducible apply keep_Chip_clearRange K)

theorem keep_Chip_clearCm {P : Chip → Prop} (K : Keep P) (m : Chip) (h0 : P m) : P (Chip.clearCm m) := by
  exact K.cm _ h0

theorem keep_Chip_clearDram {P : Chip → Prop} (K : Keep P) (m : Chip) (h0 : P m) : P (Chip.clearDram m) := by
  exact K.dram _ h0

end Sys2Proof.Laws
end

