-- ==== Sys2Proof/Laws/Keep/PurOps.lean ====
section
/-!
SUPPORT. Sys2Proof/Laws/Keep/PurOps.lean: the definitions of Machine/PurOps.lean keep what the primitive changes keep.
-/
namespace Sys2Proof.Laws
open Sys2Proof.Machine

theorem keep_Chip_purRoute {P : Chip → Prop} (K : Keep P) (via : Option Nat) (f : PurFrame) (m : Chip) (h0 : P m) : P
    (Chip.purRoute via f m) := by
  unfold Chip.purRoute
  try dsimp only
  repeat' (first | with_reducible assumption | (intro _) | with_reducible apply keep_Chip_bump K
                 | with_reducible apply keep_Chip_modPurPort K | with_reducible apply keep_Chip_giveBackOpt K
                 | with_reducible apply keep_Chip_purFlush K | with_reducible apply keep_ite (P := P)
                 | with_reducible refine keep_lit K _ ?_ rfl rfl rfl rfl rfl rfl)

theorem keep_Chip_setFlow {P : Chip → Prop} (K : Keep P) (v : PurFlow) (m : Chip) (h0 : P m) : P (Chip.setFlow v m) := by
  unfold Chip.setFlow
  try dsimp only
  repeat' (first | with_reducible assumption | (intro _) | with_reducible apply keep_Chip_onPur K
                 | with_reducible refine keep_lit K _ ?_ rfl rfl rfl rfl rfl rfl)

theorem keep_Chip_flowDrain {P : Chip → Prop} (K : Keep P) (dev cls : Nat) (y0 : Nat) (y1 : Chip) (h0 : P y1) : P
    (Chip.flowDrain dev cls y0 y1) := by
  induction y0 generalizing y1 with
  | zero => exact h0
  | succ n ih =>
    unfold Chip.flowDrain
    try dsimp only
    repeat' (first | with_reducible assumption | (intro _) | with_reducible apply ih | with_reducible apply keep_Chip_purRoute K
                   | with_reducible apply keep_Chip_setFlow K | with_reducible apply keep_ite (P := P) | split
                   | with_reducible refine keep_lit K _ ?_ rfl rfl rfl rfl rfl rfl)

theorem keep_Chip_flowRun {P : Chip → Prop} (K : Keep P) (dev cls : Nat) (m : Chip) (h0 : P m) : P (Chip.flowRun dev cls m)
    := by
  unfold Chip.flowRun
  try dsimp only
  repeat' (first | with_reducible assumption | with_reducible apply keep_Chip_flowDrain K)

theorem keep_Chip_flowSend {P : Chip → Prop} (K : Keep P) (dev cls : Nat) (body : PurBody) (length : Nat) (m : Chip) (h0 : P
    m) : P (Chip.flowSend dev cls body length m) := by
  unfold Chip.flowSend
  try dsimp only
  repeat' (first | with_reducible assumption | with_reducible apply keep_Chip_setFlow K
                 | with_reducible apply keep_Chip_flowRun K | with_reducible refine keep_lit K _ ?_ rfl rfl rfl rfl rfl rfl)

theorem keep_Chip_flowGiveUp {P : Chip → Prop} (K : Keep P) (dev cls : Nat) (m : Chip) (h0 : P m) : P (Chip.flowGiveUp dev
    cls m) := by
  unfold Chip.flowGiveUp
  try dsimp only
  repeat' (first | with_reducible assumption | (intro _) | with_reducible apply keep_Chip_setFlagIf K
                 | with_reducible apply keep_Chip_raise K | with_reducible apply keep_Chip_setFlow K
                 | with_reducible apply keep_Chip_flowRun K | with_reducible refine keep_lit K _ ?_ rfl rfl rfl rfl rfl rfl)

theorem keep_Chip_flowResend {P : Chip → Prop} (K : Keep P) (dev cls : Nat) (m : Chip) (h0 : P m) : P (Chip.flowResend dev
    cls m) := by
  unfold Chip.flowResend
  try dsimp only
  repeat' (first | with_reducible assumption | (intro _) | with_reducible apply keep_Chip_bump K
                 | with_reducible apply keep_Chip_purRoute K | with_reducible apply keep_Chip_setFlow K
                 | with_reducible apply keep_Chip_flowGiveUp K | with_reducible apply keep_forAll (P := P)
                 | with_reducible apply keep_ite (P := P) | with_reducible refine keep_lit K _ ?_ rfl rfl rfl rfl rfl rfl)

theorem keep_Chip_flowAck {P : Chip → Prop} (K : Keep P) (dev cls seq : Nat) (m : Chip) (h0 : P m) : P (Chip.flowAck dev cls
    seq m) := by
  unfold Chip.flowAck
  try dsimp only
  repeat' (first | with_reducible assumption | (intro _) | with_reducible apply keep_Chip_setFlow K
                 | with_reducible apply keep_Chip_flowRun K | with_reducible apply keep_ite (P := P)
                 | with_reducible refine keep_lit K _ ?_ rfl rfl rfl rfl rfl rfl)

theorem keep_Chip_flowNak {P : Chip → Prop} (K : Keep P) (dev cls e : Nat) (m : Chip) (h0 : P m) : P (Chip.flowNak dev cls e
    m) := by
  unfold Chip.flowNak
  try dsimp only
  repeat' (first | with_reducible assumption | with_reducible apply keep_Chip_flowResend K
                 | with_reducible apply keep_Chip_flowAck K)

theorem keep_Chip_dataSend {P : Chip → Prop} (K : Keep P) (dev closeBay space unit dst tag : Nat) (bytes : List Byte) (m :
    Chip) (h0 : P m) : P (Chip.dataSend dev closeBay space unit dst tag bytes m) := by
  unfold Chip.dataSend
  try dsimp only
  repeat' (first | with_reducible assumption | (intro _) | with_reducible apply keep_Chip_take K
                 | with_reducible apply keep_Chip_flowSend K | with_reducible apply keep_forAll (P := P)
                 | with_reducible apply keep_ite (P := P) | with_reducible refine keep_lit K _ ?_ rfl rfl rfl rfl rfl rfl)

theorem keep_Chip_marksSend {P : Chip → Prop} (K : Keep P) (f : MarksFrame) (m : Chip) (h0 : P m) : P (Chip.marksSend f m)
    := by
  unfold Chip.marksSend
  try dsimp only
  repeat' (first | with_reducible assumption | with_reducible apply keep_Chip_flowSend K | split)

theorem keep_Chip_feed {P : Chip → Prop} (K : Keep P) (row a : Nat) (bytes : List Byte) (m : Chip) (h0 : P m) : P (Chip.feed
    row a bytes m) := by
  unfold Chip.feed
  try dsimp only
  repeat' (first | with_reducible assumption | (intro _) | with_reducible apply keep_Chip_dataSend K
                 | with_reducible apply keep_ite (P := P) | dsimp only | split)

theorem keep_Chip_feedHeader {P : Chip → Prop} (K : Keep P) (row : Nat) (bytes : List Byte) (m : Chip) (h0 : P m) : P
    (Chip.feedHeader row bytes m) := by
  unfold Chip.feedHeader
  try dsimp only
  repeat' (first | with_reducible assumption | (intro _) | with_reducible apply keep_Chip_feed K | dsimp only | split)

end Sys2Proof.Laws
end

