-- ==== Sys2Proof/Laws/Keep/WitnessOps.lean ====
section
/-!
SUPPORT. Sys2Proof/Laws/Keep/WitnessOps.lean: the definitions of Machine/WitnessOps.lean keep what the primitive changes keep.
-/
namespace Sys2Proof.Laws
open Sys2Proof.Machine

theorem keep_Chip_onWit {P : Chip → Prop} (K : Keep P) (f : WitState → WitState) (m : Chip) (h0 : P m) : P (Chip.onWit f m)
    := by
  unfold Chip.onWit
  try dsimp only
  repeat' (first | with_reducible assumption | with_reducible refine keep_lit K _ ?_ rfl rfl rfl rfl rfl rfl)

theorem keep_Chip_witPush {P : Chip → Prop} (K : Keep P) (r : WitRec) (m : Chip) (h0 : P m) : P (Chip.witPush r m) := by
  unfold Chip.witPush
  try dsimp only
  repeat' (first | with_reducible assumption | with_reducible apply keep_Chip_setFlag K
                 | with_reducible apply keep_Chip_bump K | with_reducible apply keep_ite (P := P)
                 | with_reducible refine keep_lit K _ ?_ rfl rfl rfl rfl rfl rfl)

theorem keep_Chip_witDrain {P : Chip → Prop} (K : Keep P) (m : Chip) (h0 : P m) : P (Chip.witDrain m) := by
  unfold Chip.witDrain
  try dsimp only
  repeat' (first | with_reducible assumption | (intro _) | with_reducible apply keep_Chip_emit K
                 | with_reducible apply keep_Chip_log K | with_reducible apply keep_Chip_toSubs K
                 | with_reducible apply keep_forAll (P := P) | with_reducible apply keep_ite (P := P)
                 | with_reducible refine keep_lit K _ ?_ rfl rfl rfl rfl rfl rfl)

theorem keep_Chip_ringAdd {P : Chip → Prop} (K : Keep P) (s : MarkSet) (m : Chip) (h0 : P m) : P (Chip.ringAdd s m) := by
  unfold Chip.ringAdd
  try dsimp only
  repeat' (first | with_reducible assumption | with_reducible apply keep_ite (P := P)
                 | with_reducible refine keep_lit K _ ?_ rfl rfl rfl rfl rfl rfl)

theorem keep_Chip_lockCompare {P : Chip → Prop} (K : Keep P) (f : MarksFrame) (s : MarkSet) (m : Chip) (h0 : P m) : P
    (Chip.lockCompare f s m) := by
  unfold Chip.lockCompare
  try dsimp only
  repeat' (first | with_reducible assumption | with_reducible apply keep_Chip_put K | with_reducible apply keep_Chip_setFlag K
                 | with_reducible apply keep_Chip_bump K | with_reducible apply keep_Chip_wr64 K
                 | with_reducible apply keep_Chip_raise K | with_reducible apply keep_ite (P := P) | split)

theorem keep_Chip_followSet {P : Chip → Prop} (K : Keep P) (s : MarkSet) (m : Chip) (h0 : P m) : P (Chip.followSet s m) :=
    by
  unfold Chip.followSet
  try dsimp only
  repeat' (first | with_reducible assumption | (intro _) | with_reducible apply keep_Chip_onWit K
                 | with_reducible apply keep_Chip_lockCompare K | with_reducible apply keep_ite (P := P) | split
                 | with_reducible refine keep_lit K _ ?_ rfl rfl rfl rfl rfl rfl)

theorem keep_Chip_releaseSet {P : Chip → Prop} (K : Keep P) (s0 : MarkSet) (m : Chip) (h0 : P m) : P (Chip.releaseSet s0 m)
    := by
  unfold Chip.releaseSet
  try dsimp only
  repeat' (first | with_reducible assumption | (intro _) | with_reducible apply keep_Chip_setFlag K
                 | with_reducible apply keep_Chip_setFlagIf K | with_reducible apply keep_Chip_bump K
                 | with_reducible apply keep_Chip_marksSend K | with_reducible apply keep_Chip_witPush K
                 | with_reducible apply keep_Chip_ringAdd K | with_reducible apply keep_Chip_followSet K
                 | with_reducible apply keep_forAll (P := P) | with_reducible apply keep_ite (P := P)
                 | with_reducible refine keep_lit K _ ?_ rfl rfl rfl rfl rfl rfl)

theorem keep_Chip_releasePair {P : Chip → Prop} (K : Keep P) (j k : Nat) (m : Chip) (h0 : P m) : P (Chip.releasePair j k m)
    := by
  unfold Chip.releasePair
  try dsimp only
  repeat' (first | with_reducible assumption | (intro _) | with_reducible apply keep_Chip_onWit K
                 | with_reducible apply keep_Chip_releaseSet K | split
                 | with_reducible refine keep_lit K _ ?_ rfl rfl rfl rfl rfl rfl)

theorem keep_Chip_setArrives {P : Chip → Prop} (K : Keep P) (s : MarkSet) (m : Chip) (h0 : P m) : P (Chip.setArrives s m) :=
    by
  unfold Chip.setArrives
  try dsimp only
  repeat' (first | with_reducible assumption | (intro _) | with_reducible apply keep_Chip_onWit K
                 | with_reducible apply keep_Chip_releaseSet K | with_reducible apply keep_ite (P := P)
                 | with_reducible refine keep_lit K _ ?_ rfl rfl rfl rfl rfl rfl)

theorem keep_Chip_stepDone {P : Chip → Prop} (K : Keep P) (j : Nat) (m : Chip) (h0 : P m) : P (Chip.stepDone j m) := by
  unfold Chip.stepDone
  try dsimp only
  repeat' (first | with_reducible assumption | (intro _) | with_reducible apply keep_Chip_setJobRun K
                 | with_reducible apply keep_Chip_onWit K | with_reducible apply keep_Chip_releaseSet K
                 | with_reducible apply keep_ite (P := P) | with_reducible refine keep_lit K _ ?_ rfl rfl rfl rfl rfl rfl)

end Sys2Proof.Laws
end

