-- ==== Sys2Proof/Laws/Keep/EngineOps.lean ====
section
/-!
SUPPORT. Sys2Proof/Laws/Keep/EngineOps.lean: the definitions of Machine/EngineOps.lean keep what the primitive changes keep.
-/
namespace Sys2Proof.Laws
open Sys2Proof.Machine

theorem keep_Chip_onBays {P : Chip → Prop} (K : Keep P) (f : BayState → BayState) (m : Chip) (h0 : P m) : P (Chip.onBays f
    m) := by
  unfold Chip.onBays
  try dsimp only
  repeat' (first | with_reducible assumption | with_reducible refine keep_lit K _ ?_ rfl rfl rfl rfl rfl rfl)

theorem keep_Chip_signalSem {P : Chip → Prop} (K : Keep P) (half s : Nat) (m : Chip) (h0 : P m) : P (Chip.signalSem half s
    m) := by
  unfold Chip.signalSem
  try dsimp only
  repeat' (first | with_reducible assumption | (intro _) | with_reducible apply keep_Chip_onBays K
                 | with_reducible apply keep_ite (P := P) | with_reducible refine keep_lit K _ ?_ rfl rfl rfl rfl rfl rfl)

theorem keep_Chip_signalOpt {P : Chip → Prop} (K : Keep P) (half : Nat) (s : Option Nat) (m : Chip) (h0 : P m) : P
    (Chip.signalOpt half s m) := by
  unfold Chip.signalOpt
  try dsimp only
  repeat' (first | with_reducible assumption | with_reducible apply keep_Chip_signalSem K | split)

theorem keep_Chip_invalidate {P : Chip → Prop} (K : Keep P) (j k : Nat) (m : Chip) (h0 : P m) : P (Chip.invalidate j k m) :=
    by
  unfold Chip.invalidate
  try dsimp only
  repeat' (first | with_reducible assumption | (intro _) | with_reducible apply keep_Chip_onBays K
                 | with_reducible apply keep_ite (P := P) | with_reducible refine keep_lit K _ ?_ rfl rfl rfl rfl rfl rfl)

theorem keep_Chip_noteMargin {P : Chip → Prop} (K : Keep P) (at_ : Nat) (m : Chip) (h0 : P m) : P (Chip.noteMargin at_ m) :=
    by
  unfold Chip.noteMargin
  try dsimp only
  repeat' (first | with_reducible assumption | with_reducible apply keep_Chip_put K)

theorem keep_Chip_advance {P : Chip → Prop} (K : Keep P) (e : Engine) (c : CutEntry) (m : Chip) (h0 : P m) : P (Chip.advance
    e c m) := by
  unfold Chip.advance
  try dsimp only
  repeat' (first | with_reducible assumption | with_reducible apply keep_Chip_setEng K
                 | with_reducible apply keep_Chip_noteMargin K | with_reducible apply keep_ite (P := P) | split
                 | with_reducible refine keep_lit K _ ?_ rfl rfl rfl rfl rfl rfl)

theorem keep_Chip_setDomain {P : Chip → Prop} (K : Keep P) (d : Nat) (on : Bool) (m : Chip) (h0 : P m) : P (Chip.setDomain d
    on m) := by
  unfold Chip.setDomain
  try dsimp only
  repeat' (first | with_reducible assumption | with_reducible apply keep_Chip_put K)

theorem keep_Chip_showBent {P : Chip → Prop} (K : Keep P) (n : Nat) (m : Chip) (h0 : P m) : P (Chip.showBent n m) := by
  unfold Chip.showBent
  try dsimp only
  repeat' (first | with_reducible assumption | with_reducible apply keep_Chip_put K | split)

theorem keep_Chip_showEng {P : Chip → Prop} (K : Keep P) (e : Engine) (m : Chip) (h0 : P m) : P (Chip.showEng e m) := by
  unfold Chip.showEng
  try dsimp only
  repeat' (first | with_reducible assumption | (intro _) | with_reducible apply keep_Chip_put K
                 | with_reducible apply keep_Chip_showBent K | with_reducible apply keep_ite (P := P) | split)

theorem keep_Chip_rollBack {P : Chip → Prop} (K : Keep P) (e : Engine) (m : Chip) (h0 : P m) : P (Chip.rollBack e m) := by
  unfold Chip.rollBack
  try dsimp only
  repeat' (first | with_reducible assumption | with_reducible apply keep_Chip_setFlag K
                 | with_reducible apply keep_Chip_bump K | with_reducible apply keep_Chip_setEng K
                 | with_reducible apply keep_Chip_showEng K | split
                 | with_reducible refine keep_lit K _ ?_ rfl rfl rfl rfl rfl rfl)

theorem keep_startCmd {P : Chip → Prop} (K : Keep P) (dt : Nat) (e : Engine) (c : CutEntry) (work : Chip → Running × Chip)
    (m0 : Chip) (h0 : ∀ x, P x → P (work x).2) (h1 : P m0) : P (startCmd dt e c work m0) := by
  unfold startCmd
  try dsimp only
  repeat' (first | with_reducible assumption | (intro _) | with_reducible apply h0 | with_reducible apply keep_elapse K
                 | with_reducible apply keep_Chip_setEng K | with_reducible apply keep_Chip_advance K
                 | with_reducible apply keep_Chip_showEng K | with_reducible apply keep_Chip_rollBack K
                 | with_reducible apply keep_ite (P := P) | dsimp only | split
                 | with_reducible refine keep_lit K _ ?_ rfl rfl rfl rfl rfl rfl)

theorem keep_Chip_commitWrites {P : Chip → Prop} (K : Keep P) (r : Running) (m : Chip) (h0 : P m) : P (Chip.commitWrites r
    m) := by
  unfold Chip.commitWrites
  try dsimp only
  repeat' (first | with_reducible assumption | (intro _) | with_reducible apply keep_Chip_putBytes K
                 | with_reducible apply keep_Chip_clearRange K | with_reducible apply keep_forAll (P := P) | dsimp only)

theorem keep_Chip_passMark {P : Chip → Prop} (K : Keep P) (r : Running) (m : Chip) (h0 : P m) : P (Chip.passMark r m) := by
  unfold Chip.passMark
  try dsimp only
  repeat' (first | with_reducible assumption | (intro _) | with_reducible apply keep_Chip_onWit K | split
                 | with_reducible refine keep_lit K _ ?_ rfl rfl rfl rfl rfl rfl)

theorem keep_Chip_latchSram {P : Chip → Prop} (K : Keep P) (n a : Nat) (ue scrub : Bool) (m : Chip) (h0 : P m) : P
    (Chip.latchSram n a ue scrub m) := by
  unfold Chip.latchSram
  try dsimp only
  repeat' (first | with_reducible assumption | with_reducible apply keep_Chip_put K)

theorem keep_Chip_sramCorrected {P : Chip → Prop} (K : Keep P) (scrub : Bool) (l : List Nat) (m : Chip) (h0 : P m) : P
    (Chip.sramCorrected scrub l m) := by
  unfold Chip.sramCorrected
  try dsimp only
  repeat' (first | with_reducible assumption | (intro _) | with_reducible apply keep_Chip_setFlag K
                 | with_reducible apply keep_Chip_bump K | with_reducible apply keep_Chip_latchSram K
                 | with_reducible apply keep_forAll (P := P))

theorem keep_Chip_sramLost {P : Chip → Prop} (K : Keep P) (scrub : Bool) (l : List Nat) (m : Chip) (h0 : P m) : P
    (Chip.sramLost scrub l m) := by
  unfold Chip.sramLost
  try dsimp only
  repeat' (first | with_reducible assumption | (intro _) | with_reducible apply keep_Chip_setFlag K
                 | with_reducible apply keep_Chip_bump K | with_reducible apply keep_Chip_raise K
                 | with_reducible apply keep_Chip_latchSram K | with_reducible apply keep_forAll (P := P)
                 | with_reducible apply keep_ite (P := P) | with_reducible refine keep_lit K _ ?_ rfl rfl rfl rfl rfl rfl)

theorem keep_Chip_sramParity {P : Chip → Prop} (K : Keep P) (scrub : Bool) (l : List Nat) (m : Chip) (h0 : P m) : P
    (Chip.sramParity scrub l m) := by
  unfold Chip.sramParity
  try dsimp only
  repeat' (first | with_reducible assumption | (intro _) | with_reducible apply keep_Chip_setFlag K
                 | with_reducible apply keep_Chip_bump K | with_reducible apply keep_Chip_raise K
                 | with_reducible apply keep_Chip_clearRange K | with_reducible apply keep_Chip_latchSram K
                 | with_reducible apply keep_forAll (P := P))

theorem keep_Chip_clearSeg {P : Chip → Prop} (K : Keep P) (c : SegRec → Bool) (m : Chip) (h0 : P m) : P (Chip.clearSeg c m)
    := by
  unfold Chip.clearSeg
  try dsimp only
  repeat' (first | with_reducible assumption | (intro _) | dsimp only
                 | with_reducible refine keep_lit K _ ?_ rfl rfl rfl rfl rfl rfl)

theorem keep_Chip_hbmErrs {P : Chip → Prop} (K : Keep P) (er : ReadErrs) (m : Chip) (h0 : P m) : P (Chip.hbmErrs er m) := by
  unfold Chip.hbmErrs
  try dsimp only
  repeat' (first | with_reducible assumption | (intro _) | with_reducible apply keep_Chip_wr K
                 | with_reducible apply keep_Chip_bump K | with_reducible apply keep_Chip_setBit K
                 | with_reducible apply keep_Chip_raise K | with_reducible apply keep_Chip_clearSeg K
                 | with_reducible apply keep_forAll (P := P))

theorem keep_Chip_cmErrs {P : Chip → Prop} (K : Keep P) (er : ReadErrs) (m : Chip) (h0 : P m) : P (Chip.cmErrs er m) := by
  unfold Chip.cmErrs
  try dsimp only
  repeat' (first | with_reducible assumption | (intro _) | with_reducible apply keep_Chip_wr K
                 | with_reducible apply keep_Chip_setFlag K | with_reducible apply keep_Chip_bump K
                 | with_reducible apply keep_Chip_raise K | with_reducible apply keep_forAll (P := P))

theorem keep_Chip_collisions {P : Chip → Prop} (K : Keep P) (l : List Nat) (m : Chip) (h0 : P m) : P (Chip.collisions l m)
    := by
  unfold Chip.collisions
  try dsimp only
  repeat' (first | with_reducible assumption | (intro _) | with_reducible apply keep_Chip_setFlag K
                 | with_reducible apply keep_Chip_bump K | with_reducible apply keep_forAll (P := P))

theorem keep_Chip_meetErrs {P : Chip → Prop} (K : Keep P) (e : Engine) (c : CutEntry) (reads : List (Nat × Nat)) (er0 :
    ReadErrs) (m : Chip) (h0 : P m) : P (Chip.meetErrs e c reads er0 m) := by
  unfold Chip.meetErrs
  try dsimp only
  repeat' (first | with_reducible assumption | with_reducible apply keep_Chip_setEng K
                 | with_reducible apply keep_Chip_invalidate K | with_reducible apply keep_Chip_sramCorrected K
                 | with_reducible apply keep_Chip_sramLost K | with_reducible apply keep_Chip_sramParity K
                 | with_reducible apply keep_Chip_hbmErrs K | with_reducible apply keep_Chip_cmErrs K
                 | with_reducible apply keep_Chip_collisions K | with_reducible apply keep_ite (P := P)
                 | with_reducible refine keep_lit K _ ?_ rfl rfl rfl rfl rfl rfl)

end Sys2Proof.Laws
end

