-- ==== Sys2Proof/Laws/Keep/Encoder.lean ====
section
/-!
SUPPORT. Sys2Proof/Laws/Keep/Encoder.lean: the definitions of Machine/Encoder.lean keep what the primitive changes keep.
-/
namespace Sys2Proof.Laws
open Sys2Proof.Machine

theorem keep_Chip_putPos {P : Chip → Prop} (K : Keep P) (m : Chip) (lo hi : Nat) (pos : Int) (h0 : P m) : P (Chip.putPos m
    lo hi pos) := by
  unfold Chip.putPos
  try dsimp only
  repeat' (first | with_reducible assumption | with_reducible apply keep_Chip_wr K)

theorem keep_Chip_setEncState {P : Chip → Prop} (K : Keep P) (m : Chip) (p st : Nat) (h0 : P m) : P (Chip.setEncState m p
    st) := by
  unfold Chip.setEncState
  try dsimp only
  repeat' (first | with_reducible assumption | with_reducible apply keep_Chip_put K)

theorem keep_Chip_markEstimate {P : Chip → Prop} (K : Keep P) (p : Nat) (pos : Q) (m : Chip) (h0 : P m) : P
    (Chip.markEstimate p pos m) := by
  unfold Chip.markEstimate
  try dsimp only
  repeat' (first | with_reducible assumption | (intro _) | with_reducible apply keep_Chip_setFlagIf K
                 | with_reducible apply keep_Chip_bumpBy K | with_reducible apply keep_Chip_release K
                 | with_reducible apply keep_Chip_setQueue K | with_reducible apply keep_forAll (P := P)
                 | with_reducible apply keep_foldl (P := P) | with_reducible apply keep_foldl2 (P := P)
                 | with_reducible apply keep_ite (P := P) | dsimp only | split
                 | with_reducible refine keep_lit K _ ?_ rfl rfl rfl rfl rfl rfl)

theorem keep_Chip_forgetLeft {P : Chip → Prop} (K : Keep P) (p : Nat) (m : Chip) (h0 : P m) : P (Chip.forgetLeft p m) := by
  unfold Chip.forgetLeft
  try dsimp only
  repeat' (first | with_reducible assumption | (intro _) | dsimp only | split
                 | with_reducible refine keep_lit K _ ?_ rfl rfl rfl rfl rfl rfl)

theorem keep_Chip_encLost {P : Chip → Prop} (K : Keep P) (cause p : Nat) (m : Chip) (h0 : P m) : P (Chip.encLost cause p m)
    := by
  unfold Chip.encLost
  try dsimp only
  repeat' (first | with_reducible assumption | with_reducible apply keep_Chip_setFlag K
                 | with_reducible apply keep_Chip_bump K | with_reducible apply keep_Chip_setEnc K
                 | with_reducible apply keep_Chip_assert K | with_reducible apply keep_Chip_setEncState K
                 | with_reducible apply keep_ite (P := P) | with_reducible refine keep_lit K _ ?_ rfl rfl rfl rfl rfl rfl)

theorem keep_Chip_encRecover {P : Chip → Prop} (K : Keep P) (p : Nat) (m : Chip) (h0 : P m) : P (Chip.encRecover p m) := by
  unfold Chip.encRecover
  try dsimp only
  repeat' (first | with_reducible assumption | with_reducible apply keep_Chip_setEnc K
                 | with_reducible apply keep_Chip_follow K | with_reducible apply keep_Chip_setEncState K
                 | with_reducible refine keep_lit K _ ?_ rfl rfl rfl rfl rfl rfl)

theorem keep_Chip_encMove {P : Chip → Prop} (K : Keep P) (p : Nat) (d : Int) (m : Chip) (h0 : P m) : P (Chip.encMove p d m)
    := by
  unfold Chip.encMove
  try dsimp only
  repeat' (first | with_reducible assumption | with_reducible apply keep_Chip_put K | with_reducible apply keep_Chip_setEnc K
                 | with_reducible apply keep_Chip_forgetLeft K | with_reducible apply keep_ite (P := P) | split
                 | with_reducible refine keep_lit K _ ?_ rfl rfl rfl rfl rfl rfl)

theorem keep_Chip_quadStep {P : Chip → Prop} (K : Keep P) (p : Nat) (d : Int) (m : Chip) (h0 : P m) : P (Chip.quadStep p d
    m) := by
  unfold Chip.quadStep
  try dsimp only
  repeat' (first | with_reducible assumption | (intro _) | with_reducible apply keep_Chip_setEnc K
                 | with_reducible apply keep_Chip_take K | with_reducible apply keep_Chip_setEncState K
                 | with_reducible apply keep_Chip_encMove K | with_reducible apply keep_ite (P := P)
                 | with_reducible refine keep_lit K _ ?_ rfl rfl rfl rfl rfl rfl)

theorem keep_quadratureEdge {P : Chip → Prop} (K : Keep P) (dt p : Nat) (a b : Bool) (m0 : Chip) (h0 : P m0) : P
    (quadratureEdge dt p a b m0) := by
  unfold quadratureEdge
  try dsimp only
  repeat' (first | with_reducible assumption | with_reducible apply keep_Chip_setFlag K
                 | with_reducible apply keep_Chip_bump K | with_reducible apply keep_elapse K
                 | with_reducible apply keep_Chip_setEnc K | with_reducible apply keep_Chip_quadStep K
                 | with_reducible apply keep_ite (P := P) | split
                 | with_reducible refine keep_lit K _ ?_ rfl rfl rfl rfl rfl rfl)

theorem keep_beltStop {P : Chip → Prop} (K : Keep P) (dt p : Nat) (m0 : Chip) (h0 : P m0) : P (beltStop dt p m0) := by
  unfold beltStop
  try dsimp only
  repeat' (first | with_reducible assumption | with_reducible apply keep_Chip_setFlag K
                 | with_reducible apply keep_Chip_bump K | with_reducible apply keep_elapse K
                 | with_reducible apply keep_Chip_setEnc K | with_reducible apply keep_Chip_setEncState K
                 | with_reducible apply keep_ite (P := P) | split
                 | with_reducible refine keep_lit K _ ?_ rfl rfl rfl rfl rfl rfl)

theorem keep_Chip_rephase {P : Chip → Prop} (K : Keep P) (p : Nat) (pos err : Q) (base : Int) (m : Chip) (h0 : P m) : P
    (Chip.rephase p pos err base m) := by
  unfold Chip.rephase
  try dsimp only
  repeat' (first | with_reducible assumption | with_reducible apply keep_Chip_setEnc K
                 | with_reducible refine keep_lit K _ ?_ rfl rfl rfl rfl rfl rfl)

theorem keep_Chip_windowClose {P : Chip → Prop} (K : Keep P) (p : Nat) (m : Chip) (h0 : P m) : P (Chip.windowClose p m) :=
    by
  unfold Chip.windowClose
  try dsimp only
  repeat' (first | with_reducible assumption | with_reducible apply keep_Chip_setFlag K
                 | with_reducible apply keep_Chip_bump K | with_reducible apply keep_Chip_setEnc K
                 | with_reducible apply keep_Chip_markEstimate K | with_reducible apply keep_Chip_encLost K
                 | with_reducible apply keep_Chip_encMove K | with_reducible apply keep_Chip_rephase K
                 | with_reducible apply keep_ite (P := P) | split
                 | with_reducible refine keep_lit K _ ?_ rfl rfl rfl rfl rfl rfl)

theorem keep_toothWindowExpiry {P : Chip → Prop} (K : Keep P) (dt p : Nat) (m0 : Chip) (h0 : P m0) : P (toothWindowExpiry dt
    p m0) := by
  unfold toothWindowExpiry
  try dsimp only
  repeat' (first | with_reducible assumption | with_reducible apply keep_elapse K
                 | with_reducible apply keep_Chip_windowClose K | with_reducible apply keep_ite (P := P))

theorem keep_Chip_closeWindows {P : Chip → Prop} (K : Keep P) (p : Nat) (y0 : Nat) (y1 : Chip) (h0 : P y1) : P
    (Chip.closeWindows p y0 y1) := by
  induction y0 generalizing y1 with
  | zero => exact h0
  | succ n ih =>
    unfold Chip.closeWindows
    try dsimp only
    repeat' (first | with_reducible assumption | with_reducible apply ih | with_reducible apply keep_Chip_windowClose K
                   | with_reducible apply keep_ite (P := P) | split)

theorem keep_toothEdge {P : Chip → Prop} (K : Keep P) (dt p : Nat) (b : Bool) (m00 : Chip) (h0 : P m00) : P (toothEdge dt p
    b m00) := by
  unfold toothEdge
  try dsimp only
  repeat' (first | with_reducible assumption | with_reducible apply keep_Chip_setFlag K
                 | with_reducible apply keep_Chip_bump K | with_reducible apply keep_elapse K
                 | with_reducible apply keep_Chip_setEnc K | with_reducible apply keep_Chip_setEncState K
                 | with_reducible apply keep_Chip_markEstimate K | with_reducible apply keep_Chip_encRecover K
                 | with_reducible apply keep_Chip_encMove K | with_reducible apply keep_Chip_rephase K
                 | with_reducible apply keep_Chip_closeWindows K | with_reducible apply keep_ite (P := P) | split
                 | with_reducible refine keep_lit K _ ?_ rfl rfl rfl rfl rfl rfl)

theorem keep_ssiSample {P : Chip → Prop} (K : Keep P) (dt p raw : Nat) (lineHigh : Bool) (m0 : Chip) (h0 : P m0) : P
    (ssiSample dt p raw lineHigh m0) := by
  unfold ssiSample
  try dsimp only
  repeat' (first | with_reducible assumption | with_reducible apply keep_Chip_setFlag K
                 | with_reducible apply keep_Chip_bump K | with_reducible apply keep_elapse K
                 | with_reducible apply keep_Chip_setEnc K | with_reducible apply keep_Chip_setEncState K
                 | with_reducible apply keep_Chip_encLost K | with_reducible apply keep_Chip_encRecover K
                 | with_reducible apply keep_Chip_encMove K | with_reducible apply keep_ite (P := P) | split
                 | with_reducible refine keep_lit K _ ?_ rfl rfl rfl rfl rfl rfl)

theorem keep_encoderLineFault {P : Chip → Prop} (K : Keep P) (dt p i : Nat) (m0 : Chip) (h0 : P m0) : P (encoderLineFault dt
    p i m0) := by
  unfold encoderLineFault
  try dsimp only
  repeat' (first | with_reducible assumption | with_reducible apply keep_Chip_setFlag K | with_reducible apply keep_elapse K
                 | with_reducible apply keep_Chip_setEnc K | with_reducible apply keep_Chip_encLost K
                 | with_reducible apply keep_ite (P := P) | with_reducible refine keep_lit K _ ?_ rfl rfl rfl rfl rfl rfl)

theorem keep_lineFaultClear {P : Chip → Prop} (K : Keep P) (dt p i : Nat) (m0 : Chip) (h0 : P m0) : P (lineFaultClear dt p i
    m0) := by
  unfold lineFaultClear
  try dsimp only
  repeat' (first | with_reducible assumption | with_reducible apply keep_elapse K | with_reducible apply keep_Chip_setEnc K
                 | with_reducible apply keep_Chip_encRecover K | with_reducible apply keep_ite (P := P)
                 | with_reducible refine keep_lit K _ ?_ rfl rfl rfl rfl rfl rfl)

theorem keep_indexEdge {P : Chip → Prop} (K : Keep P) (dt p : Nat) (m0 : Chip) (h0 : P m0) : P (indexEdge dt p m0) := by
  unfold indexEdge
  try dsimp only
  repeat' (first | with_reducible assumption | with_reducible apply keep_Chip_put K | with_reducible apply keep_Chip_setFlag K
                 | with_reducible apply keep_Chip_bump K | with_reducible apply keep_elapse K
                 | with_reducible apply keep_Chip_setEnc K | with_reducible apply keep_Chip_raise K
                 | with_reducible apply keep_Chip_putPos K | with_reducible apply keep_ite (P := P) | split
                 | with_reducible refine keep_lit K _ ?_ rfl rfl rfl rfl rfl rfl)

theorem keep_Chip_probeLatch {P : Chip → Prop} (K : Keep P) (p : Nat) (m : Chip) (h0 : P m) : P (Chip.probeLatch p m) := by
  unfold Chip.probeLatch
  try dsimp only
  repeat' (first | with_reducible assumption | with_reducible apply keep_Chip_put K
                 | with_reducible apply keep_Chip_setFlagIf K | with_reducible apply keep_Chip_bump K
                 | with_reducible apply keep_Chip_wr64 K | with_reducible apply keep_Chip_setEnc K
                 | with_reducible apply keep_Chip_putPos K | with_reducible refine keep_lit K _ ?_ rfl rfl rfl rfl rfl rfl)

theorem keep_probeEdge {P : Chip → Prop} (K : Keep P) (dt p src : Nat) (m0 : Chip) (h0 : P m0) : P (probeEdge dt p src m0)
    := by
  unfold probeEdge
  try dsimp only
  repeat' (first | with_reducible assumption | with_reducible apply keep_elapse K
                 | with_reducible apply keep_Chip_probeLatch K | with_reducible apply keep_ite (P := P))

theorem keep_probeSeqRead {P : Chip → Prop} (K : Keep P) (p : Nat) (m : Chip) (h0 : P m) : P (probeSeqRead p m) := by
  unfold probeSeqRead
  try dsimp only
  repeat' (first | with_reducible assumption | with_reducible apply keep_Chip_setEnc K
                 | with_reducible refine keep_lit K _ ?_ rfl rfl rfl rfl rfl rfl)

theorem keep_Chip_encBayLatch {P : Chip → Prop} (K : Keep P) (m : Chip) (h0 : P m) : P (Chip.encBayLatch m) := by
  unfold Chip.encBayLatch
  try dsimp only
  repeat' (first | with_reducible assumption | (intro _) | with_reducible apply keep_Chip_putPos K
                 | with_reducible apply keep_forAll (P := P) | with_reducible apply keep_ite (P := P))

end Sys2Proof.Laws
end

