-- ==== Sys2Proof/Laws/Keep/Firing.lean ====
section
/-!
SUPPORT. Sys2Proof/Laws/Keep/Firing.lean: the definitions of Machine/Firing.lean keep what the primitive changes keep.
-/
namespace Sys2Proof.Laws
open Sys2Proof.Machine

theorem keep_Chip_onFire {P : Chip → Prop} (K : Keep P) (f : FireState → FireState) (m : Chip) (h0 : P m) : P (Chip.onFire f
    m) := by
  unfold Chip.onFire
  try dsimp only
  repeat' (first | with_reducible assumption | with_reducible refine keep_lit K _ ?_ rfl rfl rfl rfl rfl rfl)

theorem keep_Chip_commitSamples {P : Chip → Prop} (K : Keep P) (stream strip obj : Nat) (m : Chip) (h0 : P m) : P
    (Chip.commitSamples stream strip obj m) := by
  unfold Chip.commitSamples
  try dsimp only
  repeat' (first | with_reducible assumption | (intro _) | with_reducible apply keep_Chip_bumpBy K
                 | with_reducible apply keep_Chip_setHead K | with_reducible apply keep_forAll (P := P)
                 | with_reducible apply keep_foldl (P := P) | with_reducible apply keep_foldl2 (P := P)
                 | with_reducible apply keep_ite (P := P) | dsimp only
                 | with_reducible refine keep_lit K _ ?_ rfl rfl rfl rfl rfl rfl)

theorem keep_Chip_countObj {P : Chip → Prop} (K : Keep P) (row : Nat) (r : ResultRec) (m : Chip) (h0 : P m) : P
    (Chip.countObj row r m) := by
  unfold Chip.countObj
  try dsimp only
  repeat' (first | with_reducible assumption | with_reducible apply keep_Chip_bump K | with_reducible apply keep_ite (P := P)
                 | split)

theorem keep_Chip_keepEvidence {P : Chip → Prop} (K : Keep P) (row : Nat) (r : ResultRec) (m : Chip) (h0 : P m) : P
    (Chip.keepEvidence row r m) := by
  unfold Chip.keepEvidence
  try dsimp only
  repeat' (first | with_reducible assumption | (intro _) | with_reducible apply keep_Chip_log K
                 | with_reducible apply keep_Chip_onFire K | with_reducible apply keep_ite (P := P) | split
                 | with_reducible refine keep_lit K _ ?_ rfl rfl rfl rfl rfl rfl)

theorem keep_Chip_releaseObj {P : Chip → Prop} (K : Keep P) (row : Nat) (r : ResultRec) (m : Chip) (h0 : P m) : P
    (Chip.releaseObj row r m) := by
  unfold Chip.releaseObj
  try dsimp only
  repeat' (first | with_reducible assumption | with_reducible apply keep_Chip_release K
                 | with_reducible apply keep_Chip_commitSamples K | with_reducible apply keep_Chip_countObj K
                 | with_reducible apply keep_Chip_keepEvidence K | with_reducible apply keep_ite (P := P))

theorem keep_Chip_releaseHeld {P : Chip → Prop} (K : Keep P) (k : EntKey) (m : Chip) (h0 : P m) : P (Chip.releaseHeld k m)
    := by
  unfold Chip.releaseHeld
  try dsimp only
  repeat' (first | with_reducible assumption | (intro _) | with_reducible apply keep_Chip_onFire K
                 | with_reducible apply keep_Chip_releaseObj K | split
                 | with_reducible refine keep_lit K _ ?_ rfl rfl rfl rfl rfl rfl)

theorem keep_Chip_queueEntry {P : Chip → Prop} (K : Keep P) (e : FEntry) (m : Chip) (h0 : P m) : P (Chip.queueEntry e m) :=
    by
  unfold Chip.queueEntry
  try dsimp only
  repeat' (first | with_reducible assumption | (intro _) | with_reducible apply keep_Chip_put K
                 | with_reducible apply keep_Chip_bump K | with_reducible apply keep_Chip_setQueue K
                 | with_reducible apply keep_Chip_cancelIn K | with_reducible apply keep_Chip_releaseHeld K
                 | with_reducible apply keep_ite (P := P))

theorem keep_Chip_offer {P : Chip → Prop} (K : Keep P) (l : List FEntry) (m : Chip) (h0 : P m) : P (Chip.offer l m).2 := by
  unfold Chip.offer
  try dsimp only
  repeat' (first | with_reducible assumption | (intro _) | with_reducible apply keep_Chip_setFlag K
                 | with_reducible apply keep_Chip_bump K | with_reducible apply keep_Chip_mirrorSend K
                 | with_reducible apply keep_Chip_raise K | with_reducible apply keep_Chip_queueEntry K
                 | with_reducible apply keep_foldl (P := P) | with_reducible apply keep_foldl2 (P := P)
                 | with_reducible apply keep_ite (P := P) | dsimp only | split)

theorem keep_Chip_addEntries {P : Chip → Prop} (K : Keep P) (r k n : Nat) (m : Chip) (h0 : P m) : P (Chip.addEntries r k n
    m) := by
  unfold Chip.addEntries
  try dsimp only
  repeat' (first | with_reducible assumption | (intro _) | with_reducible apply keep_Chip_onFire K | dsimp only
                 | with_reducible refine keep_lit K _ ?_ rfl rfl rfl rfl rfl rfl)

theorem keep_Chip_settle {P : Chip → Prop} (K : Keep P) (o : ObjIn) (r : ResultRec) (waits : Bool) (m : Chip) (h0 : P m) : P
    (Chip.settle o r waits m) := by
  unfold Chip.settle
  try dsimp only
  repeat' (first | with_reducible assumption | (intro _) | with_reducible apply keep_Chip_onFire K
                 | with_reducible apply keep_Chip_releaseObj K | with_reducible apply keep_ite (P := P)
                 | with_reducible refine keep_lit K _ ?_ rfl rfl rfl rfl rfl rfl)

theorem keep_Chip_judgeObj {P : Chip → Prop} (K : Keep P) (o : ObjIn) (indet : Bool) (m : Chip) (h0 : P m) : P
    (Chip.judgeObj o indet m) := by
  unfold Chip.judgeObj
  try dsimp only
  repeat' (first | with_reducible assumption | (intro _) | with_reducible apply keep_Chip_setFlag K
                 | with_reducible apply keep_Chip_bumpBy K | with_reducible apply keep_Chip_bump K
                 | with_reducible apply keep_Chip_raise K | with_reducible apply keep_Chip_onFire K
                 | with_reducible apply keep_Chip_releaseObj K | with_reducible apply keep_Chip_offer K
                 | with_reducible apply keep_Chip_addEntries K | with_reducible apply keep_ite (P := P) | dsimp only | split
                 | with_reducible refine keep_lit K _ ?_ rfl rfl rfl rfl rfl rfl)

theorem keep_Chip_takeObj {P : Chip → Prop} (K : Keep P) (o : ObjIn) (m : Chip) (h0 : P m) : P (Chip.takeObj o m) := by
  unfold Chip.takeObj
  try dsimp only
  repeat' (first | with_reducible assumption | with_reducible apply keep_Chip_releaseObj K
                 | with_reducible apply keep_Chip_judgeObj K | with_reducible apply keep_ite (P := P) | split
                 | with_reducible refine keep_lit K _ ?_ rfl rfl rfl rfl rfl rfl)

theorem keep_Chip_takeInbox {P : Chip → Prop} (K : Keep P) (p : VerdictGroup → Bool) (m : Chip) (h0 : P m) : P
    (Chip.takeInbox p m) := by
  unfold Chip.takeInbox
  try dsimp only
  repeat' (first | with_reducible assumption | (intro _) | with_reducible apply keep_Chip_onFire K
                 | with_reducible refine keep_lit K _ ?_ rfl rfl rfl rfl rfl rfl)

theorem keep_Chip_markTaken {P : Chip → Prop} (K : Keep P) (j stream row strip closeBay : Nat) (m : Chip) (h0 : P m) : P
    (Chip.markTaken j stream row strip closeBay m) := by
  unfold Chip.markTaken
  try dsimp only
  repeat' (first | with_reducible assumption | (intro _) | with_reducible apply keep_Chip_onFire K
                 | with_reducible apply keep_ite (P := P) | with_reducible refine keep_lit K _ ?_ rfl rfl rfl rfl rfl rfl)

theorem keep_Chip_countDue {P : Chip → Prop} (K : Keep P) (c : ClosedStrip → Bool) (m : Chip) (h0 : P m) : P (Chip.countDue
    c m) := by
  unfold Chip.countDue
  try dsimp only
  repeat' (first | with_reducible assumption | (intro _) | with_reducible apply keep_Chip_bump K
                 | with_reducible apply keep_Chip_onFire K | with_reducible apply keep_forAll (P := P)
                 | with_reducible apply keep_ite (P := P) | with_reducible refine keep_lit K _ ?_ rfl rfl rfl rfl rfl rfl)

theorem keep_Chip_resolve {P : Chip → Prop} (K : Keep P) (row strip : Nat) (m : Chip) (h0 : P m) : P (Chip.resolve row strip
    m) := by
  unfold Chip.resolve
  try dsimp only
  repeat' (first | with_reducible assumption | (intro _) | with_reducible apply keep_Chip_bump K
                 | with_reducible apply keep_Chip_dropResvs K | with_reducible apply keep_Chip_countDropped K
                 | with_reducible apply keep_Chip_countDue K | with_reducible apply keep_forAll (P := P)
                 | with_reducible apply keep_foldl (P := P) | with_reducible apply keep_foldl2 (P := P)
                 | with_reducible apply keep_ite (P := P) | dsimp only | split)

theorem keep_Chip_afterGroup {P : Chip → Prop} (K : Keep P) (j row strip closeBay : Nat) (m : Chip) (h0 : P m) : P
    (Chip.afterGroup j row strip closeBay m) := by
  unfold Chip.afterGroup
  try dsimp only
  repeat' (first | with_reducible assumption | (intro _) | with_reducible apply keep_Chip_onWit K
                 | with_reducible apply keep_Chip_releaseSet K | with_reducible apply keep_Chip_releasePair K
                 | with_reducible apply keep_Chip_onFire K | with_reducible apply keep_Chip_resolve K
                 | with_reducible apply keep_ite (P := P) | dsimp only | split
                 | with_reducible refine keep_lit K _ ?_ rfl rfl rfl rfl rfl rfl)

theorem keep_Chip_takeExtent {P : Chip → Prop} (K : Keep P) (c : ClosedStrip) (job stream : Nat) (m : Chip) (h0 : P m) : P
    (Chip.takeExtent c job stream m) := by
  unfold Chip.takeExtent
  try dsimp only
  repeat' (first | with_reducible assumption | with_reducible apply keep_Chip_judgeObj K
                 | with_reducible apply keep_ite (P := P) | split)

theorem keep_Chip_takeEmpty {P : Chip → Prop} (K : Keep P) (g : VerdictGroup) (c : ClosedStrip) (m : Chip) (h0 : P m) : P
    (Chip.takeEmpty g c m) := by
  unfold Chip.takeEmpty
  try dsimp only
  repeat' (first | with_reducible assumption | with_reducible apply keep_Chip_takeExtent K
                 | with_reducible apply keep_ite (P := P) | split)

theorem keep_verdictGroup {P : Chip → Prop} (K : Keep P) (dt : Nat) (g : VerdictGroup) (m0 : Chip) (h0 : P m0) : P
    (verdictGroup dt g m0) := by
  unfold verdictGroup
  try dsimp only
  repeat' (first | with_reducible assumption | (intro _) | with_reducible apply keep_elapse K
                 | with_reducible apply keep_Chip_takeObj K | with_reducible apply keep_Chip_takeInbox K
                 | with_reducible apply keep_Chip_markTaken K | with_reducible apply keep_Chip_afterGroup K
                 | with_reducible apply keep_Chip_takeEmpty K | with_reducible apply keep_forAll (P := P)
                 | with_reducible apply keep_ite (P := P) | split)

theorem keep_Chip_noticeObj {P : Chip → Prop} (K : Keep P) (stream closeBay job : Nat) (p : ProvRec) (m : Chip) (h0 : P m) :
    P (Chip.noticeObj stream closeBay job p m) := by
  unfold Chip.noticeObj
  try dsimp only
  repeat' (first | with_reducible assumption | (intro _) | with_reducible apply keep_Chip_onFire K
                 | with_reducible apply keep_Chip_takeObj K | with_reducible apply keep_ite (P := P)
                 | with_reducible refine keep_lit K _ ?_ rfl rfl rfl rfl rfl rfl)

theorem keep_Chip_takeNotice {P : Chip → Prop} (K : Keep P) (c : ClosedStrip) (job stream : Nat) (m : Chip) (h0 : P m) : P
    (Chip.takeNotice c job stream m) := by
  unfold Chip.takeNotice
  try dsimp only
  repeat' (first | with_reducible assumption | (intro _) | with_reducible apply keep_Chip_markTaken K
                 | with_reducible apply keep_Chip_afterGroup K | with_reducible apply keep_Chip_takeExtent K
                 | with_reducible apply keep_Chip_noticeObj K | with_reducible apply keep_forAll (P := P)
                 | with_reducible apply keep_ite (P := P))

theorem keep_overrunNotice {P : Chip → Prop} (K : Keep P) (dt job stream row strip closeBay : Nat) (m0 : Chip) (h0 : P m0) :
    P (overrunNotice dt job stream row strip closeBay m0) := by
  unfold overrunNotice
  try dsimp only
  repeat' (first | with_reducible assumption | with_reducible apply keep_elapse K | with_reducible apply keep_Chip_takeInbox K
                 | with_reducible apply keep_Chip_takeNotice K | with_reducible apply keep_ite (P := P) | split)

theorem keep_verdictDeadline {P : Chip → Prop} (K : Keep P) (dt : Nat) (m0 : Chip) (h0 : P m0) : P (verdictDeadline dt m0)
    := by
  unfold verdictDeadline
  try dsimp only
  repeat' (first | with_reducible assumption | (intro _) | with_reducible apply keep_elapse K
                 | with_reducible apply keep_Chip_takeNotice K | with_reducible apply keep_forAll (P := P)
                 | with_reducible apply keep_ite (P := P) | dsimp only | split
                 | with_reducible refine keep_lit K _ ?_ rfl rfl rfl rfl rfl rfl)

theorem keep_Chip_lateAction {P : Chip → Prop} (K : Keep P) (r : Resv) (m : Chip) (h0 : P m) : P (Chip.lateAction r m) := by
  unfold Chip.lateAction
  try dsimp only
  repeat' (first | with_reducible assumption | (intro _) | with_reducible apply keep_Chip_setFlag K
                 | with_reducible apply keep_Chip_bump K | with_reducible apply keep_Chip_onFire K
                 | with_reducible apply keep_Chip_releaseObj K | with_reducible apply keep_Chip_offer K
                 | with_reducible apply keep_ite (P := P) | dsimp only | split
                 | with_reducible refine keep_lit K _ ?_ rfl rfl rfl rfl rfl rfl)

theorem keep_lateConfirmMark {P : Chip → Prop} (K : Keep P) (dt : Nat) (m0 : Chip) (h0 : P m0) : P (lateConfirmMark dt m0)
    := by
  unfold lateConfirmMark
  try dsimp only
  repeat' (first | with_reducible assumption | (intro _) | with_reducible apply keep_elapse K
                 | with_reducible apply keep_Chip_lateAction K | with_reducible apply keep_forAll (P := P))

theorem keep_Chip_reserve {P : Chip → Prop} (K : Keep P) (closeBay : Nat) (p : ProvRec) (m : Chip) (h0 : P m) : P
    (Chip.reserve closeBay p m) := by
  unfold Chip.reserve
  try dsimp only
  repeat' (first | with_reducible assumption | (intro _) | with_reducible apply keep_Chip_onFire K
                 | with_reducible apply keep_Chip_lateAction K | with_reducible apply keep_forAll (P := P)
                 | with_reducible apply keep_ite (P := P) | dsimp only | split
                 | with_reducible refine keep_lit K _ ?_ rfl rfl rfl rfl rfl rfl)

theorem keep_Chip_mirrorTake {P : Chip → Prop} (K : Keep P) (o : MirrorOut) (m : Chip) (h0 : P m) : P (Chip.mirrorTake o m)
    := by
  unfold Chip.mirrorTake
  try dsimp only
  repeat' (first | with_reducible assumption | (intro _) | with_reducible apply keep_Chip_onFire K
                 | with_reducible refine keep_lit K _ ?_ rfl rfl rfl rfl rfl rfl)

theorem keep_mirrorAck {P : Chip → Prop} (K : Keep P) (dt id : Nat) (m0 : Chip) (h0 : P m0) : P (mirrorAck dt id m0) := by
  unfold mirrorAck
  try dsimp only
  repeat' (first | with_reducible assumption | (intro _) | with_reducible apply keep_Chip_bump K
                 | with_reducible apply keep_elapse K | with_reducible apply keep_Chip_queueEntry K
                 | with_reducible apply keep_Chip_mirrorTake K | split)

theorem keep_mirrorResend {P : Chip → Prop} (K : Keep P) (dt : Nat) (m0 : Chip) (h0 : P m0) : P (mirrorResend dt m0) := by
  unfold mirrorResend
  try dsimp only
  repeat' (first | with_reducible assumption | (intro _) | with_reducible apply keep_Chip_bump K
                 | with_reducible apply keep_elapse K | with_reducible apply keep_Chip_mirrorFrame K
                 | with_reducible apply keep_Chip_onFire K | with_reducible apply keep_forAll (P := P)
                 | with_reducible apply keep_ite (P := P) | with_reducible refine keep_lit K _ ?_ rfl rfl rfl rfl rfl rfl)

theorem keep_mirrorTimeout {P : Chip → Prop} (K : Keep P) (dt : Nat) (m0 : Chip) (h0 : P m0) : P (mirrorTimeout dt m0) := by
  unfold mirrorTimeout
  try dsimp only
  repeat' (first | with_reducible assumption | (intro _) | with_reducible apply keep_Chip_setFlag K
                 | with_reducible apply keep_Chip_bump K | with_reducible apply keep_elapse K
                 | with_reducible apply keep_Chip_raise K | with_reducible apply keep_Chip_queueEntry K
                 | with_reducible apply keep_Chip_mirrorTake K | with_reducible apply keep_forAll (P := P) | split
                 | with_reducible refine keep_lit K _ ?_ rfl rfl rfl rfl rfl rfl)

theorem keep_Chip_countCorrect {P : Chip → Prop} (K : Keep P) (p : Nat) (pos : Int) (m : Chip) (h0 : P m) : P
    (Chip.countCorrect p pos m) := by
  unfold Chip.countCorrect
  try dsimp only
  repeat' (first | with_reducible assumption | with_reducible apply keep_Chip_put K | with_reducible apply keep_Chip_setFlag K
                 | with_reducible apply keep_Chip_setEnc K | with_reducible apply keep_Chip_raise K
                 | with_reducible apply keep_Chip_putPos K | with_reducible apply keep_ite (P := P) | split)

theorem keep_mirrorRecord {P : Chip → Prop} (K : Keep P) (dt id : Nat) (r : MirrorRec) (m0 : Chip) (h0 : P m0) : P
    (mirrorRecord dt id r m0) := by
  unfold mirrorRecord
  try dsimp only
  repeat' (first | with_reducible assumption | (intro _) | with_reducible apply keep_Chip_setFlag K
                 | with_reducible apply keep_elapse K | with_reducible apply keep_Chip_mirrorOut K
                 | with_reducible apply keep_Chip_cancelIn K | with_reducible apply keep_Chip_queueEntry K
                 | with_reducible apply keep_mirrorAck K | with_reducible apply keep_Chip_countCorrect K
                 | with_reducible apply keep_forAll (P := P) | with_reducible apply keep_ite (P := P) | dsimp only | split)

theorem keep_mirrorKeepalive {P : Chip → Prop} (K : Keep P) (dt : Nat) (m0 : Chip) (h0 : P m0) : P (mirrorKeepalive dt m0)
    := by
  unfold mirrorKeepalive
  try dsimp only
  repeat' (first | with_reducible assumption | with_reducible apply keep_elapse K | with_reducible apply keep_Chip_linkSend K
                 | with_reducible apply keep_ite (P := P) | with_reducible refine keep_lit K _ ?_ rfl rfl rfl rfl rfl rfl)

theorem keep_mirrorLinkLoss {P : Chip → Prop} (K : Keep P) (dt : Nat) (m0 : Chip) (h0 : P m0) : P (mirrorLinkLoss dt m0) :=
    by
  unfold mirrorLinkLoss
  try dsimp only
  repeat' (first | with_reducible assumption | with_reducible apply keep_elapse K | with_reducible apply keep_Chip_assert K
                 | with_reducible apply keep_ite (P := P))

end Sys2Proof.Laws
end

