-- ==== Sys2Proof/Laws/Keep/Jobs.lean ====
section
/-!
SUPPORT. Sys2Proof/Laws/Keep/Jobs.lean: the definitions of Machine/Jobs.lean keep what the primitive changes keep.
-/
namespace Sys2Proof.Laws
open Sys2Proof.Machine

theorem keep_jobCtrlWrite {P : Chip → Prop} (K : Keep P) (dt j v : Nat) (m0 : Chip) (h0 : P m0) : P (jobCtrlWrite dt j v m0)
    := by
  unfold jobCtrlWrite
  try dsimp only
  repeat' (first | with_reducible assumption | with_reducible apply keep_Chip_wr K | with_reducible apply keep_Chip_put K
                 | with_reducible apply keep_Chip_setFlag K | with_reducible apply keep_elapse K
                 | with_reducible apply keep_Chip_setJobRun K | with_reducible apply keep_ite (P := P) | split
                 | with_reducible refine keep_lit K _ ?_ rfl rfl rfl rfl rfl rfl)

theorem keep_marginReset {P : Chip → Prop} (K : Keep P) (m : Chip) (h0 : P m) : P (marginReset m) := by
  unfold marginReset
  try dsimp only
  repeat' (first | with_reducible assumption | with_reducible apply keep_Chip_put K)

theorem keep_gate {P : Chip → Prop} (K : Keep P) (dt n : Nat) (c : CutEntry) (m0 : Chip) (h0 : P m0) : P (gate dt n c m0) :=
    by
  unfold gate
  try dsimp only
  repeat' (first | with_reducible assumption | with_reducible apply keep_elapse K | with_reducible apply keep_Chip_setEng K
                 | with_reducible apply keep_Chip_setDomain K | with_reducible apply keep_Chip_showBent K
                 | with_reducible apply keep_ite (P := P) | with_reducible refine keep_lit K _ ?_ rfl rfl rfl rfl rfl rfl)

theorem keep_wake {P : Chip → Prop} (K : Keep P) (dt n : Nat) (c : CutEntry) (m0 : Chip) (h0 : P m0) : P (wake dt n c m0) :=
    by
  unfold wake
  try dsimp only
  repeat' (first | with_reducible assumption | with_reducible apply keep_elapse K | with_reducible apply keep_Chip_setEng K
                 | with_reducible apply keep_Chip_setDomain K | with_reducible apply keep_Chip_showBent K
                 | with_reducible apply keep_ite (P := P) | with_reducible refine keep_lit K _ ?_ rfl rfl rfl rfl rfl rfl)

theorem keep_backgroundWindow {P : Chip → Prop} (K : Keep P) (dt : Nat) (e : Engine) (c : CutEntry) (m0 : Chip) (h0 : P m0)
    : P (backgroundWindow dt e c m0) := by
  unfold backgroundWindow
  try dsimp only
  repeat' (first | with_reducible assumption | with_reducible apply keep_elapse K | with_reducible apply keep_Chip_setEng K
                 | with_reducible apply keep_ite (P := P) | with_reducible refine keep_lit K _ ?_ rfl rfl rfl rfl rfl rfl)

theorem keep_segmentRollback {P : Chip → Prop} (K : Keep P) (dt : Nat) (e : Engine) (m0 : Chip) (h0 : P m0) : P
    (segmentRollback dt e m0) := by
  unfold segmentRollback
  try dsimp only
  repeat' (first | with_reducible assumption | with_reducible apply keep_elapse K | with_reducible apply keep_Chip_rollBack K
                 | with_reducible apply keep_ite (P := P) | split)

theorem keep_Chip_countDone {P : Chip → Prop} (K : Keep P) (e : Engine) (r : Running) (m : Chip) (h0 : P m) : P
    (Chip.countDone e r m) := by
  unfold Chip.countDone
  try dsimp only
  repeat' (first | with_reducible assumption | (intro _) | with_reducible apply keep_Chip_wr K
                 | with_reducible apply keep_Chip_put K | with_reducible apply keep_Chip_setFlagIf K
                 | with_reducible apply keep_Chip_bumpBy K | with_reducible apply keep_Chip_bump K
                 | with_reducible apply keep_Chip_bumpIf K | with_reducible apply keep_forAll (P := P)
                 | with_reducible apply keep_ite (P := P) | dsimp only | split)

theorem keep_Chip_countStop {P : Chip → Prop} (K : Keep P) (e : Engine) (r : Running) (m : Chip) (h0 : P m) : P
    (Chip.countStop e r m) := by
  unfold Chip.countStop
  try dsimp only
  repeat' (first | with_reducible assumption | (intro _) | with_reducible apply keep_Chip_setFlag K
                 | with_reducible apply keep_Chip_bump K | with_reducible apply keep_forAll (P := P)
                 | with_reducible apply keep_ite (P := P) | dsimp only | split)

theorem keep_Chip_saveLive {P : Chip → Prop} (K : Keep P) (e : Engine) (j k : Nat) (m : Chip) (h0 : P m) : P (Chip.saveLive
    e j k m) := by
  unfold Chip.saveLive
  try dsimp only
  repeat' (first | with_reducible assumption | (intro _) | with_reducible apply keep_Chip_setEng K
                 | with_reducible apply keep_Chip_putBytes K | split
                 | with_reducible refine keep_lit K _ ?_ rfl rfl rfl rfl rfl rfl)

theorem keep_Chip_parkBg {P : Chip → Prop} (K : Keep P) (e : Engine) (j : Nat) (m : Chip) (h0 : P m) : P (Chip.parkBg e j m)
    := by
  unfold Chip.parkBg
  try dsimp only
  repeat' (first | with_reducible assumption | with_reducible apply keep_Chip_saveLive K
                 | with_reducible apply keep_ite (P := P) | split)

theorem keep_Chip_bgAdvance {P : Chip → Prop} (K : Keep P) (e : Engine) (j busy : Nat) (m : Chip) (h0 : P m) : P
    (Chip.bgAdvance e j busy m) := by
  unfold Chip.bgAdvance
  try dsimp only
  repeat' (first | with_reducible assumption | (intro _) | with_reducible apply keep_Chip_setEng K
                 | with_reducible apply keep_Chip_stepDone K | with_reducible apply keep_Chip_parkBg K
                 | with_reducible apply keep_ite (P := P) | split
                 | with_reducible refine keep_lit K _ ?_ rfl rfl rfl rfl rfl rfl)

theorem keep_commandComplete {P : Chip → Prop} (K : Keep P) (dt : Nat) (e : Engine) (bg : Bool) (m0 : Chip) (h0 : P m0) : P
    (commandComplete dt e bg m0) := by
  unfold commandComplete
  try dsimp only
  repeat' (first | with_reducible assumption | with_reducible apply keep_elapse K | with_reducible apply keep_Chip_setEng K
                 | with_reducible apply keep_Chip_signalOpt K | with_reducible apply keep_Chip_noteMargin K
                 | with_reducible apply keep_Chip_showEng K | with_reducible apply keep_Chip_commitWrites K
                 | with_reducible apply keep_Chip_passMark K | with_reducible apply keep_Chip_countDone K
                 | with_reducible apply keep_Chip_bgAdvance K | with_reducible apply keep_ite (P := P) | split
                 | with_reducible refine keep_lit K _ ?_ rfl rfl rfl rfl rfl rfl)

theorem keep_Chip_overrun {P : Chip → Prop} (K : Keep P) (j k : Nat) (m : Chip) (h0 : P m) : P (Chip.overrun j k m) := by
  unfold Chip.overrun
  try dsimp only
  repeat' (first | with_reducible assumption | (intro _) | with_reducible apply keep_Chip_setFlag K
                 | with_reducible apply keep_Chip_bump K | with_reducible apply keep_Chip_onBays K
                 | with_reducible apply keep_Chip_invalidate K | with_reducible apply keep_ite (P := P)
                 | with_reducible refine keep_lit K _ ?_ rfl rfl rfl rfl rfl rfl)

theorem keep_Chip_deadline {P : Chip → Prop} (K : Keep P) (e : Engine) (m : Chip) (h0 : P m) : P (Chip.deadline e m) := by
  unfold Chip.deadline
  try dsimp only
  repeat' (first | with_reducible assumption | (intro _) | with_reducible apply keep_Chip_put K
                 | with_reducible apply keep_Chip_setFlag K | with_reducible apply keep_Chip_setEng K
                 | with_reducible apply keep_Chip_countStop K | with_reducible apply keep_Chip_overrun K
                 | with_reducible apply keep_forAll (P := P) | with_reducible apply keep_ite (P := P) | split
                 | with_reducible refine keep_lit K _ ?_ rfl rfl rfl rfl rfl rfl)

theorem keep_Chip_engBoundary {P : Chip → Prop} (K : Keep P) (e : Engine) (m0 : Chip) (h0 : P m0) : P (Chip.engBoundary e
    m0) := by
  unfold Chip.engBoundary
  try dsimp only
  repeat' (first | with_reducible assumption | with_reducible apply keep_Chip_put K | with_reducible apply keep_Chip_setEng K
                 | with_reducible apply keep_Chip_showEng K | with_reducible apply keep_Chip_rollBack K | split
                 | with_reducible refine keep_lit K _ ?_ rfl rfl rfl rfl rfl rfl)

theorem keep_Chip_forgetBg {P : Chip → Prop} (K : Keep P) (j : Nat) (m : Chip) (h0 : P m) : P (Chip.forgetBg j m) := by
  unfold Chip.forgetBg
  try dsimp only
  repeat' (first | with_reducible assumption | (intro _) | with_reducible apply keep_Chip_setEng K
                 | with_reducible apply keep_Chip_setJobRun K | with_reducible apply keep_forAll (P := P)
                 | with_reducible refine keep_lit K _ ?_ rfl rfl rfl rfl rfl rfl)

theorem keep_Chip_abortJob {P : Chip → Prop} (K : Keep P) (j b : Nat) (m : Chip) (h0 : P m) : P (Chip.abortJob j b m) := by
  unfold Chip.abortJob
  try dsimp only
  repeat' (first | with_reducible assumption | (intro _) | with_reducible apply keep_Chip_bump K
                 | with_reducible apply keep_Chip_release K | with_reducible apply keep_Chip_dropResvs K
                 | with_reducible apply keep_Chip_onFire K | with_reducible apply keep_forAll (P := P)
                 | with_reducible apply keep_ite (P := P) | dsimp only
                 | with_reducible refine keep_lit K _ ?_ rfl rfl rfl rfl rfl rfl)

theorem keep_Chip_flushJob {P : Chip → Prop} (K : Keep P) (j b : Nat) (m : Chip) (h0 : P m) : P (Chip.flushJob j b m) := by
  unfold Chip.flushJob
  try dsimp only
  repeat' (first | with_reducible assumption | (intro _) | with_reducible refine keep_lit K _ ?_ rfl rfl rfl rfl rfl rfl)

theorem keep_Chip_disableJob {P : Chip → Prop} (K : Keep P) (b j v : Nat) (m : Chip) (h0 : P m) : P (Chip.disableJob b j v
    m) := by
  unfold Chip.disableJob
  try dsimp only
  repeat' (first | with_reducible assumption | (intro _) | with_reducible apply keep_Chip_setJobRun K
                 | with_reducible apply keep_Chip_cancelAll K | with_reducible apply keep_Chip_dropResvs K
                 | with_reducible apply keep_Chip_parkBg K | with_reducible apply keep_Chip_forgetBg K
                 | with_reducible apply keep_Chip_abortJob K | with_reducible apply keep_Chip_flushJob K
                 | with_reducible apply keep_forAll (P := P) | with_reducible apply keep_ite (P := P) | dsimp only | split
                 | with_reducible refine keep_lit K _ ?_ rfl rfl rfl rfl rfl rfl)

theorem keep_Chip_jobBoundary {P : Chip → Prop} (K : Keep P) (b j : Nat) (m : Chip) (h0 : P m) : P (Chip.jobBoundary b j m)
    := by
  unfold Chip.jobBoundary
  try dsimp only
  repeat' (first | with_reducible assumption | with_reducible apply keep_Chip_put K
                 | with_reducible apply keep_Chip_setJobRun K | with_reducible apply keep_Chip_disableJob K
                 | with_reducible apply keep_ite (P := P) | with_reducible refine keep_lit K _ ?_ rfl rfl rfl rfl rfl rfl)

theorem keep_Chip_reportUnjudged {P : Chip → Prop} (K : Keep P) (b : Nat) (m : Chip) (h0 : P m) : P (Chip.reportUnjudged b
    m) := by
  unfold Chip.reportUnjudged
  try dsimp only
  repeat' (first | with_reducible assumption | (intro _) | with_reducible apply keep_Chip_bump K
                 | with_reducible apply keep_Chip_release K | with_reducible apply keep_forAll (P := P)
                 | with_reducible apply keep_ite (P := P) | with_reducible refine keep_lit K _ ?_ rfl rfl rfl rfl rfl rfl)

end Sys2Proof.Laws
end

