-- ==== Sys2Proof/Laws/Keep/Bents.lean ====
section
/-!
SUPPORT. Sys2Proof/Laws/Keep/Bents.lean: the definitions of Machine/Bents.lean keep what the primitive changes keep.
-/
namespace Sys2Proof.Laws
open Sys2Proof.Machine

theorem keep_Chip_showCur {P : Chip → Prop} (K : Keep P) (n : Nat) (c : CutEntry) (m : Chip) (h0 : P m) : P (Chip.showCur n
    c m) := by
  unfold Chip.showCur
  try dsimp only
  repeat' (first | with_reducible assumption | with_reducible apply keep_Chip_put K)

theorem keep_Chip_noteStall {P : Chip → Prop} (K : Keep P) (n cycles : Nat) (m : Chip) (h0 : P m) : P (Chip.noteStall n
    cycles m) := by
  unfold Chip.noteStall
  try dsimp only
  repeat' (first | with_reducible assumption | with_reducible apply keep_Chip_setFlag K
                 | with_reducible apply keep_Chip_setEng K | with_reducible apply keep_ite (P := P)
                 | with_reducible refine keep_lit K _ ?_ rfl rfl rfl rfl rfl rfl)

theorem keep_bentWork {P : Chip → Prop} (K : Keep P) (n : Nat) (c : CutEntry) (er : ReadErrs) (stall : Nat) (reads : Chip →
    Reads) (f : Chip → Running) (m : Chip) (h0 : P m) : P (bentWork n c er stall reads f m).2 := by
  unfold bentWork
  try dsimp only
  repeat' (first | with_reducible assumption | with_reducible apply keep_Chip_meetErrs K
                 | with_reducible apply keep_Chip_showCur K | with_reducible apply keep_Chip_noteStall K)

theorem keep_bentCommand {P : Chip → Prop} (K : Keep P) (dt n op : Nat) (c : CutEntry) (er : ReadErrs) (stall : Nat) (reads
    : Chip → Reads) (f : Chip → Running) (m0 : Chip) (h0 : P m0) : P (bentCommand dt n op c er stall reads f m0) := by
  unfold bentCommand
  try dsimp only
  repeat' (first | with_reducible assumption | (intro _) | with_reducible apply keep_elapse K
                 | with_reducible apply keep_startCmd K | with_reducible apply keep_bentWork K
                 | with_reducible apply keep_ite (P := P))

theorem keep_matmul {P : Chip → Prop} (K : Keep P) (dt n : Nat) (c : CutEntry) (pl : CmdPlan) (y0 : Chip) (h0 : P y0) : P
    (matmul dt n c pl y0) := by
  unfold matmul
  try dsimp only
  repeat' (first | with_reducible assumption | (intro _) | with_reducible apply keep_bentCommand K)

theorem keep_combine {P : Chip → Prop} (K : Keep P) (dt n : Nat) (c : CutEntry) (pl : CmdPlan) (y0 : Chip) (h0 : P y0) : P
    (combine dt n c pl y0) := by
  unfold combine
  try dsimp only
  repeat' (first | with_reducible assumption | (intro _) | with_reducible apply keep_bentCommand K)

theorem keep_vector {P : Chip → Prop} (K : Keep P) (dt n : Nat) (c : CutEntry) (v : VecPlan) (pl : CmdPlan) (y0 : Chip) (h0
    : P y0) : P (vector dt n c v pl y0) := by
  unfold vector
  try dsimp only
  repeat' (first | with_reducible assumption | (intro _) | with_reducible apply keep_bentCommand K)

end Sys2Proof.Laws
end

