-- ==== Sys2Proof/Laws/Keep/Attention.lean ====
section
/-!
SUPPORT. Sys2Proof/Laws/Keep/Attention.lean: the definitions of Machine/Attention.lean keep what the primitive changes keep.
-/
namespace Sys2Proof.Laws
open Sys2Proof.Machine

theorem keep_Chip_attFlags {P : Chip → Prop} (K : Keep P) (b : Back) (m : Chip) (h0 : P m) : P (Chip.attFlags b m) := by
  unfold Chip.attFlags
  try dsimp only
  repeat' (first | with_reducible assumption | with_reducible apply keep_Chip_setFlagIf K)

theorem keep_attendWork {P : Chip → Prop} (K : Keep P) (c : CutEntry) (pl : CmdPlan) (m0 : Chip) (h0 : P m0) : P (attendWork
    c pl m0).2 := by
  unfold attendWork
  try dsimp only
  repeat' (first | with_reducible assumption | (intro _) | with_reducible apply keep_Chip_setFlag K
                 | with_reducible apply keep_Chip_bumpBy K | with_reducible apply keep_Chip_meetErrs K
                 | with_reducible apply keep_Chip_attFlags K | with_reducible apply keep_forAll (P := P)
                 | with_reducible apply keep_foldl (P := P) | with_reducible apply keep_foldl2 (P := P)
                 | with_reducible apply keep_ite (P := P) | dsimp only
                 | with_reducible refine keep_lit K _ ?_ rfl rfl rfl rfl rfl rfl)

theorem keep_attend {P : Chip → Prop} (K : Keep P) (dt : Nat) (c : CutEntry) (pl : CmdPlan) (m0 : Chip) (h0 : P m0) : P
    (attend dt c pl m0) := by
  unfold attend
  try dsimp only
  repeat' (first | with_reducible assumption | (intro _) | with_reducible apply keep_elapse K
                 | with_reducible apply keep_startCmd K | with_reducible apply keep_attendWork K
                 | with_reducible apply keep_ite (P := P))

theorem keep_appendWork {P : Chip → Prop} (K : Keep P) (c : CutEntry) (er : ReadErrs) (m0 : Chip) (h0 : P m0) : P
    (appendWork c er m0).2 := by
  unfold appendWork
  try dsimp only
  repeat' (first | with_reducible assumption | (intro _) | with_reducible apply keep_Chip_setFlag K
                 | with_reducible apply keep_Chip_bumpBy K | with_reducible apply keep_Chip_putBytes K
                 | with_reducible apply keep_Chip_meetErrs K | with_reducible apply keep_Chip_attFlags K
                 | with_reducible apply keep_forAll (P := P) | with_reducible apply keep_ite (P := P) | dsimp only | split
                 | with_reducible refine keep_lit K _ ?_ rfl rfl rfl rfl rfl rfl)

theorem keep_Chip_streamTables {P : Chip → Prop} (K : Keep P) (b : Nat) (m : Chip) (h0 : P m) : P (Chip.streamTables b m) :=
    by
  unfold Chip.streamTables
  try dsimp only
  repeat' (first | with_reducible assumption | (intro _) | with_reducible apply keep_Chip_take K
                 | with_reducible apply keep_Chip_putBytes K | with_reducible apply keep_forAll (P := P)
                 | with_reducible apply keep_ite (P := P))

theorem keep_append {P : Chip → Prop} (K : Keep P) (dt : Nat) (c : CutEntry) (er : ReadErrs) (m0 : Chip) (h0 : P m0) : P
    (append dt c er m0) := by
  unfold append
  try dsimp only
  repeat' (first | with_reducible assumption | (intro _) | with_reducible apply keep_elapse K
                 | with_reducible apply keep_startCmd K | with_reducible apply keep_appendWork K
                 | with_reducible apply keep_ite (P := P))

end Sys2Proof.Laws
end

