-- ==== Sys2Proof/Laws/Keep/Pipeline.lean ====
section
/-!
SUPPORT. Sys2Proof/Laws/Keep/Pipeline.lean: the definitions of Machine/Pipeline.lean keep what the primitive changes keep.
-/
namespace Sys2Proof.Laws
open Sys2Proof.Machine

theorem keep_Chip_onGang {P : Chip → Prop} (_ : Keep P) (g : Gang) (f : Nat → Chip → Chip) (m : Chip) (h0 : ∀ x0 x1, P x1 →
    P (f x0 x1)) (h1 : P m) : P (Chip.onGang g f m) := by
  unfold Chip.onGang
  try dsimp only
  repeat' (first | with_reducible assumption | (intro _) | with_reducible apply h0 | with_reducible apply keep_forAll (P := P))

theorem keep_Chip_lpFlag {P : Chip → Prop} (K : Keep P) (g : Gang) (f : Nat → Fld) (m : Chip) (h0 : P m) : P (Chip.lpFlag g
    f m) := by
  unfold Chip.lpFlag
  try dsimp only
  repeat' (first | with_reducible assumption | (intro _) | with_reducible apply keep_Chip_setFlag K
                 | with_reducible apply keep_Chip_onGang K)

theorem keep_Chip_showPipe {P : Chip → Prop} (K : Keep P) (g : Gang) (m : Chip) (h0 : P m) : P (Chip.showPipe g m) := by
  unfold Chip.showPipe
  try dsimp only
  repeat' (first | with_reducible assumption | (intro _) | with_reducible apply keep_Chip_put K
                 | with_reducible apply keep_Chip_onGang K | with_reducible apply keep_ite (P := P) | split)

theorem keep_Chip_syncReset {P : Chip → Prop} (K : Keep P) (g : Gang) (m : Chip) (h0 : P m) : P (Chip.syncReset g m) := by
  unfold Chip.syncReset
  try dsimp only
  repeat' (first | with_reducible assumption | with_reducible apply keep_Chip_bump K
                 | with_reducible apply keep_Chip_setPipe K | with_reducible apply keep_Chip_lpFlag K
                 | with_reducible apply keep_ite (P := P) | with_reducible refine keep_lit K _ ?_ rfl rfl rfl rfl rfl rfl)

theorem keep_Chip_writeLineRec {P : Chip → Prop} (K : Keep P) (c : CameraRec) (x : InLine) (m : Chip) (h0 : P m) : P
    (Chip.writeLineRec c x m) := by
  unfold Chip.writeLineRec
  try dsimp only
  repeat' (first | with_reducible assumption | with_reducible apply keep_Chip_setCam K
                 | with_reducible apply keep_Chip_putBytes K | with_reducible apply keep_Chip_feed K
                 | with_reducible apply keep_ite (P := P) | split
                 | with_reducible refine keep_lit K _ ?_ rfl rfl rfl rfl rfl rfl)

theorem keep_Chip_writeSnapshot {P : Chip → Prop} (K : Keep P) (g : Gang) (strip : Nat) (m : Chip) (h0 : P m) : P
    (Chip.writeSnapshot g strip m) := by
  unfold Chip.writeSnapshot
  try dsimp only
  repeat' (first | with_reducible assumption | (intro _) | with_reducible apply keep_Chip_setPipe K
                 | with_reducible apply keep_Chip_putBytes K | with_reducible apply keep_Chip_feed K
                 | with_reducible apply keep_ite (P := P) | split
                 | with_reducible refine keep_lit K _ ?_ rfl rfl rfl rfl rfl rfl)

theorem keep_Chip_stripBoundary {P : Chip → Prop} (K : Keep P) (g : Gang) (s : Nat) (m : Chip) (h0 : P m) : P
    (Chip.stripBoundary g s m) := by
  unfold Chip.stripBoundary
  try dsimp only
  repeat' (first | with_reducible assumption | with_reducible apply keep_Chip_setPipe K
                 | with_reducible apply keep_Chip_showPipe K | with_reducible apply keep_Chip_syncReset K
                 | with_reducible apply keep_Chip_writeSnapshot K | with_reducible apply keep_ite (P := P) | split
                 | with_reducible refine keep_lit K _ ?_ rfl rfl rfl rfl rfl rfl)

theorem keep_Chip_writeLevel {P : Chip → Prop} (K : Keep P) (r slot l k : Nat) (px : List Pix) (m : Chip) (h0 : P m) : P
    (Chip.writeLevel r slot l k px m) := by
  unfold Chip.writeLevel
  try dsimp only
  repeat' (first | with_reducible assumption | with_reducible apply keep_Chip_putBytes K)

theorem keep_Chip_beginStrip {P : Chip → Prop} (K : Keep P) (r s idx : Nat) (m : Chip) (h0 : P m) : P (Chip.beginStrip r s
    idx m) := by
  unfold Chip.beginStrip
  try dsimp only
  repeat' (first | with_reducible assumption | (intro _) | with_reducible apply keep_Chip_bump K
                 | with_reducible apply keep_Chip_setRowPipe K | with_reducible apply keep_Chip_lpFlag K
                 | with_reducible apply keep_Chip_writeLevel K | with_reducible apply keep_forAll (P := P)
                 | with_reducible apply keep_ite (P := P) | dsimp only
                 | with_reducible refine keep_lit K _ ?_ rfl rfl rfl rfl rfl rfl)

theorem keep_Chip_levelLine {P : Chip → Prop} (K : Keep P) (r : Nat) (slot : Option Nat) (y0 : Nat) (y1 : Nat) (y2 : Nat)
    (y3 : List Pix) (y4 : Chip) (h0 : P y4) : P (Chip.levelLine r slot y0 y1 y2 y3 y4) := by
  induction y0 generalizing y1 y2 y3 y4 with
  | zero => exact h0
  | succ n ih =>
    unfold Chip.levelLine
    try dsimp only
    repeat' (first | with_reducible assumption | (intro _) | with_reducible apply ih
                   | with_reducible apply keep_Chip_setRowPipe K | with_reducible apply keep_Chip_writeLevel K
                   | with_reducible apply keep_ite (P := P) | dsimp only | split
                   | with_reducible refine keep_lit K _ ?_ rfl rfl rfl rfl rfl rfl)

theorem keep_Chip_queueFull {P : Chip → Prop} (K : Keep P) (r idx : Nat) (m : Chip) (h0 : P m) : P (Chip.queueFull r idx m)
    := by
  unfold Chip.queueFull
  try dsimp only
  repeat' (first | with_reducible assumption | (intro _) | with_reducible apply keep_Chip_bump K
                 | with_reducible apply keep_Chip_setRowPipe K | with_reducible apply keep_Chip_lpFlag K
                 | with_reducible apply keep_forAll (P := P) | with_reducible apply keep_ite (P := P) | split
                 | with_reducible refine keep_lit K _ ?_ rfl rfl rfl rfl rfl rfl)

theorem keep_Chip_rowLine {P : Chip → Prop} (K : Keep P) (r idx : Nat) (count : Int) (tb3 : Nat) (cut : Bool) (px0 : List
    Pix) (m : Chip) (h0 : P m) : P (Chip.rowLine r idx count tb3 cut px0 m) := by
  unfold Chip.rowLine
  try dsimp only
  repeat' (first | with_reducible assumption | (intro _) | with_reducible apply keep_Chip_setRowPipe K
                 | with_reducible apply keep_Chip_beginStrip K | with_reducible apply keep_Chip_levelLine K
                 | with_reducible apply keep_Chip_queueFull K | with_reducible apply keep_ite (P := P) | split
                 | with_reducible refine keep_lit K _ ?_ rfl rfl rfl rfl rfl rfl)

theorem keep_Chip_stitchReady {P : Chip → Prop} (K : Keep P) (r : Nat) (y0 : Nat) (y1 : Chip) (h0 : P y1) : P
    (Chip.stitchReady r y0 y1) := by
  induction y0 generalizing y1 with
  | zero => exact h0
  | succ n ih =>
    unfold Chip.stitchReady
    try dsimp only
    repeat' (first | with_reducible assumption | (intro _) | with_reducible apply ih
                   | with_reducible apply keep_Chip_setRowPipe K | with_reducible apply keep_Chip_rowLine K
                   | with_reducible apply keep_ite (P := P) | dsimp only | split
                   | with_reducible refine keep_lit K _ ?_ rfl rfl rfl rfl rfl rfl)

theorem keep_Chip_alignReady {P : Chip → Prop} (K : Keep P) (g : Gang) (y0 : Nat) (y1 : Chip) (h0 : P y1) : P
    (Chip.alignReady g y0 y1) := by
  induction y0 generalizing y1 with
  | zero => exact h0
  | succ n ih =>
    unfold Chip.alignReady
    try dsimp only
    repeat' (first | with_reducible assumption | (intro _) | with_reducible apply ih | with_reducible apply keep_Chip_bump K
                   | with_reducible apply keep_Chip_setPipe K | with_reducible apply keep_Chip_setRowPipe K
                   | with_reducible apply keep_Chip_lpFlag K | with_reducible apply keep_ite (P := P) | dsimp only | split
                   | with_reducible refine keep_lit K _ ?_ rfl rfl rfl rfl rfl rfl)

theorem keep_Chip_procLine {P : Chip → Prop} (K : Keep P) (g : Gang) (x : InLine) (m : Chip) (h0 : P m) : P (Chip.procLine g
    x m) := by
  unfold Chip.procLine
  try dsimp only
  repeat' (first | with_reducible assumption | (intro _) | with_reducible apply keep_Chip_bump K
                 | with_reducible apply keep_Chip_setPipe K | with_reducible apply keep_Chip_onGang K
                 | with_reducible apply keep_Chip_stripBoundary K | with_reducible apply keep_Chip_stitchReady K
                 | with_reducible apply keep_Chip_alignReady K | with_reducible apply keep_ite (P := P) | dsimp only | split
                 | with_reducible refine keep_lit K _ ?_ rfl rfl rfl rfl rfl rfl)

theorem keep_Chip_runPipe {P : Chip → Prop} (K : Keep P) (g : Gang) (y0 : Nat) (y1 : Chip) (h0 : P y1) : P (Chip.runPipe g
    y0 y1) := by
  induction y0 generalizing y1 with
  | zero => exact h0
  | succ n ih =>
    unfold Chip.runPipe
    try dsimp only
    repeat' (first | with_reducible assumption | with_reducible apply ih | with_reducible apply keep_Chip_setPipe K
                   | with_reducible apply keep_Chip_stripBoundary K | with_reducible apply keep_Chip_procLine K
                   | with_reducible apply keep_ite (P := P) | split
                   | with_reducible refine keep_lit K _ ?_ rfl rfl rfl rfl rfl rfl)

theorem keep_Chip_runGang {P : Chip → Prop} (K : Keep P) (g : Gang) (m : Chip) (h0 : P m) : P (Chip.runGang g m) := by
  unfold Chip.runGang
  try dsimp only
  repeat' (first | with_reducible assumption | with_reducible apply keep_Chip_runPipe K)

theorem keep_Chip_pipeTrigger {P : Chip → Prop} (K : Keep P) (g : Gang) (idx : Nat) (count : Int) (tb3 : Nat) (m : Chip) (h0
    : P m) : P (Chip.pipeTrigger g idx count tb3 m) := by
  unfold Chip.pipeTrigger
  try dsimp only
  repeat' (first | with_reducible assumption | with_reducible apply keep_Chip_setPipe K
                 | with_reducible apply keep_Chip_runGang K | with_reducible refine keep_lit K _ ?_ rfl rfl rfl rfl rfl rfl)

theorem keep_Chip_routeDiscard {P : Chip → Prop} (K : Keep P) (g : Gang) (m : Chip) (h0 : P m) : P (Chip.routeDiscard g m)
    := by
  unfold Chip.routeDiscard
  try dsimp only
  repeat' (first | with_reducible assumption | (intro _) | with_reducible apply keep_Chip_bump K
                 | with_reducible apply keep_Chip_onGang K | with_reducible apply keep_Chip_lpFlag K)

theorem keep_Chip_pipeLine {P : Chip → Prop} (K : Keep P) (g : Gang) (x : InLine) (m : Chip) (h0 : P m) : P (Chip.pipeLine g
    x m) := by
  unfold Chip.pipeLine
  try dsimp only
  repeat' (first | with_reducible assumption | (intro _) | with_reducible apply keep_Chip_setPipe K
                 | with_reducible apply keep_Chip_runGang K | with_reducible apply keep_Chip_routeDiscard K
                 | with_reducible apply keep_ite (P := P) | with_reducible refine keep_lit K _ ?_ rfl rfl rfl rfl rfl rfl)

theorem keep_Chip_replayLineTo {P : Chip → Prop} (K : Keep P) (ch : Nat) (g : Gang) (x : InLine) (m : Chip) (h0 : P m) : P
    (Chip.replayLineTo ch g x m) := by
  unfold Chip.replayLineTo
  try dsimp only
  repeat' (first | with_reducible assumption | with_reducible apply keep_Chip_setPipe K
                 | with_reducible apply keep_Chip_runGang K | with_reducible apply keep_Chip_routeDiscard K
                 | with_reducible apply keep_ite (P := P) | split
                 | with_reducible refine keep_lit K _ ?_ rfl rfl rfl rfl rfl rfl)

theorem keep_Chip_noteWait {P : Chip → Prop} (K : Keep P) (ns : Nat) (m : Chip) (h0 : P m) : P (Chip.noteWait ns m) := by
  unfold Chip.noteWait
  try dsimp only
  repeat' (first | with_reducible assumption | with_reducible apply keep_Chip_wr K
                 | with_reducible apply keep_Chip_setFlagIf K)

theorem keep_Chip_linePaced {P : Chip → Prop} (K : Keep P) (g : Gang) (io : LineIo) (f : Chip → Chip) (m : Chip) (h0 : ∀ x0,
    P x0 → P (f x0)) (h1 : P m) : P (Chip.linePaced g io f m) := by
  unfold Chip.linePaced
  try dsimp only
  repeat' (first | with_reducible assumption | (intro _) | with_reducible apply h0 | with_reducible apply keep_Chip_setPipe K
                 | with_reducible apply keep_Chip_setRowPipe K | with_reducible apply keep_Chip_cmErrs K
                 | with_reducible apply keep_Chip_noteWait K | with_reducible apply keep_ite (P := P)
                 | with_reducible refine keep_lit K _ ?_ rfl rfl rfl rfl rfl rfl)

end Sys2Proof.Laws
end

