-- ==== Sys2Proof/Laws/Keep/Sessions.lean ====
section
/-!
SUPPORT. Sys2Proof/Laws/Keep/Sessions.lean: the definitions of Machine/Sessions.lean keep what the primitive changes keep.
-/
namespace Sys2Proof.Laws
open Sys2Proof.Machine

theorem keep_Chip_onTrust {P : Chip → Prop} (K : Keep P) (f : TrustState → TrustState) (m : Chip) (h0 : P m)
    (hf : ∀ t, (f t).fuses = t.fuses) : P (Chip.onTrust f m) := K.same m _ h0 rfl rfl rfl rfl rfl (hf _)

theorem keep_Chip_setSession {P : Chip → Prop} (K : Keep P) (v : Session) (m : Chip) (h0 : P m) : P (Chip.setSession v m) :=
    by
  unfold Chip.setSession
  try dsimp only
  repeat' (first | with_reducible assumption | (intro _) | with_reducible apply keep_Chip_onTrust K
                 | with_reducible apply keep_ite (P := P) | with_reducible exact rfl
                 | with_reducible refine keep_lit K _ ?_ rfl rfl rfl rfl rfl rfl)

theorem keep_Chip_touch {P : Chip → Prop} (K : Keep P) (id : Nat) (m : Chip) (h0 : P m) : P (Chip.touch id m) := by
  unfold Chip.touch
  try dsimp only
  repeat' (first | with_reducible assumption | with_reducible apply keep_Chip_setSession K | split
                 | with_reducible refine keep_lit K _ ?_ rfl rfl rfl rfl rfl rfl)

theorem keep_Chip_reply {P : Chip → Prop} (K : Keep P) (id : Nat) (e : Emit) (m : Chip) (h0 : P m) : P (Chip.reply id e m)
    := by
  unfold Chip.reply
  try dsimp only
  repeat' (first | with_reducible assumption | (intro _) | with_reducible apply keep_Chip_emit K
                 | with_reducible apply keep_ite (P := P) | with_reducible refine keep_lit K _ ?_ rfl rfl rfl rfl rfl rfl)

theorem keep_Chip_answer {P : Chip → Prop} (K : Keep P) (id : Nat) (what : String) (args : List Nat) (m : Chip) (h0 : P m) :
    P (Chip.answer id what args m) := by
  unfold Chip.answer
  try dsimp only
  repeat' (first | with_reducible assumption | with_reducible apply keep_Chip_emit K | with_reducible apply keep_Chip_reply K
                 | with_reducible apply keep_ite (P := P))

theorem keep_Chip_keepResult {P : Chip → Prop} (K : Keep P) (a : Auth) (code : Nat) (m : Chip) (h0 : P m) : P
    (Chip.keepResult a code m) := by
  unfold Chip.keepResult
  try dsimp only
  repeat' (first | with_reducible assumption | (intro _) | with_reducible apply keep_Chip_onTrust K | with_reducible exact rfl
                 | with_reducible refine keep_lit K _ ?_ rfl rfl rfl rfl rfl rfl)

theorem keep_Chip_refuseCmd {P : Chip → Prop} (K : Keep P) (a : Auth) (reason : Nat) (m : Chip) (h0 : P m) : P
    (Chip.refuseCmd a reason m) := by
  unfold Chip.refuseCmd
  try dsimp only
  repeat' (first | with_reducible assumption | with_reducible apply keep_Chip_setFlag K
                 | with_reducible apply keep_Chip_bump K | with_reducible apply keep_Chip_log K
                 | with_reducible apply keep_Chip_answer K | with_reducible apply keep_Chip_keepResult K)

theorem keep_Chip_acceptCmd {P : Chip → Prop} (K : Keep P) (a : Auth) (m : Chip) (h0 : P m) : P (Chip.acceptCmd a m) := by
  unfold Chip.acceptCmd
  try dsimp only
  repeat' (first | with_reducible assumption | with_reducible apply keep_Chip_bump K | with_reducible apply keep_Chip_log K
                 | with_reducible apply keep_Chip_answer K | with_reducible apply keep_Chip_keepResult K)

theorem fuses_touch (id : Nat) (m : Chip) : (m.touch id).trust.fuses = m.trust.fuses := by
  unfold Chip.touch; split <;> rfl
theorem fuses_log (m : Chip) (w : String) (l : List Nat) : (m.log w l).trust = m.trust := by
  unfold Chip.log; split <;> rfl
theorem fuses_reply (id : Nat) (e : Emit) (m : Chip) : (m.reply id e).trust = m.trust := by
  unfold Chip.reply; split <;> rfl
theorem fuses_answer (id : Nat) (w : String) (l : List Nat) (m : Chip) : (m.answer id w l).trust = m.trust := by
  unfold Chip.answer; dsimp only; split
  · rfl
  · exact fuses_reply _ _ _
theorem fuses_accept (a : Auth) (m : Chip) : (m.acceptCmd a).trust.fuses = m.trust.fuses := by
  unfold Chip.acceptCmd
  rw [fuses_answer, fuses_log]; rfl
theorem refusal_none (m : Chip) (lives : List Nat) (owner reset : Bool) (a : Auth) (s : Session)
    (h : m.refusal lives owner reset a s = none) : lives.contains m.trust.fuses.lifecycle = true := by
  unfold Chip.refusal at h
  repeat' (split at h)
  all_goals first
    | contradiction
    | simp_all

theorem keep_Chip_signedIn {P : Chip → Prop} (K : Keep P) (lives : List Nat) (owner reset : Bool) (a : Auth) (eff : Chip → Bool × Chip)
    (m0 : Chip) (h0 : P m0) (h1 : ∀ x, lives.contains x.trust.fuses.lifecycle = true → P x → P (eff x).2) :
    P (Chip.signedIn lives owner reset a eff m0) := by
  unfold Chip.signedIn
  split
  · exact h0
  · next s _ =>
    have ht := keep_Chip_touch K a.session m0 h0
    have hs := keep_Chip_setSession K
      { s with lastAt := (m0.touch a.session).now, challenges := s.challenges.filter fun c => c.1 != a.challenge } _ ht
    dsimp only
    split
    · exact keep_Chip_answer K _ _ _ _ ht
    · split
      · exact keep_Chip_refuseCmd K _ _ _ hs
      · next hr =>
        have hl := refusal_none _ _ _ _ _ _ hr
        split
        · exact h1 _ (by rw [fuses_accept]; exact hl) (keep_Chip_acceptCmd K _ _ hs)
        · exact keep_Chip_refuseCmd K _ _ _ (h1 _ hl hs)

theorem keep_Chip_badAddress {P : Chip → Prop} (K : Keep P) (a : Auth) (m : Chip) (h0 : P m) : P (Chip.badAddress a m) := by
  unfold Chip.badAddress
  try dsimp only
  repeat' (first | with_reducible assumption | with_reducible apply keep_Chip_answer K
                 | with_reducible apply keep_ite (P := P))

theorem keep_Chip_signed {P : Chip → Prop} (K : Keep P) (owner reset : Bool) (a : Auth) (eff : Chip → Bool × Chip) (m : Chip)
    (h0 : P m) (h1 : ∀ x, [3].contains x.trust.fuses.lifecycle = true → P x → P (eff x).2) :
    P (Chip.signed owner reset a eff m) := keep_Chip_signedIn K _ _ _ _ _ _ h0 h1

end Sys2Proof.Laws
end

