-- ==== Sys2Proof/Laws/Keep/Cameras.lean ====
section
/-!
SUPPORT. Sys2Proof/Laws/Keep/Cameras.lean: the definitions of Machine/Cameras.lean keep what the primitive changes keep.
-/
namespace Sys2Proof.Laws
open Sys2Proof.Machine

theorem keep_Chip_setCamState {P : Chip → Prop} (K : Keep P) (c : CameraRec) (st : Nat) (m : Chip) (h0 : P m) : P
    (Chip.setCamState c st m) := by
  unfold Chip.setCamState
  try dsimp only
  repeat' (first | with_reducible assumption | (intro _) | with_reducible apply keep_Chip_wr K
                 | with_reducible apply keep_Chip_put K | with_reducible apply keep_forAll (P := P)
                 | with_reducible apply keep_ite (P := P))

theorem keep_Chip_voidLine {P : Chip → Prop} (K : Keep P) (c : CameraRec) (idx : Nat) (count : Int) (tb3 : Nat) (dropped :
    Bool) (m : Chip) (h0 : P m) : P (Chip.voidLine c idx count tb3 dropped m) := by
  unfold Chip.voidLine
  try dsimp only
  repeat' (first | with_reducible assumption | with_reducible apply keep_Chip_setFlag K
                 | with_reducible apply keep_Chip_bump K | with_reducible apply keep_Chip_writeLineRec K
                 | with_reducible apply keep_Chip_pipeLine K | with_reducible refine keep_lit K _ ?_ rfl rfl rfl rfl rfl rfl)

theorem keep_Chip_voidSlot {P : Chip → Prop} (K : Keep P) (c : CameraRec) (s : TrigSlot) (m : Chip) (h0 : P m) : P
    (Chip.voidSlot c s m) := by
  unfold Chip.voidSlot
  try dsimp only
  repeat' (first | with_reducible assumption | with_reducible apply keep_Chip_voidLine K
                 | with_reducible apply keep_ite (P := P))

theorem keep_Chip_emptySlots {P : Chip → Prop} (K : Keep P) (c : CameraRec) (m : Chip) (h0 : P m) : P (Chip.emptySlots c m)
    := by
  unfold Chip.emptySlots
  try dsimp only
  repeat' (first | with_reducible assumption | (intro _) | with_reducible apply keep_Chip_setCam K
                 | with_reducible apply keep_Chip_voidSlot K | with_reducible apply keep_forAll (P := P)
                 | with_reducible refine keep_lit K _ ?_ rfl rfl rfl rfl rfl rfl)

theorem keep_Chip_dropSlots {P : Chip → Prop} (K : Keep P) (c : CameraRec) (k : Nat) (m : Chip) (h0 : P m) : P
    (Chip.dropSlots c k m) := by
  unfold Chip.dropSlots
  try dsimp only
  repeat' (first | with_reducible assumption | (intro _) | with_reducible apply keep_Chip_setCam K
                 | with_reducible apply keep_Chip_take K | with_reducible apply keep_Chip_voidSlot K
                 | with_reducible apply keep_forAll (P := P) | with_reducible refine keep_lit K _ ?_ rfl rfl rfl rfl rfl rfl)

theorem keep_Chip_expireSlots {P : Chip → Prop} (K : Keep P) (c : CameraRec) (m : Chip) (h0 : P m) : P (Chip.expireSlots c
    m) := by
  unfold Chip.expireSlots
  try dsimp only
  repeat' (first | with_reducible assumption | (intro _) | with_reducible apply keep_Chip_setCam K
                 | with_reducible apply keep_Chip_voidSlot K | with_reducible apply keep_forAll (P := P)
                 | with_reducible apply keep_ite (P := P) | with_reducible refine keep_lit K _ ?_ rfl rfl rfl rfl rfl rfl)

theorem keep_Chip_camDown {P : Chip → Prop} (K : Keep P) (c : CameraRec) (st : Nat) (m0 : Chip) (h0 : P m0) : P
    (Chip.camDown c st m0) := by
  unfold Chip.camDown
  try dsimp only
  repeat' (first | with_reducible assumption | (intro _) | with_reducible apply keep_Chip_emit K
                 | with_reducible apply keep_Chip_setCam K | with_reducible apply keep_Chip_setCamState K
                 | with_reducible apply keep_Chip_emptySlots K | with_reducible apply keep_forAll (P := P)
                 | with_reducible refine keep_lit K _ ?_ rfl rfl rfl rfl rfl rfl)

theorem keep_Chip_restartIn {P : Chip → Prop} (K : Keep P) (c : CameraRec) (ns step : Nat) (m : Chip) (h0 : P m) : P
    (Chip.restartIn c ns step m) := by
  unfold Chip.restartIn
  try dsimp only
  repeat' (first | with_reducible assumption | with_reducible apply keep_Chip_setCam K
                 | with_reducible refine keep_lit K _ ?_ rfl rfl rfl rfl rfl rfl)

theorem keep_Chip_pocEnable {P : Chip → Prop} (K : Keep P) (n : Nat) (on : Bool) (m : Chip) (h0 : P m) : P (Chip.pocEnable n
    on m) := by
  unfold Chip.pocEnable
  try dsimp only
  repeat' (first | with_reducible assumption | with_reducible apply keep_Chip_emit K | with_reducible apply keep_Chip_setPoc K
                 | with_reducible apply keep_ite (P := P) | with_reducible refine keep_lit K _ ?_ rfl rfl rfl rfl rfl rfl)

theorem keep_Chip_sendCtrl {P : Chip → Prop} (K : Keep P) (c : CameraRec) (what : String) (args : List Nat) (sender :
    CtrlBy) (m : Chip) (h0 : P m) : P (Chip.sendCtrl c what args sender m) := by
  unfold Chip.sendCtrl
  try dsimp only
  repeat' (first | with_reducible assumption | with_reducible apply keep_Chip_emit K | with_reducible apply keep_Chip_setCam K
                 | with_reducible refine keep_lit K _ ?_ rfl rfl rfl rfl rfl rfl)

theorem keep_Chip_bringUpStep {P : Chip → Prop} (K : Keep P) (c : CameraRec) (phase : Nat) (fresh : Bool) (m : Chip) (h0 : P
    m) : P (Chip.bringUpStep c phase fresh m) := by
  unfold Chip.bringUpStep
  try dsimp only
  repeat' (first | with_reducible assumption | with_reducible apply keep_Chip_setCam K
                 | with_reducible apply keep_Chip_setCamState K | with_reducible apply keep_ite (P := P)
                 | with_reducible refine keep_lit K _ ?_ rfl rfl rfl rfl rfl rfl)

theorem keep_Chip_readBootstrap {P : Chip → Prop} (K : Keep P) (c : CameraRec) (m : Chip) (h0 : P m) : P (Chip.readBootstrap
    c m) := by
  unfold Chip.readBootstrap
  try dsimp only
  repeat' (first | with_reducible assumption | (intro _) | with_reducible apply keep_Chip_sendCtrl K
                 | with_reducible apply keep_Chip_bringUpStep K | with_reducible apply keep_forAll (P := P))

theorem keep_Chip_beginBringUp {P : Chip → Prop} (K : Keep P) (c : CameraRec) (step : Nat) (again : Bool) (m : Chip) (h0 : P
    m) : P (Chip.beginBringUp c step again m) := by
  unfold Chip.beginBringUp
  try dsimp only
  repeat' (first | with_reducible assumption | (intro _) | with_reducible apply keep_Chip_bumpIf K
                 | with_reducible apply keep_Chip_setCam K | with_reducible apply keep_Chip_setCamState K
                 | with_reducible apply keep_Chip_camDown K | with_reducible apply keep_Chip_pocEnable K
                 | with_reducible apply keep_Chip_readBootstrap K | with_reducible apply keep_forAll (P := P)
                 | with_reducible apply keep_ite (P := P) | with_reducible refine keep_lit K _ ?_ rfl rfl rfl rfl rfl rfl)

theorem keep_Chip_bringUpFails {P : Chip → Prop} (K : Keep P) (c : CameraRec) (m : Chip) (h0 : P m) : P (Chip.bringUpFails c
    m) := by
  unfold Chip.bringUpFails
  try dsimp only
  repeat' (first | with_reducible assumption | with_reducible apply keep_Chip_setFlag K
                 | with_reducible apply keep_Chip_camDown K | with_reducible apply keep_Chip_restartIn K)

theorem keep_Chip_camLost {P : Chip → Prop} (K : Keep P) (c : CameraRec) (m : Chip) (h0 : P m) : P (Chip.camLost c m) := by
  unfold Chip.camLost
  try dsimp only
  repeat' (first | with_reducible assumption | with_reducible apply keep_Chip_setFlag K
                 | with_reducible apply keep_Chip_raise K | with_reducible apply keep_Chip_camDown K
                 | with_reducible apply keep_Chip_restartIn K)

theorem keep_Chip_orderLost {P : Chip → Prop} (K : Keep P) (c : CameraRec) (m : Chip) (h0 : P m) : P (Chip.orderLost c m) :=
    by
  unfold Chip.orderLost
  try dsimp only
  repeat' (first | with_reducible assumption | with_reducible apply keep_Chip_setFlag K
                 | with_reducible apply keep_Chip_bump K | with_reducible apply keep_Chip_camLost K)

theorem keep_Chip_startAcq {P : Chip → Prop} (K : Keep P) (c : CameraRec) (base : Nat) (m : Chip) (h0 : P m) : P
    (Chip.startAcq c base m) := by
  unfold Chip.startAcq
  try dsimp only
  repeat' (first | with_reducible assumption | with_reducible apply keep_Chip_setCam K
                 | with_reducible apply keep_Chip_setCamState K | with_reducible apply keep_Chip_sendCtrl K
                 | with_reducible refine keep_lit K _ ?_ rfl rfl rfl rfl rfl rfl)

theorem keep_Chip_writeRegs {P : Chip → Prop} (K : Keep P) (c : CameraRec) (i : Nat) (m : Chip) (h0 : P m) : P
    (Chip.writeRegs c i m) := by
  unfold Chip.writeRegs
  try dsimp only
  repeat' (first | with_reducible assumption | with_reducible apply keep_Chip_setCam K
                 | with_reducible apply keep_Chip_sendCtrl K | with_reducible apply keep_Chip_bringUpStep K
                 | with_reducible apply keep_Chip_startAcq K | with_reducible apply keep_ite (P := P) | dsimp only | split
                 | with_reducible refine keep_lit K _ ?_ rfl rfl rfl rfl rfl rfl)

theorem keep_Chip_identMismatch {P : Chip → Prop} (K : Keep P) (c : CameraRec) (m : Chip) (h0 : P m) : P (Chip.identMismatch
    c m) := by
  unfold Chip.identMismatch
  try dsimp only
  repeat' (first | with_reducible assumption | with_reducible apply keep_Chip_setFlag K
                 | with_reducible apply keep_Chip_camDown K | with_reducible apply keep_Chip_restartIn K)

theorem keep_Chip_bringUpNext {P : Chip → Prop} (K : Keep P) (c : CameraRec) (r : CamReply) (m : Chip) (h0 : P m) : P
    (Chip.bringUpNext c r m) := by
  unfold Chip.bringUpNext
  try dsimp only
  repeat' (first | with_reducible assumption | (intro _) | with_reducible apply keep_Chip_draw K
                 | with_reducible apply keep_Chip_setCam K | with_reducible apply keep_Chip_sendCtrl K
                 | with_reducible apply keep_Chip_bringUpStep K | with_reducible apply keep_Chip_bringUpFails K
                 | with_reducible apply keep_Chip_startAcq K | with_reducible apply keep_Chip_writeRegs K
                 | with_reducible apply keep_Chip_identMismatch K | with_reducible apply keep_forAll (P := P)
                 | with_reducible apply keep_ite (P := P) | dsimp only | split
                 | with_reducible refine keep_lit K _ ?_ rfl rfl rfl rfl rfl rfl)

theorem keep_cameraBringUp {P : Chip → Prop} (K : Keep P) (dt n : Nat) (r : CamReply) (m0 : Chip) (h0 : P m0) : P
    (cameraBringUp dt n r m0) := by
  unfold cameraBringUp
  try dsimp only
  repeat' (first | with_reducible assumption | (intro _) | with_reducible apply keep_elapse K
                 | with_reducible apply keep_Chip_beginBringUp K | with_reducible apply keep_Chip_bringUpFails K
                 | with_reducible apply keep_Chip_bringUpNext K | with_reducible apply keep_ite (P := P) | split)

theorem keep_Chip_dropDiscovery {P : Chip → Prop} (K : Keep P) (c : CameraRec) (m : Chip) (h0 : P m) : P (Chip.dropDiscovery
    c m) := by
  unfold Chip.dropDiscovery
  try dsimp only
  repeat' (first | with_reducible assumption | (intro _) | with_reducible apply keep_Chip_setCam K
                 | with_reducible refine keep_lit K _ ?_ rfl rfl rfl rfl rfl rfl)

theorem keep_discoveryPoll {P : Chip → Prop} (K : Keep P) (dt n : Nat) (acked : Bool) (m0 : Chip) (h0 : P m0) : P
    (discoveryPoll dt n acked m0) := by
  unfold discoveryPoll
  try dsimp only
  repeat' (first | with_reducible assumption | with_reducible apply keep_elapse K | with_reducible apply keep_Chip_setCam K
                 | with_reducible apply keep_Chip_setCamState K | with_reducible apply keep_Chip_sendCtrl K
                 | with_reducible apply keep_Chip_readBootstrap K | with_reducible apply keep_Chip_dropDiscovery K
                 | with_reducible apply keep_ite (P := P) | split
                 | with_reducible refine keep_lit K _ ?_ rfl rfl rfl rfl rfl rfl)

theorem keep_bringUpStepTimeout {P : Chip → Prop} (K : Keep P) (dt n : Nat) (m0 : Chip) (h0 : P m0) : P (bringUpStepTimeout
    dt n m0) := by
  unfold bringUpStepTimeout
  try dsimp only
  repeat' (first | with_reducible assumption | with_reducible apply keep_elapse K
                 | with_reducible apply keep_Chip_bringUpFails K | with_reducible apply keep_ite (P := P) | split)

theorem keep_bringUpRetry {P : Chip → Prop} (K : Keep P) (dt n : Nat) (m0 : Chip) (h0 : P m0) : P (bringUpRetry dt n m0) :=
    by
  unfold bringUpRetry
  try dsimp only
  repeat' (first | with_reducible assumption | with_reducible apply keep_elapse K
                 | with_reducible apply keep_Chip_beginBringUp K | with_reducible apply keep_ite (P := P) | split)

theorem keep_cameraLinkLost {P : Chip → Prop} (K : Keep P) (dt link : Nat) (m0 : Chip) (h0 : P m0) : P (cameraLinkLost dt
    link m0) := by
  unfold cameraLinkLost
  try dsimp only
  repeat' (first | with_reducible assumption | with_reducible apply keep_Chip_setFlag K | with_reducible apply keep_elapse K
                 | with_reducible apply keep_Chip_bringUpFails K | with_reducible apply keep_Chip_camLost K
                 | with_reducible apply keep_ite (P := P) | split)

theorem keep_reconnect {P : Chip → Prop} (K : Keep P) (dt n : Nat) (m0 : Chip) (h0 : P m0) : P (reconnect dt n m0) := by
  unfold reconnect
  try dsimp only
  repeat' (first | with_reducible assumption | with_reducible apply keep_elapse K
                 | with_reducible apply keep_Chip_beginBringUp K | split)

theorem keep_linkHold {P : Chip → Prop} (K : Keep P) (dt link : Nat) (hold : Bool) (m0 : Chip) (h0 : P m0) : P (linkHold dt
    link hold m0) := by
  unfold linkHold
  try dsimp only
  repeat' (first | with_reducible assumption | (intro _) | with_reducible apply keep_Chip_put K
                 | with_reducible apply keep_elapse K | with_reducible apply keep_Chip_setCamState K
                 | with_reducible apply keep_Chip_camDown K | with_reducible apply keep_Chip_pocEnable K
                 | with_reducible apply keep_Chip_beginBringUp K | with_reducible apply keep_forAll (P := P)
                 | with_reducible apply keep_ite (P := P) | split)

theorem keep_pocFault {P : Chip → Prop} (K : Keep P) (dt link : Nat) (m0 : Chip) (h0 : P m0) : P (pocFault dt link m0) := by
  unfold pocFault
  try dsimp only
  repeat' (first | with_reducible assumption | (intro _) | with_reducible apply keep_Chip_setFlag K
                 | with_reducible apply keep_elapse K | with_reducible apply keep_Chip_setPoc K
                 | with_reducible apply keep_Chip_pocEnable K | with_reducible apply keep_Chip_camLost K
                 | with_reducible apply keep_ite (P := P) | split
                 | with_reducible refine keep_lit K _ ?_ rfl rfl rfl rfl rfl rfl)

theorem keep_pocReenable {P : Chip → Prop} (K : Keep P) (dt link : Nat) (m0 : Chip) (h0 : P m0) : P (pocReenable dt link m0)
    := by
  unfold pocReenable
  try dsimp only
  repeat' (first | with_reducible assumption | with_reducible apply keep_elapse K | with_reducible apply keep_Chip_setPoc K
                 | with_reducible apply keep_Chip_pocEnable K | with_reducible apply keep_ite (P := P) | split
                 | with_reducible refine keep_lit K _ ?_ rfl rfl rfl rfl rfl rfl)

theorem keep_pocClear {P : Chip → Prop} (K : Keep P) (dt link : Nat) (m0 : Chip) (h0 : P m0) : P (pocClear dt link m0) := by
  unfold pocClear
  try dsimp only
  repeat' (first | with_reducible assumption | with_reducible apply keep_elapse K | with_reducible apply keep_Chip_setPoc K
                 | with_reducible apply keep_Chip_setCamState K | with_reducible apply keep_Chip_beginBringUp K
                 | with_reducible apply keep_ite (P := P) | split
                 | with_reducible refine keep_lit K _ ?_ rfl rfl rfl rfl rfl rfl)

theorem keep_Chip_sendTrigger {P : Chip → Prop} (K : Keep P) (c : CameraRec) (idx : Nat) (count : Int) (m : Chip) (h0 : P m)
    : P (Chip.sendTrigger c idx count m) := by
  unfold Chip.sendTrigger
  try dsimp only
  repeat' (first | with_reducible assumption | with_reducible apply keep_Chip_bump K | with_reducible apply keep_Chip_emit K
                 | with_reducible apply keep_Chip_draw K | with_reducible apply keep_Chip_setCam K
                 | with_reducible apply keep_Chip_voidLine K | with_reducible apply keep_Chip_dropSlots K
                 | with_reducible apply keep_Chip_orderLost K | with_reducible apply keep_ite (P := P) | dsimp only | split
                 | with_reducible refine keep_lit K _ ?_ rfl rfl rfl rfl rfl rfl)

theorem keep_Chip_trigger {P : Chip → Prop} (K : Keep P) (c : CameraRec) (idx : Nat) (cnt : Int) (m : Chip) (h0 : P m) : P
    (Chip.trigger c idx cnt m) := by
  unfold Chip.trigger
  try dsimp only
  repeat' (first | with_reducible assumption | with_reducible apply keep_Chip_setFlag K
                 | with_reducible apply keep_Chip_bump K | with_reducible apply keep_Chip_setCam K
                 | with_reducible apply keep_Chip_pipeTrigger K | with_reducible apply keep_Chip_voidLine K
                 | with_reducible apply keep_Chip_sendTrigger K | with_reducible apply keep_ite (P := P) | split
                 | with_reducible refine keep_lit K _ ?_ rfl rfl rfl rfl rfl rfl)

theorem keep_triggerDue {P : Chip → Prop} (K : Keep P) (dt n : Nat) (io : LineIo) (m0 : Chip) (h0 : P m0) : P (triggerDue dt
    n io m0) := by
  unfold triggerDue
  try dsimp only
  repeat' (first | with_reducible assumption | (intro _) | with_reducible apply keep_elapse K
                 | with_reducible apply keep_Chip_setCam K | with_reducible apply keep_Chip_linePaced K
                 | with_reducible apply keep_Chip_trigger K | with_reducible apply keep_ite (P := P) | split
                 | with_reducible refine keep_lit K _ ?_ rfl rfl rfl rfl rfl rfl)

theorem keep_lineTimeout {P : Chip → Prop} (K : Keep P) (dt n : Nat) (io : LineIo) (m0 : Chip) (h0 : P m0) : P (lineTimeout
    dt n io m0) := by
  unfold lineTimeout
  try dsimp only
  repeat' (first | with_reducible assumption | (intro _) | with_reducible apply keep_elapse K
                 | with_reducible apply keep_Chip_linePaced K | with_reducible apply keep_Chip_expireSlots K | split)

theorem keep_Chip_unsolicited {P : Chip → Prop} (K : Keep P) (link : Nat) (m : Chip) (h0 : P m) : P (Chip.unsolicited link
    m) := by
  unfold Chip.unsolicited
  try dsimp only
  repeat' (first | with_reducible assumption | with_reducible apply keep_Chip_setFlag K
                 | with_reducible apply keep_Chip_bump K)

theorem keep_Chip_captureLine {P : Chip → Prop} (K : Keep P) (c : CameraRec) (samples : List Nat) (m : Chip) (h0 : P m) : P
    (Chip.captureLine c samples m) := by
  unfold Chip.captureLine
  try dsimp only
  repeat' (first | with_reducible assumption | (intro _) | with_reducible apply keep_Chip_setCam K
                 | with_reducible apply keep_Chip_take K | with_reducible apply keep_Chip_putBytes K
                 | with_reducible apply keep_ite (P := P) | split
                 | with_reducible refine keep_lit K _ ?_ rfl rfl rfl rfl rfl rfl)

theorem keep_Chip_matchLine {P : Chip → Prop} (K : Keep P) (c : CameraRec) (samples : List Nat) (m : Chip) (h0 : P m) : P
    (Chip.matchLine c samples m) := by
  unfold Chip.matchLine
  try dsimp only
  repeat' (first | with_reducible assumption | (intro _) | with_reducible apply keep_Chip_setFlag K
                 | with_reducible apply keep_Chip_bump K | with_reducible apply keep_Chip_setCam K
                 | with_reducible apply keep_Chip_take K | with_reducible apply keep_Chip_writeLineRec K
                 | with_reducible apply keep_Chip_pipeLine K | with_reducible apply keep_Chip_voidSlot K
                 | with_reducible apply keep_Chip_unsolicited K | with_reducible apply keep_ite (P := P) | split
                 | with_reducible refine keep_lit K _ ?_ rfl rfl rfl rfl rfl rfl)

theorem keep_lineComplete {P : Chip → Prop} (K : Keep P) (dt n : Nat) (samples : List Nat) (io : LineIo) (m0 : Chip) (h0 : P
    m0) : P (lineComplete dt n samples io m0) := by
  unfold lineComplete
  try dsimp only
  repeat' (first | with_reducible assumption | (intro _) | with_reducible apply keep_elapse K
                 | with_reducible apply keep_Chip_linePaced K | with_reducible apply keep_Chip_expireSlots K
                 | with_reducible apply keep_Chip_captureLine K | with_reducible apply keep_Chip_matchLine K
                 | with_reducible apply keep_ite (P := P) | split)

theorem keep_Chip_linesLost {P : Chip → Prop} (K : Keep P) (c : CameraRec) (lost : Option Nat) (m : Chip) (h0 : P m) : P
    (Chip.linesLost c lost m) := by
  unfold Chip.linesLost
  try dsimp only
  repeat' (first | with_reducible assumption | with_reducible apply keep_Chip_dropSlots K
                 | with_reducible apply keep_Chip_orderLost K | split)

theorem keep_Chip_showHeader {P : Chip → Prop} (K : Keep P) (c : CameraRec) (h : ImgHeader) (m : Chip) (h0 : P m) : P
    (Chip.showHeader c h m) := by
  unfold Chip.showHeader
  try dsimp only
  repeat' (first | with_reducible assumption | with_reducible apply keep_Chip_put K)

theorem keep_Chip_headerIn {P : Chip → Prop} (K : Keep P) (c : CameraRec) (link : Nat) (h : ImgHeader) (m : Chip) (h0 : P m)
    : P (Chip.headerIn c link h m) := by
  unfold Chip.headerIn
  try dsimp only
  repeat' (first | with_reducible assumption | (intro _) | with_reducible apply keep_Chip_setFlag K
                 | with_reducible apply keep_Chip_bump K | with_reducible apply keep_Chip_setCam K
                 | with_reducible apply keep_Chip_syncReset K | with_reducible apply keep_Chip_setCamState K
                 | with_reducible apply keep_Chip_showHeader K | with_reducible apply keep_ite (P := P)
                 | with_reducible refine keep_lit K _ ?_ rfl rfl rfl rfl rfl rfl)

theorem keep_Chip_sizeDrop {P : Chip → Prop} (K : Keep P) (c : CameraRec) (link : Nat) (m : Chip) (h0 : P m) : P
    (Chip.sizeDrop c link m) := by
  unfold Chip.sizeDrop
  try dsimp only
  repeat' (first | with_reducible assumption | (intro _) | with_reducible apply keep_Chip_setFlag K
                 | with_reducible apply keep_Chip_bump K | with_reducible apply keep_Chip_setCam K
                 | with_reducible apply keep_Chip_voidLine K | with_reducible apply keep_forAll (P := P)
                 | with_reducible apply keep_ite (P := P) | split
                 | with_reducible refine keep_lit K _ ?_ rfl rfl rfl rfl rfl rfl)

theorem keep_streamPacket {P : Chip → Prop} (K : Keep P) (dt : Nat) (k : StreamPkt) (m0 : Chip) (h0 : P m0) : P
    (streamPacket dt k m0) := by
  unfold streamPacket
  try dsimp only
  repeat' (first | with_reducible assumption | (intro _) | with_reducible apply keep_Chip_setFlag K
                 | with_reducible apply keep_Chip_setFlagIf K | with_reducible apply keep_Chip_bump K
                 | with_reducible apply keep_Chip_bumpIf K | with_reducible apply keep_elapse K
                 | with_reducible apply keep_Chip_setCam K | with_reducible apply keep_Chip_unsolicited K
                 | with_reducible apply keep_Chip_linesLost K | with_reducible apply keep_Chip_headerIn K
                 | with_reducible apply keep_Chip_sizeDrop K | with_reducible apply keep_ite (P := P) | split
                 | with_reducible refine keep_lit K _ ?_ rfl rfl rfl rfl rfl rfl)

theorem keep_Chip_auditAck {P : Chip → Prop} (K : Keep P) (c : CameraRec) (v : Nat) (m : Chip) (h0 : P m) : P (Chip.auditAck
    c v m) := by
  unfold Chip.auditAck
  try dsimp only
  repeat' (first | with_reducible assumption | with_reducible apply keep_Chip_setCam K
                 | with_reducible apply keep_Chip_orderLost K | with_reducible apply keep_ite (P := P) | split
                 | with_reducible refine keep_lit K _ ?_ rfl rfl rfl rfl rfl rfl)

theorem keep_controlAck {P : Chip → Prop} (K : Keep P) (dt n tag value : Nat) (m0 : Chip) (h0 : P m0) : P (controlAck dt n
    tag value m0) := by
  unfold controlAck
  try dsimp only
  repeat' (first | with_reducible assumption | (intro _) | with_reducible apply keep_Chip_emit K
                 | with_reducible apply keep_elapse K | with_reducible apply keep_Chip_setCam K
                 | with_reducible apply keep_Chip_readBootstrap K | with_reducible apply keep_Chip_unsolicited K
                 | with_reducible apply keep_Chip_auditAck K | with_reducible apply keep_ite (P := P) | split
                 | with_reducible refine keep_lit K _ ?_ rfl rfl rfl rfl rfl rfl)

theorem keep_Chip_ctrlDead {P : Chip → Prop} (K : Keep P) (c : CameraRec) (dead : List CtrlCmd) (m : Chip) (h0 : P m) : P
    (Chip.ctrlDead c dead m) := by
  unfold Chip.ctrlDead
  try dsimp only
  repeat' (first | with_reducible assumption | (intro _) | with_reducible apply keep_Chip_setFlag K
                 | with_reducible apply keep_Chip_emit K | with_reducible apply keep_Chip_setCam K
                 | with_reducible apply keep_Chip_bringUpFails K | with_reducible apply keep_forAll (P := P)
                 | with_reducible apply keep_ite (P := P) | with_reducible refine keep_lit K _ ?_ rfl rfl rfl rfl rfl rfl)

theorem keep_controlResend {P : Chip → Prop} (K : Keep P) (dt n : Nat) (m0 : Chip) (h0 : P m0) : P (controlResend dt n m0)
    := by
  unfold controlResend
  try dsimp only
  repeat' (first | with_reducible assumption | (intro _) | with_reducible apply keep_Chip_emit K
                 | with_reducible apply keep_elapse K | with_reducible apply keep_Chip_setCam K
                 | with_reducible apply keep_Chip_ctrlDead K | with_reducible apply keep_forAll (P := P)
                 | with_reducible apply keep_ite (P := P) | split
                 | with_reducible refine keep_lit K _ ?_ rfl rfl rfl rfl rfl rfl)

theorem keep_cxpHeartbeat {P : Chip → Prop} (K : Keep P) (dt n : Nat) (m0 : Chip) (h0 : P m0) : P (cxpHeartbeat dt n m0) :=
    by
  unfold cxpHeartbeat
  try dsimp only
  repeat' (first | with_reducible assumption | with_reducible apply keep_Chip_emit K | with_reducible apply keep_elapse K
                 | with_reducible apply keep_Chip_setCam K | with_reducible apply keep_ite (P := P) | split
                 | with_reducible refine keep_lit K _ ?_ rfl rfl rfl rfl rfl rfl)

theorem keep_triggerCounterAudit {P : Chip → Prop} (K : Keep P) (dt n : Nat) (ph : AuditPhase) (m0 : Chip) (h0 : P m0) : P
    (triggerCounterAudit dt n ph m0) := by
  unfold triggerCounterAudit
  try dsimp only
  repeat' (first | with_reducible assumption | (intro _) | with_reducible apply keep_elapse K
                 | with_reducible apply keep_Chip_setCam K | with_reducible apply keep_Chip_sendCtrl K
                 | with_reducible apply keep_Chip_orderLost K | with_reducible apply keep_Chip_auditAck K
                 | with_reducible apply keep_ite (P := P) | split
                 | with_reducible refine keep_lit K _ ?_ rfl rfl rfl rfl rfl rfl)

theorem keep_cameraControlCommand {P : Chip → Prop} (K : Keep P) (dt : Nat) (a : Auth) (n : Nat) (write : Bool) (addr value
    : Nat) (m0 : Chip) (h0 : P m0) : P (cameraControlCommand dt a n write addr value m0) := by
  unfold cameraControlCommand
  try dsimp only
  repeat' (first | with_reducible assumption | (intro _) | with_reducible apply keep_elapse K
                 | with_reducible apply keep_Chip_signed K | with_reducible apply keep_Chip_sendCtrl K
                 | with_reducible apply keep_ite (P := P) | split)

theorem keep_calCaptureEnter {P : Chip → Prop} (K : Keep P) (dt : Nat) (a : Auth) (n base len trig : Nat) (m0 : Chip) (h0 :
    P m0) : P (calCaptureEnter dt a n base len trig m0) := by
  unfold calCaptureEnter
  try dsimp only
  repeat' (first | with_reducible assumption | (intro _) | with_reducible apply keep_Chip_emit K
                 | with_reducible apply keep_elapse K | with_reducible apply keep_Chip_setCam K
                 | with_reducible apply keep_Chip_signed K | with_reducible apply keep_Chip_setCamState K
                 | with_reducible apply keep_Chip_emptySlots K | with_reducible apply keep_Chip_trigger K
                 | with_reducible apply keep_ite (P := P) | split
                 | with_reducible refine keep_lit K _ ?_ rfl rfl rfl rfl rfl rfl)

theorem keep_calCaptureLeave {P : Chip → Prop} (K : Keep P) (dt : Nat) (a : Auth) (n : Nat) (m0 : Chip) (h0 : P m0) : P
    (calCaptureLeave dt a n m0) := by
  unfold calCaptureLeave
  try dsimp only
  repeat' (first | with_reducible assumption | (intro _) | with_reducible apply keep_elapse K
                 | with_reducible apply keep_Chip_signed K | with_reducible apply keep_Chip_beginBringUp K
                 | with_reducible apply keep_ite (P := P) | split)

end Sys2Proof.Laws
end

