-- ==== Sys2Proof/Laws/Keep/PipeCmds.lean ====
section
/-!
SUPPORT. Sys2Proof/Laws/Keep/PipeCmds.lean: the definitions of Machine/PipeCmds.lean keep what the primitive changes keep.
-/
namespace Sys2Proof.Laws
open Sys2Proof.Machine

theorem keep_Chip_closeStrip {P : Chip → Prop} (K : Keep P) (r : Nat) (o : OpenStrip) (m : Chip) (h0 : P m) : P
    (Chip.closeStrip r o m) := by
  unfold Chip.closeStrip
  try dsimp only
  repeat' (first | with_reducible assumption | (intro _) | with_reducible apply keep_Chip_setFlagIf K
                 | with_reducible apply keep_Chip_bump K | with_reducible apply keep_Chip_setRowPipe K
                 | with_reducible apply keep_Chip_putBytes K | with_reducible apply keep_Chip_feedHeader K
                 | with_reducible apply keep_Chip_onFire K | with_reducible apply keep_Chip_lpFlag K
                 | with_reducible apply keep_Chip_stripBoundary K | with_reducible apply keep_forAll (P := P)
                 | with_reducible apply keep_ite (P := P) | dsimp only | split
                 | with_reducible refine keep_lit K _ ?_ rfl rfl rfl rfl rfl rfl)

theorem keep_stripClose {P : Chip → Prop} (K : Keep P) (dt r : Nat) (m0 : Chip) (h0 : P m0) : P (stripClose dt r m0) := by
  unfold stripClose
  try dsimp only
  repeat' (first | with_reducible assumption | with_reducible apply keep_elapse K
                 | with_reducible apply keep_Chip_setRowPipe K | with_reducible apply keep_Chip_closeStrip K
                 | with_reducible apply keep_ite (P := P) | split
                 | with_reducible refine keep_lit K _ ?_ rfl rfl rfl rfl rfl rfl)

theorem keep_Chip_fedBoundary {P : Chip → Prop} (K : Keep P) (b : Nat) (m : Chip) (h0 : P m) : P (Chip.fedBoundary b m) :=
    by
  unfold Chip.fedBoundary
  try dsimp only
  repeat' (first | with_reducible assumption | (intro _) | with_reducible apply keep_Chip_setRowPipe K
                 | with_reducible apply keep_Chip_closeStrip K | with_reducible apply keep_forAll (P := P)
                 | with_reducible apply keep_ite (P := P) | dsimp only | split
                 | with_reducible refine keep_lit K _ ?_ rfl rfl rfl rfl rfl rfl)

theorem keep_Chip_releaseSlots {P : Chip → Prop} (K : Keep P) (b : Nat) (m : Chip) (h0 : P m) : P (Chip.releaseSlots b m) :=
    by
  unfold Chip.releaseSlots
  try dsimp only
  repeat' (first | with_reducible assumption | (intro _) | with_reducible apply keep_Chip_setRowPipe K
                 | with_reducible apply keep_forAll (P := P) | dsimp only | split
                 | with_reducible refine keep_lit K _ ?_ rfl rfl rfl rfl rfl rfl)

theorem keep_Chip_resetPipes {P : Chip → Prop} (K : Keep P) (m : Chip) (h0 : P m) : P (Chip.resetPipes m) := by
  unfold Chip.resetPipes
  try dsimp only
  repeat' (first | with_reducible assumption | (intro _) | with_reducible apply keep_ite (P := P) | dsimp only
                 | with_reducible refine keep_lit K _ ?_ rfl rfl rfl rfl rfl rfl)

theorem keep_syncResetWrite {P : Chip → Prop} (K : Keep P) (n : Nat) (m : Chip) (h0 : P m) : P (syncResetWrite n m) := by
  unfold syncResetWrite
  try dsimp only
  repeat' (first | with_reducible assumption | with_reducible apply keep_Chip_syncReset K | split)

theorem keep_Chip_routeWrite {P : Chip → Prop} (K : Keep P) (n src ch : Nat) (m : Chip) (h0 : P m) : P (Chip.routeWrite n
    src ch m).2 := by
  unfold Chip.routeWrite
  try dsimp only
  repeat' (first | with_reducible assumption | (intro _) | with_reducible apply keep_Chip_put K
                 | with_reducible apply keep_Chip_onGang K | with_reducible apply keep_Chip_lpFlag K
                 | with_reducible apply keep_Chip_showPipe K | with_reducible apply keep_ite (P := P) | dsimp only | split)

theorem keep_routeChangeWrite {P : Chip → Prop} (K : Keep P) (dt : Nat) (a : Auth) (n src ch : Nat) (m0 : Chip) (h0 : P m0)
    : P (routeChangeWrite dt a n src ch m0) := by
  unfold routeChangeWrite
  try dsimp only
  repeat' (first | with_reducible assumption | (intro _) | with_reducible apply keep_elapse K
                 | with_reducible apply keep_Chip_signed K | with_reducible apply keep_Chip_routeWrite K)

theorem keep_Chip_putCal {P : Chip → Prop} (K : Keep P) (g : Gang) (bankB : Bool) (c : CalRec) (m : Chip) (h0 : P m) : P
    (Chip.putCal g bankB c m) := by
  unfold Chip.putCal
  try dsimp only
  repeat' (first | with_reducible assumption | (intro _) | with_reducible apply keep_Chip_wr K
                 | with_reducible apply keep_Chip_put K | with_reducible apply keep_Chip_setPipe K
                 | with_reducible apply keep_Chip_onGang K | with_reducible apply keep_ite (P := P)
                 | with_reducible refine keep_lit K _ ?_ rfl rfl rfl rfl rfl rfl)

theorem keep_calLoad {P : Chip → Prop} (K : Keep P) (dt : Nat) (a : Auth) (n : Nat) (bankB : Bool) (bytes : List Byte) (m0 :
    Chip) (h0 : P m0) : P (calLoad dt a n bankB bytes m0) := by
  unfold calLoad
  try dsimp only
  repeat' (first | with_reducible assumption | (intro _) | with_reducible apply keep_elapse K
                 | with_reducible apply keep_Chip_lpFlag K | with_reducible apply keep_Chip_signed K
                 | with_reducible apply keep_Chip_putCal K | with_reducible apply keep_ite (P := P) | split)

theorem keep_Chip_restoreSnap {P : Chip → Prop} (K : Keep P) (g : Gang) (a : Nat) (m : Chip) (h0 : P m) : P
    (Chip.restoreSnap g a m) := by
  unfold Chip.restoreSnap
  try dsimp only
  repeat' (first | with_reducible assumption | (intro _) | with_reducible apply keep_Chip_setPipe K
                 | with_reducible refine keep_lit K _ ?_ rfl rfl rfl rfl rfl rfl)

theorem keep_replayStart {P : Chip → Prop} (K : Keep P) (dt : Nat) (a : Auth) (ch cam first last calId rate : Nat) (m0 :
    Chip) (h0 : P m0) : P (replayStart dt a ch cam first last calId rate m0) := by
  unfold replayStart
  try dsimp only
  repeat' (first | with_reducible assumption | (intro _) | with_reducible apply keep_Chip_put K
                 | with_reducible apply keep_Chip_setFlag K | with_reducible apply keep_Chip_wr64 K
                 | with_reducible apply keep_elapse K | with_reducible apply keep_Chip_setPipe K
                 | with_reducible apply keep_Chip_setRowPipe K | with_reducible apply keep_Chip_setReplayCh K
                 | with_reducible apply keep_Chip_syncReset K | with_reducible apply keep_Chip_stripBoundary K
                 | with_reducible apply keep_Chip_signed K | with_reducible apply keep_Chip_putCal K
                 | with_reducible apply keep_Chip_restoreSnap K | with_reducible apply keep_ite (P := P) | split
                 | with_reducible refine keep_lit K _ ?_ rfl rfl rfl rfl rfl rfl)

theorem keep_Chip_replayEnd {P : Chip → Prop} (K : Keep P) (ch : Nat) (done : Bool) (m : Chip) (h0 : P m) : P
    (Chip.replayEnd ch done m) := by
  unfold Chip.replayEnd
  try dsimp only
  repeat' (first | with_reducible assumption | with_reducible apply keep_Chip_put K
                 | with_reducible apply keep_Chip_setFlagIf K | with_reducible apply keep_Chip_setReplayCh K
                 | with_reducible refine keep_lit K _ ?_ rfl rfl rfl rfl rfl rfl)

theorem keep_replayLine {P : Chip → Prop} (K : Keep P) (dt ch : Nat) (io : LineIo) (m0 : Chip) (h0 : P m0) : P (replayLine
    dt ch io m0) := by
  unfold replayLine
  try dsimp only
  repeat' (first | with_reducible assumption | (intro _) | with_reducible apply keep_Chip_put K
                 | with_reducible apply keep_Chip_setFlag K | with_reducible apply keep_Chip_bump K
                 | with_reducible apply keep_Chip_draw K | with_reducible apply keep_elapse K
                 | with_reducible apply keep_Chip_setReplayCh K | with_reducible apply keep_Chip_replayLineTo K
                 | with_reducible apply keep_Chip_linePaced K | with_reducible apply keep_Chip_replayEnd K
                 | with_reducible apply keep_forAll (P := P) | with_reducible apply keep_ite (P := P) | dsimp only | split
                 | with_reducible refine keep_lit K _ ?_ rfl rfl rfl rfl rfl rfl)

theorem keep_replayStop {P : Chip → Prop} (K : Keep P) (ch : Nat) (m : Chip) (h0 : P m) : P (replayStop ch m) := by
  unfold replayStop
  try dsimp only
  repeat' (first | with_reducible assumption | with_reducible apply keep_Chip_put K | with_reducible apply keep_ite (P := P))

end Sys2Proof.Laws
end

