-- ==== Sys2Proof/Laws/Keep/Screening.lean ====
section
/-!
SUPPORT. Sys2Proof/Laws/Keep/Screening.lean: the definitions of Machine/Screening.lean keep what the primitive changes keep.
-/
namespace Sys2Proof.Laws
open Sys2Proof.Machine

theorem keep_screenWork {P : Chip → Prop} (K : Keep P) (n : Nat) (c : CutEntry) (row strip : Nat) (cells : List ScoreCell)
    (layer : Option Nat) (er : ReadErrs) (m : Chip) (h0 : P m) : P (screenWork n c row strip cells layer er m).2 := by
  unfold screenWork
  try dsimp only
  repeat' (first | with_reducible assumption | (intro _) | with_reducible apply keep_Chip_setScr K
                 | with_reducible apply keep_Chip_meetErrs K | with_reducible apply keep_ite (P := P) | dsimp only
                 | with_reducible refine keep_lit K _ ?_ rfl rfl rfl rfl rfl rfl)

theorem keep_screen {P : Chip → Prop} (K : Keep P) (dt n : Nat) (c : CutEntry) (row strip : Nat) (cells : List ScoreCell)
    (layer : Option Nat) (er : ReadErrs) (m0 : Chip) (h0 : P m0) : P (screen dt n c row strip cells layer er m0) := by
  unfold screen
  try dsimp only
  repeat' (first | with_reducible assumption | (intro _) | with_reducible apply keep_elapse K
                 | with_reducible apply keep_startCmd K | with_reducible apply keep_screenWork K
                 | with_reducible apply keep_ite (P := P))

theorem keep_Chip_countLater {P : Chip → Prop} (K : Keep P) (c : ClosedStrip) (l : List Nat) (m : Chip) (h0 : P m) : P
    (Chip.countLater c l m) := by
  unfold Chip.countLater
  try dsimp only
  repeat' (first | with_reducible assumption | (intro _) | with_reducible apply keep_Chip_onFire K
                 | with_reducible apply keep_ite (P := P) | with_reducible refine keep_lit K _ ?_ rfl rfl rfl rfl rfl rfl)

theorem keep_Chip_takeFallback {P : Chip → Prop} (K : Keep P) (c : ClosedStrip) (l : List Nat) (m : Chip) (h0 : P m) : P
    (Chip.takeFallback c l m) := by
  unfold Chip.takeFallback
  try dsimp only
  repeat' (first | with_reducible assumption | (intro _) | with_reducible apply keep_Chip_setScr K
                 | with_reducible apply keep_Chip_countLater K | dsimp only
                 | with_reducible refine keep_lit K _ ?_ rfl rfl rfl rfl rfl rfl)

theorem keep_Chip_releaseScreen {P : Chip → Prop} (K : Keep P) (c : ClosedStrip) (cells : List ScoreCell) (m : Chip) (h0 : P
    m) : P (Chip.releaseScreen c cells m) := by
  unfold Chip.releaseScreen
  try dsimp only
  repeat' (first | with_reducible assumption | (intro _) | with_reducible apply keep_Chip_setFlag K
                 | with_reducible apply keep_Chip_setFlagIf K | with_reducible apply keep_Chip_setScr K
                 | with_reducible apply keep_Chip_previewRec K | with_reducible apply keep_Chip_onFire K
                 | with_reducible apply keep_Chip_reserve K | with_reducible apply keep_Chip_countLater K
                 | with_reducible apply keep_Chip_takeFallback K | with_reducible apply keep_forAll (P := P)
                 | with_reducible apply keep_ite (P := P) | dsimp only
                 | with_reducible refine keep_lit K _ ?_ rfl rfl rfl rfl rfl rfl)

theorem keep_screeningOutputRelease {P : Chip → Prop} (K : Keep P) (dt r strip : Nat) (crop : CutEntry) (m0 : Chip) (h0 : P
    m0) : P (screeningOutputRelease dt r strip crop m0) := by
  unfold screeningOutputRelease
  try dsimp only
  repeat' (first | with_reducible assumption | (intro _) | with_reducible apply keep_Chip_setFlag K
                 | with_reducible apply keep_elapse K | with_reducible apply keep_Chip_setScr K
                 | with_reducible apply keep_Chip_takeFallback K | with_reducible apply keep_Chip_releaseScreen K
                 | with_reducible apply keep_ite (P := P) | dsimp only | split
                 | with_reducible refine keep_lit K _ ?_ rfl rfl rfl rfl rfl rfl)

theorem keep_Chip_cropStarts {P : Chip → Prop} (K : Keep P) (r strip : Nat) (m : Chip) (h0 : P m) : P (Chip.cropStarts r
    strip m) := by
  unfold Chip.cropStarts
  try dsimp only
  repeat' (first | with_reducible assumption | (intro _) | with_reducible apply keep_Chip_setFlag K
                 | with_reducible apply keep_Chip_takeFallback K | with_reducible apply keep_ite (P := P) | split)

theorem keep_Chip_screenBoundary {P : Chip → Prop} (K : Keep P) (b : Nat) (m : Chip) (h0 : P m) : P (Chip.screenBoundary b
    m) := by
  unfold Chip.screenBoundary
  try dsimp only
  repeat' (first | with_reducible assumption | (intro _) | with_reducible apply keep_Chip_setScr K
                 | with_reducible apply keep_forAll (P := P) | dsimp only
                 | with_reducible refine keep_lit K _ ?_ rfl rfl rfl rfl rfl rfl)

end Sys2Proof.Laws
end

