-- ==== Sys2Proof/Laws/Keep/Detect.lean ====
section
/-!
SUPPORT. Sys2Proof/Laws/Keep/Detect.lean: the definitions of Machine/Detect.lean keep what the primitive changes keep.
-/
namespace Sys2Proof.Laws
open Sys2Proof.Machine

theorem keep_Chip_onPp {P : Chip → Prop} (K : Keep P) (f : PpState → PpState) (m : Chip) (h0 : P m) : P (Chip.onPp f m) :=
    by
  unfold Chip.onPp
  try dsimp only
  repeat' (first | with_reducible assumption | with_reducible refine keep_lit K _ ?_ rfl rfl rfl rfl rfl rfl)

theorem keep_Chip_setPpRow {P : Chip → Prop} (K : Keep P) (v : PpRow) (m : Chip) (h0 : P m) : P (Chip.setPpRow v m) := by
  unfold Chip.setPpRow
  try dsimp only
  repeat' (first | with_reducible assumption | (intro _) | with_reducible apply keep_Chip_onPp K
                 | with_reducible refine keep_lit K _ ?_ rfl rfl rfl rfl rfl rfl)

theorem keep_Chip_discardCarry {P : Chip → Prop} (K : Keep P) (j r : Nat) (m : Chip) (h0 : P m) : P (Chip.discardCarry j r
    m) := by
  unfold Chip.discardCarry
  try dsimp only
  repeat' (first | with_reducible assumption | with_reducible apply keep_Chip_setFlag K
                 | with_reducible apply keep_Chip_bump K | with_reducible apply keep_Chip_setPpRow K
                 | with_reducible apply keep_ite (P := P) | split
                 | with_reducible refine keep_lit K _ ?_ rfl rfl rfl rfl rfl rfl)

theorem keep_Chip_discardInvalid {P : Chip → Prop} (K : Keep P) (m : Chip) (h0 : P m) : P (Chip.discardInvalid m) := by
  unfold Chip.discardInvalid
  try dsimp only
  repeat' (first | with_reducible assumption | (intro _) | with_reducible apply keep_Chip_discardCarry K
                 | with_reducible apply keep_forAll (P := P) | split)

theorem keep_Chip_discardJob {P : Chip → Prop} (K : Keep P) (j : Nat) (m : Chip) (h0 : P m) : P (Chip.discardJob j m) := by
  unfold Chip.discardJob
  try dsimp only
  repeat' (first | with_reducible assumption | (intro _) | with_reducible apply keep_Chip_discardCarry K
                 | with_reducible apply keep_forAll (P := P))

theorem keep_Chip_detectStrip {P : Chip → Prop} (K : Keep P) (d : DetDesc) (j : Nat) (c : ClosedStrip) (er : ReadErrs) (m0 :
    Chip) (h0 : P m0) : P (Chip.detectStrip d j c er m0) := by
  unfold Chip.detectStrip
  try dsimp only
  repeat' (first | with_reducible assumption | (intro _) | with_reducible apply keep_Chip_setFlagIf K
                 | with_reducible apply keep_Chip_bumpBy K | with_reducible apply keep_Chip_onPp K
                 | with_reducible apply keep_Chip_setPpRow K | with_reducible apply keep_Chip_discardCarry K
                 | with_reducible apply keep_ite (P := P) | with_reducible refine keep_lit K _ ?_ rfl rfl rfl rfl rfl rfl)

theorem keep_detectWork {P : Chip → Prop} (K : Keep P) (c : CutEntry) (cs : ClosedStrip) (er : ReadErrs) (m : Chip) (h0 : P
    m) : P (detectWork c cs er m).2 := by
  unfold detectWork
  try dsimp only
  repeat' (first | with_reducible assumption | with_reducible apply keep_Chip_meetErrs K
                 | with_reducible apply keep_Chip_detectStrip K
                 | with_reducible refine keep_lit K _ ?_ rfl rfl rfl rfl rfl rfl)

theorem keep_detect {P : Chip → Prop} (K : Keep P) (dt : Nat) (c : CutEntry) (strip : Nat) (er : ReadErrs) (m0 : Chip) (h0 :
    P m0) : P (detect dt c strip er m0) := by
  unfold detect
  try dsimp only
  repeat' (first | with_reducible assumption | (intro _) | with_reducible apply keep_elapse K
                 | with_reducible apply keep_startCmd K | with_reducible apply keep_detectWork K
                 | with_reducible apply keep_ite (P := P) | split)

theorem keep_Chip_sealMarks {P : Chip → Prop} (K : Keep P) (j k : Nat) (gap : Bool) (extra : List Mark) (m : Chip) (h0 : P
    m) : P (Chip.sealMarks j k gap extra m) := by
  unfold Chip.sealMarks
  try dsimp only
  repeat' (first | with_reducible assumption | (intro _) | with_reducible apply keep_Chip_onWit K
                 | with_reducible apply keep_ite (P := P) | with_reducible refine keep_lit K _ ?_ rfl rfl rfl rfl rfl rfl)

theorem keep_Chip_sealPair {P : Chip → Prop} (K : Keep P) (k j : Nat) (m : Chip) (h0 : P m) : P (Chip.sealPair k j m) := by
  unfold Chip.sealPair
  try dsimp only
  repeat' (first | with_reducible assumption | (intro _) | with_reducible apply keep_Chip_bumpBy K
                 | with_reducible apply keep_Chip_onPp K | with_reducible apply keep_Chip_sealMarks K
                 | with_reducible apply keep_forAll (P := P) | with_reducible apply keep_ite (P := P)
                 | with_reducible refine keep_lit K _ ?_ rfl rfl rfl rfl rfl rfl)

theorem keep_endGuardSeal {P : Chip → Prop} (K : Keep P) (dt : Nat) (m0 : Chip) (h0 : P m0) : P (endGuardSeal dt m0) := by
  unfold endGuardSeal
  try dsimp only
  repeat' (first | with_reducible assumption | (intro _) | with_reducible apply keep_elapse K
                 | with_reducible apply keep_Chip_onPp K | with_reducible apply keep_Chip_sealPair K
                 | with_reducible apply keep_forAll (P := P) | with_reducible apply keep_ite (P := P) | split
                 | with_reducible refine keep_lit K _ ?_ rfl rfl rfl rfl rfl rfl)

theorem keep_Chip_ppBoundary {P : Chip → Prop} (K : Keep P) (b : Nat) (m : Chip) (h0 : P m) : P (Chip.ppBoundary b m) := by
  unfold Chip.ppBoundary
  try dsimp only
  repeat' (first | with_reducible assumption | (intro _) | with_reducible apply keep_Chip_setFlag K
                 | with_reducible apply keep_Chip_invalidate K | with_reducible apply keep_Chip_onPp K
                 | with_reducible apply keep_Chip_discardInvalid K | with_reducible apply keep_Chip_sealMarks K
                 | with_reducible apply keep_forAll (P := P) | with_reducible apply keep_ite (P := P)
                 | with_reducible refine keep_lit K _ ?_ rfl rfl rfl rfl rfl rfl)

end Sys2Proof.Laws
end

