-- ==== Sys2Proof/Laws/Keep/Memories.lean ====
section
/-!
SUPPORT. Sys2Proof/Laws/Keep/Memories.lean: the definitions of Machine/Memories.lean keep what the primitive changes keep.
-/
namespace Sys2Proof.Laws
open Sys2Proof.Machine

theorem keep_dmaCopy {P : Chip → Prop} (K : Keep P) (dt n : Nat) (c : CutEntry) (er : ReadErrs) (m0 : Chip) (h0 : P m0) : P
    (dmaCopy dt n c er m0) := by
  unfold dmaCopy
  try dsimp only
  repeat' (first | with_reducible assumption | (intro _) | with_reducible apply keep_elapse K
                 | with_reducible apply keep_bentCommand K | with_reducible apply keep_ite (P := P))

theorem keep_dmaClear {P : Chip → Prop} (K : Keep P) (dt n : Nat) (c : CutEntry) (m0 : Chip) (h0 : P m0) : P (dmaClear dt n
    c m0) := by
  unfold dmaClear
  try dsimp only
  repeat' (first | with_reducible assumption | (intro _) | with_reducible apply keep_elapse K
                 | with_reducible apply keep_bentCommand K | with_reducible apply keep_ite (P := P)
                 | with_reducible refine keep_lit K _ ?_ rfl rfl rfl rfl rfl rfl)

theorem keep_cmDmaWork {P : Chip → Prop} (K : Keep P) (c : CutEntry) (er : ReadErrs) (m : Chip) (h0 : P m) : P (cmDmaWork c
    er m).2 := by
  unfold cmDmaWork
  try dsimp only
  repeat' (first | with_reducible assumption | (intro _) | with_reducible apply keep_Chip_meetErrs K
                 | with_reducible apply keep_forAll (P := P) | with_reducible apply keep_foldl (P := P)
                 | with_reducible apply keep_foldl2 (P := P) | with_reducible apply keep_ite (P := P) | dsimp only | split
                 | with_reducible refine keep_lit K _ ?_ rfl rfl rfl rfl rfl rfl)

theorem keep_cmDma {P : Chip → Prop} (K : Keep P) (dt : Nat) (c : CutEntry) (er : ReadErrs) (m0 : Chip) (h0 : P m0) : P
    (cmDma dt c er m0) := by
  unfold cmDma
  try dsimp only
  repeat' (first | with_reducible assumption | (intro _) | with_reducible apply keep_elapse K
                 | with_reducible apply keep_startCmd K | with_reducible apply keep_cmDmaWork K
                 | with_reducible apply keep_ite (P := P))

theorem keep_scrubLap {P : Chip → Prop} (K : Keep P) (dt n : Nat) (er : ReadErrs) (m0 : Chip) (h0 : P m0) : P (scrubLap dt n
    er m0) := by
  unfold scrubLap
  try dsimp only
  repeat' (first | with_reducible assumption | (intro _) | with_reducible apply keep_Chip_wr K
                 | with_reducible apply keep_Chip_setFlag K | with_reducible apply keep_Chip_bump K
                 | with_reducible apply keep_elapse K | with_reducible apply keep_Chip_setEng K
                 | with_reducible apply keep_Chip_raise K | with_reducible apply keep_Chip_sramCorrected K
                 | with_reducible apply keep_Chip_sramLost K | with_reducible apply keep_Chip_sramParity K
                 | with_reducible apply keep_ite (P := P) | with_reducible refine keep_lit K _ ?_ rfl rfl rfl rfl rfl rfl)

theorem keep_Chip_replaceKeys {P : Chip → Prop} (K : Keep P) (m : Chip) (h0 : P m) : P (Chip.replaceKeys m) := by
  unfold Chip.replaceKeys
  try dsimp only
  repeat' (first | with_reducible assumption | (intro _) | with_reducible apply keep_Chip_put K
                 | with_reducible apply keep_Chip_setFlag K | with_reducible apply keep_Chip_setCam K
                 | with_reducible apply keep_Chip_setPipe K | with_reducible apply keep_Chip_clearCm K
                 | with_reducible apply keep_forAll (P := P) | with_reducible apply keep_ite (P := P) | dsimp only
                 | with_reducible refine keep_lit K _ ?_ rfl rfl rfl rfl rfl rfl)

theorem keep_zeroise {P : Chip → Prop} (K : Keep P) (dt : Nat) (a : Auth) (m : Chip) (h0 : P m) : P (zeroise dt a m) := by
  unfold zeroise
  try dsimp only
  repeat' (first | with_reducible assumption | (intro _) | with_reducible apply keep_elapse K
                 | with_reducible apply keep_Chip_signed K | with_reducible apply keep_Chip_replaceKeys K)

end Sys2Proof.Laws
end

