-- ==== Sys2Proof/Laws/Keep/Adapt.lean ====
section
/-!
SUPPORT. Sys2Proof/Laws/Keep/Adapt.lean: the definitions of Machine/Adapt.lean keep what the primitive changes keep.
-/
namespace Sys2Proof.Laws
open Sys2Proof.Machine

theorem keep_Chip_showHead {P : Chip → Prop} (K : Keep P) (h : Nat) (m : Chip) (h0 : P m) : P (Chip.showHead h m) := by
  unfold Chip.showHead
  try dsimp only
  repeat' (first | with_reducible assumption | with_reducible apply keep_Chip_put K | with_reducible apply keep_ite (P := P))

theorem keep_sampleCapture {P : Chip → Prop} (K : Keep P) (dt h : Nat) (feats : List ((Nat × Nat × Nat) × List Byte)) (m0 :
    Chip) (h0 : P m0) : P (sampleCapture dt h feats m0) := by
  unfold sampleCapture
  try dsimp only
  repeat' (first | with_reducible assumption | (intro _) | with_reducible apply keep_elapse K
                 | with_reducible apply keep_Chip_setHead K | with_reducible apply keep_ite (P := P) | dsimp only | split
                 | with_reducible refine keep_lit K _ ?_ rfl rfl rfl rfl rfl rfl)

theorem keep_Chip_dropStaged {P : Chip → Prop} (K : Keep P) (b : Nat) (m : Chip) (h0 : P m) : P (Chip.dropStaged b m) := by
  unfold Chip.dropStaged
  try dsimp only
  repeat' (first | with_reducible assumption | (intro _) | with_reducible apply keep_Chip_setHead K
                 | with_reducible apply keep_forAll (P := P) | with_reducible refine keep_lit K _ ?_ rfl rfl rfl rfl rfl rfl)

theorem keep_Chip_storeLabel {P : Chip → Prop} (K : Keep P) (h id : Nat) (m : Chip) (h0 : P m) : P (Chip.storeLabel h id m)
    := by
  unfold Chip.storeLabel
  try dsimp only
  repeat' (first | with_reducible assumption | (intro _) | with_reducible apply keep_Chip_emit K
                 | with_reducible apply keep_Chip_log K | with_reducible apply keep_ite (P := P) | split)

theorem keep_label {P : Chip → Prop} (K : Keep P) (dt session h id : Nat) (lab : Option Nat) (m0 : Chip) (h0 : P m0) : P
    (label dt session h id lab m0) := by
  unfold label
  try dsimp only
  repeat' (first | with_reducible assumption | (intro _) | with_reducible apply keep_Chip_setFlag K
                 | with_reducible apply keep_elapse K | with_reducible apply keep_Chip_setHead K
                 | with_reducible apply keep_Chip_touch K | with_reducible apply keep_Chip_reply K
                 | with_reducible apply keep_Chip_answer K | with_reducible apply keep_Chip_storeLabel K
                 | with_reducible apply keep_ite (P := P) | split
                 | with_reducible refine keep_lit K _ ?_ rfl rfl rfl rfl rfl rfl)

theorem keep_Chip_formCandidate {P : Chip → Prop} (K : Keep P) (h : Nat) (r : HeadRec) (vals : List Sample) (master : List
    Nat) (m : Chip) (h0 : P m) : P (Chip.formCandidate h r vals master m) := by
  unfold Chip.formCandidate
  try dsimp only
  repeat' (first | with_reducible assumption | (intro _) | with_reducible apply keep_Chip_put K
                 | with_reducible apply keep_Chip_wr64 K | with_reducible apply keep_Chip_emit K
                 | with_reducible apply keep_Chip_setHead K | with_reducible apply keep_Chip_showHead K
                 | with_reducible apply keep_label K | with_reducible refine keep_lit K _ ?_ rfl rfl rfl rfl rfl rfl)

theorem keep_trainStart {P : Chip → Prop} (K : Keep P) (dt : Nat) (a : Auth) (h seed epochs : Nat) (o : TrainOpts) (fromLast
    : Bool) (er : ReadErrs) (m : Chip) (h0 : P m) : P (trainStart dt a h seed epochs o fromLast er m) := by
  unfold trainStart
  try dsimp only
  repeat' (first | with_reducible assumption | (intro _) | with_reducible apply keep_Chip_put K
                 | with_reducible apply keep_elapse K | with_reducible apply keep_Chip_setHead K
                 | with_reducible apply keep_Chip_hbmErrs K | with_reducible apply keep_Chip_answer K
                 | with_reducible apply keep_Chip_signed K | with_reducible apply keep_Chip_showHead K
                 | with_reducible apply keep_ite (P := P) | split
                 | with_reducible refine keep_lit K _ ?_ rfl rfl rfl rfl rfl rfl)

theorem keep_Chip_endRun {P : Chip → Prop} (K : Keep P) (h : Nat) (r : HeadRec) (t : TrainRun) (m : Chip) (h0 : P m) : P
    (Chip.endRun h r t m) := by
  unfold Chip.endRun
  try dsimp only
  repeat' (first | with_reducible assumption | (intro _) | with_reducible apply keep_Chip_setHead K
                 | with_reducible apply keep_Chip_formCandidate K
                 | with_reducible refine keep_lit K _ ?_ rfl rfl rfl rfl rfl rfl)

theorem keep_trainingStep {P : Chip → Prop} (K : Keep P) (dt h : Nat) (lost : List (Nat × Nat)) (ce : List Nat) (m0 : Chip)
    (h0 : P m0) : P (trainingStep dt h lost ce m0) := by
  unfold trainingStep
  try dsimp only
  repeat' (first | with_reducible assumption | (intro _) | with_reducible apply keep_Chip_put K
                 | with_reducible apply keep_Chip_setFlagIf K | with_reducible apply keep_Chip_bumpBy K
                 | with_reducible apply keep_Chip_bump K | with_reducible apply keep_elapse K
                 | with_reducible apply keep_Chip_setHead K | with_reducible apply keep_Chip_stepDone K
                 | with_reducible apply keep_Chip_cmErrs K | with_reducible apply keep_Chip_endRun K
                 | with_reducible apply keep_ite (P := P) | dsimp only | split
                 | with_reducible refine keep_lit K _ ?_ rfl rfl rfl rfl rfl rfl)

theorem keep_adaptStop {P : Chip → Prop} (K : Keep P) (h : Nat) (m : Chip) (h0 : P m) : P (adaptStop h m) := by
  unfold adaptStop
  try dsimp only
  repeat' (first | with_reducible assumption | (intro _) | with_reducible apply keep_Chip_setHead K
                 | with_reducible refine keep_lit K _ ?_ rfl rfl rfl rfl rfl rfl)

theorem keep_approveHead {P : Chip → Prop} (K : Keep P) (dt : Nat) (a : Auth) (h hash stick : Nat) (m : Chip) (h0 : P m) : P
    (approveHead dt a h hash stick m) := by
  unfold approveHead
  try dsimp only
  repeat' (first | with_reducible assumption | (intro _) | with_reducible apply keep_elapse K
                 | with_reducible apply keep_Chip_setHead K | with_reducible apply keep_Chip_answer K
                 | with_reducible apply keep_Chip_signed K | with_reducible apply keep_Chip_showHead K
                 | with_reducible apply keep_ite (P := P) | dsimp only | split
                 | with_reducible refine keep_lit K _ ?_ rfl rfl rfl rfl rfl rfl)

theorem keep_revertHead {P : Chip → Prop} (K : Keep P) (dt : Nat) (a : Auth) (h : Nat) (m : Chip) (h0 : P m) : P (revertHead
    dt a h m) := by
  unfold revertHead
  try dsimp only
  repeat' (first | with_reducible assumption | (intro _) | with_reducible apply keep_elapse K
                 | with_reducible apply keep_Chip_setHead K | with_reducible apply keep_Chip_signed K
                 | with_reducible apply keep_Chip_showHead K | with_reducible apply keep_forAll (P := P)
                 | with_reducible apply keep_foldl (P := P) | with_reducible apply keep_foldl2 (P := P)
                 | with_reducible apply keep_ite (P := P) | dsimp only | split
                 | with_reducible refine keep_lit K _ ?_ rfl rfl rfl rfl rfl rfl)

theorem keep_Chip_commitHead {P : Chip → Prop} (K : Keep P) (h : Nat) (r : HeadRec) (ap : Approval) (m : Chip) (h0 : P m) :
    P (Chip.commitHead h r ap m) := by
  unfold Chip.commitHead
  try dsimp only
  repeat' (first | with_reducible assumption | (intro _) | with_reducible apply keep_Chip_setFlag K
                 | with_reducible apply keep_Chip_wr64 K | with_reducible apply keep_Chip_putBytes K
                 | with_reducible apply keep_Chip_clearSeg K)

theorem keep_adaptCommit {P : Chip → Prop} (K : Keep P) (dt h : Nat) (m0 : Chip) (h0 : P m0) : P (adaptCommit dt h m0) := by
  unfold adaptCommit
  try dsimp only
  repeat' (first | with_reducible assumption | with_reducible apply keep_Chip_log K | with_reducible apply keep_elapse K
                 | with_reducible apply keep_Chip_setHead K | with_reducible apply keep_Chip_showHead K
                 | with_reducible apply keep_Chip_commitHead K | with_reducible apply keep_ite (P := P) | split
                 | with_reducible refine keep_lit K _ ?_ rfl rfl rfl rfl rfl rfl)

theorem keep_Chip_recommit {P : Chip → Prop} (K : Keep P) (m : Chip) (h0 : P m) : P (Chip.recommit m) := by
  unfold Chip.recommit
  try dsimp only
  repeat' (first | with_reducible assumption | (intro _) | with_reducible apply keep_Chip_setFlag K
                 | with_reducible apply keep_Chip_wr64 K | with_reducible apply keep_Chip_setHead K
                 | with_reducible apply keep_Chip_showHead K | with_reducible apply keep_Chip_commitHead K
                 | with_reducible apply keep_forAll (P := P) | with_reducible apply keep_ite (P := P) | split
                 | with_reducible refine keep_lit K _ ?_ rfl rfl rfl rfl rfl rfl)

theorem keep_classPrompt {P : Chip → Prop} (K : Keep P) (dt : Nat) (a : Auth) (h c : Nat) (text : List Byte) (er : ReadErrs)
    (m : Chip) (h0 : P m) : P (classPrompt dt a h c text er m) := by
  unfold classPrompt
  try dsimp only
  repeat' (first | with_reducible assumption | (intro _) | with_reducible apply keep_elapse K
                 | with_reducible apply keep_Chip_hbmErrs K | with_reducible apply keep_Chip_answer K
                 | with_reducible apply keep_Chip_signed K | with_reducible apply keep_Chip_formCandidate K
                 | with_reducible apply keep_ite (P := P) | dsimp only | split)

end Sys2Proof.Laws
end

