-- ==== Sys2Proof/Laws/Keep/Faults.lean ====
section
/-!
SUPPORT. Sys2Proof/Laws/Keep/Faults.lean: the definitions of Machine/Faults.lean keep what the primitive changes keep.
-/
namespace Sys2Proof.Laws
open Sys2Proof.Machine

theorem keep_Chip_errorOut {P : Chip → Prop} (K : Keep P) (c : Src) (unit : Nat) (m : Chip) (h0 : P m) : P (Chip.errorOut c
    unit m) := by
  unfold Chip.errorOut
  try dsimp only
  repeat' (first | with_reducible assumption | with_reducible apply keep_Chip_setFlag K
                 | with_reducible apply keep_Chip_setBit K | with_reducible apply keep_ite (P := P))

theorem keep_sourceAssert {P : Chip → Prop} (K : Keep P) (dt half num unit : Nat) (up : Bool) (m0 : Chip) (h0 : P m0) : P
    (sourceAssert dt half num unit up m0) := by
  unfold sourceAssert
  try dsimp only
  repeat' (first | with_reducible assumption | with_reducible apply keep_elapse K | with_reducible apply keep_Chip_raise K
                 | with_reducible apply keep_Chip_assert K | with_reducible apply keep_Chip_deassert K
                 | with_reducible apply keep_Chip_errorOut K | with_reducible apply keep_ite (P := P))

theorem keep_bucketLeak {P : Chip → Prop} (K : Keep P) (dt half num : Nat) (m0 : Chip) (h0 : P m0) : P (bucketLeak dt half
    num m0) := by
  unfold bucketLeak
  try dsimp only
  repeat' (first | with_reducible assumption | with_reducible apply keep_Chip_put K | with_reducible apply keep_elapse K
                 | with_reducible apply keep_Chip_setSrc K | with_reducible apply keep_ite (P := P)
                 | with_reducible refine keep_lit K _ ?_ rfl rfl rfl rfl rfl rfl)

theorem keep_Chip_expireGrace {P : Chip → Prop} (K : Keep P) (m : Chip) (h0 : P m) : P (Chip.expireGrace m) := by
  unfold Chip.expireGrace
  try dsimp only
  repeat' (first | with_reducible assumption | (intro _) | with_reducible apply keep_Chip_bump K
                 | with_reducible apply keep_Chip_setSrc K | with_reducible apply keep_Chip_enterFireOut K
                 | with_reducible apply keep_forAll (P := P) | with_reducible refine keep_lit K _ ?_ rfl rfl rfl rfl rfl rfl)

theorem keep_graceExpiry {P : Chip → Prop} (K : Keep P) (dt : Nat) (m0 : Chip) (h0 : P m0) : P (graceExpiry dt m0) := by
  unfold graceExpiry
  try dsimp only
  repeat' (first | with_reducible assumption | with_reducible apply keep_elapse K
                 | with_reducible apply keep_Chip_expireGrace K)

theorem keep_pendingAck {P : Chip → Prop} (K : Keep P) (dt k mask : Nat) (m0 : Chip) (h0 : P m0) : P (pendingAck dt k mask
    m0) := by
  unfold pendingAck
  try dsimp only
  repeat' (first | with_reducible assumption | with_reducible apply keep_Chip_wr K | with_reducible apply keep_elapse K
                 | with_reducible apply keep_Chip_expireGrace K)

theorem keep_selfFault {P : Chip → Prop} (K : Keep P) (dt half : Nat) (vote : Bool) (m0 : Chip) (h0 : P m0) : P (selfFault
    dt half vote m0) := by
  unfold selfFault
  try dsimp only
  repeat' (first | with_reducible assumption | with_reducible apply keep_Chip_setFlag K
                 | with_reducible apply keep_Chip_draw K | with_reducible apply keep_elapse K
                 | with_reducible apply keep_Chip_enterSafe K | with_reducible apply keep_Chip_raise K
                 | with_reducible apply keep_ite (P := P) | dsimp only | split)

theorem keep_faultLinkLoss {P : Chip → Prop} (K : Keep P) (dt : Nat) (lost : Bool) (m0 : Chip) (h0 : P m0) : P
    (faultLinkLoss dt lost m0) := by
  unfold faultLinkLoss
  try dsimp only
  repeat' (first | with_reducible assumption | with_reducible apply keep_Chip_setFlag K | with_reducible apply keep_elapse K
                 | with_reducible apply keep_Chip_enterSafe K | with_reducible apply keep_Chip_assert K
                 | with_reducible apply keep_Chip_deassert K | with_reducible apply keep_ite (P := P))

theorem keep_raisedRestore {P : Chip → Prop} (K : Keep P) (half num : Nat) (m : Chip) (h0 : P m) : P (raisedRestore half num
    m) := by
  unfold raisedRestore
  try dsimp only
  repeat' (first | with_reducible assumption | with_reducible apply keep_Chip_put K)

theorem keep_degradeMaskWrite {P : Chip → Prop} (K : Keep P) (mask : Nat) (m : Chip) (h0 : P m) : P (degradeMaskWrite mask
    m) := by
  unfold degradeMaskWrite
  try dsimp only
  repeat' (first | with_reducible assumption | with_reducible apply keep_Chip_wr K)

theorem keep_safeReq {P : Chip → Prop} (K : Keep P) (m : Chip) (h0 : P m) : P (safeReq m) := by
  unfold safeReq
  try dsimp only
  repeat' (first | with_reducible assumption | with_reducible apply keep_Chip_enterSafe K)

theorem keep_safeReqN {P : Chip → Prop} (K : Keep P) (dt : Nat) (low : Bool) (m0 : Chip) (h0 : P m0) : P (safeReqN dt low
    m0) := by
  unfold safeReqN
  try dsimp only
  repeat' (first | with_reducible assumption | with_reducible apply keep_elapse K | with_reducible apply keep_Chip_follow K)

theorem keep_fireOutReq {P : Chip → Prop} (K : Keep P) (m : Chip) (h0 : P m) : P (fireOutReq m) := by
  unfold fireOutReq
  try dsimp only
  repeat' (first | with_reducible assumption | with_reducible apply keep_Chip_enterFireOut K)

theorem keep_resume {P : Chip → Prop} (K : Keep P) (m : Chip) (h0 : P m) : P (resume m) := by
  unfold resume
  try dsimp only
  repeat' (first | with_reducible assumption | with_reducible apply keep_Chip_setFlag K
                 | with_reducible apply keep_ite (P := P) | with_reducible refine keep_lit K _ ?_ rfl rfl rfl rfl rfl rfl)

theorem keep_kick {P : Chip → Prop} (K : Keep P) (dt : Nat) (m0 : Chip) (h0 : P m0) : P (kick dt m0) := by
  unfold kick
  try dsimp only
  repeat' (first | with_reducible assumption | with_reducible apply keep_elapse K
                 | with_reducible refine keep_lit K _ ?_ rfl rfl rfl rfl rfl rfl)

theorem keep_watchdogExpiry {P : Chip → Prop} (K : Keep P) (dt : Nat) (m0 : Chip) (h0 : P m0) : P (watchdogExpiry dt m0) :=
    by
  unfold watchdogExpiry
  try dsimp only
  repeat' (first | with_reducible assumption | with_reducible apply keep_Chip_bump K | with_reducible apply keep_elapse K
                 | with_reducible apply keep_Chip_raise K | with_reducible apply keep_ite (P := P)
                 | with_reducible refine keep_lit K _ ?_ rfl rfl rfl rfl rfl rfl)

theorem keep_Chip_relatch {P : Chip → Prop} (K : Keep P) (half : Nat) (m : Chip) (h0 : P m) : P (Chip.relatch half m) := by
  unfold Chip.relatch
  try dsimp only
  repeat' (first | with_reducible assumption | (intro _) | with_reducible apply keep_Chip_setBit K
                 | with_reducible apply keep_forAll (P := P) | with_reducible refine keep_lit K _ ?_ rfl rfl rfl rfl rfl rfl)

theorem keep_Chip_supBoundary {P : Chip → Prop} (K : Keep P) (m : Chip) (h0 : P m) : P (Chip.supBoundary m) := by
  unfold Chip.supBoundary
  try dsimp only
  repeat' (first | with_reducible assumption | with_reducible apply keep_Chip_bump K | with_reducible apply keep_Chip_bumpIf K
                 | with_reducible apply keep_Chip_refreshOutputs K | with_reducible apply keep_Chip_setMode K
                 | with_reducible apply keep_ite (P := P) | with_reducible refine keep_lit K _ ?_ rfl rfl rfl rfl rfl rfl)

end Sys2Proof.Laws
end

