-- ==== Sys2Proof/Laws/Keep/FieldIo.lean ====
section
/-!
SUPPORT. Sys2Proof/Laws/Keep/FieldIo.lean: the definitions of Machine/FieldIo.lean keep what the primitive changes keep.
-/
namespace Sys2Proof.Laws
open Sys2Proof.Machine

theorem keep_Chip_onFio {P : Chip → Prop} (K : Keep P) (f : FioState → FioState) (m : Chip) (h0 : P m) : P (Chip.onFio f m)
    := by
  unfold Chip.onFio
  try dsimp only
  repeat' (first | with_reducible assumption | with_reducible refine keep_lit K _ ?_ rfl rfl rfl rfl rfl rfl)

theorem keep_Chip_refreshIn {P : Chip → Prop} (K : Keep P) (m : Chip) (h0 : P m) : P (Chip.refreshIn m) := by
  unfold Chip.refreshIn
  try dsimp only
  repeat' (first | with_reducible assumption | with_reducible apply keep_Chip_wr K | split)

theorem keep_Chip_refreshGroups {P : Chip → Prop} (K : Keep P) (m : Chip) (h0 : P m) : P (Chip.refreshGroups m) := by
  unfold Chip.refreshGroups
  try dsimp only
  repeat' (first | with_reducible assumption | (intro _) | with_reducible apply keep_Chip_put K
                 | with_reducible apply keep_Chip_refreshOutputs K | with_reducible apply keep_Chip_follow K
                 | with_reducible apply keep_foldl (P := P) | with_reducible apply keep_foldl2 (P := P)
                 | with_reducible apply keep_ite (P := P) | dsimp only | split)

theorem keep_Chip_pushEdge {P : Chip → Prop} (K : Keep P) (r : EvtRec) (m : Chip) (h0 : P m) : P (Chip.pushEdge r m) := by
  unfold Chip.pushEdge
  try dsimp only
  repeat' (first | with_reducible assumption | (intro _) | with_reducible apply keep_Chip_setFlag K
                 | with_reducible apply keep_Chip_bump K | with_reducible apply keep_Chip_onFio K
                 | with_reducible apply keep_ite (P := P) | with_reducible refine keep_lit K _ ?_ rfl rfl rfl rfl rfl rfl)

theorem keep_Chip_pushPair {P : Chip → Prop} (K : Keep P) (r : PairRec) (m : Chip) (h0 : P m) : P (Chip.pushPair r m) := by
  unfold Chip.pushPair
  try dsimp only
  repeat' (first | with_reducible assumption | (intro _) | with_reducible apply keep_Chip_setFlag K
                 | with_reducible apply keep_Chip_bump K | with_reducible apply keep_Chip_bumpIf K
                 | with_reducible apply keep_Chip_onFio K | with_reducible apply keep_ite (P := P)
                 | with_reducible refine keep_lit K _ ?_ rfl rfl rfl rfl rfl rfl)

theorem keep_Chip_setPair {P : Chip → Prop} (K : Keep P) (k : Nat) (v : Option Nat) (m : Chip) (h0 : P m) : P (Chip.setPair
    k v m) := by
  unfold Chip.setPair
  try dsimp only
  repeat' (first | with_reducible assumption | (intro _) | with_reducible apply keep_Chip_onFio K | dsimp only | split
                 | with_reducible refine keep_lit K _ ?_ rfl rfl rfl rfl rfl rfl)

theorem keep_Chip_pairStart {P : Chip → Prop} (K : Keep P) (k stamp : Nat) (m : Chip) (h0 : P m) : P (Chip.pairStart k stamp
    m) := by
  unfold Chip.pairStart
  try dsimp only
  repeat' (first | with_reducible assumption | with_reducible apply keep_Chip_bumpIf K
                 | with_reducible apply keep_Chip_setPair K)

theorem keep_Chip_pairStop {P : Chip → Prop} (K : Keep P) (k stamp : Nat) (m : Chip) (h0 : P m) : P (Chip.pairStop k stamp
    m) := by
  unfold Chip.pairStop
  try dsimp only
  repeat' (first | with_reducible assumption | with_reducible apply keep_Chip_draw K
                 | with_reducible apply keep_Chip_pushPair K | with_reducible apply keep_Chip_setPair K | dsimp only | split
                 | with_reducible refine keep_lit K _ ?_ rfl rfl rfl rfl rfl rfl)

theorem keep_Chip_pairEdge {P : Chip → Prop} (K : Keep P) (ch : Nat) (rising : Bool) (stamp k : Nat) (m : Chip) (h0 : P m) :
    P (Chip.pairEdge ch rising stamp k m) := by
  unfold Chip.pairEdge
  try dsimp only
  repeat' (first | with_reducible assumption | with_reducible apply keep_Chip_pairStart K
                 | with_reducible apply keep_Chip_pairStop K | with_reducible apply keep_ite (P := P))

theorem keep_fieldInputEdge {P : Chip → Prop} (K : Keep P) (dt ch : Nat) (level : Bool) (m0 : Chip) (h0 : P m0) : P
    (fieldInputEdge dt ch level m0) := by
  unfold fieldInputEdge
  try dsimp only
  repeat' (first | with_reducible assumption | (intro _) | with_reducible apply keep_elapse K
                 | with_reducible apply keep_Chip_onFio K | with_reducible apply keep_Chip_refreshIn K
                 | with_reducible apply keep_Chip_pushEdge K | with_reducible apply keep_Chip_pairEdge K
                 | with_reducible apply keep_forAll (P := P) | with_reducible apply keep_ite (P := P) | split
                 | with_reducible refine keep_lit K _ ?_ rfl rfl rfl rfl rfl rfl)

theorem keep_pairLong {P : Chip → Prop} (K : Keep P) (dt k : Nat) (m0 : Chip) (h0 : P m0) : P (pairLong dt k m0) := by
  unfold pairLong
  try dsimp only
  repeat' (first | with_reducible assumption | with_reducible apply keep_elapse K | with_reducible apply keep_Chip_pushPair K
                 | with_reducible apply keep_Chip_setPair K | with_reducible apply keep_ite (P := P) | split
                 | with_reducible refine keep_lit K _ ?_ rfl rfl rfl rfl rfl rfl)

theorem keep_wireBreak {P : Chip → Prop} (K : Keep P) (dt ch : Nat) (m0 : Chip) (h0 : P m0) : P (wireBreak dt ch m0) := by
  unfold wireBreak
  try dsimp only
  repeat' (first | with_reducible assumption | (intro _) | with_reducible apply keep_Chip_bump K
                 | with_reducible apply keep_elapse K | with_reducible apply keep_Chip_onFio K
                 | with_reducible apply keep_Chip_refreshIn K | with_reducible apply keep_Chip_refreshGroups K
                 | with_reducible apply keep_ite (P := P) | split
                 | with_reducible refine keep_lit K _ ?_ rfl rfl rfl rfl rfl rfl)

theorem keep_wireBreakClear {P : Chip → Prop} (K : Keep P) (dt ch : Nat) (m0 : Chip) (h0 : P m0) : P (wireBreakClear dt ch
    m0) := by
  unfold wireBreakClear
  try dsimp only
  repeat' (first | with_reducible assumption | (intro _) | with_reducible apply keep_elapse K
                 | with_reducible apply keep_Chip_onFio K | with_reducible apply keep_Chip_refreshIn K
                 | with_reducible apply keep_Chip_refreshGroups K
                 | with_reducible refine keep_lit K _ ?_ rfl rfl rfl rfl rfl rfl)

theorem keep_Chip_setOutFault {P : Chip → Prop} (K : Keep P) (n : Nat) (v : Bool) (m : Chip) (h0 : P m) : P
    (Chip.setOutFault n v m) := by
  unfold Chip.setOutFault
  try dsimp only
  repeat' (first | with_reducible assumption | (intro _) | with_reducible apply keep_Chip_onFio K
                 | with_reducible apply keep_ite (P := P) | split
                 | with_reducible refine keep_lit K _ ?_ rfl rfl rfl rfl rfl rfl)

theorem keep_Chip_noteTry {P : Chip → Prop} (K : Keep P) (n : Nat) (m : Chip) (h0 : P m) : P (Chip.noteTry n m) := by
  unfold Chip.noteTry
  try dsimp only
  repeat' (first | with_reducible assumption | (intro _) | with_reducible apply keep_Chip_onFio K | dsimp only
                 | with_reducible refine keep_lit K _ ?_ rfl rfl rfl rfl rfl rfl)

theorem keep_outputFault {P : Chip → Prop} (K : Keep P) (dt n : Nat) (m0 : Chip) (h0 : P m0) : P (outputFault dt n m0) := by
  unfold outputFault
  try dsimp only
  repeat' (first | with_reducible assumption | with_reducible apply keep_Chip_bump K | with_reducible apply keep_elapse K
                 | with_reducible apply keep_Chip_refreshGroups K | with_reducible apply keep_Chip_setOutFault K
                 | with_reducible apply keep_Chip_noteTry K | with_reducible apply keep_ite (P := P))

theorem keep_outputRetry {P : Chip → Prop} (K : Keep P) (dt n : Nat) (runs : Bool) (m0 : Chip) (h0 : P m0) : P (outputRetry
    dt n runs m0) := by
  unfold outputRetry
  try dsimp only
  repeat' (first | with_reducible assumption | with_reducible apply keep_Chip_bump K | with_reducible apply keep_elapse K
                 | with_reducible apply keep_Chip_refreshGroups K | with_reducible apply keep_Chip_setOutFault K
                 | with_reducible apply keep_Chip_noteTry K | with_reducible apply keep_ite (P := P))

theorem keep_fieldGroupUndervoltage {P : Chip → Prop} (K : Keep P) (dt g : Nat) (m0 : Chip) (h0 : P m0) : P
    (fieldGroupUndervoltage dt g m0) := by
  unfold fieldGroupUndervoltage
  try dsimp only
  repeat' (first | with_reducible assumption | (intro _) | with_reducible apply keep_elapse K
                 | with_reducible apply keep_Chip_onFio K | with_reducible apply keep_Chip_refreshGroups K | split
                 | with_reducible refine keep_lit K _ ?_ rfl rfl rfl rfl rfl rfl)

theorem keep_fieldGroupSupplyReturn {P : Chip → Prop} (K : Keep P) (dt g : Nat) (m0 : Chip) (h0 : P m0) : P
    (fieldGroupSupplyReturn dt g m0) := by
  unfold fieldGroupSupplyReturn
  try dsimp only
  repeat' (first | with_reducible assumption | (intro _) | with_reducible apply keep_elapse K
                 | with_reducible apply keep_Chip_onFio K | with_reducible apply keep_Chip_refreshGroups K
                 | with_reducible refine keep_lit K _ ?_ rfl rfl rfl rfl rfl rfl)

theorem keep_fioOutWrite {P : Chip → Prop} (K : Keep P) (outs : Nat) (runReq : Bool) (m : Chip) (h0 : P m) : P (fioOutWrite
    outs runReq m) := by
  unfold fioOutWrite
  try dsimp only
  repeat' (first | with_reducible assumption | with_reducible apply keep_Chip_put K
                 | with_reducible apply keep_Chip_refreshOutputs K)

theorem keep_fioEvtPop {P : Chip → Prop} (K : Keep P) (m : Chip) (h0 : P m) : P (fioEvtPop m) := by
  unfold fioEvtPop
  try dsimp only
  repeat' (first | with_reducible assumption | (intro _) | with_reducible apply keep_Chip_wr K
                 | with_reducible apply keep_Chip_wr64 K | with_reducible apply keep_Chip_onFio K | split
                 | with_reducible refine keep_lit K _ ?_ rfl rfl rfl rfl rfl rfl)

theorem keep_fioPairPop {P : Chip → Prop} (K : Keep P) (m : Chip) (h0 : P m) : P (fioPairPop m) := by
  unfold fioPairPop
  try dsimp only
  repeat' (first | with_reducible assumption | (intro _) | with_reducible apply keep_Chip_wr K
                 | with_reducible apply keep_Chip_wr64 K | with_reducible apply keep_Chip_onFio K | split
                 | with_reducible refine keep_lit K _ ?_ rfl rfl rfl rfl rfl rfl)

end Sys2Proof.Laws
end

