-- ==== Sys2Proof/Laws/Keep/RegRead.lean ====
section
/-!
SUPPORT. Sys2Proof/Laws/Keep/RegRead.lean: the definitions of Machine/RegRead.lean keep what the primitive changes keep.
-/
namespace Sys2Proof.Laws
open Sys2Proof.Machine

theorem keep_Chip_latch {P : Chip → Prop} (K : Keep P) (a : Nat) (v : Option Nat) (m : Chip) (h0 : P m) : P (Chip.latch a v
    m) := by
  unfold Chip.latch
  try dsimp only
  repeat' (first | with_reducible assumption | with_reducible refine keep_lit K _ ?_ rfl rfl rfl rfl rfl rfl)

theorem keep_Chip_latchRead {P : Chip → Prop} (K : Keep P) (a : Nat) (m : Chip) (h0 : P m) : P (Chip.latchRead a m) := by
  unfold Chip.latchRead
  try dsimp only
  repeat' (first | with_reducible assumption | (intro _) | with_reducible apply keep_Chip_latch K
                 | with_reducible apply keep_forAll (P := P) | with_reducible apply keep_ite (P := P))

theorem keep_Chip_tsPop {P : Chip → Prop} (K : Keep P) (p : Nat) (m : Chip) (h0 : P m) : P (Chip.tsPop p m) := by
  unfold Chip.tsPop
  try dsimp only
  repeat' (first | with_reducible assumption | with_reducible apply keep_Chip_wr K | with_reducible apply keep_Chip_wr64 K
                 | with_reducible apply keep_Chip_setEthPort K | split
                 | with_reducible refine keep_lit K _ ?_ rfl rfl rfl rfl rfl rfl)

theorem keep_Chip_readPops {P : Chip → Prop} (K : Keep P) (a : Nat) (m : Chip) (h0 : P m) : P (Chip.readPops a m) := by
  unfold Chip.readPops
  try dsimp only
  repeat' (first | with_reducible assumption | with_reducible apply keep_fioEvtPop K | with_reducible apply keep_fioPairPop K
                 | with_reducible apply keep_Chip_tsPop K | with_reducible apply keep_ite (P := P) | split)

theorem keep_Chip_readReg {P : Chip → Prop} (K : Keep P) (a : Nat) (m0 : Chip) (h0 : P m0) : P (Chip.readReg a m0).2 := by
  unfold Chip.readReg
  try dsimp only
  repeat' (first | with_reducible assumption | with_reducible apply keep_probeSeqRead K
                 | with_reducible apply keep_Chip_latchRead K | with_reducible apply keep_Chip_readPops K
                 | with_reducible apply keep_ite (P := P) | split)

theorem keep_readLoLatch {P : Chip → Prop} (K : Keep P) (dt a : Nat) (m : Chip) (h0 : P m) : P (readLoLatch dt a m) := by
  unfold readLoLatch
  try dsimp only
  repeat' (first | with_reducible assumption | with_reducible apply keep_elapse K | with_reducible apply keep_Chip_readReg K
                 | dsimp only)

theorem keep_Chip_plainWrite {P : Chip → Prop} (K : Keep P) (a mask v : Nat) (m : Chip) (h0 : P m) : P (Chip.plainWrite a
    mask v m) := by
  unfold Chip.plainWrite
  try dsimp only
  repeat' (first | with_reducible assumption | with_reducible apply keep_Chip_wr K | with_reducible apply keep_Chip_put K
                 | with_reducible apply keep_Chip_latch K | with_reducible apply keep_ite (P := P) | split)

end Sys2Proof.Laws
end

