-- ==== Sys2Proof/Laws/Keep/Witness.lean ====
section
/-!
SUPPORT. Sys2Proof/Laws/Keep/Witness.lean: the definitions of Machine/Witness.lean keep what the primitive changes keep.
-/
namespace Sys2Proof.Laws
open Sys2Proof.Machine

theorem keep_Chip_loseSets {P : Chip → Prop} (K : Keep P) (m : Chip) (h0 : P m) : P (Chip.loseSets m) := by
  unfold Chip.loseSets
  try dsimp only
  repeat' (first | with_reducible assumption | (intro _) | with_reducible apply keep_Chip_onWit K
                 | with_reducible apply keep_Chip_releaseSet K | with_reducible apply keep_forAll (P := P) | dsimp only
                 | with_reducible refine keep_lit K _ ?_ rfl rfl rfl rfl rfl rfl)

theorem keep_markSetDeadline {P : Chip → Prop} (K : Keep P) (dt : Nat) (m0 : Chip) (h0 : P m0) : P (markSetDeadline dt m0)
    := by
  unfold markSetDeadline
  try dsimp only
  repeat' (first | with_reducible assumption | with_reducible apply keep_elapse K | with_reducible apply keep_Chip_loseSets K
                 | with_reducible apply keep_ite (P := P))

theorem keep_takeMarks {P : Chip → Prop} (K : Keep P) (f : MarksFrame) (m : Chip) (h0 : P m) : P (takeMarks f m) := by
  unfold takeMarks
  try dsimp only
  repeat' (first | with_reducible assumption | (intro _) | with_reducible apply keep_Chip_onWit K
                 | with_reducible apply keep_Chip_lockCompare K | with_reducible apply keep_ite (P := P) | split
                 | with_reducible refine keep_lit K _ ?_ rfl rfl rfl rfl rfl rfl)

theorem keep_marksFrameIn {P : Chip → Prop} (K : Keep P) (dt : Nat) (f : MarksFrame) (m : Chip) (h0 : P m) : P (marksFrameIn
    dt f m) := by
  unfold marksFrameIn
  try dsimp only
  repeat' (first | with_reducible assumption | with_reducible apply keep_elapse K | with_reducible apply keep_takeMarks K)

theorem keep_Chip_missFrames {P : Chip → Prop} (K : Keep P) (atEnd : Bool) (m : Chip) (h0 : P m) : P (Chip.missFrames atEnd
    m) := by
  unfold Chip.missFrames
  try dsimp only
  repeat' (first | with_reducible assumption | (intro _) | with_reducible apply keep_Chip_setFlag K
                 | with_reducible apply keep_Chip_bump K | with_reducible apply keep_Chip_onWit K
                 | with_reducible apply keep_forAll (P := P) | split
                 | with_reducible refine keep_lit K _ ?_ rfl rfl rfl rfl rfl rfl)

theorem keep_marksDeadline {P : Chip → Prop} (K : Keep P) (dt : Nat) (m0 : Chip) (h0 : P m0) : P (marksDeadline dt m0) := by
  unfold marksDeadline
  try dsimp only
  repeat' (first | with_reducible assumption | with_reducible apply keep_elapse K
                 | with_reducible apply keep_Chip_missFrames K | with_reducible apply keep_ite (P := P))

theorem keep_witQuery {P : Chip → Prop} (K : Keep P) (m : Chip) (h0 : P m) : P (witQuery m) := by
  unfold witQuery
  try dsimp only
  repeat' (first | with_reducible assumption | (intro _) | with_reducible apply keep_Chip_wr K
                 | with_reducible apply keep_Chip_put K | with_reducible apply keep_Chip_wr64 K | split)

theorem keep_lockRearm {P : Chip → Prop} (K : Keep P) (m : Chip) (h0 : P m) : P (lockRearm m) := by
  unfold lockRearm
  try dsimp only
  repeat' (first | with_reducible assumption | with_reducible apply keep_Chip_put K)

end Sys2Proof.Laws
end

