-- ==== Sys2Proof/Laws/Keep/RidgeWrite.lean ====
section
/-!
SUPPORT. Sys2Proof/Laws/Keep/RidgeWrite.lean: the definitions of Machine/RidgeWrite.lean keep what the primitive changes keep.
-/
namespace Sys2Proof.Laws
open Sys2Proof.Machine

theorem keep_Chip_fltWrite {P : Chip → Prop} (K : Keep P) (half a mask v : Nat) (m : Chip) (h0 : P m) : P (Chip.fltWrite
    half a mask v m) := by
  unfold Chip.fltWrite
  try dsimp only
  repeat' (first | with_reducible assumption | with_reducible apply keep_Chip_refreshOutputs K
                 | with_reducible apply keep_raisedRestore K | with_reducible apply keep_Chip_relatch K
                 | with_reducible apply keep_Chip_plainWrite K | with_reducible apply keep_ite (P := P) | split)

theorem keep_Chip_scrubStarts {P : Chip → Prop} (K : Keep P) (n : Nat) (was : Bool) (m : Chip) (h0 : P m) : P
    (Chip.scrubStarts n was m) := by
  unfold Chip.scrubStarts
  try dsimp only
  repeat' (first | with_reducible assumption | with_reducible apply keep_Chip_setEng K
                 | with_reducible apply keep_ite (P := P) | with_reducible refine keep_lit K _ ?_ rfl rfl rfl rfl rfl rfl)

theorem keep_Chip_ridgeWrite {P : Chip → Prop} (K : Keep P) (a mask v : Nat) (m : Chip) (h0 : P m) : P (Chip.ridgeWrite a
    mask v m) := by
  unfold Chip.ridgeWrite
  try dsimp only
  repeat' (first | with_reducible assumption | with_reducible apply keep_jobCtrlWrite K
                 | with_reducible apply keep_marginReset K | with_reducible apply keep_adaptStop K
                 | with_reducible apply keep_Chip_plainWrite K | with_reducible apply keep_witQuery K
                 | with_reducible apply keep_lockRearm K | with_reducible apply keep_Chip_fltWrite K
                 | with_reducible apply keep_Chip_scrubStarts K | with_reducible apply keep_ite (P := P) | split)

end Sys2Proof.Laws
end

