-- ==== Sys2Proof/Laws/Keep/Tenon.lean ====
section
/-!
SUPPORT. Sys2Proof/Laws/Keep/Tenon.lean: the definitions of Machine/Tenon.lean keep what the primitive changes keep.
-/
namespace Sys2Proof.Laws
open Sys2Proof.Machine

theorem keep_Chip_onTn {P : Chip → Prop} (K : Keep P) (f : TenonState → TenonState) (m : Chip) (h0 : P m) : P (Chip.onTn f
    m) := by
  unfold Chip.onTn
  try dsimp only
  repeat' (first | with_reducible assumption | with_reducible refine keep_lit K _ ?_ rfl rfl rfl rfl rfl rfl)

theorem keep_Chip_setTnDir {P : Chip → Prop} (K : Keep P) (d : Nat) (v : TnDir) (m : Chip) (h0 : P m) : P (Chip.setTnDir d v
    m) := by
  unfold Chip.setTnDir
  try dsimp only
  repeat' (first | with_reducible assumption | (intro _) | with_reducible apply keep_Chip_onTn K
                 | with_reducible apply keep_ite (P := P) | with_reducible refine keep_lit K _ ?_ rfl rfl rfl rfl rfl rfl)

theorem keep_Chip_modTnDir {P : Chip → Prop} (K : Keep P) (d : Nat) (f : TnDir → TnDir) (m : Chip) (h0 : P m) : P
    (Chip.modTnDir d f m) := by
  unfold Chip.modTnDir
  try dsimp only
  repeat' (first | with_reducible assumption | with_reducible apply keep_Chip_setTnDir K)

theorem keep_Chip_tnSend {P : Chip → Prop} (K : Keep P) (d vc : Nat) (x : TnXfer) (payload : List Byte) (groups : List
    VerdictGroup) (sets : List (Nat × Nat)) (m : Chip) (h0 : P m) : P (Chip.tnSend d vc x payload groups sets m) := by
  unfold Chip.tnSend
  try dsimp only
  repeat' (first | with_reducible assumption | (intro _) | with_reducible apply keep_Chip_modTnDir K
                 | with_reducible apply keep_ite (P := P) | with_reducible refine keep_lit K _ ?_ rfl rfl rfl rfl rfl rfl)

theorem keep_Chip_tnSlot {P : Chip → Prop} (K : Keep P) (d : Nat) (m : Chip) (h0 : P m) : P (Chip.tnSlot d m) := by
  unfold Chip.tnSlot
  try dsimp only
  repeat' (first | with_reducible assumption | with_reducible apply keep_Chip_setFlagIf K
                 | with_reducible apply keep_Chip_setTnDir K | with_reducible apply keep_ite (P := P) | split
                 | with_reducible refine keep_lit K _ ?_ rfl rfl rfl rfl rfl rfl)

theorem keep_Chip_tnSlots {P : Chip → Prop} (K : Keep P) (d : Nat) (y0 : Nat) (y1 : Chip) (h0 : P y1) : P (Chip.tnSlots d y0
    y1) := by
  induction y0 generalizing y1 with
  | zero => exact h0
  | succ n ih =>
    unfold Chip.tnSlots
    try dsimp only
    repeat' (first | with_reducible assumption | with_reducible apply ih | with_reducible apply keep_Chip_tnSlot K | split)

theorem keep_Chip_tnFill {P : Chip → Prop} (K : Keep P) (d : Nat) (m : Chip) (h0 : P m) : P (Chip.tnFill d m) := by
  unfold Chip.tnFill
  try dsimp only
  repeat' (first | with_reducible assumption | (intro _) | with_reducible apply keep_Chip_modTnDir K
                 | with_reducible apply keep_Chip_tnSlots K | with_reducible apply keep_ite (P := P)
                 | with_reducible refine keep_lit K _ ?_ rfl rfl rfl rfl rfl rfl)

theorem keep_tnElapse {P : Chip → Prop} (K : Keep P) (dt : Nat) (m : Chip) (h0 : P m) : P (tnElapse dt m) := by
  unfold tnElapse
  try dsimp only
  repeat' (first | with_reducible assumption | with_reducible apply keep_elapse K | with_reducible apply keep_Chip_tnFill K)

theorem keep_Chip_countRetrain {P : Chip → Prop} (K : Keep P) (m : Chip) (h0 : P m) : P (Chip.countRetrain m) := by
  unfold Chip.countRetrain
  try dsimp only
  repeat' (first | with_reducible assumption | with_reducible apply keep_Chip_setFlag K
                 | with_reducible apply keep_Chip_bump K | with_reducible apply keep_Chip_raise K)

theorem keep_Chip_tnRetrain {P : Chip → Prop} (K : Keep P) (m : Chip) (h0 : P m) : P (Chip.tnRetrain m) := by
  unfold Chip.tnRetrain
  try dsimp only
  repeat' (first | with_reducible assumption | (intro _) | with_reducible apply keep_Chip_put K
                 | with_reducible apply keep_Chip_onTn K | with_reducible apply keep_Chip_countRetrain K
                 | with_reducible apply keep_ite (P := P) | with_reducible refine keep_lit K _ ?_ rfl rfl rfl rfl rfl rfl)

theorem keep_Chip_tnReplay {P : Chip → Prop} (K : Keep P) (d : Nat) (m : Chip) (h0 : P m) : P (Chip.tnReplay d m) := by
  unfold Chip.tnReplay
  try dsimp only
  repeat' (first | with_reducible assumption | with_reducible apply keep_Chip_bump K
                 | with_reducible apply keep_Chip_setTnDir K | with_reducible apply keep_Chip_tnRetrain K
                 | with_reducible apply keep_ite (P := P) | split
                 | with_reducible refine keep_lit K _ ?_ rfl rfl rfl rfl rfl rfl)

theorem keep_Chip_issueReq {P : Chip → Prop} (K : Keep P) (q : TnReq) (tag : Nat) (m : Chip) (h0 : P m) : P (Chip.issueReq q
    tag m) := by
  unfold Chip.issueReq
  try dsimp only
  repeat' (first | with_reducible assumption | (intro _) | with_reducible apply keep_Chip_onTn K
                 | with_reducible apply keep_Chip_tnSend K | dsimp only | split
                 | with_reducible refine keep_lit K _ ?_ rfl rfl rfl rfl rfl rfl)

theorem keep_Chip_issueAll {P : Chip → Prop} (K : Keep P) (y0 : List TnReq) (y1 : Chip) (h0 : P y1) : P (Chip.issueAll y0
    y1) := by
  induction y0 generalizing y1 with
  | nil => unfold Chip.issueAll; exact keep_Chip_onTn K _ _ h0
  | cons a l ih =>
    unfold Chip.issueAll
    repeat' (first | with_reducible assumption | with_reducible apply ih | with_reducible apply keep_Chip_onTn K
                   | with_reducible apply keep_Chip_issueReq K | split)

theorem keep_Chip_finishWait {P : Chip → Prop} (K : Keep P) (w : SvcWait) (m : Chip) (h0 : P m) : P (Chip.finishWait w m) :=
    by
  unfold Chip.finishWait
  try dsimp only
  repeat' (first | with_reducible assumption | (intro _) | with_reducible apply keep_Chip_emit K
                 | with_reducible apply keep_Chip_onTn K | with_reducible apply keep_forAll (P := P)
                 | with_reducible apply keep_ite (P := P) | split
                 | with_reducible refine keep_lit K _ ?_ rfl rfl rfl rfl rfl rfl)

theorem keep_Chip_endReq {P : Chip → Prop} (K : Keep P) (q : TnReq) (v : Option Nat) (m : Chip) (h0 : P m) : P (Chip.endReq
    q v m) := by
  unfold Chip.endReq
  try dsimp only
  repeat' (first | with_reducible assumption | (intro _) | with_reducible apply keep_Chip_onTn K
                 | with_reducible apply keep_Chip_issueAll K | with_reducible apply keep_Chip_finishWait K
                 | with_reducible apply keep_ite (P := P) | split
                 | with_reducible refine keep_lit K _ ?_ rfl rfl rfl rfl rfl rfl)

theorem keep_Chip_tnStale {P : Chip → Prop} (K : Keep P) (d : Nat) (m : Chip) (h0 : P m) : P (Chip.tnStale d m) := by
  unfold Chip.tnStale
  try dsimp only
  repeat' (first | with_reducible assumption | with_reducible apply keep_Chip_setFlag K
                 | with_reducible apply keep_Chip_bump K | with_reducible apply keep_ite (P := P))

theorem keep_Chip_tnRecords {P : Chip → Prop} (K : Keep P) (f : TnFlit) (m : Chip) (h0 : P m) : P (Chip.tnRecords f m) := by
  unfold Chip.tnRecords
  try dsimp only
  repeat' (first | with_reducible assumption | (intro _) | with_reducible apply keep_Chip_onWit K
                 | with_reducible apply keep_Chip_setArrives K | with_reducible apply keep_forAll (P := P) | dsimp only
                 | with_reducible refine keep_lit K _ ?_ rfl rfl rfl rfl rfl rfl)

theorem keep_Chip_tnRequest {P : Chip → Prop} (K : Keep P) (f : TnFlit) (m : Chip) (h0 : P m) : P (Chip.tnRequest f m) := by
  unfold Chip.tnRequest
  try dsimp only
  repeat' (first | with_reducible assumption | (intro _) | with_reducible apply keep_Chip_take K
                 | with_reducible apply keep_Chip_readReg K | with_reducible apply keep_Chip_ridgeWrite K
                 | with_reducible apply keep_Chip_tnSend K | with_reducible apply keep_ite (P := P) | dsimp only
                 | with_reducible refine keep_lit K _ ?_ rfl rfl rfl rfl rfl rfl)

theorem keep_Chip_tnResponse {P : Chip → Prop} (K : Keep P) (f : TnFlit) (m : Chip) (h0 : P m) : P (Chip.tnResponse f m) :=
    by
  unfold Chip.tnResponse
  try dsimp only
  repeat' (first | with_reducible assumption | (intro _) | with_reducible apply keep_Chip_setFlag K
                 | with_reducible apply keep_Chip_bump K | with_reducible apply keep_Chip_endReq K | split)

theorem keep_Chip_tnCommit {P : Chip → Prop} (K : Keep P) (d : Nat) (f : TnFlit) (m : Chip) (h0 : P m) : P (Chip.tnCommit d
    f m) := by
  unfold Chip.tnCommit
  try dsimp only
  repeat' (first | with_reducible assumption | with_reducible apply keep_Chip_putBytes K
                 | with_reducible apply keep_Chip_signalOpt K | with_reducible apply keep_Chip_tnRecords K
                 | with_reducible apply keep_Chip_tnRequest K | with_reducible apply keep_Chip_tnResponse K
                 | with_reducible apply keep_ite (P := P) | split)

theorem keep_Chip_tnAccept {P : Chip → Prop} (K : Keep P) (d : Nat) (f : TnFlit) (m : Chip) (h0 : P m) : P (Chip.tnAccept d
    f m) := by
  unfold Chip.tnAccept
  try dsimp only
  repeat' (first | with_reducible assumption | (intro _) | with_reducible apply keep_Chip_setFlag K
                 | with_reducible apply keep_Chip_bump K | with_reducible apply keep_Chip_raise K
                 | with_reducible apply keep_Chip_setTnDir K | with_reducible apply keep_Chip_modTnDir K
                 | with_reducible apply keep_Chip_tnStale K | with_reducible apply keep_Chip_tnCommit K
                 | with_reducible apply keep_ite (P := P) | dsimp only
                 | with_reducible refine keep_lit K _ ?_ rfl rfl rfl rfl rfl rfl)

theorem keep_Chip_tnHeader {P : Chip → Prop} (K : Keep P) (d : Nat) (f : TnFlit) (m : Chip) (h0 : P m) : P (Chip.tnHeader d
    f m) := by
  unfold Chip.tnHeader
  try dsimp only
  repeat' (first | with_reducible assumption | (intro _) | with_reducible apply keep_Chip_modTnDir K
                 | with_reducible apply keep_ite (P := P) | with_reducible refine keep_lit K _ ?_ rfl rfl rfl rfl rfl rfl)

theorem keep_Chip_tnCrcFail {P : Chip → Prop} (K : Keep P) (d : Nat) (f : TnFlit) (m : Chip) (h0 : P m) : P (Chip.tnCrcFail
    d f m) := by
  unfold Chip.tnCrcFail
  try dsimp only
  repeat' (first | with_reducible assumption | (intro _) | with_reducible apply keep_Chip_setFlag K
                 | with_reducible apply keep_Chip_bump K | with_reducible apply keep_Chip_setTnDir K
                 | with_reducible apply keep_Chip_modTnDir K | with_reducible apply keep_Chip_tnRetrain K
                 | with_reducible apply keep_ite (P := P) | with_reducible refine keep_lit K _ ?_ rfl rfl rfl rfl rfl rfl)

theorem keep_Chip_tnReceive {P : Chip → Prop} (K : Keep P) (d : Nat) (f : TnFlit) (crcOk : Bool) (m : Chip) (h0 : P m) : P
    (Chip.tnReceive d f crcOk m) := by
  unfold Chip.tnReceive
  try dsimp only
  repeat' (first | with_reducible assumption | with_reducible apply keep_Chip_tnReplay K
                 | with_reducible apply keep_Chip_tnAccept K | with_reducible apply keep_Chip_tnHeader K
                 | with_reducible apply keep_Chip_tnCrcFail K | with_reducible apply keep_ite (P := P))

theorem keep_Chip_tnFront {P : Chip → Prop} (K : Keep P) (d : Nat) (p : TnFlit → Bool) (crcOk : Bool) (m : Chip) (h0 : P m)
    : P (Chip.tnFront d p crcOk m) := by
  unfold Chip.tnFront
  try dsimp only
  repeat' (first | with_reducible assumption | (intro _) | with_reducible apply keep_Chip_modTnDir K
                 | with_reducible apply keep_Chip_tnReceive K | with_reducible apply keep_ite (P := P) | split
                 | with_reducible refine keep_lit K _ ?_ rfl rfl rfl rfl rfl rfl)

theorem keep_flitReceived {P : Chip → Prop} (K : Keep P) (dt d : Nat) (crcOk : Bool) (m : Chip) (h0 : P m) : P (flitReceived
    dt d crcOk m) := by
  unfold flitReceived
  try dsimp only
  repeat' (first | with_reducible assumption | (intro _) | with_reducible apply keep_tnElapse K
                 | with_reducible apply keep_Chip_tnFront K)

theorem keep_tenonNak {P : Chip → Prop} (K : Keep P) (dt d : Nat) (m : Chip) (h0 : P m) : P (tenonNak dt d m) := by
  unfold tenonNak
  try dsimp only
  repeat' (first | with_reducible assumption | (intro _) | with_reducible apply keep_tnElapse K
                 | with_reducible apply keep_Chip_tnFront K)

theorem keep_tenonResponse {P : Chip → Prop} (K : Keep P) (dt d : Nat) (m : Chip) (h0 : P m) : P (tenonResponse dt d m) :=
    by
  unfold tenonResponse
  try dsimp only
  repeat' (first | with_reducible assumption | (intro _) | with_reducible apply keep_tnElapse K
                 | with_reducible apply keep_Chip_tnFront K)

theorem keep_tenonReplayTimeout {P : Chip → Prop} (K : Keep P) (dt d : Nat) (m0 : Chip) (h0 : P m0) : P (tenonReplayTimeout
    dt d m0) := by
  unfold tenonReplayTimeout
  try dsimp only
  repeat' (first | with_reducible assumption | with_reducible apply keep_tnElapse K
                 | with_reducible apply keep_Chip_tnReplay K | with_reducible apply keep_ite (P := P))

theorem keep_tenonRequestTimeout {P : Chip → Prop} (K : Keep P) (dt tag : Nat) (m0 : Chip) (h0 : P m0) : P
    (tenonRequestTimeout dt tag m0) := by
  unfold tenonRequestTimeout
  try dsimp only
  repeat' (first | with_reducible assumption | (intro _) | with_reducible apply keep_Chip_setFlag K
                 | with_reducible apply keep_Chip_bump K | with_reducible apply keep_Chip_onTn K
                 | with_reducible apply keep_tnElapse K | with_reducible apply keep_Chip_endReq K | split
                 | with_reducible refine keep_lit K _ ?_ rfl rfl rfl rfl rfl rfl)

theorem keep_tenonRetrain {P : Chip → Prop} (K : Keep P) (dt : Nat) (m : Chip) (h0 : P m) : P (tenonRetrain dt m) := by
  unfold tenonRetrain
  try dsimp only
  repeat' (first | with_reducible assumption | with_reducible apply keep_tnElapse K
                 | with_reducible apply keep_Chip_tnRetrain K)

theorem keep_Chip_tnFailed {P : Chip → Prop} (K : Keep P) (m : Chip) (h0 : P m) : P (Chip.tnFailed m) := by
  unfold Chip.tnFailed
  try dsimp only
  repeat' (first | with_reducible assumption | (intro _) | with_reducible apply keep_Chip_put K
                 | with_reducible apply keep_Chip_assert K | with_reducible apply keep_Chip_onTn K
                 | with_reducible refine keep_lit K _ ?_ rfl rfl rfl rfl rfl rfl)

theorem keep_Chip_tnResume {P : Chip → Prop} (K : Keep P) (d : Nat) (m : Chip) (h0 : P m) : P (Chip.tnResume d m) := by
  unfold Chip.tnResume
  try dsimp only
  repeat' (first | with_reducible assumption | (intro _) | with_reducible apply keep_Chip_modTnDir K
                 | with_reducible refine keep_lit K _ ?_ rfl rfl rfl rfl rfl rfl)

theorem keep_Chip_tnTrain {P : Chip → Prop} (K : Keep P) (ok : Bool) (badS badR : Nat) (m : Chip) (h0 : P m) : P
    (Chip.tnTrain ok badS badR m) := by
  unfold Chip.tnTrain
  try dsimp only
  repeat' (first | with_reducible assumption | (intro _) | with_reducible apply keep_Chip_put K
                 | with_reducible apply keep_Chip_deassert K | with_reducible apply keep_Chip_onTn K
                 | with_reducible apply keep_Chip_setTnDir K | with_reducible apply keep_Chip_countRetrain K
                 | with_reducible apply keep_Chip_tnFailed K | with_reducible apply keep_Chip_tnResume K
                 | with_reducible apply keep_ite (P := P) | dsimp only | split
                 | with_reducible refine keep_lit K _ ?_ rfl rfl rfl rfl rfl rfl)

theorem keep_tenonTrain {P : Chip → Prop} (K : Keep P) (dt : Nat) (ok : Bool) (badS badR : Nat) (m0 : Chip) (h0 : P m0) : P
    (tenonTrain dt ok badS badR m0) := by
  unfold tenonTrain
  try dsimp only
  repeat' (first | with_reducible assumption | with_reducible apply keep_tnElapse K | with_reducible apply keep_Chip_tnTrain K
                 | with_reducible apply keep_ite (P := P))

theorem keep_tenonTrainRetry {P : Chip → Prop} (K : Keep P) (dt : Nat) (ok : Bool) (badS badR : Nat) (m0 : Chip) (h0 : P m0)
    : P (tenonTrainRetry dt ok badS badR m0) := by
  unfold tenonTrainRetry
  try dsimp only
  repeat' (first | with_reducible assumption | with_reducible apply keep_tnElapse K | with_reducible apply keep_Chip_tnTrain K
                 | with_reducible apply keep_ite (P := P))

theorem keep_Chip_tnRows {P : Chip → Prop} (K : Keep P) (d : Nat) (c : CutEntry) (er : ReadErrs) (q : DmaDesc) (m : Chip)
    (h0 : P m) : P (Chip.tnRows d c er q m) := by
  unfold Chip.tnRows
  try dsimp only
  repeat' (first | with_reducible assumption | (intro _) | with_reducible apply keep_Chip_tnSend K
                 | with_reducible apply keep_forAll (P := P) | with_reducible apply keep_ite (P := P)
                 | with_reducible refine keep_lit K _ ?_ rfl rfl rfl rfl rfl rfl)

theorem keep_Chip_tnVerdicts {P : Chip → Prop} (K : Keep P) (c : CutEntry) (q : DmaDesc) (m : Chip) (h0 : P m) : P
    (Chip.tnVerdicts c q m) := by
  unfold Chip.tnVerdicts
  try dsimp only
  repeat' (first | with_reducible assumption | (intro _) | with_reducible apply keep_Chip_tnSend K
                 | with_reducible refine keep_lit K _ ?_ rfl rfl rfl rfl rfl rfl)

theorem keep_Chip_tnCrop {P : Chip → Prop} (K : Keep P) (c : CutEntry) (er : ReadErrs) (q : DmaDesc) (r strip : Nat) (m0 :
    Chip) (h0 : P m0) : P (Chip.tnCrop c er q r strip m0) := by
  unfold Chip.tnCrop
  try dsimp only
  repeat' (first | with_reducible assumption | (intro _) | with_reducible apply keep_Chip_cropStarts K
                 | with_reducible apply keep_Chip_tnSend K | with_reducible apply keep_forAll (P := P)
                 | with_reducible apply keep_ite (P := P) | dsimp only | split
                 | with_reducible refine keep_lit K _ ?_ rfl rfl rfl rfl rfl rfl)

theorem keep_tenonWork {P : Chip → Prop} (K : Keep P) (d : Nat) (c : CutEntry) (er : ReadErrs) (crop : Option (Nat × Nat))
    (m : Chip) (h0 : P m) : P (tenonWork d c er crop m).2 := by
  unfold tenonWork
  try dsimp only
  repeat' (first | with_reducible assumption | (intro _) | with_reducible apply keep_Chip_meetErrs K
                 | with_reducible apply keep_Chip_tnRows K | with_reducible apply keep_Chip_tnVerdicts K
                 | with_reducible apply keep_Chip_tnCrop K | with_reducible apply keep_ite (P := P) | dsimp only | split
                 | with_reducible refine keep_lit K _ ?_ rfl rfl rfl rfl rfl rfl)

theorem keep_tenonDma {P : Chip → Prop} (K : Keep P) (dt d : Nat) (c : CutEntry) (er : ReadErrs) (crop : Option (Nat × Nat))
    (m0 : Chip) (h0 : P m0) : P (tenonDma dt d c er crop m0) := by
  unfold tenonDma
  try dsimp only
  repeat' (first | with_reducible assumption | (intro _) | with_reducible apply keep_startCmd K
                 | with_reducible apply keep_tnElapse K | with_reducible apply keep_tenonWork K
                 | with_reducible apply keep_ite (P := P))

theorem keep_Chip_tnBoundary {P : Chip → Prop} (K : Keep P) (b : Nat) (m : Chip) (h0 : P m) : P (Chip.tnBoundary b m) := by
  unfold Chip.tnBoundary
  try dsimp only
  repeat' (first | with_reducible assumption | (intro _) | with_reducible apply keep_Chip_modTnDir K
                 | with_reducible apply keep_forAll (P := P) | with_reducible apply keep_ite (P := P)
                 | with_reducible refine keep_lit K _ ?_ rfl rfl rfl rfl rfl rfl)

end Sys2Proof.Laws
end

