-- ==== Sys2Proof/Laws/Keep/Purlin.lean ====
section
/-!
SUPPORT. Sys2Proof/Laws/Keep/Purlin.lean: the definitions of Machine/Purlin.lean keep what the primitive changes keep.
-/
namespace Sys2Proof.Laws
open Sys2Proof.Machine

theorem keep_Chip_setPurState {P : Chip → Prop} (K : Keep P) (p st : Nat) (m : Chip) (h0 : P m) : P (Chip.setPurState p st
    m) := by
  unfold Chip.setPurState
  try dsimp only
  repeat' (first | with_reducible assumption | with_reducible apply keep_Chip_put K)

theorem keep_Chip_purLeave {P : Chip → Prop} (K : Keep P) (p st : Nat) (m : Chip) (h0 : P m) : P (Chip.purLeave p st m) :=
    by
  unfold Chip.purLeave
  try dsimp only
  repeat' (first | with_reducible assumption | (intro _) | with_reducible apply keep_Chip_wr K
                 | with_reducible apply keep_Chip_bumpBy K | with_reducible apply keep_Chip_bump K
                 | with_reducible apply keep_Chip_modPurPort K | with_reducible apply keep_Chip_giveBackOpt K
                 | with_reducible apply keep_Chip_raise K | with_reducible apply keep_Chip_setPurState K
                 | with_reducible apply keep_forAll (P := P) | with_reducible refine keep_lit K _ ?_ rfl rfl rfl rfl rfl rfl)

theorem keep_Chip_purDown {P : Chip → Prop} (K : Keep P) (p : Nat) (m : Chip) (h0 : P m) : P (Chip.purDown p m) := by
  unfold Chip.purDown
  try dsimp only
  repeat' (first | with_reducible assumption | with_reducible apply keep_Chip_setPurState K
                 | with_reducible apply keep_Chip_purLeave K | split)

theorem keep_purlinPortDown {P : Chip → Prop} (K : Keep P) (dt p cause : Nat) (m0 : Chip) (h0 : P m0) : P (purlinPortDown dt
    p cause m0) := by
  unfold purlinPortDown
  try dsimp only
  repeat' (first | with_reducible assumption | with_reducible apply keep_Chip_setFlag K | with_reducible apply keep_elapse K
                 | with_reducible apply keep_Chip_purDown K | with_reducible apply keep_ite (P := P) | split)

theorem keep_uncorrectableCodeword {P : Chip → Prop} (K : Keep P) (dt p : Nat) (next : Bool) (m0 : Chip) (h0 : P m0) : P
    (uncorrectableCodeword dt p next m0) := by
  unfold uncorrectableCodeword
  try dsimp only
  repeat' (first | with_reducible assumption | (intro _) | with_reducible apply keep_Chip_setFlag K
                 | with_reducible apply keep_Chip_bump K | with_reducible apply keep_elapse K
                 | with_reducible apply keep_Chip_setPurPort K | with_reducible apply keep_Chip_purDown K
                 | with_reducible apply keep_ite (P := P) | with_reducible refine keep_lit K _ ?_ rfl rfl rfl rfl rfl rfl)

theorem keep_Chip_tagFail {P : Chip → Prop} (K : Keep P) (p : Nat) (m : Chip) (h0 : P m) : P (Chip.tagFail p m) := by
  unfold Chip.tagFail
  try dsimp only
  repeat' (first | with_reducible assumption | (intro _) | with_reducible apply keep_Chip_setFlag K
                 | with_reducible apply keep_Chip_bump K | with_reducible apply keep_Chip_setPurPort K
                 | with_reducible apply keep_Chip_modPurPort K | with_reducible apply keep_Chip_purDown K
                 | with_reducible apply keep_ite (P := P) | with_reducible refine keep_lit K _ ?_ rfl rfl rfl rfl rfl rfl)

theorem keep_Chip_helloOut {P : Chip → Prop} (K : Keep P) (p : Nat) (m : Chip) (h0 : P m) : P (Chip.helloOut p m) := by
  unfold Chip.helloOut
  try dsimp only
  repeat' (first | with_reducible assumption | (intro _) | with_reducible apply keep_Chip_modPurPort K
                 | with_reducible apply keep_Chip_purTx K | with_reducible refine keep_lit K _ ?_ rfl rfl rfl rfl rfl rfl)

theorem keep_Chip_purUp {P : Chip → Prop} (K : Keep P) (p : Nat) (m : Chip) (h0 : P m) : P (Chip.purUp p m) := by
  unfold Chip.purUp
  try dsimp only
  repeat' (first | with_reducible assumption | (intro _) | with_reducible apply keep_Chip_modPurPort K
                 | with_reducible apply keep_Chip_setPurState K | with_reducible apply keep_Chip_helloOut K
                 | with_reducible refine keep_lit K _ ?_ rfl rfl rfl rfl rfl rfl)

theorem keep_Chip_purAuth {P : Chip → Prop} (K : Keep P) (p : Nat) (t : PurTrain) (m : Chip) (h0 : P m) : P (Chip.purAuth p
    t m) := by
  unfold Chip.purAuth
  try dsimp only
  repeat' (first | with_reducible assumption | with_reducible apply keep_Chip_setFlag K
                 | with_reducible apply keep_Chip_setPurPort K | with_reducible apply keep_Chip_raise K
                 | with_reducible apply keep_Chip_setPurState K | with_reducible apply keep_Chip_purUp K
                 | with_reducible apply keep_ite (P := P) | split
                 | with_reducible refine keep_lit K _ ?_ rfl rfl rfl rfl rfl rfl)

theorem keep_purlinTrain {P : Chip → Prop} (K : Keep P) (dt p : Nat) (t : PurTrain) (m0 : Chip) (h0 : P m0) : P (purlinTrain
    dt p t m0) := by
  unfold purlinTrain
  try dsimp only
  repeat' (first | with_reducible assumption | (intro _) | with_reducible apply keep_Chip_put K
                 | with_reducible apply keep_elapse K | with_reducible apply keep_Chip_modPurPort K
                 | with_reducible apply keep_Chip_setPurState K | with_reducible apply keep_Chip_purAuth K
                 | with_reducible apply keep_ite (P := P) | split
                 | with_reducible refine keep_lit K _ ?_ rfl rfl rfl rfl rfl rfl)

theorem keep_purlinTrainRetry {P : Chip → Prop} (K : Keep P) (dt p : Nat) (m0 : Chip) (h0 : P m0) : P (purlinTrainRetry dt p
    m0) := by
  unfold purlinTrainRetry
  try dsimp only
  repeat' (first | with_reducible assumption | with_reducible apply keep_elapse K
                 | with_reducible apply keep_Chip_setPurState K | with_reducible apply keep_ite (P := P))

theorem keep_purlinAuthRetry {P : Chip → Prop} (K : Keep P) (dt p : Nat) (t : PurTrain) (m0 : Chip) (h0 : P m0) : P
    (purlinAuthRetry dt p t m0) := by
  unfold purlinAuthRetry
  try dsimp only
  repeat' (first | with_reducible assumption | with_reducible apply keep_elapse K | with_reducible apply keep_Chip_purAuth K
                 | with_reducible apply keep_ite (P := P))

theorem keep_purlinRetrain {P : Chip → Prop} (K : Keep P) (dt p : Nat) (m0 : Chip) (h0 : P m0) : P (purlinRetrain dt p m0)
    := by
  unfold purlinRetrain
  try dsimp only
  repeat' (first | with_reducible assumption | with_reducible apply keep_elapse K | with_reducible apply keep_Chip_purDown K
                 | with_reducible apply keep_ite (P := P))

theorem keep_purlinHold {P : Chip → Prop} (K : Keep P) (dt p : Nat) (hold : Bool) (m0 : Chip) (h0 : P m0) : P (purlinHold dt
    p hold m0) := by
  unfold purlinHold
  try dsimp only
  repeat' (first | with_reducible assumption | (intro _) | with_reducible apply keep_Chip_put K
                 | with_reducible apply keep_elapse K | with_reducible apply keep_Chip_modPurPort K
                 | with_reducible apply keep_Chip_setPurState K | with_reducible apply keep_Chip_purLeave K
                 | with_reducible apply keep_ite (P := P) | with_reducible refine keep_lit K _ ?_ rfl rfl rfl rfl rfl rfl)

theorem keep_purlinRekey {P : Chip → Prop} (K : Keep P) (dt p : Nat) (m0 : Chip) (h0 : P m0) : P (purlinRekey dt p m0) := by
  unfold purlinRekey
  try dsimp only
  repeat' (first | with_reducible assumption | with_reducible apply keep_Chip_draw K | with_reducible apply keep_elapse K
                 | with_reducible apply keep_Chip_setPurPort K | with_reducible apply keep_Chip_linkSend K
                 | with_reducible apply keep_ite (P := P) | dsimp only | split
                 | with_reducible refine keep_lit K _ ?_ rfl rfl rfl rfl rfl rfl)

theorem keep_Chip_takeHello {P : Chip → Prop} (K : Keep P) (p : Nat) (h : HelloRec) (m : Chip) (h0 : P m) : P
    (Chip.takeHello p h m) := by
  unfold Chip.takeHello
  try dsimp only
  repeat' (first | with_reducible assumption | (intro _) | with_reducible apply keep_Chip_setFlag K
                 | with_reducible apply keep_Chip_setPurPort K | with_reducible apply keep_Chip_modPurPort K
                 | with_reducible apply keep_Chip_purFlush K | with_reducible apply keep_Chip_raise K
                 | with_reducible apply keep_Chip_purLeave K | with_reducible apply keep_ite (P := P)
                 | with_reducible refine keep_lit K _ ?_ rfl rfl rfl rfl rfl rfl)

theorem keep_helloIn {P : Chip → Prop} (K : Keep P) (dt p : Nat) (h : HelloRec) (m0 : Chip) (h0 : P m0) : P (helloIn dt p h
    m0) := by
  unfold helloIn
  try dsimp only
  repeat' (first | with_reducible assumption | with_reducible apply keep_elapse K | with_reducible apply keep_Chip_takeHello K
                 | with_reducible apply keep_ite (P := P))

theorem keep_helloSend {P : Chip → Prop} (K : Keep P) (dt p : Nat) (m0 : Chip) (h0 : P m0) : P (helloSend dt p m0) := by
  unfold helloSend
  try dsimp only
  repeat' (first | with_reducible assumption | with_reducible apply keep_elapse K | with_reducible apply keep_Chip_helloOut K
                 | with_reducible apply keep_ite (P := P))

theorem keep_Chip_purSleep {P : Chip → Prop} (K : Keep P) (p : Nat) (m : Chip) (h0 : P m) : P (Chip.purSleep p m) := by
  unfold Chip.purSleep
  try dsimp only
  repeat' (first | with_reducible assumption | (intro _) | with_reducible apply keep_Chip_wr K
                 | with_reducible apply keep_Chip_modPurPort K | with_reducible apply keep_Chip_setPurState K
                 | with_reducible refine keep_lit K _ ?_ rfl rfl rfl rfl rfl rfl)

theorem keep_Chip_takeLink {P : Chip → Prop} (K : Keep P) (p : Nat) (l : LinkRec) (m : Chip) (h0 : P m) : P (Chip.takeLink p
    l m) := by
  unfold Chip.takeLink
  try dsimp only
  repeat' (first | with_reducible assumption | (intro _) | with_reducible apply keep_Chip_modPurPort K
                 | with_reducible apply keep_Chip_linkSend K | with_reducible apply keep_Chip_purFlush K
                 | with_reducible apply keep_Chip_purSleep K | with_reducible apply keep_ite (P := P) | split
                 | with_reducible refine keep_lit K _ ?_ rfl rfl rfl rfl rfl rfl)

theorem keep_linkFrameIn {P : Chip → Prop} (K : Keep P) (dt p : Nat) (l : LinkRec) (m0 : Chip) (h0 : P m0) : P (linkFrameIn
    dt p l m0) := by
  unfold linkFrameIn
  try dsimp only
  repeat' (first | with_reducible assumption | with_reducible apply keep_elapse K | with_reducible apply keep_Chip_takeLink K
                 | with_reducible apply keep_ite (P := P))

theorem keep_Chip_followHeader {P : Chip → Prop} (K : Keep P) (row : Nat) (l : List Byte) (m : Chip) (h0 : P m) : P
    (Chip.followHeader row l m) := by
  unfold Chip.followHeader
  try dsimp only
  repeat' (first | with_reducible assumption | (intro _) | with_reducible apply keep_Chip_setRowPipe K
                 | with_reducible apply keep_Chip_take K | with_reducible apply keep_ite (P := P) | split
                 | with_reducible refine keep_lit K _ ?_ rfl rfl rfl rfl rfl rfl)

theorem keep_Chip_followRecord {P : Chip → Prop} (K : Keep P) (c : CameraRec) (kind a : Nat) (m : Chip) (h0 : P m) : P
    (Chip.followRecord c kind a m) := by
  unfold Chip.followRecord
  try dsimp only
  repeat' (first | with_reducible assumption | (intro _) | with_reducible apply keep_Chip_setRowPipe K
                 | with_reducible apply keep_Chip_replayLineTo K | with_reducible apply keep_Chip_restoreSnap K
                 | with_reducible apply keep_ite (P := P) | split
                 | with_reducible refine keep_lit K _ ?_ rfl rfl rfl rfl rfl rfl)

theorem keep_Chip_followData {P : Chip → Prop} (K : Keep P) (dst : Nat) (part : List Byte) (m : Chip) (h0 : P m) : P
    (Chip.followData dst part m) := by
  unfold Chip.followData
  try dsimp only
  repeat' (first | with_reducible assumption | (intro _) | with_reducible apply keep_Chip_feed K
                 | with_reducible apply keep_Chip_followHeader K | with_reducible apply keep_Chip_followRecord K
                 | with_reducible apply keep_forAll (P := P) | with_reducible apply keep_ite (P := P) | dsimp only | split)

theorem keep_Chip_purData {P : Chip → Prop} (K : Keep P) (p : Nat) (fr : PurFrame) (x : TnXfer) (part : List Byte) (m :
    Chip) (h0 : P m) : P (Chip.purData p fr x part m) := by
  unfold Chip.purData
  try dsimp only
  repeat' (first | with_reducible assumption | (intro _) | with_reducible apply keep_Chip_setFlag K
                 | with_reducible apply keep_Chip_bump K | with_reducible apply keep_Chip_putBytes K
                 | with_reducible apply keep_Chip_signalOpt K | with_reducible apply keep_Chip_tnSend K
                 | with_reducible apply keep_Chip_followData K | with_reducible apply keep_ite (P := P) | split
                 | with_reducible refine keep_lit K _ ?_ rfl rfl rfl rfl rfl rfl)

theorem keep_Chip_setExpected {P : Chip → Prop} (K : Keep P) (src cls v : Nat) (m : Chip) (h0 : P m) : P (Chip.setExpected
    src cls v m) := by
  unfold Chip.setExpected
  try dsimp only
  repeat' (first | with_reducible assumption | (intro _) | with_reducible apply keep_Chip_onPur K | dsimp only
                 | with_reducible refine keep_lit K _ ?_ rfl rfl rfl rfl rfl rfl)

theorem keep_Chip_purAnswer {P : Chip → Prop} (K : Keep P) (fr : PurFrame) (body : PurBody) (m : Chip) (h0 : P m) : P
    (Chip.purAnswer fr body m) := by
  unfold Chip.purAnswer
  try dsimp only
  repeat' (first | with_reducible assumption | with_reducible apply keep_Chip_purRoute K
                 | with_reducible refine keep_lit K _ ?_ rfl rfl rfl rfl rfl rfl)

theorem keep_Chip_purDeliver {P : Chip → Prop} (K : Keep P) (p : Nat) (fr : PurFrame) (m : Chip) (h0 : P m) : P
    (Chip.purDeliver p fr m) := by
  unfold Chip.purDeliver
  try dsimp only
  repeat' (first | with_reducible assumption | with_reducible apply keep_Chip_bump K | with_reducible apply keep_Chip_bumpIf K
                 | with_reducible apply keep_Chip_flowAck K | with_reducible apply keep_Chip_flowNak K
                 | with_reducible apply keep_takeMarks K | with_reducible apply keep_Chip_purData K
                 | with_reducible apply keep_Chip_setExpected K | with_reducible apply keep_Chip_purAnswer K
                 | with_reducible apply keep_ite (P := P) | split)

theorem keep_Chip_purRouted {P : Chip → Prop} (K : Keep P) (p : Nat) (fr : PurFrame) (m : Chip) (h0 : P m) : P
    (Chip.purRouted p fr m) := by
  unfold Chip.purRouted
  try dsimp only
  repeat' (first | with_reducible assumption | with_reducible apply keep_Chip_setFlag K
                 | with_reducible apply keep_Chip_bump K | with_reducible apply keep_Chip_giveBack K
                 | with_reducible apply keep_Chip_purRoute K | with_reducible apply keep_Chip_purDeliver K
                 | with_reducible apply keep_ite (P := P) | split
                 | with_reducible refine keep_lit K _ ?_ rfl rfl rfl rfl rfl rfl)

theorem keep_Chip_purAdmit {P : Chip → Prop} (K : Keep P) (p : Nat) (fr : PurFrame) (m : Chip) (h0 : P m) : P (Chip.purAdmit
    p fr m).2 := by
  unfold Chip.purAdmit
  try dsimp only
  repeat' (first | with_reducible assumption | (intro _) | with_reducible apply keep_Chip_setFlag K
                 | with_reducible apply keep_Chip_bump K | with_reducible apply keep_Chip_setPurPort K
                 | with_reducible apply keep_Chip_modPurPort K | with_reducible apply keep_Chip_giveBack K
                 | with_reducible apply keep_Chip_tagFail K | with_reducible apply keep_ite (P := P) | dsimp only | split
                 | with_reducible refine keep_lit K _ ?_ rfl rfl rfl rfl rfl rfl)

theorem keep_purlinFrame {P : Chip → Prop} (K : Keep P) (dt p corrected : Nat) (fr : PurFrame) (m0 : Chip) (h0 : P m0) : P
    (purlinFrame dt p corrected fr m0) := by
  unfold purlinFrame
  try dsimp only
  repeat' (first | with_reducible assumption | with_reducible apply keep_Chip_bumpBy K | with_reducible apply keep_elapse K
                 | with_reducible apply keep_Chip_giveBack K | with_reducible apply keep_mirrorAck K
                 | with_reducible apply keep_mirrorRecord K | with_reducible apply keep_Chip_takeHello K
                 | with_reducible apply keep_Chip_takeLink K | with_reducible apply keep_Chip_purRouted K
                 | with_reducible apply keep_Chip_purAdmit K | with_reducible apply keep_ite (P := P) | dsimp only | split)

theorem keep_purlinAck {P : Chip → Prop} (K : Keep P) (dt dev cls seq : Nat) (m : Chip) (h0 : P m) : P (purlinAck dt dev cls
    seq m) := by
  unfold purlinAck
  try dsimp only
  repeat' (first | with_reducible assumption | with_reducible apply keep_elapse K | with_reducible apply keep_Chip_flowAck K)

theorem keep_purlinNak {P : Chip → Prop} (K : Keep P) (dt dev cls seq : Nat) (m0 : Chip) (h0 : P m0) : P (purlinNak dt dev
    cls seq m0) := by
  unfold purlinNak
  try dsimp only
  repeat' (first | with_reducible assumption | with_reducible apply keep_elapse K | with_reducible apply keep_Chip_flowNak K
                 | with_reducible apply keep_ite (P := P))

theorem keep_purlinRto {P : Chip → Prop} (K : Keep P) (dt dev cls : Nat) (m0 : Chip) (h0 : P m0) : P (purlinRto dt dev cls
    m0) := by
  unfold purlinRto
  try dsimp only
  repeat' (first | with_reducible assumption | with_reducible apply keep_elapse K
                 | with_reducible apply keep_Chip_flowResend K | with_reducible apply keep_ite (P := P))

theorem keep_purlinWork {P : Chip → Prop} (K : Keep P) (p dev : Nat) (c : CutEntry) (er : ReadErrs) (m0 : Chip) (h0 : P m0)
    : P (purlinWork p dev c er m0).2 := by
  unfold purlinWork
  try dsimp only
  repeat' (first | with_reducible assumption | (intro _) | with_reducible apply keep_Chip_dataSend K
                 | with_reducible apply keep_Chip_meetErrs K | with_reducible apply keep_forAll (P := P)
                 | with_reducible apply keep_ite (P := P) | with_reducible refine keep_lit K _ ?_ rfl rfl rfl rfl rfl rfl)

theorem keep_purlinDma {P : Chip → Prop} (K : Keep P) (dt p dev : Nat) (c : CutEntry) (er : ReadErrs) (m0 : Chip) (h0 : P
    m0) : P (purlinDma dt p dev c er m0) := by
  unfold purlinDma
  try dsimp only
  repeat' (first | with_reducible assumption | (intro _) | with_reducible apply keep_elapse K
                 | with_reducible apply keep_startCmd K | with_reducible apply keep_purlinWork K
                 | with_reducible apply keep_ite (P := P))

theorem keep_lpiEntry {P : Chip → Prop} (K : Keep P) (dt p : Nat) (m0 : Chip) (h0 : P m0) : P (lpiEntry dt p m0) := by
  unfold lpiEntry
  try dsimp only
  repeat' (first | with_reducible assumption | with_reducible apply keep_elapse K | with_reducible apply keep_Chip_linkSend K
                 | with_reducible apply keep_Chip_purSleep K | with_reducible apply keep_ite (P := P)
                 | with_reducible refine keep_lit K _ ?_ rfl rfl rfl rfl rfl rfl)

theorem keep_Chip_guardMiss {P : Chip → Prop} (K : Keep P) (p : Nat) (m : Chip) (h0 : P m) : P (Chip.guardMiss p m) := by
  unfold Chip.guardMiss
  try dsimp only
  repeat' (first | with_reducible assumption | (intro _) | with_reducible apply keep_Chip_put K
                 | with_reducible apply keep_Chip_setFlag K | with_reducible apply keep_Chip_bump K
                 | with_reducible apply keep_Chip_modPurPort K | with_reducible apply keep_Chip_setPurState K
                 | with_reducible apply keep_ite (P := P) | with_reducible refine keep_lit K _ ?_ rfl rfl rfl rfl rfl rfl)

theorem keep_wakeWindow {P : Chip → Prop} (K : Keep P) (dt p : Nat) (skew : Int) (relock busy : Bool) (m0 : Chip) (h0 : P
    m0) : P (wakeWindow dt p skew relock busy m0) := by
  unfold wakeWindow
  try dsimp only
  repeat' (first | with_reducible assumption | (intro _) | with_reducible apply keep_Chip_put K
                 | with_reducible apply keep_elapse K | with_reducible apply keep_Chip_modPurPort K
                 | with_reducible apply keep_Chip_linkSend K | with_reducible apply keep_Chip_purFlush K
                 | with_reducible apply keep_Chip_setPurState K | with_reducible apply keep_Chip_guardMiss K
                 | with_reducible apply keep_ite (P := P) | split
                 | with_reducible refine keep_lit K _ ?_ rfl rfl rfl rfl rfl rfl)

theorem keep_guardMissed {P : Chip → Prop} (K : Keep P) (dt p : Nat) (m0 : Chip) (h0 : P m0) : P (guardMissed dt p m0) := by
  unfold guardMissed
  try dsimp only
  repeat' (first | with_reducible assumption | with_reducible apply keep_elapse K | with_reducible apply keep_Chip_guardMiss K
                 | with_reducible apply keep_ite (P := P))

theorem keep_lpiReenable {P : Chip → Prop} (K : Keep P) (dt p : Nat) (m0 : Chip) (h0 : P m0) : P (lpiReenable dt p m0) := by
  unfold lpiReenable
  try dsimp only
  repeat' (first | with_reducible assumption | (intro _) | with_reducible apply keep_Chip_put K
                 | with_reducible apply keep_elapse K | with_reducible apply keep_Chip_modPurPort K
                 | with_reducible refine keep_lit K _ ?_ rfl rfl rfl rfl rfl rfl)

theorem keep_routeSwap {P : Chip → Prop} (K : Keep P) (dt : Nat) (m0 : Chip) (h0 : P m0) : P (routeSwap dt m0) := by
  unfold routeSwap
  try dsimp only
  repeat' (first | with_reducible assumption | (intro _) | with_reducible apply keep_Chip_put K
                 | with_reducible apply keep_Chip_setFlag K | with_reducible apply keep_elapse K
                 | with_reducible apply keep_Chip_onPur K | with_reducible apply keep_ite (P := P)
                 | with_reducible refine keep_lit K _ ?_ rfl rfl rfl rfl rfl rfl)

theorem keep_routeTableWrite {P : Chip → Prop} (K : Keep P) (dt a mask v : Nat) (m0 : Chip) (h0 : P m0) : P (routeTableWrite
    dt a mask v m0) := by
  unfold routeTableWrite
  try dsimp only
  repeat' (first | with_reducible assumption | (intro _) | with_reducible apply keep_Chip_setFlag K
                 | with_reducible apply keep_elapse K | with_reducible apply keep_Chip_onPur K
                 | with_reducible apply keep_forAll (P := P) | with_reducible apply keep_ite (P := P) | split
                 | with_reducible refine keep_lit K _ ?_ rfl rfl rfl rfl rfl rfl)

theorem keep_Chip_purBoundary {P : Chip → Prop} (K : Keep P) (b : Nat) (m : Chip) (h0 : P m) : P (Chip.purBoundary b m) :=
    by
  unfold Chip.purBoundary
  try dsimp only
  repeat' (first | with_reducible assumption | (intro _) | with_reducible apply keep_Chip_put K
                 | with_reducible apply keep_Chip_onPur K | with_reducible apply keep_ite (P := P) | split
                 | with_reducible refine keep_lit K _ ?_ rfl rfl rfl rfl rfl rfl)

end Sys2Proof.Laws
end

