-- ==== Sys2Proof/Laws/Keep/Window.lean ====
section
/-!
SUPPORT. Sys2Proof/Laws/Keep/Window.lean: the definitions of Machine/Window.lean keep what the primitive changes keep.
-/
namespace Sys2Proof.Laws
open Sys2Proof.Machine

theorem keep_windowCommand {P : Chip → Prop} (K : Keep P) (dt n sub : Nat) (c : CutEntry) (pl : CmdPlan) (work : Chip →
    Running) (m : Chip) (h0 : P m) : P (windowCommand dt n sub c pl work m) := by
  unfold windowCommand
  try dsimp only
  repeat' (first | with_reducible assumption | (intro _) | with_reducible apply keep_elapse K
                 | with_reducible apply keep_bentCommand K | with_reducible apply keep_ite (P := P))

theorem keep_windowConv {P : Chip → Prop} (K : Keep P) (dt n : Nat) (c : CutEntry) (pl : CmdPlan) (y0 : Chip) (h0 : P y0) :
    P (windowConv dt n c pl y0) := by
  unfold windowConv
  try dsimp only
  repeat' (first | with_reducible assumption | (intro _) | with_reducible apply keep_windowCommand K)

theorem keep_windowMaxpool {P : Chip → Prop} (K : Keep P) (dt n : Nat) (c : CutEntry) (pl : CmdPlan) (y0 : Chip) (h0 : P y0)
    : P (windowMaxpool dt n c pl y0) := by
  unfold windowMaxpool
  try dsimp only
  repeat' (first | with_reducible assumption | (intro _) | with_reducible apply keep_windowCommand K)

theorem keep_windowAvgpool {P : Chip → Prop} (K : Keep P) (dt n : Nat) (c : CutEntry) (pl : CmdPlan) (y0 : Chip) (h0 : P y0)
    : P (windowAvgpool dt n c pl y0) := by
  unfold windowAvgpool
  try dsimp only
  repeat' (first | with_reducible assumption | (intro _) | with_reducible apply keep_windowCommand K)

theorem keep_windowUpsample {P : Chip → Prop} (K : Keep P) (dt n : Nat) (c : CutEntry) (pl : CmdPlan) (y0 : Chip) (h0 : P
    y0) : P (windowUpsample dt n c pl y0) := by
  unfold windowUpsample
  try dsimp only
  repeat' (first | with_reducible assumption | (intro _) | with_reducible apply keep_windowCommand K)

theorem keep_spectralWork {P : Chip → Prop} (K : Keep P) (c : CutEntry) (pl : CmdPlan) (m : Chip) (h0 : P m) : P
    (spectralWork c pl m).2 := by
  unfold spectralWork
  try dsimp only
  repeat' (first | with_reducible assumption | with_reducible apply keep_Chip_meetErrs K)

theorem keep_spectralConv2d {P : Chip → Prop} (K : Keep P) (dt : Nat) (c : CutEntry) (pl : CmdPlan) (m0 : Chip) (h0 : P m0)
    : P (spectralConv2d dt c pl m0) := by
  unfold spectralConv2d
  try dsimp only
  repeat' (first | with_reducible assumption | (intro _) | with_reducible apply keep_elapse K
                 | with_reducible apply keep_startCmd K | with_reducible apply keep_spectralWork K
                 | with_reducible apply keep_ite (P := P))

end Sys2Proof.Laws
end

