-- ==== Sys2Proof/Laws/Keep/Background.lean ====
section
/-!
SUPPORT. Sys2Proof/Laws/Keep/Background.lean: the definitions of Machine/Background.lean keep what the primitive changes keep.
-/
namespace Sys2Proof.Laws
open Sys2Proof.Machine

theorem keep_segWork {P : Chip → Prop} (K : Keep P) (m : Chip) (e : Engine) (c : CutEntry) (w : SegWork) (f : Chip → Running × Chip) (h : m.segWork e c w = some f) :
    ∀ x, P x → P (f x).2 := by
  unfold Chip.segWork at h
  simp only [Chip.winSeg, Chip.bentSeg] at h
  repeat' (split at h)
  all_goals first
    | contradiction
    | (rw [← Option.some.inj h]; intro x hx
       first
       | with_reducible exact keep_bentWork K _ _ _ _ _ _ _ hx
       | with_reducible exact keep_spectralWork K _ _ _ hx
       | with_reducible exact keep_attendWork K _ _ _ hx
       | with_reducible exact keep_appendWork K _ _ _ hx
       | with_reducible exact keep_detectWork K _ _ _ _ hx
       | with_reducible exact keep_screenWork K _ _ _ _ _ _ _ _ hx
       | with_reducible exact keep_cmDmaWork K _ _ _ hx
       | with_reducible exact keep_tenonWork K _ _ _ _ _ hx
       | with_reducible exact keep_purlinWork K _ _ _ _ _ hx)

theorem keep_Chip_startSeg {P : Chip → Prop} (K : Keep P) (e : Engine) (j limit : Nat) (c : CutEntry) (w : SegWork) (m : Chip) (h0 : P m) :
    P (Chip.startSeg e j limit c w m) := by
  unfold Chip.startSeg
  split
  · exact h0
  · next f hf =>
    have h1 := keep_segWork K _ _ _ _ _ hf (m.setEng e { m.eng e with hit := false }) (keep_Chip_setEng K _ _ _ h0)
    dsimp only
    repeat' (first | with_reducible assumption | with_reducible apply keep_Chip_rollBack K | with_reducible apply keep_Chip_showEng K
                   | with_reducible apply keep_Chip_setEng K | with_reducible apply keep_ite (P := P) | split)

theorem keep_Chip_yieldBg {P : Chip → Prop} (K : Keep P) (e : Engine) (j next : Nat) (m : Chip) (h0 : P m) : P (Chip.yieldBg
    e j next m) := by
  unfold Chip.yieldBg
  try dsimp only
  repeat' (first | with_reducible assumption | with_reducible apply keep_Chip_setEng K
                 | with_reducible apply keep_Chip_saveLive K | with_reducible apply keep_ite (P := P)
                 | with_reducible refine keep_lit K _ ?_ rfl rfl rfl rfl rfl rfl)

theorem keep_backgroundSegment {P : Chip → Prop} (K : Keep P) (dt : Nat) (e : Engine) (w : SegWork) (m0 : Chip) (h0 : P m0)
    : P (backgroundSegment dt e w m0) := by
  unfold backgroundSegment
  try dsimp only
  repeat' (first | with_reducible assumption | with_reducible apply keep_elapse K | with_reducible apply keep_Chip_startSeg K
                 | with_reducible apply keep_Chip_yieldBg K | with_reducible apply keep_ite (P := P) | split)

end Sys2Proof.Laws
end

