-- ==== Sys2Proof/Laws/Keep/Housekeeping.lean ====
section
/-!
SUPPORT. Sys2Proof/Laws/Keep/Housekeeping.lean: the definitions of Machine/Housekeeping.lean keep what the primitive changes keep.
-/
namespace Sys2Proof.Laws
open Sys2Proof.Machine

theorem keep_Chip_onHk {P : Chip → Prop} (K : Keep P) (f : HkState → HkState) (m : Chip) (h0 : P m) : P (Chip.onHk f m) :=
    by
  unfold Chip.onHk
  try dsimp only
  repeat' (first | with_reducible assumption | with_reducible refine keep_lit K _ ?_ rfl rfl rfl rfl rfl rfl)

theorem keep_Chip_sensorRead {P : Chip → Prop} (K : Keep P) (i : Nat) (x : Int) (m : Chip) (h0 : P m) : P (Chip.sensorRead i
    x m) := by
  unfold Chip.sensorRead
  try dsimp only
  repeat' (first | with_reducible assumption | (intro _) | with_reducible apply keep_Chip_put K
                 | with_reducible apply keep_Chip_setFlag K | with_reducible apply keep_Chip_raise K
                 | with_reducible apply keep_Chip_onHk K | with_reducible apply keep_ite (P := P) | split
                 | with_reducible refine keep_lit K _ ?_ rfl rfl rfl rfl rfl rfl)

theorem keep_Chip_thermal {P : Chip → Prop} (K : Keep P) (c : Src) (t thr : Int) (m : Chip) (h0 : P m) : P (Chip.thermal c t
    thr m) := by
  unfold Chip.thermal
  try dsimp only
  repeat' (first | with_reducible assumption | with_reducible apply keep_Chip_assert K
                 | with_reducible apply keep_Chip_deassert K | with_reducible apply keep_ite (P := P))

theorem keep_Chip_dieSources {P : Chip → Prop} (K : Keep P) (w h c : Src) (t : Int) (m : Chip) (h0 : P m) : P
    (Chip.dieSources w h c t m) := by
  unfold Chip.dieSources
  try dsimp only
  repeat' (first | with_reducible assumption | with_reducible apply keep_Chip_thermal K)

theorem keep_Chip_setFan {P : Chip → Prop} (K : Keep P) (f : Nat) (v : FanState) (m : Chip) (h0 : P m) : P (Chip.setFan f v
    m) := by
  unfold Chip.setFan
  try dsimp only
  repeat' (first | with_reducible assumption | (intro _) | with_reducible apply keep_Chip_onHk K
                 | with_reducible refine keep_lit K _ ?_ rfl rfl rfl rfl rfl rfl)

theorem keep_Chip_curveDuty {P : Chip → Prop} (K : Keep P) (m : Chip) (h0 : P m) : P (Chip.curveDuty m).2 := by
  unfold Chip.curveDuty
  try dsimp only
  repeat' (first | with_reducible assumption | with_reducible apply keep_Chip_draw K | with_reducible apply keep_ite (P := P)
                 | dsimp only | split)

theorem keep_Chip_setDuties {P : Chip → Prop} (K : Keep P) (m : Chip) (h0 : P m) : P (Chip.setDuties m) := by
  unfold Chip.setDuties
  try dsimp only
  repeat' (first | with_reducible assumption | (intro _) | with_reducible apply keep_Chip_put K
                 | with_reducible apply keep_Chip_curveDuty K | with_reducible apply keep_forAll (P := P)
                 | with_reducible apply keep_ite (P := P) | dsimp only | split)

theorem keep_Chip_startFan {P : Chip → Prop} (K : Keep P) (f : Nat) (m : Chip) (h0 : P m) : P (Chip.startFan f m) := by
  unfold Chip.startFan
  try dsimp only
  repeat' (first | with_reducible assumption | with_reducible apply keep_Chip_put K | with_reducible apply keep_Chip_setFan K
                 | with_reducible refine keep_lit K _ ?_ rfl rfl rfl rfl rfl rfl)

theorem keep_Chip_fanOff {P : Chip → Prop} (K : Keep P) (f st : Nat) (m : Chip) (h0 : P m) : P (Chip.fanOff f st m) := by
  unfold Chip.fanOff
  try dsimp only
  repeat' (first | with_reducible assumption | with_reducible apply keep_Chip_put K | with_reducible apply keep_Chip_setFlag K
                 | with_reducible apply keep_Chip_raise K | with_reducible apply keep_Chip_setFan K
                 | with_reducible apply keep_ite (P := P) | with_reducible refine keep_lit K _ ?_ rfl rfl rfl rfl rfl rfl)

theorem keep_Chip_restartFan {P : Chip → Prop} (K : Keep P) (f : Nat) (m : Chip) (h0 : P m) : P (Chip.restartFan f m) := by
  unfold Chip.restartFan
  try dsimp only
  repeat' (first | with_reducible assumption | with_reducible apply keep_Chip_put K | with_reducible apply keep_Chip_bump K
                 | with_reducible apply keep_Chip_startFan K)

theorem keep_fanTimer {P : Chip → Prop} (K : Keep P) (dt f : Nat) (rpm : Option Nat) (m0 : Chip) (h0 : P m0) : P (fanTimer
    dt f rpm m0) := by
  unfold fanTimer
  try dsimp only
  repeat' (first | with_reducible assumption | (intro _) | with_reducible apply keep_Chip_put K
                 | with_reducible apply keep_elapse K | with_reducible apply keep_Chip_onHk K
                 | with_reducible apply keep_Chip_curveDuty K | with_reducible apply keep_Chip_setDuties K
                 | with_reducible apply keep_Chip_fanOff K | with_reducible apply keep_Chip_restartFan K
                 | with_reducible apply keep_ite (P := P) | dsimp only | split
                 | with_reducible refine keep_lit K _ ?_ rfl rfl rfl rfl rfl rfl)

theorem keep_fanTachLoss {P : Chip → Prop} (K : Keep P) (dt f : Nat) (m0 : Chip) (h0 : P m0) : P (fanTachLoss dt f m0) := by
  unfold fanTachLoss
  try dsimp only
  repeat' (first | with_reducible assumption | with_reducible apply keep_elapse K | with_reducible apply keep_Chip_raise K
                 | with_reducible apply keep_Chip_setDuties K | with_reducible apply keep_Chip_fanOff K
                 | with_reducible apply keep_ite (P := P))

theorem keep_fanRetry {P : Chip → Prop} (K : Keep P) (dt f : Nat) (m0 : Chip) (h0 : P m0) : P (fanRetry dt f m0) := by
  unfold fanRetry
  try dsimp only
  repeat' (first | with_reducible assumption | with_reducible apply keep_Chip_put K | with_reducible apply keep_Chip_bump K
                 | with_reducible apply keep_elapse K | with_reducible apply keep_Chip_setDuties K
                 | with_reducible apply keep_Chip_startFan K | with_reducible apply keep_ite (P := P))

theorem keep_thermalSample {P : Chip → Prop} (K : Keep P) (dt : Nat) (sill ridge : List Int) (hbm : List (Int × Bool)) (m0 :
    Chip) (h0 : P m0) : P (thermalSample dt sill ridge hbm m0) := by
  unfold thermalSample
  try dsimp only
  repeat' (first | with_reducible assumption | (intro _) | with_reducible apply keep_Chip_put K
                 | with_reducible apply keep_elapse K | with_reducible apply keep_Chip_take K
                 | with_reducible apply keep_Chip_onHk K | with_reducible apply keep_Chip_sensorRead K
                 | with_reducible apply keep_Chip_dieSources K | with_reducible apply keep_Chip_setDuties K
                 | with_reducible apply keep_forAll (P := P) | dsimp only | split
                 | with_reducible refine keep_lit K _ ?_ rfl rfl rfl rfl rfl rfl)

theorem keep_Chip_shownMean {P : Chip → Prop} (K : Keep P) (num den : Nat) (m : Chip) (h0 : P m) : P (Chip.shownMean num den
    m).2 := by
  unfold Chip.shownMean
  try dsimp only
  repeat' (first | with_reducible assumption | with_reducible apply keep_Chip_draw K | with_reducible apply keep_ite (P := P)
                 | dsimp only | split)

theorem keep_powerSample {P : Chip → Prop} (K : Keep P) (dt mv ma : Nat) (m0 : Chip) (h0 : P m0) : P (powerSample dt mv ma
    m0) := by
  unfold powerSample
  try dsimp only
  repeat' (first | with_reducible assumption | (intro _) | with_reducible apply keep_Chip_put K
                 | with_reducible apply keep_Chip_setFlag K | with_reducible apply keep_Chip_wr64 K
                 | with_reducible apply keep_Chip_log K | with_reducible apply keep_elapse K
                 | with_reducible apply keep_Chip_follow K | with_reducible apply keep_Chip_onHk K
                 | with_reducible apply keep_Chip_shownMean K | with_reducible apply keep_ite (P := P) | dsimp only | split
                 | with_reducible refine keep_lit K _ ?_ rfl rfl rfl rfl rfl rfl)

theorem keep_Chip_setBus {P : Chip → Prop} (K : Keep P) (c : Nat) (v : I2cState) (m : Chip) (h0 : P m) : P (Chip.setBus c v
    m) := by
  unfold Chip.setBus
  try dsimp only
  repeat' (first | with_reducible assumption | (intro _) | with_reducible apply keep_Chip_onHk K
                 | with_reducible refine keep_lit K _ ?_ rfl rfl rfl rfl rfl rfl)

theorem keep_Chip_i2cEnd {P : Chip → Prop} (K : Keep P) (c : Nat) (j : I2cJob) (ok : Bool) (m : Chip) (h0 : P m) : P
    (Chip.i2cEnd c j ok m) := by
  unfold Chip.i2cEnd
  try dsimp only
  repeat' (first | with_reducible assumption | with_reducible apply keep_Chip_bumpIf K | with_reducible apply keep_Chip_emit K
                 | with_reducible apply keep_ite (P := P))

theorem keep_Chip_i2cRun {P : Chip → Prop} (K : Keep P) (c : Nat) (y0 : Nat) (y1 : Chip) (h0 : P y1) : P (Chip.i2cRun c y0
    y1) := by
  induction y0 generalizing y1 with
  | zero => exact h0
  | succ n ih =>
    unfold Chip.i2cRun
    try dsimp only
    repeat' (first | with_reducible assumption | with_reducible apply ih | with_reducible apply keep_Chip_put K
                   | with_reducible apply keep_Chip_setBus K | with_reducible apply keep_Chip_i2cEnd K | split
                   | with_reducible refine keep_lit K _ ?_ rfl rfl rfl rfl rfl rfl)

theorem keep_Chip_i2cRequest {P : Chip → Prop} (K : Keep P) (c : Nat) (j : I2cJob) (m : Chip) (h0 : P m) : P
    (Chip.i2cRequest c j m) := by
  unfold Chip.i2cRequest
  try dsimp only
  repeat' (first | with_reducible assumption | with_reducible apply keep_Chip_bump K | with_reducible apply keep_Chip_emit K
                 | with_reducible apply keep_Chip_setBus K | with_reducible apply keep_Chip_i2cRun K
                 | with_reducible apply keep_ite (P := P) | with_reducible refine keep_lit K _ ?_ rfl rfl rfl rfl rfl rfl)

theorem keep_i2cTransaction {P : Chip → Prop} (K : Keep P) (dt c dev : Nat) (write : Bool) (ends : Option Bool) (a : Option
    Auth) (m0 : Chip) (h0 : P m0) : P (i2cTransaction dt c dev write ends a m0) := by
  unfold i2cTransaction
  try dsimp only
  repeat' (first | with_reducible assumption | (intro _) | with_reducible apply keep_elapse K
                 | with_reducible apply keep_Chip_signed K | with_reducible apply keep_Chip_i2cRequest K
                 | with_reducible apply keep_ite (P := P) | split
                 | with_reducible refine keep_lit K _ ?_ rfl rfl rfl rfl rfl rfl)

theorem keep_smbusTimeout {P : Chip → Prop} (K : Keep P) (dt c : Nat) (m0 : Chip) (h0 : P m0) : P (smbusTimeout dt c m0) :=
    by
  unfold smbusTimeout
  try dsimp only
  repeat' (first | with_reducible assumption | with_reducible apply keep_elapse K | with_reducible apply keep_Chip_setBus K
                 | with_reducible apply keep_Chip_i2cEnd K | with_reducible apply keep_Chip_i2cRun K
                 | with_reducible apply keep_ite (P := P) | split
                 | with_reducible refine keep_lit K _ ?_ rfl rfl rfl rfl rfl rfl)

theorem keep_Chip_i2cRecover {P : Chip → Prop} (K : Keep P) (c : Nat) (sclLow : Bool) (free : Option Nat) (m : Chip) (h0 : P
    m) : P (Chip.i2cRecover c sclLow free m) := by
  unfold Chip.i2cRecover
  try dsimp only
  repeat' (first | with_reducible assumption | (intro _) | with_reducible apply keep_Chip_put K
                 | with_reducible apply keep_Chip_setFlag K | with_reducible apply keep_Chip_bumpBy K
                 | with_reducible apply keep_Chip_assert K | with_reducible apply keep_Chip_follow K
                 | with_reducible apply keep_Chip_setBus K | with_reducible apply keep_ite (P := P)
                 | with_reducible refine keep_lit K _ ?_ rfl rfl rfl rfl rfl rfl)

theorem keep_busStuck {P : Chip → Prop} (K : Keep P) (dt c : Nat) (sclLow : Bool) (free : Option Nat) (m0 : Chip) (h0 : P
    m0) : P (busStuck dt c sclLow free m0) := by
  unfold busStuck
  try dsimp only
  repeat' (first | with_reducible assumption | with_reducible apply keep_elapse K
                 | with_reducible apply keep_Chip_i2cRecover K | with_reducible apply keep_ite (P := P) | split)

theorem keep_i2cRecoveryRetry {P : Chip → Prop} (K : Keep P) (dt c : Nat) (sclLow : Bool) (free : Option Nat) (m0 : Chip)
    (h0 : P m0) : P (i2cRecoveryRetry dt c sclLow free m0) := by
  unfold i2cRecoveryRetry
  try dsimp only
  repeat' (first | with_reducible assumption | with_reducible apply keep_elapse K
                 | with_reducible apply keep_Chip_i2cRecover K | with_reducible apply keep_ite (P := P))

theorem keep_pmbusPoll {P : Chip → Prop} (K : Keep P) (dt : Nat) (values : List (Option Nat)) (m0 : Chip) (h0 : P m0) : P
    (pmbusPoll dt values m0) := by
  unfold pmbusPoll
  try dsimp only
  repeat' (first | with_reducible assumption | (intro _) | with_reducible apply keep_Chip_put K
                 | with_reducible apply keep_Chip_bumpIf K | with_reducible apply keep_elapse K
                 | with_reducible apply keep_Chip_take K | with_reducible apply keep_forAll (P := P)
                 | with_reducible apply keep_ite (P := P) | dsimp only)

end Sys2Proof.Laws
end

