-- ==== Sys2Proof/Laws/Keep/Text.lean ====
section
/-!
SUPPORT. Sys2Proof/Laws/Keep/Text.lean: the definitions of Machine/Text.lean keep what the primitive changes keep.
-/
namespace Sys2Proof.Laws
open Sys2Proof.Machine

theorem keep_Chip_onText {P : Chip → Prop} (K : Keep P) (f : TextState → TextState) (m : Chip) (h0 : P m) : P (Chip.onText f
    m) := by
  unfold Chip.onText
  try dsimp only
  repeat' (first | with_reducible assumption | with_reducible refine keep_lit K _ ?_ rfl rfl rfl rfl rfl rfl)

theorem keep_Chip_showText {P : Chip → Prop} (K : Keep P) (m : Chip) (h0 : P m) : P (Chip.showText m) := by
  unfold Chip.showText
  try dsimp only
  repeat' (first | with_reducible assumption | with_reducible apply keep_Chip_put K | with_reducible apply keep_ite (P := P)
                 | split)

theorem keep_question {P : Chip → Prop} (K : Keep P) (dt session j : Nat) (text : List Byte) (evidence maxNew temp topK seed
    : Nat) (m0 : Chip) (h0 : P m0) : P (question dt session j text evidence maxNew temp topK seed m0) := by
  unfold question
  try dsimp only
  repeat' (first | with_reducible assumption | (intro _) | with_reducible apply keep_Chip_bump K
                 | with_reducible apply keep_elapse K | with_reducible apply keep_Chip_touch K
                 | with_reducible apply keep_Chip_answer K | with_reducible apply keep_Chip_onText K
                 | with_reducible apply keep_Chip_showText K | with_reducible apply keep_ite (P := P) | split
                 | with_reducible refine keep_lit K _ ?_ rfl rfl rfl rfl rfl rfl)

theorem keep_Chip_chunk {P : Chip → Prop} (K : Keep P) (q : Query) (bytes : List Byte) (stop : Option Nat) (m : Chip) (h0 :
    P m) : P (Chip.chunk q bytes stop m) := by
  unfold Chip.chunk
  try dsimp only
  repeat' (first | with_reducible assumption | with_reducible apply keep_Chip_answer K | split)

theorem keep_Chip_endQuery {P : Chip → Prop} (K : Keep P) (j : Nat) (q : Query) (reason : Nat) (m : Chip) (h0 : P m) : P
    (Chip.endQuery j q reason m) := by
  unfold Chip.endQuery
  try dsimp only
  repeat' (first | with_reducible assumption | (intro _) | with_reducible apply keep_Chip_put K
                 | with_reducible apply keep_Chip_bump K | with_reducible apply keep_Chip_onText K
                 | with_reducible apply keep_Chip_showText K | with_reducible apply keep_Chip_chunk K
                 | with_reducible apply keep_ite (P := P) | dsimp only
                 | with_reducible refine keep_lit K _ ?_ rfl rfl rfl rfl rfl rfl)

theorem keep_Chip_abortText {P : Chip → Prop} (K : Keep P) (j : Nat) (m : Chip) (h0 : P m) : P (Chip.abortText j m) := by
  unfold Chip.abortText
  try dsimp only
  repeat' (first | with_reducible assumption | (intro _) | with_reducible apply keep_Chip_endQuery K
                 | with_reducible apply keep_forAll (P := P))

theorem keep_cancel {P : Chip → Prop} (K : Keep P) (dt session id : Nat) (m0 : Chip) (h0 : P m0) : P (cancel dt session id
    m0) := by
  unfold cancel
  try dsimp only
  repeat' (first | with_reducible assumption | (intro _) | with_reducible apply keep_elapse K
                 | with_reducible apply keep_Chip_touch K | with_reducible apply keep_Chip_answer K
                 | with_reducible apply keep_Chip_endQuery K | with_reducible apply keep_ite (P := P) | dsimp only | split)

theorem keep_tokenGenerate {P : Chip → Prop} (K : Keep P) (dt j : Nat) (logits : List Nat) (full : Bool) (m0 : Chip) (h0 : P
    m0) : P (tokenGenerate dt j logits full m0) := by
  unfold tokenGenerate
  try dsimp only
  repeat' (first | with_reducible assumption | (intro _) | with_reducible apply keep_Chip_put K
                 | with_reducible apply keep_elapse K | with_reducible apply keep_Chip_stepDone K
                 | with_reducible apply keep_Chip_onText K | with_reducible apply keep_Chip_showText K
                 | with_reducible apply keep_Chip_chunk K | with_reducible apply keep_Chip_endQuery K
                 | with_reducible apply keep_ite (P := P) | dsimp only | split
                 | with_reducible refine keep_lit K _ ?_ rfl rfl rfl rfl rfl rfl)

end Sys2Proof.Laws
end

