-- ==== Sys2Proof/Laws/Keep/Reset.lean ====
section
/-!
SUPPORT. Sys2Proof/Laws/Keep/Reset.lean: the definitions of Machine/Reset.lean keep what the primitive changes keep.
-/
namespace Sys2Proof.Laws
open Sys2Proof.Machine

theorem keep_Chip_onBoot {P : Chip → Prop} (K : Keep P) (f : BootState → BootState) (m : Chip) (h0 : P m) : P (Chip.onBoot f
    m) := by
  unfold Chip.onBoot
  try dsimp only
  repeat' (first | with_reducible assumption | with_reducible refine keep_lit K _ ?_ rfl rfl rfl rfl rfl rfl)

theorem keep_Chip_setPhase {P : Chip → Prop} (K : Keep P) (n : Nat) (m : Chip) (h0 : P m) : P (Chip.setPhase n m) := by
  unfold Chip.setPhase
  try dsimp only
  repeat' (first | with_reducible assumption | with_reducible apply keep_Chip_put K)

theorem keep_Chip_pinsFall {P : Chip → Prop} (K : Keep P) (m : Chip) (h0 : P m) : P (Chip.pinsFall m) := by
  unfold Chip.pinsFall
  try dsimp only
  repeat' (first | with_reducible assumption | (intro _) | with_reducible apply keep_Chip_emit K
                 | with_reducible apply keep_forAll (P := P) | with_reducible apply keep_ite (P := P))

theorem keep_Chip_blank {P : Chip → Prop} (K : Keep P) (m0 : Chip) (h0 : P m0) : P (Chip.blank m0) := by
  exact K.blank _ h0

theorem keep_Chip_sampleStraps {P : Chip → Prop} (K : Keep P) (bootSrc clk : Nat) (m : Chip) (h0 : P m) : P
    (Chip.sampleStraps bootSrc clk m) := by
  unfold Chip.sampleStraps
  try dsimp only
  repeat' (first | with_reducible assumption | with_reducible apply keep_Chip_put K)

theorem keep_Chip_showLid {P : Chip → Prop} (K : Keep P) (m : Chip) (h0 : P m) : P (Chip.showLid m) := by
  unfold Chip.showLid
  try dsimp only
  repeat' (first | with_reducible assumption | with_reducible apply keep_Chip_put K)

theorem keep_Chip_powerOnReset {P : Chip → Prop} (K : Keep P) (bootSrc clk : Nat) (m : Chip) (h0 : P m) : P
    (Chip.powerOnReset bootSrc clk m) := by
  unfold Chip.powerOnReset
  try dsimp only
  repeat' (first | with_reducible assumption | with_reducible apply keep_Chip_blank K
                 | with_reducible apply keep_Chip_sampleStraps K | with_reducible apply keep_Chip_showLid K)

theorem keep_Chip_noteRestart {P : Chip → Prop} (K : Keep P) (was : Bool) (m : Chip) (h0 : P m) : P (Chip.noteRestart was m)
    := by
  unfold Chip.noteRestart
  try dsimp only
  repeat' (first | with_reducible assumption | with_reducible apply keep_Chip_setFlag K
                 | with_reducible apply keep_Chip_bump K | with_reducible apply keep_ite (P := P))

theorem keep_Chip_coldReset {P : Chip → Prop} (K : Keep P) (cause : Nat) (m0 : Chip) (h0 : P m0) : P (Chip.coldReset cause
    m0) := by
  unfold Chip.coldReset
  try dsimp only
  repeat' (first | with_reducible assumption | (intro _) | with_reducible apply keep_Chip_wr K
                 | with_reducible apply keep_Chip_put K | with_reducible apply keep_Chip_bump K
                 | with_reducible apply keep_Chip_log K | with_reducible apply keep_Chip_setEng K
                 | with_reducible apply keep_Chip_blank K | with_reducible apply keep_Chip_showLid K
                 | with_reducible apply keep_Chip_noteRestart K | with_reducible apply keep_forAll (P := P)
                 | with_reducible refine keep_lit K _ ?_ rfl rfl rfl rfl rfl rfl)

theorem keep_Chip_lostStrip {P : Chip → Prop} (K : Keep P) (row strip closeBay : Nat) (streams jobs : List Nat) (m : Chip)
    (h0 : P m) : P (Chip.lostStrip row strip closeBay streams jobs m) := by
  unfold Chip.lostStrip
  try dsimp only
  repeat' (first | with_reducible assumption | (intro _) | with_reducible apply keep_Chip_bump K
                 | with_reducible apply keep_Chip_release K | with_reducible apply keep_forAll (P := P)
                 | with_reducible refine keep_lit K _ ?_ rfl rfl rfl rfl rfl rfl)

theorem keep_Chip_loseWork {P : Chip → Prop} (K : Keep P) (m : Chip) (h0 : P m) : P (Chip.loseWork m) := by
  unfold Chip.loseWork
  try dsimp only
  repeat' (first | with_reducible assumption | (intro _) | with_reducible apply keep_Chip_releaseSet K
                 | with_reducible apply keep_Chip_countDue K | with_reducible apply keep_Chip_lostStrip K
                 | with_reducible apply keep_forAll (P := P) | dsimp only | split
                 | with_reducible refine keep_lit K _ ?_ rfl rfl rfl rfl rfl rfl)

theorem keep_Chip_camsDown {P : Chip → Prop} (K : Keep P) (m : Chip) (h0 : P m) : P (Chip.camsDown m) := by
  unfold Chip.camsDown
  try dsimp only
  repeat' (first | with_reducible assumption | (intro _) | with_reducible apply keep_Chip_camDown K
                 | with_reducible apply keep_forAll (P := P))

theorem keep_Chip_dropSessions {P : Chip → Prop} (K : Keep P) (m : Chip) (h0 : P m) : P (Chip.dropSessions m) := by
  unfold Chip.dropSessions
  try dsimp only
  repeat' (first | with_reducible assumption | with_reducible refine keep_lit K _ ?_ rfl rfl rfl rfl rfl rfl)

theorem keep_Chip_stopSite {P : Chip → Prop} (K : Keep P) (m : Chip) (h0 : P m) : P (Chip.stopSite m) := by
  unfold Chip.stopSite
  try dsimp only
  repeat' (first | with_reducible assumption | (intro _) | with_reducible apply keep_Chip_put K
                 | with_reducible apply keep_Chip_wr64 K | with_reducible apply keep_Chip_abortText K
                 | with_reducible apply keep_forAll (P := P))

theorem keep_Chip_stopWork {P : Chip → Prop} (K : Keep P) (m0 : Chip) (h0 : P m0) : P (Chip.stopWork m0) := by
  unfold Chip.stopWork
  try dsimp only
  repeat' (first | with_reducible assumption | (intro _) | with_reducible apply keep_Chip_put K
                 | with_reducible apply keep_Chip_resetPipes K | with_reducible apply keep_Chip_discardCarry K
                 | with_reducible apply keep_Chip_loseWork K | with_reducible apply keep_Chip_camsDown K
                 | with_reducible apply keep_Chip_dropSessions K | with_reducible apply keep_Chip_stopSite K
                 | with_reducible apply keep_forAll (P := P) | with_reducible apply keep_ite (P := P) | dsimp only | split
                 | with_reducible refine keep_lit K _ ?_ rfl rfl rfl rfl rfl rfl)

theorem keep_Chip_warmReset {P : Chip → Prop} (K : Keep P) (cause : Nat) (m0 : Chip) (h0 : P m0) : P (Chip.warmReset cause
    m0) := by
  unfold Chip.warmReset
  try dsimp only
  repeat' (first | with_reducible assumption | (intro _) | with_reducible apply keep_Chip_put K
                 | with_reducible apply keep_Chip_bump K | with_reducible apply keep_Chip_refreshOutputs K
                 | with_reducible apply keep_Chip_enterFireOut K | with_reducible apply keep_Chip_replaceKeys K
                 | with_reducible apply keep_Chip_onBoot K | with_reducible apply keep_Chip_setPhase K
                 | with_reducible apply keep_Chip_noteRestart K | with_reducible apply keep_Chip_stopWork K
                 | with_reducible apply keep_ite (P := P) | with_reducible refine keep_lit K _ ?_ rfl rfl rfl rfl rfl rfl)

theorem keep_powerOn {P : Chip → Prop} (K : Keep P) (pg : Bool) (bootSrc clk : Nat) (m : Chip) (h0 : P m) : P (powerOn pg
    bootSrc clk m) := by
  unfold powerOn
  try dsimp only
  repeat' (first | with_reducible assumption | (intro _) | with_reducible apply keep_Chip_onBoot K
                 | with_reducible apply keep_Chip_powerOnReset K | with_reducible apply keep_ite (P := P)
                 | with_reducible refine keep_lit K _ ?_ rfl rfl rfl rfl rfl rfl)

theorem keep_mainInputFail {P : Chip → Prop} (K : Keep P) (m : Chip) (h0 : P m) : P (mainInputFail m) := by
  unfold mainInputFail
  try dsimp only
  repeat' (first | with_reducible assumption | (intro _) | with_reducible apply keep_Chip_onBoot K
                 | with_reducible apply keep_Chip_blank K | with_reducible refine keep_lit K _ ?_ rfl rfl rfl rfl rfl rfl)

theorem keep_pwrGoodFall {P : Chip → Prop} (K : Keep P) (m : Chip) (h0 : P m) : P (pwrGoodFall m) := by
  unfold pwrGoodFall
  try dsimp only
  repeat' (first | with_reducible assumption | (intro _) | with_reducible apply keep_Chip_onBoot K
                 | with_reducible apply keep_Chip_blank K | with_reducible refine keep_lit K _ ?_ rfl rfl rfl rfl rfl rfl)

theorem keep_Chip_pulseActs {P : Chip → Prop} (K : Keep P) (ns : Nat) (m : Chip) (h0 : P m) : P (Chip.pulseActs ns m).2 :=
    by
  unfold Chip.pulseActs
  try dsimp only
  repeat' (first | with_reducible assumption | with_reducible apply keep_Chip_draw K | with_reducible apply keep_ite (P := P)
                 | dsimp only | split)

theorem keep_resetN {P : Chip → Prop} (K : Keep P) (dt : Nat) (low : Option Nat) (m0 : Chip) (h0 : P m0) : P (resetN dt low
    m0) := by
  unfold resetN
  try dsimp only
  repeat' (first | with_reducible assumption | (intro _) | with_reducible apply keep_elapse K
                 | with_reducible apply keep_Chip_onBoot K | with_reducible apply keep_Chip_coldReset K
                 | with_reducible apply keep_Chip_pulseActs K | with_reducible apply keep_ite (P := P) | dsimp only | split
                 | with_reducible refine keep_lit K _ ?_ rfl rfl rfl rfl rfl rfl)

theorem keep_wresetN {P : Chip → Prop} (K : Keep P) (dt : Nat) (low : Option Nat) (m0 : Chip) (h0 : P m0) : P (wresetN dt
    low m0) := by
  unfold wresetN
  try dsimp only
  repeat' (first | with_reducible assumption | (intro _) | with_reducible apply keep_elapse K
                 | with_reducible apply keep_Chip_onBoot K | with_reducible apply keep_Chip_warmReset K
                 | with_reducible apply keep_Chip_pulseActs K | with_reducible apply keep_ite (P := P) | dsimp only | split
                 | with_reducible refine keep_lit K _ ?_ rfl rfl rfl rfl rfl rfl)

theorem keep_coldReq {P : Chip → Prop} (K : Keep P) (dt : Nat) (a : Option Auth) (m0 : Chip) (h0 : P m0) : P (coldReq dt a
    m0) := by
  unfold coldReq
  try dsimp only
  repeat' (first | with_reducible assumption | (intro _) | with_reducible apply keep_elapse K
                 | with_reducible apply keep_Chip_signed K | with_reducible apply keep_Chip_coldReset K | split)

theorem keep_warmReq {P : Chip → Prop} (K : Keep P) (dt : Nat) (a : Option Auth) (m0 : Chip) (h0 : P m0) : P (warmReq dt a
    m0) := by
  unfold warmReq
  try dsimp only
  repeat' (first | with_reducible assumption | (intro _) | with_reducible apply keep_elapse K
                 | with_reducible apply keep_Chip_signed K | with_reducible apply keep_Chip_warmReset K | split)

theorem keep_Chip_softBlock {P : Chip → Prop} (K : Keep P) (i : Nat) (m : Chip) (h0 : P m) : P (Chip.softBlock i m) := by
  unfold Chip.softBlock
  try dsimp only
  repeat' (first | with_reducible assumption | (intro _) | with_reducible apply keep_Chip_setEng K
                 | with_reducible apply keep_Chip_syncReset K | with_reducible apply keep_Chip_discardCarry K
                 | with_reducible apply keep_Chip_modTnDir K | with_reducible apply keep_forAll (P := P)
                 | with_reducible apply keep_ite (P := P) | dsimp only | split
                 | with_reducible refine keep_lit K _ ?_ rfl rfl rfl rfl rfl rfl)

theorem keep_softReset {P : Chip → Prop} (K : Keep P) (dt mask : Nat) (m0 : Chip) (h0 : P m0) : P (softReset dt mask m0) :=
    by
  unfold softReset
  try dsimp only
  repeat' (first | with_reducible assumption | (intro _) | with_reducible apply keep_Chip_setFlag K
                 | with_reducible apply keep_Chip_bump K | with_reducible apply keep_Chip_setBit K
                 | with_reducible apply keep_elapse K | with_reducible apply keep_Chip_softBlock K
                 | with_reducible apply keep_forAll (P := P) | with_reducible apply keep_ite (P := P))

theorem keep_domainPowerFail {P : Chip → Prop} (K : Keep P) (dt d : Nat) (m0 : Chip) (h0 : P m0) : P (domainPowerFail dt d
    m0) := by
  unfold domainPowerFail
  try dsimp only
  repeat' (first | with_reducible assumption | with_reducible apply keep_Chip_setBit K | with_reducible apply keep_elapse K
                 | with_reducible apply keep_Chip_setEng K | with_reducible apply keep_Chip_raise K
                 | with_reducible apply keep_Chip_setDomain K | with_reducible apply keep_Chip_showBent K
                 | with_reducible apply keep_ite (P := P) | with_reducible refine keep_lit K _ ?_ rfl rfl rfl rfl rfl rfl)

end Sys2Proof.Laws
end

