-- ==== Sys2Proof/Laws/Keep/Time.lean ====
section
/-!
SUPPORT. Sys2Proof/Laws/Keep/Time.lean: the definitions of Machine/Time.lean keep what the primitive changes keep.
-/
namespace Sys2Proof.Laws
open Sys2Proof.Machine

theorem keep_Chip_onTime {P : Chip → Prop} (K : Keep P) (f : TimeState → TimeState) (m : Chip) (h0 : P m) : P (Chip.onTime f
    m) := by
  unfold Chip.onTime
  try dsimp only
  repeat' (first | with_reducible assumption | with_reducible refine keep_lit K _ ?_ rfl rfl rfl rfl rfl rfl)

theorem keep_Chip_setRef {P : Chip → Prop} (K : Keep P) (i : Nat) (r : RefState) (m : Chip) (h0 : P m) : P (Chip.setRef i r
    m) := by
  unfold Chip.setRef
  try dsimp only
  repeat' (first | with_reducible assumption | (intro _) | with_reducible apply keep_Chip_onTime K
                 | with_reducible refine keep_lit K _ ?_ rfl rfl rfl rfl rfl rfl)

theorem keep_Chip_putValid {P : Chip → Prop} (K : Keep P) (i : Nat) (v : Bool) (m : Chip) (h0 : P m) : P (Chip.putValid i v
    m) := by
  unfold Chip.putValid
  try dsimp only
  repeat' (first | with_reducible assumption | (intro _) | with_reducible apply keep_Chip_put K)

theorem keep_Chip_putQual {P : Chip → Prop} (K : Keep P) (i : Nat) (v : Bool) (m : Chip) (h0 : P m) : P (Chip.putQual i v m)
    := by
  unfold Chip.putQual
  try dsimp only
  repeat' (first | with_reducible assumption | with_reducible apply keep_Chip_put K)

theorem keep_Chip_holdInc {P : Chip → Prop} (K : Keep P) (m : Chip) (h0 : P m) : P (Chip.holdInc m).2 := by
  unfold Chip.holdInc
  try dsimp only
  repeat' (first | with_reducible assumption | (intro _) | with_reducible apply keep_Chip_draw K
                 | with_reducible apply keep_foldl (P := P) | with_reducible apply keep_foldl2 (P := P)
                 | with_reducible apply keep_ite (P := P) | dsimp only | split)

theorem keep_Chip_putInc0 {P : Chip → Prop} (K : Keep P) (v : Nat) (m : Chip) (h0 : P m) : P (Chip.putInc0 v m) := by
  unfold Chip.putInc0
  try dsimp only
  repeat' (first | with_reducible assumption | (intro _) | with_reducible apply keep_Chip_wr64 K
                 | with_reducible apply keep_Chip_onTime K | with_reducible refine keep_lit K _ ?_ rfl rfl rfl rfl rfl rfl)

theorem keep_Chip_enterHold {P : Chip → Prop} (K : Keep P) (m : Chip) (h0 : P m) : P (Chip.enterHold m) := by
  unfold Chip.enterHold
  try dsimp only
  repeat' (first | with_reducible assumption | (intro _) | with_reducible apply keep_Chip_put K
                 | with_reducible apply keep_Chip_bump K | with_reducible apply keep_Chip_onTime K
                 | with_reducible apply keep_Chip_holdInc K | with_reducible apply keep_Chip_putInc0 K
                 | with_reducible apply keep_ite (P := P) | dsimp only | split
                 | with_reducible refine keep_lit K _ ?_ rfl rfl rfl rfl rfl rfl)

theorem keep_Chip_leaveHold {P : Chip → Prop} (K : Keep P) (m : Chip) (h0 : P m) : P (Chip.leaveHold m) := by
  unfold Chip.leaveHold
  try dsimp only
  repeat' (first | with_reducible assumption | (intro _) | with_reducible apply keep_Chip_put K
                 | with_reducible apply keep_Chip_deassert K | with_reducible apply keep_Chip_onTime K
                 | with_reducible refine keep_lit K _ ?_ rfl rfl rfl rfl rfl rfl)

theorem keep_Chip_noteQual {P : Chip → Prop} (K : Keep P) (m : Chip) (h0 : P m) : P (Chip.noteQual m) := by
  unfold Chip.noteQual
  try dsimp only
  repeat' (first | with_reducible assumption | (intro _) | with_reducible apply keep_Chip_deassert K
                 | with_reducible apply keep_Chip_onTime K | with_reducible apply keep_ite (P := P)
                 | with_reducible refine keep_lit K _ ?_ rfl rfl rfl rfl rfl rfl)

theorem keep_Chip_refRefresh {P : Chip → Prop} (K : Keep P) (i : Nat) (m : Chip) (h0 : P m) : P (Chip.refRefresh i m) := by
  unfold Chip.refRefresh
  try dsimp only
  repeat' (first | with_reducible assumption | with_reducible apply keep_Chip_setRef K
                 | with_reducible apply keep_Chip_putValid K | with_reducible apply keep_Chip_putQual K
                 | with_reducible apply keep_ite (P := P) | with_reducible refine keep_lit K _ ?_ rfl rfl rfl rfl rfl rfl)

theorem keep_Chip_leaveRef {P : Chip → Prop} (K : Keep P) (c : Nat) (m : Chip) (h0 : P m) : P (Chip.leaveRef c m) := by
  unfold Chip.leaveRef
  try dsimp only
  repeat' (first | with_reducible assumption | with_reducible apply keep_Chip_setRef K
                 | with_reducible apply keep_Chip_putQual K | with_reducible apply keep_ite (P := P)
                 | with_reducible refine keep_lit K _ ?_ rfl rfl rfl rfl rfl rfl)

theorem keep_Chip_commitRef {P : Chip → Prop} (K : Keep P) (m : Chip) (h0 : P m) : P (Chip.commitRef m) := by
  unfold Chip.commitRef
  try dsimp only
  repeat' (first | with_reducible assumption | (intro _) | with_reducible apply keep_Chip_put K
                 | with_reducible apply keep_Chip_setFlag K | with_reducible apply keep_Chip_bump K
                 | with_reducible apply keep_Chip_leaveHold K | with_reducible apply keep_Chip_noteQual K
                 | with_reducible apply keep_Chip_refRefresh K | with_reducible apply keep_Chip_leaveRef K
                 | with_reducible apply keep_forAll (P := P) | with_reducible apply keep_ite (P := P))

theorem keep_Chip_refEval {P : Chip → Prop} (K : Keep P) (m : Chip) (h0 : P m) : P (Chip.refEval m) := by
  unfold Chip.refEval
  try dsimp only
  repeat' (first | with_reducible assumption | with_reducible apply keep_Chip_put K
                 | with_reducible apply keep_Chip_enterHold K | with_reducible apply keep_Chip_noteQual K
                 | with_reducible apply keep_Chip_commitRef K | with_reducible apply keep_ite (P := P))

theorem keep_Chip_refsUpdate {P : Chip → Prop} (K : Keep P) (m : Chip) (h0 : P m) : P (Chip.refsUpdate m) := by
  unfold Chip.refsUpdate
  try dsimp only
  repeat' (first | with_reducible assumption | (intro _) | with_reducible apply keep_Chip_refRefresh K
                 | with_reducible apply keep_Chip_refEval K | with_reducible apply keep_forAll (P := P))

theorem keep_Chip_refStart {P : Chip → Prop} (K : Keep P) (m : Chip) (h0 : P m) : P (Chip.refStart m) := by
  unfold Chip.refStart
  try dsimp only
  repeat' (first | with_reducible assumption | (intro _) | with_reducible apply keep_Chip_put K
                 | with_reducible apply keep_Chip_enterHold K | with_reducible apply keep_Chip_noteQual K
                 | with_reducible apply keep_Chip_refRefresh K | with_reducible apply keep_forAll (P := P)
                 | with_reducible apply keep_ite (P := P))

theorem keep_tb0IncWrite {P : Chip → Prop} (K : Keep P) (dt base v : Nat) (m0 : Chip) (h0 : P m0) : P (tb0IncWrite dt base v
    m0) := by
  unfold tb0IncWrite
  try dsimp only
  repeat' (first | with_reducible assumption | (intro _) | with_reducible apply keep_Chip_setFlag K
                 | with_reducible apply keep_Chip_bump K | with_reducible apply keep_Chip_wr64 K
                 | with_reducible apply keep_elapse K | with_reducible apply keep_Chip_onTime K
                 | with_reducible apply keep_Chip_putInc0 K | with_reducible apply keep_ite (P := P) | dsimp only | split
                 | with_reducible refine keep_lit K _ ?_ rfl rfl rfl rfl rfl rfl)

theorem keep_Chip_applyStep {P : Chip → Prop} (K : Keep P) (step : Int) (m : Chip) (h0 : P m) : P (Chip.applyStep step m) :=
    by
  unfold Chip.applyStep
  try dsimp only
  repeat' (first | with_reducible assumption | (intro _) | with_reducible apply keep_Chip_put K
                 | with_reducible apply keep_Chip_setFlag K | with_reducible apply keep_Chip_bump K
                 | with_reducible apply keep_Chip_raise K | with_reducible apply keep_Chip_onTime K
                 | with_reducible apply keep_Chip_refsUpdate K | with_reducible apply keep_Chip_refStart K
                 | with_reducible apply keep_ite (P := P) | with_reducible refine keep_lit K _ ?_ rfl rfl rfl rfl rfl rfl)

theorem keep_Chip_clearPermit {P : Chip → Prop} (K : Keep P) (m : Chip) (h0 : P m) : P (Chip.clearPermit m) := by
  unfold Chip.clearPermit
  try dsimp only
  repeat' (first | with_reducible assumption | (intro _) | with_reducible apply keep_Chip_put K
                 | with_reducible apply keep_Chip_onTime K | with_reducible refine keep_lit K _ ?_ rfl rfl rfl rfl rfl rfl)

theorem keep_tb0StepRequest {P : Chip → Prop} (K : Keep P) (dt : Nat) (step : Int) (m0 : Chip) (h0 : P m0) : P
    (tb0StepRequest dt step m0) := by
  unfold tb0StepRequest
  try dsimp only
  repeat' (first | with_reducible assumption | with_reducible apply keep_Chip_setFlag K
                 | with_reducible apply keep_Chip_bump K | with_reducible apply keep_Chip_wr64 K
                 | with_reducible apply keep_elapse K | with_reducible apply keep_Chip_raise K
                 | with_reducible apply keep_Chip_setRef K | with_reducible apply keep_Chip_putQual K
                 | with_reducible apply keep_Chip_refEval K | with_reducible apply keep_Chip_applyStep K
                 | with_reducible apply keep_Chip_clearPermit K | with_reducible apply keep_ite (P := P) | split
                 | with_reducible refine keep_lit K _ ?_ rfl rfl rfl rfl rfl rfl)

theorem keep_tb1Step {P : Chip → Prop} (K : Keep P) (dt : Nat) (step : Int) (m0 : Chip) (h0 : P m0) : P (tb1Step dt step m0)
    := by
  unfold tb1Step
  try dsimp only
  repeat' (first | with_reducible assumption | (intro _) | with_reducible apply keep_Chip_put K
                 | with_reducible apply keep_Chip_wr64 K | with_reducible apply keep_elapse K
                 | with_reducible apply keep_Chip_onTime K | with_reducible refine keep_lit K _ ?_ rfl rfl rfl rfl rfl rfl)

theorem keep_acceptStep {P : Chip → Prop} (K : Keep P) (dt : Nat) (m0 : Chip) (h0 : P m0) : P (acceptStep dt m0) := by
  unfold acceptStep
  try dsimp only
  repeat' (first | with_reducible assumption | (intro _) | with_reducible apply keep_Chip_put K
                 | with_reducible apply keep_elapse K | with_reducible apply keep_Chip_onTime K
                 | with_reducible refine keep_lit K _ ?_ rfl rfl rfl rfl rfl rfl)

theorem keep_acceptStepLapse {P : Chip → Prop} (K : Keep P) (dt : Nat) (m0 : Chip) (h0 : P m0) : P (acceptStepLapse dt m0)
    := by
  unfold acceptStepLapse
  try dsimp only
  repeat' (first | with_reducible assumption | with_reducible apply keep_elapse K
                 | with_reducible apply keep_Chip_clearPermit K | with_reducible apply keep_ite (P := P))

theorem keep_referenceValidityChange {P : Chip → Prop} (K : Keep P) (dt i : Nat) (ok : Bool) (m0 : Chip) (h0 : P m0) : P
    (referenceValidityChange dt i ok m0) := by
  unfold referenceValidityChange
  try dsimp only
  repeat' (first | with_reducible assumption | with_reducible apply keep_elapse K | with_reducible apply keep_Chip_setRef K
                 | with_reducible apply keep_Chip_refsUpdate K | with_reducible refine keep_lit K _ ?_ rfl rfl rfl rfl rfl rfl)

theorem keep_referenceQualified {P : Chip → Prop} (K : Keep P) (dt i : Nat) (m0 : Chip) (h0 : P m0) : P (referenceQualified
    dt i m0) := by
  unfold referenceQualified
  try dsimp only
  repeat' (first | with_reducible assumption | with_reducible apply keep_elapse K | with_reducible apply keep_Chip_putQual K
                 | with_reducible apply keep_Chip_refEval K | with_reducible apply keep_Chip_refsUpdate K
                 | with_reducible apply keep_ite (P := P) | split)

theorem keep_holdoverLong {P : Chip → Prop} (K : Keep P) (dt : Nat) (m0 : Chip) (h0 : P m0) : P (holdoverLong dt m0) := by
  unfold holdoverLong
  try dsimp only
  repeat' (first | with_reducible assumption | with_reducible apply keep_Chip_setFlag K | with_reducible apply keep_elapse K
                 | with_reducible apply keep_Chip_assert K | with_reducible apply keep_ite (P := P) | split)

theorem keep_Chip_pushTs {P : Chip → Prop} (K : Keep P) (p : Nat) (tx domB : Bool) (msgType seqId : Nat) (m : Chip) (h0 : P
    m) : P (Chip.pushTs p tx domB msgType seqId m) := by
  unfold Chip.pushTs
  try dsimp only
  repeat' (first | with_reducible assumption | with_reducible apply keep_Chip_setFlag K
                 | with_reducible apply keep_Chip_bump K | with_reducible apply keep_Chip_setEthPort K
                 | with_reducible apply keep_ite (P := P) | with_reducible refine keep_lit K _ ?_ rfl rfl rfl rfl rfl rfl)

theorem keep_ptpMessage {P : Chip → Prop} (K : Keep P) (dt p msgType domain seqId : Nat) (offset : Option Int) (m0 : Chip)
    (h0 : P m0) : P (ptpMessage dt p msgType domain seqId offset m0) := by
  unfold ptpMessage
  try dsimp only
  repeat' (first | with_reducible assumption | with_reducible apply keep_Chip_bump K | with_reducible apply keep_Chip_emit K
                 | with_reducible apply keep_elapse K | with_reducible apply keep_Chip_setRef K
                 | with_reducible apply keep_Chip_refsUpdate K | with_reducible apply keep_Chip_pushTs K
                 | with_reducible apply keep_ite (P := P) | split
                 | with_reducible refine keep_lit K _ ?_ rfl rfl rfl rfl rfl rfl)

theorem keep_ptpDelayRequest {P : Chip → Prop} (K : Keep P) (dt p domain : Nat) (peer : Bool) (m0 : Chip) (h0 : P m0) : P
    (ptpDelayRequest dt p domain peer m0) := by
  unfold ptpDelayRequest
  try dsimp only
  repeat' (first | with_reducible assumption | with_reducible apply keep_Chip_bump K | with_reducible apply keep_Chip_emit K
                 | with_reducible apply keep_elapse K | with_reducible apply keep_Chip_setEthPort K
                 | with_reducible apply keep_Chip_pushTs K | with_reducible apply keep_ite (P := P)
                 | with_reducible refine keep_lit K _ ?_ rfl rfl rfl rfl rfl rfl)

theorem keep_ppsInEdge {P : Chip → Prop} (K : Keep P) (dt : Nat) (m0 : Chip) (h0 : P m0) : P (ppsInEdge dt m0) := by
  unfold ppsInEdge
  try dsimp only
  repeat' (first | with_reducible assumption | (intro _) | with_reducible apply keep_Chip_wr K
                 | with_reducible apply keep_Chip_wr64 K | with_reducible apply keep_elapse K
                 | with_reducible apply keep_Chip_take K | with_reducible apply keep_Chip_onTime K
                 | with_reducible apply keep_Chip_setRef K | with_reducible apply keep_Chip_refsUpdate K
                 | with_reducible refine keep_lit K _ ?_ rfl rfl rfl rfl rfl rfl)

theorem keep_ppsMissing {P : Chip → Prop} (K : Keep P) (dt : Nat) (m0 : Chip) (h0 : P m0) : P (ppsMissing dt m0) := by
  unfold ppsMissing
  try dsimp only
  repeat' (first | with_reducible assumption | (intro _) | with_reducible apply keep_Chip_setFlag K
                 | with_reducible apply keep_Chip_bump K | with_reducible apply keep_elapse K
                 | with_reducible apply keep_Chip_onTime K | with_reducible apply keep_Chip_refsUpdate K
                 | with_reducible apply keep_ite (P := P) | split
                 | with_reducible refine keep_lit K _ ?_ rfl rfl rfl rfl rfl rfl)

theorem keep_ppsOutSecond {P : Chip → Prop} (K : Keep P) (dt : Nat) (m0 : Chip) (h0 : P m0) : P (ppsOutSecond dt m0) := by
  unfold ppsOutSecond
  try dsimp only
  repeat' (first | with_reducible assumption | (intro _) | with_reducible apply keep_Chip_emit K
                 | with_reducible apply keep_elapse K | with_reducible apply keep_Chip_onTime K
                 | with_reducible apply keep_ite (P := P) | split
                 | with_reducible refine keep_lit K _ ?_ rfl rfl rfl rfl rfl rfl)

end Sys2Proof.Laws
end

