-- ==== Sys2Proof/Laws/Keep/Boot.lean ====
section
/-!
SUPPORT. Sys2Proof/Laws/Keep/Boot.lean: the definitions of Machine/Boot.lean keep what the primitive changes keep.
-/
namespace Sys2Proof.Laws
open Sys2Proof.Machine

theorem keep_Chip_rejectStick {P : Chip → Prop} (K : Keep P) (code seg : Nat) (m : Chip) (h0 : P m) : P (Chip.rejectStick
    code seg m) := by
  unfold Chip.rejectStick
  try dsimp only
  repeat' (first | with_reducible assumption | (intro _) | with_reducible apply keep_Chip_put K
                 | with_reducible apply keep_Chip_setFlagIf K | with_reducible apply keep_Chip_bump K
                 | with_reducible apply keep_Chip_log K | with_reducible apply keep_Chip_enterSafe K
                 | with_reducible apply keep_Chip_onBoot K | with_reducible apply keep_Chip_setPhase K | split
                 | with_reducible refine keep_lit K _ ?_ rfl rfl rfl rfl rfl rfl)

theorem keep_Chip_verifyImage {P : Chip → Prop} (K : Keep P) (i : Image) (m : Chip) (h0 : P m) : P (Chip.verifyImage i m) :=
    by
  unfold Chip.verifyImage
  try dsimp only
  repeat' (first | with_reducible assumption | (intro _) | with_reducible apply keep_Chip_put K
                 | with_reducible apply keep_Chip_bumpBy K | with_reducible apply keep_Chip_onBoot K
                 | with_reducible apply keep_Chip_rejectStick K | with_reducible apply keep_ite (P := P)
                 | with_reducible refine keep_lit K _ ?_ rfl rfl rfl rfl rfl rfl)

theorem keep_Chip_readSegment {P : Chip → Prop} (K : Keep P) (x : SegRec) (m : Chip) (h0 : P m) : P (Chip.readSegment x m)
    := by
  unfold Chip.readSegment
  try dsimp only
  repeat' (first | with_reducible assumption | (intro _) | with_reducible apply keep_Chip_setFlagIf K
                 | with_reducible apply keep_Chip_putBytes K | with_reducible apply keep_Chip_onTrust K
                 | with_reducible apply keep_Chip_rejectStick K | with_reducible apply keep_ite (P := P) | dsimp only
                 | with_reducible exact rfl | with_reducible refine keep_lit K _ ?_ rfl rfl rfl rfl rfl rfl)

theorem keep_Chip_loadSegments {P : Chip → Prop} (K : Keep P) (l : List SegRec) (m0 : Chip) (h0 : P m0) : P
    (Chip.loadSegments l m0) := by
  unfold Chip.loadSegments
  try dsimp only
  repeat' (first | with_reducible assumption | (intro _) | with_reducible apply keep_Chip_put K
                 | with_reducible apply keep_Chip_readSegment K | with_reducible apply keep_forAll (P := P)
                 | with_reducible apply keep_ite (P := P))

theorem keep_Chip_stickDefaults {P : Chip → Prop} (K : Keep P) (m : Chip) (h0 : P m) : P (Chip.stickDefaults m) := by
  unfold Chip.stickDefaults
  try dsimp only
  repeat' (first | with_reducible assumption | (intro _) | with_reducible apply keep_Chip_wr K
                 | with_reducible apply keep_forAll (P := P) | dsimp only | split)

theorem keep_Chip_applyEntry {P : Chip → Prop} (K : Keep P) (e : Nat × Nat × Nat) (m : Chip) (h0 : P m) : P (Chip.applyEntry
    e m) := by
  unfold Chip.applyEntry
  try dsimp only
  repeat' (first | with_reducible assumption | (intro _) | with_reducible apply keep_Chip_wr K
                 | with_reducible apply keep_foldl (P := P) | with_reducible apply keep_foldl2 (P := P)
                 | with_reducible apply keep_ite (P := P) | dsimp only
                 | with_reducible refine keep_lit K _ ?_ rfl rfl rfl rfl rfl rfl)

theorem keep_Chip_clearExt {P : Chip → Prop} (K : Keep P) (n : Nat) (m : Chip) (h0 : P m) : P (Chip.clearExt n m) := by
  unfold Chip.clearExt
  try dsimp only
  repeat' (first | with_reducible assumption | with_reducible apply keep_Chip_wr K)

theorem keep_Chip_fillCamera {P : Chip → Prop} (K : Keep P) (c : CameraRec) (m0 : Chip) (h0 : P m0) : P (Chip.fillCamera c
    m0) := by
  unfold Chip.fillCamera
  try dsimp only
  repeat' (first | with_reducible assumption | (intro _) | with_reducible apply keep_Chip_put K
                 | with_reducible apply keep_lineTimeout K | with_reducible apply keep_Chip_clearExt K
                 | with_reducible apply keep_forAll (P := P) | with_reducible apply keep_ite (P := P) | split)

theorem keep_Chip_fillJob {P : Chip → Prop} (K : Keep P) (j : JobRec) (m : Chip) (h0 : P m) : P (Chip.fillJob j m) := by
  unfold Chip.fillJob
  try dsimp only
  repeat' (first | with_reducible assumption | with_reducible apply keep_Chip_put K
                 | with_reducible apply keep_Chip_setJobRun K | with_reducible refine keep_lit K _ ?_ rfl rfl rfl rfl rfl rfl)

theorem keep_Chip_fillPort {P : Chip → Prop} (K : Keep P) (p : Nat) (x : NetPort) (m : Chip) (h0 : P m) : P (Chip.fillPort p
    x m) := by
  unfold Chip.fillPort
  try dsimp only
  repeat' (first | with_reducible assumption | with_reducible apply keep_Chip_wr K | with_reducible apply keep_Chip_put K)

theorem keep_Chip_fillMap {P : Chip → Prop} (K : Keep P) (v : MapRec) (m : Chip) (h0 : P m) : P (Chip.fillMap v m) := by
  unfold Chip.fillMap
  try dsimp only
  repeat' (first | with_reducible assumption | with_reducible apply keep_Chip_put K | with_reducible apply keep_ite (P := P))

theorem keep_Chip_startSeverities {P : Chip → Prop} (K : Keep P) (m : Chip) (h0 : P m) : P (Chip.startSeverities m) := by
  unfold Chip.startSeverities
  try dsimp only
  repeat' (first | with_reducible assumption | (intro _) | with_reducible apply keep_Chip_put K
                 | with_reducible apply keep_forAll (P := P) | with_reducible apply keep_ite (P := P))

theorem keep_Chip_startPipe {P : Chip → Prop} (K : Keep P) (c : CameraRec) (m : Chip) (h0 : P m) : P (Chip.startPipe c m) :=
    by
  unfold Chip.startPipe
  try dsimp only
  repeat' (first | with_reducible assumption | (intro _) | with_reducible apply keep_Chip_put K
                 | with_reducible apply keep_Chip_setPipe K | with_reducible apply keep_forAll (P := P)
                 | with_reducible refine keep_lit K _ ?_ rfl rfl rfl rfl rfl rfl)

theorem keep_Chip_takeRole {P : Chip → Prop} (K : Keep P) (m : Chip) (h0 : P m) : P (Chip.takeRole m) := by
  unfold Chip.takeRole
  try dsimp only
  repeat' (first | with_reducible assumption | (intro _) | with_reducible apply keep_Chip_put K
                 | with_reducible apply keep_Chip_onBoot K | with_reducible apply keep_ite (P := P)
                 | with_reducible refine keep_lit K _ ?_ rfl rfl rfl rfl rfl rfl)

theorem keep_Chip_applyContent {P : Chip → Prop} (K : Keep P) (i : Image) (m0 : Chip) (h0 : P m0) : P (Chip.applyContent i
    m0) := by
  unfold Chip.applyContent
  try dsimp only
  repeat' (first | with_reducible assumption | (intro _) | with_reducible apply keep_Chip_put K
                 | with_reducible apply keep_Chip_onTrust K | with_reducible apply keep_Chip_putCal K
                 | with_reducible apply keep_Chip_stickDefaults K | with_reducible apply keep_Chip_applyEntry K
                 | with_reducible apply keep_Chip_fillCamera K | with_reducible apply keep_Chip_fillJob K
                 | with_reducible apply keep_Chip_fillPort K | with_reducible apply keep_Chip_fillMap K
                 | with_reducible apply keep_Chip_startSeverities K | with_reducible apply keep_Chip_startPipe K
                 | with_reducible apply keep_Chip_takeRole K | with_reducible apply keep_forAll (P := P) | dsimp only | split
                 | with_reducible exact rfl | with_reducible refine keep_lit K _ ?_ rfl rfl rfl rfl rfl rfl)

theorem keep_Chip_tamperAct {P : Chip → Prop} (K : Keep P) (resp : Nat) (m : Chip) (h0 : P m) : P (Chip.tamperAct resp m) :=
    by
  unfold Chip.tamperAct
  try dsimp only
  repeat' (first | with_reducible assumption | (intro _) | with_reducible apply keep_Chip_onTrust K
                 | with_reducible apply keep_Chip_replaceKeys K | with_reducible apply keep_Chip_coldReset K
                 | with_reducible apply keep_ite (P := P) | with_reducible exact rfl
                 | with_reducible refine keep_lit K _ ?_ rfl rfl rfl rfl rfl rfl)

theorem keep_Chip_applyRecords {P : Chip → Prop} (K : Keep P) (i : Image) (m : Chip) (h0 : P m) : P (Chip.applyRecords i m)
    := by
  unfold Chip.applyRecords
  try dsimp only
  repeat' (first | with_reducible assumption | (intro _) | with_reducible apply keep_Chip_setEng K
                 | with_reducible apply keep_Chip_setDomain K | with_reducible apply keep_Chip_showBent K
                 | with_reducible apply keep_Chip_recommit K | with_reducible apply keep_Chip_onBoot K
                 | with_reducible apply keep_Chip_rejectStick K | with_reducible apply keep_Chip_applyContent K
                 | with_reducible apply keep_Chip_tamperAct K | with_reducible apply keep_forAll (P := P)
                 | with_reducible apply keep_ite (P := P) | with_reducible refine keep_lit K _ ?_ rfl rfl rfl rfl rfl rfl)

theorem keep_Chip_bootFirmware {P : Chip → Prop} (K : Keep P) (m : Chip) (h0 : P m) : P (Chip.bootFirmware m) := by
  unfold Chip.bootFirmware
  try dsimp only
  repeat' (first | with_reducible assumption | (intro _) | with_reducible apply keep_Chip_put K
                 | with_reducible apply keep_Chip_setDomain K | with_reducible apply keep_Chip_onBoot K
                 | with_reducible apply keep_Chip_setPhase K | with_reducible apply keep_forAll (P := P)
                 | with_reducible apply keep_ite (P := P) | with_reducible refine keep_lit K _ ?_ rfl rfl rfl rfl rfl rfl)

theorem keep_Chip_trainMemory {P : Chip → Prop} (K : Keep P) (t : MemTrain) (m : Chip) (h0 : P m) : P (Chip.trainMemory t m)
    := by
  unfold Chip.trainMemory
  try dsimp only
  repeat' (first | with_reducible assumption | (intro _) | with_reducible apply keep_Chip_put K
                 | with_reducible apply keep_Chip_assert K | with_reducible apply keep_Chip_onBoot K
                 | with_reducible apply keep_Chip_setPhase K | with_reducible apply keep_ite (P := P)
                 | with_reducible refine keep_lit K _ ?_ rfl rfl rfl rfl rfl rfl)

theorem keep_Chip_startPorts {P : Chip → Prop} (K : Keep P) (m : Chip) (h0 : P m) : P (Chip.startPorts m) := by
  unfold Chip.startPorts
  try dsimp only
  repeat' (first | with_reducible assumption | (intro _) | with_reducible apply keep_Chip_put K
                 | with_reducible apply keep_Chip_setPeg K | with_reducible apply keep_Chip_refreshOutputs K
                 | with_reducible apply keep_Chip_setCamState K | with_reducible apply keep_Chip_beginBringUp K
                 | with_reducible apply keep_Chip_refreshIn K | with_reducible apply keep_Chip_refreshGroups K
                 | with_reducible apply keep_Chip_startFan K | with_reducible apply keep_Chip_onBoot K
                 | with_reducible apply keep_Chip_setPhase K | with_reducible apply keep_forAll (P := P)
                 | with_reducible apply keep_ite (P := P) | with_reducible refine keep_lit K _ ?_ rfl rfl rfl rfl rfl rfl)

theorem keep_Chip_bootStep {P : Chip → Prop} (K : Keep P) (n : Nat) (img : Image) (t : MemTrain) (m : Chip) (h0 : P m) : P
    (Chip.bootStep n img t m) := by
  unfold Chip.bootStep
  try dsimp only
  repeat' (first | with_reducible assumption | (intro _) | with_reducible apply keep_Chip_put K
                 | with_reducible apply keep_Chip_onBoot K | with_reducible apply keep_Chip_setPhase K
                 | with_reducible apply keep_Chip_verifyImage K | with_reducible apply keep_Chip_loadSegments K
                 | with_reducible apply keep_Chip_applyRecords K | with_reducible apply keep_Chip_bootFirmware K
                 | with_reducible apply keep_Chip_trainMemory K | with_reducible apply keep_Chip_startPorts K
                 | with_reducible apply keep_ite (P := P) | split
                 | with_reducible refine keep_lit K _ ?_ rfl rfl rfl rfl rfl rfl)

theorem keep_Chip_bootSteps {P : Chip → Prop} (K : Keep P) (l : List Nat) (upTo_ : Nat) (img : Image) (t : MemTrain) (m :
    Chip) (h0 : P m) : P (Chip.bootSteps l upTo_ img t m) := by
  unfold Chip.bootSteps
  try dsimp only
  repeat' (first | with_reducible assumption | (intro _) | with_reducible apply keep_Chip_bootStep K
                 | with_reducible apply keep_forAll (P := P) | with_reducible apply keep_ite (P := P))

theorem keep_optionLoad {P : Chip → Prop} (K : Keep P) (dt : Nat) (fail : Bool) (fwHash : Nat) (m0 : Chip) (h0 : P m0) : P
    (optionLoad dt fail fwHash m0) := by
  unfold optionLoad
  try dsimp only
  repeat' (first | with_reducible assumption | (intro _) | with_reducible apply keep_elapse K
                 | with_reducible apply keep_Chip_onBoot K | with_reducible apply keep_Chip_setPhase K
                 | with_reducible apply keep_ite (P := P) | split
                 | with_reducible refine keep_lit K _ ?_ rfl rfl rfl rfl rfl rfl)

theorem keep_coldStart {P : Chip → Prop} (K : Keep P) (dt : Nat) (img : Image) (t : MemTrain) (last : Nat) (m0 : Chip) (h0 :
    P m0) : P (coldStart dt img t last m0) := by
  unfold coldStart
  try dsimp only
  repeat' (first | with_reducible assumption | with_reducible apply keep_elapse K | with_reducible apply keep_Chip_bootSteps K
                 | with_reducible apply keep_ite (P := P) | split)

theorem keep_warmRestart {P : Chip → Prop} (K : Keep P) (dt : Nat) (fwOk : Bool) (img : Image) (last : Nat) (m0 : Chip) (h0
    : P m0) : P (warmRestart dt fwOk img last m0) := by
  unfold warmRestart
  try dsimp only
  repeat' (first | with_reducible assumption | (intro _) | with_reducible apply keep_elapse K
                 | with_reducible apply keep_Chip_onBoot K | with_reducible apply keep_Chip_setPhase K
                 | with_reducible apply keep_Chip_bootSteps K | with_reducible apply keep_ite (P := P) | split
                 | with_reducible refine keep_lit K _ ?_ rfl rfl rfl rfl rfl rfl)

theorem keep_Chip_beginBays {P : Chip → Prop} (K : Keep P) (m : Chip) (h0 : P m) : P (Chip.beginBays m) := by
  unfold Chip.beginBays
  try dsimp only
  repeat' (first | with_reducible assumption | (intro _) | with_reducible apply keep_Chip_encBayLatch K
                 | with_reducible apply keep_Chip_jobBoundary K | with_reducible apply keep_Chip_setPhase K
                 | with_reducible apply keep_forAll (P := P) | with_reducible apply keep_foldl (P := P)
                 | with_reducible apply keep_foldl2 (P := P) | dsimp only
                 | with_reducible refine keep_lit K _ ?_ rfl rfl rfl rfl rfl rfl)

theorem keep_Chip_loadTb3 {P : Chip → Prop} (K : Keep P) (m : Chip) (h0 : P m) : P (Chip.loadTb3 m) := by
  unfold Chip.loadTb3
  try dsimp only
  repeat' (first | with_reducible assumption | (intro _) | with_reducible apply keep_Chip_onTime K
                 | with_reducible refine keep_lit K _ ?_ rfl rfl rfl rfl rfl rfl)

theorem keep_baysStart {P : Chip → Prop} (K : Keep P) (dt : Nat) (m0 : Chip) (h0 : P m0) : P (baysStart dt m0) := by
  unfold baysStart
  try dsimp only
  repeat' (first | with_reducible assumption | with_reducible apply keep_Chip_put K | with_reducible apply keep_Chip_log K
                 | with_reducible apply keep_elapse K | with_reducible apply keep_Chip_beginBays K
                 | with_reducible apply keep_Chip_loadTb3 K | with_reducible apply keep_ite (P := P))

theorem keep_timeWaitExpiry {P : Chip → Prop} (K : Keep P) (dt : Nat) (m0 : Chip) (h0 : P m0) : P (timeWaitExpiry dt m0) :=
    by
  unfold timeWaitExpiry
  try dsimp only
  repeat' (first | with_reducible assumption | with_reducible apply keep_Chip_setFlag K | with_reducible apply keep_elapse K
                 | with_reducible apply keep_Chip_beginBays K | with_reducible apply keep_ite (P := P))

theorem keep_safeExit {P : Chip → Prop} (K : Keep P) (dt : Nat) (m0 : Chip) (h0 : P m0) : P (safeExit dt m0) := by
  unfold safeExit
  try dsimp only
  repeat' (first | with_reducible assumption | (intro _) | with_reducible apply keep_Chip_wr K
                 | with_reducible apply keep_Chip_put K | with_reducible apply keep_elapse K
                 | with_reducible apply keep_Chip_setPeg K | with_reducible apply keep_Chip_refreshOutputs K
                 | with_reducible apply keep_Chip_setMode K | with_reducible apply keep_Chip_enterSafe K
                 | with_reducible apply keep_Chip_onBoot K | with_reducible apply keep_forAll (P := P)
                 | with_reducible apply keep_ite (P := P) | with_reducible refine keep_lit K _ ?_ rfl rfl rfl rfl rfl rfl)

theorem keep_Chip_promoteWrite {P : Chip → Prop} (K : Keep P) (m : Chip) (h0 : P m) : P (Chip.promoteWrite m).2 := by
  unfold Chip.promoteWrite
  try dsimp only
  repeat' (first | with_reducible assumption | (intro _) | with_reducible apply keep_Chip_put K
                 | with_reducible apply keep_Chip_setFlag K | with_reducible apply keep_Chip_log K
                 | with_reducible apply keep_Chip_refreshOutputs K | with_reducible apply keep_Chip_beginBringUp K
                 | with_reducible apply keep_Chip_onBoot K | with_reducible apply keep_forAll (P := P)
                 | with_reducible apply keep_ite (P := P) | split
                 | with_reducible refine keep_lit K _ ?_ rfl rfl rfl rfl rfl rfl)

theorem keep_promote {P : Chip → Prop} (K : Keep P) (dt : Nat) (a : Auth) (m : Chip) (h0 : P m) : P (promote dt a m) := by
  unfold promote
  try dsimp only
  repeat' (first | with_reducible assumption | (intro _) | with_reducible apply keep_elapse K
                 | with_reducible apply keep_Chip_signed K | with_reducible apply keep_Chip_promoteWrite K)

end Sys2Proof.Laws
end

