-- ==== Sys2Proof/Laws/Keep/Peg.lean ====
section
/-!
SUPPORT. Sys2Proof/Laws/Keep/Peg.lean: the definitions of Machine/Peg.lean keep what the primitive changes keep.
-/
namespace Sys2Proof.Laws
open Sys2Proof.Machine

theorem keep_Chip_forceValve {P : Chip → Prop} (K : Keep P) (p v : Nat) (m : Chip) (h0 : P m) : P (Chip.forceValve p v m) :=
    by
  unfold Chip.forceValve
  try dsimp only
  repeat' (first | with_reducible assumption | (intro _) | with_reducible apply keep_Chip_setFlag K
                 | with_reducible apply keep_Chip_bump K | with_reducible apply keep_Chip_setPeg K
                 | with_reducible apply keep_Chip_setQueue K | with_reducible apply keep_Chip_entryCancelled K
                 | with_reducible apply keep_Chip_raise K | with_reducible apply keep_forAll (P := P) | dsimp only
                 | with_reducible refine keep_lit K _ ?_ rfl rfl rfl rfl rfl rfl)

theorem keep_Chip_forceDue {P : Chip → Prop} (K : Keep P) (p : Nat) (m : Chip) (h0 : P m) : P (Chip.forceDue p m) := by
  unfold Chip.forceDue
  try dsimp only
  repeat' (first | with_reducible assumption | (intro _) | with_reducible apply keep_Chip_forceValve K
                 | with_reducible apply keep_forAll (P := P) | with_reducible apply keep_ite (P := P) | dsimp only)

theorem keep_Chip_applyPortEn {P : Chip → Prop} (K : Keep P) (p : Nat) (m : Chip) (h0 : P m) : P (Chip.applyPortEn p m) :=
    by
  unfold Chip.applyPortEn
  try dsimp only
  repeat' (first | with_reducible assumption | (intro _) | with_reducible apply keep_Chip_setPeg K
                 | with_reducible apply keep_Chip_cancelIn K | with_reducible apply keep_Chip_dropResvs K
                 | with_reducible apply keep_ite (P := P) | with_reducible refine keep_lit K _ ?_ rfl rfl rfl rfl rfl rfl)

theorem keep_Chip_sealClosed {P : Chip → Prop} (K : Keep P) (p slot : Nat) (safe : Bool) (m : Chip) (h0 : P m) : P
    (Chip.sealClosed p slot safe m) := by
  unfold Chip.sealClosed
  try dsimp only
  repeat' (first | with_reducible assumption | with_reducible apply keep_Chip_put K | with_reducible apply keep_Chip_bump K
                 | with_reducible apply keep_Chip_emit K | with_reducible apply keep_Chip_setPeg K
                 | with_reducible apply keep_ite (P := P) | with_reducible refine keep_lit K _ ?_ rfl rfl rfl rfl rfl rfl)

theorem keep_Chip_sealNormal {P : Chip → Prop} (K : Keep P) (p slot since : Nat) (rise : Bool) (m : Chip) (h0 : P m) : P
    (Chip.sealNormal p slot since rise m) := by
  unfold Chip.sealNormal
  try dsimp only
  repeat' (first | with_reducible assumption | (intro _) | with_reducible apply keep_Chip_put K
                 | with_reducible apply keep_Chip_setFlagIf K | with_reducible apply keep_Chip_bumpBy K
                 | with_reducible apply keep_Chip_bump K | with_reducible apply keep_Chip_bumpIf K
                 | with_reducible apply keep_Chip_emit K | with_reducible apply keep_Chip_setPeg K
                 | with_reducible apply keep_Chip_setQueue K | with_reducible apply keep_Chip_entryLeaves K
                 | with_reducible apply keep_Chip_onFire K | with_reducible apply keep_forAll (P := P)
                 | with_reducible apply keep_ite (P := P) | dsimp only | split
                 | with_reducible refine keep_lit K _ ?_ rfl rfl rfl rfl rfl rfl)

theorem keep_slotSeal {P : Chip → Prop} (K : Keep P) (dt p : Nat) (m0 : Chip) (h0 : P m0) : P (slotSeal dt p m0) := by
  unfold slotSeal
  try dsimp only
  repeat' (first | with_reducible assumption | with_reducible apply keep_elapse K | with_reducible apply keep_Chip_setPeg K
                 | with_reducible apply keep_Chip_forceDue K | with_reducible apply keep_Chip_applyPortEn K
                 | with_reducible apply keep_Chip_sealClosed K | with_reducible apply keep_Chip_sealNormal K
                 | with_reducible apply keep_ite (P := P) | split
                 | with_reducible refine keep_lit K _ ?_ rfl rfl rfl rfl rfl rfl)

theorem keep_forcedClose {P : Chip → Prop} (K : Keep P) (dt p v : Nat) (m0 : Chip) (h0 : P m0) : P (forcedClose dt p v m0)
    := by
  unfold forcedClose
  try dsimp only
  repeat' (first | with_reducible assumption | with_reducible apply keep_elapse K
                 | with_reducible apply keep_Chip_forceValve K | with_reducible apply keep_ite (P := P))

theorem keep_Chip_bankFlags {P : Chip → Prop} (K : Keep P) (p old : Nat) (f : StatusFrame) (m : Chip) (h0 : P m) : P
    (Chip.bankFlags p old f m) := by
  unfold Chip.bankFlags
  try dsimp only
  repeat' (first | with_reducible assumption | (intro _) | with_reducible apply keep_Chip_setFlagIf K
                 | with_reducible apply keep_Chip_bumpIf K | with_reducible apply keep_Chip_raiseIf K | split)

theorem keep_Chip_takeover {P : Chip → Prop} (K : Keep P) (m : Chip) (h0 : P m) : P (Chip.takeover m) := by
  unfold Chip.takeover
  try dsimp only
  repeat' (first | with_reducible assumption | with_reducible apply keep_Chip_put K
                 | with_reducible apply keep_Chip_enterFireOut K | with_reducible apply keep_ite (P := P))

theorem keep_statusFrame {P : Chip → Prop} (K : Keep P) (dt p : Nat) (f : StatusFrame) (m0 : Chip) (h0 : P m0) : P
    (statusFrame dt p f m0) := by
  unfold statusFrame
  try dsimp only
  repeat' (first | with_reducible assumption | with_reducible apply keep_Chip_wr K | with_reducible apply keep_Chip_put K
                 | with_reducible apply keep_Chip_setFlag K | with_reducible apply keep_Chip_setFlagIf K
                 | with_reducible apply keep_Chip_bump K | with_reducible apply keep_elapse K
                 | with_reducible apply keep_Chip_setPeg K | with_reducible apply keep_Chip_raiseIf K
                 | with_reducible apply keep_Chip_bankFlags K | with_reducible apply keep_Chip_takeover K
                 | with_reducible apply keep_ite (P := P) | split
                 | with_reducible refine keep_lit K _ ?_ rfl rfl rfl rfl rfl rfl)

theorem keep_statusDeadline {P : Chip → Prop} (K : Keep P) (dt p : Nat) (m0 : Chip) (h0 : P m0) : P (statusDeadline dt p m0)
    := by
  unfold statusDeadline
  try dsimp only
  repeat' (first | with_reducible assumption | with_reducible apply keep_Chip_setFlag K
                 | with_reducible apply keep_Chip_bump K | with_reducible apply keep_elapse K
                 | with_reducible apply keep_Chip_setPeg K | with_reducible apply keep_Chip_raise K
                 | with_reducible apply keep_ite (P := P) | split
                 | with_reducible refine keep_lit K _ ?_ rfl rfl rfl rfl rfl rfl)

theorem keep_pegPortEn {P : Chip → Prop} (K : Keep P) (p : Nat) (en : Bool) (m : Chip) (h0 : P m) : P (pegPortEn p en m) :=
    by
  unfold pegPortEn
  try dsimp only
  repeat' (first | with_reducible assumption | with_reducible apply keep_Chip_put K)

theorem keep_fullStateRequest {P : Chip → Prop} (K : Keep P) (p : Nat) (m : Chip) (h0 : P m) : P (fullStateRequest p m) :=
    by
  unfold fullStateRequest
  try dsimp only
  repeat' (first | with_reducible assumption | with_reducible apply keep_Chip_setPeg K
                 | with_reducible refine keep_lit K _ ?_ rfl rfl rfl rfl rfl rfl)

end Sys2Proof.Laws
end

