-- ==== Sys2Proof/Laws/Keep/Trust.lean ====
section
/-!
SUPPORT. Sys2Proof/Laws/Keep/Trust.lean: the definitions of Machine/Trust.lean keep what the primitive changes keep.
-/
namespace Sys2Proof.Laws
open Sys2Proof.Machine

theorem keep_tamperEvent {P : Chip → Prop} (K : Keep P) (dt : Nat) (isOpen : Bool) (m0 : Chip) (h0 : P m0) : P (tamperEvent
    dt isOpen m0) := by
  unfold tamperEvent
  try dsimp only
  repeat' (first | with_reducible assumption | (intro _) | with_reducible apply keep_Chip_put K
                 | with_reducible apply keep_Chip_setFlag K | with_reducible apply keep_Chip_bump K
                 | with_reducible apply keep_Chip_log K | with_reducible apply keep_elapse K
                 | with_reducible apply keep_Chip_raise K | with_reducible apply keep_Chip_onTrust K
                 | with_reducible apply keep_Chip_tamperAct K | with_reducible apply keep_ite (P := P) | split
                 | with_reducible exact rfl | with_reducible refine keep_lit K _ ?_ rfl rfl rfl rfl rfl rfl)

theorem keep_Chip_onFuses {P : Chip → Prop} (K : Keep P) (f : FuseState → FuseState) (m : Chip) (h0 : P m)
    (hf : FuseStep m.trust.fuses (f m.trust.fuses)) : P (Chip.onFuses f m) := K.fuse m _ h0 hf

theorem keep_commissioning {P : Chip → Prop} (K : Keep P) (dt : Nat) (a : Auth) (hash : Nat) (m : Chip) (h0 : P m) : P
    (commissioning dt a hash m) := by
  unfold commissioning
  refine keep_Chip_signedIn K _ _ _ _ _ _ (keep_elapse K _ _ h0) ?_
  intro x hl hx
  have hl' : x.trust.fuses.lifecycle = 1 := by simpa using hl
  try dsimp only
  split
  · exact hx
  · next hc => exact K.fuse x _ hx (.commission hash hl')

theorem keep_ownerRotation {P : Chip → Prop} (K : Keep P) (dt : Nat) (a : Auth) (hash : Nat) (m : Chip) (h0 : P m) : P
    (ownerRotation dt a hash m) := by
  unfold ownerRotation
  refine keep_Chip_signed K _ _ _ _ _ (keep_elapse K _ _ h0) ?_
  intro x hl hx
  have hl' : x.trust.fuses.lifecycle = 3 := by simpa using hl
  try dsimp only
  split
  · exact hx
  · next hc => exact K.fuse x _ hx (.rotate hash hl' (by omega))

theorem keep_decommissioning {P : Chip → Prop} (K : Keep P) (dt : Nat) (a : Auth) (m : Chip) (h0 : P m) : P (decommissioning
    dt a m) := by
  unfold decommissioning
  refine keep_Chip_signed K _ _ _ _ _ (keep_elapse K _ _ h0) ?_
  intro x hl hx
  have hl' : x.trust.fuses.lifecycle = 3 := by simpa using hl
  try dsimp only
  exact K.fuse x _ hx (.decommission hl')

theorem keep_antiRollbackAdvance {P : Chip → Prop} (K : Keep P) (dt : Nat) (a : Auth) (v written : Nat) (m : Chip) (h0 : P
    m) : P (antiRollbackAdvance dt a v written m) := by
  unfold antiRollbackAdvance
  refine keep_Chip_signed K _ _ _ _ _ (keep_elapse K _ _ h0) ?_
  intro x hl hx
  have hl' : x.trust.fuses.lifecycle = 3 := by simpa using hl
  try dsimp only
  split
  · exact hx
  · next hc => exact K.fuse x _ hx (.advance v written (by omega) (by omega))

theorem keep_debugUnlock {P : Chip → Prop} (K : Keep P) (dt : Nat) (a : Auth) (sill ridge : Bool) (m : Chip) (h0 : P m) : P
    (debugUnlock dt a sill ridge m) := by
  unfold debugUnlock
  try dsimp only
  repeat' (first | with_reducible assumption | (intro _) | with_reducible apply keep_Chip_put K
                 | with_reducible apply keep_elapse K | with_reducible apply keep_Chip_onTrust K
                 | with_reducible apply keep_Chip_signed K | with_reducible apply keep_Chip_tamperAct K | split
                 | with_reducible exact rfl | with_reducible refine keep_lit K _ ?_ rfl rfl rfl rfl rfl rfl)

theorem keep_boundaryScanInstruction {P : Chip → Prop} (K : Keep P) (dt : Nat) (instr : Nat) (pins : List (Nat × Bool)) (m0
    : Chip) (h0 : P m0) : P (boundaryScanInstruction dt instr pins m0) := by
  unfold boundaryScanInstruction
  try dsimp only
  repeat' (first | with_reducible assumption | (intro _) | with_reducible apply keep_Chip_emit K
                 | with_reducible apply keep_Chip_draw K | with_reducible apply keep_elapse K
                 | with_reducible apply keep_forAll (P := P) | with_reducible apply keep_ite (P := P) | dsimp only | split)

theorem keep_Chip_closeSession {P : Chip → Prop} (K : Keep P) (id : Nat) (m : Chip) (h0 : P m) : P (Chip.closeSession id m)
    := by
  unfold Chip.closeSession
  try dsimp only
  repeat' (first | with_reducible assumption | (intro _) | with_reducible apply keep_Chip_onTrust K | with_reducible exact rfl
                 | with_reducible refine keep_lit K _ ?_ rfl rfl rfl rfl rfl rfl)

theorem keep_sessionOpen {P : Chip → Prop} (K : Keep P) (dt p level certHash : Nat) (certOk : Bool) (m0 : Chip) (h0 : P m0)
    : P (sessionOpen dt p level certHash certOk m0) := by
  unfold sessionOpen
  try dsimp only
  repeat' (first | with_reducible assumption | (intro _) | with_reducible apply keep_Chip_bump K
                 | with_reducible apply keep_Chip_emit K | with_reducible apply keep_elapse K
                 | with_reducible apply keep_Chip_onTrust K | with_reducible apply keep_ite (P := P)
                 | with_reducible exact rfl | with_reducible refine keep_lit K _ ?_ rfl rfl rfl rfl rfl rfl)

theorem keep_sessionClose {P : Chip → Prop} (K : Keep P) (dt id : Nat) (m : Chip) (h0 : P m) : P (sessionClose dt id m) :=
    by
  unfold sessionClose
  try dsimp only
  repeat' (first | with_reducible assumption | with_reducible apply keep_elapse K
                 | with_reducible apply keep_Chip_closeSession K)

theorem keep_sessionIdleTimeout {P : Chip → Prop} (K : Keep P) (dt id : Nat) (m0 : Chip) (h0 : P m0) : P (sessionIdleTimeout
    dt id m0) := by
  unfold sessionIdleTimeout
  try dsimp only
  repeat' (first | with_reducible assumption | with_reducible apply keep_elapse K
                 | with_reducible apply keep_Chip_closeSession K | with_reducible apply keep_ite (P := P) | split)

theorem keep_challenge {P : Chip → Prop} (K : Keep P) (dt id : Nat) (m0 : Chip) (h0 : P m0) : P (challenge dt id m0) := by
  unfold challenge
  try dsimp only
  repeat' (first | with_reducible assumption | with_reducible apply keep_Chip_draw K | with_reducible apply keep_elapse K
                 | with_reducible apply keep_Chip_setSession K | with_reducible apply keep_Chip_touch K
                 | with_reducible apply keep_Chip_answer K | with_reducible apply keep_ite (P := P) | dsimp only | split
                 | with_reducible refine keep_lit K _ ?_ rfl rfl rfl rfl rfl rfl)

theorem keep_challengeExpiry {P : Chip → Prop} (K : Keep P) (dt : Nat) (m0 : Chip) (h0 : P m0) : P (challengeExpiry dt m0)
    := by
  unfold challengeExpiry
  try dsimp only
  repeat' (first | with_reducible assumption | (intro _) | with_reducible apply keep_elapse K
                 | with_reducible apply keep_Chip_onTrust K | with_reducible exact rfl
                 | with_reducible refine keep_lit K _ ?_ rfl rfl rfl rfl rfl rfl)

theorem keep_result {P : Chip → Prop} (K : Keep P) (dt id c : Nat) (m0 : Chip) (h0 : P m0) : P (result dt id c m0) := by
  unfold result
  try dsimp only
  repeat' (first | with_reducible assumption | (intro _) | with_reducible apply keep_elapse K
                 | with_reducible apply keep_Chip_touch K | with_reducible apply keep_Chip_answer K
                 | with_reducible apply keep_ite (P := P) | dsimp only | split)

theorem keep_attest {P : Chip → Prop} (K : Keep P) (dt id : Nat) (nonce : List Byte) (m0 : Chip) (h0 : P m0) : P (attest dt
    id nonce m0) := by
  unfold attest
  try dsimp only
  repeat' (first | with_reducible assumption | with_reducible apply keep_Chip_draw K | with_reducible apply keep_elapse K
                 | with_reducible apply keep_Chip_touch K | with_reducible apply keep_Chip_answer K | dsimp only | split)

theorem keep_logRead {P : Chip → Prop} (K : Keep P) (dt id first count : Nat) (bad : List Nat) (m0 : Chip) (h0 : P m0) : P
    (logRead dt id first count bad m0) := by
  unfold logRead
  try dsimp only
  repeat' (first | with_reducible assumption | (intro _) | with_reducible apply keep_Chip_setFlagIf K
                 | with_reducible apply keep_Chip_bumpBy K | with_reducible apply keep_elapse K
                 | with_reducible apply keep_Chip_touch K | with_reducible apply keep_Chip_reply K
                 | with_reducible apply keep_Chip_answer K | with_reducible apply keep_ite (P := P) | split)

end Sys2Proof.Laws
end

