-- ==== Sys2Proof/Laws/Keep/SillWrite.lean ====
section
/-!
SUPPORT. Sys2Proof/Laws/Keep/SillWrite.lean: the definitions of Machine/SillWrite.lean keep what the primitive changes keep.
-/
namespace Sys2Proof.Laws
open Sys2Proof.Machine

theorem keep_Chip_onOne {P : Chip → Prop} (_ : Keep P) (m : Chip) (mask v : Nat) (f : Fld) (eff : Chip → Chip) (h0 : P m)
    (h1 : ∀ x0, P x0 → P (eff x0)) : P (Chip.onOne m mask v f eff) := by
  unfold Chip.onOne
  try dsimp only
  repeat' (first | with_reducible assumption | (intro _) | with_reducible apply h1 | with_reducible apply keep_ite (P := P))

theorem keep_Chip_supCtrlWrite {P : Chip → Prop} (K : Keep P) (mask v : Nat) (m : Chip) (h0 : P m) : P (Chip.supCtrlWrite
    mask v m) := by
  unfold Chip.supCtrlWrite
  try dsimp only
  repeat' (first | with_reducible assumption | (intro _) | with_reducible apply keep_safeReq K
                 | with_reducible apply keep_fireOutReq K | with_reducible apply keep_resume K
                 | with_reducible apply keep_Chip_promoteWrite K | with_reducible apply keep_Chip_onOne K | dsimp only)

theorem keep_Chip_linkCtrlWrite {P : Chip → Prop} (K : Keep P) (n mask v : Nat) (m : Chip) (h0 : P m) : P
    (Chip.linkCtrlWrite n mask v m) := by
  unfold Chip.linkCtrlWrite
  try dsimp only
  repeat' (first | with_reducible assumption | (intro _) | with_reducible apply keep_reconnect K
                 | with_reducible apply keep_linkHold K | with_reducible apply keep_pocClear K
                 | with_reducible apply keep_Chip_onOne K | with_reducible apply keep_ite (P := P))

theorem keep_Chip_lpCtrlWrite {P : Chip → Prop} (K : Keep P) (n mask v : Nat) (m : Chip) (h0 : P m) : P (Chip.lpCtrlWrite n
    mask v m) := by
  unfold Chip.lpCtrlWrite
  try dsimp only
  repeat' (first | with_reducible assumption | (intro _) | with_reducible apply keep_Chip_put K
                 | with_reducible apply keep_Chip_onGang K | with_reducible apply keep_syncResetWrite K
                 | with_reducible apply keep_Chip_routeWrite K | with_reducible apply keep_Chip_onOne K
                 | with_reducible apply keep_ite (P := P) | dsimp only | split)

theorem keep_Chip_purCtrlWrite {P : Chip → Prop} (K : Keep P) (p mask v : Nat) (m : Chip) (h0 : P m) : P (Chip.purCtrlWrite
    p mask v m) := by
  unfold Chip.purCtrlWrite
  try dsimp only
  repeat' (first | with_reducible assumption | (intro _) | with_reducible apply keep_purlinRetrain K
                 | with_reducible apply keep_purlinHold K | with_reducible apply keep_lpiReenable K
                 | with_reducible apply keep_Chip_onOne K | with_reducible apply keep_ite (P := P))

theorem keep_Chip_pegCtrlWrite {P : Chip → Prop} (K : Keep P) (p mask v : Nat) (m : Chip) (h0 : P m) : P (Chip.pegCtrlWrite
    p mask v m) := by
  unfold Chip.pegCtrlWrite
  try dsimp only
  repeat' (first | with_reducible assumption | (intro _) | with_reducible apply keep_pegPortEn K
                 | with_reducible apply keep_fullStateRequest K | with_reducible apply keep_Chip_onOne K
                 | with_reducible apply keep_ite (P := P))

theorem keep_Chip_timeWrite {P : Chip → Prop} (K : Keep P) (a mask v : Nat) (m : Chip) (h0 : P m) : ∀ t, (Chip.timeWrite a
    mask v m) = some t → P t := by
  unfold Chip.timeWrite
  try dsimp only
  repeat' (first | with_reducible refine opt_some (P := P) ?_ | with_reducible exact opt_none | with_reducible refine opt_ite ?_ ?_ | with_reducible assumption | with_reducible apply keep_ite (P := P)
                 | with_reducible apply keep_tb0IncWrite K | with_reducible apply keep_tb0StepRequest K
                 | with_reducible apply keep_tb1Step K | with_reducible apply keep_acceptStep K
                 | with_reducible apply keep_Chip_onOne K | with_reducible apply keep_Chip_plainWrite K | (intro _))

theorem keep_Chip_singleWrite {P : Chip → Prop} (K : Keep P) (a mask v : Nat) (m : Chip) (h0 : P m) : ∀ t, (Chip.singleWrite
    a mask v m) = some t → P t := by
  unfold Chip.singleWrite
  try dsimp only
  repeat' (first | with_reducible refine opt_some (P := P) ?_ | with_reducible exact opt_none | with_reducible refine opt_ite ?_ ?_ | with_reducible assumption | with_reducible apply keep_ite (P := P)
                 | with_reducible apply keep_coldReq K | with_reducible apply keep_warmReq K
                 | with_reducible apply keep_softReset K | with_reducible apply keep_Chip_supCtrlWrite K
                 | with_reducible apply keep_kick K | with_reducible apply keep_degradeMaskWrite K
                 | with_reducible apply keep_fioOutWrite K | with_reducible apply keep_Chip_replaceKeys K
                 | with_reducible apply keep_tenonRetrain K | with_reducible apply keep_routeSwap K
                 | with_reducible apply keep_routeTableWrite K | with_reducible apply keep_Chip_onOne K | (intro _))

theorem keep_Chip_arrayWrite {P : Chip → Prop} (K : Keep P) (a mask v : Nat) (m : Chip) (h0 : P m) : ∀ t, (Chip.arrayWrite a
    mask v m) = some t → P t := by
  intro t ht
  unfold Chip.arrayWrite at ht
  repeat' (split at ht)
  all_goals first
    | contradiction
    | (rw [← Option.some.inj ht]
       repeat' (first | with_reducible assumption | (intro _) | with_reducible apply keep_pendingAck K
                      | with_reducible apply keep_Chip_pegCtrlWrite K | with_reducible apply keep_Chip_linkCtrlWrite K
                      | with_reducible apply keep_Chip_lpCtrlWrite K | with_reducible apply keep_replayStop K
                      | with_reducible apply keep_Chip_purCtrlWrite K | with_reducible apply keep_fanRetry K
                      | with_reducible apply keep_Chip_onOne K | with_reducible apply keep_Chip_onGang K
                      | with_reducible apply keep_Chip_plainWrite K | (intro _)))

theorem keep_Chip_sillWrite {P : Chip → Prop} (K : Keep P) (a mask v : Nat) (m : Chip) (h0 : P m) : P (Chip.sillWrite a mask
    v m) := by
  unfold Chip.sillWrite
  split
  · exact h0
  split
  · exact keep_Chip_fltWrite K _ _ _ _ _ h0
  split
  · next h => exact keep_Chip_timeWrite K _ _ _ _ h0 _ h
  split
  · next h => exact keep_Chip_singleWrite K _ _ _ _ h0 _ h
  split
  · next h => exact keep_Chip_arrayWrite K _ _ _ _ h0 _ h
  · exact keep_Chip_refreshOutputs K _ (keep_Chip_plainWrite K _ _ _ _ h0)

theorem keep_Chip_anyWrite {P : Chip → Prop} (K : Keep P) (a mask v : Nat) (m : Chip) (h0 : P m) : P (Chip.anyWrite a mask v
    m) := by
  unfold Chip.anyWrite
  try dsimp only
  repeat' (first | with_reducible assumption | (intro _) | with_reducible apply keep_Chip_onTn K
                 | with_reducible apply keep_Chip_issueAll K | with_reducible apply keep_Chip_sillWrite K
                 | with_reducible apply keep_ite (P := P) | with_reducible refine keep_lit K _ ?_ rfl rfl rfl rfl rfl rfl)

end Sys2Proof.Laws
end

