-- ==== Sys2Proof/Laws/Keep/Service.lean ====
section
/-!
SUPPORT. Sys2Proof/Laws/Keep/Service.lean: the definitions of Machine/Service.lean keep what the primitive changes keep.
-/
namespace Sys2Proof.Laws
open Sys2Proof.Machine

theorem keep_Chip_readWords {P : Chip → Prop} (K : Keep P) (m : Chip) (y0 : List Nat) (h0 : P m) : P (Chip.readWords m y0).2
    := by
  induction y0 generalizing m with
  | nil => exact h0
  | cons a l ih =>
    unfold Chip.readWords
    try dsimp only
    repeat' (first | with_reducible assumption | with_reducible apply ih | with_reducible apply keep_Chip_readReg K
                   | with_reducible apply keep_ite (P := P) | dsimp only | split)

theorem keep_Chip_awaitRidge {P : Chip → Prop} (K : Keep P) (id : Nat) (write : Bool) (words : List (Option Nat)) (reqs :
    List TnReq) (m : Chip) (h0 : P m) : P (Chip.awaitRidge id write words reqs m) := by
  unfold Chip.awaitRidge
  try dsimp only
  repeat' (first | with_reducible assumption | (intro _) | with_reducible apply keep_Chip_onTn K
                 | with_reducible apply keep_Chip_issueAll K | with_reducible refine keep_lit K _ ?_ rfl rfl rfl rfl rfl rfl)

theorem keep_readMessage {P : Chip → Prop} (K : Keep P) (dt id a count : Nat) (m0 : Chip) (h0 : P m0) : P (readMessage dt id
    a count m0) := by
  unfold readMessage
  try dsimp only
  repeat' (first | with_reducible assumption | (intro _) | with_reducible apply keep_elapse K
                 | with_reducible apply keep_Chip_touch K | with_reducible apply keep_Chip_answer K
                 | with_reducible apply keep_Chip_readWords K | with_reducible apply keep_Chip_awaitRidge K
                 | with_reducible apply keep_ite (P := P) | dsimp only | split
                 | with_reducible refine keep_lit K _ ?_ rfl rfl rfl rfl rfl rfl)

theorem keep_writeMessage {P : Chip → Prop} (K : Keep P) (dt id a mask v : Nat) (m0 : Chip) (h0 : P m0) : P (writeMessage dt
    id a mask v m0) := by
  unfold writeMessage
  try dsimp only
  repeat' (first | with_reducible assumption | with_reducible apply keep_elapse K | with_reducible apply keep_Chip_touch K
                 | with_reducible apply keep_Chip_answer K | with_reducible apply keep_Chip_sillWrite K
                 | with_reducible apply keep_Chip_awaitRidge K | with_reducible apply keep_ite (P := P) | split
                 | with_reducible refine keep_lit K _ ?_ rfl rfl rfl rfl rfl rfl)

theorem keep_registerWrite {P : Chip → Prop} (K : Keep P) (dt : Nat) (auth : Option Auth) (a mask v : Nat) (m0 : Chip) (h0 :
    P m0) : P (registerWrite dt auth a mask v m0) := by
  unfold registerWrite
  try dsimp only
  repeat' (first | with_reducible assumption | (intro _) | with_reducible apply keep_elapse K
                 | with_reducible apply keep_Chip_badAddress K | with_reducible apply keep_Chip_signed K
                 | with_reducible apply keep_Chip_anyWrite K | with_reducible apply keep_ite (P := P) | split)

theorem keep_subscribe {P : Chip → Prop} (K : Keep P) (dt id kind dest udp : Nat) (m0 : Chip) (h0 : P m0) : P (subscribe dt
    id kind dest udp m0) := by
  unfold subscribe
  try dsimp only
  repeat' (first | with_reducible assumption | (intro _) | with_reducible apply keep_elapse K
                 | with_reducible apply keep_Chip_touch K | with_reducible apply keep_Chip_answer K
                 | with_reducible apply keep_ite (P := P) | split
                 | with_reducible refine keep_lit K _ ?_ rfl rfl rfl rfl rfl rfl)

theorem keep_unsubscribe {P : Chip → Prop} (K : Keep P) (dt id num : Nat) (m0 : Chip) (h0 : P m0) : P (unsubscribe dt id num
    m0) := by
  unfold unsubscribe
  try dsimp only
  repeat' (first | with_reducible assumption | (intro _) | with_reducible apply keep_elapse K
                 | with_reducible apply keep_Chip_touch K | with_reducible apply keep_Chip_answer K
                 | with_reducible apply keep_ite (P := P) | split
                 | with_reducible refine keep_lit K _ ?_ rfl rfl rfl rfl rfl rfl)

theorem keep_keepalive {P : Chip → Prop} (K : Keep P) (dt id : Nat) (m0 : Chip) (h0 : P m0) : P (keepalive dt id m0) := by
  unfold keepalive
  try dsimp only
  repeat' (first | with_reducible assumption | with_reducible apply keep_elapse K | with_reducible apply keep_Chip_touch K
                 | with_reducible apply keep_Chip_answer K | split)

theorem keep_streamDatagram {P : Chip → Prop} (K : Keep P) (dt num : Nat) (m0 : Chip) (h0 : P m0) : P (streamDatagram dt num
    m0) := by
  unfold streamDatagram
  try dsimp only
  repeat' (first | with_reducible assumption | (intro _) | with_reducible apply keep_Chip_bump K
                 | with_reducible apply keep_Chip_emit K | with_reducible apply keep_elapse K
                 | with_reducible apply keep_Chip_take K | with_reducible apply keep_ite (P := P) | dsimp only | split
                 | with_reducible refine keep_lit K _ ?_ rfl rfl rfl rfl rfl rfl)

theorem keep_ethFrame {P : Chip → Prop} (K : Keep P) (dt p : Nat) (fcsOk : Bool) (kind : Nat) (m0 : Chip) (h0 : P m0) : P
    (ethFrame dt p fcsOk kind m0) := by
  unfold ethFrame
  try dsimp only
  repeat' (first | with_reducible assumption | with_reducible apply keep_Chip_setFlag K
                 | with_reducible apply keep_Chip_bump K | with_reducible apply keep_Chip_emit K
                 | with_reducible apply keep_elapse K | with_reducible apply keep_Chip_answer K
                 | with_reducible apply keep_ite (P := P))

theorem keep_ethLinkDown {P : Chip → Prop} (K : Keep P) (dt p : Nat) (m0 : Chip) (h0 : P m0) : P (ethLinkDown dt p m0) := by
  unfold ethLinkDown
  try dsimp only
  repeat' (first | with_reducible assumption | (intro _) | with_reducible apply keep_Chip_put K
                 | with_reducible apply keep_Chip_setFlag K | with_reducible apply keep_elapse K
                 | with_reducible apply keep_Chip_refsUpdate K | with_reducible apply keep_Chip_closeSession K
                 | with_reducible apply keep_forAll (P := P) | with_reducible apply keep_ite (P := P))

theorem keep_ethLinkUp {P : Chip → Prop} (K : Keep P) (dt p : Nat) (m0 : Chip) (h0 : P m0) : P (ethLinkUp dt p m0) := by
  unfold ethLinkUp
  try dsimp only
  repeat' (first | with_reducible assumption | with_reducible apply keep_Chip_put K | with_reducible apply keep_elapse K
                 | with_reducible apply keep_Chip_refsUpdate K | with_reducible apply keep_ite (P := P) | split)

theorem keep_badRequestMessage {P : Chip → Prop} (K : Keep P) (dt id : Nat) (m0 : Chip) (h0 : P m0) : P (badRequestMessage
    dt id m0) := by
  unfold badRequestMessage
  try dsimp only
  repeat' (first | with_reducible assumption | with_reducible apply keep_elapse K | with_reducible apply keep_Chip_answer K
                 | split)

theorem keep_ethTsPop {P : Chip → Prop} (K : Keep P) (dt p : Nat) (m : Chip) (h0 : P m) : P (ethTsPop dt p m) := by
  unfold ethTsPop
  try dsimp only
  repeat' (first | with_reducible assumption | with_reducible apply keep_elapse K | with_reducible apply keep_Chip_tsPop K)

end Sys2Proof.Laws
end

