-- ==== Sys2Proof/Laws/Keep/Boundary.lean ====
section
/-!
SUPPORT. Sys2Proof/Laws/Keep/Boundary.lean: the definitions of Machine/Boundary.lean keep what the primitive changes keep.
-/
namespace Sys2Proof.Laws
open Sys2Proof.Machine

theorem keep_Chip_deadlines {P : Chip → Prop} (K : Keep P) (m : Chip) (h0 : P m) : P (Chip.deadlines m) := by
  unfold Chip.deadlines
  try dsimp only
  repeat' (first | with_reducible assumption | (intro _) | with_reducible apply keep_Chip_raiseIf K
                 | with_reducible apply keep_Chip_deadline K | with_reducible apply keep_forAll (P := P))

theorem keep_Chip_strobe {P : Chip → Prop} (K : Keep P) (b : Nat) (received : Option Nat) (m : Chip) (h0 : P m) : P
    (Chip.strobe b received m) := by
  unfold Chip.strobe
  try dsimp only
  repeat' (first | with_reducible assumption | (intro _) | with_reducible apply keep_Chip_setFlag K
                 | with_reducible apply keep_Chip_raise K | with_reducible apply keep_Chip_onBays K
                 | with_reducible apply keep_ite (P := P) | with_reducible refine keep_lit K _ ?_ rfl rfl rfl rfl rfl rfl)

theorem keep_Chip_turnJob {P : Chip → Prop} (K : Keep P) (b j : Nat) (m : Chip) (h0 : P m) : P (Chip.turnJob b j m) := by
  unfold Chip.turnJob
  try dsimp only
  repeat' (first | with_reducible assumption | with_reducible apply keep_Chip_jobBoundary K
                 | with_reducible apply keep_Chip_discardJob K | with_reducible apply keep_Chip_abortText K
                 | with_reducible apply keep_ite (P := P))

theorem keep_Chip_turnEngine {P : Chip → Prop} (K : Keep P) (e : Engine) (m : Chip) (h0 : P m) : P (Chip.turnEngine e m) :=
    by
  unfold Chip.turnEngine
  try dsimp only
  repeat' (first | with_reducible assumption | with_reducible apply keep_Chip_setEng K
                 | with_reducible apply keep_Chip_showEng K | with_reducible apply keep_Chip_engBoundary K
                 | with_reducible apply keep_ite (P := P) | with_reducible refine keep_lit K _ ?_ rfl rfl rfl rfl rfl rfl)

theorem keep_Chip_latchCounts {P : Chip → Prop} (K : Keep P) (b : Nat) (m : Chip) (h0 : P m) : P (Chip.latchCounts b m) :=
    by
  unfold Chip.latchCounts
  try dsimp only
  repeat' (first | with_reducible assumption | (intro _) | with_reducible apply keep_Chip_mirrorSend K
                 | with_reducible apply keep_Chip_encBayLatch K | with_reducible apply keep_ite (P := P))

theorem keep_Chip_applyPilots {P : Chip → Prop} (K : Keep P) (m : Chip) (h0 : P m) : P (Chip.applyPilots m) := by
  unfold Chip.applyPilots
  try dsimp only
  repeat' (first | with_reducible assumption | (intro _) | with_reducible apply keep_Chip_onFire K
                 | with_reducible apply keep_foldl (P := P) | with_reducible apply keep_foldl2 (P := P) | dsimp only
                 | with_reducible refine keep_lit K _ ?_ rfl rfl rfl rfl rfl rfl)

theorem keep_Chip_sealStuds {P : Chip → Prop} (K : Keep P) (b : Nat) (m : Chip) (h0 : P m) : P (Chip.sealStuds b m) := by
  unfold Chip.sealStuds
  try dsimp only
  repeat' (first | with_reducible assumption | (intro _) | with_reducible apply keep_Chip_onWit K
                 | with_reducible apply keep_Chip_setArrives K | with_reducible apply keep_ite (P := P) | split
                 | with_reducible refine keep_lit K _ ?_ rfl rfl rfl rfl rfl rfl)

theorem keep_Chip_forget {P : Chip → Prop} (K : Keep P) (b : Nat) (m : Chip) (h0 : P m) : P (Chip.forget b m) := by
  unfold Chip.forget
  try dsimp only
  repeat' (first | with_reducible assumption | (intro _) | with_reducible apply keep_Chip_onWit K
                 | with_reducible apply keep_Chip_onBays K | with_reducible apply keep_Chip_onFire K
                 | with_reducible apply keep_Chip_countDue K | dsimp only | split
                 | with_reducible refine keep_lit K _ ?_ rfl rfl rfl rfl rfl rfl)

theorem keep_Chip_clearSems {P : Chip → Prop} (K : Keep P) (m : Chip) (h0 : P m) : P (Chip.clearSems m) := by
  unfold Chip.clearSems
  try dsimp only
  repeat' (first | with_reducible assumption | (intro _) | with_reducible apply keep_Chip_onBays K
                 | with_reducible refine keep_lit K _ ?_ rfl rfl rfl rfl rfl rfl)

theorem keep_Chip_boundary {P : Chip → Prop} (K : Keep P) (b : Nat) (strobe : Option Nat) (m : Chip) (h0 : P m) : P
    (Chip.boundary b strobe m) := by
  unfold Chip.boundary
  try dsimp only
  repeat' (first | with_reducible assumption | (intro _) | with_reducible apply keep_Chip_witDrain K
                 | with_reducible apply keep_Chip_reportUnjudged K | with_reducible apply keep_Chip_streamTables K
                 | with_reducible apply keep_Chip_fedBoundary K | with_reducible apply keep_Chip_releaseSlots K
                 | with_reducible apply keep_Chip_screenBoundary K | with_reducible apply keep_Chip_ppBoundary K
                 | with_reducible apply keep_Chip_dropStaged K | with_reducible apply keep_Chip_supBoundary K
                 | with_reducible apply keep_Chip_loseSets K | with_reducible apply keep_Chip_missFrames K
                 | with_reducible apply keep_Chip_tnFill K | with_reducible apply keep_Chip_tnBoundary K
                 | with_reducible apply keep_Chip_purBoundary K | with_reducible apply keep_Chip_commitRef K
                 | with_reducible apply keep_Chip_deadlines K | with_reducible apply keep_Chip_strobe K
                 | with_reducible apply keep_Chip_turnJob K | with_reducible apply keep_Chip_turnEngine K
                 | with_reducible apply keep_Chip_latchCounts K | with_reducible apply keep_Chip_applyPilots K
                 | with_reducible apply keep_Chip_sealStuds K | with_reducible apply keep_Chip_forget K
                 | with_reducible apply keep_Chip_clearSems K | with_reducible apply keep_forAll (P := P))

theorem keep_bayBoundary {P : Chip → Prop} (K : Keep P) (dt : Nat) (strobe : Option Nat) (m0 : Chip) (h0 : P m0) : P
    (bayBoundary dt strobe m0) := by
  unfold bayBoundary
  try dsimp only
  repeat' (first | with_reducible assumption | with_reducible apply keep_elapse K | with_reducible apply keep_Chip_strobe K
                 | with_reducible apply keep_Chip_boundary K | with_reducible apply keep_ite (P := P))

end Sys2Proof.Laws
end

