-- ==== Sys2Proof/Laws/Keep/Signed.lean ====
section
/-!
SUPPORT. Sys2Proof/Laws/Keep/Signed.lean: the definitions of Machine/Signed.lean keep what the primitive changes keep.
-/
namespace Sys2Proof.Laws
open Sys2Proof.Machine

theorem keep_signedResume {P : Chip → Prop} (K : Keep P) (dt : Nat) (a : Auth) (m : Chip) (h0 : P m) : P (signedResume dt a
    m) := by
  unfold signedResume
  try dsimp only
  repeat' (first | with_reducible assumption | (intro _) | with_reducible apply keep_elapse K
                 | with_reducible apply keep_Chip_signed K | with_reducible apply keep_resume K)

theorem keep_signedRaisedRestore {P : Chip → Prop} (K : Keep P) (dt : Nat) (a : Auth) (half num : Nat) (m : Chip) (h0 : P m)
    : P (signedRaisedRestore dt a half num m) := by
  unfold signedRaisedRestore
  try dsimp only
  repeat' (first | with_reducible assumption | (intro _) | with_reducible apply keep_elapse K
                 | with_reducible apply keep_Chip_signed K | with_reducible apply keep_raisedRestore K)

theorem keep_signedAcceptStep {P : Chip → Prop} (K : Keep P) (dt : Nat) (a : Auth) (m : Chip) (h0 : P m) : P
    (signedAcceptStep dt a m) := by
  unfold signedAcceptStep
  try dsimp only
  repeat' (first | with_reducible assumption | (intro _) | with_reducible apply keep_elapse K
                 | with_reducible apply keep_Chip_signed K | with_reducible apply keep_acceptStep K)

theorem keep_signedRouteTableWrite {P : Chip → Prop} (K : Keep P) (dt : Nat) (a : Auth) (addr mask v : Nat) (m : Chip) (h0 :
    P m) : P (signedRouteTableWrite dt a addr mask v m) := by
  unfold signedRouteTableWrite
  try dsimp only
  repeat' (first | with_reducible assumption | (intro _) | with_reducible apply keep_elapse K
                 | with_reducible apply keep_Chip_badAddress K | with_reducible apply keep_Chip_signed K
                 | with_reducible apply keep_routeTableWrite K | with_reducible apply keep_ite (P := P))

end Sys2Proof.Laws
end

