-- ==== Sys2Proof/Laws/Ops.lean ====
section
/-!
SUPPORT. Sys2Proof/Laws/Ops.lean: the laws of registers and fields: a field reads as it was written, cut to its width; a write leaves
every other field and every other register alone. `h` is the canonical form of the register table.
-/
namespace Sys2Proof.Laws
open Sys2Proof.Machine

/-! ### Words -/

theorem bitsN_lt (x hi lo : Nat) : bitsN x hi lo < 2 ^ (hi - lo + 1) := Nat.mod_lt _ (Nat.two_pow_pos _)

/-- A number split at the edges of a field. -/
theorem split_field (x lo n : Nat) : x = x % 2 ^ lo + (x / 2 ^ lo % 2 ^ n) * 2 ^ lo + x / 2 ^ (lo + n) * 2 ^ (lo + n) := by
  have h1 := Nat.div_add_mod x (2 ^ lo)
  have h2 := Nat.div_add_mod (x / 2 ^ lo) (2 ^ n)
  rw [Nat.div_div_eq_div_mul] at h2
  rw [Nat.pow_add]
  generalize x / (2 ^ lo * 2 ^ n) = c at *
  generalize x / 2 ^ lo % 2 ^ n = b at *
  generalize x / 2 ^ lo = q at *
  subst h2
  rw [Nat.mul_add] at h1
  have e1 : 2 ^ lo * b = b * 2 ^ lo := Nat.mul_comm _ _
  have e2 : 2 ^ lo * (2 ^ n * c) = c * (2 ^ lo * 2 ^ n) := by
    rw [← Nat.mul_assoc, Nat.mul_comm]
  omega

/-- The number of a word with a field replaced. -/
theorem toNat_fldIns (w : Word) (f : Fld) (v : Nat) (hf : f.lo ≤ f.hi) (h32 : f.hi < 32) :
    (fldIns w f v).toNat = w.toNat % 2 ^ f.lo + v % 2 ^ (f.hi - f.lo + 1) * 2 ^ f.lo +
      w.toNat / 2 ^ (f.hi + 1) * 2 ^ (f.hi + 1) := by
  have hs := split_field w.toNat f.lo (f.hi - f.lo + 1)
  have he : f.lo + (f.hi - f.lo + 1) = f.hi + 1 := by omega
  rw [he] at hs
  have hv : v % 2 ^ (f.hi - f.lo + 1) < 2 ^ (f.hi - f.lo + 1) := Nat.mod_lt _ (Nat.two_pow_pos _)
  have hlow : w.toNat % 2 ^ f.lo < 2 ^ f.lo := Nat.mod_lt _ (Nat.two_pow_pos _)
  have hprod : (v % 2 ^ (f.hi - f.lo + 1) + 1) * 2 ^ f.lo ≤ 2 ^ (f.hi + 1) := by
    calc (v % 2 ^ (f.hi - f.lo + 1) + 1) * 2 ^ f.lo ≤ 2 ^ (f.hi - f.lo + 1) * 2 ^ f.lo := Nat.mul_le_mul_right _ hv
      _ = 2 ^ (f.hi + 1) := by rw [← Nat.pow_add]; congr 1; omega
  have hw : w.toNat < 2 ^ 32 := w.isLt
  have htop : w.toNat / 2 ^ (f.hi + 1) * 2 ^ (f.hi + 1) + 2 ^ (f.hi + 1) ≤ 2 ^ 32 := by
    have hd : w.toNat / 2 ^ (f.hi + 1) < 2 ^ (32 - (f.hi + 1)) := by
      rw [Nat.div_lt_iff_lt_mul (Nat.two_pow_pos _), ← Nat.pow_add]
      have : 32 - (f.hi + 1) + (f.hi + 1) = 32 := by omega
      rw [this]; exact hw
    calc w.toNat / 2 ^ (f.hi + 1) * 2 ^ (f.hi + 1) + 2 ^ (f.hi + 1)
        = (w.toNat / 2 ^ (f.hi + 1) + 1) * 2 ^ (f.hi + 1) := by rw [Nat.add_mul, Nat.one_mul]
      _ ≤ 2 ^ (32 - (f.hi + 1)) * 2 ^ (f.hi + 1) := Nat.mul_le_mul_right _ hd
      _ = 2 ^ 32 := by rw [← Nat.pow_add]; congr 1; omega
  unfold fldIns fldOf bitsN
  rw [BitVec.toNat_ofNat]
  generalize hA : w.toNat / 2 ^ f.lo % 2 ^ (f.hi - f.lo + 1) * 2 ^ f.lo = A at *
  generalize hV : v % 2 ^ (f.hi - f.lo + 1) = V at *
  rw [Nat.add_mul, Nat.one_mul] at hprod
  generalize V * 2 ^ f.lo = B at *
  generalize w.toNat / 2 ^ (f.hi + 1) * 2 ^ (f.hi + 1) = T at *
  generalize w.toNat % 2 ^ f.lo = L at *
  have : w.toNat - A + B < 2 ^ 32 := by omega
  rw [Nat.mod_eq_of_lt this]
  omega

theorem div_low {L v p : Nat} (hL : L < p) : (L + v * p) / p = v := by
  rw [Nat.add_mul_div_right _ _ (by omega), Nat.div_eq_of_lt hL]; omega

/-- A field reads as it was written, cut to its width. -/
theorem fldOf_fldIns_same (w : Word) (f : Fld) (v : Nat) (hf : f.lo ≤ f.hi) (h32 : f.hi < 32) :
    fldOf (fldIns w f v) f = v % 2 ^ (f.hi - f.lo + 1) := by
  unfold fldOf bitsN
  rw [toNat_fldIns w f v hf h32]
  have hlow : w.toNat % 2 ^ f.lo < 2 ^ f.lo := Nat.mod_lt _ (Nat.two_pow_pos _)
  have he : (2 : Nat) ^ (f.hi + 1) = 2 ^ (f.hi - f.lo + 1) * 2 ^ f.lo := by
    rw [← Nat.pow_add]; congr 1; omega
  have hre : w.toNat % 2 ^ f.lo + v % 2 ^ (f.hi - f.lo + 1) * 2 ^ f.lo + w.toNat / 2 ^ (f.hi + 1) * 2 ^ (f.hi + 1) =
      w.toNat % 2 ^ f.lo + (v % 2 ^ (f.hi - f.lo + 1) + w.toNat / 2 ^ (f.hi + 1) * 2 ^ (f.hi - f.lo + 1)) * 2 ^ f.lo := by
    conv => lhs; arg 2; arg 2; rw [he]
    rw [Nat.add_mul, Nat.mul_assoc]; omega
  rw [hre, div_low hlow, Nat.add_mul_mod_self_right, Nat.mod_mod]

/-- A field that lies below the written one keeps its value. -/
theorem fldOf_fldIns_below (w : Word) (f g : Fld) (v : Nat) (hf : f.lo ≤ f.hi) (h32 : f.hi < 32) (hg : g.hi < f.lo)
    (hgl : g.lo ≤ g.hi) : fldOf (fldIns w f v) g = fldOf w g := by
  have key : ∀ x, bitsN x g.hi g.lo = bitsN (x % 2 ^ f.lo) g.hi g.lo := by
    intro x
    unfold bitsN
    rw [← Nat.mod_mul_right_div_self, ← Nat.mod_mul_right_div_self, ← Nat.pow_add,
      Nat.mod_mod_of_dvd _ (Nat.pow_dvd_pow 2 (by omega))]
  unfold fldOf
  rw [key, key w.toNat, toNat_fldIns w f v hf h32]
  congr 1
  have he : (2 : Nat) ^ (f.hi + 1) = 2 ^ (f.hi - f.lo + 1) * 2 ^ f.lo := by
    rw [← Nat.pow_add]; congr 1; omega
  rw [he, ← Nat.mul_assoc, Nat.add_mul_mod_self_right, Nat.add_mul_mod_self_right, Nat.mod_mod]
/-- A field that lies above the written one keeps its value. -/
theorem fldOf_fldIns_above (w : Word) (f g : Fld) (v : Nat) (hf : f.lo ≤ f.hi) (hg : f.hi < g.lo) (hgl : g.lo ≤ g.hi)
    (h32 : g.hi < 32) : fldOf (fldIns w f v) g = fldOf w g := by
  have key : ∀ x, bitsN x g.hi g.lo = x / 2 ^ (f.hi + 1) / 2 ^ (g.lo - (f.hi + 1)) % 2 ^ (g.hi - g.lo + 1) := by
    intro x
    unfold bitsN
    rw [Nat.div_div_eq_div_mul, ← Nat.pow_add]
    congr 3; omega
  unfold fldOf
  rw [key, key w.toNat, toNat_fldIns w f v hf (by omega)]
  have hlow : w.toNat % 2 ^ f.lo + v % 2 ^ (f.hi - f.lo + 1) * 2 ^ f.lo < 2 ^ (f.hi + 1) := by
    have hv : v % 2 ^ (f.hi - f.lo + 1) < 2 ^ (f.hi - f.lo + 1) := Nat.mod_lt _ (Nat.two_pow_pos _)
    have hl : w.toNat % 2 ^ f.lo < 2 ^ f.lo := Nat.mod_lt _ (Nat.two_pow_pos _)
    have : (v % 2 ^ (f.hi - f.lo + 1) + 1) * 2 ^ f.lo ≤ 2 ^ (f.hi + 1) := by
      calc (v % 2 ^ (f.hi - f.lo + 1) + 1) * 2 ^ f.lo ≤ 2 ^ (f.hi - f.lo + 1) * 2 ^ f.lo := Nat.mul_le_mul_right _ hv
        _ = 2 ^ (f.hi + 1) := by rw [← Nat.pow_add]; congr 1; omega
    rw [Nat.add_mul, Nat.one_mul] at this
    omega
  rw [div_low hlow]

/-! ### Registers -/

theorem canon_wr (m : Chip) (a : Nat) (v : Word) (h : tabWf 0 m.regs = true) : tabWf 0 (m.wr a v).regs = true :=
  tabWf_set 0 _ _ _ h
theorem canon_put (m : Chip) (f : Fld) (v : Nat) (h : tabWf 0 m.regs = true) : tabWf 0 (m.put f v).regs = true :=
  tabWf_set 0 _ _ _ h

/-- A register reads as it was written. -/
theorem rd_wr_same (m : Chip) (a : Nat) (v : Word) (h : tabWf 0 m.regs = true) : (m.wr a v).rd a = v := tabGet_set_same 0 _ _ _ h

/-- A write leaves every other register alone. -/
theorem rd_wr_other (m : Chip) (a b : Nat) (v : Word) (h : tabWf 0 m.regs = true) (hb : b ≠ a) : (m.wr a v).rd b = m.rd b :=
  tabGet_set_other 0 _ _ _ _ h hb

theorem rd_put_same (m : Chip) (f : Fld) (v : Nat) (h : tabWf 0 m.regs = true) : (m.put f v).rd f.addr = fldIns (m.rd f.addr) f v :=
  rd_wr_same m _ _ h
theorem rd_put_other (m : Chip) (f : Fld) (v b : Nat) (h : tabWf 0 m.regs = true) (hb : b ≠ f.addr) : (m.put f v).rd b = m.rd b :=
  rd_wr_other m _ _ _ h hb

/-- A field reads as it was written, cut to its width. -/
theorem get_put_same (m : Chip) (f : Fld) (v : Nat) (h : tabWf 0 m.regs = true) (hf : f.lo ≤ f.hi) (h32 : f.hi < 32) :
    (m.put f v).get f = v % 2 ^ (f.hi - f.lo + 1) := by
  unfold Chip.get
  rw [rd_put_same m f v h]
  exact fldOf_fldIns_same _ _ _ hf h32

/-- Two fields that share no bit. -/
def fieldsApart (f g : Fld) : Bool := decide (f.addr ≠ g.addr) || decide (f.hi < g.lo) || decide (g.hi < f.lo)

/-- A write of a field leaves every field apart from it alone. -/
theorem get_put_apart (m : Chip) (f g : Fld) (v : Nat) (h : tabWf 0 m.regs = true) (ha : fieldsApart f g = true) (hf : f.lo ≤ f.hi)
    (hg : g.lo ≤ g.hi) (h32 : f.hi < 32) (hg32 : g.hi < 32) : (m.put f v).get g = m.get g := by
  unfold Chip.get
  by_cases he : g.addr = f.addr
  · rw [he, rd_put_same m f v h]
    simp only [fieldsApart, he, ne_eq, not_true, decide_false, Bool.false_or, Bool.or_eq_true, decide_eq_true_eq] at ha
    rcases ha with hb | hb
    · exact fldOf_fldIns_above _ _ _ _ hf hb hg hg32
    · exact fldOf_fldIns_below _ _ _ _ hf h32 hb hg
  · rw [rd_put_other m f v g.addr h he]

/-- A counter counts up and saturates. -/
theorem rd_bumpBy_same (m : Chip) (a n : Nat) (h : tabWf 0 m.regs = true) :
    ((m.bumpBy a n).rd a).toNat = min 0xFFFFFFFF ((m.rd a).toNat + n) := by
  unfold Chip.bumpBy
  rw [rd_wr_same m a _ h, BitVec.toNat_ofNat]
  omega
theorem rd_bumpBy_other (m : Chip) (a n b : Nat) (h : tabWf 0 m.regs = true) (hb : b ≠ a) : (m.bumpBy a n).rd b = m.rd b :=
  rd_wr_other m _ _ _ h hb

end Sys2Proof.Laws
end

