-- ==== Sys2Proof/Laws/Exec.lean ====
section
/-!
SUPPORT. Sys2Proof/Laws/Exec.lean: what every command does, said once: it completes exactly when it is well formed, it leaves the queue
alone, and it keeps every property that the primitive changes keep (`Keep`): the canonical form of the tables, the outputs and the
log already made, the fuses already blown.
-/
namespace Sys2Proof.Laws
open Sys2Proof.Machine

/-! ### The form of a meaning -/

theorem onUnit_next (u : Bool) (dt : Nat) (eff : Chip → Chip) (s t : State) :
    onUnit u dt eff s = .next t ↔ u = true ∧ t = { s with m := s.m.take dt eff } := by
  unfold onUnit
  cases u <;> simp [eq_comm]
theorem onSupply_next (u : Bool) (eff : Chip → Chip) (s t : State) :
    onSupply u eff s = .next t ↔ u = true ∧ t = { s with m := eff s.m } := by
  unfold onSupply
  cases u <;> simp [eq_comm]
/-- On a module that is supplied and out of RESET_N a command has its effect. -/
theorem take_live (m : Chip) (dt : Nat) (eff : Chip → Chip) (h : m.supplied = true) (h' : m.boot.inReset = false) :
    m.take dt eff = eff m := by
  simp [Chip.take, h, h']
/-- Without supply a command changes nothing. -/
theorem take_unsupplied (m : Chip) (dt : Nat) (eff : Chip → Chip) (h : m.supplied = false) : m.take dt eff = m := by
  simp [Chip.take, h]
/-- Held in reset, only time passes. -/
theorem take_held (m : Chip) (dt : Nat) (eff : Chip → Chip) (h : m.supplied = true) (h' : m.boot.inReset = true) :
    m.take dt eff = elapse dt m := by
  simp [Chip.take, h, h']

theorem onUnit_keep {P : Chip → Prop} (K : Keep P) {u : Bool} {dt : Nat} {eff : Chip → Chip} {s t : State} (h : P s.m)
    (ht : onUnit u dt eff s = .next t) (he : ∀ m, P m → P (eff m)) : P t.m := by
  obtain ⟨-, rfl⟩ := (onUnit_next _ _ _ _ _).1 ht
  exact keep_Chip_take K _ _ _ he h
theorem onSupply_keep {P : Chip → Prop} {u : Bool} {eff : Chip → Chip} {s t : State} (h : P s.m)
    (ht : onSupply u eff s = .next t) (he : ∀ m, P m → P (eff m)) : P t.m := by
  obtain ⟨-, rfl⟩ := (onSupply_next _ _ _ _).1 ht
  exact he _ h

/-! ### All commands -/

/-- A completed command keeps what the primitive changes keep. -/
theorem exec_keeps {P : Chip → Prop} (K : Keep P) (i : Instr) (s t : State) (h : P s.m) (ht : exec i s = .next t) : P t.m := by
  cases i with
  | bayBoundary => dsimp only [exec] at ht; exact onUnit_keep K h ht fun m hm => keep_bayBoundary K _ _ m hm
  | markSetDeadline => dsimp only [exec] at ht; exact onUnit_keep K h ht fun m hm => keep_markSetDeadline K _ m hm
  | verdictDeadline => dsimp only [exec] at ht; exact onUnit_keep K h ht fun m hm => keep_verdictDeadline K _ m hm
  | endGuardSeal => dsimp only [exec] at ht; exact onUnit_keep K h ht fun m hm => keep_endGuardSeal K _ m hm
  | matmul => dsimp only [exec] at ht; exact onUnit_keep K h ht fun m hm => keep_matmul K _ _ _ _ m hm
  | combine => dsimp only [exec] at ht; exact onUnit_keep K h ht fun m hm => keep_combine K _ _ _ _ m hm
  | vector => dsimp only [exec] at ht; exact onUnit_keep K h ht fun m hm => keep_vector K _ _ _ _ _ m hm
  | dmaCopy => dsimp only [exec] at ht; exact onUnit_keep K h ht fun m hm => keep_dmaCopy K _ _ _ _ m hm
  | dmaClear => dsimp only [exec] at ht; exact onUnit_keep K h ht fun m hm => keep_dmaClear K _ _ _ m hm
  | windowConv => dsimp only [exec] at ht; exact onUnit_keep K h ht fun m hm => keep_windowConv K _ _ _ _ m hm
  | windowMaxpool => dsimp only [exec] at ht; exact onUnit_keep K h ht fun m hm => keep_windowMaxpool K _ _ _ _ m hm
  | windowAvgpool => dsimp only [exec] at ht; exact onUnit_keep K h ht fun m hm => keep_windowAvgpool K _ _ _ _ m hm
  | windowUpsample => dsimp only [exec] at ht; exact onUnit_keep K h ht fun m hm => keep_windowUpsample K _ _ _ _ m hm
  | spectralConv2d => dsimp only [exec] at ht; exact onUnit_keep K h ht fun m hm => keep_spectralConv2d K _ _ _ m hm
  | detect => dsimp only [exec] at ht; exact onUnit_keep K h ht fun m hm => keep_detect K _ _ _ _ m hm
  | attend => dsimp only [exec] at ht; exact onUnit_keep K h ht fun m hm => keep_attend K _ _ _ m hm
  | append => dsimp only [exec] at ht; exact onUnit_keep K h ht fun m hm => keep_append K _ _ _ m hm
  | screen => dsimp only [exec] at ht; exact onUnit_keep K h ht fun m hm => keep_screen K _ _ _ _ _ _ _ _ m hm
  | screeningOutputRelease => dsimp only [exec] at ht; exact onUnit_keep K h ht fun m hm => keep_screeningOutputRelease K _ _ _ _ m hm
  | tenonDma => dsimp only [exec] at ht; exact onUnit_keep K h ht fun m hm => keep_tenonDma K _ _ _ _ _ m hm
  | purlinDma => dsimp only [exec] at ht; exact onUnit_keep K h ht fun m hm => keep_purlinDma K _ _ _ _ _ m hm
  | cmDma => dsimp only [exec] at ht; exact onUnit_keep K h ht fun m hm => keep_cmDma K _ _ _ m hm
  | gate => dsimp only [exec] at ht; exact onUnit_keep K h ht fun m hm => keep_gate K _ _ _ m hm
  | wake => dsimp only [exec] at ht; exact onUnit_keep K h ht fun m hm => keep_wake K _ _ _ m hm
  | backgroundWindow => dsimp only [exec] at ht; exact onUnit_keep K h ht fun m hm => keep_backgroundWindow K _ _ _ m hm
  | backgroundSegment => dsimp only [exec] at ht; exact onUnit_keep K h ht fun m hm => keep_backgroundSegment K _ _ _ m hm
  | segmentRollback => dsimp only [exec] at ht; exact onUnit_keep K h ht fun m hm => keep_segmentRollback K _ _ m hm
  | commandComplete => dsimp only [exec] at ht; exact onUnit_keep K h ht fun m hm => keep_commandComplete K _ _ _ m hm
  | sampleCapture => dsimp only [exec] at ht; exact onUnit_keep K h ht fun m hm => keep_sampleCapture K _ _ _ m hm
  | adaptCommit => dsimp only [exec] at ht; exact onUnit_keep K h ht fun m hm => keep_adaptCommit K _ _ m hm
  | jobCtrlWrite => dsimp only [exec] at ht; exact onUnit_keep K h ht fun m hm => keep_jobCtrlWrite K _ _ _ m hm
  | marginReset => dsimp only [exec] at ht; exact onUnit_keep K h ht fun m hm => keep_marginReset K _ (keep_elapse K _ _ hm)
  | readLoLatch => dsimp only [exec] at ht; exact onUnit_keep K h ht fun m hm => keep_readLoLatch K _ _ m hm
  | cameraBringUp => dsimp only [exec] at ht; exact onUnit_keep K h ht fun m hm => keep_cameraBringUp K _ _ _ m hm
  | discoveryPoll => dsimp only [exec] at ht; exact onUnit_keep K h ht fun m hm => keep_discoveryPoll K _ _ _ m hm
  | bringUpStepTimeout => dsimp only [exec] at ht; exact onUnit_keep K h ht fun m hm => keep_bringUpStepTimeout K _ _ m hm
  | bringUpRetry => dsimp only [exec] at ht; exact onUnit_keep K h ht fun m hm => keep_bringUpRetry K _ _ m hm
  | cameraLinkLost => dsimp only [exec] at ht; exact onUnit_keep K h ht fun m hm => keep_cameraLinkLost K _ _ m hm
  | reconnect => dsimp only [exec] at ht; exact onUnit_keep K h ht fun m hm => keep_reconnect K _ _ m hm
  | linkHold => dsimp only [exec] at ht; exact onUnit_keep K h ht fun m hm => keep_linkHold K _ _ _ m hm
  | pocFault => dsimp only [exec] at ht; exact onUnit_keep K h ht fun m hm => keep_pocFault K _ _ m hm
  | pocReenable => dsimp only [exec] at ht; exact onUnit_keep K h ht fun m hm => keep_pocReenable K _ _ m hm
  | pocClear => dsimp only [exec] at ht; exact onUnit_keep K h ht fun m hm => keep_pocClear K _ _ m hm
  | triggerDue => dsimp only [exec] at ht; exact onUnit_keep K h ht fun m hm => keep_triggerDue K _ _ _ m hm
  | streamPacket => dsimp only [exec] at ht; exact onUnit_keep K h ht fun m hm => keep_streamPacket K _ _ m hm
  | lineComplete => dsimp only [exec] at ht; exact onUnit_keep K h ht fun m hm => keep_lineComplete K _ _ _ _ m hm
  | lineTimeout => dsimp only [exec] at ht; exact onUnit_keep K h ht fun m hm => keep_lineTimeout K _ _ _ m hm
  | controlAck => dsimp only [exec] at ht; exact onUnit_keep K h ht fun m hm => keep_controlAck K _ _ _ _ m hm
  | controlResend => dsimp only [exec] at ht; exact onUnit_keep K h ht fun m hm => keep_controlResend K _ _ m hm
  | cxpHeartbeat => dsimp only [exec] at ht; exact onUnit_keep K h ht fun m hm => keep_cxpHeartbeat K _ _ m hm
  | triggerCounterAudit => dsimp only [exec] at ht; exact onUnit_keep K h ht fun m hm => keep_triggerCounterAudit K _ _ _ m hm
  | cameraControlCommand => dsimp only [exec] at ht; exact onUnit_keep K h ht fun m hm => keep_cameraControlCommand K _ _ _ _ _ _ m hm
  | calCaptureEnter => dsimp only [exec] at ht; exact onUnit_keep K h ht fun m hm => keep_calCaptureEnter K _ _ _ _ _ _ m hm
  | calCaptureLeave => dsimp only [exec] at ht; exact onUnit_keep K h ht fun m hm => keep_calCaptureLeave K _ _ _ m hm
  | stripClose => dsimp only [exec] at ht; exact onUnit_keep K h ht fun m hm => keep_stripClose K _ _ m hm
  | syncReset => dsimp only [exec] at ht; exact onUnit_keep K h ht fun m hm => keep_syncResetWrite K _ _ (keep_elapse K _ _ hm)
  | routeChangeWrite => dsimp only [exec] at ht; exact onUnit_keep K h ht fun m hm => keep_routeChangeWrite K _ _ _ _ _ m hm
  | calLoad => dsimp only [exec] at ht; exact onUnit_keep K h ht fun m hm => keep_calLoad K _ _ _ _ _ m hm
  | replayStart => dsimp only [exec] at ht; exact onUnit_keep K h ht fun m hm => keep_replayStart K _ _ _ _ _ _ _ _ m hm
  | replayLine => dsimp only [exec] at ht; exact onUnit_keep K h ht fun m hm => keep_replayLine K _ _ _ m hm
  | replayStop => dsimp only [exec] at ht; exact onUnit_keep K h ht fun m hm => keep_replayStop K _ _ (keep_elapse K _ _ hm)
  | verdictGroup => dsimp only [exec] at ht; exact onUnit_keep K h ht fun m hm => keep_verdictGroup K _ _ m hm
  | overrunNotice => dsimp only [exec] at ht; exact onUnit_keep K h ht fun m hm => keep_overrunNotice K _ _ _ _ _ _ m hm
  | lateConfirmMark => dsimp only [exec] at ht; exact onUnit_keep K h ht fun m hm => keep_lateConfirmMark K _ m hm
  | mirrorAck => dsimp only [exec] at ht; exact onUnit_keep K h ht fun m hm => keep_mirrorAck K _ _ m hm
  | mirrorResend => dsimp only [exec] at ht; exact onUnit_keep K h ht fun m hm => keep_mirrorResend K _ m hm
  | mirrorTimeout => dsimp only [exec] at ht; exact onUnit_keep K h ht fun m hm => keep_mirrorTimeout K _ m hm
  | mirrorRecord => dsimp only [exec] at ht; exact onUnit_keep K h ht fun m hm => keep_mirrorRecord K _ _ _ m hm
  | mirrorKeepalive => dsimp only [exec] at ht; exact onUnit_keep K h ht fun m hm => keep_mirrorKeepalive K _ m hm
  | mirrorLinkLoss => dsimp only [exec] at ht; exact onUnit_keep K h ht fun m hm => keep_mirrorLinkLoss K _ m hm
  | slotSeal => dsimp only [exec] at ht; exact onUnit_keep K h ht fun m hm => keep_slotSeal K _ _ m hm
  | forcedClose => dsimp only [exec] at ht; exact onUnit_keep K h ht fun m hm => keep_forcedClose K _ _ _ m hm
  | statusFrame => dsimp only [exec] at ht; exact onUnit_keep K h ht fun m hm => keep_statusFrame K _ _ _ m hm
  | statusDeadline => dsimp only [exec] at ht; exact onUnit_keep K h ht fun m hm => keep_statusDeadline K _ _ m hm
  | pegPortEn => dsimp only [exec] at ht; exact onUnit_keep K h ht fun m hm => keep_pegPortEn K _ _ _ (keep_elapse K _ _ hm)
  | fullStateRequest => dsimp only [exec] at ht; exact onUnit_keep K h ht fun m hm => keep_fullStateRequest K _ _ (keep_elapse K _ _ hm)
  | quadratureEdge => dsimp only [exec] at ht; exact onUnit_keep K h ht fun m hm => keep_quadratureEdge K _ _ _ _ m hm
  | toothEdge => dsimp only [exec] at ht; exact onUnit_keep K h ht fun m hm => keep_toothEdge K _ _ _ m hm
  | toothWindowExpiry => dsimp only [exec] at ht; exact onUnit_keep K h ht fun m hm => keep_toothWindowExpiry K _ _ m hm
  | ssiSample => dsimp only [exec] at ht; exact onUnit_keep K h ht fun m hm => keep_ssiSample K _ _ _ _ m hm
  | beltStop => dsimp only [exec] at ht; exact onUnit_keep K h ht fun m hm => keep_beltStop K _ _ m hm
  | encoderLineFault => dsimp only [exec] at ht; exact onUnit_keep K h ht fun m hm => keep_encoderLineFault K _ _ _ m hm
  | lineFaultClear => dsimp only [exec] at ht; exact onUnit_keep K h ht fun m hm => keep_lineFaultClear K _ _ _ m hm
  | indexEdge => dsimp only [exec] at ht; exact onUnit_keep K h ht fun m hm => keep_indexEdge K _ _ m hm
  | probeEdge => dsimp only [exec] at ht; exact onUnit_keep K h ht fun m hm => keep_probeEdge K _ _ _ m hm
  | probeSeqRead => dsimp only [exec] at ht; exact onUnit_keep K h ht fun m hm => keep_probeSeqRead K _ _ (keep_elapse K _ _ hm)
  | fieldInputEdge => dsimp only [exec] at ht; exact onUnit_keep K h ht fun m hm => keep_fieldInputEdge K _ _ _ m hm
  | pairLong => dsimp only [exec] at ht; exact onUnit_keep K h ht fun m hm => keep_pairLong K _ _ m hm
  | wireBreak => dsimp only [exec] at ht; exact onUnit_keep K h ht fun m hm => keep_wireBreak K _ _ m hm
  | wireBreakClear => dsimp only [exec] at ht; exact onUnit_keep K h ht fun m hm => keep_wireBreakClear K _ _ m hm
  | outputFault => dsimp only [exec] at ht; exact onUnit_keep K h ht fun m hm => keep_outputFault K _ _ m hm
  | outputRetry => dsimp only [exec] at ht; exact onUnit_keep K h ht fun m hm => keep_outputRetry K _ _ _ m hm
  | fieldGroupUndervoltage => dsimp only [exec] at ht; exact onUnit_keep K h ht fun m hm => keep_fieldGroupUndervoltage K _ _ m hm
  | fioOutWrite => dsimp only [exec] at ht; exact onUnit_keep K h ht fun m hm => keep_fioOutWrite K _ _ _ (keep_elapse K _ _ hm)
  | fioEvtPop => dsimp only [exec] at ht; exact onUnit_keep K h ht fun m hm => keep_fioEvtPop K _ (keep_elapse K _ _ hm)
  | fioPairPop => dsimp only [exec] at ht; exact onUnit_keep K h ht fun m hm => keep_fioPairPop K _ (keep_elapse K _ _ hm)
  | flitReceived => dsimp only [exec] at ht; exact onUnit_keep K h ht fun m hm => keep_flitReceived K _ _ _ m hm
  | tenonNak => dsimp only [exec] at ht; exact onUnit_keep K h ht fun m hm => keep_tenonNak K _ _ m hm
  | tenonReplayTimeout => dsimp only [exec] at ht; exact onUnit_keep K h ht fun m hm => keep_tenonReplayTimeout K _ _ m hm
  | tenonRetrain => dsimp only [exec] at ht; exact onUnit_keep K h ht fun m hm => keep_tenonRetrain K _ m hm
  | tenonTrain => dsimp only [exec] at ht; exact onUnit_keep K h ht fun m hm => keep_tenonTrain K _ _ _ _ m hm
  | tenonTrainRetry => dsimp only [exec] at ht; exact onUnit_keep K h ht fun m hm => keep_tenonTrainRetry K _ _ _ _ m hm
  | tenonResponse => dsimp only [exec] at ht; exact onUnit_keep K h ht fun m hm => keep_tenonResponse K _ _ m hm
  | tenonRequestTimeout => dsimp only [exec] at ht; exact onUnit_keep K h ht fun m hm => keep_tenonRequestTimeout K _ _ m hm
  | purlinFrame => dsimp only [exec] at ht; exact onUnit_keep K h ht fun m hm => keep_purlinFrame K _ _ _ _ m hm
  | purlinAck => dsimp only [exec] at ht; exact onUnit_keep K h ht fun m hm => keep_purlinAck K _ _ _ _ m hm
  | purlinNak => dsimp only [exec] at ht; exact onUnit_keep K h ht fun m hm => keep_purlinNak K _ _ _ _ m hm
  | purlinRto => dsimp only [exec] at ht; exact onUnit_keep K h ht fun m hm => keep_purlinRto K _ _ _ m hm
  | hello => dsimp only [exec] at ht; exact onUnit_keep K h ht fun m hm => keep_helloIn K _ _ _ m hm
  | helloSend => dsimp only [exec] at ht; exact onUnit_keep K h ht fun m hm => keep_helloSend K _ _ m hm
  | linkFrame => dsimp only [exec] at ht; exact onUnit_keep K h ht fun m hm => keep_linkFrameIn K _ _ _ m hm
  | marksFrame => dsimp only [exec] at ht; exact onUnit_keep K h ht fun m hm => keep_marksFrameIn K _ _ m hm
  | marksDeadline => dsimp only [exec] at ht; exact onUnit_keep K h ht fun m hm => keep_marksDeadline K _ m hm
  | purlinPortDown => dsimp only [exec] at ht; exact onUnit_keep K h ht fun m hm => keep_purlinPortDown K _ _ _ m hm
  | purlinTrain => dsimp only [exec] at ht; exact onUnit_keep K h ht fun m hm => keep_purlinTrain K _ _ _ m hm
  | purlinAuthRetry => dsimp only [exec] at ht; exact onUnit_keep K h ht fun m hm => keep_purlinAuthRetry K _ _ _ m hm
  | purlinRekey => dsimp only [exec] at ht; exact onUnit_keep K h ht fun m hm => keep_purlinRekey K _ _ m hm
  | lpiEntry => dsimp only [exec] at ht; exact onUnit_keep K h ht fun m hm => keep_lpiEntry K _ _ m hm
  | wakeWindow => dsimp only [exec] at ht; exact onUnit_keep K h ht fun m hm => keep_wakeWindow K _ _ _ _ _ m hm
  | guardMiss => dsimp only [exec] at ht; exact onUnit_keep K h ht fun m hm => keep_guardMissed K _ _ m hm
  | purlinRetrain => dsimp only [exec] at ht; exact onUnit_keep K h ht fun m hm => keep_purlinRetrain K _ _ m hm
  | purlinHold => dsimp only [exec] at ht; exact onUnit_keep K h ht fun m hm => keep_purlinHold K _ _ _ m hm
  | lpiReenable => dsimp only [exec] at ht; exact onUnit_keep K h ht fun m hm => keep_lpiReenable K _ _ m hm
  | routeSwap => dsimp only [exec] at ht; exact onUnit_keep K h ht fun m hm => keep_routeSwap K _ m hm
  | routeTableWrite => dsimp only [exec] at ht; exact onUnit_keep K h ht fun m hm => keep_signedRouteTableWrite K _ _ _ _ _ m hm
  | ptpMessage => dsimp only [exec] at ht; exact onUnit_keep K h ht fun m hm => keep_ptpMessage K _ _ _ _ _ _ m hm
  | tb0IncWrite => dsimp only [exec] at ht; exact onUnit_keep K h ht fun m hm => keep_tb0IncWrite K _ _ _ m hm
  | tb0StepRequest => dsimp only [exec] at ht; exact onUnit_keep K h ht fun m hm => keep_tb0StepRequest K _ _ m hm
  | tb1Step => dsimp only [exec] at ht; exact onUnit_keep K h ht fun m hm => keep_tb1Step K _ _ m hm
  | acceptStep => dsimp only [exec] at ht; exact onUnit_keep K h ht fun m hm => keep_signedAcceptStep K _ _ m hm
  | acceptStepLapse => dsimp only [exec] at ht; exact onUnit_keep K h ht fun m hm => keep_acceptStepLapse K _ m hm
  | referenceValidityChange => dsimp only [exec] at ht; exact onUnit_keep K h ht fun m hm => keep_referenceValidityChange K _ _ _ m hm
  | referenceQualified => dsimp only [exec] at ht; exact onUnit_keep K h ht fun m hm => keep_referenceQualified K _ _ m hm
  | holdoverLong => dsimp only [exec] at ht; exact onUnit_keep K h ht fun m hm => keep_holdoverLong K _ m hm
  | ppsInEdge => dsimp only [exec] at ht; exact onUnit_keep K h ht fun m hm => keep_ppsInEdge K _ m hm
  | ppsMissing => dsimp only [exec] at ht; exact onUnit_keep K h ht fun m hm => keep_ppsMissing K _ m hm
  | ppsOutSecond => dsimp only [exec] at ht; exact onUnit_keep K h ht fun m hm => keep_ppsOutSecond K _ m hm
  | witQuery => dsimp only [exec] at ht; exact onUnit_keep K h ht fun m hm => keep_witQuery K _ (keep_elapse K _ _ hm)
  | lockRearm => dsimp only [exec] at ht; exact onUnit_keep K h ht fun m hm => keep_lockRearm K _ (keep_elapse K _ _ hm)
  | sourceAssert => dsimp only [exec] at ht; exact onUnit_keep K h ht fun m hm => keep_sourceAssert K _ _ _ _ _ m hm
  | bucketLeak => dsimp only [exec] at ht; exact onUnit_keep K h ht fun m hm => keep_bucketLeak K _ _ _ m hm
  | graceExpiry => dsimp only [exec] at ht; exact onUnit_keep K h ht fun m hm => keep_graceExpiry K _ m hm
  | pendingAck => dsimp only [exec] at ht; exact onUnit_keep K h ht fun m hm => keep_pendingAck K _ _ _ m hm
  | selfFault => dsimp only [exec] at ht; exact onUnit_keep K h ht fun m hm => keep_selfFault K _ _ _ m hm
  | faultLinkLoss => dsimp only [exec] at ht; exact onUnit_keep K h ht fun m hm => keep_faultLinkLoss K _ _ m hm
  | raisedRestore => dsimp only [exec] at ht; exact onUnit_keep K h ht fun m hm => keep_signedRaisedRestore K _ _ _ _ m hm
  | degradeMaskWrite => dsimp only [exec] at ht; exact onUnit_keep K h ht fun m hm => keep_degradeMaskWrite K _ _ (keep_elapse K _ _ hm)
  | safeReq => dsimp only [exec] at ht; exact onUnit_keep K h ht fun m hm => keep_safeReq K _ (keep_elapse K _ _ hm)
  | safeReqN => dsimp only [exec] at ht; exact onUnit_keep K h ht fun m hm => keep_safeReqN K _ _ m hm
  | fireOutReq => dsimp only [exec] at ht; exact onUnit_keep K h ht fun m hm => keep_fireOutReq K _ (keep_elapse K _ _ hm)
  | resume => dsimp only [exec] at ht; exact onUnit_keep K h ht fun m hm => keep_signedResume K _ _ m hm
  | promote => dsimp only [exec] at ht; exact onUnit_keep K h ht fun m hm => keep_promote K _ _ m hm
  | kick => dsimp only [exec] at ht; exact onUnit_keep K h ht fun m hm => keep_kick K _ m hm
  | watchdogExpiry => dsimp only [exec] at ht; exact onUnit_keep K h ht fun m hm => keep_watchdogExpiry K _ m hm
  | powerOn => dsimp only [exec] at ht; exact onSupply_keep h ht fun m hm => keep_powerOn K _ _ _ m hm
  | resetN => dsimp only [exec] at ht; exact onSupply_keep h ht fun m hm => keep_resetN K _ _ m hm
  | wresetN => dsimp only [exec] at ht; exact onUnit_keep K h ht fun m hm => keep_wresetN K _ _ m hm
  | coldReq => dsimp only [exec] at ht; exact onUnit_keep K h ht fun m hm => keep_coldReq K _ _ m hm
  | warmReq => dsimp only [exec] at ht; exact onUnit_keep K h ht fun m hm => keep_warmReq K _ _ m hm
  | softReset => dsimp only [exec] at ht; exact onUnit_keep K h ht fun m hm => keep_softReset K _ _ m hm
  | optionLoad => dsimp only [exec] at ht; exact onUnit_keep K h ht fun m hm => keep_optionLoad K _ _ _ m hm
  | coldStart => dsimp only [exec] at ht; exact onUnit_keep K h ht fun m hm => keep_coldStart K _ _ _ _ m hm
  | baysStart => dsimp only [exec] at ht; exact onUnit_keep K h ht fun m hm => keep_baysStart K _ m hm
  | timeWaitExpiry => dsimp only [exec] at ht; exact onUnit_keep K h ht fun m hm => keep_timeWaitExpiry K _ m hm
  | safeExit => dsimp only [exec] at ht; exact onUnit_keep K h ht fun m hm => keep_safeExit K _ m hm
  | warmRestart => dsimp only [exec] at ht; exact onUnit_keep K h ht fun m hm => keep_warmRestart K _ _ _ _ m hm
  | domainPowerFail => dsimp only [exec] at ht; exact onUnit_keep K h ht fun m hm => keep_domainPowerFail K _ _ m hm
  | mainInputFail => dsimp only [exec] at ht; exact onSupply_keep h ht fun m hm => keep_mainInputFail K m hm
  | tamperEvent => dsimp only [exec] at ht; exact onUnit_keep K h ht fun m hm => keep_tamperEvent K _ _ m hm
  | zeroise => dsimp only [exec] at ht; exact onUnit_keep K h ht fun m hm => keep_zeroise K _ _ m hm
  | commissioning => dsimp only [exec] at ht; exact onUnit_keep K h ht fun m hm => keep_commissioning K _ _ _ m hm
  | ownerRotation => dsimp only [exec] at ht; exact onUnit_keep K h ht fun m hm => keep_ownerRotation K _ _ _ m hm
  | decommissioning => dsimp only [exec] at ht; exact onUnit_keep K h ht fun m hm => keep_decommissioning K _ _ m hm
  | antiRollbackAdvance => dsimp only [exec] at ht; exact onUnit_keep K h ht fun m hm => keep_antiRollbackAdvance K _ _ _ _ m hm
  | debugUnlock => dsimp only [exec] at ht; exact onUnit_keep K h ht fun m hm => keep_debugUnlock K _ _ _ _ m hm
  | sessionOpen => dsimp only [exec] at ht; exact onUnit_keep K h ht fun m hm => keep_sessionOpen K _ _ _ _ _ m hm
  | sessionIdleTimeout => dsimp only [exec] at ht; exact onUnit_keep K h ht fun m hm => keep_sessionIdleTimeout K _ _ m hm
  | challengeExpiry => dsimp only [exec] at ht; exact onUnit_keep K h ht fun m hm => keep_challengeExpiry K _ m hm
  | read => dsimp only [exec] at ht; exact onUnit_keep K h ht fun m hm => keep_readMessage K _ _ _ _ m hm
  | write => dsimp only [exec] at ht; exact onUnit_keep K h ht fun m hm => keep_writeMessage K _ _ _ _ _ m hm
  | registerWrite => dsimp only [exec] at ht; exact onUnit_keep K h ht fun m hm => keep_registerWrite K _ _ _ _ _ m hm
  | challenge => dsimp only [exec] at ht; exact onUnit_keep K h ht fun m hm => keep_challenge K _ _ m hm
  | result => dsimp only [exec] at ht; exact onUnit_keep K h ht fun m hm => keep_result K _ _ _ m hm
  | subscribe => dsimp only [exec] at ht; exact onUnit_keep K h ht fun m hm => keep_subscribe K _ _ _ _ _ m hm
  | unsubscribe => dsimp only [exec] at ht; exact onUnit_keep K h ht fun m hm => keep_unsubscribe K _ _ _ m hm
  | attest => dsimp only [exec] at ht; exact onUnit_keep K h ht fun m hm => keep_attest K _ _ _ m hm
  | logRead => dsimp only [exec] at ht; exact onUnit_keep K h ht fun m hm => keep_logRead K _ _ _ _ _ m hm
  | label => dsimp only [exec] at ht; exact onUnit_keep K h ht fun m hm => keep_label K _ _ _ _ _ m hm
  | question => dsimp only [exec] at ht; exact onUnit_keep K h ht fun m hm => keep_question K _ _ _ _ _ _ _ _ _ m hm
  | cancel => dsimp only [exec] at ht; exact onUnit_keep K h ht fun m hm => keep_cancel K _ _ _ m hm
  | keepalive => dsimp only [exec] at ht; exact onUnit_keep K h ht fun m hm => keep_keepalive K _ _ m hm
  | tokenGenerate => dsimp only [exec] at ht; exact onUnit_keep K h ht fun m hm => keep_tokenGenerate K _ _ _ _ m hm
  | streamDatagram => dsimp only [exec] at ht; exact onUnit_keep K h ht fun m hm => keep_streamDatagram K _ _ m hm
  | ethFrame => dsimp only [exec] at ht; exact onUnit_keep K h ht fun m hm => keep_ethFrame K _ _ _ _ m hm
  | ethLinkDown => dsimp only [exec] at ht; exact onUnit_keep K h ht fun m hm => keep_ethLinkDown K _ _ m hm
  | ethTsPop => dsimp only [exec] at ht; exact onUnit_keep K h ht fun m hm => keep_ethTsPop K _ _ m hm
  | trainStart => dsimp only [exec] at ht; exact onUnit_keep K h ht fun m hm => keep_trainStart K _ _ _ _ _ _ _ _ m hm
  | trainingStep => dsimp only [exec] at ht; exact onUnit_keep K h ht fun m hm => keep_trainingStep K _ _ _ _ m hm
  | adaptStop => dsimp only [exec] at ht; exact onUnit_keep K h ht fun m hm => keep_adaptStop K _ _ (keep_elapse K _ _ hm)
  | approveHead => dsimp only [exec] at ht; exact onUnit_keep K h ht fun m hm => keep_approveHead K _ _ _ _ _ m hm
  | revertHead => dsimp only [exec] at ht; exact onUnit_keep K h ht fun m hm => keep_revertHead K _ _ _ m hm
  | classPrompt => dsimp only [exec] at ht; exact onUnit_keep K h ht fun m hm => keep_classPrompt K _ _ _ _ _ _ m hm
  | scrubLap => dsimp only [exec] at ht; exact onUnit_keep K h ht fun m hm => keep_scrubLap K _ _ _ m hm
  | thermalSample => dsimp only [exec] at ht; exact onUnit_keep K h ht fun m hm => keep_thermalSample K _ _ _ _ m hm
  | powerSample => dsimp only [exec] at ht; exact onUnit_keep K h ht fun m hm => keep_powerSample K _ _ _ m hm
  | fanTachLoss => dsimp only [exec] at ht; exact onUnit_keep K h ht fun m hm => keep_fanTachLoss K _ _ m hm
  | fanTimer => dsimp only [exec] at ht; exact onUnit_keep K h ht fun m hm => keep_fanTimer K _ _ _ m hm
  | fanRetry => dsimp only [exec] at ht; exact onUnit_keep K h ht fun m hm => keep_fanRetry K _ _ m hm
  | i2cTransaction => dsimp only [exec] at ht; exact onUnit_keep K h ht fun m hm => keep_i2cTransaction K _ _ _ _ _ _ m hm
  | smbusTimeout => dsimp only [exec] at ht; exact onUnit_keep K h ht fun m hm => keep_smbusTimeout K _ _ m hm
  | busStuck => dsimp only [exec] at ht; exact onUnit_keep K h ht fun m hm => keep_busStuck K _ _ _ _ m hm
  | i2cRecoveryRetry => dsimp only [exec] at ht; exact onUnit_keep K h ht fun m hm => keep_i2cRecoveryRetry K _ _ _ _ m hm
  | pmbusPoll => dsimp only [exec] at ht; exact onUnit_keep K h ht fun m hm => keep_pmbusPoll K _ _ m hm
  | pwrGoodFall => dsimp only [exec] at ht; exact onSupply_keep h ht fun m hm => keep_pwrGoodFall K m hm
  | fieldGroupSupplyReturn => dsimp only [exec] at ht; exact onUnit_keep K h ht fun m hm => keep_fieldGroupSupplyReturn K _ _ m hm
  | uncorrectableCodeword => dsimp only [exec] at ht; exact onUnit_keep K h ht fun m hm => keep_uncorrectableCodeword K _ _ _ m hm
  | purlinTrainRetry => dsimp only [exec] at ht; exact onUnit_keep K h ht fun m hm => keep_purlinTrainRetry K _ _ m hm
  | sessionClose => dsimp only [exec] at ht; exact onUnit_keep K h ht fun m hm => keep_sessionClose K _ _ m hm
  | ethLinkUp => dsimp only [exec] at ht; exact onUnit_keep K h ht fun m hm => keep_ethLinkUp K _ _ m hm
  | ptpDelayRequest => dsimp only [exec] at ht; exact onUnit_keep K h ht fun m hm => keep_ptpDelayRequest K _ _ _ _ m hm
  | badRequestMessage => dsimp only [exec] at ht; exact onUnit_keep K h ht fun m hm => keep_badRequestMessage K _ _ m hm
  | boundaryScanInstruction => dsimp only [exec] at ht; exact onUnit_keep K h ht fun m hm => keep_boundaryScanInstruction K _ _ _ m hm

/-- Every meaning has the one form: `onUnit`, or `onSupply` for the commands of the supply, guarded by what makes the command well
formed; its effect does not look at the queue. -/
theorem exec_form (i : Instr) :
    (ofSupply i = false ∧ ∃ dt eff, ∀ s, exec i s = onUnit i.wf dt eff s) ∨
      (ofSupply i = true ∧ ∃ eff, ∀ s, exec i s = onSupply i.wf eff s) := by
  cases i with
  | bayBoundary => exact .inl ⟨rfl, _, _, fun _ => rfl⟩
  | markSetDeadline => exact .inl ⟨rfl, _, _, fun _ => rfl⟩
  | verdictDeadline => exact .inl ⟨rfl, _, _, fun _ => rfl⟩
  | endGuardSeal => exact .inl ⟨rfl, _, _, fun _ => rfl⟩
  | matmul => exact .inl ⟨rfl, _, _, fun _ => rfl⟩
  | combine => exact .inl ⟨rfl, _, _, fun _ => rfl⟩
  | vector => exact .inl ⟨rfl, _, _, fun _ => rfl⟩
  | dmaCopy => exact .inl ⟨rfl, _, _, fun _ => rfl⟩
  | dmaClear => exact .inl ⟨rfl, _, _, fun _ => rfl⟩
  | windowConv => exact .inl ⟨rfl, _, _, fun _ => rfl⟩
  | windowMaxpool => exact .inl ⟨rfl, _, _, fun _ => rfl⟩
  | windowAvgpool => exact .inl ⟨rfl, _, _, fun _ => rfl⟩
  | windowUpsample => exact .inl ⟨rfl, _, _, fun _ => rfl⟩
  | spectralConv2d => exact .inl ⟨rfl, _, _, fun _ => rfl⟩
  | detect => exact .inl ⟨rfl, _, _, fun _ => rfl⟩
  | attend => exact .inl ⟨rfl, _, _, fun _ => rfl⟩
  | append => exact .inl ⟨rfl, _, _, fun _ => rfl⟩
  | screen => exact .inl ⟨rfl, _, _, fun _ => rfl⟩
  | screeningOutputRelease => exact .inl ⟨rfl, _, _, fun _ => rfl⟩
  | tenonDma => exact .inl ⟨rfl, _, _, fun _ => rfl⟩
  | purlinDma => exact .inl ⟨rfl, _, _, fun _ => rfl⟩
  | cmDma => exact .inl ⟨rfl, _, _, fun _ => rfl⟩
  | gate => exact .inl ⟨rfl, _, _, fun _ => rfl⟩
  | wake => exact .inl ⟨rfl, _, _, fun _ => rfl⟩
  | backgroundWindow => exact .inl ⟨rfl, _, _, fun _ => rfl⟩
  | backgroundSegment => exact .inl ⟨rfl, _, _, fun _ => rfl⟩
  | segmentRollback => exact .inl ⟨rfl, _, _, fun _ => rfl⟩
  | commandComplete => exact .inl ⟨rfl, _, _, fun _ => rfl⟩
  | sampleCapture => exact .inl ⟨rfl, _, _, fun _ => rfl⟩
  | adaptCommit => exact .inl ⟨rfl, _, _, fun _ => rfl⟩
  | jobCtrlWrite => exact .inl ⟨rfl, _, _, fun _ => rfl⟩
  | marginReset => exact .inl ⟨rfl, _, _, fun _ => rfl⟩
  | readLoLatch => exact .inl ⟨rfl, _, _, fun _ => rfl⟩
  | cameraBringUp => exact .inl ⟨rfl, _, _, fun _ => rfl⟩
  | discoveryPoll => exact .inl ⟨rfl, _, _, fun _ => rfl⟩
  | bringUpStepTimeout => exact .inl ⟨rfl, _, _, fun _ => rfl⟩
  | bringUpRetry => exact .inl ⟨rfl, _, _, fun _ => rfl⟩
  | cameraLinkLost => exact .inl ⟨rfl, _, _, fun _ => rfl⟩
  | reconnect => exact .inl ⟨rfl, _, _, fun _ => rfl⟩
  | linkHold => exact .inl ⟨rfl, _, _, fun _ => rfl⟩
  | pocFault => exact .inl ⟨rfl, _, _, fun _ => rfl⟩
  | pocReenable => exact .inl ⟨rfl, _, _, fun _ => rfl⟩
  | pocClear => exact .inl ⟨rfl, _, _, fun _ => rfl⟩
  | triggerDue => exact .inl ⟨rfl, _, _, fun _ => rfl⟩
  | streamPacket => exact .inl ⟨rfl, _, _, fun _ => rfl⟩
  | lineComplete => exact .inl ⟨rfl, _, _, fun _ => rfl⟩
  | lineTimeout => exact .inl ⟨rfl, _, _, fun _ => rfl⟩
  | controlAck => exact .inl ⟨rfl, _, _, fun _ => rfl⟩
  | controlResend => exact .inl ⟨rfl, _, _, fun _ => rfl⟩
  | cxpHeartbeat => exact .inl ⟨rfl, _, _, fun _ => rfl⟩
  | triggerCounterAudit => exact .inl ⟨rfl, _, _, fun _ => rfl⟩
  | cameraControlCommand => exact .inl ⟨rfl, _, _, fun _ => rfl⟩
  | calCaptureEnter => exact .inl ⟨rfl, _, _, fun _ => rfl⟩
  | calCaptureLeave => exact .inl ⟨rfl, _, _, fun _ => rfl⟩
  | stripClose => exact .inl ⟨rfl, _, _, fun _ => rfl⟩
  | syncReset => exact .inl ⟨rfl, _, _, fun _ => rfl⟩
  | routeChangeWrite => exact .inl ⟨rfl, _, _, fun _ => rfl⟩
  | calLoad => exact .inl ⟨rfl, _, _, fun _ => rfl⟩
  | replayStart => exact .inl ⟨rfl, _, _, fun _ => rfl⟩
  | replayLine => exact .inl ⟨rfl, _, _, fun _ => rfl⟩
  | replayStop => exact .inl ⟨rfl, _, _, fun _ => rfl⟩
  | verdictGroup => exact .inl ⟨rfl, _, _, fun _ => rfl⟩
  | overrunNotice => exact .inl ⟨rfl, _, _, fun _ => rfl⟩
  | lateConfirmMark => exact .inl ⟨rfl, _, _, fun _ => rfl⟩
  | mirrorAck => exact .inl ⟨rfl, _, _, fun _ => rfl⟩
  | mirrorResend => exact .inl ⟨rfl, _, _, fun _ => rfl⟩
  | mirrorTimeout => exact .inl ⟨rfl, _, _, fun _ => rfl⟩
  | mirrorRecord => exact .inl ⟨rfl, _, _, fun _ => rfl⟩
  | mirrorKeepalive => exact .inl ⟨rfl, _, _, fun _ => rfl⟩
  | mirrorLinkLoss => exact .inl ⟨rfl, _, _, fun _ => rfl⟩
  | slotSeal => exact .inl ⟨rfl, _, _, fun _ => rfl⟩
  | forcedClose => exact .inl ⟨rfl, _, _, fun _ => rfl⟩
  | statusFrame => exact .inl ⟨rfl, _, _, fun _ => rfl⟩
  | statusDeadline => exact .inl ⟨rfl, _, _, fun _ => rfl⟩
  | pegPortEn => exact .inl ⟨rfl, _, _, fun _ => rfl⟩
  | fullStateRequest => exact .inl ⟨rfl, _, _, fun _ => rfl⟩
  | quadratureEdge => exact .inl ⟨rfl, _, _, fun _ => rfl⟩
  | toothEdge => exact .inl ⟨rfl, _, _, fun _ => rfl⟩
  | toothWindowExpiry => exact .inl ⟨rfl, _, _, fun _ => rfl⟩
  | ssiSample => exact .inl ⟨rfl, _, _, fun _ => rfl⟩
  | beltStop => exact .inl ⟨rfl, _, _, fun _ => rfl⟩
  | encoderLineFault => exact .inl ⟨rfl, _, _, fun _ => rfl⟩
  | lineFaultClear => exact .inl ⟨rfl, _, _, fun _ => rfl⟩
  | indexEdge => exact .inl ⟨rfl, _, _, fun _ => rfl⟩
  | probeEdge => exact .inl ⟨rfl, _, _, fun _ => rfl⟩
  | probeSeqRead => exact .inl ⟨rfl, _, _, fun _ => rfl⟩
  | fieldInputEdge => exact .inl ⟨rfl, _, _, fun _ => rfl⟩
  | pairLong => exact .inl ⟨rfl, _, _, fun _ => rfl⟩
  | wireBreak => exact .inl ⟨rfl, _, _, fun _ => rfl⟩
  | wireBreakClear => exact .inl ⟨rfl, _, _, fun _ => rfl⟩
  | outputFault => exact .inl ⟨rfl, _, _, fun _ => rfl⟩
  | outputRetry => exact .inl ⟨rfl, _, _, fun _ => rfl⟩
  | fieldGroupUndervoltage => exact .inl ⟨rfl, _, _, fun _ => rfl⟩
  | fioOutWrite => exact .inl ⟨rfl, _, _, fun _ => rfl⟩
  | fioEvtPop => exact .inl ⟨rfl, _, _, fun _ => rfl⟩
  | fioPairPop => exact .inl ⟨rfl, _, _, fun _ => rfl⟩
  | flitReceived => exact .inl ⟨rfl, _, _, fun _ => rfl⟩
  | tenonNak => exact .inl ⟨rfl, _, _, fun _ => rfl⟩
  | tenonReplayTimeout => exact .inl ⟨rfl, _, _, fun _ => rfl⟩
  | tenonRetrain => exact .inl ⟨rfl, _, _, fun _ => rfl⟩
  | tenonTrain => exact .inl ⟨rfl, _, _, fun _ => rfl⟩
  | tenonTrainRetry => exact .inl ⟨rfl, _, _, fun _ => rfl⟩
  | tenonResponse => exact .inl ⟨rfl, _, _, fun _ => rfl⟩
  | tenonRequestTimeout => exact .inl ⟨rfl, _, _, fun _ => rfl⟩
  | purlinFrame => exact .inl ⟨rfl, _, _, fun _ => rfl⟩
  | purlinAck => exact .inl ⟨rfl, _, _, fun _ => rfl⟩
  | purlinNak => exact .inl ⟨rfl, _, _, fun _ => rfl⟩
  | purlinRto => exact .inl ⟨rfl, _, _, fun _ => rfl⟩
  | hello => exact .inl ⟨rfl, _, _, fun _ => rfl⟩
  | helloSend => exact .inl ⟨rfl, _, _, fun _ => rfl⟩
  | linkFrame => exact .inl ⟨rfl, _, _, fun _ => rfl⟩
  | marksFrame => exact .inl ⟨rfl, _, _, fun _ => rfl⟩
  | marksDeadline => exact .inl ⟨rfl, _, _, fun _ => rfl⟩
  | purlinPortDown => exact .inl ⟨rfl, _, _, fun _ => rfl⟩
  | purlinTrain => exact .inl ⟨rfl, _, _, fun _ => rfl⟩
  | purlinAuthRetry => exact .inl ⟨rfl, _, _, fun _ => rfl⟩
  | purlinRekey => exact .inl ⟨rfl, _, _, fun _ => rfl⟩
  | lpiEntry => exact .inl ⟨rfl, _, _, fun _ => rfl⟩
  | wakeWindow => exact .inl ⟨rfl, _, _, fun _ => rfl⟩
  | guardMiss => exact .inl ⟨rfl, _, _, fun _ => rfl⟩
  | purlinRetrain => exact .inl ⟨rfl, _, _, fun _ => rfl⟩
  | purlinHold => exact .inl ⟨rfl, _, _, fun _ => rfl⟩
  | lpiReenable => exact .inl ⟨rfl, _, _, fun _ => rfl⟩
  | routeSwap => exact .inl ⟨rfl, _, _, fun _ => rfl⟩
  | routeTableWrite => exact .inl ⟨rfl, _, _, fun _ => rfl⟩
  | ptpMessage => exact .inl ⟨rfl, _, _, fun _ => rfl⟩
  | tb0IncWrite => exact .inl ⟨rfl, _, _, fun _ => rfl⟩
  | tb0StepRequest => exact .inl ⟨rfl, _, _, fun _ => rfl⟩
  | tb1Step => exact .inl ⟨rfl, _, _, fun _ => rfl⟩
  | acceptStep => exact .inl ⟨rfl, _, _, fun _ => rfl⟩
  | acceptStepLapse => exact .inl ⟨rfl, _, _, fun _ => rfl⟩
  | referenceValidityChange => exact .inl ⟨rfl, _, _, fun _ => rfl⟩
  | referenceQualified => exact .inl ⟨rfl, _, _, fun _ => rfl⟩
  | holdoverLong => exact .inl ⟨rfl, _, _, fun _ => rfl⟩
  | ppsInEdge => exact .inl ⟨rfl, _, _, fun _ => rfl⟩
  | ppsMissing => exact .inl ⟨rfl, _, _, fun _ => rfl⟩
  | ppsOutSecond => exact .inl ⟨rfl, _, _, fun _ => rfl⟩
  | witQuery => exact .inl ⟨rfl, _, _, fun _ => rfl⟩
  | lockRearm => exact .inl ⟨rfl, _, _, fun _ => rfl⟩
  | sourceAssert => exact .inl ⟨rfl, _, _, fun _ => rfl⟩
  | bucketLeak => exact .inl ⟨rfl, _, _, fun _ => rfl⟩
  | graceExpiry => exact .inl ⟨rfl, _, _, fun _ => rfl⟩
  | pendingAck => exact .inl ⟨rfl, _, _, fun _ => rfl⟩
  | selfFault => exact .inl ⟨rfl, _, _, fun _ => rfl⟩
  | faultLinkLoss => exact .inl ⟨rfl, _, _, fun _ => rfl⟩
  | raisedRestore => exact .inl ⟨rfl, _, _, fun _ => rfl⟩
  | degradeMaskWrite => exact .inl ⟨rfl, _, _, fun _ => rfl⟩
  | safeReq => exact .inl ⟨rfl, _, _, fun _ => rfl⟩
  | safeReqN => exact .inl ⟨rfl, _, _, fun _ => rfl⟩
  | fireOutReq => exact .inl ⟨rfl, _, _, fun _ => rfl⟩
  | resume => exact .inl ⟨rfl, _, _, fun _ => rfl⟩
  | promote => exact .inl ⟨rfl, _, _, fun _ => rfl⟩
  | kick => exact .inl ⟨rfl, _, _, fun _ => rfl⟩
  | watchdogExpiry => exact .inl ⟨rfl, _, _, fun _ => rfl⟩
  | powerOn => exact .inr ⟨rfl, _, fun _ => rfl⟩
  | resetN => exact .inr ⟨rfl, _, fun _ => rfl⟩
  | wresetN => exact .inl ⟨rfl, _, _, fun _ => rfl⟩
  | coldReq => exact .inl ⟨rfl, _, _, fun _ => rfl⟩
  | warmReq => exact .inl ⟨rfl, _, _, fun _ => rfl⟩
  | softReset => exact .inl ⟨rfl, _, _, fun _ => rfl⟩
  | optionLoad => exact .inl ⟨rfl, _, _, fun _ => rfl⟩
  | coldStart => exact .inl ⟨rfl, _, _, fun _ => rfl⟩
  | baysStart => exact .inl ⟨rfl, _, _, fun _ => rfl⟩
  | timeWaitExpiry => exact .inl ⟨rfl, _, _, fun _ => rfl⟩
  | safeExit => exact .inl ⟨rfl, _, _, fun _ => rfl⟩
  | warmRestart => exact .inl ⟨rfl, _, _, fun _ => rfl⟩
  | domainPowerFail => exact .inl ⟨rfl, _, _, fun _ => rfl⟩
  | mainInputFail => exact .inr ⟨rfl, _, fun _ => rfl⟩
  | tamperEvent => exact .inl ⟨rfl, _, _, fun _ => rfl⟩
  | zeroise => exact .inl ⟨rfl, _, _, fun _ => rfl⟩
  | commissioning => exact .inl ⟨rfl, _, _, fun _ => rfl⟩
  | ownerRotation => exact .inl ⟨rfl, _, _, fun _ => rfl⟩
  | decommissioning => exact .inl ⟨rfl, _, _, fun _ => rfl⟩
  | antiRollbackAdvance => exact .inl ⟨rfl, _, _, fun _ => rfl⟩
  | debugUnlock => exact .inl ⟨rfl, _, _, fun _ => rfl⟩
  | sessionOpen => exact .inl ⟨rfl, _, _, fun _ => rfl⟩
  | sessionIdleTimeout => exact .inl ⟨rfl, _, _, fun _ => rfl⟩
  | challengeExpiry => exact .inl ⟨rfl, _, _, fun _ => rfl⟩
  | read => exact .inl ⟨rfl, _, _, fun _ => rfl⟩
  | write => exact .inl ⟨rfl, _, _, fun _ => rfl⟩
  | registerWrite => exact .inl ⟨rfl, _, _, fun _ => rfl⟩
  | challenge => exact .inl ⟨rfl, _, _, fun _ => rfl⟩
  | result => exact .inl ⟨rfl, _, _, fun _ => rfl⟩
  | subscribe => exact .inl ⟨rfl, _, _, fun _ => rfl⟩
  | unsubscribe => exact .inl ⟨rfl, _, _, fun _ => rfl⟩
  | attest => exact .inl ⟨rfl, _, _, fun _ => rfl⟩
  | logRead => exact .inl ⟨rfl, _, _, fun _ => rfl⟩
  | label => exact .inl ⟨rfl, _, _, fun _ => rfl⟩
  | question => exact .inl ⟨rfl, _, _, fun _ => rfl⟩
  | cancel => exact .inl ⟨rfl, _, _, fun _ => rfl⟩
  | keepalive => exact .inl ⟨rfl, _, _, fun _ => rfl⟩
  | tokenGenerate => exact .inl ⟨rfl, _, _, fun _ => rfl⟩
  | streamDatagram => exact .inl ⟨rfl, _, _, fun _ => rfl⟩
  | ethFrame => exact .inl ⟨rfl, _, _, fun _ => rfl⟩
  | ethLinkDown => exact .inl ⟨rfl, _, _, fun _ => rfl⟩
  | ethTsPop => exact .inl ⟨rfl, _, _, fun _ => rfl⟩
  | trainStart => exact .inl ⟨rfl, _, _, fun _ => rfl⟩
  | trainingStep => exact .inl ⟨rfl, _, _, fun _ => rfl⟩
  | adaptStop => exact .inl ⟨rfl, _, _, fun _ => rfl⟩
  | approveHead => exact .inl ⟨rfl, _, _, fun _ => rfl⟩
  | revertHead => exact .inl ⟨rfl, _, _, fun _ => rfl⟩
  | classPrompt => exact .inl ⟨rfl, _, _, fun _ => rfl⟩
  | scrubLap => exact .inl ⟨rfl, _, _, fun _ => rfl⟩
  | thermalSample => exact .inl ⟨rfl, _, _, fun _ => rfl⟩
  | powerSample => exact .inl ⟨rfl, _, _, fun _ => rfl⟩
  | fanTachLoss => exact .inl ⟨rfl, _, _, fun _ => rfl⟩
  | fanTimer => exact .inl ⟨rfl, _, _, fun _ => rfl⟩
  | fanRetry => exact .inl ⟨rfl, _, _, fun _ => rfl⟩
  | i2cTransaction => exact .inl ⟨rfl, _, _, fun _ => rfl⟩
  | smbusTimeout => exact .inl ⟨rfl, _, _, fun _ => rfl⟩
  | busStuck => exact .inl ⟨rfl, _, _, fun _ => rfl⟩
  | i2cRecoveryRetry => exact .inl ⟨rfl, _, _, fun _ => rfl⟩
  | pmbusPoll => exact .inl ⟨rfl, _, _, fun _ => rfl⟩
  | pwrGoodFall => exact .inr ⟨rfl, _, fun _ => rfl⟩
  | fieldGroupSupplyReturn => exact .inl ⟨rfl, _, _, fun _ => rfl⟩
  | uncorrectableCodeword => exact .inl ⟨rfl, _, _, fun _ => rfl⟩
  | purlinTrainRetry => exact .inl ⟨rfl, _, _, fun _ => rfl⟩
  | sessionClose => exact .inl ⟨rfl, _, _, fun _ => rfl⟩
  | ethLinkUp => exact .inl ⟨rfl, _, _, fun _ => rfl⟩
  | ptpDelayRequest => exact .inl ⟨rfl, _, _, fun _ => rfl⟩
  | badRequestMessage => exact .inl ⟨rfl, _, _, fun _ => rfl⟩
  | boundaryScanInstruction => exact .inl ⟨rfl, _, _, fun _ => rfl⟩

/-- A step that goes on keeps what the primitive changes keep. -/
theorem step_keeps {P : Chip → Prop} (K : Keep P) (s t : State) (h : P s.m) (ht : step s = .next t) : P t.m := by
  unfold step at ht
  split at ht
  · cases ht; exact keep_Chip_take K _ _ _ (fun m hm => keep_elapse K _ _ hm) h
  · next c q _ => exact exec_keeps K c { s with pending := q } _ h ht

end Sys2Proof.Laws
end

