-- ==== Sys2Proof/Laws/Inv.lean ====
section
/-!
SUPPORT. Sys2Proof/Laws/Inv.lean: properties of the module that every primitive change keeps (`Keep`), so that `exec_keeps` and `step_keeps`
of Laws/Exec.lean give them of every command and of every step: the canonical form of the tables; what the module has sent; the NV log; the
fuses.
-/
namespace Sys2Proof.Laws
open Sys2Proof.Machine

/-! ### The canonical form -/

theorem regReset_wf : tabWf 0 regReset = true := by decide +kernel

/-- Every memory operation and every register operation keeps the canonical form. -/
theorem keep_canon : Keep Canon where
  same := by
    intro m m' h e1 e2 e3 _ _ _
    unfold Canon
    rw [e1, e2, e3]; exact h
  wr := fun m a v h => ⟨canon_wr m a v h.1, h.2.1, h.2.2⟩
  emit := fun _ _ h => h
  log := by
    intro m w a h
    unfold Chip.log
    split <;> exact h
  byte := by
    intro m g b h
    have ho : tabWf 0 (if isBent g && m.sramBad.contains (g / 16) then m.mem.filter fun p => p.1 / 16 != g / 16 else m.mem) = true := by
      split
      · exact tabWf_filter 0 _ _ h.2.1
      · exact h.2.1
    unfold Chip.putByte
    dsimp only
    split
    · exact ⟨h.1, tabWf_set 0 _ _ _ ho, tabWf_set false _ _ _ h.2.2⟩
    · exact ⟨h.1, tabWf_set 0 _ _ _ ho, h.2.2⟩
  clear := fun _ _ _ h => ⟨h.1, tabWf_filter 0 _ _ h.2.1, tabWf_filter false _ _ h.2.2⟩
  cm := fun _ h => ⟨h.1, tabWf_filter 0 _ _ h.2.1, h.2.2⟩
  dram := fun _ h => ⟨h.1, tabWf_filter 0 _ _ h.2.1, h.2.2⟩
  blank := fun _ _ => ⟨regReset_wf, rfl, rfl⟩
  fuse := fun _ _ h _ => h

/-! ### What has been sent stays sent, what has been logged stays logged -/

/-- The pins fall by outputs alone. -/
theorem keep_pinsFall {P : Chip → Prop} (he : ∀ m e, P m → P (Chip.emit m e)) (m : Chip) (h : P m) : P m.pinsFall := by
  unfold Chip.pinsFall
  dsimp only
  refine keep_forAll _ _ _ (keep_ite (he _ _ h) h) ?_
  intro a x hx
  exact keep_ite (he _ _ hx) hx

theorem blank_out (m : Chip) : m.blank.out = m.pinsFall.out := by simp only [Chip.blank]
theorem blank_nvLog (m : Chip) : m.blank.nvLog = m.pinsFall.nvLog := by simp only [Chip.blank]
theorem blank_fuses (m : Chip) : m.blank.trust.fuses = m.pinsFall.trust.fuses := by simp only [Chip.blank]

theorem emit_out_prefix (l : List Emit) (m : Chip) (e : Emit) (h : l <+: m.out) : l <+: (m.emit e).out :=
  h.trans (List.prefix_append _ _)

/-- Everything the module does keeps what it has sent. -/
theorem keep_out (l : List Emit) : Keep fun m => l <+: m.out where
  same := by
    intro m m' h _ _ _ e _ _
    rw [e]; exact h
  wr := fun _ _ _ h => h
  emit := emit_out_prefix l
  log := by
    intro m w a h
    unfold Chip.log
    split <;> exact h
  byte := by
    intro m g b h
    unfold Chip.putByte
    dsimp only
    split <;> exact h
  clear := fun _ _ _ h => h
  cm := fun _ h => h
  dram := fun _ h => h
  blank := by
    intro m h
    rw [blank_out]
    exact keep_pinsFall (P := fun m => l <+: m.out) (emit_out_prefix l) m h
  fuse := fun _ _ h _ => h

/-- Everything the module does keeps what its NV log holds. -/
theorem keep_nvLog (l : List NvEntry) : Keep fun m => l <+: m.nvLog where
  same := by
    intro m m' h _ _ _ _ e _
    rw [e]; exact h
  wr := fun _ _ _ h => h
  emit := fun _ _ h => h
  log := by
    intro m w a h
    unfold Chip.log
    split
    · exact h
    · exact h.trans (List.prefix_append _ _)
  byte := by
    intro m g b h
    unfold Chip.putByte
    dsimp only
    split <;> exact h
  clear := fun _ _ _ h => h
  cm := fun _ h => h
  dram := fun _ h => h
  blank := by
    intro m h
    rw [blank_nvLog]
    exact keep_pinsFall (P := fun m => l <+: m.nvLog) (fun _ _ h => h) m h
  fuse := fun _ _ h _ => h

/-! ### The fuses -/

/-- Everything the module does keeps what every way of changing the fuses keeps. -/
theorem keep_fuses (Q : FuseState → Prop) (hq : ∀ f f', Q f → FuseStep f f' → Q f') : Keep fun m => Q m.trust.fuses where
  same := by
    intro m m' h _ _ _ _ _ e
    rw [e]; exact h
  wr := fun _ _ _ h => h
  emit := fun _ _ h => h
  log := by
    intro m w a h
    unfold Chip.log
    split <;> exact h
  byte := by
    intro m g b h
    unfold Chip.putByte
    dsimp only
    split <;> exact h
  clear := fun _ _ _ h => h
  cm := fun _ h => h
  dram := fun _ h => h
  blank := by
    intro m h
    rw [blank_fuses]
    exact keep_pinsFall (P := fun m => Q m.trust.fuses) (fun _ _ h => h) m h
  fuse := fun _ _ h hs => hq _ _ h hs

end Sys2Proof.Laws
end

