-- ==== Sys2Proof/Laws/Sessions.lean ====
section
/-!
SUPPORT. Sys2Proof/Laws/Sessions.lean: what an admitted signed command does (R532), for every signed command at once.
-/
namespace Sys2Proof.Laws
open Sys2Proof.Machine

theorem touch_of_session (m : Chip) (id : Nat) (v : Session) (h : m.session id = some v) :
    m.touch id = m.setSession { v with lastAt := m.now } := by
  unfold Chip.touch; rw [h]

/-- Nothing refuses an admitted command before its own rule is asked. -/
theorem refusal_admitted (m : Chip) (lives : List Nat) (owner reset : Bool) (a : Auth) (v : Session)
    (h : Admitted m lives owner reset a v) : (m.touch a.session).refusal lives owner reset a v = none := by
  obtain ⟨hs, -, ho, hn, ⟨c, hc, hca, hct⟩, hg, hl, hr⟩ := h
  have hany : (v.challenges.any fun c => c.1 == a.challenge && decide (m.now < c.2 + 60000000000)) = true := by
    rw [List.any_eq_true]; exact ⟨c, hc, by simp [hca, hct]⟩
  rw [touch_of_session _ _ _ hs]
  have hnow : ∀ w : Session, (m.setSession w).now = m.now := fun _ => rfl
  have hlife : ∀ w : Session, (m.setSession w).trust.fuses = m.trust.fuses := fun _ => rfl
  have hload : ∀ w : Session, (m.setSession w).loading = m.loading := fun _ => rfl
  unfold Chip.refusal
  rw [hnow, hlife, hload, hn, hany, hg]
  rcases ho with rfl | h2
  · rcases hr with rfl | hr <;> simp_all
  · have : ¬ v.level < 2 := by omega
    rcases hr with rfl | hr <;> simp_all

/-- An admitted command that its own rule accepts is counted, kept and answered, and then acts. -/
theorem signedIn_admitted (m : Chip) (lives : List Nat) (owner reset : Bool) (a : Auth) (v : Session) (eff : Chip → Bool × Chip)
    (h : Admitted m lives owner reset a v) (he : (eff (consumed a v m)).1 = true) :
    Chip.signedIn lives owner reset a eff m = (eff ((consumed a v m).acceptCmd a)).2 := by
  have hs := h.1
  have hl := h.2.1
  have hr := refusal_admitted m lives owner reset a v h
  have hnow : (m.touch a.session).now = m.now := by rw [touch_of_session _ _ _ hs]; rfl
  unfold Chip.signedIn
  rw [hs]
  simp only [hr, hl, if_false]
  rw [hnow]
  exact if_pos he

/-- A command of an owned module. -/
theorem signed_admitted (m : Chip) (owner reset : Bool) (a : Auth) (v : Session) (eff : Chip → Bool × Chip)
    (h : Admitted m [3] owner reset a v) (he : (eff (consumed a v m)).1 = true) :
    Chip.signed owner reset a eff m = (eff ((consumed a v m).acceptCmd a)).2 := signedIn_admitted m [3] owner reset a v eff h he

/-! ### What admission leaves alone -/

theorem touch_stick (m : Chip) (id : Nat) : (m.touch id).stick = m.stick := by
  unfold Chip.touch; split <;> rfl
theorem touch_fuses (m : Chip) (id : Nat) : (m.touch id).trust.fuses = m.trust.fuses := by
  unfold Chip.touch; split <;> rfl
theorem touch_regs (m : Chip) (id : Nat) : (m.touch id).regs = m.regs := by
  unfold Chip.touch; split <;> rfl
theorem consumed_stick (a : Auth) (v : Session) (m : Chip) : (consumed a v m).stick = m.stick := touch_stick m a.session
theorem consumed_fuses (a : Auth) (v : Session) (m : Chip) : (consumed a v m).trust.fuses = m.trust.fuses := touch_fuses m a.session
theorem consumed_regs (a : Auth) (v : Session) (m : Chip) : (consumed a v m).regs = m.regs := touch_regs m a.session

theorem log_keeps {P : Chip → Prop} (m : Chip) (w : String) (l : List Nat) (h : P m)
    (h' : ∀ x, P { m with nvLog := x }) : P (m.log w l) := by
  unfold Chip.log; split
  · exact h
  · exact h' _
theorem answer_keeps {P : Chip → Prop} (m : Chip) (id : Nat) (w : String) (l : List Nat)
    (h1 : ∀ x, P { m with out := x }) (h2 : ∀ x, P { m with tenon := x }) : P (m.answer id w l) := by
  unfold Chip.answer Chip.reply Chip.emit
  dsimp only
  split
  · exact h1 _
  · split
    · exact h2 _
    · exact h1 _

theorem acceptCmd_stick (a : Auth) (m : Chip) : (m.acceptCmd a).stick = m.stick := by
  have : (((m.bump R.SEC_CNT_CMD_OK).keepResult a 0).log "command" []).stick = m.stick :=
    log_keeps (P := fun x => x.stick = m.stick) _ _ _ rfl fun _ => rfl
  exact answer_keeps (P := fun x => x.stick = m.stick) _ _ _ _ (fun _ => this) fun _ => this
theorem acceptCmd_fuses (a : Auth) (m : Chip) : (m.acceptCmd a).trust.fuses = m.trust.fuses := by
  have : (((m.bump R.SEC_CNT_CMD_OK).keepResult a 0).log "command" []).trust.fuses = m.trust.fuses :=
    log_keeps (P := fun x => x.trust.fuses = m.trust.fuses) _ _ _ rfl fun _ => rfl
  exact answer_keeps (P := fun x => x.trust.fuses = m.trust.fuses) _ _ _ _ (fun _ => this) fun _ => this
/-- Of the registers, admission counts the command and changes no other. -/
theorem acceptCmd_regs (a : Auth) (m : Chip) : (m.acceptCmd a).regs = (m.bump R.SEC_CNT_CMD_OK).regs := by
  have : (((m.bump R.SEC_CNT_CMD_OK).keepResult a 0).log "command" []).regs = (m.bump R.SEC_CNT_CMD_OK).regs :=
    log_keeps (P := fun x => x.regs = (m.bump R.SEC_CNT_CMD_OK).regs) _ _ _ rfl fun _ => rfl
  exact answer_keeps (P := fun x => x.regs = (m.bump R.SEC_CNT_CMD_OK).regs) _ _ _ _ (fun _ => this) fun _ => this

end Sys2Proof.Laws
end

