-- ==== Sys2Proof/Laws/State.lean ====
section
/-!
SUPPORT. Sys2Proof/Laws/State.lean: what every named update of the module does to every field of its state.
-/
namespace Sys2Proof.Laws
open Sys2Proof.Machine

section
variable (m : Chip) (a : Nat) (v : Word)
@[simp] theorem wr_regs : (m.wr a v).regs = tabSet 0 m.regs a v := rfl
@[simp] theorem wr_time : (m.wr a v).time = m.time := rfl
@[simp] theorem wr_encs : (m.wr a v).encs = m.encs := rfl
@[simp] theorem wr_fire : (m.wr a v).fire = m.fire := rfl
@[simp] theorem wr_pegs : (m.wr a v).pegs = m.pegs := rfl
@[simp] theorem wr_fio : (m.wr a v).fio = m.fio := rfl
@[simp] theorem wr_sup : (m.wr a v).sup = m.sup := rfl
@[simp] theorem wr_boot : (m.wr a v).boot = m.boot := rfl
@[simp] theorem wr_bays : (m.wr a v).bays = m.bays := rfl
@[simp] theorem wr_engs : (m.wr a v).engs = m.engs := rfl
@[simp] theorem wr_mem : (m.wr a v).mem = m.mem := rfl
@[simp] theorem wr_sramValid : (m.wr a v).sramValid = m.sramValid := rfl
@[simp] theorem wr_sramBad : (m.wr a v).sramBad = m.sramBad := rfl
@[simp] theorem wr_stick : (m.wr a v).stick = m.stick := rfl
@[simp] theorem wr_wit : (m.wr a v).wit = m.wit := rfl
@[simp] theorem wr_cams : (m.wr a v).cams = m.cams := rfl
@[simp] theorem wr_pocs : (m.wr a v).pocs = m.pocs := rfl
@[simp] theorem wr_pipes : (m.wr a v).pipes = m.pipes := rfl
@[simp] theorem wr_rowPipes : (m.wr a v).rowPipes = m.rowPipes := rfl
@[simp] theorem wr_replays : (m.wr a v).replays = m.replays := rfl
@[simp] theorem wr_screens : (m.wr a v).screens = m.screens := rfl
@[simp] theorem wr_pp : (m.wr a v).pp = m.pp := rfl
@[simp] theorem wr_tenon : (m.wr a v).tenon = m.tenon := rfl
@[simp] theorem wr_purlin : (m.wr a v).purlin = m.purlin := rfl
@[simp] theorem wr_latches : (m.wr a v).latches = m.latches := rfl
@[simp] theorem wr_fresh : (m.wr a v).fresh = m.fresh := rfl
@[simp] theorem wr_heads : (m.wr a v).heads = m.heads := rfl
@[simp] theorem wr_eth : (m.wr a v).eth = m.eth := rfl
@[simp] theorem wr_subs : (m.wr a v).subs = m.subs := rfl
@[simp] theorem wr_trust : (m.wr a v).trust = m.trust := rfl
@[simp] theorem wr_text : (m.wr a v).text = m.text := rfl
@[simp] theorem wr_hk : (m.wr a v).hk = m.hk := rfl
@[simp] theorem wr_nvLog : (m.wr a v).nvLog = m.nvLog := rfl
@[simp] theorem wr_out : (m.wr a v).out = m.out := rfl
@[simp] theorem wr_free : (m.wr a v).free = m.free := rfl
end

section
variable (m : Chip) (f : Fld) (v : Nat)
@[simp] theorem put_regs : (m.put f v).regs = tabSet 0 m.regs f.addr (fldIns (m.rd f.addr) f v) := rfl
@[simp] theorem put_time : (m.put f v).time = m.time := rfl
@[simp] theorem put_encs : (m.put f v).encs = m.encs := rfl
@[simp] theorem put_fire : (m.put f v).fire = m.fire := rfl
@[simp] theorem put_pegs : (m.put f v).pegs = m.pegs := rfl
@[simp] theorem put_fio : (m.put f v).fio = m.fio := rfl
@[simp] theorem put_sup : (m.put f v).sup = m.sup := rfl
@[simp] theorem put_boot : (m.put f v).boot = m.boot := rfl
@[simp] theorem put_bays : (m.put f v).bays = m.bays := rfl
@[simp] theorem put_engs : (m.put f v).engs = m.engs := rfl
@[simp] theorem put_mem : (m.put f v).mem = m.mem := rfl
@[simp] theorem put_sramValid : (m.put f v).sramValid = m.sramValid := rfl
@[simp] theorem put_sramBad : (m.put f v).sramBad = m.sramBad := rfl
@[simp] theorem put_stick : (m.put f v).stick = m.stick := rfl
@[simp] theorem put_wit : (m.put f v).wit = m.wit := rfl
@[simp] theorem put_cams : (m.put f v).cams = m.cams := rfl
@[simp] theorem put_pocs : (m.put f v).pocs = m.pocs := rfl
@[simp] theorem put_pipes : (m.put f v).pipes = m.pipes := rfl
@[simp] theorem put_rowPipes : (m.put f v).rowPipes = m.rowPipes := rfl
@[simp] theorem put_replays : (m.put f v).replays = m.replays := rfl
@[simp] theorem put_screens : (m.put f v).screens = m.screens := rfl
@[simp] theorem put_pp : (m.put f v).pp = m.pp := rfl
@[simp] theorem put_tenon : (m.put f v).tenon = m.tenon := rfl
@[simp] theorem put_purlin : (m.put f v).purlin = m.purlin := rfl
@[simp] theorem put_latches : (m.put f v).latches = m.latches := rfl
@[simp] theorem put_fresh : (m.put f v).fresh = m.fresh := rfl
@[simp] theorem put_heads : (m.put f v).heads = m.heads := rfl
@[simp] theorem put_eth : (m.put f v).eth = m.eth := rfl
@[simp] theorem put_subs : (m.put f v).subs = m.subs := rfl
@[simp] theorem put_trust : (m.put f v).trust = m.trust := rfl
@[simp] theorem put_text : (m.put f v).text = m.text := rfl
@[simp] theorem put_hk : (m.put f v).hk = m.hk := rfl
@[simp] theorem put_nvLog : (m.put f v).nvLog = m.nvLog := rfl
@[simp] theorem put_out : (m.put f v).out = m.out := rfl
@[simp] theorem put_free : (m.put f v).free = m.free := rfl
end

section
variable (m : Chip) (f : Fld)
@[simp] theorem setFlag_regs : (m.setFlag f).regs = tabSet 0 m.regs f.addr (fldIns (m.rd f.addr) f 1) := rfl
@[simp] theorem setFlag_time : (m.setFlag f).time = m.time := rfl
@[simp] theorem setFlag_encs : (m.setFlag f).encs = m.encs := rfl
@[simp] theorem setFlag_fire : (m.setFlag f).fire = m.fire := rfl
@[simp] theorem setFlag_pegs : (m.setFlag f).pegs = m.pegs := rfl
@[simp] theorem setFlag_fio : (m.setFlag f).fio = m.fio := rfl
@[simp] theorem setFlag_sup : (m.setFlag f).sup = m.sup := rfl
@[simp] theorem setFlag_boot : (m.setFlag f).boot = m.boot := rfl
@[simp] theorem setFlag_bays : (m.setFlag f).bays = m.bays := rfl
@[simp] theorem setFlag_engs : (m.setFlag f).engs = m.engs := rfl
@[simp] theorem setFlag_mem : (m.setFlag f).mem = m.mem := rfl
@[simp] theorem setFlag_sramValid : (m.setFlag f).sramValid = m.sramValid := rfl
@[simp] theorem setFlag_sramBad : (m.setFlag f).sramBad = m.sramBad := rfl
@[simp] theorem setFlag_stick : (m.setFlag f).stick = m.stick := rfl
@[simp] theorem setFlag_wit : (m.setFlag f).wit = m.wit := rfl
@[simp] theorem setFlag_cams : (m.setFlag f).cams = m.cams := rfl
@[simp] theorem setFlag_pocs : (m.setFlag f).pocs = m.pocs := rfl
@[simp] theorem setFlag_pipes : (m.setFlag f).pipes = m.pipes := rfl
@[simp] theorem setFlag_rowPipes : (m.setFlag f).rowPipes = m.rowPipes := rfl
@[simp] theorem setFlag_replays : (m.setFlag f).replays = m.replays := rfl
@[simp] theorem setFlag_screens : (m.setFlag f).screens = m.screens := rfl
@[simp] theorem setFlag_pp : (m.setFlag f).pp = m.pp := rfl
@[simp] theorem setFlag_tenon : (m.setFlag f).tenon = m.tenon := rfl
@[simp] theorem setFlag_purlin : (m.setFlag f).purlin = m.purlin := rfl
@[simp] theorem setFlag_latches : (m.setFlag f).latches = m.latches := rfl
@[simp] theorem setFlag_fresh : (m.setFlag f).fresh = tabSet 0 m.fresh f.addr (tabGet 0 m.fresh f.addr ||| 1#32 <<< f.lo) := rfl
@[simp] theorem setFlag_heads : (m.setFlag f).heads = m.heads := rfl
@[simp] theorem setFlag_eth : (m.setFlag f).eth = m.eth := rfl
@[simp] theorem setFlag_subs : (m.setFlag f).subs = m.subs := rfl
@[simp] theorem setFlag_trust : (m.setFlag f).trust = m.trust := rfl
@[simp] theorem setFlag_text : (m.setFlag f).text = m.text := rfl
@[simp] theorem setFlag_hk : (m.setFlag f).hk = m.hk := rfl
@[simp] theorem setFlag_nvLog : (m.setFlag f).nvLog = m.nvLog := rfl
@[simp] theorem setFlag_out : (m.setFlag f).out = m.out := rfl
@[simp] theorem setFlag_free : (m.setFlag f).free = m.free := rfl
end

section
variable (m : Chip) (a n : Nat)
@[simp] theorem bumpBy_regs : (m.bumpBy a n).regs =
    tabSet 0 m.regs a (BitVec.ofNat 32 (min 0xFFFFFFFF ((m.rd a).toNat + n))) := rfl
@[simp] theorem bumpBy_time : (m.bumpBy a n).time = m.time := rfl
@[simp] theorem bumpBy_encs : (m.bumpBy a n).encs = m.encs := rfl
@[simp] theorem bumpBy_fire : (m.bumpBy a n).fire = m.fire := rfl
@[simp] theorem bumpBy_pegs : (m.bumpBy a n).pegs = m.pegs := rfl
@[simp] theorem bumpBy_fio : (m.bumpBy a n).fio = m.fio := rfl
@[simp] theorem bumpBy_sup : (m.bumpBy a n).sup = m.sup := rfl
@[simp] theorem bumpBy_boot : (m.bumpBy a n).boot = m.boot := rfl
@[simp] theorem bumpBy_bays : (m.bumpBy a n).bays = m.bays := rfl
@[simp] theorem bumpBy_engs : (m.bumpBy a n).engs = m.engs := rfl
@[simp] theorem bumpBy_mem : (m.bumpBy a n).mem = m.mem := rfl
@[simp] theorem bumpBy_sramValid : (m.bumpBy a n).sramValid = m.sramValid := rfl
@[simp] theorem bumpBy_sramBad : (m.bumpBy a n).sramBad = m.sramBad := rfl
@[simp] theorem bumpBy_stick : (m.bumpBy a n).stick = m.stick := rfl
@[simp] theorem bumpBy_wit : (m.bumpBy a n).wit = m.wit := rfl
@[simp] theorem bumpBy_cams : (m.bumpBy a n).cams = m.cams := rfl
@[simp] theorem bumpBy_pocs : (m.bumpBy a n).pocs = m.pocs := rfl
@[simp] theorem bumpBy_pipes : (m.bumpBy a n).pipes = m.pipes := rfl
@[simp] theorem bumpBy_rowPipes : (m.bumpBy a n).rowPipes = m.rowPipes := rfl
@[simp] theorem bumpBy_replays : (m.bumpBy a n).replays = m.replays := rfl
@[simp] theorem bumpBy_screens : (m.bumpBy a n).screens = m.screens := rfl
@[simp] theorem bumpBy_pp : (m.bumpBy a n).pp = m.pp := rfl
@[simp] theorem bumpBy_tenon : (m.bumpBy a n).tenon = m.tenon := rfl
@[simp] theorem bumpBy_purlin : (m.bumpBy a n).purlin = m.purlin := rfl
@[simp] theorem bumpBy_latches : (m.bumpBy a n).latches = m.latches := rfl
@[simp] theorem bumpBy_fresh : (m.bumpBy a n).fresh = m.fresh := rfl
@[simp] theorem bumpBy_heads : (m.bumpBy a n).heads = m.heads := rfl
@[simp] theorem bumpBy_eth : (m.bumpBy a n).eth = m.eth := rfl
@[simp] theorem bumpBy_subs : (m.bumpBy a n).subs = m.subs := rfl
@[simp] theorem bumpBy_trust : (m.bumpBy a n).trust = m.trust := rfl
@[simp] theorem bumpBy_text : (m.bumpBy a n).text = m.text := rfl
@[simp] theorem bumpBy_hk : (m.bumpBy a n).hk = m.hk := rfl
@[simp] theorem bumpBy_nvLog : (m.bumpBy a n).nvLog = m.nvLog := rfl
@[simp] theorem bumpBy_out : (m.bumpBy a n).out = m.out := rfl
@[simp] theorem bumpBy_free : (m.bumpBy a n).free = m.free := rfl
end

section
variable (m : Chip) (a : Nat)
@[simp] theorem bump_regs : (m.bump a).regs = tabSet 0 m.regs a (BitVec.ofNat 32 (min 0xFFFFFFFF ((m.rd a).toNat + 1))) := rfl
@[simp] theorem bump_time : (m.bump a).time = m.time := rfl
@[simp] theorem bump_encs : (m.bump a).encs = m.encs := rfl
@[simp] theorem bump_fire : (m.bump a).fire = m.fire := rfl
@[simp] theorem bump_pegs : (m.bump a).pegs = m.pegs := rfl
@[simp] theorem bump_fio : (m.bump a).fio = m.fio := rfl
@[simp] theorem bump_sup : (m.bump a).sup = m.sup := rfl
@[simp] theorem bump_boot : (m.bump a).boot = m.boot := rfl
@[simp] theorem bump_bays : (m.bump a).bays = m.bays := rfl
@[simp] theorem bump_engs : (m.bump a).engs = m.engs := rfl
@[simp] theorem bump_mem : (m.bump a).mem = m.mem := rfl
@[simp] theorem bump_sramValid : (m.bump a).sramValid = m.sramValid := rfl
@[simp] theorem bump_sramBad : (m.bump a).sramBad = m.sramBad := rfl
@[simp] theorem bump_stick : (m.bump a).stick = m.stick := rfl
@[simp] theorem bump_wit : (m.bump a).wit = m.wit := rfl
@[simp] theorem bump_cams : (m.bump a).cams = m.cams := rfl
@[simp] theorem bump_pocs : (m.bump a).pocs = m.pocs := rfl
@[simp] theorem bump_pipes : (m.bump a).pipes = m.pipes := rfl
@[simp] theorem bump_rowPipes : (m.bump a).rowPipes = m.rowPipes := rfl
@[simp] theorem bump_replays : (m.bump a).replays = m.replays := rfl
@[simp] theorem bump_screens : (m.bump a).screens = m.screens := rfl
@[simp] theorem bump_pp : (m.bump a).pp = m.pp := rfl
@[simp] theorem bump_tenon : (m.bump a).tenon = m.tenon := rfl
@[simp] theorem bump_purlin : (m.bump a).purlin = m.purlin := rfl
@[simp] theorem bump_latches : (m.bump a).latches = m.latches := rfl
@[simp] theorem bump_fresh : (m.bump a).fresh = m.fresh := rfl
@[simp] theorem bump_heads : (m.bump a).heads = m.heads := rfl
@[simp] theorem bump_eth : (m.bump a).eth = m.eth := rfl
@[simp] theorem bump_subs : (m.bump a).subs = m.subs := rfl
@[simp] theorem bump_trust : (m.bump a).trust = m.trust := rfl
@[simp] theorem bump_text : (m.bump a).text = m.text := rfl
@[simp] theorem bump_hk : (m.bump a).hk = m.hk := rfl
@[simp] theorem bump_nvLog : (m.bump a).nvLog = m.nvLog := rfl
@[simp] theorem bump_out : (m.bump a).out = m.out := rfl
@[simp] theorem bump_free : (m.bump a).free = m.free := rfl
end

section
variable (m : Chip) (e : Emit)
@[simp] theorem emit_regs : (m.emit e).regs = m.regs := rfl
@[simp] theorem emit_time : (m.emit e).time = m.time := rfl
@[simp] theorem emit_encs : (m.emit e).encs = m.encs := rfl
@[simp] theorem emit_fire : (m.emit e).fire = m.fire := rfl
@[simp] theorem emit_pegs : (m.emit e).pegs = m.pegs := rfl
@[simp] theorem emit_fio : (m.emit e).fio = m.fio := rfl
@[simp] theorem emit_sup : (m.emit e).sup = m.sup := rfl
@[simp] theorem emit_boot : (m.emit e).boot = m.boot := rfl
@[simp] theorem emit_bays : (m.emit e).bays = m.bays := rfl
@[simp] theorem emit_engs : (m.emit e).engs = m.engs := rfl
@[simp] theorem emit_mem : (m.emit e).mem = m.mem := rfl
@[simp] theorem emit_sramValid : (m.emit e).sramValid = m.sramValid := rfl
@[simp] theorem emit_sramBad : (m.emit e).sramBad = m.sramBad := rfl
@[simp] theorem emit_stick : (m.emit e).stick = m.stick := rfl
@[simp] theorem emit_wit : (m.emit e).wit = m.wit := rfl
@[simp] theorem emit_cams : (m.emit e).cams = m.cams := rfl
@[simp] theorem emit_pocs : (m.emit e).pocs = m.pocs := rfl
@[simp] theorem emit_pipes : (m.emit e).pipes = m.pipes := rfl
@[simp] theorem emit_rowPipes : (m.emit e).rowPipes = m.rowPipes := rfl
@[simp] theorem emit_replays : (m.emit e).replays = m.replays := rfl
@[simp] theorem emit_screens : (m.emit e).screens = m.screens := rfl
@[simp] theorem emit_pp : (m.emit e).pp = m.pp := rfl
@[simp] theorem emit_tenon : (m.emit e).tenon = m.tenon := rfl
@[simp] theorem emit_purlin : (m.emit e).purlin = m.purlin := rfl
@[simp] theorem emit_latches : (m.emit e).latches = m.latches := rfl
@[simp] theorem emit_fresh : (m.emit e).fresh = m.fresh := rfl
@[simp] theorem emit_heads : (m.emit e).heads = m.heads := rfl
@[simp] theorem emit_eth : (m.emit e).eth = m.eth := rfl
@[simp] theorem emit_subs : (m.emit e).subs = m.subs := rfl
@[simp] theorem emit_trust : (m.emit e).trust = m.trust := rfl
@[simp] theorem emit_text : (m.emit e).text = m.text := rfl
@[simp] theorem emit_hk : (m.emit e).hk = m.hk := rfl
@[simp] theorem emit_nvLog : (m.emit e).nvLog = m.nvLog := rfl
@[simp] theorem emit_out : (m.emit e).out = m.out ++ [e] := rfl
@[simp] theorem emit_free : (m.emit e).free = m.free := rfl
end

section
variable (m : Chip) (n : Nat) (v : EncPort)
@[simp] theorem setEnc_regs : (m.setEnc n v).regs = m.regs := rfl
@[simp] theorem setEnc_time : (m.setEnc n v).time = m.time := rfl
@[simp] theorem setEnc_encs : (m.setEnc n v).encs = tabSet {} m.encs n v := rfl
@[simp] theorem setEnc_fire : (m.setEnc n v).fire = m.fire := rfl
@[simp] theorem setEnc_pegs : (m.setEnc n v).pegs = m.pegs := rfl
@[simp] theorem setEnc_fio : (m.setEnc n v).fio = m.fio := rfl
@[simp] theorem setEnc_sup : (m.setEnc n v).sup = m.sup := rfl
@[simp] theorem setEnc_boot : (m.setEnc n v).boot = m.boot := rfl
@[simp] theorem setEnc_bays : (m.setEnc n v).bays = m.bays := rfl
@[simp] theorem setEnc_engs : (m.setEnc n v).engs = m.engs := rfl
@[simp] theorem setEnc_mem : (m.setEnc n v).mem = m.mem := rfl
@[simp] theorem setEnc_sramValid : (m.setEnc n v).sramValid = m.sramValid := rfl
@[simp] theorem setEnc_sramBad : (m.setEnc n v).sramBad = m.sramBad := rfl
@[simp] theorem setEnc_stick : (m.setEnc n v).stick = m.stick := rfl
@[simp] theorem setEnc_wit : (m.setEnc n v).wit = m.wit := rfl
@[simp] theorem setEnc_cams : (m.setEnc n v).cams = m.cams := rfl
@[simp] theorem setEnc_pocs : (m.setEnc n v).pocs = m.pocs := rfl
@[simp] theorem setEnc_pipes : (m.setEnc n v).pipes = m.pipes := rfl
@[simp] theorem setEnc_rowPipes : (m.setEnc n v).rowPipes = m.rowPipes := rfl
@[simp] theorem setEnc_replays : (m.setEnc n v).replays = m.replays := rfl
@[simp] theorem setEnc_screens : (m.setEnc n v).screens = m.screens := rfl
@[simp] theorem setEnc_pp : (m.setEnc n v).pp = m.pp := rfl
@[simp] theorem setEnc_tenon : (m.setEnc n v).tenon = m.tenon := rfl
@[simp] theorem setEnc_purlin : (m.setEnc n v).purlin = m.purlin := rfl
@[simp] theorem setEnc_latches : (m.setEnc n v).latches = m.latches := rfl
@[simp] theorem setEnc_fresh : (m.setEnc n v).fresh = m.fresh := rfl
@[simp] theorem setEnc_heads : (m.setEnc n v).heads = m.heads := rfl
@[simp] theorem setEnc_eth : (m.setEnc n v).eth = m.eth := rfl
@[simp] theorem setEnc_subs : (m.setEnc n v).subs = m.subs := rfl
@[simp] theorem setEnc_trust : (m.setEnc n v).trust = m.trust := rfl
@[simp] theorem setEnc_text : (m.setEnc n v).text = m.text := rfl
@[simp] theorem setEnc_hk : (m.setEnc n v).hk = m.hk := rfl
@[simp] theorem setEnc_nvLog : (m.setEnc n v).nvLog = m.nvLog := rfl
@[simp] theorem setEnc_out : (m.setEnc n v).out = m.out := rfl
@[simp] theorem setEnc_free : (m.setEnc n v).free = m.free := rfl
end

section
variable (m : Chip) (n : Nat) (v : PegPort)
@[simp] theorem setPeg_regs : (m.setPeg n v).regs = m.regs := rfl
@[simp] theorem setPeg_time : (m.setPeg n v).time = m.time := rfl
@[simp] theorem setPeg_encs : (m.setPeg n v).encs = m.encs := rfl
@[simp] theorem setPeg_fire : (m.setPeg n v).fire = m.fire := rfl
@[simp] theorem setPeg_pegs : (m.setPeg n v).pegs = tabSet {} m.pegs n v := rfl
@[simp] theorem setPeg_fio : (m.setPeg n v).fio = m.fio := rfl
@[simp] theorem setPeg_sup : (m.setPeg n v).sup = m.sup := rfl
@[simp] theorem setPeg_boot : (m.setPeg n v).boot = m.boot := rfl
@[simp] theorem setPeg_bays : (m.setPeg n v).bays = m.bays := rfl
@[simp] theorem setPeg_engs : (m.setPeg n v).engs = m.engs := rfl
@[simp] theorem setPeg_mem : (m.setPeg n v).mem = m.mem := rfl
@[simp] theorem setPeg_sramValid : (m.setPeg n v).sramValid = m.sramValid := rfl
@[simp] theorem setPeg_sramBad : (m.setPeg n v).sramBad = m.sramBad := rfl
@[simp] theorem setPeg_stick : (m.setPeg n v).stick = m.stick := rfl
@[simp] theorem setPeg_wit : (m.setPeg n v).wit = m.wit := rfl
@[simp] theorem setPeg_cams : (m.setPeg n v).cams = m.cams := rfl
@[simp] theorem setPeg_pocs : (m.setPeg n v).pocs = m.pocs := rfl
@[simp] theorem setPeg_pipes : (m.setPeg n v).pipes = m.pipes := rfl
@[simp] theorem setPeg_rowPipes : (m.setPeg n v).rowPipes = m.rowPipes := rfl
@[simp] theorem setPeg_replays : (m.setPeg n v).replays = m.replays := rfl
@[simp] theorem setPeg_screens : (m.setPeg n v).screens = m.screens := rfl
@[simp] theorem setPeg_pp : (m.setPeg n v).pp = m.pp := rfl
@[simp] theorem setPeg_tenon : (m.setPeg n v).tenon = m.tenon := rfl
@[simp] theorem setPeg_purlin : (m.setPeg n v).purlin = m.purlin := rfl
@[simp] theorem setPeg_latches : (m.setPeg n v).latches = m.latches := rfl
@[simp] theorem setPeg_fresh : (m.setPeg n v).fresh = m.fresh := rfl
@[simp] theorem setPeg_heads : (m.setPeg n v).heads = m.heads := rfl
@[simp] theorem setPeg_eth : (m.setPeg n v).eth = m.eth := rfl
@[simp] theorem setPeg_subs : (m.setPeg n v).subs = m.subs := rfl
@[simp] theorem setPeg_trust : (m.setPeg n v).trust = m.trust := rfl
@[simp] theorem setPeg_text : (m.setPeg n v).text = m.text := rfl
@[simp] theorem setPeg_hk : (m.setPeg n v).hk = m.hk := rfl
@[simp] theorem setPeg_nvLog : (m.setPeg n v).nvLog = m.nvLog := rfl
@[simp] theorem setPeg_out : (m.setPeg n v).out = m.out := rfl
@[simp] theorem setPeg_free : (m.setPeg n v).free = m.free := rfl
end

section
variable (m : Chip) (n : Nat) (v : HeadState)
@[simp] theorem setHead_regs : (m.setHead n v).regs = m.regs := rfl
@[simp] theorem setHead_time : (m.setHead n v).time = m.time := rfl
@[simp] theorem setHead_encs : (m.setHead n v).encs = m.encs := rfl
@[simp] theorem setHead_fire : (m.setHead n v).fire = m.fire := rfl
@[simp] theorem setHead_pegs : (m.setHead n v).pegs = m.pegs := rfl
@[simp] theorem setHead_fio : (m.setHead n v).fio = m.fio := rfl
@[simp] theorem setHead_sup : (m.setHead n v).sup = m.sup := rfl
@[simp] theorem setHead_boot : (m.setHead n v).boot = m.boot := rfl
@[simp] theorem setHead_bays : (m.setHead n v).bays = m.bays := rfl
@[simp] theorem setHead_engs : (m.setHead n v).engs = m.engs := rfl
@[simp] theorem setHead_mem : (m.setHead n v).mem = m.mem := rfl
@[simp] theorem setHead_sramValid : (m.setHead n v).sramValid = m.sramValid := rfl
@[simp] theorem setHead_sramBad : (m.setHead n v).sramBad = m.sramBad := rfl
@[simp] theorem setHead_stick : (m.setHead n v).stick = m.stick := rfl
@[simp] theorem setHead_wit : (m.setHead n v).wit = m.wit := rfl
@[simp] theorem setHead_cams : (m.setHead n v).cams = m.cams := rfl
@[simp] theorem setHead_pocs : (m.setHead n v).pocs = m.pocs := rfl
@[simp] theorem setHead_pipes : (m.setHead n v).pipes = m.pipes := rfl
@[simp] theorem setHead_rowPipes : (m.setHead n v).rowPipes = m.rowPipes := rfl
@[simp] theorem setHead_replays : (m.setHead n v).replays = m.replays := rfl
@[simp] theorem setHead_screens : (m.setHead n v).screens = m.screens := rfl
@[simp] theorem setHead_pp : (m.setHead n v).pp = m.pp := rfl
@[simp] theorem setHead_tenon : (m.setHead n v).tenon = m.tenon := rfl
@[simp] theorem setHead_purlin : (m.setHead n v).purlin = m.purlin := rfl
@[simp] theorem setHead_latches : (m.setHead n v).latches = m.latches := rfl
@[simp] theorem setHead_fresh : (m.setHead n v).fresh = m.fresh := rfl
@[simp] theorem setHead_heads : (m.setHead n v).heads = tabSet {} m.heads n v := rfl
@[simp] theorem setHead_eth : (m.setHead n v).eth = m.eth := rfl
@[simp] theorem setHead_subs : (m.setHead n v).subs = m.subs := rfl
@[simp] theorem setHead_trust : (m.setHead n v).trust = m.trust := rfl
@[simp] theorem setHead_text : (m.setHead n v).text = m.text := rfl
@[simp] theorem setHead_hk : (m.setHead n v).hk = m.hk := rfl
@[simp] theorem setHead_nvLog : (m.setHead n v).nvLog = m.nvLog := rfl
@[simp] theorem setHead_out : (m.setHead n v).out = m.out := rfl
@[simp] theorem setHead_free : (m.setHead n v).free = m.free := rfl
end

section
variable (m : Chip) (n : Nat) (v : EthPort)
@[simp] theorem setEthPort_regs : (m.setEthPort n v).regs = m.regs := rfl
@[simp] theorem setEthPort_time : (m.setEthPort n v).time = m.time := rfl
@[simp] theorem setEthPort_encs : (m.setEthPort n v).encs = m.encs := rfl
@[simp] theorem setEthPort_fire : (m.setEthPort n v).fire = m.fire := rfl
@[simp] theorem setEthPort_pegs : (m.setEthPort n v).pegs = m.pegs := rfl
@[simp] theorem setEthPort_fio : (m.setEthPort n v).fio = m.fio := rfl
@[simp] theorem setEthPort_sup : (m.setEthPort n v).sup = m.sup := rfl
@[simp] theorem setEthPort_boot : (m.setEthPort n v).boot = m.boot := rfl
@[simp] theorem setEthPort_bays : (m.setEthPort n v).bays = m.bays := rfl
@[simp] theorem setEthPort_engs : (m.setEthPort n v).engs = m.engs := rfl
@[simp] theorem setEthPort_mem : (m.setEthPort n v).mem = m.mem := rfl
@[simp] theorem setEthPort_sramValid : (m.setEthPort n v).sramValid = m.sramValid := rfl
@[simp] theorem setEthPort_sramBad : (m.setEthPort n v).sramBad = m.sramBad := rfl
@[simp] theorem setEthPort_stick : (m.setEthPort n v).stick = m.stick := rfl
@[simp] theorem setEthPort_wit : (m.setEthPort n v).wit = m.wit := rfl
@[simp] theorem setEthPort_cams : (m.setEthPort n v).cams = m.cams := rfl
@[simp] theorem setEthPort_pocs : (m.setEthPort n v).pocs = m.pocs := rfl
@[simp] theorem setEthPort_pipes : (m.setEthPort n v).pipes = m.pipes := rfl
@[simp] theorem setEthPort_rowPipes : (m.setEthPort n v).rowPipes = m.rowPipes := rfl
@[simp] theorem setEthPort_replays : (m.setEthPort n v).replays = m.replays := rfl
@[simp] theorem setEthPort_screens : (m.setEthPort n v).screens = m.screens := rfl
@[simp] theorem setEthPort_pp : (m.setEthPort n v).pp = m.pp := rfl
@[simp] theorem setEthPort_tenon : (m.setEthPort n v).tenon = m.tenon := rfl
@[simp] theorem setEthPort_purlin : (m.setEthPort n v).purlin = m.purlin := rfl
@[simp] theorem setEthPort_latches : (m.setEthPort n v).latches = m.latches := rfl
@[simp] theorem setEthPort_fresh : (m.setEthPort n v).fresh = m.fresh := rfl
@[simp] theorem setEthPort_heads : (m.setEthPort n v).heads = m.heads := rfl
@[simp] theorem setEthPort_eth : (m.setEthPort n v).eth = tabSet {} m.eth n v := rfl
@[simp] theorem setEthPort_subs : (m.setEthPort n v).subs = m.subs := rfl
@[simp] theorem setEthPort_trust : (m.setEthPort n v).trust = m.trust := rfl
@[simp] theorem setEthPort_text : (m.setEthPort n v).text = m.text := rfl
@[simp] theorem setEthPort_hk : (m.setEthPort n v).hk = m.hk := rfl
@[simp] theorem setEthPort_nvLog : (m.setEthPort n v).nvLog = m.nvLog := rfl
@[simp] theorem setEthPort_out : (m.setEthPort n v).out = m.out := rfl
@[simp] theorem setEthPort_free : (m.setEthPort n v).free = m.free := rfl
end

section
variable (m : Chip) (n : Nat) (v : CamState)
@[simp] theorem setCam_regs : (m.setCam n v).regs = m.regs := rfl
@[simp] theorem setCam_time : (m.setCam n v).time = m.time := rfl
@[simp] theorem setCam_encs : (m.setCam n v).encs = m.encs := rfl
@[simp] theorem setCam_fire : (m.setCam n v).fire = m.fire := rfl
@[simp] theorem setCam_pegs : (m.setCam n v).pegs = m.pegs := rfl
@[simp] theorem setCam_fio : (m.setCam n v).fio = m.fio := rfl
@[simp] theorem setCam_sup : (m.setCam n v).sup = m.sup := rfl
@[simp] theorem setCam_boot : (m.setCam n v).boot = m.boot := rfl
@[simp] theorem setCam_bays : (m.setCam n v).bays = m.bays := rfl
@[simp] theorem setCam_engs : (m.setCam n v).engs = m.engs := rfl
@[simp] theorem setCam_mem : (m.setCam n v).mem = m.mem := rfl
@[simp] theorem setCam_sramValid : (m.setCam n v).sramValid = m.sramValid := rfl
@[simp] theorem setCam_sramBad : (m.setCam n v).sramBad = m.sramBad := rfl
@[simp] theorem setCam_stick : (m.setCam n v).stick = m.stick := rfl
@[simp] theorem setCam_wit : (m.setCam n v).wit = m.wit := rfl
@[simp] theorem setCam_cams : (m.setCam n v).cams = tabSet {} m.cams n v := rfl
@[simp] theorem setCam_pocs : (m.setCam n v).pocs = m.pocs := rfl
@[simp] theorem setCam_pipes : (m.setCam n v).pipes = m.pipes := rfl
@[simp] theorem setCam_rowPipes : (m.setCam n v).rowPipes = m.rowPipes := rfl
@[simp] theorem setCam_replays : (m.setCam n v).replays = m.replays := rfl
@[simp] theorem setCam_screens : (m.setCam n v).screens = m.screens := rfl
@[simp] theorem setCam_pp : (m.setCam n v).pp = m.pp := rfl
@[simp] theorem setCam_tenon : (m.setCam n v).tenon = m.tenon := rfl
@[simp] theorem setCam_purlin : (m.setCam n v).purlin = m.purlin := rfl
@[simp] theorem setCam_latches : (m.setCam n v).latches = m.latches := rfl
@[simp] theorem setCam_fresh : (m.setCam n v).fresh = m.fresh := rfl
@[simp] theorem setCam_heads : (m.setCam n v).heads = m.heads := rfl
@[simp] theorem setCam_eth : (m.setCam n v).eth = m.eth := rfl
@[simp] theorem setCam_subs : (m.setCam n v).subs = m.subs := rfl
@[simp] theorem setCam_trust : (m.setCam n v).trust = m.trust := rfl
@[simp] theorem setCam_text : (m.setCam n v).text = m.text := rfl
@[simp] theorem setCam_hk : (m.setCam n v).hk = m.hk := rfl
@[simp] theorem setCam_nvLog : (m.setCam n v).nvLog = m.nvLog := rfl
@[simp] theorem setCam_out : (m.setCam n v).out = m.out := rfl
@[simp] theorem setCam_free : (m.setCam n v).free = m.free := rfl
end

section
variable (m : Chip) (n : Nat) (v : PocState)
@[simp] theorem setPoc_regs : (m.setPoc n v).regs = m.regs := rfl
@[simp] theorem setPoc_time : (m.setPoc n v).time = m.time := rfl
@[simp] theorem setPoc_encs : (m.setPoc n v).encs = m.encs := rfl
@[simp] theorem setPoc_fire : (m.setPoc n v).fire = m.fire := rfl
@[simp] theorem setPoc_pegs : (m.setPoc n v).pegs = m.pegs := rfl
@[simp] theorem setPoc_fio : (m.setPoc n v).fio = m.fio := rfl
@[simp] theorem setPoc_sup : (m.setPoc n v).sup = m.sup := rfl
@[simp] theorem setPoc_boot : (m.setPoc n v).boot = m.boot := rfl
@[simp] theorem setPoc_bays : (m.setPoc n v).bays = m.bays := rfl
@[simp] theorem setPoc_engs : (m.setPoc n v).engs = m.engs := rfl
@[simp] theorem setPoc_mem : (m.setPoc n v).mem = m.mem := rfl
@[simp] theorem setPoc_sramValid : (m.setPoc n v).sramValid = m.sramValid := rfl
@[simp] theorem setPoc_sramBad : (m.setPoc n v).sramBad = m.sramBad := rfl
@[simp] theorem setPoc_stick : (m.setPoc n v).stick = m.stick := rfl
@[simp] theorem setPoc_wit : (m.setPoc n v).wit = m.wit := rfl
@[simp] theorem setPoc_cams : (m.setPoc n v).cams = m.cams := rfl
@[simp] theorem setPoc_pocs : (m.setPoc n v).pocs = tabSet {} m.pocs n v := rfl
@[simp] theorem setPoc_pipes : (m.setPoc n v).pipes = m.pipes := rfl
@[simp] theorem setPoc_rowPipes : (m.setPoc n v).rowPipes = m.rowPipes := rfl
@[simp] theorem setPoc_replays : (m.setPoc n v).replays = m.replays := rfl
@[simp] theorem setPoc_screens : (m.setPoc n v).screens = m.screens := rfl
@[simp] theorem setPoc_pp : (m.setPoc n v).pp = m.pp := rfl
@[simp] theorem setPoc_tenon : (m.setPoc n v).tenon = m.tenon := rfl
@[simp] theorem setPoc_purlin : (m.setPoc n v).purlin = m.purlin := rfl
@[simp] theorem setPoc_latches : (m.setPoc n v).latches = m.latches := rfl
@[simp] theorem setPoc_fresh : (m.setPoc n v).fresh = m.fresh := rfl
@[simp] theorem setPoc_heads : (m.setPoc n v).heads = m.heads := rfl
@[simp] theorem setPoc_eth : (m.setPoc n v).eth = m.eth := rfl
@[simp] theorem setPoc_subs : (m.setPoc n v).subs = m.subs := rfl
@[simp] theorem setPoc_trust : (m.setPoc n v).trust = m.trust := rfl
@[simp] theorem setPoc_text : (m.setPoc n v).text = m.text := rfl
@[simp] theorem setPoc_hk : (m.setPoc n v).hk = m.hk := rfl
@[simp] theorem setPoc_nvLog : (m.setPoc n v).nvLog = m.nvLog := rfl
@[simp] theorem setPoc_out : (m.setPoc n v).out = m.out := rfl
@[simp] theorem setPoc_free : (m.setPoc n v).free = m.free := rfl
end

section
variable (m : Chip) (n : Nat) (v : PipeState)
@[simp] theorem setPipe_regs : (m.setPipe n v).regs = m.regs := rfl
@[simp] theorem setPipe_time : (m.setPipe n v).time = m.time := rfl
@[simp] theorem setPipe_encs : (m.setPipe n v).encs = m.encs := rfl
@[simp] theorem setPipe_fire : (m.setPipe n v).fire = m.fire := rfl
@[simp] theorem setPipe_pegs : (m.setPipe n v).pegs = m.pegs := rfl
@[simp] theorem setPipe_fio : (m.setPipe n v).fio = m.fio := rfl
@[simp] theorem setPipe_sup : (m.setPipe n v).sup = m.sup := rfl
@[simp] theorem setPipe_boot : (m.setPipe n v).boot = m.boot := rfl
@[simp] theorem setPipe_bays : (m.setPipe n v).bays = m.bays := rfl
@[simp] theorem setPipe_engs : (m.setPipe n v).engs = m.engs := rfl
@[simp] theorem setPipe_mem : (m.setPipe n v).mem = m.mem := rfl
@[simp] theorem setPipe_sramValid : (m.setPipe n v).sramValid = m.sramValid := rfl
@[simp] theorem setPipe_sramBad : (m.setPipe n v).sramBad = m.sramBad := rfl
@[simp] theorem setPipe_stick : (m.setPipe n v).stick = m.stick := rfl
@[simp] theorem setPipe_wit : (m.setPipe n v).wit = m.wit := rfl
@[simp] theorem setPipe_cams : (m.setPipe n v).cams = m.cams := rfl
@[simp] theorem setPipe_pocs : (m.setPipe n v).pocs = m.pocs := rfl
@[simp] theorem setPipe_pipes : (m.setPipe n v).pipes = tabSet {} m.pipes n v := rfl
@[simp] theorem setPipe_rowPipes : (m.setPipe n v).rowPipes = m.rowPipes := rfl
@[simp] theorem setPipe_replays : (m.setPipe n v).replays = m.replays := rfl
@[simp] theorem setPipe_screens : (m.setPipe n v).screens = m.screens := rfl
@[simp] theorem setPipe_pp : (m.setPipe n v).pp = m.pp := rfl
@[simp] theorem setPipe_tenon : (m.setPipe n v).tenon = m.tenon := rfl
@[simp] theorem setPipe_purlin : (m.setPipe n v).purlin = m.purlin := rfl
@[simp] theorem setPipe_latches : (m.setPipe n v).latches = m.latches := rfl
@[simp] theorem setPipe_fresh : (m.setPipe n v).fresh = m.fresh := rfl
@[simp] theorem setPipe_heads : (m.setPipe n v).heads = m.heads := rfl
@[simp] theorem setPipe_eth : (m.setPipe n v).eth = m.eth := rfl
@[simp] theorem setPipe_subs : (m.setPipe n v).subs = m.subs := rfl
@[simp] theorem setPipe_trust : (m.setPipe n v).trust = m.trust := rfl
@[simp] theorem setPipe_text : (m.setPipe n v).text = m.text := rfl
@[simp] theorem setPipe_hk : (m.setPipe n v).hk = m.hk := rfl
@[simp] theorem setPipe_nvLog : (m.setPipe n v).nvLog = m.nvLog := rfl
@[simp] theorem setPipe_out : (m.setPipe n v).out = m.out := rfl
@[simp] theorem setPipe_free : (m.setPipe n v).free = m.free := rfl
end

section
variable (m : Chip) (n : Nat) (v : RowPipe)
@[simp] theorem setRowPipe_regs : (m.setRowPipe n v).regs = m.regs := rfl
@[simp] theorem setRowPipe_time : (m.setRowPipe n v).time = m.time := rfl
@[simp] theorem setRowPipe_encs : (m.setRowPipe n v).encs = m.encs := rfl
@[simp] theorem setRowPipe_fire : (m.setRowPipe n v).fire = m.fire := rfl
@[simp] theorem setRowPipe_pegs : (m.setRowPipe n v).pegs = m.pegs := rfl
@[simp] theorem setRowPipe_fio : (m.setRowPipe n v).fio = m.fio := rfl
@[simp] theorem setRowPipe_sup : (m.setRowPipe n v).sup = m.sup := rfl
@[simp] theorem setRowPipe_boot : (m.setRowPipe n v).boot = m.boot := rfl
@[simp] theorem setRowPipe_bays : (m.setRowPipe n v).bays = m.bays := rfl
@[simp] theorem setRowPipe_engs : (m.setRowPipe n v).engs = m.engs := rfl
@[simp] theorem setRowPipe_mem : (m.setRowPipe n v).mem = m.mem := rfl
@[simp] theorem setRowPipe_sramValid : (m.setRowPipe n v).sramValid = m.sramValid := rfl
@[simp] theorem setRowPipe_sramBad : (m.setRowPipe n v).sramBad = m.sramBad := rfl
@[simp] theorem setRowPipe_stick : (m.setRowPipe n v).stick = m.stick := rfl
@[simp] theorem setRowPipe_wit : (m.setRowPipe n v).wit = m.wit := rfl
@[simp] theorem setRowPipe_cams : (m.setRowPipe n v).cams = m.cams := rfl
@[simp] theorem setRowPipe_pocs : (m.setRowPipe n v).pocs = m.pocs := rfl
@[simp] theorem setRowPipe_pipes : (m.setRowPipe n v).pipes = m.pipes := rfl
@[simp] theorem setRowPipe_rowPipes : (m.setRowPipe n v).rowPipes = tabSet {} m.rowPipes n v := rfl
@[simp] theorem setRowPipe_replays : (m.setRowPipe n v).replays = m.replays := rfl
@[simp] theorem setRowPipe_screens : (m.setRowPipe n v).screens = m.screens := rfl
@[simp] theorem setRowPipe_pp : (m.setRowPipe n v).pp = m.pp := rfl
@[simp] theorem setRowPipe_tenon : (m.setRowPipe n v).tenon = m.tenon := rfl
@[simp] theorem setRowPipe_purlin : (m.setRowPipe n v).purlin = m.purlin := rfl
@[simp] theorem setRowPipe_latches : (m.setRowPipe n v).latches = m.latches := rfl
@[simp] theorem setRowPipe_fresh : (m.setRowPipe n v).fresh = m.fresh := rfl
@[simp] theorem setRowPipe_heads : (m.setRowPipe n v).heads = m.heads := rfl
@[simp] theorem setRowPipe_eth : (m.setRowPipe n v).eth = m.eth := rfl
@[simp] theorem setRowPipe_subs : (m.setRowPipe n v).subs = m.subs := rfl
@[simp] theorem setRowPipe_trust : (m.setRowPipe n v).trust = m.trust := rfl
@[simp] theorem setRowPipe_text : (m.setRowPipe n v).text = m.text := rfl
@[simp] theorem setRowPipe_hk : (m.setRowPipe n v).hk = m.hk := rfl
@[simp] theorem setRowPipe_nvLog : (m.setRowPipe n v).nvLog = m.nvLog := rfl
@[simp] theorem setRowPipe_out : (m.setRowPipe n v).out = m.out := rfl
@[simp] theorem setRowPipe_free : (m.setRowPipe n v).free = m.free := rfl
end

section
variable (m : Chip) (n : Nat) (v : ReplayState)
@[simp] theorem setReplayCh_regs : (m.setReplayCh n v).regs = m.regs := rfl
@[simp] theorem setReplayCh_time : (m.setReplayCh n v).time = m.time := rfl
@[simp] theorem setReplayCh_encs : (m.setReplayCh n v).encs = m.encs := rfl
@[simp] theorem setReplayCh_fire : (m.setReplayCh n v).fire = m.fire := rfl
@[simp] theorem setReplayCh_pegs : (m.setReplayCh n v).pegs = m.pegs := rfl
@[simp] theorem setReplayCh_fio : (m.setReplayCh n v).fio = m.fio := rfl
@[simp] theorem setReplayCh_sup : (m.setReplayCh n v).sup = m.sup := rfl
@[simp] theorem setReplayCh_boot : (m.setReplayCh n v).boot = m.boot := rfl
@[simp] theorem setReplayCh_bays : (m.setReplayCh n v).bays = m.bays := rfl
@[simp] theorem setReplayCh_engs : (m.setReplayCh n v).engs = m.engs := rfl
@[simp] theorem setReplayCh_mem : (m.setReplayCh n v).mem = m.mem := rfl
@[simp] theorem setReplayCh_sramValid : (m.setReplayCh n v).sramValid = m.sramValid := rfl
@[simp] theorem setReplayCh_sramBad : (m.setReplayCh n v).sramBad = m.sramBad := rfl
@[simp] theorem setReplayCh_stick : (m.setReplayCh n v).stick = m.stick := rfl
@[simp] theorem setReplayCh_wit : (m.setReplayCh n v).wit = m.wit := rfl
@[simp] theorem setReplayCh_cams : (m.setReplayCh n v).cams = m.cams := rfl
@[simp] theorem setReplayCh_pocs : (m.setReplayCh n v).pocs = m.pocs := rfl
@[simp] theorem setReplayCh_pipes : (m.setReplayCh n v).pipes = m.pipes := rfl
@[simp] theorem setReplayCh_rowPipes : (m.setReplayCh n v).rowPipes = m.rowPipes := rfl
@[simp] theorem setReplayCh_replays : (m.setReplayCh n v).replays = tabSet {} m.replays n v := rfl
@[simp] theorem setReplayCh_screens : (m.setReplayCh n v).screens = m.screens := rfl
@[simp] theorem setReplayCh_pp : (m.setReplayCh n v).pp = m.pp := rfl
@[simp] theorem setReplayCh_tenon : (m.setReplayCh n v).tenon = m.tenon := rfl
@[simp] theorem setReplayCh_purlin : (m.setReplayCh n v).purlin = m.purlin := rfl
@[simp] theorem setReplayCh_latches : (m.setReplayCh n v).latches = m.latches := rfl
@[simp] theorem setReplayCh_fresh : (m.setReplayCh n v).fresh = m.fresh := rfl
@[simp] theorem setReplayCh_heads : (m.setReplayCh n v).heads = m.heads := rfl
@[simp] theorem setReplayCh_eth : (m.setReplayCh n v).eth = m.eth := rfl
@[simp] theorem setReplayCh_subs : (m.setReplayCh n v).subs = m.subs := rfl
@[simp] theorem setReplayCh_trust : (m.setReplayCh n v).trust = m.trust := rfl
@[simp] theorem setReplayCh_text : (m.setReplayCh n v).text = m.text := rfl
@[simp] theorem setReplayCh_hk : (m.setReplayCh n v).hk = m.hk := rfl
@[simp] theorem setReplayCh_nvLog : (m.setReplayCh n v).nvLog = m.nvLog := rfl
@[simp] theorem setReplayCh_out : (m.setReplayCh n v).out = m.out := rfl
@[simp] theorem setReplayCh_free : (m.setReplayCh n v).free = m.free := rfl
end

section
variable (m : Chip) (n : Nat) (v : RowScreen)
@[simp] theorem setScr_regs : (m.setScr n v).regs = m.regs := rfl
@[simp] theorem setScr_time : (m.setScr n v).time = m.time := rfl
@[simp] theorem setScr_encs : (m.setScr n v).encs = m.encs := rfl
@[simp] theorem setScr_fire : (m.setScr n v).fire = m.fire := rfl
@[simp] theorem setScr_pegs : (m.setScr n v).pegs = m.pegs := rfl
@[simp] theorem setScr_fio : (m.setScr n v).fio = m.fio := rfl
@[simp] theorem setScr_sup : (m.setScr n v).sup = m.sup := rfl
@[simp] theorem setScr_boot : (m.setScr n v).boot = m.boot := rfl
@[simp] theorem setScr_bays : (m.setScr n v).bays = m.bays := rfl
@[simp] theorem setScr_engs : (m.setScr n v).engs = m.engs := rfl
@[simp] theorem setScr_mem : (m.setScr n v).mem = m.mem := rfl
@[simp] theorem setScr_sramValid : (m.setScr n v).sramValid = m.sramValid := rfl
@[simp] theorem setScr_sramBad : (m.setScr n v).sramBad = m.sramBad := rfl
@[simp] theorem setScr_stick : (m.setScr n v).stick = m.stick := rfl
@[simp] theorem setScr_wit : (m.setScr n v).wit = m.wit := rfl
@[simp] theorem setScr_cams : (m.setScr n v).cams = m.cams := rfl
@[simp] theorem setScr_pocs : (m.setScr n v).pocs = m.pocs := rfl
@[simp] theorem setScr_pipes : (m.setScr n v).pipes = m.pipes := rfl
@[simp] theorem setScr_rowPipes : (m.setScr n v).rowPipes = m.rowPipes := rfl
@[simp] theorem setScr_replays : (m.setScr n v).replays = m.replays := rfl
@[simp] theorem setScr_screens : (m.setScr n v).screens = tabSet {} m.screens n v := rfl
@[simp] theorem setScr_pp : (m.setScr n v).pp = m.pp := rfl
@[simp] theorem setScr_tenon : (m.setScr n v).tenon = m.tenon := rfl
@[simp] theorem setScr_purlin : (m.setScr n v).purlin = m.purlin := rfl
@[simp] theorem setScr_latches : (m.setScr n v).latches = m.latches := rfl
@[simp] theorem setScr_fresh : (m.setScr n v).fresh = m.fresh := rfl
@[simp] theorem setScr_heads : (m.setScr n v).heads = m.heads := rfl
@[simp] theorem setScr_eth : (m.setScr n v).eth = m.eth := rfl
@[simp] theorem setScr_subs : (m.setScr n v).subs = m.subs := rfl
@[simp] theorem setScr_trust : (m.setScr n v).trust = m.trust := rfl
@[simp] theorem setScr_text : (m.setScr n v).text = m.text := rfl
@[simp] theorem setScr_hk : (m.setScr n v).hk = m.hk := rfl
@[simp] theorem setScr_nvLog : (m.setScr n v).nvLog = m.nvLog := rfl
@[simp] theorem setScr_out : (m.setScr n v).out = m.out := rfl
@[simp] theorem setScr_free : (m.setScr n v).free = m.free := rfl
end

section
variable (m : Chip) (e : Engine) (v : EngState)
@[simp] theorem setEng_regs : (m.setEng e v).regs = m.regs := rfl
@[simp] theorem setEng_time : (m.setEng e v).time = m.time := rfl
@[simp] theorem setEng_encs : (m.setEng e v).encs = m.encs := rfl
@[simp] theorem setEng_fire : (m.setEng e v).fire = m.fire := rfl
@[simp] theorem setEng_pegs : (m.setEng e v).pegs = m.pegs := rfl
@[simp] theorem setEng_fio : (m.setEng e v).fio = m.fio := rfl
@[simp] theorem setEng_sup : (m.setEng e v).sup = m.sup := rfl
@[simp] theorem setEng_boot : (m.setEng e v).boot = m.boot := rfl
@[simp] theorem setEng_bays : (m.setEng e v).bays = m.bays := rfl
@[simp] theorem setEng_engs : (m.setEng e v).engs = tabSet {} m.engs (engIdx e) v := rfl
@[simp] theorem setEng_mem : (m.setEng e v).mem = m.mem := rfl
@[simp] theorem setEng_sramValid : (m.setEng e v).sramValid = m.sramValid := rfl
@[simp] theorem setEng_sramBad : (m.setEng e v).sramBad = m.sramBad := rfl
@[simp] theorem setEng_stick : (m.setEng e v).stick = m.stick := rfl
@[simp] theorem setEng_wit : (m.setEng e v).wit = m.wit := rfl
@[simp] theorem setEng_cams : (m.setEng e v).cams = m.cams := rfl
@[simp] theorem setEng_pocs : (m.setEng e v).pocs = m.pocs := rfl
@[simp] theorem setEng_pipes : (m.setEng e v).pipes = m.pipes := rfl
@[simp] theorem setEng_rowPipes : (m.setEng e v).rowPipes = m.rowPipes := rfl
@[simp] theorem setEng_replays : (m.setEng e v).replays = m.replays := rfl
@[simp] theorem setEng_screens : (m.setEng e v).screens = m.screens := rfl
@[simp] theorem setEng_pp : (m.setEng e v).pp = m.pp := rfl
@[simp] theorem setEng_tenon : (m.setEng e v).tenon = m.tenon := rfl
@[simp] theorem setEng_purlin : (m.setEng e v).purlin = m.purlin := rfl
@[simp] theorem setEng_latches : (m.setEng e v).latches = m.latches := rfl
@[simp] theorem setEng_fresh : (m.setEng e v).fresh = m.fresh := rfl
@[simp] theorem setEng_heads : (m.setEng e v).heads = m.heads := rfl
@[simp] theorem setEng_eth : (m.setEng e v).eth = m.eth := rfl
@[simp] theorem setEng_subs : (m.setEng e v).subs = m.subs := rfl
@[simp] theorem setEng_trust : (m.setEng e v).trust = m.trust := rfl
@[simp] theorem setEng_text : (m.setEng e v).text = m.text := rfl
@[simp] theorem setEng_hk : (m.setEng e v).hk = m.hk := rfl
@[simp] theorem setEng_nvLog : (m.setEng e v).nvLog = m.nvLog := rfl
@[simp] theorem setEng_out : (m.setEng e v).out = m.out := rfl
@[simp] theorem setEng_free : (m.setEng e v).free = m.free := rfl
end

section
variable (m : Chip) (j : Nat) (v : JobRun)
@[simp] theorem setJobRun_regs : (m.setJobRun j v).regs = m.regs := rfl
@[simp] theorem setJobRun_time : (m.setJobRun j v).time = m.time := rfl
@[simp] theorem setJobRun_encs : (m.setJobRun j v).encs = m.encs := rfl
@[simp] theorem setJobRun_fire : (m.setJobRun j v).fire = m.fire := rfl
@[simp] theorem setJobRun_pegs : (m.setJobRun j v).pegs = m.pegs := rfl
@[simp] theorem setJobRun_fio : (m.setJobRun j v).fio = m.fio := rfl
@[simp] theorem setJobRun_sup : (m.setJobRun j v).sup = m.sup := rfl
@[simp] theorem setJobRun_boot : (m.setJobRun j v).boot = m.boot := rfl
@[simp] theorem setJobRun_bays : (m.setJobRun j v).bays = { m.bays with jobs := tabSet {} m.bays.jobs j v } := rfl
@[simp] theorem setJobRun_engs : (m.setJobRun j v).engs = m.engs := rfl
@[simp] theorem setJobRun_mem : (m.setJobRun j v).mem = m.mem := rfl
@[simp] theorem setJobRun_sramValid : (m.setJobRun j v).sramValid = m.sramValid := rfl
@[simp] theorem setJobRun_sramBad : (m.setJobRun j v).sramBad = m.sramBad := rfl
@[simp] theorem setJobRun_stick : (m.setJobRun j v).stick = m.stick := rfl
@[simp] theorem setJobRun_wit : (m.setJobRun j v).wit = m.wit := rfl
@[simp] theorem setJobRun_cams : (m.setJobRun j v).cams = m.cams := rfl
@[simp] theorem setJobRun_pocs : (m.setJobRun j v).pocs = m.pocs := rfl
@[simp] theorem setJobRun_pipes : (m.setJobRun j v).pipes = m.pipes := rfl
@[simp] theorem setJobRun_rowPipes : (m.setJobRun j v).rowPipes = m.rowPipes := rfl
@[simp] theorem setJobRun_replays : (m.setJobRun j v).replays = m.replays := rfl
@[simp] theorem setJobRun_screens : (m.setJobRun j v).screens = m.screens := rfl
@[simp] theorem setJobRun_pp : (m.setJobRun j v).pp = m.pp := rfl
@[simp] theorem setJobRun_tenon : (m.setJobRun j v).tenon = m.tenon := rfl
@[simp] theorem setJobRun_purlin : (m.setJobRun j v).purlin = m.purlin := rfl
@[simp] theorem setJobRun_latches : (m.setJobRun j v).latches = m.latches := rfl
@[simp] theorem setJobRun_fresh : (m.setJobRun j v).fresh = m.fresh := rfl
@[simp] theorem setJobRun_heads : (m.setJobRun j v).heads = m.heads := rfl
@[simp] theorem setJobRun_eth : (m.setJobRun j v).eth = m.eth := rfl
@[simp] theorem setJobRun_subs : (m.setJobRun j v).subs = m.subs := rfl
@[simp] theorem setJobRun_trust : (m.setJobRun j v).trust = m.trust := rfl
@[simp] theorem setJobRun_text : (m.setJobRun j v).text = m.text := rfl
@[simp] theorem setJobRun_hk : (m.setJobRun j v).hk = m.hk := rfl
@[simp] theorem setJobRun_nvLog : (m.setJobRun j v).nvLog = m.nvLog := rfl
@[simp] theorem setJobRun_out : (m.setJobRun j v).out = m.out := rfl
@[simp] theorem setJobRun_free : (m.setJobRun j v).free = m.free := rfl
end

section
variable (dt : Nat) (m : Chip)
@[simp] theorem elapse_time : (elapse dt m).time = ticks (m.get F.TM_LIMITS_slew_max) (m.flag F.RP_BOOT_FLAGS_realign_due) dt m.time := rfl
@[simp] theorem elapse_regs : (elapse dt m).regs = m.regs := rfl
@[simp] theorem elapse_encs : (elapse dt m).encs = m.encs := rfl
@[simp] theorem elapse_fire : (elapse dt m).fire = m.fire := rfl
@[simp] theorem elapse_pegs : (elapse dt m).pegs = m.pegs := rfl
@[simp] theorem elapse_fio : (elapse dt m).fio = m.fio := rfl
@[simp] theorem elapse_sup : (elapse dt m).sup = m.sup := rfl
@[simp] theorem elapse_boot : (elapse dt m).boot = m.boot := rfl
@[simp] theorem elapse_bays : (elapse dt m).bays = m.bays := rfl
@[simp] theorem elapse_engs : (elapse dt m).engs = m.engs := rfl
@[simp] theorem elapse_mem : (elapse dt m).mem = m.mem := rfl
@[simp] theorem elapse_sramValid : (elapse dt m).sramValid = m.sramValid := rfl
@[simp] theorem elapse_sramBad : (elapse dt m).sramBad = m.sramBad := rfl
@[simp] theorem elapse_stick : (elapse dt m).stick = m.stick := rfl
@[simp] theorem elapse_wit : (elapse dt m).wit = m.wit := rfl
@[simp] theorem elapse_cams : (elapse dt m).cams = m.cams := rfl
@[simp] theorem elapse_pocs : (elapse dt m).pocs = m.pocs := rfl
@[simp] theorem elapse_pipes : (elapse dt m).pipes = m.pipes := rfl
@[simp] theorem elapse_rowPipes : (elapse dt m).rowPipes = m.rowPipes := rfl
@[simp] theorem elapse_replays : (elapse dt m).replays = m.replays := rfl
@[simp] theorem elapse_screens : (elapse dt m).screens = m.screens := rfl
@[simp] theorem elapse_pp : (elapse dt m).pp = m.pp := rfl
@[simp] theorem elapse_tenon : (elapse dt m).tenon = m.tenon := rfl
@[simp] theorem elapse_purlin : (elapse dt m).purlin = m.purlin := rfl
@[simp] theorem elapse_latches : (elapse dt m).latches = m.latches := rfl
@[simp] theorem elapse_fresh : (elapse dt m).fresh = if dt = 0 then m.fresh else [] := rfl
@[simp] theorem elapse_heads : (elapse dt m).heads = m.heads := rfl
@[simp] theorem elapse_eth : (elapse dt m).eth = m.eth := rfl
@[simp] theorem elapse_subs : (elapse dt m).subs = m.subs := rfl
@[simp] theorem elapse_trust : (elapse dt m).trust = m.trust := rfl
@[simp] theorem elapse_text : (elapse dt m).text = m.text := rfl
@[simp] theorem elapse_hk : (elapse dt m).hk = m.hk := rfl
@[simp] theorem elapse_nvLog : (elapse dt m).nvLog = m.nvLog := rfl
@[simp] theorem elapse_out : (elapse dt m).out = m.out := rfl
@[simp] theorem elapse_free : (elapse dt m).free = m.free := rfl
@[simp] theorem elapse_rd (a : Nat) : (elapse dt m).rd a = m.rd a := rfl
@[simp] theorem elapse_get (f : Fld) : (elapse dt m).get f = m.get f := rfl
@[simp] theorem elapse_zero : elapse 0 m = m := rfl
end

end Sys2Proof.Laws
end

