-- ==== Sys2Proof/Laws/Sums.lean ====
section
/-!
SUPPORT. Sys2Proof/Laws/Sums.lean: the exact sum of products of integer elements (R160), and what an integer reduction and the sum of two
integer partials write (R166, R168).
-/
namespace Sys2Proof.Laws
open Sys2Proof.Machine

theorem qNorm_int (x : Int) : qNorm ⟨x, 1⟩ = qOfInt x := by simp [qNorm, qOfInt]
theorem qMul_int (a b : Int) : qMul (qOfInt a) (qOfInt b) = qOfInt (a * b) := qNorm_int _
theorem qAdd_int (a b : Int) : qAdd (qOfInt a) (qOfInt b) = qOfInt (a + b) := by
  simp [qAdd, qOfInt, qNorm]
theorem qFloor_int (a : Int) : qFloor (qOfInt a) = a := by simp [qFloor, qOfInt]

/-- The exact sum of products of integer elements is the sum of the products, and no mark is set. -/
theorem dotExact_int {ι : Type} (l : List ι) (f g : ι → Elem) (a b : ι → Int) (hf : ∀ i ∈ l, f i = .num (qOfInt (a i)))
    (hg : ∀ i ∈ l, g i = .num (qOfInt (b i))) :
    dotExact (l.map fun i => (f i, g i)) = (qOfInt (l.map fun i => a i * b i).sum, {}) := by
  induction l with
  | nil => rfl
  | cons i t ih =>
    have h1 := hf i (List.mem_cons_self ..)
    have h2 := hg i (List.mem_cons_self ..)
    have h3 := ih (fun j hj => hf j (List.mem_cons_of_mem _ hj)) (fun j hj => hg j (List.mem_cons_of_mem _ hj))
    simp only [List.map_cons, dotExact, h1, h2, h3, elemMul, qMul_int, qAdd_int, List.sum_cons]

theorem familyOf_int (f : Nat) (h : familyOf f = .int) : isMx f = false := by
  unfold familyOf at h
  split at h
  · next hf => rcases hf with hf | hf <;> simp [isMx] <;> omega
  · split at h
    · cases h
    · split at h
      · cases h
      · next hm => simpa using hm

/-- An integer MATMUL that writes partials, without an input partial and a bias: element (r, j) of its output is the sum over k of the
products, in 64 bits of two's complement. -/
theorem matmul_int_writes (m : Chip) (n : Nat) (c : CutEntry) (pl : CmdPlan) (d : BentDesc) (a b : Nat → Nat → Int)
    (hd : d = m.bentDesc c.descPtr) (hf : familyOf d.fmtA = .int) (hp : d.outPartial = true) (hi : d.accIn = false)
    (hb : d.bias = false)
    (ha : ∀ r i, i < d.k → m.elemAt pl.errs (bentAddr n (d.addrA + r * d.pitchA * 16)) d.fmtA i = .num (qOfInt (a r i)))
    (hB : ∀ i j, i < d.k → m.elemAt pl.errs (operandB n d) d.fmtB (i * d.cols + j) = .num (qOfInt (b i j))) :
    (m.matmulWork n c pl).writes = (upTo d.rows).map fun r => (bentAddr n (d.addrC + r * d.pitchC * 16),
      (upTo d.cols).flatMap fun j => leBytes 8 (unsignedOf 64 ((upTo d.k).map fun i => a r i * b i j).sum)) := by
  have hacc : ∀ r j, m.matmulAcc n d pl r j = { v := ((upTo d.k).map fun i => a r i * b i j).sum } := by
    intro r j
    unfold Chip.matmulAcc
    simp only [familyOf_int _ hf, Bool.false_eq_true, if_false, hf, reduce, List.flatMap_cons, List.flatMap_nil, List.append_nil,
      List.map_map]
    have := dotExact_int (upTo d.k) (fun i => m.elemAt pl.errs (bentAddr n (d.addrA + r * d.pitchA * 16)) d.fmtA i)
      (fun i => m.elemAt pl.errs (operandB n d) d.fmtB (i * d.cols + j)) (a r) (fun i => b i j)
      (fun i hm => ha r i (by simpa [upTo] using hm)) (fun i hm => hB i j (by simpa [upTo] using hm))
    simp only [Chip.elemAt] at this
    simp only [Function.comp_def, this, qFloor_int]
  simp only [Chip.matmulWork, ← hd, outRows, hp, if_true, partialRunning, hi, hb, Bool.false_eq_true, if_false, hacc, hf, encPartial,
    List.flatMap_map]

/-- A COMBINE of two integer partials that writes partials: element (r, j) of its output is their sum. -/
theorem combine_int_writes (m : Chip) (n : Nat) (c : CutEntry) (pl : CmdPlan) (d : BentDesc)
    (hd : d = m.bentDesc c.descPtr) (hf : d.fmtA = 0x20) (hp : d.outPartial = true) (hi : d.accIn = false) (hb : d.bias = false) :
    (m.combineWork n c pl).writes = (upTo d.rows).map fun r => (bentAddr n (d.addrC + r * d.pitchC * 16),
      (upTo d.cols).flatMap fun j => leBytes 8 (unsignedOf 64
        (signedOf 64 (m.elemBits pl.errs (bentAddr n d.addrA + r * d.pitchA * 16) 64 j) +
          signedOf 64 (m.elemBits pl.errs (operandB n d + r * d.pitchA * 16) 64 j)))) := by
  have hp' : bitN d.flags 2 = true := hp
  simp only [Chip.combineWork, ← hd, BentDesc.combineFam, hf, if_true, outRows, BentDesc.outPartial, hp', partialRunning, hi, hb,
    Bool.false_eq_true, if_false, Chip.partialAt, decPartial, addAcc, List.flatMap_map]
  rfl

end Sys2Proof.Laws
end

