-- ==== Sys2Proof/Laws/Completion/Basic.lean ====
section
/-!
SUPPORT. Sys2Proof/Laws/Completion/Basic.lean: what every command does, and the small facts that the statements' numbers need.
What an effect leaves, said once for the statements that say where a command completes.
-/
namespace Sys2Proof.Laws
open Sys2Proof.Machine

theorem does_unit {u : Bool} {dt eff s m'} (hu : u = true) (hup : Up s.m) (h : eff s.m = m') :
   onUnit u dt eff s = .next { s with m := m' } := by
  subst hu h; exact (onUnit_next _ _ _ _ _).2 ⟨rfl, by rw [take_live _ _ _ hup.1 hup.2]⟩

theorem consumed_camOf (a v m n) : (consumed a v m).camOf n = m.camOf n := by simp only [Chip.camOf, consumed_stick]

theorem accept_camOf (a v m n) : ((consumed a v m).acceptCmd a).camOf n = m.camOf n := by
  simp only [Chip.camOf, acceptCmd_stick, consumed_stick]

theorem consumed_get (a v m) (f : Fld) : (consumed a v m).get f = m.get f := by simp only [Chip.get, Chip.rd, consumed_regs]

theorem consumed_flag (a v m) (f : Fld) : (consumed a v m).flag f = m.flag f := by simp only [Chip.flag, consumed_get]

theorem consumed_camState (a v m c) : (consumed a v m).camState c = m.camState c := by simp only [Chip.camState, consumed_get]

theorem consumed_camStreams (a v m c) : (consumed a v m).camStreams c = m.camStreams c := by
  simp only [Chip.camStreams, consumed_camState]

theorem consumed_gangOfPipe (a v m n) : (consumed a v m).gangOfPipe n = m.gangOfPipe n := by
  have h : ∀ k, (consumed a v m).camOfLink k = m.camOfLink k := fun k => by simp only [Chip.camOfLink, consumed_stick]
  have h2 : ∀ k, (consumed a v m).replayGang k = m.replayGang k := fun k => by simp only [Chip.replayGang, consumed_get]
  simp only [Chip.gangOfPipe, Chip.gangs, consumed_stick, h, h2]

theorem acceptCmd_pipes (a : Auth) (m : Chip) : (m.acceptCmd a).pipes = m.pipes := by
  have : (((m.bump R.SEC_CNT_CMD_OK).keepResult a 0).log "command" []).pipes = m.pipes :=
    log_keeps (P := fun x => x.pipes = m.pipes) _ _ _ rfl fun _ => rfl
  exact answer_keeps (P := fun x => x.pipes = m.pipes) _ _ _ _ (fun _ => this) fun _ => this

theorem consumed_pipes (a v m) : (consumed a v m).pipes = m.pipes := by
  show (m.touch a.session).pipes = m.pipes
  unfold Chip.touch; split <;> rfl

theorem acceptCmd_heads (a : Auth) (m : Chip) : (m.acceptCmd a).heads = m.heads := by
  have : (((m.bump R.SEC_CNT_CMD_OK).keepResult a 0).log "command" []).heads = m.heads :=
    log_keeps (P := fun x => x.heads = m.heads) _ _ _ rfl fun _ => rfl
  exact answer_keeps (P := fun x => x.heads = m.heads) _ _ _ _ (fun _ => this) fun _ => this

theorem consumed_heads (a v m) : (consumed a v m).heads = m.heads := by
  show (m.touch a.session).heads = m.heads
  unfold Chip.touch; split <;> rfl

theorem accept_heads (a v m) : ((consumed a v m).acceptCmd a).heads = m.heads := by rw [acceptCmd_heads, consumed_heads]

theorem consumed_pipe (a v m n) : (consumed a v m).pipe n = m.pipe n := by simp only [Chip.pipe, consumed_pipes]

theorem accept_pipe (a v m n) : ((consumed a v m).acceptCmd a).pipe n = m.pipe n := by
  simp only [Chip.pipe, acceptCmd_pipes, consumed_pipes]

theorem does_supply {u : Bool} {eff s m'} (hu : u = true) (h : eff s.m = m') :
   onSupply u eff s = .next { s with m := m' } := by
  subst hu h; exact (onSupply_next _ _ _ _).2 ⟨rfl, rfl⟩

/-- A command completes exactly when it is well formed. -/
theorem exec_completes (i : Instr) (s : State) : (∃ t, exec i s = .next t) ↔ i.wf = true := by
  obtain ⟨-, dt, eff, he⟩ | ⟨-, eff, he⟩ := exec_form i
  · simp only [he, onUnit_next]
    exact ⟨fun ⟨_, h, _⟩ => h, fun h => ⟨_, h, rfl⟩⟩
  · simp only [he, onSupply_next]
    exact ⟨fun ⟨_, h, _⟩ => h, fun h => ⟨_, h, rfl⟩⟩

/-- A completed command leaves the queue alone. -/
theorem exec_pending (i : Instr) (s t : State) (ht : exec i s = .next t) : t.pending = s.pending := by
  obtain ⟨-, dt, eff, he⟩ | ⟨-, eff, he⟩ := exec_form i
  · rw [he, onUnit_next] at ht; obtain ⟨-, rfl⟩ := ht; rfl
  · rw [he, onSupply_next] at ht; obtain ⟨-, rfl⟩ := ht; rfl

/-- No command is refused. -/
theorem exec_not_refused (i : Instr) (s : State) (r : Refusal) : exec i s ≠ .refused r := by
  obtain ⟨-, dt, eff, he⟩ | ⟨-, eff, he⟩ := exec_form i
  · rw [he]; unfold onUnit; cases i.wf <;> simp
  · rw [he]; unfold onSupply; cases i.wf <;> simp

/-- Without supply, a command that is not of the supply changes nothing. -/
theorem exec_unsupplied (i : Instr) (s t : State) (h : s.m.supplied = false) (hi : ofSupply i = false) (ht : exec i s = .next t) :
    t = s := by
  obtain ⟨-, dt, eff, he⟩ | ⟨hs, -⟩ := exec_form i
  · rw [he, onUnit_next] at ht
    obtain ⟨-, rfl⟩ := ht
    rw [take_unsupplied _ _ _ h]
  · rw [hs] at hi; cases hi

/-- Held in reset, a command that is not of the supply lets time pass and does nothing else. -/
theorem exec_held (i : Instr) (s t : State) (h : s.m.supplied = true) (hr : s.m.boot.inReset = true) (hi : ofSupply i = false)
    (ht : exec i s = .next t) : ∃ dt, t = { s with m := elapse dt s.m } := by
  obtain ⟨-, dt, eff, he⟩ | ⟨hs, -⟩ := exec_form i
  · rw [he, onUnit_next] at ht
    obtain ⟨-, rfl⟩ := ht
    exact ⟨dt, by rw [take_held _ _ _ h hr]⟩
  · rw [hs] at hi; cases hi

theorem ofLeBytes_leBytes_succ (n : Nat) (ih : ∀ v, ofLeBytes (leBytes n v) = v % 256 ^ n) (v : Nat) : ofLeBytes (leBytes (n+1) v) = v % 256 ^ (n+1) := by
  show (BitVec.ofNat 8 v).toNat + 256 * ofLeBytes (leBytes n (v/256)) = _
  rw [ih, BitVec.toNat_ofNat]
  have p : (256:Nat) ^ (n+1) = 256 * 256 ^ n := by rw [Nat.pow_succ, Nat.mul_comm]
  rw [p]
  exact (Nat.mod_mul (x := v) (a := 256) (b := 256 ^ n)).symm

theorem sum_of_perm (l k : List Nat) (h : l.Perm k) : l.sum = k.sum := by
  induction h with
  | nil => rfl
  | cons x _ ih => simp [ih]
  | swap x y l => simp only [List.sum_cons]; omega
  | trans _ _ a b => exact a.trans b

theorem fldOf_fldIns_bit (w : Word) (a : Nat) : fldOf (fldIns w ⟨a,26,26⟩ 1) ⟨a,26,26⟩ = 1 := by
  unfold fldOf fldIns fldOf bitsN
  simp only [BitVec.toNat_ofNat]
  have := w.isLt
  omega

theorem rneDiv_nearest (n : Int) (d : Nat) (hd : 0 < d) : (∀ k : Int, (n - rneDiv n d * d).natAbs ≤ (n - k * d).natAbs) ∧
    (2 * (n - rneDiv n d * d).natAbs = d → rneDiv n d % 2 = 0) := by
  have h1 : n.fdiv d = n / d := Int.fdiv_eq_ediv_of_nonneg _ (by omega)
  have h2 := Int.emod_add_mul_ediv n d
  have h3 := Int.emod_nonneg n (b := (d:Int)) (by omega)
  have h4 := Int.emod_lt_of_pos n (b := (d:Int)) (by omega)
  unfold rneDiv
  simp only [h1]
  generalize hq : n / (d:Int) = q at *
  generalize hr : n % (d:Int) = r at *
  have hn : n = r + d * q := h2.symm
  subst hn
  have e : ∀ k : Int, r + d * q - k * d = r + d * (q - k) := by intro k; ring
  have e0 : r + d * q - q * d = r := by ring
  have e1 : r + d * q - (q + 1) * d = r - d := by ring
  rw [e0]
  have far : ∀ k : Int, k ≠ q → k ≠ q + 1 → (d:Int) ≤ (r + d * (q - k)).natAbs := by
    intro k h h'
    rcases Int.lt_or_gt_of_ne h with h | h
    · have : (d:Int) * 1 ≤ d * (q - k) := Int.mul_le_mul_of_nonneg_left (by omega) (by omega)
      omega
    · have : (d:Int) * 2 ≤ d * (k - q) := Int.mul_le_mul_of_nonneg_left (by omega) (by omega)
      have e2 : (d:Int) * (q - k) = - (d * (k - q)) := by ring
      omega
  constructor
  · intro k
    by_cases hk : k = q
    · subst hk; rw [e0]; split
      · rw [e0]
      · split
        · rw [e1]; omega
        · split
          · rw [e0]
          · rw [e1]; omega
    · by_cases hk' : k = q + 1
      · subst hk'; rw [e1]; split
        · rw [e0]; omega
        · split
          · rw [e1]
          · split
            · rw [e0]; omega
            · rw [e1]
      · have := far k hk hk'
        rw [e k]; split
        · rw [e0]; omega
        · split
          · rw [e1]; omega
          · split
            · rw [e0]; omega
            · rw [e1]; omega
  · split
    · rw [e0]; omega
    · split
      · rw [e1]; omega
      · split
        · intro _; assumption
        · rw [e1]; omega

theorem signedOf_unsignedOf (w : Nat) (x : Int) : 0 < w → -((2 ^ (w - 1) : Nat) : Int) ≤ x → x < ((2 ^ (w - 1) : Nat) : Int) →
    signedOf w (unsignedOf w x) = x := by
  intro hw h1 h2
  obtain ⟨k, rfl⟩ : ∃ k, w = k + 1 := ⟨w - 1, by omega⟩
  simp only [Nat.add_sub_cancel] at *
  unfold signedOf unsignedOf
  simp only [Nat.add_sub_cancel, Nat.pow_succ]
  generalize (2 ^ k : Nat) = p at *
  by_cases hx : 0 ≤ x
  · have : x % ((p * 2 : Nat) : Int) = x := Int.emod_eq_of_lt hx (by omega)
    rw [this]
    have : x.toNat % (p * 2) = x.toNat := Nat.mod_eq_of_lt (by omega)
    rw [this]; split <;> omega
  · have : x % ((p * 2 : Nat) : Int) = x + (p * 2 : Nat) := by
      rw [← Int.add_emod_right]; exact Int.emod_eq_of_lt (by omega) (by omega)
    rw [this]
    have : (x + (p * 2 : Nat)).toNat % (p * 2) = (x + (p * 2 : Nat)).toNat := Nat.mod_eq_of_lt (by omega)
    rw [this]; split <;> omega

theorem forAll_frame {β : Type} (g : Chip → β) {α : Type} (l : List α) (f : α → Chip → Chip) (m : Chip) (hf : ∀ a x, g (f a x) =
    g x) : g (forAll l f m) = g m :=
  forAll_keeps g _ _ _ hf

theorem consumed_mem (a v m) : (consumed a v m).mem = m.mem := by
  show (m.touch a.session).mem = m.mem
  unfold Chip.touch; split <;> rfl

theorem now_of {x y : Chip} (h : x.time = y.time) : x.now = y.now := by unfold Chip.now; rw [h]

theorem tb3_of {x y : Chip} (h : x.time = y.time) : x.tb3 = y.tb3 := by unfold Chip.tb3; rw [h]

theorem get_of {x y : Chip} (h : x.regs = y.regs) (f : Fld) : x.get f = y.get f := by unfold Chip.get Chip.rd; rw [h]

theorem get_put_ne (m : Chip) (f : Fld) (v : Nat) (hf : f.lo ≤ f.hi) (h32 : f.hi < 32) (hv : v % 2 ^ (f.hi - f.lo + 1) ≠ 0) : (m.put f
    v).get f = v % 2 ^ (f.hi - f.lo + 1) := by
  have h1 := fldOf_fldIns_same (m.rd f.addr) f v hf h32
  unfold Chip.get
  show fldOf (tabGet 0 (tabSet 0 m.regs f.addr _) f.addr) f = _
  rw [tabGet_set_ne 0 m.regs f.addr _ (by intro e; rw [e] at h1; rw [← h1] at hv; exact hv (by simp [fldOf, bitsN]))]
  exact h1

theorem canon_accept (a : Auth) (v : Session) (m : Chip) (h : Canon m) : Canon ((consumed a v m).acceptCmd a) := by
  have hc : Canon (consumed a v m) := by
    unfold consumed Chip.touch; split <;> exact h
  exact keep_Chip_acceptCmd keep_canon _ _ hc

end Sys2Proof.Laws
end

