-- ==== Sys2Proof/Laws/Completion/Pipeline.lean ====
section
/-!
SUPPORT. Sys2Proof/Laws/Completion/Pipeline.lean: replay and the line pipelines.
What an effect leaves, said once for the statements that say where a command completes.
-/
namespace Sys2Proof.Laws
open Sys2Proof.Machine

theorem rc_set (m : Chip) (n : Nat) (v : ReplayState) (h : v ≠ {}) : (m.setReplayCh n v).replayCh n = v :=
    tabGet_set_ne ({} : ReplayState) m.replays n v h

theorem pipe_of {x y : Chip} (h : x.pipes = y.pipes) (n : Nat) : x.pipe n = y.pipe n := by unfold Chip.pipe; rw [h]

theorem pipe_set (m : Chip) (n : Nat) (v : PipeState) (h : v ≠ {}) : (m.setPipe n v).pipe n = v :=
    tabGet_set_ne ({} : PipeState) m.pipes n v h

theorem lpFlag_pipes (g : Gang) (f : Nat → Fld) (m : Chip) : (m.lpFlag g f).pipes = m.pipes := forAll_frame (fun z : Chip =>
    z.pipes) _ _ _ (fun _ _ => rfl)

theorem syncReset_pipe (g : Gang) (m : Chip) : ((m.syncReset g).pipe g.master).resetDue = true := by
  unfold Chip.syncReset; dsimp only; split
  · assumption
  · rw [pipe_of (lpFlag_pipes ..), pipe_of (x := Chip.bump _ _) (y := Chip.setPipe _ _ _) rfl,
        pipe_set _ _ _ (by intro e; have := congrArg (·.resetDue) e; simp at this)]

theorem putCal_pipe (g : Gang) (b : Bool) (c : CalRec) (m : Chip) : (if b then ((m.putCal g b c).pipe g.master).calB else ((m.putCal g b
    c).pipe g.master).calA) = some c := by
  unfold Chip.putCal Chip.onGang; dsimp only
  rw [pipe_of (forAll_frame (fun z : Chip => z.pipes) _ _ _ (fun _ _ => by split <;> rfl)), pipe_set]
  · cases b <;> rfl
  · cases b
    · intro e; have := congrArg (·.calA) e; simp at this
    · intro e; have := congrArg (·.calB) e; simp at this

theorem replayLine_next (dt ch : Nat) (io : LineIo) (m0 m : Chip) (c : CameraRec) (g : Gang) (hm : m = elapse dt m0)
    (h1 : m.camOf (m.replayCh ch).camera = some c) (h2 : m.gangOf (m.replayCh ch).target = some g) (h3 : m.rplState ch =
        1 ∨ m.rplState ch = 2)
    (h4 : m.replayDue ch ((m.findLine c (m.replayCh ch).next).map fun a =>
        m.numAt (a + 0x10) 8) ≤ m.now) (h5 : (m.replayCh ch).next + 1 < ((m.replayCh ch).last + 1) * m.rowLines g.row) :
    ((replayLine dt ch io m0).replayCh ch).next = (m.replayCh ch).next + 1 ∧ ((replayLine dt ch io m0).replayCh ch).lastAt =
        some m.now := by
  unfold replayLine
  simp only [← hm, h1, h2]
  rw [if_neg (by rcases h3 with h | h <;> rw [h] <;> simp <;> omega), if_neg (by rcases h3 with h | h <;> rw [h] <;> simp),
      if_neg (by omega)]
  have hv : ∀ (x : Chip) (k : Nat), ((x.setReplayCh ch
      { m.replayCh ch with next := (m.replayCh ch).next + 1, lastAt := some m.now, lastTb3 := k }).replayCh ch).next =
          (m.replayCh ch).next + 1 ∧ ((x.setReplayCh ch
              { m.replayCh ch with next := (m.replayCh ch).next + 1, lastAt := some m.now, lastTb3 := k }).replayCh ch).lastAt =
                  some m.now := fun x k => by
    rw [rc_set _ _ _ (by intro e; have := congrArg (·.next) e; simp at this)]; exact ⟨rfl, rfl⟩
  split
  · exact hv _ _
  · exact hv _ _

theorem replayStart_ch (ch cam first last tg l : Nat) (y : Chip) (hf : 0 < first) :
    (((y.put (F.LP_RPL_STAT_state ch) 1).setReplayCh ch { camera := cam, target := tg, first, last, next := l }).replayCh ch) =
        { camera := cam, target := tg, first, last, next := l } ∧
    (((y.put (F.LP_RPL_STAT_state ch) 1).setReplayCh ch { camera := cam, target := tg, first, last, next := l }).rplState ch) = 1 := by
  refine ⟨rc_set _ _ _ (by intro e; have := congrArg (·.first) e; simp at this; omega), ?_⟩
  have h : ∀ (z : Chip) (v : ReplayState), (z.setReplayCh ch v).rplState ch = z.rplState ch := fun _ _ => rfl
  rw [h]
  exact get_put_ne _ (F.LP_RPL_STAT_state ch) 1 (by simp [F.LP_RPL_STAT_state]) (by simp [F.LP_RPL_STAT_state])
      (by simp [F.LP_RPL_STAT_state])

theorem put_src (k j src ch : Nat) (x : Chip) (hc : Canon x) (hs : src < 4) (h : k = j ∨ x.get (F.LP_CTRL_src_sel j) = src) :
    Canon ((x.put (F.LP_CTRL_src_sel k) src).put (F.LP_CTRL_replay_ch k) ch) ∧
        ((x.put (F.LP_CTRL_src_sel k) src).put (F.LP_CTRL_replay_ch k) ch).get (F.LP_CTRL_src_sel j) = src := by
  have c1 : Canon (x.put (F.LP_CTRL_src_sel k) src) := keep_canon.wr _ _ _ hc
  refine ⟨keep_canon.wr _ _ _ c1, ?_⟩
  rw [get_put_apart _ _ _ _ c1.1 (by simp [fieldsApart, F.LP_CTRL_src_sel, F.LP_CTRL_replay_ch]) (by simp [F.LP_CTRL_replay_ch])
      (by simp [F.LP_CTRL_src_sel]) (by simp [F.LP_CTRL_replay_ch]) (by simp [F.LP_CTRL_src_sel])]
  by_cases e : k = j
  · subst e
    rw [get_put_same _ _ _ hc.1 (by simp [F.LP_CTRL_src_sel]) (by simp [F.LP_CTRL_src_sel])]
    exact Nat.mod_eq_of_lt hs
  · rw [get_put_apart _ _ _ _ hc.1 (by simp [fieldsApart, F.LP_CTRL_src_sel]; omega) (by simp [F.LP_CTRL_src_sel])
        (by simp [F.LP_CTRL_src_sel]) (by simp [F.LP_CTRL_src_sel]) (by simp [F.LP_CTRL_src_sel])]
    exact h.resolve_left e

theorem route_get (g : Gang) (src ch : Nat) (x : Chip) (hc : Canon x) (hg : 0 < g.links) (hs : src < 4) :
    ((x.onGang g fun k m => (m.put (F.LP_CTRL_src_sel k) src).put (F.LP_CTRL_replay_ch k) ch).showPipe g).get (F.LP_CTRL_src_sel
        g.master) = src := by
  have hl : ∃ l, (upTo g.links).map (fun i => g.master + i) = g.master :: l := by
    unfold upTo
    obtain ⟨k, hk⟩ := Nat.exists_eq_succ_of_ne_zero (by omega : g.links ≠ 0)
    rw [hk, List.range_succ_eq_map]; exact ⟨(List.range k).map ((fun i => g.master + i) ∘ Nat.succ), by simp⟩
  obtain ⟨l, hl⟩ := hl
  have h1 : Canon (x.onGang g fun k m => (m.put (F.LP_CTRL_src_sel k) src).put (F.LP_CTRL_replay_ch k) ch) ∧ (x.onGang g fun k m =>
      (m.put (F.LP_CTRL_src_sel k) src).put (F.LP_CTRL_replay_ch k) ch).get (F.LP_CTRL_src_sel g.master) = src := by
    unfold Chip.onGang
    rw [hl]
    exact keep_forAll (P := fun z => Canon z ∧ z.get (F.LP_CTRL_src_sel g.master) =
        src) l _ _ (put_src g.master g.master src ch x hc hs (.inl rfl)) fun k z hz => put_src k g.master src ch z hz.1 hs (.inr hz.2)
  generalize (x.onGang g fun k m => (m.put (F.LP_CTRL_src_sel k) src).put (F.LP_CTRL_replay_ch k) ch) = y at h1
  unfold Chip.showPipe; dsimp only
  unfold Chip.onGang
  refine (keep_forAll (P := fun z => Canon z ∧ z.get (F.LP_CTRL_src_sel g.master) = src) _ _ _ h1 fun k z hz =>
      ⟨keep_canon.wr _ _ _ hz.1, ?_⟩).2
  exact (get_put_apart z (F.LP_STAT_state k) (F.LP_CTRL_src_sel g.master) _ hz.1.1
      (by simp [fieldsApart, F.LP_CTRL_src_sel, F.LP_STAT_state]) (by simp [F.LP_STAT_state]) (by simp [F.LP_CTRL_src_sel])
          (by simp [F.LP_STAT_state]) (by simp [F.LP_CTRL_src_sel])).trans hz.2

/-! jobs -/

theorem eng_of {x y : Chip} (h : x.engs = y.engs) (e : Engine) : x.eng e = y.eng e := by unfold Chip.eng; rw [h]

end Sys2Proof.Laws
end

