-- ==== Sys2Proof/Laws/Frames/Mem.lean ====
section
/-!
SUPPORT. Sys2Proof/Laws/Frames/Mem.lean: the operations that leave the contents of memory alone, a lemma for each. `fr_…` carries a property that
depends on nothing else across the operation; `eq_…` says that it reads as before.
-/
namespace Sys2Proof.Laws
open Sys2Proof.Machine

section
variable {P : Chip → Prop} (K : ∀ a b : Chip, P a → b.mem = a.mem → P b)
include K

theorem fr_mem_lit (m : Chip) {regs time encs fire pegs fio sup boot bays engs mem sramValid sramBad stick wit cams pocs pipes rowPipes
    replays screens pp tenon purlin latches fresh heads eth subs trust text hk nvLog out free} (h : P m) (e0 : mem =
        m.mem) : P (Chip.mk regs time encs fire pegs fio sup boot bays engs mem sramValid sramBad stick wit cams pocs pipes rowPipes
            replays screens pp tenon purlin latches fresh heads eth subs trust text hk nvLog out free) := K _ _ h e0

theorem fr_mem_Chip_wr (m : Chip) (a : Nat) (v : Word) (h0 : P m) : P (Chip.wr m a v) := K _ _ h0 rfl

theorem fr_mem_Chip_put (m : Chip) (f : Fld) (v : Nat) (h0 : P m) : P (Chip.put m f v) := K _ _ h0 rfl

theorem fr_mem_Chip_markFresh (a i : Nat) (m : Chip) (h0 : P m) : P (Chip.markFresh a i m) := K _ _ h0 rfl

theorem fr_mem_Chip_setFlag (m : Chip) (f : Fld) (h0 : P m) : P (Chip.setFlag m f) := K _ _ h0 rfl

theorem fr_mem_Chip_setFlagIf (m : Chip) (c : Bool) (f : Fld) (h0 : P m) : P (Chip.setFlagIf m c f) := by
  unfold Chip.setFlagIf
  try dsimp only
  repeat'
    first
      | with_reducible
          first
            | assumption | apply fr_mem_Chip_setFlag K | apply keep_ite (P := P)
      | dsimp only | split | with_reducible refine fr_mem_lit K _ ?_ rfl

theorem fr_mem_Chip_bumpBy (m : Chip) (a n : Nat) (h0 : P m) : P (Chip.bumpBy m a n) := K _ _ h0 rfl

theorem fr_mem_Chip_bump (m : Chip) (a : Nat) (h0 : P m) : P (Chip.bump m a) := K _ _ h0 rfl

theorem fr_mem_Chip_bumpIf (m : Chip) (c : Bool) (a : Nat) (h0 : P m) : P (Chip.bumpIf m c a) := by
  unfold Chip.bumpIf
  try dsimp only
  repeat'
    first
      | with_reducible
          first
            | assumption | apply fr_mem_Chip_bump K | apply keep_ite (P := P)
      | dsimp only | split | with_reducible refine fr_mem_lit K _ ?_ rfl

theorem fr_mem_Chip_emit (m : Chip) (e : Emit) (h0 : P m) : P (Chip.emit m e) := K _ _ h0 rfl

theorem fr_mem_Chip_log (m : Chip) (what : String) (args : List Nat) (h0 : P m) : P (Chip.log m what args) := by
  unfold Chip.log
  try dsimp only
  repeat'
    first
      | with_reducible
          first
            | assumption | apply keep_ite (P := P)
      | dsimp only | split | with_reducible refine fr_mem_lit K _ ?_ rfl

theorem fr_mem_Chip_onWit (f : WitState → WitState) (m : Chip) (h0 : P m) : P (Chip.onWit f m) := K _ _ h0 rfl

theorem fr_mem_Chip_onBays (f : BayState → BayState) (m : Chip) (h0 : P m) : P (Chip.onBays f m) := K _ _ h0 rfl

theorem fr_mem_Chip_signalSem (half s : Nat) (m : Chip) (h0 : P m) : P (Chip.signalSem half s m) := by
  unfold Chip.signalSem
  try dsimp only
  repeat'
    first
      | with_reducible
          first
            | assumption | apply fr_mem_Chip_onBays K | apply keep_ite (P := P)
      | (intro _) | dsimp only | split | with_reducible refine fr_mem_lit K _ ?_ rfl

theorem fr_mem_Chip_signalOpt (half : Nat) (s : Option Nat) (m : Chip) (h0 : P m) : P (Chip.signalOpt half s m) := by
  unfold Chip.signalOpt
  try dsimp only
  repeat'
    first
      | with_reducible
          first
            | assumption | apply fr_mem_Chip_signalSem K
      | split | dsimp only | with_reducible refine fr_mem_lit K _ ?_ rfl

theorem fr_mem_Chip_showBent (n : Nat) (m : Chip) (h0 : P m) : P (Chip.showBent n m) := K _ _ h0 rfl

theorem fr_mem_Chip_showEng (e : Engine) (m : Chip) (h0 : P m) : P (Chip.showEng e m) := by
  unfold Chip.showEng
  try dsimp only
  repeat'
    first
      | with_reducible
          first
            | assumption | apply fr_mem_Chip_put K | apply fr_mem_Chip_showBent K | apply keep_ite (P := P)
      | (intro _) | split | dsimp only | with_reducible refine fr_mem_lit K _ ?_ rfl

theorem fr_mem_Chip_passMark (r : Running) (m : Chip) (h0 : P m) : P (Chip.passMark r m) := by
  unfold Chip.passMark
  try dsimp only
  repeat'
    first
      | with_reducible
          first
            | assumption | apply fr_mem_Chip_onWit K
      | (intro _) | split | dsimp only | with_reducible refine fr_mem_lit K _ ?_ rfl

theorem fr_mem_Chip_countDone (e : Engine) (r : Running) (m : Chip) (h0 : P m) : P (Chip.countDone e r m) := by
  unfold Chip.countDone
  try dsimp only
  repeat' (first | with_reducible assumption | (intro _) | with_reducible apply fr_mem_Chip_wr K
                 | with_reducible apply fr_mem_Chip_put K | with_reducible apply fr_mem_Chip_setFlagIf K
                 | with_reducible apply fr_mem_Chip_bumpBy K | with_reducible apply fr_mem_Chip_bump K
                 | with_reducible apply fr_mem_Chip_bumpIf K | with_reducible apply keep_forAll (P := P)
                 | with_reducible apply keep_ite (P := P) | dsimp only | split | with_reducible apply keep_foldl (P := P)
                 | with_reducible apply keep_foldl2 (P := P) | with_reducible refine fr_mem_lit K _ ?_ rfl)

theorem fr_mem_Chip_onTrust (f : TrustState → TrustState) (m : Chip) (h0 : P m) : P (Chip.onTrust f m) := K _ _ h0 rfl

theorem fr_mem_Chip_reply (id : Nat) (e : Emit) (m : Chip) (h0 : P m) : P (Chip.reply id e m) := by
  unfold Chip.reply
  try dsimp only
  repeat'
    first
      | with_reducible
          first
            | assumption | apply fr_mem_Chip_emit K | apply keep_ite (P := P)
      | (intro _) | dsimp only | split | with_reducible refine fr_mem_lit K _ ?_ rfl

theorem fr_mem_Chip_answer (id : Nat) (what : String) (args : List Nat) (m : Chip) (h0 : P m) : P (Chip.answer id what args m) := by
  unfold Chip.answer
  try dsimp only
  repeat'
    first
      | with_reducible
          first
            | assumption | apply fr_mem_Chip_emit K | apply fr_mem_Chip_reply K | apply keep_ite (P := P)
      | dsimp only | split | with_reducible refine fr_mem_lit K _ ?_ rfl

theorem fr_mem_Chip_keepResult (a : Auth) (code : Nat) (m : Chip) (h0 : P m) : P (Chip.keepResult a code m) := K _ _ h0 rfl

theorem fr_mem_Chip_acceptCmd (a : Auth) (m : Chip) (h0 : P m) : P (Chip.acceptCmd a m) := by
  unfold Chip.acceptCmd
  try dsimp only
  repeat'
    first
      | with_reducible
          first
            | assumption | apply fr_mem_Chip_bump K | apply fr_mem_Chip_log K | apply fr_mem_Chip_answer K
            | apply fr_mem_Chip_keepResult K
      | dsimp only | split | with_reducible refine fr_mem_lit K _ ?_ rfl

theorem fr_mem_Chip_showLid (m : Chip) (h0 : P m) : P (Chip.showLid m) := K _ _ h0 rfl

theorem fr_mem_Chip_noteRestart (was : Bool) (m : Chip) (h0 : P m) : P (Chip.noteRestart was m) := by
  unfold Chip.noteRestart
  try dsimp only
  repeat'
    first
      | with_reducible
          first
            | assumption | apply fr_mem_Chip_setFlag K | apply fr_mem_Chip_bump K | apply keep_ite (P := P)
      | dsimp only | split | with_reducible refine fr_mem_lit K _ ?_ rfl

end

theorem eq_mem_Chip_put (m : Chip) (f : Fld) (v : Nat) : (Chip.put m f v).mem = m.mem :=
  fr_mem_Chip_put (P := fun z => z.mem = m.mem) (fun _ _ h e => e.trans h) m f v rfl

theorem eq_mem_Chip_bump (m : Chip) (a : Nat) : (Chip.bump m a).mem = m.mem :=
  fr_mem_Chip_bump (P := fun z => z.mem = m.mem) (fun _ _ h e => e.trans h) m a rfl

theorem eq_mem_Chip_log (m : Chip) (what : String) (args : List Nat) : (Chip.log m what args).mem = m.mem :=
  fr_mem_Chip_log (P := fun z => z.mem = m.mem) (fun _ _ h e => e.trans h) m what args rfl

theorem eq_mem_Chip_signalOpt (half : Nat) (s : Option Nat) (m : Chip) : (Chip.signalOpt half s m).mem = m.mem :=
  fr_mem_Chip_signalOpt (P := fun z => z.mem = m.mem) (fun _ _ h e => e.trans h) half s m rfl

theorem eq_mem_Chip_showEng (e : Engine) (m : Chip) : (Chip.showEng e m).mem = m.mem :=
  fr_mem_Chip_showEng (P := fun z => z.mem = m.mem) (fun _ _ h e => e.trans h) e m rfl

theorem eq_mem_Chip_passMark (r : Running) (m : Chip) : (Chip.passMark r m).mem = m.mem :=
  fr_mem_Chip_passMark (P := fun z => z.mem = m.mem) (fun _ _ h e => e.trans h) r m rfl

theorem eq_mem_Chip_countDone (e : Engine) (r : Running) (m : Chip) : (Chip.countDone e r m).mem = m.mem :=
  fr_mem_Chip_countDone (P := fun z => z.mem = m.mem) (fun _ _ h e => e.trans h) e r m rfl

theorem eq_mem_Chip_acceptCmd (a : Auth) (m : Chip) : (Chip.acceptCmd a m).mem = m.mem :=
  fr_mem_Chip_acceptCmd (P := fun z => z.mem = m.mem) (fun _ _ h e => e.trans h) a m rfl

theorem eq_mem_Chip_showLid (m : Chip) : (Chip.showLid m).mem = m.mem :=
  fr_mem_Chip_showLid (P := fun z => z.mem = m.mem) (fun _ _ h e => e.trans h) m rfl

theorem eq_mem_Chip_noteRestart (was : Bool) (m : Chip) : (Chip.noteRestart was m).mem = m.mem :=
  fr_mem_Chip_noteRestart (P := fun z => z.mem = m.mem) (fun _ _ h e => e.trans h) was m rfl

end Sys2Proof.Laws
end

