-- ==== Sys2Proof/Laws/Completion/Engines.lean ====
section
/-!
SUPPORT. Sys2Proof/Laws/Completion/Engines.lean: the engines.
What an effect leaves, said once for the statements that say where a command completes.
-/
namespace Sys2Proof.Laws
open Sys2Proof.Machine

theorem eng_set (m : Chip) (e : Engine) (v : EngState) (h : v ≠ {}) : (m.setEng e v).eng e = v :=
    tabGet_set_ne ({} : EngState) m.engs _ v h

theorem complete_spec (m x : Chip) (e : Engine) (r : Running) (v : EngState) (hp : v.pos ≠ 0) (_hr : v.running = none) (hx : x.mem =
    (m.commitWrites r).mem) (b : Bool) (k : Nat) :
    ((((if b then (x.setEng e v).noteMargin k else x.setEng e v).countDone e r).showEng e).eng e) = v ∧
    (((if b then (x.setEng e v).noteMargin k else x.setEng e v).countDone e r).showEng e).mem = (m.commitWrites r).mem := by
  have hv : v ≠ {} := by intro e; have := congrArg (·.pos) e; exact hp this
  have h1 : (if b then (x.setEng e v).noteMargin k else x.setEng e v).engs = (x.setEng e v).engs := by split <;> rfl
  have h2 : (if b then (x.setEng e v).noteMargin k else x.setEng e v).mem = x.mem := by split <;> rfl
  rw [eng_of (eq_engs_Chip_showEng ..), eng_of (eq_engs_Chip_countDone ..), eng_of h1, eng_set _ _ _ hv, eq_mem_Chip_showEng,
      eq_mem_Chip_countDone, h2, hx]
  exact ⟨rfl, rfl⟩

theorem marked_mem (m : Chip) (r : Running) (h : Nat) : (((m.commitWrites r).passMark r).signalOpt h r.entry.signal).mem =
    (m.commitWrites r).mem := by
  rw [eq_mem_Chip_signalOpt, eq_mem_Chip_passMark]

theorem gate_eng (m : Chip) (n : Nat) (v : EngState) (on : Bool) (h : v.acted ≠ []) : (((m.setEng (.bent n) v).showBent n).setDomain n
    on).eng (.bent n) = v := by
  rw [eng_of (eq_engs_Chip_setDomain ..), eng_of (eq_engs_Chip_showBent ..)]
  exact eng_set _ _ _ (by intro e; have := congrArg (·.acted) e; exact h this)

theorem startSeg_eng (m : Chip) (e : Engine) (j limit : Nat) (c : CutEntry) (w : SegWork) (f : Chip →
    Running × Chip) (h : m.segWork e c w = some f)
    (hh : ((f (m.setEng e { m.eng e with hit := false })).2.eng e).hit = false) :
    ∃ r, ((m.startSeg e j limit c w).eng e).bg = some r ∧ r.entry = c ∧ r.closeBay = (m.jobRun j).step ∧ r.startedAt = m.now ∧ r.limit =
        limit := by
  unfold Chip.startSeg
  rw [h]; dsimp only
  generalize f (m.setEng e { m.eng e with hit := false }) = p at hh
  rw [if_neg (by rw [hh]; simp), eng_of (eq_engs_Chip_showEng ..), eng_set _ _ _ (by intro e; have := congrArg (·.bg) e; simp at this)]
  exact ⟨_, rfl, rfl, rfl, rfl, rfl⟩

theorem scrubLap_eng (dt n : Nat) (er : ReadErrs) (m0 m : Chip) (hm : m = elapse dt m0) (h1 : m.flag (F.BENT_SRAM_CFG_scrub_en n) =
    true) (h2 : 0 < m.now) :
    ((scrubLap dt n er m0).eng (.bent n)).lapFrom = m.now := by
  unfold scrubLap
  simp only [← hm]
  rw [if_neg (by simp [h1])]
  have hy : ∀ x : Chip, ((((x.setEng (.bent n) { m.eng (.bent n) with lapFrom := m.now })).eng (.bent n))).lapFrom = m.now := fun x =>
      by
    rw [eng_set _ _ _ (by intro e; have := congrArg (·.lapFrom) e; simp at this; omega)]
  split
  · rw [eng_of (eq_engs_Chip_raise ..)]; exact hy _
  · exact hy _

/-! the Tenon link -/

theorem dir_of {x y : Chip} (h : x.tenon = y.tenon) (d : Nat) : x.tnDir d = y.tnDir d := by unfold Chip.tnDir; rw [h]

end Sys2Proof.Laws
end

