-- ==== Sys2Proof/Laws/Frames/Tenon.lean ====
section
/-!
SUPPORT. Sys2Proof/Laws/Frames/Tenon.lean: the operations that leave the Tenon link alone, a lemma for each. `fr_…` carries a property that
depends on nothing else across the operation; `eq_…` says that it reads as before.
-/
namespace Sys2Proof.Laws
open Sys2Proof.Machine

section
variable {P : Chip → Prop} (K : ∀ a b : Chip, P a → b.tenon = a.tenon → P b)
include K

theorem fr_tenon_lit (m : Chip) {regs time encs fire pegs fio sup boot bays engs mem sramValid sramBad stick wit cams pocs pipes
    rowPipes replays screens pp tenon purlin latches fresh heads eth subs trust text hk nvLog out free} (h : P m) (e0 : tenon =
        m.tenon) : P (Chip.mk regs time encs fire pegs fio sup boot bays engs mem sramValid sramBad stick wit cams pocs pipes rowPipes
            replays screens pp tenon purlin latches fresh heads eth subs trust text hk nvLog out free) := K _ _ h e0

theorem fr_tenon_Chip_wr (m : Chip) (a : Nat) (v : Word) (h0 : P m) : P (Chip.wr m a v) := K _ _ h0 rfl

theorem fr_tenon_Chip_put (m : Chip) (f : Fld) (v : Nat) (h0 : P m) : P (Chip.put m f v) := K _ _ h0 rfl

theorem fr_tenon_Chip_markFresh (a i : Nat) (m : Chip) (h0 : P m) : P (Chip.markFresh a i m) := K _ _ h0 rfl

theorem fr_tenon_Chip_setFlag (m : Chip) (f : Fld) (h0 : P m) : P (Chip.setFlag m f) := K _ _ h0 rfl

theorem fr_tenon_Chip_setFlagIf (m : Chip) (c : Bool) (f : Fld) (h0 : P m) : P (Chip.setFlagIf m c f) := by
  unfold Chip.setFlagIf
  try dsimp only
  repeat'
    first
      | with_reducible
          first
            | assumption | apply fr_tenon_Chip_setFlag K | apply keep_ite (P := P)
      | dsimp only | split | with_reducible refine fr_tenon_lit K _ ?_ rfl

theorem fr_tenon_Chip_bumpBy (m : Chip) (a n : Nat) (h0 : P m) : P (Chip.bumpBy m a n) := K _ _ h0 rfl

theorem fr_tenon_Chip_bump (m : Chip) (a : Nat) (h0 : P m) : P (Chip.bump m a) := K _ _ h0 rfl

theorem fr_tenon_Chip_wr64 (m : Chip) (lo hi : Nat) (v : Nat) (h0 : P m) : P (Chip.wr64 m lo hi v) := K _ _ h0 rfl

theorem fr_tenon_Chip_setBit (m : Chip) (a i : Nat) (h0 : P m) : P (Chip.setBit m a i) := K _ _ h0 rfl

theorem fr_tenon_Chip_emit (m : Chip) (e : Emit) (h0 : P m) : P (Chip.emit m e) := K _ _ h0 rfl

theorem fr_tenon_Chip_log (m : Chip) (what : String) (args : List Nat) (h0 : P m) : P (Chip.log m what args) := by
  unfold Chip.log
  try dsimp only
  repeat'
    first
      | with_reducible
          first
            | assumption | apply keep_ite (P := P)
      | dsimp only | split | with_reducible refine fr_tenon_lit K _ ?_ rfl

theorem fr_tenon_Chip_setEnc (m : Chip) (p : Nat) (e : EncPort) (h0 : P m) : P (Chip.setEnc m p e) := K _ _ h0 rfl

theorem fr_tenon_Chip_setSrc (m : Chip) (h i : Nat) (e : SrcState) (h0 : P m) : P (Chip.setSrc m h i e) := K _ _ h0 rfl

theorem fr_tenon_Chip_setEthPort (m : Chip) (p : Nat) (v : EthPort) (h0 : P m) : P (Chip.setEthPort m p v) := K _ _ h0 rfl

theorem fr_tenon_Chip_toSubs (m : Chip) (r : StreamRec) (h0 : P m) : P (Chip.toSubs m r) := by
  unfold Chip.toSubs
  try dsimp only
  repeat'
    first
      | with_reducible
          first
            | assumption | apply fr_tenon_Chip_bump K | apply keep_forAll (P := P)
      | (intro _) | dsimp only | split | with_reducible refine fr_tenon_lit K _ ?_ rfl

theorem fr_tenon_Chip_release (m : Chip) (r : ResultRec) (h0 : P m) : P (Chip.release m r) := by
  unfold Chip.release
  try dsimp only
  repeat'
    first
      | with_reducible
          first
            | assumption | apply fr_tenon_Chip_emit K | apply fr_tenon_Chip_toSubs K
      | dsimp only | split | with_reducible refine fr_tenon_lit K _ ?_ rfl

theorem fr_tenon_Chip_onPur (f : PurlinState → PurlinState) (m : Chip) (h0 : P m) : P (Chip.onPur f m) := K _ _ h0 rfl

theorem fr_tenon_Chip_setPurPort (p : Nat) (v : PurPort) (m : Chip) (h0 : P m) : P (Chip.setPurPort p v m) := K _ _ h0 rfl

theorem fr_tenon_Chip_modPurPort (p : Nat) (f : PurPort → PurPort) (m : Chip) (h0 : P m) : P (Chip.modPurPort p f m) := K _ _ h0 rfl

theorem fr_tenon_Chip_purTx (p : Nat) (f : PurFrame) (m : Chip) (h0 : P m) : P (Chip.purTx p f m) := K _ _ h0 rfl

theorem fr_tenon_Chip_linkSend (p : Nat) (l : LinkRec) (m : Chip) (h0 : P m) : P (Chip.linkSend p l m) := K _ _ h0 rfl

theorem fr_tenon_Chip_giveBack (p : Nat) (f : PurFrame) (m : Chip) (h0 : P m) : P (Chip.giveBack p f m) := by
  unfold Chip.giveBack
  try dsimp only
  repeat'
    first
      | with_reducible
          first
            | assumption | apply fr_tenon_Chip_linkSend K | apply keep_ite (P := P)
      | dsimp only | split | with_reducible refine fr_tenon_lit K _ ?_ rfl

theorem fr_tenon_Chip_giveBackOpt (via : Option Nat) (f : PurFrame) (m : Chip) (h0 : P m) : P (Chip.giveBackOpt via f m) := by
  unfold Chip.giveBackOpt
  try dsimp only
  repeat'
    first
      | with_reducible
          first
            | assumption | apply fr_tenon_Chip_giveBack K
      | split | dsimp only | with_reducible refine fr_tenon_lit K _ ?_ rfl

theorem fr_tenon_Chip_purPump (p : Nat) (y0 : Nat) (y1 : Chip) (h0 : P y1) : P (Chip.purPump p y0 y1) := by
  induction y0 generalizing y1 with
  | zero => exact h0
  | succ n ih =>
    unfold Chip.purPump
    try dsimp only
    repeat'
      first
        | with_reducible
            first
              | assumption | apply ih | apply fr_tenon_Chip_setPurPort K | apply fr_tenon_Chip_purTx K | apply fr_tenon_Chip_giveBackOpt K
              | apply keep_ite (P := P)
        | (intro _) | split | with_reducible refine fr_tenon_lit K _ ?_ rfl

theorem fr_tenon_Chip_purFlush (p : Nat) (m : Chip) (h0 : P m) : P (Chip.purFlush p m) := by
  unfold Chip.purFlush
  try dsimp only
  repeat'
    first
      | with_reducible
          first
            | assumption | apply fr_tenon_Chip_purPump K
      | dsimp only | split | with_reducible refine fr_tenon_lit K _ ?_ rfl

theorem fr_tenon_Chip_mirrorOut (body : PurBody) (length : Nat) (m : Chip) (h0 : P m) : P (Chip.mirrorOut body length m) := by
  unfold Chip.mirrorOut
  try dsimp only
  repeat'
    first
      | with_reducible
          first
            | assumption | apply fr_tenon_Chip_modPurPort K | apply fr_tenon_Chip_purFlush K | apply keep_ite (P := P)
      | (intro _) | dsimp only | split | with_reducible refine fr_tenon_lit K _ ?_ rfl

theorem fr_tenon_Chip_mirrorFrame (id : Nat) (r : MirrorRec) (m : Chip) (h0 : P m) : P (Chip.mirrorFrame id r m) := by
  unfold Chip.mirrorFrame
  try dsimp only
  repeat'
    first
      | with_reducible
          first
            | assumption | apply fr_tenon_Chip_mirrorOut K
      | dsimp only | split | with_reducible refine fr_tenon_lit K _ ?_ rfl

theorem fr_tenon_Chip_setQueue (m : Chip) (p : Nat) (q : List FEntry) (h0 : P m) : P (Chip.setQueue m p q) := K _ _ h0 rfl

theorem fr_tenon_Chip_mirrorSend (m : Chip) (r : MirrorRec) (h0 : P m) : P (Chip.mirrorSend m r) := by
  unfold Chip.mirrorSend
  try dsimp only
  repeat'
    first
      | with_reducible
          first
            | assumption | apply fr_tenon_Chip_mirrorFrame K
      | dsimp only | split | with_reducible refine fr_tenon_lit K _ ?_ rfl

theorem fr_tenon_Chip_entryCancelled (m : Chip) (e : FEntry) (h0 : P m) : P (Chip.entryCancelled m e) := by
  unfold Chip.entryCancelled
  try dsimp only
  repeat'
    first
      | with_reducible
          first
            | assumption | apply fr_tenon_Chip_bump K | apply fr_tenon_Chip_release K | apply fr_tenon_Chip_mirrorSend K
            | apply keep_ite (P := P)
      | dsimp only | split | with_reducible refine fr_tenon_lit K _ ?_ rfl

theorem fr_tenon_Chip_cancelIn (p : Nat) (c : FEntry → Bool) (m : Chip) (h0 : P m) : P (Chip.cancelIn p c m) := by
  unfold Chip.cancelIn
  try dsimp only
  repeat'
    first
      | with_reducible
          first
            | assumption | apply fr_tenon_Chip_setQueue K | apply fr_tenon_Chip_entryCancelled K | apply keep_forAll (P := P)
      | (intro _) | dsimp only | split | with_reducible refine fr_tenon_lit K _ ?_ rfl

theorem fr_tenon_Chip_cancelAll (c : FEntry → Bool) (m : Chip) (h0 : P m) : P (Chip.cancelAll c m) := by
  unfold Chip.cancelAll
  try dsimp only
  repeat'
    first
      | with_reducible
          first
            | assumption | apply fr_tenon_Chip_cancelIn K | apply keep_forAll (P := P)
      | (intro _) | dsimp only | split | with_reducible refine fr_tenon_lit K _ ?_ rfl

theorem fr_tenon_Chip_dropResvs (c : Resv → Bool) (m : Chip) (h0 : P m) : P (Chip.dropResvs c m) := K _ _ h0 rfl

theorem fr_tenon_Chip_refreshOutputs (m : Chip) (h0 : P m) : P (Chip.refreshOutputs m) := by
  unfold Chip.refreshOutputs
  try dsimp only
  repeat'
    first
      | with_reducible
          first
            | assumption | apply fr_tenon_Chip_put K | apply fr_tenon_Chip_emit K | apply keep_foldl (P := P)
            | apply keep_foldl2 (P := P) | apply keep_ite (P := P)
      | (intro _) | dsimp only | split | with_reducible refine fr_tenon_lit K _ ?_ rfl

theorem fr_tenon_Chip_setMode (new : Nat) (cause : Option Src) (m : Chip) (h0 : P m) : P (Chip.setMode new cause m) := by
  unfold Chip.setMode
  try dsimp only
  repeat'
    first
      | with_reducible
          first
            | assumption | apply fr_tenon_Chip_put K
      | split | dsimp only | with_reducible refine fr_tenon_lit K _ ?_ rfl

theorem fr_tenon_Chip_dropResume (m : Chip) (h0 : P m) : P (Chip.dropResume m) := K _ _ h0 rfl

theorem fr_tenon_Chip_enterSafe (cause : Option Src) (m : Chip) (h0 : P m) : P (Chip.enterSafe cause m) := by
  unfold Chip.enterSafe
  try dsimp only
  repeat'
    first
      | with_reducible
          first
            | assumption | apply fr_tenon_Chip_bump K | apply fr_tenon_Chip_cancelAll K | apply fr_tenon_Chip_dropResvs K
            | apply fr_tenon_Chip_refreshOutputs K | apply fr_tenon_Chip_setMode K | apply fr_tenon_Chip_dropResume K
            | apply keep_ite (P := P)
      | (intro _) | dsimp only | split | with_reducible refine fr_tenon_lit K _ ?_ rfl

theorem fr_tenon_Chip_bucketEdge (c : Src) (m : Chip) (h0 : P m) : P (Chip.bucketEdge c m) := by
  unfold Chip.bucketEdge
  try dsimp only
  repeat'
    first
      | with_reducible
          first
            | assumption | apply fr_tenon_Chip_put K | apply fr_tenon_Chip_setFlag K | apply fr_tenon_Chip_bump K
            | apply fr_tenon_Chip_setSrc K | apply keep_ite (P := P)
      | split | dsimp only | with_reducible refine fr_tenon_lit K _ ?_ rfl

theorem fr_tenon_Chip_severityAct (c : Src) (m : Chip) (h0 : P m) : P (Chip.severityAct c m) := by
  unfold Chip.severityAct
  try dsimp only
  repeat'
    first
      | with_reducible
          first
            | assumption | apply fr_tenon_Chip_setBit K | apply fr_tenon_Chip_emit K | apply fr_tenon_Chip_log K
            | apply fr_tenon_Chip_setSrc K | apply fr_tenon_Chip_refreshOutputs K | apply fr_tenon_Chip_enterSafe K
            | apply keep_ite (P := P)
      | dsimp only | split | with_reducible refine fr_tenon_lit K _ ?_ rfl

theorem fr_tenon_Chip_raise (c : Src) (m : Chip) (h0 : P m) : P (Chip.raise c m) := by
  unfold Chip.raise
  try dsimp only
  repeat'
    first
      | with_reducible
          first
            | assumption | apply fr_tenon_Chip_setBit K | apply fr_tenon_Chip_bucketEdge K | apply fr_tenon_Chip_severityAct K
      | dsimp only | split | with_reducible refine fr_tenon_lit K _ ?_ rfl

theorem fr_tenon_Chip_assert (c : Src) (m : Chip) (h0 : P m) : P (Chip.assert c m) := by
  unfold Chip.assert
  try dsimp only
  repeat'
    first
      | with_reducible
          first
            | assumption | apply fr_tenon_Chip_setSrc K | apply fr_tenon_Chip_raise K | apply keep_ite (P := P)
      | dsimp only | split | with_reducible refine fr_tenon_lit K _ ?_ rfl

theorem fr_tenon_Chip_deassert (c : Src) (m : Chip) (h0 : P m) : P (Chip.deassert c m) := K _ _ h0 rfl

theorem fr_tenon_Chip_putByte (m : Chip) (g : Nat) (b : Byte) (h0 : P m) : P (Chip.putByte m g b) := by
  unfold Chip.putByte
  try dsimp only
  repeat'
    first
      | with_reducible
          first
            | assumption | apply keep_ite (P := P)
      | (intro _) | dsimp only | split | with_reducible refine fr_tenon_lit K _ ?_ rfl

theorem fr_tenon_Chip_putBytes (m : Chip) (g : Nat) (y0 : List Byte) (h0 : P m) : P (Chip.putBytes m g y0) := by
  induction y0 generalizing m g with
  | nil => exact h0
  | cons b t ih => exact ih _ _ (fr_tenon_Chip_putByte K _ _ _ h0)

theorem fr_tenon_Chip_purRoute (via : Option Nat) (f : PurFrame) (m : Chip) (h0 : P m) : P (Chip.purRoute via f m) := by
  unfold Chip.purRoute
  try dsimp only
  repeat'
    first
      | with_reducible
          first
            | assumption | apply fr_tenon_Chip_bump K | apply fr_tenon_Chip_modPurPort K | apply fr_tenon_Chip_giveBackOpt K
            | apply fr_tenon_Chip_purFlush K | apply keep_ite (P := P)
      | (intro _) | dsimp only | split | with_reducible refine fr_tenon_lit K _ ?_ rfl

theorem fr_tenon_Chip_setFlow (v : PurFlow) (m : Chip) (h0 : P m) : P (Chip.setFlow v m) := K _ _ h0 rfl

theorem fr_tenon_Chip_flowDrain (dev cls : Nat) (y0 : Nat) (y1 : Chip) (h0 : P y1) : P (Chip.flowDrain dev cls y0 y1) := by
  induction y0 generalizing y1 with
  | zero => exact h0
  | succ n ih =>
    unfold Chip.flowDrain
    try dsimp only
    repeat'
      first
        | with_reducible
            first
              | assumption | apply ih | apply fr_tenon_Chip_purRoute K | apply fr_tenon_Chip_setFlow K | apply keep_ite (P := P)
        | (intro _) | split | with_reducible refine fr_tenon_lit K _ ?_ rfl

theorem fr_tenon_Chip_flowRun (dev cls : Nat) (m : Chip) (h0 : P m) : P (Chip.flowRun dev cls m) := by
  unfold Chip.flowRun
  try dsimp only
  repeat'
    first
      | with_reducible
          first
            | assumption | apply fr_tenon_Chip_flowDrain K
      | dsimp only | split | with_reducible refine fr_tenon_lit K _ ?_ rfl

theorem fr_tenon_Chip_flowSend (dev cls : Nat) (body : PurBody) (length : Nat) (m : Chip) (h0 : P m) : P (Chip.flowSend dev cls body
    length m) := by
  unfold Chip.flowSend
  try dsimp only
  repeat'
    first
      | with_reducible
          first
            | assumption | apply fr_tenon_Chip_setFlow K | apply fr_tenon_Chip_flowRun K
      | dsimp only | split | with_reducible refine fr_tenon_lit K _ ?_ rfl

theorem fr_tenon_Chip_marksSend (f : MarksFrame) (m : Chip) (h0 : P m) : P (Chip.marksSend f m) := by
  unfold Chip.marksSend
  try dsimp only
  repeat'
    first
      | with_reducible
          first
            | assumption | apply fr_tenon_Chip_flowSend K
      | split | dsimp only | with_reducible refine fr_tenon_lit K _ ?_ rfl

theorem fr_tenon_Chip_onWit (f : WitState → WitState) (m : Chip) (h0 : P m) : P (Chip.onWit f m) := K _ _ h0 rfl

theorem fr_tenon_Chip_witPush (r : WitRec) (m : Chip) (h0 : P m) : P (Chip.witPush r m) := by
  unfold Chip.witPush
  try dsimp only
  repeat'
    first
      | with_reducible
          first
            | assumption | apply fr_tenon_Chip_setFlag K | apply fr_tenon_Chip_bump K | apply keep_ite (P := P)
      | dsimp only | split | with_reducible refine fr_tenon_lit K _ ?_ rfl

theorem fr_tenon_Chip_ringAdd (s : MarkSet) (m : Chip) (h0 : P m) : P (Chip.ringAdd s m) := K _ _ h0 rfl

theorem fr_tenon_Chip_lockCompare (f : MarksFrame) (s : MarkSet) (m : Chip) (h0 : P m) : P (Chip.lockCompare f s m) := by
  unfold Chip.lockCompare
  try dsimp only
  repeat'
    first
      | with_reducible
          first
            | assumption | apply fr_tenon_Chip_put K | apply fr_tenon_Chip_setFlag K | apply fr_tenon_Chip_bump K
            | apply fr_tenon_Chip_wr64 K | apply fr_tenon_Chip_raise K | apply keep_ite (P := P)
      | split | dsimp only | with_reducible refine fr_tenon_lit K _ ?_ rfl

theorem fr_tenon_Chip_followSet (s : MarkSet) (m : Chip) (h0 : P m) : P (Chip.followSet s m) := by
  unfold Chip.followSet
  try dsimp only
  repeat'
    first
      | with_reducible
          first
            | assumption | apply fr_tenon_Chip_onWit K | apply fr_tenon_Chip_lockCompare K | apply keep_ite (P := P)
      | (intro _) | split | dsimp only | with_reducible refine fr_tenon_lit K _ ?_ rfl

theorem fr_tenon_Chip_releaseSet (s0 : MarkSet) (m : Chip) (h0 : P m) : P (Chip.releaseSet s0 m) := by
  unfold Chip.releaseSet
  try dsimp only
  repeat'
    first
      | with_reducible
          first
            | assumption | apply fr_tenon_Chip_setFlag K | apply fr_tenon_Chip_setFlagIf K | apply fr_tenon_Chip_bump K
            | apply fr_tenon_Chip_marksSend K | apply fr_tenon_Chip_witPush K | apply fr_tenon_Chip_ringAdd K
            | apply fr_tenon_Chip_followSet K | apply keep_forAll (P := P) | apply keep_ite (P := P)
      | (intro _) | dsimp only | split | with_reducible refine fr_tenon_lit K _ ?_ rfl

theorem fr_tenon_Chip_setArrives (s : MarkSet) (m : Chip) (h0 : P m) : P (Chip.setArrives s m) := by
  unfold Chip.setArrives
  try dsimp only
  repeat'
    first
      | with_reducible
          first
            | assumption | apply fr_tenon_Chip_onWit K | apply fr_tenon_Chip_releaseSet K | apply keep_ite (P := P)
      | (intro _) | dsimp only | split | with_reducible refine fr_tenon_lit K _ ?_ rfl

theorem fr_tenon_Chip_onBays (f : BayState → BayState) (m : Chip) (h0 : P m) : P (Chip.onBays f m) := K _ _ h0 rfl

theorem fr_tenon_Chip_signalSem (half s : Nat) (m : Chip) (h0 : P m) : P (Chip.signalSem half s m) := by
  unfold Chip.signalSem
  try dsimp only
  repeat'
    first
      | with_reducible
          first
            | assumption | apply fr_tenon_Chip_onBays K | apply keep_ite (P := P)
      | (intro _) | dsimp only | split | with_reducible refine fr_tenon_lit K _ ?_ rfl

theorem fr_tenon_Chip_signalOpt (half : Nat) (s : Option Nat) (m : Chip) (h0 : P m) : P (Chip.signalOpt half s m) := by
  unfold Chip.signalOpt
  try dsimp only
  repeat'
    first
      | with_reducible
          first
            | assumption | apply fr_tenon_Chip_signalSem K
      | split | dsimp only | with_reducible refine fr_tenon_lit K _ ?_ rfl

theorem fr_tenon_probeSeqRead (p : Nat) (m : Chip) (h0 : P m) : P (probeSeqRead p m) := K _ _ h0 rfl

theorem fr_tenon_Chip_onTrust (f : TrustState → TrustState) (m : Chip) (h0 : P m) : P (Chip.onTrust f m) := K _ _ h0 rfl

theorem fr_tenon_Chip_setSession (v : Session) (m : Chip) (h0 : P m) : P (Chip.setSession v m) := K _ _ h0 rfl

theorem fr_tenon_Chip_touch (id : Nat) (m : Chip) (h0 : P m) : P (Chip.touch id m) := by
  unfold Chip.touch
  try dsimp only
  repeat'
    first
      | with_reducible
          first
            | assumption | apply fr_tenon_Chip_setSession K
      | split | dsimp only | with_reducible refine fr_tenon_lit K _ ?_ rfl

theorem fr_tenon_Chip_onFio (f : FioState → FioState) (m : Chip) (h0 : P m) : P (Chip.onFio f m) := K _ _ h0 rfl

theorem fr_tenon_fioEvtPop (m : Chip) (h0 : P m) : P (fioEvtPop m) := by
  unfold fioEvtPop
  try dsimp only
  repeat'
    first
      | with_reducible
          first
            | assumption | apply fr_tenon_Chip_wr K | apply fr_tenon_Chip_wr64 K | apply fr_tenon_Chip_onFio K
      | (intro _) | split | dsimp only | with_reducible refine fr_tenon_lit K _ ?_ rfl

theorem fr_tenon_fioPairPop (m : Chip) (h0 : P m) : P (fioPairPop m) := by
  unfold fioPairPop
  try dsimp only
  repeat'
    first
      | with_reducible
          first
            | assumption | apply fr_tenon_Chip_wr K | apply fr_tenon_Chip_wr64 K | apply fr_tenon_Chip_onFio K
      | (intro _) | split | dsimp only | with_reducible refine fr_tenon_lit K _ ?_ rfl

theorem fr_tenon_Chip_latch (a : Nat) (v : Option Nat) (m : Chip) (h0 : P m) : P (Chip.latch a v m) := K _ _ h0 rfl

theorem fr_tenon_Chip_latchRead (a : Nat) (m : Chip) (h0 : P m) : P (Chip.latchRead a m) := by
  unfold Chip.latchRead
  try dsimp only
  repeat'
    first
      | with_reducible
          first
            | assumption | apply fr_tenon_Chip_latch K | apply keep_forAll (P := P) | apply keep_ite (P := P)
      | (intro _) | dsimp only | split | with_reducible refine fr_tenon_lit K _ ?_ rfl

theorem fr_tenon_Chip_tsPop (p : Nat) (m : Chip) (h0 : P m) : P (Chip.tsPop p m) := by
  unfold Chip.tsPop
  try dsimp only
  repeat'
    first
      | with_reducible
          first
            | assumption | apply fr_tenon_Chip_wr K | apply fr_tenon_Chip_wr64 K | apply fr_tenon_Chip_setEthPort K
      | split | dsimp only | with_reducible refine fr_tenon_lit K _ ?_ rfl

theorem fr_tenon_Chip_readPops (a : Nat) (m : Chip) (h0 : P m) : P (Chip.readPops a m) := by
  unfold Chip.readPops
  try dsimp only
  repeat'
    first
      | with_reducible
          first
            | assumption | apply fr_tenon_fioEvtPop K | apply fr_tenon_fioPairPop K | apply fr_tenon_Chip_tsPop K
            | apply keep_ite (P := P)
      | split | dsimp only | with_reducible refine fr_tenon_lit K _ ?_ rfl

theorem fr_tenon_Chip_readReg (a : Nat) (m0 : Chip) (h0 : P m0) : P (Chip.readReg a m0).2 := by
  unfold Chip.readReg
  try dsimp only
  repeat'
    first
      | with_reducible
          first
            | assumption | apply fr_tenon_probeSeqRead K | apply fr_tenon_Chip_latchRead K | apply fr_tenon_Chip_readPops K
            | apply keep_ite (P := P)
      | split | dsimp only | with_reducible refine fr_tenon_lit K _ ?_ rfl

theorem fr_tenon_Chip_tnStale (d : Nat) (m : Chip) (h0 : P m) : P (Chip.tnStale d m) := by
  unfold Chip.tnStale
  try dsimp only
  repeat'
    first
      | with_reducible
          first
            | assumption | apply fr_tenon_Chip_setFlag K | apply fr_tenon_Chip_bump K | apply keep_ite (P := P)
      | dsimp only | split | with_reducible refine fr_tenon_lit K _ ?_ rfl

theorem fr_tenon_Chip_tnRecords (f : TnFlit) (m : Chip) (h0 : P m) : P (Chip.tnRecords f m) := by
  unfold Chip.tnRecords
  try dsimp only
  repeat'
    first
      | with_reducible
          first
            | assumption | apply fr_tenon_Chip_onWit K | apply fr_tenon_Chip_setArrives K | apply keep_forAll (P := P)
      | (intro _) | dsimp only | split | with_reducible refine fr_tenon_lit K _ ?_ rfl

end

theorem eq_tenon_Chip_raise (c : Src) (m : Chip) : (Chip.raise c m).tenon = m.tenon :=
  fr_tenon_Chip_raise (P := fun z => z.tenon = m.tenon) (fun _ _ h e => e.trans h) c m rfl

theorem eq_tenon_Chip_assert (c : Src) (m : Chip) : (Chip.assert c m).tenon = m.tenon :=
  fr_tenon_Chip_assert (P := fun z => z.tenon = m.tenon) (fun _ _ h e => e.trans h) c m rfl

theorem eq_tenon_Chip_deassert (c : Src) (m : Chip) : (Chip.deassert c m).tenon = m.tenon :=
  fr_tenon_Chip_deassert (P := fun z => z.tenon = m.tenon) (fun _ _ h e => e.trans h) c m rfl

theorem eq_tenon_Chip_signalOpt (half : Nat) (s : Option Nat) (m : Chip) : (Chip.signalOpt half s m).tenon = m.tenon :=
  fr_tenon_Chip_signalOpt (P := fun z => z.tenon = m.tenon) (fun _ _ h e => e.trans h) half s m rfl

theorem eq_tenon_Chip_touch (id : Nat) (m : Chip) : (Chip.touch id m).tenon = m.tenon :=
  fr_tenon_Chip_touch (P := fun z => z.tenon = m.tenon) (fun _ _ h e => e.trans h) id m rfl

theorem eq_tenon_Chip_tnStale (d : Nat) (m : Chip) : (Chip.tnStale d m).tenon = m.tenon :=
  fr_tenon_Chip_tnStale (P := fun z => z.tenon = m.tenon) (fun _ _ h e => e.trans h) d m rfl

theorem eq_tenon_Chip_tnRecords (f : TnFlit) (m : Chip) : (Chip.tnRecords f m).tenon = m.tenon :=
  fr_tenon_Chip_tnRecords (P := fun z => z.tenon = m.tenon) (fun _ _ h e => e.trans h) f m rfl

end Sys2Proof.Laws
end

