-- ==== Sys2Proof/Laws/Completion/Tenon.lean ====
section
/-!
SUPPORT. Sys2Proof/Laws/Completion/Tenon.lean: the Tenon link.
What an effect leaves, said once for the statements that say where a command completes.
-/
namespace Sys2Proof.Laws
open Sys2Proof.Machine

theorem dir_set (m : Chip) (d : Nat) (v : TnDir) : (m.setTnDir d v).tnDir d = v := by
  unfold Chip.setTnDir Chip.tnDir Chip.onTn; dsimp only; split <;> simp_all

theorem dir_set_other (m : Chip) (d e : Nat) (v : TnDir) (h : (d = 0) ≠ (e = 0)) : (m.setTnDir e v).tnDir d = m.tnDir d := by
  unfold Chip.setTnDir Chip.tnDir Chip.onTn; dsimp only
  by_cases h1 : d = 0 <;> by_cases h2 : e = 0 <;> simp_all

theorem other_dir (d : Nat) (h : d < 2) : (d = 0) ≠ (1 - d = 0) := by
  have : d = 0 ∨ d = 1 := by omega
  rcases this with h | h <;> subst h <;> simp

theorem header_dir (d : Nat) (f : TnFlit) (m : Chip) (h : d < 2) : (m.tnHeader d f).tnDir d = m.tnDir d := by
  unfold Chip.tnHeader Chip.modTnDir; exact dir_set_other _ _ _ _ (other_dir d h)

theorem commit_tenon (d : Nat) (f : TnFlit) (m : Chip) (hv : f.vc = 2) : (m.tnCommit d f).tenon = m.tenon := by
  have hp : ∀ (a : Nat) (l : List Byte), (m.putBytes a l).tenon = m.tenon := fun a l => fr_tenon_Chip_putBytes (P := fun z => z.tenon =
      m.tenon) (fun _ _ h e => e.trans h) _ _ _ rfl
  unfold Chip.tnCommit
  dsimp only
  have h1 : (match f.xfer.space with
    | 0 => m.putBytes (bentAddr f.xfer.unit (f.xfer.dst + f.off)) f.payload
    | 3 => m.putBytes (cmAddr (f.xfer.dst + f.off)) f.payload
    | 4 => m.putBytes (recAddr (f.xfer.dst + f.off)) f.payload
    | _ => m).tenon = m.tenon := by split <;> first | exact hp _ _ | rfl
  split
  · exact h1
  · rw [if_neg (by omega), if_neg (by omega), eq_tenon_Chip_signalOpt, eq_tenon_Chip_tnRecords]; exact h1

theorem accept_dir (d : Nat) (f : TnFlit) (m : Chip) (_h : d < 2) (hv : f.vc = 2) :
    ((m.tnAccept d f).tnDir d).wire = (m.tnDir d).wire ∧ ((m.tnAccept d f).tnDir d).expect = ((m.tnDir d).expect + 1) % 4096 ∧
        ((m.tnAccept d f).tnDir d).ackDue = true := by
  have hm : ∀ (b : Bool) (x : Chip), ((x.modTnDir d fun t => { t with cur := (f.vc, b) :: t.cur.filter fun c => c.1 != f.vc }).tnDir
      d).wire = (x.tnDir d).wire ∧
      ((x.modTnDir d fun t => { t with cur := (f.vc, b) :: t.cur.filter fun c => c.1 != f.vc }).tnDir d).expect = (x.tnDir d).expect ∧
          ((x.modTnDir d fun t => { t with cur := (f.vc, b) :: t.cur.filter fun c => c.1 != f.vc }).tnDir d).ackDue =
              (x.tnDir d).ackDue := fun b x => by
    unfold Chip.modTnDir; rw [dir_set]; exact ⟨rfl, rfl, rfl⟩
  unfold Chip.tnAccept
  dsimp only
  generalize hx : Chip.bump (Chip.setTnDir d _ m) _ = x
  have h1 : (x.tnDir d).wire = (m.tnDir d).wire ∧ (x.tnDir d).expect = ((m.tnDir d).expect + 1) % 4096 ∧ (x.tnDir d).ackDue = true := by
    rw [← hx, dir_of (x := Chip.bump _ _) (y := Chip.setTnDir _ _ _) rfl, dir_set]; exact ⟨rfl, rfl, rfl⟩
  have fin : ∀ (y : Chip) (b : Bool), y.tenon = (x.modTnDir d fun t =>
      { t with cur := (f.vc, b) :: t.cur.filter fun c => c.1 != f.vc }).tenon →
      (y.tnDir d).wire = (m.tnDir d).wire ∧ (y.tnDir d).expect = ((m.tnDir d).expect + 1) % 4096 ∧ (y.tnDir d).ackDue = true :=
          fun y b hy => by
    rw [dir_of hy, (hm b x).1, (hm b x).2.1, (hm b x).2.2]; exact h1
  split
  · exact fin _ true (by rfl)
  split
  · exact h1
  split
  · exact fin _ true (by rw [eq_tenon_Chip_raise]; rfl)
  split
  · exact fin _ true (eq_tenon_Chip_tnStale ..)
  · exact fin _ false (commit_tenon _ _ _ hv)

theorem tn_sfb (x : Chip) (a : Nat) (f : Fld) : ((x.bump a).setFlag f).tenon = x.tenon := rfl

theorem crcFail_dir (d : Nat) (f : TnFlit) (m : Chip) (h : d < 2) : ((m.tnCrcFail d f).tnDir d).nakDue = true := by
  unfold Chip.tnCrcFail
  dsimp only
  generalize hx : Chip.setFlag (Chip.bump (Chip.modTnDir (1 - d) _ (Chip.setTnDir d _ m)) _) F.TN_STAT_crc_err = x
  have h1 : (x.tnDir d).nakDue = true := by
    rw [← hx, dir_of (tn_sfb ..)]
    unfold Chip.modTnDir
    rw [dir_set_other _ _ _ _ (other_dir d h), dir_set]
  split
  · unfold Chip.tnRetrain Chip.countRetrain
    split
    · exact h1
    · dsimp only
      rw [show Chip.tnDir (Chip.onTn _ _) d = _ from rfl]
      unfold Chip.tnDir Chip.onTn at *
      dsimp only at *
      rw [eq_tenon_Chip_raise]
      split <;> simp_all
  · exact h1

theorem replay_dir (d : Nat) (m : Chip) (g : TnFlit) (l : List TnFlit) (h : (m.tnDir d).replay =
    g :: l) (hn : (m.tnDir d).replays < max 1 (m.get F.TN_CFG_retry_limit)) :
    ((m.tnReplay d).tnDir d).again = l.length + 1 ∧ ((m.tnReplay d).tnDir d).replay = g :: l := by
  unfold Chip.tnReplay
  dsimp only
  rw [h]; dsimp only
  rw [if_neg (by split <;> omega)]
  rw [dir_of (x := Chip.bump _ _) (y := Chip.setTnDir _ _ _) rfl, dir_set]
  exact ⟨rfl, rfl⟩

theorem nak_dir (d : Nat) (f : TnFlit) (w : List TnFlit) (m : Chip) (g : TnFlit) (l : List TnFlit) (hd : d < 2) (h : ackReplay f.ack
    (m.tnDir (1 - d)).replay = g :: l)
    (hn : (m.tnDir (1 - d)).replays < max 1 (m.get F.TN_CFG_retry_limit)) :
    ((((m.modTnDir d fun t => { t with wire := w }).tnHeader d f).tnReplay (1 - d)).tnDir (1 - d)).again = l.length + 1 ∧
        ((((m.modTnDir d fun t => { t with wire := w }).tnHeader d f).tnReplay (1 - d)).tnDir (1 - d)).replay = g :: l := by
  have e : (m.modTnDir d fun t => { t with wire := w }).tnDir (1 - d) = m.tnDir (1 - d) := by
    unfold Chip.modTnDir
    exact dir_set_other _ _ _ _ (fun e => other_dir d hd e.symm)
  have eg : ((m.modTnDir d fun t => { t with wire := w }).tnHeader d f).get F.TN_CFG_retry_limit = m.get F.TN_CFG_retry_limit := rfl
  refine replay_dir _ _ g l ?_ ?_
  · unfold Chip.tnHeader Chip.modTnDir; rw [dir_set]; unfold Chip.modTnDir at e; rw [e]; exact h
  · rw [eg]
    unfold Chip.tnHeader Chip.modTnDir; rw [dir_set]; unfold Chip.modTnDir at e; rw [e]
    dsimp only; split
    · omega
    · exact hn

theorem finishWait_reqs (w : SvcWait) (m : Chip) : (m.finishWait w).tenon.reqs = m.tenon.reqs ∧ (m.finishWait w).tenon.todo =
    m.tenon.todo := by
  unfold Chip.finishWait
  dsimp only
  split
  · exact ⟨rfl, rfl⟩
  · exact ⟨forAll_frame (fun z : Chip => z.tenon.reqs) _ _ _ (fun _ _ => rfl), forAll_frame (fun z : Chip => z.tenon.todo) _ _ _ (fun _ _ => rfl)⟩

theorem endReq_reqs (q : TnReq) (v : Option Nat) (m : Chip) (h : m.tenon.todo = []) : (m.endReq q v).tenon.reqs =
    m.tenon.reqs.filter fun r => r.tag != q.tag := by
  unfold Chip.endReq
  dsimp only
  generalize hm1 : Chip.onTn _ m = m1
  have a : m1.tenon.todo = [] := by rw [← hm1]; exact h
  have b : m1.tenon.reqs = m.tenon.reqs.filter fun r => r.tag != q.tag := by rw [← hm1]; rfl
  split
  · rename_i w hw
    rw [(finishWait_reqs w _).2, a, ← b, ← (finishWait_reqs w m1).1]; rfl
  · rw [a, ← b]; rfl

theorem resp_reqs (f : TnFlit) (d : Nat) (m : Chip) (q : TnReq) (hv : f.vc = 1) (hp : f.pos = 3) (hc : f.cancelled =
    false) (hb : tnBad d 1 f.xfer = false) (hy : f.xfer.bay = m.bay)
    (hs : f.xfer.space ≠ 0 ∧ f.xfer.space ≠ 3 ∧ f.xfer.space ≠ 4) (hq : (m.tenon.reqs.find? fun q => q.tag == f.xfer.tag) =
        some q) (ht : m.tenon.todo = []) :
    (m.tnAccept d f).tenon.reqs = m.tenon.reqs.filter fun r => r.tag != q.tag := by
  have hset : ∀ (x : Chip) (v : TnDir), (x.setTnDir d v).tenon.reqs = x.tenon.reqs ∧ (x.setTnDir d v).tenon.todo = x.tenon.todo :=
      fun x v => by
    unfold Chip.setTnDir Chip.onTn; dsimp only; split <;> exact ⟨rfl, rfl⟩
  unfold Chip.tnAccept
  dsimp only
  generalize hx : Chip.bump (Chip.setTnDir d _ m) _ = x
  have h1 : x.tenon.reqs = m.tenon.reqs ∧ x.tenon.todo = m.tenon.todo := by rw [← hx]; exact hset _ _
  rw [if_neg (by simp [hc]), if_neg (by simp [hp]), if_neg (by simp [hv, hb]), if_neg (by simp [hy])]
  unfold Chip.modTnDir
  generalize hz : Chip.setTnDir d _ x = z
  have h2 : z.tenon.reqs = m.tenon.reqs ∧ z.tenon.todo = m.tenon.todo :=
      by rw [← hz]; exact ⟨(hset _ _).1.trans h1.1, (hset _ _).2.trans h1.2⟩
  unfold Chip.tnCommit
  dsimp only
  have h3 : (match f.xfer.space with
    | 0 => z.putBytes (bentAddr f.xfer.unit (f.xfer.dst + f.off)) f.payload
    | 3 => z.putBytes (cmAddr (f.xfer.dst + f.off)) f.payload
    | 4 => z.putBytes (recAddr (f.xfer.dst + f.off)) f.payload
    | _ => z) = z := by split <;> simp_all
  rw [if_neg (by omega), if_neg (by omega), if_pos hv]
  refine Eq.trans (congrArg (fun z => (Chip.tnResponse f z).tenon.reqs) h3) ?_
  unfold Chip.tnResponse
  rw [h2.1, hq]; dsimp only
  rw [endReq_reqs _ _ _ (h2.2.trans ht), h2.1]

theorem tnFailed_try (m : Chip) : m.tnFailed.tenon.tryAt = m.now + 10000000 := rfl

theorem retrain_wires (m : Chip) (h : m.tnUp = true) : (m.tnRetrain.tenon.s2r.wire = [] ∧ m.tnRetrain.tenon.r2s.wire = []) ∧
    m.tnRetrain.tenon.s2r.replay = m.tenon.s2r.replay ∧ m.tnRetrain.tenon.r2s.replay = m.tenon.r2s.replay ∧
        m.tnRetrain.tenon.s2r.nextSeq = m.tenon.s2r.nextSeq ∧ m.tnRetrain.tenon.r2s.nextSeq = m.tenon.r2s.nextSeq := by
  unfold Chip.tnRetrain Chip.countRetrain
  rw [if_neg (by simp [h])]
  dsimp only
  generalize hx : Chip.raise SrcName.tenonRetrain _ = x
  have e : x.tenon = m.tenon := by rw [← hx, eq_tenon_Chip_raise]; rfl
  unfold Chip.onTn
  dsimp only; rw [e]; exact ⟨⟨rfl, rfl⟩, rfl, rfl, rfl, rfl⟩

theorem train_done (y : Chip) (b : Bool) : (((y.onTn fun t =>
    { t with fails := 0, blocked := t.blocked.map fun z => (z.1, z.2.1, z.2.2 || b) }).deassert SrcName.tenonDownSill).deassert
        SrcName.tenonDownRidge).tenon = { y.tenon with fails := 0, blocked := y.tenon.blocked.map fun z => (z.1, z.2.1, z.2.2 || b) } :=
            by
  rw [eq_tenon_Chip_deassert, eq_tenon_Chip_deassert]; rfl

theorem headed_tenon (d : Nat) (f : TnFlit) (w : List TnFlit) (m : Chip) : ((m.modTnDir d fun t =>
    { t with wire := w }).tnHeader d f).tenon.reqs = m.tenon.reqs ∧ ((m.modTnDir d fun t =>
        { t with wire := w }).tnHeader d f).tenon.todo = m.tenon.todo := by
  have hset : ∀ (e : Nat) (x : Chip) (v : TnDir), (x.setTnDir e v).tenon.reqs = x.tenon.reqs ∧ (x.setTnDir e v).tenon.todo =
      x.tenon.todo := fun e x v => by
    unfold Chip.setTnDir Chip.onTn; dsimp only; split <;> exact ⟨rfl, rfl⟩
  unfold Chip.tnHeader Chip.modTnDir
  exact ⟨(hset _ _ _).1.trans (hset _ _ _).1, (hset _ _ _).2.trans (hset _ _ _).2⟩

/-! the Purlin fabric -/

theorem port_of {x y : Chip} (h : x.purlin = y.purlin) (p : Nat) : x.purPort p = y.purPort p := by unfold Chip.purPort; rw [h]

end Sys2Proof.Laws
end

