-- ==== Sys2Proof/Laws/Frames/Purlinexpect.lean ====
section
/-!
SUPPORT. Sys2Proof/Laws/Frames/Purlinexpect.lean: the operations that leave the numbers expected of Purlin flows alone, a lemma for each. `fr_…` carries a property that
depends on nothing else across the operation; `eq_…` says that it reads as before.
-/
namespace Sys2Proof.Laws
open Sys2Proof.Machine

section
variable {P : Chip → Prop} (K : ∀ a b : Chip, P a → b.purlin.expect = a.purlin.expect → P b)
include K

theorem fr_purlinexpect_lit (m : Chip) {regs time encs fire pegs fio sup boot bays engs mem sramValid sramBad stick wit cams pocs pipes
    rowPipes replays screens pp tenon purlin latches fresh heads eth subs trust text hk nvLog out free} (h : P m) (e0 : purlin.expect =
        m.purlin.expect) : P (Chip.mk regs time encs fire pegs fio sup boot bays engs mem sramValid sramBad stick wit cams pocs pipes
            rowPipes replays screens pp tenon purlin latches fresh heads eth subs trust text hk nvLog out free) := K _ _ h e0

theorem fr_purlinexpect_Chip_wr (m : Chip) (a : Nat) (v : Word) (h0 : P m) : P (Chip.wr m a v) := K _ _ h0 rfl

theorem fr_purlinexpect_Chip_put (m : Chip) (f : Fld) (v : Nat) (h0 : P m) : P (Chip.put m f v) := K _ _ h0 rfl

theorem fr_purlinexpect_Chip_markFresh (a i : Nat) (m : Chip) (h0 : P m) : P (Chip.markFresh a i m) := K _ _ h0 rfl

theorem fr_purlinexpect_Chip_setFlag (m : Chip) (f : Fld) (h0 : P m) : P (Chip.setFlag m f) := K _ _ h0 rfl

theorem fr_purlinexpect_Chip_bumpBy (m : Chip) (a n : Nat) (h0 : P m) : P (Chip.bumpBy m a n) := K _ _ h0 rfl

theorem fr_purlinexpect_Chip_bump (m : Chip) (a : Nat) (h0 : P m) : P (Chip.bump m a) := K _ _ h0 rfl

theorem fr_purlinexpect_Chip_emit (m : Chip) (e : Emit) (h0 : P m) : P (Chip.emit m e) := K _ _ h0 rfl

theorem fr_purlinexpect_elapse (dt : Nat) (m : Chip) (h0 : P m) : P (elapse dt m) := K _ _ h0 rfl

theorem fr_purlinexpect_Chip_setPipe (m : Chip) (n : Nat) (v : PipeState) (h0 : P m) : P (Chip.setPipe m n v) := K _ _ h0 rfl

theorem fr_purlinexpect_Chip_setRowPipe (m : Chip) (r : Nat) (v : RowPipe) (h0 : P m) : P (Chip.setRowPipe m r v) := K _ _ h0 rfl

theorem fr_purlinexpect_Chip_take (dt : Nat) (eff : Chip → Chip) (m : Chip) (h0 : ∀ x0, P x0 →
    P (eff x0)) (h1 : P m) : P (Chip.take dt eff m) := by
  unfold Chip.take
  try dsimp only
  repeat'
    first
      | with_reducible
          first
            | assumption | apply h0 | apply fr_purlinexpect_elapse K | apply keep_ite (P := P)
      | (intro _) | dsimp only | split | with_reducible refine fr_purlinexpect_lit K _ ?_ rfl

theorem fr_purlinexpect_Chip_onPur (f : PurlinState → PurlinState) (m : Chip) (h0 : P m) (e : ∀ x, (f x).expect =
    x.expect) : P (Chip.onPur f m) := K _ _ h0 (e _)

theorem fr_purlinexpect_Chip_setPurPort (p : Nat) (v : PurPort) (m : Chip) (h0 : P m) : P (Chip.setPurPort p v m) := K _ _ h0 rfl

theorem fr_purlinexpect_Chip_modPurPort (p : Nat) (f : PurPort → PurPort) (m : Chip) (h0 : P m) : P (Chip.modPurPort p f m) :=
    K _ _ h0 rfl

theorem fr_purlinexpect_Chip_purTx (p : Nat) (f : PurFrame) (m : Chip) (h0 : P m) : P (Chip.purTx p f m) := K _ _ h0 rfl

theorem fr_purlinexpect_Chip_linkSend (p : Nat) (l : LinkRec) (m : Chip) (h0 : P m) : P (Chip.linkSend p l m) := K _ _ h0 rfl

theorem fr_purlinexpect_Chip_giveBack (p : Nat) (f : PurFrame) (m : Chip) (h0 : P m) : P (Chip.giveBack p f m) := by
  unfold Chip.giveBack
  try dsimp only
  repeat'
    first
      | with_reducible
          first
            | assumption | apply fr_purlinexpect_Chip_linkSend K | apply keep_ite (P := P)
      | dsimp only | split | with_reducible refine fr_purlinexpect_lit K _ ?_ rfl

theorem fr_purlinexpect_Chip_giveBackOpt (via : Option Nat) (f : PurFrame) (m : Chip) (h0 : P m) : P (Chip.giveBackOpt via f m) := by
  unfold Chip.giveBackOpt
  try dsimp only
  repeat'
    first
      | with_reducible
          first
            | assumption | apply fr_purlinexpect_Chip_giveBack K
      | split | dsimp only | with_reducible refine fr_purlinexpect_lit K _ ?_ rfl

theorem fr_purlinexpect_Chip_purPump (p : Nat) (y0 : Nat) (y1 : Chip) (h0 : P y1) : P (Chip.purPump p y0 y1) := by
  induction y0 generalizing y1 with
  | zero => exact h0
  | succ n ih =>
    unfold Chip.purPump
    try dsimp only
    repeat'
      first
        | with_reducible
            first
              | assumption | apply ih | apply fr_purlinexpect_Chip_setPurPort K | apply fr_purlinexpect_Chip_purTx K
              | apply fr_purlinexpect_Chip_giveBackOpt K | apply keep_ite (P := P)
        | (intro _) | split | with_reducible refine fr_purlinexpect_lit K _ ?_ rfl

theorem fr_purlinexpect_Chip_purFlush (p : Nat) (m : Chip) (h0 : P m) : P (Chip.purFlush p m) := by
  unfold Chip.purFlush
  try dsimp only
  repeat'
    first
      | with_reducible
          first
            | assumption | apply fr_purlinexpect_Chip_purPump K
      | dsimp only | split | with_reducible refine fr_purlinexpect_lit K _ ?_ rfl

theorem fr_purlinexpect_Chip_putByte (m : Chip) (g : Nat) (b : Byte) (h0 : P m) : P (Chip.putByte m g b) := by
  unfold Chip.putByte
  try dsimp only
  repeat'
    first
      | with_reducible
          first
            | assumption | apply keep_ite (P := P)
      | (intro _) | dsimp only | split | with_reducible refine fr_purlinexpect_lit K _ ?_ rfl

theorem fr_purlinexpect_Chip_putBytes (m : Chip) (g : Nat) (y0 : List Byte) (h0 : P m) : P (Chip.putBytes m g y0) := by
  induction y0 generalizing m g with
  | nil => exact h0
  | cons b t ih => exact ih _ _ (fr_purlinexpect_Chip_putByte K _ _ _ h0)

theorem fr_purlinexpect_Chip_purRoute (via : Option Nat) (f : PurFrame) (m : Chip) (h0 : P m) : P (Chip.purRoute via f m) := by
  unfold Chip.purRoute
  try dsimp only
  repeat'
    first
      | with_reducible
          first
            | assumption | apply fr_purlinexpect_Chip_bump K | apply fr_purlinexpect_Chip_modPurPort K
            | apply fr_purlinexpect_Chip_giveBackOpt K | apply fr_purlinexpect_Chip_purFlush K | apply keep_ite (P := P)
      | (intro _) | dsimp only | split | with_reducible refine fr_purlinexpect_lit K _ ?_ rfl

theorem fr_purlinexpect_Chip_setFlow (v : PurFlow) (m : Chip) (h0 : P m) : P (Chip.setFlow v m) := K _ _ h0 rfl

theorem fr_purlinexpect_Chip_flowDrain (dev cls : Nat) (y0 : Nat) (y1 : Chip) (h0 : P y1) : P (Chip.flowDrain dev cls y0 y1) := by
  induction y0 generalizing y1 with
  | zero => exact h0
  | succ n ih =>
    unfold Chip.flowDrain
    try dsimp only
    repeat'
      first
        | with_reducible
            first
              | assumption | apply ih | apply fr_purlinexpect_Chip_purRoute K | apply fr_purlinexpect_Chip_setFlow K
              | apply keep_ite (P := P)
        | (intro _) | split | with_reducible refine fr_purlinexpect_lit K _ ?_ rfl

theorem fr_purlinexpect_Chip_flowRun (dev cls : Nat) (m : Chip) (h0 : P m) : P (Chip.flowRun dev cls m) := by
  unfold Chip.flowRun
  try dsimp only
  repeat'
    first
      | with_reducible
          first
            | assumption | apply fr_purlinexpect_Chip_flowDrain K
      | dsimp only | split | with_reducible refine fr_purlinexpect_lit K _ ?_ rfl

theorem fr_purlinexpect_Chip_flowSend (dev cls : Nat) (body : PurBody) (length : Nat) (m : Chip) (h0 : P m) : P (Chip.flowSend dev cls
    body length m) := by
  unfold Chip.flowSend
  try dsimp only
  repeat'
    first
      | with_reducible
          first
            | assumption | apply fr_purlinexpect_Chip_setFlow K | apply fr_purlinexpect_Chip_flowRun K
      | dsimp only | split | with_reducible refine fr_purlinexpect_lit K _ ?_ rfl

theorem fr_purlinexpect_Chip_dataSend (dev closeBay space unit dst tag : Nat) (bytes : List Byte) (m : Chip) (h0 : P m) : P
    (Chip.dataSend dev closeBay space unit dst tag bytes m) := by
  unfold Chip.dataSend
  try dsimp only
  repeat'
    first
      | with_reducible
          first
            | assumption | apply fr_purlinexpect_Chip_take K | apply fr_purlinexpect_Chip_flowSend K | apply keep_forAll (P := P)
            | apply keep_ite (P := P)
      | (intro _) | dsimp only | split | with_reducible refine fr_purlinexpect_lit K _ ?_ rfl

theorem fr_purlinexpect_Chip_feed (row a : Nat) (bytes : List Byte) (m : Chip) (h0 : P m) : P (Chip.feed row a bytes m) := by
  unfold Chip.feed
  try dsimp only
  repeat'
    first
      | with_reducible
          first
            | assumption | apply fr_purlinexpect_Chip_dataSend K | apply keep_ite (P := P)
      | (intro _) | dsimp only | split | with_reducible refine fr_purlinexpect_lit K _ ?_ rfl

theorem fr_purlinexpect_Chip_onBays (f : BayState → BayState) (m : Chip) (h0 : P m) : P (Chip.onBays f m) := K _ _ h0 rfl

theorem fr_purlinexpect_Chip_signalSem (half s : Nat) (m : Chip) (h0 : P m) : P (Chip.signalSem half s m) := by
  unfold Chip.signalSem
  try dsimp only
  repeat'
    first
      | with_reducible
          first
            | assumption | apply fr_purlinexpect_Chip_onBays K | apply keep_ite (P := P)
      | (intro _) | dsimp only | split | with_reducible refine fr_purlinexpect_lit K _ ?_ rfl

theorem fr_purlinexpect_Chip_signalOpt (half : Nat) (s : Option Nat) (m : Chip) (h0 : P m) : P (Chip.signalOpt half s m) := by
  unfold Chip.signalOpt
  try dsimp only
  repeat'
    first
      | with_reducible
          first
            | assumption | apply fr_purlinexpect_Chip_signalSem K
      | split | dsimp only | with_reducible refine fr_purlinexpect_lit K _ ?_ rfl

theorem fr_purlinexpect_Chip_onGang (g : Gang) (f : Nat → Chip → Chip) (m : Chip) (h0 : ∀ x0 x1, P x1 →
    P (f x0 x1)) (h1 : P m) : P (Chip.onGang g f m) := by
  unfold Chip.onGang
  try dsimp only
  repeat'
    first
      | with_reducible
          first
            | assumption | apply h0 | apply keep_forAll (P := P)
      | (intro _) | dsimp only | split | with_reducible refine fr_purlinexpect_lit K _ ?_ rfl

theorem fr_purlinexpect_Chip_lpFlag (g : Gang) (f : Nat → Fld) (m : Chip) (h0 : P m) : P (Chip.lpFlag g f m) := by
  unfold Chip.lpFlag
  try dsimp only
  repeat'
    first
      | with_reducible
          first
            | assumption | apply fr_purlinexpect_Chip_setFlag K | apply fr_purlinexpect_Chip_onGang K
      | (intro _) | dsimp only | split | with_reducible refine fr_purlinexpect_lit K _ ?_ rfl

theorem fr_purlinexpect_Chip_showPipe (g : Gang) (m : Chip) (h0 : P m) : P (Chip.showPipe g m) := by
  unfold Chip.showPipe
  try dsimp only
  repeat'
    first
      | with_reducible
          first
            | assumption | apply fr_purlinexpect_Chip_put K | apply fr_purlinexpect_Chip_onGang K | apply keep_ite (P := P)
      | (intro _) | split | dsimp only | with_reducible refine fr_purlinexpect_lit K _ ?_ rfl

theorem fr_purlinexpect_Chip_syncReset (g : Gang) (m : Chip) (h0 : P m) : P (Chip.syncReset g m) := by
  unfold Chip.syncReset
  try dsimp only
  repeat'
    first
      | with_reducible
          first
            | assumption | apply fr_purlinexpect_Chip_bump K | apply fr_purlinexpect_Chip_setPipe K
            | apply fr_purlinexpect_Chip_lpFlag K | apply keep_ite (P := P)
      | dsimp only | split | with_reducible refine fr_purlinexpect_lit K _ ?_ rfl

theorem fr_purlinexpect_Chip_writeSnapshot (g : Gang) (strip : Nat) (m : Chip) (h0 : P m) : P (Chip.writeSnapshot g strip m) := by
  unfold Chip.writeSnapshot
  try dsimp only
  repeat'
    first
      | with_reducible
          first
            | assumption | apply fr_purlinexpect_Chip_setPipe K | apply fr_purlinexpect_Chip_putBytes K
            | apply fr_purlinexpect_Chip_feed K | apply keep_ite (P := P)
      | (intro _) | split | dsimp only | with_reducible refine fr_purlinexpect_lit K _ ?_ rfl

theorem fr_purlinexpect_Chip_stripBoundary (g : Gang) (s : Nat) (m : Chip) (h0 : P m) : P (Chip.stripBoundary g s m) := by
  unfold Chip.stripBoundary
  try dsimp only
  repeat'
    first
      | with_reducible
          first
            | assumption | apply fr_purlinexpect_Chip_setPipe K | apply fr_purlinexpect_Chip_showPipe K
            | apply fr_purlinexpect_Chip_syncReset K | apply fr_purlinexpect_Chip_writeSnapshot K | apply keep_ite (P := P)
      | split | dsimp only | with_reducible refine fr_purlinexpect_lit K _ ?_ rfl

theorem fr_purlinexpect_Chip_writeLevel (r slot l k : Nat) (px : List Pix) (m : Chip) (h0 : P m) : P (Chip.writeLevel r slot l k px m)
    := by
  unfold Chip.writeLevel
  try dsimp only
  repeat'
    first
      | with_reducible
          first
            | assumption | apply fr_purlinexpect_Chip_putBytes K
      | dsimp only | split | with_reducible refine fr_purlinexpect_lit K _ ?_ rfl

theorem fr_purlinexpect_Chip_beginStrip (r s idx : Nat) (m : Chip) (h0 : P m) : P (Chip.beginStrip r s idx m) := by
  unfold Chip.beginStrip
  try dsimp only
  repeat'
    first
      | with_reducible
          first
            | assumption | apply fr_purlinexpect_Chip_bump K | apply fr_purlinexpect_Chip_setRowPipe K
            | apply fr_purlinexpect_Chip_lpFlag K | apply fr_purlinexpect_Chip_writeLevel K | apply keep_forAll (P := P)
            | apply keep_ite (P := P)
      | (intro _) | dsimp only | split | with_reducible refine fr_purlinexpect_lit K _ ?_ rfl

theorem fr_purlinexpect_Chip_levelLine (r : Nat) (slot : Option Nat) (y0 : Nat) (y1 : Nat) (y2 : Nat) (y3 : List Pix) (y4 : Chip) (h0 :
    P y4) : P (Chip.levelLine r slot y0 y1 y2 y3 y4) := by
  induction y0 generalizing y1 y2 y3 y4 with
  | zero => exact h0
  | succ n ih =>
    unfold Chip.levelLine
    try dsimp only
    repeat'
      first
        | with_reducible
            first
              | assumption | apply ih | apply fr_purlinexpect_Chip_setRowPipe K | apply fr_purlinexpect_Chip_writeLevel K
              | apply keep_ite (P := P)
        | (intro _) | dsimp only | split | with_reducible refine fr_purlinexpect_lit K _ ?_ rfl

theorem fr_purlinexpect_Chip_queueFull (r idx : Nat) (m : Chip) (h0 : P m) : P (Chip.queueFull r idx m) := by
  unfold Chip.queueFull
  try dsimp only
  repeat'
    first
      | with_reducible
          first
            | assumption | apply fr_purlinexpect_Chip_bump K | apply fr_purlinexpect_Chip_setRowPipe K
            | apply fr_purlinexpect_Chip_lpFlag K | apply keep_forAll (P := P) | apply keep_ite (P := P)
      | (intro _) | split | dsimp only | with_reducible refine fr_purlinexpect_lit K _ ?_ rfl

theorem fr_purlinexpect_Chip_rowLine (r idx : Nat) (count : Int) (tb3 : Nat) (cut : Bool) (px0 : List Pix) (m : Chip) (h0 : P m) : P
    (Chip.rowLine r idx count tb3 cut px0 m) := by
  unfold Chip.rowLine
  try dsimp only
  repeat'
    first
      | with_reducible
          first
            | assumption | apply fr_purlinexpect_Chip_setRowPipe K | apply fr_purlinexpect_Chip_beginStrip K
            | apply fr_purlinexpect_Chip_levelLine K | apply fr_purlinexpect_Chip_queueFull K | apply keep_ite (P := P)
      | (intro _) | split | dsimp only | with_reducible refine fr_purlinexpect_lit K _ ?_ rfl

theorem fr_purlinexpect_Chip_stitchReady (r : Nat) (y0 : Nat) (y1 : Chip) (h0 : P y1) : P (Chip.stitchReady r y0 y1) := by
  induction y0 generalizing y1 with
  | zero => exact h0
  | succ n ih =>
    unfold Chip.stitchReady
    try dsimp only
    repeat'
      first
        | with_reducible
            first
              | assumption | apply ih | apply fr_purlinexpect_Chip_setRowPipe K | apply fr_purlinexpect_Chip_rowLine K
              | apply keep_ite (P := P)
        | (intro _) | dsimp only | split | with_reducible refine fr_purlinexpect_lit K _ ?_ rfl

theorem fr_purlinexpect_Chip_alignReady (g : Gang) (y0 : Nat) (y1 : Chip) (h0 : P y1) : P (Chip.alignReady g y0 y1) := by
  induction y0 generalizing y1 with
  | zero => exact h0
  | succ n ih =>
    unfold Chip.alignReady
    try dsimp only
    repeat'
      first
        | with_reducible
            first
              | assumption | apply ih | apply fr_purlinexpect_Chip_bump K | apply fr_purlinexpect_Chip_setPipe K
              | apply fr_purlinexpect_Chip_setRowPipe K | apply fr_purlinexpect_Chip_lpFlag K | apply keep_ite (P := P)
        | (intro _) | dsimp only | split | with_reducible refine fr_purlinexpect_lit K _ ?_ rfl

theorem fr_purlinexpect_Chip_procLine (g : Gang) (x : InLine) (m : Chip) (h0 : P m) : P (Chip.procLine g x m) := by
  unfold Chip.procLine
  try dsimp only
  repeat'
    first
      | with_reducible
          first
            | assumption | apply fr_purlinexpect_Chip_bump K | apply fr_purlinexpect_Chip_setPipe K
            | apply fr_purlinexpect_Chip_onGang K | apply fr_purlinexpect_Chip_stripBoundary K
            | apply fr_purlinexpect_Chip_stitchReady K | apply fr_purlinexpect_Chip_alignReady K | apply keep_ite (P := P)
      | (intro _) | dsimp only | split | with_reducible refine fr_purlinexpect_lit K _ ?_ rfl

theorem fr_purlinexpect_Chip_runPipe (g : Gang) (y0 : Nat) (y1 : Chip) (h0 : P y1) : P (Chip.runPipe g y0 y1) := by
  induction y0 generalizing y1 with
  | zero => exact h0
  | succ n ih =>
    unfold Chip.runPipe
    try dsimp only
    repeat'
      first
        | with_reducible
            first
              | assumption | apply ih | apply fr_purlinexpect_Chip_setPipe K | apply fr_purlinexpect_Chip_stripBoundary K
              | apply fr_purlinexpect_Chip_procLine K | apply keep_ite (P := P)
        | (intro _) | split | with_reducible refine fr_purlinexpect_lit K _ ?_ rfl

theorem fr_purlinexpect_Chip_runGang (g : Gang) (m : Chip) (h0 : P m) : P (Chip.runGang g m) := by
  unfold Chip.runGang
  try dsimp only
  repeat'
    first
      | with_reducible
          first
            | assumption | apply fr_purlinexpect_Chip_runPipe K
      | dsimp only | split | with_reducible refine fr_purlinexpect_lit K _ ?_ rfl

theorem fr_purlinexpect_Chip_routeDiscard (g : Gang) (m : Chip) (h0 : P m) : P (Chip.routeDiscard g m) := by
  unfold Chip.routeDiscard
  try dsimp only
  repeat'
    first
      | with_reducible
          first
            | assumption | apply fr_purlinexpect_Chip_bump K | apply fr_purlinexpect_Chip_onGang K | apply fr_purlinexpect_Chip_lpFlag K
      | (intro _) | dsimp only | split | with_reducible refine fr_purlinexpect_lit K _ ?_ rfl

theorem fr_purlinexpect_Chip_replayLineTo (ch : Nat) (g : Gang) (x : InLine) (m : Chip) (h0 : P m) : P (Chip.replayLineTo ch g x m) :=
    by
  unfold Chip.replayLineTo
  try dsimp only
  repeat'
    first
      | with_reducible
          first
            | assumption | apply fr_purlinexpect_Chip_setPipe K | apply fr_purlinexpect_Chip_runGang K
            | apply fr_purlinexpect_Chip_routeDiscard K | apply keep_ite (P := P)
      | split | dsimp only | with_reducible refine fr_purlinexpect_lit K _ ?_ rfl

theorem fr_purlinexpect_Chip_restoreSnap (g : Gang) (a : Nat) (m : Chip) (h0 : P m) : P (Chip.restoreSnap g a m) := K _ _ h0 rfl

theorem fr_purlinexpect_Chip_onTn (f : TenonState → TenonState) (m : Chip) (h0 : P m) : P (Chip.onTn f m) := K _ _ h0 rfl

theorem fr_purlinexpect_Chip_setTnDir (d : Nat) (v : TnDir) (m : Chip) (h0 : P m) : P (Chip.setTnDir d v m) := K _ _ h0 rfl

theorem fr_purlinexpect_Chip_modTnDir (d : Nat) (f : TnDir → TnDir) (m : Chip) (h0 : P m) : P (Chip.modTnDir d f m) := K _ _ h0 rfl

theorem fr_purlinexpect_Chip_tnSend (d vc : Nat) (x : TnXfer) (payload : List Byte) (groups : List VerdictGroup) (sets : List (Nat ×
    Nat)) (m : Chip) (h0 : P m) : P (Chip.tnSend d vc x payload groups sets m) := K _ _ h0 rfl

theorem fr_purlinexpect_Chip_followHeader (row : Nat) (l : List Byte) (m : Chip) (h0 : P m) : P (Chip.followHeader row l m) := by
  unfold Chip.followHeader
  try dsimp only
  repeat'
    first
      | with_reducible
          first
            | assumption | apply fr_purlinexpect_Chip_setRowPipe K | apply fr_purlinexpect_Chip_take K | apply keep_ite (P := P)
      | (intro _) | split | dsimp only | with_reducible refine fr_purlinexpect_lit K _ ?_ rfl

theorem fr_purlinexpect_Chip_followRecord (c : CameraRec) (kind a : Nat) (m : Chip) (h0 : P m) : P (Chip.followRecord c kind a m) := by
  unfold Chip.followRecord
  try dsimp only
  repeat'
    first
      | with_reducible
          first
            | assumption | apply fr_purlinexpect_Chip_setRowPipe K | apply fr_purlinexpect_Chip_replayLineTo K
            | apply fr_purlinexpect_Chip_restoreSnap K | apply keep_ite (P := P)
      | (intro _) | split | dsimp only | with_reducible refine fr_purlinexpect_lit K _ ?_ rfl

theorem fr_purlinexpect_Chip_followData (dst : Nat) (part : List Byte) (m : Chip) (h0 : P m) : P (Chip.followData dst part m) := by
  unfold Chip.followData
  try dsimp only
  repeat'
    first
      | with_reducible
          first
            | assumption | apply fr_purlinexpect_Chip_feed K | apply fr_purlinexpect_Chip_followHeader K
            | apply fr_purlinexpect_Chip_followRecord K | apply keep_forAll (P := P) | apply keep_ite (P := P)
      | (intro _) | dsimp only | split | with_reducible refine fr_purlinexpect_lit K _ ?_ rfl

theorem fr_purlinexpect_Chip_purData (p : Nat) (fr : PurFrame) (x : TnXfer) (part : List Byte) (m : Chip) (h0 : P m) : P (Chip.purData p
    fr x part m) := by
  unfold Chip.purData
  try dsimp only
  repeat'
    first
      | with_reducible
          first
            | assumption | apply fr_purlinexpect_Chip_setFlag K | apply fr_purlinexpect_Chip_bump K
            | apply fr_purlinexpect_Chip_putBytes K | apply fr_purlinexpect_Chip_signalOpt K | apply fr_purlinexpect_Chip_tnSend K
            | apply fr_purlinexpect_Chip_followData K | apply keep_ite (P := P)
      | (intro _) | split | dsimp only | with_reducible refine fr_purlinexpect_lit K _ ?_ rfl

theorem fr_purlinexpect_Chip_purAnswer (fr : PurFrame) (body : PurBody) (m : Chip) (h0 : P m) : P (Chip.purAnswer fr body m) := by
  unfold Chip.purAnswer
  try dsimp only
  repeat'
    first
      | with_reducible
          first
            | assumption | apply fr_purlinexpect_Chip_purRoute K
      | dsimp only | split | with_reducible refine fr_purlinexpect_lit K _ ?_ rfl

end

theorem eq_purlinexpect_Chip_giveBack (p : Nat) (f : PurFrame) (m : Chip) : (Chip.giveBack p f m).purlin.expect = m.purlin.expect :=
  fr_purlinexpect_Chip_giveBack (P := fun z => z.purlin.expect = m.purlin.expect) (fun _ _ h e => e.trans h) p f m rfl

theorem eq_purlinexpect_Chip_purData (p : Nat) (fr : PurFrame) (x : TnXfer) (part : List Byte) (m : Chip) : (Chip.purData p fr x part
    m).purlin.expect = m.purlin.expect :=
  fr_purlinexpect_Chip_purData (P := fun z => z.purlin.expect = m.purlin.expect) (fun _ _ h e => e.trans h) p fr x part m rfl

theorem eq_purlinexpect_Chip_purAnswer (fr : PurFrame) (body : PurBody) (m : Chip) : (Chip.purAnswer fr body m).purlin.expect =
    m.purlin.expect :=
  fr_purlinexpect_Chip_purAnswer (P := fun z => z.purlin.expect = m.purlin.expect) (fun _ _ h e => e.trans h) fr body m rfl

end Sys2Proof.Laws
end

