-- ==== Sys2Proof/Laws/Frames/Purlinout.lean ====
section
/-!
SUPPORT. Sys2Proof/Laws/Frames/Purlinout.lean: the operations that leave the flows of the Purlin fabric alone, a lemma for each. `fr_…` carries a property that
depends on nothing else across the operation; `eq_…` says that it reads as before.
-/
namespace Sys2Proof.Laws
open Sys2Proof.Machine

section
variable {P : Chip → Prop} (K : ∀ a b : Chip, P a → b.purlin.out = a.purlin.out → P b)
include K

theorem fr_purlinout_lit (m : Chip) {regs time encs fire pegs fio sup boot bays engs mem sramValid sramBad stick wit cams pocs pipes
    rowPipes replays screens pp tenon purlin latches fresh heads eth subs trust text hk nvLog out free} (h : P m) (e0 : purlin.out =
        m.purlin.out) : P (Chip.mk regs time encs fire pegs fio sup boot bays engs mem sramValid sramBad stick wit cams pocs pipes
            rowPipes replays screens pp tenon purlin latches fresh heads eth subs trust text hk nvLog out free) := K _ _ h e0

theorem fr_purlinout_Chip_wr (m : Chip) (a : Nat) (v : Word) (h0 : P m) : P (Chip.wr m a v) := K _ _ h0 rfl

theorem fr_purlinout_Chip_bumpBy (m : Chip) (a n : Nat) (h0 : P m) : P (Chip.bumpBy m a n) := K _ _ h0 rfl

theorem fr_purlinout_Chip_bump (m : Chip) (a : Nat) (h0 : P m) : P (Chip.bump m a) := K _ _ h0 rfl

theorem fr_purlinout_Chip_emit (m : Chip) (e : Emit) (h0 : P m) : P (Chip.emit m e) := K _ _ h0 rfl

theorem fr_purlinout_Chip_onPur (f : PurlinState → PurlinState) (m : Chip) (h0 : P m) (e : ∀ x, (f x).out =
    x.out) : P (Chip.onPur f m) := K _ _ h0 (e _)

theorem fr_purlinout_Chip_setPurPort (p : Nat) (v : PurPort) (m : Chip) (h0 : P m) : P (Chip.setPurPort p v m) := K _ _ h0 rfl

theorem fr_purlinout_Chip_modPurPort (p : Nat) (f : PurPort → PurPort) (m : Chip) (h0 : P m) : P (Chip.modPurPort p f m) := K _ _ h0 rfl

theorem fr_purlinout_Chip_purTx (p : Nat) (f : PurFrame) (m : Chip) (h0 : P m) : P (Chip.purTx p f m) := K _ _ h0 rfl

theorem fr_purlinout_Chip_linkSend (p : Nat) (l : LinkRec) (m : Chip) (h0 : P m) : P (Chip.linkSend p l m) := K _ _ h0 rfl

theorem fr_purlinout_Chip_giveBack (p : Nat) (f : PurFrame) (m : Chip) (h0 : P m) : P (Chip.giveBack p f m) := by
  unfold Chip.giveBack
  try dsimp only
  repeat'
    first
      | with_reducible
          first
            | assumption | apply fr_purlinout_Chip_linkSend K | apply keep_ite (P := P)
      | dsimp only | split | with_reducible refine fr_purlinout_lit K _ ?_ rfl

theorem fr_purlinout_Chip_giveBackOpt (via : Option Nat) (f : PurFrame) (m : Chip) (h0 : P m) : P (Chip.giveBackOpt via f m) := by
  unfold Chip.giveBackOpt
  try dsimp only
  repeat'
    first
      | with_reducible
          first
            | assumption | apply fr_purlinout_Chip_giveBack K
      | split | dsimp only | with_reducible refine fr_purlinout_lit K _ ?_ rfl

theorem fr_purlinout_Chip_purPump (p : Nat) (y0 : Nat) (y1 : Chip) (h0 : P y1) : P (Chip.purPump p y0 y1) := by
  induction y0 generalizing y1 with
  | zero => exact h0
  | succ n ih =>
    unfold Chip.purPump
    try dsimp only
    repeat'
      first
        | with_reducible
            first
              | assumption | apply ih | apply fr_purlinout_Chip_setPurPort K | apply fr_purlinout_Chip_purTx K
              | apply fr_purlinout_Chip_giveBackOpt K | apply keep_ite (P := P)
        | (intro _) | split | with_reducible refine fr_purlinout_lit K _ ?_ rfl

theorem fr_purlinout_Chip_purFlush (p : Nat) (m : Chip) (h0 : P m) : P (Chip.purFlush p m) := by
  unfold Chip.purFlush
  try dsimp only
  repeat'
    first
      | with_reducible
          first
            | assumption | apply fr_purlinout_Chip_purPump K
      | dsimp only | split | with_reducible refine fr_purlinout_lit K _ ?_ rfl

theorem fr_purlinout_Chip_purRoute (via : Option Nat) (f : PurFrame) (m : Chip) (h0 : P m) : P (Chip.purRoute via f m) := by
  unfold Chip.purRoute
  try dsimp only
  repeat'
    first
      | with_reducible
          first
            | assumption | apply fr_purlinout_Chip_bump K | apply fr_purlinout_Chip_modPurPort K | apply fr_purlinout_Chip_giveBackOpt K
            | apply fr_purlinout_Chip_purFlush K | apply keep_ite (P := P)
      | (intro _) | dsimp only | split | with_reducible refine fr_purlinout_lit K _ ?_ rfl

end

theorem eq_purlinout_Chip_purRoute (via : Option Nat) (f : PurFrame) (m : Chip) : (Chip.purRoute via f m).purlin.out = m.purlin.out :=
  fr_purlinout_Chip_purRoute (P := fun z => z.purlin.out = m.purlin.out) (fun _ _ h e => e.trans h) via f m rfl

end Sys2Proof.Laws
end

