-- ==== Sys2Proof/Laws/Frames/Purport.lean ====
section
/-!
SUPPORT. Sys2Proof/Laws/Frames/Purport.lean: the operations that leave whether a Purlin port has a checked peer alone, a lemma for each. `fr_…` carries a property that
depends on nothing else across the operation; `eq_…` says that it reads as before.
-/
namespace Sys2Proof.Laws
open Sys2Proof.Machine

section
variable {P : Chip → Prop} (K : ∀ a b : Chip, P a → b.purlin = a.purlin → P b) (K2 : ∀ (a : Chip) (q : Nat) (v : PurPort), P a →
    (v.helloOk = true → (a.purPort q).helloOk = true) → P (a.setPurPort q v))
include K K2

theorem fr_purport_lit (m : Chip) {regs time encs fire pegs fio sup boot bays engs mem sramValid sramBad stick wit cams pocs pipes
    rowPipes replays screens pp tenon purlin latches fresh heads eth subs trust text hk nvLog out free} (h : P m) (e0 : purlin =
        m.purlin) : P (Chip.mk regs time encs fire pegs fio sup boot bays engs mem sramValid sramBad stick wit cams pocs pipes rowPipes
            replays screens pp tenon purlin latches fresh heads eth subs trust text hk nvLog out free) := K _ _ h e0

omit K2 in
theorem fr_purport_emb (x : Chip) (a : Nat) (e : Emit) (h : P x) : P ((x.bump a).emit e) := K _ _ h rfl

theorem fr_purport_Chip_purTx (p : Nat) (f : PurFrame) (m : Chip) (h0 : P m) : P (m.purTx p f) := by
  unfold Chip.purTx; dsimp only
  exact fr_purport_emb K _ _ _ (K2 m p _ h0 (fun h => h))

theorem fr_purport_Chip_linkSend (p : Nat) (l : LinkRec) (m : Chip) (h0 : P m) : P (m.linkSend p l) :=
    fr_purport_Chip_purTx K K2 _ _ _ h0

theorem fr_purport_Chip_giveBack (p : Nat) (f : PurFrame) (m : Chip) (h0 : P m) : P (m.giveBack p f) := by
  unfold Chip.giveBack; dsimp only; split
  · exact fr_purport_Chip_linkSend K K2 _ _ _ h0
  · exact h0

theorem fr_purport_Chip_giveBackOpt (p : Option Nat) (f : PurFrame) (m : Chip) (h0 : P m) : P (m.giveBackOpt p f) := by
  unfold Chip.giveBackOpt; split
  · exact fr_purport_Chip_giveBack K K2 _ _ _ h0
  · exact h0

omit K K2 in
theorem spend_hello (s : PurPort) (c n : Nat) : (spend s c n).helloOk = s.helloOk := by unfold spend; split <;> rfl

theorem fr_purport_Chip_purPump (p : Nat) (n : Nat) (m : Chip) (h0 : P m) : P (m.purPump p n) := by
  induction n generalizing m with
  | zero => exact h0
  | succ n ih =>
    unfold Chip.purPump; split
    · exact h0
    · split
      · exact h0
      · dsimp only
        exact ih _ (fr_purport_Chip_giveBackOpt K K2 _ _ _ (fr_purport_Chip_purTx K K2 _ _ _ (K2 m p _ h0 (fun h => by rw [spend_hello] at h; exact h))))

theorem fr_purport_Chip_purFlush (p : Nat) (m : Chip) (h0 : P m) : P (m.purFlush p) := fr_purport_Chip_purPump K K2 _ _ _ h0

theorem fr_purport_Chip_mirrorOut (b : PurBody) (n : Nat) (m : Chip) (h0 : P m) : P (m.mirrorOut b n) := by
  unfold Chip.mirrorOut; dsimp only; split
  · exact fr_purport_Chip_purFlush K K2 _ _ (K2 m _ _ h0 (fun h => h))
  · exact h0

theorem fr_purport_Chip_mirrorFrame (id : Nat) (r : MirrorRec) (m : Chip) (h0 : P m) : P (Chip.mirrorFrame id r m) :=
    fr_purport_Chip_mirrorOut K K2 _ _ _ h0

theorem fr_purport_Chip_wr (m : Chip) (a : Nat) (v : Word) (h0 : P m) : P (Chip.wr m a v) := by
  unfold Chip.wr
  try dsimp only
  repeat' (first | with_reducible assumption | with_reducible apply keep_forAll (P := P)
                 | with_reducible apply keep_foldl (P := P) | with_reducible apply keep_foldl2 (P := P)
                 | with_reducible apply keep_ite (P := P) | dsimp only | split
                 | with_reducible refine fr_purport_lit K K2 _ ?_ rfl)

theorem fr_purport_Chip_put (m : Chip) (f : Fld) (v : Nat) (h0 : P m) : P (Chip.put m f v) := by
  unfold Chip.put
  try dsimp only
  repeat' (first | with_reducible assumption | (intro _) | with_reducible apply fr_purport_Chip_wr K K2
                 | with_reducible apply keep_forAll (P := P) | with_reducible apply keep_foldl (P := P)
                 | with_reducible apply keep_foldl2 (P := P) | with_reducible apply keep_ite (P := P) | dsimp only | split
                 | with_reducible refine fr_purport_lit K K2 _ ?_ rfl)

theorem fr_purport_Chip_markFresh (a i : Nat) (m : Chip) (h0 : P m) : P (Chip.markFresh a i m) := by
  unfold Chip.markFresh
  try dsimp only
  repeat' (first | with_reducible assumption | split | with_reducible apply keep_forAll (P := P)
                 | with_reducible apply keep_foldl (P := P) | with_reducible apply keep_foldl2 (P := P)
                 | with_reducible apply keep_ite (P := P) | dsimp only | with_reducible refine fr_purport_lit K K2 _ ?_ rfl)

theorem fr_purport_Chip_setFlag (m : Chip) (f : Fld) (h0 : P m) : P (Chip.setFlag m f) := by
  unfold Chip.setFlag
  try dsimp only
  repeat' (first | with_reducible assumption | with_reducible apply fr_purport_Chip_put K K2
                 | with_reducible apply fr_purport_Chip_markFresh K K2 | with_reducible apply keep_forAll (P := P)
                 | with_reducible apply keep_foldl (P := P) | with_reducible apply keep_foldl2 (P := P)
                 | with_reducible apply keep_ite (P := P) | dsimp only | split
                 | with_reducible refine fr_purport_lit K K2 _ ?_ rfl)

theorem fr_purport_Chip_bumpBy (m : Chip) (a n : Nat) (h0 : P m) : P (Chip.bumpBy m a n) := by
  unfold Chip.bumpBy
  try dsimp only
  repeat' (first | with_reducible assumption | with_reducible apply fr_purport_Chip_wr K K2
                 | with_reducible apply keep_forAll (P := P) | with_reducible apply keep_foldl (P := P)
                 | with_reducible apply keep_foldl2 (P := P) | with_reducible apply keep_ite (P := P) | dsimp only | split
                 | with_reducible refine fr_purport_lit K K2 _ ?_ rfl)

theorem fr_purport_Chip_bump (m : Chip) (a : Nat) (h0 : P m) : P (Chip.bump m a) := by
  unfold Chip.bump
  try dsimp only
  repeat' (first | with_reducible assumption | with_reducible apply fr_purport_Chip_bumpBy K K2
                 | with_reducible apply keep_forAll (P := P) | with_reducible apply keep_foldl (P := P)
                 | with_reducible apply keep_foldl2 (P := P) | with_reducible apply keep_ite (P := P) | dsimp only | split
                 | with_reducible refine fr_purport_lit K K2 _ ?_ rfl)

theorem fr_purport_Chip_setBit (m : Chip) (a i : Nat) (h0 : P m) : P (Chip.setBit m a i) := by
  unfold Chip.setBit
  try dsimp only
  repeat' (first | with_reducible assumption | with_reducible apply fr_purport_Chip_put K K2
                 | with_reducible apply fr_purport_Chip_markFresh K K2 | with_reducible apply keep_forAll (P := P)
                 | with_reducible apply keep_foldl (P := P) | with_reducible apply keep_foldl2 (P := P)
                 | with_reducible apply keep_ite (P := P) | dsimp only | split
                 | with_reducible refine fr_purport_lit K K2 _ ?_ rfl)

theorem fr_purport_Chip_emit (m : Chip) (e : Emit) (h0 : P m) : P (Chip.emit m e) := by
  unfold Chip.emit
  try dsimp only
  repeat' (first | with_reducible assumption | with_reducible apply keep_forAll (P := P)
                 | with_reducible apply keep_foldl (P := P) | with_reducible apply keep_foldl2 (P := P)
                 | with_reducible apply keep_ite (P := P) | dsimp only | split
                 | with_reducible refine fr_purport_lit K K2 _ ?_ rfl)

theorem fr_purport_Chip_log (m : Chip) (what : String) (args : List Nat) (h0 : P m) : P (Chip.log m what args) := by
  unfold Chip.log
  try dsimp only
  repeat' (first | with_reducible assumption | with_reducible apply keep_ite (P := P)
                 | with_reducible apply keep_forAll (P := P) | with_reducible apply keep_foldl (P := P)
                 | with_reducible apply keep_foldl2 (P := P) | dsimp only | split
                 | with_reducible refine fr_purport_lit K K2 _ ?_ rfl)

theorem fr_purport_Chip_setSrc (m : Chip) (h i : Nat) (e : SrcState) (h0 : P m) : P (Chip.setSrc m h i e) := by
  unfold Chip.setSrc
  try dsimp only
  repeat' (first | with_reducible assumption | with_reducible apply keep_forAll (P := P)
                 | with_reducible apply keep_foldl (P := P) | with_reducible apply keep_foldl2 (P := P)
                 | with_reducible apply keep_ite (P := P) | dsimp only | split
                 | with_reducible refine fr_purport_lit K K2 _ ?_ rfl)

theorem fr_purport_Chip_toSubs (m : Chip) (r : StreamRec) (h0 : P m) : P (Chip.toSubs m r) := by
  unfold Chip.toSubs
  try dsimp only
  repeat' (first | with_reducible assumption | (intro _) | with_reducible apply fr_purport_Chip_bump K K2
                 | with_reducible apply keep_forAll (P := P) | with_reducible apply keep_foldl (P := P)
                 | with_reducible apply keep_foldl2 (P := P) | with_reducible apply keep_ite (P := P) | dsimp only | split
                 | with_reducible refine fr_purport_lit K K2 _ ?_ rfl)

theorem fr_purport_Chip_release (m : Chip) (r : ResultRec) (h0 : P m) : P (Chip.release m r) := by
  unfold Chip.release
  try dsimp only
  repeat' (first | with_reducible assumption | with_reducible apply fr_purport_Chip_emit K K2
                 | with_reducible apply fr_purport_Chip_toSubs K K2 | with_reducible apply keep_forAll (P := P)
                 | with_reducible apply keep_foldl (P := P) | with_reducible apply keep_foldl2 (P := P)
                 | with_reducible apply keep_ite (P := P) | dsimp only | split
                 | with_reducible refine fr_purport_lit K K2 _ ?_ rfl)

theorem fr_purport_Chip_setQueue (m : Chip) (p : Nat) (q : List FEntry) (h0 : P m) : P (Chip.setQueue m p q) := by
  unfold Chip.setQueue
  try dsimp only
  repeat' (first | with_reducible assumption | with_reducible apply keep_forAll (P := P)
                 | with_reducible apply keep_foldl (P := P) | with_reducible apply keep_foldl2 (P := P)
                 | with_reducible apply keep_ite (P := P) | dsimp only | split
                 | with_reducible refine fr_purport_lit K K2 _ ?_ rfl)

theorem fr_purport_Chip_mirrorSend (m : Chip) (r : MirrorRec) (h0 : P m) : P (Chip.mirrorSend m r) := by
  unfold Chip.mirrorSend
  try dsimp only
  repeat' (first | with_reducible assumption | with_reducible apply fr_purport_Chip_mirrorFrame K K2
                 | with_reducible apply keep_forAll (P := P) | with_reducible apply keep_foldl (P := P)
                 | with_reducible apply keep_foldl2 (P := P) | with_reducible apply keep_ite (P := P) | dsimp only | split
                 | with_reducible refine fr_purport_lit K K2 _ ?_ rfl)

theorem fr_purport_Chip_entryCancelled (m : Chip) (e : FEntry) (h0 : P m) : P (Chip.entryCancelled m e) := by
  unfold Chip.entryCancelled
  try dsimp only
  repeat' (first | with_reducible assumption | with_reducible apply fr_purport_Chip_bump K K2
                 | with_reducible apply fr_purport_Chip_release K K2 | with_reducible apply fr_purport_Chip_mirrorSend K K2
                 | with_reducible apply keep_ite (P := P) | with_reducible apply keep_forAll (P := P)
                 | with_reducible apply keep_foldl (P := P) | with_reducible apply keep_foldl2 (P := P) | dsimp only | split
                 | with_reducible refine fr_purport_lit K K2 _ ?_ rfl)

theorem fr_purport_Chip_cancelIn (p : Nat) (c : FEntry → Bool) (m : Chip) (h0 : P m) : P (Chip.cancelIn p c m) := by
  unfold Chip.cancelIn
  try dsimp only
  repeat' (first | with_reducible assumption | (intro _) | with_reducible apply fr_purport_Chip_setQueue K K2
                 | with_reducible apply fr_purport_Chip_entryCancelled K K2 | with_reducible apply keep_forAll (P := P)
                 | with_reducible apply keep_foldl (P := P) | with_reducible apply keep_foldl2 (P := P)
                 | with_reducible apply keep_ite (P := P) | dsimp only | split
                 | with_reducible refine fr_purport_lit K K2 _ ?_ rfl)

theorem fr_purport_Chip_cancelAll (c : FEntry → Bool) (m : Chip) (h0 : P m) : P (Chip.cancelAll c m) := by
  unfold Chip.cancelAll
  try dsimp only
  repeat' (first | with_reducible assumption | (intro _) | with_reducible apply fr_purport_Chip_cancelIn K K2
                 | with_reducible apply keep_forAll (P := P) | with_reducible apply keep_foldl (P := P)
                 | with_reducible apply keep_foldl2 (P := P) | with_reducible apply keep_ite (P := P) | dsimp only | split
                 | with_reducible refine fr_purport_lit K K2 _ ?_ rfl)

theorem fr_purport_Chip_dropResvs (c : Resv → Bool) (m : Chip) (h0 : P m) : P (Chip.dropResvs c m) := by
  unfold Chip.dropResvs
  try dsimp only
  repeat' (first | with_reducible assumption | (intro _) | with_reducible apply keep_forAll (P := P)
                 | with_reducible apply keep_foldl (P := P) | with_reducible apply keep_foldl2 (P := P)
                 | with_reducible apply keep_ite (P := P) | dsimp only | split
                 | with_reducible refine fr_purport_lit K K2 _ ?_ rfl)

theorem fr_purport_Chip_refreshOutputs (m : Chip) (h0 : P m) : P (Chip.refreshOutputs m) := by
  unfold Chip.refreshOutputs
  try dsimp only
  repeat' (first | with_reducible assumption | (intro _) | with_reducible apply fr_purport_Chip_put K K2
                 | with_reducible apply fr_purport_Chip_emit K K2 | with_reducible apply keep_foldl (P := P)
                 | with_reducible apply keep_foldl2 (P := P) | with_reducible apply keep_ite (P := P) | dsimp only
                 | with_reducible apply keep_forAll (P := P) | split | with_reducible refine fr_purport_lit K K2 _ ?_ rfl)

theorem fr_purport_Chip_setMode (new : Nat) (cause : Option Src) (m : Chip) (h0 : P m) : P (Chip.setMode new cause m) := by
  unfold Chip.setMode
  try dsimp only
  repeat' (first | with_reducible assumption | with_reducible apply fr_purport_Chip_put K K2 | split
                 | with_reducible apply keep_forAll (P := P) | with_reducible apply keep_foldl (P := P)
                 | with_reducible apply keep_foldl2 (P := P) | with_reducible apply keep_ite (P := P) | dsimp only
                 | with_reducible refine fr_purport_lit K K2 _ ?_ rfl)

theorem fr_purport_Chip_dropResume (m : Chip) (h0 : P m) : P (Chip.dropResume m) := by
  unfold Chip.dropResume
  try dsimp only
  repeat' (first | with_reducible assumption | with_reducible apply keep_forAll (P := P)
                 | with_reducible apply keep_foldl (P := P) | with_reducible apply keep_foldl2 (P := P)
                 | with_reducible apply keep_ite (P := P) | dsimp only | split
                 | with_reducible refine fr_purport_lit K K2 _ ?_ rfl)

theorem fr_purport_Chip_enterSafe (cause : Option Src) (m : Chip) (h0 : P m) : P (Chip.enterSafe cause m) := by
  unfold Chip.enterSafe
  try dsimp only
  repeat' (first | with_reducible assumption | (intro _) | with_reducible apply fr_purport_Chip_bump K K2
                 | with_reducible apply fr_purport_Chip_cancelAll K K2 | with_reducible apply fr_purport_Chip_dropResvs K K2
                 | with_reducible apply fr_purport_Chip_refreshOutputs K K2 | with_reducible apply fr_purport_Chip_setMode K K2
                 | with_reducible apply fr_purport_Chip_dropResume K K2 | with_reducible apply keep_ite (P := P)
                 | with_reducible apply keep_forAll (P := P) | with_reducible apply keep_foldl (P := P)
                 | with_reducible apply keep_foldl2 (P := P) | dsimp only | split
                 | with_reducible refine fr_purport_lit K K2 _ ?_ rfl)

theorem fr_purport_Chip_bucketEdge (c : Src) (m : Chip) (h0 : P m) : P (Chip.bucketEdge c m) := by
  unfold Chip.bucketEdge
  try dsimp only
  repeat' (first | with_reducible assumption | with_reducible apply fr_purport_Chip_put K K2
                 | with_reducible apply fr_purport_Chip_setFlag K K2 | with_reducible apply fr_purport_Chip_bump K K2
                 | with_reducible apply fr_purport_Chip_setSrc K K2 | with_reducible apply keep_ite (P := P) | split
                 | with_reducible apply keep_forAll (P := P) | with_reducible apply keep_foldl (P := P)
                 | with_reducible apply keep_foldl2 (P := P) | dsimp only | with_reducible refine fr_purport_lit K K2 _ ?_ rfl)

theorem fr_purport_Chip_severityAct (c : Src) (m : Chip) (h0 : P m) : P (Chip.severityAct c m) := by
  unfold Chip.severityAct
  try dsimp only
  repeat' (first | with_reducible assumption | with_reducible apply fr_purport_Chip_setBit K K2
                 | with_reducible apply fr_purport_Chip_emit K K2 | with_reducible apply fr_purport_Chip_log K K2
                 | with_reducible apply fr_purport_Chip_setSrc K K2 | with_reducible apply fr_purport_Chip_refreshOutputs K K2
                 | with_reducible apply fr_purport_Chip_enterSafe K K2 | with_reducible apply keep_ite (P := P)
                 | with_reducible apply keep_forAll (P := P) | with_reducible apply keep_foldl (P := P)
                 | with_reducible apply keep_foldl2 (P := P) | dsimp only | split
                 | with_reducible refine fr_purport_lit K K2 _ ?_ rfl)

theorem fr_purport_Chip_raise (c : Src) (m : Chip) (h0 : P m) : P (Chip.raise c m) := by
  unfold Chip.raise
  try dsimp only
  repeat' (first | with_reducible assumption | with_reducible apply fr_purport_Chip_setBit K K2
                 | with_reducible apply fr_purport_Chip_bucketEdge K K2 | with_reducible apply fr_purport_Chip_severityAct K K2
                 | with_reducible apply keep_forAll (P := P) | with_reducible apply keep_foldl (P := P)
                 | with_reducible apply keep_foldl2 (P := P) | with_reducible apply keep_ite (P := P) | dsimp only | split
                 | with_reducible refine fr_purport_lit K K2 _ ?_ rfl)

end

end Sys2Proof.Laws
end

