-- ==== Sys2Proof/Laws/Completion/Purlin.lean ====
section
/-!
SUPPORT. Sys2Proof/Laws/Completion/Purlin.lean: the Purlin fabric.
What an effect leaves, said once for the statements that say where a command completes.
-/
namespace Sys2Proof.Laws
open Sys2Proof.Machine

theorem port_set (m : Chip) (p : Nat) (v : PurPort) (h : v ≠ {}) : (m.setPurPort p v).purPort p = v :=
    tabGet_set_ne ({} : PurPort) m.purlin.ports p v h

theorem down_hello (p : Nat) (z : Chip) (_hw : tabWf {} z.purlin.ports = true ∧ (z.purPort p).helloOk = false) :
    (∀ a b : Chip, (tabWf {} a.purlin.ports = true ∧ (a.purPort p).helloOk = false) → b.purlin = a.purlin → (tabWf {} b.purlin.ports =
        true ∧ (b.purPort p).helloOk = false)) ∧
    (∀ (a : Chip) (q : Nat) (v : PurPort), (tabWf {} a.purlin.ports = true ∧ (a.purPort p).helloOk = false) → (v.helloOk = true →
        (a.purPort q).helloOk = true) → (tabWf {} (a.setPurPort q v).purlin.ports = true ∧ ((a.setPurPort q v).purPort p).helloOk =
            false)) := by
  refine ⟨fun a b h e => by unfold Chip.purPort at *; rw [e]; exact h, fun a q v h e => ?_⟩
  refine ⟨tabWf_set _ _ _ _ h.1, ?_⟩
  by_cases hq : p = q
  · subst hq
    have k : (a.setPurPort p v).purPort p = v := tabGet_set_same ({} : PurPort) a.purlin.ports p v h.1
    rw [k]; cases hv : v.helloOk
    · rfl
    · have := e hv; rw [h.2] at this; cases this
  · have k : (a.setPurPort q v).purPort p = a.purPort p := tabGet_set_other ({} : PurPort) a.purlin.ports q p v h.1 hq
    rw [k]; exact h.2

theorem leave_hello (p st : Nat) (m : Chip) (hw : tabWf {} m.purlin.ports = true) : ((m.purLeave p st).purPort p).helloOk = false := by
  unfold Chip.purLeave; dsimp only
  have h0 : tabWf {} (Chip.modPurPort p (fun s =>
      { s with txq := [], fails := 0, run := 0, resync := false, fecTimes := [], tagTimes := [], helloOk := false }) (m.wr (R.PUR_CNT_CW
          p) (BitVec.ofNat 32 (m.codewords p)))).purlin.ports = true ∧
      ((Chip.modPurPort p (fun s =>
          { s with txq := [], fails := 0, run := 0, resync := false, fecTimes := [], tagTimes := [], helloOk := false }) (m.wr
              (R.PUR_CNT_CW p) (BitVec.ofNat 32 (m.codewords p)))).purPort p).helloOk = false := by
    refine ⟨tabWf_set _ _ _ _ hw, ?_⟩
    refine (congrArg PurPort.helloOk (tabGet_set_same ({} : PurPort) m.purlin.ports p _ hw)).trans rfl
  revert h0
  generalize Chip.modPurPort p _ (m.wr (R.PUR_CNT_CW p) (BitVec.ofNat 32 (m.codewords p))) = z
  intro h0
  have k := down_hello p z h0
  have h1 : (fun z : Chip => tabWf {} z.purlin.ports = true ∧ (z.purPort p).helloOk =
      false) (Chip.raise SrcName.purlinLink ((z.setPurState p st).bump (R.PUR_CNT_DOWN p))) :=
    fr_purport_Chip_raise (P := fun z => tabWf {} z.purlin.ports = true ∧ (z.purPort p).helloOk = false) k.1 k.2 _ _ (k.1 z _ h0 rfl)
  generalize Chip.raise SrcName.purlinLink ((z.setPurState p st).bump (R.PUR_CNT_DOWN p)) = y at *
  refine (keep_forAll (P := fun z : Chip => tabWf {} z.purlin.ports = true ∧ (z.purPort p).helloOk = false) _ _ _ ?_ ?_).2
  · exact k.1 y _ h1 rfl
  · exact fun w x hx => fr_purport_Chip_giveBackOpt (P := fun z => tabWf {} z.purlin.ports = true ∧ (z.purPort p).helloOk =
        false) k.1 k.2 _ _ _ hx

theorem down_port (p : Nat) (m : Chip) (ha : m.purAlive p = true) (hw : tabWf {} m.purlin.ports =
    true) : ((m.purDown p).purPort p).helloOk = false := by
  unfold Chip.purDown; unfold Chip.purAlive at ha; simp only [Bool.or_eq_true, beq_iff_eq] at ha
  rcases ha with h | h <;> rw [h] <;> exact leave_hello p 1 m hw

theorem purTx_port (p : Nat) (f : PurFrame) (m : Chip) : ∃ g : Nat, (m.purTx p f).purPort p =
    { m.purPort p with txCtr := (m.purPort p).txCtr + 1, gen := g, lastTx := if isLink f then (m.purPort p).lastTx else m.now, grant := isLink f && (m.purPort p).grant } := by
  unfold Chip.purTx
  exact ⟨_, port_set m p _ (by intro e; have := congrArg (·.txCtr) e; simp at this)⟩

theorem linkSend_port (p : Nat) (l : LinkRec) (m : Chip) : ((m.linkSend p l).purPort p).txCtr = (m.purPort p).txCtr + 1 := by
  obtain ⟨g, h⟩ := purTx_port p (m.linkFrame (.link l) 2 16) m
  unfold Chip.linkSend; rw [h]

theorem purUp_port (p : Nat) (m : Chip) : ((m.purUp p).purPort p).bulk = 4096 ∧ ((m.purUp p).purPort p).mirror = 256 ∧
    ((m.purUp p).purPort p).control = 256 ∧ ((m.purUp p).purPort p).helloOk = false := by
  unfold Chip.purUp Chip.helloOut
  generalize hx : Chip.setPurState p 3 _ = x
  have e : x.purPort p =
      { m.purPort p with bulk := 4096, mirror := 256, control := 256, helloOk := false, hello := none, upAt := m.now, lastTx := m.now, fails := 0, grant := false } := by
    rw [← hx]
    exact (port_of (y := m.setPurPort p
        { m.purPort p with bulk := 4096, mirror := 256, control := 256, helloOk := false, hello := none, upAt := m.now, lastTx := m.now, fails := 0, grant := false }) rfl p).trans (port_set m p _ (by intro e; have := congrArg (·.bulk) e; simp at this))
  have e2 : (x.modPurPort p fun s => { s with helloAt := x.now }).purPort p = { x.purPort p with helloAt := x.now } :=
      port_set x p _ (by intro k; have := congrArg (·.bulk) k; rw [e] at this; simp at this)
  obtain ⟨g, h⟩ := purTx_port p (x.linkFrame (.hello (x.ownHello p)) 2 128) (x.modPurPort p fun s => { s with helloAt := x.now })
  rw [h, e2, e]; exact ⟨rfl, rfl, rfl, rfl⟩

theorem helloOut_port (p : Nat) (m : Chip) (h : 0 < m.now) : ((m.helloOut p).purPort p).helloAt = m.now := by
  unfold Chip.helloOut
  have e2 : (m.modPurPort p fun s => { s with helloAt := m.now }).purPort p = { m.purPort p with helloAt := m.now } :=
      port_set m p _ (by intro k; have := congrArg (·.helloAt) k; simp at this; omega)
  obtain ⟨g, k⟩ := purTx_port p (m.linkFrame (.hello (m.ownHello p)) 2 128) (m.modPurPort p fun s => { s with helloAt := m.now })
  rw [k, e2]

theorem setState_get (p st : Nat) (m : Chip) (h : st < 7) (h0 : 0 < st) : (m.setPurState p st).purState p = st := by
  unfold Chip.setPurState Chip.purState
  rw [get_put_ne _ _ _ (by show (28 : Nat) ≤ 31; decide) (by show (31 : Nat) < 32; decide)]
  · show st % 16 = st; omega
  · show st % 16 ≠ 0; omega

theorem flow_of {x y : Chip} (h : x.purlin.out = y.purlin.out) (d c : Nat) : x.flow d c = y.flow d c := by unfold Chip.flow; rw [h]

theorem flow_set (m : Chip) (v : PurFlow) (d c : Nat) (hd : v.dev = d) (hc : v.cls = c) : (m.setFlow v).flow d c = v := by
  subst hd hc
  unfold Chip.flow Chip.setFlow Chip.onPur
  have : ((m.purlin.out.filter fun f => !(f.dev == v.dev && f.cls == v.cls)) ++ [v]).find? (fun f => f.dev == v.dev && f.cls == v.cls) =
      some v := by
    rw [List.find?_append, List.find?_eq_none.2 (by intro f hf; have := (List.mem_filter.1 hf).2; revert this; cases (_ && _) <;> simp)]
    simp
  dsimp only; rw [this]; rfl

theorem flow_key (m : Chip) (d c : Nat) : (m.flow d c).dev = d ∧ (m.flow d c).cls = c := by
  unfold Chip.flow
  cases h : m.purlin.out.find? fun f => f.dev == d && f.cls == c with
  | none => exact ⟨rfl, rfl⟩
  | some f => have := List.find?_some h; simp at this; exact this

theorem flowRun_none (m : Chip) (d c : Nat) (h : (m.flow d c).waiting = []) : m.flowRun d c = m := by unfold Chip.flowRun; rw [h]; rfl

theorem ack_flow (m : Chip) (d c seq : Nat) (hw : (m.flow d c).waiting = []) (hl : ((m.flow d c).unacked.filter fun u =>
    !decide ((seq + 2 ^ 32 - u.frame.seq) % 2 ^ 32 < 2 ^ 31)).length ≠ (m.flow d c).unacked.length) :
    ((m.flowAck d c seq).flow d c) =
        { m.flow d c with unacked := (m.flow d c).unacked.filter fun u => !decide ((seq + 2 ^ 32 - u.frame.seq) % 2 ^ 32 < 2 ^ 31), ackAt := m.now } := by
  unfold Chip.flowAck; dsimp only; rw [if_neg hl]
  have k := flow_set m
      { m.flow d c with unacked := (m.flow d c).unacked.filter fun u => !decide ((seq + 2 ^ 32 - u.frame.seq) % 2 ^ 32 < 2 ^ 31), ackAt := m.now } d c (flow_key m d c).1 (flow_key m d c).2
  rw [flowRun_none _ _ _ (by rw [k]; exact hw)]; exact k

theorem resend_flow (m : Chip) (d c : Nat) (h : (m.flow d c).unacked.any (fun u => decide (8 ≤ u.resends)) = false) :
    ((m.flowResend d c).flow d c).unacked = (m.flow d c).unacked.map fun u => { u with resends := u.resends + 1 } := by
  unfold Chip.flowResend; dsimp only; rw [if_neg (by rw [h]; simp)]
  refine (congrArg PurFlow.unacked (flow_of (y := m.setFlow
      { m.flow d c with unacked := (m.flow d c).unacked.map fun u => { u with resends := u.resends + 1 }, ackAt := m.now }) (forAll_frame (fun z :
          Chip => z.purlin.out) (m.flow d c).unacked (fun u m => (m.bump R.PUR_CNT_RETX).purRoute none u.frame) _ (fun u x =>
              (eq_purlinout_Chip_purRoute ..).trans rfl)) d c)).trans ?_
  exact congrArg PurFlow.unacked (flow_set m
      { m.flow d c with unacked := (m.flow d c).unacked.map fun u => { u with resends := u.resends + 1 }, ackAt := m.now } d c (flow_key
          m d c).1 (flow_key m d c).2)

theorem nak_same (m : Chip) (d c e : Nat) (h : ((m.flow d c).unacked.filter fun u =>
    !decide ((((e + 2 ^ 32 - 1) % 2 ^ 32) + 2 ^ 32 - u.frame.seq) % 2 ^ 32 < 2 ^ 31)).length =
        (m.flow d c).unacked.length) : m.flowNak d c e = m.flowResend d c := by
  unfold Chip.flowNak Chip.flowAck; dsimp only; rw [if_pos h]

theorem expected_of {x y : Chip} (h : x.purlin.expect = y.purlin.expect) (s c : Nat) : x.expected s c = y.expected s c := by
  unfold Chip.expected
  rw [h]

theorem expected_set (m : Chip) (s c v : Nat) : (m.setExpected s c v).expected s c = v := by
  unfold Chip.expected Chip.setExpected Chip.onPur
  have : ((m.purlin.expect.filter fun e => !(e.1 == s && e.2.1 == c)) ++ [(s, c, v)]).find? (fun e => e.1 == s && e.2.1 == c) = some (s,
      c, v) := by
    rw [List.find?_append, List.find?_eq_none.2 (by intro f hf; have := (List.mem_filter.1 hf).2; revert this; cases (_ && _) <;> simp)]
    simp
  dsimp only; rw [this]; rfl

theorem deliver_expected (p : Nat) (fr : PurFrame) (x : TnXfer) (l : List Byte) (m : Chip) (hb : fr.body = .data x l) (hs : fr.seq =
    m.expected fr.src fr.cls) (_hq : fr.seq < 2 ^ 32) :
    (m.purDeliver p fr).expected fr.src fr.cls = (fr.seq + 1) % 2 ^ 32 := by
  unfold Chip.purDeliver; rw [hb]; dsimp only
  have h0 : ((fr.seq + 2 ^ 32 - m.expected fr.src fr.cls) % 2 ^ 32 == 0) = true := by rw [← hs]; simp
  rw [if_pos (by rw [h0]; simp)]
  generalize hy : Chip.purAnswer fr (.ack fr.cls fr.seq) _ = y
  have e : y.expected fr.src fr.cls = (fr.seq + 1) % 2 ^ 32 := by
    rw [← hy, expected_of (eq_purlinexpect_Chip_purAnswer ..), expected_of (y :=
        m.setExpected fr.src fr.cls ((fr.seq + 1) % 2 ^ 32)) (by unfold Chip.bumpIf; split <;> rfl)]
    exact expected_set ..
  split
  · exact e
  · rw [expected_of (eq_purlinexpect_Chip_purData ..)]; exact e

theorem routed_expected (p : Nat) (fr : PurFrame) (x : TnXfer) (l : List Byte) (m : Chip) (hb : fr.body = .data x l) (hs : fr.seq =
    m.expected fr.src fr.cls) (hq : fr.seq < 2 ^ 32)
    (hh : fr.hops ≠ 0) (hr : m.routeOf fr.epoch fr.src = p) (he : fr.epoch = m.epoch) (hd : m.routeOf fr.epoch fr.dst =
        6) : (m.purRouted p fr).expected fr.src fr.cls = (fr.seq + 1) % 2 ^ 32 := by
  unfold Chip.purRouted; dsimp only
  rw [if_neg hh, if_neg (by simp [hr]), if_neg (by simp [he]), if_pos hd]
  exact deliver_expected p fr x l _ hb (by rw [expected_of (eq_purlinexpect_Chip_giveBack ..)]; exact hs) hq

theorem admit_expect (p : Nat) (fr : PurFrame) (m x : Chip) (h : m.purAdmit p fr = (true, x)) : x.purlin.expect = m.purlin.expect := by
  unfold Chip.purAdmit at h; dsimp only at h
  repeat' split at h
  all_goals first | (have := congrArg Prod.fst h; simp at this; done) | (cases h; rfl)

theorem hello_taken (p : Nat) (h : HelloRec) (m : Chip) (h1 : m.purState p = 3) (h2 : m.stick.fabric.isSome =
    true) (h3 : (m.purPort p).hello = none) (h4 : m.helloPasses p h = true) (h5 : (m.purPort p).txq = []) :
    ((m.takeHello p h).purPort p).helloOk = true ∧ ((m.takeHello p h).purPort p).hello = some h := by
  have e : (m.setPurPort p { m.purPort p with hello := some h, helloOk := true }).purPort p =
      { m.purPort p with hello := some h, helloOk := true } :=
    port_set m p _ (by intro k; have := congrArg (·.helloOk) k; simp at this)
  unfold Chip.takeHello; dsimp only
  rw [if_neg (by cases hf : m.stick.fabric <;> simp_all), if_neg (by rw [h3]; simp), if_pos h4]
  have z : ∀ y : Chip, y.purPort p = { m.purPort p with hello := some h, helloOk := true } → y.purFlush p = y := fun y hy => by
    unfold Chip.purFlush; rw [hy]; dsimp only; rw [h5]; rfl
  rw [z _ e, e]; exact ⟨rfl, rfl⟩

theorem link_taken (p : Nat) (l : LinkRec) (m : Chip) (h2 : m.flag (F.PUR_CFG_lpi_en p) = false) (h3 : (m.purPort p).txq =
    []) (h4 : (m.purPort p).helloOk = true) :
    ((m.takeLink p l).purPort p).bulk = min 4096 ((m.purPort p).bulk + l.bulk) ∧ ((m.takeLink p l).purPort p).mirror =
        min 256 ((m.purPort p).mirror + l.mirror) ∧ ((m.takeLink p l).purPort p).control =
            min 256 ((m.purPort p).control + l.control) := by
  unfold Chip.takeLink; dsimp only
  generalize hx : Chip.modPurPort p _ m = x
  have e : x.purPort p =
      { m.purPort p with bulk := min 4096 ((m.purPort p).bulk + l.bulk), mirror := min 256 ((m.purPort p).mirror + l.mirror), control := min 256 ((m.purPort p).control + l.control), grant := (m.purPort p).grant || l.lpiGrant, rxSwitch := l.rekey.orElse fun _ => (m.purPort p).rxSwitch } := by
    rw [← hx]; exact port_set m p _ (by intro k; have := congrArg (·.helloOk) k; simp [h4] at this)
  have er : x.regs = m.regs := by rw [← hx]; rfl
  clear hx
  have key : ∀ y : Chip, y.purlin = x.purlin → y.regs = m.regs → (if (!(y.purFlush p).mayIdle p) =
      true then y.purFlush p else if l.lpiGrant = true then (y.purFlush p).purSleep p else if l.lpiReq =
          true then ((y.purFlush p).linkSend p { lpiGrant := true }).purSleep p else y.purFlush p) = y := fun y ey eg => by
    have ef : y.purFlush p = y := by unfold Chip.purFlush; rw [port_of ey, e]; dsimp only; rw [h3]; rfl
    rw [ef, if_pos]
    have : y.flag (F.PUR_CFG_lpi_en p) = false := by unfold Chip.flag at h2 ⊢; rw [get_of eg]; exact h2
    unfold Chip.mayIdle; rw [this]; simp
  split
  · rw [key]
    · exact ⟨congrArg PurPort.bulk e, congrArg PurPort.mirror e, congrArg PurPort.control e⟩
    · rfl
    · exact er
  · rw [key x rfl er]; rw [e]; exact ⟨rfl, rfl, rfl⟩

theorem flagged_down (p : Nat) (f : Fld) (m : Chip) (h1 : m.purAlive p = true) (h2 : tabWf {} m.purlin.ports =
    true) (hc : Canon m) (hf : f.lo ≤ f.hi ∧ f.hi < 28 ∧ f.addr =
        (F.PUR_STAT_state p).addr) : (((m.setFlag f).purDown p).purPort p).helloOk = false := by
  refine down_port p (m.setFlag f) ?_ h2
  have e : (m.setFlag f).purState p = m.purState p := by
    unfold Chip.purState Chip.setFlag Chip.markFresh
    refine (get_of (y := m.put f 1) rfl _).trans (get_put_apart m f (F.PUR_STAT_state p) 1 hc.1 ?_ hf.1
        (by show (28 : Nat) ≤ 31; decide) (by omega) (by show (31 : Nat) < 32; decide))
    have hl : (F.PUR_STAT_state p).lo = 28 := rfl
    simp [Laws.fieldsApart, hl]; omega
  unfold Chip.purAlive at *; rw [e]; exact h1

theorem auth_keyed (p : Nat) (t : PurTrain) (m : Chip) (h : (m.purPort p).keyed = true) : ((m.purAuth p t).purPort p).bulk = 4096 ∧
    ((m.purAuth p t).purPort p).mirror = 256 ∧ ((m.purAuth p t).purPort p).control = 256 ∧ ((m.purAuth p t).purPort p).helloOk =
        false := by
  unfold Chip.purAuth; dsimp only; rw [if_pos h]; exact purUp_port p m

theorem auth_passes (p : Nat) (t : PurTrain) (m : Chip) (h : (m.purPort p).keyed = false) (h1 : t.authOk =
    true) (h2 : m.trust.revokedCerts.contains t.certHash = false) : ((m.purAuth p t).purPort p).bulk = 4096 ∧
        ((m.purAuth p t).purPort p).mirror = 256 ∧ ((m.purAuth p t).purPort p).control = 256 ∧ ((m.purAuth p t).purPort p).helloOk =
            false := by
  unfold Chip.purAuth; dsimp only; rw [if_neg (by simp [h]), if_neg (by simp only [h1, h2]; decide)]; exact purUp_port p _

theorem train_fails (dt p : Nat) (t : PurTrain) (m0 m : Chip) (hm : m = elapse dt m0) (h1 : m.purState p = 1) (h2 : t.ok = false) :
    ((purlinTrain dt p t m0).purPort p).fails = (m.purPort p).fails + 1 ∧ ((purlinTrain dt p t m0).purPort p).tryAt =
        m.now + 100000000 := by
  unfold purlinTrain; dsimp only; rw [← hm]; rw [if_neg (by simp [h1]), if_pos (by simp [h2])]
  have e : (m.modPurPort p fun s => { s with fails := (m.purPort p).fails + 1, tryAt := m.now + 100000000 }).purPort p =
      { m.purPort p with fails := (m.purPort p).fails + 1, tryAt := m.now + 100000000 } :=
    port_set m p _ (by intro k; have := congrArg (·.fails) k; simp at this)
  split
  · exact ⟨congrArg PurPort.fails e, congrArg PurPort.tryAt e⟩
  · rw [e]; exact ⟨rfl, rfl⟩

theorem rekey_port (p : Nat) (g : Nat × Nat) (v : PurPort) (l : LinkRec) (m : Chip) (h : v.txSwitch =
    some g) : (((m.setPurPort p v).linkSend p l).purPort p).txSwitch = some g := by
  unfold Chip.linkSend
  obtain ⟨k, e⟩ := purTx_port p ((m.setPurPort p v).linkFrame (.link l) 2 16) (m.setPurPort p v)
  rw [e, port_set m p v (by intro e; rw [e] at h; cases h)]; exact h

theorem fec_port (p : Nat) (l : List Nat) (m : Chip) :
    let x := ((m.setPurPort p { m.purPort p with fecTimes := l, run := 1, resync := true }).setFlag (F.PUR_STAT_fec_uncorr p)).bump
        (R.PUR_CNT_UNCORR p)
    (x.purPort p).run = 1 ∧ (x.purPort p).resync = true ∧ (x.purPort p).fecTimes = l := by
  have e := port_set m p { m.purPort p with fecTimes := l, run := 1, resync := true }
      (by intro k; have := congrArg (·.resync) k; simp at this)
  refine ⟨?_, ?_, ?_⟩
  · exact (congrArg PurPort.run ((port_of (y := m.setPurPort p { m.purPort p with fecTimes := l, run := 1, resync := true }) rfl
        p).trans e))
  · exact (congrArg PurPort.resync ((port_of (y := m.setPurPort p { m.purPort p with fecTimes := l, run := 1, resync := true }) rfl
        p).trans e))
  · exact (congrArg PurPort.fecTimes ((port_of (y := m.setPurPort p { m.purPort p with fecTimes := l, run := 1, resync := true }) rfl
        p).trans e))

theorem guardMiss_port (p : Nat) (m : Chip) : ((m.guardMiss p).purPort p).misses = (m.purPort p).misses + 1 := by
  unfold Chip.guardMiss; dsimp only
  have e := port_set m p { m.purPort p with misses := (m.purPort p).misses + 1 }
      (by intro k; have := congrArg (·.misses) k; simp at this)
  refine (congrArg PurPort.misses ((port_of (y := m.setPurPort p { m.purPort p with misses := (m.purPort p).misses + 1 }) ?_ p).trans
      e))
  unfold Chip.setPurState; split <;> rfl

theorem wake_empty (p : Nat) (b : Bool) (x : Chip) (h : (x.purPort p).txq = []) : ((x.linkSend p { busy := b }).purPort p).txq = [] :=
    by
  unfold Chip.linkSend
  obtain ⟨k, e⟩ := purTx_port p (x.linkFrame (.link { busy := b }) 2 16) x
  rw [e]; exact h

theorem wakePort_flows (p n : Nat) (y : Chip) (h : (y.purPort p).txq = []) (hn : 0 < n) : (((y.modPurPort p fun s =>
    { s with upAt := n, lastTx := n }).setPurState p 3).purFlush p).purState p = 3 := by
  have e : ((y.modPurPort p fun s => { s with upAt := n, lastTx := n }).setPurState p 3).purPort p =
      { y.purPort p with upAt := n, lastTx := n } :=
    (port_of (y := y.setPurPort p { y.purPort p with upAt := n, lastTx := n }) rfl p).trans (port_set y p _
        (by intro k; have := congrArg (·.upAt) k; simp at this; omega))
  unfold Chip.purFlush; rw [e]; dsimp only; rw [h]
  exact setState_get p 3 _ (by decide) (by decide)

theorem reenable_port (p : Nat) (m : Chip) (h : (m.purPort p).keyed = true) : ((m.modPurPort p fun s =>
    { s with misses := 0 }).purPort p).misses = 0 := by
  have e := port_set m p { m.purPort p with misses := 0 } (by intro k; have := congrArg (·.keyed) k; simp [h] at this)
  exact congrArg PurPort.misses e

/-! the classifier heads -/

theorem head_of {x y : Chip} (h : x.heads = y.heads) (n : Nat) : x.head n = y.head n := by unfold Chip.head; rw [h]

end Sys2Proof.Laws
end

