-- ==== Sys2Proof/Laws/Completion/Adapt.lean ====
section
/-!
SUPPORT. Sys2Proof/Laws/Completion/Adapt.lean: the classifier heads and the text jobs.
What an effect leaves, said once for the statements that say where a command completes.
-/
namespace Sys2Proof.Laws
open Sys2Proof.Machine

theorem head_set (m : Chip) (n : Nat) (v : HeadState) (h : v ≠ {}) : (m.setHead n v).head n = v :=
    tabGet_set_ne ({} : HeadState) m.heads n v h

theorem label_head (h id session : Nat) (l : List Nat) (x : Chip) (v : HeadState) (hv : v ≠ {}) : ((((x.setHead h v).storeLabel h
    id).answer session "status" l).head h).labelled = v.labelled := by
  rw [head_of ((eq_heads_Chip_answer ..).trans (eq_heads_Chip_storeLabel ..)), head_set x h v hv]

theorem heads_show (h n : Nat) (x y : Chip) (e : x.heads = y.heads) : (x.showHead h).head n = y.head n := by
  rw [head_of (eq_heads_Chip_showHead ..)]; exact head_of e n

theorem shown_head (h : Nat) (v : HeadState) (f : Fld) (e : Nat) (x : Chip) (hv : v ≠ {}) : ((((x.setHead h v).put f e).showHead h).head
    h) = v :=
  (heads_show h h _ (x.setHead h v) (put_heads ..)).trans (head_set x h v hv)

theorem cand_head (h : Nat) (r : HeadRec) (vals : List Sample) (l : List Nat) (m : Chip) : ((m.formCandidate h r vals l).head h).cand =
    some (Config.sha384 (serveBytes r l), serveBytes r l) := by
  have e : (m.formCandidate h r vals l).head h = { m.head h with cand := some (Config.sha384 (serveBytes r l), serveBytes r l) } := by
    unfold Chip.formCandidate; dsimp only
    exact (heads_show h h _ (m.setHead h { m.head h with cand := some (Config.sha384 (serveBytes r l), serveBytes r l) })
        (by rw [emit_heads]; unfold Chip.wr64; rw [wr_heads, wr_heads, put_heads, put_heads])).trans (head_set m h _
            (by intro e; have := congrArg (·.cand) e; simp at this))
  rw [e]

theorem endRun_cand (h : Nat) (r : HeadRec) (u : TrainRun) (m : Chip) : ((m.endRun h r u).head h).cand =
    some (Config.sha384 (serveBytes r (m.head h).master), serveBytes r (m.head h).master) := by
  unfold Chip.endRun; exact cand_head ..

theorem step_head (h j : Nat) (u : TrainRun) (w ce : List Nat) (x m : Chip) (hx : x =
    ((m.cmErrs { cmCe := ce, cmUe := [] }).setHead h { m.head h with run := some u, master := w }).stepDone j) (k _n : Nat) (b : Bool)
        (e : Nat) :
    let y := ((((x.bump (R.ADAPT_CNT_STEP h)).bumpBy (R.ADAPT_CNT_SKIP h) k).setFlagIf b (F.ADAPT_STAT_masked h)).put
        (F.ADAPT_STAT_epoch h) e)
    (y.head h).run = some u ∧ (y.head h).master = w := by
  have e1 : x.head h = { m.head h with run := some u, master := w } := by
    rw [hx, head_of (eq_heads_Chip_stepDone ..)]; exact head_set _ h _ (by intro e; have := congrArg (·.run) e; simp at this)
  have e2 : ∀ z : Chip, ((z.setFlagIf b (F.ADAPT_STAT_masked h)).put (F.ADAPT_STAT_epoch h) e).heads = z.heads := fun z =>
      by unfold Chip.setFlagIf; split <;> rfl
  dsimp only
  have e3 : ((((x.bump (R.ADAPT_CNT_STEP h)).bumpBy (R.ADAPT_CNT_SKIP h) k).setFlagIf b (F.ADAPT_STAT_masked h)).put (F.ADAPT_STAT_epoch
      h) e).head h = x.head h :=
    head_of ((e2 _).trans rfl) h
  rw [e3, e1]; exact ⟨rfl, rfl⟩

theorem stop_head (h : Nat) (t : TrainRun) (m : Chip) (h1 : (m.head h).run =
    some t) : ((m.setHead h { m.head h with run := (m.head h).run.map fun t => { t with stopDue := true } }).head h).run =
        some { t with stopDue := true } := by
  rw [head_set m h _ (by intro e; have := congrArg (·.run) e; simp [h1] at this)]; simp [h1]

theorem due_head (h : Nat) (a : Nat × Approval) (b : Option Approval) (x : Chip) (v : HeadState) : (((x.setHead h
    { v with due := some a, stored := b }).showHead h).head h).due = some a ∧
        (((x.setHead h { v with due := some a, stored := b }).showHead h).head h).stored = b := by
  rw [head_of (eq_heads_Chip_showHead ..), head_set x h _ (by intro e; have := congrArg (·.due) e; simp at this)]; exact ⟨rfl, rfl⟩

theorem committed_head (h : Nat) (m x : Chip) (hs : (m.head h).stored ≠ none) : (((x.setHead h { m.head h with due := none }).showHead
    h).head h).due = none ∧ (((x.setHead h { m.head h with due := none }).showHead h).head h).stored = (m.head h).stored := by
  rw [head_of (eq_heads_Chip_showHead ..), head_set x h _ (by intro e; exact hs (congrArg (·.stored) e))]; exact ⟨rfl, rfl⟩

theorem any_map_ne {l : List Sample} {p : Sample → Bool} (h : l.any p = true) (f : Sample → Sample) : l.map f ≠ [] := by
  intro e; rw [List.map_eq_nil_iff] at e; rw [e] at h; cases h

theorem insert_ne (le : Sample → Sample → Bool) (a : Sample) (l : List Sample) : insertBy le a l ≠ [] := by
  cases l with
  | nil => simp [insertBy]
  | cons b t => unfold insertBy; split <;> simp

/-! text jobs and housekeeping -/

theorem end_text (j : Nat) (q : Query) (r : Nat) (m : Chip) : (m.endQuery j q r).text.queries = m.text.queries.filter fun z => !(z.1 ==
    j && z.2.id == q.id) := by
  unfold Chip.endQuery; dsimp only
  rw [eq_text_Chip_showText, put_text, bump_text, eq_text_Chip_chunk]; rfl

theorem sensor_hk (w h c : Src) (t : Int) (m : Chip) : (m.dieSources w h c t).hk = m.hk := eq_hk_Chip_dieSources ..

end Sys2Proof.Laws
end

