-- ==== Sys2Proof/Laws/Frames/Fire.lean ====
section
/-!
SUPPORT. Sys2Proof/Laws/Frames/Fire.lean: the operations that leave the firing system alone, a lemma for each. `fr_…` carries a property that
depends on nothing else across the operation; `eq_…` says that it reads as before.
-/
namespace Sys2Proof.Laws
open Sys2Proof.Machine

section
variable {P : Chip → Prop} (K : ∀ a b : Chip, P a → b.fire = a.fire → P b)
include K

theorem fr_fire_lit (m : Chip) {regs time encs fire pegs fio sup boot bays engs mem sramValid sramBad stick wit cams pocs pipes rowPipes
    replays screens pp tenon purlin latches fresh heads eth subs trust text hk nvLog out free} (h : P m) (e0 : fire =
        m.fire) : P (Chip.mk regs time encs fire pegs fio sup boot bays engs mem sramValid sramBad stick wit cams pocs pipes rowPipes
            replays screens pp tenon purlin latches fresh heads eth subs trust text hk nvLog out free) := K _ _ h e0

theorem fr_fire_Chip_wr (m : Chip) (a : Nat) (v : Word) (h0 : P m) : P (Chip.wr m a v) := K _ _ h0 rfl

theorem fr_fire_Chip_put (m : Chip) (f : Fld) (v : Nat) (h0 : P m) : P (Chip.put m f v) := K _ _ h0 rfl

theorem fr_fire_Chip_markFresh (a i : Nat) (m : Chip) (h0 : P m) : P (Chip.markFresh a i m) := K _ _ h0 rfl

theorem fr_fire_Chip_setFlag (m : Chip) (f : Fld) (h0 : P m) : P (Chip.setFlag m f) := K _ _ h0 rfl

theorem fr_fire_Chip_bumpBy (m : Chip) (a n : Nat) (h0 : P m) : P (Chip.bumpBy m a n) := K _ _ h0 rfl

theorem fr_fire_Chip_bump (m : Chip) (a : Nat) (h0 : P m) : P (Chip.bump m a) := K _ _ h0 rfl

theorem fr_fire_Chip_emit (m : Chip) (e : Emit) (h0 : P m) : P (Chip.emit m e) := K _ _ h0 rfl

theorem fr_fire_elapse (dt : Nat) (m : Chip) (h0 : P m) : P (elapse dt m) := K _ _ h0 rfl

theorem fr_fire_Chip_setPipe (m : Chip) (n : Nat) (v : PipeState) (h0 : P m) : P (Chip.setPipe m n v) := K _ _ h0 rfl

theorem fr_fire_Chip_take (dt : Nat) (eff : Chip → Chip) (m : Chip) (h0 : ∀ x0, P x0 →
    P (eff x0)) (h1 : P m) : P (Chip.take dt eff m) := by
  unfold Chip.take
  try dsimp only
  repeat'
    first
      | with_reducible
          first
            | assumption | apply h0 | apply fr_fire_elapse K | apply keep_ite (P := P)
      | (intro _) | dsimp only | split | with_reducible refine fr_fire_lit K _ ?_ rfl

theorem fr_fire_Chip_onPur (f : PurlinState → PurlinState) (m : Chip) (h0 : P m) : P (Chip.onPur f m) := K _ _ h0 rfl

theorem fr_fire_Chip_setPurPort (p : Nat) (v : PurPort) (m : Chip) (h0 : P m) : P (Chip.setPurPort p v m) := K _ _ h0 rfl

theorem fr_fire_Chip_modPurPort (p : Nat) (f : PurPort → PurPort) (m : Chip) (h0 : P m) : P (Chip.modPurPort p f m) := K _ _ h0 rfl

theorem fr_fire_Chip_purTx (p : Nat) (f : PurFrame) (m : Chip) (h0 : P m) : P (Chip.purTx p f m) := K _ _ h0 rfl

theorem fr_fire_Chip_linkSend (p : Nat) (l : LinkRec) (m : Chip) (h0 : P m) : P (Chip.linkSend p l m) := K _ _ h0 rfl

theorem fr_fire_Chip_giveBack (p : Nat) (f : PurFrame) (m : Chip) (h0 : P m) : P (Chip.giveBack p f m) := by
  unfold Chip.giveBack
  try dsimp only
  repeat'
    first
      | with_reducible
          first
            | assumption | apply fr_fire_Chip_linkSend K | apply keep_ite (P := P)
      | dsimp only | split | with_reducible refine fr_fire_lit K _ ?_ rfl

theorem fr_fire_Chip_giveBackOpt (via : Option Nat) (f : PurFrame) (m : Chip) (h0 : P m) : P (Chip.giveBackOpt via f m) := by
  unfold Chip.giveBackOpt
  try dsimp only
  repeat'
    first
      | with_reducible
          first
            | assumption | apply fr_fire_Chip_giveBack K
      | split | dsimp only | with_reducible refine fr_fire_lit K _ ?_ rfl

theorem fr_fire_Chip_purPump (p : Nat) (y0 : Nat) (y1 : Chip) (h0 : P y1) : P (Chip.purPump p y0 y1) := by
  induction y0 generalizing y1 with
  | zero => exact h0
  | succ n ih =>
    unfold Chip.purPump
    try dsimp only
    repeat'
      first
        | with_reducible
            first
              | assumption | apply ih | apply fr_fire_Chip_setPurPort K | apply fr_fire_Chip_purTx K | apply fr_fire_Chip_giveBackOpt K
              | apply keep_ite (P := P)
        | (intro _) | split | with_reducible refine fr_fire_lit K _ ?_ rfl

theorem fr_fire_Chip_purFlush (p : Nat) (m : Chip) (h0 : P m) : P (Chip.purFlush p m) := by
  unfold Chip.purFlush
  try dsimp only
  repeat'
    first
      | with_reducible
          first
            | assumption | apply fr_fire_Chip_purPump K
      | dsimp only | split | with_reducible refine fr_fire_lit K _ ?_ rfl

theorem fr_fire_Chip_mirrorOut (body : PurBody) (length : Nat) (m : Chip) (h0 : P m) : P (Chip.mirrorOut body length m) := by
  unfold Chip.mirrorOut
  try dsimp only
  repeat'
    first
      | with_reducible
          first
            | assumption | apply fr_fire_Chip_modPurPort K | apply fr_fire_Chip_purFlush K | apply keep_ite (P := P)
      | (intro _) | dsimp only | split | with_reducible refine fr_fire_lit K _ ?_ rfl

theorem fr_fire_Chip_putByte (m : Chip) (g : Nat) (b : Byte) (h0 : P m) : P (Chip.putByte m g b) := by
  unfold Chip.putByte
  try dsimp only
  repeat'
    first
      | with_reducible
          first
            | assumption | apply keep_ite (P := P)
      | (intro _) | dsimp only | split | with_reducible refine fr_fire_lit K _ ?_ rfl

theorem fr_fire_Chip_putBytes (m : Chip) (g : Nat) (y0 : List Byte) (h0 : P m) : P (Chip.putBytes m g y0) := by
  induction y0 generalizing m g with
  | nil => exact h0
  | cons b t ih => exact ih _ _ (fr_fire_Chip_putByte K _ _ _ h0)

theorem fr_fire_Chip_purRoute (via : Option Nat) (f : PurFrame) (m : Chip) (h0 : P m) : P (Chip.purRoute via f m) := by
  unfold Chip.purRoute
  try dsimp only
  repeat'
    first
      | with_reducible
          first
            | assumption | apply fr_fire_Chip_bump K | apply fr_fire_Chip_modPurPort K | apply fr_fire_Chip_giveBackOpt K
            | apply fr_fire_Chip_purFlush K | apply keep_ite (P := P)
      | (intro _) | dsimp only | split | with_reducible refine fr_fire_lit K _ ?_ rfl

theorem fr_fire_Chip_setFlow (v : PurFlow) (m : Chip) (h0 : P m) : P (Chip.setFlow v m) := K _ _ h0 rfl

theorem fr_fire_Chip_flowDrain (dev cls : Nat) (y0 : Nat) (y1 : Chip) (h0 : P y1) : P (Chip.flowDrain dev cls y0 y1) := by
  induction y0 generalizing y1 with
  | zero => exact h0
  | succ n ih =>
    unfold Chip.flowDrain
    try dsimp only
    repeat'
      first
        | with_reducible
            first
              | assumption | apply ih | apply fr_fire_Chip_purRoute K | apply fr_fire_Chip_setFlow K | apply keep_ite (P := P)
        | (intro _) | split | with_reducible refine fr_fire_lit K _ ?_ rfl

theorem fr_fire_Chip_flowRun (dev cls : Nat) (m : Chip) (h0 : P m) : P (Chip.flowRun dev cls m) := by
  unfold Chip.flowRun
  try dsimp only
  repeat'
    first
      | with_reducible
          first
            | assumption | apply fr_fire_Chip_flowDrain K
      | dsimp only | split | with_reducible refine fr_fire_lit K _ ?_ rfl

theorem fr_fire_Chip_flowSend (dev cls : Nat) (body : PurBody) (length : Nat) (m : Chip) (h0 : P m) : P (Chip.flowSend dev cls body
    length m) := by
  unfold Chip.flowSend
  try dsimp only
  repeat'
    first
      | with_reducible
          first
            | assumption | apply fr_fire_Chip_setFlow K | apply fr_fire_Chip_flowRun K
      | dsimp only | split | with_reducible refine fr_fire_lit K _ ?_ rfl

theorem fr_fire_Chip_dataSend (dev closeBay space unit dst tag : Nat) (bytes : List Byte) (m : Chip) (h0 : P m) : P (Chip.dataSend dev
    closeBay space unit dst tag bytes m) := by
  unfold Chip.dataSend
  try dsimp only
  repeat'
    first
      | with_reducible
          first
            | assumption | apply fr_fire_Chip_take K | apply fr_fire_Chip_flowSend K | apply keep_forAll (P := P)
            | apply keep_ite (P := P)
      | (intro _) | dsimp only | split | with_reducible refine fr_fire_lit K _ ?_ rfl

theorem fr_fire_Chip_feed (row a : Nat) (bytes : List Byte) (m : Chip) (h0 : P m) : P (Chip.feed row a bytes m) := by
  unfold Chip.feed
  try dsimp only
  repeat'
    first
      | with_reducible
          first
            | assumption | apply fr_fire_Chip_dataSend K | apply keep_ite (P := P)
      | (intro _) | dsimp only | split | with_reducible refine fr_fire_lit K _ ?_ rfl

theorem fr_fire_Chip_feedHeader (row : Nat) (bytes : List Byte) (m : Chip) (h0 : P m) : P (Chip.feedHeader row bytes m) := by
  unfold Chip.feedHeader
  try dsimp only
  repeat'
    first
      | with_reducible
          first
            | assumption | apply fr_fire_Chip_feed K
      | (intro _) | dsimp only | split | with_reducible refine fr_fire_lit K _ ?_ rfl

theorem fr_fire_Chip_onGang (g : Gang) (f : Nat → Chip → Chip) (m : Chip) (h0 : ∀ x0 x1, P x1 →
    P (f x0 x1)) (h1 : P m) : P (Chip.onGang g f m) := by
  unfold Chip.onGang
  try dsimp only
  repeat'
    first
      | with_reducible
          first
            | assumption | apply h0 | apply keep_forAll (P := P)
      | (intro _) | dsimp only | split | with_reducible refine fr_fire_lit K _ ?_ rfl

theorem fr_fire_Chip_lpFlag (g : Gang) (f : Nat → Fld) (m : Chip) (h0 : P m) : P (Chip.lpFlag g f m) := by
  unfold Chip.lpFlag
  try dsimp only
  repeat'
    first
      | with_reducible
          first
            | assumption | apply fr_fire_Chip_setFlag K | apply fr_fire_Chip_onGang K
      | (intro _) | dsimp only | split | with_reducible refine fr_fire_lit K _ ?_ rfl

theorem fr_fire_Chip_showPipe (g : Gang) (m : Chip) (h0 : P m) : P (Chip.showPipe g m) := by
  unfold Chip.showPipe
  try dsimp only
  repeat'
    first
      | with_reducible
          first
            | assumption | apply fr_fire_Chip_put K | apply fr_fire_Chip_onGang K | apply keep_ite (P := P)
      | (intro _) | split | dsimp only | with_reducible refine fr_fire_lit K _ ?_ rfl

theorem fr_fire_Chip_syncReset (g : Gang) (m : Chip) (h0 : P m) : P (Chip.syncReset g m) := by
  unfold Chip.syncReset
  try dsimp only
  repeat'
    first
      | with_reducible
          first
            | assumption | apply fr_fire_Chip_bump K | apply fr_fire_Chip_setPipe K | apply fr_fire_Chip_lpFlag K
            | apply keep_ite (P := P)
      | dsimp only | split | with_reducible refine fr_fire_lit K _ ?_ rfl

theorem fr_fire_Chip_writeSnapshot (g : Gang) (strip : Nat) (m : Chip) (h0 : P m) : P (Chip.writeSnapshot g strip m) := by
  unfold Chip.writeSnapshot
  try dsimp only
  repeat'
    first
      | with_reducible
          first
            | assumption | apply fr_fire_Chip_setPipe K | apply fr_fire_Chip_putBytes K | apply fr_fire_Chip_feed K
            | apply keep_ite (P := P)
      | (intro _) | split | dsimp only | with_reducible refine fr_fire_lit K _ ?_ rfl

theorem fr_fire_Chip_stripBoundary (g : Gang) (s : Nat) (m : Chip) (h0 : P m) : P (Chip.stripBoundary g s m) := by
  unfold Chip.stripBoundary
  try dsimp only
  repeat'
    first
      | with_reducible
          first
            | assumption | apply fr_fire_Chip_setPipe K | apply fr_fire_Chip_showPipe K | apply fr_fire_Chip_syncReset K
            | apply fr_fire_Chip_writeSnapshot K | apply keep_ite (P := P)
      | split | dsimp only | with_reducible refine fr_fire_lit K _ ?_ rfl

end

theorem eq_fire_Chip_mirrorOut (body : PurBody) (length : Nat) (m : Chip) : (Chip.mirrorOut body length m).fire = m.fire :=
  fr_fire_Chip_mirrorOut (P := fun z => z.fire = m.fire) (fun _ _ h e => e.trans h) body length m rfl

theorem eq_fire_Chip_feedHeader (row : Nat) (bytes : List Byte) (m : Chip) : (Chip.feedHeader row bytes m).fire = m.fire :=
  fr_fire_Chip_feedHeader (P := fun z => z.fire = m.fire) (fun _ _ h e => e.trans h) row bytes m rfl

theorem eq_fire_Chip_lpFlag (g : Gang) (f : Nat → Fld) (m : Chip) : (Chip.lpFlag g f m).fire = m.fire :=
  fr_fire_Chip_lpFlag (P := fun z => z.fire = m.fire) (fun _ _ h e => e.trans h) g f m rfl

theorem eq_fire_Chip_stripBoundary (g : Gang) (s : Nat) (m : Chip) : (Chip.stripBoundary g s m).fire = m.fire :=
  fr_fire_Chip_stripBoundary (P := fun z => z.fire = m.fire) (fun _ _ h e => e.trans h) g s m rfl

end Sys2Proof.Laws
end

