-- ==== Sys2Proof/Laws/Frames/Time.lean ====
section
/-!
SUPPORT. Sys2Proof/Laws/Frames/Time.lean: the operations that leave the time bases alone, a lemma for each. `fr_…` carries a property that
depends on nothing else across the operation; `eq_…` says that it reads as before.
-/
namespace Sys2Proof.Laws
open Sys2Proof.Machine

section
variable {P : Chip → Prop} (K : ∀ a b : Chip, P a → b.time = a.time → P b)
include K

theorem fr_time_lit (m : Chip) {regs time encs fire pegs fio sup boot bays engs mem sramValid sramBad stick wit cams pocs pipes rowPipes
    replays screens pp tenon purlin latches fresh heads eth subs trust text hk nvLog out free} (h : P m) (e0 : time =
        m.time) : P (Chip.mk regs time encs fire pegs fio sup boot bays engs mem sramValid sramBad stick wit cams pocs pipes rowPipes
            replays screens pp tenon purlin latches fresh heads eth subs trust text hk nvLog out free) := K _ _ h e0

theorem fr_time_Chip_wr (m : Chip) (a : Nat) (v : Word) (h0 : P m) : P (Chip.wr m a v) := K _ _ h0 rfl

theorem fr_time_Chip_put (m : Chip) (f : Fld) (v : Nat) (h0 : P m) : P (Chip.put m f v) := K _ _ h0 rfl

theorem fr_time_Chip_markFresh (a i : Nat) (m : Chip) (h0 : P m) : P (Chip.markFresh a i m) := K _ _ h0 rfl

theorem fr_time_Chip_setFlag (m : Chip) (f : Fld) (h0 : P m) : P (Chip.setFlag m f) := K _ _ h0 rfl

theorem fr_time_Chip_setFlagIf (m : Chip) (c : Bool) (f : Fld) (h0 : P m) : P (Chip.setFlagIf m c f) := by
  unfold Chip.setFlagIf
  try dsimp only
  repeat'
    first
      | with_reducible
          first
            | assumption | apply fr_time_Chip_setFlag K | apply keep_ite (P := P)
      | dsimp only | split | with_reducible refine fr_time_lit K _ ?_ rfl

theorem fr_time_Chip_bumpBy (m : Chip) (a n : Nat) (h0 : P m) : P (Chip.bumpBy m a n) := K _ _ h0 rfl

theorem fr_time_Chip_bump (m : Chip) (a : Nat) (h0 : P m) : P (Chip.bump m a) := K _ _ h0 rfl

theorem fr_time_Chip_setBit (m : Chip) (a i : Nat) (h0 : P m) : P (Chip.setBit m a i) := K _ _ h0 rfl

theorem fr_time_Chip_emit (m : Chip) (e : Emit) (h0 : P m) : P (Chip.emit m e) := K _ _ h0 rfl

theorem fr_time_Chip_log (m : Chip) (what : String) (args : List Nat) (h0 : P m) : P (Chip.log m what args) := by
  unfold Chip.log
  try dsimp only
  repeat'
    first
      | with_reducible
          first
            | assumption | apply keep_ite (P := P)
      | dsimp only | split | with_reducible refine fr_time_lit K _ ?_ rfl

theorem fr_time_Chip_setSrc (m : Chip) (h i : Nat) (e : SrcState) (h0 : P m) : P (Chip.setSrc m h i e) := K _ _ h0 rfl

theorem fr_time_Chip_setCam (m : Chip) (n : Nat) (v : CamState) (h0 : P m) : P (Chip.setCam m n v) := K _ _ h0 rfl

theorem fr_time_Chip_setPipe (m : Chip) (n : Nat) (v : PipeState) (h0 : P m) : P (Chip.setPipe m n v) := K _ _ h0 rfl

theorem fr_time_Chip_setRowPipe (m : Chip) (r : Nat) (v : RowPipe) (h0 : P m) : P (Chip.setRowPipe m r v) := K _ _ h0 rfl

theorem fr_time_Chip_toSubs (m : Chip) (r : StreamRec) (h0 : P m) : P (Chip.toSubs m r) := by
  unfold Chip.toSubs
  try dsimp only
  repeat'
    first
      | with_reducible
          first
            | assumption | apply fr_time_Chip_bump K | apply keep_forAll (P := P)
      | (intro _) | dsimp only | split | with_reducible refine fr_time_lit K _ ?_ rfl

theorem fr_time_Chip_release (m : Chip) (r : ResultRec) (h0 : P m) : P (Chip.release m r) := by
  unfold Chip.release
  try dsimp only
  repeat'
    first
      | with_reducible
          first
            | assumption | apply fr_time_Chip_emit K | apply fr_time_Chip_toSubs K
      | dsimp only | split | with_reducible refine fr_time_lit K _ ?_ rfl

theorem fr_time_Chip_onPur (f : PurlinState → PurlinState) (m : Chip) (h0 : P m) : P (Chip.onPur f m) := K _ _ h0 rfl

theorem fr_time_Chip_setPurPort (p : Nat) (v : PurPort) (m : Chip) (h0 : P m) : P (Chip.setPurPort p v m) := K _ _ h0 rfl

theorem fr_time_Chip_modPurPort (p : Nat) (f : PurPort → PurPort) (m : Chip) (h0 : P m) : P (Chip.modPurPort p f m) := K _ _ h0 rfl

theorem fr_time_Chip_purTx (p : Nat) (f : PurFrame) (m : Chip) (h0 : P m) : P (Chip.purTx p f m) := K _ _ h0 rfl

theorem fr_time_Chip_linkSend (p : Nat) (l : LinkRec) (m : Chip) (h0 : P m) : P (Chip.linkSend p l m) := K _ _ h0 rfl

theorem fr_time_Chip_giveBack (p : Nat) (f : PurFrame) (m : Chip) (h0 : P m) : P (Chip.giveBack p f m) := by
  unfold Chip.giveBack
  try dsimp only
  repeat'
    first
      | with_reducible
          first
            | assumption | apply fr_time_Chip_linkSend K | apply keep_ite (P := P)
      | dsimp only | split | with_reducible refine fr_time_lit K _ ?_ rfl

theorem fr_time_Chip_giveBackOpt (via : Option Nat) (f : PurFrame) (m : Chip) (h0 : P m) : P (Chip.giveBackOpt via f m) := by
  unfold Chip.giveBackOpt
  try dsimp only
  repeat'
    first
      | with_reducible
          first
            | assumption | apply fr_time_Chip_giveBack K
      | split | dsimp only | with_reducible refine fr_time_lit K _ ?_ rfl

theorem fr_time_Chip_purPump (p : Nat) (y0 : Nat) (y1 : Chip) (h0 : P y1) : P (Chip.purPump p y0 y1) := by
  induction y0 generalizing y1 with
  | zero => exact h0
  | succ n ih =>
    unfold Chip.purPump
    try dsimp only
    repeat'
      first
        | with_reducible
            first
              | assumption | apply ih | apply fr_time_Chip_setPurPort K | apply fr_time_Chip_purTx K | apply fr_time_Chip_giveBackOpt K
              | apply keep_ite (P := P)
        | (intro _) | split | with_reducible refine fr_time_lit K _ ?_ rfl

theorem fr_time_Chip_purFlush (p : Nat) (m : Chip) (h0 : P m) : P (Chip.purFlush p m) := by
  unfold Chip.purFlush
  try dsimp only
  repeat'
    first
      | with_reducible
          first
            | assumption | apply fr_time_Chip_purPump K
      | dsimp only | split | with_reducible refine fr_time_lit K _ ?_ rfl

theorem fr_time_Chip_mirrorOut (body : PurBody) (length : Nat) (m : Chip) (h0 : P m) : P (Chip.mirrorOut body length m) := by
  unfold Chip.mirrorOut
  try dsimp only
  repeat'
    first
      | with_reducible
          first
            | assumption | apply fr_time_Chip_modPurPort K | apply fr_time_Chip_purFlush K | apply keep_ite (P := P)
      | (intro _) | dsimp only | split | with_reducible refine fr_time_lit K _ ?_ rfl

theorem fr_time_Chip_mirrorFrame (id : Nat) (r : MirrorRec) (m : Chip) (h0 : P m) : P (Chip.mirrorFrame id r m) := by
  unfold Chip.mirrorFrame
  try dsimp only
  repeat'
    first
      | with_reducible
          first
            | assumption | apply fr_time_Chip_mirrorOut K
      | dsimp only | split | with_reducible refine fr_time_lit K _ ?_ rfl

theorem fr_time_Chip_setQueue (m : Chip) (p : Nat) (q : List FEntry) (h0 : P m) : P (Chip.setQueue m p q) := K _ _ h0 rfl

theorem fr_time_Chip_mirrorSend (m : Chip) (r : MirrorRec) (h0 : P m) : P (Chip.mirrorSend m r) := by
  unfold Chip.mirrorSend
  try dsimp only
  repeat'
    first
      | with_reducible
          first
            | assumption | apply fr_time_Chip_mirrorFrame K
      | dsimp only | split | with_reducible refine fr_time_lit K _ ?_ rfl

theorem fr_time_Chip_entryCancelled (m : Chip) (e : FEntry) (h0 : P m) : P (Chip.entryCancelled m e) := by
  unfold Chip.entryCancelled
  try dsimp only
  repeat'
    first
      | with_reducible
          first
            | assumption | apply fr_time_Chip_bump K | apply fr_time_Chip_release K | apply fr_time_Chip_mirrorSend K
            | apply keep_ite (P := P)
      | dsimp only | split | with_reducible refine fr_time_lit K _ ?_ rfl

theorem fr_time_Chip_cancelIn (p : Nat) (c : FEntry → Bool) (m : Chip) (h0 : P m) : P (Chip.cancelIn p c m) := by
  unfold Chip.cancelIn
  try dsimp only
  repeat'
    first
      | with_reducible
          first
            | assumption | apply fr_time_Chip_setQueue K | apply fr_time_Chip_entryCancelled K | apply keep_forAll (P := P)
      | (intro _) | dsimp only | split | with_reducible refine fr_time_lit K _ ?_ rfl

theorem fr_time_Chip_cancelAll (c : FEntry → Bool) (m : Chip) (h0 : P m) : P (Chip.cancelAll c m) := by
  unfold Chip.cancelAll
  try dsimp only
  repeat'
    first
      | with_reducible
          first
            | assumption | apply fr_time_Chip_cancelIn K | apply keep_forAll (P := P)
      | (intro _) | dsimp only | split | with_reducible refine fr_time_lit K _ ?_ rfl

theorem fr_time_Chip_dropResvs (c : Resv → Bool) (m : Chip) (h0 : P m) : P (Chip.dropResvs c m) := K _ _ h0 rfl

theorem fr_time_Chip_refreshOutputs (m : Chip) (h0 : P m) : P (Chip.refreshOutputs m) := by
  unfold Chip.refreshOutputs
  try dsimp only
  repeat'
    first
      | with_reducible
          first
            | assumption | apply fr_time_Chip_put K | apply fr_time_Chip_emit K | apply keep_foldl (P := P) | apply keep_foldl2 (P := P)
            | apply keep_ite (P := P)
      | (intro _) | dsimp only | split | with_reducible refine fr_time_lit K _ ?_ rfl

theorem fr_time_Chip_setMode (new : Nat) (cause : Option Src) (m : Chip) (h0 : P m) : P (Chip.setMode new cause m) := by
  unfold Chip.setMode
  try dsimp only
  repeat'
    first
      | with_reducible
          first
            | assumption | apply fr_time_Chip_put K
      | split | dsimp only | with_reducible refine fr_time_lit K _ ?_ rfl

theorem fr_time_Chip_dropResume (m : Chip) (h0 : P m) : P (Chip.dropResume m) := K _ _ h0 rfl

theorem fr_time_Chip_enterSafe (cause : Option Src) (m : Chip) (h0 : P m) : P (Chip.enterSafe cause m) := by
  unfold Chip.enterSafe
  try dsimp only
  repeat'
    first
      | with_reducible
          first
            | assumption | apply fr_time_Chip_bump K | apply fr_time_Chip_cancelAll K | apply fr_time_Chip_dropResvs K
            | apply fr_time_Chip_refreshOutputs K | apply fr_time_Chip_setMode K | apply fr_time_Chip_dropResume K
            | apply keep_ite (P := P)
      | (intro _) | dsimp only | split | with_reducible refine fr_time_lit K _ ?_ rfl

theorem fr_time_Chip_bucketEdge (c : Src) (m : Chip) (h0 : P m) : P (Chip.bucketEdge c m) := by
  unfold Chip.bucketEdge
  try dsimp only
  repeat'
    first
      | with_reducible
          first
            | assumption | apply fr_time_Chip_put K | apply fr_time_Chip_setFlag K | apply fr_time_Chip_bump K
            | apply fr_time_Chip_setSrc K | apply keep_ite (P := P)
      | split | dsimp only | with_reducible refine fr_time_lit K _ ?_ rfl

theorem fr_time_Chip_severityAct (c : Src) (m : Chip) (h0 : P m) : P (Chip.severityAct c m) := by
  unfold Chip.severityAct
  try dsimp only
  repeat'
    first
      | with_reducible
          first
            | assumption | apply fr_time_Chip_setBit K | apply fr_time_Chip_emit K | apply fr_time_Chip_log K
            | apply fr_time_Chip_setSrc K | apply fr_time_Chip_refreshOutputs K | apply fr_time_Chip_enterSafe K
            | apply keep_ite (P := P)
      | dsimp only | split | with_reducible refine fr_time_lit K _ ?_ rfl

theorem fr_time_Chip_raise (c : Src) (m : Chip) (h0 : P m) : P (Chip.raise c m) := by
  unfold Chip.raise
  try dsimp only
  repeat'
    first
      | with_reducible
          first
            | assumption | apply fr_time_Chip_setBit K | apply fr_time_Chip_bucketEdge K | apply fr_time_Chip_severityAct K
      | dsimp only | split | with_reducible refine fr_time_lit K _ ?_ rfl

theorem fr_time_Chip_putByte (m : Chip) (g : Nat) (b : Byte) (h0 : P m) : P (Chip.putByte m g b) := by
  unfold Chip.putByte
  try dsimp only
  repeat'
    first
      | with_reducible
          first
            | assumption | apply keep_ite (P := P)
      | (intro _) | dsimp only | split | with_reducible refine fr_time_lit K _ ?_ rfl

theorem fr_time_Chip_putBytes (m : Chip) (g : Nat) (y0 : List Byte) (h0 : P m) : P (Chip.putBytes m g y0) := by
  induction y0 generalizing m g with
  | nil => exact h0
  | cons b t ih => exact ih _ _ (fr_time_Chip_putByte K _ _ _ h0)

theorem fr_time_Chip_purRoute (via : Option Nat) (f : PurFrame) (m : Chip) (h0 : P m) : P (Chip.purRoute via f m) := by
  unfold Chip.purRoute
  try dsimp only
  repeat'
    first
      | with_reducible
          first
            | assumption | apply fr_time_Chip_bump K | apply fr_time_Chip_modPurPort K | apply fr_time_Chip_giveBackOpt K
            | apply fr_time_Chip_purFlush K | apply keep_ite (P := P)
      | (intro _) | dsimp only | split | with_reducible refine fr_time_lit K _ ?_ rfl

theorem fr_time_Chip_setFlow (v : PurFlow) (m : Chip) (h0 : P m) : P (Chip.setFlow v m) := K _ _ h0 rfl

theorem fr_time_Chip_flowDrain (dev cls : Nat) (y0 : Nat) (y1 : Chip) (h0 : P y1) : P (Chip.flowDrain dev cls y0 y1) := by
  induction y0 generalizing y1 with
  | zero => exact h0
  | succ n ih =>
    unfold Chip.flowDrain
    try dsimp only
    repeat'
      first
        | with_reducible
            first
              | assumption | apply ih | apply fr_time_Chip_purRoute K | apply fr_time_Chip_setFlow K | apply keep_ite (P := P)
        | (intro _) | split | with_reducible refine fr_time_lit K _ ?_ rfl

theorem fr_time_Chip_flowRun (dev cls : Nat) (m : Chip) (h0 : P m) : P (Chip.flowRun dev cls m) := by
  unfold Chip.flowRun
  try dsimp only
  repeat'
    first
      | with_reducible
          first
            | assumption | apply fr_time_Chip_flowDrain K
      | dsimp only | split | with_reducible refine fr_time_lit K _ ?_ rfl

theorem fr_time_Chip_flowSend (dev cls : Nat) (body : PurBody) (length : Nat) (m : Chip) (h0 : P m) : P (Chip.flowSend dev cls body
    length m) := by
  unfold Chip.flowSend
  try dsimp only
  repeat'
    first
      | with_reducible
          first
            | assumption | apply fr_time_Chip_setFlow K | apply fr_time_Chip_flowRun K
      | dsimp only | split | with_reducible refine fr_time_lit K _ ?_ rfl

theorem fr_time_Chip_dataSend (dev closeBay space unit dst tag : Nat) (bytes : List Byte) (m : Chip) (h0 : P m) : P (Chip.dataSend dev
    closeBay space unit dst tag bytes m) := by
  unfold Chip.dataSend
  try dsimp only
  repeat'
    first
      | with_reducible
          first
            | assumption | apply fr_time_Chip_flowSend K | apply keep_forAll (P := P) | apply keep_ite (P := P)
      | (intro _) | dsimp only | split | with_reducible refine fr_time_lit K _ ?_ rfl

theorem fr_time_Chip_feed (row a : Nat) (bytes : List Byte) (m : Chip) (h0 : P m) : P (Chip.feed row a bytes m) := by
  unfold Chip.feed
  try dsimp only
  repeat'
    first
      | with_reducible
          first
            | assumption | apply fr_time_Chip_dataSend K | apply keep_ite (P := P)
      | (intro _) | dsimp only | split | with_reducible refine fr_time_lit K _ ?_ rfl

theorem fr_time_Chip_cmErrs (er : ReadErrs) (m : Chip) (h0 : P m) : P (Chip.cmErrs er m) := by
  unfold Chip.cmErrs
  try dsimp only
  repeat'
    first
      | with_reducible
          first
            | assumption | apply fr_time_Chip_wr K | apply fr_time_Chip_setFlag K | apply fr_time_Chip_bump K
            | apply fr_time_Chip_raise K | apply keep_forAll (P := P)
      | (intro _) | dsimp only | split | with_reducible refine fr_time_lit K _ ?_ rfl

theorem fr_time_Chip_onGang (g : Gang) (f : Nat → Chip → Chip) (m : Chip) (h0 : ∀ x0 x1, P x1 →
    P (f x0 x1)) (h1 : P m) : P (Chip.onGang g f m) := by
  unfold Chip.onGang
  try dsimp only
  repeat'
    first
      | with_reducible
          first
            | assumption | apply h0 | apply keep_forAll (P := P)
      | (intro _) | dsimp only | split | with_reducible refine fr_time_lit K _ ?_ rfl

theorem fr_time_Chip_lpFlag (g : Gang) (f : Nat → Fld) (m : Chip) (h0 : P m) : P (Chip.lpFlag g f m) := by
  unfold Chip.lpFlag
  try dsimp only
  repeat'
    first
      | with_reducible
          first
            | assumption | apply fr_time_Chip_setFlag K | apply fr_time_Chip_onGang K
      | (intro _) | dsimp only | split | with_reducible refine fr_time_lit K _ ?_ rfl

theorem fr_time_Chip_showPipe (g : Gang) (m : Chip) (h0 : P m) : P (Chip.showPipe g m) := by
  unfold Chip.showPipe
  try dsimp only
  repeat'
    first
      | with_reducible
          first
            | assumption | apply fr_time_Chip_put K | apply fr_time_Chip_onGang K | apply keep_ite (P := P)
      | (intro _) | split | dsimp only | with_reducible refine fr_time_lit K _ ?_ rfl

theorem fr_time_Chip_syncReset (g : Gang) (m : Chip) (h0 : P m) : P (Chip.syncReset g m) := by
  unfold Chip.syncReset
  try dsimp only
  repeat'
    first
      | with_reducible
          first
            | assumption | apply fr_time_Chip_bump K | apply fr_time_Chip_setPipe K | apply fr_time_Chip_lpFlag K
            | apply keep_ite (P := P)
      | dsimp only | split | with_reducible refine fr_time_lit K _ ?_ rfl

theorem fr_time_Chip_writeLineRec (c : CameraRec) (x : InLine) (m : Chip) (h0 : P m) : P (Chip.writeLineRec c x m) := by
  unfold Chip.writeLineRec
  try dsimp only
  repeat'
    first
      | with_reducible
          first
            | assumption | apply fr_time_Chip_setCam K | apply fr_time_Chip_putBytes K | apply fr_time_Chip_feed K
            | apply keep_ite (P := P)
      | split | dsimp only | with_reducible refine fr_time_lit K _ ?_ rfl

theorem fr_time_Chip_writeSnapshot (g : Gang) (strip : Nat) (m : Chip) (h0 : P m) : P (Chip.writeSnapshot g strip m) := by
  unfold Chip.writeSnapshot
  try dsimp only
  repeat'
    first
      | with_reducible
          first
            | assumption | apply fr_time_Chip_setPipe K | apply fr_time_Chip_putBytes K | apply fr_time_Chip_feed K
            | apply keep_ite (P := P)
      | (intro _) | split | dsimp only | with_reducible refine fr_time_lit K _ ?_ rfl

theorem fr_time_Chip_stripBoundary (g : Gang) (s : Nat) (m : Chip) (h0 : P m) : P (Chip.stripBoundary g s m) := by
  unfold Chip.stripBoundary
  try dsimp only
  repeat'
    first
      | with_reducible
          first
            | assumption | apply fr_time_Chip_setPipe K | apply fr_time_Chip_showPipe K | apply fr_time_Chip_syncReset K
            | apply fr_time_Chip_writeSnapshot K | apply keep_ite (P := P)
      | split | dsimp only | with_reducible refine fr_time_lit K _ ?_ rfl

theorem fr_time_Chip_writeLevel (r slot l k : Nat) (px : List Pix) (m : Chip) (h0 : P m) : P (Chip.writeLevel r slot l k px m) := by
  unfold Chip.writeLevel
  try dsimp only
  repeat'
    first
      | with_reducible
          first
            | assumption | apply fr_time_Chip_putBytes K
      | dsimp only | split | with_reducible refine fr_time_lit K _ ?_ rfl

theorem fr_time_Chip_beginStrip (r s idx : Nat) (m : Chip) (h0 : P m) : P (Chip.beginStrip r s idx m) := by
  unfold Chip.beginStrip
  try dsimp only
  repeat'
    first
      | with_reducible
          first
            | assumption | apply fr_time_Chip_bump K | apply fr_time_Chip_setRowPipe K | apply fr_time_Chip_lpFlag K
            | apply fr_time_Chip_writeLevel K | apply keep_forAll (P := P) | apply keep_ite (P := P)
      | (intro _) | dsimp only | split | with_reducible refine fr_time_lit K _ ?_ rfl

theorem fr_time_Chip_levelLine (r : Nat) (slot : Option Nat) (y0 : Nat) (y1 : Nat) (y2 : Nat) (y3 : List Pix) (y4 : Chip) (h0 : P y4) :
    P (Chip.levelLine r slot y0 y1 y2 y3 y4) := by
  induction y0 generalizing y1 y2 y3 y4 with
  | zero => exact h0
  | succ n ih =>
    unfold Chip.levelLine
    try dsimp only
    repeat'
      first
        | with_reducible
            first
              | assumption | apply ih | apply fr_time_Chip_setRowPipe K | apply fr_time_Chip_writeLevel K | apply keep_ite (P := P)
        | (intro _) | dsimp only | split | with_reducible refine fr_time_lit K _ ?_ rfl

theorem fr_time_Chip_queueFull (r idx : Nat) (m : Chip) (h0 : P m) : P (Chip.queueFull r idx m) := by
  unfold Chip.queueFull
  try dsimp only
  repeat'
    first
      | with_reducible
          first
            | assumption | apply fr_time_Chip_bump K | apply fr_time_Chip_setRowPipe K | apply fr_time_Chip_lpFlag K
            | apply keep_forAll (P := P) | apply keep_ite (P := P)
      | (intro _) | split | dsimp only | with_reducible refine fr_time_lit K _ ?_ rfl

theorem fr_time_Chip_rowLine (r idx : Nat) (count : Int) (tb3 : Nat) (cut : Bool) (px0 : List Pix) (m : Chip) (h0 : P m) : P
    (Chip.rowLine r idx count tb3 cut px0 m) := by
  unfold Chip.rowLine
  try dsimp only
  repeat'
    first
      | with_reducible
          first
            | assumption | apply fr_time_Chip_setRowPipe K | apply fr_time_Chip_beginStrip K | apply fr_time_Chip_levelLine K
            | apply fr_time_Chip_queueFull K | apply keep_ite (P := P)
      | (intro _) | split | dsimp only | with_reducible refine fr_time_lit K _ ?_ rfl

theorem fr_time_Chip_stitchReady (r : Nat) (y0 : Nat) (y1 : Chip) (h0 : P y1) : P (Chip.stitchReady r y0 y1) := by
  induction y0 generalizing y1 with
  | zero => exact h0
  | succ n ih =>
    unfold Chip.stitchReady
    try dsimp only
    repeat'
      first
        | with_reducible
            first
              | assumption | apply ih | apply fr_time_Chip_setRowPipe K | apply fr_time_Chip_rowLine K | apply keep_ite (P := P)
        | (intro _) | dsimp only | split | with_reducible refine fr_time_lit K _ ?_ rfl

theorem fr_time_Chip_alignReady (g : Gang) (y0 : Nat) (y1 : Chip) (h0 : P y1) : P (Chip.alignReady g y0 y1) := by
  induction y0 generalizing y1 with
  | zero => exact h0
  | succ n ih =>
    unfold Chip.alignReady
    try dsimp only
    repeat'
      first
        | with_reducible
            first
              | assumption | apply ih | apply fr_time_Chip_bump K | apply fr_time_Chip_setPipe K | apply fr_time_Chip_setRowPipe K
              | apply fr_time_Chip_lpFlag K | apply keep_ite (P := P)
        | (intro _) | dsimp only | split | with_reducible refine fr_time_lit K _ ?_ rfl

theorem fr_time_Chip_procLine (g : Gang) (x : InLine) (m : Chip) (h0 : P m) : P (Chip.procLine g x m) := by
  unfold Chip.procLine
  try dsimp only
  repeat'
    first
      | with_reducible
          first
            | assumption | apply fr_time_Chip_bump K | apply fr_time_Chip_setPipe K | apply fr_time_Chip_onGang K
            | apply fr_time_Chip_stripBoundary K | apply fr_time_Chip_stitchReady K | apply fr_time_Chip_alignReady K
            | apply keep_ite (P := P)
      | (intro _) | dsimp only | split | with_reducible refine fr_time_lit K _ ?_ rfl

theorem fr_time_Chip_runPipe (g : Gang) (y0 : Nat) (y1 : Chip) (h0 : P y1) : P (Chip.runPipe g y0 y1) := by
  induction y0 generalizing y1 with
  | zero => exact h0
  | succ n ih =>
    unfold Chip.runPipe
    try dsimp only
    repeat'
      first
        | with_reducible
            first
              | assumption | apply ih | apply fr_time_Chip_setPipe K | apply fr_time_Chip_stripBoundary K | apply fr_time_Chip_procLine K
              | apply keep_ite (P := P)
        | (intro _) | split | with_reducible refine fr_time_lit K _ ?_ rfl

theorem fr_time_Chip_runGang (g : Gang) (m : Chip) (h0 : P m) : P (Chip.runGang g m) := by
  unfold Chip.runGang
  try dsimp only
  repeat'
    first
      | with_reducible
          first
            | assumption | apply fr_time_Chip_runPipe K
      | dsimp only | split | with_reducible refine fr_time_lit K _ ?_ rfl

theorem fr_time_Chip_pipeTrigger (g : Gang) (idx : Nat) (count : Int) (tb3 : Nat) (m : Chip) (h0 : P m) : P (Chip.pipeTrigger g idx
    count tb3 m) := by
  unfold Chip.pipeTrigger
  try dsimp only
  repeat'
    first
      | with_reducible
          first
            | assumption | apply fr_time_Chip_setPipe K | apply fr_time_Chip_runGang K
      | dsimp only | split | with_reducible refine fr_time_lit K _ ?_ rfl

theorem fr_time_Chip_routeDiscard (g : Gang) (m : Chip) (h0 : P m) : P (Chip.routeDiscard g m) := by
  unfold Chip.routeDiscard
  try dsimp only
  repeat'
    first
      | with_reducible
          first
            | assumption | apply fr_time_Chip_bump K | apply fr_time_Chip_onGang K | apply fr_time_Chip_lpFlag K
      | (intro _) | dsimp only | split | with_reducible refine fr_time_lit K _ ?_ rfl

theorem fr_time_Chip_pipeLine (g : Gang) (x : InLine) (m : Chip) (h0 : P m) : P (Chip.pipeLine g x m) := by
  unfold Chip.pipeLine
  try dsimp only
  repeat'
    first
      | with_reducible
          first
            | assumption | apply fr_time_Chip_setPipe K | apply fr_time_Chip_runGang K | apply fr_time_Chip_routeDiscard K
            | apply keep_ite (P := P)
      | (intro _) | dsimp only | split | with_reducible refine fr_time_lit K _ ?_ rfl

theorem fr_time_Chip_noteWait (ns : Nat) (m : Chip) (h0 : P m) : P (Chip.noteWait ns m) := by
  unfold Chip.noteWait
  try dsimp only
  repeat'
    first
      | with_reducible
          first
            | assumption | apply fr_time_Chip_wr K | apply fr_time_Chip_setFlagIf K
      | dsimp only | split | with_reducible refine fr_time_lit K _ ?_ rfl

theorem fr_time_Chip_setCamState (c : CameraRec) (st : Nat) (m : Chip) (h0 : P m) : P (Chip.setCamState c st m) := by
  unfold Chip.setCamState
  try dsimp only
  repeat'
    first
      | with_reducible
          first
            | assumption | apply fr_time_Chip_wr K | apply fr_time_Chip_put K | apply keep_forAll (P := P) | apply keep_ite (P := P)
      | (intro _) | dsimp only | split | with_reducible refine fr_time_lit K _ ?_ rfl

theorem fr_time_Chip_voidLine (c : CameraRec) (idx : Nat) (count : Int) (tb3 : Nat) (dropped : Bool) (m : Chip) (h0 : P m) : P
    (Chip.voidLine c idx count tb3 dropped m) := by
  unfold Chip.voidLine
  try dsimp only
  repeat'
    first
      | with_reducible
          first
            | assumption | apply fr_time_Chip_setFlag K | apply fr_time_Chip_bump K | apply fr_time_Chip_writeLineRec K
            | apply fr_time_Chip_pipeLine K
      | dsimp only | split | with_reducible refine fr_time_lit K _ ?_ rfl

theorem fr_time_Chip_voidSlot (c : CameraRec) (s : TrigSlot) (m : Chip) (h0 : P m) : P (Chip.voidSlot c s m) := by
  unfold Chip.voidSlot
  try dsimp only
  repeat'
    first
      | with_reducible
          first
            | assumption | apply fr_time_Chip_voidLine K | apply keep_ite (P := P)
      | dsimp only | split | with_reducible refine fr_time_lit K _ ?_ rfl

theorem fr_time_Chip_emptySlots (c : CameraRec) (m : Chip) (h0 : P m) : P (Chip.emptySlots c m) := by
  unfold Chip.emptySlots
  try dsimp only
  repeat'
    first
      | with_reducible
          first
            | assumption | apply fr_time_Chip_setCam K | apply fr_time_Chip_voidSlot K | apply keep_forAll (P := P)
      | (intro _) | dsimp only | split | with_reducible refine fr_time_lit K _ ?_ rfl

theorem fr_time_Chip_camDown (c : CameraRec) (st : Nat) (m0 : Chip) (h0 : P m0) : P (Chip.camDown c st m0) := by
  unfold Chip.camDown
  try dsimp only
  repeat'
    first
      | with_reducible
          first
            | assumption | apply fr_time_Chip_emit K | apply fr_time_Chip_setCam K | apply fr_time_Chip_setCamState K
            | apply fr_time_Chip_emptySlots K | apply keep_forAll (P := P)
      | (intro _) | dsimp only | split | with_reducible refine fr_time_lit K _ ?_ rfl

theorem fr_time_Chip_sendCtrl (c : CameraRec) (what : String) (args : List Nat) (sender : CtrlBy) (m : Chip) (h0 : P m) : P
    (Chip.sendCtrl c what args sender m) := K _ _ h0 rfl

end

theorem eq_time_Chip_cmErrs (er : ReadErrs) (m : Chip) : (Chip.cmErrs er m).time = m.time :=
  fr_time_Chip_cmErrs (P := fun z => z.time = m.time) (fun _ _ h e => e.trans h) er m rfl

theorem eq_time_Chip_pipeTrigger (g : Gang) (idx : Nat) (count : Int) (tb3 : Nat) (m : Chip) : (Chip.pipeTrigger g idx count tb3 m).time
    = m.time :=
  fr_time_Chip_pipeTrigger (P := fun z => z.time = m.time) (fun _ _ h e => e.trans h) g idx count tb3 m rfl

theorem eq_time_Chip_noteWait (ns : Nat) (m : Chip) : (Chip.noteWait ns m).time = m.time :=
  fr_time_Chip_noteWait (P := fun z => z.time = m.time) (fun _ _ h e => e.trans h) ns m rfl

theorem eq_time_Chip_setCamState (c : CameraRec) (st : Nat) (m : Chip) : (Chip.setCamState c st m).time = m.time :=
  fr_time_Chip_setCamState (P := fun z => z.time = m.time) (fun _ _ h e => e.trans h) c st m rfl

theorem eq_time_Chip_camDown (c : CameraRec) (st : Nat) (m0 : Chip) : (Chip.camDown c st m0).time = m0.time :=
  fr_time_Chip_camDown (P := fun z => z.time = m0.time) (fun _ _ h e => e.trans h) c st m0 rfl

theorem eq_time_Chip_sendCtrl (c : CameraRec) (what : String) (args : List Nat) (sender : CtrlBy) (m : Chip) : (Chip.sendCtrl c what
    args sender m).time = m.time :=
  fr_time_Chip_sendCtrl (P := fun z => z.time = m.time) (fun _ _ h e => e.trans h) c what args sender m rfl

end Sys2Proof.Laws
end

