-- ==== Sys2Proof/Laws/Completion/Cameras.lean ====
section
/-!
SUPPORT. Sys2Proof/Laws/Completion/Cameras.lean: cameras, triggers and PoCXP.
What an effect leaves, said once for the statements that say where a command completes.
-/
namespace Sys2Proof.Laws
open Sys2Proof.Machine

theorem cam_of {x y : Chip} (h : x.cams = y.cams) (n : Nat) : x.cam n = y.cam n := by unfold Chip.cam; rw [h]

theorem cam_setCam (m : Chip) (n : Nat) (v : CamState) (h : v ≠ {}) : (m.setCam n v).cam n = v :=
    tabGet_set_ne ({} : CamState) m.cams n v h

theorem poc_setPoc (m : Chip) (n : Nat) (v : PocState) (h : v ≠ {}) : (m.setPoc n v).poc n = v :=
    tabGet_set_ne ({} : PocState) m.pocs n v h

theorem poc_of {x y : Chip} (h : x.pocs = y.pocs) (n : Nat) : x.poc n = y.poc n := by unfold Chip.poc; rw [h]

def CamLike (n : Nat) (x y : Chip) : Prop := ∃ a b, x.cam n = { y.cam n with lineRec := a, lastIdx := b }

theorem CamLike.refl (n : Nat) (x : Chip) : CamLike n x x := ⟨_, _, rfl⟩

theorem CamLike.of {n : Nat} {x y : Chip} (h : x.cams = y.cams) : CamLike n x y := ⟨_, _, cam_of h n⟩

theorem CamLike.trans {n : Nat} {x y z : Chip} (h : CamLike n x y) (k : CamLike n y z) : CamLike n x z := by
  obtain ⟨a, b, e⟩ := h; obtain ⟨c, d, f⟩ := k
  exact ⟨a, b, by rw [e, f]⟩

theorem writeLineRec_cam (c : CameraRec) (x : InLine) (m : Chip) : CamLike c.master (m.writeLineRec c x) m := by
  unfold Chip.writeLineRec
  dsimp only
  split
  · exact .refl _ _
  · refine .trans (.of (eq_cams_Chip_feed ..)) ⟨_, _, cam_setCam _ _ _ ?_⟩
    intro e; have := congrArg (·.lastIdx) e; simp at this

theorem voidLine_cam (c : CameraRec) (i : Nat) (k : Int) (t : Nat) (d : Bool) (m : Chip) : CamLike c.master (m.voidLine c i k t d) m :=
    by
  unfold Chip.voidLine
  exact .trans (.of (eq_cams_Chip_pipeLine ..)) (writeLineRec_cam _ _ _)

theorem voidSlot_cam (c : CameraRec) (s : TrigSlot) (m : Chip) : CamLike c.master (m.voidSlot c s) m := by
  unfold Chip.voidSlot; split
  · exact voidLine_cam ..
  · exact .refl _ _

theorem voidSlots_cam (c : CameraRec) (l : List TrigSlot) (m : Chip) : CamLike c.master (forAll l (fun s m => m.voidSlot c s) m) m :=
  keep_forAll (P := fun z => CamLike c.master z m) _ _ _ (.refl _ _) fun _ _ h => .trans (voidSlot_cam ..) h

theorem sendCtrl_cam (c : CameraRec) (w : String) (l : List Nat) (b : CtrlBy) (m : Chip) : (m.sendCtrl c w l b).cam c.master =
    { m.cam c.master with ctrl := (m.cam c.master).ctrl ++ [{ tag := (m.cam c.master).nextTag, sentAt := m.now, sender := b }], nextTag := ((m.cam c.master).nextTag + 1) % 256 } := by
  refine cam_setCam m _ _ ?_
  intro e; have := congrArg (·.ctrl) e; simp at this

theorem sendCtrls_cam {α : Type} (c : CameraRec) (w : α → String) (g : α → List Nat) (b : CtrlBy) (l : List α) (m : Chip) :
    ∃ k t, (forAll l (fun a m => m.sendCtrl c (w a) (g a) b) m).cam c.master =
        { m.cam c.master with ctrl := (m.cam c.master).ctrl ++ k, nextTag := t } ∧ k.length = l.length := by
  induction l generalizing m with
  | nil => exact ⟨[], (m.cam c.master).nextTag, by simp [forAll], rfl⟩
  | cons a l ih =>
    obtain ⟨k, t, e, hk⟩ := ih (m.sendCtrl c (w a) (g a) b)
    rw [sendCtrl_cam] at e
    exact ⟨_ :: k, t, by simpa [forAll] using e, by simp [hk]⟩

theorem bringUpStep_cam (c : CameraRec) (ph : Nat) (hp : ph ≠ 0) (m : Chip) : (m.bringUpStep c ph true).cam c.master =
    { m.cam c.master with phase := ph, stepAt := m.now } := by
  unfold Chip.bringUpStep
  rw [cam_of (eq_cams_Chip_setCamState ..)]
  refine cam_setCam _ _ _ ?_
  intro e; have := congrArg (·.phase) e; exact hp this

theorem readBootstrap_cam (c : CameraRec) (m : Chip) : ((m.readBootstrap c).cam c.master).phase = 3 ∧
    ((m.readBootstrap c).cam c.master).stepAt = m.now := by
  unfold Chip.readBootstrap
  obtain ⟨k, t, e, -⟩ := sendCtrls_cam c (fun w => w) (fun _ => []) .bringUp ["read Standard", "read Revision", "read DeviceVendorName",
      "read DeviceModelName", "read ConnectionConfigDefault"] (m.bringUpStep c 3 true)
  rw [e, bringUpStep_cam _ _ (by decide)]
  exact ⟨rfl, rfl⟩

theorem begin3_cam (c : CameraRec) (again : Bool) (m : Chip) (hb : m.camBlocked c = false) :
    ((m.beginBringUp c 3 again).cam c.master).phase = 3 ∧ ((m.beginBringUp c 3 again).cam c.master).stepAt = m.now := by
  unfold Chip.beginBringUp
  rw [if_neg (by simp [hb])]
  dsimp only
  rw [if_pos (by decide), if_neg (by decide)]
  have h := readBootstrap_cam c (((m.camDown c stDown).bumpIf again (R.CXP_CNT_RECONNECT c.master)).setCam c.master
      { ((m.camDown c stDown).bumpIf again (R.CXP_CNT_RECONNECT c.master)).cam c.master with stepAt := m.now, pollAt := none })
  refine ⟨h.1, h.2.trans ?_⟩
  refine now_of (?_ : Chip.time _ = _)
  show (Chip.bumpIf _ _ _).time = _
  unfold Chip.bumpIf; split
  · exact eq_time_Chip_camDown ..
  · exact eq_time_Chip_camDown ..

theorem begin1_cam (c : CameraRec) (again : Bool) (m : Chip) (hb : m.camBlocked c = false) (h0 : 0 < m.now) :
    ((m.beginBringUp c 1 again).cam c.master).stepAt = m.now ∧ ((m.beginBringUp c 1 again).cam c.master).pollAt = none := by
  unfold Chip.beginBringUp
  rw [if_neg (by simp [hb])]
  dsimp only
  rw [if_neg (by decide), cam_of (eq_cams_Chip_setCamState ..), cam_setCam]
  · exact ⟨rfl, rfl⟩
  · intro e; have := congrArg (·.stepAt) e; simp at this; omega

theorem fails_cam (c : CameraRec) (m : Chip) : ((m.bringUpFails c).cam c.master).restartAt = some (m.now + 1000000000) ∧
    ((m.bringUpFails c).cam c.master).restartFrom = 2 := by
  unfold Chip.bringUpFails Chip.restartIn
  rw [cam_setCam _ _ _ (by intro e; have := congrArg (·.restartAt) e; simp at this)]
  exact ⟨by rw [now_of (y := m)]; exact (eq_time_Chip_camDown ..), rfl⟩

theorem lost_cam (c : CameraRec) (m : Chip) : ((m.camLost c).cam c.master).restartAt = some (m.now + 1000000000) ∧
    ((m.camLost c).cam c.master).restartFrom = 3 := by
  unfold Chip.camLost Chip.restartIn
  rw [cam_of (eq_cams_Chip_raise ..), cam_setCam _ _ _ (by intro e; have := congrArg (·.restartAt) e; simp at this)]
  exact ⟨by rw [now_of (y := m)]; exact (eq_time_Chip_camDown ..), rfl⟩

theorem mismatch_cam (c : CameraRec) (m : Chip) : ((m.identMismatch c).cam c.master).restartAt = some (m.now + 10000000000) ∧
    ((m.identMismatch c).cam c.master).restartFrom = 2 := by
  unfold Chip.identMismatch Chip.restartIn
  rw [cam_setCam _ _ _ (by intro e; have := congrArg (·.restartAt) e; simp at this)]
  exact ⟨by rw [now_of (y := m)]; exact (eq_time_Chip_camDown ..), rfl⟩

theorem noteWait_get (ns : Nat) (m : Chip) (f : Fld) (h : Canon m) (h1 : f.addr ≠ R.CM_PIPE_WAIT_MAX) (h2 : f.addr ≠
    F.CM_STAT_pipe_wait.addr) : (m.noteWait ns).get f = m.get f := by
  unfold Chip.noteWait Chip.setFlagIf
  have e : ∀ v, (m.wr R.CM_PIPE_WAIT_MAX v).get f = m.get f := fun v => by unfold Chip.get; rw [rd_wr_other m _ _ v h.1 h1]
  split
  · unfold Chip.get Chip.setFlag
    show fldOf (tabGet 0 (tabSet 0 _ _ _) _) f = _
    rw [show tabGet 0 (tabSet 0 (m.wr R.CM_PIPE_WAIT_MAX (BitVec.ofNat 32 (min 0xFFFFFFFF (max (m.rd R.CM_PIPE_WAIT_MAX).toNat
        ns)))).regs F.CM_STAT_pipe_wait.addr
      (fldIns ((m.wr R.CM_PIPE_WAIT_MAX (BitVec.ofNat 32 (min 0xFFFFFFFF (max (m.rd R.CM_PIPE_WAIT_MAX).toNat ns)))).rd
          F.CM_STAT_pipe_wait.addr) F.CM_STAT_pipe_wait 1)) f.addr = _ from tabGet_set_other 0 _ _ _ _ (canon_wr m _ _ h.1) h2]
    exact e _
  · exact e _

theorem linePaced_cam (g : Gang) (io : LineIo) (f : Chip → Chip) (m : Chip) (P : Chip → Prop) (K : ∀ a b : Chip, P a → b.cams = a.cams →
    P b)
    (h : ∀ x : Chip, x.cams = m.cams → x.time = m.time → P (f x)) : P (m.linePaced g io f) := by
  unfold Chip.linePaced
  dsimp only
  have c1 : ((m.noteWait io.wait).cmErrs { cmCe := io.cmCe, cmUe := io.cmUe }).cams = m.cams :=
      by rw [eq_cams_Chip_cmErrs, eq_cams_Chip_noteWait]
  have t1 : ((m.noteWait io.wait).cmErrs { cmCe := io.cmCe, cmUe := io.cmUe }).time = m.time :=
      by rw [eq_time_Chip_cmErrs, eq_time_Chip_noteWait]
  generalize (m.noteWait io.wait).cmErrs { cmCe := io.cmCe, cmUe := io.cmUe } = x at c1 t1
  have hh : ∀ y : Chip, y.cams = m.cams → y.time = m.time → P ((f y).setRowPipe g.row { (f y).rowPipe g.row with noRoom := false }) :=
      fun y a b => K _ _ (h y a b) rfl
  split <;> split
  · exact hh _ (by exact c1) (by exact t1)
  · exact hh _ (by exact c1) (by exact t1)
  · exact h _ (by exact c1) (by exact t1)
  · exact h _ (by exact c1) (by exact t1)

theorem expireSlots_cam (c : CameraRec) (m : Chip) (_h : (m.cam c.master).slots ≠ []) :
    CamLike c.master (m.expireSlots c) (m.setCam c.master
        { m.cam c.master with slots := (m.cam c.master).slots.map fun s => if s.pending && decide (s.sentAt + m.get (F.CXP_TIMING_CFG_line_timeout c.master) * 1000 ≤ m.now) then { s with pending := false } else s }) := by
  unfold Chip.expireSlots
  exact voidSlots_cam ..

theorem expireSlots_idx (c : CameraRec) (m : Chip) (h : (m.cam c.master).slots ≠ []) :
    ((m.expireSlots c).cam c.master).slots.map (·.idx) = (m.cam c.master).slots.map (·.idx) ∧ ((m.expireSlots c).cam c.master).matched =
        (m.cam c.master).matched := by
  obtain ⟨a, b, e⟩ := expireSlots_cam c m h
  rw [e, cam_setCam]
  · refine ⟨?_, rfl⟩
    dsimp only
    rw [List.map_map]
    refine List.map_congr_left fun s _ => ?_
    simp only [Function.comp]; split <;> rfl
  · intro e; have := congrArg (·.slots) e; simp at this; exact h this

theorem matchLine_cam (c : CameraRec) (l : List Nat) (m : Chip) (s : TrigSlot) (t : List TrigSlot) (h : (m.cam c.master).slots =
    s :: t) :
    CamLike c.master (m.matchLine c l) (m.setCam c.master { m.cam c.master with slots := t, matched := (m.cam c.master).matched + 1 })
        := by
  unfold Chip.matchLine
  dsimp only
  rw [h]; dsimp only
  split
  · split
    · exact .refl _ _
    · exact .refl _ _
  · split
    · exact voidSlot_cam ..
    · exact .trans (.of (eq_cams_Chip_pipeLine ..)) (writeLineRec_cam ..)

theorem lineComplete_cam (c : CameraRec) (l : List Nat) (m : Chip) (h : (m.cam c.master).slots ≠ []) :
    (((m.expireSlots c).matchLine c l).cam c.master).slots.map (·.idx) = (m.cam c.master).slots.tail.map (·.idx) ∧
    (((m.expireSlots c).matchLine c l).cam c.master).matched = (m.cam c.master).matched + 1 := by
  have e := expireSlots_idx c m h
  generalize m.expireSlots c = x at e
  cases hx : (x.cam c.master).slots with
  | nil => rw [hx] at e; simp at e; exact absurd e.1 h
  | cons s t =>
    obtain ⟨a, b, f⟩ := matchLine_cam c l x s t hx
    rw [f, cam_setCam _ _ _ (by intro e; have := congrArg (·.matched) e; simp at this)]
    refine ⟨?_, by rw [← e.2]⟩
    have := congrArg List.tail e.1
    rw [hx] at this
    simpa using this

theorem sendTrigger_cam (c : CameraRec) (idx : Nat) (cnt : Int) (m : Chip) (h : (m.cam c.master).slots.length < 256) (hd : (m.cam
    c.master).dropStrip = none) :
    ∃ d, d < 480 ∧ (m.sendTrigger c idx cnt).cam c.master =
        { m.cam c.master with slots := (m.cam c.master).slots ++ [{ idx, count := cnt, tb3 := m.tb3, sentAt := m.now + d, pending := true }], lastSent := some m.now, sent := (m.cam c.master).sent + 1 } := by
  unfold Chip.sendTrigger Chip.draw
  dsimp only
  refine ⟨Config.free m.free % (m.cam c.master).charTime, ?_, ?_⟩
  · have : (m.cam c.master).charTime = 240 ∨ (m.cam c.master).charTime = 480 := by unfold CamState.charTime; split <;> simp
    rcases this with h | h <;> rw [h] <;> omega
  have q : ∀ x : Chip, x.cams = m.cams → x.cam c.master = m.cam c.master := fun x hx => cam_of hx _
  have e : ((({ m with free := m.free + 1 } : Chip).emit (.send "cxp" c.master "trigger" [unsignedOf 48 cnt, m.tb3,
      Config.free m.free % (m.cam c.master).charTime])).bump (R.CXP_CNT_TRIG c.master)).cams = m.cams := rfl
  generalize (({ m with free := m.free + 1 } : Chip).emit (.send "cxp" c.master "trigger" [unsignedOf 48 cnt, m.tb3,
      Config.free m.free % (m.cam c.master).charTime])).bump (R.CXP_CNT_TRIG c.master) = x at e
  have ex := q x e
  rw [ex, hd]
  have hl : decide (256 ≤ (m.cam c.master).slots.length) = false := by simpa using h
  rw [hl]
  simp only [Bool.false_eq_true, if_false]
  have hq : ∀ k : Nat, ((none : Option Nat) == some k) = false := fun _ => rfl
  simp only [hq, Bool.false_eq_true, if_false, Bool.not_false]
  rw [cam_setCam _ _ _ (by intro e; have := congrArg (·.lastSent) e; simp at this), ex]
  simp [hd]

theorem trigger_cam (c : CameraRec) (idx : Nat) (cnt : Int) (m : Chip) (hs : m.camState c = stStreaming)
    (he : ∀ t, (m.cam c.master).lastSent = some t → t + 4 * m.get (F.CXP_TRIG_CFG_min_interval c.master) ≤ m.now)
    (h : (m.cam c.master).slots.length < 256) (hd : (m.cam c.master).dropStrip = none) :
    ∃ d, d < 480 ∧ (m.trigger c idx cnt).cam c.master =
        { m.cam c.master with slots := (m.cam c.master).slots ++ [{ idx, count := cnt, tb3 := m.tb3, sentAt := m.now + d, pending := true }], lastSent := some m.now, sent := (m.cam c.master).sent + 1 } := by
  unfold Chip.trigger
  dsimp only
  rw [if_neg (c := m.camState c = stAwaiting ∧ _) (by rw [hs]; simp [stStreaming, stAwaiting])]
  rw [if_neg (c := (!m.camStreams c) = true) (by simp [Chip.camStreams, hs])]
  rw [if_neg (by cases hl : (m.cam c.master).lastSent with
    | none => simp
    | some t => have := he t hl; simp; omega)]
  have ec := cam_of (eq_cams_Chip_pipeTrigger (m.camGang c) idx cnt m.tb3 m) c.master
  have et := eq_time_Chip_pipeTrigger (m.camGang c) idx cnt m.tb3 m
  obtain ⟨d, hd1, e⟩ := sendTrigger_cam c idx cnt (m.pipeTrigger (m.camGang c) idx cnt m.tb3) (by rw [ec]; exact h)
      (by rw [ec]; exact hd)
  exact ⟨d, hd1, by rw [e, ec, now_of et, tb3_of et]⟩

theorem camOf_master {m : Chip} {n : Nat} {c : CameraRec} (h : m.camOf n = some c) : c.master = n := by
  have := List.find?_some h; simpa using this

theorem startAcq_cam (c : CameraRec) (b : Nat) (m : Chip) : ((m.startAcq c b).cam c.master).sent = 0 ∧
    ((m.startAcq c b).cam c.master).matched = 0 ∧ ((m.startAcq c b).cam c.master).base = b ∧
    ((m.startAcq c b).cam c.master).firstTrig = none ∧ ((m.startAcq c b).cam c.master).stepAt = m.now ∧
        ((m.startAcq c b).cam c.master).ctrl.getLast? = some { tag := (m.cam c.master).nextTag, sentAt := m.now } := by
  unfold Chip.startAcq
  dsimp only
  have e := sendCtrl_cam c "acquisition start" [c.acqAddr, c.acqValue] .bringUp m
  have ht : (m.sendCtrl c "acquisition start" [c.acqAddr, c.acqValue] .bringUp).now = m.now := rfl
  generalize m.sendCtrl c "acquisition start" [c.acqAddr, c.acqValue] .bringUp = x at e ht
  rw [cam_of (eq_cams_Chip_setCamState ..), cam_setCam _ _ _ (by rw [e]; intro h; have := congrArg (·.ctrl) h; simp at this), e]
  simp

theorem connIds_cam (c : CameraRec) (m : Chip) : 
    ((forAll (camLinks c) (fun n m => m.sendCtrl c "read DeviceConnectionID" [n] .bringUp) (m.bringUpStep c 4 true)).cam c.master).phase
        = 4 ∧
    ((forAll (camLinks c) (fun n m => m.sendCtrl c "read DeviceConnectionID" [n] .bringUp) (m.bringUpStep c 4 true)).cam
        c.master).stepAt = m.now ∧
    ((forAll (camLinks c) (fun n m => m.sendCtrl c "read DeviceConnectionID" [n] .bringUp) (m.bringUpStep c 4 true)).cam
        c.master).ctrl.length = (m.cam c.master).ctrl.length + c.links := by
  obtain ⟨k, t, e, hk⟩ := sendCtrls_cam c (fun _ : Nat => "read DeviceConnectionID") (fun n =>
      [n]) .bringUp (camLinks c) (m.bringUpStep c 4 true)
  rw [e, bringUpStep_cam _ _ (by decide)]
  exact ⟨rfl, rfl, by simp [hk, camLinks, upTo]⟩

theorem held_pin (c : CameraRec) (m : Chip) (hl : 0 < c.links) (h : (m.poc c.master).on = true) :
    .pin "CXP_PWR_EN_N" c.master true ∈ (forAll (camLinks c) (fun n m => m.pocEnable n false) (m.camDown c stHeld)).out := by
  have hp := poc_of (eq_pocs_Chip_camDown c stHeld m) c.master
  generalize m.camDown c stHeld = x at hp
  have hc : ∃ l, camLinks c = c.master :: l := by
    unfold camLinks upTo
    obtain ⟨k, hk⟩ := Nat.exists_eq_succ_of_ne_zero (by omega : c.links ≠ 0)
    rw [hk, List.range_succ_eq_map]; exact ⟨(List.range k).map ((fun i => c.master + i) ∘ Nat.succ), by simp⟩
  obtain ⟨l, hc⟩ := hc
  rw [hc]
  show _ ∈ (forAll l _ (x.pocEnable c.master false)).out
  refine keep_forAll (P := fun z => .pin "CXP_PWR_EN_N" c.master true ∈ z.out) _ _ _ ?_ ?_
  · unfold Chip.pocEnable
    rw [if_neg (by rw [hp, h]; simp)]
    simp [Chip.emit, Chip.setPoc]
  · intro a z hz
    unfold Chip.pocEnable; split
    · exact hz
    · simp [Chip.emit, Chip.setPoc, hz]

theorem pocFault_poc (m : Chip) (link : Nat) (l : List Nat) (lk : Bool) (o : Option Nat) (hl : l ≠ []) :
    let y := ((m.pocEnable link false).setFlag (F.CXP_LINK_STAT_poc_fault link)).setPoc link
        { ((m.pocEnable link false).setFlag (F.CXP_LINK_STAT_poc_fault link)).poc link with faults := l, locked := lk, offSince := o }
    ∀ z : Chip, z.pocs = y.pocs → (z.poc link).faults = l ∧ (z.poc link).locked = lk ∧ (z.poc link).offSince = o := by
  dsimp only
  intro z hz
  rw [poc_of hz, poc_setPoc _ _ _ (by intro e; have := congrArg (·.faults) e; exact hl this)]
  exact ⟨rfl, rfl, rfl⟩

theorem poll_cam (c : CameraRec) (m : Chip) :
    ((((((m.setCam c.master { m.cam c.master with pollAt := some m.now }).dropDiscovery c).sendCtrl c "discovery" []
        .discovery).setCamState c stDiscovering)).cam c.master).pollAt = some m.now ∧
    .send "cxp" c.master "discovery" [(m.cam c.master).nextTag] ∈ ((((m.setCam c.master
        { m.cam c.master with pollAt := some m.now }).dropDiscovery c).sendCtrl c "discovery" [] .discovery).setCamState c
            stDiscovering).out := by
  have e1 : (((m.setCam c.master { m.cam c.master with pollAt := some m.now }).dropDiscovery c).cam c.master).pollAt = some m.now ∧
      (((m.setCam c.master { m.cam c.master with pollAt := some m.now }).dropDiscovery c).cam c.master).nextTag =
          (m.cam c.master).nextTag := by
    unfold Chip.dropDiscovery
    have e := cam_setCam m c.master { m.cam c.master with pollAt := some m.now }
        (by intro e; have := congrArg (·.pollAt) e; simp at this)
    rw [cam_setCam _ _ _ (by rw [e]; intro e; have := congrArg (·.pollAt) e; simp at this), e]
    exact ⟨rfl, rfl⟩
  generalize (m.setCam c.master { m.cam c.master with pollAt := some m.now }).dropDiscovery c = x at e1
  rw [cam_of (eq_cams_Chip_setCamState ..), sendCtrl_cam]
  refine ⟨e1.1, ?_⟩
  have : ∀ (st : Nat) (y : Chip), (y.setCamState c st).out = y.out := fun st y => by
    unfold Chip.setCamState; dsimp only
    have hf := forAll_frame (fun z : Chip => z.out) (camLinks c) (fun n m =>
        m.put (F.CXP_LINK_STAT_state n) (if (m.poc n).locked then stLocked else st)) y (fun _ _ => rfl)
    split
    · exact hf
    · exact hf
  rw [this]
  simp [Chip.sendCtrl, Chip.emit, Chip.setCam, e1.2]

theorem reenable_poc (m : Chip) (link : Nat) (h : (m.poc link).faults ≠ [] ∧ (m.poc link).on = false) :
    ((((m.setPoc link { m.poc link with offSince := none }).pocEnable link true).poc link).on = true) ∧
        ((m.setPoc link { m.poc link with offSince := none }).pocEnable link true).out = m.out ++ [.pin "CXP_PWR_EN_N" link false] := by
  have e : (m.setPoc link { m.poc link with offSince := none }).poc link = { m.poc link with offSince := none } :=
      poc_setPoc _ _ _ (by intro e; have := congrArg (·.faults) e; exact h.1 this)
  unfold Chip.pocEnable
  rw [if_neg (by rw [e]; simp [h.2]), e]
  refine ⟨?_, rfl⟩
  have e2 := poc_setPoc (m.setPoc link { m.poc link with offSince := none }) link
      { ({ m.poc link with offSince := none } : PocState) with on := true } (by intro e; have := congrArg (·.on) e; simp at this)
  exact congrArg (·.on) e2

theorem noteWait_paced (g : Gang) (io : LineIo) (f : Chip → Chip) (m : Chip) (hio : io.cmCe = [] ∧ io.cmUe = []) (P : Chip →
    Prop) (K : ∀ a b : Chip, P a → b.cams = a.cams → P b)
    (h : ∀ x : Chip, x.cams = m.cams → x.time = m.time → x.regs = (m.noteWait io.wait).regs → P (f x)) : P (m.linePaced g io f) := by
  unfold Chip.linePaced
  dsimp only
  rw [hio.1, hio.2]
  have e : (m.noteWait io.wait).cmErrs { cmCe := [], cmUe := [] } = m.noteWait io.wait := rfl
  rw [e, if_pos (c := ([] : List Nat).isEmpty = true ∨ _) (by simp)]
  have hh : ∀ y : Chip, y.cams = m.cams → y.time = m.time → y.regs = (m.noteWait io.wait).regs →
      P ((f y).setRowPipe g.row { (f y).rowPipe g.row with noRoom := false }) := fun y a b c => K _ _ (h y a b c) rfl
  split
  · exact hh _ (eq_cams_Chip_noteWait ..) (eq_time_Chip_noteWait ..) rfl
  · exact h _ (eq_cams_Chip_noteWait ..) (eq_time_Chip_noteWait ..) rfl

def TrigDone (c : CameraRec) (idx : Nat) (cnt : Int) (m z : Chip) : Prop := ∃ d, d < 480 ∧ z.cam c.master =
      { m.cam c.master with slots := (m.cam c.master).slots ++ [{ idx, count := cnt, tb3 := m.tb3, sentAt := m.now + d, pending := true }], lastSent := some m.now, sent := (m.cam c.master).sent + 1 }

theorem triggerDue_cam (c : CameraRec) (g : Gang) (io : LineIo) (idx : Nat) (cnt : Int) (m : Chip) (hc : Canon m) (hs : m.camState c =
    stStreaming) (h0 : c.master < Config.links)
    (he : ∀ t, (m.cam c.master).lastSent = some t → t + 4 * m.get (F.CXP_TRIG_CFG_min_interval c.master) ≤ m.now) (hio : io.cmCe = [] ∧
        io.cmUe = [])
    (h : (m.cam c.master).slots.length < 256) (hd : (m.cam c.master).dropStrip = none) :
    TrigDone c idx cnt m (m.linePaced g io (Chip.trigger c idx cnt)) := by
  refine noteWait_paced g io _ m hio (TrigDone c idx cnt m) ?_ ?_
  · rintro a b ⟨d, h1, h2⟩ e
    exact ⟨d, h1, by rw [cam_of e, h2]⟩
  · intro x e1 e2 e3
    have q : ∀ f : Fld, f.addr ≠ R.CM_PIPE_WAIT_MAX → f.addr ≠ F.CM_STAT_pipe_wait.addr → x.get f = m.get f := fun f h1 h2 =>
        (get_of e3 f).trans (noteWait_get _ m f hc h1 h2)
    have hg1 : x.camState c = stStreaming := by
      rw [← hs]; unfold Chip.camState
      exact q _ (by simp [F.CXP_LINK_STAT_state, R.CM_PIPE_WAIT_MAX, Config.links] at *; omega)
          (by simp [F.CXP_LINK_STAT_state, F.CM_STAT_pipe_wait, Config.links] at *; omega)
    have hg2 : x.get (F.CXP_TRIG_CFG_min_interval c.master) = m.get (F.CXP_TRIG_CFG_min_interval c.master) :=
      q _ (by simp [F.CXP_TRIG_CFG_min_interval, R.CM_PIPE_WAIT_MAX, Config.links] at *; omega)
          (by simp [F.CXP_TRIG_CFG_min_interval, F.CM_STAT_pipe_wait, Config.links] at *; omega)
    obtain ⟨d, h1, h2⟩ := trigger_cam c idx cnt x hg1 (by rw [cam_of e1, hg2, now_of e2]; exact he) (by rw [cam_of e1]; exact h)
        (by rw [cam_of e1]; exact hd)
    exact ⟨d, h1, by rw [h2, cam_of e1, tb3_of e2, now_of e2]⟩

def TimedOut (c : CameraRec) (m z : Chip) : Prop := (z.cam c.master).slots = (m.cam c.master).slots.map fun s =>
    if s.pending && decide (s.sentAt + m.get (F.CXP_TIMING_CFG_line_timeout c.master) * 1000 ≤ m.now) then { s with pending := false }
        else s

theorem lineTimeout_cam (c : CameraRec) (g : Gang) (io : LineIo) (m : Chip) (hc : Canon m) (h0 : c.master < Config.links)
    (hio : io.cmCe = [] ∧ io.cmUe = []) (h : (m.cam c.master).slots ≠ []) : TimedOut c m (m.linePaced g io (Chip.expireSlots c)) := by
  refine noteWait_paced g io _ m hio (TimedOut c m) ?_ ?_
  · intro a b h1 e; unfold TimedOut; rw [cam_of e]; exact h1
  · intro x e1 e2 e3
    have hg : x.get (F.CXP_TIMING_CFG_line_timeout c.master) = m.get (F.CXP_TIMING_CFG_line_timeout c.master) :=
      (get_of e3 _).trans (noteWait_get _ m _ hc (by simp [F.CXP_TIMING_CFG_line_timeout, R.CM_PIPE_WAIT_MAX, Config.links] at *; omega)
          (by simp [F.CXP_TIMING_CFG_line_timeout, F.CM_STAT_pipe_wait, Config.links] at *; omega))
    obtain ⟨a, b, e⟩ := expireSlots_cam c x (by rw [cam_of e1]; exact h)
    unfold TimedOut
    rw [e, cam_setCam]
    · dsimp only; rw [hg, cam_of e1, now_of e2]
    · intro e; have := congrArg (·.slots) e; simp at this; rw [cam_of e1] at this; exact h this

def LineTaken (c : CameraRec) (m z : Chip) : Prop := (z.cam c.master).slots.map (·.idx) = (m.cam c.master).slots.tail.map (·.idx) ∧
    (z.cam c.master).matched = (m.cam c.master).matched + 1

theorem lineTaken_cam (c : CameraRec) (g : Gang) (io : LineIo) (l : List Nat) (m : Chip) (h : (m.cam c.master).slots ≠ []) :
    LineTaken c m (m.linePaced g io fun m => (m.expireSlots c).matchLine c l) := by
  refine linePaced_cam g io _ m (LineTaken c m) ?_ ?_
  · intro a b h1 e; unfold LineTaken; rw [cam_of e]; exact h1
  · intro x e1 e2
    have := lineComplete_cam c l x (by rw [cam_of e1]; exact h)
    unfold LineTaken; rw [← cam_of e1]; exact this

theorem earlyTrigger_cam (c : CameraRec) (idx t : Nat) (cnt : Int) (m : Chip) (hs : m.camState c =
    stStreaming) (hl : (m.cam c.master).lastSent = some t)
    (ht : m.now < t + 4 * m.get (F.CXP_TRIG_CFG_min_interval c.master)) : CamLike c.master (m.trigger c idx cnt) m := by
  unfold Chip.trigger
  dsimp only
  rw [if_neg (c := m.camState c = stAwaiting ∧ _) (by rw [hs]; simp [stStreaming, stAwaiting]), if_neg (c := (!m.camStreams c) =
      true) (by simp [Chip.camStreams, hs]), if_pos (by rw [hl]; simpa using ht)]
  exact .trans (voidLine_cam ..) (.trans (.of rfl) (.of (eq_cams_Chip_pipeTrigger ..)))

def SlotsKept (c : CameraRec) (m z : Chip) : Prop := (z.cam c.master).slots = (m.cam c.master).slots ∧ (z.cam c.master).lastSent =
    (m.cam c.master).lastSent

theorem early_cam (c : CameraRec) (g : Gang) (io : LineIo) (idx t : Nat) (cnt : Int) (m : Chip) (hc : Canon m) (hs : m.camState c =
    stStreaming) (h0 : c.master < Config.links)
    (hl : (m.cam c.master).lastSent = some t) (ht : m.now < t + 4 * m.get (F.CXP_TRIG_CFG_min_interval c.master)) (hio : io.cmCe = [] ∧
        io.cmUe = []) :
    SlotsKept c m (m.linePaced g io (Chip.trigger c idx cnt)) := by
  refine noteWait_paced g io _ m hio (SlotsKept c m) ?_ ?_
  · intro a b h1 e; unfold SlotsKept; rw [cam_of e]; exact h1
  · intro x e1 e2 e3
    have q : ∀ f : Fld, f.addr ≠ R.CM_PIPE_WAIT_MAX → f.addr ≠ F.CM_STAT_pipe_wait.addr → x.get f = m.get f := fun f h1 h2 =>
        (get_of e3 f).trans (noteWait_get _ m f hc h1 h2)
    have hg1 : x.camState c = stStreaming := by
      rw [← hs]; unfold Chip.camState
      exact q _ (by simp [F.CXP_LINK_STAT_state, R.CM_PIPE_WAIT_MAX, Config.links] at *; omega)
          (by simp [F.CXP_LINK_STAT_state, F.CM_STAT_pipe_wait, Config.links] at *; omega)
    have hg2 : x.get (F.CXP_TRIG_CFG_min_interval c.master) = m.get (F.CXP_TRIG_CFG_min_interval c.master) :=
      q _ (by simp [F.CXP_TRIG_CFG_min_interval, R.CM_PIPE_WAIT_MAX, Config.links] at *; omega)
          (by simp [F.CXP_TRIG_CFG_min_interval, F.CM_STAT_pipe_wait, Config.links] at *; omega)
    obtain ⟨a, b, e⟩ := earlyTrigger_cam c idx t cnt x hg1 (by rw [cam_of e1]; exact hl) (by rw [hg2, now_of e2]; exact ht)
    unfold SlotsKept; rw [e, cam_of e1]; exact ⟨rfl, rfl⟩

theorem trigger_sent (m : Chip) (c : CameraRec) (idx : Nat) (cnt : Int) (hs : m.camState c = stStreaming) (he : ∀ t,
    (m.cam c.master).lastSent = some t → t + 4 * m.get (F.CXP_TRIG_CFG_min_interval c.master) ≤ m.now) :
    m.trigger c idx cnt = (m.pipeTrigger (m.camGang c) idx cnt m.tb3).sendTrigger c idx cnt := by
  unfold Chip.trigger
  dsimp only
  rw [if_neg (c := m.camState c = stAwaiting ∧ _) (by rw [hs]; simp [stStreaming, stAwaiting])]
  rw [if_neg (c := (!m.camStreams c) = true) (by simp [Chip.camStreams, hs])]
  rw [if_neg (by cases hl : (m.cam c.master).lastSent with
    | none => simp
    | some t => have := he t hl; simp; omega)]

theorem trigger_early (m : Chip) (c : CameraRec) (idx t : Nat) (cnt : Int) (hs : m.camState c =
    stStreaming) (hl : (m.cam c.master).lastSent = some t) (ht : m.now < t + 4 * m.get (F.CXP_TRIG_CFG_min_interval c.master)) :
    m.trigger c idx cnt = (((m.pipeTrigger (m.camGang c) idx cnt m.tb3).setFlag (F.CXP_LINK_STAT_trig_suppressed c.master)).bump
        (R.CXP_CNT_TRIG_SUP c.master)).voidLine c idx cnt m.tb3 ((m.cam c.master).dropStrip == some (idx / m.rowLines c.row)) := by
  unfold Chip.trigger
  dsimp only
  rw [if_neg (c := m.camState c = stAwaiting ∧ _) (by rw [hs]; simp [stStreaming, stAwaiting]), if_neg (c := (!m.camStreams c) =
      true) (by simp [Chip.camStreams, hs]), if_pos (by rw [hl]; simpa using ht)]

theorem trigger_void (m : Chip) (c : CameraRec) (idx : Nat) (cnt : Int) (hs : m.camStreams c = false) (h2 : m.camState c ≠ stAwaiting) :
    m.trigger c idx cnt = (m.pipeTrigger (m.camGang c) idx cnt m.tb3).voidLine c idx cnt m.tb3 ((m.cam c.master).dropStrip ==
        some (idx / m.rowLines c.row)) := by
  unfold Chip.trigger
  dsimp only
  rw [if_neg (c := m.camState c = stAwaiting ∧ _) (by simp [h2]), if_pos (c := (!m.camStreams c) = true) (by simp [hs])]

theorem capture_cam (c : CameraRec) (d : List Nat) (m : Chip) (k : CalCap) (h : (m.cam c.master).cal = some k) (h1 : k.rejected =
    false) (h2 : k.left ≠ some 0) :
    ((m.captureLine c d).cam c.master).cal = some
        { k with used := k.used + min (k.len - k.used) ((d.take (k.width * c.planes)).flatMap (leBytes (sampleBytes c.bits))).length, left := k.left.map (· - 1) } := by
  unfold Chip.captureLine
  rw [h]; dsimp only
  rw [if_neg (by simp [h1, h2]), cam_setCam _ _ _ (by intro e; have := congrArg (·.cal) e; simp at this)]
  simp only [List.length_take]

theorem dead_one (c : CameraRec) (m : Chip) (k : CtrlCmd) (hc : Canon m) (h3 : k.sender =
    .bringUp) (_h5 : 3 ≤ k.resends) (h6 : m.camState c = stConfiguring) :
    (m.setCam c.master { m.cam c.master with ctrl := [] }).ctrlDead c [k] =
        ((m.setCam c.master { m.cam c.master with ctrl := [] }).setFlag (F.CXP_LINK_STAT_ctrl_timeout c.master)).bringUpFails c := by
  have hs : ((m.setCam c.master { m.cam c.master with ctrl := [] }).setFlag (F.CXP_LINK_STAT_ctrl_timeout c.master)).camState c =
      stConfiguring := by
    rw [← h6]
    unfold Chip.camState
    exact (get_of (y := Chip.put _ _ 1) rfl _).trans (get_put_apart _ _ _ _ hc.1
        (by simp [fieldsApart, F.CXP_LINK_STAT_state, F.CXP_LINK_STAT_ctrl_timeout]) (by simp [F.CXP_LINK_STAT_ctrl_timeout])
            (by simp [F.CXP_LINK_STAT_state]) (by simp [F.CXP_LINK_STAT_ctrl_timeout]) (by simp [F.CXP_LINK_STAT_state]))
  unfold Chip.ctrlDead
  simp [h3, forAll]
  exact fun h => absurd hs h

theorem sendCtrl_last (c : CameraRec) (w : String) (l : List Nat) (b : CtrlBy) (m : Chip) :
    ∃ g, (m.sendCtrl c w l b).out.getLast? = some (.send "cxp" c.master w (g :: l)) ∧
        ((m.sendCtrl c w l b).cam c.master).ctrl.getLast? = some { tag := g, sentAt := (m.sendCtrl c w l b).now, sender := b } := by
  rw [sendCtrl_cam]
  exact ⟨(m.cam c.master).nextTag, by simp [Chip.sendCtrl, Chip.emit, Chip.setCam], by simp; rfl⟩

theorem captureOn_cam (y : Chip) (n base len w : Nat) (e : Emit) :
    (((y.setCam n { y.cam n with cal := some { base, len, width := w } }).emit e).cam n).cal = some { base, len, width := w } ∧
    ((y.setCam n { y.cam n with cal := some { base, len, width := w } }).emit e).out.getLast? = some e := by
  refine ⟨?_, by simp [Chip.emit]⟩
  rw [cam_of (x := Chip.emit _ _) (y := Chip.setCam _ _ _) rfl, cam_setCam _ _ _ (by intro e; have := congrArg (·.cal) e; simp at this)]

theorem auditStart_cam (c : CameraRec) (m : Chip) :
    (((m.setCam c.master { m.cam c.master with tB := some (m.cam c.master).sent, auditAt := m.now, readC := none }).sendCtrl c
        "read counter" [c.trigCnt] .audit).cam c.master).tB = some (m.cam c.master).sent ∧
    (((m.setCam c.master { m.cam c.master with tB := some (m.cam c.master).sent, auditAt := m.now, readC := none }).sendCtrl c
        "read counter" [c.trigCnt] .audit).cam c.master).readC = none ∧
    ((m.setCam c.master { m.cam c.master with tB := some (m.cam c.master).sent, auditAt := m.now, readC := none }).sendCtrl c
        "read counter" [c.trigCnt] .audit).out = m.out ++ [.send "cxp" c.master "read counter" [(m.cam c.master).nextTag, c.trigCnt]] :=
            by
  have e := cam_setCam m c.master { m.cam c.master with tB := some (m.cam c.master).sent, auditAt := m.now, readC := none }
      (by intro e; have := congrArg (·.tB) e; simp at this)
  rw [sendCtrl_cam, e]
  exact ⟨rfl, rfl, by simp [Chip.sendCtrl, Chip.emit, Chip.setCam]; simpa [Chip.setCam] using congrArg (·.nextTag) e⟩

/-! pipelines -/

theorem apply_ite_fire {b : Bool} {x y : Chip} (h : x.fire = y.fire) : (if b then x else y).fire = y.fire := by cases b <;> simp [h]

theorem closeStrip_fire (r : Nat) (o : OpenStrip) (m : Chip) (hr : m.bays.running = true) :
    ∃ k, (m.closeStrip r o).fire.closed = m.fire.closed ++ [k] ∧ k.row = r ∧ k.strip = o.strip ∧ k.closeBay = m.closingBay ∧ k.slot =
        o.slot ∧ k.firstCount = o.countFirst ∧ k.lastCount = o.countLast := by
  unfold Chip.closeStrip
  dsimp only
  rw [if_neg (by simp [hr])]
  have hb : ∀ (gs : List Gang) (z : Chip), (forAll gs (fun g m => if (m.pipe g.master).strip ==
      some o.strip && (m.pipe g.master).nextIn == some ((o.strip + 1) * m.rowLines r) then m.stripBoundary g (o.strip + 1) else m)
          z).fire = z.fire := fun gs z =>
    forAll_frame (fun z : Chip => z.fire) _ _ _ (fun g x => apply_ite_fire (eq_fire_Chip_stripBoundary ..))
  rw [hb]
  rw [forAll_frame (fun z : Chip => z.fire) (hf := ?_)]
  · have e1 : ∀ (z : Chip) (b : Bool) (f : Fld), (z.setFlagIf b f).fire = z.fire := fun z b f => by unfold Chip.setFlagIf; split <;> rfl
    rw [e1]
    unfold Chip.onFire
    have e2 : ∀ (y : Chip) (l : List Byte), (y.feedHeader r l).fire = y.fire := fun y l => eq_fire_Chip_feedHeader ..
    have e3 : (Chip.feedHeader r (m.slotHeader r m.closingBay o (o.cut.isSome || (o.slot.isSome && decide ((m.rowRec r).slots ≤
        (m.fire.closed.filter fun c => c.row == r && c.closeBay == m.closingBay && c.slot.isSome && !c.beyond).length))))
      (match o.slot with
      | some s => m.putBytes (m.slotAddr r s) (m.slotHeader r m.closingBay o (o.cut.isSome || (o.slot.isSome && decide ((m.rowRec
          r).slots ≤ (m.fire.closed.filter fun c => c.row == r && c.closeBay == m.closingBay && c.slot.isSome && !c.beyond).length))))
      | none => m)).fire = m.fire := by
      rw [e2]; split
      · exact fr_fire_Chip_putBytes (P := fun z => z.fire = m.fire) (fun _ _ h e => e.trans h) _ _ _ rfl
      · rfl
    refine ⟨_, congrArg (fun q => FireState.closed q ++ _) e3, rfl, rfl, rfl, rfl, rfl, rfl⟩
  · intro g x; split
    · rw [eq_fire_Chip_lpFlag]; rfl
    · rfl

end Sys2Proof.Laws
end

