-- ==== Sys2Proof/Laws/Frames/BaysMarks.lean ====
section
/-!
SUPPORT. Sys2Proof/Laws/Frames/BaysMarks.lean: the operations that leave the bay, its verdicts and its semaphores alone, a lemma for each. `fr_…` carries a property that
depends on nothing else across the operation; `eq_…` says that it reads as before.
-/
namespace Sys2Proof.Laws
open Sys2Proof.Machine

section
variable {P : Chip → Prop} (K : ∀ a b : Chip, P a → b.bays.bay = a.bays.bay → b.bays.running = a.bays.running → b.bays.verdictDone =
    a.bays.verdictDone → b.bays.semS = a.bays.semS → b.bays.semR = a.bays.semR → P b)
include K

theorem fr_baysMarks_lit (m : Chip) {regs time encs fire pegs fio sup boot bays engs mem sramValid sramBad stick wit cams pocs pipes
    rowPipes replays screens pp tenon purlin latches fresh heads eth subs trust text hk nvLog out free} (h : P m) (e0 : bays.bay =
        m.bays.bay) (e1 : bays.running = m.bays.running) (e2 : bays.verdictDone = m.bays.verdictDone) (e3 : bays.semS =
            m.bays.semS) (e4 : bays.semR = m.bays.semR) : P (Chip.mk regs time encs fire pegs fio sup boot bays engs mem sramValid
                sramBad stick wit cams pocs pipes rowPipes replays screens pp tenon purlin latches fresh heads eth subs trust text hk
                    nvLog out free) := K _ _ h e0 e1 e2 e3 e4

theorem fr_baysMarks_Chip_wr (m : Chip) (a : Nat) (v : Word) (h0 : P m) : P (Chip.wr m a v) := K _ _ h0 rfl rfl rfl rfl rfl

theorem fr_baysMarks_Chip_put (m : Chip) (f : Fld) (v : Nat) (h0 : P m) : P (Chip.put m f v) := K _ _ h0 rfl rfl rfl rfl rfl

theorem fr_baysMarks_Chip_markFresh (a i : Nat) (m : Chip) (h0 : P m) : P (Chip.markFresh a i m) := K _ _ h0 rfl rfl rfl rfl rfl

theorem fr_baysMarks_Chip_setFlag (m : Chip) (f : Fld) (h0 : P m) : P (Chip.setFlag m f) := K _ _ h0 rfl rfl rfl rfl rfl

theorem fr_baysMarks_Chip_setFlagIf (m : Chip) (c : Bool) (f : Fld) (h0 : P m) : P (Chip.setFlagIf m c f) := by
  unfold Chip.setFlagIf
  try dsimp only
  repeat'
    first
      | with_reducible
          first
            | assumption | apply fr_baysMarks_Chip_setFlag K | apply keep_ite (P := P)
      | dsimp only | split | with_reducible refine fr_baysMarks_lit K _ ?_ rfl rfl rfl rfl rfl

theorem fr_baysMarks_Chip_bumpBy (m : Chip) (a n : Nat) (h0 : P m) : P (Chip.bumpBy m a n) := K _ _ h0 rfl rfl rfl rfl rfl

theorem fr_baysMarks_Chip_bump (m : Chip) (a : Nat) (h0 : P m) : P (Chip.bump m a) := K _ _ h0 rfl rfl rfl rfl rfl

theorem fr_baysMarks_Chip_bumpIf (m : Chip) (c : Bool) (a : Nat) (h0 : P m) : P (Chip.bumpIf m c a) := by
  unfold Chip.bumpIf
  try dsimp only
  repeat'
    first
      | with_reducible
          first
            | assumption | apply fr_baysMarks_Chip_bump K | apply keep_ite (P := P)
      | dsimp only | split | with_reducible refine fr_baysMarks_lit K _ ?_ rfl rfl rfl rfl rfl

theorem fr_baysMarks_Chip_wr64 (m : Chip) (lo hi : Nat) (v : Nat) (h0 : P m) : P (Chip.wr64 m lo hi v) := K _ _ h0 rfl rfl rfl rfl rfl

theorem fr_baysMarks_Chip_setBit (m : Chip) (a i : Nat) (h0 : P m) : P (Chip.setBit m a i) := K _ _ h0 rfl rfl rfl rfl rfl

theorem fr_baysMarks_Chip_emit (m : Chip) (e : Emit) (h0 : P m) : P (Chip.emit m e) := K _ _ h0 rfl rfl rfl rfl rfl

theorem fr_baysMarks_Chip_log (m : Chip) (what : String) (args : List Nat) (h0 : P m) : P (Chip.log m what args) := by
  unfold Chip.log
  try dsimp only
  repeat'
    first
      | with_reducible
          first
            | assumption | apply keep_ite (P := P)
      | dsimp only | split | with_reducible refine fr_baysMarks_lit K _ ?_ rfl rfl rfl rfl rfl

theorem fr_baysMarks_elapse (dt : Nat) (m : Chip) (h0 : P m) : P (elapse dt m) := K _ _ h0 rfl rfl rfl rfl rfl

theorem fr_baysMarks_Chip_setSrc (m : Chip) (h i : Nat) (e : SrcState) (h0 : P m) : P (Chip.setSrc m h i e) :=
    K _ _ h0 rfl rfl rfl rfl rfl

theorem fr_baysMarks_Chip_setHead (m : Chip) (h : Nat) (v : HeadState) (h0 : P m) : P (Chip.setHead m h v) :=
    K _ _ h0 rfl rfl rfl rfl rfl

theorem fr_baysMarks_Chip_setPipe (m : Chip) (n : Nat) (v : PipeState) (h0 : P m) : P (Chip.setPipe m n v) :=
    K _ _ h0 rfl rfl rfl rfl rfl

theorem fr_baysMarks_Chip_setRowPipe (m : Chip) (r : Nat) (v : RowPipe) (h0 : P m) : P (Chip.setRowPipe m r v) :=
    K _ _ h0 rfl rfl rfl rfl rfl

theorem fr_baysMarks_Chip_setScr (m : Chip) (r : Nat) (v : RowScreen) (h0 : P m) : P (Chip.setScr m r v) := K _ _ h0 rfl rfl rfl rfl rfl

theorem fr_baysMarks_Chip_setEng (m : Chip) (e : Engine) (v : EngState) (h0 : P m) : P (Chip.setEng m e v) :=
    K _ _ h0 rfl rfl rfl rfl rfl

theorem fr_baysMarks_Chip_setJobRun (m : Chip) (j : Nat) (v : JobRun) (h0 : P m) : P (Chip.setJobRun m j v) :=
    K _ _ h0 rfl rfl rfl rfl rfl

theorem fr_baysMarks_Chip_take (dt : Nat) (eff : Chip → Chip) (m : Chip) (h0 : ∀ x0, P x0 →
    P (eff x0)) (h1 : P m) : P (Chip.take dt eff m) := by
  unfold Chip.take
  try dsimp only
  repeat'
    first
      | with_reducible
          first
            | assumption | apply h0 | apply fr_baysMarks_elapse K | apply keep_ite (P := P)
      | (intro _) | dsimp only | split | with_reducible refine fr_baysMarks_lit K _ ?_ rfl rfl rfl rfl rfl

theorem fr_baysMarks_Chip_toSubs (m : Chip) (r : StreamRec) (h0 : P m) : P (Chip.toSubs m r) := by
  unfold Chip.toSubs
  try dsimp only
  repeat'
    first
      | with_reducible
          first
            | assumption | apply fr_baysMarks_Chip_bump K | apply keep_forAll (P := P)
      | (intro _) | dsimp only | split | with_reducible refine fr_baysMarks_lit K _ ?_ rfl rfl rfl rfl rfl

theorem fr_baysMarks_Chip_release (m : Chip) (r : ResultRec) (h0 : P m) : P (Chip.release m r) := by
  unfold Chip.release
  try dsimp only
  repeat'
    first
      | with_reducible
          first
            | assumption | apply fr_baysMarks_Chip_emit K | apply fr_baysMarks_Chip_toSubs K
      | dsimp only | split | with_reducible refine fr_baysMarks_lit K _ ?_ rfl rfl rfl rfl rfl

theorem fr_baysMarks_Chip_onPur (f : PurlinState → PurlinState) (m : Chip) (h0 : P m) : P (Chip.onPur f m) :=
    K _ _ h0 rfl rfl rfl rfl rfl

theorem fr_baysMarks_Chip_setPurPort (p : Nat) (v : PurPort) (m : Chip) (h0 : P m) : P (Chip.setPurPort p v m) :=
    K _ _ h0 rfl rfl rfl rfl rfl

theorem fr_baysMarks_Chip_modPurPort (p : Nat) (f : PurPort → PurPort) (m : Chip) (h0 : P m) : P (Chip.modPurPort p f m) :=
    K _ _ h0 rfl rfl rfl rfl rfl

theorem fr_baysMarks_Chip_purTx (p : Nat) (f : PurFrame) (m : Chip) (h0 : P m) : P (Chip.purTx p f m) := K _ _ h0 rfl rfl rfl rfl rfl

theorem fr_baysMarks_Chip_linkSend (p : Nat) (l : LinkRec) (m : Chip) (h0 : P m) : P (Chip.linkSend p l m) :=
    K _ _ h0 rfl rfl rfl rfl rfl

theorem fr_baysMarks_Chip_giveBack (p : Nat) (f : PurFrame) (m : Chip) (h0 : P m) : P (Chip.giveBack p f m) := by
  unfold Chip.giveBack
  try dsimp only
  repeat'
    first
      | with_reducible
          first
            | assumption | apply fr_baysMarks_Chip_linkSend K | apply keep_ite (P := P)
      | dsimp only | split | with_reducible refine fr_baysMarks_lit K _ ?_ rfl rfl rfl rfl rfl

theorem fr_baysMarks_Chip_giveBackOpt (via : Option Nat) (f : PurFrame) (m : Chip) (h0 : P m) : P (Chip.giveBackOpt via f m) := by
  unfold Chip.giveBackOpt
  try dsimp only
  repeat'
    first
      | with_reducible
          first
            | assumption | apply fr_baysMarks_Chip_giveBack K
      | split | dsimp only | with_reducible refine fr_baysMarks_lit K _ ?_ rfl rfl rfl rfl rfl

theorem fr_baysMarks_Chip_purPump (p : Nat) (y0 : Nat) (y1 : Chip) (h0 : P y1) : P (Chip.purPump p y0 y1) := by
  induction y0 generalizing y1 with
  | zero => exact h0
  | succ n ih =>
    unfold Chip.purPump
    try dsimp only
    repeat'
      first
        | with_reducible
            first
              | assumption | apply ih | apply fr_baysMarks_Chip_setPurPort K | apply fr_baysMarks_Chip_purTx K
              | apply fr_baysMarks_Chip_giveBackOpt K | apply keep_ite (P := P)
        | (intro _) | split | with_reducible refine fr_baysMarks_lit K _ ?_ rfl rfl rfl rfl rfl

theorem fr_baysMarks_Chip_purFlush (p : Nat) (m : Chip) (h0 : P m) : P (Chip.purFlush p m) := by
  unfold Chip.purFlush
  try dsimp only
  repeat'
    first
      | with_reducible
          first
            | assumption | apply fr_baysMarks_Chip_purPump K
      | dsimp only | split | with_reducible refine fr_baysMarks_lit K _ ?_ rfl rfl rfl rfl rfl

theorem fr_baysMarks_Chip_mirrorOut (body : PurBody) (length : Nat) (m : Chip) (h0 : P m) : P (Chip.mirrorOut body length m) := by
  unfold Chip.mirrorOut
  try dsimp only
  repeat'
    first
      | with_reducible
          first
            | assumption | apply fr_baysMarks_Chip_modPurPort K | apply fr_baysMarks_Chip_purFlush K | apply keep_ite (P := P)
      | (intro _) | dsimp only | split | with_reducible refine fr_baysMarks_lit K _ ?_ rfl rfl rfl rfl rfl

theorem fr_baysMarks_Chip_mirrorFrame (id : Nat) (r : MirrorRec) (m : Chip) (h0 : P m) : P (Chip.mirrorFrame id r m) := by
  unfold Chip.mirrorFrame
  try dsimp only
  repeat'
    first
      | with_reducible
          first
            | assumption | apply fr_baysMarks_Chip_mirrorOut K
      | dsimp only | split | with_reducible refine fr_baysMarks_lit K _ ?_ rfl rfl rfl rfl rfl

theorem fr_baysMarks_Chip_setQueue (m : Chip) (p : Nat) (q : List FEntry) (h0 : P m) : P (Chip.setQueue m p q) :=
    K _ _ h0 rfl rfl rfl rfl rfl

theorem fr_baysMarks_Chip_mirrorSend (m : Chip) (r : MirrorRec) (h0 : P m) : P (Chip.mirrorSend m r) := by
  unfold Chip.mirrorSend
  try dsimp only
  repeat'
    first
      | with_reducible
          first
            | assumption | apply fr_baysMarks_Chip_mirrorFrame K
      | dsimp only | split | with_reducible refine fr_baysMarks_lit K _ ?_ rfl rfl rfl rfl rfl

theorem fr_baysMarks_Chip_entryCancelled (m : Chip) (e : FEntry) (h0 : P m) : P (Chip.entryCancelled m e) := by
  unfold Chip.entryCancelled
  try dsimp only
  repeat'
    first
      | with_reducible
          first
            | assumption | apply fr_baysMarks_Chip_bump K | apply fr_baysMarks_Chip_release K | apply fr_baysMarks_Chip_mirrorSend K
            | apply keep_ite (P := P)
      | dsimp only | split | with_reducible refine fr_baysMarks_lit K _ ?_ rfl rfl rfl rfl rfl

theorem fr_baysMarks_Chip_cancelIn (p : Nat) (c : FEntry → Bool) (m : Chip) (h0 : P m) : P (Chip.cancelIn p c m) := by
  unfold Chip.cancelIn
  try dsimp only
  repeat'
    first
      | with_reducible
          first
            | assumption | apply fr_baysMarks_Chip_setQueue K | apply fr_baysMarks_Chip_entryCancelled K | apply keep_forAll (P := P)
      | (intro _) | dsimp only | split | with_reducible refine fr_baysMarks_lit K _ ?_ rfl rfl rfl rfl rfl

theorem fr_baysMarks_Chip_cancelAll (c : FEntry → Bool) (m : Chip) (h0 : P m) : P (Chip.cancelAll c m) := by
  unfold Chip.cancelAll
  try dsimp only
  repeat'
    first
      | with_reducible
          first
            | assumption | apply fr_baysMarks_Chip_cancelIn K | apply keep_forAll (P := P)
      | (intro _) | dsimp only | split | with_reducible refine fr_baysMarks_lit K _ ?_ rfl rfl rfl rfl rfl

theorem fr_baysMarks_Chip_dropResvs (c : Resv → Bool) (m : Chip) (h0 : P m) : P (Chip.dropResvs c m) := K _ _ h0 rfl rfl rfl rfl rfl

theorem fr_baysMarks_Chip_countDropped (m : Chip) (r : Resv) (h0 : P m) : P (Chip.countDropped m r) := by
  unfold Chip.countDropped
  try dsimp only
  repeat'
    first
      | with_reducible
          first
            | assumption | apply fr_baysMarks_Chip_setFlag K | apply fr_baysMarks_Chip_bump K | apply keep_ite (P := P)
      | dsimp only | split | with_reducible refine fr_baysMarks_lit K _ ?_ rfl rfl rfl rfl rfl

theorem fr_baysMarks_Chip_refreshOutputs (m : Chip) (h0 : P m) : P (Chip.refreshOutputs m) := by
  unfold Chip.refreshOutputs
  try dsimp only
  repeat'
    first
      | with_reducible
          first
            | assumption | apply fr_baysMarks_Chip_put K | apply fr_baysMarks_Chip_emit K | apply keep_foldl (P := P)
            | apply keep_foldl2 (P := P) | apply keep_ite (P := P)
      | (intro _) | dsimp only | split | with_reducible refine fr_baysMarks_lit K _ ?_ rfl rfl rfl rfl rfl

theorem fr_baysMarks_Chip_setMode (new : Nat) (cause : Option Src) (m : Chip) (h0 : P m) : P (Chip.setMode new cause m) := by
  unfold Chip.setMode
  try dsimp only
  repeat'
    first
      | with_reducible
          first
            | assumption | apply fr_baysMarks_Chip_put K
      | split | dsimp only | with_reducible refine fr_baysMarks_lit K _ ?_ rfl rfl rfl rfl rfl

theorem fr_baysMarks_Chip_dropResume (m : Chip) (h0 : P m) : P (Chip.dropResume m) := K _ _ h0 rfl rfl rfl rfl rfl

theorem fr_baysMarks_Chip_enterSafe (cause : Option Src) (m : Chip) (h0 : P m) : P (Chip.enterSafe cause m) := by
  unfold Chip.enterSafe
  try dsimp only
  repeat'
    first
      | with_reducible
          first
            | assumption | apply fr_baysMarks_Chip_bump K | apply fr_baysMarks_Chip_cancelAll K | apply fr_baysMarks_Chip_dropResvs K
            | apply fr_baysMarks_Chip_refreshOutputs K | apply fr_baysMarks_Chip_setMode K | apply fr_baysMarks_Chip_dropResume K
            | apply keep_ite (P := P)
      | (intro _) | dsimp only | split | with_reducible refine fr_baysMarks_lit K _ ?_ rfl rfl rfl rfl rfl

theorem fr_baysMarks_Chip_bucketEdge (c : Src) (m : Chip) (h0 : P m) : P (Chip.bucketEdge c m) := by
  unfold Chip.bucketEdge
  try dsimp only
  repeat'
    first
      | with_reducible
          first
            | assumption | apply fr_baysMarks_Chip_put K | apply fr_baysMarks_Chip_setFlag K | apply fr_baysMarks_Chip_bump K
            | apply fr_baysMarks_Chip_setSrc K | apply keep_ite (P := P)
      | split | dsimp only | with_reducible refine fr_baysMarks_lit K _ ?_ rfl rfl rfl rfl rfl

theorem fr_baysMarks_Chip_severityAct (c : Src) (m : Chip) (h0 : P m) : P (Chip.severityAct c m) := by
  unfold Chip.severityAct
  try dsimp only
  repeat'
    first
      | with_reducible
          first
            | assumption | apply fr_baysMarks_Chip_setBit K | apply fr_baysMarks_Chip_emit K | apply fr_baysMarks_Chip_log K
            | apply fr_baysMarks_Chip_setSrc K | apply fr_baysMarks_Chip_refreshOutputs K | apply fr_baysMarks_Chip_enterSafe K
            | apply keep_ite (P := P)
      | dsimp only | split | with_reducible refine fr_baysMarks_lit K _ ?_ rfl rfl rfl rfl rfl

theorem fr_baysMarks_Chip_raise (c : Src) (m : Chip) (h0 : P m) : P (Chip.raise c m) := by
  unfold Chip.raise
  try dsimp only
  repeat'
    first
      | with_reducible
          first
            | assumption | apply fr_baysMarks_Chip_setBit K | apply fr_baysMarks_Chip_bucketEdge K
            | apply fr_baysMarks_Chip_severityAct K
      | dsimp only | split | with_reducible refine fr_baysMarks_lit K _ ?_ rfl rfl rfl rfl rfl

theorem fr_baysMarks_Chip_deassert (c : Src) (m : Chip) (h0 : P m) : P (Chip.deassert c m) := K _ _ h0 rfl rfl rfl rfl rfl

theorem fr_baysMarks_Chip_putByte (m : Chip) (g : Nat) (b : Byte) (h0 : P m) : P (Chip.putByte m g b) := by
  unfold Chip.putByte
  try dsimp only
  repeat'
    first
      | with_reducible
          first
            | assumption | apply keep_ite (P := P)
      | (intro _) | dsimp only | split | with_reducible refine fr_baysMarks_lit K _ ?_ rfl rfl rfl rfl rfl

theorem fr_baysMarks_Chip_putBytes (m : Chip) (g : Nat) (y0 : List Byte) (h0 : P m) : P (Chip.putBytes m g y0) := by
  induction y0 generalizing m g with
  | nil => exact h0
  | cons b t ih => exact ih _ _ (fr_baysMarks_Chip_putByte K _ _ _ h0)

theorem fr_baysMarks_Chip_purRoute (via : Option Nat) (f : PurFrame) (m : Chip) (h0 : P m) : P (Chip.purRoute via f m) := by
  unfold Chip.purRoute
  try dsimp only
  repeat'
    first
      | with_reducible
          first
            | assumption | apply fr_baysMarks_Chip_bump K | apply fr_baysMarks_Chip_modPurPort K | apply fr_baysMarks_Chip_giveBackOpt K
            | apply fr_baysMarks_Chip_purFlush K | apply keep_ite (P := P)
      | (intro _) | dsimp only | split | with_reducible refine fr_baysMarks_lit K _ ?_ rfl rfl rfl rfl rfl

theorem fr_baysMarks_Chip_setFlow (v : PurFlow) (m : Chip) (h0 : P m) : P (Chip.setFlow v m) := K _ _ h0 rfl rfl rfl rfl rfl

theorem fr_baysMarks_Chip_flowDrain (dev cls : Nat) (y0 : Nat) (y1 : Chip) (h0 : P y1) : P (Chip.flowDrain dev cls y0 y1) := by
  induction y0 generalizing y1 with
  | zero => exact h0
  | succ n ih =>
    unfold Chip.flowDrain
    try dsimp only
    repeat'
      first
        | with_reducible
            first
              | assumption | apply ih | apply fr_baysMarks_Chip_purRoute K | apply fr_baysMarks_Chip_setFlow K | apply keep_ite (P := P)
        | (intro _) | split | with_reducible refine fr_baysMarks_lit K _ ?_ rfl rfl rfl rfl rfl

theorem fr_baysMarks_Chip_flowRun (dev cls : Nat) (m : Chip) (h0 : P m) : P (Chip.flowRun dev cls m) := by
  unfold Chip.flowRun
  try dsimp only
  repeat'
    first
      | with_reducible
          first
            | assumption | apply fr_baysMarks_Chip_flowDrain K
      | dsimp only | split | with_reducible refine fr_baysMarks_lit K _ ?_ rfl rfl rfl rfl rfl

theorem fr_baysMarks_Chip_flowSend (dev cls : Nat) (body : PurBody) (length : Nat) (m : Chip) (h0 : P m) : P (Chip.flowSend dev cls body
    length m) := by
  unfold Chip.flowSend
  try dsimp only
  repeat'
    first
      | with_reducible
          first
            | assumption | apply fr_baysMarks_Chip_setFlow K | apply fr_baysMarks_Chip_flowRun K
      | dsimp only | split | with_reducible refine fr_baysMarks_lit K _ ?_ rfl rfl rfl rfl rfl

theorem fr_baysMarks_Chip_dataSend (dev closeBay space unit dst tag : Nat) (bytes : List Byte) (m : Chip) (h0 : P m) : P (Chip.dataSend
    dev closeBay space unit dst tag bytes m) := by
  unfold Chip.dataSend
  try dsimp only
  repeat'
    first
      | with_reducible
          first
            | assumption | apply fr_baysMarks_Chip_take K | apply fr_baysMarks_Chip_flowSend K | apply keep_forAll (P := P)
            | apply keep_ite (P := P)
      | (intro _) | dsimp only | split | with_reducible refine fr_baysMarks_lit K _ ?_ rfl rfl rfl rfl rfl

theorem fr_baysMarks_Chip_marksSend (f : MarksFrame) (m : Chip) (h0 : P m) : P (Chip.marksSend f m) := by
  unfold Chip.marksSend
  try dsimp only
  repeat'
    first
      | with_reducible
          first
            | assumption | apply fr_baysMarks_Chip_flowSend K
      | split | dsimp only | with_reducible refine fr_baysMarks_lit K _ ?_ rfl rfl rfl rfl rfl

theorem fr_baysMarks_Chip_feed (row a : Nat) (bytes : List Byte) (m : Chip) (h0 : P m) : P (Chip.feed row a bytes m) := by
  unfold Chip.feed
  try dsimp only
  repeat'
    first
      | with_reducible
          first
            | assumption | apply fr_baysMarks_Chip_dataSend K | apply keep_ite (P := P)
      | (intro _) | dsimp only | split | with_reducible refine fr_baysMarks_lit K _ ?_ rfl rfl rfl rfl rfl

theorem fr_baysMarks_Chip_feedHeader (row : Nat) (bytes : List Byte) (m : Chip) (h0 : P m) : P (Chip.feedHeader row bytes m) := by
  unfold Chip.feedHeader
  try dsimp only
  repeat'
    first
      | with_reducible
          first
            | assumption | apply fr_baysMarks_Chip_feed K
      | (intro _) | dsimp only | split | with_reducible refine fr_baysMarks_lit K _ ?_ rfl rfl rfl rfl rfl

theorem fr_baysMarks_Chip_onWit (f : WitState → WitState) (m : Chip) (h0 : P m) : P (Chip.onWit f m) := K _ _ h0 rfl rfl rfl rfl rfl

theorem fr_baysMarks_Chip_witPush (r : WitRec) (m : Chip) (h0 : P m) : P (Chip.witPush r m) := by
  unfold Chip.witPush
  try dsimp only
  repeat'
    first
      | with_reducible
          first
            | assumption | apply fr_baysMarks_Chip_setFlag K | apply fr_baysMarks_Chip_bump K | apply keep_ite (P := P)
      | dsimp only | split | with_reducible refine fr_baysMarks_lit K _ ?_ rfl rfl rfl rfl rfl

theorem fr_baysMarks_Chip_witDrain (m : Chip) (h0 : P m) : P (Chip.witDrain m) := by
  unfold Chip.witDrain
  try dsimp only
  repeat'
    first
      | with_reducible
          first
            | assumption | apply fr_baysMarks_Chip_emit K | apply fr_baysMarks_Chip_log K | apply fr_baysMarks_Chip_toSubs K
            | apply keep_forAll (P := P) | apply keep_ite (P := P)
      | (intro _) | dsimp only | split | with_reducible refine fr_baysMarks_lit K _ ?_ rfl rfl rfl rfl rfl

theorem fr_baysMarks_Chip_ringAdd (s : MarkSet) (m : Chip) (h0 : P m) : P (Chip.ringAdd s m) := K _ _ h0 rfl rfl rfl rfl rfl

theorem fr_baysMarks_Chip_lockCompare (f : MarksFrame) (s : MarkSet) (m : Chip) (h0 : P m) : P (Chip.lockCompare f s m) := by
  unfold Chip.lockCompare
  try dsimp only
  repeat'
    first
      | with_reducible
          first
            | assumption | apply fr_baysMarks_Chip_put K | apply fr_baysMarks_Chip_setFlag K | apply fr_baysMarks_Chip_bump K
            | apply fr_baysMarks_Chip_wr64 K | apply fr_baysMarks_Chip_raise K | apply keep_ite (P := P)
      | split | dsimp only | with_reducible refine fr_baysMarks_lit K _ ?_ rfl rfl rfl rfl rfl

theorem fr_baysMarks_Chip_followSet (s : MarkSet) (m : Chip) (h0 : P m) : P (Chip.followSet s m) := by
  unfold Chip.followSet
  try dsimp only
  repeat'
    first
      | with_reducible
          first
            | assumption | apply fr_baysMarks_Chip_onWit K | apply fr_baysMarks_Chip_lockCompare K | apply keep_ite (P := P)
      | (intro _) | split | dsimp only | with_reducible refine fr_baysMarks_lit K _ ?_ rfl rfl rfl rfl rfl

theorem fr_baysMarks_Chip_releaseSet (s0 : MarkSet) (m : Chip) (h0 : P m) : P (Chip.releaseSet s0 m) := by
  unfold Chip.releaseSet
  try dsimp only
  repeat'
    first
      | with_reducible
          first
            | assumption | apply fr_baysMarks_Chip_setFlag K | apply fr_baysMarks_Chip_setFlagIf K | apply fr_baysMarks_Chip_bump K
            | apply fr_baysMarks_Chip_marksSend K | apply fr_baysMarks_Chip_witPush K | apply fr_baysMarks_Chip_ringAdd K
            | apply fr_baysMarks_Chip_followSet K | apply keep_forAll (P := P) | apply keep_ite (P := P)
      | (intro _) | dsimp only | split | with_reducible refine fr_baysMarks_lit K _ ?_ rfl rfl rfl rfl rfl

theorem fr_baysMarks_Chip_releasePair (j k : Nat) (m : Chip) (h0 : P m) : P (Chip.releasePair j k m) := by
  unfold Chip.releasePair
  try dsimp only
  repeat'
    first
      | with_reducible
          first
            | assumption | apply fr_baysMarks_Chip_onWit K | apply fr_baysMarks_Chip_releaseSet K
      | (intro _) | split | dsimp only | with_reducible refine fr_baysMarks_lit K _ ?_ rfl rfl rfl rfl rfl

theorem fr_baysMarks_Chip_setArrives (s : MarkSet) (m : Chip) (h0 : P m) : P (Chip.setArrives s m) := by
  unfold Chip.setArrives
  try dsimp only
  repeat'
    first
      | with_reducible
          first
            | assumption | apply fr_baysMarks_Chip_onWit K | apply fr_baysMarks_Chip_releaseSet K | apply keep_ite (P := P)
      | (intro _) | dsimp only | split | with_reducible refine fr_baysMarks_lit K _ ?_ rfl rfl rfl rfl rfl

theorem fr_baysMarks_Chip_showBent (n : Nat) (m : Chip) (h0 : P m) : P (Chip.showBent n m) := K _ _ h0 rfl rfl rfl rfl rfl

theorem fr_baysMarks_Chip_showEng (e : Engine) (m : Chip) (h0 : P m) : P (Chip.showEng e m) := by
  unfold Chip.showEng
  try dsimp only
  repeat'
    first
      | with_reducible
          first
            | assumption | apply fr_baysMarks_Chip_put K | apply fr_baysMarks_Chip_showBent K | apply keep_ite (P := P)
      | (intro _) | split | dsimp only | with_reducible refine fr_baysMarks_lit K _ ?_ rfl rfl rfl rfl rfl

theorem fr_baysMarks_Chip_rollBack (e : Engine) (m : Chip) (h0 : P m) : P (Chip.rollBack e m) := by
  unfold Chip.rollBack
  try dsimp only
  repeat'
    first
      | with_reducible
          first
            | assumption | apply fr_baysMarks_Chip_setFlag K | apply fr_baysMarks_Chip_bump K | apply fr_baysMarks_Chip_setEng K
            | apply fr_baysMarks_Chip_showEng K
      | split | dsimp only | with_reducible refine fr_baysMarks_lit K _ ?_ rfl rfl rfl rfl rfl

theorem fr_baysMarks_Chip_putPos (m : Chip) (lo hi : Nat) (pos : Int) (h0 : P m) : P (Chip.putPos m lo hi pos) :=
    K _ _ h0 rfl rfl rfl rfl rfl

theorem fr_baysMarks_Chip_encBayLatch (m : Chip) (h0 : P m) : P (Chip.encBayLatch m) := by
  unfold Chip.encBayLatch
  try dsimp only
  repeat'
    first
      | with_reducible
          first
            | assumption | apply fr_baysMarks_Chip_putPos K | apply keep_forAll (P := P) | apply keep_ite (P := P)
      | (intro _) | dsimp only | split | with_reducible refine fr_baysMarks_lit K _ ?_ rfl rfl rfl rfl rfl

theorem fr_baysMarks_Chip_onFire (f : FireState → FireState) (m : Chip) (h0 : P m) : P (Chip.onFire f m) := K _ _ h0 rfl rfl rfl rfl rfl

theorem fr_baysMarks_Chip_commitSamples (stream strip obj : Nat) (m : Chip) (h0 : P m) : P (Chip.commitSamples stream strip obj m) := by
  unfold Chip.commitSamples
  try dsimp only
  repeat' (first | with_reducible assumption | (intro _) | with_reducible apply fr_baysMarks_Chip_bumpBy K
                 | with_reducible apply fr_baysMarks_Chip_setHead K | with_reducible apply keep_forAll (P := P)
                 | with_reducible apply keep_foldl (P := P) | with_reducible apply keep_foldl2 (P := P)
                 | with_reducible apply keep_ite (P := P) | dsimp only | split
                 | with_reducible refine fr_baysMarks_lit K _ ?_ rfl rfl rfl rfl rfl)

theorem fr_baysMarks_Chip_countObj (row : Nat) (r : ResultRec) (m : Chip) (h0 : P m) : P (Chip.countObj row r m) := by
  unfold Chip.countObj
  try dsimp only
  repeat'
    first
      | with_reducible
          first
            | assumption | apply fr_baysMarks_Chip_bump K | apply keep_ite (P := P)
      | split | dsimp only | with_reducible refine fr_baysMarks_lit K _ ?_ rfl rfl rfl rfl rfl

theorem fr_baysMarks_Chip_keepEvidence (row : Nat) (r : ResultRec) (m : Chip) (h0 : P m) : P (Chip.keepEvidence row r m) := by
  unfold Chip.keepEvidence
  try dsimp only
  repeat'
    first
      | with_reducible
          first
            | assumption | apply fr_baysMarks_Chip_log K | apply fr_baysMarks_Chip_onFire K | apply keep_ite (P := P)
      | (intro _) | split | dsimp only | with_reducible refine fr_baysMarks_lit K _ ?_ rfl rfl rfl rfl rfl

theorem fr_baysMarks_Chip_releaseObj (row : Nat) (r : ResultRec) (m : Chip) (h0 : P m) : P (Chip.releaseObj row r m) := by
  unfold Chip.releaseObj
  try dsimp only
  repeat'
    first
      | with_reducible
          first
            | assumption | apply fr_baysMarks_Chip_release K | apply fr_baysMarks_Chip_commitSamples K
            | apply fr_baysMarks_Chip_countObj K | apply fr_baysMarks_Chip_keepEvidence K | apply keep_ite (P := P)
      | dsimp only | split | with_reducible refine fr_baysMarks_lit K _ ?_ rfl rfl rfl rfl rfl

theorem fr_baysMarks_Chip_releaseHeld (k : EntKey) (m : Chip) (h0 : P m) : P (Chip.releaseHeld k m) := by
  unfold Chip.releaseHeld
  try dsimp only
  repeat'
    first
      | with_reducible
          first
            | assumption | apply fr_baysMarks_Chip_onFire K | apply fr_baysMarks_Chip_releaseObj K
      | (intro _) | split | dsimp only | with_reducible refine fr_baysMarks_lit K _ ?_ rfl rfl rfl rfl rfl

theorem fr_baysMarks_Chip_queueEntry (e : FEntry) (m : Chip) (h0 : P m) : P (Chip.queueEntry e m) := by
  unfold Chip.queueEntry
  try dsimp only
  repeat'
    first
      | with_reducible
          first
            | assumption | apply fr_baysMarks_Chip_put K | apply fr_baysMarks_Chip_bump K | apply fr_baysMarks_Chip_setQueue K
            | apply fr_baysMarks_Chip_cancelIn K | apply fr_baysMarks_Chip_releaseHeld K | apply keep_ite (P := P)
      | (intro _) | dsimp only | split | with_reducible refine fr_baysMarks_lit K _ ?_ rfl rfl rfl rfl rfl

theorem fr_baysMarks_Chip_offer (l : List FEntry) (m : Chip) (h0 : P m) : P (Chip.offer l m).2 := by
  unfold Chip.offer
  try dsimp only
  repeat'
    first
      | with_reducible
          first
            | assumption | apply fr_baysMarks_Chip_setFlag K | apply fr_baysMarks_Chip_bump K | apply fr_baysMarks_Chip_mirrorSend K
            | apply fr_baysMarks_Chip_raise K | apply fr_baysMarks_Chip_queueEntry K | apply keep_foldl (P := P)
            | apply keep_foldl2 (P := P) | apply keep_ite (P := P)
      | (intro _) | dsimp only | split | with_reducible refine fr_baysMarks_lit K _ ?_ rfl rfl rfl rfl rfl

theorem fr_baysMarks_Chip_addEntries (r k n : Nat) (m : Chip) (h0 : P m) : P (Chip.addEntries r k n m) := K _ _ h0 rfl rfl rfl rfl rfl

theorem fr_baysMarks_Chip_judgeObj (o : ObjIn) (indet : Bool) (m : Chip) (h0 : P m) : P (Chip.judgeObj o indet m) := by
  unfold Chip.judgeObj
  try dsimp only
  repeat'
    first
      | with_reducible
          first
            | assumption | apply fr_baysMarks_Chip_setFlag K | apply fr_baysMarks_Chip_bumpBy K | apply fr_baysMarks_Chip_bump K
            | apply fr_baysMarks_Chip_raise K | apply fr_baysMarks_Chip_onFire K | apply fr_baysMarks_Chip_releaseObj K
            | apply fr_baysMarks_Chip_offer K | apply fr_baysMarks_Chip_addEntries K | apply keep_ite (P := P)
      | (intro _) | dsimp only | split | with_reducible refine fr_baysMarks_lit K _ ?_ rfl rfl rfl rfl rfl

theorem fr_baysMarks_Chip_takeObj (o : ObjIn) (m : Chip) (h0 : P m) : P (Chip.takeObj o m) := by
  unfold Chip.takeObj
  try dsimp only
  repeat'
    first
      | with_reducible
          first
            | assumption | apply fr_baysMarks_Chip_releaseObj K | apply fr_baysMarks_Chip_judgeObj K | apply keep_ite (P := P)
      | split | dsimp only | with_reducible refine fr_baysMarks_lit K _ ?_ rfl rfl rfl rfl rfl

theorem fr_baysMarks_Chip_markTaken (j stream row strip closeBay : Nat) (m : Chip) (h0 : P m) : P (Chip.markTaken j stream row strip
    closeBay m) := K _ _ h0 rfl rfl rfl rfl rfl

theorem fr_baysMarks_Chip_countDue (c : ClosedStrip → Bool) (m : Chip) (h0 : P m) : P (Chip.countDue c m) := by
  unfold Chip.countDue
  try dsimp only
  repeat'
    first
      | with_reducible
          first
            | assumption | apply fr_baysMarks_Chip_bump K | apply fr_baysMarks_Chip_onFire K | apply keep_forAll (P := P)
            | apply keep_ite (P := P)
      | (intro _) | dsimp only | split | with_reducible refine fr_baysMarks_lit K _ ?_ rfl rfl rfl rfl rfl

theorem fr_baysMarks_Chip_resolve (row strip : Nat) (m : Chip) (h0 : P m) : P (Chip.resolve row strip m) := by
  unfold Chip.resolve
  try dsimp only
  repeat'
    first
      | with_reducible
          first
            | assumption | apply fr_baysMarks_Chip_bump K | apply fr_baysMarks_Chip_dropResvs K | apply fr_baysMarks_Chip_countDropped K
            | apply fr_baysMarks_Chip_countDue K | apply keep_forAll (P := P) | apply keep_foldl (P := P) | apply keep_foldl2 (P := P)
            | apply keep_ite (P := P)
      | (intro _) | dsimp only | split | with_reducible refine fr_baysMarks_lit K _ ?_ rfl rfl rfl rfl rfl

theorem fr_baysMarks_Chip_afterGroup (j row strip closeBay : Nat) (m : Chip) (h0 : P m) : P (Chip.afterGroup j row strip closeBay m) :=
    by
  unfold Chip.afterGroup
  try dsimp only
  repeat'
    first
      | with_reducible
          first
            | assumption | apply fr_baysMarks_Chip_onWit K | apply fr_baysMarks_Chip_releaseSet K
            | apply fr_baysMarks_Chip_releasePair K | apply fr_baysMarks_Chip_onFire K | apply fr_baysMarks_Chip_resolve K
            | apply keep_ite (P := P)
      | (intro _) | dsimp only | split | with_reducible refine fr_baysMarks_lit K _ ?_ rfl rfl rfl rfl rfl

theorem fr_baysMarks_Chip_takeExtent (c : ClosedStrip) (job stream : Nat) (m : Chip) (h0 : P m) : P (Chip.takeExtent c job stream m) :=
    by
  unfold Chip.takeExtent
  try dsimp only
  repeat'
    first
      | with_reducible
          first
            | assumption | apply fr_baysMarks_Chip_judgeObj K | apply keep_ite (P := P)
      | split | dsimp only | with_reducible refine fr_baysMarks_lit K _ ?_ rfl rfl rfl rfl rfl

theorem fr_baysMarks_Chip_noticeObj (stream closeBay job : Nat) (p : ProvRec) (m : Chip) (h0 : P m) : P (Chip.noticeObj stream closeBay
    job p m) := by
  unfold Chip.noticeObj
  try dsimp only
  repeat'
    first
      | with_reducible
          first
            | assumption | apply fr_baysMarks_Chip_onFire K | apply fr_baysMarks_Chip_takeObj K | apply keep_ite (P := P)
      | (intro _) | dsimp only | split | with_reducible refine fr_baysMarks_lit K _ ?_ rfl rfl rfl rfl rfl

theorem fr_baysMarks_Chip_takeNotice (c : ClosedStrip) (job stream : Nat) (m : Chip) (h0 : P m) : P (Chip.takeNotice c job stream m) :=
    by
  unfold Chip.takeNotice
  try dsimp only
  repeat'
    first
      | with_reducible
          first
            | assumption | apply fr_baysMarks_Chip_markTaken K | apply fr_baysMarks_Chip_afterGroup K
            | apply fr_baysMarks_Chip_takeExtent K | apply fr_baysMarks_Chip_noticeObj K | apply keep_forAll (P := P)
            | apply keep_ite (P := P)
      | (intro _) | dsimp only | split | with_reducible refine fr_baysMarks_lit K _ ?_ rfl rfl rfl rfl rfl

theorem fr_baysMarks_Chip_saveLive (e : Engine) (j k : Nat) (m : Chip) (h0 : P m) : P (Chip.saveLive e j k m) := by
  unfold Chip.saveLive
  try dsimp only
  repeat'
    first
      | with_reducible
          first
            | assumption | apply fr_baysMarks_Chip_setEng K | apply fr_baysMarks_Chip_putBytes K
      | (intro _) | split | dsimp only | with_reducible refine fr_baysMarks_lit K _ ?_ rfl rfl rfl rfl rfl

theorem fr_baysMarks_Chip_parkBg (e : Engine) (j : Nat) (m : Chip) (h0 : P m) : P (Chip.parkBg e j m) := by
  unfold Chip.parkBg
  try dsimp only
  repeat'
    first
      | with_reducible
          first
            | assumption | apply fr_baysMarks_Chip_saveLive K | apply keep_ite (P := P)
      | split | dsimp only | with_reducible refine fr_baysMarks_lit K _ ?_ rfl rfl rfl rfl rfl

theorem fr_baysMarks_Chip_engBoundary (e : Engine) (m0 : Chip) (h0 : P m0) : P (Chip.engBoundary e m0) := by
  unfold Chip.engBoundary
  try dsimp only
  repeat'
    first
      | with_reducible
          first
            | assumption | apply fr_baysMarks_Chip_put K | apply fr_baysMarks_Chip_setEng K | apply fr_baysMarks_Chip_showEng K
            | apply fr_baysMarks_Chip_rollBack K
      | split | dsimp only | with_reducible refine fr_baysMarks_lit K _ ?_ rfl rfl rfl rfl rfl

theorem fr_baysMarks_Chip_forgetBg (j : Nat) (m : Chip) (h0 : P m) : P (Chip.forgetBg j m) := K _ _ h0 rfl rfl rfl rfl rfl

theorem fr_baysMarks_Chip_abortJob (j b : Nat) (m : Chip) (h0 : P m) : P (Chip.abortJob j b m) := by
  unfold Chip.abortJob
  try dsimp only
  repeat'
    first
      | with_reducible
          first
            | assumption | apply fr_baysMarks_Chip_bump K | apply fr_baysMarks_Chip_release K | apply fr_baysMarks_Chip_dropResvs K
            | apply fr_baysMarks_Chip_onFire K | apply keep_forAll (P := P) | apply keep_ite (P := P)
      | (intro _) | dsimp only | split | with_reducible refine fr_baysMarks_lit K _ ?_ rfl rfl rfl rfl rfl

theorem fr_baysMarks_Chip_flushJob (j b : Nat) (m : Chip) (h0 : P m) : P (Chip.flushJob j b m) := K _ _ h0 rfl rfl rfl rfl rfl

theorem fr_baysMarks_Chip_disableJob (b j v : Nat) (m : Chip) (h0 : P m) : P (Chip.disableJob b j v m) := by
  unfold Chip.disableJob
  try dsimp only
  repeat'
    first
      | with_reducible
          first
            | assumption | apply fr_baysMarks_Chip_setJobRun K | apply fr_baysMarks_Chip_cancelAll K
            | apply fr_baysMarks_Chip_dropResvs K | apply fr_baysMarks_Chip_parkBg K | apply fr_baysMarks_Chip_forgetBg K
            | apply fr_baysMarks_Chip_abortJob K | apply fr_baysMarks_Chip_flushJob K | apply keep_forAll (P := P)
            | apply keep_ite (P := P)
      | (intro _) | dsimp only | split | with_reducible refine fr_baysMarks_lit K _ ?_ rfl rfl rfl rfl rfl

theorem fr_baysMarks_Chip_jobBoundary (b j : Nat) (m : Chip) (h0 : P m) : P (Chip.jobBoundary b j m) := by
  unfold Chip.jobBoundary
  try dsimp only
  repeat'
    first
      | with_reducible
          first
            | assumption | apply fr_baysMarks_Chip_put K | apply fr_baysMarks_Chip_setJobRun K | apply fr_baysMarks_Chip_disableJob K
            | apply keep_ite (P := P)
      | dsimp only | split | with_reducible refine fr_baysMarks_lit K _ ?_ rfl rfl rfl rfl rfl

theorem fr_baysMarks_Chip_reportUnjudged (b : Nat) (m : Chip) (h0 : P m) : P (Chip.reportUnjudged b m) := by
  unfold Chip.reportUnjudged
  try dsimp only
  repeat'
    first
      | with_reducible
          first
            | assumption | apply fr_baysMarks_Chip_bump K | apply fr_baysMarks_Chip_release K | apply keep_forAll (P := P)
            | apply keep_ite (P := P)
      | (intro _) | dsimp only | split | with_reducible refine fr_baysMarks_lit K _ ?_ rfl rfl rfl rfl rfl

theorem fr_baysMarks_Chip_streamTables (b : Nat) (m : Chip) (h0 : P m) : P (Chip.streamTables b m) := by
  unfold Chip.streamTables
  try dsimp only
  repeat'
    first
      | with_reducible
          first
            | assumption | apply fr_baysMarks_Chip_take K | apply fr_baysMarks_Chip_putBytes K | apply keep_forAll (P := P)
            | apply keep_ite (P := P)
      | (intro _) | dsimp only | split | with_reducible refine fr_baysMarks_lit K _ ?_ rfl rfl rfl rfl rfl

theorem fr_baysMarks_Chip_onGang (g : Gang) (f : Nat → Chip → Chip) (m : Chip) (h0 : ∀ x0 x1, P x1 →
    P (f x0 x1)) (h1 : P m) : P (Chip.onGang g f m) := by
  unfold Chip.onGang
  try dsimp only
  repeat'
    first
      | with_reducible
          first
            | assumption | apply h0 | apply keep_forAll (P := P)
      | (intro _) | dsimp only | split | with_reducible refine fr_baysMarks_lit K _ ?_ rfl rfl rfl rfl rfl

theorem fr_baysMarks_Chip_lpFlag (g : Gang) (f : Nat → Fld) (m : Chip) (h0 : P m) : P (Chip.lpFlag g f m) := by
  unfold Chip.lpFlag
  try dsimp only
  repeat'
    first
      | with_reducible
          first
            | assumption | apply fr_baysMarks_Chip_setFlag K | apply fr_baysMarks_Chip_onGang K
      | (intro _) | dsimp only | split | with_reducible refine fr_baysMarks_lit K _ ?_ rfl rfl rfl rfl rfl

theorem fr_baysMarks_Chip_showPipe (g : Gang) (m : Chip) (h0 : P m) : P (Chip.showPipe g m) := by
  unfold Chip.showPipe
  try dsimp only
  repeat'
    first
      | with_reducible
          first
            | assumption | apply fr_baysMarks_Chip_put K | apply fr_baysMarks_Chip_onGang K | apply keep_ite (P := P)
      | (intro _) | split | dsimp only | with_reducible refine fr_baysMarks_lit K _ ?_ rfl rfl rfl rfl rfl

theorem fr_baysMarks_Chip_syncReset (g : Gang) (m : Chip) (h0 : P m) : P (Chip.syncReset g m) := by
  unfold Chip.syncReset
  try dsimp only
  repeat'
    first
      | with_reducible
          first
            | assumption | apply fr_baysMarks_Chip_bump K | apply fr_baysMarks_Chip_setPipe K | apply fr_baysMarks_Chip_lpFlag K
            | apply keep_ite (P := P)
      | dsimp only | split | with_reducible refine fr_baysMarks_lit K _ ?_ rfl rfl rfl rfl rfl

theorem fr_baysMarks_Chip_writeSnapshot (g : Gang) (strip : Nat) (m : Chip) (h0 : P m) : P (Chip.writeSnapshot g strip m) := by
  unfold Chip.writeSnapshot
  try dsimp only
  repeat'
    first
      | with_reducible
          first
            | assumption | apply fr_baysMarks_Chip_setPipe K | apply fr_baysMarks_Chip_putBytes K | apply fr_baysMarks_Chip_feed K
            | apply keep_ite (P := P)
      | (intro _) | split | dsimp only | with_reducible refine fr_baysMarks_lit K _ ?_ rfl rfl rfl rfl rfl

theorem fr_baysMarks_Chip_stripBoundary (g : Gang) (s : Nat) (m : Chip) (h0 : P m) : P (Chip.stripBoundary g s m) := by
  unfold Chip.stripBoundary
  try dsimp only
  repeat'
    first
      | with_reducible
          first
            | assumption | apply fr_baysMarks_Chip_setPipe K | apply fr_baysMarks_Chip_showPipe K | apply fr_baysMarks_Chip_syncReset K
            | apply fr_baysMarks_Chip_writeSnapshot K | apply keep_ite (P := P)
      | split | dsimp only | with_reducible refine fr_baysMarks_lit K _ ?_ rfl rfl rfl rfl rfl

theorem fr_baysMarks_Chip_reply (id : Nat) (e : Emit) (m : Chip) (h0 : P m) : P (Chip.reply id e m) := by
  unfold Chip.reply
  try dsimp only
  repeat'
    first
      | with_reducible
          first
            | assumption | apply fr_baysMarks_Chip_emit K | apply keep_ite (P := P)
      | (intro _) | dsimp only | split | with_reducible refine fr_baysMarks_lit K _ ?_ rfl rfl rfl rfl rfl

theorem fr_baysMarks_Chip_answer (id : Nat) (what : String) (args : List Nat) (m : Chip) (h0 : P m) : P (Chip.answer id what args m) :=
    by
  unfold Chip.answer
  try dsimp only
  repeat'
    first
      | with_reducible
          first
            | assumption | apply fr_baysMarks_Chip_emit K | apply fr_baysMarks_Chip_reply K | apply keep_ite (P := P)
      | dsimp only | split | with_reducible refine fr_baysMarks_lit K _ ?_ rfl rfl rfl rfl rfl

theorem fr_baysMarks_Chip_closeStrip (r : Nat) (o : OpenStrip) (m : Chip) (h0 : P m) : P (Chip.closeStrip r o m) := by
  unfold Chip.closeStrip
  try dsimp only
  repeat' (first | with_reducible assumption | (intro _) | with_reducible apply fr_baysMarks_Chip_setFlagIf K
                 | with_reducible apply fr_baysMarks_Chip_bump K | with_reducible apply fr_baysMarks_Chip_setRowPipe K
                 | with_reducible apply fr_baysMarks_Chip_putBytes K | with_reducible apply fr_baysMarks_Chip_feedHeader K
                 | with_reducible apply fr_baysMarks_Chip_onFire K | with_reducible apply fr_baysMarks_Chip_lpFlag K
                 | with_reducible apply fr_baysMarks_Chip_stripBoundary K | with_reducible apply keep_forAll (P := P)
                 | with_reducible apply keep_ite (P := P) | dsimp only | split | with_reducible apply keep_foldl (P := P)
                 | with_reducible apply keep_foldl2 (P := P)
                 | with_reducible refine fr_baysMarks_lit K _ ?_ rfl rfl rfl rfl rfl)

theorem fr_baysMarks_Chip_fedBoundary (b : Nat) (m : Chip) (h0 : P m) : P (Chip.fedBoundary b m) := by
  unfold Chip.fedBoundary
  try dsimp only
  repeat'
    first
      | with_reducible
          first
            | assumption | apply fr_baysMarks_Chip_setRowPipe K | apply fr_baysMarks_Chip_closeStrip K | apply keep_forAll (P := P)
            | apply keep_ite (P := P)
      | (intro _) | dsimp only | split | with_reducible refine fr_baysMarks_lit K _ ?_ rfl rfl rfl rfl rfl

theorem fr_baysMarks_Chip_releaseSlots (b : Nat) (m : Chip) (h0 : P m) : P (Chip.releaseSlots b m) := K _ _ h0 rfl rfl rfl rfl rfl

theorem fr_baysMarks_Chip_screenBoundary (b : Nat) (m : Chip) (h0 : P m) : P (Chip.screenBoundary b m) := K _ _ h0 rfl rfl rfl rfl rfl

theorem fr_baysMarks_Chip_onPp (f : PpState → PpState) (m : Chip) (h0 : P m) : P (Chip.onPp f m) := K _ _ h0 rfl rfl rfl rfl rfl

theorem fr_baysMarks_Chip_setPpRow (v : PpRow) (m : Chip) (h0 : P m) : P (Chip.setPpRow v m) := K _ _ h0 rfl rfl rfl rfl rfl

theorem fr_baysMarks_Chip_discardCarry (j r : Nat) (m : Chip) (h0 : P m) : P (Chip.discardCarry j r m) := by
  unfold Chip.discardCarry
  try dsimp only
  repeat'
    first
      | with_reducible
          first
            | assumption | apply fr_baysMarks_Chip_setFlag K | apply fr_baysMarks_Chip_bump K | apply fr_baysMarks_Chip_setPpRow K
            | apply keep_ite (P := P)
      | split | dsimp only | with_reducible refine fr_baysMarks_lit K _ ?_ rfl rfl rfl rfl rfl

theorem fr_baysMarks_Chip_discardJob (j : Nat) (m : Chip) (h0 : P m) : P (Chip.discardJob j m) := by
  unfold Chip.discardJob
  try dsimp only
  repeat'
    first
      | with_reducible
          first
            | assumption | apply fr_baysMarks_Chip_discardCarry K | apply keep_forAll (P := P)
      | (intro _) | dsimp only | split | with_reducible refine fr_baysMarks_lit K _ ?_ rfl rfl rfl rfl rfl

theorem fr_baysMarks_Chip_dropStaged (b : Nat) (m : Chip) (h0 : P m) : P (Chip.dropStaged b m) := K _ _ h0 rfl rfl rfl rfl rfl

theorem fr_baysMarks_Chip_supBoundary (m : Chip) (h0 : P m) : P (Chip.supBoundary m) := by
  unfold Chip.supBoundary
  try dsimp only
  repeat'
    first
      | with_reducible
          first
            | assumption | apply fr_baysMarks_Chip_bump K | apply fr_baysMarks_Chip_bumpIf K | apply fr_baysMarks_Chip_refreshOutputs K
            | apply fr_baysMarks_Chip_setMode K | apply keep_ite (P := P)
      | dsimp only | split | with_reducible refine fr_baysMarks_lit K _ ?_ rfl rfl rfl rfl rfl

theorem fr_baysMarks_Chip_missFrames (atEnd : Bool) (m : Chip) (h0 : P m) : P (Chip.missFrames atEnd m) := by
  unfold Chip.missFrames
  try dsimp only
  repeat'
    first
      | with_reducible
          first
            | assumption | apply fr_baysMarks_Chip_setFlag K | apply fr_baysMarks_Chip_bump K | apply fr_baysMarks_Chip_onWit K
            | apply keep_forAll (P := P)
      | (intro _) | split | dsimp only | with_reducible refine fr_baysMarks_lit K _ ?_ rfl rfl rfl rfl rfl

theorem fr_baysMarks_Chip_onText (f : TextState → TextState) (m : Chip) (h0 : P m) : P (Chip.onText f m) := K _ _ h0 rfl rfl rfl rfl rfl

theorem fr_baysMarks_Chip_showText (m : Chip) (h0 : P m) : P (Chip.showText m) := K _ _ h0 rfl rfl rfl rfl rfl

theorem fr_baysMarks_Chip_chunk (q : Query) (bytes : List Byte) (stop : Option Nat) (m : Chip) (h0 : P m) : P (Chip.chunk q bytes stop
    m) := K _ _ h0 rfl rfl rfl rfl rfl

theorem fr_baysMarks_Chip_endQuery (j : Nat) (q : Query) (reason : Nat) (m : Chip) (h0 : P m) : P (Chip.endQuery j q reason m) :=
    K _ _ h0 rfl rfl rfl rfl rfl

theorem fr_baysMarks_Chip_abortText (j : Nat) (m : Chip) (h0 : P m) : P (Chip.abortText j m) := by
  unfold Chip.abortText
  try dsimp only
  repeat'
    first
      | with_reducible
          first
            | assumption | apply fr_baysMarks_Chip_endQuery K | apply keep_forAll (P := P)
      | (intro _) | dsimp only | split | with_reducible refine fr_baysMarks_lit K _ ?_ rfl rfl rfl rfl rfl

theorem fr_baysMarks_Chip_setPhase (n : Nat) (m : Chip) (h0 : P m) : P (Chip.setPhase n m) := K _ _ h0 rfl rfl rfl rfl rfl

theorem fr_baysMarks_Chip_onTime (f : TimeState → TimeState) (m : Chip) (h0 : P m) : P (Chip.onTime f m) := K _ _ h0 rfl rfl rfl rfl rfl

theorem fr_baysMarks_Chip_setRef (i : Nat) (r : RefState) (m : Chip) (h0 : P m) : P (Chip.setRef i r m) := K _ _ h0 rfl rfl rfl rfl rfl

theorem fr_baysMarks_Chip_putValid (i : Nat) (v : Bool) (m : Chip) (h0 : P m) : P (Chip.putValid i v m) := K _ _ h0 rfl rfl rfl rfl rfl

theorem fr_baysMarks_Chip_putQual (i : Nat) (v : Bool) (m : Chip) (h0 : P m) : P (Chip.putQual i v m) := K _ _ h0 rfl rfl rfl rfl rfl

theorem fr_baysMarks_Chip_leaveHold (m : Chip) (h0 : P m) : P (Chip.leaveHold m) := K _ _ h0 rfl rfl rfl rfl rfl

theorem fr_baysMarks_Chip_noteQual (m : Chip) (h0 : P m) : P (Chip.noteQual m) := by
  unfold Chip.noteQual
  try dsimp only
  repeat'
    first
      | with_reducible
          first
            | assumption | apply fr_baysMarks_Chip_deassert K | apply fr_baysMarks_Chip_onTime K | apply keep_ite (P := P)
      | (intro _) | dsimp only | split | with_reducible refine fr_baysMarks_lit K _ ?_ rfl rfl rfl rfl rfl

theorem fr_baysMarks_Chip_refRefresh (i : Nat) (m : Chip) (h0 : P m) : P (Chip.refRefresh i m) := by
  unfold Chip.refRefresh
  try dsimp only
  repeat'
    first
      | with_reducible
          first
            | assumption | apply fr_baysMarks_Chip_setRef K | apply fr_baysMarks_Chip_putValid K | apply fr_baysMarks_Chip_putQual K
            | apply keep_ite (P := P)
      | dsimp only | split | with_reducible refine fr_baysMarks_lit K _ ?_ rfl rfl rfl rfl rfl

theorem fr_baysMarks_Chip_leaveRef (c : Nat) (m : Chip) (h0 : P m) : P (Chip.leaveRef c m) := by
  unfold Chip.leaveRef
  try dsimp only
  repeat'
    first
      | with_reducible
          first
            | assumption | apply fr_baysMarks_Chip_setRef K | apply fr_baysMarks_Chip_putQual K | apply keep_ite (P := P)
      | dsimp only | split | with_reducible refine fr_baysMarks_lit K _ ?_ rfl rfl rfl rfl rfl

theorem fr_baysMarks_Chip_commitRef (m : Chip) (h0 : P m) : P (Chip.commitRef m) := by
  unfold Chip.commitRef
  try dsimp only
  repeat'
    first
      | with_reducible
          first
            | assumption | apply fr_baysMarks_Chip_put K | apply fr_baysMarks_Chip_setFlag K | apply fr_baysMarks_Chip_bump K
            | apply fr_baysMarks_Chip_leaveHold K | apply fr_baysMarks_Chip_noteQual K | apply fr_baysMarks_Chip_refRefresh K
            | apply fr_baysMarks_Chip_leaveRef K | apply keep_forAll (P := P) | apply keep_ite (P := P)
      | (intro _) | dsimp only | split | with_reducible refine fr_baysMarks_lit K _ ?_ rfl rfl rfl rfl rfl

theorem fr_baysMarks_Chip_turnJob (b j : Nat) (m : Chip) (h0 : P m) : P (Chip.turnJob b j m) := by
  unfold Chip.turnJob
  try dsimp only
  repeat'
    first
      | with_reducible
          first
            | assumption | apply fr_baysMarks_Chip_jobBoundary K | apply fr_baysMarks_Chip_discardJob K
            | apply fr_baysMarks_Chip_abortText K | apply keep_ite (P := P)
      | dsimp only | split | with_reducible refine fr_baysMarks_lit K _ ?_ rfl rfl rfl rfl rfl

theorem fr_baysMarks_Chip_turnEngine (e : Engine) (m : Chip) (h0 : P m) : P (Chip.turnEngine e m) := by
  unfold Chip.turnEngine
  try dsimp only
  repeat'
    first
      | with_reducible
          first
            | assumption | apply fr_baysMarks_Chip_setEng K | apply fr_baysMarks_Chip_showEng K | apply fr_baysMarks_Chip_engBoundary K
            | apply keep_ite (P := P)
      | dsimp only | split | with_reducible refine fr_baysMarks_lit K _ ?_ rfl rfl rfl rfl rfl

theorem fr_baysMarks_Chip_latchCounts (b : Nat) (m : Chip) (h0 : P m) : P (Chip.latchCounts b m) := by
  unfold Chip.latchCounts
  try dsimp only
  repeat'
    first
      | with_reducible
          first
            | assumption | apply fr_baysMarks_Chip_mirrorSend K | apply fr_baysMarks_Chip_encBayLatch K | apply keep_ite (P := P)
      | (intro _) | dsimp only | split | with_reducible refine fr_baysMarks_lit K _ ?_ rfl rfl rfl rfl rfl

theorem fr_baysMarks_Chip_applyPilots (m : Chip) (h0 : P m) : P (Chip.applyPilots m) := K _ _ h0 rfl rfl rfl rfl rfl

theorem fr_baysMarks_Chip_sealStuds (b : Nat) (m : Chip) (h0 : P m) : P (Chip.sealStuds b m) := by
  unfold Chip.sealStuds
  try dsimp only
  repeat'
    first
      | with_reducible
          first
            | assumption | apply fr_baysMarks_Chip_onWit K | apply fr_baysMarks_Chip_setArrives K | apply keep_ite (P := P)
      | (intro _) | split | dsimp only | with_reducible refine fr_baysMarks_lit K _ ?_ rfl rfl rfl rfl rfl

end

theorem eq_baysMarks_Chip_witDrain (m : Chip) : (Chip.witDrain m).bays.bay = m.bays.bay ∧ (Chip.witDrain m).bays.running =
    m.bays.running ∧ (Chip.witDrain m).bays.verdictDone = m.bays.verdictDone ∧ (Chip.witDrain m).bays.semS = m.bays.semS ∧
        (Chip.witDrain m).bays.semR = m.bays.semR :=
  fr_baysMarks_Chip_witDrain (P := fun z => z.bays.bay = m.bays.bay ∧ z.bays.running = m.bays.running ∧ z.bays.verdictDone =
      m.bays.verdictDone ∧ z.bays.semS = m.bays.semS ∧ z.bays.semR = m.bays.semR) (fun _ _ h e0 e1 e2 e3 e4 => ⟨e0.trans h.1,
          e1.trans h.2.1, e2.trans h.2.2.1, e3.trans h.2.2.2.1, e4.trans h.2.2.2.2⟩) m ⟨rfl, rfl, rfl, rfl, rfl⟩

theorem eq_baysMarks_Chip_encBayLatch (m : Chip) : (Chip.encBayLatch m).bays.bay = m.bays.bay ∧ (Chip.encBayLatch m).bays.running =
    m.bays.running ∧ (Chip.encBayLatch m).bays.verdictDone = m.bays.verdictDone ∧ (Chip.encBayLatch m).bays.semS = m.bays.semS ∧
        (Chip.encBayLatch m).bays.semR = m.bays.semR :=
  fr_baysMarks_Chip_encBayLatch (P := fun z => z.bays.bay = m.bays.bay ∧ z.bays.running = m.bays.running ∧ z.bays.verdictDone =
      m.bays.verdictDone ∧ z.bays.semS = m.bays.semS ∧ z.bays.semR = m.bays.semR) (fun _ _ h e0 e1 e2 e3 e4 => ⟨e0.trans h.1,
          e1.trans h.2.1, e2.trans h.2.2.1, e3.trans h.2.2.2.1, e4.trans h.2.2.2.2⟩) m ⟨rfl, rfl, rfl, rfl, rfl⟩

theorem eq_baysMarks_Chip_takeNotice (c : ClosedStrip) (job stream : Nat) (m : Chip) : (Chip.takeNotice c job stream m).bays.bay =
    m.bays.bay ∧ (Chip.takeNotice c job stream m).bays.running = m.bays.running ∧ (Chip.takeNotice c job stream m).bays.verdictDone =
        m.bays.verdictDone ∧ (Chip.takeNotice c job stream m).bays.semS = m.bays.semS ∧ (Chip.takeNotice c job stream m).bays.semR =
            m.bays.semR :=
  fr_baysMarks_Chip_takeNotice (P := fun z => z.bays.bay = m.bays.bay ∧ z.bays.running = m.bays.running ∧ z.bays.verdictDone =
      m.bays.verdictDone ∧ z.bays.semS = m.bays.semS ∧ z.bays.semR = m.bays.semR) (fun _ _ h e0 e1 e2 e3 e4 => ⟨e0.trans h.1,
          e1.trans h.2.1, e2.trans h.2.2.1, e3.trans h.2.2.2.1, e4.trans h.2.2.2.2⟩) c job stream m ⟨rfl, rfl, rfl, rfl, rfl⟩

theorem eq_baysMarks_Chip_jobBoundary (b j : Nat) (m : Chip) : (Chip.jobBoundary b j m).bays.bay = m.bays.bay ∧
    (Chip.jobBoundary b j m).bays.running = m.bays.running ∧ (Chip.jobBoundary b j m).bays.verdictDone = m.bays.verdictDone ∧
        (Chip.jobBoundary b j m).bays.semS = m.bays.semS ∧ (Chip.jobBoundary b j m).bays.semR = m.bays.semR :=
  fr_baysMarks_Chip_jobBoundary (P := fun z => z.bays.bay = m.bays.bay ∧ z.bays.running = m.bays.running ∧ z.bays.verdictDone =
      m.bays.verdictDone ∧ z.bays.semS = m.bays.semS ∧ z.bays.semR = m.bays.semR) (fun _ _ h e0 e1 e2 e3 e4 => ⟨e0.trans h.1,
          e1.trans h.2.1, e2.trans h.2.2.1, e3.trans h.2.2.2.1, e4.trans h.2.2.2.2⟩) b j m ⟨rfl, rfl, rfl, rfl, rfl⟩

theorem eq_baysMarks_Chip_reportUnjudged (b : Nat) (m : Chip) : (Chip.reportUnjudged b m).bays.bay = m.bays.bay ∧
    (Chip.reportUnjudged b m).bays.running = m.bays.running ∧ (Chip.reportUnjudged b m).bays.verdictDone = m.bays.verdictDone ∧
        (Chip.reportUnjudged b m).bays.semS = m.bays.semS ∧ (Chip.reportUnjudged b m).bays.semR = m.bays.semR :=
  fr_baysMarks_Chip_reportUnjudged (P := fun z => z.bays.bay = m.bays.bay ∧ z.bays.running = m.bays.running ∧ z.bays.verdictDone =
      m.bays.verdictDone ∧ z.bays.semS = m.bays.semS ∧ z.bays.semR = m.bays.semR) (fun _ _ h e0 e1 e2 e3 e4 => ⟨e0.trans h.1,
          e1.trans h.2.1, e2.trans h.2.2.1, e3.trans h.2.2.2.1, e4.trans h.2.2.2.2⟩) b m ⟨rfl, rfl, rfl, rfl, rfl⟩

theorem eq_baysMarks_Chip_streamTables (b : Nat) (m : Chip) : (Chip.streamTables b m).bays.bay = m.bays.bay ∧
    (Chip.streamTables b m).bays.running = m.bays.running ∧ (Chip.streamTables b m).bays.verdictDone = m.bays.verdictDone ∧
        (Chip.streamTables b m).bays.semS = m.bays.semS ∧ (Chip.streamTables b m).bays.semR = m.bays.semR :=
  fr_baysMarks_Chip_streamTables (P := fun z => z.bays.bay = m.bays.bay ∧ z.bays.running = m.bays.running ∧ z.bays.verdictDone =
      m.bays.verdictDone ∧ z.bays.semS = m.bays.semS ∧ z.bays.semR = m.bays.semR) (fun _ _ h e0 e1 e2 e3 e4 => ⟨e0.trans h.1,
          e1.trans h.2.1, e2.trans h.2.2.1, e3.trans h.2.2.2.1, e4.trans h.2.2.2.2⟩) b m ⟨rfl, rfl, rfl, rfl, rfl⟩

theorem eq_baysMarks_Chip_fedBoundary (b : Nat) (m : Chip) : (Chip.fedBoundary b m).bays.bay = m.bays.bay ∧
    (Chip.fedBoundary b m).bays.running = m.bays.running ∧ (Chip.fedBoundary b m).bays.verdictDone = m.bays.verdictDone ∧
        (Chip.fedBoundary b m).bays.semS = m.bays.semS ∧ (Chip.fedBoundary b m).bays.semR = m.bays.semR :=
  fr_baysMarks_Chip_fedBoundary (P := fun z => z.bays.bay = m.bays.bay ∧ z.bays.running = m.bays.running ∧ z.bays.verdictDone =
      m.bays.verdictDone ∧ z.bays.semS = m.bays.semS ∧ z.bays.semR = m.bays.semR) (fun _ _ h e0 e1 e2 e3 e4 => ⟨e0.trans h.1,
          e1.trans h.2.1, e2.trans h.2.2.1, e3.trans h.2.2.2.1, e4.trans h.2.2.2.2⟩) b m ⟨rfl, rfl, rfl, rfl, rfl⟩

theorem eq_baysMarks_Chip_releaseSlots (b : Nat) (m : Chip) : (Chip.releaseSlots b m).bays.bay = m.bays.bay ∧
    (Chip.releaseSlots b m).bays.running = m.bays.running ∧ (Chip.releaseSlots b m).bays.verdictDone = m.bays.verdictDone ∧
        (Chip.releaseSlots b m).bays.semS = m.bays.semS ∧ (Chip.releaseSlots b m).bays.semR = m.bays.semR :=
  fr_baysMarks_Chip_releaseSlots (P := fun z => z.bays.bay = m.bays.bay ∧ z.bays.running = m.bays.running ∧ z.bays.verdictDone =
      m.bays.verdictDone ∧ z.bays.semS = m.bays.semS ∧ z.bays.semR = m.bays.semR) (fun _ _ h e0 e1 e2 e3 e4 => ⟨e0.trans h.1,
          e1.trans h.2.1, e2.trans h.2.2.1, e3.trans h.2.2.2.1, e4.trans h.2.2.2.2⟩) b m ⟨rfl, rfl, rfl, rfl, rfl⟩

theorem eq_baysMarks_Chip_screenBoundary (b : Nat) (m : Chip) : (Chip.screenBoundary b m).bays.bay = m.bays.bay ∧
    (Chip.screenBoundary b m).bays.running = m.bays.running ∧ (Chip.screenBoundary b m).bays.verdictDone = m.bays.verdictDone ∧
        (Chip.screenBoundary b m).bays.semS = m.bays.semS ∧ (Chip.screenBoundary b m).bays.semR = m.bays.semR :=
  fr_baysMarks_Chip_screenBoundary (P := fun z => z.bays.bay = m.bays.bay ∧ z.bays.running = m.bays.running ∧ z.bays.verdictDone =
      m.bays.verdictDone ∧ z.bays.semS = m.bays.semS ∧ z.bays.semR = m.bays.semR) (fun _ _ h e0 e1 e2 e3 e4 => ⟨e0.trans h.1,
          e1.trans h.2.1, e2.trans h.2.2.1, e3.trans h.2.2.2.1, e4.trans h.2.2.2.2⟩) b m ⟨rfl, rfl, rfl, rfl, rfl⟩

theorem eq_baysMarks_Chip_dropStaged (b : Nat) (m : Chip) : (Chip.dropStaged b m).bays.bay = m.bays.bay ∧
    (Chip.dropStaged b m).bays.running = m.bays.running ∧ (Chip.dropStaged b m).bays.verdictDone = m.bays.verdictDone ∧
        (Chip.dropStaged b m).bays.semS = m.bays.semS ∧ (Chip.dropStaged b m).bays.semR = m.bays.semR :=
  fr_baysMarks_Chip_dropStaged (P := fun z => z.bays.bay = m.bays.bay ∧ z.bays.running = m.bays.running ∧ z.bays.verdictDone =
      m.bays.verdictDone ∧ z.bays.semS = m.bays.semS ∧ z.bays.semR = m.bays.semR) (fun _ _ h e0 e1 e2 e3 e4 => ⟨e0.trans h.1,
          e1.trans h.2.1, e2.trans h.2.2.1, e3.trans h.2.2.2.1, e4.trans h.2.2.2.2⟩) b m ⟨rfl, rfl, rfl, rfl, rfl⟩

theorem eq_baysMarks_Chip_supBoundary (m : Chip) : (Chip.supBoundary m).bays.bay = m.bays.bay ∧ (Chip.supBoundary m).bays.running =
    m.bays.running ∧ (Chip.supBoundary m).bays.verdictDone = m.bays.verdictDone ∧ (Chip.supBoundary m).bays.semS = m.bays.semS ∧
        (Chip.supBoundary m).bays.semR = m.bays.semR :=
  fr_baysMarks_Chip_supBoundary (P := fun z => z.bays.bay = m.bays.bay ∧ z.bays.running = m.bays.running ∧ z.bays.verdictDone =
      m.bays.verdictDone ∧ z.bays.semS = m.bays.semS ∧ z.bays.semR = m.bays.semR) (fun _ _ h e0 e1 e2 e3 e4 => ⟨e0.trans h.1,
          e1.trans h.2.1, e2.trans h.2.2.1, e3.trans h.2.2.2.1, e4.trans h.2.2.2.2⟩) m ⟨rfl, rfl, rfl, rfl, rfl⟩

theorem eq_baysMarks_Chip_missFrames (atEnd : Bool) (m : Chip) : (Chip.missFrames atEnd m).bays.bay = m.bays.bay ∧
    (Chip.missFrames atEnd m).bays.running = m.bays.running ∧ (Chip.missFrames atEnd m).bays.verdictDone = m.bays.verdictDone ∧
        (Chip.missFrames atEnd m).bays.semS = m.bays.semS ∧ (Chip.missFrames atEnd m).bays.semR = m.bays.semR :=
  fr_baysMarks_Chip_missFrames (P := fun z => z.bays.bay = m.bays.bay ∧ z.bays.running = m.bays.running ∧ z.bays.verdictDone =
      m.bays.verdictDone ∧ z.bays.semS = m.bays.semS ∧ z.bays.semR = m.bays.semR) (fun _ _ h e0 e1 e2 e3 e4 => ⟨e0.trans h.1,
          e1.trans h.2.1, e2.trans h.2.2.1, e3.trans h.2.2.2.1, e4.trans h.2.2.2.2⟩) atEnd m ⟨rfl, rfl, rfl, rfl, rfl⟩

theorem eq_baysMarks_Chip_setPhase (n : Nat) (m : Chip) : (Chip.setPhase n m).bays.bay = m.bays.bay ∧ (Chip.setPhase n m).bays.running =
    m.bays.running ∧ (Chip.setPhase n m).bays.verdictDone = m.bays.verdictDone ∧ (Chip.setPhase n m).bays.semS = m.bays.semS ∧
        (Chip.setPhase n m).bays.semR = m.bays.semR :=
  fr_baysMarks_Chip_setPhase (P := fun z => z.bays.bay = m.bays.bay ∧ z.bays.running = m.bays.running ∧ z.bays.verdictDone =
      m.bays.verdictDone ∧ z.bays.semS = m.bays.semS ∧ z.bays.semR = m.bays.semR) (fun _ _ h e0 e1 e2 e3 e4 => ⟨e0.trans h.1,
          e1.trans h.2.1, e2.trans h.2.2.1, e3.trans h.2.2.2.1, e4.trans h.2.2.2.2⟩) n m ⟨rfl, rfl, rfl, rfl, rfl⟩

theorem eq_baysMarks_Chip_commitRef (m : Chip) : (Chip.commitRef m).bays.bay = m.bays.bay ∧ (Chip.commitRef m).bays.running =
    m.bays.running ∧ (Chip.commitRef m).bays.verdictDone = m.bays.verdictDone ∧ (Chip.commitRef m).bays.semS = m.bays.semS ∧
        (Chip.commitRef m).bays.semR = m.bays.semR :=
  fr_baysMarks_Chip_commitRef (P := fun z => z.bays.bay = m.bays.bay ∧ z.bays.running = m.bays.running ∧ z.bays.verdictDone =
      m.bays.verdictDone ∧ z.bays.semS = m.bays.semS ∧ z.bays.semR = m.bays.semR) (fun _ _ h e0 e1 e2 e3 e4 => ⟨e0.trans h.1,
          e1.trans h.2.1, e2.trans h.2.2.1, e3.trans h.2.2.2.1, e4.trans h.2.2.2.2⟩) m ⟨rfl, rfl, rfl, rfl, rfl⟩

theorem eq_baysMarks_Chip_turnJob (b j : Nat) (m : Chip) : (Chip.turnJob b j m).bays.bay = m.bays.bay ∧
    (Chip.turnJob b j m).bays.running = m.bays.running ∧ (Chip.turnJob b j m).bays.verdictDone = m.bays.verdictDone ∧
        (Chip.turnJob b j m).bays.semS = m.bays.semS ∧ (Chip.turnJob b j m).bays.semR = m.bays.semR :=
  fr_baysMarks_Chip_turnJob (P := fun z => z.bays.bay = m.bays.bay ∧ z.bays.running = m.bays.running ∧ z.bays.verdictDone =
      m.bays.verdictDone ∧ z.bays.semS = m.bays.semS ∧ z.bays.semR = m.bays.semR) (fun _ _ h e0 e1 e2 e3 e4 => ⟨e0.trans h.1,
          e1.trans h.2.1, e2.trans h.2.2.1, e3.trans h.2.2.2.1, e4.trans h.2.2.2.2⟩) b j m ⟨rfl, rfl, rfl, rfl, rfl⟩

theorem eq_baysMarks_Chip_turnEngine (e : Engine) (m : Chip) : (Chip.turnEngine e m).bays.bay = m.bays.bay ∧
    (Chip.turnEngine e m).bays.running = m.bays.running ∧ (Chip.turnEngine e m).bays.verdictDone = m.bays.verdictDone ∧
        (Chip.turnEngine e m).bays.semS = m.bays.semS ∧ (Chip.turnEngine e m).bays.semR = m.bays.semR :=
  fr_baysMarks_Chip_turnEngine (P := fun z => z.bays.bay = m.bays.bay ∧ z.bays.running = m.bays.running ∧ z.bays.verdictDone =
      m.bays.verdictDone ∧ z.bays.semS = m.bays.semS ∧ z.bays.semR = m.bays.semR) (fun _ _ h e0 e1 e2 e3 e4 => ⟨e0.trans h.1,
          e1.trans h.2.1, e2.trans h.2.2.1, e3.trans h.2.2.2.1, e4.trans h.2.2.2.2⟩) e m ⟨rfl, rfl, rfl, rfl, rfl⟩

theorem eq_baysMarks_Chip_latchCounts (b : Nat) (m : Chip) : (Chip.latchCounts b m).bays.bay = m.bays.bay ∧
    (Chip.latchCounts b m).bays.running = m.bays.running ∧ (Chip.latchCounts b m).bays.verdictDone = m.bays.verdictDone ∧
        (Chip.latchCounts b m).bays.semS = m.bays.semS ∧ (Chip.latchCounts b m).bays.semR = m.bays.semR :=
  fr_baysMarks_Chip_latchCounts (P := fun z => z.bays.bay = m.bays.bay ∧ z.bays.running = m.bays.running ∧ z.bays.verdictDone =
      m.bays.verdictDone ∧ z.bays.semS = m.bays.semS ∧ z.bays.semR = m.bays.semR) (fun _ _ h e0 e1 e2 e3 e4 => ⟨e0.trans h.1,
          e1.trans h.2.1, e2.trans h.2.2.1, e3.trans h.2.2.2.1, e4.trans h.2.2.2.2⟩) b m ⟨rfl, rfl, rfl, rfl, rfl⟩

theorem eq_baysMarks_Chip_applyPilots (m : Chip) : (Chip.applyPilots m).bays.bay = m.bays.bay ∧ (Chip.applyPilots m).bays.running =
    m.bays.running ∧ (Chip.applyPilots m).bays.verdictDone = m.bays.verdictDone ∧ (Chip.applyPilots m).bays.semS = m.bays.semS ∧
        (Chip.applyPilots m).bays.semR = m.bays.semR :=
  fr_baysMarks_Chip_applyPilots (P := fun z => z.bays.bay = m.bays.bay ∧ z.bays.running = m.bays.running ∧ z.bays.verdictDone =
      m.bays.verdictDone ∧ z.bays.semS = m.bays.semS ∧ z.bays.semR = m.bays.semR) (fun _ _ h e0 e1 e2 e3 e4 => ⟨e0.trans h.1,
          e1.trans h.2.1, e2.trans h.2.2.1, e3.trans h.2.2.2.1, e4.trans h.2.2.2.2⟩) m ⟨rfl, rfl, rfl, rfl, rfl⟩

theorem eq_baysMarks_Chip_sealStuds (b : Nat) (m : Chip) : (Chip.sealStuds b m).bays.bay = m.bays.bay ∧
    (Chip.sealStuds b m).bays.running = m.bays.running ∧ (Chip.sealStuds b m).bays.verdictDone = m.bays.verdictDone ∧
        (Chip.sealStuds b m).bays.semS = m.bays.semS ∧ (Chip.sealStuds b m).bays.semR = m.bays.semR :=
  fr_baysMarks_Chip_sealStuds (P := fun z => z.bays.bay = m.bays.bay ∧ z.bays.running = m.bays.running ∧ z.bays.verdictDone =
      m.bays.verdictDone ∧ z.bays.semS = m.bays.semS ∧ z.bays.semR = m.bays.semR) (fun _ _ h e0 e1 e2 e3 e4 => ⟨e0.trans h.1,
          e1.trans h.2.1, e2.trans h.2.2.1, e3.trans h.2.2.2.1, e4.trans h.2.2.2.2⟩) b m ⟨rfl, rfl, rfl, rfl, rfl⟩

end Sys2Proof.Laws
end

