-- ==== Sys2Proof/Laws/Frames/BaysNow.lean ====
section
/-!
SUPPORT. Sys2Proof/Laws/Frames/BaysNow.lean: the operations that leave the bay and its verdicts alone, a lemma for each. `fr_…` carries a property that
depends on nothing else across the operation; `eq_…` says that it reads as before.
-/
namespace Sys2Proof.Laws
open Sys2Proof.Machine

section
variable {P : Chip → Prop} (K : ∀ a b : Chip, P a → b.bays.bay = a.bays.bay → b.bays.verdictDone = a.bays.verdictDone → P b)
include K

theorem fr_baysNow_lit (m : Chip) {regs time encs fire pegs fio sup boot bays engs mem sramValid sramBad stick wit cams pocs pipes
    rowPipes replays screens pp tenon purlin latches fresh heads eth subs trust text hk nvLog out free} (h : P m) (e0 : bays.bay =
        m.bays.bay) (e1 : bays.verdictDone = m.bays.verdictDone) : P (Chip.mk regs time encs fire pegs fio sup boot bays engs mem
            sramValid sramBad stick wit cams pocs pipes rowPipes replays screens pp tenon purlin latches fresh heads eth subs trust text
                hk nvLog out free) := K _ _ h e0 e1

theorem fr_baysNow_Chip_wr (m : Chip) (a : Nat) (v : Word) (h0 : P m) : P (Chip.wr m a v) := K _ _ h0 rfl rfl

theorem fr_baysNow_Chip_put (m : Chip) (f : Fld) (v : Nat) (h0 : P m) : P (Chip.put m f v) := K _ _ h0 rfl rfl

theorem fr_baysNow_Chip_markFresh (a i : Nat) (m : Chip) (h0 : P m) : P (Chip.markFresh a i m) := K _ _ h0 rfl rfl

theorem fr_baysNow_Chip_setFlag (m : Chip) (f : Fld) (h0 : P m) : P (Chip.setFlag m f) := K _ _ h0 rfl rfl

theorem fr_baysNow_Chip_bumpBy (m : Chip) (a n : Nat) (h0 : P m) : P (Chip.bumpBy m a n) := K _ _ h0 rfl rfl

theorem fr_baysNow_Chip_bump (m : Chip) (a : Nat) (h0 : P m) : P (Chip.bump m a) := K _ _ h0 rfl rfl

theorem fr_baysNow_Chip_setBit (m : Chip) (a i : Nat) (h0 : P m) : P (Chip.setBit m a i) := K _ _ h0 rfl rfl

theorem fr_baysNow_Chip_emit (m : Chip) (e : Emit) (h0 : P m) : P (Chip.emit m e) := K _ _ h0 rfl rfl

theorem fr_baysNow_Chip_log (m : Chip) (what : String) (args : List Nat) (h0 : P m) : P (Chip.log m what args) := by
  unfold Chip.log
  try dsimp only
  repeat'
    first
      | with_reducible
          first
            | assumption | apply keep_ite (P := P)
      | dsimp only | split | with_reducible refine fr_baysNow_lit K _ ?_ rfl rfl

theorem fr_baysNow_Chip_setSrc (m : Chip) (h i : Nat) (e : SrcState) (h0 : P m) : P (Chip.setSrc m h i e) := K _ _ h0 rfl rfl

theorem fr_baysNow_Chip_toSubs (m : Chip) (r : StreamRec) (h0 : P m) : P (Chip.toSubs m r) := by
  unfold Chip.toSubs
  try dsimp only
  repeat'
    first
      | with_reducible
          first
            | assumption | apply fr_baysNow_Chip_bump K | apply keep_forAll (P := P)
      | (intro _) | dsimp only | split | with_reducible refine fr_baysNow_lit K _ ?_ rfl rfl

theorem fr_baysNow_Chip_release (m : Chip) (r : ResultRec) (h0 : P m) : P (Chip.release m r) := by
  unfold Chip.release
  try dsimp only
  repeat'
    first
      | with_reducible
          first
            | assumption | apply fr_baysNow_Chip_emit K | apply fr_baysNow_Chip_toSubs K
      | dsimp only | split | with_reducible refine fr_baysNow_lit K _ ?_ rfl rfl

theorem fr_baysNow_Chip_onPur (f : PurlinState → PurlinState) (m : Chip) (h0 : P m) : P (Chip.onPur f m) := K _ _ h0 rfl rfl

theorem fr_baysNow_Chip_setPurPort (p : Nat) (v : PurPort) (m : Chip) (h0 : P m) : P (Chip.setPurPort p v m) := K _ _ h0 rfl rfl

theorem fr_baysNow_Chip_modPurPort (p : Nat) (f : PurPort → PurPort) (m : Chip) (h0 : P m) : P (Chip.modPurPort p f m) :=
    K _ _ h0 rfl rfl

theorem fr_baysNow_Chip_purTx (p : Nat) (f : PurFrame) (m : Chip) (h0 : P m) : P (Chip.purTx p f m) := K _ _ h0 rfl rfl

theorem fr_baysNow_Chip_linkSend (p : Nat) (l : LinkRec) (m : Chip) (h0 : P m) : P (Chip.linkSend p l m) := K _ _ h0 rfl rfl

theorem fr_baysNow_Chip_giveBack (p : Nat) (f : PurFrame) (m : Chip) (h0 : P m) : P (Chip.giveBack p f m) := by
  unfold Chip.giveBack
  try dsimp only
  repeat'
    first
      | with_reducible
          first
            | assumption | apply fr_baysNow_Chip_linkSend K | apply keep_ite (P := P)
      | dsimp only | split | with_reducible refine fr_baysNow_lit K _ ?_ rfl rfl

theorem fr_baysNow_Chip_giveBackOpt (via : Option Nat) (f : PurFrame) (m : Chip) (h0 : P m) : P (Chip.giveBackOpt via f m) := by
  unfold Chip.giveBackOpt
  try dsimp only
  repeat'
    first
      | with_reducible
          first
            | assumption | apply fr_baysNow_Chip_giveBack K
      | split | dsimp only | with_reducible refine fr_baysNow_lit K _ ?_ rfl rfl

theorem fr_baysNow_Chip_purPump (p : Nat) (y0 : Nat) (y1 : Chip) (h0 : P y1) : P (Chip.purPump p y0 y1) := by
  induction y0 generalizing y1 with
  | zero => exact h0
  | succ n ih =>
    unfold Chip.purPump
    try dsimp only
    repeat'
      first
        | with_reducible
            first
              | assumption | apply ih | apply fr_baysNow_Chip_setPurPort K | apply fr_baysNow_Chip_purTx K
              | apply fr_baysNow_Chip_giveBackOpt K | apply keep_ite (P := P)
        | (intro _) | split | with_reducible refine fr_baysNow_lit K _ ?_ rfl rfl

theorem fr_baysNow_Chip_purFlush (p : Nat) (m : Chip) (h0 : P m) : P (Chip.purFlush p m) := by
  unfold Chip.purFlush
  try dsimp only
  repeat'
    first
      | with_reducible
          first
            | assumption | apply fr_baysNow_Chip_purPump K
      | dsimp only | split | with_reducible refine fr_baysNow_lit K _ ?_ rfl rfl

theorem fr_baysNow_Chip_mirrorOut (body : PurBody) (length : Nat) (m : Chip) (h0 : P m) : P (Chip.mirrorOut body length m) := by
  unfold Chip.mirrorOut
  try dsimp only
  repeat'
    first
      | with_reducible
          first
            | assumption | apply fr_baysNow_Chip_modPurPort K | apply fr_baysNow_Chip_purFlush K | apply keep_ite (P := P)
      | (intro _) | dsimp only | split | with_reducible refine fr_baysNow_lit K _ ?_ rfl rfl

theorem fr_baysNow_Chip_mirrorFrame (id : Nat) (r : MirrorRec) (m : Chip) (h0 : P m) : P (Chip.mirrorFrame id r m) := by
  unfold Chip.mirrorFrame
  try dsimp only
  repeat'
    first
      | with_reducible
          first
            | assumption | apply fr_baysNow_Chip_mirrorOut K
      | dsimp only | split | with_reducible refine fr_baysNow_lit K _ ?_ rfl rfl

theorem fr_baysNow_Chip_setQueue (m : Chip) (p : Nat) (q : List FEntry) (h0 : P m) : P (Chip.setQueue m p q) := K _ _ h0 rfl rfl

theorem fr_baysNow_Chip_mirrorSend (m : Chip) (r : MirrorRec) (h0 : P m) : P (Chip.mirrorSend m r) := by
  unfold Chip.mirrorSend
  try dsimp only
  repeat'
    first
      | with_reducible
          first
            | assumption | apply fr_baysNow_Chip_mirrorFrame K
      | dsimp only | split | with_reducible refine fr_baysNow_lit K _ ?_ rfl rfl

theorem fr_baysNow_Chip_entryCancelled (m : Chip) (e : FEntry) (h0 : P m) : P (Chip.entryCancelled m e) := by
  unfold Chip.entryCancelled
  try dsimp only
  repeat'
    first
      | with_reducible
          first
            | assumption | apply fr_baysNow_Chip_bump K | apply fr_baysNow_Chip_release K | apply fr_baysNow_Chip_mirrorSend K
            | apply keep_ite (P := P)
      | dsimp only | split | with_reducible refine fr_baysNow_lit K _ ?_ rfl rfl

theorem fr_baysNow_Chip_cancelIn (p : Nat) (c : FEntry → Bool) (m : Chip) (h0 : P m) : P (Chip.cancelIn p c m) := by
  unfold Chip.cancelIn
  try dsimp only
  repeat'
    first
      | with_reducible
          first
            | assumption | apply fr_baysNow_Chip_setQueue K | apply fr_baysNow_Chip_entryCancelled K | apply keep_forAll (P := P)
      | (intro _) | dsimp only | split | with_reducible refine fr_baysNow_lit K _ ?_ rfl rfl

theorem fr_baysNow_Chip_cancelAll (c : FEntry → Bool) (m : Chip) (h0 : P m) : P (Chip.cancelAll c m) := by
  unfold Chip.cancelAll
  try dsimp only
  repeat'
    first
      | with_reducible
          first
            | assumption | apply fr_baysNow_Chip_cancelIn K | apply keep_forAll (P := P)
      | (intro _) | dsimp only | split | with_reducible refine fr_baysNow_lit K _ ?_ rfl rfl

theorem fr_baysNow_Chip_dropResvs (c : Resv → Bool) (m : Chip) (h0 : P m) : P (Chip.dropResvs c m) := K _ _ h0 rfl rfl

theorem fr_baysNow_Chip_refreshOutputs (m : Chip) (h0 : P m) : P (Chip.refreshOutputs m) := by
  unfold Chip.refreshOutputs
  try dsimp only
  repeat'
    first
      | with_reducible
          first
            | assumption | apply fr_baysNow_Chip_put K | apply fr_baysNow_Chip_emit K | apply keep_foldl (P := P)
            | apply keep_foldl2 (P := P) | apply keep_ite (P := P)
      | (intro _) | dsimp only | split | with_reducible refine fr_baysNow_lit K _ ?_ rfl rfl

theorem fr_baysNow_Chip_setMode (new : Nat) (cause : Option Src) (m : Chip) (h0 : P m) : P (Chip.setMode new cause m) := by
  unfold Chip.setMode
  try dsimp only
  repeat'
    first
      | with_reducible
          first
            | assumption | apply fr_baysNow_Chip_put K
      | split | dsimp only | with_reducible refine fr_baysNow_lit K _ ?_ rfl rfl

theorem fr_baysNow_Chip_dropResume (m : Chip) (h0 : P m) : P (Chip.dropResume m) := K _ _ h0 rfl rfl

theorem fr_baysNow_Chip_enterSafe (cause : Option Src) (m : Chip) (h0 : P m) : P (Chip.enterSafe cause m) := by
  unfold Chip.enterSafe
  try dsimp only
  repeat'
    first
      | with_reducible
          first
            | assumption | apply fr_baysNow_Chip_bump K | apply fr_baysNow_Chip_cancelAll K | apply fr_baysNow_Chip_dropResvs K
            | apply fr_baysNow_Chip_refreshOutputs K | apply fr_baysNow_Chip_setMode K | apply fr_baysNow_Chip_dropResume K
            | apply keep_ite (P := P)
      | (intro _) | dsimp only | split | with_reducible refine fr_baysNow_lit K _ ?_ rfl rfl

theorem fr_baysNow_Chip_bucketEdge (c : Src) (m : Chip) (h0 : P m) : P (Chip.bucketEdge c m) := by
  unfold Chip.bucketEdge
  try dsimp only
  repeat'
    first
      | with_reducible
          first
            | assumption | apply fr_baysNow_Chip_put K | apply fr_baysNow_Chip_setFlag K | apply fr_baysNow_Chip_bump K
            | apply fr_baysNow_Chip_setSrc K | apply keep_ite (P := P)
      | split | dsimp only | with_reducible refine fr_baysNow_lit K _ ?_ rfl rfl

theorem fr_baysNow_Chip_severityAct (c : Src) (m : Chip) (h0 : P m) : P (Chip.severityAct c m) := by
  unfold Chip.severityAct
  try dsimp only
  repeat'
    first
      | with_reducible
          first
            | assumption | apply fr_baysNow_Chip_setBit K | apply fr_baysNow_Chip_emit K | apply fr_baysNow_Chip_log K
            | apply fr_baysNow_Chip_setSrc K | apply fr_baysNow_Chip_refreshOutputs K | apply fr_baysNow_Chip_enterSafe K
            | apply keep_ite (P := P)
      | dsimp only | split | with_reducible refine fr_baysNow_lit K _ ?_ rfl rfl

theorem fr_baysNow_Chip_raise (c : Src) (m : Chip) (h0 : P m) : P (Chip.raise c m) := by
  unfold Chip.raise
  try dsimp only
  repeat'
    first
      | with_reducible
          first
            | assumption | apply fr_baysNow_Chip_setBit K | apply fr_baysNow_Chip_bucketEdge K | apply fr_baysNow_Chip_severityAct K
      | dsimp only | split | with_reducible refine fr_baysNow_lit K _ ?_ rfl rfl

theorem fr_baysNow_Chip_onWit (f : WitState → WitState) (m : Chip) (h0 : P m) : P (Chip.onWit f m) := K _ _ h0 rfl rfl

theorem fr_baysNow_Chip_onBays (f : BayState → BayState) (m : Chip) (h0 : P m) (e0 : ∀ x, (f x).bay = x.bay) (e1 : ∀ x,
    (f x).verdictDone = x.verdictDone) : P (Chip.onBays f m) := K _ _ h0 (e0 _) (e1 _)

theorem fr_baysNow_Chip_invalidate (j k : Nat) (m : Chip) (h0 : P m) : P (Chip.invalidate j k m) := by
  unfold Chip.invalidate
  try dsimp only
  repeat'
    first
      | with_reducible
          first
            | assumption | apply keep_ite (P := P)
      | (intro _)
      | (with_reducible refine fr_baysNow_Chip_onBays K _ _ ?_ ?_ ?_ ; rotate_left; all_goals first | exact fun _ => rfl | skip)
      | dsimp only | split | with_reducible refine fr_baysNow_lit K _ ?_ rfl rfl

theorem fr_baysNow_Chip_onPp (f : PpState → PpState) (m : Chip) (h0 : P m) : P (Chip.onPp f m) := K _ _ h0 rfl rfl

theorem fr_baysNow_Chip_setPpRow (v : PpRow) (m : Chip) (h0 : P m) : P (Chip.setPpRow v m) := K _ _ h0 rfl rfl

theorem fr_baysNow_Chip_discardCarry (j r : Nat) (m : Chip) (h0 : P m) : P (Chip.discardCarry j r m) := by
  unfold Chip.discardCarry
  try dsimp only
  repeat'
    first
      | with_reducible
          first
            | assumption | apply fr_baysNow_Chip_setFlag K | apply fr_baysNow_Chip_bump K | apply fr_baysNow_Chip_setPpRow K
            | apply keep_ite (P := P)
      | split | dsimp only | with_reducible refine fr_baysNow_lit K _ ?_ rfl rfl

theorem fr_baysNow_Chip_discardInvalid (m : Chip) (h0 : P m) : P (Chip.discardInvalid m) := by
  unfold Chip.discardInvalid
  try dsimp only
  repeat'
    first
      | with_reducible
          first
            | assumption | apply fr_baysNow_Chip_discardCarry K | apply keep_forAll (P := P)
      | (intro _) | split | dsimp only | with_reducible refine fr_baysNow_lit K _ ?_ rfl rfl

theorem fr_baysNow_Chip_sealMarks (j k : Nat) (gap : Bool) (extra : List Mark) (m : Chip) (h0 : P m) : P (Chip.sealMarks j k gap extra
    m) := K _ _ h0 rfl rfl

theorem fr_baysNow_Chip_ppBoundary (b : Nat) (m : Chip) (h0 : P m) : P (Chip.ppBoundary b m) := by
  unfold Chip.ppBoundary
  try dsimp only
  repeat'
    first
      | with_reducible
          first
            | assumption | apply fr_baysNow_Chip_setFlag K | apply fr_baysNow_Chip_invalidate K | apply fr_baysNow_Chip_onPp K
            | apply fr_baysNow_Chip_discardInvalid K | apply fr_baysNow_Chip_sealMarks K | apply keep_forAll (P := P)
            | apply keep_ite (P := P)
      | (intro _) | dsimp only | split | with_reducible refine fr_baysNow_lit K _ ?_ rfl rfl

theorem fr_baysNow_Chip_onTn (f : TenonState → TenonState) (m : Chip) (h0 : P m) : P (Chip.onTn f m) := K _ _ h0 rfl rfl

theorem fr_baysNow_Chip_setTnDir (d : Nat) (v : TnDir) (m : Chip) (h0 : P m) : P (Chip.setTnDir d v m) := K _ _ h0 rfl rfl

theorem fr_baysNow_Chip_modTnDir (d : Nat) (f : TnDir → TnDir) (m : Chip) (h0 : P m) : P (Chip.modTnDir d f m) := K _ _ h0 rfl rfl

theorem fr_baysNow_Chip_tnBoundary (b : Nat) (m : Chip) (h0 : P m) : P (Chip.tnBoundary b m) := K _ _ h0 rfl rfl

theorem fr_baysNow_Chip_purBoundary (b : Nat) (m : Chip) (h0 : P m) : P (Chip.purBoundary b m) := by
  unfold Chip.purBoundary
  try dsimp only
  repeat'
    first
      | with_reducible
          first
            | assumption | apply fr_baysNow_Chip_put K | apply fr_baysNow_Chip_onPur K | apply keep_ite (P := P)
      | (intro _) | split | dsimp only | with_reducible refine fr_baysNow_lit K _ ?_ rfl rfl

end

theorem eq_baysNow_Chip_raise (c : Src) (m : Chip) : (Chip.raise c m).bays.bay = m.bays.bay ∧ (Chip.raise c m).bays.verdictDone =
    m.bays.verdictDone :=
  fr_baysNow_Chip_raise (P := fun z => z.bays.bay = m.bays.bay ∧ z.bays.verdictDone = m.bays.verdictDone) (fun _ _ h e0 e1 =>
      ⟨e0.trans h.1, e1.trans h.2⟩) c m ⟨rfl, rfl⟩

theorem eq_baysNow_Chip_ppBoundary (b : Nat) (m : Chip) : (Chip.ppBoundary b m).bays.bay = m.bays.bay ∧
    (Chip.ppBoundary b m).bays.verdictDone = m.bays.verdictDone :=
  fr_baysNow_Chip_ppBoundary (P := fun z => z.bays.bay = m.bays.bay ∧ z.bays.verdictDone = m.bays.verdictDone) (fun _ _ h e0 e1 =>
      ⟨e0.trans h.1, e1.trans h.2⟩) b m ⟨rfl, rfl⟩

theorem eq_baysNow_Chip_tnBoundary (b : Nat) (m : Chip) : (Chip.tnBoundary b m).bays.bay = m.bays.bay ∧
    (Chip.tnBoundary b m).bays.verdictDone = m.bays.verdictDone :=
  fr_baysNow_Chip_tnBoundary (P := fun z => z.bays.bay = m.bays.bay ∧ z.bays.verdictDone = m.bays.verdictDone) (fun _ _ h e0 e1 =>
      ⟨e0.trans h.1, e1.trans h.2⟩) b m ⟨rfl, rfl⟩

theorem eq_baysNow_Chip_purBoundary (b : Nat) (m : Chip) : (Chip.purBoundary b m).bays.bay = m.bays.bay ∧
    (Chip.purBoundary b m).bays.verdictDone = m.bays.verdictDone :=
  fr_baysNow_Chip_purBoundary (P := fun z => z.bays.bay = m.bays.bay ∧ z.bays.verdictDone = m.bays.verdictDone) (fun _ _ h e0 e1 =>
      ⟨e0.trans h.1, e1.trans h.2⟩) b m ⟨rfl, rfl⟩

end Sys2Proof.Laws
end

