-- ==== Sys2Proof/Laws/Frames/Encs.lean ====
section
/-!
SUPPORT. Sys2Proof/Laws/Frames/Encs.lean: the operations that leave the encoder ports alone, a lemma for each. `fr_…` carries a property that
depends on nothing else across the operation; `eq_…` says that it reads as before.
-/
namespace Sys2Proof.Laws
open Sys2Proof.Machine

section
variable {P : Chip → Prop} (K : ∀ a b : Chip, P a → b.encs = a.encs → P b)
include K

theorem fr_encs_lit (m : Chip) {regs time encs fire pegs fio sup boot bays engs mem sramValid sramBad stick wit cams pocs pipes rowPipes
    replays screens pp tenon purlin latches fresh heads eth subs trust text hk nvLog out free} (h : P m) (e0 : encs =
        m.encs) : P (Chip.mk regs time encs fire pegs fio sup boot bays engs mem sramValid sramBad stick wit cams pocs pipes rowPipes
            replays screens pp tenon purlin latches fresh heads eth subs trust text hk nvLog out free) := K _ _ h e0

theorem fr_encs_Chip_wr (m : Chip) (a : Nat) (v : Word) (h0 : P m) : P (Chip.wr m a v) := K _ _ h0 rfl

theorem fr_encs_Chip_put (m : Chip) (f : Fld) (v : Nat) (h0 : P m) : P (Chip.put m f v) := K _ _ h0 rfl

theorem fr_encs_Chip_markFresh (a i : Nat) (m : Chip) (h0 : P m) : P (Chip.markFresh a i m) := K _ _ h0 rfl

theorem fr_encs_Chip_setFlag (m : Chip) (f : Fld) (h0 : P m) : P (Chip.setFlag m f) := K _ _ h0 rfl

theorem fr_encs_Chip_setFlagIf (m : Chip) (c : Bool) (f : Fld) (h0 : P m) : P (Chip.setFlagIf m c f) := by
  unfold Chip.setFlagIf
  try dsimp only
  repeat'
    first
      | with_reducible
          first
            | assumption | apply fr_encs_Chip_setFlag K | apply keep_ite (P := P)
      | dsimp only | split | with_reducible refine fr_encs_lit K _ ?_ rfl

theorem fr_encs_Chip_bumpBy (m : Chip) (a n : Nat) (h0 : P m) : P (Chip.bumpBy m a n) := K _ _ h0 rfl

theorem fr_encs_Chip_bump (m : Chip) (a : Nat) (h0 : P m) : P (Chip.bump m a) := K _ _ h0 rfl

theorem fr_encs_Chip_emit (m : Chip) (e : Emit) (h0 : P m) : P (Chip.emit m e) := K _ _ h0 rfl

theorem fr_encs_Chip_toSubs (m : Chip) (r : StreamRec) (h0 : P m) : P (Chip.toSubs m r) := by
  unfold Chip.toSubs
  try dsimp only
  repeat'
    first
      | with_reducible
          first
            | assumption | apply fr_encs_Chip_bump K | apply keep_forAll (P := P)
      | (intro _) | dsimp only | split | with_reducible refine fr_encs_lit K _ ?_ rfl

theorem fr_encs_Chip_release (m : Chip) (r : ResultRec) (h0 : P m) : P (Chip.release m r) := by
  unfold Chip.release
  try dsimp only
  repeat'
    first
      | with_reducible
          first
            | assumption | apply fr_encs_Chip_emit K | apply fr_encs_Chip_toSubs K
      | dsimp only | split | with_reducible refine fr_encs_lit K _ ?_ rfl

theorem fr_encs_Chip_setQueue (m : Chip) (p : Nat) (q : List FEntry) (h0 : P m) : P (Chip.setQueue m p q) := K _ _ h0 rfl

theorem fr_encs_Chip_markEstimate (p : Nat) (pos : Q) (m : Chip) (h0 : P m) : P (Chip.markEstimate p pos m) := by
  unfold Chip.markEstimate
  try dsimp only
  repeat'
    first
      | with_reducible
          first
            | assumption | apply fr_encs_Chip_setFlagIf K | apply fr_encs_Chip_bumpBy K | apply fr_encs_Chip_release K
            | apply fr_encs_Chip_setQueue K | apply keep_forAll (P := P) | apply keep_foldl (P := P) | apply keep_foldl2 (P := P)
            | apply keep_ite (P := P)
      | (intro _) | dsimp only | split | with_reducible refine fr_encs_lit K _ ?_ rfl

theorem fr_encs_Chip_forgetLeft (p : Nat) (m : Chip) (h0 : P m) : P (Chip.forgetLeft p m) := K _ _ h0 rfl

end

theorem eq_encs_Chip_put (m : Chip) (f : Fld) (v : Nat) : (Chip.put m f v).encs = m.encs :=
  fr_encs_Chip_put (P := fun z => z.encs = m.encs) (fun _ _ h e => e.trans h) m f v rfl

theorem eq_encs_Chip_bump (m : Chip) (a : Nat) : (Chip.bump m a).encs = m.encs :=
  fr_encs_Chip_bump (P := fun z => z.encs = m.encs) (fun _ _ h e => e.trans h) m a rfl

theorem eq_encs_Chip_markEstimate (p : Nat) (pos : Q) (m : Chip) : (Chip.markEstimate p pos m).encs = m.encs :=
  fr_encs_Chip_markEstimate (P := fun z => z.encs = m.encs) (fun _ _ h e => e.trans h) p pos m rfl

theorem eq_encs_Chip_forgetLeft (p : Nat) (m : Chip) : (Chip.forgetLeft p m).encs = m.encs :=
  fr_encs_Chip_forgetLeft (P := fun z => z.encs = m.encs) (fun _ _ h e => e.trans h) p m rfl

end Sys2Proof.Laws
end

