-- ==== Sys2Proof/Laws/Frames/FireLists.lean ====
section
/-!
SUPPORT. Sys2Proof/Laws/Frames/FireLists.lean: the operations that leave the queues, reservations and mirror of the firing system alone, a lemma for each. `fr_…` carries a property that
depends on nothing else across the operation; `eq_…` says that it reads as before.
-/
namespace Sys2Proof.Laws
open Sys2Proof.Machine

section
variable {P : Chip → Prop} (K : ∀ a b : Chip, P a → b.fire.mirror = a.fire.mirror → b.fire.queues = a.fire.queues → b.fire.resvs =
    a.fire.resvs → b.fire.late = a.fire.late → P b)
include K

theorem fr_fireLists_lit (m : Chip) {regs time encs fire pegs fio sup boot bays engs mem sramValid sramBad stick wit cams pocs pipes
    rowPipes replays screens pp tenon purlin latches fresh heads eth subs trust text hk nvLog out free} (h : P m) (e0 : fire.mirror =
        m.fire.mirror) (e1 : fire.queues = m.fire.queues) (e2 : fire.resvs = m.fire.resvs) (e3 : fire.late =
            m.fire.late) : P (Chip.mk regs time encs fire pegs fio sup boot bays engs mem sramValid sramBad stick wit cams pocs pipes
                rowPipes replays screens pp tenon purlin latches fresh heads eth subs trust text hk nvLog out free) :=
                    K _ _ h e0 e1 e2 e3

theorem fr_fireLists_Chip_wr (m : Chip) (a : Nat) (v : Word) (h0 : P m) : P (Chip.wr m a v) := K _ _ h0 rfl rfl rfl rfl

theorem fr_fireLists_Chip_bumpBy (m : Chip) (a n : Nat) (h0 : P m) : P (Chip.bumpBy m a n) := K _ _ h0 rfl rfl rfl rfl

theorem fr_fireLists_Chip_bump (m : Chip) (a : Nat) (h0 : P m) : P (Chip.bump m a) := K _ _ h0 rfl rfl rfl rfl

theorem fr_fireLists_Chip_emit (m : Chip) (e : Emit) (h0 : P m) : P (Chip.emit m e) := K _ _ h0 rfl rfl rfl rfl

theorem fr_fireLists_Chip_log (m : Chip) (what : String) (args : List Nat) (h0 : P m) : P (Chip.log m what args) := by
  unfold Chip.log
  try dsimp only
  repeat'
    first
      | with_reducible
          first
            | assumption | apply keep_ite (P := P)
      | dsimp only | split | with_reducible refine fr_fireLists_lit K _ ?_ rfl rfl rfl rfl

theorem fr_fireLists_Chip_setHead (m : Chip) (h : Nat) (v : HeadState) (h0 : P m) : P (Chip.setHead m h v) := K _ _ h0 rfl rfl rfl rfl

theorem fr_fireLists_Chip_toSubs (m : Chip) (r : StreamRec) (h0 : P m) : P (Chip.toSubs m r) := by
  unfold Chip.toSubs
  try dsimp only
  repeat'
    first
      | with_reducible
          first
            | assumption | apply fr_fireLists_Chip_bump K | apply keep_forAll (P := P)
      | (intro _) | dsimp only | split | with_reducible refine fr_fireLists_lit K _ ?_ rfl rfl rfl rfl

theorem fr_fireLists_Chip_release (m : Chip) (r : ResultRec) (h0 : P m) : P (Chip.release m r) := by
  unfold Chip.release
  try dsimp only
  repeat'
    first
      | with_reducible
          first
            | assumption | apply fr_fireLists_Chip_emit K | apply fr_fireLists_Chip_toSubs K
      | dsimp only | split | with_reducible refine fr_fireLists_lit K _ ?_ rfl rfl rfl rfl

theorem fr_fireLists_Chip_onFire (f : FireState → FireState) (m : Chip) (h0 : P m) (e0 : ∀ x, (f x).mirror = x.mirror) (e1 : ∀ x,
    (f x).queues = x.queues) (e2 : ∀ x, (f x).resvs = x.resvs) (e3 : ∀ x, (f x).late = x.late) : P (Chip.onFire f m) :=
        K _ _ h0 (e0 _) (e1 _) (e2 _) (e3 _)

theorem fr_fireLists_Chip_commitSamples (stream strip obj : Nat) (m : Chip) (h0 : P m) : P (Chip.commitSamples stream strip obj m) := by
  unfold Chip.commitSamples
  try dsimp only
  repeat' (first | with_reducible assumption | (intro _) | with_reducible apply fr_fireLists_Chip_bumpBy K
                 | with_reducible apply fr_fireLists_Chip_setHead K | with_reducible apply keep_forAll (P := P)
                 | with_reducible apply keep_foldl (P := P) | with_reducible apply keep_foldl2 (P := P)
                 | with_reducible apply keep_ite (P := P) | dsimp only | split
                 | with_reducible refine fr_fireLists_lit K _ ?_ rfl rfl rfl rfl)

theorem fr_fireLists_Chip_countObj (row : Nat) (r : ResultRec) (m : Chip) (h0 : P m) : P (Chip.countObj row r m) := by
  unfold Chip.countObj
  try dsimp only
  repeat'
    first
      | with_reducible
          first
            | assumption | apply fr_fireLists_Chip_bump K | apply keep_ite (P := P)
      | split | dsimp only | with_reducible refine fr_fireLists_lit K _ ?_ rfl rfl rfl rfl

theorem fr_fireLists_Chip_keepEvidence (row : Nat) (r : ResultRec) (m : Chip) (h0 : P m) : P (Chip.keepEvidence row r m) := by
  unfold Chip.keepEvidence
  try dsimp only
  repeat'
    first
      | with_reducible
          first
            | assumption | apply fr_fireLists_Chip_log K | apply keep_ite (P := P)
      | (intro _)
      | (with_reducible refine fr_fireLists_Chip_onFire K _ _ ?_ ?_ ?_ ?_ ?_ ; rotate_left; all_goals first | exact fun _ => rfl | skip)
      | split | dsimp only | with_reducible refine fr_fireLists_lit K _ ?_ rfl rfl rfl rfl

theorem fr_fireLists_Chip_releaseObj (row : Nat) (r : ResultRec) (m : Chip) (h0 : P m) : P (Chip.releaseObj row r m) := by
  unfold Chip.releaseObj
  try dsimp only
  repeat'
    first
      | with_reducible
          first
            | assumption | apply fr_fireLists_Chip_release K | apply fr_fireLists_Chip_commitSamples K
            | apply fr_fireLists_Chip_countObj K | apply fr_fireLists_Chip_keepEvidence K | apply keep_ite (P := P)
      | dsimp only | split | with_reducible refine fr_fireLists_lit K _ ?_ rfl rfl rfl rfl

end

theorem eq_fireLists_Chip_releaseObj (row : Nat) (r : ResultRec) (m : Chip) : (Chip.releaseObj row r m).fire.mirror = m.fire.mirror ∧
    (Chip.releaseObj row r m).fire.queues = m.fire.queues ∧ (Chip.releaseObj row r m).fire.resvs = m.fire.resvs ∧
        (Chip.releaseObj row r m).fire.late = m.fire.late :=
  fr_fireLists_Chip_releaseObj (P := fun z => z.fire.mirror = m.fire.mirror ∧ z.fire.queues = m.fire.queues ∧ z.fire.resvs =
      m.fire.resvs ∧ z.fire.late = m.fire.late) (fun _ _ h e0 e1 e2 e3 => ⟨e0.trans h.1, e1.trans h.2.1, e2.trans h.2.2.1,
          e3.trans h.2.2.2⟩) row r m ⟨rfl, rfl, rfl, rfl⟩

end Sys2Proof.Laws
end

