-- ==== Sys2Proof/Laws/Completion/Firing.lean ====
section
/-!
SUPPORT. Sys2Proof/Laws/Completion/Firing.lean: encoders, firing and the bay boundary.
What an effect leaves, said once for the statements that say where a command completes.
-/
namespace Sys2Proof.Laws
open Sys2Proof.Machine

theorem enc_of {x y : Chip} (h : x.encs = y.encs) (p : Nat) : x.enc p = y.enc p := by unfold Chip.enc; rw [h]

theorem enc_setEnc (m : Chip) (p : Nat) (v : EncPort) (h : v ≠ {}) : (m.setEnc p v).enc p = v :=
    tabGet_set_ne ({} : EncPort) m.encs p v h

theorem encMove_enc (m : Chip) (p : Nat) (d : Int) : ((m.encMove p d).enc p).count = wrap48 ((m.enc p).count + d) ∧
    ((m.encMove p d).enc p).up = decide (0 ≤ d) ∧ ((m.encMove p d).enc p).moved = true ∧
    ((m.encMove p d).enc p).synthRun = (m.enc p).synthRun := by
  unfold Chip.encMove; dsimp only
  generalize hv : (EncPort.mk _ _ _ _ _ _ _ _ _ _ _ _ _ _ _ _ _ _ _ _ _ _ _ _ _ _ _ _ _ _ : EncPort) = v
  rw [enc_of (eq_encs_Chip_forgetLeft ..), enc_of (eq_encs_Chip_put ..),
      enc_setEnc _ _ _ (by rw [← hv]; intro e; have := congrArg (·.moved) e; simp at this), ← hv]
  exact ⟨rfl, rfl, rfl, rfl⟩

theorem tooth_spec (m : Chip) (p : Nat) (d : Int) :
    let t := (((((m.encMove p d).setEnc p { (m.encMove p d).enc p with acqTeeth := 1 }).setEncState p 1).setEnc p
        { (((m.encMove p d).setEnc p { (m.encMove p d).enc p with acqTeeth := 1 }).setEncState p 1).enc p with lastTooth := some m.cyc, prevReal := true }).rephase p (qOfInt ((m.encMove p d).enc p).count) ⟨0, 1⟩ ((m.encMove p d).enc p).count)
    (t.enc p).count = wrap48 ((m.enc p).count + d) ∧ (t.enc p).up = decide (0 ≤ d) ∧ (t.enc p).lastTooth = some m.cyc ∧
        (t.enc p).acqTeeth = 1 := by
  have h := encMove_enc m p d
  generalize m.encMove p d = x at *
  have e1 : ((x.setEnc p { x.enc p with acqTeeth := 1 }).setEncState p 1).enc p = { x.enc p with acqTeeth := 1 } := by
   unfold Chip.setEncState; rw [enc_of (eq_encs_Chip_put ..)]
   exact enc_setEnc x p _ (by intro e; have := congrArg (·.acqTeeth) e; simp at this)
  dsimp only
  unfold Chip.rephase
  rw [e1]
  generalize (x.setEnc p _).setEncState p 1 = y
  have e2 := enc_setEnc y p { ({ x.enc p with acqTeeth := 1 } : EncPort) with lastTooth := some m.cyc, prevReal := true }
      (by intro e; have := congrArg (·.acqTeeth) e; simp at this)
  rw [e2, enc_setEnc _ _ _ (by intro e; have := congrArg (·.acqTeeth) e; simp at this)]
  exact ⟨h.1, h.2.1, rfl, rfl⟩

theorem window_spec (m : Chip) (p q l : Nat) (h3 : (m.enc p).period = some q) (h4 : (m.enc p).lastTooth =
    some l) (h5 : (m.enc p).synthRun < 2) :
    ((m.windowClose p).enc p).lastTooth = some (l + q) ∧ ((m.windowClose p).enc p).synthRun = (m.enc p).synthRun + 1 ∧
        ((m.windowClose p).enc p).prevReal = false := by
  unfold Chip.windowClose; dsimp only
  rw [h3, h4]; dsimp only
  rw [if_neg (by omega), enc_of (eq_encs_Chip_markEstimate ..), enc_of (eq_encs_Chip_bump ..), enc_of (y :=
      Chip.rephase _ _ _ _ (Chip.setEnc _ _ _)) (show (Chip.setFlag _ _).encs = _ from rfl)]
  unfold Chip.rephase
  generalize (if (m.enc p).up = true then _ else _ : Int) = d
  have hm := (encMove_enc m p d).2.2.1
  generalize m.encMove p d = x at *
  have e2 := enc_setEnc x p { x.enc p with lastTooth := some (l + q), synthRun := (m.enc p).synthRun + 1, prevReal := false }
      (by intro e; have := congrArg (·.synthRun) e; simp at this)
  rw [e2, enc_setEnc _ _ _ (by intro e; have := congrArg (·.synthRun) e; simp at this)]
  exact ⟨rfl, rfl, rfl⟩

theorem late_spec (m : Chip) (r : Resv) (he : m.lateEject r.row = false) : (m.lateAction r).fire.resvs = m.fire.resvs.erase r ∧
    (m.lateAction r).fire.late = m.fire.late ++
        [{ row := r.row, map := r.map, vFirst := r.vFirst, vLast := r.vLast, cOpen := r.cOpen, cClose := r.cClose }] := by
  unfold Chip.lateAction
  dsimp only
  rw [he, if_neg (by simp)]
  split
  · rw [(eq_fireLists_Chip_releaseObj ..).2.2.1, (eq_fireLists_Chip_releaseObj ..).2.2.2]; exact ⟨rfl, rfl⟩
  · exact ⟨rfl, rfl⟩

theorem releaseHeld_parts (k : EntKey) (m : Chip) : (m.releaseHeld k).fire.mirror = m.fire.mirror ∧ (m.releaseHeld k).fire.queues =
    m.fire.queues := by
  unfold Chip.releaseHeld
  split
  · exact ⟨rfl, rfl⟩
  · rw [(eq_fireLists_Chip_releaseObj ..).1, (eq_fireLists_Chip_releaseObj ..).2.1]; exact ⟨rfl, rfl⟩

theorem queue_spec (m : Chip) (e : FEntry) (h2 : m.mode ≠ 3) (h3 : e.cancelled = false) (h4 : e.port < m.fire.queues.length) :
    (m.queueEntry e).fire.mirror = m.fire.mirror ∧ (m.queueEntry e).queue e.port = insertBy (fun a b =>
        decide (a.cOpen ≤ b.cOpen)) e (m.queue e.port) := by
  unfold Chip.queueEntry Chip.queue
  dsimp only
  rw [if_neg (by simp [h2, h3]), (releaseHeld_parts _ _).1, (releaseHeld_parts _ _).2]
  refine ⟨rfl, ?_⟩
  show (m.fire.queues.set e.port _).getD e.port [] = _
  simp [List.getD_eq_getElem?_getD, h4]

theorem forget_spec (b : Nat) (z : Chip) : (z.forget b).bays.bay = z.bays.bay ∧ (z.forget b).bays.verdictDone = z.bays.verdictDone ∧
    (z.forget b).bays.semS = z.bays.semS ∧ (z.forget b).bays.semR = z.bays.semR ∧ (z.forget b).fire.inbox = [] := by
  have e : ∀ g, (z.countDue g).bays = z.bays := fun g => by
    unfold Chip.countDue
    exact forAll_frame (fun z : Chip => z.bays) _ _ _ (fun _ _ => rfl)
  unfold Chip.forget
  simp only [Chip.onBays, Chip.onFire, Chip.onWit, e]
  exact ⟨trivial, trivial, trivial, trivial, trivial⟩

theorem boundary_spec (m : Chip) (b : Nat) (strobe : Option Nat) : (m.boundary b strobe).bays.bay = b ∧
    (m.boundary b strobe).bays.verdictDone = false ∧
    (m.boundary b strobe).bays.semS = [] ∧ (m.boundary b strobe).bays.semR = [] ∧ (m.boundary b strobe).fire.inbox = [] := by
  unfold Chip.boundary
  dsimp only
  generalize ((((m.tnFill 0).tnFill 1).loseSets.missFrames true).deadlines) = x
  have h1 : (x.strobe b strobe).bays.bay = b ∧ (x.strobe b strobe).bays.verdictDone = false := by
    unfold Chip.strobe; dsimp only; split
    · exact ⟨rfl, rfl⟩
    · rw [(eq_baysNow_Chip_raise ..).1, (eq_baysNow_Chip_raise ..).2]; exact ⟨rfl, rfl⟩
  generalize x.strobe b strobe = y at h1
  have hf := forget_spec b
  have hb : ∀ (l : List Engine) (z : Chip), (forAll l (fun e m => m.turnEngine e) z).bays.bay = z.bays.bay ∧ (forAll l (fun e m =>
      m.turnEngine e) z).bays.verdictDone = z.bays.verdictDone ∧ (forAll l (fun e m => m.turnEngine e) z).bays.semS = z.bays.semS ∧
          (forAll l (fun e m => m.turnEngine e) z).bays.semR = z.bays.semR := fun l z =>
    ⟨forAll_frame (fun z : Chip => z.bays.bay) _ _ _ (fun _ _ => (eq_baysMarks_Chip_turnEngine ..).1), forAll_frame (fun z : Chip =>
        z.bays.verdictDone) _ _ _ (fun _ _ => (eq_baysMarks_Chip_turnEngine ..).2.2.1), forAll_frame (fun z : Chip =>
            z.bays.semS) _ _ _ (fun _ _ => (eq_baysMarks_Chip_turnEngine ..).2.2.2.1), forAll_frame (fun z : Chip =>
                z.bays.semR) _ _ _ (fun _ _ => (eq_baysMarks_Chip_turnEngine ..).2.2.2.2)⟩
  have hj : ∀ (l : List Nat) (z : Chip), (forAll l (fun j m => m.turnJob b j) z).bays.bay = z.bays.bay ∧ (forAll l (fun j m =>
      m.turnJob b j) z).bays.verdictDone = z.bays.verdictDone ∧ (forAll l (fun j m => m.turnJob b j) z).bays.semS = z.bays.semS ∧
          (forAll l (fun j m => m.turnJob b j) z).bays.semR = z.bays.semR := fun l z =>
    ⟨forAll_frame (fun z : Chip => z.bays.bay) _ _ _ (fun _ _ => (eq_baysMarks_Chip_turnJob ..).1), forAll_frame (fun z : Chip =>
        z.bays.verdictDone) _ _ _ (fun _ _ => (eq_baysMarks_Chip_turnJob ..).2.2.1), forAll_frame (fun z : Chip => z.bays.semS) _ _ _ (fun _ _ =>
            (eq_baysMarks_Chip_turnJob ..).2.2.2.1), forAll_frame (fun z : Chip => z.bays.semR) _ _ _ (fun _ _ =>
                (eq_baysMarks_Chip_turnJob ..).2.2.2.2)⟩
  refine ⟨?_, ?_, ?_, ?_, (hf _).2.2.2.2⟩
  · rw [(hf _).1, (eq_baysMarks_Chip_streamTables ..).1, (eq_baysMarks_Chip_dropStaged ..).1, (eq_baysMarks_Chip_screenBoundary ..).1,
        (eq_baysMarks_Chip_fedBoundary ..).1, (eq_baysMarks_Chip_releaseSlots ..).1, (eq_baysMarks_Chip_reportUnjudged ..).1,
            (eq_baysMarks_Chip_sealStuds ..).1, (eq_baysMarks_Chip_missFrames ..).1, (eq_baysMarks_Chip_applyPilots ..).1,
                (eq_baysMarks_Chip_latchCounts ..).1, (eq_baysMarks_Chip_commitRef ..).1, (eq_baysMarks_Chip_witDrain ..).1,
                    (eq_baysMarks_Chip_supBoundary ..).1, (hb _ _).1, (hj _ _).1]
    show (Chip.ppBoundary _ _).bays.bay = _
    rw [(eq_baysNow_Chip_ppBoundary ..).1, (eq_baysNow_Chip_purBoundary ..).1, (eq_baysNow_Chip_tnBoundary ..).1, h1.1]
  · rw [(hf _).2.1, (eq_baysMarks_Chip_streamTables ..).2.2.1, (eq_baysMarks_Chip_dropStaged ..).2.2.1,
        (eq_baysMarks_Chip_screenBoundary ..).2.2.1, (eq_baysMarks_Chip_fedBoundary ..).2.2.1,
            (eq_baysMarks_Chip_releaseSlots ..).2.2.1, (eq_baysMarks_Chip_reportUnjudged ..).2.2.1,
                (eq_baysMarks_Chip_sealStuds ..).2.2.1, (eq_baysMarks_Chip_missFrames ..).2.2.1,
                    (eq_baysMarks_Chip_applyPilots ..).2.2.1, (eq_baysMarks_Chip_latchCounts ..).2.2.1,
                        (eq_baysMarks_Chip_commitRef ..).2.2.1, (eq_baysMarks_Chip_witDrain ..).2.2.1,
                            (eq_baysMarks_Chip_supBoundary ..).2.2.1, (hb _ _).2.1, (hj _ _).2.1]
    show (Chip.ppBoundary _ _).bays.verdictDone = _
    rw [(eq_baysNow_Chip_ppBoundary ..).2, (eq_baysNow_Chip_purBoundary ..).2, (eq_baysNow_Chip_tnBoundary ..).2, h1.2]
  · rw [(hf _).2.2.1, (eq_baysMarks_Chip_streamTables ..).2.2.2.1, (eq_baysMarks_Chip_dropStaged ..).2.2.2.1,
        (eq_baysMarks_Chip_screenBoundary ..).2.2.2.1, (eq_baysMarks_Chip_fedBoundary ..).2.2.2.1,
            (eq_baysMarks_Chip_releaseSlots ..).2.2.2.1, (eq_baysMarks_Chip_reportUnjudged ..).2.2.2.1,
                (eq_baysMarks_Chip_sealStuds ..).2.2.2.1, (eq_baysMarks_Chip_missFrames ..).2.2.2.1,
                    (eq_baysMarks_Chip_applyPilots ..).2.2.2.1, (eq_baysMarks_Chip_latchCounts ..).2.2.2.1,
                        (eq_baysMarks_Chip_commitRef ..).2.2.2.1, (eq_baysMarks_Chip_witDrain ..).2.2.2.1,
                            (eq_baysMarks_Chip_supBoundary ..).2.2.2.1, (hb _ _).2.2.1, (hj _ _).2.2.1]
    rfl
  · rw [(hf _).2.2.2.1, (eq_baysMarks_Chip_streamTables ..).2.2.2.2, (eq_baysMarks_Chip_dropStaged ..).2.2.2.2,
        (eq_baysMarks_Chip_screenBoundary ..).2.2.2.2, (eq_baysMarks_Chip_fedBoundary ..).2.2.2.2,
            (eq_baysMarks_Chip_releaseSlots ..).2.2.2.2, (eq_baysMarks_Chip_reportUnjudged ..).2.2.2.2,
                (eq_baysMarks_Chip_sealStuds ..).2.2.2.2, (eq_baysMarks_Chip_missFrames ..).2.2.2.2,
                    (eq_baysMarks_Chip_applyPilots ..).2.2.2.2, (eq_baysMarks_Chip_latchCounts ..).2.2.2.2,
                        (eq_baysMarks_Chip_commitRef ..).2.2.2.2, (eq_baysMarks_Chip_witDrain ..).2.2.2.2,
                            (eq_baysMarks_Chip_supBoundary ..).2.2.2.2, (hb _ _).2.2.2, (hj _ _).2.2.2]
    rfl

/-! cameras -/

end Sys2Proof.Laws
end

