-- ==== Sys2Proof/Laws/Frames/Trustsessions.lean ====
section
/-!
SUPPORT. Sys2Proof/Laws/Frames/Trustsessions.lean: the operations that leave the sessions alone, a lemma for each. `fr_…` carries a property that
depends on nothing else across the operation; `eq_…` says that it reads as before.
-/
namespace Sys2Proof.Laws
open Sys2Proof.Machine

section
variable {P : Chip → Prop} (K : ∀ a b : Chip, P a → b.trust.sessions = a.trust.sessions → P b)
include K

theorem fr_trustsessions_lit (m : Chip) {regs time encs fire pegs fio sup boot bays engs mem sramValid sramBad stick wit cams pocs pipes
    rowPipes replays screens pp tenon purlin latches fresh heads eth subs trust text hk nvLog out free} (h : P m) (e0 : trust.sessions =
        m.trust.sessions) : P (Chip.mk regs time encs fire pegs fio sup boot bays engs mem sramValid sramBad stick wit cams pocs pipes
            rowPipes replays screens pp tenon purlin latches fresh heads eth subs trust text hk nvLog out free) := K _ _ h e0

theorem fr_trustsessions_Chip_wr (m : Chip) (a : Nat) (v : Word) (h0 : P m) : P (Chip.wr m a v) := K _ _ h0 rfl

theorem fr_trustsessions_Chip_put (m : Chip) (f : Fld) (v : Nat) (h0 : P m) : P (Chip.put m f v) := K _ _ h0 rfl

theorem fr_trustsessions_Chip_markFresh (a i : Nat) (m : Chip) (h0 : P m) : P (Chip.markFresh a i m) := K _ _ h0 rfl

theorem fr_trustsessions_Chip_setFlag (m : Chip) (f : Fld) (h0 : P m) : P (Chip.setFlag m f) := K _ _ h0 rfl

theorem fr_trustsessions_Chip_bumpBy (m : Chip) (a n : Nat) (h0 : P m) : P (Chip.bumpBy m a n) := K _ _ h0 rfl

theorem fr_trustsessions_Chip_bump (m : Chip) (a : Nat) (h0 : P m) : P (Chip.bump m a) := K _ _ h0 rfl

theorem fr_trustsessions_Chip_wr64 (m : Chip) (lo hi : Nat) (v : Nat) (h0 : P m) : P (Chip.wr64 m lo hi v) := K _ _ h0 rfl

theorem fr_trustsessions_Chip_draw (m : Chip) (h0 : P m) : P (Chip.draw m).2 := K _ _ h0 rfl

theorem fr_trustsessions_Chip_setSrc (m : Chip) (h i : Nat) (e : SrcState) (h0 : P m) : P (Chip.setSrc m h i e) := K _ _ h0 rfl

theorem fr_trustsessions_Chip_deassert (c : Src) (m : Chip) (h0 : P m) : P (Chip.deassert c m) := K _ _ h0 rfl

theorem fr_trustsessions_Chip_onTime (f : TimeState → TimeState) (m : Chip) (h0 : P m) : P (Chip.onTime f m) := K _ _ h0 rfl

theorem fr_trustsessions_Chip_setRef (i : Nat) (r : RefState) (m : Chip) (h0 : P m) : P (Chip.setRef i r m) := K _ _ h0 rfl

theorem fr_trustsessions_Chip_putValid (i : Nat) (v : Bool) (m : Chip) (h0 : P m) : P (Chip.putValid i v m) := K _ _ h0 rfl

theorem fr_trustsessions_Chip_putQual (i : Nat) (v : Bool) (m : Chip) (h0 : P m) : P (Chip.putQual i v m) := K _ _ h0 rfl

theorem fr_trustsessions_Chip_holdInc (m : Chip) (h0 : P m) : P (Chip.holdInc m).2 := by
  unfold Chip.holdInc
  try dsimp only
  repeat'
    first
      | with_reducible
          first
            | assumption | apply fr_trustsessions_Chip_draw K | apply keep_foldl (P := P) | apply keep_foldl2 (P := P)
            | apply keep_ite (P := P)
      | (intro _) | dsimp only | split | with_reducible refine fr_trustsessions_lit K _ ?_ rfl

theorem fr_trustsessions_Chip_putInc0 (v : Nat) (m : Chip) (h0 : P m) : P (Chip.putInc0 v m) := K _ _ h0 rfl

theorem fr_trustsessions_Chip_enterHold (m : Chip) (h0 : P m) : P (Chip.enterHold m) := by
  unfold Chip.enterHold
  try dsimp only
  repeat'
    first
      | with_reducible
          first
            | assumption | apply fr_trustsessions_Chip_put K | apply fr_trustsessions_Chip_bump K | apply fr_trustsessions_Chip_onTime K
            | apply fr_trustsessions_Chip_holdInc K | apply fr_trustsessions_Chip_putInc0 K | apply keep_ite (P := P)
      | (intro _) | dsimp only | split | with_reducible refine fr_trustsessions_lit K _ ?_ rfl

theorem fr_trustsessions_Chip_leaveHold (m : Chip) (h0 : P m) : P (Chip.leaveHold m) := K _ _ h0 rfl

theorem fr_trustsessions_Chip_noteQual (m : Chip) (h0 : P m) : P (Chip.noteQual m) := by
  unfold Chip.noteQual
  try dsimp only
  repeat'
    first
      | with_reducible
          first
            | assumption | apply fr_trustsessions_Chip_deassert K | apply fr_trustsessions_Chip_onTime K | apply keep_ite (P := P)
      | (intro _) | dsimp only | split | with_reducible refine fr_trustsessions_lit K _ ?_ rfl

theorem fr_trustsessions_Chip_refRefresh (i : Nat) (m : Chip) (h0 : P m) : P (Chip.refRefresh i m) := by
  unfold Chip.refRefresh
  try dsimp only
  repeat'
    first
      | with_reducible
          first
            | assumption | apply fr_trustsessions_Chip_setRef K | apply fr_trustsessions_Chip_putValid K
            | apply fr_trustsessions_Chip_putQual K | apply keep_ite (P := P)
      | dsimp only | split | with_reducible refine fr_trustsessions_lit K _ ?_ rfl

theorem fr_trustsessions_Chip_leaveRef (c : Nat) (m : Chip) (h0 : P m) : P (Chip.leaveRef c m) := by
  unfold Chip.leaveRef
  try dsimp only
  repeat'
    first
      | with_reducible
          first
            | assumption | apply fr_trustsessions_Chip_setRef K | apply fr_trustsessions_Chip_putQual K | apply keep_ite (P := P)
      | dsimp only | split | with_reducible refine fr_trustsessions_lit K _ ?_ rfl

theorem fr_trustsessions_Chip_commitRef (m : Chip) (h0 : P m) : P (Chip.commitRef m) := by
  unfold Chip.commitRef
  try dsimp only
  repeat'
    first
      | with_reducible
          first
            | assumption | apply fr_trustsessions_Chip_put K | apply fr_trustsessions_Chip_setFlag K
            | apply fr_trustsessions_Chip_bump K | apply fr_trustsessions_Chip_leaveHold K | apply fr_trustsessions_Chip_noteQual K
            | apply fr_trustsessions_Chip_refRefresh K | apply fr_trustsessions_Chip_leaveRef K | apply keep_forAll (P := P)
            | apply keep_ite (P := P)
      | (intro _) | dsimp only | split | with_reducible refine fr_trustsessions_lit K _ ?_ rfl

theorem fr_trustsessions_Chip_refEval (m : Chip) (h0 : P m) : P (Chip.refEval m) := by
  unfold Chip.refEval
  try dsimp only
  repeat'
    first
      | with_reducible
          first
            | assumption | apply fr_trustsessions_Chip_put K | apply fr_trustsessions_Chip_enterHold K
            | apply fr_trustsessions_Chip_noteQual K | apply fr_trustsessions_Chip_commitRef K | apply keep_ite (P := P)
      | dsimp only | split | with_reducible refine fr_trustsessions_lit K _ ?_ rfl

theorem fr_trustsessions_Chip_refsUpdate (m : Chip) (h0 : P m) : P (Chip.refsUpdate m) := by
  unfold Chip.refsUpdate
  try dsimp only
  repeat'
    first
      | with_reducible
          first
            | assumption | apply fr_trustsessions_Chip_refRefresh K | apply fr_trustsessions_Chip_refEval K | apply keep_forAll (P := P)
      | (intro _) | dsimp only | split | with_reducible refine fr_trustsessions_lit K _ ?_ rfl

end

theorem eq_trustsessions_Chip_refsUpdate (m : Chip) : (Chip.refsUpdate m).trust.sessions = m.trust.sessions :=
  fr_trustsessions_Chip_refsUpdate (P := fun z => z.trust.sessions = m.trust.sessions) (fun _ _ h e => e.trans h) m rfl

end Sys2Proof.Laws
end

