-- ==== Sys2Proof/Laws/Completion/Housekeeping.lean ====
section
/-!
SUPPORT. Sys2Proof/Laws/Completion/Housekeeping.lean: housekeeping and the sessions that a link takes down.
What an effect leaves, said once for the statements that say where a command completes.
-/
namespace Sys2Proof.Laws
open Sys2Proof.Machine

theorem thermal_hk (dt : Nat) (sill ridge : List Int) (hbm : List (Int × Bool)) (m0 m x : Chip) (hm : m = elapse dt m0)
    (hx : x = forAll (ridge.take 16).zipIdx (fun p m => m.sensorRead (8 + p.2) p.1) (forAll (sill.take 8).zipIdx (fun p m =>
        m.sensorRead p.2 p.1) m)) :
    (thermalSample dt sill ridge hbm m0).hk.hottest = (hottestOf ((hottestOf (x.validTemps 0 8)).toList ++ (hottestOf (x.validTemps 8
        16)).toList ++ hbm.map (·.1))).getD x.hk.hottest ∧
    (thermalSample dt sill ridge hbm m0).hk.sensors = x.hk.sensors := by
  unfold thermalSample; dsimp only; rw [← hm, ← hx]
  rw [eq_hk_Chip_setDuties]
  generalize hg : (hottestOf ((hottestOf (x.validTemps 0 8)).toList ++ (hottestOf (x.validTemps 8 16)).toList ++ hbm.map (·.1))) = g
  have key : ∀ z : Chip, z.hk = x.hk → (z.onHk fun h => { h with hottest := g.getD h.hottest }).hk.hottest = g.getD x.hk.hottest ∧
      (z.onHk fun h => { h with hottest := g.getD h.hottest }).hk.sensors = x.hk.sensors := fun z hz => by
    unfold Chip.onHk; dsimp only; rw [hz]; exact ⟨rfl, rfl⟩
  apply key
  have e3 : ∀ (o : Option Int) (f : Fld) (a b c : Src) (z : Chip),
      (match o with | some t => (z.put f (unsignedOf 8 t)).dieSources a b c t | none => z).hk = z.hk := fun o f a b c z => by
    cases o
    · rfl
    · exact (sensor_hk ..).trans (put_hk ..)
  split
  · exact (e3 ..).trans (e3 ..)
  · split <;> (simp only [put_hk]; exact (e3 ..).trans (e3 ..))

theorem mean_hk (a b : Nat) (m : Chip) : (m.shownMean a b).2.hk = m.hk := by unfold Chip.shownMean; split <;> rfl

theorem power_hk (dt mv ma : Nat) (m0 m : Chip) (hm : m = elapse dt m0) : (powerSample dt mv ma m0).hk.energy = m.hk.energy + mv * ma :=
    by
  unfold powerSample; dsimp only; rw [← hm]
  split
  · rfl
  · generalize h1 : Chip.shownMean _ 100 _ = r1
    obtain ⟨x, m3⟩ := r1; dsimp only
    generalize h2 : Chip.shownMean _ 100 _ = r2
    obtain ⟨y, m4⟩ := r2; dsimp only
    generalize h3 : Chip.shownMean _ 1000000 _ = r3
    obtain ⟨w, m5⟩ := r3; dsimp only
    have k1 := congrArg (fun r : Nat × Chip => r.2.hk) h1
    have k2 := congrArg (fun r : Nat × Chip => r.2.hk) h2
    have k3 := congrArg (fun r : Nat × Chip => r.2.hk) h3
    dsimp only at k1 k2 k3
    rw [mean_hk] at k1 k2 k3
    have k : m5.hk.energy = m.hk.energy + mv * ma := by rw [← k3, ← k1, mean_hk]; rfl
    rw [← k]; clear k1 k2 k3 h1 h2 h3 k
    have e4 : ∀ z : Chip, z.hk = m5.hk → ∀ l : List Nat, (if 2600000000 < m.hk.pSum + mv * ma then (z.setFlag F.HK_STAT_pwr_high).log
        "power" l else z).hk.energy = m5.hk.energy := fun z hz l => by
      split
      · rw [eq_hk_Chip_log, setFlag_hk, hz]
      · rw [hz]
    apply e4
    rw [eq_hk_Chip_follow, put_hk, put_hk, put_hk]

theorem fan_of {x y : Chip} (h : x.hk = y.hk) (f : Nat) : x.fan f = y.fan f := by unfold Chip.fan; rw [h]

theorem fan_set (m : Chip) (f : Nat) (v : FanState) (h : v ≠ {}) : (m.setFan f v).fan f = v :=
    tabGet_set_ne ({} : FanState) m.hk.fans f v h

theorem restart_fan (f k : Nat) (m : Chip) (h : 0 < m.now) : (((((m.put (F.HK_FAN_restarts f) k).bump R.HK_CNT_FAN_RESTART).startFan
    f).setDuties).fan f).startAt = m.now := by
  rw [fan_of (eq_hk_Chip_setDuties ..)]
  unfold Chip.startFan
  generalize hy : (m.put (F.HK_FAN_restarts f) k).bump R.HK_CNT_FAN_RESTART = y
  have ey : y.now = m.now := by rw [← hy]; rfl
  have e := fan_set y f { y.fan f with startAt := y.now } (by intro e; have := congrArg (·.startAt) e; simp at this; omega)
  have e2 : (((y.setFan f { y.fan f with startAt := y.now }).put (F.HK_FAN_state f) 1).put (F.HK_FAN_duty f) 100).fan f =
      (y.setFan f { y.fan f with startAt := y.now }).fan f := fan_of (by rw [put_hk, put_hk]) f
  rw [e2, e]; exact ey

theorem off_fan (f : Nat) (m : Chip) (h : 0 < m.now) : ((((m.fanOff f 4).raise SrcName.fan).setDuties).fan f).offAt = m.now := by
  rw [fan_of ((eq_hk_Chip_setDuties ..).trans (eq_hk_Chip_raise ..))]
  have e := fan_set m f { m.fan f with offAt := m.now } (by intro e; have := congrArg (·.offAt) e; simp at this; omega)
  have e2 : (m.fanOff f 4).fan f = (m.setFan f { m.fan f with offAt := m.now }).fan f := by
    unfold Chip.fanOff; dsimp only; rw [if_neg (by simp)]; exact fan_of (by rw [put_hk, put_hk, put_hk]) f
  rw [e2, e]

theorem bus_of {x y : Chip} (h : x.hk = y.hk) (c : Nat) : x.bus c = y.bus c := by unfold Chip.bus; rw [h]

theorem bus_set (m : Chip) (c : Nat) (v : I2cState) (h : v ≠ {}) : (m.setBus c v).bus c = v :=
    tabGet_set_ne ({} : I2cState) m.hk.buses c v h

theorem retry_bus (c : Nat) (m x : Chip) (h : x.now = m.now) : (((x.setBus c { x.bus c with retryAt := x.now + 1000000000 }).assert
    SrcName.i2cBusStuck).bus c).retryAt = m.now + 1000000000 := by
  rw [bus_of (show _ = (x.setBus c { x.bus c with retryAt := x.now + 1000000000 }).hk from eq_hk_Chip_assert ..),
      bus_set x c _ (by intro e; have := congrArg (·.retryAt) e; simp at this)]
  dsimp only; rw [h]

theorem smbus_out (c : Nat) (j : I2cJob) (m : Chip) (h : (m.bus c).queue = []) (h1 : 0 < (m.bus c).since) :
    (((((m.setBus c { m.bus c with cur := none }).bump R.HK_CNT_I2C_ERR).emit (.send "i2c" c "error" [j.dev,
        b2n j.write])).i2cRun c ((m.bus c).queue.length + 1))).out = m.out ++ [.send "i2c" c "error" [j.dev, b2n j.write]] := by
  rw [h]
  unfold Chip.i2cRun; dsimp only
  have e : (((m.setBus c { m.bus c with cur := none }).bump R.HK_CNT_I2C_ERR).emit (.send "i2c" c "error" [j.dev, b2n j.write])).bus c =
      { m.bus c with cur := none } :=
    (bus_of (y := m.setBus c { m.bus c with cur := none }) (by rw [emit_hk, bump_hk]) c).trans (bus_set m c _
        (by intro e; have := congrArg (·.since) e; simp at this; omega))
  rw [e]; dsimp only; rw [h]; dsimp only
  rw [put_out]; rfl

theorem closed_sessions (l : List Nat) : ∀ (x : Chip) (v : Session), v ∈ (forAll l (fun i m => m.closeSession i) x).trust.sessions →
    v ∈ x.trust.sessions ∧ v.id ∉ l := by
  unfold forAll
  induction l with
  | nil => intro x v h; exact ⟨h, by simp⟩
  | cons a t ih =>
    intro x v h
    obtain ⟨h1, h2⟩ := ih _ v h
    have h3 : v ∈ x.trust.sessions.filter fun s => s.id != a := h1
    rw [List.mem_filter] at h3
    exact ⟨h3.1, by simp only [List.mem_cons, not_or]; exact ⟨by simpa using h3.2, h2⟩⟩

theorem linkDown_sessions (dt p : Nat) (m0 m : Chip) (hm : m = elapse dt m0) (h : m.get (F.ETH_STAT_state p) =
    1) : ∀ v ∈ (ethLinkDown dt p m0).trust.sessions, v ∈ m.trust.sessions ∧ v.port ≠ p := by
  unfold ethLinkDown; dsimp only; rw [← hm, if_neg (by simp [h])]
  intro v hv
  rw [eq_trustsessions_Chip_refsUpdate] at hv
  obtain ⟨h1, h2⟩ := closed_sessions _ _ v hv
  have h3 : v ∈ m.trust.sessions := h1
  refine ⟨h3, fun hp => h2 ?_⟩
  exact List.mem_map.2 ⟨v, List.mem_filter.2 ⟨h1, by simp [hp]⟩, rfl⟩

end Sys2Proof.Laws
end

