-- ==== Sys2Proof/Laws/Frames/Trust.lean ====
section
/-!
SUPPORT. Sys2Proof/Laws/Frames/Trust.lean: the operations that leave the state of trust alone, a lemma for each. `fr_…` carries a property that
depends on nothing else across the operation; `eq_…` says that it reads as before.
-/
namespace Sys2Proof.Laws
open Sys2Proof.Machine

section
variable {P : Chip → Prop} (K : ∀ a b : Chip, P a → b.trust = a.trust → P b)
include K

theorem fr_trust_lit (m : Chip) {regs time encs fire pegs fio sup boot bays engs mem sramValid sramBad stick wit cams pocs pipes
    rowPipes replays screens pp tenon purlin latches fresh heads eth subs trust text hk nvLog out free} (h : P m) (e0 : trust =
        m.trust) : P (Chip.mk regs time encs fire pegs fio sup boot bays engs mem sramValid sramBad stick wit cams pocs pipes rowPipes
            replays screens pp tenon purlin latches fresh heads eth subs trust text hk nvLog out free) := K _ _ h e0

theorem fr_trust_Chip_wr (m : Chip) (a : Nat) (v : Word) (h0 : P m) : P (Chip.wr m a v) := K _ _ h0 rfl

theorem fr_trust_Chip_put (m : Chip) (f : Fld) (v : Nat) (h0 : P m) : P (Chip.put m f v) := K _ _ h0 rfl

theorem fr_trust_Chip_markFresh (a i : Nat) (m : Chip) (h0 : P m) : P (Chip.markFresh a i m) := K _ _ h0 rfl

theorem fr_trust_Chip_setFlag (m : Chip) (f : Fld) (h0 : P m) : P (Chip.setFlag m f) := K _ _ h0 rfl

theorem fr_trust_Chip_bumpBy (m : Chip) (a n : Nat) (h0 : P m) : P (Chip.bumpBy m a n) := K _ _ h0 rfl

theorem fr_trust_Chip_bump (m : Chip) (a : Nat) (h0 : P m) : P (Chip.bump m a) := K _ _ h0 rfl

theorem fr_trust_Chip_emit (m : Chip) (e : Emit) (h0 : P m) : P (Chip.emit m e) := K _ _ h0 rfl

theorem fr_trust_Chip_pinsFall (m : Chip) (h0 : P m) : P (Chip.pinsFall m) := by
  unfold Chip.pinsFall
  try dsimp only
  repeat' (first | with_reducible assumption | (intro _) | with_reducible apply fr_trust_Chip_emit K
                 | with_reducible apply keep_forAll (P := P) | with_reducible apply keep_ite (P := P)
                 | with_reducible apply keep_foldl (P := P) | with_reducible apply keep_foldl2 (P := P) | dsimp only | split
                 | with_reducible refine fr_trust_lit K _ ?_ rfl)

theorem fr_trust_Chip_noteRestart (was : Bool) (m : Chip) (h0 : P m) : P (Chip.noteRestart was m) := by
  unfold Chip.noteRestart
  try dsimp only
  repeat'
    first
      | with_reducible
          first
            | assumption | apply fr_trust_Chip_setFlag K | apply fr_trust_Chip_bump K | apply keep_ite (P := P)
      | dsimp only | split | with_reducible refine fr_trust_lit K _ ?_ rfl

end

theorem eq_trust_Chip_put (m : Chip) (f : Fld) (v : Nat) : (Chip.put m f v).trust = m.trust :=
  fr_trust_Chip_put (P := fun z => z.trust = m.trust) (fun _ _ h e => e.trans h) m f v rfl

theorem eq_trust_Chip_bump (m : Chip) (a : Nat) : (Chip.bump m a).trust = m.trust :=
  fr_trust_Chip_bump (P := fun z => z.trust = m.trust) (fun _ _ h e => e.trans h) m a rfl

theorem eq_trust_Chip_pinsFall (m : Chip) : (Chip.pinsFall m).trust = m.trust :=
  fr_trust_Chip_pinsFall (P := fun z => z.trust = m.trust) (fun _ _ h e => e.trans h) m rfl

theorem eq_trust_Chip_noteRestart (was : Bool) (m : Chip) : (Chip.noteRestart was m).trust = m.trust :=
  fr_trust_Chip_noteRestart (P := fun z => z.trust = m.trust) (fun _ _ h e => e.trans h) was m rfl

end Sys2Proof.Laws
end

