-- ==== Sys2Proof/Laws/Completion/Reset.lean ====
section
/-!
SUPPORT. Sys2Proof/Laws/Completion/Reset.lean: reset, boot and the references.
What an effect leaves, said once for the statements that say where a command completes.
-/
namespace Sys2Proof.Laws
open Sys2Proof.Machine

theorem replaceKeys_mem (m : Chip) : m.replaceKeys.mem = m.clearCm.mem := by
  unfold Chip.replaceKeys; dsimp only; rw [forAll_frame (fun z : Chip => z.mem)]
  · rfl
  · intros; rfl

theorem readReg_tenon (a : Nat) (m : Chip) : (m.readReg a).2.tenon = m.tenon :=
  fr_tenon_Chip_readReg (P := fun z => z.tenon = m.tenon) (fun _ _ h e => e.trans h) a m rfl

theorem setRef_ref_ok (m : Chip) (i : Nat) (r : RefState) (h : i < m.time.refs.length) : ((m.setRef i r).ref i).ok = r.ok := by
  simp [Chip.setRef, Chip.ref, Chip.onTime, List.getD_eq_getElem?_getD, h]

theorem setRef_oks (m : Chip) (i j : Nat) (r : RefState) (h : r.ok = (m.ref i).ok) : ((m.setRef i r).ref j).ok = (m.ref j).ok := by
  simp only [Chip.setRef, Chip.ref, Chip.onTime, List.getD_eq_getElem?_getD, List.getElem?_set] at h ⊢
  split
  · rename_i e; subst e
    split
    · simpa using h
    · rename_i hl; rw [List.getElem?_eq_none (by simpa using hl)]
  · rfl

theorem ref_of {x y : Chip} (h : x.time.refs = y.time.refs) (j : Nat) : x.ref j = y.ref j := by unfold Chip.ref; rw [h]

theorem setRef_oks' (x m : Chip) (i j : Nat) (r : RefState) (hx : x.time.refs = m.time.refs) (h : r.ok =
    (m.ref i).ok) : ((x.setRef i r).ref j).ok = (m.ref j).ok := by
  rw [setRef_oks x i j r (by rw [h, ref_of hx]), ref_of hx]

theorem putValid_refs (i v) (m : Chip) : (m.putValid i v).time.refs = m.time.refs := rfl

theorem putQual_refs (i v) (m : Chip) : (m.putQual i v).time.refs = m.time.refs := rfl

theorem refRefresh_ok (i j : Nat) (m : Chip) : ((m.refRefresh i).ref j).ok = (m.ref j).ok := by
  unfold Chip.refRefresh; dsimp only
  split
  · rfl
  · split
    · split
      · rw [ref_of (putQual_refs _ _ _)]; exact setRef_oks' _ m i j _ (putValid_refs _ _ _) rfl
      · exact setRef_oks' _ m i j _ (putValid_refs _ _ _) rfl
    · rw [ref_of (putQual_refs _ _ _)]; exact setRef_oks' _ m i j _ (putValid_refs _ _ _) rfl

theorem noteQual_refs (m : Chip) : m.noteQual.time.refs = m.time.refs := by 
  unfold Chip.noteQual
  split
  · rfl
  · split <;> rfl

theorem enterHold_refs (m : Chip) : m.enterHold.time.refs = m.time.refs := by
  unfold Chip.enterHold Chip.holdInc; dsimp only; split <;> try rfl
  split <;> try rfl
  split <;> rfl

theorem refs_ok (m : Chip) (j : Nat) : ((forAll (upTo 3) (fun i m => m.refRefresh i) m).ref j).ok = (m.ref j).ok :=
  forAll_keeps (fun z : Chip => (z.ref j).ok) _ _ _ (fun i x => refRefresh_ok i j x)

theorem leaveHold_refs (m : Chip) : m.leaveHold.time.refs = m.time.refs := rfl

theorem leaveRef_ok (c j : Nat) (m : Chip) : ((m.leaveRef c).ref j).ok = (m.ref j).ok := by
  unfold Chip.leaveRef; split
  · dsimp only; exact setRef_oks' _ m (c - 1) j _ (putQual_refs _ _ _) rfl
  · rfl

theorem commitRef_ok (m : Chip) (j : Nat) : (m.commitRef.ref j).ok = (m.ref j).ok := by
  unfold Chip.commitRef; dsimp only
  split
  · rfl
  split
  · rw [ref_of (leaveHold_refs _)]; rfl
  split
  · rw [ref_of (noteQual_refs _), refs_ok]; exact leaveRef_ok _ j _
  · rw [ref_of (leaveHold_refs _), ref_of (noteQual_refs _), refs_ok]; exact leaveRef_ok _ j _

theorem refEval_ok (m : Chip) (j : Nat) : (m.refEval.ref j).ok = (m.ref j).ok := by
  unfold Chip.refEval; dsimp only
  split
  · split
    · exact congrArg (·.ok) (ref_of (noteQual_refs m) j)
    · exact congrArg (·.ok) (ref_of (noteQual_refs m) j)
  · have e : ∀ x y : Chip, x.time.refs = y.time.refs → (x.enterHold.ref j).ok = (y.ref j).ok := fun x y h => by
      rw [ref_of (enterHold_refs x), ref_of h]
    split
    · exact (e _ _ rfl).trans (congrArg (·.ok) (ref_of (noteQual_refs m) j))
    · rw [commitRef_ok]; exact (e _ _ rfl).trans (congrArg (·.ok) (ref_of (noteQual_refs m) j))

theorem refsUpdate_ok (m : Chip) (j : Nat) : (m.refsUpdate.ref j).ok = (m.ref j).ok := by
  unfold Chip.refsUpdate; rw [refEval_ok, refs_ok]

theorem blank_boot (m : Chip) : m.blank.boot =
    { pwrGood := m.boot.pwrGood, mainInput := m.boot.mainInput, promoted := if m.pinsFall.get F.RP_STRAP_boot_src != 2 then m.boot.promoted else none } := by
  unfold Chip.blank; dsimp only; rw [eq_boot_Chip_pinsFall]

theorem blank_trust (m : Chip) : m.blank.trust.fuses = m.trust.fuses := by
  unfold Chip.blank; dsimp only; rw [eq_trust_Chip_pinsFall]

theorem powerOn_boot (m : Chip) (b c : Nat) (h : m.boot.mainInput = true) :
    ((m.onBoot fun b => { b with pwrGood := true }).powerOnReset b c).boot.step = 0 ∧ ((m.onBoot fun b =>
        { b with pwrGood := true }).powerOnReset b c).boot.optionDone = false ∧
    ((m.onBoot fun b => { b with pwrGood := true }).powerOnReset b c).trust.fuses = m.trust.fuses ∧
    ((m.onBoot fun b => { b with pwrGood := true }).powerOnReset b c).boot.pwrGood = true ∧ ((m.onBoot fun b =>
        { b with pwrGood := true }).powerOnReset b c).boot.mainInput = true := by
  have e : ((m.onBoot fun b => { b with pwrGood := true }).powerOnReset b c).boot = (m.onBoot fun b =>
      { b with pwrGood := true }).blank.boot := by
    unfold Chip.powerOnReset; rw [eq_boot_Chip_showLid, eq_boot_Chip_sampleStraps]
  have f : ((m.onBoot fun b => { b with pwrGood := true }).powerOnReset b c).trust = (m.onBoot fun b =>
      { b with pwrGood := true }).blank.trust := rfl
  rw [e, f, blank_boot, blank_trust]; exact ⟨rfl, rfl, rfl, rfl, h⟩

theorem cold_mem (m : Chip) (c : Nat) : (m.coldReset c).mem = [] := by
  unfold Chip.coldReset; dsimp only
  rw [eq_mem_Chip_log, eq_mem_Chip_noteRestart]
  rw [eq_mem_Chip_bump, eq_mem_Chip_put, eq_mem_Chip_showLid, eq_mem_Chip_put, eq_mem_Chip_put]
  dsimp only
  rw [forAll_frame (fun z : Chip => z.mem), forAll_frame (fun z : Chip => z.mem)]
  · rfl
  · intros; rfl
  · intros; rfl

theorem cold_boot (m : Chip) (c : Nat) : (m.coldReset c).boot = { m.blank.boot with startAt := m.now, inReset := m.boot.inReset } := by
  unfold Chip.coldReset; dsimp only
  rw [eq_boot_Chip_log, eq_boot_Chip_noteRestart]
  rw [eq_boot_Chip_bump, eq_boot_Chip_put, eq_boot_Chip_showLid, eq_boot_Chip_put, eq_boot_Chip_put]
  dsimp only
  rw [forAll_frame (fun z : Chip => z.boot), forAll_frame (fun z : Chip => z.boot)]
  · intros; rfl
  · intros; rfl

theorem cold_step (m : Chip) (c : Nat) : (m.coldReset c).boot.step = 0 := by rw [cold_boot, blank_boot]

theorem cold_option (m : Chip) (c : Nat) : (m.coldReset c).boot.optionDone = false := by rw [cold_boot, blank_boot]

theorem cold_start (m : Chip) (c : Nat) : (m.coldReset c).boot.startAt = m.now := by rw [cold_boot]

theorem cold_fuses (m : Chip) (c : Nat) : (m.coldReset c).trust.fuses = m.trust.fuses := by
  unfold Chip.coldReset; dsimp only
  have hl : ∀ (x : Chip) w l, (x.log w l).trust = x.trust := fun x w l => log_keeps (P := fun z => z.trust = x.trust) _ _ _ rfl fun _ =>
      rfl
  rw [hl, eq_trust_Chip_noteRestart]
  rw [eq_trust_Chip_bump, eq_trust_Chip_put, show ∀ x : Chip, x.showLid.trust = x.trust from fun _ => rfl, eq_trust_Chip_put,
      eq_trust_Chip_put]
  dsimp only
  rw [forAll_frame (fun z : Chip => z.trust), forAll_frame (fun z : Chip => z.trust), blank_trust]
  · intros; rfl
  · intros; rfl

theorem warm_boot (m : Chip) (c : Nat) (h1 : m.boot.inReset = false) (h2 : m.boot.optionDone = true) (h3 : m.boot.memTrained = true) :
    (m.warmReset c).boot.step = 3 ∧ (m.warmReset c).boot.warm = true ∧ (m.warmReset c).boot.failed = false ∧
        (m.warmReset c).boot.startAt = m.now := by
  unfold Chip.warmReset; dsimp only
  rw [if_neg (by simp [h1]), if_neg (by simp [h2]), if_neg (by simp [h3]), eq_boot_Chip_refreshOutputs]
  exact ⟨rfl, rfl, rfl, rfl⟩

theorem bootStep2 (m : Chip) (img : Image) (tr : MemTrain) (h3 : m.boot.failed = false) (_h4 : m.boot.step =
    1) (h5 : 2 ≤ m.get F.RP_STRAP_boot_src) :
    (m.bootStep 2 img tr).boot.step = 2 ∧ (m.bootStep 2 img tr).boot.failed = false ∧ (m.bootStep 2 img tr).sup.wdFrom = m.now := by
  have hb : m.bootFirmware.boot = m.boot ∧ m.bootFirmware.sup.wdFrom = m.now := by
    unfold Chip.bootFirmware; dsimp only; rw [if_neg (by omega)]
    refine ⟨?_, by rw [put_sup]⟩
    rw [eq_boot_Chip_put]
    dsimp only
    rw [eq_boot_Chip_setPhase, eq_boot_Chip_put]
    generalize [32, 33, 34, 35, 58, 59] = l
    rw [forAll_keeps (fun z : Chip => z.boot) _ _ _ (fun _ _ => eq_boot_Chip_setDomain ..)]
  have e : m.bootStep 2 img tr = m.bootFirmware.onBoot fun b => { b with step := 2 } := by
    simp [Chip.bootStep, hb.1, h3]
  rw [e]
  refine ⟨rfl, ?_, hb.2⟩
  show m.bootFirmware.boot.failed = false
  rw [hb.1, h3]

theorem beginBays_spec (m : Chip) : m.beginBays.bays.running = true ∧ m.beginBays.bay = m.tb3 / m.period ∧ m.beginBays.boot.step = 9 ∧
    m.beginBays.boot.everBays = true := by
  unfold Chip.beginBays Chip.bay; dsimp only
  refine ⟨?_, ?_, ?_, ?_⟩
  · rw [(eq_baysMarks_Chip_setPhase ..).2.1, (eq_baysMarks_Chip_encBayLatch ..).2.1]
    show (forAll _ _ _).bays.running = true
    rw [forAll_keeps (fun z : Chip => z.bays.running) _ _ _ (fun _ _ => (eq_baysMarks_Chip_jobBoundary ..).2.1)]
  · rw [(eq_baysMarks_Chip_setPhase ..).1, (eq_baysMarks_Chip_encBayLatch ..).1]
    show (forAll _ _ _).bays.bay = _
    rw [forAll_keeps (fun z : Chip => z.bays.bay) _ _ _ (fun _ _ => (eq_baysMarks_Chip_jobBoundary ..).1)]
  · rw [eq_boot_Chip_setPhase, eq_boot_Chip_encBayLatch]
    show (forAll _ _ _).boot.step = _
    rw [forAll_keeps (fun z : Chip => z.boot) _ _ _ (fun _ _ => eq_boot_Chip_jobBoundary ..)]
  · rw [eq_boot_Chip_setPhase, eq_boot_Chip_encBayLatch]
    show (forAll _ _ _).boot.everBays = _
    rw [forAll_keeps (fun z : Chip => z.boot) _ _ _ (fun _ _ => eq_boot_Chip_jobBoundary ..)]

end Sys2Proof.Laws
end

