-- ==== Sys2Proof/Laws/Completion/Screening.lean ====
section
/-!
SUPPORT. Sys2Proof/Laws/Completion/Screening.lean: attention, detections and screening.
What an effect leaves, said once for the statements that say where a command completes.
-/
namespace Sys2Proof.Laws
open Sys2Proof.Machine

theorem attend_frame (c : CutEntry) (pl : CmdPlan) (m : Chip) (h3 : pl.errs = {}) (h : m.sramBad = []) {β : Type} (g : Chip → β)
    (hw : ∀ x a v, g (Chip.wr x a v) = g x) (hm : ∀ x a i, g (Chip.markFresh a i x) = g x) : g (attendWork c pl m).2 = g m := by
  have hset : ∀ x f, g (Chip.setFlag x f) = g x := fun x f => by unfold Chip.setFlag Chip.put; rw [hm, hw]
  have hif : ∀ x b f, g (Chip.setFlagIf x b f) = g x := fun x b f => by
    unfold Chip.setFlagIf; split
    · exact hset _ _
    · rfl
  have hb : ∀ x a n, g (Chip.bumpBy x a n) = g x := fun x a n => by unfold Chip.bumpBy; rw [hw]
  unfold attendWork
  dsimp only
  rw [h3, meetErrs_none _ _ _ h, forAll_keeps g _ _ _ (by intro a x; split; exact hset _ _; rfl), hb, hb, hb, hb, hb,
    forAll_keeps g _ _ _ (by intro a x; unfold Chip.attFlags; simp only [hif])]

theorem setFlagIf_other (x : Chip) (b : Bool) (f : Fld) : (Chip.setFlagIf x b f).pp = x.pp ∧ (Chip.setFlagIf x b f).mem = x.mem ∧
    (Chip.setFlagIf x b f).screens = x.screens ∧ (Chip.setFlagIf x b f).fire = x.fire := by
  unfold Chip.setFlagIf; split <;> exact ⟨rfl, rfl, rfl, rfl⟩

theorem detectStrip_spec (m : Chip) (d : DetDesc) (j : Nat) (k : ClosedStrip) (hs : m.carryStands j d.row k.strip = true) :
    (Chip.detectStrip d j k {} m).mem = m.mem ∧
    (Chip.detectStrip d j k {} m).pp.pending = m.pp.pending ++ (m.detectOut d j k {} true).groups := by
  unfold Chip.detectStrip
  simp only [hs, if_true]
  constructor
  · show (Chip.setFlagIf _ _ _).mem = _
    simp only [(setFlagIf_other _ _ _).2.1]; rfl
  · show (Chip.setFlagIf _ _ _).pp.pending ++ _ = _
    simp only [(setFlagIf_other _ _ _).1]; rfl

theorem detectOut_groups (m : Chip) (d : DetDesc) (j : Nat) (k : ClosedStrip) :
    (m.detectOut d j k {} true).groups.map (·.stream) = m.rowStreams d.row ∧
    ∀ g ∈ (m.detectOut d j k {} true).groups, g.job = j ∧ g.strip = k.strip ∧ g.row = d.row ∧ g.closeBay = k.closeBay ∧ g.kind = 0 := by
  unfold Chip.detectOut
  dsimp only
  constructor
  · rw [List.map_map]; exact List.map_id _
  · intro g hg
    rw [List.mem_map] at hg
    obtain ⟨s, -, rfl⟩ := hg
    exact ⟨rfl, rfl, rfl, rfl, rfl⟩

theorem toSubs_other (x : Chip) (q : StreamRec) : (Chip.toSubs x q).screens = x.screens ∧ (Chip.toSubs x q).fire = x.fire := by
  unfold Chip.toSubs
  exact ⟨forAll_keeps (fun z : Chip => z.screens) _ _ _ (fun _ _ => rfl), forAll_keeps (fun z : Chip => z.fire) _ _ _ (fun _ _ => rfl)⟩

theorem reserve_noPilot (closeBay : Nat) (p : ProvRec) (x : Chip) (h : x.fire.pilotOn.testBit p.row =
    false) : Chip.reserve closeBay p x = x := by
  unfold Chip.reserve
  rw [if_pos (by simp [h])]

theorem preview_all (closeBay r : Nat) (l : List ProvRec) : ∀ (x : Chip), (∀ p ∈ l, p.row = r) → x.fire.pilotOn.testBit r = false →
    (forAll l (fun p m => Chip.reserve closeBay p (Chip.previewRec m p)) x).screens = x.screens ∧
    (forAll l (fun p m => Chip.reserve closeBay p (Chip.previewRec m p)) x).fire = x.fire := by
  induction l with
  | nil => intro x _ _; exact ⟨rfl, rfl⟩
  | cons p t ih =>
    intro x hl hx
    have hp := hl p (List.mem_cons_self ..)
    have ho : (Chip.previewRec x p).screens = x.screens ∧ (Chip.previewRec x p).fire = x.fire := toSubs_other _ _
    have e := reserve_noPilot closeBay p (Chip.previewRec x p) (by rw [ho.2, hp]; exact hx)
    have ih' := ih (Chip.previewRec x p) (fun q hq => hl q (List.mem_cons_of_mem _ hq)) (by rw [ho.2]; exact hx)
    show (forAll t _ (Chip.reserve closeBay p (Chip.previewRec x p))).screens = _ ∧
        (forAll t _ (Chip.reserve closeBay p (Chip.previewRec x p))).fire = _
    rw [e, ih'.1, ih'.2]; exact ho

theorem screenOut_recs (m : Chip) (k : ClosedStrip) (cells : List ScoreCell) :
    (m.screenOut k cells).wins.length ≤ m.get (F.SCR_ROW_THR_roi_max k.row) ∧
    ∀ p ∈ (m.screenOut k cells).recs, p.strip = k.strip ∧ p.row = k.row := by
  unfold Chip.screenOut
  dsimp only
  refine ⟨List.length_take_le _ _, ?_⟩
  intro p hp
  rw [List.mem_map] at hp
  obtain ⟨x, -, rfl⟩ := hp
  exact ⟨rfl, rfl⟩

theorem countLater_other (k : ClosedStrip) (l : List Nat) (x : Chip) : (Chip.countLater k l x).fire.pilotOn = x.fire.pilotOn ∧
    (Chip.countLater k l x).fire.screened = x.fire.screened ∧ (Chip.countLater k l x).screens = x.screens := ⟨rfl, rfl, rfl⟩

theorem scr_of {x y : Chip} (h : x.screens = y.screens) (r : Nat) : x.scr r = y.scr r := by unfold Chip.scr; rw [h]

theorem setScr_scr (x : Chip) (r : Nat) (v : RowScreen) (h : v ≠ {}) : (x.setScr r v).scr r = v :=
  tabGet_set_ne ({} : RowScreen) x.screens r v h

theorem outs_ne {v : RowScreen} {l : List ScrOut} {o : ScrOut} (h : v.outs = l ++ [o]) : v ≠ {} := by
  intro e; have := congrArg (fun z => z.outs.length) e; simp [h] at this

theorem release_spec (m : Chip) (k : ClosedStrip) (cells : List ScoreCell) (h7 : m.fire.pilotOn.testBit k.row = false)
    (h8 : (m.screenOut k cells).comps ≤ 512) :
    ((m.releaseScreen k cells).scr k.row).outs = (m.scr k.row).outs ++
        [{ strip := k.strip, closeBay := k.closeBay, fell := false, wins := (m.screenOut k cells).wins }] ∧
    (m.releaseScreen k cells).fire.screened = m.fire.screened ++ (m.screenOut k cells).recs.map fun p => (k.closeBay, p) := by
  have hrec := (screenOut_recs m k cells).2
  unfold Chip.releaseScreen
  have h8' : ¬ 512 < (m.screenOut k cells).comps := by omega
  dsimp only
  rw [if_neg h8']
  generalize m.screenOut k cells = o at *
  generalize hv :
      ({ m.scr k.row with carry := o.carry, voids := o.voids, prevOk := true, prev := some (k.strip, k.closeBay), cells := (m.scr k.row).cells.filter fun q => q.1 != k.strip, outs := (m.scr k.row).outs ++ [{ strip := k.strip, closeBay := k.closeBay, fell := false, wins := o.wins }] } : RowScreen) = v
  have hvo : v.outs = (m.scr k.row).outs ++ [{ strip := k.strip, closeBay := k.closeBay, fell := false, wins := o.wins }] :=
      by rw [← hv]
  have hm1 := setScr_scr m k.row v (outs_ne hvo)
  have hf1 : (m.setScr k.row v).fire = m.fire := rfl
  generalize m.setScr k.row v = m1 at *
  have s2 : ((m1.setFlagIf (o.recs.any (·.uncovered)) (F.SCR_ROW_STAT_uncovered k.row)).setFlagIf o.forced (F.SCR_ROW_STAT_open_forced
      k.row)).screens = m1.screens ∧
      ((m1.setFlagIf (o.recs.any (·.uncovered)) (F.SCR_ROW_STAT_uncovered k.row)).setFlagIf o.forced (F.SCR_ROW_STAT_open_forced
          k.row)).fire = m1.fire := by
    have a := setFlagIf_other m1 (o.recs.any (·.uncovered)) (F.SCR_ROW_STAT_uncovered k.row)
    have b := setFlagIf_other (m1.setFlagIf (o.recs.any (·.uncovered)) (F.SCR_ROW_STAT_uncovered k.row)) o.forced
        (F.SCR_ROW_STAT_open_forced k.row)
    exact ⟨b.2.2.1.trans a.2.2.1, b.2.2.2.trans a.2.2.2⟩
  generalize (m1.setFlagIf (o.recs.any (·.uncovered)) (F.SCR_ROW_STAT_uncovered k.row)).setFlagIf o.forced (F.SCR_ROW_STAT_open_forced
      k.row) = m2 at *
  generalize R.SCR_CNT_STRIPS k.row :: (o.recs.filter (·.uncovered)).map (fun _ => R.SCR_CNT_UNCOVERED k.row) = l
  have c := countLater_other k l m2
  generalize m2.countLater k l = m3 at *
  have hs4 : (m3.onFire fun f => { f with screened := f.screened ++ o.recs.map fun p => (k.closeBay, p) }).screens = m1.screens :=
      c.2.2.trans s2.1
  have hp4 : (m3.onFire fun f => { f with screened := f.screened ++ o.recs.map fun p => (k.closeBay, p) }).fire.pilotOn =
      m.fire.pilotOn := by
    show m3.fire.pilotOn = _
    rw [c.1, s2.2, hf1]
  have hq4 : (m3.onFire fun f => { f with screened := f.screened ++ o.recs.map fun p => (k.closeBay, p) }).fire.screened =
      m.fire.screened ++ o.recs.map fun p => (k.closeBay, p) := by
    show m3.fire.screened ++ _ = _
    rw [c.2.1, s2.2, hf1]
  generalize m3.onFire (fun f => { f with screened := f.screened ++ o.recs.map fun p => (k.closeBay, p) }) = m4 at *
  have hp := preview_all k.closeBay k.row o.recs m4 (fun p hp => (hrec p hp).2) (by rw [hp4]; exact h7)
  exact ⟨by rw [scr_of (hp.1.trans hs4), hm1, hvo], by rw [hp.2, hq4]⟩

theorem screen_spec (n : Nat) (c : CutEntry) (row strip : Nat) (cells old : List ScoreCell) (layer : Option Nat) (m : Chip)
    (hb : m.sramBad = []) (h5 : m.screenable row strip (m.closeOf (.stud n) c) = true)
    (h6 : (m.scr row).cells.find? (fun q => q.1 == strip) = some (strip, old) ∨ ((m.scr row).cells.find? (fun q => q.1 == strip) =
        none ∧ old = [])) :
    (screenWork n c row strip cells layer {} m).2 = m.setScr row
        { m.scr row with cells := ((m.scr row).cells.filter fun q => q.1 != strip) ++ [(strip, old ++ cells)] } := by
  unfold screenWork
  dsimp only
  rw [meetErrs_none _ _ _ hb, if_pos h5]
  rcases h6 with h | ⟨h, rfl⟩ <;> rw [h] <;> rfl

theorem fallback_spec (m : Chip) (k : ClosedStrip) :
    ((m.takeFallback k []).scr k.row).outs = (m.scr k.row).outs ++
        [{ strip := k.strip, closeBay := k.closeBay, fell := true, wins := m.fallWins k.row }] ∧
    ((m.takeFallback k []).scr k.row).carry = [] := by
  unfold Chip.takeFallback
  have hsc : (m.setScr k.row
      { m.scr k.row with carry := [], voids := [], prevOk := false, prev := some (k.strip, k.closeBay), cells := (m.scr k.row).cells.filter (fun q => q.1 != k.strip), outs := (m.scr k.row).outs ++ [{ strip := k.strip, closeBay := k.closeBay, fell := true, wins := m.fallWins k.row }] }).scr k.row = _ :=
    tabGet_set_ne ({} : RowScreen) m.screens k.row _ (by intro e; have := congrArg (fun z => z.outs.length) e; simp at this)
  constructor
  · exact congrArg (·.outs) hsc
  · exact congrArg (·.carry) hsc

theorem started_mem {m : Chip} {e : Engine} {c : CutEntry} {work : Chip → Running × Chip} (hb : (m.eng e).bg = none) :
    (started m e c work).mem = (work m).2.mem := by
  unfold started; rw [rollBack_none hb, showEng_other]; rfl

theorem started_pp {m : Chip} {e : Engine} {c : CutEntry} {work : Chip → Running × Chip} (hb : (m.eng e).bg = none) :
    (started m e c work).pp = (work m).2.pp := by
  unfold started; rw [rollBack_none hb, showEng_other]; rfl

end Sys2Proof.Laws
end

