-- ==== Sys2Proof/Laws/Frames/Fiolevel.lean ====
section
/-!
SUPPORT. Sys2Proof/Laws/Frames/Fiolevel.lean: the operations that leave the levels of the pins alone, a lemma for each. `fr_…` carries a property that
depends on nothing else across the operation; `eq_…` says that it reads as before.
-/
namespace Sys2Proof.Laws
open Sys2Proof.Machine

section
variable {P : Chip → Prop} (K : ∀ a b : Chip, P a → b.fio.level = a.fio.level → P b)
include K

theorem fr_fiolevel_lit (m : Chip) {regs time encs fire pegs fio sup boot bays engs mem sramValid sramBad stick wit cams pocs pipes
    rowPipes replays screens pp tenon purlin latches fresh heads eth subs trust text hk nvLog out free} (h : P m) (e0 : fio.level =
        m.fio.level) : P (Chip.mk regs time encs fire pegs fio sup boot bays engs mem sramValid sramBad stick wit cams pocs pipes
            rowPipes replays screens pp tenon purlin latches fresh heads eth subs trust text hk nvLog out free) := K _ _ h e0

theorem fr_fiolevel_Chip_wr (m : Chip) (a : Nat) (v : Word) (h0 : P m) : P (Chip.wr m a v) := K _ _ h0 rfl

theorem fr_fiolevel_Chip_put (m : Chip) (f : Fld) (v : Nat) (h0 : P m) : P (Chip.put m f v) := K _ _ h0 rfl

theorem fr_fiolevel_Chip_markFresh (a i : Nat) (m : Chip) (h0 : P m) : P (Chip.markFresh a i m) := K _ _ h0 rfl

theorem fr_fiolevel_Chip_setFlag (m : Chip) (f : Fld) (h0 : P m) : P (Chip.setFlag m f) := K _ _ h0 rfl

theorem fr_fiolevel_Chip_bumpBy (m : Chip) (a n : Nat) (h0 : P m) : P (Chip.bumpBy m a n) := K _ _ h0 rfl

theorem fr_fiolevel_Chip_bump (m : Chip) (a : Nat) (h0 : P m) : P (Chip.bump m a) := K _ _ h0 rfl

theorem fr_fiolevel_Chip_bumpIf (m : Chip) (c : Bool) (a : Nat) (h0 : P m) : P (Chip.bumpIf m c a) := by
  unfold Chip.bumpIf
  try dsimp only
  repeat'
    first
      | with_reducible
          first
            | assumption | apply fr_fiolevel_Chip_bump K | apply keep_ite (P := P)
      | dsimp only | split | with_reducible refine fr_fiolevel_lit K _ ?_ rfl

theorem fr_fiolevel_Chip_draw (m : Chip) (h0 : P m) : P (Chip.draw m).2 := K _ _ h0 rfl

theorem fr_fiolevel_Chip_onFio (f : FioState → FioState) (m : Chip) (h0 : P m) (e : ∀ x, (f x).level = x.level) : P (Chip.onFio f m) :=
    K _ _ h0 (e _)

theorem fr_fiolevel_Chip_pushEdge (r : EvtRec) (m : Chip) (h0 : P m) : P (Chip.pushEdge r m) := by
  unfold Chip.pushEdge
  try dsimp only
  repeat'
    first
      | with_reducible
          first
            | assumption | apply fr_fiolevel_Chip_setFlag K | apply fr_fiolevel_Chip_bump K | apply keep_ite (P := P)
      | (intro _) | (with_reducible refine fr_fiolevel_Chip_onFio K _ _ ?_ ?_; rotate_left; exact fun _ => rfl) | dsimp only | split
      | with_reducible refine fr_fiolevel_lit K _ ?_ rfl

theorem fr_fiolevel_Chip_pushPair (r : PairRec) (m : Chip) (h0 : P m) : P (Chip.pushPair r m) := by
  unfold Chip.pushPair
  try dsimp only
  repeat'
    first
      | with_reducible
          first
            | assumption | apply fr_fiolevel_Chip_setFlag K | apply fr_fiolevel_Chip_bump K | apply fr_fiolevel_Chip_bumpIf K
            | apply keep_ite (P := P)
      | (intro _) | (with_reducible refine fr_fiolevel_Chip_onFio K _ _ ?_ ?_; rotate_left; exact fun _ => rfl) | dsimp only | split
      | with_reducible refine fr_fiolevel_lit K _ ?_ rfl

theorem fr_fiolevel_Chip_setPair (k : Nat) (v : Option Nat) (m : Chip) (h0 : P m) : P (Chip.setPair k v m) := K _ _ h0 rfl

theorem fr_fiolevel_Chip_pairStart (k stamp : Nat) (m : Chip) (h0 : P m) : P (Chip.pairStart k stamp m) := by
  unfold Chip.pairStart
  try dsimp only
  repeat'
    first
      | with_reducible
          first
            | assumption | apply fr_fiolevel_Chip_bumpIf K | apply fr_fiolevel_Chip_setPair K
      | dsimp only | split | with_reducible refine fr_fiolevel_lit K _ ?_ rfl

theorem fr_fiolevel_Chip_pairStop (k stamp : Nat) (m : Chip) (h0 : P m) : P (Chip.pairStop k stamp m) := by
  unfold Chip.pairStop
  try dsimp only
  repeat'
    first
      | with_reducible
          first
            | assumption | apply fr_fiolevel_Chip_draw K | apply fr_fiolevel_Chip_pushPair K | apply fr_fiolevel_Chip_setPair K
      | dsimp only | split | with_reducible refine fr_fiolevel_lit K _ ?_ rfl

theorem fr_fiolevel_Chip_pairEdge (ch : Nat) (rising : Bool) (stamp k : Nat) (m : Chip) (h0 : P m) : P (Chip.pairEdge ch rising stamp k
    m) := by
  unfold Chip.pairEdge
  try dsimp only
  repeat'
    first
      | with_reducible
          first
            | assumption | apply fr_fiolevel_Chip_pairStart K | apply fr_fiolevel_Chip_pairStop K | apply keep_ite (P := P)
      | dsimp only | split | with_reducible refine fr_fiolevel_lit K _ ?_ rfl

end

theorem eq_fiolevel_Chip_pushEdge (r : EvtRec) (m : Chip) : (Chip.pushEdge r m).fio.level = m.fio.level :=
  fr_fiolevel_Chip_pushEdge (P := fun z => z.fio.level = m.fio.level) (fun _ _ h e => e.trans h) r m rfl

theorem eq_fiolevel_Chip_pairEdge (ch : Nat) (rising : Bool) (stamp k : Nat) (m : Chip) : (Chip.pairEdge ch rising stamp k m).fio.level
    = m.fio.level :=
  fr_fiolevel_Chip_pairEdge (P := fun z => z.fio.level = m.fio.level) (fun _ _ h e => e.trans h) ch rising stamp k m rfl

end Sys2Proof.Laws
end

