-- ==== Sys2Proof/Laws/Frames/Fireinbox.lean ====
section
/-!
SUPPORT. Sys2Proof/Laws/Frames/Fireinbox.lean: the operations that leave the inbox of the firing system alone, a lemma for each. `fr_…` carries a property that
depends on nothing else across the operation; `eq_…` says that it reads as before.
-/
namespace Sys2Proof.Laws
open Sys2Proof.Machine

section
variable {P : Chip → Prop} (K : ∀ a b : Chip, P a → b.fire.inbox = a.fire.inbox → P b)
include K

theorem fr_fireinbox_lit (m : Chip) {regs time encs fire pegs fio sup boot bays engs mem sramValid sramBad stick wit cams pocs pipes
    rowPipes replays screens pp tenon purlin latches fresh heads eth subs trust text hk nvLog out free} (h : P m) (e0 : fire.inbox =
        m.fire.inbox) : P (Chip.mk regs time encs fire pegs fio sup boot bays engs mem sramValid sramBad stick wit cams pocs pipes
            rowPipes replays screens pp tenon purlin latches fresh heads eth subs trust text hk nvLog out free) := K _ _ h e0

theorem fr_fireinbox_Chip_wr (m : Chip) (a : Nat) (v : Word) (h0 : P m) : P (Chip.wr m a v) := K _ _ h0 rfl

theorem fr_fireinbox_Chip_put (m : Chip) (f : Fld) (v : Nat) (h0 : P m) : P (Chip.put m f v) := K _ _ h0 rfl

theorem fr_fireinbox_Chip_markFresh (a i : Nat) (m : Chip) (h0 : P m) : P (Chip.markFresh a i m) := K _ _ h0 rfl

theorem fr_fireinbox_Chip_setFlag (m : Chip) (f : Fld) (h0 : P m) : P (Chip.setFlag m f) := K _ _ h0 rfl

theorem fr_fireinbox_Chip_setFlagIf (m : Chip) (c : Bool) (f : Fld) (h0 : P m) : P (Chip.setFlagIf m c f) := by
  unfold Chip.setFlagIf
  try dsimp only
  repeat'
    first
      | with_reducible
          first
            | assumption | apply fr_fireinbox_Chip_setFlag K | apply keep_ite (P := P)
      | dsimp only | split | with_reducible refine fr_fireinbox_lit K _ ?_ rfl

theorem fr_fireinbox_Chip_bumpBy (m : Chip) (a n : Nat) (h0 : P m) : P (Chip.bumpBy m a n) := K _ _ h0 rfl

theorem fr_fireinbox_Chip_bump (m : Chip) (a : Nat) (h0 : P m) : P (Chip.bump m a) := K _ _ h0 rfl

theorem fr_fireinbox_Chip_wr64 (m : Chip) (lo hi : Nat) (v : Nat) (h0 : P m) : P (Chip.wr64 m lo hi v) := K _ _ h0 rfl

theorem fr_fireinbox_Chip_setBit (m : Chip) (a i : Nat) (h0 : P m) : P (Chip.setBit m a i) := K _ _ h0 rfl

theorem fr_fireinbox_Chip_emit (m : Chip) (e : Emit) (h0 : P m) : P (Chip.emit m e) := K _ _ h0 rfl

theorem fr_fireinbox_Chip_log (m : Chip) (what : String) (args : List Nat) (h0 : P m) : P (Chip.log m what args) := by
  unfold Chip.log
  try dsimp only
  repeat'
    first
      | with_reducible
          first
            | assumption | apply keep_ite (P := P)
      | dsimp only | split | with_reducible refine fr_fireinbox_lit K _ ?_ rfl

theorem fr_fireinbox_Chip_setSrc (m : Chip) (h i : Nat) (e : SrcState) (h0 : P m) : P (Chip.setSrc m h i e) := K _ _ h0 rfl

theorem fr_fireinbox_Chip_setHead (m : Chip) (h : Nat) (v : HeadState) (h0 : P m) : P (Chip.setHead m h v) := K _ _ h0 rfl

theorem fr_fireinbox_Chip_toSubs (m : Chip) (r : StreamRec) (h0 : P m) : P (Chip.toSubs m r) := by
  unfold Chip.toSubs
  try dsimp only
  repeat'
    first
      | with_reducible
          first
            | assumption | apply fr_fireinbox_Chip_bump K | apply keep_forAll (P := P)
      | (intro _) | dsimp only | split | with_reducible refine fr_fireinbox_lit K _ ?_ rfl

theorem fr_fireinbox_Chip_release (m : Chip) (r : ResultRec) (h0 : P m) : P (Chip.release m r) := by
  unfold Chip.release
  try dsimp only
  repeat'
    first
      | with_reducible
          first
            | assumption | apply fr_fireinbox_Chip_emit K | apply fr_fireinbox_Chip_toSubs K
      | dsimp only | split | with_reducible refine fr_fireinbox_lit K _ ?_ rfl

theorem fr_fireinbox_Chip_onPur (f : PurlinState → PurlinState) (m : Chip) (h0 : P m) : P (Chip.onPur f m) := K _ _ h0 rfl

theorem fr_fireinbox_Chip_setPurPort (p : Nat) (v : PurPort) (m : Chip) (h0 : P m) : P (Chip.setPurPort p v m) := K _ _ h0 rfl

theorem fr_fireinbox_Chip_modPurPort (p : Nat) (f : PurPort → PurPort) (m : Chip) (h0 : P m) : P (Chip.modPurPort p f m) := K _ _ h0 rfl

theorem fr_fireinbox_Chip_purTx (p : Nat) (f : PurFrame) (m : Chip) (h0 : P m) : P (Chip.purTx p f m) := K _ _ h0 rfl

theorem fr_fireinbox_Chip_linkSend (p : Nat) (l : LinkRec) (m : Chip) (h0 : P m) : P (Chip.linkSend p l m) := K _ _ h0 rfl

theorem fr_fireinbox_Chip_giveBack (p : Nat) (f : PurFrame) (m : Chip) (h0 : P m) : P (Chip.giveBack p f m) := by
  unfold Chip.giveBack
  try dsimp only
  repeat'
    first
      | with_reducible
          first
            | assumption | apply fr_fireinbox_Chip_linkSend K | apply keep_ite (P := P)
      | dsimp only | split | with_reducible refine fr_fireinbox_lit K _ ?_ rfl

theorem fr_fireinbox_Chip_giveBackOpt (via : Option Nat) (f : PurFrame) (m : Chip) (h0 : P m) : P (Chip.giveBackOpt via f m) := by
  unfold Chip.giveBackOpt
  try dsimp only
  repeat'
    first
      | with_reducible
          first
            | assumption | apply fr_fireinbox_Chip_giveBack K
      | split | dsimp only | with_reducible refine fr_fireinbox_lit K _ ?_ rfl

theorem fr_fireinbox_Chip_purPump (p : Nat) (y0 : Nat) (y1 : Chip) (h0 : P y1) : P (Chip.purPump p y0 y1) := by
  induction y0 generalizing y1 with
  | zero => exact h0
  | succ n ih =>
    unfold Chip.purPump
    try dsimp only
    repeat'
      first
        | with_reducible
            first
              | assumption | apply ih | apply fr_fireinbox_Chip_setPurPort K | apply fr_fireinbox_Chip_purTx K
              | apply fr_fireinbox_Chip_giveBackOpt K | apply keep_ite (P := P)
        | (intro _) | split | with_reducible refine fr_fireinbox_lit K _ ?_ rfl

theorem fr_fireinbox_Chip_purFlush (p : Nat) (m : Chip) (h0 : P m) : P (Chip.purFlush p m) := by
  unfold Chip.purFlush
  try dsimp only
  repeat'
    first
      | with_reducible
          first
            | assumption | apply fr_fireinbox_Chip_purPump K
      | dsimp only | split | with_reducible refine fr_fireinbox_lit K _ ?_ rfl

theorem fr_fireinbox_Chip_mirrorOut (body : PurBody) (length : Nat) (m : Chip) (h0 : P m) : P (Chip.mirrorOut body length m) := by
  unfold Chip.mirrorOut
  try dsimp only
  repeat'
    first
      | with_reducible
          first
            | assumption | apply fr_fireinbox_Chip_modPurPort K | apply fr_fireinbox_Chip_purFlush K | apply keep_ite (P := P)
      | (intro _) | dsimp only | split | with_reducible refine fr_fireinbox_lit K _ ?_ rfl

theorem fr_fireinbox_Chip_mirrorFrame (id : Nat) (r : MirrorRec) (m : Chip) (h0 : P m) : P (Chip.mirrorFrame id r m) := by
  unfold Chip.mirrorFrame
  try dsimp only
  repeat'
    first
      | with_reducible
          first
            | assumption | apply fr_fireinbox_Chip_mirrorOut K
      | dsimp only | split | with_reducible refine fr_fireinbox_lit K _ ?_ rfl

theorem fr_fireinbox_Chip_setQueue (m : Chip) (p : Nat) (q : List FEntry) (h0 : P m) : P (Chip.setQueue m p q) := K _ _ h0 rfl

theorem fr_fireinbox_Chip_mirrorSend (m : Chip) (r : MirrorRec) (h0 : P m) : P (Chip.mirrorSend m r) := by
  unfold Chip.mirrorSend
  try dsimp only
  repeat'
    first
      | with_reducible
          first
            | assumption | apply fr_fireinbox_Chip_mirrorFrame K
      | dsimp only | split | with_reducible refine fr_fireinbox_lit K _ ?_ rfl

theorem fr_fireinbox_Chip_entryCancelled (m : Chip) (e : FEntry) (h0 : P m) : P (Chip.entryCancelled m e) := by
  unfold Chip.entryCancelled
  try dsimp only
  repeat'
    first
      | with_reducible
          first
            | assumption | apply fr_fireinbox_Chip_bump K | apply fr_fireinbox_Chip_release K | apply fr_fireinbox_Chip_mirrorSend K
            | apply keep_ite (P := P)
      | dsimp only | split | with_reducible refine fr_fireinbox_lit K _ ?_ rfl

theorem fr_fireinbox_Chip_cancelIn (p : Nat) (c : FEntry → Bool) (m : Chip) (h0 : P m) : P (Chip.cancelIn p c m) := by
  unfold Chip.cancelIn
  try dsimp only
  repeat'
    first
      | with_reducible
          first
            | assumption | apply fr_fireinbox_Chip_setQueue K | apply fr_fireinbox_Chip_entryCancelled K | apply keep_forAll (P := P)
      | (intro _) | dsimp only | split | with_reducible refine fr_fireinbox_lit K _ ?_ rfl

theorem fr_fireinbox_Chip_cancelAll (c : FEntry → Bool) (m : Chip) (h0 : P m) : P (Chip.cancelAll c m) := by
  unfold Chip.cancelAll
  try dsimp only
  repeat'
    first
      | with_reducible
          first
            | assumption | apply fr_fireinbox_Chip_cancelIn K | apply keep_forAll (P := P)
      | (intro _) | dsimp only | split | with_reducible refine fr_fireinbox_lit K _ ?_ rfl

theorem fr_fireinbox_Chip_dropResvs (c : Resv → Bool) (m : Chip) (h0 : P m) : P (Chip.dropResvs c m) := K _ _ h0 rfl

theorem fr_fireinbox_Chip_countDropped (m : Chip) (r : Resv) (h0 : P m) : P (Chip.countDropped m r) := by
  unfold Chip.countDropped
  try dsimp only
  repeat'
    first
      | with_reducible
          first
            | assumption | apply fr_fireinbox_Chip_setFlag K | apply fr_fireinbox_Chip_bump K | apply keep_ite (P := P)
      | dsimp only | split | with_reducible refine fr_fireinbox_lit K _ ?_ rfl

theorem fr_fireinbox_Chip_refreshOutputs (m : Chip) (h0 : P m) : P (Chip.refreshOutputs m) := by
  unfold Chip.refreshOutputs
  try dsimp only
  repeat'
    first
      | with_reducible
          first
            | assumption | apply fr_fireinbox_Chip_put K | apply fr_fireinbox_Chip_emit K | apply keep_foldl (P := P)
            | apply keep_foldl2 (P := P) | apply keep_ite (P := P)
      | (intro _) | dsimp only | split | with_reducible refine fr_fireinbox_lit K _ ?_ rfl

theorem fr_fireinbox_Chip_setMode (new : Nat) (cause : Option Src) (m : Chip) (h0 : P m) : P (Chip.setMode new cause m) := by
  unfold Chip.setMode
  try dsimp only
  repeat'
    first
      | with_reducible
          first
            | assumption | apply fr_fireinbox_Chip_put K
      | split | dsimp only | with_reducible refine fr_fireinbox_lit K _ ?_ rfl

theorem fr_fireinbox_Chip_dropResume (m : Chip) (h0 : P m) : P (Chip.dropResume m) := K _ _ h0 rfl

theorem fr_fireinbox_Chip_enterSafe (cause : Option Src) (m : Chip) (h0 : P m) : P (Chip.enterSafe cause m) := by
  unfold Chip.enterSafe
  try dsimp only
  repeat'
    first
      | with_reducible
          first
            | assumption | apply fr_fireinbox_Chip_bump K | apply fr_fireinbox_Chip_cancelAll K | apply fr_fireinbox_Chip_dropResvs K
            | apply fr_fireinbox_Chip_refreshOutputs K | apply fr_fireinbox_Chip_setMode K | apply fr_fireinbox_Chip_dropResume K
            | apply keep_ite (P := P)
      | (intro _) | dsimp only | split | with_reducible refine fr_fireinbox_lit K _ ?_ rfl

theorem fr_fireinbox_Chip_bucketEdge (c : Src) (m : Chip) (h0 : P m) : P (Chip.bucketEdge c m) := by
  unfold Chip.bucketEdge
  try dsimp only
  repeat'
    first
      | with_reducible
          first
            | assumption | apply fr_fireinbox_Chip_put K | apply fr_fireinbox_Chip_setFlag K | apply fr_fireinbox_Chip_bump K
            | apply fr_fireinbox_Chip_setSrc K | apply keep_ite (P := P)
      | split | dsimp only | with_reducible refine fr_fireinbox_lit K _ ?_ rfl

theorem fr_fireinbox_Chip_severityAct (c : Src) (m : Chip) (h0 : P m) : P (Chip.severityAct c m) := by
  unfold Chip.severityAct
  try dsimp only
  repeat'
    first
      | with_reducible
          first
            | assumption | apply fr_fireinbox_Chip_setBit K | apply fr_fireinbox_Chip_emit K | apply fr_fireinbox_Chip_log K
            | apply fr_fireinbox_Chip_setSrc K | apply fr_fireinbox_Chip_refreshOutputs K | apply fr_fireinbox_Chip_enterSafe K
            | apply keep_ite (P := P)
      | dsimp only | split | with_reducible refine fr_fireinbox_lit K _ ?_ rfl

theorem fr_fireinbox_Chip_raise (c : Src) (m : Chip) (h0 : P m) : P (Chip.raise c m) := by
  unfold Chip.raise
  try dsimp only
  repeat'
    first
      | with_reducible
          first
            | assumption | apply fr_fireinbox_Chip_setBit K | apply fr_fireinbox_Chip_bucketEdge K
            | apply fr_fireinbox_Chip_severityAct K
      | dsimp only | split | with_reducible refine fr_fireinbox_lit K _ ?_ rfl

theorem fr_fireinbox_Chip_purRoute (via : Option Nat) (f : PurFrame) (m : Chip) (h0 : P m) : P (Chip.purRoute via f m) := by
  unfold Chip.purRoute
  try dsimp only
  repeat'
    first
      | with_reducible
          first
            | assumption | apply fr_fireinbox_Chip_bump K | apply fr_fireinbox_Chip_modPurPort K | apply fr_fireinbox_Chip_giveBackOpt K
            | apply fr_fireinbox_Chip_purFlush K | apply keep_ite (P := P)
      | (intro _) | dsimp only | split | with_reducible refine fr_fireinbox_lit K _ ?_ rfl

theorem fr_fireinbox_Chip_setFlow (v : PurFlow) (m : Chip) (h0 : P m) : P (Chip.setFlow v m) := K _ _ h0 rfl

theorem fr_fireinbox_Chip_flowDrain (dev cls : Nat) (y0 : Nat) (y1 : Chip) (h0 : P y1) : P (Chip.flowDrain dev cls y0 y1) := by
  induction y0 generalizing y1 with
  | zero => exact h0
  | succ n ih =>
    unfold Chip.flowDrain
    try dsimp only
    repeat'
      first
        | with_reducible
            first
              | assumption | apply ih | apply fr_fireinbox_Chip_purRoute K | apply fr_fireinbox_Chip_setFlow K | apply keep_ite (P := P)
        | (intro _) | split | with_reducible refine fr_fireinbox_lit K _ ?_ rfl

theorem fr_fireinbox_Chip_flowRun (dev cls : Nat) (m : Chip) (h0 : P m) : P (Chip.flowRun dev cls m) := by
  unfold Chip.flowRun
  try dsimp only
  repeat'
    first
      | with_reducible
          first
            | assumption | apply fr_fireinbox_Chip_flowDrain K
      | dsimp only | split | with_reducible refine fr_fireinbox_lit K _ ?_ rfl

theorem fr_fireinbox_Chip_flowSend (dev cls : Nat) (body : PurBody) (length : Nat) (m : Chip) (h0 : P m) : P (Chip.flowSend dev cls body
    length m) := by
  unfold Chip.flowSend
  try dsimp only
  repeat'
    first
      | with_reducible
          first
            | assumption | apply fr_fireinbox_Chip_setFlow K | apply fr_fireinbox_Chip_flowRun K
      | dsimp only | split | with_reducible refine fr_fireinbox_lit K _ ?_ rfl

theorem fr_fireinbox_Chip_marksSend (f : MarksFrame) (m : Chip) (h0 : P m) : P (Chip.marksSend f m) := by
  unfold Chip.marksSend
  try dsimp only
  repeat'
    first
      | with_reducible
          first
            | assumption | apply fr_fireinbox_Chip_flowSend K
      | split | dsimp only | with_reducible refine fr_fireinbox_lit K _ ?_ rfl

theorem fr_fireinbox_Chip_onWit (f : WitState → WitState) (m : Chip) (h0 : P m) : P (Chip.onWit f m) := K _ _ h0 rfl

theorem fr_fireinbox_Chip_witPush (r : WitRec) (m : Chip) (h0 : P m) : P (Chip.witPush r m) := by
  unfold Chip.witPush
  try dsimp only
  repeat'
    first
      | with_reducible
          first
            | assumption | apply fr_fireinbox_Chip_setFlag K | apply fr_fireinbox_Chip_bump K | apply keep_ite (P := P)
      | dsimp only | split | with_reducible refine fr_fireinbox_lit K _ ?_ rfl

theorem fr_fireinbox_Chip_ringAdd (s : MarkSet) (m : Chip) (h0 : P m) : P (Chip.ringAdd s m) := K _ _ h0 rfl

theorem fr_fireinbox_Chip_lockCompare (f : MarksFrame) (s : MarkSet) (m : Chip) (h0 : P m) : P (Chip.lockCompare f s m) := by
  unfold Chip.lockCompare
  try dsimp only
  repeat'
    first
      | with_reducible
          first
            | assumption | apply fr_fireinbox_Chip_put K | apply fr_fireinbox_Chip_setFlag K | apply fr_fireinbox_Chip_bump K
            | apply fr_fireinbox_Chip_wr64 K | apply fr_fireinbox_Chip_raise K | apply keep_ite (P := P)
      | split | dsimp only | with_reducible refine fr_fireinbox_lit K _ ?_ rfl

theorem fr_fireinbox_Chip_followSet (s : MarkSet) (m : Chip) (h0 : P m) : P (Chip.followSet s m) := by
  unfold Chip.followSet
  try dsimp only
  repeat'
    first
      | with_reducible
          first
            | assumption | apply fr_fireinbox_Chip_onWit K | apply fr_fireinbox_Chip_lockCompare K | apply keep_ite (P := P)
      | (intro _) | split | dsimp only | with_reducible refine fr_fireinbox_lit K _ ?_ rfl

theorem fr_fireinbox_Chip_releaseSet (s0 : MarkSet) (m : Chip) (h0 : P m) : P (Chip.releaseSet s0 m) := by
  unfold Chip.releaseSet
  try dsimp only
  repeat'
    first
      | with_reducible
          first
            | assumption | apply fr_fireinbox_Chip_setFlag K | apply fr_fireinbox_Chip_setFlagIf K | apply fr_fireinbox_Chip_bump K
            | apply fr_fireinbox_Chip_marksSend K | apply fr_fireinbox_Chip_witPush K | apply fr_fireinbox_Chip_ringAdd K
            | apply fr_fireinbox_Chip_followSet K | apply keep_forAll (P := P) | apply keep_ite (P := P)
      | (intro _) | dsimp only | split | with_reducible refine fr_fireinbox_lit K _ ?_ rfl

theorem fr_fireinbox_Chip_releasePair (j k : Nat) (m : Chip) (h0 : P m) : P (Chip.releasePair j k m) := by
  unfold Chip.releasePair
  try dsimp only
  repeat'
    first
      | with_reducible
          first
            | assumption | apply fr_fireinbox_Chip_onWit K | apply fr_fireinbox_Chip_releaseSet K
      | (intro _) | split | dsimp only | with_reducible refine fr_fireinbox_lit K _ ?_ rfl

theorem fr_fireinbox_Chip_onFire (f : FireState → FireState) (m : Chip) (h0 : P m) (e : ∀ x, (f x).inbox =
    x.inbox) : P (Chip.onFire f m) := K _ _ h0 (e _)

theorem fr_fireinbox_Chip_commitSamples (stream strip obj : Nat) (m : Chip) (h0 : P m) : P (Chip.commitSamples stream strip obj m) := by
  unfold Chip.commitSamples
  try dsimp only
  repeat' (first | with_reducible assumption | (intro _) | with_reducible apply fr_fireinbox_Chip_bumpBy K
                 | with_reducible apply fr_fireinbox_Chip_setHead K | with_reducible apply keep_forAll (P := P)
                 | with_reducible apply keep_foldl (P := P) | with_reducible apply keep_foldl2 (P := P)
                 | with_reducible apply keep_ite (P := P) | dsimp only | split
                 | with_reducible refine fr_fireinbox_lit K _ ?_ rfl)

theorem fr_fireinbox_Chip_countObj (row : Nat) (r : ResultRec) (m : Chip) (h0 : P m) : P (Chip.countObj row r m) := by
  unfold Chip.countObj
  try dsimp only
  repeat'
    first
      | with_reducible
          first
            | assumption | apply fr_fireinbox_Chip_bump K | apply keep_ite (P := P)
      | split | dsimp only | with_reducible refine fr_fireinbox_lit K _ ?_ rfl

theorem fr_fireinbox_Chip_keepEvidence (row : Nat) (r : ResultRec) (m : Chip) (h0 : P m) : P (Chip.keepEvidence row r m) := by
  unfold Chip.keepEvidence
  try dsimp only
  repeat'
    first
      | with_reducible
          first
            | assumption | apply fr_fireinbox_Chip_log K | apply keep_ite (P := P)
      | (intro _) | (with_reducible refine fr_fireinbox_Chip_onFire K _ _ ?_ ?_; rotate_left; exact fun _ => rfl) | split | dsimp only
      | with_reducible refine fr_fireinbox_lit K _ ?_ rfl

theorem fr_fireinbox_Chip_releaseObj (row : Nat) (r : ResultRec) (m : Chip) (h0 : P m) : P (Chip.releaseObj row r m) := by
  unfold Chip.releaseObj
  try dsimp only
  repeat'
    first
      | with_reducible
          first
            | assumption | apply fr_fireinbox_Chip_release K | apply fr_fireinbox_Chip_commitSamples K
            | apply fr_fireinbox_Chip_countObj K | apply fr_fireinbox_Chip_keepEvidence K | apply keep_ite (P := P)
      | dsimp only | split | with_reducible refine fr_fireinbox_lit K _ ?_ rfl

theorem fr_fireinbox_Chip_releaseHeld (k : EntKey) (m : Chip) (h0 : P m) : P (Chip.releaseHeld k m) := by
  unfold Chip.releaseHeld
  try dsimp only
  repeat'
    first
      | with_reducible
          first
            | assumption | apply fr_fireinbox_Chip_releaseObj K
      | (intro _) | (with_reducible refine fr_fireinbox_Chip_onFire K _ _ ?_ ?_; rotate_left; exact fun _ => rfl) | split | dsimp only
      | with_reducible refine fr_fireinbox_lit K _ ?_ rfl

theorem fr_fireinbox_Chip_queueEntry (e : FEntry) (m : Chip) (h0 : P m) : P (Chip.queueEntry e m) := by
  unfold Chip.queueEntry
  try dsimp only
  repeat'
    first
      | with_reducible
          first
            | assumption | apply fr_fireinbox_Chip_put K | apply fr_fireinbox_Chip_bump K | apply fr_fireinbox_Chip_setQueue K
            | apply fr_fireinbox_Chip_cancelIn K | apply fr_fireinbox_Chip_releaseHeld K | apply keep_ite (P := P)
      | (intro _) | dsimp only | split | with_reducible refine fr_fireinbox_lit K _ ?_ rfl

theorem fr_fireinbox_Chip_offer (l : List FEntry) (m : Chip) (h0 : P m) : P (Chip.offer l m).2 := by
  unfold Chip.offer
  try dsimp only
  repeat'
    first
      | with_reducible
          first
            | assumption | apply fr_fireinbox_Chip_setFlag K | apply fr_fireinbox_Chip_bump K | apply fr_fireinbox_Chip_mirrorSend K
            | apply fr_fireinbox_Chip_raise K | apply fr_fireinbox_Chip_queueEntry K | apply keep_foldl (P := P)
            | apply keep_foldl2 (P := P) | apply keep_ite (P := P)
      | (intro _) | dsimp only | split | with_reducible refine fr_fireinbox_lit K _ ?_ rfl

theorem fr_fireinbox_Chip_addEntries (r k n : Nat) (m : Chip) (h0 : P m) : P (Chip.addEntries r k n m) := K _ _ h0 rfl

theorem fr_fireinbox_Chip_judgeObj (o : ObjIn) (indet : Bool) (m : Chip) (h0 : P m) : P (Chip.judgeObj o indet m) := by
  unfold Chip.judgeObj
  try dsimp only
  repeat'
    first
      | with_reducible
          first
            | assumption | apply fr_fireinbox_Chip_setFlag K | apply fr_fireinbox_Chip_bumpBy K | apply fr_fireinbox_Chip_bump K
            | apply fr_fireinbox_Chip_raise K | apply fr_fireinbox_Chip_releaseObj K | apply fr_fireinbox_Chip_offer K
            | apply fr_fireinbox_Chip_addEntries K | apply keep_ite (P := P)
      | (intro _) | (with_reducible refine fr_fireinbox_Chip_onFire K _ _ ?_ ?_; rotate_left; exact fun _ => rfl) | dsimp only | split
      | with_reducible refine fr_fireinbox_lit K _ ?_ rfl

theorem fr_fireinbox_Chip_takeObj (o : ObjIn) (m : Chip) (h0 : P m) : P (Chip.takeObj o m) := by
  unfold Chip.takeObj
  try dsimp only
  repeat'
    first
      | with_reducible
          first
            | assumption | apply fr_fireinbox_Chip_releaseObj K | apply fr_fireinbox_Chip_judgeObj K | apply keep_ite (P := P)
      | split | dsimp only | with_reducible refine fr_fireinbox_lit K _ ?_ rfl

theorem fr_fireinbox_Chip_markTaken (j stream row strip closeBay : Nat) (m : Chip) (h0 : P m) : P (Chip.markTaken j stream row strip
    closeBay m) := K _ _ h0 rfl

theorem fr_fireinbox_Chip_countDue (c : ClosedStrip → Bool) (m : Chip) (h0 : P m) : P (Chip.countDue c m) := by
  unfold Chip.countDue
  try dsimp only
  repeat'
    first
      | with_reducible
          first
            | assumption | apply fr_fireinbox_Chip_bump K | apply keep_forAll (P := P) | apply keep_ite (P := P)
      | (intro _) | (with_reducible refine fr_fireinbox_Chip_onFire K _ _ ?_ ?_; rotate_left; exact fun _ => rfl) | dsimp only | split
      | with_reducible refine fr_fireinbox_lit K _ ?_ rfl

theorem fr_fireinbox_Chip_resolve (row strip : Nat) (m : Chip) (h0 : P m) : P (Chip.resolve row strip m) := by
  unfold Chip.resolve
  try dsimp only
  repeat'
    first
      | with_reducible
          first
            | assumption | apply fr_fireinbox_Chip_bump K | apply fr_fireinbox_Chip_dropResvs K | apply fr_fireinbox_Chip_countDropped K
            | apply fr_fireinbox_Chip_countDue K | apply keep_forAll (P := P) | apply keep_foldl (P := P) | apply keep_foldl2 (P := P)
            | apply keep_ite (P := P)
      | (intro _) | dsimp only | split | with_reducible refine fr_fireinbox_lit K _ ?_ rfl

theorem fr_fireinbox_Chip_afterGroup (j row strip closeBay : Nat) (m : Chip) (h0 : P m) : P (Chip.afterGroup j row strip closeBay m) :=
    by
  unfold Chip.afterGroup
  try dsimp only
  repeat'
    first
      | with_reducible
          first
            | assumption | apply fr_fireinbox_Chip_onWit K | apply fr_fireinbox_Chip_releaseSet K
            | apply fr_fireinbox_Chip_releasePair K | apply fr_fireinbox_Chip_resolve K | apply keep_ite (P := P)
      | (intro _) | (with_reducible refine fr_fireinbox_Chip_onFire K _ _ ?_ ?_; rotate_left; exact fun _ => rfl) | dsimp only | split
      | with_reducible refine fr_fireinbox_lit K _ ?_ rfl

theorem fr_fireinbox_Chip_takeExtent (c : ClosedStrip) (job stream : Nat) (m : Chip) (h0 : P m) : P (Chip.takeExtent c job stream m) :=
    by
  unfold Chip.takeExtent
  try dsimp only
  repeat'
    first
      | with_reducible
          first
            | assumption | apply fr_fireinbox_Chip_judgeObj K | apply keep_ite (P := P)
      | split | dsimp only | with_reducible refine fr_fireinbox_lit K _ ?_ rfl

theorem fr_fireinbox_Chip_takeEmpty (g : VerdictGroup) (c : ClosedStrip) (m : Chip) (h0 : P m) : P (Chip.takeEmpty g c m) := by
  unfold Chip.takeEmpty
  try dsimp only
  repeat'
    first
      | with_reducible
          first
            | assumption | apply fr_fireinbox_Chip_takeExtent K | apply keep_ite (P := P)
      | split | dsimp only | with_reducible refine fr_fireinbox_lit K _ ?_ rfl

theorem fr_fireinbox_Chip_noticeObj (stream closeBay job : Nat) (p : ProvRec) (m : Chip) (h0 : P m) : P (Chip.noticeObj stream closeBay
    job p m) := by
  unfold Chip.noticeObj
  try dsimp only
  repeat'
    first
      | with_reducible
          first
            | assumption | apply fr_fireinbox_Chip_takeObj K | apply keep_ite (P := P)
      | (intro _) | (with_reducible refine fr_fireinbox_Chip_onFire K _ _ ?_ ?_; rotate_left; exact fun _ => rfl) | dsimp only | split
      | with_reducible refine fr_fireinbox_lit K _ ?_ rfl

theorem fr_fireinbox_Chip_takeNotice (c : ClosedStrip) (job stream : Nat) (m : Chip) (h0 : P m) : P (Chip.takeNotice c job stream m) :=
    by
  unfold Chip.takeNotice
  try dsimp only
  repeat'
    first
      | with_reducible
          first
            | assumption | apply fr_fireinbox_Chip_markTaken K | apply fr_fireinbox_Chip_afterGroup K
            | apply fr_fireinbox_Chip_takeExtent K | apply fr_fireinbox_Chip_noticeObj K | apply keep_forAll (P := P)
            | apply keep_ite (P := P)
      | (intro _) | dsimp only | split | with_reducible refine fr_fireinbox_lit K _ ?_ rfl

end

theorem eq_fireinbox_Chip_takeObj (o : ObjIn) (m : Chip) : (Chip.takeObj o m).fire.inbox = m.fire.inbox :=
  fr_fireinbox_Chip_takeObj (P := fun z => z.fire.inbox = m.fire.inbox) (fun _ _ h e => e.trans h) o m rfl

theorem eq_fireinbox_Chip_markTaken (j stream row strip closeBay : Nat) (m : Chip) : (Chip.markTaken j stream row strip closeBay
    m).fire.inbox = m.fire.inbox :=
  fr_fireinbox_Chip_markTaken (P := fun z => z.fire.inbox = m.fire.inbox) (fun _ _ h e => e.trans h) j stream row strip closeBay m rfl

theorem eq_fireinbox_Chip_afterGroup (j row strip closeBay : Nat) (m : Chip) : (Chip.afterGroup j row strip closeBay m).fire.inbox =
    m.fire.inbox :=
  fr_fireinbox_Chip_afterGroup (P := fun z => z.fire.inbox = m.fire.inbox) (fun _ _ h e => e.trans h) j row strip closeBay m rfl

theorem eq_fireinbox_Chip_takeEmpty (g : VerdictGroup) (c : ClosedStrip) (m : Chip) : (Chip.takeEmpty g c m).fire.inbox =
    m.fire.inbox :=
  fr_fireinbox_Chip_takeEmpty (P := fun z => z.fire.inbox = m.fire.inbox) (fun _ _ h e => e.trans h) g c m rfl

theorem eq_fireinbox_Chip_takeNotice (c : ClosedStrip) (job stream : Nat) (m : Chip) : (Chip.takeNotice c job stream m).fire.inbox =
    m.fire.inbox :=
  fr_fireinbox_Chip_takeNotice (P := fun z => z.fire.inbox = m.fire.inbox) (fun _ _ h e => e.trans h) c job stream m rfl

end Sys2Proof.Laws
end

