-- ==== Sys2Proof/Laws/Frames/Supsrcs.lean ====
section
/-!
SUPPORT. Sys2Proof/Laws/Frames/Supsrcs.lean: the operations that leave the fault sources alone, a lemma for each. `fr_…` carries a property that
depends on nothing else across the operation; `eq_…` says that it reads as before.
-/
namespace Sys2Proof.Laws
open Sys2Proof.Machine

section
variable {P : Chip → Prop} (K : ∀ a b : Chip, P a → b.sup.srcs = a.sup.srcs → P b)
include K

theorem fr_supsrcs_lit (m : Chip) {regs time encs fire pegs fio sup boot bays engs mem sramValid sramBad stick wit cams pocs pipes
    rowPipes replays screens pp tenon purlin latches fresh heads eth subs trust text hk nvLog out free} (h : P m) (e0 : sup.srcs =
        m.sup.srcs) : P (Chip.mk regs time encs fire pegs fio sup boot bays engs mem sramValid sramBad stick wit cams pocs pipes
            rowPipes replays screens pp tenon purlin latches fresh heads eth subs trust text hk nvLog out free) := K _ _ h e0

theorem fr_supsrcs_Chip_wr (m : Chip) (a : Nat) (v : Word) (h0 : P m) : P (Chip.wr m a v) := K _ _ h0 rfl

theorem fr_supsrcs_Chip_put (m : Chip) (f : Fld) (v : Nat) (h0 : P m) : P (Chip.put m f v) := K _ _ h0 rfl

theorem fr_supsrcs_Chip_markFresh (a i : Nat) (m : Chip) (h0 : P m) : P (Chip.markFresh a i m) := K _ _ h0 rfl

theorem fr_supsrcs_Chip_setFlag (m : Chip) (f : Fld) (h0 : P m) : P (Chip.setFlag m f) := K _ _ h0 rfl

theorem fr_supsrcs_Chip_bumpBy (m : Chip) (a n : Nat) (h0 : P m) : P (Chip.bumpBy m a n) := K _ _ h0 rfl

theorem fr_supsrcs_Chip_bump (m : Chip) (a : Nat) (h0 : P m) : P (Chip.bump m a) := K _ _ h0 rfl

theorem fr_supsrcs_Chip_emit (m : Chip) (e : Emit) (h0 : P m) : P (Chip.emit m e) := K _ _ h0 rfl

theorem fr_supsrcs_Chip_dropResvs (c : Resv → Bool) (m : Chip) (h0 : P m) : P (Chip.dropResvs c m) := K _ _ h0 rfl

theorem fr_supsrcs_Chip_countDropped (m : Chip) (r : Resv) (h0 : P m) : P (Chip.countDropped m r) := by
  unfold Chip.countDropped
  try dsimp only
  repeat'
    first
      | with_reducible
          first
            | assumption | apply fr_supsrcs_Chip_setFlag K | apply fr_supsrcs_Chip_bump K | apply keep_ite (P := P)
      | dsimp only | split | with_reducible refine fr_supsrcs_lit K _ ?_ rfl

theorem fr_supsrcs_Chip_refreshOutputs (m : Chip) (h0 : P m) : P (Chip.refreshOutputs m) := by
  unfold Chip.refreshOutputs
  try dsimp only
  repeat'
    first
      | with_reducible
          first
            | assumption | apply fr_supsrcs_Chip_put K | apply fr_supsrcs_Chip_emit K | apply keep_foldl (P := P)
            | apply keep_foldl2 (P := P) | apply keep_ite (P := P)
      | (intro _) | dsimp only | split | with_reducible refine fr_supsrcs_lit K _ ?_ rfl

theorem fr_supsrcs_Chip_setMode (new : Nat) (cause : Option Src) (m : Chip) (h0 : P m) : P (Chip.setMode new cause m) := by
  unfold Chip.setMode
  try dsimp only
  repeat'
    first
      | with_reducible
          first
            | assumption | apply fr_supsrcs_Chip_put K
      | split | dsimp only | with_reducible refine fr_supsrcs_lit K _ ?_ rfl

theorem fr_supsrcs_Chip_dropResume (m : Chip) (h0 : P m) : P (Chip.dropResume m) := K _ _ h0 rfl

theorem fr_supsrcs_Chip_enterFireOut (cause : Option Src) (m : Chip) (h0 : P m) : P (Chip.enterFireOut cause m) := by
  unfold Chip.enterFireOut
  try dsimp only
  repeat'
    first
      | with_reducible
          first
            | assumption | apply fr_supsrcs_Chip_bump K | apply fr_supsrcs_Chip_dropResvs K | apply fr_supsrcs_Chip_countDropped K
            | apply fr_supsrcs_Chip_refreshOutputs K | apply fr_supsrcs_Chip_setMode K | apply fr_supsrcs_Chip_dropResume K
            | apply keep_forAll (P := P) | apply keep_ite (P := P)
      | (intro _) | dsimp only | split | with_reducible refine fr_supsrcs_lit K _ ?_ rfl

end

theorem eq_supsrcs_Chip_enterFireOut (cause : Option Src) (m : Chip) : (Chip.enterFireOut cause m).sup.srcs = m.sup.srcs :=
  fr_supsrcs_Chip_enterFireOut (P := fun z => z.sup.srcs = m.sup.srcs) (fun _ _ h e => e.trans h) cause m rfl

end Sys2Proof.Laws
end

