-- ==== Sys2Proof/Laws/Frames/TimeSet.lean ====
section
/-!
SUPPORT. Sys2Proof/Laws/Frames/TimeSet.lean: the operations that leave TB0 alone, a lemma for each. `fr_…` carries a property that
depends on nothing else across the operation; `eq_…` says that it reads as before.
-/
namespace Sys2Proof.Laws
open Sys2Proof.Machine

section
variable {P : Chip → Prop} (K : ∀ a b : Chip, P a → b.time.tb0 = a.time.tb0 → b.time.lastStepAt = a.time.lastStepAt → P b)
include K

theorem fr_timeSet_lit (m : Chip) {regs time encs fire pegs fio sup boot bays engs mem sramValid sramBad stick wit cams pocs pipes
    rowPipes replays screens pp tenon purlin latches fresh heads eth subs trust text hk nvLog out free} (h : P m) (e0 : time.tb0 =
        m.time.tb0) (e1 : time.lastStepAt = m.time.lastStepAt) : P (Chip.mk regs time encs fire pegs fio sup boot bays engs mem
            sramValid sramBad stick wit cams pocs pipes rowPipes replays screens pp tenon purlin latches fresh heads eth subs trust text
                hk nvLog out free) := K _ _ h e0 e1

theorem fr_timeSet_Chip_wr (m : Chip) (a : Nat) (v : Word) (h0 : P m) : P (Chip.wr m a v) := K _ _ h0 rfl rfl

theorem fr_timeSet_Chip_put (m : Chip) (f : Fld) (v : Nat) (h0 : P m) : P (Chip.put m f v) := K _ _ h0 rfl rfl

theorem fr_timeSet_Chip_markFresh (a i : Nat) (m : Chip) (h0 : P m) : P (Chip.markFresh a i m) := K _ _ h0 rfl rfl

theorem fr_timeSet_Chip_setFlag (m : Chip) (f : Fld) (h0 : P m) : P (Chip.setFlag m f) := K _ _ h0 rfl rfl

theorem fr_timeSet_Chip_bumpBy (m : Chip) (a n : Nat) (h0 : P m) : P (Chip.bumpBy m a n) := K _ _ h0 rfl rfl

theorem fr_timeSet_Chip_bump (m : Chip) (a : Nat) (h0 : P m) : P (Chip.bump m a) := K _ _ h0 rfl rfl

theorem fr_timeSet_Chip_wr64 (m : Chip) (lo hi : Nat) (v : Nat) (h0 : P m) : P (Chip.wr64 m lo hi v) := K _ _ h0 rfl rfl

theorem fr_timeSet_Chip_setBit (m : Chip) (a i : Nat) (h0 : P m) : P (Chip.setBit m a i) := K _ _ h0 rfl rfl

theorem fr_timeSet_Chip_emit (m : Chip) (e : Emit) (h0 : P m) : P (Chip.emit m e) := K _ _ h0 rfl rfl

theorem fr_timeSet_Chip_log (m : Chip) (what : String) (args : List Nat) (h0 : P m) : P (Chip.log m what args) := by
  unfold Chip.log
  try dsimp only
  repeat'
    first
      | with_reducible
          first
            | assumption | apply keep_ite (P := P)
      | dsimp only | split | with_reducible refine fr_timeSet_lit K _ ?_ rfl rfl

theorem fr_timeSet_Chip_draw (m : Chip) (h0 : P m) : P (Chip.draw m).2 := K _ _ h0 rfl rfl

theorem fr_timeSet_Chip_setSrc (m : Chip) (h i : Nat) (e : SrcState) (h0 : P m) : P (Chip.setSrc m h i e) := K _ _ h0 rfl rfl

theorem fr_timeSet_Chip_toSubs (m : Chip) (r : StreamRec) (h0 : P m) : P (Chip.toSubs m r) := by
  unfold Chip.toSubs
  try dsimp only
  repeat'
    first
      | with_reducible
          first
            | assumption | apply fr_timeSet_Chip_bump K | apply keep_forAll (P := P)
      | (intro _) | dsimp only | split | with_reducible refine fr_timeSet_lit K _ ?_ rfl rfl

theorem fr_timeSet_Chip_release (m : Chip) (r : ResultRec) (h0 : P m) : P (Chip.release m r) := by
  unfold Chip.release
  try dsimp only
  repeat'
    first
      | with_reducible
          first
            | assumption | apply fr_timeSet_Chip_emit K | apply fr_timeSet_Chip_toSubs K
      | dsimp only | split | with_reducible refine fr_timeSet_lit K _ ?_ rfl rfl

theorem fr_timeSet_Chip_onPur (f : PurlinState → PurlinState) (m : Chip) (h0 : P m) : P (Chip.onPur f m) := K _ _ h0 rfl rfl

theorem fr_timeSet_Chip_setPurPort (p : Nat) (v : PurPort) (m : Chip) (h0 : P m) : P (Chip.setPurPort p v m) := K _ _ h0 rfl rfl

theorem fr_timeSet_Chip_modPurPort (p : Nat) (f : PurPort → PurPort) (m : Chip) (h0 : P m) : P (Chip.modPurPort p f m) :=
    K _ _ h0 rfl rfl

theorem fr_timeSet_Chip_purTx (p : Nat) (f : PurFrame) (m : Chip) (h0 : P m) : P (Chip.purTx p f m) := K _ _ h0 rfl rfl

theorem fr_timeSet_Chip_linkSend (p : Nat) (l : LinkRec) (m : Chip) (h0 : P m) : P (Chip.linkSend p l m) := K _ _ h0 rfl rfl

theorem fr_timeSet_Chip_giveBack (p : Nat) (f : PurFrame) (m : Chip) (h0 : P m) : P (Chip.giveBack p f m) := by
  unfold Chip.giveBack
  try dsimp only
  repeat'
    first
      | with_reducible
          first
            | assumption | apply fr_timeSet_Chip_linkSend K | apply keep_ite (P := P)
      | dsimp only | split | with_reducible refine fr_timeSet_lit K _ ?_ rfl rfl

theorem fr_timeSet_Chip_giveBackOpt (via : Option Nat) (f : PurFrame) (m : Chip) (h0 : P m) : P (Chip.giveBackOpt via f m) := by
  unfold Chip.giveBackOpt
  try dsimp only
  repeat'
    first
      | with_reducible
          first
            | assumption | apply fr_timeSet_Chip_giveBack K
      | split | dsimp only | with_reducible refine fr_timeSet_lit K _ ?_ rfl rfl

theorem fr_timeSet_Chip_purPump (p : Nat) (y0 : Nat) (y1 : Chip) (h0 : P y1) : P (Chip.purPump p y0 y1) := by
  induction y0 generalizing y1 with
  | zero => exact h0
  | succ n ih =>
    unfold Chip.purPump
    try dsimp only
    repeat'
      first
        | with_reducible
            first
              | assumption | apply ih | apply fr_timeSet_Chip_setPurPort K | apply fr_timeSet_Chip_purTx K
              | apply fr_timeSet_Chip_giveBackOpt K | apply keep_ite (P := P)
        | (intro _) | split | with_reducible refine fr_timeSet_lit K _ ?_ rfl rfl

theorem fr_timeSet_Chip_purFlush (p : Nat) (m : Chip) (h0 : P m) : P (Chip.purFlush p m) := by
  unfold Chip.purFlush
  try dsimp only
  repeat'
    first
      | with_reducible
          first
            | assumption | apply fr_timeSet_Chip_purPump K
      | dsimp only | split | with_reducible refine fr_timeSet_lit K _ ?_ rfl rfl

theorem fr_timeSet_Chip_mirrorOut (body : PurBody) (length : Nat) (m : Chip) (h0 : P m) : P (Chip.mirrorOut body length m) := by
  unfold Chip.mirrorOut
  try dsimp only
  repeat'
    first
      | with_reducible
          first
            | assumption | apply fr_timeSet_Chip_modPurPort K | apply fr_timeSet_Chip_purFlush K | apply keep_ite (P := P)
      | (intro _) | dsimp only | split | with_reducible refine fr_timeSet_lit K _ ?_ rfl rfl

theorem fr_timeSet_Chip_mirrorFrame (id : Nat) (r : MirrorRec) (m : Chip) (h0 : P m) : P (Chip.mirrorFrame id r m) := by
  unfold Chip.mirrorFrame
  try dsimp only
  repeat'
    first
      | with_reducible
          first
            | assumption | apply fr_timeSet_Chip_mirrorOut K
      | dsimp only | split | with_reducible refine fr_timeSet_lit K _ ?_ rfl rfl

theorem fr_timeSet_Chip_setQueue (m : Chip) (p : Nat) (q : List FEntry) (h0 : P m) : P (Chip.setQueue m p q) := K _ _ h0 rfl rfl

theorem fr_timeSet_Chip_mirrorSend (m : Chip) (r : MirrorRec) (h0 : P m) : P (Chip.mirrorSend m r) := by
  unfold Chip.mirrorSend
  try dsimp only
  repeat'
    first
      | with_reducible
          first
            | assumption | apply fr_timeSet_Chip_mirrorFrame K
      | dsimp only | split | with_reducible refine fr_timeSet_lit K _ ?_ rfl rfl

theorem fr_timeSet_Chip_entryCancelled (m : Chip) (e : FEntry) (h0 : P m) : P (Chip.entryCancelled m e) := by
  unfold Chip.entryCancelled
  try dsimp only
  repeat'
    first
      | with_reducible
          first
            | assumption | apply fr_timeSet_Chip_bump K | apply fr_timeSet_Chip_release K | apply fr_timeSet_Chip_mirrorSend K
            | apply keep_ite (P := P)
      | dsimp only | split | with_reducible refine fr_timeSet_lit K _ ?_ rfl rfl

theorem fr_timeSet_Chip_cancelIn (p : Nat) (c : FEntry → Bool) (m : Chip) (h0 : P m) : P (Chip.cancelIn p c m) := by
  unfold Chip.cancelIn
  try dsimp only
  repeat'
    first
      | with_reducible
          first
            | assumption | apply fr_timeSet_Chip_setQueue K | apply fr_timeSet_Chip_entryCancelled K | apply keep_forAll (P := P)
      | (intro _) | dsimp only | split | with_reducible refine fr_timeSet_lit K _ ?_ rfl rfl

theorem fr_timeSet_Chip_cancelAll (c : FEntry → Bool) (m : Chip) (h0 : P m) : P (Chip.cancelAll c m) := by
  unfold Chip.cancelAll
  try dsimp only
  repeat'
    first
      | with_reducible
          first
            | assumption | apply fr_timeSet_Chip_cancelIn K | apply keep_forAll (P := P)
      | (intro _) | dsimp only | split | with_reducible refine fr_timeSet_lit K _ ?_ rfl rfl

theorem fr_timeSet_Chip_dropResvs (c : Resv → Bool) (m : Chip) (h0 : P m) : P (Chip.dropResvs c m) := K _ _ h0 rfl rfl

theorem fr_timeSet_Chip_refreshOutputs (m : Chip) (h0 : P m) : P (Chip.refreshOutputs m) := by
  unfold Chip.refreshOutputs
  try dsimp only
  repeat'
    first
      | with_reducible
          first
            | assumption | apply fr_timeSet_Chip_put K | apply fr_timeSet_Chip_emit K | apply keep_foldl (P := P)
            | apply keep_foldl2 (P := P) | apply keep_ite (P := P)
      | (intro _) | dsimp only | split | with_reducible refine fr_timeSet_lit K _ ?_ rfl rfl

theorem fr_timeSet_Chip_setMode (new : Nat) (cause : Option Src) (m : Chip) (h0 : P m) : P (Chip.setMode new cause m) := by
  unfold Chip.setMode
  try dsimp only
  repeat'
    first
      | with_reducible
          first
            | assumption | apply fr_timeSet_Chip_put K
      | split | dsimp only | with_reducible refine fr_timeSet_lit K _ ?_ rfl rfl

theorem fr_timeSet_Chip_dropResume (m : Chip) (h0 : P m) : P (Chip.dropResume m) := K _ _ h0 rfl rfl

theorem fr_timeSet_Chip_enterSafe (cause : Option Src) (m : Chip) (h0 : P m) : P (Chip.enterSafe cause m) := by
  unfold Chip.enterSafe
  try dsimp only
  repeat'
    first
      | with_reducible
          first
            | assumption | apply fr_timeSet_Chip_bump K | apply fr_timeSet_Chip_cancelAll K | apply fr_timeSet_Chip_dropResvs K
            | apply fr_timeSet_Chip_refreshOutputs K | apply fr_timeSet_Chip_setMode K | apply fr_timeSet_Chip_dropResume K
            | apply keep_ite (P := P)
      | (intro _) | dsimp only | split | with_reducible refine fr_timeSet_lit K _ ?_ rfl rfl

theorem fr_timeSet_Chip_bucketEdge (c : Src) (m : Chip) (h0 : P m) : P (Chip.bucketEdge c m) := by
  unfold Chip.bucketEdge
  try dsimp only
  repeat'
    first
      | with_reducible
          first
            | assumption | apply fr_timeSet_Chip_put K | apply fr_timeSet_Chip_setFlag K | apply fr_timeSet_Chip_bump K
            | apply fr_timeSet_Chip_setSrc K | apply keep_ite (P := P)
      | split | dsimp only | with_reducible refine fr_timeSet_lit K _ ?_ rfl rfl

theorem fr_timeSet_Chip_severityAct (c : Src) (m : Chip) (h0 : P m) : P (Chip.severityAct c m) := by
  unfold Chip.severityAct
  try dsimp only
  repeat'
    first
      | with_reducible
          first
            | assumption | apply fr_timeSet_Chip_setBit K | apply fr_timeSet_Chip_emit K | apply fr_timeSet_Chip_log K
            | apply fr_timeSet_Chip_setSrc K | apply fr_timeSet_Chip_refreshOutputs K | apply fr_timeSet_Chip_enterSafe K
            | apply keep_ite (P := P)
      | dsimp only | split | with_reducible refine fr_timeSet_lit K _ ?_ rfl rfl

theorem fr_timeSet_Chip_raise (c : Src) (m : Chip) (h0 : P m) : P (Chip.raise c m) := by
  unfold Chip.raise
  try dsimp only
  repeat'
    first
      | with_reducible
          first
            | assumption | apply fr_timeSet_Chip_setBit K | apply fr_timeSet_Chip_bucketEdge K | apply fr_timeSet_Chip_severityAct K
      | dsimp only | split | with_reducible refine fr_timeSet_lit K _ ?_ rfl rfl

theorem fr_timeSet_Chip_deassert (c : Src) (m : Chip) (h0 : P m) : P (Chip.deassert c m) := K _ _ h0 rfl rfl

theorem fr_timeSet_Chip_onTime (f : TimeState → TimeState) (m : Chip) (h0 : P m) (e0 : ∀ x, (f x).tb0 = x.tb0) (e1 : ∀ x,
    (f x).lastStepAt = x.lastStepAt) : P (Chip.onTime f m) := K _ _ h0 (e0 _) (e1 _)

theorem fr_timeSet_Chip_setRef (i : Nat) (r : RefState) (m : Chip) (h0 : P m) : P (Chip.setRef i r m) := K _ _ h0 rfl rfl

theorem fr_timeSet_Chip_putValid (i : Nat) (v : Bool) (m : Chip) (h0 : P m) : P (Chip.putValid i v m) := K _ _ h0 rfl rfl

theorem fr_timeSet_Chip_putQual (i : Nat) (v : Bool) (m : Chip) (h0 : P m) : P (Chip.putQual i v m) := K _ _ h0 rfl rfl

theorem fr_timeSet_Chip_holdInc (m : Chip) (h0 : P m) : P (Chip.holdInc m).2 := by
  unfold Chip.holdInc
  try dsimp only
  repeat'
    first
      | with_reducible
          first
            | assumption | apply fr_timeSet_Chip_draw K | apply keep_foldl (P := P) | apply keep_foldl2 (P := P)
            | apply keep_ite (P := P)
      | (intro _) | dsimp only | split | with_reducible refine fr_timeSet_lit K _ ?_ rfl rfl

theorem fr_timeSet_Chip_putInc0 (v : Nat) (m : Chip) (h0 : P m) : P (Chip.putInc0 v m) := K _ _ h0 rfl rfl

theorem fr_timeSet_Chip_enterHold (m : Chip) (h0 : P m) : P (Chip.enterHold m) := by
  unfold Chip.enterHold
  try dsimp only
  repeat'
    first
      | with_reducible
          first
            | assumption | apply fr_timeSet_Chip_put K | apply fr_timeSet_Chip_bump K | apply fr_timeSet_Chip_holdInc K
            | apply fr_timeSet_Chip_putInc0 K | apply keep_ite (P := P)
      | (intro _)
      | (with_reducible refine fr_timeSet_Chip_onTime K _ _ ?_ ?_ ?_ ; rotate_left; all_goals first | exact fun _ => rfl | skip)
      | dsimp only | split | with_reducible refine fr_timeSet_lit K _ ?_ rfl rfl

theorem fr_timeSet_Chip_leaveHold (m : Chip) (h0 : P m) : P (Chip.leaveHold m) := K _ _ h0 rfl rfl

theorem fr_timeSet_Chip_noteQual (m : Chip) (h0 : P m) : P (Chip.noteQual m) := by
  unfold Chip.noteQual
  try dsimp only
  repeat'
    first
      | with_reducible
          first
            | assumption | apply fr_timeSet_Chip_deassert K | apply keep_ite (P := P)
      | (intro _)
      | (with_reducible refine fr_timeSet_Chip_onTime K _ _ ?_ ?_ ?_ ; rotate_left; all_goals first | exact fun _ => rfl | skip)
      | dsimp only | split | with_reducible refine fr_timeSet_lit K _ ?_ rfl rfl

theorem fr_timeSet_Chip_refRefresh (i : Nat) (m : Chip) (h0 : P m) : P (Chip.refRefresh i m) := by
  unfold Chip.refRefresh
  try dsimp only
  repeat'
    first
      | with_reducible
          first
            | assumption | apply fr_timeSet_Chip_setRef K | apply fr_timeSet_Chip_putValid K | apply fr_timeSet_Chip_putQual K
            | apply keep_ite (P := P)
      | dsimp only | split | with_reducible refine fr_timeSet_lit K _ ?_ rfl rfl

theorem fr_timeSet_Chip_leaveRef (c : Nat) (m : Chip) (h0 : P m) : P (Chip.leaveRef c m) := by
  unfold Chip.leaveRef
  try dsimp only
  repeat'
    first
      | with_reducible
          first
            | assumption | apply fr_timeSet_Chip_setRef K | apply fr_timeSet_Chip_putQual K | apply keep_ite (P := P)
      | dsimp only | split | with_reducible refine fr_timeSet_lit K _ ?_ rfl rfl

theorem fr_timeSet_Chip_commitRef (m : Chip) (h0 : P m) : P (Chip.commitRef m) := by
  unfold Chip.commitRef
  try dsimp only
  repeat'
    first
      | with_reducible
          first
            | assumption | apply fr_timeSet_Chip_put K | apply fr_timeSet_Chip_setFlag K | apply fr_timeSet_Chip_bump K
            | apply fr_timeSet_Chip_leaveHold K | apply fr_timeSet_Chip_noteQual K | apply fr_timeSet_Chip_refRefresh K
            | apply fr_timeSet_Chip_leaveRef K | apply keep_forAll (P := P) | apply keep_ite (P := P)
      | (intro _) | dsimp only | split | with_reducible refine fr_timeSet_lit K _ ?_ rfl rfl

theorem fr_timeSet_Chip_refEval (m : Chip) (h0 : P m) : P (Chip.refEval m) := by
  unfold Chip.refEval
  try dsimp only
  repeat'
    first
      | with_reducible
          first
            | assumption | apply fr_timeSet_Chip_put K | apply fr_timeSet_Chip_enterHold K | apply fr_timeSet_Chip_noteQual K
            | apply fr_timeSet_Chip_commitRef K | apply keep_ite (P := P)
      | dsimp only | split | with_reducible refine fr_timeSet_lit K _ ?_ rfl rfl

theorem fr_timeSet_Chip_refsUpdate (m : Chip) (h0 : P m) : P (Chip.refsUpdate m) := by
  unfold Chip.refsUpdate
  try dsimp only
  repeat'
    first
      | with_reducible
          first
            | assumption | apply fr_timeSet_Chip_refRefresh K | apply fr_timeSet_Chip_refEval K | apply keep_forAll (P := P)
      | (intro _) | dsimp only | split | with_reducible refine fr_timeSet_lit K _ ?_ rfl rfl

theorem fr_timeSet_Chip_refStart (m : Chip) (h0 : P m) : P (Chip.refStart m) := by
  unfold Chip.refStart
  try dsimp only
  repeat'
    first
      | with_reducible
          first
            | assumption | apply fr_timeSet_Chip_put K | apply fr_timeSet_Chip_enterHold K | apply fr_timeSet_Chip_noteQual K
            | apply fr_timeSet_Chip_refRefresh K | apply keep_forAll (P := P) | apply keep_ite (P := P)
      | (intro _) | dsimp only | split | with_reducible refine fr_timeSet_lit K _ ?_ rfl rfl

end

theorem eq_timeSet_Chip_raise (c : Src) (m : Chip) : (Chip.raise c m).time.tb0 = m.time.tb0 ∧ (Chip.raise c m).time.lastStepAt =
    m.time.lastStepAt :=
  fr_timeSet_Chip_raise (P := fun z => z.time.tb0 = m.time.tb0 ∧ z.time.lastStepAt = m.time.lastStepAt) (fun _ _ h e0 e1 =>
      ⟨e0.trans h.1, e1.trans h.2⟩) c m ⟨rfl, rfl⟩

theorem eq_timeSet_Chip_refsUpdate (m : Chip) : (Chip.refsUpdate m).time.tb0 = m.time.tb0 ∧ (Chip.refsUpdate m).time.lastStepAt =
    m.time.lastStepAt :=
  fr_timeSet_Chip_refsUpdate (P := fun z => z.time.tb0 = m.time.tb0 ∧ z.time.lastStepAt = m.time.lastStepAt) (fun _ _ h e0 e1 =>
      ⟨e0.trans h.1, e1.trans h.2⟩) m ⟨rfl, rfl⟩

theorem eq_timeSet_Chip_refStart (m : Chip) : (Chip.refStart m).time.tb0 = m.time.tb0 ∧ (Chip.refStart m).time.lastStepAt =
    m.time.lastStepAt :=
  fr_timeSet_Chip_refStart (P := fun z => z.time.tb0 = m.time.tb0 ∧ z.time.lastStepAt = m.time.lastStepAt) (fun _ _ h e0 e1 =>
      ⟨e0.trans h.1, e1.trans h.2⟩) m ⟨rfl, rfl⟩

end Sys2Proof.Laws
end

