-- ==== Sys2Proof/Laws/Frames/TrustlidOpen.lean ====
section
/-!
SUPPORT. Sys2Proof/Laws/Frames/TrustlidOpen.lean: the operations that leave the lid alone, a lemma for each. `fr_…` carries a property that
depends on nothing else across the operation; `eq_…` says that it reads as before.
-/
namespace Sys2Proof.Laws
open Sys2Proof.Machine

section
variable {P : Chip → Prop} (K : ∀ a b : Chip, P a → b.trust.lidOpen = a.trust.lidOpen → P b)
include K

theorem fr_trustlidOpen_lit (m : Chip) {regs time encs fire pegs fio sup boot bays engs mem sramValid sramBad stick wit cams pocs pipes
    rowPipes replays screens pp tenon purlin latches fresh heads eth subs trust text hk nvLog out free} (h : P m) (e0 : trust.lidOpen =
        m.trust.lidOpen) : P (Chip.mk regs time encs fire pegs fio sup boot bays engs mem sramValid sramBad stick wit cams pocs pipes
            rowPipes replays screens pp tenon purlin latches fresh heads eth subs trust text hk nvLog out free) := K _ _ h e0

theorem fr_trustlidOpen_Chip_wr (m : Chip) (a : Nat) (v : Word) (h0 : P m) : P (Chip.wr m a v) := K _ _ h0 rfl

theorem fr_trustlidOpen_Chip_put (m : Chip) (f : Fld) (v : Nat) (h0 : P m) : P (Chip.put m f v) := K _ _ h0 rfl

theorem fr_trustlidOpen_Chip_markFresh (a i : Nat) (m : Chip) (h0 : P m) : P (Chip.markFresh a i m) := K _ _ h0 rfl

theorem fr_trustlidOpen_Chip_setFlag (m : Chip) (f : Fld) (h0 : P m) : P (Chip.setFlag m f) := K _ _ h0 rfl

theorem fr_trustlidOpen_Chip_bumpBy (m : Chip) (a n : Nat) (h0 : P m) : P (Chip.bumpBy m a n) := K _ _ h0 rfl

theorem fr_trustlidOpen_Chip_bump (m : Chip) (a : Nat) (h0 : P m) : P (Chip.bump m a) := K _ _ h0 rfl

theorem fr_trustlidOpen_Chip_setBit (m : Chip) (a i : Nat) (h0 : P m) : P (Chip.setBit m a i) := K _ _ h0 rfl

theorem fr_trustlidOpen_Chip_emit (m : Chip) (e : Emit) (h0 : P m) : P (Chip.emit m e) := K _ _ h0 rfl

theorem fr_trustlidOpen_Chip_log (m : Chip) (what : String) (args : List Nat) (h0 : P m) : P (Chip.log m what args) := by
  unfold Chip.log
  try dsimp only
  repeat'
    first
      | with_reducible
          first
            | assumption | apply keep_ite (P := P)
      | dsimp only | split | with_reducible refine fr_trustlidOpen_lit K _ ?_ rfl

theorem fr_trustlidOpen_Chip_setSrc (m : Chip) (h i : Nat) (e : SrcState) (h0 : P m) : P (Chip.setSrc m h i e) := K _ _ h0 rfl

theorem fr_trustlidOpen_Chip_setCam (m : Chip) (n : Nat) (v : CamState) (h0 : P m) : P (Chip.setCam m n v) := K _ _ h0 rfl

theorem fr_trustlidOpen_Chip_setPipe (m : Chip) (n : Nat) (v : PipeState) (h0 : P m) : P (Chip.setPipe m n v) := K _ _ h0 rfl

theorem fr_trustlidOpen_Chip_setEng (m : Chip) (e : Engine) (v : EngState) (h0 : P m) : P (Chip.setEng m e v) := K _ _ h0 rfl

theorem fr_trustlidOpen_Chip_toSubs (m : Chip) (r : StreamRec) (h0 : P m) : P (Chip.toSubs m r) := by
  unfold Chip.toSubs
  try dsimp only
  repeat'
    first
      | with_reducible
          first
            | assumption | apply fr_trustlidOpen_Chip_bump K | apply keep_forAll (P := P)
      | (intro _) | dsimp only | split | with_reducible refine fr_trustlidOpen_lit K _ ?_ rfl

theorem fr_trustlidOpen_Chip_release (m : Chip) (r : ResultRec) (h0 : P m) : P (Chip.release m r) := by
  unfold Chip.release
  try dsimp only
  repeat'
    first
      | with_reducible
          first
            | assumption | apply fr_trustlidOpen_Chip_emit K | apply fr_trustlidOpen_Chip_toSubs K
      | dsimp only | split | with_reducible refine fr_trustlidOpen_lit K _ ?_ rfl

theorem fr_trustlidOpen_Chip_onPur (f : PurlinState → PurlinState) (m : Chip) (h0 : P m) : P (Chip.onPur f m) := K _ _ h0 rfl

theorem fr_trustlidOpen_Chip_setPurPort (p : Nat) (v : PurPort) (m : Chip) (h0 : P m) : P (Chip.setPurPort p v m) := K _ _ h0 rfl

theorem fr_trustlidOpen_Chip_modPurPort (p : Nat) (f : PurPort → PurPort) (m : Chip) (h0 : P m) : P (Chip.modPurPort p f m) :=
    K _ _ h0 rfl

theorem fr_trustlidOpen_Chip_purTx (p : Nat) (f : PurFrame) (m : Chip) (h0 : P m) : P (Chip.purTx p f m) := K _ _ h0 rfl

theorem fr_trustlidOpen_Chip_linkSend (p : Nat) (l : LinkRec) (m : Chip) (h0 : P m) : P (Chip.linkSend p l m) := K _ _ h0 rfl

theorem fr_trustlidOpen_Chip_giveBack (p : Nat) (f : PurFrame) (m : Chip) (h0 : P m) : P (Chip.giveBack p f m) := by
  unfold Chip.giveBack
  try dsimp only
  repeat'
    first
      | with_reducible
          first
            | assumption | apply fr_trustlidOpen_Chip_linkSend K | apply keep_ite (P := P)
      | dsimp only | split | with_reducible refine fr_trustlidOpen_lit K _ ?_ rfl

theorem fr_trustlidOpen_Chip_giveBackOpt (via : Option Nat) (f : PurFrame) (m : Chip) (h0 : P m) : P (Chip.giveBackOpt via f m) := by
  unfold Chip.giveBackOpt
  try dsimp only
  repeat'
    first
      | with_reducible
          first
            | assumption | apply fr_trustlidOpen_Chip_giveBack K
      | split | dsimp only | with_reducible refine fr_trustlidOpen_lit K _ ?_ rfl

theorem fr_trustlidOpen_Chip_purPump (p : Nat) (y0 : Nat) (y1 : Chip) (h0 : P y1) : P (Chip.purPump p y0 y1) := by
  induction y0 generalizing y1 with
  | zero => exact h0
  | succ n ih =>
    unfold Chip.purPump
    try dsimp only
    repeat'
      first
        | with_reducible
            first
              | assumption | apply ih | apply fr_trustlidOpen_Chip_setPurPort K | apply fr_trustlidOpen_Chip_purTx K
              | apply fr_trustlidOpen_Chip_giveBackOpt K | apply keep_ite (P := P)
        | (intro _) | split | with_reducible refine fr_trustlidOpen_lit K _ ?_ rfl

theorem fr_trustlidOpen_Chip_purFlush (p : Nat) (m : Chip) (h0 : P m) : P (Chip.purFlush p m) := by
  unfold Chip.purFlush
  try dsimp only
  repeat'
    first
      | with_reducible
          first
            | assumption | apply fr_trustlidOpen_Chip_purPump K
      | dsimp only | split | with_reducible refine fr_trustlidOpen_lit K _ ?_ rfl

theorem fr_trustlidOpen_Chip_mirrorOut (body : PurBody) (length : Nat) (m : Chip) (h0 : P m) : P (Chip.mirrorOut body length m) := by
  unfold Chip.mirrorOut
  try dsimp only
  repeat'
    first
      | with_reducible
          first
            | assumption | apply fr_trustlidOpen_Chip_modPurPort K | apply fr_trustlidOpen_Chip_purFlush K | apply keep_ite (P := P)
      | (intro _) | dsimp only | split | with_reducible refine fr_trustlidOpen_lit K _ ?_ rfl

theorem fr_trustlidOpen_Chip_mirrorFrame (id : Nat) (r : MirrorRec) (m : Chip) (h0 : P m) : P (Chip.mirrorFrame id r m) := by
  unfold Chip.mirrorFrame
  try dsimp only
  repeat'
    first
      | with_reducible
          first
            | assumption | apply fr_trustlidOpen_Chip_mirrorOut K
      | dsimp only | split | with_reducible refine fr_trustlidOpen_lit K _ ?_ rfl

theorem fr_trustlidOpen_Chip_setQueue (m : Chip) (p : Nat) (q : List FEntry) (h0 : P m) : P (Chip.setQueue m p q) := K _ _ h0 rfl

theorem fr_trustlidOpen_Chip_mirrorSend (m : Chip) (r : MirrorRec) (h0 : P m) : P (Chip.mirrorSend m r) := by
  unfold Chip.mirrorSend
  try dsimp only
  repeat'
    first
      | with_reducible
          first
            | assumption | apply fr_trustlidOpen_Chip_mirrorFrame K
      | dsimp only | split | with_reducible refine fr_trustlidOpen_lit K _ ?_ rfl

theorem fr_trustlidOpen_Chip_entryCancelled (m : Chip) (e : FEntry) (h0 : P m) : P (Chip.entryCancelled m e) := by
  unfold Chip.entryCancelled
  try dsimp only
  repeat'
    first
      | with_reducible
          first
            | assumption | apply fr_trustlidOpen_Chip_bump K | apply fr_trustlidOpen_Chip_release K
            | apply fr_trustlidOpen_Chip_mirrorSend K | apply keep_ite (P := P)
      | dsimp only | split | with_reducible refine fr_trustlidOpen_lit K _ ?_ rfl

theorem fr_trustlidOpen_Chip_cancelIn (p : Nat) (c : FEntry → Bool) (m : Chip) (h0 : P m) : P (Chip.cancelIn p c m) := by
  unfold Chip.cancelIn
  try dsimp only
  repeat'
    first
      | with_reducible
          first
            | assumption | apply fr_trustlidOpen_Chip_setQueue K | apply fr_trustlidOpen_Chip_entryCancelled K
            | apply keep_forAll (P := P)
      | (intro _) | dsimp only | split | with_reducible refine fr_trustlidOpen_lit K _ ?_ rfl

theorem fr_trustlidOpen_Chip_cancelAll (c : FEntry → Bool) (m : Chip) (h0 : P m) : P (Chip.cancelAll c m) := by
  unfold Chip.cancelAll
  try dsimp only
  repeat'
    first
      | with_reducible
          first
            | assumption | apply fr_trustlidOpen_Chip_cancelIn K | apply keep_forAll (P := P)
      | (intro _) | dsimp only | split | with_reducible refine fr_trustlidOpen_lit K _ ?_ rfl

theorem fr_trustlidOpen_Chip_dropResvs (c : Resv → Bool) (m : Chip) (h0 : P m) : P (Chip.dropResvs c m) := K _ _ h0 rfl

theorem fr_trustlidOpen_Chip_refreshOutputs (m : Chip) (h0 : P m) : P (Chip.refreshOutputs m) := by
  unfold Chip.refreshOutputs
  try dsimp only
  repeat'
    first
      | with_reducible
          first
            | assumption | apply fr_trustlidOpen_Chip_put K | apply fr_trustlidOpen_Chip_emit K | apply keep_foldl (P := P)
            | apply keep_foldl2 (P := P) | apply keep_ite (P := P)
      | (intro _) | dsimp only | split | with_reducible refine fr_trustlidOpen_lit K _ ?_ rfl

theorem fr_trustlidOpen_Chip_setMode (new : Nat) (cause : Option Src) (m : Chip) (h0 : P m) : P (Chip.setMode new cause m) := by
  unfold Chip.setMode
  try dsimp only
  repeat'
    first
      | with_reducible
          first
            | assumption | apply fr_trustlidOpen_Chip_put K
      | split | dsimp only | with_reducible refine fr_trustlidOpen_lit K _ ?_ rfl

theorem fr_trustlidOpen_Chip_dropResume (m : Chip) (h0 : P m) : P (Chip.dropResume m) := K _ _ h0 rfl

theorem fr_trustlidOpen_Chip_enterSafe (cause : Option Src) (m : Chip) (h0 : P m) : P (Chip.enterSafe cause m) := by
  unfold Chip.enterSafe
  try dsimp only
  repeat'
    first
      | with_reducible
          first
            | assumption | apply fr_trustlidOpen_Chip_bump K | apply fr_trustlidOpen_Chip_cancelAll K
            | apply fr_trustlidOpen_Chip_dropResvs K | apply fr_trustlidOpen_Chip_refreshOutputs K
            | apply fr_trustlidOpen_Chip_setMode K | apply fr_trustlidOpen_Chip_dropResume K | apply keep_ite (P := P)
      | (intro _) | dsimp only | split | with_reducible refine fr_trustlidOpen_lit K _ ?_ rfl

theorem fr_trustlidOpen_Chip_bucketEdge (c : Src) (m : Chip) (h0 : P m) : P (Chip.bucketEdge c m) := by
  unfold Chip.bucketEdge
  try dsimp only
  repeat'
    first
      | with_reducible
          first
            | assumption | apply fr_trustlidOpen_Chip_put K | apply fr_trustlidOpen_Chip_setFlag K | apply fr_trustlidOpen_Chip_bump K
            | apply fr_trustlidOpen_Chip_setSrc K | apply keep_ite (P := P)
      | split | dsimp only | with_reducible refine fr_trustlidOpen_lit K _ ?_ rfl

theorem fr_trustlidOpen_Chip_severityAct (c : Src) (m : Chip) (h0 : P m) : P (Chip.severityAct c m) := by
  unfold Chip.severityAct
  try dsimp only
  repeat'
    first
      | with_reducible
          first
            | assumption | apply fr_trustlidOpen_Chip_setBit K | apply fr_trustlidOpen_Chip_emit K | apply fr_trustlidOpen_Chip_log K
            | apply fr_trustlidOpen_Chip_setSrc K | apply fr_trustlidOpen_Chip_refreshOutputs K | apply fr_trustlidOpen_Chip_enterSafe K
            | apply keep_ite (P := P)
      | dsimp only | split | with_reducible refine fr_trustlidOpen_lit K _ ?_ rfl

theorem fr_trustlidOpen_Chip_raise (c : Src) (m : Chip) (h0 : P m) : P (Chip.raise c m) := by
  unfold Chip.raise
  try dsimp only
  repeat'
    first
      | with_reducible
          first
            | assumption | apply fr_trustlidOpen_Chip_setBit K | apply fr_trustlidOpen_Chip_bucketEdge K
            | apply fr_trustlidOpen_Chip_severityAct K
      | dsimp only | split | with_reducible refine fr_trustlidOpen_lit K _ ?_ rfl

theorem fr_trustlidOpen_Chip_clearCm (m : Chip) (h0 : P m) : P (Chip.clearCm m) := K _ _ h0 rfl

theorem fr_trustlidOpen_Chip_onTrust (f : TrustState → TrustState) (m : Chip) (h0 : P m) (e : ∀ x, (f x).lidOpen =
    x.lidOpen) : P (Chip.onTrust f m) := K _ _ h0 (e _)

theorem fr_trustlidOpen_Chip_replaceKeys (m : Chip) (h0 : P m) : P (Chip.replaceKeys m) := by
  unfold Chip.replaceKeys
  try dsimp only
  repeat'
    first
      | with_reducible
          first
            | assumption | apply fr_trustlidOpen_Chip_put K | apply fr_trustlidOpen_Chip_setFlag K | apply fr_trustlidOpen_Chip_setCam K
            | apply fr_trustlidOpen_Chip_setPipe K | apply fr_trustlidOpen_Chip_clearCm K | apply keep_forAll (P := P)
            | apply keep_ite (P := P)
      | (intro _) | dsimp only | split | with_reducible refine fr_trustlidOpen_lit K _ ?_ rfl

theorem fr_trustlidOpen_Chip_pinsFall (m : Chip) (h0 : P m) : P (Chip.pinsFall m) := by
  unfold Chip.pinsFall
  try dsimp only
  repeat' (first | with_reducible assumption | (intro _) | with_reducible apply fr_trustlidOpen_Chip_emit K
                 | with_reducible apply keep_forAll (P := P) | with_reducible apply keep_ite (P := P)
                 | with_reducible apply keep_foldl (P := P) | with_reducible apply keep_foldl2 (P := P) | dsimp only | split
                 | with_reducible refine fr_trustlidOpen_lit K _ ?_ rfl)

theorem fr_trustlidOpen_Chip_blank (m0 : Chip) (h0 : P m0) : P (Chip.blank m0) := by
  unfold Chip.blank
  try dsimp only
  repeat'
    first
      | with_reducible
          first
            | assumption | apply fr_trustlidOpen_Chip_pinsFall K | apply keep_ite (P := P)
      | (intro _) | dsimp only | split | with_reducible refine fr_trustlidOpen_lit K _ ?_ rfl

theorem fr_trustlidOpen_Chip_showLid (m : Chip) (h0 : P m) : P (Chip.showLid m) := K _ _ h0 rfl

theorem fr_trustlidOpen_Chip_noteRestart (was : Bool) (m : Chip) (h0 : P m) : P (Chip.noteRestart was m) := by
  unfold Chip.noteRestart
  try dsimp only
  repeat'
    first
      | with_reducible
          first
            | assumption | apply fr_trustlidOpen_Chip_setFlag K | apply fr_trustlidOpen_Chip_bump K | apply keep_ite (P := P)
      | dsimp only | split | with_reducible refine fr_trustlidOpen_lit K _ ?_ rfl

theorem fr_trustlidOpen_Chip_coldReset (cause : Nat) (m0 : Chip) (h0 : P m0) : P (Chip.coldReset cause m0) := by
  unfold Chip.coldReset
  try dsimp only
  repeat'
    first
      | with_reducible
          first
            | assumption | apply fr_trustlidOpen_Chip_wr K | apply fr_trustlidOpen_Chip_put K | apply fr_trustlidOpen_Chip_bump K
            | apply fr_trustlidOpen_Chip_log K | apply fr_trustlidOpen_Chip_setEng K | apply fr_trustlidOpen_Chip_blank K
            | apply fr_trustlidOpen_Chip_showLid K | apply fr_trustlidOpen_Chip_noteRestart K | apply keep_forAll (P := P)
      | (intro _) | dsimp only | split | with_reducible refine fr_trustlidOpen_lit K _ ?_ rfl

theorem fr_trustlidOpen_Chip_tamperAct (resp : Nat) (m : Chip) (h0 : P m) : P (Chip.tamperAct resp m) := by
  unfold Chip.tamperAct
  try dsimp only
  repeat'
    first
      | with_reducible
          first
            | assumption | apply fr_trustlidOpen_Chip_replaceKeys K | apply fr_trustlidOpen_Chip_coldReset K | apply keep_ite (P := P)
      | (intro _) | (with_reducible refine fr_trustlidOpen_Chip_onTrust K _ _ ?_ ?_; rotate_left; exact fun _ => rfl) | dsimp only
      | split | with_reducible refine fr_trustlidOpen_lit K _ ?_ rfl

end

theorem eq_trustlidOpen_Chip_log (m : Chip) (what : String) (args : List Nat) : (Chip.log m what args).trust.lidOpen =
    m.trust.lidOpen :=
  fr_trustlidOpen_Chip_log (P := fun z => z.trust.lidOpen = m.trust.lidOpen) (fun _ _ h e => e.trans h) m what args rfl

theorem eq_trustlidOpen_Chip_raise (c : Src) (m : Chip) : (Chip.raise c m).trust.lidOpen = m.trust.lidOpen :=
  fr_trustlidOpen_Chip_raise (P := fun z => z.trust.lidOpen = m.trust.lidOpen) (fun _ _ h e => e.trans h) c m rfl

theorem eq_trustlidOpen_Chip_tamperAct (resp : Nat) (m : Chip) : (Chip.tamperAct resp m).trust.lidOpen = m.trust.lidOpen :=
  fr_trustlidOpen_Chip_tamperAct (P := fun z => z.trust.lidOpen = m.trust.lidOpen) (fun _ _ h e => e.trans h) resp m rfl

end Sys2Proof.Laws
end

