-- ==== Sys2Proof/Tests/Slice0.lean ====
section
/-!
SUPPORT. Sys2Proof/Tests/Slice0.lean: tests. The values come from the worked examples of the spec, from its formats or from public
standards; each `test_witness_…` shows, for one statement, states and operands that meet the hypotheses of each of its clauses.
-/
set_option Elab.async false
namespace Sys2Proof.Machine
open Sys2Proof.Laws

/-- A camera of one link on row 0. -/
def cam0 : CameraRec :=
  { master := 0, links := 1, row := 0, width := 4, planes := 1, bits := 0, trigCnt := 16 }
/-- A head of job 2. -/
def head0 : HeadRec := { head := 0, job := 2 }
/-- A text model of job 3 that knows "A", "B" and one special entry. -/
def text0 : TextRec := { job := 3, dict := [([65#8], false), ([66#8], false), ([67#8], true)], ends := [2], capacity := 1000 }
/-- A maintainer session with an open challenge. -/
def sess : Session := { id := 0, port := 0, level := 2, lastAt := 0, challenges := [(5, 0)] }
/-- The signature of that session over the challenge. -/
def auth : Auth := { session := 0, challenge := 5 }
/-- A foreground entry at the start of the bay. -/
def cut0 : CutEntry :=
  { kind := .foreground, job := 0, startCycle := 0, descPtr := 0, stageOffset := 0, wait := none, signal := none,
    lastInBay := false, batchGated := false, variableCount := false, preemptPoint := false, plannedEnd := 100 }
/-- A status frame. -/
def stat0 : StatusFrame := { active := true, seq := 0, nonce := 0, bankId := 0, flags := 0, slice := 0, faults := 0 }
/-- A HELLO record. -/
def hello0 : HelloRec := { id := 0, port := 0, group := 0, tag := 0, size := [], idHash := 0 }
/-- A story stick of one camera, one row and four jobs. -/
def stick0 : Stick :=
  { loaded := true, cameras := [cam0], heads := [head0], texts := [text0], hash := 7, version := 5,
    jobs := [{ job := 0, cls := 1, enable := true, verdict := true, rows := [0] }, { job := 1, cls := 2, enable := true },
             { job := 2, cls := 2, enable := true, adapt := true }, { job := 3, cls := 2, enable := true, text := true }],
    deps := [(1, 0)], rows := [{ row := 0 }], timeWait := 1 }
/-- An image. -/
def img0 : Image :=
  { imageLen := 0, recordsLen := 0, recordCount := 0, storeLen := 0, version := 0, fwMin := 0, ucode := 0, sizeReq := [],
    ownerHash := 0, serial := 0, pubHash := 0, signedHash := 0, ecdsaOk := true, mldsaOk := true, keysOk := true, heads := [],
    regs := [], content := {} }
/-- A module 10 s after reset, supplied and out of RESET_N, its registers 0. -/
def live : Chip :=
  { time := { tb0 := BitVec.ofNat 96 (10000000000 * 2 ^ 32),
              tb2 := BitVec.ofNat 96 (10000000000 * 2 ^ 32),
              tb3 := BitVec.ofNat 96 (10000000000 * 2 ^ 32) },
    stick := stick0, trust := { sessions := [sess] }, boot := { step := 10, optionDone := true } }
/-- A module with an empty queue. -/
def st (m : Chip) : State := { m, pending := [] }
/-- Instant zero after a state is that state. -/
theorem now {m : Chip} (h : m.supplied = true ∧ m.boot.inReset = false) : Now (st m) 0 m := ⟨h, (elapse_zero_eq m).symm⟩
theorem linked {m : Chip} (h : m.supplied = true ∧ m.boot.inReset = false) : Linked (st m) 0 (tnElapse 0 m) := ⟨h, rfl⟩
theorem starts {m : Chip} {e : Engine} {c : CutEntry} (h : m.ready e c = true ∧ m.skips e c = false) : Starts m e c := h
theorem calm {m : Chip} {e : Engine} (h : (m.eng e).bg = none ∧ m.sramBad = []) : Undisturbed m e := h
theorem canon {m : Chip} (h : tabWf 0 m.regs = true ∧ Memory.wf m.mem = true ∧ tabWf false m.sramValid = true) : Canon m := h
/-- The admission of a signed command, from closed facts. -/
theorem admitted {m : Chip} {l : List Nat} {o r : Bool} {a : Auth} {v : Session}
    (h : m.session a.session = some v ∧ v.level ≠ 0 ∧ (o = true ∨ 2 ≤ v.level) ∧ a.serialOk = true ∧
    (v.challenges.any fun c => c.1 == a.challenge && decide (m.now < c.2 + 60000000000)) = true
        ∧ a.sigOk = true ∧ m.trust.fuses.lifecycle ∈ l ∧ (r = true ∨ m.loading = false)) :
    Admitted m l o r a v := by
  obtain ⟨h1, h2, h3, h4, h5, h6⟩ := h
  refine ⟨h1, h2, h3, h4, ?_, h6⟩
  obtain ⟨c, hc, h⟩ := List.any_eq_true.1 h5
  simp at h
  exact ⟨c, hc, h.1, h.2⟩
/-- The module in the first microsecond of bay 40,000, its jobs applied; the pipeline depth is 2. -/
def inBay : Chip :=
  { live with regs := [], bays := { running := true, bay := 40000, startAt := 10000000000,
                                    jobs := [(0, { applied := true }), (2, { applied := true }), (3, { applied := true })] } }.put
    F.RC_BAY_CFG_depth 2
/-- A module whose engine `e` has the single entry `c` in its list of that bay. -/
def listed (e : Engine) (c : CutEntry) (m : Chip) : Chip := { m with stick := { m.stick with lists := [(e, 0, [encodeCut c])] } }
/-- A module with descriptor bytes at 0. -/
def desc (l : List (Nat × Nat)) (m : Chip) : Chip := { m with stick :=
  { m.stick with desc := l.map fun p => (p.1, BitVec.ofNat 8 p.2) } }
/-- The module in that bay, its engine `e` about to start its only entry; descriptor bytes at 0. -/
def withDesc (e : Engine) (l : List (Nat × Nat)) : Chip := listed e cut0 (desc l inBay)
/-- A firing entry. -/
def entry0 : FEntry :=
  { key := ⟨0, 0, 0, 0⟩, cOpen := 0, cClose := 1, port := 0, vFirst := 0, vLast := 0, shape := 0, cause := 0, row := 0, job := 0, closeBay := 0 }
/-- A strip that closed in the previous bay. -/
def closed0 : ClosedStrip :=
  { row := 0, strip := 0, closeBay := 39999, firstCount := 0, lastCount := 1, slot := some 0, jobs := [0], streams := [0] }
/-- A verdict group of that strip. -/
def group0 : VerdictGroup := { strip := 0, closeBay := 39999, stream := 0, row := 0, kind := 0, job := 0 }
/-- A MARKS frame. -/
def frame0 : MarksFrame := { key := 3, digest := 0, elements := 0, job := 0, gap := false, background := true, layers := [] }
/-- A mark set. -/
def set0 : MarkSet := { job := 0, key := 3, marks := [], background := true, relBay := 39998 }
/-- A command that runs. -/
def running0 : Running := { entry := cut0, closeBay := 40000, startedAt := 0 }
/-- A flit of one word. -/
def flit0 : TnFlit := { vc := 1, pos := 3, xfer := ⟨0, 0, 0, 0, 0, 0, 0⟩ }
/-- A DATA frame. -/
def purFrame0 : PurFrame := { body := .data ⟨0, 0, 0, 0, 5, 0, 0⟩ [], cls := 0, dst := 0, src := 1 }
/-- A training run. -/
def run0 : TrainRun := { runOf false 0 1 {} head0 with vs := [0], ms := [0] }
/-- A sample. -/
def sample0 : Sample := { head := 0, closeBay := 0, strip := 0, objId := 0, stream := 0, cls := 0 }
/-- An approval. -/
def approval0 : Approval := { hash := 0, weights := none, stick := 7 }
/-- A question. -/
def query0 : Query := { id := 0, session := 0, prompt := [] }
/-- A calibration record of a camera of 4 columns and one plane. -/
def calBytes : List Byte :=
  leBytes 4 9 ++ leBytes 2 4 ++ [1, 0] ++ leBytes 4 0x80 ++ leBytes 4 0x88 ++ leBytes 4 0x90 ++ [0, 0, 0, 0, 1] ++ List.replicate 0x77 0
/-- A module that has recorded line 0 and the snapshot of strip 0 of camera 0, with a replay row 8 on link 5 that takes channel 0. -/
def recorded : Chip :=
  (((((({ live with stick := { stick0 with regions := [⟨0, 0, 0, 4096⟩, ⟨1, 0, 4096, 4096⟩] } }.setCam 0 { lineRec := 1 }).setPipe
    0 { calA := some { id := 9, width := 4 }, snapRec := 1 }).put (F.LP_CFG_role 5) 1).put (F.LP_CFG_row 5) 8).put (F.LP_CFG_columns 5) 4).put
    (F.LP_CTRL_src_sel 5) 1)
/-- The gang of the replay row. -/
def gang8 : Gang := { master := 5, links := 1, row := 8, width := 4, planes := 1, position := 5 }
/-- A module with camera head 0 kept by job 2, which runs. -/
def heads0 : Chip := inBay.put (F.ADAPT_CFG_kind 0) 1
/-- A module whose Tenon link is as `t` says, in state `n`. -/
def tnWith (t : TenonState) (n : Nat) : Chip := { live with tenon := t }.put F.TN_STAT_state n
/-- A module in that bay whose Tenon link is up and as `t` says. -/
def tnInBay (t : TenonState) : Chip := { inBay with tenon := t }.put F.TN_STAT_state 2
/-- A strip that closed in that bay. -/
def strip40 : ClosedStrip := { closed0 with closeBay := 40000 }
/-- Where memory holds nothing, every element reads as that of the bits 0. -/
theorem empty_elem (m : Chip) (h : m.mem = [] ∧ m.sramBad = []) (g f k : Nat) : m.elemAt {} g f k = decElem f 0 := by
  have hb : ∀ a n, ofLeBytes (m.bytesAt a n) = 0 := by
    intro a n
    have : ∀ l : List Byte, (∀ b ∈ l, b = 0) → ofLeBytes l = 0 := by
      intro l
      induction l with
      | nil => intro _; rfl
      | cons b t ih =>
        intro hl
        rw [hl b (List.mem_cons_self ..)]
        show 0 + 256 * ofLeBytes t = 0
        rw [ih fun c hc => hl c (List.mem_cons_of_mem _ hc)]
    apply this
    intro b hm
    simp only [Chip.bytesAt, List.mem_map] at hm
    obtain ⟨i, -, rfl⟩ := hm
    simp [Chip.byteAt, h.1, h.2, tabGet]
  rw [Chip.elemAt, Chip.elemBits, readMem_none, hb]
  simp

/-! ### Well-formedness -/

/-- Commands that break one check each, part 1. -/
theorem test_ill_formed_refused_1 :
    (([
      .matmul 0 Config.bents cut0 {}, .combine 0 Config.bents cut0 {}, .vector 0 Config.bents cut0 { op := .add } {},
      .dmaCopy 0 Config.bents cut0 {}, .dmaClear 0 Config.bents cut0, .windowConv 0 Config.bents cut0 {},
      .windowMaxpool 0 Config.bents cut0 {}, .windowAvgpool 0 Config.bents cut0 {}, .windowUpsample 0 Config.bents cut0 {},
      .screen 0 Config.studs cut0 (Config.rows - 1) 0 [] none {}, .screen 0 (Config.studs - 1) cut0 Config.rows 0 [] none {},
      .screeningOutputRelease 0 Config.rows 0 cut0, .tenonDma 0 2 cut0 {} none, .purlinDma 0 Config.purlinPorts (4096 - 1) cut0 {},
      .purlinDma 0 (Config.purlinPorts - 1) 4096 cut0 {}, .gate 0 Config.bents cut0, .wake 0 Config.bents cut0, .adaptCommit 0 8,
      .jobCtrlWrite 0 Config.jobs 0, .cameraBringUp 0 Config.links {}, .discoveryPoll 0 Config.links false,
      .bringUpStepTimeout 0 Config.links, .bringUpRetry 0 Config.links, .cameraLinkLost 0 Config.links, .reconnect 0 Config.links,
      .linkHold 0 Config.links false, .pocFault 0 Config.links, .pocReenable 0 Config.links, .pocClear 0 Config.links,
      .triggerDue 0 Config.links {}, .lineComplete 0 Config.links [] {}, .lineTimeout 0 Config.links {},
      .controlAck 0 Config.links 0 0, .controlResend 0 Config.links, .cxpHeartbeat 0 Config.links,
      .triggerCounterAudit 0 Config.links .start] : List Instr).all fun i => !i.wf) = true := by
  decide +kernel

/-- Commands that break one check each, part 2. -/
theorem test_ill_formed_refused_2 :
    (([
      .cameraControlCommand 0 auth Config.links false 0 0, .calCaptureEnter 0 auth Config.links 0 0 0,
      .calCaptureLeave 0 auth Config.links, .stripClose 0 Config.rows, .syncReset 0 Config.links,
      .routeChangeWrite 0 auth Config.links 0 0, .calLoad 0 auth Config.links false [],
      .replayStart 0 auth Config.replayChannels (Config.links - 1) 0 0 0 0,
      .replayStart 0 auth (Config.replayChannels - 1) Config.links 0 0 0 0, .replayLine 0 Config.replayChannels {},
      .replayStop 0 Config.replayChannels, .overrunNotice 0 (Config.jobs - 1) 0 Config.rows 0 0,
      .overrunNotice 0 Config.jobs 0 (Config.rows - 1) 0 0, .slotSeal 0 Config.pegPorts, .forcedClose 0 Config.pegPorts (256 - 1),
      .forcedClose 0 (Config.pegPorts - 1) 256, .statusFrame 0 Config.pegPorts stat0, .statusDeadline 0 Config.pegPorts,
      .pegPortEn 0 Config.pegPorts false, .fullStateRequest 0 Config.pegPorts, .quadratureEdge 0 Config.encPorts false false,
      .toothEdge 0 Config.encPorts false, .toothWindowExpiry 0 Config.encPorts, .ssiSample 0 Config.encPorts 0 false,
      .beltStop 0 Config.encPorts, .encoderLineFault 0 Config.encPorts (3 - 1), .encoderLineFault 0 (Config.encPorts - 1) 3,
      .lineFaultClear 0 Config.encPorts (3 - 1), .lineFaultClear 0 (Config.encPorts - 1) 3, .indexEdge 0 Config.encPorts,
      .probeEdge 0 Config.encPorts 32, .probeEdge 0 (Config.encPorts - 1) (32 + 1), .probeSeqRead 0 Config.encPorts,
      .fieldInputEdge 0 32 false, .pairLong 0 8, .wireBreak 0 32] : List Instr).all fun i => !i.wf) = true := by
  decide +kernel

/-- Commands that break one check each, part 3. -/
theorem test_ill_formed_refused_3 :
    (([
      .wireBreakClear 0 32, .outputFault 0 17, .outputRetry 0 17 false, .fieldGroupUndervoltage 0 7, .flitReceived 0 2 false,
      .tenonNak 0 2, .tenonReplayTimeout 0 2, .tenonResponse 0 2, .purlinFrame 0 Config.purlinPorts 0 purFrame0,
      .purlinAck 0 4096 0 0, .purlinNak 0 4096 0 0, .purlinRto 0 4096 0, .hello 0 Config.purlinPorts hello0,
      .helloSend 0 Config.purlinPorts, .linkFrame 0 Config.purlinPorts {}, .purlinPortDown 0 Config.purlinPorts 0,
      .purlinTrain 0 Config.purlinPorts {}, .purlinAuthRetry 0 Config.purlinPorts {}, .purlinRekey 0 Config.purlinPorts,
      .lpiEntry 0 Config.purlinPorts, .wakeWindow 0 Config.purlinPorts 0 false false, .guardMiss 0 Config.purlinPorts,
      .purlinRetrain 0 Config.purlinPorts, .purlinHold 0 Config.purlinPorts false, .lpiReenable 0 Config.purlinPorts,
      .routeTableWrite 0 auth 0xFF000 0 0, .ptpMessage 0 Config.ethPorts 0 0 0 none, .tb0IncWrite 0 2 0,
      .referenceValidityChange 0 3 false, .referenceQualified 0 3, .sourceAssert 0 2 (128 - 1) 0 false,
      .sourceAssert 0 (2 - 1) 128 0 false, .bucketLeak 0 2 (128 - 1), .bucketLeak 0 (2 - 1) 128, .pendingAck 0 8 0,
      .selfFault 0 2 false] : List Instr).all fun i => !i.wf) = true := by
  decide +kernel

/-- Commands that break one check each, part 4. -/
theorem test_ill_formed_refused_4 :
    (([
      .raisedRestore 0 auth 2 (128 - 1), .raisedRestore 0 auth (2 - 1) 128, .domainPowerFail 0 60,
      .sessionOpen 0 Config.ethPorts 0 0 false, .label 0 0 8 0 none, .question 0 0 Config.jobs [] 0 0 0 0 0,
      .tokenGenerate 0 Config.jobs [] false, .ethFrame 0 Config.ethPorts false 0, .ethLinkDown 0 Config.ethPorts,
      .ethTsPop 0 Config.ethPorts, .trainStart 0 auth 8 0 0 {} false {}, .trainingStep 0 8 [] [], .adaptStop 0 8,
      .approveHead 0 auth 8 0 0, .revertHead 0 auth 8, .classPrompt 0 auth 8 0 [] {}, .scrubLap 0 Config.bents {},
      .fanTachLoss 0 4, .fanTimer 0 4 none, .fanRetry 0 4, .i2cTransaction 0 2 0 false none none, .smbusTimeout 0 2,
      .busStuck 0 2 false none, .i2cRecoveryRetry 0 2 false none, .fieldGroupSupplyReturn 0 7,
      .uncorrectableCodeword 0 Config.purlinPorts false, .purlinTrainRetry 0 Config.purlinPorts, .ethLinkUp 0 Config.ethPorts,
      .ptpDelayRequest 0 Config.ethPorts 0 false, .commandComplete 0 (.purlinDma Config.purlinPorts) false,
      .backgroundWindow 0 (.bent Config.bents) cut0, .backgroundSegment 0 (.bent Config.bents) .clear,
      .segmentRollback 0 (.stud Config.studs), .streamPacket 0 { link := Config.links, tag := 0 },
      .verdictGroup 0 { group0 with row := Config.rows }, .verdictGroup 0 { group0 with job := Config.jobs }] : List Instr).all fun i => !i.wf) = true := by
  decide +kernel

/-- Commands with every bounded operand at the top of its range, part 1. -/
theorem test_well_formed_accepted_1 :
    (([
      .matmul 0 (Config.bents - 1) cut0 {}, .combine 0 (Config.bents - 1) cut0 {},
      .vector 0 (Config.bents - 1) cut0 { op := .add } {}, .dmaCopy 0 (Config.bents - 1) cut0 {},
      .dmaClear 0 (Config.bents - 1) cut0, .windowConv 0 (Config.bents - 1) cut0 {}, .windowMaxpool 0 (Config.bents - 1) cut0 {},
      .windowAvgpool 0 (Config.bents - 1) cut0 {}, .windowUpsample 0 (Config.bents - 1) cut0 {},
      .screen 0 (Config.studs - 1) cut0 (Config.rows - 1) 0 [] none {}, .screeningOutputRelease 0 (Config.rows - 1) 0 cut0,
      .tenonDma 0 (2 - 1) cut0 {} none, .purlinDma 0 (Config.purlinPorts - 1) (4096 - 1) cut0 {}, .gate 0 (Config.bents - 1) cut0,
      .wake 0 (Config.bents - 1) cut0, .adaptCommit 0 (8 - 1), .jobCtrlWrite 0 (Config.jobs - 1) 0,
      .cameraBringUp 0 (Config.links - 1) {}, .discoveryPoll 0 (Config.links - 1) false, .bringUpStepTimeout 0 (Config.links - 1),
      .bringUpRetry 0 (Config.links - 1), .cameraLinkLost 0 (Config.links - 1), .reconnect 0 (Config.links - 1),
      .linkHold 0 (Config.links - 1) false, .pocFault 0 (Config.links - 1), .pocReenable 0 (Config.links - 1),
      .pocClear 0 (Config.links - 1), .triggerDue 0 (Config.links - 1) {}, .lineComplete 0 (Config.links - 1) [] {},
      .lineTimeout 0 (Config.links - 1) {}, .controlAck 0 (Config.links - 1) 0 0, .controlResend 0 (Config.links - 1),
      .cxpHeartbeat 0 (Config.links - 1), .triggerCounterAudit 0 (Config.links - 1) .start,
      .cameraControlCommand 0 auth (Config.links - 1) false 0 0, .calCaptureEnter 0 auth (Config.links - 1) 0 0 0,
      .calCaptureLeave 0 auth (Config.links - 1), .stripClose 0 (Config.rows - 1), .syncReset 0 (Config.links - 1),
      .routeChangeWrite 0 auth (Config.links - 1) 0 0, .calLoad 0 auth (Config.links - 1) false [],
      .replayStart 0 auth (Config.replayChannels - 1) (Config.links - 1) 0 0 0 0, .replayLine 0 (Config.replayChannels - 1) {},
      .replayStop 0 (Config.replayChannels - 1), .overrunNotice 0 (Config.jobs - 1) 0 (Config.rows - 1) 0 0,
      .slotSeal 0 (Config.pegPorts - 1), .forcedClose 0 (Config.pegPorts - 1) (256 - 1),
      .statusFrame 0 (Config.pegPorts - 1) stat0, .statusDeadline 0 (Config.pegPorts - 1),
      .pegPortEn 0 (Config.pegPorts - 1) false, .fullStateRequest 0 (Config.pegPorts - 1),
      .quadratureEdge 0 (Config.encPorts - 1) false false, .toothEdge 0 (Config.encPorts - 1) false,
      .toothWindowExpiry 0 (Config.encPorts - 1), .ssiSample 0 (Config.encPorts - 1) 0 false, .beltStop 0 (Config.encPorts - 1),
      .encoderLineFault 0 (Config.encPorts - 1) (3 - 1), .lineFaultClear 0 (Config.encPorts - 1) (3 - 1),
      .indexEdge 0 (Config.encPorts - 1), .probeEdge 0 (Config.encPorts - 1) 32, .probeSeqRead 0 (Config.encPorts - 1),
      .fieldInputEdge 0 (32 - 1) false, .pairLong 0 (8 - 1)] : List Instr).all fun i => i.wf) = true := by
  decide +kernel

/-- Commands with every bounded operand at the top of its range, part 2. -/
theorem test_well_formed_accepted_2 :
    (([
      .wireBreak 0 (32 - 1), .wireBreakClear 0 (32 - 1), .outputFault 0 (17 - 1), .outputRetry 0 (17 - 1) false,
      .fieldGroupUndervoltage 0 (7 - 1), .flitReceived 0 (2 - 1) false, .tenonNak 0 (2 - 1), .tenonReplayTimeout 0 (2 - 1),
      .tenonResponse 0 (2 - 1), .purlinFrame 0 (Config.purlinPorts - 1) 0 purFrame0, .purlinAck 0 (4096 - 1) 0 0,
      .purlinNak 0 (4096 - 1) 0 0, .purlinRto 0 (4096 - 1) 0, .hello 0 (Config.purlinPorts - 1) hello0,
      .helloSend 0 (Config.purlinPorts - 1), .linkFrame 0 (Config.purlinPorts - 1) {},
      .purlinPortDown 0 (Config.purlinPorts - 1) 0, .purlinTrain 0 (Config.purlinPorts - 1) {},
      .purlinAuthRetry 0 (Config.purlinPorts - 1) {}, .purlinRekey 0 (Config.purlinPorts - 1),
      .lpiEntry 0 (Config.purlinPorts - 1), .wakeWindow 0 (Config.purlinPorts - 1) 0 false false,
      .guardMiss 0 (Config.purlinPorts - 1), .purlinRetrain 0 (Config.purlinPorts - 1),
      .purlinHold 0 (Config.purlinPorts - 1) false, .lpiReenable 0 (Config.purlinPorts - 1),
      .routeTableWrite 0 auth (0xFF000 - 1) 0 0, .ptpMessage 0 (Config.ethPorts - 1) 0 0 0 none, .tb0IncWrite 0 (2 - 1) 0,
      .referenceValidityChange 0 (3 - 1) false, .referenceQualified 0 (3 - 1), .sourceAssert 0 (2 - 1) (128 - 1) 0 false,
      .bucketLeak 0 (2 - 1) (128 - 1), .pendingAck 0 (8 - 1) 0, .selfFault 0 (2 - 1) false,
      .raisedRestore 0 auth (2 - 1) (128 - 1), .domainPowerFail 0 (60 - 1), .sessionOpen 0 (Config.ethPorts - 1) 0 0 false,
      .label 0 0 (8 - 1) 0 none, .question 0 0 (Config.jobs - 1) [] 0 0 0 0 0, .tokenGenerate 0 (Config.jobs - 1) [] false,
      .ethFrame 0 (Config.ethPorts - 1) false 0, .ethLinkDown 0 (Config.ethPorts - 1), .ethTsPop 0 (Config.ethPorts - 1),
      .trainStart 0 auth (8 - 1) 0 0 {} false {}, .trainingStep 0 (8 - 1) [] [], .adaptStop 0 (8 - 1),
      .approveHead 0 auth (8 - 1) 0 0, .revertHead 0 auth (8 - 1), .classPrompt 0 auth (8 - 1) 0 [] {},
      .scrubLap 0 (Config.bents - 1) {}, .fanTachLoss 0 (4 - 1), .fanTimer 0 (4 - 1) none, .fanRetry 0 (4 - 1),
      .i2cTransaction 0 (2 - 1) 0 false none none, .smbusTimeout 0 (2 - 1), .busStuck 0 (2 - 1) false none,
      .i2cRecoveryRetry 0 (2 - 1) false none, .fieldGroupSupplyReturn 0 (7 - 1),
      .uncorrectableCodeword 0 (Config.purlinPorts - 1) false, .purlinTrainRetry 0 (Config.purlinPorts - 1),
      .ethLinkUp 0 (Config.ethPorts - 1), .ptpDelayRequest 0 (Config.ethPorts - 1) 0 false] : List Instr).all fun i => i.wf) = true := by
  decide +kernel

/-- exec stops a command that names a unit the part does not have with a fault of that name. -/
theorem test_exec_faults : exec (.slotSeal 0 8) (st live) = .fault .noSuchUnit := rfl


/-! ### Arithmetic -/

/-- Ties go to the even neighbour on both sides of 0. -/
theorem test_rne_ties : [rneDiv 1 2, rneDiv 3 2, rneDiv (-1) 2, rneDiv (-3) 2, rneDiv 5 2] = [0, 2, 0, -2, 2] := by decide

/-- A count wraps at 48 bits, signed (R10). -/
theorem test_count_wraps : wrap48 (2 ^ 47) = -(2 ^ 47) ∧ wrap48 (-(2 ^ 47) - 1) = 2 ^ 47 - 1 := by decide

/-- FP8 E4M3: 0x7E is 448 and 0x7F NaN; E2M1: 7 is 6 (R158). -/
theorem test_small_formats :
    decElem 0x03 0x7E = .num ⟨448, 1⟩ ∧ decElem 0x03 0x7F = .nan ∧ decElem 0x0A 7 = .num ⟨6, 1⟩ ∧ decElem 0x04 0xFC = .inf true := by
  decide +kernel

/-- IEEE 754 single precision: 0.1 + 0.2, 1 / 3 and the root of 2. -/
theorem test_fp32 :
    addF32 0x3DCCCCCD 0x3E4CCCCD = 0x3E99999A ∧ divF32 0x3F800000 0x40400000 = 0x3EAAAAAB ∧ sqrtF32 0x40000000 = 0x3FB504F3 := by
  decide +kernel

/-- The split MX reduction of the chapter on the bents: block contributions at the anchor 255 (R163, R164). -/
theorem test_mx_blocks :
    ((blockContrib 255 130 125 [(.num ⟨51, 4⟩, .num ⟨1, 1⟩)]).v, (blockContrib 255 111 111 [(.num ⟨3, 1⟩, .num ⟨1, 1⟩)]).v,
      (blockContrib 255 111 111 [(.num ⟨1, 1⟩, .num ⟨1, 1⟩)]).v, (blockContrib 255 108 107 [(.num ⟨-200, 1⟩, .num ⟨1, 1⟩)]).v) =
      (54760833024, 2, 0, -1) := by
  decide +kernel

/-- Its sum, 25.5 + 2⁻³¹, rounds to the BF16 25.5. -/
theorem test_mx_output : (encElem 0x10 false (.num ⟨54760833025, 2 ^ 31⟩)).bits = 0x41CC := by decide +kernel

/-! ### The line pipelines -/

/-- The temporal settling example, N = 4: states and outputs of lines 1 to 5 (R97). -/
theorem test_temporal_settling :
    let s1 := temporalState 1 4 10000 0
    let s2 := temporalState 2 4 10400 s1
    let s3 := temporalState 3 4 9800 s2
    let s4 := temporalState 4 4 10200 s3
    let s5 := temporalState 5 4 10600 s4
    [s1, s2, s3, s4, s5] = [2560000, 2611200, 2577067, 2585600, 2617600] ∧
      ([s1, s2, s3, s4, s5].map fun (s : Nat) => rneDiv (s : Int) 256) = [10000, 10200, 10067, 10100, 10225] := by
  decide +kernel

/-- The first two cameras of the Tarnfell row: what they contribute, and their seam (R105, R106). -/
theorem test_row_geometry :
    let m := ((live.setPipe 0 { calA := some { x0 := -256, trimL := 256 } }).setPipe 2 { calA := some { x0 := 7424 } })
    let a : Gang := { master := 0, links := 2, row := 0, width := 8192, planes := 4, position := 0 }
    let b : Gang := { master := 2, links := 2, row := 0, width := 8192, planes := 4, position := 1 }
    m.contrib a = (0, 7935) ∧ m.contrib b = (7424, 15615) ∧ m.seam a b = 7680 := by
  decide +kernel

/-- A 2 × 2 block with a void pixel is void and keeps every flag (R108). -/
theorem test_quad_void :
    quadPix 1 ⟨0, [1]⟩ ⟨flagDefect, [2]⟩ ⟨flagVoid, [0]⟩ ⟨0, [4]⟩ = ⟨flagDefect + flagVoid, [0]⟩ ∧
      quadPix 1 ⟨0, [1]⟩ ⟨0, [2]⟩ ⟨0, [3]⟩ ⟨0, [4]⟩ = ⟨0, [3]⟩ := by
  decide +kernel

/-- The record and snapshot strides of a Belt 2 camera (R258): 4 planes of 8,192 pixels of 8 bits. -/
theorem test_record_strides :
    let c : CameraRec := { cam0 with width := 8192, planes := 4, bits := 0 }
    lineStride c = 32832 ∧ snapStride c = 131136 ∧ 7516192768 / lineStride c = 228928 := by
  decide +kernel

/-! ### Window operators, detections, attention -/

/-- The padding example: the taps −2, 5 and 6 of a line of 5 pixels (R187). -/
theorem test_padding :
    (tapAxis 0 5 (-2), tapAxis 1 5 (-2), tapAxis 2 5 (-2), tapAxis 3 5 (-2)) = (.none, .const, .at 0, .at 2) ∧
      (tapAxis 2 5 6, tapAxis 3 5 6, tapAxis 3 5 4) = (.at 4, .at 2, .at 4) ∧ outExtent 5 2 2 2 3 2 = 3 := by
  decide +kernel

/-- The duplicate from a crop: head 0's box is kept and head 1's suppressed (R202). -/
theorem test_duplicate_from_a_crop :
    let a : PpObj := { x1 := 92160, x2 := 99072, y1 := 80, y2 := 904, q := 58982, cls := 3, key := 0 }
    let b : PpObj := { x1 := 92176, x2 := 99088, y1 := 80, y2 := 904, q := 58982, cls := 3, key := 1 }
    suppresses 128 a b = true ∧ keepBy 128 [b, a] = [a] ∧ a.c0 = 23040 ∧ a.c1 = 24767 ∧ a.l0 = 20 ∧ a.l1 = 225 := by
  decide +kernel

/-- The KV ring slots of Tarnfell's context layer (R224). -/
theorem test_slot_sizes :
    let r : RingEnt := { base := 0, stride := 135424, nSlot := 17, tokens := 128, camera := 0, job := 1, heads := 8, dim := 64,
                         fmt := 0x06, maxScale := 0, ring := 0 }
    r.vOff = 67840 ∧ r.slotSize = 135424 := by
  decide +kernel

/-! ### Faults, trust, text -/

/-- The bucket of the loose connector (k = 13, N = 3) leaks every 2,730.7 ms (R458). -/
theorem test_bucket_leak :
    ((live.put (F.FLT_SRC_bkt_k 0 32) 13).put (F.FLT_SRC_bkt_n 0 32) 3).leakEvery ⟨0, 32⟩ = 2730666666 := by decide +kernel

/-- Retiring two sticks at Tarnfell: the counter goes from 5 to 7, and not above the version of the running stick (R523). -/
theorem test_anti_rollback :
    let m := { live with stick := { stick0 with version := 7 }, trust := { sessions := [sess], fuses := { counter := 5 } } }
    (antiRollbackAdvance 0 auth 7 2 m).trust.fuses.counter = 7 ∧ (antiRollbackAdvance 0 auth 8 3 m).trust.fuses.counter = 5 := by
  decide +kernel

/-- The longest match of the tokenizer (R556): the entries are, in order, "c", "o", "p", " ", "e", "co", "copp", "copper", " ore". -/
theorem test_longest_match :
    let d : List (List Byte × Bool) := [[99], [111], [112], [32], [101], [99, 111], [99, 111, 112, 112], [99, 111, 112, 112, 101, 114],
      [32, 111, 114, 101]].map fun l => (l.map (BitVec.ofNat 8), false)
    let t (l : List Nat) : List Nat := tokenise d 16 (l.map (BitVec.ofNat 8))
    t [99, 111, 112, 112, 101, 114, 32, 111, 114, 101] = [7, 8] ∧ t [99, 111, 112, 112, 101, 32, 111, 114, 101] = [6, 4, 8] := by
  decide +kernel

/-- The Unicode Standard's example of maximal subparts (R557): each becomes one U+FFFD. -/
theorem test_replacement :
    (utf8Release 20 ([0x61, 0xF1, 0x80, 0x80, 0xE1, 0x80, 0xC2, 0x62, 0x80, 0x63, 0x80, 0xBF, 0x64].map (BitVec.ofNat 8))).1 =
      [0x61#8] ++ replacement ++ replacement ++ replacement ++ [0x62#8] ++ replacement ++ [0x63#8] ++ replacement ++ replacement ++ [0x64#8] := by
  decide +kernel

/-! ### One step -/

/-- A rising and a falling edge of ENC_A with ENC_B low count up and down again (R348). -/
theorem test_quadrature :
    let m := live.put (F.ENC_CFG_mode 3) 1
    let t := quadratureEdge 0 3 true false m
    (t.enc 3).count = 1 ∧ ((quadratureEdge 0 3 false false t).enc 3).count = 0 := by
  decide +kernel

/-- A blocked fan is restarted 10 s after it stopped, and not before (the example of the jammed fan). -/
theorem test_fan_restart :
    let at_ (ns : Nat) : Chip := (live.put (F.HK_FAN_state 2) 4).onHk fun h => { h with fans := tabSet {} h.fans 2 { offAt := ns } }
    (fanTimer 0 2 none (at_ 0)).fanState 2 = 1 ∧ (fanTimer 0 2 none (at_ 1)).fanState 2 = 4 := by
  decide +kernel

/-- An idle step passes one cycle of the timing clock: 4 ns in each time base (R407). -/
theorem test_idle_step : (match step (st live) with | .next t => decide (t.m.now = live.now + 4) | _ => false) = true := by decide +kernel

/-- A command turned away because it names a unit that is not there changes nothing else: the queue's next command runs. -/
theorem test_step_takes_the_front :
    (match step { (st live) with pending := [.powerOn true 1 2, .kick 0] } with
      | .next t => decide (t.pending = [.kick 0]) | _ => false) = true := by
  decide +kernel

/-- No word spells a command: the table gives no row bits, so the queue stays as it is. -/
theorem test_no_word : decodeTableWord 32 0 = none ∧ (State.reset.withFetchWord 32 0).pending = [] := by decide +kernel

/-! ### Witnesses of the statements about the whole machine -/

theorem test_witness_AnEmptyQueueLetsOneCyclePass :
    ∃ s t : State, s.pending = [] ∧ Up s.m ∧ step s = .next t :=
  ⟨st live, _, rfl, ⟨by decide +kernel, by decide +kernel⟩, rfl⟩

theorem test_witness_StepRunsTheFrontCommand :
    ∃ (c : Instr) (q : List Instr) (s t : State), exec c { s with pending := q } = .next t :=
  ⟨.kick 0, [.kick 1], st live, _, rfl⟩

theorem test_witness_EveryStepKeepsTheTablesCanonical : ∃ s t : State, Canon s.m ∧ step s = .next t :=
  ⟨{ (st live) with pending := [.kick 0] }, _, canon (by decide +kernel), rfl⟩

theorem test_witness_WellFormedQueuesRunToTheirEnd : ∃ s t : State, s.queueWf ∧ step s = .next t :=
  ⟨{ (st live) with pending := [.kick 0, .slotSeal 0 7] }, _, by simp [State.queueWf, Instr.wf, Config.pegPorts], rfl⟩

theorem test_witness_CommandsCompleteExactlyWhenWellFormed :
    (∃ i : Instr, i.wf = false) ∧ ∃ (i : Instr) (s t : State), exec i s = .next t :=
  ⟨⟨.slotSeal 0 8, by decide +kernel⟩, .kick 0, st live, _, rfl⟩

theorem test_witness_OnlyTheSupplyActsWithoutPower :
    (∃ (i : Instr) (s t : State), ofSupply i = false ∧ exec i s = .next t ∧ s.m.supplied = false) ∧
      ∃ (i : Instr) (s t : State), ofSupply i = false ∧ exec i s = .next t ∧ s.m.supplied = true ∧ s.m.boot.inReset = true :=
  ⟨⟨.kick 0, st { live with boot := { mainInput := false } }, _, by decide +kernel, rfl, by decide +kernel⟩,
    .kick 0, st { live with boot := { inReset := true } }, _, by decide +kernel, rfl, by decide +kernel, by decide +kernel⟩

theorem test_witness_FusesNeverReturn : ∃ s t : State, step s = .next t :=
  ⟨{ (st live) with pending := [.antiRollbackAdvance 0 auth 5 5] }, _, rfl⟩

theorem test_witness_WhatIsSentAndLoggedStays : ∃ s t : State, step s = .next t :=
  ⟨{ (st live) with pending := [.slotSeal 0 0] }, _, rfl⟩

theorem test_witness_MarksAreOrderFreeSums :
    (∃ i v x y z : BitVec 64, x = (i * 0x9E3779B97F4A7C15) ^^^ (v * 0xC2B2AE3D27D4EB4F) ∧
      y = (x ^^^ (x >>> 31)) * 0xBF58476D1CE4E5B9 ∧ z = (y ^^^ (y >>> 27)) * 0x94D049BB133111EB) ∧
      ∃ l k : List (Nat × Nat), l.Perm k ∧ l ≠ k :=
  ⟨⟨1, 2, _, _, _, rfl, rfl, rfl⟩, [(1, 2), (3, 4)], [(3, 4), (1, 2)], by decide, by decide⟩

theorem test_witness_PlainWritesFollowTheAccessCodes :
    (∃ (m : Chip) (a : Nat) (r : RegRow) (i : Nat), Canon m ∧ m.unitUsed a = true ∧ regRowAt a = some r ∧ i < 32) ∧
      (∃ (m : Chip) (a x : Nat), Canon m ∧ x ≠ a) ∧ ∃ (m : Chip) (a : Nat), Canon m ∧ regRowAt a = none :=
  ⟨⟨live, R.SUP_CFG, _, 31, canon (by decide +kernel), by decide +kernel, rfl, by decide⟩,
    ⟨live, 0, 4, canon (by decide +kernel), by decide⟩, live, 3, canon (by decide +kernel), by decide +kernel⟩

theorem test_witness_MemoryHoldsWhatIsWritten :
    ∃ (m : Chip) (g : Nat) (l : List Byte) (x : Nat), Canon m ∧ (x < g ∨ g + l.length ≤ x) ∧ m.sramBad ≠ [] :=
  ⟨{ live with sramBad := [0] }, 1, [1#8, 2#8], 3, canon (by decide +kernel), by decide, by decide⟩

theorem test_witness_RoundingIsToTheNearestEven :
    (∃ (n : Int) (d : Nat), 0 < d ∧ 2 * (n - rneDiv n d * d).natAbs = d) ∧
      ∃ (w : Nat) (x : Int), 0 < w ∧ -((2 ^ (w - 1) : Nat) : Int) ≤ x ∧ x < ((2 ^ (w - 1) : Nat) : Int) :=
  ⟨⟨1, 2, by decide, by decide⟩, 1, -1, by decide, by decide, by decide⟩

theorem test_witness_TheBayIndexIsReadConsistently :
    ∃ (s t : State) (dt : Nat) (m x : Chip),
      Now s dt m ∧ m.bay < 2 ^ 64 ∧ exec (.readLoLatch dt R.RC_BAY_INDEX_LO) s = .next t ∧ x.latches = t.m.latches :=
  ⟨st { inBay with bays := { inBay.bays with bay := 2 ^ 64 - 1 } }, _, 0, _, _, now (by decide +kernel), by decide +kernel, rfl, rfl⟩

/-! ### Witnesses, clause by clause -/

theorem test_witness_ErrorOutputEdgesReachTheCollectors :
    (∃ (s : State) (dt : Nat) (m : Chip) (half : Nat) (num : Nat) (unit : Nat), Now s dt m ∧ half < 2 ∧ num < 128 ∧
      srcUsed half num = true ∧ ((m.errorOut ⟨half, num⟩ unit).src half num).asserting = false) ∧
    (∃ (s : State) (dt : Nat) (m : Chip) (half : Nat) (num : Nat), Now s dt m ∧ half < 2 ∧ num < 128 ∧ srcUsed half num = true ∧
      (m.src half num).asserting = false) ∧
    (∃ (s : State) (dt : Nat) (m : Chip) (half : Nat) (num : Nat), Now s dt m ∧ half < 2 ∧ num < 128 ∧ srcUsed half num = true ∧
      (m.src half num).asserting = true) ∧
    (∃ (s : State) (dt : Nat) (m : Chip), Now s dt m ∧ (m.src 0 0).asserting = false) ∧
    (∃ (s : State) (dt : Nat) (m : Chip), Now s dt m) :=
  ⟨(by refine ⟨st live, 0, live, 0, 0, 0, now (by decide +kernel), ?_, ?_, ?_, ?_⟩ <;> decide +kernel),
    (by refine ⟨st live, 0, live, 0, 0, now (by decide +kernel), ?_, ?_, ?_, ?_⟩ <;> decide +kernel),
    (by refine ⟨st (live.setSrc 1 32 { asserting := true }), 0, live.setSrc 1 32 { asserting := true }, 1, 32,
      now (by decide +kernel), ?_, ?_, ?_, ?_⟩ <;> decide +kernel),
    ⟨st live, 0, live, now (by decide +kernel), by decide +kernel⟩,
    ⟨st live, 0, live, now (by decide +kernel)⟩⟩

theorem test_witness_BucketsGraceAndAcknowledgements :
    (∃ (s : State) (dt : Nat) (m : Chip) (half : Nat) (num : Nat), Now s dt m ∧ half < 2 ∧ num < 128 ∧
      m.get (F.FLT_SRC_level half num) ≠ 0 ∧ (m.src half num).leakFrom + m.leakEvery ⟨half, num⟩ ≤ m.now) ∧
    (∃ (s : State) (dt : Nat) (m : Chip) (half : Nat) (num : Nat), Now s dt m ∧ half < 2 ∧ num < 128 ∧
      (m.get (F.FLT_SRC_level half num) = 0 ∨ m.now < (m.src half num).leakFrom + m.leakEvery ⟨half, num⟩)) ∧
    (∃ (s : State) (dt : Nat) (m : Chip) (c : Src), Now s dt m ∧ ((allSrcs.filter fun c => m.graceDue c) = [c])) ∧
    (∃ (s : State) (dt : Nat) (m : Chip), Now s dt m ∧ ((allSrcs.filter fun c => m.graceDue c) = [])) ∧
    (∃ (s : State) (dt : Nat) (m : Chip) (k : Nat) (mask : Nat), Now s dt m ∧ k < 8 ∧ mask < 2 ^ 32 ∧
      ((allSrcs.filter fun c => m.graceDue c) = [])) ∧
    (∃ (s : State) (dt : Nat) (m : Chip), Now s dt m ∧ m.sup.wdFrom + m.get F.SUP_CFG_wd_period * 1000000 ≤ m.now) ∧
    (∃ (s : State) (dt : Nat) (m : Chip), Now s dt m) :=
  ⟨(by refine ⟨st (live.put (F.FLT_SRC_level 1 127) 1), 0, live.put (F.FLT_SRC_level 1 127) 1, 1, 127, now (by decide +kernel), ?_,
    ?_, ?_, ?_⟩ <;> decide +kernel),
    (by refine ⟨st live, 0, live, 0, 0, now (by decide +kernel), ?_, ?_, ?_⟩ <;> decide +kernel),
    ⟨st (live.setBit (R.SUP_PEND 0) 4), 0, live.setBit (R.SUP_PEND 0) 4, ⟨0, 4⟩, now (by decide +kernel), by decide +kernel⟩,
    ⟨st live, 0, live, now (by decide +kernel), by decide +kernel⟩,
    (by refine ⟨st live, 0, live, 0, 0, now (by decide +kernel), ?_, ?_, ?_⟩ <;> decide +kernel),
    ⟨st live, 0, live, now (by decide +kernel), by decide +kernel⟩,
    ⟨st live, 0, live, now (by decide +kernel)⟩⟩

theorem test_witness_SupervisorEntersFireOutAndSafe :
    (∃ (s : State) (dt : Nat) (m : Chip), Now s dt m ∧ m.mode ≠ 3) ∧
    (∃ (s : State) (dt : Nat) (m : Chip), Now s dt m ∧ m.mode = 3) ∧
    (∃ (s : State) (dt : Nat) (m : Chip), Now s dt m ∧ m.mode < 2) ∧
    (∃ (s : State) (dt : Nat) (m : Chip), Now s dt m ∧ 2 ≤ m.mode) ∧
    (∃ (s : State) (dt : Nat) (m : Chip) (half : Nat), Now s dt m ∧ half < 2) ∧
    (∃ (s : State) (dt : Nat) (m : Chip) (mask : Nat), Now s dt m ∧ mask < 2 ^ 48) :=
  ⟨⟨st live, 0, live, now (by decide +kernel), by decide +kernel⟩,
    ⟨st (live.put F.SUP_MODE_mode 3), 0, live.put F.SUP_MODE_mode 3, now (by decide +kernel), by decide +kernel⟩,
    ⟨st live, 0, live, now (by decide +kernel), by decide +kernel⟩,
    ⟨st (live.put F.SUP_MODE_mode 2), 0, live.put F.SUP_MODE_mode 2, now (by decide +kernel), by decide +kernel⟩,
    ⟨st live, 0, live, 1, now (by decide +kernel), by decide +kernel⟩,
    ⟨st live, 0, live, 2 ^ 48 - 1, now (by decide +kernel), by decide +kernel⟩⟩

theorem test_witness_SignedSupervisorCommandsAct :
    (∃ (s : State) (dt : Nat) (m : Chip) (a : Auth) (v : Session), Now s dt m ∧ Admitted m [3] false false a v ∧
      ((consumed a v m).resumeOk = true) ∧ ((consumed a v m).acceptCmd a).resumeOk = true ∧
      ((consumed a v m).acceptCmd a).mode = 2) ∧
    (∃ (s : State) (dt : Nat) (m : Chip) (a : Auth) (v : Session) (half : Nat) (num : Nat), Now s dt m ∧ half < 2 ∧ num < 128 ∧
      Admitted m [3] false false a v) ∧
    (∃ (s : State) (dt : Nat) (m : Chip) (a : Auth) (v : Session), Now s dt m ∧ Admitted m [3] true false a v) ∧
    (∃ (s : State) (dt : Nat) (m : Chip) (a : Auth) (v : Session) (addr : Nat) (mask : Nat) (w : Nat) (x : Chip), Now s dt m ∧
      0xFD000 ≤ addr ∧ addr < 0xFF000 ∧ addr % 4 = 0 ∧ mask < 2 ^ 32 ∧ w < 2 ^ 32 ∧ Admitted m [3] false false a v ∧
      x = (consumed a v m).acceptCmd a ∧ (consumed a v m).tableBusy addr = false ∧ x.tableBusy addr = false ∧
      (addr - 0xFD000) / 0x1000 ≠ x.epoch) ∧
    (∃ (s : State) (dt : Nat) (m : Chip) (a : Auth) (v : Session) (addr : Nat) (mask : Nat) (w : Nat) (x : Chip), Now s dt m ∧
      0xFD000 ≤ addr ∧ addr < 0xFF000 ∧ addr % 4 = 0 ∧ mask < 2 ^ 32 ∧ w < 2 ^ 32 ∧ Admitted m [3] false false a v ∧
      x = (consumed a v m).acceptCmd a ∧ (consumed a v m).tableBusy addr = false ∧ (addr - 0xFD000) / 0x1000 = x.epoch) :=
  ⟨(by refine ⟨st (live.put F.SUP_MODE_mode 2), 0, live.put F.SUP_MODE_mode 2, auth, sess, now (by decide +kernel),
    admitted (by decide +kernel), ?_, ?_, ?_⟩ <;> decide +kernel),
    ⟨st live, 0, live, auth, sess, 1, 127, now (by decide +kernel), by decide +kernel, by decide +kernel,
      admitted (by decide +kernel)⟩,
    ⟨st live, 0, live, auth, sess, now (by decide +kernel), admitted (by decide +kernel)⟩,
    (by refine ⟨st live, 0, live, auth, sess, 0xFEFFC, 0xFFFFFFFF, 0, _, now (by decide +kernel), ?_, ?_, ?_, ?_, ?_,
      admitted (by decide +kernel), rfl, ?_, ?_, ?_⟩ <;> decide +kernel),
    (by refine ⟨st live, 0, live, auth, sess, 0xFDFFC, 0xFFFFFFFF, 0, _, now (by decide +kernel), ?_, ?_, ?_, ?_, ?_,
      admitted (by decide +kernel), rfl, ?_, ?_⟩ <;> decide +kernel)⟩

theorem test_witness_OwnerCommandsBlowFuses :
    (∃ (s : State) (dt : Nat) (m : Chip) (a : Auth) (v : Session), Now s dt m ∧ Admitted m [1] true false a v ∧
      (consumed a v m).inRecovery = true ∧ ((consumed a v m).acceptCmd a).inRecovery = true) ∧
    (∃ (s : State) (dt : Nat) (m : Chip) (a : Auth) (v : Session), Now s dt m ∧ Admitted m [3] true false a v ∧
      m.trust.fuses.active < 3) ∧
    (∃ (s : State) (dt : Nat) (m : Chip) (a : Auth) (v : Session), Now s dt m ∧ Admitted m [3] true false a v) ∧
    (∃ (s : State) (dt : Nat) (m : Chip) (a : Auth) (v : Session) (w : Nat), Now s dt m ∧ Admitted m [3] true false a v ∧
      m.trust.fuses.counter < w ∧ w ≤ 128 ∧ m.stick.loaded = true ∧ w ≤ m.stick.version) :=
  ⟨⟨st ({ live with trust := { sessions := [sess], fuses := { lifecycle := 1 } } }.put F.RP_BOOT_STAT_phase 8 |>.put F.RP_STRAP_boot_src 1),
    0,
    { live with trust := { sessions := [sess], fuses := { lifecycle := 1 } } }.put F.RP_BOOT_STAT_phase 8 |>.put F.RP_STRAP_boot_src 1,
    auth, sess, now (by decide +kernel), admitted (by decide +kernel), by decide +kernel, by decide +kernel⟩,
    ⟨st live, 0, live, auth, sess, now (by decide +kernel), admitted (by decide +kernel), by decide +kernel⟩,
    ⟨st live, 0, live, auth, sess, now (by decide +kernel), admitted (by decide +kernel)⟩,
    (by refine ⟨st live, 0, live, auth, sess, 5, now (by decide +kernel), admitted (by decide +kernel), ?_, ?_, ?_,
      ?_⟩ <;> decide +kernel)⟩

theorem test_witness_SecurityResponsesReplaceKeys :
    (∃ (s : State) (dt : Nat) (m : Chip) (a : Auth) (v : Session), Now s dt m ∧ Admitted m [3] false false a v) ∧
    (∃ (s : State) (dt : Nat) (m : Chip) (a : Auth) (v : Session), Now s dt m ∧ Admitted m [3] true false a v) ∧
    (∃ (s : State) (dt : Nat) (m : Chip) (a : Auth) (v : Session) (x : Chip) (y : Chip), Now s dt m ∧
      Admitted m [3] false false a v ∧ (consumed a v m).role = 2 ∧ (consumed a v m).flag F.SUP_MODE_took_over = true ∧
      x = ((consumed a v m).acceptCmd a) ∧ x.role = 2 ∧ x.flag F.SUP_MODE_took_over = true ∧
      (y = (((x.put F.FS_STAT_role 0).put F.PUR_MIRROR_CFG_mrole 0).onBoot fun b => { b with promoted := some x.stick.hash }).log "promoted" [])) ∧
    (∃ (s : State) (dt : Nat) (m : Chip) (a : Auth) (v : Session), Now s dt m ∧ Admitted m [3] false false a v ∧
      (consumed a v m).role = 2 ∧ (consumed a v m).flag F.SUP_MODE_took_over = true ∧ ((consumed a v m).acceptCmd a).role = 2 ∧
      ((consumed a v m).acceptCmd a).flag F.SUP_MODE_took_over = true) ∧
    (∃ (s : State) (dt : Nat) (m : Chip), Now s dt m ∧ m.trust.lidOpen = false) ∧
    (∃ (s : State) (dt : Nat) (m : Chip) (x : Chip), Now s dt m ∧ m.trust.lidOpen = false ∧
      (x = (((((m.onTrust fun t => { t with lidOpen := true }).put F.SEC_STAT_tamper_live 1).setFlag F.SEC_STAT_tamper_seen).bump R.SEC_CNT_TAMPER).log "tamper" []).raise ⟨0,
      11⟩)) ∧
    (∃ (s : State) (dt : Nat) (m : Chip), Now s dt m) :=
  ⟨⟨st live, 0, live, auth, sess, now (by decide +kernel), admitted (by decide +kernel)⟩,
    ⟨st ((live.put F.FS_STAT_role 2).put F.SUP_MODE_took_over 1), 0, (live.put F.FS_STAT_role 2).put F.SUP_MODE_took_over 1, auth,
      sess, now (by decide +kernel), admitted (by decide +kernel)⟩,
    (by refine ⟨st ((live.put F.FS_STAT_role 2).put F.SUP_MODE_took_over 1), 0,
      (live.put F.FS_STAT_role 2).put F.SUP_MODE_took_over 1, auth, sess, _, _, now (by decide +kernel),
      admitted (by decide +kernel), ?_, ?_, rfl, ?_, ?_, rfl⟩ <;> decide +kernel),
    (by refine ⟨st ((live.put F.FS_STAT_role 2).put F.SUP_MODE_took_over 1), 0,
      (live.put F.FS_STAT_role 2).put F.SUP_MODE_took_over 1, auth, sess, now (by decide +kernel), admitted (by decide +kernel), ?_,
      ?_, ?_, ?_⟩ <;> decide +kernel),
    ⟨st live, 0, live, now (by decide +kernel), by decide +kernel⟩,
    ⟨st live, 0, live, _, now (by decide +kernel), by decide +kernel, rfl⟩,
    ⟨st live, 0, live, now (by decide +kernel)⟩⟩

theorem test_witness_SessionsOpenAndClose :
    (∃ (s : State) (dt : Nat) (m : Chip) (p : Nat) (level : Nat) (certHash : Nat), Now s dt m ∧ p < Config.ethPorts ∧ level < 3 ∧
      m.get F.MB_STAT_fw_state ≠ 0 ∧ m.get (F.ETH_STAT_state p) = 1 ∧ m.trust.sessions.length < 8 ∧
      m.trust.revokedCerts.contains certHash = false) ∧
    (∃ (s : State) (dt : Nat) (m : Chip) (p : Nat) (level : Nat), Now s dt m ∧ p < Config.ethPorts ∧ level < 3 ∧
      8 ≤ m.trust.sessions.length) ∧
    (∃ (s : State) (dt : Nat) (m : Chip), Now s dt m) ∧
    (∃ (s : State) (dt : Nat) (m : Chip) (id : Nat) (v : Session), Now s dt m ∧ m.session id = some v ∧
      v.lastAt + 300000000000 ≤ m.now) ∧
    (∃ (s : State) (dt : Nat) (m : Chip) (id : Nat) (v : Session), Now s dt m ∧ m.session id = some v ∧
      m.now < v.lastAt + 300000000000) :=
  ⟨(by refine ⟨st ((live.put F.MB_STAT_fw_state 1).put (F.ETH_STAT_state 1) 1), 0,
    (live.put F.MB_STAT_fw_state 1).put (F.ETH_STAT_state 1) 1, 1, 2, 0, now (by decide +kernel), ?_, ?_, ?_, ?_, ?_,
    ?_⟩ <;> decide +kernel),
    (by refine ⟨st ({ live with trust := { sessions := List.replicate 8 sess } }), 0,
      { live with trust := { sessions := List.replicate 8 sess } }, 0, 2, now (by decide +kernel), ?_, ?_, ?_⟩ <;> decide +kernel),
    ⟨st live, 0, live, now (by decide +kernel)⟩,
    ⟨st ({ live with time := { live.time with tb2 := BitVec.ofNat 96 (300000000000 * 2 ^ 32) } }), 0,
      { live with time := { live.time with tb2 := BitVec.ofNat 96 (300000000000 * 2 ^ 32) } }, 0, sess, now (by decide +kernel),
      by decide +kernel, by decide +kernel⟩,
    ⟨st live, 0, live, 0, sess, now (by decide +kernel), by decide +kernel, by decide +kernel⟩⟩

theorem test_witness_SessionMessagesAreAnswered :
    (∃ (s : State) (dt : Nat) (m : Chip) (id : Nat) (v : Session), Now s dt m ∧ (m.touch id).session id = some v ∧ v.level ≠ 0 ∧
      (liveChallenges (m.touch id).now v).length < 16) ∧
    (∃ (s : State) (dt : Nat) (m : Chip) (id : Nat) (v : Session), Now s dt m ∧ (m.touch id).session id = some v ∧ v.level ≠ 0 ∧
      16 ≤ (liveChallenges (m.touch id).now v).length) ∧
    (∃ (s : State) (dt : Nat) (m : Chip) (id : Nat) (c : Nat) (v : Session) (r : Nat × Nat), Now s dt m ∧
      (m.touch id).session id = some v ∧ v.level ≠ 0 ∧ (((m.touch id).trust.results.find? fun r => r.1 == c) = some r)) ∧
    (∃ (s : State) (dt : Nat) (m : Chip) (id : Nat) (v : Session), Now s dt m ∧ (m.touch id).session id = some v) ∧
    (∃ (s : State) (dt : Nat) (m : Chip) (id : Nat) (first : Nat) (count : Nat) (v : Session) (l : List NvEntry), Now s dt m ∧
      (m.touch id).session id = some v ∧
      (l = (m.touch id).nvLog.filter fun e => decide (first ≤ e.seq) && decide (e.seq < first + count)) ∧ count ≠ 0 ∧ count ≤ 1024 ∧
      (m.touch id).get F.RP_STRAP_boot_src ≠ 2) ∧
    (∃ (s : State) (dt : Nat) (m : Chip) (id : Nat) (v : Session), Now s dt m ∧ m.session id = some v) :=
  ⟨(by refine ⟨st live, 0, live, 0, { sess with lastAt := 10000000000 }, now (by decide +kernel), ?_, ?_, ?_⟩ <;> decide +kernel),
    (by refine ⟨st ({ live with trust := { sessions := [{ sess with challenges := List.replicate 16 (0, 0) }] } }), 0,
      { live with trust := { sessions := [{ sess with challenges := List.replicate 16 (0, 0) }] } }, 0,
      { sess with lastAt := 10000000000, challenges := List.replicate 16 (0, 0) }, now (by decide +kernel), ?_, ?_,
      ?_⟩ <;> decide +kernel),
    (by refine ⟨st ({ live with trust := { sessions := [sess], results := [(9, 3)] } }), 0,
      { live with trust := { sessions := [sess], results := [(9, 3)] } }, 0, 9, { sess with lastAt := 10000000000 }, (9, 3),
      now (by decide +kernel), ?_, ?_, ?_⟩ <;> decide +kernel),
    ⟨st live, 0, live, 0, { sess with lastAt := 10000000000 }, now (by decide +kernel), by decide +kernel⟩,
    (by refine ⟨st live, 0, live, 0, 0, 1024, { sess with lastAt := 10000000000 }, _, now (by decide +kernel), ?_, rfl, ?_, ?_,
      ?_⟩ <;> decide +kernel),
    ⟨st live, 0, live, 0, sess, now (by decide +kernel), by decide +kernel⟩⟩

theorem test_witness_BoundaryScanDrivesPinsOnlyInSafeRecovery :
    (∃ (s : State) (dt : Nat) (m : Chip), Now s dt m ∧ m.inRecovery = true ∧ m.mode = 3) ∧
    (∃ (s : State) (dt : Nat) (m : Chip), Now s dt m ∧ (m.inRecovery = false ∨ m.mode ≠ 3)) ∧
    (∃ (s : State) (dt : Nat) (m : Chip), Now s dt m) :=
  ⟨⟨st (((live.put F.SUP_MODE_mode 3).put F.RP_BOOT_STAT_phase 8).put F.RP_STRAP_boot_src 1), 0,
    ((live.put F.SUP_MODE_mode 3).put F.RP_BOOT_STAT_phase 8).put F.RP_STRAP_boot_src 1, now (by decide +kernel), by decide +kernel,
    by decide +kernel⟩,
    ⟨st live, 0, live, now (by decide +kernel), by decide +kernel⟩,
    ⟨st live, 0, live, now (by decide +kernel)⟩⟩

theorem test_witness_RegistersAreReadAndWritten :
    (∃ (s : State) (dt : Nat) (m : Chip) (id : Nat) (a : Nat) (count : Nat) (v : Session) (r : List (Option Nat) × Chip),
      Now s dt m ∧ (m.touch id).session id = some v ∧ a % 4 = 0 ∧ a < 2 ^ 32 ∧ 1 ≤ count ∧ count ≤ 256 ∧
      (((upTo count).map fun i => a + 4 * i).all (fun x => !onRidge x) = true) ∧
      (r = (m.touch id).readWords ((upTo count).map fun i => a + 4 * i))) ∧
    (∃ (s : State) (dt : Nat) (m : Chip) (id : Nat) (a : Nat) (count : Nat) (v : Session) (r : List (Option Nat) × Chip) (as_ : List Nat) (reqs : List TnReq),
      Now s dt m ∧ (m.touch id).session id = some v ∧ a % 4 = 0 ∧ a < 2 ^ 32 ∧ 1 ≤ count ∧ count ≤ 256 ∧
      (as_ = (upTo count).map fun i => a + 4 * i) ∧ r = (m.touch id).readWords as_ ∧
      (reqs = (as_.zipIdx.filter fun x => onRidge x.1).map fun x => { tag := 0, sentAt := 0, addr := x.1, word := x.2 }) ∧
      reqs ≠ []) ∧
    (∃ (s : State) (dt : Nat) (m : Chip) (id : Nat) (a : Nat) (v : Session), Now s dt m ∧ (m.touch id).session id = some v ∧
      a % 4 = 0 ∧ a < 2 ^ 32 ∧ onRidge a = false ∧ m.tenon.waits = []) ∧
    (∃ (s : State) (dt : Nat) (m : Chip) (id : Nat) (a : Nat) (mask : Nat) (w : Nat) (v : Session), Now s dt m ∧
      (m.touch id).session id = some v ∧ v.level ≠ 0 ∧ a % 4 = 0 ∧ a < 2 ^ 32 ∧ mask < 2 ^ 32 ∧ w < 2 ^ 32 ∧ oAllows a mask = true ∧
      onRidge a = false ∧ ((m.touch id).sillWrite a mask w).tenon.waits = []) ∧
    (∃ (s : State) (dt : Nat) (m : Chip) (a : Nat) (mask : Nat) (w : Nat) (r : RegRow), Now s dt m ∧ a % 4 = 0 ∧ a < 2 ^ 32 ∧
      mask < 2 ^ 32 ∧ w < 2 ^ 32 ∧ onRidge a = false ∧ m.unitUsed a = true ∧ regRowAt a = some r ∧ ¬ (R.FLT_STAT 0 0 ≤ a ∧
      a < R.SUP_MODE) ∧ m.timeWrite a mask w = none ∧ m.singleWrite a mask w = none ∧ m.arrayWrite a mask w = none) ∧
    (∃ (s : State) (dt : Nat) (m : Chip) (id : Nat) (a : Nat) (mask : Nat) (w : Nat) (v : Session), Now s dt m ∧
      (m.touch id).session id = some v ∧ v.level ≠ 0 ∧ a % 4 = 0 ∧ a < 2 ^ 32 ∧ mask < 2 ^ 32 ∧ w < 2 ^ 32 ∧ oAllows a mask = true ∧
      onRidge a = false) ∧
    (∃ (s : State) (dt : Nat) (m : Chip) (id : Nat) (a : Nat) (mask : Nat) (w : Nat) (v : Session), Now s dt m ∧
      (m.touch id).session id = some v ∧ v.level ≠ 0 ∧ a % 4 = 0 ∧ a < 2 ^ 32 ∧ mask < 2 ^ 32 ∧ w < 2 ^ 32 ∧ oAllows a mask = true ∧
      onRidge a = true) ∧
    (∃ (s : State) (dt : Nat) (m : Chip) (id : Nat) (a : Nat) (mask : Nat) (w : Nat) (v : Session), Now s dt m ∧
      (m.touch id).session id = some v ∧ v.level ≠ 0 ∧ a % 4 = 0 ∧ a < 2 ^ 32 ∧ mask < 2 ^ 32 ∧ w < 2 ^ 32 ∧
      oAllows a mask = false) ∧
    (∃ (s : State) (dt : Nat) (m : Chip) (a : Nat) (mask : Nat) (w : Nat), Now s dt m ∧ a % 4 = 0 ∧ a < 2 ^ 32 ∧ mask < 2 ^ 32 ∧
      w < 2 ^ 32) ∧
    (∃ (s : State) (dt : Nat) (m : Chip) (a : Auth) (v : Session) (x : Nat) (mask : Nat) (w : Nat), Now s dt m ∧ x % 4 = 0 ∧
      x < 2 ^ 32 ∧ mask < 2 ^ 32 ∧ w < 2 ^ 32 ∧ Admitted m [3] false false a v) ∧
    (∃ (s : State) (dt : Nat) (m : Chip) (a : Nat) (mask : Nat) (w : Nat), Now s dt m ∧ a % 4 ≠ 0 ∧ a < 2 ^ 32 ∧ mask < 2 ^ 32 ∧
      w < 2 ^ 32) ∧
    (∃ (s : State) (dt : Nat) (m : Chip) (x : Nat) (mask : Nat) (w : Nat), Now s dt m ∧ x % 4 ≠ 0 ∧ x < 2 ^ 32 ∧ mask < 2 ^ 32 ∧
      w < 2 ^ 32) ∧
    (∃ (s : State) (dt : Nat) (m : Chip) (a : Nat), Now s dt m ∧ a % 4 = 0) :=
  ⟨(by refine ⟨st live, 0, live, 0, 0, 256, { sess with lastAt := 10000000000 }, _, now (by decide +kernel), ?_, ?_, ?_, ?_, ?_, ?_,
    rfl⟩ <;> decide +kernel),
    (by refine ⟨st live, 0, live, 0, R.BENT_STAT 0, 2, { sess with lastAt := 10000000000 }, _, _, _, now (by decide +kernel), ?_,
      ?_, ?_, ?_, ?_, rfl, rfl, rfl, ?_⟩ <;> decide +kernel),
    (by refine ⟨st live, 0, live, 0, 0, { sess with lastAt := 10000000000 }, now (by decide +kernel), ?_, ?_, ?_, ?_,
      ?_⟩ <;> decide +kernel),
    (by refine ⟨st live, 0, live, 0, 0, 0, 0, { sess with lastAt := 10000000000 }, now (by decide +kernel), ?_, ?_, ?_, ?_, ?_, ?_,
      ?_, ?_, ?_⟩ <;> decide +kernel),
    (by refine ⟨st live, 0, live, R.SUP_CFG, 0xFFFFFFFF, 1, _, now (by decide +kernel), ?_, ?_, ?_, ?_, ?_, ?_, rfl, ?_, ?_, ?_,
      ?_⟩ <;> decide +kernel),
    (by refine ⟨st live, 0, live, 0, 0, 0, 0, { sess with lastAt := 10000000000 }, now (by decide +kernel), ?_, ?_, ?_, ?_, ?_, ?_,
      ?_, ?_⟩ <;> decide +kernel),
    (by refine ⟨st live, 0, live, 0, R.BENT_STAT 0, 0, 0, { sess with lastAt := 10000000000 }, now (by decide +kernel), ?_, ?_, ?_,
      ?_, ?_, ?_, ?_, ?_⟩ <;> decide +kernel),
    (by refine ⟨st live, 0, live, 0, 0, 0xFFFFFFFF, 0, { sess with lastAt := 10000000000 }, now (by decide +kernel), ?_, ?_, ?_, ?_,
      ?_, ?_, ?_⟩ <;> decide +kernel),
    (by refine ⟨st live, 0, live, R.RC_BAY_INDEX_LO, 0, 0, now (by decide +kernel), ?_, ?_, ?_, ?_⟩ <;> decide +kernel),
    (by refine ⟨st live, 0, live, auth, sess, 0, 0, 0, now (by decide +kernel), ?_, ?_, ?_, ?_,
      admitted (by decide +kernel)⟩ <;> decide +kernel),
    (by refine ⟨st live, 0, live, 3, 0, 0, now (by decide +kernel), ?_, ?_, ?_, ?_⟩ <;> decide +kernel),
    (by refine ⟨st live, 0, live, 3, 0, 0, now (by decide +kernel), ?_, ?_, ?_, ?_⟩ <;> decide +kernel),
    ⟨st live, 0, live, 0, now (by decide +kernel), by decide +kernel⟩⟩

theorem test_witness_SubscriptionsCarryRecords :
    (∃ (s : State) (dt : Nat) (m : Chip) (id : Nat) (kind : Nat) (udp : Nat) (v : Session) (n : Nat), Now s dt m ∧
      (m.touch id).session id = some v ∧ udp < 2 ^ 16 ∧ kind ≤ 2 ∧
      (((m.touch id).subs.filter fun q => q.session == id).length < 4) ∧ (m.touch id).subs.length < 16 ∧ n = (m.touch id).freeSub) ∧
    (∃ (s : State) (dt : Nat) (m : Chip) (id : Nat) (kind : Nat) (udp : Nat) (v : Session), Now s dt m ∧
      (m.touch id).session id = some v ∧ udp < 2 ^ 16 ∧ kind ≤ 2 ∧ (4 ≤ ((m.touch id).subs.filter fun q => q.session == id).length ∨
      16 ≤ (m.touch id).subs.length)) ∧
    (∃ (s : State) (dt : Nat) (m : Chip) (id : Nat) (num : Nat) (v : Session), Now s dt m ∧ (m.touch id).session id = some v ∧
      (((m.touch id).subs.any fun q => q.num == num && q.session == id) = true)) ∧
    (∃ (s : State) (dt : Nat) (m : Chip) (num : Nat) (q : Sub) (k : Nat), Now s dt m ∧
      ((m.subs.find? fun q => q.num == num) = some q) ∧ datagramDue m.now q = true ∧ k = streamMax q.kind) ∧
    (∃ (s : State) (dt : Nat) (m : Chip) (num : Nat) (q : Sub), Now s dt m ∧ ((m.subs.find? fun q => q.num == num) = some q) ∧
      datagramDue m.now q = false) ∧
    (∃ (s : State) (dt : Nat) (m : Chip) (p : Nat) (r : TsRec) (l : List TsRec), Now s dt m ∧ p < Config.ethPorts ∧
      (m.ethPort p).ts = r :: l) ∧
    (∃ (s : State) (dt : Nat) (m : Chip) (p : Nat), Now s dt m ∧ p < Config.ethPorts ∧ (m.ethPort p).ts = []) :=
  ⟨(by refine ⟨st live, 0, live, 0, 2, 65535, { sess with lastAt := 10000000000 }, _, now (by decide +kernel), ?_, ?_, ?_, ?_, ?_,
    rfl⟩ <;> decide +kernel),
    (by refine ⟨st ({ live with subs := List.replicate 4 { num := 0, session := 0, kind := 0, dest := 0, udpPort := 0 } }), 0,
      { live with subs := List.replicate 4 { num := 0, session := 0, kind := 0, dest := 0, udpPort := 0 } }, 0, 0, 0,
      { sess with lastAt := 10000000000 }, now (by decide +kernel), ?_, ?_, ?_, ?_⟩ <;> decide +kernel),
    ⟨st ({ live with subs := [{ num := 0, session := 0, kind := 0, dest := 0, udpPort := 0 }] }), 0,
      { live with subs := [{ num := 0, session := 0, kind := 0, dest := 0, udpPort := 0 }] }, 0, 0,
      { sess with lastAt := 10000000000 }, now (by decide +kernel), by decide +kernel, by decide +kernel⟩,
    ⟨st ({ live with subs := [{ num := 0, session := 0, kind := 2, dest := 0, udpPort := 0, queue := [(0, .witness ⟨0, 0, 0, 0, 0, 0, 0, false, false, false, false⟩)] }] }),
      0,
      { live with subs := [{ num := 0, session := 0, kind := 2, dest := 0, udpPort := 0, queue := [(0, .witness ⟨0, 0, 0, 0, 0, 0, 0, false, false, false, false⟩)] }] },
      0,
      { num := 0, session := 0, kind := 2, dest := 0, udpPort := 0, queue := [(0, .witness ⟨0, 0, 0, 0, 0, 0, 0, false, false, false, false⟩)] },
      _, now (by decide +kernel), by decide +kernel, by decide +kernel, rfl⟩,
    ⟨st ({ live with subs := [{ num := 0, session := 0, kind := 2, dest := 0, udpPort := 0 }] }), 0,
      { live with subs := [{ num := 0, session := 0, kind := 2, dest := 0, udpPort := 0 }] }, 0,
      { num := 0, session := 0, kind := 2, dest := 0, udpPort := 0 }, now (by decide +kernel), by decide +kernel,
      by decide +kernel⟩,
    ⟨st (live.setEthPort 1 { ts := [⟨false, false, 0, 0, 0, 0, 0⟩] }), 0,
      live.setEthPort 1 { ts := [⟨false, false, 0, 0, 0, 0, 0⟩] }, 1, ⟨false, false, 0, 0, 0, 0, 0⟩, [], now (by decide +kernel),
      by decide +kernel, by decide +kernel⟩,
    ⟨st live, 0, live, 0, now (by decide +kernel), by decide +kernel, by decide +kernel⟩⟩

theorem test_witness_EthernetFramesAndLinks :
    (∃ (s : State) (dt : Nat) (m : Chip) (p : Nat), Now s dt m ∧ p < Config.ethPorts ∧ m.get (F.ETH_STAT_state p) = 1) ∧
    (∃ (s : State) (dt : Nat) (m : Chip) (p : Nat) (kind : Nat), Now s dt m ∧ p < Config.ethPorts ∧ m.get (F.ETH_STAT_state p) = 1 ∧
      kind ≤ 2) ∧
    (∃ (s : State) (dt : Nat) (m : Chip) (p : Nat) (kind : Nat), Now s dt m ∧ p < Config.ethPorts ∧ m.get (F.ETH_STAT_state p) = 1 ∧
      3 ≤ kind ∧ kind ≤ 5) ∧
    (∃ (s : State) (dt : Nat) (m : Chip) (p : Nat) (kind : Nat), Now s dt m ∧ p < Config.ethPorts ∧ m.get (F.ETH_STAT_state p) = 1 ∧
      6 ≤ kind) ∧
    (∃ (s : State) (dt : Nat) (m : Chip) (p : Nat) (x : Chip), Now s dt m ∧ p < Config.ethPorts ∧ m.get (F.ETH_STAT_state p) = 1 ∧
      x = (m.put (F.ETH_STAT_state p) 0).setFlag (F.ETH_STAT_link_lost p)) ∧
    (∃ (s : State) (dt : Nat) (m : Chip) (p : Nat), Now s dt m ∧ p < Config.ethPorts ∧ m.get (F.ETH_STAT_state p) ≠ 1 ∧
      m.boot.pinsOn = true ∧ m.flag (F.ETH_CFG_en p) = true) ∧
    (∃ (s : State) (dt : Nat) (m : Chip) (p : Nat), Now s dt m ∧ p < Config.ethPorts ∧ m.get (F.ETH_STAT_state p) ≠ 1 ∧
      m.boot.failed = true ∧ m.get F.MB_STAT_fw_state ≠ 0) :=
  ⟨⟨st (live.put (F.ETH_STAT_state 1) 1), 0, live.put (F.ETH_STAT_state 1) 1, 1, now (by decide +kernel), by decide +kernel,
    by decide +kernel⟩,
    (by refine ⟨st (live.put (F.ETH_STAT_state 1) 1), 0, live.put (F.ETH_STAT_state 1) 1, 1, 2, now (by decide +kernel), ?_, ?_,
      ?_⟩ <;> decide +kernel),
    (by refine ⟨st (live.put (F.ETH_STAT_state 1) 1), 0, live.put (F.ETH_STAT_state 1) 1, 1, 5, now (by decide +kernel), ?_, ?_, ?_,
      ?_⟩ <;> decide +kernel),
    (by refine ⟨st (live.put (F.ETH_STAT_state 1) 1), 0, live.put (F.ETH_STAT_state 1) 1, 1, 6, now (by decide +kernel), ?_, ?_,
      ?_⟩ <;> decide +kernel),
    ⟨st (live.put (F.ETH_STAT_state 1) 1), 0, live.put (F.ETH_STAT_state 1) 1, 1, _, now (by decide +kernel), by decide +kernel,
      by decide +kernel, rfl⟩,
    (by refine ⟨st ({ live with boot := { live.boot with pinsOn := true } }.put (F.ETH_CFG_en 0) 1), 0,
      { live with boot := { live.boot with pinsOn := true } }.put (F.ETH_CFG_en 0) 1, 0, now (by decide +kernel), ?_, ?_, ?_,
      ?_⟩ <;> decide +kernel),
    (by refine ⟨st ({ live with boot := { live.boot with failed := true } }.put F.MB_STAT_fw_state 1), 0,
      { live with boot := { live.boot with failed := true } }.put F.MB_STAT_fw_state 1, 0, now (by decide +kernel), ?_, ?_, ?_,
      ?_⟩ <;> decide +kernel)⟩

theorem test_witness_TimeBasesTakeIncrementsAndSteps :
    (∃ (s : State) (dt : Nat) (m : Chip) (v : Nat), Now s dt m ∧ v < 2 ^ 64 ∧ incLo ≤ v ∧ v ≤ incHi ∧
      m.flag F.TM_STAT_holdover = true) ∧
    (∃ (s : State) (dt : Nat) (m : Chip) (v : Nat), Now s dt m ∧ v < 2 ^ 64 ∧ incLo ≤ v ∧ v ≤ incHi) ∧
    (∃ (s : State) (dt : Nat) (m : Chip) (v : Nat), Now s dt m ∧ v < 2 ^ 64 ∧ incHi < v) ∧
    (∃ (s : State) (dt : Nat) (m : Chip), Now s dt m) ∧
    (∃ (s : State) (dt : Nat) (m : Chip) (step : Int), Now s dt m ∧
      (m.wr64 R.TM_TB0_STEP_LO R.TM_TB0_STEP_HI (unsignedOf 64 step)).tb0Set = false ∧
      (m.wr64 R.TM_TB0_STEP_LO R.TM_TB0_STEP_HI (unsignedOf 64 step)).permitHeld = false) ∧
    (∃ (s : State) (dt : Nat) (m : Chip) (step : Int), Now s dt m ∧
      (m.wr64 R.TM_TB0_STEP_LO R.TM_TB0_STEP_HI (unsignedOf 64 step)).permitHeld = true) ∧
    (∃ (s : State) (dt : Nat) (m : Chip) (step : Int), Now s dt m ∧
      (m.wr64 R.TM_TB0_STEP_LO R.TM_TB0_STEP_HI (unsignedOf 64 step)).tb0Set = true ∧
      (m.wr64 R.TM_TB0_STEP_LO R.TM_TB0_STEP_HI (unsignedOf 64 step)).permitHeld = false ∧
      step.natAbs ≤ (m.wr64 R.TM_TB0_STEP_LO R.TM_TB0_STEP_HI (unsignedOf 64 step)).jumpLimit ∧ m.time.lastStepAt = none) ∧
    (∃ (s : State) (dt : Nat) (m : Chip) (step : Int) (x : Chip), Now s dt m ∧
      x = m.wr64 R.TM_TB0_STEP_LO R.TM_TB0_STEP_HI (unsignedOf 64 step) ∧ x.tb0Set = false ∧ x.permitHeld = false) ∧
    (∃ (s : State) (dt : Nat) (m : Chip) (step : Int) (x : Chip), Now s dt m ∧
      x = m.wr64 R.TM_TB0_STEP_LO R.TM_TB0_STEP_HI (unsignedOf 64 step) ∧ x.permitHeld = true) ∧
    (∃ (s : State) (dt : Nat) (m : Chip) (step : Int) (x : Chip), Now s dt m ∧
      x = m.wr64 R.TM_TB0_STEP_LO R.TM_TB0_STEP_HI (unsignedOf 64 step) ∧ x.tb0Set = true ∧ x.permitHeld = false ∧
      step.natAbs ≤ x.jumpLimit ∧ x.time.lastStepAt = none) ∧
    (∃ (s : State) (dt : Nat) (m : Chip) (step : Int) (x : Chip), Now s dt m ∧
      x = m.wr64 R.TM_TB0_STEP_LO R.TM_TB0_STEP_HI (unsignedOf 64 step) ∧ x.tb0Set = true ∧ x.permitHeld = false ∧
      x.jumpLimit < step.natAbs ∧ x.refCur = 4) ∧
    (∃ (s : State) (dt : Nat) (m : Chip), Now s dt m ∧ m.time.permitAt.isSome = true ∧ m.permitHeld = false) ∧
    (∃ (s : State) (dt : Nat) (m : Chip), Now s dt m ∧ m.permitHeld = true) :=
  ⟨(by refine ⟨st (live.put F.TM_STAT_holdover 1), 0, live.put F.TM_STAT_holdover 1, incHi, now (by decide +kernel), ?_, ?_, ?_,
    ?_⟩ <;> decide +kernel),
    (by refine ⟨st live, 0, live, incLo, now (by decide +kernel), ?_, ?_, ?_⟩ <;> decide +kernel),
    ⟨st live, 0, live, incHi + 1, now (by decide +kernel), by decide +kernel, by decide +kernel⟩,
    ⟨st live, 0, live, now (by decide +kernel)⟩,
    ⟨st live, 0, live, 0, now (by decide +kernel), by decide +kernel, by decide +kernel⟩,
    ⟨st ((live.onTime fun t => { t with permitAt := some 0 }).put F.TM_STAT_tb0_set 1), 0,
      (live.onTime fun t => { t with permitAt := some 0 }).put F.TM_STAT_tb0_set 1, -1, now (by decide +kernel), by decide +kernel⟩,
    (by refine ⟨st ((live.put F.TM_STAT_tb0_set 1).put F.TM_JUMP_jump_limit 100), 0,
      (live.put F.TM_STAT_tb0_set 1).put F.TM_JUMP_jump_limit 100, -100, now (by decide +kernel), ?_, ?_, ?_,
      ?_⟩ <;> decide +kernel),
    ⟨st live, 0, live, 0, _, now (by decide +kernel), rfl, by decide +kernel, by decide +kernel⟩,
    ⟨st ((live.onTime fun t => { t with permitAt := some 0 }).put F.TM_STAT_tb0_set 1), 0,
      (live.onTime fun t => { t with permitAt := some 0 }).put F.TM_STAT_tb0_set 1, -1, _, now (by decide +kernel), rfl,
      by decide +kernel⟩,
    (by refine ⟨st ((live.put F.TM_STAT_tb0_set 1).put F.TM_JUMP_jump_limit 100), 0,
      (live.put F.TM_STAT_tb0_set 1).put F.TM_JUMP_jump_limit 100, -100, _, now (by decide +kernel), rfl, ?_, ?_, ?_,
      ?_⟩ <;> decide +kernel),
    (by refine ⟨st (((live.put F.TM_STAT_tb0_set 1).put F.TM_JUMP_jump_limit 100).put F.TM_STAT_ref_cur 4), 0,
      ((live.put F.TM_STAT_tb0_set 1).put F.TM_JUMP_jump_limit 100).put F.TM_STAT_ref_cur 4, -101, _, now (by decide +kernel), rfl,
      ?_, ?_, ?_, ?_⟩ <;> decide +kernel),
    ⟨st ({ live with time := { live.time with tb2 := BitVec.ofNat 96 (60000000000 * 2 ^ 32), permitAt := some 0 } }), 0,
      { live with time := { live.time with tb2 := BitVec.ofNat 96 (60000000000 * 2 ^ 32), permitAt := some 0 } },
      now (by decide +kernel), by decide +kernel, by decide +kernel⟩,
    ⟨st ((live.onTime fun t => { t with permitAt := some 0 }).put F.TM_STAT_tb0_set 1), 0,
      (live.onTime fun t => { t with permitAt := some 0 }).put F.TM_STAT_tb0_set 1, now (by decide +kernel), by decide +kernel⟩⟩

theorem test_witness_ReferencesAreFollowed :
    (∃ (s : State) (dt : Nat) (m : Chip) (i : Nat), Now s dt m ∧ i < 3) ∧
    (∃ (s : State) (dt : Nat) (m : Chip) (i : Nat), Now s dt m ∧ i < 3 ∧ m.time.refs.length = 3) ∧
    (∃ (s : State) (dt : Nat) (m : Chip) (i : Nat) (x : Chip) (t : Nat), Now s dt m ∧ i < 3 ∧ x = m.refsUpdate ∧
      (x.ref i).validFrom = some t ∧ x.refValid i = true ∧ t + x.qualNs ≤ x.now) ∧
    (∃ (s : State) (dt : Nat) (m : Chip) (t : Nat), Now s dt m ∧ m.time.holdSince = some t ∧
      t + m.get F.TM_LIMITS_holdover_max * 1000000000 ≤ m.now ∧ m.time.noQualSince = none) ∧
    (∃ (s : State) (dt : Nat) (m : Chip), Now s dt m ∧ m.time.holdSince = none ∧ m.time.noQualSince = none) ∧
    (∃ (s : State) (dt : Nat) (m : Chip), Now s dt m) ∧
    (∃ (s : State) (dt : Nat) (m : Chip) (a : Nat) (l : List Nat), Now s dt m ∧ m.time.ppsEdges = a :: l ∧ a + 1200000000 ≤ m.now) ∧
    (∃ (s : State) (dt : Nat) (m : Chip), Now s dt m ∧ m.get F.TM_CFG_pps_src = 1 ∧ m.tb0Set = true ∧
      m.tb0 / 1000000000 ≠ m.time.ppsLastSecond) ∧
    (∃ (s : State) (dt : Nat) (m : Chip), Now s dt m ∧ m.get F.TM_CFG_pps_src = 1 ∧ m.tb0Set = true ∧
      m.tb0 / 1000000000 = m.time.ppsLastSecond ∧ m.time.ppsOut = true ∧
      m.time.ppsOutSince + m.get F.TM_CFG_pps_width * 1000000 ≤ m.now) :=
  ⟨⟨st live, 0, live, 0, now (by decide +kernel), by decide +kernel⟩,
    ⟨st (((live.onTime fun t => { t with refs := [{}, {}, { ok := true, offset := some 0, validFrom := some 0 }], ppsEdges := [10000000000, 9000000000, 8000000000, 7000000000] }).put F.TM_STAT_valid 4).put F.TM_LIMITS_qual_time 5 |>.put F.TM_CFG_ref_en 4 |>.put F.TM_STAT_tb0_set 1),
      0,
      ((live.onTime fun t => { t with refs := [{}, {}, { ok := true, offset := some 0, validFrom := some 0 }], ppsEdges := [10000000000, 9000000000, 8000000000, 7000000000] }).put F.TM_STAT_valid 4).put F.TM_LIMITS_qual_time 5 |>.put F.TM_CFG_ref_en 4 |>.put F.TM_STAT_tb0_set 1,
      2, now (by decide +kernel), by decide +kernel, by decide +kernel⟩,
    (by refine ⟨st (((live.onTime fun t => { t with refs := [{}, {}, { ok := true, offset := some 0, validFrom := some 0 }], ppsEdges := [10000000000, 9000000000, 8000000000, 7000000000] }).put F.TM_STAT_valid 4).put F.TM_LIMITS_qual_time 5 |>.put F.TM_CFG_ref_en 4 |>.put F.TM_STAT_tb0_set 1),
      0,
      ((live.onTime fun t => { t with refs := [{}, {}, { ok := true, offset := some 0, validFrom := some 0 }], ppsEdges := [10000000000, 9000000000, 8000000000, 7000000000] }).put F.TM_STAT_valid 4).put F.TM_LIMITS_qual_time 5 |>.put F.TM_CFG_ref_en 4 |>.put F.TM_STAT_tb0_set 1,
      2, _, 0, now (by decide +kernel), ?_, rfl, ?_, ?_, ?_⟩ <;> decide +kernel),
    (by refine ⟨st (live.onTime fun t => { t with holdSince := some 0, noQualSince := none }), 0,
      live.onTime fun t => { t with holdSince := some 0, noQualSince := none }, 0, now (by decide +kernel), ?_, ?_,
      ?_⟩ <;> decide +kernel),
    ⟨st (live.onTime fun t => { t with noQualSince := none }), 0, live.onTime fun t => { t with noQualSince := none },
      now (by decide +kernel), by decide +kernel, by decide +kernel⟩,
    ⟨st (live.onTime fun t => { t with ppsEdges := [0] }), 0, live.onTime fun t => { t with ppsEdges := [0] },
      now (by decide +kernel)⟩,
    ⟨st (live.onTime fun t => { t with ppsEdges := [0] }), 0, live.onTime fun t => { t with ppsEdges := [0] }, 0, [],
      now (by decide +kernel), by decide +kernel, by decide +kernel⟩,
    (by refine ⟨st ((live.put F.TM_CFG_pps_src 1).put F.TM_STAT_tb0_set 1), 0,
      (live.put F.TM_CFG_pps_src 1).put F.TM_STAT_tb0_set 1, now (by decide +kernel), ?_, ?_, ?_⟩ <;> decide +kernel),
    (by refine ⟨st (((live.onTime fun t => { t with ppsOut := true, ppsLastSecond := 10 }).put F.TM_CFG_pps_src 1).put F.TM_STAT_tb0_set 1),
      0, ((live.onTime fun t => { t with ppsOut := true, ppsLastSecond := 10 }).put F.TM_CFG_pps_src 1).put F.TM_STAT_tb0_set 1,
      now (by decide +kernel), ?_, ?_, ?_, ?_, ?_⟩ <;> decide +kernel)⟩

theorem test_witness_PtpMessagesAreStamped :
    (∃ (s : State) (dt : Nat) (m : Chip) (p : Nat) (msgType : Nat) (domain : Nat) (seqId : Nat) (x : Chip), Now s dt m ∧
      p < Config.ethPorts ∧ msgType < 16 ∧ domain < 256 ∧ seqId < 2 ^ 16 ∧ x = m.bump (R.ETH_CNT_RX p) ∧
      domain ≠ x.get F.TM_CFG_domain_a ∧ domain ≠ x.get F.TM_CFG_domain_b) ∧
    (∃ (s : State) (dt : Nat) (m : Chip) (p : Nat) (msgType : Nat) (domain : Nat) (seqId : Nat) (x : Chip), Now s dt m ∧
      p < Config.ethPorts ∧ msgType < 16 ∧ domain < 256 ∧ seqId < 2 ^ 16 ∧ x = m.bump (R.ETH_CNT_RX p) ∧
      domain = x.get F.TM_CFG_domain_a ∧ msgType < 4 ∧ msgType ≠ 2) ∧
    (∃ (s : State) (dt : Nat) (m : Chip) (p : Nat) (msgType : Nat) (domain : Nat) (seqId : Nat) (x : Chip), Now s dt m ∧
      p < Config.ethPorts ∧ msgType < 16 ∧ domain < 256 ∧ seqId < 2 ^ 16 ∧ x = m.bump (R.ETH_CNT_RX p) ∧
      domain = x.get F.TM_CFG_domain_a ∧ 4 ≤ msgType) ∧
    (∃ (s : State) (dt : Nat) (m : Chip) (p : Nat) (domain : Nat) (peer : Bool) (x : Chip), Now s dt m ∧ p < Config.ethPorts ∧
      domain < 256 ∧ x = ((m.emit (.send "eth" p (if peer then "Pdelay_Req" else "Delay_Req") [domain,
      (m.ethPort p).delaySeq])).bump (R.ETH_CNT_TX p)).pushTs p true (domain != m.get F.TM_CFG_domain_a) (if peer then 2 else 1) (m.ethPort p).delaySeq) :=
  ⟨(by refine ⟨st live, 0, live, 1, 15, 255, 0, _, now (by decide +kernel), ?_, ?_, ?_, ?_, rfl, ?_, ?_⟩ <;> decide +kernel),
    (by refine ⟨st live, 0, live, 1, 3, _, 0, _, now (by decide +kernel), ?_, ?_, ?_, ?_, rfl, rfl, ?_, ?_⟩ <;> decide +kernel),
    (by refine ⟨st live, 0, live, 0, 4, _, 0, _, now (by decide +kernel), ?_, ?_, ?_, ?_, rfl, rfl, ?_⟩ <;> decide +kernel),
    ⟨st live, 0, live, 1, 0, true, _, now (by decide +kernel), by decide +kernel, by decide +kernel, rfl⟩⟩

theorem test_witness_SupplyAndResetPinsAct :
    (∃ (s : State) (bootSrc : Nat) (clk : Nat), bootSrc < 4 ∧ clk < 4 ∧ s.m.boot.mainInput = true) ∧
    (∃ (s : State) (bootSrc : Nat) (clk : Nat), bootSrc < 4 ∧ clk < 4 ∧ s.m.boot.pwrGood = true) ∧
    (∃ (s : State) (bootSrc : Nat) (clk : Nat), bootSrc < 4 ∧ clk < 4 ∧ s.m.boot.mainInput = false) ∧
    (∃ (s : State) (ns : Nat), s.m.supplied = true ∧ 250 ≤ ns) ∧
    (∃ (s : State) (dt : Nat) (m : Chip) (ns : Nat), Now s dt m ∧ 250 ≤ ns ∧ m.boot.inReset = false ∧ m.boot.optionDone = true ∧
      m.boot.memTrained = true) ∧
    (∃ (s : State) (ns : Nat), s.m.supplied = true ∧ ns < 100) ∧
    (∃ (s : State) (dt : Nat) (m : Chip), s.m.supplied = true ∧ s.m.boot.inReset = true ∧ m = elapse dt s.m) ∧
    (∃ (s : State) (dt : Nat) (m : Chip) (ns : Nat), Now s dt m ∧ 250 ≤ ns) ∧
    (∃ (s : State) (dt : Nat) (m : Chip) (ns : Nat), Now s dt m ∧ ns < 100) ∧
    (∃ (s : State) (dt : Nat) (m : Chip), Now s dt m ∧ m.boot.inWarm = true) :=
  ⟨(by refine ⟨st live, 0, 0, ?_, ?_, ?_⟩ <;> decide +kernel),
    (by refine ⟨st live, 3, 3, ?_, ?_, ?_⟩ <;> decide +kernel),
    (by refine ⟨st { live with boot := { mainInput := false } }, 0, 0, ?_, ?_, ?_⟩ <;> decide +kernel),
    ⟨st live, 250, by decide +kernel, by decide +kernel⟩,
    (by refine ⟨st ({ live with boot := { live.boot with memTrained := true } }), 0,
      { live with boot := { live.boot with memTrained := true } }, 250, now (by decide +kernel), ?_, ?_, ?_,
      ?_⟩ <;> decide +kernel),
    ⟨st live, 99, by decide +kernel, by decide +kernel⟩,
    ⟨st { live with boot := { inReset := true } }, 0, elapse 0 { live with boot := { inReset := true } }, by decide +kernel,
      by decide +kernel, rfl⟩,
    ⟨st live, 0, live, 250, now (by decide +kernel), by decide +kernel⟩,
    ⟨st live, 0, live, 0, now (by decide +kernel), by decide +kernel⟩,
    ⟨st ({ live with boot := { inWarm := true } }), 0, { live with boot := { inWarm := true } }, now (by decide +kernel),
      by decide +kernel⟩⟩

theorem test_witness_RequestedResetsAndBlocks :
    (∃ (s : State) (dt : Nat) (m : Chip), Now s dt m) ∧
    (∃ (s : State) (dt : Nat) (m : Chip) (a : Auth) (v : Session), Now s dt m ∧ Admitted m [3] false true a v) ∧
    (∃ (s : State) (dt : Nat) (m : Chip), Now s dt m ∧ m.boot.inReset = false ∧ m.boot.optionDone = true ∧
      m.boot.memTrained = true) ∧
    (∃ (s : State) (dt : Nat) (m : Chip), Now s dt m ∧ m.blockIdle 6 = true) ∧
    (∃ (s : State) (dt : Nat) (m : Chip) (i : Nat) (mask : Nat), Now s dt m ∧ mask < 2 ^ 13 ∧ ((upTo 13).filter (bitN mask)) = [i] ∧
      m.blockIdle i = true) ∧
    (∃ (s : State) (dt : Nat) (m : Chip) (i : Nat) (mask : Nat), Now s dt m ∧ mask < 2 ^ 13 ∧ ((upTo 13).filter (bitN mask)) = [i] ∧
      m.blockIdle i = false) ∧
    (∃ (s : State) (dt : Nat) (m : Chip) (d : Nat), Now s dt m ∧ 32 ≤ d ∧ d < 60) ∧
    (∃ (s : State) (dt : Nat) (m : Chip) (d : Nat) (x : Chip), Now s dt m ∧ d < 32 ∧
      x = (((m.setBit (R.RP_PWR_FAIL (d / 32)) (d % 32))).setDomain d false).raise ⟨0, 8⟩) :=
  ⟨⟨st live, 0, live, now (by decide +kernel)⟩,
    ⟨st live, 0, live, auth, sess, now (by decide +kernel), admitted (by decide +kernel)⟩,
    (by refine ⟨st ({ live with boot := { live.boot with memTrained := true } }), 0,
      { live with boot := { live.boot with memTrained := true } }, now (by decide +kernel), ?_, ?_, ?_⟩ <;> decide +kernel),
    ⟨st live, 0, live, now (by decide +kernel), by decide +kernel⟩,
    (by refine ⟨st live, 0, live, 12, 2 ^ 12, now (by decide +kernel), ?_, ?_, ?_⟩ <;> decide +kernel),
    (by refine ⟨st (live.setEng (.stud 0) { running := some running0 }), 0, live.setEng (.stud 0) { running := some running0 }, 0,
      1, now (by decide +kernel), ?_, ?_, ?_⟩ <;> decide +kernel),
    ⟨st live, 0, live, 59, now (by decide +kernel), by decide +kernel, by decide +kernel⟩,
    ⟨st live, 0, live, 0, _, now (by decide +kernel), by decide +kernel, rfl⟩⟩

theorem test_witness_StartProceedsStepByStep :
    (∃ (s : State) (dt : Nat) (m : Chip), Now s dt m ∧ m.boot.optionDone = false ∧ m.boot.failed = false ∧ m.boot.step = 0 ∧
      m.boot.inReset = false ∧ m.boot.inWarm = false ∧ 2 ≤ m.get F.RP_STRAP_clk_mode) ∧
    (∃ (s : State) (dt : Nat) (m : Chip), Now s dt m ∧ m.boot.optionDone = true ∧ m.boot.warm = false ∧ m.boot.inWarm = false ∧
      m.boot.failed = false ∧ m.boot.step = 1) ∧
    (∃ (s : State) (dt : Nat) (m : Chip), Now s dt m ∧ m.boot.optionDone = true ∧ m.boot.warm = false ∧ m.boot.inWarm = false ∧
      m.boot.failed = false ∧ m.boot.step = 1 ∧ 2 ≤ m.get F.RP_STRAP_boot_src) ∧
    (∃ (s : State) (dt : Nat) (m : Chip), Now s dt m ∧ m.boot.warm = true ∧ m.boot.inWarm = false ∧ m.boot.failed = false ∧
      m.boot.step = 3) ∧
    (∃ (s : State) (dt : Nat) (m : Chip), Now s dt m ∧ m.boot.optionDone = true ∧ m.boot.warm = false ∧ m.boot.inWarm = false) ∧
    (∃ (s : State) (dt : Nat) (m : Chip), Now s dt m ∧ m.boot.warm = true ∧ m.boot.inWarm = false ∧ m.boot.failed = false ∧
      m.boot.step = 3 ∧ m.get F.RP_BOOT_STAT_phase = 1) ∧
    (∃ (s : State) (dt : Nat) (m : Chip), Now s dt m ∧ m.boot.step = 7 ∧ m.boot.failed = false ∧ m.boot.everBays = false ∧
      m.tb0Set = true ∧ atBoundary m.tb0 m.period = true) ∧
    (∃ (s : State) (dt : Nat) (m : Chip), Now s dt m ∧ m.boot.step = 7 ∧ m.boot.failed = false ∧ m.boot.everBays = true ∧
      m.flag F.RP_BOOT_FLAGS_realign_due = false ∧ atBoundary m.tb3 m.period = true ∧ m.bay < m.tb3 / m.period) ∧
    (∃ (s : State) (dt : Nat) (m : Chip), Now s dt m ∧ m.boot.step = 7 ∧ m.boot.failed = false ∧ m.boot.everBays = false ∧
      m.tb0Set = false ∧ m.boot.step7At + m.stick.timeWait * 1000000000 ≤ m.now ∧ atBoundary m.tb3 m.period = true) ∧
    (∃ (s : State) (dt : Nat) (m : Chip) (x : Chip) (y : Chip), Now s dt m ∧ m.exitDue = true ∧ m.mode ≠ 3 ∧
      (x = ((m.onBoot fun b => { b with step := 10 }).put F.RP_BOOT_TIME_warm (b2n m.boot.warm)).put F.RP_BOOT_TIME_ms (min 131071 ((m.now - m.boot.startAt) / 1000000))) ∧
      x.sev3Asserting = false ∧ x.role ≠ 2 ∧ y = x.setMode 0 none) :=
  ⟨(by refine ⟨st State.reset.m, 0, State.reset.m, now (by decide +kernel), ?_, ?_, ?_, ?_, ?_, ?_⟩ <;> decide +kernel),
    (by refine ⟨st ({ live with boot := { optionDone := true, step := 1 } }), 0,
      { live with boot := { optionDone := true, step := 1 } }, now (by decide +kernel), ?_, ?_, ?_, ?_, ?_⟩ <;> decide +kernel),
    (by refine ⟨st ({ live with boot := { optionDone := true, step := 1 } }.put F.RP_STRAP_boot_src 2), 0,
      { live with boot := { optionDone := true, step := 1 } }.put F.RP_STRAP_boot_src 2, now (by decide +kernel), ?_, ?_, ?_, ?_,
      ?_, ?_⟩ <;> decide +kernel),
    (by refine ⟨st ({ live with boot := { step := 3, warm := true } }), 0, { live with boot := { step := 3, warm := true } },
      now (by decide +kernel), ?_, ?_, ?_, ?_⟩ <;> decide +kernel),
    (by refine ⟨st live, 0, live, now (by decide +kernel), ?_, ?_, ?_⟩ <;> decide +kernel),
    (by refine ⟨st ({ live with boot := { step := 3, warm := true } }.put F.RP_BOOT_STAT_phase 1), 0,
      { live with boot := { step := 3, warm := true } }.put F.RP_BOOT_STAT_phase 1, now (by decide +kernel), ?_, ?_, ?_, ?_,
      ?_⟩ <;> decide +kernel),
    (by refine ⟨st ({ live with boot := { step := 7 } }.put F.TM_STAT_tb0_set 1), 0,
      { live with boot := { step := 7 } }.put F.TM_STAT_tb0_set 1, now (by decide +kernel), ?_, ?_, ?_, ?_, ?_⟩ <;> decide +kernel),
    (by refine ⟨st ({ live with boot := { step := 7, everBays := true } }), 0,
      { live with boot := { step := 7, everBays := true } }, now (by decide +kernel), ?_, ?_, ?_, ?_, ?_, ?_⟩ <;> decide +kernel),
    (by refine ⟨st ({ live with boot := { step := 7 } }), 0, { live with boot := { step := 7 } }, now (by decide +kernel), ?_, ?_,
      ?_, ?_, ?_, ?_⟩ <;> decide +kernel),
    (by refine ⟨st ({ inBay with boot := { step := 9, stripBay := some 39998 } }), 0,
      { inBay with boot := { step := 9, stripBay := some 39998 } }, _, _, now (by decide +kernel), ?_, ?_, rfl, ?_, ?_,
      rfl⟩ <;> decide +kernel)⟩

theorem test_witness_EncodersCountAndStop :
    (∃ (s : State) (dt : Nat) (m : Chip) (p : Nat) (a : Bool) (b : Bool) (e : EncPort), Now s dt m ∧ p < Config.encPorts ∧
      e = m.enc p ∧ m.encMode p = 1 ∧ m.get (F.ENC_STAT_state p) ≠ 4 ∧ e.a ≠ a ∧ e.b = b) ∧
    (∃ (s : State) (dt : Nat) (m : Chip) (p : Nat) (a : Bool) (b : Bool) (e : EncPort), Now s dt m ∧ p < Config.encPorts ∧
      e = m.enc p ∧ m.encMode p = 1 ∧ m.get (F.ENC_STAT_state p) ≠ 4 ∧ e.a = a ∧ e.b ≠ b) ∧
    (∃ (s : State) (dt : Nat) (m : Chip) (p : Nat) (a : Bool) (b : Bool) (e : EncPort), Now s dt m ∧ p < Config.encPorts ∧
      e = m.enc p ∧ m.encMode p = 1 ∧ m.get (F.ENC_STAT_state p) ≠ 4 ∧ e.a ≠ a ∧ e.b ≠ b) ∧
    (∃ (s : State) (dt : Nat) (m : Chip) (p : Nat), Now s dt m ∧ p < Config.encPorts ∧ (m.encMode p ≠ 1 ∨
      m.get (F.ENC_STAT_state p) = 4)) ∧
    (∃ (s : State) (dt : Nat) (m : Chip) (p : Nat) (b : Bool) (e : EncPort) (x : Chip) (y : Chip), Now s dt m ∧
      p < Config.encPorts ∧ m.encMode p = 2 ∧ m.get (F.ENC_STAT_state p) = 0 ∧ (m.closeWindows p 3) = m ∧ e = m.enc p ∧
      e.acqTeeth = 0 ∧ x = m.encMove p (if m.flag (F.ENC_CFG_dir_src p) && !b then -(m.toothCt p : Int) else m.toothCt p) ∧
      y = (x.setEnc p { x.enc p with acqTeeth := 1 }).setEncState p 1) ∧
    (∃ (s : State) (dt : Nat) (m : Chip) (p : Nat) (b : Bool) (d : Int), Now s dt m ∧ p < Config.encPorts ∧ m.encMode p = 2 ∧
      m.get (F.ENC_STAT_state p) = 0 ∧ (m.closeWindows p 3) = m ∧ (m.enc p).acqTeeth = 0 ∧
      (d = if m.flag (F.ENC_CFG_dir_src p) && !b then -(m.toothCt p : Int) else m.toothCt p)) ∧
    (∃ (s : State) (dt : Nat) (m : Chip) (p : Nat) (q : Nat) (l : Nat), Now s dt m ∧ p < Config.encPorts ∧ m.encMode p = 2 ∧
      m.get (F.ENC_STAT_state p) = 2 ∧ (m.closeWindows p 3) = m ∧ (m.enc p).period = some q ∧ (m.enc p).lastTooth = some l ∧
      qLt (qOfInt (m.cyc - l : Nat)) (qMul (m.winLo p) (qOfInt q)) = true) ∧
    (∃ (s : State) (dt : Nat) (m : Chip) (p : Nat), Now s dt m ∧ p < Config.encPorts ∧ m.encMode p = 2 ∧
      m.windowOver p true = true) ∧
    (∃ (s : State) (dt : Nat) (m : Chip) (p : Nat) (q : Nat) (l : Nat), Now s dt m ∧ p < Config.encPorts ∧ m.encMode p = 2 ∧
      m.windowOver p true = true ∧ (m.enc p).period = some q ∧ (m.enc p).lastTooth = some l ∧ (m.enc p).synthRun < 2) ∧
    (∃ (s : State) (dt : Nat) (m : Chip) (p : Nat), Now s dt m ∧ p < Config.encPorts ∧ m.encMode p = 2 ∧
      m.windowOver p true = false) ∧
    (∃ (s : State) (dt : Nat) (m : Chip) (p : Nat) (raw : Nat) (r : Nat), Now s dt m ∧ p < Config.encPorts ∧ m.encMode p = 3 ∧
      m.get (F.ENC_STAT_state p) = 0 ∧ (m.enc p).ssiRaw = none ∧ m.flag (F.ENC_SSI_CFG_gray p) = false ∧
      m.flag (F.ENC_CFG_invert p) = false ∧ r = raw % 2 ^ (m.get (F.ENC_SSI_CFG_bits p) + 1)) ∧
    (∃ (s : State) (dt : Nat) (m : Chip) (p : Nat), Now s dt m ∧ p < Config.encPorts ∧ m.encMode p = 3 ∧
      m.get (F.ENC_STAT_state p) ≠ 4 ∧ (m.enc p).ssiRej < 2) ∧
    (∃ (s : State) (dt : Nat) (m : Chip) (p : Nat), Now s dt m ∧ p < Config.encPorts ∧ m.encMode p = 3 ∧
      m.get (F.ENC_STAT_state p) ≠ 4 ∧ 2 ≤ (m.enc p).ssiRej) ∧
    (∃ (s : State) (dt : Nat) (m : Chip) (p : Nat) (l : Nat) (q : Nat), Now s dt m ∧ p < Config.encPorts ∧ (m.encMode p = 1 ∨
      m.encMode p = 3) ∧ (m.enc p).held = none ∧ (m.enc p).lastChg = some l ∧ (m.enc p).prevChg = some q ∧
      2 * (l - q) ≤ m.cyc - l) :=
  ⟨(by refine ⟨st ((live.setEnc 3 { a := true }).put (F.ENC_CFG_mode 3) 1), 0,
    (live.setEnc 3 { a := true }).put (F.ENC_CFG_mode 3) 1, 3, false, false, _, now (by decide +kernel), ?_, rfl, ?_, ?_, ?_,
    ?_⟩ <;> decide +kernel),
    (by refine ⟨st ((live.setEnc 3 { b := true }).put (F.ENC_CFG_mode 3) 1), 0,
      (live.setEnc 3 { b := true }).put (F.ENC_CFG_mode 3) 1, 3, false, false, _, now (by decide +kernel), ?_, rfl, ?_, ?_, ?_,
      ?_⟩ <;> decide +kernel),
    (by refine ⟨st ((live.setEnc 3 { a := true, b := true }).put (F.ENC_CFG_mode 3) 1), 0,
      (live.setEnc 3 { a := true, b := true }).put (F.ENC_CFG_mode 3) 1, 3, false, false, _, now (by decide +kernel), ?_, rfl, ?_,
      ?_, ?_, ?_⟩ <;> decide +kernel),
    ⟨st live, 0, live, 3, now (by decide +kernel), by decide +kernel, by decide +kernel⟩,
    (by refine ⟨st (live.put (F.ENC_CFG_mode 3) 2), 0, live.put (F.ENC_CFG_mode 3) 2, 3, false, _, _, _, now (by decide +kernel),
      ?_, ?_, ?_, ?_, rfl, ?_, rfl, rfl⟩ <;> decide +kernel),
    (by refine ⟨st (live.put (F.ENC_CFG_mode 3) 2), 0, live.put (F.ENC_CFG_mode 3) 2, 3, false, _, now (by decide +kernel), ?_, ?_,
      ?_, ?_, ?_, rfl⟩ <;> decide +kernel),
    (by refine ⟨st ((((live.setEnc 3 { period := some 1000, lastTooth := some 2499999990 }).put (F.ENC_CFG_mode 3) 2).put (F.ENC_STAT_state 3) 2).put (F.ENC_TOOTH_CFG_win_lo 3) 8),
      0,
      (((live.setEnc 3 { period := some 1000, lastTooth := some 2499999990 }).put (F.ENC_CFG_mode 3) 2).put (F.ENC_STAT_state 3) 2).put (F.ENC_TOOTH_CFG_win_lo 3) 8,
      3, 1000, 2499999990, now (by decide +kernel), ?_, ?_, ?_, ?_, ?_, ?_, ?_⟩ <;> decide +kernel),
    (by refine ⟨st ((((live.setEnc 3 { period := some 1000, lastTooth := some 0 }).put (F.ENC_CFG_mode 3) 2).put (F.ENC_STAT_state 3) 2).put (F.ENC_TOOTH_CFG_win_hi 3) 24),
      0,
      (((live.setEnc 3 { period := some 1000, lastTooth := some 0 }).put (F.ENC_CFG_mode 3) 2).put (F.ENC_STAT_state 3) 2).put (F.ENC_TOOTH_CFG_win_hi 3) 24,
      3, now (by decide +kernel), ?_, ?_, ?_⟩ <;> decide +kernel),
    (by refine ⟨st ((((live.setEnc 3 { period := some 1000, lastTooth := some 0 }).put (F.ENC_CFG_mode 3) 2).put (F.ENC_STAT_state 3) 2).put (F.ENC_TOOTH_CFG_win_hi 3) 24),
      0,
      (((live.setEnc 3 { period := some 1000, lastTooth := some 0 }).put (F.ENC_CFG_mode 3) 2).put (F.ENC_STAT_state 3) 2).put (F.ENC_TOOTH_CFG_win_hi 3) 24,
      3, 1000, 0, now (by decide +kernel), ?_, ?_, ?_, ?_, ?_, ?_⟩ <;> decide +kernel),
    (by refine ⟨st (live.put (F.ENC_CFG_mode 3) 2), 0, live.put (F.ENC_CFG_mode 3) 2, 3, now (by decide +kernel), ?_, ?_,
      ?_⟩ <;> decide +kernel),
    (by refine ⟨st ((live.setEnc 3 { ssiRej := 2 }).put (F.ENC_CFG_mode 3) 3), 0,
      (live.setEnc 3 { ssiRej := 2 }).put (F.ENC_CFG_mode 3) 3, 3, 0, _, now (by decide +kernel), ?_, ?_, ?_, ?_, ?_, ?_,
      rfl⟩ <;> decide +kernel),
    (by refine ⟨st ((live.setEnc 3 { lastChg := some 1000, prevChg := some 900 }).put (F.ENC_CFG_mode 3) 3), 0,
      (live.setEnc 3 { lastChg := some 1000, prevChg := some 900 }).put (F.ENC_CFG_mode 3) 3, 3, now (by decide +kernel), ?_, ?_,
      ?_, ?_⟩ <;> decide +kernel),
    (by refine ⟨st ((live.setEnc 3 { ssiRej := 2 }).put (F.ENC_CFG_mode 3) 3), 0,
      (live.setEnc 3 { ssiRej := 2 }).put (F.ENC_CFG_mode 3) 3, 3, now (by decide +kernel), ?_, ?_, ?_, ?_⟩ <;> decide +kernel),
    (by refine ⟨st ((live.setEnc 3 { lastChg := some 1000, prevChg := some 900 }).put (F.ENC_CFG_mode 3) 3), 0,
      (live.setEnc 3 { lastChg := some 1000, prevChg := some 900 }).put (F.ENC_CFG_mode 3) 3, 3, 1000, 900, now (by decide +kernel),
      ?_, ?_, ?_, ?_, ?_, ?_⟩ <;> decide +kernel)⟩

theorem test_witness_EncodersLatchAndLose :
    (∃ (s : State) (dt : Nat) (m : Chip) (p : Nat) (e : EncPort), Now s dt m ∧ p < Config.encPorts ∧ e = m.enc p ∧
      m.flag (F.ENC_CFG_index_en p) = true ∧ (m.encMode p = 1 ∨ m.encMode p = 2) ∧ e.idxPrev = none) ∧
    (∃ (s : State) (dt : Nat) (m : Chip) (p : Nat), Now s dt m ∧ p < Config.encPorts ∧ (m.flag (F.ENC_CFG_index_en p) = false ∨
      m.encMode p = 0 ∨ m.encMode p = 3)) ∧
    (∃ (s : State) (dt : Nat) (m : Chip) (p : Nat) (src : Nat), Now s dt m ∧ p < Config.encPorts ∧ src ≤ 32 ∧ m.encMode p ≠ 0 ∧
      m.get (F.ENC_CFG_probe_src p) = src) ∧
    (∃ (s : State) (dt : Nat) (m : Chip) (p : Nat) (src : Nat), Now s dt m ∧ p < Config.encPorts ∧ src ≤ 32 ∧
      m.get (F.ENC_CFG_probe_src p) ≠ src) ∧
    (∃ (s : State) (dt : Nat) (m : Chip) (p : Nat), Now s dt m ∧ p < Config.encPorts) ∧
    (∃ (s : State) (dt : Nat) (m : Chip) (p : Nat) (i : Nat) (x : Chip), Now s dt m ∧ p < Config.encPorts ∧ i < 3 ∧
      m.encMode p ≠ 0 ∧
      x = (m.setEnc p { m.enc p with lineFaults := i :: (m.enc p).lineFaults.filter (· != i) }).setFlag (lineFaultFlag p i)) ∧
    (∃ (s : State) (dt : Nat) (m : Chip) (p : Nat) (i : Nat), Now s dt m ∧ p < Config.encPorts ∧ i < 3 ∧
      m.get (F.ENC_STAT_state p) ≠ 4) ∧
    (∃ (s : State) (dt : Nat) (m : Chip) (p : Nat) (i : Nat), Now s dt m ∧ p < Config.encPorts ∧ i < 3 ∧
      m.get (F.ENC_STAT_state p) = 4 ∧ (m.enc p).lostBy = 1 ∧
      (((m.enc p).lineFaults.filter (· != i)).any (countingInput (m.encMode p))) = false) :=
  ⟨(by refine ⟨st ((live.put (F.ENC_CFG_index_en 3) 1).put (F.ENC_CFG_mode 3) 1), 0,
    (live.put (F.ENC_CFG_index_en 3) 1).put (F.ENC_CFG_mode 3) 1, 3, _, now (by decide +kernel), ?_, rfl, ?_, ?_,
    ?_⟩ <;> decide +kernel),
    ⟨st live, 0, live, 3, now (by decide +kernel), by decide +kernel, by decide +kernel⟩,
    (by refine ⟨st ((live.put (F.ENC_CFG_index_en 3) 1).put (F.ENC_CFG_mode 3) 1), 0,
      (live.put (F.ENC_CFG_index_en 3) 1).put (F.ENC_CFG_mode 3) 1, 3, 0, now (by decide +kernel), ?_, ?_, ?_,
      ?_⟩ <;> decide +kernel),
    (by refine ⟨st live, 0, live, 3, 32, now (by decide +kernel), ?_, ?_, ?_⟩ <;> decide +kernel),
    ⟨st (live.put (F.ENC_CFG_mode 3) 1), 0, live.put (F.ENC_CFG_mode 3) 1, 3, now (by decide +kernel), by decide +kernel⟩,
    (by refine ⟨st ((live.put (F.ENC_CFG_index_en 3) 1).put (F.ENC_CFG_mode 3) 1), 0,
      (live.put (F.ENC_CFG_index_en 3) 1).put (F.ENC_CFG_mode 3) 1, 3, 0, _, now (by decide +kernel), ?_, ?_, ?_,
      rfl⟩ <;> decide +kernel),
    (by refine ⟨st live, 0, live, 0, 0, now (by decide +kernel), ?_, ?_, ?_⟩ <;> decide +kernel),
    (by refine ⟨st (((live.setEnc 3 { lostBy := 1, lineFaults := [2] }).put (F.ENC_CFG_mode 3) 1).put (F.ENC_STAT_state 3) 4), 0,
      ((live.setEnc 3 { lostBy := 1, lineFaults := [2] }).put (F.ENC_CFG_mode 3) 1).put (F.ENC_STAT_state 3) 4, 3, 2,
      now (by decide +kernel), ?_, ?_, ?_, ?_, ?_⟩ <;> decide +kernel)⟩

theorem test_witness_FieldInputsAreRecorded :
    (∃ (s : State) (dt : Nat) (m : Chip) (ch : Nat) (level : Bool), Now s dt m ∧ ch < 32 ∧ m.fio.level.getLsbD ch = level) ∧
    (∃ (s : State) (dt : Nat) (m : Chip) (ch : Nat) (x : Chip), Now s dt m ∧ ch < 32 ∧ m.fio.level.getLsbD ch = false ∧
      (x = (m.onFio fun f => { f with level := f.level ||| BitVec.ofNat 32 (2 ^ ch) }).refreshIn) ∧ x.bit R.FIO_EDGE_R ch = true) ∧
    (∃ (s : State) (dt : Nat) (m : Chip) (ch : Nat) (x : Chip), Now s dt m ∧ ch < 32 ∧ m.fio.level.getLsbD ch = true ∧
      (x = (m.onFio fun f => { f with level := f.level &&& ~~~(BitVec.ofNat 32 (2 ^ ch)) }).refreshIn) ∧
      x.bit R.FIO_EDGE_F ch = false) ∧
    (∃ (s : State) (dt : Nat) (m : Chip) (ch : Nat), Now s dt m ∧ ch < 32 ∧ m.fio.level.getLsbD ch = false ∧
      m.fio.events.length < 512 ∧
      (((m.onFio fun f => { f with level := f.level ||| BitVec.ofNat 32 (2 ^ ch) }).refreshIn).bit R.FIO_EDGE_R ch = true)) ∧
    (∃ (s : State) (dt : Nat) (m : Chip) (k : Nat) (t : Nat), Now s dt m ∧ k < 8 ∧ m.openPair k = some t ∧
      t + 4 * (2 ^ 32 - 1) ≤ m.edgeStamp) ∧
    (∃ (s : State) (dt : Nat) (m : Chip) (k : Nat) (t : Nat), Now s dt m ∧ k < 8 ∧ m.openPair k = some t ∧
      m.edgeStamp < t + 4 * (2 ^ 32 - 1)) ∧
    (∃ (s : State) (dt : Nat) (m : Chip) (ch : Nat), Now s dt m ∧ ch < 32 ∧ m.bit R.FIO_WB_EN ch = true ∧
      m.fio.broken.getLsbD ch = false) ∧
    (∃ (s : State) (dt : Nat) (m : Chip) (ch : Nat), Now s dt m ∧ ch < 32) ∧
    (∃ (s : State) (dt : Nat) (m : Chip) (r : EvtRec) (l : List EvtRec), Now s dt m ∧ m.fio.events = r :: l) ∧
    (∃ (s : State) (dt : Nat) (m : Chip), Now s dt m ∧ m.fio.events = []) ∧
    (∃ (s : State) (dt : Nat) (m : Chip) (r : PairRec) (l : List PairRec), Now s dt m ∧ m.fio.pairs = r :: l) ∧
    (∃ (s : State) (dt : Nat) (m : Chip), Now s dt m ∧ m.fio.pairs = []) :=
  ⟨⟨st live, 0, live, 31, false, now (by decide +kernel), by decide +kernel, by decide +kernel⟩,
    (by refine ⟨st (live.setBit R.FIO_EDGE_R 31), 0, live.setBit R.FIO_EDGE_R 31, 31, _, now (by decide +kernel), ?_, ?_, rfl,
      ?_⟩ <;> decide +kernel),
    (by refine ⟨st (live.onFio fun f => { f with level := 0x80000000#32 }), 0,
      live.onFio fun f => { f with level := 0x80000000#32 }, 31, _, now (by decide +kernel), ?_, ?_, rfl, ?_⟩ <;> decide +kernel),
    (by refine ⟨st (live.setBit R.FIO_EDGE_R 31), 0, live.setBit R.FIO_EDGE_R 31, 31, now (by decide +kernel), ?_, ?_, ?_,
      ?_⟩ <;> decide +kernel),
    (by refine ⟨st ({ live with fio := { openPairs := [(7, 0)] }, time := { live.time with tb3 := BitVec.ofNat 96 (20000000000 * 2 ^ 32) } }),
      0, { live with fio := { openPairs := [(7, 0)] }, time := { live.time with tb3 := BitVec.ofNat 96 (20000000000 * 2 ^ 32) } },
      7, 0, now (by decide +kernel), ?_, ?_, ?_⟩ <;> decide +kernel),
    (by refine ⟨st ({ live with fio := { openPairs := [(7, 0)] } }), 0, { live with fio := { openPairs := [(7, 0)] } }, 7, 0,
      now (by decide +kernel), ?_, ?_, ?_⟩ <;> decide +kernel),
    (by refine ⟨st (live.setBit R.FIO_WB_EN 31), 0, live.setBit R.FIO_WB_EN 31, 31, now (by decide +kernel), ?_, ?_,
      ?_⟩ <;> decide +kernel),
    ⟨st ({ live with fio := { events := [⟨31, true, 8⟩] } }), 0, { live with fio := { events := [⟨31, true, 8⟩] } }, 0,
      now (by decide +kernel), by decide +kernel⟩,
    ⟨st ({ live with fio := { events := [⟨31, true, 8⟩] } }), 0, { live with fio := { events := [⟨31, true, 8⟩] } }, ⟨31, true, 8⟩,
      [], now (by decide +kernel), by decide +kernel⟩,
    ⟨st ({ live with fio := { pairs := [⟨7, 8, 2, false, false, false⟩] } }), 0,
      { live with fio := { pairs := [⟨7, 8, 2, false, false, false⟩] } }, now (by decide +kernel), by decide +kernel⟩,
    ⟨st ({ live with fio := { pairs := [⟨7, 8, 2, false, false, false⟩] } }), 0,
      { live with fio := { pairs := [⟨7, 8, 2, false, false, false⟩] } }, ⟨7, 8, 2, false, false, false⟩, [],
      now (by decide +kernel), by decide +kernel⟩,
    ⟨st live, 0, live, now (by decide +kernel), by decide +kernel⟩⟩

theorem test_witness_FieldOutputsSwitchOffAndReturn :
    (∃ (s : State) (dt : Nat) (m : Chip) (n : Nat), Now s dt m ∧ n < 17 ∧ m.driverOn n = true) ∧
    (∃ (s : State) (dt : Nat) (m : Chip) (n : Nat), Now s dt m ∧ n < 17 ∧ m.driverOn n = false) ∧
    (∃ (s : State) (dt : Nat) (m : Chip) (n : Nat), Now s dt m ∧ n < 17 ∧ m.retryDue n = true) ∧
    (∃ (s : State) (dt : Nat) (m : Chip) (n : Nat), Now s dt m ∧ n < 17 ∧ m.retryDue n = false) ∧
    (∃ (s : State) (dt : Nat) (m : Chip) (g : Nat), Now s dt m ∧ g < 7) ∧
    (∃ (s : State) (dt : Nat) (m : Chip) (outs : Nat), Now s dt m ∧ outs < 2 ^ 16) :=
  ⟨⟨st (live.put F.FIO_OUT_RB_run_permit 1), 0, live.put F.FIO_OUT_RB_run_permit 1, 16, now (by decide +kernel), by decide +kernel,
    by decide +kernel⟩,
    ⟨st ({ live with fio := { runFault := true } }.put F.FIO_OUT_run_req 1), 0,
      { live with fio := { runFault := true } }.put F.FIO_OUT_run_req 1, 16, now (by decide +kernel), by decide +kernel,
      by decide +kernel⟩,
    ⟨st ({ live with fio := { runFault := true } }.put F.FIO_OUT_run_req 1), 0,
      { live with fio := { runFault := true } }.put F.FIO_OUT_run_req 1, 16, now (by decide +kernel), by decide +kernel,
      by decide +kernel⟩,
    ⟨st live, 0, live, 0, now (by decide +kernel), by decide +kernel, by decide +kernel⟩,
    ⟨st live, 0, live, 0, now (by decide +kernel), by decide +kernel⟩,
    ⟨st live, 0, live, 0, now (by decide +kernel), by decide +kernel⟩⟩

theorem test_witness_PegPortsSealAndListen :
    (∃ (s : State) (dt : Nat) (m : Chip) (p : Nat) (slot : Nat) (x : Chip), Now s dt m ∧ p < Config.pegPorts ∧
      (m.peg p).transmitting = true ∧ slot = m.tb3 / 10000 % 2 ^ 48 ∧ ((m.peg p).everSealed = false ∨ slot ≠ (m.peg p).lastSlot) ∧
      x = (m.applyPortEn p).setPeg p { (m.applyPortEn p).peg p with everSealed := true, lastSlot := slot, answered := false } ∧
      x.mode = 3) ∧
    (∃ (s : State) (dt : Nat) (m : Chip) (p : Nat) (slot : Nat) (x : Chip), Now s dt m ∧ p < Config.pegPorts ∧
      (m.peg p).transmitting = true ∧ slot = m.tb3 / 10000 % 2 ^ 48 ∧ ((m.peg p).everSealed = false ∨ slot ≠ (m.peg p).lastSlot) ∧
      x = (m.applyPortEn p).setPeg p { (m.applyPortEn p).peg p with everSealed := true, lastSlot := slot, answered := false } ∧
      x.mode ≠ 3 ∧ ((x.peg p).enApplied = false ∨ x.follower = true)) ∧
    (∃ (s : State) (dt : Nat) (m : Chip) (p : Nat) (slot : Nat) (x : Chip), Now s dt m ∧ p < Config.pegPorts ∧
      (m.peg p).transmitting = true ∧ slot = m.tb3 / 10000 % 2 ^ 48 ∧ ((m.peg p).everSealed = false ∨ slot ≠ (m.peg p).lastSlot) ∧
      x = (m.applyPortEn p).setPeg p { (m.applyPortEn p).peg p with everSealed := true, lastSlot := slot, answered := false } ∧
      x.mode ≠ 3 ∧ (x.peg p).enApplied = true ∧ x.follower = false) ∧
    (∃ (s : State) (dt : Nat) (m : Chip) (p : Nat) (slot : Nat), Now s dt m ∧ p < Config.pegPorts ∧ (m.peg p).transmitting = true ∧
      slot = m.tb3 / 10000 % 2 ^ 48 ∧ ((m.peg p).everSealed = false ∨ slot ≠ (m.peg p).lastSlot) ∧
      ((m.applyPortEn p).setPeg p { (m.applyPortEn p).peg p with everSealed := true, lastSlot := slot, answered := false }).mode ≠ 3 ∧
      (((m.applyPortEn p).setPeg p { (m.applyPortEn p).peg p with everSealed := true, lastSlot := slot, answered := false }).peg p).enApplied = true ∧
      ((m.applyPortEn p).setPeg p { (m.applyPortEn p).peg p with everSealed := true, lastSlot := slot, answered := false }).follower = false) ∧
    (∃ (s : State) (dt : Nat) (m : Chip) (p : Nat), Now s dt m ∧ p < Config.pegPorts ∧ ((m.peg p).transmitting = false ∨
      ((m.peg p).everSealed = true ∧ m.tb3 / 10000 % 2 ^ 48 = (m.peg p).lastSlot))) ∧
    (∃ (s : State) (dt : Nat) (m : Chip) (p : Nat) (v : Nat) (x : Chip), Now s dt m ∧ p < Config.pegPorts ∧ v < 256 ∧
      m.overOpen p v = true ∧
      (x = forAll ((m.queue p).filter (holdsValve v)) (fun e m => m.entryCancelled { e with truncated := true }) (m.setQueue p ((m.queue p).filter fun e => !holdsValve v e)))) ∧
    (∃ (s : State) (dt : Nat) (m : Chip) (p : Nat) (v : Nat), Now s dt m ∧ p < Config.pegPorts ∧ v < 256 ∧ m.overOpen p v = false) ∧
    (∃ (s : State) (dt : Nat) (m : Chip) (p : Nat) (f : StatusFrame), Now s dt m ∧ p < Config.pegPorts ∧
      (m.peg p).everSealed = true ∧ (m.peg p).answered = false ∧ m.tb3 < ((m.peg p).lastSlot + 1) * 10000 ∧ f.crcOk = false) ∧
    (∃ (s : State) (dt : Nat) (m : Chip) (p : Nat) (f : StatusFrame), Now s dt m ∧ p < Config.pegPorts ∧
      (m.peg p).everSealed = true ∧ (m.peg p).answered = false ∧ m.tb3 < ((m.peg p).lastSlot + 1) * 10000 ∧ f.crcOk = true ∧
      f.tagOk = false) ∧
    (∃ (s : State) (dt : Nat) (m : Chip) (p : Nat) (f : StatusFrame) (x : Chip) (y : Chip), Now s dt m ∧ p < Config.pegPorts ∧
      (m.peg p).everSealed = true ∧ (m.peg p).answered = false ∧ m.tb3 < ((m.peg p).lastSlot + 1) * 10000 ∧ f.crcOk = true ∧
      f.tagOk = true ∧ f.bankId = m.get (F.PEG_CFG_bank_id p) ∧ f.seq = (m.peg p).lastSlot % 2 ^ 24 ∧
      f.nonce = (m.rd (R.PEG_NONCE p)).toNat ∧ f.flags = 0 ∧ f.active = true ∧
      x = ((m.setPeg p { m.peg p with answered := true, missRun := 0, fullNext := (m.peg p).fullNext, faultFlags := 0 }).wr (R.PEG_NONCE p) (BitVec.ofNat 32 f.nonce)).bump (R.PEG_CNT_STATUS p) ∧
      y = (x.put (F.PEG_STAT_active p) 1).wr (R.PEG_VFAULT p (f.slice % 8)) (BitVec.ofNat 32 f.faults) ∧ y.role ≠ 2) ∧
    (∃ (s : State) (dt : Nat) (m : Chip) (p : Nat), Now s dt m ∧ p < Config.pegPorts ∧ (m.peg p).everSealed = true ∧
      (m.peg p).answered = false ∧ ((m.peg p).lastSlot + 1) * 10000 ≤ m.tb3 ∧ (m.peg p).missRun ≠ 7) ∧
    (∃ (s : State) (dt : Nat) (m : Chip) (p : Nat), Now s dt m ∧ p < Config.pegPorts ∧ (m.peg p).everSealed = true ∧
      (m.peg p).answered = false ∧ ((m.peg p).lastSlot + 1) * 10000 ≤ m.tb3 ∧ (m.peg p).missRun = 7) ∧
    (∃ (s : State) (dt : Nat) (m : Chip) (p : Nat), Now s dt m ∧ p < Config.pegPorts) :=
  ⟨(by refine ⟨st ((live.setPeg 7 { transmitting := true }).put F.SUP_MODE_mode 3), 0,
    (live.setPeg 7 { transmitting := true }).put F.SUP_MODE_mode 3, 7, _, _, now (by decide +kernel), ?_, ?_, rfl, ?_, rfl,
    ?_⟩ <;> decide +kernel),
    (by refine ⟨st (live.setPeg 7 { transmitting := true }), 0, live.setPeg 7 { transmitting := true }, 7, _, _,
      now (by decide +kernel), ?_, ?_, rfl, ?_, rfl, ?_, ?_⟩ <;> decide +kernel),
    (by refine ⟨st ((live.setPeg 7 { transmitting := true }).put (F.PEG_CTRL_port_en 7) 1), 0,
      (live.setPeg 7 { transmitting := true }).put (F.PEG_CTRL_port_en 7) 1, 7, _, _, now (by decide +kernel), ?_, ?_, rfl, ?_, rfl,
      ?_, ?_, ?_⟩ <;> decide +kernel),
    (by refine ⟨st ((live.setPeg 7 { transmitting := true }).put (F.PEG_CTRL_port_en 7) 1), 0,
      (live.setPeg 7 { transmitting := true }).put (F.PEG_CTRL_port_en 7) 1, 7, _, now (by decide +kernel), ?_, ?_, rfl, ?_, ?_, ?_,
      ?_⟩ <;> decide +kernel),
    ⟨st ((live.setPeg 7 { openSince := [(255, 0)] }).setQueue 7 [{ entry0 with port := 7, vFirst := 250, vLast := 255, openSealed := true }]),
      0,
      (live.setPeg 7 { openSince := [(255, 0)] }).setQueue 7 [{ entry0 with port := 7, vFirst := 250, vLast := 255, openSealed := true }],
      7, now (by decide +kernel), by decide +kernel, by decide +kernel⟩,
    (by refine ⟨st ((live.setPeg 7 { openSince := [(255, 0)] }).setQueue 7 [{ entry0 with port := 7, vFirst := 250, vLast := 255, openSealed := true }]),
      0,
      (live.setPeg 7 { openSince := [(255, 0)] }).setQueue 7 [{ entry0 with port := 7, vFirst := 250, vLast := 255, openSealed := true }],
      7, 255, _, now (by decide +kernel), ?_, ?_, ?_, rfl⟩ <;> decide +kernel),
    (by refine ⟨st (live.setPeg 7 { everSealed := true, lastSlot := 1000000, answered := false }), 0,
      live.setPeg 7 { everSealed := true, lastSlot := 1000000, answered := false }, 7, 0, now (by decide +kernel), ?_, ?_,
      ?_⟩ <;> decide +kernel),
    (by refine ⟨st (live.setPeg 7 { everSealed := true, lastSlot := 1000000, answered := false }), 0,
      live.setPeg 7 { everSealed := true, lastSlot := 1000000, answered := false }, 7, { stat0 with crcOk := false },
      now (by decide +kernel), ?_, ?_, ?_, ?_, ?_⟩ <;> decide +kernel),
    (by refine ⟨st (live.setPeg 7 { everSealed := true, lastSlot := 1000000, answered := false }), 0,
      live.setPeg 7 { everSealed := true, lastSlot := 1000000, answered := false }, 7, { stat0 with tagOk := false },
      now (by decide +kernel), ?_, ?_, ?_, ?_, ?_, ?_⟩ <;> decide +kernel),
    (by refine ⟨st (live.setPeg 7 { everSealed := true, lastSlot := 1000000, answered := false }), 0,
      live.setPeg 7 { everSealed := true, lastSlot := 1000000, answered := false }, 7, { stat0 with seq := 1000000 }, _, _,
      now (by decide +kernel), ?_, ?_, ?_, ?_, ?_, ?_, ?_, ?_, ?_, ?_, ?_, rfl, rfl, ?_⟩ <;> decide +kernel),
    (by refine ⟨st (live.setPeg 7 { everSealed := true, lastSlot := 999999, answered := false, missRun := 6 }), 0,
      live.setPeg 7 { everSealed := true, lastSlot := 999999, answered := false, missRun := 6 }, 7, now (by decide +kernel), ?_, ?_,
      ?_, ?_, ?_⟩ <;> decide +kernel),
    (by refine ⟨st (live.setPeg 7 { everSealed := true, lastSlot := 999999, answered := false, missRun := 7 }), 0,
      live.setPeg 7 { everSealed := true, lastSlot := 999999, answered := false, missRun := 7 }, 7, now (by decide +kernel), ?_, ?_,
      ?_, ?_, ?_⟩ <;> decide +kernel),
    ⟨st live, 0, live, 0, now (by decide +kernel), by decide +kernel⟩⟩

theorem test_witness_VerdictsAreTakenInOnce :
    (∃ (s : State) (dt : Nat) (m : Chip) (g : VerdictGroup) (c : ClosedStrip), Now s dt m ∧ g.row < Config.rows ∧
      g.job < Config.jobs ∧ g.kind = 0 ∧ ((g.objs.all fun e => decide (e.verdict < 3)) = true) ∧ m.verdictBay g.closeBay = true ∧
      m.fire.inbox.contains g = true ∧ ((m.takeInbox fun y => y == g).openStrip g.job g.stream g.row g.strip g.closeBay = some c)) ∧
    (∃ (s : State) (dt : Nat) (m : Chip) (g : VerdictGroup), Now s dt m ∧ g.row < Config.rows ∧ g.job < Config.jobs ∧ g.kind = 0 ∧
      ((g.objs.all fun e => decide (e.verdict < 3)) = true) ∧ m.verdictBay g.closeBay = true ∧ m.fire.inbox.contains g = true ∧
      ((m.takeInbox fun y => y == g).openStrip g.job g.stream g.row g.strip g.closeBay = none)) ∧
    (∃ (s : State) (dt : Nat) (m : Chip) (g : VerdictGroup), Now s dt m ∧ g.row < Config.rows ∧ g.job < Config.jobs ∧ g.kind = 0 ∧
      ((g.objs.all fun e => decide (e.verdict < 3)) = true) ∧ (m.verdictBay g.closeBay = false ∨ m.fire.inbox.contains g = false)) ∧
    (∃ (s : State) (dt : Nat) (m : Chip) (job : Nat) (stream : Nat) (row : Nat) (strip : Nat) (closeBay : Nat) (c : ClosedStrip),
      Now s dt m ∧ row < Config.rows ∧ job < Config.jobs ∧ m.verdictBay closeBay = true ∧
      m.fire.inbox.any (isNotice job stream row strip closeBay) = true ∧
      (m.takeInbox (isNotice job stream row strip closeBay)).openStrip job stream row strip closeBay = some c) ∧
    (∃ (s : State) (dt : Nat) (m : Chip) (job : Nat) (stream : Nat) (row : Nat) (strip : Nat) (closeBay : Nat), Now s dt m ∧
      row < Config.rows ∧ job < Config.jobs ∧ m.verdictBay closeBay = true ∧
      m.fire.inbox.any (isNotice job stream row strip closeBay) = true ∧
      (m.takeInbox (isNotice job stream row strip closeBay)).openStrip job stream row strip closeBay = none) ∧
    (∃ (s : State) (dt : Nat) (m : Chip) (job : Nat) (stream : Nat) (row : Nat) (strip : Nat) (closeBay : Nat), Now s dt m ∧
      row < Config.rows ∧ job < Config.jobs ∧ (m.verdictBay closeBay = false ∨
      m.fire.inbox.any (isNotice job stream row strip closeBay) = false)) ∧
    (∃ (s : State) (dt : Nat) (m : Chip) (x : Chip), Now s dt m ∧ m.bays.running = true ∧ m.bays.verdictDone = false ∧
      m.bays.startAt + 10000 ≤ m.now ∧ m.depth ≤ m.bay ∧
      (x = forAll ((m.fire.closed.filter fun c => c.closeBay == m.bay - m.depth).flatMap fun c => c.jobs.flatMap fun j => (c.streams.filter fun s => !c.taken.contains (j,
      s) && !c.aborted.contains j).map fun s => (c, j, s)) (fun y m => m.takeNotice y.1 y.2.1 y.2.2) m)) ∧
    (∃ (s : State) (dt : Nat) (m : Chip), Now s dt m ∧ m.bays.running = true ∧ m.bays.verdictDone = false ∧
      m.bays.startAt + 10000 ≤ m.now ∧ m.depth ≤ m.bay) ∧
    (∃ (s : State) (dt : Nat) (m : Chip), Now s dt m ∧ m.bays.verdictDone = true) ∧
    (∃ (s : State) (dt : Nat) (m : Chip) (r : Resv), Now s dt m ∧ ((m.fire.resvs.filter fun r => m.pastMark r.row r.cOpen) = [r]) ∧
      m.lateEject r.row = false) ∧
    (∃ (s : State) (dt : Nat) (m : Chip) (r : Resv), Now s dt m ∧ ((m.fire.resvs.filter fun r => m.pastMark r.row r.cOpen) = [r])) ∧
    (∃ (s : State) (dt : Nat) (m : Chip), Now s dt m ∧ ((m.fire.resvs.filter fun r => m.pastMark r.row r.cOpen) = [])) :=
  ⟨(by refine ⟨st ({ inBay with fire := { closed := [closed0], inbox := [group0] }, bays := { inBay.bays with bay := 40001 } }), 0,
    { inBay with fire := { closed := [closed0], inbox := [group0] }, bays := { inBay.bays with bay := 40001 } }, group0, closed0,
    now (by decide +kernel), ?_, ?_, ?_, ?_, ?_, ?_, ?_⟩ <;> decide +kernel),
    (by refine ⟨st ({ inBay with fire := { inbox := [group0] }, bays := { inBay.bays with bay := 40001 } }), 0,
      { inBay with fire := { inbox := [group0] }, bays := { inBay.bays with bay := 40001 } }, group0, now (by decide +kernel), ?_,
      ?_, ?_, ?_, ?_, ?_, ?_⟩ <;> decide +kernel),
    (by refine ⟨st ({ inBay with fire := { closed := [closed0] } }), 0, { inBay with fire := { closed := [closed0] } }, group0,
      now (by decide +kernel), ?_, ?_, ?_, ?_, ?_⟩ <;> decide +kernel),
    (by refine ⟨st ({ inBay with fire := { closed := [closed0], inbox := [{ group0 with kind := 1 }] }, bays := { inBay.bays with bay := 40001 } }),
      0,
      { inBay with fire := { closed := [closed0], inbox := [{ group0 with kind := 1 }] }, bays := { inBay.bays with bay := 40001 } },
      0, 0, 0, 0, 39999, closed0, now (by decide +kernel), ?_, ?_, ?_, ?_, ?_⟩ <;> decide +kernel),
    (by refine ⟨st ({ inBay with fire := { inbox := [{ group0 with kind := 1 }] }, bays := { inBay.bays with bay := 40001 } }), 0,
      { inBay with fire := { inbox := [{ group0 with kind := 1 }] }, bays := { inBay.bays with bay := 40001 } }, 0, 0, 0, 0, 39999,
      now (by decide +kernel), ?_, ?_, ?_, ?_, ?_⟩ <;> decide +kernel),
    (by refine ⟨st live, 0, live, 0, 0, 0, 0, 0, now (by decide +kernel), ?_, ?_, ?_⟩ <;> decide +kernel),
    (by refine ⟨st ({ inBay with bays := { inBay.bays with startAt := 9999990000 } }), 0,
      { inBay with bays := { inBay.bays with startAt := 9999990000 } }, _, now (by decide +kernel), ?_, ?_, ?_, ?_,
      rfl⟩ <;> decide +kernel),
    (by refine ⟨st ({ inBay with bays := { inBay.bays with startAt := 9999990000 } }), 0,
      { inBay with bays := { inBay.bays with startAt := 9999990000 } }, now (by decide +kernel), ?_, ?_, ?_,
      ?_⟩ <;> decide +kernel),
    ⟨st ({ inBay with bays := { inBay.bays with verdictDone := true } }), 0,
      { inBay with bays := { inBay.bays with verdictDone := true } }, now (by decide +kernel), by decide +kernel⟩,
    ⟨st ({ live with fire := { resvs := [{ row := 0, map := 0, port := 0, strip := 0, closeBay := 0, provId := 0, vFirst := 0, vLast := 0, cOpen := 0, cClose := 1, countLead := 0 }] } }),
      0,
      { live with fire := { resvs := [{ row := 0, map := 0, port := 0, strip := 0, closeBay := 0, provId := 0, vFirst := 0, vLast := 0, cOpen := 0, cClose := 1, countLead := 0 }] } },
      { row := 0, map := 0, port := 0, strip := 0, closeBay := 0, provId := 0, vFirst := 0, vLast := 0, cOpen := 0, cClose := 1, countLead := 0 },
      now (by decide +kernel), by decide +kernel, by decide +kernel⟩,
    ⟨st ({ live with fire := { resvs := [{ row := 0, map := 0, port := 0, strip := 0, closeBay := 0, provId := 0, vFirst := 0, vLast := 0, cOpen := 0, cClose := 1, countLead := 0 }] } }),
      0,
      { live with fire := { resvs := [{ row := 0, map := 0, port := 0, strip := 0, closeBay := 0, provId := 0, vFirst := 0, vLast := 0, cOpen := 0, cClose := 1, countLead := 0 }] } },
      { row := 0, map := 0, port := 0, strip := 0, closeBay := 0, provId := 0, vFirst := 0, vLast := 0, cOpen := 0, cClose := 1, countLead := 0 },
      now (by decide +kernel), by decide +kernel⟩,
    ⟨st live, 0, live, now (by decide +kernel), by decide +kernel⟩⟩

theorem test_witness_TheMirrorQueuesEveryEntry :
    (∃ (s : State) (dt : Nat) (m : Chip) (id : Nat) (o : MirrorOut) (e : FEntry), Now s dt m ∧
      ((m.fire.mirror.find? fun o => o.id == id) = some o) ∧ o.record = .entry e) ∧
    (∃ (s : State) (dt : Nat) (m : Chip) (id : Nat) (o : MirrorOut) (e : FEntry), Now s dt m ∧
      ((m.fire.mirror.find? fun o => o.id == id) = some o) ∧ o.record = .entry e ∧
      ((m.mirrorTake o).bump R.PUR_CNT_MIRROR).mode ≠ 3 ∧ e.cancelled = false ∧ e.port < m.fire.queues.length) ∧
    (∃ (s : State) (dt : Nat) (m : Chip) (id : Nat), Now s dt m ∧ ((m.fire.mirror.find? fun o => o.id == id) = none)) ∧
    (∃ (s : State) (dt : Nat) (m : Chip) (o : MirrorOut), Now s dt m ∧ m.fire.mirror = [o] ∧ o.resent = false ∧
      o.sentAt + m.mirrorRto ≤ m.now) ∧
    (∃ (s : State) (dt : Nat) (m : Chip) (o : MirrorOut) (e : FEntry), Now s dt m ∧ m.fire.mirror = [o] ∧ o.record = .entry e ∧
      o.sentAt + 5000 ≤ m.now) ∧
    (∃ (s : State) (dt : Nat) (m : Chip), Now s dt m ∧ m.fire.mirror = []) ∧
    (∃ (s : State) (dt : Nat) (m : Chip), Now s dt m ∧ m.role ≠ 2) ∧
    (∃ (s : State) (dt : Nat) (m : Chip) (e : FEntry) (x : Chip), Now s dt m ∧ m.role = 2 ∧ m.keyHeld e.key = false ∧
      x = m.queueEntry e) ∧
    (∃ (s : State) (dt : Nat) (m : Chip) (e : FEntry), Now s dt m ∧ m.role = 2 ∧ m.keyHeld e.key = false ∧ m.mode ≠ 3 ∧
      e.cancelled = false ∧ e.port < m.fire.queues.length) ∧
    (∃ (s : State) (dt : Nat) (m : Chip), Now s dt m ∧ m.get F.PUR_MIRROR_CFG_mrole = 1 ∧
      m.purState (m.get F.PUR_MIRROR_CFG_mport) = 3) ∧
    (∃ (s : State) (dt : Nat) (m : Chip), Now s dt m ∧ (m.get F.PUR_MIRROR_CFG_mrole ≠ 1 ∨
      m.purState (m.get F.PUR_MIRROR_CFG_mport) ≠ 3)) ∧
    (∃ (s : State) (dt : Nat) (m : Chip), Now s dt m ∧ m.role = 2 ∧ m.sup.mirrorAliveAt + 30000 ≤ m.now) :=
  ⟨⟨st ({ live with fire := { mirror := [{ id := 0, sentAt := 0, record := .entry entry0 }] } }), 0,
    { live with fire := { mirror := [{ id := 0, sentAt := 0, record := .entry entry0 }] } }, 0,
    { id := 0, sentAt := 0, record := .entry entry0 }, entry0, now (by decide +kernel), by decide +kernel, by decide +kernel⟩,
    (by refine ⟨st ({ live with fire := { mirror := [{ id := 0, sentAt := 0, record := .entry entry0 }] } }), 0,
      { live with fire := { mirror := [{ id := 0, sentAt := 0, record := .entry entry0 }] } }, 0,
      { id := 0, sentAt := 0, record := .entry entry0 }, entry0, now (by decide +kernel), ?_, ?_, ?_, ?_, ?_⟩ <;> decide +kernel),
    ⟨st live, 0, live, 0, now (by decide +kernel), by decide +kernel⟩,
    (by refine ⟨st ({ live with fire := { mirror := [{ id := 0, sentAt := 0, record := .entry entry0 }] } }), 0,
      { live with fire := { mirror := [{ id := 0, sentAt := 0, record := .entry entry0 }] } },
      { id := 0, sentAt := 0, record := .entry entry0 }, now (by decide +kernel), ?_, ?_, ?_⟩ <;> decide +kernel),
    (by refine ⟨st ({ live with fire := { mirror := [{ id := 0, sentAt := 0, record := .entry entry0 }] } }), 0,
      { live with fire := { mirror := [{ id := 0, sentAt := 0, record := .entry entry0 }] } },
      { id := 0, sentAt := 0, record := .entry entry0 }, entry0, now (by decide +kernel), ?_, ?_, ?_⟩ <;> decide +kernel),
    ⟨st live, 0, live, now (by decide +kernel), by decide +kernel⟩,
    ⟨st live, 0, live, now (by decide +kernel), by decide +kernel⟩,
    ⟨st (live.put F.FS_STAT_role 2), 0, live.put F.FS_STAT_role 2, entry0, _, now (by decide +kernel), by decide +kernel,
      by decide +kernel, rfl⟩,
    (by refine ⟨st (live.put F.FS_STAT_role 2), 0, live.put F.FS_STAT_role 2, entry0, now (by decide +kernel), ?_, ?_, ?_, ?_,
      ?_⟩ <;> decide +kernel),
    ⟨st ((live.put F.PUR_MIRROR_CFG_mrole 1).put (F.PUR_STAT_state 0) 3), 0,
      (live.put F.PUR_MIRROR_CFG_mrole 1).put (F.PUR_STAT_state 0) 3, now (by decide +kernel), by decide +kernel,
      by decide +kernel⟩,
    ⟨st live, 0, live, now (by decide +kernel), by decide +kernel⟩,
    ⟨st (live.put F.FS_STAT_role 2), 0, live.put F.FS_STAT_role 2, now (by decide +kernel), by decide +kernel, by decide +kernel⟩⟩

theorem test_witness_BaysTurnAtTheirBoundaries :
    (∃ (s : State) (dt : Nat) (m : Chip), Now s dt m ∧ m.bays.running = true ∧ (m.bay + 1) * m.period ≤ m.tb3) ∧
    (∃ (s : State) (dt : Nat) (m : Chip), Now s dt m ∧ (m.bays.running = false ∨ m.tb3 < (m.bay + 1) * m.period)) :=
  ⟨⟨st ({ inBay with bays := { inBay.bays with bay := 39999 } }), 0, { inBay with bays := { inBay.bays with bay := 39999 } },
    now (by decide +kernel), by decide +kernel, by decide +kernel⟩,
    ⟨st live, 0, live, now (by decide +kernel), by decide +kernel⟩⟩

theorem test_witness_WitnessMarksMeetTheirDeadlines :
    (∃ (s : State) (dt : Nat) (m : Chip), Now s dt m ∧ m.bays.running = true ∧ m.bayEnds = true) ∧
    (∃ (s : State) (dt : Nat) (m : Chip), Now s dt m ∧ (m.bays.running = false ∨ m.bayEnds = false)) ∧
    (∃ (s : State) (dt : Nat) (m : Chip) (f : MarksFrame) (v : MarkSet), Now s dt m ∧ m.follower = true ∧
      ((m.wit.own.find? fun s => m.framePairs f s) = some v)) ∧
    (∃ (s : State) (dt : Nat) (m : Chip) (f : MarksFrame), Now s dt m ∧ m.follower = true ∧
      ((m.wit.own.find? fun s => m.framePairs f s) = none) ∧ f.background = true) ∧
    (∃ (s : State) (dt : Nat) (m : Chip), Now s dt m ∧ m.follower = false) ∧
    (∃ (s : State) (dt : Nat) (m : Chip) (v : MarkSet), Now s dt m ∧ m.follower = true ∧
      ((m.wit.own.filter fun s => decide (m.frameUntil s < m.bay) || (m.bayEnds && decide (m.frameUntil s = m.bay))) = [v])) ∧
    (∃ (s : State) (dt : Nat) (m : Chip), Now s dt m ∧ m.wit.ring = []) ∧
    (∃ (s : State) (dt : Nat) (m : Chip), Now s dt m) :=
  ⟨⟨st ({ inBay with bays := { inBay.bays with startAt := 0 } }), 0, { inBay with bays := { inBay.bays with startAt := 0 } },
    now (by decide +kernel), by decide +kernel, by decide +kernel⟩,
    ⟨st live, 0, live, now (by decide +kernel), by decide +kernel⟩,
    ⟨st ({ live with wit := { own := [set0] } }.put F.WIT_CFG_lock_role 2), 0,
      { live with wit := { own := [set0] } }.put F.WIT_CFG_lock_role 2, frame0, set0, now (by decide +kernel), by decide +kernel,
      by decide +kernel⟩,
    (by refine ⟨st (live.put F.WIT_CFG_lock_role 2), 0, live.put F.WIT_CFG_lock_role 2, frame0, now (by decide +kernel), ?_, ?_,
      ?_⟩ <;> decide +kernel),
    ⟨st live, 0, live, now (by decide +kernel), by decide +kernel⟩,
    ⟨st ({ inBay with wit := { own := [set0] } }.put F.WIT_CFG_lock_role 2), 0,
      { inBay with wit := { own := [set0] } }.put F.WIT_CFG_lock_role 2, set0, now (by decide +kernel), by decide +kernel,
      by decide +kernel⟩,
    ⟨st live, 0, live, now (by decide +kernel), by decide +kernel⟩,
    ⟨st live, 0, live, now (by decide +kernel)⟩⟩

theorem test_witness_CamerasComeUpAndGoDown :
    (∃ (s : State) (dt : Nat) (m : Chip) (n : Nat) (c : CameraRec), Now s dt m ∧ n < Config.links ∧ m.camOf n = some c ∧
      7 ≤ m.boot.step ∧ m.camBlocked c = false ∧ m.camState c = stDown ∧ (m.cam n).restartAt = none) ∧
    (∃ (s : State) (dt : Nat) (m : Chip) (n : Nat) (c : CameraRec), Now s dt m ∧ n < Config.links ∧ m.camOf n = some c ∧
      7 ≤ m.boot.step ∧ m.camBlocked c = false ∧ m.camState c = stDown ∧ (m.cam n).restartAt = none ∧ 0 < m.now) ∧
    (∃ (s : State) (dt : Nat) (m : Chip) (n : Nat) (c : CameraRec) (r : CamReply), Now s dt m ∧ n < Config.links ∧
      m.camOf n = some c ∧ 7 ≤ m.boot.step ∧ m.camBlocked c = false ∧ m.camState c = stConfiguring ∧
      ((m.cam n).ctrl.any (fun k => k.sender == .bringUp) = false) ∧ r.acked = true ∧ (m.cam n).phase = 3 ∧ r.vendor = c.vendor ∧
      r.model = c.model ∧ r.revMajor = c.revMajor) ∧
    (∃ (s : State) (dt : Nat) (m : Chip) (n : Nat) (c : CameraRec) (r : CamReply), Now s dt m ∧ n < Config.links ∧
      m.camOf n = some c ∧ 7 ≤ m.boot.step ∧ m.camBlocked c = false ∧ m.camState c = stConfiguring ∧
      ((m.cam n).ctrl.any (fun k => k.sender == .bringUp) = false) ∧ r.acked = true ∧ (m.cam n).phase = 3 ∧ (r.vendor ≠ c.vendor ∨
      r.model ≠ c.model ∨ r.revMajor ≠ c.revMajor)) ∧
    (∃ (s : State) (dt : Nat) (m : Chip) (n : Nat) (c : CameraRec) (r : CamReply), Now s dt m ∧ n < Config.links ∧
      m.camOf n = some c ∧ 7 ≤ m.boot.step ∧ m.camBlocked c = false ∧ m.camState c = stConfiguring ∧
      ((m.cam n).ctrl.any (fun k => k.sender == .bringUp) = false) ∧ r.acked = true ∧ (m.cam n).phase = 4 ∧ r.orderOk = false) ∧
    (∃ (s : State) (dt : Nat) (m : Chip) (n : Nat) (c : CameraRec) (r : CamReply), Now s dt m ∧ n < Config.links ∧
      m.camOf n = some c ∧ 7 ≤ m.boot.step ∧ m.camBlocked c = false ∧ m.camState c = stConfiguring ∧
      ((m.cam n).ctrl.any (fun k => k.sender == .bringUp) = false) ∧ r.acked = true ∧ (m.cam n).phase = 5 ∧ r.trained = true) ∧
    (∃ (s : State) (dt : Nat) (m : Chip) (n : Nat) (c : CameraRec) (r : CamReply) (w : Nat × Nat), Now s dt m ∧ n < Config.links ∧
      m.camOf n = some c ∧ 7 ≤ m.boot.step ∧ m.camBlocked c = false ∧ m.camState c = stConfiguring ∧
      ((m.cam n).ctrl.any (fun k => k.sender == .bringUp) = false) ∧ r.acked = true ∧ (m.cam n).phase = 6 ∧
      c.regs[(m.cam n).regAt]? = some w ∧ r.readBack = w.2) ∧
    (∃ (s : State) (dt : Nat) (m : Chip) (n : Nat) (c : CameraRec) (r : CamReply), Now s dt m ∧ n < Config.links ∧
      m.camOf n = some c ∧ 7 ≤ m.boot.step ∧ m.camBlocked c = false ∧ m.camState c = stConfiguring ∧
      ((m.cam n).ctrl.any (fun k => k.sender == .bringUp) = false) ∧ r.acked = true ∧ (m.cam n).phase = 5 ∧ r.trained = false) ∧
    (∃ (s : State) (dt : Nat) (m : Chip) (n : Nat) (c : CameraRec) (r : CamReply), Now s dt m ∧ n < Config.links ∧
      m.camOf n = some c ∧ 7 ≤ m.boot.step ∧ m.camBlocked c = false ∧ m.camState c = stConfiguring ∧
      ((m.cam n).ctrl.any (fun k => k.sender == .bringUp) = false) ∧ r.acked = true ∧ (m.cam n).phase = 7) ∧
    (∃ (s : State) (dt : Nat) (m : Chip) (n : Nat) (c : CameraRec), Now s dt m ∧ n < Config.links ∧ m.camOf n = some c ∧
      (m.camState c = stDiscovering ∨ m.camState c = stPowering) ∧ (m.cam n).pollAt = none) ∧
    (∃ (s : State) (dt : Nat) (m : Chip) (n : Nat) (c : CameraRec) (t : Nat), Now s dt m ∧ n < Config.links ∧ m.camOf n = some c ∧
      m.camState c = stDiscovering ∧ (m.cam n).pollAt = some t ∧ m.now < t + 100000000) ∧
    (∃ (s : State) (dt : Nat) (m : Chip) (n : Nat) (t : Nat) (c : CameraRec), Now s dt m ∧ n < Config.links ∧ m.camOf n = some c ∧
      m.stepLimit c = some t ∧ t ≤ m.now) ∧
    (∃ (s : State) (dt : Nat) (m : Chip) (n : Nat) (t : Nat) (c : CameraRec), Now s dt m ∧ n < Config.links ∧ m.camOf n = some c ∧
      (m.cam n).restartAt = some t ∧ t ≤ m.now) ∧
    (∃ (s : State) (dt : Nat) (m : Chip) (n : Nat) (t : Nat) (c : CameraRec), Now s dt m ∧ n < Config.links ∧ m.camOf n = some c ∧
      (m.cam n).restartAt = some t ∧ t ≤ m.now ∧ m.camBlocked c = false ∧ (m.cam n).restartFrom = 3) ∧
    (∃ (s : State) (dt : Nat) (m : Chip) (n : Nat) (t : Nat) (c : CameraRec), Now s dt m ∧ n < Config.links ∧ m.camOf n = some c ∧
      (m.cam n).restartAt = some t ∧ m.now < t) ∧
    (∃ (s : State) (dt : Nat) (m : Chip) (link : Nat) (c : CameraRec), Now s dt m ∧ link < Config.links ∧
      m.camOfLink link = some c ∧ (m.camState c = stStreaming ∨ m.camState c = stRejected ∨ m.camState c = stCapture)) ∧
    (∃ (s : State) (dt : Nat) (m : Chip) (link : Nat) (c : CameraRec), Now s dt m ∧ link < Config.links ∧
      m.camOfLink link = some c ∧ (m.camState c = stPowering ∨ m.camState c = stDiscovering ∨ m.camState c = stConfiguring ∨
      m.camState c = stAwaiting)) ∧
    (∃ (s : State) (dt : Nat) (m : Chip) (n : Nat) (c : CameraRec), Now s dt m ∧ n < Config.links ∧ m.camOf n = some c) ∧
    (∃ (s : State) (dt : Nat) (m : Chip) (n : Nat) (c : CameraRec), Now s dt m ∧ n < Config.links ∧ m.camOf n = some c ∧
      m.camBlocked c = false) ∧
    (∃ (s : State) (dt : Nat) (m : Chip) (link : Nat) (c : CameraRec), Now s dt m ∧ link < Config.links ∧
      m.camOfLink link = some c) ∧
    (∃ (s : State) (dt : Nat) (m : Chip) (link : Nat) (c : CameraRec), Now s dt m ∧ link < Config.links ∧
      m.camOfLink link = some c ∧ (m.poc c.master).on = true ∧ 0 < c.links) ∧
    (∃ (s : State) (dt : Nat) (m : Chip) (link : Nat) (c : CameraRec) (x : Chip), Now s dt m ∧ link < Config.links ∧
      x = m.put (F.CXP_LINK_CTRL_link_hold link) 0 ∧ m.camOfLink link = some c ∧ x.camHeld c = false ∧ 7 ≤ m.boot.step ∧
      (((camLinks c).any (fun n => x.get (F.CXP_LINK_STAT_state n) == stHeld)) = true)) ∧
    (∃ (s : State) (dt : Nat) (m : Chip) (link : Nat) (c : CameraRec) (l : List Nat), Now s dt m ∧ link < Config.links ∧
      m.flag (F.CXP_LINK_CFG_poc link) = true ∧ (m.poc link).on = true ∧ m.camOfLink link = some c ∧
      (l = ((m.poc link).faults.filter fun t => decide (m.now < t + 60000000000)) ++ [m.now]) ∧ l.length < 3) ∧
    (∃ (s : State) (dt : Nat) (m : Chip) (link : Nat) (c : CameraRec) (l : List Nat), Now s dt m ∧ link < Config.links ∧
      m.flag (F.CXP_LINK_CFG_poc link) = true ∧ (m.poc link).on = true ∧ m.camOfLink link = some c ∧
      (l = ((m.poc link).faults.filter fun t => decide (m.now < t + 60000000000)) ++ [m.now]) ∧ 3 ≤ l.length) ∧
    (∃ (s : State) (dt : Nat) (m : Chip) (link : Nat) (t : Nat) (c : CameraRec), Now s dt m ∧ link < Config.links ∧
      (m.poc link).offSince = some t ∧ t + 1000000000 ≤ m.now ∧ m.camOfLink link = some c ∧ m.camHeld c = false) ∧
    (∃ (s : State) (dt : Nat) (m : Chip) (link : Nat) (t : Nat) (c : CameraRec), Now s dt m ∧ link < Config.links ∧
      (m.poc link).offSince = some t ∧ t + 1000000000 ≤ m.now ∧ m.camOfLink link = some c ∧ m.camHeld c = false ∧
      (m.poc link).faults ≠ [] ∧ (m.poc link).on = false) ∧
    (∃ (s : State) (dt : Nat) (m : Chip) (link : Nat) (t : Nat), Now s dt m ∧ link < Config.links ∧ (m.poc link).offSince = some t ∧
      m.now < t + 1000000000) ∧
    (∃ (s : State) (dt : Nat) (m : Chip) (link : Nat) (c : CameraRec) (x : Chip), Now s dt m ∧ link < Config.links ∧
      (m.poc link).locked = true ∧ x = m.setPoc link { m.poc link with locked := false, faults := [], offSince := none } ∧
      m.camOfLink link = some c ∧ m.camHeld c = false) ∧
    (∃ (s : State) (dt : Nat) (m : Chip) (link : Nat) (c : CameraRec) (x : Chip), Now s dt m ∧ link < Config.links ∧
      (m.poc link).locked = true ∧ x = m.setPoc link { m.poc link with locked := false, faults := [], offSince := none } ∧
      m.camOfLink link = some c ∧ m.camHeld c = false ∧ (x.setCamState c stDown).camBlocked c = false ∧ 0 < m.now) :=
  ⟨(by refine ⟨st live, 0, live, 0, cam0, now (by decide +kernel), ?_, ?_, ?_, ?_, ?_, ?_⟩ <;> decide +kernel),
    (by refine ⟨st live, 0, live, 0, cam0, now (by decide +kernel), ?_, ?_, ?_, ?_, ?_, ?_, ?_⟩ <;> decide +kernel),
    (by refine ⟨st ((live.setCam 0 { phase := 3 }).setCamState cam0 stConfiguring), 0,
      (live.setCam 0 { phase := 3 }).setCamState cam0 stConfiguring, 0, cam0, {}, now (by decide +kernel), ?_, ?_, ?_, ?_, ?_, ?_,
      ?_, ?_, ?_, ?_, ?_⟩ <;> decide +kernel),
    (by refine ⟨st ((live.setCam 0 { phase := 3 }).setCamState cam0 stConfiguring), 0,
      (live.setCam 0 { phase := 3 }).setCamState cam0 stConfiguring, 0, cam0, { revMajor := 1 }, now (by decide +kernel), ?_, ?_,
      ?_, ?_, ?_, ?_, ?_, ?_, ?_⟩ <;> decide +kernel),
    (by refine ⟨st ((live.setCam 0 { phase := 4 }).setCamState cam0 stConfiguring), 0,
      (live.setCam 0 { phase := 4 }).setCamState cam0 stConfiguring, 0, cam0, { orderOk := false }, now (by decide +kernel), ?_, ?_,
      ?_, ?_, ?_, ?_, ?_, ?_, ?_⟩ <;> decide +kernel),
    (by refine ⟨st ((live.setCam 0 { phase := 5 }).setCamState cam0 stConfiguring), 0,
      (live.setCam 0 { phase := 5 }).setCamState cam0 stConfiguring, 0, cam0, {}, now (by decide +kernel), ?_, ?_, ?_, ?_, ?_, ?_,
      ?_, ?_, ?_⟩ <;> decide +kernel),
    (by refine ⟨st (({ live with stick := { stick0 with cameras := [{ cam0 with regs := [(4, 7)] }] } }.setCam 0 { phase := 6 }).setCamState cam0 stConfiguring),
      0,
      ({ live with stick := { stick0 with cameras := [{ cam0 with regs := [(4, 7)] }] } }.setCam 0 { phase := 6 }).setCamState cam0 stConfiguring,
      0, { cam0 with regs := [(4, 7)] }, { readBack := 7 }, (4, 7), now (by decide +kernel), ?_, ?_, ?_, ?_, ?_, ?_, ?_, ?_, ?_,
      ?_⟩ <;> decide +kernel),
    (by refine ⟨st ((live.setCam 0 { phase := 5 }).setCamState cam0 stConfiguring), 0,
      (live.setCam 0 { phase := 5 }).setCamState cam0 stConfiguring, 0, cam0, { trained := false }, now (by decide +kernel), ?_, ?_,
      ?_, ?_, ?_, ?_, ?_, ?_, ?_⟩ <;> decide +kernel),
    (by refine ⟨st ((live.setCam 0 { phase := 7 }).setCamState cam0 stConfiguring), 0,
      (live.setCam 0 { phase := 7 }).setCamState cam0 stConfiguring, 0, cam0, {}, now (by decide +kernel), ?_, ?_, ?_, ?_, ?_, ?_,
      ?_, ?_⟩ <;> decide +kernel),
    (by refine ⟨st (live.setCamState cam0 stDiscovering), 0, live.setCamState cam0 stDiscovering, 0, cam0, now (by decide +kernel),
      ?_, ?_, ?_, ?_⟩ <;> decide +kernel),
    (by refine ⟨st ((live.setCam 0 { pollAt := some 9999999999 }).setCamState cam0 stDiscovering), 0,
      (live.setCam 0 { pollAt := some 9999999999 }).setCamState cam0 stDiscovering, 0, cam0, 9999999999, now (by decide +kernel),
      ?_, ?_, ?_, ?_, ?_⟩ <;> decide +kernel),
    (by refine ⟨st (live.setCamState cam0 stDiscovering), 0, live.setCamState cam0 stDiscovering, 0, 0, cam0,
      now (by decide +kernel), ?_, ?_, ?_, ?_⟩ <;> decide +kernel),
    (by refine ⟨st (live.setCam 0 { restartAt := some 10000000000 }), 0, live.setCam 0 { restartAt := some 10000000000 }, 0,
      10000000000, cam0, now (by decide +kernel), ?_, ?_, ?_, ?_⟩ <;> decide +kernel),
    (by refine ⟨st (live.setCam 0 { restartAt := some 10000000000, restartFrom := 3 }), 0,
      live.setCam 0 { restartAt := some 10000000000, restartFrom := 3 }, 0, 10000000000, cam0, now (by decide +kernel), ?_, ?_, ?_,
      ?_, ?_, ?_⟩ <;> decide +kernel),
    (by refine ⟨st (live.setCam 0 { restartAt := some 10000000001 }), 0, live.setCam 0 { restartAt := some 10000000001 }, 0,
      10000000001, cam0, now (by decide +kernel), ?_, ?_, ?_, ?_⟩ <;> decide +kernel),
    (by refine ⟨st (live.setCamState cam0 stStreaming), 0, live.setCamState cam0 stStreaming, 0, cam0, now (by decide +kernel), ?_,
      ?_, ?_⟩ <;> decide +kernel),
    (by refine ⟨st (live.setCamState cam0 stConfiguring), 0, live.setCamState cam0 stConfiguring, 0, cam0, now (by decide +kernel),
      ?_, ?_, ?_⟩ <;> decide +kernel),
    ⟨st live, 0, live, 0, cam0, now (by decide +kernel), by decide +kernel, by decide +kernel⟩,
    (by refine ⟨st live, 0, live, 0, cam0, now (by decide +kernel), ?_, ?_, ?_⟩ <;> decide +kernel),
    ⟨st live, 0, live, 0, cam0, now (by decide +kernel), by decide +kernel, by decide +kernel⟩,
    (by refine ⟨st ((live.setPoc 0 { on := true, faults := [1] }).put (F.CXP_LINK_CFG_poc 0) 1), 0,
      (live.setPoc 0 { on := true, faults := [1] }).put (F.CXP_LINK_CFG_poc 0) 1, 0, cam0, now (by decide +kernel), ?_, ?_,
      ?_⟩ <;> decide +kernel),
    (by refine ⟨st (live.setCamState cam0 stHeld), 0, live.setCamState cam0 stHeld, 0, cam0, _, now (by decide +kernel), ?_, rfl,
      ?_, ?_, ?_, ?_⟩ <;> decide +kernel),
    (by refine ⟨st ((live.setPoc 0 { on := true, faults := [1] }).put (F.CXP_LINK_CFG_poc 0) 1), 0,
      (live.setPoc 0 { on := true, faults := [1] }).put (F.CXP_LINK_CFG_poc 0) 1, 0, cam0, _, now (by decide +kernel), ?_, ?_, ?_,
      ?_, rfl, ?_⟩ <;> decide +kernel),
    (by refine ⟨st ((live.setPoc 0 { on := true, faults := [1, 2] }).put (F.CXP_LINK_CFG_poc 0) 1), 0,
      (live.setPoc 0 { on := true, faults := [1, 2] }).put (F.CXP_LINK_CFG_poc 0) 1, 0, cam0, _, now (by decide +kernel), ?_, ?_,
      ?_, ?_, rfl, ?_⟩ <;> decide +kernel),
    (by refine ⟨st (live.setPoc 0 { offSince := some 9000000000 }), 0, live.setPoc 0 { offSince := some 9000000000 }, 0, 9000000000,
      cam0, now (by decide +kernel), ?_, ?_, ?_, ?_, ?_⟩ <;> decide +kernel),
    (by refine ⟨st (live.setPoc 0 { offSince := some 9000000000, faults := [1] }), 0,
      live.setPoc 0 { offSince := some 9000000000, faults := [1] }, 0, 9000000000, cam0, now (by decide +kernel), ?_, ?_, ?_, ?_,
      ?_, ?_⟩ <;> decide +kernel),
    (by refine ⟨st (live.setPoc 0 { offSince := some 9000000001 }), 0, live.setPoc 0 { offSince := some 9000000001 }, 0, 9000000001,
      now (by decide +kernel), ?_, ?_, ?_⟩ <;> decide +kernel),
    (by refine ⟨st (live.setPoc 0 { locked := true }), 0, live.setPoc 0 { locked := true }, 0, cam0, _, now (by decide +kernel), ?_,
      ?_, rfl, ?_, ?_⟩ <;> decide +kernel),
    (by refine ⟨st (live.setPoc 0 { locked := true }), 0, live.setPoc 0 { locked := true }, 0, cam0, _, now (by decide +kernel), ?_,
      ?_, rfl, ?_, ?_, ?_⟩ <;> decide +kernel)⟩

theorem test_witness_TriggersAndLinesOfACamera :
    (∃ (s : State) (dt : Nat) (m : Chip) (n : Nat) (c : CameraRec) (cnt : Int), Now s dt m ∧ n < Config.links ∧ m.camOf n = some c ∧
      cnt = m.nextTrigger c ∧ (m.encBarred (m.get (F.CXP_TRIG_CFG_enc_port n)) = true ∨
      m.encPos (m.get (F.CXP_TRIG_CFG_enc_port n)) < cnt * 65536)) ∧
    (∃ (s : State) (dt : Nat) (m : Chip) (n : Nat) (idx : Nat) (c : CameraRec) (cnt : Int) (x : Chip), Now s dt m ∧
      n < Config.links ∧ m.camOf n = some c ∧ cnt = m.nextTrigger c ∧ m.encBarred (m.get (F.CXP_TRIG_CFG_enc_port n)) = false ∧
      cnt * 65536 ≤ m.encPos (m.get (F.CXP_TRIG_CFG_enc_port n)) ∧ 7 ≤ m.boot.step ∧
      x = m.setCam n { m.cam n with highest := cnt } ∧
      idx = ((cnt - m.get (F.CXP_TRIG_PHASE_phase n)).fdiv (max 1 (m.get (F.CXP_TRIG_CFG_divider n)))).toNat) ∧
    (∃ (m : Chip) (c : CameraRec), m.camState c = stStreaming ∧ (∀ t, (m.cam c.master).lastSent = some t →
      t + 4 * m.get (F.CXP_TRIG_CFG_min_interval c.master) ≤ m.now)) ∧
    (∃ (m : Chip) (c : CameraRec) (t : Nat), m.camState c = stStreaming ∧ (m.cam c.master).lastSent = some t ∧
      m.now < t + 4 * m.get (F.CXP_TRIG_CFG_min_interval c.master)) ∧
    (∃ (m : Chip) (c : CameraRec), m.camStreams c = false ∧ m.camState c ≠ stAwaiting) ∧
    (∃ (s : State) (dt : Nat) (m : Chip) (n : Nat) (idx : Nat) (c : CameraRec) (cnt : Int) (io : LineIo) (x : Chip), Now s dt m ∧
      n < Config.links ∧ m.camOf n = some c ∧ cnt = m.nextTrigger c ∧ m.encBarred (m.get (F.CXP_TRIG_CFG_enc_port n)) = false ∧
      cnt * 65536 ≤ m.encPos (m.get (F.CXP_TRIG_CFG_enc_port n)) ∧ 7 ≤ m.boot.step ∧
      x = m.setCam n { m.cam n with highest := cnt } ∧
      idx = ((cnt - m.get (F.CXP_TRIG_PHASE_phase n)).fdiv (max 1 (m.get (F.CXP_TRIG_CFG_divider n)))).toNat ∧ Canon m ∧
      m.camState c = stStreaming ∧ (∀ t, (m.cam n).lastSent = some t → t + 4 * m.get (F.CXP_TRIG_CFG_min_interval n) ≤ m.now) ∧
      io.cmCe = [] ∧ io.cmUe = [] ∧ (m.cam n).slots.length < 256 ∧ (m.cam n).dropStrip = none ∧
      ({ m.cam n with highest := cnt } : CamState) ≠ {}) ∧
    (∃ (s : State) (dt : Nat) (m : Chip) (n : Nat) (idx : Nat) (t0 : Nat) (c : CameraRec) (cnt : Int) (io : LineIo) (x : Chip),
      Now s dt m ∧ n < Config.links ∧ m.camOf n = some c ∧ cnt = m.nextTrigger c ∧
      m.encBarred (m.get (F.CXP_TRIG_CFG_enc_port n)) = false ∧ cnt * 65536 ≤ m.encPos (m.get (F.CXP_TRIG_CFG_enc_port n)) ∧
      7 ≤ m.boot.step ∧ x = m.setCam n { m.cam n with highest := cnt } ∧
      idx = ((cnt - m.get (F.CXP_TRIG_PHASE_phase n)).fdiv (max 1 (m.get (F.CXP_TRIG_CFG_divider n)))).toNat ∧ Canon m ∧
      m.camState c = stStreaming ∧ (m.cam n).lastSent = some t0 ∧ m.now < t0 + 4 * m.get (F.CXP_TRIG_CFG_min_interval n) ∧
      io.cmCe = [] ∧ io.cmUe = [] ∧ ({ m.cam n with highest := cnt } : CamState) ≠ {}) ∧
    (∃ (s : State) (dt : Nat) (m : Chip) (n : Nat) (c : CameraRec) (cnt : Int), Now s dt m ∧ n < Config.links ∧ m.camOf n = some c ∧
      cnt = m.nextTrigger c ∧ m.encBarred (m.get (F.CXP_TRIG_CFG_enc_port n)) = false ∧
      cnt * 65536 ≤ m.encPos (m.get (F.CXP_TRIG_CFG_enc_port n)) ∧ m.boot.step < 7) ∧
    (∃ (s : State) (dt : Nat) (m : Chip) (n : Nat) (c : CameraRec), Now s dt m ∧ n < Config.links ∧ m.camOf n = some c) ∧
    (∃ (m : Chip) (c : CameraRec) (l : List TrigSlot),
      l = (m.cam c.master).slots.filter (fun s => s.pending && decide (s.sentAt + m.get (F.CXP_TIMING_CFG_line_timeout c.master) * 1000 ≤ m.now))) ∧
    (∃ (s : State) (dt : Nat) (m : Chip) (n : Nat) (c : CameraRec) (io : LineIo), Now s dt m ∧ n < Config.links ∧
      m.camOf n = some c ∧ Canon m ∧ io.cmCe = [] ∧ io.cmUe = [] ∧ (m.cam n).slots ≠ []) ∧
    (∃ (s : State) (dt : Nat) (m : Chip) (n : Nat), Now s dt m ∧ n < Config.links ∧ m.camOf n = none) ∧
    (∃ (s : State) (dt : Nat) (m : Chip) (n : Nat) (c : CameraRec), Now s dt m ∧ n < Config.links ∧ m.camOf n = some c ∧
      m.camState c ≠ stCapture) ∧
    (∃ (s : State) (dt : Nat) (m : Chip) (n : Nat) (c : CameraRec), Now s dt m ∧ n < Config.links ∧ m.camOf n = some c ∧
      m.camState c ≠ stCapture ∧ (m.cam n).slots ≠ []) ∧
    (∃ (m : Chip) (c : CameraRec), (m.cam c.master).slots = []) ∧
    (∃ (m : Chip) (c : CameraRec) (u : TrigSlot) (r : List TrigSlot), (m.cam c.master).slots = u :: r ∧ u.pending = false ∧
      u.quiet = false) ∧
    (∃ (m : Chip) (x : Chip) (c : CameraRec) (d : List Nat) (u : TrigSlot) (r : List TrigSlot) (l : InLine),
      (m.cam c.master).slots = u :: r ∧ u.pending = true ∧ m.camState c ≠ stRejected ∧
      x = m.setCam c.master { m.cam c.master with slots := r, matched := (m.cam c.master).matched + 1 } ∧
      l = { idx := u.idx, count := u.count, tb3 := u.tb3, got := true, bits := c.bits, samples := some (d.take (c.width * c.planes)) }) ∧
    (∃ (s : State) (dt : Nat) (m : Chip) (n : Nat) (c : CameraRec) (k : CalCap), Now s dt m ∧ n < Config.links ∧
      m.camOf n = some c ∧ m.camState c = stCapture ∧ (m.cam n).cal = some k ∧ k.rejected = false ∧ k.left ≠ some 0) ∧
    (∃ (s : State) (dt : Nat) (m : Chip) (k : StreamPkt) (c : CameraRec), Now s dt m ∧ k.link < Config.links ∧
      m.camOfLink k.link = some c ∧ (m.camState c = stAwaiting ∨ m.camState c = stStreaming ∨ m.camState c = stRejected ∨
      m.camState c = stCapture) ∧ k.crcOk = false) ∧
    (∃ (s : State) (dt : Nat) (m : Chip) (k : StreamPkt) (c : CameraRec), Now s dt m ∧ k.link < Config.links ∧
      m.camOfLink k.link = some c ∧ (m.camState c = stAwaiting ∨ m.camState c = stStreaming ∨ m.camState c = stRejected ∨
      m.camState c = stCapture) ∧ k.crcOk = true ∧ k.idOk = false) ∧
    (∃ (s : State) (dt : Nat) (m : Chip) (k : StreamPkt) (c : CameraRec), Now s dt m ∧ k.link < Config.links ∧
      m.camOfLink k.link = some c ∧ (m.camState c = stAwaiting ∨ m.camState c = stStreaming ∨ m.camState c = stRejected ∨
      m.camState c = stCapture) ∧ k.crcOk = true ∧ k.idOk = true ∧
      tagStep (decide (1 < c.links)) (m.cam c.master).tagNext (m.cam c.master).ahead (m.cam c.master).seen (k.tag % 256) k.skip = none) ∧
    (∃ (s : State) (dt : Nat) (m : Chip) (k : StreamPkt) (c : CameraRec) (q : Nat) (l : List Nat), Now s dt m ∧
      k.link < Config.links ∧ m.camOfLink k.link = some c ∧ (m.camState c = stAwaiting ∨ m.camState c = stStreaming ∨
      m.camState c = stRejected ∨ m.camState c = stCapture) ∧ k.crcOk = true ∧ k.idOk = true ∧
      tagStep (decide (1 < c.links)) (m.cam c.master).tagNext (m.cam c.master).ahead (m.cam c.master).seen (k.tag % 256) k.skip = some (q,
      l, false, false) ∧ k.header = none ∧ k.lineSize = none ∧ k.event = false) :=
  ⟨(by refine ⟨st live, 0, live, 0, cam0, _, now (by decide +kernel), ?_, ?_, rfl, ?_⟩ <;> decide +kernel),
    (by refine ⟨st (((live.setEnc 0 { count := 5, moved := true, chg := [0] }).setCamState cam0 stStreaming)), 0,
      ((live.setEnc 0 { count := 5, moved := true, chg := [0] }).setCamState cam0 stStreaming), 0, _, cam0, _, _,
      now (by decide +kernel), ?_, ?_, rfl, ?_, ?_, ?_, rfl, rfl⟩ <;> decide +kernel),
    ⟨(((live.setEnc 0 { count := 5 }).setCam 0 { lastSent := some 0 }).setCamState cam0 stStreaming), cam0, by decide +kernel,
      by decide +kernel⟩,
    (by refine ⟨(((live.setEnc 0 { count := 5 }).setCam 0 { lastSent := some 9999999999 }).setCamState cam0 stStreaming).put (F.CXP_TRIG_CFG_min_interval 0) 2,
      cam0, 9999999999, ?_, ?_, ?_⟩ <;> decide +kernel),
    ⟨live.setEnc 0 { count := 5 }, cam0, by decide +kernel, by decide +kernel⟩,
    (by refine ⟨st ((live.setEnc 0 { count := 5, moved := true, chg := [0] }).setCamState cam0 stStreaming), 0,
      (live.setEnc 0 { count := 5, moved := true, chg := [0] }).setCamState cam0 stStreaming, 0, _, cam0, _, {}, _,
      now (by decide +kernel), ?_, ?_, rfl, ?_, ?_, ?_, rfl, rfl, canon (by decide +kernel), ?_,
      fun t h => absurd (show (none : Option Nat) = some t from h) (by simp), ?_, ?_, ?_, ?_⟩ <;> decide +kernel),
    (by refine ⟨st ((((live.setEnc 0 { count := 5, moved := true, chg := [0] }).setCam 0 { lastSent := some 9999999999 }).setCamState cam0 stStreaming).put (F.CXP_TRIG_CFG_min_interval 0) 2),
      0,
      (((live.setEnc 0 { count := 5, moved := true, chg := [0] }).setCam 0 { lastSent := some 9999999999 }).setCamState cam0 stStreaming).put (F.CXP_TRIG_CFG_min_interval 0) 2,
      0, _, 9999999999, cam0, _, {}, _, now (by decide +kernel), ?_, ?_, rfl, ?_, ?_, ?_, rfl, rfl, canon (by decide +kernel), ?_,
      ?_, ?_, ?_, ?_⟩ <;> decide +kernel),
    (by refine ⟨st ({ live with boot := { step := 6 } }.setEnc 0 { count := 5 }), 0,
      { live with boot := { step := 6 } }.setEnc 0 { count := 5 }, 0, cam0, _, now (by decide +kernel), ?_, ?_, rfl, ?_, ?_,
      ?_⟩ <;> decide +kernel),
    ⟨st (live.setCam 0 { slots := [{ idx := 1, count := 0, tb3 := 0, sentAt := 0, pending := false }] }), 0,
      live.setCam 0 { slots := [{ idx := 1, count := 0, tb3 := 0, sentAt := 0, pending := false }] }, 0, cam0,
      now (by decide +kernel), by decide +kernel, by decide +kernel⟩,
    ⟨live.setCam 0 { slots := [{ idx := 1, count := 0, tb3 := 0, sentAt := 10000000001 }] }, cam0, _, rfl⟩,
    (by refine ⟨st (live.setCam 0 { slots := [{ idx := 1, count := 0, tb3 := 0, sentAt := 0 }] }), 0,
      live.setCam 0 { slots := [{ idx := 1, count := 0, tb3 := 0, sentAt := 0 }] }, 0, cam0, {}, now (by decide +kernel), ?_, ?_,
      canon (by decide +kernel), ?_, ?_⟩ <;> decide +kernel),
    ⟨st live, 0, live, 47, now (by decide +kernel), by decide +kernel, by decide +kernel⟩,
    (by refine ⟨st (live.setCamState cam0 stStreaming), 0, live.setCamState cam0 stStreaming, 0, cam0, now (by decide +kernel), ?_,
      ?_, ?_⟩ <;> decide +kernel),
    (by refine ⟨st (live.setCam 0 { slots := [{ idx := 1, count := 0, tb3 := 0, sentAt := 0, pending := false }] }), 0,
      live.setCam 0 { slots := [{ idx := 1, count := 0, tb3 := 0, sentAt := 0, pending := false }] }, 0, cam0,
      now (by decide +kernel), ?_, ?_, ?_, ?_⟩ <;> decide +kernel),
    ⟨(live.setCam 0 { tagNext := some 255 }).setCamState cam0 stStreaming, cam0, by decide +kernel⟩,
    (by refine ⟨live.setCam 0 { slots := [{ idx := 1, count := 0, tb3 := 0, sentAt := 0, pending := false }] }, cam0,
      { idx := 1, count := 0, tb3 := 0, sentAt := 0, pending := false }, [], ?_, ?_, ?_⟩ <;> decide +kernel),
    (by refine ⟨live.setCam 0 { slots := [{ idx := 1, count := 0, tb3 := 0, sentAt := 0 }] }, _, cam0, [],
      { idx := 1, count := 0, tb3 := 0, sentAt := 0 }, [], _, ?_, ?_, ?_, rfl, rfl⟩ <;> decide +kernel),
    (by refine ⟨st ((live.setCam 0 { cal := some { base := 0, len := 64, width := 4 } }).setCamState cam0 stCapture), 0,
      (live.setCam 0 { cal := some { base := 0, len := 64, width := 4 } }).setCamState cam0 stCapture, 0, cam0,
      { base := 0, len := 64, width := 4 }, now (by decide +kernel), ?_, ?_, ?_, ?_, ?_, ?_⟩ <;> decide +kernel),
    (by refine ⟨st (live.setCamState cam0 stStreaming), 0, live.setCamState cam0 stStreaming,
      { link := 0, crcOk := false, tag := 0 }, cam0, now (by decide +kernel), ?_, ?_, ?_, ?_⟩ <;> decide +kernel),
    (by refine ⟨st (live.setCamState cam0 stStreaming), 0, live.setCamState cam0 stStreaming,
      { link := 0, idOk := false, tag := 0 }, cam0, now (by decide +kernel), ?_, ?_, ?_, ?_, ?_⟩ <;> decide +kernel),
    (by refine ⟨st ((live.setCam 0 { tagNext := some 1, seen := [0] }).setCamState cam0 stStreaming), 0,
      (live.setCam 0 { tagNext := some 1, seen := [0] }).setCamState cam0 stStreaming, { link := 0, tag := 0 }, cam0,
      now (by decide +kernel), ?_, ?_, ?_, ?_, ?_, ?_⟩ <;> decide +kernel),
    (by refine ⟨st ((live.setCam 0 { tagNext := some 255 }).setCamState cam0 stStreaming), 0,
      (live.setCam 0 { tagNext := some 255 }).setCamState cam0 stStreaming, { link := 0, tag := 255 }, cam0, 0, [],
      now (by decide +kernel), ?_, ?_, ?_, ?_, ?_, ?_, ?_, ?_, ?_⟩ <;> decide +kernel)⟩

theorem test_witness_CameraControlAndCapture :
    (∃ (s : State) (dt : Nat) (m : Chip) (n : Nat) (tag : Nat) (c : CameraRec) (k : CtrlCmd), Now s dt m ∧ n < Config.links ∧
      m.camOf n = some c ∧ ((m.cam n).ctrl.find? (fun c => c.tag == tag) = some k) ∧ k.sender = .bringUp) ∧
    (∃ (s : State) (dt : Nat) (m : Chip) (n : Nat) (tag : Nat) (c : CameraRec) (k : CtrlCmd), Now s dt m ∧ n < Config.links ∧
      m.camOf n = some c ∧ ((m.cam n).ctrl.find? (fun c => c.tag == tag) = some k) ∧ k.sender = .maintainer) ∧
    (∃ (s : State) (dt : Nat) (m : Chip) (n : Nat) (tag : Nat) (c : CameraRec) (k : CtrlCmd), Now s dt m ∧ n < Config.links ∧
      m.camOf n = some c ∧ ((m.cam n).ctrl.find? (fun c => c.tag == tag) = some k) ∧ k.sender = .audit) ∧
    (∃ (s : State) (dt : Nat) (m : Chip) (n : Nat) (tag : Nat) (c : CameraRec) (k : CtrlCmd), Now s dt m ∧ n < Config.links ∧
      m.camOf n = some c ∧ ((m.cam n).ctrl.find? (fun c => c.tag == tag) = some k) ∧ k.sender = .discovery ∧
      m.camState c = stDiscovering) ∧
    (∃ (s : State) (dt : Nat) (m : Chip) (n : Nat) (tag : Nat), Now s dt m ∧ n < Config.links ∧
      ((m.cam n).ctrl.find? (fun c => c.tag == tag) = none)) ∧
    (∃ (s : State) (dt : Nat) (m : Chip) (n : Nat) (c : CameraRec) (k : CtrlCmd), Now s dt m ∧ n < Config.links ∧
      m.camOf n = some c ∧ (m.cam n).ctrl = [k] ∧ k.sender ≠ .discovery ∧ k.sentAt + 50000000 ≤ m.now ∧ k.resends < 3) ∧
    (∃ (s : State) (dt : Nat) (m : Chip) (n : Nat) (c : CameraRec) (k : CtrlCmd), Now s dt m ∧ n < Config.links ∧
      m.camOf n = some c ∧ (m.cam n).ctrl = [k] ∧ k.sender = .bringUp ∧ k.sentAt + 50000000 ≤ m.now ∧ 3 ≤ k.resends ∧
      m.camState c = stConfiguring ∧ Canon m) ∧
    (∃ (s : State) (dt : Nat) (m : Chip) (n : Nat) (c : CameraRec), Now s dt m ∧ n < Config.links ∧ m.camOf n = some c ∧
      (m.cam n).heartAt + m.get (F.CXP_TIMING_CFG_hb_ms n) * 1000000 ≤ m.now) ∧
    (∃ (s : State) (dt : Nat) (m : Chip) (n : Nat) (c : CameraRec), Now s dt m ∧ n < Config.links ∧ m.camOf n = some c ∧
      m.now < (m.cam n).heartAt + m.get (F.CXP_TIMING_CFG_hb_ms n) * 1000000) ∧
    (∃ (s : State) (dt : Nat) (m : Chip) (n : Nat) (c : CameraRec), Now s dt m ∧ n < Config.links ∧ m.camOf n = some c ∧
      c.trigCnt ≠ 0xFFFFFFFF ∧ m.camStreams c = true ∧ (m.cam n).auditAt + 1000000000 ≤ m.now ∧ (m.cam n).tB = none) ∧
    (∃ (m : Chip) (c : CameraRec) (v : Nat) (b : Nat), (m.cam c.master).tB = some b ∧
      sub32 (m.cam c.master).sent b < sub32 (sub32 v (m.cam c.master).base) b) ∧
    (∃ (m : Chip) (c : CameraRec) (v : Nat) (b : Nat), (m.cam c.master).tB = some b ∧
      sub32 (sub32 v (m.cam c.master).base) b ≤ sub32 (m.cam c.master).sent b) ∧
    (∃ (s : State) (dt : Nat) (m : Chip) (n : Nat) (c : CameraRec), Now s dt m ∧ n < Config.links ∧ m.camOf n = some c ∧
      c.trigCnt ≠ 0xFFFFFFFF ∧ m.camStreams c = true) ∧
    (∃ (s : State) (dt : Nat) (m : Chip) (n : Nat) (k : Nat) (c : CameraRec), Now s dt m ∧ n < Config.links ∧ m.camOf n = some c ∧
      c.trigCnt ≠ 0xFFFFFFFF ∧ m.camStreams c = true ∧ (m.cam n).readC = some k ∧ (m.cam n).checkAt ≤ m.now ∧
      sub32 (m.cam n).matched k < 2 ^ 31) ∧
    (∃ (s : State) (dt : Nat) (m : Chip) (n : Nat) (k : Nat) (c : CameraRec), Now s dt m ∧ n < Config.links ∧ m.camOf n = some c ∧
      c.trigCnt ≠ 0xFFFFFFFF ∧ m.camStreams c = true ∧ (m.cam n).readC = some k ∧ (m.cam n).checkAt ≤ m.now ∧
      2 ^ 31 ≤ sub32 (m.cam n).matched k ∧ (m.cam n).shortfalls = 2) ∧
    (∃ (s : State) (dt : Nat) (m : Chip) (a : Auth) (v : Session) (n : Nat) (c : CameraRec) (x : Chip), Now s dt m ∧
      Admitted m [3] false false a v ∧ n < Config.links ∧ m.camOf n = some c ∧ (m.camState c = stStreaming ∨
      m.camState c = stRejected ∨ m.camState c = stAwaiting ∨ m.camState c = stCapture) ∧ x = ((consumed a v m).acceptCmd a) ∧
      x.camState c = m.camState c) ∧
    (∃ (s : State) (dt : Nat) (m : Chip) (a : Auth) (v : Session) (n : Nat) (c : CameraRec), Now s dt m ∧
      Admitted m [3] false false a v ∧ n < Config.links ∧ m.camOf n = some c ∧ (m.camState c = stStreaming ∨
      m.camState c = stRejected ∨ m.camState c = stAwaiting ∨ m.camState c = stCapture) ∧
      (((consumed a v m).acceptCmd a)).camState c = m.camState c) ∧
    (∃ (s : State) (dt : Nat) (m : Chip) (a : Auth) (v : Session) (n : Nat) (base : Nat) (len : Nat) (c : CameraRec) (x : Chip) (y : Chip),
      Now s dt m ∧ Admitted m [3] false false a v ∧ n < Config.links ∧ m.camOf n = some c ∧ m.camStreams c = true ∧
      ((m.stick.jobs.any fun j => j.rows.contains c.row && m.flag (F.RC_JOB_CTRL_enable j.job)) = false) ∧
      base + len ≤ Config.cmBytes ∧ x = ((consumed a v m).acceptCmd a) ∧ x.camStreams c = true ∧
      ((x.stick.jobs.any fun j => j.rows.contains c.row && x.flag (F.RC_JOB_CTRL_enable j.job)) = false) ∧
      y = (x.emptySlots c).setCamState c stCapture) ∧
    (∃ (s : State) (dt : Nat) (m : Chip) (a : Auth) (v : Session) (n : Nat) (base : Nat) (len : Nat) (c : CameraRec), Now s dt m ∧
      Admitted m [3] false false a v ∧ n < Config.links ∧ m.camOf n = some c ∧ m.camStreams c = true ∧
      ((m.stick.jobs.any fun j => j.rows.contains c.row && m.flag (F.RC_JOB_CTRL_enable j.job)) = false) ∧
      base + len ≤ Config.cmBytes ∧ (((consumed a v m).acceptCmd a)).camStreams c = true ∧
      (((((consumed a v m).acceptCmd a)).stick.jobs.any fun j => j.rows.contains c.row && (((consumed a v m).acceptCmd a)).flag (F.RC_JOB_CTRL_enable j.job)) = false)) ∧
    (∃ (s : State) (dt : Nat) (m : Chip) (a : Auth) (v : Session) (n : Nat) (c : CameraRec) (x : Chip), Now s dt m ∧
      Admitted m [3] false false a v ∧ n < Config.links ∧ m.camOf n = some c ∧ m.camState c = stCapture ∧
      x = ((consumed a v m).acceptCmd a) ∧ x.camState c = stCapture) ∧
    (∃ (s : State) (dt : Nat) (m : Chip) (a : Auth) (v : Session) (n : Nat) (c : CameraRec), Now s dt m ∧
      Admitted m [3] false false a v ∧ n < Config.links ∧ m.camOf n = some c ∧ m.camState c = stCapture ∧
      (((consumed a v m).acceptCmd a)).camState c = stCapture ∧ (((consumed a v m).acceptCmd a)).camBlocked c = false) :=
  ⟨(by refine ⟨st (live.setCam 0 { ctrl := [{ tag := 0, sentAt := 0 }] }), 0, live.setCam 0 { ctrl := [{ tag := 0, sentAt := 0 }] },
    0, 0, cam0, { tag := 0, sentAt := 0 }, now (by decide +kernel), ?_, ?_, ?_, ?_⟩ <;> decide +kernel),
    (by refine ⟨st (live.setCam 0 { ctrl := [{ tag := 0, sentAt := 0, sender := .maintainer }] }), 0,
      live.setCam 0 { ctrl := [{ tag := 0, sentAt := 0, sender := .maintainer }] }, 0, 0, cam0,
      { tag := 0, sentAt := 0, sender := .maintainer }, now (by decide +kernel), ?_, ?_, ?_, ?_⟩ <;> decide +kernel),
    (by refine ⟨st (live.setCam 0 { ctrl := [{ tag := 0, sentAt := 0, sender := .audit }] }), 0,
      live.setCam 0 { ctrl := [{ tag := 0, sentAt := 0, sender := .audit }] }, 0, 0, cam0,
      { tag := 0, sentAt := 0, sender := .audit }, now (by decide +kernel), ?_, ?_, ?_, ?_⟩ <;> decide +kernel),
    (by refine ⟨st ((live.setCam 0 { ctrl := [{ tag := 0, sentAt := 0, sender := .discovery }] }).setCamState cam0 stDiscovering),
      0, (live.setCam 0 { ctrl := [{ tag := 0, sentAt := 0, sender := .discovery }] }).setCamState cam0 stDiscovering, 0, 0, cam0,
      { tag := 0, sentAt := 0, sender := .discovery }, now (by decide +kernel), ?_, ?_, ?_, ?_, ?_⟩ <;> decide +kernel),
    ⟨st (live.setCamState cam0 stStreaming), 0, live.setCamState cam0 stStreaming, 0, 0, now (by decide +kernel), by decide +kernel,
      by decide +kernel⟩,
    (by refine ⟨st (live.setCam 0 { ctrl := [{ tag := 0, sentAt := 0 }] }), 0,
      live.setCam 0 { ctrl := [{ tag := 0, sentAt := 0 }] }, 0, cam0, { tag := 0, sentAt := 0 }, now (by decide +kernel), ?_, ?_,
      ?_, ?_, ?_, ?_⟩ <;> decide +kernel),
    (by refine ⟨st ((live.setCam 0 { ctrl := [{ tag := 0, sentAt := 9950000000, resends := 3 }] }).setCamState cam0 stConfiguring),
      0, (live.setCam 0 { ctrl := [{ tag := 0, sentAt := 9950000000, resends := 3 }] }).setCamState cam0 stConfiguring, 0, cam0,
      { tag := 0, sentAt := 9950000000, resends := 3 }, now (by decide +kernel), ?_, ?_, ?_, ?_, ?_, ?_, ?_,
      canon (by decide +kernel)⟩ <;> decide +kernel),
    (by refine ⟨st ((live.setCam 0 { readC := some 2, matched := 2 }).setCamState cam0 stStreaming), 0,
      (live.setCam 0 { readC := some 2, matched := 2 }).setCamState cam0 stStreaming, 0, cam0, now (by decide +kernel), ?_, ?_,
      ?_⟩ <;> decide +kernel),
    (by refine ⟨st (live.setCam 0 { heartAt := 10000000001 }), 0, live.setCam 0 { heartAt := 10000000001 }, 0, cam0,
      now (by decide +kernel), ?_, ?_, ?_⟩ <;> decide +kernel),
    (by refine ⟨st (live.setCamState cam0 stStreaming), 0, live.setCamState cam0 stStreaming, 0, cam0, now (by decide +kernel), ?_,
      ?_, ?_, ?_, ?_, ?_⟩ <;> decide +kernel),
    ⟨(live.setCam 0 { tB := some 2, sent := 3 }).setCamState cam0 stRejected, cam0, 4, 2, by decide +kernel, by decide +kernel⟩,
    ⟨(live.setCam 0 { tB := some 2, sent := 3 }).setCamState cam0 stRejected, cam0, 3, 2, by decide +kernel, by decide +kernel⟩,
    (by refine ⟨st (live.setCamState cam0 stStreaming), 0, live.setCamState cam0 stStreaming, 0, cam0, now (by decide +kernel), ?_,
      ?_, ?_, ?_⟩ <;> decide +kernel),
    (by refine ⟨st ((live.setCam 0 { readC := some 2, matched := 2 }).setCamState cam0 stStreaming), 0,
      (live.setCam 0 { readC := some 2, matched := 2 }).setCamState cam0 stStreaming, 0, 2, cam0, now (by decide +kernel), ?_, ?_,
      ?_, ?_, ?_, ?_, ?_⟩ <;> decide +kernel),
    (by refine ⟨st ((live.setCam 0 { readC := some 2, matched := 1, shortfalls := 2 }).setCamState cam0 stStreaming), 0,
      (live.setCam 0 { readC := some 2, matched := 1, shortfalls := 2 }).setCamState cam0 stStreaming, 0, 2, cam0,
      now (by decide +kernel), ?_, ?_, ?_, ?_, ?_, ?_, ?_, ?_⟩ <;> decide +kernel),
    (by refine ⟨st (live.setCamState cam0 stStreaming), 0, live.setCamState cam0 stStreaming, auth, sess, 0, cam0, _,
      now (by decide +kernel), admitted (by decide +kernel), ?_, ?_, ?_, rfl, ?_⟩ <;> decide +kernel),
    (by refine ⟨st (live.setCamState cam0 stStreaming), 0, live.setCamState cam0 stStreaming, auth, sess, 0, cam0,
      now (by decide +kernel), admitted (by decide +kernel), ?_, ?_, ?_, ?_⟩ <;> decide +kernel),
    (by refine ⟨st (live.setCamState cam0 stStreaming), 0, live.setCamState cam0 stStreaming, auth, sess, 0, 0, 0, cam0, _, _,
      now (by decide +kernel), admitted (by decide +kernel), ?_, ?_, ?_, ?_, ?_, rfl, ?_, ?_, rfl⟩ <;> decide +kernel),
    (by refine ⟨st (live.setCamState cam0 stStreaming), 0, live.setCamState cam0 stStreaming, auth, sess, 0, 0, 0, cam0,
      now (by decide +kernel), admitted (by decide +kernel), ?_, ?_, ?_, ?_, ?_, ?_, ?_⟩ <;> decide +kernel),
    (by refine ⟨st (live.setCamState cam0 stCapture), 0, live.setCamState cam0 stCapture, auth, sess, 0, cam0, _,
      now (by decide +kernel), admitted (by decide +kernel), ?_, ?_, ?_, rfl, ?_⟩ <;> decide +kernel),
    (by refine ⟨st (live.setCamState cam0 stCapture), 0, live.setCamState cam0 stCapture, auth, sess, 0, cam0,
      now (by decide +kernel), admitted (by decide +kernel), ?_, ?_, ?_, ?_, ?_⟩ <;> decide +kernel)⟩

theorem test_witness_StripsRoutesAndReplays :
    (∃ (s : State) (dt : Nat) (m : Chip) (r : Nat) (o : OpenStrip) (l : List OpenStrip), Now s dt m ∧ r < Config.rows ∧
      (m.rowPipe r).full = o :: l ∧ m.fedRow r = false) ∧
    (∃ (s : State) (dt : Nat) (m : Chip) (r : Nat) (o : OpenStrip) (l : List OpenStrip), Now s dt m ∧ r < Config.rows ∧
      (m.rowPipe r).full = o :: l ∧ m.fedRow r = false ∧ m.bays.running = true) ∧
    (∃ (s : State) (dt : Nat) (m : Chip) (r : Nat), Now s dt m ∧ r < Config.rows ∧ (m.rowPipe r).full = []) ∧
    (∃ (s : State) (dt : Nat) (m : Chip) (n : Nat) (g : Gang), Now s dt m ∧ n < Config.links ∧ m.gangOfPipe n = some g) ∧
    (∃ (s : State) (dt : Nat) (m : Chip) (n : Nat), Now s dt m ∧ n < Config.links ∧ m.gangOfPipe n = none) ∧
    (∃ (s : State) (dt : Nat) (m : Chip) (a : Auth) (v : Session) (n : Nat) (src : Nat) (ch : Nat) (g : Gang) (x : Chip),
      Now s dt m ∧ Admitted m [3] false false a v ∧ n < Config.links ∧ m.gangOfPipe n = some g ∧
      ((m.stick.sources.any fun s => s.1 == g.master && s.2.1 == src && (src != 1 || s.2.2 == ch)) = true) ∧
      x = ((consumed a v m).acceptCmd a) ∧ x.gangOfPipe n = some g) ∧
    (∃ (s : State) (dt : Nat) (m : Chip) (a : Auth) (v : Session) (n : Nat) (src : Nat) (ch : Nat) (g : Gang), Now s dt m ∧
      Admitted m [3] false false a v ∧ n < Config.links ∧ m.gangOfPipe n = some g ∧
      ((m.stick.sources.any fun s => s.1 == g.master && s.2.1 == src && (src != 1 || s.2.2 == ch)) = true) ∧
      (((consumed a v m).acceptCmd a)).gangOfPipe n = some g ∧ Canon m ∧ 0 < g.links ∧ src < 4) ∧
    (∃ (s : State) (dt : Nat) (m : Chip) (a : Auth) (v : Session) (n : Nat) (b : Bool) (l : List Byte) (g : Gang) (x : Chip),
      Now s dt m ∧ Admitted m [3] false false a v ∧ n < Config.links ∧ m.gangOfPipe n = some g ∧ (m.pipe g.master).bankB = !b ∧
      calOk g.width g.planes l = true ∧ x = ((consumed a v m).acceptCmd a) ∧ x.gangOfPipe n = some g) ∧
    (∃ (s : State) (dt : Nat) (m : Chip) (a : Auth) (v : Session) (n : Nat) (b : Bool) (l : List Byte) (g : Gang), Now s dt m ∧
      Admitted m [3] false false a v ∧ n < Config.links ∧ m.gangOfPipe n = some g ∧ (m.pipe g.master).bankB = !b ∧
      calOk g.width g.planes l = true ∧ (((consumed a v m).acceptCmd a)).gangOfPipe n = some g) ∧
    (∃ (s : State) (dt : Nat) (m : Chip) (a : Auth) (v : Session) (ch : Nat) (cam : Nat) (first : Nat) (last : Nat) (calId : Nat) (rate : Nat) (k : Nat) (c : CameraRec) (g : Gang) (r : CalRec) (x : Chip) (y : Chip) (z : Chip) (w : Chip),
      Now s dt m ∧ Admitted m [3] false false a v ∧ ch < Config.replayChannels ∧ cam < Config.links ∧
      (consumed a v m).replayCheck ch cam first last calId rate = some (c, g) ∧ x = ((consumed a v m).acceptCmd a) ∧
      x.replayCheck ch cam first last calId rate = some (c, g) ∧
      y = (x.setPipe g.master { calA := (x.pipe g.master).calA, calB := (x.pipe g.master).calB, bankB := (x.pipe g.master).bankB, route := (x.pipe g.master).route, channel := (x.pipe g.master).channel, s := (x.pipe g.master).s, n := (x.pipe g.master).n, snapRec := (x.pipe g.master).snapRec }).setRowPipe g.row { floor := some first, held := (x.rowPipe g.row).held, nextSlot := (x.rowPipe g.row).nextSlot } ∧
      calById (x.pipe cam) calId = some r ∧ z = (y.putCal g (x.pipe g.master).bankB r).stripBoundary g (first - 1) ∧ 0 < first ∧
      z.findSnap c (first - 1) = some k ∧ w = z.restoreSnap g k) ∧
    (∃ (s : State) (dt : Nat) (m : Chip) (a : Auth) (v : Session) (ch : Nat) (cam : Nat) (first : Nat) (last : Nat) (calId : Nat) (rate : Nat) (c : CameraRec) (g : Gang),
      Now s dt m ∧ Admitted m [3] false false a v ∧ ch < Config.replayChannels ∧ cam < Config.links ∧
      (consumed a v m).replayCheck ch cam first last calId rate = some (c, g) ∧
      (((consumed a v m).acceptCmd a)).replayCheck ch cam first last calId rate = some (c, g) ∧ 0 < first) ∧
    (∃ (s : State) (dt : Nat) (m : Chip) (ch : Nat) (c : CameraRec) (g : Gang), Now s dt m ∧ ch < Config.replayChannels ∧
      m.camOf (m.replayCh ch).camera = some c ∧ m.gangOf (m.replayCh ch).target = some g ∧ m.rplState ch = 0) ∧
    (∃ (s : State) (dt : Nat) (m : Chip) (ch : Nat) (c : CameraRec) (g : Gang), Now s dt m ∧ ch < Config.replayChannels ∧
      m.camOf (m.replayCh ch).camera = some c ∧ m.gangOf (m.replayCh ch).target = some g ∧
      (m.now < m.replayDue ch ((m.findLine c (m.replayCh ch).next).map fun a => m.numAt (a + 0x10) 8))) ∧
    (∃ (s : State) (dt : Nat) (m : Chip) (ch : Nat) (c : CameraRec) (g : Gang), Now s dt m ∧ ch < Config.replayChannels ∧
      m.camOf (m.replayCh ch).camera = some c ∧ m.gangOf (m.replayCh ch).target = some g ∧ m.rplState ch = 3 ∧
      (m.replayCh ch).next % m.rowLines g.row = 0 ∧
      (m.replayDue ch ((m.findLine c (m.replayCh ch).next).map fun a => m.numAt (a + 0x10) 8) ≤ m.now)) ∧
    (∃ (s : State) (dt : Nat) (m : Chip) (ch : Nat) (k : Nat) (io : LineIo) (c : CameraRec) (g : Gang) (l : InLine) (x : Chip),
      Now s dt m ∧ ch < Config.replayChannels ∧ m.camOf (m.replayCh ch).camera = some c ∧ m.gangOf (m.replayCh ch).target = some g ∧
      m.rplState ch = 2 ∧ m.findLine c (m.replayCh ch).next = some k ∧ m.replayDue ch (some (m.numAt (k + 0x10) 8)) ≤ m.now ∧
      bitN (m.numAt (k + 0x0E) 2) 0 = false ∧ bitN (m.numAt (k + 0x0E) 2) 1 = false ∧
      ((io.cmUe.any fun x => decide (k / 64 ≤ cmAddr x / 64) && decide (cmAddr x < k + lineStride c)) = false) ∧
      (l = { idx := (m.replayCh ch).next, count := signedOf 48 (m.numAt (k + 8) 6), tb3 := m.numAt (k + 0x10) 8, bits := c.bits, samples := some ((upTo (m.numAt (k + 0x1C) 4 / sampleBytes c.bits)).map fun i => m.numAt (k + 64 + i * sampleBytes c.bits) (sampleBytes c.bits)), dropped := false }) ∧
      (x = (m.linePaced g io (fun m => forAll (m.replayGangs ch) (fun t m => m.replayLineTo ch t l) m)).setReplayCh ch { m.replayCh ch with next := (m.replayCh ch).next + 1, lastAt := some m.now, lastTb3 := m.numAt (k + 0x10) 8 }) ∧
      (m.replayCh ch).next + 1 ≠ ((m.replayCh ch).last + 1) * m.rowLines g.row + leadSpan (x.calOf g)) ∧
    (∃ (s : State) (dt : Nat) (m : Chip) (ch : Nat) (c : CameraRec) (g : Gang), Now s dt m ∧ ch < Config.replayChannels ∧
      m.camOf (m.replayCh ch).camera = some c ∧ m.gangOf (m.replayCh ch).target = some g ∧ (m.rplState ch = 1 ∨ m.rplState ch = 2) ∧
      (m.replayDue ch ((m.findLine c (m.replayCh ch).next).map fun a => m.numAt (a + 0x10) 8) ≤ m.now) ∧
      (m.replayCh ch).next + 1 < ((m.replayCh ch).last + 1) * m.rowLines g.row) ∧
    (∃ (s : State) (dt : Nat) (m : Chip) (ch : Nat), Now s dt m ∧ ch < Config.replayChannels ∧
      m.camOf (m.replayCh ch).camera = none) ∧
    (∃ (s : State) (dt : Nat) (m : Chip) (ch : Nat), Now s dt m ∧ ch < Config.replayChannels ∧ m.rplState ch ≠ 0) ∧
    (∃ (s : State) (dt : Nat) (m : Chip) (ch : Nat), Now s dt m ∧ ch < Config.replayChannels ∧ m.rplState ch = 0) :=
  ⟨(by refine ⟨st (live.setRowPipe 11 { full := [{ strip := 0, slot := none }] }), 0,
    live.setRowPipe 11 { full := [{ strip := 0, slot := none }] }, 11, { strip := 0, slot := none }, [], now (by decide +kernel),
    ?_, ?_, ?_⟩ <;> decide +kernel),
    (by refine ⟨st (inBay.setRowPipe 11 { full := [{ strip := 0, slot := none }] }), 0,
      inBay.setRowPipe 11 { full := [{ strip := 0, slot := none }] }, 11, { strip := 0, slot := none }, [], now (by decide +kernel),
      ?_, ?_, ?_, ?_⟩ <;> decide +kernel),
    ⟨st live, 0, live, 0, now (by decide +kernel), by decide +kernel, by decide +kernel⟩,
    ⟨st ({ live with stick := { stick0 with sources := [(0, 0, 0)] } }), 0,
      { live with stick := { stick0 with sources := [(0, 0, 0)] } }, 0, gangOfCam cam0, now (by decide +kernel), by decide +kernel,
      by decide +kernel⟩,
    ⟨st live, 0, live, 47, now (by decide +kernel), by decide +kernel, by decide +kernel⟩,
    (by refine ⟨st ({ live with stick := { stick0 with sources := [(0, 0, 0)] } }), 0,
      { live with stick := { stick0 with sources := [(0, 0, 0)] } }, auth, sess, 0, 0, 0, gangOfCam cam0, _,
      now (by decide +kernel), admitted (by decide +kernel), ?_, ?_, ?_, rfl, ?_⟩ <;> decide +kernel),
    (by refine ⟨st ({ live with stick := { stick0 with sources := [(0, 0, 0)] } }), 0,
      { live with stick := { stick0 with sources := [(0, 0, 0)] } }, auth, sess, 0, 0, 0, gangOfCam cam0, now (by decide +kernel),
      admitted (by decide +kernel), ?_, ?_, ?_, ?_, canon (by decide +kernel), ?_, ?_⟩ <;> decide +kernel),
    (by refine ⟨st (live.setPipe 0 { bankB := true }), 0, live.setPipe 0 { bankB := true }, auth, sess, 0, false, calBytes,
      gangOfCam cam0, _, now (by decide +kernel), admitted (by decide +kernel), ?_, ?_, ?_, ?_, rfl, ?_⟩ <;> decide +kernel),
    (by refine ⟨st (live.setPipe 0 { bankB := true }), 0, live.setPipe 0 { bankB := true }, auth, sess, 0, false, calBytes,
      gangOfCam cam0, now (by decide +kernel), admitted (by decide +kernel), ?_, ?_, ?_, ?_, ?_⟩ <;> decide +kernel),
    (by refine ⟨st recorded, 0, recorded, auth, sess, 0, 0, 1, 1, 9, 0, 2 ^ 41 + 4096, cam0, gang8, { id := 9, width := 4 }, _, _,
      _, _, now (by decide +kernel), admitted (by decide +kernel), ?_, ?_, ?_, rfl, ?_, rfl, ?_, rfl, ?_, ?_,
      rfl⟩ <;> decide +kernel),
    (by refine ⟨st recorded, 0, recorded, auth, sess, 0, 0, 1, 1, 9, 0, cam0, gang8, now (by decide +kernel),
      admitted (by decide +kernel), ?_, ?_, ?_, ?_, ?_⟩ <;> decide +kernel),
    (by refine ⟨st (live.setRowPipe 0 { full := [{ strip := 0, slot := none }] }), 0,
      live.setRowPipe 0 { full := [{ strip := 0, slot := none }] }, 0, cam0, gangOfCam cam0, now (by decide +kernel), ?_, ?_, ?_,
      ?_⟩ <;> decide +kernel),
    (by refine ⟨st ((live.setReplayCh 0 { lastAt := some 9999999999 }).put (F.LP_RPL_RATE_rate 0) 1000), 0,
      (live.setReplayCh 0 { lastAt := some 9999999999 }).put (F.LP_RPL_RATE_rate 0) 1000, 0, cam0, gangOfCam cam0,
      now (by decide +kernel), ?_, ?_, ?_, ?_⟩ <;> decide +kernel),
    (by refine ⟨st ((live.put (F.LP_RPL_STAT_state 0) 3)), 0, (live.put (F.LP_RPL_STAT_state 0) 3), 0, cam0, gangOfCam cam0,
      now (by decide +kernel), ?_, ?_, ?_, ?_, ?_, ?_⟩ <;> decide +kernel),
    (by refine ⟨st ((recorded.setReplayCh 0 { camera := 0, target := 5, last := 5 }).put (F.LP_RPL_STAT_state 0) 2), 0,
      (recorded.setReplayCh 0 { camera := 0, target := 5, last := 5 }).put (F.LP_RPL_STAT_state 0) 2, 0, 2 ^ 41, {}, cam0, gang8, _,
      _, now (by decide +kernel), ?_, ?_, ?_, ?_, ?_, ?_, ?_, ?_, ?_, rfl, rfl, ?_⟩ <;> decide +kernel),
    (by refine ⟨st (live.put (F.LP_RPL_STAT_state 3) 1), 0, live.put (F.LP_RPL_STAT_state 3) 1, 3, cam0, gangOfCam cam0,
      now (by decide +kernel), ?_, ?_, ?_, ?_, ?_, ?_⟩ <;> decide +kernel),
    ⟨st (live.setReplayCh 3 { camera := 5 }), 0, live.setReplayCh 3 { camera := 5 }, 3, now (by decide +kernel), by decide +kernel,
      by decide +kernel⟩,
    ⟨st ((live.put (F.LP_RPL_STAT_state 0) 3)), 0, (live.put (F.LP_RPL_STAT_state 0) 3), 0, now (by decide +kernel),
      by decide +kernel, by decide +kernel⟩,
    ⟨st live, 0, live, 0, now (by decide +kernel), by decide +kernel, by decide +kernel⟩⟩

theorem test_witness_BentCommandsStart :
    (∃ (s : State) (dt : Nat) (m : Chip) (n : Nat) (c : CutEntry), Now s dt m ∧ n < Config.bents ∧ m.descNum c.descPtr 1 = 1 ∧
      Starts m (.bent n) c) ∧
    (∃ (s : State) (dt : Nat) (m : Chip) (n : Nat) (c : CutEntry) (pl : CmdPlan), Now s dt m ∧ n < Config.bents ∧
      m.descNum c.descPtr 1 = 1 ∧ Starts m (.bent n) c ∧ Undisturbed m (.bent n) ∧ pl.errs = {} ∧ pl.stall = 0) ∧
    (∃ (s : State) (dt : Nat) (m : Chip) (n : Nat) (c : CutEntry) (pl : CmdPlan) (d : BentDesc) (a : Nat → Nat → Int) (b : Nat →
      Nat → Int), Now s dt m ∧ n < Config.bents ∧ m.descNum c.descPtr 1 = 1 ∧ Starts m (.bent n) c ∧ Undisturbed m (.bent n) ∧
      pl.errs = {} ∧ pl.stall = 0 ∧ d = m.bentDesc c.descPtr ∧ familyOf d.fmtA = .int ∧ d.outPartial = true ∧ d.accIn = false ∧
      d.bias = false ∧ (∀ i k, k < d.k → m.elemAt {} (bentAddr n (d.addrA + i * d.pitchA * 16)) d.fmtA k = .num (qOfInt (a i k))) ∧
      (∀ k j, k < d.k → m.elemAt {} (operandB n d) d.fmtB (k * d.cols + j) = .num (qOfInt (b k j)))) ∧
    (∃ (s : State) (dt : Nat) (m : Chip) (n : Nat) (c : CutEntry), Now s dt m ∧ n < Config.bents ∧ m.descNum c.descPtr 1 = 2 ∧
      Starts m (.bent n) c) ∧
    (∃ (s : State) (dt : Nat) (m : Chip) (n : Nat) (c : CutEntry) (pl : CmdPlan), Now s dt m ∧ n < Config.bents ∧
      m.descNum c.descPtr 1 = 2 ∧ Starts m (.bent n) c ∧ Undisturbed m (.bent n) ∧ pl.errs = {} ∧ pl.stall = 0) ∧
    (∃ (s : State) (dt : Nat) (m : Chip) (n : Nat) (c : CutEntry) (pl : CmdPlan) (d : BentDesc), Now s dt m ∧ n < Config.bents ∧
      m.descNum c.descPtr 1 = 2 ∧ Starts m (.bent n) c ∧ Undisturbed m (.bent n) ∧ pl.errs = {} ∧ pl.stall = 0 ∧
      d = m.bentDesc c.descPtr ∧ d.fmtA = 0x20 ∧ d.outPartial = true ∧ d.accIn = false ∧ d.bias = false) ∧
    (∃ (s : State) (dt : Nat) (m : Chip) (n : Nat) (c : CutEntry), Now s dt m ∧ n < Config.bents ∧ m.descNum c.descPtr 1 = 3 ∧
      Starts m (.bent n) c) ∧
    (∃ (s : State) (dt : Nat) (m : Chip) (n : Nat) (c : CutEntry) (pl : CmdPlan), Now s dt m ∧ n < Config.bents ∧
      m.descNum c.descPtr 1 = 3 ∧ Starts m (.bent n) c ∧ Undisturbed m (.bent n) ∧ pl.errs = {}) ∧
    (∃ (s : State) (dt : Nat) (m : Chip) (n : Nat) (c : CutEntry), Now s dt m ∧ n < Config.bents ∧ m.descNum c.descPtr 1 = 5 ∧
      Starts m (.bent n) c ∧ (m.winDesc c.descPtr).sub = 0) ∧
    (∃ (s : State) (dt : Nat) (m : Chip) (n : Nat) (c : CutEntry) (pl : CmdPlan), Now s dt m ∧ n < Config.bents ∧
      m.descNum c.descPtr 1 = 5 ∧ Starts m (.bent n) c ∧ (m.winDesc c.descPtr).sub = 0 ∧ Undisturbed m (.bent n) ∧ pl.errs = {} ∧
      pl.stall = 0) ∧
    (∃ (s : State) (dt : Nat) (m : Chip) (n : Nat) (c : CutEntry), Now s dt m ∧ n < Config.bents ∧ m.descNum c.descPtr 1 = 5 ∧
      Starts m (.bent n) c ∧ (m.winDesc c.descPtr).sub = 1) ∧
    (∃ (s : State) (dt : Nat) (m : Chip) (n : Nat) (c : CutEntry) (pl : CmdPlan), Now s dt m ∧ n < Config.bents ∧
      m.descNum c.descPtr 1 = 5 ∧ Starts m (.bent n) c ∧ (m.winDesc c.descPtr).sub = 1 ∧ Undisturbed m (.bent n) ∧ pl.errs = {} ∧
      pl.stall = 0) ∧
    (∃ (s : State) (dt : Nat) (m : Chip) (n : Nat) (c : CutEntry), Now s dt m ∧ n < Config.bents ∧ m.descNum c.descPtr 1 = 5 ∧
      Starts m (.bent n) c ∧ (m.winDesc c.descPtr).sub = 2) ∧
    (∃ (s : State) (dt : Nat) (m : Chip) (n : Nat) (c : CutEntry) (pl : CmdPlan), Now s dt m ∧ n < Config.bents ∧
      m.descNum c.descPtr 1 = 5 ∧ Starts m (.bent n) c ∧ (m.winDesc c.descPtr).sub = 2 ∧ Undisturbed m (.bent n) ∧ pl.errs = {} ∧
      pl.stall = 0) ∧
    (∃ (s : State) (dt : Nat) (m : Chip) (n : Nat) (c : CutEntry), Now s dt m ∧ n < Config.bents ∧ m.descNum c.descPtr 1 = 5 ∧
      Starts m (.bent n) c ∧ (m.winDesc c.descPtr).sub = 3) ∧
    (∃ (s : State) (dt : Nat) (m : Chip) (n : Nat) (c : CutEntry) (pl : CmdPlan), Now s dt m ∧ n < Config.bents ∧
      m.descNum c.descPtr 1 = 5 ∧ Starts m (.bent n) c ∧ (m.winDesc c.descPtr).sub = 3 ∧ Undisturbed m (.bent n) ∧ pl.errs = {} ∧
      pl.stall = 0) :=
  ⟨⟨st (withDesc (.bent 31) [(0, 1)]), 0, withDesc (.bent 31) [(0, 1)], 31, cut0, now (by decide +kernel), by decide +kernel,
    by decide +kernel, starts (by decide +kernel)⟩,
    (by refine ⟨st (withDesc (.bent 31) [(0, 1)]), 0, withDesc (.bent 31) [(0, 1)], 31, cut0, {}, now (by decide +kernel), ?_, ?_,
      starts (by decide +kernel), calm (by decide +kernel), ?_, ?_⟩ <;> decide +kernel),
    (by refine ⟨st (withDesc (.bent 31) [(0, 1), (5, 4), (8, 1), (12, 1), (16, 1)]), 0, withDesc (.bent 31) [(0, 1), (5, 4), (8, 1),
      (12, 1), (16, 1)], 31, cut0, {}, _, fun _ _ => 0, fun _ _ => 0, now (by decide +kernel), ?_, ?_, starts (by decide +kernel),
      calm (by decide +kernel), ?_, ?_, rfl, ?_, ?_, ?_, ?_, fun _ _ _ => empty_elem _ ⟨by decide +kernel, by decide +kernel⟩ _ _ _,
      fun _ _ _ => empty_elem _ ⟨by decide +kernel, by decide +kernel⟩ _ _ _⟩ <;> decide +kernel),
    ⟨st (withDesc (.bent 31) [(0, 2)]), 0, withDesc (.bent 31) [(0, 2)], 31, cut0, now (by decide +kernel), by decide +kernel,
      by decide +kernel, starts (by decide +kernel)⟩,
    (by refine ⟨st (withDesc (.bent 31) [(0, 2)]), 0, withDesc (.bent 31) [(0, 2)], 31, cut0, {}, now (by decide +kernel), ?_, ?_,
      starts (by decide +kernel), calm (by decide +kernel), ?_, ?_⟩ <;> decide +kernel),
    (by refine ⟨st (withDesc (.bent 31) [(0, 2), (1, 0x20), (5, 4)]), 0, withDesc (.bent 31) [(0, 2), (1, 0x20), (5, 4)], 31, cut0,
      {}, _, now (by decide +kernel), ?_, ?_, starts (by decide +kernel), calm (by decide +kernel), ?_, ?_, rfl, ?_, ?_, ?_,
      ?_⟩ <;> decide +kernel),
    ⟨st (withDesc (.bent 31) [(0, 3)]), 0, withDesc (.bent 31) [(0, 3)], 31, cut0, now (by decide +kernel), by decide +kernel,
      by decide +kernel, starts (by decide +kernel)⟩,
    (by refine ⟨st (withDesc (.bent 31) [(0, 3)]), 0, withDesc (.bent 31) [(0, 3)], 31, cut0, {}, now (by decide +kernel), ?_, ?_,
      starts (by decide +kernel), calm (by decide +kernel), ?_⟩ <;> decide +kernel),
    (by refine ⟨st (withDesc (.bent 31) [(0, 5), (0x16, 0)]), 0, withDesc (.bent 31) [(0, 5), (0x16, 0)], 31, cut0,
      now (by decide +kernel), ?_, ?_, starts (by decide +kernel), ?_⟩ <;> decide +kernel),
    (by refine ⟨st (withDesc (.bent 31) [(0, 5), (0x16, 0)]), 0, withDesc (.bent 31) [(0, 5), (0x16, 0)], 31, cut0, {},
      now (by decide +kernel), ?_, ?_, starts (by decide +kernel), ?_, calm (by decide +kernel), ?_, ?_⟩ <;> decide +kernel),
    (by refine ⟨st (withDesc (.bent 31) [(0, 5), (0x16, 1)]), 0, withDesc (.bent 31) [(0, 5), (0x16, 1)], 31, cut0,
      now (by decide +kernel), ?_, ?_, starts (by decide +kernel), ?_⟩ <;> decide +kernel),
    (by refine ⟨st (withDesc (.bent 31) [(0, 5), (0x16, 1)]), 0, withDesc (.bent 31) [(0, 5), (0x16, 1)], 31, cut0, {},
      now (by decide +kernel), ?_, ?_, starts (by decide +kernel), ?_, calm (by decide +kernel), ?_, ?_⟩ <;> decide +kernel),
    (by refine ⟨st (withDesc (.bent 31) [(0, 5), (0x16, 2)]), 0, withDesc (.bent 31) [(0, 5), (0x16, 2)], 31, cut0,
      now (by decide +kernel), ?_, ?_, starts (by decide +kernel), ?_⟩ <;> decide +kernel),
    (by refine ⟨st (withDesc (.bent 31) [(0, 5), (0x16, 2)]), 0, withDesc (.bent 31) [(0, 5), (0x16, 2)], 31, cut0, {},
      now (by decide +kernel), ?_, ?_, starts (by decide +kernel), ?_, calm (by decide +kernel), ?_, ?_⟩ <;> decide +kernel),
    (by refine ⟨st (withDesc (.bent 31) [(0, 5), (0x16, 3)]), 0, withDesc (.bent 31) [(0, 5), (0x16, 3)], 31, cut0,
      now (by decide +kernel), ?_, ?_, starts (by decide +kernel), ?_⟩ <;> decide +kernel),
    (by refine ⟨st (withDesc (.bent 31) [(0, 5), (0x16, 3)]), 0, withDesc (.bent 31) [(0, 5), (0x16, 3)], 31, cut0, {},
      now (by decide +kernel), ?_, ?_, starts (by decide +kernel), ?_, calm (by decide +kernel), ?_, ?_⟩ <;> decide +kernel)⟩

theorem test_witness_TransfersStart :
    (∃ (s : State) (dt : Nat) (m : Chip) (n : Nat) (c : CutEntry), Now s dt m ∧ n < Config.bents ∧ m.descNum c.descPtr 1 = 4 ∧
      (m.dmaDesc c.descPtr).kind = 0 ∧ Starts m (.bent n) c) ∧
    (∃ (s : State) (dt : Nat) (m : Chip) (n : Nat) (c : CutEntry) (d : DmaDesc), Now s dt m ∧ n < Config.bents ∧
      m.descNum c.descPtr 1 = 4 ∧ (m.dmaDesc c.descPtr).kind = 0 ∧ Starts m (.bent n) c ∧ Undisturbed m (.bent n) ∧
      d = m.dmaDesc c.descPtr) ∧
    (∃ (s : State) (dt : Nat) (m : Chip) (n : Nat) (c : CutEntry), Now s dt m ∧ n < Config.bents ∧ m.descNum c.descPtr 1 = 4 ∧
      (m.dmaDesc c.descPtr).kind = 1 ∧ Starts m (.bent n) c) ∧
    (∃ (s : State) (dt : Nat) (m : Chip) (n : Nat) (c : CutEntry) (d : DmaDesc), Now s dt m ∧ n < Config.bents ∧
      m.descNum c.descPtr 1 = 4 ∧ (m.dmaDesc c.descPtr).kind = 1 ∧ Starts m (.bent n) c ∧ Undisturbed m (.bent n) ∧
      d = m.dmaDesc c.descPtr) ∧
    (∃ (s : State) (dt : Nat) (m : Chip) (c : CutEntry), Now s dt m ∧ (m.dmaDesc c.descPtr).op = 4 ∧ Starts m .cmDma c) ∧
    (∃ (s : State) (dt : Nat) (m : Chip) (c : CutEntry) (d : DmaDesc), Now s dt m ∧ d = m.dmaDesc c.descPtr ∧ d.op = 4 ∧
      d.kind = 0 ∧ Starts m .cmDma c ∧ Undisturbed m .cmDma) ∧
    (∃ (s : State) (dt : Nat) (m : Chip) (c : CutEntry) (x : Chip), Now s dt m ∧ x = (m.tnFill 0).tnFill 1 ∧
      (x.dmaDesc c.descPtr).op = 4 ∧ (x.dmaDesc c.descPtr).kind = 0 ∧ Starts x .tenonS2R c) ∧
    (∃ (s : State) (dt : Nat) (m : Chip) (c : CutEntry) (x : Chip), Now s dt m ∧ x = (m.tnFill 0).tnFill 1 ∧
      (x.dmaDesc c.descPtr).op = 4 ∧ (x.dmaDesc c.descPtr).kind = 0 ∧ Starts x .tenonR2S c) ∧
    (∃ (s : State) (dt : Nat) (m : Chip) (c : CutEntry) (x : Chip), Now s dt m ∧ x = (m.tnFill 0).tnFill 1 ∧
      (x.dmaDesc c.descPtr).op = 4 ∧ (x.dmaDesc c.descPtr).kind = 0 ∧ Starts x .tenonS2R c ∧ Undisturbed x .tenonS2R) ∧
    (∃ (s : State) (dt : Nat) (m : Chip) (c : CutEntry) (x : Chip), Now s dt m ∧ x = (m.tnFill 0).tnFill 1 ∧
      (x.dmaDesc c.descPtr).op = 4 ∧ (x.dmaDesc c.descPtr).kind = 0 ∧ (x.dmaDesc c.descPtr).dst = 4 ∧ Starts x .tenonR2S c ∧
      Undisturbed x .tenonR2S) ∧
    (∃ (s : State) (dt : Nat) (m : Chip) (p : Nat) (dev : Nat) (c : CutEntry), Now s dt m ∧ p < Config.purlinPorts ∧ dev < 4096 ∧
      (m.dmaDesc c.descPtr).op = 4 ∧ (m.dmaDesc c.descPtr).kind = 0 ∧ Starts m (.purlinDma p) c) ∧
    (∃ (s : State) (dt : Nat) (m : Chip) (p : Nat) (dev : Nat) (c : CutEntry), Now s dt m ∧ p < Config.purlinPorts ∧ dev < 4096 ∧
      (m.dmaDesc c.descPtr).op = 4 ∧ (m.dmaDesc c.descPtr).kind = 0 ∧ (m.dmaDesc c.descPtr).dst = 5 ∧ Starts m (.purlinDma p) c ∧
      Undisturbed m (.purlinDma p)) :=
  ⟨(by refine ⟨st (withDesc (.bent 31) [(0, 4)]), 0, withDesc (.bent 31) [(0, 4)], 31, cut0, now (by decide +kernel), ?_, ?_, ?_,
    starts (by decide +kernel)⟩ <;> decide +kernel),
    (by refine ⟨st (withDesc (.bent 31) [(0, 4)]), 0, withDesc (.bent 31) [(0, 4)], 31, cut0, _, now (by decide +kernel), ?_, ?_,
      ?_, starts (by decide +kernel), calm (by decide +kernel), rfl⟩ <;> decide +kernel),
    (by refine ⟨st (withDesc (.bent 31) [(0, 4), (2, 1)]), 0, withDesc (.bent 31) [(0, 4), (2, 1)], 31, cut0,
      now (by decide +kernel), ?_, ?_, ?_, starts (by decide +kernel)⟩ <;> decide +kernel),
    (by refine ⟨st (withDesc (.bent 31) [(0, 4), (2, 1)]), 0, withDesc (.bent 31) [(0, 4), (2, 1)], 31, cut0, _,
      now (by decide +kernel), ?_, ?_, ?_, starts (by decide +kernel), calm (by decide +kernel), rfl⟩ <;> decide +kernel),
    ⟨st (withDesc .cmDma [(0, 4)]), 0, withDesc .cmDma [(0, 4)], cut0, now (by decide +kernel), by decide +kernel,
      starts (by decide +kernel)⟩,
    ⟨st (withDesc .cmDma [(0, 4)]), 0, withDesc .cmDma [(0, 4)], cut0, _, now (by decide +kernel), rfl, by decide +kernel,
      by decide +kernel, starts (by decide +kernel), calm (by decide +kernel)⟩,
    ⟨st (withDesc .tenonS2R [(0, 4)]), 0, withDesc .tenonS2R [(0, 4)], cut0, _, now (by decide +kernel), rfl, by decide +kernel,
      by decide +kernel, starts (by decide +kernel)⟩,
    ⟨st (withDesc .tenonR2S [(0, 4)]), 0, withDesc .tenonR2S [(0, 4)], cut0, _, now (by decide +kernel), rfl, by decide +kernel,
      by decide +kernel, starts (by decide +kernel)⟩,
    ⟨st (withDesc .tenonS2R [(0, 4)]), 0, withDesc .tenonS2R [(0, 4)], cut0, _, now (by decide +kernel), rfl, by decide +kernel,
      by decide +kernel, starts (by decide +kernel), calm (by decide +kernel)⟩,
    (by refine ⟨st (withDesc .tenonR2S [(0, 4), (1, 0x40)]), 0, withDesc .tenonR2S [(0, 4), (1, 0x40)], cut0, _,
      now (by decide +kernel), rfl, ?_, ?_, ?_, starts (by decide +kernel), calm (by decide +kernel)⟩ <;> decide +kernel),
    (by refine ⟨st (withDesc (.purlinDma 3) [(0, 4), (1, 0x50)]), 0, withDesc (.purlinDma 3) [(0, 4), (1, 0x50)], 3, 4095, cut0,
      now (by decide +kernel), ?_, ?_, ?_, ?_, starts (by decide +kernel)⟩ <;> decide +kernel),
    (by refine ⟨st (withDesc (.purlinDma 3) [(0, 4), (1, 0x50)]), 0, withDesc (.purlinDma 3) [(0, 4), (1, 0x50)], 3, 4095, cut0,
      now (by decide +kernel), ?_, ?_, ?_, ?_, ?_, starts (by decide +kernel), calm (by decide +kernel)⟩ <;> decide +kernel)⟩

theorem test_witness_EnginesOfOneUnitStart :
    (∃ (s : State) (dt : Nat) (m : Chip) (c : CutEntry), Now s dt m ∧ (m.specDesc c.descPtr).op = 1 ∧ Starts m .spectral c) ∧
    (∃ (s : State) (dt : Nat) (m : Chip) (c : CutEntry) (pl : CmdPlan), Now s dt m ∧ (m.specDesc c.descPtr).op = 1 ∧
      Starts m .spectral c ∧ Undisturbed m .spectral ∧ pl.errs = {}) ∧
    (∃ (s : State) (dt : Nat) (m : Chip) (c : CutEntry) (strip : Nat) (k : ClosedStrip), Now s dt m ∧ (m.detDesc c.descPtr).op = 1 ∧
      ((m.fire.closed.find? fun x => x.row == (m.detDesc c.descPtr).row && x.strip == strip && x.closeBay == m.closeOf .postproc c) = some k) ∧
      Starts m .postproc c) ∧
    (∃ (s : State) (dt : Nat) (m : Chip) (c : CutEntry) (strip : Nat) (k : ClosedStrip) (d : DetDesc), Now s dt m ∧
      d = m.detDesc c.descPtr ∧ d.op = 1 ∧
      ((m.fire.closed.find? fun x => x.row == d.row && x.strip == strip && x.closeBay == m.closeOf .postproc c) = some k) ∧
      Starts m .postproc c ∧ Undisturbed m .postproc ∧ m.carryStands c.job d.row k.strip = true) ∧
    (∃ (s : State) (dt : Nat) (m : Chip) (c : CutEntry), Now s dt m ∧ (m.attDesc c.descPtr).op = 1 ∧ Starts m .attention c) ∧
    (∃ (s : State) (dt : Nat) (m : Chip) (c : CutEntry) (pl : CmdPlan), Now s dt m ∧ (m.attDesc c.descPtr).op = 1 ∧
      Starts m .attention c ∧ Undisturbed m .attention ∧ pl.errs = {}) ∧
    (∃ (s : State) (dt : Nat) (m : Chip) (c : CutEntry), Now s dt m ∧ (m.attDesc c.descPtr).op = 2 ∧ Starts m .attention c) ∧
    (∃ (s : State) (dt : Nat) (m : Chip) (n : Nat) (row : Nat) (c : CutEntry), Now s dt m ∧ n < Config.studs ∧ row < Config.rows ∧
      m.studRow c.descPtr = some row ∧ Starts m (.stud n) c) ∧
    (∃ (s : State) (dt : Nat) (m : Chip) (n : Nat) (row : Nat) (strip : Nat) (c : CutEntry) (old : List ScoreCell), Now s dt m ∧
      n < Config.studs ∧ row < Config.rows ∧ m.studRow c.descPtr = some row ∧ Starts m (.stud n) c ∧ Undisturbed m (.stud n) ∧
      m.screenable row strip (m.closeOf (.stud n) c) = true ∧ ((m.scr row).cells.find? (fun q => q.1 == strip) = some (strip, old) ∨
      ((m.scr row).cells.find? (fun q => q.1 == strip) = none ∧ old = []))) ∧
    (∃ (s : State) (dt : Nat) (m : Chip) (r : Nat) (strip : Nat) (crop : CutEntry) (k : ClosedStrip) (q : Nat × List ScoreCell),
      Now s dt m ∧ r < Config.rows ∧
      ((m.fire.closed.find? fun x => x.row == r && x.strip == strip && x.slot.isSome && !x.beyond) = some k) ∧
      (((m.scr r).cells.find? fun q => q.1 == strip) = some q) ∧ m.screening r strip = false ∧
      m.pairInvalid (m.get F.STUD_CFG_job) k.closeBay = false ∧ m.outOf r strip = none ∧ m.screenInTime k crop = true) ∧
    (∃ (s : State) (dt : Nat) (m : Chip) (r : Nat) (strip : Nat) (crop : CutEntry) (k : ClosedStrip) (q : Nat × List ScoreCell),
      Now s dt m ∧ r < Config.rows ∧
      ((m.fire.closed.find? fun x => x.row == r && x.strip == strip && x.slot.isSome && !x.beyond) = some k) ∧
      (((m.scr r).cells.find? fun q => q.1 == strip) = some q) ∧ m.screening r strip = false ∧
      m.pairInvalid (m.get F.STUD_CFG_job) k.closeBay = false ∧ m.outOf r strip = none ∧ m.screenInTime k crop = true ∧
      m.fire.pilotOn.testBit r = false ∧ (m.screenOut k q.2).comps ≤ 512) ∧
    (∃ (s : State) (dt : Nat) (m : Chip) (r : Nat) (strip : Nat) (crop : CutEntry) (k : ClosedStrip) (q : Nat × List ScoreCell),
      Now s dt m ∧ r < Config.rows ∧
      ((m.fire.closed.find? fun x => x.row == r && x.strip == strip && x.slot.isSome && !x.beyond) = some k) ∧
      (((m.scr r).cells.find? fun q => q.1 == strip) = some q) ∧ m.screening r strip = false ∧
      m.pairInvalid (m.get F.STUD_CFG_job) k.closeBay = false ∧ m.outOf r strip = none ∧ m.screenInTime k crop = false) ∧
    (∃ (s : State) (dt : Nat) (m : Chip) (k : Nat) (j : Nat), Now s dt m ∧ m.bays.running = true ∧ m.pp.sealedFor ≠ some m.bay ∧
      k + m.depth = m.bay + 1 ∧ m.planned - 5000 ≤ m.coreCycle ∧
      ((m.stick.jobs.filter fun j => j.cls == 1 && !j.screening && m.processes j.job k).map (·.job) = [j]) ∧
      m.pairInvalid j k = false ∧ m.pairOpen j k = false) ∧
    (∃ (s : State) (dt : Nat) (m : Chip) (k : Nat) (j : Nat), Now s dt m ∧ m.bays.running = true ∧ m.pp.sealedFor ≠ some m.bay ∧
      k + m.depth = m.bay + 1 ∧ m.planned - 5000 ≤ m.coreCycle ∧
      ((m.stick.jobs.filter fun j => j.cls == 1 && !j.screening && m.processes j.job k).map (·.job) = [j]) ∧
      m.pairInvalid j k = true) ∧
    (∃ (s : State) (dt : Nat) (m : Chip) (k : Nat) (l : List Nat), Now s dt m ∧ m.bays.running = true ∧
      m.pp.sealedFor ≠ some m.bay ∧ k + m.depth = m.bay + 1 ∧ m.planned - 5000 ≤ m.coreCycle ∧
      (l = (m.stick.jobs.filter fun j => j.cls == 1 && !j.screening && m.processes j.job k).map (·.job))) ∧
    (∃ (s : State) (dt : Nat) (m : Chip), Now s dt m ∧ (m.bays.running = false ∨ m.pp.sealedFor = some m.bay ∨
      m.coreCycle < m.planned - 5000)) :=
  ⟨⟨st (withDesc .spectral [(0, 1)]), 0, withDesc .spectral [(0, 1)], cut0, now (by decide +kernel), by decide +kernel,
    starts (by decide +kernel)⟩,
    ⟨st (withDesc .spectral [(0, 1)]), 0, withDesc .spectral [(0, 1)], cut0, {}, now (by decide +kernel), by decide +kernel,
      starts (by decide +kernel), calm (by decide +kernel), by decide +kernel⟩,
    ⟨st ({ withDesc .postproc [(0, 1)] with fire := { closed := [strip40] } }), 0,
      { withDesc .postproc [(0, 1)] with fire := { closed := [strip40] } }, cut0, 0, strip40, now (by decide +kernel),
      by decide +kernel, by decide +kernel, starts (by decide +kernel)⟩,
    (by refine ⟨st ({ withDesc .postproc [(0, 1)] with fire := { closed := [{ strip40 with strip := 1 }] }, pp := { rows := [{ job := 0, row := 0, prev := some (0, 39999) }] } }),
      0,
      { withDesc .postproc [(0, 1)] with fire := { closed := [{ strip40 with strip := 1 }] }, pp := { rows := [{ job := 0, row := 0, prev := some (0, 39999) }] } },
      cut0, 1, { strip40 with strip := 1 }, _, now (by decide +kernel), rfl, ?_, ?_, starts (by decide +kernel),
      calm (by decide +kernel), ?_⟩ <;> decide +kernel),
    ⟨st (withDesc .attention [(0, 1)]), 0, withDesc .attention [(0, 1)], cut0, now (by decide +kernel), by decide +kernel,
      starts (by decide +kernel)⟩,
    ⟨st (withDesc .attention [(0, 1)]), 0, withDesc .attention [(0, 1)], cut0, {}, now (by decide +kernel), by decide +kernel,
      starts (by decide +kernel), calm (by decide +kernel), by decide +kernel⟩,
    ⟨st (withDesc .attention [(0, 2)]), 0, withDesc .attention [(0, 2)], cut0, now (by decide +kernel), by decide +kernel,
      starts (by decide +kernel)⟩,
    (by refine ⟨st (listed (.stud 3) cut0 { inBay with stick := { stick0 with studRows := [(0, 11)] } }), 0,
      listed (.stud 3) cut0 { inBay with stick := { stick0 with studRows := [(0, 11)] } }, 3, 11, cut0, now (by decide +kernel), ?_,
      ?_, ?_, starts (by decide +kernel)⟩ <;> decide +kernel),
    (by refine ⟨st ({ listed (.stud 3) cut0 { inBay with stick := { stick0 with studRows := [(0, 0)] } } with fire := { closed := [strip40] } }),
      0,
      { listed (.stud 3) cut0 { inBay with stick := { stick0 with studRows := [(0, 0)] } } with fire := { closed := [strip40] } },
      3, 0, 0, cut0, [], now (by decide +kernel), ?_, ?_, ?_, starts (by decide +kernel), calm (by decide +kernel), ?_,
      .inr ⟨by decide +kernel, rfl⟩⟩ <;> decide +kernel),
    (by refine ⟨st ({ inBay with fire := { closed := [closed0] } }.setScr 0 { cells := [(0, [])] }), 0,
      { inBay with fire := { closed := [closed0] } }.setScr 0 { cells := [(0, [])] }, 0, 0, { cut0 with startCycle := 1 }, closed0,
      (0, []), now (by decide +kernel), ?_, ?_, ?_, ?_, ?_, ?_, ?_⟩ <;> decide +kernel),
    (by refine ⟨st ({ inBay with fire := { closed := [closed0] } }.setScr 0 { cells := [(0, [])] }), 0,
      { inBay with fire := { closed := [closed0] } }.setScr 0 { cells := [(0, [])] }, 0, 0, { cut0 with startCycle := 1 }, closed0,
      (0, []), now (by decide +kernel), ?_, ?_, ?_, ?_, ?_, ?_, ?_, ?_, ?_⟩ <;> decide +kernel),
    (by refine ⟨st ({ inBay with fire := { closed := [closed0] } }.setScr 0 { cells := [(0, [])] }), 0,
      { inBay with fire := { closed := [closed0] } }.setScr 0 { cells := [(0, [])] }, 0, 0, cut0, closed0, (0, []),
      now (by decide +kernel), ?_, ?_, ?_, ?_, ?_, ?_, ?_⟩ <;> decide +kernel),
    (by refine ⟨st ({ inBay with bays := { inBay.bays with startAt := 0 } }), 0,
      { inBay with bays := { inBay.bays with startAt := 0 } }, 39999, 0, now (by decide +kernel), ?_, ?_, ?_, ?_, ?_, ?_,
      ?_⟩ <;> decide +kernel),
    (by refine ⟨st ({ inBay with bays := { inBay.bays with startAt := 0, invalid := [(0, 39999)] } }), 0,
      { inBay with bays := { inBay.bays with startAt := 0, invalid := [(0, 39999)] } }, 39999, 0, now (by decide +kernel), ?_, ?_,
      ?_, ?_, ?_, ?_⟩ <;> decide +kernel),
    (by refine ⟨st ({ inBay with bays := { inBay.bays with startAt := 0 } }), 0,
      { inBay with bays := { inBay.bays with startAt := 0 } }, 39999, _, now (by decide +kernel), ?_, ?_, ?_, ?_,
      rfl⟩ <;> decide +kernel),
    ⟨st live, 0, live, now (by decide +kernel), by decide +kernel⟩⟩

theorem test_witness_CommandsComplete :
    (∃ (s : State) (dt : Nat) (m : Chip) (e : Engine) (r : Running) (x : Chip) (y : Chip), Now s dt m ∧ engExists e = true ∧
      m.tnOutstanding e = false ∧ m.tb3 < (m.bay + 1) * m.period ∧ (m.eng e).running = some r ∧ signalsHere e = true ∧
      x = ((m.commitWrites r).passMark r).signalOpt (m.signalHalf e r.entry) r.entry.signal ∧
      y = x.setEng e { m.eng e with running := none, pos := (m.eng e).pos + 1, busy := (m.eng e).busy + (m.now - r.startedAt), lastEnd := some m.coreCycle, released := decide (m.coreCycle < r.entry.plannedEnd) }) ∧
    (∃ (s : State) (dt : Nat) (m : Chip) (e : Engine) (r : Running), Now s dt m ∧ engExists e = true ∧ m.tnOutstanding e = false ∧
      m.tb3 < (m.bay + 1) * m.period ∧ (m.eng e).running = some r ∧ signalsHere e = true) ∧
    (∃ (s : State) (dt : Nat) (m : Chip) (e : Engine) (r : Running) (x : Chip) (y : Chip), Now s dt m ∧ engExists e = true ∧
      m.tnOutstanding e = false ∧ m.tb3 < (m.bay + 1) * m.period ∧ (m.eng e).running = some r ∧ signalsHere e = false ∧
      x = (m.commitWrites r).passMark r ∧
      y = x.setEng e { m.eng e with running := none, pos := (m.eng e).pos + 1, busy := (m.eng e).busy + (m.now - r.startedAt), lastEnd := some m.coreCycle, released := decide (m.coreCycle < r.entry.plannedEnd) }) ∧
    (∃ (s : State) (dt : Nat) (m : Chip) (e : Engine) (r : Running), Now s dt m ∧ engExists e = true ∧ m.tnOutstanding e = false ∧
      m.tb3 < (m.bay + 1) * m.period ∧ (m.eng e).running = some r ∧ signalsHere e = false) ∧
    (∃ (s : State) (dt : Nat) (m : Chip) (e : Engine) (r : Running) (x : Chip), Now s dt m ∧ engExists e = true ∧
      m.tnOutstanding e = false ∧ m.tb3 < (m.bay + 1) * m.period ∧ (m.eng e).bg = some r ∧ signalsHere e = true ∧
      x = ((m.commitWrites r).passMark r).signalOpt (m.signalHalf e r.entry) r.entry.signal) ∧
    (∃ (s : State) (dt : Nat) (m : Chip) (e : Engine), Now s dt m ∧ engExists e = true ∧ (m.tnOutstanding e = true ∨
      (m.bay + 1) * m.period ≤ m.tb3 ∨ (m.eng e).running = none)) ∧
    (∃ (s : State) (dt : Nat) (m : Chip) (n : Nat) (us : Nat) (er : ReadErrs) (all : ReadErrs) (x : Chip) (y : Chip), Now s dt m ∧
      n < Config.bents ∧ m.flag (F.BENT_SRAM_CFG_scrub_en n) = true ∧
      us = min 0xFFFFFFFF ((m.now - (m.eng (.bent n)).lapFrom) / 1000) ∧ all = m.allErrs [(bentAddr n 0, Config.bentSram)] er ∧
      (x = ((((m.sramCorrected true (all.sramCe.filter fun g => bentOf g == n)).sramLost true (all.sramUe.filter fun g => bentOf g == n)).sramParity true (all.sramPe.filter fun g => bentOf g == n)).setEng (.bent n) { m.eng (.bent n) with lapFrom := m.now }).bump (R.BENT_CNT_LAPS n)) ∧
      y = (x.wr (R.BENT_SCRUB_LAP n) (BitVec.ofNat 32 us)).wr (R.BENT_SCRUB_WORST n) (BitVec.ofNat 32 (max us (x.rd (R.BENT_SCRUB_WORST n)).toNat))) ∧
    (∃ (s : State) (dt : Nat) (m : Chip) (n : Nat), Now s dt m ∧ n < Config.bents ∧ m.flag (F.BENT_SRAM_CFG_scrub_en n) = true ∧
      0 < m.now) ∧
    (∃ (s : State) (dt : Nat) (m : Chip) (n : Nat), Now s dt m ∧ n < Config.bents ∧ m.flag (F.BENT_SRAM_CFG_scrub_en n) = false) :=
  ⟨(by refine ⟨st (inBay.setEng .attention { running := some running0 }), 0, inBay.setEng .attention { running := some running0 },
    .attention, running0, _, _, now (by decide +kernel), ?_, ?_, ?_, ?_, ?_, rfl, rfl⟩ <;> decide +kernel),
    (by refine ⟨st (inBay.setEng .attention { running := some running0 }), 0, inBay.setEng .attention { running := some running0 },
      .attention, running0, now (by decide +kernel), ?_, ?_, ?_, ?_, ?_⟩ <;> decide +kernel),
    (by refine ⟨st (inBay.setEng (.purlinDma 3) { running := some running0 }), 0,
      inBay.setEng (.purlinDma 3) { running := some running0 }, .purlinDma 3, running0, _, _, now (by decide +kernel), ?_, ?_, ?_,
      ?_, ?_, rfl, rfl⟩ <;> decide +kernel),
    (by refine ⟨st (inBay.setEng (.purlinDma 3) { running := some running0 }), 0,
      inBay.setEng (.purlinDma 3) { running := some running0 }, .purlinDma 3, running0, now (by decide +kernel), ?_, ?_, ?_, ?_,
      ?_⟩ <;> decide +kernel),
    (by refine ⟨st (inBay.setEng .cmDma { bg := some running0 }), 0, inBay.setEng .cmDma { bg := some running0 }, .cmDma, running0,
      _, now (by decide +kernel), ?_, ?_, ?_, ?_, ?_, rfl⟩ <;> decide +kernel),
    ⟨st live, 0, live, .bent 0, now (by decide +kernel), by decide +kernel, by decide +kernel⟩,
    ⟨st (live.put (F.BENT_SRAM_CFG_scrub_en 31) 1), 0, live.put (F.BENT_SRAM_CFG_scrub_en 31) 1, 31, _, {}, _, _, _,
      now (by decide +kernel), by decide +kernel, by decide +kernel, rfl, rfl, rfl, rfl⟩,
    (by refine ⟨st (live.put (F.BENT_SRAM_CFG_scrub_en 31) 1), 0, live.put (F.BENT_SRAM_CFG_scrub_en 31) 1, 31,
      now (by decide +kernel), ?_, ?_, ?_⟩ <;> decide +kernel),
    ⟨st live, 0, live, 0, now (by decide +kernel), by decide +kernel, by decide +kernel⟩⟩

theorem test_witness_JobsPowerAndBackground :
    (∃ (s : State) (dt : Nat) (m : Chip) (j : Nat) (v : Nat), Now s dt m ∧ j < Config.jobs ∧
      m.flag (F.RC_JOB_CTRL_enable j) = true ∧ bitN v 0 = false ∧
      ((m.stick.deps.any fun d => d.2 == j && m.flag (F.RC_JOB_CTRL_enable d.1)) = true)) ∧
    (∃ (s : State) (dt : Nat) (m : Chip) (j : Nat) (v : Nat) (w : JobRun), Now s dt m ∧ j < Config.jobs ∧
      w = { m.jobRun j with ctrl := v % 8, ctrlLate := none } ∧ (m.flag (F.RC_JOB_CTRL_enable j) = false ∨ bitN v 0 = true ∨
      (m.stick.deps.any fun d => d.2 == j && m.flag (F.RC_JOB_CTRL_enable d.1)) = false) ∧ (m.bays.running = false ∨
      20000 ≤ m.period - m.tb3 % m.period)) ∧
    (∃ (s : State) (dt : Nat) (m : Chip) (j : Nat) (v : Nat) (w : JobRun), Now s dt m ∧ j < Config.jobs ∧
      w = { m.jobRun j with ctrlLate := if v % 8 = (m.jobRun j).ctrl then none else some (v % 8) } ∧
      (m.flag (F.RC_JOB_CTRL_enable j) = false ∨ bitN v 0 = true ∨
      (m.stick.deps.any fun d => d.2 == j && m.flag (F.RC_JOB_CTRL_enable d.1)) = false) ∧ m.bays.running = true ∧
      m.period - m.tb3 % m.period < 20000) ∧
    (∃ (s : State) (dt : Nat) (m : Chip) (j : Nat) (v : Nat), Now s dt m ∧ j < Config.jobs ∧ Canon m ∧
      (m.flag (F.RC_JOB_CTRL_enable j) = false ∨ bitN v 0 = true ∨
      (m.stick.deps.any fun d => d.2 == j && m.flag (F.RC_JOB_CTRL_enable d.1)) = false)) ∧
    (∃ (s : State) (dt : Nat) (m : Chip), Now s dt m) ∧
    (∃ (s : State) (dt : Nat) (m : Chip) (n : Nat) (c : CutEntry), Now s dt m ∧ n < Config.bents ∧
      m.powerDue (.bent n) c .gate = true ∧ m.windowOpen (.bent n) = false) ∧
    (∃ (s : State) (dt : Nat) (m : Chip) (n : Nat) (c : CutEntry), Now s dt m ∧ n < Config.bents ∧
      m.powerDue (.bent n) c .wake = true ∧ (m.eng (.bent n)).gated = true) ∧
    (∃ (s : State) (dt : Nat) (m : Chip) (e : Engine) (c : CutEntry), Now s dt m ∧ engExists e = true ∧
      m.powerDue e c .window = true ∧ m.sup.shedWindows = false) ∧
    (∃ (s : State) (dt : Nat) (m : Chip) (e : Engine) (limit : Nat) (j : Nat) (rest : List Nat) (c : CutEntry), Now s dt m ∧
      engExists e = true ∧ m.bgEnd e = some limit ∧ m.bgJobs e = j :: rest ∧ (m.eng e).bg = none ∧
      (m.bgSegs e j)[tabGet 0 (m.eng e).bgAt j]? = some c ∧
      m.coreCycle + c.plannedEnd + ((m.jobRec j).map (·.saveCycles)).getD 0 ≤ limit) ∧
    (∃ (s : State) (dt : Nat) (m : Chip) (e : Engine) (w : SegWork) (limit : Nat) (j : Nat) (rest : List Nat) (c : CutEntry) (f : Chip →
      Running × Chip), Now s dt m ∧ engExists e = true ∧ m.bgEnd e = some limit ∧ m.bgJobs e = j :: rest ∧ (m.eng e).bg = none ∧
      (m.bgSegs e j)[tabGet 0 (m.eng e).bgAt j]? = some c ∧
      m.coreCycle + c.plannedEnd + ((m.jobRec j).map (·.saveCycles)).getD 0 ≤ limit ∧ m.segWork e c w = some f ∧
      ((f (m.setEng e { m.eng e with hit := false })).2.eng e).hit = false) ∧
    (∃ (s : State) (dt : Nat) (m : Chip) (e : Engine) (limit : Nat) (j : Nat) (rest : List Nat) (c : CutEntry), Now s dt m ∧
      engExists e = true ∧ m.bgEnd e = some limit ∧ m.bgJobs e = j :: rest ∧ (m.eng e).bg = none ∧
      (m.bgSegs e j)[tabGet 0 (m.eng e).bgAt j]? = some c ∧
      limit < m.coreCycle + c.plannedEnd + ((m.jobRec j).map (·.saveCycles)).getD 0) ∧
    (∃ (s : State) (dt : Nat) (m : Chip) (e : Engine) (r : Running), Now s dt m ∧ engExists e = true ∧ (m.eng e).bg = some r ∧
      (r.limit ≤ m.coreCycle ∨ m.sup.shedWindows = true ∨ (m.eng e).running ≠ none)) ∧
    (∃ (s : State) (dt : Nat) (m : Chip) (e : Engine) (r : Running), Now s dt m ∧ engExists e = true ∧ (m.eng e).bg = some r ∧
      (r.limit ≤ m.coreCycle ∨ m.sup.shedWindows = true ∨ (m.eng e).running ≠ none) ∧ r.startedAt < m.now) ∧
    (∃ (s : State) (dt : Nat) (m : Chip) (e : Engine) (r : Running), Now s dt m ∧ engExists e = true ∧ (m.eng e).bg = some r ∧
      m.coreCycle < r.limit ∧ m.sup.shedWindows = false ∧ (m.eng e).running = none) :=
  ⟨(by refine ⟨st ((live.put (F.RC_JOB_CTRL_enable 0) 1).put (F.RC_JOB_CTRL_enable 1) 1), 0,
    (live.put (F.RC_JOB_CTRL_enable 0) 1).put (F.RC_JOB_CTRL_enable 1) 1, 0, 0, now (by decide +kernel), ?_, ?_, ?_,
    ?_⟩ <;> decide +kernel),
    (by refine ⟨st live, 0, live, 127, 2 ^ 32 - 1, _, now (by decide +kernel), ?_, rfl, ?_, ?_⟩ <;> decide +kernel),
    (by refine ⟨st ({ inBay with time := { inBay.time with tb3 := BitVec.ofNat 96 (10000240000 * 2 ^ 32) } }), 0,
      { inBay with time := { inBay.time with tb3 := BitVec.ofNat 96 (10000240000 * 2 ^ 32) } }, 127, 0, _, now (by decide +kernel),
      ?_, rfl, ?_, ?_, ?_⟩ <;> decide +kernel),
    ⟨st inBay, 0, inBay, 0, 0, now (by decide +kernel), by decide +kernel, canon (by decide +kernel), by decide +kernel⟩,
    ⟨st inBay, 0, inBay, now (by decide +kernel)⟩,
    (by refine ⟨st (listed (.bent 31) { cut0 with kind := .gate } inBay), 0, listed (.bent 31) { cut0 with kind := .gate } inBay,
      31, { cut0 with kind := .gate }, now (by decide +kernel), ?_, ?_, ?_⟩ <;> decide +kernel),
    (by refine ⟨st ((listed (.bent 31) { cut0 with kind := .wake } inBay).setEng (.bent 31) { gated := true }), 0,
      (listed (.bent 31) { cut0 with kind := .wake } inBay).setEng (.bent 31) { gated := true }, 31, { cut0 with kind := .wake },
      now (by decide +kernel), ?_, ?_, ?_⟩ <;> decide +kernel),
    (by refine ⟨st (listed .spectral { cut0 with kind := .window } inBay), 0, listed .spectral { cut0 with kind := .window } inBay,
      .spectral, { cut0 with kind := .window }, now (by decide +kernel), ?_, ?_, ?_⟩ <;> decide +kernel),
    (by refine ⟨st (({ listed .spectral { cut0 with kind := .window } inBay with stick := { (listed .spectral { cut0 with kind := .window } inBay).stick with bgLists := [(.bent 31, [encodeCut { cut0 with kind := .segment, job := 2 }])] } }).setEng (.bent 31) { released := true }),
      0,
      ({ listed .spectral { cut0 with kind := .window } inBay with stick := { (listed .spectral { cut0 with kind := .window } inBay).stick with bgLists := [(.bent 31, [encodeCut { cut0 with kind := .segment, job := 2 }])] } }).setEng (.bent 31) { released := true },
      .bent 31, 249950, 2, [], { cut0 with kind := .segment, job := 2 }, now (by decide +kernel), ?_, ?_, ?_, ?_, ?_,
      ?_⟩ <;> decide +kernel),
    (by refine ⟨st (({ desc [(0, 4), (2, 1)] inBay with stick := { (desc [(0, 4), (2, 1)] inBay).stick with bgLists := [(.bent 31, [encodeCut { cut0 with kind := .segment, job := 2 }])] } }).setEng (.bent 31) { released := true }),
      0,
      ({ desc [(0, 4), (2, 1)] inBay with stick := { (desc [(0, 4), (2, 1)] inBay).stick with bgLists := [(.bent 31, [encodeCut { cut0 with kind := .segment, job := 2 }])] } }).setEng (.bent 31) { released := true },
      .bent 31, .clear, 249950, 2, [], { cut0 with kind := .segment, job := 2 }, _, now (by decide +kernel), ?_, ?_, ?_, ?_, ?_, ?_,
      rfl, ?_⟩ <;> decide +kernel),
    (by refine ⟨st (({ listed .spectral { cut0 with kind := .window } inBay with stick := { (listed .spectral { cut0 with kind := .window } inBay).stick with bgLists := [(.bent 31, [encodeCut { cut0 with kind := .segment, job := 2, plannedEnd := 250001 }])] } }).setEng (.bent 31) { released := true }),
      0,
      ({ listed .spectral { cut0 with kind := .window } inBay with stick := { (listed .spectral { cut0 with kind := .window } inBay).stick with bgLists := [(.bent 31, [encodeCut { cut0 with kind := .segment, job := 2, plannedEnd := 250001 }])] } }).setEng (.bent 31) { released := true },
      .bent 31, 249950, 2, [], { cut0 with kind := .segment, job := 2, plannedEnd := 250001 }, now (by decide +kernel), ?_, ?_, ?_,
      ?_, ?_, ?_⟩ <;> decide +kernel),
    (by refine ⟨st (live.setEng (.bent 31) { bg := some running0 }), 0, live.setEng (.bent 31) { bg := some running0 }, .bent 31,
      running0, now (by decide +kernel), ?_, ?_, ?_⟩ <;> decide +kernel),
    (by refine ⟨st (live.setEng (.bent 31) { bg := some running0 }), 0, live.setEng (.bent 31) { bg := some running0 }, .bent 31,
      running0, now (by decide +kernel), ?_, ?_, ?_, ?_⟩ <;> decide +kernel),
    (by refine ⟨st (inBay.setEng (.bent 31) { bg := some { running0 with limit := 1 } }), 0,
      inBay.setEng (.bent 31) { bg := some { running0 with limit := 1 } }, .bent 31, { running0 with limit := 1 },
      now (by decide +kernel), ?_, ?_, ?_, ?_, ?_⟩ <;> decide +kernel)⟩

theorem test_witness_TenonFlitsArrive :
    (∃ (s : State) (dt : Nat) (m : Chip) (d : Nat) (f : TnFlit) (w : List TnFlit), Linked s dt m ∧ d < 2 ∧ m.tnUp = true ∧
      (m.tnDir d).wire = f :: w) ∧
    (∃ (s : State) (dt : Nat) (m : Chip) (d : Nat) (f : TnFlit) (w : List TnFlit), Linked s dt m ∧ d < 2 ∧ m.tnUp = true ∧
      (m.tnDir d).wire = f :: w ∧ f.vc ≠ 3 ∧ f.seq = (m.tnDir d).expect) ∧
    (∃ (s : State) (dt : Nat) (m : Chip) (d : Nat) (f : TnFlit) (w : List TnFlit), Linked s dt m ∧ d < 2 ∧ m.tnUp = true ∧
      (m.tnDir d).wire = f :: w ∧ f.vc = 2 ∧ f.seq = (m.tnDir d).expect) ∧
    (∃ (s : State) (dt : Nat) (m : Chip) (d : Nat) (f : TnFlit) (w : List TnFlit), Linked s dt m ∧ d < 2 ∧ m.tnUp = true ∧
      (m.tnDir d).wire = f :: w ∧ f.vc ≠ 3 ∧ f.seq ≠ (m.tnDir d).expect) ∧
    (∃ (s : State) (dt : Nat) (m : Chip) (d : Nat), Linked s dt m ∧ d < 2 ∧ (m.tnUp = false ∨ (m.tnDir d).wire = [])) ∧
    (∃ (s : State) (dt : Nat) (m : Chip) (d : Nat) (f : TnFlit) (w : List TnFlit), Linked s dt m ∧ d < 2 ∧ m.tnUp = true ∧
      (m.tnDir d).wire = f :: w ∧ f.vc = 3 ∧ f.pos = 2) ∧
    (∃ (s : State) (dt : Nat) (m : Chip) (d : Nat) (f : TnFlit) (g : TnFlit) (w : List TnFlit) (l : List TnFlit), Linked s dt m ∧
      d < 2 ∧ m.tnUp = true ∧ (m.tnDir d).wire = f :: w ∧ f.vc = 3 ∧ f.pos = 2 ∧ ackReplay f.ack (m.tnDir (1 - d)).replay = g :: l ∧
      (m.tnDir (1 - d)).replays < max 1 (m.get F.TN_CFG_retry_limit)) ∧
    (∃ (s : State) (dt : Nat) (m : Chip) (d : Nat) (f : TnFlit) (w : List TnFlit), Linked s dt m ∧ d < 2 ∧ m.tnUp = true ∧
      (m.tnDir d).wire = f :: w ∧ f.vc = 1 ∧ f.seq = (m.tnDir d).expect) ∧
    (∃ (s : State) (dt : Nat) (m : Chip) (d : Nat) (f : TnFlit) (w : List TnFlit) (q : TnReq), Linked s dt m ∧ d < 2 ∧
      m.tnUp = true ∧ (m.tnDir d).wire = f :: w ∧ f.vc = 1 ∧ f.seq = (m.tnDir d).expect ∧ f.pos = 3 ∧ f.cancelled = false ∧
      tnBad d 1 f.xfer = false ∧ f.xfer.bay = m.bay ∧ f.xfer.space ≠ 0 ∧ f.xfer.space ≠ 3 ∧ f.xfer.space ≠ 4 ∧
      ((m.tenon.reqs.find? fun q => q.tag == f.xfer.tag) = some q) ∧ m.tenon.todo = []) :=
  ⟨(by refine ⟨st (tnWith { r2s := { wire := [flit0] } } 2), 0, tnElapse 0 (tnWith { r2s := { wire := [flit0] } } 2), 1, flit0, [],
    linked (by decide +kernel), ?_, ?_, ?_⟩ <;> decide +kernel),
    (by refine ⟨st (tnWith { r2s := { wire := [flit0] } } 2), 0, tnElapse 0 (tnWith { r2s := { wire := [flit0] } } 2), 1, flit0, [],
      linked (by decide +kernel), ?_, ?_, ?_, ?_, ?_⟩ <;> decide +kernel),
    (by refine ⟨st (tnWith { r2s := { wire := [{ flit0 with vc := 2, pos := 0 }] } } 2), 0,
      tnElapse 0 (tnWith { r2s := { wire := [{ flit0 with vc := 2, pos := 0 }] } } 2), 1, { flit0 with vc := 2, pos := 0 }, [],
      linked (by decide +kernel), ?_, ?_, ?_, ?_, ?_⟩ <;> decide +kernel),
    (by refine ⟨st (tnWith { r2s := { wire := [flit0], expect := 1 } } 2), 0,
      tnElapse 0 (tnWith { r2s := { wire := [flit0], expect := 1 } } 2), 1, flit0, [], linked (by decide +kernel), ?_, ?_, ?_, ?_,
      ?_⟩ <;> decide +kernel),
    ⟨st live, 0, tnElapse 0 (live), 1, linked (by decide +kernel), by decide +kernel, by decide +kernel⟩,
    (by refine ⟨st (tnWith { r2s := { wire := [{ flit0 with vc := 3, pos := 2 }] } } 2), 0,
      tnElapse 0 (tnWith { r2s := { wire := [{ flit0 with vc := 3, pos := 2 }] } } 2), 1, { flit0 with vc := 3, pos := 2 }, [],
      linked (by decide +kernel), ?_, ?_, ?_, ?_, ?_⟩ <;> decide +kernel),
    (by refine ⟨st (tnWith { r2s := { wire := [{ flit0 with vc := 3, pos := 2, ack := 4095 }] }, s2r := { replay := [flit0] } } 2),
      0, tnElapse 0 (tnWith { r2s := { wire := [{ flit0 with vc := 3, pos := 2, ack := 4095 }] }, s2r := { replay := [flit0] } } 2),
      1, { flit0 with vc := 3, pos := 2, ack := 4095 }, flit0, [], [], linked (by decide +kernel), ?_, ?_, ?_, ?_, ?_, ?_,
      ?_⟩ <;> decide +kernel),
    (by refine ⟨st (tnWith { r2s := { wire := [flit0] } } 2), 0, tnElapse 0 (tnWith { r2s := { wire := [flit0] } } 2), 1, flit0, [],
      linked (by decide +kernel), ?_, ?_, ?_, ?_, ?_⟩ <;> decide +kernel),
    (by refine ⟨st (tnInBay { r2s := { wire := [{ flit0 with xfer := { flit0.xfer with bay := 40000, space := 6 } }] }, reqs := [⟨0, 0, 0, none, 0, 0⟩] }),
      0,
      tnElapse 0 (tnInBay { r2s := { wire := [{ flit0 with xfer := { flit0.xfer with bay := 40000, space := 6 } }] }, reqs := [⟨0, 0, 0, none, 0, 0⟩] }),
      1, { flit0 with xfer := { flit0.xfer with bay := 40000, space := 6 } }, [], ⟨0, 0, 0, none, 0, 0⟩, linked (by decide +kernel),
      ?_, ?_, ?_, ?_, ?_, ?_, ?_, ?_, ?_, ?_, ?_, ?_⟩ <;> decide +kernel)⟩

theorem test_witness_TenonRecoversAndTrains :
    (∃ (s : State) (dt : Nat) (m : Chip) (d : Nat) (g : TnFlit) (l : List TnFlit), Linked s dt m ∧ d < 2 ∧ m.tnUp = true ∧
      (m.tnDir d).replay = g :: l ∧ (m.tnDir d).again = 0 ∧ (m.tnDir d).ackAt + 2000 ≤ m.now) ∧
    (∃ (s : State) (dt : Nat) (m : Chip) (d : Nat) (g : TnFlit) (l : List TnFlit), Linked s dt m ∧ d < 2 ∧ m.tnUp = true ∧
      (m.tnDir d).replay = g :: l ∧ (m.tnDir d).again = 0 ∧ (m.tnDir d).ackAt + 2000 ≤ m.now ∧
      (m.tnDir d).replays < max 1 (m.get F.TN_CFG_retry_limit)) ∧
    (∃ (s : State) (dt : Nat) (m : Chip) (d : Nat), Linked s dt m ∧ d < 2 ∧ ((m.tnDir d).replay = [] ∨
      m.now < (m.tnDir d).ackAt + 2000)) ∧
    (∃ (s : State) (dt : Nat) (m : Chip) (tag : Nat) (q : TnReq), Linked s dt m ∧
      ((m.tenon.reqs.find? fun q => q.tag == tag && decide (q.sentAt + m.get F.TN_CFG_req_timeout * 1000 ≤ m.now)) = some q)) ∧
    (∃ (s : State) (dt : Nat) (m : Chip) (tag : Nat) (q : TnReq), Linked s dt m ∧
      ((m.tenon.reqs.find? fun q => q.tag == tag && decide (q.sentAt + m.get F.TN_CFG_req_timeout * 1000 ≤ m.now)) = some q) ∧
      m.tenon.todo = []) ∧
    (∃ (s : State) (dt : Nat) (m : Chip) (tag : Nat), Linked s dt m ∧
      ((m.tenon.reqs.find? fun q => q.tag == tag && decide (q.sentAt + m.get F.TN_CFG_req_timeout * 1000 ≤ m.now)) = none)) ∧
    (∃ (s : State) (dt : Nat) (m : Chip), Linked s dt m ∧ m.tnUp = true) ∧
    (∃ (s : State) (dt : Nat) (m : Chip) (a : Nat) (b : Nat), Linked s dt m ∧ m.get F.TN_STAT_state = 1 ∧
      m.get F.TN_STAT_spares_s2r + a ≤ 2 ∧ m.get F.TN_STAT_spares_r2s + b ≤ 2) ∧
    (∃ (s : State) (dt : Nat) (m : Chip) (a : Nat) (b : Nat), Linked s dt m ∧ m.get F.TN_STAT_state = 3 ∧
      m.get F.TN_STAT_spares_s2r + a ≤ 2 ∧ m.get F.TN_STAT_spares_r2s + b ≤ 2) ∧
    (∃ (s : State) (dt : Nat) (m : Chip) (a : Nat) (b : Nat), Linked s dt m ∧ (m.get F.TN_STAT_state = 1 ∨
      m.get F.TN_STAT_state = 3) ∧ (2 < m.get F.TN_STAT_spares_s2r + a ∨ 2 < m.get F.TN_STAT_spares_r2s + b)) ∧
    (∃ (s : State) (dt : Nat) (m : Chip) (a : Nat) (b : Nat), Linked s dt m ∧ m.get F.TN_STAT_state = 3 ∧
      m.get F.TN_STAT_spares_s2r + a ≤ 2 ∧ m.get F.TN_STAT_spares_r2s + b ≤ 2 ∧ m.tenon.fails < 2) ∧
    (∃ (s : State) (dt : Nat) (m : Chip) (a : Nat) (b : Nat), Linked s dt m ∧ m.get F.TN_STAT_state = 4 ∧ m.tenon.tryAt ≤ m.now ∧
      m.get F.TN_STAT_spares_s2r + a ≤ 2 ∧ m.get F.TN_STAT_spares_r2s + b ≤ 2 ∧ m.tenon.fails = 2) ∧
    (∃ (s : State) (dt : Nat) (m : Chip) (a : Nat) (b : Nat), Linked s dt m ∧ m.get F.TN_STAT_state = 4 ∧ m.tenon.tryAt ≤ m.now ∧
      m.get F.TN_STAT_spares_s2r + a ≤ 2 ∧ m.get F.TN_STAT_spares_r2s + b ≤ 2) ∧
    (∃ (s : State) (dt : Nat) (m : Chip), Linked s dt m ∧ (m.get F.TN_STAT_state ≠ 4 ∨ m.now < m.tenon.tryAt)) :=
  ⟨(by refine ⟨st (tnWith { r2s := { replay := [flit0] } } 2), 0, tnElapse 0 (tnWith { r2s := { replay := [flit0] } } 2), 1, flit0,
    [], linked (by decide +kernel), ?_, ?_, ?_, ?_, ?_⟩ <;> decide +kernel),
    (by refine ⟨st (tnWith { r2s := { replay := [flit0] } } 2), 0, tnElapse 0 (tnWith { r2s := { replay := [flit0] } } 2), 1, flit0,
      [], linked (by decide +kernel), ?_, ?_, ?_, ?_, ?_, ?_⟩ <;> decide +kernel),
    ⟨st live, 0, tnElapse 0 (live), 1, linked (by decide +kernel), by decide +kernel, by decide +kernel⟩,
    ⟨st ({ live with tenon := { reqs := [⟨0, 0, 0, none, 0, 0⟩] } }), 0,
      tnElapse 0 ({ live with tenon := { reqs := [⟨0, 0, 0, none, 0, 0⟩] } }), 0, ⟨0, 0, 0, none, 0, 0⟩, linked (by decide +kernel),
      by decide +kernel⟩,
    ⟨st ({ live with tenon := { reqs := [⟨0, 0, 0, none, 0, 0⟩] } }), 0,
      tnElapse 0 ({ live with tenon := { reqs := [⟨0, 0, 0, none, 0, 0⟩] } }), 0, ⟨0, 0, 0, none, 0, 0⟩, linked (by decide +kernel),
      by decide +kernel, by decide +kernel⟩,
    ⟨st live, 0, tnElapse 0 (live), 0, linked (by decide +kernel), by decide +kernel⟩,
    ⟨st (live.put F.TN_STAT_state 2), 0, tnElapse 0 (live.put F.TN_STAT_state 2), linked (by decide +kernel), by decide +kernel⟩,
    (by refine ⟨st (live.put F.TN_STAT_state 1), 0, tnElapse 0 (live.put F.TN_STAT_state 1), 2, 2, linked (by decide +kernel), ?_,
      ?_, ?_⟩ <;> decide +kernel),
    (by refine ⟨st (live.put F.TN_STAT_state 3), 0, tnElapse 0 (live.put F.TN_STAT_state 3), 2, 2, linked (by decide +kernel), ?_,
      ?_, ?_⟩ <;> decide +kernel),
    ⟨st (live.put F.TN_STAT_state 3), 0, tnElapse 0 (live.put F.TN_STAT_state 3), 3, 0, linked (by decide +kernel),
      by decide +kernel, by decide +kernel⟩,
    (by refine ⟨st (live.put F.TN_STAT_state 3), 0, tnElapse 0 (live.put F.TN_STAT_state 3), 2, 2, linked (by decide +kernel), ?_,
      ?_, ?_, ?_⟩ <;> decide +kernel),
    (by refine ⟨st (tnWith { fails := 2 } 4), 0, tnElapse 0 (tnWith { fails := 2 } 4), 2, 2, linked (by decide +kernel), ?_, ?_, ?_,
      ?_, ?_⟩ <;> decide +kernel),
    (by refine ⟨st (tnWith { fails := 2 } 4), 0, tnElapse 0 (tnWith { fails := 2 } 4), 2, 2, linked (by decide +kernel), ?_, ?_, ?_,
      ?_⟩ <;> decide +kernel),
    ⟨st live, 0, tnElapse 0 (live), linked (by decide +kernel), by decide +kernel⟩⟩

theorem test_witness_PurlinFramesAndFlows :
    (∃ (s : State) (dt : Nat) (m : Chip) (p : Nat) (k : Nat) (fr : PurFrame) (x : Chip) (d : TnXfer) (l : List Byte), Now s dt m ∧
      p < Config.purlinPorts ∧ (m.bumpBy (R.PUR_CNT_CORR p) k).purAlive p = true ∧
      (m.bumpBy (R.PUR_CNT_CORR p) k).purAdmit p fr = (true, x) ∧ fr.body = .data d l ∧ x.purState p = 3 ∧
      (x.purPort p).helloOk = true) ∧
    (∃ (s : State) (dt : Nat) (m : Chip) (p : Nat) (k : Nat) (fr : PurFrame) (x : Chip) (d : TnXfer) (l : List Byte), Now s dt m ∧
      p < Config.purlinPorts ∧ (m.bumpBy (R.PUR_CNT_CORR p) k).purAlive p = true ∧
      (m.bumpBy (R.PUR_CNT_CORR p) k).purAdmit p fr = (true, x) ∧ fr.body = .data d l ∧ x.purState p = 3 ∧
      (x.purPort p).helloOk = true ∧ fr.seq = m.expected fr.src fr.cls ∧ fr.seq < 2 ^ 32 ∧ fr.hops ≠ 0 ∧
      x.routeOf fr.epoch fr.src = p ∧ fr.epoch = x.epoch ∧ x.routeOf fr.epoch fr.dst = 6) ∧
    (∃ (s : State) (dt : Nat) (m : Chip) (p : Nat) (k : Nat) (fr : PurFrame) (x : Chip), Now s dt m ∧ p < Config.purlinPorts ∧
      (m.bumpBy (R.PUR_CNT_CORR p) k).purAlive p = true ∧ (m.bumpBy (R.PUR_CNT_CORR p) k).purAdmit p fr = (false, x)) ∧
    (∃ (s : State) (dt : Nat) (m : Chip) (p : Nat) (k : Nat), Now s dt m ∧ p < Config.purlinPorts ∧
      (m.bumpBy (R.PUR_CNT_CORR p) k).purAlive p = false) ∧
    (∃ (s : State) (dt : Nat) (m : Chip) (dev : Nat), Now s dt m ∧ dev < 4096) ∧
    (∃ (s : State) (dt : Nat) (m : Chip) (dev : Nat) (cls : Nat) (seq : Nat), Now s dt m ∧ dev < 4096 ∧
      (m.flow dev cls).waiting = [] ∧
      (((m.flow dev cls).unacked.filter (fun u => !decide ((seq + 2 ^ 32 - u.frame.seq) % 2 ^ 32 < 2 ^ 31))).length ≠ (m.flow dev cls).unacked.length)) ∧
    (∃ (s : State) (dt : Nat) (m : Chip) (dev : Nat) (cls : Nat), Now s dt m ∧ dev < 4096 ∧ (m.flow dev cls).unacked ≠ []) ∧
    (∃ (s : State) (dt : Nat) (m : Chip) (dev : Nat) (cls : Nat) (seq : Nat), Now s dt m ∧ dev < 4096 ∧
      (m.flow dev cls).unacked ≠ [] ∧
      (((m.flow dev cls).unacked.filter (fun u => !decide ((((seq + 2 ^ 32 - 1) % 2 ^ 32) + 2 ^ 32 - u.frame.seq) % 2 ^ 32 < 2 ^ 31))).length = (m.flow dev cls).unacked.length) ∧
      ((m.flow dev cls).unacked.any (fun u => decide (8 ≤ u.resends)) = false)) ∧
    (∃ (s : State) (dt : Nat) (m : Chip) (dev : Nat) (cls : Nat), Now s dt m ∧ dev < 4096 ∧ (m.flow dev cls).unacked ≠ [] ∧
      (m.flow dev cls).ackAt + ((m.stick.fabric.map (·.rto)).getD 8) * 1000 ≤ m.now) ∧
    (∃ (s : State) (dt : Nat) (m : Chip) (dev : Nat) (cls : Nat), Now s dt m ∧ dev < 4096 ∧ (m.flow dev cls).unacked ≠ [] ∧
      (m.flow dev cls).ackAt + ((m.stick.fabric.map (·.rto)).getD 8) * 1000 ≤ m.now ∧
      ((m.flow dev cls).unacked.any (fun u => decide (8 ≤ u.resends)) = false)) ∧
    (∃ (s : State) (dt : Nat) (m : Chip) (dev : Nat) (cls : Nat), Now s dt m ∧ dev < 4096 ∧ ((m.flow dev cls).unacked = [] ∨
      m.now < (m.flow dev cls).ackAt + ((m.stick.fabric.map (·.rto)).getD 8) * 1000)) ∧
    (∃ (s : State) (dt : Nat) (m : Chip) (p : Nat), Now s dt m ∧ p < Config.purlinPorts ∧ m.purAlive p = true) ∧
    (∃ (s : State) (dt : Nat) (m : Chip) (p : Nat) (h : HelloRec), Now s dt m ∧ p < Config.purlinPorts ∧ m.purState p = 3 ∧
      m.stick.fabric.isSome = true ∧ (m.purPort p).hello = none ∧ m.helloPasses p h = true ∧ (m.purPort p).txq = []) ∧
    (∃ (s : State) (dt : Nat) (m : Chip) (p : Nat), Now s dt m ∧ p < Config.purlinPorts ∧ m.purAlive p = true ∧
      (m.purPort p).helloAt + 100000000 ≤ m.now) ∧
    (∃ (s : State) (dt : Nat) (m : Chip) (p : Nat), Now s dt m ∧ p < Config.purlinPorts ∧ m.purState p = 3 ∧
      m.flag (F.PUR_CFG_lpi_en p) = false ∧ (m.purPort p).txq = [] ∧ (m.purPort p).helloOk = true) ∧
    (∃ (s : State) (dt : Nat) (m : Chip) (b : Nat), Now s dt m ∧ b = m.rd64 R.PUR_SWAP_BAY_LO R.PUR_SWAP_BAY_HI ∧ m.bay < b ∧
      m.purlin.swapDue = none) ∧
    (∃ (s : State) (dt : Nat) (m : Chip) (b : Nat), Now s dt m ∧ b = m.rd64 R.PUR_SWAP_BAY_LO R.PUR_SWAP_BAY_HI ∧ (b ≤ m.bay ∨
      m.purlin.swapDue ≠ none)) :=
  ⟨(by refine ⟨st ((live.setPurPort 3 { helloOk := true }).put (F.PUR_STAT_state 3) 3), 0,
    (live.setPurPort 3 { helloOk := true }).put (F.PUR_STAT_state 3) 3, 3, 0, purFrame0,
    (Chip.purAdmit 3 purFrame0 (((live.setPurPort 3 { helloOk := true }).put (F.PUR_STAT_state 3) 3).bumpBy (R.PUR_CNT_CORR 3) 0)).2,
    ⟨0, 0, 0, 0, 5, 0, 0⟩, [], now (by decide +kernel), ?_, ?_, ?_, ?_, ?_, ?_⟩ <;> decide +kernel),
    (by refine ⟨st (((live.setPurPort 3 { helloOk := true }).put (F.PUR_STAT_state 3) 3).onPur fun p => { p with routes := [(0, 6), (1, 3)] }),
      0, ((live.setPurPort 3 { helloOk := true }).put (F.PUR_STAT_state 3) 3).onPur fun p => { p with routes := [(0, 6), (1, 3)] },
      3, 0, { purFrame0 with dst := 0 },
      (Chip.purAdmit 3 { purFrame0 with dst := 0 } ((((live.setPurPort 3 { helloOk := true }).put (F.PUR_STAT_state 3) 3).onPur fun p => { p with routes := [(0, 6), (1, 3)] }).bumpBy (R.PUR_CNT_CORR 3) 0)).2,
      ⟨0, 0, 0, 0, 5, 0, 0⟩, [], now (by decide +kernel), ?_, ?_, ?_, ?_, ?_, ?_, ?_, ?_, ?_, ?_, ?_, ?_⟩ <;> decide +kernel),
    (by refine ⟨st ((live.setPurPort 3 { helloOk := true }).put (F.PUR_STAT_state 3) 3), 0,
      (live.setPurPort 3 { helloOk := true }).put (F.PUR_STAT_state 3) 3, 3, 0, { purFrame0 with tagOk := false },
      (Chip.purAdmit 3 { purFrame0 with tagOk := false } (((live.setPurPort 3 { helloOk := true }).put (F.PUR_STAT_state 3) 3).bumpBy (R.PUR_CNT_CORR 3) 0)).2,
      now (by decide +kernel), ?_, ?_, ?_⟩ <;> decide +kernel),
    ⟨st ({ live with purlin := { out := [{ dev := 4095, cls := 2, unacked := [⟨{ purFrame0 with seq := 0 }, 0⟩] }] } }), 0,
      { live with purlin := { out := [{ dev := 4095, cls := 2, unacked := [⟨{ purFrame0 with seq := 0 }, 0⟩] }] } }, 3, 0,
      now (by decide +kernel), by decide +kernel, by decide +kernel⟩,
    ⟨st ({ live with purlin := { out := [{ dev := 4095, cls := 2, unacked := [⟨{ purFrame0 with seq := 0 }, 0⟩] }] } }), 0,
      { live with purlin := { out := [{ dev := 4095, cls := 2, unacked := [⟨{ purFrame0 with seq := 0 }, 0⟩] }] } }, 4095,
      now (by decide +kernel), by decide +kernel⟩,
    (by refine ⟨st ({ live with purlin := { out := [{ dev := 4095, cls := 2, unacked := [⟨{ purFrame0 with seq := 0 }, 0⟩] }] } }),
      0, { live with purlin := { out := [{ dev := 4095, cls := 2, unacked := [⟨{ purFrame0 with seq := 0 }, 0⟩] }] } }, 4095, 2, 0,
      now (by decide +kernel), ?_, ?_, ?_⟩ <;> decide +kernel),
    ⟨st ({ live with purlin := { out := [{ dev := 4095, cls := 2, unacked := [⟨{ purFrame0 with seq := 0 }, 0⟩] }] } }), 0,
      { live with purlin := { out := [{ dev := 4095, cls := 2, unacked := [⟨{ purFrame0 with seq := 0 }, 0⟩] }] } }, 4095, 2,
      now (by decide +kernel), by decide +kernel, by decide +kernel⟩,
    (by refine ⟨st ({ live with purlin := { out := [{ dev := 4095, cls := 2, unacked := [⟨{ purFrame0 with seq := 0 }, 0⟩] }] } }),
      0, { live with purlin := { out := [{ dev := 4095, cls := 2, unacked := [⟨{ purFrame0 with seq := 0 }, 0⟩] }] } }, 4095, 2, 0,
      now (by decide +kernel), ?_, ?_, ?_, ?_⟩ <;> decide +kernel),
    (by refine ⟨st ({ live with purlin := { out := [{ dev := 4095, cls := 2, unacked := [⟨{ purFrame0 with seq := 0 }, 0⟩] }] } }),
      0, { live with purlin := { out := [{ dev := 4095, cls := 2, unacked := [⟨{ purFrame0 with seq := 0 }, 0⟩] }] } }, 4095, 2,
      now (by decide +kernel), ?_, ?_, ?_⟩ <;> decide +kernel),
    (by refine ⟨st ({ live with purlin := { out := [{ dev := 4095, cls := 2, unacked := [⟨{ purFrame0 with seq := 0 }, 0⟩] }] } }),
      0, { live with purlin := { out := [{ dev := 4095, cls := 2, unacked := [⟨{ purFrame0 with seq := 0 }, 0⟩] }] } }, 4095, 2,
      now (by decide +kernel), ?_, ?_, ?_, ?_⟩ <;> decide +kernel),
    ⟨st (live.wr R.PUR_SWAP_BAY_LO 1), 0, live.wr R.PUR_SWAP_BAY_LO 1, 0, 0, now (by decide +kernel), by decide +kernel,
      by decide +kernel⟩,
    ⟨st ((live.setPurPort 3 { helloOk := true }).put (F.PUR_STAT_state 3) 3), 0,
      (live.setPurPort 3 { helloOk := true }).put (F.PUR_STAT_state 3) 3, 3, now (by decide +kernel), by decide +kernel,
      by decide +kernel⟩,
    (by refine ⟨st ({ live with stick := { stick0 with fabric := some { group := 0, peers := [(3, 0)] } } }.put (F.PUR_STAT_state 3) 3),
      0, { live with stick := { stick0 with fabric := some { group := 0, peers := [(3, 0)] } } }.put (F.PUR_STAT_state 3) 3, 3,
      { hello0 with tag := 0xA1000000 + Config.ucodeLevel.toNat * 2 ^ 12 + Config.fwLevel.toNat }, now (by decide +kernel), ?_, ?_,
      ?_, ?_, (beq_self_eq_true _ : (_ : Bool) = true), ?_⟩ <;> decide +kernel),
    (by refine ⟨st ((live.setPurPort 3 { helloOk := true }).put (F.PUR_STAT_state 3) 3), 0,
      (live.setPurPort 3 { helloOk := true }).put (F.PUR_STAT_state 3) 3, 3, now (by decide +kernel), ?_, ?_,
      ?_⟩ <;> decide +kernel),
    (by refine ⟨st ((live.setPurPort 3 { helloOk := true }).put (F.PUR_STAT_state 3) 3), 0,
      (live.setPurPort 3 { helloOk := true }).put (F.PUR_STAT_state 3) 3, 3, now (by decide +kernel), ?_, ?_, ?_, ?_,
      ?_⟩ <;> decide +kernel),
    ⟨st (live.wr R.PUR_SWAP_BAY_LO 1), 0, live.wr R.PUR_SWAP_BAY_LO 1, _, now (by decide +kernel), rfl, by decide +kernel,
      by decide +kernel⟩,
    ⟨st live, 0, live, _, now (by decide +kernel), rfl, by decide +kernel⟩⟩

theorem test_witness_PurlinPortsTrainAndSleep :
    (∃ (s : State) (dt : Nat) (m : Chip) (p : Nat) (t0 : PurTrain), Now s dt m ∧ p < Config.purlinPorts ∧ t0.ok = true ∧
      t0.skew ≤ 80 ∧ laneMapOk t0.laneMap = true ∧ m.purState p = 1) ∧
    (∃ (s : State) (dt : Nat) (m : Chip) (p : Nat) (t0 : PurTrain), Now s dt m ∧ p < Config.purlinPorts ∧ t0.ok = true ∧
      t0.skew ≤ 80 ∧ laneMapOk t0.laneMap = true ∧ m.purState p = 1 ∧ (m.purPort p).keyed = true) ∧
    (∃ (s : State) (dt : Nat) (m : Chip) (p : Nat) (t0 : PurTrain) (x : Chip), Now s dt m ∧ p < Config.purlinPorts ∧
      m.purState p = 1 ∧ (t0.ok = false ∨ 80 < t0.skew ∨ laneMapOk t0.laneMap = false) ∧
      (x = m.modPurPort p fun s => { s with fails := (m.purPort p).fails + 1, tryAt := m.now + 100000000 })) ∧
    (∃ (s : State) (dt : Nat) (m : Chip) (p : Nat) (t0 : PurTrain), Now s dt m ∧ p < Config.purlinPorts ∧ m.purState p = 1 ∧
      t0.ok = false) ∧
    (∃ (s : State) (dt : Nat) (m : Chip) (p : Nat), Now s dt m ∧ p < Config.purlinPorts ∧ m.purState p = 0 ∧
      3 ≤ (m.purPort p).fails ∧ (m.purPort p).tryAt ≤ m.now) ∧
    (∃ (s : State) (dt : Nat) (m : Chip) (p : Nat), Now s dt m ∧ p < Config.purlinPorts ∧ m.purState p = 2 ∧
      (m.purPort p).tryAt ≤ m.now) ∧
    (∃ (s : State) (dt : Nat) (m : Chip) (p : Nat) (t0 : PurTrain), Now s dt m ∧ p < Config.purlinPorts ∧ m.purState p = 2 ∧
      (m.purPort p).tryAt ≤ m.now ∧ (m.purPort p).keyed = false ∧ t0.authOk = true ∧
      m.trust.revokedCerts.contains t0.certHash = false) ∧
    (∃ (s : State) (dt : Nat) (m : Chip) (p : Nat), Now s dt m ∧ p < Config.purlinPorts ∧ m.flag (F.PUR_CFG_enabled p) = true) ∧
    (∃ (s : State) (dt : Nat) (m : Chip) (p : Nat), Now s dt m ∧ p < Config.purlinPorts ∧ m.flag (F.PUR_CFG_enabled p) = true ∧
      m.purAlive p = true ∧ tabWf {} m.purlin.ports = true) ∧
    (∃ (s : State) (dt : Nat) (m : Chip) (p : Nat), Now s dt m ∧ p < Config.purlinPorts ∧ m.flag (F.PUR_CFG_enabled p) = false) ∧
    (∃ (s : State) (dt : Nat) (m : Chip) (p : Nat) (x : Chip), Now s dt m ∧ p < Config.purlinPorts ∧
      x = m.put (F.PUR_CTRL_hold p) 1 ∧ x.flag (F.PUR_CFG_enabled p) = true ∧ x.purAlive p = true) ∧
    (∃ (s : State) (dt : Nat) (m : Chip) (p : Nat) (x : Chip), Now s dt m ∧ p < Config.purlinPorts ∧
      x = m.put (F.PUR_CTRL_hold p) 1 ∧ x.flag (F.PUR_CFG_enabled p) = true ∧ x.purAlive p = true ∧
      tabWf {} m.purlin.ports = true) ∧
    (∃ (s : State) (dt : Nat) (m : Chip) (p : Nat) (x : Chip), Now s dt m ∧ p < Config.purlinPorts ∧
      x = m.put (F.PUR_CTRL_hold p) 0 ∧ x.flag (F.PUR_CFG_enabled p) = true ∧ x.purState p = 6) ∧
    (∃ (s : State) (dt : Nat) (m : Chip) (p : Nat) (z : Chip × Nat) (g : Nat × Nat), Now s dt m ∧ p < Config.purlinPorts ∧
      m.purState p = 3 ∧ 2 ^ 61 ≤ (m.purPort p).txCtr ∧ (m.purPort p).txSwitch = none ∧ z = (m.draw.2, m.draw.1) ∧
      g = ((m.purPort p).gen + 1, (m.purPort p).txCtr + 1 + z.2 % 2 ^ 32)) ∧
    (∃ (s : State) (dt : Nat) (m : Chip) (p : Nat), Now s dt m ∧ p < Config.purlinPorts ∧ m.purAlive p = true) ∧
    (∃ (s : State) (dt : Nat) (m : Chip) (p : Nat), Now s dt m ∧ p < Config.purlinPorts ∧ m.purAlive p = true ∧
      tabWf {} m.purlin.ports = true ∧ Canon m) ∧
    (∃ (s : State) (dt : Nat) (m : Chip) (p : Nat) (l : List Nat) (x : Chip), Now s dt m ∧ p < Config.purlinPorts ∧
      m.purAlive p = true ∧ (l = ((m.purPort p).fecTimes.filter fun t => decide (m.now < t + 1000000)) ++ [m.now]) ∧
      (m.purPort p).run = 3 ∧
      x = ((m.setPurPort p { m.purPort p with fecTimes := l, run := 4, resync := true }).setFlag (F.PUR_STAT_fec_uncorr p)).bump (R.PUR_CNT_UNCORR p)) ∧
    (∃ (s : State) (dt : Nat) (m : Chip) (p : Nat) (l : List Nat) (x : Chip), Now s dt m ∧ p < Config.purlinPorts ∧
      m.purAlive p = true ∧ (l = ((m.purPort p).fecTimes.filter fun t => decide (m.now < t + 1000000)) ++ [m.now]) ∧
      l.length ≤ max 1 (m.get (F.PUR_FEC_CFG_fec_limit p)) ∧
      x = ((m.setPurPort p { m.purPort p with fecTimes := l, run := 1, resync := true }).setFlag (F.PUR_STAT_fec_uncorr p)).bump (R.PUR_CNT_UNCORR p)) ∧
    (∃ (s : State) (dt : Nat) (m : Chip) (p : Nat), Now s dt m ∧ p < Config.purlinPorts ∧ m.mayIdle p = true ∧
      (m.purPort p).grant = true) ∧
    (∃ (s : State) (dt : Nat) (m : Chip) (p : Nat), Now s dt m ∧ p < Config.purlinPorts ∧ m.mayIdle p = true ∧
      (m.purPort p).grant = false) ∧
    (∃ (s : State) (dt : Nat) (m : Chip) (p : Nat), Now s dt m ∧ p < Config.purlinPorts ∧ m.mayIdle p = false) ∧
    (∃ (s : State) (dt : Nat) (m : Chip) (p : Nat) (skew : Int) (relock : Bool), Now s dt m ∧ p < Config.purlinPorts ∧
      m.purState p = 5 ∧ m.wakeBay p = true ∧ (2000 < skew ∨ relock = false)) ∧
    (∃ (s : State) (dt : Nat) (m : Chip) (p : Nat) (skew : Int), Now s dt m ∧ p < Config.purlinPorts ∧ m.purState p = 5 ∧
      m.wakeBay p = true ∧ skew ≤ 2000 ∧ (m.purPort p).txq = [] ∧ m.purPlanned p = false) ∧
    (∃ (s : State) (dt : Nat) (m : Chip) (p : Nat) (skew : Int) (y : Chip), Now s dt m ∧ p < Config.purlinPorts ∧ m.purState p = 5 ∧
      m.wakeBay p = true ∧ skew ≤ 2000 ∧
      y = (((m.put F.TM_WAKE_SKEW_port p).put F.TM_WAKE_SKEW_miss 0).put F.TM_WAKE_SKEW_skew (unsignedOf 25 (clampI (-(2 ^ 24)) (2 ^ 24 - 1) skew))).linkSend p { busy := (!(m.purPort p).txq.isEmpty || m.purPlanned p) }) ∧
    (∃ (s : State) (dt : Nat) (m : Chip) (p : Nat) (skew : Int) (y : Chip), Now s dt m ∧ p < Config.purlinPorts ∧ m.purState p = 5 ∧
      m.wakeBay p = true ∧ skew ≤ 2000 ∧
      y = (((m.put F.TM_WAKE_SKEW_port p).put F.TM_WAKE_SKEW_miss 0).put F.TM_WAKE_SKEW_skew (unsignedOf 25 (clampI (-(2 ^ 24)) (2 ^ 24 - 1) skew))).linkSend p { busy := (!(m.purPort p).txq.isEmpty || m.purPlanned p) } ∧
      (m.purPort p).txq = [] ∧ 0 < m.now) ∧
    (∃ (s : State) (dt : Nat) (m : Chip) (p : Nat), Now s dt m ∧ p < Config.purlinPorts ∧ m.purState p = 5 ∧ m.wakeBay p = true ∧
      2000 ≤ m.coreCycle) ∧
    (∃ (s : State) (dt : Nat) (m : Chip) (p : Nat), Now s dt m ∧ p < Config.purlinPorts) ∧
    (∃ (s : State) (dt : Nat) (m : Chip) (p : Nat), Now s dt m ∧ p < Config.purlinPorts ∧ (m.purPort p).keyed = true) :=
  ⟨(by refine ⟨st (live.put (F.PUR_STAT_state 3) 1), 0, live.put (F.PUR_STAT_state 3) 1, 3, {}, now (by decide +kernel), ?_, ?_, ?_,
    ?_, ?_⟩ <;> decide +kernel),
    (by refine ⟨st ((live.setPurPort 3 { keyed := true }).put (F.PUR_STAT_state 3) 1), 0,
      (live.setPurPort 3 { keyed := true }).put (F.PUR_STAT_state 3) 1, 3, { skew := 80 }, now (by decide +kernel), ?_, ?_, ?_, ?_,
      ?_, ?_⟩ <;> decide +kernel),
    (by refine ⟨st (live.put (F.PUR_STAT_state 3) 1), 0, live.put (F.PUR_STAT_state 3) 1, 3, { skew := 81 }, _,
      now (by decide +kernel), ?_, ?_, ?_, rfl⟩ <;> decide +kernel),
    (by refine ⟨st (live.put (F.PUR_STAT_state 3) 1), 0, live.put (F.PUR_STAT_state 3) 1, 3, { ok := false },
      now (by decide +kernel), ?_, ?_, ?_⟩ <;> decide +kernel),
    (by refine ⟨st (live.setPurPort 3 { fails := 3 }), 0, live.setPurPort 3 { fails := 3 }, 3, now (by decide +kernel), ?_, ?_, ?_,
      ?_⟩ <;> decide +kernel),
    (by refine ⟨st (live.put (F.PUR_STAT_state 3) 2), 0, live.put (F.PUR_STAT_state 3) 2, 3, now (by decide +kernel), ?_, ?_,
      ?_⟩ <;> decide +kernel),
    (by refine ⟨st (live.put (F.PUR_STAT_state 3) 2), 0, live.put (F.PUR_STAT_state 3) 2, 3, {}, now (by decide +kernel), ?_, ?_,
      ?_, ?_, ?_, ?_⟩ <;> decide +kernel),
    ⟨st (live.put (F.PUR_CFG_enabled 3) 1), 0, live.put (F.PUR_CFG_enabled 3) 1, 3, now (by decide +kernel), by decide +kernel,
      by decide +kernel⟩,
    (by refine ⟨st ((live.put (F.PUR_CFG_enabled 3) 1).put (F.PUR_STAT_state 3) 3), 0,
      (live.put (F.PUR_CFG_enabled 3) 1).put (F.PUR_STAT_state 3) 3, 3, now (by decide +kernel), ?_, ?_, ?_,
      ?_⟩ <;> decide +kernel),
    ⟨st (live.put (F.PUR_STAT_state 3) 3), 0, live.put (F.PUR_STAT_state 3) 3, 3, now (by decide +kernel), by decide +kernel,
      by decide +kernel⟩,
    (by refine ⟨st ((live.put (F.PUR_CFG_enabled 3) 1).put (F.PUR_STAT_state 3) 3), 0,
      (live.put (F.PUR_CFG_enabled 3) 1).put (F.PUR_STAT_state 3) 3, 3, _, now (by decide +kernel), ?_, rfl, ?_,
      ?_⟩ <;> decide +kernel),
    (by refine ⟨st ((live.put (F.PUR_CFG_enabled 3) 1).put (F.PUR_STAT_state 3) 3), 0,
      (live.put (F.PUR_CFG_enabled 3) 1).put (F.PUR_STAT_state 3) 3, 3, _, now (by decide +kernel), ?_, rfl, ?_, ?_,
      ?_⟩ <;> decide +kernel),
    (by refine ⟨st ((live.put (F.PUR_CFG_enabled 3) 1).put (F.PUR_STAT_state 3) 6), 0,
      (live.put (F.PUR_CFG_enabled 3) 1).put (F.PUR_STAT_state 3) 6, 3, _, now (by decide +kernel), ?_, rfl, ?_,
      ?_⟩ <;> decide +kernel),
    (by refine ⟨st ((live.setPurPort 3 { txCtr := 2 ^ 61 }).put (F.PUR_STAT_state 3) 3), 0,
      (live.setPurPort 3 { txCtr := 2 ^ 61 }).put (F.PUR_STAT_state 3) 3, 3, _, _, now (by decide +kernel), ?_, ?_, ?_, ?_, rfl,
      rfl⟩ <;> decide +kernel),
    ⟨st ((live.put (F.PUR_CFG_enabled 3) 1).put (F.PUR_STAT_state 3) 3), 0,
      (live.put (F.PUR_CFG_enabled 3) 1).put (F.PUR_STAT_state 3) 3, 3, now (by decide +kernel), by decide +kernel,
      by decide +kernel⟩,
    (by refine ⟨st ((live.put (F.PUR_CFG_enabled 3) 1).put (F.PUR_STAT_state 3) 3), 0,
      (live.put (F.PUR_CFG_enabled 3) 1).put (F.PUR_STAT_state 3) 3, 3, now (by decide +kernel), ?_, ?_, ?_,
      canon (by decide +kernel)⟩ <;> decide +kernel),
    (by refine ⟨st ((live.setPurPort 3 { run := 3 }).put (F.PUR_STAT_state 3) 3), 0,
      (live.setPurPort 3 { run := 3 }).put (F.PUR_STAT_state 3) 3, 3, _, _, now (by decide +kernel), ?_, ?_, rfl, ?_,
      rfl⟩ <;> decide +kernel),
    (by refine ⟨st ((live.put (F.PUR_CFG_enabled 3) 1).put (F.PUR_STAT_state 3) 3), 0,
      (live.put (F.PUR_CFG_enabled 3) 1).put (F.PUR_STAT_state 3) 3, 3, _, _, now (by decide +kernel), ?_, ?_, rfl, ?_,
      rfl⟩ <;> decide +kernel),
    (by refine ⟨st (((live.setPurPort 3 { grant := true }).put (F.PUR_STAT_state 3) 3).put (F.PUR_CFG_lpi_en 3) 1), 0,
      ((live.setPurPort 3 { grant := true }).put (F.PUR_STAT_state 3) 3).put (F.PUR_CFG_lpi_en 3) 1, 3, now (by decide +kernel), ?_,
      ?_, ?_⟩ <;> decide +kernel),
    (by refine ⟨st ((live.put (F.PUR_STAT_state 3) 3).put (F.PUR_CFG_lpi_en 3) 1), 0,
      (live.put (F.PUR_STAT_state 3) 3).put (F.PUR_CFG_lpi_en 3) 1, 3, now (by decide +kernel), ?_, ?_, ?_⟩ <;> decide +kernel),
    ⟨st live, 0, live, 3, now (by decide +kernel), by decide +kernel, by decide +kernel⟩,
    (by refine ⟨st (inBay.put (F.PUR_STAT_state 3) 5), 0, inBay.put (F.PUR_STAT_state 3) 5, 3, 2001, false, now (by decide +kernel),
      ?_, ?_, ?_, ?_⟩ <;> decide +kernel),
    (by refine ⟨st (inBay.put (F.PUR_STAT_state 3) 5), 0, inBay.put (F.PUR_STAT_state 3) 5, 3, 2000, now (by decide +kernel), ?_,
      ?_, ?_, ?_, ?_, ?_⟩ <;> decide +kernel),
    (by refine ⟨st (inBay.put (F.PUR_STAT_state 3) 5), 0, inBay.put (F.PUR_STAT_state 3) 5, 3, 2000, _, now (by decide +kernel), ?_,
      ?_, ?_, ?_, rfl⟩ <;> decide +kernel),
    (by refine ⟨st (inBay.put (F.PUR_STAT_state 3) 5), 0, inBay.put (F.PUR_STAT_state 3) 5, 3, 2000, _, now (by decide +kernel), ?_,
      ?_, ?_, ?_, rfl, ?_, ?_⟩ <;> decide +kernel),
    (by refine ⟨st ({ inBay with bays := { inBay.bays with startAt := 0 } }.put (F.PUR_STAT_state 3) 5), 0,
      { inBay with bays := { inBay.bays with startAt := 0 } }.put (F.PUR_STAT_state 3) 5, 3, now (by decide +kernel), ?_, ?_, ?_,
      ?_⟩ <;> decide +kernel),
    ⟨st live, 0, live, 3, now (by decide +kernel), by decide +kernel⟩,
    ⟨st (live.setPurPort 3 { keyed := true }), 0, live.setPurPort 3 { keyed := true }, 3, now (by decide +kernel),
      by decide +kernel, by decide +kernel⟩⟩

theorem test_witness_SamplesAreCapturedAndLabelled :
    (∃ (s : State) (dt : Nat) (m : Chip) (h : Nat) (k : Nat) (r : HeadRec) (feats : List ((Nat × Nat × Nat) × List Byte)) (l : List Sample),
      Now s dt m ∧ h < 8 ∧ m.headRec h = some r ∧ m.bays.running = true ∧ k + m.depth = m.bay + 1 ∧ m.follower = false ∧
      m.headKind h ≠ 0 ∧ m.pairInvalid r.job k = false ∧ m.processes r.job k = true ∧
      (l = (m.pp.pending.filter fun g => g.job == r.job && g.closeBay == k && g.kind == 0).flatMap fun g => (g.objs.filter (captures r g)).map fun e => { head := h, closeBay := k, strip := g.strip, objId := e.objId, stream := g.stream, cls := e.cls, epoch := m.get F.CM_KEY_key_epoch, feats := ((feats.find? fun f => f.1 == (g.stream, g.strip, e.objId)).map (·.2)).getD [] })) ∧
    (∃ (s : State) (dt : Nat) (m : Chip) (h : Nat) (k : Nat) (r : HeadRec) (feats : List ((Nat × Nat × Nat) × List Byte)) (l : List Sample),
      Now s dt m ∧ h < 8 ∧ m.headRec h = some r ∧ m.bays.running = true ∧ k + m.depth = m.bay + 1 ∧ m.follower = false ∧
      m.headKind h ≠ 0 ∧ m.pairInvalid r.job k = false ∧ m.processes r.job k = true ∧
      (l = (m.pp.pending.filter fun g => g.job == r.job && g.closeBay == k && g.kind == 0).flatMap fun g => (g.objs.filter (captures r g)).map fun e => { head := h, closeBay := k, strip := g.strip, objId := e.objId, stream := g.stream, cls := e.cls, epoch := m.get F.CM_KEY_key_epoch, feats := ((feats.find? fun f => f.1 == (g.stream, g.strip, e.objId)).map (·.2)).getD [] }) ∧
      l ≠ []) ∧
    (∃ (s : State) (dt : Nat) (m : Chip) (h : Nat) (r : HeadRec), Now s dt m ∧ h < 8 ∧ m.headRec h = some r ∧
      (m.bays.running = false ∨ m.follower = true ∨ m.headKind h = 0)) ∧
    (∃ (s : State) (dt : Nat) (m : Chip) (session : Nat) (h : Nat) (c : Nat) (x : Chip) (v : Session) (r : HeadRec), Now s dt m ∧
      h < 8 ∧ x = m.touch session ∧ x.session session = some v ∧ v.level ≠ 0 ∧ x.headRec h = some r ∧ x.headKind h ≠ 0 ∧
      x.dOut h ≤ c) ∧
    (∃ (s : State) (dt : Nat) (m : Chip) (session : Nat) (h : Nat) (id : Nat) (c : Nat) (x : Chip) (v : Session) (r : HeadRec),
      Now s dt m ∧ h < 8 ∧ x = m.touch session ∧ x.session session = some v ∧ v.level ≠ 0 ∧ x.headRec h = some r ∧
      x.headKind h ≠ 0 ∧ c < x.dOut h ∧ (((x.head h).labelled.any fun y => y.id == id) = true)) ∧
    (∃ (s : State) (dt : Nat) (m : Chip) (session : Nat) (h : Nat) (id : Nat) (c : Nat) (x : Chip) (v : Session) (r : HeadRec) (u : Sample),
      Now s dt m ∧ h < 8 ∧ x = m.touch session ∧ x.session session = some v ∧ v.level ≠ 0 ∧ x.headRec h = some r ∧
      x.headKind h ≠ 0 ∧ c < x.dOut h ∧ (((x.head h).labelled.any fun y => y.id == id) = false) ∧
      (((x.head h).ring.find? fun y => y.id == id) = some u) ∧ (x.head h).labelled.length < r.nLab) ∧
    (∃ (s : State) (dt : Nat) (m : Chip) (session : Nat) (h : Nat) (id : Nat) (x : Chip) (v : Session) (r : HeadRec), Now s dt m ∧
      h < 8 ∧ x = m.touch session ∧ x.session session = some v ∧ v.level ≠ 0 ∧ x.headRec h = some r ∧ x.headKind h ≠ 0 ∧
      (((x.head h).labelled.any fun y => y.id == id) = true)) :=
  ⟨(by refine ⟨st heads0, 0, heads0, 0, 39999, head0, [], _, now (by decide +kernel), ?_, ?_, ?_, ?_, ?_, ?_, ?_, ?_,
    rfl⟩ <;> decide +kernel),
    (by refine ⟨st ({ heads0 with pp := { heads0.pp with pending := [{ group0 with job := 2, objs := [{ countLead := 0, objId := 0, countLen := 0, colFirst := 0, colLast := 0, cls := 0, verdict := 1, score := 0 }] }] } }),
      0,
      { heads0 with pp := { heads0.pp with pending := [{ group0 with job := 2, objs := [{ countLead := 0, objId := 0, countLen := 0, colFirst := 0, colLast := 0, cls := 0, verdict := 1, score := 0 }] }] } },
      0, 39999, head0, [], _, now (by decide +kernel), ?_, ?_, ?_, ?_, ?_, ?_, ?_, ?_, rfl, ?_⟩ <;> decide +kernel),
    (by refine ⟨st live, 0, live, 0, head0, now (by decide +kernel), ?_, ?_, ?_⟩ <;> decide +kernel),
    (by refine ⟨st heads0, 0, heads0, 0, 0, 1, _, { sess with lastAt := 10000000000 }, head0, now (by decide +kernel), ?_, rfl, ?_,
      ?_, ?_, ?_, ?_⟩ <;> decide +kernel),
    (by refine ⟨st (heads0.setHead 0 { labelled := [sample0] }), 0, heads0.setHead 0 { labelled := [sample0] }, 0, 0, 0, 0, _,
      { sess with lastAt := 10000000000 }, head0, now (by decide +kernel), ?_, rfl, ?_, ?_, ?_, ?_, ?_, ?_⟩ <;> decide +kernel),
    (by refine ⟨st (heads0.setHead 0 { ring := [sample0] }), 0, heads0.setHead 0 { ring := [sample0] }, 0, 0, 0, 0, _,
      { sess with lastAt := 10000000000 }, head0, sample0, now (by decide +kernel), ?_, rfl, ?_, ?_, ?_, ?_, ?_, ?_, ?_,
      ?_⟩ <;> decide +kernel),
    (by refine ⟨st (heads0.setHead 0 { labelled := [sample0] }), 0, heads0.setHead 0 { labelled := [sample0] }, 0, 0, 0, _,
      { sess with lastAt := 10000000000 }, head0, now (by decide +kernel), ?_, rfl, ?_, ?_, ?_, ?_, ?_⟩ <;> decide +kernel)⟩

theorem test_witness_HeadsAreTrainedAndCommitted :
    (∃ (s : State) (dt : Nat) (m : Chip) (a : Auth) (v : Session) (h : Nat) (seed : Nat) (epochs : Nat) (n : Nat) (er : ReadErrs) (o : TrainOpts) (r : HeadRec) (t0 : TrainRun) (x : Chip) (q : Nat →
      Nat), Now s dt m ∧ Admitted m [3] false false a v ∧ h < 8 ∧ m.headRec h = some r ∧ (m.head h).run = none ∧ m.headKind h ≠ 0 ∧
      epochs ≠ 0 ∧ epochs ≤ 1000 ∧ runOk (runOf (o.adam.getD (m.flag (F.ADAPT_CFG_opt h))) (seed % 2 ^ 64) epochs o r) = true ∧
      x = ((consumed a v m).acceptCmd a) ∧ x.headKind h ≠ 0 ∧
      t0 = runOf (o.adam.getD (x.flag (F.ADAPT_CFG_opt h))) (seed % 2 ^ 64) epochs o r ∧ runOk t0 = true ∧ n = x.headWeights h r ∧
      q = servingWeight r n (x.readMem er (hbmAddr r.wAddr) (servingBytes r.fmt n))) ∧
    (∃ (s : State) (dt : Nat) (m : Chip) (h : Nat) (j : Nat) (r : HeadRec) (t0 : TrainRun) (u : TrainRun), Now s dt m ∧ h < 8 ∧
      m.headRec h = some r ∧ (m.head h).run = some t0 ∧ m.adaptJob = some j ∧
      u = (if t0.frozen.isSome then t0 else nextEpoch (m.get (F.ADAPT_CFG_val_16 h)) (m.head h).labelled (t0.epochs + 1) t0) ∧
      trainList u.seed (m.get (F.ADAPT_CFG_val_16 h)) (u.frozen.getD []) = []) ∧
    (∃ (s : State) (dt : Nat) (m : Chip) (h : Nat) (j : Nat) (b : Nat) (ce : List Nat) (r : HeadRec) (t0 : TrainRun) (t1 : TrainRun) (u : TrainRun) (w : List Nat) (list : List Sample) (slots : List (Option Sample)) (x : Chip),
      Now s dt m ∧ h < 8 ∧ m.headRec h = some r ∧ (m.head h).run = some t0 ∧ m.adaptJob = some j ∧ t0.frozen.isSome = true ∧
      list = trainList t0.seed (m.get (F.ADAPT_CFG_val_16 h)) (t0.frozen.getD []) ∧ b = m.get (F.ADAPT_CFG_batch h) ∧
      (t0.step + 1) * b < list.length ∧ t0.stopDue = false ∧ t0.epoch < t0.epochs ∧
      (slots = batchSlots t0 b list (fun s => !(m.head h).labelled.any fun y => y.id == s.id) []) ∧
      stepWeights (m.headKind h) t0 (m.head h).master slots = (t1, w) ∧ u = { t1 with step := t0.step + 1 } ∧ u.stopDue = false ∧
      u.epoch < u.epochs ∧
      x = ((m.cmErrs { cmCe := ce, cmUe := [] }).setHead h { m.head h with run := some u, master := w }).stepDone j) ∧
    (∃ (s : State) (dt : Nat) (m : Chip) (h : Nat), Now s dt m ∧ h < 8) ∧
    (∃ (s : State) (dt : Nat) (m : Chip) (h : Nat) (t0 : TrainRun), Now s dt m ∧ h < 8 ∧ (m.head h).run = some t0) ∧
    (∃ (s : State) (dt : Nat) (m : Chip) (a : Auth) (v : Session) (h : Nat) (hash : Nat) (c : Nat × List Byte) (x : Chip),
      Now s dt m ∧ Admitted m [3] true false a v ∧ h < 8 ∧ (m.head h).cand = some c ∧ c.1 = hash ∧ m.stick.loaded = true ∧
      x = ((consumed a v m).acceptCmd a)) ∧
    (∃ (s : State) (dt : Nat) (m : Chip) (a : Auth) (v : Session) (h : Nat) (r : HeadRec) (x : Chip), Now s dt m ∧
      Admitted m [3] true false a v ∧ h < 8 ∧ m.headRec h = some r ∧ x = ((consumed a v m).acceptCmd a)) ∧
    (∃ (s : State) (dt : Nat) (m : Chip) (h : Nat) (b : Nat) (r : HeadRec) (ap : Approval), Now s dt m ∧ h < 8 ∧
      m.headRec h = some r ∧ (m.head h).due = some (b, ap) ∧ m.bays.running = true ∧ b ≤ m.bay + 1) ∧
    (∃ (s : State) (dt : Nat) (m : Chip) (h : Nat) (b : Nat) (r : HeadRec) (ap : Approval), Now s dt m ∧ h < 8 ∧
      m.headRec h = some r ∧ (m.head h).due = some (b, ap) ∧ m.bays.running = true ∧ b ≤ m.bay + 1 ∧ (m.head h).stored ≠ none) ∧
    (∃ (s : State) (dt : Nat) (m : Chip) (h : Nat) (b : Nat) (r : HeadRec) (ap : Approval), Now s dt m ∧ h < 8 ∧
      m.headRec h = some r ∧ (m.head h).due = some (b, ap) ∧ (m.bays.running = false ∨ m.bay + 1 < b)) ∧
    (∃ (s : State) (dt : Nat) (m : Chip) (a : Auth) (v : Session) (h : Nat) (c : Nat) (n : Nat) (er : ReadErrs) (text : List Byte) (r : HeadRec) (x : Chip) (q : Nat →
      Nat), Now s dt m ∧ Admitted m [3] false false a v ∧ h < 8 ∧ m.headRec h = some r ∧ (m.head h).run = none ∧ m.headKind h = 1 ∧
      m.flag (F.ADAPT_CFG_prompted h) = true ∧ c < m.dOut h ∧ text.length ≤ 1024 ∧ x = ((consumed a v m).acceptCmd a) ∧
      x.headKind h = 1 ∧ x.flag (F.ADAPT_CFG_prompted h) = true ∧ c < x.dOut h ∧ n = x.headWeights h r ∧
      q = servingWeight r n (x.readMem er (hbmAddr r.wAddr) (servingBytes r.fmt n))) :=
  ⟨(by refine ⟨st heads0, 0, heads0, auth, sess, 0, 0, 1000, _, {}, {}, head0, _, _, _, now (by decide +kernel),
    admitted (by decide +kernel), ?_, ?_, ?_, ?_, ?_, ?_, ?_, rfl, ?_, rfl, ?_, rfl, rfl⟩ <;> decide +kernel),
    (by refine ⟨st (heads0.setHead 0 { run := some run0 }), 0, heads0.setHead 0 { run := some run0 }, 0, 2, head0, run0, _,
      now (by decide +kernel), ?_, ?_, ?_, ?_, rfl, ?_⟩ <;> decide +kernel),
    (by refine ⟨st ((heads0.setHead 0 { run := some { run0 with frozen := some [sample0, { sample0 with id := 1 }, { sample0 with id := 2 }] }, master := [0] }).put (F.ADAPT_CFG_batch 0) 1),
      0,
      (heads0.setHead 0 { run := some { run0 with frozen := some [sample0, { sample0 with id := 1 }, { sample0 with id := 2 }] }, master := [0] }).put (F.ADAPT_CFG_batch 0) 1,
      0, 2, _, [], head0, { run0 with frozen := some [sample0, { sample0 with id := 1 }, { sample0 with id := 2 }] },
      { run0 with frozen := some [sample0, { sample0 with id := 1 }, { sample0 with id := 2 }] }, _, [0], _, _, _,
      now (by decide +kernel), ?_, ?_, ?_, ?_, ?_, rfl, rfl, ?_, ?_, ?_, rfl, ?_, rfl, ?_, ?_, rfl⟩ <;> decide +kernel),
    ⟨st (inBay.setHead 0 { due := some (40001, approval0) }), 0, inBay.setHead 0 { due := some (40001, approval0) }, 0,
      now (by decide +kernel), by decide +kernel⟩,
    ⟨st (heads0.setHead 0 { run := some run0 }), 0, heads0.setHead 0 { run := some run0 }, 0, run0, now (by decide +kernel),
      by decide +kernel, by decide +kernel⟩,
    (by refine ⟨st (live.setHead 7 { cand := some (9, []) }), 0, live.setHead 7 { cand := some (9, []) }, auth, sess, 7, 9, (9, []),
      _, now (by decide +kernel), admitted (by decide +kernel), ?_, ?_, ?_, ?_, rfl⟩ <;> decide +kernel),
    ⟨st live, 0, live, auth, sess, 0, head0, _, now (by decide +kernel), admitted (by decide +kernel), by decide +kernel,
      by decide +kernel, rfl⟩,
    (by refine ⟨st (inBay.setHead 0 { due := some (40001, approval0) }), 0, inBay.setHead 0 { due := some (40001, approval0) }, 0,
      40001, head0, approval0, now (by decide +kernel), ?_, ?_, ?_, ?_, ?_⟩ <;> decide +kernel),
    (by refine ⟨st (inBay.setHead 0 { due := some (40001, approval0), stored := some approval0 }), 0,
      inBay.setHead 0 { due := some (40001, approval0), stored := some approval0 }, 0, 40001, head0, approval0,
      now (by decide +kernel), ?_, ?_, ?_, ?_, ?_, ?_⟩ <;> decide +kernel),
    (by refine ⟨st (inBay.setHead 0 { due := some (40002, approval0) }), 0, inBay.setHead 0 { due := some (40002, approval0) }, 0,
      40002, head0, approval0, now (by decide +kernel), ?_, ?_, ?_, ?_⟩ <;> decide +kernel),
    (by refine ⟨st (heads0.put (F.ADAPT_CFG_prompted 0) 1), 0, heads0.put (F.ADAPT_CFG_prompted 0) 1, auth, sess, 0, 0, _, {}, [],
      head0, _, _, now (by decide +kernel), admitted (by decide +kernel), ?_, ?_, ?_, ?_, ?_, ?_, ?_, rfl, ?_, ?_, ?_, rfl,
      rfl⟩ <;> decide +kernel)⟩

theorem test_witness_QuestionsAreAnswered :
    (∃ (s : State) (dt : Nat) (m : Chip) (session : Nat) (j : Nat) (evidence : Nat) (maxNew : Nat) (temp : Nat) (topK : Nat) (text : List Byte) (x : Chip) (v : Session) (r : TextRec),
      Now s dt m ∧ j < Config.jobs ∧ x = m.touch session ∧ x.session session = some v ∧ v.level ≠ 0 ∧ x.textRec j = some r ∧
      maxNew ≠ 0 ∧ maxNew ≤ 4096 ∧ topK ≠ 0 ∧ topK ≤ 256 ∧ evidence ≤ 8 ∧ inRange temp ⟨0, 1⟩ ⟨2, 1⟩ = true ∧ text.length ≤ 65536 ∧
      utf8Valid text.length text = true ∧ (x.queriesOf j).length < 16 ∧
      (r.before ++ tokenise r.dict text.length text ++ r.after).length + evidence * r.evidence + maxNew ≤ r.capacity) ∧
    (∃ (s : State) (dt : Nat) (m : Chip) (session : Nat) (j : Nat) (evidence : Nat) (maxNew : Nat) (temp : Nat) (topK : Nat) (text : List Byte) (x : Chip) (v : Session) (r : TextRec),
      Now s dt m ∧ j < Config.jobs ∧ x = m.touch session ∧ x.session session = some v ∧ v.level ≠ 0 ∧ x.textRec j = some r ∧
      maxNew ≠ 0 ∧ maxNew ≤ 4096 ∧ topK ≠ 0 ∧ topK ≤ 256 ∧ evidence ≤ 8 ∧ inRange temp ⟨0, 1⟩ ⟨2, 1⟩ = true ∧ text.length ≤ 65536 ∧
      utf8Valid text.length text = false) ∧
    (∃ (s : State) (dt : Nat) (m : Chip) (session : Nat) (j : Nat) (evidence : Nat) (maxNew : Nat) (temp : Nat) (topK : Nat) (text : List Byte) (x : Chip) (v : Session) (r : TextRec),
      Now s dt m ∧ j < Config.jobs ∧ x = m.touch session ∧ x.session session = some v ∧ v.level ≠ 0 ∧ x.textRec j = some r ∧
      maxNew ≠ 0 ∧ maxNew ≤ 4096 ∧ topK ≠ 0 ∧ topK ≤ 256 ∧ evidence ≤ 8 ∧ inRange temp ⟨0, 1⟩ ⟨2, 1⟩ = true ∧ text.length ≤ 65536 ∧
      utf8Valid text.length text = true ∧ 16 ≤ (x.queriesOf j).length) ∧
    (∃ (s : State) (dt : Nat) (m : Chip) (session : Nat) (id : Nat) (x : Chip) (v : Session) (y : Nat × Query), Now s dt m ∧
      x = m.touch session ∧ x.session session = some v ∧ v.level ≠ 0 ∧ ((x.text.queries.find? fun z => z.2.id == id) = some y)) ∧
    (∃ (s : State) (dt : Nat) (m : Chip) (session : Nat) (id : Nat) (x : Chip) (v : Session), Now s dt m ∧ x = m.touch session ∧
      x.session session = some v ∧ v.level ≠ 0 ∧ ((x.text.queries.find? fun z => z.2.id == id) = none)) ∧
    (∃ (s : State) (dt : Nat) (m : Chip) (j : Nat) (r : TextRec) (q : Query) (l : List Query), Now s dt m ∧ j < Config.jobs ∧
      m.textRec j = some r ∧ m.queriesOf j = q :: l ∧ (m.jobRun j).applied = true) ∧
    (∃ (s : State) (dt : Nat) (m : Chip) (j : Nat) (id : Nat) (logits : List Nat) (r : TextRec) (q : Query) (q1 : Query) (l : List Query) (x : Chip),
      Now s dt m ∧ j < Config.jobs ∧ m.textRec j = some r ∧ m.queriesOf j = q :: l ∧ (m.jobRun j).applied = true ∧
      id = chooseToken q logits ∧
      q1 = { q with tokens := q.tokens ++ [id], bytes := q.bytes ++ (if (r.dict.getD id ([], true)).2 then [] else (r.dict.getD id ([], true)).1) } ∧
      (x = (m.onText fun t => { t with queries := t.queries.map fun y => if y.1 = j ∧ y.2.id = q.id then (j, q1) else y }).stepDone j) ∧
      r.ends.contains id = true) ∧
    (∃ (s : State) (dt : Nat) (m : Chip) (j : Nat) (id : Nat) (logits : List Nat) (r : TextRec) (q : Query) (q1 : Query) (l : List Query) (x : Chip),
      Now s dt m ∧ j < Config.jobs ∧ m.textRec j = some r ∧ m.queriesOf j = q :: l ∧ (m.jobRun j).applied = true ∧
      id = chooseToken q logits ∧
      q1 = { q with tokens := q.tokens ++ [id], bytes := q.bytes ++ (if (r.dict.getD id ([], true)).2 then [] else (r.dict.getD id ([], true)).1) } ∧
      (x = (m.onText fun t => { t with queries := t.queries.map fun y => if y.1 = j ∧ y.2.id = q.id then (j, q1) else y }).stepDone j) ∧
      r.ends.contains id = false ∧ q1.maxNew ≤ q1.tokens.length) ∧
    (∃ (s : State) (dt : Nat) (m : Chip) (j : Nat) (id : Nat) (logits : List Nat) (r : TextRec) (q : Query) (q1 : Query) (l : List Query) (x : Chip),
      Now s dt m ∧ j < Config.jobs ∧ m.textRec j = some r ∧ m.queriesOf j = q :: l ∧ (m.jobRun j).applied = true ∧
      id = chooseToken q logits ∧
      q1 = { q with tokens := q.tokens ++ [id], bytes := q.bytes ++ (if (r.dict.getD id ([], true)).2 then [] else (r.dict.getD id ([], true)).1) } ∧
      (x = (m.onText fun t => { t with queries := t.queries.map fun y => if y.1 = j ∧ y.2.id = q.id then (j, q1) else y }).stepDone j) ∧
      r.ends.contains id = false ∧ q1.tokens.length < q1.maxNew ∧ (utf8Release q1.bytes.length q1.bytes).1 ≠ []) ∧
    (∃ (s : State) (dt : Nat) (m : Chip) (j : Nat) (id : Nat) (logits : List Nat) (r : TextRec) (q : Query) (q1 : Query) (l : List Query) (x : Chip),
      Now s dt m ∧ j < Config.jobs ∧ m.textRec j = some r ∧ m.queriesOf j = q :: l ∧ (m.jobRun j).applied = true ∧
      id = chooseToken q logits ∧
      q1 = { q with tokens := q.tokens ++ [id], bytes := q.bytes ++ (if (r.dict.getD id ([], true)).2 then [] else (r.dict.getD id ([], true)).1) } ∧
      (x = (m.onText fun t => { t with queries := t.queries.map fun y => if y.1 = j ∧ y.2.id = q.id then (j, q1) else y }).stepDone j) ∧
      r.ends.contains id = false ∧ q1.tokens.length < q1.maxNew ∧ (utf8Release q1.bytes.length q1.bytes).1 = []) :=
  ⟨(by refine ⟨st ({ live with stick := { stick0 with texts := [{ text0 with capacity := 999 }] } }), 0,
    { live with stick := { stick0 with texts := [{ text0 with capacity := 999 }] } }, 0, 3, 0, 997, 0x40000000, 256, [65, 66], _,
    { sess with lastAt := 10000000000 }, { text0 with capacity := 999 }, now (by decide +kernel), ?_, rfl, ?_, ?_, ?_, ?_, ?_, ?_,
    ?_, ?_, ?_, ?_, ?_, ?_, ?_⟩ <;> decide +kernel),
    (by refine ⟨st live, 0, live, 0, 3, 0, 512, 0, 40, [0x80], _, { sess with lastAt := 10000000000 }, text0,
      now (by decide +kernel), ?_, rfl, ?_, ?_, ?_, ?_, ?_, ?_, ?_, ?_, ?_, ?_, ?_⟩ <;> decide +kernel),
    (by refine ⟨st ({ live with text := { queries := List.replicate 16 (3, query0) } }), 0,
      { live with text := { queries := List.replicate 16 (3, query0) } }, 0, 3, 0, 512, 0, 40, [], _,
      { sess with lastAt := 10000000000 }, text0, now (by decide +kernel), ?_, rfl, ?_, ?_, ?_, ?_, ?_, ?_, ?_, ?_, ?_, ?_, ?_,
      ?_⟩ <;> decide +kernel),
    (by refine ⟨st ({ live with text := { queries := [(3, query0)] } }), 0, { live with text := { queries := [(3, query0)] } }, 0,
      0, _, { sess with lastAt := 10000000000 }, (3, query0), now (by decide +kernel), rfl, ?_, ?_, ?_⟩ <;> decide +kernel),
    (by refine ⟨st ({ live with stick := { stick0 with texts := [{ text0 with capacity := 999 }] } }), 0,
      { live with stick := { stick0 with texts := [{ text0 with capacity := 999 }] } }, 0, 0, _,
      { sess with lastAt := 10000000000 }, now (by decide +kernel), rfl, ?_, ?_, ?_⟩ <;> decide +kernel),
    (by refine ⟨st ({ inBay with text := { queries := [(3, query0)] } }), 0, { inBay with text := { queries := [(3, query0)] } }, 3,
      text0, query0, [], now (by decide +kernel), ?_, ?_, ?_, ?_⟩ <;> decide +kernel),
    (by refine ⟨st ({ inBay with text := { queries := [(3, query0)] } }), 0, { inBay with text := { queries := [(3, query0)] } }, 3,
      _, [0, 0, 0x3F800000], text0, query0, _, [], _, now (by decide +kernel), ?_, ?_, ?_, ?_, rfl, rfl, rfl,
      ?_⟩ <;> decide +kernel),
    (by refine ⟨st ({ inBay with text := { queries := [(3, { query0 with maxNew := 1 })] } }), 0,
      { inBay with text := { queries := [(3, { query0 with maxNew := 1 })] } }, 3, _, [0, 0x3F800000, 0], text0,
      { query0 with maxNew := 1 }, _, [], _, now (by decide +kernel), ?_, ?_, ?_, ?_, rfl, rfl, rfl, ?_, ?_⟩ <;> decide +kernel),
    (by refine ⟨st ({ inBay with text := { queries := [(3, query0)] } }), 0, { inBay with text := { queries := [(3, query0)] } }, 3,
      _, [], text0, query0, _, [], _, now (by decide +kernel), ?_, ?_, ?_, ?_, rfl, rfl, rfl, ?_, ?_, ?_⟩ <;> decide +kernel),
    (by refine ⟨st ({ inBay with stick := { stick0 with texts := [{ text0 with dict := [([0xC3], false)] }] }, text := { queries := [(3, query0)] } }),
      0,
      { inBay with stick := { stick0 with texts := [{ text0 with dict := [([0xC3], false)] }] }, text := { queries := [(3, query0)] } },
      3, _, [0], { text0 with dict := [([0xC3], false)] }, query0, _, [], _, now (by decide +kernel), ?_, ?_, ?_, ?_, rfl, rfl, rfl,
      ?_, ?_, ?_⟩ <;> decide +kernel)⟩

theorem test_witness_FansFollowTheirTimers :
    (∃ (s : State) (dt : Nat) (m : Chip) (x : Chip), Now s dt m ∧ (x = m.onHk fun h => { h with hottest := h.hottest }) ∧
      m.validTemps 0 8 = [] ∧ m.validTemps 8 16 = []) ∧
    (∃ (s : State) (dt : Nat) (m : Chip) (t : Int) (x : Chip), Now s dt m ∧ x = m.sensorRead 0 t ∧ x.validTemps 0 8 = [t] ∧
      x.validTemps 8 16 = []) ∧
    (∃ (s : State) (dt : Nat) (m : Chip) (sill : List Int) (ridge : List Int) (x : Chip), Now s dt m ∧
      (x = forAll (ridge.take 16).zipIdx (fun p m => m.sensorRead (8 + p.2) p.1) (forAll (sill.take 8).zipIdx (fun p m => m.sensorRead p.2 p.1) m))) ∧
    (∃ (s : State) (dt : Nat) (m : Chip), Now s dt m ∧ m.hk.samples + 1 < 10) ∧
    (∃ (s : State) (dt : Nat) (m : Chip), Now s dt m) ∧
    (∃ (s : State) (dt : Nat) (m : Chip) (f : Nat), Now s dt m ∧ f < 4 ∧ m.fanState f = 1 ∧
      (m.fan f).startAt + 2000000000 ≤ m.now) ∧
    (∃ (s : State) (dt : Nat) (m : Chip) (f : Nat), Now s dt m ∧ f < 4 ∧ m.fanState f = 1 ∧
      m.now < (m.fan f).startAt + 2000000000) ∧
    (∃ (s : State) (dt : Nat) (m : Chip) (f : Nat), Now s dt m ∧ f < 4 ∧ m.fanState f = 1 ∧
      (m.fan f).startAt + 4000000000 ≤ m.now) ∧
    (∃ (s : State) (dt : Nat) (m : Chip) (f : Nat), Now s dt m ∧ f < 4 ∧ m.fanState f = 2) ∧
    (∃ (s : State) (dt : Nat) (m : Chip) (f : Nat), Now s dt m ∧ f < 4 ∧ (m.fanState f = 3 ∨ m.fanState f = 4) ∧
      (m.fan f).offAt + 10000000000 ≤ m.now) ∧
    (∃ (s : State) (dt : Nat) (m : Chip) (f : Nat), Now s dt m ∧ f < 4 ∧ (m.fanState f = 3 ∨ m.fanState f = 4) ∧
      (m.fan f).offAt + 10000000000 ≤ m.now ∧ 0 < m.now) ∧
    (∃ (s : State) (dt : Nat) (m : Chip) (f : Nat), Now s dt m ∧ f < 4 ∧ m.fanState f = 2 ∧ 0 < m.now) ∧
    (∃ (s : State) (dt : Nat) (m : Chip) (f : Nat), Now s dt m ∧ f < 4 ∧ m.fanState f ≠ 2) ∧
    (∃ (s : State) (dt : Nat) (m : Chip) (f : Nat), Now s dt m ∧ f < 4 ∧ m.fanState f = 5) ∧
    (∃ (s : State) (dt : Nat) (m : Chip) (f : Nat), Now s dt m ∧ f < 4 ∧ m.fanState f = 5 ∧ 0 < m.now) ∧
    (∃ (s : State) (dt : Nat) (m : Chip) (f : Nat), Now s dt m ∧ f < 4 ∧ m.fanState f ≠ 5) :=
  ⟨⟨st live, 0, live, _, now (by decide +kernel), rfl, by decide +kernel, by decide +kernel⟩,
    ⟨st live, 0, live, 0, _, now (by decide +kernel), rfl, by decide +kernel, by decide +kernel⟩,
    ⟨st live, 0, live, [20], [30], _, now (by decide +kernel), rfl⟩,
    ⟨st (live.put (F.HK_FAN_state 3) 1), 0, live.put (F.HK_FAN_state 3) 1, now (by decide +kernel), by decide +kernel⟩,
    ⟨st ({ live with time := {} }.put (F.HK_FAN_state 3) 1), 0, { live with time := {} }.put (F.HK_FAN_state 3) 1,
      now (by decide +kernel)⟩,
    (by refine ⟨st (live.put (F.HK_FAN_state 3) 1), 0, live.put (F.HK_FAN_state 3) 1, 3, now (by decide +kernel), ?_, ?_,
      ?_⟩ <;> decide +kernel),
    (by refine ⟨st ({ live with time := {} }.put (F.HK_FAN_state 3) 1), 0, { live with time := {} }.put (F.HK_FAN_state 3) 1, 3,
      now (by decide +kernel), ?_, ?_, ?_⟩ <;> decide +kernel),
    (by refine ⟨st (live.put (F.HK_FAN_state 3) 1), 0, live.put (F.HK_FAN_state 3) 1, 3, now (by decide +kernel), ?_, ?_,
      ?_⟩ <;> decide +kernel),
    ⟨st (live.put (F.HK_FAN_state 3) 2), 0, live.put (F.HK_FAN_state 3) 2, 3, now (by decide +kernel), by decide +kernel,
      by decide +kernel⟩,
    (by refine ⟨st (live.put (F.HK_FAN_state 3) 4), 0, live.put (F.HK_FAN_state 3) 4, 3, now (by decide +kernel), ?_, ?_,
      ?_⟩ <;> decide +kernel),
    (by refine ⟨st (live.put (F.HK_FAN_state 3) 4), 0, live.put (F.HK_FAN_state 3) 4, 3, now (by decide +kernel), ?_, ?_, ?_,
      ?_⟩ <;> decide +kernel),
    (by refine ⟨st (live.put (F.HK_FAN_state 3) 2), 0, live.put (F.HK_FAN_state 3) 2, 3, now (by decide +kernel), ?_, ?_,
      ?_⟩ <;> decide +kernel),
    ⟨st live, 0, live, 3, now (by decide +kernel), by decide +kernel, by decide +kernel⟩,
    ⟨st (live.put (F.HK_FAN_state 3) 5), 0, live.put (F.HK_FAN_state 3) 5, 3, now (by decide +kernel), by decide +kernel,
      by decide +kernel⟩,
    (by refine ⟨st (live.put (F.HK_FAN_state 3) 5), 0, live.put (F.HK_FAN_state 3) 5, 3, now (by decide +kernel), ?_, ?_,
      ?_⟩ <;> decide +kernel),
    ⟨st live, 0, live, 3, now (by decide +kernel), by decide +kernel, by decide +kernel⟩⟩

theorem test_witness_I2cBusesRecover :
    (∃ (s : State) (dt : Nat) (m : Chip) (c : Nat) (dev : Nat), Now s dt m ∧ c < 2 ∧ dev < 128 ∧
      m.flag (F.HK_I2C_disabled c) = true) ∧
    (∃ (s : State) (dt : Nat) (m : Chip) (c : Nat) (dev : Nat) (ok : Bool) (x : Chip), Now s dt m ∧ c < 2 ∧ dev < 128 ∧
      m.flag (F.HK_I2C_disabled c) = false ∧ (m.bus c).queue = [] ∧ (m.bus c).cur = none ∧
      x = m.setBus c { m.bus c with queue := [{ dev, write := false, ends := some ok }] }) ∧
    (∃ (s : State) (dt : Nat) (m : Chip) (c : Nat) (dev : Nat) (w : Bool) (k : I2cJob), Now s dt m ∧ c < 2 ∧ dev < 128 ∧
      ((w && m.stick.pmbus.any fun d => d.bus == c && d.addr == dev) = false) ∧ m.flag (F.HK_I2C_disabled c) = false ∧
      (m.bus c).cur = some k) ∧
    (∃ (s : State) (dt : Nat) (m : Chip) (c : Nat) (dev : Nat), Now s dt m ∧ c < 2 ∧ dev < 128 ∧
      ((m.stick.pmbus.any fun d => d.bus == c && d.addr == dev) = true)) ∧
    (∃ (s : State) (dt : Nat) (m : Chip) (a : Auth) (v : Session) (c : Nat) (dev : Nat), Now s dt m ∧
      Admitted m [3] false false a v ∧ c < 2 ∧ dev < 128) ∧
    (∃ (s : State) (dt : Nat) (m : Chip) (c : Nat) (j : I2cJob), Now s dt m ∧ c < 2 ∧ (m.bus c).cur = some j ∧
      (m.bus c).since + 35000000 ≤ m.now) ∧
    (∃ (s : State) (dt : Nat) (m : Chip) (c : Nat) (j : I2cJob), Now s dt m ∧ c < 2 ∧ (m.bus c).cur = some j ∧
      (m.bus c).since + 35000000 ≤ m.now ∧ (m.bus c).queue = [] ∧ 0 < (m.bus c).since) ∧
    (∃ (s : State) (dt : Nat) (m : Chip) (c : Nat), Now s dt m ∧ c < 2 ∧ (m.bus c).cur = none) ∧
    (∃ (s : State) (dt : Nat) (m : Chip) (c : Nat), Now s dt m ∧ c < 2 ∧ (m.bus c).cur = none ∧
      m.flag (F.HK_I2C_disabled c) = false) ∧
    (∃ (s : State) (dt : Nat) (m : Chip) (c : Nat) (low : Bool) (x : Chip), Now s dt m ∧ c < 2 ∧ (m.bus c).cur = none ∧
      m.flag (F.HK_I2C_disabled c) = false ∧
      x = (((m.bumpBy R.HK_CNT_I2C_RECOVER (if low then 0 else 3)).setFlag (stuckFlag c)).put (F.HK_I2C_disabled c) 1).put (F.HK_I2C_state c) 3) ∧
    (∃ (s : State) (dt : Nat) (m : Chip) (c : Nat) (x : Chip), Now s dt m ∧ c < 2 ∧ m.flag (F.HK_I2C_disabled c) = true ∧
      (m.bus c).retryAt ≤ m.now ∧
      x = (((m.bumpBy R.HK_CNT_I2C_RECOVER 3).setFlag (stuckFlag c)).put (F.HK_I2C_disabled c) 1).put (F.HK_I2C_state c) 3) ∧
    (∃ (s : State) (dt : Nat) (m : Chip) (c : Nat), Now s dt m ∧ c < 2 ∧ (m.flag (F.HK_I2C_disabled c) = false ∨
      m.now < (m.bus c).retryAt)) ∧
    (∃ (s : State) (dt : Nat) (m : Chip), Now s dt m ∧ m.stick.pmbus = []) ∧
    (∃ (s : State) (dt : Nat) (m : Chip) (d : PmbDev) (k : Nat), Now s dt m ∧ m.stick.pmbus = [d] ∧ d.cmds = [k] ∧
      m.flag (F.HK_I2C_disabled d.bus) = false) ∧
    (∃ (s : State) (dt : Nat) (m : Chip) (d : PmbDev) (k : Nat) (w : Nat), Now s dt m ∧ m.stick.pmbus = [d] ∧ d.cmds = [k] ∧
      m.flag (F.HK_I2C_disabled d.bus) = false ∧ w % 65536 ≠ 0) :=
  ⟨(by refine ⟨st (live.put (F.HK_I2C_disabled 1) 1), 0, live.put (F.HK_I2C_disabled 1) 1, 1, 127, now (by decide +kernel), ?_, ?_,
    ?_⟩ <;> decide +kernel),
    (by refine ⟨st ({ live with stick := { stick0 with pmbus := [⟨1, 127, [0]⟩] } }), 0,
      { live with stick := { stick0 with pmbus := [⟨1, 127, [0]⟩] } }, 1, 127, false, _, now (by decide +kernel), ?_, ?_, ?_, ?_,
      ?_, rfl⟩ <;> decide +kernel),
    (by refine ⟨st ({ live with hk := { buses := tabSet {} [] 1 { cur := some ⟨127, false, none⟩ } } }), 0,
      { live with hk := { buses := tabSet {} [] 1 { cur := some ⟨127, false, none⟩ } } }, 1, 127, false, ⟨127, false, none⟩,
      now (by decide +kernel), ?_, ?_, ?_, ?_, ?_⟩ <;> decide +kernel),
    (by refine ⟨st ({ live with stick := { stick0 with pmbus := [⟨1, 127, [0]⟩] } }), 0,
      { live with stick := { stick0 with pmbus := [⟨1, 127, [0]⟩] } }, 1, 127, now (by decide +kernel), ?_, ?_,
      ?_⟩ <;> decide +kernel),
    ⟨st live, 0, live, auth, sess, 1, 127, now (by decide +kernel), admitted (by decide +kernel), by decide +kernel,
      by decide +kernel⟩,
    (by refine ⟨st ({ live with hk := { buses := tabSet {} [] 1 { cur := some ⟨127, false, none⟩ } } }), 0,
      { live with hk := { buses := tabSet {} [] 1 { cur := some ⟨127, false, none⟩ } } }, 1, ⟨127, false, none⟩,
      now (by decide +kernel), ?_, ?_, ?_⟩ <;> decide +kernel),
    (by refine ⟨st ({ live with hk := { buses := tabSet {} [] 1 { cur := some ⟨127, false, none⟩, since := 1 } } }), 0,
      { live with hk := { buses := tabSet {} [] 1 { cur := some ⟨127, false, none⟩, since := 1 } } }, 1, ⟨127, false, none⟩,
      now (by decide +kernel), ?_, ?_, ?_, ?_, ?_⟩ <;> decide +kernel),
    ⟨st (live.put (F.HK_I2C_disabled 1) 1), 0, live.put (F.HK_I2C_disabled 1) 1, 1, now (by decide +kernel), by decide +kernel,
      by decide +kernel⟩,
    (by refine ⟨st live, 0, live, 1, now (by decide +kernel), ?_, ?_, ?_⟩ <;> decide +kernel),
    (by refine ⟨st ({ live with stick := { stick0 with pmbus := [⟨1, 127, [5]⟩] } }), 0,
      { live with stick := { stick0 with pmbus := [⟨1, 127, [5]⟩] } }, 1, false, _, now (by decide +kernel), ?_, ?_, ?_,
      rfl⟩ <;> decide +kernel),
    (by refine ⟨st (live.put (F.HK_I2C_disabled 1) 1), 0, live.put (F.HK_I2C_disabled 1) 1, 1, _, now (by decide +kernel), ?_, ?_,
      ?_, rfl⟩ <;> decide +kernel),
    ⟨st live, 0, live, 1, now (by decide +kernel), by decide +kernel, by decide +kernel⟩,
    ⟨st live, 0, live, now (by decide +kernel), by decide +kernel⟩,
    (by refine ⟨st ({ live with stick := { stick0 with pmbus := [⟨1, 127, [5]⟩] } }), 0,
      { live with stick := { stick0 with pmbus := [⟨1, 127, [5]⟩] } }, ⟨1, 127, [5]⟩, 5, now (by decide +kernel), ?_, ?_,
      ?_⟩ <;> decide +kernel),
    (by refine ⟨st ({ live with stick := { stick0 with pmbus := [⟨1, 127, [5]⟩] } }), 0,
      { live with stick := { stick0 with pmbus := [⟨1, 127, [5]⟩] } }, ⟨1, 127, [5]⟩, 5, 1, now (by decide +kernel), ?_, ?_, ?_,
      ?_⟩ <;> decide +kernel)⟩

theorem test_witness_ADisableOfAConsumedJobIsRefused :
    ∃ (s : State) (dt : Nat) (m : Chip) (j : Nat) (v : Nat) (d : Nat × Nat), Now s dt m ∧ Canon m ∧ j < Config.jobs ∧ v < 2 ^ 32 ∧
      m.flag (F.RC_JOB_CTRL_enable j) = true ∧ bitN v 0 = false ∧ d ∈ m.stick.deps ∧ d.2 = j :=
  by refine ⟨st ((live.put (F.RC_JOB_CTRL_enable 0) 1).put (F.RC_JOB_CTRL_enable 1) 1), 0,
    (live.put (F.RC_JOB_CTRL_enable 0) 1).put (F.RC_JOB_CTRL_enable 1) 1, 0, 0, (1, 0), now (by decide +kernel),
    canon (by decide +kernel), ?_, ?_, ?_, ?_, ?_, ?_⟩ <;> decide +kernel

end Sys2Proof.Machine
end

section
/-!
PROOFS of the family 00_scope: what holds of every command and of every step, the memory, plain register writes, the rounding, and the
commands that read and write registers.
-/
namespace Sys2Proof.Proofs
open Sys2Proof.Machine Sys2Proof.Laws

/-! ### Every step and every command -/

/-- Settles O49: the canonical form is one of the properties that the primitive changes keep, and so every step keeps it. -/
theorem everyStepKeepsTheTablesCanonical : Obligations.EveryStepKeepsTheTablesCanonical :=
  fun s t h ht => step_keeps keep_canon s t h ht

/-- A command that names a unit the part does not have is the fault noSuchUnit (log entry 5). -/
theorem exec_fault_of_not_wf (i : Instr) (s : State) (h : i.wf = false) : exec i s = .fault .noSuchUnit := by
  obtain ⟨-, dt, eff, he⟩ | ⟨-, eff, he⟩ := exec_form i
  · rw [he, h]; rfl
  · rw [he, h]; rfl

/-- Settles O51, by the one form that every meaning has (`exec_form`). -/
theorem commandsCompleteExactlyWhenWellFormed : Obligations.CommandsCompleteExactlyWhenWellFormed :=
  fun i s => ⟨exec_completes i s, exec_fault_of_not_wf i s, exec_not_refused i s, exec_pending i s⟩

/-! ### Rounding -/

/-- Settles O60: the quotient is within half of the rounded one, and on a tie the even neighbour is taken. -/
theorem roundingIsToTheNearestEven : Obligations.RoundingIsToTheNearestEven :=
  ⟨rneDiv_nearest, signedOf_unsignedOf⟩

/-! ### Memory (R238, R246, R247) -/

/-- The byte lies in a granule of bent SRAM whose code is uncorrectable, and so is delivered as zero (R246). -/
def lost (m : Chip) (g : Nat) : Bool := isBent g && m.sramBad.contains (g / 16)

/-- The table of memory that a write of the byte at `g` begins with: the bytes of a lost granule are gone from it. -/
def keptMem (m : Chip) (g : Nat) : Tab Byte := if lost m g then m.mem.filter fun p => p.1 / 16 != g / 16 else m.mem

theorem byteAt_eq (m : Chip) (g : Nat) : m.byteAt g = if lost m g then 0 else tabGet 0 m.mem g := rfl

theorem putByte_mem (m : Chip) (g : Nat) (b : Byte) : (m.putByte g b).mem = tabSet 0 (keptMem m g) g b := by
  unfold Chip.putByte
  dsimp only
  split <;> rfl

theorem putByte_sramBad (m : Chip) (g : Nat) (b : Byte) :
    (m.putByte g b).sramBad = if isBent g then m.sramBad.filter fun x => x != g / 16 else m.sramBad := by
  unfold Chip.putByte
  dsimp only
  split <;> rfl

theorem keptMem_wf (m : Chip) (g : Nat) (h : Memory.wf m.mem = true) : Memory.wf (keptMem m g) = true := by
  unfold keptMem
  split
  · exact tabWf_filter 0 _ _ h
  · exact h

theorem tabGet_keptMem (m : Chip) (g x : Nat) (h : Memory.wf m.mem = true) :
    tabGet 0 (keptMem m g) x = if lost m g && x / 16 == g / 16 then 0 else tabGet 0 m.mem x := by
  unfold keptMem
  cases lost m g with
  | true =>
    rw [if_pos rfl, tabGet_filter 0 (fun k => k / 16 != g / 16) _ _ h]
    by_cases hx : x / 16 = g / 16 <;> simp [hx]
  | false => rfl

/-- Bytes of one granule lie in bent SRAM together. -/
theorem isBent_of_granule {x g : Nat} (h : x / 16 = g / 16) : isBent x = isBent g := by
  unfold isBent
  rw [decide_eq_decide]
  omega

/-- Bytes of one granule are lost together. -/
theorem lost_of_granule (m : Chip) {x g : Nat} (h : x / 16 = g / 16) : lost m x = lost m g := by
  rw [lost, lost, isBent_of_granule h, h]

/-- A written byte makes its granule good and leaves every other granule as it was. -/
theorem lost_putByte (m : Chip) (g : Nat) (b : Byte) (x : Nat) : lost (m.putByte g b) x = (lost m x && x / 16 != g / 16) := by
  unfold lost
  rw [putByte_sramBad]
  by_cases hx : x / 16 = g / 16
  · rw [isBent_of_granule hx]
    cases isBent g <;> simp [hx]
  · split <;> simp [hx]

/-- A write of a byte: its own address reads as the byte, every other as before. The others of a lost granule were delivered as zero
before the write and stand as zero after it. -/
theorem byteAt_putByte (m : Chip) (g : Nat) (b : Byte) (x : Nat) (h : Memory.wf m.mem = true) :
    (m.putByte g b).byteAt x = if x = g then b else m.byteAt x := by
  rw [byteAt_eq, lost_putByte, putByte_mem]
  by_cases hg : x = g
  · subst hg
    rw [tabGet_set_same 0 _ _ _ (keptMem_wf m x h)]
    simp
  · rw [tabGet_set_other 0 _ _ _ _ (keptMem_wf m g h) hg, tabGet_keptMem _ _ _ h, byteAt_eq, if_neg hg]
    by_cases hx : x / 16 = g / 16
    · rw [lost_of_granule m hx]
      simp [hx]
    · simp [hx]

theorem canon_putBytes (m : Chip) (g : Nat) (l : List Byte) (h : Canon m) : Canon (m.putBytes g l) :=
  keep_Chip_putBytes keep_canon m g l h

/-- A write leaves every byte outside its range as it reads. -/
theorem byteAt_putBytes_outside (l : List Byte) (m : Chip) (g x : Nat) (h : Canon m) (hx : x < g ∨ g + l.length ≤ x) :
    (m.putBytes g l).byteAt x = m.byteAt x := by
  induction l generalizing m g with
  | nil => rfl
  | cons b t ih =>
    rw [List.length_cons] at hx
    calc ((m.putByte g b).putBytes (g + 1) t).byteAt x
        = (m.putByte g b).byteAt x := ih _ _ (keep_canon.byte m g b h) (by omega)
      _ = m.byteAt x := by rw [byteAt_putByte _ _ _ _ h.2.1, if_neg (by omega)]

/-- The bytes from an address on are the one there and those from the next on. -/
theorem bytesAt_succ (m : Chip) (g n : Nat) : m.bytesAt g (n + 1) = m.byteAt g :: m.bytesAt (g + 1) n := by
  simp [Chip.bytesAt, upTo, List.range_succ_eq_map, Nat.add_assoc, Nat.add_comm 1]

/-- Bytes written are read back in order. -/
theorem bytesAt_putBytes (l : List Byte) (m : Chip) (g : Nat) (h : Canon m) : (m.putBytes g l).bytesAt g l.length = l := by
  induction l generalizing m g with
  | nil => rfl
  | cons b t ih =>
    have hc : Canon (m.putByte g b) := keep_canon.byte m g b h
    rw [List.length_cons, bytesAt_succ]
    congr 1
    · calc ((m.putByte g b).putBytes (g + 1) t).byteAt g
          = (m.putByte g b).byteAt g := byteAt_putBytes_outside t _ _ _ hc (by omega)
        _ = b := by rw [byteAt_putByte _ _ _ _ h.2.1, if_pos rfl]
    · exact ih _ _ hc

theorem leBytes_length (n v : Nat) : (leBytes n v).length = n := by
  induction n generalizing v with
  | zero => rfl
  | succ n ih => rw [leBytes, List.length_cons, ih]

/-- The bytes of a number spell it, cut to their width. -/
theorem ofLeBytes_leBytes (n v : Nat) : ofLeBytes (leBytes n v) = v % 256 ^ n := by
  induction n generalizing v with
  | zero => exact (Nat.mod_one v).symm
  | succ n ih => exact ofLeBytes_leBytes_succ n ih v

/-- A number written is read back, cut to its bytes. -/
theorem numAt_putBytes_leBytes (m : Chip) (g n v : Nat) (h : Canon m) : (m.putBytes g (leBytes n v)).numAt g n = v % 256 ^ n := by
  have hb := bytesAt_putBytes (leBytes n v) m g h
  rw [leBytes_length] at hb
  rw [Chip.numAt, hb, ofLeBytes_leBytes]

/-- Settles O55, by induction on the bytes written (`bytesAt_putBytes`, `byteAt_putBytes_outside`) over the rule for one byte
(`byteAt_putByte`). -/
theorem memoryHoldsWhatIsWritten : Obligations.MemoryHoldsWhatIsWritten :=
  fun m g l h => ⟨bytesAt_putBytes l m g h, canon_putBytes m g l h, fun n v => numAt_putBytes_leBytes m g n v h,
    fun x hx => byteAt_putBytes_outside l m g x h hx⟩

/-! ### Plain writes of registers (R12) -/

/-- The word that a plain write leaves in a mapped register: `put` is what it may put, `clr` what it clears. -/
def plainWord (r : RegRow) (old fresh : Word) (mask v : Nat) : Word :=
  let put := (r.rw ||| r.rws) &&& BitVec.ofNat 32 mask
  let clr := r.w1c &&& BitVec.ofNat 32 mask &&& BitVec.ofNat 32 v &&& ~~~fresh
  (old &&& ~~~put &&& ~~~clr) ||| (BitVec.ofNat 32 v &&& put)

/-- A plain write to a mapped register of a unit in use drops what a read has latched for it and writes its word. -/
theorem plainWrite_mapped {m : Chip} {a : Nat} {r : RegRow} (mask v : Nat) (hu : m.unitUsed a = true) (hr : regRowAt a = some r) :
    m.plainWrite a mask v = (m.latch a none).wr a (plainWord r (m.rd a) (tabGet 0 m.fresh a) mask v) := by
  simp only [Chip.plainWrite, hu, hr]
  rfl

/-- A plain write to an address that the map does not hold changes nothing. -/
theorem plainWrite_unmapped {m : Chip} {a : Nat} (mask v : Nat) (hr : regRowAt a = none) : m.plainWrite a mask v = m := by
  simp only [Chip.plainWrite, hr, ite_self]

/-- A plain write to a unit that is not in use changes nothing (R497). -/
theorem plainWrite_unused {m : Chip} {a : Nat} (mask v : Nat) (hu : m.unitUsed a = false) : m.plainWrite a mask v = m := by
  simp only [Chip.plainWrite, hu, Bool.not_false, if_true]

/-- A bit of the word by its access code: a bit that is put takes the bit written, one that is cleared is 0, any other stays. -/
theorem plainWord_getLsbD (r : RegRow) (old fresh : Word) (mask v i : Nat) (hi : i < 32) :
    (plainWord r old fresh mask v).getLsbD i =
      if (r.rw.getLsbD i || r.rws.getLsbD i) && mask.testBit i then v.testBit i
      else if r.w1c.getLsbD i && mask.testBit i && v.testBit i && !fresh.getLsbD i then false else old.getLsbD i := by
  simp only [plainWord, BitVec.getLsbD_or, BitVec.getLsbD_and, BitVec.getLsbD_not, BitVec.getLsbD_ofNat, hi, decide_true, Bool.true_and]
  cases hp : (r.rw.getLsbD i || r.rws.getLsbD i) && mask.testBit i with
  | true => simp
  | false =>
    cases r.w1c.getLsbD i && mask.testBit i && v.testBit i && !fresh.getLsbD i <;> simp

/-- A plain write leaves every other register alone. -/
theorem rd_plainWrite_other (m : Chip) (a mask v x : Nat) (h : Canon m) (hx : x ≠ a) : (m.plainWrite a mask v).rd x = m.rd x := by
  cases hu : m.unitUsed a with
  | false => rw [plainWrite_unused mask v hu]
  | true =>
    cases hr : regRowAt a with
    | none => rw [plainWrite_unmapped mask v hr]
    | some r =>
      rw [plainWrite_mapped mask v hu hr]
      exact rd_wr_other (m.latch a none) _ _ _ h.1 hx

/-- Settles O56, bit by bit of the word written (`plainWord_getLsbD`). -/
theorem plainWritesFollowTheAccessCodes : Obligations.PlainWritesFollowTheAccessCodes := by
  intro m a mask v h
  refine ⟨fun r hu hr i hi => ?_, fun x hx => rd_plainWrite_other m a mask v x h hx, plainWrite_unmapped mask v⟩
  rw [plainWrite_mapped mask v hu hr, rd_wr_same (m.latch a none) _ _ h.1]
  exact plainWord_getLsbD r _ _ mask v i hi

/-! ### The commands that read and write registers (R11, R12, R292, R569, R570) -/

/-- An answer that no earlier message of a session holds back is sent at once. -/
theorem answer_of_no_waits {m : Chip} (id : Nat) {what : String} (args : List Nat) (hw : m.tenon.waits = []) :
    m.answer id what args = m.emit (.send "service" id what args) := by
  simp only [Chip.answer, Chip.reply, hw, List.any_nil, Bool.false_eq_true, if_false, ite_self]

/-- Words of the Sill alone make no request of the Ridge. -/
theorem ridge_none {as_ : List Nat} (h : (as_.all fun x => !onRidge x) = true) : (as_.zipIdx.filter fun x => onRidge x.1) = [] := by
  rw [List.filter_eq_nil_iff]
  intro x hx
  have := List.all_eq_true.1 h x.1 (List.fst_mem_of_mem_zipIdx hx)
  simpa using this

section
variable {m0 : Chip} {dt id a count mask w : Nat} {v : Session} (hs : ((elapse dt m0).touch id).session id = some v)
include hs

theorem readMessage_sill (ha : a % 4 = 0) (h1 : 1 ≤ count) (h2 : count ≤ 256)
    (hall : (((upTo count).map fun i => a + 4 * i).all fun x => !onRidge x) = true) :
    readMessage dt id a count m0 =
      (((elapse dt m0).touch id).readWords ((upTo count).map fun i => a + 4 * i)).2.answer id "words"
        ((((elapse dt m0).touch id).readWords ((upTo count).map fun i => a + 4 * i)).1.map fun x => x.getD 0) := by
  have hb : ¬ (a % 4 ≠ 0 ∨ count = 0 ∨ 256 < count) := by omega
  simp only [readMessage, hs, if_neg hb, ridge_none hall, List.map_nil, List.isEmpty_nil, if_true]

theorem readMessage_ridge (ha : a % 4 = 0) (h1 : 1 ≤ count) (h2 : count ≤ 256) {as_ : List Nat} {reqs : List TnReq}
    (has : as_ = (upTo count).map fun i => a + 4 * i)
    (hr : reqs = (as_.zipIdx.filter fun x => onRidge x.1).map fun x => { tag := 0, sentAt := 0, addr := x.1, word := x.2 })
    (hne : reqs ≠ []) :
    readMessage dt id a count m0 = (((elapse dt m0).touch id).readWords as_).2.awaitRidge id false
      (((elapse dt m0).touch id).readWords as_).1 reqs := by
  have hb : ¬ (a % 4 ≠ 0 ∨ count = 0 ∨ 256 < count) := by omega
  have he : ¬ reqs.isEmpty = true := by simpa using hne
  simp only [readMessage, hs, if_neg hb, ← has, ← hr, if_neg he]

theorem writeMessage_denied (hl : v.level ≠ 0) (ha : a % 4 = 0) (ho : oAllows a mask = false) :
    writeMessage dt id a mask w m0 = ((elapse dt m0).touch id).answer id "status" [1] := by
  have hb : ¬ a % 4 ≠ 0 := by omega
  simp only [writeMessage, hs, if_neg hl, if_neg hb, ho, Bool.not_false, if_true]

theorem writeMessage_sill (hl : v.level ≠ 0) (ha : a % 4 = 0) (ho : oAllows a mask = true) (hr : onRidge a = false) :
    writeMessage dt id a mask w m0 = (((elapse dt m0).touch id).sillWrite a mask w).answer id "status" [0] := by
  have hb : ¬ a % 4 ≠ 0 := by omega
  simp only [writeMessage, hs, if_neg hl, if_neg hb, ho, hr, Bool.not_true, Bool.false_eq_true, if_false]

theorem writeMessage_ridge (hl : v.level ≠ 0) (ha : a % 4 = 0) (ho : oAllows a mask = true) (hr : onRidge a = true) :
    writeMessage dt id a mask w m0 = ((elapse dt m0).touch id).awaitRidge id true [none]
      [{ tag := 0, sentAt := 0, addr := a, write := some (mask, w) }] := by
  have hb : ¬ a % 4 ≠ 0 := by omega
  simp only [writeMessage, hs, if_neg hl, if_neg hb, ho, hr, Bool.not_true, Bool.false_eq_true, if_false, if_true]

end

/-- A READ of one word of the Sill, behind which nothing waits, reads the register and sends its word. -/
theorem readMessage_one {m0 : Chip} {dt id a : Nat} {v : Session} (hs : ((elapse dt m0).touch id).session id = some v) (ha : a % 4 = 0)
    (hr : onRidge a = false) (hw : m0.tenon.waits = []) :
    readMessage dt id a 1 m0 = (((elapse dt m0).touch id).readReg a).2.emit
      (.send "service" id "words" [(((elapse dt m0).touch id).readReg a).1]) := by
  have hl : ((upTo 1).map fun i => a + 4 * i) = [a] := rfl
  have hrd (m : Chip) : m.readWords [a] = ([some (m.readReg a).1], (m.readReg a).2) := by simp [Chip.readWords, hr]
  rw [readMessage_sill hs ha (by omega) (by omega) (by simp [hl, hr]), hl, hrd]
  exact answer_of_no_waits id _ (by rw [readReg_tenon, eq_tenon_Chip_touch]; exact hw)

theorem registerWrite_firmware {m0 : Chip} {dt a : Nat} (mask w : Nat) (ha : a % 4 = 0) :
    registerWrite dt none a mask w m0 = (elapse dt m0).anyWrite a mask w := by
  have hb : ¬ a % 4 ≠ 0 := by omega
  simp only [registerWrite, if_neg hb]

theorem registerWrite_signed {m0 : Chip} {dt x : Nat} {a : Auth} {v : Session} (mask w : Nat) (hx : x % 4 = 0)
    (h : Admitted (elapse dt m0) [3] false false a v) :
    registerWrite dt (some a) x mask w m0 = ((consumed a v (elapse dt m0)).acceptCmd a).anyWrite x mask w := by
  have hb : ¬ x % 4 ≠ 0 := by omega
  simp only [registerWrite, if_neg hb]
  exact signed_admitted _ _ _ a v _ h rfl

/-- A write to a mapped register of the Sill that none of the acting registers is: the plain write, and the outputs that follow it. -/
theorem sillWrite_plain {m : Chip} {a mask w : Nat} {r : RegRow} (hu : m.unitUsed a = true) (hr : regRowAt a = some r)
    (hf : ¬ (R.FLT_STAT 0 0 ≤ a ∧ a < R.SUP_MODE)) (h1 : m.timeWrite a mask w = none) (h2 : m.singleWrite a mask w = none)
    (h3 : m.arrayWrite a mask w = none) :
    m.sillWrite a mask w = ((m.latch a none).wr a (plainWord r (m.rd a) (tabGet 0 m.fresh a) mask w)).refreshOutputs := by
  simp only [Chip.sillWrite, hu, Bool.not_true, Bool.false_eq_true, if_false, if_neg hf, h1, h2, h3, plainWrite_mapped mask w hu hr]

theorem anyWrite_sill {m : Chip} {a : Nat} (mask w : Nat) (hr : onRidge a = false) : m.anyWrite a mask w = m.sillWrite a mask w := by
  simp only [Chip.anyWrite, hr, Bool.false_eq_true, if_false]

/-- Settles O10: each clause is one effect of READ, WRITE, REGISTER_WRITE or READ_LO_LATCH on a module that acts on commands. -/
theorem registersAreReadAndWritten : Obligations.RegistersAreReadAndWritten := by
  refine ⟨?_, ?_, ?_, ?_, ?_, ?_, ?_, ?_, ?_, ?_, ?_, ?_, ?_⟩
  · -- READ of the Sill
    rintro s dt _ id a count v _ ⟨hup, rfl⟩ hs ha - h1 h2 hall rfl
    exact does_unit rfl hup (readMessage_sill hs ha h1 h2 hall)
  · -- READ that waits for the Ridge
    rintro s dt _ id a count v _ as_ reqs ⟨hup, rfl⟩ hs ha - h1 h2 has rfl hr hne
    exact does_unit rfl hup (readMessage_ridge hs ha h1 h2 has hr hne)
  · -- READ of one word
    rintro s dt _ id a v ⟨hup, rfl⟩ hs ha - hr hw
    exact ⟨_, does_unit rfl hup (readMessage_one hs ha hr hw), rfl, rfl⟩
  · -- WRITE of the Sill: what it sends
    rintro s dt _ id a mask w v ⟨hup, rfl⟩ hs hl ha - - - ho hr hw
    have he := answer_of_no_waits (what := "status") id [0] hw
    exact ⟨_, does_unit rfl hup ((writeMessage_sill hs hl ha ho hr).trans he), rfl, rfl, rfl⟩
  · -- REGISTER_WRITE of a register without an action of its own
    rintro s dt _ a mask w r ⟨hup, rfl⟩ ha - - - hr hu hm hf h1 h2 h3
    exact does_unit rfl hup ((registerWrite_firmware mask w ha).trans
      ((anyWrite_sill mask w hr).trans (sillWrite_plain hu hm hf h1 h2 h3)))
  · -- WRITE of the Sill
    rintro s dt _ id a mask w v ⟨hup, rfl⟩ hs hl ha - - - ho hr
    exact does_unit rfl hup (writeMessage_sill hs hl ha ho hr)
  · -- WRITE of the Ridge
    rintro s dt _ id a mask w v ⟨hup, rfl⟩ hs hl ha - - - ho hr
    exact does_unit rfl hup (writeMessage_ridge hs hl ha ho hr)
  · -- WRITE denied
    rintro s dt _ id a mask w v ⟨hup, rfl⟩ hs hl ha - - - ho
    exact does_unit rfl hup (writeMessage_denied hs hl ha ho)
  · -- REGISTER_WRITE by firmware
    rintro s dt _ a mask w ⟨hup, rfl⟩ ha - - -
    exact does_unit rfl hup (registerWrite_firmware mask w ha)
  · -- REGISTER_WRITE by a signed command
    rintro s dt _ a v x mask w ⟨hup, rfl⟩ hx - - - had
    exact does_unit rfl hup (registerWrite_signed mask w hx had)
  · -- REGISTER_WRITE by firmware, not aligned
    rintro s dt _ a mask w ⟨hup, rfl⟩ ha - - -
    exact does_unit rfl hup (by simp only [registerWrite, if_pos ha])
  · -- REGISTER_WRITE by a signed command, not aligned
    rintro s dt _ a x mask w ⟨hup, rfl⟩ hx - - -
    exact does_unit rfl hup (by simp only [registerWrite, if_pos hx])
  · -- READ_LO_LATCH
    rintro s dt _ a ⟨hup, rfl⟩ -
    exact does_unit rfl hup rfl

end Sys2Proof.Proofs
end

section
/-!
PROOFS of the family 01_line_to_valve: the transfers that start (copies, clears and the DMA queues of the links), and the mirror of the
firing queues.
-/
namespace Sys2Proof.Proofs
open Sys2Proof.Machine Sys2Proof.Laws

/-! ### Transfers (R250, R251, R282, R314) -/

/-- A bent command that meets no error and no stall runs what it makes of the module as it stands, and shows in BENT_CUR alone. -/
theorem bentWork_none (n : Nat) (c : CutEntry) (reads : Chip → Reads) (f : Chip → Running) {m : Chip} (h : m.sramBad = []) :
    bentWork n c {} 0 reads f m = (f m, m.showCur n c) := by
  simp only [bentWork, meetErrs_none _ _ _ h, Chip.noteStall, if_true]

/-- A bent command that starts undisturbed has begun what it makes of the module as it stands. -/
theorem begun_bentWork {m : Chip} {n : Nat} (c : CutEntry) (reads : Chip → Reads) (f : Chip → Running) (h : Undisturbed m (.bent n)) :
    Begun m (started m (.bent n) c (bentWork n c {} 0 reads f)) (.bent n) c (f m) :=
  started_begun h.1 (bentWork_none n c reads f h.2) rfl rfl rfl

/-- The rows of a COPY that meets no error are the bytes that stand in them. -/
theorem copyRows_none (m : Chip) (n : Nat) (d : DmaDesc) :
    m.copyRows {} n d = (upTo d.rows).flatMap fun i => (DmaDesc.targets n d).map fun f =>
      (f (d.dstAddr + i * d.dstPitch), m.bytesAt (spaceAddr n d d.src (d.srcAddr + i * d.srcPitch)) d.rowBytes) := by
  simp only [Chip.copyRows, readMem_none]

section
variable {m0 : Chip} {dt n : Nat} {c : CutEntry}

theorem dmaCopy_starts (er : ReadErrs) (hop : (elapse dt m0).descNum c.descPtr 1 = 4)
    (hk : ((elapse dt m0).dmaDesc c.descPtr).kind = 0) (hs : Starts (elapse dt m0) (.bent n) c) :
    dmaCopy dt n c er m0 = started (elapse dt m0) (.bent n) c
      (bentWork n c er 0 (fun x => DmaDesc.reads n (x.dmaDesc c.descPtr)) fun x => x.copyWork n c er) := by
  have hb : ¬ ((elapse dt m0).dmaDesc c.descPtr).kind ≠ 0 := not_not_intro hk
  simp only [dmaCopy, if_neg hb, bentCommand_starts _ _ _ _ hop hs]

theorem dmaClear_starts (hop : (elapse dt m0).descNum c.descPtr 1 = 4) (hk : ((elapse dt m0).dmaDesc c.descPtr).kind = 1)
    (hs : Starts (elapse dt m0) (.bent n) c) :
    dmaClear dt n c m0 = started (elapse dt m0) (.bent n) c (bentWork n c {} 0 (fun _ => []) fun x => x.clearWork n c) := by
  have hb : ¬ ((elapse dt m0).dmaDesc c.descPtr).kind ≠ 1 := not_not_intro hk
  simp only [dmaClear, if_neg hb, bentCommand_starts _ _ _ _ hop hs]

theorem cmDma_starts (er : ReadErrs) (hop : ((elapse dt m0).dmaDesc c.descPtr).op = 4) (hs : Starts (elapse dt m0) .cmDma c) :
    cmDma dt c er m0 = started (elapse dt m0) .cmDma c (cmDmaWork c er) := by
  have hb : ¬ ((elapse dt m0).dmaDesc c.descPtr).op ≠ 4 := not_not_intro hop
  simp only [cmDma, if_neg hb, startCmd_starts _ hs]

/-- A command of a Tenon queue starts as the link stands once its flit slots are filled. -/
theorem tenonDma_starts {d : Nat} (er : ReadErrs) (crop : Option (Nat × Nat)) (hop : ((tnElapse dt m0).dmaDesc c.descPtr).op = 4)
    (hk : ((tnElapse dt m0).dmaDesc c.descPtr).kind = 0) (hs : Starts (tnElapse dt m0) (tnEngine d) c) :
    tenonDma dt d c er crop m0 = started (tnElapse dt m0) (tnEngine d) c (tenonWork d c er crop) := by
  have hb : ¬ (((tnElapse dt m0).dmaDesc c.descPtr).op ≠ 4 ∨ ((tnElapse dt m0).dmaDesc c.descPtr).kind ≠ 0) := by omega
  simp only [tenonDma, if_neg hb, startCmd_starts _ hs]

theorem purlinDma_starts {p : Nat} (dev : Nat) (er : ReadErrs) (hop : ((elapse dt m0).dmaDesc c.descPtr).op = 4)
    (hk : ((elapse dt m0).dmaDesc c.descPtr).kind = 0) (hs : Starts (elapse dt m0) (.purlinDma p) c) :
    purlinDma dt p dev c er m0 = started (elapse dt m0) (.purlinDma p) c (purlinWork p dev c er) := by
  have hb : ¬ (((elapse dt m0).dmaDesc c.descPtr).op ≠ 4 ∨ ((elapse dt m0).dmaDesc c.descPtr).kind ≠ 0) := by omega
  simp only [purlinDma, if_neg hb, startCmd_starts _ hs]

end

section
variable {m : Chip} {c : CutEntry} (h : m.sramBad = [])
include h

/-- A copy of the capture-memory DMA that meets no error will write its rows and changes nothing yet. -/
theorem cmDmaWork_copy (hk : (m.dmaDesc c.descPtr).kind = 0) :
    cmDmaWork c {} m = ({ blankRunning with op := "CM_DMA",
                                            writes := m.copyRows {} (m.dmaDesc c.descPtr).peer (m.dmaDesc c.descPtr) }, m) := by
  have hb : ¬ (m.dmaDesc c.descPtr).kind = 1 := by omega
  simp only [cmDmaWork, if_neg hb, meetErrs_none _ _ _ h]

theorem tenonWork_rows {d : Nat} (hd : ¬ (d = 1 ∧ (m.dmaDesc c.descPtr).dst = 4)) :
    (tenonWork d c {} none m).2 = m.tnRows d c {} (m.dmaDesc c.descPtr) := by
  simp only [tenonWork, meetErrs_none _ _ _ h, if_neg hd]

theorem tenonWork_verdicts (hd : (m.dmaDesc c.descPtr).dst = 4) :
    (tenonWork 1 c {} none m).2 = m.tnVerdicts c (m.dmaDesc c.descPtr) := by
  simp only [tenonWork, meetErrs_none _ _ _ h, hd, and_self, if_true]

/-- A command of destination space 5 sends its signal alone. -/
theorem purlinWork_signal (p dev : Nat) (hd : (m.dmaDesc c.descPtr).dst = 5) :
    (purlinWork p dev c {} m).2 = m.dataSend dev (m.closeOf (.purlinDma p) c) 5 0 0 (c.signal.getD 0x3FF) [] := by
  simp only [purlinWork, meetErrs_none _ _ _ h, hd, if_true]

end

section
variable {m : Chip} {e : Engine} {c : CutEntry} {work : Chip → Running × Chip} (hb : (m.eng e).bg = none)
include hb

/-- A start adds nothing to what its work puts on the Tenon link. -/
theorem started_tenon : (started m e c work).tenon = (work m).2.tenon := by
  unfold started
  rw [rollBack_none hb, showEng_other]
  rfl

/-- A start adds nothing to what its work puts on the Purlin fabric. -/
theorem started_purlin : (started m e c work).purlin = (work m).2.purlin := by
  unfold started
  rw [rollBack_none hb, showEng_other]
  rfl

end

/-- Settles O33: each command is its start (`…_starts`), and what a start leaves is what its work gives of the undisturbed module. -/
theorem transfersStart : Obligations.TransfersStart := by
  refine ⟨?_, ?_, ?_, ?_, ?_, ?_, ?_, ?_, ?_, ?_, ?_, ?_, ?_⟩
  · -- DMA_COPY
    rintro s dt _ n c er ⟨hup, rfl⟩ hn hop hk hs
    exact does_unit (decide_eq_true hn) hup (dmaCopy_starts er hop hk hs)
  · -- DMA_COPY: the rows it will write
    rintro s dt _ n c _ ⟨hup, rfl⟩ hn hop hk hs hu rfl
    exact ⟨_, _, does_unit (decide_eq_true hn) hup (dmaCopy_starts {} hop hk hs), rfl, begun_bentWork c _ _ hu,
      copyRows_none _ n _⟩
  · -- DMA_CLEAR
    rintro s dt _ n c ⟨hup, rfl⟩ hn hop hk hs
    exact does_unit (decide_eq_true hn) hup (dmaClear_starts hop hk hs)
  · -- DMA_CLEAR: the ranges it will clear
    rintro s dt _ n c _ ⟨hup, rfl⟩ hn hop hk hs hu rfl
    exact ⟨_, _, does_unit (decide_eq_true hn) hup (dmaClear_starts hop hk hs), rfl, begun_bentWork c _ _ hu, rfl, rfl⟩
  · -- CM_DMA
    rintro s dt _ c er ⟨hup, rfl⟩ hop hs
    exact does_unit rfl hup (cmDma_starts er hop hs)
  · -- CM_DMA: the rows it will write
    rintro s dt _ c _ ⟨hup, rfl⟩ rfl hop hk hs ⟨hbg, hbad⟩
    exact ⟨_, _, does_unit rfl hup (cmDma_starts {} hop hs), rfl, started_begun hbg (cmDmaWork_copy hbad hk) rfl rfl rfl,
      copyRows_none _ _ _⟩
  · -- TENON_DMA, Sill to Ridge
    rintro s dt _ c er _ ⟨hup, rfl⟩ rfl hop hk hs
    exact does_unit rfl hup (tenonDma_starts (d := 0) er none hop hk hs)
  · -- TENON_DMA, Ridge to Sill
    rintro s dt _ c er _ ⟨hup, rfl⟩ rfl hop hk hs
    exact does_unit rfl hup (tenonDma_starts (d := 1) er none hop hk hs)
  · -- TENON_DMA of a crop command
    rintro s dt _ c er _ r strip ⟨hup, rfl⟩ rfl hop hk hs
    exact does_unit rfl hup (tenonDma_starts (d := 0) er (some (r, strip)) hop hk hs)
  · -- TENON_DMA: the rows it sends
    rintro s dt _ c _ ⟨hup, rfl⟩ rfl hop hk hs ⟨hbg, hbad⟩
    refine ⟨_, does_unit rfl hup (tenonDma_starts (d := 0) {} none hop hk hs), rfl, started_running _ .tenonS2R c _, ?_⟩
    exact (started_tenon hbg).trans (congrArg Chip.tenon (tenonWork_rows hbad (by omega)))
  · -- TENON_DMA: the verdict records it sends
    rintro s dt _ c _ ⟨hup, rfl⟩ rfl hop hk hd hs ⟨hbg, hbad⟩
    refine ⟨_, does_unit rfl hup (tenonDma_starts (d := 1) {} none hop hk hs), rfl, started_running _ .tenonR2S c _, ?_⟩
    exact (started_tenon hbg).trans (congrArg Chip.tenon (tenonWork_verdicts hbad hd))
  · -- PURLIN_DMA
    rintro s dt _ p dev c er ⟨hup, rfl⟩ hp hdev hop hk hs
    exact does_unit (by simp [hp, hdev]) hup (purlinDma_starts dev er hop hk hs)
  · -- PURLIN_DMA of destination space 5
    rintro s dt _ p dev c ⟨hup, rfl⟩ hp hdev hop hk hd hs ⟨hbg, hbad⟩
    refine ⟨_, does_unit (by simp [hp, hdev]) hup (purlinDma_starts dev {} hop hk hs), rfl, started_running _ (.purlinDma p) c _, ?_⟩
    exact (started_purlin hbg).trans (congrArg Chip.purlin (purlinWork_signal hbad p dev hd))

/-! ### The mirror (R17, R326 to R328, R468) -/

section
variable {m0 : Chip} {dt id : Nat} {o : MirrorOut} {e : FEntry}

theorem mirrorAck_entry (ho : ((elapse dt m0).fire.mirror.find? fun o => o.id == id) = some o) (he : o.record = .entry e) :
    mirrorAck dt id m0 = (((elapse dt m0).mirrorTake o).bump R.PUR_CNT_MIRROR).queueEntry e := by
  simp only [mirrorAck, ho, he]

theorem mirrorAck_late (ho : ((elapse dt m0).fire.mirror.find? fun o => o.id == id) = none) :
    mirrorAck dt id m0 = (elapse dt m0).bump R.PUR_CNT_MIRROR_LATE := by
  simp only [mirrorAck, ho]

/-- The one outstanding record, not yet sent again and without acknowledgement for mirror_rto, is sent once more. -/
theorem mirrorResend_one (hm : (elapse dt m0).fire.mirror = [o]) (hr : o.resent = false)
    (hd : o.sentAt + (elapse dt m0).mirrorRto ≤ (elapse dt m0).now) :
    mirrorResend dt m0 = (((elapse dt m0).mirrorFrame o.id o.record).bump R.PUR_CNT_MIRROR_RETX).onFire fun f =>
      { f with mirror := f.mirror.map fun x =>
          if x.resent = false ∧ x.sentAt + (elapse dt m0).mirrorRto ≤ (elapse dt m0).now then { x with resent := true } else x } := by
  have hf : ((elapse dt m0).fire.mirror.filter fun o => !o.resent && decide (o.sentAt + (elapse dt m0).mirrorRto ≤ (elapse dt m0).now))
      = [o] := by rw [hm]; simp [hr, hd]
  simp only [mirrorResend, hf, forAll, List.foldl_cons, List.foldl_nil, Bool.and_eq_true, Bool.not_eq_true', decide_eq_true_eq]

/-- The one outstanding record, an entry first sent 5 µs ago, is queued unmirrored. -/
theorem mirrorTimeout_entry (hm : (elapse dt m0).fire.mirror = [o]) (he : o.record = .entry e)
    (hd : o.sentAt + 5000 ≤ (elapse dt m0).now) :
    mirrorTimeout dt m0 = (((((elapse dt m0).mirrorTake o).queueEntry { e with unmirrored := true }).bump
      (R.FS_Q_CNT_UNMIRR e.port)).setFlag F.FS_STAT_unmirrored).raise SrcName.standbyMirror := by
  have hf : ((elapse dt m0).fire.mirror.filter fun o => decide (o.sentAt + 5000 ≤ (elapse dt m0).now)) = [o] := by rw [hm]; simp [hd]
  simp only [mirrorTimeout, hf, forAll, List.foldl_cons, List.foldl_nil, he]

theorem mirrorTimeout_none (hm : (elapse dt m0).fire.mirror = []) : mirrorTimeout dt m0 = elapse dt m0 := by
  simp only [mirrorTimeout, hm, List.filter_nil, forAll, List.foldl_nil]

theorem mirrorRecord_otherRole (r : MirrorRec) (hr : (elapse dt m0).role ≠ 2) :
    mirrorRecord dt id r m0 = (elapse dt m0).setFlag F.PUR_MIRROR_STAT_mirror_role := by
  simp only [mirrorRecord, if_pos hr]

/-- A standby queues an entry whose key it does not hold, and acknowledges it. -/
theorem mirrorRecord_entry (hr : (elapse dt m0).role = 2) (hk : (elapse dt m0).keyHeld e.key = false) :
    mirrorRecord dt id (.entry e) m0 = ((elapse dt m0).queueEntry e).mirrorOut (.mirrorAck id) 32 := by
  have hb : ¬ (elapse dt m0).role ≠ 2 := not_not_intro hr
  simp only [mirrorRecord, if_neg hb, hk, Bool.false_eq_true, if_false]

theorem mirrorKeepalive_sends (h1 : (elapse dt m0).get F.PUR_MIRROR_CFG_mrole = 1)
    (h2 : (elapse dt m0).purState ((elapse dt m0).get F.PUR_MIRROR_CFG_mport) = 3) :
    mirrorKeepalive dt m0 = (elapse dt m0).linkSend ((elapse dt m0).get F.PUR_MIRROR_CFG_mport) {} := by
  simp only [mirrorKeepalive, h1, h2, ne_eq, not_true_eq_false, or_self, if_false]

theorem mirrorKeepalive_silent (h : (elapse dt m0).get F.PUR_MIRROR_CFG_mrole ≠ 1 ∨
    (elapse dt m0).purState ((elapse dt m0).get F.PUR_MIRROR_CFG_mport) ≠ 3) : mirrorKeepalive dt m0 = elapse dt m0 := by
  simp only [mirrorKeepalive, if_pos h]

theorem mirrorLinkLoss_standby (hr : (elapse dt m0).role = 2) (hd : (elapse dt m0).sup.mirrorAliveAt + 30000 ≤ (elapse dt m0).now) :
    mirrorLinkLoss dt m0 = (elapse dt m0).assert SrcName.mirrorLink := by
  simp only [mirrorLinkLoss, Chip.mirrorSilent, hr, hd, decide_true, and_self, if_true]

theorem mirrorLinkLoss_otherRole (hr : (elapse dt m0).role ≠ 2) : mirrorLinkLoss dt m0 = elapse dt m0 := by
  simp only [mirrorLinkLoss, hr, false_and, if_false]

end

/-- Settles O25: each clause is one branch of a mirror command, and the two about queues are the rule of a queued entry
(`queue_spec`) behind it. -/
theorem theMirrorQueuesEveryEntry : Obligations.TheMirrorQueuesEveryEntry := by
  refine ⟨?_, ?_, ?_, ?_, ?_, ?_, ?_, ?_, ?_, ?_, ?_, ?_, ?_⟩
  · -- MIRROR_ACK of an entry
    rintro s dt _ id o e ⟨hup, rfl⟩ ho he
    exact does_unit rfl hup (mirrorAck_entry ho he)
  · -- MIRROR_ACK of an entry: its queue
    rintro s dt _ id o e ⟨hup, rfl⟩ ho he hmode hc hp
    obtain ⟨hmirror, hqueue⟩ := queue_spec _ e hmode hc hp
    exact ⟨_, does_unit rfl hup (mirrorAck_entry ho he), rfl, hmirror, hqueue⟩
  · -- MIRROR_ACK of nothing outstanding
    rintro s dt _ id ⟨hup, rfl⟩ ho
    exact does_unit rfl hup (mirrorAck_late ho)
  · -- MIRROR_RESEND
    rintro s dt _ o ⟨hup, rfl⟩ hm hr hd
    exact does_unit rfl hup (mirrorResend_one hm hr hd)
  · -- MIRROR_TIMEOUT of an entry
    rintro s dt _ o e ⟨hup, rfl⟩ hm he hd
    exact does_unit rfl hup (mirrorTimeout_entry hm he hd)
  · -- MIRROR_TIMEOUT with nothing outstanding
    rintro s dt _ ⟨hup, rfl⟩ hm
    exact does_unit rfl hup (mirrorTimeout_none hm)
  · -- MIRROR_RECORD at a module that is no standby
    rintro s dt _ id r ⟨hup, rfl⟩ hr
    exact does_unit rfl hup (mirrorRecord_otherRole r hr)
  · -- MIRROR_RECORD of an entry
    rintro s dt _ id e _ ⟨hup, rfl⟩ hr hk rfl
    exact does_unit rfl hup (mirrorRecord_entry hr hk)
  · -- MIRROR_RECORD of an entry: its queue
    rintro s dt _ id e ⟨hup, rfl⟩ hr hk hmode hc hp
    obtain ⟨hmirror, hqueue⟩ := queue_spec _ e hmode hc hp
    have hfire := eq_fire_Chip_mirrorOut (.mirrorAck id) 32 ((elapse dt s.m).queueEntry e)
    exact ⟨_, does_unit rfl hup (mirrorRecord_entry hr hk), rfl,
      (congrArg (fun f : FireState => f.queues.getD e.port []) hfire).trans hqueue, (congrArg FireState.mirror hfire).trans hmirror⟩
  · -- MIRROR_KEEPALIVE of the primary
    rintro s dt _ ⟨hup, rfl⟩ h1 h2
    exact does_unit rfl hup (mirrorKeepalive_sends h1 h2)
  · -- MIRROR_KEEPALIVE elsewhere
    rintro s dt _ ⟨hup, rfl⟩ h
    exact does_unit rfl hup (mirrorKeepalive_silent h)
  · -- MIRROR_LINK_LOSS of a standby
    rintro s dt _ ⟨hup, rfl⟩ hr hd
    exact does_unit rfl hup (mirrorLinkLoss_standby hr hd)
  · -- MIRROR_LINK_LOSS elsewhere
    rintro s dt _ ⟨hup, rfl⟩ hr
    exact does_unit rfl hup (mirrorLinkLoss_otherRole hr)

end Sys2Proof.Proofs
end

section
/-!
PROOFS of the family 02_bays_and_cut_lists: the bay index and the bay boundary, the verdicts that a bay takes in, the bents' commands that
start, the commands that complete, job control, the bents' power and background time, and the module after power-on reset.
-/
namespace Sys2Proof.Proofs
open Sys2Proof.Machine Sys2Proof.Laws

/-! ### The bay index (R55) -/

theorem shown_bayIndexLo (m : Chip) : m.shown R.RC_BAY_INDEX_LO = m.bay % 2 ^ 32 := rfl

theorem shown_bayIndexHi (m : Chip) : m.shown R.RC_BAY_INDEX_HI = m.bay / 2 ^ 32 % 2 ^ 32 := rfl

/-- A read of RC_BAY_INDEX_LO never takes a latched word: it shows the index of its own time, and latches the high word. -/
theorem readReg_bayIndexLo (m : Chip) :
    m.readReg R.RC_BAY_INDEX_LO = (m.bay % 2 ^ 32, m.latch R.RC_BAY_INDEX_HI (some (m.bay / 2 ^ 32 % 2 ^ 32))) := by
  have hl : latchesHi R.RC_BAY_INDEX_LO = true := by decide
  have ht : tbOthers.contains R.RC_BAY_INDEX_LO = false := by decide
  have hu : m.unitUsed R.RC_BAY_INDEX_LO = true := rfl
  have hp : m.readPops R.RC_BAY_INDEX_LO = m := rfl
  have hr : m.latchRead R.RC_BAY_INDEX_LO = m.latch R.RC_BAY_INDEX_HI (some (m.bay / 2 ^ 32 % 2 ^ 32)) := by
    simp only [Chip.latchRead, hl, ht, Bool.not_true, Bool.false_and, Bool.false_eq_true, if_false]
    rfl
  have hi : instOf (R.ENC_PRB_SEQ 0) 0x100 8 R.RC_BAY_INDEX_LO = none := rfl
  simp only [Chip.readReg, hu, hp, hl, ht, hr, hi, shown_bayIndexLo, Bool.not_true, Bool.not_false, Bool.and_self, Bool.false_eq_true,
    if_false, if_true]

/-- A read of RC_BAY_INDEX_HI takes the word that stands latched. -/
theorem readReg_bayIndexHi {m : Chip} {w : Word} (h : tabGet none m.latches R.RC_BAY_INDEX_HI = some w) :
    (m.readReg R.RC_BAY_INDEX_HI).1 = w.toNat := by
  have hl : latchesHi R.RC_BAY_INDEX_HI = false := by decide
  have hu : m.unitUsed R.RC_BAY_INDEX_HI = true := rfl
  have hp : m.readPops R.RC_BAY_INDEX_HI = m := rfl
  simp only [Chip.readReg, hu, hp, hl, h, Bool.not_true, Bool.false_and, Bool.false_eq_true, if_false]

/-- A latched word reads as it was latched. -/
theorem tabGet_latch_same (m : Chip) (a v : Nat) : tabGet none (m.latch a (some v)).latches a = some (BitVec.ofNat 32 v) :=
  tabGet_set_ne none _ _ _ (by simp)

/-- Settles O57: the read of RC_BAY_INDEX_LO latches the high word of the index (`readReg_bayIndexLo`), and the read of
RC_BAY_INDEX_HI takes it (`readReg_bayIndexHi`). -/
theorem theBayIndexIsReadConsistently : Obligations.TheBayIndexIsReadConsistently := by
  rintro s t dt _ ⟨hup, rfl⟩ hbay ht
  have hd : exec (.readLoLatch dt R.RC_BAY_INDEX_LO) s = .next { s with m := ((elapse dt s.m).readReg R.RC_BAY_INDEX_LO).2 } :=
    does_unit rfl hup rfl
  obtain rfl : { s with m := ((elapse dt s.m).readReg R.RC_BAY_INDEX_LO).2 } = t := by rw [hd] at ht; cases ht; rfl
  generalize elapse dt s.m = m at hbay
  refine ⟨by rw [readReg_bayIndexLo], fun x hx => ⟨?_, by rw [readReg_bayIndexLo]⟩⟩
  have hi : tabGet none x.latches R.RC_BAY_INDEX_HI = some (BitVec.ofNat 32 (m.bay / 2 ^ 32 % 2 ^ 32)) := by
    rw [hx, readReg_bayIndexLo]
    exact tabGet_latch_same m _ _
  rw [readReg_bayIndexHi hi, readReg_bayIndexLo, BitVec.toNat_ofNat]
  omega

/-! ### Job control (R48, R52, R59) -/

/-- The module takes a write of job `j`'s control register: it is no disable of a job whose outputs an enabled job consumes (R52). -/
def TakesCtrl (m : Chip) (j v : Nat) : Prop :=
  m.flag (F.RC_JOB_CTRL_enable j) = false ∨ bitN v 0 = true ∨ m.consumed j = false

/-- A written control value stands in job `j`'s register, `w` remembers which boundaries it reaches, and shows as pending. -/
def ctrlTaken (m : Chip) (j v : Nat) (w : JobRun) : Chip :=
  ((m.wr (R.RC_JOB_CTRL j) (BitVec.ofNat 32 (v % 8))).setJobRun j w).put (F.RC_JOB_STAT_pending j) (b2n (pendingOf w))

section
variable {m0 : Chip} {dt j v : Nat}

theorem jobCtrlWrite_refused (he : (elapse dt m0).flag (F.RC_JOB_CTRL_enable j) = true) (hv : bitN v 0 = false)
    (hc : (elapse dt m0).consumed j = true) :
    jobCtrlWrite dt j v m0 = (elapse dt m0).setFlag (F.RC_JOB_STAT_dep_refused j) := by
  simp only [jobCtrlWrite, he, hv, hc, Bool.not_false, Bool.and_self, if_true]

theorem jobCtrlWrite_taken (h : TakesCtrl (elapse dt m0) j v) :
    jobCtrlWrite dt j v m0 = ctrlTaken (elapse dt m0) j v
      (if !(elapse dt m0).bays.running || 20000 ≤ (elapse dt m0).period - (elapse dt m0).tb3 % (elapse dt m0).period
       then { (elapse dt m0).jobRun j with ctrl := v % 8, ctrlLate := none }
       else { (elapse dt m0).jobRun j with ctrlLate := if v % 8 = ((elapse dt m0).jobRun j).ctrl then none else some (v % 8) }) := by
  have hb : ((elapse dt m0).flag (F.RC_JOB_CTRL_enable j) && !bitN v 0 && (elapse dt m0).consumed j) = false := by
    obtain h | h | h := h <;> simp [h]
  simp only [jobCtrlWrite, hb, Bool.false_eq_true, if_false]
  rfl

/-- A write that is taken 20 µs or more ahead of the next boundary reaches it. -/
theorem jobCtrlWrite_inTime (h : TakesCtrl (elapse dt m0) j v) (ht : (elapse dt m0).bays.running = false ∨
    20000 ≤ (elapse dt m0).period - (elapse dt m0).tb3 % (elapse dt m0).period) :
    jobCtrlWrite dt j v m0 = ctrlTaken (elapse dt m0) j v { (elapse dt m0).jobRun j with ctrl := v % 8, ctrlLate := none } := by
  rw [jobCtrlWrite_taken h, if_pos]
  simpa only [Bool.or_eq_true, Bool.not_eq_true', decide_eq_true_eq] using ht

/-- A later write reaches the boundary after the next. -/
theorem jobCtrlWrite_late (h : TakesCtrl (elapse dt m0) j v) (hr : (elapse dt m0).bays.running = true)
    (ht : (elapse dt m0).period - (elapse dt m0).tb3 % (elapse dt m0).period < 20000) :
    jobCtrlWrite dt j v m0 = ctrlTaken (elapse dt m0) j v
      { (elapse dt m0).jobRun j with ctrlLate := if v % 8 = ((elapse dt m0).jobRun j).ctrl then none else some (v % 8) } := by
  rw [jobCtrlWrite_taken h, if_neg]
  simpa only [hr, Bool.not_true, Bool.false_or, decide_eq_true_eq, Nat.not_le] using ht

end

/-- A value with no later one behind it is pending while it is not the one that acts. -/
theorem pendingOf_noLate (r : JobRun) (v : Nat) :
    b2n (pendingOf { r with ctrl := v, ctrlLate := none }) = if v = r.acted then 0 else 1 := by
  by_cases h : v = r.acted <;> simp [pendingOf, b2n, h]

/-- The control register of a job reads as it was written. -/
theorem rd_ctrlTaken {m : Chip} (j v : Nat) (w : JobRun) (h : Canon m) :
    (ctrlTaken m j v w).rd (R.RC_JOB_CTRL j) = BitVec.ofNat 32 (v % 8) := by
  have hw : Canon ((m.wr (R.RC_JOB_CTRL j) (BitVec.ofNat 32 (v % 8))).setJobRun j w) := keep_canon.wr m _ _ h
  rw [ctrlTaken, rd_put_other _ _ _ _ hw.1 (by simp only [R.RC_JOB_CTRL, F.RC_JOB_STAT_pending]; omega)]
  exact rd_wr_same m _ _ h.1

/-- A sticky flag reads 1 once it is set. -/
theorem flag_setFlag (m : Chip) (f : Fld) (hf : f.lo ≤ f.hi) (h32 : f.hi < 32) : (m.setFlag f).flag f = true := by
  have hp : 1 < 2 ^ (f.hi - f.lo + 1) := Nat.one_lt_two_pow (by omega)
  have hg := get_put_ne m f 1 hf h32 (by rw [Nat.mod_eq_of_lt hp]; omega)
  have he : (m.setFlag f).get f = (m.put f 1).get f := rfl
  rw [Chip.flag, he, hg, Nat.mod_eq_of_lt hp]
  rfl

/-- A sticky flag that is set leaves every other register alone. -/
theorem rd_setFlag_other {m : Chip} (f : Fld) (a : Nat) (h : Canon m) (ha : a ≠ f.addr) : (m.setFlag f).rd a = m.rd a :=
  rd_put_other m f 1 a h.1 ha

/-- Settles O59: the refusal is the dep_refused flag alone (`jobCtrlWrite_refused`), and a flag that is set leaves every other
register as it was. -/
theorem aDisableOfAConsumedJobIsRefused : Obligations.ADisableOfAConsumedJobIsRefused := by
  rintro s dt _ j v d ⟨hup, rfl⟩ hcanon hj - hen hv hd rfl hdep
  have hc : (elapse dt s.m).consumed d.2 = true := List.any_eq_true.2 ⟨d, hd, by simp [hdep]⟩
  refine ⟨_, does_unit (decide_eq_true hj) hup (jobCtrlWrite_refused hen hv hc), ?_, ?_, ?_, rfl⟩
  · exact rd_setFlag_other _ _ hcanon (by simp only [R.RC_JOB_CTRL, F.RC_JOB_STAT_dep_refused]; omega)
  · exact flag_setFlag _ _ (Nat.le_refl 26) (by decide : 26 < 32)
  · exact fun a ha => rd_setFlag_other _ _ hcanon ha

/-! ### The verdicts that a bay takes in (R40, R49, R142, R145, R610) -/

section
variable {m0 : Chip} {dt : Nat} {g : VerdictGroup} {c : ClosedStrip}

theorem verdictGroup_taken (hk : g.kind = 0) (hb : (elapse dt m0).verdictBay g.closeBay = true)
    (hi : (elapse dt m0).fire.inbox.contains g = true)
    (ho : ((elapse dt m0).takeInbox fun y => y == g).openStrip g.job g.stream g.row g.strip g.closeBay = some c) :
    verdictGroup dt g m0 = (((forAll g.objs (fun e m => m.takeObj (entryObj g e)) ((elapse dt m0).takeInbox fun y => y == g)).takeEmpty
      g c).markTaken g.job g.stream g.row g.strip g.closeBay).afterGroup g.job g.row g.strip g.closeBay := by
  simp only [verdictGroup, hk, hb, hi, ho, ne_eq, not_true_eq_false, Bool.not_true, Bool.false_eq_true, or_self, if_false]

theorem verdictGroup_unexpected (hk : g.kind = 0) (hb : (elapse dt m0).verdictBay g.closeBay = true)
    (hi : (elapse dt m0).fire.inbox.contains g = true)
    (ho : ((elapse dt m0).takeInbox fun y => y == g).openStrip g.job g.stream g.row g.strip g.closeBay = none) :
    verdictGroup dt g m0 = (elapse dt m0).takeInbox fun y => y == g := by
  simp only [verdictGroup, hk, hb, hi, ho, ne_eq, not_true_eq_false, Bool.not_true, Bool.false_eq_true, or_self, if_false]

theorem verdictGroup_notBrought (h : (elapse dt m0).verdictBay g.closeBay = false ∨ (elapse dt m0).fire.inbox.contains g = false) :
    verdictGroup dt g m0 = elapse dt m0 := by
  have hb : g.kind ≠ 0 ∨ (!(elapse dt m0).verdictBay g.closeBay) = true ∨ (!(elapse dt m0).fire.inbox.contains g) = true := by
    obtain h | h := h <;> simp only [h, Bool.not_false, true_or, or_true]
  simp only [verdictGroup, if_pos hb]

end

/-- A group that is taken in leaves the record buffer; nothing else of the buffer moves. -/
theorem inbox_taken (m : Chip) (g : VerdictGroup) (c : ClosedStrip) (p : VerdictGroup → Bool) (j stream row strip closeBay : Nat) :
    ((((forAll g.objs (fun e m => m.takeObj (entryObj g e)) (m.takeInbox p)).takeEmpty g c).markTaken j stream row strip
      closeBay).afterGroup j row strip closeBay).fire.inbox = m.fire.inbox.eraseP p := by
  rw [eq_fireinbox_Chip_afterGroup, eq_fireinbox_Chip_markTaken, eq_fireinbox_Chip_takeEmpty]
  exact forAll_keeps (fun m => m.fire.inbox) _ _ _ fun _ _ => eq_fireinbox_Chip_takeObj _ _

section
variable {m0 : Chip} {dt job stream row strip closeBay : Nat} {c : ClosedStrip}

theorem overrunNotice_taken (hb : (elapse dt m0).verdictBay closeBay = true)
    (hi : (elapse dt m0).fire.inbox.any (isNotice job stream row strip closeBay) = true)
    (ho : ((elapse dt m0).takeInbox (isNotice job stream row strip closeBay)).openStrip job stream row strip closeBay = some c) :
    overrunNotice dt job stream row strip closeBay m0 =
      ((elapse dt m0).takeInbox (isNotice job stream row strip closeBay)).takeNotice c job stream := by
  simp only [overrunNotice, hb, hi, ho, Bool.not_true, Bool.false_eq_true, or_self, if_false]

theorem overrunNotice_unexpected (hb : (elapse dt m0).verdictBay closeBay = true)
    (hi : (elapse dt m0).fire.inbox.any (isNotice job stream row strip closeBay) = true)
    (ho : ((elapse dt m0).takeInbox (isNotice job stream row strip closeBay)).openStrip job stream row strip closeBay = none) :
    overrunNotice dt job stream row strip closeBay m0 = (elapse dt m0).takeInbox (isNotice job stream row strip closeBay) := by
  simp only [overrunNotice, hb, hi, ho, Bool.not_true, Bool.false_eq_true, or_self, if_false]

theorem overrunNotice_notBrought (h : (elapse dt m0).verdictBay closeBay = false ∨
    (elapse dt m0).fire.inbox.any (isNotice job stream row strip closeBay) = false) :
    overrunNotice dt job stream row strip closeBay m0 = elapse dt m0 := by
  have hb : (!(elapse dt m0).verdictBay closeBay) = true ∨
      (!(elapse dt m0).fire.inbox.any (isNotice job stream row strip closeBay)) = true := by
    obtain h | h := h <;> simp only [h, Bool.not_false, true_or, or_true]
  simp only [overrunNotice, if_pos hb]

end

/-- What has sent nothing for close bay (bay − D) by the deadline (R610): a closed strip, and a verdict job and a stream of its that is
neither taken in nor aborted. -/
def silent (m : Chip) : List (ClosedStrip × Nat × Nat) :=
  (m.fire.closed.filter fun c => c.closeBay == m.bay - m.depth).flatMap fun c =>
    c.jobs.flatMap fun j => (c.streams.filter fun s => !c.taken.contains (j, s) && !c.aborted.contains j).map fun s => (c, j, s)

/-- Streams that have sent nothing are treated as notices, once in the bay. -/
def noticed (m : Chip) : Chip :=
  let x := forAll (silent m) (fun y m => m.takeNotice y.1 y.2.1 y.2.2) m
  { x with bays := { x.bays with verdictDone := true } }

section
variable {m0 : Chip} {dt : Nat}

theorem verdictDeadline_due (hr : (elapse dt m0).bays.running = true) (hd : (elapse dt m0).bays.verdictDone = false)
    (ht : (elapse dt m0).bays.startAt + 10000 ≤ (elapse dt m0).now) (hb : (elapse dt m0).depth ≤ (elapse dt m0).bay) :
    verdictDeadline dt m0 = noticed (elapse dt m0) := by
  have hn : (!(elapse dt m0).bays.running || (elapse dt m0).bays.verdictDone ||
      (elapse dt m0).now < (elapse dt m0).bays.startAt + 10000 || (elapse dt m0).bay < (elapse dt m0).depth) = false := by
    simp only [hr, hd, Bool.not_true, Bool.false_or, Bool.or_eq_false_iff, decide_eq_false_iff_not]
    omega
  simp only [verdictDeadline, hn, Bool.false_eq_true, if_false]
  rfl

theorem verdictDeadline_done (hd : (elapse dt m0).bays.verdictDone = true) : verdictDeadline dt m0 = elapse dt m0 := by
  simp only [verdictDeadline, hd, Bool.or_true, Bool.true_or, if_true]

end

/-- The notices of the deadline leave the bay and the record buffer alone. -/
theorem noticed_keeps (m : Chip) : (noticed m).bays.bay = m.bay ∧ (noticed m).fire.inbox = m.fire.inbox :=
  ⟨forAll_keeps (fun m => m.bays.bay) _ _ _ fun _ _ => (eq_baysMarks_Chip_takeNotice ..).1,
    forAll_keeps (fun m => m.fire.inbox) _ _ _ fun _ _ => eq_fireinbox_Chip_takeNotice ..⟩

section
variable {m0 : Chip} {dt : Nat} {r : Resv}

/-- The one reservation whose mark has been reached takes the late action. -/
theorem lateConfirmMark_one (h : ((elapse dt m0).fire.resvs.filter fun r => (elapse dt m0).pastMark r.row r.cOpen) = [r]) :
    lateConfirmMark dt m0 = (elapse dt m0).lateAction r := by
  simp only [lateConfirmMark, h, forAll, List.foldl_cons, List.foldl_nil]

theorem lateConfirmMark_none (h : ((elapse dt m0).fire.resvs.filter fun r => (elapse dt m0).pastMark r.row r.cOpen) = []) :
    lateConfirmMark dt m0 = elapse dt m0 := by
  simp only [lateConfirmMark, h, forAll, List.foldl_nil]

end

/-- Settles O24: each clause is one branch of a command that brings verdicts or finds them missing; what such a command leaves in the
record buffer is what it has not taken (`inbox_taken`, `noticed_keeps`). -/
theorem verdictsAreTakenInOnce : Obligations.VerdictsAreTakenInOnce := by
  refine ⟨?_, ?_, ?_, ?_, ?_, ?_, ?_, ?_, ?_, ?_, ?_, ?_, ?_, ?_⟩
  · -- VERDICT_GROUP of a strip that expects it
    rintro s dt _ g c ⟨hup, rfl⟩ hrow hjob hk - hb hi ho
    exact does_unit (by simp [hrow, hjob]) hup (verdictGroup_taken hk hb hi ho)
  · -- VERDICT_GROUP: the record buffer
    rintro s dt _ g c ⟨hup, rfl⟩ hrow hjob hk - hb hi ho
    exact ⟨_, does_unit (by simp [hrow, hjob]) hup (verdictGroup_taken hk hb hi ho), rfl, inbox_taken ..⟩
  · -- VERDICT_GROUP that no strip expects
    rintro s dt _ g ⟨hup, rfl⟩ hrow hjob hk - hb hi ho
    exact does_unit (by simp [hrow, hjob]) hup (verdictGroup_unexpected hk hb hi ho)
  · -- VERDICT_GROUP that the link has not brought
    rintro s dt _ g ⟨hup, rfl⟩ hrow hjob - - h
    exact does_unit (by simp [hrow, hjob]) hup (verdictGroup_notBrought h)
  · -- OVERRUN_NOTICE of a strip that expects it
    rintro s dt _ job stream row strip closeBay c ⟨hup, rfl⟩ hrow hjob hb hi ho
    exact does_unit (by simp [hrow, hjob]) hup (overrunNotice_taken hb hi ho)
  · -- OVERRUN_NOTICE: the record buffer
    rintro s dt _ job stream row strip closeBay c ⟨hup, rfl⟩ hrow hjob hb hi ho
    exact ⟨_, does_unit (by simp [hrow, hjob]) hup (overrunNotice_taken hb hi ho), rfl, eq_fireinbox_Chip_takeNotice ..⟩
  · -- OVERRUN_NOTICE that no strip expects
    rintro s dt _ job stream row strip closeBay ⟨hup, rfl⟩ hrow hjob hb hi ho
    exact does_unit (by simp [hrow, hjob]) hup (overrunNotice_unexpected hb hi ho)
  · -- OVERRUN_NOTICE that the link has not brought
    rintro s dt _ job stream row strip closeBay ⟨hup, rfl⟩ hrow hjob h
    exact does_unit (by simp [hrow, hjob]) hup (overrunNotice_notBrought h)
  · -- VERDICT_DEADLINE
    rintro s dt _ _ ⟨hup, rfl⟩ hr hd ht hb rfl
    exact does_unit rfl hup (verdictDeadline_due hr hd ht hb)
  · -- VERDICT_DEADLINE: the bay and the record buffer
    rintro s dt _ ⟨hup, rfl⟩ hr hd ht hb
    obtain ⟨hbay, hinbox⟩ := noticed_keeps (elapse dt s.m)
    exact ⟨_, does_unit rfl hup (verdictDeadline_due hr hd ht hb), rfl, rfl, hbay, hinbox⟩
  · -- VERDICT_DEADLINE once more in the bay
    rintro s dt _ ⟨hup, rfl⟩ hd
    exact does_unit rfl hup (verdictDeadline_done hd)
  · -- LATE_CONFIRM_MARK: the reservation ends as late
    rintro s dt _ r ⟨hup, rfl⟩ h he
    obtain ⟨hresvs, hlate⟩ := late_spec _ r he
    exact ⟨_, does_unit rfl hup (lateConfirmMark_one h), rfl, hresvs, hlate⟩
  · -- LATE_CONFIRM_MARK
    rintro s dt _ r ⟨hup, rfl⟩ h
    exact does_unit rfl hup (lateConfirmMark_one h)
  · -- LATE_CONFIRM_MARK with no mark reached
    rintro s dt _ ⟨hup, rfl⟩ h
    exact does_unit rfl hup (lateConfirmMark_none h)

/-! ### The bay boundary (R25 to R27) -/

section
variable {m0 : Chip} {dt : Nat} (strobe : Option Nat)

theorem bayBoundary_due (hr : (elapse dt m0).bays.running = true)
    (ht : ((elapse dt m0).bay + 1) * (elapse dt m0).period ≤ (elapse dt m0).tb3) :
    bayBoundary dt strobe m0 = (elapse dt m0).boundary ((elapse dt m0).bay + 1) strobe := by
  simp only [bayBoundary, hr, ht, decide_true, Bool.and_self, if_true]

theorem bayBoundary_early (h : (elapse dt m0).bays.running = false ∨
    (elapse dt m0).tb3 < ((elapse dt m0).bay + 1) * (elapse dt m0).period) : bayBoundary dt strobe m0 = elapse dt m0 := by
  have hb : ¬ ((elapse dt m0).bays.running && decide (((elapse dt m0).bay + 1) * (elapse dt m0).period ≤ (elapse dt m0).tb3)) = true := by
    obtain h | h := h
    · rw [h, Bool.false_and]
      exact Bool.false_ne_true
    · rw [decide_eq_false (Nat.not_le.2 h), Bool.and_false]
      exact Bool.false_ne_true
  simp only [bayBoundary, if_neg hb]

end

/-- Settles O26: a boundary that is due is carried out (`bayBoundary_due`), and leaves what `boundary_spec` says. -/
theorem baysTurnAtTheirBoundaries : Obligations.BaysTurnAtTheirBoundaries := by
  refine ⟨?_, ?_, ?_⟩
  · -- the boundary
    rintro s dt _ strobe ⟨hup, rfl⟩ hr ht
    exact does_unit rfl hup (bayBoundary_due strobe hr ht)
  · -- what the new bay begins with
    rintro s dt _ strobe ⟨hup, rfl⟩ hr ht
    exact ⟨_, does_unit rfl hup (bayBoundary_due strobe hr ht), rfl, boundary_spec ..⟩
  · -- no boundary
    rintro s dt _ strobe ⟨hup, rfl⟩ h
    exact does_unit rfl hup (bayBoundary_early strobe h)

/-! ### The bents' commands that start (R32, R155, R166, R168, R171, R185) -/

section
variable {m0 : Chip} {dt n op : Nat} {c : CutEntry} {er : ReadErrs} {stall : Nat} {reads : Chip → Reads} {f : Chip → Running}

/-- A bent command starts in the module as it stands once its cycles have passed. -/
theorem bentCommand_starts_elapsed (hop : (elapse dt m0).descNum c.descPtr 1 = op) (hs : Starts (elapse dt m0) (.bent n) c) :
    bentCommand dt n op c er stall reads f m0 = started (elapse dt m0) (.bent n) c (bentWork n c er stall reads f) :=
  bentCommand_starts (m := elapse dt m0) er stall reads f hop hs

/-- A WINDOW command whose descriptor is of its kind is a bent command. -/
theorem windowCommand_starts {sub : Nat} {pl : CmdPlan} (hop : (elapse dt m0).descNum c.descPtr 1 = 5)
    (hs : Starts (elapse dt m0) (.bent n) c) (hsub : (m0.winDesc c.descPtr).sub = sub) :
    windowCommand dt n sub c pl f m0 =
      started (elapse dt m0) (.bent n) c (bentWork n c pl.errs pl.stall (fun x => x.windowReads n c pl) f) := by
  have hb : ¬ (m0.winDesc c.descPtr).sub ≠ sub := not_not_intro hsub
  simp only [windowCommand, if_neg hb, bentCommand_starts_elapsed hop hs]

/-- An undisturbed bent command that meets no error and no stall has begun what it makes of the module as it stands. -/
theorem begun_of_no_errs {m : Chip} (h : Undisturbed m (.bent n)) (he : er = {}) (hst : stall = 0) :
    Begun m (started m (.bent n) c (bentWork n c er stall reads f)) (.bent n) c (f m) := by
  subst he hst
  exact begun_bentWork c reads f h

end

/-- Settles O32: every bent command starts by `bentCommand_starts_elapsed` (a WINDOW command by `windowCommand_starts`), undisturbed it
has begun its work (`begun_of_no_errs`), and the integer sums are those of `matmul_int_writes` and `combine_int_writes`. -/
theorem bentCommandsStart : Obligations.BentCommandsStart := by
  refine ⟨?_, ?_, ?_, ?_, ?_, ?_, ?_, ?_, ?_, ?_, ?_, ?_, ?_, ?_, ?_, ?_⟩
  · -- MATMUL
    rintro s dt _ n c pl ⟨hup, rfl⟩ hn hop hs
    exact does_unit (decide_eq_true hn) hup (bentCommand_starts_elapsed hop hs)
  · -- MATMUL undisturbed
    rintro s dt _ n c pl ⟨hup, rfl⟩ hn hop hs hu he hst
    exact ⟨_, does_unit (decide_eq_true hn) hup (bentCommand_starts_elapsed hop hs), rfl, begun_of_no_errs hu he hst⟩
  · -- MATMUL of integers that writes partials
    rintro s dt _ n c pl d a b ⟨hup, rfl⟩ hn hop hs hu he hst hd hf hp hi hb hA hB
    exact ⟨_, _, does_unit (decide_eq_true hn) hup (bentCommand_starts_elapsed hop hs), rfl, begun_of_no_errs hu he hst,
      matmul_int_writes _ n c pl d a b hd hf hp hi hb (he ▸ hA) (he ▸ hB)⟩
  · -- COMBINE
    rintro s dt _ n c pl ⟨hup, rfl⟩ hn hop hs
    exact does_unit (decide_eq_true hn) hup (bentCommand_starts_elapsed hop hs)
  · -- COMBINE undisturbed
    rintro s dt _ n c pl ⟨hup, rfl⟩ hn hop hs hu he hst
    exact ⟨_, does_unit (decide_eq_true hn) hup (bentCommand_starts_elapsed hop hs), rfl, begun_of_no_errs hu he hst⟩
  · -- COMBINE of two integer partials
    rintro s dt _ n c pl d ⟨hup, rfl⟩ hn hop hs hu he hst hd hf hp hi hb
    refine ⟨_, _, does_unit (decide_eq_true hn) hup (bentCommand_starts_elapsed hop hs), rfl, begun_of_no_errs hu he hst, ?_⟩
    rw [combine_int_writes _ n c pl d hd hf hp hi hb, he]
  · -- VECTOR
    rintro s dt _ n c pl v ⟨hup, rfl⟩ hn hop hs
    exact does_unit (decide_eq_true hn) hup (bentCommand_starts_elapsed hop hs)
  · -- VECTOR undisturbed
    rintro s dt _ n c pl v ⟨hup, rfl⟩ hn hop hs hu he
    exact ⟨_, does_unit (decide_eq_true hn) hup (bentCommand_starts_elapsed hop hs), rfl, begun_of_no_errs hu he rfl⟩
  · -- WINDOW_CONV
    rintro s dt _ n c pl ⟨hup, rfl⟩ hn hop hs hsub
    exact does_unit (decide_eq_true hn) hup (windowCommand_starts hop hs hsub)
  · -- WINDOW_CONV undisturbed
    rintro s dt _ n c pl ⟨hup, rfl⟩ hn hop hs hsub hu he hst
    exact ⟨_, does_unit (decide_eq_true hn) hup (windowCommand_starts hop hs hsub), rfl, begun_of_no_errs hu he hst⟩
  · -- WINDOW_MAXPOOL
    rintro s dt _ n c pl ⟨hup, rfl⟩ hn hop hs hsub
    exact does_unit (decide_eq_true hn) hup (windowCommand_starts hop hs hsub)
  · -- WINDOW_MAXPOOL undisturbed
    rintro s dt _ n c pl ⟨hup, rfl⟩ hn hop hs hsub hu he hst
    exact ⟨_, does_unit (decide_eq_true hn) hup (windowCommand_starts hop hs hsub), rfl, begun_of_no_errs hu he hst⟩
  · -- WINDOW_AVGPOOL
    rintro s dt _ n c pl ⟨hup, rfl⟩ hn hop hs hsub
    exact does_unit (decide_eq_true hn) hup (windowCommand_starts hop hs hsub)
  · -- WINDOW_AVGPOOL undisturbed
    rintro s dt _ n c pl ⟨hup, rfl⟩ hn hop hs hsub hu he hst
    exact ⟨_, does_unit (decide_eq_true hn) hup (windowCommand_starts hop hs hsub), rfl, begun_of_no_errs hu he hst⟩
  · -- WINDOW_UPSAMPLE
    rintro s dt _ n c pl ⟨hup, rfl⟩ hn hop hs hsub
    exact does_unit (decide_eq_true hn) hup (windowCommand_starts hop hs hsub)
  · -- WINDOW_UPSAMPLE undisturbed
    rintro s dt _ n c pl ⟨hup, rfl⟩ hn hop hs hsub hu he hst
    exact ⟨_, does_unit (decide_eq_true hn) hup (windowCommand_starts hop hs hsub), rfl, begun_of_no_errs hu he hst⟩

/-! ### The commands that complete (R31, R57, R155), and the scrubbers (R248, R267) -/

/-- The results of a command that completes stand: its clears and writes in memory, its sum at the witness unit, and its semaphore is
signalled, but for a transfer, whose signal travels (R31). -/
def delivered (m : Chip) (e : Engine) (r : Running) : Chip :=
  if signalsHere e then ((m.commitWrites r).passMark r).signalOpt (m.signalHalf e r.entry) r.entry.signal
  else (m.commitWrites r).passMark r

/-- Engine `e` once its foreground command has completed: free, at its next entry, with the time left before the planned end released. -/
def freed (m : Chip) (e : Engine) (r : Running) : EngState :=
  { m.eng e with running := none, pos := (m.eng e).pos + 1, busy := (m.eng e).busy + (m.now - r.startedAt),
                 lastEnd := some m.coreCycle, released := decide (m.coreCycle < r.entry.plannedEnd) }

theorem delivered_here {m : Chip} {e : Engine} (r : Running) (h : signalsHere e = true) :
    delivered m e r = ((m.commitWrites r).passMark r).signalOpt (m.signalHalf e r.entry) r.entry.signal := if_pos h

theorem delivered_travels {m : Chip} {e : Engine} (r : Running) (h : signalsHere e = false) :
    delivered m e r = (m.commitWrites r).passMark r := if_neg (by simp [h])

/-- In memory a completed command leaves its clears and writes alone. -/
theorem delivered_mem (m : Chip) (e : Engine) (r : Running) : (delivered m e r).mem = (m.commitWrites r).mem := by
  unfold delivered
  split
  · exact marked_mem m r _
  · exact eq_mem_Chip_passMark r _

/-- Before the end of the bay a command completes once its flits are acknowledged. -/
theorem mayComplete {m : Chip} {e : Engine} (ho : m.tnOutstanding e = false) (ht : m.tb3 < (m.bay + 1) * m.period) :
    (m.tnOutstanding e || decide ((m.bay + 1) * m.period ≤ m.tb3)) = false := by
  rw [ho, Bool.false_or, decide_eq_false (Nat.not_le.2 ht)]

section
variable {m0 : Chip} {dt : Nat} {e : Engine} {r : Running}

/-- A foreground command completes before the end of its bay, once its flits are acknowledged. -/
theorem commandComplete_foreground (ho : (elapse dt m0).tnOutstanding e = false)
    (ht : (elapse dt m0).tb3 < ((elapse dt m0).bay + 1) * (elapse dt m0).period) (hr : ((elapse dt m0).eng e).running = some r) :
    commandComplete dt e false m0 =
      ((if r.entry.lastInBay then
          ((delivered (elapse dt m0) e r).setEng e (freed (elapse dt m0) e r)).noteMargin (elapse dt m0).coreCycle
        else (delivered (elapse dt m0) e r).setEng e (freed (elapse dt m0) e r)).countDone e r).showEng e := by
  simp only [commandComplete, mayComplete ho ht, hr, Bool.false_eq_true, if_false, Bool.not_false, Bool.and_true]
  rfl

/-- What a completed foreground command leaves of its engine and of memory. -/
theorem commandComplete_leaves (ho : (elapse dt m0).tnOutstanding e = false)
    (ht : (elapse dt m0).tb3 < ((elapse dt m0).bay + 1) * (elapse dt m0).period) (hr : ((elapse dt m0).eng e).running = some r) :
    (commandComplete dt e false m0).eng e = freed (elapse dt m0) e r ∧
      (commandComplete dt e false m0).mem = ((elapse dt m0).commitWrites r).mem := by
  rw [commandComplete_foreground ho ht hr]
  exact complete_spec _ _ e r _ (Nat.succ_ne_zero _) rfl (delivered_mem _ e r) _ _

/-- A background segment that completes delivers its results and advances its job. -/
theorem commandComplete_background (ho : (elapse dt m0).tnOutstanding e = false)
    (ht : (elapse dt m0).tb3 < ((elapse dt m0).bay + 1) * (elapse dt m0).period) (hr : ((elapse dt m0).eng e).bg = some r) :
    commandComplete dt e true m0 = (((delivered (elapse dt m0) e r).bgAdvance e r.entry.job
      (((elapse dt m0).eng e).busy + ((elapse dt m0).now - r.startedAt))).countDone e r).showEng e := by
  simp only [commandComplete, mayComplete ho ht, hr, Bool.false_eq_true, if_false, if_true, Bool.not_true, Bool.and_false]
  rfl

theorem commandComplete_none (h : (elapse dt m0).tnOutstanding e = true ∨
    ((elapse dt m0).bay + 1) * (elapse dt m0).period ≤ (elapse dt m0).tb3 ∨ ((elapse dt m0).eng e).running = none) :
    commandComplete dt e false m0 = elapse dt m0 := by
  have hn : (if (elapse dt m0).tnOutstanding e || decide (((elapse dt m0).bay + 1) * (elapse dt m0).period ≤ (elapse dt m0).tb3)
      then none else ((elapse dt m0).eng e).running) = none := by
    obtain h | h | h := h <;> simp [h]
  simp only [commandComplete, Bool.false_eq_true, if_false, hn]

end

theorem scrubLap_disabled {m0 : Chip} {dt n : Nat} (er : ReadErrs) (h : (elapse dt m0).flag (F.BENT_SRAM_CFG_scrub_en n) = false) :
    scrubLap dt n er m0 = elapse dt m0 := by
  simp only [scrubLap, h, Bool.not_false, if_true]

/-- Settles O35: a completion is `commandComplete_foreground` or `commandComplete_background`, with its results as `delivered` says for
an engine that signals here and for a transfer. -/
theorem commandsComplete : Obligations.CommandsComplete := by
  refine ⟨?_, ?_, ?_, ?_, ?_, ?_, ?_, ?_, ?_⟩
  · -- a foreground command that signals at completion
    rintro s dt _ e r _ _ ⟨hup, rfl⟩ he ho ht hr hs rfl rfl
    rw [← delivered_here r hs]
    exact does_unit he hup (commandComplete_foreground ho ht hr)
  · -- its engine and memory
    rintro s dt _ e r ⟨hup, rfl⟩ he ho ht hr -
    exact ⟨_, does_unit he hup rfl, rfl, commandComplete_leaves ho ht hr⟩
  · -- a transfer
    rintro s dt _ e r _ _ ⟨hup, rfl⟩ he ho ht hr hs rfl rfl
    rw [← delivered_travels r hs]
    exact does_unit he hup (commandComplete_foreground ho ht hr)
  · -- its engine and memory
    rintro s dt _ e r ⟨hup, rfl⟩ he ho ht hr -
    exact ⟨_, does_unit he hup rfl, rfl, commandComplete_leaves ho ht hr⟩
  · -- a background segment
    rintro s dt _ e r _ ⟨hup, rfl⟩ he ho ht hr hs rfl
    rw [← delivered_here r hs]
    exact does_unit he hup (commandComplete_background ho ht hr)
  · -- nothing completes
    rintro s dt _ e ⟨hup, rfl⟩ he h
    exact does_unit he hup (commandComplete_none h)
  · -- SCRUB_LAP
    rintro s dt _ n _ er _ _ _ ⟨hup, rfl⟩ hn hen rfl rfl rfl rfl
    exact does_unit (decide_eq_true hn) hup (by simp only [scrubLap, hen, Bool.not_true, Bool.false_eq_true, if_false])
  · -- SCRUB_LAP: the next lap
    rintro s dt _ n er ⟨hup, rfl⟩ hn hen hnow
    exact ⟨_, does_unit (decide_eq_true hn) hup rfl, rfl, scrubLap_eng dt n er s.m _ rfl hen hnow⟩
  · -- SCRUB_LAP of a scrubber that is not enabled
    rintro s dt _ n er ⟨hup, rfl⟩ hn hen
    exact does_unit (decide_eq_true hn) hup (scrubLap_disabled er hen)

/-! ### The bents' power, background time and segments (R35, R37, R44 to R46) -/

section
variable {m0 : Chip} {dt n : Nat} {c : CutEntry} {e : Engine}

theorem gate_due (hd : (elapse dt m0).powerDue (.bent n) c .gate = true) (hw : (elapse dt m0).windowOpen (.bent n) = false) :
    gate dt n c m0 = (((elapse dt m0).setEng (.bent n) { (elapse dt m0).eng (.bent n) with
      gated := true, wakeAt := none, acted := ((elapse dt m0).eng (.bent n)).acted ++ [c] }).showBent n).setDomain n false := by
  simp only [gate, hd, hw, Bool.not_true, Bool.false_eq_true, if_false]

theorem wake_due (hd : (elapse dt m0).powerDue (.bent n) c .wake = true) (hg : ((elapse dt m0).eng (.bent n)).gated = true) :
    wake dt n c m0 = (((elapse dt m0).setEng (.bent n) { (elapse dt m0).eng (.bent n) with
      gated := false, wakeAt := some (elapse dt m0).now,
      acted := ((elapse dt m0).eng (.bent n)).acted ++ [c] }).showBent n).setDomain n true := by
  simp only [wake, hd, hg, Bool.not_true, Bool.false_eq_true, if_false]

theorem backgroundWindow_due (hd : (elapse dt m0).powerDue e c .window = true) (hs : (elapse dt m0).sup.shedWindows = false) :
    backgroundWindow dt e c m0 = (elapse dt m0).setEng e { (elapse dt m0).eng e with
      windowEnd := some c.plannedEnd, acted := ((elapse dt m0).eng e).acted ++ [c] } := by
  simp only [backgroundWindow, hd, hs, Bool.not_true, Bool.false_eq_true, if_false]

end

section
variable {m0 : Chip} {dt limit j : Nat} {e : Engine} {w : SegWork} {rest : List Nat} {c : CutEntry}
variable (hl : (elapse dt m0).bgEnd e = some limit) (hj : (elapse dt m0).bgJobs e = j :: rest) (hb : ((elapse dt m0).eng e).bg = none)
  (hc : ((elapse dt m0).bgSegs e j)[tabGet 0 ((elapse dt m0).eng e).bgAt j]? = some c)
include hl hj hb hc

/-- The next segment fits, with its job's save, in the background time. -/
theorem backgroundSegment_fits
    (hf : (elapse dt m0).coreCycle + c.plannedEnd + (((elapse dt m0).jobRec j).map (·.saveCycles)).getD 0 ≤ limit) :
    backgroundSegment dt e w m0 = (elapse dt m0).startSeg e j limit c w := by
  simp only [backgroundSegment, hl, hj, hb, hc, Option.isSome_none, Bool.false_eq_true, if_false, if_pos hf]

theorem backgroundSegment_yields
    (hf : limit < (elapse dt m0).coreCycle + c.plannedEnd + (((elapse dt m0).jobRec j).map (·.saveCycles)).getD 0) :
    backgroundSegment dt e w m0 = (elapse dt m0).yieldBg e j (rest.headD j) := by
  simp only [backgroundSegment, hl, hj, hb, hc, Option.isSome_none, Bool.false_eq_true, if_false, if_neg (Nat.not_le.2 hf)]

end

/-- Engine `e` once its segment `r` is rolled back: the job goes back to its last saved point. -/
def rolledBack (m : Chip) (e : Engine) (r : Running) : EngState :=
  { m.eng e with bg := none, bgAt := tabSet 0 (m.eng e).bgAt r.entry.job (tabGet 0 (m.eng e).bgSaved r.entry.job),
                 busy := (m.eng e).busy + (m.now - r.startedAt) }

theorem rollBack_some {m : Chip} {e : Engine} {r : Running} (h : (m.eng e).bg = some r) :
    m.rollBack e = (((m.setEng e (rolledBack m e r)).bump R.RC_BG_ROLLBACK).setFlag F.RC_BAY_STAT_bg_rollback).showEng e := by
  simp only [Chip.rollBack, h]
  rfl

/-- A segment that has run a while leaves its engine as rolled back. -/
theorem rollBack_eng {m : Chip} {e : Engine} {r : Running} (h : (m.eng e).bg = some r) (ht : r.startedAt < m.now) :
    (m.rollBack e).eng e = rolledBack m e r := by
  rw [rollBack_some h, eng_of (eq_engs_Chip_showEng ..)]
  refine eng_set m e _ fun he => ?_
  have hbusy : (m.eng e).busy + (m.now - r.startedAt) = 0 := congrArg (·.busy) he
  omega

section
variable {m0 : Chip} {dt : Nat} {e : Engine} {r : Running}

theorem segmentRollback_outlived (hb : ((elapse dt m0).eng e).bg = some r) (h : r.limit ≤ (elapse dt m0).coreCycle ∨
    (elapse dt m0).sup.shedWindows = true ∨ ((elapse dt m0).eng e).running ≠ none) :
    segmentRollback dt e m0 = (elapse dt m0).rollBack e := by
  have hn : ((elapse dt m0).coreCycle < r.limit && !(elapse dt m0).sup.shedWindows && ((elapse dt m0).eng e).running.isNone) = false := by
    obtain h | h | h := h
    · rw [decide_eq_false (Nat.not_lt.2 h), Bool.false_and, Bool.false_and]
    · rw [h, Bool.not_true, Bool.and_false, Bool.false_and]
    · rw [Option.isNone_eq_false_iff.2 (Option.isSome_iff_ne_none.2 h), Bool.and_false]
  simp only [segmentRollback, hb, hn, Bool.false_eq_true, if_false]

theorem segmentRollback_within (hb : ((elapse dt m0).eng e).bg = some r) (hl : (elapse dt m0).coreCycle < r.limit)
    (hs : (elapse dt m0).sup.shedWindows = false) (hr : ((elapse dt m0).eng e).running = none) :
    segmentRollback dt e m0 = elapse dt m0 := by
  simp only [segmentRollback, hb, hl, hs, hr, decide_true, Bool.not_false, Option.isNone_none, Bool.and_self, if_true]

end

/-- Settles O36: each clause is one branch of a command (`jobCtrlWrite_…`, `gate_due`, `wake_due`, `backgroundWindow_due`,
`backgroundSegment_…`, `segmentRollback_…`), and what it leaves of the engine is the state that the branch sets. -/
theorem jobsPowerAndBackground : Obligations.JobsPowerAndBackground := by
  refine ⟨?_, ?_, ?_, ?_, ?_, ?_, ?_, ?_, ?_, ?_, ?_, ?_, ?_, ?_, ?_, ?_, ?_, ?_⟩
  · -- JOB_CTRL_WRITE refused
    rintro s dt _ j v ⟨hup, rfl⟩ hj he hv hc
    exact does_unit (decide_eq_true hj) hup (jobCtrlWrite_refused he hv hc)
  · -- JOB_CTRL_WRITE in time
    rintro s dt _ j v _ ⟨hup, rfl⟩ hj rfl h ht
    rw [← pendingOf_noLate]
    exact does_unit (decide_eq_true hj) hup (jobCtrlWrite_inTime h ht)
  · -- JOB_CTRL_WRITE too late for the next boundary
    rintro s dt _ j v _ ⟨hup, rfl⟩ hj rfl h hr ht
    exact does_unit (decide_eq_true hj) hup (jobCtrlWrite_late h hr ht)
  · -- JOB_CTRL_WRITE: the register
    rintro s dt _ j v ⟨hup, rfl⟩ hj hcanon h
    exact ⟨_, does_unit (decide_eq_true hj) hup (jobCtrlWrite_taken h), rfl, rd_ctrlTaken j v _ hcanon⟩
  · -- MARGIN_RESET
    rintro s dt _ ⟨hup, rfl⟩
    exact does_unit rfl hup rfl
  · -- MARGIN_RESET: the margin
    rintro s dt _ ⟨hup, rfl⟩
    exact ⟨_, does_unit rfl hup rfl, rfl, get_put_ne (elapse dt s.m) F.RC_SLACK_MIN_min_margin 0x3FFFFF (by decide) (by decide) (by decide)⟩
  · -- GATE
    rintro s dt _ n c ⟨hup, rfl⟩ hn hd hw
    exact does_unit (decide_eq_true hn) hup (gate_due hd hw)
  · -- GATE: the bent
    rintro s dt _ n c ⟨hup, rfl⟩ hn hd hw
    refine ⟨_, does_unit (decide_eq_true hn) hup (gate_due hd hw), rfl, ?_⟩
    dsimp only
    rw [gate_eng _ _ _ _ (by simp)]
    exact ⟨rfl, rfl⟩
  · -- WAKE
    rintro s dt _ n c ⟨hup, rfl⟩ hn hd hg
    exact does_unit (decide_eq_true hn) hup (wake_due hd hg)
  · -- WAKE: the bent
    rintro s dt _ n c ⟨hup, rfl⟩ hn hd hg
    refine ⟨_, does_unit (decide_eq_true hn) hup (wake_due hd hg), rfl, ?_⟩
    dsimp only
    rw [gate_eng _ _ _ _ (by simp)]
    exact ⟨rfl, rfl⟩
  · -- BACKGROUND_WINDOW
    rintro s dt _ e c ⟨hup, rfl⟩ he hd hs
    exact does_unit he hup (backgroundWindow_due hd hs)
  · -- BACKGROUND_WINDOW: the engine
    rintro s dt _ e c ⟨hup, rfl⟩ he hd hs
    refine ⟨_, does_unit he hup (backgroundWindow_due hd hs), rfl, ?_⟩
    dsimp only
    rw [eng_set _ _ _ fun h => by cases congrArg (·.windowEnd) h]
  · -- BACKGROUND_SEGMENT that fits
    rintro s dt _ e w limit j rest c ⟨hup, rfl⟩ he hl hj hb hc hf
    exact does_unit he hup (backgroundSegment_fits hl hj hb hc hf)
  · -- BACKGROUND_SEGMENT: the engine
    rintro s dt _ e w limit j rest c f ⟨hup, rfl⟩ he hl hj hb hc hf hw hhit
    exact ⟨_, does_unit he hup (backgroundSegment_fits hl hj hb hc hf), rfl, startSeg_eng _ e j limit c w f hw hhit⟩
  · -- BACKGROUND_SEGMENT that does not fit
    rintro s dt _ e w limit j rest c ⟨hup, rfl⟩ he hl hj hb hc hf
    exact does_unit he hup (backgroundSegment_yields hl hj hb hc hf)
  · -- SEGMENT_ROLLBACK
    rintro s dt _ e r ⟨hup, rfl⟩ he hb h
    exact does_unit he hup ((segmentRollback_outlived hb h).trans (rollBack_some hb))
  · -- SEGMENT_ROLLBACK: the engine
    rintro s dt _ e r ⟨hup, rfl⟩ he hb h ht
    refine ⟨_, does_unit he hup (segmentRollback_outlived hb h), rfl, ?_⟩
    dsimp only
    rw [rollBack_eng hb ht]
    exact ⟨rfl, rfl⟩
  · -- SEGMENT_ROLLBACK within its time
    rintro s dt _ e r ⟨hup, rfl⟩ he hb hl hs hr
    exact does_unit he hup (segmentRollback_within hb hl hs hr)

/-! ### The state after power-on reset (R475, R480, R482, R540) -/

/-- The tables of the module after power-on reset are in canonical form: the table of reset values is, and so it stays with the straps
written. -/
theorem canon_reset : Canon State.reset.m := ⟨tabWf_set 0 _ _ _ regReset_wf, rfl, rfl⟩

/-- Settles O48: the table of reset values is evaluated at the registers listed, and its form is `canon_reset`. -/
theorem resetLeavesTheModuleInSafe : Obligations.ResetLeavesTheModuleInSafe := by
  refine ⟨?_, rfl, rfl, rfl, rfl, rfl, ?_, ?_, canon_reset⟩
  · -- SAFE
    decide +kernel
  · -- TB0 is unset
    decide +kernel
  · -- the registers
    decide +kernel

end Sys2Proof.Proofs
end

section
/-!
PROOFS of the family 03_camera_links: bring-up, loss and power of the cameras; their triggers, lines and packets; their control channel, its
audit, and calibration capture.
-/
namespace Sys2Proof.Proofs
open Sys2Proof.Machine Sys2Proof.Laws

@[simp] theorem cam_bump (m : Chip) (a n : Nat) : (m.bump a).cam n = m.cam n := rfl
@[simp] theorem cam_emit (m : Chip) (e : Emit) (n : Nat) : (m.emit e).cam n = m.cam n := rfl

/-! ### Bring-up (R66 to R68) -/

section
variable {s : State} {dt : Nat} {m : Chip} {n : Nat} {c : CameraRec} (hm : Now s dt m) (hn : n < Config.links) (hc : m.camOf n = some c)
include hm hn hc

theorem cameraBringUp_down (r : CamReply) (h7 : 7 ≤ m.boot.step) (hb : m.camBlocked c = false) (hs : m.camState c = stDown)
    (hr : (m.cam n).restartAt = none) : Does (.cameraBringUp dt n r) s (m.beginBringUp c 1 false) := by
  obtain ⟨hup, rfl⟩ := hm
  refine does_unit (decide_eq_true hn) hup ?_
  have hgo : ¬ ((elapse dt s.m).boot.step < 7 ∨ (elapse dt s.m).camBlocked c = true) := by rw [hb]; simpa using h7
  have hdown : (elapse dt s.m).camState c = stDown ∧ ((elapse dt s.m).cam n).restartAt.isNone = true := ⟨hs, by rw [hr]; rfl⟩
  simp only [cameraBringUp, hc, if_neg hgo, if_pos hdown]

/-- Firmware goes on once every command of the present step is acknowledged. -/
theorem cameraBringUp_acked {r : CamReply} (h7 : 7 ≤ m.boot.step) (hb : m.camBlocked c = false) (hs : m.camState c = stConfiguring)
    (hk : ((m.cam n).ctrl.any fun k => k.sender == .bringUp) = false) (ha : r.acked = true) {x : Chip} (hx : m.bringUpNext c r = x) :
    Does (.cameraBringUp dt n r) s x := by
  obtain ⟨hup, rfl⟩ := hm
  refine does_unit (decide_eq_true hn) hup ?_
  have hgo : ¬ ((elapse dt s.m).boot.step < 7 ∨ (elapse dt s.m).camBlocked c = true) := by rw [hb]; simpa using h7
  have hdown : ¬ stConfiguring = stDown := by decide
  simp only [cameraBringUp, hc, if_neg hgo, hs, hdown, false_and, if_false, hk, ne_eq, not_true, Bool.false_eq_true, or_self, ha,
    Bool.not_true, hx]

/-- A poll whose time has come is sent, in place of the discovery read before it; its acknowledge begins step 3. -/
theorem discoveryPoll_first (acked : Bool) (hs : m.camState c = stDiscovering ∨ m.camState c = stPowering)
    (hp : (m.cam n).pollAt = none) :
    Does (.discoveryPoll dt n acked) s
      (let x := (((m.setCam n { m.cam n with pollAt := some m.now }).dropDiscovery c).sendCtrl c "discovery" [] .discovery).setCamState c
        stDiscovering
       if acked then (x.dropDiscovery c).readBootstrap c else x) := by
  obtain ⟨hup, rfl⟩ := hm
  refine does_unit (decide_eq_true hn) hup ?_
  have hst : ¬ ((elapse dt s.m).camState c ≠ stPowering ∧ (elapse dt s.m).camState c ≠ stDiscovering) := fun h => hs.elim h.2 h.1
  simp only [discoveryPoll, hc, hp, Bool.not_true, Bool.false_eq_true, or_false, if_neg hst]

theorem discoveryPoll_early (acked : Bool) {t : Nat} (hp : (m.cam n).pollAt = some t) (ht : m.now < t + 100000000) :
    Does (.discoveryPoll dt n acked) s m := by
  obtain ⟨hup, rfl⟩ := hm
  refine does_unit (decide_eq_true hn) hup ?_
  simp [discoveryPoll, hc, hp, ht]

theorem bringUpStepTimeout_past {t : Nat} (hl : m.stepLimit c = some t) (ht : t ≤ m.now) :
    Does (.bringUpStepTimeout dt n) s (m.bringUpFails c) := by
  obtain ⟨hup, rfl⟩ := hm
  refine does_unit (decide_eq_true hn) hup ?_
  simp only [bringUpStepTimeout, hc, hl, if_pos ht]

theorem bringUpRetry_due {t k : Nat} (hr : (m.cam n).restartAt = some t) (ht : t ≤ m.now) (hk : (m.cam n).restartFrom = k) :
    Does (.bringUpRetry dt n) s (m.beginBringUp c k (m.camState c != stMismatch)) := by
  obtain ⟨hup, rfl⟩ := hm
  refine does_unit (decide_eq_true hn) hup ?_
  simp only [bringUpRetry, hc, hr, if_pos ht, hk]

theorem bringUpRetry_early {t : Nat} (hr : (m.cam n).restartAt = some t) (ht : m.now < t) : Does (.bringUpRetry dt n) s m := by
  obtain ⟨hup, rfl⟩ := hm
  refine does_unit (decide_eq_true hn) hup ?_
  simp only [bringUpRetry, hc, hr, if_neg (Nat.not_le.2 ht)]

theorem reconnect_camera : Does (.reconnect dt n) s (m.beginBringUp c 3 true) := by
  obtain ⟨hup, rfl⟩ := hm
  refine does_unit (decide_eq_true hn) hup ?_
  simp only [reconnect, hc]

end

/-! What the camera answered decides how its bring-up goes on. -/

section
variable {m : Chip} {c : CameraRec} {r : CamReply}

theorem bringUpNext_identified (hp : (m.cam c.master).phase = 3) (hv : r.vendor = c.vendor) (hmo : r.model = c.model)
    (hr : r.revMajor = c.revMajor) : m.bringUpNext c r =
      forAll (camLinks c) (fun n m => m.sendCtrl c "read DeviceConnectionID" [n] .bringUp) (m.bringUpStep c 4 true) := by
  simp [Chip.bringUpNext, hp, hv, hmo, hr]

theorem bringUpNext_misidentified (hp : (m.cam c.master).phase = 3)
    (hd : r.vendor ≠ c.vendor ∨ r.model ≠ c.model ∨ r.revMajor ≠ c.revMajor) : m.bringUpNext c r = m.identMismatch c := by
  simp only [Chip.bringUpNext, hp, if_pos hd]

theorem bringUpNext_misordered (hp : (m.cam c.master).phase = 4) (ho : r.orderOk = false) : m.bringUpNext c r = m.identMismatch c := by
  simp [Chip.bringUpNext, hp, ho]

theorem bringUpNext_trained (hp : (m.cam c.master).phase = 5) (ht : r.trained = true) :
    m.bringUpNext c r = (m.setCam c.master { m.cam c.master with rate := c.rate }).writeRegs c 0 := by
  simp [Chip.bringUpNext, hp, ht]

theorem bringUpNext_untrained (hp : (m.cam c.master).phase = 5) (ht : r.trained = false) : m.bringUpNext c r = m.bringUpFails c := by
  simp [Chip.bringUpNext, hp, ht]

theorem bringUpNext_readBack {w : Nat × Nat} (hp : (m.cam c.master).phase = 6) (hw : c.regs[(m.cam c.master).regAt]? = some w)
    (hr : r.readBack = w.2) : m.bringUpNext c r = m.writeRegs c ((m.cam c.master).regAt + 1) := by
  simp [Chip.bringUpNext, hp, hw, hr]

theorem bringUpNext_counted (hp : (m.cam c.master).phase = 7) : m.bringUpNext c r = m.startAcq c r.counter := by
  simp only [Chip.bringUpNext, hp]

end

/-- An acknowledged discovery read begins step 3 at once. -/
theorem discovered_cam (m : Chip) (c : CameraRec) (v : CamState) (what : String) (st : Nat) :
    let y := ((((((m.setCam c.master v).dropDiscovery c).sendCtrl c what [] .discovery).setCamState c st).dropDiscovery c).readBootstrap c)
    (y.cam c.master).phase = 3 ∧ (y.cam c.master).stepAt = m.now := by
  intro y
  obtain ⟨hp, ha⟩ := readBootstrap_cam c
    (((((m.setCam c.master v).dropDiscovery c).sendCtrl c what [] .discovery).setCamState c st).dropDiscovery c)
  exact ⟨hp, ha.trans (now_of (eq_time_Chip_setCamState ..))⟩

/-! ### Loss and hold (R69, R86) -/

section
variable {s : State} {dt : Nat} {m : Chip} {link : Nat} {c : CameraRec} (hm : Now s dt m) (hl : link < Config.links)
include hm hl

theorem cameraLinkLost_streaming (hc : m.camOfLink link = some c)
    (hs : m.camState c = stStreaming ∨ m.camState c = stRejected ∨ m.camState c = stCapture) :
    Does (.cameraLinkLost dt link) s ((m.setFlag (F.CXP_LINK_STAT_link_lost link)).camLost c) := by
  obtain ⟨hup, rfl⟩ := hm
  refine does_unit (decide_eq_true hl) hup ?_
  simp only [cameraLinkLost, hc, if_pos hs]

theorem cameraLinkLost_bringUp (hc : m.camOfLink link = some c)
    (hs : m.camState c = stPowering ∨ m.camState c = stDiscovering ∨ m.camState c = stConfiguring ∨ m.camState c = stAwaiting) :
    Does (.cameraLinkLost dt link) s ((m.setFlag (F.CXP_LINK_STAT_link_lost link)).bringUpFails c) := by
  obtain ⟨hup, rfl⟩ := hm
  have hst : ¬ ((elapse dt s.m).camState c = stStreaming ∨ (elapse dt s.m).camState c = stRejected ∨
      (elapse dt s.m).camState c = stCapture) := by
    rcases hs with h | h | h | h <;> rw [h] <;> decide
  refine does_unit (decide_eq_true hl) hup ?_
  simp only [cameraLinkLost, hc, if_neg hst, if_pos hs]

theorem linkHold_on (hc : m.camOfLink link = some c) :
    Does (.linkHold dt link true) s (forAll (camLinks c) (fun n m => m.pocEnable n false)
      ((m.put (F.CXP_LINK_CTRL_link_hold link) 1).camDown c stHeld)) := by
  obtain ⟨hup, rfl⟩ := hm
  have hc1 : ((elapse dt s.m).put (F.CXP_LINK_CTRL_link_hold link) 1).camOfLink link = some c := hc
  refine does_unit (decide_eq_true hl) hup ?_
  simp only [linkHold, b2n, if_true, hc1]

theorem linkHold_off {x : Chip} (hx : x = m.put (F.CXP_LINK_CTRL_link_hold link) 0) (hc : m.camOfLink link = some c)
    (hh : x.camHeld c = false) (h7 : 7 ≤ m.boot.step)
    (ha : ((camLinks c).any fun n => x.get (F.CXP_LINK_STAT_state n) == stHeld) = true) :
    Does (.linkHold dt link false) s ((x.setCamState c stDown).beginBringUp c 1 false) := by
  obtain ⟨hup, rfl⟩ := hm
  subst hx
  have hc1 : ((elapse dt s.m).put (F.CXP_LINK_CTRL_link_hold link) 0).camOfLink link = some c := hc
  have hst : ¬ ((elapse dt s.m).put (F.CXP_LINK_CTRL_link_hold link) 0).boot.step < 7 := Nat.not_lt.2 h7
  refine does_unit (decide_eq_true hl) hup ?_
  simp only [linkHold, b2n, Bool.false_eq_true, if_false, hc1, hh, hst, or_self, ha, if_true]

end

/-! ### Power over CoaXPress (R70) -/

@[simp] theorem pocEnable_stick (m : Chip) (n : Nat) (on : Bool) : (m.pocEnable n on).stick = m.stick := by
  unfold Chip.pocEnable; split <;> rfl
@[simp] theorem pocEnable_time (m : Chip) (n : Nat) (on : Bool) : (m.pocEnable n on).time = m.time := by
  unfold Chip.pocEnable; split <;> rfl

/-- A link switched off by a fault: it shows poc_fault, and `l` are its faults of the last minute, this one included. -/
def switchedOff (m : Chip) (link : Nat) (l : List Nat) (locked : Bool) (off : Option Nat) : Chip :=
  let x := (m.pocEnable link false).setFlag (F.CXP_LINK_STAT_poc_fault link)
  x.setPoc link { x.poc link with faults := l, locked, offSince := off }

theorem camOfLink_of_stick {x y : Chip} (h : x.stick = y.stick) (n : Nat) : x.camOfLink n = y.camOfLink n := by
  unfold Chip.camOfLink; rw [h]

theorem switchedOff_stick (m : Chip) (link : Nat) (l : List Nat) (lk : Bool) (o : Option Nat) :
    (switchedOff m link l lk o).stick = m.stick := pocEnable_stick m link false
theorem switchedOff_now (m : Chip) (link : Nat) (l : List Nat) (lk : Bool) (o : Option Nat) :
    (switchedOff m link l lk o).now = m.now := now_of (pocEnable_time m link false)

/-- The state of a link's power after a fault, and after its camera is lost. -/
theorem switchedOff_poc {l : List Nat} (h : l ≠ []) (m : Chip) (link : Nat) (lk : Bool) (o : Option Nat) (c : CameraRec) :
    let p := ((switchedOff m link l lk o).camLost c).poc link
    p.faults = l ∧ p.locked = lk ∧ p.offSince = o :=
  pocFault_poc m link l lk o h _ (eq_pocs_Chip_camLost ..)

section
variable {s : State} {dt : Nat} {m : Chip} {link : Nat} {c : CameraRec} (hm : Now s dt m) (hl : link < Config.links)
include hm hl

/-- A fault of a powered link: the third in a minute locks it out. -/
theorem pocFault_powered {l : List Nat} (hpoc : m.flag (F.CXP_LINK_CFG_poc link) = true) (hon : (m.poc link).on = true)
    (hc : m.camOfLink link = some c) (hf : l = ((m.poc link).faults.filter fun t => decide (m.now < t + 60000000000)) ++ [m.now]) :
    Does (.pocFault dt link) s ((switchedOff m link l (decide (3 ≤ l.length)) (if decide (3 ≤ l.length) then none else some m.now)).camLost
      c) := by
  obtain ⟨hup, rfl⟩ := hm
  have hc1 := (camOfLink_of_stick (switchedOff_stick (elapse dt s.m) link l (decide (3 ≤ l.length))
    (if decide (3 ≤ l.length) then none else some (elapse dt s.m).now)) link).trans hc
  refine does_unit (decide_eq_true hl) hup ?_
  unfold switchedOff at hc1 ⊢
  simp only [pocFault, hpoc, hon, Bool.not_true, Bool.or_self, Bool.false_eq_true, if_false, ← hf, hc1]

theorem pocFault_again {l : List Nat} (hpoc : m.flag (F.CXP_LINK_CFG_poc link) = true) (hon : (m.poc link).on = true)
    (hc : m.camOfLink link = some c) (hf : l = ((m.poc link).faults.filter fun t => decide (m.now < t + 60000000000)) ++ [m.now])
    (h3 : l.length < 3) : Does (.pocFault dt link) s ((switchedOff m link l false (some m.now)).camLost c) := by
  have h := pocFault_powered hm hl hpoc hon hc hf
  rwa [decide_eq_false (Nat.not_le.2 h3)] at h

theorem pocFault_third {l : List Nat} (hpoc : m.flag (F.CXP_LINK_CFG_poc link) = true) (hon : (m.poc link).on = true)
    (hc : m.camOfLink link = some c) (hf : l = ((m.poc link).faults.filter fun t => decide (m.now < t + 60000000000)) ++ [m.now])
    (h3 : 3 ≤ l.length) : Does (.pocFault dt link) s ((switchedOff m link l true none).camLost c) := by
  have h := pocFault_powered hm hl hpoc hon hc hf
  rwa [decide_eq_true h3] at h

theorem pocReenable_due {t : Nat} (ho : (m.poc link).offSince = some t) (ht : t + 1000000000 ≤ m.now) (hc : m.camOfLink link = some c)
    (hh : m.camHeld c = false) :
    Does (.pocReenable dt link) s ((m.setPoc link { m.poc link with offSince := none }).pocEnable link true) := by
  obtain ⟨hup, rfl⟩ := hm
  have hc1 : ((elapse dt s.m).setPoc link { (elapse dt s.m).poc link with offSince := none }).camOfLink link = some c := hc
  have hh1 : ((elapse dt s.m).setPoc link { (elapse dt s.m).poc link with offSince := none }).camHeld c = false := hh
  refine does_unit (decide_eq_true hl) hup ?_
  simp only [pocReenable, ho, if_neg (Nat.not_lt.2 ht), hc1, hh1, Bool.false_eq_true, if_false]

theorem pocReenable_early {t : Nat} (ho : (m.poc link).offSince = some t) (ht : m.now < t + 1000000000) :
    Does (.pocReenable dt link) s m := by
  obtain ⟨hup, rfl⟩ := hm
  refine does_unit (decide_eq_true hl) hup ?_
  simp only [pocReenable, ho, if_pos ht]

theorem pocClear_locked {x : Chip} (hk : (m.poc link).locked = true)
    (hx : x = m.setPoc link { m.poc link with locked := false, faults := [], offSince := none }) (hc : m.camOfLink link = some c)
    (hh : m.camHeld c = false) : Does (.pocClear dt link) s ((x.setCamState c stDown).beginBringUp c 1 true) := by
  obtain ⟨hup, rfl⟩ := hm
  subst hx
  have hc1 : ((elapse dt s.m).setPoc link
      { (elapse dt s.m).poc link with locked := false, faults := [], offSince := none }).camOfLink link = some c := hc
  have hh1 : ((elapse dt s.m).setPoc link
      { (elapse dt s.m).poc link with locked := false, faults := [], offSince := none }).camHeld c = false := hh
  refine does_unit (decide_eq_true hl) hup ?_
  simp only [pocClear, hk, Bool.not_true, Bool.false_eq_true, if_false, hc1, hh1]

end

/-- Settles O28: each clause is one branch of a command (`cameraBringUp_…` with `bringUpNext_…`, `discoveryPoll_…`, `pocFault_…` and so
on), and what it leaves of the camera is said by the `…_cam` lemma of the operation. -/
theorem camerasComeUpAndGoDown : Obligations.CamerasComeUpAndGoDown := by
  refine ⟨?_, ?_, ?_, ?_, ?_, ?_, ?_, ?_, ?_, ?_, ?_, ?_, ?_, ?_, ?_, ?_, ?_, ?_, ?_, ?_, ?_, ?_, ?_, ?_, ?_, ?_, ?_, ?_, ?_, ?_, ?_, ?_, ?_,
    ?_, ?_, ?_, ?_, ?_, ?_, ?_⟩
  · -- CAMERA_BRING_UP of a camera that is down
    intro s dt m n c r hm hn hc h7 hb hs hr
    exact cameraBringUp_down hm hn hc r h7 hb hs hr
  · -- CAMERA_BRING_UP of a camera that is down: the camera
    intro s dt m n c r hm hn hc h7 hb hs hr h0
    obtain rfl := camOf_master hc
    exact ⟨_, cameraBringUp_down hm hn hc r h7 hb hs hr, rfl, begin1_cam c false m hb h0⟩
  · -- step 3, the identity is right
    intro s dt m n c r hm hn hc h7 hb hs hk ha hp hv hmo hr
    obtain rfl := camOf_master hc
    exact cameraBringUp_acked hm hn hc h7 hb hs hk ha (bringUpNext_identified hp hv hmo hr)
  · -- step 3, the identity is right: the camera
    intro s dt m n c r hm hn hc h7 hb hs hk ha hp hv hmo hr
    obtain rfl := camOf_master hc
    exact ⟨_, cameraBringUp_acked hm hn hc h7 hb hs hk ha (bringUpNext_identified hp hv hmo hr), rfl, connIds_cam c m⟩
  · -- step 3, another identity
    intro s dt m n c r hm hn hc h7 hb hs hk ha hp hd
    obtain rfl := camOf_master hc
    exact cameraBringUp_acked hm hn hc h7 hb hs hk ha (bringUpNext_misidentified hp hd)
  · -- step 3, another identity: the camera
    intro s dt m n c r hm hn hc h7 hb hs hk ha hp hd
    obtain rfl := camOf_master hc
    exact ⟨_, cameraBringUp_acked hm hn hc h7 hb hs hk ha (bringUpNext_misidentified hp hd), rfl, mismatch_cam c m⟩
  · -- step 4, another order
    intro s dt m n c r hm hn hc h7 hb hs hk ha hp ho
    obtain rfl := camOf_master hc
    exact cameraBringUp_acked hm hn hc h7 hb hs hk ha (bringUpNext_misordered hp ho)
  · -- step 5, the links train
    intro s dt m n c r hm hn hc h7 hb hs hk ha hp ht
    obtain rfl := camOf_master hc
    exact cameraBringUp_acked hm hn hc h7 hb hs hk ha (bringUpNext_trained hp ht)
  · -- step 6, the record reads back as written
    intro s dt m n c r w hm hn hc h7 hb hs hk ha hp hw hr
    obtain rfl := camOf_master hc
    exact cameraBringUp_acked hm hn hc h7 hb hs hk ha (bringUpNext_readBack hp hw hr)
  · -- step 5, the links do not train
    intro s dt m n c r hm hn hc h7 hb hs hk ha hp ht
    obtain rfl := camOf_master hc
    exact cameraBringUp_acked hm hn hc h7 hb hs hk ha (bringUpNext_untrained hp ht)
  · -- step 5, the links do not train: the camera
    intro s dt m n c r hm hn hc h7 hb hs hk ha hp ht
    obtain rfl := camOf_master hc
    exact ⟨_, cameraBringUp_acked hm hn hc h7 hb hs hk ha (bringUpNext_untrained hp ht), rfl, fails_cam c m⟩
  · -- the counter is read, acquisition starts
    intro s dt m n c r hm hn hc h7 hb hs hk ha hp
    obtain rfl := camOf_master hc
    exact cameraBringUp_acked hm hn hc h7 hb hs hk ha (bringUpNext_counted hp)
  · -- the counter is read, acquisition starts: the camera
    intro s dt m n c r hm hn hc h7 hb hs hk ha hp
    obtain rfl := camOf_master hc
    obtain ⟨hsent, hmatched, hbase, hfirst, hstep, -⟩ := startAcq_cam c r.counter m
    exact ⟨_, cameraBringUp_acked hm hn hc h7 hb hs hk ha (bringUpNext_counted hp), rfl, hsent, hmatched, hbase, hfirst, hstep⟩
  · -- DISCOVERY_POLL without an acknowledge
    intro s dt m n c hm hn hc hs hp
    obtain rfl := camOf_master hc
    exact ⟨_, discoveryPoll_first hm hn hc false hs hp, rfl, poll_cam c m⟩
  · -- DISCOVERY_POLL that is acknowledged
    intro s dt m n c hm hn hc hs hp
    exact discoveryPoll_first hm hn hc true hs hp
  · -- DISCOVERY_POLL that is acknowledged: the camera
    intro s dt m n c hm hn hc hs hp
    obtain rfl := camOf_master hc
    exact ⟨_, discoveryPoll_first hm hn hc true hs hp, rfl, discovered_cam m c _ _ _⟩
  · -- DISCOVERY_POLL before its time
    intro s dt m n c acked t hm hn hc _ hp ht
    exact discoveryPoll_early hm hn hc acked hp ht
  · -- BRING_UP_STEP_TIMEOUT
    intro s dt m n t c hm hn hc hl ht
    exact bringUpStepTimeout_past hm hn hc hl ht
  · -- BRING_UP_STEP_TIMEOUT: the camera
    intro s dt m n t c hm hn hc hl ht
    obtain rfl := camOf_master hc
    exact ⟨_, bringUpStepTimeout_past hm hn hc hl ht, rfl, fails_cam c m⟩
  · -- BRING_UP_RETRY
    intro s dt m n t c hm hn hc hr ht
    exact bringUpRetry_due hm hn hc hr ht rfl
  · -- BRING_UP_RETRY from step 3: the camera
    intro s dt m n t c hm hn hc hr ht hb hf
    obtain rfl := camOf_master hc
    exact ⟨_, bringUpRetry_due hm hn hc hr ht hf, rfl, begin3_cam c _ m hb⟩
  · -- BRING_UP_RETRY before its time
    intro s dt m n t c hm hn hc hr ht
    exact bringUpRetry_early hm hn hc hr ht
  · -- CAMERA_LINK_LOST of a camera that streams
    intro s dt m link c hm hl hc hs
    exact cameraLinkLost_streaming hm hl hc hs
  · -- CAMERA_LINK_LOST of a camera that streams: the camera
    intro s dt m link c hm hl hc hs
    exact ⟨_, cameraLinkLost_streaming hm hl hc hs, rfl, lost_cam c _⟩
  · -- CAMERA_LINK_LOST in bring-up
    intro s dt m link c hm hl hc hs
    exact cameraLinkLost_bringUp hm hl hc hs
  · -- CAMERA_LINK_LOST in bring-up: the camera
    intro s dt m link c hm hl hc hs
    exact ⟨_, cameraLinkLost_bringUp hm hl hc hs, rfl, fails_cam c _⟩
  · -- RECONNECT
    intro s dt m n c hm hn hc
    exact reconnect_camera hm hn hc
  · -- RECONNECT: the camera
    intro s dt m n c hm hn hc hb
    obtain rfl := camOf_master hc
    exact ⟨_, reconnect_camera hm hn hc, rfl, begin3_cam c true m hb⟩
  · -- LINK_HOLD that holds
    intro s dt m link c hm hl hc
    exact linkHold_on hm hl hc
  · -- LINK_HOLD that holds: the power switch
    intro s dt m link c hm hl hc ⟨hon, hlinks⟩
    exact ⟨_, linkHold_on hm hl hc, rfl, held_pin c _ hlinks hon⟩
  · -- LINK_HOLD that ends
    intro s dt m link c x hm hl hx hc hh h7 ha
    exact linkHold_off hm hl hx hc hh h7 ha
  · -- POC_FAULT, the first or second in a minute
    intro s dt m link c l hm hl hpoc hon hc hf h3
    exact pocFault_again hm hl hpoc hon hc hf h3
  · -- POC_FAULT, the first or second in a minute: the link and its camera
    intro s dt m link c l hm hl hpoc hon hc hf h3
    have hne : l ≠ [] := by rw [hf]; exact List.concat_ne_nil _ _
    obtain ⟨hfaults, hlocked, hoff⟩ := switchedOff_poc hne m link false (some m.now) c
    refine ⟨_, pocFault_again hm hl hpoc hon hc hf h3, rfl, hfaults, hlocked, hoff, (lost_cam c _).1.trans ?_⟩
    rw [switchedOff_now]
  · -- POC_FAULT, the third in a minute
    intro s dt m link c l hm hl hpoc hon hc hf h3
    exact pocFault_third hm hl hpoc hon hc hf h3
  · -- POC_FAULT, the third in a minute: the link
    intro s dt m link c l hm hl hpoc hon hc hf h3
    have hne : l ≠ [] := by rw [hf]; exact List.concat_ne_nil _ _
    exact ⟨_, pocFault_third hm hl hpoc hon hc hf h3, rfl, switchedOff_poc hne m link true none c⟩
  · -- POC_REENABLE
    intro s dt m link t c hm hl ho ht hc hh
    exact pocReenable_due hm hl ho ht hc hh
  · -- POC_REENABLE: the link
    intro s dt m link t c hm hl ho ht hc hh hp
    exact ⟨_, pocReenable_due hm hl ho ht hc hh, rfl, reenable_poc m link hp⟩
  · -- POC_REENABLE before its time
    intro s dt m link t hm hl ho ht
    exact pocReenable_early hm hl ho ht
  · -- POC_CLEAR
    intro s dt m link c x hm hl hk hx hc hh
    exact pocClear_locked hm hl hk hx hc hh
  · -- POC_CLEAR: the camera
    intro s dt m link c x hm hl hk hx hc hh ⟨hb, h0⟩
    have hnow : (x.setCamState c stDown).now = m.now := by rw [now_of (eq_time_Chip_setCamState ..), hx]; rfl
    exact ⟨_, pocClear_locked hm hl hk hx hc hh, rfl, hnow ▸ begin1_cam c true _ hb (hnow ▸ h0)⟩

/-! ### Triggers (R71 to R75) -/

section
variable {s : State} {dt : Nat} {m : Chip} {n : Nat} {c : CameraRec} (hm : Now s dt m) (hn : n < Config.links) (hc : m.camOf n = some c)
include hm hn hc

theorem triggerDue_notReached (io : LineIo) (h : m.encBarred (m.get (F.CXP_TRIG_CFG_enc_port n)) = true ∨
    m.encPos (m.get (F.CXP_TRIG_CFG_enc_port n)) < m.nextTrigger c * 65536) : Does (.triggerDue dt n io) s m := by
  obtain ⟨hup, rfl⟩ := hm
  refine does_unit (decide_eq_true hn) hup ?_
  simp only [triggerDue, hc, Bool.or_eq_true, decide_eq_true_eq, if_pos h]

section
variable (io : LineIo) {cnt : Int} (hcnt : cnt = m.nextTrigger c) (hb : m.encBarred (m.get (F.CXP_TRIG_CFG_enc_port n)) = false)
  (hp : cnt * 65536 ≤ m.encPos (m.get (F.CXP_TRIG_CFG_enc_port n)))
include hcnt hb hp

theorem triggerDue_reached {idx : Nat} {x : Chip} (h7 : 7 ≤ m.boot.step) (hx : x = m.setCam n { m.cam n with highest := cnt })
    (hi : idx = ((cnt - m.get (F.CXP_TRIG_PHASE_phase n)).fdiv (max 1 (m.get (F.CXP_TRIG_CFG_divider n)))).toNat) :
    Does (.triggerDue dt n io) s (x.linePaced (m.camGang c) io (Chip.trigger c idx cnt)) := by
  obtain ⟨hup, rfl⟩ := hm
  refine does_unit (decide_eq_true hn) hup ?_
  subst hcnt hx hi
  simp only [triggerDue, hc, hb, decide_eq_false (Int.not_lt.2 hp), Bool.or_self, Bool.false_eq_true, if_false, if_neg (Nat.not_lt.2 h7)]

/-- Before step 7 of a cold start a trigger only advances the highest count. -/
theorem triggerDue_starting (h7 : m.boot.step < 7) : Does (.triggerDue dt n io) s (m.setCam n { m.cam n with highest := cnt }) := by
  obtain ⟨hup, rfl⟩ := hm
  refine does_unit (decide_eq_true hn) hup ?_
  subst hcnt
  simp only [triggerDue, hc, hb, decide_eq_false (Int.not_lt.2 hp), Bool.or_self, Bool.false_eq_true, if_false, if_pos h7]

end

theorem lineTimeout_paced (io : LineIo) : Does (.lineTimeout dt n io) s (m.linePaced (m.camGang c) io (Chip.expireSlots c)) := by
  obtain ⟨hup, rfl⟩ := hm
  refine does_unit (decide_eq_true hn) hup ?_
  simp only [lineTimeout, hc]

/-! ### Lines (R75, R76, R84) -/

theorem lineComplete_paced (d : List Nat) (io : LineIo) (hs : m.camState c ≠ stCapture) :
    Does (.lineComplete dt n d io) s (m.linePaced (m.camGang c) io fun m => (m.expireSlots c).matchLine c d) := by
  obtain ⟨hup, rfl⟩ := hm
  refine does_unit (decide_eq_true hn) hup ?_
  simp only [lineComplete, hc, if_neg hs]

theorem lineComplete_captured (d : List Nat) (io : LineIo) (hs : m.camState c = stCapture) :
    Does (.lineComplete dt n d io) s (m.captureLine c d) := by
  obtain ⟨hup, rfl⟩ := hm
  refine does_unit (decide_eq_true hn) hup ?_
  simp only [lineComplete, hc, if_pos hs]

end

theorem lineComplete_noCamera {s : State} {dt : Nat} {m : Chip} {n : Nat} (hm : Now s dt m) (hn : n < Config.links)
    (hc : m.camOf n = none) (d : List Nat) (io : LineIo) : Does (.lineComplete dt n d io) s m := by
  obtain ⟨hup, rfl⟩ := hm
  refine does_unit (decide_eq_true hn) hup ?_
  simp only [lineComplete, hc]

section
variable {m : Chip} {c : CameraRec} (d : List Nat)

theorem matchLine_noSlot (h : (m.cam c.master).slots = []) :
    m.matchLine c d = (m.setFlag (F.CXP_LINK_STAT_unsolicited c.master)).bump (R.CXP_CNT_UNSOL c.master) := by
  simp only [Chip.matchLine, h, Chip.unsolicited]

theorem matchLine_late {u : TrigSlot} {r : List TrigSlot} (h : (m.cam c.master).slots = u :: r) (hp : u.pending = false)
    (hq : u.quiet = false) :
    m.matchLine c d = ((m.setCam c.master { m.cam c.master with slots := r, matched := (m.cam c.master).matched + 1 }).setFlag
      (F.CXP_LINK_STAT_late_drop c.master)).bump (R.CXP_CNT_LATE c.master) := by
  simp only [Chip.matchLine, h, hp, hq, Bool.not_false, Bool.false_eq_true, if_true, if_false]

theorem matchLine_taken {u : TrigSlot} {r : List TrigSlot} {x : Chip} {l : InLine} (h : (m.cam c.master).slots = u :: r)
    (hp : u.pending = true) (hs : m.camState c ≠ stRejected)
    (hx : x = m.setCam c.master { m.cam c.master with slots := r, matched := (m.cam c.master).matched + 1 })
    (hl : l = { idx := u.idx, count := u.count, tb3 := u.tb3, got := true, bits := c.bits,
                samples := some (d.take (c.width * c.planes)) }) :
    m.matchLine c d = (x.writeLineRec c l).pipeLine (x.camGang c) l := by
  subst hx hl
  simp only [Chip.matchLine, h, hp, Bool.not_true, Bool.false_eq_true, if_false, if_neg hs]

end

/-! ### Stream packets (R79) -/

section
variable {s : State} {dt : Nat} {m : Chip} {k : StreamPkt} {c : CameraRec} (hm : Now s dt m) (hn : k.link < Config.links)
  (hc : m.camOfLink k.link = some c)
  (hs : m.camState c = stAwaiting ∨ m.camState c = stStreaming ∨ m.camState c = stRejected ∨ m.camState c = stCapture)
include hm hn hc hs

omit hm hn hc in
/-- A camera that awaits its header, streams, is rejected or is in capture takes packets. -/
theorem takesPackets : ¬ (m.camState c ≠ stAwaiting ∧ m.camState c ≠ stStreaming ∧ m.camState c ≠ stRejected ∧
    m.camState c ≠ stCapture) := by
  rintro ⟨h1, h2, h3, h4⟩
  exact hs.elim h1 fun hs => hs.elim h2 fun hs => hs.elim h3 h4

theorem streamPacket_badCrc (hk : k.crcOk = false) :
    Does (.streamPacket dt k) s (((m.setFlag (F.CXP_LINK_STAT_crc_err k.link)).bump (R.CXP_CNT_CRC k.link)).linesLost c k.lost) := by
  have hst := takesPackets hs
  obtain ⟨hup, rfl⟩ := hm
  refine does_unit (decide_eq_true hn) hup ?_
  simp only [streamPacket, hc, if_neg hst, hk, Bool.not_false, if_true]

variable (hk : k.crcOk = true)
include hk

theorem streamPacket_badId (hi : k.idOk = false) :
    Does (.streamPacket dt k) s ((m.setFlag (F.CXP_LINK_STAT_unsolicited k.link)).bump (R.CXP_CNT_UNSOL k.link)) := by
  have hst := takesPackets hs
  obtain ⟨hup, rfl⟩ := hm
  refine does_unit (decide_eq_true hn) hup ?_
  simp only [streamPacket, hc, if_neg hst, hk, hi, Bool.not_true, Bool.not_false, Bool.false_eq_true, if_false, if_true, Chip.unsolicited]

theorem streamPacket_repeated (hi : k.idOk = true)
    (ht : tagStep (decide (1 < c.links)) (m.cam c.master).tagNext (m.cam c.master).ahead (m.cam c.master).seen (k.tag % 256) k.skip =
      none) :
    Does (.streamPacket dt k) s ((m.setFlag (F.CXP_LINK_STAT_dup_tag k.link)).bump (R.CXP_CNT_DUP k.link)) := by
  have hst := takesPackets hs
  obtain ⟨hup, rfl⟩ := hm
  refine does_unit (decide_eq_true hn) hup ?_
  simp only [streamPacket, hc, if_neg hst, hk, hi, Bool.not_true, Bool.false_eq_true, if_false, ht]

/-- A packet of samples alone that is in order is counted, and the next tag is expected. -/
theorem streamPacket_inOrder {q : Nat} {l : List Nat} (hi : k.idOk = true)
    (ht : tagStep (decide (1 < c.links)) (m.cam c.master).tagNext (m.cam c.master).ahead (m.cam c.master).seen (k.tag % 256) k.skip =
      some (q, l, false, false)) (hh : k.header = none) (hz : k.lineSize = none) (he : k.event = false) :
    Does (.streamPacket dt k) s ((m.setCam c.master
      { m.cam c.master with lineTime := k.lineTime.orElse fun _ => (m.cam c.master).lineTime, tagNext := some q, ahead := l,
                            seen := tagsSeen q (k.tag % 256) (m.cam c.master).seen }).bump (R.CXP_CNT_PKT k.link)) := by
  have hst := takesPackets hs
  obtain ⟨hup, rfl⟩ := hm
  refine does_unit (decide_eq_true hn) hup ?_
  simp only [streamPacket, hc, if_neg hst, hk, hi, Bool.not_true, Bool.false_eq_true, if_false, ht, hh, hz, he]
  rfl

end

/-- Settles O29: each clause is one branch of a command or of what it does to the slots (`triggerDue_…`, `trigger_…`, `lineComplete_…`,
`matchLine_…`, `streamPacket_…`), and what it leaves of the camera is said by the `…_cam` lemma of the operation. -/
theorem triggersAndLinesOfACamera : Obligations.TriggersAndLinesOfACamera := by
  refine ⟨?_, ?_, trigger_sent, trigger_early, trigger_void, ?_, ?_, ?_, ?_, ?_, ?_, ?_, ?_, ?_, ?_, ?_, ?_, ?_, ?_, ?_, ?_, ?_, ?_⟩
  · -- TRIGGER_DUE whose count is not reached
    rintro s dt m n c _ io hm hn hc rfl h
    exact triggerDue_notReached hm hn hc io h
  · -- TRIGGER_DUE
    intro s dt m n idx c cnt io x hm hn hc hcnt hb hp h7 hx hi
    exact triggerDue_reached hm hn hc io hcnt hb hp h7 hx hi
  · -- TRIGGER_DUE that is sent: the camera
    intro s dt m n idx c cnt io x hm hn hc hcnt hb hp h7 hx hi hcanon hs hgap hio hlen hdrop hne
    obtain rfl := camOf_master hc
    have hcam := cam_setCam m c.master _ hne
    obtain ⟨d, hd, he⟩ := triggerDue_cam c (m.camGang c) io idx cnt (m.setCam c.master { m.cam c.master with highest := cnt }) hcanon hs hn
      (by rw [hcam]; exact hgap) hio (by rw [hcam]; exact hlen) (by rw [hcam]; exact hdrop)
    refine ⟨_, triggerDue_reached hm hn hc io hcnt hb hp h7 hx hi, rfl, d, hd, ?_⟩
    rw [hcam] at he
    exact hx ▸ he
  · -- TRIGGER_DUE within the minimum interval: the camera
    intro s dt m n idx t0 c cnt io x hm hn hc hcnt hb hp h7 hx hi hcanon hs hlast hgap hio hne
    obtain rfl := camOf_master hc
    have hcam := cam_setCam m c.master _ hne
    obtain ⟨hslots, hl⟩ := early_cam c (m.camGang c) io idx t0 cnt (m.setCam c.master { m.cam c.master with highest := cnt }) hcanon hs hn
      (by rw [hcam]; exact hlast) hgap hio
    rw [hcam] at hslots hl
    exact ⟨_, triggerDue_reached hm hn hc io hcnt hb hp h7 hx hi, rfl, hx ▸ hslots, hx ▸ hl.trans hlast⟩
  · -- TRIGGER_DUE before step 7
    intro s dt m n c cnt io hm hn hc hcnt hb hp h7
    exact triggerDue_starting hm hn hc io hcnt hb hp h7
  · -- LINE_TIMEOUT
    intro s dt m n c io hm hn hc
    exact lineTimeout_paced hm hn hc io
  · -- the slots past the time-out
    rintro m c _ rfl
    rfl
  · -- LINE_TIMEOUT: the camera
    intro s dt m n c io hm hn hc hcanon hio hslots
    obtain rfl := camOf_master hc
    exact ⟨_, lineTimeout_paced hm hn hc io, rfl, lineTimeout_cam c _ io m hcanon hn hio hslots⟩
  · -- LINE_COMPLETE of a link without a camera
    intro s dt m n d io hm hn hc
    exact lineComplete_noCamera hm hn hc d io
  · -- LINE_COMPLETE
    intro s dt m n c d io hm hn hc hs
    exact lineComplete_paced hm hn hc d io hs
  · -- LINE_COMPLETE: the camera
    intro s dt m n c d io hm hn hc hs hslots
    obtain rfl := camOf_master hc
    exact ⟨_, lineComplete_paced hm hn hc d io hs, rfl, lineTaken_cam c _ io d m hslots⟩
  · -- a line without a slot
    intro m c d h
    exact matchLine_noSlot d h
  · -- a line whose slot is void
    intro m c d u r h hp hq
    exact matchLine_late d h hp hq
  · -- a line whose slot is pending
    intro m x c d u r l h hp hs hx hl
    exact matchLine_taken d h hp hs hx hl
  · -- LINE_COMPLETE in calibration capture
    intro s dt m n c d io k hm hn hc hs hk hrej hleft
    obtain rfl := camOf_master hc
    exact ⟨_, lineComplete_captured hm hn hc d io hs, rfl, capture_cam c d m k hk hrej hleft⟩
  · -- STREAM_PACKET with a wrong CRC
    intro s dt m k c hm hn hc hs hk
    exact streamPacket_badCrc hm hn hc hs hk
  · -- STREAM_PACKET with a wrong identity
    intro s dt m k c hm hn hc hs hk hi
    exact streamPacket_badId hm hn hc hs hk hi
  · -- STREAM_PACKET with a repeated tag
    intro s dt m k c hm hn hc hs hk hi ht
    exact streamPacket_repeated hm hn hc hs hk hi ht
  · -- STREAM_PACKET in order
    intro s dt m k c q l hm hn hc hs hk hi ht hh hz he
    exact streamPacket_inOrder hm hn hc hs hk hi ht hh hz he
  · -- STREAM_PACKET in order: the camera
    intro s dt m k c q l hm hn hc hs hk hi ht hh hz he
    refine ⟨_, streamPacket_inOrder hm hn hc hs hk hi ht hh hz he, rfl, ?_⟩
    dsimp only
    rw [cam_bump, cam_setCam _ _ _ (by intro h; cases congrArg (·.tagNext) h)]
    exact ⟨rfl, rfl⟩

/-! ### The control channel (R82, R83) -/

section
variable {s : State} {dt : Nat} {m : Chip} {n : Nat} {c : CameraRec} {k : CtrlCmd} (hm : Now s dt m) (hn : n < Config.links)
include hm hn

section
variable {tag : Nat} (v : Nat)

theorem controlAck_unsolicited (hk : ((m.cam n).ctrl.find? fun c => c.tag == tag) = none) :
    Does (.controlAck dt n tag v) s ((m.setFlag (F.CXP_LINK_STAT_unsolicited n)).bump (R.CXP_CNT_UNSOL n)) := by
  obtain ⟨hup, rfl⟩ := hm
  refine does_unit (decide_eq_true hn) hup ?_
  simp only [controlAck, hk, Chip.unsolicited]

variable (hc : m.camOf n = some c) (hk : ((m.cam n).ctrl.find? fun c => c.tag == tag) = some k)
include hc hk

theorem controlAck_bringUp (hs : k.sender = .bringUp) :
    Does (.controlAck dt n tag v) s (m.setCam n { m.cam n with ctrl := (m.cam n).ctrl.erase k }) := by
  obtain ⟨hup, rfl⟩ := hm
  refine does_unit (decide_eq_true hn) hup ?_
  simp only [controlAck, hk, hc, hs]

theorem controlAck_maintainer (hs : k.sender = .maintainer) :
    Does (.controlAck dt n tag v) s ((m.setCam n { m.cam n with ctrl := (m.cam n).ctrl.erase k }).emit
      (.send "service" n "camera value" [tag, v])) := by
  obtain ⟨hup, rfl⟩ := hm
  refine does_unit (decide_eq_true hn) hup ?_
  simp only [controlAck, hk, hc, hs]

theorem controlAck_audit (hs : k.sender = .audit) :
    Does (.controlAck dt n tag v) s ((m.setCam n { m.cam n with ctrl := (m.cam n).ctrl.erase k }).auditAck c v) := by
  obtain ⟨hup, rfl⟩ := hm
  refine does_unit (decide_eq_true hn) hup ?_
  simp only [controlAck, hk, hc, hs]

theorem controlAck_discovery (hs : k.sender = .discovery) (hd : m.camState c = stDiscovering) :
    Does (.controlAck dt n tag v) s ((m.setCam n { m.cam n with ctrl := (m.cam n).ctrl.erase k }).readBootstrap c) := by
  obtain ⟨hup, rfl⟩ := hm
  have hd1 : ((elapse dt s.m).setCam n { (elapse dt s.m).cam n with ctrl := ((elapse dt s.m).cam n).ctrl.erase k }).camState c =
      stDiscovering := hd
  refine does_unit (decide_eq_true hn) hup ?_
  simp only [controlAck, hk, hc, hs, if_pos hd1]

end

section
variable (hc : m.camOf n = some c) (hk : (m.cam n).ctrl = [k])
include hc hk

/-- A command without acknowledge is sent again with its tag. -/
theorem controlResend_again (hs : k.sender ≠ .discovery) (ht : k.sentAt + 50000000 ≤ m.now) (hr : k.resends < 3) :
    Does (.controlResend dt n) s ((m.setCam n { m.cam n with ctrl := [{ k with resends := k.resends + 1, sentAt := m.now }] }).emit
      (.send "cxp" n "resend" [k.tag])) := by
  obtain ⟨hup, rfl⟩ := hm
  refine does_unit (decide_eq_true hn) hup ?_
  simp [controlResend, hc, hk, hs, ht, hr, Nat.not_le.2 hr, forAll, Chip.ctrlDead]

/-- A command of bring-up without acknowledge after its third resend fails the step. -/
theorem controlResend_failed (hs : k.sender = .bringUp) (ht : k.sentAt + 50000000 ≤ m.now) (hr : 3 ≤ k.resends)
    (hst : m.camState c = stConfiguring) (hcanon : Canon m) :
    Does (.controlResend dt n) s (((m.setCam n { m.cam n with ctrl := [] }).setFlag (F.CXP_LINK_STAT_ctrl_timeout n)).bringUpFails c) := by
  obtain rfl := camOf_master hc
  have hd := dead_one c m k hcanon hs hr hst
  obtain ⟨hup, rfl⟩ := hm
  refine does_unit (decide_eq_true hn) hup (Eq.trans ?_ hd)
  simp [controlResend, hc, hk, hs, ht, hr, Nat.not_lt.2 hr, forAll]

end

theorem cxpHeartbeat_due (hc : m.camOf n = some c) (ht : (m.cam n).heartAt + m.get (F.CXP_TIMING_CFG_hb_ms n) * 1000000 ≤ m.now) :
    Does (.cxpHeartbeat dt n) s ((m.setCam n { m.cam n with heartAt := m.now }).emit (.send "cxp" n "heartbeat" [m.tb0])) := by
  obtain ⟨hup, rfl⟩ := hm
  refine does_unit (decide_eq_true hn) hup ?_
  simp only [cxpHeartbeat, hc, if_neg (Nat.not_lt.2 ht)]

theorem cxpHeartbeat_early (hc : m.camOf n = some c) (ht : m.now < (m.cam n).heartAt + m.get (F.CXP_TIMING_CFG_hb_ms n) * 1000000) :
    Does (.cxpHeartbeat dt n) s m := by
  obtain ⟨hup, rfl⟩ := hm
  refine does_unit (decide_eq_true hn) hup ?_
  simp only [cxpHeartbeat, hc, if_pos ht]

end

/-! ### The audit of the trigger counter (R77) -/

section
variable {m : Chip} {c : CameraRec} {v b : Nat} (hb : (m.cam c.master).tB = some b)
include hb

theorem auditAck_ahead (h : sub32 (m.cam c.master).sent b < sub32 (sub32 v (m.cam c.master).base) b) :
    m.auditAck c v = m.orderLost c := by
  simp only [Chip.auditAck, hb, if_pos h]

theorem auditAck_within (h : sub32 (sub32 v (m.cam c.master).base) b ≤ sub32 (m.cam c.master).sent b) :
    m.auditAck c v = m.setCam c.master
      { m.cam c.master with readC := some (sub32 v (m.cam c.master).base),
                            checkAt := m.now + m.get (F.CXP_TIMING_CFG_line_timeout c.master) * 1000 } := by
  simp only [Chip.auditAck, hb, if_neg (Nat.not_lt.2 h)]

end

section
variable {s : State} {dt : Nat} {m : Chip} {n : Nat} {c : CameraRec} (hm : Now s dt m) (hn : n < Config.links) (hc : m.camOf n = some c)
  (hcnt : c.trigCnt ≠ 0xFFFFFFFF) (hs : m.camStreams c = true)
include hm hn hc hcnt hs

omit hm hn hc in
/-- A camera whose counter the audit follows: its record names a trigger counter, and it streams. -/
theorem audited : ¬ (c.trigCnt = 0xFFFFFFFF ∨ (!m.camStreams c) = true) := by
  rw [hs]; simpa using hcnt

theorem audit_starts (ht : (m.cam n).auditAt + 1000000000 ≤ m.now) (hb : (m.cam n).tB = none) :
    Does (.triggerCounterAudit dt n .start) s ((m.setCam n
      { m.cam n with tB := some (m.cam n).sent, auditAt := m.now, readC := none }).sendCtrl c "read counter" [c.trigCnt] .audit) := by
  obtain ⟨hup, rfl⟩ := hm
  refine does_unit (decide_eq_true hn) hup ?_
  have hb0 : ¬ ((elapse dt s.m).now < ((elapse dt s.m).cam n).auditAt + 1000000000 ∨ ((elapse dt s.m).cam n).tB.isSome = true) := by
    rw [hb]; simpa using ht
  simp only [triggerCounterAudit, hc, if_neg (audited hcnt hs), if_neg hb0]

theorem audit_acked (v : Nat) :
    Does (.triggerCounterAudit dt n (.ack v)) s ((m.setCam n
      { m.cam n with ctrl := (m.cam n).ctrl.filter fun k => k.sender != .audit }).auditAck c v) := by
  obtain ⟨hup, rfl⟩ := hm
  refine does_unit (decide_eq_true hn) hup ?_
  simp only [triggerCounterAudit, hc, if_neg (audited hcnt hs)]

section
variable {k : Nat} (hk : (m.cam n).readC = some k) (ht : (m.cam n).checkAt ≤ m.now)
include hk ht

theorem audit_matched (hm31 : sub32 (m.cam n).matched k < 2 ^ 31) :
    Does (.triggerCounterAudit dt n .check) s (m.setCam n { m.cam n with tB := none, readC := none, shortfalls := 0 }) := by
  obtain ⟨hup, rfl⟩ := hm
  refine does_unit (decide_eq_true hn) hup ?_
  simp only [-Nat.reducePow, triggerCounterAudit, hc, if_neg (audited hcnt hs), hk, if_neg (Nat.not_lt.2 ht),
    decide_eq_false (Nat.not_le.2 hm31), Bool.false_eq_true, if_false, nonpos_iff_eq_zero, OfNat.ofNat_ne_zero]

/-- The third shortfall in a row is taken as a loss of line order. -/
theorem audit_third (hm31 : 2 ^ 31 ≤ sub32 (m.cam n).matched k) (h2 : (m.cam n).shortfalls = 2) :
    Does (.triggerCounterAudit dt n .check) s ((m.setCam n { m.cam n with tB := none, readC := none, shortfalls := 3 }).orderLost c) := by
  obtain ⟨hup, rfl⟩ := hm
  refine does_unit (decide_eq_true hn) hup ?_
  simp only [-Nat.reducePow, triggerCounterAudit, hc, if_neg (audited hcnt hs), hk, if_neg (Nat.not_lt.2 ht), decide_eq_true hm31, h2,
    if_true, Nat.le_refl]

end
end

/-! ### Signed commands to a camera (R81, R84) -/

/-- A camera that takes control commands: it streams, awaits its header or is in calibration capture. -/
theorem takesControl {m : Chip} {c : CameraRec}
    (h : m.camState c = stStreaming ∨ m.camState c = stRejected ∨ m.camState c = stAwaiting ∨ m.camState c = stCapture) :
    m.camStreams c = true ∨ m.camState c = stAwaiting ∨ m.camState c = stCapture := by
  simpa [Chip.camStreams, or_assoc] using h

section
variable {s : State} {dt : Nat} {m : Chip} {a : Auth} {v : Session} {n : Nat} {c : CameraRec} (hm : Now s dt m)
  (ha : Admitted m [3] false false a v) (hn : n < Config.links) (hc : m.camOf n = some c)
include hm ha hn hc

theorem cameraControlCommand_admitted (w : Bool) (addr value : Nat)
    (hs : m.camState c = stStreaming ∨ m.camState c = stRejected ∨ m.camState c = stAwaiting ∨ m.camState c = stCapture)
    (hx : ((consumed a v m).acceptCmd a).camState c = m.camState c) :
    Does (.cameraControlCommand dt a n w addr value) s (((consumed a v m).acceptCmd a).sendCtrl c (if w then "write" else "read")
      [addr % 2 ^ 32, value % 2 ^ 32] .maintainer) := by
  have h1 := takesControl hs
  have h2 := takesControl (m := (consumed a v m).acceptCmd a) (hx ▸ hs)
  obtain ⟨hup, rfl⟩ := hm
  refine does_unit (decide_eq_true hn) hup ((signed_admitted _ _ _ a v _ ha ?_).trans ?_)
  · simp only [consumed_camOf, hc, consumed_camStreams, consumed_camState, if_pos h1]
  · simp only [accept_camOf, hc, if_pos h2]

theorem calCaptureEnter_admitted {base len : Nat} (trig : Nat) (hs : m.camStreams c = true)
    (hj : (m.stick.jobs.any fun j => j.rows.contains c.row && m.flag (F.RC_JOB_CTRL_enable j.job)) = false)
    (hl : base + len ≤ Config.cmBytes) {x y : Chip} (hx : x = (consumed a v m).acceptCmd a) (hxs : x.camStreams c = true)
    (hxj : (x.stick.jobs.any fun j => j.rows.contains c.row && x.flag (F.RC_JOB_CTRL_enable j.job)) = false)
    (hy : y = (x.emptySlots c).setCamState c stCapture) :
    Does (.calCaptureEnter dt a n base len trig) s ((y.setCam n { y.cam n with cal := some { base, len, width := c.width } }).emit
      (.send "cxp" n "calibration trigger" [trig])) := by
  obtain ⟨hup, rfl⟩ := hm
  subst hx hy
  have hfit := decide_eq_false (Nat.not_lt.2 hl)
  refine does_unit (decide_eq_true hn) hup ((signed_admitted _ _ _ a v _ ha ?_).trans ?_)
  · simp only [consumed_camOf, hc, consumed_stick, consumed_flag, consumed_camStreams, hs, hj, hfit, Bool.not_true, Bool.or_self,
      Bool.false_eq_true, if_false]
  · simp only [accept_camOf, hc, hxs, hxj, hfit, Bool.not_true, Bool.or_self, Bool.false_eq_true, if_false]

theorem calCaptureLeave_admitted (hs : m.camState c = stCapture) (hx : ((consumed a v m).acceptCmd a).camState c = stCapture) :
    Does (.calCaptureLeave dt a n) s (((consumed a v m).acceptCmd a).beginBringUp c 3 true) := by
  obtain ⟨hup, rfl⟩ := hm
  refine does_unit (decide_eq_true hn) hup ((signed_admitted _ _ _ a v _ ha ?_).trans ?_)
  · simp only [consumed_camOf, hc, consumed_camState, if_pos hs]
  · simp only [accept_camOf, hc, if_pos hx]

end

/-- Settles O30: each clause is one branch of a command (`controlAck_…`, `controlResend_…`, `audit_…`, and the signed commands by
`signed_admitted`), and what it leaves of the camera is the state that the branch sets. -/
theorem cameraControlAndCapture : Obligations.CameraControlAndCapture := by
  refine ⟨?_, ?_, ?_, ?_, ?_, ?_, ?_, ?_, ?_, ?_, ?_, ?_, ?_, ?_, ?_, ?_, ?_, ?_, ?_, ?_, ?_, ?_, ?_, ?_⟩
  · -- CONTROL_ACK of a command of bring-up
    intro s dt m n tag v c k hm hn hc hk hs
    exact controlAck_bringUp hm hn v hc hk hs
  · -- CONTROL_ACK of a maintainer's command
    intro s dt m n tag v c k hm hn hc hk hs
    exact controlAck_maintainer hm hn v hc hk hs
  · -- CONTROL_ACK of the audit's read
    intro s dt m n tag v c k hm hn hc hk hs
    exact controlAck_audit hm hn v hc hk hs
  · -- CONTROL_ACK of the discovery read
    intro s dt m n tag v c k hm hn hc hk hs hd
    exact controlAck_discovery hm hn v hc hk hs hd
  · -- CONTROL_ACK without a command
    intro s dt m n tag v hm hn hk
    exact controlAck_unsolicited hm hn v hk
  · -- CONTROL_RESEND
    intro s dt m n c k hm hn hc hk hs ht hr
    exact controlResend_again hm hn hc hk hs ht hr
  · -- CONTROL_RESEND: the command
    intro s dt m n c k hm hn hc hk hs ht hr
    refine ⟨_, controlResend_again hm hn hc hk hs ht hr, rfl, ?_, rfl⟩
    dsimp only
    rw [cam_emit, cam_setCam _ _ _ (by intro h; cases congrArg (·.ctrl) h)]
  · -- CONTROL_RESEND after the third
    intro s dt m n c k hm hn hc hk hs ht hr hst hcanon
    exact controlResend_failed hm hn hc hk hs ht hr hst hcanon
  · -- CONTROL_RESEND after the third: the camera
    intro s dt m n c k hm hn hc hk hs ht hr hst hcanon
    obtain rfl := camOf_master hc
    exact ⟨_, controlResend_failed hm hn hc hk hs ht hr hst hcanon, rfl, fails_cam c _⟩
  · -- CXP_HEARTBEAT
    intro s dt m n c hm hn hc ht
    exact cxpHeartbeat_due hm hn hc ht
  · -- CXP_HEARTBEAT before its time
    intro s dt m n c hm hn hc ht
    exact cxpHeartbeat_early hm hn hc ht
  · -- TRIGGER_COUNTER_AUDIT starts
    intro s dt m n c hm hn hc hcnt hs ht hb
    exact audit_starts hm hn hc hcnt hs ht hb
  · -- TRIGGER_COUNTER_AUDIT starts: the camera
    intro s dt m n c hm hn hc hcnt hs ht hb
    obtain rfl := camOf_master hc
    exact ⟨_, audit_starts hm hn hc hcnt hs ht hb, rfl, auditStart_cam c m⟩
  · -- the counter is ahead
    intro m c v b hb h
    exact auditAck_ahead hb h
  · -- the counter is not ahead
    intro m c v b hb h
    exact auditAck_within hb h
  · -- TRIGGER_COUNTER_AUDIT, the counter arrives
    intro s dt m n v c hm hn hc hcnt hs
    exact audit_acked hm hn hc hcnt hs v
  · -- TRIGGER_COUNTER_AUDIT, the lines matched suffice
    intro s dt m n k c hm hn hc hcnt hs hk ht h
    exact audit_matched hm hn hc hcnt hs hk ht h
  · -- TRIGGER_COUNTER_AUDIT, the third shortfall
    intro s dt m n k c hm hn hc hcnt hs hk ht h h2
    exact audit_third hm hn hc hcnt hs hk ht h h2
  · -- CAMERA_CONTROL_COMMAND
    rintro s dt m a v n addr value w c _ hm ha hn hc hs rfl hx
    exact cameraControlCommand_admitted hm ha hn hc w addr value hs hx
  · -- CAMERA_CONTROL_COMMAND: the command sent
    intro s dt m a v n addr value w c hm ha hn hc hs hx
    obtain rfl := camOf_master hc
    exact ⟨_, cameraControlCommand_admitted hm ha hn hc w addr value hs hx, rfl, sendCtrl_last c _ _ _ _⟩
  · -- CAL_CAPTURE_ENTER
    intro s dt m a v n base len trig c x y hm ha hn hc hs hj hl hx hxs hxj hy
    exact calCaptureEnter_admitted hm ha hn hc trig hs hj hl hx hxs hxj hy
  · -- CAL_CAPTURE_ENTER: the camera
    intro s dt m a v n base len trig c hm ha hn hc hs hj hl hxs hxj
    exact ⟨_, calCaptureEnter_admitted hm ha hn hc trig hs hj hl rfl hxs hxj rfl, rfl, captureOn_cam _ n base len c.width _⟩
  · -- CAL_CAPTURE_LEAVE
    rintro s dt m a v n c _ hm ha hn hc hs rfl hx
    exact calCaptureLeave_admitted hm ha hn hc hs hx
  · -- CAL_CAPTURE_LEAVE: the camera
    intro s dt m a v n c hm ha hn hc hs hx hb
    obtain rfl := camOf_master hc
    exact ⟨_, calCaptureLeave_admitted hm ha hn hc hs hx, rfl, begin3_cam c true _ hb⟩

end Sys2Proof.Proofs
end

section
/-!
PROOFS of the family 05_screening_and_provisional_verdicts: the engines of which the part has one, and the studs, start their commands;
the release of screening output; the sealing of pairs in the end guard.
-/
namespace Sys2Proof.Proofs
open Sys2Proof.Machine Sys2Proof.Laws

/-! ### Commands that start (R131, R193, R199, R227, R231) -/

section
variable {m0 : Chip} {dt : Nat} {c : CutEntry}

theorem spectralConv2d_starts (pl : CmdPlan) (hop : ((elapse dt m0).specDesc c.descPtr).op = 1) (hs : Starts (elapse dt m0) .spectral c) :
    spectralConv2d dt c pl m0 = started (elapse dt m0) .spectral c (spectralWork c pl) := by
  have hb : ¬ ((elapse dt m0).specDesc c.descPtr).op ≠ 1 := not_not_intro hop
  simp only [spectralConv2d, if_neg hb, startCmd_starts _ hs]

/-- A DETECT starts for a strip of its row that closed in the close bay it works for. -/
theorem detect_starts {strip : Nat} {k : ClosedStrip} (er : ReadErrs) (hop : ((elapse dt m0).detDesc c.descPtr).op = 1)
    (hk : ((elapse dt m0).fire.closed.find? fun x => x.row == ((elapse dt m0).detDesc c.descPtr).row && x.strip == strip &&
      x.closeBay == (elapse dt m0).closeOf .postproc c) = some k) (hs : Starts (elapse dt m0) .postproc c) :
    detect dt c strip er m0 = started (elapse dt m0) .postproc c (detectWork c k er) := by
  have hb : ¬ ((elapse dt m0).detDesc c.descPtr).op ≠ 1 := not_not_intro hop
  simp only [detect, hk, if_neg hb, startCmd_starts _ hs]

theorem attend_starts (pl : CmdPlan) (hop : ((elapse dt m0).attDesc c.descPtr).op = 1) (hs : Starts (elapse dt m0) .attention c) :
    attend dt c pl m0 = started (elapse dt m0) .attention c (attendWork c pl) := by
  have hb : ¬ ((elapse dt m0).attDesc c.descPtr).op ≠ 1 := not_not_intro hop
  simp only [attend, if_neg hb, startCmd_starts _ hs]

theorem append_starts (er : ReadErrs) (hop : ((elapse dt m0).attDesc c.descPtr).op = 2) (hs : Starts (elapse dt m0) .attention c) :
    append dt c er m0 = started (elapse dt m0) .attention c (appendWork c er) := by
  have hb : ¬ ((elapse dt m0).attDesc c.descPtr).op ≠ 2 := not_not_intro hop
  simp only [append, if_neg hb, startCmd_starts _ hs]

theorem screen_starts {n row : Nat} (strip : Nat) (cells : List ScoreCell) (layer : Option Nat) (er : ReadErrs)
    (hrow : (elapse dt m0).studRow c.descPtr = some row) (hs : Starts (elapse dt m0) (.stud n) c) :
    screen dt n c row strip cells layer er m0 = started (elapse dt m0) (.stud n) c (screenWork n c row strip cells layer er) := by
  simp only [screen, if_pos hrow, startCmd_starts _ hs]

end

section
variable {m : Chip} {c : CutEntry}

/-- A spectral convolution that meets no error computes from the module as it stands and changes nothing yet. -/
theorem spectralWork_none {pl : CmdPlan} (h : m.sramBad = []) (he : pl.errs = {}) : spectralWork c pl m = (m.specWork c pl, m) := by
  simp only [spectralWork, he, meetErrs_none _ _ _ h]

/-- A DETECT that meets no error works on its strip in the module as it stands. -/
theorem detectWork_none (k : ClosedStrip) (h : m.sramBad = []) :
    (detectWork c k {} m).2 = m.detectStrip (m.detDesc c.descPtr) c.job k {} := by
  simp only [detectWork, meetErrs_none _ _ _ h]

/-- An undisturbed ATTEND that meets no error has begun: besides registers its work leaves the module alone. -/
theorem begun_attend {pl : CmdPlan} (h : Undisturbed m .attention) (he : pl.errs = {}) :
    Begun m (started m .attention c (attendWork c pl)) .attention c (attendWork c pl m).1 :=
  started_begun_work h.1 (attend_frame c pl m he h.2 (·.mem) (fun _ _ _ => rfl) fun _ _ _ => rfl)
    (attend_frame c pl m he h.2 (·.sramValid) (fun _ _ _ => rfl) fun _ _ _ => rfl)
    (attend_frame c pl m he h.2 (·.out) (fun _ _ _ => rfl) fun _ _ _ => rfl)

/-- A start adds nothing to what its work puts into the rows' screening. -/
theorem started_screens {e : Engine} {work : Chip → Running × Chip} (hb : (m.eng e).bg = none) :
    (started m e c work).screens = (work m).2.screens := by
  unfold started
  rw [rollBack_none hb, showEng_other]
  rfl

/-- The score cells of a strip that a SCREEN has joined stand in its row. -/
theorem mem_cells_setScr (row : Nat) (v : RowScreen) (l : List (Nat × List ScoreCell)) (q : Nat × List ScoreCell) :
    q ∈ ((m.setScr row { v with cells := l ++ [q] }).scr row).cells := by
  have hne : ({ v with cells := l ++ [q] } : RowScreen) ≠ {} := by
    intro h
    have := congrArg (·.cells) h
    simp at this
  rw [setScr_scr m row _ hne]
  simp

end

/-! ### The release of screening output (R133, R135, R138) -/

/-- The module once a strip's late output is discarded: its score cells are gone, and screen_missing is flagged. -/
def lateDropped (m : Chip) (r strip : Nat) : Chip :=
  (m.setScr r { m.scr r with cells := (m.scr r).cells.filter fun q => q.1 != strip }).setFlag (F.SCR_ROW_STAT_screen_missing r)

section
variable {m0 : Chip} {dt r strip : Nat} {crop : CutEntry} {k : ClosedStrip} {q : Nat × List ScoreCell}

/-- The strip found is the one asked for. -/
theorem closed_row_strip {l : List ClosedStrip}
    (hk : (l.find? fun x => x.row == r && x.strip == strip && x.slot.isSome && !x.beyond) = some k) : k.row = r ∧ k.strip = strip := by
  have h := List.find?_some hk
  simp only [Bool.and_eq_true, beq_iff_eq] at h
  exact ⟨h.1.1.1, h.1.1.2⟩

section
variable
  (hk : ((elapse dt m0).fire.closed.find? fun x => x.row == r && x.strip == strip && x.slot.isSome && !x.beyond) = some k)
  (hq : ((elapse dt m0).scr r).cells.find? (fun q => q.1 == strip) = some q)
  (hrun : (elapse dt m0).screening r strip = false)
  (hv : (elapse dt m0).pairInvalid ((elapse dt m0).get F.STUD_CFG_job) k.closeBay = false)
  (ho : (elapse dt m0).outOf r strip = none)
include hk hq hrun hv ho

theorem screeningOutputRelease_inTime (ht : (elapse dt m0).screenInTime k crop = true) :
    screeningOutputRelease dt r strip crop m0 = (elapse dt m0).releaseScreen k q.2 := by
  simp only [screeningOutputRelease, hk, hq, hrun, hv, ho, ht, Bool.or_false, Option.isSome_none, Bool.false_eq_true, if_false, if_true]

theorem screeningOutputRelease_late (ht : (elapse dt m0).screenInTime k crop = false) :
    screeningOutputRelease dt r strip crop m0 = (lateDropped (elapse dt m0) r strip).takeFallback k [] := by
  simp only [screeningOutputRelease, lateDropped, hk, hq, hrun, hv, ho, ht, Bool.or_false, Option.isSome_none, Bool.false_eq_true,
    if_false]

end

end

/-- The fallback of a strip whose late output was discarded: its output is the fallback's, nothing is carried, and of the registers
screen_missing alone has changed. -/
theorem lateDropped_fallback (m : Chip) (k : ClosedStrip) :
    (((lateDropped m k.row k.strip).takeFallback k []).scr k.row).outs.getLast? =
        some { strip := k.strip, closeBay := k.closeBay, fell := true, wins := (lateDropped m k.row k.strip).fallWins k.row } ∧
      (((lateDropped m k.row k.strip).takeFallback k []).scr k.row).carry = [] ∧
      ((lateDropped m k.row k.strip).takeFallback k []).regs = (m.setFlag (F.SCR_ROW_STAT_screen_missing k.row)).regs := by
  obtain ⟨houts, hcarry⟩ := fallback_spec (lateDropped m k.row k.strip) k
  exact ⟨by rw [houts, List.getLast?_concat], hcarry, rfl⟩

/-! ### Sealing in the end guard (R206, R436) -/

/-- The jobs whose pairs of close bay `k` are sealed: those with the verdict role that process it. -/
def verdictJobs (m : Chip) (k : Nat) : List Nat :=
  (m.stick.jobs.filter fun j => j.cls == 1 && !j.screening && m.processes j.job k).map (·.job)

section
variable {m : Chip} {k j : Nat}

/-- Counting the objects of sealed groups changes registers alone (R215). -/
theorem sealCounts_pp (gs : List VerdictGroup) (x : Chip) :
    (forAll gs (fun g y => (y.bumpBy (R.PP_CNT_OBJ g.row) g.objs.length).bumpBy (R.PP_CNT_INDET g.row)
      (g.objs.filter fun e => e.verdict == 2).length) x).pp = x.pp :=
  forAll_keeps (·.pp) gs _ x fun _ _ => rfl

/-- A valid pair is sealed with its groups in ascending stream order, which wait no longer. -/
theorem sealPair_valid (h : m.pairInvalid j k = false) : (m.sealPair k j).pp = { m.pp with
    pending := m.pp.pending.filter fun g => !(g.job == j && g.closeBay == k)
    queue := m.pp.queue ++ sortBy (fun a b => decide (a.stream ≤ b.stream)) (m.pp.pending.filter fun g => g.job == j && g.closeBay == k) } := by
  simp only [Chip.sealPair, h, Bool.false_eq_true, if_false, Chip.sealMarks, Chip.onWit, Chip.onPp, sealCounts_pp]

/-- An invalid pair is sealed as its notices; its groups are dropped. -/
theorem sealPair_invalid (h : m.pairInvalid j k = true) : (m.sealPair k j).pp = { m.pp with
    pending := m.pp.pending.filter fun g => !(g.job == j && g.closeBay == k)
    queue := m.pp.queue ++ m.noticesOf j k } := by
  simp only [Chip.sealPair, h, if_true]
  rfl

end

/-- Nothing is sealed while bays do not run, twice in a bay, before there is a close bay to seal, or before the end guard. -/
theorem sealsNothing_iff (m : Chip) : (!m.bays.running || m.pp.sealedFor == some m.bay || decide (m.bay + 1 < m.depth) ||
    decide (m.coreCycle < m.planned - 5000)) = true ↔
      m.bays.running = false ∨ m.pp.sealedFor = some m.bay ∨ m.bay + 1 < m.depth ∨ m.coreCycle < m.planned - 5000 := by
  simp [or_assoc]

section
variable {m0 : Chip} {dt k j : Nat}

section
variable (hr : (elapse dt m0).bays.running = true) (hs : (elapse dt m0).pp.sealedFor ≠ some (elapse dt m0).bay)
  (hk : k + (elapse dt m0).depth = (elapse dt m0).bay + 1) (ht : (elapse dt m0).planned - 5000 ≤ (elapse dt m0).coreCycle)
include hr hs hk ht

/-- In the end guard of a bay not sealed yet, the pairs of close bay (bay + 1 − D) that are invalid or complete are sealed. -/
theorem endGuardSeal_due : endGuardSeal dt m0 =
    (forAll ((verdictJobs (elapse dt m0) k).filter fun j => (elapse dt m0).pairInvalid j k || !(elapse dt m0).pairOpen j k)
      (fun j m => m.sealPair k j) (elapse dt m0)).onPp fun p => { p with sealedFor := some (elapse dt m0).bay } := by
  have hd : (elapse dt m0).bay + 1 - (elapse dt m0).depth = k := by omega
  have hg := mt (sealsNothing_iff (elapse dt m0)).1 (by simp only [hr, hs, Bool.true_eq_false, false_or]; omega)
  simp only [endGuardSeal, if_neg hg, hd]
  rfl

/-- With the pair of one job to seal, that pair is sealed. -/
theorem endGuardSeal_one (hj : verdictJobs (elapse dt m0) k = [j])
    (hp : ((elapse dt m0).pairInvalid j k || !(elapse dt m0).pairOpen j k) = true) : endGuardSeal dt m0 =
      ((elapse dt m0).sealPair k j).onPp fun p => { p with sealedFor := some (elapse dt m0).bay } := by
  rw [endGuardSeal_due hr hs hk ht, hj, List.filter_singleton, hp]
  rfl

end

theorem endGuardSeal_notDue (h : (elapse dt m0).bays.running = false ∨ (elapse dt m0).pp.sealedFor = some (elapse dt m0).bay ∨
    (elapse dt m0).coreCycle < (elapse dt m0).planned - 5000) : endGuardSeal dt m0 = elapse dt m0 := by
  have hg := (sealsNothing_iff (elapse dt m0)).2 (h.imp_right (Or.imp_right Or.inr))
  simp only [endGuardSeal, if_pos hg]

end

/-- Settles O34: each command is its start (`…_starts`), and what a start leaves is what its work gives of the undisturbed module;
screening output is released in time or discarded (`screeningOutputRelease_…`); the end guard seals each pair as its notices or with
its groups (`endGuardSeal_…`, `sealPair_…`). -/
theorem enginesOfOneUnitStart : Obligations.EnginesOfOneUnitStart := by
  refine ⟨?_, ?_, ?_, ?_, ?_, ?_, ?_, ?_, ?_, ?_, ?_, ?_, ?_, ?_, ?_, ?_, ?_⟩
  · -- SPECTRAL_CONV2D
    rintro s dt _ c pl ⟨hup, rfl⟩ hop hs
    exact does_unit rfl hup (spectralConv2d_starts pl hop hs)
  · -- SPECTRAL_CONV2D undisturbed
    rintro s dt _ c pl ⟨hup, rfl⟩ hop hs ⟨hbg, hbad⟩ he
    exact ⟨_, does_unit rfl hup (spectralConv2d_starts pl hop hs), rfl,
      started_begun hbg (spectralWork_none hbad he) rfl rfl rfl⟩
  · -- DETECT
    rintro s dt _ c strip er k ⟨hup, rfl⟩ hop hk hs
    exact does_unit rfl hup (detect_starts er hop hk hs)
  · -- DETECT: its groups wait to be sealed
    rintro s dt _ c strip k _ ⟨hup, rfl⟩ rfl hop hk hs ⟨hbg, hbad⟩ hstands
    obtain ⟨hmem, hpend⟩ := detectStrip_spec _ _ c.job k hstands
    obtain ⟨hstreams, hgroups⟩ := detectOut_groups (elapse dt s.m) ((elapse dt s.m).detDesc c.descPtr) c.job k
    refine ⟨_, _, does_unit rfl hup (detect_starts {} hop hk hs), rfl, ?_, ?_, ?_, hstreams, hgroups⟩
    · exact (started_running _ .postproc c _).trans (by rw [rollBack_none hbg]; rfl)
    · exact (started_mem hbg).trans (by rw [detectWork_none k hbad, hmem])
    · exact (congrArg PpState.pending (started_pp hbg)).trans (by rw [detectWork_none k hbad, hpend])
  · -- ATTEND
    rintro s dt _ c pl ⟨hup, rfl⟩ hop hs
    exact does_unit rfl hup (attend_starts pl hop hs)
  · -- ATTEND undisturbed
    rintro s dt _ c pl ⟨hup, rfl⟩ hop hs hu he
    exact ⟨_, _, does_unit rfl hup (attend_starts pl hop hs), rfl, begun_attend hu he, rfl, rfl⟩
  · -- APPEND
    rintro s dt _ c er ⟨hup, rfl⟩ hop hs
    exact does_unit rfl hup (append_starts er hop hs)
  · -- APPEND: what its engine runs
    rintro s dt _ c er ⟨hup, rfl⟩ hop hs
    exact ⟨_, _, does_unit rfl hup (append_starts er hop hs), rfl, started_running _ .attention c _, rfl, rfl⟩
  · -- SCREEN
    rintro s dt _ n row strip c cells layer er ⟨hup, rfl⟩ hn hr hrow hs
    exact does_unit (by simp [hn, hr]) hup (screen_starts strip cells layer er hrow hs)
  · -- SCREEN: its score cells join the strip's
    rintro s dt _ n row strip c cells old layer ⟨hup, rfl⟩ hn hr hrow hs ⟨hbg, hbad⟩ hslot hold
    have hw := screen_spec n c row strip cells old layer _ hbad hslot hold
    refine ⟨_, _, does_unit (by simp [hn, hr]) hup (screen_starts strip cells layer {} hrow hs), rfl,
      started_begun_work hbg (by rw [hw]; rfl) (by rw [hw]; rfl) (by rw [hw]; rfl), rfl, rfl, rfl, ?_⟩
    dsimp only
    rw [scr_of (started_screens hbg) row, hw]
    exact mem_cells_setScr row _ _ _
  · -- SCREENING_OUTPUT_RELEASE in time
    rintro s dt _ r strip crop k q ⟨hup, rfl⟩ hr hk hq hrun hv ho ht
    exact does_unit (decide_eq_true hr) hup (screeningOutputRelease_inTime hk hq hrun hv ho ht)
  · -- SCREENING_OUTPUT_RELEASE in time: records and ROI list
    rintro s dt _ r strip crop k q ⟨hup, rfl⟩ hr hk hq hrun hv ho ht hpilot hcomps
    obtain ⟨rfl, rfl⟩ := closed_row_strip hk
    obtain ⟨houts, hscreened⟩ := release_spec _ k q.2 hpilot hcomps
    obtain ⟨hwins, hrecs⟩ := screenOut_recs (elapse dt s.m) k q.2
    exact ⟨_, _, _, does_unit (decide_eq_true hr) hup (screeningOutputRelease_inTime hk hq hrun hv ho ht), rfl, houts, hwins,
      hscreened, hrecs⟩
  · -- SCREENING_OUTPUT_RELEASE, late
    rintro s dt _ r strip crop k q ⟨hup, rfl⟩ hr hk hq hrun hv ho ht
    obtain ⟨rfl, rfl⟩ := closed_row_strip hk
    exact ⟨_, _, does_unit (decide_eq_true hr) hup (screeningOutputRelease_late hk hq hrun hv ho ht), rfl, lateDropped_fallback _ k⟩
  · -- END_GUARD_SEAL of one complete pair
    rintro s dt _ k j ⟨hup, rfl⟩ hr hs hk ht hj hv hopen
    refine ⟨_, does_unit rfl hup (endGuardSeal_one hr hs hk ht hj (by rw [hopen, Bool.not_false, Bool.or_true])), rfl, ?_, ?_, rfl⟩
    · exact congrArg PpState.queue (sealPair_valid hv)
    · exact congrArg PpState.pending (sealPair_valid hv)
  · -- END_GUARD_SEAL of one invalid pair
    rintro s dt _ k j ⟨hup, rfl⟩ hr hs hk ht hj hv
    refine ⟨_, does_unit rfl hup (endGuardSeal_one hr hs hk ht hj (by rw [hv, Bool.true_or])), rfl, ?_, ?_, rfl⟩
    · exact congrArg PpState.queue (sealPair_invalid hv)
    · exact congrArg PpState.pending (sealPair_invalid hv)
  · -- END_GUARD_SEAL
    rintro s dt _ k _ ⟨hup, rfl⟩ hr hs hk ht rfl
    exact does_unit rfl hup (endGuardSeal_due hr hs hk ht)
  · -- END_GUARD_SEAL when nothing is due
    rintro s dt _ ⟨hup, rfl⟩ h
    exact does_unit rfl hup (endGuardSeal_notDue h)

end Sys2Proof.Proofs
end

section
/-!
PROOFS of the family 09_memories: the key of capture memory, debug unlock, promotion of a standby, and the lid.
-/
namespace Sys2Proof.Proofs
open Sys2Proof.Machine Sys2Proof.Laws

/-! ### The key of capture memory (R258, R276) -/

/-- New keys leave nothing of capture memory, which lies from 2 TiB to below 4 TiB, and every other byte. -/
theorem mem_replaceKeys (m : Chip) (g : Nat) (b : Byte) :
    (g, b) ∈ m.replaceKeys.mem ↔ (g, b) ∈ m.mem ∧ ¬ (2 ^ 41 ≤ g ∧ g < 2 ^ 42) := by
  rw [replaceKeys_mem, Chip.clearCm, List.mem_filter, Bool.not_eq_true', Bool.and_eq_false_iff, decide_eq_false_iff_not,
    decide_eq_false_iff_not, Classical.not_and_iff_not_or_not]

/-! ### The role of a promoted standby (R469) -/

/-- The module `x` once its role is single and the NV log keeps the promotion, before its cameras come up. -/
def madeSingle (x : Chip) : Chip :=
  (((x.put F.FS_STAT_role 0).put F.PUR_MIRROR_CFG_mrole 0).onBoot fun b => { b with promoted := some x.stick.hash }).log "promoted" []

/-- The cameras of the story stick begin bring-up from step 1, and the outputs follow. -/
def camerasBegun (y : Chip) : Chip := (forAll y.stick.cameras (fun c m => m.beginBringUp c 1 false) y).refreshOutputs

theorem promoteWrite_takenOver {x : Chip} (hr : x.role = 2) (ht : x.flag F.SUP_MODE_took_over = true) :
    x.promoteWrite = (true, camerasBegun (madeSingle x)) := by
  have hc : ¬ (x.role ≠ 2 ∨ (!(x.flag F.SUP_MODE_took_over || x.mirrorSilent)) = true) := by simp [hr, ht]
  exact if_neg hc

theorem madeSingle_promoted (x : Chip) : (madeSingle x).boot.promoted = some x.stick.hash :=
  congrArg BootState.promoted (eq_boot_Chip_log _ _ _)

theorem camerasBegun_boot (y : Chip) : (camerasBegun y).boot = y.boot :=
  (eq_boot_Chip_refreshOutputs _).trans (forAll_keeps Chip.boot _ _ _ fun c => eq_boot_Chip_beginBringUp c 1 false)

/-! ### The signed commands, once admitted -/

section
variable {s : State} {dt : Nat} {m : Chip} {a : Auth} {v : Session} (hm : Now s dt m)
include hm

theorem zeroise_admitted (ha : Admitted m [3] false false a v) : Does (.zeroise dt a) s ((consumed a v m).acceptCmd a).replaceKeys := by
  obtain ⟨hup, rfl⟩ := hm
  exact does_unit rfl hup (signed_admitted _ _ _ a v _ ha rfl)

theorem promote_admitted (ha : Admitted m [3] false false a v) (hr : (consumed a v m).role = 2)
    (ht : (consumed a v m).flag F.SUP_MODE_took_over = true) (hxr : ((consumed a v m).acceptCmd a).role = 2)
    (hxt : ((consumed a v m).acceptCmd a).flag F.SUP_MODE_took_over = true) :
    Does (.promote dt a) s (camerasBegun (madeSingle ((consumed a v m).acceptCmd a))) := by
  obtain ⟨hup, rfl⟩ := hm
  have hacc := congrArg Prod.fst (promoteWrite_takenOver hr ht)
  exact does_unit rfl hup ((signed_admitted _ _ _ a v _ ha hacc).trans (congrArg Prod.snd (promoteWrite_takenOver hxr hxt)))

/-! ### The lid (R534, R538) -/

theorem tamperEvent_opens (hl : m.trust.lidOpen = false) {x : Chip}
    (hx : x = (((((m.onTrust fun t => { t with lidOpen := true }).put F.SEC_STAT_tamper_live 1).setFlag F.SEC_STAT_tamper_seen).bump
      R.SEC_CNT_TAMPER).log "tamper" []).raise ⟨0, 11⟩) :
    Does (.tamperEvent dt true) s (x.tamperAct (x.get F.SEC_TAMPER_tamper_resp)) := by
  obtain ⟨hup, rfl⟩ := hm
  have hc : ¬ ((!true || (elapse dt s.m).trust.lidOpen) = true) := by rw [hl]; decide
  subst hx
  exact does_unit rfl hup (if_neg hc)

end

/-- Neither the log, the fault source nor the tamper response touches what the module knows of the lid. -/
theorem lidOpen_tampered (y : Chip) (c : Src) (r : Nat) :
    (((y.log "tamper" []).raise c).tamperAct r).trust.lidOpen = y.trust.lidOpen := by
  rw [eq_trustlidOpen_Chip_tamperAct, eq_trustlidOpen_Chip_raise, eq_trustlidOpen_Chip_log]

/-- Settles O6: the signed commands act by `signed_admitted`, the lid by `tamperEvent_opens`; what they leave is said by
`mem_replaceKeys`, `madeSingle_promoted` with `camerasBegun_boot`, and `lidOpen_tampered`. -/
theorem securityResponsesReplaceKeys : Obligations.SecurityResponsesReplaceKeys := by
  refine ⟨?_, ?_, ?_, ?_, ?_, ?_, ?_, ?_⟩
  · -- ZEROISE: what is left in memory
    intro s dt m a v hm ha
    refine ⟨_, zeroise_admitted hm ha, rfl, fun g b => ?_⟩
    rw [mem_replaceKeys, eq_mem_Chip_acceptCmd, consumed_mem]
  · -- ZEROISE
    intro s dt m a v hm ha
    exact zeroise_admitted hm ha
  · -- DEBUG_UNLOCK
    rintro s dt _ a v sill ridge ⟨hup, rfl⟩ ha
    exact does_unit rfl hup (signed_admitted _ _ _ a v _ ha rfl)
  · -- PROMOTE
    rintro s dt m a v _ _ hm ha hr ht rfl hxr hxt rfl
    exact promote_admitted hm ha hr ht hxr hxt
  · -- PROMOTE: the promotion that the NV log keeps
    intro s dt m a v hm ha hr ht hxr hxt
    refine ⟨_, promote_admitted hm ha hr ht hxr hxt, rfl, ?_⟩
    dsimp only
    rw [camerasBegun_boot, madeSingle_promoted, acceptCmd_stick, consumed_stick]
  · -- TAMPER_EVENT: the lid is open
    intro s dt m hm hl
    exact ⟨_, tamperEvent_opens hm hl rfl, rfl, lidOpen_tampered _ _ _⟩
  · -- TAMPER_EVENT: the lid opens
    intro s dt m x hm hl hx
    exact tamperEvent_opens hm hl hx
  · -- TAMPER_EVENT: the lid closes
    rintro s dt _ ⟨hup, rfl⟩
    exact does_unit rfl hup rfl

end Sys2Proof.Proofs
end

section
/-!
PROOFS of the family 10_tenon_link: what a flit does at the end of a direction of the link.
-/
namespace Sys2Proof.Proofs
open Sys2Proof.Machine Sys2Proof.Laws

/-! ### The flit that leaves the wire (R287) -/

/-- The module once the flits `w` are left in flight in direction `d`. -/
def leftInFlight (d : Nat) (w : List TnFlit) (m : Chip) : Chip := m.modTnDir d fun t => { t with wire := w }

theorem leftInFlight_dir (d : Nat) (w : List TnFlit) (m : Chip) : (leftInFlight d w m).tnDir d = { m.tnDir d with wire := w } :=
  dir_set _ _ _

theorem tnFront_takes {m : Chip} {d : Nat} {f : TnFlit} {w : List TnFlit} {p : TnFlit → Bool} (hup : m.tnUp = true)
    (hw : (m.tnDir d).wire = f :: w) (hp : p f = true) (ok : Bool) :
    m.tnFront d p ok = (leftInFlight d w m).tnReceive d f ok := by
  have hc : (m.tnUp && p f) = true := by rw [hup, hp]; rfl
  unfold Chip.tnFront
  rw [hw]
  exact if_pos hc

theorem tnFront_idle {m : Chip} {d : Nat} (h : m.tnUp = false ∨ (m.tnDir d).wire = []) (p : TnFlit → Bool) (ok : Bool) :
    m.tnFront d p ok = m := by
  unfold Chip.tnFront
  split
  case h_1 => rfl
  case h_2 f r hw =>
    have hdown : m.tnUp = false := h.resolve_right fun he => by cases he.symm.trans hw
    rw [hdown]
    rfl

/-! ### What the flit does, by its CRC, its channel and its number (R280, R282, R287; log entry 89) -/

theorem tnReceive_nak (d : Nat) {f : TnFlit} (x : Chip) (hv : f.vc = 3) (hp : f.pos = 2) :
    x.tnReceive d f true = (x.tnHeader d f).tnReplay (1 - d) :=
  (if_pos hv).trans (if_pos hp)

/-- The header acts on the other direction, so the number compared with is the one expected before it. -/
theorem header_leftInFlight_expect {d : Nat} (hd : d < 2) (f : TnFlit) (w : List TnFlit) (m : Chip) :
    (((leftInFlight d w m).tnHeader d f).tnDir d).expect = (m.tnDir d).expect := by
  rw [header_dir _ _ _ hd, leftInFlight_dir]

theorem tnReceive_inSequence {d : Nat} {f : TnFlit} {m : Chip} (w : List TnFlit) (hd : d < 2) (hv : f.vc ≠ 3)
    (hs : f.seq = (m.tnDir d).expect) :
    (leftInFlight d w m).tnReceive d f true = ((leftInFlight d w m).tnHeader d f).tnAccept d f :=
  (if_neg hv).trans (if_pos (hs.trans (header_leftInFlight_expect hd f w m).symm))

theorem tnReceive_outOfSequence {d : Nat} {f : TnFlit} {m : Chip} (w : List TnFlit) (hd : d < 2) (hv : f.vc ≠ 3)
    (hs : f.seq ≠ (m.tnDir d).expect) :
    (leftInFlight d w m).tnReceive d f true = (leftInFlight d w m).tnHeader d f :=
  (if_neg hv).trans (if_neg fun he => hs (he.trans (header_leftInFlight_expect hd f w m)))

theorem header_leftInFlight_bay (d : Nat) (f : TnFlit) (w : List TnFlit) (m : Chip) :
    ((leftInFlight d w m).tnHeader d f).bay = m.bay := rfl

/-! ### The three commands by which a flit arrives -/

section
variable {s : State} {dt : Nat} {m : Chip} {d : Nat} (hm : Linked s dt m) (hd : d < 2)
include hm hd

theorem flitReceived_idle (h : m.tnUp = false ∨ (m.tnDir d).wire = []) (ok : Bool) : Does (.flitReceived dt d ok) s m := by
  obtain ⟨hs, rfl⟩ := hm
  exact does_unit (decide_eq_true hd) hs (tnFront_idle h _ ok)

variable {f : TnFlit} {w : List TnFlit} (hup : m.tnUp = true) (hw : (m.tnDir d).wire = f :: w)
include hup hw

theorem flitReceived_takes (ok : Bool) : Does (.flitReceived dt d ok) s ((leftInFlight d w m).tnReceive d f ok) := by
  obtain ⟨hs, rfl⟩ := hm
  exact does_unit (decide_eq_true hd) hs (tnFront_takes hup hw rfl ok)

theorem flitReceived_discards : Does (.flitReceived dt d false) s ((leftInFlight d w m).tnCrcFail d f) :=
  flitReceived_takes hm hd hup hw false

theorem flitReceived_accepts (hv : f.vc ≠ 3) (hq : f.seq = (m.tnDir d).expect) :
    Does (.flitReceived dt d true) s (((leftInFlight d w m).tnHeader d f).tnAccept d f) := by
  rw [← tnReceive_inSequence w hd hv hq]
  exact flitReceived_takes hm hd hup hw true

theorem flitReceived_headerOnly (hv : f.vc ≠ 3) (hq : f.seq ≠ (m.tnDir d).expect) :
    Does (.flitReceived dt d true) s ((leftInFlight d w m).tnHeader d f) := by
  rw [← tnReceive_outOfSequence w hd hv hq]
  exact flitReceived_takes hm hd hup hw true

theorem tenonNak_replays (hv : f.vc = 3) (hp : f.pos = 2) :
    Does (.tenonNak dt d) s (((leftInFlight d w m).tnHeader d f).tnReplay (1 - d)) := by
  obtain ⟨hs, rfl⟩ := hm
  have hnak : (f.vc == 3 && f.pos == 2) = true := by rw [hv, hp]; rfl
  exact does_unit (decide_eq_true hd) hs ((tnFront_takes hup hw hnak true).trans (tnReceive_nak d _ hv hp))

theorem tenonResponse_accepts (hv : f.vc = 1) (hq : f.seq = (m.tnDir d).expect) :
    Does (.tenonResponse dt d) s (((leftInFlight d w m).tnHeader d f).tnAccept d f) := by
  obtain ⟨hs, rfl⟩ := hm
  have hrsp : (f.vc == 1) = true := beq_iff_eq.2 hv
  have hv3 : f.vc ≠ 3 := by omega
  exact does_unit (decide_eq_true hd) hs ((tnFront_takes hup hw hrsp true).trans (tnReceive_inSequence w hd hv3 hq))

end

/-- A posted flit in sequence leaves the rest in flight, and its direction expects the next number and has an acknowledgement due. -/
theorem acceptPosted_dir {d : Nat} {f : TnFlit} {m : Chip} (w : List TnFlit) (hd : d < 2) (hv : f.vc = 2)
    (hq : f.seq = (m.tnDir d).expect) {x : Chip} (hx : x = ((leftInFlight d w m).tnHeader d f).tnAccept d f) :
    (x.tnDir d).wire = w ∧ (x.tnDir d).expect = (f.seq + 1) % 4096 ∧ (x.tnDir d).ackDue = true := by
  obtain ⟨hwire, hexp, hack⟩ := accept_dir d f ((leftInFlight d w m).tnHeader d f) hd hv
  rw [header_dir _ _ _ hd, leftInFlight_dir] at hwire hexp
  subst hx
  exact ⟨hwire, by rw [hexp, hq], hack⟩

/-- Settles O37: the arriving flit is said by the `flitReceived_…` lemmas, `tenonNak_replays` and `tenonResponse_accepts`, and what it
leaves by the laws of the link (`crcFail_dir`, `accept_dir`, `nak_dir`, `resp_reqs`). That the header acts on a flit out of sequence is the
model's choice (log entry 89). -/
theorem tenonFlitsArrive : Obligations.TenonFlitsArrive := by
  refine ⟨?_, ?_, ?_, ?_, ?_, ?_, ?_, ?_, ?_, ?_⟩
  · -- FLIT_RECEIVED: the CRC fails
    intro s dt m d f w hm hd hup hw
    exact flitReceived_discards hm hd hup hw
  · -- FLIT_RECEIVED: the nak that a failed CRC makes due
    intro s dt m d f w hm hd hup hw
    exact ⟨_, flitReceived_discards hm hd hup hw, rfl, crcFail_dir d f _ hd⟩
  · -- FLIT_RECEIVED: a data flit in sequence
    intro s dt m d f w hm hd hup hw hv hq
    exact flitReceived_accepts hm hd hup hw hv hq
  · -- FLIT_RECEIVED: what a posted flit in sequence leaves
    intro s dt m d f w hm hd hup hw hv hq
    have hv3 : f.vc ≠ 3 := by omega
    exact ⟨_, flitReceived_accepts hm hd hup hw hv3 hq, rfl, acceptPosted_dir w hd hv hq rfl⟩
  · -- FLIT_RECEIVED: a data flit out of sequence
    intro s dt m d f w hm hd hup hw hv hq
    exact flitReceived_headerOnly hm hd hup hw hv hq
  · -- FLIT_RECEIVED: no flit, or the link is not up
    intro s dt m d ok hm hd h
    exact flitReceived_idle hm hd h ok
  · -- TENON_NAK
    intro s dt m d f _ w _ hm hd hup hw hv hp
    exact tenonNak_replays hm hd hup hw hv hp
  · -- TENON_NAK: the flits that are sent again
    intro s dt m d f g w l hm hd hup hw hv hp hr hn
    exact ⟨_, tenonNak_replays hm hd hup hw hv hp, rfl, nak_dir d f w m g l hd hr hn⟩
  · -- TENON_RESPONSE
    intro s dt m d f w hm hd hup hw hv hq
    exact tenonResponse_accepts hm hd hup hw hv hq
  · -- TENON_RESPONSE: the request that ends
    intro s dt m d f w q hm hd hup hw hv hq hpos hc hbad hbay hsp hfind htodo
    obtain ⟨hreqs, htodos⟩ := headed_tenon d f w m
    have hcur := hbay.trans (header_leftInFlight_bay d f w m).symm
    refine ⟨_, tenonResponse_accepts hm hd hup hw hv hq, rfl, ?_⟩
    calc (((leftInFlight d w m).tnHeader d f).tnAccept d f).tenon.reqs
        = ((leftInFlight d w m).tnHeader d f).tenon.reqs.filter fun r => r.tag != q.tag :=
          resp_reqs f d _ q hv hpos hc hbad hcur hsp ((congrArg _ hreqs).trans hfind) (htodos.trans htodo)
      _ = m.tenon.reqs.filter fun r => r.tag != q.tag := congrArg _ hreqs

end Sys2Proof.Proofs
end

section
/-!
PROOFS of the family 11_purlin_fabric: the signed commands of the supervisor, the clocks and the routing tables; the frames and flows of the
Purlin fabric; its ports, which train, sleep and wake.
-/
namespace Sys2Proof.Proofs
open Sys2Proof.Machine Sys2Proof.Laws

/-! ### Signed commands (R319, R414, R458, R463, R532) -/

theorem resume_accepted {x : Chip} (hok : x.resumeOk = true) (hmode : x.mode = 2) :
    resume x = { x with sup := { x.sup with resumeDue := true } } := by
  simp only [resume, hok, hmode, Bool.not_true, Bool.false_eq_true, if_false, if_true]

/-- The module once entry `k` of the four in the word at `addr` has taken, of `w`, the bits that `mask` names. An entry that nothing has
written reads 7 (log entry 97). -/
def entryWritten (addr mask w k : Nat) (y : Chip) : Chip := y.onPur fun p =>
  { p with
    routes := tabSet 7 p.routes ((addr - 0xFD000) / 4 * 4 + k)
      ((BitVec.ofNat 3 (tabGet 7 y.purlin.routes ((addr - 0xFD000) / 4 * 4 + k)) &&& ~~~BitVec.ofNat 3 (mask / 2 ^ (8 * k) % 8)) |||
        (BitVec.ofNat 3 (w / 2 ^ (8 * k)) &&& BitVec.ofNat 3 (mask / 2 ^ (8 * k) % 8))).toNat }

theorem routeTableWrite_otherTable {x : Chip} {addr : Nat} (mask w : Nat) (ht : (addr - 0xFD000) / 0x1000 ≠ x.epoch)
    (hfree : x.tableBusy addr = false) : routeTableWrite 0 addr mask w x = forAll (upTo 4) (entryWritten addr mask w) x :=
  (if_neg ht).trans (if_neg (Bool.eq_false_iff.1 hfree))

theorem routeTableWrite_activeTable {x : Chip} {addr : Nat} (mask w : Nat) (ht : (addr - 0xFD000) / 0x1000 = x.epoch) :
    routeTableWrite 0 addr mask w x = x := if_pos ht

/-- An admitted write of a table that is not busy does what the write does. -/
theorem routeTableWrite_admitted {s : State} {dt : Nat} {m : Chip} {a : Auth} {v : Session} {addr mask w : Nat} {y : Chip}
    (hm : Now s dt m) (hlo : 0xFD000 ≤ addr) (hhi : addr < 0xFF000) (h4 : addr % 4 = 0) (ha : Admitted m [3] false false a v)
    (hfree : (consumed a v m).tableBusy addr = false) (hy : routeTableWrite 0 addr mask w ((consumed a v m).acceptCmd a) = y) :
    Does (.routeTableWrite dt a addr mask w) s y := by
  obtain ⟨hup, rfl⟩ := hm
  refine does_unit (by simp [hlo, hhi]) hup ?_
  have haligned : ¬ addr % 4 ≠ 0 := not_not_intro h4
  simp only [signedRouteTableWrite, if_neg haligned]
  exact (signed_admitted _ _ _ a v _ ha (by rw [hfree]; rfl)).trans hy

/-- Settles O4: each command acts by `signed_admitted` on the module that has counted, kept and answered it; what it then does is
`resume_accepted`, the command's own effect, or one of the `routeTableWrite_…` lemmas. -/
theorem signedSupervisorCommandsAct : Obligations.SignedSupervisorCommandsAct := by
  refine ⟨?_, ?_, ?_, ?_, ?_⟩
  · -- RESUME
    rintro s dt _ a v ⟨hup, rfl⟩ ha hok hok' hmode
    exact does_unit rfl hup ((signed_admitted _ _ _ a v _ ha hok).trans (resume_accepted hok' hmode))
  · -- RAISED_RESTORE
    rintro s dt _ a v half num ⟨hup, rfl⟩ hh hn ha
    exact does_unit (by simp [hh, hn]) hup (signed_admitted _ _ _ a v _ ha rfl)
  · -- ACCEPT_STEP
    rintro s dt _ a v ⟨hup, rfl⟩ ha
    exact does_unit rfl hup (signed_admitted _ _ _ a v _ ha rfl)
  · -- ROUTE_TABLE_WRITE of the table that is not in use
    rintro s dt m a v addr mask w _ hm hlo hhi h4 - - ha rfl hfree hfree' ht
    exact routeTableWrite_admitted hm hlo hhi h4 ha hfree (routeTableWrite_otherTable mask w ht hfree')
  · -- ROUTE_TABLE_WRITE of the table in use
    rintro s dt m a v addr mask w _ hm hlo hhi h4 - - ha rfl hfree ht
    exact routeTableWrite_admitted hm hlo hhi h4 ha hfree (routeTableWrite_activeTable mask w ht)

/-! ### Frames that arrive (R309, R317) -/

theorem purAlive_of_up {x : Chip} {p : Nat} (h : x.purState p = 3) : x.purAlive p = true := by
  simp only [Chip.purAlive, h, beq_self_eq_true, Bool.true_or]

section
variable {s : State} {dt : Nat} {m : Chip} {p k : Nat} {fr : PurFrame} {x : Chip} (hm : Now s dt m) (hp : p < Config.purlinPorts)
include hm hp

theorem purlinFrame_deaf (h : (m.bumpBy (R.PUR_CNT_CORR p) k).purAlive p = false) :
    Does (.purlinFrame dt p k fr) s (m.bumpBy (R.PUR_CNT_CORR p) k) := by
  obtain ⟨hup, rfl⟩ := hm
  refine does_unit (decide_eq_true hp) hup ?_
  simp only [purlinFrame, h, Bool.not_false, if_true]

variable (h : (m.bumpBy (R.PUR_CNT_CORR p) k).purAlive p = true)
include h

theorem purlinFrame_rejected (had : (m.bumpBy (R.PUR_CNT_CORR p) k).purAdmit p fr = (false, x)) :
    Does (.purlinFrame dt p k fr) s x := by
  obtain ⟨hup, rfl⟩ := hm
  refine does_unit (decide_eq_true hp) hup ?_
  simp only [purlinFrame, h, had, Bool.not_true, Bool.not_false, Bool.true_or, Bool.false_eq_true, if_false, if_true]

/-- A DATA frame that passes its own checks on a port that is up, and whose peer's HELLO has passed, is routed. -/
theorem purlinFrame_routes {d : TnXfer} {l : List Byte} (had : (m.bumpBy (R.PUR_CNT_CORR p) k).purAdmit p fr = (true, x))
    (hb : fr.body = .data d l) (hst : x.purState p = 3) (hok : (x.purPort p).helloOk = true) :
    Does (.purlinFrame dt p k fr) s (x.purRouted p fr) := by
  obtain ⟨hup, rfl⟩ := hm
  refine does_unit (decide_eq_true hp) hup ?_
  have hopen : ¬ (x.purState p ≠ 3 ∨ (!(x.purPort p).helloOk) = true) := by simp [hst, hok]
  simp only [purlinFrame, h, had, purAlive_of_up hst, hb, if_neg hopen, Bool.not_true, Bool.or_self, Bool.false_eq_true, if_false]

end

/-! ### Flows (R311, R313) -/

/-- rto has passed on a flow: frames are unacknowledged, and its time ran from long enough ago. -/
theorem rtoDue_iff (m : Chip) (dev cls : Nat) : (!(m.flow dev cls).unacked.isEmpty &&
    decide ((m.flow dev cls).ackAt + ((m.stick.fabric.map (·.rto)).getD 8) * 1000 ≤ m.now)) = true ↔
      (m.flow dev cls).unacked ≠ [] ∧ (m.flow dev cls).ackAt + ((m.stick.fabric.map (·.rto)).getD 8) * 1000 ≤ m.now := by
  rw [Bool.and_eq_true, decide_eq_true_iff, Bool.not_eq_true', List.isEmpty_eq_false_iff]

section
variable {s : State} {dt : Nat} {m : Chip} {dev cls : Nat} (hm : Now s dt m) (hdev : dev < 4096)
include hm hdev

theorem purlinAck_acknowledges (seq : Nat) : Does (.purlinAck dt dev cls seq) s (m.flowAck dev cls seq) := by
  obtain ⟨hup, rfl⟩ := hm
  exact does_unit (decide_eq_true hdev) hup rfl

theorem purlinNak_resends (seq : Nat) (hu : (m.flow dev cls).unacked ≠ []) :
    Does (.purlinNak dt dev cls seq) s (m.flowNak dev cls seq) := by
  obtain ⟨hup, rfl⟩ := hm
  refine does_unit (decide_eq_true hdev) hup (if_neg ?_)
  rwa [List.isEmpty_iff]

theorem purlinRto_due (hu : (m.flow dev cls).unacked ≠ [])
    (ht : (m.flow dev cls).ackAt + ((m.stick.fabric.map (·.rto)).getD 8) * 1000 ≤ m.now) :
    Does (.purlinRto dt dev cls) s (m.flowResend dev cls) := by
  obtain ⟨hup, rfl⟩ := hm
  exact does_unit (decide_eq_true hdev) hup (if_pos ((rtoDue_iff _ dev cls).2 ⟨hu, ht⟩))

theorem purlinRto_notDue (h : (m.flow dev cls).unacked = [] ∨
    m.now < (m.flow dev cls).ackAt + ((m.stick.fabric.map (·.rto)).getD 8) * 1000) : Does (.purlinRto dt dev cls) s m := by
  obtain ⟨hup, rfl⟩ := hm
  refine does_unit (decide_eq_true hdev) hup (if_neg fun hdue => ?_)
  obtain ⟨hu, ht⟩ := (rtoDue_iff _ dev cls).1 hdue
  exact h.elim hu (Nat.not_lt.2 ht)

end

/-! ### Discovery and LINK frames (R310, R315, R316) -/

section
variable {s : State} {dt : Nat} {m : Chip} {p : Nat} (hm : Now s dt m) (hp : p < Config.purlinPorts) (h : m.purAlive p = true)
include hm hp h

theorem hello_takes (r : HelloRec) : Does (.hello dt p r) s (m.takeHello p r) := by
  obtain ⟨hup, rfl⟩ := hm
  exact does_unit (decide_eq_true hp) hup (if_pos h)

theorem helloSend_due (ht : (m.purPort p).helloAt + 100000000 ≤ m.now) : Does (.helloSend dt p) s (m.helloOut p) := by
  obtain ⟨hup, rfl⟩ := hm
  exact does_unit (decide_eq_true hp) hup (if_pos (by simp [h, ht]))

theorem linkFrame_takes (l : LinkRec) : Does (.linkFrame dt p l) s (m.takeLink p l) := by
  obtain ⟨hup, rfl⟩ := hm
  exact does_unit (decide_eq_true hp) hup (if_pos h)

end

/-! ### The swap of the routing tables (R319) -/

section
variable {s : State} {dt : Nat} {m : Chip} (hm : Now s dt m)
include hm

theorem routeSwap_pends (hb : m.bay < m.rd64 R.PUR_SWAP_BAY_LO R.PUR_SWAP_BAY_HI) (hs : m.purlin.swapDue = none) :
    Does (.routeSwap dt) s (((m.onPur fun s => { s with swapDue := some (m.rd64 R.PUR_SWAP_BAY_LO R.PUR_SWAP_BAY_HI) }).put
      F.PUR_ROUTE_CTRL_swap 1).put F.PUR_ROUTE_STAT_pending 1) := by
  obtain ⟨hup, rfl⟩ := hm
  exact does_unit rfl hup (if_neg (not_or.2 ⟨Nat.not_le.2 hb, by rw [hs]; decide⟩))

theorem routeSwap_refused (h : m.rd64 R.PUR_SWAP_BAY_LO R.PUR_SWAP_BAY_HI ≤ m.bay ∨ m.purlin.swapDue ≠ none) :
    Does (.routeSwap dt) s (m.setFlag F.PUR_ROUTE_STAT_swap_refused) := by
  obtain ⟨hup, rfl⟩ := hm
  exact does_unit rfl hup (if_pos (h.imp_right Option.isSome_iff_ne_none.2))

end

/-- Settles O39: each command is one of the lemmas above, and what it leaves is said by the laws of the fabric (`routed_expected`,
`ack_flow`, `nak_same` with `resend_flow`, `hello_taken`, `helloOut_port`, `link_taken`). -/
theorem purlinFramesAndFlows : Obligations.PurlinFramesAndFlows := by
  refine ⟨?_, ?_, ?_, ?_, ?_, ?_, ?_, ?_, ?_, ?_, ?_, ?_, ?_, ?_, ?_, ?_, ?_, ?_, ?_, ?_⟩
  · -- PURLIN_FRAME routed
    intro s dt m p k fr x d l hm hp h had hb hst hok
    exact purlinFrame_routes hm hp h had hb hst hok
  · -- PURLIN_FRAME: the number its flow then expects
    intro s dt m p k fr x d l hm hp h had hb hst hok hseq hlt hhops hsrc hep hdst
    have hnext : fr.seq = x.expected fr.src fr.cls := hseq.trans (expected_of (admit_expect p fr _ x had) _ _).symm
    exact ⟨_, purlinFrame_routes hm hp h had hb hst hok, rfl, routed_expected p fr d l x hb hnext hlt hhops hsrc hep hdst⟩
  · -- PURLIN_FRAME that fails its checks
    intro s dt m p k fr x hm hp h had
    exact purlinFrame_rejected hm hp h had
  · -- PURLIN_FRAME on a port that is not alive
    intro s dt m p k fr hm hp h
    exact purlinFrame_deaf hm hp h
  · -- PURLIN_ACK
    intro s dt m dev cls seq hm hdev
    exact purlinAck_acknowledges hm hdev seq
  · -- PURLIN_ACK: the frames that are left unacknowledged
    intro s dt m dev cls seq hm hdev hw hl
    have hflow := ack_flow m dev cls seq hw hl
    exact ⟨_, purlinAck_acknowledges hm hdev seq, rfl, congrArg PurFlow.unacked hflow, congrArg PurFlow.ackAt hflow⟩
  · -- PURLIN_NAK
    intro s dt m dev cls seq hm hdev hu
    exact purlinNak_resends hm hdev seq hu
  · -- PURLIN_NAK: the frames count one more resending
    intro s dt m dev cls seq hm hdev hu hl hr
    refine ⟨_, purlinNak_resends hm hdev seq hu, rfl, ?_⟩
    rw [nak_same m dev cls seq hl]
    exact resend_flow m dev cls hr
  · -- PURLIN_RTO
    intro s dt m dev cls hm hdev hu ht
    exact purlinRto_due hm hdev hu ht
  · -- PURLIN_RTO: the frames count one more resending
    intro s dt m dev cls hm hdev hu ht hr
    exact ⟨_, purlinRto_due hm hdev hu ht, rfl, resend_flow m dev cls hr⟩
  · -- PURLIN_RTO with nothing due
    intro s dt m dev cls hm hdev h
    exact purlinRto_notDue hm hdev h
  · -- HELLO
    intro s dt m p r hm hp h
    exact hello_takes hm hp h r
  · -- HELLO: the first that passes
    intro s dt m p r hm hp hst hf hnone hpass hq
    exact ⟨_, hello_takes hm hp (purAlive_of_up hst) r, rfl, hello_taken p r m hst hf hnone hpass hq⟩
  · -- HELLO_SEND
    intro s dt m p hm hp h ht
    exact helloSend_due hm hp h ht
  · -- HELLO_SEND: the time of the HELLO
    intro s dt m p hm hp h ht
    have hnow : 0 < m.now := by omega
    exact ⟨_, helloSend_due hm hp h ht, rfl, helloOut_port p m hnow⟩
  · -- LINK_FRAME
    intro s dt m p l hm hp h
    exact linkFrame_takes hm hp h l
  · -- LINK_FRAME: its credits
    intro s dt m p l hm hp hst hlpi hq hok
    exact ⟨_, linkFrame_takes hm hp (purAlive_of_up hst) l, rfl, link_taken p l m hlpi hq hok⟩
  · -- ROUTE_SWAP
    rintro s dt m _ hm rfl hb hs
    exact routeSwap_pends hm hb hs
  · -- ROUTE_SWAP: the swap that is due
    rintro s dt m _ hm rfl hb hs
    exact ⟨_, routeSwap_pends hm hb hs, rfl, rfl⟩
  · -- ROUTE_SWAP refused
    rintro s dt m _ hm rfl h
    exact routeSwap_refused hm h

/-- The flag that a cause of a port's going down sets (R306). -/
def downFlag (p : Nat) : Nat → Fld
  | 0 => F.PUR_STAT_los p
  | 1 => F.PUR_STAT_lol p
  | _ => F.PUR_STAT_cw_lost p

/-- The flag of a cause lies in PUR_STAT below the port's state. -/
theorem downFlag_belowState (p cause : Nat) : (downFlag p cause).lo ≤ (downFlag p cause).hi ∧ (downFlag p cause).hi < 28 ∧
    (downFlag p cause).addr = (F.PUR_STAT_state p).addr := by
  unfold downFlag F.PUR_STAT_los F.PUR_STAT_lol F.PUR_STAT_cw_lost F.PUR_STAT_state
  split <;> simp

/-! ### Training and authentication (R303, R304) -/

section
variable {s : State} {dt : Nat} {m : Chip} {p : Nat} (hm : Now s dt m) (hp : p < Config.purlinPorts)
include hm hp

theorem purlinTrain_passes {t : PurTrain} (hst : m.purState p = 1) (hok : t.ok = true) (hskew : t.skew ≤ 80)
    (hmap : laneMapOk t.laneMap = true) : Does (.purlinTrain dt p t) s
      ((((m.put (F.PUR_LANE_map p) t.laneMap).put (F.PUR_LANE_inverted p) t.inverted).put (F.PUR_LANE_skew_ns p) t.skew).purAuth p t) := by
  obtain ⟨hup, rfl⟩ := hm
  refine does_unit (decide_eq_true hp) hup ?_
  have hpass : ¬ (!t.ok || decide (80 < t.skew) || !laneMapOk t.laneMap) = true := by simp [hok, hskew, hmap]
  exact (if_neg (not_not_intro hst)).trans (if_neg hpass)

theorem purlinTrain_fails {t : PurTrain} (hst : m.purState p = 1)
    (hbad : t.ok = false ∨ 80 < t.skew ∨ laneMapOk t.laneMap = false) {x : Chip}
    (hx : x = m.modPurPort p fun s => { s with fails := (m.purPort p).fails + 1, tryAt := m.now + 100000000 }) :
    Does (.purlinTrain dt p t) s (if 3 ≤ (m.purPort p).fails + 1 then x.setPurState p 0 else x) := by
  obtain ⟨hup, rfl⟩ := hm
  subst hx
  refine does_unit (decide_eq_true hp) hup ?_
  have hfail : (!t.ok || decide (80 < t.skew) || !laneMapOk t.laneMap) = true := by simpa [or_assoc] using hbad
  exact (if_neg (not_not_intro hst)).trans (if_pos hfail)

theorem purlinTrainRetry_due (hst : m.purState p = 0) (hf : 3 ≤ (m.purPort p).fails) (ht : (m.purPort p).tryAt ≤ m.now) :
    Does (.purlinTrainRetry dt p) s (m.setPurState p 1) := by
  obtain ⟨hup, rfl⟩ := hm
  exact does_unit (decide_eq_true hp) hup (if_pos ⟨hst, hf, ht⟩)

theorem purlinAuthRetry_due (t : PurTrain) (hst : m.purState p = 2) (ht : (m.purPort p).tryAt ≤ m.now) :
    Does (.purlinAuthRetry dt p t) s (m.purAuth p t) := by
  obtain ⟨hup, rfl⟩ := hm
  exact does_unit (decide_eq_true hp) hup (if_pos ⟨hst, ht⟩)

/-! ### Retraining, holding, rekeying (R332, R528) -/

theorem purlinRetrain_enabled (he : m.flag (F.PUR_CFG_enabled p) = true) : Does (.purlinRetrain dt p) s (m.purDown p) := by
  obtain ⟨hup, rfl⟩ := hm
  exact does_unit (decide_eq_true hp) hup (if_pos he)

theorem purlinRetrain_disabled (he : m.flag (F.PUR_CFG_enabled p) = false) : Does (.purlinRetrain dt p) s m := by
  obtain ⟨hup, rfl⟩ := hm
  exact does_unit (decide_eq_true hp) hup (if_neg (Bool.eq_false_iff.1 he))

theorem purlinHold_holds {x : Chip} (hx : x = m.put (F.PUR_CTRL_hold p) 1) (he : x.flag (F.PUR_CFG_enabled p) = true)
    (h : x.purAlive p = true) : Does (.purlinHold dt p true) s (x.purLeave p 6) := by
  obtain ⟨hup, rfl⟩ := hm
  subst hx
  refine does_unit (decide_eq_true hp) hup ?_
  simp only [purlinHold, b2n, he, h, Bool.not_true, Bool.false_eq_true, if_false, if_true]

theorem purlinHold_releases {x : Chip} (hx : x = m.put (F.PUR_CTRL_hold p) 0) (he : x.flag (F.PUR_CFG_enabled p) = true)
    (hst : x.purState p = 6) :
    Does (.purlinHold dt p false) s ((x.setPurState p 1).modPurPort p fun s => { s with keyed := false }) := by
  obtain ⟨hup, rfl⟩ := hm
  subst hx
  refine does_unit (decide_eq_true hp) hup ?_
  simp only [purlinHold, b2n, he, hst, Bool.not_true, Bool.false_eq_true, if_false, if_true]

theorem purlinRekey_due (hst : m.purState p = 3) (hc : 2 ^ 61 ≤ (m.purPort p).txCtr) (hs : (m.purPort p).txSwitch = none)
    {g : Nat × Nat} (hg : g = ((m.purPort p).gen + 1, (m.purPort p).txCtr + 1 + m.draw.1 % 2 ^ 32)) :
    Does (.purlinRekey dt p) s ((m.draw.2.setPurPort p { m.purPort p with txSwitch := some g }).linkSend p { rekey := some g }) := by
  obtain ⟨hup, rfl⟩ := hm
  subst hg
  exact does_unit (decide_eq_true hp) hup (if_pos ⟨hst, hc, by rw [hs]; rfl⟩)

/-! ### Ports that go down (R305, R306) -/

theorem purlinPortDown_alive (cause : Nat) (h : m.purAlive p = true) : Does (.purlinPortDown dt p cause) s
    ((m.setFlag (downFlag p cause)).purDown p) := by
  obtain ⟨hup, rfl⟩ := hm
  exact does_unit (decide_eq_true hp) hup (if_neg (by simp [h]))

section
variable (h : m.purAlive p = true) {l : List Nat} {x : Chip}
  (hl : l = ((m.purPort p).fecTimes.filter fun t => decide (m.now < t + 1000000)) ++ [m.now])
include h hl

theorem uncorrectableCodeword_fourth (hrun : (m.purPort p).run = 3)
    (hx : x = ((m.setPurPort p { m.purPort p with fecTimes := l, run := 4, resync := true }).setFlag (F.PUR_STAT_fec_uncorr p)).bump
      (R.PUR_CNT_UNCORR p)) : Does (.uncorrectableCodeword dt p true) s ((x.setFlag (F.PUR_STAT_cw_lost p)).purDown p) := by
  obtain ⟨hup, rfl⟩ := hm
  subst hl hx
  refine does_unit (decide_eq_true hp) hup ?_
  simp only [uncorrectableCodeword, h, hrun, Bool.not_true, Bool.false_eq_true, if_false, if_true, Nat.reduceAdd, le_refl]

theorem uncorrectableCodeword_first (hlim : l.length ≤ max 1 (m.get (F.PUR_FEC_CFG_fec_limit p)))
    (hx : x = ((m.setPurPort p { m.purPort p with fecTimes := l, run := 1, resync := true }).setFlag (F.PUR_STAT_fec_uncorr p)).bump
      (R.PUR_CNT_UNCORR p)) : Does (.uncorrectableCodeword dt p false) s x := by
  obtain ⟨hup, rfl⟩ := hm
  subst hl hx
  refine does_unit (decide_eq_true hp) hup ?_
  have hrun : ¬ 4 ≤ 1 := by omega
  simp only [uncorrectableCodeword, h, if_neg hrun, if_neg (Nat.not_lt.2 hlim), Bool.not_true, Bool.false_eq_true, if_false]

end

/-! ### Low-power idle (R320 to R322) -/

theorem lpiEntry_sleeps (hi : m.mayIdle p = true) (hg : (m.purPort p).grant = true) : Does (.lpiEntry dt p) s (m.purSleep p) := by
  obtain ⟨hup, rfl⟩ := hm
  exact does_unit (decide_eq_true hp) hup ((if_neg (by simp [hi])).trans (if_pos hg))

theorem lpiEntry_asks (hi : m.mayIdle p = true) (hg : (m.purPort p).grant = false) :
    Does (.lpiEntry dt p) s (m.linkSend p { lpiReq := true }) := by
  obtain ⟨hup, rfl⟩ := hm
  exact does_unit (decide_eq_true hp) hup ((if_neg (by simp [hi])).trans (if_neg (Bool.eq_false_iff.1 hg)))

theorem lpiEntry_busy (hi : m.mayIdle p = false) : Does (.lpiEntry dt p) s m := by
  obtain ⟨hup, rfl⟩ := hm
  exact does_unit (decide_eq_true hp) hup (if_pos (by simp [hi]))

theorem lpiReenable_clears : Does (.lpiReenable dt p) s
    ((m.put (F.PUR_STAT_lpi_disabled p) 0).modPurPort p fun s => { s with misses := 0 }) := by
  obtain ⟨hup, rfl⟩ := hm
  exact does_unit (decide_eq_true hp) hup rfl

variable (hst : m.purState p = 5) (hw : m.wakeBay p = true)
include hst hw

theorem guardMiss_silence (hc : 2000 ≤ m.coreCycle) : Does (.guardMiss dt p) s (m.guardMiss p) := by
  obtain ⟨hup, rfl⟩ := hm
  exact does_unit (decide_eq_true hp) hup (if_pos ⟨hst, hw, hc⟩)

theorem wakeWindow_misses {skew : Int} {relock : Bool} (busy : Bool) (hbad : 2000 < skew ∨ relock = false) :
    Does (.wakeWindow dt p skew relock busy) s (m.guardMiss p) := by
  obtain ⟨hup, rfl⟩ := hm
  have hopens : ¬ ((elapse dt s.m).purState p ≠ 5 ∨ (!(elapse dt s.m).wakeBay p) = true) := by simp [hst, hw]
  have hmiss : (decide (2000 < skew) || !relock) = true := by simpa using hbad
  exact does_unit (decide_eq_true hp) hup ((if_neg hopens).trans (if_pos hmiss))

end

/-- The module once the skew of a wake on port `p` is shown and its end has answered whether it has traffic. -/
def wakeAnswered (p : Nat) (skew : Int) (own : Bool) (m : Chip) : Chip :=
  (((m.put F.TM_WAKE_SKEW_port p).put F.TM_WAKE_SKEW_miss 0).put F.TM_WAKE_SKEW_skew
    (unsignedOf 25 (clampI (-(2 ^ 24)) (2 ^ 24 - 1) skew))).linkSend p { busy := own }

section
variable {s : State} {dt : Nat} {m : Chip} {p : Nat} (hm : Now s dt m) (hp : p < Config.purlinPorts) (hst : m.purState p = 5)
  (hw : m.wakeBay p = true) {skew : Int} (hskew : skew ≤ 2000)
include hm hp hst hw hskew

/-- Ends that relock in time measure the skew and exchange whether they have traffic, which decides whether the port stays up. -/
theorem wakeWindow_relocks (busy : Bool) {own : Bool} (ho : own = (!(m.purPort p).txq.isEmpty || m.purPlanned p)) :
    Does (.wakeWindow dt p skew true busy) s
      (if own || busy then
        (((wakeAnswered p skew own m).modPurPort p fun s => { s with upAt := m.now, lastTx := m.now }).setPurState p 3).purFlush p
       else wakeAnswered p skew own m) := by
  obtain ⟨hup, rfl⟩ := hm
  subst ho
  have hopens : ¬ ((elapse dt s.m).purState p ≠ 5 ∨ (!(elapse dt s.m).wakeBay p) = true) := by simp [hst, hw]
  have hmeets : ¬ (decide (2000 < skew) || !true) = true := by simpa using hskew
  exact does_unit (decide_eq_true hp) hup ((if_neg hopens).trans (if_neg hmeets))

theorem wakeWindow_sleepsOn (hq : (m.purPort p).txq = []) (hpl : m.purPlanned p = false) :
    Does (.wakeWindow dt p skew true false) s (wakeAnswered p skew false m) :=
  wakeWindow_relocks hm hp hst hw hskew false (own := false) (by rw [hq, hpl]; rfl)

theorem wakeWindow_staysUp {y : Chip} (hy : y = wakeAnswered p skew (!(m.purPort p).txq.isEmpty || m.purPlanned p) m) :
    Does (.wakeWindow dt p skew true true) s
      (((y.modPurPort p fun s => { s with upAt := m.now, lastTx := m.now }).setPurState p 3).purFlush p) := by
  have hd := wakeWindow_relocks hm hp hst hw hskew true rfl
  rw [Bool.or_true, if_pos rfl] at hd
  rwa [hy]

end

/-- Settles O40: each command is one of the lemmas above, and what it leaves is said by the laws of the fabric (`auth_keyed`,
`auth_passes`, `train_fails`, `down_port`, `leave_hello`, `flagged_down`, `rekey_port`, `fec_port`, `guardMiss_port`, `wakePort_flows`,
`reenable_port`). That the switch counter of a renewed key is a free value is the model's choice (log entry 94). -/
theorem purlinPortsTrainAndSleep : Obligations.PurlinPortsTrainAndSleep := by
  refine ⟨?_, ?_, ?_, ?_, ?_, ?_, ?_, ?_, ?_, ?_, ?_, ?_, ?_, ?_, ?_, ?_, ?_, ?_, ?_, ?_, ?_, ?_, ?_, ?_, ?_, ?_, ?_, ?_, ?_, ?_, ?_,
    ?_, ?_, ?_, ?_, ?_, ?_, ?_, ?_, ?_, ?_⟩
  · -- PURLIN_TRAIN passes
    intro s dt m p t hm hp hok hskew hmap hst
    exact purlinTrain_passes hm hp hst hok hskew hmap
  · -- PURLIN_TRAIN passes with keys held: fresh credits
    intro s dt m p t hm hp hok hskew hmap hst hk
    exact ⟨_, purlinTrain_passes hm hp hst hok hskew hmap, rfl, auth_keyed p t _ hk⟩
  · -- PURLIN_TRAIN fails
    intro s dt m p t x hm hp hst hbad hx
    exact purlinTrain_fails hm hp hst hbad hx
  · -- PURLIN_TRAIN fails: it counts, and the next try
    rintro s dt _ p t ⟨hup, rfl⟩ hp hst hok
    exact ⟨_, does_unit (decide_eq_true hp) hup rfl, rfl, train_fails dt p t s.m _ rfl hst hok⟩
  · -- PURLIN_TRAIN_RETRY
    intro s dt m p hm hp hst hf ht
    exact purlinTrainRetry_due hm hp hst hf ht
  · -- PURLIN_TRAIN_RETRY: the port trains
    intro s dt m p hm hp hst hf ht
    exact ⟨_, purlinTrainRetry_due hm hp hst hf ht, rfl, setState_get p 1 m (by decide) (by decide)⟩
  · -- PURLIN_AUTH_RETRY
    intro s dt m p t hm hp hst ht
    exact purlinAuthRetry_due hm hp t hst ht
  · -- PURLIN_AUTH_RETRY passes: fresh credits
    intro s dt m p t hm hp hst ht hk ha hc
    exact ⟨_, purlinAuthRetry_due hm hp t hst ht, rfl, auth_passes p t m hk ha hc⟩
  · -- PURLIN_RETRAIN
    intro s dt m p hm hp he
    exact purlinRetrain_enabled hm hp he
  · -- PURLIN_RETRAIN: the peer's HELLO is forgotten
    intro s dt m p hm hp he h hwf
    exact ⟨_, purlinRetrain_enabled hm hp he, rfl, down_port p m h hwf⟩
  · -- PURLIN_RETRAIN of a port that is not enabled
    intro s dt m p hm hp he
    exact purlinRetrain_disabled hm hp he
  · -- PURLIN_HOLD
    intro s dt m p x hm hp hx he h
    exact purlinHold_holds hm hp hx he h
  · -- PURLIN_HOLD: the peer's HELLO is forgotten
    rintro s dt m p _ hm hp rfl he h hwf
    exact ⟨_, purlinHold_holds hm hp rfl he h, rfl, leave_hello p 6 (m.put (F.PUR_CTRL_hold p) 1) hwf⟩
  · -- PURLIN_HOLD released
    intro s dt m p x hm hp hx he hst
    exact purlinHold_releases hm hp hx he hst
  · -- PURLIN_HOLD released: the port trains
    intro s dt m p x hm hp hx he hst
    exact ⟨_, purlinHold_releases hm hp hx he hst, rfl, setState_get p 1 x (by decide) (by decide)⟩
  · -- PURLIN_REKEY
    rintro s dt m p _ g hm hp hst hc hs rfl hg
    exact purlinRekey_due hm hp hst hc hs hg
  · -- PURLIN_REKEY: the generation proposed
    rintro s dt m p _ g hm hp hst hc hs rfl hg
    exact ⟨_, purlinRekey_due hm hp hst hc hs hg, rfl, rekey_port p g _ _ _ rfl⟩
  · -- PURLIN_PORT_DOWN: loss of signal
    intro s dt m p hm hp h
    exact purlinPortDown_alive hm hp 0 h
  · -- PURLIN_PORT_DOWN: loss of signal, the peer's HELLO is forgotten
    intro s dt m p hm hp h hwf hc
    exact ⟨_, purlinPortDown_alive hm hp 0 h, rfl, flagged_down p _ m h hwf hc (downFlag_belowState p 0)⟩
  · -- PURLIN_PORT_DOWN: loss of clock lock
    intro s dt m p hm hp h
    exact purlinPortDown_alive hm hp 1 h
  · -- PURLIN_PORT_DOWN: loss of clock lock, the peer's HELLO is forgotten
    intro s dt m p hm hp h hwf hc
    exact ⟨_, purlinPortDown_alive hm hp 1 h, rfl, flagged_down p _ m h hwf hc (downFlag_belowState p 1)⟩
  · -- PURLIN_PORT_DOWN: loss of codeword lock
    intro s dt m p hm hp h
    exact purlinPortDown_alive hm hp 2 h
  · -- PURLIN_PORT_DOWN: loss of codeword lock, the peer's HELLO is forgotten
    intro s dt m p hm hp h hwf hc
    exact ⟨_, purlinPortDown_alive hm hp 2 h, rfl, flagged_down p _ m h hwf hc (downFlag_belowState p 2)⟩
  · -- UNCORRECTABLE_CODEWORD, the fourth in a row
    intro s dt m p l x hm hp h hl hrun hx
    exact uncorrectableCodeword_fourth hm hp h hl hrun hx
  · -- UNCORRECTABLE_CODEWORD within the limit
    intro s dt m p l x hm hp h hl hlim hx
    exact uncorrectableCodeword_first hm hp h hl hlim hx
  · -- UNCORRECTABLE_CODEWORD within the limit: blocks are discarded
    rintro s dt m p l _ hm hp h hl hlim rfl
    exact ⟨_, uncorrectableCodeword_first hm hp h hl hlim rfl, rfl, fec_port p l m⟩
  · -- LPI_ENTRY, granted
    intro s dt m p hm hp hi hg
    exact lpiEntry_sleeps hm hp hi hg
  · -- LPI_ENTRY, granted: the port sleeps
    intro s dt m p hm hp hi hg
    exact ⟨_, lpiEntry_sleeps hm hp hi hg, rfl, setState_get p 5 _ (by decide) (by decide)⟩
  · -- LPI_ENTRY, not granted
    intro s dt m p hm hp hi hg
    exact lpiEntry_asks hm hp hi hg
  · -- LPI_ENTRY, not granted: one LINK frame is sent
    intro s dt m p hm hp hi hg
    exact ⟨_, lpiEntry_asks hm hp hi hg, rfl, linkSend_port p _ m⟩
  · -- LPI_ENTRY of a port that may not idle
    intro s dt m p hm hp hi
    exact lpiEntry_busy hm hp hi
  · -- WAKE_WINDOW missed
    intro s dt m p skew relock busy hm hp hst hw hbad
    exact wakeWindow_misses hm hp hst hw busy hbad
  · -- WAKE_WINDOW missed: the miss counts
    intro s dt m p skew relock busy hm hp hst hw hbad
    exact ⟨_, wakeWindow_misses hm hp hst hw busy hbad, rfl, guardMiss_port p m⟩
  · -- WAKE_WINDOW without traffic
    intro s dt m p skew hm hp hst hw hskew hq hpl
    exact wakeWindow_sleepsOn hm hp hst hw hskew hq hpl
  · -- WAKE_WINDOW without traffic: one LINK frame is sent
    intro s dt m p skew hm hp hst hw hskew hq hpl
    exact ⟨_, wakeWindow_sleepsOn hm hp hst hw hskew hq hpl, rfl, linkSend_port p _ _⟩
  · -- WAKE_WINDOW with traffic
    intro s dt m p skew y hm hp hst hw hskew hy
    exact wakeWindow_staysUp hm hp hst hw hskew hy
  · -- WAKE_WINDOW with traffic: the port is up
    rintro s dt m p skew _ hm hp hst hw hskew rfl hq hnow
    exact ⟨_, wakeWindow_staysUp hm hp hst hw hskew rfl, rfl, wakePort_flows p m.now _ (wake_empty p _ _ hq) hnow⟩
  · -- GUARD_MISS
    intro s dt m p hm hp hst hw hc
    exact guardMiss_silence hm hp hst hw hc
  · -- GUARD_MISS: the miss counts
    intro s dt m p hm hp hst hw hc
    exact ⟨_, guardMiss_silence hm hp hst hw hc, rfl, guardMiss_port p m⟩
  · -- LPI_REENABLE
    intro s dt m p hm hp
    exact lpiReenable_clears hm hp
  · -- LPI_REENABLE: the misses are cleared
    intro s dt m p hm hp hk
    exact ⟨_, lpiReenable_clears hm hp, rfl, reenable_port p (m.put (F.PUR_STAT_lpi_disabled p) 0) hk⟩

end Sys2Proof.Proofs
end

section
/-!
PROOFS of the family 12_encoders_and_firing: an encoder port counts in its mode and stops; it latches its index and its probe, and is lost
with a line that its mode counts with.
-/
namespace Sys2Proof.Proofs
open Sys2Proof.Machine Sys2Proof.Laws

/-! ### Quadrature mode (R344) -/

theorem quadrature_counting {m : Chip} {p : Nat} (hmode : m.encMode p = 1) (hst : m.get (F.ENC_STAT_state p) ≠ 4) :
    ¬ (m.encMode p != 1 || m.get (F.ENC_STAT_state p) == 4) = true := by
  simp [hmode, hst]

section
variable {s : State} {dt : Nat} {m : Chip} {p : Nat} {a b : Bool} {e : EncPort} (hm : Now s dt m) (hp : p < Config.encPorts)
include hm hp

theorem quadratureEdge_idle (h : m.encMode p ≠ 1 ∨ m.get (F.ENC_STAT_state p) = 4) :
    Does (.quadratureEdge dt p a b) s (m.setEnc p { m.enc p with a, b }) := by
  obtain ⟨hup, rfl⟩ := hm
  refine does_unit (decide_eq_true hp) hup (if_pos ?_)
  simpa only [Bool.or_eq_true, bne_iff_ne, beq_iff_eq] using h

variable (he : e = m.enc p) (hmode : m.encMode p = 1) (hst : m.get (F.ENC_STAT_state p) ≠ 4)
include he hmode hst

theorem quadratureEdge_illegal (ha : e.a ≠ a) (hb : e.b ≠ b) : Does (.quadratureEdge dt p a b) s
    (((m.setEnc p { e with a, b }).setFlag (F.ENC_STAT_illegal p)).bump (R.ENC_CNT_ILLEGAL p)) := by
  obtain ⟨hup, rfl⟩ := hm
  subst he
  exact does_unit (decide_eq_true hp) hup ((if_neg (quadrature_counting hmode hst)).trans (if_pos (by simp [ha, hb])))

/-- One input alone changes: the count moves by one, and A leads B when a changed A differs from B or a changed B equals A. -/
theorem quadratureEdge_counts (h : ¬ (e.a ≠ a ∧ e.b ≠ b)) (h' : ¬ (e.a = a ∧ e.b = b)) : Does (.quadratureEdge dt p a b) s
    ((m.setEnc p { e with a, b }).quadStep p
      (if (if e.a != a then a != b else a == b) != m.flag (F.ENC_CFG_invert p) then 1 else -1)) := by
  obtain ⟨hup, rfl⟩ := hm
  subst he
  refine does_unit (decide_eq_true hp) hup
    ((if_neg (quadrature_counting hmode hst)).trans ((if_neg ?_).trans (if_neg ?_)))
  · simpa only [Bool.and_eq_true, bne_iff_ne] using h
  · simpa only [Bool.and_eq_true, beq_iff_eq] using h'

theorem quadratureEdge_ofA (ha : e.a ≠ a) (hb : e.b = b) : Does (.quadratureEdge dt p a b) s
    ((m.setEnc p { e with a, b }).quadStep p (if (a != b) != m.flag (F.ENC_CFG_invert p) then 1 else -1)) := by
  have h := quadratureEdge_counts hm hp he hmode hst (fun h => h.2 hb) (fun h => ha h.1)
  rwa [if_pos (bne_iff_ne.2 ha)] at h

theorem quadratureEdge_ofB (ha : e.a = a) (hb : e.b ≠ b) : Does (.quadratureEdge dt p a b) s
    ((m.setEnc p { e with a, b }).quadStep p (if (a == b) != m.flag (F.ENC_CFG_invert p) then 1 else -1)) := by
  have h := quadratureEdge_counts hm hp he hmode hst (fun h => h.1 ha) (fun h => hb h.2)
  rwa [if_neg (not_not_intro ha ∘ bne_iff_ne.1)] at h

end

/-! ### Tooth mode (R346 to R348) -/

/-- The counts of a tooth: ct, down where B gives the direction and is low (R346). -/
def toothStep (m : Chip) (p : Nat) (b : Bool) : Int :=
  if m.flag (F.ENC_CFG_dir_src p) && !b then -(m.toothCt p : Int) else m.toothCt p

section
variable {s : State} {dt : Nat} {m : Chip} {p : Nat} (hm : Now s dt m) (hp : p < Config.encPorts) (hmode : m.encMode p = 2)
include hm hp hmode

theorem toothEdge_first {b : Bool} {x y : Chip} (hst : m.get (F.ENC_STAT_state p) = 0) (hw : m.closeWindows p 3 = m)
    (hacq : (m.enc p).acqTeeth = 0) (hx : x = m.encMove p (toothStep m p b))
    (hy : y = (x.setEnc p { x.enc p with acqTeeth := 1 }).setEncState p 1) :
    Does (.toothEdge dt p b) s ((y.setEnc p { y.enc p with lastTooth := some m.cyc, prevReal := true }).rephase p
      (qOfInt (x.enc p).count) ⟨0, 1⟩ (x.enc p).count) := by
  obtain ⟨hup, rfl⟩ := hm
  subst hx hy
  refine does_unit (decide_eq_true hp) hup ?_
  simp [toothEdge, hmode, hst, hw, hacq, toothStep]

theorem toothEdge_noise {b : Bool} {q l : Nat} (hst : m.get (F.ENC_STAT_state p) = 2) (hw : m.closeWindows p 3 = m)
    (hq : (m.enc p).period = some q) (hl : (m.enc p).lastTooth = some l)
    (hearly : qLt (qOfInt (m.cyc - l : Nat)) (qMul (m.winLo p) (qOfInt q)) = true) :
    Does (.toothEdge dt p b) s (((m.setFlag (F.ENC_STAT_noise p)).bump (R.ENC_CNT_NOISE p)).markEstimate p (m.toothPos p m.cyc)) := by
  obtain ⟨hup, rfl⟩ := hm
  refine does_unit (decide_eq_true hp) hup ?_
  simp [toothEdge, hmode, hst, hw, hq, hl, hearly]

theorem toothWindowExpiry_closes (hover : m.windowOver p true = true) : Does (.toothWindowExpiry dt p) s (m.windowClose p) := by
  obtain ⟨hup, rfl⟩ := hm
  exact does_unit (decide_eq_true hp) hup (if_pos ⟨hmode, hover⟩)

end

theorem toothWindowExpiry_notDue {s : State} {dt : Nat} {m : Chip} {p : Nat} (hm : Now s dt m) (hp : p < Config.encPorts)
    (h : m.windowOver p true = false) : Does (.toothWindowExpiry dt p) s m := by
  obtain ⟨hup, rfl⟩ := hm
  exact does_unit (decide_eq_true hp) hup (if_neg fun hdue => Bool.eq_false_iff.1 h hdue.2)

/-! ### SSI mode (R350, R351) -/

/-- The port `e` once an SSI sample that read `r`, of `n` bits, has loaded its count at the cycle `c`. -/
def ssiLoaded (n r c : Nat) (e : EncPort) : EncPort :=
  { e with count := signedOf n r, highest := signedOf n r, bar := none, ssiRaw := some r, ssiAt := c, ssiSpan := 0,
           ssiD := 0, ssiRej := 0, lastChg := some c, held := none, least := none }

/-- The module once an SSI sample is rejected. -/
def ssiRejected (p : Nat) (m : Chip) : Chip :=
  ((m.setEnc p { m.enc p with ssiRej := (m.enc p).ssiRej + 1 }).setFlag (F.ENC_STAT_ssi_err p)).bump (R.ENC_CNT_SSI_ERR p)

section
variable {s : State} {dt : Nat} {m : Chip} {p : Nat} (hm : Now s dt m) (hp : p < Config.encPorts) (hmode : m.encMode p = 3)
include hm hp hmode

theorem ssiSample_loads {raw : Nat} (hst : m.get (F.ENC_STAT_state p) = 0) (hraw : (m.enc p).ssiRaw = none)
    (hgray : m.flag (F.ENC_SSI_CFG_gray p) = false) (hinv : m.flag (F.ENC_CFG_invert p) = false) :
    Does (.ssiSample dt p raw true) s ((m.setEnc p (ssiLoaded (m.get (F.ENC_SSI_CFG_bits p) + 1)
      (raw % 2 ^ (m.get (F.ENC_SSI_CFG_bits p) + 1)) m.cyc (m.enc p))).setEncState p 1) := by
  obtain ⟨hup, rfl⟩ := hm
  refine does_unit (decide_eq_true hp) hup ?_
  simp [ssiSample, hmode, hst, hraw, hgray, hinv, ssiLoaded]

/-- A sample with the line low is rejected, and the third in a row loses the port. -/
theorem ssiSample_rejects {raw : Nat} (hst : m.get (F.ENC_STAT_state p) ≠ 4) : Does (.ssiSample dt p raw false) s
    (if 2 ≤ (m.enc p).ssiRej then (ssiRejected p m).encLost 3 p else ssiRejected p m) := by
  obtain ⟨hup, rfl⟩ := hm
  have hlive : ¬ ((elapse dt s.m).encMode p != 3 ||
      ((elapse dt s.m).get (F.ENC_STAT_state p) == 4 && ((elapse dt s.m).enc p).lostBy == 1)) = true := by
    rw [hmode, beq_eq_false_iff_ne.2 hst]
    exact Bool.false_ne_true
  exact does_unit (decide_eq_true hp) hup ((if_neg hlive).trans (if_pos rfl))

end

/-! ### The belt that stops (R352) -/

theorem beltStop_stops {s : State} {dt : Nat} {m : Chip} {p l q : Nat} (hm : Now s dt m) (hp : p < Config.encPorts)
    (hmode : m.encMode p = 1 ∨ m.encMode p = 3) (hheld : (m.enc p).held = none) (hl : (m.enc p).lastChg = some l)
    (hq : (m.enc p).prevChg = some q) (ht : 2 * (l - q) ≤ m.cyc - l) :
    Does (.beltStop dt p) s ((((m.setEnc p { m.enc p with held := some (m.encPos p), chg := [], idxPrev := none }).setEncState p 3).setFlag
      (F.ENC_STAT_stopped p)).bump (R.ENC_CNT_STOP p)) := by
  obtain ⟨hup, rfl⟩ := hm
  refine does_unit (decide_eq_true hp) hup ?_
  have hcounts : ((elapse dt s.m).encMode p != 1 && (elapse dt s.m).encMode p != 3) = false := by
    rcases hmode with h | h <;> simp [h]
  simp only [beltStop, hcounts, hheld, hl, hq, ht, Option.isSome_none, decide_true, Bool.not_true, Bool.or_self, Bool.false_eq_true,
    if_false]

/-- Settles O19: each clause is one branch of its command, and what the first tooth and the end of a window leave is said by the laws of
the encoders (`tooth_spec`, `window_spec`). -/
theorem encodersCountAndStop : Obligations.EncodersCountAndStop := by
  refine ⟨?_, ?_, ?_, ?_, ?_, ?_, ?_, ?_, ?_, ?_, ?_, ?_, ?_, ?_⟩
  · -- QUADRATURE_EDGE of A
    intro s dt m p a b e hm hp he hmode hst ha hb
    exact quadratureEdge_ofA hm hp he hmode hst ha hb
  · -- QUADRATURE_EDGE of B
    intro s dt m p a b e hm hp he hmode hst ha hb
    exact quadratureEdge_ofB hm hp he hmode hst ha hb
  · -- QUADRATURE_EDGE of both
    intro s dt m p a b e hm hp he hmode hst ha hb
    exact quadratureEdge_illegal hm hp he hmode hst ha hb
  · -- QUADRATURE_EDGE of a port that does not count edges
    intro s dt m p a b hm hp h
    exact quadratureEdge_idle hm hp h
  · -- TOOTH_EDGE: the first tooth
    rintro s dt m p b _ x y hm hp hmode hst hw rfl hacq hx hy
    exact toothEdge_first hm hp hmode hst hw hacq hx hy
  · -- TOOTH_EDGE: what the first tooth leaves
    rintro s dt m p b _ hm hp hmode hst hw hacq rfl
    exact ⟨_, toothEdge_first hm hp hmode hst hw hacq rfl rfl, rfl, tooth_spec m p (toothStep m p b)⟩
  · -- TOOTH_EDGE: noise
    intro s dt m p b q l hm hp hmode hst hw hq hl hearly
    exact toothEdge_noise hm hp hmode hst hw hq hl hearly
  · -- TOOTH_WINDOW_EXPIRY
    intro s dt m p hm hp hmode hover
    exact toothWindowExpiry_closes hm hp hmode hover
  · -- TOOTH_WINDOW_EXPIRY: the synthetic tooth
    intro s dt m p q l hm hp hmode hover hq hl hrun
    exact ⟨_, toothWindowExpiry_closes hm hp hmode hover, rfl, window_spec m p q l hq hl hrun⟩
  · -- TOOTH_WINDOW_EXPIRY before the end of the window
    intro s dt m p hm hp _ hover
    exact toothWindowExpiry_notDue hm hp hover
  · -- SSI_SAMPLE: the first
    rintro s dt m p raw _ hm hp hmode hst hraw hgray hinv rfl
    exact ssiSample_loads hm hp hmode hst hraw hgray hinv
  · -- SSI_SAMPLE with the line low
    intro s dt m p raw hm hp hmode hst hrej
    have h := ssiSample_rejects (raw := raw) hm hp hmode hst
    rwa [if_neg (Nat.not_le.2 hrej)] at h
  · -- SSI_SAMPLE with the line low, the third in a row
    intro s dt m p raw hm hp hmode hst hrej
    have h := ssiSample_rejects (raw := raw) hm hp hmode hst
    rwa [if_pos hrej] at h
  · -- BELT_STOP
    intro s dt m p l q hm hp hmode hheld hl hq ht
    exact beltStop_stops hm hp hmode hheld hl hq ht

/-! ### Index and probe (R357, R358, R373) -/

/-- Of a port, a probe latch changes only that a probe is pending. -/
theorem probeLatch_enc (m : Chip) (p : Nat) : (m.probeLatch p).enc p = { m.enc p with probePending := true } := by
  have hset (x : Chip) : (x.setEnc p { m.enc p with probePending := true }).enc p = { m.enc p with probePending := true } :=
    enc_setEnc x p _ fun h => by simpa using congrArg EncPort.probePending h
  simp only [Chip.probeLatch, Chip.setFlagIf]
  split
  · exact (enc_of rfl p).trans (hset _)
  · exact hset _

section
variable {s : State} {dt : Nat} {m : Chip} {p : Nat} (hm : Now s dt m) (hp : p < Config.encPorts)
include hm hp

theorem indexEdge_first {e : EncPort} (he : e = m.enc p) (hen : m.flag (F.ENC_CFG_index_en p) = true)
    (hmode : m.encMode p = 1 ∨ m.encMode p = 2) (hprev : e.idxPrev = none) :
    Does (.indexEdge dt p) s ((((m.putPos (R.ENC_IDX_LO p) (R.ENC_IDX_HI p) (e.count * 65536)).setFlag (F.ENC_STAT_index_seen p)).bump
      (R.ENC_CNT_INDEX p)).setEnc p { e with idxPrev := if e.up && !e.held.isSome then some e.count else none }) := by
  obtain ⟨hup, rfl⟩ := hm
  subst he
  refine does_unit (decide_eq_true hp) hup ((if_neg ?_).trans ?_)
  · rcases hmode with h | h <;> simp [hen, h]
  · simp only [hprev]

theorem indexEdge_ignored (h : m.flag (F.ENC_CFG_index_en p) = false ∨ m.encMode p = 0 ∨ m.encMode p = 3) :
    Does (.indexEdge dt p) s m := by
  obtain ⟨hup, rfl⟩ := hm
  refine does_unit (decide_eq_true hp) hup (if_pos ?_)
  rcases h with h | h | h <;> simp [h]

theorem probeEdge_latches {src : Nat} (hsrc : src ≤ 32) (hmode : m.encMode p ≠ 0) (hown : m.get (F.ENC_CFG_probe_src p) = src) :
    Does (.probeEdge dt p src) s (m.probeLatch p) := by
  obtain ⟨hup, rfl⟩ := hm
  exact does_unit (by simp [hp, hsrc]) hup (if_pos (by simp [hmode, hown, hsrc]))

theorem probeEdge_ofAnother {src : Nat} (hsrc : src ≤ 32) (hother : m.get (F.ENC_CFG_probe_src p) ≠ src) :
    Does (.probeEdge dt p src) s m := by
  obtain ⟨hup, rfl⟩ := hm
  exact does_unit (by simp [hp, hsrc]) hup (if_neg (by rw [beq_eq_false_iff_ne.2 hother, Bool.and_false]; exact Bool.false_ne_true))

/-! ### Line faults (R342, R354) -/

section
variable {i : Nat} (hi : i < 3)
include hi

theorem encoderLineFault_flagged {x : Chip} (hmode : m.encMode p ≠ 0)
    (hx : x = (m.setEnc p { m.enc p with lineFaults := i :: (m.enc p).lineFaults.filter (· != i) }).setFlag (lineFaultFlag p i)) :
    Does (.encoderLineFault dt p i) s (if countingInput (m.encMode p) i then x.encLost 1 p else x) := by
  obtain ⟨hup, rfl⟩ := hm
  subst hx
  exact does_unit (by simp [hp, hi]) hup (if_neg hmode)

theorem lineFaultClear_ofUnlost (hst : m.get (F.ENC_STAT_state p) ≠ 4) : Does (.lineFaultClear dt p i) s
    (m.setEnc p { m.enc p with lineFaults := (m.enc p).lineFaults.filter (· != i) }) := by
  obtain ⟨hup, rfl⟩ := hm
  exact does_unit (by simp [hp, hi]) hup (if_neg (by rw [beq_eq_false_iff_ne.2 hst]; exact Bool.false_ne_true))

theorem lineFaultClear_recovers (hst : m.get (F.ENC_STAT_state p) = 4) (hby : (m.enc p).lostBy = 1)
    (hnone : (((m.enc p).lineFaults.filter (· != i)).any (countingInput (m.encMode p))) = false) : Does (.lineFaultClear dt p i) s
      ((m.setEnc p { m.enc p with lineFaults := (m.enc p).lineFaults.filter (· != i) }).encRecover p) := by
  obtain ⟨hup, rfl⟩ := hm
  exact does_unit (by simp [hp, hi]) hup (if_pos (by rw [hst, hby, hnone]; rfl))

end

end

/-- Settles O20: each clause is one branch of its command, and what a probe edge leaves of its port is `probeLatch_enc`. -/
theorem encodersLatchAndLose : Obligations.EncodersLatchAndLose := by
  refine ⟨?_, ?_, ?_, ?_, ?_, ?_, ?_, ?_, ?_⟩
  · -- INDEX_EDGE, the first in its direction
    intro s dt m p e hm hp he hen hmode hprev
    exact indexEdge_first hm hp he hen hmode hprev
  · -- INDEX_EDGE of a port that keeps no index
    intro s dt m p hm hp h
    exact indexEdge_ignored hm hp h
  · -- PROBE_EDGE of the port's source
    intro s dt m p src hm hp hsrc hmode hown
    exact probeEdge_latches hm hp hsrc hmode hown
  · -- PROBE_EDGE of the port's source: a probe is pending
    intro s dt m p src hm hp hsrc hmode hown
    exact ⟨_, probeEdge_latches hm hp hsrc hmode hown, rfl, probeLatch_enc m p⟩
  · -- PROBE_EDGE of another source
    intro s dt m p src hm hp hsrc hother
    exact probeEdge_ofAnother hm hp hsrc hother
  · -- PROBE_SEQ_READ
    rintro s dt _ p ⟨hup, rfl⟩ hp
    exact does_unit (decide_eq_true hp) hup rfl
  · -- ENCODER_LINE_FAULT
    intro s dt m p i x hm hp hi hmode hx
    exact encoderLineFault_flagged hm hp hi hmode hx
  · -- LINE_FAULT_CLEAR of a port that is not lost
    intro s dt m p i hm hp hi hst
    exact lineFaultClear_ofUnlost hm hp hi hst
  · -- LINE_FAULT_CLEAR of the last counting input at fault
    intro s dt m p i hm hp hi hst hby hnone
    exact lineFaultClear_recovers hm hp hi hst hby hnone

end Sys2Proof.Proofs
end

section
/-!
PROOFS of the family 13_peg_link_and_field_io: a field input that changes is recorded and feeds the pair units, the queues give their
records up one by one, and a field output switches off on a fault and is tried again.
-/
namespace Sys2Proof.Proofs
open Sys2Proof.Machine Sys2Proof.Laws

/-! ### Field inputs (R400, R403) -/

/-- The module once field input `ch` stands at `level`. -/
def inputAt (ch : Nat) (level : Bool) (m : Chip) : Chip :=
  (m.onFio fun f => { f with
    level := if level then f.level ||| BitVec.ofNat 32 (2 ^ ch) else f.level &&& ~~~(BitVec.ofNat 32 (2 ^ ch)) }).refreshIn

/-- The register whose bits enable the records of rising or of falling edges. -/
def edgeEnable (level : Bool) : Nat := if level then R.FIO_EDGE_R else R.FIO_EDGE_F

/-- The edge of `ch` to `level` has been offered to the eight pair units. -/
def pairsFed (ch : Nat) (level : Bool) (stamp : Nat) (m : Chip) : Chip :=
  forAll (upTo 8) (fun k y => y.pairEdge ch level stamp k) m

theorem pairsFed_level (ch : Nat) (level : Bool) (stamp : Nat) (m : Chip) : (pairsFed ch level stamp m).fio.level = m.fio.level :=
  forAll_frame (fun z : Chip => z.fio.level) _ _ m fun k x => eq_fiolevel_Chip_pairEdge ch level stamp k x

theorem pairsFed_events (ch : Nat) (level : Bool) (stamp : Nat) (m : Chip) : (pairsFed ch level stamp m).fio.events = m.fio.events :=
  forAll_frame (fun z : Chip => z.fio.events) _ _ m fun k x => eq_fioevents_Chip_pairEdge ch level stamp k x

theorem pushEdge_events (r : EvtRec) {m : Chip} (h : m.fio.events.length < 512) : (m.pushEdge r).fio.events = m.fio.events ++ [r] := by
  rw [Chip.pushEdge, if_neg (Nat.not_le.2 h)]
  rfl

section
variable {s : State} {dt : Nat} {m : Chip} {ch : Nat} (hm : Now s dt m) (hch : ch < 32)
include hm hch

theorem fieldInputEdge_standing {level : Bool} (h : m.fio.level.getLsbD ch = level) : Does (.fieldInputEdge dt ch level) s m := by
  obtain ⟨hup, rfl⟩ := hm
  exact does_unit (decide_eq_true hch) hup (if_pos (beq_iff_eq.2 h))

section
variable {level : Bool} {x : Chip} (h : m.fio.level.getLsbD ch = !level) (hx : x = inputAt ch level m)
include h hx

theorem fieldInputEdge_changes : Does (.fieldInputEdge dt ch level) s (pairsFed ch level x.edgeStamp
    (if x.bit (edgeEnable level) ch then x.pushEdge { channel := ch, rising := level, stamp := x.edgeStamp } else x)) := by
  obtain ⟨hup, rfl⟩ := hm
  subst hx
  exact does_unit (decide_eq_true hch) hup (if_neg (by rw [h]; simp))

theorem fieldInputEdge_recorded (hon : x.bit (edgeEnable level) ch = true) : Does (.fieldInputEdge dt ch level) s
    (pairsFed ch level x.edgeStamp (x.pushEdge { channel := ch, rising := level, stamp := x.edgeStamp })) := by
  have hdoes := fieldInputEdge_changes hm hch h hx
  rwa [if_pos hon] at hdoes

theorem fieldInputEdge_unrecorded (hoff : x.bit (edgeEnable level) ch = false) : Does (.fieldInputEdge dt ch level) s
    (pairsFed ch level x.edgeStamp x) := by
  have hdoes := fieldInputEdge_changes hm hch h hx
  rwa [if_neg (Bool.eq_false_iff.1 hoff)] at hdoes

end

theorem wireBreak_breaks (hen : m.bit R.FIO_WB_EN ch = true) (hb : m.fio.broken.getLsbD ch = false) : Does (.wireBreak dt ch) s
    ((((m.onFio fun f => { f with broken := f.broken ||| BitVec.ofNat 32 (2 ^ ch) }).refreshIn).bump R.FIO_CNT_WB).refreshGroups) := by
  obtain ⟨hup, rfl⟩ := hm
  exact does_unit (decide_eq_true hch) hup (if_neg (by rw [hen, hb]; decide))

end

/-! ### Pair units (R404) -/

section
variable {s : State} {dt : Nat} {m : Chip} {k t : Nat} (hm : Now s dt m) (hk : k < 8) (ho : m.openPair k = some t)
include hm hk ho

theorem pairLong_closes (ht : t + 4 * (2 ^ 32 - 1) ≤ m.edgeStamp) : Does (.pairLong dt k) s ((m.setPair k none).pushPair
    { unit := k, start := t, dur := 0xFFFFFFFF, long := true, order := false, sameTick := false }) := by
  obtain ⟨hup, rfl⟩ := hm
  refine does_unit (decide_eq_true hk) hup ?_
  simp only [pairLong, ho]
  exact if_pos ht

theorem pairLong_staysOpen (ht : m.edgeStamp < t + 4 * (2 ^ 32 - 1)) : Does (.pairLong dt k) s m := by
  obtain ⟨hup, rfl⟩ := hm
  refine does_unit (decide_eq_true hk) hup ?_
  simp only [pairLong, ho]
  exact if_neg (Nat.not_le.2 ht)

end

/-! ### The queues give up their records (R405) -/

theorem fioEvtPop_record {m : Chip} {r : EvtRec} {l : List EvtRec} (h : m.fio.events = r :: l) : fioEvtPop m =
    ((m.onFio fun f => { f with events := l }).wr R.FIO_EVT_HDR (BitVec.ofNat 32 (2 ^ 31 + b2n r.rising * 2 ^ 30 + r.channel))).wr64
      R.FIO_EVT_T_LO R.FIO_EVT_T_HI r.stamp := by
  simp only [fioEvtPop, h]

theorem fioEvtPop_empty {m : Chip} (h : m.fio.events = []) : fioEvtPop m = m.wr R.FIO_EVT_HDR 0 := by
  simp only [fioEvtPop, h]

theorem fioPairPop_record {m : Chip} {r : PairRec} {l : List PairRec} (h : m.fio.pairs = r :: l) : fioPairPop m =
    (((m.onFio fun f => { f with pairs := l }).wr R.FIO_PAIR_HDR
      (BitVec.ofNat 32 (2 ^ 31 + r.unit * 2 ^ 28 + 4 * b2n r.long + 2 * b2n r.order + b2n r.sameTick))).wr64
      R.FIO_PAIR_T_LO R.FIO_PAIR_T_HI r.start).wr R.FIO_PAIR_DUR (BitVec.ofNat 32 r.dur) := by
  simp only [fioPairPop, h]

theorem fioPairPop_empty {m : Chip} (h : m.fio.pairs = []) : fioPairPop m = m.wr R.FIO_PAIR_HDR 0 := by
  simp only [fioPairPop, h]

/-- Settles O21: each clause is one branch of its command, and what a recorded edge leaves of the levels and of the queue is said by
`pushEdge_events` and the two `pairsFed_…` frames. -/
theorem fieldInputsAreRecorded : Obligations.FieldInputsAreRecorded := by
  refine ⟨?_, ?_, ?_, ?_, ?_, ?_, ?_, ?_, ?_, ?_, ?_, ?_⟩
  · -- FIELD_INPUT_EDGE to the level that stands
    intro s dt m ch level hm hch h
    exact fieldInputEdge_standing hm hch h
  · -- FIELD_INPUT_EDGE, rising and enabled
    intro s dt m ch x hm hch h hx hon
    exact fieldInputEdge_recorded hm hch h hx hon
  · -- FIELD_INPUT_EDGE, falling and not enabled
    intro s dt m ch x hm hch h hx hoff
    exact fieldInputEdge_unrecorded hm hch h hx hoff
  · -- FIELD_INPUT_EDGE: the level and the queue that a rising enabled edge leaves
    intro s dt m ch hm hch h hroom hon
    refine ⟨_, fieldInputEdge_recorded hm hch h rfl hon, rfl, ?_, ?_⟩
    · exact (pairsFed_level ..).trans (eq_fiolevel_Chip_pushEdge ..)
    · exact (pairsFed_events ..).trans (pushEdge_events _ hroom)
  · -- PAIR_LONG of a pair open for 2^32 - 1 units
    intro s dt m k t hm hk ho ht
    exact pairLong_closes hm hk ho ht
  · -- PAIR_LONG of an earlier pair
    intro s dt m k t hm hk ho ht
    exact pairLong_staysOpen hm hk ho ht
  · -- WIRE_BREAK
    intro s dt m ch hm hch hen hb
    exact wireBreak_breaks hm hch hen hb
  · -- WIRE_BREAK_CLEAR
    rintro s dt _ ch ⟨hup, rfl⟩ hch
    exact does_unit (decide_eq_true hch) hup rfl
  · -- FIO_EVT_POP of a record
    rintro s dt _ r l ⟨hup, rfl⟩ h
    exact does_unit rfl hup (fioEvtPop_record h)
  · -- FIO_EVT_POP of an empty queue
    rintro s dt _ ⟨hup, rfl⟩ h
    exact does_unit rfl hup (fioEvtPop_empty h)
  · -- FIO_PAIR_POP of a record
    rintro s dt _ r l ⟨hup, rfl⟩ h
    exact does_unit rfl hup (fioPairPop_record h)
  · -- FIO_PAIR_POP of an empty queue
    rintro s dt _ ⟨hup, rfl⟩ h
    exact does_unit rfl hup (fioPairPop_empty h)

/-! ### Output drivers (R401, R402) -/

section
variable {s : State} {dt : Nat} {m : Chip} {n : Nat} (hm : Now s dt m) (hn : n < 17)
include hm hn

theorem outputFault_switchesOff (hon : m.driverOn n = true) : Does (.outputFault dt n) s
    ((((m.setOutFault n true).noteTry n).bump R.FIO_CNT_OUT_FLT).refreshGroups) := by
  obtain ⟨hup, rfl⟩ := hm
  exact does_unit (decide_eq_true hn) hup (if_pos hon)

theorem outputFault_ofDriverOff (hoff : m.driverOn n = false) : Does (.outputFault dt n) s m := by
  obtain ⟨hup, rfl⟩ := hm
  exact does_unit (decide_eq_true hn) hup (if_neg (Bool.eq_false_iff.1 hoff))

theorem outputRetry_due (hdue : m.retryDue n = true) (runs : Bool) : Does (.outputRetry dt n runs) s
    (if runs then (m.setOutFault n false).refreshGroups else (m.noteTry n).bump R.FIO_CNT_OUT_FLT) := by
  obtain ⟨hup, rfl⟩ := hm
  exact does_unit (decide_eq_true hn) hup (if_neg (by simp [hdue]))

theorem outputRetry_notDue (hnot : m.retryDue n = false) (runs : Bool) : Does (.outputRetry dt n runs) s m := by
  obtain ⟨hup, rfl⟩ := hm
  exact does_unit (decide_eq_true hn) hup (if_pos (by simp [hnot]))

end

/-- Settles O22: a driver and its retry have one lemma per branch (`outputFault_…`, `outputRetry_…`); a group's supply and
FIO_OUT_WRITE have no branch. -/
theorem fieldOutputsSwitchOffAndReturn : Obligations.FieldOutputsSwitchOffAndReturn := by
  refine ⟨?_, ?_, ?_, ?_, ?_, ?_, ?_, ?_⟩
  · -- OUTPUT_FAULT of a driver that is on
    intro s dt m n hm hn hon
    exact outputFault_switchesOff hm hn hon
  · -- OUTPUT_FAULT of a driver that is off
    intro s dt m n hm hn hoff
    exact outputFault_ofDriverOff hm hn hoff
  · -- OUTPUT_RETRY of a channel that runs
    intro s dt m n hm hn hdue
    exact outputRetry_due hm hn hdue true
  · -- OUTPUT_RETRY of a channel that switches off once more
    intro s dt m n hm hn hdue
    exact outputRetry_due hm hn hdue false
  · -- OUTPUT_RETRY that is not due
    intro s dt m n runs hm hn hnot
    exact outputRetry_notDue hm hn hnot runs
  · -- FIELD_GROUP_UNDERVOLTAGE
    rintro s dt _ g ⟨hup, rfl⟩ hg
    exact does_unit (decide_eq_true hg) hup rfl
  · -- FIELD_GROUP_SUPPLY_RETURN
    rintro s dt _ g ⟨hup, rfl⟩ hg
    exact does_unit (decide_eq_true hg) hup rfl
  · -- FIO_OUT_WRITE
    rintro s dt _ outs runReq ⟨hup, rfl⟩ _
    exact does_unit rfl hup rfl

end Sys2Proof.Proofs
end

section
/-!
PROOFS of the family 14_time_bases: the cycle that passes on an empty queue, and the Ethernet ports that carry network time, with the
frames they take and their links.
-/
namespace Sys2Proof.Proofs
open Sys2Proof.Machine Sys2Proof.Laws

/-! ### The cycle of an empty queue (R407) -/

/-- TB2 advances by 4 ns in every cycle, whatever TB3 does meanwhile. -/
theorem ticks_tb2 (slewMax : Nat) (flat : Bool) (n : Nat) (t : TimeState) :
    (ticks slewMax flat n t).tb2 = t.tb2 + BitVec.ofNat 96 (n * 0x400000000) := by
  induction n generalizing t with
  | zero => rw [Nat.zero_mul]; exact (BitVec.add_zero t.tb2).symm
  | succ n ih =>
    unfold ticks
    split
    · rfl
    · rw [ih]
      show t.tb2 + BitVec.ofNat 96 0x400000000 + BitVec.ofNat 96 (n * 0x400000000) = _
      rw [BitVec.add_assoc, ← BitVec.ofNat_add, Nat.succ_mul, Nat.add_comm (n * 0x400000000)]

theorem elapse_tb2 (dt : Nat) (m : Chip) : (elapse dt m).time.tb2 = m.time.tb2 + BitVec.ofNat 96 (dt * 0x400000000) :=
  ticks_tb2 ..

/-- With no command waiting, a module that is supplied and out of RESET_N lets one cycle pass (log entry 2). -/
theorem step_of_empty {s : State} (hq : s.pending = []) (hup : Up s.m) : step s = .next { s with m := elapse 1 s.m } := by
  obtain ⟨hsup, hres⟩ := hup
  simp only [step, hq, take_live s.m 1 (elapse 1) hsup hres]

/-- Settles O47: the step is one passing cycle (`step_of_empty`), of which the state keeps all but the time (`elapse_…`), and TB2
advances by 4 ns (`elapse_tb2`). -/
theorem anEmptyQueueLetsOneCyclePass : Obligations.AnEmptyQueueLetsOneCyclePass := by
  intro s t hq hup ht
  rw [step_of_empty hq hup] at ht
  cases ht
  exact ⟨rfl, elapse_tb2 1 s.m, elapse_regs .., elapse_mem .., elapse_out .., elapse_trust ..⟩

/-! ### Frames of an Ethernet port (R568, R584) -/

section
variable {s : State} {dt : Nat} {m : Chip} {p : Nat} (hm : Now s dt m) (hp : p < Config.ethPorts)
include hm hp

section
variable {kind : Nat} (hst : m.get (F.ETH_STAT_state p) = 1)
include hst

theorem ethFrame_badFcs : Does (.ethFrame dt p false kind) s ((m.setFlag (F.ETH_STAT_fcs_err p)).bump (R.ETH_CNT_FCS p)) := by
  obtain ⟨hup, rfl⟩ := hm
  exact does_unit (decide_eq_true hp) hup (if_neg (not_not.2 hst))

theorem ethFrame_answered (hk : kind ≤ 2) : Does (.ethFrame dt p true kind) s
    (((m.bump (R.ETH_CNT_RX p)).emit (.send "eth" p "answer" [kind])).bump (R.ETH_CNT_TX p)) := by
  obtain ⟨hup, rfl⟩ := hm
  exact does_unit (decide_eq_true hp) hup ((if_neg (not_not.2 hst)).trans (if_pos hk))

theorem ethFrame_taken (h3 : 3 ≤ kind) (h5 : kind ≤ 5) : Does (.ethFrame dt p true kind) s (m.bump (R.ETH_CNT_RX p)) := by
  obtain ⟨hup, rfl⟩ := hm
  exact does_unit (decide_eq_true hp) hup ((if_neg (not_not.2 hst)).trans
    ((if_neg (Nat.not_le.2 h3)).trans (if_pos h5)))

theorem ethFrame_dropped (h6 : 6 ≤ kind) : Does (.ethFrame dt p true kind) s
    ((m.bump (R.ETH_CNT_RX p)).bump (R.ETH_CNT_DROP p)) := by
  obtain ⟨hup, rfl⟩ := hm
  have h2 : ¬ kind ≤ 2 := by omega
  exact does_unit (decide_eq_true hp) hup ((if_neg (not_not.2 hst)).trans ((if_neg h2).trans (if_neg (Nat.not_le.2 h6))))

end

/-! ### Links of an Ethernet port (R417, R568) -/

theorem ethLinkDown_closes {x : Chip} (hst : m.get (F.ETH_STAT_state p) = 1)
    (hx : x = (m.put (F.ETH_STAT_state p) 0).setFlag (F.ETH_STAT_link_lost p)) : Does (.ethLinkDown dt p) s
    (forAll ((x.trust.sessions.filter fun s => s.port == p).map (·.id)) (fun i m => m.closeSession i) x).refsUpdate := by
  obtain ⟨hup, rfl⟩ := hm
  subst hx
  exact does_unit (decide_eq_true hp) hup (if_neg (not_not.2 hst))

/-- The port may train: it is enabled and its start has come to it, or the service protocol runs without a story stick. -/
theorem ethLinkUp_comesUp (hst : m.get (F.ETH_STAT_state p) ≠ 1)
    (hon : m.boot.failed = true ∧ m.get F.MB_STAT_fw_state ≠ 0 ∨ m.boot.pinsOn = true ∧ m.flag (F.ETH_CFG_en p) = true) :
    Does (.ethLinkUp dt p) s (m.put (F.ETH_STAT_state p) 1).refsUpdate := by
  obtain ⟨hup, rfl⟩ := hm
  refine does_unit (decide_eq_true hp) hup (if_neg (not_or.2 ⟨hst, ?_⟩))
  simpa only [Bool.not_eq_true', Bool.not_eq_false, Bool.or_eq_true, Bool.and_eq_true, bne_iff_ne] using hon

end

/-- Settles O12: a frame and a link have one lemma per branch (`ethFrame_…`, `ethLinkDown_closes`, `ethLinkUp_comesUp`), and which sessions
a link that goes down leaves is said by `linkDown_sessions`. -/
theorem ethernetFramesAndLinks : Obligations.EthernetFramesAndLinks := by
  refine ⟨?_, ?_, ?_, ?_, ?_, ?_, ?_, ?_⟩
  · -- ETH_FRAME with a bad FCS
    intro s dt m p kind hm hp hst
    exact ethFrame_badFcs hm hp hst
  · -- ETH_FRAME of ARP, neighbour discovery or echo
    intro s dt m p kind hm hp hst hk
    exact ethFrame_answered hm hp hst hk
  · -- ETH_FRAME of PTP, to the service port or to a stream's source port
    intro s dt m p kind hm hp hst h3 h5
    exact ethFrame_taken hm hp hst h3 h5
  · -- ETH_FRAME that nothing takes
    intro s dt m p kind hm hp hst h6
    exact ethFrame_dropped hm hp hst h6
  · -- ETH_LINK_DOWN
    intro s dt m p x hm hp hst hx
    exact ethLinkDown_closes hm hp hst hx
  · -- ETH_LINK_DOWN: the sessions that stay
    intro s dt m p hm hp hst
    exact ⟨_, does_unit (decide_eq_true hp) hm.1 rfl, rfl, linkDown_sessions dt p s.m m hm.2 hst⟩
  · -- ETH_LINK_UP of an enabled port after its start
    intro s dt m p hm hp hst hpins hen
    exact ethLinkUp_comesUp hm hp hst (.inr ⟨hpins, hen⟩)
  · -- ETH_LINK_UP where the service protocol runs without a story stick
    intro s dt m p hm hp hst hfailed hfw
    exact ethLinkUp_comesUp hm hp hst (.inl ⟨hfailed, hfw⟩)

end Sys2Proof.Proofs
end

section
/-!
PROOFS of the families 15_witness_marks_and_lockstep and 95_what_each_step_holds: the marks of a layer; what every step keeps of the
outputs, the NV log and the fuses; a queue of well-formed commands.
-/
namespace Sys2Proof.Proofs
open Sys2Proof.Machine Sys2Proof.Laws

/-! ### Marks (R433) -/

/-- Summing with a cut to 2⁶⁴ after each element is the cut of the one sum. -/
theorem foldl_mixN (l : List (Nat × Nat)) (acc : Nat) (hacc : acc < 2 ^ 64) :
    l.foldl (fun a p => (a + mixN p.1 p.2) % 2 ^ 64) acc = (acc + (l.map fun p => mixN p.1 p.2).sum) % 2 ^ 64 := by
  induction l generalizing acc with
  | nil => exact (Nat.mod_eq_of_lt hacc).symm
  | cons p l ih =>
    rw [List.foldl_cons, ih _ (Nat.mod_lt _ (by decide)), List.map_cons, List.sum_cons, Nat.mod_add_mod, Nat.add_assoc]

theorem markSum_eq_sum (l : List (Nat × Nat)) : markSum l = (l.map fun p => mixN p.1 p.2).sum % 2 ^ 64 := by
  rw [markSum, foldl_mixN l 0 (by decide), Nat.zero_add]

theorem markSum_perm {l k : List (Nat × Nat)} (h : l.Perm k) : markSum l = markSum k := by
  rw [markSum_eq_sum, markSum_eq_sum, (h.map _).sum_nat]

theorem markSum_append (l k : List (Nat × Nat)) : markSum (l ++ k) = (markSum l + markSum k) % 2 ^ 64 := by
  simp only [markSum_eq_sum, List.map_append, List.sum_append, Nat.add_mod_mod, Nat.mod_add_mod]

/-- Settles O58: the marks are the sum that `markSum_eq_sum` gives, in which neither the order nor the split counts. -/
theorem marksAreOrderFreeSums : Obligations.MarksAreOrderFreeSums := by
  refine ⟨?_, markSum_eq_sum, fun l k => markSum_perm, markSum_append⟩
  rintro i v _ _ _ rfl rfl rfl
  rfl

/-! ### What every step keeps (R494, R507, R509, R523, R526, R532) -/

/-- Settles O54: having sent and having logged are properties that the primitive changes keep (log entry 12), and so every step keeps
them. -/
theorem whatIsSentAndLoggedStays : Obligations.WhatIsSentAndLoggedStays := fun s t ht =>
  ⟨step_keeps (keep_out s.m.out) s t List.prefix_rfl ht, step_keeps (keep_nvLog s.m.nvLog) s t List.prefix_rfl ht⟩

/-- The written bits of the fuses `f` are written in `g`: the counter, the lifecycle, the revoked slots and the manufacturing lock. -/
structure FusesStand (f g : FuseState) : Prop where
  counter : f.counter ≤ g.counter
  lifecycle : f.lifecycle &&& g.lifecycle = f.lifecycle
  revoked : f.revoked <+: g.revoked
  mfgLock : g.mfgLock = f.mfgLock

theorem FusesStand.refl (f : FuseState) : FusesStand f f := ⟨le_rfl, Nat.and_self _, List.prefix_rfl, rfl⟩

theorem FusesStand.trans {f g h : FuseState} (hfg : FusesStand f g) (hgh : FusesStand g h) : FusesStand f h where
  counter := hfg.counter.trans hgh.counter
  lifecycle := by
    calc f.lifecycle &&& h.lifecycle = f.lifecycle &&& g.lifecycle &&& h.lifecycle := by rw [hfg.lifecycle]
      _ = f.lifecycle &&& (g.lifecycle &&& h.lifecycle) := Nat.and_assoc ..
      _ = f.lifecycle := by rw [hgh.lifecycle, hfg.lifecycle]
  revoked := hfg.revoked.trans hgh.revoked
  mfgLock := hgh.mfgLock.trans hfg.mfgLock

/-- No owner command takes a written bit back. -/
theorem fusesStand_of_fuseStep {f g : FuseState} (h : FuseStep f g) : FusesStand f g := by
  cases h with
  | commission hash hl => exact ⟨le_rfl, by simp [hl], List.prefix_rfl, rfl⟩
  | rotate => exact ⟨le_rfl, Nat.and_self _, List.prefix_append .., rfl⟩
  | decommission hl => exact ⟨le_rfl, by simp [hl], List.prefix_rfl, rfl⟩
  | advance v w hv => exact ⟨le_min hv.le (Nat.le_add_right ..), Nat.and_self _, List.prefix_rfl, rfl⟩

/-- Settles O53: what stands of the fuses is kept by every way of changing them (`fusesStand_of_fuseStep`), and so by every step. -/
theorem fusesNeverReturn : Obligations.FusesNeverReturn := by
  intro s t ht
  have hkeep := keep_fuses (FusesStand s.m.trust.fuses) fun f g hf hg => hf.trans (fusesStand_of_fuseStep hg)
  obtain ⟨hcounter, hlife, hrevoked, hlock⟩ := step_keeps hkeep s t (FusesStand.refl _) ht
  exact ⟨hcounter, hlife, hrevoked, hlock⟩

/-! ### The queue -/

/-- Settles O46: it is what a step is with a command waiting. -/
theorem stepRunsTheFrontCommand : Obligations.StepRunsTheFrontCommand := fun _ _ _ => rfl

/-- Settles O50: a well-formed command at the front completes and leaves the rest of the queue (`exec_completes`, `exec_pending`); with an
empty queue one cycle passes (log entry 2). -/
theorem wellFormedQueuesRunToTheirEnd : Obligations.WellFormedQueuesRunToTheirEnd := by
  rintro ⟨m, q⟩ hq
  cases q with
  | nil =>
    refine ⟨⟨_, rfl⟩, fun t ht => ?_⟩
    cases ht
    exact ⟨hq, rfl⟩
  | cons c q =>
    have hc : c.wf = true := hq c List.mem_cons_self
    refine ⟨(exec_completes c { m, pending := q }).2 hc, fun t ht => ?_⟩
    have hpending : t.pending = q := exec_pending c { m, pending := q } t ht
    refine ⟨fun d hd => hq d (List.mem_cons_of_mem _ (hpending ▸ hd)), hpending⟩

/-- Settles O52, by the one form that every meaning has (`exec_unsupplied`, `exec_held`). -/
theorem onlyTheSupplyActsWithoutPower : Obligations.OnlyTheSupplyActsWithoutPower := fun i s t hi ht =>
  ⟨fun hsup => exec_unsupplied i s t hsup hi ht, fun hsup hheld => exec_held i s t hsup hheld hi ht⟩

end Sys2Proof.Proofs
end

section
/-!
PROOFS of the family 16_faults_and_degraded_operation: the fault collectors in time, the edges of error outputs, and the entries to
FIRE-OUT and SAFE.
-/
namespace Sys2Proof.Proofs
open Sys2Proof.Machine Sys2Proof.Laws

/-! ### Error outputs (R453, R458, R465) -/

theorem assert_ofLow {m : Chip} {half num : Nat} (h : (m.src half num).asserting = false) :
    m.assert ⟨half, num⟩ = (m.setSrc half num { m.src half num with asserting := true }).raise ⟨half, num⟩ :=
  if_neg (Bool.eq_false_iff.1 h)

section
variable {s : State} {dt : Nat} {m : Chip} {half num unit : Nat} (hm : Now s dt m) (hh : half < 2) (hn : num < 128)
include hm hh hn

section
variable (hu : srcUsed half num = true)
include hu

theorem sourceAssert_rises (h : ((m.errorOut ⟨half, num⟩ unit).src half num).asserting = false) :
    Does (.sourceAssert dt half num unit true) s (((m.errorOut ⟨half, num⟩ unit).setSrc half num
      { (m.errorOut ⟨half, num⟩ unit).src half num with asserting := true }).raise ⟨half, num⟩) := by
  obtain ⟨hup, rfl⟩ := hm
  refine does_unit (by simp [hh, hn]) hup ?_
  simp only [sourceAssert, hu, Bool.not_true, Bool.false_eq_true, if_false, if_true]
  exact assert_ofLow h

theorem sourceAssert_pulses (h : (m.src half num).asserting = false) :
    Does (.sourceAssert dt half num unit false) s ((m.errorOut ⟨half, num⟩ unit).raise ⟨half, num⟩) := by
  obtain ⟨hup, rfl⟩ := hm
  refine does_unit (by simp [hh, hn]) hup ?_
  simp only [sourceAssert, hu, h, Bool.not_true, Bool.false_eq_true, if_false]

theorem sourceAssert_falls (h : (m.src half num).asserting = true) :
    Does (.sourceAssert dt half num unit false) s (m.deassert ⟨half, num⟩) := by
  obtain ⟨hup, rfl⟩ := hm
  refine does_unit (by simp [hh, hn]) hup ?_
  simp only [sourceAssert, hu, h, Bool.not_true, Bool.false_eq_true, if_false, if_true]

end

/-! ### Leaky buckets (R458) -/

theorem bucketLeak_due (hl : m.get (F.FLT_SRC_level half num) ≠ 0)
    (hdue : (m.src half num).leakFrom + m.leakEvery ⟨half, num⟩ ≤ m.now) : Does (.bucketLeak dt half num) s
    ((m.put (F.FLT_SRC_level half num) (m.get (F.FLT_SRC_level half num) - 1)).setSrc half num
      { m.src half num with leakFrom := (m.src half num).leakFrom + m.leakEvery ⟨half, num⟩ }) := by
  obtain ⟨hup, rfl⟩ := hm
  exact does_unit (by simp [hh, hn]) hup (if_neg (not_or.2 ⟨hl, Nat.not_lt.2 hdue⟩))

theorem bucketLeak_notDue (h : m.get (F.FLT_SRC_level half num) = 0 ∨
    m.now < (m.src half num).leakFrom + m.leakEvery ⟨half, num⟩) : Does (.bucketLeak dt half num) s m := by
  obtain ⟨hup, rfl⟩ := hm
  exact does_unit (by simp [hh, hn]) hup (if_pos h)

end

/-- Settles O1: an edge is one of the `sourceAssert_…` lemmas; SAFE_REQ_N and the fault link follow their level (`Chip.follow`,
`Chip.assert`, `Chip.deassert`). -/
theorem errorOutputEdgesReachTheCollectors : Obligations.ErrorOutputEdgesReachTheCollectors := by
  refine ⟨?_, ?_, ?_, ?_, ?_, ?_, ?_⟩
  · -- SOURCE_ASSERT, rising
    intro s dt m half num unit hm hh hn hu h
    exact sourceAssert_rises hm hh hn hu h
  · -- SOURCE_ASSERT, a pulse
    intro s dt m half num unit hm hh hn hu h
    exact sourceAssert_pulses hm hh hn hu h
  · -- SOURCE_ASSERT, falling
    intro s dt m half num unit hm hh hn hu h
    exact sourceAssert_falls hm hh hn hu h
  · -- SAFE_REQ_N low
    rintro s dt _ ⟨hup, rfl⟩ h
    exact does_unit rfl hup (assert_ofLow h)
  · -- SAFE_REQ_N high
    rintro s dt _ ⟨hup, rfl⟩
    exact does_unit rfl hup rfl
  · -- FAULT_LINK_LOSS, lost
    rintro s dt _ ⟨hup, rfl⟩
    exact does_unit rfl hup rfl
  · -- FAULT_LINK_LOSS, returned
    rintro s dt _ ⟨hup, rfl⟩
    exact does_unit rfl hup rfl

/-! ### Grace (R456) -/

/-- The pending bits of `m` whose grace has expired. -/
def dueSrcs (m : Chip) : List Src := allSrcs.filter fun c => m.graceDue c

/-- The module once source `c`, whose grace has expired, is escalated and counted, and the module has entered FIRE-OUT. -/
def escalated (c : Src) (m : Chip) : Chip :=
  ((m.setSrc c.half c.num { m.src c.half c.num with escalated := true }).bump R.SUP_CNT_ESCALATE).enterFireOut (some c)

theorem expireGrace_eq (m : Chip) : m.expireGrace = forAll (dueSrcs m) escalated m := rfl

theorem expireGrace_none {m : Chip} (h : dueSrcs m = []) : m.expireGrace = m := by rw [expireGrace_eq, h]; rfl

theorem expireGrace_one {m : Chip} {c : Src} (h : dueSrcs m = [c]) : m.expireGrace = escalated c m := by rw [expireGrace_eq, h]; rfl

/-- A source that is given a state other than the one it starts from has it. -/
theorem src_setSrc (m : Chip) (half num : Nat) {v : SrcState} (hv : v ≠ {}) : (m.setSrc half num v).src half num = v :=
  tabGet_set_ne ({} : SrcState) m.sup.srcs (128 * half + num) v hv

/-- Entering FIRE-OUT leaves the escalation noted. -/
theorem escalated_src (c : Src) (m : Chip) : ((escalated c m).src c.half c.num).escalated = true := by
  have hsrcs : (escalated c m).sup.srcs = (m.setSrc c.half c.num { m.src c.half c.num with escalated := true }).sup.srcs :=
    eq_supsrcs_Chip_enterFireOut _ _
  have hne : { m.src c.half c.num with escalated := true } ≠ ({} : SrcState) := fun e =>
    Bool.noConfusion (congrArg SrcState.escalated e)
  rw [Chip.src, hsrcs]
  exact congrArg SrcState.escalated (src_setSrc m c.half c.num hne)

section
variable {s : State} {dt : Nat} {m : Chip} (hm : Now s dt m)
include hm

theorem graceExpiry_one {c : Src} (h : dueSrcs m = [c]) : Does (.graceExpiry dt) s (escalated c m) := by
  obtain ⟨hup, rfl⟩ := hm
  exact does_unit rfl hup (expireGrace_one h)

theorem graceExpiry_none (h : dueSrcs m = []) : Does (.graceExpiry dt) s m := by
  obtain ⟨hup, rfl⟩ := hm
  exact does_unit rfl hup (expireGrace_none h)

theorem pendingAck_clears {k : Nat} (mask : Nat) (hk : k < 8) (h : dueSrcs m = []) : Does (.pendingAck dt k mask) s
    (m.wr (R.SUP_PEND k) (m.rd (R.SUP_PEND k) &&& ~~~(BitVec.ofNat 32 mask &&& ~~~(tabGet 0 m.fresh (R.SUP_PEND k))))) := by
  obtain ⟨hup, rfl⟩ := hm
  refine does_unit (decide_eq_true hk) hup ?_
  rw [pendingAck, expireGrace_none h]

/-! ### The joiner's watchdog (R466) -/

theorem watchdogExpiry_due (h : m.sup.wdFrom + m.get F.SUP_CFG_wd_period * 1000000 ≤ m.now) : Does (.watchdogExpiry dt) s
    (({ m with sup := { m.sup with wdFrom := m.sup.wdFrom + m.get F.SUP_CFG_wd_period * 1000000 } }.bump R.SUP_CNT_WD).raise
      SrcName.joinerWatchdog) := by
  obtain ⟨hup, rfl⟩ := hm
  exact does_unit rfl hup (if_neg (Nat.not_lt.2 h))

end

/-- Settles O2: each command has a lemma per branch, and what an escalation leaves of its source is `escalated_src`. -/
theorem bucketsGraceAndAcknowledgements : Obligations.BucketsGraceAndAcknowledgements := by
  refine ⟨?_, ?_, ?_, ?_, ?_, ?_, ?_, ?_⟩
  · -- BUCKET_LEAK, due
    intro s dt m half num hm hh hn hl hdue
    exact bucketLeak_due hm hh hn hl hdue
  · -- BUCKET_LEAK, not due
    intro s dt m half num hm hh hn h
    exact bucketLeak_notDue hm hh hn h
  · -- GRACE_EXPIRY of one pending bit
    intro s dt m c hm h
    exact graceExpiry_one hm h
  · -- GRACE_EXPIRY: the escalation is noted
    intro s dt m c hm h
    exact ⟨_, graceExpiry_one hm h, rfl, escalated_src c m⟩
  · -- GRACE_EXPIRY of none
    intro s dt m hm h
    exact graceExpiry_none hm h
  · -- PENDING_ACK
    intro s dt m k mask hm hk _ h
    exact pendingAck_clears hm mask hk h
  · -- WATCHDOG_EXPIRY
    intro s dt m hm h
    exact watchdogExpiry_due hm h
  · -- KICK
    rintro s dt _ ⟨hup, rfl⟩
    exact does_unit rfl hup rfl

/-! ### Entries to FIRE-OUT and SAFE (R459 to R464) -/

/-- SAFE is entered from any mode below it. -/
theorem enterSafe_below {m : Chip} (cause : Option Src) (h : m.mode ≠ 3) : m.enterSafe cause =
    ((((m.dropResume.setMode 3 cause).bump R.SUP_CNT_SAFE).cancelAll fun _ => true).dropResvs fun _ => true).refreshOutputs := if_neg h

theorem enterSafe_inSafe {m : Chip} (cause : Option Src) (h : m.mode = 3) : m.enterSafe cause = m := if_pos h

/-- FIRE-OUT is entered from NORMAL and DEGRADED. -/
theorem enterFireOut_below {m : Chip} (cause : Option Src) (h : m.mode < 2) : m.enterFireOut cause =
    ((forAll m.fire.resvs (fun r m => m.countDropped r) ((m.setMode 2 cause).bump R.SUP_CNT_FIREOUT)).dropResvs
      fun _ => true).refreshOutputs := if_neg (Nat.not_le.2 h)

theorem enterFireOut_above {m : Chip} (cause : Option Src) (h : 2 ≤ m.mode) : m.enterFireOut cause = m.dropResume := if_pos h

/-- Settles O3: the two requests are the branches of `Chip.enterSafe` and `Chip.enterFireOut`; a parity error of a collector takes the next
free value as its cause (log entry 33, a choice of the model). -/
theorem supervisorEntersFireOutAndSafe : Obligations.SupervisorEntersFireOutAndSafe := by
  refine ⟨?_, ?_, ?_, ?_, ?_, ?_, ?_⟩
  · -- SAFE_REQ below SAFE
    rintro s dt _ ⟨hup, rfl⟩ h
    exact does_unit rfl hup (enterSafe_below none h)
  · -- SAFE_REQ in SAFE
    rintro s dt _ ⟨hup, rfl⟩ h
    exact does_unit rfl hup (enterSafe_inSafe none h)
  · -- FIRE_OUT_REQ in NORMAL or DEGRADED
    rintro s dt _ ⟨hup, rfl⟩ h
    exact does_unit rfl hup (enterFireOut_below none h)
  · -- FIRE_OUT_REQ in FIRE-OUT or SAFE
    rintro s dt _ ⟨hup, rfl⟩ h
    exact does_unit rfl hup (enterFireOut_above none h)
  · -- SELF_FAULT of the supervisor's copies
    rintro s dt _ half ⟨hup, rfl⟩ hh
    exact does_unit (decide_eq_true hh) hup rfl
  · -- SELF_FAULT of a collector register
    rintro s dt _ half ⟨hup, rfl⟩ hh
    exact does_unit (decide_eq_true hh) hup rfl
  · -- DEGRADE_MASK_WRITE
    rintro s dt _ mask ⟨hup, rfl⟩ _
    exact does_unit rfl hup rfl

end Sys2Proof.Proofs
end

section
/-!
PROOFS of the family 17_start_and_reset: the supply and the reset pins, the requested resets, soft resets of blocks, power domains.
-/
namespace Sys2Proof.Proofs
open Sys2Proof.Machine Sys2Proof.Laws

/-! ### The supply (R480, R483, R593) -/

section
variable {s : State} (bootSrc clk : Nat)

theorem powerOn_pwrGoodLast (h : s.m.boot.mainInput = true) :
    Does (.powerOn true bootSrc clk) s ((s.m.onBoot fun b => { b with pwrGood := true }).powerOnReset bootSrc clk) := by
  have hsup : (s.m.onBoot fun b => { b with pwrGood := true }).supplied = true := by simp [Chip.supplied, Chip.onBoot, h]
  exact does_supply rfl (if_pos hsup)

theorem powerOn_mainInputLast (h : s.m.boot.pwrGood = true) :
    Does (.powerOn false bootSrc clk) s ((s.m.onBoot fun b => { b with mainInput := true }).powerOnReset bootSrc clk) := by
  have hsup : (s.m.onBoot fun b => { b with mainInput := true }).supplied = true := by simp [Chip.supplied, Chip.onBoot, h]
  exact does_supply rfl (if_pos hsup)

theorem powerOn_pwrGoodAlone (h : s.m.boot.mainInput = false) :
    Does (.powerOn true bootSrc clk) s (s.m.onBoot fun b => { b with pwrGood := true }) := by
  have hsup : ¬ (s.m.onBoot fun b => { b with pwrGood := true }).supplied = true := by simp [Chip.supplied, Chip.onBoot, h]
  exact does_supply rfl (if_neg hsup)

/-- A power-on reset leaves memory empty (log entry 8, a choice of the model). -/
theorem powerOnReset_mem (m : Chip) : (m.powerOnReset bootSrc clk).mem = [] := by
  have hblank : m.blank.mem = [] := by simp only [Chip.blank]
  rw [Chip.powerOnReset, Chip.showLid, Chip.sampleStraps, put_mem, put_mem, put_mem, put_mem, hblank]

end

/-! ### The reset pins (R481, R490) -/

/-- A pulse that the filter lets through. -/
theorem pulseActs_long {ns : Nat} (h : 250 ≤ ns) (m : Chip) : m.pulseActs ns = (true, m) := by
  rw [Chip.pulseActs, if_neg (by omega), if_pos h]

/-- A pulse that the filter holds back. -/
theorem pulseActs_short {ns : Nat} (h : ns < 100) (m : Chip) : m.pulseActs ns = (false, m) := if_pos h

section
variable {s : State} (dt : Nat) (hsup : s.m.supplied = true)
include hsup

theorem resetN_long {ns : Nat} (h : 250 ≤ ns) : Does (.resetN dt (some ns)) s
    (((elapse dt s.m).coldReset 1).onBoot fun b => { b with inReset := true }) := by
  refine does_supply rfl ?_
  simp only [resetN, hsup, pulseActs_long h, Bool.not_true, Bool.false_eq_true, if_false, if_true]

theorem resetN_short {ns : Nat} (h : ns < 100) : Does (.resetN dt (some ns)) s (elapse dt s.m) := by
  refine does_supply rfl ?_
  simp only [resetN, hsup, pulseActs_short h, Bool.not_true, Bool.false_eq_true, if_false]

theorem resetN_ends (hheld : s.m.boot.inReset = true) : Does (.resetN dt none) s
    ((elapse dt s.m).onBoot fun b => { b with inReset := false, startAt := (elapse dt s.m).now }) := by
  have hheld' : (elapse dt s.m).boot.inReset = true := hheld
  refine does_supply rfl ?_
  simp only [resetN, hsup, hheld', Bool.not_true, Bool.false_eq_true, if_false, if_true]

end

section
variable {s : State} {dt : Nat} {m : Chip} (hm : Now s dt m)
include hm

theorem wresetN_long {ns : Nat} (h : 250 ≤ ns) : Does (.wresetN dt (some ns)) s
    ((m.warmReset 4).onBoot fun b => { b with inWarm := true }) := by
  obtain ⟨hup, rfl⟩ := hm
  refine does_unit rfl hup ?_
  simp only [wresetN, pulseActs_long h, if_true]

theorem wresetN_short {ns : Nat} (h : ns < 100) : Does (.wresetN dt (some ns)) s m := by
  obtain ⟨hup, rfl⟩ := hm
  refine does_unit rfl hup ?_
  simp only [wresetN, pulseActs_short h, Bool.false_eq_true, if_false]

theorem wresetN_ends (h : m.boot.inWarm = true) : Does (.wresetN dt none) s
    (m.onBoot fun b => { b with inWarm := false, startAt := m.now }) := by
  obtain ⟨hup, rfl⟩ := hm
  exact does_unit rfl hup (if_pos h)

end

/-- Settles O16: each pin has a lemma per branch; what a power-on reset leaves is `powerOn_boot`, a cold reset the `cold_…` lemmas, a warm
reset `warm_boot`. That memory is empty afterwards is the model's reading (log entries 8, 98 and 99). -/
theorem supplyAndResetPinsAct : Obligations.SupplyAndResetPinsAct := by
  refine ⟨?_, ?_, ?_, ?_, ?_, ?_, ?_, ?_, ?_, ?_, ?_, ?_, ?_, ?_⟩
  · -- POWER_ON: PWR_GOOD with the main input there
    intro s bootSrc clk _ _ h
    exact powerOn_pwrGoodLast bootSrc clk h
  · -- POWER_ON: the main input with PWR_GOOD there
    intro s bootSrc clk _ _ h
    exact powerOn_mainInputLast bootSrc clk h
  · -- POWER_ON: PWR_GOOD without the main input
    intro s bootSrc clk _ _ h
    exact powerOn_pwrGoodAlone bootSrc clk h
  · -- POWER_ON: what the reset leaves
    intro s bootSrc clk _ _ h
    exact ⟨_, powerOn_pwrGoodLast bootSrc clk h, rfl, powerOnReset_mem .., powerOn_boot s.m bootSrc clk h⟩
  · -- RESET_N: what the reset leaves
    intro s dt ns hsup h
    exact ⟨_, resetN_long dt hsup h, rfl, cold_mem .., cold_step .., cold_option .., cold_fuses .., rfl, cold_start ..⟩
  · -- WRESET_N: what the reset leaves
    intro s dt m ns hm h hres hopt htrained
    obtain ⟨hstep, hwarm, hfailed, hstart⟩ := warm_boot m 4 hres hopt htrained
    exact ⟨_, wresetN_long hm h, rfl, rfl, hstep, hwarm, hfailed, hstart⟩
  · -- MAIN_INPUT_FAIL
    intro s
    exact does_supply rfl rfl
  · -- PWR_GOOD_FALL
    intro s
    exact does_supply rfl rfl
  · -- RESET_N of 250 ns or more
    intro s dt ns hsup h
    exact resetN_long dt hsup h
  · -- RESET_N below 100 ns
    intro s dt ns hsup h
    exact resetN_short dt hsup h
  · -- RESET_N high again
    rintro s dt _ hsup hheld rfl
    exact resetN_ends dt hsup hheld
  · -- WRESET_N of 250 ns or more
    intro s dt m ns hm h
    exact wresetN_long hm h
  · -- WRESET_N below 100 ns
    intro s dt m ns hm h
    exact wresetN_short hm h
  · -- WRESET_N high again
    intro s dt m hm h
    exact wresetN_ends hm h

/-! ### Soft resets of blocks (R498, R502) -/

/-- The module once block `i`, idle or not, has been asked to reset. -/
def softAsked (i : Nat) (m : Chip) : Chip :=
  if m.blockIdle i then (m.softBlock i).bump R.RP_CNT_SOFT
  else ((m.setFlag F.RP_SOFT_STAT_RESET_REFUSED).setBit R.RP_SOFT_STAT i).bump R.RP_CNT_REFUSED

section
variable {s : State} {dt : Nat} {m : Chip} (hm : Now s dt m)
include hm

theorem softReset_one {mask i : Nat} (h : (upTo 13).filter (bitN mask) = [i]) : Does (.softReset dt mask) s (softAsked i m) := by
  obtain ⟨hup, rfl⟩ := hm
  refine does_unit rfl hup ?_
  show forAll ((upTo 13).filter (bitN mask)) softAsked (elapse dt s.m) = _
  rw [h]
  rfl

theorem softReset_idle {mask i : Nat} (h : (upTo 13).filter (bitN mask) = [i]) (hidle : m.blockIdle i = true) :
    Does (.softReset dt mask) s ((m.softBlock i).bump R.RP_CNT_SOFT) := by
  have hasked : softAsked i m = (m.softBlock i).bump R.RP_CNT_SOFT := if_pos hidle
  exact hasked ▸ softReset_one hm h

theorem softReset_busy {mask i : Nat} (h : (upTo 13).filter (bitN mask) = [i]) (hbusy : m.blockIdle i = false) :
    Does (.softReset dt mask) s
      (((m.setFlag F.RP_SOFT_STAT_RESET_REFUSED).setBit R.RP_SOFT_STAT i).bump R.RP_CNT_REFUSED) := by
  have hasked : softAsked i m = ((m.setFlag F.RP_SOFT_STAT_RESET_REFUSED).setBit R.RP_SOFT_STAT i).bump R.RP_CNT_REFUSED :=
    if_neg (Bool.eq_false_iff.1 hbusy)
  exact hasked ▸ softReset_one hm h

/-! ### Power domains (R497) -/

/-- The module once the failure of domain `d` is noted. -/
def domainFailed (d : Nat) (m : Chip) : Chip :=
  ((m.setBit (R.RP_PWR_FAIL (d / 32)) (d % 32)).setDomain d false).raise SrcName.supplyOutOfRange

theorem domainPowerFail_other {d : Nat} (hlo : 32 ≤ d) (hd : d < 60) : Does (.domainPowerFail dt d) s (domainFailed d m) := by
  obtain ⟨hup, rfl⟩ := hm
  exact does_unit (decide_eq_true hd) hup (if_neg (Nat.not_lt.2 hlo))

theorem domainPowerFail_bent {d : Nat} (hd : d < 32) : Does (.domainPowerFail dt d) s
    (((domainFailed d m).setEng (.bent d) { (domainFailed d m).eng (.bent d) with wakeFailed := true, wakeAt := none }).showBent d) := by
  obtain ⟨hup, rfl⟩ := hm
  exact does_unit (decide_eq_true (by omega)) hup (if_pos hd)

end

/-- Settles O17: a requested reset is the reset itself, a signed one once admitted (`signed_admitted`); what it leaves is said by the
`cold_…` lemmas and `warm_boot`; a block and a domain have a lemma per branch. That memory is empty after a cold reset, and what a soft
reset clears of a block, are the model's reading (log entries 8 and 101). -/
theorem requestedResetsAndBlocks : Obligations.RequestedResetsAndBlocks := by
  refine ⟨?_, ?_, ?_, ?_, ?_, ?_, ?_, ?_, ?_, ?_, ?_, ?_⟩
  · -- COLD_REQ of the firmware
    rintro s dt _ ⟨hup, rfl⟩
    exact does_unit rfl hup rfl
  · -- COLD_REQ, signed
    rintro s dt _ a v ⟨hup, rfl⟩ ha
    exact does_unit rfl hup (signed_admitted _ _ _ a v _ ha rfl)
  · -- WARM_REQ of the firmware
    rintro s dt _ ⟨hup, rfl⟩
    exact does_unit rfl hup rfl
  · -- WARM_REQ, signed
    rintro s dt _ a v ⟨hup, rfl⟩ ha
    exact does_unit rfl hup (signed_admitted _ _ _ a v _ ha rfl)
  · -- COLD_REQ: what the reset leaves
    rintro s dt _ ⟨hup, rfl⟩
    exact ⟨_, does_unit rfl hup rfl, rfl, cold_mem .., cold_step .., cold_option .., cold_fuses .., cold_start ..⟩
  · -- WARM_REQ: what the reset leaves
    rintro s dt _ ⟨hup, rfl⟩ hres hopt htrained
    exact ⟨_, does_unit rfl hup rfl, rfl, warm_boot _ 5 hres hopt htrained⟩
  · -- SOFT_RESET of the post-processor: what it leaves
    intro s dt m hm hidle
    exact ⟨_, softReset_idle hm (by decide) hidle, rfl, rfl, rfl, rfl⟩
  · -- SOFT_RESET of an idle block
    intro s dt m i mask hm _ h hidle
    exact softReset_idle hm h hidle
  · -- SOFT_RESET of a busy block
    intro s dt m i mask hm _ h hbusy
    exact softReset_busy hm h hbusy
  · -- DOMAIN_POWER_FAIL of another domain than a bent's
    intro s dt m d hm hlo hd
    exact domainPowerFail_other hm hlo hd
  · -- DOMAIN_POWER_FAIL of a bent's domain
    rintro s dt m d _ hm hd rfl
    exact domainPowerFail_bent hm hd
  · -- MARGIN_RESET
    rintro s dt _ ⟨hup, rfl⟩
    exact does_unit rfl hup rfl

end Sys2Proof.Proofs
end

section
/-!
PROOFS of the family 18_trust_and_story_sticks: the owner commands that write fuses, the sessions, and the messages that a session answers.
-/
namespace Sys2Proof.Proofs
open Sys2Proof.Machine Sys2Proof.Laws

/-! ### The owner commands (R507, R509, R523) -/

section
variable {s : State} {dt : Nat} {m : Chip} {a : Auth} {v : Session} (hm : Now s dt m)
include hm

/-- In service recovery, as log entry 106 reads it, the owner is commissioned. -/
theorem commissioning_admitted (hash : Nat) (ha : Admitted m [1] true false a v) (hrec : (consumed a v m).inRecovery = true)
    (hrec' : ((consumed a v m).acceptCmd a).inRecovery = true) : Does (.commissioning dt a hash) s
    (((consumed a v m).acceptCmd a).onFuses fun f => { f with slots := [hash], active := 0, lifecycle := 3 }) := by
  obtain ⟨hup, rfl⟩ := hm
  refine does_unit rfl hup ((signedIn_admitted _ _ _ _ a v _ ha ?_).trans ?_)
  · simp only [hrec, Bool.not_true, Bool.false_eq_true, if_false]
  · simp only [hrec', Bool.not_true, Bool.false_eq_true, if_false]

theorem ownerRotation_admitted (hash : Nat) (ha : Admitted m [3] true false a v) (hslot : m.trust.fuses.active < 3) :
    Does (.ownerRotation dt a hash) s (((consumed a v m).acceptCmd a).onFuses fun f =>
      { f with slots := f.slots.take (f.active + 1) ++ [hash], revoked := f.revoked ++ [f.active], active := f.active + 1 }) := by
  obtain ⟨hup, rfl⟩ := hm
  refine does_unit rfl hup ((signed_admitted _ _ _ a v _ ha ?_).trans ?_)
  · simp only [consumed_fuses, Nat.not_le.2 hslot, if_false]
  · simp only [acceptCmd_fuses, consumed_fuses, Nat.not_le.2 hslot, if_false]

/-- The counter takes the bits written, at most to the version named (log entry 110, a choice of the model). -/
theorem antiRollbackAdvance_admitted {w : Nat} (written : Nat) (ha : Admitted m [3] true false a v)
    (habove : m.trust.fuses.counter < w) (hmax : w ≤ 128) (hloaded : m.stick.loaded = true) (hversion : w ≤ m.stick.version) :
    Does (.antiRollbackAdvance dt a w written) s
      (((consumed a v m).acceptCmd a).onFuses fun f => { f with counter := min w (f.counter + written) }) := by
  obtain ⟨hup, rfl⟩ := hm
  have hallowed : ¬ (w ≤ (elapse dt s.m).trust.fuses.counter ∨ 128 < w ∨ (!(elapse dt s.m).stick.loaded) = true ∨
      (elapse dt s.m).stick.version < w) := by
    rw [hloaded]
    simp only [Bool.not_true, Bool.false_eq_true, false_or, not_or, Nat.not_le, Nat.not_lt]
    exact ⟨habove, hmax, hversion⟩
  refine does_unit rfl hup ((signed_admitted _ _ _ a v _ ha ?_).trans ?_)
  · simp only [consumed_fuses, consumed_stick, hallowed, if_false]
  · simp only [acceptCmd_fuses, acceptCmd_stick, consumed_fuses, consumed_stick, hallowed, if_false]
    rw [Chip.onFuses, Chip.onFuses, Chip.onTrust, Chip.onTrust, acceptCmd_fuses, consumed_fuses]

end

/-- Settles O5: an owner command acts once admitted (`signedIn_admitted`), where its own rule allows it. -/
theorem ownerCommandsBlowFuses : Obligations.OwnerCommandsBlowFuses := by
  refine ⟨?_, ?_, ?_, ?_⟩
  · -- COMMISSIONING
    intro s dt m a v hash hm ha hrec hrec'
    exact commissioning_admitted hm hash ha hrec hrec'
  · -- OWNER_ROTATION
    intro s dt m a v hash hm ha hslot
    exact ownerRotation_admitted hm hash ha hslot
  · -- DECOMMISSIONING
    rintro s dt _ a v ⟨hup, rfl⟩ ha
    exact does_unit rfl hup (signed_admitted _ _ _ a v _ ha rfl)
  · -- ANTI_ROLLBACK_ADVANCE
    intro s dt m a v w written hm ha habove hmax hloaded hversion
    exact antiRollbackAdvance_admitted hm written ha habove hmax hloaded hversion

/-! ### Sessions that open and close (R530, R532, R568, R572) -/

section
variable {s : State} {dt : Nat} {m : Chip} (hm : Now s dt m)
include hm

theorem sessionOpen_opens {p level certHash : Nat} (hp : p < Config.ethPorts) (hlevel : level < 3) (hfw : m.get F.MB_STAT_fw_state ≠ 0)
    (hport : m.get (F.ETH_STAT_state p) = 1) (hroom : m.trust.sessions.length < 8)
    (hcert : m.trust.revokedCerts.contains certHash = false) : Does (.sessionOpen dt p level certHash true) s
    (((m.onTrust fun t =>
        { t with
          sessions := t.sessions ++ [{ id := m.trust.nextSession, port := p, level, lastAt := m.now }]
          nextSession := t.nextSession + 1 }).bump R.SEC_CNT_SESSIONS).emit (.send "tls" p "open" [m.trust.nextSession, level])) := by
  obtain ⟨hup, rfl⟩ := hm
  refine does_unit (decide_eq_true hp) hup (if_neg ?_)
  rw [hcert, Bool.not_true]
  simp only [Bool.false_eq_true, or_false, not_or, not_not, Nat.not_le, Nat.not_lt]
  exact ⟨hfw, hport, hroom, Nat.le_of_lt_succ hlevel⟩

theorem sessionOpen_full {p : Nat} (level certHash : Nat) (certOk : Bool) (hp : p < Config.ethPorts)
    (hfull : 8 ≤ m.trust.sessions.length) :
    Does (.sessionOpen dt p level certHash certOk) s (m.emit (.send "tls" p "refused" [])) := by
  obtain ⟨hup, rfl⟩ := hm
  exact does_unit (decide_eq_true hp) hup (if_pos (.inr (.inr (.inl hfull))))

theorem sessionClose_closes (id : Nat) : Does (.sessionClose dt id) s (m.closeSession id) := by
  obtain ⟨hup, rfl⟩ := hm
  exact does_unit rfl hup rfl

section
variable {id : Nat} {v : Session} (hv : m.session id = some v)
include hv

theorem sessionIdleTimeout_due (h : v.lastAt + 300000000000 ≤ m.now) : Does (.sessionIdleTimeout dt id) s (m.closeSession id) := by
  obtain ⟨hup, rfl⟩ := hm
  refine does_unit rfl hup ?_
  simp only [sessionIdleTimeout, hv, h, if_true]

theorem sessionIdleTimeout_notDue (h : m.now < v.lastAt + 300000000000) : Does (.sessionIdleTimeout dt id) s m := by
  obtain ⟨hup, rfl⟩ := hm
  refine does_unit rfl hup ?_
  simp only [sessionIdleTimeout, hv, Nat.not_le.2 h, if_false]

end
end

/-- A closed session is gone. -/
theorem session_closeSession (m : Chip) (id : Nat) : (m.closeSession id).session id = none :=
  List.find?_eq_none.2 fun v hv => by
    have hid := (List.mem_filter.1 hv).2
    simpa using hid

/-- A closed session leaves no subscription. -/
theorem subs_closeSession {m : Chip} {id : Nat} : ∀ q ∈ (m.closeSession id).subs, q.session ≠ id := fun q hq => by
  have hid := (List.mem_filter.1 hq).2
  simpa using hid

/-- Settles O7: the commands have a lemma per branch; what a closed session leaves is `session_closeSession` and `subs_closeSession`. -/
theorem sessionsOpenAndClose : Obligations.SessionsOpenAndClose := by
  refine ⟨?_, ?_, ?_, ?_, ?_, ?_, ?_, ?_⟩
  · -- SESSION_OPEN that is accepted
    intro s dt m p level certHash hm hp hlevel hfw hport hroom hcert
    exact sessionOpen_opens hm hp hlevel hfw hport hroom hcert
  · -- SESSION_OPEN with eight open
    intro s dt m p level certHash certOk hm hp _ hfull
    exact sessionOpen_full hm level certHash certOk hp hfull
  · -- SESSION_CLOSE
    intro s dt m id hm
    exact sessionClose_closes hm id
  · -- SESSION_CLOSE: what it leaves
    intro s dt m id hm
    exact ⟨_, sessionClose_closes hm id, rfl, session_closeSession m id, subs_closeSession⟩
  · -- SESSION_IDLE_TIMEOUT: what it leaves
    intro s dt m id v hm hv h
    exact ⟨_, sessionIdleTimeout_due hm hv h, rfl, session_closeSession m id, subs_closeSession⟩
  · -- SESSION_IDLE_TIMEOUT, due
    intro s dt m id v hm hv h
    exact sessionIdleTimeout_due hm hv h
  · -- SESSION_IDLE_TIMEOUT, not due
    intro s dt m id v hm hv h
    exact sessionIdleTimeout_notDue hm hv h
  · -- CHALLENGE_EXPIRY
    rintro s dt _ ⟨hup, rfl⟩
    exact does_unit rfl hup rfl

/-! ### Messages of a session (R526, R530, R532, R535, R569, R570) -/

section
variable {s : State} {dt : Nat} {m : Chip} {id : Nat} {v : Session} (hm : Now s dt m) (hv : (m.touch id).session id = some v)
include hm hv

section
variable (hlevel : v.level ≠ 0)
include hlevel

theorem challenge_issued (h : (liveChallenges (m.touch id).now v).length < 16) : Does (.challenge dt id) s
    (((m.touch id).draw.2.setSession
      { v with challenges := liveChallenges (m.touch id).now v ++ [((m.touch id).draw.1 % 2 ^ 128, (m.touch id).now)] }).answer id
        "challenge" [(m.touch id).draw.1 % 2 ^ 128]) := by
  obtain ⟨hup, rfl⟩ := hm
  refine does_unit rfl hup ?_
  simp only [challenge, hv, hlevel, Nat.not_le.2 h, if_false]

theorem challenge_busy (h : 16 ≤ (liveChallenges (m.touch id).now v).length) :
    Does (.challenge dt id) s ((m.touch id).answer id "status" [2]) := by
  obtain ⟨hup, rfl⟩ := hm
  refine does_unit rfl hup ?_
  simp only [challenge, hv, hlevel, h, if_false, if_true]

theorem result_stored {c : Nat} {r : Nat × Nat} (hr : ((m.touch id).trust.results.find? fun r => r.1 == c) = some r) :
    Does (.result dt id c) s ((m.touch id).answer id "result" [r.2]) := by
  obtain ⟨hup, rfl⟩ := hm
  refine does_unit rfl hup ?_
  simp only [result, hv, hlevel, hr, if_false]

end

theorem attest_answers (nonce : List Byte) : Does (.attest dt id nonce) s ((m.touch id).draw.2.answer id "report"
    (((m.touch id).report nonce ++ leBytes 96 (m.touch id).draw.1).map (·.toNat))) := by
  obtain ⟨hup, rfl⟩ := hm
  refine does_unit rfl hup ?_
  simp only [attest, hv]

/-- The entries asked for whose tag is good are answered; the others count and are flagged. -/
theorem logRead_answers {first count : Nat} (bad : List Nat) {l : List NvEntry}
    (hl : l = (m.touch id).nvLog.filter fun e => decide (first ≤ e.seq) && decide (e.seq < first + count)) (h0 : count ≠ 0)
    (hmax : count ≤ 1024) (hsrc : (m.touch id).get F.RP_STRAP_boot_src ≠ 2) : Does (.logRead dt id first count bad) s
    ((((m.touch id).bumpBy R.SEC_CNT_LOG_AUTH (l.filter fun e => bad.contains e.seq).length).setFlagIf
      (!(l.filter fun e => bad.contains e.seq).isEmpty) F.SEC_STAT_log_auth_fail).reply id
        (.nvLog id (l.filter fun e => !bad.contains e.seq))) := by
  obtain ⟨hup, rfl⟩ := hm
  subst hl
  have hcount : ¬ (count = 0 ∨ 1024 < count) := not_or.2 ⟨h0, Nat.not_lt.2 hmax⟩
  refine does_unit rfl hup ?_
  simp only [logRead, hv, hcount, hsrc, if_false]

theorem keepalive_answers : Does (.keepalive dt id) s ((m.touch id).answer id "status" [0]) := by
  obtain ⟨hup, rfl⟩ := hm
  refine does_unit rfl hup ?_
  simp only [keepalive, hv]

end

/-- Settles O8: each message of a session has a lemma per branch. The challenge and the signature are the next free value (log entries 11
and 110); with sixteen challenges outstanding the model answers busy, which no rule and no log entry gives. -/
theorem sessionMessagesAreAnswered : Obligations.SessionMessagesAreAnswered := by
  refine ⟨?_, ?_, ?_, ?_, ?_, ?_, ?_⟩
  · -- CHALLENGE that is issued
    intro s dt m id v hm hv hlevel h
    exact challenge_issued hm hv hlevel h
  · -- CHALLENGE with sixteen outstanding
    intro s dt m id v hm hv hlevel h
    exact challenge_busy hm hv hlevel h
  · -- RESULT
    intro s dt m id c v r hm hv hlevel hr
    exact result_stored hm hv hlevel hr
  · -- ATTEST
    intro s dt m id nonce v hm hv
    exact attest_answers hm hv nonce
  · -- LOG_READ
    intro s dt m id first count bad v l hm hv hl h0 hmax hsrc
    exact logRead_answers hm hv bad hl h0 hmax hsrc
  · -- KEEPALIVE
    intro s dt m id v hm hv
    exact keepalive_answers hm hv
  · -- BAD_REQUEST_MESSAGE
    rintro s dt _ id v ⟨hup, rfl⟩ hv
    refine does_unit rfl hup ?_
    simp only [badRequestMessage, hv]

end Sys2Proof.Proofs
end

section
/-!
PROOFS of the family 20_service_access_and_housekeeping: subscriptions and timestamps, the thermal and power samples with the fans, the I2C
buses with the PMBus devices.
-/
namespace Sys2Proof.Proofs
open Sys2Proof.Machine Sys2Proof.Laws

/-! ### Subscriptions (R572, R573, R575) -/

section
variable {s : State} {dt : Nat} {m : Chip} (hm : Now s dt m)
include hm

section
variable {id : Nat} {v : Session} (hv : (m.touch id).session id = some v)
include hv

/-- A subscription takes the least free number (log entry 112, a choice of the model). -/
theorem subscribe_accepted {kind : Nat} (dest udp : Nat) (hkind : kind ≤ 2)
    (hown : ((m.touch id).subs.filter fun q => q.session == id).length < 4) (hall : (m.touch id).subs.length < 16) :
    Does (.subscribe dt id kind dest udp) s
      { (m.touch id).answer id "subscription" [(m.touch id).freeSub] with
        subs := ((m.touch id).answer id "subscription" [(m.touch id).freeSub]).subs ++
          [{ num := (m.touch id).freeSub, session := id, ethPort := v.port, kind, dest, udpPort := udp }] } := by
  obtain ⟨hup, rfl⟩ := hm
  have hroom : ¬ (4 ≤ (((elapse dt s.m).touch id).subs.filter fun q => q.session == id).length ∨
      16 ≤ ((elapse dt s.m).touch id).subs.length) := not_or.2 ⟨Nat.not_le.2 hown, Nat.not_le.2 hall⟩
  refine does_unit rfl hup ?_
  simp only [subscribe, hv, Nat.not_lt.2 hkind, hroom, if_false]

theorem subscribe_busy {kind : Nat} (dest udp : Nat) (hkind : kind ≤ 2)
    (hfull : 4 ≤ ((m.touch id).subs.filter fun q => q.session == id).length ∨ 16 ≤ (m.touch id).subs.length) :
    Does (.subscribe dt id kind dest udp) s ((m.touch id).answer id "status" [2]) := by
  obtain ⟨hup, rfl⟩ := hm
  refine does_unit rfl hup ?_
  simp only [subscribe, hv, Nat.not_lt.2 hkind, hfull, if_false, if_true]

theorem unsubscribe_own {num : Nat} (h : ((m.touch id).subs.any fun q => q.num == num && q.session == id) = true) :
    Does (.unsubscribe dt id num) s
      (Chip.answer id "status" [0] { (m.touch id) with subs := (m.touch id).subs.filter fun q => q.num != num }) := by
  obtain ⟨hup, rfl⟩ := hm
  refine does_unit rfl hup ?_
  simp only [unsubscribe, hv, h, if_true]

end

section
variable {num : Nat} {q : Sub} (hq : (m.subs.find? fun q => q.num == num) = some q)
include hq

/-- The number of the datagram skips those that the dropped records would have filled (log entry 112). -/
theorem streamDatagram_due {k : Nat} (hk : k = streamMax q.kind) (h : datagramDue m.now q = true) : Does (.streamDatagram dt num) s
    ((Chip.emit
      { m with
        subs := m.subs.map fun x =>
          if x.num = num then { q with queue := q.queue.drop k, seq := q.seq + ceilDivN q.dropped k + 1, dropped := 0 } else x }
      (.datagram num q.kind q.ethPort q.dest q.udpPort m.trust.tcpPort (q.seq + ceilDivN q.dropped k)
        (datagramBytes (m.get F.PUR_DEV_device_id) q.kind num (q.seq + ceilDivN q.dropped k)
          ((q.queue.take k).map (·.2))))).bump (R.ETH_CNT_TX q.ethPort)) := by
  obtain ⟨hup, rfl⟩ := hm
  subst hk
  refine does_unit rfl hup ?_
  simp only [streamDatagram, hq, h, Bool.not_true, Bool.false_eq_true, if_false]

theorem streamDatagram_notDue (h : datagramDue m.now q = false) : Does (.streamDatagram dt num) s m := by
  obtain ⟨hup, rfl⟩ := hm
  refine does_unit rfl hup ?_
  simp only [streamDatagram, hq, h, Bool.not_false, if_true]

end

/-! ### The timestamps of an Ethernet port (R583) -/

theorem ethTsPop_oldest {p : Nat} {r : TsRec} {l : List TsRec} (hp : p < Config.ethPorts) (h : (m.ethPort p).ts = r :: l) :
    Does (.ethTsPop dt p) s (((((m.setEthPort p { m.ethPort p with ts := l }).wr (R.ETH_TS_HDR p) (BitVec.ofNat 32
      (2 ^ 31 + b2n r.tx * 2 ^ 30 + b2n r.domB * 2 ^ 29 + r.msgType % 16 * 2 ^ 20 + r.seqId % 65536))).wr64 (R.ETH_TS_TB0_LO p)
        (R.ETH_TS_TB0_HI p) r.t0).wr64 (R.ETH_TS_TB1_LO p) (R.ETH_TS_TB1_HI p) r.t1).wr64 (R.ETH_TS_TB2_LO p) (R.ETH_TS_TB2_HI p)
          r.t2) := by
  obtain ⟨hup, rfl⟩ := hm
  refine does_unit (decide_eq_true hp) hup ?_
  simp only [ethTsPop, Chip.tsPop, h]

theorem ethTsPop_empty {p : Nat} (hp : p < Config.ethPorts) (h : (m.ethPort p).ts = []) :
    Does (.ethTsPop dt p) s (m.wr (R.ETH_TS_HDR p) 0) := by
  obtain ⟨hup, rfl⟩ := hm
  refine does_unit (decide_eq_true hp) hup ?_
  simp only [ethTsPop, Chip.tsPop, h]

end

/-- Settles O11: each command has a lemma per branch. -/
theorem subscriptionsCarryRecords : Obligations.SubscriptionsCarryRecords := by
  refine ⟨?_, ?_, ?_, ?_, ?_, ?_, ?_⟩
  · -- SUBSCRIBE that is accepted
    rintro s dt m id kind dest udp v _ hm hv _ hkind hown hall rfl
    exact subscribe_accepted hm hv dest udp hkind hown hall
  · -- SUBSCRIBE without room
    intro s dt m id kind dest udp v hm hv _ hkind hfull
    exact subscribe_busy hm hv dest udp hkind hfull
  · -- UNSUBSCRIBE
    intro s dt m id num v hm hv h
    exact unsubscribe_own hm hv h
  · -- STREAM_DATAGRAM, due
    intro s dt m num q k hm hq h hk
    exact streamDatagram_due hm hq hk h
  · -- STREAM_DATAGRAM, not due
    intro s dt m num q hm hq h
    exact streamDatagram_notDue hm hq h
  · -- ETH_TS_POP
    intro s dt m p r l hm hp h
    exact ethTsPop_oldest hm hp h
  · -- ETH_TS_POP of an empty queue
    intro s dt m p hm hp h
    exact ethTsPop_empty hm hp h

/-! ### Samples (R576, R577) -/

section
variable {s : State} {dt : Nat} {m : Chip} (hm : Now s dt m)
include hm

theorem thermalSample_withoutReadings (hsill : m.validTemps 0 8 = []) (hridge : m.validTemps 8 16 = []) :
    Does (.thermalSample dt [] [] []) s (m.onHk fun h => { h with hottest := h.hottest }).setDuties := by
  obtain ⟨hup, rfl⟩ := hm
  refine does_unit rfl hup ?_
  simp only [thermalSample, List.take_nil, List.zipIdx_nil, forAll, List.foldl_nil, hsill, hridge, hottestOf, Option.toList_none,
    List.nil_append, List.map_nil, Option.getD_none]

theorem thermalSample_oneSensor {t : Int} {x : Chip} (hx : x = m.sensorRead 0 t) (hsill : x.validTemps 0 8 = [t])
    (hridge : x.validTemps 8 16 = []) : Does (.thermalSample dt [t] [] []) s
    ((((x.put F.HK_TEMP_sill_max (unsignedOf 8 t)).dieSources SrcName.sillThermalWarning SrcName.sillThermalHigh
      SrcName.sillThermalCritical t).onHk fun h => { h with hottest := t }).setDuties) := by
  obtain ⟨hup, rfl⟩ := hm
  subst hx
  have hread : forAll ([t].take 8).zipIdx (fun p m => m.sensorRead p.2 p.1) (elapse dt s.m) = (elapse dt s.m).sensorRead 0 t := rfl
  have hnone : ∀ y : Chip, forAll (([] : List Int).take 16).zipIdx (fun p m => m.sensorRead (8 + p.2) p.1) y = y := fun _ => rfl
  refine does_unit rfl hup ?_
  simp only [thermalSample, hread, hnone, hsill, hridge, hottestOf, List.foldl_nil, Option.toList_some, Option.toList_none,
    List.append_nil, List.map_nil, Option.getD_some]

theorem powerSample_sums {mv ma : Nat} (h : m.hk.samples + 1 < 10) : Does (.powerSample dt mv ma) s
    ((m.wr64 R.HK_ENERGY_LO R.HK_ENERGY_HI ((m.hk.energy + mv * ma) / 10000000000 % 2 ^ 64)).onHk fun h =>
      { h with
        vSum := m.hk.vSum + mv, iSum := m.hk.iSum + ma, pSum := m.hk.pSum + mv * ma, samples := m.hk.samples + 1
        energy := m.hk.energy + mv * ma }) := by
  obtain ⟨hup, rfl⟩ := hm
  exact does_unit rfl hup (if_pos h)

/-! ### Fans (R578, R579, R585) -/

section
variable {f : Nat} (hf : f < 4)
include hf

section
variable (hstarts : m.fanState f = 1)
include hstarts

theorem fanTimer_runs (r : Nat) (h : (m.fan f).startAt + 2000000000 ≤ m.now) : Does (.fanTimer dt f (some r)) s
    (((((m.put (F.HK_FAN_state f) 2).put (F.HK_FAN_rpm f) (min 65535 r)).put (F.HK_FAN_restarts f) 0).onHk fun h =>
      { h with fullUntil := if 0 < m.get (F.HK_FAN_restarts f) then m.now + 10000000000 else h.fullUntil }).setDuties) := by
  obtain ⟨hup, rfl⟩ := hm
  refine does_unit (decide_eq_true hf) hup ?_
  simp only [fanTimer, hstarts, Nat.not_lt.2 h, if_false]

theorem fanTimer_stillStarts (o : Option Nat) (h : m.now < (m.fan f).startAt + 2000000000) :
    Does (.fanTimer dt f o) s m.setDuties := by
  obtain ⟨hup, rfl⟩ := hm
  refine does_unit (decide_eq_true hf) hup ?_
  simp only [fanTimer, hstarts, h, if_true]

theorem fanTimer_blocked (h : (m.fan f).startAt + 4000000000 ≤ m.now) : Does (.fanTimer dt f none) s ((m.fanOff f 3).setDuties) := by
  obtain ⟨hup, rfl⟩ := hm
  have h2 : ¬ (elapse dt s.m).now < ((elapse dt s.m).fan f).startAt + 2000000000 := by omega
  refine does_unit (decide_eq_true hf) hup ?_
  simp only [fanTimer, hstarts, h, h2, if_false, if_true]

end

theorem fanTimer_shows (r : Nat) (hruns : m.fanState f = 2) :
    Does (.fanTimer dt f (some r)) s ((m.put (F.HK_FAN_rpm f) (min 65535 r)).setDuties) := by
  obtain ⟨hup, rfl⟩ := hm
  refine does_unit (decide_eq_true hf) hup ?_
  simp only [fanTimer, hruns]

/-- A blocked or stopped fan restarts 10 s after it was switched off. -/
theorem fanTimer_restarts (o : Option Nat) (hoff : m.fanState f = 3 ∨ m.fanState f = 4)
    (h : (m.fan f).offAt + 10000000000 ≤ m.now) : Does (.fanTimer dt f o) s (m.restartFan f).setDuties := by
  obtain ⟨hup, rfl⟩ := hm
  refine does_unit (decide_eq_true hf) hup ?_
  obtain hblocked | hstopped := hoff
  · simp only [fanTimer, hblocked, h, if_true]
  · simp only [fanTimer, hstopped, h, if_true]

theorem fanTachLoss_stops (hruns : m.fanState f = 2) : Does (.fanTachLoss dt f) s (((m.fanOff f 4).raise SrcName.fan).setDuties) := by
  obtain ⟨hup, rfl⟩ := hm
  exact does_unit (decide_eq_true hf) hup (if_pos hruns)

theorem fanTachLoss_ignored (h : m.fanState f ≠ 2) : Does (.fanTachLoss dt f) s m := by
  obtain ⟨hup, rfl⟩ := hm
  exact does_unit (decide_eq_true hf) hup (if_neg h)

theorem fanRetry_restarts (hfault : m.fanState f = 5) : Does (.fanRetry dt f) s
    ((((m.put (F.HK_FAN_restarts f) 0).bump R.HK_CNT_FAN_RESTART).startFan f).setDuties) := by
  obtain ⟨hup, rfl⟩ := hm
  exact does_unit (decide_eq_true hf) hup (if_pos hfault)

theorem fanRetry_ignored (h : m.fanState f ≠ 5) : Does (.fanRetry dt f) s m := by
  obtain ⟨hup, rfl⟩ := hm
  exact does_unit (decide_eq_true hf) hup (if_neg h)

end
end

/-- Settles O44: each sample and timer has a lemma per branch; what they leave is said by `thermal_hk`, `power_hk`, `restart_fan` and
`off_fan`. The readings and duties follow the model's readings of the rules (log entries 102 and 103). -/
theorem fansFollowTheirTimers : Obligations.FansFollowTheirTimers := by
  refine ⟨?_, ?_, ?_, ?_, ?_, ?_, ?_, ?_, ?_, ?_, ?_, ?_, ?_, ?_, ?_, ?_, ?_⟩
  · -- THERMAL_SAMPLE without a reading
    rintro s dt m _ hm rfl hsill hridge
    exact thermalSample_withoutReadings hm hsill hridge
  · -- THERMAL_SAMPLE of one sensor
    intro s dt m t x hm hx hsill hridge
    exact thermalSample_oneSensor hm hx hsill hridge
  · -- THERMAL_SAMPLE: the hottest temperature
    rintro s dt m sill ridge hbm x ⟨hup, hm⟩ hx
    exact ⟨_, does_unit rfl hup rfl, rfl, thermal_hk dt sill ridge hbm s.m m x hm hx⟩
  · -- POWER_SAMPLE, nine of ten
    intro s dt m mv ma hm h
    exact powerSample_sums hm h
  · -- POWER_SAMPLE: the energy
    rintro s dt m mv ma ⟨hup, hm⟩
    exact ⟨_, does_unit rfl hup rfl, rfl, power_hk dt mv ma s.m m hm⟩
  · -- FAN_TIMER of a starting fan that shows a speed
    intro s dt m f r hm hf hst h
    exact fanTimer_runs hm hf hst r h
  · -- FAN_TIMER before 2 s
    intro s dt m f o hm hf hst h
    exact fanTimer_stillStarts hm hf hst o h
  · -- FAN_TIMER of a fan without a speed after 4 s
    intro s dt m f hm hf hst h
    exact fanTimer_blocked hm hf hst h
  · -- FAN_TIMER of a running fan
    intro s dt m f r hm hf hst
    exact fanTimer_shows hm hf r hst
  · -- FAN_TIMER of a blocked or stopped fan
    intro s dt m f o hm hf hst h
    exact fanTimer_restarts hm hf o hst h
  · -- FAN_TIMER: when the restart began
    intro s dt m f o hm hf hst h hnow
    exact ⟨_, fanTimer_restarts hm hf o hst h, rfl, restart_fan f _ m hnow⟩
  · -- FAN_TACH_LOSS of a running fan
    intro s dt m f hm hf hst
    exact fanTachLoss_stops hm hf hst
  · -- FAN_TACH_LOSS: when the fan was switched off
    intro s dt m f hm hf hst hnow
    exact ⟨_, fanTachLoss_stops hm hf hst, rfl, off_fan f m hnow⟩
  · -- FAN_TACH_LOSS of another fan
    intro s dt m f hm hf hst
    exact fanTachLoss_ignored hm hf hst
  · -- FAN_RETRY of a faulted fan
    intro s dt m f hm hf hst
    exact fanRetry_restarts hm hf hst
  · -- FAN_RETRY: when the restart began
    intro s dt m f hm hf hst hnow
    exact ⟨_, fanRetry_restarts hm hf hst, rfl, restart_fan f 0 m hnow⟩
  · -- FAN_RETRY of another fan
    intro s dt m f hm hf hst
    exact fanRetry_ignored hm hf hst

/-! ### Transactions on an I2C bus (R580 to R582) -/

theorem i2cRequest_disabled {m : Chip} {c : Nat} (j : I2cJob) (h : m.flag (F.HK_I2C_disabled c) = true) : m.i2cRequest c j =
    (m.bump R.HK_CNT_I2C_ERR).emit (.send "i2c" c "bus_stuck" [j.dev, b2n j.write]) := if_pos h

/-- On an idle bus with nothing waiting the transaction runs. -/
theorem i2cRequest_idle {m : Chip} {c : Nat} (j : I2cJob) (h : m.flag (F.HK_I2C_disabled c) = false) (hq : (m.bus c).queue = [])
    (hcur : (m.bus c).cur = none) : m.i2cRequest c j = (m.setBus c { m.bus c with queue := [j] }).i2cRun c 2 := by
  simp only [Chip.i2cRequest, h, hq, hcur, Bool.false_eq_true, if_false, Option.isSome_none, List.nil_append, List.length_nil]

/-- Behind a transaction in progress it waits. -/
theorem i2cRequest_waits {m : Chip} {c : Nat} (j : I2cJob) (h : m.flag (F.HK_I2C_disabled c) = false) {k : I2cJob}
    (hcur : (m.bus c).cur = some k) : m.i2cRequest c j = m.setBus c { m.bus c with queue := (m.bus c).queue ++ [j] } := by
  simp only [Chip.i2cRequest, h, hcur, Bool.false_eq_true, if_false, Option.isSome_some, if_true]

/-- A bus that is given a waiting transaction holds it. -/
theorem queue_setBus (m : Chip) (c : Nat) (l : List I2cJob) (j : I2cJob) :
    ((m.setBus c { m.bus c with queue := l ++ [j] }).bus c).queue = l ++ [j] := by
  have hne : { m.bus c with queue := l ++ [j] } ≠ ({} : I2cState) := fun e => by simpa using congrArg I2cState.queue e
  rw [bus_set m c _ hne]

section
variable {s : State} {dt : Nat} {m : Chip} {c : Nat} (hm : Now s dt m) (hc : c < 2)
include hm hc

/-- Firmware's transaction is requested, but for a write to a listed PMBus device. -/
theorem i2cTransaction_requested {dev : Nat} {w : Bool} (e : Option Bool)
    (h : (w && m.stick.pmbus.any fun d => d.bus == c && d.addr == dev) = false) :
    Does (.i2cTransaction dt c dev w e none) s (m.i2cRequest c { dev, write := w, ends := e }) := by
  obtain ⟨hup, rfl⟩ := hm
  exact does_unit (decide_eq_true hc) hup (if_neg (Bool.eq_false_iff.1 h))

theorem i2cTransaction_listedWrite {dev : Nat} (e : Option Bool)
    (h : (m.stick.pmbus.any fun d => d.bus == c && d.addr == dev) = true) : Does (.i2cTransaction dt c dev true e none) s m := by
  obtain ⟨hup, rfl⟩ := hm
  exact does_unit (decide_eq_true hc) hup (if_pos h)

theorem i2cTransaction_disabled (dev : Nat) (e : Option Bool) (h : m.flag (F.HK_I2C_disabled c) = true) :
    Does (.i2cTransaction dt c dev false e none) s
      ((m.bump R.HK_CNT_I2C_ERR).emit (.send "i2c" c "bus_stuck" [dev, 0])) :=
  i2cRequest_disabled { dev, write := false, ends := e } h ▸ i2cTransaction_requested hm hc e (Bool.false_and _)

theorem smbusTimeout_ends {j : I2cJob} (hcur : (m.bus c).cur = some j) (h : (m.bus c).since + 35000000 ≤ m.now) :
    Does (.smbusTimeout dt c) s ((((m.setBus c { m.bus c with cur := none }).bump R.HK_CNT_I2C_ERR).emit
      (.send "i2c" c "error" [j.dev, b2n j.write])).i2cRun c ((m.bus c).queue.length + 1)) := by
  obtain ⟨hup, rfl⟩ := hm
  refine does_unit (decide_eq_true hc) hup ?_
  simp only [smbusTimeout, hcur, Nat.not_lt.2 h, if_false]
  rfl

theorem smbusTimeout_idle (hcur : (m.bus c).cur = none) : Does (.smbusTimeout dt c) s m := by
  obtain ⟨hup, rfl⟩ := hm
  refine does_unit (decide_eq_true hc) hup ?_
  simp only [smbusTimeout, hcur]

/-! ### Recovery of an I2C bus (R581) -/

theorem busStuck_recovers (low : Bool) (free : Option Nat) (hcur : (m.bus c).cur = none)
    (h : m.flag (F.HK_I2C_disabled c) = false) : Does (.busStuck dt c low free) s (m.i2cRecover c low free) := by
  obtain ⟨hup, rfl⟩ := hm
  refine does_unit (decide_eq_true hc) hup ?_
  simp only [busStuck, hcur, h, Option.isSome_none, Bool.or_self, Bool.false_eq_true, if_false]

theorem i2cRecoveryRetry_recovers (low : Bool) (free : Option Nat) (h : m.flag (F.HK_I2C_disabled c) = true)
    (hdue : (m.bus c).retryAt ≤ m.now) : Does (.i2cRecoveryRetry dt c low free) s (m.i2cRecover c low free) := by
  obtain ⟨hup, rfl⟩ := hm
  refine does_unit (decide_eq_true hc) hup ?_
  simp only [i2cRecoveryRetry, h, hdue, decide_true, Bool.and_self, if_true]

theorem i2cRecoveryRetry_notDue (low : Bool) (free : Option Nat)
    (h : m.flag (F.HK_I2C_disabled c) = false ∨ m.now < (m.bus c).retryAt) : Does (.i2cRecoveryRetry dt c low free) s m := by
  obtain ⟨hup, rfl⟩ := hm
  refine does_unit (decide_eq_true hc) hup (if_neg ?_)
  rw [Bool.and_eq_true, decide_eq_true_iff, not_and_or, Bool.not_eq_true, Nat.not_le]
  exact h

end

/-- The module once recovery has failed after `n` attempts: the bus is flagged and disabled. -/
def busDisabled (c n : Nat) (m : Chip) : Chip :=
  (((m.bumpBy R.HK_CNT_I2C_RECOVER n).setFlag (stuckFlag c)).put (F.HK_I2C_disabled c) 1).put (F.HK_I2C_state c) 3

/-- The module once the recovery of bus `c` is due again a second later, and the source of a stuck bus is up. -/
def retryLater (c : Nat) (x : Chip) : Chip :=
  (x.setBus c { x.bus c with retryAt := x.now + 1000000000 }).assert SrcName.i2cBusStuck

/-- With the clock low no pulses are sent; with it high, three attempts are made. -/
theorem i2cRecover_fails (m : Chip) (c : Nat) (low : Bool) :
    m.i2cRecover c low none = retryLater c (busDisabled c (if low then 0 else 3) m) := rfl

/-! ### Polls of the PMBus devices (R582) -/

section
variable {s : State} {dt : Nat} {m : Chip} (hm : Now s dt m)
include hm

theorem pmbusPoll_unlisted (l : List (Option Nat)) (h : m.stick.pmbus = []) : Does (.pmbusPoll dt l) s m := by
  obtain ⟨hup, rfl⟩ := hm
  refine does_unit rfl hup ?_
  rw [pmbusPoll, h]
  rfl

theorem pmbusPoll_one {d : PmbDev} {k w : Nat} (hd : m.stick.pmbus = [d]) (hk : d.cmds = [k])
    (h : m.flag (F.HK_I2C_disabled d.bus) = false) :
    Does (.pmbusPoll dt [some w]) s ((m.put (F.HK_PMB_dev_cmd 0) 0).put (F.HK_PMB_value 0) (w % 65536)) := by
  obtain ⟨hup, rfl⟩ := hm
  have hreads : ((elapse dt s.m).stick.pmbus.zipIdx.flatMap fun d => d.1.cmds.zipIdx.map fun k => (d.1.bus, d.2, k.2)) =
      [(d.bus, 0, 0)] := by
    rw [hd]
    simp [hk]
  refine does_unit rfl hup ?_
  simp only [pmbusPoll, hreads, List.zipIdx_cons, List.zipIdx_nil, List.take_succ_cons, List.take_nil, forAll, List.foldl_cons,
    List.foldl_nil, h]
  rfl

end

/-- A device's value shows in full: it has the 16 bits of its field. -/
theorem get_pmbValue (m : Chip) {w : Nat} (h : w % 65536 ≠ 0) :
    (m.put (F.HK_PMB_value 0) (w % 65536)).get (F.HK_PMB_value 0) = w % 65536 := by
  have hfits : w % 65536 % 2 ^ 16 = w % 65536 := Nat.mod_mod ..
  exact (get_put_ne m (F.HK_PMB_value 0) _ (by decide) (by decide) (hfits.trans_ne h)).trans hfits

/-- Settles O45: a request is one of the `i2cRequest_…` lemmas, a stuck bus goes through `Chip.i2cRecover`; what they leave is said by
`queue_setBus`, `smbus_out`, `retry_bus` and `get_pmbValue`. -/
theorem i2cBusesRecover : Obligations.I2cBusesRecover := by
  refine ⟨?_, ?_, ?_, ?_, ?_, ?_, ?_, ?_, ?_, ?_, ?_, ?_, ?_, ?_, ?_, ?_, ?_, ?_⟩
  · -- I2C_TRANSACTION on a disabled bus
    intro s dt m c dev e hm hc _ h
    exact i2cTransaction_disabled hm hc dev e h
  · -- I2C_TRANSACTION on a disabled bus: what is sent
    intro s dt m c dev e hm hc _ h
    exact ⟨_, i2cTransaction_disabled hm hc dev e h, rfl, rfl⟩
  · -- I2C_TRANSACTION on an idle bus
    rintro s dt m c dev ok _ hm hc _ h hq hcur rfl
    exact i2cRequest_idle { dev, write := false, ends := some ok } h hq hcur ▸
      i2cTransaction_requested hm hc (some ok) (Bool.false_and _)
  · -- I2C_TRANSACTION behind one in progress
    intro s dt m c dev w e k hm hc _ hw h hcur
    refine ⟨_, i2cTransaction_requested hm hc e hw, rfl, ?_⟩
    dsimp only
    rw [i2cRequest_waits _ h hcur, queue_setBus]
  · -- I2C_TRANSACTION that writes to a listed device
    intro s dt m c dev e hm hc _ h
    exact i2cTransaction_listedWrite hm hc e h
  · -- I2C_TRANSACTION that writes, signed
    rintro s dt _ a v c dev e ⟨hup, rfl⟩ ha hc _
    exact does_unit (decide_eq_true hc) hup (signed_admitted _ _ _ a v _ ha rfl)
  · -- SMBUS_TIMEOUT
    intro s dt m c j hm hc hcur h
    exact smbusTimeout_ends hm hc hcur h
  · -- SMBUS_TIMEOUT: what is sent
    intro s dt m c j hm hc hcur h hq hsince
    exact ⟨_, smbusTimeout_ends hm hc hcur h, rfl, smbus_out c j m hq hsince⟩
  · -- SMBUS_TIMEOUT without a transaction
    intro s dt m c hm hc hcur
    exact smbusTimeout_idle hm hc hcur
  · -- BUS_STUCK, freed
    intro s dt m c k hm hc hcur h
    exact busStuck_recovers hm hc false (some k) hcur h
  · -- BUS_STUCK, not freed
    rintro s dt m c low _ hm hc hcur h rfl
    exact busStuck_recovers hm hc low none hcur h
  · -- BUS_STUCK, not freed: the next attempt
    intro s dt m c low x hm hc hcur h hx
    refine ⟨_, busStuck_recovers hm hc low none hcur h, rfl, ?_⟩
    dsimp only
    rw [i2cRecover_fails]
    exact retry_bus c m _ rfl
  · -- I2C_RECOVERY_RETRY, not freed
    rintro s dt m c _ hm hc h hdue rfl
    exact i2cRecoveryRetry_recovers hm hc false none h hdue
  · -- I2C_RECOVERY_RETRY, not freed: the next attempt
    intro s dt m c x hm hc h hdue hx
    refine ⟨_, i2cRecoveryRetry_recovers hm hc false none h hdue, rfl, ?_⟩
    dsimp only
    rw [i2cRecover_fails]
    exact retry_bus c m _ rfl
  · -- I2C_RECOVERY_RETRY of an enabled bus or too early
    intro s dt m c low free hm hc h
    exact i2cRecoveryRetry_notDue hm hc low free h
  · -- PMBUS_POLL without a device
    intro s dt m l hm h
    exact pmbusPoll_unlisted hm l h
  · -- PMBUS_POLL of one device
    intro s dt m d k w hm hd hk h
    exact pmbusPoll_one hm hd hk h
  · -- PMBUS_POLL of one device: the value shown
    intro s dt m d k w hm hd hk h hw
    exact ⟨_, pmbusPoll_one hm hd hk h, rfl, get_pmbValue _ hw⟩

end Sys2Proof.Proofs
end
